-- ==== Sys2Proof/Word.lean ====
section
/-!
DEFINITION. The words of the block: a byte, a 64-bit register word, a 64-byte line.
Sizes follow 00_scope.md R8 and R9.
-/
namespace Sys2Proof

/-- A byte of memory or of a record. -/
abbrev Byte := BitVec 8

/-- A register of the device: 64 bits (R9). -/
abbrev W64 := BitVec 64

/-- A sequence of bytes, lowest address first. -/
abbrev Bytes := List Byte

end Sys2Proof
end

