-- ==== Sys2Proof/Syntax.lean ====
section
/-!
DEFINITION. The commands the block takes from outside, one constructor per row of spec/opcode_table.json.
The table gives a row no operand and no bits; each constructor carries what the rule it cites needs: the partition,
core, port or object concerned, the value written, the frame, flit or message received, or the physical quantity
(a voltage, a duration, a failing cell) that the event states.
-/
namespace Sys2Proof

/-- A cell of a tensor array that fails self-test (04_tensor_arrays.md R118): core (physical), array, row, column. -/
structure ArrayCell where
  core : Nat
  arr : Nat
  row : Nat
  col : Nat
deriving DecidableEq, Repr

/-- What the physical world shows a boot (15_boot_security.md R486): whether ROM and fuse block pass their self-check,
the LPDDR5X channels that fail training, the array cells that fail self-test, whether REFCLK is valid and the level of
REF_SEL_N, MGMT_MODE and ADDR (18_module.md R562, R564), the occupied cages, the Larric cable, and the stage at whose
end a key touch halts the boot, if any (17_faults_reset.md R545). -/
structure BootIn where
  romOk : Bool
  badChannels : List Nat
  cells : List ArrayCell
  refClk : Bool
  refSelN : Bool
  mgmtMode : Bool
  addr : Nat
  cages : Nat
  larric : Bool
  keyStage : Option Nat
deriving DecidableEq, Repr

/-- What the power manager measures in one loop (16_power_time.md R511 to R520): input in mV and W, energy since the
last loop in mJ, base, link and memory draw in W, the mean power of one on core of each partition in mW, the hottest
and coolest sensor of each physical cluster in degrees Celsius. -/
structure PowerIn where
  inputMv : Nat
  inputW : Nat
  energyMj : Nat
  baseW : Nat
  linksW : Nat
  memoryW : Nat
  chargeMw : List Nat
  hottest : List Nat
deriving DecidableEq, Repr

/-- A unit whose drain timeout passes (17_faults_reset.md R537): a halted Dispatcher, a graph being unloaded, a core
switching off, a disabled Skimmer, a closing endpoint. -/
inductive DrainUnit
  | halt (p : Nat)
  | graph (p tag : Nat)
  | core (c : Nat)
  | skimmer (k : Nat)
  | endpoint (h : Nat)
deriving DecidableEq, Repr

/-- An Ethernet frame as a Coach port receives it (13_coach_ports.md R418, R420): destination and source address, the
number of VLAN tags, the EtherType, whether the FCS holds, and the bytes from the Coach header to the Coach CRC. -/
structure WireFrame where
  dstMac : Nat
  srcMac : Nat
  tags : Nat
  etherType : Nat
  fcsOk : Bool
  body : Bytes
deriving DecidableEq, Repr

/-- Who reads or writes a register (01_architecture.md R36): the host over Larric, Innkeeper, or the partition runtime
on logical control core `n`. -/
inductive Actor
  | host
  | innkeeper
  | core (n : Nat)
deriving DecidableEq, Repr

/-- A part of an attention task, and whether draining its accumulators meets a parity failure (04_tensor_arrays.md R117). -/
structure PartDrain where
  part : Nat
  parity : Bool
deriving DecidableEq, Repr

/-- A register access: its offset and its size in bytes (01_architecture.md R35). -/
structure Span where
  addr : Nat
  len : Nat
deriving DecidableEq, Repr

/-- The commands of the block: one constructor per row of spec/opcode_table.json, in the table's order. -/
inductive Instr
  /-- COLD_RESET (R541). Power applied, or a power fail, puts the whole module into cold reset; the boot stages then run. -/
  | coldReset
  /-- MODULE_RESET (R541). Assertion of MOD_RST_N for 50 ns or more resets the module for as long as it is held. -/
  | moduleReset (ns : Nat)
  /-- POWER_GOOD (R542). Once the 52 V input has stood within 46 V to 56 V, the module drives PWRGOOD high. -/
  | powerGood (mv : Nat)
  /-- MODULE_RESET_RELEASE (R542). When PWRGOOD and MOD_RST_N are both high, control core 0 leaves reset and MOD_ALIVE goes high. -/
  | moduleResetRelease (b : BootIn)
  /-- DEVICE_WARM_RESET (R541). 20 µs after a warm-reset trigger, the islands enter reset and the boot stages run again. -/
  | deviceWarmReset (b : BootIn)
  /-- PARTITION_RESET (R538). Once the accesses of a stopping partition have settled, the partition takes its reset: graphs, channels and pages are cleared and ledger entries go to RESTART. -/
  | partitionReset (p : Nat) (cells : List ArrayCell)
  /-- PARTITION_RESET_COMPLETE (R538). When the partition reset completes, the partition goes to RUNNING and its runtime restarts at ENTRY, or it goes to IDLE. -/
  | partitionResetComplete (p : Nat)
  /-- FLT_RESET_DEVICE_WARM (R550). FLT_RESET OP 1 requests a device warm reset. -/
  | fltResetDeviceWarm
  /-- FLT_RESET_PARTITION (R550). FLT_RESET OP 2 resets the named partition without sending ABORT. -/
  | fltResetPartition (p : Nat)
  /-- FLT_RESET_CORE (R550). FLT_RESET OP 3 resets the named physical core if it is Off, and otherwise sets CORE_BUSY. -/
  | fltResetCore (c : Nat) (cells : List ArrayCell)
  /-- POWER_FAIL (R511). An input below 44 V for 50 µs, or above 58 V for 10 µs, raises job faults and enters cold reset 20 µs later. -/
  | powerFail (mv us : Nat)
  /-- SAG_DETECT (R511). An input below 47 V for more than 10 µs sets SAG and slows the tensor-core islands to 2.25 GHz. -/
  | sagDetect (mv us : Nat)
  /-- SAG_CLEAR (R511). An input at or above 48 V for 100 µs continuously clears the sag slow-down. -/
  | sagClear (mv us : Nat)
  /-- CURRENT_SLOW_BEGIN (R517). A 100 µs mean input power above 110% of the cap slows every tensor-core island to 2.25 GHz. -/
  | currentSlowBegin (w : Nat)
  /-- CURRENT_SLOW_END (R517). A 100 µs mean input power at or below the cap restores 3.0 GHz. -/
  | currentSlowEnd (w : Nat)
  /-- DROOP_ASSERT (R519). An island's droop detector asserts and doubles the island's clock period. -/
  | droopAssert (island : Nat)
  /-- DROOP_CLEAR (R519). Eight stretched cycles after the droop detector clears, the island's period returns. -/
  | droopClear (island cycles : Nat)
  /-- THERMTRIP (R520). A sensor at 108 °C switches every tensor core off at once and raises job faults on every partition with a task in flight. -/
  | thermtrip (k celsius : Nat)
  /-- REF_LOST (R523). Loss of the external reference for 1 µs switches the generators to the on-module oscillator and sets REF_LOST. -/
  | refLost (ns : Nat)
  /-- PPS_EDGE (R525). A rising edge of PPS_IN captures device time and, within the window, corrects the counter. -/
  | ppsEdge (ns : Nat) (set : Option W64)
  /-- POWER_LOOP (R513). Every 100 µs the power manager divides the cap among base, reserve, classes and partitions, and sets core counts. -/
  | powerLoop (m : PowerIn)
  /-- CORE_DRAINED_OFF (R516). When a draining core's executing and draining slots are empty, its arrays ramp down and the island is powered off. -/
  | coreDrainedOff (c : Nat)
  /-- CORE_RAMP_ON_START (R518). A granted switch-on leaves Off once the limit of 16 cores per µs allows. -/
  | coreRampOnStart (c : Nat)
  /-- CORE_ON (R516). The island is ready, the core is On, and the Dispatcher may issue to it. -/
  | coreOn (c : Nat)
  /-- PWR_CAP_SET_WRITE (R527). A write to PWR_CAP_SET sets the cap for the next loop, or sets REJECT if the value is out of range. -/
  | pwrCapSetWrite (v : W64)
  /-- DEV_TIME_SET_WRITE (R526). A write to DEV_TIME_SET sets the device time counter at once. -/
  | devTimeSetWrite (v : W64)
  /-- CC_WDOG_EXPIRY (R539). A partition control core's watchdog expires and raises a job fault logged WDOG_CC. -/
  | ccWdogExpiry (n : Nat)
  /-- CTL_WDOG_EXPIRY (R341). A CTL task not completed within CC_WDOG_MS raises a job fault. -/
  | ctlWdogExpiry (t : Nat)
  /-- RING_WDOG_EXPIRY (R441). A ring or collective step still waiting after RING_WDOG_MS raises a job fault and records the late peer. -/
  | ringWdogExpiry (t : Nat)
  /-- DRAIN_TIMEOUT (R537). Work of a disabled, halted or switching-off unit still unfinished after DRAIN_TIMEOUT_MS raises a job fault. -/
  | drainTimeout (u : DrainUnit)
  /-- SPILL_WAIT_TIMEOUT (R362). A task send waiting for spill room after CC_WDOG_MS raises a job fault. -/
  | spillWaitTimeout (p : Nat)
  /-- PIN_WAIT_TIMEOUT (R268). A walk waiting at PIN 4,095 with no pin released for DRAIN_TIMEOUT_MS raises a job fault logged DRAIN. -/
  | pinWaitTimeout (t page : Nat)
  /-- IK_WDOG_EXPIRY (R539). The Innkeeper watchdog expires and causes a device warm reset with cause IK_WDOG. -/
  | ikWdogExpiry (n : Nat)
  /-- REPAIR_APPLY (R544). FLT_REPAIR_CMD APPLY checks a signed repair package and blows its fuse entries in order, setting PENDING. -/
  | repairApply
  /-- FLT_LOG_POP (R551). A read of FLT_LOG_HEAD2 returns the oldest fault log entry's time and removes the entry. -/
  | fltLogPop
  /-- MEM_LOG_POP (R311). A read of MEM_LOG_HEAD1 returns the oldest memory log entry's time and removes the entry. -/
  | memLogPop
  /-- KEY_TOUCH (R545). A touch on the attention key begins, and the hold timing starts. -/
  | keyTouch
  /-- KEY_HOLD_SEGMENT (R545). Each further 1.25 s of hold lights one more light-bar segment white. -/
  | keyHoldSegment (i : Nat)
  /-- KEY_RELEASE (R545). On release, the touch's duration toggles IDENTIFY, requests a quiesce, ends a quiesce or is ignored. -/
  | keyRelease
  /-- KEY_FORCE_STOP_HOLD (R545). At 10 s of hold, while the key is still held, a force stop acts. -/
  | keyForceStopHold
  /-- SVC_QUIESCE (R546). SVC_CMD QUIESCE, or a quiesce touch, halts every partition, sets HELD and waits for the partitions to settle. -/
  | svcQuiesce
  /-- SVC_RESUME (R546). SVC_CMD RESUME ends a quiesce or stop, clears HALT and HELD, restarts IDLE runtimes and retrains the ports. -/
  | svcResume
  /-- SVC_FORCE_STOP (R547). SVC_CMD FORCE_STOP sets HELD and raises a job fault on every partition that is not IDLE. -/
  | svcForceStop
  /-- QUIESCE_SETTLED (R546). When every partition is settled or IDLE, the ports go DOWN and MODE becomes SAFE. -/
  | quiesceSettled
  /-- QUIESCE_TIMEOUT (R546). When QUIESCE_S passes, each partition that is not settled takes a job fault. -/
  | quiesceTimeout
  /-- FORCE_STOP_COMPLETE (R547). When every partition is IDLE after a force stop, the ports go DOWN and MODE becomes STOPPED. -/
  | forceStopComplete
  /-- FAULT_PATTERN_EXPIRY (R548). 10 s after a job fault, the FAULT light-bar pattern stops holding for that partition. -/
  | faultPatternExpiry (p : Nat)
  /-- PRESENCE_CHANGE (R549). A cage or Larric presence change, filtered for 10 ms, sets its CHG bit and SVC_IRQ.PRESENCE. -/
  | presenceChange (i : Nat) (present : Bool)
  /-- IMG_ERASE (R60). IMG_CMD ERASE erases the target image slot. -/
  | imgErase
  /-- IMG_WRITE (R60). IMG_CMD WRITE copies IMG_XFER_LEN bytes from host memory into the target slot. -/
  | imgWrite
  /-- IMG_COMMIT (R60). IMG_CMD COMMIT runs the slot checks and the sequence check on the target slot, and erases it on failure. -/
  | imgCommit
  /-- IMG_ACTIVATE (R61). IMG_CMD ACTIVATE requests a device warm reset. -/
  | imgActivate
  /-- IMG_RELOAD (R66). IMG_CMD RELOAD checks a partition reload package and accepts it pending, or refuses it with a reason. -/
  | imgReload (p : Nat)
  /-- FW_ERASE (R493). SEC_CMD FW_ERASE erases the target bundle slot. -/
  | fwErase
  /-- FW_WRITE (R493). SEC_CMD FW_WRITE copies bytes from host memory into the target bundle slot. -/
  | fwWrite
  /-- FW_COMMIT (R493). SEC_CMD FW_COMMIT runs the bundle checks on the target slot, sets IMG_AT_RISK where it applies, and erases the slot on failure. -/
  | fwCommit
  /-- FW_ACTIVATE (R493). SEC_CMD FW_ACTIVATE requests a device warm reset. -/
  | fwActivate
  /-- COMMIT_SVN (R497). SEC_CMD COMMIT_SVN raises the firmware or image counter fuse to the loaded SVN. -/
  | commitSvn (which : Nat)
  /-- FUSE_OWNER (R495). SEC_CMD FUSE_OWNER programs the owner root-key hash once. -/
  | fuseOwner
  /-- ATTEST (R501). SEC_CMD ATTEST signs an attestation report for a partition or for the device and writes it to host memory. -/
  | attest (part : Nat)
  /-- IDCERT (R498). SEC_CMD IDCERT writes the 364-byte identity certificate to SEC_XFER_HOST. -/
  | idcert
  /-- PART_START (R502). Setting START in SEC_PART_CTRL_p starts the partition's lowest control core at ENTRY in VS-mode. -/
  | partStart (p : Nat)
  /-- SBI_INFO (R506). The INFO call returns the partition number and the Innkeeper version. -/
  | sbiInfo (n : Nat)
  /-- SBI_RELOAD (R506). The RELOAD call submits a reload package for the partition itself and returns the check result. -/
  | sbiReload (n : Nat) (addr len : W64)
  /-- SBI_RELOAD_STATUS (R506). The RELOAD_STATUS call returns IMG_RELOAD_p. -/
  | sbiReloadStatus (n : Nat)
  /-- SBI_ATTEST (R506). The ATTEST call signs a report for the partition itself and returns when the report is written. -/
  | sbiAttest (n : Nat) (nonce dst : W64)
  /-- SBI_FAULT_INFO (R506). The FAULT_INFO call returns the cause and FAULT_ID of the partition's last job fault. -/
  | sbiFaultInfo (n : Nat)
  /-- SBI_JOB_FAULT (R506). The JOB_FAULT call raises a job fault on the partition's job and does not return. -/
  | sbiJobFault (n : Nat) (cause : W64)
  /-- SBI_SRST (R505). An SRST reset request resets the partition, and a shutdown request stops its cores. -/
  | sbiSrst (n : Nat) (kind : Nat)
  /-- SBI_HSM_HART_START (R505). An HSM call starts another control core of the partition. -/
  | sbiHsmHartStart (n target : Nat) (addr arg : W64)
  /-- CCI_WDOG_PET (R504). Any write to CCI_WDOG restarts the control core's watchdog. -/
  | cciWdogPet (n : Nat)
  /-- DSP_LOAD (R330). DSP_CMD LOAD reads and checks a graph image and makes it resident, or refuses it. -/
  | dspLoad (p : Nat)
  /-- DSP_UNLOAD (R342). DSP_CMD UNLOAD refuses new triggers for the tag and frees the graph's nodes once its running step ends. -/
  | dspUnload (p tag : Nat)
  /-- DSP_RUN (R318). DSP_CMD RUN copies a step block to STEP_ADDR and triggers a step of the graph. -/
  | dspRun (p tag : Nat)
  /-- LEDGER_STEP_TRIGGER (R318). Once the Guest Ledger's writes are accepted, the step is triggered at the Dispatcher with its next step number. -/
  | ledgerStepTrigger (p tag : Nat)
  /-- TASK_ISSUE (R333). The Dispatcher issues the first ready task in issue order to an eligible core, port engine or control core. -/
  | taskIssue
  /-- ARRAYS_FINISH (R176). When the executing task's last tile group leaves the arrays, it moves to draining and the staged task begins executing. -/
  | arraysFinish (c : Nat)
  /-- LINK_BUFFER_HANDOVER (R170). A producer fills a buffer of an internal link and raises F, or a consumer returns it and raises E. -/
  | linkBufferHandover (c link : Nat) (produce : Bool)
  /-- GEMM_TASK (R324). A GEMM task streams its operands through the arrays, drains results through its stages and writes D or appends. -/
  | gemmTask (t : Nat) (parity : Bool)
  /-- ATTN_FORWARD (R228). An ATTN FORWARD part computes scores, online softmax and output over the key blocks it sees. -/
  | attnForward (t : Nat) (part : PartDrain)
  /-- ATTN_BACKWARD (R236). An ATTN BACKWARD part recomputes probabilities from the statistics and derives dQ, dK and dV. -/
  | attnBackward (t : Nat) (part : PartDrain)
  /-- ATTN_VERIFY (R242). An ATTN VERIFY task checks drafted tokens against the logits and writes ACCEPTED and NEXT. -/
  | attnVerify (t : Nat)
  /-- VEC_TASK (R326). A VEC task loads its transfers, runs its vector program and stores its transfers. -/
  | vecTask (t : Nat)
  /-- COPY_TASK (R323). A COPY task copies lines, transposing them if asked. -/
  | copyTask (t : Nat)
  /-- SKIM_ENCODE (R210). A SKIM ENCODE writes a dense operand in tiled run-length or packed 2:4 form. -/
  | skimEncode (t : Nat)
  /-- SKIM_DECODE (R210). A SKIM DECODE writes a tiled operand out dense. -/
  | skimDecode (t : Nat)
  /-- SKIM_CHECK24 (R210). A SKIM CHECK24 checks a dense operand against 2:4 and writes only the result record. -/
  | skimCheck24 (t : Nat)
  /-- XFER_WAIT (R434). An XFER WAIT waits on a trigger counter and sends nothing. -/
  | xferWait (t : Nat)
  /-- XFER_WRITE (R434). An XFER WRITE sends LEN bytes as one message on the job flow. -/
  | xferWrite (t : Nat)
  /-- XFER_SHARD (R434). An XFER SHARD sends a layer's pages of an entry in export form as one WRITE message. -/
  | xferShard (t : Nat)
  /-- XFER_APPEND (R434). An XFER APPEND performs a channel APPEND on the task port. -/
  | xferAppend (t : Nat)
  /-- XFER_PUT_AT (R434). An XFER PUT_AT performs a channel PUT-AT on the task port. -/
  | xferPutAt (t : Nat)
  /-- COLL_REDUCE_SCATTER (R437). A COLL REDUCE_SCATTER runs fold-in and halving steps over the partition group. -/
  | collReduceScatter (t : Nat)
  /-- COLL_ALL_GATHER (R437). A COLL ALL_GATHER runs doubling and fold steps over the partition group. -/
  | collAllGather (t : Nat)
  /-- COLL_ALL_REDUCE (R437). A COLL ALL_REDUCE runs fold-in, halving, doubling and fold-out steps over the partition group. -/
  | collAllReduce (t : Nat)
  /-- COLL_BARRIER (R437). A COLL BARRIER runs zero-length exchanges over the partition group. -/
  | collBarrier (t : Nat)
  /-- COLL_CONTRIB (R436). A COLL CONTRIB sends BUF as a contribution to a Churn queue. -/
  | collContrib (t : Nat)
  /-- TASK_COMPLETE (R30). When the completion conditions hold, the Dispatcher commits the task's page changes, writes its completion record and releases its successors. -/
  | taskComplete (t : Nat)
  /-- CRING_HEAD_WRITE (R339). Software advances the completion ring's HEAD, and held records move into the ring. -/
  | cringHeadWrite (p : Nat) (v : W64)
  /-- CB_HEAD_WRITE (R340). Software advances the callback ring's HEAD, and held callback records move into the ring. -/
  | cbHeadWrite (p : Nat) (v : W64)
  /-- CTL_DONE (R341). A write to DSP_CTL_DONE completes the named CTL task with a status, or counts as CTL_STRAY. -/
  | ctlDone (p : Nat) (v : W64)
  /-- POOL_RECOMPUTE (R335). Every 1 ms, and when a core goes on or off, the prefill and step pools are recomputed. -/
  | poolRecompute (p : Nat)
  /-- ARRAY_RAMP_DOWN (R136). An array idle for 16 core cycles turns its column quarters off. -/
  | arrayRampDown (c : Nat)
  /-- MCAST_BLOCK_READ (R174). When every member has 32 KiB free in its ring, a multicast group reads the next block and lands it in each ring. -/
  | mcastBlockRead (g : Nat)
  /-- SKIMMER_TILE_SERVE (R205). The Skimmer serves one tile to the next core in rotation. -/
  | skimmerTileServe (k : Nat)
  /-- SKM_DISABLE_WRITE (R207). A write to CLU_SKM_CTRL.DISABLE disables or restores the cluster's Skimmer. -/
  | skmDisableWrite (k : Nat) (v : W64)
  /-- PAGE_WALK (R268). A page TLB miss reads the list slot, pins the entry at its home Ostler and returns a translation. -/
  | pageWalk (t part entry layer head blk half : Nat)
  /-- PIN_WAIT_RESUME (R268). A walk waiting at PIN 4,095 proceeds when a pin of the entry is released. -/
  | pinWaitResume (t page : Nat)
  /-- PAGE_REF (R287). LDG_PAGE_CMD REF adds a reference to a page, or refuses the command. -/
  | pageRef (p page : Nat)
  /-- PAGE_UNREF (R287). LDG_PAGE_CMD UNREF drops a reference to a page, freeing or reclaiming it as its counts dictate. -/
  | pageUnref (p page : Nat)
  /-- PAGE_READ (R287). LDG_PAGE_CMD READ copies a page-table entry into LDG_PAGE_ENTRY_0 and _1. -/
  | pageRead (p page : Nat)
  /-- PAGE_LOW_WRITE (R286). A write to LDG_PAGE_LOW sets THRESHOLD, sets LOW when the pool is below it, or clears LOW. -/
  | pageLowWrite (p : Nat) (v : W64)
  /-- MEM_SLOT_GRANT (R299). An LPDDR5X controller grants its next slot to the next partition in rotation, for the class its pattern calls for. -/
  | memSlotGrant (n : Nat)
  /-- REPAIR_WRITE (R302). A queued repair write stores a corrected or poisoned codeword in an idle slot. -/
  | repairWrite
  /-- SCRUB_READ (R303). The background scrub reads the next codeword and rewrites it corrected or poisoned. -/
  | scrubRead
  /-- WRITE_QUEUE_RESUME (R306). A writer waiting on a full controller write queue proceeds when an entry frees. -/
  | writeQueueResume (n : Nat)
  /-- CHN_OPEN (R352). CHN_CMD OPEN reads an open record and opens an endpoint or Churn queue, or fails. -/
  | chnOpen (p : Nat)
  /-- CHN_CLOSE (R353). CHN_CMD CLOSE puts an endpoint into CLOSING, or closes a Churn queue. -/
  | chnClose (p handle : Nat) (churn : Bool)
  /-- ENDPOINT_FREE (R353). A CLOSING endpoint is freed once its started landings have landed. -/
  | endpointFree (h : Nat)
  /-- CHN_APPEND (R356). A send with OP APPEND places a message at the ring's tail, wrapping with a skip record, or waits for credit. -/
  | chnAppend (p port : Nat) (v : W64)
  /-- CHN_PUT_AT (R359). A send with OP PUT-AT writes the message at the window offset, and appends a notice if NOTIFY is set. -/
  | chnPutAt (p port : Nat) (v : W64)
  /-- CHN_CONTRIB (R364). A send with OP CONTRIB queues a vector to be added into a Churn queue. -/
  | chnContrib (p port : Nat) (v : W64)
  /-- SEND_CREDIT_RESUME (R356). A send waiting for credit is placed again when HEAD advances. -/
  | sendCreditResume (p port : Nat)
  /-- SEND_SPILL (R362). A send that waited SPILL_LIMIT for credit is written to the port's spill ring, or completes FULL. -/
  | sendSpill (p port : Nat)
  /-- MESSAGE_LAND (R357). When a landing is accepted, TAIL advances and the group's NEXT and interrupt are updated. -/
  | messageLand (h : Nat)
  /-- SEL_NEXT (R360). A read of a group's _NEXT hands out the next spilled or ring message of its members. -/
  | selNext (p g : Nat)
  /-- SEL_DONE (R361). A write to a group's _DONE releases the oldest handed-out message and advances HEAD. -/
  | selDone (p g : Nat) (v : W64)
  /-- EP_HEAD_WRITE (R358). A write to CHN_EP_RING.HEAD of an ungrouped endpoint returns credit, or is discarded. -/
  | epHeadWrite (p : Nat) (v : W64)
  /-- CHURN_ADD (R364). The combiner adds one contribution into a Churn queue's accumulator. -/
  | churnAdd (q : Nat)
  /-- CHURN_NOTICE_PLACE (R365). A Churn notice waiting for credit is placed, and the next round may write OUT_ADDR. -/
  | churnNoticePlace (q : Nat)
  /-- LDG_SQ_TAIL_WRITE (R377). A write to LDG_SQ_TAIL hands new submission records to the Guest Ledger, or sets SQ_BAD. -/
  | ldgSqTailWrite (p : Nat) (v : W64)
  /-- SUBMIT (R380). A SUBMIT record is checked and takes a FREE entry into ADMITTED or RUNNING, and an ADMIT record is written. -/
  | submit (p : Nat)
  /-- CANCEL (R398). A CANCEL record retires the request at once, or marks it for the step end or the export end. -/
  | cancel (p : Nat)
  /-- EXTEND (R379). An EXTEND record raises LENGTH, recomputes the bucket and may clear a HOLD pause. -/
  | extend (p : Nat)
  /-- PAUSE (R379). A PAUSE record sets HOST, at once or at the step end. -/
  | pause (p : Nat)
  /-- RESUME (R379). A RESUME record clears HOST, and the entry leaves PAUSED if no pause bit remains. -/
  | resume (p : Nat)
  /-- RELEASE (R379). A RELEASE record returns a RESTART entry to FREE. -/
  | release (p : Nat)
  /-- FINISH (R379). A FINISH record treats a held or ring request as complete. -/
  | finish (p : Nat)
  /-- LDG_RQ_HEAD_WRITE (R381). Software advances the result ring's HEAD, and held result records move into the ring. -/
  | ldgRqHeadWrite (p : Nat) (v : W64)
  /-- LDG_ENTRY_READ (R412). LDG_CMD READ copies a ledger entry into LDG_ENTRY_DATA. -/
  | ldgEntryRead (p e : Nat)
  /-- GATE_PASS (R393). An ADMITTED entry passes the gate to QUEUED when budget allows, and a step may then form. -/
  | gatePass (e : Nat)
  /-- BATCH_WINDOW_EXPIRY (R142). A weight-stationary batch closes when BATCH_WINDOW_US has passed since its first row. -/
  | batchWindowExpiry (p tag : Nat)
  /-- BATCH_DEADLINE_CLOSE (R142). A weight-stationary batch closes when a waiting request's deadline comes within BATCH_WINDOW_US. -/
  | batchDeadlineClose (p tag : Nat)
  /-- BUDGET_ENTER (R392). An entry waiting longer than OVERLOAD_AGE_US puts the partition into budget mode, and QUEUED entries move to ADMITTED. -/
  | budgetEnter (p : Nat)
  /-- BUDGET_LEAVE (R392). After a continuous OVERLOAD_AGE_US without long waits, the partition leaves budget mode. -/
  | budgetLeave (p : Nat)
  /-- PRESSURE_BEGIN (R394). Pressure begins, and low-priority entries are paused. -/
  | pressureBegin (p : Nat)
  /-- PRESSURE_END (R395). After pressure has been absent for RESUME_US, the PRESSURE bits are cleared. -/
  | pressureEnd (p : Nat)
  /-- DEADLINE_PASS (R397). A deadline that passes while the entry waits retires the request or lowers its priority. -/
  | deadlinePass (e : Nat)
  /-- STEP_SETTLE (R396). At a step-end record, the Guest Ledger settles each request of the step. -/
  | stepSettle (p tag : Nat)
  /-- EXPORT_START (R442). An EXPORTING request gets an export context and opens an export flow to each destination. -/
  | exportStart (e : Nat)
  /-- ADP_BIND (R405). ADP_CMD BIND binds an adapter slot to a customer. -/
  | adpBind (p slot customer : Nat)
  /-- ADP_UNBIND (R405). ADP_CMD UNBIND releases a slot, or refuses with IN_USE. -/
  | adpUnbind (p slot : Nat)
  /-- ADP_PUBLISH (R405). ADP_CMD PUBLISH copies a record into the slot's next buffer and advances CUR, or refuses it. -/
  | adpPublish (p slot : Nat)
  /-- ADP_AREA_WRITE (R403). A write to ADP_AREA sets the adapter area and writes the null adapter. -/
  | adpAreaWrite (p : Nat) (v : W64)
  /-- DATA_FRAME_RECEIVE (R429). A Coach DATA frame is checked, written within the credit window, and counted toward ACK_PSN and trigger counters. -/
  | dataFrameReceive (n : Nat) (w : WireFrame)
  /-- ACK_RECEIVE (R430). An ACK frame frees acknowledged frames, raises credit and triggers fast retransmission. -/
  | ackReceive (n : Nat) (w : WireFrame)
  /-- HELLO_REQUEST_RECEIVE (R427). A HELLO request is checked and answered with accept or refuse. -/
  | helloRequestReceive (n : Nat) (w : WireFrame)
  /-- HELLO_REPLY_RECEIVE (R426). A HELLO reply opens the flow with its credit, or a refusal makes it a path loss. -/
  | helloReplyReceive (n : Nat) (w : WireFrame)
  /-- ABORT_RECEIVE (R448). An accepted new ABORT raises a job fault and is forwarded, and others are discarded. -/
  | abortReceive (n : Nat) (w : WireFrame)
  /-- FRAME_TRANSMIT (R450). A port sends its next frame: ABORT, then ACK and HELLO, then DATA by weighted deficit rotation. -/
  | frameTransmit (n : Nat)
  /-- RTO_EXPIRY (R430). A frame's retransmission timer expires, and the frame is resent or the flow changes port. -/
  | rtoExpiry (f psn : Nat)
  /-- HELLO_RESEND_EXPIRY (R426). An unanswered HELLO is resent every RTO_US, up to RETRY_MAX times. -/
  | helloResendExpiry (f : Nat)
  /-- ACK_DELAY_EXPIRY (R429). ACK_DELAY after the oldest unacknowledged frame, the receiver sends an ACK. -/
  | ackDelayExpiry (f : Nat)
  /-- FLOW_IDLE_EXPIRY (R424). A flow idle for 1 s is dropped by the receiver or the sender. -/
  | flowIdleExpiry (rx : Bool) (f : Nat)
  /-- FLOW_OPEN_RESUME (R425). An open waiting for a flow context proceeds when a context frees. -/
  | flowOpenResume
  /-- ABORT_RESEND (R448). 2 µs after an ABORT, a second copy is sent on another usable port. -/
  | abortResend
  /-- PORT_DETECT (R451). With the cage present and a partner signal detected, the port starts auto-negotiation and training. -/
  | portDetect (n media : Nat)
  /-- PORT_TRAINED (R451). Port training completes and the port is TRAINED. -/
  | portTrained (n : Nat)
  /-- PORT_TRAIN_FAIL (R451). Port training fails, and the third consecutive failure makes the port FAILED. -/
  | portTrainFail (n : Nat)
  /-- PORT_FAILED_RETRY (R451). 1 s after FAILED, the port returns to training. -/
  | portFailedRetry (n : Nat)
  /-- PORT_ENABLE_WRITE (R451). Setting or clearing CCH_PORT_CTRL.ENABLE takes a trained port UP, or brings it back from UP. -/
  | portEnableWrite (n : Nat) (v : W64)
  /-- PORT_LINK_LOSS (R451). A link lost for DOWN_US takes the port DOWN and clears ENABLE. -/
  | portLinkLoss (n us : Nat)
  /-- LINK_DETECT (R462). The Larric link enters DETECT at the boot's Larric stage, or 10 ms after a link loss. -/
  | linkDetect
  /-- LINK_PARTNER_SEEN (R462). Partner terminations seen on at least 4 lanes move the link to TRAIN. -/
  | linkPartnerSeen (lanes : Nat)
  /-- LINK_LANES_LOCK (R462). All 8 lanes, or one half under ALLOW_X4, lock, and the link moves to CONFIG. -/
  | linkLanesLock (lanes : Nat)
  /-- LINK_TRAIN_TIMEOUT (R462). Training that does not lock within 20 ms returns the link to DOWN. -/
  | linkTrainTimeout
  /-- LINK_CONFIG_DONE (R462). The parameter exchange completes and the link becomes ACTIVE. -/
  | linkConfigDone (credits : List Nat)
  /-- LINK_RETRAIN_RELOCK (R467). The lanes relock in RETRAIN, the link is ACTIVE again and unacknowledged flits are replayed. -/
  | linkRetrainRelock (lanes : Nat)
  /-- LINK_RETRAIN_TIMEOUT (R462). RETRAIN_MS pass, or three attempts fail, and the link goes DOWN. -/
  | linkRetrainTimeout
  /-- FLIT_RECEIVE (R466). A received flit is checked, acknowledged or NAKed, and its ACK and CREDIT are taken. -/
  | flitReceive (flit : Bytes)
  /-- FLIT_TRANSMIT (R465). The link sends a DATA, CONTROL or IDLE flit in each flit slot. -/
  | flitTransmit
  /-- REPLAY_TIMER_EXPIRY (R466). After REPLAY_NS unacknowledged, the sender replays, and a fourth replay without progress enters RETRAIN. -/
  | replayTimerExpiry
  /-- REG_RD (R473). A host REG_RD message reads a register and returns a REG_CPL. -/
  | regRd (addr len tag part : Nat)
  /-- REG_WR (R473). A host REG_WR message writes a register and returns a REG_CPL once the write has taken effect. -/
  | regWr (addr len tag part : Nat) (v : W64)
  /-- DOORBELL (R474). A posted DOORBELL writes an allowed ring-pointer register, or is discarded. -/
  | doorbell (addr : Nat) (v : W64)
  /-- HOST_MEM_RD (R477). A host MEM_RD of partition memory is checked and answered with a MEM_CPL. -/
  | hostMemRd (part addr len tag : Nat)
  /-- HOST_MEM_WR (R477). A host MEM_WR of partition memory is checked and performed, or dropped. -/
  | hostMemWr (part addr : Nat) (data : Bytes)
  /-- MEM_CPL_RECEIVE (R476). A MEM_CPL from the host completes a device MEM_RD of the host-memory window. -/
  | memCplReceive (tag status : Nat) (data : Bytes)
  /-- CPL_TIMEOUT (R476). A device MEM_RD not completed in CPL_TIMEOUT_MS fails as an uncorrectable read. -/
  | cplTimeout (tag : Nat)
  /-- INTR (R478). An armed, unmasked interrupt source whose condition holds sends an INTR message and disarms. -/
  | intr (i : Nat)
  /-- LRL_IRQ_REARM_WRITE (R478). A write to LRL_IRQ_REARM arms sources again, sending an INTR at once where the condition still holds. -/
  | lrlIrqRearmWrite (v : W64)
  /-- SET_ENDPOINT_ID (R568). The MCTP Set Endpoint ID command sets the module's endpoint ID. -/
  | setEndpointId (op eid : Nat)
  /-- GET_ENDPOINT_ID (R568). The MCTP Get Endpoint ID command returns the endpoint ID. -/
  | getEndpointId
  /-- GET_ENDPOINT_UUID (R568). The MCTP Get Endpoint UUID command returns a UUID derived from DEV_SERIAL. -/
  | getEndpointUuid
  /-- GET_MCTP_VERSION_SUPPORT (R568). The MCTP Get MCTP Version Support command returns the versions supported. -/
  | getMctpVersionSupport
  /-- GET_MESSAGE_TYPE_SUPPORT (R568). The MCTP Get Message Type Support command returns types 0x00 and 0x01. -/
  | getMessageTypeSupport
  /-- I3C_DYNAMIC_ADDRESS (R566). SETDASA or ENTDAA assigns the module's I3C dynamic address. -/
  | i3cDynamicAddress (addr : Nat)
  /-- GETTID (R569). PLDM GetTID returns the terminus ID. -/
  | getTid
  /-- SETTID (R569). PLDM SetTID sets the terminus ID. -/
  | setTid (tid : Nat)
  /-- GETPLDMVERSION (R569). PLDM GetPLDMVersion returns a type's version. -/
  | getPldmVersion (type : Nat)
  /-- GETPLDMTYPES (R569). PLDM GetPLDMTypes returns types 0, 2 and 4. -/
  | getPldmTypes
  /-- GETPLDMCOMMANDS (R569). PLDM GetPLDMCommands returns a type's supported commands. -/
  | getPldmCommands (type : Nat)
  /-- GETPDRREPOSITORYINFO (R569). PLDM GetPDRRepositoryInfo returns the repository information. -/
  | getPdrRepositoryInfo
  /-- GETPDR (R570). PLDM GetPDR returns a record of the PDR repository. -/
  | getPdr (handle : Nat)
  /-- GETSENSORREADING (R570). PLDM GetSensorReading returns a numeric sensor's value. -/
  | getSensorReading (id : Nat)
  /-- GETSTATESENSORREADINGS (R570). PLDM GetStateSensorReadings returns the state of sensor 30. -/
  | getStateSensorReadings (id : Nat)
  /-- GETNUMERICEFFECTERVALUE (R570). PLDM GetNumericEffecterValue returns the power cap. -/
  | getNumericEffecterValue (id : Nat)
  /-- SETNUMERICEFFECTERVALUE (R571). PLDM SetNumericEffecterValue writes the power cap, or returns ERROR_INVALID_DATA and sets REJECT. -/
  | setNumericEffecterValue (id v : Nat)
  /-- SETSTATEEFFECTERSTATES (R571). PLDM SetStateEffecterStates sets IDENTIFY to the value written. -/
  | setStateEffecterStates (id v : Nat)
  /-- SETEVENTRECEIVER (R571). PLDM SetEventReceiver sets where platform events go. -/
  | setEventReceiver (enable : Bool) (addr : Nat)
  /-- GETFRURECORDTABLEMETADATA (R572). PLDM GetFRURecordTableMetadata returns the FRU table metadata. -/
  | getFruRecordTableMetadata
  /-- GETFRURECORDTABLE (R572). PLDM GetFRURecordTable returns the FRU record. -/
  | getFruRecordTable
  /-- SENSOR_UPDATE (R570). Every 100 ms the numeric PLDM sensors are updated. -/
  | sensorUpdate
  /-- REGISTER_WRITE (R11). A write to a register that has no row of its own sets, clears or ignores its fields by access code, or faults. -/
  | registerWrite (a : Actor) (addr : Span) (v : W64)
  /-- RC_COUNTER_READ (R11). A read of an RC field returns its value and clears it to zero. -/
  | rcCounterRead (a : Actor) (addr : Span)
  /-- HART_STOP (R505). An SBI HSM hart-stop call stops a control core of the partition, which is then no longer watched by its control-core watchdog. -/
  | hartStop (n : Nat)
  /-- PORT_SIGNAL_LOSS (R451). A port in TRAINING, TRAINED or FAILED loses its link or partner signal and goes DOWN, with ENABLE cleared. -/
  | portSignalLoss (n : Nat)
deriving DecidableEq, Repr

end Sys2Proof
end

