-- ==== Sys2Proof/Decode.lean ====
section
/-!
DEFINITION. The command a word spells by the bits of spec/opcode_table.json: no row of that table has bits.
-/
namespace Sys2Proof

/-- The command spelled by a word of `nbits` bits: none, since the table gives no command a word. -/
def decodeTableWord (_nbits _w : Nat) : Option Instr := none

end Sys2Proof
end

