-- ==== Sys2Proof/Machine/Map.lean ====
section
/-!
DEFINITION. Sparse maps: lists of (key, value) pairs with strictly rising keys.
`find` and `ins` serve every table of the block; `put` keeps the canonical form of memory
(no entry equal to what an unlisted key reads as).
-/
namespace Sys2Proof.Machine

/-- A sparse map from numbers, keys rising. -/
abbrev SMap (α : Type) := List (Nat × α)

/-- The value at `k`; an unlisted key reads `d k`. -/
def find {α : Type} (d : Nat → α) : SMap α → Nat → α
  | [], k => d k
  | (a, v) :: t, k => if k = a then v else if k < a then d k else find d t k

/-- The value at `k`, if listed. -/
def find? {α : Type} : SMap α → Nat → Option α
  | [], _ => none
  | (a, v) :: t, k => if k = a then some v else if k < a then none else find? t k

/-- Set the value at `k`, listing it. -/
def ins {α : Type} : SMap α → Nat → α → SMap α
  | [], k, v => [(k, v)]
  | (a, w) :: t, k, v =>
    if k = a then (k, v) :: t else if k < a then (k, v) :: (a, w) :: t else (a, w) :: ins t k v

/-- Remove the entry of `k`. -/
def del {α : Type} (m : SMap α) (k : Nat) : SMap α := m.filter fun e => e.1 != k

/-- Set the value at `k` keeping the canonical form: a value equal to `d k` is not listed. -/
def put {α : Type} [DecidableEq α] (d : Nat → α) : SMap α → Nat → α → SMap α
  | [], k, v => if v = d k then [] else [(k, v)]
  | (a, w) :: t, k, v =>
    if k = a then (if v = d k then t else (k, v) :: t)
    else if k < a then (if v = d k then (a, w) :: t else (k, v) :: (a, w) :: t)
    else (a, w) :: put d t k v

/-- Keys strictly rising. -/
abbrev Rising {α : Type} (m : SMap α) : Prop := m.Pairwise fun x y => x.1 < y.1

/-- The canonical form: keys strictly rising and no entry equal to the default. -/
abbrev Canon {α : Type} (d : Nat → α) (m : SMap α) : Prop :=
  Rising m ∧ ∀ e ∈ m, e.2 ≠ d e.1

end Sys2Proof.Machine
end

