-- ==== Sys2Proof/Machine/Bits.lean ====
section
/-!
DEFINITION. Bit fields of words, and little-endian fields of byte records (00_scope.md R8, R9).
-/
namespace Sys2Proof.Machine

/-- The `w` bits of `x` from bit `lo`. -/
def bitsOf (x lo w : Nat) : Nat := (x >>> lo) % 2 ^ w

/-- Whether bit `i` of `x` is set. -/
def bitOf (x i : Nat) : Bool := x.testBit i

/-- 1 for true, 0 for false. -/
def b2n (b : Bool) : Nat := if b then 1 else 0

/-- The word with ones in bits `lo` to `lo + w - 1`. -/
def maskW (lo w : Nat) : W64 := BitVec.ofNat 64 ((2 ^ w - 1) <<< lo)

/-- `x` with its field at `lo`, `w` bits wide, set to `v` (taken modulo the field's width). -/
def setBits (x : W64) (lo w v : Nat) : W64 :=
  (x &&& ~~~ maskW lo w) ||| BitVec.ofNat 64 ((v % 2 ^ w) <<< lo)

/-- The little-endian number spelled by a list of bytes (R8). -/
def leNat : Bytes → Nat
  | [] => 0
  | b :: t => b.toNat + 256 * leNat t

/-- The first `n` bytes of `x`, lowest first (R8). -/
def toLe : (n : Nat) → (x : Nat) → Bytes
  | 0, _ => []
  | n + 1, x => BitVec.ofNat 8 x :: toLe n (x / 256)

/-- The big-endian number spelled by a list of bytes (fields of published standards, R8). -/
def beNat (bs : Bytes) : Nat := leNat bs.reverse

/-- The low `n` bytes of `x`, highest first. -/
def toBe (n x : Nat) : Bytes := (toLe n x).reverse

/-- `n` bytes of a record from `off`; bytes past its end read 0. -/
def slice (bs : Bytes) (off n : Nat) : Bytes :=
  let t := (bs.drop off).take n
  t ++ List.replicate (n - t.length) 0

/-- The little-endian field of `n` bytes at `off` of a record. -/
def fieldAt (bs : Bytes) (off n : Nat) : Nat := leNat (slice bs off n)

/-- A record of `len` zero bytes with the fields `(offset, size, value)` written into it. -/
def mkRec (len : Nat) (fs : List (Nat × Nat × Nat)) : Bytes :=
  fs.foldl (fun r f => r.take f.1 ++ toLe f.2.1 f.2.2 ++ r.drop (f.1 + f.2.1)) (List.replicate len 0)

/-- A record with `n` bytes at `off` replaced. -/
def setField (r : Bytes) (off n v : Nat) : Bytes := r.take off ++ toLe n v ++ r.drop (off + n)

/-- Whether every byte of `bs` is zero (reserved fields, R10). -/
def allZero (bs : Bytes) : Bool := bs.all (· == 0)

/-- `x` rounded up to a multiple of `n`. -/
def roundUp (x n : Nat) : Nat := (x + n - 1) / n * n

/-- The least `k` with `2 ^ k ≥ n`. -/
def clog2 (n : Nat) : Nat := if n ≤ 1 then 0 else Nat.log2 (n - 1) + 1

/-- `f` folded over 0 to `n - 1`. -/
def forN {σ : Type} (n : Nat) (f : σ → Nat → σ) (s : σ) : σ := (List.range n).foldl f s

/-- The ones among the first `n` bits of `x`, as positions. -/
def onesOf (n x : Nat) : List Nat := (List.range n).filter fun i => x.testBit i

end Sys2Proof.Machine
end

