-- ==== Sys2Proof/Machine/Code.lean ====
section
/-!
DEFINITION. The codes of the block: the Voiljor burst code, a Reed-Solomon code over GF(2^8) (09_memory.md R295), and
CRC-32C (08_kv_pages.md R278).
-/
namespace Sys2Proof.Machine

/-- `n` steps of a product in GF(2^8) with the polynomial x^8 + x^4 + x^3 + x^2 + 1 (R295). -/
def gfMulN : Nat → Nat → Nat → Nat → Nat
  | 0, _, _, acc => acc
  | n + 1, a, b, acc =>
    let acc' := if b % 2 = 1 then acc ^^^ a else acc
    let a2 := a * 2
    gfMulN n (if a2 ≥ 256 then a2 ^^^ 0x11D else a2) (b / 2) acc'

/-- Product in GF(2^8) (R295). -/
def gfMul (a b : Nat) : Nat := gfMulN 8 a b 0

/-- Power in GF(2^8). -/
def gfPow (a : Nat) : Nat → Nat
  | 0 => 1
  | n + 1 => gfMul a (gfPow a n)

/-- The power of α = 2 with exponent taken modulo 255 (R295). -/
def gfAlpha (e : Nat) : Nat := gfPow 2 (e % 255)

/-- Inverse in GF(2^8): the 254th power. -/
def gfInv (a : Nat) : Nat := gfPow a 254

/-- The generator's coefficients below x^8, from x^7 down: g(x) = Π (x - α^i), i = 0 to 7 (R295). -/
def rsGen : List Nat :=
  let mulRoot (p : List Nat) (r : Nat) : List Nat :=
    List.zipWith (fun a b => a ^^^ b) (p ++ [0]) (0 :: p.map (gfMul r))
  (((List.range 8).foldl (fun p i => mulRoot p (gfAlpha i)) [1]).drop 1)

/-- The eight check bytes of 64 data bytes: the remainder of d(x) x^8 by g(x) (R295). -/
def rsCheck (data : List Nat) : List Nat :=
  data.foldl (fun r d =>
    let f := d ^^^ (r.headD 0)
    List.zipWith (fun a b => a ^^^ b) (r.drop 1 ++ [0]) (rsGen.map (gfMul f))) (List.replicate 8 0)

/-- Syndrome j of an error given as (symbol, value) pairs; symbol i is the coefficient of x^(71 - i) (R295). -/
def rsSynd (err : List (Nat × Nat)) (j : Nat) : Nat :=
  err.foldl (fun acc e => acc ^^^ gfMul e.2 (gfAlpha (j * (71 - e.1)))) 0

/-- The eight syndromes of an error. -/
def rsSynds (err : List (Nat × Nat)) : List Nat := (List.range 8).map (rsSynd err)

/-- A polynomial over GF(2^8), low coefficient first, at `x`. -/
def gfEval (p : List Nat) (x : Nat) : Nat := p.foldr (fun c acc => c ^^^ gfMul x acc) 0

/-- One step of the search for the error locator: (locator, previous locator, previous discrepancy, length, gap). -/
def rsStep (s : List Nat) (st : List Nat × List Nat × Nat × Nat × Nat) (n : Nat) :
    List Nat × List Nat × Nat × Nat × Nat :=
  let (c, b, bd, l, m) := st
  let d := (List.range (l + 1)).foldl (fun acc i => acc ^^^ gfMul (c.getD i 0) (s.getD (n - i) 0)) 0
  if d = 0 then (c, b, bd, l, m + 1)
  else
    let k := gfMul d (gfInv bd)
    let sh := List.replicate m 0 ++ b.map (gfMul k)
    let len := max c.length sh.length
    let c' := (List.range len).map fun i => c.getD i 0 ^^^ sh.getD i 0
    if 2 * l ≤ n then (c', c, d, n + 1 - l, 1) else (c', b, bd, l, m + 1)

/-- The error of at most 4 symbols that has the syndromes `s`, if there is one (R295, R297). -/
def rsDecode (s : List Nat) : Option (List (Nat × Nat)) :=
  if s.all (· == 0) then some []
  else
    let (c, _, _, l, _) := (List.range 8).foldl (rsStep s) ([1], [1], 1, 0, 1)
    let pos := (List.range 72).filter fun i => gfEval c (gfInv (gfAlpha (71 - i))) == 0
    let om := (List.range 8).map fun k =>
      (List.range (k + 1)).foldl (fun acc i => acc ^^^ gfMul (c.getD i 0) (s.getD (k - i) 0)) 0
    let dc := (List.range c.length).map fun i => if i % 2 = 0 then c.getD (i + 1) 0 else 0
    let err := pos.map fun i =>
      let x := gfAlpha (71 - i)
      let xi := gfInv x
      (i, gfMul x (gfMul (gfEval om xi) (gfInv (gfEval dc xi))))
    if l ≤ 4 && pos.length == l && rsSynds err == s then some err else none

/-- One bit of CRC-32C, reflected (R278). -/
def crcBit (c : Nat) : Nat := if c % 2 = 1 then (c / 2) ^^^ 0x82F63B78 else c / 2

/-- One byte of CRC-32C. -/
def crcByte (c : Nat) (b : Byte) : Nat :=
  let x := c ^^^ b.toNat
  crcBit (crcBit (crcBit (crcBit (crcBit (crcBit (crcBit (crcBit x)))))))

/-- CRC-32C: polynomial 0x1EDC_6F41 reflected, initial value and final exclusive-or all ones (R278). -/
def crc32c (bs : Bytes) : Nat := (bs.foldl crcByte 0xFFFFFFFF) ^^^ 0xFFFFFFFF

end Sys2Proof.Machine
end

