-- ==== Sys2Proof/Machine/Flags.lean ====
section
/-!
DEFINITION. Completion status: the codes and sub-codes of 00_scope.md R13 and R14 and how they combine (R15, R16).
-/
namespace Sys2Proof.Machine

/-- DONE. -/
def stDone : Nat := 0x00
/-- DONE_LATE. -/
def stLate : Nat := 0x01
/-- DONE_DROPPED. -/
def stDropped : Nat := 0x02
/-- DONE_FLAGGED. -/
def stFlagged : Nat := 0x03
/-- FMT_UNSUPPORTED. -/
def stFmtUns : Nat := 0x10
/-- FMT_MISMATCH. -/
def stFmtMis : Nat := 0x11
/-- LENGTH_LIMIT. -/
def stLength : Nat := 0x12
/-- PAGE_QUOTA. -/
def stQuota : Nat := 0x13
/-- JOB_ABORTED. -/
def stAborted : Nat := 0x20
/-- UNIT_DISABLED. -/
def stDisabled : Nat := 0x21
/-- UNCORRECTABLE. -/
def stUncorr : Nat := 0x30
/-- Sub-code INDEX_RANGE (R14). -/
def subRange : Nat := 1
/-- Sub-code POISON_IN (R14). -/
def subPoison : Nat := 2

/-- Whether the work ran to its end with usable output (R16). -/
def statusOk (st : Nat) : Bool := st < 0x10

/-- The outcome of two statuses that apply to one task (R15): the numerically highest. -/
def statusMax (a b : Nat) : Nat := max a b

/-- The sub-code a record carries: zero unless the status is DONE_FLAGGED (R14). -/
def subFor (st sub : Nat) : Nat := if st = stFlagged then sub % 4 else 0

end Sys2Proof.Machine
end

