-- ==== Sys2Proof/Config.lean ====
section
/-!
DEFINITION. What one module fixes and the spec leaves open: free values. Each is an opaque constant, so that nothing can
compute or prove a value of it (notes/assumptions names each).
-/
namespace Sys2Proof.Config

/-- SHA-512 of Swewyn's signing key, fused at manufacture (15 R494). -/
opaque swewynHash : Bytes

/-- The module's secret identity key (15 R494, R498). -/
opaque identityKey : Nat

/-- Which of the patterns at distance 8 from every codeword is the memories' poison pattern: a point and a factor of the code's
extension (09 R297; assumption 114). -/
opaque poisonPoint : Nat
/-- Its factor. -/
opaque poisonFactor : Nat

/-- The nonce of the n-th signature made (15 R499). -/
opaque signNonce : Nat → Nat

/-- Where within its bound the result of a reciprocal (0), rsqrt (1), exp (2), exp2 (3), log (4) or log2 (5) of the vector
unit lies, by operation and input bits (03 R109). -/
opaque ulpOff : Nat → Nat → Nat

/-- The result of compare-and-select on two FP32 bit patterns, which the spec does not state (05 R160). -/
opaque vecSelect : Nat → Nat → Nat

/-- A word of a core's vector buffer that no task has written since its contents were lost, by core, loss and word (assumption 115). -/
opaque vectorWord : Nat → Nat → Nat → Nat

/-- The third operand of a fused multiply-add with an immediate, by its other operands' bits, which the spec does not state
(05 R159). -/
opaque vecFmaImm : Nat → Nat → Nat

/-- The E8M0 scale byte of the block of Q, dO or O whose first element stands at an address, where no task of the device has written it:
the spec gives an attention block no place for scale arrays (07 R220, R221). -/
opaque attnScale : Nat → Nat

/-- Where in SCRATCH the port firmware lands a run of a collective, by OP, COUNT, group size, receiving rank, step and run
(13 R438). -/
opaque scratchAt : Nat → Nat → Nat → Nat → Nat → Nat → Nat

/-- Whether an interrupt condition that no chapter states holds (odd), by source and register value (14 R478). -/
opaque irqOpen : Nat → Nat → Nat

/-- The endpoint UUID derived from DEV_SERIAL; the spec does not state the derivation (18 R568). -/
opaque uuidOf : Nat → Nat

/-- The version number the module reports for an MCTP base (256) or PLDM type; the spec states none (18 R568, R569). -/
opaque mgmtVersion : Nat → Nat

/-- What a register field that has counted clock cycles reads: by register offset and place in the free values taken; the model
has no cycles (05 R180, R185 to R187; 04 R146, R147, R149; 10 R346; 11 R374; 13 R456). -/
opaque cycles : Nat → Nat → Nat

/-- A free choice: the n-th free value taken (assumption 1). -/
opaque freeNat : Nat → Nat

end Sys2Proof.Config
end

