-- ==== Sys2Proof/Machine/Regs.lean ====
section
/-!
DEFINITION. The register table of the device: every register the spec gives, its offset in the register space
(01_architecture.md R33), its fields with access code, reset value and the reset that clears them (00_scope.md R11,
17_faults_reset.md R540), and a name for every field. A name takes an index modulo the number of copies the spec gives the
register, so that no name leaves its block; no rule names a register past the last copy.
-/
namespace Sys2Proof.Machine

/-- Access codes of R11. -/
inductive Acc | ro | rw | wo | w1c | rc
deriving DecidableEq, Repr

/-- The narrowest reset that clears a field (R540): cold means cold and module only. -/
inductive Dom | cold | warm | part | core
deriving DecidableEq, Repr

/-- A field of the register table: place, access, reset value, clearing reset, and the values a write may set. -/
structure FieldRow where
  lo : Nat
  w : Nat
  acc : Acc
  reset : Nat
  dom : Dom
  range : Option (Nat × Nat) := none
deriving DecidableEq, Repr

/-- A register of the table, possibly repeated `n1` times at stride `s1` and within each `n2` times at stride `s2`. -/
structure RegRow where
  base : Nat
  n1 : Nat
  s1 : Nat
  n2 : Nat
  s2 : Nat
  fields : List FieldRow
deriving DecidableEq, Repr

/-- One field of one register: the register's offset, the field's lowest bit and width. -/
structure RF where
  addr : Nat
  lo : Nat
  w : Nat
deriving DecidableEq, Repr

namespace Rg

/-- DEV_ID of 01_architecture.md R37. -/
def DEV_ID : Nat := 0x0
def DEV_ID_VENDOR : RF := ⟨DEV_ID, 0, 16⟩
def DEV_ID_DEVICE : RF := ⟨DEV_ID, 16, 16⟩
def DEV_ID_STEPPING : RF := ⟨DEV_ID, 32, 8⟩
/-- DEV_VARIANT of 01_architecture.md R38. -/
def DEV_VARIANT : Nat := 0x8
def DEV_VARIANT_VARIANT : RF := ⟨DEV_VARIANT, 0, 8⟩
def DEV_VARIANT_FIELDS : RF := ⟨DEV_VARIANT, 8, 3⟩
/-- DEV_CAP0 of 01_architecture.md R39. -/
def DEV_CAP0 : Nat := 0x10
def DEV_CAP0_CLUSTERS : RF := ⟨DEV_CAP0, 0, 5⟩
def DEV_CAP0_ARRAYS : RF := ⟨DEV_CAP0, 5, 3⟩
def DEV_CAP0_CORES : RF := ⟨DEV_CAP0, 8, 9⟩
def DEV_CAP0_CTL_CORES : RF := ⟨DEV_CAP0, 17, 6⟩
def DEV_CAP0_PARTITIONS : RF := ⟨DEV_CAP0, 23, 4⟩
def DEV_CAP0_COACH_PORTS : RF := ⟨DEV_CAP0, 27, 4⟩
def DEV_CAP0_SKIMMER : RF := ⟨DEV_CAP0, 31, 1⟩
def DEV_CAP0_TABLE_EXP : RF := ⟨DEV_CAP0, 32, 1⟩
def DEV_CAP0_AFFINE_EXP : RF := ⟨DEV_CAP0, 33, 1⟩
def DEV_CAP0_LPDDR_CH : RF := ⟨DEV_CAP0, 34, 8⟩
def DEV_CAP0_SRAM_SLICE : RF := ⟨DEV_CAP0, 42, 6⟩
/-- DEV_CAP1 of 01_architecture.md R40. -/
def DEV_CAP1 : Nat := 0x18
def DEV_CAP1_LPDDR_RAW : RF := ⟨DEV_CAP1, 0, 10⟩
def DEV_CAP1_LPDDR_PART : RF := ⟨DEV_CAP1, 10, 10⟩
def DEV_CAP1_POWER_LIMIT : RF := ⟨DEV_CAP1, 20, 12⟩
/-- DEV_CLUSTER_MAP of 01_architecture.md R41. -/
def DEV_CLUSTER_MAP : Nat := 0x20
def DEV_CLUSTER_MAP_ENABLED : RF := ⟨DEV_CLUSTER_MAP, 0, 16⟩
def DEV_CLUSTER_MAP_FAILED : RF := ⟨DEV_CLUSTER_MAP, 16, 16⟩
/-- DEV_SERIAL of 01_architecture.md R42. -/
def DEV_SERIAL : Nat := 0x28
def DEV_SERIAL_SERIAL : RF := ⟨DEV_SERIAL, 0, 64⟩
/-- DEV_CORE_MAP of 01_architecture.md R43. -/
def DEV_CORE_MAP (j : Nat) : Nat := 0x100 + 0x8 * (j % 16)
def DEV_CORE_MAP_SPARE_POS (j : Nat) : RF := ⟨DEV_CORE_MAP j, 0, 5⟩
def DEV_CORE_MAP_LCLUSTER (j : Nat) : RF := ⟨DEV_CORE_MAP j, 8, 8⟩
def DEV_CORE_MAP_PENDING (j : Nat) : RF := ⟨DEV_CORE_MAP j, 16, 1⟩
def DEV_CORE_MAP_NEXT_SPARE (j : Nat) : RF := ⟨DEV_CORE_MAP j, 17, 5⟩
/-- DEV_TIME of 16_power_time.md R532. -/
def DEV_TIME : Nat := 0x1000
def DEV_TIME_NS : RF := ⟨DEV_TIME, 0, 64⟩
/-- DEV_TIME_SET of 16_power_time.md R532. -/
def DEV_TIME_SET : Nat := 0x1008
def DEV_TIME_SET_NS : RF := ⟨DEV_TIME_SET, 0, 64⟩
/-- DEV_TIME_CTRL of 16_power_time.md R532. -/
def DEV_TIME_CTRL : Nat := 0x1010
def DEV_TIME_CTRL_PPS_EN : RF := ⟨DEV_TIME_CTRL, 0, 1⟩
def DEV_TIME_CTRL_REF_EXT : RF := ⟨DEV_TIME_CTRL, 1, 1⟩
def DEV_TIME_CTRL_WINDOW_US : RF := ⟨DEV_TIME_CTRL, 2, 20⟩
/-- DEV_PPS_CAPTURE of 16_power_time.md R533. -/
def DEV_PPS_CAPTURE : Nat := 0x1018
def DEV_PPS_CAPTURE_NS : RF := ⟨DEV_PPS_CAPTURE, 0, 64⟩
/-- DEV_PPS_STATS of 16_power_time.md R533. -/
def DEV_PPS_STATS : Nat := 0x1020
def DEV_PPS_STATS_EDGES : RF := ⟨DEV_PPS_STATS, 0, 32⟩
def DEV_PPS_STATS_REJECTS : RF := ⟨DEV_PPS_STATS, 32, 16⟩
def DEV_PPS_STATS_TIME_SETS : RF := ⟨DEV_PPS_STATS, 48, 16⟩
/-- DEV_PPS_OFFSET of 16_power_time.md R533. -/
def DEV_PPS_OFFSET : Nat := 0x1028
def DEV_PPS_OFFSET_OFFSET : RF := ⟨DEV_PPS_OFFSET, 0, 32⟩
def DEV_PPS_OFFSET_APPLIED : RF := ⟨DEV_PPS_OFFSET, 32, 1⟩
/-- PWR_CAP_SET of 16_power_time.md R527. -/
def PWR_CAP_SET : Nat := 0x10000
def PWR_CAP_SET_CAP_W : RF := ⟨PWR_CAP_SET, 0, 12⟩
def PWR_CAP_SET_REJECT : RF := ⟨PWR_CAP_SET, 12, 1⟩
/-- PWR_STATUS of 16_power_time.md R527. -/
def PWR_STATUS : Nat := 0x10008
def PWR_STATUS_INPUT_MV : RF := ⟨PWR_STATUS, 0, 16⟩
def PWR_STATUS_INPUT_W : RF := ⟨PWR_STATUS, 16, 12⟩
def PWR_STATUS_SAG : RF := ⟨PWR_STATUS, 28, 1⟩
def PWR_STATUS_CURRENT : RF := ⟨PWR_STATUS, 29, 1⟩
def PWR_STATUS_THERMAL : RF := ⟨PWR_STATUS, 30, 1⟩
def PWR_STATUS_THERMTRIP : RF := ⟨PWR_STATUS, 31, 1⟩
/-- PWR_BUDGET of 16_power_time.md R528. -/
def PWR_BUDGET : Nat := 0x10010
def PWR_BUDGET_BASE_W : RF := ⟨PWR_BUDGET, 0, 12⟩
def PWR_BUDGET_LINKS_W : RF := ⟨PWR_BUDGET, 12, 12⟩
def PWR_BUDGET_MEMORY_W : RF := ⟨PWR_BUDGET, 24, 12⟩
def PWR_BUDGET_COMPUTE_W : RF := ⟨PWR_BUDGET, 36, 12⟩
/-- PWR_THERM of 16_power_time.md R528. -/
def PWR_THERM : Nat := 0x10018
def PWR_THERM_LIMIT_C : RF := ⟨PWR_THERM, 0, 8⟩
def PWR_THERM_MAX_C : RF := ⟨PWR_THERM, 8, 8⟩
def PWR_THERM_HOT_CLUSTER : RF := ⟨PWR_THERM, 16, 4⟩
/-- PWR_IRQ of 16_power_time.md R529. -/
def PWR_IRQ : Nat := 0x10020
def PWR_IRQ_SAG : RF := ⟨PWR_IRQ, 0, 1⟩
def PWR_IRQ_THERMAL : RF := ⟨PWR_IRQ, 1, 1⟩
def PWR_IRQ_THERMTRIP : RF := ⟨PWR_IRQ, 2, 1⟩
def PWR_IRQ_LIMITED : RF := ⟨PWR_IRQ, 3, 1⟩
def PWR_IRQ_REF_LOST : RF := ⟨PWR_IRQ, 4, 1⟩
/-- PWR_ENERGY of 16_power_time.md R529. -/
def PWR_ENERGY : Nat := 0x10028
def PWR_ENERGY_ENERGY_MJ : RF := ⟨PWR_ENERGY, 0, 64⟩
/-- PWR_PART_GRANT of 16_power_time.md R530. -/
def PWR_PART_GRANT (j : Nat) : Nat := 0x10100 + 0x10 * (j % 12)
def PWR_PART_GRANT_GRANT_W (j : Nat) : RF := ⟨PWR_PART_GRANT j, 0, 12⟩
def PWR_PART_GRANT_DEMAND_W (j : Nat) : RF := ⟨PWR_PART_GRANT j, 12, 12⟩
def PWR_PART_GRANT_CORES_ON (j : Nat) : RF := ⟨PWR_PART_GRANT j, 24, 9⟩
def PWR_PART_GRANT_ALLOWED (j : Nat) : RF := ⟨PWR_PART_GRANT j, 33, 9⟩
def PWR_PART_GRANT_REASON (j : Nat) : RF := ⟨PWR_PART_GRANT j, 42, 3⟩
/-- PWR_PART_CHARGE of 16_power_time.md R530. -/
def PWR_PART_CHARGE (j : Nat) : Nat := 0x10108 + 0x10 * (j % 12)
def PWR_PART_CHARGE_CHARGE_MW (j : Nat) : RF := ⟨PWR_PART_CHARGE j, 0, 16⟩
/-- PWR_THR_CNT of 16_power_time.md R531. -/
def PWR_THR_CNT (j : Nat) : Nat := 0x10200 + 0x10 * (j % 6)
def PWR_THR_CNT_EVENTS (j : Nat) : RF := ⟨PWR_THR_CNT j, 0, 32⟩
/-- PWR_THR_US of 16_power_time.md R531. -/
def PWR_THR_US (j : Nat) : Nat := 0x10208 + 0x10 * (j % 6)
def PWR_THR_US_DURATION_US (j : Nat) : RF := ⟨PWR_THR_US j, 0, 64⟩
/-- IMG_STATUS of 02_fabric_image.md R70. -/
def IMG_STATUS : Nat := 0x20000
def IMG_STATUS_LOADED : RF := ⟨IMG_STATUS, 0, 2⟩
def IMG_STATUS_TARGET : RF := ⟨IMG_STATUS, 2, 1⟩
def IMG_STATUS_BUSY : RF := ⟨IMG_STATUS, 3, 1⟩
def IMG_STATUS_DISCARD : RF := ⟨IMG_STATUS, 4, 1⟩
def IMG_STATUS_LAST_RESULT : RF := ⟨IMG_STATUS, 8, 8⟩
/-- IMG_SLOT_SEQ of 02_fabric_image.md R71. -/
def IMG_SLOT_SEQ (j : Nat) : Nat := 0x20008 + 0x8 * (j % 2)
def IMG_SLOT_SEQ_SEQUENCE (j : Nat) : RF := ⟨IMG_SLOT_SEQ j, 0, 64⟩
/-- IMG_SLOT_REASON of 02_fabric_image.md R72. -/
def IMG_SLOT_REASON : Nat := 0x20018
def IMG_SLOT_REASON_A_REASON : RF := ⟨IMG_SLOT_REASON, 0, 8⟩
def IMG_SLOT_REASON_B_REASON : RF := ⟨IMG_SLOT_REASON, 8, 8⟩
/-- IMG_CMD of 02_fabric_image.md R73. -/
def IMG_CMD : Nat := 0x20020
def IMG_CMD_OP : RF := ⟨IMG_CMD, 0, 4⟩
def IMG_CMD_PART : RF := ⟨IMG_CMD, 8, 4⟩
/-- IMG_XFER_HOST of 02_fabric_image.md R74. -/
def IMG_XFER_HOST : Nat := 0x20028
def IMG_XFER_HOST_ADDR : RF := ⟨IMG_XFER_HOST, 0, 64⟩
/-- IMG_XFER_OFFSET of 02_fabric_image.md R74. -/
def IMG_XFER_OFFSET : Nat := 0x20030
def IMG_XFER_OFFSET_OFFSET : RF := ⟨IMG_XFER_OFFSET, 0, 26⟩
/-- IMG_XFER_LEN of 02_fabric_image.md R74. -/
def IMG_XFER_LEN : Nat := 0x20038
def IMG_XFER_LEN_LEN : RF := ⟨IMG_XFER_LEN, 0, 27⟩
/-- IMG_RELOAD of 02_fabric_image.md R75. -/
def IMG_RELOAD (j : Nat) : Nat := 0x20100 + 0x8 * (j % 12)
def IMG_RELOAD_PENDING (j : Nat) : RF := ⟨IMG_RELOAD j, 0, 1⟩
def IMG_RELOAD_RESULT (j : Nat) : RF := ⟨IMG_RELOAD j, 8, 8⟩
def IMG_RELOAD_SEQ_LOW (j : Nat) : RF := ⟨IMG_RELOAD j, 32, 32⟩
/-- SEC_BOOT_STATUS of 15_boot_security.md R507. -/
def SEC_BOOT_STATUS : Nat := 0x30000
def SEC_BOOT_STATUS_STAGE : RF := ⟨SEC_BOOT_STATUS, 0, 3⟩
def SEC_BOOT_STATUS_MODE : RF := ⟨SEC_BOOT_STATUS, 3, 1⟩
def SEC_BOOT_STATUS_FW_LOADED : RF := ⟨SEC_BOOT_STATUS, 4, 2⟩
def SEC_BOOT_STATUS_FW_TARGET : RF := ⟨SEC_BOOT_STATUS, 6, 1⟩
def SEC_BOOT_STATUS_OWNER_FUSED : RF := ⟨SEC_BOOT_STATUS, 7, 1⟩
def SEC_BOOT_STATUS_REASON : RF := ⟨SEC_BOOT_STATUS, 8, 8⟩
def SEC_BOOT_STATUS_IMG_AT_RISK : RF := ⟨SEC_BOOT_STATUS, 16, 1⟩
/-- SEC_FW_SLOT_SEQ of 15_boot_security.md R508. -/
def SEC_FW_SLOT_SEQ (j : Nat) : Nat := 0x30008 + 0x8 * (j % 2)
def SEC_FW_SLOT_SEQ_SEQUENCE (j : Nat) : RF := ⟨SEC_FW_SLOT_SEQ j, 0, 64⟩
/-- SEC_FW_REASON of 15_boot_security.md R508. -/
def SEC_FW_REASON : Nat := 0x30018
def SEC_FW_REASON_A_REASON : RF := ⟨SEC_FW_REASON, 0, 8⟩
def SEC_FW_REASON_B_REASON : RF := ⟨SEC_FW_REASON, 8, 8⟩
/-- SEC_FW_VERSION_0 of 15_boot_security.md R508. -/
def SEC_FW_VERSION_0 : Nat := 0x30020
def SEC_FW_VERSION_0_INNKEEPER : RF := ⟨SEC_FW_VERSION_0, 0, 32⟩
def SEC_FW_VERSION_0_UCODE : RF := ⟨SEC_FW_VERSION_0, 32, 32⟩
/-- SEC_FW_VERSION_1 of 15_boot_security.md R508. -/
def SEC_FW_VERSION_1 : Nat := 0x30028
def SEC_FW_VERSION_1_POWER : RF := ⟨SEC_FW_VERSION_1, 0, 32⟩
def SEC_FW_VERSION_1_PORT : RF := ⟨SEC_FW_VERSION_1, 32, 32⟩
/-- SEC_SVN of 15_boot_security.md R508. -/
def SEC_SVN : Nat := 0x30030
def SEC_SVN_FW_CTR : RF := ⟨SEC_SVN, 0, 8⟩
def SEC_SVN_IMG_CTR : RF := ⟨SEC_SVN, 8, 8⟩
def SEC_SVN_FW_SVN : RF := ⟨SEC_SVN, 16, 8⟩
def SEC_SVN_IMG_SVN : RF := ⟨SEC_SVN, 24, 32⟩
/-- SEC_CMD of 15_boot_security.md R509. -/
def SEC_CMD : Nat := 0x30038
def SEC_CMD_OP : RF := ⟨SEC_CMD, 0, 4⟩
def SEC_CMD_PART : RF := ⟨SEC_CMD, 4, 4⟩
def SEC_CMD_WHICH : RF := ⟨SEC_CMD, 8, 1⟩
/-- SEC_XFER_HOST of 15_boot_security.md R509. -/
def SEC_XFER_HOST : Nat := 0x30040
def SEC_XFER_HOST_ADDR : RF := ⟨SEC_XFER_HOST, 0, 64⟩
/-- SEC_XFER_OFFSET of 15_boot_security.md R509. -/
def SEC_XFER_OFFSET : Nat := 0x30048
def SEC_XFER_OFFSET_OFFSET : RF := ⟨SEC_XFER_OFFSET, 0, 24⟩
/-- SEC_XFER_LEN of 15_boot_security.md R509. -/
def SEC_XFER_LEN : Nat := 0x30050
def SEC_XFER_LEN_LEN : RF := ⟨SEC_XFER_LEN, 0, 25⟩
/-- SEC_ATT_NONCE of 15_boot_security.md R509. -/
def SEC_ATT_NONCE (j : Nat) : Nat := 0x30060 + 0x8 * (j % 4)
def SEC_ATT_NONCE_NONCE (j : Nat) : RF := ⟨SEC_ATT_NONCE j, 0, 64⟩
/-- SEC_RESULT of 15_boot_security.md R509. -/
def SEC_RESULT : Nat := 0x30080
def SEC_RESULT_RESULT : RF := ⟨SEC_RESULT, 0, 8⟩
def SEC_RESULT_BUSY : RF := ⟨SEC_RESULT, 8, 1⟩
def SEC_RESULT_DONE : RF := ⟨SEC_RESULT, 9, 1⟩
def SEC_RESULT_COUNT : RF := ⟨SEC_RESULT, 32, 32⟩
/-- SEC_PART_ENTRY of 15_boot_security.md R510. -/
def SEC_PART_ENTRY (j : Nat) : Nat := 0x30100 + 0x10 * (j % 12)
def SEC_PART_ENTRY_ENTRY (j : Nat) : RF := ⟨SEC_PART_ENTRY j, 0, 64⟩
/-- SEC_PART_CTRL of 15_boot_security.md R510. -/
def SEC_PART_CTRL (j : Nat) : Nat := 0x30108 + 0x10 * (j % 12)
def SEC_PART_CTRL_START (j : Nat) : RF := ⟨SEC_PART_CTRL j, 0, 1⟩
def SEC_PART_CTRL_RUNNING (j : Nat) : RF := ⟨SEC_PART_CTRL j, 1, 1⟩
/-- FLT_RESET of 17_faults_reset.md R550. -/
def FLT_RESET : Nat := 0x40000
def FLT_RESET_OP : RF := ⟨FLT_RESET, 0, 2⟩
def FLT_RESET_PART : RF := ⟨FLT_RESET, 8, 4⟩
def FLT_RESET_CORE : RF := ⟨FLT_RESET, 16, 9⟩
/-- FLT_RESET_CAUSE of 17_faults_reset.md R550. -/
def FLT_RESET_CAUSE : Nat := 0x40008
def FLT_RESET_CAUSE_LAST : RF := ⟨FLT_RESET_CAUSE, 0, 4⟩
def FLT_RESET_CAUSE_CORE_BUSY : RF := ⟨FLT_RESET_CAUSE, 8, 1⟩
def FLT_RESET_CAUSE_WARM_COUNT : RF := ⟨FLT_RESET_CAUSE, 16, 16⟩
/-- FLT_LOG_STATUS of 17_faults_reset.md R551. -/
def FLT_LOG_STATUS : Nat := 0x40010
def FLT_LOG_STATUS_COUNT : RF := ⟨FLT_LOG_STATUS, 0, 9⟩
def FLT_LOG_STATUS_OVERFLOW : RF := ⟨FLT_LOG_STATUS, 9, 1⟩
/-- FLT_LOG_HEAD0 of 17_faults_reset.md R551. -/
def FLT_LOG_HEAD0 : Nat := 0x40018
def FLT_LOG_HEAD0_CLASS : RF := ⟨FLT_LOG_HEAD0, 0, 8⟩
def FLT_LOG_HEAD0_CAUSE : RF := ⟨FLT_LOG_HEAD0, 8, 8⟩
def FLT_LOG_HEAD0_PART : RF := ⟨FLT_LOG_HEAD0, 16, 4⟩
def FLT_LOG_HEAD0_OWNER : RF := ⟨FLT_LOG_HEAD0, 20, 4⟩
def FLT_LOG_HEAD0_FAULT_ID : RF := ⟨FLT_LOG_HEAD0, 24, 32⟩
def FLT_LOG_HEAD0_FOLLOWS : RF := ⟨FLT_LOG_HEAD0, 56, 1⟩
def FLT_LOG_HEAD0_VALID : RF := ⟨FLT_LOG_HEAD0, 63, 1⟩
/-- FLT_LOG_HEAD1 of 17_faults_reset.md R551. -/
def FLT_LOG_HEAD1 : Nat := 0x40020
def FLT_LOG_HEAD1_DETAIL : RF := ⟨FLT_LOG_HEAD1, 0, 64⟩
/-- FLT_LOG_HEAD2 of 17_faults_reset.md R551. -/
def FLT_LOG_HEAD2 : Nat := 0x40028
def FLT_LOG_HEAD2_TIME : RF := ⟨FLT_LOG_HEAD2, 0, 64⟩
/-- FLT_IRQ of 17_faults_reset.md R552. -/
def FLT_IRQ : Nat := 0x40030
def FLT_IRQ_LOGGED : RF := ⟨FLT_IRQ, 0, 1⟩
def FLT_IRQ_JOB_FAULT : RF := ⟨FLT_IRQ, 1, 1⟩
def FLT_IRQ_WDOG : RF := ⟨FLT_IRQ, 2, 1⟩
def FLT_IRQ_REPAIR_DONE : RF := ⟨FLT_IRQ, 3, 1⟩
/-- FLT_IK_WDOG of 17_faults_reset.md R552. -/
def FLT_IK_WDOG : Nat := 0x40038
def FLT_IK_WDOG_PERIOD_MS : RF := ⟨FLT_IK_WDOG, 0, 16⟩
def FLT_IK_WDOG_EXPIRIES : RF := ⟨FLT_IK_WDOG, 16, 16⟩
/-- FLT_REPAIR_HOST of 17_faults_reset.md R553. -/
def FLT_REPAIR_HOST : Nat := 0x40040
def FLT_REPAIR_HOST_ADDR : RF := ⟨FLT_REPAIR_HOST, 0, 64⟩
/-- FLT_REPAIR_LEN of 17_faults_reset.md R553. -/
def FLT_REPAIR_LEN : Nat := 0x40048
def FLT_REPAIR_LEN_LEN : RF := ⟨FLT_REPAIR_LEN, 0, 16⟩
/-- FLT_REPAIR_CMD of 17_faults_reset.md R553. -/
def FLT_REPAIR_CMD : Nat := 0x40050
def FLT_REPAIR_CMD_OP : RF := ⟨FLT_REPAIR_CMD, 0, 2⟩
/-- FLT_REPAIR_RESULT of 17_faults_reset.md R553. -/
def FLT_REPAIR_RESULT : Nat := 0x40058
def FLT_REPAIR_RESULT_RESULT : RF := ⟨FLT_REPAIR_RESULT, 0, 8⟩
def FLT_REPAIR_RESULT_BUSY : RF := ⟨FLT_REPAIR_RESULT, 8, 1⟩
def FLT_REPAIR_RESULT_APPLIED : RF := ⟨FLT_REPAIR_RESULT, 16, 8⟩
/-- FLT_PART of 17_faults_reset.md R554. -/
def FLT_PART (j : Nat) : Nat := 0x40100 + 0x10 * (j % 12)
def FLT_PART_STATE (j : Nat) : RF := ⟨FLT_PART j, 0, 3⟩
def FLT_PART_HELD (j : Nat) : RF := ⟨FLT_PART j, 3, 1⟩
def FLT_PART_CAUSE (j : Nat) : RF := ⟨FLT_PART j, 4, 8⟩
def FLT_PART_FAULT_ID (j : Nat) : RF := ⟨FLT_PART j, 32, 32⟩
/-- FLT_PART_TIME of 17_faults_reset.md R554. -/
def FLT_PART_TIME (j : Nat) : Nat := 0x40108 + 0x10 * (j % 12)
def FLT_PART_TIME_TIME (j : Nat) : RF := ⟨FLT_PART_TIME j, 0, 64⟩
/-- SVC_STATE of 17_faults_reset.md R555. -/
def SVC_STATE : Nat := 0x50000
def SVC_STATE_MODE : RF := ⟨SVC_STATE, 0, 3⟩
def SVC_STATE_IDENTIFY : RF := ⟨SVC_STATE, 3, 1⟩
def SVC_STATE_KEY_HELD : RF := ⟨SVC_STATE, 4, 1⟩
def SVC_STATE_HOLD_100MS : RF := ⟨SVC_STATE, 16, 16⟩
/-- SVC_CMD of 17_faults_reset.md R555. -/
def SVC_CMD : Nat := 0x50008
def SVC_CMD_OP : RF := ⟨SVC_CMD, 0, 2⟩
/-- SVC_CFG of 17_faults_reset.md R555. -/
def SVC_CFG : Nat := 0x50010
def SVC_CFG_QUIESCE_S : RF := ⟨SVC_CFG, 0, 10⟩
def SVC_CFG_LOCK_KEY : RF := ⟨SVC_CFG, 10, 1⟩
/-- SVC_LBAR of 17_faults_reset.md R556. -/
def SVC_LBAR : Nat := 0x50018
def SVC_LBAR_PATTERN : RF := ⟨SVC_LBAR, 0, 5⟩
def SVC_LBAR_HOST_EN : RF := ⟨SVC_LBAR, 5, 1⟩
def SVC_LBAR_HOST_COLOURS : RF := ⟨SVC_LBAR, 6, 24⟩
/-- SVC_PRESENCE of 17_faults_reset.md R557. -/
def SVC_PRESENCE : Nat := 0x50020
def SVC_PRESENCE_CAGE : RF := ⟨SVC_PRESENCE, 0, 8⟩
def SVC_PRESENCE_LARRIC : RF := ⟨SVC_PRESENCE, 8, 1⟩
def SVC_PRESENCE_CAGE_CHG : RF := ⟨SVC_PRESENCE, 16, 8⟩
def SVC_PRESENCE_LARRIC_CHG : RF := ⟨SVC_PRESENCE, 24, 1⟩
/-- SVC_IRQ of 17_faults_reset.md R557. -/
def SVC_IRQ : Nat := 0x50028
def SVC_IRQ_IDENTIFY : RF := ⟨SVC_IRQ, 0, 1⟩
def SVC_IRQ_QUIESCE_REQ : RF := ⟨SVC_IRQ, 1, 1⟩
def SVC_IRQ_SAFE : RF := ⟨SVC_IRQ, 2, 1⟩
def SVC_IRQ_FORCE_STOP : RF := ⟨SVC_IRQ, 3, 1⟩
def SVC_IRQ_PRESENCE : RF := ⟨SVC_IRQ, 4, 1⟩
/-- LRL_STATUS of 14_larric_link.md R481. -/
def LRL_STATUS : Nat := 0x60000
def LRL_STATUS_STATE : RF := ⟨LRL_STATUS, 0, 3⟩
def LRL_STATUS_MODE : RF := ⟨LRL_STATUS, 3, 1⟩
def LRL_STATUS_WIDTH : RF := ⟨LRL_STATUS, 4, 4⟩
def LRL_STATUS_LANES_FAILED : RF := ⟨LRL_STATUS, 8, 8⟩
def LRL_STATUS_TRAIN_FAILS : RF := ⟨LRL_STATUS, 16, 8⟩
/-- LRL_CFG of 14_larric_link.md R482. -/
def LRL_CFG : Nat := 0x60008
def LRL_CFG_REPLAY_NS : RF := ⟨LRL_CFG, 0, 16⟩
def LRL_CFG_CPL_TIMEOUT_MS : RF := ⟨LRL_CFG, 16, 16⟩
def LRL_CFG_RETRAIN_MS : RF := ⟨LRL_CFG, 32, 16⟩
def LRL_CFG_ALLOW_X4 : RF := ⟨LRL_CFG, 48, 1⟩
/-- LRL_ERR of 14_larric_link.md R483. -/
def LRL_ERR : Nat := 0x60010
def LRL_ERR_CRC_ERR : RF := ⟨LRL_ERR, 0, 32⟩
def LRL_ERR_REPLAYS : RF := ⟨LRL_ERR, 32, 16⟩
def LRL_ERR_RETRAINS : RF := ⟨LRL_ERR, 48, 16⟩
/-- LRL_EVENTS of 14_larric_link.md R483. -/
def LRL_EVENTS : Nat := 0x60018
def LRL_EVENTS_DOWNS : RF := ⟨LRL_EVENTS, 0, 16⟩
def LRL_EVENTS_DB_BAD : RF := ⟨LRL_EVENTS, 16, 16⟩
def LRL_EVENTS_CPL_TIMEOUT : RF := ⟨LRL_EVENTS, 32, 16⟩
def LRL_EVENTS_ACCESS_ERR : RF := ⟨LRL_EVENTS, 48, 16⟩
/-- LRL_IRQ_MASK of 14_larric_link.md R484. -/
def LRL_IRQ_MASK : Nat := 0x60020
def LRL_IRQ_MASK_MASK : RF := ⟨LRL_IRQ_MASK, 0, 64⟩
/-- LRL_IRQ_PEND of 14_larric_link.md R484. -/
def LRL_IRQ_PEND : Nat := 0x60028
def LRL_IRQ_PEND_PEND : RF := ⟨LRL_IRQ_PEND, 0, 64⟩
/-- LRL_IRQ_REARM of 14_larric_link.md R484. -/
def LRL_IRQ_REARM : Nat := 0x60030
def LRL_IRQ_REARM_REARM : RF := ⟨LRL_IRQ_REARM, 0, 64⟩
/-- LRL_HWIN_BASE of 14_larric_link.md R485. -/
def LRL_HWIN_BASE (j : Nat) : Nat := 0x60100 + 0x10 * (j % 12)
def LRL_HWIN_BASE_BASE (j : Nat) : RF := ⟨LRL_HWIN_BASE j, 0, 64⟩
/-- LRL_HWIN_LIMIT of 14_larric_link.md R485. -/
def LRL_HWIN_LIMIT (j : Nat) : Nat := 0x60108 + 0x10 * (j % 12)
def LRL_HWIN_LIMIT_LIMIT (j : Nat) : RF := ⟨LRL_HWIN_LIMIT j, 0, 64⟩
/-- CCH_PORT_CTRL of 13_coach_ports.md R454. -/
def CCH_PORT_CTRL (i : Nat) : Nat := 0x80000 + 0x2000 * (i % 8)
def CCH_PORT_CTRL_ENABLE (i : Nat) : RF := ⟨CCH_PORT_CTRL i, 0, 1⟩
def CCH_PORT_CTRL_VLAN (i : Nat) : RF := ⟨CCH_PORT_CTRL i, 1, 1⟩
def CCH_PORT_CTRL_PCP (i : Nat) : RF := ⟨CCH_PORT_CTRL i, 2, 3⟩
def CCH_PORT_CTRL_VID (i : Nat) : RF := ⟨CCH_PORT_CTRL i, 8, 12⟩
/-- CCH_PORT_STATUS of 13_coach_ports.md R454. -/
def CCH_PORT_STATUS (i : Nat) : Nat := 0x80008 + 0x2000 * (i % 8)
def CCH_PORT_STATUS_STATE (i : Nat) : RF := ⟨CCH_PORT_STATUS i, 0, 3⟩
def CCH_PORT_STATUS_PRESENT (i : Nat) : RF := ⟨CCH_PORT_STATUS i, 3, 1⟩
def CCH_PORT_STATUS_MEDIA (i : Nat) : RF := ⟨CCH_PORT_STATUS i, 4, 2⟩
def CCH_PORT_STATUS_TRAIN_FAILS (i : Nat) : RF := ⟨CCH_PORT_STATUS i, 8, 8⟩
/-- CCH_PORT_FEC of 13_coach_ports.md R455. -/
def CCH_PORT_FEC (i : Nat) : Nat := 0x80010 + 0x2000 * (i % 8)
def CCH_PORT_FEC_CORRECTED (i : Nat) : RF := ⟨CCH_PORT_FEC i, 0, 32⟩
def CCH_PORT_FEC_UNCORRECTED (i : Nat) : RF := ⟨CCH_PORT_FEC i, 32, 32⟩
/-- CCH_PORT_FRAMES of 13_coach_ports.md R455. -/
def CCH_PORT_FRAMES (i : Nat) : Nat := 0x80018 + 0x2000 * (i % 8)
def CCH_PORT_FRAMES_TX (i : Nat) : RF := ⟨CCH_PORT_FRAMES i, 0, 32⟩
def CCH_PORT_FRAMES_RX (i : Nat) : RF := ⟨CCH_PORT_FRAMES i, 32, 32⟩
/-- CCH_PORT_DROP of 13_coach_ports.md R455. -/
def CCH_PORT_DROP (i : Nat) : Nat := 0x80020 + 0x2000 * (i % 8)
def CCH_PORT_DROP_TAG_DROP (i : Nat) : RF := ⟨CCH_PORT_DROP i, 0, 16⟩
def CCH_PORT_DROP_ADDR_DROP (i : Nat) : RF := ⟨CCH_PORT_DROP i, 16, 16⟩
def CCH_PORT_DROP_CRC_DROP (i : Nat) : RF := ⟨CCH_PORT_DROP i, 32, 16⟩
def CCH_PORT_DROP_OTHER_DROP (i : Nat) : RF := ⟨CCH_PORT_DROP i, 48, 16⟩
/-- CCH_PORT_RETX of 13_coach_ports.md R455. -/
def CCH_PORT_RETX (i : Nat) : Nat := 0x80028 + 0x2000 * (i % 8)
def CCH_PORT_RETX_RETX (i : Nat) : RF := ⟨CCH_PORT_RETX i, 0, 32⟩
def CCH_PORT_RETX_RTO (i : Nat) : RF := ⟨CCH_PORT_RETX i, 32, 16⟩
def CCH_PORT_RETX_CREDIT_DROP (i : Nat) : RF := ⟨CCH_PORT_RETX i, 48, 16⟩
/-- CCH_PORT_EVENTS of 13_coach_ports.md R455. -/
def CCH_PORT_EVENTS (i : Nat) : Nat := 0x80030 + 0x2000 * (i % 8)
def CCH_PORT_EVENTS_DOWNS (i : Nat) : RF := ⟨CCH_PORT_EVENTS i, 0, 16⟩
def CCH_PORT_EVENTS_FAILOVERS_OUT (i : Nat) : RF := ⟨CCH_PORT_EVENTS i, 16, 16⟩
def CCH_PORT_EVENTS_FAILOVERS_IN (i : Nat) : RF := ⟨CCH_PORT_EVENTS i, 32, 16⟩
/-- CCH_DEVICE of 13_coach_ports.md R456. -/
def CCH_DEVICE : Nat := 0x81000
def CCH_DEVICE_DEVICE_ID : RF := ⟨CCH_DEVICE, 0, 13⟩
def CCH_DEVICE_PORTS : RF := ⟨CCH_DEVICE, 16, 4⟩
/-- CCH_XPORT_CFG of 13_coach_ports.md R456. -/
def CCH_XPORT_CFG : Nat := 0x81008
def CCH_XPORT_CFG_RTO_US : RF := ⟨CCH_XPORT_CFG, 0, 14⟩
def CCH_XPORT_CFG_RETRY_MAX : RF := ⟨CCH_XPORT_CFG, 14, 4⟩
def CCH_XPORT_CFG_ACK_DELAY : RF := ⟨CCH_XPORT_CFG, 18, 8⟩
def CCH_XPORT_CFG_FLOW_CREDIT : RF := ⟨CCH_XPORT_CFG, 26, 9⟩
def CCH_XPORT_CFG_DOWN_US : RF := ⟨CCH_XPORT_CFG, 35, 14⟩
/-- CCH_ROUTE_SEL of 13_coach_ports.md R457. -/
def CCH_ROUTE_SEL : Nat := 0x81010
def CCH_ROUTE_SEL_DEVICE : RF := ⟨CCH_ROUTE_SEL, 0, 13⟩
/-- CCH_ROUTE_DATA of 13_coach_ports.md R457. -/
def CCH_ROUTE_DATA : Nat := 0x81018
def CCH_ROUTE_DATA_PRIMARY : RF := ⟨CCH_ROUTE_DATA, 0, 3⟩
def CCH_ROUTE_DATA_VALID : RF := ⟨CCH_ROUTE_DATA, 3, 1⟩
def CCH_ROUTE_DATA_VIA : RF := ⟨CCH_ROUTE_DATA, 8, 32⟩
/-- CCH_FLOWS of 13_coach_ports.md R458. -/
def CCH_FLOWS : Nat := 0x81020
def CCH_FLOWS_OPEN : RF := ⟨CCH_FLOWS, 0, 15⟩
def CCH_FLOWS_REFUSED : RF := ⟨CCH_FLOWS, 16, 16⟩
def CCH_FLOWS_AGED : RF := ⟨CCH_FLOWS, 32, 16⟩
/-- CCH_EXPORT of 13_coach_ports.md R458. -/
def CCH_EXPORT : Nat := 0x81028
def CCH_EXPORT_ACTIVE : RF := ⟨CCH_EXPORT, 0, 9⟩
def CCH_EXPORT_PAGES : RF := ⟨CCH_EXPORT, 32, 32⟩
/-- CCH_EXPORT_END of 13_coach_ports.md R458. -/
def CCH_EXPORT_END : Nat := 0x81030
def CCH_EXPORT_END_COMPLETE : RF := ⟨CCH_EXPORT_END, 0, 16⟩
def CCH_EXPORT_END_CANCELLED : RF := ⟨CCH_EXPORT_END, 16, 16⟩
def CCH_EXPORT_END_ABORTED : RF := ⟨CCH_EXPORT_END, 32, 16⟩
/-- CCH_ABORT of 13_coach_ports.md R458. -/
def CCH_ABORT : Nat := 0x81038
def CCH_ABORT_SENT : RF := ⟨CCH_ABORT, 0, 16⟩
def CCH_ABORT_ACCEPTED : RF := ⟨CCH_ABORT, 16, 16⟩
def CCH_ABORT_DUPLICATE : RF := ⟨CCH_ABORT, 32, 16⟩
/-- CCH_LAST of 13_coach_ports.md R459. -/
def CCH_LAST (j : Nat) : Nat := 0x81100 + 0x40 * (j % 12)
def CCH_LAST_DEV (j : Nat) : RF := ⟨CCH_LAST j, 0, 13⟩
def CCH_LAST_RANK (j : Nat) : RF := ⟨CCH_LAST j, 16, 13⟩
def CCH_LAST_WAIT_NS (j : Nat) : RF := ⟨CCH_LAST j, 32, 32⟩
/-- CCH_LAST_SEQ of 13_coach_ports.md R459. -/
def CCH_LAST_SEQ (j : Nat) : Nat := 0x81108 + 0x40 * (j % 12)
def CCH_LAST_SEQ_SEQ (j : Nat) : RF := ⟨CCH_LAST_SEQ j, 0, 32⟩
def CCH_LAST_SEQ_KIND (j : Nat) : RF := ⟨CCH_LAST_SEQ j, 32, 8⟩
/-- CCH_WDOG of 13_coach_ports.md R459. -/
def CCH_WDOG (j : Nat) : Nat := 0x81110 + 0x40 * (j % 12)
def CCH_WDOG_DEV (j : Nat) : RF := ⟨CCH_WDOG j, 0, 13⟩
def CCH_WDOG_RANK (j : Nat) : RF := ⟨CCH_WDOG j, 16, 13⟩
def CCH_WDOG_STEP (j : Nat) : RF := ⟨CCH_WDOG j, 32, 16⟩
def CCH_WDOG_FIRED (j : Nat) : RF := ⟨CCH_WDOG j, 48, 1⟩
/-- CCH_CTR_SEL of 13_coach_ports.md R459. -/
def CCH_CTR_SEL (j : Nat) : Nat := 0x81118 + 0x40 * (j % 12)
def CCH_CTR_SEL_COUNTER (j : Nat) : RF := ⟨CCH_CTR_SEL j, 0, 8⟩
/-- CCH_CTR_VAL of 13_coach_ports.md R459. -/
def CCH_CTR_VAL (j : Nat) : Nat := 0x81120 + 0x40 * (j % 12)
def CCH_CTR_VAL_VALUE (j : Nat) : RF := ⟨CCH_CTR_VAL j, 0, 32⟩
def CCH_CTR_VAL_WAITER (j : Nat) : RF := ⟨CCH_CTR_VAL j, 32, 1⟩
/-- MEM_CONFIG of 09_memory.md R307. -/
def MEM_CONFIG : Nat := 0xE0000
def MEM_CONFIG_CHANNELS : RF := ⟨MEM_CONFIG, 0, 8⟩
def MEM_CONFIG_RATE_MTS : RF := ⟨MEM_CONFIG, 8, 16⟩
def MEM_CONFIG_PART_GIB : RF := ⟨MEM_CONFIG, 24, 10⟩
def MEM_CONFIG_RESERVE_HALF_GIB : RF := ⟨MEM_CONFIG, 34, 8⟩
/-- MEM_SCRUB_STATUS of 09_memory.md R308. -/
def MEM_SCRUB_STATUS : Nat := 0xE0008
def MEM_SCRUB_STATUS_PERIOD_S : RF := ⟨MEM_SCRUB_STATUS, 0, 32⟩
def MEM_SCRUB_STATUS_PROGRESS : RF := ⟨MEM_SCRUB_STATUS, 32, 10⟩
def MEM_SCRUB_STATUS_BEHIND : RF := ⟨MEM_SCRUB_STATUS, 42, 1⟩
def MEM_SCRUB_STATUS_PASSES : RF := ⟨MEM_SCRUB_STATUS, 43, 21⟩
/-- MEM_ERR_COUNT of 09_memory.md R309. -/
def MEM_ERR_COUNT : Nat := 0xE0010
def MEM_ERR_COUNT_CORRECTED : RF := ⟨MEM_ERR_COUNT, 0, 32⟩
def MEM_ERR_COUNT_UNCORR : RF := ⟨MEM_ERR_COUNT, 32, 16⟩
def MEM_ERR_COUNT_POISON_READ : RF := ⟨MEM_ERR_COUNT, 48, 16⟩
/-- MEM_LOG_STATUS of 09_memory.md R310. -/
def MEM_LOG_STATUS : Nat := 0xE0018
def MEM_LOG_STATUS_COUNT : RF := ⟨MEM_LOG_STATUS, 0, 7⟩
def MEM_LOG_STATUS_OVERFLOW : RF := ⟨MEM_LOG_STATUS, 7, 1⟩
def MEM_LOG_STATUS_UNCORR_IRQ : RF := ⟨MEM_LOG_STATUS, 8, 1⟩
/-- MEM_LOG_HEAD0 of 09_memory.md R311. -/
def MEM_LOG_HEAD0 : Nat := 0xE0020
def MEM_LOG_HEAD0_ADDR : RF := ⟨MEM_LOG_HEAD0, 0, 48⟩
def MEM_LOG_HEAD0_SOURCE : RF := ⟨MEM_LOG_HEAD0, 48, 3⟩
def MEM_LOG_HEAD0_SRAM : RF := ⟨MEM_LOG_HEAD0, 51, 1⟩
def MEM_LOG_HEAD0_CLASS : RF := ⟨MEM_LOG_HEAD0, 52, 4⟩
def MEM_LOG_HEAD0_PART : RF := ⟨MEM_LOG_HEAD0, 56, 4⟩
def MEM_LOG_HEAD0_VALID : RF := ⟨MEM_LOG_HEAD0, 63, 1⟩
/-- MEM_LOG_HEAD1 of 09_memory.md R311. -/
def MEM_LOG_HEAD1 : Nat := 0xE0028
def MEM_LOG_HEAD1_TIME : RF := ⟨MEM_LOG_HEAD1, 0, 64⟩
/-- MEM_SPLIT of 09_memory.md R312. -/
def MEM_SPLIT (j : Nat) : Nat := 0xE0100 + 0x8 * (j % 12)
def MEM_SPLIT_READ (j : Nat) : RF := ⟨MEM_SPLIT j, 0, 4⟩
def MEM_SPLIT_WRITE (j : Nat) : RF := ⟨MEM_SPLIT j, 4, 4⟩
def MEM_SPLIT_REMOTE (j : Nat) : RF := ⟨MEM_SPLIT j, 8, 4⟩
def MEM_SPLIT_PATTERN (j : Nat) : RF := ⟨MEM_SPLIT j, 32, 32⟩
/-- MEM_CH_STATUS of 09_memory.md R313. -/
def MEM_CH_STATUS (i : Nat) : Nat := 0xA0000 + 0x1000 * (i % 64)
def MEM_CH_STATUS_TRAINED (i : Nat) : RF := ⟨MEM_CH_STATUS i, 0, 1⟩
def MEM_CH_STATUS_WQ_LEVEL (i : Nat) : RF := ⟨MEM_CH_STATUS i, 8, 8⟩
def MEM_CH_STATUS_RQ_LEVEL (i : Nat) : RF := ⟨MEM_CH_STATUS i, 16, 8⟩
/-- MEM_CH_SLOTS_READ of 09_memory.md R314. -/
def MEM_CH_SLOTS_READ (i : Nat) : Nat := 0xA0008 + 0x1000 * (i % 64)
def MEM_CH_SLOTS_READ_SLOTS (i : Nat) : RF := ⟨MEM_CH_SLOTS_READ i, 0, 48⟩
/-- MEM_CH_SLOTS_WRITE of 09_memory.md R314. -/
def MEM_CH_SLOTS_WRITE (i : Nat) : Nat := 0xA0010 + 0x1000 * (i % 64)
def MEM_CH_SLOTS_WRITE_SLOTS (i : Nat) : RF := ⟨MEM_CH_SLOTS_WRITE i, 0, 48⟩
/-- MEM_CH_SLOTS_REMOTE of 09_memory.md R314. -/
def MEM_CH_SLOTS_REMOTE (i : Nat) : Nat := 0xA0018 + 0x1000 * (i % 64)
def MEM_CH_SLOTS_REMOTE_SLOTS (i : Nat) : RF := ⟨MEM_CH_SLOTS_REMOTE i, 0, 48⟩
/-- MEM_CH_SLOTS_IDLE of 09_memory.md R314. -/
def MEM_CH_SLOTS_IDLE (i : Nat) : Nat := 0xA0020 + 0x1000 * (i % 64)
def MEM_CH_SLOTS_IDLE_SLOTS (i : Nat) : RF := ⟨MEM_CH_SLOTS_IDLE i, 0, 48⟩
/-- MEM_CH_ECC of 09_memory.md R315. -/
def MEM_CH_ECC (i : Nat) : Nat := 0xA0028 + 0x1000 * (i % 64)
def MEM_CH_ECC_CORRECTED (i : Nat) : RF := ⟨MEM_CH_ECC i, 0, 32⟩
def MEM_CH_ECC_UNCORR (i : Nat) : RF := ⟨MEM_CH_ECC i, 32, 16⟩
def MEM_CH_ECC_RMW (i : Nat) : RF := ⟨MEM_CH_ECC i, 48, 16⟩
/-- DSP_CTRL of 10_task_graphs.md R344. -/
def DSP_CTRL (i : Nat) : Nat := 0x100000 + 0x100000 * (i % 12)
def DSP_CTRL_HALT (i : Nat) : RF := ⟨DSP_CTRL i, 0, 1⟩
def DSP_CTRL_HALTED (i : Nat) : RF := ⟨DSP_CTRL i, 1, 1⟩
/-- DSP_STATUS of 10_task_graphs.md R344. -/
def DSP_STATUS (i : Nat) : Nat := 0x100008 + 0x100000 * (i % 12)
def DSP_STATUS_RESIDENT (i : Nat) : RF := ⟨DSP_STATUS i, 0, 15⟩
def DSP_STATUS_READY (i : Nat) : RF := ⟨DSP_STATUS i, 15, 15⟩
def DSP_STATUS_INFLIGHT (i : Nat) : RF := ⟨DSP_STATUS i, 30, 10⟩
/-- DSP_GRAPHS of 10_task_graphs.md R345. -/
def DSP_GRAPHS (i : Nat) : Nat := 0x100010 + 0x100000 * (i % 12)
def DSP_GRAPHS_VALID (i : Nat) : RF := ⟨DSP_GRAPHS i, 0, 16⟩
def DSP_GRAPHS_RUNNING (i : Nat) : RF := ⟨DSP_GRAPHS i, 16, 16⟩
def DSP_GRAPHS_UNLOADING (i : Nat) : RF := ⟨DSP_GRAPHS i, 32, 16⟩
def DSP_GRAPHS_BROKEN (i : Nat) : RF := ⟨DSP_GRAPHS i, 48, 16⟩
/-- DSP_POOL of 10_task_graphs.md R345. -/
def DSP_POOL (i : Nat) : Nat := 0x100018 + 0x100000 * (i % 12)
def DSP_POOL_PREFILL (i : Nat) : RF := ⟨DSP_POOL i, 0, 9⟩
def DSP_POOL_STEP (i : Nat) : RF := ⟨DSP_POOL i, 9, 9⟩
/-- DSP_CMD of 10_task_graphs.md R346. -/
def DSP_CMD (i : Nat) : Nat := 0x100020 + 0x100000 * (i % 12)
def DSP_CMD_OP (i : Nat) : RF := ⟨DSP_CMD i, 0, 4⟩
def DSP_CMD_TAG (i : Nat) : RF := ⟨DSP_CMD i, 8, 4⟩
/-- DSP_CMD_ADDR of 10_task_graphs.md R346. -/
def DSP_CMD_ADDR (i : Nat) : Nat := 0x100028 + 0x100000 * (i % 12)
def DSP_CMD_ADDR_ADDR (i : Nat) : RF := ⟨DSP_CMD_ADDR i, 0, 64⟩
/-- DSP_CMD_RESULT of 10_task_graphs.md R346. -/
def DSP_CMD_RESULT (i : Nat) : Nat := 0x100030 + 0x100000 * (i % 12)
def DSP_CMD_RESULT_RESULT (i : Nat) : RF := ⟨DSP_CMD_RESULT i, 0, 8⟩
def DSP_CMD_RESULT_BUSY (i : Nat) : RF := ⟨DSP_CMD_RESULT i, 8, 1⟩
def DSP_CMD_RESULT_NODE (i : Nat) : RF := ⟨DSP_CMD_RESULT i, 16, 14⟩
def DSP_CMD_RESULT_COUNT (i : Nat) : RF := ⟨DSP_CMD_RESULT i, 32, 32⟩
/-- DSP_CRING_BASE of 10_task_graphs.md R347. -/
def DSP_CRING_BASE (i : Nat) : Nat := 0x100040 + 0x100000 * (i % 12)
def DSP_CRING_BASE_BASE (i : Nat) : RF := ⟨DSP_CRING_BASE i, 0, 64⟩
/-- DSP_CRING_CFG of 10_task_graphs.md R347. -/
def DSP_CRING_CFG (i : Nat) : Nat := 0x100048 + 0x100000 * (i % 12)
def DSP_CRING_CFG_LOG2 (i : Nat) : RF := ⟨DSP_CRING_CFG i, 0, 5⟩
/-- DSP_CRING_TAIL of 10_task_graphs.md R347. -/
def DSP_CRING_TAIL (i : Nat) : Nat := 0x100050 + 0x100000 * (i % 12)
def DSP_CRING_TAIL_TAIL (i : Nat) : RF := ⟨DSP_CRING_TAIL i, 0, 32⟩
/-- DSP_CRING_HEAD of 10_task_graphs.md R347. -/
def DSP_CRING_HEAD (i : Nat) : Nat := 0x100058 + 0x100000 * (i % 12)
def DSP_CRING_HEAD_HEAD (i : Nat) : RF := ⟨DSP_CRING_HEAD i, 0, 32⟩
/-- DSP_CB_BASE of 10_task_graphs.md R347. -/
def DSP_CB_BASE (i : Nat) : Nat := 0x100060 + 0x100000 * (i % 12)
def DSP_CB_BASE_BASE (i : Nat) : RF := ⟨DSP_CB_BASE i, 0, 64⟩
/-- DSP_CB_CFG of 10_task_graphs.md R347. -/
def DSP_CB_CFG (i : Nat) : Nat := 0x100068 + 0x100000 * (i % 12)
def DSP_CB_CFG_LOG2 (i : Nat) : RF := ⟨DSP_CB_CFG i, 0, 5⟩
/-- DSP_CB_TAIL of 10_task_graphs.md R347. -/
def DSP_CB_TAIL (i : Nat) : Nat := 0x100070 + 0x100000 * (i % 12)
def DSP_CB_TAIL_TAIL (i : Nat) : RF := ⟨DSP_CB_TAIL i, 0, 32⟩
/-- DSP_CB_HEAD of 10_task_graphs.md R347. -/
def DSP_CB_HEAD (i : Nat) : Nat := 0x100078 + 0x100000 * (i % 12)
def DSP_CB_HEAD_HEAD (i : Nat) : RF := ⟨DSP_CB_HEAD i, 0, 32⟩
/-- DSP_CTL_DONE of 10_task_graphs.md R348. -/
def DSP_CTL_DONE (i : Nat) : Nat := 0x100080 + 0x100000 * (i % 12)
def DSP_CTL_DONE_SEQ (i : Nat) : RF := ⟨DSP_CTL_DONE i, 0, 32⟩
def DSP_CTL_DONE_STATUS (i : Nat) : RF := ⟨DSP_CTL_DONE i, 32, 8⟩
def DSP_CTL_DONE_SUB (i : Nat) : RF := ⟨DSP_CTL_DONE i, 40, 8⟩
/-- DSP_IRQ of 10_task_graphs.md R348. -/
def DSP_IRQ (i : Nat) : Nat := 0x100088 + 0x100000 * (i % 12)
def DSP_IRQ_RECORD (i : Nat) : RF := ⟨DSP_IRQ i, 0, 1⟩
def DSP_IRQ_CALLBACK (i : Nat) : RF := ⟨DSP_IRQ i, 1, 1⟩
def DSP_IRQ_RING_FULL (i : Nat) : RF := ⟨DSP_IRQ i, 2, 1⟩
def DSP_IRQ_CMD_DONE (i : Nat) : RF := ⟨DSP_IRQ i, 3, 1⟩
def DSP_IRQ_STEP_REFUSED (i : Nat) : RF := ⟨DSP_IRQ i, 4, 1⟩
/-- DSP_STEP of 10_task_graphs.md R349. -/
def DSP_STEP (i j : Nat) : Nat := 0x100100 + 0x100000 * (i % 12) + 0x8 * (j % 16)
def DSP_STEP_STEP (i j : Nat) : RF := ⟨DSP_STEP i j, 0, 32⟩
def DSP_STEP_ROWS (i j : Nat) : RF := ⟨DSP_STEP i j, 32, 21⟩
def DSP_STEP_RUNNING (i j : Nat) : RF := ⟨DSP_STEP i j, 53, 1⟩
/-- DSP_ISSUED of 10_task_graphs.md R350. -/
def DSP_ISSUED (i : Nat) : Nat := 0x100200 + 0x100000 * (i % 12)
def DSP_ISSUED_TASKS (i : Nat) : RF := ⟨DSP_ISSUED i, 0, 48⟩
def DSP_ISSUED_PIN_MOVED (i : Nat) : RF := ⟨DSP_ISSUED i, 48, 16⟩
/-- DSP_WAIT of 10_task_graphs.md R350. -/
def DSP_WAIT (i : Nat) : Nat := 0x100208 + 0x100000 * (i % 12)
def DSP_WAIT_QUOTA_WAIT (i : Nat) : RF := ⟨DSP_WAIT i, 0, 32⟩
def DSP_WAIT_SLOT_WAIT (i : Nat) : RF := ⟨DSP_WAIT i, 32, 32⟩
/-- DSP_EVENTS of 10_task_graphs.md R350. -/
def DSP_EVENTS (i : Nat) : Nat := 0x100210 + 0x100000 * (i % 12)
def DSP_EVENTS_INHERITED (i : Nat) : RF := ⟨DSP_EVENTS i, 0, 12⟩
def DSP_EVENTS_EMPTY_SLICE (i : Nat) : RF := ⟨DSP_EVENTS i, 12, 12⟩
def DSP_EVENTS_RING_FULL (i : Nat) : RF := ⟨DSP_EVENTS i, 24, 10⟩
def DSP_EVENTS_STEPS_REFUSED (i : Nat) : RF := ⟨DSP_EVENTS i, 34, 10⟩
def DSP_EVENTS_BAD_BLOCK (i : Nat) : RF := ⟨DSP_EVENTS i, 44, 10⟩
def DSP_EVENTS_CTL_STRAY (i : Nat) : RF := ⟨DSP_EVENTS i, 54, 10⟩
/-- DSP_QUIET of 10_task_graphs.md R350. -/
def DSP_QUIET (i : Nat) : Nat := 0x100218 + 0x100000 * (i % 12)
def DSP_QUIET_RECORDS (i : Nat) : RF := ⟨DSP_QUIET i, 0, 48⟩
/-- LDG_CTRL of 12_guest_ledger.md R408. -/
def LDG_CTRL (i : Nat) : Nat := 0x140000 + 0x100000 * (i % 12)
def LDG_CTRL_HALT (i : Nat) : RF := ⟨LDG_CTRL i, 0, 1⟩
def LDG_CTRL_BUDGET (i : Nat) : RF := ⟨LDG_CTRL i, 1, 1⟩
def LDG_CTRL_PRESSURE (i : Nat) : RF := ⟨LDG_CTRL i, 2, 1⟩
/-- LDG_STATUS of 12_guest_ledger.md R408. -/
def LDG_STATUS (i : Nat) : Nat := 0x140008 + 0x100000 * (i % 12)
def LDG_STATUS_BOUND (i : Nat) : RF := ⟨LDG_STATUS i, 0, 17⟩
def LDG_STATUS_FREE (i : Nat) : RF := ⟨LDG_STATUS i, 17, 17⟩
def LDG_STATUS_RUNNING (i : Nat) : RF := ⟨LDG_STATUS i, 34, 17⟩
/-- LDG_CFG of 12_guest_ledger.md R409. -/
def LDG_CFG (i : Nat) : Nat := 0x140010 + 0x100000 * (i % 12)
def LDG_CFG_QUANTUM (i : Nat) : RF := ⟨LDG_CFG i, 0, 24⟩
def LDG_CFG_RETRY_MAX (i : Nat) : RF := ⟨LDG_CFG i, 24, 4⟩
def LDG_CFG_IRQ_HOST (i : Nat) : RF := ⟨LDG_CFG i, 28, 1⟩
def LDG_CFG_IRQ_CORE (i : Nat) : RF := ⟨LDG_CFG i, 29, 5⟩
/-- LDG_PAUSE_CFG of 12_guest_ledger.md R409. -/
def LDG_PAUSE_CFG (i : Nat) : Nat := 0x140018 + 0x100000 * (i % 12)
def LDG_PAUSE_CFG_PRIO_HI (i : Nat) : RF := ⟨LDG_PAUSE_CFG i, 0, 4⟩
def LDG_PAUSE_CFG_PRIO_LO (i : Nat) : RF := ⟨LDG_PAUSE_CFG i, 4, 4⟩
def LDG_PAUSE_CFG_POOL_LOW (i : Nat) : RF := ⟨LDG_PAUSE_CFG i, 8, 1⟩
def LDG_PAUSE_CFG_WAIT_US (i : Nat) : RF := ⟨LDG_PAUSE_CFG i, 16, 24⟩
def LDG_PAUSE_CFG_SLACK_US (i : Nat) : RF := ⟨LDG_PAUSE_CFG i, 40, 24⟩
/-- LDG_RESUME_CFG of 12_guest_ledger.md R409. -/
def LDG_RESUME_CFG (i : Nat) : Nat := 0x140020 + 0x100000 * (i % 12)
def LDG_RESUME_CFG_RESUME_US (i : Nat) : RF := ⟨LDG_RESUME_CFG i, 0, 24⟩
/-- LDG_BUDGET_BASE of 12_guest_ledger.md R410. -/
def LDG_BUDGET_BASE (i : Nat) : Nat := 0x140028 + 0x100000 * (i % 12)
def LDG_BUDGET_BASE_BASE (i : Nat) : RF := ⟨LDG_BUDGET_BASE i, 0, 64⟩
/-- LDG_BUDGET_DEFAULT of 12_guest_ledger.md R410. -/
def LDG_BUDGET_DEFAULT (i : Nat) : Nat := 0x140030 + 0x100000 * (i % 12)
def LDG_BUDGET_DEFAULT_RATE (i : Nat) : RF := ⟨LDG_BUDGET_DEFAULT i, 0, 32⟩
def LDG_BUDGET_DEFAULT_BURST (i : Nat) : RF := ⟨LDG_BUDGET_DEFAULT i, 32, 32⟩
/-- LDG_BUDGET_START of 12_guest_ledger.md R410. -/
def LDG_BUDGET_START (i : Nat) : Nat := 0x140038 + 0x100000 * (i % 12)
def LDG_BUDGET_START_START (i : Nat) : RF := ⟨LDG_BUDGET_START i, 0, 64⟩
/-- LDG_SQ_BASE of 12_guest_ledger.md R411. -/
def LDG_SQ_BASE (i : Nat) : Nat := 0x140040 + 0x100000 * (i % 12)
def LDG_SQ_BASE_BASE (i : Nat) : RF := ⟨LDG_SQ_BASE i, 0, 64⟩
/-- LDG_SQ_CFG of 12_guest_ledger.md R411. -/
def LDG_SQ_CFG (i : Nat) : Nat := 0x140048 + 0x100000 * (i % 12)
def LDG_SQ_CFG_LOG2 (i : Nat) : RF := ⟨LDG_SQ_CFG i, 0, 5⟩
/-- LDG_SQ_TAIL of 12_guest_ledger.md R411. -/
def LDG_SQ_TAIL (i : Nat) : Nat := 0x140050 + 0x100000 * (i % 12)
def LDG_SQ_TAIL_TAIL (i : Nat) : RF := ⟨LDG_SQ_TAIL i, 0, 32⟩
/-- LDG_SQ_HEAD of 12_guest_ledger.md R411. -/
def LDG_SQ_HEAD (i : Nat) : Nat := 0x140058 + 0x100000 * (i % 12)
def LDG_SQ_HEAD_HEAD (i : Nat) : RF := ⟨LDG_SQ_HEAD i, 0, 32⟩
/-- LDG_RQ_BASE of 12_guest_ledger.md R411. -/
def LDG_RQ_BASE (i : Nat) : Nat := 0x140060 + 0x100000 * (i % 12)
def LDG_RQ_BASE_BASE (i : Nat) : RF := ⟨LDG_RQ_BASE i, 0, 64⟩
/-- LDG_RQ_CFG of 12_guest_ledger.md R411. -/
def LDG_RQ_CFG (i : Nat) : Nat := 0x140068 + 0x100000 * (i % 12)
def LDG_RQ_CFG_LOG2 (i : Nat) : RF := ⟨LDG_RQ_CFG i, 0, 5⟩
/-- LDG_RQ_TAIL of 12_guest_ledger.md R411. -/
def LDG_RQ_TAIL (i : Nat) : Nat := 0x140070 + 0x100000 * (i % 12)
def LDG_RQ_TAIL_TAIL (i : Nat) : RF := ⟨LDG_RQ_TAIL i, 0, 32⟩
/-- LDG_RQ_HEAD of 12_guest_ledger.md R411. -/
def LDG_RQ_HEAD (i : Nat) : Nat := 0x140078 + 0x100000 * (i % 12)
def LDG_RQ_HEAD_HEAD (i : Nat) : RF := ⟨LDG_RQ_HEAD i, 0, 32⟩
/-- LDG_CMD of 12_guest_ledger.md R412. -/
def LDG_CMD (i : Nat) : Nat := 0x140080 + 0x100000 * (i % 12)
def LDG_CMD_OP (i : Nat) : RF := ⟨LDG_CMD i, 0, 2⟩
def LDG_CMD_ENTRY (i : Nat) : RF := ⟨LDG_CMD i, 16, 16⟩
/-- LDG_CMD_RESULT of 12_guest_ledger.md R412. -/
def LDG_CMD_RESULT (i : Nat) : Nat := 0x140088 + 0x100000 * (i % 12)
def LDG_CMD_RESULT_RESULT (i : Nat) : RF := ⟨LDG_CMD_RESULT i, 0, 8⟩
def LDG_CMD_RESULT_BUSY (i : Nat) : RF := ⟨LDG_CMD_RESULT i, 8, 1⟩
def LDG_CMD_RESULT_COUNT (i : Nat) : RF := ⟨LDG_CMD_RESULT i, 32, 32⟩
/-- LDG_ENTRY_DATA of 12_guest_ledger.md R412. -/
def LDG_ENTRY_DATA (i j : Nat) : Nat := 0x140400 + 0x100000 * (i % 12) + 0x8 * (j % 16)
def LDG_ENTRY_DATA_DATA (i j : Nat) : RF := ⟨LDG_ENTRY_DATA i j, 0, 64⟩
/-- LDG_IRQ of 12_guest_ledger.md R413. -/
def LDG_IRQ (i : Nat) : Nat := 0x140090 + 0x100000 * (i % 12)
def LDG_IRQ_RESULT (i : Nat) : RF := ⟨LDG_IRQ i, 0, 1⟩
def LDG_IRQ_HOLDING (i : Nat) : RF := ⟨LDG_IRQ i, 1, 1⟩
def LDG_IRQ_BUDGET (i : Nat) : RF := ⟨LDG_IRQ i, 2, 1⟩
def LDG_IRQ_PRESSURE (i : Nat) : RF := ⟨LDG_IRQ i, 3, 1⟩
def LDG_IRQ_SQ_BAD (i : Nat) : RF := ⟨LDG_IRQ i, 4, 1⟩
/-- LDG_EVENTS of 12_guest_ledger.md R413. -/
def LDG_EVENTS (i : Nat) : Nat := 0x140098 + 0x100000 * (i % 12)
def LDG_EVENTS_PAUSED (i : Nat) : RF := ⟨LDG_EVENTS i, 0, 16⟩
def LDG_EVENTS_LATE (i : Nat) : RF := ⟨LDG_EVENTS i, 16, 16⟩
def LDG_EVENTS_DROPPED (i : Nat) : RF := ⟨LDG_EVENTS i, 32, 16⟩
def LDG_EVENTS_QUOTA_RETRY (i : Nat) : RF := ⟨LDG_EVENTS i, 48, 16⟩
/-- LDG_STEPS of 12_guest_ledger.md R413. -/
def LDG_STEPS (i : Nat) : Nat := 0x1400A0 + 0x100000 * (i % 12)
def LDG_STEPS_FORMED (i : Nat) : RF := ⟨LDG_STEPS i, 0, 32⟩
def LDG_STEPS_RETURNED (i : Nat) : RF := ⟨LDG_STEPS i, 32, 16⟩
def LDG_STEPS_BUDGET_GATED (i : Nat) : RF := ⟨LDG_STEPS i, 48, 16⟩
/-- LDG_QUEUE of 12_guest_ledger.md R414. -/
def LDG_QUEUE (i j : Nat) : Nat := 0x140100 + 0x100000 * (i % 12) + 0x8 * (j % 64)
def LDG_QUEUE_WEIGHT (i j : Nat) : RF := ⟨LDG_QUEUE i j, 0, 8⟩
def LDG_QUEUE_QUEUED (i j : Nat) : RF := ⟨LDG_QUEUE i j, 8, 17⟩
def LDG_QUEUE_ADMITTED (i j : Nat) : RF := ⟨LDG_QUEUE i j, 25, 17⟩
/-- LDG_GRAPH_ADAPT of 12_guest_ledger.md R414. -/
def LDG_GRAPH_ADAPT (i j : Nat) : Nat := 0x140300 + 0x100000 * (i % 12) + 0x10 * (j % 16)
def LDG_GRAPH_ADAPT_ADDR (i j : Nat) : RF := ⟨LDG_GRAPH_ADAPT i j, 0, 64⟩
/-- LDG_GRAPH_VERIFY of 12_guest_ledger.md R414. -/
def LDG_GRAPH_VERIFY (i j : Nat) : Nat := 0x140308 + 0x100000 * (i % 12) + 0x10 * (j % 16)
def LDG_GRAPH_VERIFY_ADDR (i j : Nat) : RF := ⟨LDG_GRAPH_VERIFY i j, 0, 64⟩
/-- LDG_PAGE_POOL of 08_kv_pages.md R285. -/
def LDG_PAGE_POOL (i : Nat) : Nat := 0x17F000 + 0x100000 * (i % 12)
def LDG_PAGE_POOL_BOUND (i : Nat) : RF := ⟨LDG_PAGE_POOL i, 0, 25⟩
def LDG_PAGE_POOL_FREE (i : Nat) : RF := ⟨LDG_PAGE_POOL i, 25, 25⟩
/-- LDG_PAGE_USE of 08_kv_pages.md R285. -/
def LDG_PAGE_USE (i : Nat) : Nat := 0x17F008 + 0x100000 * (i % 12)
def LDG_PAGE_USE_HELD (i : Nat) : RF := ⟨LDG_PAGE_USE i, 0, 25⟩
def LDG_PAGE_USE_RECLAIM (i : Nat) : RF := ⟨LDG_PAGE_USE i, 25, 25⟩
/-- LDG_PAGE_LOW of 08_kv_pages.md R286. -/
def LDG_PAGE_LOW (i : Nat) : Nat := 0x17F010 + 0x100000 * (i % 12)
def LDG_PAGE_LOW_THRESHOLD (i : Nat) : RF := ⟨LDG_PAGE_LOW i, 0, 25⟩
def LDG_PAGE_LOW_LOW (i : Nat) : RF := ⟨LDG_PAGE_LOW i, 25, 1⟩
/-- LDG_PAGE_CMD of 08_kv_pages.md R287. -/
def LDG_PAGE_CMD (i : Nat) : Nat := 0x17F018 + 0x100000 * (i % 12)
def LDG_PAGE_CMD_OP (i : Nat) : RF := ⟨LDG_PAGE_CMD i, 0, 3⟩
def LDG_PAGE_CMD_PAGE (i : Nat) : RF := ⟨LDG_PAGE_CMD i, 8, 24⟩
/-- LDG_PAGE_RESULT of 08_kv_pages.md R288. -/
def LDG_PAGE_RESULT (i : Nat) : Nat := 0x17F020 + 0x100000 * (i % 12)
def LDG_PAGE_RESULT_RESULT (i : Nat) : RF := ⟨LDG_PAGE_RESULT i, 0, 8⟩
def LDG_PAGE_RESULT_COUNT (i : Nat) : RF := ⟨LDG_PAGE_RESULT i, 32, 32⟩
/-- LDG_PAGE_ENTRY_0 of 08_kv_pages.md R289. -/
def LDG_PAGE_ENTRY_0 (i : Nat) : Nat := 0x17F028 + 0x100000 * (i % 12)
def LDG_PAGE_ENTRY_0_WORD0 (i : Nat) : RF := ⟨LDG_PAGE_ENTRY_0 i, 0, 64⟩
/-- LDG_PAGE_ENTRY_1 of 08_kv_pages.md R289. -/
def LDG_PAGE_ENTRY_1 (i : Nat) : Nat := 0x17F030 + 0x100000 * (i % 12)
def LDG_PAGE_ENTRY_1_WORD1 (i : Nat) : RF := ⟨LDG_PAGE_ENTRY_1 i, 0, 64⟩
/-- CHN_CMD of 11_channels.md R370. -/
def CHN_CMD (i : Nat) : Nat := 0x180000 + 0x100000 * (i % 12)
def CHN_CMD_OP (i : Nat) : RF := ⟨CHN_CMD i, 0, 4⟩
def CHN_CMD_HANDLE (i : Nat) : RF := ⟨CHN_CMD i, 16, 12⟩
def CHN_CMD_CHURN (i : Nat) : RF := ⟨CHN_CMD i, 28, 1⟩
/-- CHN_CMD_ADDR of 11_channels.md R370. -/
def CHN_CMD_ADDR (i : Nat) : Nat := 0x180008 + 0x100000 * (i % 12)
def CHN_CMD_ADDR_ADDR (i : Nat) : RF := ⟨CHN_CMD_ADDR i, 0, 64⟩
/-- CHN_CMD_RESULT of 11_channels.md R370. -/
def CHN_CMD_RESULT (i : Nat) : Nat := 0x180010 + 0x100000 * (i % 12)
def CHN_CMD_RESULT_RESULT (i : Nat) : RF := ⟨CHN_CMD_RESULT i, 0, 8⟩
def CHN_CMD_RESULT_BUSY (i : Nat) : RF := ⟨CHN_CMD_RESULT i, 8, 1⟩
def CHN_CMD_RESULT_HANDLE (i : Nat) : RF := ⟨CHN_CMD_RESULT i, 16, 12⟩
def CHN_CMD_RESULT_COUNT (i : Nat) : RF := ⟨CHN_CMD_RESULT i, 32, 32⟩
/-- CHN_PORT_SEND_ADDR of 11_channels.md R371. -/
def CHN_PORT_SEND_ADDR (i j : Nat) : Nat := 0x181000 + 0x100000 * (i % 12) + 0x40 * (j % 33)
def CHN_PORT_SEND_ADDR_ADDR (i j : Nat) : RF := ⟨CHN_PORT_SEND_ADDR i j, 0, 64⟩
/-- CHN_PORT_SEND of 11_channels.md R371. -/
def CHN_PORT_SEND (i j : Nat) : Nat := 0x181008 + 0x100000 * (i % 12) + 0x40 * (j % 33)
def CHN_PORT_SEND_OP (i j : Nat) : RF := ⟨CHN_PORT_SEND i j, 0, 2⟩
def CHN_PORT_SEND_NOTIFY (i j : Nat) : RF := ⟨CHN_PORT_SEND i j, 2, 1⟩
def CHN_PORT_SEND_UNITS (i j : Nat) : RF := ⟨CHN_PORT_SEND i j, 3, 4⟩
def CHN_PORT_SEND_DEST (i j : Nat) : RF := ⟨CHN_PORT_SEND i j, 8, 12⟩
def CHN_PORT_SEND_OFFSET (i j : Nat) : RF := ⟨CHN_PORT_SEND i j, 32, 32⟩
/-- CHN_PORT_SEND_STATUS of 11_channels.md R371. -/
def CHN_PORT_SEND_STATUS (i j : Nat) : Nat := 0x181010 + 0x100000 * (i % 12) + 0x40 * (j % 34)
def CHN_PORT_SEND_STATUS_QUEUED (i j : Nat) : RF := ⟨CHN_PORT_SEND_STATUS i j, 0, 4⟩
def CHN_PORT_SEND_STATUS_WAITING (i j : Nat) : RF := ⟨CHN_PORT_SEND_STATUS i j, 4, 1⟩
def CHN_PORT_SEND_STATUS_OVERRUN (i j : Nat) : RF := ⟨CHN_PORT_SEND_STATUS i j, 5, 1⟩
def CHN_PORT_SEND_STATUS_RESULT (i j : Nat) : RF := ⟨CHN_PORT_SEND_STATUS i j, 8, 8⟩
def CHN_PORT_SEND_STATUS_COMPLETED (i j : Nat) : RF := ⟨CHN_PORT_SEND_STATUS i j, 32, 32⟩
/-- CHN_PORT_SPILL_BASE of 11_channels.md R371. -/
def CHN_PORT_SPILL_BASE (i j : Nat) : Nat := 0x181018 + 0x100000 * (i % 12) + 0x40 * (j % 34)
def CHN_PORT_SPILL_BASE_BASE (i j : Nat) : RF := ⟨CHN_PORT_SPILL_BASE i j, 0, 64⟩
/-- CHN_PORT_SPILL_CFG of 11_channels.md R371. -/
def CHN_PORT_SPILL_CFG (i j : Nat) : Nat := 0x181020 + 0x100000 * (i % 12) + 0x40 * (j % 34)
def CHN_PORT_SPILL_CFG_LOG2 (i j : Nat) : RF := ⟨CHN_PORT_SPILL_CFG i j, 0, 5⟩
/-- CHN_PORT_SPILL_PTR of 11_channels.md R371. -/
def CHN_PORT_SPILL_PTR (i j : Nat) : Nat := 0x181028 + 0x100000 * (i % 12) + 0x40 * (j % 34)
def CHN_PORT_SPILL_PTR_TAIL (i j : Nat) : RF := ⟨CHN_PORT_SPILL_PTR i j, 0, 32⟩
def CHN_PORT_SPILL_PTR_HEAD (i j : Nat) : RF := ⟨CHN_PORT_SPILL_PTR i j, 32, 32⟩
/-- CHN_SEL_CFG of 11_channels.md R372. -/
def CHN_SEL_CFG (i j : Nat) : Nat := 0x182000 + 0x100000 * (i % 12) + 0x20 * (j % 64)
def CHN_SEL_CFG_MODE (i j : Nat) : RF := ⟨CHN_SEL_CFG i j, 0, 1⟩
def CHN_SEL_CFG_IRQ_EN (i j : Nat) : RF := ⟨CHN_SEL_CFG i j, 1, 1⟩
def CHN_SEL_CFG_OWNER (i j : Nat) : RF := ⟨CHN_SEL_CFG i j, 8, 8⟩
def CHN_SEL_CFG_MEMBERS (i j : Nat) : RF := ⟨CHN_SEL_CFG i j, 16, 5⟩
/-- CHN_SEL_NEXT of 11_channels.md R372. -/
def CHN_SEL_NEXT (i j : Nat) : Nat := 0x182008 + 0x100000 * (i % 12) + 0x20 * (j % 64)
def CHN_SEL_NEXT_VALID (i j : Nat) : RF := ⟨CHN_SEL_NEXT i j, 0, 1⟩
def CHN_SEL_NEXT_SPILL (i j : Nat) : RF := ⟨CHN_SEL_NEXT i j, 1, 1⟩
def CHN_SEL_NEXT_UNITS (i j : Nat) : RF := ⟨CHN_SEL_NEXT i j, 2, 4⟩
def CHN_SEL_NEXT_EP (i j : Nat) : RF := ⟨CHN_SEL_NEXT i j, 16, 12⟩
def CHN_SEL_NEXT_SEQ (i j : Nat) : RF := ⟨CHN_SEL_NEXT i j, 32, 16⟩
def CHN_SEL_NEXT_SRC (i j : Nat) : RF := ⟨CHN_SEL_NEXT i j, 48, 16⟩
/-- CHN_SEL_NEXT_ADDR of 11_channels.md R372. -/
def CHN_SEL_NEXT_ADDR (i j : Nat) : Nat := 0x182010 + 0x100000 * (i % 12) + 0x20 * (j % 64)
def CHN_SEL_NEXT_ADDR_ADDR (i j : Nat) : RF := ⟨CHN_SEL_NEXT_ADDR i j, 0, 64⟩
/-- CHN_SEL_DONE of 11_channels.md R372. -/
def CHN_SEL_DONE (i j : Nat) : Nat := 0x182018 + 0x100000 * (i % 12) + 0x20 * (j % 64)
def CHN_SEL_DONE_EP (i j : Nat) : RF := ⟨CHN_SEL_DONE i j, 0, 12⟩
def CHN_SEL_DONE_SPILL (i j : Nat) : RF := ⟨CHN_SEL_DONE i j, 12, 1⟩
/-- CHN_EP_SEL of 11_channels.md R373. -/
def CHN_EP_SEL (i : Nat) : Nat := 0x183000 + 0x100000 * (i % 12)
def CHN_EP_SEL_HANDLE (i : Nat) : RF := ⟨CHN_EP_SEL i, 0, 12⟩
/-- CHN_EP_STATE of 11_channels.md R373. -/
def CHN_EP_STATE (i : Nat) : Nat := 0x183008 + 0x100000 * (i % 12)
def CHN_EP_STATE_STATE (i : Nat) : RF := ⟨CHN_EP_STATE i, 0, 2⟩
def CHN_EP_STATE_GROUP (i : Nat) : RF := ⟨CHN_EP_STATE i, 8, 8⟩
def CHN_EP_STATE_PENDING (i : Nat) : RF := ⟨CHN_EP_STATE i, 16, 16⟩
def CHN_EP_STATE_SPILLED (i : Nat) : RF := ⟨CHN_EP_STATE i, 32, 16⟩
/-- CHN_EP_RING of 11_channels.md R373. -/
def CHN_EP_RING (i : Nat) : Nat := 0x183010 + 0x100000 * (i % 12)
def CHN_EP_RING_TAIL (i : Nat) : RF := ⟨CHN_EP_RING i, 0, 32⟩
def CHN_EP_RING_HEAD (i : Nat) : RF := ⟨CHN_EP_RING i, 32, 32⟩
/-- CHN_CHURN_SEL of 11_channels.md R373. -/
def CHN_CHURN_SEL (i : Nat) : Nat := 0x183020 + 0x100000 * (i % 12)
def CHN_CHURN_SEL_QUEUE (i : Nat) : RF := ⟨CHN_CHURN_SEL i, 0, 8⟩
/-- CHN_CHURN_STATE of 11_channels.md R373. -/
def CHN_CHURN_STATE (i : Nat) : Nat := 0x183028 + 0x100000 * (i % 12)
def CHN_CHURN_STATE_OPEN (i : Nat) : RF := ⟨CHN_CHURN_STATE i, 0, 1⟩
def CHN_CHURN_STATE_NOTICE_WAIT (i : Nat) : RF := ⟨CHN_CHURN_STATE i, 1, 1⟩
def CHN_CHURN_STATE_RECEIVED (i : Nat) : RF := ⟨CHN_CHURN_STATE i, 3, 13⟩
def CHN_CHURN_STATE_ROUND (i : Nat) : RF := ⟨CHN_CHURN_STATE i, 16, 32⟩
/-- CHN_EVENTS of 11_channels.md R374. -/
def CHN_EVENTS (i : Nat) : Nat := 0x183100 + 0x100000 * (i % 12)
def CHN_EVENTS_SPILLED (i : Nat) : RF := ⟨CHN_EVENTS i, 0, 16⟩
def CHN_EVENTS_SPILL_FULL (i : Nat) : RF := ⟨CHN_EVENTS i, 16, 16⟩
def CHN_EVENTS_SKIPS (i : Nat) : RF := ⟨CHN_EVENTS i, 32, 16⟩
def CHN_EVENTS_DISCARDED (i : Nat) : RF := ⟨CHN_EVENTS i, 48, 16⟩
/-- CHN_WAIT of 11_channels.md R374. -/
def CHN_WAIT (i : Nat) : Nat := 0x183108 + 0x100000 * (i % 12)
def CHN_WAIT_CREDIT_WAIT (i : Nat) : RF := ⟨CHN_WAIT i, 0, 32⟩
def CHN_WAIT_CHURN_ROUNDS (i : Nat) : RF := ⟨CHN_WAIT i, 32, 32⟩
/-- CHN_IRQ_GROUP of 11_channels.md R374. -/
def CHN_IRQ_GROUP (i : Nat) : Nat := 0x183110 + 0x100000 * (i % 12)
def CHN_IRQ_GROUP_GROUP (i : Nat) : RF := ⟨CHN_IRQ_GROUP i, 0, 64⟩
/-- CHN_IRQ_SPILL of 11_channels.md R374. -/
def CHN_IRQ_SPILL (i : Nat) : Nat := 0x183118 + 0x100000 * (i % 12)
def CHN_IRQ_SPILL_SPILL (i : Nat) : RF := ⟨CHN_IRQ_SPILL i, 0, 64⟩
/-- ADP_AREA of 12_guest_ledger.md R415. -/
def ADP_AREA (i : Nat) : Nat := 0x1C0000 + 0x100000 * (i % 12)
def ADP_AREA_BASE (i : Nat) : RF := ⟨ADP_AREA i, 0, 64⟩
/-- ADP_CMD of 12_guest_ledger.md R415. -/
def ADP_CMD (i : Nat) : Nat := 0x1C0008 + 0x100000 * (i % 12)
def ADP_CMD_OP (i : Nat) : RF := ⟨ADP_CMD i, 0, 3⟩
def ADP_CMD_SLOT (i : Nat) : RF := ⟨ADP_CMD i, 16, 12⟩
def ADP_CMD_CUSTOMER (i : Nat) : RF := ⟨ADP_CMD i, 32, 16⟩
/-- ADP_CMD_ADDR of 12_guest_ledger.md R415. -/
def ADP_CMD_ADDR (i : Nat) : Nat := 0x1C0010 + 0x100000 * (i % 12)
def ADP_CMD_ADDR_ADDR (i : Nat) : RF := ⟨ADP_CMD_ADDR i, 0, 64⟩
/-- ADP_CMD_RESULT of 12_guest_ledger.md R415. -/
def ADP_CMD_RESULT (i : Nat) : Nat := 0x1C0018 + 0x100000 * (i % 12)
def ADP_CMD_RESULT_RESULT (i : Nat) : RF := ⟨ADP_CMD_RESULT i, 0, 8⟩
def ADP_CMD_RESULT_BUSY (i : Nat) : RF := ⟨ADP_CMD_RESULT i, 8, 1⟩
def ADP_CMD_RESULT_GEN (i : Nat) : RF := ⟨ADP_CMD_RESULT i, 16, 16⟩
def ADP_CMD_RESULT_COUNT (i : Nat) : RF := ⟨ADP_CMD_RESULT i, 32, 32⟩
/-- ADP_SLOT_SEL of 12_guest_ledger.md R416. -/
def ADP_SLOT_SEL (i : Nat) : Nat := 0x1C0020 + 0x100000 * (i % 12)
def ADP_SLOT_SEL_SLOT (i : Nat) : RF := ⟨ADP_SLOT_SEL i, 0, 12⟩
/-- ADP_SLOT_STATE of 12_guest_ledger.md R416. -/
def ADP_SLOT_STATE (i : Nat) : Nat := 0x1C0028 + 0x100000 * (i % 12)
def ADP_SLOT_STATE_BOUND (i : Nat) : RF := ⟨ADP_SLOT_STATE i, 0, 1⟩
def ADP_SLOT_STATE_CUSTOMER (i : Nat) : RF := ⟨ADP_SLOT_STATE i, 16, 16⟩
def ADP_SLOT_STATE_CUR (i : Nat) : RF := ⟨ADP_SLOT_STATE i, 32, 16⟩
/-- ADP_SLOT_COUNT of 12_guest_ledger.md R416. -/
def ADP_SLOT_COUNT (i : Nat) : Nat := 0x1C0030 + 0x100000 * (i % 12)
def ADP_SLOT_COUNT_CUR_BOUND (i : Nat) : RF := ⟨ADP_SLOT_COUNT i, 0, 32⟩
def ADP_SLOT_COUNT_PREV_BOUND (i : Nat) : RF := ⟨ADP_SLOT_COUNT i, 32, 32⟩
/-- CORE_STATUS of 05_core_streaming.md R179. -/
def CORE_STATUS (i : Nat) : Nat := 0x1000000 + 0x1000 * (i % 272)
def CORE_STATUS_POWER (i : Nat) : RF := ⟨CORE_STATUS i, 0, 3⟩
def CORE_STATUS_EXEC (i : Nat) : RF := ⟨CORE_STATUS i, 3, 1⟩
def CORE_STATUS_STAGED (i : Nat) : RF := ⟨CORE_STATUS i, 4, 1⟩
def CORE_STATUS_DRAINING (i : Nat) : RF := ⟨CORE_STATUS i, 5, 1⟩
def CORE_STATUS_PART (i : Nat) : RF := ⟨CORE_STATUS i, 6, 4⟩
/-- CORE_SLOT of 05_core_streaming.md R180. -/
def CORE_SLOT (i j : Nat) : Nat := 0x1000008 + 0x1000 * (i % 272) + 0x8 * (j % 3)
def CORE_SLOT_SEQ (i j : Nat) : RF := ⟨CORE_SLOT i j, 0, 32⟩
def CORE_SLOT_PART (i j : Nat) : RF := ⟨CORE_SLOT i j, 32, 4⟩
def CORE_SLOT_STAGE (i j : Nat) : RF := ⟨CORE_SLOT i j, 36, 3⟩
def CORE_SLOT_VALID (i j : Nat) : RF := ⟨CORE_SLOT i j, 39, 1⟩
/-- CORE_EVENTS of 05_core_streaming.md R181. -/
def CORE_EVENTS (i : Nat) : Nat := 0x1000030 + 0x1000 * (i % 272)
def CORE_EVENTS_WITHDRAWN (i : Nat) : RF := ⟨CORE_EVENTS i, 0, 16⟩
def CORE_EVENTS_APPEND_FAIL (i : Nat) : RF := ⟨CORE_EVENTS i, 16, 16⟩
def CORE_EVENTS_PLAN_STREAM2 (i : Nat) : RF := ⟨CORE_EVENTS i, 32, 16⟩
/-- CORE_DMA of 05_core_streaming.md R182. -/
def CORE_DMA (i j : Nat) : Nat := 0x1000100 + 0x1000 * (i % 272) + 0x8 * (j % 2)
def CORE_DMA_BYTES (i j : Nat) : RF := ⟨CORE_DMA i j, 0, 48⟩
/-- CORE_DMA_XPOSE of 05_core_streaming.md R183. -/
def CORE_DMA_XPOSE (i : Nat) : Nat := 0x1000110 + 0x1000 * (i % 272)
def CORE_DMA_XPOSE_BLOCKS (i : Nat) : RF := ⟨CORE_DMA_XPOSE i, 0, 32⟩
def CORE_DMA_XPOSE_POISON (i : Nat) : RF := ⟨CORE_DMA_XPOSE i, 32, 16⟩
/-- CORE_DMA_SPARSE of 06_skimmer.md R219. -/
def CORE_DMA_SPARSE (i : Nat) : Nat := 0x1000118 + 0x1000 * (i % 272)
def CORE_DMA_SPARSE_TILES (i : Nat) : RF := ⟨CORE_DMA_SPARSE i, 0, 32⟩
def CORE_DMA_SPARSE_RANGE_TILES (i : Nat) : RF := ⟨CORE_DMA_SPARSE i, 32, 16⟩
/-- CORE_SEM_LINK_0 of 05_core_streaming.md R184. -/
def CORE_SEM_LINK_0 (i : Nat) : Nat := 0x1000200 + 0x1000 * (i % 272)
def CORE_SEM_LINK_0_FULL (i : Nat) : RF := ⟨CORE_SEM_LINK_0 i, 0, 4⟩
def CORE_SEM_LINK_0_EMPTY (i : Nat) : RF := ⟨CORE_SEM_LINK_0 i, 4, 4⟩
def CORE_SEM_LINK_0_DEPTH (i : Nat) : RF := ⟨CORE_SEM_LINK_0 i, 8, 4⟩
/-- CORE_SEM_LINK_1 of 05_core_streaming.md R184. -/
def CORE_SEM_LINK_1 (i : Nat) : Nat := 0x1000208 + 0x1000 * (i % 272)
def CORE_SEM_LINK_1_FULL (i : Nat) : RF := ⟨CORE_SEM_LINK_1 i, 0, 4⟩
def CORE_SEM_LINK_1_EMPTY (i : Nat) : RF := ⟨CORE_SEM_LINK_1 i, 4, 4⟩
def CORE_SEM_LINK_1_DEPTH (i : Nat) : RF := ⟨CORE_SEM_LINK_1 i, 8, 4⟩
/-- CORE_SEM_LINK_2 of 05_core_streaming.md R184. -/
def CORE_SEM_LINK_2 (i : Nat) : Nat := 0x1000210 + 0x1000 * (i % 272)
def CORE_SEM_LINK_2_FULL (i : Nat) : RF := ⟨CORE_SEM_LINK_2 i, 0, 4⟩
def CORE_SEM_LINK_2_EMPTY (i : Nat) : RF := ⟨CORE_SEM_LINK_2 i, 4, 4⟩
def CORE_SEM_LINK_2_DEPTH (i : Nat) : RF := ⟨CORE_SEM_LINK_2 i, 8, 4⟩
/-- CORE_SEM_LINK_3 of 05_core_streaming.md R184. -/
def CORE_SEM_LINK_3 (i : Nat) : Nat := 0x1000218 + 0x1000 * (i % 272)
def CORE_SEM_LINK_3_FULL (i : Nat) : RF := ⟨CORE_SEM_LINK_3 i, 0, 4⟩
def CORE_SEM_LINK_3_EMPTY (i : Nat) : RF := ⟨CORE_SEM_LINK_3 i, 4, 4⟩
def CORE_SEM_LINK_3_DEPTH (i : Nat) : RF := ⟨CORE_SEM_LINK_3 i, 8, 4⟩
/-- CORE_SEM_LINK_4 of 05_core_streaming.md R184. -/
def CORE_SEM_LINK_4 (i : Nat) : Nat := 0x1000220 + 0x1000 * (i % 272)
def CORE_SEM_LINK_4_FULL (i : Nat) : RF := ⟨CORE_SEM_LINK_4 i, 0, 4⟩
def CORE_SEM_LINK_4_EMPTY (i : Nat) : RF := ⟨CORE_SEM_LINK_4 i, 4, 4⟩
def CORE_SEM_LINK_4_DEPTH (i : Nat) : RF := ⟨CORE_SEM_LINK_4 i, 8, 4⟩
/-- CORE_SEM_LINK_5 of 05_core_streaming.md R184. -/
def CORE_SEM_LINK_5 (i : Nat) : Nat := 0x1000228 + 0x1000 * (i % 272)
def CORE_SEM_LINK_5_FULL (i : Nat) : RF := ⟨CORE_SEM_LINK_5 i, 0, 4⟩
def CORE_SEM_LINK_5_EMPTY (i : Nat) : RF := ⟨CORE_SEM_LINK_5 i, 4, 4⟩
def CORE_SEM_LINK_5_DEPTH (i : Nat) : RF := ⟨CORE_SEM_LINK_5 i, 8, 4⟩
/-- CORE_SEM_WAIT of 05_core_streaming.md R185. -/
def CORE_SEM_WAIT (i j : Nat) : Nat := 0x1000240 + 0x1000 * (i % 272) + 0x8 * (j % 6)
def CORE_SEM_WAIT_PROD_WAIT (i j : Nat) : RF := ⟨CORE_SEM_WAIT i j, 0, 32⟩
def CORE_SEM_WAIT_CONS_WAIT (i j : Nat) : RF := ⟨CORE_SEM_WAIT i j, 32, 32⟩
/-- CORE_VEC_BUSY of 05_core_streaming.md R186. -/
def CORE_VEC_BUSY (i : Nat) : Nat := 0x1000300 + 0x1000 * (i % 272)
def CORE_VEC_BUSY_BUSY (i : Nat) : RF := ⟨CORE_VEC_BUSY i, 0, 48⟩
/-- CORE_VEC_EXPAND of 05_core_streaming.md R186. -/
def CORE_VEC_EXPAND (i : Nat) : Nat := 0x1000308 + 0x1000 * (i % 272)
def CORE_VEC_EXPAND_EXPAND (i : Nat) : RF := ⟨CORE_VEC_EXPAND i, 0, 48⟩
/-- CORE_TLB_STATS of 05_core_streaming.md R187. -/
def CORE_TLB_STATS (i : Nat) : Nat := 0x1000320 + 0x1000 * (i % 272)
def CORE_TLB_STATS_HITS (i : Nat) : RF := ⟨CORE_TLB_STATS i, 0, 32⟩
def CORE_TLB_STATS_MISSES (i : Nat) : RF := ⟨CORE_TLB_STATS i, 32, 32⟩
/-- CORE_TLB_WALK of 05_core_streaming.md R187. -/
def CORE_TLB_WALK (i : Nat) : Nat := 0x1000328 + 0x1000 * (i % 272)
def CORE_TLB_WALK_WAIT (i : Nat) : RF := ⟨CORE_TLB_WALK i, 0, 48⟩
/-- CORE_ARR_REPAIR of 04_tensor_arrays.md R144. -/
def CORE_ARR_REPAIR (i j : Nat) : Nat := 0x1000400 + 0x1000 * (i % 272) + 0x8 * (j % 4)
def CORE_ARR_REPAIR_ROW_SKIP_A (i j : Nat) : RF := ⟨CORE_ARR_REPAIR i j, 0, 6⟩
def CORE_ARR_REPAIR_ROW_SKIP_B (i j : Nat) : RF := ⟨CORE_ARR_REPAIR i j, 6, 6⟩
def CORE_ARR_REPAIR_COL_SKIP_A (i j : Nat) : RF := ⟨CORE_ARR_REPAIR i j, 12, 6⟩
def CORE_ARR_REPAIR_COL_SKIP_B (i j : Nat) : RF := ⟨CORE_ARR_REPAIR i j, 18, 6⟩
def CORE_ARR_REPAIR_BIST_PASS (i j : Nat) : RF := ⟨CORE_ARR_REPAIR i j, 24, 1⟩
def CORE_ARR_REPAIR_UNUSABLE (i j : Nat) : RF := ⟨CORE_ARR_REPAIR i j, 25, 1⟩
def CORE_ARR_REPAIR_PENDING (i j : Nat) : RF := ⟨CORE_ARR_REPAIR i j, 32, 1⟩
/-- CORE_ARR_STATE of 04_tensor_arrays.md R145. -/
def CORE_ARR_STATE (i : Nat) : Nat := 0x1000420 + 0x1000 * (i % 272)
def CORE_ARR_STATE_DATAFLOW (i : Nat) : RF := ⟨CORE_ARR_STATE i, 0, 2⟩
def CORE_ARR_STATE_QUAD (i : Nat) : RF := ⟨CORE_ARR_STATE i, 2, 1⟩
def CORE_ARR_STATE_KPARTS (i : Nat) : RF := ⟨CORE_ARR_STATE i, 3, 2⟩
def CORE_ARR_STATE_ACTIVE (i : Nat) : RF := ⟨CORE_ARR_STATE i, 5, 4⟩
def CORE_ARR_STATE_LEVEL (i : Nat) : RF := ⟨CORE_ARR_STATE i, 9, 12⟩
def CORE_ARR_STATE_HELD (i : Nat) : RF := ⟨CORE_ARR_STATE i, 21, 1⟩
/-- CORE_ARR_BUSY of 04_tensor_arrays.md R146. -/
def CORE_ARR_BUSY (i j : Nat) : Nat := 0x1000440 + 0x1000 * (i % 272) + 0x8 * (j % 4)
def CORE_ARR_BUSY_BUSY (i j : Nat) : RF := ⟨CORE_ARR_BUSY i j, 0, 48⟩
/-- CORE_ARR_STALL of 04_tensor_arrays.md R147. -/
def CORE_ARR_STALL (i j : Nat) : Nat := 0x1000460 + 0x1000 * (i % 272) + 0x8 * (j % 4)
def CORE_ARR_STALL_FEED_STALL (i j : Nat) : RF := ⟨CORE_ARR_STALL i j, 0, 32⟩
def CORE_ARR_STALL_DRAIN_STALL (i j : Nat) : RF := ⟨CORE_ARR_STALL i j, 32, 32⟩
/-- CORE_ARR_RAMP of 04_tensor_arrays.md R148. -/
def CORE_ARR_RAMP (i : Nat) : Nat := 0x1000480 + 0x1000 * (i % 272)
def CORE_ARR_RAMP_RAMP_UPS (i : Nat) : RF := ⟨CORE_ARR_RAMP i, 0, 32⟩
def CORE_ARR_RAMP_RAMP_DOWNS (i : Nat) : RF := ⟨CORE_ARR_RAMP i, 32, 32⟩
/-- CORE_ARR_WS of 04_tensor_arrays.md R149. -/
def CORE_ARR_WS (i : Nat) : Nat := 0x1000488 + 0x1000 * (i % 272)
def CORE_ARR_WS_WS_PASSES (i : Nat) : RF := ⟨CORE_ARR_WS i, 0, 32⟩
def CORE_ARR_WS_WS_BUBBLE (i : Nat) : RF := ⟨CORE_ARR_WS i, 32, 32⟩
/-- CORE_ARR_ERRORS of 04_tensor_arrays.md R150. -/
def CORE_ARR_ERRORS (i : Nat) : Nat := 0x1000490 + 0x1000 * (i % 272)
def CORE_ARR_ERRORS_ACC_PARITY (i : Nat) : RF := ⟨CORE_ARR_ERRORS i, 0, 16⟩
def CORE_ARR_ERRORS_SWITCHES (i : Nat) : RF := ⟨CORE_ARR_ERRORS i, 16, 16⟩
/-- CORE_WFETCH of 05_core_streaming.md R188. -/
def CORE_WFETCH (i : Nat) : Nat := 0x1000500 + 0x1000 * (i % 272)
def CORE_WFETCH_HITS (i : Nat) : RF := ⟨CORE_WFETCH i, 0, 32⟩
def CORE_WFETCH_MISSES (i : Nat) : RF := ⟨CORE_WFETCH i, 32, 32⟩
/-- CORE_MCAST of 05_core_streaming.md R188. -/
def CORE_MCAST (i : Nat) : Nat := 0x1000508 + 0x1000 * (i % 272)
def CORE_MCAST_BLOCKS (i : Nat) : RF := ⟨CORE_MCAST i, 0, 32⟩
def CORE_MCAST_LATE_JOIN (i : Nat) : RF := ⟨CORE_MCAST i, 32, 16⟩
def CORE_MCAST_REFETCH (i : Nat) : RF := ⟨CORE_MCAST i, 48, 16⟩
/-- CORE_ATTN_BLOCKS of 07_attention.md R249. -/
def CORE_ATTN_BLOCKS (i : Nat) : Nat := 0x1000600 + 0x1000 * (i % 272)
def CORE_ATTN_BLOCKS_VISITS (i : Nat) : RF := ⟨CORE_ATTN_BLOCKS i, 0, 48⟩
/-- CORE_ATTN_MASK of 07_attention.md R250. -/
def CORE_ATTN_MASK (i : Nat) : Nat := 0x1000608 + 0x1000 * (i % 272)
def CORE_ATTN_MASK_SKIPPED (i : Nat) : RF := ⟨CORE_ATTN_MASK i, 0, 32⟩
def CORE_ATTN_MASK_EMPTY_ROWS (i : Nat) : RF := ⟨CORE_ATTN_MASK i, 32, 32⟩
/-- CORE_ATTN_WIDEN of 07_attention.md R251. -/
def CORE_ATTN_WIDEN (i : Nat) : Nat := 0x1000610 + 0x1000 * (i % 272)
def CORE_ATTN_WIDEN_WIDENED (i : Nat) : RF := ⟨CORE_ATTN_WIDEN i, 0, 32⟩
def CORE_ATTN_WIDEN_WIDEN_INEXACT (i : Nat) : RF := ⟨CORE_ATTN_WIDEN i, 32, 32⟩
/-- CORE_ATTN_EVENTS of 07_attention.md R252. -/
def CORE_ATTN_EVENTS (i : Nat) : Nat := 0x1000618 + 0x1000 * (i % 272)
def CORE_ATTN_EVENTS_MISMATCH (i : Nat) : RF := ⟨CORE_ATTN_EVENTS i, 0, 16⟩
def CORE_ATTN_EVENTS_PIN_MOVED (i : Nat) : RF := ⟨CORE_ATTN_EVENTS i, 16, 16⟩
def CORE_ATTN_EVENTS_GRAD_DROPPED (i : Nat) : RF := ⟨CORE_ATTN_EVENTS i, 32, 16⟩
def CORE_ATTN_EVENTS_RESCALES (i : Nat) : RF := ⟨CORE_ATTN_EVENTS i, 48, 16⟩
/-- CORE_ATTN_EVICT of 07_attention.md R253. -/
def CORE_ATTN_EVICT (i : Nat) : Nat := 0x1000620 + 0x1000 * (i % 272)
def CORE_ATTN_EVICT_EVICTED (i : Nat) : RF := ⟨CORE_ATTN_EVICT i, 0, 32⟩
def CORE_ATTN_EVICT_EVICT_NONE (i : Nat) : RF := ⟨CORE_ATTN_EVICT i, 32, 32⟩
/-- CORE_ATTN_VERIFY of 07_attention.md R254. -/
def CORE_ATTN_VERIFY (i : Nat) : Nat := 0x1000628 + 0x1000 * (i % 272)
def CORE_ATTN_VERIFY_DRAFTED (i : Nat) : RF := ⟨CORE_ATTN_VERIFY i, 0, 32⟩
def CORE_ATTN_VERIFY_ACCEPTED (i : Nat) : RF := ⟨CORE_ATTN_VERIFY i, 32, 32⟩
/-- CORE_SRAM_ECC of 09_memory.md R316. -/
def CORE_SRAM_ECC (i : Nat) : Nat := 0x1000700 + 0x1000 * (i % 272)
def CORE_SRAM_ECC_CORRECTED (i : Nat) : RF := ⟨CORE_SRAM_ECC i, 0, 32⟩
def CORE_SRAM_ECC_UNCORR (i : Nat) : RF := ⟨CORE_SRAM_ECC i, 32, 16⟩
def CORE_SRAM_ECC_POISON_READ (i : Nat) : RF := ⟨CORE_SRAM_ECC i, 48, 16⟩
/-- CORE_FMT_TBL_LOADS of 03_number_formats.md R110. -/
def CORE_FMT_TBL_LOADS (i : Nat) : Nat := 0x1000800 + 0x1000 * (i % 272)
def CORE_FMT_TBL_LOADS_LOADS (i : Nat) : RF := ⟨CORE_FMT_TBL_LOADS i, 0, 32⟩
/-- CORE_FMT_AFFINE_BLKS of 03_number_formats.md R111. -/
def CORE_FMT_AFFINE_BLKS (i : Nat) : Nat := 0x1000808 + 0x1000 * (i % 272)
def CORE_FMT_AFFINE_BLKS_HW_BLOCKS (i : Nat) : RF := ⟨CORE_FMT_AFFINE_BLKS i, 0, 48⟩
/-- CORE_FMT_VEC_AFFINE of 03_number_formats.md R112. -/
def CORE_FMT_VEC_AFFINE (i : Nat) : Nat := 0x1000810 + 0x1000 * (i % 272)
def CORE_FMT_VEC_AFFINE_VEC_BLOCKS (i : Nat) : RF := ⟨CORE_FMT_VEC_AFFINE i, 0, 48⟩
/-- CORE_FMT_EVENTS of 03_number_formats.md R113. -/
def CORE_FMT_EVENTS (i : Nat) : Nat := 0x1000818 + 0x1000 * (i % 272)
def CORE_FMT_EVENTS_TERN_RSV (i : Nat) : RF := ⟨CORE_FMT_EVENTS i, 0, 16⟩
def CORE_FMT_EVENTS_SAT_E4M3 (i : Nat) : RF := ⟨CORE_FMT_EVENTS i, 16, 16⟩
def CORE_FMT_EVENTS_OVF_INF (i : Nat) : RF := ⟨CORE_FMT_EVENTS i, 32, 16⟩
def CORE_FMT_EVENTS_NAN_OUT (i : Nat) : RF := ⟨CORE_FMT_EVENTS i, 48, 16⟩
/-- CORE_FMT_TABLE of 03_number_formats.md R114. -/
def CORE_FMT_TABLE (i j : Nat) : Nat := 0x1000840 + 0x1000 * (i % 272) + 0x8 * (j % 4)
def CORE_FMT_TABLE_ENTRY0 (i j : Nat) : RF := ⟨CORE_FMT_TABLE i j, 0, 16⟩
def CORE_FMT_TABLE_ENTRY1 (i j : Nat) : RF := ⟨CORE_FMT_TABLE i j, 16, 16⟩
def CORE_FMT_TABLE_ENTRY2 (i j : Nat) : RF := ⟨CORE_FMT_TABLE i j, 32, 16⟩
def CORE_FMT_TABLE_ENTRY3 (i j : Nat) : RF := ⟨CORE_FMT_TABLE i j, 48, 16⟩
/-- CLU_OST_STATUS of 08_kv_pages.md R281. -/
def CLU_OST_STATUS (i : Nat) : Nat := 0x2001000 + 0x4000 * (i % 16)
def CLU_OST_STATUS_BUSY (i : Nat) : RF := ⟨CLU_OST_STATUS i, 0, 1⟩
def CLU_OST_STATUS_WALKS_OPEN (i : Nat) : RF := ⟨CLU_OST_STATUS i, 8, 8⟩
def CLU_OST_STATUS_POOLS (i : Nat) : RF := ⟨CLU_OST_STATUS i, 16, 12⟩
/-- CLU_OST_WALKS of 08_kv_pages.md R282. -/
def CLU_OST_WALKS (i : Nat) : Nat := 0x2001008 + 0x4000 * (i % 16)
def CLU_OST_WALKS_WALKS (i : Nat) : RF := ⟨CLU_OST_WALKS i, 0, 32⟩
def CLU_OST_WALKS_FORWARDED (i : Nat) : RF := ⟨CLU_OST_WALKS i, 32, 32⟩
/-- CLU_OST_ECACHE of 08_kv_pages.md R282. -/
def CLU_OST_ECACHE (i : Nat) : Nat := 0x2001010 + 0x4000 * (i % 16)
def CLU_OST_ECACHE_HITS (i : Nat) : RF := ⟨CLU_OST_ECACHE i, 0, 32⟩
def CLU_OST_ECACHE_MISSES (i : Nat) : RF := ⟨CLU_OST_ECACHE i, 32, 32⟩
/-- CLU_OST_ALLOC of 08_kv_pages.md R283. -/
def CLU_OST_ALLOC (i : Nat) : Nat := 0x2001018 + 0x4000 * (i % 16)
def CLU_OST_ALLOC_ALLOCS (i : Nat) : RF := ⟨CLU_OST_ALLOC i, 0, 32⟩
def CLU_OST_ALLOC_ALLOC_RACE (i : Nat) : RF := ⟨CLU_OST_ALLOC i, 32, 16⟩
def CLU_OST_ALLOC_QUOTA_FAIL (i : Nat) : RF := ⟨CLU_OST_ALLOC i, 48, 16⟩
/-- CLU_OST_COPY of 08_kv_pages.md R283. -/
def CLU_OST_COPY (i : Nat) : Nat := 0x2001020 + 0x4000 * (i % 16)
def CLU_OST_COPY_COPIES (i : Nat) : RF := ⟨CLU_OST_COPY i, 0, 32⟩
def CLU_OST_COPY_ZERO_FILLED (i : Nat) : RF := ⟨CLU_OST_COPY i, 32, 16⟩
def CLU_OST_COPY_PIN_WAIT (i : Nat) : RF := ⟨CLU_OST_COPY i, 48, 16⟩
/-- CLU_OST_FREE of 08_kv_pages.md R284. -/
def CLU_OST_FREE (i : Nat) : Nat := 0x2001028 + 0x4000 * (i % 16)
def CLU_OST_FREE_FREED (i : Nat) : RF := ⟨CLU_OST_FREE i, 0, 32⟩
def CLU_OST_FREE_RECLAIMED (i : Nat) : RF := ⟨CLU_OST_FREE i, 32, 32⟩
/-- CLU_OST_ERRORS of 08_kv_pages.md R284. -/
def CLU_OST_ERRORS (i : Nat) : Nat := 0x2001030 + 0x4000 * (i % 16)
def CLU_OST_ERRORS_BAD_SLOT (i : Nat) : RF := ⟨CLU_OST_ERRORS i, 0, 16⟩
def CLU_OST_ERRORS_CHECK_FAIL (i : Nat) : RF := ⟨CLU_OST_ERRORS i, 16, 16⟩
def CLU_OST_ERRORS_CRC_FAIL (i : Nat) : RF := ⟨CLU_OST_ERRORS i, 32, 16⟩
/-- CLU_SKM_CTRL of 06_skimmer.md R213. -/
def CLU_SKM_CTRL (i : Nat) : Nat := 0x2002000 + 0x4000 * (i % 16)
def CLU_SKM_CTRL_DISABLE (i : Nat) : RF := ⟨CLU_SKM_CTRL i, 0, 1⟩
def CLU_SKM_CTRL_DRAINING (i : Nat) : RF := ⟨CLU_SKM_CTRL i, 1, 1⟩
def CLU_SKM_CTRL_BUSY (i : Nat) : RF := ⟨CLU_SKM_CTRL i, 2, 1⟩
def CLU_SKM_CTRL_QUEUED (i : Nat) : RF := ⟨CLU_SKM_CTRL i, 8, 5⟩
/-- CLU_SKM_TILES of 06_skimmer.md R214. -/
def CLU_SKM_TILES (i : Nat) : Nat := 0x2002008 + 0x4000 * (i % 16)
def CLU_SKM_TILES_RL_TILES (i : Nat) : RF := ⟨CLU_SKM_TILES i, 0, 32⟩
def CLU_SKM_TILES_PACKED_TILES (i : Nat) : RF := ⟨CLU_SKM_TILES i, 32, 32⟩
/-- CLU_SKM_RAW of 06_skimmer.md R214. -/
def CLU_SKM_RAW (i : Nat) : Nat := 0x2002010 + 0x4000 * (i % 16)
def CLU_SKM_RAW_RAW_TILES (i : Nat) : RF := ⟨CLU_SKM_RAW i, 0, 32⟩
def CLU_SKM_RAW_EXPANDED (i : Nat) : RF := ⟨CLU_SKM_RAW i, 32, 32⟩
/-- CLU_SKM_WINDOWS of 06_skimmer.md R215. -/
def CLU_SKM_WINDOWS (i : Nat) : Nat := 0x2002018 + 0x4000 * (i % 16)
def CLU_SKM_WINDOWS_WINDOWS (i : Nat) : RF := ⟨CLU_SKM_WINDOWS i, 0, 48⟩
/-- CLU_SKM_STEPS of 06_skimmer.md R215. -/
def CLU_SKM_STEPS (i : Nat) : Nat := 0x2002020 + 0x4000 * (i % 16)
def CLU_SKM_STEPS_STEPS (i : Nat) : RF := ⟨CLU_SKM_STEPS i, 0, 48⟩
/-- CLU_SKM_OVERFULL of 06_skimmer.md R216. -/
def CLU_SKM_OVERFULL (i : Nat) : Nat := 0x2002028 + 0x4000 * (i % 16)
def CLU_SKM_OVERFULL_OVERFULL (i : Nat) : RF := ⟨CLU_SKM_OVERFULL i, 0, 32⟩
def CLU_SKM_OVERFULL_NONFINITE (i : Nat) : RF := ⟨CLU_SKM_OVERFULL i, 32, 32⟩
/-- CLU_SKM_ERRORS of 06_skimmer.md R217. -/
def CLU_SKM_ERRORS (i : Nat) : Nat := 0x2002030 + 0x4000 * (i % 16)
def CLU_SKM_ERRORS_RANGE_TILES (i : Nat) : RF := ⟨CLU_SKM_ERRORS i, 0, 16⟩
def CLU_SKM_ERRORS_POISON_TILES (i : Nat) : RF := ⟨CLU_SKM_ERRORS i, 16, 16⟩
def CLU_SKM_ERRORS_REFUSED (i : Nat) : RF := ⟨CLU_SKM_ERRORS i, 32, 16⟩
/-- CLU_SKM_BYTES of 06_skimmer.md R218. -/
def CLU_SKM_BYTES (i : Nat) : Nat := 0x2002038 + 0x4000 * (i % 16)
def CLU_SKM_BYTES_BYTES_IN (i : Nat) : RF := ⟨CLU_SKM_BYTES i, 0, 48⟩
/-- CCI_PEND of 15_boot_security.md R504. -/
def CCI_PEND (i : Nat) : Nat := 0x4000000 + 0x1000 * (i % 32)
def CCI_PEND_CALLBACK (i : Nat) : RF := ⟨CCI_PEND i, 0, 1⟩
def CCI_PEND_DSP (i : Nat) : RF := ⟨CCI_PEND i, 1, 1⟩
def CCI_PEND_LDG (i : Nat) : RF := ⟨CCI_PEND i, 2, 1⟩
def CCI_PEND_POOL (i : Nat) : RF := ⟨CCI_PEND i, 3, 1⟩
def CCI_PEND_CHN (i : Nat) : RF := ⟨CCI_PEND i, 4, 1⟩
/-- CCI_ENABLE of 15_boot_security.md R504. -/
def CCI_ENABLE (i : Nat) : Nat := 0x4000008 + 0x1000 * (i % 32)
def CCI_ENABLE_ENABLE (i : Nat) : RF := ⟨CCI_ENABLE i, 0, 5⟩
/-- CCI_WDOG of 15_boot_security.md R504. -/
def CCI_WDOG (i : Nat) : Nat := 0x4000010 + 0x1000 * (i % 32)
def CCI_WDOG_PET (i : Nat) : RF := ⟨CCI_WDOG i, 0, 64⟩

end Rg

/-- The registers of the DEV block. -/
def regRowsDev : List RegRow := [
  ⟨0x0, 1, 0x1, 1, 0x1, [⟨0, 16, .ro, 21335, .warm, none⟩, ⟨16, 16, .ro, 2609, .warm, none⟩, ⟨32, 8, .ro, 0, .warm, none⟩]⟩,
  ⟨0x8, 1, 0x1, 1, 0x1, [⟨0, 8, .ro, 0, .warm, none⟩, ⟨8, 3, .ro, 0, .warm, none⟩]⟩,
  ⟨0x10, 1, 0x1, 1, 0x1, [⟨0, 5, .ro, 0, .warm, none⟩, ⟨5, 3, .ro, 0, .warm, none⟩, ⟨8, 9, .ro, 0, .warm, none⟩, ⟨17, 6, .ro, 0, .warm, none⟩, ⟨23, 4, .ro, 0, .warm, none⟩, ⟨27, 4, .ro, 0, .warm, none⟩, ⟨31, 1, .ro, 0, .warm, none⟩, ⟨32, 1, .ro, 1, .warm, none⟩, ⟨33, 1, .ro, 0, .warm, none⟩, ⟨34, 8, .ro, 0, .warm, none⟩, ⟨42, 6, .ro, 0, .warm, none⟩]⟩,
  ⟨0x18, 1, 0x1, 1, 0x1, [⟨0, 10, .ro, 0, .warm, none⟩, ⟨10, 10, .ro, 0, .warm, none⟩, ⟨20, 12, .ro, 0, .warm, none⟩]⟩,
  ⟨0x20, 1, 0x1, 1, 0x1, [⟨0, 16, .ro, 0, .warm, none⟩, ⟨16, 16, .ro, 0, .warm, none⟩]⟩,
  ⟨0x28, 1, 0x1, 1, 0x1, [⟨0, 64, .ro, 0, .warm, none⟩]⟩,
  ⟨0x100, 1, 0x1, 16, 0x8, [⟨0, 5, .ro, 0, .warm, none⟩, ⟨8, 8, .ro, 0, .warm, none⟩, ⟨16, 1, .ro, 0, .warm, none⟩, ⟨17, 5, .ro, 0, .warm, none⟩]⟩,
  ⟨0x1000, 1, 0x1, 1, 0x1, [⟨0, 64, .ro, 0, .cold, none⟩]⟩,
  ⟨0x1008, 1, 0x1, 1, 0x1, [⟨0, 64, .wo, 0, .cold, none⟩]⟩,
  ⟨0x1010, 1, 0x1, 1, 0x1, [⟨0, 1, .rw, 0, .cold, none⟩, ⟨1, 1, .ro, 0, .cold, none⟩, ⟨2, 20, .rw, 100, .cold, some (1, 500000)⟩]⟩,
  ⟨0x1018, 1, 0x1, 1, 0x1, [⟨0, 64, .ro, 0, .cold, none⟩]⟩,
  ⟨0x1020, 1, 0x1, 1, 0x1, [⟨0, 32, .ro, 0, .cold, none⟩, ⟨32, 16, .ro, 0, .cold, none⟩, ⟨48, 16, .ro, 0, .cold, none⟩]⟩,
  ⟨0x1028, 1, 0x1, 1, 0x1, [⟨0, 32, .ro, 0, .cold, none⟩, ⟨32, 1, .ro, 0, .cold, none⟩]⟩]

/-- The registers of the PWR block. -/
def regRowsPwr : List RegRow := [
  ⟨0x10000, 1, 0x1, 1, 0x1, [⟨0, 12, .rw, 0, .warm, none⟩, ⟨12, 1, .w1c, 0, .warm, none⟩]⟩,
  ⟨0x10008, 1, 0x1, 1, 0x1, [⟨0, 16, .ro, 0, .warm, none⟩, ⟨16, 12, .ro, 0, .warm, none⟩, ⟨28, 1, .ro, 0, .warm, none⟩, ⟨29, 1, .ro, 0, .warm, none⟩, ⟨30, 1, .ro, 0, .warm, none⟩, ⟨31, 1, .ro, 0, .warm, none⟩]⟩,
  ⟨0x10010, 1, 0x1, 1, 0x1, [⟨0, 12, .ro, 0, .warm, none⟩, ⟨12, 12, .ro, 0, .warm, none⟩, ⟨24, 12, .ro, 0, .warm, none⟩, ⟨36, 12, .ro, 0, .warm, none⟩]⟩,
  ⟨0x10018, 1, 0x1, 1, 0x1, [⟨0, 8, .rw, 100, .warm, some (85, 100)⟩, ⟨8, 8, .ro, 0, .warm, none⟩, ⟨16, 4, .ro, 0, .warm, none⟩]⟩,
  ⟨0x10020, 1, 0x1, 1, 0x1, [⟨0, 1, .w1c, 0, .warm, none⟩, ⟨1, 1, .w1c, 0, .warm, none⟩, ⟨2, 1, .w1c, 0, .warm, none⟩, ⟨3, 1, .w1c, 0, .warm, none⟩, ⟨4, 1, .w1c, 0, .warm, none⟩]⟩,
  ⟨0x10028, 1, 0x1, 1, 0x1, [⟨0, 64, .ro, 0, .cold, none⟩]⟩,
  ⟨0x10100, 1, 0x1, 12, 0x10, [⟨0, 12, .ro, 0, .warm, none⟩, ⟨12, 12, .ro, 0, .warm, none⟩, ⟨24, 9, .ro, 0, .warm, none⟩, ⟨33, 9, .ro, 0, .warm, none⟩, ⟨42, 3, .ro, 0, .warm, none⟩]⟩,
  ⟨0x10108, 1, 0x1, 12, 0x10, [⟨0, 16, .ro, 0, .warm, none⟩]⟩,
  ⟨0x10200, 1, 0x1, 6, 0x10, [⟨0, 32, .ro, 0, .cold, none⟩]⟩,
  ⟨0x10208, 1, 0x1, 6, 0x10, [⟨0, 64, .ro, 0, .cold, none⟩]⟩]

/-- The registers of the IMG block. -/
def regRowsImg : List RegRow := [
  ⟨0x20000, 1, 0x1, 1, 0x1, [⟨0, 2, .ro, 0, .warm, none⟩, ⟨2, 1, .ro, 0, .warm, none⟩, ⟨3, 1, .ro, 0, .warm, none⟩, ⟨4, 1, .w1c, 0, .warm, none⟩, ⟨8, 8, .ro, 0, .warm, none⟩]⟩,
  ⟨0x20008, 1, 0x1, 2, 0x8, [⟨0, 64, .ro, 0, .warm, none⟩]⟩,
  ⟨0x20018, 1, 0x1, 1, 0x1, [⟨0, 8, .ro, 0, .warm, none⟩, ⟨8, 8, .ro, 0, .warm, none⟩]⟩,
  ⟨0x20020, 1, 0x1, 1, 0x1, [⟨0, 4, .wo, 0, .warm, none⟩, ⟨8, 4, .wo, 0, .warm, none⟩]⟩,
  ⟨0x20028, 1, 0x1, 1, 0x1, [⟨0, 64, .rw, 0, .warm, none⟩]⟩,
  ⟨0x20030, 1, 0x1, 1, 0x1, [⟨0, 26, .rw, 0, .warm, none⟩]⟩,
  ⟨0x20038, 1, 0x1, 1, 0x1, [⟨0, 27, .rw, 0, .warm, none⟩]⟩,
  ⟨0x20100, 1, 0x1, 12, 0x8, [⟨0, 1, .ro, 0, .warm, none⟩, ⟨8, 8, .ro, 0, .warm, none⟩, ⟨32, 32, .ro, 0, .warm, none⟩]⟩]

/-- The registers of the SEC block. -/
def regRowsSec : List RegRow := [
  ⟨0x30000, 1, 0x1, 1, 0x1, [⟨0, 3, .ro, 0, .warm, none⟩, ⟨3, 1, .ro, 0, .warm, none⟩, ⟨4, 2, .ro, 0, .warm, none⟩, ⟨6, 1, .ro, 0, .warm, none⟩, ⟨7, 1, .ro, 0, .warm, none⟩, ⟨8, 8, .ro, 0, .warm, none⟩, ⟨16, 1, .ro, 0, .warm, none⟩]⟩,
  ⟨0x30008, 1, 0x1, 2, 0x8, [⟨0, 64, .ro, 0, .warm, none⟩]⟩,
  ⟨0x30018, 1, 0x1, 1, 0x1, [⟨0, 8, .ro, 0, .warm, none⟩, ⟨8, 8, .ro, 0, .warm, none⟩]⟩,
  ⟨0x30020, 1, 0x1, 1, 0x1, [⟨0, 32, .ro, 0, .warm, none⟩, ⟨32, 32, .ro, 0, .warm, none⟩]⟩,
  ⟨0x30028, 1, 0x1, 1, 0x1, [⟨0, 32, .ro, 0, .warm, none⟩, ⟨32, 32, .ro, 0, .warm, none⟩]⟩,
  ⟨0x30030, 1, 0x1, 1, 0x1, [⟨0, 8, .ro, 0, .warm, none⟩, ⟨8, 8, .ro, 0, .warm, none⟩, ⟨16, 8, .ro, 0, .warm, none⟩, ⟨24, 32, .ro, 0, .warm, none⟩]⟩,
  ⟨0x30038, 1, 0x1, 1, 0x1, [⟨0, 4, .wo, 0, .warm, none⟩, ⟨4, 4, .wo, 0, .warm, none⟩, ⟨8, 1, .wo, 0, .warm, none⟩]⟩,
  ⟨0x30040, 1, 0x1, 1, 0x1, [⟨0, 64, .rw, 0, .warm, none⟩]⟩,
  ⟨0x30048, 1, 0x1, 1, 0x1, [⟨0, 24, .rw, 0, .warm, none⟩]⟩,
  ⟨0x30050, 1, 0x1, 1, 0x1, [⟨0, 25, .rw, 0, .warm, none⟩]⟩,
  ⟨0x30060, 1, 0x1, 4, 0x8, [⟨0, 64, .rw, 0, .warm, none⟩]⟩,
  ⟨0x30080, 1, 0x1, 1, 0x1, [⟨0, 8, .ro, 0, .warm, none⟩, ⟨8, 1, .ro, 0, .warm, none⟩, ⟨9, 1, .w1c, 0, .warm, none⟩, ⟨32, 32, .ro, 0, .warm, none⟩]⟩,
  ⟨0x30100, 1, 0x1, 12, 0x10, [⟨0, 64, .rw, 0, .warm, none⟩]⟩,
  ⟨0x30108, 1, 0x1, 12, 0x10, [⟨0, 1, .rw, 0, .warm, none⟩, ⟨1, 1, .ro, 0, .warm, none⟩]⟩]

/-- The registers of the FLT block. -/
def regRowsFlt : List RegRow := [
  ⟨0x40000, 1, 0x1, 1, 0x1, [⟨0, 2, .wo, 0, .cold, none⟩, ⟨8, 4, .wo, 0, .cold, none⟩, ⟨16, 9, .wo, 0, .cold, none⟩]⟩,
  ⟨0x40008, 1, 0x1, 1, 0x1, [⟨0, 4, .ro, 0, .cold, none⟩, ⟨8, 1, .w1c, 0, .cold, none⟩, ⟨16, 16, .ro, 0, .cold, none⟩]⟩,
  ⟨0x40010, 1, 0x1, 1, 0x1, [⟨0, 9, .ro, 0, .cold, none⟩, ⟨9, 1, .w1c, 0, .cold, none⟩]⟩,
  ⟨0x40018, 1, 0x1, 1, 0x1, [⟨0, 8, .ro, 0, .cold, none⟩, ⟨8, 8, .ro, 0, .cold, none⟩, ⟨16, 4, .ro, 0, .cold, none⟩, ⟨20, 4, .ro, 0, .cold, none⟩, ⟨24, 32, .ro, 0, .cold, none⟩, ⟨56, 1, .ro, 0, .cold, none⟩, ⟨63, 1, .ro, 0, .cold, none⟩]⟩,
  ⟨0x40020, 1, 0x1, 1, 0x1, [⟨0, 64, .ro, 0, .cold, none⟩]⟩,
  ⟨0x40028, 1, 0x1, 1, 0x1, [⟨0, 64, .rc, 0, .cold, none⟩]⟩,
  ⟨0x40030, 1, 0x1, 1, 0x1, [⟨0, 1, .w1c, 0, .cold, none⟩, ⟨1, 1, .w1c, 0, .cold, none⟩, ⟨2, 1, .w1c, 0, .cold, none⟩, ⟨3, 1, .w1c, 0, .cold, none⟩]⟩,
  ⟨0x40038, 1, 0x1, 1, 0x1, [⟨0, 16, .ro, 1000, .cold, none⟩, ⟨16, 16, .ro, 0, .cold, none⟩]⟩,
  ⟨0x40040, 1, 0x1, 1, 0x1, [⟨0, 64, .rw, 0, .cold, none⟩]⟩,
  ⟨0x40048, 1, 0x1, 1, 0x1, [⟨0, 16, .rw, 0, .cold, none⟩]⟩,
  ⟨0x40050, 1, 0x1, 1, 0x1, [⟨0, 2, .wo, 0, .cold, none⟩]⟩,
  ⟨0x40058, 1, 0x1, 1, 0x1, [⟨0, 8, .ro, 0, .cold, none⟩, ⟨8, 1, .ro, 0, .cold, none⟩, ⟨16, 8, .ro, 0, .cold, none⟩]⟩,
  ⟨0x40100, 1, 0x1, 12, 0x10, [⟨0, 3, .ro, 0, .cold, none⟩, ⟨3, 1, .ro, 0, .cold, none⟩, ⟨4, 8, .ro, 0, .cold, none⟩, ⟨32, 32, .ro, 0, .cold, none⟩]⟩,
  ⟨0x40108, 1, 0x1, 12, 0x10, [⟨0, 64, .ro, 0, .cold, none⟩]⟩]

/-- The registers of the SVC block. -/
def regRowsSvc : List RegRow := [
  ⟨0x50000, 1, 0x1, 1, 0x1, [⟨0, 3, .ro, 0, .warm, none⟩, ⟨3, 1, .rw, 0, .warm, none⟩, ⟨4, 1, .ro, 0, .warm, none⟩, ⟨16, 16, .ro, 0, .warm, none⟩]⟩,
  ⟨0x50008, 1, 0x1, 1, 0x1, [⟨0, 2, .wo, 0, .warm, none⟩]⟩,
  ⟨0x50010, 1, 0x1, 1, 0x1, [⟨0, 10, .rw, 30, .warm, some (1, 600)⟩, ⟨10, 1, .rw, 0, .warm, none⟩]⟩,
  ⟨0x50018, 1, 0x1, 1, 0x1, [⟨0, 5, .ro, 1, .warm, none⟩, ⟨5, 1, .rw, 0, .warm, none⟩, ⟨6, 24, .rw, 0, .warm, none⟩]⟩,
  ⟨0x50020, 1, 0x1, 1, 0x1, [⟨0, 8, .ro, 0, .warm, none⟩, ⟨8, 1, .ro, 0, .warm, none⟩, ⟨16, 8, .w1c, 0, .warm, none⟩, ⟨24, 1, .w1c, 0, .warm, none⟩]⟩,
  ⟨0x50028, 1, 0x1, 1, 0x1, [⟨0, 1, .w1c, 0, .warm, none⟩, ⟨1, 1, .w1c, 0, .warm, none⟩, ⟨2, 1, .w1c, 0, .warm, none⟩, ⟨3, 1, .w1c, 0, .warm, none⟩, ⟨4, 1, .w1c, 0, .warm, none⟩]⟩]

/-- The registers of the LRL block. -/
def regRowsLrl : List RegRow := [
  ⟨0x60000, 1, 0x1, 1, 0x1, [⟨0, 3, .ro, 0, .warm, none⟩, ⟨3, 1, .ro, 0, .warm, none⟩, ⟨4, 4, .ro, 0, .warm, none⟩, ⟨8, 8, .ro, 0, .warm, none⟩, ⟨16, 8, .ro, 0, .warm, none⟩]⟩,
  ⟨0x60008, 1, 0x1, 1, 0x1, [⟨0, 16, .rw, 2000, .warm, some (200, 65535)⟩, ⟨16, 16, .rw, 10, .warm, some (1, 10000)⟩, ⟨32, 16, .rw, 100, .warm, some (1, 10000)⟩, ⟨48, 1, .rw, 1, .warm, none⟩]⟩,
  ⟨0x60010, 1, 0x1, 1, 0x1, [⟨0, 32, .rc, 0, .warm, none⟩, ⟨32, 16, .rc, 0, .warm, none⟩, ⟨48, 16, .rc, 0, .warm, none⟩]⟩,
  ⟨0x60018, 1, 0x1, 1, 0x1, [⟨0, 16, .rc, 0, .warm, none⟩, ⟨16, 16, .rc, 0, .warm, none⟩, ⟨32, 16, .rc, 0, .warm, none⟩, ⟨48, 16, .rc, 0, .warm, none⟩]⟩,
  ⟨0x60020, 1, 0x1, 1, 0x1, [⟨0, 64, .rw, 0, .warm, none⟩]⟩,
  ⟨0x60028, 1, 0x1, 1, 0x1, [⟨0, 64, .ro, 0, .warm, none⟩]⟩,
  ⟨0x60030, 1, 0x1, 1, 0x1, [⟨0, 64, .wo, 0, .warm, none⟩]⟩,
  ⟨0x60100, 1, 0x1, 12, 0x10, [⟨0, 64, .rw, 0, .warm, none⟩]⟩,
  ⟨0x60108, 1, 0x1, 12, 0x10, [⟨0, 64, .rw, 0, .warm, none⟩]⟩]

/-- The registers of the CCH block. -/
def regRowsCch : List RegRow := [
  ⟨0x80000, 8, 0x2000, 1, 0x1, [⟨0, 1, .rw, 0, .warm, none⟩, ⟨1, 1, .rw, 0, .warm, none⟩, ⟨2, 3, .rw, 0, .warm, none⟩, ⟨8, 12, .rw, 0, .warm, none⟩]⟩,
  ⟨0x80008, 8, 0x2000, 1, 0x1, [⟨0, 3, .ro, 0, .warm, none⟩, ⟨3, 1, .ro, 0, .warm, none⟩, ⟨4, 2, .ro, 0, .warm, none⟩, ⟨8, 8, .ro, 0, .warm, none⟩]⟩,
  ⟨0x80010, 8, 0x2000, 1, 0x1, [⟨0, 32, .rc, 0, .warm, none⟩, ⟨32, 32, .rc, 0, .warm, none⟩]⟩,
  ⟨0x80018, 8, 0x2000, 1, 0x1, [⟨0, 32, .rc, 0, .warm, none⟩, ⟨32, 32, .rc, 0, .warm, none⟩]⟩,
  ⟨0x80020, 8, 0x2000, 1, 0x1, [⟨0, 16, .rc, 0, .warm, none⟩, ⟨16, 16, .rc, 0, .warm, none⟩, ⟨32, 16, .rc, 0, .warm, none⟩, ⟨48, 16, .rc, 0, .warm, none⟩]⟩,
  ⟨0x80028, 8, 0x2000, 1, 0x1, [⟨0, 32, .rc, 0, .warm, none⟩, ⟨32, 16, .rc, 0, .warm, none⟩, ⟨48, 16, .rc, 0, .warm, none⟩]⟩,
  ⟨0x80030, 8, 0x2000, 1, 0x1, [⟨0, 16, .rc, 0, .warm, none⟩, ⟨16, 16, .rc, 0, .warm, none⟩, ⟨32, 16, .rc, 0, .warm, none⟩]⟩,
  ⟨0x81000, 1, 0x1, 1, 0x1, [⟨0, 13, .ro, 0, .warm, none⟩, ⟨16, 4, .ro, 0, .warm, none⟩]⟩,
  ⟨0x81008, 1, 0x1, 1, 0x1, [⟨0, 14, .rw, 20, .warm, some (1, 10000)⟩, ⟨14, 4, .rw, 8, .warm, some (1, 15)⟩, ⟨18, 8, .rw, 20, .warm, some (1, 255)⟩, ⟨26, 9, .rw, 32, .warm, some (4, 256)⟩, ⟨35, 14, .rw, 100, .warm, some (1, 10000)⟩]⟩,
  ⟨0x81010, 1, 0x1, 1, 0x1, [⟨0, 13, .rw, 0, .warm, none⟩]⟩,
  ⟨0x81018, 1, 0x1, 1, 0x1, [⟨0, 3, .rw, 0, .warm, none⟩, ⟨3, 1, .rw, 0, .warm, none⟩, ⟨8, 32, .rw, 0, .warm, none⟩]⟩,
  ⟨0x81020, 1, 0x1, 1, 0x1, [⟨0, 15, .ro, 0, .warm, none⟩, ⟨16, 16, .rc, 0, .warm, none⟩, ⟨32, 16, .rc, 0, .warm, none⟩]⟩,
  ⟨0x81028, 1, 0x1, 1, 0x1, [⟨0, 9, .ro, 0, .warm, none⟩, ⟨32, 32, .rc, 0, .warm, none⟩]⟩,
  ⟨0x81030, 1, 0x1, 1, 0x1, [⟨0, 16, .rc, 0, .warm, none⟩, ⟨16, 16, .rc, 0, .warm, none⟩, ⟨32, 16, .rc, 0, .warm, none⟩]⟩,
  ⟨0x81038, 1, 0x1, 1, 0x1, [⟨0, 16, .rc, 0, .warm, none⟩, ⟨16, 16, .rc, 0, .warm, none⟩, ⟨32, 16, .rc, 0, .warm, none⟩]⟩,
  ⟨0x81100, 1, 0x1, 12, 0x40, [⟨0, 13, .ro, 0, .part, none⟩, ⟨16, 13, .ro, 0, .part, none⟩, ⟨32, 32, .ro, 0, .part, none⟩]⟩,
  ⟨0x81108, 1, 0x1, 12, 0x40, [⟨0, 32, .ro, 0, .part, none⟩, ⟨32, 8, .ro, 0, .part, none⟩]⟩,
  ⟨0x81110, 1, 0x1, 12, 0x40, [⟨0, 13, .ro, 0, .part, none⟩, ⟨16, 13, .ro, 0, .part, none⟩, ⟨32, 16, .ro, 0, .part, none⟩, ⟨48, 1, .w1c, 0, .part, none⟩]⟩,
  ⟨0x81118, 1, 0x1, 12, 0x40, [⟨0, 8, .rw, 0, .part, none⟩]⟩,
  ⟨0x81120, 1, 0x1, 12, 0x40, [⟨0, 32, .ro, 0, .part, none⟩, ⟨32, 1, .ro, 0, .part, none⟩]⟩]

/-- The registers of the MEM block. -/
def regRowsMem : List RegRow := [
  ⟨0xE0000, 1, 0x1, 1, 0x1, [⟨0, 8, .ro, 0, .warm, none⟩, ⟨8, 16, .ro, 0, .warm, none⟩, ⟨24, 10, .ro, 0, .warm, none⟩, ⟨34, 8, .ro, 0, .warm, none⟩]⟩,
  ⟨0xE0008, 1, 0x1, 1, 0x1, [⟨0, 32, .ro, 0, .warm, none⟩, ⟨32, 10, .ro, 0, .warm, none⟩, ⟨42, 1, .ro, 0, .warm, none⟩, ⟨43, 21, .ro, 0, .warm, none⟩]⟩,
  ⟨0xE0010, 1, 0x1, 1, 0x1, [⟨0, 32, .rc, 0, .warm, none⟩, ⟨32, 16, .rc, 0, .warm, none⟩, ⟨48, 16, .rc, 0, .warm, none⟩]⟩,
  ⟨0xE0018, 1, 0x1, 1, 0x1, [⟨0, 7, .ro, 0, .warm, none⟩, ⟨7, 1, .w1c, 0, .warm, none⟩, ⟨8, 1, .w1c, 0, .warm, none⟩]⟩,
  ⟨0xE0020, 1, 0x1, 1, 0x1, [⟨0, 48, .ro, 0, .warm, none⟩, ⟨48, 3, .ro, 0, .warm, none⟩, ⟨51, 1, .ro, 0, .warm, none⟩, ⟨52, 4, .ro, 0, .warm, none⟩, ⟨56, 4, .ro, 0, .warm, none⟩, ⟨63, 1, .ro, 0, .warm, none⟩]⟩,
  ⟨0xE0028, 1, 0x1, 1, 0x1, [⟨0, 64, .rc, 0, .warm, none⟩]⟩,
  ⟨0xE0100, 1, 0x1, 12, 0x8, [⟨0, 4, .ro, 0, .warm, none⟩, ⟨4, 4, .ro, 0, .warm, none⟩, ⟨8, 4, .ro, 0, .warm, none⟩, ⟨32, 32, .ro, 0, .warm, none⟩]⟩,
  ⟨0xA0000, 64, 0x1000, 1, 0x1, [⟨0, 1, .ro, 0, .warm, none⟩, ⟨8, 8, .ro, 0, .warm, none⟩, ⟨16, 8, .ro, 0, .warm, none⟩]⟩,
  ⟨0xA0008, 64, 0x1000, 1, 0x1, [⟨0, 48, .rc, 0, .warm, none⟩]⟩,
  ⟨0xA0010, 64, 0x1000, 1, 0x1, [⟨0, 48, .rc, 0, .warm, none⟩]⟩,
  ⟨0xA0018, 64, 0x1000, 1, 0x1, [⟨0, 48, .rc, 0, .warm, none⟩]⟩,
  ⟨0xA0020, 64, 0x1000, 1, 0x1, [⟨0, 48, .rc, 0, .warm, none⟩]⟩,
  ⟨0xA0028, 64, 0x1000, 1, 0x1, [⟨0, 32, .rc, 0, .warm, none⟩, ⟨32, 16, .rc, 0, .warm, none⟩, ⟨48, 16, .rc, 0, .warm, none⟩]⟩]

/-- The registers of the DSP block. -/
def regRowsDsp : List RegRow := [
  ⟨0x100000, 12, 0x100000, 1, 0x1, [⟨0, 1, .rw, 0, .part, none⟩, ⟨1, 1, .ro, 0, .part, none⟩]⟩,
  ⟨0x100008, 12, 0x100000, 1, 0x1, [⟨0, 15, .ro, 0, .part, none⟩, ⟨15, 15, .ro, 0, .part, none⟩, ⟨30, 10, .ro, 0, .part, none⟩]⟩,
  ⟨0x100010, 12, 0x100000, 1, 0x1, [⟨0, 16, .ro, 0, .part, none⟩, ⟨16, 16, .ro, 0, .part, none⟩, ⟨32, 16, .ro, 0, .part, none⟩, ⟨48, 16, .ro, 0, .part, none⟩]⟩,
  ⟨0x100018, 12, 0x100000, 1, 0x1, [⟨0, 9, .ro, 0, .part, none⟩, ⟨9, 9, .ro, 0, .part, none⟩]⟩,
  ⟨0x100020, 12, 0x100000, 1, 0x1, [⟨0, 4, .wo, 0, .part, none⟩, ⟨8, 4, .wo, 0, .part, none⟩]⟩,
  ⟨0x100028, 12, 0x100000, 1, 0x1, [⟨0, 64, .rw, 0, .part, none⟩]⟩,
  ⟨0x100030, 12, 0x100000, 1, 0x1, [⟨0, 8, .ro, 0, .part, none⟩, ⟨8, 1, .ro, 0, .part, none⟩, ⟨16, 14, .ro, 0, .part, none⟩, ⟨32, 32, .ro, 0, .part, none⟩]⟩,
  ⟨0x100040, 12, 0x100000, 1, 0x1, [⟨0, 64, .rw, 0, .part, none⟩]⟩,
  ⟨0x100048, 12, 0x100000, 1, 0x1, [⟨0, 5, .rw, 6, .part, none⟩]⟩,
  ⟨0x100050, 12, 0x100000, 1, 0x1, [⟨0, 32, .ro, 0, .part, none⟩]⟩,
  ⟨0x100058, 12, 0x100000, 1, 0x1, [⟨0, 32, .rw, 0, .part, none⟩]⟩,
  ⟨0x100060, 12, 0x100000, 1, 0x1, [⟨0, 64, .rw, 0, .part, none⟩]⟩,
  ⟨0x100068, 12, 0x100000, 1, 0x1, [⟨0, 5, .rw, 6, .part, none⟩]⟩,
  ⟨0x100070, 12, 0x100000, 1, 0x1, [⟨0, 32, .ro, 0, .part, none⟩]⟩,
  ⟨0x100078, 12, 0x100000, 1, 0x1, [⟨0, 32, .rw, 0, .part, none⟩]⟩,
  ⟨0x100080, 12, 0x100000, 1, 0x1, [⟨0, 32, .wo, 0, .part, none⟩, ⟨32, 8, .wo, 0, .part, none⟩, ⟨40, 8, .wo, 0, .part, none⟩]⟩,
  ⟨0x100088, 12, 0x100000, 1, 0x1, [⟨0, 1, .w1c, 0, .part, none⟩, ⟨1, 1, .w1c, 0, .part, none⟩, ⟨2, 1, .w1c, 0, .part, none⟩, ⟨3, 1, .w1c, 0, .part, none⟩, ⟨4, 1, .w1c, 0, .part, none⟩]⟩,
  ⟨0x100100, 12, 0x100000, 16, 0x8, [⟨0, 32, .ro, 0, .part, none⟩, ⟨32, 21, .ro, 0, .part, none⟩, ⟨53, 1, .ro, 0, .part, none⟩]⟩,
  ⟨0x100200, 12, 0x100000, 1, 0x1, [⟨0, 48, .rc, 0, .part, none⟩, ⟨48, 16, .rc, 0, .part, none⟩]⟩,
  ⟨0x100208, 12, 0x100000, 1, 0x1, [⟨0, 32, .rc, 0, .part, none⟩, ⟨32, 32, .rc, 0, .part, none⟩]⟩,
  ⟨0x100210, 12, 0x100000, 1, 0x1, [⟨0, 12, .rc, 0, .part, none⟩, ⟨12, 12, .rc, 0, .part, none⟩, ⟨24, 10, .rc, 0, .part, none⟩, ⟨34, 10, .rc, 0, .part, none⟩, ⟨44, 10, .rc, 0, .part, none⟩, ⟨54, 10, .rc, 0, .part, none⟩]⟩,
  ⟨0x100218, 12, 0x100000, 1, 0x1, [⟨0, 48, .rc, 0, .part, none⟩]⟩]

/-- The registers of the LDG block. -/
def regRowsLdg : List RegRow := [
  ⟨0x140000, 12, 0x100000, 1, 0x1, [⟨0, 1, .rw, 0, .part, none⟩, ⟨1, 1, .ro, 0, .part, none⟩, ⟨2, 1, .ro, 0, .part, none⟩]⟩,
  ⟨0x140008, 12, 0x100000, 1, 0x1, [⟨0, 17, .ro, 0, .part, none⟩, ⟨17, 17, .ro, 0, .part, none⟩, ⟨34, 17, .ro, 0, .part, none⟩]⟩,
  ⟨0x140010, 12, 0x100000, 1, 0x1, [⟨0, 24, .rw, 1024, .warm, none⟩, ⟨24, 4, .rw, 3, .warm, none⟩, ⟨28, 1, .rw, 0, .warm, none⟩, ⟨29, 5, .rw, 0, .warm, none⟩]⟩,
  ⟨0x140018, 12, 0x100000, 1, 0x1, [⟨0, 4, .rw, 0, .warm, none⟩, ⟨4, 4, .rw, 0, .warm, none⟩, ⟨8, 1, .rw, 0, .warm, none⟩, ⟨16, 24, .rw, 1000, .warm, none⟩, ⟨40, 24, .rw, 1000, .warm, none⟩]⟩,
  ⟨0x140020, 12, 0x100000, 1, 0x1, [⟨0, 24, .rw, 1000, .warm, none⟩]⟩,
  ⟨0x140028, 12, 0x100000, 1, 0x1, [⟨0, 64, .rw, 0, .warm, none⟩]⟩,
  ⟨0x140030, 12, 0x100000, 1, 0x1, [⟨0, 32, .rw, 1000, .warm, none⟩, ⟨32, 32, .rw, 8192, .warm, none⟩]⟩,
  ⟨0x140038, 12, 0x100000, 1, 0x1, [⟨0, 64, .ro, 0, .part, none⟩]⟩,
  ⟨0x140040, 12, 0x100000, 1, 0x1, [⟨0, 64, .rw, 0, .warm, none⟩]⟩,
  ⟨0x140048, 12, 0x100000, 1, 0x1, [⟨0, 5, .rw, 6, .warm, none⟩]⟩,
  ⟨0x140050, 12, 0x100000, 1, 0x1, [⟨0, 32, .rw, 0, .part, none⟩]⟩,
  ⟨0x140058, 12, 0x100000, 1, 0x1, [⟨0, 32, .ro, 0, .part, none⟩]⟩,
  ⟨0x140060, 12, 0x100000, 1, 0x1, [⟨0, 64, .rw, 0, .warm, none⟩]⟩,
  ⟨0x140068, 12, 0x100000, 1, 0x1, [⟨0, 5, .rw, 6, .warm, none⟩]⟩,
  ⟨0x140070, 12, 0x100000, 1, 0x1, [⟨0, 32, .ro, 0, .part, none⟩]⟩,
  ⟨0x140078, 12, 0x100000, 1, 0x1, [⟨0, 32, .rw, 0, .part, none⟩]⟩,
  ⟨0x140080, 12, 0x100000, 1, 0x1, [⟨0, 2, .wo, 0, .part, none⟩, ⟨16, 16, .wo, 0, .part, none⟩]⟩,
  ⟨0x140088, 12, 0x100000, 1, 0x1, [⟨0, 8, .ro, 0, .part, none⟩, ⟨8, 1, .ro, 0, .part, none⟩, ⟨32, 32, .ro, 0, .part, none⟩]⟩,
  ⟨0x140400, 12, 0x100000, 16, 0x8, [⟨0, 64, .ro, 0, .part, none⟩]⟩,
  ⟨0x140090, 12, 0x100000, 1, 0x1, [⟨0, 1, .w1c, 0, .part, none⟩, ⟨1, 1, .w1c, 0, .part, none⟩, ⟨2, 1, .w1c, 0, .part, none⟩, ⟨3, 1, .w1c, 0, .part, none⟩, ⟨4, 1, .w1c, 0, .part, none⟩]⟩,
  ⟨0x140098, 12, 0x100000, 1, 0x1, [⟨0, 16, .rc, 0, .part, none⟩, ⟨16, 16, .rc, 0, .part, none⟩, ⟨32, 16, .rc, 0, .part, none⟩, ⟨48, 16, .rc, 0, .part, none⟩]⟩,
  ⟨0x1400A0, 12, 0x100000, 1, 0x1, [⟨0, 32, .rc, 0, .part, none⟩, ⟨32, 16, .rc, 0, .part, none⟩, ⟨48, 16, .rc, 0, .part, none⟩]⟩,
  ⟨0x140100, 12, 0x100000, 64, 0x8, [⟨0, 8, .rw, 1, .warm, some (1, 255)⟩, ⟨8, 17, .ro, 0, .part, none⟩, ⟨25, 17, .ro, 0, .part, none⟩]⟩,
  ⟨0x140300, 12, 0x100000, 16, 0x10, [⟨0, 64, .rw, 0, .warm, none⟩]⟩,
  ⟨0x140308, 12, 0x100000, 16, 0x10, [⟨0, 64, .rw, 0, .warm, none⟩]⟩,
  ⟨0x17F000, 12, 0x100000, 1, 0x1, [⟨0, 25, .ro, 0, .part, none⟩, ⟨25, 25, .ro, 0, .part, none⟩]⟩,
  ⟨0x17F008, 12, 0x100000, 1, 0x1, [⟨0, 25, .ro, 0, .part, none⟩, ⟨25, 25, .ro, 0, .part, none⟩]⟩,
  ⟨0x17F010, 12, 0x100000, 1, 0x1, [⟨0, 25, .rw, 0, .warm, none⟩, ⟨25, 1, .w1c, 0, .part, none⟩]⟩,
  ⟨0x17F018, 12, 0x100000, 1, 0x1, [⟨0, 3, .wo, 0, .part, none⟩, ⟨8, 24, .wo, 0, .part, none⟩]⟩,
  ⟨0x17F020, 12, 0x100000, 1, 0x1, [⟨0, 8, .ro, 0, .part, none⟩, ⟨32, 32, .ro, 0, .part, none⟩]⟩,
  ⟨0x17F028, 12, 0x100000, 1, 0x1, [⟨0, 64, .ro, 0, .part, none⟩]⟩,
  ⟨0x17F030, 12, 0x100000, 1, 0x1, [⟨0, 64, .ro, 0, .part, none⟩]⟩]

/-- The registers of the CHN block. -/
def regRowsChn : List RegRow := [
  ⟨0x180000, 12, 0x100000, 1, 0x1, [⟨0, 4, .wo, 0, .part, none⟩, ⟨16, 12, .wo, 0, .part, none⟩, ⟨28, 1, .wo, 0, .part, none⟩]⟩,
  ⟨0x180008, 12, 0x100000, 1, 0x1, [⟨0, 64, .rw, 0, .part, none⟩]⟩,
  ⟨0x180010, 12, 0x100000, 1, 0x1, [⟨0, 8, .ro, 0, .part, none⟩, ⟨8, 1, .ro, 0, .part, none⟩, ⟨16, 12, .ro, 0, .part, none⟩, ⟨32, 32, .ro, 0, .part, none⟩]⟩,
  ⟨0x181000, 12, 0x100000, 33, 0x40, [⟨0, 64, .rw, 0, .part, none⟩]⟩,
  ⟨0x181008, 12, 0x100000, 33, 0x40, [⟨0, 2, .wo, 0, .part, none⟩, ⟨2, 1, .wo, 0, .part, none⟩, ⟨3, 4, .wo, 0, .part, none⟩, ⟨8, 12, .wo, 0, .part, none⟩, ⟨32, 32, .wo, 0, .part, none⟩]⟩,
  ⟨0x181010, 12, 0x100000, 34, 0x40, [⟨0, 4, .ro, 0, .part, none⟩, ⟨4, 1, .ro, 0, .part, none⟩, ⟨5, 1, .w1c, 0, .part, none⟩, ⟨8, 8, .ro, 0, .part, none⟩, ⟨32, 32, .ro, 0, .part, none⟩]⟩,
  ⟨0x181018, 12, 0x100000, 34, 0x40, [⟨0, 64, .rw, 0, .part, none⟩]⟩,
  ⟨0x181020, 12, 0x100000, 34, 0x40, [⟨0, 5, .rw, 12, .part, none⟩]⟩,
  ⟨0x181028, 12, 0x100000, 34, 0x40, [⟨0, 32, .ro, 0, .part, none⟩, ⟨32, 32, .ro, 0, .part, none⟩]⟩,
  ⟨0x182000, 12, 0x100000, 64, 0x20, [⟨0, 1, .rw, 0, .part, none⟩, ⟨1, 1, .rw, 0, .part, none⟩, ⟨8, 8, .rw, 0, .part, none⟩, ⟨16, 5, .ro, 0, .part, none⟩]⟩,
  ⟨0x182008, 12, 0x100000, 64, 0x20, [⟨0, 1, .rc, 0, .part, none⟩, ⟨1, 1, .rc, 0, .part, none⟩, ⟨2, 4, .rc, 0, .part, none⟩, ⟨16, 12, .rc, 0, .part, none⟩, ⟨32, 16, .rc, 0, .part, none⟩, ⟨48, 16, .rc, 0, .part, none⟩]⟩,
  ⟨0x182010, 12, 0x100000, 64, 0x20, [⟨0, 64, .ro, 0, .part, none⟩]⟩,
  ⟨0x182018, 12, 0x100000, 64, 0x20, [⟨0, 12, .wo, 0, .part, none⟩, ⟨12, 1, .wo, 0, .part, none⟩]⟩,
  ⟨0x183000, 12, 0x100000, 1, 0x1, [⟨0, 12, .rw, 0, .part, none⟩]⟩,
  ⟨0x183008, 12, 0x100000, 1, 0x1, [⟨0, 2, .ro, 0, .part, none⟩, ⟨8, 8, .ro, 0, .part, none⟩, ⟨16, 16, .ro, 0, .part, none⟩, ⟨32, 16, .ro, 0, .part, none⟩]⟩,
  ⟨0x183010, 12, 0x100000, 1, 0x1, [⟨0, 32, .ro, 0, .part, none⟩, ⟨32, 32, .rw, 0, .part, none⟩]⟩,
  ⟨0x183020, 12, 0x100000, 1, 0x1, [⟨0, 8, .rw, 0, .part, none⟩]⟩,
  ⟨0x183028, 12, 0x100000, 1, 0x1, [⟨0, 1, .ro, 0, .part, none⟩, ⟨1, 1, .ro, 0, .part, none⟩, ⟨3, 13, .ro, 0, .part, none⟩, ⟨16, 32, .ro, 0, .part, none⟩]⟩,
  ⟨0x183100, 12, 0x100000, 1, 0x1, [⟨0, 16, .rc, 0, .part, none⟩, ⟨16, 16, .rc, 0, .part, none⟩, ⟨32, 16, .rc, 0, .part, none⟩, ⟨48, 16, .rc, 0, .part, none⟩]⟩,
  ⟨0x183108, 12, 0x100000, 1, 0x1, [⟨0, 32, .rc, 0, .part, none⟩, ⟨32, 32, .rc, 0, .part, none⟩]⟩,
  ⟨0x183110, 12, 0x100000, 1, 0x1, [⟨0, 64, .w1c, 0, .part, none⟩]⟩,
  ⟨0x183118, 12, 0x100000, 1, 0x1, [⟨0, 64, .w1c, 0, .part, none⟩]⟩]

/-- The registers of the ADP block. -/
def regRowsAdp : List RegRow := [
  ⟨0x1C0000, 12, 0x100000, 1, 0x1, [⟨0, 64, .rw, 0, .warm, none⟩]⟩,
  ⟨0x1C0008, 12, 0x100000, 1, 0x1, [⟨0, 3, .wo, 0, .warm, none⟩, ⟨16, 12, .wo, 0, .warm, none⟩, ⟨32, 16, .wo, 0, .warm, none⟩]⟩,
  ⟨0x1C0010, 12, 0x100000, 1, 0x1, [⟨0, 64, .rw, 0, .warm, none⟩]⟩,
  ⟨0x1C0018, 12, 0x100000, 1, 0x1, [⟨0, 8, .ro, 0, .warm, none⟩, ⟨8, 1, .ro, 0, .warm, none⟩, ⟨16, 16, .ro, 0, .warm, none⟩, ⟨32, 32, .ro, 0, .warm, none⟩]⟩,
  ⟨0x1C0020, 12, 0x100000, 1, 0x1, [⟨0, 12, .rw, 0, .warm, none⟩]⟩,
  ⟨0x1C0028, 12, 0x100000, 1, 0x1, [⟨0, 1, .ro, 0, .warm, none⟩, ⟨16, 16, .ro, 0, .warm, none⟩, ⟨32, 16, .ro, 0, .warm, none⟩]⟩,
  ⟨0x1C0030, 12, 0x100000, 1, 0x1, [⟨0, 32, .ro, 0, .warm, none⟩, ⟨32, 32, .ro, 0, .warm, none⟩]⟩]

/-- The registers of the CORE block. -/
def regRowsCore : List RegRow := [
  ⟨0x1000000, 272, 0x1000, 1, 0x1, [⟨0, 3, .ro, 0, .core, none⟩, ⟨3, 1, .ro, 0, .core, none⟩, ⟨4, 1, .ro, 0, .core, none⟩, ⟨5, 1, .ro, 0, .core, none⟩, ⟨6, 4, .ro, 0, .core, none⟩]⟩,
  ⟨0x1000008, 272, 0x1000, 3, 0x8, [⟨0, 32, .ro, 0, .core, none⟩, ⟨32, 4, .ro, 0, .core, none⟩, ⟨36, 3, .ro, 0, .core, none⟩, ⟨39, 1, .ro, 0, .core, none⟩]⟩,
  ⟨0x1000030, 272, 0x1000, 1, 0x1, [⟨0, 16, .rc, 0, .core, none⟩, ⟨16, 16, .rc, 0, .core, none⟩, ⟨32, 16, .rc, 0, .core, none⟩]⟩,
  ⟨0x1000100, 272, 0x1000, 2, 0x8, [⟨0, 48, .rc, 0, .core, none⟩]⟩,
  ⟨0x1000110, 272, 0x1000, 1, 0x1, [⟨0, 32, .rc, 0, .core, none⟩, ⟨32, 16, .rc, 0, .core, none⟩]⟩,
  ⟨0x1000118, 272, 0x1000, 1, 0x1, [⟨0, 32, .rc, 0, .core, none⟩, ⟨32, 16, .rc, 0, .core, none⟩]⟩,
  ⟨0x1000200, 272, 0x1000, 1, 0x1, [⟨0, 4, .ro, 0, .core, none⟩, ⟨4, 4, .ro, 2, .core, none⟩, ⟨8, 4, .ro, 2, .core, none⟩]⟩,
  ⟨0x1000208, 272, 0x1000, 1, 0x1, [⟨0, 4, .ro, 0, .core, none⟩, ⟨4, 4, .ro, 2, .core, none⟩, ⟨8, 4, .ro, 2, .core, none⟩]⟩,
  ⟨0x1000210, 272, 0x1000, 1, 0x1, [⟨0, 4, .ro, 0, .core, none⟩, ⟨4, 4, .ro, 4, .core, none⟩, ⟨8, 4, .ro, 4, .core, none⟩]⟩,
  ⟨0x1000218, 272, 0x1000, 1, 0x1, [⟨0, 4, .ro, 0, .core, none⟩, ⟨4, 4, .ro, 4, .core, none⟩, ⟨8, 4, .ro, 4, .core, none⟩]⟩,
  ⟨0x1000220, 272, 0x1000, 1, 0x1, [⟨0, 4, .ro, 0, .core, none⟩, ⟨4, 4, .ro, 2, .core, none⟩, ⟨8, 4, .ro, 2, .core, none⟩]⟩,
  ⟨0x1000228, 272, 0x1000, 1, 0x1, [⟨0, 4, .ro, 0, .core, none⟩, ⟨4, 4, .ro, 8, .core, none⟩, ⟨8, 4, .ro, 8, .core, none⟩]⟩,
  ⟨0x1000240, 272, 0x1000, 6, 0x8, [⟨0, 32, .rc, 0, .core, none⟩, ⟨32, 32, .rc, 0, .core, none⟩]⟩,
  ⟨0x1000300, 272, 0x1000, 1, 0x1, [⟨0, 48, .rc, 0, .core, none⟩]⟩,
  ⟨0x1000308, 272, 0x1000, 1, 0x1, [⟨0, 48, .rc, 0, .core, none⟩]⟩,
  ⟨0x1000320, 272, 0x1000, 1, 0x1, [⟨0, 32, .rc, 0, .core, none⟩, ⟨32, 32, .rc, 0, .core, none⟩]⟩,
  ⟨0x1000328, 272, 0x1000, 1, 0x1, [⟨0, 48, .rc, 0, .core, none⟩]⟩,
  ⟨0x1000400, 272, 0x1000, 4, 0x8, [⟨0, 6, .ro, 0, .core, none⟩, ⟨6, 6, .ro, 0, .core, none⟩, ⟨12, 6, .ro, 0, .core, none⟩, ⟨18, 6, .ro, 0, .core, none⟩, ⟨24, 1, .ro, 0, .core, none⟩, ⟨25, 1, .ro, 0, .core, none⟩, ⟨32, 1, .ro, 0, .core, none⟩]⟩,
  ⟨0x1000420, 272, 0x1000, 1, 0x1, [⟨0, 2, .ro, 0, .core, none⟩, ⟨2, 1, .ro, 0, .core, none⟩, ⟨3, 2, .ro, 0, .core, none⟩, ⟨5, 4, .ro, 0, .core, none⟩, ⟨9, 12, .ro, 0, .core, none⟩, ⟨21, 1, .ro, 0, .core, none⟩]⟩,
  ⟨0x1000440, 272, 0x1000, 4, 0x8, [⟨0, 48, .rc, 0, .core, none⟩]⟩,
  ⟨0x1000460, 272, 0x1000, 4, 0x8, [⟨0, 32, .rc, 0, .core, none⟩, ⟨32, 32, .rc, 0, .core, none⟩]⟩,
  ⟨0x1000480, 272, 0x1000, 1, 0x1, [⟨0, 32, .rc, 0, .core, none⟩, ⟨32, 32, .rc, 0, .core, none⟩]⟩,
  ⟨0x1000488, 272, 0x1000, 1, 0x1, [⟨0, 32, .rc, 0, .core, none⟩, ⟨32, 32, .rc, 0, .core, none⟩]⟩,
  ⟨0x1000490, 272, 0x1000, 1, 0x1, [⟨0, 16, .rc, 0, .core, none⟩, ⟨16, 16, .rc, 0, .core, none⟩]⟩,
  ⟨0x1000500, 272, 0x1000, 1, 0x1, [⟨0, 32, .rc, 0, .core, none⟩, ⟨32, 32, .rc, 0, .core, none⟩]⟩,
  ⟨0x1000508, 272, 0x1000, 1, 0x1, [⟨0, 32, .rc, 0, .core, none⟩, ⟨32, 16, .rc, 0, .core, none⟩, ⟨48, 16, .rc, 0, .core, none⟩]⟩,
  ⟨0x1000600, 272, 0x1000, 1, 0x1, [⟨0, 48, .rc, 0, .core, none⟩]⟩,
  ⟨0x1000608, 272, 0x1000, 1, 0x1, [⟨0, 32, .rc, 0, .core, none⟩, ⟨32, 32, .rc, 0, .core, none⟩]⟩,
  ⟨0x1000610, 272, 0x1000, 1, 0x1, [⟨0, 32, .rc, 0, .core, none⟩, ⟨32, 32, .rc, 0, .core, none⟩]⟩,
  ⟨0x1000618, 272, 0x1000, 1, 0x1, [⟨0, 16, .rc, 0, .core, none⟩, ⟨16, 16, .rc, 0, .core, none⟩, ⟨32, 16, .rc, 0, .core, none⟩, ⟨48, 16, .rc, 0, .core, none⟩]⟩,
  ⟨0x1000620, 272, 0x1000, 1, 0x1, [⟨0, 32, .rc, 0, .core, none⟩, ⟨32, 32, .rc, 0, .core, none⟩]⟩,
  ⟨0x1000628, 272, 0x1000, 1, 0x1, [⟨0, 32, .rc, 0, .core, none⟩, ⟨32, 32, .rc, 0, .core, none⟩]⟩,
  ⟨0x1000700, 272, 0x1000, 1, 0x1, [⟨0, 32, .rc, 0, .core, none⟩, ⟨32, 16, .rc, 0, .core, none⟩, ⟨48, 16, .rc, 0, .core, none⟩]⟩,
  ⟨0x1000800, 272, 0x1000, 1, 0x1, [⟨0, 32, .rc, 0, .core, none⟩]⟩,
  ⟨0x1000808, 272, 0x1000, 1, 0x1, [⟨0, 48, .rc, 0, .core, none⟩]⟩,
  ⟨0x1000810, 272, 0x1000, 1, 0x1, [⟨0, 48, .rc, 0, .core, none⟩]⟩,
  ⟨0x1000818, 272, 0x1000, 1, 0x1, [⟨0, 16, .rc, 0, .core, none⟩, ⟨16, 16, .rc, 0, .core, none⟩, ⟨32, 16, .rc, 0, .core, none⟩, ⟨48, 16, .rc, 0, .core, none⟩]⟩,
  ⟨0x1000840, 272, 0x1000, 4, 0x8, [⟨0, 16, .ro, 0, .core, none⟩, ⟨16, 16, .ro, 0, .core, none⟩, ⟨32, 16, .ro, 0, .core, none⟩, ⟨48, 16, .ro, 0, .core, none⟩]⟩]

/-- The registers of the CLU block. -/
def regRowsClu : List RegRow := [
  ⟨0x2001000, 16, 0x4000, 1, 0x1, [⟨0, 1, .ro, 0, .warm, none⟩, ⟨8, 8, .ro, 0, .warm, none⟩, ⟨16, 12, .ro, 0, .warm, none⟩]⟩,
  ⟨0x2001008, 16, 0x4000, 1, 0x1, [⟨0, 32, .rc, 0, .warm, none⟩, ⟨32, 32, .rc, 0, .warm, none⟩]⟩,
  ⟨0x2001010, 16, 0x4000, 1, 0x1, [⟨0, 32, .rc, 0, .warm, none⟩, ⟨32, 32, .rc, 0, .warm, none⟩]⟩,
  ⟨0x2001018, 16, 0x4000, 1, 0x1, [⟨0, 32, .rc, 0, .warm, none⟩, ⟨32, 16, .rc, 0, .warm, none⟩, ⟨48, 16, .rc, 0, .warm, none⟩]⟩,
  ⟨0x2001020, 16, 0x4000, 1, 0x1, [⟨0, 32, .rc, 0, .warm, none⟩, ⟨32, 16, .rc, 0, .warm, none⟩, ⟨48, 16, .rc, 0, .warm, none⟩]⟩,
  ⟨0x2001028, 16, 0x4000, 1, 0x1, [⟨0, 32, .rc, 0, .warm, none⟩, ⟨32, 32, .rc, 0, .warm, none⟩]⟩,
  ⟨0x2001030, 16, 0x4000, 1, 0x1, [⟨0, 16, .rc, 0, .warm, none⟩, ⟨16, 16, .rc, 0, .warm, none⟩, ⟨32, 16, .rc, 0, .warm, none⟩]⟩,
  ⟨0x2002000, 16, 0x4000, 1, 0x1, [⟨0, 1, .rw, 0, .warm, none⟩, ⟨1, 1, .ro, 0, .warm, none⟩, ⟨2, 1, .ro, 0, .warm, none⟩, ⟨8, 5, .ro, 0, .warm, none⟩]⟩,
  ⟨0x2002008, 16, 0x4000, 1, 0x1, [⟨0, 32, .rc, 0, .warm, none⟩, ⟨32, 32, .rc, 0, .warm, none⟩]⟩,
  ⟨0x2002010, 16, 0x4000, 1, 0x1, [⟨0, 32, .rc, 0, .warm, none⟩, ⟨32, 32, .rc, 0, .warm, none⟩]⟩,
  ⟨0x2002018, 16, 0x4000, 1, 0x1, [⟨0, 48, .rc, 0, .warm, none⟩]⟩,
  ⟨0x2002020, 16, 0x4000, 1, 0x1, [⟨0, 48, .rc, 0, .warm, none⟩]⟩,
  ⟨0x2002028, 16, 0x4000, 1, 0x1, [⟨0, 32, .rc, 0, .warm, none⟩, ⟨32, 32, .rc, 0, .warm, none⟩]⟩,
  ⟨0x2002030, 16, 0x4000, 1, 0x1, [⟨0, 16, .rc, 0, .warm, none⟩, ⟨16, 16, .rc, 0, .warm, none⟩, ⟨32, 16, .rc, 0, .warm, none⟩]⟩,
  ⟨0x2002038, 16, 0x4000, 1, 0x1, [⟨0, 48, .rc, 0, .warm, none⟩]⟩]

/-- The registers of the CCI block. -/
def regRowsCci : List RegRow := [
  ⟨0x4000000, 32, 0x1000, 1, 0x1, [⟨0, 1, .ro, 0, .part, none⟩, ⟨1, 1, .ro, 0, .part, none⟩, ⟨2, 1, .ro, 0, .part, none⟩, ⟨3, 1, .ro, 0, .part, none⟩, ⟨4, 1, .ro, 0, .part, none⟩]⟩,
  ⟨0x4000008, 32, 0x1000, 1, 0x1, [⟨0, 5, .rw, 0, .part, none⟩]⟩,
  ⟨0x4000010, 32, 0x1000, 1, 0x1, [⟨0, 64, .wo, 0, .part, none⟩]⟩]

/-- Whether the row has a register at offset `a`. -/
def RegRow.has (r : RegRow) (a : Nat) : Bool :=
  r.base ≤ a && (let d := a - r.base
    let i := d / r.s1
    let i := if r.n1 ≤ i then r.n1 - 1 else i
    let e := d - i * r.s1
    e / r.s2 < r.n2 && e % r.s2 == 0)

/-- The rows of the block that holds offset `a` (R33). -/
def regRowsAt (a : Nat) : List RegRow :=
  if 0x0 ≤ a && a < 0x10000 then regRowsDev else
  if 0x10000 ≤ a && a < 0x20000 then regRowsPwr else
  if 0x20000 ≤ a && a < 0x30000 then regRowsImg else
  if 0x30000 ≤ a && a < 0x40000 then regRowsSec else
  if 0x40000 ≤ a && a < 0x50000 then regRowsFlt else
  if 0x50000 ≤ a && a < 0x60000 then regRowsSvc else
  if 0x60000 ≤ a && a < 0x70000 then regRowsLrl else
  if 0x80000 ≤ a && a < 0x90000 then regRowsCch else
  if 0xA0000 ≤ a && a < 0x100000 then regRowsMem else
  if 0x100000 ≤ a && a < 0xD00000 then
    (let b := (a - 0x100000) % 0x100000
     if b < 0x40000 then regRowsDsp else if b < 0x80000 then regRowsLdg else if b < 0xC0000 then regRowsChn else regRowsAdp) else
  if 0x1000000 ≤ a && a < 0x1110000 then regRowsCore else
  if 0x2000000 ≤ a && a < 0x2040000 then regRowsClu else
  if 0x4000000 ≤ a && a < 0x4020000 then regRowsCci else []

/-- The table row of the register at offset `a`, none at an offset that holds no register (R34). -/
def regRow? (a : Nat) : Option RegRow := (regRowsAt a).find? fun r => r.has a

/-- The value of a register with every field at its table reset value. -/
def RegRow.resetValue (r : RegRow) : W64 :=
  r.fields.foldl (fun x f => setBits x f.lo f.w f.reset) 0

/-- What the register at offset `a` holds after reset (R11); an offset without a register holds 0 (R34). -/
def regReset (a : Nat) : W64 := match regRow? a with
  | some r => r.resetValue
  | none => 0

/-- The bits of a register whose fields are cleared by a reset that clears the domains `ds` (R540). -/
def RegRow.domMask (r : RegRow) (ds : List Dom) : W64 :=
  r.fields.foldl (fun x f => if ds.contains f.dom then x ||| maskW f.lo f.w else x) 0

end Sys2Proof.Machine
end

