-- ==== Sys2Proof/Machine/State.lean ====
section
/-!
DEFINITION. The state of the block: everything the spec gives the machine, as plain data; the reasons a step can stop;
the state after reset. File and rule numbers are those of spec/ (08 R262 is rule R262 of 08_kv_pages.md).
-/
namespace Sys2Proof.Machine

/-- Reasons for a fault. No meaning of this model raises one (every command has an effect); safe. -/
inductive Fault
  /-- Kept so that the type has a value; nothing raises it. Safe. -/
  | none
deriving DecidableEq, Repr

/-- Reasons for a refusal. -/
inductive Refusal
  /-- The command named has no meaning in the model yet; only Dispatch.lean answers with it. Safe. -/
  | notModelled (mnemonic : String)
deriving DecidableEq, Repr

/-! ### Identity, fuses and flash (01, 15) -/

/-- The three variants of R1. -/
inductive Variant | p9 | p6 | p3
deriving DecidableEq, Repr

/-- A blown row or column bypass of an array (04_tensor_arrays.md R115, 17_faults_reset.md R543). -/
structure Skip where
  core : Nat
  arr : Nat
  col : Bool
  idx : Nat
deriving DecidableEq, Repr

/-- The fuse map: spare position of each physical cluster, cores that failed test, clusters whose spare was moved
in the field, cores recorded failed by KIND 4, and the array bypasses (01_architecture.md R23, R26; R543). -/
structure FuseMap where
  spare : List Nat
  failed : List Nat
  moved : Nat
  kind4 : List Nat
  skips : List Skip
deriving DecidableEq, Repr

/-- The fuse block (01 R38 to R42, 15_boot_security.md R494). The identity key is Config.identityKey. -/
structure Fuses where
  variant : Variant
  stepping : Nat
  serial : Nat
  disabled : Nat
  map : FuseMap
  swHash : Bytes
  ownerHash : Bytes
  fwCtr : Nat
  imgCtr : Nat
deriving DecidableEq, Repr

/-- The flash: image slots A and B (02 R56), bundle slots A and B (15 R490), the identity certificate (R498).
An unlisted byte of a slot reads 0xFF (erased). -/
structure Flash where
  imgA : SMap Byte
  imgB : SMap Byte
  fwA : SMap Byte
  fwB : SMap Byte
  cert : Bytes
deriving DecidableEq, Repr

/-- The loaded fabric image (02 R57): slot (1 A, 2 B), SEQUENCE, SVN, DEVICE payload, digests (15 R499). -/
structure Loaded where
  slot : Nat
  seq : Nat
  svn : Nat
  device : Bytes
  digest : Bytes
  signer : Bytes
deriving DecidableEq, Repr

/-- The loaded firmware bundle (15 R491, R499). -/
structure Bundle where
  slot : Nat
  seq : Nat
  svn : Nat
  innkeeper : Nat
  ucode : Nat
  power : Nat
  port : Nat
  digest : Bytes
deriving DecidableEq, Repr

/-- The settings of a partition: the payloads of its PARTITION, STREAMS and GROUP sections (02 R52, R54, R55). -/
structure Cfg where
  part : Bytes
  streams : Option Bytes
  group : Option Bytes
deriving DecidableEq, Repr

/-- A reload accepted and waiting for its step boundary (02 R65): the settings, its SEQUENCE, and the digest of its
signing key. -/
structure Reload where
  cfg : Cfg
  seq : Nat
  signer : Bytes
deriving DecidableEq, Repr

/-! ### Pins, power, time, service (16, 17, 18) -/

/-- The pins and straps of 18_module.md R562 as the module last saw or drove them. -/
structure Pins where
  inputMv : Nat
  pwrGood : Bool
  modRstN : Bool
  modAlive : Bool
  refSelN : Bool
  i3cMode : Bool
  addr : Nat
deriving DecidableEq, Repr

/-- Whether the module is unpowered, held in reset, or out of reset (17 R541, R542). -/
inductive Phase | off | held | running
deriving DecidableEq, Repr

/-- The causes of a device warm reset (17 R541, R550). -/
inductive WarmCause | fltReset | imgActivate | fwActivate | innkeeper | ikWdog
deriving DecidableEq, Repr

/-- The power manager's own state (16): the cores each partition may have on; the physical cores that the thermal rule holds off
(R520); switch-ons granted and waiting, and the times at which cores last left Off (R518); since when each throttle reason is in
force (R522); the islands stretched (R519); and whether THERMTRIP holds (R520). -/
structure PowerSt where
  allowed : SMap Nat
  thermOff : List Nat
  rampWait : List Nat
  rampTimes : List Nat
  reason : SMap (Option Nat)
  stretched : List Nat
  trip : Bool
deriving DecidableEq, Repr

/-- Device time beside the counter register (16 R524, R525). -/
structure TimeSt where
  dev : Nat
  hold : Nat
  ppsLast : Option Nat
deriving DecidableEq, Repr

/-- The service unit: the touch in progress, segments lit, the quiesce's start, the HALT bits the quiesce set
(bit p LDG_CTRL, bit 12+p DSP_CTRL), and whether boot halted at a stage by the key (17 R545 to R547). -/
structure ServiceSt where
  touch : Option Nat
  lit : Nat
  forced : Bool
  quiesceAt : Option Nat
  haltSet : Nat
  bootHalt : Bool
deriving DecidableEq, Repr

/-- The management endpoint (18 R566 to R571). -/
structure MgmtSt where
  eid : Nat
  i3cAddr : Nat
  tid : Nat
  receiver : Option Nat
  sensors : SMap Nat
  lastState : Nat
  overTemp : Nat
  reply : Bytes
  events : List Bytes
deriving DecidableEq, Repr

/-- A control core as its partition sees it (15 R502 to R506): running or stopped, the registers the spec names,
the start of its watchdog period, and the trap last taken (5 load, 7 store access fault). -/
structure CtlCore where
  running : Bool
  mode : Nat
  pc : Nat
  a0 : Nat
  a1 : Nat
  a2 : Nat
  wdogAt : Nat
  trap : Nat
deriving DecidableEq, Repr

/-! ### Memory (09) -/

/-- Requests waiting at a controller for one partition and class (09 R299, R300). -/
structure ReqCount where
  rd : Nat
  wr : Nat
deriving DecidableEq, Repr

/-- A write waiting for the full write queue of a controller (09 R306). -/
structure WaitWrite where
  tag : Nat
  addr : Nat
  data : Bytes
deriving DecidableEq, Repr

/-- An LPDDR5X controller: waiting requests by 3 × partition + class, the partition served last, the place of each
partition in its pattern and the pattern in use, and waiting writers (09 R299 to R301, R306). -/
structure MemCtl where
  req : SMap ReqCount
  last : Nat
  pos : SMap Nat
  pat : SMap Nat
  wait : List WaitWrite
deriving DecidableEq, Repr

/-- Repair writes queued for a line (09 R302): poisoned or corrected. -/
structure Repair where
  line : Nat
  bad : Bool
deriving DecidableEq, Repr

/-- The error state of the two memories (09 R295 to R303): poisoned lines, error symbols standing in codewords
(line, symbol 0 to 71, error value), queued repairs, the scrub's next line index and its pass start, and each
controller. A line number is a device address divided by 64. In `scales` stand the scale bytes of attention operands that tasks
have written, by the address of the block's first element: the spec gives them no address (07 R221; assumption 45). -/
structure EccSt where
  poison : List Nat
  flips : List (Nat × Nat × Nat)
  repairQ : List Repair
  scrubNext : Nat
  scrubStart : Nat
  ctls : SMap MemCtl
  scales : SMap Nat
deriving DecidableEq, Repr

/-- A fault log entry: the three head words of 17 R551. -/
structure FltEntry where
  h0 : Nat
  h1 : Nat
  h2 : Nat
deriving DecidableEq, Repr

/-- A memory log entry: the two head words of 09 R311. -/
structure MemEntry where
  h0 : Nat
  h1 : Nat
deriving DecidableEq, Repr

/-! ### Larric link (14) -/

/-- A message of the Larric link: its 16-byte header and its data (14 R470). -/
structure Msg where
  mtype : Nat
  tag : Nat
  part : Nat
  status : Nat
  len : Nat
  addr : Nat
  data : Bytes
deriving DecidableEq, Repr

/-- An outstanding device MEM_RD (14 R471, R476). -/
structure OutRead where
  tag : Nat
  part : Nat
  addr : Nat
  len : Nat
  sentAt : Nat
deriving DecidableEq, Repr

/-- The Larric port engine (14 R462 to R479). `txq` holds the bytes of messages waiting per channel, `txBusy` the
channels whose message is partly sent; `replay` the unacknowledged DATA flits, oldest first, with the next to
resend; `credInit` the adapter's initial credits, `credLimit` the counts of its last CREDIT, `credUsed` the credits spent and
`credGiven` those returned; `rxPart` the message being received per channel and `rxq` the messages received whole. -/
structure LarricSt where
  txq : SMap (List Bytes)
  txMid : List Nat
  replay : List (Nat × Bytes)
  resend : Nat
  txSeq : Nat
  acked : Nat
  replays : Nat
  oldestAt : Nat
  rxSeq : Nat
  nakSent : Bool
  ctlq : List Bytes
  slot : Nat
  credInit : List Nat
  credUsed : SMap Nat
  credLimit : SMap Nat
  credGiven : SMap Nat
  rxPart : SMap Bytes
  rxq : List (Nat × Msg)
  tags : List OutRead
  disarmed : List Nat
  intrSeq : Nat
  downAt : Option Nat
  trainAt : Nat
  retrainAt : Nat
  attempts : Nat
  flit : Bytes
deriving DecidableEq, Repr
/-! ### Cache pages (08) -/

/-- A page-table entry (08 R262). FRAME and PART follow from the entry's index and the binding of R264, STATE from
the counts (R263); `newBy` is NEW with the task that allocated the page; `drops` counts the pins released since it was allocated
(R268). -/
structure Page where
  fmt : Nat
  fill : Nat
  ref : Nat
  pin : Nat
  score : Nat
  dim : Nat
  half : Nat
  exp : Nat
  poison : Bool
  newBy : Option Nat
  drops : Nat
deriving DecidableEq, Repr

/-- One stream block that a task writes, held until its commit (08 R270 to R273): the list, its slot address, the page
written (allocated, copied from `orig`, or in place), and the slots written: slot, key bytes, value bytes, and whether good (0), poisoned (1) or zero-filled (2). -/
structure PageWrite where
  list : Nat
  layer : Nat
  head : Nat
  blk : Nat
  half : Nat
  page : Nat
  fresh : Bool
  orig : Option Nat
  slots : List (Nat × Bytes × Bytes × Nat)
deriving DecidableEq, Repr

/-- A walk waiting at PIN 4,095 (08 R268): the task, the page, the walking core, when the wait began, and the
pins of the page released by then. -/
structure WalkWait where
  task : Nat
  part : Nat
  page : Nat
  core : Nat
  since : Nat
  drops : Nat
deriving DecidableEq, Repr

/-! ### Graphs, steps and tasks (10) -/

/-- The latest step of a graph (10 R317, R318): number, rows, trigger time and order, deadline, source (0 ledger, 1 RUN),
the status of every node that completed, the sub-code bits of those that were flagged, the device time at which it ended, and whether
the Guest Ledger has settled it (12 R396). -/
structure StepRun where
  step : Nat
  rows : Nat
  trigAt : Nat
  ord : Nat
  deadline : Nat
  source : Nat
  done : SMap Nat
  sub : Nat
  endAt : Option Nat
  settled : Bool
deriving DecidableEq, Repr

/-- A resident graph (10 R320 to R327): its header, descriptors and overflow list as loaded, the next step number,
whether it is BROKEN, when UNLOAD came, and its latest step. -/
structure Graph where
  header : Bytes
  descs : List Bytes
  ovf : List Nat
  next : Nat
  broken : Bool
  unloadAt : Option Nat
  run : Option StepRun
deriving DecidableEq, Repr

/-- A part of a task (07 R222, R224; other kinds have one part): the logical core that runs it (none on a port engine
or control core, or before issue), its slot, and whether its work is done. A part is the unit that holds a core slot
and an in-flight entry. `slot`: 0 not issued, 1 staged, 2 executing, 3 draining, 4 out of its core, 5 on a port engine
or control core, 6 stopped by a job fault. -/
structure TaskPart where
  idx : Nat
  core : Option Nat
  slot : Nat
  done : Bool
deriving DecidableEq, Repr

/-- A stream whose pages an ATTN or VERIFY task rescores, evicts or truncates at commit (07 R238 to R243). -/
structure StreamMark where
  list : Nat
  layer : Nat
  head : Nat
  budget : Nat
  sink : Nat
  window : Nat
  evict : Bool
  cutAt : Option Nat
deriving DecidableEq, Repr

/-- A task in flight (10 R317, 01 R27). `status` and `sub` are the outcome so far; `writes`, `scores`, `streams` what
its commit does to pages; `pins` the pages the TLBs of its parts hold (part, page); `flows` the sending flow contexts whose acknowledgement it awaits (01 R30); `waitSince` when its wait in the present
step began; `stage` the collective step it is in; `rep` the waits ended (kind, peer, wait, arrival; 13 R439); `verify` the outcome of
a VERIFY for each entry: (entry, next position, accepted, next token) (07 R242, R243); `localCtr` the trigger counter that
its completion raises (13 R432); `exps` the pages it exports (13 R434); `issuedDev` the device time of its issue. -/
structure Task where
  id : Nat
  part : Nat
  tag : Nat
  node : Nat
  step : Nat
  kind : Nat
  quiet : Bool
  issuedAt : Nat
  rows : Nat
  parts : List TaskPart
  computed : Bool
  status : Nat
  sub : Nat
  writes : List PageWrite
  scores : List (Nat × Nat)
  streams : List StreamMark
  pins : List (Nat × Nat)
  flows : List Nat
  waitSince : Option Nat
  stage : Nat
  rep : List (Nat × Nat × Nat × Nat)
  verify : List (Nat × Nat × Nat × Nat)
  localCtr : Option Nat
  exps : List Nat
  issuedDev : Nat
deriving DecidableEq, Repr

/-! ### Channels and Churn queues (11) -/

/-- A message in an endpoint's ring (11 R354, R356): the byte counter at which it starts, the skipped bytes before it,
its length, SEQ, sending port, and whether a group has handed it out. -/
structure RingMsg where
  at_ : Nat
  skip : Nat
  len : Nat
  seq : Nat
  src : Nat
  handed : Bool
deriving DecidableEq, Repr

/-- An open or closing endpoint (11 R351 to R353). `wtail` counts the bytes placed, with the landings not yet
accepted; TAIL (`tail`) follows them (R357). -/
structure Endpoint where
  closing : Bool
  part : Nat
  ringLog2 : Nat
  ringBase : Nat
  winBase : Nat
  winSize : Nat
  group : Nat
  prio : Nat
  head : Nat
  tail : Nat
  wtail : Nat
  msgs : List RingMsg
  closeAt : Nat
deriving DecidableEq, Repr

/-- A landing begun and not yet accepted (11 R357): endpoint, message, the port that waits on it, the task it
completes, and whether it is a window write. -/
structure Landing where
  ep : Nat
  msg : RingMsg
  window : Bool
  part : Nat
  port : Nat
  task : Option Nat
deriving DecidableEq, Repr

/-- A send in a port's queue (11 R355, R371). `wait` is when it began to wait for credit; `put` marks a PUT-AT whose
data has landed and whose notice is due; `full` a task's send that found no spill room. -/
structure Send where
  op : Nat
  notify : Bool
  units : Nat
  dest : Nat
  offset : Nat
  addr : Nat
  task : Option Nat
  wait : Option Nat
  put : Bool
  full : Bool
deriving DecidableEq, Repr

/-- A message in a port's spill ring (11 R362). -/
structure SpillMsg where
  ep : Nat
  at_ : Nat
  skip : Nat
  len : Nat
  seq : Nat
  handed : Bool
  released : Bool
deriving DecidableEq, Repr

/-- A sending port of a partition: queued sends, the SEQ of its next send to each endpoint, spilled messages. -/
structure Port where
  queue : List Send
  seqs : SMap Nat
  spill : List SpillMsg
deriving DecidableEq, Repr

/-- A message handed out by a select group: endpoint, whether from spill, the port, the place (11 R360, R361). -/
structure Handed where
  ep : Nat
  spill : Bool
  src : Nat
  at_ : Nat
deriving DecidableEq, Repr

/-- A select group's rotation points and handed-out messages (11 R360, R361). -/
structure Group where
  rot : Nat
  spillRot : Nat
  handed : List Handed
deriving DecidableEq, Repr

/-- An open Churn queue (11 R363 to R366): `waiting` the contributions queued at their ports (port, address, task). -/
structure Churn where
  part : Nat
  fmt : Nat
  count : Nat
  elems : Nat
  notify : Nat
  acc : Nat
  out : Nat
  received : Nat
  round : Nat
  notice : Option Bytes
  waiting : List (Nat × Nat × Option Nat)
deriving DecidableEq, Repr

/-! ### Guest Ledger and adapters (12) -/

/-- A ledger entry (12 R375), its device fields and its submitted fields; after them what the Guest Ledger keeps while
the request is in a step: a pending EXTEND, a pending FINISH, the VERIFY outcome, pages exported, and whether it was
held at the gate in this wait, and the budget tokens it paid there. -/
structure Entry where
  state : Nat
  effPrio : Nat
  bucket : Nat
  marks : Nat
  adGen : Nat
  fails : Nat
  worst : Nat
  reqId : Nat
  customer : Nat
  prio : Nat
  queue : Nat
  flags : Nat
  graph : Nat
  adSlot : Nat
  length : Nat
  position : Nat
  chunk : Nat
  deadline : Nat
  pageList : Nat
  budget : Nat
  sink : Nat
  window : Nat
  tokens : Nat
  draft : Nat
  dests : List Nat
  outAddr : Nat
  nDests : Nat
  steps : Nat
  admitTime : Nat
  qtime : Nat
  pendLen : Option (Nat × Nat)
  finish : Bool
  accepted : Nat
  next : Nat
  exported : Nat
  gated : Bool
  charge : Nat
deriving DecidableEq, Repr

/-- One request taken into a step (12 R388, R389): its entry, its rows, and the queue charged. -/
structure Taken where
  entry : Nat
  need : Nat
  queue : Nat
deriving DecidableEq, Repr

/-- The Guest Ledger's view of one graph (12 R388 to R391, 04 R142): rotation point, deficits, the step being formed or
running with its bucket, rows, and, for a BATCHED graph, when the open step's first row became ready. -/
structure Sched where
  q0 : Nat
  deficit : SMap Nat
  bucket : Nat
  rows : Nat
  taken : List Taken
  openSince : Option Nat
deriving DecidableEq, Repr

/-- An adapter slot (12 R405): customer when bound, CUR, the generation before it, bound counts. -/
structure AdSlot where
  customer : Option Nat
  cur : Nat
  prev : Nat
  counts : SMap Nat
deriving DecidableEq, Repr

/-! ### Coach ports (13) -/

/-- A Coach frame: source port, destination MAC's remote port, and the header fields of 13 R421 with the payload. -/
structure Frame where
  type : Nat
  flags : Nat
  spart : Nat
  dpart : Nat
  src : Nat
  dst : Nat
  job : Nat
  flow : Nat
  op : Nat
  counter : Nat
  psn : Nat
  addr : Nat
  payload : Bytes
deriving DecidableEq, Repr

/-- A DATA frame sent and not acknowledged (13 R430): its timer, its expiries, whether resent for a gap. -/
structure TxFrame where
  frame : Frame
  sentAt : Nat
  rtoUs : Nat
  tries : Nat
  fast : Bool
  sent : Bool
deriving DecidableEq, Repr

/-- A sending flow context (13 R424 to R430). `failed` counts port exhaustions; `exp` names its export context. -/
structure TxFlow where
  part : Nat
  dev : Nat
  dpart : Nat
  flow : Nat
  kind : Nat
  job : Nat
  port : Nat
  opened : Bool
  helloAt : Nat
  hellos : Nat
  nextPsn : Nat
  credit : Nat
  unacked : List TxFrame
  failed : Nat
  lastAt : Nat
  tasks : List (Nat × Nat)
  exp : Option Nat
deriving DecidableEq, Repr

/-- A receiving flow context (13 R424, R429): in `got` the PSNs received above ACK_PSN, with the counter their LAST
frame raises. -/
structure RxFlow where
  srcDev : Nat
  spart : Nat
  flow : Nat
  part : Nat
  job : Nat
  port : Nat
  ack : Nat
  credit : Nat
  creditSent : Nat
  got : List (Nat × Option Nat)
  since : Nat
  oldestAt : Option Nat
  gap : Nat
  lastAt : Nat
deriving DecidableEq, Repr

/-- An export context (13 R442 to R445): the entry, its flows, list slots still to send, the next ordinal, pages in
transit (page, ordinal), and the END status sent. -/
structure Export where
  entry : Nat
  part : Nat
  flows : List Nat
  slots : List (Nat × Nat × Nat × Nat)
  next : Nat
  transit : List (Nat × List (Nat × Nat))
  endSent : Option Nat
  cancelled : Bool
deriving DecidableEq, Repr

/-- The second copy of an ABORT (13 R448): when it is due, the port of the first copy, the frame. -/
structure AbortCopy where
  due : Nat
  port : Nat
  frame : Frame
deriving DecidableEq, Repr

/-- A port engine's waiting frames (13 R450): ABORT, then ACK and HELLO, DATA by flow context; deficits and rotation;
when the link or training was lost; frames put on the wire. -/
structure CoachPort where
  aborts : List Frame
  ctrl : List Frame
  data : List (Nat × Frame)
  deficit : SMap Nat
  rot : Nat
  failedAt : Nat
  wire : List Bytes
deriving DecidableEq, Repr

/-- The Coach block (13). Flow contexts are named by index. -/
structure CoachSt where
  ports : SMap CoachPort
  routes : SMap Nat
  tx : SMap TxFlow
  rx : SMap RxFlow
  flowNext : SMap Nat
  opens : List (Nat × Nat × Nat)
  exports : SMap Export
  exportWait : List Nat
  seen : List (Nat × Nat × Nat × Nat)
  copies : List AbortCopy
  ctrs : SMap Nat
  waiters : List (Nat × Nat × Nat)
deriving DecidableEq, Repr
/-! ### Tensor cores, clusters (04 to 06) -/

/-- The cells of one array as values: the active and the shadow accumulators and the drain accumulator, each FP32 bits with the parity bit
above, and the current and next weights as the FP32 bits of their entries, row by row (04 R116, R129); and its columns' ramp: the
quarters on at `rampAt`, and whether they are still turning on (04 R136). -/
structure ArraySt where
  active : List Nat
  shadow : List Nat
  drain : List Nat
  current : List Nat
  next : List Nat
  level : Nat
  rampAt : Nat
  rising : Bool
deriving DecidableEq, Repr

/-- A physical core: power state as CORE_STATUS.POWER codes it (05 R179), whether self-test holds it with the failing
cells found (04 R118), when its draining began (16 R516), when its arrays last ran (04 R136), and the dataflow they last ran
(04 R121); its arrays; the operand store, as the elements in buffers A0, A1, B0 and B1 (05 R151); the words written in its vector
buffer, as FP32 bits with a poison mark, and how often its contents were lost (05 R151, R159). -/
structure Core where
  power : Nat
  cells : List (Nat × Nat × Nat)
  drainAt : Nat
  idleAt : Nat
  flow : Nat
  arrays : List ArraySt
  store : List (List Nat)
  vec : SMap (Nat × Bool)
  vecLost : Nat
deriving DecidableEq, Repr

/-- A tile a core asks of its cluster's Skimmer (06 R205): core, task, the directory's address, the tile's number. -/
structure TileReq where
  core : Nat
  task : Nat
  dir : Nat
  tile : Nat
deriving DecidableEq, Repr

/-- A physical cluster: its Skimmer's queue and rotation point and when it was disabled (06 R205, R207), weight-cache
lines by partition, most recent first (05 R172), the entries its Ostler caches, most recent first (08 R267). -/
structure Cluster where
  skimQ : List TileReq
  skimRot : Nat
  skimOffAt : Nat
  wcache : List (Nat × Nat)
  ecache : List Nat
deriving DecidableEq, Repr

/-- A member of a multicast group (05 R174): the core, its tasks of the group, and the blocks standing in its landing ring. -/
structure Member where
  core : Nat
  tasks : List Nat
  blocks : Nat
deriving DecidableEq, Repr

/-- A multicast group (05 R174): its key, scope and step, members, and the blocks read. -/
structure Mcast where
  part : Nat
  stream : Nat
  base : Nat
  len : Nat
  tag : Nat
  step : Nat
  scope : Nat
  members : List Member
  read : Nat
deriving DecidableEq, Repr

/-! ### A partition -/

/-- What the block keeps for one partition: envelope and settings in force with the reload state (02 R63 to R65), the settings that
reloads replaced with the time of each, newest first, for the periods begun under them (02 R65), its
ranges of ledger and page-table entries (12 R376, 08 R264) and its page pool (R266: pushed pages, then the indices
never taken), whether START was set since the image load (15 R502), and a shutdown request came since START was last set (15 R505), why it resets and whether the reset is done
(17 R538), the graph step whose task met an error (12 R402), graphs (10), holding queues (10 R339, R340; 12 R381),
the ledger's schedules and the budget levels (level, stamp) of customers without a budget table (12), channel ports and groups (11), adapter slots (12). -/
structure Part where
  env : Option Cfg
  cfg : Option Cfg
  reloadSeq : Nat
  reloadPend : Option Reload
  reloadKey : Option Bytes
  past : List (Nat × Cfg)
  ledBase : Nat
  ledN : Nat
  pageBase : Nat
  pageQ : Nat
  pageN : Nat
  pool : List Nat
  fresh : Nat
  started : Bool
  shut : Bool
  why : Nat
  resetDone : Bool
  errStep : Option (Nat × Nat)
  errEntries : List Nat
  faultAt : Option Nat
  graphs : SMap Graph
  poolT : Nat
  cringHold : List Bytes
  cbHold : List Bytes
  rqHold : List Bytes
  haltAt : Option Nat
  sched : SMap Sched
  levels : SMap (Nat × Nat)
  ports : SMap Port
  groups : SMap Group
  adapters : SMap AdSlot
deriving DecidableEq, Repr

/-! ### The state -/

/-- The state of the module: everything the spec gives it, and the queue of waiting commands. -/
structure State where
  /-- Commands waiting, first in first out (the block's input). -/
  pending : List Instr
  /-- The MODEL's own counter of free values taken (assumption 1). -/
  free : Nat
  /-- The MODEL's own physical clock, ns (assumption 2). -/
  now : Nat
  /-- The register file by register offset (01 R33); an unlisted register holds its reset value. -/
  regs : SMap W64
  /-- Device memory (09 R290) by device address; canonical. -/
  mem : List Host.Cell
  /-- Host memory behind the Larric window (14 R475) by host address; canonical. -/
  hostMem : List Host.Cell
  fuses : Fuses
  /-- The fuse map latched at the last cold, module or device warm reset (01 R24). -/
  latched : FuseMap
  flash : Flash
  pins : Pins
  phase : Phase
  warmDue : Option WarmCause
  loaded : Option Loaded
  bundle : Option Bundle
  power : PowerSt
  time : TimeSt
  ecc : EccSt
  fltLog : List FltEntry
  memLog : List MemEntry
  larric : LarricSt
  parts : SMap Part
  pages : SMap Page
  walks : List WalkWait
  ledger : SMap Entry
  tasks : List Task
  taskNext : Nat
  /-- The partition last served an issue cycle (10 R333). -/
  issueLast : Nat
  cores : SMap Core
  clusters : SMap Cluster
  mcasts : List Mcast
  endpoints : SMap Endpoint
  landings : List Landing
  churns : SMap Churn
  coach : CoachSt
  ctl : SMap CtlCore
  service : ServiceSt
  mgmt : MgmtSt
  /-- The value the last register read by a command returned (the block's answer to its reader). -/
  bus : W64
deriving DecidableEq, Repr

/-! ### Reset -/

/-- The FREE page-table entry (08 R262, R264). -/
def Page.free : Page := ⟨0, 0, 0, 0, 0, 0, 0, 0, false, none, 0⟩

/-- The FREE ledger entry (12 R376). -/
def Entry.free : Entry :=
  ⟨0, 0, 0, 0, 0, 0, 0, 0, 0, 0, 0, 0, 0, 0, 0, 0, 0, 0, 0, 0, 0, 0, 0, 0, [], 0, 0, 0, 0, 0, none, false, 0, 0, 0, false, 0⟩

/-- A core that is off and not held (05 R179). -/
def Core.init : Core := ⟨0, [], 0, 0, 0, [], [], [], 0⟩

/-- A core switched off: its arrays and the buffers of its island hold nothing. -/
def Core.off (c : Core) : Core := { c with power := 0, arrays := [], store := [], vec := [], vecLost := c.vecLost + 1 }

/-- An array that holds nothing and whose columns are off (04 R116, R136). -/
def ArraySt.init : ArraySt := ⟨[], [], [], [], [], 0, 0, false⟩

/-- A cluster with an idle Skimmer and empty caches. -/
def Cluster.init : Cluster := ⟨[], 0, 0, [], []⟩

/-- A partition that no image defines. -/
def Part.init : Part :=
  ⟨none, none, 0, none, none, [], 0, 0, 0, 0, 0, [], 0, false, false, 0, false, none, [], none, [], 0, [], [], [], none, [], [], [], [], []⟩

/-- A port with nothing queued. -/
def Port.init : Port := ⟨[], [], []⟩

/-- A select group with nothing handed out. -/
def Group.init : Group := ⟨0, 0, []⟩

/-- The schedule of a graph at LOAD (12 R388). -/
def Sched.init : Sched := ⟨0, [], 0, 0, [], none⟩

/-- An adapter slot not bound (12 R405). -/
def AdSlot.init : AdSlot := ⟨none, 0, 0, []⟩

/-- A controller with nothing waiting (09 R299). -/
def MemCtl.init : MemCtl := ⟨[], 15, [], [], []⟩

/-- A Coach port with nothing queued. -/
def CoachPort.init : CoachPort := ⟨[], [], [], [], 0, 0, []⟩

/-- A control core that is stopped (15 R502). Register values at reset: assumption 7. -/
def CtlCore.init : CtlCore := ⟨false, 0, 0, 0, 0, 0, 0, 0⟩

/-- The Coach block with no flow. -/
def CoachSt.init : CoachSt := ⟨[], [], [], [], [], [], [], [], [], [], [], []⟩

/-- The Larric port engine in DOWN (14 R462). -/
def LarricSt.init : LarricSt :=
  ⟨[], [], [], 0, 0, 0, 0, 0, 0, false, [], 0, [], [], [], [], [], [], [], [], 0, none, 0, 0, 0, []⟩

/-- The power manager at reset (16). -/
def PowerSt.init : PowerSt := ⟨[], [], [], [], [], [], false⟩

/-- The memories with no error standing (09). -/
def EccSt.init : EccSt := ⟨[], [], [], 0, 0, [], []⟩

/-- The service unit at reset (17). -/
def ServiceSt.init : ServiceSt := ⟨none, 0, false, none, 0, false⟩

/-- The management endpoint at reset (18 R567). -/
def MgmtSt.init : MgmtSt := ⟨0, 0, 0, none, [], 0, 0, [], []⟩

/-- The fuse block the model starts with (assumption 3): a P9 of stepping 0x11 with no failed core. -/
def Fuses.init : Fuses :=
  ⟨.p9, 0x11, 1, 0, ⟨List.replicate 16 16, [], 0, [], []⟩, Config.swewynHash, List.replicate 64 0, 0, 0⟩

/-- The module held in cold reset with power about to come (17 R541, R542): every register at its reset value, memory
and tables with nothing listed, no command waiting. -/
def State.reset : State where
  pending := []
  free := 0
  now := 0
  regs := []
  mem := []
  hostMem := []
  fuses := Fuses.init
  latched := Fuses.init.map
  flash := ⟨[], [], [], [], List.replicate 364 0⟩
  pins := ⟨0, false, true, false, true, true, 7⟩
  phase := .off
  warmDue := none
  loaded := none
  bundle := none
  power := PowerSt.init
  time := ⟨0, 0, none⟩
  ecc := EccSt.init
  fltLog := []
  memLog := []
  larric := LarricSt.init
  parts := []
  pages := []
  walks := []
  ledger := []
  tasks := []
  taskNext := 0
  issueLast := 11
  cores := []
  clusters := []
  mcasts := []
  endpoints := []
  landings := []
  churns := []
  coach := CoachSt.init
  ctl := []
  service := ServiceSt.init
  mgmt := MgmtSt.init
  bus := 0

end Sys2Proof.Machine
end

