-- ==== Sys2Proof/Machine/Ops.lean ====
section
/-!
DEFINITION. The named operations over the state that every meaning is written with: registers and their fields, the
module's shape and numbering, partitions and their settings, device time, the fault log and the memory log.
-/
namespace Sys2Proof.Machine

/-! ### Registers (00 R9 to R11) -/

/-- The register at offset `a`. -/
def State.rd (s : State) (a : Nat) : W64 := find regReset s.regs a

/-- Write the register at offset `a` whole, by the device itself. -/
def State.wr (s : State) (a : Nat) (v : W64) : State := { s with regs := put regReset s.regs a v }

/-- The value of a register field. -/
def State.fd (s : State) (f : RF) : Nat := bitsOf (s.rd f.addr).toNat f.lo f.w

/-- Set a register field, modulo its width. -/
def State.setF (s : State) (f : RF) (v : Nat) : State := s.wr f.addr (setBits (s.rd f.addr) f.lo f.w v)

/-- Whether a one-bit field is set. -/
def State.on (s : State) (f : RF) : Bool := s.fd f != 0

/-- Set a one-bit field. -/
def State.raise (s : State) (f : RF) : State := s.setF f 1

/-- Add to a counter that saturates at its all-ones value. -/
def State.bump (s : State) (f : RF) (n : Nat := 1) : State :=
  if n = 0 then s else s.setF f (min (s.fd f + n) (2 ^ f.w - 1))

/-- Add to a field that wraps at its width. -/
def State.incr (s : State) (f : RF) (n : Nat := 1) : State := s.setF f (s.fd f + n)

/-! ### Time (16 R524, R525) -/

/-- `d` nanoseconds pass; device time advances once a PPS step back no longer holds it (assumption 2). -/
def State.pass (s : State) (d : Nat) : State :=
  { s with
    now := s.now + d
    time := { s.time with hold := s.time.hold - d, dev := (s.time.dev + (d - s.time.hold)) % 2 ^ 64 } }

/-- A nanosecond passes (assumption 2). -/
def tick (s : State) : State := s.pass 1

/-- The clock stands at `t` or later: an event that takes place at a time carries the clock forward to it (assumption 2). -/
def State.passTo (s : State) (t : Nat) : State := s.pass (t - s.now)

/-- The next free value (assumption 1). -/
def State.freeVal (s : State) : Nat := Config.freeNat s.free

/-- The state with one more free value taken. -/
def State.freeNext (s : State) : State := { s with free := s.free + 1 }

/-! ### The module's shape (00 R1, 01 R23 to R26) -/

/-- Physical clusters of the die. -/
def Variant.clusters : Variant → Nat | .p3 => 8 | _ => 16
/-- Arrays per core. -/
def Variant.arrays : Variant → Nat | .p3 => 2 | _ => 4
/-- Bonded SRAM per core, MiB. -/
def Variant.sliceMiB : Variant → Nat | .p3 => 16 | _ => 24
/-- LPDDR5X regions of 1 GiB for partitions. -/
def Variant.regions : Variant → Nat | .p3 => 224 | _ => 448
/-- LPDDR5X channels. -/
def Variant.channels : Variant → Nat | .p3 => 32 | _ => 64
/-- The Innkeeper reserve in units of 0.5 GiB (09 R290). -/
def Variant.reserveHalf : Variant → Nat | .p3 => 7 | _ => 14
/-- Partitions. -/
def Variant.parts : Variant → Nat | .p3 => 8 | _ => 12
/-- Coach ports. -/
def Variant.ports : Variant → Nat | .p3 => 4 | _ => 8
/-- DEV_VARIANT.VARIANT. -/
def Variant.code : Variant → Nat | .p9 => 9 | .p6 => 6 | .p3 => 3
/-- Module power limit, W. -/
def Variant.limitW : Variant → Nat | .p9 => 2400 | .p6 => 1800 | .p3 => 900
/-- Lowest settable power cap, W. -/
def Variant.capMin : Variant → Nat | .p9 => 900 | .p6 => 700 | .p3 => 400
/-- Whether the variant has Skimmers. -/
def Variant.skimmer : Variant → Bool | .p3 => false | _ => true
/-- Whether the variant has the affine weight expander. -/
def Variant.affine : Variant → Bool | .p9 => true | _ => false

/-- The running variant. -/
def State.var (s : State) : Variant := s.fuses.variant

/-- The spare position of a physical cluster in a fuse map. -/
def FuseMap.spareOf (m : FuseMap) (k : Nat) : Nat := m.spare.getD k 16

/-- Whether a fuse map records in cluster `k` a failed core other than its spare (R26). -/
def FuseMap.clusterFailed (m : FuseMap) (k : Nat) : Bool :=
  (m.failed ++ m.kind4).any fun c => c / 17 == k && c % 17 != m.spareOf k

/-- The physical clusters that run in this boot, ascending (R24, R26). -/
def State.enabled (s : State) : List Nat :=
  (List.range s.var.clusters).filter fun k => !s.fuses.disabled.testBit k && !s.latched.clusterFailed k

/-- Number of active tensor cores. -/
def State.nCores (s : State) : Nat := 16 * s.enabled.length

/-- The physical core of logical core `c` (R24). -/
def State.physCore (s : State) (c : Nat) : Nat :=
  let k := s.enabled.getD (c / 16) 0
  let r := c % 16
  17 * k + (if r < s.latched.spareOf k then r else r + 1)

/-- The logical core of physical core `c`, none for a spare or a core of a cluster that does not run (R24). -/
def State.logCore (s : State) (c : Nat) : Option Nat :=
  let k := c / 17
  let sp := s.latched.spareOf k
  let pos := c % 17
  match s.enabled.findIdx? (· == k) with
  | none => none
  | some lc => if pos = sp then none else some (16 * lc + (if pos < sp then pos else pos - 1))

/-- The physical cluster of logical core `c`. -/
def State.clusterOf (s : State) (c : Nat) : Nat := s.enabled.getD (c / 16) 0

/-- Entry of the fuse map that bypasses a row or column slot of an array (04 R115). -/
def FuseMap.skipsOf (m : FuseMap) (core arr : Nat) (col : Bool) : List Nat :=
  (m.skips.filter fun k => k.core == core && k.arr == arr && k.col == col).map (·.idx)

/-! ### Partitions and their settings (02 R52, R54, R55) -/

/-- Every partition number. -/
def allParts : List Nat := List.range 12

/-- What the block keeps for partition `p`. -/
def State.part (s : State) (p : Nat) : Part := find (fun _ => Part.init) s.parts p

/-- Replace what the block keeps for partition `p`. -/
def State.setPart (s : State) (p : Nat) (x : Part) : State := { s with parts := ins s.parts p x }

/-- Change what the block keeps for partition `p`. -/
def State.modPart (s : State) (p : Nat) (f : Part → Part) : State := s.setPart p (f (s.part p))

/-- Whether the loaded image defines partition `p`. -/
def State.defined (s : State) (p : Nat) : Bool := (s.part p).cfg.isSome

/-- The payload of the PARTITION section in force for `p`; empty when the image defines no such partition. -/
def State.cfgB (s : State) (p : Nat) : Bytes := match (s.part p).cfg with
  | some c => c.part
  | none => []

/-- A field of the settings in force for partition `p`: `n` bytes at `off` of the PARTITION payload (R52). -/
def State.cfg (s : State) (p off n : Nat) : Nat := fieldAt (s.cfgB p) off n

/-- JOB_ID in force (R52). -/
def State.jobId (s : State) (p : Nat) : Nat := s.cfg p 4 4
/-- CORES bitmap in force. -/
def State.coresBits (s : State) (p : Nat) : Nat := s.cfg p 8 32
/-- The logical cores of partition `p`, ascending. -/
def State.coresOf (s : State) (p : Nat) : List Nat := onesOf 256 (s.coresBits p)
/-- The logical control cores of partition `p`, ascending. -/
def State.ctlOf (s : State) (p : Nat) : List Nat := onesOf 32 (s.cfg p 40 4)
/-- LPDDR_REGIONS bitmap in force. -/
def State.regionBits (s : State) (p : Nat) : Nat := s.cfg p 48 64
/-- SRAM_STAGE in bytes. -/
def State.stageBytes (s : State) (p : Nat) : Nat := 1048576 * s.cfg p 112 1
/-- SRAM_WCACHE in bytes. -/
def State.wcacheBytes (s : State) (p : Nat) : Nat := 1048576 * s.cfg p 113 1
/-- INFLIGHT_QUOTA. -/
def State.inflightQuota (s : State) (p : Nat) : Nat := s.cfg p 126 2
/-- A field of the settings in force at time `t`: a reload acts on periods that start after it (02 R65). -/
def State.cfgSince (s : State) (p t off n : Nat) : Nat :=
  fieldAt ((s.part p).past.foldl (fun b e => if t < e.1 then e.2.part else b) (s.cfgB p)) off n
/-- DRAIN_TIMEOUT_MS of a period begun at time `t`. -/
def State.drainMs (s : State) (p t : Nat) : Nat := s.cfgSince p t 176 4
/-- CC_WDOG_MS of a period begun at time `t`. -/
def State.ccWdogMs (s : State) (p t : Nat) : Nat := s.cfgSince p t 180 4

/-- The partition that owns logical core `c`, if any. -/
def State.coreOwner (s : State) (c : Nat) : Option Nat := allParts.find? fun p => (s.coresBits p).testBit c

/-- The partition that owns logical control core `n`, if any. -/
def State.ctlOwner (s : State) (n : Nat) : Option Nat := allParts.find? fun p => (s.cfg p 40 4).testBit n

/-- The partition that owns LPDDR5X region `g`, if any. -/
def State.regionOwner (s : State) (g : Nat) : Option Nat := allParts.find? fun p => (s.regionBits p).testBit g

/-- Bit `b` of HOST_CLOSED for partition `p`: DSP, LDG, CHN, ADP (R52). -/
def State.hostClosed (s : State) (p b : Nat) : Bool := (s.cfg p 1 1).testBit b

/-- The state of a partition as FLT_PART_p reports it (17 R538): 0 IDLE, 1 RUNNING, 2 STOPPING, 3 RESETTING. -/
def State.pstate (s : State) (p : Nat) : Nat := s.fd (Rg.FLT_PART_STATE p)

/-- The stages of device sequences that a partition may be in when work of it goes on: it is not STOPPING and not
RESETTING. -/
def State.live (s : State) (p : Nat) : Bool := s.defined p && s.pstate p < 2

/-! ### Cores, clusters, control cores -/

/-- Physical core `c`. -/
def State.core (s : State) (c : Nat) : Core := find (fun _ => Core.init) s.cores c
/-- Change physical core `c`. -/
def State.modCore (s : State) (c : Nat) (f : Core → Core) : State := { s with cores := ins s.cores c (f (s.core c)) }
/-- Physical cluster `k`. -/
def State.cluster (s : State) (k : Nat) : Cluster := find (fun _ => Cluster.init) s.clusters k
/-- Change physical cluster `k`. -/
def State.modCluster (s : State) (k : Nat) (f : Cluster → Cluster) : State :=
  { s with clusters := ins s.clusters k (f (s.cluster k)) }
/-- Logical control core `n`. -/
def State.ctlCore (s : State) (n : Nat) : CtlCore := find (fun _ => CtlCore.init) s.ctl n
/-- Change logical control core `n`. -/
def State.modCtl (s : State) (n : Nat) (f : CtlCore → CtlCore) : State := { s with ctl := ins s.ctl n (f (s.ctlCore n)) }

/-! ### The fault log (17 R551, R552) -/

/-- Append an entry to the 256-entry fault log and set FLT_IRQ.LOGGED; when the log is full the entry is lost and
OVERFLOW is set (R551). `follows` is the FOLLOWS bit. -/
def State.fltAdd (s : State) (cls cause part owner fid : Nat) (follows : Bool) (detail : Nat) : State :=
  if s.fltLog.length < 256 then
    State.raise { s with fltLog := s.fltLog ++ [FltEntry.mk (cls % 256 + (cause % 256) * 2 ^ 8 + (part % 16) * 2 ^ 16 + (owner % 16) * 2 ^ 20 +
        (fid % 2 ^ 32) * 2 ^ 24 + b2n follows * 2 ^ 56 + 2 ^ 63) (detail % 2 ^ 64) s.time.dev] } Rg.FLT_IRQ_LOGGED
  else s.raise Rg.FLT_LOG_STATUS_OVERFLOW

/-- Log an access that failed its check, class ISOLATION (02 R69, 17 R551). -/
def State.isolation (s : State) (part owner kind index : Nat) : State :=
  s.fltAdd 2 0 part owner 0 false ((kind % 16) * 2 ^ 60 + index % 2 ^ 48)

/-! ### The memory log (09 R309 to R311) -/

/-- Append an entry to the 64-entry memory log: source, class of the outcome, tag (R311); a logged uncorrectable entry raises
Innkeeper's memory interrupt (R310). -/
def State.memAdd (s : State) (addr src cls tag : Nat) (sram : Bool) : State :=
  if s.memLog.length < 64 then
    let s := if cls = 5 then s.raise Rg.MEM_LOG_STATUS_UNCORR_IRQ else s
    { s with memLog := s.memLog ++ [MemEntry.mk (addr % 2 ^ 48 + (src % 8) * 2 ^ 48 + b2n sram * 2 ^ 51 + (cls % 16) * 2 ^ 52 +
        (tag % 16) * 2 ^ 56 + 2 ^ 63) s.time.dev] }
  else s.raise Rg.MEM_LOG_STATUS_OVERFLOW

/-! ### Tasks in flight (10 R317) -/

/-- The task with number `t`. -/
def State.task? (s : State) (t : Nat) : Option Task := s.tasks.find? fun k => k.id == t

/-- Change the task with number `t`. -/
def State.modTask (s : State) (t : Nat) (f : Task → Task) : State :=
  { s with tasks := s.tasks.map fun k => if k.id == t then f k else k }

/-- The tasks of partition `p` in flight. -/
def State.tasksOf (s : State) (p : Nat) : List Task := s.tasks.filter fun k => k.part == p

/-- Let a status apply to task `t` (R15), with sub-code bits (R14). -/
def State.taskStatus (s : State) (t st sub : Nat) : State :=
  s.modTask t fun k => { k with status := statusMax k.status st, sub := k.sub ||| sub }

end Sys2Proof.Machine
end

