-- ==== Sys2Proof/Machine/Mem.lean ====
section
/-!
DEFINITION. Device memory: the address map and its checks (09_memory.md R290, R291; 02_fabric_image.md R67 to R69), the
burst code and poison (R295 to R298), the requests waiting at the controllers (R299, R300), and the host-memory window
over the Larric link (14_larric_link.md R470, R475, R476).
-/
namespace Sys2Proof.Machine

/-! ### Bytes in a sparse memory -/

/-- What a byte of memory that nothing has written reads as (assumptions 5 and 6). -/
def unwritten (_ : Nat) : Byte := 0

/-- `n` bytes of a sparse memory from `a`. -/
def readBytes (m : List Host.Cell) (a n : Nat) : Bytes :=
  let w := m.filter fun c => a ≤ c.1 && c.1 < a + n
  (List.range n).map fun i => find unwritten w (a + i)

/-- The cells that hold `bs` from `a` on, without those an unlisted address already reads as. -/
def cellsOf : Nat → Bytes → List Host.Cell
  | _, [] => []
  | a, b :: t => if b = unwritten a then cellsOf (a + 1) t else (a, b) :: cellsOf (a + 1) t

/-- Write `bs` from `a` into a sparse memory, keeping its canonical form. -/
def putBytes (m : List Host.Cell) (a : Nat) (bs : Bytes) : List Host.Cell :=
  (m.filter fun c => c.1 < a) ++ cellsOf a bs ++ m.filter fun c => a + bs.length ≤ c.1

/-- The canonical form of a memory: addresses strictly rising, no cell equal to what an unlisted address reads as. -/
abbrev Memory.wf (m : List Host.Cell) : Prop := Canon unwritten m

/-! ### Larric messages from the module (14 R470, R471) -/

/-- The bytes of a message: its 16-byte header and its data (R470). -/
def Msg.bytes (m : Msg) : Bytes :=
  mkRec 16 [(0, 1, m.mtype), (1, 1, m.tag), (2, 1, m.part % 16), (3, 1, m.status), (4, 4, m.len), (8, 8, m.addr)] ++ m.data

/-- Queue a message on virtual channel `vc` (R468, R469). -/
def State.sendMsg (s : State) (vc : Nat) (m : Msg) : State :=
  { s with larric := { s.larric with
      txq := ins s.larric.txq vc (find (fun _ => []) s.larric.txq vc ++ [m.bytes]) } }

/-- Whether the link is ACTIVE (R462). -/
def State.lrlActive (s : State) : Bool := s.fd Rg.LRL_STATUS_STATE == 4

/-- The pieces of an access of at most 4,096 bytes that cross no 4 KiB boundary (R471): (address, bytes). -/
def pieces4k (a n : Nat) : List (Nat × Nat) :=
  if n = 0 then []
  else (List.range ((a + n - 1) / 4096 - a / 4096 + 1)).map fun i =>
    let lo := if i = 0 then a else (a / 4096 + i) * 4096
    let hi := min (a + n) ((a / 4096 + i + 1) * 4096)
    (lo, hi - lo)

/-- Issue a device MEM_RD of one piece of the window with the lowest free tag (R475, R476); `h` is the host address.
With no tag free the read takes none (assumption 8). -/
def State.issueRead (s : State) (part h n : Nat) : State :=
  match (List.range 256).find? fun t => s.larric.tags.all fun o => o.tag != t with
  | none => s
  | some t =>
    State.sendMsg { s with larric := { s.larric with tags := s.larric.tags ++ [⟨t, part, h, n, s.now⟩] } } 2
      ⟨0x10, t, part, 0, n, h, []⟩

/-! ### The address map (09 R290, R291) -/

/-- What a device address names. -/
inductive Place
  | region (g : Nat)
  | reserve
  | slice (c off : Nat)
  | window (h : Nat)
  | bad
deriving DecidableEq, Repr

/-- First address of the Innkeeper reserve. -/
def reserveBase : Nat := 0x0100_0000_0000
/-- First address of the bonded-SRAM slices. -/
def sliceBase : Nat := 0x0200_0000_0000
/-- First address of the host-memory window. -/
def windowBase : Nat := 0x8000_0000_0000

/-- The place of device address `a` (R290); device addresses have 48 bits (assumption 9). -/
def State.place (s : State) (a : Nat) : Place :=
  if a < 2 ^ 30 * s.var.regions then .region (a / 2 ^ 30)
  else if reserveBase ≤ a && a < reserveBase + 2 ^ 29 * s.var.reserveHalf then .reserve
  else if sliceBase ≤ a && a < windowBase then
    let c := (a - sliceBase) / 0x0200_0000
    let off := (a - sliceBase) % 0x0200_0000
    if c < s.nCores && off < 2 ^ 20 * s.var.sliceMiB then .slice c off else .bad
  else if windowBase ≤ a && a < 2 ^ 48 then .window (a - windowBase)
  else .bad

/-- The partition that owns what address `a` reaches, 0xF for none (R69). -/
def State.ownerAt (s : State) (a : Nat) : Nat := match s.place a with
  | .region g => (s.regionOwner g).getD 15
  | .slice c _ => (s.coreOwner c).getD 15
  | _ => 15

/-- The LPDDR5X regions of partition `p`, ascending. -/
def State.regionsOf (s : State) (p : Nat) : List Nat := onesOf 448 (s.regionBits p)

/-- The frame number of the `k`-th frame of partition `p`'s LPDDR5X space, regions ascending (08 R264). -/
def State.frameAt (s : State) (p k : Nat) : Nat := 32768 * (s.regionsOf p).getD (k / 32768) 0 + k % 32768

/-- Whether address `a` lies in the frame area of partition `p`: the last frames of its LPDDR5X space (08 R264). -/
def State.inFrameArea (s : State) (p a : Nat) : Bool :=
  let rs := s.regionsOf p
  match rs.findIdx? (· == a / 2 ^ 30) with
  | none => false
  | some i => 32768 * rs.length - (s.part p).pageN ≤ 32768 * i + a % 2 ^ 30 / 32768

/-- Whether tag `tag` may reach address `a` (R67, R68, R290, R291, R475); a partition's own frame area is not reached by device address (08 R265). -/
def State.mayReach (s : State) (tag a : Nat) : Bool := match s.place a with
  | .bad => false
  | .region g => tag == 15 || (s.regionOwner g == some tag && !s.inFrameArea tag a)
  | .reserve => tag == 15
  | .slice c off =>
    tag == 15 || (s.coreOwner c == some tag &&
      (off < s.stageBytes tag || s.stageBytes tag + s.wcacheBytes tag ≤ off))
  | .window _ =>
    tag == 15 || (tag < 12 && (s.rd (Rg.LRL_HWIN_BASE tag)).toNat ≤ a && a < (s.rd (Rg.LRL_HWIN_LIMIT tag)).toNat)

/-- The addresses at which an access of `n` bytes is checked: its first and last byte and every 4 KiB boundary. -/
def checkPoints (a n : Nat) : List Nat :=
  if n = 0 then [] else (pieces4k a n).map (·.1) ++ [a + n - 1]

/-- The first checked address of an access that `tag` may not reach. -/
def State.badPoint (s : State) (tag a n : Nat) : Option Nat := (checkPoints a n).find? fun x => !s.mayReach tag x

/-! ### The page table (08 R262 to R264) -/

/-- Page-table entry `i`. -/
def State.page (s : State) (i : Nat) : Page := find (fun _ => Page.free) s.pages i

/-- STATE as the function of the counts that R263 gives: 0 FREE, 1 ACTIVE, 2 SHARED, 3 EXPORTING, 4 RECLAIM. -/
def Page.state (x : Page) : Nat :=
  if x.ref = 0 then (if x.pin = 0 && x.exp == 0 then 0 else 4)
  else if x.exp ≠ 0 then 3 else if 2 ≤ x.ref then 2 else 1

/-- The partition to which entry `i` is bound (R264). -/
def State.pageOwner (s : State) (i : Nat) : Option Nat :=
  allParts.find? fun p => (s.part p).pageBase ≤ i && i < (s.part p).pageBase + (s.part p).pageN

/-- The frame number of entry `i` of partition `p`: the entries of a partition's range take the frames of its frame area
in order (R264, assumption 11). -/
def State.frameOf (s : State) (p i : Nat) : Nat :=
  let x := s.part p
  s.frameAt p (32768 * (s.regionsOf p).length - x.pageN + (i - x.pageBase))

/-- The two words of entry `i` (R262). -/
def State.pageWords (s : State) (i : Nat) : Nat × Nat :=
  let x := s.page i
  let p := s.pageOwner i
  let w0 := match p with
    | some q => s.frameOf q i % 2 ^ 26 + x.state * 2 ^ 26 + q * 2 ^ 29 + (x.fmt % 16) * 2 ^ 33 + (x.fill % 128) * 2 ^ 37 +
        (x.ref % 2 ^ 16) * 2 ^ 44
    | none => 0
  (w0, x.pin % 2 ^ 12 + (x.score % 2 ^ 16) * 2 ^ 12 + (x.dim % 8) * 2 ^ 28 + (x.half % 2) * 2 ^ 31 + (x.exp % 16) * 2 ^ 32 +
    b2n x.poison * 2 ^ 36 + b2n x.newBy.isSome * 2 ^ 37)

/-- Whether line `l` lies in the page table, 256 MiB at the start of the reserve (R290). -/
def tableLine (l : Nat) : Bool := reserveBase ≤ l * 64 && l * 64 < reserveBase + 2 ^ 28

/-- What line `l` of the page table holds: its four entries as they stand. -/
def State.tableBytes (s : State) (l : Nat) : Bytes :=
  (List.range 4).flatMap fun j => let w := s.pageWords ((l * 64 - reserveBase) / 16 + j); toLe 8 w.1 ++ toLe 8 w.2

/-! ### The burst code and poison (R295 to R298) -/

/-- The poison syndrome (R297): that of a pattern at distance 8 from every codeword, since any 8 columns of the extended code are
independent and this multiple of one is of none of the 72 in use (assumption 114). -/
def poisonSynds : List Nat :=
  let f := Config.poisonFactor % 255 + 1
  let i := Config.poisonPoint % 185
  (List.range 8).map fun j =>
    if i < 183 then gfMul f (gfAlpha (j * (72 + i))) else if j = (if i = 183 then 0 else 7) then f else 0

/-- The sum of two syndromes. -/
def addSynds (a b : List Nat) : List Nat := List.zipWith (fun x y => x ^^^ y) a b

/-- Data bytes of a line with an error exclusive-or'd in; errors on check bytes leave the data. -/
def xorSyms (d : Bytes) (e : List (Nat × Nat)) : Bytes :=
  e.foldl (fun d p => d.modify p.1 fun b => b ^^^ BitVec.ofNat 8 p.2) d

/-- The error symbols standing in line `l`. -/
def State.flipsOf (s : State) (l : Nat) : List (Nat × Nat) := (s.ecc.flips.filter fun f => f.1 == l).map (·.2)

/-- Decode line `l` (R297): the class of R311 (0 good, 1 to 4 symbols corrected, 5 uncorrectable, 6 poisoned,
7 poisoned and corrected) and the data returned. -/
def State.decodeLine (s : State) (l : Nat) : Nat × Bytes :=
  let base := readBytes s.mem (l * 64) 64
  let bad := s.ecc.poison.contains l
  match s.flipsOf l with
  | [] => (if bad then 6 else 0, base)
  | fl =>
    let recv := xorSyms base fl
    let syn := if bad then addSynds (rsSynds fl) poisonSynds else rsSynds fl
    match rsDecode syn with
    | some [] => (0, recv)
    | some e => (e.length, xorSyms recv e)
    | none =>
      match rsDecode (addSynds syn poisonSynds) with
      | some e => if e.length ≤ 3 then (if e.isEmpty then 6 else 7, xorSyms recv e) else (5, recv)
      | none => (5, recv)

/-- Whether line `l` lies in bonded SRAM. -/
def lineSram (l : Nat) : Bool := sliceBase ≤ l * 64

/-- The controller of the channel that holds LPDDR5X line `l` (R294). -/
def State.channelOf (s : State) (l : Nat) : Nat := (l / 8) % s.var.channels

/-- The physical core whose slice holds SRAM line `l`. -/
def State.sliceCore (s : State) (l : Nat) : Nat := s.physCore ((l * 64 - sliceBase) / 0x0200_0000)

/-- Count, log and queue for repair what a decode found (R302, R309, R311, R315, R316); `src` is the log's SOURCE. -/
def State.noteLine (s : State) (tag src l c : Nat) : State :=
  if c = 0 then s
  else
    let sram := lineSram l
    let corr := (1 ≤ c && c ≤ 4) || c == 7
    let pois := c == 6 || c == 7
    let s := if corr then (s.bump Rg.MEM_ERR_COUNT_CORRECTED).bump
        (if sram then Rg.CORE_SRAM_ECC_CORRECTED (s.sliceCore l) else Rg.MEM_CH_ECC_CORRECTED (s.channelOf l)) else s
    let s := if c = 5 then (s.bump Rg.MEM_ERR_COUNT_UNCORR).bump
        (if sram then Rg.CORE_SRAM_ECC_UNCORR (s.sliceCore l) else Rg.MEM_CH_ECC_UNCORR (s.channelOf l)) else s
    let s := if pois then
        let s := if src = 0 then s.bump Rg.MEM_ERR_COUNT_POISON_READ else s
        if sram then s.bump (Rg.CORE_SRAM_ECC_POISON_READ (s.sliceCore l)) else s else s
    let s := s.memAdd (l * 64) src c tag sram
    let s := if c = 5 && src == 0 then s.fltAdd 3 0x30 tag 15 0 false (l * 64) else s
    if c != 6 && src == 0 && s.ecc.repairQ.all (fun r => r.line != l) then
      { s with ecc := { s.ecc with repairQ := s.ecc.repairQ ++ [⟨l, c == 5 || c == 7⟩] } }
    else s

/-- A whole line is written, poisoned or not: its errors go, and a repair queued for it is cancelled (R298, R302). -/
def State.settleLine (s : State) (l : Nat) (bad : Bool) : State :=
  { s with
    ecc := { s.ecc with
      poison := if bad then (if s.ecc.poison.contains l then s.ecc.poison else s.ecc.poison ++ [l])
        else s.ecc.poison.filter (· != l)
      flips := s.ecc.flips.filter fun f => f.1 != l
      repairQ := s.ecc.repairQ.filter fun r => r.line != l } }

/-- Store a whole line: its data, poisoned or not (R298). -/
def State.storeLine (s : State) (l : Nat) (d : Bytes) (bad : Bool) : State :=
  State.settleLine { s with mem := putBytes s.mem (l * 64) d } l bad

/-! ### Controllers (R299, R300) -/

/-- Controller `n`. -/
def State.memCtl (s : State) (n : Nat) : MemCtl := find (fun _ => MemCtl.init) s.ecc.ctls n

/-- Change controller `n`. -/
def State.modMemCtl (s : State) (n : Nat) (f : MemCtl → MemCtl) : State :=
  { s with ecc := { s.ecc with ctls := ins s.ecc.ctls n (f (s.memCtl n)) } }

/-- Requests of key `k` (3 × partition + class) waiting at a controller. -/
def MemCtl.reqOf (c : MemCtl) (k : Nat) : ReqCount := find (fun _ => ReqCount.mk 0 0) c.req k

/-- Reads waiting at a controller (RQ_LEVEL). -/
def MemCtl.reads (c : MemCtl) : Nat := c.req.foldl (fun n e => n + e.2.rd) 0

/-- Writes waiting at a controller (WQ_LEVEL). -/
def MemCtl.writes (c : MemCtl) : Nat := c.req.foldl (fun n e => n + e.2.wr) 0

/-- The slot counter of a class (R314). -/
def slotCounter (n cls : Nat) : RF :=
  if cls = 0 then Rg.MEM_CH_SLOTS_READ_SLOTS n else if cls = 1 then Rg.MEM_CH_SLOTS_WRITE_SLOTS n
  else Rg.MEM_CH_SLOTS_REMOTE_SLOTS n

/-- A request of `tag` and class `cls` for LPDDR5X line `l` joins its controller's read or write queue. A queue holds
64; a request that finds it full has its slot within the command (assumption 10). -/
def State.addReq (s : State) (tag cls l : Nat) (write : Bool) : State :=
  if lineSram l then s
  else
    let n := s.channelOf l
    let c := s.memCtl n
    let k := 3 * tag + cls
    let r := c.reqOf k
    if write then
      if c.writes < 64 then s.modMemCtl n fun c => { c with req := ins c.req k { r with wr := r.wr + 1 } }
      else s.bump (slotCounter n cls)
    else
      if c.reads < 64 then s.modMemCtl n fun c => { c with req := ins c.req k { r with rd := r.rd + 1 } }
      else s.bump (slotCounter n cls)

/-! ### Reads and writes by device address -/

/-- What a read answers: the data, a code (0 performed, 1 failed its check, 2 an uncorrectable codeword, 3 the window
could not be reached), the poisoned lines met, and the state after it. -/
structure MemRd where
  data : Bytes
  code : Nat
  poison : List Nat
  st : State
deriving DecidableEq, Repr

/-- What a write answers: a code as for a read, and the state after it. -/
structure MemWr where
  code : Nat
  st : State
deriving DecidableEq, Repr

/-- The lines that an access touches. -/
def linesOf (a n : Nat) : List Nat :=
  if n = 0 then [] else (List.range ((a + n - 1) / 64 - a / 64 + 1)).map fun i => a / 64 + i

/-- Read one line for an access of class `cls`, adding to what the access has gathered; a line of the page table reads as its entries
stand (R290). -/
def readLineInto (tag cls : Nat) (r : MemRd) (l : Nat) : MemRd :=
  let x := r.st.decodeLine l
  { data := r.data ++ if tableLine l then r.st.tableBytes l else x.2
    code := if x.1 = 5 then 2 else r.code
    poison := if x.1 = 6 || x.1 = 7 then r.poison ++ [l] else r.poison
    st := (r.st.noteLine tag 0 l x.1).addReq tag cls l false }

/-- Read `n` bytes of bonded SRAM or LPDDR5X at `a`, unchecked. -/
def State.ramRead (s : State) (tag cls a n : Nat) : MemRd :=
  let r := (linesOf a n).foldl (readLineInto tag cls) ⟨[], 0, [], s⟩
  { r with data := (r.data.drop (a % 64)).take n }

/-- Write into one line the bytes of `bs` (at `a`) that fall into it: a whole line is stored; a part is merged (R296). -/
def State.writeLine (s : State) (tag cls a : Nat) (bs : Bytes) (bad : Bool) (l : Nat) : State :=
  let lo := max a (l * 64)
  let hi := min (a + bs.length) (l * 64 + 64)
  let piece := (bs.drop (lo - a)).take (hi - lo)
  if hi - lo = 64 then (s.storeLine l piece bad).addReq tag cls l true
  else
    let x := s.decodeLine l
    let s := s.noteLine tag 2 l x.1
    let s := if lineSram l then s else s.bump (Rg.MEM_CH_ECC_RMW (s.channelOf l))
    let d := x.2.take (lo - l * 64) ++ piece ++ x.2.drop (hi - l * 64)
    ((s.storeLine l d (bad || 5 ≤ x.1)).addReq tag 1 l false).addReq tag 1 l true

/-- Write bytes to bonded SRAM or LPDDR5X at `a`, unchecked; poisoned if `bad`. -/
def State.ramWrite (s : State) (tag cls a : Nat) (bs : Bytes) (bad : Bool) : State :=
  (linesOf a bs.length).foldl (fun s l => s.writeLine tag cls a bs bad l) s

/-- Read `n` bytes of the host-memory window at device address `a` (14 R475, R476, R479): the bytes are what host memory
holds now, and a MEM_RD stands outstanding for each piece (assumption 8). -/
def State.winRead (s : State) (tag a n : Nat) : MemRd :=
  if s.lrlActive then
    let h := a - windowBase
    ⟨readBytes s.hostMem h n, 0, [], (pieces4k h n).foldl (fun s x => s.issueRead tag x.1 x.2) s⟩
  else ⟨List.replicate n 0, 3, [], s.fltAdd 11 0x30 tag 15 0 false a⟩

/-- Write to the host-memory window: MEM_WR messages on channel `vc` (14 R476). -/
def State.winWrite (s : State) (tag vc a : Nat) (bs : Bytes) : MemWr :=
  if s.lrlActive then
    let h := a - windowBase
    let s := { s with hostMem := putBytes s.hostMem h bs }
    ⟨0, (pieces4k h bs.length).foldl (fun s x =>
      s.sendMsg vc ⟨0x11, 0, tag, 0, x.2, x.1, (bs.drop (x.1 - h)).take x.2⟩) s⟩
  else ⟨3, s.fltAdd 11 0x30 tag 15 0 false a⟩

/-- A checked read by `tag`, class `cls` (0 read, 1 write, 2 remote): a read that fails its check returns zero and is
logged (R69). -/
def State.devRead (s : State) (tag cls a n : Nat) : MemRd :=
  match s.badPoint tag a n with
  | some b => ⟨List.replicate n 0, 1, [], s.isolation tag (s.ownerAt b) 0 b⟩
  | none => if windowBase ≤ a then s.winRead tag a n else s.ramRead tag cls a n

/-- A checked write by `tag`: a write that fails its check is dropped and logged (R69). `vc` is the Larric channel of a
write to the window. -/
def State.devWriteOn (s : State) (tag cls vc a : Nat) (bs : Bytes) (bad : Bool) : MemWr :=
  match s.badPoint tag a bs.length with
  | some b => ⟨1, s.isolation tag (s.ownerAt b) 0 b⟩
  | none => if windowBase ≤ a then s.winWrite tag vc a bs else ⟨0, s.ramWrite tag cls a bs bad⟩

/-- A checked write of data. -/
def State.devWrite (s : State) (tag cls a : Nat) (bs : Bytes) (bad : Bool := false) : MemWr :=
  s.devWriteOn tag cls 2 a bs bad

/-- A checked write of a completion, callback or result record (R476: result traffic on channel 3). -/
def State.recWrite (s : State) (tag a : Nat) (bs : Bytes) : MemWr := s.devWriteOn tag 2 3 a bs false

end Sys2Proof.Machine
end

