-- ==== Sys2Proof/Machine/Operands.lean ====
section
/-!
DEFINITION. Operand forms: the number formats, their exact values, roundings and conversions, block scales and weight
expansion, and the vector unit's arithmetic (03_number_formats.md).
-/
namespace Sys2Proof.Machine

/-! ### Values -/

/-- A value: NaN, an infinity, or (-1)^neg × m × 2^e, exact; zero keeps its sign (R79, R89). -/
inductive Num
  | nan
  | inf (neg : Bool)
  | fin (neg : Bool) (m : Nat) (e : Int)
deriving DecidableEq, Repr

/-- +0. -/
def Num.zero : Num := .fin false 0 0
/-- 1. -/
def Num.one : Num := .fin false 1 0
/-- An integer's value. -/
def Num.ofInt (i : Int) : Num := .fin (i < 0) i.natAbs 0
/-- Whether the value is a NaN. -/
def Num.isNan : Num → Bool | .nan => true | _ => false
/-- Whether the value is a NaN or an infinity. -/
def Num.special : Num → Bool | .fin .. => false | _ => true
/-- Whether the value is a zero. -/
def Num.isZero : Num → Bool | .fin _ m _ => m == 0 | _ => false
/-- Sign change. -/
def Num.negate : Num → Num | .nan => .nan | .inf n => .inf (!n) | .fin n m e => .fin (!n) m e
/-- Magnitude. -/
def Num.mag : Num → Num | .nan => .nan | .inf _ => .inf false | .fin _ m e => .fin false m e

/-- The signed integer significand of a finite value brought to exponent `e0 ≤ e`. -/
def Num.scaled (neg : Bool) (m : Nat) (e e0 : Int) : Int :=
  let x : Int := (m <<< (e - e0).toNat : Nat)
  if neg then -x else x

/-- Exact sum (R89): ∞ - ∞ is NaN; a zero sum is -0 only of two -0. -/
def Num.add : Num → Num → Num
  | .nan, _ => .nan
  | _, .nan => .nan
  | .inf a, .inf b => if a = b then .inf a else .nan
  | .inf a, _ => .inf a
  | _, .inf b => .inf b
  | .fin a m e, .fin b k f =>
    let e0 := min e f
    let x := Num.scaled a m e e0 + Num.scaled b k f e0
    if x = 0 then .fin (a && b) 0 0 else .fin (x < 0) x.natAbs e0

/-- Exact product (R89): 0 × ∞ is NaN. -/
def Num.mul : Num → Num → Num
  | .nan, _ => .nan
  | _, .nan => .nan
  | .inf a, .inf b => .inf (a != b)
  | .inf a, .fin b m _ => if m = 0 then .nan else .inf (a != b)
  | .fin a m _, .inf b => if m = 0 then .nan else .inf (a != b)
  | .fin a m e, .fin b k f => .fin (a != b) (m * k) (e + f)

/-- Exact difference. -/
def Num.sub (a b : Num) : Num := a.add b.negate

/-- a < b, false with a NaN; the zeros are equal. -/
def Num.lt (a b : Num) : Bool := match a, b with
  | .nan, _ => false
  | _, .nan => false
  | .inf x, .inf y => x && !y
  | .inf x, _ => x
  | _, .inf y => !y
  | .fin x m e, .fin y k f => let e0 := min e f; Num.scaled x m e e0 < Num.scaled y k f e0

/-- a = b as numbers, false with a NaN. -/
def Num.eqv (a b : Num) : Bool := !a.isNan && !b.isNan && !a.lt b && !b.lt a

/-- A value times a power of two, exact. -/
def Num.shift (a : Num) (k : Int) : Num := match a with
  | .fin n m e => .fin n m (e + k)
  | x => x

/-! ### Floating-point encodings (R79 to R88) -/

/-- A float format: mantissa bits, bias, width, largest finite magnitude as bits, and what overflow writes. -/
structure FloatFmt where
  mb : Nat
  bias : Nat
  width : Nat
  maxFin : Nat
  ovr : Nat
  nan : Nat
deriving DecidableEq, Repr

/-- IEEE binary32. -/
def fp32 : FloatFmt := ⟨23, 127, 32, 0x7F7F_FFFF, 0x7F80_0000, 0x7FC0_0000⟩
/-- BF16. -/
def bf16 : FloatFmt := ⟨7, 127, 16, 0x7F7F, 0x7F80, 0x7FC0⟩
/-- E4M3: saturates at 448 (R87). -/
def e4m3 : FloatFmt := ⟨3, 7, 8, 0x7E, 0x7E, 0x7F⟩
/-- E5M2. -/
def e5m2 : FloatFmt := ⟨2, 15, 8, 0x7B, 0x7C, 0x7E⟩

/-- Conversion events: TERN2 codes 0b11 read, saturations, overflows to infinity, NaNs written (R113). -/
structure FmtEv where
  tern : Nat
  sat : Nat
  ovf : Nat
  nan : Nat
deriving DecidableEq, Repr

/-- No event. -/
def FmtEv.none : FmtEv := ⟨0, 0, 0, 0⟩
/-- The events of two conversions. -/
def FmtEv.add (a b : FmtEv) : FmtEv := ⟨a.tern + b.tern, a.sat + b.sat, a.ovf + b.ovf, a.nan + b.nan⟩

/-- The events of a conversion that writes no output: a NaN is not counted (R113). -/
def FmtEv.quiet (a : FmtEv) : FmtEv := { a with nan := 0 }

/-- `m` × 2^-k rounded to nearest, ties to even (R85). -/
def rneShift (m k : Nat) : Nat :=
  let q := m >>> k
  let r := m % 2 ^ k
  let half := 2 ^ k / 2
  if k = 0 then m else if r > half || (r == half && q % 2 == 1) then q + 1 else q

/-- The magnitude bits of m × 2^e in a float format before the overflow check (R85, R86). -/
def FloatFmt.magBits (f : FloatFmt) (m : Nat) (e : Int) : Nat :=
  if m = 0 then 0
  else
    let top : Int := e + Nat.log2 m
    let emin : Int := 1 - f.bias
    let q : Int := max top emin - f.mb
    let qmin : Int := emin - f.mb
    let m' := if q ≤ e then m <<< (e - q).toNat else rneShift m (q - e).toNat
    (q - qmin).toNat * 2 ^ f.mb + m'

/-- Encode a value (R80, R85 to R88), with the events of the conversion. -/
def FloatFmt.encode (f : FloatFmt) (x : Num) : Nat × FmtEv := match x with
  | .nan => (f.nan, ⟨0, 0, 0, 1⟩)
  | .inf n => (f.ovr + b2n n * 2 ^ (f.width - 1), if f.ovr = f.maxFin then ⟨0, 1, 0, 0⟩ else FmtEv.none)
  | .fin n m e =>
    let b := f.magBits m e
    let s := b2n n * 2 ^ (f.width - 1)
    if b ≤ f.maxFin then (b + s, FmtEv.none)
    else (f.ovr + s, if f.ovr = f.maxFin then ⟨0, 1, 0, 0⟩ else ⟨0, 0, 1, 0⟩)

/-- Decode bits (R79). -/
def FloatFmt.decode (f : FloatFmt) (x : Nat) : Num :=
  let neg := x.testBit (f.width - 1)
  let mag := x % 2 ^ (f.width - 1)
  let ex := mag / 2 ^ f.mb
  let man := mag % 2 ^ f.mb
  if mag ≤ f.maxFin then
    if ex = 0 then .fin neg man (1 - (f.bias : Int) - f.mb) else .fin neg (2 ^ f.mb + man) ((ex : Int) - f.bias - f.mb)
  else if mag = f.ovr then .inf neg
  else .nan

/-- A value rounded to FP32. -/
def rnd32 (x : Num) : Num := fp32.decode (fp32.encode x).1
/-- A value rounded to BF16. -/
def rnd16 (x : Num) : Num := bf16.decode (bf16.encode x).1
/-- A value rounded to BF16, with the event of the conversion (R88, R94). -/
def rnd16Ev (x : Num) : Num × FmtEv := let e := bf16.encode x; (bf16.decode e.1, e.2.quiet)
/-- The FP32 bits of a value. -/
def bits32 (x : Num) : Nat := (fp32.encode x).1
/-- The value of FP32 bits. -/
def num32 (x : Nat) : Num := fp32.decode (x % 2 ^ 32)
/-- FP32 sum, one rounding. -/
def add32 (a b : Num) : Num := rnd32 (a.add b)
/-- FP32 product, one rounding. -/
def mul32 (a b : Num) : Num := rnd32 (a.mul b)
/-- Whether a value is a negative zero. -/
def Num.negZero : Num → Bool | .fin n m _ => n && m == 0 | _ => false
/-- The larger of two values, +0 above -0; a NaN if either is one (R89). -/
def Num.maxN (a b : Num) : Num := if a.isNan || b.isNan then .nan else if a.lt b || (a.negZero && b.isZero) then b else a
/-- The smaller of two values, -0 below +0; a NaN if either is one. -/
def Num.minN (a b : Num) : Num := if a.isNan || b.isNan then .nan else if b.lt a || (b.negZero && a.isZero) then b else a

/-! ### Format codes and the operand format word (R77, R78, R81 to R84) -/

/-- Width of an element in bits, by format code (R77). -/
def fmtBits : Nat → Nat
  | 0 => 16 | 1 => 32 | 2 => 8 | 3 => 8 | 4 => 8 | 5 => 4 | 6 => 2 | 7 => 1 | 8 => 2 | 9 => 8 | _ => 8

/-- The float format of a code, if it is one. -/
def floatOf : Nat → Option FloatFmt
  | 0 => some bf16 | 1 => some fp32 | 2 => some e4m3 | 3 => some e5m2 | _ => none

/-- A two's complement number of `w` bits. -/
def signed (w x : Nat) : Int := if x.testBit (w - 1) then (x : Int) - 2 ^ w else x

/-- The value of an element's bits (R79, R81, R82, R84). -/
def elemVal (fmt : Nat) (sgn : Bool) (x : Nat) : Num := match floatOf fmt with
  | some f => f.decode x
  | none =>
    if fmt = 7 then .ofInt (if x % 2 = 0 then 1 else -1)
    else if fmt = 8 then .ofInt (if x % 4 = 1 then 1 else if x % 4 = 2 then -1 else 0)
    else if fmt = 9 then (if x % 256 = 255 then .nan else .fin false 1 ((x % 256 : Nat) - 127 : Int))
    else .ofInt (if sgn then signed (fmtBits fmt) x else x)

/-- The event of reading an element: a TERN2 code 0b11 counts (R82). -/
def elemEv (fmt x : Nat) : FmtEv := if fmt = 8 && x % 4 == 3 then ⟨1, 0, 0, 0⟩ else FmtEv.none

/-- Round a value to an integer (R85). -/
def Num.toIntRne : Num → Int
  | .fin n m e =>
    let k : Int := if 0 ≤ e then (m <<< e.toNat : Nat) else (rneShift m (-e).toNat : Nat)
    if n then -k else k
  | _ => 0

/-- Convert to an integer format of `w` bits, saturating (R90). -/
def toIntFmt (w : Nat) (sgn : Bool) (x : Num) : Nat :=
  let lo : Int := if sgn then -(2 ^ (w - 1)) else 0
  let hi : Int := if sgn then 2 ^ (w - 1) - 1 else 2 ^ w - 1
  let v : Int := match x with
    | .nan => 0
    | .inf n => if n then lo else hi
    | y => max lo (min hi y.toIntRne)
  (v % 2 ^ w).toNat

/-- Convert a value to format `fmt` (R87 to R90). -/
def toFmt (fmt : Nat) (sgn : Bool) (x : Num) : Nat × FmtEv := match floatOf fmt with
  | some f => f.encode x
  | none => (toIntFmt (fmtBits fmt) sgn x, FmtEv.none)

/-- An operand format word (R78). -/
structure FmtWord where
  fmt : Nat
  sgn : Bool
  scale : Nat
  block : Nat
  dir : Bool
  expand : Nat
deriving DecidableEq, Repr

/-- The fields of an operand format word. -/
def FmtWord.ofNat (x : Nat) : FmtWord :=
  ⟨bitsOf x 0 4, x.testBit 4, bitsOf x 5 2, bitsOf x 7 3, x.testBit 10, bitsOf x 11 2⟩

/-- Elements per scale block. -/
def FmtWord.bs (w : FmtWord) : Nat := 8 * 2 ^ w.block

/-- Whether the word holds no reserved code and SGN only on an integer kind (R10, R105). -/
def FmtWord.codesOk (w : FmtWord) : Bool :=
  w.fmt ≤ 9 && w.scale ≤ 2 && w.expand ≤ 2 && (w.scale == 0 || w.block ≤ 4) && (!w.sgn || (4 ≤ w.fmt && w.fmt ≤ 6))

/-- Whether a code is an FP8 format. -/
def isFp8 (f : Nat) : Bool := f == 2 || f == 3

/-- Whether A and B pair under R103, by formats and B's expansion. -/
def pairOk (a b x : Nat) : Bool :=
  match a with
  | 0 => (x == 0 && (b == 0 || isFp8 b || b == 5 || b == 6 || b == 7 || b == 8)) ||
      (x == 1 && (b == 5 || b == 6 || b == 7 || b == 8)) || (x == 2 && (b == 5 || b == 6))
  | 2 | 3 => (x == 0 && (b == 0 || isFp8 b || b == 5 || b == 6 || b == 7 || b == 8)) ||
      (x == 1 && (b == 5 || b == 6 || b == 7 || b == 8)) || (x == 2 && (b == 5 || b == 6))
  | 4 => x == 0 && (b == 0 || isFp8 b || b == 4 || b == 5 || b == 6 || b == 7 || b == 8)
  | _ => false

/-- Whether A's format word is one a GEMM may name (R105). -/
def aWordOk (w : FmtWord) : Bool := w.codesOk && (w.fmt == 0 || isFp8 w.fmt || w.fmt == 4) && w.expand == 0

/-- Whether B's format word is one a GEMM may name (R105). -/
def bWordOk (w : FmtWord) : Bool :=
  w.codesOk && w.fmt != 1 && w.fmt != 9 && (w.expand == 0 || (5 ≤ w.fmt && w.fmt ≤ 8)) &&
    (w.expand != 2 || ((w.fmt == 5 || w.fmt == 6) && w.scale == 2))

/-- Whether C's format word is one a GEMM may name (R96, R104, R105). -/
def cWordOk (w : FmtWord) : Bool := w.codesOk && (w.fmt == 0 || w.fmt == 1) && w.expand == 0 && w.scale == 0

/-- Whether D's format word is one a task may write (R96, R104, R105). -/
def dWordOk (w : FmtWord) : Bool :=
  w.codesOk && w.fmt ≤ 3 && w.expand == 0 && (w.scale == 0 || (w.scale == 1 && !w.dir && isFp8 w.fmt))

/-! ### Packed lines of elements (R83) -/

/-- Bytes of a line of `n` elements of format `fmt`. -/
def lineBytes (fmt n : Nat) : Nat := (n * fmtBits fmt + 7) / 8

/-- The bits of element `i` of a line. -/
def elemAt (fmt : Nat) (line : Bytes) (i : Nat) : Nat :=
  let w := fmtBits fmt
  if 8 ≤ w then fieldAt line (i * (w / 8)) (w / 8) else bitsOf (line.getD (i * w / 8) 0).toNat (i * w % 8) w

/-- A line of elements packed into bytes, padding bits zero. -/
def packLine (fmt : Nat) (xs : List Nat) : Bytes :=
  toLe (lineBytes fmt xs.length) (xs.reverse.foldl (fun acc x => acc * 2 ^ fmtBits fmt + x % 2 ^ fmtBits fmt) 0)

/-! ### Block scales (R92 to R97) -/

/-- Bytes of one scale: E8M0 one, BF16 two; an affine pair has four (R92, R101). -/
def scaleBytes (w : FmtWord) : Nat := if w.expand = 2 then 4 else if w.scale = 1 then 1 else 2

/-- The value of a stored scale (R95). -/
def scaleVal (w : FmtWord) (x : Nat) : Num := if w.scale = 1 then elemVal 9 false x else bf16.decode (x % 2 ^ 16)

/-- Index of the scale of an element (R92): `line` and `pos` for DIR 0, with `len` the length of the shared dimension. -/
def scaleIdx (bs line pos len : Nat) : Nat := line * ((len + bs - 1) / bs) + pos / bs

/-- ⌊log2⌋ of a finite nonzero magnitude. -/
def Num.log2 : Num → Int
  | .fin _ m e => e + Nat.log2 m
  | _ => 0

/-- The derived scale of a block of FP32 results and its elements' bits (R97), format E4M3 or E5M2. -/
def deriveBlock (fmt : Nat) (xs : List Num) : Nat × List Nat × FmtEv :=
  let f := if fmt = 2 then e4m3 else e5m2
  if xs.any Num.special then (0xFF, xs.map fun _ => f.nan, ⟨0, 0, 0, xs.length⟩)
  else
    let amax := xs.foldl (fun a x => Num.maxN a x.mag) Num.zero
    if amax.isZero then (0x7F, xs.map fun x => (f.encode x).1, FmtEv.none)
    else
      let x0 : Int := amax.log2 - (if fmt = 2 then 8 else 15)
      let x := max (-127) (min 127 x0)
      let es := xs.map fun v => f.encode (v.shift (-x))
      ((x + 127).toNat, es.map (·.1), es.foldl (fun a e => a.add e.2) FmtEv.none)

/-! ### Reductions (R106, R107) -/

/-- Take the element at `i` out of a list. -/
def takeAt {α : Type} (xs : List α) (i : Nat) : Option α × List α := (xs[i]?, xs.eraseIdx i)

/-- Put a list in an order that the free number `x` chooses; the rest of the choices. -/
def shuffle {α : Type} : Nat → Nat → List α → List α × Nat
  | 0, x, xs => (xs, x)
  | n + 1, x, xs =>
    if xs.isEmpty then ([], x)
    else
      let r := takeAt xs (x % xs.length)
      let t := shuffle n (x / xs.length) r.2
      (r.1.toList ++ t.1, t.2)

/-- Sums of up to four products at wider precision, grouped as the free number chooses (R106). -/
def groups : Nat → Nat → List Num → List Num × Nat
  | 0, x, ts => (ts, x)
  | n + 1, x, ts => match ts with
    | [] => ([], x)
    | t :: r =>
      let g := x % 4
      let h := (r.take g).foldl Num.add t
      let q := groups n (x / 4) (r.drop g)
      (h :: q.1, q.2)

/-- The terms in runs, each begun where the free number says (R106, R126). -/
def partsOf : Nat → List Num → List (List Num)
  | _, [] => []
  | x, t :: r => match partsOf (x / 2) r with
    | [] => [[t]]
    | p :: ps => if x % 2 = 1 then [t] :: p :: ps else (t :: p) :: ps

/-- One accumulator: the first term rounded, then one FP32 rounding at each addition (R106). -/
def accumulate : List Num → Num
  | [] => Num.zero
  | t :: r => r.foldl add32 (rnd32 t)

/-- Add the terms pairwise in an order that the free number chooses, one FP32 rounding at each addition. -/
def sumTree : Nat → Nat → List Num → Num
  | 0, _, ts => match ts with
    | [] => Num.zero
    | t :: _ => rnd32 t
  | n + 1, x, ts => match ts with
    | [] => Num.zero
    | [t] => rnd32 t
    | _ =>
      let a := takeAt ts (x % ts.length)
      let x := x / ts.length
      let b := takeAt a.2 (x % a.2.length)
      sumTree n (x / a.2.length) (add32 (a.1.getD Num.zero) (b.1.getD Num.zero) :: b.2)

/-- An FP32 sum of products in a free order (R106, R126, 04 R129): at most four products meet before an accumulator, and the sums of
the accumulators are added. An empty sum is +0. -/
def accSum (x : Nat) (ts : List Num) : Num :=
  let s := shuffle ts.length x ts
  let g := groups ts.length s.2 s.1
  let ps := (partsOf g.2 g.1).map accumulate
  sumTree ps.length (g.2 / 2 ^ g.1.length) ps

/-- An FP32 sum of FP32 terms in a free order, each addition rounding (R107). -/
def freeSum (x : Nat) (ts : List Num) : Num := sumTree ts.length x ts

/-! ### Vector-unit functions (R109) -/

/-- Integer square root by `n` binary digits. -/
def isqrtN : Nat → Nat → Nat → Nat
  | 0, _, r => r
  | n + 1, x, r => let c := r + 2 ^ n; isqrtN n x (if c * c ≤ x then c else r)

/-- ⌊√x⌋. -/
def isqrt (x : Nat) : Nat := isqrtN (Nat.log2 x / 2 + 1) x 0

/-- Fraction bits of the fixed-point arithmetic below. -/
def fxBits : Nat := 200

/-- ln 2 in fixed point. -/
def fxLn2 : Nat := (List.range 210).foldl (fun a n => a + 2 ^ (fxBits + 8) / ((n + 1) * 2 ^ (n + 1))) 0 / 2 ^ 8

/-- e^r for fixed-point 0 ≤ r < 1. -/
def fxExp (r : Nat) : Nat :=
  ((List.range 60).foldl (fun (st : Nat × Nat) n => (st.1 + st.2, st.2 * r / 2 ^ fxBits / (n + 1))) (0, 2 ^ fxBits)).1

/-- ln y for fixed-point 1 ≤ y < 2. -/
def fxLn (y : Nat) : Nat :=
  let z := (y - 2 ^ fxBits) * 2 ^ fxBits / (y + 2 ^ fxBits)
  let z2 := z * z / 2 ^ fxBits
  2 * ((List.range 80).foldl (fun (st : Nat × Nat) n => (st.1 + st.2 / (2 * n + 1), st.2 * z2 / 2 ^ fxBits)) (0, z)).1

/-- A fixed-point value that is not exact, as a value to round: its bits with a sticky bit below. -/
def sticky (neg : Bool) (m : Nat) (e : Int) : Num := .fin neg (2 * m + 1) (e - 1)

/-- A finite value in fixed point, toward minus infinity. -/
def Num.toFx : Num → Int
  | .fin n m e =>
    let k : Int := e + fxBits
    let v : Int := if 0 ≤ k then (m <<< k.toNat : Nat) else (m >>> (-k).toNat : Nat)
    if n then (if 0 ≤ k || m % 2 ^ (-k).toNat == 0 then -v else -v - 1) else v
  | _ => 0

/-- e^x exactly enough to round (R109); `x` finite and not zero. -/
def expNum (x : Num) : Num :=
  if Num.lt (.ofInt 128) x then .inf false
  else if Num.lt x (.ofInt (-128)) then sticky false 0 (-300)
  else
    let v := x.toFx
    let k := v / (fxLn2 : Int)
    sticky false (fxExp (v - k * fxLn2).toNat) (k - fxBits)

/-- 2^x exactly enough to round; `x` finite and not zero. -/
def exp2Num (x : Num) : Num :=
  if Num.lt (.ofInt 200) x then .inf false
  else if Num.lt x (.ofInt (-200)) then sticky false 0 (-300)
  else
    let v := x.toFx
    let k := v / 2 ^ fxBits
    let f := (v - k * 2 ^ fxBits).toNat
    if f = 0 then .fin false 1 k else sticky false (fxExp (f * fxLn2 / 2 ^ fxBits)) (k - fxBits)

/-- ln of m × 2^e > 0, in fixed point, signed. -/
def fxLog (m : Nat) (e : Int) : Int :=
  let l := Nat.log2 m
  let y := if l ≤ fxBits then m <<< (fxBits - l) else m >>> (l - fxBits)
  (e + l) * fxLn2 + fxLn y

/-- ln x exactly enough to round; `x` positive and finite. -/
def logNum (x : Num) : Num := match x with
  | .fin _ m e =>
    if m ≤ 2 ^ Nat.log2 m && e + Nat.log2 m = 0 then Num.zero
    else let v := fxLog m e; sticky (v < 0) v.natAbs (-(fxBits : Int))
  | y => y

/-- log2 x exactly enough to round; `x` positive and finite. -/
def log2Num (x : Num) : Num := match x with
  | .fin _ m e =>
    if m ≤ 2 ^ Nat.log2 m then .ofInt (e + Nat.log2 m)
    else let v := fxLog m e * 2 ^ fxBits / fxLn2; sticky (v < 0) v.natAbs (-(fxBits : Int))
  | y => y

/-- The correctly rounded FP32 result moved by at most `b` units in the last place, as Config.ulpOff places it; an overflow or an
underflow to zero stays (R109). -/
def withUlp (op b : Nat) (x r : Num) : Num :=
  let rb := bits32 r
  let mag := rb % 2 ^ 31
  if 0x7F7F_FFFF < mag || mag = 0 then num32 rb
  else
    let d := Config.ulpOff op (bits32 x) % (2 * b + 1)
    num32 (rb / 2 ^ 31 * 2 ^ 31 + min 0x7F80_0000 (mag + d - b))

/-- Reciprocal (R109, R89). -/
def recip32 (x : Num) : Num := match x with
  | .nan => .nan
  | .inf n => .fin n 0 0
  | .fin n m e =>
    if m = 0 then .inf n
    else
      let k := Nat.log2 m + 64
      let q := 2 ^ k / m
      withUlp 0 1 x (if q * m = 2 ^ k then .fin n q (-e - k) else sticky n q (-e - k))

/-- Reciprocal square root (R109, R89). -/
def rsqrt32 (x : Num) : Num := match x with
  | .nan => .nan
  | .inf n => if n then .nan else Num.zero
  | .fin n m e =>
    if m = 0 then .inf n
    else if n then .nan
    else
      let m' := if e % 2 = 0 then m else 2 * m
      let e' := if e % 2 = 0 then e else e - 1
      let k := Nat.log2 m' + 64
      let q := isqrt (2 ^ (2 * k) / m')
      withUlp 1 1 x (if q * q * m' = 2 ^ (2 * k) then .fin false q (-(e' / 2) - k) else sticky false q (-(e' / 2) - k))

/-- e^x (R109). -/
def exp32 (x : Num) : Num := match x with
  | .nan => .nan
  | .inf n => if n then Num.zero else .inf false
  | .fin _ m _ => withUlp 2 2 x (if m = 0 then Num.one else expNum x)

/-- 2^x (R109). -/
def exp2f32 (x : Num) : Num := match x with
  | .nan => .nan
  | .inf n => if n then Num.zero else .inf false
  | .fin _ m _ => withUlp 3 2 x (if m = 0 then Num.one else exp2Num x)

/-- ln x (R109). -/
def log32 (x : Num) : Num := match x with
  | .nan => .nan
  | .inf n => if n then .nan else .inf false
  | .fin n m _ => if m = 0 then .inf true else if n then .nan else withUlp 4 2 x (logNum x)

/-- log2 x (R109). -/
def log2f32 (x : Num) : Num := match x with
  | .nan => .nan
  | .inf n => if n then .nan else .inf false
  | .fin n m _ => if m = 0 then .inf true else if n then .nan else withUlp 5 2 x (log2Num x)

end Sys2Proof.Machine
end

