-- ==== Sys2Proof/Machine/Pages.lean ====
section
/-!
DEFINITION. Cache pages and the Ostler (08_kv_pages.md): the page-table entry and its counts, the free pools, page
lists, walks, appends held until their task commits, the commit, truncation and scored eviction.
-/
namespace Sys2Proof.Machine

/-! ### Entries (R262 to R268) -/

/-- The partition whose range holds ledger entry `e`, 0xF for none (12 R376). -/
def State.ledgerOwner (s : State) (e : Nat) : Nat :=
  (allParts.find? fun p => (s.part p).ledBase ≤ e && e < (s.part p).ledBase + (s.part p).ledN).getD 15

/-- The physical cluster whose Ostler is home of entry `i` (R267). -/
def State.homeOf (s : State) (i : Nat) : Nat := s.enabled.getD (i % s.enabled.length) 0

/-- The physical cluster whose Ostler holds partition `p`'s pool (R266). -/
def State.poolCluster (s : State) (p : Nat) : Nat := s.enabled.getD (p % s.enabled.length) 0

/-- Entries in partition `p`'s free pool. -/
def State.poolFree (s : State) (p : Nat) : Nat := (s.part p).pool.length + ((s.part p).pageN - (s.part p).fresh)

/-- Entries of partition `p` in the states `ok` accepts. -/
def State.pagesIn (s : State) (p : Nat) (ok : Nat → Bool) : Nat :=
  (s.pages.filter fun e => s.pageOwner e.1 == some p && ok e.2.state).length

/-- Set LOW when the pool is below a nonzero THRESHOLD (R286). -/
def State.noteLow (s : State) (p : Nat) : State :=
  let t := s.fd (Rg.LDG_PAGE_LOW_THRESHOLD p)
  if t ≠ 0 && s.poolFree p < t then s.raise (Rg.LDG_PAGE_LOW_LOW p) else s

/-- The write-through of an entry to the page table in the reserve (R267, 09 R296, R298, R300): a merge of the partition's write
class into the entry's codeword. -/
def State.entryThrough (s : State) (i : Nat) : State :=
  let l := (reserveBase + 16 * i) / 64
  let tag := (s.pageOwner i).getD 15
  let c := (s.decodeLine l).1
  let s := ((s.noteLine tag 2 l c).bump (Rg.MEM_CH_ECC_RMW (s.channelOf l))).settleLine l (5 ≤ c)
  (s.addReq tag 1 l false).addReq tag 1 l true

/-- Store entry `i`; one that becomes FREE is pushed onto its pool, one that enters RECLAIM counts (R266, R275, R284). -/
def State.putPage (s : State) (i : Nat) (x : Page) : State :=
  let was := (s.page i).state
  let now := x.state
  let y := if now = 0 then Page.free else x
  let s := State.entryThrough { s with pages := put (fun _ => Page.free) s.pages i y } i
  if now = 0 && was != 0 then
    let s := match s.pageOwner i with
      | some p => s.modPart p fun q => { q with pool := i :: q.pool }
      | none => s
    s.bump (Rg.CLU_OST_FREE_FREED (s.homeOf i))
  else if now = 4 && was != 4 then s.bump (Rg.CLU_OST_FREE_RECLAIMED (s.homeOf i))
  else s

/-- Drop one reference (R274, R275). -/
def State.unref (s : State) (i : Nat) : State := s.putPage i { s.page i with ref := (s.page i).ref - 1 }

/-- Drop one pin. -/
def State.unpin (s : State) (i : Nat) : State :=
  if (s.page i).pin = 0 then s else s.putPage i { s.page i with pin := (s.page i).pin - 1, drops := (s.page i).drops + 1 }

/-- An export of the page ends. -/
def State.expEnd (s : State) (i : Nat) : State :=
  if (s.page i).exp = 0 then s else s.putPage i { s.page i with exp := (s.page i).exp - 1 }

/-- Whether partition `p` may allocate another page: its pool is not empty and its quota in force allows it (R264, R266,
02 R65). -/
def State.mayAlloc (s : State) (p : Nat) : Bool :=
  0 < s.poolFree p && s.pagesIn p (fun st => st != 0) < min (s.part p).pageN (s.cfg p 120 4)

/-- Allocate a page of partition `p` for task `t`: pop the pool (R266, R275). -/
def State.allocPage (s : State) (p t fmt dim half : Nat) : Option (Nat × State) :=
  if s.mayAlloc p then
    let q := s.part p
    let (i, q') := match q.pool with
      | i :: r => (i, { q with pool := r })
      | [] => (q.pageBase + q.fresh, { q with fresh := q.fresh + 1 })
    let s := s.setPart p q'
    let s := s.putPage i ⟨fmt, 0, 1, 0, 0, dim, half, 0, false, some t, 0⟩
    some (i, (s.bump (Rg.CLU_OST_ALLOC_ALLOCS (s.poolCluster p))).noteLow p)
  else none

/-- Read an entry at its home: its cache of 4,096 entries, or the table on a miss (R267, 09 R304); whether the entry could
be read, and the state after it. -/
def State.entryRead (s : State) (i : Nat) : Bool × State :=
  let k := s.homeOf i
  let keep (s : State) : State := s.modCluster k fun c => { c with ecache := (i :: c.ecache.filter (· != i)).take 4096 }
  if (s.cluster k).ecache.contains i then (true, (keep s).bump (Rg.CLU_OST_ECACHE_HITS k))
  else
    let r := (s.bump (Rg.CLU_OST_ECACHE_MISSES k)).ramRead ((s.pageOwner i).getD 15) 0 (reserveBase + 16 * i) 16
    if r.code = 0 then (true, keep r.st) else (false, r.st)

/-! ### Weight-cache lines (05 R172, R173) -/

/-- Drop the lines of partition `p` that hold any of `n` bytes at `a`, in every cluster. -/
def State.wcInval (s : State) (p a n : Nat) : State :=
  { s with clusters := s.clusters.map fun e =>
      (e.1, { e.2 with wcache := e.2.wcache.filter fun l => !(l.1 == p && a / 1024 ≤ l.2 && l.2 ≤ (a + n - 1) / 1024) }) }

/-! ### Page lists (R259 to R261) -/

/-- A page-list header. -/
structure ListHdr where
  model : Nat
  layers : Nat
  heads : Nat
  halves : Nat
  first0 : Nat
  blocks0 : Nat
  first1 : Nat
  blocks1 : Nat
deriving DecidableEq, Repr

/-- The header in 32 bytes. -/
def ListHdr.ofBytes (b : Bytes) : ListHdr :=
  ⟨fieldAt b 0 4, fieldAt b 4 2, fieldAt b 6 2, fieldAt b 8 1, fieldAt b 12 4, fieldAt b 16 4, fieldAt b 20 4, fieldAt b 24 4⟩

/-- Whether the header meets R259. -/
def ListHdr.ok (h : ListHdr) : Bool :=
  1 ≤ h.layers && h.layers ≤ 1024 && 1 ≤ h.heads && h.heads ≤ 256 && (h.halves == 1 || h.halves == 2) &&
    h.first0 % 64 == 0 && 1 ≤ h.blocks0 && h.blocks0 ≤ 65536 && h.first0 + 64 * h.blocks0 ≤ 4194304 &&
    h.blocks1 ≤ 65536 &&
    (h.blocks1 == 0 || (h.first1 % 64 == 0 && h.first0 + 64 * h.blocks0 ≤ h.first1 && h.first1 + 64 * h.blocks1 ≤ 4194304))

/-- Blocks of a stream. -/
def ListHdr.blocks (h : ListHdr) : Nat := h.blocks0 + h.blocks1

/-- The block of position `u` (R260). -/
def ListHdr.blockOf (h : ListHdr) (u : Nat) : Option Nat :=
  if h.first0 ≤ u && u < h.first0 + 64 * h.blocks0 then some ((u - h.first0) / 64)
  else if h.first1 ≤ u && u < h.first1 + 64 * h.blocks1 then some (h.blocks0 + (u - h.first1) / 64)
  else none

/-- The first position of a block. -/
def ListHdr.firstOf (h : ListHdr) (b : Nat) : Nat :=
  if b < h.blocks0 then h.first0 + 64 * b else h.first1 + 64 * (b - h.blocks0)

/-- The address of a slot of the list at `list` (R260). -/
def ListHdr.slotAddr (h : ListHdr) (list layer head blk half : Nat) : Nat :=
  list + 32 + 4 * (((layer * h.heads + head) * h.blocks + blk) * h.halves + half)

/-- The hole. -/
def hole : Nat := 0xFFFF_FFFF

/-- What reading a list header gives: the header if it meets R259, or the status its failure gives the task. -/
def State.listHdr (s : State) (p list : Nat) : Except Nat ListHdr × State :=
  let r := s.devRead p 0 list 32
  if r.code ≠ 0 then (.error 0x30, r.st)
  else
    let h := ListHdr.ofBytes r.data
    (if h.ok then .ok h else .error 0x12, r.st)

/-- What a list slot reads as for task `t` of partition `p` (R261). -/
inductive SlotRes
  | hole
  | page (i : Nat)
  | fail
deriving DecidableEq, Repr

/-- Classify a slot value; `k` is the physical cluster whose Ostler reads it (R261). -/
def State.slotRes (s : State) (p t k v : Nat) : SlotRes × State :=
  if v = hole then (.hole, s)
  else
    let bad (s : State) : SlotRes × State :=
      (.fail, (s.isolation p ((s.pageOwner v).getD 15) 2 v).bump (Rg.CLU_OST_ERRORS_CHECK_FAIL k))
    if 16777216 ≤ v then bad s
    else if s.pageOwner v != some p then bad s
    else
      let x := s.page v
      if x.state = 0 || x.state == 4 || (match x.newBy with | some n => n != t | none => false) then
        (.hole, s.bump (Rg.CLU_OST_ERRORS_BAD_SLOT k))
      else (.page v, s)

/-- Read and classify a list slot. -/
def State.readSlot (s : State) (p t k addr : Nat) : SlotRes × State :=
  let r := s.devRead p 0 addr 4
  if r.code ≠ 0 then (.fail, r.st) else r.st.slotRes p t k (leNat r.data)

/-! ### Walks (R268) -/

/-- The outcome of a walk. -/
inductive WalkRes
  | hole
  | page (i : Nat)
  | fail (status : Nat)
  | waits (i : Nat)
  | lost (i : Nat)
deriving DecidableEq, Repr

/-- The home Ostler's part of a walk that found page index `v`: the entry read, checked under R261, and pinned (R268). -/
def State.walkHome (s : State) (p t k v : Nat) : WalkRes × State :=
  match (if s.homeOf v = k then s else s.bump (Rg.CLU_OST_WALKS_FORWARDED k)).entryRead v with
  | (false, s) => (.lost v, s)
  | (true, s) => match s.slotRes p t k v with
    | (.hole, s) => (.hole, s)
    | (.fail, s) => (.fail 0x30, s)
    | (.page i, s) =>
      if (s.page i).pin = 4095 then (.waits i, s.bump (Rg.CLU_OST_COPY_PIN_WAIT (s.homeOf i)))
      else (.page i, s.putPage i { s.page i with pin := (s.page i).pin + 1 })

/-- A walk by core `core` (logical) for task `t` of partition `p`: read the slot, then have the entry read, checked and pinned at its
home; a slot that names no entry never leaves the core's own Ostler (R268). -/
def State.walk (s : State) (p t core list layer head blk half : Nat) : WalkRes × State :=
  let k := s.clusterOf core
  let s := s.bump (Rg.CLU_OST_WALKS_WALKS k)
  match s.listHdr p list with
  | (.error e, s) => (.fail e, s)
  | (.ok h, s) =>
    if h.layers ≤ layer || h.heads ≤ head || h.halves ≤ half || h.blocks ≤ blk then (.fail 0x12, s)
    else
      let r := s.devRead p 0 (h.slotAddr list layer head blk half) 4
      let v := leNat r.data
      if r.code ≠ 0 then (.fail 0x30, r.st)
      else if v = hole then (.hole, r.st)
      else if 16777216 ≤ v then (.fail 0x30, (r.st.slotRes p t k v).2)
      else r.st.walkHome p t k v

/-- Load the page into the TLB of part `part` of task `t`, dropping the oldest of 32 entries (05 R162). -/
def State.tlbLoad (s : State) (t part i : Nat) : State :=
  match s.task? t with
  | none => s
  | some k =>
    let mine := k.pins.filter fun e => e.1 == part
    if mine.length < 32 then s.modTask t fun k => { k with pins := k.pins ++ [(part, i)] }
    else
      match mine with
      | [] => s
      | old :: _ => (s.modTask t fun k => { k with pins := k.pins.erase old ++ [(part, i)] }).unpin old.2

/-- Drop the TLB entries of part `part` of task `t`, releasing their pins (05 R162). -/
def State.tlbDrop (s : State) (t part : Nat) : State :=
  match s.task? t with
  | none => s
  | some k =>
    let mine := k.pins.filter fun e => e.1 == part
    mine.foldl (fun s e => s.unpin e.2) (s.modTask t fun k => { k with pins := k.pins.filter fun e => e.1 != part })

/-- Drop every TLB entry of task `t`. -/
def State.tlbDropAll (s : State) (t : Nat) : State :=
  match s.task? t with
  | none => s
  | some k => k.pins.foldl (fun s e => s.unpin e.2) (s.modTask t fun k => { k with pins := [] })

/-! ### Slots of a frame (R255 to R258) -/

/-- Bytes that a slot of a format uses for `d` elements (R256). -/
def slotBytes (fmt d : Nat) : Nat := if fmt = 0 then 2 * d else d + d / 32

/-- DIM of a head dimension (R262). -/
def dimCode (d : Nat) : Nat := if d = 256 then 7 else d / 32 - 1

/-- Elements of a slot by DIM. -/
def dimElems (dim : Nat) : Nat := if dim = 7 then 128 else 32 * (dim + 1)

/-- Read part of the frame of page `i`, class `cls`. -/
def State.frameRead (s : State) (p cls i off n : Nat) : MemRd := s.ramRead p cls (32768 * s.frameOf p i + off) n

/-- Write part of the frame of page `i`, dropping cached lines. -/
def State.frameWrite (s : State) (p i off : Nat) (bs : Bytes) (bad : Bool) : State :=
  let a := 32768 * s.frameOf p i + off
  (s.ramWrite p 1 a bs bad).wcInval p a bs.length

/-- Copy `n` bytes of one frame to another line by line, poison with its line. -/
def State.frameCopy (s : State) (p src dst off n : Nat) : State :=
  (List.range (n / 64)).foldl (fun s j =>
    let r := s.frameRead p 0 src (off + 64 * j) 64
    r.st.frameWrite p dst (off + 64 * j) r.data (r.code != 0 || !r.poison.isEmpty)) s

/-! ### Appends, held until the commit (R270, R273) -/

/-- The task's write record of a block, if it has one. -/
def Task.writeOf (k : Task) (list layer head blk half : Nat) : Option PageWrite :=
  k.writes.find? fun w => w.list == list && w.layer == layer && w.head == head && w.blk == blk && w.half == half

/-- Change the task's write record of a block. -/
def Task.mapWrite (k : Task) (list layer head blk half : Nat) (f : PageWrite → PageWrite) : Task :=
  let g (w : PageWrite) : PageWrite :=
    if w.list == list && w.layer == layer && w.head == head && w.blk == blk && w.half == half then f w else w
  { k with writes := k.writes.map g }

/-- Put a slot's key or value bytes into a block's write record; `kind` 0 good, 1 poisoned, 2 zero-filled. -/
def PageWrite.setSlot (w : PageWrite) (slot : Nat) (isV : Bool) (bs : Bytes) (kind : Nat) : PageWrite :=
  match w.slots.find? fun x => x.1 == slot with
  | some _ => { w with slots := w.slots.map fun x =>
      if x.1 == slot then (slot, if isV then x.2.1 else bs, if isV then bs else x.2.2.1, max kind x.2.2.2) else x }
  | none => { w with slots := w.slots ++ [(slot, if isV then [] else bs, if isV then bs else [], kind)] }

/-- Change the TLB entries that task `t` holds on page `src` into entries on its own copy `i` (05 R162). -/
def State.tlbMove (s : State) (t src i : Nat) : State :=
  let n := ((s.task? t).map fun k => (k.pins.filter fun e => e.2 == src).length).getD 0
  let s := s.modTask t fun k => { k with pins := k.pins.map fun e => if e.2 = src then (e.1, i) else e }
  (List.range n).foldl (fun s _ => (s.unpin src).putPage i { (s.unpin src).page i with pin := ((s.unpin src).page i).pin + 1 }) s

/-- Copy page `src` for a write of task `t`: a fresh page with NEW set, its committed slots, FMT, DIM, HALF, SCORE and POISON (R273);
none when the pool is empty. -/
def State.copyPage (s : State) (p t src : Nat) : Option (Nat × State) :=
  let e := s.page src
  (s.allocPage p t e.fmt e.dim e.half).map fun r =>
    let i := r.1
    let s := (r.2.frameCopy p src i 0 (256 * e.fill)).frameCopy p src i 16384 (256 * e.fill)
    let s := s.putPage i { s.page i with fill := e.fill, score := e.score, poison := e.poison }
    (i, (s.bump (Rg.CLU_OST_COPY_COPIES (s.homeOf i))).tlbMove t src i)

/-- Find or open the write record of a block for task `t` (R270, R273): its status, 0 when it is open. -/
def State.openWrite (s : State) (p t k : Nat) (h : ListHdr) (list layer head blk half fmt dim : Nat) : Nat × State :=
  match s.task? t with
  | none => (0x30, s)
  | some tk =>
    match tk.writeOf list layer head blk half with
    | some w => if (s.page w.page).fmt ≠ fmt || (s.page w.page).dim != dim then (0x11, s) else (0, s)
    | none =>
      let add (s : State) (page : Nat) (fresh : Bool) (orig : Option Nat) : State :=
        s.modTask t fun x => { x with writes := x.writes ++ [⟨list, layer, head, blk, half, page, fresh, orig, []⟩] }
      let quota (s : State) : Nat × State := (0x13, s.bump (Rg.CLU_OST_ALLOC_QUOTA_FAIL (s.poolCluster p)))
      match s.readSlot p t k (h.slotAddr list layer head blk half) with
      | (.fail, s) => (0x30, s)
      | (.hole, s) =>
        match s.allocPage p t fmt dim half with
        | none => quota s
        | some (i, s) => (0, add s i true none)
      | (.page x, s) =>
        match s.entryRead x with
        | (false, s) => (0x30, s)
        | (true, s) =>
          let e := s.page x
          if e.fmt ≠ fmt || e.dim != dim then (0x11, s)
          else if e.state = 1 then (0, add s x false none)
          else
            match s.copyPage p t x with
            | none => quota s
            | some (i, s) => (0, add s i true (some x))

/-- Append one position's key or value of one half for task `t`: the status, 0 when it is held for the commit (R270). -/
def State.appendSlot (s : State) (p t core list layer head pos half d fmt : Nat) (isV : Bool) (bs : Bytes) (kind : Nat) :
    Nat × State :=
  match s.listHdr p list with
  | (.error e, s) => (e, s)
  | (.ok h, s) =>
    match h.blockOf pos with
    | none => (0x12, s)
    | some blk =>
      if 4194304 ≤ pos || h.layers ≤ layer || h.heads ≤ head then (0x12, s)
      else if (h.halves == 2) != (d == 256) then (0x11, s)
      else
        match s.openWrite p t (s.clusterOf core) h list layer head blk half fmt (dimCode d) with
        | (0, s) =>
          (0, s.modTask t fun k =>
            k.mapWrite list layer head blk half fun w => w.setSlot (pos - h.firstOf blk) isV bs kind)
        | (e, s) => (e, s)

/-! ### The commit (R271, R272) -/

/-- The stream's pages present for task `t`: (block, half, page). Reading the slots changes nothing but counts. -/
def State.streamPages (s : State) (p t k : Nat) (h : ListHdr) (list layer head : Nat) :
    List (Nat × Nat × Nat) × State :=
  (List.range (h.blocks * h.halves)).foldl (fun (acc : List (Nat × Nat × Nat) × State) j =>
    match acc.2.readSlot p t k (h.slotAddr list layer head (j / h.halves) (j % h.halves)) with
    | (.page i, s) => (acc.1 ++ [(j / h.halves, j % h.halves, i)], s)
    | (_, s) => (acc.1, s)) ([], s)

/-- The stream's committed end (R271). -/
def State.committedEnd (s : State) (h : ListHdr) (ps : List (Nat × Nat × Nat)) : Nat :=
  ps.foldl (fun e x => let f := (s.page x.2.2).fill; if f = 0 then e else max e (h.firstOf x.1 + f)) h.first0

/-- Zero-fill what task `t` left unwritten in one stream between its committed end and the highest position it writes
(R271): none when the pool runs empty. A block that has a page keeps that page's format; a block that has none takes the format of the
first page the task writes in the stream (assumption 119). -/
def State.zeroFill (s : State) (p t k : Nat) (h : ListHdr) (list layer head : Nat) : Option State :=
  match s.task? t with
  | none => some s
  | some tk =>
    let ws := tk.writes.filter fun w => w.list == list && w.layer == layer && w.head == head
    match ws with
    | [] => some s
    | w0 :: _ =>
      let top := ws.foldl (fun m w => w.slots.foldl (fun m x => max m (h.firstOf w.blk + x.1)) m) 0
      let (ps, s) := s.streamPages p t k h list layer head
      let e := s.committedEnd h (ps.filter fun x => !(ws.any fun w => w.page == x.2.2 && w.fresh))
      let model (s : State) (w : Option PageWrite) (b f : Nat) : Page :=
        s.page ((w.map (·.page)).getD (((ps.find? fun x => x.1 == b && x.2.1 == f).map (·.2.2)).getD w0.page))
      (List.range (h.blocks * h.halves)).foldl (fun (o : Option State) j =>
        match o with
        | none => none
        | some s =>
          let b := j / h.halves
          let f := j % h.halves
          let w := (s.task? t).bind fun x => x.writeOf list layer head b f
          let have_ := (w.map (·.slots)).getD []
          let shape := model s w b f
          let need := (List.range 64).filter fun i =>
            e ≤ h.firstOf b + i && h.firstOf b + i ≤ top && have_.all fun x => x.1 != i
          if need.isEmpty then some s
          else
            match s.openWrite p t k h list layer head b f shape.fmt shape.dim with
            | (0, s) =>
              let pg := (((s.task? t).bind fun x => x.writeOf list layer head b f).map (·.page)).getD 0
              let z := List.replicate (slotBytes (s.page pg).fmt (dimElems (s.page pg).dim)) 0
              let s := s.modTask t fun x => x.mapWrite list layer head b f fun w =>
                need.foldl (fun w i => (w.setSlot i false z 2).setSlot i true z 2) w
              some (s.bump (Rg.CLU_OST_COPY_ZERO_FILLED (s.homeOf pg)) need.length)
            | _ => none) (some s)

/-- Give a page written in place, and no longer ACTIVE, a fresh page to commit into (R273). -/
def State.recopy (s : State) (p t : Nat) (w : PageWrite) : Option (PageWrite × State) :=
  if w.fresh || (s.page w.page).state == 1 then some (w, s)
  else
    (s.copyPage p t w.page).map fun r => ({ w with page := r.1, fresh := true, orig := some w.page }, r.2)

/-- Write one block's slots into its page and bring the entry up to date (R272). -/
def State.commitBlock (s : State) (p : Nat) (w : PageWrite) : State :=
  let s := w.slots.foldl (fun s x =>
    let s := if x.2.1.isEmpty then s else s.frameWrite p w.page (256 * x.1) x.2.1 (x.2.2.2 == 1)
    if x.2.2.1.isEmpty then s else s.frameWrite p w.page (16384 + 256 * x.1) x.2.2.1 (x.2.2.2 == 1)) s
  let e := s.page w.page
  s.putPage w.page { e with
    fill := w.slots.foldl (fun f x => max f (x.1 + 1)) e.fill
    poison := e.poison || w.slots.any fun x => x.2.2.2 != 0
    newBy := none }

/-- Return a page taken by a task that does not keep it (R272, R275). -/
def State.freeNew (s : State) (i : Nat) : State := s.putPage i { s.page i with ref := 0, newBy := none }

/-- Commit one block of task `t` (R272): a page whose slot was filled or repointed meanwhile is lost to a race. -/
def State.commitWrite (s : State) (p t k : Nat) (h : ListHdr) (w : PageWrite) : State :=
  if w.fresh then
    let a := h.slotAddr w.list w.layer w.head w.blk w.half
    let (r, s) := s.readSlot p t k a
    let free_ := match r with
      | .hole => w.orig.isNone
      | .page i => w.orig == some i
      | .fail => false
    if free_ then
      let s := s.commitBlock p w
      let s := (s.devWrite p 1 a (toLe 4 w.page)).st
      match w.orig with
      | some x => s.unref x
      | none => s
    else (s.freeNew w.page).bump (Rg.CLU_OST_ALLOC_ALLOC_RACE (s.poolCluster p))
  else s.commitBlock p w

/-! ### Scores, truncation and eviction (07 R238 to R243) -/

/-- Add a sum of probabilities to a page's score, rounding once to BF16 (R238). -/
def State.addScore (s : State) (i sum : Nat) : State :=
  let x := s.page i
  if x.state = 0 then s
  else s.putPage i { x with score := (bf16.encode ((bf16.decode x.score).add (num32 sum))).1 }

/-- Add to each page its sum over every row and query head of a task, whose parts' sums `xs` are added in FP32 (R238). -/
def State.addScores (s : State) (xs : List (Nat × Nat)) : State :=
  (xs.map (·.1)).eraseDups.foldl (fun s i =>
    s.freeNext.addScore i (bits32 (freeSum s.freeVal ((xs.filter fun x => x.1 == i).map fun x => num32 x.2)))) s

/-- Empty a list slot and drop the reference it held (R240, R243). -/
def State.dropSlot (s : State) (p addr i : Nat) : State := ((s.devWrite p 1 addr (toLe 4 hole)).st).unref i

/-- Cut a stream at position `cut`: positions at and above it are dropped (R243); none when a copy finds the pool empty. -/
def State.truncStream (s : State) (p t k : Nat) (h : ListHdr) (m : StreamMark) (cut : Nat) : Option State :=
  let (ps, s) := s.streamPages p t k h m.list m.layer m.head
  ps.foldl (fun (o : Option State) x => match o with
    | none => none
    | some s =>
      let first := h.firstOf x.1
      let e := s.page x.2.2
      let keep := cut - first
      let a := h.slotAddr m.list m.layer m.head x.1 x.2.1
      if e.fill ≤ keep then some s
      else if keep = 0 then some (s.dropSlot p a x.2.2)
      else if e.state = 1 then some (s.putPage x.2.2 { e with fill := keep })
      else
        match s.allocPage p t e.fmt e.dim e.half with
        | none => none
        | some (i, s) =>
          let s := s.frameCopy p x.2.2 i 0 (256 * keep)
          let s := s.frameCopy p x.2.2 i 16384 (256 * keep)
          let s := s.putPage i { s.page i with fill := keep, score := e.score, poison := e.poison, newBy := none }
          let s := (s.devWrite p 1 a (toLe 4 i)).st
          some ((s.unref x.2.2).bump (Rg.CLU_OST_COPY_COPIES (s.homeOf i)))) (some s)

/-- The block of lowest score among the unprotected, the lower position on a tie (R239). -/
def State.evictPick (s : State) (cand : List (Nat × List (Nat × Nat))) : Option (Nat × List (Nat × Nat)) :=
  let sc (x : Nat × List (Nat × Nat)) : Num := match x.2 with
    | y :: _ => bf16.decode (s.page y.2).score
    | [] => Num.zero
  cand.foldl (fun b x => match b with
    | none => some x
    | some y => if (sc x).lt (sc y) then some x else some y) none

/-- Evict from a stream until its pages are within budget (R239, R240): `n` rounds at most; the pages evicted. -/
def State.evictLoop (p : Nat) (h : ListHdr) (m : StreamMark) :
    Nat → List (Nat × List (Nat × Nat)) → State → Nat × Bool × State
  | 0, _, s => (0, false, s)
  | n + 1, bs, s =>
    if bs.length ≤ m.budget then (0, false, s)
    else
      match s.evictPick ((bs.drop m.sink).take (bs.length - m.sink - m.window)) with
      | none => (0, true, s)
      | some b =>
        let s := b.2.foldl (fun s y => s.dropSlot p (h.slotAddr m.list m.layer m.head b.1 y.1) y.2) s
        let r := State.evictLoop p h m n (bs.filter fun x => x.1 != b.1) s
        (r.1 + b.2.length, r.2.1, r.2.2)

/-- Eviction of one stream at a commit on logical core `core` (R239, R253); a page pair counts as one page (assumption
12). -/
def State.evictStream (s : State) (p t k core : Nat) (h : ListHdr) (m : StreamMark) : State :=
  if m.budget = 0 || !m.evict then s
  else
    let (ps, s) := s.streamPages p t k h m.list m.layer m.head
    let bs := ps.foldl (fun (acc : List (Nat × List (Nat × Nat))) x => match acc.getLast? with
      | some y => if y.1 = x.1 then acc.dropLast ++ [(y.1, y.2 ++ [x.2])] else acc ++ [(x.1, [x.2])]
      | none => [(x.1, [x.2])]) []
    let r := State.evictLoop p h m bs.length bs s
    let c := s.physCore core
    let s := r.2.2.bump (Rg.CORE_ATTN_EVICT_EVICTED c) r.1
    if r.2.1 then s.bump (Rg.CORE_ATTN_EVICT_EVICT_NONE c) else s

/-! ### Commit and undo of a task -/

/-- The distinct streams that a task writes. -/
def Task.streamsWritten (k : Task) : List (Nat × Nat × Nat) :=
  k.writes.foldl (fun acc w => let x := (w.list, w.layer, w.head); if acc.contains x then acc else acc ++ [x]) []

/-- The header of a list as it stands, with no access counted. -/
def State.hdrNow (s : State) (p list : Nat) : ListHdr := ListHdr.ofBytes (s.devRead p 0 list 32).data

/-- Return every page task `t` allocated or copied into, and forget its page changes (R272). -/
def State.undoPages (s : State) (t : Nat) : State :=
  match s.task? t with
  | none => s
  | some k =>
    let s := k.writes.foldl (fun s w => if w.fresh then s.freeNew w.page else s) s
    s.modTask t fun k => { k with writes := [], scores := [], streams := [] }

/-- Commit task `t`'s page changes (R272): zero-filling, then each block, then scores, truncation and eviction; none when
the pool runs empty, and then nothing of it commits. `core` is the logical core on which it commits. -/
def State.commitPages (s : State) (t core : Nat) : Option State :=
  match s.task? t with
  | none => some s
  | some k =>
    let p := k.part
    let cl := s.clusterOf core
    let filled := k.streamsWritten.foldl (fun (o : Option State) x => match o with
      | none => none
      | some s =>
        match s.listHdr p x.1 with
        | (.ok h, s) => s.zeroFill p t cl h x.1 x.2.1 x.2.2
        | (.error _, s) => some s) (some s)
    let copied := ((filled.bind fun s => s.task? t).map (·.writes)).getD [] |>.foldl
      (fun (o : Option (List PageWrite × State)) w => match o with
        | none => none
        | some (ws, s) => (s.recopy p t w).map fun r => (ws ++ [r.1], r.2)) (filled.map fun s => ([], s))
    let cut := copied.bind fun c =>
      let s := c.1.foldl (fun s w => s.commitWrite p t cl (s.hdrNow p w.list) w) c.2
      let s := s.addScores k.scores
      k.streams.foldl (fun (o : Option State) m => match o, m.cutAt with
        | some s, some u => s.truncStream p t cl (s.hdrNow p m.list) m u
        | o, _ => o) (some s)
    cut.map fun s =>
      let s := k.streams.foldl (fun s m => s.evictStream p t cl core (s.hdrNow p m.list) m) s
      s.modTask t fun k => { k with writes := [], scores := [], streams := [] }

end Sys2Proof.Machine
end

