-- ==== Sys2Proof/Machine/Coach.lean ====
section
/-!
DEFINITION. The Coach transport (13_coach_ports.md): routes, frames, flow contexts, messages, acknowledgement, trigger
counters and abort notices, as operations that the commands share.
-/
namespace Sys2Proof.Machine

/-! ### Ports and routes (R418, R419, R451, R457) -/

/-- Port engine `n`. -/
def State.port (s : State) (n : Nat) : CoachPort := find (fun _ => CoachPort.init) s.coach.ports n

/-- Change port engine `n`. -/
def State.modPort (s : State) (n : Nat) (f : CoachPort → CoachPort) : State :=
  { s with coach := { s.coach with ports := ins s.coach.ports n (f (s.port n)) } }

/-- The state of port `n`: 0 DOWN, 1 TRAINING, 2 TRAINED, 3 UP, 4 FAILED (R451). -/
def State.portState (s : State) (n : Nat) : Nat := s.fd (Rg.CCH_PORT_STATUS_STATE n)

/-- Whether port `n` is UP. -/
def State.portUp (s : State) (n : Nat) : Bool := n < s.var.ports && s.portState n == 3

/-- The module's device ID (R51). -/
def State.devId (s : State) : Nat := s.fd Rg.CCH_DEVICE_DEVICE_ID

/-- The route entry of device `d` (R457). -/
def State.route (s : State) (d : Nat) : Nat := find (fun _ => 0) s.coach.routes d

/-- Whether the route entry of `d` is VALID. -/
def State.routeValid (s : State) (d : Nat) : Bool := (s.route d).testBit 3

/-- Whether local port `n` reaches device `d`. -/
def State.reaches (s : State) (d n : Nat) : Bool := (s.route d).testBit (11 + 4 * n)

/-- The remote port through which local port `n` reaches `d`. -/
def State.viaPort (s : State) (d n : Nat) : Nat := bitsOf (s.route d) (8 + 4 * n) 3

/-- COACH_SHARE of partition `p` on port `n`. -/
def State.share (s : State) (p n : Nat) : Nat := s.cfg p (140 + n) 1

/-- Whether port `n` may carry a flow of `p` to `d`: UP, reaching `d`, with a share for `p` (R419). -/
def State.portServes (s : State) (p d n : Nat) : Bool := s.portUp n && s.reaches d n && s.share p n != 0

/-- The port that a flow of `p` to `d` takes (R419). -/
def State.pathFor (s : State) (p d : Nat) : Option Nat :=
  let pri := bitsOf (s.route d) 0 3
  if s.portServes p d pri then some pri
  else
    let b := s.cfg p (148 + pri) 1
    if b != 0xFF && s.portServes p d b then some b else none

/-- The MAC address of port `n` of device `d` (R418). -/
def macOf (d n : Nat) : Nat := 0x02_53_57_00_00_00 + (d * 8 + n) % 2 ^ 16

/-! ### Frames (R420 to R422) -/

/-- The Coach header of a frame (R421). -/
def Frame.header (f : Frame) : Bytes :=
  mkRec 32 [(0, 1, 1), (1, 1, f.type), (2, 1, f.flags), (3, 1, f.spart % 16 + (f.dpart % 16) * 16), (4, 2, f.src % 8192),
    (6, 2, f.dst % 8192), (8, 4, f.job), (12, 2, f.flow), (14, 1, f.op), (15, 1, f.counter), (16, 4, f.psn),
    (20, 2, f.payload.length), (24, 6, f.addr)]

/-- The bytes of a frame from the Coach header to the Coach CRC (R422). -/
def Frame.body (f : Frame) : Bytes :=
  let b := f.header ++ f.payload
  b ++ toLe 4 (crc32c b)

/-- One bit of the Ethernet frame check sequence. -/
def fcsBit (c : Nat) : Nat := if c % 2 = 1 then (c / 2) ^^^ 0xEDB8_8320 else c / 2

/-- The Ethernet frame check sequence (IEEE 802.3), in the order its bytes are sent. -/
def ethFcs (bs : Bytes) : Bytes :=
  let step (c : Nat) (b : Byte) : Nat :=
    let x := c ^^^ b.toNat
    fcsBit (fcsBit (fcsBit (fcsBit (fcsBit (fcsBit (fcsBit (fcsBit x)))))))
  toLe 4 ((bs.foldl step 0xFFFF_FFFF) ^^^ 0xFFFF_FFFF)

/-- The bytes of a frame on the wire of port `n` (R418, R420, R454). -/
def State.wireBytes (s : State) (n : Nat) (f : Frame) : Bytes :=
  let tag := if s.on (Rg.CCH_PORT_CTRL_VLAN n) then
      toBe 4 (0x8100_0000 + s.fd (Rg.CCH_PORT_CTRL_PCP n) * 2 ^ 13 + s.fd (Rg.CCH_PORT_CTRL_VID n))
    else []
  let b := toBe 6 (macOf f.dst (s.viaPort f.dst n)) ++ toBe 6 (macOf s.devId n) ++ tag ++ toBe 2 0x88B5 ++ f.body
  b ++ ethFcs b

/-- Queue an ACK or HELLO frame on port `n` (R450). -/
def State.queueCtrl (s : State) (n : Nat) (f : Frame) : State := s.modPort n fun q => { q with ctrl := q.ctrl ++ [f] }

/-- Queue an ABORT frame on port `n` (R448, R450). -/
def State.queueAbort (s : State) (n : Nat) (f : Frame) : State := s.modPort n fun q => { q with aborts := q.aborts ++ [f] }

/-- Queue a DATA frame of flow context `i` on port `n`. -/
def State.queueData (s : State) (n i : Nat) (f : Frame) : State := s.modPort n fun q => { q with data := q.data ++ [(i, f)] }

/-! ### Flow contexts (R424 to R427) -/

/-- A sending flow context. -/
def State.tx? (s : State) (i : Nat) : Option TxFlow := find? s.coach.tx i

/-- Store or drop a sending flow context. -/
def State.setTx (s : State) (i : Nat) (f : Option TxFlow) : State := match f with
  | some x => { s with coach := { s.coach with tx := ins s.coach.tx i x } }
  | none => { s with coach := { s.coach with tx := del s.coach.tx i } }

/-- Change a sending flow context, if it exists. -/
def State.modTx (s : State) (i : Nat) (f : TxFlow → TxFlow) : State := match s.tx? i with
  | some x => s.setTx i (some (f x))
  | none => s

/-- A receiving flow context. -/
def State.rx? (s : State) (i : Nat) : Option RxFlow := find? s.coach.rx i

/-- Store or drop a receiving flow context. -/
def State.setRx (s : State) (i : Nat) (f : Option RxFlow) : State := match f with
  | some x => { s with coach := { s.coach with rx := ins s.coach.rx i x } }
  | none => { s with coach := { s.coach with rx := del s.coach.rx i } }

/-- Flow contexts in use (CCH_FLOWS.OPEN). -/
def State.flowsOpen (s : State) : Nat := s.coach.tx.length + s.coach.rx.length

/-- The lowest index not used in a table of contexts. -/
def freeIdx {α : Type} (m : SMap α) : Nat := ((List.range (m.length + 1)).find? fun i => (find? m i).isNone).getD 0

/-- The context least recently used among those without unacknowledged frames: sending or receiving, and its index. -/
def State.lruFlow (s : State) : Option (Bool × Nat) :=
  let ts := (s.coach.tx.filter fun e => e.2.unacked.isEmpty && e.2.exp.isNone).map fun e => (true, e.1, e.2.lastAt)
  let rs := (s.coach.rx.filter fun e => e.2.oldestAt.isNone && e.2.got.isEmpty).map fun e => (false, e.1, e.2.lastAt)
  ((ts ++ rs).foldl (fun (b : Option (Bool × Nat × Nat)) x => match b with
    | none => some x
    | some y => if x.2.2 < y.2.2 then some x else some y) none).map fun x => (x.1, x.2.1)

/-- Make sure a context is free, freeing the least recently used idle one if need be (R425): none when all are busy. -/
def State.roomForFlow (s : State) : Option State :=
  if s.flowsOpen < 16384 then some s
  else match s.lruFlow with
    | some (true, i) => some (s.setTx i none)
    | some (false, i) => some (s.setRx i none)
    | none => none

/-- GROUP_CRC of partition `p` (R426). -/
def State.groupCrc (s : State) (p : Nat) : Nat := match (s.part p).cfg with
  | some c => match c.group with
    | some g => crc32c (g.drop 2)
    | none => 0
  | none => 0

/-- The port firmware version that runs (R426). -/
def State.portFw (s : State) : Nat := match s.bundle with
  | some b => b.port
  | none => 0

/-- The HELLO request of a sending flow (R426). -/
def State.helloFrame (s : State) (f : TxFlow) : Frame :=
  ⟨4, 0, f.part, f.dpart, s.devId, f.dev, f.job, f.flow, 0, 0, 0, 0,
    mkRec 64 [(0, 1, f.kind), (4, 4, s.groupCrc f.part), (8, 4, s.portFw)]⟩

/-- The next FLOW number of partition `p`, skipping numbers with live state (R424). -/
def State.nextFlowNo (s : State) (p : Nat) : Nat :=
  let c := find (fun _ => 0) s.coach.flowNext p
  let used (n : Nat) : Bool := s.coach.tx.any fun e => e.2.part == p && e.2.flow == n
  (((List.range 65536).map fun i => (c + i) % 65536).find? fun n => !used n).getD c

/-- RTO_US, RETRY_MAX, ACK_DELAY (ns), FLOW_CREDIT of R456. -/
def State.rtoUs (s : State) : Nat := s.fd Rg.CCH_XPORT_CFG_RTO_US
/-- RETRY_MAX. -/
def State.retryMax (s : State) : Nat := s.fd Rg.CCH_XPORT_CFG_RETRY_MAX
/-- FLOW_CREDIT. -/
def State.flowCredit (s : State) : Nat := s.fd Rg.CCH_XPORT_CFG_FLOW_CREDIT

/-- What an attempt to open a flow gives: a context, no VALID route, no path, or a wait for a context. -/
inductive OpenRes
  | flow (i : Nat)
  | disabled
  | noPath
  | waits
deriving DecidableEq, Repr

/-- Open a new flow of kind `kind` (0 job, 1 export) from `p` to partition `dp` of device `d`: a HELLO leaves on its port
(R419, R424 to R426). -/
def State.openFlow (s : State) (p d dp kind : Nat) (exp : Option Nat) : OpenRes × State :=
  if !s.routeValid d then (.disabled, s)
  else match s.pathFor p d with
    | none => (.noPath, s)
    | some n => match s.roomForFlow with
      | none => (.waits, s)
      | some s =>
        let i := freeIdx s.coach.tx
        let no := s.nextFlowNo p
        let f : TxFlow := ⟨p, d, dp, no, kind, s.jobId p, n, false, s.now, 0, 0, 0, [], 0, s.now, [], exp⟩
        let s := { s with coach := { s.coach with flowNext := ins s.coach.flowNext p ((no + 1) % 65536) } }
        (.flow i, (s.setTx i (some f)).queueCtrl n (s.helloFrame f))

/-- The job flow of `p` to `dp` at `d`: the open one, or a new one (R424). -/
def State.jobFlow (s : State) (p d dp : Nat) : OpenRes × State :=
  match s.coach.tx.find? fun e => e.2.kind == 0 && e.2.part == p && e.2.dev == d && e.2.dpart == dp &&
      e.2.job == s.jobId p with
  | some e => if s.routeValid d then (.flow e.1, s) else (.disabled, s)
  | none => s.openFlow p d dp 0 none

/-- Whether PSN `x` lies in the window from `base` to below `limit`, modulo 2^32. -/
def psnIn (base limit x : Nat) : Bool := (x + 2 ^ 32 - base) % 2 ^ 32 < (limit + 2 ^ 32 - base) % 2 ^ 32

/-- The oldest PSN not acknowledged of a sending flow. -/
def TxFlow.base (f : TxFlow) : Nat := match f.unacked with
  | u :: _ => u.frame.psn
  | [] => f.nextPsn

/-- Queue every frame of an open flow that its credit allows and that has not been queued (R426, R429). -/
def State.pumpFlow (s : State) (i : Nat) : State := match s.tx? i with
  | none => s
  | some f =>
    if !f.opened then s
    else
      let ready (u : TxFrame) : Bool := !u.sent && psnIn f.base f.credit u.frame.psn
      let s := (f.unacked.filter ready).foldl (fun s u => s.queueData f.port i u.frame) s
      let mark (u : TxFrame) : TxFrame := if ready u then { u with sent := true, sentAt := s.now, rtoUs := s.rtoUs } else u
      s.modTx i fun f => { f with unacked := f.unacked.map mark }

/-- DATA flags of frame `j` of `n` (R421, R430): FIRST, LAST, ACK_REQ on the last and on every 32nd PSN, CTR on the last. -/
def dataFlags (j n psn : Nat) (ctr : Bool) : Nat :=
  b2n (j == 0) + 2 * b2n (j + 1 == n) + 4 * b2n (j + 1 == n || psn % 32 == 31) + 16 * b2n (ctr && j + 1 == n)

/-- Give a flow one message: frames of (address, payload), with the counter its last frame raises (R423). -/
def State.flowSend (s : State) (i op : Nat) (ctr : Option Nat) (parts : List (Nat × Bytes)) : State := match s.tx? i with
  | none => s
  | some f =>
    let n := parts.length
    let fr := parts.zipIdx.map fun x =>
      let psn := (f.nextPsn + x.2) % 2 ^ 32
      let last := x.2 + 1 == n
      (⟨⟨1, dataFlags x.2 n psn ctr.isSome, f.part, f.dpart, s.devId, f.dev, f.job, f.flow, op,
        if last then ctr.getD 0 else 0, psn, x.1.1, x.1.2⟩, 0, s.rtoUs, 0, false, false⟩ : TxFrame)
    (s.setTx i (some { f with unacked := f.unacked ++ fr, nextPsn := (f.nextPsn + n) % 2 ^ 32, lastAt := s.now })).pumpFlow i

/-- The frames of a WRITE of `bs` to `dst`: 8,192 bytes each, one empty frame for no bytes (R423). -/
def writeFrames (dst : Nat) (bs : Bytes) : List (Nat × Bytes) :=
  if bs.isEmpty then [(dst, [])]
  else (List.range ((bs.length + 8191) / 8192)).map fun j => (dst + 8192 * j, (bs.drop (8192 * j)).take 8192)

/-- Make task `t` wait for the acknowledgement of what flow `i` has been given. -/
def State.awaitFlow (s : State) (t i : Nat) : State :=
  let s := s.modTx i fun f => { f with tasks := f.tasks.filter (fun x => x.1 != t) ++ [(t, f.nextPsn)] }
  s.modTask t fun k => if k.flows.contains i then k else { k with flows := k.flows ++ [i] }

/-! ### Acknowledgement (R428, R429) -/

/-- The ACK frame of a receiving flow (R428). -/
def State.ackFrame (s : State) (f : RxFlow) : Frame :=
  let sack := (List.range 256).foldl (fun a b =>
    if f.got.any fun g => g.1 == (f.ack + 1 + b) % 2 ^ 32 then a + 2 ^ b else a) 0
  ⟨2, 0, f.part, f.spart, s.devId, f.srcDev, f.job, f.flow, 0, 0, 0, 0,
    mkRec 48 [(0, 4, f.ack), (4, 4, f.credit), (8, 32, sack)]⟩

/-- Send an ACK for receiving flow `i`, with its credit brought up to date (R429). -/
def State.sendAck (s : State) (i : Nat) : State := match s.rx? i with
  | none => s
  | some f =>
    let c := (f.ack + s.flowCredit) % 2 ^ 32
    let f := { f with
      credit := if psnIn f.credit ((f.credit + 2 ^ 31) % 2 ^ 32) c then c else f.credit
      since := 0, oldestAt := none }
    let f := { f with creditSent := f.credit }
    (s.setRx i (some f)).queueCtrl f.port (s.ackFrame f)

/-! ### Trigger counters (R432) -/

/-- Trigger counter `c` of partition `p`. -/
def State.trigger (s : State) (p c : Nat) : Nat := find (fun _ => 0) s.coach.ctrs (256 * p + c)

/-- Set a trigger counter, by its key 256 × partition + counter. -/
def State.setCtr (s : State) (key n : Nat) : State := { s with coach := { s.coach with ctrs := ins s.coach.ctrs key n } }

/-- End the waits on a counter that its count meets, in order, consuming it: `n` of them at most. Each notes in its task how
long it lasted and when it ended (R432, R439). -/
def State.settleWaits (key : Nat) : Nat → State → State
  | 0, s => s
  | n + 1, s => match s.coach.waiters.find? fun w => w.1 == key with
    | none => s
    | some w =>
      let v := find (fun _ => 0) s.coach.ctrs key
      if v < w.2.1 then s
      else
        let s := s.setCtr key (v - w.2.1)
        let s : State := { s with coach := { s.coach with waiters := s.coach.waiters.filter fun x => x.2.2 != w.2.2 } }
        State.settleWaits key n (s.modTask w.2.2 fun k => { k with
          waitSince := none, rep := k.rep ++ [(0, 0xFFFF, s.now - k.waitSince.getD s.now, s.time.dev)] })

/-- Add one to a trigger counter; counters are 32 bits wide. -/
def State.triggerUp (s : State) (p c : Nat) : State :=
  let key := 256 * p + c
  State.settleWaits key (s.coach.waiters.length + 1) (s.setCtr key ((s.trigger p c + 1) % 2 ^ 32))

/-- Task `t` begins to wait until counter `c` reaches `n`, behind earlier waiters (R432); a threshold of 0 is met at once. -/
def State.waitOn (s : State) (p c t n : Nat) : State :=
  let s := s.modTask t fun k => { k with waitSince := some s.now }
  if n = 0 then s.modTask t fun k => { k with waitSince := none, rep := k.rep ++ [(0, 0xFFFF, 0, s.time.dev)] }
  else
    State.settleWaits (256 * p + c) (s.coach.waiters.length + 1)
      { s with coach := { s.coach with waiters := s.coach.waiters ++ [(256 * p + c, n, t)] } }

/-! ### Abort notices (R447, R448) -/

/-- The members of partition `p`'s GROUP list in rank order: (device, partition) (R55). -/
def State.groupOf (s : State) (p : Nat) : List (Nat × Nat) := match (s.part p).cfg with
  | some c => match c.group with
    | some g => (List.range (fieldAt g 2 2)).map fun i => (fieldAt g (8 + 4 * i) 2 % 8192, fieldAt g (10 + 4 * i) 1)
    | none => []
  | none => []

/-- This member's rank in its group. -/
def State.rankOf (s : State) (p : Nat) : Option Nat := (s.groupOf p).findIdx? fun m => m == (s.devId, p)

/-- The peers that hold a job flow with partition `p` under its JOB_ID: (device, partition). -/
def State.jobPeers (s : State) (p : Nat) : List (Nat × Nat) :=
  let a := (s.coach.tx.filter fun e => e.2.part == p && e.2.kind == 0 && e.2.job == s.jobId p).map fun e => (e.2.dev, e.2.dpart)
  let b := (s.coach.rx.filter fun e => e.2.part == p && e.2.job == s.jobId p).map fun e => (e.2.srcDev, e.2.spart)
  (a ++ b).foldl (fun acc x => if acc.contains x then acc else acc ++ [x]) []

/-- The ports usable toward device `d`: UP and reaching it. -/
def State.usablePorts (s : State) (d : Nat) : List Nat :=
  (List.range s.var.ports).filter fun n => s.portUp n && s.reaches d n

/-- Send an ABORT with payload `pay` from partition `p` to partition `dp` of device `d`: on the peer's path now, and again
2 µs later on another usable port, or on the same (R448). -/
def State.abortTo (s : State) (p d dp : Nat) (pay : Bytes) : State :=
  let f : Frame := ⟨3, 0, p, dp, s.devId, d, s.jobId p, 0, 0, 0, 0, 0, pay⟩
  let us := s.usablePorts d
  match (match s.pathFor p d with
    | some n => some n
    | none => us.head?) with
  | none => s
  | some n =>
    let m := ((us.filter (· != n)).head?).getD n
    let s := s.queueAbort n f
    { s with coach := { s.coach with copies := s.coach.copies ++ [⟨s.now + 2000, m, f⟩] } }

/-- The ABORT payload (R447). -/
def abortPayload (dev part cause fid time : Nat) : Bytes :=
  mkRec 32 [(0, 2, dev), (2, 1, part), (3, 1, cause), (4, 4, fid), (8, 8, time)]

/-- Send the ABORT frames of a job fault that partition `p` takes: to every other member of its GROUP list and every peer
of a job flow (R448). -/
def State.sendAborts (s : State) (p cause : Nat) : State :=
  let pay := abortPayload s.devId p cause (s.fd (Rg.FLT_PART_FAULT_ID p)) s.time.dev
  let peers := (s.groupOf p ++ s.jobPeers p).foldl (fun (acc : List (Nat × Nat)) x =>
    if x.1 = s.devId || acc.contains x then acc else acc ++ [x]) []
  peers.foldl (fun s x => s.abortTo p x.1 x.2 pay) s

/-! ### Export contexts (R442 to R445) -/

/-- The EXPORT_END payload (R444). -/
def endPayload (req pages status : Nat) : Bytes := mkRec 32 [(0, 8, req), (8, 4, pages), (12, 1, status)]

/-- Count an EXPORT_END by its status (R458). -/
def State.countEnd (s : State) (status : Nat) : State :=
  if status = 0 then s.bump Rg.CCH_EXPORT_END_COMPLETE
  else if status = 1 then s.bump Rg.CCH_EXPORT_END_CANCELLED else s.bump Rg.CCH_EXPORT_END_ABORTED

/-- Send EXPORT_END with `status` on flow `i`; ABORTED is sent once, without retransmission (R445). -/
def State.sendEnd (s : State) (i req pages status : Nat) : State :=
  if status = 2 then
    match s.tx? i with
    | none => s
    | some f =>
      if f.opened then
        (s.queueData f.port i ⟨1, 7, f.part, f.dpart, s.devId, f.dev, f.job, f.flow, 0x12, 0, f.nextPsn, 0,
          endPayload req pages 2⟩).countEnd 2
      else s
  else (s.flowSend i 0x12 none [(0, endPayload req pages status)]).countEnd status

/-- Abort every open export of partition `p`: END with ABORTED on every open export flow; the contexts and their flows are
freed, and pages in transit end their export (R445). -/
def State.abortExports (s : State) (p : Nat) : State :=
  let es := s.coach.exports.filter fun e => e.2.part == p
  let s := es.foldl (fun s e =>
    let x := e.2
    let s := x.flows.foldl (fun s i => (s.sendEnd i (find (fun _ => Entry.free) s.ledger x.entry).reqId x.next 2).setTx i none) s
    let s := x.transit.foldl (fun s t => s.expEnd t.1) s
    { s with coach := { s.coach with exports := del s.coach.exports e.1 } }) s
  { s with coach := { s.coach with exportWait := s.coach.exportWait.filter fun e =>
      (allParts.find? fun q => (s.part q).ledBase ≤ e && e < (s.part q).ledBase + (s.part q).ledN) != some p } }

end Sys2Proof.Machine
end

