-- ==== Sys2Proof/Machine/Checks.lean ====
section
/-!
DEFINITION. Graph images, descriptors and blocks: their fields and the checks of LOAD and of a step start
(10_task_graphs.md R319 to R327, R330).
-/
namespace Sys2Proof.Machine

/-! ### The graph header (R320, R321) -/

/-- POOL. -/
def Graph.pool (g : Graph) : Nat := fieldAt g.header 7 1
/-- NODES. -/
def Graph.nodes (g : Graph) : Nat := fieldAt g.header 8 2
/-- GFLAGS.BATCHED. -/
def Graph.batched (g : Graph) : Bool := bitOf (fieldAt g.header 10 1) 0
/-- OVF_COUNT. -/
def Graph.ovfCount (g : Graph) : Nat := fieldAt g.header 12 4
/-- STEP_ROWS_MAX. -/
def Graph.rowsMax (g : Graph) : Nat := fieldAt g.header 16 4
/-- STEP_ADDR. -/
def Graph.stepAddr (g : Graph) : Nat := fieldAt g.header 24 8
/-- Nodes of the quota that a graph of this header occupies (R321). -/
def Graph.cost (g : Graph) : Nat := g.nodes + (g.ovfCount + 63) / 64
/-- The descriptor in slot `n`. -/
def Graph.desc (g : Graph) (n : Nat) : Bytes := g.descs.getD n []

/-- The graph of partition `p` with tag `tag`. -/
def State.graph? (s : State) (p tag : Nat) : Option Graph := find? (s.part p).graphs tag

/-- Change a resident graph. -/
def State.modGraph (s : State) (p tag : Nat) (f : Graph → Graph) : State :=
  s.modPart p fun q => { q with graphs := match find? q.graphs tag with
    | some g => ins q.graphs tag (f g)
    | none => q.graphs }

/-- Whether a step of the graph runs. -/
def Graph.running (g : Graph) : Bool := match g.run with
  | some r => r.endAt.isNone
  | none => false

/-- Whether any step of partition `p` runs. -/
def State.anyRunning (s : State) (p : Nat) : Bool := (s.part p).graphs.any fun e => e.2.running

/-- Nodes of its quota that partition `p` uses (DSP_STATUS.RESIDENT). -/
def State.nodesUsed (s : State) (p : Nat) : Nat := (s.part p).graphs.foldl (fun n e => n + e.2.cost) 0

/-- Whether address `a` lies in partition `p`'s own memory: its regions outside the frame area, or the staging and scratch
of its slices. -/
def State.ownMem (s : State) (p a : Nat) : Bool := a < windowBase && s.mayReach p a

/-- Whether `n` bytes at `a` lie in partition `p`'s own memory. -/
def State.ownRange (s : State) (p a n : Nat) : Bool := a < windowBase && (s.badPoint p a n).isNone

/-- Whether the header meets R320; reserved bits set in it are ignored (00 R10). -/
def State.headerOk (s : State) (p : Nat) (h : Bytes) : Bool :=
  fieldAt h 0 4 == 0x46524756 && fieldAt h 4 2 == 1 && fieldAt h 6 1 < 16 && fieldAt h 7 1 < 2 &&
    1 ≤ fieldAt h 8 2 && fieldAt h 8 2 ≤ 16383 && fieldAt h 12 4 ≤ 65536 &&
    1 ≤ fieldAt h 16 4 && fieldAt h 16 4 ≤ 1048576 && s.ownRange p (fieldAt h 24 8) 32

/-! ### Descriptors (R322 to R326) -/

/-- KIND. -/
def dKind (d : Bytes) : Nat := fieldAt d 0 1
/-- FLAGS.EXT. -/
def dExt (d : Bytes) : Bool := bitOf (fieldAt d 1 1) 0
/-- FLAGS.BIND. -/
def dBind (d : Bytes) : Bool := bitOf (fieldAt d 1 1) 1
/-- FLAGS.QUIET. -/
def dQuiet (d : Bytes) : Bool := bitOf (fieldAt d 1 1) 2
/-- NPRED. -/
def dNpred (d : Bytes) : Nat := fieldAt d 2 2
/-- Slice index of ROW_SLICE. -/
def dSlice (d : Bytes) : Nat := fieldAt d 26 1
/-- Slice count of ROW_SLICE. -/
def dSlices (d : Bytes) : Nat := fieldAt d 27 1
/-- ISSUE_PRIO. -/
def dPrio (d : Bytes) : Nat := fieldAt d 28 1
/-- Whether the slot holds an extension. -/
def isExt (d : Bytes) : Bool := dKind d == 0xFE

/-- The predecessors of slot `n` (R327). -/
def Graph.preds (g : Graph) (n : Nat) : List Nat :=
  let d := g.desc n
  (List.range (dNpred d)).map fun i =>
    if i < 8 then fieldAt d (8 + 2 * i) 2 else g.ovf.getD (fieldAt d 4 4 + (i - 8)) 0xFFFF

/-- GEMM body fields (R324). -/
def gFmtA (d : Bytes) : FmtWord := FmtWord.ofNat (fieldAt d 32 4)
/-- FMT_B. -/
def gFmtB (d : Bytes) : FmtWord := FmtWord.ofNat (fieldAt d 36 4)
/-- FMT_C. -/
def gFmtC (d : Bytes) : FmtWord := FmtWord.ofNat (fieldAt d 40 4)
/-- FMT_D. -/
def gFmtD (d : Bytes) : FmtWord := FmtWord.ofNat (fieldAt d 44 4)
/-- ARRAY_CTRL. -/
def gCtrl (d : Bytes) : Nat := fieldAt d 48 4
/-- ARRAY_CTRL.CONV. -/
def gConv (d : Bytes) : Bool := bitOf (gCtrl d) 6
/-- SPARSE. -/
def gSparse (d : Bytes) : Nat := fieldAt d 52 4
/-- AGEN. -/
def gAgen (d : Bytes) : Nat := fieldAt d 70 1
/-- XPOSE. -/
def gXpose (d : Bytes) : Nat := fieldAt d 71 1
/-- An extension field of a GEMM: zero without FLAGS.EXT (R325). -/
def Graph.extField (g : Graph) (n off size : Nat) : Nat :=
  if dExt (g.desc n) then fieldAt (g.desc (n + 1)) off size else 0

/-- Whether `x` lies in `lo` to `hi`. -/
def inRange (x lo hi : Nat) : Bool := lo ≤ x && x ≤ hi

/-- Whether a GEMM body and its extension break R324, R325, R156 or R191 at LOAD. -/
def Graph.gemmBad (g : Graph) (n : Nat) : Bool :=
  let d := g.desc n
  let x := gXpose d
  let sa := gSparse d % 4 == 1
  let e := g.desc (n + 1)
  let scaledDir1 (w : FmtWord) : Bool := w.scale != 0 && w.dir
  (!dBind d && !inRange (fieldAt d 56 4) 1 16777216) || !inRange (fieldAt d 60 4) 1 16777216 ||
    !inRange (fieldAt d 64 4) 1 16777216 || gCtrl d % 4 == 3 || bitsOf (gCtrl d) 2 2 == 3 || 128 ≤ gCtrl d ||
    16 ≤ gSparse d || 2 < gAgen d || (gAgen d == 2) != gConv d || 8 ≤ x || (gAgen d != 0 && bitOf x 0) ||
    (gAgen d != 0 && !dExt d) || (sa && (gConv d || gAgen d == 1 || bitOf x 0)) || !allZero (slice d 120 8) ||
    (dBind d && (gConv d || scaledDir1 (gFmtA d) || (g.extField n 48 8 == 0 && scaledDir1 (gFmtD d)))) ||
    (dExt d && (!allZero (slice e 1 7) || !allZero (slice e 78 50) ||
      (fieldAt e 56 8 != 0 && !(1 ≤ fieldAt e 72 4 && fieldAt e 72 4 < fieldAt d 64 4))))

/-- Bytes of the largest tile set of a SKIM ENCODE (R209). -/
def skimNeed (lines k w : Nat) : Nat := ((lines + 31) / 32) * ((k + 31) / 32) * (8 + 16 + 1024 * w)

/-- Whether a SKIM parameter block breaks R209. -/
def skimBad (b : Bytes) : Bool :=
  let op := fieldAt b 0 1
  let f := fieldAt b 4 4
  let fm := f % 16
  let w := fmtBits fm / 8
  !inRange op 1 3 || (if op = 1 then 2 ≤ fieldAt b 1 1 else fieldAt b 1 1 != 0) || 2 ≤ fieldAt b 2 1 || 2 ≤ fieldAt b 3 1 ||
    !(fm == 0 || fm == 2 || fm == 3 || fm == 4) || 32 ≤ f || (bitOf f 4 && fm != 4) ||
    !inRange (fieldAt b 8 4) 1 16777216 || !inRange (fieldAt b 12 4) 1 16777216 ||
    (op == 1 && fieldAt b 36 4 < skimNeed (fieldAt b 8 4) (fieldAt b 12 4) w)

/-- Whether a descriptor's body breaks R323 to R326 or R209 at LOAD. -/
def Graph.bodyBad (s : State) (p : Nat) (g : Graph) (n : Nat) : Bool :=
  let d := g.desc n
  match dKind d with
  | 1 => g.gemmBad n
  | 2 => !allZero (slice d 40 88)
  | 3 => !inRange (fieldAt d 40 2) 1 4096 || 8 < fieldAt d 42 1 || !allZero (slice d 43 5) || !allZero (slice d 56 72)
  | 4 =>
    let x := fieldAt d 64 1
    !inRange (fieldAt d 48 4) 1 16777216 || !inRange (fieldAt d 52 4) 1 16777216 || !(x == 0 || x == 1 || x == 2 || x == 4) ||
      (x != 0 && fieldAt d 52 4 % x != 0) || !allZero (slice d 65 63)
  | 5 => !allZero (slice d 40 88)
  | 6 => !allZero (slice d 40 88)
  | 7 => skimBad (slice d 32 48) || !allZero (slice d 80 48)
  | 8 =>
    let t := fieldAt d 32 1
    !(t == 0xFF || (s.ctlOf p).contains t) || !allZero (slice d 33 7) || !allZero (slice d 72 56)
  | _ => true

/-- Whether PLACE breaks R322 or names a core or cluster not of the partition (R330). -/
def State.placeBad (s : State) (p kind place : Nat) : Bool :=
  if kind == 2 || kind == 5 || kind == 6 || kind == 8 then place != 0
  else match place / 2 ^ 14 with
    | 0 => place != 0
    | 1 => 256 ≤ place % 2 ^ 14 || !(s.coresBits p).testBit (place % 256)
    | 2 => 16 ≤ place % 2 ^ 14 || (s.coresOf p).all fun c => c / 16 != place % 16
    | _ => true

/-- Whether the ROW_SLICE and BIND of a descriptor break R322 or R331. -/
def sliceBad (d : Bytes) : Bool :=
  let k := dKind d
  if dBind d then
    !inRange k 1 4 || (if k = 2 then dSlice d != 0 || dSlices d != 1 else dSlices d == 0 || dSlices d ≤ dSlice d)
  else fieldAt d 26 2 != 0

/-- Whether slot `n` is malformed at LOAD (R322 to R327, R330). -/
def Graph.nodeBad (s : State) (p : Nat) (g : Graph) (n : Nat) : Bool :=
  let d := g.desc n
  let before := 0 < n && dKind (g.desc (n - 1)) == 1 && dExt (g.desc (n - 1))
  if isExt d then !before
  else
    before || (dExt d && (dKind d != 1 || g.nodes ≤ n + 1)) || 8 ≤ fieldAt d 1 1 || 4096 < dNpred d ||
      (8 < dNpred d && g.ovfCount < fieldAt d 4 4 + (dNpred d - 8)) ||
      ((g.preds n).any fun q => n ≤ q || isExt (g.desc q)) || s.placeBad p (dKind d) (fieldAt d 24 2) || sliceBad d ||
      4 ≤ dPrio d || !allZero (slice d 29 3) || g.bodyBad s p n

/-! ### Binding (R331) -/

/-- The rows of slice `i` of `n` of a step of `r` rows: the first and the end. -/
def sliceRows (r i n : Nat) : Nat × Nat := (i * r / n, (i + 1) * r / n)

/-- The rows that a descriptor takes of a step of `r` rows; a task that is not bound has none of its own. -/
def boundRows (d : Bytes) (r : Nat) : Nat × Nat :=
  if dKind d = 2 then (0, r) else sliceRows r (dSlice d) (max 1 (dSlices d))

/-- Whether a bound task's slice is empty (R332). -/
def emptySlice (d : Bytes) (r : Nat) : Bool := dBind d && (boundRows d r).1 == (boundRows d r).2

/-! ### Blocks in memory -/

/-- Read a block that a descriptor names: none when it could not be read or held a poisoned or uncorrectable codeword. -/
def State.blk (s : State) (p a n : Nat) : Option Bytes × State :=
  let r := s.devRead p 0 a n
  (if r.code = 0 && r.poison.isEmpty then some r.data else none, r.st)

/-- The outcome of checking a block: it meets its rules, breaks them, or could not be read. -/
inductive Chk | ok | bad | unread
deriving DecidableEq, Repr

/-- The first outcome that is not ok. -/
def Chk.and : Chk → Chk → Chk
  | .ok, b => b
  | a, _ => a

/-! ### Stage lists (05 R163, R165; 08 R258) -/

/-- The stages of a list up to the first END, at most 8. -/
def stagesOf (b : Bytes) : List Bytes :=
  ((List.range 8).map fun i => slice b (32 * i) 32).takeWhile fun x => fieldAt x 0 1 != 0

/-- Whether a format word and head dimension are an allowed slot format (08 R256 to R258); reserved bits are ignored (00 R10). -/
def slotFmtOk (w : Nat) (d : Nat) : Bool :=
  let f := FmtWord.ofNat w
  f.codesOk && f.expand == 0 && !f.sgn &&
    ((f.fmt == 0 && f.scale == 0 && (d == 32 || d == 64 || d == 96 || d == 128 || d == 256)) ||
     ((f.fmt == 2 || f.fmt == 3) && f.scale == 1 && f.block == 2 && !f.dir && d % 32 == 0 && 32 ≤ d && (d ≤ 224 || d == 256)))

/-- Whether one stage other than stage 0 is malformed for `n` columns; reserved bytes are ignored (00 R10). -/
def stageBad (n : Nat) (x : Bytes) : Bool :=
  let k := fieldAt x 0 1
  let nc := fieldAt x 4 2
  let par := fieldAt x 12 4
  let hd := par / 65536
  let kd := fieldAt x 24 8 % 65536
  7 < k || k == 1 || n < fieldAt x 2 2 + nc || (k == 3 && 3 < par) ||
    (k == 5 && (hd == 0 || nc % hd != 0 || par % 2 == 1 || par % 65536 < 2 || hd < par % 65536)) ||
    (k == 6 && (FmtWord.ofNat (fieldAt x 8 4)).scale != 0 && fieldAt x 24 8 == 0) ||
    (k == 7 && (kd == 0 || nc % kd != 0 || !slotFmtOk (fieldAt x 8 4) kd))

/-- Whether a stage list is malformed for a task of `n` columns (05 R165). -/
def stagesBad (n : Nat) (b : Bytes) : Bool :=
  match stagesOf b with
  | [] => true
  | x0 :: t => fieldAt x0 0 1 != 1 || n < fieldAt x0 2 2 + fieldAt x0 4 2 || t.any (stageBad n) ||
      t.all fun x => fieldAt x 0 1 != 6 && fieldAt x 0 1 != 7

/-- Read a stage list: entries up to the first END, and no further. -/
def State.readStages (s : State) (p a : Nat) : Option Bytes × State :=
  (List.range 8).foldl (fun (acc : Option Bytes × State) i => match acc.1 with
    | none => acc
    | some b =>
      if b.length < 32 * i || (0 < i && fieldAt (b.drop (32 * (i - 1))) 0 1 = 0) then acc
      else match acc.2.blk p (a + 32 * i) 32 with
        | (some x, s) => (some (b ++ x), s)
        | (none, s) => (none, s)) (some [], s)

/-! ### Convolution records (04 R137, R138) -/

/-- Output height of a convolution record. -/
def convOH (c : Bytes) : Nat :=
  let a := fieldAt c 0 2 + fieldAt c 12 1 + fieldAt c 13 1
  let b := fieldAt c 10 1 * (fieldAt c 6 1 - 1) + 1
  if a < b then 0 else (a - b) / fieldAt c 8 1 + 1
/-- Output width of a convolution record. -/
def convOW (c : Bytes) : Nat :=
  let a := fieldAt c 2 2 + fieldAt c 14 1 + fieldAt c 15 1
  let b := fieldAt c 11 1 * (fieldAt c 7 1 - 1) + 1
  if a < b then 0 else (a - b) / fieldAt c 9 1 + 1

/-- Whether a convolution record breaks R137 or R138 for a task of M rows and K. -/
def convBad (c : Bytes) (m k : Nat) : Bool :=
  let f (o lo hi : Nat) : Bool := inRange (fieldAt c o 1) lo hi
  !(1 ≤ fieldAt c 0 2 && 1 ≤ fieldAt c 2 2 && 1 ≤ fieldAt c 4 2 && f 6 1 16 && f 7 1 16 && f 8 1 8 && f 9 1 8 && f 10 1 8 &&
    f 11 1 8 && f 12 0 15 && f 13 0 15 && f 14 0 15 && f 15 0 15) ||
    k != fieldAt c 6 1 * fieldAt c 7 1 * fieldAt c 4 2 || convOH c == 0 || convOW c == 0 || m % (convOH c * convOW c) != 0

/-! ### Attention blocks (07 R220, R222, R223) -/

/-- One part of an attention task: KV head, core if pinned, first row, end row. -/
structure AttnPart where
  head : Nat
  core : Option Nat
  row0 : Nat
  row1 : Nat
deriving DecidableEq, Repr

/-- The parts that a head map names, over `rows` rows. -/
def mapParts (m : Bytes) (n rows : Nat) : List AttnPart :=
  (List.range n).map fun i =>
    let e := slice m (16 * i) 16
    let c := fieldAt e 2 2
    let r0 := fieldAt e 4 4
    let nr := fieldAt e 8 4
    ⟨fieldAt e 0 1, if c = 0xFFFF then none else some c, r0, if nr = 0 then max r0 rows else r0 + nr⟩

/-- Whether two parts of a head map overlap. -/
def AttnPart.meets (a b : AttnPart) : Bool := a.head == b.head && a.row0 < b.row1 && b.row0 < a.row1

/-- Whether some two parts of a list overlap. -/
def anyMeet : List AttnPart → Bool
  | [] => false
  | a :: t => t.any a.meets || anyMeet t

/-- Whether a verify extension holds a reserved code or a value outside its range (07 R223, R241). -/
def verifyExtBad (e : Bytes) : Bool := !inRange (fieldAt e 12 4) 2 1048576 || !inRange (fieldAt e 24 2) 1 4096 || 1 < fieldAt e 26 1

/-- Whether an attention block (ROWS as in force) and its head map are malformed (R223); `bind` relaxes ranges past ROWS. Reserved bits
are ignored (00 R10). -/
def State.attnBad (s : State) (p : Nat) (bind : Bool) (b m : Bytes) : Bool :=
  let op := fieldAt b 0 1
  let rows := fieldAt b 20 4
  let rowsBad := !bind && !inRange rows 1 1048576
  if op = 3 then rowsBad || bitOf (fieldAt b 2 1) 2
  else
    let flags := fieldAt b 2 1
    let hm := fieldAt b 72 8
    let n := fieldAt b 18 2
    let ps := mapParts m n rows
    let badEntry (i : Nat) : Bool :=
      let e := slice m (16 * i) 16
      let c := fieldAt e 2 2
      (c != 0xFFFF && !(c < 256 && (s.coresBits p).testBit c)) ||
        (!bind && (rows < fieldAt e 4 4 + fieldAt e 8 4 || rows ≤ fieldAt e 4 4)) ||
        (op == 2 && (fieldAt e 4 4 != 0 || fieldAt e 8 4 != 0))
    !inRange op 1 2 || 2 < fieldAt b 1 1 || !inRange (fieldAt b 3 1) 1 16 || rowsBad ||
      !inRange (fieldAt b 14 2) 32 256 || fieldAt b 14 2 % 32 != 0 ||
      (fieldAt b 1 1 == 2 && !inRange (fieldAt b 24 4) 1 4194304) ||
      (if hm = 0 then !inRange (fieldAt b 13 1) 1 64 || 256 < fieldAt b 12 1 + fieldAt b 13 1 || n != 0
       else !inRange n 1 256 || (List.range n).any badEntry || anyMeet ps) ||
      (bitOf flags 2 && (!inRange (fieldAt b 88 2) 2 8192 || fieldAt b 88 2 ≤ fieldAt b 90 2))

/-- Read an attention block with the step's rows in place when bound (R331), and its head map. -/
def State.readAttn (s : State) (p : Nat) (g : Graph) (d : Bytes) (rows : Nat) : Option (Bytes × Bytes) × State :=
  match s.blk p (fieldAt d 32 8) 128 with
  | (none, s) => (none, s)
  | (some b, s) =>
    let b := if dBind d then setField (setField b 20 4 rows) 56 8 (g.stepAddr + 32) else b
    let hm := fieldAt b 72 8
    if fieldAt b 0 1 = 3 || hm = 0 then (some (b, []), s)
    else match s.blk p hm (16 * min 256 (fieldAt b 18 2)) with
      | (none, s) => (none, s)
      | (some m, s) => (some (b, m), s)

/-- The parts of an attention task (R222, R224), ranges clipped to its rows; a VERIFY task has one part. -/
def attnParts (b m : Bytes) : List AttnPart :=
  let rows := fieldAt b 20 4
  if fieldAt b 0 1 = 3 then [⟨0, none, 0, rows⟩]
  else if fieldAt b 72 8 = 0 then
    (List.range (fieldAt b 13 1)).map fun i => ⟨fieldAt b 12 1 + i, none, 0, rows⟩
  else (mapParts m (fieldAt b 18 2) rows).map fun x => { x with row0 := min x.row0 rows, row1 := min x.row1 rows }

/-! ### Vector programs and transfer lists (05 R159, R160; 10 R326, R331) -/

/-- Whether `op` is a vector operation (R160). -/
def vecOpOk (op : Nat) : Bool := inRange op 1 0x0B || inRange op 0x10 0x15 || op == 0x20 || op == 0x21

/-- Whether a vector instruction is malformed (R159). -/
def vecBad (x : Bytes) : Bool :=
  let op := fieldAt x 0 1
  let form := fieldAt x 1 1
  let r := fieldAt x 2 2
  let c := fieldAt x 4 2
  let two := inRange op 1 6 || op == 9
  let n2 := if form = 2 then c else if form = 3 then r else r * c
  let red := op == 0x20 || op == 0x21
  !vecOpOk op || 4 < form || red != (form == 4) || r == 0 || c == 0 || 65536 < r * c ||
    65536 < fieldAt x 6 2 + (if form = 4 then r else r * c) || 65536 < fieldAt x 8 2 + r * c ||
    (two && form != 1 && 65536 < fieldAt x 10 2 + n2) || (op == 6 && form != 1 && 65536 < fieldAt x 12 2 + r * c)

/-- Whether a transfer entry is malformed for the rows `m` of a bound slice, if the task is bound; reserved bits are ignored (00 R10). -/
def xferBad (bound : Option Nat) (x : Bytes) : Bool :=
  let r := fieldAt x 4 2
  let c := fieldAt x 6 2
  1 < fieldAt x 0 1 || r == 0 || c == 0 || 65536 < r * c || 65536 < fieldAt x 2 2 + r * c ||
    match bound with
      | some m => bitOf (fieldAt x 8 1) 0 && r < m
      | none => false

/-- The `n` records of `k` bytes in a block. -/
def recsOf (k n : Nat) (b : Bytes) : List Bytes := (List.range n).map fun i => slice b (k * i) k

/-! ### Coach blocks (13 R433, R435, R436) -/

/-- Steps S of a collective over `n` members (13 R437); BARRIER counts its exchanges as the doubling. -/
def collSteps (op n : Nat) : Nat :=
  let l := Nat.log2 n
  let e := if n = 2 ^ l then 0 else 2
  if op = 3 then 2 * l + e else l + e

/-- Whether an XFER block fails the step-start checks. -/
def State.xferBlkBad (s : State) (b : Bytes) : Bool :=
  let op := fieldAt b 0 1
  let fl := fieldAt b 1 1
  let u := fieldAt b 2 1
  let len := fieldAt b 16 8
  let put := op == 4
  let waits := op == 0 || bitOf fl 0
  4 < op || 8 ≤ fl || fieldAt b 3 1 != 0 || 8192 ≤ fieldAt b 4 2 || 11 < fieldAt b 6 1 || !allZero (slice b 44 20) ||
    (bitOf fl 1 && op != 0) || (waits && fieldAt b 36 4 == 0) ||
    ((op == 1 || op == 2) && fieldAt b 4 2 == s.devId) ||
    ((op == 3 || put) && !inRange u 1 8) ||
    (op == 1 && (2 ^ 40 < len || len % 32 != 0 || fieldAt b 8 8 % 32 != 0 || fieldAt b 24 8 % 32 != 0)) ||
    (op == 2 && (fieldAt b 14 2 != 0 || fieldAt b 24 8 % 32 != 0)) ||
    (put && (fieldAt b 24 8 % 32 != 0 || match find? s.endpoints (fieldAt b 32 2) with
      | some e => e.winSize < fieldAt b 24 8 + 32 * u
      | none => false))

/-- Whether a COLL block fails the step-start checks. -/
def State.collBlkBad (s : State) (p : Nat) (b : Bytes) : Bool :=
  let op := fieldAt b 0 1
  let n := (s.groupOf p).length
  let w := if fieldAt b 1 1 = 1 then 4 else 2
  let cnt := fieldAt b 4 4
  let buf := fieldAt b 8 8
  let scr := fieldAt b 16 8
  !inRange op 1 5 || 1 < fieldAt b 1 1 || fieldAt b 3 1 != 0 || !allZero (slice b 34 30) ||
    (op ≤ 4 && (n == 0 || 256 < fieldAt b 2 1 + collSteps op n)) ||
    (op ≤ 3 && (!inRange cnt 1 1073741824 || (buf < scr + 2 * cnt * w && scr < buf + cnt * w))) ||
    (op == 5 && match find? s.churns (fieldAt b 32 2) with
      | some q => q.fmt != fieldAt b 1 1
      | none => false)

/-! ### The checks of a step start (R330) -/

/-- Check the blocks that slot `n` names, for a step of `rows` rows. -/
def State.nodeStart (s : State) (p : Nat) (g : Graph) (rows n : Nat) : Chk × State :=
  let d := g.desc n
  let res (o : Option Bytes × State) (bad : Bytes → Bool) : Chk × State := match o with
    | (none, s) => (.unread, s)
    | (some b, s) => (if bad b then .bad else .ok, s)
  match dKind d with
  | 1 =>
    let st := g.extField n 48 8
    let a := if st = 0 then (Chk.ok, s) else res (s.readStages p st) (stagesBad (fieldAt d 64 4))
    if gConv d then
      let b := res (a.2.blk p (g.extField n 40 8) 16) fun c => convBad c (fieldAt d 56 4) (fieldAt d 60 4)
      (a.1.and b.1, b.2)
    else a
  | 2 => match s.readAttn p g d rows with
    | (none, s) => (.unread, s)
    | (some x, s) => if s.attnBad p (dBind d) x.1 x.2 then (.bad, s)
      else if fieldAt x.1 0 1 = 3 then res (s.blk p (fieldAt x.1 80 8) 32) verifyExtBad else (.ok, s)
  | 3 =>
    let ni := fieldAt d 40 2
    let nx := fieldAt d 42 1
    let bound := if dBind d then some ((boundRows d rows).2 - (boundRows d rows).1) else none
    let a := res (s.blk p (fieldAt d 32 8) (16 * ni)) fun b => (recsOf 16 ni b).any vecBad
    let c := if nx = 0 then (Chk.ok, a.2) else res (a.2.blk p (fieldAt d 48 8) (24 * nx)) fun b => (recsOf 24 nx b).any (xferBad bound)
    (a.1.and c.1, c.2)
  | 5 => res (s.blk p (fieldAt d 32 8) 64) s.xferBlkBad
  | 6 => res (s.blk p (fieldAt d 32 8) 64) (s.collBlkBad p)
  | _ => (.ok, s)

/-- The first node that fails the start checks and how. -/
def State.startChecks (s : State) (p : Nat) (g : Graph) (rows : Nat) : Option (Nat × Chk) × State :=
  (List.range g.nodes).foldl (fun (acc : Option (Nat × Chk) × State) n => match acc.1 with
    | some _ => acc
    | none => match acc.2.nodeStart p g rows n with
      | (.ok, s) => (none, s)
      | (c, s) => (some (n, c), s)) (none, s)

end Sys2Proof.Machine
end

