-- ==== Sys2Proof/Machine/Dsp.lean ====
section
/-!
DEFINITION. The Dispatcher's shared operations (10_task_graphs.md): rings and records, triggers, readiness, placement and
issue, the release of successors and the step end.
-/
namespace Sys2Proof.Machine

/-! ### Rings (R339, R340, R347; 12_guest_ledger.md R381) -/

/-- A ring that the device writes: its registers, record size and interrupt bit. -/
structure Ring where
  base : RF
  log2 : RF
  tail : RF
  head : RF
  size : Nat
  irq : RF
deriving DecidableEq, Repr

/-- The completion ring of partition `p`. -/
def cring (p : Nat) : Ring :=
  ⟨Rg.DSP_CRING_BASE_BASE p, Rg.DSP_CRING_CFG_LOG2 p, Rg.DSP_CRING_TAIL_TAIL p, Rg.DSP_CRING_HEAD_HEAD p, 32, Rg.DSP_IRQ_RECORD p⟩
/-- The callback ring. -/
def cbring (p : Nat) : Ring :=
  ⟨Rg.DSP_CB_BASE_BASE p, Rg.DSP_CB_CFG_LOG2 p, Rg.DSP_CB_TAIL_TAIL p, Rg.DSP_CB_HEAD_HEAD p, 64, Rg.DSP_IRQ_CALLBACK p⟩
/-- The result ring. -/
def rqring (p : Nat) : Ring :=
  ⟨Rg.LDG_RQ_BASE_BASE p, Rg.LDG_RQ_CFG_LOG2 p, Rg.LDG_RQ_TAIL_TAIL p, Rg.LDG_RQ_HEAD_HEAD p, 64, Rg.LDG_IRQ_RESULT p⟩

/-- Whether a ring is full: TAIL - HEAD has reached its size, modulo 2^32. -/
def State.ringFull (s : State) (r : Ring) : Bool := 2 ^ s.fd r.log2 ≤ (s.fd r.tail + 2 ^ 32 - s.fd r.head) % 2 ^ 32

/-- Write a record at TAIL and advance it. -/
def State.ringWrite (s : State) (p : Nat) (r : Ring) (b : Bytes) : State :=
  let t := s.fd r.tail
  let s := (s.recWrite p (s.fd r.base + r.size * (t % 2 ^ s.fd r.log2)) b).st
  (s.setF r.tail (t + 1)).raise r.irq

/-- Move held records into a ring while it has room: those left, and the state. -/
def State.ringDrain (p : Nat) (r : Ring) : List Bytes → State → List Bytes × State
  | [], s => ([], s)
  | b :: t, s => if s.ringFull r then (b :: t, s) else State.ringDrain p r t (s.ringWrite p r b)

/-- Whether a record may go straight into a ring. -/
def State.ringOpen (s : State) (r : Ring) (hold : List Bytes) : Bool := hold.isEmpty && !s.ringFull r

/-- Put a record into the completion ring or its holding queue of 256 (R339). -/
def State.cringPut (s : State) (p : Nat) (b : Bytes) : State :=
  let h := (s.part p).cringHold
  if s.ringOpen (cring p) h then s.ringWrite p (cring p) b
  else
    let s := s.modPart p fun q => { q with cringHold := h ++ [b] }
    if h.length + 1 = 256 then (s.bump (Rg.DSP_EVENTS_RING_FULL p)).raise (Rg.DSP_IRQ_RING_FULL p) else s

/-- Put a record into the callback ring or its holding queue of 64 (R340). -/
def State.cbPut (s : State) (p : Nat) (b : Bytes) : State :=
  let h := (s.part p).cbHold
  if s.ringOpen (cbring p) h then s.ringWrite p (cbring p) b
  else
    let s := s.modPart p fun q => { q with cbHold := h ++ [b] }
    if h.length + 1 = 64 then (s.bump (Rg.DSP_EVENTS_RING_FULL p)).raise (Rg.DSP_IRQ_RING_FULL p) else s

/-! ### Records (R337, R338) -/

/-- The sequence tag of a node in a step (R337). -/
def seqTag (step tag node : Nat) : Nat := step % 16384 * 2 ^ 18 + tag * 2 ^ 14 + node

/-- The node index of a step-end record. -/
def stepNode : Nat := 0x3FFF

/-- Whether a record is a step-end record (R338). -/
def isStepEnd (b : Bytes) : Bool := fieldAt b 6 1 == 0 && fieldAt b 0 4 % 2 ^ 14 == stepNode

/-- Whether a step-end record of graph `tag` waits to be written (R339): its next step does not start (R317). -/
def State.endHeld (s : State) (p tag : Nat) : Bool := (s.part p).cringHold.any fun b => isStepEnd b && fieldAt b 8 1 == tag

/-- A completion record (R337). -/
def complRec (p tag node step st sub kind flags core time run : Nat) : Bytes :=
  mkRec 32 [(0, 4, seqTag step tag node), (4, 1, st), (5, 1, subFor st sub), (6, 1, kind), (7, 1, flags), (8, 1, tag),
    (9, 1, p), (10, 2, core), (12, 4, step), (16, 8, time), (24, 4, min run (2 ^ 32 - 1))]

/-- Write a completion record, or count it when its descriptor is QUIET and it is DONE (R337). -/
def State.putRecord (s : State) (p : Nat) (quiet : Bool) (st : Nat) (b : Bytes) : State :=
  if quiet && st = stDone then s.bump (Rg.DSP_QUIET_RECORDS p) else s.cringPut p b

/-- DONE after the step's DEADLINE is DONE_LATE (R337). -/
def StepRun.late (r : StepRun) (time st : Nat) : Nat := if st = stDone && r.deadline < time then stLate else st

/-- Note node `n` complete with status `st` and sub-code `sub`. -/
def Graph.markDone (g : Graph) (n st sub : Nat) : Graph :=
  { g with run := g.run.map fun r => { r with done := ins r.done n st, sub := r.sub ||| subFor st sub } }

/-- Complete a node of the running step: its record, and its status for its successors. -/
def State.completeNode (s : State) (p tag n st sub flags core run : Nat) : State :=
  match s.graph? p tag with
  | none => s
  | some g => match g.run with
    | none => s
    | some r =>
      let d := g.desc n
      let st := r.late s.time.dev st
      (s.modGraph p tag fun g => g.markDone n st sub).putRecord p (dQuiet d) st
        (complRec p tag n r.step st sub (dKind d) flags core s.time.dev run)

/-! ### Readiness (R327 to R329) -/

/-- The statuses of the predecessors of node `n`, when all of them have completed. -/
def Graph.predStatus (g : Graph) (n : Nat) : Option (List Nat) := match g.run with
  | none => none
  | some r => (g.preds n).foldl (fun o q => match o, find? r.done q with
    | some l, some st => some (l ++ [st])
    | _, _ => none) (some [])

/-- Whether node `n` has completed in the running step. -/
def Graph.isDone (g : Graph) (n : Nat) : Bool := match g.run with
  | some r => (find? r.done n).isSome
  | none => false

/-- The task in flight of a node. -/
def State.taskOf (s : State) (p tag n : Nat) : Option Task := s.tasks.find? fun t => t.part == p && t.tag == tag && t.node == n

/-- Whether node `n` is ready: not complete, and every predecessor complete with usable output (R328, R329). -/
def Graph.ready (g : Graph) (n : Nat) : Bool :=
  !isExt (g.desc n) && !g.isDone n && match g.predStatus n with
    | some l => l.all statusOk
    | none => false

/-- The failures among the predecessors of node `n` that have completed (R329). -/
def Graph.predFails (g : Graph) (n : Nat) : List Nat := match g.run with
  | none => []
  | some r => ((g.preds n).filterMap fun q => find? r.done q).filter fun st => !statusOk st

/-- Complete every node of whose predecessors one has failed, at once, with the highest of the failures so far (R329): lower nodes
first. -/
def State.inherit (s : State) (p tag : Nat) : State := match s.graph? p tag with
  | none => s
  | some g0 => (List.range g0.nodes).foldl (fun s n => match s.graph? p tag with
    | none => s
    | some g =>
      if isExt (g.desc n) || g.isDone n then s
      else match g.predFails n with
        | [] => s
        | l => (s.bump (Rg.DSP_EVENTS_INHERITED p)).completeNode p tag n (l.foldl statusMax 0) 0 1 0xFFFF 0) s

/-! ### Pools and cores (R333 to R335) -/

/-- The cores of partition `p` that are on, ascending. -/
def State.onCores (s : State) (p : Nat) : List Nat := (s.coresOf p).filter fun c => (s.core (s.physCore c)).power == 2

/-- The cores of a pool: 0 prefill, 1 step (R335). -/
def State.poolCores (s : State) (p k : Nat) : List Nat :=
  let t := (s.part p).poolT
  if k = 0 then (s.onCores p).take t else (s.onCores p).drop t

/-- c × a / b rounded to nearest, ties to even. -/
def roundDiv (x b : Nat) : Nat :=
  let q := x / b
  let r := x % b
  if b < 2 * r || (2 * r == b && q % 2 == 1) then q + 1 else q

/-- Tokens of the QUEUED and RUNNING requests bound to the graphs of a pool: the positions still to compute (R335). -/
def State.poolTokens (s : State) (p k : Nat) : Nat :=
  let q := s.part p
  s.ledger.foldl (fun n e =>
    let x := e.2
    let mine := q.ledBase ≤ e.1 && e.1 < q.ledBase + q.ledN && (x.state == 2 || x.state == 3)
    if mine && (s.graph? p x.graph).any fun g => g.pool == k then n + (x.length - x.position) else n) 0

/-- Recompute T (R335). The value kept is that before the last line, min(t, c): a pool takes as many cores as are on. -/
def State.recomputePool (s : State) (p : Nat) : State :=
  let bp := s.poolTokens p 0
  let bs := s.poolTokens p 1
  let c := (s.onCores p).length
  let t0 := if 0 < bp + bs then roundDiv (c * bp) (bp + bs) else (s.part p).poolT
  let t := min (max t0 (s.cfg p 164 2)) (s.cfg p 166 2)
  s.modPart p fun q => { q with poolT := t }

/-- T at an image load, partition reset or applied reload: POOL_MAX before the clamp (R335). -/
def State.resetPool (s : State) (p : Nat) : State := s.modPart p fun q => { q with poolT := s.cfg p 166 2 }

/-- Whether slot `k` (1 staged, 2 executing, 3 draining) of logical core `c` is empty. -/
def State.slotFree (s : State) (c k : Nat) : Bool := s.tasks.all fun t => t.parts.all fun x => !(x.core == some c && x.slot == k)

/-- The task and part in a slot of logical core `c`. -/
def State.inSlot (s : State) (c k : Nat) : Option (Task × TaskPart) :=
  (s.tasks.filterMap fun t => (t.parts.find? fun x => x.core == some c && x.slot == k).map fun x => (t, x)).head?

/-- Of some cores, one whose staged slot is empty: one with an empty executing slot first, then the lowest (R334). -/
def State.pickCore (s : State) (cs : List Nat) : Option Nat :=
  let free := cs.filter fun c => s.slotFree c 1
  match free.find? fun c => s.slotFree c 2 with
  | some c => some c
  | none => free.head?

/-- Where a task or part may go: nowhere yet, a core (and whether its pin was not kept), or no core. -/
inductive Where_ | waits | core (c : Nat) (moved : Bool) | port
deriving DecidableEq, Repr

/-- A pick as a place. -/
def pickAs (o : Option Nat) (moved : Bool) : Where_ := match o with
  | some c => .core c moved
  | none => .waits

/-- The place of a task of descriptor `d` in pool `k` (R334). -/
def State.placeTask (s : State) (p k : Nat) (d : Bytes) : Where_ :=
  let kind := dKind d
  if kind == 5 || kind == 6 || kind == 8 then .port
  else
    let pl := fieldAt d 24 2
    let pool := s.poolCores p k
    match pl / 2 ^ 14 with
    | 1 =>
      let c := pl % 256
      if (s.core (s.physCore c)).power = 2 then (if s.slotFree c 1 then .core c false else .waits)
      else pickAs (s.pickCore pool) true
    | 2 =>
      let cs := pool.filter fun c => c / 16 == pl % 16
      pickAs (s.pickCore (if cs.isEmpty then pool else cs)) false
    | _ => pickAs (s.pickCore pool) false

/-- The place of an attention part: a pin holds where its core is on with an empty staged slot, and never makes the part wait
(R222, R224). -/
def State.placePart (s : State) (p : Nat) (a : AttnPart) : Where_ := match a.core with
  | some c =>
    if (s.core (s.physCore c)).power = 2 && s.slotFree c 1 then .core c false
    else pickAs (s.pickCore (s.onCores p)) true
  | none => pickAs (s.pickCore (s.onCores p)) false

/-- In-flight entries that a task holds: one for each part in a core slot, at least one (R27, 07 R222). -/
def Task.entries (t : Task) : Nat := max 1 ((t.parts.filter fun x => x.slot != 0 && x.slot != 4).length)

/-- Tasks in flight of partition `p` (DSP_STATUS.INFLIGHT). -/
def State.inflight (s : State) (p : Nat) : Nat := (s.tasksOf p).foldl (fun n t => n + t.entries) 0

/-- Tasks in flight on the device. -/
def State.inflightAll (s : State) : Nat := s.tasks.foldl (fun n t => n + t.entries) 0

/-! ### Issue candidates (R333) -/

/-- A ready task or part: its priority, its step's order, node, tag, and part. -/
structure Cand where
  prio : Nat
  ord : Nat
  node : Nat
  tag : Nat
  part : Nat
deriving DecidableEq, Repr

/-- The issue order of R333. -/
def Cand.lt (a b : Cand) : Bool :=
  a.prio < b.prio || (a.prio == b.prio && (a.ord < b.ord || (a.ord == b.ord && (a.node < b.node ||
    (a.node == b.node && a.part < b.part)))))

/-- The parts of an attention node of a step, as its block stands now; an unreadable or broken block gives one part. -/
def State.attnPartsOf (s : State) (p : Nat) (g : Graph) (n rows : Nat) : List AttnPart :=
  match (s.readAttn p g (g.desc n) rows).1 with
  | some x => if s.attnBad p (dBind (g.desc n)) x.1 x.2 then [⟨0, none, 0, 1⟩] else attnParts x.1 x.2
  | none => [⟨0, none, 0, 1⟩]

/-- The parts of a ready node with no task yet, each a unit of work of its own (07 R222): those of an attention node with rows, else
one. -/
def State.newCands (s : State) (p : Nat) (g : Graph) (n rows : Nat) : List Nat :=
  if dKind (g.desc n) = 2 && !emptySlice (g.desc n) rows then
    match ((s.attnPartsOf p g n rows).zipIdx.filter fun x => x.1.row0 < x.1.row1).map (·.2) with
    | [] => [0]
    | l => l
  else [0]

/-- The ready tasks and parts of partition `p`. -/
def State.cands (s : State) (p : Nat) : List Cand :=
  (s.part p).graphs.flatMap fun e =>
    let g := e.2
    match g.run with
    | none => []
    | some r =>
      if r.endAt.isSome then []
      else (List.range g.nodes).flatMap fun n =>
        if !g.ready n then []
        else match s.taskOf p e.1 n with
          | none => (s.newCands p g n r.rows).map fun i => ⟨dPrio (g.desc n), r.ord, n, e.1, i⟩
          | some t => (t.parts.filter fun x => x.slot == 0).map fun x => ⟨dPrio (g.desc n), r.ord, n, e.1, x.idx⟩

/-- Whether partition `p` may issue: it runs, and no holding queue of it is full (R339, R340, 17 R535). -/
def State.mayIssue (s : State) (p : Nat) : Bool :=
  s.live p && (s.part p).cringHold.length < 256 && (s.part p).cbHold.length < 64

/-- Where a candidate can go now; `.waits` when it has no core, no entry or no room in its quota (R28). An empty slice goes
nowhere and needs nothing (R332). -/
def State.placeCand (s : State) (p : Nat) (c : Cand) : Where_ := match s.graph? p c.tag with
  | none => .waits
  | some g => match g.run with
    | none => .waits
    | some r =>
      let d := g.desc c.node
      if emptySlice d r.rows then .port
      else if s.inflightQuota p ≤ s.inflight p || 768 ≤ s.inflightAll then .waits
      else if dKind d = 2 then
        let ps := s.attnPartsOf p g c.node r.rows
        if (s.taskOf p c.tag c.node).isNone && ps.all (fun a => a.row1 ≤ a.row0) then .port
        else match ps[c.part]? with
          | some a => s.placePart p a
          | none => .waits
      else s.placeTask p g.pool d

/-- The first candidate of partition `p` that can issue, and where. -/
def State.nextIssue (s : State) (p : Nat) : Option (Cand × Where_) :=
  if !s.mayIssue p then none
  else (s.cands p).foldl (fun b c =>
    let better := match b with
      | none => true
      | some y => Cand.lt c y.1
    if better then
      match s.placeCand p c with
      | .waits => b
      | w => some (c, w)
    else b) none

/-! ### Multicast groups (05 R171, R174, R175) -/

/-- MODE and SCOPE of a weight stream of partition `p` (R171; 02 R54). -/
def State.streamMode (s : State) (p sid : Nat) : Nat × Nat :=
  let dflt := (s.cfg p 188 1, 2)
  match (s.part p).cfg with
  | none => dflt
  | some c => match c.streams with
    | none => dflt
    | some b => match (List.range (fieldAt b 2 2)).find? fun i => fieldAt b (8 + 8 * i) 2 == sid with
      | some i => (fieldAt b (10 + 8 * i) 1, fieldAt b (11 + 8 * i) 1)
      | none => dflt

/-- The scope instance of a stream for logical core `c`: cluster, field of four clusters, or partition. -/
def State.scopeOf (s : State) (scope c : Nat) : Nat :=
  if scope = 0 then s.clusterOf c else if scope = 1 then 64 + s.clusterOf c / 4 else 128

/-- The span of bytes of a tiled operand: from its directory's base to the end of the last tile it names (06 R205). -/
def State.tiledSpan (s : State) (p dir lines k : Nat) : Nat :=
  let n := ((lines + 31) / 32) * ((k + 31) / 32)
  let d := (s.devRead p 0 dir (8 * n)).data
  (List.range n).foldl (fun m i => let e := fieldAt d (8 * i) 8; max m (e % 2 ^ 40 + bitsOf e 40 12)) (8 * n)

/-- The bytes that a stream of B of `cols` columns at `base` spans (R171, R174; 05 R156; 06 R205). -/
def State.bSpan (s : State) (p : Nat) (tiled xpose : Bool) (fmt stride k base cols : Nat) : Nat :=
  if tiled then s.tiledSpan p base cols k
  else if xpose then (cols - 1) * stride + lineBytes fmt k else (k - 1) * stride + lineBytes fmt cols

/-- The B streams of a GEMM: STREAM_ID, base, bytes (R171; 10 R325; 06 R205). -/
def State.bStreams (s : State) (p : Nat) (g : Graph) (n : Nat) : List (Nat × Nat × Nat) :=
  let d := g.desc n
  let len (base cols : Nat) : Nat := s.bSpan p (gSparse d % 4 == 2 && bitsOf (gSparse d) 2 2 == 0) (bitOf (gXpose d) 1) (gFmtB d).fmt
    (fieldAt d 108 4) (fieldAt d 60 4) base cols
  let b := fieldAt d 80 8
  let nn := fieldAt d 64 4
  let b2 := g.extField n 56 8
  let sp := g.extField n 72 4
  if b2 = 0 then [(fieldAt d 68 2, b, len b nn)]
  else [(fieldAt d 68 2, b, len b sp), (g.extField n 76 2, b2, len b2 (nn - sp))]

/-- A member that takes in task `t` of core `c`, joining if it is new. -/
def joinMember (ms : List Member) (c t : Nat) : List Member :=
  if ms.any fun z => z.core == c then ms.map fun z => if z.core = c then { z with tasks := z.tasks ++ [t] } else z
  else ms ++ [⟨c, [t], 0⟩]

/-- Core `c` joins or opens the multicast groups of the GEMM `t` that it is issued (R174). -/
def State.mcastJoin (s : State) (p tag step : Nat) (g : Graph) (n c t : Nat) : State :=
  (s.bStreams p g n).foldl (fun s b =>
    let m := s.streamMode p b.1
    if m.1 ≠ 1 || reserveBase ≤ b.2.1 then s
    else
      let sc := s.scopeOf m.2 c
      let key (x : Mcast) : Bool := x.part == p && x.stream == b.1 && x.base == b.2.1 && x.len == b.2.2 && x.tag == tag &&
        x.step == step && x.scope == sc
      match s.mcasts.find? key with
      | none => { s with mcasts := s.mcasts ++ [⟨p, b.1, b.2.1, b.2.2, tag, step, sc, joinMember [] c t, 0⟩] }
      | some x =>
        if x.read = 0 then
          let join (y : Mcast) : Mcast := if key y then { y with members := joinMember y.members c t } else y
          { s with mcasts := s.mcasts.map join }
        else s.bump (Rg.CORE_MCAST_LATE_JOIN (s.physCore c))) s

/-- Task `t` leaves its multicast groups on core `c`; the core stays a member for another task of it (R175). -/
def State.mcastLeave (s : State) (t c : Nat) : State :=
  let drop (z : Member) : Member := if z.core = c then { z with tasks := z.tasks.filter (· != t) } else z
  let leave (x : Mcast) : Mcast := { x with members := (x.members.map drop).filter fun z => !z.tasks.isEmpty }
  { s with mcasts := (s.mcasts.map leave).filter fun x => !(x.members.isEmpty && x.read == 0) }

/-! ### Leaving a core (R176, R178; 05 R162, R170) -/

/-- Set every link of a physical core to its reset state: E at the buffer count, F at 0 (R170). -/
def State.semReset (s : State) (c : Nat) : State :=
  forN 6 (fun s n => s.wr (Rg.CORE_SEM_LINK_0 c + 8 * n) (regReset (Rg.CORE_SEM_LINK_0 c + 8 * n))) s

/-- Change one part of a task. -/
def Task.modPart (t : Task) (i : Nat) (f : TaskPart → TaskPart) : Task :=
  { t with parts := t.parts.map fun x => if x.idx == i then f x else x }

/-- Drop the Skimmer requests of a core for a task (06 R206). -/
def State.skimDrop (s : State) (c t : Nat) : State :=
  s.modCluster (s.clusterOf c) fun k => { k with skimQ := k.skimQ.filter fun r => !(r.core == c && r.task == t) }

/-- The staged task of a core moves into its empty executing slot (R176). -/
def State.promote (s : State) (c : Nat) : State :=
  if !s.slotFree c 2 then s
  else match s.inSlot c 1 with
    | some (t, x) => s.modTask t.id fun t => t.modPart x.idx fun x => { x with slot := 2 }
    | none => s

/-- A part leaves its core: its TLB entries and pins drop (05 R162), it leaves its multicast groups, and the staged task
begins executing. -/
def State.leaveCore (s : State) (t i : Nat) : State := match s.task? t with
  | none => s
  | some k => match k.parts.find? fun x => x.idx == i with
    | none => s
    | some x =>
      let s := (s.tlbDrop t i).modTask t fun k => k.modPart i fun x => { x with slot := 4 }
      match x.core with
      | some c => ((s.mcastLeave t c).skimDrop c t).promote c
      | none => s

/-- The staged task of logical core `c` is withdrawn: ready again, with its entry released (R178). -/
def State.withdraw (s : State) (c : Nat) : State := match s.inSlot c 1 with
  | none => s
  | some (t, x) =>
    let s := ((s.tlbDrop t.id x.idx).mcastLeave t.id c).skimDrop c t.id
    let s := { s with walks := s.walks.filter fun w => !(w.task == t.id && w.part == x.idx) }
    let s := (s.bump (Rg.CORE_EVENTS_WITHDRAWN (s.physCore c))).semReset (s.physCore c)
    if t.parts.length = 1 then { s with tasks := s.tasks.filter fun k => k.id != t.id }
    else s.modTask t.id fun k => k.modPart x.idx fun x => { x with slot := 0, core := none }

/-! ### Reloads at a step end (02 R65, R66) -/

/-- Put a pending reload into force: the settings, and T at POOL_MAX (R65; 10 R335). The sequence advances here, when the reload is
applied (assumption 116); what the old settings began keeps them. -/
def State.applyReload (s : State) (p : Nat) (r : Reload) : State :=
  let s := s.pass 1
  let s := s.modPart p fun q =>
    { q with cfg := some r.cfg, past := (q.cfg.toList.map fun c => (s.now, c)) ++ q.past, reloadSeq := r.seq, reloadKey := some r.signer, reloadPend := none }
  ((s.setF (Rg.IMG_RELOAD_PENDING p) 0).setF (Rg.IMG_RELOAD_SEQ_LOW p) r.seq).resetPool p

/-- Apply a tunable reload that waits for a step end (R65). -/
def State.reloadAtStepEnd (s : State) (p : Nat) : State := match (s.part p).reloadPend with
  | some r => s.applyReload p r
  | none => s

/-! ### The step end (R338, R342) -/

/-- Free an unloading graph whose step has ended (R342). -/
def State.finishUnload (s : State) (p tag : Nat) : State := match s.graph? p tag with
  | some g => if g.unloadAt.isSome && !g.running && (match g.run with | some r => r.settled | none => true) then s.modPart p fun q => { q with graphs := del q.graphs tag } else s
  | none => s

/-- Whether the end of a step of this source leaves requests to settle: a Guest Ledger step, or a RUN step while a RING
request of the partition is RUNNING (12 R396, R400). -/
def State.needsSettle (s : State) (p source : Nat) : Bool :=
  let q := s.part p
  source == 0 || s.ledger.any fun e => q.ledBase ≤ e.1 && e.1 < q.ledBase + q.ledN && e.2.state == 3 && bitOf e.2.flags 4

/-- Write the step-end record with status `st` and end the step (R338). Which of its tasks' flags the record of a flagged step
carries is free (assumption 57). -/
def State.endStep (s : State) (p tag st flags : Nat) (settled : Bool) : State := match s.graph? p tag with
  | none => s
  | some g => match g.run with
    | none => s
    | some r =>
      let ovr := settled || !s.needsSettle p r.source
      let s := s.modGraph p tag fun g => { g with run := some { r with endAt := some s.time.dev, settled := ovr } }
      let s := { s with mcasts := s.mcasts.filter fun x => !(x.part == p && x.tag == tag && x.step == r.step) }
      let b := complRec p tag stepNode r.step st (s.freeVal &&& r.sub) 0 flags 0xFFFF s.time.dev (s.now - r.trigAt)
      let s := (if st = stFlagged then s.freeNext else s).cringPut p b
      let s := if s.endHeld p tag then s else s.reloadAtStepEnd p
      if ovr then s.finishUnload p tag else s

/-- The highest status of the step's nodes (R338). -/
def StepRun.worst (r : StepRun) : Nat := r.done.foldl (fun m e => statusMax m e.2) 0

/-- Whether every task of the step has completed. -/
def Graph.allDone (g : Graph) : Bool := (List.range g.nodes).all fun n => isExt (g.desc n) || g.isDone n

/-- After a completion: inherited failures, and the step end once every task has completed (R329, R338). -/
def State.afterNode (s : State) (p tag : Nat) : State :=
  let s := s.inherit p tag
  match s.graph? p tag with
  | none => s
  | some g => match g.run with
    | none => s
    | some r =>
      if r.endAt.isNone && g.allDone then s.endStep p tag r.worst 0 false else s

/-! ### Triggers (R317, R318, R330) -/

/-- Report a Dispatcher command's result (R346). -/
def State.dspResult (s : State) (p code node : Nat) : State :=
  ((s.setF (Rg.DSP_CMD_RESULT_RESULT p) code).setF (Rg.DSP_CMD_RESULT_NODE p) node).raise (Rg.DSP_IRQ_CMD_DONE p)

/-- Count a Dispatcher command completed (R346). -/
def State.dspDone (s : State) (p code node : Nat) : State := (s.dspResult p code node).incr (Rg.DSP_CMD_RESULT_COUNT p)

/-- Trigger the next step of graph `tag`, its block standing at STEP_ADDR: assign its number, write STEP, and run the start
checks; whether the step started (R318, R319, R330). -/
def State.triggerStep (s : State) (p tag source : Nat) : Bool × State := match s.graph? p tag with
  | none => (false, s)
  | some g =>
    let s := (s.devWrite p 1 g.stepAddr (toLe 4 g.next)).st
    let h := s.devRead p 0 g.stepAddr 32
    let rows := fieldAt h.data 4 4
    let run : StepRun := ⟨g.next % 2 ^ 32, rows, h.st.now, h.st.taskNext, fieldAt h.data 16 8, source, [], 0, none, false⟩
    let s := { h.st with taskNext := h.st.taskNext + 1 }
    let s := s.modGraph p tag fun g => { g with next := g.next + 1, run := some run }
    match s.startChecks p g rows with
    | (none, s) => (true, s.afterNode p tag)
    | (some (n, c), s) =>
      let s := ((s.setF (Rg.DSP_CMD_RESULT_RESULT p) (if c = .unread then 7 else 2)).setF (Rg.DSP_CMD_RESULT_NODE p) n)
      let s := (s.bump (Rg.DSP_EVENTS_STEPS_REFUSED p)).raise (Rg.DSP_IRQ_STEP_REFUSED p)
      let s := s.modGraph p tag fun g => { g with broken := true }
      (false, s.endStep p tag stDisabled 4 true)

end Sys2Proof.Machine
end

