-- ==== Sys2Proof/Machine/Job.lean ====
section
/-!
DEFINITION. The job fault, as one operation (17_faults_reset.md R534 to R536; 10_task_graphs.md R343; 13_coach_ports.md
R445, R448; 02_fabric_image.md R66; 11_channels.md R368), and the end of a task's work on its core.
-/
namespace Sys2Proof.Machine

/-! ### Records of a job fault (10 R343) -/

/-- Whether a task is in flight: some part of it has been issued and not stopped. -/
def Task.inFlight (t : Task) : Bool := t.parts.any fun x => x.slot != 0 && x.slot != 6

/-- The core that a task's record names: that of a part, freely chosen when it has several; 0xFFFF for none (10 R337). -/
def State.recordCore (s : State) (t : Task) : Nat :=
  let cs := t.parts.filterMap fun x => x.core
  if t.kind = 5 || t.kind = 6 || t.kind = 8 then 0xFFFF
  else if cs.length ≤ 1 then cs.headD 0xFFFF
  else cs.getD (s.freeVal % cs.length) 0xFFFF

/-- The record that a job fault writes for one task: UNCORRECTABLE if it met the error, else JOB_ABORTED (R343). -/
def State.abortRecord (s : State) (t : Task) : State :=
  let st := if t.status = stUncorr then stUncorr else stAborted
  let b := complRec t.part t.tag t.node t.step st 0 t.kind 0 (s.recordCore t) s.time.dev (s.now - t.issuedAt)
  State.putRecord s.freeNext t.part t.quiet st b

/-- Stop one task: its slots and their links are emptied, its pages undone; its entry stays held (01 R32; 05 R178). -/
def State.stopTask (s : State) (t : Task) : State :=
  let s := t.exps.foldl State.expEnd ((s.undoPages t.id).tlbDropAll t.id)
  let s := t.parts.foldl (fun s x => match x.core with
    | some c =>
      let s := (s.skimDrop c t.id).mcastLeave t.id c
      if t.kind = 8 then s else s.semReset (s.physCore c)
    | none => s) s
  s.modTask t.id fun k => { k with
    parts := k.parts.map fun x => { x with slot := 6, core := none }, writes := [], scores := [], streams := [], flows := [], exps := [], waitSince := none }

/-- Every channel send and contribution of a task of partition `p` ends (11 R368). -/
def State.dropTaskSends (s : State) (p : Nat) : State :=
  let s := s.modPart p fun q => { q with ports := q.ports.map fun e => if e.1 = 33 then (33, { e.2 with queue := [] }) else e }
  { s with
    churns := s.churns.map fun e =>
      if e.2.part == p then (e.1, { e.2 with waiting := e.2.waiting.filter fun w => w.2.2.isNone }) else e
    landings := s.landings.map fun l => if l.part == p then { l with task := none } else l }

/-! ### The sequence (R535) -/

/-- The step-end records of the running steps of partition `p` (R343). -/
def State.endSteps (s : State) (p : Nat) : State :=
  (s.part p).graphs.foldl (fun s e => if e.2.running then s.endStep p e.1 stAborted 0 true else s) s

/-- A pending reload is discarded with ABORTED (02 R66). -/
def State.dropReload (s : State) (p : Nat) : State := match (s.part p).reloadPend with
  | some _ =>
    let s := s.modPart p fun q => { q with reloadPend := none }
    (s.setF (Rg.IMG_RELOAD_PENDING p) 0).setF (Rg.IMG_RELOAD_RESULT p) 0x16
  | none => s

/-- The graph step whose task met the error and the requests of that step (12 R402). -/
def State.noteError (s : State) (p : Nat) : State := match (s.tasksOf p).find? fun t => t.status == stUncorr with
  | none => s
  | some t =>
    let es := match find? (s.part p).sched t.tag with
      | some x => x.taken.map (·.entry)
      | none => []
    s.modPart p fun q => { q with errStep := some (t.tag, t.step), errEntries := es }

/-- The peers' notice of partition `p`'s fault is known as its own (13 R448). -/
def State.noteSeen (s : State) (p dev part fid : Nat) : State :=
  { s with coach := { s.coach with seen := s.coach.seen ++ [(p, dev, part, fid)] } }

/-- The ABORT frames of a job fault on partition `p`: its own, or those that forward an accepted ABORT with payload `pay` to
the flow peers outside its GROUP list (13 R448). -/
def State.faultAborts (s : State) (p cause fid : Nat) (pay : Option Bytes) : State :=
  if s.jobId p = 0 then s
  else match pay with
    | none => State.sendAborts (s.noteSeen p s.devId p fid) p cause
    | some b =>
      let out := (s.jobPeers p).filter fun x => x.1 != s.devId && !(s.groupOf p).contains x
      out.foldl (fun s x => s.abortTo p x.1 x.2 b) s

/-- What FLT_PART shows of a job fault (R535, R554): its number, its cause and its device time. -/
def State.faultShown (s : State) (p cause fid : Nat) : State :=
  ((s.setF (Rg.FLT_PART_FAULT_ID p) fid).setF (Rg.FLT_PART_CAUSE p) cause).wr (Rg.FLT_PART_TIME p) (BitVec.ofNat 64 s.time.dev)

/-- The work of partition `p` ends (R535): a pending reload is discarded, ABORT goes to its peers, the records of its tasks and
running steps are written, and its tasks, sends and exports stop. -/
def State.faultStop (s : State) (p cause fid : Nat) (pay : Option Bytes) : State :=
  let s := (s.dropReload p).faultAborts p cause fid pay
  let ts := (s.tasksOf p).filter Task.inFlight
  let s := ts.foldl (fun s t => s.abortRecord t) s
  let s := s.endSteps p
  let s := ts.foldl (fun s t => s.stopTask t) s
  let s := { s with
    tasks := s.tasks.filter fun t => t.part != p || t.parts.any fun x => x.slot == 6
    walks := s.walks.filter fun w => !(ts.any fun t => t.id == w.task)
    coach := { s.coach with waiters := s.coach.waiters.filter fun w => w.1 / 256 != p } }
  (s.dropTaskSends p).abortExports p

/-- Steps 1 to 4 of a job fault on one partition that is not yet stopping (R535): log class `cls`, cause and detail, and the
ABORT that it forwards, if an ABORT raised it. -/
def State.faultOne (s : State) (p cls cause detail : Nat) (pay : Option Bytes) : State :=
  let s := s.noteError p
  let fid := (s.fd (Rg.FLT_PART_FAULT_ID p) + 1) % 2 ^ 32
  let s := (s.faultShown p cause fid).faultStop p cause fid pay
  let s := (s.fltAdd cls cause p 15 (if cls = 1 then fid else 0) false detail).raise Rg.FLT_IRQ_JOB_FAULT
  (s.modPart p fun q => { q with faultAt := some s.now, why := 1 }).setF (Rg.FLT_PART_STATE p) 2

/-- A job fault raised on partition `p` and logged with class `cls` and `detail`: the sequence of R535 on it and, for a
nonzero job, on every other local partition of the job; or only a log entry where one already runs (R536). -/
def State.jobFaultWith (s : State) (p cls cause detail : Nat) (pay : Option Bytes) : State :=
  if !s.defined p then s
  else if 2 ≤ s.pstate p then s.fltAdd cls cause p 15 (if cls = 1 then s.fd (Rg.FLT_PART_FAULT_ID p) else 0) true detail
  else
    let job := s.jobId p
    let s := s.faultOne p cls cause detail pay
    if job = 0 then s
    else allParts.foldl (fun s q =>
      if q != p && s.live q && s.jobId q == job then s.faultOne q 1 stAborted 0 pay else s) s

/-- A job fault that no ABORT raised. -/
def State.jobFaultAs (s : State) (p cls cause detail : Nat) : State := s.jobFaultWith p cls cause detail none

/-- A job fault of class JOB_FAULT. -/
def State.jobFault (s : State) (p cause : Nat) : State := s.jobFaultAs p 1 cause 0

/-- A watchdog expires with a job fault logged under a class (R539). -/
def State.wdogFault (s : State) (p cls detail : Nat) : State := (s.jobFaultAs p cls stAborted detail).raise Rg.FLT_IRQ_WDOG

/-! ### The end of a part's work -/

/-- A part of task `t` has done its work: it leaves its core if its arrays have finished; an uncorrectable error raises the
job fault at once (09 R304). -/
def State.partDone (s : State) (t i : Nat) : State := match s.task? t with
  | none => s
  | some _ =>
    let s := s.modTask t fun k =>
      let k := k.modPart i fun x => { x with done := true }
      { k with computed := k.parts.all fun x => x.done }
    match s.task? t with
    | none => s
    | some k =>
      let s := match k.parts.find? fun x => x.idx == i with
        | some x => if x.slot = 3 then s.leaveCore t i else s
        | none => s
      if k.status = stUncorr then s.jobFault k.part stUncorr else s

/-- The task `t` of kind `kind` whose part `i` executes or drains and has work left. -/
def State.working? (s : State) (t kind i : Nat) : Option (Task × TaskPart) := match s.task? t with
  | none => none
  | some k => match k.parts.find? fun x => x.idx == i with
    | none => none
    | some x => if k.kind = kind && !x.done && (x.slot == 2 || x.slot == 3) then some (k, x) else none

/-- The graph and step of a task. -/
def State.graphOf (s : State) (t : Task) : Option Graph := s.graph? t.part t.tag

end Sys2Proof.Machine
end

