-- ==== Sys2Proof/Machine/Sparse.lean ====
section
/-!
DEFINITION. Operands in memory as tasks read them (05_core_streaming.md R157, R158) and sparse operands: the tiled form,
its decoding, encoding and window costs (06_skimmer.md R190 to R203).
-/
namespace Sys2Proof.Machine

/-! ### Reading operands (05 R157) -/

/-- What a task's reads have gathered: whether one failed (a check failure or an uncorrectable codeword, 02 R69, 05 R157),
the bytes moved, and the state. -/
structure Fetch where
  fail : Bool
  bytes : Nat
  st : State
deriving DecidableEq, Repr

/-- A run of bytes read: its address, its data and the poisoned lines met. -/
structure Line where
  addr : Nat
  data : Bytes
  poison : List Nat
deriving DecidableEq, Repr

/-- Read `n` bytes at `a` for a task of partition `p`. -/
def Fetch.get (f : Fetch) (p a n : Nat) : Line × Fetch :=
  let r := f.st.devRead p 0 a n
  (⟨a, r.data, r.poison⟩, ⟨f.fail || r.code != 0, f.bytes + n, r.st⟩)

/-- Read one run of `n` bytes at each address. -/
def Fetch.gets (f : Fetch) (p n : Nat) (as : List Nat) : List Line × Fetch :=
  as.foldl (fun acc a => let x := acc.2.get p a n; (acc.1 ++ [x.1], x.2)) ([], f)

/-- Element `i` of format `fmt` of a line, and whether it stands in a poisoned codeword. -/
def Line.elem (fmt : Nat) (l : Line) (i : Nat) : Nat × Bool :=
  (elemAt fmt l.data i, l.poison.contains ((l.addr + i * fmtBits fmt / 8) / 64))

/-- An operand as its elements: (line, position) to raw bits and poison mark. -/
abbrev Elems := Nat → Nat → Nat × Bool

/-- The elements of a dense operand of `n` lines of `k` positions: line i at `base + i × stride`, or, transposed, position k at
`base + k × stride` (R156, R158). -/
def Fetch.dense (f : Fetch) (p fmt base stride n k : Nat) (xpose : Bool) : Elems × Fetch :=
  if xpose then
    let r := f.gets p (lineBytes fmt n) ((List.range k).map fun j => base + j * stride)
    (fun i j => (r.1.getD j ⟨0, [], []⟩).elem fmt i, r.2)
  else
    let r := f.gets p (lineBytes fmt k) ((List.range n).map fun i => base + i * stride)
    (fun i j => (r.1.getD i ⟨0, [], []⟩).elem fmt j, r.2)

/-- Whether any element of the 32 lines of block `b` is poisoned. -/
def blockBad (x : Elems) (n k b : Nat) : Bool :=
  (List.range 32).any fun i => 32 * b + i < n && (List.range k).any fun j => (x (32 * b + i) j).2

/-- Number of poisoned 32 × 32 tiles of an operand. -/
def tilesBad (x : Elems) (n k : Nat) : Nat :=
  ((List.range ((n + 31) / 32)).map fun b => ((List.range ((k + 31) / 32)).filter fun c =>
    (List.range 32).any fun i => (List.range 32).any fun j =>
      32 * b + i < n && 32 * c + j < k && (x (32 * b + i) (32 * c + j)).2).length).foldl (· + ·) 0

/-! ### Tiles (06 R193 to R197, R203) -/

/-- A decoded tile: stored values as (line, position, raw bits), whether a fault of R203 was met, form (0 run-length, 1
packed 2:4, 2 RAW), stored entries and slots (a RAW tile has none), and whether a codeword of it was poisoned. -/
structure Tile where
  vals : List (Nat × Nat × Nat)
  out : Bool
  form : Nat
  count : Nat
  bad : Bool
deriving DecidableEq, Repr

/-- Bytes of an element of an operand that may be sparse. -/
def skimW (fmt : Nat) : Nat := fmtBits fmt / 8

/-- Tiles along one dimension. -/
def tilesOf (n : Nat) : Nat := (n + 31) / 32

/-- One line's run-length entries (R195): the entries left, the values gathered, and whether a fault was met. `nx` is the
position after the previous entry. -/
def rlLine (l : Nat) : List (Nat × Nat) → Nat → List (Nat × Nat × Nat) → Bool →
    List (Nat × Nat) × List (Nat × Nat × Nat) × Bool
  | [], _, acc, _ => ([], acc, true)
  | (rb, v) :: t, nx, acc, out =>
    let pos := nx + rb % 32
    let bad := 64 ≤ rb || 32 ≤ pos
    let acc := if bad then acc else acc ++ [(l, pos, v)]
    if rb.testBit 5 then (t, acc, out || bad) else rlLine l t (pos + 1) acc (out || bad)

/-- Decode a run-length payload (R195, R203). -/
def rlTile (w nnz mask : Nat) (pay : Bytes) : List (Nat × Nat × Nat) × Bool :=
  let es := (List.range nnz).map fun i => (fieldAt pay (i * (1 + w)) 1, fieldAt pay (i * (1 + w) + 1) w)
  let r := (onesOf 32 mask).foldl (fun (st : List (Nat × Nat) × List (Nat × Nat × Nat) × Bool) l =>
    rlLine l st.1 0 st.2.1 st.2.2) (es, [], false)
  (r.2.1, r.2.2 || !r.1.isEmpty)

/-- Whether the bits of an element are a zero (R198). -/
def zeroBits (fmt x : Nat) : Bool := (elemVal fmt true x).isZero

/-- Decode a packed 2:4 payload (R196): a position that two slots name holds the sum of their values, converted to the
format (assumption 34). -/
def packTile (fmt : Nat) (sgn : Bool) (pay : Bytes) : List (Nat × Nat × Nat) :=
  let w := skimW fmt
  (List.range 32).flatMap fun l => (List.range 8).flatMap fun g =>
    let word := fieldAt pay (512 * w + 4 * l) 4
    let v (i : Nat) : Nat := fieldAt pay ((16 * l + 2 * g + i) * w) w
    let sel (i : Nat) : Nat := bitsOf word (2 * (2 * g + i)) 2
    if sel 0 = sel 1 then
      [(l, 4 * g + sel 0, (toFmt fmt sgn ((elemVal fmt sgn (v 0)).add (elemVal fmt sgn (v 1)))).1)]
    else [(l, 4 * g + sel 0, v 0), (l, 4 * g + sel 1, v 1)]

/-- Decode the tile whose directory entry is `e` and whose bytes are `b`, standing at lines `32 lb` and positions `32 kt` of an
operand of `n` lines of `k` (R193 to R196, R203). -/
def decodeTile (fmt : Nat) (sgn : Bool) (e : Nat) (b : Bytes) (lb kt n k : Nat) (bad : Bool) : Tile :=
  let w := skimW fmt
  let len := bitsOf e 40 12
  let fl := fieldAt b 0 1
  let raw := fl.testBit 0
  let form := bitsOf fl 1 2
  let nnz := fieldAt b 2 2
  let mask := fieldAt b 4 4
  let rl := !raw && form == 0
  let size := if raw then 1024 * w else if form = 0 then nnz * (1 + w) else 512 * w + 128
  let f := if raw then 2 else if form = 1 then 1 else 0
  if 2 ^ 52 ≤ e || len < 16 || 8 ≤ fl || 2 ≤ form || (raw && form != 0) || fieldAt b 1 1 != 0 || fieldAt b 8 8 != 0 ||
      1024 < nnz || (!rl && (nnz != 0 || mask != 0)) || len < 16 + size then
    ⟨[], true, f, 0, bad⟩
  else
    let pay := b.drop 16
    let x : List (Nat × Nat × Nat) × Bool :=
      if raw then ((List.range 1024).map fun i => (i / 32, i % 32, fieldAt pay (i * w) w), false)
      else if form = 1 then (packTile fmt sgn pay, false)
      else rlTile w nnz mask pay
    let within (v : Nat × Nat × Nat) : Bool := 32 * lb + v.1 < n && 32 * kt + v.2.1 < k
    let out := x.2 || x.1.any fun v => !within v && (rl || !zeroBits fmt v.2.2)
    ⟨x.1.filter within, out, f, if raw then 0 else if form = 1 then 512 else nnz, bad⟩

/-- A way of reading `n` bytes at an address: directly, or as a weight stream is read. -/
abbrev Reader := Fetch → Nat → Nat → Line × Fetch

/-- Read and decode tile (lb, kt) of the tiled operand whose directory stands at `dir`; nothing is read for an entry that R203 takes
as zero by itself. -/
def Fetch.tile (f : Fetch) (rd : Reader) (fmt : Nat) (sgn : Bool) (dir n k lb kt : Nat) : Tile × Fetch :=
  let d := rd f (dir + 8 * (lb * tilesOf k + kt)) 8
  let e := leNat d.1.data
  let len := bitsOf e 40 12
  let t := if 2 ^ 52 ≤ e || len < 16 then (⟨0, [], []⟩, d.2) else rd d.2 (dir + e % 2 ^ 40) len
  (decodeTile fmt sgn e t.1.data lb kt n k (!d.1.poison.isEmpty || !t.1.poison.isEmpty), t.2)

/-- The tiles of a tiled operand of `n` lines of `k`, in directory order. -/
def Fetch.tiles (f : Fetch) (rd : Reader) (fmt : Nat) (sgn : Bool) (dir n k : Nat) : List Tile × Fetch :=
  (List.range (tilesOf n * tilesOf k)).foldl (fun acc i =>
    let x := acc.2.tile rd fmt sgn dir n k (i / tilesOf k) (i % tilesOf k)
    (acc.1 ++ [x.1], x.2)) ([], f)

/-- The element of a tiled operand at (line, position): zero where nothing is stored. -/
def tiledElem (ts : List Tile) (k i j : Nat) : Nat × Bool :=
  match ts[i / 32 * tilesOf k + j / 32]? with
  | none => (0, false)
  | some t => (match t.vals.find? fun v => v.1 == i % 32 && v.2.1 == j % 32 with
    | some v => v.2.2
    | none => 0, t.bad)

/-! ### Windows (R199, R200) -/

/-- Steps that window `w` (0 to 7) of a tile costs (R199). -/
def Tile.cost (t : Tile) (w : Nat) : Nat :=
  if t.vals.isEmpty then 1
  else if t.form = 2 then 4
  else if t.form = 1 then 2
  else (List.range 32).foldl (fun m l => max m (t.vals.filter fun v => v.1 == l && v.2.1 / 4 == w).length) 1

/-- Nonzero elements of group `g` (of 4 positions) of line `i` of a dense operand of `k` positions (R198). -/
def groupNz (fmt : Nat) (x : Elems) (k i g : Nat) : Nat :=
  ((List.range 4).filter fun j => 4 * g + j < k && !zeroBits fmt (x i (4 * g + j)).1).length

/-- Overfull (line, group) pairs of a dense operand declared 2:4 (R198). -/
def overfull (fmt : Nat) (x : Elems) (n k : Nat) : Nat :=
  ((List.range n).map fun i => ((List.range ((k + 3) / 4)).filter fun g => 2 < groupNz fmt x k i g).length).foldl (· + ·) 0

/-- Steps that window `w` of the whole operand costs a step set of the lines `lo` to `hi - 1` (R199); `tile` gives the tile that holds a
line and a K tile. -/
def windowCost (fmt : Nat) (tile : Nat → Nat → Option Tile) (x : Elems) (dense : Bool) (n k lo hi w : Nat) : Nat :=
  if dense then
    if (List.range (hi - lo)).any fun i => lo + i < n && 2 < groupNz fmt x k (lo + i) w then 4 else 2
  else (List.range (hi - lo)).foldl (fun m i =>
    if lo + i < n then
      match tile (lo + i) (w / 8) with
      | some t => max m (t.cost (w % 8))
      | none => m
    else m) 1

/-! ### Encoding (R195 to R197, R210) -/

/-- The run-length payload of one line's nonzero positions. -/
def rlEncode (w : Nat) : List (Nat × Nat) → Nat → Bytes
  | [], _ => []
  | [(j, v)], nx => toLe 1 (j - nx + 32) ++ toLe w v
  | (j, v) :: t, nx => toLe 1 (j - nx) ++ toLe w v ++ rlEncode w t (j + 1)

/-- A tile's header (R194). -/
def tileHeader (flags nnz mask : Nat) : Bytes := mkRec 16 [(0, 1, flags), (2, 2, nnz), (4, 4, mask)]

/-- A tile encoded: its bytes, whether RAW, overfull groups found, stored entries and slots (a RAW tile has none). -/
structure TileEnc where
  bytes : Bytes
  raw : Bool
  ovr : Nat
  count : Nat
deriving DecidableEq, Repr

/-- Encode one 32 × 32 tile given by its elements (R210): run-length, or packed 2:4. -/
def encodeTile (fmt : Nat) (packed : Bool) (x : Nat → Nat → Nat) : TileEnc :=
  let w := skimW fmt
  let rawB : Bytes := tileHeader 1 0 0 ++ (List.range 1024).flatMap fun i => toLe w (x (i / 32) (i % 32))
  if packed then
    let nz (l g : Nat) : List Nat := (List.range 4).filter fun i => !zeroBits fmt (x l (4 * g + i))
    let ovr := ((List.range 32).map fun l => ((List.range 8).filter fun g => 2 < (nz l g).length).length).foldl (· + ·) 0
    if ovr ≠ 0 then ⟨rawB, true, ovr, 0⟩
    else
      let slot (l g s : Nat) : Nat × Nat := match (nz l g)[s]? with
        | some i => (x l (4 * g + i), i)
        | none => (0, if s = 0 then 0 else if (nz l g)[0]? == some 3 then 2 else 3)
      let vals := (List.range 512).flatMap fun i => toLe w (slot (i / 16) (i % 16 / 2) (i % 2)).1
      let sels := (List.range 32).flatMap fun l =>
        toLe 4 ((List.range 16).foldl (fun a i => a + (slot l (i / 2) (i % 2)).2 * 4 ^ i) 0)
      ⟨tileHeader 2 0 0 ++ vals ++ sels, false, 0, 512⟩
  else
    let line (l : Nat) : List (Nat × Nat) :=
      ((List.range 32).map fun j => (j, x l j)).filter fun e => !zeroBits fmt e.2
    let nnz := ((List.range 32).map fun l => (line l).length).foldl (· + ·) 0
    if 1024 * w < nnz * (1 + w) then ⟨rawB, true, 0, 0⟩
    else
      let mask := (List.range 32).foldl (fun a l => if (line l).isEmpty then a else a + 2 ^ l) 0
      ⟨tileHeader 0 nnz mask ++ (List.range 32).flatMap fun l => rlEncode w (line l) 0, false, 0, nnz⟩

end Sys2Proof.Machine
end

