-- ==== Sys2Proof/Machine/Gemm.lean ====
section
/-!
DEFINITION. What a GEMM task computes: its arguments bound to the step (10_task_graphs.md R324, R325, R331), its operands with
scales and expansion (03_number_formats.md R92 to R106), the drain (04_tensor_arrays.md R125), and the stage list of a fused
command (05_core_streaming.md R163 to R167, R573).
-/
namespace Sys2Proof.Machine

/-! ### Arguments (10 R324, R325, R331) -/

/-- The arguments of a GEMM task as its core receives them. -/
structure Gemm where
  p : Nat
  fa : FmtWord
  fb : FmtWord
  fc : FmtWord
  fd : FmtWord
  ctrl : Nat
  soper : Nat
  sform : Nat
  m : Nat
  k : Nat
  n : Nat
  sid : Nat
  agen : Nat
  xpose : Nat
  a : Nat
  b : Nat
  c : Nat
  d : Nat
  aStride : Nat
  bStride : Nat
  cStride : Nat
  dStride : Nat
  scaleA : Nat
  scaleB : Nat
  scaleD : Nat
  tableB : Nat
  aux : Nat
  stages : Nat
  b2 : Nat
  tableB2 : Nat
  split : Nat
  sid2 : Nat
  row0 : Nat
  rowrec : Option Nat
deriving DecidableEq, Repr

/-- Blocks of `bs` in `n`. -/
def blocksOf (n bs : Nat) : Nat := (n + bs - 1) / bs

/-- The arguments of GEMM node `n` of a step of `rows` rows (R324, R325), bound under R331. -/
def Graph.gemm (g : Graph) (p n rows : Nat) : Gemm :=
  let d := g.desc n
  let bind := dBind d
  let r := boundRows d rows
  let r0 := if bind then r.1 else 0
  let fa := gFmtA d
  let fd := gFmtD d
  let k := fieldAt d 60 4
  let nn := fieldAt d 64 4
  let agen := gAgen d
  let x := g.extField n
  { p := p, fa := fa, fb := gFmtB d, fc := gFmtC d, fd := fd, ctrl := gCtrl d
    soper := gSparse d % 4, sform := bitsOf (gSparse d) 2 2
    m := if bind then r.2 - r.1 else fieldAt d 56 4, k := k, n := nn
    sid := fieldAt d 68 2, agen := agen, xpose := gXpose d
    a := if agen = 1 then fieldAt d 72 8 else fieldAt d 72 8 + r0 * fieldAt d 104 4
    b := fieldAt d 80 8
    c := if fieldAt d 88 8 = 0 then 0 else fieldAt d 88 8 + r0 * fieldAt d 112 4
    d := fieldAt d 96 8 + r0 * fieldAt d 116 4
    aStride := fieldAt d 104 4, bStride := fieldAt d 108 4, cStride := fieldAt d 112 4, dStride := fieldAt d 116 4
    scaleA := x 8 8 + r0 * blocksOf k fa.bs * scaleBytes fa
    scaleB := x 16 8
    scaleD := x 24 8 + r0 * blocksOf nn fd.bs
    tableB := x 32 8
    aux := if agen = 1 then x 40 8 + 4 * r0 else x 40 8
    stages := x 48 8, b2 := x 56 8, tableB2 := x 64 8
    split := if x 56 8 = 0 then nn else x 72 4
    sid2 := x 76 2, row0 := r0
    rowrec := if bind then some (g.stepAddr + 32 + 8 * r0) else none }

/-- Whether the operand format words and the sparse word let the task run (03 R105; 05 R156; 06 R191). -/
def Gemm.fmtOk (q : Gemm) : Bool :=
  let sp := if q.soper = 1 then q.fa else q.fb
  let other := if q.soper = 1 then q.fb else q.fa
  aWordOk q.fa && bWordOk q.fb && pairOk q.fa.fmt q.fb.fmt q.fb.expand && (q.c == 0 || cWordOk q.fc) &&
    (q.stages != 0 || dWordOk q.fd) && !(q.xpose.testBit 1 && 5 ≤ q.fb.fmt && q.fb.fmt ≤ 8) && q.soper != 3 && q.sform < 2 &&
    (q.soper == 0 || ((sp.fmt == 0 || sp.fmt == 2 || sp.fmt == 3 || sp.fmt == 4) && sp.expand == 0 &&
      other.fmt != 7 && other.fmt != 8))

/-- Whether the stages' format words let the task run: a bias in BF16 or FP32, a STORE that D could be (03 R104; 05 R164,
R166). -/
def stageFmtOk (st : List Bytes) : Bool :=
  st.all fun x =>
    let w := FmtWord.ofNat (fieldAt x 8 4)
    if fieldAt x 0 1 = 2 then w.codesOk && w.fmt < 2 && w.scale == 0 && w.expand == 0
    else if fieldAt x 0 1 = 6 then dWordOk w else true

/-! ### Rates and dataflow (04 R119 to R121, R126 to R130; 05 R152) -/

/-- Whether an operand scaled along its other dimension moves the pairing to BF16 (03 R94). -/
def Gemm.dir1 (q : Gemm) : Bool := (q.fa.scale != 0 && q.fa.dir) || (q.fb.scale != 0 && q.fb.dir)

/-- Multiply-accumulates per cell and core cycle (03 R103). -/
def Gemm.rate (q : Gemm) : Nat :=
  let fp8a := isFp8 q.fa.fmt
  let signed_ := (q.fb.fmt == 7 || q.fb.fmt == 8) && q.fb.expand == 0
  if q.dir1 then 1
  else if signed_ then (if q.fa.fmt = 0 then 4 else 8)
  else if q.fa.fmt = 0 || q.fb.fmt == 0 || (q.fa.fmt == 4 && isFp8 q.fb.fmt) then 1
  else if fp8a || q.fa.fmt == 4 then 2 else 1

/-- Whether the task runs weight-stationary on a core of `arr` arrays (04 R120; 06 R192). -/
def Gemm.ws (q : Gemm) (arr : Nat) : Bool :=
  if q.soper != 0 then false
  else if q.ctrl % 4 = 1 then false
  else if q.ctrl % 4 = 2 then true
  else !(32 * q.rate ≤ q.k && 32 * arr ≤ q.m)

/-- KPARTS: 0 no split, 1 two parts, 2 four parts (04 R120; 06 R192). -/
def Gemm.kparts (q : Gemm) (arr : Nat) : Nat :=
  let ks := bitsOf q.ctrl 4 2
  if q.soper != 0 || q.ws arr then 0
  else if ks = 3 then (if 32 * arr ≤ q.m then 0 else if 32 < q.m || arr = 2 then 1 else 2)
  else if ks = 2 && arr = 2 then 1 else ks

/-- Bytes of a scale array that covers `lines` lines of `len` positions (03 R92). -/
def scaleArray (w : FmtWord) (lines len : Nat) : Nat :=
  if w.scale = 0 then 0
  else scaleBytes w * if w.dir then len * blocksOf lines w.bs else lines * blocksOf len w.bs

/-- The array entry format of B after expansion (03 R98 to R103). -/
def Gemm.entryB (q : Gemm) : Nat := if q.dir1 then 0 else if isFp8 q.fa.fmt then q.fa.fmt else 0

/-- Bytes of the A panel and of the B panel (05 R151, R152): on the vector unit's affine path B counts at its expanded width. -/
def Gemm.panels (q : Gemm) (v : Variant) : Nat × Nat :=
  let arr := v.arrays
  let wb := if q.fb.expand = 2 && !v.affine then fmtBits q.entryB else fmtBits q.fb.fmt
  let a := (32 * arr * q.k * fmtBits q.fa.fmt + 7) / 8 + scaleArray q.fa (32 * arr) q.k
  let b := (32 * q.k * wb + 7) / 8 + scaleArray q.fb 32 q.k
  (a, b)

/-- SPLIT of the control word. -/
def Gemm.splitQ (q : Gemm) : Nat := bitsOf q.ctrl 2 2

/-- Whether some array holds 1 to 16 rows of M in its rows of a tile group (04 R127). -/
def Gemm.edgeRows (q : Gemm) (arr : Nat) : Bool := !q.ws arr && inRange (q.m % 32) 1 16
/-- Whether the last column block holds 1 to 16 columns of N. -/
def Gemm.edgeCols (q : Gemm) : Bool := inRange (q.n % 32) 1 16
/-- Whether some array runs as quadrants (04 R127, R132). -/
def Gemm.quad (q : Gemm) (arr : Nat) : Bool :=
  q.splitQ = 1 || (q.splitQ = 2 && (q.edgeRows arr || q.edgeCols))

/-- The arrays that have work: in a weight-stationary pass those whose block holds a row; else all, an array with no rows computing a
tile of zeros (04 R127, R129). -/
def Gemm.atWork (q : Gemm) (arr : Nat) : List Nat :=
  (List.range arr).filter fun a => !q.ws arr || a * blocksOf q.m arr < q.m

/-- The fetch plan (05 R152): 0 A resident, 1 B resident, 2 neither. -/
def planOf (pn : Nat × Nat) : Nat := if pn.1 ≤ 327680 then 0 else if pn.2 ≤ 196608 then 1 else 2

/-! ### Weight streams (05 R171 to R174) -/

/-- Lines of the weight cache that partition `p` has in a cluster. -/
def State.wcLines (s : State) (p k : Nat) : Nat :=
  ((s.coresOf p).filter fun c => s.clusterOf c == k).length * s.wcacheBytes p / 1024

/-- Touch one 1 KiB line of LPDDR5X through the weight cache of core `c`'s cluster: a hit, or a miss that reads it. Sets of
16 lines, by line number (assumption 33). -/
def Fetch.wcTouch (f : Fetch) (p c l : Nat) : Fetch :=
  let k := f.st.clusterOf c
  let cap := f.st.wcLines p k
  let w := (f.st.cluster k).wcache
  let sets := max 1 (cap / 16)
  let same (e : Nat × Nat) : Bool := e.1 == p && e.2 % sets == l % sets
  let keep := w.filter fun e => e != (p, l)
  let w' :=
    if cap = 0 then w
    else if (keep.filter same).length < min 16 cap then (p, l) :: keep
    else match (keep.filter same).getLast? with
      | some old => (p, l) :: keep.filter fun e => e != old
      | none => (p, l) :: keep
  let s := f.st.modCluster k fun x => { x with wcache := w' }
  if w.contains (p, l) then { f with st := s.bump (Rg.CORE_WFETCH_HITS (s.physCore c)) }
  else
    let r := (s.bump (Rg.CORE_WFETCH_MISSES (s.physCore c))).ramRead p 0 (l * 1024) 1024
    ⟨f.fail || r.code != 0, f.bytes, r.st⟩

/-- The distinct 1 KiB lines of LPDDR5X that runs of `n` bytes at the addresses touch. -/
def wcLinesOf (n : Nat) (as : List Nat) : List Nat :=
  as.foldl (fun acc a =>
    if reserveBase ≤ a || n = 0 then acc
    else (List.range ((a + n - 1) / 1024 - a / 1024 + 1)).foldl (fun acc i =>
      let l := a / 1024 + i
      if acc.contains l then acc else acc ++ [l]) acc) []

/-- A stream of B as it is read: its number, base and span, and how often each of its lines is fetched. -/
structure BStream where
  sid : Nat
  base : Nat
  span : Nat
  times : Nat

/-- Read lines of B for core `c`: through the weight cache in mode 0, as often as the plan fetches them, from the landing ring for a
member of the stream's multicast group, and directly otherwise (05 R152, R171 to R174). A read that a cache or ring serves makes no
LPDDR5X request of its own. -/
def Fetch.getsB (f : Fetch) (p c : Nat) (b : BStream) (n : Nat) (as : List Nat) : List Line × Fetch :=
  let ok := as.all fun a => (f.st.badPoint p a n).isNone
  let mode := (f.st.streamMode p b.sid).1
  let member := f.st.mcasts.any fun g => g.part == p && g.stream == b.sid && g.base == b.base && g.len == b.span &&
    g.members.any fun z => z.core == c
  if ok && (mode = 0 || member) then
    let f := if mode = 0 then forN b.times (fun f _ => (wcLinesOf n as).foldl (fun f l => f.wcTouch p c l) f) f else f
    let r := as.foldl (fun (acc : List Line × Fetch) a =>
      if reserveBase ≤ a then let x := acc.2.get p a n; (acc.1 ++ [x.1], x.2)
      else
        let x := f.st.ramRead p 0 a n
        (acc.1 ++ [⟨a, x.data, x.poison⟩], ⟨acc.2.fail || x.code != 0, acc.2.bytes + n, acc.2.st⟩)) ([], f)
    r
  else f.gets p n as

/-! ### Operands -/

/-- Operand A before scaling: dense, gathered, or by convolution (05 R158; 04 R138); or sparse with its tiles. -/
structure OpIn where
  x : Elems
  tiles : List Tile
  f : Fetch

/-- Gathered rows (R158): the index array at AUX, then one line per row. -/
def Fetch.gather (f : Fetch) (q : Gemm) : Elems × Fetch :=
  let g := f.get q.p q.aux (4 * q.m)
  let r := g.2.gets q.p (lineBytes q.fa.fmt q.k) ((List.range q.m).map fun i => q.a + fieldAt g.1.data (4 * i) 4 * q.aStride)
  (fun i j =>
    let e := (r.1.getD i ⟨0, [], []⟩).elem q.fa.fmt j
    (e.1, e.2 || g.1.poison.contains ((q.aux + 4 * i) / 64)), r.2)

/-- The input element of a convolution that (m, k) stands for: (pixel, channel), none in the padding (R138). -/
def convAt (c : Bytes) (m k : Nat) : Option (Nat × Nat) :=
  let oh := convOH c
  let ow := convOW c
  let ci := fieldAt c 4 2
  let kw := fieldAt c 7 1
  let b := m / (oh * ow)
  let h : Int := (m % (oh * ow) / ow * fieldAt c 8 1 : Nat) - (fieldAt c 12 1 : Int) + (k / (kw * ci) * fieldAt c 10 1 : Nat)
  let w : Int := (m % ow * fieldAt c 9 1 : Nat) - (fieldAt c 14 1 : Int) + (k % (kw * ci) / ci * fieldAt c 11 1 : Nat)
  if 0 ≤ h && h < fieldAt c 0 2 && 0 ≤ w && w < fieldAt c 2 2 then
    some ((b * fieldAt c 0 2 + h.toNat) * fieldAt c 2 2 + w.toNat, k % ci)
  else none

/-- Convolution input (R138): one line per pixel. -/
def Fetch.conv (f : Fetch) (q : Gemm) (c : Bytes) : Elems × Fetch :=
  let px := fieldAt c 0 2 * fieldAt c 2 2 * (q.m / (convOH c * convOW c))
  let n := lineBytes q.fa.fmt (fieldAt c 4 2)
  let r := f.gets q.p n ((List.range px).map fun i => q.a + i * n)
  (fun i j => match convAt c i j with
    | some e => (r.1.getD e.1 ⟨0, [], []⟩).elem q.fa.fmt e.2
    | none => (0, false), r.2)

/-- Read one run of B by the way of its stream. -/
def BStream.reader (b : BStream) (p c : Nat) : Reader := fun f a n =>
  let r := f.getsB p c b n [a]
  (r.1.headD ⟨a, [], []⟩, r.2)

/-- Read one run directly. -/
def directly (p : Nat) : Reader := fun f a n => f.get p a n

/-- Operand A. -/
def Fetch.opA (f : Fetch) (q : Gemm) (conv : Bytes) : OpIn :=
  if q.soper = 1 && q.sform = 0 then
    let t := f.tiles (directly q.p) q.fa.fmt q.fa.sgn q.a q.m q.k
    ⟨tiledElem t.1 q.k, t.1, t.2⟩
  else
    let r := if q.agen = 1 then f.gather q else if q.agen = 2 then f.conv q conv
      else f.dense q.p q.fa.fmt q.a q.aStride q.m q.k (q.xpose.testBit 0)
    ⟨r.1, [], r.2⟩

/-- How often the plan fetches each panel of A and of B: a streamed operand once per tile group (05 R152). -/
def Gemm.fetches (q : Gemm) (v : Variant) : Nat × Nat :=
  let plan := planOf (q.panels v)
  (if plan = 0 then 1 else tilesOf q.n, if plan = 1 then 1 else blocksOf q.m (32 * v.arrays))

/-- Stream `sid` of B, `n` columns at `base`. -/
def Gemm.bStream (q : Gemm) (s : State) (sid base n : Nat) : BStream :=
  ⟨sid, base, s.bSpan q.p (q.soper == 2 && q.sform == 0) (q.xpose.testBit 1) q.fb.fmt q.bStride q.k base n, (q.fetches s.var).2⟩

/-- One stream of operand B, `n` columns at `base`: element (n, k). What the Skimmer delivers it has fetched itself (06 R205,
assumption 35); on a variant without one the core fetches the stored bytes as any B. -/
def Fetch.opB1 (f : Fetch) (q : Gemm) (c sid base n : Nat) : OpIn :=
  let b := q.bStream f.st sid base n
  let own := q.soper = 2 && f.st.var.skimmer
  let gets (n : Nat) (as : List Nat) : List Line × Fetch := if own then f.gets q.p n as else f.getsB q.p c b n as
  if q.soper = 2 && q.sform = 0 then
    let t := f.tiles (if own then directly q.p else b.reader q.p c) q.fb.fmt q.fb.sgn base n q.k
    ⟨tiledElem t.1 q.k, t.1, t.2⟩
  else if q.xpose.testBit 1 then
    let r := gets (lineBytes q.fb.fmt q.k) ((List.range n).map fun i => base + i * q.bStride)
    ⟨fun i j => (r.1.getD i ⟨0, [], []⟩).elem q.fb.fmt j, [], r.2⟩
  else
    let r := gets (lineBytes q.fb.fmt n) ((List.range q.k).map fun j => base + j * q.bStride)
    ⟨fun i j => (r.1.getD j ⟨0, [], []⟩).elem q.fb.fmt i, [], r.2⟩

/-- Operand B: its one or two streams (10 R325). The tiles of a second sparse stream follow the first's. -/
def Fetch.opB (f : Fetch) (q : Gemm) (c : Nat) : OpIn :=
  let x := f.opB1 q c q.sid q.b q.split
  if q.b2 = 0 then x
  else
    let y := x.f.opB1 q c q.sid2 q.b2 (q.n - q.split)
    ⟨fun i j => if i < q.split then x.x i j else y.x (i - q.split) j, x.tiles ++ y.tiles, y.f⟩

/-- The raw scales of an operand of `lines` lines of `len` positions, in array order, with a poison mark (03 R92). -/
def Fetch.scales (f : Fetch) (p : Nat) (w : FmtWord) (a lines len : Nat) : (Nat → Nat × Bool) × Fetch :=
  let n := scaleArray w lines len
  if n = 0 then (fun _ => (0, false), f)
  else
    let r := f.get p a n
    let b := scaleBytes w
    (fun i => (fieldAt r.1.data (i * b) b, r.1.poison.contains ((a + i * b) / 64)), r.2)

/-- The index of the scale of element (line, position) (03 R92). -/
def FmtWord.scaleAt (w : FmtWord) (lines len line pos : Nat) : Nat :=
  if w.dir then pos * blocksOf lines w.bs + line / w.bs else line * blocksOf len w.bs + pos / w.bs

/-- The scale of column `n`, position `k` of B, second stream's after the first's (10 R325). -/
def Gemm.scaleBAt (q : Gemm) (n k : Nat) : Nat :=
  if n < q.split then q.fb.scaleAt q.split q.k n k
  else scaleArray q.fb q.split q.k / scaleBytes q.fb + q.fb.scaleAt (q.n - q.split) q.k (n - q.split) k

/-- Read B's scales, of both streams. -/
def Fetch.scalesB (f : Fetch) (q : Gemm) : (Nat → Nat × Bool) × Fetch :=
  if q.fb.scale = 0 then (fun _ => (0, false), f)
  else
    let n := scaleArray q.fb q.split q.k + (if q.b2 = 0 then 0 else scaleArray q.fb (q.n - q.split) q.k)
    let r := f.get q.p q.scaleB n
    let b := scaleBytes q.fb
    (fun i => (fieldAt r.1.data (i * b) b, r.1.poison.contains ((q.scaleB + i * b) / 64)), r.2)

/-- Where the tile of line `i` and K tile `t` of a sparse operand stands among the tiles read: those of a second stream of B follow the
first's (10 R325). -/
def Gemm.tileIdx (q : Gemm) (i t : Nat) : Nat :=
  if q.soper = 2 && q.split ≤ i then (tilesOf q.split + (i - q.split) / 32) * tilesOf q.k + t else i / 32 * tilesOf q.k + t

/-- An expansion table converted to the entry format of B, with its events (03 R99, R100). -/
def tableOf (fmt : Nat) (b : Bytes) : List Num × FmtEv :=
  (List.range 16).foldl (fun acc i =>
    let e := toFmt fmt false (bf16.decode (fieldAt b (2 * i) 2))
    (acc.1 ++ [elemVal fmt false e.1], acc.2.add e.2.quiet)) ([], FmtEv.none)

/-- A value multiplied by the scale of its other dimension and rounded to BF16 in the feeder (03 R94). -/
def feed (w : FmtWord) (v : Num) (scale : Nat) : Num × FmtEv :=
  if w.scale != 0 && w.dir then rnd16Ev (v.mul (scaleVal w scale)) else (v, FmtEv.none)

/-- A value of B as it enters the array, its along-K scale apart (03 R94, R98 to R102). -/
def Gemm.valB (q : Gemm) (table : List Num) (raw scale : Nat) : Num × FmtEv :=
  let w := q.fb
  let ev := elemEv w.fmt raw
  let v := elemVal w.fmt w.sgn raw
  if w.expand = 1 then
    let e := feed w (table.getD (if w.fmt = 8 && raw = 3 then 0 else raw) Num.zero) scale
    (e.1, ev.add e.2)
  else if w.expand = 2 then
    let y := mul32 (rnd32 (v.sub (bf16.decode (scale / 65536)))) (bf16.decode (scale % 65536))
    let e := toFmt q.entryB false y
    (elemVal q.entryB false e.1, ev.add e.2.quiet)
  else
    let narrow := isFp8 q.fa.fmt && (w.fmt == 5 || w.fmt == 6) && !q.dir1
    let v := if narrow then elemVal q.fa.fmt false (toFmt q.fa.fmt false v).1 else v
    let e := feed w v scale
    (e.1, ev.add e.2)

/-- A value of A as it enters the array. -/
def Gemm.valA (q : Gemm) (raw scale : Nat) : Num × FmtEv := feed q.fa (elemVal q.fa.fmt q.fa.sgn raw) scale

/-- Whether the cells select by sign instead of multiplying (03 R103). -/
def Gemm.signs (q : Gemm) : Bool := (q.fb.fmt == 7 || q.fb.fmt == 8) && q.fb.expand == 0 && !q.dir1

/-! ### The product (03 R93, R106; 04 R125) -/

/-- The terms of a sum over `n` positions from `i0`: the products of the pairs, or, where the cells select by sign, the activation as the
weight adds, subtracts or skips it (03 R103). -/
def terms (signs : Bool) (a b : Nat → Num) (i0 n : Nat) : List Num :=
  (List.range n).filterMap fun i => if signs && (b (i0 + i)).isZero then none else some ((a (i0 + i)).mul (b (i0 + i)))

/-- One element of the product over `k` positions, in blocks of `bs` that share scales along K; `z` gives free numbers, one per block and
one for the sum. -/
def dotK (z : Nat → Nat) (k bs : Nat) (scaled signs : Bool) (a b : Nat → Num) (sa sb : Nat → Num) : Num :=
  if scaled then
    freeSum (z 0) ((List.range (blocksOf k bs)).map fun j =>
      rnd32 ((accSum (z (j + 1)) (terms signs a b (j * bs) (min bs (k - j * bs)))).mul ((sa (j * bs)).mul (sb (j * bs)))))
  else accSum (z 0) (terms signs a b 0 k)

/-- Results of a tile: rows of (value, poison mark). -/
abbrev Rows := List (List (Num × Bool))

/-- What evaluating a product yields: its rows, its elements before C, format events, unstored positions that met a non-finite element,
whether a tile was out of range, whether a poisoned tile contributed, poisoned tiles of A and B, the expansion tables loaded, as read,
the operands, their entries, the bytes read of A, of B and beside them, and the fetches. -/
structure Prod where
  rows : Rows
  acc : Nat → Nat → Num
  ev : FmtEv
  nonfin : Nat
  range : Bool
  pois : Bool
  aBad : Nat
  bBad : Nat
  tables : List Bytes
  a : OpIn
  b : OpIn
  inA : Nat → Nat → Num
  inB : Nat → Nat → Num
  bytes : Nat × Nat × Nat
  f : Fetch

/-- Read an expansion table of a task (03 R100): its line, and its bytes if it was loaded. -/
def Fetch.table (f : Fetch) (p a : Nat) (used : Bool) : Line × List Bytes × Fetch :=
  if used then
    let r := Fetch.get { f with fail := false } p a 32
    (r.1, if r.2.fail then [] else [r.1.data], { r.2 with fail := f.fail || r.2.fail })
  else (⟨0, [], []⟩, [], f)

/-- The partial product A × B + C of a GEMM on core `c` (03 R93 to R106; 04 R125). -/
def Fetch.product (f : Fetch) (q : Gemm) (c : Nat) (conv : Bytes) : Prod :=
  let A := f.opA q conv
  let sA := A.f.scales q.p q.fa q.scaleA q.m q.k
  let B := sA.2.opB q c
  let sB := B.f.scalesB q
  let t1 := sB.2.table q.p q.tableB (q.fb.expand == 1)
  let t2 := t1.2.2.table q.p q.tableB2 (q.fb.expand == 1 && q.b2 != 0)
  let tb1 := tableOf q.entryB t1.1.data
  let tb2 := tableOf q.entryB t2.1.data
  let C := if q.c = 0 then ([], t2.2.2)
    else t2.2.2.gets q.p (lineBytes q.fc.fmt q.n) ((List.range q.m).map fun i => q.c + i * q.cStride)
  let ksA := q.fa.scale != 0 && !q.fa.dir
  let ksB := q.fb.scale != 0 && !q.fb.dir && q.fb.expand != 2
  let bs := if ksA && ksB then min q.fa.bs q.fb.bs else if ksA then q.fa.bs else q.fb.bs
  let scA (i j : Nat) : Nat := (sA.1 (q.fa.scaleAt q.m q.k i j)).1
  let scB (i j : Nat) : Nat := (sB.1 (q.scaleBAt i j)).1
  let tbl (i : Nat) : List Num := if i < q.split then tb1.1 else tb2.1
  let vA (i j : Nat) : Num := (q.valA (A.x i j).1 (scA i j)).1
  let vB (i j : Nat) : Num := (q.valB (tbl i) (B.x i j).1 (scB i j)).1
  let fz := C.2.st.free
  let nb := blocksOf q.k bs + 1
  let acc (i n : Nat) : Num := dotK (fun z => Config.freeNat (fz + (i * q.n + n) * nb + z)) q.k bs (ksA || ksB) q.signs (vA i) (vB n)
    (fun j => if ksA then scaleVal q.fa (scA i j) else Num.one) (fun j => if ksB then scaleVal q.fb (scB n j) else Num.one)
  let el (i n : Nat) : Num :=
    let x := acc i n
    if q.c = 0 then x else add32 x (elemVal q.fc.fmt false ((C.1.getD i ⟨0, [], []⟩).elem q.fc.fmt n).1)
  let badA (b : Nat) : Bool := blockBad A.x q.m q.k b ||
    (List.range 32).any fun i => 32 * b + i < q.m && (List.range q.k).any fun j =>
      q.fa.scale != 0 && (sA.1 (q.fa.scaleAt q.m q.k (32 * b + i) j)).2
  let badB (b : Nat) : Bool := blockBad B.x q.n q.k b || (32 * b < q.split && !t1.1.poison.isEmpty) ||
    (q.split < 32 * b + 32 && !t2.1.poison.isEmpty) ||
    (List.range 32).any fun i => 32 * b + i < q.n && (List.range q.k).any fun j =>
      q.fb.scale != 0 && (sB.1 (q.scaleBAt (32 * b + i) j)).2
  let outA (b : Nat) : Bool := q.soper == 1 && (List.range (tilesOf q.k)).any fun t => (A.tiles[q.tileIdx (32 * b) t]?).any (·.out)
  let outB (b : Nat) : Bool := q.soper == 2 && (List.range 32).any fun i =>
    32 * b + i < q.n && (List.range (tilesOf q.k)).any fun t => (B.tiles[q.tileIdx (32 * b + i) t]?).any (·.out)
  let badC (i b : Nat) : Bool := q.c != 0 && (List.range 32).any fun r => (List.range 32).any fun n =>
    let row := i / 32 * 32 + r
    row < q.m && 32 * b + n < q.n && ((C.1.getD row ⟨0, [], []⟩).elem q.fc.fmt (32 * b + n)).2
  let mark (i n : Nat) : Bool :=
    badA (i / 32) || badB (n / 32) || outA (i / 32) || outB (n / 32) || badC i (n / 32)
  let rows : Rows := (List.range q.m).map fun i => (List.range q.n).map fun n => (el i n, mark i n)
  let evB : FmtEv := (List.range q.n).foldl (fun e n => (List.range q.k).foldl (fun e j =>
    e.add (q.valB (tbl n) (B.x n j).1 (scB n j)).2) e) FmtEv.none
  let evA : FmtEv := (List.range q.m).foldl (fun e i => (List.range q.k).foldl (fun e j =>
    e.add (q.valA (A.x i j).1 (scA i j)).2) e) FmtEv.none
  let evT := if q.fb.expand = 1 then tb1.2.add (if q.b2 = 0 then FmtEv.none else tb2.2) else FmtEv.none
  let stored (x : Elems) (ts : List Tile) (fmt i j : Nat) : Bool :=
    if q.sform = 0 then (ts[q.tileIdx i (j / 32)]?).any fun t => t.form == 2 ||
      t.vals.any fun v => v.1 == (if q.soper == 2 && q.split ≤ i then i - q.split else i) % 32 && v.2.1 == j % 32
    else !zeroBits fmt (x i j).1 || 2 < groupNz fmt x q.k i (j / 4)
  let nonfin :=
    if q.soper = 1 then ((List.range q.m).map fun i => ((List.range q.k).filter fun j =>
      !stored A.x A.tiles q.fa.fmt i j && (List.range q.n).any fun n => (vB n j).special).length).foldl (· + ·) 0
    else if q.soper = 2 then ((List.range q.n).map fun n => ((List.range q.k).filter fun j =>
      !stored B.x B.tiles q.fb.fmt n j && (List.range q.m).any fun i => (vA i j).special).length).foldl (· + ·) 0
    else 0
  let s := { C.2.st with free := fz + q.m * q.n * nb }
  let range := (A.tiles ++ B.tiles).any (·.out)
  let pois := (List.range (tilesOf q.m)).any fun i => (List.range (tilesOf q.n)).any fun j =>
    badA i || badB j || badC (32 * i) j
  let bytes := (sA.2.bytes - f.bytes, sB.2.bytes - sA.2.bytes, C.2.bytes - sB.2.bytes)
  ⟨rows, acc, (evA.add evB).add evT, nonfin, range, pois, tilesBad A.x q.m q.k, tilesBad B.x q.n q.k, t1.2.1 ++ t2.2.1, A, B, vA, vB, bytes,
    { C.2 with st := s }⟩

/-! ### Writing results -/

/-- What a task's writes have gathered: whether one failed its check, bytes moved, events, and the state. -/
structure Store where
  fail : Bool
  bytes : Nat
  ev : FmtEv
  st : State
deriving DecidableEq, Repr

/-- A task's write of `bs` at `a`: cached weight lines that hold it are dropped (05 R173). -/
def Store.put (w : Store) (p a : Nat) (bs : Bytes) (bad : Bool) : Store :=
  let r := w.st.devWrite p 1 a bs bad
  { w with fail := w.fail || r.code != 0, bytes := w.bytes + bs.length, st := r.st.wcInval p a bs.length }

/-- The maximal runs of equal poison marks in a list of element bits from index `i`: (first index, bits, mark). -/
def runsOf : Nat → List (Nat × Bool) → List (Nat × List Nat × Bool)
  | _, [] => []
  | i, (x, b) :: t => match runsOf (i + 1) t with
    | (j, xs, c) :: r => if b = c then (i, x :: xs, b) :: r else (i, [x], b) :: (j, xs, c) :: r
    | [] => [(i, [x], b)]

/-- Write one line of elements of format `fmt` at `a`, each run of equal marks together. -/
def Store.line (w : Store) (p fmt a : Nat) (xs : List (Nat × Bool)) : Store :=
  (runsOf 0 xs).foldl (fun w r => w.put p (a + r.1 * (fmtBits fmt / 8)) (packLine fmt r.2.1) r.2.2) w

/-- Convert a row of results under a format word: element bits, scale bytes, events (03 R85 to R88, R97, R104). -/
def convRow (w : FmtWord) (xs : List Num) : List Nat × List Nat × FmtEv :=
  if w.scale = 0 then
    xs.foldl (fun acc x => let e := toFmt w.fmt false x; (acc.1 ++ [e.1], acc.2.1, acc.2.2.add e.2)) ([], [], FmtEv.none)
  else
    (List.range (blocksOf xs.length w.bs)).foldl (fun acc j =>
      let e := deriveBlock w.fmt ((xs.drop (j * w.bs)).take w.bs)
      (acc.1 ++ e.2.1, acc.2.1 ++ [e.1], acc.2.2.add e.2.2)) ([], [], FmtEv.none)

/-- Write rows of results: row m at `a + m × stride`, its scales at `sc + m × ss` (03 R92, R97; 05 R166). -/
def Store.rows (w : Store) (p : Nat) (f : FmtWord) (a stride sc ss : Nat) (rows : Rows) : Store :=
  rows.zipIdx.foldl (fun w r =>
    let e := convRow f (r.1.map (·.1))
    let w := { w.line p f.fmt (a + r.2 * stride) (e.1.zip (r.1.map (·.2))) with ev := w.ev.add e.2.2 }
    if f.scale = 0 then w else w.put p (sc + r.2 * ss) (e.2.1.flatMap fun x => toLe 1 x) false) w

/-- Write D transposed: element (m, n) at `a + n × stride + m × w`, scales as untransposed (05 R156). -/
def Store.rowsT (w : Store) (p : Nat) (f : FmtWord) (a stride sc ss n : Nat) (rows : Rows) : Store :=
  let es := rows.map fun r => convRow f (r.map (·.1))
  let w := { w with ev := es.foldl (fun e x => e.add x.2.2) w.ev }
  let w := (List.range n).foldl (fun w j =>
    w.line p f.fmt (a + j * stride) ((es.zip rows).map fun x => (x.1.1.getD j 0, (x.2.getD j (Num.zero, false)).2))) w
  if f.scale = 0 then w
  else es.zipIdx.foldl (fun w x => w.put p (sc + x.2 * ss) (x.1.2.1.flatMap fun b => toLe 1 b) false) w

/-! ### Stages (05 R163 to R167, R573) -/

/-- Replace the columns `c0` to `c0 + n - 1` of a row. -/
def onCols (c0 n : Nat) (f : List (Num × Bool) → List (Num × Bool)) (r : List (Num × Bool)) : List (Num × Bool) :=
  r.take c0 ++ f ((r.drop c0).take n) ++ r.drop (c0 + n)

/-- The sigmoid sequence (R573). -/
def sigmoid32 (x : Num) : Num := recip32 (add32 (exp32 x.negate) Num.one)

/-- Fused multiply-add, one rounding (03 R109). -/
def fma32 (a b c : Num) : Num := rnd32 ((a.mul b).add c)

/-- k0 and k1 of GELU: the FP32 roundings of 2√(2/π) and 0.08943 × √(2/π) (R573). -/
def geluK0 : Num := num32 0x3FCC_422A
/-- k1. -/
def geluK1 : Num := num32 0x3D92_2279

/-- The activation functions (R164, R573). -/
def act32 (k : Nat) (x : Num) : Num :=
  if k = 0 then x.maxN Num.zero
  else if k = 1 then mul32 x (sigmoid32 x)
  else if k = 2 then
    let u := mul32 x x
    let u := mul32 (fma32 u geluK1 geluK0) x
    mul32 x (sigmoid32 u)
  else sigmoid32 x

/-- Rotate one head by the (cos, sin) pairs given (R573). -/
def rotHead (dr : Nat) (cs : List (Num × Num × Num × Num)) (h : List (Num × Bool)) : List (Num × Bool) :=
  let half := dr / 2
  let g (i : Nat) : Num × Bool := h.getD i (Num.zero, false)
  let ang (i : Nat) : Num × Num := match cs[i]? with
    | some (cH, sH, cL, sL) =>
      (fma32 sH.negate sL (mul32 cH cL), fma32 cH sL (mul32 sH cL))
    | none => (Num.one, Num.zero)
  (List.range h.length).map fun i =>
    if i < half then
      let a := ang i
      (fma32 (g (i + half)).1.negate a.2 (mul32 (g i).1 a.1), (g i).2 || (g (i + half)).2)
    else if i < dr then
      let a := ang (i - half)
      (fma32 (g i).1 a.1 (mul32 (g (i - half)).1 a.2), (g i).2 || (g (i - half)).2)
    else g i

/-- Pieces of `n` of a list. -/
def piecesOf {α : Type} (n : Nat) (xs : List α) : List (List α) :=
  (List.range (xs.length / max 1 n)).map fun i => (xs.drop (i * n)).take n

/-- What the stages of a fused command have made: the rows, whether a read failed or met poison, the status so far, fetches and stores in
one. -/
structure StageSt where
  rows : Rows
  fail : Bool
  pois : Bool
  status : Nat
  inB : Nat
  w : Store

/-- Read `n` bytes for a stage. -/
def StageSt.get (x : StageSt) (p a n : Nat) : Line × StageSt :=
  let r := Fetch.get ⟨false, 0, x.w.st⟩ p a n
  (r.1, { x with fail := x.fail || r.2.fail, pois := x.pois || !r.1.poison.isEmpty, inB := x.inB + n, w := { x.w with st := r.2.st } })

/-- Where a stage's row records stand (05 R164; 10 R331). -/
def Gemm.recAddr (q : Gemm) (x : Bytes) : Nat := match q.rowrec with
  | some a => a
  | none => fieldAt x 16 8

/-- The slot bytes of one head's part, with scales for FP8 (08 R256). -/
def slotOf (f : FmtWord) (xs : List Num) : Bytes × FmtEv :=
  let e := convRow f xs
  (packLine f.fmt e.1 ++ e.2.1.flatMap (fun b => toLe 1 b), e.2.2)

/-- KV_APPEND of one row's heads (05 R167; 08 R270): each head's key or value into its request's stream. -/
def StageSt.append (x : StageSt) (q : Gemm) (t core : Nat) (st : Bytes) (pos entry : Nat) (row : List (Num × Bool)) :
    StageSt :=
  let f := FmtWord.ofNat (fieldAt st 8 4)
  let d := fieldAt st 24 8 % 65536
  let isV := bitOf (fieldAt st 24 8) 16
  let layer := fieldAt st 12 4 % 65536
  let h0 := fieldAt st 12 4 / 65536
  let s := x.w.st
  let pt := s.part q.p
  if !(pt.ledBase ≤ entry && entry < pt.ledBase + pt.ledN) then
    { x with fail := true, w := { x.w with st := s.isolation q.p (s.ledgerOwner entry) 3 entry } }
  else
    let list := (find (fun _ => Entry.free) s.ledger entry).pageList
    (piecesOf d row).zipIdx.foldl (fun x hd =>
      let halves := if d = 256 then [(0, hd.1.take 128), (1, hd.1.drop 128)] else [(0, hd.1)]
      halves.foldl (fun (x : StageSt) hf =>
        if x.status ≠ 0 then x
        else
          let e := slotOf f (hf.2.map (·.1))
          let r := x.w.st.appendSlot q.p t core list layer (h0 + hd.2) pos hf.1 d f.fmt isV e.1
            (if hf.2.any (·.2) then 1 else 0)
          { x with status := r.1, w := { x.w with st := r.2, ev := x.w.ev.add e.2, bytes := x.w.bytes + e.1.length } }) x) x

/-- Run one stage over every row (R164, R166, R573). -/
def StageSt.stage (x : StageSt) (q : Gemm) (t core : Nat) (st : Bytes) : StageSt :=
  let k := fieldAt st 0 1
  let c0 := fieldAt st 2 2
  let nc := fieldAt st 4 2
  let w := FmtWord.ofNat (fieldAt st 8 4)
  let par := fieldAt st 12 4
  if k = 2 then
    let b := x.get q.p (fieldAt st 16 8) (lineBytes w.fmt nc)
    let add (r : List (Num × Bool)) : List (Num × Bool) := r.zipIdx.map fun e =>
      let y := b.1.elem w.fmt e.2
      (add32 e.1.1 (elemVal w.fmt false y.1), e.1.2 || y.2)
    { b.2 with rows := x.rows.map (onCols c0 nc add) }
  else if k = 3 then
    { x with rows := x.rows.map (onCols c0 nc fun r => r.map fun e => (act32 par e.1, e.2)) }
  else if k = 4 then
    { x with rows := x.rows.map (onCols c0 nc fun r => r.map fun e => (mul32 e.1 (num32 par), e.2)) }
  else if k = 5 then
    let dr := par % 65536
    let hd := par / 65536
    let n := 4 * dr
    let tb := fieldAt st 24 8
    x.rows.zipIdx.foldl (fun (acc : StageSt) r =>
      let e := acc.get q.p (q.recAddr st + 8 * r.2) 8
      let pos := fieldAt e.1.data 0 4
      let h := e.2.get q.p (tb + pos / 2048 * n) n
      let l := h.2.get q.p (tb + 2048 * n + pos % 2048 * n) n
      let cs := (List.range (dr / 2)).map fun i =>
        (num32 (fieldAt h.1.data (8 * i) 4), num32 (fieldAt h.1.data (8 * i + 4) 4),
          num32 (fieldAt l.1.data (8 * i) 4), num32 (fieldAt l.1.data (8 * i + 4) 4))
      let bad := !e.1.poison.isEmpty || !h.1.poison.isEmpty || !l.1.poison.isEmpty
      let turn (y : List (Num × Bool)) : List (Num × Bool) :=
        ((piecesOf hd y).flatMap (rotHead dr cs)).map fun v => (v.1, v.2 || bad)
      { l.2 with rows := acc.rows ++ [onCols c0 nc turn r.1] }) { x with rows := [] }
  else if k = 6 then
    let rows := x.rows.map fun r => (r.drop c0).take nc
    let sc := fieldAt st 24 8 + q.row0 * blocksOf nc w.bs
    { x with w := x.w.rows q.p w (fieldAt st 16 8 + q.row0 * par) par sc (blocksOf nc w.bs) rows }
  else if k = 7 then
    x.rows.zipIdx.foldl (fun (acc : StageSt) r =>
      if acc.status ≠ 0 then acc
      else
        let e := acc.get q.p (q.recAddr st + 8 * r.2) 8
        e.2.append q t core st (fieldAt e.1.data 0 4) (fieldAt e.1.data 4 4)
          (((r.1.drop c0).take nc).map fun v => (v.1, v.2 || !e.1.poison.isEmpty))) x
  else x

/-- Whether every row record that a ROTARY stage names has a position below 4,194,304 (05 R164). -/
def Gemm.rotaryOk (q : Gemm) (s : State) (st : List Bytes) : Bool :=
  st.all fun x => fieldAt x 0 1 != 5 || (List.range q.m).all fun i =>
    fieldAt (s.devRead q.p 0 (q.recAddr x + 8 * i) 4).data 0 4 < 4194304

end Sys2Proof.Machine
end

