-- ==== Sys2Proof/Machine/Tensor.lean ====
section
/-!
DEFINITION. The commands by which GEMM, VEC and COPY tasks do their work on a core (10_task_graphs.md R323 to R326,
05_core_streaming.md R155 to R168).
-/
namespace Sys2Proof.Machine

/-! ### Blocks, outcomes and counters that tasks share -/

/-- Read, as traffic of class `cls`, a block that task `t` names, again, when it runs: a read that fails gives UNCORRECTABLE; a block that is poisoned or
breaks its rules gives FMT_UNSUPPORTED and counts in BAD_BLOCK (10 R330). -/
def State.taskBlk (s : State) (t p cls a n : Nat) (bad : Bytes → Bool) : Option Bytes × State :=
  let r := s.devRead p cls a n
  if r.code ≠ 0 then (none, r.st.taskStatus t stUncorr 0)
  else if r.poison.isEmpty && !bad r.data then (some r.data, r.st)
  else (none, (r.st.taskStatus t stFmtUns 0).bump (Rg.DSP_EVENTS_BAD_BLOCK p))

/-- The status of a task whose outputs are written: an error, or the flags that apply (00 R14, R15). -/
def State.flagTask (s : State) (t : Nat) (fail range pois : Bool) : State :=
  let s := if fail then s.taskStatus t stUncorr 0 else s
  let s := if range then s.taskStatus t stFlagged subRange else s
  if pois then s.taskStatus t stFlagged subPoison else s

/-- Count format events on a physical core (03 R113). -/
def State.fmtEvents (s : State) (c : Nat) (e : FmtEv) : State :=
  (((s.bump (Rg.CORE_FMT_EVENTS_TERN_RSV c) e.tern).bump (Rg.CORE_FMT_EVENTS_SAT_E4M3 c) e.sat).bump
    (Rg.CORE_FMT_EVENTS_OVF_INF c) e.ovf).bump (Rg.CORE_FMT_EVENTS_NAN_OUT c) e.nan

/-- Count bytes moved by the inbound and outbound DMA engines of a physical core (05 R182). -/
def State.dmaBytes (s : State) (c i o : Nat) : State :=
  (s.bump (Rg.CORE_DMA_BYTES c 0) i).bump (Rg.CORE_DMA_BYTES c 1) o

/-- The logical core of a part. -/
def TaskPart.coreN (x : TaskPart) : Nat := x.core.getD 0

/-- Quarters of an array's columns on at time `t`: while they turn on, one more every 8 core cycles of 3 GHz (04 R136; assumption
117). -/
def ArraySt.on (x : ArraySt) (t : Nat) : Nat := if x.rising then min 4 (x.level + 3 * (t - x.rampAt) / 8) else x.level

/-- Work arrives at an array at time `t`: from idle a ramp-up begins, a ramp-down is reversed from its step (04 R136); and whether a
ramp-up began. -/
def ArraySt.rampUp (x : ArraySt) (t : Nat) : ArraySt × Bool :=
  if x.on t = 0 then ({ x with level := 1, rampAt := t, rising := true }, true)
  else if x.rising || x.level = 4 then (x, false)
  else ({ x with level := x.level + 1, rampAt := t, rising := true }, false)

/-- The next quarter of an idle array's columns turns off. -/
def ArraySt.rampStep (x : ArraySt) (t : Nat) : ArraySt := { x with level := x.on t - 1, rampAt := t, rising := false }

/-- Array `a` of physical core `c`. -/
def State.array (s : State) (c a : Nat) : ArraySt := (s.core c).arrays.getD a ArraySt.init

/-- Change array `a` of physical core `c`. -/
def State.modArray (s : State) (c a : Nat) (f : ArraySt → ArraySt) : State :=
  let at_ (l : List ArraySt) (i : Nat) : ArraySt := if i = a then f (l.getD i ArraySt.init) else l.getD i ArraySt.init
  s.modCore c fun k => { k with arrays := (List.range 4).map (at_ k.arrays) }

/-- Work arrives at array `a` (04 R136, R148). -/
def State.rampUp (s : State) (c a : Nat) : State :=
  let r := (s.array c a).rampUp s.now
  let s := s.modArray c a fun _ => r.1
  if r.2 then s.bump (Rg.CORE_ARR_RAMP_RAMP_UPS c) else s

/-- The island of a core is switched off: its arrays have ramped down, which counts (04 R136, R148), and the operand store and vector
buffer lose their contents. -/
def State.islandOff (s : State) (c : Nat) : State :=
  let n := ((List.range 4).filter fun a => (s.array c a).on s.now != 0).length
  (s.bump (Rg.CORE_ARR_RAMP_RAMP_DOWNS c) n).modCore c Core.off

/-- The arrays `work` of physical core `c` work for a task: dataflow 1 OS or 2 WS, quadrants, K parts; ramps and a switch of dataflow
count (04 R121, R136, R145). The state shown is that of the executing task (`exec`). -/
def State.arrayStart (s : State) (c flow quad kparts : Nat) (work : List Nat) (exec : Bool) : State :=
  let s := work.foldl (fun s a => s.rampUp c a) s
  let last := (s.core c).flow
  let s := if last ≠ 0 && last != flow then s.bump (Rg.CORE_ARR_ERRORS_SWITCHES c) else s
  let s := s.modCore c fun k => { k with flow := flow }
  if exec then s.wr (Rg.CORE_ARR_STATE c) (BitVec.ofNat 64 (flow + 4 * quad + 8 * kparts + 32 * work.foldl (fun x a => x + 2 ^ a) 0))
  else s

/-- The counters of clock cycles that arrays `work` of a core advance by working (04 R146, R147). -/
def arrayCycles (c : Nat) (work : List Nat) : List RF := work.flatMap fun a =>
  [Rg.CORE_ARR_BUSY_BUSY c a, Rg.CORE_ARR_STALL_FEED_STALL c a, Rg.CORE_ARR_STALL_DRAIN_STALL c a]

/-- Those of its links (05 R185). -/
def linkCycles (c : Nat) : List RF := (List.range 6).flatMap fun n => [Rg.CORE_SEM_WAIT_PROD_WAIT c n, Rg.CORE_SEM_WAIT_CONS_WAIT c n]

/-- Counters of clock cycles advance: what they read is free until they are next cleared (assumption 91). -/
def State.cycles (s : State) (fs : List RF) : State := fs.foldl (fun s f => s.raise f) s

/-! ### GEMM (10 R324, R325) -/

/-- The tables that a GEMM has loaded, as CORE_FMT_TABLE and LOADS show them (03 R100, R110, R114). Of a task's two tables TABLE_B2 is
taken to be the last loaded: the spec gives no order (assumption 118). -/
def State.noteTables (s : State) (c : Nat) (tables : List Bytes) : State := match tables.getLast? with
  | none => s
  | some b => forN 4 (fun s i => s.wr (Rg.CORE_FMT_TABLE c i) (BitVec.ofNat 64 (fieldAt b (8 * i) 8)))
      (s.bump (Rg.CORE_FMT_TBL_LOADS_LOADS c) tables.length)

/-- Affine blocks of B (03 R101, R111, R112). -/
def Gemm.affine (q : Gemm) : Nat :=
  if q.fb.expand ≠ 2 then 0
  else (scaleArray q.fb q.split q.k + (if q.b2 = 0 then 0 else scaleArray q.fb (q.n - q.split) q.k)) / 4

/-- 32 × 32 blocks of a matrix. -/
def blocks32 (a b : Nat) : Nat := tilesOf a * tilesOf b

/-- Steps of the windows of a sparse operand, by step set (06 R199). -/
def Prod.steps (r : Prod) (q : Gemm) (arr : Nat) : List Nat :=
  let one (w : FmtWord) (x : OpIn) (n lo hi : Nat) : Nat := ((List.range (blocksOf q.k 4)).map fun i =>
    windowCost w.fmt (fun l t => x.tiles[q.tileIdx l t]?) x.x (q.sform == 1) n q.k lo hi i).foldl (· + ·) 0
  if q.soper = 1 then (List.range (blocksOf q.m (32 * arr))).map fun i => one q.fa r.a q.m (32 * arr * i) (32 * arr * (i + 1))
  else if q.soper = 2 then (List.range (tilesOf q.n)).map fun i => one q.fb r.b q.n (32 * i) (32 * (i + 1))
  else []

/-- The fetch plan of a GEMM that has run: what the Skimmer delivers compacted counts by its steps (05 R152; 06 R192, R202). -/
def Prod.plan (r : Prod) (q : Gemm) (v : Variant) : Nat :=
  let pn := q.panels v
  let most := (r.steps q v.arrays).foldl max 0
  let comp (w : FmtWord) (l : Nat) : Nat := (most * l * (4 * skimW w.fmt + 1) + 3) / 4
  if !v.skimmer || q.ctrl % 4 = 2 || q.splitQ = 1 then planOf pn
  else if q.soper = 1 then planOf (comp q.fa (32 * v.arrays), pn.2)
  else if q.soper = 2 then planOf (pn.1, comp q.fb 32)
  else planOf pn

/-- Tiles of a sparse operand that the Skimmer delivers dense (06 R192): every tile, or those of the tile groups of which some array
runs as quadrants. -/
def Gemm.expanded (q : Gemm) (arr : Nat) : Nat :=
  let kt := tilesOf q.k
  let tiles := kt * (if q.soper = 1 then tilesOf q.m else tilesOf q.n)
  if q.ctrl % 4 = 2 || q.splitQ = 1 then tiles
  else if q.splitQ ≠ 2 then 0
  else if q.soper = 1 then (if q.edgeCols then tiles else if q.edgeRows arr then kt else 0)
  else if q.edgeRows arr then tiles else if q.edgeCols then kt else 0

/-- What the groups of task `t` note when it is done: a range over 2 MiB that is streamed is read again (05 R174, R188), and the ring of
a smaller one is given back as it is read. -/
def State.mcastUse (s : State) (t lc c : Nat) (again : Bool) : State :=
  let mine (g : Mcast) : Bool := 2097152 < g.len && g.members.any fun z => z.core == lc && z.tasks.contains t
  let s := s.mcasts.foldl (fun s g => if mine g && again then s.bump (Rg.CORE_MCAST_REFETCH c) else s) s
  let free (g : Mcast) : Mcast :=
    if mine g then { g with members := g.members.map fun z => if z.core = lc then { z with blocks := 0 } else z } else g
  { s with mcasts := s.mcasts.map free }

/-- What a GEMM counts for its sparse operand (06 R192, R199, R201, R208, R214 to R216, R219). -/
def State.sparseCounts (s : State) (q : Gemm) (lc c : Nat) (r : Prod) : State :=
  if q.soper = 0 then s
  else
    let arr := s.var.arrays
    let rg := blocksOf q.m (32 * arr)
    let cb := tilesOf q.n
    if s.var.skimmer then
      let k := s.clusterOf lc
      let s := (s.bump (Rg.CLU_SKM_RAW_EXPANDED k) (q.expanded arr)).bump (Rg.CLU_SKM_OVERFULL_NONFINITE k) r.nonfin
      if q.ctrl % 4 = 2 || q.splitQ = 1 then s
      else
        let n := if q.soper = 1 then cb else rg
        (s.bump (Rg.CLU_SKM_WINDOWS_WINDOWS k) (blocksOf q.k 4 * (if q.soper = 1 then rg else cb) * n)).bump
          (Rg.CLU_SKM_STEPS_STEPS k) ((r.steps q arr).foldl (· + ·) 0 * n)
    else
      let out := ((if q.soper = 1 then r.a.tiles else r.b.tiles).filter (·.out)).length
      (s.bump (Rg.CORE_DMA_SPARSE_TILES c) (if q.soper = 1 then blocks32 q.m q.k else tilesOf q.k *
        (tilesOf q.split + tilesOf (q.n - q.split)))).bump (Rg.CORE_DMA_SPARSE_RANGE_TILES c) out

/-- What GEMM `t` counts on its physical core and cluster: fetch plan and bytes, weight tiles, transposed blocks, poisoned and sparse
tiles, affine blocks (03 R111, R112; 04 R149; 05 R152, R181 to R183, R188). Choices of the model (assumption 118): an affine block
counts once per task, in HW_BLOCKS and VEC_BLOCKS alike, whatever the plan fetches again and whether a fetch failed; a weight tile
used is a 32 × 32 tile of B, once per core and group of 1,024 rows per array, in quadrants too. -/
def State.gemmCounts (s : State) (q : Gemm) (t lc c : Nat) (r : Prod) (out : Nat) : State :=
  let arr := s.var.arrays
  let plan := r.plan q s.var
  let nA := if plan = 0 then 1 else tilesOf q.n
  let nB := if plan = 1 then 1 else blocksOf q.m (32 * arr)
  let s := s.dmaBytes c (r.bytes.1 * nA + r.bytes.2.1 * nB + r.bytes.2.2) out
  let s := if plan = 2 then s.bump (Rg.CORE_EVENTS_PLAN_STREAM2 c) else s
  let s := if q.ws arr then s.bump (Rg.CORE_ARR_WS_WS_PASSES c) (blocks32 q.k q.n * blocksOf q.m (1024 * arr)) else s
  let x := (if q.xpose.testBit 0 then blocks32 q.m q.k * nA else 0) +
    (if q.xpose.testBit 1 && (q.soper != 2 || q.sform != 0) then blocks32 q.k q.n * nB else 0) +
    (if q.xpose.testBit 2 && q.stages == 0 then blocks32 q.m q.n else 0)
  let s := (s.bump (Rg.CORE_DMA_XPOSE_BLOCKS c) x).bump (Rg.CORE_DMA_XPOSE_POISON c) (r.aBad * nA + r.bBad * nB)
  let s := s.bump (if s.var.affine then Rg.CORE_FMT_AFFINE_BLKS_HW_BLOCKS c else Rg.CORE_FMT_VEC_AFFINE_VEC_BLOCKS c) q.affine
  (s.mcastUse t lc c (1 < blocksOf q.m (32 * arr) && plan != 1)).sparseCounts q lc c r

/-! #### Cells and buffers (04 R116, R123, R129; 05 R151, R152) -/

/-- FP32 bits with their parity bit above (04 R116). -/
def withParity (x : Nat) : Nat := x + if (List.range 32).foldl (fun b i => b != x.testBit i) false then 2 ^ 32 else 0

/-- The 32 × 32 values of a tile at row `i0` and column `j0` of a product of `m` by `n`, as an accumulator set holds them; zero past the
edge (04 R127). -/
def tileWords (f : Nat → Nat → Num) (m n i0 j0 : Nat) : List Nat := (List.range 1024).map fun e =>
  let i := i0 + e / 32
  let j := j0 + e % 32
  withParity (if i < m && j < n then bits32 (f i j) else 0)

/-- What array `a` holds when a GEMM has run, its last tile group being (rb, cb): its tile in the shadow set, which has drained, and the
set before it in the active one; in weight-stationary operation its block's rows in the drain accumulator and the last tile of B in
both weight registers. Partial sums of a split K are free. `z` gives free numbers. -/
def ArraySt.ran (x : ArraySt) (q : Gemm) (r : Prod) (arr rb cb a z : Nat) (bad : Bool) : ArraySt :=
  let tile := if q.kparts arr = 0 then tileWords r.acc q.m q.n (32 * (arr * rb + a)) (32 * cb)
    else (List.range 1024).map fun e => withParity (Config.freeNat (z + e) % 2 ^ 32)
  let tile := if bad then tile.mapIdx fun e v => if e = Config.freeNat z % 1024 then (v + 2 ^ 32) % 2 ^ 33 else v else tile
  if q.ws arr then
    let bl := blocksOf q.m arr
    let w := (List.range 1024).map fun e => bits32 (r.inB (32 * cb + e % 32) (32 * ((q.k - 1) / 32) + e / 32))
    { x with drain := (List.range (32 * min 1024 bl)).map fun e => withParity (bits32 (r.acc (a * bl + e / 32) (32 * cb + e % 32)))
             current := w, next := w }
  else { x with active := x.shadow, shadow := tile }

/-- What the cells and the operand store of a core hold when a GEMM has run: the order of tile groups is free, and so is which was last
(04 R122; 05 R152). The vector buffer is left holding what the task's vector stages made of it. -/
def State.noteCells (s : State) (q : Gemm) (c : Nat) (r : Prod) (parity : Bool) : State :=
  let arr := s.var.arrays
  let g := s.freeVal
  let rb := g % max 1 (blocksOf q.m (32 * arr))
  let cb := g / 2 ^ 32 % max 1 (tilesOf q.n)
  let z := s.free + 1
  let s := (q.atWork arr).foldl (fun s a => s.modArray c a fun x => x.ran q r arr rb cb a (z + 1024 * a) (parity && a == g % arr)) s
  let pa := (List.range (32 * arr * q.k)).map fun e => (r.a.x (32 * arr * rb + e / q.k) (e % q.k)).1
  let pb := (List.range (32 * q.k)).map fun e => (r.b.x (32 * cb + e / q.k) (e % q.k)).1
  let s := s.modCore c fun k =>
    { k with store := (List.range 4).map fun i => if i = rb % 2 then pa else if i = 2 + cb % 2 then pb else k.store.getD i [] }
  { s with free := z + 4096 }

/-- The contents of a core's vector buffer are no longer those a VEC program left: a stage list or an attention part has used it, or the
core lost its power. -/
def State.loseVec (s : State) (c : Nat) : State := s.modCore c fun k => { k with vec := [], vecLost := k.vecLost + 1 }

/-! #### The drain -/

/-- Write as D the tile group (rb, cb) of a product alone. -/
def Store.group (w : Store) (q : Gemm) (arr : Nat) (rows : Rows) (rb cb : Nat) : Store :=
  let i := 32 * arr * rb
  let part := ((rows.drop i).take (32 * arr)).map fun r => (r.drop (32 * cb)).take 32
  let b := fmtBits q.fd.fmt / 8
  let ss := blocksOf q.n q.fd.bs
  let sc := q.scaleD + i * ss + 32 * cb / q.fd.bs
  if q.xpose.testBit 2 then w.rowsT q.p q.fd (q.d + 32 * cb * q.dStride + i * b) q.dStride sc ss (min 32 (q.n - 32 * cb)) part
  else w.rows q.p q.fd (q.d + i * q.dStride + 32 * cb * b) q.dStride sc ss part

/-- Write the results of a GEMM: through its stages, or as D. After a parity failure only tile groups drained before it may stand:
their order is free, and with it which of them do (04 R117, R122); through stages, whole groups of rows. -/
def State.gemmOut (s : State) (q : Gemm) (t lc : Nat) (st : List Bytes) (rows : Rows) (parity : Bool) : StageSt :=
  let arr := s.var.arrays
  let rg := max 1 (blocksOf q.m (32 * arr))
  let n := rg * max 1 (tilesOf q.n)
  let f := s.freeVal
  let s := if parity then s.freeNext else s
  let w : Store := ⟨false, 0, FmtEv.none, s⟩
  let x : StageSt := ⟨rows, false, false, 0, 0, w⟩
  let ss := blocksOf q.n q.fd.bs
  if q.stages ≠ 0 then
    (st.drop 1).foldl (fun x e => x.stage q t lc e) { x with rows := if parity then rows.take (32 * arr * (f % rg)) else rows }
  else if parity then
    let kept := (List.range n).filter fun g => g != f % n && (f / n).testBit g
    { x with w := kept.foldl (fun w g => w.group q arr rows (g % rg) (g / rg)) w }
  else if q.xpose.testBit 2 then { x with w := w.rowsT q.p q.fd q.d q.dStride q.scaleD ss q.n rows }
  else { x with w := w.rows q.p q.fd q.d q.dStride q.scaleD ss rows }

/-- The counters of clock cycles that a GEMM advances. -/
def Gemm.cycles (q : Gemm) (v : Variant) (c : Nat) : List RF :=
  arrayCycles c (q.atWork v.arrays) ++ linkCycles c ++ (if q.ws v.arrays then [Rg.CORE_ARR_WS_WS_BUBBLE c] else []) ++
    (if q.stages = 0 then [] else [Rg.CORE_VEC_BUSY_BUSY c]) ++
    (if q.fb.expand = 2 && !v.affine then [Rg.CORE_VEC_BUSY_BUSY c, Rg.CORE_VEC_EXPAND_EXPAND c] else [])

/-- The work of a GEMM whose blocks and formats are good, on logical core `lc` (04 R117, R125; 05 R163 to R167). -/
def State.gemmRun (s : State) (q : Gemm) (t lc slot : Nat) (st : List Bytes) (conv : Bytes) (parity : Bool) : State :=
  let c := s.physCore lc
  let arr := s.var.arrays
  let s := (s.arrayStart c (if q.ws arr then 2 else 1) (b2n (q.quad arr)) (q.kparts arr) (q.atWork arr) (slot == 2)).cycles
    (q.cycles s.var c)
  let r := Fetch.product ⟨false, 0, s⟩ q lc conv
  let s := (r.f.st.noteTables c r.tables).noteCells q c r parity
  if r.f.fail then (s.gemmCounts q t lc c r 0).taskStatus t stUncorr 0
  else
    let o := s.gemmOut q t lc st r.rows parity
    let s := (o.w.st.gemmCounts q t lc c r o.w.bytes).bump (Rg.CORE_DMA_BYTES c 0) o.inB
    let s := (if q.stages = 0 then s else s.loseVec c).fmtEvents c (r.ev.add o.w.ev)
    let s := if o.status = 0x13 || o.status = 0x12 || o.status = 0x11 then s.bump (Rg.CORE_EVENTS_APPEND_FAIL c) else s
    let s := if o.status = 0 then s else s.taskStatus t o.status 0
    let s := if parity then (s.bump (Rg.CORE_ARR_ERRORS_ACC_PARITY c)).taskStatus t stUncorr 0 else s
    s.flagTask t (o.fail || o.w.fail) r.range (r.pois || o.pois)

/-- Read and check the stage list of a GEMM when it runs. -/
def State.gemmStages (s : State) (t : Nat) (q : Gemm) : Option (List Bytes) × State :=
  if q.stages = 0 then (some [], s)
  else
    let n := (List.range 8).find? fun i =>
      fieldAt (s.devRead q.p 0 (q.stages + 32 * i) 32).data 0 1 = 0
    match s.taskBlk t q.p 0 q.stages (32 * (min 8 (n.getD 8 + 1))) fun b => stagesBad q.n b with
    | (some b, s) => (some (stagesOf b), s)
    | (none, s) => (none, s)

/-- Read and check the convolution record of a GEMM when it runs. -/
def State.gemmConv (s : State) (t : Nat) (q : Gemm) : Option Bytes × State :=
  if q.ctrl.testBit 6 then s.taskBlk t q.p 0 q.aux 16 fun b => convBad b q.m q.k else (some [], s)

/-- The GEMM task `t` does its work: checks, product, drain (03 R105; 05 R156, R164; 10 R330). A sparse operand's tiles
have been served (06 R205, assumption 35). -/
def State.gemmTask (s : State) (t : Nat) (parity : Bool) : State := match s.working? t 1 0 with
  | none => s
  | some (k, x) => match s.graphOf k with
    | none => s
    | some g =>
      let q := g.gemm k.part k.node k.rows
      let lc := x.coreN
      let cl := s.cluster (s.clusterOf lc)
      if cl.skimQ.any fun r => r.task == t then s
      else if !q.fmtOk then (s.taskStatus t stFmtUns 0).partDone t 0
      else
        match s.gemmStages t q with
        | (none, s) => s.partDone t 0
        | (some st, s) =>
          if !stageFmtOk st then (s.taskStatus t stFmtUns 0).partDone t 0
          else match s.gemmConv t q with
            | (none, s) => s.partDone t 0
            | (some cv, s) =>
              if !q.rotaryOk s st then (s.taskStatus t stLength 0).partDone t 0
              else (s.gemmRun q t lc x.slot st cv parity).partDone t 0

/-- GEMM_TASK (10 R324): a GEMM task streams its operands through the arrays, drains its results through its stages and writes
D or appends; `parity` is an accumulator parity failure at the drain (04 R117). -/
def execGemmTask (t : Nat) (parity : Bool) (s : State) : Host.Outcome State Fault Refusal := .next (s.gemmTask t parity)

/-! ### VEC (05 R159, R160; 10 R326) -/

/-- The vector buffer of a core: the words that VEC programs have written since its contents were lost, by offset, as FP32 bits and a
poison mark; a word not written is free (assumption 115). -/
structure VBuf where
  words : SMap (Nat × Bool)
  core : Nat
  lost : Nat
deriving DecidableEq, Repr

/-- A word of the buffer. -/
def VBuf.word (b : VBuf) (i : Nat) : Nat × Bool := find (fun j => (Config.vectorWord b.core b.lost j % 2 ^ 32, false)) b.words i

/-- Write words. -/
def VBuf.set (b : VBuf) (ws : List (Nat × Nat × Bool)) : VBuf :=
  { b with words := ws.foldl (fun m w => ins m w.1 w.2) b.words }

/-- Whether a load or store of a VEC task may name a format (03 R109). -/
def vecFmtOk (w : Nat) : Bool := w % 16 < 6 && (!w.testBit 4 || w % 16 == 4 || w % 16 == 5)

/-- A unary operation of the vector unit (R160) on FP32 bits. -/
def vecOp1 (op imm x : Nat) : Nat × FmtEv :=
  let v := num32 x
  if op = 7 then (bits32 v.mag, FmtEv.none)
  else if op = 8 then (bits32 v.negate, FmtEv.none)
  else if op = 0x0A then
    let f := imm % 16
    (bits32 (elemVal f (imm.testBit 4) (x % 2 ^ fmtBits f)), elemEv f (x % 2 ^ fmtBits f))
  else if op = 0x0B then
    let e := toFmt (imm % 16) (imm.testBit 4) v
    (e.1, e.2.quiet)
  else (bits32 (if op = 0x10 then recip32 v else if op = 0x11 then rsqrt32 v else if op = 0x12 then exp32 v
    else if op = 0x13 then exp2f32 v else if op = 0x14 then log32 v else log2f32 v), FmtEv.none)

/-- A binary operation of the vector unit on FP32 bits; compare-and-select is not stated (assumption 21), but a NaN input gives NaN (03
R89). -/
def vecOp2 (op x y : Nat) : Nat :=
  let a := num32 x
  let b := num32 y
  if op = 9 then (if a.isNan || b.isNan then bits32 .nan else Config.vecSelect x y % 2 ^ 32)
  else bits32 (if op = 1 then a.add b else if op = 2 then a.sub b else if op = 3 then a.mul b
    else if op = 4 then a.minN b else a.maxN b)

/-- Run one vector instruction: operands are read before results are written; row sums take free numbers from `z` (R159, R160;
03 R107, R109). -/
def VBuf.instr (b : VBuf) (z : Nat) (x : Bytes) : VBuf × FmtEv :=
  let op := fieldAt x 0 1
  let form := fieldAt x 1 1
  let r := fieldAt x 2 2
  let c := fieldAt x 4 2
  let dst := fieldAt x 6 2
  let s1 := fieldAt x 8 2
  let s2 := fieldAt x 10 2
  let imm := fieldAt x 12 4
  let src2 (i j : Nat) : Nat × Bool :=
    if form = 1 then (imm, false)
    else b.word (s2 + if form = 2 then j else if form = 3 then i else i * c + j)
  if form = 4 then
    let rows := (List.range r).map fun i =>
      let ws := (List.range c).map fun j => b.word (s1 + i * c + j)
      let v := ws.map fun w => num32 w.1
      let y := if op = 0x20 then freeSum (Config.freeNat (z + i)) v else
        match v with
        | [] => Num.zero
        | h :: t => t.foldl Num.maxN h
      (dst + i, bits32 y, ws.any (·.2))
    (b.set rows, FmtEv.none)
  else
    let out := (List.range (r * c)).map fun e =>
      let i := e / c
      let j := e % c
      let a := b.word (s1 + e)
      if op = 6 then
        let y := src2 i j
        let w := if form = 1 then (Config.vecFmaImm a.1 imm % 2 ^ 32, false) else b.word (imm % 65536 + e)
        ((dst + e, bits32 (fma32 (num32 a.1) (num32 y.1) (num32 w.1)), a.2 || y.2 || w.2), FmtEv.none)
      else if op ≤ 5 || op = 9 then
        let y := src2 i j
        ((dst + e, vecOp2 op a.1 y.1, a.2 || y.2), FmtEv.none)
      else
        let y := vecOp1 op imm a.1
        ((dst + e, y.1, a.2), y.2)
    (b.set (out.map (·.1)), out.foldl (fun e o => e.add o.2) FmtEv.none)

/-- A transfer entry bound to the step: rows, address (10 R326, R331). -/
def xferRows (bind : Option (Nat × Nat)) (x : Bytes) : Nat × Nat := match bind with
  | some r => if bitOf (fieldAt x 8 1) 0 then (r.2 - r.1, fieldAt x 9 6 + r.1 * fieldAt x 16 4) else (fieldAt x 4 2, fieldAt x 9 6)
  | none => (fieldAt x 4 2, fieldAt x 9 6)

/-- Perform a load; how many of its 32 × 32 source tiles are poisoned (05 R157, R183). -/
def VBuf.load (b : VBuf) (f : Fetch) (p : Nat) (bind : Option (Nat × Nat)) (x : Bytes) : VBuf × Fetch × Nat :=
  let fm := fieldAt x 1 1
  let c := fieldAt x 6 2
  let w := fieldAt x 2 2
  let ra := xferRows bind x
  let g := f.gets p (lineBytes (fm % 16) c) ((List.range ra.1).map fun i => ra.2 + i * fieldAt x 16 4)
  let ws := g.1.zipIdx.flatMap fun l => (List.range c).map fun j =>
    let e := l.1.elem (fm % 16) j
    (w + l.2 * c + j, bits32 (elemVal (fm % 16) (fm.testBit 4) e.1), e.2)
  (b.set ws, g.2, tilesBad (fun i j => (g.1.getD i ⟨0, [], []⟩).elem (fm % 16) j) ra.1 c)

/-- Perform a store: a 32 × 32 output tile that any poisoned word reaches is poisoned (05 R157). -/
def VBuf.store (b : VBuf) (w : Store) (p : Nat) (bind : Option (Nat × Nat)) (x : Bytes) : Store × Bool :=
  let fm := fieldAt x 1 1
  let c := fieldAt x 6 2
  let off := fieldAt x 2 2
  let ra := xferRows bind x
  let bad (i j : Nat) : Bool := (List.range 32).any fun r => (List.range 32).any fun k =>
    let y := 32 * (i / 32) + r
    let z := 32 * (j / 32) + k
    y < ra.1 && z < c && (b.word (off + y * c + z)).2
  let rows : List (List ((Nat × FmtEv) × Bool)) := (List.range ra.1).map fun i => (List.range c).map fun j =>
    (toFmt (fm % 16) (fm.testBit 4) (num32 (b.word (off + i * c + j)).1), bad i j)
  let vals := rows.map fun r => r.map fun v => (v.1.1, v.2)
  let evs := rows.foldl (fun e r => r.foldl (fun e v => FmtEv.add e v.1.2) e) w.ev
  let w := vals.zipIdx.foldl (fun w r =>
    let a := ra.2 + r.2 * fieldAt x 16 4
    if fm % 16 = 5 then w.put p a (packLine 5 (r.1.map (·.1))) (r.1.any (·.2))
    else w.line p (fm % 16) a r.1) { w with ev := evs }
  (w, rows.any fun r => r.any (·.2))

/-- The VEC task `t` does its work: loads in list order, the program, stores in list order (10 R326). -/
def State.vecTask (s : State) (t : Nat) : State := match s.working? t 3 0 with
  | none => s
  | some (k, x) => match s.graphOf k with
    | none => s
    | some g =>
      let d := g.desc k.node
      let p := k.part
      let ni := fieldAt d 40 2
      let nx := fieldAt d 42 1
      let bind := if dBind d then some (boundRows d k.rows) else none
      match s.taskBlk t p 0 (fieldAt d 32 8) (16 * ni) fun b => (recsOf 16 ni b).any vecBad with
      | (none, s) => s.partDone t 0
      | (some prog, s) =>
        match (if nx = 0 then (some [], s) else s.taskBlk t p 0 (fieldAt d 48 8) (24 * nx) fun b =>
            (recsOf 24 nx b).any (xferBad (bind.map fun r => r.2 - r.1))) with
        | (none, s) => s.partDone t 0
        | (some xl, s) =>
          let is := recsOf 16 ni prog
          let xs := recsOf 24 nx xl
          let conv (i : Bytes) : Bool := !(fieldAt i 0 1 == 0x0A || fieldAt i 0 1 == 0x0B) || vecFmtOk (fieldAt i 12 4 % 32)
          if !(xs.all fun e => vecFmtOk (fieldAt e 1 1)) || !is.all conv then (s.taskStatus t stFmtUns 0).partDone t 0
          else
            let c := s.physCore x.coreN
            let b0 : VBuf := ⟨(s.core c).vec, c, (s.core c).vecLost⟩
            let s := s.cycles (linkCycles c ++ [Rg.CORE_VEC_BUSY_BUSY c])
            let ld := (xs.filter fun e => fieldAt e 0 1 = 0).foldl (fun (a : VBuf × Fetch × Nat) e =>
              let r := a.1.load a.2.1 p bind e; (r.1, r.2.1, a.2.2 + r.2.2)) (b0, (⟨false, 0, s⟩ : Fetch), 0)
            let run := is.foldl (fun (a : VBuf × FmtEv × Nat) i =>
              let r := a.1.instr a.2.2 i; (r.1, a.2.1.add r.2, a.2.2 + fieldAt i 2 2)) (ld.1, FmtEv.none, ld.2.1.st.free)
            let s := ({ ld.2.1.st with free := run.2.2 } : State).modCore c fun k => { k with vec := run.1.words }
            let s := s.bump (Rg.CORE_DMA_XPOSE_POISON c) ld.2.2
            if ld.2.1.fail then (s.taskStatus t stUncorr 0).partDone t 0
            else
              let o := (xs.filter fun e => fieldAt e 0 1 = 1).foldl (fun (a : Store × Bool) e =>
                let r := run.1.store a.1 p bind e; (r.1, a.2 || r.2)) ((⟨false, 0, run.2.1, s⟩ : Store), false)
              let s := (o.1.st.dmaBytes c ld.2.1.bytes o.1.bytes).fmtEvents c o.1.ev
              (s.flagTask t o.1.fail false o.2).partDone t 0

/-- VEC_TASK (10 R326): a VEC task loads its transfers, runs its vector program and stores its transfers. -/
def execVecTask (t : Nat) (s : State) : Host.Outcome State Fault Refusal := .next (s.vecTask t)

/-! ### COPY (10 R323; 05 R156, R157) -/

/-- Write a run of bytes read from memory, each piece with the poison of the codeword it came from. -/
def Store.copyLine (w : Store) (p a : Nat) (l : Line) : Store :=
  let marks := l.data.zipIdx.map fun b => (b.1.toNat, l.poison.contains ((l.addr + b.2) / 64))
  (runsOf 0 marks).foldl (fun w r => w.put p (a + r.1) (r.2.1.map fun x => BitVec.ofNat 8 x) r.2.2) w

/-- The COPY task `t` does its work. -/
def State.copyTask (s : State) (t : Nat) : State := match s.working? t 4 0 with
  | none => s
  | some (k, x) => match s.graphOf k with
    | none => s
    | some g =>
      let d := g.desc k.node
      let p := k.part
      let r := if dBind d then boundRows d k.rows else (0, fieldAt d 48 4)
      let n := r.2 - r.1
      let len := fieldAt d 52 4
      let ss := fieldAt d 56 4
      let ds := fieldAt d 60 4
      let src := fieldAt d 32 8 + r.1 * ss
      let dst := fieldAt d 40 8 + r.1 * ds
      let w := fieldAt d 64 1
      let c := s.physCore x.coreN
      let rd := Fetch.gets ⟨false, 0, s⟩ p len ((List.range n).map fun i => src + i * ss)
      if rd.2.fail then (rd.2.st.taskStatus t stUncorr 0).partDone t 0
      else
        let b := max 1 w
        let bad := tilesBad (fun i j =>
          let l := rd.1.getD i ⟨0, [], []⟩
          (0, (List.range b).any fun z => l.poison.contains ((l.addr + j * b + z) / 64))) n (len / b)
        let w0 : Store := ⟨false, 0, FmtEv.none, (rd.2.st.cycles (linkCycles c)).bump (Rg.CORE_DMA_XPOSE_POISON c) bad⟩
        let pois := rd.1.any fun l => !l.poison.isEmpty
        if w = 0 then
          let o := rd.1.zipIdx.foldl (fun o l => o.copyLine p (dst + l.2 * ds) l.1) w0
          ((o.st.dmaBytes c rd.2.bytes o.bytes).flagTask t o.fail false pois).partDone t 0
        else
          let cols := len / w
          let el (i j : Nat) : Nat × Bool :=
            let l := rd.1.getD i ⟨0, [], []⟩
            (fieldAt l.data (j * w) w, (List.range w).any fun b => l.poison.contains ((l.addr + j * w + b) / 64))
          let bad (i j : Nat) : Bool := (List.range 32).any fun a => (List.range 32).any fun b =>
            let y := 32 * (i / 32) + a
            let z := 32 * (j / 32) + b
            y < n && z < cols && (el y z).2
          let o := (List.range cols).foldl (fun (o : Store) j =>
            let marks := (List.range n).map fun i => ((el i j).1, bad i j)
            (runsOf 0 marks).foldl (fun o r => o.put p (dst + j * ds + r.1 * w) (r.2.1.flatMap fun v => toLe w v) r.2.2) o) w0
          let s := (o.st.dmaBytes c rd.2.bytes o.bytes).bump (Rg.CORE_DMA_XPOSE_BLOCKS c) (blocks32 n cols)
          (s.flagTask t o.fail false pois).partDone t 0

/-- COPY_TASK (10 R323): a COPY task copies lines, transposing them if asked. -/
def execCopyTask (t : Nat) (s : State) : Host.Outcome State Fault Refusal := .next (s.copyTask t)

end Sys2Proof.Machine
end

