-- ==== Sys2Proof/Machine/Skim.lean ====
section
/-!
DEFINITION. The Skimmer's commands: SKIM tasks, tiles served to cores, and its disable bit (06_skimmer.md R205 to R211).
-/
namespace Sys2Proof.Machine

/-! ### Requests of a sparse GEMM (R205) -/

/-- The operand of a sparse GEMM at directory or base `dir`: its lines. -/
def Gemm.sparseLines (q : Gemm) (dir : Nat) : Nat :=
  if q.soper = 1 then q.m else if q.b2 != 0 && dir == q.b2 then q.n - q.split else q.split

/-- The directories or bases of a GEMM's sparse operand. -/
def Gemm.sparseDirs (q : Gemm) : List Nat :=
  if q.soper = 1 then [q.a] else if q.soper = 2 then (if q.b2 = 0 then [q.b] else [q.b, q.b2]) else []

/-- The tiles that a GEMM task on logical core `c` asks of its cluster's Skimmer, when it is issued (assumption 35). -/
def State.skimAsk (s : State) (q : Gemm) (c t : Nat) : State :=
  if q.soper = 0 || !q.fmtOk || !s.var.skimmer then s
  else
    let rs := q.sparseDirs.flatMap fun d =>
      (List.range (tilesOf (q.sparseLines d) * tilesOf q.k)).map fun i => TileReq.mk c t d i
    s.modCluster (s.clusterOf c) fun k => { k with skimQ := k.skimQ ++ rs }

/-- Count one tile served (R214, R217, R218). -/
def State.noteTile (s : State) (k : Nat) (t : Tile) (bytes : Nat) : State :=
  let s := if t.form = 2 then s.bump (Rg.CLU_SKM_RAW_RAW_TILES k)
    else s.bump (if t.form = 1 then Rg.CLU_SKM_TILES_PACKED_TILES k else Rg.CLU_SKM_TILES_RL_TILES k)
  let s := if t.out then s.bump (Rg.CLU_SKM_ERRORS_RANGE_TILES k) else s
  let s := if t.bad then s.bump (Rg.CLU_SKM_ERRORS_POISON_TILES k) else s
  s.bump (Rg.CLU_SKM_BYTES_BYTES_IN k) bytes

/-- Serve one request of cluster `k`: a tile of the tiled form, or a 32 × 32 piece of a dense operand declared 2:4 (R198,
R205). -/
def State.serveTile (s : State) (k : Nat) (r : TileReq) : State := match s.task? r.task with
  | none => s
  | some t => match s.graphOf t with
    | none => s
    | some g =>
      let q := g.gemm t.part t.node t.rows
      let n := q.sparseLines r.dir
      let w := if q.soper = 1 then q.fa else q.fb
      let kt := tilesOf q.k
      let lb := r.tile / kt
      let pt := r.tile % kt
      let f : Fetch := ⟨false, 0, s⟩
      let b := q.bStream s (if q.b2 != 0 && r.dir == q.b2 then q.sid2 else q.sid) r.dir n
      if q.sform = 0 then
        let x := f.tile (if q.soper = 1 then directly q.p else b.reader q.p r.core) w.fmt w.sgn r.dir n q.k lb pt
        x.2.st.noteTile k x.1 x.2.bytes
      else
        let bw := skimW w.fmt
        let ln := min 32 (n - 32 * lb)
        let kn := min 32 (q.k - 32 * pt)
        let st := if q.soper = 1 then q.aStride else q.bStride
        let posMajor := if q.soper = 1 then q.xpose.testBit 0 else !q.xpose.testBit 1
        let gets (n : Nat) (as : List Nat) : List Line × Fetch :=
          if q.soper = 1 then f.gets q.p n as else f.getsB q.p r.core b n as
        let y := if posMajor then gets (lineBytes w.fmt ln) ((List.range kn).map fun j => r.dir + 32 * lb * bw + (32 * pt + j) * st)
          else gets (lineBytes w.fmt kn) ((List.range ln).map fun i => r.dir + 32 * pt * bw + (32 * lb + i) * st)
        let el : Elems := fun i j =>
          if posMajor then (y.1.getD j ⟨0, [], []⟩).elem w.fmt i else (y.1.getD i ⟨0, [], []⟩).elem w.fmt j
        let x := (el, y.2)
        let s := x.2.st.bump (Rg.CLU_SKM_BYTES_BYTES_IN k) x.2.bytes
        let s := if blockBad x.1 ln kn 0 then s.bump (Rg.CLU_SKM_ERRORS_POISON_TILES k) else s
        s.bump (Rg.CLU_SKM_OVERFULL_OVERFULL k) (overfull w.fmt x.1 ln kn)

/-- What the Skimmer of physical cluster `k` has accepted and not finished: the tasks with a tile request waiting, and the SKIM tasks in
a slot of one of its cores (R207). -/
def State.skimWork (s : State) (k : Nat) : List Task := s.tasks.filter fun t =>
  (s.cluster k).skimQ.any (fun r => r.task == t.id) ||
    (t.kind == 7 && t.parts.any fun x => !x.done && 1 ≤ x.slot && x.slot ≤ 3 && x.core.any fun c => s.clusterOf c == k)

/-- The first request of the next core in rotation (R205). -/
def Cluster.nextTile (x : Cluster) : Option TileReq :=
  match x.skimQ.foldl (fun (b : Option (Nat × TileReq)) r =>
      let d := (r.core + 256 - x.skimRot - 1) % 256
      match b with
      | none => some (d, r)
      | some y => if d < y.1 then some (d, r) else b) none with
  | some y => some y.2
  | none => none

/-- The Skimmer of physical cluster `k` serves one tile to the next core in rotation. -/
def State.skimServe (s : State) (k : Nat) : State := match (s.cluster k).nextTile with
  | none => s
  | some r =>
    (s.serveTile k r).modCluster k fun x => { x with skimQ := x.skimQ.erase r, skimRot := r.core }

/-- SKIMMER_TILE_SERVE (R205): the Skimmer of physical cluster `k` serves one tile to the next core in rotation. -/
def execSkimmerTileServe (k : Nat) (s : State) : Host.Outcome State Fault Refusal := .next (s.skimServe k)

/-- Write CLU_SKM_CTRL.DISABLE (R207, R213). -/
def State.skimDisable (s : State) (k : Nat) (v : W64) : State :=
  if !s.var.skimmer || !s.enabled.contains k then s
  else
    let was := s.on (Rg.CLU_SKM_CTRL_DISABLE k)
    let b := v.toNat % 2
    let s := s.setF (Rg.CLU_SKM_CTRL_DISABLE k) b
    if b = 1 && !was then s.modCluster k fun x => { x with skimOffAt := s.now } else s

/-- SKM_DISABLE_WRITE (R207): a write to CLU_SKM_CTRL.DISABLE disables or restores the cluster's Skimmer. -/
def execSkmDisableWrite (k : Nat) (v : W64) (s : State) : Host.Outcome State Fault Refusal := .next (s.skimDisable k v)

/-! ### SKIM tasks (R209 to R211) -/

/-- The result record of a SKIM task (R211). -/
def skimRec (tiles raw ovr range entries out : Nat) : Bytes :=
  mkRec 32 [(0, 4, tiles), (4, 4, raw), (8, 4, ovr), (12, 4, range), (16, 8, entries), (24, 8, out)]

/-- What every SKIM task has at hand: its block, format word, lines, K, and its place. -/
structure SkimCtx where
  k : Task
  b : Bytes
  w : FmtWord
  n : Nat
  len : Nat
  lc : Nat

/-- The SKIM task `t` of operation `op` that executes or drains. -/
def State.skimCtx (s : State) (t op : Nat) : Option SkimCtx := match s.working? t 7 0 with
  | none => none
  | some (k, x) => match s.graphOf k with
    | none => none
    | some g =>
      let b := slice (g.desc k.node) 32 48
      if fieldAt b 0 1 = op then
        some ⟨k, b, FmtWord.ofNat (fieldAt b 4 4), fieldAt b 8 4, fieldAt b 12 4, x.coreN⟩
      else none

/-- The dense side of a SKIM task that reads it. -/
def SkimCtx.dense (c : SkimCtx) (s : State) : Elems × Fetch :=
  Fetch.dense ⟨false, 0, s⟩ c.k.part c.w.fmt (fieldAt c.b 16 8) (fieldAt c.b 32 4) c.n c.len (bitOf (fieldAt c.b 3 1) 0)

/-- Count the bytes a SKIM task moves: the Skimmer's, or on P3 its core's (R208, R210, R218). -/
def State.skimBytes (s : State) (lc i o : Nat) : State :=
  if s.var.skimmer then s.bump (Rg.CLU_SKM_BYTES_BYTES_IN (s.clusterOf lc)) i else s.dmaBytes (s.physCore lc) i o

/-- Count overfull groups (R198, R208). -/
def State.skimOver (s : State) (lc n : Nat) : State :=
  if s.var.skimmer then s.bump (Rg.CLU_SKM_OVERFULL_OVERFULL (s.clusterOf lc)) n else s

/-- Transposed blocks of a SKIM task's dense side (05 R183). -/
def State.skimXpose (s : State) (c : SkimCtx) : State :=
  if bitOf (fieldAt c.b 3 1) 0 then s.bump (Rg.CORE_DMA_XPOSE_BLOCKS (s.physCore c.lc)) (blocks32 c.n c.len) else s

/-- A SKIM ENCODE does its work (R210). -/
def State.skimEncode (s : State) (t : Nat) : State := match s.skimCtx t 1 with
  | none => s
  | some c =>
    let x := c.dense s
    if x.2.fail then (x.2.st.taskStatus t stUncorr 0).partDone t 0
    else
      let kt := tilesOf c.len
      let nt := tilesOf c.n * kt
      let dst := fieldAt c.b 24 8
      let packed := fieldAt c.b 1 1 == 1
      let step (a : Store × Nat × Nat × Nat × Nat × Nat) (i : Nat) : Store × Nat × Nat × Nat × Nat × Nat :=
        let el (l j : Nat) : Nat × Bool :=
          let y := 32 * (i / kt) + l
          let z := 32 * (i % kt) + j
          if y < c.n && z < c.len then x.1 y z else (0, false)
        let e := encodeTile c.w.fmt packed fun l j => (el l j).1
        let bad := (List.range 32).any fun l => (List.range 32).any fun j => (el l j).2
        let off := a.2.1
        let w := a.1.put c.k.part (dst + 8 * i) (toLe 8 (off + e.bytes.length * 2 ^ 40)) false
        let w := w.put c.k.part (dst + off) e.bytes bad
        (w, roundUp (off + e.bytes.length) 16, a.2.2.1 + b2n e.raw, a.2.2.2.1 + e.ovr, a.2.2.2.2.1 + e.count,
          a.2.2.2.2.2 + e.bytes.length)
      let r := (List.range nt).foldl step (⟨false, 0, FmtEv.none, x.2.st⟩, roundUp (8 * nt) 16, 0, 0, 0, 8 * nt)
      let w := r.1.put c.k.part (fieldAt c.b 40 8) (skimRec nt r.2.2.1 r.2.2.2.1 0 r.2.2.2.2.1 r.2.2.2.2.2) false
      let pois := tilesBad x.1 c.n c.len != 0
      let s := ((w.st.skimBytes c.lc x.2.bytes w.bytes).skimOver c.lc r.2.2.2.1).skimXpose c
      (s.flagTask t w.fail false pois).partDone t 0

/-- SKIM_ENCODE (R210): a SKIM ENCODE writes a dense operand in tiled run-length or packed 2:4 form. -/
def execSkimEncode (t : Nat) (s : State) : Host.Outcome State Fault Refusal := .next (s.skimEncode t)

/-- A SKIM DECODE does its work (R203, R210). -/
def State.skimDecode (s : State) (t : Nat) : State := match s.skimCtx t 2 with
  | none => s
  | some c =>
    let x := Fetch.tiles ⟨false, 0, s⟩ (directly c.k.part) c.w.fmt c.w.sgn (fieldAt c.b 16 8) c.n c.len
    if x.2.fail then (x.2.st.taskStatus t stUncorr 0).partDone t 0
    else
      let kt := tilesOf c.len
      let dst := fieldAt c.b 24 8
      let st := fieldAt c.b 32 4
      let el (i j : Nat) : Nat × Bool := match x.1[i / 32 * kt + j / 32]? with
        | some tl => if tl.out then (0, true) else tiledElem x.1 c.len i j
        | none => (0, false)
      let w0 : Store := ⟨false, 0, FmtEv.none, x.2.st⟩
      let w := if bitOf (fieldAt c.b 3 1) 0 then
          (List.range c.len).foldl (fun w j => w.line c.k.part c.w.fmt (dst + j * st) ((List.range c.n).map fun i => el i j)) w0
        else
          (List.range c.n).foldl (fun w i => w.line c.k.part c.w.fmt (dst + i * st) ((List.range c.len).map fun j => el i j)) w0
      let outs := (x.1.filter (·.out)).length
      let out := w.bytes
      let w := w.put c.k.part (fieldAt c.b 40 8) (skimRec x.1.length ((x.1.filter fun y => y.form == 2).length) 0 outs
        ((x.1.map (·.count)).foldl (· + ·) 0) out) false
      let s := w.st
      let s := if s.var.skimmer then
          x.1.foldl (fun s y => s.noteTile (s.clusterOf c.lc) y 0) s
        else (s.bump (Rg.CORE_DMA_SPARSE_TILES (s.physCore c.lc)) x.1.length).bump
          (Rg.CORE_DMA_SPARSE_RANGE_TILES (s.physCore c.lc)) outs
      let s := (s.skimBytes c.lc x.2.bytes w.bytes).skimXpose c
      (s.flagTask t w.fail (outs != 0) (x.1.any (·.bad))).partDone t 0

/-- SKIM_DECODE (R210): a SKIM DECODE writes a tiled operand out dense. -/
def execSkimDecode (t : Nat) (s : State) : Host.Outcome State Fault Refusal := .next (s.skimDecode t)

/-- A SKIM CHECK24 does its work (R210). -/
def State.skimCheck24 (s : State) (t : Nat) : State := match s.skimCtx t 3 with
  | none => s
  | some c =>
    let x := c.dense s
    if x.2.fail then (x.2.st.taskStatus t stUncorr 0).partDone t 0
    else
      let ovr := overfull c.w.fmt x.1 c.n c.len
      let w := Store.put ⟨false, 0, FmtEv.none, x.2.st⟩ c.k.part (fieldAt c.b 40 8) (skimRec (blocks32 c.n c.len) 0 ovr 0 0 0) false
      let s := ((w.st.skimBytes c.lc x.2.bytes w.bytes).skimOver c.lc ovr).skimXpose c
      (s.flagTask t w.fail false (tilesBad x.1 c.n c.len != 0)).partDone t 0

/-- SKIM_CHECK24 (R210): a SKIM CHECK24 checks a dense operand against 2:4 and writes only the result record. -/
def execSkimCheck24 (t : Nat) (s : State) : Host.Outcome State Fault Refusal := .next (s.skimCheck24 t)

end Sys2Proof.Machine
end

