-- ==== Sys2Proof/Machine/Attn.lean ====
section
/-!
DEFINITION. The attention engine (07_attention.md R220 to R248): forward and backward parts, verification, and the key blocks
they read through the page TLB (08_kv_pages.md R268) or from a ring landing buffer (R277 to R279).
-/
namespace Sys2Proof.Machine

/-! ### The block of a part (R220 to R223) -/

/-- A part at work: its task, its index and core, the attention block as bound, and its head and rows. -/
structure AttnCtx where
  k : Task
  part : Nat
  lc : Nat
  slot : Nat
  b : Bytes
  ext : Bytes
  a : AttnPart

/-- OP. -/
def AttnCtx.op (c : AttnCtx) : Nat := fieldAt c.b 0 1
/-- MASK. -/
def AttnCtx.mask (c : AttnCtx) : Nat := fieldAt c.b 1 1
/-- A bit of FLAGS: 0 SAVE_STATS, 1 SCORE, 2 RING. -/
def AttnCtx.flag (c : AttnCtx) (i : Nat) : Bool := bitOf (fieldAt c.b 2 1) i
/-- G. -/
def AttnCtx.g (c : AttnCtx) : Nat := fieldAt c.b 3 1
/-- QFMT. -/
def AttnCtx.qf (c : AttnCtx) : FmtWord := FmtWord.ofNat (fieldAt c.b 4 4)
/-- OFMT. -/
def AttnCtx.of (c : AttnCtx) : FmtWord := FmtWord.ofNat (fieldAt c.b 8 4)
/-- HEAD_DIM. -/
def AttnCtx.d (c : AttnCtx) : Nat := fieldAt c.b 14 2
/-- LAYER. -/
def AttnCtx.layer (c : AttnCtx) : Nat := fieldAt c.b 16 2
/-- ROWS. -/
def AttnCtx.rows (c : AttnCtx) : Nat := fieldAt c.b 20 4
/-- SM_SCALE. -/
def AttnCtx.scale (c : AttnCtx) : Num := num32 (fieldAt c.b 28 4)
/-- RING_STEP. -/
def AttnCtx.ringStep (c : AttnCtx) : Nat := if c.flag 2 then fieldAt c.b 90 2 else 0
/-- Whether this is the last step of its ring, or no ring. -/
def AttnCtx.lastStep (c : AttnCtx) : Bool := !c.flag 2 || fieldAt c.b 90 2 + 1 == fieldAt c.b 88 2
/-- Address of the datum of row `r`, query head `qh` at `base` (R221). -/
def AttnCtx.datum (base stride d w r qh : Nat) : Nat := base + r * stride + qh * d * w
/-- Address of the statistics word of row `r`, query head `qh` (R221). -/
def AttnCtx.stats (c : AttnCtx) (r qh : Nat) : Nat := fieldAt c.b 64 8 + (qh * c.rows + r) * 8

/-- Whether the format words of the block let the part run (R248). -/
def AttnCtx.fmtOk (c : AttnCtx) : Bool :=
  let q := c.qf
  q.codesOk && (q.fmt == 0 || isFp8 q.fmt) && q.expand == 0 && (q.scale == 0 || (q.scale == 1 && !q.dir)) &&
    (if c.op = 2 then
      let g := FmtWord.ofNat (fieldAt c.ext 32 4)
      let o := c.of
      dWordOk o && g.codesOk && g.fmt < 2 && g.scale == 0 && g.expand == 0
    else dWordOk c.of)

/-- The working part `i` of ATTN task `t` with its block, head map and extension read and checked (R223; 10 R330); what is
none has already ended the part. -/
def State.attnCtx (s : State) (t i : Nat) : Option AttnCtx × State := match s.working? t 2 i with
  | none => (none, s)
  | some (k, x) => match s.graphOf k with
    | none => (none, s)
    | some g =>
      let d := g.desc k.node
      let p := k.part
      let fin (s : State) : Option AttnCtx × State := (none, s.partDone t i)
      match s.taskBlk t p 0 (fieldAt d 32 8) 128 fun _ => false with
      | (none, s) => fin s
      | (some b, s) =>
        let b := if dBind d then setField (setField b 20 4 k.rows) 56 8 (g.stepAddr + 32) else b
        let op := fieldAt b 0 1
        let hm := if op = 3 then 0 else fieldAt b 72 8
        match (if hm = 0 then (some [], s) else s.taskBlk t p 0 hm (16 * min 256 (fieldAt b 18 2)) fun _ => false) with
        | (none, s) => fin s
        | (some m, s) =>
          if s.attnBad p (dBind d) b m then fin ((s.taskStatus t stFmtUns 0).bump (Rg.DSP_EVENTS_BAD_BLOCK p))
          else
            match (if op = 1 then (some [], s) else s.taskBlk t p 0 (fieldAt b 80 8) (if op = 2 then 64 else 32) fun e => op == 3 && verifyExtBad e) with
            | (none, s) => fin s
            | (some e, s) =>
              let a := (attnParts b m).getD i ⟨0, none, 0, 0⟩
              (some ⟨k, i, x.coreN, x.slot, b, e, a⟩, s)

/-! ### Rows (R221, R226) -/

/-- A row of a part: its index, position and ledger entry. -/
structure AttnRow where
  r : Nat
  pos : Nat
  entry : Nat
deriving DecidableEq, Repr

/-- Read the row records `lo` to `hi - 1`. -/
def Fetch.rowRecs (f : Fetch) (c : AttnCtx) (lo hi : Nat) : List AttnRow × Bool × Fetch :=
  let a := fieldAt c.b 56 8
  let r := f.get c.k.part (a + 8 * lo) (8 * (hi - lo))
  ((List.range (hi - lo)).map fun i => ⟨lo + i, fieldAt r.1.data (8 * i) 4, fieldAt r.1.data (8 * i + 4) 4⟩,
    !r.1.poison.isEmpty, r.2)

/-- The runs of consecutive rows of one entry. -/
def rowRuns : List AttnRow → List (List AttnRow)
  | [] => []
  | x :: t => match rowRuns t with
    | (y :: ys) :: r => if x.entry = y.entry && x.r + 1 == y.r then (x :: y :: ys) :: r else [x] :: (y :: ys) :: r
    | r => [x] :: r

/-- Positions of a tile group (R226). -/
def groupRows (arr g : Nat) : Nat := max 1 (32 * arr / max 1 g)

/-- The tile groups of a part, at most 32 × arrays rows of one run each, with their dataflow: 1 output-stationary where the run fills
the arrays, else 2 weight-stationary (R226). -/
def tileGroups (arr g : Nat) (rows : List AttnRow) : List (Nat × List AttnRow) :=
  (rowRuns rows).flatMap fun run =>
    let n := groupRows arr g
    (List.range (blocksOf run.length n)).map fun i =>
      (if 32 * arr ≤ run.length * g then 1 else 2, (run.drop (i * n)).take n)

/-! ### Key blocks (R227, R232, R233; 08 R255 to R257) -/

/-- A key block as read: first position, fill, the keys' elements and scales and the values as BF16 by slot, the poisoned 32-column
tiles of each key and value, whether it was widened, values rounded in widening and the events, and the pages it stands in. -/
structure KeyBlk where
  first : Nat
  fill : Nat
  k : List (List Num × List Num)
  v : List (List Num)
  kp : List (List Bool)
  vp : List (List Bool)
  wide : Bool
  inexact : Nat
  ev : FmtEv
  pages : List Nat
deriving DecidableEq, Repr

/-- Whether a key of the block is poisoned. -/
def KeyBlk.kBad (b : KeyBlk) : Bool := b.kp.any fun m => m.any id
/-- Whether a value of the block is poisoned in column tile `j`. -/
def KeyBlk.vBad (b : KeyBlk) (j : Nat) : Bool := b.vp.any fun m => m.getD j false

/-- Poisoned tiles among rows of marks of `n` columns of tiles, 32 rows to a tile (05 R157, R183). -/
def markTiles (n : Nat) (ms : List (List Bool)) : Nat :=
  ((List.range (tilesOf ms.length)).map fun i =>
    ((List.range n).filter fun j => ((ms.drop (32 * i)).take 32).any fun m => m.getD j false).length).foldl (· + ·) 0

/-- A slot as read: its bytes, and which of its 32-element tiles are poisoned. -/
structure Slot where
  data : Bytes
  bad : List Bool
deriving DecidableEq, Repr

/-- A slot that was never written. -/
def Slot.none : Slot := ⟨[], []⟩

/-- The slot of `d` elements of format `fmt` at offset `o` of a line (08 R256): its bytes, and the tiles its poisoned codewords hold;
`all` marks every tile. -/
def Line.slot (l : Line) (o fmt d : Nat) (all : Bool) : Slot :=
  let w := if fmt = 0 then 2 else 1
  let hit (a n : Nat) : Bool := (linesOf (l.addr + o + a) n).any l.poison.contains
  ⟨slice l.data o (slotBytes fmt d),
    (List.range (d / 32)).map fun j => all || hit (32 * w * j) (32 * w) || (fmt != 0 && hit (d + j) 1)⟩

/-- A slot's elements and its scales, 32 elements to a scale; BF16 slots have none (08 R256). -/
def slotVals (fmt d : Nat) (bs : Bytes) : List Num × List Num :=
  ((List.range d).map fun i => elemVal fmt false (elemAt fmt bs i),
    if fmt = 0 then [] else (List.range (d / 32)).map fun j => elemVal 9 false (fieldAt bs (d + j) 1))

/-- Scaled elements as BF16 array entries, `bs` to a scale, with the events of their rounding (03 R94). -/
def scaled16 (x sc : List Num) (bs : Nat) : List Num × FmtEv :=
  if sc.isEmpty then (x, FmtEv.none)
  else
    let ys := x.zipIdx.map fun e => rnd16Ev (e.1.mul (sc.getD (e.2 / bs) Num.one))
    (ys.map (·.1), ys.foldl (fun a y => a.add y.2) FmtEv.none)

/-- A value slot widened to BF16, how many elements rounded or overflowed, and the events (R232, R233). -/
def widenV (x : List Num × List Num) : List Num × Nat × FmtEv :=
  let y := scaled16 x.1 x.2 32
  let off := (List.range x.1.length).filter fun i =>
    let a := (x.1.getD i Num.zero).mul (x.2.getD (i / 32) Num.one)
    !a.special && !(y.1.getD i Num.zero).eqv a
  (y.1, if x.2.isEmpty then 0 else off.length, y.2)

/-- Make a key block of the slots of one or two halves, each (key, value) by slot. -/
def mkBlk (first fill fmt d : Nat) (hs : List (List (Slot × Slot))) (pages : List Nat) : KeyBlk :=
  let dh := d / max 1 hs.length
  let at_ (h : List (Slot × Slot)) (i : Nat) : Slot × Slot := h.getD i (Slot.none, Slot.none)
  let ks (i : Nat) := hs.map fun h => slotVals fmt dh (at_ h i).1.data
  let vs := (List.range fill).map fun i => hs.map fun h => widenV (slotVals fmt dh (at_ h i).2.data)
  { first := first, fill := fill
    k := (List.range fill).map fun i => ((ks i).flatMap (·.1), (ks i).flatMap (·.2))
    v := vs.map fun y => y.flatMap (·.1)
    kp := (List.range fill).map fun i => hs.flatMap fun h => (at_ h i).1.bad
    vp := (List.range fill).map fun i => hs.flatMap fun h => (at_ h i).2.bad
    wide := fmt != 0
    inexact := (vs.flatten.map (·.2.1)).foldl (· + ·) 0
    ev := vs.flatten.foldl (fun e y => e.add y.2.2) FmtEv.none
    pages := pages }

/-- Whether any of the rows sees a position of the 64 from `first` by the mask alone (R227). -/
def AttnCtx.seesBlk (c : AttnCtx) (rows : List AttnRow) (first : Nat) : Bool :=
  rows.any fun x => c.mask == 0 || (first ≤ x.pos && (c.mask == 1 || x.pos < first + 63 + fieldAt c.b 24 4))

/-- Whether row position `t` sees position `u` of a key block (R227). -/
def AttnCtx.sees (c : AttnCtx) (t u : Nat) : Bool :=
  c.mask == 0 || (u ≤ t && (c.mask == 1 || t < u + fieldAt c.b 24 4))

/-- Whether a tile group computes a key block: some row of it sees some position (R227). -/
def AttnCtx.visits (c : AttnCtx) (g : List AttnRow) (b : KeyBlk) : Bool :=
  g.any fun x => (List.range b.fill).any fun i => c.sees x.pos (b.first + i)

/-- What loading a stream gives: its key blocks in position order, positions' first of present blocks skipped, a status (0
good), whether a walk waits. -/
structure Stream where
  blks : List KeyBlk
  hidden : List Nat
  status : Nat
  waits : Bool
  f : Fetch
deriving DecidableEq, Repr

/-- Read a part of a page's frame through the partition's share of the cluster's weight cache, or directly (R225). -/
def Fetch.frame (f : Fetch) (p lc i off n : Nat) : Line × Fetch :=
  let a := 32768 * f.st.frameOf p i + off
  if f.st.cfg p 113 1 = 0 then
    let r := f.st.ramRead p 0 a n
    (⟨a, r.data, r.poison⟩, ⟨f.fail || r.code != 0, f.bytes + n, r.st⟩)
  else
    let f := (wcLinesOf n [a]).foldl (fun f l => f.wcTouch p lc l) f
    let r := f.st.ramRead p 0 a n
    (⟨a, r.data, r.poison⟩, { f with fail := f.fail || r.code != 0, bytes := f.bytes + n })

/-- A task of partition `p` met entry `i`, which the Ostler could not read: the job of the partition whose index range holds it faults
(09 R304); where that is `p` itself, the task's own UNCORRECTABLE faults it. -/
def State.entryLost (s : State) (p i : Nat) : State := match s.pageOwner i with
  | some q => if q = p then s else s.jobFault q stUncorr
  | none => s

/-- Find a page in the part's TLB, or walk to it (05 R162; 08 R268). -/
def State.pageOf (s : State) (c : AttnCtx) (list : Nat) (h : ListHdr) (head blk half : Nat) : WalkRes × State :=
  let t := c.k.id
  let pc := s.physCore c.lc
  let v := leNat (s.devRead c.k.part 0 (h.slotAddr list c.layer head blk half) 4).data
  let hit := (s.task? t).any fun k => k.pins.contains (c.part, v)
  if hit then (.page v, s.bump (Rg.CORE_TLB_STATS_HITS pc))
  else
    let s := (s.bump (Rg.CORE_TLB_STATS_MISSES pc)).cycles [Rg.CORE_TLB_WALK_WAIT pc]
    match s.walk c.k.part t c.lc list c.layer head blk half with
    | (.page i, s) => (.page i, s.tlbLoad t c.part i)
    | (.waits i, s) => (.waits i, { s with walks := s.walks ++ [⟨t, c.part, i, c.lc, s.now, (s.page i).drops⟩] })
    | (.lost i, s) => (.lost i, s.entryLost c.k.part i)
    | r => r

/-- Whether a page cannot serve the part (R234; 08 R268). -/
def AttnCtx.mismatch (c : AttnCtx) (x : Page) (halves : Nat) : Bool :=
  !(x.fmt == 0 || isFp8 x.fmt) || x.dim != dimCode c.d || (halves == 2) != (c.d == 256) ||
    (c.d != 256 && (if x.fmt = 0 then 128 < c.d else 224 < c.d))

/-- Read one page's slots below `fill`, in pieces rounded up to 32 bytes: (key, value) by slot (R225). A page marked POISON is poisoned
whole (08 R271). -/
def Fetch.pageSlots (f : Fetch) (c : AttnCtx) (i fill : Nat) : List (Slot × Slot) × Fetch :=
  let x := f.st.page i
  let d := dimElems x.dim
  let n := roundUp (slotBytes x.fmt d) 32
  (List.range fill).foldl (fun acc j =>
    let k := acc.2.frame c.k.part c.lc i (256 * j) n
    let v := k.2.frame c.k.part c.lc i (256 * (j + 64)) n
    (acc.1 ++ [(k.1.slot 0 x.fmt d x.poison, v.1.slot 0 x.fmt d x.poison)], v.2)) ([], f)

/-- Load one block of the stream, if the rows can see it. -/
def Stream.block (x : Stream) (c : AttnCtx) (rows : List AttnRow) (list : Nat) (h : ListHdr) (head blk : Nat) : Stream :=
  if x.status ≠ 0 || x.waits then x
  else
    let first := h.firstOf blk
    if !c.seesBlk rows first then
      let v := leNat (x.f.st.devRead c.k.part 0 (h.slotAddr list c.layer head blk 0) 4).data
      if v = hole then x else { x with hidden := x.hidden ++ [first] }
    else
      let pg := (List.range h.halves).foldl (fun (a : List Nat × Nat × Bool × Bool × State) half =>
        match a with
        | (ps, 0, false, false, s) => match s.pageOf c list h head blk half with
          | (.page i, s) => (ps ++ [i], 0, false, false, s)
          | (.hole, s) => (ps, 0, false, true, s)
          | (.fail e, s) => (ps, e, false, false, s)
          | (.lost _, s) => (ps, stUncorr, false, false, s)
          | (.waits _, s) => (ps, 0, true, false, s)
        | r => r) ([], 0, false, false, x.f.st)
      let f := { x.f with st := pg.2.2.2.2 }
      if pg.2.1 ≠ 0 then { x with status := pg.2.1, f := f }
      else if pg.2.2.1 then { x with waits := true, f := f }
      else if pg.2.2.2.1 then { x with f := f }
      else if pg.1.any fun i => c.mismatch (f.st.page i) h.halves then { x with status := stFmtMis, f := f }
      else
        let fill := pg.1.foldl (fun m i => min m (f.st.page i).fill) 64
        let rd := pg.1.foldl (fun (a : List (List (Slot × Slot)) × Fetch) i =>
          let r := a.2.pageSlots c i fill
          (a.1 ++ [r.1], r.2)) ([], f)
        let fmt := (f.st.page (pg.1.headD 0)).fmt
        { x with blks := x.blks ++ [mkBlk first fill fmt c.d rd.1 pg.1], f := rd.2 }

/-- Load the stream of ledger entry `e`, head `head`, as far as the rows see it. -/
def Fetch.stream (f : Fetch) (c : AttnCtx) (rows : List AttnRow) (e head : Nat) : Stream :=
  let s := f.st
  let z (st : Nat) (s : State) : Stream := ⟨[], [], st, false, { f with st := s }⟩
  if s.ledgerOwner e != c.k.part then z stUncorr (s.isolation c.k.part (s.ledgerOwner e) 3 e)
  else
    let list := (find (fun _ => Entry.free) s.ledger e).pageList
    match s.listHdr c.k.part list with
    | (.error st, s) => z st s
    | (.ok h, s) =>
      if h.layers ≤ c.layer || h.heads ≤ head then z stLength s
      else (List.range h.blocks).foldl (fun x b => x.block c rows list h head b) (z 0 s)

/-- Join the halves of a head dimension of 256 (08 R257). -/
def KeyBlk.join (a b : KeyBlk) : KeyBlk :=
  { a with k := List.zipWith (fun u w => (u.1 ++ w.1, u.2 ++ w.2)) a.k b.k, v := List.zipWith (· ++ ·) a.v b.v
           kp := List.zipWith (· ++ ·) a.kp b.kp, vp := List.zipWith (· ++ ·) a.vp b.vp
           inexact := a.inexact + b.inexact, ev := a.ev.add b.ev, pages := a.pages ++ b.pages }

/-- Whether the descriptor and bytes of a landed frame pass their checks: CRC, VERSION and reserved bits (08 R278, R279). -/
def frameOk (d fr : Bytes) : Bool :=
  crc32c (d.take 28 ++ fr) == fieldAt d 28 4 && fieldAt d 16 1 == 1 && fieldAt d 12 1 < 16 && fieldAt d 13 1 < 4 &&
    allZero (slice d 17 11)

/-- A frame of a ring landing buffer (R246; 08 R277 to R279): checked, then used if it is of the task's layer and head. -/
def Stream.ringFrame (x : Stream) (c : AttnCtx) (head i : Nat) : Stream :=
  if x.status ≠ 0 then x
  else
    let r := x.f.get c.k.part (fieldAt c.b 96 8 + 32800 * i) 32800
    let d := r.1.data.take 32
    if !frameOk d (r.1.data.drop 32) then
      { x with status := stUncorr, f := { r.2 with st := r.2.st.bump (Rg.CLU_OST_ERRORS_CRC_FAIL (r.2.st.clusterOf c.lc)) } }
    else if fieldAt d 8 2 ≠ c.layer || fieldAt d 10 1 != head then { x with f := r.2 }
    else
      let fmt := fieldAt d 12 1
      if !(fmt == 0 || isFp8 fmt) || fieldAt d 14 2 != c.d then { x with status := stFmtMis, f := r.2 }
      else
        let dh := if c.d = 256 then 128 else c.d
        let all := bitOf (fieldAt d 13 1) 1
        let slots := (List.range (min 64 (fieldAt d 11 1))).map fun j =>
          (r.1.slot (32 + 256 * j) fmt dh all, r.1.slot (32 + 16384 + 256 * j) fmt dh all)
        let first := fieldAt d 4 4
        let b := mkBlk first slots.length fmt dh [slots] [i]
        match (if c.d = 256 then x.blks.find? fun y => y.first == first else none) with
        | some y =>
          let z := if bitOf (fieldAt d 13 1) 0 then y.join b else b.join y
          { x with blks := x.blks.map (fun w => if w.first = first then z else w), f := r.2 }
        | none => { x with blks := x.blks ++ [b], f := r.2 }

/-- The keys of a part for the rows of entry `e`: its own stream, or the frames in the landing buffer (R246). -/
def Fetch.keys (f : Fetch) (c : AttnCtx) (rows : List AttnRow) (e : Nat) : Stream :=
  if c.ringStep = 0 then f.stream c rows e c.a.head
  else (List.range (fieldAt c.b 92 4)).foldl (fun x i => x.ringFrame c c.a.head i) ⟨[], [], 0, false, f⟩

/-! ### Scores (R228, R232) -/

/-- A datum of a row and query head: its elements, its scales along HEAD_DIM, `bs` elements to a scale, and its poisoned tiles. -/
structure QVec where
  x : List Num
  sc : List Num
  bs : Nat
  p : List Bool
deriving DecidableEq, Repr

/-- Whether any of it is poisoned. -/
def QVec.bad (q : QVec) : Bool := q.p.any id

/-- The scale byte of the block whose first element stands at `a`: what a task derived when it wrote the block, else the module's
(assumption 45). -/
def State.attnScale (s : State) (a : Nat) : Nat := find (fun a => Config.attnScale a % 256) s.ecc.scales a

/-- Read `d` elements of format word `w` at `a` (R221). -/
def Fetch.vec (f : Fetch) (c : AttnCtx) (w : FmtWord) (a : Nat) : QVec × Fetch :=
  let e := fmtBits w.fmt / 8
  let l := f.get c.k.part a (c.d * e)
  (⟨(List.range c.d).map fun i => elemVal w.fmt w.sgn (elemAt w.fmt l.1.data i),
    if w.scale = 0 then [] else (List.range (blocksOf c.d w.bs)).map fun j =>
      elemVal 9 false (f.st.attnScale (a + j * w.bs * e)),
    if w.scale = 0 then c.d else w.bs,
    (List.range (c.d / 32)).map fun j => (linesOf (a + 32 * e * j) (32 * e)).any l.1.poison.contains⟩, l.2)

/-- Read Q or dO of row `r`, query head `qh`. -/
def Fetch.qvec (f : Fetch) (c : AttnCtx) (base r qh : Nat) : QVec × Fetch :=
  f.vec c c.qf (AttnCtx.datum base (fieldAt c.b 48 4) c.d (fmtBits c.qf.fmt / 8) r qh)

/-- A dot product over HEAD_DIM of a datum and a key or value (R228, R232, R236; 03 R93). -/
def scoreDot (z : Nat → Nat) (d : Nat) (q : QVec) (k : List Num × List Num) : Num :=
  let bk := if k.2.isEmpty then d else 32
  dotK z d (min q.bs bk) (!q.sc.isEmpty || !k.2.isEmpty) false (fun i => q.x.getD i Num.zero) (fun i => k.1.getD i Num.zero)
    (fun i => if q.sc.isEmpty then Num.one else q.sc.getD (i / q.bs) Num.one)
    (fun i => if k.2.isEmpty then Num.one else k.2.getD (i / 32) Num.one)

/-- The scores of one row against a key block: −∞ where the mask hides a position (R227, R228). -/
def AttnCtx.scores (c : AttnCtx) (z : Nat → Nat) (q : QVec) (t : Nat) (b : KeyBlk) : List Num := (List.range b.fill).map fun i =>
  if c.sees t (b.first + i) then mul32 c.scale (scoreDot (fun j => z (i * (c.d + 2) + j)) c.d q (b.k.getD i ([], [])))
  else Num.inf true

/-- The state of one row's online softmax: m, l, o, whether a score was not finite, rescales, whether a poisoned start was met, and
whether a key was seen. -/
structure Soft where
  m : Num
  l : Num
  o : List Num
  wrong : Bool
  rescales : Nat
  bad : Bool
  seen : Bool
deriving DecidableEq, Repr

/-- Take one key block, computed whole, into a row's softmax (R227, R228); `z` gives free numbers. -/
def Soft.block (x : Soft) (c : AttnCtx) (z : Nat → Nat) (q : QVec) (t : Nat) (b : KeyBlk) : Soft :=
  let w := c.d + 2
  let vis (i : Nat) : Bool := c.sees t (b.first + i)
  let s := c.scores z q t b
  let mb := match s with
    | [] => Num.inf true
    | h :: t => t.foldl Num.maxN h
  let up := x.m.lt mb
  let a := exp32 (rnd32 (x.m.sub mb))
  let l := if up then mul32 x.l a else x.l
  let o := if up then x.o.map fun y => mul32 y a else x.o
  let m := if up then mb else x.m
  let p := s.zipIdx.map fun y => if vis y.2 then exp32 (rnd32 (y.1.sub m)) else Num.zero
  let pv (e : Nat) : Num := accSum (z (64 * w + 1 + e)) (p.zipIdx.map fun y => (rnd16 y.1).mul ((b.v.getD y.2 []).getD e Num.zero))
  let seen := (List.range b.fill).any vis
  { m := m, l := add32 l (freeSum (z (64 * w)) p), o := o.zipIdx.map fun y => add32 y.1 (pv y.2)
    wrong := x.wrong || s.zipIdx.any fun y => vis y.2 && y.1.special
    rescales := x.rescales + b2n up, bad := x.bad, seen := x.seen || seen }

/-- Free numbers that one row's block takes. -/
def softSeeds (d : Nat) : Nat := 64 * (d + 2) + d + 1

/-! ### FORWARD (R226 to R230, R238, R240, R246, R247) -/

/-- One row and query head of a forward part, done: its query's poisoned tiles, its softmax, and its probabilities by page. -/
structure RowOut where
  r : AttnRow
  qh : Nat
  p : List Bool
  x : Soft
  score : List (Nat × List Num)

/-- The result's O elements and lse (R228, R230). -/
def RowOut.final (y : RowOut) : List Num × Num :=
  if y.x.wrong then (y.x.o.map fun _ => Num.nan, Num.nan)
  else if y.x.m = Num.inf true then (y.x.o.map fun _ => Num.zero, Num.inf true)
  else
    let inv := recip32 y.x.l
    (y.x.o.map fun v => mul32 v inv, add32 y.x.m (log32 y.x.l))

/-- The running state that a row starts from: fresh, or as the ring left it (R247). -/
def Fetch.softStart (f : Fetch) (c : AttnCtx) (r qh : Nat) : Soft × Fetch :=
  if c.ringStep = 0 then (⟨.inf true, Num.zero, List.replicate c.d Num.zero, false, 0, false, false⟩, f)
  else
    let st := f.get c.k.part (c.stats r qh) 8
    let ac := st.2.get c.k.part (fieldAt c.b 104 8 + (qh * c.rows + r) * 4 * c.d) (4 * c.d)
    let m := num32 (fieldAt st.1.data 0 4)
    (⟨m, num32 (fieldAt st.1.data 4 4), (List.range c.d).map fun i => num32 (fieldAt ac.1.data (4 * i) 4), m.isNan, 0,
      !st.1.poison.isEmpty || !ac.1.poison.isEmpty, false⟩, ac.2)

/-- Compute one row and query head over the key blocks that its tile group visits. A row gone NaN has NaN probabilities (R230, R238). -/
def Fetch.attnRow (f : Fetch) (c : AttnCtx) (row : AttnRow) (qh : Nat) (ks : List KeyBlk) : RowOut × Fetch :=
  let q := f.qvec c (fieldAt c.b 32 8) row.r qh
  let st := q.2.softStart c row.r qh
  let n := softSeeds c.d
  let z0 := st.2.st.free
  let z (b : Nat) (j : Nat) : Nat := Config.freeNat (z0 + b * n + j)
  let x := ks.zipIdx.foldl (fun x b => Soft.block x c (z b.2) q.1 row.pos b.1) st.1
  let x := { x with bad := x.bad || q.1.bad }
  let inv := recip32 x.l
  let pg := if c.flag 1 then
      ks.zipIdx.flatMap fun b =>
        let s := c.scores (z b.2) q.1 row.pos b.1
        let ps := s.zipIdx.filterMap fun y =>
          if !c.sees row.pos (b.1.first + y.2) then none
          else some (if x.wrong then Num.nan else mul32 (exp32 (rnd32 (y.1.sub x.m))) inv)
        if ps.isEmpty then [] else b.1.pages.map fun i => (i, ps)
    else []
  (⟨row, qh, q.1.p, x, pg⟩, { st.2 with st := { st.2.st with free := z0 + ks.length * n } })

/-- Write FP32 values as an output of the task: NaN values count (03 R89, R113). -/
def Store.put32s (w : Store) (p a : Nat) (xs : List Num) (bad : Bool) : Store :=
  Store.put { w with ev := { w.ev with nan := w.ev.nan + (xs.filter Num.isNan).length } } p a (xs.flatMap fun v => toLe 4 (bits32 v)) bad

/-- Keep the derived scale bytes of a row of blocks written at `a`, `n` bytes to a block (R221, assumption 45). -/
def Store.noteScales (w : Store) (a n : Nat) (bs : List Nat) : Store :=
  let sc := bs.zipIdx.foldl (fun m b => ins m (a + b.2 * n) b.1) w.st.ecc.scales
  { w with st := { w.st with ecc := { w.st.ecc with scales := sc } } }

/-- What a row leaves, with its poison marks: `bad` for its statistics, `ob` by column tile of O. -/
structure RowMark where
  bad : Bool
  ob : List Bool

/-- Write what a row leaves: O and statistics, or the ring's running state (R229, R247). -/
def Store.attnRow (w : Store) (c : AttnCtx) (y : RowOut) (k : RowMark) : Store :=
  let p := c.k.part
  let r := y.r.r
  let m := if y.x.wrong then Num.nan else y.x.m
  let any := k.bad || k.ob.any id
  if c.flag 2 && !c.lastStep then
    (w.put32s p (fieldAt c.b 104 8 + (y.qh * c.rows + r) * 4 * c.d) y.x.o any).put32s p (c.stats r y.qh) [m, y.x.l] k.bad
  else
    let o := y.final
    let e := convRow c.of o.1
    let b := fmtBits c.of.fmt / 8
    let a := AttnCtx.datum (fieldAt c.b 40 8) (fieldAt c.b 52 4) c.d b r y.qh
    let w := Store.line { w with ev := w.ev.add e.2.2 } p c.of.fmt a (e.1.zipIdx.map fun v => (v.1, k.ob.getD (v.2 / 32) k.bad))
    let w := if c.of.scale = 0 then w else w.noteScales a (c.of.bs * b) e.2.1
    if c.flag 0 || c.flag 2 then w.put32s p (c.stats r y.qh) [m, o.2] k.bad else w

/-- The poison marks of the rows of a tile group that visited `ks` (R226, R248; 04 R125): poison of a query or a key reaches every
column tile of the 32-row tiles it enters, that of a value its own column tile; poisoned row records reach all. -/
def groupMarks (c : AttnCtx) (recBad : Bool) (ks : List KeyBlk) (ys : List RowOut) : List RowMark :=
  let k := recBad || ks.any KeyBlk.kBad
  ys.zipIdx.map fun x =>
    let b := k || ((ys.drop (x.2 / 32 * 32)).take 32).any fun y => y.x.bad
    ⟨b, (List.range (c.d / 32)).map fun j => b || ks.any fun v => v.vBad j⟩

/-- Counts of a part for one tile group that met the key blocks `ks`, and `hidden` further ones present (R249 to R251; 04 R149; 05 R183).
In a weight-stationary group each 32-position slice of a visited block's keys and values is a weight tile for each 32 columns
(assumption 121). -/
def State.attnCounts (s : State) (c : AttnCtx) (pc : Nat) (g : Nat × List AttnRow) (ks : List KeyBlk) (hidden : List Nat)
    (qp : List (List Bool)) : State :=
  let vis := ks.filter (c.visits g.2)
  let s := (s.bump (Rg.CORE_ATTN_BLOCKS_VISITS pc) vis.length).bump (Rg.CORE_ATTN_MASK_SKIPPED pc)
    (ks.length - vis.length + hidden.length)
  let s := (s.bump (Rg.CORE_ATTN_WIDEN_WIDENED pc) (vis.filter (·.wide)).length).bump (Rg.CORE_ATTN_WIDEN_WIDEN_INEXACT pc)
    ((vis.map (·.inexact)).foldl (· + ·) 0)
  let s := s.fmtEvents pc (vis.foldl (fun e b => e.add b.ev) FmtEv.none)
  let s := if g.1 = 2 then s.bump (Rg.CORE_ARR_WS_WS_PASSES pc) (2 * (c.d / 32) * (vis.map fun b => blocksOf b.fill 32).foldl (· + ·) 0)
    else s
  let n := c.d / 32
  s.bump (Rg.CORE_DMA_XPOSE_POISON pc)
    (markTiles n qp + (vis.map fun b => markTiles n b.kp + markTiles n b.vp).foldl (· + ·) 0)

/-- The distinct entries of some rows, in order. -/
def entriesOf (rows : List AttnRow) : List Nat :=
  rows.foldl (fun acc x => if acc.contains x.entry then acc else acc ++ [x.entry]) []

/-- Load the keys of every entry of a part: stops at a status or a wait. -/
def Fetch.allKeys (f : Fetch) (c : AttnCtx) (rows : List AttnRow) : List (Nat × Stream) × Nat × Bool × Fetch :=
  (entriesOf rows).foldl (fun (a : List (Nat × Stream) × Nat × Bool × Fetch) e => match a with
    | (l, 0, false, f) =>
      let k := f.keys c (rows.filter fun x => x.entry == e) e
      (l ++ [(e, k)], k.status, k.waits, k.f)
    | r => r) ([], 0, false, f)

/-- The stream marks by which a commit evicts (R239, R240). -/
def State.evictMark (s : State) (e layer head : Nat) (cut : Option Nat) : StreamMark :=
  let x := find (fun _ => Entry.free) s.ledger e
  ⟨x.pageList, layer, head, x.budget, x.sink, x.window, true, cut⟩

/-- The arrays of physical core `pc` work on the tile groups of a part, in turn (R226; 04 R121, R129). -/
def State.attnArrays (s : State) (c : AttnCtx) (rows : List AttnRow) : State :=
  let arr := s.var.arrays
  let pc := s.physCore c.lc
  (tileGroups arr c.g rows).foldl (fun s g =>
    let n := g.2.length * c.g
    let work := (List.range arr).filter fun a => g.1 = 1 || a * blocksOf n arr < n
    (s.arrayStart pc g.1 0 0 work (c.slot == 2)).cycles (arrayCycles pc work ++ linkCycles pc ++ [Rg.CORE_VEC_BUSY_BUSY pc] ++
      if g.1 = 2 then [Rg.CORE_ARR_WS_WS_BUBBLE pc] else [])) s

/-- Begin a part: its rows are read, its arrays start, and its keys are read; none when it ended or waits. A position at or above the
limit in any row of the task stops every part before its output (R248). -/
def State.attnLoad (s : State) (c : AttnCtx) (lo hi : Nat) :
    Option (List AttnRow × List (Nat × Stream) × Bool × Fetch) × State :=
  let t := c.k.id
  if !c.fmtOk then (none, (s.taskStatus t stFmtUns 0).partDone t c.part)
  else
    let pre := Fetch.rowRecs ⟨false, 0, s⟩ c 0 c.rows
    let r := Fetch.rowRecs ⟨false, 0, pre.2.2.st⟩ c lo hi
    if pre.2.2.fail || r.2.2.fail then (none, (r.2.2.st.taskStatus t stUncorr 0).partDone t c.part)
    else if pre.1.any fun x => 4194304 ≤ x.pos then (none, (r.2.2.st.taskStatus t stLength 0).partDone t c.part)
    else
      let k := Fetch.allKeys { r.2.2 with st := r.2.2.st.attnArrays c r.1 } c r.1
      if k.2.2.1 then (none, k.2.2.2.st)
      else if k.2.1 ≠ 0 then
        let s := if k.2.1 = stFmtMis then k.2.2.2.st.bump (Rg.CORE_ATTN_EVENTS_MISMATCH (s.physCore c.lc)) else k.2.2.2.st
        (none, (s.taskStatus t k.2.1 0).partDone t c.part)
      else (some (r.1, k.1, r.2.1, k.2.2.2), k.2.2.2.st)

/-- What an array holds after a part: its last tiles and weights, which no rule fixes, as free words from `z`. -/
def ArraySt.used (x : ArraySt) (z : Nat) : ArraySt :=
  let f (k : Nat) : List Nat := (List.range 1024).map fun e => Config.freeNat (z + 1024 * k + e) % 2 ^ 32
  { x with active := (f 0).map withParity, shadow := (f 1).map withParity, drain := (f 2).map withParity, current := f 3, next := f 4 }

/-- The cells and the vector buffer of a core after an attention part (04 R116; 05 R151). -/
def State.attnCells (s : State) (pc : Nat) : State :=
  let z := s.free
  let s := (List.range s.var.arrays).foldl (fun s a => s.modArray pc a fun x => x.used (z + 5120 * a)) s
  State.loseVec { s with free := z + 20480 } pc

/-- A parity failure at a drain: the task completes with UNCORRECTABLE and ACC_PARITY counts (04 R117, R150). -/
def State.parityFault (s : State) (t pc : Nat) (parity : Bool) : State :=
  if parity then (s.bump (Rg.CORE_ARR_ERRORS_ACC_PARITY pc)).taskStatus t stUncorr 0 else s

/-- The key blocks of an entry among those loaded. -/
def keysOf (l : List (Nat × Stream)) (e : Nat) : List KeyBlk := match l.find? fun x => x.1 == e with
  | some x => x.2.blks
  | none => []

/-- Present blocks of an entry that no row of the part sees. -/
def hiddenOf (l : List (Nat × Stream)) (e : Nat) : List Nat := match l.find? fun x => x.1 == e with
  | some x => x.2.hidden
  | none => []

/-- The page sums of a forward part (R238): one FP32 sum per page over its rows and query heads. -/
def pageSums (z : Nat) (ys : List RowOut) : List (Nat × Nat) :=
  let ps := ys.flatMap (·.score)
  let ids := ps.foldl (fun (acc : List Nat) x => if acc.contains x.1 then acc else acc ++ [x.1]) []
  ids.zipIdx.map fun i => (i.1, bits32 (freeSum (Config.freeNat (z + i.2)) (ps.flatMap fun x => if x.1 = i.1 then x.2 else [])))

/-- A tile group of a forward part, computed: the group, the blocks it visited, its rows. -/
structure GroupOut where
  g : Nat × List AttnRow
  ks : List KeyBlk
  ys : List RowOut

/-- Compute the tile groups of a forward part, rows position-major (R226). -/
def Fetch.attnGroups (f : Fetch) (c : AttnCtx) (keys : List (Nat × Stream)) (gs : List (Nat × List AttnRow)) : List GroupOut × Fetch :=
  let heads := (List.range c.g).map fun i => c.a.head * c.g + i
  gs.foldl (fun (a : List GroupOut × Fetch) g =>
    let ks := (g.2.head?.elim [] fun x => keysOf keys x.entry).filter (c.visits g.2)
    let r := (g.2.flatMap fun row => heads.map fun qh => (row, qh)).foldl (fun (b : List RowOut × Fetch) x =>
      let y := b.2.attnRow c x.1 x.2 ks
      (b.1 ++ [y.1], y.2)) ([], a.2)
    (a.1 ++ [⟨g, ks, r.1⟩], r.2)) ([], f)

/-- The tile groups whose output stands: all, or after a parity failure a free choice of the others than the one that failed, their
order being free (04 R117, R122). -/
def keptGroups {α : Type} (gs : List α) (parity : Bool) (f : Nat) : List α :=
  if parity then (gs.zipIdx.filter fun x => x.2 != f % max 1 gs.length && (f / max 1 gs.length).testBit x.2).map (·.1) else gs

/-- Add the marks by which a task's commit evicts or cuts, one to a stream (R253). -/
def State.addStreams (s : State) (t : Nat) (ms : List StreamMark) : State := s.modTask t fun k => { k with
  streams := ms.foldl (fun l m => if l.any fun y => y.list == m.list && y.layer == m.layer && y.head == m.head && y.cutAt == m.cutAt
    then l else l ++ [m]) k.streams }

/-- A FORWARD part does its work. -/
def State.attnForwardRun (s : State) (c : AttnCtx) (parity : Bool) : State :=
  let t := c.k.id
  match s.attnLoad c c.a.row0 c.a.row1 with
  | (none, s) => s
  | (some (rows, keys, recBad, f), _) =>
    let pc := s.physCore c.lc
    let all := f.attnGroups c keys (tileGroups s.var.arrays c.g rows)
    let s := all.2.st.attnCells pc
    if all.2.fail then (s.taskStatus t stUncorr 0).partDone t c.part
    else
      let marks (g : GroupOut) : List RowMark := groupMarks c recBad g.ks g.ys
      let w := (keptGroups all.1 parity s.freeVal).foldl (fun w g =>
        (g.ys.zip (marks g)).foldl (fun (w : Store) y => w.attnRow c y.1 y.2) w) (⟨false, 0, FmtEv.none, s.freeNext⟩ : Store)
      let ys := all.1.flatMap (·.ys)
      let sums := pageSums w.st.free ys
      let s := { w.st with free := w.st.free + sums.length }
      let s := ((s.dmaBytes pc all.2.bytes w.bytes).fmtEvents pc w.ev).bump (Rg.CORE_ATTN_EVENTS_RESCALES pc)
        ((ys.map fun y => y.x.rescales).foldl (· + ·) 0)
      let s := if c.lastStep then s.bump (Rg.CORE_ATTN_MASK_EMPTY_ROWS pc)
          ((ys.filter fun y => y.x.m == Num.inf true && !y.x.wrong).length) else s
      let s := all.1.foldl (fun s g =>
        let e := g.g.2.head?.elim 0 AttnRow.entry
        s.attnCounts c pc g.g (keysOf keys e) (hiddenOf keys e) (g.ys.map (·.p))) s
      let es := if c.flag 2 then [] else (entriesOf rows).filter fun e => !bitOf (find (fun _ => Entry.free) s.ledger e).flags 1
      let s := s.addStreams t (es.map fun e => s.evictMark e c.layer c.a.head none)
      let s := s.modTask t fun k => { k with scores := k.scores ++ (if c.flag 1 && c.ringStep == 0 then sums else []) }
      let pois := all.1.any fun g => (marks g).any fun m => m.bad || m.ob.any id
      ((s.parityFault t pc parity).flagTask t w.fail false pois).partDone t c.part

/-- ATTN FORWARD, part `part` of task `t`; a block that can no longer be read or breaks its rules ends the part. -/
def State.attnForward (s : State) (t part : Nat) (parity : Bool) : State := match s.attnCtx t part with
  | (none, s) => s
  | (some c, s') => if c.op = 1 then (if s.walks.any fun w => w.task == t && w.part == part then s else s'.attnForwardRun c parity) else s

/-- ATTN_FORWARD (R228): an ATTN FORWARD part computes scores, online softmax and output over the key blocks it sees; `parity` is an
accumulator parity failure at a drain (04 R117). -/
def execAttnForward (t : Nat) (part : PartDrain) (s : State) : Host.Outcome State Fault Refusal :=
  .next (s.attnForward t part.part part.parity)

/-! ### BACKWARD (R235 to R237, R247) -/

/-- What a backward part needs of one (row, query head): its tile group, query and dO, both also as BF16 array entries, lse, δ, and
whether poison reached it. -/
structure BackRow where
  r : AttnRow
  i : Nat
  g : List AttnRow
  q : QVec
  dO : QVec
  q16 : List Num
  d16 : List Num
  lse : Num
  delta : Num
  bad : Bool

/-- A datum's values in FP32, scales applied (03 R109). -/
def QVec.vals32 (q : QVec) : List Num :=
  if q.sc.isEmpty then q.x else q.x.zipIdx.map fun e => mul32 e.1 (q.sc.getD (e.2 / q.bs) Num.one)

/-- Read one (row, query head) of a backward part and form its δ from FP32 values (R236); the events of its BF16 entries. -/
def Fetch.backRow (f : Fetch) (c : AttnCtx) (grp : List AttnRow) (row : AttnRow) (i : Nat) : BackRow × FmtEv × Fetch :=
  let p := c.k.part
  let qh := c.a.head * c.g + i
  let q := f.qvec c (fieldAt c.b 32 8) row.r qh
  let g := q.2.qvec c (fieldAt c.ext 0 8) row.r qh
  let o := g.2.vec c c.of (AttnCtx.datum (fieldAt c.b 40 8) (fieldAt c.b 52 4) c.d (fmtBits c.of.fmt / 8) row.r qh)
  let st := o.2.get p (c.stats row.r qh) 8
  let z := st.2.st.free
  let dl := freeSum (Config.freeNat z) (List.zipWith mul32 g.1.vals32 o.1.vals32)
  let q16 := scaled16 q.1.x q.1.sc q.1.bs
  let d16 := scaled16 g.1.x g.1.sc g.1.bs
  (⟨row, i, grp, q.1, g.1, q16.1, d16.1, num32 (fieldAt st.1.data 4 4), dl,
      q.1.bad || g.1.bad || o.1.bad || !st.1.poison.isEmpty⟩,
    q16.2.add d16.2, { st.2 with st := { st.2.st with free := z + 1 } })

/-- Free numbers that one row takes at a key position of a backward part. -/
def backSeeds (d : Nat) : Nat := 2 * d + 4

/-- The gradients of one key position against the rows that visit its block (R236): its dk and dv, and each row's ds. `z` gives free
numbers. -/
def backKey (c : AttnCtx) (z : Nat → Nat) (rows : List BackRow) (u : Nat) (k : List Num × List Num) (v : List Num) :
    List Num × List Num × List Num :=
  let w := backSeeds c.d
  let ps := rows.zipIdx.map fun y =>
    let r := y.1
    let s := mul32 c.scale (scoreDot (fun j => z (y.2 * w + j)) c.d r.q k)
    let p := if r.lse = Num.inf true || !c.sees r.r.pos u then Num.zero else exp32 (rnd32 (s.sub r.lse))
    let dp := scoreDot (fun j => z (y.2 * w + c.d + 2 + j)) c.d r.dO (v, [])
    (p, mul32 (mul32 p (rnd32 (dp.sub r.delta))) c.scale)
  let n := rows.length * w
  let dv := (List.range c.d).map fun e => accSum (z (n + e)) ((rows.zip ps).map fun y => (rnd16 y.2.1).mul (y.1.d16.getD e Num.zero))
  let dk := (List.range c.d).map fun e => accSum (z (n + c.d + e)) ((rows.zip ps).map fun y =>
    (rnd16 y.2.2).mul (y.1.q16.getD e Num.zero))
  (dk, dv, ps.map (·.2))

/-- The running state of a backward part: by (row, head) the factors of dq, ds with the key it meets; the writes, positions dropped,
whether poison reached an output, the free values taken, and the visits left before a parity failure. -/
structure BackSt where
  dq : List (List (Num × List Num))
  w : Store
  dropped : Nat
  bad : Bool
  z : Nat
  left : Option Nat

/-- Add FP32 values to those that stand at an address (R247). -/
def Store.add32s (w : Store) (p a : Nat) (xs : List Num) (bad : Bool) : Store :=
  let r := w.st.devRead p 0 a (4 * xs.length)
  let ys := xs.zipIdx.map fun x => add32 x.1 (num32 (fieldAt r.data (4 * x.2) 4))
  Store.put32s { w with fail := w.fail || r.code != 0, st := r.st } p a ys (bad || !r.poison.isEmpty)

/-- One key position of a visit by `rows` of the part's `brs`: its gradients, written in place, or added into the travelling block
(R237, R247, assumption 122). -/
def BackSt.key (x : BackSt) (c : AttnCtx) (all : List AttnRow) (rows : List BackRow) (visit : BackRow → Bool) (e : Option Nat)
    (b : KeyBlk) (i : Nat) : BackSt :=
  let p := c.k.part
  let u := b.first + i
  let vr := rows.filter visit
  let r := backKey c (fun j => Config.freeNat (x.z + j)) vr u (b.k.getD i ([], [])) (b.v.getD i [])
  let kv := widenV (b.k.getD i ([], []))
  let ds := (rows.foldl (fun (a : List (Option Num) × List Num) y =>
    if visit y then (a.1 ++ [a.2.head?], a.2.tail) else (a.1 ++ [none], a.2)) ([], r.2.2)).1
  let dq := (x.dq.zip ds).map fun y => y.2.elim y.1 fun g => y.1 ++ [(rnd16 g, kv.1)]
  let tile (m : List (List Bool)) : Bool := ((m.drop (i / 32 * 32)).take 32).any fun y => y.any id
  let bad := tile b.kp || tile b.vp || vr.any (·.bad)
  let x := { x with dq := dq, z := x.z + vr.length * backSeeds c.d + 2 * c.d, w := { x.w with ev := x.w.ev.add kv.2.2 } }
  let gf := FmtWord.ofNat (fieldAt c.ext 32 4)
  let gw := fmtBits gf.fmt / 8
  let put (w : Store) (base row : Nat) (v : List Num) : Store :=
    let cv := convRow gf v
    Store.line { w with ev := w.ev.add cv.2.2 } p gf.fmt (base + row * fieldAt c.b 52 4 + c.a.head * c.d * gw) (cv.1.map fun y => (y, bad))
  match e with
  | none =>
    let a := fieldAt c.ext 48 8 + ((b.pages.headD 0) * 64 + i) * 8 * c.d
    { x with w := (x.w.add32s p a r.1 bad).add32s p (a + 4 * c.d) r.2.1 bad, bad := x.bad || bad }
  | some e => match all.find? fun y => y.entry == e && y.pos == u with
    | some y => { x with w := put (put x.w (fieldAt c.ext 16 8) y.r r.1) (fieldAt c.ext 24 8) y.r r.2.1, bad := x.bad || bad }
    | none => { x with dropped := x.dropped + 1 }

/-- A visit of key block `b`, unless the drain has failed before it. -/
def BackSt.visit (x : BackSt) (c : AttnCtx) (all : List AttnRow) (rows : List BackRow) (e : Option Nat) (b : KeyBlk) : BackSt :=
  let seen (r : BackRow) : Bool := c.visits r.g b
  if !rows.any seen || x.left = some 0 then x
  else
    let y := (List.range b.fill).foldl (fun x i => x.key c all rows seen e b i) x
    { y with left := y.left.map (· - 1) }

/-- The rows of one entry against its key blocks: every visit, then dq, its products summed in a free order (R236; 03 R106, R107). -/
def BackSt.entry (x : BackSt) (c : AttnCtx) (all : List AttnRow) (rows : List BackRow) (e : Nat) (ks : List KeyBlk) : BackSt :=
  let y := ks.foldl (fun x b => x.visit c all rows (if c.ringStep = 0 then some e else none) b) { x with dq := rows.map fun _ => [] }
  let p := c.k.part
  let tileBad (j : Nat) : Bool := ((rows.drop (j / 32 * 32)).take 32).any (·.bad)
  let w := (rows.zip y.dq).zipIdx.foldl (fun (w : Store) r =>
    let a := AttnCtx.datum (fieldAt c.ext 8 8) (fieldAt c.b 52 4) c.d 4 r.1.1.r.r (c.a.head * c.g + r.1.1.i)
    let bad := tileBad r.2 || ks.any fun b => c.visits r.1.1.g b && (b.kBad || (List.range (c.d / 32)).any b.vBad)
    let v := (List.range c.d).map fun f => accSum (Config.freeNat (y.z + c.d * r.2 + f)) (r.1.2.map fun t => t.1.mul (t.2.getD f Num.zero))
    if c.ringStep = 0 then w.put32s p a v bad else w.add32s p a v bad) y.w
  { y with w := w, z := y.z + c.d * rows.length, bad := y.bad || rows.any (·.bad) }

/-- A BACKWARD part does its work: it owns every row of its KV head. -/
def State.attnBackwardRun (s : State) (c : AttnCtx) (parity : Bool) : State :=
  let t := c.k.id
  match s.attnLoad c 0 c.rows with
  | (none, s) => s
  | (some (rows, keys, recBad, f), _) =>
    let p := c.k.part
    let pc := s.physCore c.lc
    let gs := tileGroups s.var.arrays c.g rows
    let br := (gs.flatMap fun g => g.2.flatMap fun row => (List.range c.g).map fun i => (g.2, row, i)).foldl
      (fun (a : List BackRow × FmtEv × Fetch) x =>
        let r := a.2.2.backRow c x.1 x.2.1 x.2.2
        (a.1 ++ [r.1], a.2.1.add r.2.1, r.2.2)) ([], FmtEv.none, f)
    let s := br.2.2.st.attnCells pc
    if br.2.2.fail then (s.taskStatus t stUncorr 0).partDone t c.part
    else
      let visits := ((entriesOf rows).map fun e => ((keysOf keys e).filter fun b => br.1.any fun r => r.r.entry == e && c.visits r.g b).length).foldl (· + ·) 0
      let left := if parity then some (s.freeVal % max 1 visits) else none
      let w0 := br.1.foldl (fun (w : Store) r =>
        w.put p (fieldAt c.ext 40 8 + ((c.part * c.g + r.i) * c.rows + r.r.r) * 4) (toLe 4 (bits32 r.delta)) r.bad)
        (⟨false, 0, br.2.1, s.freeNext⟩ : Store)
      let x := (entriesOf rows).foldl (fun x e =>
        BackSt.entry x c rows (br.1.filter fun r => r.r.entry == e) e (keysOf keys e)) ⟨[], w0, 0, recBad, s.freeNext.free, left⟩
      let s := { x.w.st with free := x.z }
      let s := ((s.dmaBytes pc br.2.2.bytes x.w.bytes).fmtEvents pc x.w.ev).bump (Rg.CORE_ATTN_EVENTS_GRAD_DROPPED pc) x.dropped
      let s := gs.foldl (fun s g =>
        let e := g.2.head?.elim 0 AttnRow.entry
        let mine := br.1.filter fun r => r.g == g.2
        s.attnCounts c pc g (keysOf keys e) (hiddenOf keys e) (mine.map (·.q.p) ++ mine.map (·.dO.p))) s
      ((s.parityFault t pc parity).flagTask t x.w.fail false x.bad).partDone t c.part

/-- ATTN BACKWARD, part `part` of task `t`. -/
def State.attnBackward (s : State) (t part : Nat) (parity : Bool) : State := match s.attnCtx t part with
  | (none, s) => s
  | (some c, s') => if c.op = 2 then (if s.walks.any fun w => w.task == t && w.part == part then s else s'.attnBackwardRun c parity) else s

/-- ATTN_BACKWARD (R236): an ATTN BACKWARD part recomputes probabilities from the statistics and derives dQ, dK and dV; `parity` is an
accumulator parity failure at a drain (04 R117). -/
def execAttnBackward (t : Nat) (part : PartDrain) (s : State) : Host.Outcome State Fault Refusal :=
  .next (s.attnBackward t part.part part.parity)

/-! ### VERIFY (R241 to R243) -/

/-- The argmax of a logits row, the lowest token on a tie (R242). -/
def argmax (xs : List Num) : Nat :=
  (xs.zipIdx.foldl (fun (b : Option (Num × Nat)) x => match b with
    | none => some x
    | some y => if y.1.lt x.1 then some x else some y) none).elim 0 (·.2)

/-- The probability of token `d` in the softmax of a logits row (R242). -/
def softProb (z : Nat) (xs : List Num) (d : Nat) : Num :=
  let m := match xs with
    | [] => Num.zero
    | h :: t => t.foldl Num.maxN h
  let lse := add32 m (log32 (freeSum (Config.freeNat z) (xs.map fun x => exp32 (rnd32 (x.sub m)))))
  match xs[d]? with
  | some x => exp32 (rnd32 (x.sub lse))
  | none => Num.nan

/-- A logits row. -/
def Fetch.logits (f : Fetch) (c : AttnCtx) (r : Nat) : List Num × Bool × Fetch :=
  let w := FmtWord.ofNat (fieldAt c.ext 8 4)
  let v := fieldAt c.ext 12 4
  let e := fmtBits w.fmt / 8
  let l := f.get c.k.part (fieldAt c.ext 0 8 + r * v * e) (v * e)
  ((List.range v).map fun i => elemVal w.fmt false (elemAt w.fmt l.1.data i), !l.1.poison.isEmpty, l.2)

/-- Check the drafts of one record, from the `i`-th (0 first) on, at most `n` more (R242): accepted, checked, poison, fetches. -/
def checkDrafts (c : AttnCtx) (rec : Bytes) : Nat → Nat → Fetch → Nat × Nat × Bool × Fetch
  | 0, i, f => (i, i, false, f)
  | n + 1, i, f =>
    let l := f.logits c (fieldAt rec 4 4 + i)
    let d := fieldAt rec (32 + 4 * i) 4
    let z := l.2.2.st.free
    let f := { l.2.2 with st := { l.2.2.st with free := z + 1 } }
    let ok := if fieldAt c.ext 26 1 = 0 then argmax l.1 == d
      else
        let pi := softProb z l.1 d
        let uq := mul32 (num32 (fieldAt rec (160 + 4 * i) 4)) (num32 (fieldAt rec (96 + 4 * i) 4))
        !uq.isNan && !pi.isNan && !pi.lt uq
    if ok then
      let r := checkDrafts c rec n (i + 1) f
      (r.1, r.2.1, r.2.2.1 || l.2.1, r.2.2.2)
    else (i, i + 1, l.2.1, f)

/-- Every stream of the request of entry `e`, cut at position `u` (R243). -/
def State.cutMarks (s : State) (p e u : Nat) : List StreamMark :=
  let x := find (fun _ => Entry.free) s.ledger e
  match s.listHdr p x.pageList with
  | (.error _, _) => []
  | (.ok h, _) => (List.range h.layers).flatMap fun l => (List.range h.heads).map fun k =>
    { s.evictMark e l k (some u) with evict := bitOf x.flags 1 }

/-- The running state of a VERIFY task: its writes, drafts checked and accepted, whether poison reached a result, whether a read failed,
and the bytes read. -/
structure VerSt where
  w : Store
  drafted : Nat
  accepted : Nat
  bad : Bool
  fail : Bool
  bytes : Nat

/-- Verify one record (R241 to R243). -/
def VerSt.record (a : VerSt) (c : AttnCtx) (j : Nat) : VerSt :=
  let p := c.k.part
  let t := c.k.id
  let w := a.w
  let addr := fieldAt c.ext 16 8 + 256 * j
  let rec_ := Fetch.get ⟨false, a.bytes, w.st⟩ p addr 256
  let e := fieldAt rec_.1.data 0 4
  if rec_.2.fail then { a with w := { w with st := rec_.2.st }, fail := true, bytes := rec_.2.bytes }
  else if rec_.2.st.ledgerOwner e != p then
    { a with w := { w with st := rec_.2.st.isolation p (rec_.2.st.ledgerOwner e) 3 e }, fail := true, bytes := rec_.2.bytes }
  else
    let n := min 16 (fieldAt rec_.1.data 8 1)
    let r := checkDrafts c rec_.1.data n 0 rec_.2
    let lx := r.2.2.2.logits c (fieldAt rec_.1.data 4 4 + r.1)
    let greedy := fieldAt c.ext 26 1 == 0
    let next := if greedy then argmax lx.1 else 0xFFFF_FFFF
    let f := if greedy then lx.2.2 else r.2.2.2
    let row := Fetch.get f p (fieldAt c.b 56 8 + 8 * fieldAt rec_.1.data 4 4) 8
    let pos := fieldAt row.1.data 0 4
    let bad := r.2.2.1 || (greedy && lx.2.1) || !rec_.1.poison.isEmpty || !row.1.poison.isEmpty
    let w := ({ w with st := row.2.st }.put p (addr + 12) (toLe 1 r.1) bad).put p (addr + 16) (toLe 4 next) bad
    let s := w.st.modTask t fun k => { k with
      verify := k.verify ++ [(e, pos + r.1 + 1, r.1, next)], streams := k.streams ++ w.st.cutMarks p e (pos + r.1 + 1) }
    ⟨{ w with st := s }, a.drafted + r.2.1, a.accepted + r.1, a.bad || bad, a.fail || row.2.fail, row.2.bytes⟩

/-- A VERIFY task does its work. -/
def State.attnVerifyRun (s : State) (c : AttnCtx) : State :=
  let t := c.k.id
  let w := FmtWord.ofNat (fieldAt c.ext 8 4)
  if !(w.codesOk && w.fmt < 2 && w.scale == 0 && w.expand == 0) then (s.taskStatus t stFmtUns 0).partDone t c.part
  else
    let pc := s.physCore c.lc
    let rr := Fetch.rowRecs ⟨false, 0, s.cycles (linkCycles pc ++ [Rg.CORE_VEC_BUSY_BUSY pc])⟩ c 0 c.rows
    if rr.1.any fun x => 4194304 ≤ x.pos then (rr.2.2.st.taskStatus t stLength 0).partDone t c.part
    else
      let r := (List.range (fieldAt c.ext 24 2)).foldl (fun a j => a.record c j)
        (⟨⟨false, 0, FmtEv.none, rr.2.2.st⟩, 0, 0, false, rr.2.2.fail, rr.2.2.bytes⟩ : VerSt)
      let s := (r.w.st.bump (Rg.CORE_ATTN_VERIFY_DRAFTED pc) r.drafted).bump (Rg.CORE_ATTN_VERIFY_ACCEPTED pc) r.accepted
      let s := (s.dmaBytes pc r.bytes r.w.bytes).loseVec pc
      (s.flagTask t (r.w.fail || r.fail) false r.bad).partDone t c.part

/-- ATTN VERIFY, task `t`. -/
def State.attnVerify (s : State) (t : Nat) : State := match s.attnCtx t 0 with
  | (none, s) => s
  | (some c, s') => if c.op = 3 then s'.attnVerifyRun c else s

/-- ATTN_VERIFY (R242): an ATTN VERIFY task checks drafted tokens against the logits and writes ACCEPTED and NEXT. -/
def execAttnVerify (t : Nat) (s : State) : Host.Outcome State Fault Refusal := .next (s.attnVerify t)

end Sys2Proof.Machine
end

