-- ==== Sys2Proof/Machine/Issue.lean ====
section
/-!
DEFINITION. The Dispatcher's commands: loading and unloading graphs, issue, the movement of tasks through their core's
slots, completion, CTL callbacks, rings and pools (10_task_graphs.md R330 to R347; 05_core_streaming.md R170, R174, R176;
04_tensor_arrays.md R136). A command whose condition does not hold leaves the state as it is (assumption 32).
-/
namespace Sys2Proof.Machine

/-! ### LOAD and UNLOAD (R330, R342, R346) -/

/-- Nodes that the resident graphs of every partition use. -/
def State.nodesAll (s : State) : Nat := (allParts.map s.nodesUsed).foldl (· + ·) 0

/-- Read the descriptors of an image: for each slot its bytes, zeros and false where they could not be read. -/
def State.readDescs (s : State) (p a n : Nat) : List (Bytes × Bool) × State :=
  (List.range n).foldl (fun (acc : List (Bytes × Bool) × State) i => match acc.2.blk p (a + 128 * i) 128 with
    | (some b, s) => (acc.1 ++ [(b, true)], s)
    | (none, s) => (acc.1 ++ [(List.replicate 128 0, false)], s)) ([], s)

/-- Read the overflow list of an image. -/
def State.readOvf (s : State) (p a n : Nat) : Option (List Nat) × State :=
  if n = 0 then (some [], s)
  else match s.blk p a (2 * n) with
    | (some b, s) => (some ((List.range n).map fun i => fieldAt b (2 * i) 2), s)
    | (none, s) => (none, s)

/-- The first node that could not be read or fails R330, with its result code. -/
def Graph.firstBad (s : State) (p : Nat) (g : Graph) (ok : List Bool) : Option (Nat × Nat) :=
  (List.range g.nodes).findSome? fun n =>
    if !ok.getD n false then some (n, 7) else if g.nodeBad s p n then some (n, 2) else none

/-- DSP_CMD LOAD of partition `p` (R330, R346). -/
def State.dspLoad (s : State) (p : Nat) : State :=
  if !s.live p then s
  else
    let a := s.fd (Rg.DSP_CMD_ADDR_ADDR p)
    match s.blk p a 64 with
    | (none, s) => s.dspDone p 7 0
    | (some h, s) =>
      let tag := fieldAt h 6 1
      let g0 : Graph := ⟨h, [], [], 0, false, none, none⟩
      if !s.headerOk p h then s.dspDone p 1 0
      else if (s.graph? p tag).isSome then s.dspDone p 4 0
      else if s.cfg p 124 2 < s.nodesUsed p + g0.cost || 16384 < s.nodesAll + g0.cost then s.dspDone p 3 0
      else match s.readOvf p (fieldAt h 40 8) g0.ovfCount with
        | (none, s) => s.dspDone p 7 0
        | (some ov, s) =>
          let r := s.readDescs p (fieldAt h 32 8) g0.nodes
          let g := { g0 with descs := r.1.map (·.1), ovf := ov }
          match g.firstBad r.2 p (r.1.map (·.2)) with
          | some (n, c) => r.2.dspDone p c n
          | none => (r.2.modPart p fun q =>
              { q with graphs := ins q.graphs tag g, sched := ins q.sched tag Sched.init }).dspDone p 0 0

/-- DSP_LOAD (R330): DSP_CMD LOAD reads and checks a graph image and makes it resident, or refuses it. -/
def execDspLoad (p : Nat) (s : State) : Host.Outcome State Fault Refusal := .next (s.dspLoad p)

/-- DSP_CMD UNLOAD of tag `tag`: new triggers are refused, and the nodes are freed once no step runs (R342). -/
def State.dspUnload (s : State) (p tag : Nat) : State :=
  if !s.live p then s
  else match s.graph? p tag with
    | none => s.dspDone p 5 0
    | some g =>
      let since := g.unloadAt.getD s.now
      ((s.modGraph p tag fun g => { g with unloadAt := some since }).finishUnload p tag).dspDone p 0 0

/-- DSP_UNLOAD (R342): DSP_CMD UNLOAD refuses new triggers for the tag and frees its nodes once its running step ends. -/
def execDspUnload (p tag : Nat) (s : State) : Host.Outcome State Fault Refusal := .next (s.dspUnload p tag)

/-! ### Issue (R331 to R334, R340) -/

/-- The callback record of a CTL task (R340). -/
def cbRec (d : Bytes) (tag node step time : Nat) : Bytes :=
  mkRec 64 [(0, 4, seqTag step tag node), (4, 4, step), (8, 8, time), (16, 8, fieldAt d 40 8), (24, 8, fieldAt d 48 8),
    (32, 8, fieldAt d 56 8), (40, 8, fieldAt d 64 8), (48, 1, tag)]

/-- The control core that a CTL task interrupts (R340). -/
def State.cbTarget (s : State) (p : Nat) (d : Bytes) : Nat :=
  if fieldAt d 32 1 = 0xFF then (s.ctlOf p).headD 0 else fieldAt d 32 1

/-- The parts of a new task: those of an attention task with no rows are done. -/
def State.newParts (s : State) (p : Nat) (g : Graph) (n rows : Nat) : List TaskPart :=
  if dKind (g.desc n) = 2 then
    (s.attnPartsOf p g n rows).zipIdx.map fun x =>
      if x.1.row0 < x.1.row1 then ⟨x.2, none, 0, false⟩ else ⟨x.2, none, 4, true⟩
  else [⟨0, none, 0, false⟩]

/-- The task in flight of a node, made now if this is its first part: its number. -/
def State.ensureTask (s : State) (p : Nat) (g : Graph) (r : StepRun) (c : Cand) : Nat × State :=
  match s.taskOf p c.tag c.node with
  | some t => (t.id, s)
  | none =>
    let d := g.desc c.node
    let ps := s.newParts p g c.node r.rows
    let t : Task := ⟨s.taskNext, p, c.tag, c.node, r.step, dKind d, dQuiet d, s.now, r.rows, ps,
      ps.all fun x => x.done, 0, 0, [], [], [], [], [], none, 0, [], [], none, [], s.time.dev⟩
    (t.id, { s with tasks := s.tasks ++ [t], taskNext := s.taskNext + 1 })

/-- The part of task `t` that a candidate issues: the first not issued. -/
def Task.nextPart (t : Task) (c : Cand) : Nat := match t.parts.find? fun x => x.slot == 0 && x.idx == c.part with
  | some x => x.idx
  | none => match t.parts.find? fun x => x.slot == 0 with
    | some x => x.idx
    | none => c.part

/-- Whether the Skimmer of core `c`'s cluster refuses a task of descriptor `d` (06 R207). -/
def State.skimRefuses (s : State) (d : Bytes) (c : Nat) : Bool :=
  s.var.skimmer && s.on (Rg.CLU_SKM_CTRL_DISABLE (s.clusterOf c)) &&
    (dKind d == 7 || (dKind d == 1 && gSparse d % 4 != 0))

/-- Part `i` of task `t` arrives at logical core `c` (R176). -/
def State.arrive (s : State) (g : Graph) (t i c : Nat) (d : Bytes) (p tag node step rows : Nat) : State :=
  let sl := if s.slotFree c 2 then 2 else 1
  let s := s.modTask t fun k => k.modPart i fun x => { x with core := some c, slot := sl }
  if s.skimRefuses d c then
    let s := s.bump (Rg.CLU_SKM_ERRORS_REFUSED (s.clusterOf c))
    ((s.modTask t fun k => { (k.modPart i fun x => { x with slot := 4, done := true }) with computed := true }).taskStatus t
      stDisabled 0)
  else if dKind d = 1 then (s.mcastJoin p tag step g node c t).skimAsk (g.gemm p node rows) c t
  else s

/-- A port engine reads the block of an XFER or COLL task, as remote traffic (09 R300), and checks it again (10 R330); an XFER that
waits begins its wait (13 R432 to R436). -/
def State.portArrive (s : State) (t : Nat) (d : Bytes) (p : Nat) : State :=
  match s.taskBlk t p 2 (fieldAt d 32 8) 64 (if dKind d = 5 then s.xferBlkBad else s.collBlkBad p) with
  | (none, s) => s.partDone t 0
  | (some b, s) =>
    if dKind d = 5 && (fieldAt b 0 1 == 0 || bitOf (fieldAt b 1 1) 0) then s.waitOn p (fieldAt b 34 1) t (fieldAt b 36 4) else s

/-- A task takes its place off the cores: a port engine, or the control core it calls back (R334, R340). -/
def State.arrivePort (s : State) (t : Nat) (d : Bytes) (p tag node step : Nat) : State :=
  let target := if dKind d = 8 then some (s.cbTarget p d) else none
  let s := s.modTask t fun k => k.modPart 0 fun x => { x with slot := 5, core := target }
  if dKind d = 8 then s.cbPut p (cbRec d tag node step s.time.dev) else s.portArrive t d p

/-- Issue a candidate to its place (R331 to R334). -/
def State.issueTo (s : State) (p : Nat) (c : Cand) (w : Where_) : State := match s.graph? p c.tag with
  | none => s
  | some g => match g.run with
    | none => s
    | some r =>
      let d := g.desc c.node
      if emptySlice d r.rows then
        ((s.bump (Rg.DSP_EVENTS_EMPTY_SLICE p)).completeNode p c.tag c.node stDone 0 2 0xFFFF 0).afterNode p c.tag
      else
        let (t, s) := s.ensureTask p g r c
        match w with
        | .waits => s
        | .core lc moved =>
          let i := ((s.task? t).map fun k => k.nextPart c).getD 0
          let s := s.bump (Rg.DSP_ISSUED_TASKS p)
          let s := if !moved then s
            else if dKind d = 2 then s.bump (Rg.CORE_ATTN_EVENTS_PIN_MOVED (s.physCore lc)) else s.bump (Rg.DSP_ISSUED_PIN_MOVED p)
          s.arrive g t i lc d p c.tag c.node r.step r.rows
        | .port =>
          if dKind d = 2 then s
          else (s.bump (Rg.DSP_ISSUED_TASKS p)).arrivePort t d p c.tag c.node r.step

/-- No task can issue: the waits of the partitions with a ready task count (R350; assumption 91). -/
def State.heldCounts (s : State) : State :=
  allParts.foldl (fun s p => if (s.cands p).isEmpty then s else s.cycles [Rg.DSP_WAIT_QUOTA_WAIT p, Rg.DSP_WAIT_SLOT_WAIT p]) s

/-- One issue cycle: the next partition after the one last served that can issue at once (R333). -/
def State.issueStep (s : State) : State :=
  match ((List.range 12).map fun i => (s.issueLast + 1 + i) % 12).findSome? fun p =>
      (s.nextIssue p).map fun x => (p, x.1, x.2) with
  | none => s.heldCounts
  | some (p, c, w) => ({ s with issueLast := p } : State).issueTo p c w

/-- TASK_ISSUE (R333): the Dispatcher issues the first ready task in issue order to its core, port engine or control core. -/
def execTaskIssue (s : State) : Host.Outcome State Fault Refusal := .next s.issueStep

/-! ### Slots, links and arrays of a core -/

/-- The executing task of logical core `c` moves to draining, and the staged task begins executing (05 R176). -/
def State.arraysFinish (s : State) (c : Nat) : State := match s.inSlot c 2 with
  | none => s
  | some (t, x) =>
    if !s.slotFree c 3 then s
    else
      let pc := s.physCore c
      let s := (((s.setF (Rg.CORE_ARR_STATE_DATAFLOW pc) 0).setF (Rg.CORE_ARR_STATE_QUAD pc) 0).setF
        (Rg.CORE_ARR_STATE_KPARTS pc) 0).setF (Rg.CORE_ARR_STATE_ACTIVE pc) 0
      let s := s.modCore pc fun k => { k with idleAt := s.now }
      let s := s.modTask t.id fun k => k.modPart x.idx fun x => { x with slot := 3 }
      if x.done then s.leaveCore t.id x.idx else s.promote c

/-- ARRAYS_FINISH (R176): the executing task of logical core `c` moves to draining; the staged task begins executing. -/
def execArraysFinish (c : Nat) (s : State) : Host.Outcome State Fault Refusal := .next (s.arraysFinish c)

/-- One buffer of link `link` of physical core `pc` is filled or given back, and the side that waited for it counts (05 R170, R185). -/
def State.linkMove (s : State) (pc : Nat) (produce : Bool) (link : Nat) : State :=
  let full : RF := { Rg.CORE_SEM_LINK_0_FULL pc with addr := Rg.CORE_SEM_LINK_0 pc + 8 * (link % 6) }
  let empty : RF := { Rg.CORE_SEM_LINK_0_EMPTY pc with addr := Rg.CORE_SEM_LINK_0 pc + 8 * (link % 6) }
  if produce then (if s.fd empty = 0 then s else (s.setF empty (s.fd empty - 1)).setF full (s.fd full + 1))
  else if s.fd full = 0 then s else (s.setF full (s.fd full - 1)).setF empty (s.fd empty + 1)

/-- Whether the oldest task at work on logical core `c` is a GEMM with no vector stage (05 R169). -/
def State.noVector (s : State) (c : Nat) : Bool := match (s.inSlot c 3).or (s.inSlot c 2) with
  | some (t, _) => t.kind == 1 && (match s.graphOf t with
      | some g => (g.gemm t.part t.node t.rows).stages == 0
      | none => false)
  | none => false

/-- The links whose counts a hand-over of `link` moves: DRAIN and VEC_OUT of a task with no vector stage move together (05 R169). -/
def State.linksMoved (s : State) (c link : Nat) : List Nat := if (link = 2 || link = 3) && s.noVector c then [2, 3] else [link]

/-- A producer hands over a buffer of a link, or a consumer gives one back (05 R169, R170). -/
def State.linkHandover (s : State) (c link : Nat) (produce : Bool) : State :=
  let held := s.tasks.any fun t => t.parts.any fun x => x.core == some c && 1 ≤ x.slot && x.slot ≤ 3
  if 6 ≤ link || !held || (link = 4 && s.var.affine) then s
  else (s.linksMoved c link).foldl (fun s l => s.linkMove (s.physCore c) produce l) s

/-- LINK_BUFFER_HANDOVER (R170): a producer fills a buffer of an internal link, or a consumer returns it. -/
def execLinkBufferHandover (c link : Nat) (produce : Bool) (s : State) : Host.Outcome State Fault Refusal :=
  .next (s.linkHandover c link produce)

/-- Array `a` of physical core `c`, idle, turns a quarter of its columns off; its last ends the ramp-down (04 R136, R148). -/
def State.rampStep (s : State) (c a : Nat) : State :=
  let x := s.array c a
  if x.on s.now = 0 then s
  else
    let s := s.modArray c a fun x => x.rampStep s.now
    if x.on s.now = 1 then s.bump (Rg.CORE_ARR_RAMP_RAMP_DOWNS c) else s

/-- The arrays of logical core `c` that have had no work for 16 core cycles turn off the next quarter of their columns, last columns
first (04 R136). -/
def State.rampDown (s : State) (c : Nat) : State :=
  let pc := s.physCore c
  let busy := if (s.inSlot c 2).isSome then s.fd (Rg.CORE_ARR_STATE_ACTIVE pc) else 0
  ((List.range s.var.arrays).filter fun a => !bitOf busy a).foldl (fun s a => s.rampStep pc a) s

/-- ARRAY_RAMP_DOWN (R136): arrays idle for 16 core cycles turn a quarter of their columns off; one command is one step of the four
(assumption 117). -/
def execArrayRampDown (c : Nat) (s : State) : Host.Outcome State Fault Refusal := .next (s.rampDown c)

/-- A block read for a multicast group lands in the ring of logical core `c`, the first 2 MiB of its slice, at place `n` of 64: codeword
by codeword, each as good or bad as it was read (05 R174; 09 R298). -/
def State.ringLand (s : State) (p c n a : Nat) (r : MemRd) : State :=
  forN (blocksOf r.data.length 64) (fun s i => s.ramWrite p 1 (sliceBase + 0x200_0000 * c + 32768 * (n % 64) + 64 * i)
    ((r.data.drop (64 * i)).take 64) ((linesOf (a + 64 * i) 64).any r.poison.contains)) s

/-- Multicast group `g` reads its next 32 KiB block and lands it in each member's ring (05 R174). A block that cannot be read ends the
members' tasks UNCORRECTABLE (09 R304). -/
def State.mcastRead (s : State) (g : Nat) : State := match s.mcasts[g]? with
  | none => s
  | some x =>
    if x.members.isEmpty || x.members.any (fun z => 64 ≤ z.blocks) || blocksOf x.len 32768 ≤ x.read then s
    else
      let a := x.base + 32768 * x.read
      let r := s.devRead x.part 0 a (min 32768 (x.len - 32768 * x.read))
      let land (s : State) (z : Member) : State :=
        if r.code ≠ 0 then z.tasks.foldl (fun s t => s.taskStatus t stUncorr 0) s
        else (s.ringLand x.part z.core x.read a r).bump (Rg.CORE_MCAST_BLOCKS (s.physCore z.core))
      let s := x.members.foldl land r.st
      let ms := x.members.map fun z => { z with blocks := z.blocks + 1 }
      { s with mcasts := s.mcasts.set g { x with members := ms, read := x.read + 1 } }

/-- MCAST_BLOCK_READ (R174): when every member has room, a multicast group reads the next block into each ring. -/
def execMcastBlockRead (g : Nat) (s : State) : Host.Outcome State Fault Refusal := .next (s.mcastRead g)

/-! ### Completion (01 R30; R337, R341) -/

/-- The outcome of a VERIFY reaches its ledger entries (07 R243; 12 R400). -/
def State.verifyOut (s : State) (k : Task) : State :=
  let q := s.part k.part
  k.verify.foldl (fun s v =>
    if q.ledBase ≤ v.1 && v.1 < q.ledBase + q.ledN then
      match find? s.ledger v.1 with
      | some e => { s with ledger := ins s.ledger v.1 { e with position := v.2.1, accepted := v.2.2.1, next := v.2.2.2 } }
      | none => s
    else s) s

/-- Commit or undo the page changes of task `k` (08 R272): a pool that runs empty gives PAGE_QUOTA, and its append has failed (05
R181). -/
def State.settlePages (s : State) (k : Task) : State :=
  if 0x10 ≤ k.status then s.undoPages k.id
  else
    let c := ((k.parts.filterMap fun x => x.core).head?).getD ((s.coresOf k.part).headD 0)
    match s.commitPages k.id c with
    | some s => s
    | none =>
      let s := ((s.undoPages k.id).bump (Rg.CLU_OST_ALLOC_QUOTA_FAIL (s.poolCluster k.part))).taskStatus k.id stQuota 0
      s.bump (Rg.CORE_EVENTS_APPEND_FAIL (s.physCore c))

/-- The member of the group of partition `p` with a rank: its device; a rank outside the group names none, so its device is
free (assumption 66). -/
def State.rankDev (s : State) (p rank : Nat) : Nat := match (s.groupOf p)[rank]? with
  | some m => m.1
  | none => s.freeVal % 8192

/-- What a port engine does when an XFER or COLL task completes: the counter it raises, the pages whose export ends, and
CCH_LAST with the largest of its waits (13 R432, R434, R441). -/
def State.portFinish (s : State) (k : Task) : State :=
  let p := k.part
  let s := k.exps.foldl State.expEnd s
  let s := match (k.rep.filter fun r => r.2.1 != 0xFFFF) with
    | [] => s
    | r :: rs =>
      let m := rs.foldl (fun a x => if a.2.2.1 < x.2.2.1 then x else a) r
      let s := ((s.setF (Rg.CCH_LAST_DEV p) (s.rankDev p m.2.1)).setF (Rg.CCH_LAST_RANK p) m.2.1).setF (Rg.CCH_LAST_WAIT_NS p)
        (min m.2.2.1 (2 ^ 32 - 1))
      ((s.setF (Rg.CCH_LAST_SEQ_SEQ p) (seqTag k.step k.tag k.node)).setF (Rg.CCH_LAST_SEQ_KIND p) (if k.kind = 6 then 1 else 2)).freeNext
  match k.localCtr with
  | some c => s.triggerUp p c
  | none => s

/-- Complete task `t`: commit, record, release (01 R30; R337). -/
def State.finishTask (s : State) (t : Nat) : State := match s.task? t with
  | none => s
  | some k =>
    let s := (s.settlePages k).tlbDropAll t
    let k := (s.task? t).getD k
    let s := if k.status < 0x10 then s.verifyOut k else s
    let core := s.recordCore k
    let s : State := { s.freeNext with tasks := s.tasks.filter fun x => x.id != t }
    let s := s.portFinish k
    let s := s.completeNode k.part k.tag k.node k.status k.sub 0 core (s.now - k.issuedAt)
    s.afterNode k.part k.tag

/-- Whether the completion conditions of 01 R30 hold for a task that is not a CTL task. -/
def Task.mayFinish (k : Task) : Bool :=
  k.kind != 8 && k.flows.isEmpty && k.parts.all fun x => x.done && (x.slot == 4 || x.slot == 5)

/-- TASK_COMPLETE (R30): when the completion conditions hold, the Dispatcher commits the task's page changes, writes its
record and releases its successors. -/
def execTaskComplete (t : Nat) (s : State) : Host.Outcome State Fault Refusal :=
  .next (match s.task? t with
    | some k => if k.mayFinish then s.finishTask t else s
    | none => s)

/-- Whether DSP_CTL_DONE may carry a status (R341). -/
def ctlStatusOk (st : Nat) : Bool := st < 4 || (0x10 ≤ st && st < 0x14) || st == stDisabled || st == stUncorr

/-- The CTL task in flight of partition `p` that a sequence tag names. -/
def State.ctlTask (s : State) (p seq : Nat) : Option Task :=
  s.tasks.find? fun k => k.part == p && k.kind == 8 && seqTag k.step k.tag k.node == seq && k.parts.all fun x => x.slot == 5

/-- A write to DSP_CTL_DONE (R341). -/
def State.ctlDone (s : State) (p : Nat) (v : W64) : State :=
  let st := bitsOf v.toNat 32 8
  match s.ctlTask p (bitsOf v.toNat 0 32) with
  | none => s.bump (Rg.DSP_EVENTS_CTL_STRAY p)
  | some k =>
    if !ctlStatusOk st then s
    else
      let s := s.modTask k.id fun k =>
        { k with status := st, sub := bitsOf v.toNat 40 8, computed := true, parts := k.parts.map fun x => { x with done := true } }
      if st = stUncorr then s.jobFault p stUncorr else s.finishTask k.id

/-- CTL_DONE (R341): a write to DSP_CTL_DONE completes the named CTL task, or counts as CTL_STRAY. -/
def execCtlDone (p : Nat) (v : W64) (s : State) : Host.Outcome State Fault Refusal := .next (s.ctlDone p v)

/-- CTL_WDOG_EXPIRY (R341): a CTL task not completed within CC_WDOG_MS raises a job fault. -/
def execCtlWdogExpiry (t : Nat) (s : State) : Host.Outcome State Fault Refusal :=
  .next (match s.task? t with
    | some k =>
      if k.kind = 8 && k.parts.all (fun x => x.slot == 5) then
        (s.passTo (1000000 * s.ccWdogMs k.part k.issuedAt + k.issuedAt)).wdogFault k.part 1 0
      else s
    | none => s)

/-! ### Rings and pools (R335, R339, R340) -/

/-- Software advances the completion ring's HEAD; held records move into the ring (R339), and a step-end record so written applies a
tunable reload (02 R65). -/
def State.cringHead (s : State) (p : Nat) (v : W64) : State :=
  let s := s.setF (Rg.DSP_CRING_HEAD_HEAD p) v.toNat
  let h := (s.part p).cringHold
  let r := State.ringDrain p (cring p) h s
  let s := r.2.modPart p fun q => { q with cringHold := r.1 }
  if (h.take (h.length - r.1.length)).any isStepEnd then s.reloadAtStepEnd p else s

/-- CRING_HEAD_WRITE (R339): software advances the completion ring's HEAD, and held records move into the ring. -/
def execCringHeadWrite (p : Nat) (v : W64) (s : State) : Host.Outcome State Fault Refusal := .next (s.cringHead p v)

/-- Software advances the callback ring's HEAD; held records move into the ring (R340). -/
def State.cbHead (s : State) (p : Nat) (v : W64) : State :=
  let s := s.setF (Rg.DSP_CB_HEAD_HEAD p) v.toNat
  let r := State.ringDrain p (cbring p) (s.part p).cbHold s
  r.2.modPart p fun q => { q with cbHold := r.1 }

/-- CB_HEAD_WRITE (R340): software advances the callback ring's HEAD, and held callback records move into the ring. -/
def execCbHeadWrite (p : Nat) (v : W64) (s : State) : Host.Outcome State Fault Refusal := .next (s.cbHead p v)

/-- POOL_RECOMPUTE (R335): the prefill and step pools of partition `p` are recomputed. -/
def execPoolRecompute (p : Nat) (s : State) : Host.Outcome State Fault Refusal :=
  .next (if s.defined p then s.recomputePool p else s)

end Sys2Proof.Machine
end

