-- ==== Sys2Proof/Machine/PageCmds.lean ====
section
/-!
DEFINITION. The Ostler's commands: walks ahead of a part's reads, walks that waited, and the page commands of LDG_PAGE
(08_kv_pages.md R268, R274 to R276, R286 to R289).
-/
namespace Sys2Proof.Machine

/-! ### Walks (R268) -/

/-- Whether IN_A, IN_B or EXPAND of logical core `c` has an empty buffer, so that a staged part's TLB loads may begin (05 R176). -/
def State.stagedRoom (s : State) (c : Nat) : Bool :=
  let k := s.physCore c
  s.fd (Rg.CORE_SEM_LINK_0_EMPTY k) != 0 || s.fd (Rg.CORE_SEM_LINK_1_EMPTY k) != 0 || s.fd (Rg.CORE_SEM_LINK_4_EMPTY k) != 0

/-- A page TLB miss of part `part` of task `t` for a block of the stream of ledger entry `entry` (R268). A slot already in
the part's TLB is no miss. -/
def State.pageWalk (s : State) (t part entry layer head blk half : Nat) : State := match s.task? t with
  | none => s
  | some k => match k.parts.find? fun x => x.idx == part with
    | none => s
    | some x =>
      let waits := s.walks.any fun w => w.task == t && w.part == part
      if x.core.isNone || x.slot < 1 || 3 < x.slot || x.done || waits || s.ledgerOwner entry != k.part ||
          (x.slot == 1 && !s.stagedRoom x.coreN) then s
      else
        let c := x.coreN
        let list := (find (fun _ => Entry.free) s.ledger entry).pageList
        let h := s.hdrNow k.part list
        let v := leNat (s.devRead k.part 0 (h.slotAddr list layer head blk half) 4).data
        if k.pins.contains (part, v) then s.bump (Rg.CORE_TLB_STATS_HITS (s.physCore c))
        else
          let pc := s.physCore c
          match ((s.bump (Rg.CORE_TLB_STATS_MISSES pc)).cycles [Rg.CORE_TLB_WALK_WAIT pc]).walk k.part t c list layer head blk half with
          | (.hole, s) => s
          | (.page i, s) => s.tlbLoad t part i
          | (.waits i, s) => { s with walks := s.walks ++ [⟨t, part, i, c, s.now, (s.page i).drops⟩] }
          | (.fail e, s) => if x.slot = 1 then s else (s.taskStatus t e 0).partDone t part
          | (.lost i, s) =>
            if x.slot = 1 then (if s.pageOwner i = some k.part then s.jobFault k.part stUncorr else s.entryLost k.part i)
            else ((s.entryLost k.part i).taskStatus t stUncorr 0).partDone t part

/-- PAGE_WALK (R268): a page TLB miss reads the list slot, pins the entry at its home Ostler and returns a translation. -/
def execPageWalk (t part entry layer head blk half : Nat) (s : State) : Host.Outcome State Fault Refusal :=
  .next (s.pageWalk t part entry layer head blk half)

/-- A walk of task `t` waiting at PIN 4,095 of `page` proceeds once a pin is free; an entry reclaimed meanwhile reads as a
hole (R268, R275). -/
def State.pinResume (s : State) (t page : Nat) : State :=
  match s.walks.find? fun w => w.task == t && w.page == page with
  | none => s
  | some w =>
    if 4095 ≤ (s.page page).pin then s
    else
      let s := { s with walks := s.walks.erase w }
      if (s.page page).state = 0 || (s.page page).state == 4 then s
      else (s.putPage page { s.page page with pin := (s.page page).pin + 1 }).tlbLoad t w.part page

/-- PIN_WAIT_RESUME (R268): a walk waiting at PIN 4,095 proceeds when a pin of the entry is released. -/
def execPinWaitResume (t page : Nat) (s : State) : Host.Outcome State Fault Refusal := .next (s.pinResume t page)

/-! ### The page commands (R287, R288) -/

/-- Complete a page command with a result code (R288). -/
def State.pageResult (s : State) (p code : Nat) : State :=
  (s.setF (Rg.LDG_PAGE_RESULT_RESULT p) code).incr (Rg.LDG_PAGE_RESULT_COUNT p)

/-- The result of the index check of a page command: none when `page` is bound to partition `p` (R288). -/
def State.pageIndex (s : State) (p page : Nat) : Option Nat := match s.pageOwner page with
  | some q => if q = p then none else some 2
  | none => some 1

/-- A page command on `page`: the index check, the entry read at its home, then `act` (R267, R288; 09 R304). -/
def State.pageCmd (s : State) (p page : Nat) (act : State → State) : State :=
  if !s.defined p then s
  else match s.pageIndex p page with
    | some c =>
      let s := if c = 2 then s.isolation p ((s.pageOwner page).getD 15) 2 page else s
      s.pageResult p c
    | none => match s.entryRead page with
      | (false, s) => s.jobFault p stUncorr
      | (true, s) => act s

/-- Whether a REF or UNREF is refused with BAD_STATE: the entry is FREE, RECLAIM or NEW (R275). -/
def Page.refused (x : Page) : Bool := x.state == 0 || x.state == 4 || x.newBy.isSome

/-- LDG_PAGE_CMD REF. -/
def State.pageRef (s : State) (p page : Nat) : State := s.pageCmd p page fun s =>
  let x := s.page page
  if x.refused then s.pageResult p 3
  else if 65535 ≤ x.ref then s.pageResult p 4
  else (s.putPage page { x with ref := x.ref + 1 }).pageResult p 0

/-- PAGE_REF (R287): LDG_PAGE_CMD REF adds a reference to a page, or refuses the command. -/
def execPageRef (p page : Nat) (s : State) : Host.Outcome State Fault Refusal := .next (s.pageRef p page)

/-- LDG_PAGE_CMD UNREF. -/
def State.pageUnref (s : State) (p page : Nat) : State := s.pageCmd p page fun s =>
  if (s.page page).refused then s.pageResult p 3 else (s.unref page).pageResult p 0

/-- PAGE_UNREF (R287): LDG_PAGE_CMD UNREF drops a reference to a page, freeing or reclaiming it as its counts dictate. -/
def execPageUnref (p page : Nat) (s : State) : Host.Outcome State Fault Refusal := .next (s.pageUnref p page)

/-- LDG_PAGE_CMD READ (R289). -/
def State.pageRead (s : State) (p page : Nat) : State := s.pageCmd p page fun s =>
  let w := s.pageWords page
  ((s.wr (Rg.LDG_PAGE_ENTRY_0 p) (BitVec.ofNat 64 w.1)).wr (Rg.LDG_PAGE_ENTRY_1 p) (BitVec.ofNat 64 w.2)).pageResult p 0

/-- PAGE_READ (R287): LDG_PAGE_CMD READ copies a page-table entry into LDG_PAGE_ENTRY_0 and _1. -/
def execPageRead (p page : Nat) (s : State) : Host.Outcome State Fault Refusal := .next (s.pageRead p page)

/-- A write to LDG_PAGE_CMD: any other OP completes with BAD_OP (R287, R288). -/
def State.pageCmdWrite (s : State) (p : Nat) (v : W64) : State :=
  let page := bitsOf v.toNat 8 24
  match bitsOf v.toNat 0 3 with
  | 1 => s.pageRef p page
  | 2 => s.pageUnref p page
  | 3 => s.pageRead p page
  | _ => if s.defined p then s.pageResult p 5 else s

/-- A write to LDG_PAGE_LOW: THRESHOLD is written; a 1 to LOW clears it and the clear holds, any other write may set it
(R286, assumption 47). -/
def State.pageLow (s : State) (p : Nat) (v : W64) : State :=
  let s := s.setF (Rg.LDG_PAGE_LOW_THRESHOLD p) (bitsOf v.toNat 0 25)
  if bitOf v.toNat 25 then s.setF (Rg.LDG_PAGE_LOW_LOW p) 0 else s.noteLow p

/-- PAGE_LOW_WRITE (R286): a write to LDG_PAGE_LOW sets THRESHOLD, sets LOW when the pool is below it, or clears LOW. -/
def execPageLowWrite (p : Nat) (v : W64) (s : State) : Host.Outcome State Fault Refusal :=
  .next (if s.defined p then s.pageLow p v else s)

end Sys2Proof.Machine
end

