-- ==== Sys2Proof/Machine/MemCmds.lean ====
section
/-!
DEFINITION. The memory controllers' commands: slots, repair writes, the scrub, waiting writers and the memory log
(09_memory.md R299 to R311).
-/
namespace Sys2Proof.Machine

/-! ### Slots (R299, R301) -/

/-- BW_READ, BW_WRITE and BW_REMOTE of partition `p` (02 R52). -/
def State.bwOf (s : State) (p : Nat) : List Nat := [s.cfg p 136 1, s.cfg p 137 1, s.cfg p 138 1]

/-- One step of R301's derivation: the running counts and the class chosen. -/
def splitStep (w : List Nat) (c : List Int) : List Int × Nat :=
  let c := List.zipWith (fun (x : Int) (y : Nat) => x + y) c w
  let k := [1, 2].foldl (fun k i => if c.getD k 0 < c.getD i 0 then i else k) 0
  (c.set k (c.getD k 0 - 16), k)

/-- The 16-slot pattern of weights `w`, two bits a slot (R301, R312). -/
def splitPattern (w : List Nat) : Nat :=
  ((List.range 16).foldl (fun (a : List Int × Nat) i =>
    let r := splitStep w a.1
    (r.1, a.2 + r.2 * 4 ^ i)) ([0, 0, 0], 0)).2

/-- The pattern that controller 0 uses for partition `p` (R301, R312): until its next pattern start, the one in use (assumption 120). -/
def State.patternOf (s : State) (p : Nat) : Nat :=
  let c := s.memCtl 0
  if find (fun _ => 0) c.pos p = 0 then splitPattern (s.bwOf p) else find (fun _ => 0) c.pat p

/-- Whether a partition (or Innkeeper, 15) has a request waiting at a controller. -/
def MemCtl.busy (c : MemCtl) (p : Nat) : Bool := [0, 1, 2].any fun k => let r := c.reqOf (3 * p + k); 0 < r.rd + r.wr

/-- Take one waiting request of key `k`, reads before writes (assumption 49). -/
def MemCtl.take (c : MemCtl) (k : Nat) : MemCtl :=
  let r := c.reqOf k
  { c with req := ins c.req k (if 0 < r.rd then { r with rd := r.rd - 1 } else { r with wr := r.wr - 1 }) }

/-- Serve one waiting request of Innkeeper, of any class. -/
def MemCtl.takeInnkeeper (c : MemCtl) : MemCtl :=
  match [0, 1, 2].find? fun k => let r := c.reqOf (45 + k); 0 < r.rd + r.wr with
  | some k => c.take (45 + k)
  | none => c

/-- Store the corrected or poisoned codeword of a queued repair (R302). -/
def State.repairLine (s : State) (r : Repair) : State :=
  let x := s.decodeLine r.line
  s.storeLine r.line x.2 (r.bad || 5 ≤ x.1)

/-! ### The scrub (R303, R308) -/

/-- Codewords of the partition regions. -/
def State.regionLines (s : State) : Nat := 2 ^ 24 * s.var.regions
/-- Codewords of the Innkeeper reserve. -/
def State.reserveLines (s : State) : Nat := 2 ^ 23 * s.var.reserveHalf
/-- Codewords of one slice. -/
def State.sliceLines (s : State) : Nat := 2 ^ 14 * s.var.sliceMiB
/-- Codewords of both memories. -/
def State.allLines (s : State) : Nat := s.regionLines + s.reserveLines + s.nCores * s.sliceLines

/-- The line of the scrub's `i`-th codeword. -/
def State.scrubLine (s : State) (i : Nat) : Nat :=
  if i < s.regionLines then i
  else if i < s.regionLines + s.reserveLines then reserveBase / 64 + (i - s.regionLines)
  else
    let j := i - s.regionLines - s.reserveLines
    sliceBase / 64 + j / s.sliceLines * 2 ^ 19 + j % s.sliceLines

/-- Nanoseconds in SCRUB_PERIOD_S. -/
def State.scrubPeriod (s : State) : Nat := 1000000000 * s.fd Rg.MEM_SCRUB_STATUS_PERIOD_S

/-- Whether the scrub is more than 1 % behind its schedule (R303). -/
def State.scrubBehind (s : State) : Bool :=
  100 * s.ecc.scrubNext * s.scrubPeriod + s.allLines * s.scrubPeriod < 100 * (min (s.now - s.ecc.scrubStart) s.scrubPeriod) * s.allLines

/-- Whether the scrub's next codeword is due by its schedule. -/
def State.scrubDue (s : State) : Bool := s.ecc.scrubNext * s.scrubPeriod < (s.now - s.ecc.scrubStart) * s.allLines

/-- Whether the scrub's next codeword stands at controller `n`. -/
def State.scrubAt (s : State) (n : Nat) : Bool :=
  let l := s.scrubLine (s.ecc.scrubNext % s.allLines)
  s.phase == .running && !lineSram l && s.channelOf l == n

/-- The scrub reads its next codeword; one in error is rewritten corrected or poisoned (R303). -/
def State.scrub (s : State) : State :=
  let i := s.ecc.scrubNext % s.allLines
  let l := s.scrubLine i
  let x := s.decodeLine l
  let s :=
    if x.1 = 0 then s
    else if x.1 = 6 then (if lineSram l then s.bump (Rg.CORE_SRAM_ECC_POISON_READ (s.sliceCore l)) else s)
    else (s.noteLine 15 1 l x.1).storeLine l x.2 (5 ≤ x.1)
  if i + 1 < s.allLines then { s with ecc := { s.ecc with scrubNext := i + 1 } }
  else (State.bump { s with ecc := { s.ecc with scrubNext := 0, scrubStart := s.now } } Rg.MEM_SCRUB_STATUS_PASSES)

/-! ### The grant of a slot (R299) -/

/-- An idle slot of controller `n` carries a repair write, else a scrub read that is due, else Innkeeper traffic (R299). -/
def State.idleSlot (s : State) (n : Nat) : State :=
  match s.ecc.repairQ.find? fun r => !lineSram r.line && s.channelOf r.line == n with
  | some r => s.repairLine r
  | none => if s.scrubAt n && s.scrubDue then s.scrub else s.modMemCtl n fun c => c.takeInnkeeper

/-- Controller `n` grants its next slot (R299): to Innkeeper one time in 32, to a scrub that is behind one time in 1,024 (R303), else
to the next partition in rotation for the class its pattern calls for (assumption 120). -/
def State.slotGrant (s : State) (n : Nat) : State :=
  if s.var.channels ≤ n then s
  else
    let c := s.memCtl n
    let turn := (find (fun _ => 0) c.pos 15 + 1) % 1024
    let s := s.modMemCtl n fun c => { c with pos := ins c.pos 15 turn }
    if turn % 32 = 0 && c.busy 15 then s.modMemCtl n fun c => c.takeInnkeeper
    else if turn = 1 && s.scrubBehind && s.scrubAt n then s.scrub
    else match ((List.range 12).map fun i => ((if c.last < 12 then c.last + 1 else 0) + i) % 12).find? fun p => c.busy p with
      | none => (s.bump (Rg.MEM_CH_SLOTS_IDLE_SLOTS n)).idleSlot n
      | some p =>
        let pos := find (fun _ => 0) c.pos p
        let pat := if pos = 0 then splitPattern (s.bwOf p) else find (fun _ => 0) c.pat p
        let cls := bitsOf pat (2 * pos) 2
        let s := s.modMemCtl n fun c => { c with last := p, pos := ins c.pos p ((pos + 1) % 16), pat := ins c.pat p pat }
        let r := c.reqOf (3 * p + cls)
        if 0 < r.rd + r.wr then (s.modMemCtl n fun c => c.take (3 * p + cls)).bump (slotCounter n cls)
        else (s.bump (Rg.MEM_CH_SLOTS_IDLE_SLOTS n)).idleSlot n

/-- MEM_SLOT_GRANT (R299): an LPDDR5X controller grants its next slot to the next partition in rotation, for the class its
pattern calls for. -/
def execMemSlotGrant (n : Nat) (s : State) : Host.Outcome State Fault Refusal := .next (s.slotGrant n)

/-! ### Repair and scrub (R302, R303, R308) -/

/-- REPAIR_WRITE (R302): the oldest queued repair write stores a corrected or poisoned codeword. -/
def execRepairWrite (s : State) : Host.Outcome State Fault Refusal :=
  .next (match s.ecc.repairQ with
    | r :: _ => s.repairLine r
    | [] => s)

/-- SCRUB_READ (R303): the background scrub reads the next codeword and rewrites it corrected or poisoned. -/
def execScrubRead (s : State) : Host.Outcome State Fault Refusal := .next (if s.phase = .running then s.scrub else s)

/-! ### Waiting writers and the log (R306, R311) -/

/-- A host write waiting for the full write queue of controller `n` proceeds when an entry is free (R306). -/
def State.queueResume (s : State) (n : Nat) : State :=
  let c := s.memCtl n
  match c.wait with
  | [] => s
  | w :: r =>
    if 64 ≤ c.writes then s
    else (s.modMemCtl n fun c => { c with wait := r }).ramWrite w.tag 2 w.addr w.data false

/-- WRITE_QUEUE_RESUME (R306): a writer waiting on a full controller write queue proceeds when an entry frees. -/
def execWriteQueueResume (n : Nat) (s : State) : Host.Outcome State Fault Refusal := .next (s.queueResume n)

/-- A read of MEM_LOG_HEAD1: the oldest entry's time, and the entry is removed (R311). -/
def State.memLogPop (s : State) : State := match s.memLog with
  | e :: r => { s with memLog := r, bus := BitVec.ofNat 64 e.h1 }
  | [] => { s with bus := 0 }

/-- MEM_LOG_POP (R311): a read of MEM_LOG_HEAD1 returns the oldest memory log entry's time and removes the entry. -/
def execMemLogPop (s : State) : Host.Outcome State Fault Refusal := .next s.memLogPop

end Sys2Proof.Machine
end

