-- ==== Sys2Proof/Machine/Chan.lean ====
section
/-!
DEFINITION. Message channels and Churn queues (11_channels.md): opening and closing, sends and their landings, select
groups, spill rings and the combiner.
-/
namespace Sys2Proof.Machine

/-! ### Objects -/

/-- Sending port `n` of partition `p` (R355). -/
def State.sender (s : State) (p n : Nat) : Port := find (fun _ => Port.init) (s.part p).ports n

/-- Change a sending port. -/
def State.modSender (s : State) (p n : Nat) (f : Port → Port) : State :=
  s.modPart p fun q => { q with ports := ins q.ports n (f (find (fun _ => Port.init) q.ports n)) }

/-- Select group `g` of partition `p`. -/
def State.group (s : State) (p g : Nat) : Group := find (fun _ => Group.init) (s.part p).groups g

/-- Change a select group. -/
def State.modGroup (s : State) (p g : Nat) (f : Group → Group) : State :=
  s.modPart p fun q => { q with groups := ins q.groups g (f (find (fun _ => Group.init) q.groups g)) }

/-- Change an open or closing endpoint. -/
def State.modEp (s : State) (h : Nat) (f : Endpoint → Endpoint) : State := match find? s.endpoints h with
  | some e => { s with endpoints := ins s.endpoints h (f e) }
  | none => s

/-- Change an open Churn queue. -/
def State.modChurn (s : State) (q : Nat) (f : Churn → Churn) : State := match find? s.churns q with
  | some c => { s with churns := ins s.churns q (f c) }
  | none => s

/-- Endpoints of partition `p`. -/
def State.epsOf (s : State) (p : Nat) : List (Nat × Endpoint) := s.endpoints.filter fun e => e.2.part == p

/-- Members of select group `g` of partition `p`, by handle. -/
def State.members (s : State) (p g : Nat) : List (Nat × Endpoint) := (s.epsOf p).filter fun e => e.2.group == g

/-- Bytes of an endpoint's ring. -/
def Endpoint.size (e : Endpoint) : Nat := 2 ^ e.ringLog2

/-- Bytes of a port's spill ring. -/
def State.spillSize (s : State) (p n : Nat) : Nat := 2 ^ s.fd (Rg.CHN_PORT_SPILL_CFG_LOG2 p n)

/-! ### Records (R354, R365) -/

/-- The header of R354 in front of a payload. -/
def msgBytes (type units dest seq src : Nat) (payload : Bytes) : Bytes :=
  mkRec 8 [(0, 1, type), (1, 1, units), (2, 2, dest), (4, 2, seq), (6, 2, src)] ++ payload

/-- A skip record covering `n` bytes. -/
def skipRec (n : Nat) : Bytes := mkRec 32 [(0, 1, 2), (1, 1, 1), (8, 4, n)]

/-- A PUT notice. -/
def putNotice (dest seq src off units : Nat) : Bytes :=
  msgBytes 4 1 dest seq src (mkRec 24 [(0, 4, off), (4, 1, units)])

/-! ### Ring space (R356) -/

/-- The bytes to skip so that `len` bytes fit a ring of `size` bytes with the given counters; none if they do not fit. -/
def ringFit (size tail head len : Nat) : Option Nat :=
  let free := size - (tail + 2 ^ 32 - head) % 2 ^ 32
  let end_ := size - tail % size
  if len ≤ end_ && len ≤ free then some 0 else if end_ < len && end_ + len ≤ free then some end_ else none

/-- Begin the landing of a message in an endpoint's ring (R356, R357). -/
def State.landRing (s : State) (h : Nat) (e : Endpoint) (skip : Nat) (bs : Bytes) (seq src p port : Nat) (task : Option Nat) :
    State :=
  let s := if skip = 0 then s
    else ((s.devWrite e.part 1 (e.ringBase + e.wtail % e.size) (skipRec skip)).st).bump (Rg.CHN_EVENTS_SKIPS p)
  let start := (e.wtail + skip) % 2 ^ 32
  let s := (s.devWrite e.part 1 (e.ringBase + start % e.size) bs).st
  let s := s.modEp h fun e => { e with wtail := (start + bs.length) % 2 ^ 32 }
  { s with landings := s.landings ++ [⟨h, ⟨start, skip, bs.length, seq, src, false⟩, false, p, port, task⟩] }

/-! ### Completing a send (R367, R371) -/

/-- The outcome of a task's send (R367). -/
def State.taskSendDone (s : State) (t result : Nat) : State :=
  let s := if result = 3 then s.taskStatus t stDisabled 0 else if 4 ≤ result then s.taskStatus t stUncorr 0 else s
  s.partDone t 0

/-- The head send of a port completes with `result`: 0 OK, 1 SPILLED, 2 FULL, 3 CLOSED, 4 BAD_DEST, 5 BAD_LEN, 6 BAD_RANGE,
7 XFER_ERROR. -/
def State.sendDone (s : State) (p n result : Nat) : State := match (s.sender p n).queue with
  | [] => s
  | x :: r =>
    let s := s.modSender p n fun q => { q with queue := r }
    let s := (s.setF (Rg.CHN_PORT_SEND_STATUS_RESULT p n) result).incr (Rg.CHN_PORT_SEND_STATUS_COMPLETED p n)
    match x.task with
    | some t => s.taskSendDone t result
    | none => s

/-- A control core takes an access fault: 5 load, 7 store (02 R69; 15 R503). -/
def State.ctlTrap (s : State) (n cause : Nat) : State :=
  if n < 32 then s.modCtl n fun c => { c with trap := cause } else s

/-- A send names an object that is not its own or of the wrong kind: BAD_DEST (R367; 02 R69). -/
def State.badDest (s : State) (p n owner kind index : Nat) : State :=
  ((s.isolation p owner kind index).ctlTrap n 7).sendDone p n 4

/-- Read what the head send of a port sends: none has completed it with XFER_ERROR (R367; 09 R304). -/
def State.sendRead (s : State) (p n a len : Nat) (task : Option Nat) : Option Bytes × State :=
  let r := s.devRead p 0 a len
  if r.code = 0 && r.poison.isEmpty then (some r.data, r.st)
  else
    let s := if r.code = 1 then r.st.ctlTrap n 5 else r.st
    let s := s.sendDone p n 7
    (none, if r.code = 2 && task.isNone then s.jobFault p stUncorr else s)

/-! ### Spill (R362) -/

/-- Whether a port holds an unreleased spilled message for an endpoint. -/
def Port.spilled (q : Port) (h : Nat) : Bool := q.spill.any fun m => m.ep == h && !m.released

/-- The SEQ of a port's next send to an endpoint (R354). -/
def State.seqOf (s : State) (p n h : Nat) : Nat := find (fun _ => 0) (s.sender p n).seqs h

/-- One more send of a port to an endpoint. -/
def State.seqNext (s : State) (p n h : Nat) : State :=
  s.modSender p n fun q => { q with seqs := ins q.seqs h ((s.seqOf p n h + 1) % 65536) }

/-- The bytes to skip to spill `len` bytes at a port; none without room or without a spill ring. -/
def State.spillFit (s : State) (p n len : Nat) : Option Nat :=
  if s.fd (Rg.CHN_PORT_SPILL_BASE_BASE p n) = 0 then none
  else ringFit (s.spillSize p n) (s.fd (Rg.CHN_PORT_SPILL_PTR_TAIL p n)) (s.fd (Rg.CHN_PORT_SPILL_PTR_HEAD p n)) len

/-- Write a message into a port's spill ring (R362): SPILL is raised for the endpoint's group. -/
def State.spillWrite (s : State) (p n h g skip seq : Nat) (bs : Bytes) : State :=
  let base := s.fd (Rg.CHN_PORT_SPILL_BASE_BASE p n)
  let size := s.spillSize p n
  let tail := s.fd (Rg.CHN_PORT_SPILL_PTR_TAIL p n)
  let s := if skip = 0 then s else ((s.devWrite p 1 (base + tail % size) (skipRec skip)).st).bump (Rg.CHN_EVENTS_SKIPS p)
  let start := (tail + skip) % 2 ^ 32
  let s := (s.devWrite p 1 (base + start % size) bs).st
  let s := s.setF (Rg.CHN_PORT_SPILL_PTR_TAIL p n) (start + bs.length)
  let s := s.modSender p n fun q => { q with spill := q.spill ++ [⟨h, start, skip, bs.length, seq, false, false⟩] }
  let s := s.bump (Rg.CHN_EVENTS_SPILLED p)
  s.wr (Rg.CHN_IRQ_SPILL p) (s.rd (Rg.CHN_IRQ_SPILL p) ||| BitVec.ofNat 64 (2 ^ g))

/-! ### Performing the head send (R355 to R362) -/

/-- Whether the head send of a port has begun: it lands, or waits for the combiner. -/
def State.sendBusy (s : State) (p n : Nat) : Bool :=
  (s.landings.any fun l => l.part == p && l.port == n) ||
    s.churns.any fun c => c.2.part == p && c.2.waiting.any fun w => w.1 == n

/-- The message that the head send appends: its bytes and SEQ; none has completed it with XFER_ERROR. -/
def State.appendBytes (s : State) (p n : Nat) (x : Send) : Option (Bytes × Nat) × State :=
  if x.put then
    let seq := (s.seqOf p n x.dest + 65535) % 65536
    (some (putNotice x.dest seq n x.offset x.units, seq), s)
  else match s.sendRead p n x.addr (32 * x.units) x.task with
    | (some b, s) =>
      let seq := s.seqOf p n x.dest
      (some (msgBytes 1 x.units x.dest seq n (b.drop 8), seq), s.seqNext p n x.dest)
    | (none, s) => (none, s)

/-- Change the head send of a port. -/
def State.modHead (s : State) (p n : Nat) (f : Send → Send) : State :=
  s.modSender p n fun q => match q.queue with
    | x :: r => { q with queue := f x :: r }
    | [] => q

/-- The head send goes to its port's spill ring, or finds no room (R362). -/
def State.spillHead (s : State) (p n : Nat) (x : Send) (g : Nat) : State :=
  match s.spillFit p n (if x.put then 32 else 32 * x.units) with
  | some skip => match s.appendBytes p n x with
    | (some b, s) => (s.spillWrite p n x.dest g skip b.2 b.1).sendDone p n 1
    | (none, s) => s
  | none =>
    let s := if x.full then s else s.bump (Rg.CHN_EVENTS_SPILL_FULL p)
    if x.task.isNone then s.sendDone p n 2
    else s.modHead p n fun x => { x with full := true, wait := if x.full then x.wait else some s.now }

/-- An APPEND, or the notice of a PUT-AT, at the head of its port (R356, R362). -/
def State.appendHead (s : State) (p n : Nat) (x : Send) (e : Endpoint) : State :=
  if e.group < 64 && (s.sender p n).spilled x.dest then s.spillHead p n x e.group
  else match ringFit e.size e.wtail e.head (if x.put then 32 else 32 * x.units) with
    | some skip => match s.appendBytes p n x with
      | (some b, s) => s.landRing x.dest e skip b.1 b.2 n p n x.task
      | (none, s) => s
    | none => (s.modHead p n fun x => { x with wait := some (x.wait.getD s.now) }).raise (Rg.CHN_WAIT_CREDIT_WAIT p)

/-- A PUT-AT at the head of its port (R359). -/
def State.putHead (s : State) (p n : Nat) (x : Send) (e : Endpoint) : State :=
  if x.offset % 32 ≠ 0 || e.winSize < x.offset + 32 * x.units then s.sendDone p n 6
  else match s.sendRead p n x.addr (32 * x.units) x.task with
    | (none, s) => s
    | (some b, s) =>
      let seq := s.seqOf p n x.dest
      let bs := msgBytes 1 x.units x.dest seq n (b.drop 8)
      let s := (s.devWrite p 1 (e.winBase + x.offset) bs).st.seqNext p n x.dest
      { s with landings := s.landings ++ [⟨x.dest, ⟨x.offset, 0, bs.length, seq, n, false⟩, true, p, n, x.task⟩] }

/-- A CONTRIB at the head of its port waits there for the combiner (R364). -/
def State.contribHead (s : State) (p n : Nat) (x : Send) : State := match find? s.churns x.dest with
  | none => s.sendDone p n 3
  | some c =>
    if c.part ≠ p then s.badDest p n c.part 5 x.dest
    else s.modChurn x.dest fun c => { c with waiting := c.waiting ++ [(n, x.addr, x.task)] }

/-- Perform the head send of a port as far as it goes now. -/
def State.sendHead (s : State) (p n : Nat) : State := match (s.sender p n).queue with
  | [] => s
  | x :: _ =>
    if s.sendBusy p n then s
    else if x.op = 2 then s.contribHead p n x
    else if x.op = 3 || x.units = 0 || 8 < x.units then s.sendDone p n 5
    else match find? s.endpoints x.dest with
      | none => s.sendDone p n 3
      | some e =>
        if e.part ≠ p then s.badDest p n e.part 4 x.dest
        else if e.closing then s.sendDone p n 3
        else if (x.op = 1 && e.winSize == 0) || ((x.op == 0 || x.notify) && e.ringLog2 == 0) then s.badDest p n p 4 x.dest
        else if x.op = 1 && !x.put then s.putHead p n x e
        else s.appendHead p n x e

/-- Perform a port's sends in order while its head completes: `k` of them at most (R355). -/
def State.pumpN (p n : Nat) : Nat → State → State
  | 0, s => s
  | k + 1, s =>
    let s' := s.sendHead p n
    if (s'.sender p n).queue.length < (s.sender p n).queue.length then State.pumpN p n k s' else s'

/-- Perform a port's queue of 8 sends as far as it goes. -/
def State.pump (s : State) (p n : Nat) : State := State.pumpN p n 9 s

/-- Perform every port of partition `p` as far as it goes. -/
def State.pumpAll (s : State) (p : Nat) : State := (s.part p).ports.foldl (fun s e => s.pump p e.1) s

/-- Put a send into a port's queue of 8, or set OVERRUN (R355). -/
def State.enqueue (s : State) (p n : Nat) (x : Send) : State :=
  if 8 ≤ (s.sender p n).queue.length then s.raise (Rg.CHN_PORT_SEND_STATUS_OVERRUN p n)
  else (s.modSender p n fun q => { q with queue := q.queue ++ [x] }).pump p n

/-- A write to a port's _SEND (R371). -/
def State.sendWrite (s : State) (p n : Nat) (v : W64) : State :=
  let w := v.toNat
  s.enqueue p n ⟨bitsOf w 0 2, bitOf w 2, bitsOf w 3 4, bitsOf w 8 12, bitsOf w 32 32,
    s.fd (Rg.CHN_PORT_SEND_ADDR_ADDR p n), none, none, false, false⟩

/-- Whether partition `p` has sending port `n` with registers to send by: one of its control cores, or the host (R371). -/
def State.hasPort (s : State) (p n : Nat) : Bool := s.defined p && (n == 32 || (n < 32 && (s.ctlOf p).contains n))

/-- CHN_APPEND (R356): a send with OP APPEND places a message at the ring's tail, or waits for credit. -/
def execChnAppend (p port : Nat) (v : W64) (s : State) : Host.Outcome State Fault Refusal :=
  .next (if s.hasPort p port && bitsOf v.toNat 0 2 == 0 then s.sendWrite p port v else s)

/-- CHN_PUT_AT (R359): a send with OP PUT-AT writes the message at the window offset, and appends a notice if NOTIFY is set. -/
def execChnPutAt (p port : Nat) (v : W64) (s : State) : Host.Outcome State Fault Refusal :=
  .next (if s.hasPort p port && bitsOf v.toNat 0 2 == 1 then s.sendWrite p port v else s)

/-- CHN_CONTRIB (R364): a send with OP CONTRIB queues a vector to be added into a Churn queue. -/
def execChnContrib (p port : Nat) (v : W64) (s : State) : Host.Outcome State Fault Refusal :=
  .next (if s.hasPort p port && bitsOf v.toNat 0 2 == 2 then s.sendWrite p port v else s)

/-- SEND_CREDIT_RESUME (R356): a send waiting for credit is placed again when HEAD advances. -/
def execSendCreditResume (p port : Nat) (s : State) : Host.Outcome State Fault Refusal := .next (s.pump p port)

/-- A send that waited SPILL_LIMIT for credit spills, or completes FULL (R362). -/
def State.sendSpill (s : State) (p n : Nat) : State := match (s.sender p n).queue with
  | [] => s
  | x :: _ => match x.wait, find? s.endpoints x.dest with
    | some w, some e =>
      if s.sendBusy p n || x.op = 2 || e.closing || 64 ≤ e.group ||
          (ringFit e.size e.wtail e.head (if x.put then 32 else 32 * x.units)).isSome then s
      else ((s.passTo (w + s.cfgSince p w 184 4 / 2)).spillHead p n x e.group).pump p n
    | _, _ => s

/-- SEND_SPILL (R362): a send that waited SPILL_LIMIT for credit is written to the port's spill ring, or completes FULL. -/
def execSendSpill (p port : Nat) (s : State) : Host.Outcome State Fault Refusal := .next (s.sendSpill p port)

/-! ### Landings (R357, R359, R365) -/

/-- A message has arrived for an endpoint's group (R374). -/
def State.groupIrq (s : State) (p g : Nat) : State :=
  if g < 64 && s.on (Rg.CHN_SEL_CFG_IRQ_EN p g) then
    s.wr (Rg.CHN_IRQ_GROUP p) (s.rd (Rg.CHN_IRQ_GROUP p) ||| BitVec.ofNat 64 (2 ^ g))
  else s

/-- The oldest landing of endpoint `h` is accepted (R357): TAIL advances, and the send goes on. -/
def State.messageLand (s : State) (h : Nat) : State := match s.landings.find? fun l => l.ep == h with
  | none => s
  | some l =>
    let s := { s with landings := s.landings.erase l }
    let s := if l.window then s
      else
        let s := s.modEp h fun e => { e with tail := (l.msg.at_ + l.msg.len) % 2 ^ 32, msgs := e.msgs ++ [l.msg] }
        match find? s.endpoints h with
        | some e => s.groupIrq e.part e.group
        | none => s
    if l.port = 0xFFFF then s
    else
      let notify := l.window && (match (s.sender l.part l.port).queue with | x :: _ => x.notify | [] => false)
      let s := if notify then s.modHead l.part l.port fun x => { x with put := true } else s.sendDone l.part l.port 0
      s.pump l.part l.port

/-- MESSAGE_LAND (R357): when a landing is accepted, TAIL advances and the group's NEXT and interrupt are updated. -/
def execMessageLand (h : Nat) (s : State) : Host.Outcome State Fault Refusal := .next (s.messageLand h)

/-! ### Receiving (R358, R360, R361) -/

/-- The place after `rot` in rotation, of `n` places. -/
def afterRot (rot n x : Nat) : Nat := (x + 2 * n - rot % n - 1) % n

/-- Of keyed candidates, the first in rotation after `rot`. -/
def pickRot {α : Type} (rot n : Nat) (xs : List (Nat × α)) : Option (Nat × α) :=
  xs.foldl (fun b x => match b with
    | none => some x
    | some y => if afterRot rot n x.1 < afterRot rot n y.1 then some x else some y) none

/-- A message to hand out: endpoint, from spill, port, start, length, SEQ, address. -/
structure Offer where
  ep : Nat
  spill : Bool
  src : Nat
  start : Nat
  len : Nat
  seq : Nat
  addr : Nat
deriving DecidableEq, Repr

/-- The next spilled message of group `g`: ports in rotation, spill-ring order within a port (R360). -/
def State.offerSpill (s : State) (p g : Nat) : Option Offer :=
  let mine := (s.members p g).map (·.1)
  let c := (s.part p).ports.filterMap fun e =>
    (e.2.spill.find? fun m => !m.handed && !m.released && mine.contains m.ep).map fun m => (e.1, m)
  (pickRot (s.group p g).spillRot 34 c).map fun x =>
    ⟨x.2.ep, true, x.1, x.2.at_, x.2.len, x.2.seq, s.fd (Rg.CHN_PORT_SPILL_BASE_BASE p x.1) + x.2.at_ % s.spillSize p x.1⟩

/-- The next ring message of group `g`: lowest PRIO with ties in rotation, or rotation alone (R360). -/
def State.offerRing (s : State) (p g : Nat) : Option Offer :=
  let c := (s.members p g).filterMap fun e => (e.2.msgs.find? fun m => !m.handed).map fun m => (e.1, e.2, m)
  let best := c.foldl (fun b x => min b x.2.1.prio) 16
  let c := if s.fd (Rg.CHN_SEL_CFG_MODE p g) = 0 then c.filter fun x => x.2.1.prio == best else c
  (pickRot (s.group p g).rot 4096 c).map fun x =>
    ⟨x.1, false, x.2.2.src, x.2.2.at_, x.2.2.len, x.2.2.seq, x.2.1.ringBase + x.2.2.at_ % x.2.1.size⟩

/-- A read of a group's _NEXT (R360, R372). -/
def State.selNext (s : State) (p g : Nat) : State :=
  match (match s.offerSpill p g with | some o => some o | none => s.offerRing p g) with
  | none => { s with bus := 0 }
  | some o =>
    let s := if o.spill then
        (s.modSender p o.src fun q => { q with spill := q.spill.map fun m =>
          if m.ep == o.ep && m.at_ == o.start then { m with handed := true } else m }).modGroup p g fun x => { x with spillRot := o.src }
      else (s.modEp o.ep fun e => { e with msgs := e.msgs.map fun m =>
          if m.at_ == o.start then { m with handed := true } else m }).modGroup p g fun x => { x with rot := o.ep }
    let s := s.modGroup p g fun x => { x with handed := x.handed ++ [⟨o.ep, o.spill, o.src, o.start⟩] }
    let s := s.wr (Rg.CHN_SEL_NEXT_ADDR p g) (BitVec.ofNat 64 o.addr)
    { s with bus := BitVec.ofNat 64 (1 + 2 * b2n o.spill + 4 * (o.len / 32) + o.ep * 2 ^ 16 + o.seq * 2 ^ 32 + o.src * 2 ^ 48) }

/-- SEL_NEXT (R360): a read of a group's _NEXT hands out the next spilled or ring message of its members. -/
def execSelNext (p g : Nat) (s : State) : Host.Outcome State Fault Refusal :=
  .next (if s.defined p && g < 64 then s.selNext p g else s)

/-- Release the oldest handed-out ring message of an endpoint: HEAD passes it and a skip record before the next. -/
def Endpoint.release (e : Endpoint) : Endpoint := match e.msgs with
  | [] => e
  | m :: r => { e with msgs := r, head := match r with
      | n :: _ => n.at_
      | [] => (m.at_ + m.len) % 2 ^ 32 }

/-- Let a spill ring's HEAD pass every released entry at its head (R361). -/
def State.spillAdvance (s : State) (p n : Nat) : State :=
  let ms := (s.sender p n).spill
  let gone := ms.takeWhile fun m => m.released
  match gone.getLast? with
  | none => s
  | some m => (s.modSender p n fun q => { q with spill := q.spill.drop gone.length }).setF
      (Rg.CHN_PORT_SPILL_PTR_HEAD p n) (m.at_ + m.len)

/-- Mark a spilled message released. -/
def State.spillRelease (s : State) (p n start : Nat) : State :=
  (s.modSender p n fun q => { q with spill := q.spill.map fun m =>
    if m.at_ == start then { m with released := true } else m }).spillAdvance p n

/-- A write to a group's _DONE (R361). -/
def State.selDone (s : State) (p g : Nat) (v : W64) : State :=
  let ep := bitsOf v.toNat 0 12
  let sp := bitOf v.toNat 12
  match (s.group p g).handed.find? fun h => h.ep == ep && h.spill == sp with
  | none => s.bump (Rg.CHN_EVENTS_DISCARDED p)
  | some h =>
    let s := s.modGroup p g fun x => { x with handed := x.handed.erase h }
    if sp then s.spillRelease p h.src h.at_ else s.modEp ep Endpoint.release

/-- SEL_DONE (R361): a write to a group's _DONE releases the oldest handed-out message and advances HEAD. -/
def execSelDone (p g : Nat) (v : W64) (s : State) : Host.Outcome State Fault Refusal :=
  .next (if s.defined p && g < 64 then s.selDone p g v else s)

/-- A write to CHN_EP_RING.HEAD (R358): ignored for a grouped endpoint or one of another partition. -/
def State.epHead (s : State) (p : Nat) (v : W64) : State :=
  let h := s.fd (Rg.CHN_EP_SEL_HANDLE p)
  match find? s.endpoints h with
  | none => s
  | some e =>
    if e.part ≠ p || e.group < 64 then s
    else
      let x := bitsOf v.toNat 32 32
      let d := (x + 2 ^ 32 - e.head) % 2 ^ 32
      if (e.tail + 2 ^ 32 - e.head) % 2 ^ 32 < d then s.bump (Rg.CHN_EVENTS_DISCARDED p)
      else s.modEp h fun e => { e with head := x, msgs := e.msgs.filter fun m => d < (m.at_ + m.len + 2 ^ 32 - e.head) % 2 ^ 32 }

/-- EP_HEAD_WRITE (R358): a write to CHN_EP_RING.HEAD of an ungrouped endpoint returns credit, or is discarded. -/
def execEpHeadWrite (p : Nat) (v : W64) (s : State) : Host.Outcome State Fault Refusal :=
  .next (if s.defined p then s.epHead p v else s)

/-! ### OPEN and CLOSE (R351 to R353, R363, R366) -/

/-- Report a channel command (R370). -/
def State.chnResult (s : State) (p code : Nat) : State :=
  (s.setF (Rg.CHN_CMD_RESULT_RESULT p) code).incr (Rg.CHN_CMD_RESULT_COUNT p)

/-- Whether `n` bytes at `a` lie in the LPDDR5X regions of partition `p` or the staging or scratch of its slices (R352). -/
def State.inPart (s : State) (p a n : Nat) : Bool :=
  (checkPoints a n).all fun x => x < windowBase && (s.mayReach p x || (match s.place x with
    | .region g => s.regionOwner g == some p
    | _ => false))

/-- Whether `n` bytes at `a` may hold a ring or window of group `g`: the partition's memory, or the host window for an
endpoint without group or whose group the host owns (R352). -/
def State.chnRange (s : State) (p g a n : Nat) : Bool :=
  s.inPart p a n ||
    ((g == 0xFF || s.fd (Rg.CHN_SEL_CFG_OWNER p g) == 0xFE) && (checkPoints a n).all fun x => windowBase ≤ x && s.mayReach p x)

/-- Whether an endpoint's open record is a BAD_ARG (R351, R352). -/
def State.epArgBad (s : State) (p : Nat) (b : Bytes) : Bool :=
  let lg := fieldAt b 1 1
  let g := fieldAt b 2 1
  let rb := fieldAt b 8 8
  let wb := fieldAt b 16 8
  let ws := fieldAt b 24 4
  !(lg == 0 || inRange lg 12 20) || !(g < 64 || g == 0xFF) || 16 ≤ fieldAt b 3 1 || !allZero (slice b 4 4) ||
    !allZero (slice b 28 36) || (lg == 0 && ws == 0) || ws % 32 != 0 ||
    (lg != 0 && (rb % 2 ^ lg != 0 || !s.chnRange p g rb (2 ^ lg))) ||
    (ws != 0 && (wb % 32 != 0 || !s.chnRange p g wb ws))

/-- Whether `n` bytes at `a` lie in the scratch carve of one slice of partition `p` (R363; 09 R291). -/
def State.inScratch (s : State) (p a n : Nat) : Bool := match s.place a with
  | .slice c off => s.coreOwner c == some p && s.stageBytes p + s.wcacheBytes p ≤ off && off + n ≤ 1048576 * s.var.sliceMiB
  | _ => false

/-- Whether a Churn queue's open record is a BAD_ARG (R363; assumption 53 for NOTIFY). -/
def State.churnArgBad (s : State) (p : Nat) (b : Bytes) : Bool :=
  let n := 4 * fieldAt b 4 2
  let no := fieldAt b 6 2
  1 < fieldAt b 1 1 || !inRange (fieldAt b 2 2) 1 4096 || !inRange (fieldAt b 4 2) 1 16384 ||
    !(no == 0xFFFF || match find? s.endpoints no with
      | some e => e.part == p && !e.closing && e.ringLog2 != 0
      | none => false) ||
    fieldAt b 8 8 % 64 != 0 || !s.inScratch p (fieldAt b 8 8) n || !s.inPart p (fieldAt b 16 8) n || !allZero (slice b 24 40)

/-- A channel object opens under handle `h`. -/
def State.chnOpened (s : State) (p h : Nat) : State := (s.setF (Rg.CHN_CMD_RESULT_HANDLE p) h).chnResult p 0

/-- Open an endpoint (R352). -/
def State.openEp (s : State) (p : Nat) (b : Bytes) : State :=
  let g := fieldAt b 2 1
  if s.epArgBad p b then s.chnResult p 3
  else if s.cfg p 128 2 ≤ (s.epsOf p).length then s.chnResult p 1
  else if 4096 ≤ s.endpoints.length then s.chnResult p 2
  else if g < 64 && 16 ≤ (s.members p g).length then s.chnResult p 5
  else
    let h := freeIdx s.endpoints
    let e : Endpoint := ⟨false, p, fieldAt b 1 1, fieldAt b 8 8, fieldAt b 16 8, fieldAt b 24 4, g, fieldAt b 3 1, 0, 0, 0, [], 0⟩
    State.chnOpened { s with endpoints := ins s.endpoints h e } p h

/-- Open a Churn queue: its accumulator is zeroed (R363). -/
def State.openChurn (s : State) (p : Nat) (b : Bytes) : State :=
  if s.churnArgBad p b then s.chnResult p 3
  else if s.cfg p 130 2 ≤ (s.churns.filter fun c => c.2.part == p).length then s.chnResult p 1
  else if 256 ≤ s.churns.length then s.chnResult p 2
  else
    let q := freeIdx s.churns
    let n := fieldAt b 4 2
    let c : Churn := ⟨p, fieldAt b 1 1, fieldAt b 2 2, n, fieldAt b 6 2, fieldAt b 8 8, fieldAt b 16 8, 0, 0, none, []⟩
    let s : State := { s with churns := ins s.churns q c }
    ((s.devWrite p 1 c.acc (List.replicate (4 * n) 0)).st).chnOpened p q

/-- CHN_CMD OPEN (R351, R352). -/
def State.chnOpen (s : State) (p : Nat) : State :=
  if !s.defined p then s
  else match s.blk p (s.fd (Rg.CHN_CMD_ADDR_ADDR p)) 64 with
    | (none, s) => s.chnResult p 8
    | (some b, s) => match fieldAt b 0 1 with
      | 0 => s.openEp p b
      | 1 => s.openChurn p b
      | _ => s.chnResult p 3

/-- CHN_OPEN (R352): CHN_CMD OPEN reads an open record and opens an endpoint or Churn queue, or fails. -/
def execChnOpen (p : Nat) (s : State) : Host.Outcome State Fault Refusal := .next (s.chnOpen p)

/-- CHN_CMD CLOSE (R353, R366). -/
def State.chnClose (s : State) (p h : Nat) (churn : Bool) : State :=
  if !s.defined p then s
  else if churn then match find? s.churns h with
    | none => s.chnResult p 4
    | some c =>
      if c.part ≠ p then s.chnResult p 4
      else
        let s := { s with churns := del s.churns h }
        let s := s.bump (Rg.CHN_EVENTS_DISCARDED p) (b2n (c.received != 0) + b2n c.notice.isSome)
        (s.pumpAll p).chnResult p 0
  else match find? s.endpoints h with
    | none => s.chnResult p 4
    | some e =>
      if e.part ≠ p || e.closing then s.chnResult p 4
      else ((s.modEp h fun e => { e with closing := true, closeAt := s.now }).pumpAll p).chnResult p 0

/-- CHN_CLOSE (R353): CHN_CMD CLOSE puts an endpoint into CLOSING, or closes a Churn queue. -/
def execChnClose (p handle : Nat) (churn : Bool) (s : State) : Host.Outcome State Fault Refusal :=
  .next (s.chnClose p handle churn)

/-- A write to CHN_CMD: any other OP completes with BAD_OP (R370). -/
def State.chnCmdWrite (s : State) (p : Nat) (v : W64) : State := match bitsOf v.toNat 0 4 with
  | 1 => s.chnOpen p
  | 2 => s.chnClose p (bitsOf v.toNat 16 12) (bitOf v.toNat 28)
  | _ => if s.defined p then s.chnResult p 7 else s

/-- A CLOSING endpoint with no landing left is freed; what it held is discarded (R353). -/
def State.endpointFree (s : State) (h : Nat) : State := match find? s.endpoints h with
  | none => s
  | some e =>
    if !e.closing || s.landings.any (fun l => l.ep == h) then s
    else
      let p := e.part
      let sp := ((s.part p).ports.map fun q => (q.2.spill.filter fun m => m.ep == h && !m.released).length).foldl (· + ·) 0
      let s := s.bump (Rg.CHN_EVENTS_DISCARDED p) (e.msgs.length + sp)
      let s := { s with endpoints := del s.endpoints h }
      let s := s.modPart p fun q => { q with
        ports := q.ports.map fun x => (x.1, { x.2 with
          seqs := del x.2.seqs h, spill := x.2.spill.map fun m => if m.ep == h then { m with released := true } else m })
        groups := q.groups.map fun x => (x.1, { x.2 with handed := x.2.handed.filter fun y => y.ep != h }) }
      (s.part p).ports.foldl (fun s x => s.spillAdvance p x.1) s

/-- ENDPOINT_FREE (R353): a CLOSING endpoint is freed once its started landings have landed. -/
def execEndpointFree (h : Nat) (s : State) : Host.Outcome State Fault Refusal := .next (s.endpointFree h)

/-! ### Churn queues (R364, R365) -/

/-- The port number by which the manager itself sends (R354). -/
def managerPort : Nat := 0xFFFF

/-- Place the notice of a Churn queue if its endpoint has credit; a notice to an endpoint no longer open is discarded. -/
def State.placeNotice (s : State) (q : Nat) : State := match find? s.churns q with
  | none => s
  | some c => match c.notice with
    | none => s
    | some b => match find? s.endpoints c.notify with
      | none => (s.modChurn q fun c => { c with notice := none }).bump (Rg.CHN_EVENTS_DISCARDED c.part)
      | some e =>
        if e.closing || e.part ≠ c.part then (s.modChurn q fun c => { c with notice := none }).bump (Rg.CHN_EVENTS_DISCARDED c.part)
        else match ringFit e.size e.wtail e.head 32 with
          | none => s
          | some skip =>
            let seq := s.seqOf c.part managerPort c.notify
            let s := (s.modChurn q fun c => { c with notice := none }).seqNext c.part managerPort c.notify
            s.landRing c.notify e skip (setField b 4 2 seq) seq managerPort c.part managerPort none

/-- Deliver a round whose contributions have all been added, unless the notice before it still waits (R365). -/
def State.deliverRound (s : State) (q : Nat) : State := match find? s.churns q with
  | none => s
  | some c =>
    if c.received < c.count || c.notice.isSome then s
    else
      let sum := (s.devRead c.part 0 c.acc (4 * c.elems)).data
      let s := (s.devWrite c.part 1 c.out sum).st
      let s := (s.devWrite c.part 1 c.acc (List.replicate (4 * c.elems) 0)).st
      let n := msgBytes 3 1 c.notify 0 managerPort (mkRec 24 [(0, 2, q), (4, 4, c.round), (8, 8, s.time.dev)])
      let s := s.modChurn q fun c => { c with
        received := 0, round := (c.round + 1) % 2 ^ 32, notice := if c.notify = 0xFFFF then none else some n }
      (s.bump (Rg.CHN_WAIT_CHURN_ROUNDS c.part)).placeNotice q

/-- The sum of an accumulator and a contribution, element by element in FP32 (R364). -/
def churnSum (fmt n : Nat) (acc v : Bytes) : Bytes :=
  (List.range n).flatMap fun i =>
    let x := if fmt = 0 then bf16.decode (fieldAt v (2 * i) 2) else num32 (fieldAt v (4 * i) 4)
    toLe 4 (bits32 (add32 (num32 (fieldAt acc (4 * i) 4)) x))

/-- The combiner adds the first waiting contribution of queue `q` (R364). -/
def State.churnAdd (s : State) (q : Nat) : State := match find? s.churns q with
  | none => s
  | some c => match c.waiting with
    | [] => s
    | (n, a, task) :: r =>
      if c.count ≤ c.received then s
      else
        let s := s.modChurn q fun c => { c with waiting := r }
        match s.sendRead c.part n a ((if c.fmt = 0 then 2 else 4) * c.elems) task with
        | (none, s) => s.pump c.part n
        | (some v, s) =>
          let acc := (s.devRead c.part 0 c.acc (4 * c.elems)).data
          let s := (s.devWrite c.part 1 c.acc (churnSum c.fmt c.elems acc v)).st
          let s := (s.modChurn q fun c => { c with received := c.received + 1 }).deliverRound q
          (s.sendDone c.part n 0).pump c.part n

/-- CHURN_ADD (R364): the combiner adds one contribution into a Churn queue's accumulator. -/
def execChurnAdd (q : Nat) (s : State) : Host.Outcome State Fault Refusal := .next (s.churnAdd q)

/-- CHURN_NOTICE_PLACE (R365): a Churn notice waiting for credit is placed, and the next round may write OUT_ADDR. -/
def execChurnNoticePlace (q : Nat) (s : State) : Host.Outcome State Fault Refusal := .next ((s.placeNotice q).deliverRound q)

end Sys2Proof.Machine
end

