-- ==== Sys2Proof/Machine/Ledger.lean ====
section
/-!
DEFINITION. The Guest Ledger (12_guest_ledger.md R375 to R402): entries and their records, retirement, the gate and the
budget, pressure, the forming of steps and their settlement, as operations that the commands share.
-/
namespace Sys2Proof.Machine

/-! ### Entries (R375, R376, R386, R387) -/

/-- Ledger entry `i`. -/
def State.ent (s : State) (i : Nat) : Entry := find (fun _ => Entry.free) s.ledger i

/-- Store ledger entry `i`; a FREE entry is not listed. -/
def State.setEnt (s : State) (i : Nat) (e : Entry) : State :=
  { s with ledger := if e.state = 0 then del s.ledger i else ins s.ledger i e }

/-- Change ledger entry `i`. -/
def State.modEnt (s : State) (i : Nat) (f : Entry → Entry) : State := s.setEnt i (f (s.ent i))

/-- The entries of partition `p` that are not FREE. -/
def State.entsOf (s : State) (p : Nat) : List (Nat × Entry) :=
  let q := s.part p
  s.ledger.filter fun e => q.ledBase ≤ e.1 && e.1 < q.ledBase + q.ledN

/-- FLAGS.HARD_DEADLINE. -/
def Entry.hard (e : Entry) : Bool := bitOf e.flags 0
/-- FLAGS.SPEC. -/
def Entry.spec (e : Entry) : Bool := bitOf e.flags 1
/-- FLAGS.RESULT_STREAM. -/
def Entry.stream (e : Entry) : Bool := bitOf e.flags 2
/-- FLAGS.HOLD. -/
def Entry.hold (e : Entry) : Bool := bitOf e.flags 3
/-- FLAGS.RING. -/
def Entry.ring (e : Entry) : Bool := bitOf e.flags 4
/-- MARKS.CANCEL. -/
def Entry.cancelled (e : Entry) : Bool := bitOf e.marks 0
/-- MARKS.PAUSE. -/
def Entry.pausing (e : Entry) : Bool := bitOf e.marks 1
/-- Whether any of the PRESSURE, HOLD and HOST bits is set. -/
def Entry.held (e : Entry) : Bool := bitsOf e.marks 3 3 != 0
/-- Set bits of MARKS. -/
def Entry.mark (e : Entry) (m : Nat) : Entry := { e with marks := e.marks ||| m }
/-- Clear one bit of MARKS. -/
def Entry.unmark (e : Entry) (b : Nat) : Entry := if bitOf e.marks b then { e with marks := e.marks - 2 ^ b } else e
/-- The device time "none". -/
def noTime : Nat := 2 ^ 64 - 1

/-- The length bucket (R386). -/
def bucketOf (len : Nat) : Nat := if len < 128 then 0 else min 15 (Nat.log2 len - 7)

/-- The rows a request takes in a step (R387). -/
def Entry.need (e : Entry) : Nat := if e.spec then e.length - e.position else min e.chunk (e.length - e.position)

/-- The 128 bytes of an entry (R375). -/
def Entry.bytes (e : Entry) : Bytes :=
  mkRec 128 ([(0, 1, e.state), (1, 1, e.effPrio), (2, 1, e.bucket), (3, 1, e.marks), (4, 2, e.adGen), (6, 1, e.fails),
    (7, 1, e.worst), (8, 8, e.reqId), (16, 2, e.customer), (18, 1, e.prio), (19, 1, e.queue), (20, 2, e.flags),
    (22, 1, e.graph), (24, 2, e.adSlot), (28, 4, e.length), (32, 4, e.position), (36, 4, e.chunk), (40, 8, e.deadline),
    (48, 8, e.pageList), (56, 4, e.budget), (60, 2, e.sink), (62, 2, e.window), (64, 8, e.tokens), (72, 8, e.draft),
    (96, 8, e.outAddr), (104, 1, e.nDests), (108, 4, e.steps), (112, 8, e.admitTime), (120, 8, e.qtime)] ++
    (List.range 4).map fun i => (80 + 4 * i, 4, e.dests.getD i 0))

/-! ### Result records (R381 to R384) -/

/-- A record has been placed in the result ring: a FINAL record frees its entry (R381, R401). -/
def State.rqPlaced (s : State) (b : Bytes) : State :=
  let i := fieldAt b 8 4
  if fieldAt b 12 1 = 3 && (s.ent i).state == 6 then s.setEnt i Entry.free else s

/-- Put a record into the result ring or its holding queue of 256 (R381). -/
def State.rqPut (s : State) (p : Nat) (b : Bytes) : State :=
  let h := (s.part p).rqHold
  if s.ringOpen (rqring p) h then (s.ringWrite p (rqring p) b).rqPlaced b
  else
    let s := s.modPart p fun q => { q with rqHold := h ++ [b] }
    if h.length + 1 = 256 then s.raise (Rg.LDG_IRQ_HOLDING p) else s

/-- Move held result records into the ring while it has room. -/
def State.rqDrain (p : Nat) : List Bytes → State → List Bytes × State
  | [], s => ([], s)
  | b :: t, s => if s.ringFull (rqring p) then (b :: t, s) else State.rqDrain p t ((s.ringWrite p (rqring p) b).rqPlaced b)

/-- A result record (R382). `st` is the step and the request's rows in it, if the event is of a step. -/
def Entry.record (e : Entry) (i kind status sub reason : Nat) (st : Option (Nat × Nat)) (time : Nat) : Bytes :=
  let spec := e.spec && kind == 2
  mkRec 64 [(0, 8, e.reqId), (8, 4, i), (12, 1, kind), (13, 1, status), (14, 1, subFor status sub),
    (15, 1, if spec then e.accepted else 0), (16, 4, e.position), (20, 4, if spec then e.next else 0xFFFF_FFFF),
    (24, 4, match st with | some x => x.1 | none => 0xFFFF_FFFF), (28, 1, e.graph), (29, 1, reason), (32, 8, time),
    (40, 8, e.outAddr), (48, 4, match st with | some x => x.2 | none => 0), (52, 4, if kind = 3 then e.exported else 0)]

/-- Write a result record of entry `i` (R382); the sub-code of a flagged status is free (assumption 57). -/
def State.report (s : State) (p i : Nat) (e : Entry) (kind status reason : Nat) (st : Option (Nat × Nat)) : State :=
  let b := e.record i kind status (s.freeVal % 4) reason st s.time.dev
  (if status = stFlagged then s.freeNext else s).rqPut p b

/-- The STATUS of an ADMIT or COMMAND record by its REASON (R384). -/
def reasonStatus (r : Nat) : Nat := if r = 0 then stDone else if r = 3 then stLength else stDisabled

/-! ### Retirement (R401) -/

/-- Release every page of a list that a slot names: an UNREF each (R401; 08 R259, R274). -/
def State.releaseList (s : State) (p list : Nat) : State := match s.listHdr p list with
  | (.error _, s) => s
  | (.ok h, s) =>
    let k := s.poolCluster p
    (List.range h.layers).foldl (fun s l => (List.range h.heads).foldl (fun s hd =>
      let r := s.streamPages p s.taskNext k h list l hd
      r.1.foldl (fun s x => s.unref x.2.2) r.2) s) s

/-- Drop an entry's adapter binding (R405). -/
def State.dropAdapter (s : State) (p : Nat) (e : Entry) : State :=
  if e.adSlot = 0xFFFF then s
  else s.modPart p fun q => { q with adapters := match find? q.adapters e.adSlot with
    | some a => ins q.adapters e.adSlot { a with counts := ins a.counts e.adGen (find (fun _ => 0) a.counts e.adGen - 1) }
    | none => q.adapters }

/-- Entry `i` retires with a status (R401): DONE, its pages and adapter released, its FINAL record written. -/
def State.retire (s : State) (p i status : Nat) (st : Option (Nat × Nat)) : State :=
  let e := { s.ent i with state := 6 }
  let s := ((s.setEnt i e).releaseList p e.pageList).dropAdapter p e
  let final := statusMax e.worst status
  let s := if final = stLate then s.bump (Rg.LDG_EVENTS_LATE p) else s
  let s := if status = stDropped then s.bump (Rg.LDG_EVENTS_DROPPED p) else s
  s.report p i e 3 final 0 st

/-! ### Pausing (R394, R395) -/

/-- Entry `i` enters PAUSED (R385). -/
def State.enterPaused (s : State) (p i status : Nat) (st : Option (Nat × Nat)) : State :=
  let e := { (s.ent i).unmark 1 with state := 4, charge := 0 }
  ((s.setEnt i e).bump (Rg.LDG_EVENTS_PAUSED p)).report p i e 4 status 0 st

/-- The times at which the pressure conditions of R394 begin to hold, for the entries of partition `p` as they stand: zero
for a low page pool. -/
def State.pressureTimes (s : State) (p : Nat) : List Nat :=
  let hi := s.fd (Rg.LDG_PAUSE_CFG_PRIO_HI p)
  let wait := s.fd (Rg.LDG_PAUSE_CFG_WAIT_US p) * 1000
  let slack := s.fd (Rg.LDG_PAUSE_CFG_SLACK_US p) * 1000
  let th := s.fd (Rg.LDG_PAGE_LOW_THRESHOLD p)
  let pool := if s.on (Rg.LDG_PAUSE_CFG_POOL_LOW p) && th != 0 && s.poolFree p < th then [0] else []
  pool ++ ((s.entsOf p).filter fun x => x.2.state == 2).flatMap fun x =>
    (if x.2.effPrio % 16 ≤ hi then [x.2.qtime + wait + 1] else []) ++
      (if x.2.deadline = noTime then [] else [x.2.deadline + 1 - slack])

/-- Whether pressure holds (R394). -/
def State.pressure (s : State) (p : Nat) : Bool := (s.pressureTimes p).any fun t => t ≤ s.time.dev

/-- Whether pressure pauses an entry (R394). -/
def State.pressed (s : State) (p : Nat) (e : Entry) : Bool :=
  let lo := s.fd (Rg.LDG_PAUSE_CFG_PRIO_LO p)
  s.fd (Rg.LDG_PAUSE_CFG_PRIO_HI p) < lo && lo ≤ e.effPrio % 16

/-! ### The budget and the gate (R392, R393) -/

/-- Whether partition `p` is in budget mode. -/
def State.budgeting (s : State) (p : Nat) : Bool := s.on (Rg.LDG_CTRL_BUDGET p)

/-- A customer's budget: RATE, BURST, LEVEL, STAMP. -/
structure Budget where
  rate : Nat
  burst : Nat
  level : Nat
  stamp : Nat
deriving DecidableEq, Repr

/-- Device time in µs, modulo 2^32. -/
def State.stampNow (s : State) : Nat := s.time.dev / 1000 % 2 ^ 32

/-- A customer's budget record, or the default (R393). -/
def State.budgetOf (s : State) (p c : Nat) : Budget × State :=
  let base := s.fd (Rg.LDG_BUDGET_BASE_BASE p)
  let dr := s.fd (Rg.LDG_BUDGET_DEFAULT_RATE p)
  let db := s.fd (Rg.LDG_BUDGET_DEFAULT_BURST p)
  if base = 0 then
    let x := find (fun _ => (0, 0)) (s.part p).levels c
    (⟨dr, db, x.1, x.2⟩, s)
  else
    let r := s.devRead p 0 (base + 16 * c) 16
    let d := r.data
    (⟨if fieldAt d 0 4 = 0 then dr else fieldAt d 0 4, if fieldAt d 0 4 = 0 then db else fieldAt d 4 4, fieldAt d 8 4, fieldAt d 12 4⟩, r.st)

/-- The level now: filled at RATE up to BURST; BURST for a customer not used since the budget period began (R393). -/
def State.levelNow (s : State) (p : Nat) (b : Budget) : Nat :=
  let el := (s.stampNow + 2 ^ 32 - b.stamp) % 2 ^ 32
  if (s.time.dev - s.fd (Rg.LDG_BUDGET_START_START p)) / 1000 < el then b.burst
  else min b.burst (b.level + b.rate * el / 1000)

/-- Store a customer's level with the time of the update. -/
def State.setLevel (s : State) (p c level : Nat) : State :=
  let base := s.fd (Rg.LDG_BUDGET_BASE_BASE p)
  if base = 0 then s.modPart p fun q => { q with levels := ins q.levels c (level, s.stampNow) }
  else (s.devWrite p 1 (base + 16 * c + 8) (toLe 4 level ++ toLe 4 s.stampNow)).st

/-- Entry `i` passes the gate to QUEUED, having paid `charge`. -/
def State.passGate (s : State) (i charge : Nat) : State :=
  s.modEnt i fun e => { e with state := 2, qtime := s.time.dev, charge := charge, gated := false }

/-- Entry `i` is held at the gate; the first time in its wait counts (R413). -/
def State.holdGate (s : State) (p i : Nat) : State :=
  let s := if (s.ent i).gated then s else s.bump (Rg.LDG_STEPS_BUDGET_GATED p)
  s.modEnt i fun e => { e with gated := true }

/-- Whether entry `i` is the first of its customer's ADMITTED entries by ADMIT_TIME (R393). -/
def State.firstAdmitted (s : State) (p i : Nat) : Bool :=
  let e := s.ent i
  (s.entsOf p).all fun x => x.2.state != 1 || x.2.customer != e.customer || x.1 == i ||
    e.admitTime < x.2.admitTime || (e.admitTime == x.2.admitTime && i < x.1)

/-- Try the gate for ADMITTED entry `i` (R393). -/
def State.gate (s : State) (p i : Nat) : State :=
  let e := s.ent i
  if e.state ≠ 1 then s
  else if !s.budgeting p then s.passGate i 0
  else if !s.firstAdmitted p i then s.holdGate p i
  else
    let (b, s) := s.budgetOf p e.customer
    let l := s.levelNow p b
    if e.need ≤ l then (s.setLevel p e.customer (l - e.need)).passGate i e.need
    else (s.setLevel p e.customer l).holdGate p i

/-- Entry `i` enters ADMITTED and reaches the gate; under pressure it may pause at once (R385, R393, R394). -/
def State.toGate (s : State) (p i : Nat) : State :=
  let s := s.modEnt i fun e => { e with state := 1, qtime := s.time.dev, gated := false, charge := 0 }
  if s.pressure p && s.pressed p (s.ent i) then (s.modEnt i fun e => e.mark 8).enterPaused p i stDone none
  else s.gate p i

/-- A PAUSED entry with no pause bit left leaves PAUSED: for the gate, or RUNNING for a RING entry (R379, R400). -/
def State.unpause (s : State) (p i : Nat) : State :=
  let e := s.ent i
  if e.state ≠ 4 || e.held then s
  else if e.ring then s.modEnt i fun e => { e with state := 3 }
  else s.toGate p i

/-! ### Forming a step (R388) -/

/-- The schedule of graph `tag`. -/
def State.schedOf (s : State) (p tag : Nat) : Sched := find (fun _ => Sched.init) (s.part p).sched tag

/-- Change the schedule of graph `tag`. -/
def State.modSched (s : State) (p tag : Nat) (f : Sched → Sched) : State :=
  s.modPart p fun q => { q with sched := ins q.sched tag (f (find (fun _ => Sched.init) q.sched tag)) }

/-- The queue order (R387). -/
def queueLt (a b : Nat × Entry) : Bool :=
  a.2.effPrio < b.2.effPrio || (a.2.effPrio == b.2.effPrio && (a.2.qtime < b.2.qtime ||
    (a.2.qtime == b.2.qtime && a.1 < b.1)))

/-- The first in queue order. -/
def queueFirst (xs : List (Nat × Entry)) : Option (Nat × Entry) :=
  xs.foldl (fun b x => match b with
    | none => some x
    | some y => if queueLt x y then some x else some y) none

/-- The selection loop's running values. -/
structure Draw where
  rows : Nat
  last : Nat
  deficit : SMap Nat
  rest : List (Nat × Entry)
  taken : List Taken
  specs : Nat
deriving DecidableEq, Repr

/-- A queue's deficit. -/
def Draw.of (d : Draw) (q : Nat) : Nat := find (fun _ => 0) d.deficit q

/-- Take entries of bucket `b` of queue `q` while the deficit and the step have room: `n` at most. -/
def drawTake (b q rowsMax : Nat) : Nat → Draw → Draw
  | 0, d => d
  | n + 1, d =>
    match queueFirst (d.rest.filter fun x => x.2.queue == q && x.2.bucket == b) with
    | none => d
    | some (i, e) =>
      if e.need ≤ d.of q && d.rows + e.need ≤ rowsMax && (!e.spec || d.specs < 4096) then
        drawTake b q rowsMax n { d with
          rows := d.rows + e.need, last := q, deficit := ins d.deficit q (d.of q - e.need)
          rest := d.rest.filter fun x => x.1 != i, taken := d.taken ++ [⟨i, e.need, q⟩], specs := d.specs + b2n e.spec }
      else d

/-- One visit to a queue. -/
def drawQueue (b rowsMax : Nat) (credit : Nat → Nat) (d : Draw) (q : Nat) : Draw :=
  let none_ (d : Draw) : Bool := d.rest.all fun x => x.2.queue != q
  if none_ d then { d with deficit := ins d.deficit q 0 }
  else if d.rest.all fun x => x.2.queue != q || x.2.bucket != b then d
  else
    let d := drawTake b q rowsMax d.rest.length { d with deficit := ins d.deficit q (d.of q + credit q) }
    if none_ d then { d with deficit := ins d.deficit q 0 } else d

/-- One pass over the 64 queues from `q0`. -/
def drawPass (b q0 rowsMax : Nat) (credit : Nat → Nat) (d : Draw) : Draw :=
  (List.range 64).foldl (fun d i => drawQueue b rowsMax credit d ((q0 + i) % 64)) d

/-- Passes until a row is taken or nothing of the bucket is left: `n` at most. -/
def drawLoop (b q0 rowsMax : Nat) (credit : Nat → Nat) : Nat → Draw → Draw
  | 0, d => d
  | n + 1, d =>
    let d := drawPass b q0 rowsMax credit d
    if d.rows = 0 && d.rest.any (fun x => x.2.bucket == b) then drawLoop b q0 rowsMax credit n d else d

/-- The bucket of the first QUEUED entry of the first queue from `q0` that has one. -/
def firstBucket (q0 : Nat) (xs : List (Nat × Entry)) : Nat :=
  match ((List.range 64).map fun i => (q0 + i) % 64).findSome? fun q => queueFirst (xs.filter fun x => x.2.queue == q) with
  | some x => x.2.bucket
  | none => 0

/-- Whether the Guest Ledger may form a step for graph `g` of partition `p` (R381, R388; 10 R330, R342; 17 R535). -/
def State.mayForm (s : State) (p : Nat) (g : Graph) : Bool :=
  s.live p && (s.part p).rqHold.length < 256 && !s.on (Rg.DSP_CTRL_HALT p) && !g.broken && g.unloadAt.isNone &&
    (match g.run with | some r => r.endAt.isSome && r.settled | none => true)

/-! ### The step block (R389, R399, R406) -/

/-- The entries of a formed step with the first row of each. -/
def Sched.firstRows (x : Sched) : List (Taken × Nat) :=
  (x.taken.foldl (fun (a : List (Taken × Nat) × Nat) t => (a.1 ++ [(t, a.2)], a.2 + t.need)) ([], 0)).1

/-- The step block of a formed step (10 R319). -/
def State.stepBlock (s : State) (x : Sched) : Bytes :=
  let dl := x.taken.foldl (fun m t => min m (s.ent t.entry).deadline) noTime
  mkRec 32 [(4, 4, x.rows), (8, 4, x.taken.length), (12, 1, x.bucket), (16, 8, dl)] ++
    x.taken.flatMap fun t => (List.range t.need).flatMap fun j => toLe 4 ((s.ent t.entry).position + j) ++ toLe 4 t.entry

/-- The adapter buffer of an entry (R406). -/
def State.bufferOf (s : State) (p : Nat) (e : Entry) : Nat :=
  if e.adSlot = 0xFFFF then 2 * s.cfg p 132 2 else 2 * e.adSlot + e.adGen % 2

/-- Write the verification records of a formed step and their number (R399; 07 R241). -/
def State.writeVerify (s : State) (p ext : Nat) (x : Sched) : State :=
  let r := s.devRead p 0 ext 32
  let vrec := fieldAt r.data 16 8
  let ts := x.firstRows.filter fun t => (s.ent t.1.entry).spec
  let s := ts.zipIdx.foldl (fun s t =>
    let e := s.ent t.1.1.entry
    let d := s.devRead p 0 e.draft 192
    let b := mkRec 32 [(0, 4, t.1.1.entry), (4, 4, t.1.2), (8, 1, e.length - e.position - 1)] ++ d.data ++ List.replicate 32 0
    (d.st.devWrite p 1 (vrec + 256 * t.2) b).st) r.st
  (s.devWrite p 1 (ext + 24) (toLe 2 ts.length)).st

/-- Close a step: the Guest Ledger writes what R389 names, and the trigger is due. -/
def State.closeStep (s : State) (p tag : Nat) : State := match s.graph? p tag with
  | none => s
  | some g =>
    let x := s.schedOf p tag
    let s := (s.devWrite p 1 g.stepAddr (s.stepBlock x)).st
    let ad := s.fd (Rg.LDG_GRAPH_ADAPT_ADDR p tag)
    let s := if ad = 0 then s else
      (s.devWrite p 1 ad (x.taken.flatMap fun t =>
        (List.replicate t.need (toLe 4 (s.bufferOf p (s.ent t.entry)))).flatten)).st
    let ve := s.fd (Rg.LDG_GRAPH_VERIFY_ADDR p tag)
    let s := if ve = 0 then s else s.writeVerify p ve x
    (s.modSched p tag fun x => { x with openSince := none }).bump (Rg.LDG_STEPS_FORMED p)

/-- Form a step for graph `tag`, or add to its open step (R388, R390; 04 R142). -/
def State.formStep (s : State) (p tag : Nat) : State := match s.graph? p tag with
  | none => s
  | some g =>
    let x := s.schedOf p tag
    let q := (s.entsOf p).filter fun e => e.2.state == 2 && e.2.graph == tag && !e.2.ring
    let open_ := x.openSince.isSome
    if !s.mayForm p g || q.isEmpty || (!x.taken.isEmpty && !open_) then s
    else
      let b := if open_ then x.bucket else firstBucket x.q0 q
      let quantum := max 1 (s.fd (Rg.LDG_CFG_QUANTUM p))
      let credit (k : Nat) : Nat := s.fd (Rg.LDG_QUEUE_WEIGHT p k) * quantum
      let old := if open_ then x.taken else []
      let d := drawLoop b x.q0 g.rowsMax credit (g.rowsMax + 1)
        ⟨if open_ then x.rows else 0, x.q0, x.deficit, q, [], (old.filter fun t => (s.ent t.entry).spec).length⟩
      let first := d.taken.foldl (fun m t => min m (s.ent t.entry).qtime) (x.openSince.getD noTime)
      let s := d.taken.foldl (fun s t => s.modEnt t.entry fun e => { e with state := 3 }) s
      let s := s.modSched p tag fun x => { x with
        q0 := (d.last + 1) % 64, deficit := d.deficit, bucket := b, rows := d.rows, taken := old ++ d.taken
        openSince := if g.batched && !(old ++ d.taken).isEmpty then some first else none }
      if (old ++ d.taken).isEmpty then s
      else if g.batched && d.rows < 32 * s.var.arrays then s
      else s.closeStep p tag

/-- Entry `i` has become QUEUED, if it passed the gate: its graph may form a step (R388). -/
def State.formFor (s : State) (p i : Nat) : State :=
  let e := s.ent i
  if e.state = 2 then s.formStep p e.graph else s

/-- The requests of a step that did not start return to QUEUED; deficits and budget charges are restored (R391). -/
def State.returnStep (s : State) (p tag : Nat) : State :=
  let x := s.schedOf p tag
  let s := x.taken.foldl (fun s t =>
    let e := s.ent t.entry
    let s := if e.charge = 0 then s
      else
        let (b, s) := s.budgetOf p e.customer
        s.setLevel p e.customer (min b.burst (s.levelNow p b + e.charge))
    let s := s.modEnt t.entry fun e => { e with state := 2, charge := 0 }
    s.modSched p tag fun x => { x with deficit := ins x.deficit t.queue (find (fun _ => 0) x.deficit t.queue + t.need) }) s
  (s.modSched p tag fun x => { x with taken := [], rows := 0, openSince := none }).bump (Rg.LDG_STEPS_RETURNED p)

/-! ### The step end (R396, R399, R400) -/

/-- What settling decides for one request: it retires with a status, or is complete, pauses, or goes on. -/
inductive After
  | retire (status : Nat)
  | complete (status : Nat)
  | hold (status : Nat)
  | pause (status : Nat)
  | gate
deriving DecidableEq, Repr

/-- Apply an EXTEND that waited for the step end (R379). -/
def Entry.extended (e : Entry) : Entry := match e.pendLen with
  | some (n, d) => { e with length := n, draft := if e.spec then d else e.draft, bucket := bucketOf n, pendLen := none }
  | none => e

/-- Settle one request of a step of status `st` that ended at `t` with `need` rows: the entry, its status, what follows
(R396). A RING request is settled from row 4 onward and keeps its POSITION (R400). -/
def Entry.settle (e : Entry) (st t need retryMax : Nat) : Entry × Nat × After :=
  let e := { e with charge := 0 }
  if !e.ring && st = stQuota then
    let e := { e.extended with fails := min 255 (e.fails + 1) }
    if retryMax ≤ e.fails || e.cancelled then (e, stQuota, .retire stQuota)
    else (e, stQuota, if e.pausing then .pause stQuota else .gate)
  else if !e.ring && 0x10 ≤ st then (e, st, .retire st)
  else
    let late := e.deadline < t
    let own := statusMax (if st = stFlagged then stFlagged else stDone)
      (statusMax (if late then stLate else stDone) (if e.cancelled then stDropped else stDone))
    let e := { e with
      position := if e.ring || e.spec then e.position else e.position + need
      length := if e.spec then e.position else e.length
      fails := 0, steps := (e.steps + 1) % 2 ^ 32, worst := statusMax e.worst own }
    let e := e.extended
    if e.cancelled then (e, own, .retire own)
    else if late && e.hard then (e, own, .retire own)
    else
      let e := if late then { e.mark 4 with effPrio := 15 } else e
      if e.finish then ({ e with finish := false }, own, .complete own)
      else if e.position = e.length then (if e.hold then (e.mark 16, own, .hold own) else (e, own, .complete own))
      else if e.pausing then (e, own, .pause own)
      else (e, own, .gate)

/-- Act on what settling decided for entry `i` of step `st` (number, rows). -/
def State.afterSettle (s : State) (p i : Nat) (a : After) (st : Nat × Nat) : State := match a with
  | .retire x => s.retire p i x (some st)
  | .complete x =>
    if 0 < (s.ent i).nDests then s.modEnt i fun e => { e.unmark 1 with state := 5 } else s.retire p i x (some st)
  | .hold x => s.enterPaused p i x (some st)
  | .pause x => s.enterPaused p i x (some st)
  | .gate => if (s.ent i).ring then s else s.toGate p i

/-- Settle the requests `ts` (entry, rows) of a step: first every STEP record, then what follows for each (R383, R396). -/
def State.settleAll (s : State) (p step st t : Nat) (ts : List (Nat × Nat)) : State :=
  let retry := max 1 (s.fd (Rg.LDG_CFG_RETRY_MAX p))
  let r := ts.foldl (fun (a : State × List (Nat × Nat × After)) x =>
    let y := (a.1.ent x.1).settle st t x.2 retry
    let s := a.1.setEnt x.1 y.1
    let s := if st = stQuota && y.2.2 != .retire stQuota then s.bump (Rg.LDG_EVENTS_QUOTA_RETRY p) else s
    let s := if y.1.stream then s.report p x.1 y.1 2 y.2.1 0 (some (step, x.2)) else s
    (s, a.2 ++ [(x.1, x.2, y.2.2)])) (s, [])
  r.2.foldl (fun s x => s.afterSettle p x.1 x.2.2 (step, x.2.1)) r.1

/-- The RING entries that the rows of a RUN step name, each with its rows (R400). -/
def State.ringRows (s : State) (p : Nat) (g : Graph) (rows : Nat) : List (Nat × Nat) :=
  let d := (s.devRead p 0 (g.stepAddr + 32) (8 * rows)).data
  let es := (List.range rows).map fun j => fieldAt d (8 * j + 4) 4
  ((s.entsOf p).filter fun x => x.2.state == 3 && x.2.ring && es.contains x.1).map fun x =>
    (x.1, (es.filter fun e => e == x.1).length)

/-- The Guest Ledger settles the latest step of graph `tag`, if it has ended and is not settled (R396, R400; 10 R342). -/
def State.settleStep (s : State) (p tag : Nat) : State := match s.graph? p tag with
  | none => s
  | some g => match g.run with
    | none => s
    | some r => match r.endAt with
      | none => s
      | some t =>
        if r.settled then s
        else
          let ts := if r.source = 0 then (s.schedOf p tag).taken.map fun x => (x.entry, x.need) else s.ringRows p g r.rows
          let s := s.modGraph p tag fun g => { g with run := g.run.map fun r => { r with settled := true } }
          let s := if r.source = 0 then s.modSched p tag fun x => { x with taken := [], rows := 0, openSince := none } else s
          (s.settleAll p r.step r.worst t ts).finishUnload p tag

/-- Settle the latest step and form the next for every graph with QUEUED requests (R388, R396). -/
def State.stepSettle (s : State) (p tag : Nat) : State :=
  if !s.live p then s
  else (s.settleStep p tag).formStep p tag

/-! ### Steps of the ledger and RUN (10 R318, R346) -/

/-- Whether the previous step of a graph has ended. -/
def Graph.idle (g : Graph) : Bool := match g.run with
  | some r => r.endAt.isSome
  | none => true

/-- The Guest Ledger's trigger of a formed step (10 R318); one that does not start returns its requests (R391). -/
def State.ledgerTrigger (s : State) (p tag : Nat) : State := match s.graph? p tag with
  | none => s
  | some g =>
    let x := s.schedOf p tag
    if !s.live p || x.taken.isEmpty || x.openSince.isSome || !g.idle || s.endHeld p tag || (g.run.any fun r => !r.settled) then s
    else if s.on (Rg.DSP_CTRL_HALT p) || g.unloadAt.isSome || g.broken then s.returnStep p tag
    else match s.triggerStep p tag 0 with
      | (true, s) => s
      | (false, s) => s.returnStep p tag

/-- Read and check the block of a RUN command: its bytes, or the result code that refuses it (10 R319, R346). -/
def State.runBlock (s : State) (p : Nat) (g : Graph) : Except Nat Bytes × State :=
  let a := s.fd (Rg.DSP_CMD_ADDR_ADDR p)
  match s.blk p a 32 with
  | (none, s) => (.error 7, s)
  | (some h, s) =>
    let rows := fieldAt h 4 4
    if g.rowsMax < rows then (.error 10, s)
    else match (if rows = 0 then (some [], s) else s.blk p (a + 32) (8 * rows)) with
      | (none, s) => (.error 7, s)
      | (some b, s) =>
        if 65536 < fieldAt h 8 4 || fieldAt h 12 1 != 0xFF || fieldAt h 13 1 != 1 || fieldAt h 14 2 != 0 || fieldAt h 24 8 != 0
        then (.error 10, s) else (.ok (h ++ b), s)

/-- DSP_CMD RUN of tag `tag` (10 R318, R346). -/
def State.dspRun (s : State) (p tag : Nat) : State :=
  if !s.live p then s
  else match s.graph? p tag with
    | none => s.dspDone p 5 0
    | some g =>
      let x := s.schedOf p tag
      if g.broken then s.dspDone p 5 0
      else if s.on (Rg.DSP_CTRL_HALT p) || g.unloadAt.isSome then s.dspDone p 6 0
      else if !g.idle || s.endHeld p tag || (!x.taken.isEmpty && x.openSince.isNone && (g.run.all fun r => r.settled)) then s.dspDone p 4 0
      else match (s.settleStep p tag).runBlock p g with
        | (.error c, s) => s.dspDone p c 0
        | (.ok b, s) =>
          let s := if s.fd (Rg.DSP_CMD_ADDR_ADDR p) = g.stepAddr then s else (s.devWrite p 1 g.stepAddr b).st
          match s.triggerStep p tag 1 with
          | (true, s) => s.dspDone p 0 0
          | (false, s) => (s.raise (Rg.DSP_IRQ_CMD_DONE p)).incr (Rg.DSP_CMD_RESULT_COUNT p)

end Sys2Proof.Machine
end

