-- ==== Sys2Proof/Machine/LedgerCmds.lean ====
section
/-!
DEFINITION. The commands of the Guest Ledger (12_guest_ledger.md R376 to R416; 04_tensor_arrays.md R142): submission, the
gate, batches, budget mode, pressure, deadlines, the ledger's reads, and the steering adapters.
-/
namespace Sys2Proof.Machine

/-- The clock goes on until device time is `t` or later (assumption 31). -/
def State.passDev (s : State) (t : Nat) : State := s.pass (t - s.time.dev)

/-- Form a step for every graph of partition `p` that can take one. -/
def State.formAll (s : State) (p : Nat) : State := (s.part p).graphs.foldl (fun s e => s.formStep p e.1) s

/-! ### Steps (10 R318; 12 R396) -/

/-- DSP_RUN (10 R318): DSP_CMD RUN copies a step block to STEP_ADDR and triggers a step of the graph. -/
def execDspRun (p tag : Nat) (s : State) : Host.Outcome State Fault Refusal := .next (s.dspRun p tag)

/-- LEDGER_STEP_TRIGGER (10 R318): the formed step is triggered at the Dispatcher with its next step number. -/
def execLedgerStepTrigger (p tag : Nat) (s : State) : Host.Outcome State Fault Refusal := .next (s.ledgerTrigger p tag)

/-- STEP_SETTLE (R396): the Guest Ledger settles each request of the step that ended. -/
def execStepSettle (p tag : Nat) (s : State) : Host.Outcome State Fault Refusal := .next (s.stepSettle p tag)

/-- Entry `e` of a live partition at the gate, and its graph's next step (R388, R393). -/
def State.gatePass (s : State) (e : Nat) : State :=
  let p := s.ledgerOwner e
  if !s.live p then s else (s.gate p e).formFor p e

/-- GATE_PASS (R393): an ADMITTED entry passes the gate to QUEUED when budget allows, and a step may then form. -/
def execGatePass (e : Nat) (s : State) : Host.Outcome State Fault Refusal := .next (s.gatePass e)

/-! ### Submission (R377 to R384) -/

/-- The submission ring's size. -/
def State.sqSize (s : State) (p : Nat) : Nat := 2 ^ s.fd (Rg.LDG_SQ_CFG_LOG2 p)

/-- A write to LDG_SQ_TAIL (R377): one that moves backward, or more than the ring's size past HEAD, is ignored. -/
def State.sqTail (s : State) (p : Nat) (v : W64) : State :=
  if !s.defined p then s
  else
    let h := s.fd (Rg.LDG_SQ_HEAD_HEAD p)
    let n := bitsOf v.toNat 0 32
    let d := (n + 2 ^ 32 - h) % 2 ^ 32
    let cur := (s.fd (Rg.LDG_SQ_TAIL_TAIL p) + 2 ^ 32 - h) % 2 ^ 32
    if d < cur || s.sqSize p < d then s.raise (Rg.LDG_IRQ_SQ_BAD p) else s.setF (Rg.LDG_SQ_TAIL_TAIL p) n

/-- LDG_SQ_TAIL_WRITE (R377): a write to LDG_SQ_TAIL hands new submission records to the Guest Ledger, or sets SQ_BAD. -/
def execLdgSqTailWrite (p : Nat) (v : W64) (s : State) : Host.Outcome State Fault Refusal := .next (s.sqTail p v)

/-- The submitted fields of a record of R378. -/
def Entry.ofSubmit (b : Bytes) : Entry := { Entry.free with
  reqId := fieldAt b 8 8, customer := fieldAt b 16 2, prio := fieldAt b 18 1, queue := fieldAt b 19 1
  flags := fieldAt b 20 2, graph := fieldAt b 22 1, adSlot := fieldAt b 24 2, length := fieldAt b 28 4
  position := fieldAt b 32 4, chunk := fieldAt b 36 4, deadline := fieldAt b 40 8, pageList := fieldAt b 48 8
  budget := fieldAt b 56 4, sink := fieldAt b 60 2, window := fieldAt b 62 2, tokens := fieldAt b 64 8
  draft := fieldAt b 72 8, dests := (List.range 4).map fun i => fieldAt b (80 + 4 * i) 4
  outAddr := fieldAt b 96 8, nDests := fieldAt b 104 1 }

/-- Whether a SUBMIT record sets a reserved bit or code (R375, R378, R380). -/
def submitReserved (b : Bytes) : Bool :=
  let e := Entry.ofSubmit b
  !allZero (slice b 1 3) || !allZero (slice b 23 1) || !allZero (slice b 26 2) || !allZero (slice b 105 23) ||
    16 ≤ e.prio || 32 ≤ e.flags || 2 ^ 23 ≤ e.length || 2 ^ 23 ≤ e.position || 16 ≤ e.graph ||
    e.dests.any fun d => 2 ^ 17 ≤ d

/-- Check 2 of R380; the upper bound of CHUNK needs the graph resident (assumption 58). -/
def State.submitBad (s : State) (p : Nat) (b : Bytes) : Bool :=
  let e := Entry.ofSubmit b
  let verify := s.fd (Rg.LDG_GRAPH_VERIFY_ADDR p e.graph) != 0
  submitReserved b || 64 ≤ e.queue || 4 < e.nDests || e.length < e.position || e.length < 1 || e.chunk < 1 ||
    (match s.graph? p e.graph with
      | some g => g.rowsMax < e.chunk
      | none => false) ||
    verify != e.spec || (e.spec && !inRange (e.length - e.position) 1 17) || (e.ring && e.spec)

/-- Bytes of a page list (R260). -/
def ListHdr.bytes (h : ListHdr) : Nat := 32 + 4 * (h.layers * h.heads * h.blocks * h.halves)

/-- Check 5 of R380: the page list, or XFER_ERROR when its header cannot be read (R384). -/
def State.submitList (s : State) (p list : Nat) : Nat × State :=
  if !s.ownRange p list 32 then (5, s)
  else match s.blk p list 32 with
    | (none, s) => (10, s)
    | (some b, s) =>
      let h := ListHdr.ofBytes b
      (if h.ok && s.ownRange p list h.bytes then 0 else 5, s)

/-- The lowest FREE entry of partition `p`, while its quota in force allows one (R376, R379; 02 R65). -/
def State.freeEntry (s : State) (p : Nat) : Option Nat :=
  let q := s.part p
  if s.cfg p 116 4 ≤ (s.entsOf p).length then none
  else (List.range (min q.ledN ((s.entsOf p).length + 1))).findSome? fun i =>
    if (find? s.ledger (q.ledBase + i)).isSome then none else some (q.ledBase + i)

/-- The checks of R380 in their order: the reason, 0 for OK. -/
def State.submitCheck (s : State) (p : Nat) (b : Bytes) : Nat × State :=
  let e := Entry.ofSubmit b
  if s.on (Rg.LDG_CTRL_HALT p) then (1, s)
  else if s.submitBad p b then (2, s)
  else if 4194304 < e.length then (3, s)
  else if (match s.graph? p e.graph with | some g => g.broken | none => true) then (4, s)
  else match s.submitList p e.pageList with
    | (0, s) =>
      let adOk := e.adSlot == 0xFFFF || (match find? (s.part p).adapters e.adSlot with
        | some a => a.customer == some e.customer && a.cur != 0
        | none => false)
      if !adOk then (6, s) else if (s.freeEntry p).isNone then (7, s) else (0, s)
    | (r, s) => (r, s)

/-- The record of a command that was not acted on and whose entry's fields it does not carry: free values stand for the
fields of an entry it does not have (R382, assumption 59). -/
def State.bareRecord (s : State) (p : Nat) (b : Bytes) (kind reason : Nat) (entry : Option Nat) : State :=
  let f := s.freeVal
  let e := { Entry.free with reqId := fieldAt b 8 8, graph := fieldAt b 22 1, outAddr := fieldAt b 96 8, position := f % 2 ^ 23 }
  State.rqPut s.freeNext p (e.record (entry.getD (f / 2 ^ 23 % 2 ^ 32)) kind (reasonStatus reason) 0 reason none s.time.dev)

/-- Bind an adapter generation at admission (R405). -/
def State.bindAdapter (s : State) (p : Nat) (slot : Nat) : State :=
  s.modPart p fun q => { q with adapters := match find? q.adapters slot with
    | some a => ins q.adapters slot { a with counts := ins a.counts a.cur (find (fun _ => 0) a.counts a.cur + 1) }
    | none => q.adapters }

/-- The current generation of a slot. -/
def State.curGen (s : State) (p slot : Nat) : Nat := match find? (s.part p).adapters slot with
  | some a => a.cur
  | none => 0

/-- A SUBMIT record (R380, R385). -/
def State.submit (s : State) (p : Nat) (b : Bytes) : State := match s.submitCheck p b with
  | (0, s) => match s.freeEntry p with
    | none => s
    | some i =>
      let e := Entry.ofSubmit b
      let gen := if e.adSlot = 0xFFFF then 0 else s.curGen p e.adSlot
      let e := { e with
        state := if e.ring then 3 else 1, effPrio := e.prio, bucket := bucketOf e.length, adGen := gen
        admitTime := s.time.dev, qtime := s.time.dev }
      let s := if e.adSlot = 0xFFFF then s else s.bindAdapter p e.adSlot
      let s := (s.setEnt i e).report p i e 1 stDone 0 none
      if e.ring then s else (s.toGate p i).formFor p i
  | (r, s) => s.bareRecord p b 1 r none

/-- A COMMAND record of entry `i` (R383). -/
def State.cmdRecord (s : State) (p i reason : Nat) : State :=
  State.rqPut s p ((s.ent i).record i 5 (reasonStatus reason) 0 reason none s.time.dev)

/-- A CANCEL takes effect by state (R398). -/
def State.cancelEntry (s : State) (p i : Nat) : State := match (s.ent i).state with
  | 3 => s.modEnt i fun e => e.mark 1
  | 5 =>
    let cancel (x : Export) : Export := if x.entry = i then { x with cancelled := true } else x
    let s := s.modEnt i fun e => e.mark 1
    { s with coach := { s.coach with exports := s.coach.exports.map fun x => (x.1, cancel x.2) } }
  | _ => s.retire p i stDropped none

/-- An accepted EXTEND (R379): LENGTH and DRAFT at once, or at the step end in RUNNING; a HOLD pause ends. -/
def State.extendEntry (s : State) (p i len draft : Nat) : State :=
  let e := s.ent i
  if e.state = 3 then s.modEnt i fun e => { e with pendLen := some (len, draft) }
  else
    let s := s.modEnt i fun e =>
      let e := { e with length := len, draft := if e.spec then draft else e.draft, bucket := bucketOf len }
      if e.position < len then e.unmark 4 else e
    if e.state = 4 then (s.unpause p i).formFor p i else s

/-- Why an EXTEND to `len` is refused, 0 if it is not (R379, assumption 60). -/
def Entry.extendBad (e : Entry) (len : Nat) : Nat :=
  let old := match e.pendLen with | some x => x.1 | none => e.length
  if len < old || 2 ^ 23 ≤ len then 2 else if 4194304 < len then 3
  else if e.spec && 17 < len - e.position then 2 else 0

/-- A PAUSE (R379): at once for a waiting entry, marked for the step end in RUNNING. -/
def State.pauseEntry (s : State) (p i : Nat) : State :=
  let e := s.ent i
  let s := s.modEnt i fun e => e.mark 32
  if e.state = 3 then s.modEnt i fun e => e.mark 2 else if e.state = 4 then s else s.enterPaused p i stDone none

/-- A FINISH (R379): a held request is complete at once, a ring request at its step end. -/
def State.finishEntry (s : State) (p i : Nat) : State :=
  let e := s.ent i
  if e.state = 3 then s.modEnt i fun e => { e with finish := true }
  else if 0 < e.nDests then s.setEnt i { e with state := 5, marks := e.marks % 8 }
  else s.retire p i stDone none

/-- Whether an operation is accepted for an entry (R379). -/
def Entry.accepts (e : Entry) (op : Nat) : Bool := match op with
  | 2 => inRange e.state 1 5
  | 3 => inRange e.state 1 4
  | 4 => inRange e.state 1 4
  | 5 => e.state == 4
  | 6 => e.state == 7
  | 7 => (e.state == 4 && bitOf e.marks 4) || (e.state == 3 && e.ring)
  | _ => false

/-- Act on an accepted operation. -/
def State.actOn (s : State) (p i op : Nat) (b : Bytes) : State := match op with
  | 2 => s.cancelEntry p i
  | 3 => s.extendEntry p i (fieldAt b 28 4) (fieldAt b 72 8)
  | 4 => s.pauseEntry p i
  | 5 => ((s.modEnt i fun e => e.unmark 5).unpause p i).formFor p i
  | 6 => s.setEnt i Entry.free
  | _ => s.finishEntry p i

/-- A submission record of another operation (R378, R379, R384): its COMMAND record, then its effect. -/
def State.command (s : State) (p op : Nat) (b : Bytes) : State :=
  let i := fieldAt b 4 4
  let e := s.ent i
  let own := s.ledgerOwner i
  if own ≠ p then (s.isolation p own 3 i).bareRecord p b 5 8 (some i)
  else if e.reqId ≠ fieldAt b 8 8 || !e.accepts op then s.bareRecord p b 5 8 (some i)
  else
    let bad := if op = 3 then e.extendBad (fieldAt b 28 4) else 0
    if bad ≠ 0 then s.cmdRecord p i bad else (s.cmdRecord p i 0).actOn p i op b

/-- The record at LDG_SQ_HEAD if the Guest Ledger may read one (R377, R381): its address. -/
def State.sqNext (s : State) (p : Nat) : Option Nat :=
  let h := s.fd (Rg.LDG_SQ_HEAD_HEAD p)
  if !s.live p || 256 ≤ (s.part p).rqHold.length || h = s.fd (Rg.LDG_SQ_TAIL_TAIL p) then none
  else some (s.fd (Rg.LDG_SQ_BASE_BASE p) + 128 * (h % s.sqSize p))

/-- Perform the next submission record of partition `p` if its operation is `op`; a record that names no operation, or
cannot be read, is refused whichever operation is asked for (R377, R384, assumption 61). -/
def State.sqStep (s : State) (p op : Nat) : State := match s.sqNext p with
  | none => s
  | some a => match s.blk p a 128 with
    | (none, s1) => (s1.incr (Rg.LDG_SQ_HEAD_HEAD p)).bareRecord p (List.replicate 128 0) 5 10 none
    | (some b, s1) =>
      let o := fieldAt b 0 1
      if o = 0 || 8 ≤ o then (s1.incr (Rg.LDG_SQ_HEAD_HEAD p)).bareRecord p b 5 9 (some (fieldAt b 4 4))
      else if o ≠ op then s
      else if o = 1 then (s1.incr (Rg.LDG_SQ_HEAD_HEAD p)).submit p b
      else (s1.incr (Rg.LDG_SQ_HEAD_HEAD p)).command p o b

/-- SUBMIT (R380): a SUBMIT record is checked and takes a FREE entry into ADMITTED or RUNNING. -/
def execSubmit (p : Nat) (s : State) : Host.Outcome State Fault Refusal := .next (s.sqStep p 1)
/-- CANCEL (R398): a CANCEL record retires the request at once, or marks it for the step end or the export end. -/
def execCancel (p : Nat) (s : State) : Host.Outcome State Fault Refusal := .next (s.sqStep p 2)
/-- EXTEND (R379): an EXTEND record raises LENGTH, recomputes the bucket and may clear a HOLD pause. -/
def execExtend (p : Nat) (s : State) : Host.Outcome State Fault Refusal := .next (s.sqStep p 3)
/-- PAUSE (R379): a PAUSE record sets HOST, at once or at the step end. -/
def execPause (p : Nat) (s : State) : Host.Outcome State Fault Refusal := .next (s.sqStep p 4)
/-- RESUME (R379): a RESUME record clears HOST, and the entry leaves PAUSED if no pause bit remains. -/
def execResume (p : Nat) (s : State) : Host.Outcome State Fault Refusal := .next (s.sqStep p 5)
/-- RELEASE (R379): a RELEASE record returns a RESTART entry to FREE. -/
def execRelease (p : Nat) (s : State) : Host.Outcome State Fault Refusal := .next (s.sqStep p 6)
/-- FINISH (R379): a FINISH record treats a held or ring request as complete. -/
def execFinish (p : Nat) (s : State) : Host.Outcome State Fault Refusal := .next (s.sqStep p 7)

/-! ### Result ring and reads (R381, R412) -/

/-- A write to LDG_RQ_HEAD: held records move into the ring (R381; 10 R339). -/
def State.rqHead (s : State) (p : Nat) (v : W64) : State :=
  let s := s.setF (Rg.LDG_RQ_HEAD_HEAD p) (bitsOf v.toNat 0 32)
  let (h, s) := State.rqDrain p (s.part p).rqHold s
  (s.modPart p fun q => { q with rqHold := h }).formAll p

/-- LDG_RQ_HEAD_WRITE (R381): software advances the result ring's HEAD, and held result records move into the ring. -/
def execLdgRqHeadWrite (p : Nat) (v : W64) (s : State) : Host.Outcome State Fault Refusal :=
  .next (if s.defined p then s.rqHead p v else s)

/-- Complete a ledger read with a result code (R412). -/
def State.ldgResult (s : State) (p code : Nat) : State :=
  (s.setF (Rg.LDG_CMD_RESULT_RESULT p) code).incr (Rg.LDG_CMD_RESULT_COUNT p)

/-- LDG_CMD READ of entry `e` (R412). -/
def State.ldgRead (s : State) (p e : Nat) : State :=
  if !s.defined p then s
  else
    let own := s.ledgerOwner e
    if own ≠ p then (s.isolation p own 3 e).ldgResult p 1
    else
      let b := (s.ent e).bytes
      let s := (List.range 16).foldl (fun s i => s.wr (Rg.LDG_ENTRY_DATA p i) (BitVec.ofNat 64 (fieldAt b (8 * i) 8))) s
      s.ldgResult p 0

/-- LDG_ENTRY_READ (R412): LDG_CMD READ copies a ledger entry into LDG_ENTRY_DATA. -/
def execLdgEntryRead (p e : Nat) (s : State) : Host.Outcome State Fault Refusal := .next (s.ldgRead p e)

/-- A write to LDG_CMD: any other OP completes with BAD_OP (R412). -/
def State.ldgCmdWrite (s : State) (p : Nat) (v : W64) : State :=
  if bitsOf v.toNat 0 2 = 1 then s.ldgRead p (bitsOf v.toNat 16 16) else if s.defined p then s.ldgResult p 2 else s

/-! ### Batches (04 R142) -/

/-- BATCH_WINDOW_US in ns. -/
def State.batchWindow (s : State) (p t : Nat) : Nat := s.cfgSince p t 160 4 * 1000

/-- The batch window of the open step of graph `tag` passes: it closes (04 R142). -/
def State.batchExpiry (s : State) (p tag : Nat) : State := match (s.schedOf p tag).openSince with
  | none => s
  | some t => if s.live p then (s.passDev (t + s.batchWindow p t)).closeStep p tag else s

/-- BATCH_WINDOW_EXPIRY (04 R142): a weight-stationary batch closes when BATCH_WINDOW_US has passed since its first row. -/
def execBatchWindowExpiry (p tag : Nat) (s : State) : Host.Outcome State Fault Refusal := .next (s.batchExpiry p tag)

/-- A request of the open step of graph `tag` has a deadline that comes within the window: it closes (04 R142). -/
def State.batchDeadline (s : State) (p tag : Nat) : State :=
  let x := s.schedOf p tag
  let dl := x.taken.foldl (fun m t => min m (s.ent t.entry).deadline) noTime
  if x.openSince.isNone || dl = noTime || !s.live p then s
  else (s.passDev (dl + 1 - s.batchWindow p (x.openSince.getD 0))).closeStep p tag

/-- BATCH_DEADLINE_CLOSE (04 R142): a batch closes when a waiting request's deadline comes within BATCH_WINDOW_US. -/
def execBatchDeadlineClose (p tag : Nat) (s : State) : Host.Outcome State Fault Refusal := .next (s.batchDeadline p tag)

/-! ### Budget mode (R392) -/

/-- OVERLOAD_AGE_US in ns. -/
def State.overload (s : State) (p : Nat) : Nat := s.cfg p 168 4 * 1000

/-- The ADMITTED and QUEUED entries of partition `p`. -/
def State.waiting (s : State) (p : Nat) : List (Nat × Entry) := (s.entsOf p).filter fun x => x.2.state == 1 || x.2.state == 2

/-- Partition `p` enters budget mode: an entry has waited longer than OVERLOAD_AGE_US (R392). -/
def State.budgetEnter (s : State) (p : Nat) : State :=
  let w := s.waiting p
  if !s.live p || s.budgeting p || w.isEmpty then s
  else
    let s := s.passDev (w.foldl (fun m x => min m x.2.qtime) noTime + s.overload p + 1)
    let s := ((s.setF (Rg.LDG_CTRL_BUDGET p) 1).setF (Rg.LDG_BUDGET_START_START p) s.time.dev).raise (Rg.LDG_IRQ_BUDGET p)
    w.foldl (fun s x => if x.2.state = 2 then s.modEnt x.1 fun e => { e with state := 1 } else s) s

/-- BUDGET_ENTER (R392): an entry waiting longer than OVERLOAD_AGE_US puts the partition into budget mode. -/
def execBudgetEnter (p : Nat) (s : State) : Host.Outcome State Fault Refusal := .next (s.budgetEnter p)

/-- Partition `p` leaves budget mode: for OVERLOAD_AGE_US no entry has waited longer than half of it, and none has at the
end of that time (R392, assumption 31). -/
def State.budgetLeave (s : State) (p : Nat) : State :=
  if !s.live p || !s.budgeting p || (s.waiting p).any fun x => x.2.qtime + s.overload p / 2 < s.time.dev then s
  else
    let w := s.waiting p
    let s := (s.setF (Rg.LDG_CTRL_BUDGET p) 0).raise (Rg.LDG_IRQ_BUDGET p)
    (w.foldl (fun s x => if x.2.state = 1 then s.modEnt x.1 fun e => { e with state := 2, gated := false } else s) s).formAll p

/-- BUDGET_LEAVE (R392): after a continuous OVERLOAD_AGE_US without long waits, the partition leaves budget mode. -/
def execBudgetLeave (p : Nat) (s : State) : Host.Outcome State Fault Refusal := .next (s.budgetLeave p)

/-! ### Pressure and deadlines (R394, R395, R397) -/

/-- Pause one entry for pressure (R394). -/
def State.pressEntry (s : State) (p i : Nat) : State :=
  let e := s.ent i
  if !s.pressed p e then s
  else match e.state with
    | 1 => (s.modEnt i fun e => e.mark 8).enterPaused p i stDone none
    | 2 => (s.modEnt i fun e => e.mark 8).enterPaused p i stDone none
    | 3 => s.modEnt i fun e => e.mark 10
    | 4 => s.modEnt i fun e => e.mark 8
    | _ => s

/-- Pressure begins on partition `p` (R394): a condition comes to hold, and low-priority entries pause. -/
def State.pressureBegin (s : State) (p : Nat) : State := match s.pressureTimes p with
  | [] => s
  | t :: ts =>
    if !s.live p then s
    else
      let s := (s.passDev (ts.foldl min t)).raise (Rg.LDG_IRQ_PRESSURE p)
      (s.entsOf p).foldl (fun s x => s.pressEntry p x.1) s

/-- PRESSURE_BEGIN (R394): pressure begins, and low-priority entries are paused. -/
def execPressureBegin (p : Nat) (s : State) : Host.Outcome State Fault Refusal := .next (s.pressureBegin p)

/-- Clear the PRESSURE bit of one entry; RUNNING, its pause mark goes if no other bit asks for it (R395). -/
def State.unpressEntry (s : State) (p i : Nat) : State :=
  let e := (s.ent i).unmark 3
  if e.state = 3 && !e.held then s.setEnt i (e.unmark 1) else (s.setEnt i e).unpause p i

/-- Pressure has been absent from partition `p` for RESUME_US (R395, assumption 31). -/
def State.pressureEnd (s : State) (p : Nat) : State :=
  if !s.live p || s.pressure p then s
  else
    let xs := (s.entsOf p).filter fun x => bitOf x.2.marks 3
    (xs.foldl (fun s x => s.unpressEntry p x.1) s).formAll p

/-- PRESSURE_END (R395): after pressure has been absent for RESUME_US, the PRESSURE bits are cleared. -/
def execPressureEnd (p : Nat) (s : State) : Host.Outcome State Fault Refusal := .next (s.pressureEnd p)

/-- The deadline of waiting entry `e` passes (R397). -/
def State.deadlinePass (s : State) (i : Nat) : State :=
  let e := s.ent i
  let p := s.ledgerOwner i
  if !s.live p || e.deadline = noTime || !(inRange e.state 1 2 || e.state == 4) || bitOf e.marks 2 then s
  else
    let s := s.passDev (e.deadline + 1)
    if e.hard then s.retire p i stLate none
    else s.modEnt i fun e => { e.mark 4 with effPrio := 15, qtime := s.time.dev }

/-- DEADLINE_PASS (R397): a deadline that passes while the entry waits retires the request or lowers its priority. -/
def execDeadlinePass (e : Nat) (s : State) : Host.Outcome State Fault Refusal := .next (s.deadlinePass e)

/-! ### Adapters (R403 to R405, R415) -/

/-- Complete an adapter command with a result code (R415). -/
def State.adpResult (s : State) (p code : Nat) : State :=
  (s.setF (Rg.ADP_CMD_RESULT_RESULT p) code).incr (Rg.ADP_CMD_RESULT_COUNT p)

/-- ADAPTER_QUOTA in force. -/
def State.adQuota (s : State) (p : Nat) : Nat := s.cfg p 132 2

/-- The adapter slot `i` of partition `p`. -/
def State.adSlot (s : State) (p i : Nat) : AdSlot := find (fun _ => AdSlot.init) (s.part p).adapters i

/-- Store an adapter slot. -/
def State.setAd (s : State) (p i : Nat) (a : AdSlot) : State := s.modPart p fun q => { q with adapters := ins q.adapters i a }

/-- ADP_CMD BIND (R405). -/
def State.adpBind (s : State) (p slot customer : Nat) : State :=
  if !s.defined p then s
  else if s.adQuota p ≤ slot then s.adpResult p 1
  else if (s.adSlot p slot).customer.isSome then s.adpResult p 2
  else if (s.part p).adapters.any (fun a => a.2.customer == some customer) then s.adpResult p 4
  else (s.setAd p slot { s.adSlot p slot with customer := some customer }).adpResult p 0

/-- ADP_BIND (R405): ADP_CMD BIND binds an adapter slot to a customer. -/
def execAdpBind (p slot customer : Nat) (s : State) : Host.Outcome State Fault Refusal := .next (s.adpBind p slot customer)

/-- ADP_CMD UNBIND (R405): CUR is the slot's and stands (assumption 124). -/
def State.adpUnbind (s : State) (p slot : Nat) : State :=
  if !s.defined p then s
  else if s.adQuota p ≤ slot then s.adpResult p 1
  else
    let a := s.adSlot p slot
    if a.customer.isNone then s.adpResult p 3
    else if a.counts.any (fun x => x.2 != 0) then s.adpResult p 5
    else (s.setAd p slot { a with customer := none }).adpResult p 0

/-- ADP_UNBIND (R405): ADP_CMD UNBIND releases a slot, or refuses with IN_USE. -/
def execAdpUnbind (p slot : Nat) (s : State) : Host.Outcome State Fault Refusal := .next (s.adpUnbind p slot)

/-- The generation after `n` (R405). -/
def nextGen (n : Nat) : Nat := if n = 65535 then 2 else n + 1

/-- Bytes per layer of an adapter record with `d` directions (R404). -/
def adLayerBytes (d : Nat) : Nat := 8 * ((2 * d + 2 + 7) / 8)

/-- Whether the head of an adapter record meets R404. -/
def adHeadOk (h : Bytes) : Bool :=
  inRange (fieldAt h 4 2) 1 1024 && inRange (fieldAt h 6 1) 1 64 && allZero (slice h 7 9) &&
    16 + fieldAt h 4 2 * adLayerBytes (fieldAt h 6 1) ≤ 32768

/-- Whether the layers of an adapter record have zero padding (R404). -/
def adPadOk (b : Bytes) : Bool :=
  let d := fieldAt b 6 1
  let ls := adLayerBytes d
  (List.range (fieldAt b 4 2)).all fun l => allZero (slice b (16 + l * ls + 2 * d + 2) (ls - 2 * d - 2))

/-- ADP_CMD PUBLISH (R405). -/
def State.adpPublish (s : State) (p slot : Nat) : State :=
  if !s.defined p then s
  else if s.adQuota p ≤ slot then s.adpResult p 1
  else
    let a := s.adSlot p slot
    let area := s.fd (Rg.ADP_AREA_BASE p)
    let src := s.fd (Rg.ADP_CMD_ADDR_ADDR p)
    if a.customer.isNone then s.adpResult p 3
    else if area = 0 then s.adpResult p 8
    else if a.prev ≠ 0 && find (fun _ => 0) a.counts a.prev != 0 then s.adpResult p 6
    else match s.blk p src 16 with
      | (none, s) => s.adpResult p 9
      | (some h, s) =>
        if !adHeadOk h then s.adpResult p 7
        else match s.blk p src (16 + fieldAt h 4 2 * adLayerBytes (fieldAt h 6 1)) with
          | (none, s) => s.adpResult p 9
          | (some b, s) =>
            if !adPadOk b then s.adpResult p 7
            else
              let n := nextGen a.cur
              let w := s.devWrite p 1 (area + 32768 * (2 * slot + n % 2)) b
              if w.code ≠ 0 then w.st.adpResult p 9
              else
                let s := w.st.setAd p slot { a with cur := n, prev := a.cur }
                (s.setF (Rg.ADP_CMD_RESULT_GEN p) n).adpResult p 0

/-- ADP_PUBLISH (R405): ADP_CMD PUBLISH copies a record into the slot's next buffer and advances CUR, or refuses it. -/
def execAdpPublish (p slot : Nat) (s : State) : Host.Outcome State Fault Refusal := .next (s.adpPublish p slot)

/-- A write to ADP_CMD: any other OP completes with BAD_OP (R415). -/
def State.adpCmdWrite (s : State) (p : Nat) (v : W64) : State :=
  let slot := bitsOf v.toNat 16 12
  match bitsOf v.toNat 0 3 with
  | 1 => s.adpBind p slot (bitsOf v.toNat 32 16)
  | 2 => s.adpUnbind p slot
  | 3 => s.adpPublish p slot
  | _ => if s.defined p then s.adpResult p 10 else s

/-- A write to ADP_AREA, ignored while a slot is bound: the null adapter is written (R403). -/
def State.adpArea (s : State) (p : Nat) (v : W64) : State :=
  if !s.defined p || (s.part p).adapters.any (fun a => a.2.customer.isSome) then s
  else
    let s := s.wr (Rg.ADP_AREA p) v
    if v = 0 then s else (s.devWrite p 1 (v.toNat + 32768 * (2 * s.adQuota p)) (List.replicate 32768 0)).st

/-- ADP_AREA_WRITE (R403): a write to ADP_AREA sets the adapter area and writes the null adapter. -/
def execAdpAreaWrite (p : Nat) (v : W64) (s : State) : Host.Outcome State Fault Refusal := .next (s.adpArea p v)

end Sys2Proof.Machine
end

