-- ==== Sys2Proof/Machine/Xfer.lean ====
section
/-!
DEFINITION. The port engines' tasks and the export engine (13_coach_ports.md): XFER tasks (R432 to R434), collectives
(R436 to R439) and cache export (R442 to R445).
-/
namespace Sys2Proof.Machine

/-! ### Shared -/

/-- Task `t` of kind `kind` on its port engine with work left, and its block (R433, R436). -/
def State.portTask (s : State) (t kind : Nat) : Option (Task × Bytes) := match s.task? t with
  | none => none
  | some k =>
    if k.kind = kind && k.parts.all fun x => x.slot == 5 && !x.done then
      (s.graphOf k).map fun g => (k, (s.devRead k.part 0 (fieldAt (g.desc k.node) 32 8) 64).data)
    else none

/-- A flow of partition `p` has no path left: path loss, on port `n` toward device `d` (R419, R452; 17 R535, R551). -/
def State.pathLoss (s : State) (p n d : Nat) : State := s.jobFaultAs p 9 stAborted (n + 8 * d)

/-- Wait for a flow context: kind 0 a task, 1 an export (R425). -/
def State.waitOpen (s : State) (kind i : Nat) : State :=
  if s.coach.opens.contains (kind, i, 0) then s
  else { s with coach := { s.coach with opens := s.coach.opens ++ [(kind, i, 0)] } }

/-- What reading for a transfer gives: the data and whether it was poisoned, or none when the task fails. -/
def State.portRead (s : State) (t p a n : Nat) : Option Bytes × State :=
  let r := s.devRead p 2 a n
  if r.code ≠ 0 then (none, (r.st.taskStatus t stUncorr 0).partDone t 0)
  else (some r.data, if r.poison.isEmpty then r.st else r.st.taskStatus t stFlagged subPoison)

/-! ### Export form (08 R277, R278) -/

/-- The bytes of a frame as sent: slots below FILL with the bytes their format uses, all else zero (08 R278). -/
def sentSlots (x : Page) (d : Bytes) : Bytes :=
  let n := slotBytes x.fmt (dimElems x.dim)
  (List.range 64).flatMap fun i => if i < x.fill then slice ((d.drop (256 * i)).take n) 0 256 else List.replicate 256 0

/-- A page in export form, or none when its frame holds an uncorrectable codeword (08 R277, R278). -/
def State.exportForm (s : State) (p : Nat) (h : ListHdr) (layer head blk half i : Nat) : Option Bytes × State :=
  let x := s.page i
  let a := s.frameRead p 2 i 0 (256 * x.fill)
  let b := a.st.frameRead p 2 i 16384 (256 * x.fill)
  let bad := x.poison || !a.poison.isEmpty || !b.poison.isEmpty
  let fr := sentSlots x a.data ++ sentSlots x b.data
  let d := mkRec 28 [(0, 4, h.model), (4, 4, h.firstOf blk), (8, 2, layer), (10, 1, head), (11, 1, x.fill), (12, 1, x.fmt),
    (13, 1, half + 2 * b2n bad), (14, 2, if h.halves = 2 then 256 else dimElems x.dim), (16, 1, 1)]
  (if a.code = 0 && b.code = 0 then some (d ++ toLe 4 (crc32c (d ++ fr)) ++ fr) else none, b.st)

/-! ### XFER tasks (R432 to R434) -/

/-- XFER task `t` of operation `op` that may act now: it has not acted, and its wait, if it has one, has ended. -/
def State.xferReady (s : State) (t op : Nat) : Option (Task × Bytes) := match s.portTask t 5 with
  | none => none
  | some (k, b) =>
    let waits := op == 0 || bitOf (fieldAt b 1 1) 0
    if fieldAt b 0 1 = op && k.stage = 0 && (!waits || !k.rep.isEmpty) then some (k, b) else none

/-- XFER task `t` acts: only a RING wait keeps its report, naming PEER; LOCAL_CTR is raised when it completes (R432, R441). -/
def State.xferAct (s : State) (t : Nat) (b : Bytes) : State :=
  let ring := bitOf (fieldAt b 1 1) 1
  s.modTask t fun k => { k with
    stage := 1, rep := if ring then k.rep.map fun r => (r.1, fieldAt b 40 2, r.2.2) else []
    localCtr := if fieldAt b 35 1 = 255 then none else some (fieldAt b 35 1) }

/-- XFER WAIT. -/
def State.xferWait (s : State) (t : Nat) : State := match s.xferReady t 0 with
  | none => s
  | some (_, b) => (s.xferAct t b).partDone t 0

/-- XFER_WAIT (R434): an XFER WAIT waits on a trigger counter and sends nothing. -/
def execXferWait (t : Nat) (s : State) : Host.Outcome State Fault Refusal := .next (s.xferWait t)

/-- Open or find the job flow that a task's message goes by, then send what `msg` makes (R419, R424). -/
def State.xferVia (s : State) (k : Task) (b : Bytes) (msg : State → Option (List (Nat × Bytes)) × State) : State :=
  let d := fieldAt b 4 2
  match s.jobFlow k.part d (fieldAt b 6 1) with
  | (.waits, s) => s.waitOpen 0 k.id
  | (.disabled, s) => ((s.xferAct k.id b).taskStatus k.id stDisabled 0).partDone k.id 0
  | (.noPath, s) => s.pathLoss k.part (bitsOf (s.route d) 0 3) d
  | (.flow i, s) =>
    match msg (s.xferAct k.id b) with
    | (none, s) => s
    | (some fr, s) =>
      let ctr := if fieldAt b 7 1 = 255 then none else some (fieldAt b 7 1)
      ((s.flowSend i 1 ctr fr).awaitFlow k.id i).partDone k.id 0

/-- XFER WRITE. -/
def State.xferWrite (s : State) (t : Nat) : State := match s.xferReady t 1 with
  | none => s
  | some (k, b) => s.xferVia k b fun s => match s.portRead t k.part (fieldAt b 8 8) (fieldAt b 16 8) with
    | (none, s) => (none, s)
    | (some bs, s) => (some (writeFrames (fieldAt b 24 8) bs), s)

/-- XFER_WRITE (R434): an XFER WRITE sends LEN bytes as one message on the job flow. -/
def execXferWrite (t : Nat) (s : State) : Host.Outcome State Fault Refusal := .next (s.xferWrite t)

/-- The non-hole pages of a layer in list-slot order (head, block, half, page), or the status that reading the list gives. -/
def State.layerPages (s : State) (p t list layer : Nat) (h : ListHdr) : Except Nat (List (Nat × Nat × Nat × Nat)) × State :=
  let k := s.poolCluster p
  (List.range (h.heads * h.blocks * h.halves)).foldl
    (fun (a : Except Nat (List (Nat × Nat × Nat × Nat)) × State) j => match a with
      | (.error e, s) => (.error e, s)
      | (.ok l, s) =>
        let hd := j / (h.blocks * h.halves)
        let bl := j / h.halves % h.blocks
        let f := j % h.halves
        match s.readSlot p t k (h.slotAddr list layer hd bl f) with
        | (.hole, s) => (.ok l, s)
        | (.fail, s) => (.error stUncorr, s)
        | (.page i, s) => (.ok (l ++ [(hd, bl, f, i)]), s)) (.ok [], s)

/-- The message of an XFER SHARD: each page in export form, pinned as an export (R434; 08 R274). -/
def State.shardMsg (s : State) (k : Task) (h : ListHdr) (layer dst : Nat) (ps : List (Nat × Nat × Nat × Nat)) :
    Option (List (Nat × Bytes)) × State :=
  let r := ps.foldl (fun (a : Option Bytes × State) x => match a with
    | (none, s) => (none, s)
    | (some bs, s) =>
      let i := x.2.2.2
      let s := (s.putPage i { s.page i with exp := (s.page i).exp + 1 }).modTask k.id fun k => { k with exps := k.exps ++ [i] }
      match s.exportForm k.part h layer x.1 x.2.1 x.2.2.1 i with
      | (none, s) => (none, s)
      | (some e, s) => (some (bs ++ e), s)) (some [], s)
  match r with
  | (none, s) => (none, (s.taskStatus k.id stUncorr 0).partDone k.id 0)
  | (some bs, s) => (some (writeFrames dst bs), s)

/-- XFER SHARD: a page whose EXPCNT is 15 holds it back (08 R274). -/
def State.xferShard (s : State) (t : Nat) : State := match s.xferReady t 2 with
  | none => s
  | some (k, b) =>
    let e := fieldAt b 8 4
    let layer := fieldAt b 12 2
    let fail (s : State) (st : Nat) : State := ((s.xferAct t b).taskStatus t st 0).partDone t 0
    let own := s.ledgerOwner e
    if own ≠ k.part then fail (s.isolation k.part own 3 e) stUncorr
    else
      let list := (s.ent e).pageList
      match s.listHdr k.part list with
      | (.error 0x12, s) => s.xferVia k b fun s => (some (writeFrames (fieldAt b 24 8) []), s)
      | (.error st, s) => fail s st
      | (.ok h, s1) =>
        if h.layers ≤ layer then fail s1 stLength
        else match s1.layerPages k.part t list layer h with
          | (.error st, s) => fail s st
          | (.ok ps, s2) =>
            if ps.any fun x => (s2.page x.2.2.2).exp == 15 then s
            else s2.xferVia k b fun s => s.shardMsg k h layer (fieldAt b 24 8) ps

/-- XFER_SHARD (R434): an XFER SHARD sends a layer's pages of an entry in export form as one WRITE message. -/
def execXferShard (t : Nat) (s : State) : Host.Outcome State Fault Refusal := .next (s.xferShard t)

/-- XFER APPEND or PUT_AT: the channel send on the task port, when its queue has room (11 R355). -/
def State.xferChannel (s : State) (t op : Nat) : State := match s.xferReady t op with
  | none => s
  | some (k, b) =>
    if 8 ≤ (s.sender k.part 33).queue.length then s
    else (s.xferAct t b).enqueue k.part 33 ⟨if op = 3 then 0 else 1, op == 4 && bitOf (fieldAt b 1 1) 2, fieldAt b 2 1,
      fieldAt b 32 2, if op = 3 then 0 else fieldAt b 24 8, fieldAt b 8 8, some t, none, false, false⟩

/-- XFER_APPEND (R434): an XFER APPEND performs a channel APPEND on the task port. -/
def execXferAppend (t : Nat) (s : State) : Host.Outcome State Fault Refusal := .next (s.xferChannel t 3)

/-- XFER_PUT_AT (R434): an XFER PUT_AT performs a channel PUT-AT on the task port. -/
def execXferPutAt (t : Nat) (s : State) : Host.Outcome State Fault Refusal := .next (s.xferChannel t 4)

/-! ### Collectives (R436 to R439) -/

/-- A run of elements: first and one past the last. -/
abbrev Run := Nat × Nat

/-- One step of a collective for one member: report kind, whom it sends to and what, from whom it receives and what, and
whether what it receives lands in SCRATCH. -/
structure CollStep where
  kind : Nat
  tgt : Option Nat
  sends : List Run
  peer : Option Nat
  recvs : List Run
  scratch : Bool
deriving DecidableEq, Repr

/-- Segment `i` of `m` of `count` elements (R437). -/
def segOf (m count i : Nat) : Run := (i * count / m, (i + 1) * count / m)

/-- Segments as contiguous runs: empty ones dropped, adjacent ones joined. -/
def joinRuns (xs : List Run) : List Run :=
  let m := xs.foldl (fun (m : SMap Nat) x => if x.1 < x.2 then ins m x.1 x.2 else m) []
  (m.foldl (fun (a : List Run) x => match a with
    | y :: t => if y.2 = x.1 then (y.1, x.2) :: t else x :: y :: t
    | [] => [x]) []).reverse

/-- A collective over a group: OP, COUNT, members n, P and E (R437). -/
structure Coll where
  op : Nat
  count : Nat
  n : Nat
deriving DecidableEq, Repr

/-- L = log2 P. -/
def Coll.l (c : Coll) : Nat := Nat.log2 c.n
/-- P, the largest power of two not above n. -/
def Coll.p (c : Coll) : Nat := 2 ^ c.l
/-- E = n - P. -/
def Coll.e (c : Coll) : Nat := c.n - c.p

/-- The share of core rank `q` (R437). -/
def Coll.share (c : Coll) (q : Nat) : List Run :=
  if c.op = 3 then [segOf c.p c.count q]
  else [segOf c.n c.count q] ++ if q < c.e then [segOf c.n c.count (c.p + q)] else []

/-- The runs of the shares of the core ranks that `ok` accepts; BARRIER has one empty message in their place. -/
def Coll.shares (c : Coll) (ok : Nat → Bool) : List Run :=
  if c.op = 4 then [(0, 0)] else joinRuns (((List.range c.p).filter ok).flatMap c.share)

/-- The runs of a list of segments; BARRIER has one empty message. -/
def Coll.runs (c : Coll) (xs : List Run) : List Run := if c.op = 4 then [(0, 0)] else joinRuns xs

/-- The fold-in for rank `r`: excess P + q sends to q (R437). -/
def Coll.foldIn (c : Coll) (r : Nat) : CollStep :=
  let what (x : Nat) : List Run := c.runs (if c.op = 2 then [segOf c.n c.count x] else [(0, c.count)])
  if c.p ≤ r then ⟨0, some (r - c.p), what r, none, [], true⟩
  else if r < c.e then ⟨0, none, [], some (c.p + r), what (c.p + r), true⟩ else ⟨0, none, [], none, [], true⟩

/-- The halving at distance `d` for rank `r` (R437). -/
def Coll.halving (c : Coll) (r d : Nat) : CollStep :=
  if c.p ≤ r then ⟨1, none, [], none, [], true⟩
  else
    let part (b : Nat) : List Run := c.shares fun q => q / (2 * d) == r / (2 * d) && q / d % 2 == b
    ⟨1, some (r ^^^ d), part (1 - r / d % 2), some (r ^^^ d), part (r / d % 2), true⟩

/-- The doubling, or barrier exchange, at distance `d` for rank `r` (R437). -/
def Coll.doubling (c : Coll) (r d : Nat) : CollStep :=
  let kind := if c.op = 4 then 4 else 2
  if c.p ≤ r then ⟨kind, none, [], none, [], false⟩
  else
    let x := r ^^^ d
    ⟨kind, some x, c.shares (fun q => q / d == r / d), some x, c.shares (fun q => q / d == x / d), false⟩

/-- The fold-out for rank `r`: core q sends to P + q (R437). -/
def Coll.foldOut (c : Coll) (r : Nat) : CollStep :=
  let what (x : Nat) : List Run := c.runs (if c.op = 1 then [segOf c.n c.count x] else [(0, c.count)])
  if c.p ≤ r then ⟨3, none, [], some (r - c.p), what r, false⟩
  else if r < c.e then ⟨3, some (c.p + r), what (c.p + r), none, [], false⟩ else ⟨3, none, [], none, [], false⟩

/-- The steps of rank `r` in order (R437). -/
def Coll.steps (c : Coll) (r : Nat) : List CollStep :=
  let up := (List.range c.l).map fun i => 2 ^ i
  (if c.e = 0 then [] else [c.foldIn r]) ++ (if c.op = 1 || c.op = 3 then up.reverse.map (c.halving r) else []) ++
    (if c.op = 1 then [] else up.map (c.doubling r)) ++ if c.e = 0 then [] else [c.foldOut r]

/-- The collective of a block, over the group of partition `p`. -/
def State.collOf (s : State) (p : Nat) (b : Bytes) : Coll := ⟨fieldAt b 0 1, fieldAt b 4 4, (s.groupOf p).length⟩

/-- Bytes of an element. -/
def collWidth (b : Bytes) : Nat := if fieldAt b 1 1 = 1 then 4 else 2

/-- Where the port firmware lands run `j` of step `i` at rank `r`: somewhere in SCRATCH that holds it whole (R438,
assumption 67). -/
def Coll.landAt (c : Coll) (b : Bytes) (r i j len : Nat) : Nat :=
  fieldAt b 16 8 + collWidth b * (Config.scratchAt c.op c.count c.n r i j % (2 * c.count - len + 1))

/-- Send one run of a step to the peer's BUF or SCRATCH (R437, R438): false when the task goes no further now. -/
def State.collSendRun (s : State) (k : Task) (b : Bytes) (c : Coll) (i : Nat) (st : CollStep) (tgt flow j : Nat) (x : Run) :
    Bool × State :=
  let w := collWidth b
  match s.portRead k.id k.part (fieldAt b 8 8 + w * x.1) (w * (x.2 - x.1)) with
  | (none, s) => (false, s)
  | (some d, s) =>
    let dst := if st.scratch then c.landAt b tgt i j (x.2 - x.1) else fieldAt b 8 8 + w * x.1
    (true, (s.flowSend flow 1 (some (fieldAt b 2 1 + i)) (writeFrames dst d)).awaitFlow k.id flow)

/-- The sends of a step (R437): false when the task goes no further now. -/
def State.collSends (s : State) (k : Task) (b : Bytes) (c : Coll) (i : Nat) (st : CollStep) : Bool × State := match st.tgt with
  | none => (true, s)
  | some r => match (s.groupOf k.part)[r]? with
    | none => (true, s)
    | some m =>
      if st.sends.isEmpty then (true, s)
      else match s.jobFlow k.part m.1 m.2 with
        | (.waits, s) => (false, s.waitOpen 0 k.id)
        | (.disabled, s) => (false, (s.taskStatus k.id stDisabled 0).partDone k.id 0)
        | (.noPath, s) => (false, s.pathLoss k.part (bitsOf (s.route m.1) 0 3) m.1)
        | (.flow f, s) => st.sends.zipIdx.foldl (fun (a : Bool × State) x =>
            if a.1 then a.2.collSendRun k b c i st r f x.2 x.1 else a) (true, s)

/-- The sum of two vectors of a format, element by element in FP32, rounded to the format (R438). -/
def collSum (w n : Nat) (x y : Bytes) : Bytes :=
  (List.range n).flatMap fun i =>
    if w = 4 then toLe 4 (bits32 (add32 (num32 (fieldAt x (4 * i) 4)) (num32 (fieldAt y (4 * i) 4))))
    else toLe 2 (bf16.encode (add32 (bf16.decode (fieldAt x (2 * i) 2)) (bf16.decode (fieldAt y (2 * i) 2)))).1

/-- A write by a collective task; weight-cache lines of the task's partition that it touches are dropped (05 R173). -/
def State.collWrite (s : State) (p a : Nat) (bs : Bytes) : State := (s.devWrite p 2 a bs).st.wcInval p a bs.length

/-- Bring one landed run into BUF: added, or placed by the fold-in of ALL_GATHER (R438, assumption 68). -/
def State.collLand (s : State) (k : Task) (b : Bytes) (c : Coll) (rank i j : Nat) (x : Run) : Bool × State :=
  let w := collWidth b
  let n := x.2 - x.1
  let buf := fieldAt b 8 8 + w * x.1
  match s.portRead k.id k.part (c.landAt b rank i j n) (w * n) with
  | (none, s) => (false, s)
  | (some y, s) =>
    if c.op = 2 then (true, s.collWrite k.part buf y)
    else match s.portRead k.id k.part buf (w * n) with
      | (none, s) => (false, s)
      | (some z, s) => (true, s.collWrite k.part buf (collSum w n z y))

/-- What a member does when a step's data has arrived: SCRATCH is added into BUF, and the step is reported (R438, R439). -/
def State.collPost (s : State) (k : Task) (b : Bytes) (c : Coll) (rank i : Nat) (st : CollStep) : Bool × State :=
  let s := s.modTask k.id fun k => { k with
    stage := i + 1
    rep := k.rep.zipIdx.map fun r => if r.2 = i then (st.kind, st.peer.getD 0xFFFF, r.1.2.2) else r.1 }
  if st.scratch && c.op != 4 then
    st.recvs.zipIdx.foldl (fun (a : Bool × State) x => if a.1 then a.2.collLand k b c rank i x.2 x.1 else a) (true, s)
  else (true, s)

/-- The report record (R439). -/
def collReport (k : Task) (rank n : Nat) : Bytes :=
  mkRec 16 [(0, 2, rank), (2, 2, n), (4, 1, k.rep.length), (8, 8, k.issuedDev)] ++
    k.rep.flatMap fun r => mkRec 16 [(0, 1, r.1), (2, 2, r.2.1), (4, 4, min r.2.2.1 (2 ^ 32 - 1)), (8, 8, r.2.2.2)]

/-- Run a collective's steps as far as they go: `n` actions at most. -/
def State.collRun (t rank : Nat) (b : Bytes) (c : Coll) : Nat → State → State
  | 0, s => s
  | n + 1, s => match s.task? t with
    | none => s
    | some k => match (c.steps rank)[k.stage]? with
      | none =>
        let s := if fieldAt b 24 8 = 0 then s else s.collWrite k.part (fieldAt b 24 8) (collReport k rank c.n)
        s.partDone t 0
      | some st =>
        if k.stage < k.rep.length then
          match s.collPost k b c rank k.stage st with
          | (true, s) => State.collRun t rank b c n s
          | (false, s) => s
        else if k.waitSince.isSome then s
        else match s.collSends k b c k.stage st with
          | (false, s) => s
          | (true, s) => State.collRun t rank b c n (s.waitOn k.part (fieldAt b 2 1 + k.stage) t st.recvs.length)

/-- COLL task `t` of operation `op` goes on as far as it can (R437). -/
def State.collective (s : State) (t op : Nat) : State := match s.portTask t 6 with
  | none => s
  | some (k, b) =>
    if fieldAt b 0 1 ≠ op then s
    else match s.rankOf k.part with
      | none => s
      | some r =>
        let c := s.collOf k.part b
        State.collRun t r b c (2 * (c.steps r).length + 1) s

/-- COLL_REDUCE_SCATTER (R437): a COLL REDUCE_SCATTER runs fold-in and halving steps over the partition group. -/
def execCollReduceScatter (t : Nat) (s : State) : Host.Outcome State Fault Refusal := .next (s.collective t 1)
/-- COLL_ALL_GATHER (R437): a COLL ALL_GATHER runs doubling and fold steps over the partition group. -/
def execCollAllGather (t : Nat) (s : State) : Host.Outcome State Fault Refusal := .next (s.collective t 2)
/-- COLL_ALL_REDUCE (R437): a COLL ALL_REDUCE runs fold-in, halving, doubling and fold-out steps over the group. -/
def execCollAllReduce (t : Nat) (s : State) : Host.Outcome State Fault Refusal := .next (s.collective t 3)
/-- COLL_BARRIER (R437): a COLL BARRIER runs zero-length exchanges over the partition group. -/
def execCollBarrier (t : Nat) (s : State) : Host.Outcome State Fault Refusal := .next (s.collective t 4)

/-- COLL CONTRIB: the contribution of BUF to a Churn queue, on the task port (11 R364). -/
def State.collContrib (s : State) (t : Nat) : State := match s.portTask t 6 with
  | none => s
  | some (k, b) =>
    if fieldAt b 0 1 ≠ 5 || k.stage ≠ 0 || 8 ≤ (s.sender k.part 33).queue.length then s
    else (s.modTask t fun k => { k with stage := 1 }).enqueue k.part 33
      ⟨2, false, 0, fieldAt b 32 2, 0, fieldAt b 8 8, some t, none, false, false⟩

/-- COLL_CONTRIB (R436): a COLL CONTRIB sends BUF as a contribution to a Churn queue. -/
def execCollContrib (t : Nat) (s : State) : Host.Outcome State Fault Refusal := .next (s.collContrib t)

/-- The watchdog of a ring or collective step of partition `p` that waits since `t0` for `rank` (R441): a job fault, and CCH_WDOG names
the late peer. -/
def State.ringFault (s : State) (p t0 rank step : Nat) : State :=
  let s := s.passTo (1000000 * s.cfgSince p t0 172 4 + t0)
  let d := s.rankDev p rank
  let s := s.freeNext.wdogFault p 5 (d % 8192 + 65536 * (rank % 8192))
  (((s.setF (Rg.CCH_WDOG_DEV p) d).setF (Rg.CCH_WDOG_RANK p) rank).setF (Rg.CCH_WDOG_STEP p) step).raise (Rg.CCH_WDOG_FIRED p)

/-- A ring or collective step of task `t` still waits RING_WDOG_MS after its member reached it (R441): CCH_WDOG names the
late peer, and a job fault follows. -/
def State.ringWdog (s : State) (t : Nat) : State :=
  match s.task? t with
  | none => s
  | some k => match k.waitSince with
    | none => s
    | some t0 =>
      if k.kind = 5 then match s.portTask t 5 with
        | some (_, b) => if bitOf (fieldAt b 1 1) 1 then s.ringFault k.part t0 (fieldAt b 40 2) (fieldAt b 42 2) else s
        | none => s
      else if k.kind = 6 then match s.portTask t 6, s.rankOf k.part with
        | some (_, b), some r => match ((s.collOf k.part b).steps r)[k.stage]? with
          | some st => s.ringFault k.part t0 (st.peer.getD 0) k.stage
          | none => s
        | _, _ => s
      else s

/-- RING_WDOG_EXPIRY (R441): a ring or collective step still waiting after RING_WDOG_MS raises a job fault and records the
late peer. -/
def execRingWdogExpiry (t : Nat) (s : State) : Host.Outcome State Fault Refusal := .next (s.ringWdog t)

/-! ### Cache export (R442 to R445) -/

/-- Export context `x`. -/
def State.exp? (s : State) (x : Nat) : Option Export := find? s.coach.exports x

/-- Change an export context. -/
def State.modExp (s : State) (x : Nat) (f : Export → Export) : State := match s.exp? x with
  | some e => { s with coach := { s.coach with exports := ins s.coach.exports x (f e) } }
  | none => s

/-- The EXPORT_BEGIN payload for destination `d` of an export (R443). -/
def State.beginPayload (s : State) (e : Export) (h : ListHdr) (d : Nat) : Bytes :=
  let x := s.ent e.entry
  mkRec 64 [(0, 8, x.reqId), (8, 4, h.model), (12, 4, x.position), (16, 4, e.slots.length), (20, 2, h.layers), (22, 2, h.heads),
    (24, 1, h.halves), (25, 1, d), (26, 2, x.customer), (28, 4, e.entry), (32, 8, s.time.dev)]

/-- The header of an export's list; one that breaks R259 names no slot. -/
def State.exportHdr (s : State) (e : Export) : ListHdr := s.hdrNow e.part (s.ent e.entry).pageList

/-- Whether every export flow of a context is open. -/
def State.exportOpen (s : State) (e : Export) : Bool :=
  e.flows.length == (s.ent e.entry).nDests && e.flows.all fun i => match s.tx? i with
    | some f => f.opened
    | none => false

/-- Whether every export flow has credit for the four frames of a page (R442). -/
def State.exportCredit (s : State) (e : Export) : Bool := e.flows.all fun i => match s.tx? i with
  | some f => psnIn f.base f.credit ((f.nextPsn + 3) % 2 ^ 32)
  | none => false

/-- The four frames of page `o` (R444). -/
def pageFrames (o : Nat) (b : Bytes) : List (Nat × Bytes) :=
  let a := 32800 * o
  [(a, b.take 8224), (a + 8224, (b.drop 8224).take 8192), (a + 16416, (b.drop 16416).take 8192), (a + 24608, b.drop 24608)]

/-- Start the next page of an export, whose list slots are (layer, head, block × HALVES + half, page) (R442, R444). -/
def State.exportPage (s : State) (x : Nat) (e : Export) (sl : Nat × Nat × Nat × Nat) (rest : List (Nat × Nat × Nat × Nat)) : State :=
  let h := s.exportHdr e
  let i := sl.2.2.2
  let s := s.putPage i { s.page i with exp := (s.page i).exp + 1 }
  match s.exportForm e.part h sl.1 sl.2.1 (sl.2.2.1 / h.halves) (sl.2.2.1 % h.halves) i with
  | (none, s) => s.jobFault e.part stUncorr
  | (some b, s) =>
    let s := e.flows.foldl (fun s f => s.flowSend f 0x11 none (pageFrames e.next b)) s
    let marks := e.flows.map fun f => (f, ((s.tx? f).map (·.nextPsn)).getD 0)
    s.modExp x fun e => { e with slots := rest, next := e.next + 1, transit := e.transit ++ [(i, marks)] }

/-- Send EXPORT_END with a status on every flow of an export (R444, R445). -/
def State.exportEnd (s : State) (x : Nat) (e : Export) (status : Nat) : State :=
  let s := e.flows.foldl (fun s f => s.sendEnd f (s.ent e.entry).reqId e.next status) s
  s.modExp x fun e => { e with endSent := some status }

/-- The export is over: its context is freed, and the request retires (R445). -/
def State.exportDone (s : State) (x : Nat) (e : Export) : State :=
  let s := e.flows.foldl (fun s f => s.modTx f fun f => { f with exp := none }) s
  let s : State := { s with coach := { s.coach with exports := del s.coach.exports x } }
  let s := s.modEnt e.entry fun y => { y with exported := e.next }
  s.retire e.part e.entry (if e.cancelled then stDropped else stDone) none

/-- Whether a page may be exported now: it is still what its slot names, and its EXPCNT is below 15 (08 R274). -/
def Page.exportable (x : Page) : Bool := x.state != 0 && x.state != 4

/-- Let export `x` go on as far as credit allows: `n` pages at most. -/
def State.exportRun (x : Nat) : Nat → State → State
  | 0, s => s
  | n + 1, s => match s.exp? x with
    | none => s
    | some e =>
      if !s.exportOpen e then s
      else if e.endSent.isSome then
        if e.flows.all fun f => match s.tx? f with
          | some f => f.unacked.isEmpty
          | none => true
        then s.exportDone x e else s
      else if e.cancelled then (if e.transit.isEmpty then s.exportEnd x e 1 else s)
      else match e.slots with
        | [] => s.exportEnd x e 0
        | sl :: rest =>
          let pg := s.page sl.2.2.2
          if !pg.exportable then State.exportRun x n (s.modExp x fun e => { e with slots := rest })
          else if pg.exp = 15 || !s.exportCredit e then s
          else State.exportRun x n (s.exportPage x e sl rest)

/-- Let export `x` go on as far as it can. -/
def State.exportPump (s : State) (x : Nat) : State := match s.exp? x with
  | some e => State.exportRun x (e.slots.length + 3) s
  | none => s

/-- Flow `i` of export `x` has opened: EXPORT_BEGIN goes on it (R442). -/
def State.exportBegin (s : State) (x i : Nat) : State := match s.exp? x with
  | none => s
  | some e =>
    let d := (e.flows.findIdx? (· == i)).getD 0
    (s.flowSend i 0x10 none [(0, s.beginPayload e (s.exportHdr e) d)]).exportPump x

/-- Acknowledgements on flow `i` of export `x` reach `ack`: pages every destination has acknowledged end their export (R442), and the
exports that waited for one of them go on (08 R274). -/
def State.exportAcked (s : State) (x i ack : Nat) : State := match s.exp? x with
  | none => s
  | some e =>
    let got (m : Nat × Nat) : Bool := m.1 == i && (ack + 2 ^ 32 - m.2) % 2 ^ 32 < 2 ^ 31
    let n := (e.transit.filter fun t => t.2.any got).length
    let tr := e.transit.map fun t => (t.1, t.2.filter fun m => !got m)
    let s := s.bump Rg.CCH_EXPORT_PAGES n
    let s := (tr.filter fun t => t.2.isEmpty).foldl (fun s t => s.expEnd t.1) s
    let s := (s.modExp x fun e => { e with transit := tr.filter fun t => !t.2.isEmpty }).exportPump x
    s.coach.exports.foldl (fun s y => if y.1 = x then s else s.exportPump y.1) s

/-- Open the flows of export `x` that are not open yet, one destination after another (R419, R425, R442). -/
def State.exportFlows (x : Nat) : Nat → State → State
  | 0, s => s
  | n + 1, s => match s.exp? x with
    | none => s
    | some e =>
      let y := s.ent e.entry
      if y.nDests ≤ e.flows.length then s
      else
        let d := y.dests.getD e.flows.length 0
        match s.openFlow e.part (d % 8192) (bitsOf d 13 4) 1 (some x) with
        | (.flow i, s) => State.exportFlows x n (s.modExp x fun e => { e with flows := e.flows ++ [i] })
        | (.waits, s) => s.waitOpen 1 x
        | (.noPath, s) => s.pathLoss e.part (bitsOf (s.route (d % 8192)) 0 3) (d % 8192)
        | (.disabled, s) => s.pathLoss e.part (bitsOf (s.route (d % 8192)) 0 3) (d % 8192)

/-- The slots of an export: those of a list in slot order, as (layer, head, block × HALVES + half, page), and whether part of the list
could not be read. -/
structure ExportList where
  slots : List (Nat × Nat × Nat × Nat)
  lost : Bool
  st : State

/-- The non-hole slots of a list in slot order (R442). -/
def State.exportSlots (s : State) (p list : Nat) : ExportList := match s.listHdr p list with
  | (.error e, s) => ⟨[], e == stUncorr, s⟩
  | (.ok h, s) =>
    (List.range h.layers).foldl (fun (a : ExportList) l =>
      match a.st.layerPages p s.taskNext list l h with
      | (.error _, s) => { a with lost := true, st := s }
      | (.ok ps, s) => { a with slots := a.slots ++ ps.map fun x => (l, x.1, x.2.1 * h.halves + x.2.2.1, x.2.2.2), st := s }) ⟨[], false, s⟩

/-- EXPORTING entry `e` gets a context and opens its flows; with none free it waits its turn (R442). An export whose page list cannot be
read fails with UNCORRECTABLE, and its job faults (09 R304); one that holds a context already goes on as far as it can. -/
def State.exportStart (s : State) (e : Nat) : State :=
  let p := s.ledgerOwner e
  let y := s.ent e
  if !s.live p || y.state ≠ 5 then s
  else if s.coach.exports.any (fun x => x.2.entry == e) then
    s.coach.exports.foldl (fun s x => if x.2.entry = e then s.exportPump x.1 else s) s
  else if (y.dests.take y.nDests).any fun d => !s.routeValid (d % 8192) then s.retire p e stDisabled none
  else if y.cancelled then s.retire p e stDropped none
  else if 256 ≤ s.coach.exports.length || s.coach.exportWait.any (fun w => w != e && s.coach.exportWait.head? == some w) then
    if s.coach.exportWait.contains e then s
    else { s with coach := { s.coach with exportWait := s.coach.exportWait ++ [e] } }
  else
    let s : State := { s with coach := { s.coach with exportWait := s.coach.exportWait.filter (· != e) } }
    let r := s.exportSlots p y.pageList
    let s := r.st
    if r.lost then (s.retire p e stUncorr none).jobFault p stUncorr
    else
      let x := freeIdx s.coach.exports
      let s : State := { s with coach := { s.coach with
        exports := ins s.coach.exports x ⟨e, p, [], r.slots, 0, [], none, false⟩ } }
      State.exportFlows x 5 s

/-- EXPORT_START (R442): an EXPORTING request gets an export context and opens an export flow to each destination. -/
def execExportStart (e : Nat) (s : State) : Host.Outcome State Fault Refusal := .next (s.exportStart e)

end Sys2Proof.Machine
end

