-- ==== Sys2Proof/Machine/CoachCmds.lean ====
section
/-!
DEFINITION. The commands of the Coach ports (13_coach_ports.md): frames received (R418 to R431, R448), timers (R424 to R430),
transmission (R450), and the port states (R451, R452).
-/
namespace Sys2Proof.Machine

/-! ### Frames received (R418, R420 to R422) -/

/-- The frame whose Coach header begins `b`. -/
def Frame.ofBody (b : Bytes) : Frame :=
  ⟨fieldAt b 1 1, fieldAt b 2 1, fieldAt b 3 1 % 16, fieldAt b 3 1 / 16, fieldAt b 4 2, fieldAt b 6 2, fieldAt b 8 4,
    fieldAt b 12 2, fieldAt b 14 1, fieldAt b 15 1, fieldAt b 16 4, fieldAt b 24 6, (b.drop 32).take (b.length - 36)⟩

/-- Whether the payload length of a frame is one R421 allows. -/
def Frame.lenOk (f : Frame) : Bool :=
  let n := f.payload.length
  match f.type with
  | 1 => match f.op with
    | 0x01 => n ≤ 8192 && (n != 0 || f.flags % 4 == 3)
    | 0x10 => n == 64
    | 0x11 => n == 8224 || n == 8192
    | _ => n == 32
  | 2 => n == 48
  | 3 => n == 32
  | _ => n == 64

/-- Whether a frame sets a reserved field or code (R421, R426, R428, R447). -/
def Frame.reserved (f : Frame) (b : Bytes) : Bool :=
  let p := f.payload
  !inRange f.type 1 4 || 32 ≤ f.flags || 8192 ≤ f.src || 8192 ≤ f.dst || !allZero (slice b 22 2) || !allZero (slice b 30 2) ||
    (if f.type = 1 then !(f.op == 1 || inRange f.op 0x10 0x12) else f.op != 0) ||
    (match f.type with
      | 2 => !allZero (slice p 40 8)
      | 3 => !allZero (slice p 16 16)
      | 4 => 1 < fieldAt p 0 1 || 2 < fieldAt p 1 1 || 6 < fieldAt p 2 1 || fieldAt p 3 1 != 0 || !allZero (slice p 18 46)
      | _ => false)

/-- Whether a Coach body fails R422, its DST_DEV apart. -/
def bodyBad (b : Bytes) : Bool :=
  let f := Frame.ofBody b
  b.length < 36 || fieldAt b (b.length - 4) 4 != crc32c (b.take (b.length - 4)) || fieldAt b 0 1 != 1 ||
    fieldAt b 20 2 + 36 != b.length || f.reserved b || !f.lenOk

/-- Check a frame that arrives at port `n` (R418, R422): the frame, or none when it is discarded and counted. -/
def State.frameIn (s : State) (n : Nat) (w : WireFrame) : Option Frame × State :=
  if !s.portUp n then (none, s)
  else if !w.fcsOk || w.etherType ≠ 0x88B5 || 2 ≤ w.tags then (none, s.bump (Rg.CCH_PORT_DROP_OTHER_DROP n))
  else if !((List.range s.var.ports).any fun m => w.dstMac == macOf s.devId m) then (none, s.bump (Rg.CCH_PORT_DROP_ADDR_DROP n))
  else if bodyBad w.body then (none, s.bump (Rg.CCH_PORT_DROP_CRC_DROP n))
  else
    let f := Frame.ofBody w.body
    if f.dst ≠ s.devId then (none, s.bump (Rg.CCH_PORT_DROP_ADDR_DROP n)) else (some f, s)

/-- Count a frame accepted at port `n` (R455). -/
def State.rxCount (s : State) (n : Nat) : State := s.bump (Rg.CCH_PORT_FRAMES_RX n)

/-- Count a frame that fails a partition or job check at port `n` (R455). -/
def State.tagDrop (s : State) (n : Nat) : State := s.bump (Rg.CCH_PORT_DROP_TAG_DROP n)

/-- Change a receiving flow. -/
def State.modRx (s : State) (i : Nat) (f : RxFlow → RxFlow) : State := match s.rx? i with
  | some x => s.setRx i (some (f x))
  | none => s

/-- A HELLO reply to frame `f` (R426): 1 accept, 2 refuse, with a reason and the initial credit limit. -/
def State.helloReply (s : State) (f : Frame) (p kind reply reason credit : Nat) : Frame :=
  ⟨4, 0, f.dpart, f.spart, s.devId, f.src, s.jobId p, f.flow, 0, 0, 0, 0,
    mkRec 64 [(0, 1, kind), (1, 1, reply), (2, 1, reason), (4, 4, s.groupCrc p), (8, 4, s.portFw), (12, 4, credit),
      (16, 2, 8224)]⟩

/-! ### DATA (R429, R431) -/

/-- Advance ACK_PSN over what has been received, raising the counters of the LAST frames with CTR it passes: `n` frames at
most (R429). -/
def State.ackAdvance (i : Nat) : Nat → State → State
  | 0, s => s
  | n + 1, s => match s.rx? i with
    | none => s
    | some f => match f.got.find? fun g => g.1 == f.ack with
      | none => s
      | some g =>
        let s := s.setRx i (some { f with ack := (f.ack + 1) % 2 ^ 32, got := f.got.filter fun x => x.1 != g.1 })
        State.ackAdvance i n (match g.2 with
          | some c => s.triggerUp f.part c
          | none => s)

/-- Whether a DATA frame gives occasion for an ACK, and which gap it reports (R429). -/
def RxFlow.ackDue (f : RxFlow) (psn flags credit : Nat) : Bool × Nat :=
  let beyond := f.got.any fun g => g.1 == psn
  let gap := if beyond then f.ack + 1 else f.gap
  (bitOf flags 2 || 16 ≤ f.since || (beyond && f.gap != f.ack + 1) ||
    8 ≤ ((f.ack + credit) + 2 ^ 32 - f.creditSent) % 2 ^ 32 && (f.ack + credit + 2 ^ 32 - f.creditSent) % 2 ^ 32 < 2 ^ 31, gap)

/-- A DATA frame within the window of flow `i`: written, counted as received, acknowledged as R429 says. -/
def State.dataAccept (s : State) (n i : Nat) (f : Frame) : State := match s.rx? i with
  | none => s
  | some x =>
    if !s.ownRange x.part f.addr f.payload.length && f.payload.length != 0 then
      (s.isolation x.part (s.ownerAt f.addr) 0 f.addr).tagDrop n
    else
      let s := (s.devWrite x.part 2 f.addr f.payload).st.rxCount n
      let ctr := if bitOf f.flags 4 && bitOf f.flags 1 then some f.counter else none
      let s := s.modRx i fun x => { x with
        got := if x.got.any (fun g => g.1 == f.psn) then x.got else x.got ++ [(f.psn, ctr)]
        since := x.since + 1, oldestAt := some (x.oldestAt.getD s.now), lastAt := s.now, port := n }
      let s := State.ackAdvance i 257 s
      match s.rx? i with
      | none => s
      | some x =>
        let due := x.ackDue f.psn f.flags s.flowCredit
        let s := s.modRx i fun x => { x with gap := due.2 }
        if due.1 then s.sendAck i else s

/-- A DATA frame (R427, R429, R431). -/
def State.dataIn (s : State) (n : Nat) (f : Frame) : State :=
  match s.coach.rx.find? fun e => e.2.srcDev == f.src && e.2.spart == f.spart && e.2.flow == f.flow with
  | none => (s.queueCtrl n (s.helloReply f f.dpart (b2n (f.op != 1)) 2 6 0)).bump Rg.CCH_FLOWS_REFUSED
  | some (i, x) =>
    if x.part ≠ f.dpart || s.jobId x.part ≠ f.job || f.op ≠ 1 then
      (s.isolation x.part x.part 7 (f.flow + f.src * 2 ^ 16 + f.spart * 2 ^ 32)).tagDrop n
    else
      let rel := (f.psn + 2 ^ 32 - x.ack) % 2 ^ 32
      let win := min 256 ((x.credit + 2 ^ 32 - x.ack) % 2 ^ 32)
      if rel < win then s.dataAccept n i f
      else if 2 ^ 31 ≤ rel then (s.modRx i fun x => { x with lastAt := s.now, port := n }).sendAck i
      else (s.modRx i fun x => { x with lastAt := s.now, port := n }).bump (Rg.CCH_PORT_RETX_CREDIT_DROP n)

/-- Handle a frame of a type; a good frame of another type is left for its own command. -/
def State.onFrame (s : State) (n : Nat) (w : WireFrame) (is : Frame → Bool) (act : State → Frame → State) : State :=
  match s.frameIn n w with
  | (none, s) => s
  | (some f, s1) => if is f then act s1 f else s

/-- DATA_FRAME_RECEIVE (R429): a Coach DATA frame is checked, written within the credit window, and counted toward ACK_PSN
and trigger counters. -/
def execDataFrameReceive (n : Nat) (w : WireFrame) (s : State) : Host.Outcome State Fault Refusal :=
  .next (s.onFrame n w (fun f => f.type == 1) fun s f => s.dataIn n f)

/-! ### ACK (R428, R430) -/

/-- Resend one frame of flow `i`, marked RETX (R421, R430). -/
def State.resend (s : State) (i : Nat) (u : TxFrame) : State := match s.tx? i with
  | none => s
  | some f =>
    let fr := { u.frame with flags := u.frame.flags ||| 8 }
    (s.queueData f.port i fr).bump (Rg.CCH_PORT_RETX_RETX f.port)

/-- Frames that a SACK shows missing with four higher PSNs received, not yet resent for it (R430). -/
def fastMissing (f : TxFlow) (ack sack : Nat) : List TxFrame :=
  f.unacked.filter fun u =>
    let k := (u.frame.psn + 2 ^ 32 - ack) % 2 ^ 32
    u.sent && !u.fast && k < 257 && (k == 0 || !bitOf sack (k - 1)) &&
      4 ≤ ((List.range 256).filter fun j => k ≤ j && bitOf sack j).length

/-- An ACK for sending flow `i` (R428 to R430). -/
def State.ackIn (s : State) (n i : Nat) (f : TxFlow) (p : Bytes) : State :=
  let ack := fieldAt p 0 4
  let lim := fieldAt p 4 4
  let sack := fieldAt p 8 32
  if !psnIn f.base ((f.nextPsn + 1) % 2 ^ 32) ack then s
  else
    let s := s.rxCount n
    let gone (psn : Nat) : Bool := psnIn f.base ack psn
    let left := f.unacked.filter fun u => !gone u.frame.psn
    let fast := fastMissing { f with unacked := left } ack sack
    let ovr (e : Nat) : Bool := (ack + 2 ^ 32 - e) % 2 ^ 32 < 2 ^ 31
    let done := f.tasks.filter fun t => ovr t.2
    let s := s.setTx i (some { f with
      unacked := left.map fun u => if fast.any (fun v => v.frame.psn == u.frame.psn) then { u with fast := true } else u
      credit := if psnIn f.credit ((f.credit + 2 ^ 31) % 2 ^ 32) lim then lim else f.credit
      tasks := f.tasks.filter (fun t => !ovr t.2), lastAt := s.now })
    let s := fast.foldl (fun s u => s.resend i u) s
    let s := done.foldl (fun s t => s.modTask t.1 fun k => { k with flows := k.flows.filter (· != i) }) s
    let s := s.pumpFlow i
    match f.exp with
    | some x => s.exportAcked x i ack
    | none => s

/-- The sending flow that a frame from its receiver names. -/
def State.txNamed (s : State) (f : Frame) : Option (Nat × TxFlow) :=
  s.coach.tx.find? fun e => e.2.dev == f.src && e.2.dpart == f.spart && e.2.part == f.dpart && e.2.flow == f.flow

/-- ACK_RECEIVE (R430): an ACK frame frees acknowledged frames, raises credit and triggers fast retransmission. -/
def execAckReceive (n : Nat) (w : WireFrame) (s : State) : Host.Outcome State Fault Refusal :=
  .next (s.onFrame n w (fun f => f.type == 2) fun s f => match s.txNamed f with
    | some (i, x) => s.ackIn n i x f.payload
    | none => s)

/-! ### HELLO (R425 to R427) -/

/-- The answer to a job-flow HELLO: the first reason that applies, 0 for OK, the context last (R427). -/
def State.helloReason (s : State) (f : Frame) : Nat :=
  let p := f.dpart
  let crc := fieldAt f.payload 4 4
  if !s.defined p then 1
  else if s.jobId p ≠ f.job then 2
  else if (s.groupOf p).length ≠ 0 && crc ≠ 0 && (crc ≠ s.groupCrc p || !(s.groupOf p).contains (f.src, f.spart)) then 3
  else if fieldAt f.payload 8 4 ≠ s.portFw then 4 else 0

/-- Refuse a HELLO (R427): NO_PARTITION also counts a tag drop; GROUP and FIRMWARE raise a job fault here too. -/
def State.helloRefuse (s : State) (n : Nat) (f : Frame) (reason : Nat) : State :=
  let s := (s.queueCtrl n (s.helloReply f f.dpart (fieldAt f.payload 0 1) 2 reason 0)).bump Rg.CCH_FLOWS_REFUSED
  let s := if reason = 1 then s.tagDrop n else s
  if reason = 3 || reason = 4 then s.jobFault f.dpart stAborted else s

/-- Open, or open again, the receiving flow of an accepted HELLO (R425, R429, assumption 69). -/
def State.helloAccept (s : State) (n : Nat) (f : Frame) : State :=
  let fresh (s : State) : RxFlow := ⟨f.src, f.spart, f.flow, f.dpart, f.job, n, 0, s.flowCredit, s.flowCredit, [], 0, none, 0, s.now⟩
  let accept (s : State) (i : Nat) : State :=
    ((s.setRx i (some (fresh s))).queueCtrl n (s.helloReply f f.dpart 0 1 0 s.flowCredit)).rxCount n
  match s.coach.rx.find? fun e => e.2.srcDev == f.src && e.2.spart == f.spart && e.2.flow == f.flow with
  | some (i, _) => accept s i
  | none => match s.roomForFlow with
    | none => s.helloRefuse n f 6
    | some s => accept s (freeIdx s.coach.rx)

/-- HELLO_REQUEST_RECEIVE (R427): a HELLO request is checked and answered with accept or refuse; an export flow is not
accepted. -/
def execHelloRequestReceive (n : Nat) (w : WireFrame) (s : State) : Host.Outcome State Fault Refusal :=
  .next (s.onFrame n w (fun f => f.type == 4 && fieldAt f.payload 1 1 == 0) fun s f =>
    if fieldAt f.payload 0 1 = 1 then s.helloRefuse n f 5
    else match s.helloReason f with
      | 0 => s.helloAccept n f
      | r => s.helloRefuse n f r)

/-- Drop sending flow `i` and what its port holds of it. -/
def State.dropTx (s : State) (i : Nat) : State :=
  let s : State := { s with coach := { s.coach with ports := s.coach.ports.map fun q =>
    (q.1, { q.2 with data := q.2.data.filter fun x => x.1 != i }) } }
  s.setTx i none

/-- Path loss of sending flow `i`: it ends, and its partition's job takes a fault (R419, R430, R445, R452). -/
def State.flowLoss (s : State) (i : Nat) : State := match s.tx? i with
  | none => s
  | some f => ((s.pathLoss f.part f.port f.dev)).dropTx i

/-- A HELLO reply for sending flow `i` (R426, R427). -/
def State.helloIn (s : State) (n i : Nat) (f : TxFlow) (p : Bytes) : State :=
  if fieldAt p 1 1 = 1 then
    if f.opened then s
    else
      let s := (s.setTx i (some { f with opened := true, credit := fieldAt p 12 4, lastAt := s.now })).rxCount n
      match f.exp with
      | some x => s.exportBegin x i
      | none => s.pumpFlow i
  else
    let s := (s.rxCount n).bump Rg.CCH_FLOWS_REFUSED
    if f.opened && fieldAt p 2 1 ≠ 6 then s
    else if inRange (fieldAt p 2 1) 2 4 then ((s.jobFault f.part stAborted)).dropTx i
    else s.flowLoss i

/-- HELLO_REPLY_RECEIVE (R426): a HELLO reply opens the flow with its credit, or a refusal makes it a path loss. -/
def execHelloReplyReceive (n : Nat) (w : WireFrame) (s : State) : Host.Outcome State Fault Refusal :=
  .next (s.onFrame n w (fun f => f.type == 4 && fieldAt f.payload 1 1 != 0) fun s f => match s.txNamed f with
    | some (i, x) => s.helloIn n i x f.payload
    | none => s)

/-! ### ABORT (R447, R448) -/

/-- An ABORT frame for partition `p` (R448). -/
def State.abortIn (s : State) (n : Nat) (f : Frame) : State :=
  let p := f.dpart
  let m := (f.src, f.spart)
  if !s.defined p || s.jobId p ≠ f.job || s.jobId p = 0 || !((s.groupOf p).contains m || (s.jobPeers p).contains m) then s.tagDrop n
  else
    let key := (p, fieldAt f.payload 0 2, fieldAt f.payload 2 1, fieldAt f.payload 4 4)
    let s := s.rxCount n
    if s.coach.seen.contains key then s.bump Rg.CCH_ABORT_DUPLICATE
    else
      let s := (s.noteSeen p key.2.1 key.2.2.1 key.2.2.2).bump Rg.CCH_ABORT_ACCEPTED
      s.jobFaultWith p 1 stAborted 0 (some f.payload)

/-- ABORT_RECEIVE (R448): an accepted new ABORT raises a job fault and is forwarded, and others are discarded. -/
def execAbortReceive (n : Nat) (w : WireFrame) (s : State) : Host.Outcome State Fault Refusal :=
  .next (s.onFrame n w (fun f => f.type == 3) fun s f => s.abortIn n f)

/-- The second copy of an ABORT leaves on its port (R448). -/
def State.abortAgain (s : State) : State := match s.coach.copies with
  | [] => s
  | c :: r =>
    let s := s.passTo c.due
    State.queueAbort { s with coach := { s.coach with copies := r } } c.port c.frame

/-- ABORT_RESEND (R448): 2 µs after an ABORT, a second copy is sent on another usable port. -/
def execAbortResend (s : State) : Host.Outcome State Fault Refusal := .next s.abortAgain

/-! ### Transmission (R450) -/

/-- Put a frame on the wire of port `n` (R420, R455). -/
def State.wireOut (s : State) (n : Nat) (f : Frame) : State :=
  let b := s.wireBytes n f
  (s.modPort n fun q => { q with wire := q.wire ++ [b] }).bump (Rg.CCH_PORT_FRAMES_TX n)

/-- The partition of a queued DATA frame. -/
def dataPart (x : Nat × Frame) : Nat := x.2.spart

/-- The rotation of a port passes to the next partition, whose share adds to its deficit (R450). -/
def State.drrTurn (s : State) (port : Nat) (q : CoachPort) : CoachPort :=
  let p := (q.rot + 1) % 12
  { q with rot := p, deficit := ins q.deficit p (find (fun _ => 0) q.deficit p + 256 * max 1 (s.share p port)) }

/-- The next DATA frame by weighted deficit rotation, with the deficits and rotation after it: `n` visits at most (R450,
assumption 70). -/
def State.drrPick (s : State) (port : Nat) : Nat → CoachPort → Option ((Nat × Frame) × CoachPort)
  | 0, _ => none
  | n + 1, q => match q.data.find? fun x => dataPart x == q.rot with
    | none => State.drrPick s port n (s.drrTurn port { q with deficit := del q.deficit q.rot })
    | some x =>
      let d := find (fun _ => 0) q.deficit q.rot
      let len := x.2.payload.length + 58
      if len ≤ d then some (x, { q with deficit := ins q.deficit q.rot (d - len) })
      else State.drrPick s port n (s.drrTurn port q)

/-- Within a partition flows take one frame per turn: the others of flow `i` go behind (R450). -/
def takeFrame (i : Nat) (f : Frame) (xs : List (Nat × Frame)) : List (Nat × Frame) :=
  let ys := xs.erase (i, f)
  ys.filter (fun x => x.1 != i) ++ ys.filter fun x => x.1 == i

/-- Port `n` sends its next frame (R450). -/
def State.transmit (s : State) (n : Nat) : State :=
  if !s.portUp n then s
  else
    let q := s.port n
    match q.aborts with
    | f :: r => ((s.modPort n fun q => { q with aborts := r }).wireOut n f).bump Rg.CCH_ABORT_SENT
    | [] => match q.ctrl with
      | f :: r => (s.modPort n fun q => { q with ctrl := r }).wireOut n f
      | [] => match s.drrPick n 1024 q with
        | none => s
        | some ((i, f), q) => (s.modPort n fun _ => { q with data := takeFrame i f q.data }).wireOut n f

/-- FRAME_TRANSMIT (R450): a port sends its next frame: ABORT, then ACK and HELLO, then DATA by weighted deficit rotation. -/
def execFrameTransmit (n : Nat) (s : State) : Host.Outcome State Fault Refusal := .next (s.transmit n)

/-! ### Timers (R424 to R430) -/

/-- Move sending flow `i` to port `m`: its PSNs and credit stand, and every unacknowledged frame is sent again there (R452). -/
def State.moveFlow (s : State) (i m : Nat) : State := match s.tx? i with
  | none => s
  | some f =>
    let drop (q : CoachPort) : CoachPort := { q with data := q.data.filter fun x => x.1 != i }
    let s := (s.modPort f.port drop).setTx i (some { f with
      port := m, unacked := f.unacked.map fun u => { u with sentAt := s.now, rtoUs := s.rtoUs, tries := 0 } })
    if f.opened then (f.unacked.filter (·.sent)).foldl (fun s u => s.resend i u) s
    else
      let s := s.modTx i fun f => { f with helloAt := s.now, hellos := 0 }
      s.queueCtrl m (s.helloFrame f)

/-- Another port for a flow of `p` to `d` than `n`, under R419. -/
def State.otherPath (s : State) (p d n : Nat) : Option Nat :=
  let pri := bitsOf (s.route d) 0 3
  let b := s.cfg p (148 + pri) 1
  if pri != n && s.portServes p d pri then some pri
  else if b != 0xFF && b != n && s.portServes p d b then some b else none

/-- The port of flow `i` counts as failed for it: another under R419, or path loss, the second time at once (R430). -/
def State.flowPortFailed (s : State) (i : Nat) : State := match s.tx? i with
  | none => s
  | some f => match s.otherPath f.part f.dev f.port with
    | some m => if f.failed = 0 then (s.modTx i fun f => { f with failed := 1 }).moveFlow i m else s.flowLoss i
    | none => s.flowLoss i

/-- The retransmission timer of frame `psn` of flow `f` expires (R430). -/
def State.rtoFire (s : State) (i psn : Nat) : State := match s.tx? i with
  | none => s
  | some f => match f.unacked.find? fun u => u.frame.psn == psn && u.sent with
    | none => s
    | some u =>
      let s := (s.passTo (u.sentAt + u.rtoUs * 1000)).bump (Rg.CCH_PORT_RETX_RTO f.port)
      if s.retryMax ≤ u.tries + 1 then s.flowPortFailed i
      else
        let again (v : TxFrame) : TxFrame :=
          if v.frame.psn = psn then { v with sentAt := s.now, rtoUs := 2 * v.rtoUs, tries := v.tries + 1 } else v
        (s.modTx i fun f => { f with unacked := f.unacked.map again }).resend i u

/-- RTO_EXPIRY (R430): a frame's retransmission timer expires, and the frame is resent or the flow changes port. -/
def execRtoExpiry (f psn : Nat) (s : State) : Host.Outcome State Fault Refusal := .next (s.rtoFire f psn)

/-- An unanswered HELLO of flow `i` is resent, or the flow has no path (R419, R426). -/
def State.helloFire (s : State) (i : Nat) : State := match s.tx? i with
  | none => s
  | some f =>
    if f.opened then s
    else
      let s := s.passTo (f.helloAt + s.rtoUs * 1000)
      if s.retryMax ≤ f.hellos then s.flowLoss i
      else (s.setTx i (some { f with hellos := f.hellos + 1, helloAt := s.now })).queueCtrl f.port (s.helloFrame f)

/-- HELLO_RESEND_EXPIRY (R426): an unanswered HELLO is resent every RTO_US, up to RETRY_MAX times. -/
def execHelloResendExpiry (f : Nat) (s : State) : Host.Outcome State Fault Refusal := .next (s.helloFire f)

/-- ACK_DELAY passes at receiving flow `i` (R429). -/
def State.ackDelay (s : State) (i : Nat) : State := match s.rx? i with
  | none => s
  | some f => match f.oldestAt with
    | none => s
    | some t => (s.passTo (t + s.fd Rg.CCH_XPORT_CFG_ACK_DELAY * 100)).sendAck i

/-- ACK_DELAY_EXPIRY (R429): ACK_DELAY after the oldest unacknowledged frame, the receiver sends an ACK. -/
def execAckDelayExpiry (f : Nat) (s : State) : Host.Outcome State Fault Refusal := .next (s.ackDelay f)

/-- A flow idle for 1 s is dropped by its receiver, or by its sender if it has nothing to send (R424). -/
def State.flowIdle (s : State) (rx : Bool) (i : Nat) : State :=
  if rx then match s.rx? i with
    | some f => ((s.passTo (1000000000 + f.lastAt)).setRx i none).bump Rg.CCH_FLOWS_AGED
    | none => s
  else match s.tx? i with
    | some f =>
      if f.unacked.isEmpty && f.exp.isNone && f.opened then ((s.passTo (1000000000 + f.lastAt)).dropTx i).bump Rg.CCH_FLOWS_AGED else s
    | none => s

/-- FLOW_IDLE_EXPIRY (R424): a flow idle for 1 s is dropped by the receiver or the sender. -/
def execFlowIdleExpiry (rx : Bool) (f : Nat) (s : State) : Host.Outcome State Fault Refusal := .next (s.flowIdle rx f)

/-- The first open that waits for a flow context goes on, if one can be had (R425). -/
def State.openResume (s : State) : State := match s.coach.opens with
  | [] => s
  | (kind, i, _) :: r =>
    if s.roomForFlow.isNone then s
    else
      let s : State := { s with coach := { s.coach with opens := r } }
      if kind = 1 then State.exportFlows i 5 s
      else match s.task? i with
        | none => s
        | some k =>
          if k.kind = 6 then match s.portTask i 6 with
            | some (_, b) => s.collective i (fieldAt b 0 1)
            | none => s
          else match s.portTask i 5 with
            | some (_, b) => if fieldAt b 0 1 = 1 then s.xferWrite i else if fieldAt b 0 1 = 2 then s.xferShard i else s
            | none => s

/-- FLOW_OPEN_RESUME (R425): an open waiting for a flow context proceeds when a context frees. -/
def execFlowOpenResume (s : State) : Host.Outcome State Fault Refusal := .next s.openResume

/-! ### Port states (R451, R452) -/

/-- Whether the ports may leave DOWN: an image is loaded, and service holds none of them DOWN (R451; 02 R58; 17 R546). -/
def State.portsMayTrain (s : State) : Bool := s.loaded.isSome && (s.fd Rg.SVC_STATE_MODE != 2 && s.fd Rg.SVC_STATE_MODE != 4)

/-- Set the state of port `n`. -/
def State.setPort (s : State) (n st : Nat) : State := s.setF (Rg.CCH_PORT_STATUS_STATE n) st

/-- PORT_DETECT's effect: DOWN with the cage occupied, the port starts training (R451). -/
def State.portDetect (s : State) (n media : Nat) : State :=
  if s.var.ports ≤ n || s.portState n ≠ 0 || !s.on (Rg.CCH_PORT_STATUS_PRESENT n) || !s.portsMayTrain then s
  else (s.setPort n 1).setF (Rg.CCH_PORT_STATUS_MEDIA n) media

/-- PORT_DETECT (R451): with the cage present and a partner signal detected, the port starts training. -/
def execPortDetect (n media : Nat) (s : State) : Host.Outcome State Fault Refusal := .next (s.portDetect n media)

/-- PORT_TRAINED's effect: TRAINED, or UP at once where ENABLE is set (R451, R454). -/
def State.portTrained (s : State) (n : Nat) : State :=
  if s.var.ports ≤ n || s.portState n ≠ 1 then s
  else ((s.setPort n (if s.on (Rg.CCH_PORT_CTRL_ENABLE n) then 3 else 2)).setF (Rg.CCH_PORT_STATUS_TRAIN_FAILS n) 0).cycles
    [Rg.CCH_PORT_FEC_CORRECTED n, Rg.CCH_PORT_FEC_UNCORRECTED n]

/-- PORT_TRAINED (R451): port training completes and the port is TRAINED. -/
def execPortTrained (n : Nat) (s : State) : Host.Outcome State Fault Refusal := .next (s.portTrained n)

/-- PORT_TRAIN_FAIL's effect: the third failure in a row makes the port FAILED (R451). -/
def State.portTrainFail (s : State) (n : Nat) : State :=
  if s.var.ports ≤ n || s.portState n ≠ 1 then s
  else
    let s := s.bump (Rg.CCH_PORT_STATUS_TRAIN_FAILS n)
    if s.fd (Rg.CCH_PORT_STATUS_TRAIN_FAILS n) % 3 = 0 then (s.setPort n 4).modPort n fun q => { q with failedAt := s.now } else s

/-- PORT_TRAIN_FAIL (R451): port training fails, and the third consecutive failure makes the port FAILED. -/
def execPortTrainFail (n : Nat) (s : State) : Host.Outcome State Fault Refusal := .next (s.portTrainFail n)

/-- PORT_FAILED_RETRY (R451): 1 s after FAILED, the port returns to training. -/
def execPortFailedRetry (n : Nat) (s : State) : Host.Outcome State Fault Refusal :=
  .next (if s.var.ports ≤ n || s.portState n ≠ 4 then s else (s.passTo (1000000000 + (s.port n).failedAt)).setPort n 1)

/-- Port `n` has left UP: each flow on it chooses again, and one without path is lost (R452). -/
def State.portLeft (s : State) (n : Nat) : State :=
  let s := (s.bump (Rg.CCH_PORT_EVENTS_DOWNS n))
  (s.coach.tx.filter fun e => e.2.port == n).foldl (fun s e => match s.tx? e.1 with
    | none => s
    | some f => match s.pathFor f.part f.dev with
      | some m => ((s.moveFlow e.1 m).bump (Rg.CCH_PORT_EVENTS_FAILOVERS_OUT n)).bump (Rg.CCH_PORT_EVENTS_FAILOVERS_IN m)
      | none => s.flowLoss e.1) s

/-- A write to CCH_PORT_CTRL: its fields, and what ENABLE brings about (R451, R454). -/
def State.portCtrl (s : State) (n : Nat) (v : W64) : State :=
  if s.var.ports ≤ n then s
  else
    let w := v.toNat
    let s := ((((s.setF (Rg.CCH_PORT_CTRL_ENABLE n) (bitsOf w 0 1)).setF (Rg.CCH_PORT_CTRL_VLAN n) (bitsOf w 1 1)).setF
      (Rg.CCH_PORT_CTRL_PCP n) (bitsOf w 2 3)).setF (Rg.CCH_PORT_CTRL_VID n) (bitsOf w 8 12))
    if s.portState n = 2 && bitOf w 0 then s.setPort n 3
    else if s.portState n = 3 && !bitOf w 0 then (s.setPort n 2).portLeft n else s

/-- PORT_ENABLE_WRITE (R451): setting or clearing CCH_PORT_CTRL.ENABLE takes a trained port UP, or brings it back from UP. -/
def execPortEnableWrite (n : Nat) (v : W64) (s : State) : Host.Outcome State Fault Refusal := .next (s.portCtrl n v)

/-- Port `n` goes DOWN with ENABLE cleared; from UP its flows move (R451, R452). -/
def State.portDown (s : State) (n : Nat) : State :=
  let was := s.portState n
  let s := (s.setPort n 0).setF (Rg.CCH_PORT_CTRL_ENABLE n) 0
  if was = 3 then s.portLeft n else s

/-- PORT_LINK_LOSS (R451): a link lost for DOWN_US takes the port DOWN and clears ENABLE. -/
def execPortLinkLoss (n us : Nat) (s : State) : Host.Outcome State Fault Refusal :=
  .next (if s.var.ports ≤ n || s.portState n ≠ 3 || us < s.fd Rg.CCH_XPORT_CFG_DOWN_US then s
    else s.portDown n)

/-- PORT_SIGNAL_LOSS (R451): a port in TRAINING, TRAINED or FAILED loses its link or partner signal and goes DOWN. -/
def execPortSignalLoss (n : Nat) (s : State) : Host.Outcome State Fault Refusal :=
  .next (if s.var.ports ≤ n || s.portState n = 0 || s.portState n = 3 then s else s.portDown n)

end Sys2Proof.Machine
end

