-- ==== Sys2Proof/Machine/Crypto.lean ====
section
/-!
DEFINITION. The published standards that the boot and the attestation use (15_boot_security.md R488, R494 to R499): SHA-512, and
ECDSA over the curve P-521. Their constants are those of the standards (assumption 80).
-/
namespace Sys2Proof.Machine

/-! ### SHA-512 -/

/-- Round constants 0 to 19 of SHA-512. -/
def shaK0 : List W64 :=
   [0x428A2F98D728AE22, 0x7137449123EF65CD, 0xB5C0FBCFEC4D3B2F, 0xE9B5DBA58189DBBC,
    0x3956C25BF348B538, 0x59F111F1B605D019, 0x923F82A4AF194F9B, 0xAB1C5ED5DA6D8118,
    0xD807AA98A3030242, 0x12835B0145706FBE, 0x243185BE4EE4B28C, 0x550C7DC3D5FFB4E2,
    0x72BE5D74F27B896F, 0x80DEB1FE3B1696B1, 0x9BDC06A725C71235, 0xC19BF174CF692694,
    0xE49B69C19EF14AD2, 0xEFBE4786384F25E3, 0x0FC19DC68B8CD5B5, 0x240CA1CC77AC9C65]

/-- Round constants 20 to 39 of SHA-512. -/
def shaK1 : List W64 :=
   [0x2DE92C6F592B0275, 0x4A7484AA6EA6E483, 0x5CB0A9DCBD41FBD4, 0x76F988DA831153B5,
    0x983E5152EE66DFAB, 0xA831C66D2DB43210, 0xB00327C898FB213F, 0xBF597FC7BEEF0EE4,
    0xC6E00BF33DA88FC2, 0xD5A79147930AA725, 0x06CA6351E003826F, 0x142929670A0E6E70,
    0x27B70A8546D22FFC, 0x2E1B21385C26C926, 0x4D2C6DFC5AC42AED, 0x53380D139D95B3DF,
    0x650A73548BAF63DE, 0x766A0ABB3C77B2A8, 0x81C2C92E47EDAEE6, 0x92722C851482353B]

/-- Round constants 40 to 59 of SHA-512. -/
def shaK2 : List W64 :=
   [0xA2BFE8A14CF10364, 0xA81A664BBC423001, 0xC24B8B70D0F89791, 0xC76C51A30654BE30,
    0xD192E819D6EF5218, 0xD69906245565A910, 0xF40E35855771202A, 0x106AA07032BBD1B8,
    0x19A4C116B8D2D0C8, 0x1E376C085141AB53, 0x2748774CDF8EEB99, 0x34B0BCB5E19B48A8,
    0x391C0CB3C5C95A63, 0x4ED8AA4AE3418ACB, 0x5B9CCA4F7763E373, 0x682E6FF3D6B2B8A3,
    0x748F82EE5DEFB2FC, 0x78A5636F43172F60, 0x84C87814A1F0AB72, 0x8CC702081A6439EC]

/-- Round constants 60 to 79 of SHA-512. -/
def shaK3 : List W64 :=
   [0x90BEFFFA23631E28, 0xA4506CEBDE82BDE9, 0xBEF9A3F7B2C67915, 0xC67178F2E372532B,
    0xCA273ECEEA26619C, 0xD186B8C721C0C207, 0xEADA7DD6CDE0EB1E, 0xF57D4F7FEE6ED178,
    0x06F067AA72176FBA, 0x0A637DC5A2C898A6, 0x113F9804BEF90DAE, 0x1B710B35131C471B,
    0x28DB77F523047D84, 0x32CAAB7B40C72493, 0x3C9EBE0A15C9BEBC, 0x431D67C49C100D4C,
    0x4CC5D4BECB3E42B6, 0x597F299CFC657E2A, 0x5FCB6FAB3AD6FAEC, 0x6C44198C4A475817]

/-- The initial hash value of SHA-512. -/
def shaInit : List W64 :=
   [0x6A09E667F3BCC908, 0xBB67AE8584CAA73B, 0x3C6EF372FE94F82B, 0xA54FF53A5F1D36F1,
    0x510E527FADE682D1, 0x9B05688C2B3E6C1F, 0x1F83D9ABFB41BD6B, 0x5BE0CD19137E2179]

/-- Rotation to the right. -/
def rotr (x : W64) (n : Nat) : W64 := (x >>> n) ||| (x <<< (64 - n))

/-- The next word of the message schedule from the last sixteen. -/
def shaNext (w : List W64) : W64 :=
  let a := w.getD 1 0
  let b := w.getD 14 0
  ((rotr b 19 ^^^ rotr b 61) ^^^ (b >>> 6)) + w.getD 9 0 + ((rotr a 1 ^^^ rotr a 8) ^^^ (a >>> 7)) + w.getD 0 0

/-- One round: the eight working variables and the sixteen schedule words. -/
def shaRound (x : List W64 × List W64) (k : W64) : List W64 × List W64 :=
  match x.1 with
  | [a, b, c, d, e, f, g, h] =>
    let t1 := h + ((rotr e 14 ^^^ rotr e 18) ^^^ rotr e 41) + ((e &&& f) ^^^ (~~~e &&& g)) + k + x.2.getD 0 0
    let t2 := ((rotr a 28 ^^^ rotr a 34) ^^^ rotr a 39) + (((a &&& b) ^^^ (a &&& c)) ^^^ (b &&& c))
    ([t1 + t2, a, b, c, d + t1, e, f, g], x.2.drop 1 ++ [shaNext x.2])
  | v => (v, x.2)

/-- One block of 128 bytes. -/
def shaBlock (h : List W64) (b : Bytes) : List W64 :=
  let w := (List.range 16).map fun i => BitVec.ofNat 64 (beNat (slice b (8 * i) 8))
  let r := (shaK0 ++ shaK1 ++ shaK2 ++ shaK3).foldl shaRound (h, w)
  List.zipWith (fun x y => x + y) h r.1

/-- The blocks of a padded message: `n` at most. -/
def shaBlocks : Nat → List W64 → Bytes → List W64
  | 0, h, _ => h
  | n + 1, h, b => if b.isEmpty then h else shaBlocks n (shaBlock h (b.take 128)) (b.drop 128)

/-- SHA-512 of a message: 64 bytes. -/
def sha512 (m : Bytes) : Bytes :=
  let n := m.length
  let z := (111 + 128 - n % 128) % 128
  let p := m ++ [0x80] ++ List.replicate z 0 ++ toBe 16 (8 * n)
  (shaBlocks (n / 128 + 2) shaInit p).flatMap fun x => toBe 8 x.toNat

/-! ### The curve P-521 -/

/-- The field's prime. -/
def ecP : Nat := 2 ^ 521 - 1
/-- The coefficient b; a is -3. -/
def ecB : Nat :=
  0x0051953EB9618E1C9A1F929A21A0B68540EEA2DA725B99B315F3B8B489918EF109E156193951EC7E937B1652C0BD3BB1BF073573DF883D2C34F1EF451FD46B503F00
/-- The base point. -/
def ecG : Nat × Nat :=
  (0x00C6858E06B70404E9CD9E3ECB662395B4429C648139053FB521F828AF606B4D3DBAA14B5E77EFE75928FE1DC127A2FFA8DE3348B3C1856A429BF97E7E31C2E5BD66,
   0x011839296A789A3BC0045C8A5FB42C7D1BD998F54449579B446817AFBD17273E662C97EE72995EF42640C550B9013FAD0761353C7086A272C24088BE94769FD16650)
/-- The order of the base point. -/
def ecN : Nat := (2 ^ 265 - 6) * 2 ^ 256 + 0x51868783BF2F966B7FCC0148F709A5D03BB5C9B8899C47AEBB6FB71E91386409

/-- `a` to the power `e` modulo `m`, over the low `n` bits of `e`. -/
def powMod (m : Nat) : Nat → Nat → Nat → Nat → Nat
  | 0, _, _, r => r
  | n + 1, a, e, r => powMod m n (a * a % m) (e / 2) (if e % 2 = 1 then r * a % m else r)

/-- Inverse modulo a prime. -/
def invMod (m a : Nat) : Nat := powMod m 522 (a % m) (m - 2) 1

/-- Difference modulo `m`. -/
def subMod (m a b : Nat) : Nat := (a + (m - b % m)) % m

/-- A point of the curve; none is the point at infinity. -/
abbrev EcPoint := Option (Nat × Nat)

/-- The line through two points with slope `l` meets the curve at minus their sum. -/
def ecThird (l x1 y1 x2 : Nat) : EcPoint :=
  let x := subMod ecP (subMod ecP (l * l) x1) x2
  some (x, subMod ecP (l * subMod ecP x1 x) y1)

/-- Sum of two points. -/
def ecAdd : EcPoint → EcPoint → EcPoint
  | none, q => q
  | p, none => p
  | some (x1, y1), some (x2, y2) =>
    if x1 = x2 then
      if (y1 + y2) % ecP = 0 then none
      else ecThird (subMod ecP (3 * x1 * x1) 3 * invMod ecP (2 * y1)) x1 y1 x2
    else ecThird (subMod ecP y2 y1 * invMod ecP (subMod ecP x2 x1)) x1 y1 x2

/-- Multiple of a point, over the low `n` bits of `k`. -/
def ecMul : Nat → Nat → EcPoint → EcPoint → EcPoint
  | 0, _, _, r => r
  | n + 1, k, p, r => ecMul n (k / 2) (ecAdd p p) (if k % 2 = 1 then ecAdd r p else r)

/-- Whether a point lies on the curve. -/
def ecOn (x y : Nat) : Bool := x < ecP && y < ecP && y * y % ecP == (x * x * x + ecB + 3 * (ecP - x)) % ecP

/-- The point that a 133-byte uncompressed key encodes: 0x04, X, Y (R488). -/
def ecKey (k : Bytes) : Option (Nat × Nat) :=
  let x := beNat (slice k 1 66)
  let y := beNat (slice k 67 66)
  if k.length = 133 && fieldAt k 0 1 = 4 && ecOn x y then some (x, y) else none

/-- The uncompressed encoding of a point (R488). -/
def ecEncode (p : EcPoint) : Bytes := match p with
  | some (x, y) => [4] ++ toBe 66 x ++ toBe 66 y
  | none => List.replicate 133 0

/-- Whether `sig` (r, then s, 66 bytes each, big-endian) is the ECDSA signature of the digest `e` under a key (R46, R488). -/
def ecVerify (key sig e : Bytes) : Bool := match ecKey key with
  | none => false
  | some q =>
    let r := beNat (slice sig 0 66)
    let t := beNat (slice sig 66 66)
    if sig.length ≠ 132 || r = 0 || t = 0 || ecN ≤ r || ecN ≤ t then false
    else
      let w := invMod ecN t
      match ecAdd (ecMul 521 (beNat e * w % ecN) (some ecG) none) (ecMul 521 (r * w % ecN) (some q) none) with
      | some (x, _) => x % ecN == r
      | none => false

/-- The ECDSA signature of the digest `e` by the private key `d` with nonce `k` (R498, R499). -/
def ecSign (d k : Nat) (e : Bytes) : Bytes := match ecMul 521 k (some ecG) none with
  | none => List.replicate 132 0
  | some (x, _) =>
    let r := x % ecN
    toBe 66 r ++ toBe 66 (invMod ecN k * ((beNat e + r * d) % ecN) % ecN)

end Sys2Proof.Machine
end

