-- ==== Sys2Proof/Machine/Larric.lean ====
section
/-!
DEFINITION. The Larric Link (14_larric_link.md): training (R462), flits, sequence and replay (R464 to R467), credit (R468),
messages of memory across the link (R470 to R477), interrupts (R478) and link loss (R479).
-/
namespace Sys2Proof.Machine

/-! ### The link's state -/

/-- LRL_STATUS.STATE (R481): 0 DOWN, 1 DETECT, 2 TRAIN, 3 CONFIG, 4 ACTIVE, 5 RETRAIN. -/
def State.lrlState (s : State) : Nat := s.fd Rg.LRL_STATUS_STATE

/-- Change the port engine's state. -/
def State.modLrl (s : State) (f : LarricSt → LarricSt) : State := { s with larric := f s.larric }

/-- Set LRL_STATUS.STATE. -/
def State.setLrl (s : State) (st : Nat) : State := s.setF Rg.LRL_STATUS_STATE st

/-- Whether the link trained with MODE RECOVERY (R480). -/
def State.recovery (s : State) : Bool := s.on Rg.LRL_STATUS_MODE

/-- The partitions that own an outstanding MEM_RD or a write to the window not yet sent whole (R479): a message in mid-channel keeps its
header (`State.sendNew`). -/
def LarricSt.owners (l : LarricSt) : List Nat :=
  l.tags.map (·.part) ++ (l.txq.flatMap fun e => (e.2.filter fun b => fieldAt b 0 1 == 0x11).map fun b => fieldAt b 2 1)

/-- The port engine with its buffers and queues emptied (R479); interrupt sources stay as they are. -/
def LarricSt.cleared (l : LarricSt) : LarricSt :=
  { l with txq := [], txMid := [], replay := [], resend := 0, replays := 0, ctlq := [], nakSent := false, rxPart := [], rxq := [],
           tags := [], attempts := 0 }

/-- A read by Innkeeper at address `a` of the window fails: the IMG, SEC or repair command whose source holds it ends with XFER_ERROR
(02 R74; 15 R496; 17 R544). -/
def State.innkeeperReadFails (s : State) (a : Nat) : State :=
  let src (h : Nat) (f : RF) : Bool := (s.rd h).toNat ≤ a && a < (s.rd h).toNat + s.fd f
  let s := if src Rg.IMG_XFER_HOST Rg.IMG_XFER_LEN_LEN then s.setF Rg.IMG_STATUS_LAST_RESULT 0x12 else s
  let s := if src Rg.SEC_XFER_HOST Rg.SEC_XFER_LEN_LEN then s.setF Rg.SEC_RESULT_RESULT 0x12 else s
  if src Rg.FLT_REPAIR_HOST Rg.FLT_REPAIR_LEN_LEN then s.setF Rg.FLT_REPAIR_RESULT_RESULT 6 else s

/-- Link loss (R479): buffers discarded, outstanding transfers failed with a job fault each, those of Innkeeper's commands with
XFER_ERROR, the loss counted and logged. -/
def State.linkLoss (s : State) : State :=
  let own := s.larric.owners
  let s := (s.larric.tags.filter fun o => 12 ≤ o.part).foldl (fun s o => s.innkeeperReadFails (windowBase + o.addr)) s
  let s := (((s.setLrl 0).setF Rg.LRL_STATUS_WIDTH 0).bump Rg.LRL_EVENTS_DOWNS).fltAdd 8 0 15 15 0 false 0
  let s := s.modLrl fun l => { l.cleared with downAt := some s.now }
  allParts.foldl (fun s p => if own.contains p then s.jobFault p stUncorr else s) s

/-- Training failed (R462): DOWN, counted. -/
def State.trainFailed (s : State) : State :=
  ((s.setLrl 0).bump Rg.LRL_STATUS_TRAIN_FAILS).modLrl fun l => { l with downAt := some s.now }

/-- The width that a set of locked lanes allows (R462): 8, 4 under ALLOW_X4, or none. -/
def State.widthOf (s : State) (lanes : Nat) : Option Nat :=
  if lanes % 256 = 255 then some 8
  else if (lanes % 16 == 15 || lanes / 16 % 16 == 15) && s.on Rg.LRL_CFG_ALLOW_X4 then some 4 else none

/-- LINK_DETECT's effect: DOWN leaves for DETECT once the boot reached its Larric stage, 10 ms after a loss (R462). -/
def State.linkDetect (s : State) : State :=
  if s.phase ≠ .running || s.lrlState ≠ 0 || (s.fd Rg.SEC_BOOT_STATUS_STAGE < 6 && !s.on Rg.SEC_BOOT_STATUS_MODE) ||
      s.warmDue.isSome then s
  else
    let s := match s.larric.downAt with
      | some t => s.passTo (10000000 + t)
      | none => s
    (s.setLrl 1).modLrl fun l => { l with downAt := none }

/-- LINK_DETECT (R462): the Larric link enters DETECT at the boot's Larric stage, or 10 ms after a link loss. -/
def execLinkDetect (s : State) : Host.Outcome State Fault Refusal := .next s.linkDetect

/-- LINK_PARTNER_SEEN (R462): partner terminations seen on at least 4 lanes move the link to TRAIN. -/
def execLinkPartnerSeen (lanes : Nat) (s : State) : Host.Outcome State Fault Refusal :=
  .next (if s.lrlState = 1 && 4 ≤ lanes then (s.setLrl 2).modLrl fun l => { l with trainAt := s.now } else s)

/-- LINK_LANES_LOCK's effect on the set `lanes` of locked lanes (R462). -/
def State.lanesLock (s : State) (lanes : Nat) : State :=
  if s.lrlState ≠ 2 then s
  else match s.widthOf lanes with
    | some w => ((s.setLrl 3).setF Rg.LRL_STATUS_WIDTH w).setF Rg.LRL_STATUS_LANES_FAILED (255 - lanes % 256)
    | none => (s.setF Rg.LRL_STATUS_LANES_FAILED (255 - lanes % 256)).trainFailed

/-- LINK_LANES_LOCK (R462): all 8 lanes, or one half under ALLOW_X4, lock, and the link moves to CONFIG. -/
def execLinkLanesLock (lanes : Nat) (s : State) : Host.Outcome State Fault Refusal := .next (s.lanesLock lanes)

/-- LINK_TRAIN_TIMEOUT (R462): training that does not lock within 20 ms returns the link to DOWN. -/
def execLinkTrainTimeout (s : State) : Host.Outcome State Fault Refusal :=
  .next (if s.lrlState = 2 then (s.passTo (20000000 + s.larric.trainAt)).trainFailed else s)

/-- LINK_CONFIG_DONE's effect: ACTIVE, sequence numbers and credits from 0, with the adapter's initial credits (R462, R468). -/
def State.configDone (s : State) (credits : List Nat) : State :=
  if s.lrlState ≠ 3 || credits.length ≠ 4 || credits.any (· < 8) then s
  else
    (s.setLrl 4).modLrl fun l => { l with
      txSeq := 0, rxSeq := 0, acked := 0, replay := [], resend := 0, replays := 0, nakSent := false, ctlq := [], slot := 0, credInit := credits
      credUsed := [], credLimit := [], credGiven := [], rxPart := [], txMid := [] }

/-- LINK_CONFIG_DONE (R462): the parameter exchange completes and the link becomes ACTIVE. -/
def execLinkConfigDone (credits : List Nat) (s : State) : Host.Outcome State Fault Refusal := .next (s.configDone credits)

/-- LINK_RETRAIN_RELOCK's effect: ACTIVE at the same or reduced width, unacknowledged flits replayed; or a failed attempt, the
third of which loses the link (R462, R467). -/
def State.relock (s : State) (lanes : Nat) : State :=
  if s.lrlState ≠ 5 then s
  else match s.widthOf lanes with
    | some w =>
      let s := ((s.setLrl 4).setF Rg.LRL_STATUS_WIDTH (min w (s.fd Rg.LRL_STATUS_WIDTH))).setF Rg.LRL_STATUS_LANES_FAILED (255 - lanes % 256)
      s.modLrl fun l => { l with resend := 0, replays := 0, attempts := 0, oldestAt := s.now }
    | none =>
      let s := (s.setF Rg.LRL_STATUS_LANES_FAILED (255 - lanes % 256)).modLrl fun l => { l with attempts := l.attempts + 1 }
      if 3 ≤ s.larric.attempts then s.linkLoss else s

/-- LINK_RETRAIN_RELOCK (R467): the lanes relock in RETRAIN, the link is ACTIVE again and unacknowledged flits are replayed. -/
def execLinkRetrainRelock (lanes : Nat) (s : State) : Host.Outcome State Fault Refusal := .next (s.relock lanes)

/-- LINK_RETRAIN_TIMEOUT (R462): RETRAIN_MS pass, or three attempts fail, and the link goes DOWN. -/
def execLinkRetrainTimeout (s : State) : Host.Outcome State Fault Refusal :=
  .next (if s.lrlState = 5 then (s.passTo (1000000 * s.fd Rg.LRL_CFG_RETRAIN_MS + s.larric.retrainAt)).linkLoss else s)

/-! ### Replay (R466, R467) -/

/-- A replay of everything unacknowledged begins; the fourth in a row without progress enters RETRAIN (R466, R467). -/
def State.replayAll (s : State) : State :=
  let s := (s.bump Rg.LRL_ERR_REPLAYS).modLrl fun l => { l with resend := 0, replays := l.replays + 1, oldestAt := s.now }
  if 4 ≤ s.larric.replays then
    ((s.setLrl 5).bump Rg.LRL_ERR_RETRAINS).modLrl fun l => { l with retrainAt := s.now, attempts := 0, replays := 0 }
  else s

/-- REPLAY_TIMER_EXPIRY (R466): after REPLAY_NS unacknowledged, the sender replays, and a fourth replay without progress
enters RETRAIN. -/
def execReplayTimerExpiry (s : State) : Host.Outcome State Fault Refusal :=
  .next (if s.lrlActive && !s.larric.replay.isEmpty then
    (s.passTo (s.larric.oldestAt + s.fd Rg.LRL_CFG_REPLAY_NS)).replayAll else s)

/-! ### Flits received (R464, R466, R468) -/

/-- Whether a received flit is discarded whole (R464). -/
def flitBad (b : Bytes) : Bool :=
  let kind := fieldAt b 0 1
  b.length != 256 || fieldAt b 252 4 != crc32c (b.take 252) || 2 < kind || fieldAt b 1 1 / 16 != 0 || fieldAt b 2 2 / 4096 != 0 ||
    fieldAt b 4 2 / 4096 % 8 != 0 || 244 < fieldAt b 6 1 || fieldAt b 7 1 != 0 ||
    (kind == 2 && (match fieldAt b 8 1 with
      | 1 => !allZero (slice b 9 243)
      | 2 => !(allZero (slice b 9 3) && allZero (slice b 28 224))
      | _ => true))

/-- One NAK after a discard, until an in-order flit arrives (R466). -/
def State.nak (s : State) : State :=
  if s.larric.nakSent then s else s.modLrl fun l => { l with nakSent := true, ctlq := l.ctlq ++ [[1]] }

/-- Take the ACK of a flit: what it acknowledges leaves the replay buffer (R464, R466). -/
def State.takeAck (s : State) (ack : Nat) : State :=
  if !bitOf ack 15 then s
  else match s.larric.replay.findIdx? fun r => r.1 % 4096 == ack % 4096 with
    | none => s
    | some i => s.modLrl fun l => { l with
        replay := l.replay.drop (i + 1), resend := l.resend - (i + 1), acked := l.acked + i + 1, replays := 0, oldestAt := s.now }

/-- The message whose bytes are `b` (R470). -/
def Msg.ofBytes (b : Bytes) : Msg :=
  ⟨fieldAt b 0 1, fieldAt b 1 1, fieldAt b 2 1, fieldAt b 3 1, fieldAt b 4 4, fieldAt b 8 8, b.drop 16⟩

/-- Whether the host may send a message of this type (R471). -/
def hostType (t : Nat) : Bool := [0x01, 0x02, 0x04, 0x10, 0x11, 0x12].contains t

/-- A message received whole on channel `vc`: kept for its command, or discarded and counted (R471). -/
def State.msgIn (s : State) (vc : Nat) (b : Bytes) : State :=
  if b.length < 16 || !hostType (fieldAt b 0 1) then s.bump Rg.LRL_EVENTS_ACCESS_ERR
  else s.modLrl fun l => { l with rxq := l.rxq ++ [(vc, Msg.ofBytes b)] }

/-- A DATA flit in order: its credit is returned and its message grows (R466, R468, R469). -/
def State.dataFlit (s : State) (b : Bytes) : State :=
  let vcf := fieldAt b 1 1
  let vc := vcf % 4
  let body := (b.drop 8).take (fieldAt b 6 1)
  let s := s.modLrl fun l => { l with
    rxSeq := l.rxSeq + 1, nakSent := false, credGiven := ins l.credGiven vc (find (fun _ => 0) l.credGiven vc + 1)
    ctlq := if l.ctlq.contains [2] then l.ctlq else l.ctlq ++ [[2]] }
  let msg := (if bitOf vcf 2 then [] else find (fun _ => []) s.larric.rxPart vc) ++ body
  if bitOf vcf 3 then State.msgIn (s.modLrl fun l => { l with rxPart := ins l.rxPart vc [] }) vc msg
  else s.modLrl fun l => { l with rxPart := ins l.rxPart vc msg }

/-- A received flit (R464, R466): checked, its ACK taken, and its kind's effect. -/
def State.flitIn (s : State) (b : Bytes) : State :=
  if !s.lrlActive then s
  else if flitBad b then (s.bump Rg.LRL_ERR_CRC_ERR).nak
  else
    let s := s.takeAck (fieldAt b 4 2)
    match fieldAt b 0 1 with
    | 1 => if fieldAt b 2 2 = s.larric.rxSeq % 4096 then s.dataFlit b else s.nak
    | 2 => if fieldAt b 8 1 = 1 then (if s.larric.replay.isEmpty then s else s.replayAll)
      else s.modLrl fun l => { l with credLimit := (List.range 4).map fun v => (v, fieldAt b (12 + 4 * v) 4) }
    | _ => s

/-- FLIT_RECEIVE (R466): a received flit is checked, acknowledged or NAKed, and its ACK and CREDIT are taken. -/
def execFlitReceive (flit : Bytes) (s : State) : Host.Outcome State Fault Refusal := .next (s.flitIn flit)

/-! ### Flits sent (R464 to R469) -/

/-- The header ACK (R464): the last DATA sequence received in order. -/
def LarricSt.ackField (l : LarricSt) : Nat := if l.rxSeq = 0 then 0 else (l.rxSeq - 1) % 4096 + 2 ^ 15

/-- A flit with its ACK and CRC (R464); `h` holds its other fields. -/
def LarricSt.seal (l : LarricSt) (kind vcf seq : Nat) (body : Bytes) : Bytes :=
  let b := mkRec 8 [(0, 1, kind), (1, 1, vcf), (2, 2, seq % 4096), (4, 2, l.ackField), (6, 1, body.length)] ++ slice body 0 244
  b ++ toLe 4 (crc32c b)

/-- The flit put on the lanes. -/
def State.sendFlit (s : State) (kind vcf seq : Nat) (body : Bytes) : State :=
  s.modLrl fun l => { l with flit := l.seal kind vcf seq body }

/-- The messages waiting on channel `v`. -/
def LarricSt.waiting (l : LarricSt) (v : Nat) : List Bytes := find (fun _ => []) l.txq v

/-- Whether channel `v` has credit (R468). -/
def LarricSt.credit (l : LarricSt) (v : Nat) : Bool :=
  let n := (l.credInit.getD v 0 + find (fun _ => 0) l.credLimit v + 2 ^ 32 - find (fun _ => 0) l.credUsed v % 2 ^ 32) % 2 ^ 32
  n != 0 && n < 2 ^ 31

/-- Whether channel `v` may send its next flit: a message, credit, and for an INTR no earlier MEM_WR unsent (R468, R469). -/
def LarricSt.ready (l : LarricSt) (v : Nat) : Bool := match l.waiting v with
  | [] => false
  | m :: _ =>
    let intr := v == 3 && !l.txMid.contains 3 && fieldAt m 0 1 == 0x20
    let bulk := l.txMid.contains 2 || (l.waiting 2).any fun b => fieldAt b 0 1 == 0x11
    l.credit v && !(intr && bulk)

/-- Send the next DATA flit of channel `v` (R466, R469). What is left of a message waits behind its 16-byte header, which is not sent
again. -/
def State.sendNew (s : State) (v : Nat) : State := match s.larric.waiting v with
  | [] => s
  | m :: r =>
    let l := s.larric
    let rest := if l.txMid.contains v then m.drop 16 else m
    let body := rest.take 244
    let left := rest.drop 244
    let vcf := v + (if l.txMid.contains v then 0 else 4) + (if left.isEmpty then 8 else 0)
    let s := s.modLrl fun l => { l with
      txq := ins l.txq v (if left.isEmpty then r else (m.take 16 ++ left) :: r)
      txMid := if left.isEmpty then l.txMid.filter (· != v) else if l.txMid.contains v then l.txMid else l.txMid ++ [v]
      credUsed := ins l.credUsed v (find (fun _ => 0) l.credUsed v + 1)
      oldestAt := if l.replay.isEmpty then s.now else l.oldestAt
      replay := l.replay ++ [(l.txSeq, BitVec.ofNat 8 vcf :: body)]
      resend := l.replay.length + 1, txSeq := l.txSeq + 1 }
    s.sendFlit 1 vcf l.txSeq body

/-- A CONTROL flit if one waits, else an IDLE flit (R464, R465). -/
def State.sendControl (s : State) : State := match s.larric.ctlq with
  | c :: r =>
    let s := s.modLrl fun l => { l with ctlq := r }
    if c = [1] then s.sendFlit 2 0 0 [1]
    else
      let n (v : Nat) : Bytes := toLe 4 (find (fun _ => 0) s.larric.credGiven v)
      s.sendFlit 2 0 0 ([2, 0, 0, 0] ++ n 0 ++ n 1 ++ n 2 ++ n 3)
  | [] => s.sendFlit 0 0 0 []

/-- One flit slot: of every 16 one carries no DATA; in the others a replayed flit, else a new one of a channel that may send,
freely chosen, else control (R465, R466, R468). -/
def State.flitOut (s : State) : State :=
  if !s.lrlActive then s
  else
    let k := s.larric.slot
    let s := s.modLrl fun l => { l with slot := (l.slot + 1) % 16 }
    if k = 0 then s.sendControl
    else match s.larric.replay[s.larric.resend]? with
      | some (seq, b) => State.sendFlit (s.modLrl fun l => { l with resend := l.resend + 1 }) 1 (fieldAt b 0 1) seq (b.drop 1)
      | none =>
        let vs := (List.range 4).filter s.larric.ready
        if vs.isEmpty || 64 ≤ s.larric.replay.length then s.sendControl
        else s.freeNext.sendNew (vs.getD (s.freeVal % vs.length) 0)

/-- FLIT_TRANSMIT (R465): the link sends a DATA, CONTROL or IDLE flit in each flit slot. -/
def execFlitTransmit (s : State) : Host.Outcome State Fault Refusal := .next s.flitOut

/-! ### Host accesses to partition memory (R477) -/

/-- The first message received that a host command performs leaves its queue. -/
def State.takeMsg (s : State) (is : Msg → Bool) : State := s.modLrl fun l => { l with rxq := l.rxq.eraseP fun m => is m.2 }

/-- Every host write that waits at a controller is accepted (R306, R469). -/
def State.flushHost (s : State) : State :=
  (List.range s.var.channels).foldl (fun s n =>
    let w := (s.memCtl n).wait
    if w.isEmpty then s
    else w.foldl (fun s x => s.ramWrite x.tag 2 x.addr x.data false) (s.modMemCtl n fun c => { c with wait := [] })) s

/-- Whether a host memory access is refused (R477). -/
def State.hostRefused (s : State) (p a n : Nat) : Bool :=
  !s.defined p || ((s.cfg p 1 1) % 16 == 15 && (s.part p).started) || windowBase ≤ a || (s.badPoint p a n).isSome

/-- Whether a memory request is malformed (R471, R472). -/
def badSpan (a n : Nat) : Bool := n = 0 || 4096 < n || 4096 < a % 4096 + n

/-- An error completion: counted, and logged with its device address or register offset (R472, 17 R551). -/
def State.errCpl (s : State) (vc mtype tag part status a : Nat) : State :=
  ((s.bump Rg.LRL_EVENTS_ACCESS_ERR).fltAdd 11 (if status = 4 then stUncorr else 0) part 15 0 false a).sendMsg vc
    ⟨mtype, tag, part, status, 0, a, []⟩

/-- HOST_MEM_RD's effect (R472, R477, R480; 02 R69). -/
def State.hostMemRd (s : State) (p a n tag : Nat) : State :=
  if !s.lrlActive then s
  else
    let s := s.takeMsg fun m => m.mtype == 0x10 && m.tag == tag && m.addr == a && m.len == n
    if s.recovery then s.bump Rg.LRL_EVENTS_ACCESS_ERR
    else if badSpan a n then s.errCpl 2 0x12 tag p 5 a
    else if s.hostRefused p a n then (s.isolation p (s.ownerAt a) 0 a).errCpl 2 0x12 tag p 2 a
    else
      let r := s.flushHost.ramRead p 2 a n
      if r.code = 2 then (r.st.errCpl 2 0x12 tag p 4 a).jobFault p stUncorr
      else if !r.poison.isEmpty then r.st.errCpl 2 0x12 tag p 4 a
      else r.st.sendMsg 2 ⟨0x12, tag, p, 0, n, a, r.data⟩

/-- HOST_MEM_RD (R477): a host MEM_RD of partition memory is checked and answered with a MEM_CPL. -/
def execHostMemRd (part addr len tag : Nat) (s : State) : Host.Outcome State Fault Refusal :=
  .next (s.hostMemRd (part % 16) addr len tag)

/-- The controller whose full write queue a write of `n` bytes at `a` waits for (R306). -/
def State.fullQueue (s : State) (a n : Nat) : Option Nat :=
  ((linesOf a n).filter fun l => !lineSram l).map s.channelOf |>.find? fun c => 64 ≤ (s.memCtl c).writes || !(s.memCtl c).wait.isEmpty

/-- HOST_MEM_WR's effect (R477, R480; 09 R306; 02 R69). -/
def State.hostMemWr (s : State) (p a : Nat) (d : Bytes) : State :=
  if !s.lrlActive then s
  else
    let s := s.takeMsg fun m => m.mtype == 0x11 && m.addr == a && m.data == d
    if s.recovery || badSpan a d.length then s.bump Rg.LRL_EVENTS_ACCESS_ERR
    else if s.hostRefused p a d.length then
      (s.isolation p (s.ownerAt a) 0 a).bump Rg.LRL_EVENTS_ACCESS_ERR
    else match s.fullQueue a d.length with
      | some c => s.modMemCtl c fun x => { x with wait := x.wait ++ [⟨p, a, d⟩] }
      | none => s.ramWrite p 2 a d false

/-- HOST_MEM_WR (R477): a host MEM_WR of partition memory is checked and performed, or dropped. -/
def execHostMemWr (part addr : Nat) (data : Bytes) (s : State) : Host.Outcome State Fault Refusal :=
  .next (s.hostMemWr (part % 16) addr data)

/-! ### Completions of device reads (R475, R476) -/

/-- A device MEM_RD fails as an uncorrectable Larric transfer of its partition, or of Innkeeper's command (R475, R476; 09 R304). -/
def State.readFails (s : State) (o : OutRead) : State :=
  let s := s.fltAdd 11 stUncorr o.part 15 0 false (windowBase + o.addr)
  if o.part < 12 then s.jobFault o.part stUncorr else s.innkeeperReadFails (windowBase + o.addr)

/-- MEM_CPL_RECEIVE's effect: the tag is free; good data tells what host memory holds (assumption 8). -/
def State.memCpl (s : State) (tag status : Nat) (d : Bytes) : State :=
  if !s.lrlActive then s
  else
    let s := s.takeMsg fun m => m.mtype == 0x12 && m.tag == tag
    match s.larric.tags.find? fun o => o.tag == tag with
    | none => s.bump Rg.LRL_EVENTS_ACCESS_ERR
    | some o =>
      let s := s.modLrl fun l => { l with tags := l.tags.filter fun o => o.tag != tag }
      if status = 0 && d.length = o.len then { s with hostMem := putBytes s.hostMem o.addr d } else s.readFails o

/-- MEM_CPL_RECEIVE (R476): a MEM_CPL from the host completes a device MEM_RD of the host-memory window. -/
def execMemCplReceive (tag status : Nat) (data : Bytes) (s : State) : Host.Outcome State Fault Refusal :=
  .next (s.memCpl tag status data)

/-- CPL_TIMEOUT's effect (R476). -/
def State.cplTimeout (s : State) (tag : Nat) : State := match s.larric.tags.find? fun o => o.tag == tag with
  | none => s
  | some o =>
    let s := (s.passTo (1000000 * s.fd Rg.LRL_CFG_CPL_TIMEOUT_MS + o.sentAt)).bump Rg.LRL_EVENTS_CPL_TIMEOUT
    State.readFails (s.modLrl fun l => { l with tags := l.tags.filter fun o => o.tag != tag }) o

/-- CPL_TIMEOUT (R476): a device MEM_RD not completed in CPL_TIMEOUT_MS fails as an uncorrectable read. -/
def execCplTimeout (tag : Nat) (s : State) : Host.Outcome State Fault Refusal := .next (s.cplTimeout tag)

/-! ### Interrupt messages (R478) -/

/-- Whether the condition of interrupt source `i` holds (R478). The conditions of IMG and LRL are stated nowhere: free
(assumption 71). -/
def State.irqCond (s : State) (i : Nat) : Bool :=
  let p := i / 4
  if i < 48 then
    if i % 4 = 0 then (s.rd (Rg.DSP_IRQ p)) != 0
    else if i % 4 = 1 then s.on (Rg.LDG_CFG_IRQ_HOST p) && (s.rd (Rg.LDG_IRQ p)) != 0
    else if i % 4 = 2 then (List.range 64).any fun g =>
      bitOf (s.rd (Rg.CHN_IRQ_GROUP p)).toNat g && s.fd (Rg.CHN_SEL_CFG_OWNER p g) == 0xFE && s.on (Rg.CHN_SEL_CFG_IRQ_EN p g)
    else false
  else match i with
    | 48 => s.rd Rg.FLT_IRQ != 0
    | 49 => Config.irqOpen 49 (s.rd Rg.IMG_STATUS).toNat % 2 == 1
    | 50 => s.rd Rg.SVC_IRQ != 0
    | 51 => s.on Rg.SEC_RESULT_DONE
    | 52 => Config.irqOpen 52 (s.rd Rg.LRL_EVENTS).toNat % 2 == 1
    | 53 => s.rd Rg.PWR_IRQ != 0
    | _ => false

/-- LRL_IRQ_PEND (R484). -/
def State.irqPend (s : State) : Nat := (List.range 64).foldl (fun x i => x + b2n (s.irqCond i) * 2 ^ i) 0

/-- Source `i` sends an INTR if it is armed, unmasked and its condition holds (R478, R480). -/
def State.sendIntr (s : State) (i : Nat) : State :=
  if s.lrlActive && i < 64 && bitOf (s.rd Rg.LRL_IRQ_MASK).toNat i && !s.larric.disarmed.contains i && (!s.recovery || i = 51) &&
      s.irqCond i then
    let s := s.sendMsg 3 ⟨0x20, 0, if i < 48 then i / 4 else 15, 0, 8, 0, toLe 2 i ++ toLe 2 0 ++ toLe 4 s.larric.intrSeq⟩
    s.modLrl fun l => { l with disarmed := l.disarmed ++ [i], intrSeq := l.intrSeq + 1 }
  else s

/-- INTR (R478): an armed, unmasked interrupt source whose condition holds sends an INTR message and disarms. -/
def execIntr (i : Nat) (s : State) : Host.Outcome State Fault Refusal := .next (s.sendIntr i)

/-- A write to LRL_IRQ_REARM: sources armed again, and an INTR sent at once where the condition holds (R478, R484). -/
def State.irqRearm (s : State) (v : W64) : State :=
  let s := s.modLrl fun l => { l with disarmed := l.disarmed.filter fun i => !bitOf v.toNat i }
  (onesOf 64 v.toNat).foldl State.sendIntr s

/-- LRL_IRQ_REARM_WRITE (R478): a write to LRL_IRQ_REARM arms sources again. -/
def execLrlIrqRearmWrite (v : W64) (s : State) : Host.Outcome State Fault Refusal := .next (s.irqRearm v)

end Sys2Proof.Machine
end

