-- ==== Sys2Proof/Machine/Image.lean ====
section
/-!
DEFINITION. The fabric image and the partition reload (02_fabric_image.md R44 to R66): their format, the checks of a slot in the
order of R56, selection (R57), the IMG commands (R60, R61, R66, R73 to R75) and the settings' limits (R51 to R55, R64).
-/
namespace Sys2Proof.Machine

/-! ### Slots of flash -/

/-- What an erased byte of flash reads. -/
def erased (_ : Nat) : Byte := 0xFF

/-- `n` bytes of a flash slot from `off`. -/
def slotRead (m : SMap Byte) (off n : Nat) : Bytes :=
  let w := m.filter fun c => off ≤ c.1 && c.1 < off + n
  (List.range n).map fun i => find erased w (off + i)

/-- Write bytes into a flash slot. -/
def slotWrite (m : SMap Byte) (off : Nat) (b : Bytes) : SMap Byte :=
  (m.filter fun c => c.1 < off) ++ ((b.zipIdx off).map fun x => (x.2, x.1)) ++ (m.filter fun c => off + b.length ≤ c.1)

/-- Whether every listed range of a record is zero: (offset, bytes). -/
def zeroAt (b : Bytes) (rs : List (Nat × Nat)) : Bool := rs.all fun r => allZero (slice b r.1 r.2)

/-! ### Sections (R45, R47, R48) -/

/-- A section: type, whether its header's reserved field and its padding are zero, and its payload (R45). -/
structure Sect where
  ty : Nat
  clean : Bool
  body : Bytes
deriving DecidableEq, Repr

/-- The sections that fill `b`: `n` at most; none when one does not fit (R45). -/
def sections : Nat → Bytes → Option (List Sect)
  | 0, b => if b.isEmpty then some [] else none
  | n + 1, b =>
    if b.isEmpty then some []
    else
      let len := fieldAt b 4 4
      let all := 8 + roundUp len 8
      if b.length < 8 || b.length < all then none
      else match sections n (b.drop all) with
        | none => none
        | some r => some (⟨fieldAt b 0 2, allZero (slice b 2 2) && allZero ((b.take all).drop (8 + len)), (b.drop 8).take len⟩ :: r)

/-- The bytes of a section as R45 frames it. -/
def sectBytes (ty : Nat) (body : Bytes) : Bytes :=
  toLe 2 ty ++ toLe 2 0 ++ toLe 4 body.length ++ slice body 0 (roundUp body.length 8)

/-- Add a section to the settings gathered so far, latest partition first. -/
def addSect (cs : Option (List Cfg)) (x : Sect) : Option (List Cfg) := match cs with
  | none => none
  | some [] => if x.ty = 0x10 && x.body.length = 512 then some [⟨x.body, none, none⟩] else none
  | some (c :: r) =>
    let p := fieldAt c.part 0 1
    if x.ty = 0x10 then
      if x.body.length = 512 && p < fieldAt x.body 0 1 then some (⟨x.body, none, none⟩ :: c :: r) else none
    else if x.ty = 0x11 then
      if c.streams.isNone && c.group.isNone && fieldAt x.body 0 1 = p then some ({ c with streams := some x.body } :: r) else none
    else if x.ty = 0x12 then
      if c.group.isNone && fieldAt x.body 0 1 = p then some ({ c with group := some x.body } :: r) else none
    else none

/-- The settings of the partitions, in ascending order (R47, R48). -/
def settingsOf (xs : List Sect) : Option (List Cfg) :=
  match (xs.filter fun x => x.ty < 0x8000).foldl addSect (some []) with
  | some cs => if cs.length ≤ 12 then some cs.reverse else none
  | none => none

/-- Whether a PARTITION payload's reserved fields are zero (R52). -/
def partClean (b : Bytes) : Bool :=
  fieldAt b 1 1 < 16 && zeroAt b [(2, 2), (44, 4), (115, 1), (134, 2), (139, 1), (189, 3), (260, 252)]

/-- Whether a STREAMS payload meets R54; `clean` asks for its reserved fields only, its negation for the rest. -/
def streamsOk (b : Bytes) : Bool :=
  let n := fieldAt b 2 2
  let e (i k w : Nat) : Nat := fieldAt b (8 + 8 * i + k) w
  inRange n 1 1024 && b.length == 8 + 8 * n && zeroAt b [(1, 1), (4, 4)] &&
    (List.range n).all fun i => e i 4 4 == 0 && e i 2 1 < 2 && (if e i 2 1 = 1 then e i 3 1 < 3 else e i 3 1 == 0) &&
      (i == 0 || e (i - 1) 0 2 < e i 0 2)

/-- Whether a GROUP payload meets R55 on module `dev`. -/
def groupOk (dev : Nat) (b : Bytes) : Bool :=
  let n := fieldAt b 2 2
  let m := (List.range n).map fun i => (fieldAt b (8 + 4 * i) 2, fieldAt b (10 + 4 * i) 1)
  inRange n 2 8192 && b.length == 8 + 4 * n && zeroAt b [(1, 1), (4, 4)] &&
    ((List.range n).all fun i => fieldAt b (8 + 4 * i) 2 < 8192 && fieldAt b (11 + 4 * i) 1 == 0) &&
    m.contains (dev, fieldAt b 0 1) && decide m.Nodup

/-! ### Capability and constraints (R49 to R53) -/

/-- A field of a partition's settings. -/
def Cfg.f (c : Cfg) (off n : Nat) : Nat := fieldAt c.part off n
/-- Its partition number. -/
def Cfg.no (c : Cfg) : Nat := c.f 0 1

/-- A CAPABILITY payload matches the running device and the names its sections use (R50). -/
def State.capOk (s : State) (cap : Bytes) (cs : List Cfg) : Bool :=
  let v := s.var
  let ports (c : Cfg) : List Nat := (List.range 8).flatMap fun n =>
    (if c.f (140 + n) 1 ≠ 0 then [n] else []) ++ (if c.f (148 + n) 1 ≠ 0xFF then [n, c.f (148 + n) 1] else [])
  fieldAt cap 0 1 == v.code && fieldAt cap 2 2 ≤ s.nCores && fieldAt cap 4 1 ≤ 2 * s.enabled.length &&
    fieldAt cap 5 1 ≤ v.parts && fieldAt cap 6 1 ≤ v.ports && fieldAt cap 8 1 == v.sliceMiB && fieldAt cap 10 2 ≤ v.regions &&
    (fieldAt cap 7 1 % 2 == 0 || v.skimmer) && (fieldAt cap 7 1 / 2 % 2 == 0 || v.affine) &&
    cs.all fun c => c.f 8 32 < 2 ^ fieldAt cap 2 2 && c.f 40 4 < 2 ^ fieldAt cap 4 1 && c.f 48 64 < 2 ^ fieldAt cap 10 2 &&
      c.no < fieldAt cap 5 1 && (ports c).all (· < fieldAt cap 6 1)

/-- The bytes of PART_ORDER before 0xFF ends it (R51). -/
def partOrder (dev : Bytes) : List Nat := ((dev.drop 8).take 12).map (·.toNat) |>.takeWhile (· != 0xFF)

/-- Whether a DEVICE payload meets R51 for the partitions `ps`. -/
def State.deviceOk (s : State) (dev : Bytes) (ps : List Nat) : Bool :=
  let o := fieldAt dev 2 1
  let cls := [o % 4, o / 4 % 4, o / 16 % 4]
  let ord := partOrder dev
  cls.contains 0 && cls.contains 1 && cls.contains 2 && inRange (fieldAt dev 4 4) s.var.capMin s.var.limitW &&
    ord.length == ps.length && (ps.all fun p => ord.contains p) && inRange (fieldAt dev 24 4) 3600 604800

/-- Whether one partition's settings meet R52. -/
def Cfg.rangesOk (c : Cfg) : Bool :=
  c.no < 12 && c.f 40 4 % 4 == 0 && 4 ≤ c.f 112 1 && inRange (c.f 160 4) 10 10000 && inRange (c.f 168 4) 100 10000000 &&
    inRange (c.f 172 4) 1 10000 && inRange (c.f 176 4) 1 1000 && inRange (c.f 180 4) 10 60000 && inRange (c.f 184 4) 256 1048576 &&
    c.f 188 1 < 2

/-- The sum of a field over the partitions. -/
def sumOf (cs : List Cfg) (off n : Nat) : Nat := cs.foldl (fun a c => a + c.f off n) 0

/-- Whether no bit of a bitmap field belongs to two partitions. -/
def disjointMaps (cs : List Cfg) (off n : Nat) : Bool :=
  (cs.foldl (fun (a : Nat × Bool) c => (a.1 ||| c.f off n, a.2 && a.1 &&& c.f off n == 0)) (0, true)).2

/-- Whether the settings of all partitions together meet R53. -/
def State.limitsOk (s : State) (cs : List Cfg) : Bool :=
  disjointMaps cs 8 32 && disjointMaps cs 40 4 && disjointMaps cs 48 64 &&
    (cs.all fun c =>
      c.f 8 32 != 0 && c.f 40 4 != 0 && c.f 112 1 + c.f 113 1 + c.f 114 1 == s.var.sliceMiB &&
        c.f 136 1 + c.f 137 1 + c.f 138 1 == 16 && c.f 136 1 != 0 && c.f 137 1 != 0 && c.f 138 1 != 0 &&
        ((List.range 8).all fun n => c.f (148 + n) 1 == 0xFF || (c.f (148 + n) 1 != n && c.f (148 + n) 1 < s.var.ports)) &&
        1 ≤ c.f 164 2 && c.f 164 2 ≤ c.f 166 2 && c.f 166 2 ≤ (onesOf 256 (c.f 8 32)).length) &&
    ((List.range s.enabled.length).all fun k =>
      (cs.foldl (fun a c => a + (onesOf 16 (c.f 8 32 >>> (16 * k))).length * c.f 113 1) 0) ≤ 64) &&
    sumOf cs 116 4 ≤ 65536 && sumOf cs 120 4 ≤ 16777216 && sumOf cs 124 2 ≤ 16384 && sumOf cs 126 2 ≤ 768 &&
    sumOf cs 128 2 ≤ 4096 && sumOf cs 130 2 ≤ 256 && sumOf cs 132 2 ≤ 4096 &&
    ((List.range 8).all fun n => sumOf cs (140 + n) 1 ≤ 256) && sumOf cs 156 4 ≤ s.var.limitW

/-! ### The checks of a slot (R44, R46, R56) -/

/-- The bytes "VOILJ" and three more. -/
def magic (a b c : Nat) : Nat := leNat ([0x56, 0x4F, 0x49, 0x4C, 0x4A] ++ toLe 1 a ++ toLe 1 b ++ toLe 1 c)

/-- Whether a key may sign (R46): the owner's hash when it is fused, else Swewyn's. -/
def State.keyMaySign (s : State) (key : Bytes) : Bool :=
  let h := sha512 key
  if allZero s.fuses.ownerHash then h == s.fuses.swHash else h == s.fuses.ownerHash

/-- What a whole image holds: LENGTH bytes, and the sections after SIGNER. -/
structure ImageBody where
  bytes : Bytes
  sects : List Sect
  cfgs : List Cfg
deriving DecidableEq, Repr

/-- VARIANT_MASK bit of a variant (R44). -/
def Variant.maskBit : Variant → Nat | .p3 => 0 | .p6 => 1 | .p9 => 2

/-- The first failing check of an image slot for Innkeeper version `fw`, and what a valid slot holds (R56, R76). -/
def State.checkImage (s : State) (m : SMap Byte) (fw : Nat) : Nat × Option ImageBody :=
  let h := slotRead m 0 256
  let len := fieldAt h 12 4
  if (h.take 8).all (· == 0xFF) then (0x01, none)
  else if fieldAt h 0 8 ≠ magic 0x49 0x4D 0x47 || fieldAt h 8 2 ≠ 1 || fieldAt h 10 2 ≠ 256 || len % 8 ≠ 0 ||
      !inRange len 256 67108728 || fieldAt h 16 8 = 0 then (0x02, none)
  else if !bitOf (fieldAt h 24 4) s.var.maskBit then (0x03, none)
  else
    let b := slotRead m 0 len
    let key := (b.drop 264).take 133
    if fieldAt b 256 2 ≠ 1 || fieldAt b 260 4 ≠ 133 || len < 400 || !s.keyMaySign key || !ecVerify key (slotRead m len 132) (sha512 b)
    then (0x04, none)
    else if fieldAt h 32 4 < s.fuses.imgCtr then (0x05, none)
    else if fw < fieldAt h 28 4 then (0x06, none)
    else match sections len (b.drop 256) with
      | some (sg :: cap :: dev :: r) => match settingsOf r with
        | none => (0x07, none)
        | some cs =>
          if fieldAt h 36 2 ≠ r.length + 3 || fieldAt h 24 4 / 8 ≠ 0 || !zeroAt h [(38, 2), (64, 192)] ||
              !sg.clean || !cap.clean || !dev.clean || r.any (fun x => !x.clean) ||
              cap.ty ≠ 2 || cap.body.length ≠ 16 || dev.ty ≠ 3 || dev.body.length ≠ 32 ||
              !zeroAt cap.body [(1, 1), (9, 1), (12, 4)] || 4 ≤ fieldAt cap.body 7 1 ||
              8192 ≤ fieldAt dev.body 0 2 || 64 ≤ fieldAt dev.body 2 1 || !zeroAt dev.body [(3, 1), (20, 4), (28, 4)] ||
              cs.any (fun c => !partClean c.part || (match c.streams with | some x => !streamsOk x | none => false) ||
                (match c.group with | some x => !groupOk (fieldAt dev.body 0 2) x | none => false)) then (0x07, none)
          else if !s.capOk cap.body cs then (0x08, none)
          else if !s.deviceOk dev.body (cs.map Cfg.no) || cs.any (fun c => !c.rangesOk) || !s.limitsOk cs then (0x09, none)
          else (0, some ⟨b, sg :: cap :: dev :: r, cs⟩)
      | _ => (0x07, none)

/-- The SEQUENCE that a slot shows: its header's once past HEADER (R71). -/
def seqShown (m : SMap Byte) (reason : Nat) : Nat := if reason = 1 || reason = 2 then 0 else fieldAt (slotRead m 0 256) 16 8

/-! ### Selection (R57 to R59) -/

/-- Image slot `k` (0 A, 1 B). -/
def State.imgSlot (s : State) (k : Nat) : SMap Byte := if k = 0 then s.flash.imgA else s.flash.imgB

/-- Replace image slot `k`. -/
def State.setImgSlot (s : State) (k : Nat) (m : SMap Byte) : State :=
  { s with flash := if k = 0 then { s.flash with imgA := m } else { s.flash with imgB := m } }

/-- The reason recorded for image slot `k` (R72). -/
def imgReason (k : Nat) : RF := if k = 0 then Rg.IMG_SLOT_REASON_A_REASON else Rg.IMG_SLOT_REASON_B_REASON

/-- Record the reason and SEQUENCE of image slot `k` (R71, R72). -/
def State.noteImg (s : State) (k reason : Nat) : State :=
  (s.setF (imgReason k) reason).wr (Rg.IMG_SLOT_SEQ k) (BitVec.ofNat 64 (seqShown (s.imgSlot k) reason))

/-- The target of two slots of which `loaded` (1 A, 2 B, 0 none) is loaded (R59, R492): the one not loaded, else the lower
effective sequence number, B on a tie. -/
def targetOf (loaded seqA seqB : Nat) : Nat :=
  if loaded = 1 then 1 else if loaded = 2 then 0 else if seqA < seqB then 0 else 1

/-- The effective sequence number of image slot `k`: 0 unless its recorded reason is VALID. -/
def State.imgSeq (s : State) (k : Nat) : Nat := if s.fd (imgReason k) = 0 then (s.rd (Rg.IMG_SLOT_SEQ k)).toNat else 0

/-- Set IMG_STATUS.TARGET (R59, R70). -/
def State.noteTarget (s : State) : State :=
  s.setF Rg.IMG_STATUS_TARGET (targetOf (s.fd Rg.IMG_STATUS_LOADED) (s.imgSeq 0) (s.imgSeq 1))

/-! ### The image commands (R60, R61, R70, R73, R74) -/

/-- Whether the host's IMG and SEC commands reach Innkeeper: it runs, in normal mode, with the link ACTIVE. -/
def State.serving (s : State) : Bool := s.phase == .running && s.lrlActive && !s.on Rg.SEC_BOOT_STATUS_MODE && s.warmDue.isNone

/-- An IMG command completes with a reason (R70). -/
def State.imgDone (s : State) (r : Nat) : State := s.setF Rg.IMG_STATUS_LAST_RESULT r

/-- Perform an IMG command unless another runs, or a SEC flash command does (R70, R493). -/
def State.imgCmd (s : State) (act : State → State) : State :=
  if !s.serving then s
  else if s.on Rg.IMG_STATUS_BUSY then s.raise Rg.IMG_STATUS_DISCARD
  else if s.on Rg.SEC_RESULT_BUSY then s.imgDone 0x10 else act s

/-- Erase image slot `k` (R60). -/
def State.eraseImg (s : State) (k : Nat) : State := (s.setImgSlot k []).noteImg k 1

/-- IMG_CMD ERASE (R60). -/
def State.imgErase (s : State) : State := s.imgCmd fun s => (((s.eraseImg (s.fd Rg.IMG_STATUS_TARGET)).noteTarget)).imgDone 0

/-- IMG_ERASE (R60): IMG_CMD ERASE erases the target image slot. -/
def execImgErase (s : State) : Host.Outcome State Fault Refusal := .next s.imgErase

/-- The Innkeeper version that runs (R56). -/
def State.fwVersion (s : State) : Nat := match s.bundle with
  | some b => b.innkeeper
  | none => 0

/-- Whether a host address names a place in the window by the rules of R74 and R553: a multiple of 8 inside it. -/
def hostAddrOk (a : Nat) : Bool := a % 8 == 0 && windowBase ≤ a && a < 2 ^ 48

/-- IMG_CMD WRITE (R60, R74). The slot's reason follows what it now holds (R72); TARGET stays where it is while its slot is written
(assumption 93). -/
def State.imgWrite (s : State) : State := s.imgCmd fun s =>
  let a := (s.rd Rg.IMG_XFER_HOST).toNat
  let off := s.fd Rg.IMG_XFER_OFFSET_OFFSET
  let n := s.fd Rg.IMG_XFER_LEN_LEN
  if !hostAddrOk a || off % 8 ≠ 0 || n % 8 ≠ 0 || 67108864 < off + n then s.imgDone 0x11
  else
    let r := s.devRead 15 2 a n
    if r.code ≠ 0 then r.st.imgDone 0x12
    else
      let k := r.st.fd Rg.IMG_STATUS_TARGET
      let s := r.st.setImgSlot k (slotWrite (r.st.imgSlot k) off r.data)
      (s.noteImg k (s.checkImage (s.imgSlot k) s.fwVersion).1).imgDone 0

/-- IMG_WRITE (R60): IMG_CMD WRITE copies IMG_XFER_LEN bytes from host memory into the target slot. -/
def execImgWrite (s : State) : Host.Outcome State Fault Refusal := .next s.imgWrite

/-- The reason that a COMMIT of image slot `k` ends with (R56, R60): the first failing check, then the sequence check. -/
def State.imgVerdict (s : State) (k : Nat) : Nat :=
  let r := (s.checkImage (s.imgSlot k) s.fwVersion).1
  let floor := match s.loaded with
    | some l => l.seq
    | none => s.imgSeq (1 - k)
  if r = 0 && fieldAt (slotRead (s.imgSlot k) 0 256) 16 8 ≤ floor then 0x0A else r

/-- IMG_CMD COMMIT (R60). -/
def State.imgCommit (s : State) : State := s.imgCmd fun s =>
  let k := s.fd Rg.IMG_STATUS_TARGET
  let r := s.imgVerdict k
  if r = 0 then ((s.noteImg k 0).noteTarget).imgDone 0 else ((s.eraseImg k).noteTarget).imgDone r

/-- IMG_COMMIT (R60): IMG_CMD COMMIT runs the slot checks and the sequence check on the target slot, and erases it on
failure. -/
def execImgCommit (s : State) : Host.Outcome State Fault Refusal := .next s.imgCommit

/-! ### Partition reload (R63 to R66) -/

/-- What a partition holds of each quota (R66): ledger entries, pages, nodes, tasks, endpoints, Churn queues, adapter slots. -/
def State.usage (s : State) (p : Nat) : List Nat :=
  let q := s.part p
  [(s.ledger.filter fun e => q.ledBase ≤ e.1 && e.1 < q.ledBase + q.ledN && e.2.state != 0).length,
   s.pagesIn p (fun st => st != 0),
   q.graphs.foldl (fun n e => n + e.2.cost) 0,
   s.inflight p,
   (s.endpoints.filter fun e => e.2.part == p).length,
   (s.churns.filter fun e => e.2.part == p).length,
   (q.adapters.filter fun e => e.2.customer.isSome).length]

/-- The quota fields of a partition's settings, in the order of `usage` (R52). -/
def Cfg.quotas (c : Cfg) : List Nat := [c.f 116 4, c.f 120 4, c.f 124 2, c.f 126 2, c.f 128 2, c.f 130 2, c.f 132 2]

/-- Whether a partition is quiescent (R65). An endpoint in CLOSING is not yet freed, so it counts as open: the spec does not say
(assumption 123). -/
def State.quiescent (s : State) (p : Nat) : Bool :=
  let u := s.usage p
  (s.tasksOf p).isEmpty && [0, 1, 2, 3, 4, 5].all fun i => u.getD i 0 == 0

/-- Whether two settings differ in a structural field (R65). -/
def structural (a b : Cfg) : Bool :=
  a.f 8 32 != b.f 8 32 || a.f 40 4 != b.f 40 4 || a.f 48 64 != b.f 48 64 || a.f 112 3 != b.f 112 3 || a.f 4 4 != b.f 4 4 || a.group != b.group

/-- Whether settings stay inside the envelope (R64). -/
def Cfg.inside (c e : Cfg) (dev : Nat) : Bool :=
  let sub (off n : Nat) : Bool := c.f off n &&& e.f off n == c.f off n
  sub 8 32 && sub 40 4 && sub 48 64 && (List.zipWith (fun a b : Nat => decide (a ≤ b)) c.quotas e.quotas).all (fun x => x) &&
    ((List.range 8).all fun n => c.f (140 + n) 1 ≤ e.f (140 + n) 1) && c.f 113 1 ≤ e.f 113 1 && c.f 156 4 ≤ e.f 156 4 &&
    c.f 1 1 &&& e.f 1 1 == e.f 1 1 && slice c.part 192 64 == slice e.part 192 64 && c.f 256 4 == e.f 256 4 &&
    (match c.group with
      | some g => (List.range (fieldAt g 2 2)).any fun i => fieldAt g (8 + 4 * i) 2 == dev && fieldAt g (10 + 4 * i) 1 == c.no
      | none => true)

/-- The settings that a package's sections spell (R63), if it is well formed. Two refusals here, both with FORMAT, are the model's choice
(assumption 123): of a package whose header or PARTITION section names another partition than the one addressed, for which the spec
names no reason; and of one that holds an optional section (TYPE from 0x8000), which R63 does not list. -/
def packageCfg (b : Bytes) (p : Nat) : Option Cfg :=
  let len := fieldAt b 12 4
  if fieldAt b 0 8 ≠ magic 0x50 0x52 0x54 || fieldAt b 8 2 ≠ 1 || fieldAt b 10 1 ≠ p || len % 8 ≠ 0 || 65536 < len || !zeroAt b [(11, 1), (28, 4)]
  then none
  else match sections len ((b.take len).drop 32) with
    | some (sg :: r) =>
      if sg.ty ≠ 1 || !sg.clean || r.any (fun x => !x.clean || 0x8000 ≤ x.ty) then none
      else match settingsOf r with
        | some [c] => if c.no = p && partClean c.part then some c else none
        | _ => none
    | _ => none

/-- The reason that a reload of partition `p` by package `b` is refused for, 0 for none, and its settings (R66). -/
def State.reloadCheck (s : State) (p : Nat) (b : Bytes) : Nat × Option Reload := match (s.part p).env, (s.part p).cfg with
  | some e, some cur =>
    let len := fieldAt b 12 4
    let key := (b.drop 40).take 133
    if allZero (slice e.part 192 64) then (0x13, none)
    else if b.length < len + 132 || len < 176 || fieldAt b 32 2 ≠ 1 || fieldAt b 36 4 ≠ 133 || sha512 key ≠ slice e.part 192 64 ||
        !ecVerify key ((b.drop len).take 132) (sha512 (b.take len)) then (0x04, none)
    else if fieldAt b 24 4 < e.f 256 4 || fieldAt b 16 8 ≤ (s.part p).reloadSeq then (0x05, none)
    else match packageCfg b p with
      | none => (0x07, none)
      | some c =>
        let others := allParts.filterMap fun q => if q = p then none else (s.part q).cfg
        if !c.inside e s.devId then (0x14, none)
        else if !c.rangesOk || !s.limitsOk (c :: others) || (match c.streams with | some x => !streamsOk x | none => false) ||
            (match c.group with | some x => !groupOk s.devId x | none => false) then (0x09, none)
        else if (List.zipWith (fun a b : Nat => decide (b < a)) (s.usage p) c.quotas).any (fun x => x) then (0x15, none)
        else if (s.part p).reloadPend.isSome || (structural cur c && !s.quiescent p) then (0x10, none)
        else (0, some ⟨c, fieldAt b 16 8, sha512 key⟩)
  | _, _ => (0x13, none)

/-- Memory cleared in the lines from `a` on: `n` bytes of zero, with no error standing (R62, R65). -/
def State.zeroMem (s : State) (a n : Nat) : State :=
  let keep (l : Nat) : Bool := l * 64 < a || a + n ≤ l * 64
  { s with
    mem := s.mem.filter fun c => c.1 < a || a + n ≤ c.1
    ecc := { s.ecc with poison := s.ecc.poison.filter keep, flips := s.ecc.flips.filter fun f => keep f.1,
                        repairQ := s.ecc.repairQ.filter fun r => keep r.line } }

/-- A partition reset begins (17 R538): from IDLE or RUNNING straight to RESETTING. `why`: 2 structural reload, 3 SRST, 4 the
host. A pending tunable reload stays pending: R66 discards one at a job fault or a device reset only, and does not speak of these
resets (assumption 123). -/
def State.startReset (s : State) (p why : Nat) : State :=
  (s.modPart p fun q => { q with why := why, resetDone := false }).setF (Rg.FLT_PART_STATE p) 3

/-- Bind the page-table entries of partition `p` to its frames, as many as its regions hold (08 R264, R266). -/
def State.bindPages (s : State) (p : Nat) : State :=
  s.modPart p fun q => { q with pageN := min (s.cfg p 120 4) (32768 * (s.regionsOf p).length), pool := [], fresh := 0 }

/-- A structural reload: the slices and regions gained or lost are zeroed, the settings put in force, and the partition reset
(R65; 08 R264). -/
def State.reloadStructural (s : State) (p : Nat) (r : Reload) : State :=
  let old := s.part p
  let c0 := match old.cfg with
    | some c => c
    | none => r.cfg
  let s := (onesOf 256 (c0.f 8 32 ^^^ r.cfg.f 8 32)).foldl (fun s c => s.zeroMem (sliceBase + 0x0200_0000 * c) 0x0200_0000) s
  let s := (onesOf 448 (c0.f 48 64 ^^^ r.cfg.f 48 64)).foldl (fun s g => s.zeroMem (2 ^ 30 * g) (2 ^ 30)) s
  ((s.applyReload p r).bindPages p).startReset p 2

/-- Submit a reload of partition `p` (R65, R66): the reason, and the state after it. -/
def State.reload (s : State) (p : Nat) (b : Bytes) : Nat × State :=
  match s.reloadCheck p b with
  | (0, some r) =>
    let s := s.setF (Rg.IMG_RELOAD_RESULT p) 0
    let cur := (s.part p).cfg
    if (match cur with | some c => structural c r.cfg | none => true) then (0, s.reloadStructural p r)
    else if s.anyRunning p then
      (0, (s.modPart p fun q => { q with reloadPend := some r }).setF (Rg.IMG_RELOAD_PENDING p) 1)
    else (0, s.applyReload p r)
  | (e, _) => (e, if p < 12 then s.setF (Rg.IMG_RELOAD_RESULT p) e else s)

/-- IMG_CMD RELOAD (R66, R74). It copies nothing to a slot, so it ignores IMG_XFER_OFFSET: whether R74's bound on OFFSET + LEN binds
RELOAD too, the spec does not say (assumption 123). -/
def State.imgReload (s : State) (p : Nat) : State := s.imgCmd fun s =>
  let a := (s.rd Rg.IMG_XFER_HOST).toNat
  let n := s.fd Rg.IMG_XFER_LEN_LEN
  if !hostAddrOk a || n % 8 ≠ 0 || 67108864 < n then s.imgDone 0x11
  else
    let r := s.devRead 15 2 a n
    if r.code ≠ 0 then r.st.imgDone 0x12
    else
      let x := r.st.reload p r.data
      x.2.imgDone x.1

/-- IMG_RELOAD (R66): IMG_CMD RELOAD checks a partition reload package and accepts it pending, or refuses it with a reason. -/
def execImgReload (p : Nat) (s : State) : Host.Outcome State Fault Refusal := .next (s.imgReload (p % 16))

end Sys2Proof.Machine
end

