-- ==== Sys2Proof/Machine/Boot.lean ====
section
/-!
DEFINITION. The boot (15_boot_security.md R486 to R493): the firmware bundle and its checks, the array self-test
(04_tensor_arrays.md R118), the device registers (01_architecture.md R37 to R43), the image load (02_fabric_image.md R57, R58, R62)
and the stages; and what each reset keeps (17_faults_reset.md R540).
-/
namespace Sys2Proof.Machine

/-! ### The firmware bundle (R488 to R491) -/

/-- A component of a bundle: type, version, offset, length, digest (R488). -/
structure Component where
  ty : Nat
  version : Nat
  off : Nat
  len : Nat
  digest : Bytes
deriving DecidableEq, Repr

/-- The five rows of a bundle's component table (R488). -/
def components (b : Bytes) : List Component := (List.range 5).map fun i =>
  ⟨fieldAt b (256 + 80 * i) 2, fieldAt b (260 + 80 * i) 4, fieldAt b (264 + 80 * i) 4, fieldAt b (268 + 80 * i) 4, slice b (272 + 80 * i) 64⟩

/-- The version of the component of type `t`. -/
def versionOf (cs : List Component) (t : Nat) : Nat := match cs.find? fun c => c.ty == t with
  | some c => c.version
  | none => 0

/-- Whether a component table meets R488 for a bundle of `len` bytes. -/
def tableOk (b : Bytes) (len : Nat) : Bool :=
  let cs := components b
  zeroAt b [(30, 2), (165, 3), (176, 80)] && fieldAt b 28 2 == 5 &&
    ((List.range 5).all fun i => zeroAt b [(258 + 80 * i, 2)]) &&
    ([1, 2, 3, 4, 5].all fun t => (cs.filter fun c => c.ty == t).length == 1) &&
    (cs.all fun c => c.off % 4096 == 0 && 4096 ≤ c.off && c.off + c.len ≤ len) &&
    (cs.all fun c => cs.all fun d => c.ty == d.ty || c.off + c.len ≤ d.off || d.off + d.len ≤ c.off)

/-- Whether a manifest meets R489, verifies under `key`, and lists the stepping with the bundle's versions. -/
def manifestOk (m key : Bytes) (stepping : Nat) (cs : List Component) : Bool :=
  let n := fieldAt m 10 2
  let e (i k w : Nat) : Nat := fieldAt m (16 + 32 * i + k) w
  fieldAt m 0 8 == magic 0x54 0x53 0x4D && fieldAt m 8 2 == 1 && inRange n 1 1024 && zeroAt m [(12, 4)] && 148 + 32 * n ≤ m.length &&
    ((List.range n).all fun i => zeroAt m [(17 + 32 * i, 3), (36 + 32 * i, 12)]) &&
    ecVerify key ((m.drop (16 + 32 * n)).take 132) (sha512 (m.take (16 + 32 * n))) &&
    (List.range n).any fun i => e i 0 1 == stepping && e i 4 4 == versionOf cs 1 && e i 8 4 == versionOf cs 2 &&
      e i 12 4 == versionOf cs 3 && e i 16 4 == versionOf cs 4

/-- The first failing check of a bundle slot, and what a valid one loads as slot `slot` (R490, R496). -/
def State.checkBundle (s : State) (m : SMap Byte) (slot : Nat) : Nat × Option Bundle :=
  let h := slotRead m 0 256
  let len := fieldAt h 12 4
  if (h.take 8).all (· == 0xFF) then (0x01, none)
  else if fieldAt h 0 8 ≠ magic 0x46 0x57 0x42 || fieldAt h 8 2 ≠ 1 || fieldAt h 10 2 ≠ 256 || len % 8 ≠ 0 ||
      !inRange len 4096 16777080 || fieldAt h 16 8 = 0 || 127 < fieldAt h 24 4 then (0x02, none)
  else
    let b := slotRead m 0 len
    let key := (h.drop 32).take 133
    if sha512 key ≠ s.fuses.swHash || !ecVerify key (slotRead m len 132) (sha512 b) then (0x04, none)
    else if fieldAt h 24 4 < s.fuses.fwCtr then (0x05, none)
    else if !tableOk b len then (0x07, none)
    else
      let cs := components b
      if cs.any (fun c => sha512 ((b.drop c.off).take c.len) != c.digest) then (0x0B, none)
      else
        let man := match cs.find? fun c => c.ty == 5 with
          | some c => (b.drop c.off).take c.len
          | none => []
        if !manifestOk man key s.fuses.stepping cs then (0x0C, none)
        else (0, some ⟨slot, fieldAt h 16 8, fieldAt h 24 4, versionOf cs 1, versionOf cs 2, versionOf cs 3, versionOf cs 4, sha512 b⟩)

/-- Bundle slot `k` (0 A, 1 B). -/
def State.fwSlot (s : State) (k : Nat) : SMap Byte := if k = 0 then s.flash.fwA else s.flash.fwB

/-- Replace bundle slot `k`. -/
def State.setFwSlot (s : State) (k : Nat) (m : SMap Byte) : State :=
  { s with flash := if k = 0 then { s.flash with fwA := m } else { s.flash with fwB := m } }

/-- The reason recorded for bundle slot `k` (R508). -/
def fwReason (k : Nat) : RF := if k = 0 then Rg.SEC_FW_REASON_A_REASON else Rg.SEC_FW_REASON_B_REASON

/-- Record the reason and SEQUENCE of bundle slot `k` (R508). -/
def State.noteFw (s : State) (k reason : Nat) : State :=
  (s.setF (fwReason k) reason).wr (Rg.SEC_FW_SLOT_SEQ k) (BitVec.ofNat 64 (seqShown (s.fwSlot k) reason))

/-- The effective sequence number of bundle slot `k`. -/
def State.fwSeq (s : State) (k : Nat) : Nat := if s.fd (fwReason k) = 0 then (s.rd (Rg.SEC_FW_SLOT_SEQ k)).toNat else 0

/-- Set FW_TARGET (R492). -/
def State.noteFwTarget (s : State) : State :=
  s.setF Rg.SEC_BOOT_STATUS_FW_TARGET (targetOf (s.fd Rg.SEC_BOOT_STATUS_FW_LOADED) (s.fwSeq 0) (s.fwSeq 1))

/-- SEC_SVN (R508): the counters as fused and the versions loaded. -/
def State.noteSvn (s : State) : State :=
  let fw := match s.bundle with
    | some b => fieldAt (slotRead (s.fwSlot (b.slot - 1)) 0 256) 24 4
    | none => 0
  let img := match s.loaded with
    | some l => l.svn
    | none => 0
  (((s.setF Rg.SEC_SVN_FW_CTR s.fuses.fwCtr).setF Rg.SEC_SVN_IMG_CTR s.fuses.imgCtr).setF Rg.SEC_SVN_FW_SVN fw).setF
    Rg.SEC_SVN_IMG_SVN img

/-! ### The registers loaded at boot (01 R37 to R43; 09 R307, R313) -/

/-- DEV_CORE_MAP_k (R43). The die of a P3 has 8 clusters, and the spec gives no fuse value for clusters 8 to 15 there: SPARE_POS and
NEXT_SPARE show 0 for them, the model's choice (assumption 123). -/
def State.noteCoreMap (s : State) (k : Nat) : State :=
  let lc := match s.enabled.findIdx? (· == k) with
    | some i => i
    | none => 0xFF
  let sp := if k < s.var.clusters then s.latched.spareOf k else 0
  (((s.setF (Rg.DEV_CORE_MAP_SPARE_POS k) sp).setF (Rg.DEV_CORE_MAP_LCLUSTER k) lc).setF (Rg.DEV_CORE_MAP_PENDING k) 0).setF
    (Rg.DEV_CORE_MAP_NEXT_SPARE k) sp

/-- The DEV registers, loaded from the fuses (R37 to R43). -/
def State.noteDev (s : State) : State :=
  let v := s.var
  let n := s.enabled.length
  let set (s : State) (x : RF × Nat) : State := s.setF x.1 x.2
  let s := [(Rg.DEV_ID_STEPPING, s.fuses.stepping), (Rg.DEV_VARIANT_VARIANT, v.code), (Rg.DEV_VARIANT_FIELDS, if v = .p3 then 2 else 4),
    (Rg.DEV_CAP0_CLUSTERS, n), (Rg.DEV_CAP0_ARRAYS, v.arrays), (Rg.DEV_CAP0_CORES, 16 * n), (Rg.DEV_CAP0_CTL_CORES, 2 * n),
    (Rg.DEV_CAP0_PARTITIONS, v.parts), (Rg.DEV_CAP0_COACH_PORTS, v.ports), (Rg.CCH_DEVICE_PORTS, v.ports), (Rg.DEV_CAP0_SKIMMER, b2n v.skimmer),
    (Rg.DEV_CAP0_AFFINE_EXP, b2n v.affine), (Rg.DEV_CAP0_LPDDR_CH, v.channels), (Rg.DEV_CAP0_SRAM_SLICE, v.sliceMiB),
    (Rg.DEV_CAP1_LPDDR_RAW, if v = .p3 then 256 else 512), (Rg.DEV_CAP1_LPDDR_PART, v.regions), (Rg.DEV_CAP1_POWER_LIMIT, v.limitW),
    (Rg.DEV_CLUSTER_MAP_ENABLED, s.enabled.foldl (fun a k => a + 2 ^ k) 0),
    (Rg.DEV_CLUSTER_MAP_FAILED, ((List.range v.clusters).filter s.latched.clusterFailed).foldl (fun a k => a + 2 ^ k) 0),
    (Rg.DEV_SERIAL_SERIAL, s.fuses.serial), (Rg.MEM_CONFIG_CHANNELS, v.channels), (Rg.MEM_CONFIG_PART_GIB, v.regions),
    (Rg.MEM_CONFIG_RESERVE_HALF_GIB, v.reserveHalf)].foldl set s
  forN 16 State.noteCoreMap s

/-! ### The array self-test (04 R115, R118, R144) -/

/-- The rows or columns that an array bypasses under a fuse map: those fused, then 33 and 32 (R115, R144). With one fuse blown the array
uses 32 and bypasses 33: the spec does not say which of the two spares it takes (assumption 123). -/
def FuseMap.bypassed (m : FuseMap) (core arr : Nat) (col : Bool) : List Nat :=
  let f := m.skipsOf core arr col
  f ++ (([33, 32].filter fun r => !f.contains r).take (2 - f.length))

/-- The failing cells of an array that its usable cells include. -/
def FuseMap.failing (m : FuseMap) (cells : List ArrayCell) (core arr : Nat) : List (Nat × Nat) :=
  (cells.filter fun x => x.core == core && x.arr == arr && x.row < 34 && x.col < 34 && !(m.bypassed core arr false).contains x.row &&
    !(m.bypassed core arr true).contains x.col).map fun x => (x.row, x.col)

/-- Self-test of one array of physical core `c` (R118, R144). -/
def State.testArray (cells : List ArrayCell) (c : Nat) (s : State) (a : Nat) : State :=
  let m := s.latched
  let bad := m.failing cells c a
  let rows := (bad.map (·.1)).eraseDups
  let cols := (bad.map (·.2)).eraseDups
  let rs := m.skipsOf c a false
  let cl := m.skipsOf c a true
  let set (s : State) (x : RF × Nat) : State := s.setF x.1 x.2
  let pend := s.fuses.map.skipsOf c a false != rs || s.fuses.map.skipsOf c a true != cl
  let s := [(Rg.CORE_ARR_REPAIR_ROW_SKIP_A c a, rs.getD 0 0x3F), (Rg.CORE_ARR_REPAIR_ROW_SKIP_B c a, rs.getD 1 0x3F),
    (Rg.CORE_ARR_REPAIR_COL_SKIP_A c a, cl.getD 0 0x3F), (Rg.CORE_ARR_REPAIR_COL_SKIP_B c a, cl.getD 1 0x3F),
    (Rg.CORE_ARR_REPAIR_BIST_PASS c a, b2n bad.isEmpty), (Rg.CORE_ARR_REPAIR_UNUSABLE c a, b2n (2 < rows.length || 2 < cols.length)),
    (Rg.CORE_ARR_REPAIR_PENDING c a, b2n pend)].foldl set s
  bad.foldl (fun s x => s.fltAdd 7 0 15 15 0 false (c + a * 2 ^ 9 + x.1 * 2 ^ 11 + x.2 * 2 ^ 17)) s

/-- What the register at offset `a` holds after a reset that clears the domains `ds` (R540). -/
def domReset (ds : List Dom) (a : Nat) (v : W64) : W64 := match regRow? a with
  | some r => (v &&& ~~~r.domMask ds) ||| (r.resetValue &&& r.domMask ds)
  | none => v

/-- The register file with every value changed by `g`, a function of the offset and the value. -/
def mapRegs (g : Nat → W64 → W64) (regs : SMap W64) : SMap W64 := regs.foldl (fun m e => put regReset m e.1 (g e.1 e.2)) []

/-- Reset and self-test physical core `c` (R118; 17 R540): its registers and semaphores at reset, and held for the rest of the boot when
a usable cell fails; its power state is the power manager's (assumption 88). -/
def State.resetCore (cells : List ArrayCell) (s : State) (c : Nat) : State :=
  let base := Rg.CORE_STATUS c
  let s : State := { s with regs := mapRegs (fun a v => if base ≤ a && a < base + 0x1000 then domReset [.core] a v else v) s.regs }
  let arrs := List.range s.var.arrays
  let bad := (s.core c).power = 4 || arrs.any fun a => !(s.latched.failing cells c a).isEmpty
  let s := arrs.foldl (State.testArray cells c) s
  let s := s.modCore c fun x => { Core.init with
    power := if bad then 4 else x.power, drainAt := x.drainAt, idleAt := x.idleAt
    cells := (cells.filter fun y => y.core == c && (s.latched.failing cells c y.arr).contains (y.row, y.col)).map fun y => (y.arr, y.row, y.col) }
  (s.semReset c).setF (Rg.CORE_ARR_STATE_HELD c) (b2n bad)

/-! ### What a reset keeps (17 R540) -/

/-- The register file with the fields of the domains `ds` at their reset values. -/
def clearRegs (ds : List Dom) (regs : SMap W64) : SMap W64 := mapRegs (domReset ds) regs

/-- What every wider reset keeps: fuses, flash, memory contents with the errors standing in them, the pins, the model's own
clock and counters; everything else at reset (R540). -/
def State.wide (s : State) : State :=
  { State.reset with
    pending := s.pending, free := s.free, now := s.now, mem := s.mem, hostMem := s.hostMem, fuses := s.fuses, flash := s.flash
    pins := s.pins, phase := s.phase, latched := s.latched, bus := s.bus
    ecc := { EccSt.init with poison := s.ecc.poison, flips := s.ecc.flips } }

/-- The state in a cold or module reset (R540): every register at reset, device time from 0. -/
def State.coldState (s : State) : State := { s.wide with pins := { s.pins with modAlive := false } }

/-- The state in a device warm reset (R540): device time, energy, throttle counters and the FLT block kept, reasons no longer in
force. -/
def State.warmState (s : State) : State :=
  let w := { s.wide with regs := clearRegs [.warm, .part, .core] s.regs, time := s.time, fltLog := s.fltLog }
  allParts.foldl (fun s p => (s.setF (Rg.FLT_PART_STATE p) 0).setF (Rg.FLT_PART_HELD p) 0) w

/-! ### The image load (02 R57, R58, R62; 08 R264; 12 R376; 16 R512) -/

/-- Bind one partition of an image, with the first ledger and page-table entries that are its own. -/
def State.loadPart (x : State × Nat × Nat) (c : Cfg) : State × Nat × Nat :=
  let p := c.no
  let lq := c.f 116 4
  let pq := c.f 120 4
  let s := x.1.setPart p { Part.init with env := some c, cfg := some c, ledBase := x.2.1, ledN := lq, pageBase := x.2.2, pageQ := pq }
  ((s.bindPages p).resetPool p, x.2.1 + lq, x.2.2 + pq)

/-- Put the valid image of slot `k` into force (R57, R62): memory outside Innkeeper's part of the reserve is zero, the page table at the
reserve's start (09 R290) included, with no error standing in it. -/
def State.loadImage (s : State) (k : Nat) (b : ImageBody) : State :=
  let h := b.bytes
  let dev := match b.sects[2]? with
    | some d => d.body
    | none => []
  let key := match b.sects[0]? with
    | some d => d.body
    | none => []
  let res (a : Nat) : Bool := reserveBase + 2 ^ 28 ≤ a && a < sliceBase
  let s : State := { s with
    mem := s.mem.filter fun c => res c.1
    ecc := { s.ecc with poison := s.ecc.poison.filter (fun l => res (l * 64)), flips := s.ecc.flips.filter fun f => res (f.1 * 64),
                        repairQ := s.ecc.repairQ.filter fun r => res (r.line * 64) }
    pages := [], ledger := [], parts := []
    loaded := some ⟨k + 1, fieldAt h 16 8, fieldAt h 32 4, dev, sha512 h, sha512 key⟩ }
  let s := (b.cfgs.foldl State.loadPart (s, 0, 0)).1
  let s := s.setF Rg.CCH_DEVICE_DEVICE_ID (fieldAt dev 0 2 % 8192)
  (((s.setF Rg.IMG_STATUS_LOADED (k + 1)).setF Rg.PWR_CAP_SET_CAP_W (fieldAt dev 4 4)).setF Rg.MEM_SCRUB_STATUS_PERIOD_S (fieldAt dev 24 4))

/-- Stage 3: both image slots are checked; the slot to load, if any (R56 to R58). -/
def State.selectImage (s : State) : State × Option (Nat × ImageBody) :=
  let a := s.checkImage s.flash.imgA s.fwVersion
  let b := s.checkImage s.flash.imgB s.fwVersion
  let s := (s.noteImg 0 a.1).noteImg 1 b.1
  match a.2, b.2 with
  | some x, some y => (s, if s.imgSeq 0 < s.imgSeq 1 then some (1, y) else some (0, x))
  | some x, none => (s, some (0, x))
  | none, some y => (s, some (1, y))
  | none, none => (s, none)

/-! ### The light bar (17 R548) and management sensor 30 (18 R570, R571) -/

/-- Whether some partition runs a step. -/
def State.stepsRun (s : State) : Bool := allParts.any fun p => s.anyRunning p

/-- The light-bar pattern in force (R548): the code of the first that holds. -/
def State.pattern (s : State) : Nat :=
  let mode := s.fd Rg.SVC_STATE_MODE
  let held : Bool := match s.service.touch with
    | some t => 1250000000 + t ≤ s.now
    | none => false
  if held || s.service.lit != 0 then 12
  else if s.power.trip then 11
  else if mode = 2 || mode = 4 then 10
  else if s.on Rg.SEC_BOOT_STATUS_MODE then 5
  else if mode = 3 then 9
  else if mode = 1 then 8
  else if s.on Rg.SVC_STATE_IDENTIFY then 7
  else if allParts.any (fun p => (s.part p).faultAt.any fun t => s.now < 10000000000 + t) then 6
  else if s.on Rg.SVC_LBAR_HOST_EN then 13
  else if s.fd Rg.SEC_BOOT_STATUS_STAGE ≠ 7 then 1
  else if s.loaded.isNone then 4
  else if s.stepsRun then 3 else 2

/-- State sensor 30 (18 R570; precedence: assumption 86). -/
def State.sensor30 (s : State) : Nat :=
  let mode := s.fd Rg.SVC_STATE_MODE
  if s.power.trip then 7
  else if s.on Rg.SEC_BOOT_STATUS_MODE then 6
  else if mode = 3 || mode = 4 then 5
  else if mode = 2 then 4
  else if mode = 1 then 3
  else if s.fd Rg.SEC_BOOT_STATUS_STAGE ≠ 7 then 0
  else if s.loaded.isNone then 2 else 1

/-- Queue a PlatformEventMessage where an event receiver is set (18 R571). -/
def State.event (s : State) (id st : Nat) : State :=
  if s.mgmt.receiver.isSome then { s with mgmt := { s.mgmt with events := s.mgmt.events ++ [toLe 2 id ++ toLe 1 st] } } else s

/-- A change of sensor 30 is told to the event receiver (18 R571). -/
def State.sense (s : State) : State :=
  let v := s.sensor30
  if v = s.mgmt.lastState then s
  else State.event { s with mgmt := { s.mgmt with lastState := v } } 30 v

/-! ### The stages (15 R486, R487) -/

/-- Recovery mode with its cause (R487, R507). -/
def State.enterRecovery (s : State) (reason : Nat) : State :=
  let s : State := { s with bundle := none, loaded := none }
  let s := (((s.setF Rg.SEC_BOOT_STATUS_MODE 1).setF Rg.SEC_BOOT_STATUS_REASON reason).setF Rg.SEC_BOOT_STATUS_FW_LOADED 0).setF
    Rg.LRL_STATUS_MODE 1
  ((s.wr Rg.SEC_FW_VERSION_0 0).wr Rg.SEC_FW_VERSION_1 0).noteFwTarget.noteSvn

/-- Stage `k` begins; false when a key touch halted the boot at the end of the stage before (17 R545). -/
def State.stage (s : State) (b : BootIn) (k : Nat) : State × Bool :=
  if b.keyStage.any (· < k) then
    ({ ((s.setF Rg.SVC_STATE_MODE 2).raise Rg.SVC_IRQ_SAFE) with service := { s.service with bootHalt := true } }, false)
  else (s.setF Rg.SEC_BOOT_STATUS_STAGE k, true)

/-- Stages 5 to 7: the image is loaded, the Larric link may train, the module is ready (R486). -/
def State.bootEnd (s : State) (b : BootIn) (sel : Option (Nat × ImageBody)) : State := match s.stage b 5 with
  | (s, false) => s
  | (s, true) =>
    let s := match sel with
      | some x => s.loadImage x.1 x.2
      | none => s.setF Rg.PWR_CAP_SET_CAP_W s.var.limitW
    let s := s.noteTarget.noteSvn
    match s.stage b 6 with
    | (s, false) => s
    | (s, true) => match s.stage b 7 with
      | (s, _) => s

/-- Stages 3 and 4: the image is selected, the channels trained and the arrays of every core tested, the spares' too (R486; 04 R118,
R144). -/
def State.bootMid (s : State) (b : BootIn) : State := match s.stage b 3 with
  | (s, false) => s
  | (s, true) =>
    let r := s.selectImage
    match r.1.stage b 4 with
    | (s, false) => s
    | (s, true) =>
      let bad := b.badChannels.filter (· < s.var.channels)
      let s := (s.setF Rg.MEM_CONFIG_RATE_MTS 10667)
      let s := forN s.var.channels (fun s n => s.setF (Rg.MEM_CH_STATUS_TRAINED n) (b2n (!bad.contains n))) s
      if !bad.isEmpty then s.enterRecovery 4
      else State.bootEnd ((s.enabled.flatMap fun k => (List.range 17).map fun i => 17 * k + i).foldl (State.resetCore b.cells) s) b r.2

/-- Stage 2: the bundle is chosen and loaded (R490, R491). -/
def State.bootBundle (s : State) (b : BootIn) : State := match s.stage b 2 with
  | (s, false) => s
  | (s, true) =>
    let x := s.checkBundle s.flash.fwA 1
    let y := s.checkBundle s.flash.fwB 2
    let s := (s.noteFw 0 x.1).noteFw 1 y.1
    let pick := match x.2, y.2 with
      | some a, some c => if a.seq < c.seq then some c else some a
      | some a, none => some a
      | none, c => c
    match pick with
    | none => s.enterRecovery 3
    | some f =>
      let s : State := { s with bundle := some f }
      let s := (((s.setF Rg.SEC_BOOT_STATUS_FW_LOADED f.slot).wr Rg.SEC_FW_VERSION_0 (BitVec.ofNat 64 (f.innkeeper + f.ucode * 2 ^ 32))).wr
        Rg.SEC_FW_VERSION_1 (BitVec.ofNat 64 (f.power + f.port * 2 ^ 32))).noteFwTarget.noteSvn
      s.bootMid b

/-- The reference is sampled (18 R564). -/
def State.sampleRef (s : State) (b : BootIn) : State :=
  let s := (s.setF Rg.DEV_TIME_CTRL_REF_EXT (b2n (!b.refSelN && b.refClk)))
  if !b.refSelN && !b.refClk then (s.raise Rg.PWR_IRQ_REF_LOST).event 0 1 else s

/-- The stages of the boot, once control core 0 runs (R486). -/
def State.bootStages (s : State) (b : BootIn) : State :=
  let s := (s.setF Rg.SVC_PRESENCE_CAGE (b.cages % 2 ^ s.var.ports)).setF Rg.SVC_PRESENCE_LARRIC (b2n b.larric)
  let s := forN s.var.ports (fun s n => s.setF (Rg.CCH_PORT_STATUS_PRESENT n) (b2n (bitOf b.cages n))) s
  let s := ((s.sampleRef b).setF Rg.SEC_BOOT_STATUS_OWNER_FUSED (b2n (!allZero s.fuses.ownerHash)))
  let s := (s.setF Rg.SEC_BOOT_STATUS_STAGE 1).noteDev
  let s := if !b.romOk then s.enterRecovery 1
    else if !s.enabled.contains 0 then s.enterRecovery 2
    else s.bootBundle b
  s.sense

/-- The boot, from control core 0's first instruction (R486). -/
def State.boot (s : State) (b : BootIn) : State :=
  State.bootStages { s with latched := s.fuses.map, phase := .running, pins := { s.pins with modAlive := true, refSelN := b.refSelN } } b

end Sys2Proof.Machine
end

