-- ==== Sys2Proof/Machine/Reset.lean ====
section
/-!
DEFINITION. Resets, watchdogs, drain timeouts and field repair (17_faults_reset.md R535 to R544, R550 to R553; 15_boot_security.md
R502; 12_guest_ledger.md R402).
-/
namespace Sys2Proof.Machine

/-! ### Partition runtimes (15 R502; 17 R538) -/

/-- SEC_PART_CTRL.RUNNING (15 R510): whether a control core of the partition runs. -/
def State.noteRunning (s : State) (p : Nat) : State :=
  s.setF (Rg.SEC_PART_CTRL_RUNNING p) (b2n ((s.ctlOf p).any fun n => (s.ctlCore n).running))

/-- The partition's lowest control core begins at ENTRY in VS-mode (mode 1), with a0 and a1 as R502 says; its watchdog starts. -/
def State.startRuntime (s : State) (p : Nat) : State :=
  let s := s.setF (Rg.FLT_PART_STATE p) 1
  match (s.ctlOf p).head? with
  | none => s
  | some n => State.noteRunning (s.modCtl n fun _ => ⟨true, 1, (s.rd (Rg.SEC_PART_ENTRY p)).toNat, n, p, 0, s.now, 0⟩) p

/-- Every control core of the partition stops. -/
def State.stopCores (s : State) (p : Nat) : State :=
  State.noteRunning ((s.ctlOf p).foldl (fun s n => s.modCtl n fun _ => CtlCore.init) s) p

/-- Whether the runtime starts when the partition is IDLE: START was set since the image load, no shutdown came after, and the
partition is not held (R502, R505, R538). -/
def State.mayStart (s : State) (p : Nat) : Bool := (s.part p).started && !(s.part p).shut && !s.on (Rg.FLT_PART_HELD p)

/-! ### Partition reset (R538, R540) -/

/-- Whether offset `a` stands in partition `p`'s window or in an interrupt page of its control cores. -/
def State.partReg (s : State) (p a : Nat) : Bool :=
  (Rg.DSP_CTRL p ≤ a && a < Rg.DSP_CTRL p + 0x10_0000) || (s.ctlOf p).any fun n => Rg.CCI_PEND n ≤ a && a < Rg.CCI_PEND n + 0x1000

/-- The registers of partition `p`'s window and of its control cores' interrupt pages, with the fields that a partition reset
clears at reset (R540; 15 R504). -/
def State.clearPartRegs (s : State) (p : Nat) : State :=
  { s with regs := mapRegs (fun a v => if s.partReg p a then domReset [.part] a v else v) s.regs }

/-- The tasks of partition `p` end without a record: what they hold is released (01 R32). -/
def State.dropTasks (s : State) (p : Nat) : State :=
  let ts := s.tasksOf p
  let s := (ts.filter Task.inFlight).foldl (fun s t => s.stopTask t) s
  { s with
    tasks := s.tasks.filter fun t => t.part != p
    walks := s.walks.filter fun w => !(ts.any fun t => t.id == w.task)
    mcasts := s.mcasts.filter fun m => m.part != p
    coach := { s.coach with waiters := s.coach.waiters.filter fun w => w.1 / 256 != p, ctrs := s.coach.ctrs.filter fun c => c.1 / 256 != p } }

/-- Channels of partition `p` close without landing anything further (11 R368). -/
def State.dropChannels (s : State) (p : Nat) : State :=
  let mine (h : Nat) : Bool := match find? s.endpoints h with
    | some e => e.part == p
    | none => false
  { s with
    landings := (s.landings.filter fun l => !mine l.ep).map fun l => if l.part == p then { l with task := none } else l
    endpoints := s.endpoints.filter fun e => e.2.part != p
    churns := s.churns.filter fun c => c.2.part != p }

/-- The page-table entries of partition `p` become FREE: each that was not counts at its home (R540; 08 R284). -/
def State.freePages (s : State) (p : Nat) : State :=
  let q := s.part p
  let mine (e : Nat × Page) : Bool := q.pageBase ≤ e.1 && e.1 < q.pageBase + q.pageN
  let s := (s.pages.filter fun e => mine e && e.2.state != 0).foldl (fun s e => s.bump (Rg.CLU_OST_FREE_FREED (s.homeOf e.1))) s
  { s with pages := s.pages.filter fun e => !mine e }

/-- The partition reset itself (R540): graphs, tasks, channels, pages, pool, queues and registers cleared, weight cache invalidated,
cores and control cores reset; bindings and memory kept. -/
def State.partReset (s : State) (p : Nat) (cells : List ArrayCell) : State :=
  let s := (((s.abortExports p).dropTasks p).dropChannels p).freePages p
  let s : State := { s with
    clusters := s.clusters.map fun k => (k.1, { k.2 with wcache := k.2.wcache.filter fun w => w.1 != p }) }
  let s := s.modPart p fun q => { q with
    pool := [], fresh := 0, graphs := [], cringHold := [], cbHold := [], rqHold := [], haltAt := none, sched := [], levels := []
    ports := [], groups := [], adapters := q.adapters.map (fun a => (a.1, { a.2 with counts := [] })), resetDone := true }
  let s := (s.stopCores p).clearPartRegs p
  let s := ((s.coresOf p).map s.physCore).foldl (State.resetCore cells) s
  let s : State := { s with service := { s.service with haltSet := s.service.haltSet &&& (2 ^ 24 - 1 - 2 ^ p - 2 ^ (12 + p)) } }
  (s.resetPool p).setF (Rg.FLT_PART_STATE p) 3

/-- PARTITION_RESET's effect: a stopping partition whose accesses have settled, or one told to reset, takes its reset (R538). The
records of a job fault are all in the completion ring before it begins (10 R343). -/
def State.takeReset (s : State) (p : Nat) (cells : List ArrayCell) : State :=
  if s.defined p && ((s.pstate p == 2 && (s.part p).cringHold.isEmpty) || (s.pstate p == 3 && !(s.part p).resetDone)) then s.partReset p cells else s

/-- PARTITION_RESET (R538): once the accesses of a stopping partition have settled, the partition takes its reset. -/
def execPartitionReset (p : Nat) (cells : List ArrayCell) (s : State) : Host.Outcome State Fault Refusal :=
  .next (s.takeReset p cells)

/-- Entry `i` goes to RESTART and its record is written (12 R402). -/
def State.restartEntry (p : Nat) (s : State) (i : Nat) : State :=
  let e := { s.ent i with state := 7, pendLen := none, finish := false, gated := false, charge := 0 }
  let st := if (s.part p).errEntries.contains i then stUncorr else stAborted
  (s.setEnt i e).report p i e 6 st 0 none

/-- PARTITION_RESET_COMPLETE's effect (R535 steps 6 and 7, R538). -/
def State.resetComplete (s : State) (p : Nat) : State :=
  if s.defined p && s.pstate p == 3 && (s.part p).resetDone then
    let s := ((s.entsOf p).map (·.1)).foldl (State.restartEntry p) s
    let s := s.modPart p fun q => { q with errStep := none, errEntries := [], why := 0, resetDone := false }
    if s.mayStart p then s.startRuntime p else s.setF (Rg.FLT_PART_STATE p) 0
  else s

/-- PARTITION_RESET_COMPLETE (R538): when the partition reset completes, the partition goes to RUNNING and its runtime restarts
at ENTRY, or it goes to IDLE. -/
def execPartitionResetComplete (p : Nat) (s : State) : Host.Outcome State Fault Refusal := .next (s.resetComplete p)

/-- A partition reset that the host or SRST asks for (R538): logged with class RESET. -/
def State.askReset (s : State) (p why : Nat) : State :=
  if s.defined p && s.pstate p < 2 then (s.fltAdd 13 0 p 15 0 false 0).startReset p why else s

/-- FLT_RESET_PARTITION (R550): FLT_RESET OP 2 resets the named partition without sending ABORT. -/
def execFltResetPartition (p : Nat) (s : State) : Host.Outcome State Fault Refusal := .next (s.askReset p 4)

/-- FLT_RESET OP 3 (R541, R550): a core that is Off, a cluster's spare among them, is reset; another is refused with CORE_BUSY. -/
def State.fltResetCore (s : State) (c : Nat) (cells : List ArrayCell) : State :=
  if !s.enabled.contains (c / 17) then s
  else if (s.core c).power = 0 then s.resetCore cells c else s.raise Rg.FLT_RESET_CAUSE_CORE_BUSY

/-- FLT_RESET_CORE (R550): FLT_RESET OP 3 resets the named physical core if it is Off, and otherwise sets CORE_BUSY. -/
def execFltResetCore (c : Nat) (cells : List ArrayCell) (s : State) : Host.Outcome State Fault Refusal :=
  .next (s.fltResetCore c cells)

/-! ### Wider resets (R541, R542) -/

/-- The job faults that precede a wider reset: on every partition with a nonzero job (R541). -/
def State.jobsStop (s : State) : State :=
  allParts.foldl (fun s p => if s.defined p && s.jobId p != 0 && s.pstate p < 2 then s.jobFault p stAborted else s) s

/-- A device warm reset is requested: job faults and ABORTs now, the reset when DEVICE_WARM_RESET comes (R541). -/
def State.warmRequest (s : State) (c : WarmCause) : State :=
  if s.phase ≠ .running || s.warmDue.isSome then s
  else { (s.jobsStop).fltAdd 13 0 15 15 0 false 0 with warmDue := some c }

/-- LAST of FLT_RESET_CAUSE (R550). -/
def WarmCause.code : WarmCause → Nat
  | .fltReset => 3
  | .imgActivate => 4
  | .fwActivate => 5
  | .innkeeper => 6
  | .ikWdog => 7

/-- The device warm reset (R540 to R542), and the boot stages. -/
def State.warmReset (s : State) (b : BootIn) : State := match s.warmDue with
  | none => s
  | some c =>
    let s := (s.warmState.setF Rg.FLT_RESET_CAUSE_LAST c.code).bump Rg.FLT_RESET_CAUSE_WARM_COUNT
    s.boot b

/-- DEVICE_WARM_RESET (R541): 20 µs after a warm-reset trigger, the islands enter reset and the boot stages run again. -/
def execDeviceWarmReset (b : BootIn) (s : State) : Host.Outcome State Fault Refusal := .next (s.warmReset b)

/-- FLT_RESET_DEVICE_WARM (R550): FLT_RESET OP 1 requests a device warm reset. -/
def execFltResetDeviceWarm (s : State) : Host.Outcome State Fault Refusal := .next (s.warmRequest .fltReset)

/-- IMG_ACTIVATE (02 R61): IMG_CMD ACTIVATE requests a device warm reset. -/
def execImgActivate (s : State) : Host.Outcome State Fault Refusal :=
  .next (s.imgCmd fun s => (s.imgDone 0).warmRequest .imgActivate)

/-- The module enters cold or module reset and stays in it (R541); `last` is LAST of R550. -/
def State.holdReset (s : State) (last : Nat) : State :=
  { (s.coldState).setF Rg.FLT_RESET_CAUSE_LAST last with phase := .held }

/-- COLD_RESET's effect: power applied, or the power fail of R511, puts the whole module into cold reset (R541). -/
def State.coldReset (s : State) : State :=
  let s := if s.phase = .running then s.jobsStop else s
  let s := s.holdReset 0
  { s with pins := { s.pins with pwrGood := false } }

/-- COLD_RESET (R541): power applied puts the whole module into cold reset; the boot stages then run. -/
def execColdReset (s : State) : Host.Outcome State Fault Refusal := .next s.coldReset

/-- MODULE_RESET's effect: MOD_RST_N low for at least 50 ns resets the module for as long as it is held (R541; 18 R562). -/
def State.moduleReset (s : State) (ns : Nat) : State :=
  if ns < 50 || s.phase = .off then s
  else
    let s := if s.phase = .running then s.jobsStop else s
    let s := s.holdReset 1
    { s with pins := { s.pins with modRstN := false } }

/-- MODULE_RESET (R541): assertion of MOD_RST_N for 50 ns or more resets the module for as long as it is held. -/
def execModuleReset (ns : Nat) (s : State) : Host.Outcome State Fault Refusal := .next (s.moduleReset ns)

/-- POWER_GOOD (R542): once the 52 V input has stood within 46 V to 56 V, the module drives PWRGOOD high. -/
def execPowerGood (mv : Nat) (s : State) : Host.Outcome State Fault Refusal :=
  .next (if s.phase = .held && 46000 ≤ mv && mv ≤ 56000 then { s with pins := { s.pins with pwrGood := true, inputMv := mv } } else s)

/-- MODULE_RESET_RELEASE's effect: PWRGOOD and MOD_RST_N high, the straps sampled, and the boot (R542; 18 R564). -/
def State.release (s : State) (b : BootIn) : State :=
  if s.phase = .held && s.pins.pwrGood then
    State.boot { s with pins := { s.pins with modRstN := true, i3cMode := b.mgmtMode, addr := b.addr % 8 } } b
  else s

/-- MODULE_RESET_RELEASE (R542): when PWRGOOD and MOD_RST_N are both high, control core 0 leaves reset and MOD_ALIVE goes
high. -/
def execModuleResetRelease (b : BootIn) (s : State) : Host.Outcome State Fault Refusal := .next (s.release b)

/-! ### Watchdogs (R537, R539) -/

/-- CC_WDOG_EXPIRY's effect on logical control core `n`. -/
def State.ccWdog (s : State) (n : Nat) : State := match s.ctlOwner n with
  | none => s
  | some p =>
    if (s.ctlCore n).running then (s.passTo (1000000 * s.ccWdogMs p (s.ctlCore n).wdogAt + (s.ctlCore n).wdogAt)).wdogFault p 4 n else s

/-- CC_WDOG_EXPIRY (R539): a partition control core's watchdog expires and raises a job fault logged WDOG_CC. -/
def execCcWdogExpiry (n : Nat) (s : State) : Host.Outcome State Fault Refusal := .next (s.ccWdog n)

/-- SPILL_WAIT_TIMEOUT's effect: the task send that waits for spill room (11 R362). -/
def State.spillTimeout (s : State) (p : Nat) : State := match (s.sender p 33).queue with
  | x :: _ =>
    let t := x.wait.getD s.now
    if x.full && x.task.isSome then (s.passTo (1000000 * s.ccWdogMs p t + t)).wdogFault p 1 0 else s
  | [] => s

/-- SPILL_WAIT_TIMEOUT (11 R362): a task send waiting for spill room after CC_WDOG_MS raises a job fault. -/
def execSpillWaitTimeout (p : Nat) (s : State) : Host.Outcome State Fault Refusal := .next (s.spillTimeout p)

/-- PIN_WAIT_TIMEOUT's effect (08 R268). -/
def State.pinTimeout (s : State) (t page : Nat) : State :=
  match s.walks.find? fun w => w.task == t && w.page == page with
  | none => s
  | some w => match s.task? t with
    | none => s
    | some k =>
      if (s.page page).drops ≠ w.drops then s
      else (s.passTo (1000000 * s.drainMs k.part w.since + w.since)).wdogFault k.part 6 0

/-- PIN_WAIT_TIMEOUT (08 R268): a walk waiting at PIN 4,095 with no pin released for DRAIN_TIMEOUT_MS raises a job fault logged
DRAIN. -/
def execPinWaitTimeout (t page : Nat) (s : State) : Host.Outcome State Fault Refusal := .next (s.pinTimeout t page)

/-- A drain timeout of partition `p` that began at `t` (R537). -/
def State.drainFault (s : State) (p t : Nat) : State := (s.passTo (1000000 * s.drainMs p t + t)).wdogFault p 6 0

/-- The partitions with a task in a slot of logical core `c`. -/
def State.partsOn (s : State) (c : Nat) : List Nat :=
  ((s.tasks.filter fun t => t.parts.any fun x => x.core == some c && x.slot != 6).map (·.part)).eraseDups

/-- DRAIN_TIMEOUT's effect, by unit (R537; 06 R207; 10 R342; 11 R353; 16 R516). -/
def State.drainTimeout (s : State) (u : DrainUnit) : State := match u with
  | .halt p => match (s.part p).haltAt with
    | some t => if s.on (Rg.DSP_CTRL_HALT p) && s.anyRunning p then s.drainFault p t else s
    | none => s
  | .graph p tag => match s.graph? p tag with
    | some g => match g.unloadAt with
      | some t => if g.running then s.drainFault p t else s
      | none => s
    | none => s
  | .core c =>
    if (s.core c).power ≠ 3 then s
    else match s.logCore c with
      | none => s
      | some lc =>
        let ps := s.partsOn lc
        if ps.isEmpty then s
        else
          let at_ := (s.core c).drainAt
          (ps.foldl (fun s p => s.drainFault p at_) s).islandOff c
  | .skimmer k =>
    if s.on (Rg.CLU_SKM_CTRL_DISABLE k) then
      let ps := ((s.skimWork k).map (·.part)).eraseDups
      ps.foldl (fun s p => s.drainFault p (s.cluster k).skimOffAt) s
    else s
  | .endpoint h => match find? s.endpoints h with
    | some e => if e.closing && s.landings.any (fun l => l.ep == h) then s.drainFault e.part e.closeAt else s
    | none => s

/-- DRAIN_TIMEOUT (R537): work of a disabled, halted or switching-off unit still unfinished after DRAIN_TIMEOUT_MS raises a job
fault. -/
def execDrainTimeout (u : DrainUnit) (s : State) : Host.Outcome State Fault Refusal := .next (s.drainTimeout u)

/-- IK_WDOG_EXPIRY (R539): the Innkeeper watchdog expires and causes a device warm reset with cause IK_WDOG. -/
def execIkWdogExpiry (n : Nat) (s : State) : Host.Outcome State Fault Refusal :=
  .next (if s.phase = .running && s.bundle.isSome && n < 2 then
    ((s.bump Rg.FLT_IK_WDOG_EXPIRIES).warmRequest .ikWdog).raise Rg.FLT_IRQ_WDOG else s)

/-! ### Field repair (R543, R544, R553) -/

/-- A repair entry (R543). -/
structure Fix where
  kind : Nat
  arr : Nat
  core : Nat
  index : Nat
deriving DecidableEq, Repr

/-- The entries of a repair package. -/
def fixesOf (b : Bytes) : List Fix := (List.range (fieldAt b 10 2)).map fun i =>
  ⟨fieldAt b (32 + 8 * i) 1, fieldAt b (33 + 8 * i) 1, fieldAt b (34 + 8 * i) 2, fieldAt b (36 + 8 * i) 1⟩

/-- Whether a package of `len` bytes meets R543. -/
def fixFormat (b : Bytes) (len : Nat) : Bool :=
  let n := fieldAt b 10 2
  fieldAt b 0 8 == magic 0x52 0x50 0x52 && fieldAt b 8 2 == 1 && inRange n 1 64 && len == 297 + 8 * n && zeroAt b [(12, 4), (25, 7)] &&
    fieldAt b 24 1 < 2 && ((List.range n).all fun i => zeroAt b [(37 + 8 * i, 3)]) &&
    (fixesOf b).all fun f => inRange f.kind 1 4 && (if f.kind ≤ 2 then f.arr < 4 && f.index < 34 else f.arr == 0 && f.index == 0)

/-- Whether a package's signature verifies under the fused key its SIGNER names (R543). -/
def State.fixSigned (s : State) (b : Bytes) : Bool :=
  let n := 32 + 8 * fieldAt b 10 2
  let key := (b.drop (n + 132)).take 133
  let fuse := if fieldAt b 24 1 = 0 then s.fuses.swHash else s.fuses.ownerHash
  sha512 key == fuse && ecVerify key ((b.drop n).take 132) (sha512 (b.take n))

/-- Whether the target of an entry exists and is not bypassed already (R544, check 4). -/
def State.fixTarget (s : State) (fs : List Fix) (f : Fix) : Bool :=
  let k := f.core / 17
  k < s.var.clusters && !s.fuses.disabled.testBit k &&
    (3 ≤ f.kind || (f.arr < s.var.arrays && !(s.fuses.map.bypassed f.core f.arr (f.kind == 2)).contains f.index &&
      (fs.filter fun g => decide (g = f)).length == 1))

/-- Apply one entry to a fuse map; none when no spare is left for it (R544, check 5). -/
def fixMap (m : Option FuseMap) (f : Fix) : Option FuseMap := match m with
  | none => none
  | some m =>
    let k := f.core / 17
    let cur := m.spareOf k
    let dead := m.failed.contains (17 * k + cur) || m.moved.testBit k || m.kind4.contains (17 * k + cur)
    if f.kind ≤ 2 then
      if (m.skipsOf f.core f.arr (f.kind == 2)).length < 2 then some { m with skips := m.skips ++ [⟨f.core, f.arr, f.kind == 2, f.index⟩] }
      else none
    else if f.core % 17 = cur then none
    else if f.kind = 3 then
      if dead then none
      else some { m with spare := (List.range 16).map (fun j => if j = k then f.core % 17 else m.spareOf j), moved := m.moved ||| 2 ^ k }
    else if dead then some { m with kind4 := m.kind4 ++ [f.core] } else none

/-- What an applied entry shows until the next wider reset: PENDING, and its log entry (R544). -/
def State.fixShown (s : State) (f : Fix) : State :=
  let k := f.core / 17
  let s := if f.kind ≤ 2 then s.raise (Rg.CORE_ARR_REPAIR_PENDING f.core f.arr)
    else
      let s := s.raise (Rg.DEV_CORE_MAP_PENDING k)
      if f.kind = 3 then s.setF (Rg.DEV_CORE_MAP_NEXT_SPARE k) (f.core % 17) else s
  let place := if f.kind = 1 then f.index * 2 ^ 11 else if f.kind = 2 then f.index * 2 ^ 17 else 0
  s.fltAdd 12 0 15 15 0 false (f.core + f.arr * 2 ^ 9 + place)

/-- An APPLY completes (R553). -/
def State.fixDone (s : State) (r n : Nat) : State :=
  ((s.setF Rg.FLT_REPAIR_RESULT_RESULT r).setF Rg.FLT_REPAIR_RESULT_APPLIED n).raise Rg.FLT_IRQ_REPAIR_DONE

/-- The checks of APPLY on what the read of a package of `n` bytes gave, in R544's order: the result code, and the fuse map
that a package that passes leaves. -/
def State.repairVerdict (s : State) (r : MemRd) (n : Nat) : Nat × FuseMap :=
  let fs := fixesOf r.data
  let m := s.fuses.map
  if r.code ≠ 0 then (6, m)
  else if !fixFormat r.data n then (1, m)
  else if fieldAt r.data 16 8 ≠ s.fuses.serial then (2, m)
  else if !s.fixSigned r.data then (3, m)
  else if fs.any (fun f => !s.fixTarget fs f) then (4, m)
  else match fs.foldl fixMap (some m) with
    | none => (5, m)
    | some x => (0, x)

/-- FLT_REPAIR_CMD APPLY (R543, R544). -/
def State.repairApply (s : State) : State :=
  if !s.serving then s
  else if s.on Rg.FLT_REPAIR_RESULT_BUSY then s.setF Rg.FLT_REPAIR_RESULT_RESULT 7
  else
    let a := (s.rd Rg.FLT_REPAIR_HOST).toNat
    let n := s.fd Rg.FLT_REPAIR_LEN_LEN
    if !hostAddrOk a || !inRange n 305 809 then s.fixDone 1 0
    else
      let r := s.devRead 15 2 a n
      let v := r.st.repairVerdict r n
      if v.1 ≠ 0 then r.st.fixDone v.1 0
      else
        let fs := fixesOf r.data
        (fs.foldl State.fixShown { r.st with fuses := { r.st.fuses with map := v.2 } }).fixDone 0 fs.length

/-- REPAIR_APPLY (R544): FLT_REPAIR_CMD APPLY checks a signed repair package and blows its fuse entries in order, setting
PENDING. -/
def execRepairApply (s : State) : Host.Outcome State Fault Refusal := .next s.repairApply

/-- A read of FLT_LOG_HEAD2: the oldest entry's time, and the entry is removed (R551). -/
def State.fltLogPop (s : State) : State := match s.fltLog with
  | e :: r => { s with fltLog := r, bus := BitVec.ofNat 64 e.h2 }
  | [] => { s with bus := 0 }

/-- FLT_LOG_POP (R551): a read of FLT_LOG_HEAD2 returns the oldest fault log entry's time and removes the entry. -/
def execFltLogPop (s : State) : Host.Outcome State Fault Refusal := .next s.fltLogPop

end Sys2Proof.Machine
end

