-- ==== Sys2Proof/Machine/Secure.lean ====
section
/-!
DEFINITION. The SEC commands (15_boot_security.md R492 to R501, R507 to R510) and what a partition runtime asks of Innkeeper (R502,
R504 to R506).
-/
namespace Sys2Proof.Machine

/-! ### SEC commands (R493 to R498, R509) -/

/-- Whether SEC commands are served: by Innkeeper, or by the boot ROM in recovery mode (R487). -/
def State.secServed (s : State) : Bool := s.phase == .running && s.lrlActive && s.warmDue.isNone

/-- Whether the boot ended in recovery mode. -/
def State.inRecovery (s : State) : Bool := s.on Rg.SEC_BOOT_STATUS_MODE

/-- A SEC command completes with a result (R509). -/
def State.secDone (s : State) (r : Nat) : State := (((s.setF Rg.SEC_RESULT_RESULT r).raise Rg.SEC_RESULT_DONE).incr Rg.SEC_RESULT_COUNT)

/-- Perform a SEC command unless another runs; `flash` names those that use the flash controller (R493, R509). -/
def State.secCmd (s : State) (flash : Bool) (act : State → State) : State :=
  if !s.secServed then s
  else if s.on Rg.SEC_RESULT_BUSY || (flash && s.on Rg.IMG_STATUS_BUSY) then s.secDone 0x10 else act s

/-- A SEC command that needs a loaded bundle: NOT_LOADED in recovery mode (R487). -/
def State.secLoaded (s : State) (act : State → State) : State :=
  s.secCmd false fun s => if s.inRecovery then s.secDone 0x18 else act s

/-- Erase bundle slot `k`. -/
def State.eraseFw (s : State) (k : Nat) : State := (s.setFwSlot k []).noteFw k 1

/-- FW_ERASE (R493): SEC_CMD FW_ERASE erases the target bundle slot. -/
def execFwErase (s : State) : Host.Outcome State Fault Refusal :=
  .next (s.secCmd true fun s => ((s.eraseFw (s.fd Rg.SEC_BOOT_STATUS_FW_TARGET)).noteFwTarget).secDone 0)

/-- Whether SEC_XFER_HOST names a place in the window (R509). -/
def State.secHostOk (s : State) : Bool := let a := (s.rd Rg.SEC_XFER_HOST).toNat
  hostAddrOk a

/-- SEC_CMD FW_WRITE (R493, R509): the slot's reason follows what it now holds (assumption 93). -/
def State.fwWrite (s : State) : State :=
  let off := s.fd Rg.SEC_XFER_OFFSET_OFFSET
  let n := s.fd Rg.SEC_XFER_LEN_LEN
  if !s.secHostOk || off % 8 ≠ 0 || n % 8 ≠ 0 || 16777216 < off + n then s.secDone 0x11
  else
    let r := s.devRead 15 2 (s.rd Rg.SEC_XFER_HOST).toNat n
    if r.code ≠ 0 then r.st.secDone 0x12
    else
      let k := r.st.fd Rg.SEC_BOOT_STATUS_FW_TARGET
      let s := r.st.setFwSlot k (slotWrite (r.st.fwSlot k) off r.data)
      (s.noteFw k (s.checkBundle (s.fwSlot k) (k + 1)).1).secDone 0

/-- FW_WRITE (R493): SEC_CMD FW_WRITE copies bytes from host memory into the target bundle slot. -/
def execFwWrite (s : State) : Host.Outcome State Fault Refusal := .next (s.secCmd true State.fwWrite)

/-- Whether image slot `k` would pass the FIRMWARE check against Innkeeper version `fw` (R493). -/
def State.imgWouldRun (s : State) (fw k : Nat) : Bool :=
  let r := (s.checkImage (s.imgSlot k) fw).1
  r == 0 || 7 ≤ r

/-- The reason that a FW_COMMIT of bundle slot `k` ends with (R490, R493): the first failing check, then the sequence check. -/
def State.fwVerdict (s : State) (k : Nat) : Nat :=
  let x := s.checkBundle (s.fwSlot k) (k + 1)
  let late : Bool := match x.2, s.bundle with
    | some new, some old => new.seq ≤ old.seq
    | _, _ => false
  if x.1 = 0 && late then 0x0A else x.1

/-- Whether neither image slot would run with the bundle of slot `k` (R493). -/
def State.fwRisk (s : State) (k : Nat) : Bool := match (s.checkBundle (s.fwSlot k) (k + 1)).2 with
  | some new => !s.imgWouldRun new.innkeeper 0 && !s.imgWouldRun new.innkeeper 1
  | none => false

/-- SEC_CMD FW_COMMIT (R493). -/
def State.fwCommit (s : State) : State :=
  let k := s.fd Rg.SEC_BOOT_STATUS_FW_TARGET
  let r := s.fwVerdict k
  if r = 0 then (((s.noteFw k 0).noteFwTarget).setF Rg.SEC_BOOT_STATUS_IMG_AT_RISK (b2n (s.fwRisk k))).secDone 0
  else ((s.eraseFw k).noteFwTarget).secDone r

/-- FW_COMMIT (R493): SEC_CMD FW_COMMIT runs the bundle checks on the target slot, sets IMG_AT_RISK where it applies, and erases
the slot on failure. -/
def execFwCommit (s : State) : Host.Outcome State Fault Refusal := .next (s.secCmd true State.fwCommit)

/-- FW_ACTIVATE (R493): SEC_CMD FW_ACTIVATE requests a device warm reset. -/
def execFwActivate (s : State) : Host.Outcome State Fault Refusal :=
  .next (s.secCmd false fun s => (s.secDone 0).warmRequest .fwActivate)

/-- The SVN of the loaded image. -/
def State.imgSvn (s : State) : Nat := match s.loaded with
  | some l => l.svn
  | none => 0

/-- The fuses once the image counter (`img`) or the firmware counter is raised to the loaded SVN (R497). -/
def State.svnRaised (s : State) (img : Bool) : Fuses :=
  if img then { s.fuses with imgCtr := max s.fuses.imgCtr (min s.imgSvn 128) }
  else { s.fuses with fwCtr := max s.fuses.fwCtr (s.fd Rg.SEC_SVN_FW_SVN) }

/-- SEC_CMD COMMIT_SVN (R497). -/
def State.commitSvn (s : State) (which : Nat) : State := s.secLoaded fun s =>
  if which % 2 = 1 && s.loaded.isNone then s.secDone 0x18
  else (State.noteSvn { s with fuses := s.svnRaised (which % 2 == 1) }).secDone 0

/-- COMMIT_SVN (R497): SEC_CMD COMMIT_SVN raises the firmware or image counter fuse to the loaded SVN. -/
def execCommitSvn (which : Nat) (s : State) : Host.Outcome State Fault Refusal := .next (s.commitSvn which)

/-- SEC_CMD FUSE_OWNER (R495). -/
def State.fuseOwner (s : State) : State := s.secLoaded fun s =>
  if !allZero s.fuses.ownerHash then s.secDone 0x17
  else if !s.secHostOk then s.secDone 0x11
  else
    let r := s.devRead 15 2 (s.rd Rg.SEC_XFER_HOST).toNat 64
    if r.code ≠ 0 then r.st.secDone 0x12
    else if allZero r.data then r.st.secDone 0x11
    else
      let s := r.st
      (State.raise { s with fuses := { s.fuses with ownerHash := r.data } } Rg.SEC_BOOT_STATUS_OWNER_FUSED).secDone 0

/-- FUSE_OWNER (R495): SEC_CMD FUSE_OWNER programs the owner root-key hash once. -/
def execFuseOwner (s : State) : Host.Outcome State Fault Refusal := .next s.fuseOwner

/-! ### Attestation (R498 to R501) -/

/-- The sections in force of partition `p`, framed as R45 frames them (R500). -/
def State.sectionsInForce (s : State) (p : Nat) : Bytes := match (s.part p).cfg with
  | none => []
  | some c => sectBytes 0x10 c.part ++ (match c.streams with | some x => sectBytes 0x11 x | none => []) ++
      (match c.group with | some x => sectBytes 0x12 x | none => [])

/-- The attestation report for partition `part` (0xFF the device alone) over `nonce`, signed (R499). -/
def State.attReport (s : State) (part : Nat) (nonce : Bytes) : Bytes :=
  let q := s.part part
  let own := part < 12
  let z := List.replicate 64 (0 : Byte)
  let img := s.loaded
  let re := own && q.reloadKey.isSome
  let ver (f : Bundle → Nat) : Nat := match s.bundle with
    | some b => f b
    | none => 0
  let head := mkRec 112 [(0, 8, magic 0x41 0x54 0x54), (8, 2, 1), (10, 1, part), (11, 1, b2n re + 2 * b2n (!allZero s.fuses.ownerHash)),
    (12, 1, s.var.code), (13, 1, s.fuses.stepping), (16, 8, s.fuses.serial), (24, 8, s.time.dev), (32, 32, leNat (slice nonce 0 32)),
    (64, 8, ver Bundle.seq), (72, 8, match img with | some l => l.seq | none => 0), (80, 8, if own then q.reloadSeq else 0),
    (88, 4, ver Bundle.innkeeper), (92, 4, ver Bundle.ucode), (96, 4, ver Bundle.power), (100, 4, ver Bundle.port),
    (104, 1, s.fuses.fwCtr), (105, 1, s.fuses.imgCtr), (108, 4, if own then s.jobId part else 0)]
  let body := head ++ (match s.bundle with | some b => slice b.digest 0 64 | none => z) ++
    (match img with | some l => slice l.digest 0 64 | none => z) ++ (if own then sha512 (s.sectionsInForce part) else z) ++
    (match q.reloadKey with
      | some k => if re then slice k 0 64 else z
      | none => match img with
        | some l => slice l.signer 0 64
        | none => z) ++ List.replicate 16 0
  body ++ ecSign Config.identityKey (Config.signNonce s.free) (sha512 body)

/-- SEC_CMD ATTEST (R501, R509). -/
def State.attest (s : State) (part : Nat) : State := s.secLoaded fun s =>
  let p := part % 16
  if (p ≠ 15 && !s.defined p) || !s.secHostOk then s.secDone 0x11
  else
    let nonce := (List.range 4).flatMap fun k => toLe 8 (s.rd (Rg.SEC_ATT_NONCE k)).toNat
    let b := s.attReport (if p = 15 then 0xFF else p) nonce
    let r := s.devWrite 15 2 (s.rd Rg.SEC_XFER_HOST).toNat b
    r.st.freeNext.secDone (if r.code = 0 then 0 else 0x12)

/-- ATTEST (R501): SEC_CMD ATTEST signs an attestation report for a partition or for the device and writes it to host memory. -/
def execAttest (part : Nat) (s : State) : Host.Outcome State Fault Refusal := .next (s.attest part)

/-- SEC_CMD IDCERT (R498). -/
def State.idcert (s : State) : State := s.secCmd false fun s =>
  if !s.secHostOk then s.secDone 0x11
  else
    let r := s.devWrite 15 2 (s.rd Rg.SEC_XFER_HOST).toNat s.flash.cert
    r.st.secDone (if r.code = 0 then 0 else 0x12)

/-- IDCERT (R498): SEC_CMD IDCERT writes the 364-byte identity certificate to SEC_XFER_HOST. -/
def execIdcert (s : State) : Host.Outcome State Fault Refusal := .next s.idcert

/-! ### Partition runtimes (R502, R504 to R506, R510) -/

/-- A write of 1 to START (R502, R510): possible while RUNNING is 0; the runtime starts unless the partition is held or
resetting. -/
def State.partStart (s : State) (p : Nat) : State :=
  if !s.defined p || s.on (Rg.SEC_PART_CTRL_RUNNING p) || s.phase ≠ .running then s
  else
    let s := (s.modPart p fun q => { q with started := true, shut := false }).raise (Rg.SEC_PART_CTRL_START p)
    if s.pstate p < 2 && s.mayStart p then s.startRuntime p else s

/-- PART_START (R502): setting START in SEC_PART_CTRL_p starts the partition's lowest control core at ENTRY in VS-mode. -/
def execPartStart (p : Nat) (s : State) : Host.Outcome State Fault Refusal := .next (s.partStart p)

/-- A call by the runtime on logical control core `n`: performed only by a running core of a partition. -/
def State.sbi (s : State) (n : Nat) (act : State → Nat → State) : State := match s.ctlOwner n with
  | none => s
  | some p => if (s.ctlCore n).running && s.phase == .running then act s p else s

/-- A call returns: an SBI error (0 for success) in a0, values in a1 and a2 (R506). -/
def State.sbiRet (s : State) (n err a1 a2 : Nat) : State := s.modCtl n fun c => { c with a0 := err, a1 := a1, a2 := a2 }

/-- SBI_ERR_INVALID_PARAM, -3 in 64 bits (the SBI specification). -/
def sbiParam : Nat := 2 ^ 64 - 3
/-- SBI_ERR_INVALID_ADDRESS, -5. -/
def sbiAddress : Nat := 2 ^ 64 - 5
/-- SBI_ERR_ALREADY_AVAILABLE, -6. -/
def sbiAlready : Nat := 2 ^ 64 - 6

/-- SBI_INFO (R506): the INFO call returns the partition number and the Innkeeper version. -/
def execSbiInfo (n : Nat) (s : State) : Host.Outcome State Fault Refusal :=
  .next (s.sbi n fun s p => s.sbiRet n 0 p s.fwVersion)

/-- The RELOAD call (R506). -/
def State.sbiReload (s : State) (n a len : Nat) : State := s.sbi n fun s p =>
  if (s.badPoint p a len).isSome then s.sbiRet n sbiAddress 0 0
  else
    let r := s.devRead p 0 a len
    if r.code ≠ 0 then r.st.sbiRet n 0 0x12 0
    else
      let x := r.st.reload p r.data
      x.2.sbiRet n 0 x.1 0

/-- SBI_RELOAD (R506): the RELOAD call submits a reload package for the partition itself and returns the check result. -/
def execSbiReload (n : Nat) (addr len : W64) (s : State) : Host.Outcome State Fault Refusal :=
  .next (s.sbiReload n addr.toNat len.toNat)

/-- SBI_RELOAD_STATUS (R506): the RELOAD_STATUS call returns IMG_RELOAD_p. -/
def execSbiReloadStatus (n : Nat) (s : State) : Host.Outcome State Fault Refusal :=
  .next (s.sbi n fun s p => s.sbiRet n 0 (s.rd (Rg.IMG_RELOAD p)).toNat 0)

/-- The ATTEST call (R501, R506). -/
def State.sbiAttest (s : State) (n nonce dst : Nat) : State := s.sbi n fun s p =>
  if (s.badPoint p nonce 32).isSome || (s.badPoint p dst 516).isSome then s.sbiRet n sbiAddress 0 0
  else
    let r := s.devRead p 0 nonce 32
    if r.code ≠ 0 then r.st.sbiRet n 0 0x12 0
    else
      let b := r.st.attReport p r.data
      let w := r.st.devWrite p 1 dst b
      w.st.freeNext.sbiRet n 0 (if w.code = 0 then 0 else 0x12) 0

/-- SBI_ATTEST (R506): the ATTEST call signs a report for the partition itself and returns when the report is written. -/
def execSbiAttest (n : Nat) (nonce dst : W64) (s : State) : Host.Outcome State Fault Refusal :=
  .next (s.sbiAttest n nonce.toNat dst.toNat)

/-- SBI_FAULT_INFO (R506): the FAULT_INFO call returns the cause and FAULT_ID of the partition's last job fault. -/
def execSbiFaultInfo (n : Nat) (s : State) : Host.Outcome State Fault Refusal :=
  .next (s.sbi n fun s p => s.sbiRet n 0 (s.fd (Rg.FLT_PART_CAUSE p)) (s.fd (Rg.FLT_PART_FAULT_ID p)))

/-- The JOB_FAULT call (R506). -/
def State.sbiJobFault (s : State) (n cause : Nat) : State := s.sbi n fun s p =>
  if cause = 0x20 || cause = 0x30 then s.jobFault p cause else s.sbiRet n sbiParam 0 0

/-- SBI_JOB_FAULT (R506): the JOB_FAULT call raises a job fault on the partition's job and does not return. -/
def execSbiJobFault (n : Nat) (cause : W64) (s : State) : Host.Outcome State Fault Refusal := .next (s.sbiJobFault n cause.toNat)

/-- The SRST call (R505): type 0 shutdown, 1 cold reboot, 2 warm reboot. -/
def State.sbiSrst (s : State) (n kind : Nat) : State := s.sbi n fun s p =>
  if kind = 0 then (s.stopCores p).modPart p fun q => { q with shut := true }
  else if kind ≤ 2 then s.askReset p 3 else s.sbiRet n sbiParam 0 0

/-- SBI_SRST (R505): an SRST reset request resets the partition, and a shutdown request stops its cores. -/
def execSbiSrst (n kind : Nat) (s : State) : Host.Outcome State Fault Refusal := .next (s.sbiSrst n kind)

/-- The HSM hart-start call (R502, R505). -/
def State.hartStart (s : State) (n target a arg : Nat) : State := s.sbi n fun s p =>
  if s.ctlOwner target ≠ some p then s.sbiRet n sbiParam 0 0
  else if (s.ctlCore target).running then s.sbiRet n sbiAlready 0 0
  else if (s.badPoint p a 4).isSome then s.sbiRet n sbiAddress 0 0
  else (State.noteRunning (s.modCtl target fun _ => ⟨true, 1, a, target, arg, 0, s.now, 0⟩) p).sbiRet n 0 0 0

/-- SBI_HSM_HART_START (R505): an HSM call starts another control core of the partition. -/
def execSbiHsmHartStart (n target : Nat) (addr arg : W64) (s : State) : Host.Outcome State Fault Refusal :=
  .next (s.hartStart n target addr.toNat arg.toNat)

/-- HART_STOP (R505): an SBI HSM hart-stop call stops a control core of the partition, which is then no longer watched. -/
def execHartStop (n : Nat) (s : State) : Host.Outcome State Fault Refusal :=
  .next (s.sbi n fun s p => (s.modCtl n fun c => { c with running := false }).noteRunning p)

/-- A write to CCI_WDOG: the core's watchdog starts again (R504). -/
def State.petDog (s : State) (n : Nat) : State := s.modCtl n fun c => { c with wdogAt := s.now }

/-- CCI_WDOG_PET (R504): any write to CCI_WDOG restarts the control core's watchdog. -/
def execCciWdogPet (n : Nat) (s : State) : Host.Outcome State Fault Refusal := .next (s.petDog n)

end Sys2Proof.Machine
end

