-- ==== Sys2Proof/Machine/Power.lean ====
section
/-!
DEFINITION. Power, clocks and device time (16_power_time.md R511 to R527).
-/
namespace Sys2Proof.Machine

/-! ### Throttle reasons (R522) -/

/-- A throttle reason comes into force: counted once, and timed. -/
def State.reasonOn (s : State) (r : Nat) : State := match find (fun _ => none) s.power.reason r with
  | some _ => s
  | none =>
    State.bump { s with power := { s.power with reason := ins s.power.reason r (some s.now) } } (Rg.PWR_THR_CNT_EVENTS r)

/-- A throttle reason is no longer in force: its µs are added. -/
def State.reasonOff (s : State) (r : Nat) : State := match find (fun _ => none) s.power.reason r with
  | some t =>
    State.bump { s with power := { s.power with reason := ins s.power.reason r none } } (Rg.PWR_THR_US_DURATION_US r) ((s.now - t) / 1000)
  | none => s

/-- Set whether a throttle reason is in force. -/
def State.setReason (s : State) (r : Nat) (b : Bool) : State := if b then s.reasonOn r else s.reasonOff r

/-- PWR_THR_US_r as read: with the time since it came into force (R531). -/
def State.throttleUs (s : State) (r : Nat) : Nat := s.fd (Rg.PWR_THR_US_DURATION_US r) +
  (match find (fun _ => none) s.power.reason r with
    | some t => (s.now - t) / 1000
    | none => 0)

/-- The cores that left Off in the last µs (R518). -/
def State.rampRecent (s : State) : Nat := (s.power.rampTimes.filter fun t => s.now < t + 1000).length

/-- The CURRENT reason: the slow-down, or a switch-on that waits (R518, R522). -/
def State.noteCurrent (s : State) : State :=
  s.setReason 4 (s.on Rg.PWR_STATUS_CURRENT || 16 < s.power.rampWait.length + s.rampRecent)

/-! ### Input power (R511) and fast limits (R517, R519) -/

/-- POWER_FAIL's effect: job faults and ABORTs, then the cold-reset state (R511, R541). -/
def State.powerFail (s : State) (mv us : Nat) : State :=
  if s.phase ≠ .off && ((mv < 44000 && 50 ≤ us) || (58000 < mv && 10 ≤ us)) then
    let s := if s.phase = .running then s.jobsStop.pass 20000 else s
    let s := s.holdReset 2
    { s with pins := { s.pins with pwrGood := false, inputMv := mv } }
  else s

/-- POWER_FAIL (R511): an input below 44 V for 50 µs, or above 58 V for 10 µs, raises job faults and enters cold reset 20 µs
later. -/
def execPowerFail (mv us : Nat) (s : State) : Host.Outcome State Fault Refusal := .next (s.powerFail mv us)

/-- SAG_DETECT's effect (R511, R529). -/
def State.sagDetect (s : State) (mv us : Nat) : State :=
  if s.phase = .running && mv < 47000 && 10 < us && !s.on Rg.PWR_STATUS_SAG then
    ((s.raise Rg.PWR_STATUS_SAG).raise Rg.PWR_IRQ_SAG).reasonOn 2
  else s

/-- SAG_DETECT (R511): an input below 47 V for more than 10 µs sets SAG and slows the tensor-core islands to 2.25 GHz. -/
def execSagDetect (mv us : Nat) (s : State) : Host.Outcome State Fault Refusal := .next (s.sagDetect mv us)

/-- SAG_CLEAR (R511): an input at or above 48 V for 100 µs continuously clears the sag slow-down. -/
def execSagClear (mv us : Nat) (s : State) : Host.Outcome State Fault Refusal :=
  .next (if 48000 ≤ mv && 100 ≤ us && s.on Rg.PWR_STATUS_SAG then (s.setF Rg.PWR_STATUS_SAG 0).reasonOff 2 else s)

/-- CURRENT_SLOW_BEGIN (R517): a 100 µs mean input power above 110% of the cap slows every tensor-core island to 2.25 GHz. -/
def execCurrentSlowBegin (w : Nat) (s : State) : Host.Outcome State Fault Refusal :=
  .next (if s.phase = .running && 11 * s.fd Rg.PWR_CAP_SET_CAP_W < 10 * w then (s.raise Rg.PWR_STATUS_CURRENT).noteCurrent else s)

/-- CURRENT_SLOW_END (R517): a 100 µs mean input power at or below the cap restores 3.0 GHz. -/
def execCurrentSlowEnd (w : Nat) (s : State) : Host.Outcome State Fault Refusal :=
  .next (if s.on Rg.PWR_STATUS_CURRENT && w ≤ s.fd Rg.PWR_CAP_SET_CAP_W then (s.setF Rg.PWR_STATUS_CURRENT 0).noteCurrent else s)

/-- Replace the list of stretched islands; DROOP is in force while some island is stretched (R519, R522). -/
def State.setStretched (s : State) (l : List Nat) : State :=
  State.setReason { s with power := { s.power with stretched := l } } 3 (!l.isEmpty)

/-- DROOP_ASSERT (R519): an island's droop detector asserts and doubles the island's clock period. -/
def execDroopAssert (island : Nat) (s : State) : Host.Outcome State Fault Refusal :=
  .next (if s.phase ≠ .running || s.power.stretched.contains island then s else s.setStretched (s.power.stretched ++ [island]))

/-- DROOP_CLEAR (R519): eight stretched cycles after the droop detector clears, the island's period returns. -/
def execDroopClear (island cycles : Nat) (s : State) : Host.Outcome State Fault Refusal :=
  .next (if 8 ≤ cycles && s.power.stretched.contains island then s.setStretched (s.power.stretched.filter (· != island)) else s)

/-! ### Thermal (R520) -/

/-- THERMTRIP's effect (R520). -/
def State.thermtrip (s : State) (k c : Nat) : State :=
  if s.phase ≠ .running || c < 108 then s
  else
    let ps := allParts.filter fun p => (s.tasksOf p).any Task.inFlight
    let s := ps.foldl (fun s p => s.jobFault p stAborted) s
    let s : State := { s with
      cores := s.cores.map fun e => (e.1, if e.2.power = 4 then e.2 else e.2.off)
      power := { s.power with trip := true, rampWait := [] } }
    let s := ((((s.raise Rg.PWR_STATUS_THERMTRIP).raise Rg.PWR_IRQ_THERMTRIP).setF Rg.PWR_THERM_MAX_C (max c (s.fd Rg.PWR_THERM_MAX_C))).setF
      Rg.PWR_THERM_HOT_CLUSTER k).reasonOn 1
    let s := allParts.foldl (fun s p => if s.defined p then s.recomputePool p else s) s
    s.noteCurrent.sense

/-- THERMTRIP (R520): a sensor at 108 °C switches every tensor core off at once and raises job faults on every partition with a
task in flight. -/
def execThermtrip (k celsius : Nat) (s : State) : Host.Outcome State Fault Refusal := .next (s.thermtrip k celsius)

/-! ### Switching cores (R515, R516, R518) -/

/-- The physical cores of partition `p` in ascending logical number. -/
def State.physOf (s : State) (p : Nat) : List Nat := (s.coresOf p).map s.physCore

/-- The cores of partition `p` that are not held (R514). -/
def State.notHeld (s : State) (p : Nat) : Nat := ((s.physOf p).filter fun c => (s.core c).power != 4).length

/-- Of some on cores, ascending, the one to switch off first: with no task, then only a staged one, then any; the highest (R515). -/
def State.offFirst (s : State) (cs : List Nat) : Option Nat :=
  let rank (c : Nat) : Nat := match s.logCore c with
    | none => 3
    | some l => if !(s.slotFree l 2 && s.slotFree l 3) then 2 else if !s.slotFree l 1 then 1 else 0
  let r := cs.reverse
  match r.find? fun c => rank c == 0 with
  | some c => some c
  | none => match r.find? fun c => rank c == 1 with
    | some c => some c
    | none => r.head?

/-- Core `c` starts draining: its staged task is withdrawn, and its partition's pools are recomputed (R516; 05 R178; 10 R335). -/
def State.drainCore (s : State) (c : Nat) : State := match s.logCore c with
  | none => s
  | some l =>
    let s := State.withdraw (s.modCore c fun x => { x with power := 3, drainAt := s.now }) l
    match s.coreOwner l with
    | some p => s.recomputePool p
    | none => s

/-- Core `c` is On: pools recomputed (R516). -/
def State.coreOn (s : State) (c : Nat) : State :=
  let s := s.modCore c fun x => { x with power := 2 }
  match s.logCore c with
  | none => s
  | some l => match s.coreOwner l with
    | some p => s.recomputePool p
    | none => s

/-- Switch off cores of `p` until `n` of its on cores have been chosen: waiting switch-ons first. -/
def State.switchOff (p : Nat) : Nat → State → State
  | 0, s => s
  | n + 1, s =>
    let mine := s.physOf p
    match (s.power.rampWait.reverse).find? fun c => mine.contains c with
    | some c => State.switchOff p n { s with power := { s.power with rampWait := s.power.rampWait.filter (· != c) } }
    | none => match s.offFirst (mine.filter fun c => (s.core c).power == 2) with
      | some c => State.switchOff p n (s.drainCore c)
      | none => s

/-- Switch on `n` cores of `p`: draining ones return to On, then off ones are granted, lowest first (R515, R516). -/
def State.switchOn (p : Nat) : Nat → State → State
  | 0, s => s
  | n + 1, s =>
    let mine := (s.physOf p).filter fun c => !s.power.thermOff.contains c && !s.power.rampWait.contains c
    match mine.find? fun c => (s.core c).power == 3 with
    | some c => State.switchOn p n (s.coreOn c)
    | none => match mine.find? fun c => (s.core c).power == 0 with
      | some c => State.switchOn p n { s with power := { s.power with rampWait := s.power.rampWait ++ [c] } }
      | none => s

/-- Bring partition `p`'s cores on to the number allowed (R515). -/
def State.balance (s : State) (p : Nat) : State :=
  let n := find (fun _ => 0) s.power.allowed p
  let on := ((s.physOf p).filter fun c => (s.core c).power == 1 || (s.core c).power == 2 || s.power.rampWait.contains c).length
  if n < on then State.switchOff p (on - n) s
  else if s.power.trip then s else State.switchOn p (n - on) s

/-- CORE_RAMP_ON_START's effect: at most 16 cores leave Off in any µs (R518). -/
def State.rampOn (s : State) (c : Nat) : State :=
  if s.power.rampWait.contains c && (s.core c).power == 0 && !s.power.trip then
    let ts := s.power.rampTimes
    let s := if ts.length < 16 then s else s.passTo (ts.headD 0 + 1000)
    let s : State := { s with power := { s.power with
      rampWait := s.power.rampWait.filter (· != c), rampTimes := (if ts.length < 16 then ts else ts.drop 1) ++ [s.now] } }
    (s.modCore c fun x => { x with power := 1 }).noteCurrent
  else s

/-- CORE_RAMP_ON_START (R518): a granted switch-on leaves Off once the limit of 16 cores per µs allows. -/
def execCoreRampOnStart (c : Nat) (s : State) : Host.Outcome State Fault Refusal := .next (s.rampOn c)

/-- CORE_ON (R516): the island is ready, the core is On, and the Dispatcher may issue to it. -/
def execCoreOn (c : Nat) (s : State) : Host.Outcome State Fault Refusal :=
  .next (if (s.core c).power = 1 then s.coreOn c else s)

/-- CORE_DRAINED_OFF (R516): when a draining core's executing and draining slots are empty, its arrays ramp down and the island is
powered off. -/
def execCoreDrainedOff (c : Nat) (s : State) : Host.Outcome State Fault Refusal :=
  .next (if (s.core c).power = 3 && (match s.logCore c with | some l => s.slotFree l 2 && s.slotFree l 3 | none => true) then
    s.islandOff c else s)

/-! ### The loop (R512 to R515, R520) -/

/-- One partition in the apportioning, mW: number, charge, demand, share, grant, cores not held, cores allowed (R514). -/
structure Claim where
  p : Nat
  ch : Nat
  dem : Nat
  sh : Nat
  grant : Nat
  cores : Nat
  n : Nat
deriving DecidableEq, Repr

/-- The claims of the partitions that have a core not held, in rank order (R514). -/
def State.claims (s : State) (m : PowerIn) : List Claim :=
  let dev := match s.loaded with
    | some l => l.device
    | none => []
  ((partOrder dev).filter s.defined).filterMap fun p =>
    let n := s.notHeld p
    let on := ((s.physOf p).filter fun c => (s.core c).power == 2).length
    let ch := if on = 0 then (if s.var = .p3 then 4200 else 7000) else max 2000 (m.chargeMw.getD p 0)
    if n = 0 then none else some ⟨p, ch, ch * n, s.cfg p 156 4 * 1000, ch, n, 0⟩

/-- Give claims, in rank order, up to what `want` asks beyond their grants: the claims and what remains. -/
def giveUp (want : Claim → Nat) : List Claim → Nat → List Claim × Nat
  | [], rem => ([], rem)
  | c :: r, rem =>
    let x := min (want c - c.grant) rem
    let t := giveUp want r (rem - x)
    ({ c with grant := c.grant + x } :: t.1, t.2)

/-- Buy whole cores, in rank order, from the rounding pool (R514). -/
def buyCores : List Claim → Nat → List Claim
  | [], _ => []
  | c :: r, rem =>
    let k := min (c.cores - c.n) (rem / c.ch)
    { c with n := c.n + k } :: buyCores r (rem - k * c.ch)

/-- Divide the compute grant (R514). -/
def apportion (cs : List Claim) (g : Nat) : List Claim :=
  let rem := g - cs.foldl (fun a c => a + c.ch) 0
  let a := giveUp (fun c => min c.dem c.sh) cs rem
  let b := giveUp (fun c => c.dem) a.1 a.2
  let counted := b.1.map fun c => { c with n := max 1 (c.grant / c.ch) }
  buyCores counted (counted.foldl (fun x c => x + (c.grant - c.n * c.ch)) b.2)

/-- The grants of links, memory and compute (with its reserve), mW, in POWER_ORDER (R513). -/
def classGrants (order capMw base reserve links memory compute : Nat) : Nat × Nat × Nat :=
  let rem0 := capMw - base - reserve
  let want (k : Nat) : Nat := if k = 0 then links else if k = 1 then memory else compute - reserve
  let k0 := order % 4
  let k1 := order / 4 % 4
  let k2 := order / 16 % 4
  let g0 := min (want k0) rem0
  let g1 := min (want k1) (rem0 - g0)
  let g2 := rem0 - g0 - g1
  let of (k : Nat) : Nat := if k = k0 then g0 else if k = k1 then g1 else if k = k2 then g2 else 0
  (of 0, of 1, reserve + of 2)

/-- Thermal rule of one physical cluster in a loop: one more core off above LIMIT_C, one returned at 3 °C below it (R520). -/
def State.thermCluster (m : PowerIn) (s : State) (k : Nat) : State :=
  let t := m.hottest.getD k 0
  let lim := s.fd Rg.PWR_THERM_LIMIT_C
  let cs := ((List.range s.nCores).map s.physCore).filter fun c => c / 17 == k
  if lim < t then match s.offFirst (cs.filter fun c => (s.core c).power == 2) with
    | some c =>
      State.raise (State.drainCore { s with power := { s.power with thermOff := s.power.thermOff ++ [c] } } c) Rg.PWR_IRQ_THERMAL
    | none => s
  else if t + 3 ≤ lim then match cs.find? fun c => s.power.thermOff.contains c with
    | some c => { s with power := { s.power with thermOff := s.power.thermOff.filter (· != c) } }
    | none => s
  else s

/-- What the loop reports of one partition (R514, R530), and its allowed count less the cores off under R520. -/
def State.noteClaim (s : State) (c : Claim) : State :=
  let off := ((s.physOf c.p).filter fun x => s.power.thermOff.contains x).length
  let reason := if c.grant < c.dem then (if c.grant < c.sh then 2 else 1) else if off ≠ 0 then 3 else 0
  let was := s.fd (Rg.PWR_PART_GRANT_REASON c.p)
  let s := if (reason = 1 || reason = 2) && !(was = 1 || was = 2) then s.raise Rg.PWR_IRQ_LIMITED else s
  let s := (((s.setF (Rg.PWR_PART_GRANT_GRANT_W c.p) (c.grant / 1000)).setF (Rg.PWR_PART_GRANT_DEMAND_W c.p) (c.dem / 1000)).setF
    (Rg.PWR_PART_GRANT_ALLOWED c.p) (c.n - off)).setF (Rg.PWR_PART_GRANT_REASON c.p) reason
  let s := s.setF (Rg.PWR_PART_CHARGE_CHARGE_MW c.p) c.ch
  { s with power := { s.power with allowed := ins s.power.allowed c.p (c.n - off) } }

/-- What the loop measures (R511, R512, R520). -/
def State.measure (s : State) (m : PowerIn) : State :=
  let hot := s.enabled.foldl (fun (b : Nat × Nat) k => if b.1 < m.hottest.getD k 0 then (m.hottest.getD k 0, k) else b) (0, 0)
  let s := ((((s.setF Rg.PWR_STATUS_INPUT_MV (min m.inputMv 65535)).setF Rg.PWR_STATUS_INPUT_W (min m.inputW 4095)).incr
    Rg.PWR_ENERGY_ENERGY_MJ m.energyMj).setF Rg.PWR_THERM_MAX_C (min hot.1 255)).setF Rg.PWR_THERM_HOT_CLUSTER hot.2
  if s.power.trip && s.enabled.all (fun k => m.hottest.getD k 0 ≤ 95) then
    State.setF { s with power := { s.power with trip := false } } Rg.PWR_STATUS_THERMTRIP 0
  else s

/-- POWER_LOOP's effect (R512 to R515, R520, R522). -/
def State.powerLoop (s : State) (m : PowerIn) : State :=
  if s.phase ≠ .running || s.inRecovery then s
  else
    let s := s.enabled.foldl (State.thermCluster m) (s.measure m)
    let cs := s.claims m
    let order := match s.loaded with
      | some l => fieldAt l.device 2 1
      | none => 0x24
    let links := m.linksW * 1100
    let memory := m.memoryW * 1100
    let reserve := cs.foldl (fun a c => a + c.ch) 0
    let g := classGrants order (s.fd Rg.PWR_CAP_SET_CAP_W * 1000) (m.baseW * 1000) reserve links memory (cs.foldl (fun a c => a + c.dem) 0)
    let cs := apportion cs g.2.2
    let s := cs.foldl State.noteClaim s
    let s := (((s.setF Rg.PWR_BUDGET_BASE_W m.baseW).setF Rg.PWR_BUDGET_LINKS_W (g.1 / 1000)).setF Rg.PWR_BUDGET_MEMORY_W
      (g.2.1 / 1000)).setF Rg.PWR_BUDGET_COMPUTE_W (g.2.2 / 1000)
    let s := (cs.map Claim.p).foldl State.balance s
    let held (r : Nat) : Bool := cs.any fun c => c.grant < c.dem && (decide (c.grant < c.sh) == (r == 5))
    let s := s.setF Rg.PWR_STATUS_THERMAL (b2n (!s.power.thermOff.isEmpty))
    let s := s.setReason 0 (held 0 || g.1 < links || g.2.1 < memory)
    let s := s.setReason 1 (!s.power.thermOff.isEmpty || s.power.trip)
    (s.setReason 5 (held 5)).noteCurrent.sense

/-- POWER_LOOP (R513): every 100 µs the power manager divides the cap among base, reserve, classes and partitions, and sets core
counts. -/
def execPowerLoop (m : PowerIn) (s : State) : Host.Outcome State Fault Refusal := .next (s.powerLoop m)

/-- A write to PWR_CAP_SET (R512, R527). -/
def State.capSet (s : State) (v : W64) : State :=
  let s := if bitOf v.toNat 12 then s.setF Rg.PWR_CAP_SET_REJECT 0 else s
  if inRange (bitsOf v.toNat 0 12) s.var.capMin s.var.limitW then s.setF Rg.PWR_CAP_SET_CAP_W (bitsOf v.toNat 0 12)
  else s.raise Rg.PWR_CAP_SET_REJECT

/-- PWR_CAP_SET_WRITE (R527): a write to PWR_CAP_SET sets the cap for the next loop, or sets REJECT if the value is out of
range. -/
def execPwrCapSetWrite (v : W64) (s : State) : Host.Outcome State Fault Refusal := .next (s.capSet v)

/-! ### Reference and device time (R523 to R526) -/

/-- REF_LOST (R523): loss of the external reference for 1 µs switches the generators to the on-module oscillator and sets
REF_LOST. -/
def execRefLost (ns : Nat) (s : State) : Host.Outcome State Fault Refusal :=
  .next (if s.phase = .running && 1000 ≤ ns && s.on Rg.DEV_TIME_CTRL_REF_EXT then
    ((s.setF Rg.DEV_TIME_CTRL_REF_EXT 0).raise Rg.PWR_IRQ_REF_LOST).event 0 1 else s)

/-- Set the device time counter (R526). -/
def State.timeSet (s : State) (v : W64) : State :=
  State.incr { s with time := { s.time with dev := v.toNat, hold := 0 } } Rg.DEV_PPS_STATS_TIME_SETS

/-- The whole second nearest to device time `c` (R525). -/
def ppsSecond (c : Nat) : Nat := 1000000000 * ((500000000 + c) / 1000000000)

/-- How far device time `c` is from the nearest whole second, ns (R525). -/
def ppsError (c : Nat) : Nat := if c < ppsSecond c then ppsSecond c - c else c - ppsSecond c

/-- Whether the last correction was less than half a second ago (R525). -/
def State.ppsNear (s : State) : Bool := match s.time.ppsLast with
  | some t => s.now < 500000000 + t
  | none => false

/-- An edge captures device time, and its offset from the nearest second (R525, R533). -/
def State.ppsCapture (s : State) : State :=
  let c := s.time.dev
  ((s.wr Rg.DEV_PPS_CAPTURE (BitVec.ofNat 64 c)).incr Rg.DEV_PPS_STATS_EDGES).setF Rg.DEV_PPS_OFFSET_OFFSET
    (if c < ppsSecond c then 2 ^ 32 - ppsError c else ppsError c)

/-- An edge that corrects nothing (R525). -/
def State.ppsReject (s : State) : State := (s.setF Rg.DEV_PPS_OFFSET_APPLIED 0).incr Rg.DEV_PPS_STATS_REJECTS

/-- The correction (R525): a late counter steps forward, an early one is held. -/
def State.ppsApply (s : State) : State :=
  let c := s.time.dev
  let s := s.raise Rg.DEV_PPS_OFFSET_APPLIED
  { s with time := { s.time with
      ppsLast := some s.now, dev := if c < ppsSecond c then (c + ppsError c) % 2 ^ 64 else c
      hold := if c < ppsSecond c then s.time.hold else s.time.hold + ppsError c } }

/-- PPS_EDGE's effect: the capture, and within the window the correction (R525, R533). `set` is a host set at the same time. -/
def State.ppsEdge (s : State) (set : Option W64) : State := match set with
  | some v => s.ppsCapture.ppsReject.timeSet v
  | none =>
    if !s.on Rg.DEV_TIME_CTRL_PPS_EN || s.fd Rg.DEV_TIME_CTRL_WINDOW_US * 1000 < ppsError s.time.dev || s.ppsNear then
      s.ppsCapture.ppsReject
    else s.ppsCapture.ppsApply

/-- PPS_EDGE (R525): a rising edge of PPS_IN captures device time and, within the window, corrects the counter; pulses shorter
than 50 ns are ignored (18 R562). -/
def execPpsEdge (ns : Nat) (set : Option W64) (s : State) : Host.Outcome State Fault Refusal :=
  .next (if s.phase = .running && 50 ≤ ns then s.ppsEdge set else s)

/-- DEV_TIME_SET_WRITE (R526): a write to DEV_TIME_SET sets the device time counter at once. -/
def execDevTimeSetWrite (v : W64) (s : State) : Host.Outcome State Fault Refusal := .next (s.timeSet v)

end Sys2Proof.Machine
end

