-- ==== Sys2Proof/Machine/Service.lean ====
section
/-!
DEFINITION. The service unit: attention key, quiesce, force stop, light bar and presence (17_faults_reset.md R545 to R549, R555 to
R557).
-/
namespace Sys2Proof.Machine

/-- SVC_STATE.MODE (R555): 0 NORMAL, 1 QUIESCING, 2 SAFE, 3 STOPPING, 4 STOPPED. -/
def State.svcMode (s : State) : Nat := s.fd Rg.SVC_STATE_MODE

/-- Enter a MODE. -/
def State.setMode (s : State) (m : Nat) : State := (s.setF Rg.SVC_STATE_MODE m).sense

/-- Change what the service unit keeps. -/
def State.modSvc (s : State) (f : ServiceSt → ServiceSt) : State := { s with service := f s.service }

/-! ### Halting and settling (R546) -/

/-- DSP_CTRL.HALT of partition `p` is written (10 R342, R344): when it becomes set, its drain timeout begins. -/
def State.dspHalt (s : State) (p v : Nat) : State :=
  let was := s.on (Rg.DSP_CTRL_HALT p)
  let s := s.setF (Rg.DSP_CTRL_HALT p) v
  if v = 0 then s.modPart p fun q => { q with haltAt := none }
  else if was then s else s.modPart p fun q => { q with haltAt := some s.now }

/-- Hold partition `p` and set its HALT bits, noting those that were clear (R546, step 2). -/
def State.quiescePart (s : State) (p : Nat) : State :=
  if !s.defined p then s
  else
    let new := (if s.on (Rg.LDG_CTRL_HALT p) then 0 else 2 ^ p) + (if s.on (Rg.DSP_CTRL_HALT p) then 0 else 2 ^ (12 + p))
    let s := (((s.setF (Rg.LDG_CTRL_HALT p) 1).dspHalt p 1).raise (Rg.FLT_PART_HELD p))
    s.modSvc fun v => { v with haltSet := v.haltSet ||| new }

/-- A quiesce begins (R546, steps 1 and 2); from any MODE but NORMAL, or with the boot halted, it does not. -/
def State.quiesce (s : State) : State :=
  if s.phase ≠ .running || s.svcMode ≠ 0 then s
  else
    let s := (s.setMode 1).raise Rg.SVC_IRQ_QUIESCE_REQ
    allParts.foldl State.quiescePart (s.modSvc fun v => { v with quiesceAt := some s.now, haltSet := 0 })

/-- Whether partition `p` is settled (R546, step 3). -/
def State.settled (s : State) (p : Nat) : Bool :=
  !s.anyRunning p && (s.entsOf p).all (fun e => e.2.state != 5) && (s.tasksOf p).isEmpty &&
    s.coach.tx.all fun f => f.2.part != p || f.2.unacked.isEmpty

/-- Every Coach port goes DOWN. -/
def State.portsDown (s : State) : State := forN s.var.ports (fun s n => s.portDown n) s

/-- The quiesce or the boot ends in SAFE (R546, step 5). -/
def State.enterSafe (s : State) : State := ((s.portsDown).setMode 2).raise Rg.SVC_IRQ_SAFE

/-- Every partition is settled or IDLE: the quiesce completes (R546, step 5). -/
def State.quiesceDone (s : State) : State :=
  if s.svcMode = 1 && allParts.all (fun p => !s.defined p || s.pstate p == 0 || s.settled p) then s.enterSafe else s

/-- QUIESCE_S passes: a job fault on each partition not settled (R546, step 4; R537). -/
def State.quiesceExpire (s : State) : State := match s.service.quiesceAt with
  | none => s
  | some t =>
    if s.svcMode ≠ 1 then s
    else
      let s := s.passTo (1000000000 * s.fd Rg.SVC_CFG_QUIESCE_S + t)
      let late := allParts.filter fun p => s.defined p && s.pstate p != 0 && !s.settled p
      late.foldl (fun s p => s.wdogFault p 6 0) s

/-- Release partition `p`: HELD cleared, the HALT bits that the quiesce set cleared, and an IDLE runtime started (R546). -/
def State.releasePart (bits : Nat) (s : State) (p : Nat) : State :=
  if !s.defined p then s
  else
    let s := s.setF (Rg.FLT_PART_HELD p) 0
    let s := if bits.testBit p then s.setF (Rg.LDG_CTRL_HALT p) 0 else s
    let s := if bits.testBit (12 + p) then s.dspHalt p 0 else s
    if s.pstate p = 0 && s.mayStart p then s.startRuntime p else s

/-- A quiesce or a stop ends (R546, R547); a halted boot or recovery's SAFE is left by a reset only (R545). -/
def State.resume (s : State) : State :=
  let m := s.svcMode
  if s.phase ≠ .running || s.service.bootHalt || !(m = 1 || m = 2 || m = 4) then s
  else
    let bits := s.service.haltSet
    let s := (s.setMode 0).modSvc fun v => { v with quiesceAt := none, haltSet := 0 }
    allParts.foldl (State.releasePart bits) s

/-- A force stop (R547): every partition held, a job fault on each that is not IDLE, MODE STOPPING. -/
def State.forceStop (s : State) : State :=
  if s.phase ≠ .running || s.service.bootHalt || 3 ≤ s.svcMode then s
  else
    let s := (s.setMode 3).raise Rg.SVC_IRQ_FORCE_STOP
    let s := s.modSvc fun v => { v with quiesceAt := none }
    let s := allParts.foldl (fun s p => if s.defined p then s.raise (Rg.FLT_PART_HELD p) else s) s
    allParts.foldl (fun s p => if s.defined p && s.pstate p != 0 then s.jobFault p stAborted else s) s

/-- Every partition is IDLE: the force stop completes (R547). -/
def State.stopDone (s : State) : State :=
  if s.svcMode = 3 && allParts.all (fun p => !s.defined p || s.pstate p == 0) then
    ((s.portsDown).setMode 4).raise Rg.SVC_IRQ_SAFE
  else s

/-! ### The key (R545) -/

/-- Recovery mode: a touch of 2 s or more sets MODE SAFE (R545). -/
def State.recoverySafe (s : State) : State :=
  if s.svcMode = 2 then s else (s.enterSafe).modSvc fun v => { v with bootHalt := true }

/-- A touch that lasts 2 s or more asks for a quiesce; in recovery mode it sets SAFE (R545). -/
def State.keyQuiesce (s : State) : State :=
  if s.on Rg.SVC_CFG_LOCK_KEY then s
  else if s.on Rg.SEC_BOOT_STATUS_MODE then s.recoverySafe else s.quiesce

/-- A touch of 10 s (R545). -/
def State.keyForce (s : State) : State :=
  if s.on Rg.SEC_BOOT_STATUS_MODE then s.recoverySafe else s.forceStop

/-- An identify touch (R545, R546): while QUIESCING it ends the quiesce, otherwise it toggles IDENTIFY. -/
def State.keyIdentify (s : State) : State :=
  if s.on Rg.SVC_CFG_LOCK_KEY then s
  else if s.svcMode = 1 then s.resume
  else (s.setF Rg.SVC_STATE_IDENTIFY (1 - s.fd Rg.SVC_STATE_IDENTIFY)).raise Rg.SVC_IRQ_IDENTIFY

/-- The duration of the touch is noted (R555). -/
def State.noteHold (s : State) (t : Nat) : State := s.setF Rg.SVC_STATE_HOLD_100MS (min ((s.now - t) / 100000000) 65535)

/-- KEY_TOUCH's effect. -/
def State.touch (s : State) : State :=
  if s.phase ≠ .running || s.service.touch.isSome then s
  else ((s.modSvc fun v => { v with touch := some s.now, lit := 0, forced := false }).raise Rg.SVC_STATE_KEY_HELD).setF
    Rg.SVC_STATE_HOLD_100MS 0

/-- KEY_TOUCH (R545): a touch on the attention key begins, and the hold timing starts. -/
def execKeyTouch (s : State) : Host.Outcome State Fault Refusal := .next s.touch

/-- KEY_HOLD_SEGMENT's effect: segment `i` lights once 1.25 × (i + 1) s of the hold have passed. -/
def State.holdSegment (s : State) (i : Nat) : State := match s.service.touch with
  | none => s
  | some t =>
    if 8 ≤ i then s
    else
      let s := (s.passTo (1250000000 * (i + 1) + t)).noteHold t
      s.modSvc fun v => { v with lit := max v.lit (i + 1) }

/-- KEY_HOLD_SEGMENT (R545): segment i of the light bar lights white after 1.25 × (i + 1) s of hold. -/
def execKeyHoldSegment (i : Nat) (s : State) : Host.Outcome State Fault Refusal := .next (s.holdSegment i)

/-- KEY_FORCE_STOP_HOLD's effect: at 10 s of hold the force stop acts, once. -/
def State.holdForce (s : State) : State := match s.service.touch with
  | none => s
  | some t =>
    if s.service.forced then s
    else
      let s := (s.passTo (10000000000 + t)).noteHold t
      (s.modSvc fun v => { v with forced := true }).keyForce

/-- KEY_FORCE_STOP_HOLD (R545): at 10 s of hold, while the key is still held, a force stop acts. -/
def execKeyForceStopHold (s : State) : Host.Outcome State Fault Refusal := .next s.holdForce

/-- KEY_RELEASE's effect, by the touch's duration. -/
def State.keyUp (s : State) : State := match s.service.touch with
  | none => s
  | some t =>
    let ms := (s.now - t) / 1000000
    let s := if 10000 ≤ ms then s.holdForce else s
    let forced := s.service.forced
    let s := ((s.noteHold t).setF Rg.SVC_STATE_KEY_HELD 0).modSvc fun v => { v with touch := none, lit := 0, forced := false }
    if forced || ms < 50 then s
    else if ms < 2000 then s.keyIdentify
    else s.keyQuiesce

/-- KEY_RELEASE (R545): on release, the touch's duration toggles IDENTIFY, requests a quiesce, ends a quiesce or is ignored. -/
def execKeyRelease (s : State) : Host.Outcome State Fault Refusal := .next s.keyUp

/-! ### SVC commands and events -/

/-- SVC_QUIESCE (R546): SVC_CMD QUIESCE halts every partition, sets HELD and waits for the partitions to settle. -/
def execSvcQuiesce (s : State) : Host.Outcome State Fault Refusal := .next s.quiesce

/-- SVC_RESUME (R546): SVC_CMD RESUME ends a quiesce or stop. -/
def execSvcResume (s : State) : Host.Outcome State Fault Refusal := .next s.resume

/-- SVC_FORCE_STOP (R547): SVC_CMD FORCE_STOP sets HELD and raises a job fault on every partition that is not IDLE. -/
def execSvcForceStop (s : State) : Host.Outcome State Fault Refusal := .next s.forceStop

/-- QUIESCE_SETTLED (R546): every partition settled or IDLE; the ports go DOWN and MODE becomes SAFE. -/
def execQuiesceSettled (s : State) : Host.Outcome State Fault Refusal := .next s.quiesceDone

/-- QUIESCE_TIMEOUT (R546): QUIESCE_S pass, and each partition not settled takes a job fault. -/
def execQuiesceTimeout (s : State) : Host.Outcome State Fault Refusal := .next s.quiesceExpire

/-- FORCE_STOP_COMPLETE (R547): every partition IDLE after a force stop; the ports go DOWN and MODE becomes STOPPED. -/
def execForceStopComplete (s : State) : Host.Outcome State Fault Refusal := .next s.stopDone

/-- FAULT_PATTERN_EXPIRY (R548): 10 s after a partition's job fault, the FAULT pattern stops showing it. -/
def execFaultPatternExpiry (p : Nat) (s : State) : Host.Outcome State Fault Refusal :=
  .next (match (s.part p).faultAt with
    | some t => (s.passTo (10000000000 + t)).modPart p fun q => { q with faultAt := none }
    | none => s)

/-- A presence change is shown (R549). -/
def State.presence (s : State) (i : Nat) (here : Bool) : State :=
  if s.phase ≠ .running then s
  else if i < s.var.ports then
    let bits := s.fd Rg.SVC_PRESENCE_CAGE
    if bits.testBit i == here then s
    else
      let s := (s.setF Rg.SVC_PRESENCE_CAGE (if here then bits + 2 ^ i else bits - 2 ^ i)).setF Rg.SVC_PRESENCE_CAGE_CHG
        (s.fd Rg.SVC_PRESENCE_CAGE_CHG ||| 2 ^ i)
      let s := (s.raise Rg.SVC_IRQ_PRESENCE).setF (Rg.CCH_PORT_STATUS_PRESENT i) (b2n here)
      if here then s else (s.portDown i).setF (Rg.CCH_PORT_STATUS_MEDIA i) 0
  else if i = 8 then
    if s.on Rg.SVC_PRESENCE_LARRIC == here then s
    else
      let s := ((s.setF Rg.SVC_PRESENCE_LARRIC (b2n here)).raise Rg.SVC_PRESENCE_LARRIC_CHG).raise Rg.SVC_IRQ_PRESENCE
      if !here && 4 ≤ s.lrlState then s.linkLoss else s
  else s

/-- PRESENCE_CHANGE (R549): a cage or Larric presence change sets its CHG bit and SVC_IRQ.PRESENCE. -/
def execPresenceChange (i : Nat) (present : Bool) (s : State) : Host.Outcome State Fault Refusal := .next (s.presence i present)

end Sys2Proof.Machine
end

