-- ==== Sys2Proof/Machine/Mgmt.lean ====
section
/-!
DEFINITION. The management endpoint: MCTP control, PLDM, sensors, effecters, FRU (18_module.md R566 to R572). A reply is a
completion code and the content the spec gives; the published frame formats are not part of the spec.
-/
namespace Sys2Proof.Machine

/-- Full service: Innkeeper runs (R567). -/
def State.mgmtFull (s : State) : Bool := s.phase == .running && s.bundle.isSome

/-- Some service: Innkeeper, or the boot ROM in recovery mode (R567). -/
def State.mgmtAny (s : State) : Bool := s.phase == .running && (s.bundle.isSome || s.inRecovery)

/-- Change the endpoint's state. -/
def State.modMgmt (s : State) (f : MgmtSt → MgmtSt) : State := { s with mgmt := f s.mgmt }

/-- The module replies: completion code and data. -/
def State.answer (s : State) (code : Nat) (data : Bytes) : State := s.modMgmt fun m => { m with reply := toLe 1 code ++ data }

/-- Serve a command that recovery mode serves too; where nothing serves, nothing acknowledges (R565, R567). -/
def State.mgmtCmd (s : State) (act : State → State) : State := if s.mgmtAny then act s else s

/-- Serve a command of Innkeeper's; in recovery mode it is unsupported (R567). -/
def State.mgmtFullCmd (s : State) (act : State → State) : State :=
  s.mgmtCmd fun s => if s.mgmtFull then act s else s.answer 5 []

/-- The characters of a text, one byte each. -/
def ascii (t : String) : Bytes := t.toList.map fun c => BitVec.ofNat 8 c.toNat

/-! ### MCTP control (R568) -/

/-- SET_ENDPOINT_ID (R568): operations 0 and 1 set the endpoint ID. -/
def execSetEndpointId (op eid : Nat) (s : State) : Host.Outcome State Fault Refusal :=
  .next (s.mgmtCmd fun s =>
    if op ≤ 1 && inRange eid 8 254 then (s.modMgmt fun m => { m with eid := eid }).answer 0 (toLe 1 eid) else s.answer 2 [])

/-- GET_ENDPOINT_ID (R568): the endpoint ID. -/
def execGetEndpointId (s : State) : Host.Outcome State Fault Refusal :=
  .next (s.mgmtCmd fun s => s.answer 0 (toLe 1 s.mgmt.eid))

/-- GET_ENDPOINT_UUID (R568): a UUID derived from DEV_SERIAL. -/
def execGetEndpointUuid (s : State) : Host.Outcome State Fault Refusal :=
  .next (s.mgmtCmd fun s => s.answer 0 (toLe 16 (Config.uuidOf (s.rd Rg.DEV_SERIAL).toNat)))

/-- GET_MCTP_VERSION_SUPPORT (R568): the version supported. -/
def execGetMctpVersionSupport (s : State) : Host.Outcome State Fault Refusal :=
  .next (s.mgmtCmd fun s => s.answer 0 (toLe 4 (Config.mgmtVersion 256)))

/-- GET_MESSAGE_TYPE_SUPPORT (R568): types 0x00 and 0x01. -/
def execGetMessageTypeSupport (s : State) : Host.Outcome State Fault Refusal :=
  .next (s.mgmtCmd fun s => s.answer 0 [2, 0, 1])

/-- I3C_DYNAMIC_ADDRESS (R566): SETDASA or ENTDAA assigns the module's I3C dynamic address, in I3C mode. -/
def execI3cDynamicAddress (addr : Nat) (s : State) : Host.Outcome State Fault Refusal :=
  .next (s.mgmtCmd fun s => if s.pins.i3cMode then s.modMgmt fun m => { m with i3cAddr := addr % 128 } else s)

/-! ### PLDM messaging control (R569) -/

/-- The supported PLDM types (R569). -/
def pldmTypes : List Nat := [0, 2, 4]

/-- The supported command codes of a PLDM type (R569). -/
def pldmCommands (type : Nat) : List Nat := match type with
  | 0 => [1, 2, 3, 4, 5]
  | 2 => [0x04, 0x0A, 0x11, 0x21, 0x31, 0x32, 0x39, 0x50, 0x51]
  | 4 => [1, 2]
  | _ => []

/-- A bitmap of `n` bytes with the bits of a list. -/
def bitmap (n : Nat) (l : List Nat) : Bytes := toLe n (l.foldl (fun a i => a ||| 2 ^ i) 0)

/-- GETTID (R569): the terminus ID. -/
def execGetTid (s : State) : Host.Outcome State Fault Refusal := .next (s.mgmtCmd fun s => s.answer 0 (toLe 1 s.mgmt.tid))

/-- SETTID (R569): sets the terminus ID. -/
def execSetTid (tid : Nat) (s : State) : Host.Outcome State Fault Refusal :=
  .next (s.mgmtCmd fun s =>
    if inRange tid 1 254 then (s.modMgmt fun m => { m with tid := tid }).answer 0 [] else s.answer 2 [])

/-- GETPLDMVERSION (R569): a supported type's version. -/
def execGetPldmVersion (type : Nat) (s : State) : Host.Outcome State Fault Refusal :=
  .next (s.mgmtCmd fun s =>
    if pldmTypes.contains type then s.answer 0 (toLe 4 (Config.mgmtVersion type)) else s.answer 0x83 [])

/-- GETPLDMTYPES (R569): types 0, 2 and 4. -/
def execGetPldmTypes (s : State) : Host.Outcome State Fault Refusal := .next (s.mgmtCmd fun s => s.answer 0 (bitmap 8 pldmTypes))

/-- GETPLDMCOMMANDS (R569): a type's supported commands. -/
def execGetPldmCommands (type : Nat) (s : State) : Host.Outcome State Fault Refusal :=
  .next (s.mgmtCmd fun s =>
    if pldmTypes.contains type then s.answer 0 (bitmap 32 (pldmCommands type)) else s.answer 0x83 [])

/-! ### Platform monitoring and control (R570, R571) -/

/-- The numeric sensors of the repository (R570). -/
def numSensors : List Nat := [1, 2, 3, 4, 10, 11, 12, 13, 14, 15, 16, 17, 18, 19, 20, 21]

/-- The repository: sensor or effecter number and kind, 0 numeric sensor, 1 state sensor, 2 numeric effecter, 3 state effecter
(R570). -/
def pdrs : List (Nat × Nat) := numSensors.map (·, 0) ++ [(30, 1), (40, 2), (41, 3)]

/-- The value of a numeric sensor's source (R570). -/
def State.sensorNow (s : State) (id : Nat) : Nat :=
  if id = 1 then s.fd Rg.PWR_STATUS_INPUT_MV
  else if id = 2 then s.fd Rg.PWR_STATUS_INPUT_W
  else if id = 3 then s.fd Rg.PWR_THERM_MAX_C
  else if id = 4 then s.fd Rg.PWR_ENERGY_ENERGY_MJ / 1000 % 2 ^ 32
  else if id < 16 then s.fd (Rg.PWR_THR_CNT_EVENTS (id - 10)) % 2 ^ 32
  else s.throttleUs (id - 16) / 1000 % 2 ^ 32

/-- A crossing of a threshold of sensor 3 is told to the event receiver (R570, R571). -/
def State.senseTemp (s : State) : State :=
  let c := find (fun _ => 0) s.mgmt.sensors 3
  let lvl := if 108 ≤ c then 2 else if s.fd Rg.PWR_THERM_LIMIT_C ≤ c then 1 else 0
  if lvl = s.mgmt.overTemp then s else (s.modMgmt fun m => { m with overTemp := lvl }).event 3 lvl

/-- SENSOR_UPDATE's effect. -/
def State.sensorUpdate (s : State) : State :=
  if s.mgmtFull then
    (s.modMgmt fun m => { m with sensors := numSensors.foldl (fun t id => ins t id (s.sensorNow id)) m.sensors }).senseTemp
  else s

/-- SENSOR_UPDATE (R570): every 100 ms the numeric sensors are updated. -/
def execSensorUpdate (s : State) : Host.Outcome State Fault Refusal := .next s.sensorUpdate

/-- GETPDRREPOSITORYINFO (R569): the number of records. -/
def execGetPdrRepositoryInfo (s : State) : Host.Outcome State Fault Refusal :=
  .next (s.mgmtFullCmd fun s => s.answer 0 (toLe 4 pdrs.length))

/-- GETPDR (R570): the record of a sensor or effecter, named by its number: kind, and for sensor 3 its thresholds. -/
def execGetPdr (handle : Nat) (s : State) : Host.Outcome State Fault Refusal :=
  .next (s.mgmtFullCmd fun s => match pdrs.find? fun x => x.1 == handle with
    | some x => s.answer 0 (toLe 2 x.1 ++ toLe 1 x.2 ++
        (if handle = 3 then toLe 2 (s.fd Rg.PWR_THERM_LIMIT_C) ++ toLe 2 108 else []))
    | none => s.answer 0x82 [])

/-- GETSENSORREADING (R570): a numeric sensor's value at its last update. -/
def execGetSensorReading (id : Nat) (s : State) : Host.Outcome State Fault Refusal :=
  .next (s.mgmtFullCmd fun s =>
    if numSensors.contains id then s.answer 0 (toLe 4 (find (fun _ => 0) s.mgmt.sensors id)) else s.answer 0x80 [])

/-- GETSTATESENSORREADINGS (R570): the state of sensor 30. -/
def execGetStateSensorReadings (id : Nat) (s : State) : Host.Outcome State Fault Refusal :=
  .next (s.mgmtCmd fun s => if id = 30 then s.answer 0 (toLe 1 s.sensor30) else s.answer 0x80 [])

/-- GETNUMERICEFFECTERVALUE (R570): the power cap. -/
def execGetNumericEffecterValue (id : Nat) (s : State) : Host.Outcome State Fault Refusal :=
  .next (s.mgmtFullCmd fun s => if id = 40 then s.answer 0 (toLe 2 (s.fd Rg.PWR_CAP_SET_CAP_W)) else s.answer 0x80 [])

/-- SETNUMERICEFFECTERVALUE (R570, R571): writes the power cap, or returns ERROR_INVALID_DATA and sets REJECT. -/
def execSetNumericEffecterValue (id v : Nat) (s : State) : Host.Outcome State Fault Refusal :=
  .next (s.mgmtFullCmd fun s =>
    if id ≠ 40 then s.answer 0x80 []
    else if inRange v s.var.capMin s.var.limitW then (s.setF Rg.PWR_CAP_SET_CAP_W v).answer 0 []
    else (s.raise Rg.PWR_CAP_SET_REJECT).answer 2 [])

/-- SETSTATEEFFECTERSTATES (R571): IDENTIFY becomes the value written. -/
def execSetStateEffecterStates (id v : Nat) (s : State) : Host.Outcome State Fault Refusal :=
  .next (s.mgmtFullCmd fun s =>
    if id ≠ 41 then s.answer 0x80 []
    else if v < 2 then (s.setF Rg.SVC_STATE_IDENTIFY v).answer 0 [] else s.answer 2 [])

/-- SETEVENTRECEIVER (R571): where platform events go. -/
def execSetEventReceiver (enable : Bool) (addr : Nat) (s : State) : Host.Outcome State Fault Refusal :=
  .next (s.mgmtFullCmd fun s =>
    (s.modMgmt fun m => { m with receiver := if enable then some (addr % 256) else none }).answer 0 [])

/-! ### FRU (R572) -/

/-- A number in `n` hexadecimal digits, highest first. -/
def hexText (n x : Nat) : Bytes := ((List.range n).map fun i =>
  let d := x / 16 ^ i % 16
  BitVec.ofNat 8 (if d < 10 then 48 + d else 55 + d)).reverse

/-- The fields of the FRU record, each with its number: manufacturer, product name, part number, serial number, version (R572). -/
def State.fruFields (s : State) : List Bytes :=
  let v := match s.var with
    | .p9 => "P9"
    | .p6 => "P6"
    | .p3 => "P3"
  [ascii "Swewyn Devices", ascii ("Roruhorn " ++ v), ascii ("SWV-" ++ v ++ "-L"), hexText 16 s.fuses.serial, hexText 2 s.fuses.stepping]

/-- The record: each field as its length and its characters. -/
def State.fruRecord (s : State) : Bytes := s.fruFields.flatMap fun f => toLe 1 f.length ++ f

/-- GETFRURECORDTABLEMETADATA (R572): the number of records and the table's length. -/
def execGetFruRecordTableMetadata (s : State) : Host.Outcome State Fault Refusal :=
  .next (s.mgmtCmd fun s => s.answer 0 (toLe 2 1 ++ toLe 4 s.fruRecord.length))

/-- GETFRURECORDTABLE (R572): the FRU record. -/
def execGetFruRecordTable (s : State) : Host.Outcome State Fault Refusal := .next (s.mgmtCmd fun s => s.answer 0 s.fruRecord)

end Sys2Proof.Machine
end

