-- ==== Sys2Proof/Machine/RegAccess.lean ====
section
/-!
DEFINITION. Register access: by the host over Larric (14_larric_link.md R472 to R474, R480), by Innkeeper, and by partition
runtimes (01_architecture.md R33 to R36; 15_boot_security.md R504); what each register reads and what a write to it does
(00_scope.md R11).
-/
namespace Sys2Proof.Machine

/-! ### Which registers are there (01 R33, R34) -/

/-- Start of the model's place for control cores' interrupt pages (15 R503, R504; assumption 90). -/
def cciBase : Nat := 0x400_0000

/-- The partition window that holds offset `a`: partition and offset in it (R33). -/
def windowOf (a : Nat) : Option (Nat × Nat) :=
  if 0x10_0000 ≤ a && a < 0xD0_0000 then some ((a - 0x10_0000) / 0x10_0000, (a - 0x10_0000) % 0x10_0000) else none

/-- The channel port block, as its number and the offset in it, of an offset of a partition's CHN sub-window (11 R371). -/
def portBlock (rel : Nat) : Option (Nat × Nat) :=
  if 0x1000 ≤ rel && rel < 0x1880 then some ((rel - 0x1000) / 0x40, (rel - 0x1000) % 0x40) else none

/-- The channel port block of an offset of a partition window. -/
def windowPort (rel : Nat) : Option (Nat × Nat) := if rel / 0x4_0000 = 2 then portBlock (rel % 0x4_0000) else none

/-- Whether offset `rel` of a CORE window belongs to an array that variant `v` has not: its registers read as zero (R34; 04 R144, R146,
R147). -/
def absentArray (v : Variant) (rel : Nat) : Bool :=
  (0x400 ≤ rel && rel < 0x420 || 0x440 ≤ rel && rel < 0x480) && v.arrays ≤ rel / 8 % 4

/-- Whether offset `a` lies in a window that the variant or the fuse map makes absent (R33). -/
def State.absent (s : State) (a : Nat) : Bool :=
  match windowOf a with
  | some (p, rel) => s.var.parts ≤ p || (match windowPort rel with
      | some (n, o) => n == 33 && o < 0x10
      | none => false)
  | none =>
    if 0x8_0000 ≤ a && a < 0x9_0000 then s.var.ports ≤ (a - 0x8_0000) / 0x2000
    else if 0xA_0000 ≤ a && a < 0xE_0000 then s.var.channels ≤ (a - 0xA_0000) / 0x1000
    else if 0x100_0000 ≤ a && a < 0x111_0000 then
      !s.enabled.contains ((a - 0x100_0000) / 0x1000 / 17) || absentArray s.var (a % 0x1000)
    else if 0x200_0000 ≤ a && a < 0x204_0000 then
      !s.enabled.contains ((a - 0x200_0000) / 0x4000) || (!s.var.skimmer && 0x2000 ≤ (a - 0x200_0000) % 0x4000)
    else cciBase + 0x2_0000 ≤ a

/-! ### What a register reads (R11) -/

/-- Fields to lay over a register: place, width, value. -/
abbrev Over := List (Nat × Nat × Nat)

/-- A field as an overlay. -/
def RF.at_ (f : RF) (v : Nat) : Nat × Nat × Nat := (f.lo, f.w, v)

/-- Lay fields over a word. -/
def lay (x : W64) (o : Over) : W64 := o.foldl (fun x f => setBits x f.1 f.2.1 f.2.2) x

/-- Fields of the DEV, PWR, FLT, SVC and LRL blocks that the device shows as they stand. -/
def State.overSys (s : State) (a : Nat) : Over :=
  if a = Rg.DEV_TIME then [Rg.DEV_TIME_NS.at_ s.time.dev]
  else if a = Rg.FLT_LOG_STATUS then [Rg.FLT_LOG_STATUS_COUNT.at_ s.fltLog.length]
  else if a = Rg.FLT_LOG_HEAD0 then [(0, 64, (s.fltLog.head?.map FltEntry.h0).getD 0)]
  else if a = Rg.FLT_LOG_HEAD1 then [(0, 64, (s.fltLog.head?.map FltEntry.h1).getD 0)]
  else if a = Rg.SVC_LBAR then [Rg.SVC_LBAR_PATTERN.at_ s.pattern]
  else if a = Rg.SVC_STATE then match s.service.touch with
    | some t => [Rg.SVC_STATE_HOLD_100MS.at_ (min ((s.now - t) / 100000000) 65535)]
    | none => []
  else if a = Rg.LRL_IRQ_PEND then [Rg.LRL_IRQ_PEND_PEND.at_ s.irqPend]
  else if 0x1_0100 ≤ a && a < 0x1_01C0 && (a - 0x1_0100) % 16 = 0 then
    let p := (a - 0x1_0100) / 16
    [(Rg.PWR_PART_GRANT_CORES_ON p).at_ (s.onCores p).length]
  else if 0x1_0208 ≤ a && a < 0x1_0268 && (a - 0x1_0208) % 16 = 0 then [(0, 64, s.throttleUs ((a - 0x1_0208) / 16))]
  else []

/-- Fields of the CCH and MEM blocks that the device shows as they stand (13 R457 to R459; 09 R309 to R313). -/
def State.overBus (s : State) (a : Nat) : Over :=
  if a = Rg.CCH_ROUTE_DATA then [(0, 40, s.route (s.fd Rg.CCH_ROUTE_SEL_DEVICE))]
  else if a = Rg.CCH_FLOWS then [Rg.CCH_FLOWS_OPEN.at_ s.flowsOpen]
  else if a = Rg.CCH_EXPORT then [Rg.CCH_EXPORT_ACTIVE.at_ s.coach.exports.length]
  else if 0x8_1120 ≤ a && a < 0x8_1420 && (a - 0x8_1120) % 0x40 = 0 then
    let p := (a - 0x8_1120) / 0x40
    let c := s.fd (Rg.CCH_CTR_SEL_COUNTER p)
    [(Rg.CCH_CTR_VAL_VALUE p).at_ (s.trigger p c), (Rg.CCH_CTR_VAL_WAITER p).at_ (b2n (s.coach.waiters.any fun w => w.1 == 256 * p + c))]
  else if a = Rg.MEM_SCRUB_STATUS then
    [Rg.MEM_SCRUB_STATUS_PROGRESS.at_ (s.ecc.scrubNext * 1000 / s.allLines), Rg.MEM_SCRUB_STATUS_BEHIND.at_ (b2n s.scrubBehind)]
  else if a = Rg.MEM_LOG_STATUS then [Rg.MEM_LOG_STATUS_COUNT.at_ s.memLog.length]
  else if a = Rg.MEM_LOG_HEAD0 then [(0, 64, (s.memLog.head?.map MemEntry.h0).getD 0)]
  else if 0xE_0100 ≤ a && a < 0xE_0160 then
    let p := (a - 0xE_0100) / 8
    if s.defined p then
      let w := s.bwOf p
      [(0, 4, w.getD 0 0), (4, 4, w.getD 1 0), (8, 4, w.getD 2 0), (32, 32, s.patternOf p)]
    else []
  else if 0xA_0000 ≤ a && a < 0xE_0000 && a % 0x1000 = 0 then
    let n := (a - 0xA_0000) / 0x1000
    [(Rg.MEM_CH_STATUS_WQ_LEVEL n).at_ (min (s.memCtl n).writes 64), (Rg.MEM_CH_STATUS_RQ_LEVEL n).at_ (min (s.memCtl n).reads 64)]
  else []

/-- A bitmap over the graphs of a partition that `f` accepts. -/
def State.graphBits (s : State) (p : Nat) (f : Graph → Bool) : Nat :=
  (s.part p).graphs.foldl (fun x e => if f e.2 then x ||| 2 ^ e.1 else x) 0

/-- Fields of partition `p`'s DSP registers that the device shows as they stand (10 R344 to R346). -/
def State.overDsp (s : State) (p rel : Nat) : Over :=
  let gs := (s.part p).graphs
  if rel = 0 then [(Rg.DSP_CTRL_HALTED p).at_ (b2n (s.on (Rg.DSP_CTRL_HALT p) && !s.anyRunning p))]
  else if rel = 0x8 then
    [(Rg.DSP_STATUS_RESIDENT p).at_ (gs.foldl (fun n e => n + e.2.cost) 0),
     (Rg.DSP_STATUS_READY p).at_ (((s.cands p).map fun c => (c.tag, c.node)).eraseDups.length), (Rg.DSP_STATUS_INFLIGHT p).at_ (s.inflight p)]
  else if rel = 0x10 then
    [(Rg.DSP_GRAPHS_VALID p).at_ (s.graphBits p fun _ => true), (Rg.DSP_GRAPHS_RUNNING p).at_ (s.graphBits p Graph.running),
     (Rg.DSP_GRAPHS_UNLOADING p).at_ (s.graphBits p fun g => g.unloadAt.isSome), (Rg.DSP_GRAPHS_BROKEN p).at_ (s.graphBits p Graph.broken)]
  else if rel = 0x18 then
    [(Rg.DSP_POOL_PREFILL p).at_ (s.poolCores p 0).length, (Rg.DSP_POOL_STEP p).at_ (s.poolCores p 1).length]
  else if 0x100 ≤ rel && rel < 0x180 then
    let g := (rel - 0x100) / 8
    match s.graph? p g with
    | some x => match x.run with
      | some r => [(Rg.DSP_STEP_STEP p g).at_ r.step, (Rg.DSP_STEP_ROWS p g).at_ r.rows, (Rg.DSP_STEP_RUNNING p g).at_ (b2n x.running)]
      | none => []
    | none => []
  else []

/-- Entries of partition `p` in a ledger state, of one queue or of all. -/
def State.entCount (s : State) (p st : Nat) (q : Option Nat) : Nat :=
  ((s.entsOf p).filter fun e => e.2.state == st && (match q with | some k => e.2.queue == k | none => true)).length

/-- Fields of partition `p`'s LDG registers that the device shows as they stand (12 R408 to R413; 08 R285). -/
def State.overLdg (s : State) (p rel : Nat) : Over :=
  let n := (s.part p).ledN
  if rel = 0 then [(Rg.LDG_CTRL_PRESSURE p).at_ (b2n (s.live p && s.pressure p))]
  else if rel = 0x8 then
    [(Rg.LDG_STATUS_BOUND p).at_ n, (Rg.LDG_STATUS_FREE p).at_ (n - ((s.entsOf p).filter fun e => e.2.state != 0).length),
     (Rg.LDG_STATUS_RUNNING p).at_ (s.entCount p 3 none)]
  else if 0x100 ≤ rel && rel < 0x300 then
    let q := (rel - 0x100) / 8
    [(Rg.LDG_QUEUE_QUEUED p q).at_ (s.entCount p 2 (some q)), (Rg.LDG_QUEUE_ADMITTED p q).at_ (s.entCount p 1 (some q))]
  else if rel = 0x3_F000 then [(Rg.LDG_PAGE_POOL_BOUND p).at_ (s.part p).pageN, (Rg.LDG_PAGE_POOL_FREE p).at_ (s.poolFree p)]
  else if rel = 0x3_F008 then
    [(Rg.LDG_PAGE_USE_HELD p).at_ (s.pagesIn p fun st => 1 ≤ st && st ≤ 3), (Rg.LDG_PAGE_USE_RECLAIM p).at_ (s.pagesIn p fun st => st == 4)]
  else []

/-- The endpoint that CHN_EP_SEL names, if it is partition `p`'s (11 R373). -/
def State.selEp (s : State) (p : Nat) : Option Endpoint :=
  (find? s.endpoints (s.fd (Rg.CHN_EP_SEL_HANDLE p))).filter fun e => e.part == p

/-- Fields of partition `p`'s CHN registers that the device shows as they stand (11 R371 to R373). -/
def State.overChn (s : State) (p rel : Nat) : Over :=
  match portBlock rel with
  | some (n, o) =>
    let q := s.sender p n
    if o = 0x10 then [(0, 4, q.queue.length), (4, 1, b2n ((q.queue.head?.map fun x => x.wait.isSome).getD false))] else []
  | none =>
    if 0x2000 ≤ rel && rel < 0x2800 then
      if (rel - 0x2000) % 0x20 = 0 then [(16, 5, (s.members p ((rel - 0x2000) / 0x20)).length)] else []
    else if rel = 0x3008 then match s.selEp p with
      | some e =>
        let sp := ((s.part p).ports.map fun x => (x.2.spill.filter fun m => m.ep == s.fd (Rg.CHN_EP_SEL_HANDLE p) && !m.released).length)
        [(0, 2, if e.closing then 2 else 1), (8, 8, if e.group < 64 then e.group else 0xFF), (16, 16, e.msgs.length),
         (32, 16, sp.foldl (· + ·) 0)]
      | none => []
    else if rel = 0x3010 then match s.selEp p with
      | some e => [(0, 32, e.tail), (32, 32, e.head)]
      | none => [(0, 64, 0)]
    else if rel = 0x3028 then match (find? s.churns (s.fd (Rg.CHN_CHURN_SEL_QUEUE p))).filter fun c => c.part == p with
      | some c => [(0, 1, 1), (1, 1, b2n c.notice.isSome), (3, 13, c.received), (16, 32, c.round)]
      | none => []
    else []

/-- Fields of partition `p`'s ADP registers that the device shows as they stand (12 R416). -/
def State.overAdp (s : State) (p rel : Nat) : Over :=
  let x := find (fun _ => AdSlot.init) (s.part p).adapters (s.fd (Rg.ADP_SLOT_SEL_SLOT p))
  if rel = 0x28 then match x.customer with
    | some c => [(0, 1, 1), (16, 16, c), (32, 16, x.cur)]
    | none => [(32, 16, x.cur)]
  else if rel = 0x30 then [(0, 32, find (fun _ => 0) x.counts x.cur), (32, 32, find (fun _ => 0) x.counts x.prev)]
  else []

/-- Fields of a CORE window that the device shows as they stand (05 R179, R180; 04 R145). -/
def State.overCore (s : State) (a : Nat) : Over :=
  let c := (a - 0x100_0000) / 0x1000
  let rel := (a - 0x100_0000) % 0x1000
  let slot (k : Nat) : Option (Task × TaskPart) := match s.logCore c with
    | some l => s.inSlot l k
    | none => none
  if rel = 0 then
    [(0, 3, (s.core c).power), (3, 1, b2n (slot 2).isSome), (4, 1, b2n (slot 1).isSome), (5, 1, b2n (slot 3).isSome),
     (6, 4, ((slot 2).map fun x => x.1.part).getD 0)]
  else if 0x8 ≤ rel && rel < 0x20 then
    let k := match rel with
      | 0x8 => 2
      | 0x10 => 1
      | _ => 3
    match slot k with
    | some x => [(0, 32, seqTag x.1.step x.1.tag x.1.node), (32, 4, x.1.part), (39, 1, 1)]
    | none => []
  else if rel = 0x420 then
    (if (slot 2).isSome then [] else [(0, 9, 0)]) ++
      (List.range s.var.arrays).map fun a => (9 + 3 * a, 3, (s.array c a).on s.now)
  else []

/-- Fields of a CLU window that the device shows as they stand (06 R213; 08 R281). -/
def State.overClu (s : State) (a : Nat) : Over :=
  let k := (a - 0x200_0000) / 0x4000
  let rel := (a - 0x200_0000) % 0x4000
  if rel = 0x1000 then
    let n := (s.walks.filter fun w => s.clusterOf w.core == k).length
    let pools := (allParts.filter fun p => s.defined p && s.poolCluster p == k).foldl (fun x p => x + 2 ^ p) 0
    [(0, 1, b2n (n != 0)), (8, 8, n), (16, 12, pools)]
  else if rel = 0x2000 then
    let q := (s.cluster k).skimQ
    let cs := (q.map TileReq.core).eraseDups.length
    [(1, 1, b2n (s.on (Rg.CLU_SKM_CTRL_DISABLE k) && !(s.skimWork k).isEmpty)), (8, 5, cs)]
  else []

/-- CCI_PEND of logical control core `n` (15 R504). -/
def State.cciPend (s : State) (n : Nat) : Nat := match s.ctlOwner n with
  | none => 0
  | some p =>
    let d := (s.rd (Rg.DSP_IRQ p)).toNat
    let cb := s.tasks.any fun t => t.part == p && t.kind == 8 && (match s.graph? p t.tag with
      | some g => s.cbTarget p (g.desc t.node) == n
      | none => false)
    let irqCore := s.fd (Rg.LDG_CFG_IRQ_CORE p) == n
    let chn := (List.range 64).any fun g => bitOf (s.rd (Rg.CHN_IRQ_GROUP p)).toNat g && s.fd (Rg.CHN_SEL_CFG_OWNER p g) == n &&
      s.on (Rg.CHN_SEL_CFG_IRQ_EN p g)
    b2n (s.on (Rg.DSP_IRQ_CALLBACK p) && cb) + 2 * b2n ((d &&& 0x1D) != 0 && (s.ctlOf p).head? == some n) +
      4 * b2n ((s.rd (Rg.LDG_IRQ p)) != 0 && !s.on (Rg.LDG_CFG_IRQ_HOST p) && irqCore) +
      8 * b2n (s.on (Rg.LDG_PAGE_LOW_LOW p) && irqCore) + 16 * b2n chn

/-- The fields shown as they stand of the register at offset `a`. -/
def State.ovr (s : State) (a : Nat) : Over :=
  match windowOf a with
  | some (p, rel) =>
    if rel < 0x4_0000 then s.overDsp p rel
    else if rel < 0x8_0000 then s.overLdg p (rel - 0x4_0000)
    else if rel < 0xC_0000 then s.overChn p (rel - 0x8_0000)
    else s.overAdp p (rel - 0xC_0000)
  | none =>
    if a < 0x8_0000 then s.overSys a
    else if a < 0x10_0000 then s.overBus a
    else if a < 0x200_0000 then s.overCore a
    else if a < 0x204_0000 then s.overClu a
    else if cciBase ≤ a && (a - cciBase) % 0x1000 = 0 then [(0, 5, s.cciPend ((a - cciBase) / 0x1000))]
    else []

/-- The fields of a register that count or show clock cycles, as places and widths: the model has no cycles (assumption 91). -/
def cycleFields (a : Nat) : List (Nat × Nat) :=
  match windowOf a with
  | some (_, rel) => if rel = 0x208 then [(0, 32), (32, 32)] else if rel = 0x8_3108 then [(0, 32)] else []
  | none =>
    if 0x8_0000 ≤ a && a < 0x9_0000 then (if (a - 0x8_0000) % 0x2000 = 0x10 then [(0, 32), (32, 32)] else [])
    else if 0x100_0000 ≤ a && a < 0x111_0000 then
      let rel := a % 0x1000
      if 0x8 ≤ rel && rel < 0x20 then [(36, 3)]
      else if 0x240 ≤ rel && rel < 0x270 then [(0, 32), (32, 32)]
      else if rel = 0x300 || rel = 0x308 || rel = 0x328 || (0x440 ≤ rel && rel < 0x460) then [(0, 48)]
      else if 0x460 ≤ rel && rel < 0x480 then [(0, 32), (32, 32)]
      else if rel = 0x488 then [(32, 32)] else []
    else []

/-- Whether the cycle counts of register `rel` of physical core `c`'s window may be advancing: those of the links and walks while a task
is in a slot, those of the vector unit while one executes or drains, those of the arrays while it is a GEMM or ATTN task; the stage shown
is one of the slot's task's list (05 R180, R185 to R187; 04 R146, R147). -/
def State.coreCounts (s : State) (c rel : Nat) : Bool := match s.logCore c with
  | none => false
  | some l =>
    let at_ (slot : Nat) (f : Task → Bool) : Bool := match s.inSlot l slot with
      | some (t, _) => f t
      | none => false
    let gemm (f : Gemm → Bool) (t : Task) : Bool := t.kind == 1 && (match s.graphOf t with
      | some g => f (g.gemm t.part t.node t.rows)
      | none => false)
    let works (f : Task → Bool) : Bool := at_ 2 f || at_ 3 f
    if rel < 0x20 then at_ (match rel with | 0x8 => 2 | 0x10 => 1 | _ => 3) (gemm fun q => q.stages != 0)
    else if rel = 0x300 then works fun _ => true
    else if rel = 0x308 then !s.var.affine && works (gemm fun q => q.fb.expand == 2)
    else if 0x440 ≤ rel then works fun t => t.kind == 1 || t.kind == 2
    else at_ 1 (fun _ => true) || works fun _ => true

/-- Whether the cycle counts of the register at offset `a` may be advancing as the block stands. -/
def State.countsNow (s : State) (a : Nat) : Bool := match windowOf a with
  | some (p, rel) =>
    if rel = 0x208 then !(s.cands p).isEmpty
    else (s.part p).ports.any fun x => (x.2.queue.head?.map fun y => y.wait.isSome).getD false
  | none =>
    if a < 0x9_0000 then 2 ≤ s.portState ((a - 0x8_0000) / 0x2000) && s.portState ((a - 0x8_0000) / 0x2000) ≤ 3
    else s.coreCounts ((a - 0x100_0000) / 0x1000) (a % 0x1000)

/-- The cycle counts shown at offset `a`: a field that has advanced since it was last cleared, or may be advancing, reads a free value;
another reads what it holds (assumption 91). -/
def State.cycleOver (s : State) (a : Nat) : Over :=
  let x := (s.rd a).toNat
  let now := s.countsNow a
  ((cycleFields a).filter fun f => now || bitsOf x f.1 f.2 != 0).map fun f => (f.1, f.2, Config.cycles a (s.free + f.1))

/-- The bits of a register whose fields have one of some access codes. -/
def RegRow.accMask (r : RegRow) (cs : List Acc) : W64 :=
  r.fields.foldl (fun x f => if cs.contains f.acc then x ||| maskW f.lo f.w else x) 0

/-- What the register at offset `a` shows: WO fields as zero, the fields the device shows as they stand, and cycle counts as free
values (R11). -/
def State.view (s : State) (a : Nat) : W64 := match regRow? a with
  | none => 0
  | some r =>
    let x := lay (s.rd a &&& ~~~r.accMask [.wo]) (s.ovr a)
    lay x (s.cycleOver a)

/-- Read the register at offset `a`: its value in `bus`; RC fields clear, and the reads that have an effect take it (R11; 09 R311;
11 R360; 17 R551). -/
def State.regRead (s : State) (a : Nat) : State :=
  if s.absent a then { s with bus := 0 }
  else if a = Rg.FLT_LOG_HEAD2 then s.fltLogPop
  else if a = Rg.MEM_LOG_HEAD1 then s.memLogPop
  else
    match (windowOf a).bind fun w =>
        if 0x8_2000 ≤ w.2 && w.2 < 0x8_2800 && (w.2 - 0x8_2000) % 0x20 = 8 then some (w.1, (w.2 - 0x8_2000) / 0x20) else none with
    | some (p, g) => s.selNext p g
    | none =>
      let v := s.view a
      match regRow? a with
      | none => { s with bus := 0 }
      | some r =>
        let s := if r.accMask [.rc] = 0 then s else s.wr a (s.rd a &&& ~~~r.accMask [.rc])
        let s := if (cycleFields a).isEmpty then s else { s with free := s.free + 64 }
        { s with bus := v }

/-! ### What a write does (R11) -/

/-- A write to one field by its access code: RW sets it unless the value lies outside its range, W1C clears the ones. -/
def FieldRow.write (f : FieldRow) (v x : W64) : W64 := match f.acc with
  | .rw =>
    let n := bitsOf v.toNat f.lo f.w
    let ok := match f.range with
      | some (lo, hi) => inRange n lo hi
      | none => true
    if ok then setBits x f.lo f.w n else x
  | .w1c => x &&& ~~~(v &&& maskW f.lo f.w)
  | _ => x

/-- A write that has no effect beyond the register's own fields (R11). -/
def State.plainWrite (s : State) (a : Nat) (v : W64) : State := match regRow? a with
  | none => s
  | some r => s.wr a (r.fields.foldl (fun x f => f.write v x) (s.rd a))

/-- A write to IMG_CMD (02 R73). -/
def State.imgCmdWrite (s : State) (v : W64) : State := match bitsOf v.toNat 0 4 with
  | 1 => s.imgErase
  | 2 => s.imgWrite
  | 3 => s.imgCommit
  | 4 => s.imgCmd fun s => (s.imgDone 0).warmRequest .imgActivate
  | 5 => s.imgReload (bitsOf v.toNat 8 4)
  | _ => s.imgCmd fun s => s.imgDone 0x11

/-- A write to SEC_CMD (15 R509). -/
def State.secCmdWrite (s : State) (v : W64) : State := match bitsOf v.toNat 0 4 with
  | 1 => s.secCmd true fun s => ((s.eraseFw (s.fd Rg.SEC_BOOT_STATUS_FW_TARGET)).noteFwTarget).secDone 0
  | 2 => s.secCmd true State.fwWrite
  | 3 => s.secCmd true State.fwCommit
  | 4 => s.secCmd false fun s => (s.secDone 0).warmRequest .fwActivate
  | 5 => s.commitSvn (bitsOf v.toNat 8 1)
  | 6 => s.fuseOwner
  | 7 => s.attest (bitsOf v.toNat 4 4)
  | 8 => s.idcert
  | _ => s.secCmd false fun s => s.secDone 0x11

/-- A write to FLT_RESET (17 R550); the cells of a core that failed its last self-test fail again. -/
def State.fltResetWrite (s : State) (v : W64) : State := match bitsOf v.toNat 0 2 with
  | 1 => s.warmRequest .fltReset
  | 2 => s.askReset (bitsOf v.toNat 8 4) 4
  | 3 => s.fltResetCore (bitsOf v.toNat 16 9) (((s.core (bitsOf v.toNat 16 9)).cells).map fun c => ⟨bitsOf v.toNat 16 9, c.1, c.2.1, c.2.2⟩)
  | _ => s

/-- A write to FLT_REPAIR_CMD (17 R553). -/
def State.repairCmdWrite (s : State) (v : W64) : State :=
  if bitsOf v.toNat 0 2 = 1 then s.repairApply else if s.serving then s.fixDone 1 0 else s

/-- A write to SVC_CMD (17 R555). -/
def State.svcCmdWrite (s : State) (v : W64) : State := match bitsOf v.toNat 0 2 with
  | 1 => s.quiesce
  | 2 => s.resume
  | 3 => s.forceStop
  | _ => s

/-- A write to SEC_PART_CTRL_p (15 R510). -/
def State.partCtrlWrite (s : State) (p : Nat) (v : W64) : State :=
  if bitOf v.toNat 0 then s.partStart p else s.setF (Rg.SEC_PART_CTRL_START p) 0

/-- A write to a device block other than the partition windows, the cores and the clusters. -/
def State.writeSys (s : State) (a : Nat) (v : W64) : State :=
  if a = Rg.DEV_TIME_SET then s.timeSet v
  else if a = Rg.PWR_CAP_SET then s.capSet v
  else if a = Rg.IMG_CMD then s.imgCmdWrite v
  else if a = Rg.SEC_CMD then s.secCmdWrite v
  else if 0x3_0108 ≤ a && a < 0x3_01C8 && (a - 0x3_0108) % 16 = 0 then s.partCtrlWrite ((a - 0x3_0108) / 16) v
  else if a = Rg.FLT_RESET then s.fltResetWrite v
  else if a = Rg.FLT_REPAIR_CMD then s.repairCmdWrite v
  else if a = Rg.SVC_CMD then s.svcCmdWrite v
  else if a = Rg.LRL_IRQ_REARM then s.irqRearm v
  else if a = Rg.CCH_ROUTE_DATA then
    { s with coach := { s.coach with routes := ins s.coach.routes (s.fd Rg.CCH_ROUTE_SEL_DEVICE) (v.toNat &&& 0xFF_FFFF_FF0F) } }
  else if 0x8_0000 ≤ a && a < 0x9_0000 && a % 0x2000 = 0 then s.portCtrl ((a - 0x8_0000) / 0x2000) v
  else s.plainWrite a v

/-- A write to DSP_CMD (10 R345). -/
def State.dspCmdWrite (s : State) (p : Nat) (v : W64) : State := match bitsOf v.toNat 0 4 with
  | 1 => s.dspLoad p
  | 2 => s.dspUnload p (bitsOf v.toNat 8 4)
  | 3 => s.dspRun p (bitsOf v.toNat 8 4)
  | _ => if s.defined p then s.dspDone p 8 0 else s

/-- A write to a spill ring's registers, ignored while the ring is in use (11 R371). -/
def State.spillCfg (s : State) (p n a : Nat) (v : W64) : State :=
  if (s.sender p n).queue.isEmpty && s.fd (Rg.CHN_PORT_SPILL_PTR_TAIL p n) == s.fd (Rg.CHN_PORT_SPILL_PTR_HEAD p n) then s.plainWrite a v
  else s

/-- A write in the CHN sub-window of partition `p`. -/
def State.writeChn (s : State) (p rel a : Nat) (v : W64) : State :=
  match portBlock rel with
  | some (n, o) =>
    if o = 0x8 then (if s.hasPort p n then s.sendWrite p n v else s)
    else if o = 0x18 || o = 0x20 then s.spillCfg p n a v
    else s.plainWrite a v
  | none =>
    if rel = 0 then s.chnCmdWrite p v
    else if 0x2000 ≤ rel && rel < 0x2800 && (rel - 0x2000) % 0x20 = 0x18 then s.selDone p ((rel - 0x2000) / 0x20) v
    else if rel = 0x3010 then s.epHead p v
    else s.plainWrite a v

/-- A write in the LDG sub-window of partition `p`; a queue's WEIGHT is not set to 0 (12 R413). -/
def State.writeLdg (s : State) (p rel a : Nat) (v : W64) : State :=
  if rel = 0x50 then s.sqTail p v
  else if rel = 0x78 then s.rqHead p v
  else if rel = 0x80 then s.ldgCmdWrite p v
  else if 0x100 ≤ rel && rel < 0x300 then (if bitsOf v.toNat 0 8 = 0 then s else s.plainWrite a v)
  else if rel = 0x3_F010 then s.pageLow p v
  else if rel = 0x3_F018 then s.pageCmdWrite p v
  else s.plainWrite a v

/-- A write in the DSP sub-window of partition `p`. -/
def State.writeDsp (s : State) (p rel a : Nat) (v : W64) : State :=
  if rel = 0 then s.dspHalt p (v.toNat % 2)
  else if rel = 0x20 then s.dspCmdWrite p v
  else if rel = 0x58 then s.cringHead p v
  else if rel = 0x78 then s.cbHead p v
  else if rel = 0x80 then s.ctlDone p v
  else s.plainWrite a v

/-- A write in the ADP sub-window of partition `p`. -/
def State.writeAdp (s : State) (p rel a : Nat) (v : W64) : State :=
  if rel = 0 then s.adpArea p v
  else if rel = 0x8 then s.adpCmdWrite p v
  else s.plainWrite a v

/-- Write the register at offset `a` (R11, R34). -/
def State.regWrite (s : State) (a : Nat) (v : W64) : State :=
  if s.absent a then s
  else match windowOf a with
    | some (p, rel) =>
      if rel < 0x4_0000 then s.writeDsp p rel a v
      else if rel < 0x8_0000 then s.writeLdg p (rel - 0x4_0000) a v
      else if rel < 0xC_0000 then s.writeChn p (rel - 0x8_0000) a v
      else s.writeAdp p (rel - 0xC_0000) a v
    | none =>
      if 0x200_0000 ≤ a && a < 0x204_0000 && (a - 0x200_0000) % 0x4000 = 0x2000 then s.skimDisable ((a - 0x200_0000) / 0x4000) v
      else if cciBase ≤ a && (a - cciBase) % 0x1000 = 0x10 then s.petDog ((a - cciBase) / 0x1000)
      else s.writeSys a v

/-! ### Who may (R35, R36) -/

/-- Whether offset `a` lies in a sub-window that partition settings close to the host (R36; 02 R52). -/
def State.closedAt (s : State) (a : Nat) : Bool := match windowOf a with
  | some (p, rel) => s.hostClosed p (rel / 0x4_0000)
  | none => false

/-- Whether the recovery endpoint serves offset `a` (14 R480): DEV, SEC, FLT, SVC, LRL. -/
def recoveryServes (a : Nat) : Bool := a < 0x1_0000 || (0x3_0000 ≤ a && a < 0x7_0000)

/-- The status with which a host register access completes without being performed, if any (R35, R36; 14 R472, R480). -/
def State.hostDenied (s : State) (a len : Nat) : Option Nat :=
  if a % 8 ≠ 0 || len ≠ 8 then some 1
  else if s.recovery && !recoveryServes a then some 3
  else if s.closedAt a then some 2
  else none

/-- Whether the runtime on logical control core `n` of partition `p` reaches offset `a` (R36; 11 R371; 15 R503). -/
def State.coreReaches (s : State) (p n a : Nat) (write : Bool) : Bool :=
  if a < 0x1_0000 then !write
  else match windowOf a with
    | some (q, rel) => q == p && (match windowPort rel with
        | some (k, _) => k == n
        | none => true)
    | none =>
      if 0x100_0000 ≤ a && a < 0x111_0000 then match s.logCore ((a - 0x100_0000) / 0x1000) with
        | some l => (s.coresOf p).contains l
        | none => false
      else cciBase + n * 0x1000 ≤ a && a < cciBase + (n + 1) * 0x1000

/-- An access fault on logical control core `n`: store or load (R35, R36). -/
def State.accessFault (s : State) (n : Nat) (write : Bool) : State := s.modCtl n fun c => { c with trap := if write then 7 else 5 }

/-- A register access by the runtime on control core `n`: performed, or an access fault, logged when R36 forbids it (R35, R36). -/
def State.coreAccess (s : State) (n a len : Nat) (write : Bool) (act : State → State) : State := match s.ctlOwner n with
  | none => s
  | some p =>
    if !(s.ctlCore n).running then s
    else if !s.coreReaches p n a write then (s.accessFault n write).isolation p 15 1 a
    else if a % 8 ≠ 0 || len ≠ 8 then s.accessFault n write
    else act s

/-- A host register access is not performed: its error completion, and the log of one to a closed window (R35, R36; 02 R69; 14
R472). -/
def State.hostDeny (s : State) (tag part st a : Nat) : State :=
  (if st = 2 then s.isolation part 15 1 a else s).errCpl 0 0x03 tag part st a

/-- An access by Innkeeper, which runs on logical control cores 0 and 1: performed, or an access fault; which of the two cores makes it is
free (R35, R36; assumption 123). -/
def State.innkeeperAccess (s : State) (a len : Nat) (write : Bool) (act : State → State) : State :=
  if cciBase ≤ a then s
  else if a % 8 ≠ 0 || len ≠ 8 then (s.accessFault (s.freeVal % 2) write).freeNext
  else act s

/-- A register access of `len` bytes by some actor: performed where the actor may. The host's access here has tag 0 and part 15; its
messages are REG_RD and REG_WR (R35, R36; assumption 123). -/
def State.access (s : State) (who : Actor) (a len : Nat) (write : Bool) (act : State → State) : State :=
  if s.phase ≠ .running then s
  else match who with
    | .innkeeper => s.innkeeperAccess a len write act
    | .host =>
      if !s.lrlActive || cciBase ≤ a then s
      else match s.hostDenied a len with
        | some st => s.hostDeny 0 15 st a
        | none => act s
    | .core n => s.coreAccess n a len write act

/-- REGISTER_WRITE (R11): a write sets, clears or ignores the fields of a register by access code, or faults. -/
def execRegisterWrite (who : Actor) (addr : Span) (v : W64) (s : State) : Host.Outcome State Fault Refusal :=
  .next (s.access who addr.addr addr.len true fun s => s.regWrite addr.addr v)

/-- RC_COUNTER_READ (R11): a read of an RC field returns its value and clears it to zero; other fields are returned. -/
def execRcCounterRead (who : Actor) (addr : Span) (s : State) : Host.Outcome State Fault Refusal :=
  .next (s.access who addr.addr addr.len false fun s => s.regRead addr.addr)

/-! ### The host's messages (14 R472 to R474) -/

/-- A host register message: an error completion, or the access performed and its completion (R472, R473). -/
def State.hostReg (s : State) (mtype a len tag part : Nat) (act : State → State) (data : State → Bytes) : State :=
  if !s.lrlActive then s
  else
    let s := s.takeMsg fun m => m.mtype == mtype && m.tag == tag && m.addr == a
    match s.hostDenied a len with
    | some st => s.hostDeny tag part st a
    | none =>
      let s := if cciBase ≤ a then { s with bus := 0 } else act s
      s.sendMsg 0 ⟨0x03, tag, part, 0, (data s).length, a, data s⟩

/-- REG_RD (R473): a host REG_RD message reads a register and returns a REG_CPL. -/
def execRegRd (addr len tag part : Nat) (s : State) : Host.Outcome State Fault Refusal :=
  .next (s.hostReg 0x01 addr len tag part (fun s => s.regRead addr) fun s => toLe 8 s.bus.toNat)

/-- REG_WR (R473): a host REG_WR message writes a register and returns a REG_CPL once the write has taken effect. -/
def execRegWr (addr len tag part : Nat) (v : W64) (s : State) : Host.Outcome State Fault Refusal :=
  .next (s.hostReg 0x02 addr len tag part (fun s => s.flushHost.regWrite addr v) fun _ => [])

/-- Whether a doorbell may be written at offset `a` (R474). -/
def State.doorbellOk (s : State) (a : Nat) : Bool := match windowOf a with
  | some (p, rel) =>
    p < s.var.parts && !s.hostClosed p (rel / 0x4_0000) && [0x58, 0x78, 0x4_0050, 0x4_0078, 0x8_1808].contains rel
  | none => false

/-- DOORBELL's effect (R474, R480). -/
def State.ring (s : State) (a : Nat) (v : W64) : State :=
  if !s.lrlActive then s
  else
    let s := s.takeMsg fun m => m.mtype == 0x04 && m.addr == a
    if s.recovery || !s.doorbellOk a then s.bump Rg.LRL_EVENTS_DB_BAD else s.flushHost.regWrite a v

/-- DOORBELL (R474): a posted DOORBELL writes an allowed ring-pointer register, or is discarded. -/
def execDoorbell (addr : Nat) (v : W64) (s : State) : Host.Outcome State Fault Refusal := .next (s.ring addr v)

end Sys2Proof.Machine
end

