-- ==== Sys2Proof/Machine/Dispatch.lean ====
section
/-!
DEFINITION. One arm per command: a direct call of its meaning.
-/
namespace Sys2Proof.Machine

/-- The effect of a command on everything but the queue of waiting commands. -/
def exec (i : Instr) (s : State) : Host.Outcome State Fault Refusal :=
  match i with
  | .coldReset => Sys2Proof.Machine.execColdReset s
  | .moduleReset ns => Sys2Proof.Machine.execModuleReset ns s
  | .powerGood mv => Sys2Proof.Machine.execPowerGood mv s
  | .moduleResetRelease b => Sys2Proof.Machine.execModuleResetRelease b s
  | .deviceWarmReset b => Sys2Proof.Machine.execDeviceWarmReset b s
  | .partitionReset p cells => Sys2Proof.Machine.execPartitionReset p cells s
  | .partitionResetComplete p => Sys2Proof.Machine.execPartitionResetComplete p s
  | .fltResetDeviceWarm => Sys2Proof.Machine.execFltResetDeviceWarm s
  | .fltResetPartition p => Sys2Proof.Machine.execFltResetPartition p s
  | .fltResetCore c cells => Sys2Proof.Machine.execFltResetCore c cells s
  | .powerFail mv us => Sys2Proof.Machine.execPowerFail mv us s
  | .sagDetect mv us => Sys2Proof.Machine.execSagDetect mv us s
  | .sagClear mv us => Sys2Proof.Machine.execSagClear mv us s
  | .currentSlowBegin w => Sys2Proof.Machine.execCurrentSlowBegin w s
  | .currentSlowEnd w => Sys2Proof.Machine.execCurrentSlowEnd w s
  | .droopAssert island => Sys2Proof.Machine.execDroopAssert island s
  | .droopClear island cycles => Sys2Proof.Machine.execDroopClear island cycles s
  | .thermtrip k celsius => Sys2Proof.Machine.execThermtrip k celsius s
  | .refLost ns => Sys2Proof.Machine.execRefLost ns s
  | .ppsEdge ns set => Sys2Proof.Machine.execPpsEdge ns set s
  | .powerLoop m => Sys2Proof.Machine.execPowerLoop m s
  | .coreDrainedOff c => Sys2Proof.Machine.execCoreDrainedOff c s
  | .coreRampOnStart c => Sys2Proof.Machine.execCoreRampOnStart c s
  | .coreOn c => Sys2Proof.Machine.execCoreOn c s
  | .pwrCapSetWrite v => Sys2Proof.Machine.execPwrCapSetWrite v s
  | .devTimeSetWrite v => Sys2Proof.Machine.execDevTimeSetWrite v s
  | .ccWdogExpiry n => Sys2Proof.Machine.execCcWdogExpiry n s
  | .ctlWdogExpiry t => Sys2Proof.Machine.execCtlWdogExpiry t s
  | .ringWdogExpiry t => Sys2Proof.Machine.execRingWdogExpiry t s
  | .drainTimeout u => Sys2Proof.Machine.execDrainTimeout u s
  | .spillWaitTimeout p => Sys2Proof.Machine.execSpillWaitTimeout p s
  | .pinWaitTimeout t page => Sys2Proof.Machine.execPinWaitTimeout t page s
  | .ikWdogExpiry n => Sys2Proof.Machine.execIkWdogExpiry n s
  | .repairApply => Sys2Proof.Machine.execRepairApply s
  | .fltLogPop => Sys2Proof.Machine.execFltLogPop s
  | .memLogPop => Sys2Proof.Machine.execMemLogPop s
  | .keyTouch => Sys2Proof.Machine.execKeyTouch s
  | .keyHoldSegment j => Sys2Proof.Machine.execKeyHoldSegment j s
  | .keyRelease => Sys2Proof.Machine.execKeyRelease s
  | .keyForceStopHold => Sys2Proof.Machine.execKeyForceStopHold s
  | .svcQuiesce => Sys2Proof.Machine.execSvcQuiesce s
  | .svcResume => Sys2Proof.Machine.execSvcResume s
  | .svcForceStop => Sys2Proof.Machine.execSvcForceStop s
  | .quiesceSettled => Sys2Proof.Machine.execQuiesceSettled s
  | .quiesceTimeout => Sys2Proof.Machine.execQuiesceTimeout s
  | .forceStopComplete => Sys2Proof.Machine.execForceStopComplete s
  | .faultPatternExpiry p => Sys2Proof.Machine.execFaultPatternExpiry p s
  | .presenceChange j present => Sys2Proof.Machine.execPresenceChange j present s
  | .imgErase => Sys2Proof.Machine.execImgErase s
  | .imgWrite => Sys2Proof.Machine.execImgWrite s
  | .imgCommit => Sys2Proof.Machine.execImgCommit s
  | .imgActivate => Sys2Proof.Machine.execImgActivate s
  | .imgReload p => Sys2Proof.Machine.execImgReload p s
  | .fwErase => Sys2Proof.Machine.execFwErase s
  | .fwWrite => Sys2Proof.Machine.execFwWrite s
  | .fwCommit => Sys2Proof.Machine.execFwCommit s
  | .fwActivate => Sys2Proof.Machine.execFwActivate s
  | .commitSvn which => Sys2Proof.Machine.execCommitSvn which s
  | .fuseOwner => Sys2Proof.Machine.execFuseOwner s
  | .attest part => Sys2Proof.Machine.execAttest part s
  | .idcert => Sys2Proof.Machine.execIdcert s
  | .partStart p => Sys2Proof.Machine.execPartStart p s
  | .sbiInfo n => Sys2Proof.Machine.execSbiInfo n s
  | .sbiReload n addr len => Sys2Proof.Machine.execSbiReload n addr len s
  | .sbiReloadStatus n => Sys2Proof.Machine.execSbiReloadStatus n s
  | .sbiAttest n nonce dst => Sys2Proof.Machine.execSbiAttest n nonce dst s
  | .sbiFaultInfo n => Sys2Proof.Machine.execSbiFaultInfo n s
  | .sbiJobFault n cause => Sys2Proof.Machine.execSbiJobFault n cause s
  | .sbiSrst n kind => Sys2Proof.Machine.execSbiSrst n kind s
  | .sbiHsmHartStart n target addr arg => Sys2Proof.Machine.execSbiHsmHartStart n target addr arg s
  | .cciWdogPet n => Sys2Proof.Machine.execCciWdogPet n s
  | .dspLoad p => Sys2Proof.Machine.execDspLoad p s
  | .dspUnload p tag => Sys2Proof.Machine.execDspUnload p tag s
  | .dspRun p tag => Sys2Proof.Machine.execDspRun p tag s
  | .ledgerStepTrigger p tag => Sys2Proof.Machine.execLedgerStepTrigger p tag s
  | .taskIssue => Sys2Proof.Machine.execTaskIssue s
  | .arraysFinish c => Sys2Proof.Machine.execArraysFinish c s
  | .linkBufferHandover c link produce => Sys2Proof.Machine.execLinkBufferHandover c link produce s
  | .gemmTask t parity => Sys2Proof.Machine.execGemmTask t parity s
  | .attnForward t part => Sys2Proof.Machine.execAttnForward t part s
  | .attnBackward t part => Sys2Proof.Machine.execAttnBackward t part s
  | .attnVerify t => Sys2Proof.Machine.execAttnVerify t s
  | .vecTask t => Sys2Proof.Machine.execVecTask t s
  | .copyTask t => Sys2Proof.Machine.execCopyTask t s
  | .skimEncode t => Sys2Proof.Machine.execSkimEncode t s
  | .skimDecode t => Sys2Proof.Machine.execSkimDecode t s
  | .skimCheck24 t => Sys2Proof.Machine.execSkimCheck24 t s
  | .xferWait t => Sys2Proof.Machine.execXferWait t s
  | .xferWrite t => Sys2Proof.Machine.execXferWrite t s
  | .xferShard t => Sys2Proof.Machine.execXferShard t s
  | .xferAppend t => Sys2Proof.Machine.execXferAppend t s
  | .xferPutAt t => Sys2Proof.Machine.execXferPutAt t s
  | .collReduceScatter t => Sys2Proof.Machine.execCollReduceScatter t s
  | .collAllGather t => Sys2Proof.Machine.execCollAllGather t s
  | .collAllReduce t => Sys2Proof.Machine.execCollAllReduce t s
  | .collBarrier t => Sys2Proof.Machine.execCollBarrier t s
  | .collContrib t => Sys2Proof.Machine.execCollContrib t s
  | .taskComplete t => Sys2Proof.Machine.execTaskComplete t s
  | .cringHeadWrite p v => Sys2Proof.Machine.execCringHeadWrite p v s
  | .cbHeadWrite p v => Sys2Proof.Machine.execCbHeadWrite p v s
  | .ctlDone p v => Sys2Proof.Machine.execCtlDone p v s
  | .poolRecompute p => Sys2Proof.Machine.execPoolRecompute p s
  | .arrayRampDown c => Sys2Proof.Machine.execArrayRampDown c s
  | .mcastBlockRead g => Sys2Proof.Machine.execMcastBlockRead g s
  | .skimmerTileServe k => Sys2Proof.Machine.execSkimmerTileServe k s
  | .skmDisableWrite k v => Sys2Proof.Machine.execSkmDisableWrite k v s
  | .pageWalk t part entry layer head blk half => Sys2Proof.Machine.execPageWalk t part entry layer head blk half s
  | .pinWaitResume t page => Sys2Proof.Machine.execPinWaitResume t page s
  | .pageRef p page => Sys2Proof.Machine.execPageRef p page s
  | .pageUnref p page => Sys2Proof.Machine.execPageUnref p page s
  | .pageRead p page => Sys2Proof.Machine.execPageRead p page s
  | .pageLowWrite p v => Sys2Proof.Machine.execPageLowWrite p v s
  | .memSlotGrant n => Sys2Proof.Machine.execMemSlotGrant n s
  | .repairWrite => Sys2Proof.Machine.execRepairWrite s
  | .scrubRead => Sys2Proof.Machine.execScrubRead s
  | .writeQueueResume n => Sys2Proof.Machine.execWriteQueueResume n s
  | .chnOpen p => Sys2Proof.Machine.execChnOpen p s
  | .chnClose p handle churn => Sys2Proof.Machine.execChnClose p handle churn s
  | .endpointFree h => Sys2Proof.Machine.execEndpointFree h s
  | .chnAppend p port v => Sys2Proof.Machine.execChnAppend p port v s
  | .chnPutAt p port v => Sys2Proof.Machine.execChnPutAt p port v s
  | .chnContrib p port v => Sys2Proof.Machine.execChnContrib p port v s
  | .sendCreditResume p port => Sys2Proof.Machine.execSendCreditResume p port s
  | .sendSpill p port => Sys2Proof.Machine.execSendSpill p port s
  | .messageLand h => Sys2Proof.Machine.execMessageLand h s
  | .selNext p g => Sys2Proof.Machine.execSelNext p g s
  | .selDone p g v => Sys2Proof.Machine.execSelDone p g v s
  | .epHeadWrite p v => Sys2Proof.Machine.execEpHeadWrite p v s
  | .churnAdd q => Sys2Proof.Machine.execChurnAdd q s
  | .churnNoticePlace q => Sys2Proof.Machine.execChurnNoticePlace q s
  | .ldgSqTailWrite p v => Sys2Proof.Machine.execLdgSqTailWrite p v s
  | .submit p => Sys2Proof.Machine.execSubmit p s
  | .cancel p => Sys2Proof.Machine.execCancel p s
  | .extend p => Sys2Proof.Machine.execExtend p s
  | .pause p => Sys2Proof.Machine.execPause p s
  | .resume p => Sys2Proof.Machine.execResume p s
  | .release p => Sys2Proof.Machine.execRelease p s
  | .finish p => Sys2Proof.Machine.execFinish p s
  | .ldgRqHeadWrite p v => Sys2Proof.Machine.execLdgRqHeadWrite p v s
  | .ldgEntryRead p e => Sys2Proof.Machine.execLdgEntryRead p e s
  | .gatePass e => Sys2Proof.Machine.execGatePass e s
  | .batchWindowExpiry p tag => Sys2Proof.Machine.execBatchWindowExpiry p tag s
  | .batchDeadlineClose p tag => Sys2Proof.Machine.execBatchDeadlineClose p tag s
  | .budgetEnter p => Sys2Proof.Machine.execBudgetEnter p s
  | .budgetLeave p => Sys2Proof.Machine.execBudgetLeave p s
  | .pressureBegin p => Sys2Proof.Machine.execPressureBegin p s
  | .pressureEnd p => Sys2Proof.Machine.execPressureEnd p s
  | .deadlinePass e => Sys2Proof.Machine.execDeadlinePass e s
  | .stepSettle p tag => Sys2Proof.Machine.execStepSettle p tag s
  | .exportStart e => Sys2Proof.Machine.execExportStart e s
  | .adpBind p slot customer => Sys2Proof.Machine.execAdpBind p slot customer s
  | .adpUnbind p slot => Sys2Proof.Machine.execAdpUnbind p slot s
  | .adpPublish p slot => Sys2Proof.Machine.execAdpPublish p slot s
  | .adpAreaWrite p v => Sys2Proof.Machine.execAdpAreaWrite p v s
  | .dataFrameReceive n w => Sys2Proof.Machine.execDataFrameReceive n w s
  | .ackReceive n w => Sys2Proof.Machine.execAckReceive n w s
  | .helloRequestReceive n w => Sys2Proof.Machine.execHelloRequestReceive n w s
  | .helloReplyReceive n w => Sys2Proof.Machine.execHelloReplyReceive n w s
  | .abortReceive n w => Sys2Proof.Machine.execAbortReceive n w s
  | .frameTransmit n => Sys2Proof.Machine.execFrameTransmit n s
  | .rtoExpiry f psn => Sys2Proof.Machine.execRtoExpiry f psn s
  | .helloResendExpiry f => Sys2Proof.Machine.execHelloResendExpiry f s
  | .ackDelayExpiry f => Sys2Proof.Machine.execAckDelayExpiry f s
  | .flowIdleExpiry rx f => Sys2Proof.Machine.execFlowIdleExpiry rx f s
  | .flowOpenResume => Sys2Proof.Machine.execFlowOpenResume s
  | .abortResend => Sys2Proof.Machine.execAbortResend s
  | .portDetect n media => Sys2Proof.Machine.execPortDetect n media s
  | .portTrained n => Sys2Proof.Machine.execPortTrained n s
  | .portTrainFail n => Sys2Proof.Machine.execPortTrainFail n s
  | .portFailedRetry n => Sys2Proof.Machine.execPortFailedRetry n s
  | .portEnableWrite n v => Sys2Proof.Machine.execPortEnableWrite n v s
  | .portLinkLoss n us => Sys2Proof.Machine.execPortLinkLoss n us s
  | .linkDetect => Sys2Proof.Machine.execLinkDetect s
  | .linkPartnerSeen lanes => Sys2Proof.Machine.execLinkPartnerSeen lanes s
  | .linkLanesLock lanes => Sys2Proof.Machine.execLinkLanesLock lanes s
  | .linkTrainTimeout => Sys2Proof.Machine.execLinkTrainTimeout s
  | .linkConfigDone credits => Sys2Proof.Machine.execLinkConfigDone credits s
  | .linkRetrainRelock lanes => Sys2Proof.Machine.execLinkRetrainRelock lanes s
  | .linkRetrainTimeout => Sys2Proof.Machine.execLinkRetrainTimeout s
  | .flitReceive flit => Sys2Proof.Machine.execFlitReceive flit s
  | .flitTransmit => Sys2Proof.Machine.execFlitTransmit s
  | .replayTimerExpiry => Sys2Proof.Machine.execReplayTimerExpiry s
  | .regRd addr len tag part => Sys2Proof.Machine.execRegRd addr len tag part s
  | .regWr addr len tag part v => Sys2Proof.Machine.execRegWr addr len tag part v s
  | .doorbell addr v => Sys2Proof.Machine.execDoorbell addr v s
  | .hostMemRd part addr len tag => Sys2Proof.Machine.execHostMemRd part addr len tag s
  | .hostMemWr part addr data => Sys2Proof.Machine.execHostMemWr part addr data s
  | .memCplReceive tag status data => Sys2Proof.Machine.execMemCplReceive tag status data s
  | .cplTimeout tag => Sys2Proof.Machine.execCplTimeout tag s
  | .intr j => Sys2Proof.Machine.execIntr j s
  | .lrlIrqRearmWrite v => Sys2Proof.Machine.execLrlIrqRearmWrite v s
  | .setEndpointId op eid => Sys2Proof.Machine.execSetEndpointId op eid s
  | .getEndpointId => Sys2Proof.Machine.execGetEndpointId s
  | .getEndpointUuid => Sys2Proof.Machine.execGetEndpointUuid s
  | .getMctpVersionSupport => Sys2Proof.Machine.execGetMctpVersionSupport s
  | .getMessageTypeSupport => Sys2Proof.Machine.execGetMessageTypeSupport s
  | .i3cDynamicAddress addr => Sys2Proof.Machine.execI3cDynamicAddress addr s
  | .getTid => Sys2Proof.Machine.execGetTid s
  | .setTid tid => Sys2Proof.Machine.execSetTid tid s
  | .getPldmVersion type => Sys2Proof.Machine.execGetPldmVersion type s
  | .getPldmTypes => Sys2Proof.Machine.execGetPldmTypes s
  | .getPldmCommands type => Sys2Proof.Machine.execGetPldmCommands type s
  | .getPdrRepositoryInfo => Sys2Proof.Machine.execGetPdrRepositoryInfo s
  | .getPdr handle => Sys2Proof.Machine.execGetPdr handle s
  | .getSensorReading id => Sys2Proof.Machine.execGetSensorReading id s
  | .getStateSensorReadings id => Sys2Proof.Machine.execGetStateSensorReadings id s
  | .getNumericEffecterValue id => Sys2Proof.Machine.execGetNumericEffecterValue id s
  | .setNumericEffecterValue id v => Sys2Proof.Machine.execSetNumericEffecterValue id v s
  | .setStateEffecterStates id v => Sys2Proof.Machine.execSetStateEffecterStates id v s
  | .setEventReceiver enable addr => Sys2Proof.Machine.execSetEventReceiver enable addr s
  | .getFruRecordTableMetadata => Sys2Proof.Machine.execGetFruRecordTableMetadata s
  | .getFruRecordTable => Sys2Proof.Machine.execGetFruRecordTable s
  | .sensorUpdate => Sys2Proof.Machine.execSensorUpdate s
  | .registerWrite a addr v => Sys2Proof.Machine.execRegisterWrite a addr v s
  | .rcCounterRead a addr => Sys2Proof.Machine.execRcCounterRead a addr s
  | .hartStop n => Sys2Proof.Machine.execHartStop n s
  | .portSignalLoss n => Sys2Proof.Machine.execPortSignalLoss n s

end Sys2Proof.Machine
end

