-- ==== Sys2Proof/Safety.lean ====
section
/-!
DEFINITION. What every state of a run keeps: the tables in their canonical form, the two logs within their sizes; and what never
goes back over a run: the fuses and the clock.
-/
namespace Sys2Proof.Machine

/-- The canonical form of a state: registers, device memory and host memory list no entry equal to what an unlisted one reads as,
in rising order; the fault log holds at most 256 entries (17_faults_reset.md R551) and the memory log at most 64 (09_memory.md
R311). -/
structure State.Inv (s : State) : Prop where
  regs : Canon regReset s.regs
  mem : Canon (fun _ => (0 : Byte)) s.mem
  hostMem : Canon (fun _ => (0 : Byte)) s.hostMem
  fltLog : s.fltLog.length ≤ 256
  memLog : s.memLog.length ≤ 64

/-- The fuses of `t` are those of `s` or blown further: identity unchanged, an owner hash once programmed kept
(15_boot_security.md R495), the counters not lower (R497), blown map entries kept (17_faults_reset.md R543, R544). -/
structure Fuses.Within (a b : Fuses) : Prop where
  variant : b.variant = a.variant
  stepping : b.stepping = a.stepping
  serial : b.serial = a.serial
  disabled : b.disabled = a.disabled
  swHash : b.swHash = a.swHash
  owner : allZero a.ownerHash = false → b.ownerHash = a.ownerHash
  fwCtr : a.fwCtr ≤ b.fwCtr
  imgCtr : a.imgCtr ≤ b.imgCtr
  kind4 : ∀ c ∈ a.map.kind4, c ∈ b.map.kind4
  skips : ∀ x ∈ a.map.skips, x ∈ b.map.skips

/-! ### What some commands do, named once for the statements -/

/-- A job fault with cause `cause` on partition `p` (17_faults_reset.md R535, R554): the partition is STOPPING, FLT_PART shows the cause
and the next fault number, and FLT_IRQ.JOB_FAULT is set. -/
structure FaultShown (s t : State) (p cause : Nat) : Prop where
  state : t.fd (Rg.FLT_PART_STATE p) = 2
  cause : t.fd (Rg.FLT_PART_CAUSE p) = cause % 256
  id : t.fd (Rg.FLT_PART_FAULT_ID p) = (s.fd (Rg.FLT_PART_FAULT_ID p) + 1) % 2 ^ 32
  irq : t.fd Rg.FLT_IRQ_JOB_FAULT = 1

/-- A cold or module reset with cause `last` (17_faults_reset.md R540, R541, R550): the module is held, every register but
FLT_RESET_CAUSE is at its reset value, device time is 0, the logs and the tasks are gone, and fuses and flash are kept. -/
structure HeldReset (last : Nat) (s t : State) : Prop where
  phase : t.phase = .held
  last : t.fd Rg.FLT_RESET_CAUSE_LAST = last
  regs : ∀ a, a ≠ Rg.FLT_RESET_CAUSE → t.rd a = regReset a
  time : t.time.dev = 0
  alive : t.pins.modAlive = false
  fltLog : t.fltLog = []
  tasks : t.tasks = []
  fuses : t.fuses = s.fuses
  flash : t.flash = s.flash

/-- A boot (15_boot_security.md R486, R487; 01_architecture.md R24): the module runs with MOD_ALIVE high and the fuse map latched, and a
ROM that fails its check, or a missing control cluster, leaves it in recovery with the reason shown. -/
structure Booted (b : BootIn) (s t : State) : Prop where
  phase : t.phase = .running
  alive : t.pins.modAlive = true
  latched : t.latched = s.fuses.map
  fuses : t.fuses = s.fuses
  time : t.time = s.time
  rom : b.romOk = false → t.fd Rg.SEC_BOOT_STATUS_MODE = 1 ∧ t.fd Rg.SEC_BOOT_STATUS_REASON = 1 ∧ t.bundle = none ∧ t.loaded = none

/-! ### Terms that the statements use -/

/-- What the host-memory operand of an IMG command must be (R60, R74). -/
structure State.ImgXfer (s : State) (a n : Nat) : Prop where
  host : (s.rd Rg.IMG_XFER_HOST).toNat = a
  len : s.fd Rg.IMG_XFER_LEN_LEN = n
  window : windowBase ≤ a
  below : a < 2 ^ 48
  aligned : a % 8 = 0 ∧ n % 8 = 0
  reached : s.badPoint 15 a n = none

/-- What the host-memory operand of a SEC command must be (R509). -/
structure State.SecXfer (s : State) (a n : Nat) : Prop where
  host : (s.rd Rg.SEC_XFER_HOST).toNat = a
  window : windowBase ≤ a
  below : a < 2 ^ 48
  aligned : a % 8 = 0
  reached : s.badPoint 15 a n = none

/-- What a call by the runtime needs (R506): a running core of a partition, with the device running. -/
structure State.Calls (s : State) (n p : Nat) : Prop where
  owner : s.ctlOwner n = some p
  runs : (s.ctlCore n).running = true
  phase : s.phase = .running

/-- What LOAD reads and finds for graph `g` of partition `p` when every check of R330 passes, the reads leaving `w`. -/
def State.LoadsAs (s : State) (p : Nat) (g : Graph) (w : State) : Prop :=
  ∃ u v ok, s.blk p (s.fd (Rg.DSP_CMD_ADDR_ADDR p)) 64 = (some g.header, u) ∧ u.headerOk p g.header = true ∧
    u.graph? p (fieldAt g.header 6 1) = none ∧ u.nodesUsed p + g.cost ≤ u.cfg p 124 2 ∧ u.nodesAll + g.cost ≤ 16384 ∧
    u.readOvf p (fieldAt g.header 40 8) g.ovfCount = (some g.ovf, v) ∧
    v.readDescs p (fieldAt g.header 32 8) g.nodes = (g.descs.zip ok, w) ∧ g.descs.length = ok.length ∧ g.firstBad w p ok = none ∧
    g.next = 0 ∧ g.broken = false ∧ g.unloadAt = none ∧ g.run = none

/-- No task in flight has number `n`. -/
def State.Gone (s : State) (n : Nat) : Prop := ∀ k ∈ s.tasks, k.id ≠ n

/-- The state in which a host command's own message has left its queue. -/
def State.hostRd (s : State) (p a n tag : Nat) : MemRd :=
  (s.takeMsg fun m => m.mtype == 0x10 && m.tag == tag && m.addr == a && m.len == n).flushHost.ramRead p 2 a n

/-- What waiting at the gate or for a step keeps of an entry: its request, its length and its pause bits but PRESSURE and PAUSE. -/
def Entry.Keeps (a b : Entry) : Prop := b.reqId = a.reqId ∧ b.length = a.length ∧ ∀ c, c ≠ 1 → c ≠ 3 → bitOf b.marks c = bitOf a.marks c

/-- The Guest Ledger reads at LDG_SQ_HEAD the record `b` of operation `op`, the read leaving `u`. -/
def State.SqHas (s : State) (p op : Nat) (b : Bytes) (u : State) : Prop :=
  ∃ a, s.sqNext p = some a ∧ s.blk p a 128 = (some b, u) ∧ fieldAt b 0 1 = op

/-- That record names entry `i` of partition `p`, which accepts the operation (R379). -/
structure State.SqFor (s : State) (p op i : Nat) (b : Bytes) (u : State) : Prop where
  has : s.SqHas p op b u
  entry : fieldAt b 4 4 = i
  owner : s.ledgerOwner i = p
  req : (s.ent i).reqId = fieldAt b 8 8
  accepts : (s.ent i).accepts op = true

/-- The entry that an accepted SUBMIT makes at device time `now`, its adapter generation being `gen` (R380, R385). -/
def Entry.admitted (b : Bytes) (gen now : Nat) : Entry := { Entry.ofSubmit b with
  state := if (Entry.ofSubmit b).ring then 3 else 1, effPrio := (Entry.ofSubmit b).prio, bucket := bucketOf (Entry.ofSubmit b).length,
  adGen := gen, admitTime := now, qtime := now }

/-- The module answers with completion code `c` and data `d`, and nothing else of its state changes but what `m` says of the endpoint. -/
def State.repliesWith (s : State) (m : MgmtSt) (c : Nat) (d : Bytes) (t : State) : Prop :=
  t = { s with mgmt := { m with reply := toLe 1 c ++ d } }

/-- An entry whose PRESSURE bit is clear and that is RUNNING, or PAUSED for another reason. -/
def Entry.calm (e : Entry) : Prop := bitOf e.marks 3 = false ∧ (e.state = 3 ∨ e.state = 4 ∧ e.held = true)

/-- The bits that a quiesce sets of partition `p`. -/
def State.heldHalted (s : State) (p : Nat) : Prop :=
  s.fd (Rg.FLT_PART_HELD p) = 1 ∧ s.fd (Rg.LDG_CTRL_HALT p) = 1 ∧ s.fd (Rg.DSP_CTRL_HALT p) = 1

/-- The state once the key is up, before the touch acts. -/
def State.keyLeft (s : State) (t0 : Nat) : State :=
  ((s.noteHold t0).setF Rg.SVC_STATE_KEY_HELD 0).modSvc fun v => { v with touch := none, lit := 0, forced := false }

/-! ### Register accesses (01) -/

/-- Whether a read of offset `a` hands out a channel message: a select group's _NEXT (11 R360, R372). -/
def selNextAt (a : Nat) : Bool := match windowOf a with
  | some w => 0x8_2000 ≤ w.2 && w.2 < 0x8_2800 && (w.2 - 0x8_2000) % 0x20 == 8
  | none => false

/-- Whether an actor's access of `len` bytes at offset `a` is performed, outside the Larric messages (R35, R36; 14 R480). -/
def State.may (s : State) (who : Actor) (a len : Nat) (write : Bool) : Bool := s.phase == .running && match who with
  | .innkeeper => a < cciBase && a % 8 == 0 && len == 8
  | .host => s.lrlActive && a < cciBase && (s.hostDenied a len).isNone
  | .core n => match s.ctlOwner n with
    | none => false
    | some p => (s.ctlCore n).running && s.coreReaches p n a write && a % 8 == 0 && len == 8

/-- A register that is there and whose read has no effect beyond its RC fields. -/
structure State.PlainRead (s : State) (a : Nat) (r : RegRow) : Prop where
  here : s.absent a = false
  row : regRow? a = some r
  fault : a ≠ Rg.FLT_LOG_HEAD2
  memory : a ≠ Rg.MEM_LOG_HEAD1
  select : selNextAt a = false

/-- What a read shows and clears (R11): the bus holds the register's view, its RC fields are 0, every other register is as before. -/
structure State.ReadShown (s t : State) (a : Nat) (r : RegRow) : Prop where
  bus : t.bus = s.view a
  cleared : t.rd a = s.rd a &&& ~~~r.accMask [.rc]
  others : ∀ b, b ≠ a → t.rd b = s.rd b
  memory : t.mem = s.mem ∧ t.hostMem = s.hostMem

/-- What a write to a register without effects of its own does (R11): each field by its access code, every other register as before. -/
structure State.WriteShown (s t : State) (a : Nat) (v : W64) (r : RegRow) : Prop where
  fields : t.rd a = r.fields.foldl (fun x f => f.write v x) (s.rd a)
  others : ∀ b, b ≠ a → t.rd b = s.rd b
  memory : t.mem = s.mem ∧ t.hostMem = s.hostMem

/-! ### What tasks write (05) -/

/-- What each byte reads after the writes `ws` (address, bytes), in order, over bytes that read `m`. -/
def written (m : Nat → Byte) (ws : List (Nat × Bytes)) : Nat → Byte :=
  ws.foldl (fun m w x => if w.1 ≤ x ∧ x < w.1 + w.2.length then w.2.getD (x - w.1) 0 else m x) m

/-- Partition `p` may make each write of `ws` in device memory, where no error symbol stands. -/
structure State.Writable (s : State) (p : Nat) (ws : List (Nat × Bytes)) : Prop where
  flips : s.ecc.flips = []
  reached : ∀ w ∈ ws, s.badPoint p w.1 w.2.length = none ∧ w.1 < windowBase

/-- The bytes of `t` are those of `s` with the writes `ws` made. -/
def State.Stored (s t : State) (ws : List (Nat × Bytes)) : Prop :=
  ∀ x, find unwritten t.mem x = written (find unwritten s.mem) ws x

/-- Part `i` of task `n` has no work left, and the task's status is `st` with sub-code bits `sub`. -/
def State.PartOver (s : State) (n i st sub : Nat) : Prop :=
  ∃ k, s.task? n = some k ∧ k.status = st ∧ k.sub = sub ∧ ∀ x ∈ k.parts, x.idx = i → x.done = true

/-- The writes of one line of elements of format `fmt` at `a`: one for each run of elements that are all poisoned or all not. -/
def lineWrites (fmt a : Nat) (xs : List (Nat × Bool)) : List (Nat × Bytes) :=
  (runsOf 0 xs).map fun r => (a + r.1 * (fmtBits fmt / 8), packLine fmt r.2.1)

/-- The status of a task whose outputs are written, a range or a poison flag applying (00_conventions.md R14, R15). -/
def Task.flagStatus (k : Task) (range pois : Bool) : Nat := if range || pois then statusMax k.status stFlagged else k.status

/-- Its sub-code bits. -/
def Task.flagSub (k : Task) (range pois : Bool) : Nat := k.sub ||| ((if range then subRange else 0) ||| (if pois then subPoison else 0))

/-! ### Sends and landings (11) -/

/-- The send that a write of `v` to port `n`'s _SEND makes (11 R371). -/
def State.sendOf (s : State) (p n : Nat) (v : W64) : Send :=
  ⟨bitsOf v.toNat 0 2, bitOf v.toNat 2, bitsOf v.toNat 3 4, bitsOf v.toNat 8 12, bitsOf v.toNat 32 32,
    s.fd (Rg.CHN_PORT_SEND_ADDR_ADDR p n), none, none, false, false⟩

/-- The state with a send put last into its port's queue. -/
def State.queued (s : State) (p n : Nat) (x : Send) : State := s.modSender p n fun q => { q with queue := q.queue ++ [x] }

/-- A port whose queue is empty and whose last send is done. -/
structure State.PortIdle (s : State) (p n : Nat) : Prop where
  queue : (s.sender p n).queue = []
  done : s.sendBusy p n = false

/-- A port whose only send is `x`, not begun. -/
structure State.PortHolds (s : State) (p n : Nat) (x : Send) : Prop where
  queue : (s.sender p n).queue = [x]
  done : s.sendBusy p n = false

/-- A control-core or host send completed with a result, and nothing landed (R367, R371). -/
structure State.SendEnds (s t : State) (p n code : Nat) : Prop where
  result : t.fd (Rg.CHN_PORT_SEND_STATUS_RESULT p n) = code
  completed : t.fd (Rg.CHN_PORT_SEND_STATUS_COMPLETED p n) = (s.fd (Rg.CHN_PORT_SEND_STATUS_COMPLETED p n) + 1) % 2 ^ 32
  queue : (t.sender p n).queue = []
  endpoints : t.endpoints = s.endpoints
  landings : t.landings = s.landings
  churns : t.churns = s.churns
  memory : t.mem = s.mem

/-- A message `bs` began to land at address `a` for endpoint `e`, which has handle `h` (R356, R357, R359). -/
structure State.Lands (s t : State) (h : Nat) (e : Endpoint) (l : Landing) (a : Nat) (bs : Bytes) : Prop where
  landings : t.landings = s.landings ++ [l]
  endpoint : find? t.endpoints h = some (if l.window then e else { e with wtail := (l.msg.at_ + bs.length) % 2 ^ 32 })
  others : ∀ j, j ≠ h → find? t.endpoints j = find? s.endpoints j
  memory : s.ecc.flips = [] → l.msg.skip = 0 → s.badPoint e.part a bs.length = none → a < windowBase → ∀ x,
    find unwritten t.mem x = if a ≤ x ∧ x < a + bs.length then bs.getD (x - a) 0 else find unwritten s.mem x

/-- A send that an open endpoint of its own partition takes (11 R355, R367): 1 to 8 units, the parts it uses present. -/
structure State.Takes (s : State) (p : Nat) (x : Send) (e : Endpoint) : Prop where
  units : 1 ≤ x.units ∧ x.units ≤ 8
  found : find? s.endpoints x.dest = some e
  own : e.part = p
  isOpen : e.closing = false
  parts : ¬ ((x.op = 1 ∧ e.winSize = 0) ∨ ((x.op = 0 ∨ x.notify = true) ∧ e.ringLog2 = 0))

/-! ### Skimmer tasks (06) -/

/-- A SKIM task of operation `op` at work: its context is `c`, its status below UNCORRECTABLE, its partition at work. -/
structure State.SkimWorks (s : State) (n op : Nat) (c : SkimCtx) : Prop where
  ctx : s.skimCtx n op = some c
  status : c.k.status < stUncorr
  part : c.k.part < 12
  live : s.defined c.k.part = true ∧ s.pstate c.k.part < 2

/-- The result record of a CHECK24 (R211). -/
def SkimCtx.checkRec (c : SkimCtx) (x : Elems) : Bytes := skimRec (blocks32 c.n c.len) 0 (overfull c.w.fmt x c.n c.len) 0 0 0

/-- Tile `i` of the dense side `x` of an ENCODE, as encoded; positions outside the operand are zero (R197, R210). -/
def SkimCtx.tileAt (c : SkimCtx) (x : Elems) (i : Nat) : TileEnc :=
  encodeTile c.w.fmt (fieldAt c.b 1 1 == 1) fun l j =>
    (if 32 * (i / tilesOf c.len) + l < c.n && 32 * (i % tilesOf c.len) + j < c.len then
      x (32 * (i / tilesOf c.len) + l) (32 * (i % tilesOf c.len) + j) else (0, false)).1

/-- What an ENCODE writes for the tiles `l`, the first at offset `off`: each tile's directory entry, then the tile (R193, R210). -/
def SkimCtx.layout (c : SkimCtx) (x : Elems) : List Nat → Nat → List (Nat × Bytes)
  | [], _ => []
  | i :: l, off => [(fieldAt c.b 24 8 + 8 * i, toLe 8 (off + (c.tileAt x i).bytes.length * 2 ^ 40)), (fieldAt c.b 24 8 + off,
    (c.tileAt x i).bytes)] ++
      c.layout x l (roundUp (off + (c.tileAt x i).bytes.length) 16)

/-- The tiles of an ENCODE. -/
def SkimCtx.count (c : SkimCtx) : Nat := tilesOf c.n * tilesOf c.len

/-- A sum over the tiles of an ENCODE. -/
def SkimCtx.total (c : SkimCtx) (x : Elems) (g : TileEnc → Nat) : Nat := ((List.range c.count).map fun i => g (c.tileAt x i)).sum

/-- Everything an ENCODE writes: directory and tiles, then the result record (R210, R211). -/
def SkimCtx.encodeWrites (c : SkimCtx) (x : Elems) : List (Nat × Bytes) :=
  c.layout x (List.range c.count) (roundUp (8 * c.count) 16) ++
    [(fieldAt c.b 40 8, skimRec c.count (c.total x fun e => b2n e.raw) (c.total x (·.ovr)) 0 (c.total x (·.count))
      (8 * c.count + c.total x fun e => e.bytes.length))]

/-- Element (i, j) that a DECODE writes, and whether it is poisoned: a tile with a fault of R203 reads as poisoned zeros (R203,
R210). -/
def SkimCtx.decoded (c : SkimCtx) (ts : List Tile) (i j : Nat) : Nat × Bool := match ts[i / 32 * tilesOf c.len + j / 32]? with
  | some tl => if tl.out then (0, true) else tiledElem ts c.len i j
  | none => (0, false)

/-- The dense lines that a DECODE writes, transposed or not. -/
def SkimCtx.decodeLines (c : SkimCtx) (ts : List Tile) : List (Nat × Bytes) :=
  if bitOf (fieldAt c.b 3 1) 0 then
    (List.range c.len).flatMap fun j => lineWrites c.w.fmt (fieldAt c.b 24 8 + j * fieldAt c.b 32 4) ((List.range c.n).map fun i =>
      c.decoded ts i j)
  else
    (List.range c.n).flatMap fun i => lineWrites c.w.fmt (fieldAt c.b 24 8 + i * fieldAt c.b 32 4) ((List.range c.len).map fun j =>
      c.decoded ts i j)

/-- The tiles of a DECODE that meet a fault of R203. -/
def rangeTiles (ts : List Tile) : Nat := (ts.filter (·.out)).length

/-- Everything a DECODE writes: the lines, then the result record (R210, R211). -/
def SkimCtx.decodeWrites (c : SkimCtx) (ts : List Tile) : List (Nat × Bytes) :=
  c.decodeLines ts ++ [(fieldAt c.b 40 8, skimRec ts.length ((ts.filter fun y => y.form == 2).length) 0 (rangeTiles ts)
    ((ts.map (·.count)).foldl (· + ·) 0) (((c.decodeLines ts).map fun x => x.2.length).sum))]

/-! ### Tensor tasks (10) -/

/-- Part `i` of task `n`, of kind `kind`, at work: the task is `k`, the part `x`, its graph `g`; its status is below UNCORRECTABLE, its
partition at work. -/
structure State.TaskWorks (s : State) (n kind i : Nat) (k : Task) (x : TaskPart) (g : Graph) : Prop where
  works : s.working? n kind i = some (k, x)
  graph : s.graphOf k = some g
  status : k.status < stUncorr
  part : k.part < 12
  live : s.defined k.part = true ∧ s.pstate k.part < 2

/-- The rows that a COPY of descriptor `d` bound to `rows` copies: first and one past the last (R331). -/
def copyRows (d : Bytes) (rows : Nat) : Nat × Nat := if dBind d then boundRows d rows else (0, fieldAt d 48 4)

/-- The lines that it reads. -/
def copyFrom (d : Bytes) (rows : Nat) : List Nat :=
  (List.range ((copyRows d rows).2 - (copyRows d rows).1)).map fun i => fieldAt d 32 8 + (copyRows d rows).1 * fieldAt d 56 4 + i *
    fieldAt d 56 4

/-- Where its lines go. -/
def copyTo (d : Bytes) (rows j : Nat) : Nat := fieldAt d 40 8 + (copyRows d rows).1 * fieldAt d 60 4 + j * fieldAt d 60 4

/-- A line as read, written at `a`: one write for each run of bytes that are all poisoned or all not. -/
def Line.pieces (l : Line) (a : Nat) : List (Nat × Bytes) :=
  (runsOf 0 (l.data.zipIdx.map fun b => (b.1.toNat, l.poison.contains ((l.addr + b.2) / 64)))).map fun r => (a + r.1, r.2.1.map fun
    x => BitVec.ofNat 8 x)

/-- Element (i, j) of `w` bytes of lines as read, and whether a codeword it stands in is poisoned. -/
def lineElem (ls : List Line) (w i j : Nat) : Nat × Bool :=
  (fieldAt (ls.getD i ⟨0, [], []⟩).data (j * w) w, (List.range w).any fun b =>
    (ls.getD i ⟨0, [], []⟩).poison.contains (((ls.getD i ⟨0, [], []⟩).addr + j * w + b) / 64))

/-- What a COPY writes of the lines `ls`: each line, or with an element width W, column by column (R323; 05 R156, R157). -/
def copyWrites (d : Bytes) (rows : Nat) (ls : List Line) : List (Nat × Bytes) :=
  if fieldAt d 64 1 = 0 then ls.zipIdx.flatMap fun l => l.1.pieces (copyTo d rows l.2)
  else (List.range (fieldAt d 52 4 / fieldAt d 64 1)).flatMap fun j =>
    (runsOf 0 ((List.range ((copyRows d rows).2 - (copyRows d rows).1)).map fun i => ((lineElem ls (fieldAt d 64 1) i j).1,
      (List.range 32).any fun a => (List.range 32).any fun b => decide (32 * (i / 32) + a < (copyRows d rows).2 - (copyRows d
        rows).1) &&
        decide (32 * (j / 32) + b < fieldAt d 52 4 / fieldAt d 64 1) && (lineElem ls (fieldAt d 64 1) (32 * (i / 32) + a) (32 * (j /
          32) + b)).2))).map
      fun r => (copyTo d rows j + r.1 * fieldAt d 64 1, r.2.1.flatMap fun v => toLe (fieldAt d 64 1) v)

/-- The rows to which a VEC of descriptor `d` is bound (10_task_graphs.md R326, R331). -/
def vecBind (d : Bytes) (rows : Nat) : Option (Nat × Nat) := if dBind d then some (boundRows d rows) else none

/-- The program `is` and the transfer list `xs` that a VEC reads, each read and checked; `u` is the state that leaves. -/
def State.vecReads (s : State) (n : Nat) (k : Task) (d : Bytes) (is xs : List Bytes) (u : State) : Prop :=
  ∃ prog v xl, s.taskBlk n k.part 0 (fieldAt d 32 8) (16 * fieldAt d 40 2) (fun b => (recsOf 16 (fieldAt d 40 2) b).any vecBad) =
    (some prog, v) ∧
    (if fieldAt d 42 1 = 0 then (some [], v) else v.taskBlk n k.part 0 (fieldAt d 48 8) (24 * fieldAt d 42 1) fun b =>
      (recsOf 24 (fieldAt d 42 1) b).any (xferBad ((vecBind d k.rows).map fun r => r.2 - r.1))) = (some xl, u) ∧
    is = recsOf 16 (fieldAt d 40 2) prog ∧ xs = recsOf 24 (fieldAt d 42 1) xl

/-- Whether every format a VEC names lets it run (03_number_formats.md R109). -/
def vecFmts (is xs : List Bytes) : Bool :=
  (xs.all fun e => vecFmtOk (fieldAt e 1 1)) && is.all fun i => !(fieldAt i 0 1 == 0x0A || fieldAt i 0 1 == 0x0B) || vecFmtOk
    (fieldAt i 12 4 % 32)

/-- The vector buffer of physical core `c` (05_core_streaming.md R151, R159). -/
def State.vecBuf (s : State) (c : Nat) : VBuf := ⟨(s.core c).vec, c, (s.core c).vecLost⟩

/-- The loads of a VEC, in list order; the last number counts their poisoned source tiles (05_core_streaming.md R183). -/
def vecLoads (p c : Nat) (bind : Option (Nat × Nat)) (xs : List Bytes) (u : State) : VBuf × Fetch × Nat :=
  (xs.filter fun e => fieldAt e 0 1 = 0).foldl (fun a e =>
    ((a.1.load a.2.1 p bind e).1, (a.1.load a.2.1 p bind e).2.1, a.2.2 + (a.1.load a.2.1 p bind e).2.2))
    (u.vecBuf c, ⟨false, 0, u.cycles (linkCycles c ++ [Rg.CORE_VEC_BUSY_BUSY c])⟩, 0)

/-- The buffer after its program (R159, R160), free numbers from `z`. -/
def vecRun (is : List Bytes) (b : VBuf) (z : Nat) : VBuf × FmtEv × Nat :=
  is.foldl (fun a i => ((a.1.instr a.2.2 i).1, a.2.1.add (a.1.instr a.2.2 i).2, a.2.2 + fieldAt i 2 2)) (b, FmtEv.none, z)

/-- Element (i, j) that a store writes: its bits, and whether its 32 × 32 tile is poisoned (05_core_streaming.md R157). -/
def VBuf.stored (b : VBuf) (bind : Option (Nat × Nat)) (x : Bytes) (i j : Nat) : Nat × Bool :=
  ((toFmt (fieldAt x 1 1 % 16) ((fieldAt x 1 1).testBit 4) (num32 (b.word (fieldAt x 2 2 + i * fieldAt x 6 2 + j)).1)).1,
    (List.range 32).any fun r => (List.range 32).any fun k => decide (32 * (i / 32) + r < (xferRows bind x).1) && decide (32 * (j /
      32) + k < fieldAt x 6 2) &&
      (b.word (fieldAt x 2 2 + (32 * (i / 32) + r) * fieldAt x 6 2 + (32 * (j / 32) + k))).2)

/-- The rows that a store writes. -/
def VBuf.storeRows (b : VBuf) (bind : Option (Nat × Nat)) (x : Bytes) : List (List (Nat × Bool)) :=
  (List.range (xferRows bind x).1).map fun i => (List.range (fieldAt x 6 2)).map fun j => b.stored bind x i j

/-- The writes of a store: its rows, packed or by lines (R326). -/
def VBuf.storeWrites (b : VBuf) (bind : Option (Nat × Nat)) (x : Bytes) : List (Nat × Bytes) :=
  (b.storeRows bind x).zipIdx.flatMap fun r =>
    if fieldAt x 1 1 % 16 = 5 then [((xferRows bind x).2 + r.2 * fieldAt x 16 4, packLine 5 (r.1.map (·.1)))]
    else lineWrites (fieldAt x 1 1 % 16) ((xferRows bind x).2 + r.2 * fieldAt x 16 4) r.1

/-- The stores of a VEC. -/
def vecStores (xs : List Bytes) : List Bytes := xs.filter fun e => fieldAt e 0 1 = 1

/-- Whether any of the stores `xs` writes a poisoned element. -/
def VBuf.poisons (b : VBuf) (bind : Option (Nat × Nat)) (xs : List Bytes) : Bool := xs.any fun e => (b.storeRows bind e).any fun r
    => r.any (·.2)

/-- The state in which the GEMM `q` on logical core `lc`, in core slot `slot`, starts to read: its arrays at work
(04_tensor_arrays.md R136, R145). -/
def State.gemmFed (s : State) (q : Gemm) (lc slot : Nat) : State :=
  (s.arrayStart (s.physCore lc) (if q.ws s.var.arrays then 2 else 1) (b2n (q.quad s.var.arrays)) (q.kparts s.var.arrays) (q.atWork
    s.var.arrays) (slot == 2)).cycles
    (q.cycles s.var (s.physCore lc))

/-- What it reads and computes. -/
def State.gemmProduct (s : State) (q : Gemm) (lc slot : Nat) : Prod := Fetch.product ⟨false, 0, s.gemmFed q lc slot⟩ q lc []

/-- The writes of rows of results: row m at `a + m × stride`, its scales at `sc + m × ss` (05_core_streaming.md R166). -/
def rowsWrites (f : FmtWord) (a stride sc ss : Nat) (rows : Rows) : List (Nat × Bytes) := rows.zipIdx.flatMap fun r =>
  lineWrites f.fmt (a + r.2 * stride) ((convRow f (r.1.map (·.1))).1.zip (r.1.map (·.2))) ++
    if f.scale = 0 then [] else [(sc + r.2 * ss, (convRow f (r.1.map (·.1))).2.1.flatMap fun x => toLe 1 x)]

/-- The writes of D (R324). -/
def Gemm.dWrites (q : Gemm) (rows : Rows) : List (Nat × Bytes) := rowsWrites q.fd q.d q.dStride q.scaleD (blocksOf q.n q.fd.bs) rows

/-- The GEMM of task `n` is `q`, at work on part `x`, and none of its tiles waits at the Skimmer (06_skimmer.md R205). -/
structure State.GemmWorks (s : State) (n : Nat) (k : Task) (x : TaskPart) (q : Gemm) : Prop where
  graph : ∃ g, s.TaskWorks n 1 0 k x g ∧ q = g.gemm k.part k.node k.rows
  served : ((s.cluster (s.clusterOf x.coreN)).skimQ.any fun r => r.task == n) = false

/-- A GEMM that writes D by rows with no stages: no stage list, no convolution record, D not transposed. -/
structure Gemm.Plain (q : Gemm) : Prop where
  fmt : q.fmtOk = true
  stages : q.stages = 0
  conv : q.ctrl.testBit 6 = false
  rows : q.xpose.testBit 2 = false

/-! ### Attention parts (07) -/

/-- Part `i` of attention task `n` at work on operation `op`: its block, head map and extension, read and checked, are those of `c`,
and `u`
is the state that leaves; the task's status is below UNCORRECTABLE. -/
structure State.AttnWorks (s : State) (n i op : Nat) (c : AttnCtx) (u : State) : Prop where
  ctx : s.attnCtx n i = (some c, u)
  op : c.op = op
  status : c.k.status < stUncorr

/-- What a forward part computes from the rows and keys it has loaded. -/
def State.attnOut (s : State) (c : AttnCtx) (rows : List AttnRow) (keys : List (Nat × Stream)) (f : Fetch) : List GroupOut × Fetch :=
  f.attnGroups c keys (tileGroups s.var.arrays c.g rows)

/-- The state in which a part of `s` starts to write: its reads done, its cells and vector buffer used. -/
def State.attnReady (s : State) (c : AttnCtx) (f : Fetch) : State := (f.st.attnCells (s.physCore c.lc)).freeNext

/-- FP32 words as bytes. -/
def bytes32 (xs : List Num) : Bytes := xs.flatMap fun v => toLe 4 (bits32 v)

/-- The writes that a row of a forward part leaves: O and its statistics, or the ring's running state (R221, R229, R247). -/
def rowOutWrites (c : AttnCtx) (y : RowOut) (k : RowMark) : List (Nat × Bytes) :=
  let m := if y.x.wrong then Num.nan else y.x.m
  if c.flag 2 && !c.lastStep then
    [(fieldAt c.b 104 8 + (y.qh * c.rows + y.r.r) * 4 * c.d, bytes32 y.x.o), (c.stats y.r.r y.qh, bytes32 [m, y.x.l])]
  else
    lineWrites c.of.fmt (AttnCtx.datum (fieldAt c.b 40 8) (fieldAt c.b 52 4) c.d (fmtBits c.of.fmt / 8) y.r.r y.qh)
      ((convRow c.of y.final.1).1.zipIdx.map fun v => (v.1, k.ob.getD (v.2 / 32) k.bad)) ++
      if c.flag 0 || c.flag 2 then [(c.stats y.r.r y.qh, bytes32 [m, y.final.2])] else []

/-- The marks of a computed tile group. -/
def GroupOut.marks (g : GroupOut) (c : AttnCtx) (recBad : Bool) : List RowMark := groupMarks c recBad g.ks g.ys

/-- The writes of a forward part. -/
def attnWrites (c : AttnCtx) (recBad : Bool) (gs : List GroupOut) : List (Nat × Bytes) :=
  gs.flatMap fun g => (g.ys.zip (g.marks c recBad)).flatMap fun y => rowOutWrites c y.1 y.2

/-- Whether poison reached an output of a forward part. -/
def attnPoison (c : AttnCtx) (recBad : Bool) (gs : List GroupOut) : Bool := gs.any fun g => (g.marks c recBad).any fun m => m.bad ||
    m.ob.any id

/-- The rows of a backward part, recomputed, with their format events and the reads (R236). -/
def State.backRows (s : State) (c : AttnCtx) (rows : List AttnRow) (f : Fetch) : List BackRow × FmtEv × Fetch :=
  ((tileGroups s.var.arrays c.g rows).flatMap fun g => g.2.flatMap fun row => (List.range c.g).map fun i => (g.2, row, i)).foldl
    (fun a x => let r := a.2.2.backRow c x.1 x.2.1 x.2.2; (a.1 ++ [r.1], a.2.1.add r.2.1, r.2.2)) ([], FmtEv.none, f)

/-- Where delta of a recomputed row stands (R236). -/
def deltaAt (c : AttnCtx) (r : BackRow) : Nat := fieldAt c.ext 40 8 + ((c.part * c.g + r.i) * c.rows + r.r.r) * 4

/-- The drain of a backward part without a parity failure: delta of every row, then by entry dQ, dK and dV (R236, R237, R247). -/
def State.backOut (s : State) (c : AttnCtx) (rows : List AttnRow) (keys : List (Nat × Stream)) (recBad : Bool) (br : List BackRow ×
    FmtEv × Fetch) : BackSt :=
  let z := s.attnReady c br.2.2
  let w0 := br.1.foldl (fun (w : Store) r => w.put c.k.part (deltaAt c r) (toLe 4 (bits32 r.delta)) r.bad) (⟨false, 0, br.2.1, z⟩ :
    Store)
  (entriesOf rows).foldl (fun x e => BackSt.entry x c rows (br.1.filter fun r => r.r.entry == e) e (keysOf keys e)) ⟨[], w0, 0,
    recBad, z.free, none⟩

/-- What a verifying task does of record 0 to `m - 1` after reading its row records as `f`: writes, counts, poison (R242, R243). -/
def State.verified (c : AttnCtx) (f : Fetch) (m : Nat) : VerSt :=
  (List.range m).foldl (fun a j => a.record c j) ⟨⟨false, 0, FmtEv.none, f.st⟩, 0, 0, false, f.fail, f.bytes⟩

/-- The row records that a VERIFY reads. -/
def State.verifyRows (s : State) (c : AttnCtx) : List AttnRow × Bool × Fetch :=
  Fetch.rowRecs ⟨false, 0, s.cycles (linkCycles (s.physCore c.lc) ++ [Rg.CORE_VEC_BUSY_BUSY (s.physCore c.lc)])⟩ c 0 c.rows

/-- Whether the format of the logits lets a VERIFY run (R242). -/
def AttnCtx.logitsOk (c : AttnCtx) : Bool :=
  let w := FmtWord.ofNat (fieldAt c.ext 8 4)
  w.codesOk && w.fmt < 2 && w.scale == 0 && w.expand == 0

/-! ### Transfers, collectives, exports (13) -/

/-- The frames of one message that sending flow `x` is given: runs of (address, payload), with PSNs from the flow's next one, and the
counter `ctr` on the last (13_coach_ports.md R420 to R424). -/
def State.framesOf (s : State) (x : TxFlow) (op : Nat) (ctr : Option Nat) (parts : List (Nat × Bytes)) : List Frame :=
  parts.zipIdx.map fun y =>
    ⟨1, dataFlags y.2 parts.length ((x.nextPsn + y.2) % 2 ^ 32) ctr.isSome, x.part, x.dpart, s.devId, x.dev, x.job, x.flow, op,
      if y.2 + 1 == parts.length then ctr.getD 0 else 0, (x.nextPsn + y.2) % 2 ^ 32, y.1.1, y.1.2⟩

/-- Sending flow `i` was given one message: its frames stand behind those not acknowledged yet. -/
def State.Carries (s t : State) (i op : Nat) (ctr : Option Nat) (parts : List (Nat × Bytes)) : Prop :=
  ∃ x g, s.tx? i = some x ∧ t.tx? i = some g ∧ g.unacked.map (·.frame) = x.unacked.map (·.frame) ++ s.framesOf x op ctr parts

/-- The trigger counter that a field names, 255 for none (R432). -/
def ctrOf (v : Nat) : Option Nat := if v = 255 then none else some v

/-- Transfer task `n` of operation `op`, with block `b`, ready to act. -/
structure State.XferWorks (s : State) (n op : Nat) (k : Task) (b : Bytes) : Prop where
  ready : s.xferReady n op = some (k, b)
  status : k.status < stUncorr

/-- The message of a transfer leaves by flow `i` from `u`, where its task is `m`: the frames are on the flow, and the task's part is
over. -/
structure State.XferSent (u t : State) (n i : Nat) (b : Bytes) (m : Task) (fr : List (Nat × Bytes)) : Prop where
  frames : u.Carries t i 1 (ctrOf (fieldAt b 7 1)) fr
  ends : t.PartOver n 0 m.status m.sub
  memory : t.mem = u.mem

/-- The pages of an XFER SHARD: the list of its entry read, and the non-hole pages of its layer (R434). -/
structure State.ShardPages (s : State) (n : Nat) (k : Task) (b : Bytes) (h : ListHdr) (ps : List (Nat × Nat × Nat × Nat)) (u :
    State) : Prop where
  own : s.ledgerOwner (fieldAt b 8 4) = k.part
  header : ∃ v, s.listHdr k.part (s.ent (fieldAt b 8 4)).pageList = (.ok h, v) ∧
    v.layerPages k.part n (s.ent (fieldAt b 8 4)).pageList (fieldAt b 12 2) h = (.ok ps, u)
  layer : fieldAt b 12 2 < h.layers

/-- The channel send that an XFER APPEND (operation 3) or PUT_AT (4) of block `b` performs on the task port (R434). -/
def xferSend (n op : Nat) (b : Bytes) : Send :=
  ⟨if op = 3 then 0 else 1, op == 4 && bitOf (fieldAt b 1 1) 2, fieldAt b 2 1, fieldAt b 32 2, if op = 3 then 0 else fieldAt b 24 8,
    fieldAt b 8 8, some n, none,
    false, false⟩

/-- A send joins the task port's queue of partition `p`, or waits while that queue is full. -/
def State.TaskSends (s u t : State) (p : Nat) (x : Send) : Prop :=
  (8 ≤ (s.sender p 33).queue.length → t = s) ∧ ((s.sender p 33).queue.length < 8 → t = (u.queued p 33 x).pump p 33)

/-- Collective task `n` of operation `op` at rank `r` of its group, with its block (R436, R437). -/
structure State.CollWorks (s : State) (n op : Nat) (k : Task) (b : Bytes) (r : Nat) : Prop where
  block : s.portTask n 6 = some (k, b)
  op : fieldAt b 0 1 = op
  rank : s.rankOf k.part = some r
  status : k.status < stUncorr

/-- What a collective that goes on does (R437 to R439). `wait`: data of the step that it waits for has not all arrived. `begun`: a step
not begun yet is sent, and unless its data has all arrived before, the task waits for it. `ends`: after its last step its report is
written, and its part is over. -/
structure State.CollGoes (s t : State) (n : Nat) (k : Task) (b : Bytes) (r : Nat) : Prop where
  wait : ∀ st, ((s.collOf k.part b).steps r)[k.stage]? = some st → k.rep.length ≤ k.stage → k.waitSince.isSome = true → t = s
  begun : ∀ st u m, ((s.collOf k.part b).steps r)[k.stage]? = some st → k.rep.length ≤ k.stage → k.waitSince = none →
    s.collSends k b (s.collOf k.part b) k.stage st = (true, u) →
    (u.waitOn k.part (fieldAt b 2 1 + k.stage) n st.recvs.length).task? n = some m → m.stage = k.stage → m.rep.length ≤ m.stage →
      m.waitSince.isSome = true →
    t = u.waitOn k.part (fieldAt b 2 1 + k.stage) n st.recvs.length
  held : ∀ st u, ((s.collOf k.part b).steps r)[k.stage]? = some st → k.rep.length ≤ k.stage → k.waitSince = none →
    s.collSends k b (s.collOf k.part b) k.stage st = (false, u) → t = u
  ends : ((s.collOf k.part b).steps r)[k.stage]? = none → t.PartOver n 0 k.status k.sub ∧
    (fieldAt b 24 8 = 0 → t.mem = s.mem) ∧
    (fieldAt b 24 8 ≠ 0 → s.Writable k.part [(fieldAt b 24 8, collReport k r (s.collOf k.part b).n)] →
      s.Stored t [(fieldAt b 24 8, collReport k r (s.collOf k.part b).n)])

/-- Entry `e`, with record `y`, is EXPORTING in a live partition and holds no export context (R442). -/
structure State.ExportWaits (s : State) (e : Nat) (y : Entry) : Prop where
  ent : s.ent e = y
  live : s.live (s.ledgerOwner e) = true
  state : y.state = 5
  none : (s.coach.exports.any fun x => x.2.entry == e) = false

/-- The state in which the context of an export of entry `e` is made: it waits for none, and its list has been read. -/
def State.exportRead (s : State) (e : Nat) : ExportList :=
  State.exportSlots { s with coach := { s.coach with exportWait := s.coach.exportWait.filter (· != e) } } (s.ledgerOwner e) (s.ent
    e).pageList

/-- The context of that export. -/
def State.exportMade (s : State) (e : Nat) : State :=
  let u := (s.exportRead e).st
  { u with coach := { u.coach with exports := ins u.coach.exports (freeIdx u.coach.exports) ⟨e, s.ledgerOwner e, [], (s.exportRead
    e).slots, 0, [], none, false⟩ } }

/-! ### Spills and Churn queues (11) -/

/-- Port `n` of partition `p` has waited for credit with one send, `x`, which now spills: since `w`, for the open endpoint `e` of a
select
group, in whose ring it still finds no room (R362). -/
structure State.SpillDue (s : State) (p n : Nat) (x : Send) (e : Endpoint) (w : Nat) : Prop where
  holds : s.PortHolds p n x
  task : x.task = none
  op : x.op ≠ 2
  wait : x.wait = some w
  dest : find? s.endpoints x.dest = some e
  isOpen : e.closing = false
  group : e.group < 64
  full : ringFit e.size e.wtail e.head (if x.put then 32 else 32 * x.units) = none

/-- The state at the end of that wait, SPILL_LIMIT microseconds long. -/
def State.spillTime (s : State) (p w : Nat) : State := s.passTo (w + s.cfgSince p w 184 4 / 2)

/-- A message `bs` with sequence number `seq` for endpoint `h` of group `g` stands last in the spill ring of port `n`, written
behind `skip`
bytes of skip record; its send completes with result 1, SPILLED (R362, R367). -/
structure State.Spills (s t : State) (p n h g skip seq : Nat) (bs : Bytes) : Prop where
  entry : (t.sender p n).spill = (s.sender p n).spill ++ [⟨h, (s.fd (Rg.CHN_PORT_SPILL_PTR_TAIL p n) + skip) % 2 ^ 32, skip,
    bs.length, seq, false, false⟩]
  tail : t.fd (Rg.CHN_PORT_SPILL_PTR_TAIL p n) = ((s.fd (Rg.CHN_PORT_SPILL_PTR_TAIL p n) + skip) % 2 ^ 32 + bs.length) % 2 ^ 32
  raised : t.rd (Rg.CHN_IRQ_SPILL p) = s.rd (Rg.CHN_IRQ_SPILL p) ||| BitVec.ofNat 64 (2 ^ g)
  result : t.fd (Rg.CHN_PORT_SEND_STATUS_RESULT p n) = 1
  queue : (t.sender p n).queue = []
  endpoints : t.endpoints = s.endpoints
  landings : t.landings = s.landings
  memory : skip = 0 → ∀ a, a = s.fd (Rg.CHN_PORT_SPILL_BASE_BASE p n) + s.fd (Rg.CHN_PORT_SPILL_PTR_TAIL p n) % 2 ^ 32 % s.spillSize
    p n →
    s.Writable p [(a, bs)] → s.Stored t [(a, bs)]

/-- Churn queue `q`, `c`, whose combiner takes its first waiting contribution, of port `n` from address `a`, the only send of that port
(R364). -/
structure State.ChurnTakes (s : State) (q : Nat) (c : Churn) (n a : Nat) (r : List (Nat × Nat × Option Nat)) (x : Send) : Prop where
  queue : find? s.churns q = some c
  waiting : c.waiting = (n, a, none) :: r
  room : c.received < c.count
  sender : (s.sender c.part n).queue = [x]
  task : x.task = none

/-- The read of that contribution. -/
def State.churnReads (s : State) (q : Nat) (c : Churn) (n a : Nat) (r : List (Nat × Nat × Option Nat)) : Option Bytes × State :=
  State.sendRead { s with churns := ins s.churns q { c with waiting := r } } c.part n a ((if c.fmt = 0 then 2 else 4) * c.elems) none

/-- The sum of the accumulator of `c` and a contribution `v` (R364). -/
def State.churnSumOf (s : State) (c : Churn) (v : Bytes) : Bytes := churnSum c.fmt c.elems (s.devRead c.part 0 c.acc (4 *
    c.elems)).data v

/-! ### What a command may change -/

/-- The blocks of the register space (01_architecture.md R33); the fault log and FLT_IRQ (17_faults_reset.md R551,
R554) stand apart from the rest of their block, which is `fltp`. -/
inductive RegBlock
  | dev | pwr | img | sec | flt | svc | lrl | cch | mem | dsp | ldg | chn | adp | core | clu | cci | fltp
deriving DecidableEq, Repr

/-- Whether the register at offset `a` stands in the block's windows (01 R33). -/
def RegBlock.has (b : RegBlock) (a : Nat) : Prop := match b with
  | .dev => a < 0x10000
  | .pwr => 0x10000 ≤ a ∧ a < 0x20000
  | .img => 0x20000 ≤ a ∧ a < 0x30000
  | .sec => 0x30000 ≤ a ∧ a < 0x40000
  | .flt => 0x40010 ≤ a ∧ a < 0x40038
  | .fltp => 0x40000 ≤ a ∧ a < 0x50000 ∧ ¬ (0x40010 ≤ a ∧ a < 0x40038)
  | .svc => 0x50000 ≤ a ∧ a < 0x60000
  | .lrl => 0x60000 ≤ a ∧ a < 0x70000
  | .cch => 0x80000 ≤ a ∧ a < 0x90000
  | .mem => 0xA0000 ≤ a ∧ a < 0x100000
  | .dsp => 0x100000 ≤ a ∧ a < 0xD00000 ∧ (a - 0x100000) % 0x100000 < 0x40000
  | .ldg => 0x100000 ≤ a ∧ a < 0xD00000 ∧ 0x40000 ≤ (a - 0x100000) % 0x100000 ∧ (a - 0x100000) % 0x100000 < 0x80000
  | .chn => 0x100000 ≤ a ∧ a < 0xD00000 ∧ 0x80000 ≤ (a - 0x100000) % 0x100000 ∧ (a - 0x100000) % 0x100000 < 0xC0000
  | .adp => 0x100000 ≤ a ∧ a < 0xD00000 ∧ 0xC0000 ≤ (a - 0x100000) % 0x100000
  | .core => 0x1000000 ≤ a ∧ a < 0x1110000
  | .clu => 0x2000000 ≤ a ∧ a < 0x2040000
  | .cci => 0x4000000 ≤ a ∧ a < 0x4020000

/-- The parts of the state that a frame speaks of: the fields of State other than the queue, what it keeps of a partition (by
subject), and the registers of a block. `anyReg` stands for a register named by an address that the command carries. -/
inductive Comp
  | free
  | mem
  | hostMem
  | fuses
  | latched
  | flash
  | pins
  | phase
  | warmDue
  | loaded
  | bundle
  | power
  | time
  | ecc
  | fltLog
  | memLog
  | larric
  | pages
  | walks
  | ledger
  | tasks
  | taskNext
  | issueLast
  | cores
  | clusters
  | mcasts
  | endpoints
  | landings
  | churns
  | coach
  | ctl
  | service
  | mgmt
  | bus
  | now
  /-- Of each partition: the settings in force, the reload state and the ranges of entries (02 R63 to R65). -/
  | settings
  /-- Of each partition: its page pool (08 R266). -/
  | pool
  /-- Of each partition: whether it was started, its reset and its errors (17 R538, 12 R402). -/
  | life
  /-- Of each partition: its graphs and pools (10). -/
  | graphs
  /-- Of each partition: its holding queues (10 R339, R340; 12 R381). -/
  | holds
  /-- Of each partition: its schedules and budget levels (12). -/
  | sched
  /-- Of each partition: its sending ports and select groups (11). -/
  | chans
  /-- Of each partition: its adapter slots (12 R405). -/
  | slots
  | reg (b : RegBlock)
  | anyReg
deriving DecidableEq, Repr

/-- That a part of the state is the same in `s` and `t` (of registers, see State.FrameOf). -/
def Comp.same (k : Comp) (s t : State) : Prop := match k with
  | .free => t.free = s.free
  | .mem => t.mem = s.mem
  | .hostMem => t.hostMem = s.hostMem
  | .fuses => t.fuses = s.fuses
  | .latched => t.latched = s.latched
  | .flash => t.flash = s.flash
  | .pins => t.pins = s.pins
  | .phase => t.phase = s.phase
  | .warmDue => t.warmDue = s.warmDue
  | .loaded => t.loaded = s.loaded
  | .bundle => t.bundle = s.bundle
  | .power => t.power = s.power
  | .time => t.time = s.time
  | .ecc => t.ecc = s.ecc
  | .fltLog => t.fltLog = s.fltLog
  | .memLog => t.memLog = s.memLog
  | .larric => t.larric = s.larric
  | .pages => t.pages = s.pages
  | .walks => t.walks = s.walks
  | .ledger => t.ledger = s.ledger
  | .tasks => t.tasks = s.tasks
  | .taskNext => t.taskNext = s.taskNext
  | .issueLast => t.issueLast = s.issueLast
  | .cores => t.cores = s.cores
  | .clusters => t.clusters = s.clusters
  | .mcasts => t.mcasts = s.mcasts
  | .endpoints => t.endpoints = s.endpoints
  | .landings => t.landings = s.landings
  | .churns => t.churns = s.churns
  | .coach => t.coach = s.coach
  | .ctl => t.ctl = s.ctl
  | .service => t.service = s.service
  | .mgmt => t.mgmt = s.mgmt
  | .bus => t.bus = s.bus
  | .now => t.now = s.now
  | .settings => ∀ p, (t.part p).env = (s.part p).env ∧ (t.part p).cfg = (s.part p).cfg ∧
      (t.part p).reloadSeq = (s.part p).reloadSeq ∧ (t.part p).reloadPend = (s.part p).reloadPend ∧
      (t.part p).reloadKey = (s.part p).reloadKey ∧ (t.part p).ledBase = (s.part p).ledBase ∧
      (t.part p).ledN = (s.part p).ledN ∧ (t.part p).pageBase = (s.part p).pageBase ∧ (t.part p).pageQ = (s.part p).pageQ ∧
      (t.part p).pageN = (s.part p).pageN ∧ (t.part p).past = (s.part p).past
  | .pool => ∀ p, (t.part p).pool = (s.part p).pool ∧ (t.part p).fresh = (s.part p).fresh
  | .life => ∀ p, (t.part p).started = (s.part p).started ∧ (t.part p).shut = (s.part p).shut ∧
      (t.part p).why = (s.part p).why ∧ (t.part p).resetDone = (s.part p).resetDone ∧ (t.part p).errStep = (s.part p).errStep ∧
      (t.part p).errEntries = (s.part p).errEntries ∧ (t.part p).faultAt = (s.part p).faultAt ∧
      (t.part p).haltAt = (s.part p).haltAt
  | .graphs => ∀ p, (t.part p).graphs = (s.part p).graphs ∧ (t.part p).poolT = (s.part p).poolT
  | .holds => ∀ p, (t.part p).cringHold = (s.part p).cringHold ∧ (t.part p).cbHold = (s.part p).cbHold ∧
      (t.part p).rqHold = (s.part p).rqHold
  | .sched => ∀ p, (t.part p).sched = (s.part p).sched ∧ (t.part p).levels = (s.part p).levels
  | .chans => ∀ p, (t.part p).ports = (s.part p).ports ∧ (t.part p).groups = (s.part p).groups
  | .slots => ∀ p, (t.part p).adapters = (s.part p).adapters
  | .reg _ => True
  | .anyReg => True

/-- Nothing changes from `s` to `t` but the parts of the state in `l`: every register outside the blocks of `l` reads the same, and
every other part is equal. -/
structure State.FrameOf (l : List Comp) (s t : State) : Prop where
  same : ∀ k, k ∉ l → k.same s t
  regs : .anyReg ∉ l → ∀ a, (∀ b, .reg b ∈ l → ¬ b.has a) → t.rd a = s.rd a

/-- What reporting a condition may change: the logs, the error counters, the interrupt state and the fault registers. -/
def Touch.report : List Comp := [.ecc, .fltLog, .memLog, .larric, .reg .flt, .reg .mem, .reg .core]

/-- What a read or a write of memory may change: the bytes, and what reports an error found on the way (R119, R468). -/
def Touch.store : List Comp := Touch.report ++ [.mem, .hostMem]

/-- What ending a partition's job with a fault may change (R484): the job's own state, and what the channels it used hold. -/
def Touch.jobFault : List Comp := Touch.store ++ [.free, .pages, .walks, .tasks, .clusters, .mcasts, .landings, .churns, .coach,
  .settings, .pool, .life, .graphs, .holds, .chans, .reg .img, .reg .cch, .reg .dsp, .reg .clu, .reg .fltp]

/-- What a register write may change through the rule of the register written. -/
def Touch.access : List Comp := Touch.jobFault ++ [.fuses, .flash, .warmDue, .time, .ledger, .taskNext, .cores, .endpoints, .ctl,
  .service, .mgmt, .now, .sched, .slots, .reg .dev, .reg .pwr, .reg .sec, .reg .svc, .reg .lrl, .reg .ldg, .reg .chn, .reg .adp,
  .anyReg]

/-- What a reset of the whole device, or power, may change. -/
def Touch.board : List Comp := Touch.jobFault ++ [.pins, .phase, .warmDue, .loaded, .bundle, .power, .time, .ledger, .taskNext,
  .issueLast, .cores, .endpoints, .ctl, .service, .mgmt, .now, .sched, .slots, .reg .dev, .reg .pwr, .reg .sec, .reg .svc,
  .reg .lrl, .reg .ldg, .reg .chn, .reg .adp, .reg .cci, .anyReg]

/-- The parts of the state each command may change. Every other part, and every register outside the named blocks, is unchanged by it;
a statement says so of every command (`Obligations.Frame`). -/
def touches (c : Instr) : List Comp := match c with
  | .gemmTask .. => Touch.jobFault ++ [.time, .cores, .now, .sched, .slots, .reg .ldg]
  | .vecTask .. | .attnForward .. | .attnBackward .. | .attnVerify .. | .drainTimeout .. => Touch.jobFault ++ [.time, .cores, .now]
  | .copyTask .. | .skimEncode .. | .skimDecode .. | .skimCheck24 .. | .ctlWdogExpiry .. | .pageWalk .. | .xferWait .. | .xferWrite
      .. | .xferShard .. | .collReduceScatter .. | .collAllGather .. | .collAllReduce .. | .collBarrier .. | .ringWdogExpiry .. |
      .helloRequestReceive .. | .abortReceive .. | .rtoExpiry .. | .helloResendExpiry .. | .flowOpenResume | .portEnableWrite .. |
      .portLinkLoss .. | .portSignalLoss .. | .ccWdogExpiry .. | .spillWaitTimeout .. | .pinWaitTimeout .. | .quiesceTimeout =>
      Touch.jobFault ++ [.time, .now]
  | .skimmerTileServe .. => Touch.report ++ [.clusters, .reg .clu]
  | .skmDisableWrite .. => [.clusters, .reg .clu]
  | .dspLoad .. => Touch.report ++ [.settings, .pool, .life, .graphs, .holds, .sched, .chans, .slots, .reg .dsp]
  | .dspUnload .. => [.graphs, .reg .dsp]
  | .taskIssue => Touch.jobFault ++ [.time, .taskNext, .issueLast, .now]
  | .arraysFinish .. => [.ecc, .fltLog, .memLog, .pages, .tasks, .cores, .clusters, .mcasts, .pool, .reg .flt, .reg .mem,
      .reg .core, .reg .clu]
  | .linkBufferHandover .. => [.reg .core]
  | .arrayRampDown .. | .coreDrainedOff .. => [.cores, .reg .core]
  | .mcastBlockRead .. => Touch.report ++ [.mem, .tasks, .mcasts]
  | .taskComplete .. => Touch.store ++ [.free, .time, .pages, .ledger, .tasks, .clusters, .mcasts, .coach, .now, .settings, .pool,
      .life, .graphs, .holds, .sched, .chans, .slots, .reg .img, .reg .cch, .reg .dsp, .reg .ldg, .reg .clu]
  | .ctlDone .. => Touch.jobFault ++ [.time, .ledger, .now, .sched, .slots, .reg .ldg]
  | .cringHeadWrite .. => Touch.store ++ [.time, .now, .settings, .graphs, .holds, .reg .img, .reg .dsp]
  | .cbHeadWrite .. => Touch.store ++ [.holds, .reg .dsp]
  | .poolRecompute .. => [.graphs]
  | .pinWaitResume .. => [.ecc, .fltLog, .memLog, .pages, .walks, .tasks, .pool, .reg .flt, .reg .mem, .reg .core, .reg .clu]
  | .pageRef .. | .pageUnref .. | .pageRead .. => Touch.jobFault ++ [.time, .now, .reg .ldg]
  | .pageLowWrite .. | .ldgSqTailWrite .. => [.reg .ldg]
  | .memSlotGrant .. | .scrubRead | .writeQueueResume .. => [.mem, .ecc, .fltLog, .memLog, .reg .flt, .reg .mem, .reg .core]
  | .repairWrite => [.mem, .ecc]
  | .memLogPop => [.memLog, .bus]
  | .chnAppend .. | .chnPutAt .. | .chnContrib .. | .sendCreditResume .. | .sendSpill .. | .messageLand .. | .chnClose .. |
      .churnAdd .. | .xferAppend .. | .xferPutAt .. | .collContrib .. => Touch.jobFault ++ [.time, .endpoints, .ctl, .now,
      .reg .chn]
  | .selNext .. => [.endpoints, .bus, .chans, .reg .chn]
  | .selDone .. | .endpointFree .. => [.endpoints, .chans, .reg .chn]
  | .epHeadWrite .. => [.endpoints, .reg .chn]
  | .chnOpen .. => Touch.store ++ [.endpoints, .churns, .reg .chn]
  | .churnNoticePlace .. => Touch.store ++ [.endpoints, .landings, .churns, .chans, .reg .chn]
  | .dspRun .. => Touch.store ++ [.free, .time, .pages, .ledger, .taskNext, .mcasts, .now, .settings, .pool, .graphs, .holds,
      .sched, .slots, .reg .img, .reg .dsp, .reg .ldg, .reg .clu]
  | .ledgerStepTrigger .. => Touch.store ++ [.free, .time, .ledger, .taskNext, .mcasts, .now, .settings, .graphs, .holds, .sched,
      .reg .img, .reg .dsp, .reg .ldg]
  | .stepSettle .. => Touch.store ++ [.free, .pages, .ledger, .pool, .graphs, .holds, .sched, .slots, .reg .ldg, .reg .clu]
  | .gatePass .. | .budgetLeave .. => Touch.store ++ [.ledger, .sched, .reg .ldg]
  | .submit .. | .cancel .. | .extend .. | .pause .. | .resume .. | .release .. | .finish .. => Touch.store ++ [.free, .pages,
      .ledger, .coach, .pool, .holds, .sched, .slots, .reg .ldg, .reg .clu]
  | .ldgRqHeadWrite .. => Touch.store ++ [.ledger, .holds, .sched, .reg .ldg]
  | .ldgEntryRead .. => [.fltLog, .reg .flt, .reg .ldg]
  | .batchWindowExpiry .. | .batchDeadlineClose .. => Touch.store ++ [.time, .now, .sched, .reg .ldg]
  | .budgetEnter .. => [.time, .ledger, .now, .reg .ldg]
  | .pressureBegin .. => Touch.store ++ [.free, .time, .ledger, .now, .holds, .reg .ldg]
  | .pressureEnd .. => Touch.store ++ [.free, .ledger, .holds, .sched, .reg .ldg]
  | .deadlinePass .. => Touch.store ++ [.free, .time, .pages, .ledger, .now, .pool, .holds, .slots, .reg .ldg, .reg .clu]
  | .adpBind .. | .adpUnbind .. => [.slots, .reg .adp]
  | .adpPublish .. => Touch.store ++ [.slots, .reg .adp]
  | .adpAreaWrite .. => Touch.store ++ [.reg .adp]
  | .exportStart .. | .ackReceive .. | .helloReplyReceive .. => Touch.jobFault ++ [.time, .ledger, .now, .slots, .reg .ldg]
  | .dataFrameReceive .. => Touch.store ++ [.tasks, .coach, .reg .cch]
  | .abortResend | .ackDelayExpiry .. => [.time, .coach, .now]
  | .frameTransmit .. | .portTrainFail .. => [.coach, .reg .cch]
  | .flowIdleExpiry .. => [.time, .coach, .now, .reg .cch]
  | .portDetect .. => [.reg .cch]
  | .portTrained .. => [.reg .cch, .reg .core]
  | .portFailedRetry .. => [.time, .now, .reg .cch]
  | .linkDetect | .linkTrainTimeout | .replayTimerExpiry => [.time, .larric, .now, .reg .lrl]
  | .linkPartnerSeen .. | .linkLanesLock .. | .linkConfigDone .. | .flitReceive .. => [.larric, .reg .lrl]
  | .hostMemRd .. => Touch.jobFault ++ [.time, .now, .reg .lrl]
  | .flitTransmit => [.free, .larric]
  | .hostMemWr .. => Touch.report ++ [.mem, .reg .lrl]
  | .memCplReceive .. | .cplTimeout .. | .linkRetrainRelock .. | .linkRetrainTimeout => Touch.jobFault ++ [.time, .now, .reg .sec, .reg .lrl]
  | .intr .. | .lrlIrqRearmWrite .. => [.larric]
  | .imgErase | .imgCommit => [.flash, .reg .img]
  | .imgWrite => Touch.report ++ [.flash, .reg .img]
  | .imgReload .. => Touch.report ++ [.mem, .time, .now, .settings, .pool, .life, .graphs, .holds, .sched, .chans, .slots,
      .reg .img, .reg .fltp]
  | .partitionReset .. => [.ecc, .fltLog, .memLog, .pages, .walks, .tasks, .cores, .clusters, .mcasts, .endpoints, .landings,
      .churns, .coach, .ctl, .service, .settings, .pool, .life, .graphs, .holds, .sched, .chans, .slots, .reg .sec, .reg .flt,
      .reg .cch, .reg .mem, .reg .dsp, .reg .ldg, .reg .chn, .reg .adp, .reg .core, .reg .clu, .reg .cci, .reg .fltp]
  | .partitionResetComplete .. => Touch.store ++ [.free, .ledger, .ctl, .life, .holds, .reg .sec, .reg .ldg, .reg .fltp]
  | .fltResetPartition .. => [.fltLog, .life, .reg .flt, .reg .fltp]
  | .fltResetCore .. => [.fltLog, .cores, .reg .flt, .reg .core, .reg .fltp]
  | .deviceWarmReset .. => Touch.report ++ [.mem, .latched, .pins, .phase, .warmDue, .loaded, .bundle, .power, .pages, .walks,
      .ledger, .tasks, .taskNext, .issueLast, .cores, .clusters, .mcasts, .endpoints, .landings, .churns, .coach, .ctl, .service,
      .mgmt, .settings, .pool, .life, .graphs, .holds, .sched, .chans, .slots, .reg .dev, .reg .pwr, .reg .img, .reg .sec,
      .reg .svc, .reg .lrl, .reg .cch, .reg .dsp, .reg .ldg, .reg .chn, .reg .adp, .reg .clu, .reg .cci, .reg .fltp, .anyReg]
  | .fltResetDeviceWarm | .imgActivate | .ikWdogExpiry .. => Touch.jobFault ++ [.warmDue, .time, .now]
  | .coldReset | .moduleReset .. | .powerFail .. => Touch.board
  | .powerGood .. => [.pins]
  | .moduleResetRelease .. => [.mem, .latched, .pins, .phase, .loaded, .bundle, .ecc, .fltLog, .pages, .ledger, .cores, .service,
      .mgmt, .settings, .pool, .life, .graphs, .holds, .sched, .chans, .slots, .reg .dev, .reg .pwr, .reg .img, .reg .sec,
      .reg .flt, .reg .svc, .reg .lrl, .reg .cch, .reg .mem, .reg .core]
  | .repairApply => Touch.report ++ [.fuses, .reg .dev, .reg .fltp]
  | .fltLogPop => [.fltLog, .bus]
  | .fwErase | .fwCommit => [.flash, .reg .sec]
  | .fwWrite => Touch.report ++ [.flash, .reg .sec]
  | .fwActivate => Touch.jobFault ++ [.warmDue, .time, .now, .reg .sec]
  | .commitSvn .. => [.fuses, .reg .sec]
  | .fuseOwner => Touch.report ++ [.fuses, .reg .sec]
  | .attest .. => Touch.store ++ [.free, .reg .sec]
  | .idcert => Touch.store ++ [.reg .sec]
  | .partStart .. => [.ctl, .life, .reg .sec, .reg .fltp]
  | .sbiInfo .. | .sbiReloadStatus .. | .sbiFaultInfo .. | .cciWdogPet .. => [.ctl]
  | .sbiReload .. => Touch.report ++ [.mem, .time, .ctl, .now, .settings, .pool, .life, .graphs, .holds, .sched, .chans, .slots,
      .reg .img, .reg .fltp]
  | .sbiAttest .. => Touch.store ++ [.free, .ctl]
  | .sbiJobFault .. => Touch.jobFault ++ [.time, .ctl, .now]
  | .sbiSrst .. => [.fltLog, .ctl, .life, .reg .sec, .reg .flt, .reg .fltp]
  | .sbiHsmHartStart .. | .hartStop .. => [.ctl, .reg .sec]
  | .sagDetect .. | .sagClear .. | .currentSlowBegin .. | .currentSlowEnd .. | .droopAssert .. | .droopClear .. => [.power,
      .reg .pwr]
  | .thermtrip .. => Touch.jobFault ++ [.power, .time, .cores, .mgmt, .now, .reg .pwr]
  | .coreRampOnStart .. => [.power, .time, .cores, .now, .reg .pwr]
  | .coreOn .. => [.cores, .graphs]
  | .powerLoop .. => [.power, .ecc, .fltLog, .memLog, .pages, .walks, .tasks, .cores, .clusters, .mcasts, .mgmt, .pool, .graphs,
      .reg .pwr, .reg .flt, .reg .mem, .reg .core, .reg .clu]
  | .pwrCapSetWrite .. => [.reg .pwr]
  | .refLost .. => [.mgmt, .reg .dev, .reg .pwr]
  | .ppsEdge .. | .devTimeSetWrite .. => [.time, .reg .dev]
  | .keyTouch => [.service, .reg .svc]
  | .keyHoldSegment .. => [.time, .service, .now, .reg .svc]
  | .keyForceStopHold | .svcForceStop => Touch.jobFault ++ [.time, .service, .mgmt, .now, .reg .svc]
  | .keyRelease => Touch.jobFault ++ [.time, .ctl, .service, .mgmt, .now, .reg .sec, .reg .svc, .reg .ldg]
  | .svcQuiesce => [.service, .mgmt, .life, .reg .svc, .reg .dsp, .reg .ldg, .reg .fltp]
  | .svcResume => [.ctl, .service, .mgmt, .life, .reg .sec, .reg .svc, .reg .dsp, .reg .ldg, .reg .fltp]
  | .quiesceSettled | .forceStopComplete => Touch.jobFault ++ [.time, .mgmt, .now, .reg .svc]
  | .faultPatternExpiry .. => [.time, .now, .life]
  | .presenceChange .. => Touch.jobFault ++ [.time, .now, .reg .sec, .reg .svc, .reg .lrl]
  | .setEndpointId .. | .getEndpointId | .getEndpointUuid | .getMctpVersionSupport | .getMessageTypeSupport | .i3cDynamicAddress ..
      | .getTid | .setTid .. | .getPldmVersion .. | .getPldmTypes | .getPldmCommands .. | .sensorUpdate | .getPdrRepositoryInfo |
      .getPdr .. | .getSensorReading .. | .getStateSensorReadings .. | .getNumericEffecterValue .. | .setEventReceiver .. |
      .getFruRecordTableMetadata | .getFruRecordTable => [.mgmt]
  | .setNumericEffecterValue .. => [.mgmt, .reg .pwr]
  | .setStateEffecterStates .. => [.mgmt, .reg .svc]
  | .registerWrite .. | .doorbell .. => Touch.access
  | .rcCounterRead .. => [.free, .fltLog, .memLog, .larric, .endpoints, .ctl, .bus, .chans, .reg .flt, .reg .lrl, .reg .chn,
      .anyReg]
  | .regRd .. => [.free, .fltLog, .memLog, .larric, .endpoints, .bus, .chans, .reg .flt, .reg .lrl, .reg .chn, .anyReg]
  | .regWr .. => Touch.access ++ [.bus]

end Sys2Proof.Machine
end

