-- ==== Sys2Proof/Certificates/Slice0/Obligations.lean ====
section
/-!
DEFINITION. What the model of the block is claimed to do, as statements for the provers: what every command does, what it leaves alone,
what every step keeps, and what reset leaves.
-/
open Sys2Proof Sys2Proof.Machine

/-- For every command c and every state s whose queue begins with c, one step of s is exec of c on s with the rest of the queue.
  (The queue is the model's own field, log entry 2.) -/
def Obligations.StepRunsFrontCommand : Prop :=
  ∀ (c : Instr) (s : State) (q : List Instr), s.pending = c :: q → step s = exec c { s with pending := q }

/-- With an empty queue a step completes, the clock stands one nanosecond later, and registers, memory, tasks, ledger and ports
  are as before. That an idle step lasts a nanosecond is the model's choice (log entry 2), no rule of the spec. -/
def Obligations.EmptyQueueOneNanosecond : Prop :=
  ∀ s : State, s.pending = [] → ∃ t, step s = .next t ∧ t.now = s.now + 1 ∧ t.pending = [] ∧ t.regs = s.regs ∧ t.mem = s.mem ∧
    t.tasks = s.tasks ∧ t.ledger = s.ledger ∧ t.coach = s.coach

/-- State.reset is in canonical form (State.Inv: registers and both memories list nothing that reads the same unlisted, in
  rising order; the fault log holds at most 256 entries and the memory log at most 64), and its queue is empty. (The canonical
  form is the model's own.) -/
def Obligations.ResetMeetsInvariant : Prop :=
  State.reset.Inv ∧ State.reset.pending = []

/-- From every state that meets State.Inv (registers, device memory and host memory in canonical form, rising and listing no
  default; the fault log at most 256 entries, the memory log at most 64), whatever command stands in front, the state after a
  step meets it. The 256 entries are R551's and the 64 are the memory log's; the canonical form is the model's own. -/
def Obligations.EveryStepKeepsInvariant : Prop :=
  ∀ (s t : State), s.Inv → step s = .next t → t.Inv

/-- For every command c and every state s in canonical form, if exec answers next t, then every part of the state that touches c
  does not list is equal in s and t, every register outside the listed blocks reads the same, and the queue is unchanged. In
  particular a command whose list has no memory leaves every byte of device memory and host memory, and a command whose list has
  no partition subject leaves all partitions alone. touches is the model's own table of what each command's rules write. -/
def Obligations.EveryCommandKeepsItsFrame : Prop :=
  ∀ (c : Instr) (s t : State), s.Inv → exec c s = .next t → State.FrameOf (touches c) s t ∧ t.pending = s.pending

/-- For every step from any state: the variant, stepping, serial, disabled clusters and Swewyn key hash fuses are as before, an
  owner hash once programmed is kept, the firmware and image counters are not lower, entries of the fuse map once blown stay,
  and the model's clock is not earlier. -/
def Obligations.FusesNeverUnblowClockNeverRunsBack : Prop :=
  ∀ (s t : State), step s = .next t → s.fuses.Within t.fuses ∧ s.now ≤ t.now

/-- For every command and every state, exec answers a next state: no command of the model stops in a fault or a refusal. (What
  it does there the other statements say.) -/
def Obligations.EveryCommandCompletes : Prop :=
  ∀ (c : Instr) (s : State), ∃ t, exec c s = .next t ∧ t.pending = s.pending

/-- State.reset is the module without power: every register reads its reset value, there is no task, log entry, ledger entry,
  page-table entry, loaded image, firmware bundle or partition, MOD_ALIVE is low, and every byte of memory reads zero. That
  unwritten memory reads zero is the model's choice (log entry 5). -/
def Obligations.ResetStateIsUnpowered : Prop :=
  State.reset.phase = .off ∧ (∀ a, State.reset.rd a = regReset a) ∧ State.reset.tasks = [] ∧ State.reset.fltLog = [] ∧
    State.reset.ledger = [] ∧ State.reset.pages = [] ∧ State.reset.loaded = none ∧ State.reset.bundle = none ∧ State.reset.pins.modAlive = false ∧
    (∀ p, State.reset.defined p = false) ∧ ∀ a, readBytes State.reset.mem a 1 = [0]

/-- Encoding NaN gives 0x7FC0_0000 in FP32, 0x7FC0 in BF16, 0x7F in E4M3 and 0x7E in E5M2, and a block with a NaN derives the
  E8M0 scale 0xFF; every NaN code of FP32, BF16, E4M3 and E5M2, of either sign, any payload, quiet or signalling, reads as the
  one NaN, so what is written for it is the canonical code. -/
def Obligations.CanonicalNaN : Prop :=
  ((fp32.encode .nan).1 = 0x7FC00000 ∧ (bf16.encode .nan).1 = 0x7FC0 ∧ (e4m3.encode .nan).1 = 0x7F ∧ (e5m2.encode .nan).1 = 0x7E) ∧
  (∀ fmt xs, xs.any Num.isNan = true → (deriveBlock fmt xs).1 = 0xFF) ∧
  (∀ m, 0 < m → m < 2 ^ 23 → fp32.decode (0x7F800000 + m) = .nan ∧ fp32.decode (0xFF800000 + m) = .nan) ∧
  (∀ m, 0 < m → m < 2 ^ 7 → bf16.decode (0x7F80 + m) = .nan ∧ bf16.decode (0xFF80 + m) = .nan) ∧
  (e4m3.decode 0x7F = .nan ∧ e4m3.decode 0xFF = .nan) ∧ ∀ m, 0 < m → m < 4 → e5m2.decode (0x7C + m) = .nan ∧ e5m2.decode (0xFC + m) = .nan

/-- For every byte e below 255 the E8M0 value equals 2^(e-127); the byte 0xFF is NaN; no byte is negative, a zero or an
  infinity; it is what a stored E8M0 scale means, and no operand's format word may name E8M0 as its element format. -/
def Obligations.E8M0Values : Prop :=
  (∀ e, e < 255 → (elemVal 9 false e).eqv (.fin false 1 ((e : Int) - 127)) = true) ∧ elemVal 9 false 255 = .nan ∧
  (∀ e, e < 256 → (elemVal 9 false e).isZero = false ∧ ∀ n, elemVal 9 false e ≠ .inf n) ∧
  (∀ e m x, e < 256 → elemVal 9 false e ≠ .fin true m x) ∧
  (∀ w, w.scale = 1 → ∀ x, scaleVal w x = elemVal 9 false x) ∧
  ∀ w : FmtWord, w.fmt = 9 → aWordOk w = false ∧ bWordOk w = false ∧ cWordOk w = false ∧ dWordOk w = false

/-- COLD_RESET in every state, MODULE_RESET of at least 50 ns on a powered module, and POWER_FAIL (below 44 V for 50 µs, or
  above 58 V for 10 µs) leave the module held: every register but FLT_RESET_CAUSE at its reset value, LAST 0, 1 or 2, device
  time 0, MOD_ALIVE low, log and tasks gone, fuses and flash kept, and the pin as the command leaves it. POWER_GOOD on a held
  module between 46 V and 56 V sets the pins and nothing else. -/
def Obligations.ResetsHoldTheModule : Prop :=
  (∀ (s : State), ∃ t, exec .coldReset s = .next t ∧ HeldReset 0 s t ∧ t.pins.pwrGood = false) ∧
  (∀ (s : State) (ns : Nat), 50 ≤ ns → s.phase ≠ .off →
    ∃ t, exec (.moduleReset ns) s = .next t ∧ HeldReset 1 s t ∧ t.pins.modRstN = false) ∧
  (∀ (s : State) (mv us : Nat), s.phase ≠ .off → ((mv < 44000 ∧ 50 ≤ us) ∨ (58000 < mv ∧ 10 ≤ us)) →
    ∃ t, exec (.powerFail mv us) s = .next t ∧ HeldReset 2 s t ∧ t.pins.pwrGood = false ∧ t.pins.inputMv = mv) ∧
  (∀ (s : State) (mv : Nat), s.phase = .held → (46000 ≤ mv ∧ mv ≤ 56000) →
    exec (.powerGood mv) s = .next { s with pins := { s.pins with pwrGood := true, inputMv := mv } })

/-- MODULE_RESET_RELEASE on a held module with power good, and DEVICE_WARM_RESET with its cause standing, boot: the module runs
  with MOD_ALIVE high, the fuse map latched, fuses and device time kept, and a ROM that fails its check leaves it in recovery
  with reason 1 and no bundle or image; the release latches the address pins, the warm reset shows its cause in LAST. FLT_RESET
  DEVICE_WARM, IMG ACTIVATE and SEC FW_ACTIVATE, served and not busy, leave the warm reset due with their cause, the module
  still running. -/
def Obligations.BootsRunTheModule : Prop :=
  (∀ (s : State), s.Inv → ∀ (b : BootIn), s.phase = .held → s.pins.pwrGood = true →
    ∃ t, exec (.moduleResetRelease b) s = .next t ∧ Booted b s t ∧ t.pins.modRstN = true ∧ t.pins.addr = b.addr % 8) ∧
  (∀ (s : State), s.Inv → ∀ (b : BootIn) (c : WarmCause), s.warmDue = some c →
    ∃ t, exec (.deviceWarmReset b) s = .next t ∧ Booted b s t ∧ t.warmDue = none ∧ t.fd Rg.FLT_RESET_CAUSE_LAST = c.code) ∧
  (∀ (s : State), s.phase = .running → s.warmDue = none →
    ∃ t, exec .fltResetDeviceWarm s = .next t ∧ t.warmDue = some .fltReset ∧ t.phase = .running) ∧
  (∀ (s : State), s.serving = true → s.on Rg.IMG_STATUS_BUSY = false → s.on Rg.SEC_RESULT_BUSY = false →
    ∃ t, exec .imgActivate s = .next t ∧ t.warmDue = some .imgActivate ∧ t.phase = .running) ∧
  (∀ (s : State), s.secServed = true → s.on Rg.SEC_RESULT_BUSY = false →
    ∃ t, exec .fwActivate s = .next t ∧ t.warmDue = some .fwActivate ∧ t.phase = .running)

/-- PARTITION_RESET of a defined partition that is STOPPING with no abort record still held back, or RESETTING and not yet done,
  leaves it RESETTING with no task, graph, pool entry or endpoint, and memory as it was. PARTITION_RESET_COMPLETE makes it
  RUNNING if it has been started, not shut down and is not HELD, else IDLE. FLT_RESET PARTITION on an IDLE or RUNNING partition
  makes it RESETTING with reason 4 and touches no task or port. FLT_RESET CORE on a core that is Off runs its self-test (a
  failing cell makes it unusable); on any other core it sets CORE_BUSY and leaves the core. -/
def Obligations.PartitionAndCoreResets : Prop :=
  (∀ (s : State), s.Inv → ∀ (p : Nat) (cells : List ArrayCell), s.defined p = true → ((s.pstate p = 2 ∧ (s.part p).cringHold =
    []) ∨ (s.pstate p = 3 ∧ (s.part p).resetDone = false)) →
    ∃ t, exec (.partitionReset p cells) s = .next t ∧ t.pstate p = 3 ∧ t.tasksOf p = [] ∧ (t.part p).graphs = [] ∧ (t.part p).pool = [] ∧
    (t.part p).resetDone = true ∧ (∀ e ∈ t.endpoints, e.2.part ≠ p) ∧ t.mem = s.mem) ∧
  (∀ (s : State), s.Inv → ∀ (p : Nat), s.defined p = true → s.pstate p = 3 → (s.part p).resetDone = true →
    ∃ t, exec (.partitionResetComplete p) s = .next t ∧ (t.part p).resetDone = false ∧ (t.part p).why = 0 ∧
    t.pstate p = b2n ((s.part p).started && !(s.part p).shut && !s.on (Rg.FLT_PART_HELD p))) ∧
  (∀ (s : State), s.Inv → ∀ (p : Nat), s.defined p = true → s.pstate p < 2 →
    ∃ t, exec (.fltResetPartition p) s = .next t ∧ t.pstate p = 3 ∧ (t.part p).why = 4 ∧ (t.part p).resetDone = false ∧
    t.tasks = s.tasks ∧ t.coach = s.coach) ∧
  (∀ (s : State), s.Inv → ∀ (c : Nat) (cells : List ArrayCell), s.enabled.contains (c / 17) = true →
    ∃ t, exec (.fltResetCore c cells) s = .next t ∧
    ((s.core c).power = 0 → (t.core c).power = (if (List.range s.var.arrays).any (fun a => !(s.latched.failing cells c a).isEmpty) then 4 else 0)) ∧
    ((s.core c).power ≠ 0 → t.fd Rg.FLT_RESET_CAUSE_CORE_BUSY = 1 ∧ t.core c = s.core c))

/-- Where the watched condition stands, CC_WDOG_EXPIRY, SPILL_WAIT_TIMEOUT, PIN_WAIT_TIMEOUT, CTL_WDOG_EXPIRY and
  RING_WDOG_EXPIRY (XFER with RING, and COLL) raise a job fault with JOB_ABORTED on the partition (FLT_PART STOPPING, the cause,
  FAULT_ID one higher, FLT_IRQ.JOB_FAULT) and set FLT_IRQ.WDOG; the ring watchdog shows rank, device and step in CCH_WDOG.
  QUIESCE_TIMEOUT does so for the one partition not settled. IK_WDOG_EXPIRY leaves a device warm reset due, counts in EXPIRIES
  and sets WDOG. That WDOG is set with each row of R539 is the model's reading (log entry 79). -/
def Obligations.WatchdogsFaultTheirPartition : Prop :=
  (∀ (s : State), s.Inv → ∀ (n : Nat), n < 2 → s.phase = .running → s.bundle.isSome = true → s.warmDue = none →
    ∃ t, exec (.ikWdogExpiry n) s = .next t ∧ t.warmDue = some .ikWdog ∧ t.fd Rg.FLT_IRQ_WDOG = 1 ∧
    t.fd Rg.FLT_IK_WDOG_EXPIRIES = min (s.fd Rg.FLT_IK_WDOG_EXPIRIES + 1) 65535) ∧
  (∀ (s : State), s.Inv → ∀ (n p : Nat), s.ctlOwner n = some p → (s.ctlCore n).running = true → s.pstate p < 2 →
    ∃ t, exec (.ccWdogExpiry n) s = .next t ∧ FaultShown s t p stAborted ∧ t.fd Rg.FLT_IRQ_WDOG = 1) ∧
  (∀ (s : State), s.Inv → ∀ (p : Nat) (x : Send) (r : List Send), p < 12 → s.defined p = true → s.pstate p < 2 → (s.sender p
    33).queue = x :: r → x.full = true → x.task.isSome = true →
    ∃ t, exec (.spillWaitTimeout p) s = .next t ∧ FaultShown s t p stAborted ∧ t.fd Rg.FLT_IRQ_WDOG = 1) ∧
  (∀ (s : State), s.Inv → ∀ (t page : Nat) (w : WalkWait) (k : Task), (s.walks.find? (fun w => w.task == t && w.page == page) =
    some w) → s.task? t = some k → k.part < 12 → s.defined k.part = true → s.pstate k.part < 2 → (s.page page).drops = w.drops →
    ∃ u, exec (.pinWaitTimeout t page) s = .next u ∧ FaultShown s u k.part stAborted ∧ u.fd Rg.FLT_IRQ_WDOG = 1) ∧
  (∀ (s : State), s.Inv → ∀ (t : Nat) (k : Task), s.task? t = some k → k.kind = 8 → (k.parts.all (fun x => x.slot == 5) = true)
    → k.part < 12 → s.defined k.part = true → s.pstate k.part < 2 →
    ∃ u, exec (.ctlWdogExpiry t) s = .next u ∧ FaultShown s u k.part stAborted ∧ u.fd Rg.FLT_IRQ_WDOG = 1) ∧
  (∀ (s : State), s.Inv → ∀ (t t0 : Nat) (k k' : Task) (b : Bytes), s.task? t = some k → k.waitSince = some t0 → k.kind = 5 →
    s.portTask t 5 = some (k', b) → bitOf (fieldAt b 1 1) 1 = true → k.part < 12 → s.defined k.part = true → s.pstate k.part < 2
    → ∃ u, exec (.ringWdogExpiry t) s = .next u ∧ FaultShown s u k.part stAborted ∧ u.fd Rg.FLT_IRQ_WDOG = 1 ∧
    u.fd (Rg.CCH_WDOG_FIRED k.part) = 1 ∧ u.fd (Rg.CCH_WDOG_RANK k.part) = fieldAt b 40 2 % 8192 ∧
    u.fd (Rg.CCH_WDOG_DEV k.part) = s.rankDev k.part (fieldAt b 40 2) % 8192 ∧
    u.fd (Rg.CCH_WDOG_STEP k.part) = fieldAt b 42 2 % 65536) ∧
  (∀ (s : State), s.Inv → ∀ (t t0 r : Nat) (k k' : Task) (b : Bytes) (st : CollStep), s.task? t = some k → k.waitSince = some t0
    → k.kind = 6 → s.portTask t 6 = some (k', b) → s.rankOf k.part = some r → ((s.collOf k.part b).steps r)[k.stage]? = some st
    → k.part < 12 → s.defined k.part = true → s.pstate k.part < 2 →
    ∃ u, exec (.ringWdogExpiry t) s = .next u ∧ FaultShown s u k.part stAborted ∧ u.fd Rg.FLT_IRQ_WDOG = 1 ∧
    u.fd (Rg.CCH_WDOG_FIRED k.part) = 1 ∧ u.fd (Rg.CCH_WDOG_RANK k.part) = st.peer.getD 0 % 8192 ∧
    u.fd (Rg.CCH_WDOG_DEV k.part) = s.rankDev k.part (st.peer.getD 0) % 8192 ∧
    u.fd (Rg.CCH_WDOG_STEP k.part) = k.stage % 65536) ∧
  (∀ (s : State), s.Inv → ∀ (p t0 : Nat), s.service.quiesceAt = some t0 → s.fd Rg.SVC_STATE_MODE = 1 → p < 12 → s.defined p =
    true → s.pstate p = 1 → s.settled p = false → (∀ q, q < 12 → q ≠ p → s.defined q = true → s.pstate q = 0 ∨ s.settled q =
    true) → ∃ t, exec .quiesceTimeout s = .next t ∧ FaultShown s t p stAborted ∧ t.fd Rg.FLT_IRQ_WDOG = 1)

/-- DRAIN_TIMEOUT of a halted partition with a step running, of a graph being unloaded that still runs, and of a closing
  endpoint with a message landing raises a job fault with JOB_ABORTED on the partition and sets FLT_IRQ.WDOG. DRAIN_TIMEOUT of a
  draining core with work left switches it Off; CORE_DRAINED_OFF of a draining core whose slots 2 and 3 are free switches it
  Off. -/
def Obligations.DrainTimeoutsEndTheWait : Prop :=
  (∀ (s : State), s.Inv → ∀ (p t0 : Nat), p < 12 → s.defined p = true → s.pstate p < 2 → (s.part p).haltAt = some t0 → s.on
    (Rg.DSP_CTRL_HALT p) = true → s.anyRunning p = true →
    ∃ t, exec (.drainTimeout (.halt p)) s = .next t ∧ FaultShown s t p stAborted ∧ t.fd Rg.FLT_IRQ_WDOG = 1) ∧
  (∀ (s : State), s.Inv → ∀ (p tag t0 : Nat) (g : Graph), p < 12 → s.defined p = true → s.pstate p < 2 → s.graph? p tag = some g
    → g.unloadAt = some t0 → g.running = true →
    ∃ t, exec (.drainTimeout (.graph p tag)) s = .next t ∧ FaultShown s t p stAborted ∧ t.fd Rg.FLT_IRQ_WDOG = 1) ∧
  (∀ (s : State), s.Inv → ∀ (h : Nat) (e : Endpoint), find? s.endpoints h = some e → e.part < 12 → s.defined e.part = true →
    s.pstate e.part < 2 → e.closing = true → (s.landings.any (fun l => l.ep == h) = true) →
    ∃ t, exec (.drainTimeout (.endpoint h)) s = .next t ∧ FaultShown s t e.part stAborted ∧ t.fd Rg.FLT_IRQ_WDOG = 1) ∧
  (∀ (s : State) (c l : Nat), (s.core c).power = 3 → s.logCore c = some l → (s.partsOn l).isEmpty = false →
    ∃ t, exec (.drainTimeout (.core c)) s = .next t ∧ (t.core c).power = 0) ∧
  (∀ (s : State) (c l : Nat), (s.core c).power = 3 → s.logCore c = some l → s.slotFree l 2 = true → s.slotFree l 3 = true →
    ∃ t, exec (.coreDrainedOff c) s = .next t ∧ (t.core c).power = 0)

/-- With an entry in the fault log (memory log), FLT_LOG_POP (MEM_LOG_POP) changes nothing but the log, which loses its oldest
  entry, and the word read, which is that entry's last word. FAULT_PATTERN_EXPIRY ends the light-bar pattern of the partition's
  fault and keeps the reason. -/
def Obligations.LogReadsRemoveTheOldest : Prop :=
  (∀ (s : State) (e : FltEntry) (r : List FltEntry), s.fltLog = e :: r →
    exec .fltLogPop s = .next { s with fltLog := r, bus := BitVec.ofNat 64 e.h2 }) ∧
  (∀ (s : State) (e : MemEntry) (r : List MemEntry), s.memLog = e :: r →
    exec .memLogPop s = .next { s with memLog := r, bus := BitVec.ofNat 64 e.h1 }) ∧
  (∀ (s : State) (p t0 : Nat), (s.part p).faultAt = some t0 →
    ∃ t, exec (.faultPatternExpiry p) s = .next t ∧ (t.part p).faultAt = none ∧ (t.part p).why = (s.part p).why)

/-- On a running module: input below 47 V for more than 10 µs sets SAG and its interrupt, 48 V for 100 µs clears it; power above
  110 % of CAP_W sets CURRENT, power at or below CAP_W clears it; a droop detector stretches its island's clock, and 8 quiet
  cycles release it. -/
def Obligations.SagCurrentAndDroop : Prop :=
  (∀ (s : State), s.Inv → ∀ (mv us : Nat), s.phase = .running → mv < 47000 → 10 < us → s.on Rg.PWR_STATUS_SAG = false →
    ∃ t, exec (.sagDetect mv us) s = .next t ∧ t.fd Rg.PWR_STATUS_SAG = 1 ∧ t.fd Rg.PWR_IRQ_SAG = 1) ∧
  (∀ (s : State), s.Inv → ∀ (mv us : Nat), 48000 ≤ mv → 100 ≤ us → s.on Rg.PWR_STATUS_SAG = true →
    ∃ t, exec (.sagClear mv us) s = .next t ∧ t.fd Rg.PWR_STATUS_SAG = 0) ∧
  (∀ (s : State), s.Inv → ∀ (w : Nat), s.phase = .running → 11 * s.fd Rg.PWR_CAP_SET_CAP_W < 10 * w →
    ∃ t, exec (.currentSlowBegin w) s = .next t ∧ t.fd Rg.PWR_STATUS_CURRENT = 1) ∧
  (∀ (s : State), s.Inv → ∀ (w : Nat), s.on Rg.PWR_STATUS_CURRENT = true → w ≤ s.fd Rg.PWR_CAP_SET_CAP_W →
    ∃ t, exec (.currentSlowEnd w) s = .next t ∧ t.fd Rg.PWR_STATUS_CURRENT = 0) ∧
  (∀ (s : State) (k : Nat), s.phase = .running → s.power.stretched.contains k = false →
    ∃ t, exec (.droopAssert k) s = .next t ∧ t.power.stretched = s.power.stretched ++ [k]) ∧
  (∀ (s : State) (k n : Nat), 8 ≤ n → s.power.stretched.contains k = true →
    ∃ t, exec (.droopClear k n) s = .next t ∧ t.power.stretched = s.power.stretched.filter (· != k))

/-- A lost external reference clears REF_EXT and sets REF_LOST. DEV_TIME_SET sets device time at once and counts in TIME_SETS.
  PWR_CAP_SET takes a value in the settable range and refuses any other with REJECT, the cap kept. A PPS edge captures device
  time and counts; one with a value set that time; with PPS_EN and the error within WINDOW_US, and no edge too near, it advances
  time by the error or holds it, APPLIED 1; outside, nothing of time changes, APPLIED 0. The count's wrap and what an ill-timed
  edge does are the model's reading (log entry 83). -/
def Obligations.TimeAndCapCommands : Prop :=
  (∀ (s : State), s.Inv → ∀ (ns : Nat), s.phase = .running → 1000 ≤ ns → s.on Rg.DEV_TIME_CTRL_REF_EXT = true →
    ∃ t, exec (.refLost ns) s = .next t ∧ t.fd Rg.DEV_TIME_CTRL_REF_EXT = 0 ∧ t.fd Rg.PWR_IRQ_REF_LOST = 1) ∧
  (∀ (s : State), s.Inv → ∀ (v : W64), ∃ t, exec (.devTimeSetWrite v) s = .next t ∧ t.time.dev = v.toNat ∧
    t.fd Rg.DEV_PPS_STATS_TIME_SETS = (s.fd Rg.DEV_PPS_STATS_TIME_SETS + 1) % 65536) ∧
  (∀ (s : State), s.Inv → ∀ (v : W64), ∃ t, exec (.pwrCapSetWrite v) s = .next t ∧
    (s.var.capMin ≤ bitsOf v.toNat 0 12 ∧ bitsOf v.toNat 0 12 ≤ s.var.limitW → t.fd Rg.PWR_CAP_SET_CAP_W = bitsOf v.toNat 0 12) ∧
    (¬ (s.var.capMin ≤ bitsOf v.toNat 0 12 ∧ bitsOf v.toNat 0 12 ≤ s.var.limitW) →
      t.fd Rg.PWR_CAP_SET_CAP_W = s.fd Rg.PWR_CAP_SET_CAP_W ∧ t.fd Rg.PWR_CAP_SET_REJECT = 1)) ∧
  (∀ (s : State), s.Inv → ∀ (ns : Nat), s.phase = .running → 50 ≤ ns → ∀ (set : Option W64),
    ∃ t, exec (.ppsEdge ns set) s = .next t ∧ t.rd Rg.DEV_PPS_CAPTURE = BitVec.ofNat 64 s.time.dev ∧
    t.fd Rg.DEV_PPS_STATS_EDGES = (s.fd Rg.DEV_PPS_STATS_EDGES + 1) % 2 ^ 32 ∧
    (∀ v, set = some v → t.time.dev = v.toNat ∧ t.fd Rg.DEV_PPS_OFFSET_APPLIED = 0) ∧
    (set = none → s.on Rg.DEV_TIME_CTRL_PPS_EN = true → ppsError s.time.dev ≤ s.fd Rg.DEV_TIME_CTRL_WINDOW_US * 1000 → s.ppsNear = false →
      t.fd Rg.DEV_PPS_OFFSET_APPLIED = 1 ∧
      (s.time.dev < ppsSecond s.time.dev → t.time.dev = (s.time.dev + ppsError s.time.dev) % 2 ^ 64 ∧ t.time.hold = s.time.hold) ∧
      (¬ s.time.dev < ppsSecond s.time.dev → t.time.dev = s.time.dev ∧ t.time.hold = s.time.hold + ppsError s.time.dev)) ∧
    (set = none → s.fd Rg.DEV_TIME_CTRL_WINDOW_US * 1000 < ppsError s.time.dev ∨ s.ppsNear = true →
      t.fd Rg.DEV_PPS_OFFSET_APPLIED = 0 ∧ t.time = s.time))

/-- CORE_ON makes a ramping core On. CORE_RAMP_ON_START of a waiting core that is Off makes it ramp and keeps the starts of the
  last microsecond at 16 or fewer. THERMTRIP at 108 degrees or more on a running module leaves every core Off (or unusable),
  TRIP standing, status and interrupt set and the cluster shown. POWER_LOOP on a running module outside recovery shows BASE_W
  and grants links, memory and compute within CAP_W, or grants links and memory nothing. -/
def Obligations.CorePowerAndLoop : Prop :=
  (∀ (s : State) (c : Nat), (s.core c).power = 1 → ∃ t, exec (.coreOn c) s = .next t ∧ (t.core c).power = 2) ∧
  (∀ (s : State) (c : Nat), s.power.rampWait.contains c = true → (s.core c).power = 0 → s.power.trip = false →
    ∃ t, exec (.coreRampOnStart c) s = .next t ∧ (t.core c).power = 1 ∧ t.power.rampWait = s.power.rampWait.filter (· != c) ∧
    (s.power.rampTimes.length ≤ 16 → t.power.rampTimes.length ≤ 16)) ∧
  (∀ (s : State), s.Inv → ∀ (k c : Nat), s.phase = .running → 108 ≤ c →
    ∃ t, exec (.thermtrip k c) s = .next t ∧ t.power.trip = true ∧ (∀ e ∈ t.cores, e.2.power = 0 ∨ e.2.power = 4) ∧
    t.fd Rg.PWR_STATUS_THERMTRIP = 1 ∧ t.fd Rg.PWR_IRQ_THERMTRIP = 1 ∧ t.fd Rg.PWR_THERM_HOT_CLUSTER = k % 16) ∧
  (∀ (s : State), s.Inv → ∀ (m : PowerIn), s.phase = .running → s.inRecovery = false →
    ∃ t, exec (.powerLoop m) s = .next t ∧ t.fd Rg.PWR_BUDGET_BASE_W = m.baseW % 4096 ∧
    ∃ links memory compute, t.fd Rg.PWR_BUDGET_LINKS_W = links / 1000 % 4096 ∧ t.fd Rg.PWR_BUDGET_MEMORY_W = memory / 1000 % 4096 ∧
      t.fd Rg.PWR_BUDGET_COMPUTE_W = compute / 1000 % 4096 ∧
      (m.baseW * 1000 + links + memory + compute ≤ s.fd Rg.PWR_CAP_SET_CAP_W * 1000 ∨ (links = 0 ∧ memory = 0)))

/-- A touch shows KEY_HELD; while it lasts segment n lights at 1.25 (n+1) s. At 10 s held, before recovery and with MODE below
  STOPPING, it is a force stop: MODE STOPPING, its interrupt, every defined partition HELD. On release, with LOCK_KEY clear:
  under 50 ms nothing; 50 ms to 2 s toggles IDENTIFY, or, while QUIESCING, ends the quiesce; 2 s to 10 s in NORMAL requests a
  quiesce. -/
def Obligations.AttentionKey : Prop :=
  (∀ (s : State), s.Inv → s.phase = .running → s.service.touch = none →
    ∃ t, exec .keyTouch s = .next t ∧ t.service.touch = some s.now ∧ t.fd Rg.SVC_STATE_KEY_HELD = 1 ∧ t.fd Rg.SVC_STATE_HOLD_100MS = 0) ∧
  (∀ (s : State) (n t0 : Nat), n < 8 → s.service.touch = some t0 →
    ∃ t, exec (.keyHoldSegment n) s = .next t ∧ t.service.lit = max s.service.lit (n + 1) ∧ t.service.touch = some t0 ∧
    1250000000 * (n + 1) + t0 ≤ t.now) ∧
  (∀ (s : State), s.Inv → ∀ (t0 : Nat), s.service.touch = some t0 → s.service.forced = false → s.phase = .running →
    s.service.bootHalt = false → s.fd Rg.SEC_BOOT_STATUS_MODE = 0 → s.fd Rg.SVC_STATE_MODE < 3 →
    ∃ t, exec .keyForceStopHold s = .next t ∧ t.fd Rg.SVC_STATE_MODE = 3 ∧ t.fd Rg.SVC_IRQ_FORCE_STOP = 1 ∧
    ∀ p, p < 12 → s.defined p = true → t.fd (Rg.FLT_PART_HELD p) = 1) ∧
  (∀ (s : State), s.Inv → ∀ (t0 ms : Nat), s.service.touch = some t0 → s.service.forced = false → s.phase = .running → s.fd
    Rg.SEC_BOOT_STATUS_MODE = 0 → s.fd Rg.SVC_CFG_LOCK_KEY = 0 → (s.now - t0) / 1000000 = ms → ms < 10000 →
    ∃ t, exec .keyRelease s = .next t ∧ t.service.touch = none ∧
    (ms < 50 → t.fd Rg.SVC_STATE_IDENTIFY = s.fd Rg.SVC_STATE_IDENTIFY ∧ t.fd Rg.SVC_STATE_MODE = s.fd Rg.SVC_STATE_MODE) ∧
    (50 ≤ ms → ms < 2000 → s.fd Rg.SVC_STATE_MODE ≠ 1 → t.fd Rg.SVC_STATE_IDENTIFY = 1 - s.fd Rg.SVC_STATE_IDENTIFY) ∧
    (50 ≤ ms → ms < 2000 → s.fd Rg.SVC_STATE_MODE = 1 → s.service.bootHalt = false → t.fd Rg.SVC_STATE_MODE = 0) ∧
    (2000 ≤ ms → s.fd Rg.SVC_STATE_MODE = 0 → t.fd Rg.SVC_STATE_MODE = 1 ∧ t.fd Rg.SVC_IRQ_QUIESCE_REQ = 1))

/-- On a running module: QUIESCE in NORMAL makes MODE QUIESCING with QUIESCE_REQ and sets HELD and both HALT bits of every
  defined partition. RESUME in QUIESCING, SAFE or STOPPED (not a boot halt) makes MODE NORMAL and clears HELD. FORCE_STOP in a
  MODE below STOPPING makes it STOPPING with its interrupt and sets HELD. Once every defined partition is IDLE or settled,
  QUIESCE_SETTLED makes MODE SAFE; once every one is IDLE, FORCE_STOP_COMPLETE makes MODE STOPPED; both set SVC_IRQ.SAFE. -/
def Obligations.ServiceCommands : Prop :=
  (∀ (s : State), s.Inv → s.phase = .running → s.fd Rg.SVC_STATE_MODE = 0 →
    ∃ t, exec .svcQuiesce s = .next t ∧ t.fd Rg.SVC_STATE_MODE = 1 ∧ t.fd Rg.SVC_IRQ_QUIESCE_REQ = 1 ∧
    t.service.quiesceAt = some s.now ∧
    ∀ p, p < 12 → s.defined p = true →
      t.fd (Rg.FLT_PART_HELD p) = 1 ∧ t.fd (Rg.LDG_CTRL_HALT p) = 1 ∧ t.fd (Rg.DSP_CTRL_HALT p) = 1) ∧
  (∀ (s : State), s.Inv → s.phase = .running → s.service.bootHalt = false → (s.fd Rg.SVC_STATE_MODE = 1 ∨ s.fd Rg.SVC_STATE_MODE
    = 2 ∨ s.fd Rg.SVC_STATE_MODE = 4) →
    ∃ t, exec .svcResume s = .next t ∧ t.fd Rg.SVC_STATE_MODE = 0 ∧ t.service.quiesceAt = none ∧
    ∀ p, p < 12 → s.defined p = true → t.fd (Rg.FLT_PART_HELD p) = 0) ∧
  (∀ (s : State), s.Inv → s.phase = .running → s.service.bootHalt = false → s.fd Rg.SVC_STATE_MODE < 3 →
    ∃ t, exec .svcForceStop s = .next t ∧ t.fd Rg.SVC_STATE_MODE = 3 ∧ t.fd Rg.SVC_IRQ_FORCE_STOP = 1 ∧ t.service.quiesceAt = none ∧
    ∀ p, p < 12 → s.defined p = true → t.fd (Rg.FLT_PART_HELD p) = 1) ∧
  (∀ (s : State), s.Inv → s.fd Rg.SVC_STATE_MODE = 1 → (∀ p, p < 12 → s.defined p = true → s.pstate p = 0 ∨ s.settled p = true)
    → ∃ t, exec .quiesceSettled s = .next t ∧ t.fd Rg.SVC_STATE_MODE = 2 ∧ t.fd Rg.SVC_IRQ_SAFE = 1) ∧
  (∀ (s : State), s.Inv → s.fd Rg.SVC_STATE_MODE = 3 → (∀ p, p < 12 → s.defined p = true → s.pstate p = 0) →
    ∃ t, exec .forceStopComplete s = .next t ∧ t.fd Rg.SVC_STATE_MODE = 4 ∧ t.fd Rg.SVC_IRQ_SAFE = 1)

/-- PRESENCE_CHANGE of an empty cage of the variant that fills sets the port's PRESENT, the cage bit, its CHG bit and
  SVC_IRQ.PRESENCE. PRESENCE_CHANGE of the Larric connector (actor 8) sets LARRIC to the new presence, LARRIC_CHG and the
  interrupt, where the link is not up or the cable comes. -/
def Obligations.PresenceChanges : Prop :=
  (∀ (s : State), s.Inv → ∀ (n : Nat), s.phase = .running → n < s.var.ports → (s.fd Rg.SVC_PRESENCE_CAGE).testBit n = false →
    ∃ t, exec (.presenceChange n true) s = .next t ∧ t.fd (Rg.CCH_PORT_STATUS_PRESENT n) = 1 ∧ t.fd Rg.SVC_IRQ_PRESENCE = 1 ∧
    t.fd Rg.SVC_PRESENCE_CAGE = (s.fd Rg.SVC_PRESENCE_CAGE + 2 ^ n) % 256 ∧
    t.fd Rg.SVC_PRESENCE_CAGE_CHG = (s.fd Rg.SVC_PRESENCE_CAGE_CHG ||| 2 ^ n) % 256) ∧
  (∀ (s : State), s.Inv → ∀ (b : Bool), s.phase = .running → s.on Rg.SVC_PRESENCE_LARRIC = !b → (b = false → s.lrlState < 4) →
    ∃ t, exec (.presenceChange 8 b) s = .next t ∧ t.fd Rg.SVC_PRESENCE_LARRIC = b2n b ∧ t.fd Rg.SVC_PRESENCE_LARRIC_CHG = 1 ∧
    t.fd Rg.SVC_IRQ_PRESENCE = 1)

/-- Served over an active link and not busy: ERASE empties the target slot, reason 1, result 0. WRITE with an aligned host
  operand within the slot puts the host's bytes at OFFSET into the target slot. COMMIT shows the verdict of the checks; a
  verdict of 0 keeps the slot with reason 0, any other erases it with reason 1. RELOAD shows the verdict on the package in
  LAST_RESULT and IMG_RELOAD_p. (IMG_STATUS.BUSY is never seen set: commands complete within the step, log entry 40.) -/
def Obligations.ImageSlotCommands : Prop :=
  (∀ (s : State), s.Inv → s.serving = true → s.on Rg.IMG_STATUS_BUSY = false → s.on Rg.SEC_RESULT_BUSY = false →
    ∃ t, exec .imgErase s = .next t ∧ t.imgSlot (s.fd Rg.IMG_STATUS_TARGET) = [] ∧ t.fd (imgReason (s.fd Rg.IMG_STATUS_TARGET)) = 1 ∧
    t.fd Rg.IMG_STATUS_LAST_RESULT = 0) ∧
  (∀ (s : State), s.Inv → ∀ (a n : Nat), s.serving = true → s.on Rg.IMG_STATUS_BUSY = false → s.on Rg.SEC_RESULT_BUSY = false →
    s.ImgXfer a n → s.fd Rg.IMG_XFER_OFFSET_OFFSET % 8 = 0 → s.fd Rg.IMG_XFER_OFFSET_OFFSET + n ≤ 67108864 →
    ∃ t, exec .imgWrite s = .next t ∧ t.fd Rg.IMG_STATUS_LAST_RESULT = 0 ∧
    t.imgSlot (s.fd Rg.IMG_STATUS_TARGET) =
      slotWrite (s.imgSlot (s.fd Rg.IMG_STATUS_TARGET)) (s.fd Rg.IMG_XFER_OFFSET_OFFSET) (readBytes s.hostMem (a - windowBase) n)) ∧
  (∀ (s : State), s.Inv → s.serving = true → s.on Rg.IMG_STATUS_BUSY = false → s.on Rg.SEC_RESULT_BUSY = false → ∀ (k r : Nat),
    s.fd Rg.IMG_STATUS_TARGET = k → s.imgVerdict k = r → r < 256 →
    ∃ t, exec .imgCommit s = .next t ∧ t.fd Rg.IMG_STATUS_LAST_RESULT = r ∧ t.fd (imgReason k) = (if r = 0 then 0 else 1) ∧
    t.imgSlot k = (if r = 0 then s.imgSlot k else [])) ∧
  (∀ (s : State), s.Inv → ∀ (p a n : Nat), s.serving = true → s.on Rg.IMG_STATUS_BUSY = false → s.on Rg.SEC_RESULT_BUSY = false
    → s.ImgXfer a n → n ≤ 67108864 → p < 12 → ∀ (r : Nat), ((s.devRead 15 2 a n).st.reload p (readBytes s.hostMem (a -
    windowBase) n)).1 = r →
    ∃ t, exec (.imgReload p) s = .next t ∧ t.fd Rg.IMG_STATUS_LAST_RESULT = r % 256 ∧ t.fd (Rg.IMG_RELOAD_RESULT p) = r % 256)

/-- Served and not busy: FW_ERASE empties the target slot, reason 1. FW_WRITE puts the host's bytes at OFFSET into it. FW_COMMIT
  shows the verdict, keeps the slot on 0 and erases it otherwise, and on 0 shows IMG_AT_RISK. FLT_REPAIR of an aligned host
  operand of 305 to 809 bytes shows the verdict on it and blows the map it gives exactly when the verdict is 0. -/
def Obligations.FirmwareSlotAndRepairCommands : Prop :=
  (∀ (s : State), s.Inv → s.secServed = true → s.on Rg.IMG_STATUS_BUSY = false → s.on Rg.SEC_RESULT_BUSY = false →
    ∃ t, exec .fwErase s = .next t ∧ t.fwSlot (s.fd Rg.SEC_BOOT_STATUS_FW_TARGET) = [] ∧
    t.fd (fwReason (s.fd Rg.SEC_BOOT_STATUS_FW_TARGET)) = 1 ∧ t.fd Rg.SEC_RESULT_RESULT = 0 ∧ t.fd Rg.SEC_RESULT_DONE = 1) ∧
  (∀ (s : State), s.Inv → ∀ (a n : Nat), s.secServed = true → s.on Rg.IMG_STATUS_BUSY = false → s.on Rg.SEC_RESULT_BUSY = false
    → s.SecXfer a n → s.fd Rg.SEC_XFER_LEN_LEN = n → n % 8 = 0 → s.fd Rg.SEC_XFER_OFFSET_OFFSET % 8 = 0 → s.fd
    Rg.SEC_XFER_OFFSET_OFFSET + n ≤ 16777216 →
    ∃ t, exec .fwWrite s = .next t ∧ t.fd Rg.SEC_RESULT_RESULT = 0 ∧ t.fd Rg.SEC_RESULT_DONE = 1 ∧
    t.fwSlot (s.fd Rg.SEC_BOOT_STATUS_FW_TARGET) =
      slotWrite (s.fwSlot (s.fd Rg.SEC_BOOT_STATUS_FW_TARGET)) (s.fd Rg.SEC_XFER_OFFSET_OFFSET) (readBytes s.hostMem (a - windowBase) n)) ∧
  (∀ (s : State), s.Inv → s.secServed = true → s.on Rg.IMG_STATUS_BUSY = false → s.on Rg.SEC_RESULT_BUSY = false → ∀ (k r :
    Nat), s.fd Rg.SEC_BOOT_STATUS_FW_TARGET = k → s.fwVerdict k = r → r < 256 →
    ∃ t, exec .fwCommit s = .next t ∧ t.fd Rg.SEC_RESULT_RESULT = r ∧ t.fd Rg.SEC_RESULT_DONE = 1 ∧
    t.fd (fwReason k) = (if r = 0 then 0 else 1) ∧ t.fwSlot k = (if r = 0 then s.fwSlot k else []) ∧
    (r = 0 → t.fd Rg.SEC_BOOT_STATUS_IMG_AT_RISK = b2n (s.fwRisk k))) ∧
  (∀ (s : State), s.Inv → s.serving = true → s.on Rg.FLT_REPAIR_RESULT_BUSY = false → ∀ (a n : Nat), (s.rd
    Rg.FLT_REPAIR_HOST).toNat = a → s.fd Rg.FLT_REPAIR_LEN_LEN = n → (a % 8 = 0 ∧ windowBase ≤ a ∧ a < 2 ^ 48 ∧ 305 ≤ n ∧ n ≤
    809) → ∀ (c : Nat) (m : FuseMap), (s.devRead 15 2 a n).st.repairVerdict (s.devRead 15 2 a n) n = (c, m) →
    ∃ t, exec .repairApply s = .next t ∧ t.fd Rg.FLT_REPAIR_RESULT_RESULT = c ∧
    t.fuses = if c = 0 then { s.fuses with map := m } else s.fuses)

/-- Served, not busy and outside recovery: COMMIT_SVN raises the counter WHICH names to the running version and leaves the
  other; FUSE_OWNER with a nonzero 64-byte hash, when none is fused, blows it and shows OWNER_FUSED; ATTEST of the module or a
  defined partition writes the report on the nonce registers to host memory; IDCERT writes the certificate. -/
def Obligations.FusesAndAttestation : Prop :=
  (∀ (s : State), s.Inv → ∀ (w : Nat) (l : Loaded), s.secServed = true → s.on Rg.IMG_STATUS_BUSY = false → s.on
    Rg.SEC_RESULT_BUSY = false → s.on Rg.SEC_BOOT_STATUS_MODE = false → s.loaded = some l →
    ∃ t, exec (.commitSvn w) s = .next t ∧ t.fd Rg.SEC_RESULT_RESULT = 0 ∧
    t.fuses.imgCtr = (if w % 2 = 1 then max s.fuses.imgCtr (min l.svn 128) else s.fuses.imgCtr) ∧
    t.fuses.fwCtr = (if w % 2 = 1 then s.fuses.fwCtr else max s.fuses.fwCtr (s.fd Rg.SEC_SVN_FW_SVN))) ∧
  (∀ (s : State), s.Inv → ∀ (a : Nat), s.secServed = true → s.on Rg.IMG_STATUS_BUSY = false → s.on Rg.SEC_RESULT_BUSY = false →
    s.on Rg.SEC_BOOT_STATUS_MODE = false → s.SecXfer a 64 → allZero s.fuses.ownerHash = true → allZero (readBytes s.hostMem (a -
    windowBase) 64) = false →
    ∃ t, exec .fuseOwner s = .next t ∧ t.fuses.ownerHash = readBytes s.hostMem (a - windowBase) 64 ∧ t.fd Rg.SEC_BOOT_STATUS_OWNER_FUSED = 1 ∧
    t.fd Rg.SEC_RESULT_RESULT = 0) ∧
  (∀ (s : State), s.Inv → ∀ (w p a : Nat), s.secServed = true → s.on Rg.IMG_STATUS_BUSY = false → s.on Rg.SEC_RESULT_BUSY =
    false → s.on Rg.SEC_BOOT_STATUS_MODE = false → w % 16 = p → (p = 15 ∨ s.defined p = true) → ∀ (b : Bytes), (s.attReport (if
    p = 15 then 0xFF else p) ((List.range 4).flatMap fun k => toLe 8 (s.rd (Rg.SEC_ATT_NONCE k)).toNat) = b) → s.SecXfer a
    b.length →
    ∃ t, exec (.attest w) s = .next t ∧ t.hostMem = putBytes s.hostMem (a - windowBase) b ∧ t.fd Rg.SEC_RESULT_RESULT = 0) ∧
  (∀ (s : State), s.Inv → ∀ (a : Nat), s.secServed = true → s.on Rg.IMG_STATUS_BUSY = false → s.on Rg.SEC_RESULT_BUSY = false →
    s.SecXfer a s.flash.cert.length →
    ∃ t, exec .idcert s = .next t ∧ t.hostMem = putBytes s.hostMem (a - windowBase) s.flash.cert ∧ t.fd Rg.SEC_RESULT_RESULT = 0)

/-- START of a defined partition that is not started, below STOPPING and not HELD, starts its first control core at ENTRY with
  its number and the partition's in a0 and a1, and makes the partition RUNNING. A call by a running control core of partition p
  returns SBI_SUCCESS in a0 with: INFO p and the Innkeeper version; RELOAD_STATUS IMG_RELOAD_p; FAULT_INFO cause and FAULT_ID;
  RELOAD the verdict, also in IMG_RELOAD_p; ATTEST the report written at the address. RELOAD and ATTEST return
  SBI_ERR_INVALID_ADDRESS for an address the partition may not reach. -/
def Obligations.RuntimeStartAndCalls : Prop :=
  (∀ (s : State), s.Inv → ∀ (p n : Nat), s.defined p = true → s.on (Rg.SEC_PART_CTRL_RUNNING p) = false → s.phase = .running →
    s.pstate p < 2 → s.on (Rg.FLT_PART_HELD p) = false → (s.ctlOf p).head? = some n →
    ∃ t, exec (.partStart p) s = .next t ∧ (t.part p).started = true ∧ (t.part p).shut = false ∧ t.pstate p = 1 ∧
    t.ctlCore n = ⟨true, 1, (s.rd (Rg.SEC_PART_ENTRY p)).toNat, n, p, 0, s.now, 0⟩) ∧
  (∀ (s : State) (n p : Nat), s.Calls n p →
    ∃ t, exec (.sbiInfo n) s = .next t ∧ t.ctlCore n = { s.ctlCore n with a0 := 0, a1 := p, a2 := s.fwVersion }) ∧
  (∀ (s : State) (n p : Nat), s.Calls n p → ∃ t, exec (.sbiReloadStatus n) s = .next t ∧
    t.ctlCore n = { s.ctlCore n with a0 := 0, a1 := (s.rd (Rg.IMG_RELOAD p)).toNat, a2 := 0 }) ∧
  (∀ (s : State) (n p : Nat), s.Calls n p → ∃ t, exec (.sbiFaultInfo n) s = .next t ∧
    t.ctlCore n = { s.ctlCore n with a0 := 0, a1 := s.fd (Rg.FLT_PART_CAUSE p), a2 := s.fd (Rg.FLT_PART_FAULT_ID p) }) ∧
  (∀ (s : State), s.Inv → ∀ (n p : Nat) (a len : W64), s.Calls n p → ∀ (r : Nat), ∃ t, exec (.sbiReload n a len) s = .next t ∧
    (s.badPoint p a.toNat len.toNat ≠ none → (t.ctlCore n).a0 = sbiAddress) ∧
    (s.badPoint p a.toNat len.toNat = none → (s.devRead p 0 a.toNat len.toNat).code = 0 →
      ((s.devRead p 0 a.toNat len.toNat).st.reload p (s.devRead p 0 a.toNat len.toNat).data).1 = r →
      (t.ctlCore n).a0 = 0 ∧ (t.ctlCore n).a1 = r ∧ t.fd (Rg.IMG_RELOAD_RESULT p) = r % 256)) ∧
  (∀ (s : State) (n p : Nat) (nc dst : W64), s.Calls n p → ∃ t, exec (.sbiAttest n nc dst) s = .next t ∧
    (s.badPoint p nc.toNat 32 ≠ none ∨ s.badPoint p dst.toNat 516 ≠ none → (t.ctlCore n).a0 = sbiAddress) ∧
    (s.badPoint p nc.toNat 32 = none → s.badPoint p dst.toNat 516 = none → (s.devRead p 0 nc.toNat 32).code = 0 →
      t.mem = ((s.devRead p 0 nc.toNat 32).st.devWrite p 1 dst.toNat
        ((s.devRead p 0 nc.toNat 32).st.attReport p (s.devRead p 0 nc.toNat 32).data)).st.mem ∧
      (t.ctlCore n).a0 = 0))

/-- By a running core of partition p below STOPPING: JOB_FAULT with 0x20 or 0x30 raises a job fault with that cause, any other
  cause returns SBI_ERR_INVALID_PARAM. SRST 0 stops all cores of p until START; 1 or 2 resets the partition (RESETTING, reason
  3); others return INVALID_PARAM. HSM HART_START of a stopped core of p at an address p reaches starts it there with the
  argument; HART_STOP stops the caller, RUNNING standing while another core of p runs. CCI_WDOG restarts the caller's watchdog.
  -/
def Obligations.RuntimeFaultsAndHarts : Prop :=
  (∀ (s : State), s.Inv → ∀ (n p : Nat) (c : W64), s.Calls n p → s.pstate p < 2 → ∃ t, exec (.sbiJobFault n c) s = .next t ∧
    (c.toNat = 0x20 ∨ c.toNat = 0x30 → FaultShown s t p c.toNat) ∧
    (c.toNat ≠ 0x20 ∧ c.toNat ≠ 0x30 → t.ctlCore n = { s.ctlCore n with a0 := sbiParam, a1 := 0, a2 := 0 })) ∧
  (∀ (s : State), s.Inv → ∀ (n p k : Nat), s.Calls n p → s.pstate p < 2 → ∃ t, exec (.sbiSrst n k) s = .next t ∧
    (k = 0 → (t.part p).shut = true ∧ ∀ m ∈ s.ctlOf p, (t.ctlCore m).running = false) ∧
    (k = 1 ∨ k = 2 → t.pstate p = 3 ∧ (t.part p).why = 3 ∧ (t.part p).resetDone = false) ∧
    (2 < k → t.ctlCore n = { s.ctlCore n with a0 := sbiParam, a1 := 0, a2 := 0 })) ∧
  (∀ (s : State) (n p m : Nat) (a x : W64), s.Calls n p → s.ctlOwner m = some p → (s.ctlCore m).running = false → s.badPoint p
    a.toNat 4 = none →
    ∃ t, exec (.sbiHsmHartStart n m a x) s = .next t ∧ t.ctlCore m = ⟨true, 1, a.toNat, m, x.toNat, 0, s.now, 0⟩ ∧ (t.ctlCore n).a0 = 0) ∧
  (∀ (s : State), s.Inv → ∀ (n p : Nat), s.Calls n p → ∃ t, exec (.hartStop n) s = .next t ∧ (t.ctlCore n).running = false ∧
    t.fd (Rg.SEC_PART_CTRL_RUNNING p) = b2n ((s.ctlOf p).any fun m => m != n && (s.ctlCore m).running)) ∧
  (∀ (s : State) (n : Nat), ∃ t, exec (.cciWdogPet n) s = .next t ∧ t.ctlCore n = { s.ctlCore n with wdogAt := s.now })

/-- While the management interface serves: SET_ENDPOINT_ID with operation 0 or 1 and an EID of 8 to 254 takes it and returns it,
  else code 2 and no change; GET_ENDPOINT_ID returns it; GET_ENDPOINT_UUID a UUID from DEV_SERIAL; version support the
  configured version; message types 0 and 1. In I3C mode a dynamic address is taken. Nothing else of the state changes.
  Completion codes and layouts are DMTF's, presumed (log entry 81). -/
def Obligations.MctpControl : Prop :=
  (∀ (s : State) (op eid : Nat), s.mgmtAny = true → ∃ t, exec (.setEndpointId op eid) s = .next t ∧
    (op ≤ 1 ∧ 8 ≤ eid ∧ eid ≤ 254 → s.repliesWith { s.mgmt with eid := eid } 0 (toLe 1 eid) t) ∧
    (¬ (op ≤ 1 ∧ 8 ≤ eid ∧ eid ≤ 254) → s.repliesWith s.mgmt 2 [] t)) ∧
  (∀ (s : State), s.mgmtAny = true → ∃ t, exec .getEndpointId s = .next t ∧ s.repliesWith s.mgmt 0 (toLe 1 s.mgmt.eid) t) ∧
  (∀ (s : State), s.mgmtAny = true →
    ∃ t, exec .getEndpointUuid s = .next t ∧ s.repliesWith s.mgmt 0 (toLe 16 (Config.uuidOf (s.rd Rg.DEV_SERIAL).toNat)) t) ∧
  (∀ (s : State), s.mgmtAny = true →
    ∃ t, exec .getMctpVersionSupport s = .next t ∧ s.repliesWith s.mgmt 0 (toLe 4 (Config.mgmtVersion 256)) t) ∧
  (∀ (s : State), s.mgmtAny = true → ∃ t, exec .getMessageTypeSupport s = .next t ∧ s.repliesWith s.mgmt 0 [2, 0, 1] t) ∧
  (∀ (s : State) (a : Nat), s.mgmtAny = true → s.pins.i3cMode = true →
    exec (.i3cDynamicAddress a) s = .next { s with mgmt := { s.mgmt with i3cAddr := a % 128 } })

/-- While the management interface serves: GET_TID returns the TID; SET_TID takes 1 to 254, else code 2; version and commands
  are answered for the types 0, 2 and 4 and refused with 0x83 for others; GET_PLDM_TYPES returns those three. Codes and layouts
  are DMTF's, presumed (log entry 81). -/
def Obligations.PldmDiscovery : Prop :=
  (∀ (s : State), s.mgmtAny = true → ∃ t, exec .getTid s = .next t ∧ s.repliesWith s.mgmt 0 (toLe 1 s.mgmt.tid) t) ∧
  (∀ (s : State) (tid : Nat), s.mgmtAny = true → ∃ t, exec (.setTid tid) s = .next t ∧
    (1 ≤ tid ∧ tid ≤ 254 → s.repliesWith { s.mgmt with tid := tid } 0 [] t) ∧
    (¬ (1 ≤ tid ∧ tid ≤ 254) → s.repliesWith s.mgmt 2 [] t)) ∧
  (∀ (s : State) (ty : Nat), s.mgmtAny = true → ∃ t, exec (.getPldmVersion ty) s = .next t ∧
    (ty = 0 ∨ ty = 2 ∨ ty = 4 → s.repliesWith s.mgmt 0 (toLe 4 (Config.mgmtVersion ty)) t) ∧
    (¬ (ty = 0 ∨ ty = 2 ∨ ty = 4) → s.repliesWith s.mgmt 0x83 [] t)) ∧
  (∀ (s : State), s.mgmtAny = true → ∃ t, exec .getPldmTypes s = .next t ∧ s.repliesWith s.mgmt 0 [21, 0, 0, 0, 0, 0, 0, 0] t) ∧
  (∀ (s : State) (ty : Nat), s.mgmtAny = true → ∃ t, exec (.getPldmCommands ty) s = .next t ∧
    (ty = 0 ∨ ty = 2 ∨ ty = 4 → s.repliesWith s.mgmt 0 (bitmap 32 (pldmCommands ty)) t) ∧
    (¬ (ty = 0 ∨ ty = 2 ∨ ty = 4) → s.repliesWith s.mgmt 0x83 [] t))

/-- While the interface serves: the repository holds 19 records; each PDR, numeric sensor, state sensor 30 and effecter 40 is
  returned, others refused with 0x80 or 0x82; SET of effecter 40 takes a cap in the settable range, else REJECT and code 2; SET
  of effecter 41 takes IDENTIFY 0 or 1, else code 2; the event receiver is set or cleared; a sensor update takes every sensor's
  present value; the FRU table is the record of R572. Codes and layouts are DMTF's, presumed (log entry 81). -/
def Obligations.PldmPlatform : Prop :=
  (∀ (s : State), s.mgmtFull = true → ∃ t, exec .getPdrRepositoryInfo s = .next t ∧ s.repliesWith s.mgmt 0 [19, 0, 0, 0] t) ∧
  (∀ (s : State) (n : Nat), s.mgmtFull = true → ∃ t, exec (.getPdr n) s = .next t ∧
    (∀ k, (n, k) ∈ pdrs → s.repliesWith s.mgmt 0 (toLe 2 n ++ toLe 1 k ++
      (if n = 3 then toLe 2 (s.fd Rg.PWR_THERM_LIMIT_C) ++ toLe 2 108 else [])) t) ∧
    ((∀ k, (n, k) ∉ pdrs) → s.repliesWith s.mgmt 0x82 [] t)) ∧
  (∀ (s : State) (n : Nat), s.mgmtFull = true → ∃ t, exec (.getSensorReading n) s = .next t ∧
    (n ∈ numSensors → s.repliesWith s.mgmt 0 (toLe 4 (find (fun _ => 0) s.mgmt.sensors n)) t) ∧
    (n ∉ numSensors → s.repliesWith s.mgmt 0x80 [] t)) ∧
  (∀ (s : State) (n : Nat), s.mgmtAny = true → ∃ t, exec (.getStateSensorReadings n) s = .next t ∧
    (n = 30 → s.repliesWith s.mgmt 0 (toLe 1 s.sensor30) t) ∧ (n ≠ 30 → s.repliesWith s.mgmt 0x80 [] t)) ∧
  (∀ (s : State) (n : Nat), s.mgmtFull = true → ∃ t, exec (.getNumericEffecterValue n) s = .next t ∧
    (n = 40 → s.repliesWith s.mgmt 0 (toLe 2 (s.fd Rg.PWR_CAP_SET_CAP_W)) t) ∧ (n ≠ 40 → s.repliesWith s.mgmt 0x80 [] t)) ∧
  (∀ (s : State), s.Inv → ∀ (v : Nat), s.mgmtFull = true → ∃ t, exec (.setNumericEffecterValue 40 v) s = .next t ∧
    (s.var.capMin ≤ v ∧ v ≤ s.var.limitW → t.fd Rg.PWR_CAP_SET_CAP_W = v % 4096 ∧ t.mgmt.reply = [0]) ∧
    (¬ (s.var.capMin ≤ v ∧ v ≤ s.var.limitW) →
      t.fd Rg.PWR_CAP_SET_CAP_W = s.fd Rg.PWR_CAP_SET_CAP_W ∧ t.fd Rg.PWR_CAP_SET_REJECT = 1 ∧ t.mgmt.reply = [2])) ∧
  (∀ (s : State), s.Inv → ∀ (v : Nat), s.mgmtFull = true → ∃ t, exec (.setStateEffecterStates 41 v) s = .next t ∧
    (v < 2 → t.fd Rg.SVC_STATE_IDENTIFY = v ∧ t.mgmt.reply = [0]) ∧
    (¬ v < 2 → t.fd Rg.SVC_STATE_IDENTIFY = s.fd Rg.SVC_STATE_IDENTIFY ∧ t.mgmt.reply = [2])) ∧
  (∀ (s : State) (e : Bool) (a : Nat), s.mgmtFull = true → ∃ t, exec (.setEventReceiver e a) s = .next t ∧
    s.repliesWith { s.mgmt with receiver := if e then some (a % 256) else none } 0 [] t) ∧
  (∀ (s : State), s.mgmtFull = true →
    ∃ t, exec .sensorUpdate s = .next t ∧ ∀ n ∈ numSensors, find (fun _ => 0) t.mgmt.sensors n = s.sensorNow n) ∧
  (∀ (s : State), s.mgmtAny = true →
    ∃ t, exec .getFruRecordTableMetadata s = .next t ∧ s.repliesWith s.mgmt 0 (toLe 2 1 ++ toLe 4 s.fruRecord.length) t) ∧
  (∀ (s : State), s.mgmtAny = true → ∃ t, exec .getFruRecordTable s = .next t ∧ s.repliesWith s.mgmt 0 s.fruRecord t)

/-- Each training event in its state: DETECT from DOWN once boot has come far enough or in recovery; TRAIN on a partner; lanes
  that lock give the width and CONFIG, too few give DOWN and one more in TRAIN_FAILS, as the timeout does; CONFIG with four
  credits of 8 or more gives ACTIVE with sequence numbers 0, replay empty and the credits. In RETRAIN a relock of enough lanes
  gives ACTIVE at no greater width with the replay kept and started again; a third failure, or the timeout, gives DOWN, DOWNS
  one higher. -/
def Obligations.LarricTraining : Prop :=
  (∀ (s : State), s.Inv → s.phase = .running → s.fd Rg.LRL_STATUS_STATE = 0 → s.warmDue = none → (6 ≤ s.fd
    Rg.SEC_BOOT_STATUS_STAGE ∨ s.fd Rg.SEC_BOOT_STATUS_MODE = 1) →
    ∃ t, exec .linkDetect s = .next t ∧ t.fd Rg.LRL_STATUS_STATE = 1 ∧ t.larric.downAt = none ∧ s.now ≤ t.now) ∧
  (∀ (s : State), s.Inv → ∀ (n : Nat), s.fd Rg.LRL_STATUS_STATE = 1 → 4 ≤ n →
    ∃ t, exec (.linkPartnerSeen n) s = .next t ∧ t.fd Rg.LRL_STATUS_STATE = 2 ∧ t.larric.trainAt = s.now) ∧
  (∀ (s : State), s.Inv → ∀ (n : Nat), s.fd Rg.LRL_STATUS_STATE = 2 →
    ∃ t, exec (.linkLanesLock n) s = .next t ∧ t.fd Rg.LRL_STATUS_LANES_FAILED = 255 - n % 256 ∧
    (∀ w, s.widthOf n = some w → t.fd Rg.LRL_STATUS_STATE = 3 ∧ t.fd Rg.LRL_STATUS_WIDTH = w) ∧
    (s.widthOf n = none → t.fd Rg.LRL_STATUS_STATE = 0 ∧ t.fd Rg.LRL_STATUS_TRAIN_FAILS = min (s.fd Rg.LRL_STATUS_TRAIN_FAILS + 1) 255)) ∧
  (∀ (s : State), s.Inv → s.fd Rg.LRL_STATUS_STATE = 2 →
    ∃ t, exec .linkTrainTimeout s = .next t ∧ t.fd Rg.LRL_STATUS_STATE = 0 ∧
    t.fd Rg.LRL_STATUS_TRAIN_FAILS = min (s.fd Rg.LRL_STATUS_TRAIN_FAILS + 1) 255) ∧
  (∀ (s : State), s.Inv → ∀ (c : List Nat), s.fd Rg.LRL_STATUS_STATE = 3 → c.length = 4 → (∀ n ∈ c, 8 ≤ n) →
    ∃ t, exec (.linkConfigDone c) s = .next t ∧ t.fd Rg.LRL_STATUS_STATE = 4 ∧ t.larric.txSeq = 0 ∧ t.larric.rxSeq = 0 ∧
    t.larric.credInit = c ∧ t.larric.credUsed = [] ∧ t.larric.replay = []) ∧
  (∀ (s : State), s.Inv → ∀ (n : Nat), s.fd Rg.LRL_STATUS_STATE = 5 → ∃ t, exec (.linkRetrainRelock n) s = .next t ∧
    (∀ w, s.widthOf n = some w → t.fd Rg.LRL_STATUS_STATE = 4 ∧ t.fd Rg.LRL_STATUS_WIDTH = min w (s.fd Rg.LRL_STATUS_WIDTH) ∧ t.larric.resend = 0 ∧
      t.larric.replay = s.larric.replay) ∧
    (s.widthOf n = none → s.larric.attempts < 2 → t.fd Rg.LRL_STATUS_STATE = 5 ∧ t.larric.attempts = s.larric.attempts + 1) ∧
    (s.widthOf n = none → 2 ≤ s.larric.attempts → t.fd Rg.LRL_STATUS_STATE = 0 ∧ t.fd Rg.LRL_EVENTS_DOWNS = min (s.fd Rg.LRL_EVENTS_DOWNS + 1) 65535)) ∧
  (∀ (s : State), s.Inv → s.fd Rg.LRL_STATUS_STATE = 5 →
    ∃ t, exec .linkRetrainTimeout s = .next t ∧ t.fd Rg.LRL_STATUS_STATE = 0 ∧ t.fd Rg.LRL_STATUS_WIDTH = 0 ∧
    t.fd Rg.LRL_EVENTS_DOWNS = min (s.fd Rg.LRL_EVENTS_DOWNS + 1) 65535)

/-- On an ACTIVE link: a replay timer that expires with flits unacknowledged counts in REPLAYS and starts the replay, the fourth
  in a row going to RETRAIN. A received flit with a bad CRC counts in CRC_ERR and sends NAK, sequence kept; a DATA flit with the
  sequence expected advances it, another sends NAK. A transmitted slot advances the slot of 16, whose first carries no DATA; a
  slot under replay carries the flit of the replay buffer with its sequence. -/
def Obligations.LarricFlits : Prop :=
  (∀ (s : State), s.Inv → s.fd Rg.LRL_STATUS_STATE = 4 → s.larric.replay ≠ [] →
    ∃ t, exec .replayTimerExpiry s = .next t ∧ t.fd Rg.LRL_ERR_REPLAYS = min (s.fd Rg.LRL_ERR_REPLAYS + 1) 65535 ∧ t.larric.resend = 0 ∧
    (s.larric.replays < 3 → t.fd Rg.LRL_STATUS_STATE = 4) ∧ (3 ≤ s.larric.replays → t.fd Rg.LRL_STATUS_STATE = 5)) ∧
  (∀ (s : State), s.Inv → ∀ (b : Bytes), s.lrlActive = true → ∃ t, exec (.flitReceive b) s = .next t ∧
    (flitBad b = true → t.fd Rg.LRL_ERR_CRC_ERR = min (s.fd Rg.LRL_ERR_CRC_ERR + 1) (2 ^ 32 - 1) ∧ t.larric.nakSent = true ∧
      t.larric.rxSeq = s.larric.rxSeq) ∧
    (flitBad b = false → fieldAt b 0 1 = 1 → fieldAt b 2 2 = s.larric.rxSeq % 4096 → t.larric.rxSeq = s.larric.rxSeq + 1 ∧ t.larric.nakSent = false) ∧
    (flitBad b = false → fieldAt b 0 1 = 1 → fieldAt b 2 2 ≠ s.larric.rxSeq % 4096 → t.larric.rxSeq = s.larric.rxSeq ∧ t.larric.nakSent = true)) ∧
  (∀ (s : State), s.lrlActive = true → ∃ t, exec .flitTransmit s = .next t ∧ t.larric.slot = (s.larric.slot + 1) % 16 ∧
    (s.larric.slot = 0 → t.larric.txSeq = s.larric.txSeq ∧ t.larric.replay = s.larric.replay) ∧
    (∀ q b, s.larric.slot ≠ 0 → s.larric.replay[s.larric.resend]? = some (q, b) →
      t.larric.flit = s.larric.seal 1 (fieldAt b 0 1) q (b.drop 1) ∧ t.larric.resend = s.larric.resend + 1 ∧ t.larric.replay = s.larric.replay))

/-- On an ACTIVE link: a MEM_RD the host may make that meets no uncorrectable or poisoned codeword is answered with the bytes at
  the address; a MEM_WR it may make with room in the queues writes its bytes. A completion for no outstanding read counts in
  ACCESS_ERR; one with status 0 and the length asked ends the read and delivers the bytes; any other ends in a job fault
  UNCORRECTABLE on the reader's partition, as a completion timeout does, which counts in CPL_TIMEOUT. -/
def Obligations.LarricMemory : Prop :=
  (∀ (s : State) (p a n tag : Nat), s.lrlActive = true → s.recovery = false → badSpan a n = false → s.hostRefused (p % 16) a n =
    false → (s.hostRd (p % 16) a n tag).code ≠ 2 → (s.hostRd (p % 16) a n tag).poison = [] → exec (.hostMemRd p a n tag) s =
    .next ((s.hostRd (p % 16) a n tag).st.sendMsg 2 ⟨0x12, tag, p % 16, 0, n, a, (s.hostRd (p % 16) a n tag).data⟩)) ∧
  (∀ (s : State) (p a : Nat) (d : Bytes), s.lrlActive = true → s.recovery = false → badSpan a d.length = false → s.hostRefused
    (p % 16) a d.length = false → s.fullQueue a d.length = none → exec (.hostMemWr p a d) s =
    .next ((s.takeMsg fun m => m.mtype == 0x11 && m.addr == a && m.data == d).ramWrite (p % 16) 2 a d false)) ∧
  (∀ (s : State), s.Inv → ∀ (tag : Nat) (st : Nat) (d : Bytes), s.lrlActive = true →
    ∃ t, exec (.memCplReceive tag st d) s = .next t ∧
    (s.larric.tags.find? (fun o => o.tag == tag) = none → t.fd Rg.LRL_EVENTS_ACCESS_ERR = min (s.fd Rg.LRL_EVENTS_ACCESS_ERR + 1) 65535) ∧
    (∀ o, s.larric.tags.find? (fun o => o.tag == tag) = some o → st = 0 → d.length = o.len →
      t.larric.tags = s.larric.tags.filter (fun o => o.tag != tag) ∧ t.hostMem = putBytes s.hostMem o.addr d) ∧
    (∀ o, s.larric.tags.find? (fun o => o.tag == tag) = some o → ¬ (st = 0 ∧ d.length = o.len) → o.part < 12 → s.defined o.part = true →
      s.pstate o.part < 2 → FaultShown s t o.part stUncorr)) ∧
  (∀ (s : State), s.Inv → ∀ (tag : Nat) (o : OutRead), (s.larric.tags.find? (fun o => o.tag == tag) = some o) →
    ∃ t, exec (.cplTimeout tag) s = .next t ∧ t.fd Rg.LRL_EVENTS_CPL_TIMEOUT = min (s.fd Rg.LRL_EVENTS_CPL_TIMEOUT + 1) 65535 ∧
    (o.part < 12 → s.defined o.part = true → s.pstate o.part < 2 → FaultShown s t o.part stUncorr))

/-- On an ACTIVE link outside recovery, a source of the 64 whose mask bit is set, that is armed and whose condition stands,
  sends one INTR and is disarmed. A write to LRL_IRQ_REARM arms again the sources it names whose conditions do not stand. -/
def Obligations.LarricInterrupts : Prop :=
  (∀ (s : State) (n : Nat), s.lrlActive = true → n < 64 → bitOf (s.rd Rg.LRL_IRQ_MASK).toNat n = true → n ∉ s.larric.disarmed →
    s.recovery = false → s.irqCond n = true →
    ∃ t, exec (.intr n) s = .next t ∧ t.larric.disarmed = s.larric.disarmed ++ [n] ∧ t.larric.intrSeq = s.larric.intrSeq + 1) ∧
  (∀ (s : State) (v : W64), (∀ n, n < 64 → bitOf v.toNat n = true → s.irqCond n = false) →
    ∃ t, exec (.lrlIrqRearmWrite v) s = .next t ∧ t.larric.disarmed = s.larric.disarmed.filter (fun n => !bitOf v.toNat n))

/-- For a live partition: LOAD of a graph that passes every check stores it with RESULT 0. UNLOAD of no graph shows 5; of a
  running one shows 0 and marks it; of an idle one shows 0 and removes it. RUN of no graph or a broken one shows 5; halted or
  being unloaded 6; with a good block, the start checks passed and nothing taken, it starts the step and shows 0. -/
def Obligations.DispatcherGraphCommands : Prop :=
  (∀ (s : State), s.Inv → ∀ (p : Nat), s.live p = true → ∀ (g : Graph) (w : State), s.LoadsAs p g w →
    ∃ t, exec (.dspLoad p) s = .next t ∧ t.graph? p (fieldAt g.header 6 1) = some g ∧ t.fd (Rg.DSP_CMD_RESULT_RESULT p) = 0) ∧
  (∀ (s : State), s.Inv → ∀ (p tag : Nat), s.live p = true → ∃ t, exec (.dspUnload p tag) s = .next t ∧
    (s.graph? p tag = none → t.fd (Rg.DSP_CMD_RESULT_RESULT p) = 5) ∧
    (∀ g, s.graph? p tag = some g → g.running = true →
      t.fd (Rg.DSP_CMD_RESULT_RESULT p) = 0 ∧ t.graph? p tag = some { g with unloadAt := some (g.unloadAt.getD s.now) }) ∧
    (∀ g, s.graph? p tag = some g → g.run = none → t.fd (Rg.DSP_CMD_RESULT_RESULT p) = 0 ∧ t.graph? p tag = none)) ∧
  (∀ (s : State), s.Inv → ∀ (p tag : Nat), s.live p = true → ∃ t, exec (.dspRun p tag) s = .next t ∧
    (s.graph? p tag = none → t.fd (Rg.DSP_CMD_RESULT_RESULT p) = 5) ∧
    (∀ g, s.graph? p tag = some g → g.broken = true → t.fd (Rg.DSP_CMD_RESULT_RESULT p) = 5) ∧
    (∀ g, s.graph? p tag = some g → g.broken = false → s.on (Rg.DSP_CTRL_HALT p) = true ∨ g.unloadAt.isSome = true →
      t.fd (Rg.DSP_CMD_RESULT_RESULT p) = 6) ∧
    (∀ g b u v, s.graph? p tag = some g → g.broken = false → s.on (Rg.DSP_CTRL_HALT p) = false → g.unloadAt = none → g.idle = true → s.endHeld p tag = false →
      (s.schedOf p tag).taken = [] → (s.settleStep p tag).runBlock p g = (.ok b, u) → u.fd (Rg.DSP_CMD_ADDR_ADDR p) = g.stepAddr →
      u.triggerStep p tag 1 = (true, v) → t = v.dspDone p 0 0 ∧ t.fd (Rg.DSP_CMD_RESULT_RESULT p) = 0))

/-- TASK_ISSUE, where the first partition in rotation with a candidate is p and it goes to a core with a nonempty slice, makes p
  the last issued and counts in TASKS. ARRAYS_FINISH moves the executing task to the drain, the arrays idle.
  LINK_BUFFER_HANDOVER on a core with work moves one buffer of the links that move together from EMPTY to FULL or back.
  ARRAY_RAMP_DOWN takes each idle array one quarter down and counts those that reach zero. MCAST_BLOCK_READ by a group none of
  whose members is 64 blocks behind gives every member one more block. -/
def Obligations.IssueAndArrays : Prop :=
  (∀ (s : State), s.Inv → ∀ (k p : Nat), k < 12 → (s.issueLast + 1 + k) % 12 = p → (∀ j, j < k → s.nextIssue ((s.issueLast + 1 +
    j) % 12) = none) → ∀ (c : Cand) (lc : Nat), s.nextIssue p = some (c, .core lc false) → ∀ (g : Graph) (r : StepRun), s.graph?
    p c.tag = some g → g.run = some r → emptySlice (g.desc c.node) r.rows = false →
    ∃ t, exec .taskIssue s = .next t ∧ t.issueLast = p ∧
    t.fd (Rg.DSP_ISSUED_TASKS p) = min (s.fd (Rg.DSP_ISSUED_TASKS p) + 1) 281474976710655) ∧
  (∀ (s : State), s.Inv → ∀ (c : Nat) (k : Task) (x : TaskPart), s.inSlot c 2 = some (k, x) → s.slotFree c 3 = true → x.done =
    false → ∃ t, exec (.arraysFinish c) s = .next t ∧ t.fd (Rg.CORE_ARR_STATE_ACTIVE (s.physCore c)) = 0 ∧
    (t.core (s.physCore c)).idleAt = s.now ∧
    t.tasks = ((s.modTask k.id fun k => k.modPart x.idx fun x => { x with slot := 3 }).promote c).tasks) ∧
  (∀ (s : State), s.Inv → ∀ (c l : Nat), l < 6 → (l = 4 → s.var.affine = false) → ((s.tasks.any fun t => t.parts.any fun x =>
    x.core == some c && 1 ≤ x.slot && x.slot ≤ 3) = true) → ∀ (full empty : Nat → RF), (∀ m, full m = ⟨Rg.CORE_SEM_LINK_0
    (s.physCore c) + 8 * m, 0, 4⟩) → (∀ m, empty m = ⟨Rg.CORE_SEM_LINK_0 (s.physCore c) + 8 * m, 4, 4⟩) →
    ((∀ m ∈ s.linksMoved c l, s.fd (empty m) ≠ 0) → ∃ t, exec (.linkBufferHandover c l true) s = .next t ∧
      ∀ m ∈ s.linksMoved c l, t.fd (full m) = (s.fd (full m) + 1) % 16 ∧ t.fd (empty m) = s.fd (empty m) - 1) ∧
    ((∀ m ∈ s.linksMoved c l, s.fd (full m) ≠ 0) → ∃ t, exec (.linkBufferHandover c l false) s = .next t ∧
      ∀ m ∈ s.linksMoved c l, t.fd (empty m) = (s.fd (empty m) + 1) % 16 ∧ t.fd (full m) = s.fd (full m) - 1)) ∧
  (∀ (s : State), s.Inv → ∀ (c pc busy : Nat), s.physCore c = pc → (busy = if (s.inSlot c 2).isSome then s.fd
    (Rg.CORE_ARR_STATE_ACTIVE pc) else 0) → ∃ t, exec (.arrayRampDown c) s = .next t ∧
    (∀ a < s.var.arrays, t.array pc a =
      if bitOf busy a = false ∧ (s.array pc a).on s.now ≠ 0 then (s.array pc a).rampStep s.now else s.array pc a) ∧
    t.fd (Rg.CORE_ARR_RAMP_RAMP_DOWNS pc) = min (s.fd (Rg.CORE_ARR_RAMP_RAMP_DOWNS pc) +
      ((List.range s.var.arrays).filter fun a => !bitOf busy a && (s.array pc a).on s.now == 1).length) 4294967295) ∧
  (∀ (s : State) (g : Nat) (x : Mcast), s.mcasts[g]? = some x → x.members ≠ [] → (∀ z ∈ x.members, z.blocks < 64) → x.read <
    blocksOf x.len 32768 → ∃ t, exec (.mcastBlockRead g) s = .next t ∧
    t.mcasts = s.mcasts.set g { x with members := x.members.map fun z => { z with blocks := z.blocks + 1 }, read := x.read + 1 })

/-- TASK_COMPLETE removes a task that has done what R30 requires and leaves any other state unchanged. CTL_DONE of a cookie no
  CTL task waits on counts in CTL_STRAY; of a waiting task with an allowed status it completes it. Writes of DSP_CRING_HEAD and
  DSP_CB_HEAD set HEAD and drain what the ring held back. POOL_RECOMPUTE makes the prefill pool as many of the partition's cores
  as the rounded share of waiting tokens asks, within the image's bounds and the cores on. -/
def Obligations.CompletionAndRings : Prop :=
  (∀ (s : State) (n : Nat) (k : Task), s.task? n = some k →
    ∃ t, exec (.taskComplete n) s = .next t ∧ (k.mayFinish = true → t.task? n = none) ∧ (k.mayFinish = false → t = s)) ∧
  (∀ (s : State), s.Inv → ∀ (p : Nat) (v : W64) (c st : Nat), bitsOf v.toNat 0 32 = c → bitsOf v.toNat 32 8 = st →
    ∃ t, exec (.ctlDone p v) s = .next t ∧
    (s.ctlTask p c = none → t.fd (Rg.DSP_EVENTS_CTL_STRAY p) = min (s.fd (Rg.DSP_EVENTS_CTL_STRAY p) + 1) 1023) ∧
    (∀ k, s.ctlTask p c = some k → ctlStatusOk st = true → st ≠ stUncorr → t.task? k.id = none)) ∧
  (∀ (s : State), s.Inv → ∀ (p : Nat) (v : W64),
    ∃ t, exec (.cringHeadWrite p v) s = .next t ∧ t.fd (Rg.DSP_CRING_HEAD_HEAD p) = v.toNat % 4294967296 ∧
    (t.part p).cringHold = (State.ringDrain p (cring p) (s.part p).cringHold (s.setF (Rg.DSP_CRING_HEAD_HEAD p) v.toNat)).1) ∧
  (∀ (s : State), s.Inv → ∀ (p : Nat) (v : W64),
    ∃ t, exec (.cbHeadWrite p v) s = .next t ∧ t.fd (Rg.DSP_CB_HEAD_HEAD p) = v.toNat % 4294967296 ∧
    (t.part p).cbHold = (State.ringDrain p (cbring p) (s.part p).cbHold (s.setF (Rg.DSP_CB_HEAD_HEAD p) v.toNat)).1) ∧
  (∀ (s : State) (p : Nat), s.defined p = true → ∀ (bp bs c : Nat), s.poolTokens p 0 = bp → s.poolTokens p 1 = bs → (s.onCores
    p).length = c → ∃ t, exec (.poolRecompute p) s = .next t ∧ (t.poolCores p 0).length =
    min (min (max (if 0 < bp + bs then roundDiv (c * bp) (bp + bs) else (s.part p).poolT) (s.cfg p 164 2)) (s.cfg p 166 2)) c)

/-- With the record at LDG_SQ_HEAD naming an entry of the partition with that request ID, which accepts the operation: CANCEL
  marks a running or exporting entry and retires a waiting one; EXTEND takes the new length, at once or at the step end when
  running; PAUSE marks a running or paused entry and pauses a waiting one; RESUME clears the pause bit and, with none left, a
  ring entry runs; RELEASE frees the entry; FINISH marks a running entry, exports one with destinations, retires one without.
  SUBMIT refused by a check leaves the ledger; accepted, the free entry holds the request. -/
def Obligations.LedgerRecords : Prop :=
  (∀ (s : State), s.Inv → ∀ (p : Nat) (b : Bytes) (u : State), s.SqHas p 1 b u → ∃ t, exec (.submit p) s = .next t ∧
    (∀ r v, (u.incr (Rg.LDG_SQ_HEAD_HEAD p)).submitCheck p b = (r, v) → r ≠ 0 → t.ledger = s.ledger) ∧
    (∀ v i, (u.incr (Rg.LDG_SQ_HEAD_HEAD p)).submitCheck p b = (0, v) → v.freeEntry p = some i →
      (Entry.admitted b 0 0).Keeps (t.ent i) ∧ ((Entry.ofSubmit b).ring = true → (t.ent i).state = 3))) ∧
  (∀ (s : State), s.Inv → ∀ (p i : Nat) (b : Bytes) (u : State), s.SqFor p 2 i b u → ∃ t, exec (.cancel p) s = .next t ∧
    ((s.ent i).state = 3 ∨ (s.ent i).state = 5 → t.ent i = (s.ent i).mark 1) ∧
    ((s.ent i).state = 1 ∨ (s.ent i).state = 2 ∨ (s.ent i).state = 4 → (t.ent i).state = 6 ∨ (t.ent i).state = 0)) ∧
  (∀ (s : State), s.Inv → ∀ (p i : Nat) (b : Bytes) (u : State), s.SqFor p 3 i b u → ∀ (len : Nat), fieldAt b 28 4 = len →
    (s.ent i).extendBad len = 0 → ∃ t, exec (.extend p) s = .next t ∧
    ((s.ent i).state = 3 → t.ent i = { s.ent i with pendLen := some (len, fieldAt b 72 8) }) ∧
    ((s.ent i).state ≠ 3 → (t.ent i).reqId = (s.ent i).reqId ∧ (t.ent i).length = len)) ∧
  (∀ (s : State), s.Inv → ∀ (p i : Nat) (b : Bytes) (u : State), s.SqFor p 4 i b u → ∃ t, exec (.pause p) s = .next t ∧
    ((s.ent i).state = 3 → t.ent i = ((s.ent i).mark 32).mark 2) ∧ ((s.ent i).state = 4 → t.ent i = (s.ent i).mark 32) ∧
    ((s.ent i).state = 1 ∨ (s.ent i).state = 2 → (t.ent i).state = 4 ∧ bitOf (t.ent i).marks 5 = true)) ∧
  (∀ (s : State), s.Inv → ∀ (p i : Nat) (b : Bytes) (u : State), s.SqFor p 5 i b u →
    ∃ t, exec (.resume p) s = .next t ∧ (t.ent i).reqId = (s.ent i).reqId ∧ bitOf (t.ent i).marks 5 = false ∧
    (((s.ent i).unmark 5).held = true → t.ent i = (s.ent i).unmark 5) ∧
    (((s.ent i).unmark 5).held = false → (s.ent i).ring = true → (t.ent i).state = 3)) ∧
  (∀ (s : State), s.Inv → ∀ (p i : Nat) (b : Bytes) (u : State), s.SqFor p 6 i b u →
    ∃ t, exec (.release p) s = .next t ∧ t.ent i = Entry.free) ∧
  (∀ (s : State), s.Inv → ∀ (p i : Nat) (b : Bytes) (u : State), s.SqFor p 7 i b u → ∃ t, exec (.finish p) s = .next t ∧
    ((s.ent i).state = 3 → t.ent i = { s.ent i with finish := true }) ∧
    ((s.ent i).state ≠ 3 → 0 < (s.ent i).nDests → t.ent i = { s.ent i with state := 5, marks := (s.ent i).marks % 8 }) ∧
    ((s.ent i).state ≠ 3 → (s.ent i).nDests = 0 → (t.ent i).state = 6 ∨ (t.ent i).state = 0))

/-- LEDGER_STEP_TRIGGER of a formed, closed step on an idle graph triggers it, or returns its requests if the partition is
  halted, the graph unloads or is broken, or the trigger is refused. STEP_SETTLE of an ended step settles its requests, finishes
  an unload and forms the next step. GATE_PASS moves an ADMITTED entry to the queue outside budget mode, and keeps it at the
  gate in budget mode when it may not pass. BATCH_WINDOW_EXPIRY and BATCH_DEADLINE_CLOSE close the open step and count it
  FORMED. -/
def Obligations.LedgerStepsAndGate : Prop :=
  (∀ (s : State) (p tag : Nat) (g : Graph), s.live p = true → s.graph? p tag = some g → (s.schedOf p tag).taken ≠ [] →
    (s.schedOf p tag).openSince = none → g.idle = true → s.endHeld p tag = false → (∀ r, g.run = some r → r.settled = true) →
    ∃ t, exec (.ledgerStepTrigger p tag) s = .next t ∧
    (s.on (Rg.DSP_CTRL_HALT p) = true ∨ g.unloadAt.isSome = true ∨ g.broken = true → t = s.returnStep p tag) ∧
    (∀ ok u, s.on (Rg.DSP_CTRL_HALT p) = false → g.unloadAt = none → g.broken = false → s.triggerStep p tag 0 = (ok, u) →
      t = if ok then u else u.returnStep p tag)) ∧
  (∀ (s : State) (p tag : Nat) (g : Graph) (r : StepRun) (te : Nat), s.live p = true → s.graph? p tag = some g → g.run = some r
    → r.endAt = some te → r.source = 0 → ∃ t, exec (.stepSettle p tag) s = .next t ∧ (r.settled = true → t = s.formStep p tag) ∧
    (r.settled = false → t = (((((s.modGraph p tag fun g => { g with run := g.run.map fun r => { r with settled := true } }).modSched p tag
      fun x => { x with taken := [], rows := 0, openSince := none }).settleAll p r.step r.worst te
        ((s.schedOf p tag).taken.map fun x => (x.entry, x.need))).finishUnload p tag).formStep p tag))) ∧
  (∀ (s : State) (e p : Nat), s.ledgerOwner e = p → s.live p = true →
    ∃ t, exec (.gatePass e) s = .next t ∧ (t.ent e).reqId = (s.ent e).reqId ∧
    ((s.ent e).state = 1 → s.budgeting p = false → (t.ent e).state = 2 ∨ (t.ent e).state = 3) ∧
    ((s.ent e).state = 1 → s.budgeting p = true → s.firstAdmitted p e = false → (t.ent e).state = 1 ∧ (t.ent e).gated = true)) ∧
  (∀ (s : State), s.Inv → ∀ (p tag since : Nat) (g : Graph), s.graph? p tag = some g → s.live p = true → (s.schedOf p
    tag).openSince = some since → ∃ t, exec (.batchWindowExpiry p tag) s = .next t ∧ (t.schedOf p tag).openSince = none ∧
    t.fd (Rg.LDG_STEPS_FORMED p) = min (s.fd (Rg.LDG_STEPS_FORMED p) + 1) 4294967295) ∧
  (∀ (s : State), s.Inv → ∀ (p tag : Nat) (g : Graph), s.graph? p tag = some g → s.live p = true → (s.schedOf p
    tag).openSince.isSome = true → ((s.schedOf p tag).taken.foldl (fun m t => min m (s.ent t.entry).deadline) noTime ≠ noTime) →
    ∃ t, exec (.batchDeadlineClose p tag) s = .next t ∧ (t.schedOf p tag).openSince = none ∧
    t.fd (Rg.LDG_STEPS_FORMED p) = min (s.fd (Rg.LDG_STEPS_FORMED p) + 1) 4294967295)

/-- A write of LDG_SQ_TAIL that moves TAIL backward or beyond the ring is refused with SQ_BAD and TAIL kept; any other sets
  TAIL. A write of LDG_RQ_HEAD sets HEAD and drains the records held back. READ of an entry of the partition copies its 16 words
  to LDG_ENTRY_DATA with result 0; of another's shows 1. -/
def Obligations.LedgerRegisters : Prop :=
  (∀ (s : State), s.Inv → ∀ (p : Nat) (v : W64), s.defined p = true → ∀ (n d cur : Nat), bitsOf v.toNat 0 32 = n → (n +
    4294967296 - s.fd (Rg.LDG_SQ_HEAD_HEAD p)) % 4294967296 = d → (s.fd (Rg.LDG_SQ_TAIL_TAIL p) + 4294967296 - s.fd
    (Rg.LDG_SQ_HEAD_HEAD p)) % 4294967296 = cur → ∃ t, exec (.ldgSqTailWrite p v) s = .next t ∧
    (d < cur ∨ s.sqSize p < d → t.fd (Rg.LDG_IRQ_SQ_BAD p) = 1 ∧ t.fd (Rg.LDG_SQ_TAIL_TAIL p) = s.fd (Rg.LDG_SQ_TAIL_TAIL p)) ∧
    (cur ≤ d → d ≤ s.sqSize p → t.fd (Rg.LDG_SQ_TAIL_TAIL p) = n)) ∧
  (∀ (s : State), s.Inv → ∀ (p : Nat) (v : W64), s.defined p = true →
    ∃ t, exec (.ldgRqHeadWrite p v) s = .next t ∧ t.fd (Rg.LDG_RQ_HEAD_HEAD p) = bitsOf v.toNat 0 32 ∧
    (t.part p).rqHold = (State.rqDrain p (s.part p).rqHold (s.setF (Rg.LDG_RQ_HEAD_HEAD p) (bitsOf v.toNat 0 32))).1) ∧
  (∀ (s : State), s.Inv → ∀ (p e : Nat), s.defined p = true → ∃ t, exec (.ldgEntryRead p e) s = .next t ∧
    (s.ledgerOwner e ≠ p → t.fd (Rg.LDG_CMD_RESULT_RESULT p) = 1) ∧
    (s.ledgerOwner e = p → t.fd (Rg.LDG_CMD_RESULT_RESULT p) = 0 ∧
      ∀ j, j < 16 → t.rd (Rg.LDG_ENTRY_DATA p j) = BitVec.ofNat 64 (fieldAt (s.ent e).bytes (8 * j) 8)))

/-- BUDGET_ENTER sets BUDGET and its interrupt, notes the start and returns queued entries to the gate; BUDGET_LEAVE, with no
  entry waiting half the overload time, clears BUDGET and lets ADMITTED entries pass. PRESSURE_BEGIN pauses every waiting entry
  of a pressed customer and sets the interrupt; PRESSURE_END clears the PRESSURE bit of entries it holds. DEADLINE_PASS of a
  waiting entry retires a hard one and makes a soft one LATE with priority 15 and new queue time. -/
def Obligations.LedgerBudgetPressureDeadlines : Prop :=
  (∀ (s : State), s.Inv → ∀ (p : Nat), s.live p = true → s.budgeting p = false → s.waiting p ≠ [] →
    ∃ t, exec (.budgetEnter p) s = .next t ∧ t.fd (Rg.LDG_CTRL_BUDGET p) = 1 ∧ t.fd (Rg.LDG_IRQ_BUDGET p) = 1 ∧
    t.fd (Rg.LDG_BUDGET_START_START p) = t.time.dev ∧ ∀ j e, (j, e) ∈ s.waiting p → e.state = 2 → (t.ent j).state = 1) ∧
  (∀ (s : State), s.Inv → ∀ (p : Nat), s.live p = true → s.budgeting p = true → (∀ j e, (j, e) ∈ s.waiting p → s.time.dev ≤
    e.qtime + s.overload p / 2) →
    ∃ t, exec (.budgetLeave p) s = .next t ∧ t.fd (Rg.LDG_CTRL_BUDGET p) = 0 ∧ t.fd (Rg.LDG_IRQ_BUDGET p) = 1 ∧
    ∀ j e, (j, e) ∈ s.waiting p → e.state = 1 → (t.ent j).state = 2 ∨ (t.ent j).state = 3) ∧
  (∀ (s : State), s.Inv → ∀ (p d : Nat) (ds : List Nat), s.pressureTimes p = d :: ds → s.live p = true →
    ∃ t, exec (.pressureBegin p) s = .next t ∧ t.fd (Rg.LDG_IRQ_PRESSURE p) = 1 ∧
    ∀ j e, (j, e) ∈ s.entsOf p → s.pressed p (s.ent j) = true → (s.ent j).state = 1 ∨ (s.ent j).state = 2 → (t.ent j).state = 4) ∧
  (∀ (s : State) (p : Nat), s.live p = true → s.pressure p = false → (∀ k e, (k, e) ∈ s.entsOf p → (s.ent k).state ≠ 0) →
    ∃ t, exec (.pressureEnd p) s = .next t ∧
    ∀ j e, (j, e) ∈ s.entsOf p → bitOf e.marks 3 = true →
      (s.ent j).state = 3 ∨ (s.ent j).state = 4 ∧ ((s.ent j).unmark 3).held = true → bitOf (t.ent j).marks 3 = false) ∧
  (∀ (s : State) (e p : Nat), e < 4294967296 → s.ledgerOwner e = p → s.live p = true → (s.ent e).deadline ≠ noTime → ((s.ent
    e).state = 1 ∨ (s.ent e).state = 2 ∨ (s.ent e).state = 4) → bitOf (s.ent e).marks 2 = false →
    ∃ t, exec (.deadlinePass e) s = .next t ∧
    ((s.ent e).hard = true → (t.ent e).state = 6 ∨ (t.ent e).state = 0) ∧
    ((s.ent e).hard = false → t.ent e = { (s.ent e).mark 4 with effPrio := 15, qtime := t.time.dev }))

/-- BIND beyond the quota shows 1, of a bound slot 2, of a customer bound elsewhere 4, else binds it with 0. UNBIND beyond the
  quota 1, of a free slot 3, of one in use 5, else frees it with 0. PUBLISH whose previous generation is in use shows 6; with a
  header and padding that pass and the write done, it makes the new generation current with 0. ADP_AREA is taken only while no
  slot is bound. -/
def Obligations.AdapterCommands : Prop :=
  (∀ (s : State), s.Inv → ∀ (p slot customer : Nat), s.defined p = true → ∃ t, exec (.adpBind p slot customer) s = .next t ∧
    (s.adQuota p ≤ slot → t.fd (Rg.ADP_CMD_RESULT_RESULT p) = 1) ∧
    (slot < s.adQuota p → (s.adSlot p slot).customer ≠ none → t.fd (Rg.ADP_CMD_RESULT_RESULT p) = 2) ∧
    (slot < s.adQuota p → (s.adSlot p slot).customer = none → (∃ a ∈ (s.part p).adapters, a.2.customer = some customer) →
      t.fd (Rg.ADP_CMD_RESULT_RESULT p) = 4) ∧
    (slot < s.adQuota p → (s.adSlot p slot).customer = none → (∀ a ∈ (s.part p).adapters, a.2.customer ≠ some customer) →
      t.fd (Rg.ADP_CMD_RESULT_RESULT p) = 0 ∧ t.adSlot p slot = { s.adSlot p slot with customer := some customer })) ∧
  (∀ (s : State), s.Inv → ∀ (p slot : Nat), s.defined p = true → ∃ t, exec (.adpUnbind p slot) s = .next t ∧
    (s.adQuota p ≤ slot → t.fd (Rg.ADP_CMD_RESULT_RESULT p) = 1) ∧
    (slot < s.adQuota p → (s.adSlot p slot).customer = none → t.fd (Rg.ADP_CMD_RESULT_RESULT p) = 3) ∧
    (slot < s.adQuota p → (s.adSlot p slot).customer ≠ none → (∃ x ∈ (s.adSlot p slot).counts, x.2 ≠ 0) →
      t.fd (Rg.ADP_CMD_RESULT_RESULT p) = 5) ∧
    (slot < s.adQuota p → (s.adSlot p slot).customer ≠ none → (∀ x ∈ (s.adSlot p slot).counts, x.2 = 0) →
      t.fd (Rg.ADP_CMD_RESULT_RESULT p) = 0 ∧ t.adSlot p slot = { s.adSlot p slot with customer := none })) ∧
  (∀ (s : State), s.Inv → ∀ (p slot : Nat), s.defined p = true → slot < s.adQuota p → (s.adSlot p slot).customer ≠ none → s.fd
    (Rg.ADP_AREA_BASE p) ≠ 0 → ∃ t, exec (.adpPublish p slot) s = .next t ∧
    ((s.adSlot p slot).prev ≠ 0 → find (fun _ => 0) (s.adSlot p slot).counts (s.adSlot p slot).prev ≠ 0 →
      t.fd (Rg.ADP_CMD_RESULT_RESULT p) = 6) ∧
    (∀ h b u v, ((s.adSlot p slot).prev = 0 ∨ find (fun _ => 0) (s.adSlot p slot).counts (s.adSlot p slot).prev = 0) →
      s.blk p (s.fd (Rg.ADP_CMD_ADDR_ADDR p)) 16 = (some h, u) → adHeadOk h = true →
      u.blk p (s.fd (Rg.ADP_CMD_ADDR_ADDR p)) (16 + fieldAt h 4 2 * adLayerBytes (fieldAt h 6 1)) = (some b, v) → adPadOk b = true →
      (v.devWrite p 1 (s.fd (Rg.ADP_AREA_BASE p) + 32768 * (2 * slot + nextGen (s.adSlot p slot).cur % 2)) b).code = 0 →
      t.fd (Rg.ADP_CMD_RESULT_RESULT p) = 0 ∧
        t.adSlot p slot = { s.adSlot p slot with cur := nextGen (s.adSlot p slot).cur, prev := (s.adSlot p slot).cur })) ∧
  (∀ (s : State), s.Inv → ∀ (p : Nat) (v : W64), s.defined p = true → ∃ t, exec (.adpAreaWrite p v) s = .next t ∧
    ((∃ a ∈ (s.part p).adapters, a.2.customer.isSome = true) → t = s) ∧
    ((∀ a ∈ (s.part p).adapters, a.2.customer = none) → t.rd (Rg.ADP_AREA p) = v))

/-- For a good frame at port n: DATA of no flow is refused; of a wrong partition, job or operation counts in TAG_DROP; beyond
  the credit counts in CREDIT_DROP; a WRITE within the credit to an address of the partition stores its payload. ACK outside the
  window changes nothing; within it acknowledges the frames below it and takes the credit. HELLO requests are refused (a
  mismatch faults the partition) or open the flow with credit; a reply opens the sending flow with its credit or ends it with a
  fault. ABORT of another job counts in TAG_DROP, a copy seen before counts as DUPLICATE, a new one faults the partition.
  ABORT_RESEND queues the copy on its port. -/
def Obligations.CoachReceive : Prop :=
  (∀ (s : State), s.Inv → ∀ (n : Nat) (w : WireFrame) (f : Frame) (u : State), s.frameIn n w = (some f, u) → f.type = 1 →
    ∃ t, exec (.dataFrameReceive n w) s = .next t ∧
    (s.coach.rx.find? (fun e => e.2.srcDev == f.src && e.2.spart == f.spart && e.2.flow == f.flow) = none →
      t.fd Rg.CCH_FLOWS_REFUSED = min (s.fd Rg.CCH_FLOWS_REFUSED + 1) 65535) ∧
    (∀ k x, s.coach.rx.find? (fun e => e.2.srcDev == f.src && e.2.spart == f.spart && e.2.flow == f.flow) = some (k, x) →
      x.part ≠ f.dpart ∨ s.jobId x.part ≠ f.job ∨ f.op ≠ 1 →
      t.fd (Rg.CCH_PORT_DROP_TAG_DROP n) = min (s.fd (Rg.CCH_PORT_DROP_TAG_DROP n) + 1) 65535) ∧
    (∀ k x, s.coach.rx.find? (fun e => e.2.srcDev == f.src && e.2.spart == f.spart && e.2.flow == f.flow) = some (k, x) →
      x.part = f.dpart → s.jobId x.part = f.job → f.op = 1 → s.rx? k = some x →
      min 256 ((x.credit + 2 ^ 32 - x.ack) % 2 ^ 32) ≤ (f.psn + 2 ^ 32 - x.ack) % 2 ^ 32 →
      (f.psn + 2 ^ 32 - x.ack) % 2 ^ 32 < 2 ^ 31 →
      t.fd (Rg.CCH_PORT_RETX_CREDIT_DROP n) = min (s.fd (Rg.CCH_PORT_RETX_CREDIT_DROP n) + 1) 65535) ∧
    (∀ k x, s.coach.rx.find? (fun e => e.2.srcDev == f.src && e.2.spart == f.spart && e.2.flow == f.flow) = some (k, x) →
      x.part = f.dpart → s.jobId x.part = f.job → f.op = 1 → s.rx? k = some x →
      (f.psn + 2 ^ 32 - x.ack) % 2 ^ 32 < min 256 ((x.credit + 2 ^ 32 - x.ack) % 2 ^ 32) →
      s.ownRange x.part f.addr f.payload.length = true → t.mem = (s.devWrite x.part 2 f.addr f.payload).st.mem)) ∧
  (∀ (s : State) (n : Nat) (w : WireFrame) (f : Frame) (u : State), s.frameIn n w = (some f, u) → f.type = 2 → ∀ (k : Nat) (x :
    TxFlow), s.txNamed f = some (k, x) → ∀ (ack lim : Nat), fieldAt f.payload 0 4 = ack → fieldAt f.payload 4 4 = lim →
    ∃ t, exec (.ackReceive n w) s = .next t ∧
    (psnIn x.base ((x.nextPsn + 1) % 2 ^ 32) ack = false → t = s) ∧
    (psnIn x.base ((x.nextPsn + 1) % 2 ^ 32) ack = true → x.exp = none → ∃ g, t.tx? k = some g ∧
      g.credit = (if psnIn x.credit ((x.credit + 2 ^ 31) % 2 ^ 32) lim then lim else x.credit) ∧
      g.unacked.map (·.frame) = (x.unacked.map (·.frame)).filter fun r => !psnIn x.base ack r.psn)) ∧
  (∀ (s : State), s.Inv → ∀ (n : Nat) (w : WireFrame) (f : Frame) (u : State), s.frameIn n w = (some f, u) → f.type = 4 →
    fieldAt f.payload 1 1 = 0 → ∃ t, exec (.helloRequestReceive n w) s = .next t ∧
    (fieldAt f.payload 0 1 = 1 ∨ s.helloReason f = 1 ∨ s.helloReason f = 2 → t.fd Rg.CCH_FLOWS_REFUSED = min (s.fd Rg.CCH_FLOWS_REFUSED + 1) 65535) ∧
    (fieldAt f.payload 0 1 ≠ 1 → s.helloReason f = 3 ∨ s.helloReason f = 4 → f.dpart < 12 → s.defined f.dpart = true → s.pstate f.dpart < 2 →
      FaultShown s t f.dpart stAborted) ∧
    (∀ k x, fieldAt f.payload 0 1 ≠ 1 → s.helloReason f = 0 →
      s.coach.rx.find? (fun e => e.2.srcDev == f.src && e.2.spart == f.spart && e.2.flow == f.flow) = some (k, x) →
      t.rx? k = some ⟨f.src, f.spart, f.flow, f.dpart, f.job, n, 0, s.flowCredit, s.flowCredit, [], 0, none, 0, s.now⟩)) ∧
  (∀ (s : State), s.Inv → ∀ (n : Nat) (w : WireFrame) (f : Frame) (u : State), s.frameIn n w = (some f, u) → f.type = 4 →
    fieldAt f.payload 1 1 ≠ 0 → ∀ (k : Nat) (x : TxFlow), s.txNamed f = some (k, x) →
    ∃ t, exec (.helloReplyReceive n w) s = .next t ∧
    (fieldAt f.payload 1 1 = 1 → x.opened = true → t = s) ∧
    (fieldAt f.payload 1 1 = 1 → x.opened = false → x.exp = none →
      ∃ g, t.tx? k = some g ∧ g.opened = true ∧ g.credit = fieldAt f.payload 12 4) ∧
    (fieldAt f.payload 1 1 ≠ 1 → x.opened = false → inRange (fieldAt f.payload 2 1) 2 4 = true → x.part < 12 → s.defined x.part = true →
      s.pstate x.part < 2 → t.tx? k = none ∧ FaultShown s t x.part stAborted)) ∧
  (∀ (s : State), s.Inv → ∀ (n : Nat) (w : WireFrame) (f : Frame) (u : State), s.frameIn n w = (some f, u) → f.type = 3 → ∀ (p :
    Nat), f.dpart = p → ∀ (key : Nat × Nat × Nat × Nat), key = (p, fieldAt f.payload 0 2, fieldAt f.payload 2 1, fieldAt
    f.payload 4 4) → ∃ t, exec (.abortReceive n w) s = .next t ∧
    (s.defined p = false ∨ s.jobId p ≠ f.job ∨ s.jobId p = 0 ∨ (f.src, f.spart) ∉ s.groupOf p ∧ (f.src, f.spart) ∉ s.jobPeers p →
      t.fd (Rg.CCH_PORT_DROP_TAG_DROP n) = min (s.fd (Rg.CCH_PORT_DROP_TAG_DROP n) + 1) 65535) ∧
    (s.defined p = true → s.jobId p = f.job → s.jobId p ≠ 0 → (f.src, f.spart) ∈ s.groupOf p ∨ (f.src, f.spart) ∈ s.jobPeers p →
      (key ∈ s.coach.seen → t.fd Rg.CCH_ABORT_DUPLICATE = min (s.fd Rg.CCH_ABORT_DUPLICATE + 1) 65535) ∧
      (key ∉ s.coach.seen → p < 12 → s.pstate p < 2 → FaultShown s t p stAborted))) ∧
  (∀ (s : State) (c : AbortCopy) (r : List AbortCopy), s.coach.copies = c :: r →
    ∃ t, exec .abortResend s = .next t ∧ t.coach.copies = r ∧ (t.port c.port).aborts = (s.port c.port).aborts ++ [c.frame] ∧ s.now ≤ t.now)

/-- FRAME_TRANSMIT on an UP port sends the oldest ABORT first, then the oldest ACK or HELLO, then the DATA frame of the deficit
  rotation, in the wire form, and counts it. RTO_EXPIRY with tries left resends the frame marked RETX, doubles its timeout and
  counts. HELLO_RESEND_EXPIRY resends the HELLO. ACK_DELAY_EXPIRY sends the ACK with nothing left owing. FLOW_IDLE_EXPIRY drops
  the idle flow and counts AGED. FLOW_OPEN_RESUME leaves the wait where no context is free, else continues the open. -/
def Obligations.CoachSend : Prop :=
  (∀ (s : State), s.Inv → ∀ (n : Nat), s.portUp n = true → ∀ (f : Frame) (r : List Frame),
    ∃ t, exec (.frameTransmit n) s = .next t ∧
    ((s.port n).aborts = f :: r → (t.port n).wire = (s.port n).wire ++ [s.wireBytes n f] ∧ (t.port n).aborts = r ∧
      t.fd Rg.CCH_ABORT_SENT = min (s.fd Rg.CCH_ABORT_SENT + 1) 65535) ∧
    ((s.port n).aborts = [] → (s.port n).ctrl = f :: r → (t.port n).wire = (s.port n).wire ++ [s.wireBytes n f] ∧ (t.port n).ctrl = r ∧
      t.fd (Rg.CCH_PORT_FRAMES_TX n) = min (s.fd (Rg.CCH_PORT_FRAMES_TX n) + 1) 4294967295) ∧
    ((s.port n).aborts = [] → (s.port n).ctrl = [] → ∀ k q, s.drrPick n 1024 (s.port n) = some ((k, f), q) →
      (t.port n).wire = (s.port n).wire ++ [s.wireBytes n f] ∧ (t.port n).data = takeFrame k f q.data)) ∧
  (∀ (s : State), s.Inv → ∀ (k psn : Nat) (x : TxFlow), s.tx? k = some x → ∀ (u : TxFrame), (x.unacked.find? (fun u =>
    u.frame.psn == psn && u.sent) = some u) → u.tries + 1 < s.retryMax → ∃ t, exec (.rtoExpiry k psn) s = .next t ∧
    t.fd (Rg.CCH_PORT_RETX_RTO x.port) = min (s.fd (Rg.CCH_PORT_RETX_RTO x.port) + 1) 65535 ∧
    t.fd (Rg.CCH_PORT_RETX_RETX x.port) = min (s.fd (Rg.CCH_PORT_RETX_RETX x.port) + 1) 4294967295 ∧
    (∃ g, t.tx? k = some g ∧ g.unacked.map (·.rtoUs) = x.unacked.map fun v => if v.frame.psn = psn then 2 * v.rtoUs else v.rtoUs) ∧
    (t.port x.port).data = (s.port x.port).data ++ [(k, { u.frame with flags := u.frame.flags ||| 8 })]) ∧
  (∀ (s : State) (k : Nat) (x : TxFlow), s.tx? k = some x → x.opened = false → x.hellos < s.retryMax →
    ∃ t, exec (.helloResendExpiry k) s = .next t ∧
    (∃ g, t.tx? k = some g ∧ g.hellos = x.hellos + 1) ∧ (t.port x.port).ctrl = (s.port x.port).ctrl ++ [s.helloFrame x]) ∧
  (∀ (s : State) (k : Nat) (x : RxFlow), s.rx? k = some x → ∀ (a : Nat), x.oldestAt = some a →
    ∃ t, exec (.ackDelayExpiry k) s = .next t ∧ ∃ y, t.rx? k = some y ∧ y.oldestAt = none ∧ y.since = 0 ∧ y.ack = x.ack ∧
    (t.port x.port).ctrl = (s.port x.port).ctrl ++ [s.ackFrame y]) ∧
  (∀ (s : State), s.Inv → ∀ (k : Nat),
    (∀ x, s.rx? k = some x → ∃ t, exec (.flowIdleExpiry true k) s = .next t ∧ t.rx? k = none ∧ t.fd Rg.CCH_FLOWS_AGED = min (s.fd Rg.CCH_FLOWS_AGED + 1) 65535) ∧
    (∀ x, s.tx? k = some x → x.unacked = [] → x.exp = none → x.opened = true →
      ∃ t, exec (.flowIdleExpiry false k) s = .next t ∧ t.tx? k = none ∧ t.fd Rg.CCH_FLOWS_AGED = min (s.fd Rg.CCH_FLOWS_AGED + 1) 65535)) ∧
  (∀ (s : State) (kind n c : Nat) (r : List (Nat × Nat × Nat)), s.coach.opens = (kind, n, c) :: r →
    ∃ t, exec .flowOpenResume s = .next t ∧
    (s.roomForFlow = none → t = s) ∧
    (s.roomForFlow ≠ none → kind = 1 → t = State.exportFlows n 5 { s with coach := { s.coach with opens := r } }) ∧
    (s.roomForFlow ≠ none → kind ≠ 1 → s.task? n = none → t = { s with coach := { s.coach with opens := r } }))

/-- DOWN with the cage present and training allowed goes to TRAINING with the media shown; trained, to TRAINED (UP where ENABLE
  is set) with TRAIN_FAILS 0; a failed training counts, every third going to FAILED; FAILED retries. A write of CCH_PORT_CTRL
  stores its fields, ENABLE taking TRAINED UP and its clearing taking UP back to TRAINED with DOWNS one higher (no flow on the
  port). A link lost for DOWN_US takes UP to DOWN with ENABLE clear, DOWNS one higher; lost signal takes the other states DOWN.
  That ENABLE set before training completes takes the port UP at once is the model's choice (log entry 84). -/
def Obligations.CoachPortStates : Prop :=
  (∀ (s : State), s.Inv → ∀ (n media : Nat), n < s.var.ports → s.portState n = 0 → s.on (Rg.CCH_PORT_STATUS_PRESENT n) = true →
    s.portsMayTrain = true →
    ∃ t, exec (.portDetect n media) s = .next t ∧ t.portState n = 1 ∧ t.fd (Rg.CCH_PORT_STATUS_MEDIA n) = media % 4) ∧
  (∀ (s : State), s.Inv → ∀ (n : Nat), n < s.var.ports → s.portState n = 1 →
    ∃ t, exec (.portTrained n) s = .next t ∧ t.portState n = (if s.fd (Rg.CCH_PORT_CTRL_ENABLE n) = 0 then 2 else 3) ∧
    t.fd (Rg.CCH_PORT_STATUS_TRAIN_FAILS n) = 0) ∧
  (∀ (s : State), s.Inv → ∀ (n : Nat), n < s.var.ports → s.portState n = 1 → ∀ (c : Nat), min (s.fd
    (Rg.CCH_PORT_STATUS_TRAIN_FAILS n) + 1) 255 = c →
    ∃ t, exec (.portTrainFail n) s = .next t ∧ t.fd (Rg.CCH_PORT_STATUS_TRAIN_FAILS n) = c ∧
    (c % 3 = 0 → t.portState n = 4 ∧ (t.port n).failedAt = s.now) ∧ (c % 3 ≠ 0 → t.portState n = 1)) ∧
  (∀ (s : State), s.Inv → ∀ (n : Nat), n < s.var.ports → s.portState n = 4 →
    ∃ t, exec (.portFailedRetry n) s = .next t ∧ t.portState n = 1 ∧ s.now ≤ t.now) ∧
  (∀ (s : State), s.Inv → ∀ (n : Nat) (v : W64), n < s.var.ports → ∀ (w : Nat), v.toNat = w → (∀ e ∈ s.coach.tx, e.2.port ≠ n) →
    ∃ t, exec (.portEnableWrite n v) s = .next t ∧
    t.fd (Rg.CCH_PORT_CTRL_ENABLE n) = bitsOf w 0 1 ∧ t.fd (Rg.CCH_PORT_CTRL_VLAN n) = bitsOf w 1 1 ∧
    t.fd (Rg.CCH_PORT_CTRL_PCP n) = bitsOf w 2 3 ∧ t.fd (Rg.CCH_PORT_CTRL_VID n) = bitsOf w 8 12 ∧
    (s.portState n = 2 → bitOf w 0 = true → t.portState n = 3) ∧
    (s.portState n = 3 → bitOf w 0 = false → t.portState n = 2 ∧
      t.fd (Rg.CCH_PORT_EVENTS_DOWNS n) = min (s.fd (Rg.CCH_PORT_EVENTS_DOWNS n) + 1) 65535)) ∧
  (∀ (s : State), s.Inv → ∀ (n us : Nat), n < s.var.ports → s.portState n = 3 → s.fd Rg.CCH_XPORT_CFG_DOWN_US ≤ us → (∀ e ∈
    s.coach.tx, e.2.port ≠ n) →
    ∃ t, exec (.portLinkLoss n us) s = .next t ∧ t.portState n = 0 ∧ t.fd (Rg.CCH_PORT_CTRL_ENABLE n) = 0 ∧
    t.fd (Rg.CCH_PORT_EVENTS_DOWNS n) = min (s.fd (Rg.CCH_PORT_EVENTS_DOWNS n) + 1) 65535) ∧
  (∀ (s : State), s.Inv → ∀ (n : Nat), n < s.var.ports → s.portState n ≠ 0 → s.portState n ≠ 3 → (∀ e ∈ s.coach.tx, e.2.port ≠
    n) → ∃ t, exec (.portSignalLoss n) s = .next t ∧ t.portState n = 0 ∧ t.fd (Rg.CCH_PORT_CTRL_ENABLE n) = 0)

/-- PAGE_WALK of an entry of the task's partition: a page the part has pinned counts a hit and changes no page or task; else a
  miss, and the walk ends in a hole, waits at PIN 4,095, pins the page and loads the TLB (fewer than 32 entries), or fails with
  its status, unless the part is only staged. PIN_WAIT_RESUME leaves the wait while PIN is 4,095, drops it where the page is no
  longer one, else pins the page. REF, UNREF and READ of another's page show 1 or 2; REF of a page it refuses shows 3, of a full
  count 4, else counts a reference; UNREF drops one, a page whose counts are all zero joining the free pool; READ shows the
  entry's words. LDG_PAGE_LOW takes THRESHOLD, and LOW is cleared by 1 and set while fewer pages are free. -/
def Obligations.PageCommands : Prop :=
  (∀ (s : State), s.Inv → ∀ (t part entry layer head blk half : Nat) (k : Task) (x : TaskPart), s.task? t = some k →
    ((k.parts.find? fun x => x.idx == part) = some x) → x.core.isSome = true → (1 ≤ x.slot ∧ x.slot ≤ 3) → x.done = false →
    ((s.walks.any fun w => w.task == t && w.part == part) = false) → s.ledgerOwner entry = k.part → (x.slot = 1 → s.stagedRoom
    x.coreN = true) → ∀ (list : Nat), ((find (fun _ => Entry.free) s.ledger entry).pageList = list) → ∀ (v : Nat), leNat
    (s.devRead k.part 0 ((s.hdrNow k.part list).slotAddr list layer head blk half) 4).data = v →
    ∃ u, exec (.pageWalk t part entry layer head blk half) s = .next u ∧
    (k.pins.contains (part, v) = true → u.pages = s.pages ∧ u.tasks = s.tasks ∧
      u.fd (Rg.CORE_TLB_STATS_HITS (s.physCore x.coreN)) = min (s.fd (Rg.CORE_TLB_STATS_HITS (s.physCore x.coreN)) + 1) (2 ^ 32 - 1)) ∧
    ∀ r w, k.pins.contains (part, v) = false →
      ((s.bump (Rg.CORE_TLB_STATS_MISSES (s.physCore x.coreN))).cycles [Rg.CORE_TLB_WALK_WAIT (s.physCore x.coreN)]).walk
        k.part t x.coreN list layer head blk half = (r, w) →
      (r = .hole → u = w) ∧ (∀ n, r = .waits n → u = { w with walks := w.walks ++ [⟨t, part, n, x.coreN, w.now, (w.page n).drops⟩] }) ∧
      (∀ n, r = .page n → (k.pins.filter fun e => e.1 == part).length < 32 → u.task? t = some { k with pins := k.pins ++ [(part, n)] } ∧
        ∀ j, u.page j = if j = n then { s.page n with pin := (s.page n).pin + 1 } else s.page j) ∧
      (∀ e, r = .fail e → u = if x.slot = 1 then w else (w.taskStatus t e 0).partDone t part) ∧
      (∀ n, r = .lost n → x.slot ≠ 1 → u = ((w.entryLost k.part n).taskStatus t stUncorr 0).partDone t part)) ∧
  (∀ (s : State) (t page : Nat) (w : WalkWait), ((s.walks.find? fun w => w.task == t && w.page == page) = some w) →
    ∃ u, exec (.pinWaitResume t page) s = .next u ∧ (4095 ≤ (s.page page).pin → u = s) ∧
    ((s.page page).pin < 4095 → ((s.page page).state = 0 ∨ (s.page page).state = 4) → u = { s with walks := s.walks.erase w }) ∧
    (∀ k, (s.page page).pin < 4095 → (s.page page).state ≠ 0 → (s.page page).state ≠ 4 → s.task? t = some k →
      (k.pins.filter fun e => e.1 == w.part).length < 32 →
      u.walks = s.walks.erase w ∧ u.task? t = some { k with pins := k.pins ++ [(w.part, page)] } ∧
      ∀ j, u.page j = if j = page then { s.page page with pin := (s.page page).pin + 1 } else s.page j)) ∧
  (∀ (s : State), s.Inv → ∀ (p page : Nat), s.defined p = true → ∃ t, exec (.pageRef p page) s = .next t ∧
    (s.pageOwner page ≠ some p →
      t.fd (Rg.LDG_PAGE_RESULT_RESULT p) = (if s.pageOwner page = none then 1 else 2) ∧ t.pages = s.pages) ∧
    ∀ u, s.pageOwner page = some p → s.entryRead page = (true, u) →
      t.fd (Rg.LDG_PAGE_RESULT_COUNT p) = (s.fd (Rg.LDG_PAGE_RESULT_COUNT p) + 1) % 4294967296 ∧
      ((s.page page).refused = true → t.fd (Rg.LDG_PAGE_RESULT_RESULT p) = 3 ∧ t.pages = s.pages) ∧
      ((s.page page).refused = false → 65535 ≤ (s.page page).ref → t.fd (Rg.LDG_PAGE_RESULT_RESULT p) = 4 ∧ t.pages = s.pages) ∧
      ((s.page page).refused = false → (s.page page).ref < 65535 → t.fd (Rg.LDG_PAGE_RESULT_RESULT p) = 0 ∧
        ∀ j, t.page j = if j = page then { s.page page with ref := (s.page page).ref + 1 } else s.page j)) ∧
  (∀ (s : State), s.Inv → ∀ (p page : Nat), s.defined p = true → ∃ t, exec (.pageUnref p page) s = .next t ∧
    (s.pageOwner page ≠ some p →
      t.fd (Rg.LDG_PAGE_RESULT_RESULT p) = (if s.pageOwner page = none then 1 else 2) ∧ t.pages = s.pages) ∧
    ∀ u, s.pageOwner page = some p → s.entryRead page = (true, u) →
      t.fd (Rg.LDG_PAGE_RESULT_COUNT p) = (s.fd (Rg.LDG_PAGE_RESULT_COUNT p) + 1) % 4294967296 ∧
      ((s.page page).refused = true → t.fd (Rg.LDG_PAGE_RESULT_RESULT p) = 3 ∧ t.pages = s.pages) ∧
      ((s.page page).refused = false → t.fd (Rg.LDG_PAGE_RESULT_RESULT p) = 0 ∧
        (∀ x, x = { s.page page with ref := (s.page page).ref - 1 } → x.state ≠ 0 → ∀ j, t.page j = if j = page then x else s.page j) ∧
        (∀ x, x = { s.page page with ref := (s.page page).ref - 1 } → x.state = 0 → (t.part p).pool = page :: (s.part p).pool))) ∧
  (∀ (s : State), s.Inv → ∀ (p page : Nat), s.defined p = true → ∃ t, exec (.pageRead p page) s = .next t ∧
    (s.pageOwner page ≠ some p →
      t.fd (Rg.LDG_PAGE_RESULT_RESULT p) = (if s.pageOwner page = none then 1 else 2) ∧ t.pages = s.pages) ∧
    ∀ u, s.pageOwner page = some p → s.entryRead page = (true, u) →
      t.fd (Rg.LDG_PAGE_RESULT_RESULT p) = 0 ∧ t.rd (Rg.LDG_PAGE_ENTRY_0 p) = BitVec.ofNat 64 (s.pageWords page).1 ∧
      t.rd (Rg.LDG_PAGE_ENTRY_1 p) = BitVec.ofNat 64 (s.pageWords page).2 ∧ t.pages = s.pages) ∧
  (∀ (s : State), s.Inv → ∀ (p : Nat) (v : W64), s.defined p = true →
    ∃ t, exec (.pageLowWrite p v) s = .next t ∧ t.fd (Rg.LDG_PAGE_LOW_THRESHOLD p) = bitsOf v.toNat 0 25 ∧
    (bitOf v.toNat 25 = true → t.fd (Rg.LDG_PAGE_LOW_LOW p) = 0) ∧
    (bitOf v.toNat 25 = false → t.fd (Rg.LDG_PAGE_LOW_LOW p) =
      if bitsOf v.toNat 0 25 ≠ 0 ∧ s.poolFree p < bitsOf v.toNat 0 25 then 1 else s.fd (Rg.LDG_PAGE_LOW_LOW p)))

/-- MEM_SLOT_GRANT gives one slot in 32 to Innkeeper's waiting traffic, one in 1,024 to the scrub while it is behind, and any
  other to the first partition in rotation with traffic, for the class its 16-slot pattern names: that class's counter goes up
  and one request leaves, or IDLE_SLOTS counts. REPAIR_WRITE writes the decoded codeword of the oldest repair back, clears its
  errors and leaves it poisoned if the repair or the decode says so. SCRUB_READ reads the next codeword, rewrites one it
  corrects, poisons one it cannot, and moves on, PASSES counting whole passes up to its largest value. WRITE_QUEUE_RESUME writes
  the oldest waiting host write once the queue has room. The scrub's slot in each 1,024 is the model's place for it (log entry
  120). -/
def Obligations.MemoryCommands : Prop :=
  (∀ (s : State), s.Inv → ∀ (n turn : Nat) (c : MemCtl), n < s.var.channels → s.memCtl n = c → ((find (fun _ => 0) c.pos 15 + 1)
    % 1024 = turn) → ∃ t, exec (.memSlotGrant n) s = .next t ∧
    (turn % 32 = 0 → c.busy 15 = true → t.memCtl n = MemCtl.takeInnkeeper { c with pos := ins c.pos 15 turn }) ∧
    (turn = 1 → s.scrubBehind = true → s.scrubAt n = true →
      t.ecc.scrubNext = (if s.ecc.scrubNext % s.allLines + 1 < s.allLines then s.ecc.scrubNext % s.allLines + 1 else 0)) ∧
    (¬ (turn % 32 = 0 ∧ c.busy 15 = true) → ¬ (turn = 1 ∧ s.scrubBehind = true ∧ s.scrubAt n = true) →
      (((List.range 12).map fun i => ((if c.last < 12 then c.last + 1 else 0) + i) % 12).find? fun p => c.busy p) = none →
      t.fd (Rg.MEM_CH_SLOTS_IDLE_SLOTS n) = min (s.fd (Rg.MEM_CH_SLOTS_IDLE_SLOTS n) + 1) (2 ^ 48 - 1)) ∧
    ∀ p pos pat cls, ¬ (turn % 32 = 0 ∧ c.busy 15 = true) → ¬ (turn = 1 ∧ s.scrubBehind = true ∧ s.scrubAt n = true) →
      (((List.range 12).map fun i => ((if c.last < 12 then c.last + 1 else 0) + i) % 12).find? fun p => c.busy p) = some p →
      find (fun _ => 0) c.pos p = pos → (if pos = 0 then splitPattern (s.bwOf p) else find (fun _ => 0) c.pat p) = pat →
      bitsOf pat (2 * pos) 2 = cls →
      (0 < (c.reqOf (3 * p + cls)).rd + (c.reqOf (3 * p + cls)).wr →
        t.fd (slotCounter n cls) = min (s.fd (slotCounter n cls) + 1) (2 ^ 48 - 1) ∧
        t.memCtl n = MemCtl.take { c with last := p, pos := ins (ins c.pos 15 turn) p ((pos + 1) % 16), pat := ins c.pat p pat } (3 * p + cls)) ∧
      ((c.reqOf (3 * p + cls)).rd + (c.reqOf (3 * p + cls)).wr = 0 →
        t.fd (Rg.MEM_CH_SLOTS_IDLE_SLOTS n) = min (s.fd (Rg.MEM_CH_SLOTS_IDLE_SLOTS n) + 1) (2 ^ 48 - 1))) ∧
  (∀ (s : State), s.Inv → ∀ (r : Repair) (q : List Repair) (c : Nat) (d : Bytes), s.ecc.repairQ = r :: q → s.decodeLine r.line =
    (c, d) → ∃ t, exec .repairWrite s = .next t ∧
    (∀ x, find unwritten t.mem x = if x / 64 = r.line then d.getD (x % 64) 0 else find unwritten s.mem x) ∧
    (∀ l, l ∈ t.ecc.poison ↔ if l = r.line then r.bad = true ∨ 5 ≤ c else l ∈ s.ecc.poison) ∧
    t.flipsOf r.line = [] ∧ t.ecc.repairQ = (r :: q).filter fun y => y.line != r.line) ∧
  (∀ (s : State), s.Inv → s.phase = .running → ∀ (n l c : Nat) (d : Bytes), s.ecc.scrubNext % s.allLines = n → s.scrubLine n = l
    → s.decodeLine l = (c, d) → ∃ t, exec .scrubRead s = .next t ∧
    t.ecc.scrubNext = (if n + 1 < s.allLines then n + 1 else 0) ∧
    (s.allLines ≤ n + 1 → t.ecc.scrubStart = s.now ∧ t.fd Rg.MEM_SCRUB_STATUS_PASSES = min (s.fd Rg.MEM_SCRUB_STATUS_PASSES + 1) (2 ^ 21 - 1)) ∧
    (c = 0 ∨ c = 6 → t.mem = s.mem ∧ t.ecc.poison = s.ecc.poison ∧ t.ecc.flips = s.ecc.flips) ∧
    (c ≠ 0 → c ≠ 6 → (∀ x, find unwritten t.mem x = if x / 64 = l then d.getD (x % 64) 0 else find unwritten s.mem x) ∧
      (∀ y, y ∈ t.ecc.poison ↔ if y = l then 5 ≤ c else y ∈ s.ecc.poison) ∧ t.flipsOf l = [])) ∧
  (∀ (s : State), s.Inv → ∀ (n : Nat) (w : WaitWrite) (r : List WaitWrite), (s.memCtl n).wait = w :: r →
    ∃ t, exec (.writeQueueResume n) s = .next t ∧ (64 ≤ (s.memCtl n).writes → t = s) ∧
    ((s.memCtl n).writes < 64 → s.ecc.flips = [] →
      ∀ x, find unwritten t.mem x = if w.addr ≤ x ∧ x < w.addr + w.data.length then w.data.getD (x - w.addr) 0 else find unwritten s.mem x))

/-- On an ACTIVE link REG_RD and REG_WR to what the host may not reach, misaligned or of another length count in ACCESS_ERR and
  are answered with an error status; an allowed read shows the register and is answered with its value, an allowed write does
  what the register's row says. A DOORBELL that is refused counts in DB_BAD, else it writes. A REGISTER_WRITE or counter read
  that its actor may make has its effect; a running control core's misaligned or unreachable access takes an access fault (trap
  7 or 5), memory as it was; the host's is counted. That an access fault holds the core in a trap is the model's form of it (log
  entry 21). -/
def Obligations.RegisterAccesses : Prop :=
  (∀ (s : State), s.Inv → ∀ (a len tag part : Nat), s.lrlActive = true → ∀ (u : State), (s.takeMsg (fun m => m.mtype == 0x01 &&
    m.tag == tag && m.addr == a) = u) → ∃ t, exec (.regRd a len tag part) s = .next t ∧
    (∀ st, u.hostDenied a len = some st → t.fd Rg.LRL_EVENTS_ACCESS_ERR = min (s.fd Rg.LRL_EVENTS_ACCESS_ERR + 1) 65535 ∧
      find (fun _ => []) t.larric.txq 0 = find (fun _ => []) s.larric.txq 0 ++ [(Msg.mk 0x03 tag part st 0 a []).bytes] ∧ t.mem = s.mem) ∧
    (∀ r, u.hostDenied a len = none → a < cciBase → u.PlainRead a r → u.ReadShown t a r ∧
      find (fun _ => []) t.larric.txq 0 = find (fun _ => []) s.larric.txq 0 ++ [(Msg.mk 0x03 tag part 0 8 a (toLe 8 (u.view a).toNat)).bytes])) ∧
  (∀ (s : State), s.Inv → ∀ (a len tag part : Nat) (v : W64), s.lrlActive = true → ∀ (u : State), (s.takeMsg (fun m => m.mtype
    == 0x02 && m.tag == tag && m.addr == a) = u) → ∃ t, exec (.regWr a len tag part v) s = .next t ∧
    (∀ st, u.hostDenied a len = some st → t.fd Rg.LRL_EVENTS_ACCESS_ERR = min (s.fd Rg.LRL_EVENTS_ACCESS_ERR + 1) 65535 ∧
      find (fun _ => []) t.larric.txq 0 = find (fun _ => []) s.larric.txq 0 ++ [(Msg.mk 0x03 tag part st 0 a []).bytes] ∧ t.mem = s.mem) ∧
    (u.hostDenied a len = none → a < cciBase →
      t = (u.flushHost.regWrite a v).sendMsg 0 ⟨0x03, tag, part, 0, 0, a, []⟩) ∧
    (∀ r, u.hostDenied a len = none → a < cciBase → regRow? a = some r → u.flushHost.regWrite a v = u.flushHost.plainWrite a v →
      u.flushHost.WriteShown t a v r)) ∧
  (∀ (s : State), s.Inv → ∀ (a : Nat) (v : W64), s.lrlActive = true → ∀ (u : State), (s.takeMsg (fun m => m.mtype == 0x04 &&
    m.addr == a) = u) → ∃ t, exec (.doorbell a v) s = .next t ∧
    ((u.recovery = true ∨ u.doorbellOk a = false) → t = u.bump Rg.LRL_EVENTS_DB_BAD ∧
      t.fd Rg.LRL_EVENTS_DB_BAD = min (s.fd Rg.LRL_EVENTS_DB_BAD + 1) 65535) ∧
    (u.recovery = false → u.doorbellOk a = true → t = u.flushHost.regWrite a v)) ∧
  (∀ (s : State), s.Inv → ∀ (who : Actor) (a len : Nat) (v : W64),
    ∃ t, exec (.registerWrite who ⟨a, len⟩ v) s = .next t ∧ (s.may who a len true = true → t = s.regWrite a v) ∧
    (∀ r, s.may who a len true = true → regRow? a = some r → s.regWrite a v = s.plainWrite a v → s.WriteShown t a v r) ∧
    (∀ n p, who = .core n → s.phase = .running → s.ctlOwner n = some p → (s.ctlCore n).running = true →
      (a % 8 ≠ 0 ∨ len ≠ 8 ∨ s.coreReaches p n a true = false) → (t.ctlCore n).trap = 7 ∧ t.mem = s.mem) ∧
    (∀ st, who = .host → s.phase = .running → s.lrlActive = true → a < cciBase → s.hostDenied a len = some st →
      t.fd Rg.LRL_EVENTS_ACCESS_ERR = min (s.fd Rg.LRL_EVENTS_ACCESS_ERR + 1) 65535 ∧ t.mem = s.mem)) ∧
  (∀ (s : State), s.Inv → ∀ (who : Actor) (a len : Nat), ∃ t, exec (.rcCounterRead who ⟨a, len⟩) s = .next t ∧
    (∀ r, s.may who a len false = true → s.PlainRead a r → s.ReadShown t a r) ∧
    (∀ n p, who = .core n → s.phase = .running → s.ctlOwner n = some p → (s.ctlCore n).running = true →
      (a % 8 ≠ 0 ∨ len ≠ 8 ∨ s.coreReaches p n a false = false) → (t.ctlCore n).trap = 5 ∧ t.mem = s.mem) ∧
    (∀ st, who = .host → s.phase = .running → s.lrlActive = true → a < cciBase → s.hostDenied a len = some st →
      t.fd Rg.LRL_EVENTS_ACCESS_ERR = min (s.fd Rg.LRL_EVENTS_ACCESS_ERR + 1) 65535 ∧ t.mem = s.mem))

/-- For a defined partition: OPEN of a block that cannot be read shows 8, of a bad kind or argument 3, beyond the quota 1, with
  no handle free 2, into a full group 5, and else 0 with the lowest free handle, the endpoint or Churn queue as the block says
  and its accumulator zeroed; other endpoints and queues stay. CLOSE of one that is not the partition's or is closing shows 4,
  else 0: the queue goes, its round discarded, or the endpoint is CLOSING. ENDPOINT_FREE of a CLOSING endpoint with no message
  landing frees its handle and discards its messages, rings and spill alike; other endpoints stay. A write of HEAD of an
  endpoint in no group releases the messages below it, and one past TAIL is discarded. -/
def Obligations.ChannelEndpoints : Prop :=
  (∀ (s : State), s.Inv → ∀ (p : Nat), s.defined p = true → ∀ (o : Option Bytes) (u : State), s.blk p (s.fd
    (Rg.CHN_CMD_ADDR_ADDR p)) 64 = (o, u) → ∃ t, exec (.chnOpen p) s = .next t ∧
    (o = none → t.fd (Rg.CHN_CMD_RESULT_RESULT p) = 8 ∧ t.endpoints = s.endpoints ∧ t.churns = s.churns) ∧
    (∀ b, o = some b → 2 ≤ fieldAt b 0 1 → t.fd (Rg.CHN_CMD_RESULT_RESULT p) = 3 ∧ t.endpoints = s.endpoints ∧ t.churns = s.churns) ∧
    (∀ b, o = some b → fieldAt b 0 1 = 0 → u.epArgBad p b = true → t.fd (Rg.CHN_CMD_RESULT_RESULT p) = 3 ∧ t.endpoints = s.endpoints) ∧
    (∀ b, o = some b → fieldAt b 0 1 = 0 → u.epArgBad p b = false → u.cfg p 128 2 ≤ (u.epsOf p).length →
      t.fd (Rg.CHN_CMD_RESULT_RESULT p) = 1 ∧ t.endpoints = s.endpoints) ∧
    (∀ b, o = some b → fieldAt b 0 1 = 0 → u.epArgBad p b = false → (u.epsOf p).length < u.cfg p 128 2 → 4096 ≤ s.endpoints.length →
      t.fd (Rg.CHN_CMD_RESULT_RESULT p) = 2 ∧ t.endpoints = s.endpoints) ∧
    (∀ b, o = some b → fieldAt b 0 1 = 0 → u.epArgBad p b = false → (u.epsOf p).length < u.cfg p 128 2 → s.endpoints.length < 4096 →
      fieldAt b 2 1 < 64 → 16 ≤ (u.members p (fieldAt b 2 1)).length → t.fd (Rg.CHN_CMD_RESULT_RESULT p) = 5 ∧ t.endpoints = s.endpoints) ∧
    (∀ b, o = some b → fieldAt b 0 1 = 0 → u.epArgBad p b = false → (u.epsOf p).length < u.cfg p 128 2 → s.endpoints.length < 4096 →
      ¬ (fieldAt b 2 1 < 64 ∧ 16 ≤ (u.members p (fieldAt b 2 1)).length) →
      t.fd (Rg.CHN_CMD_RESULT_RESULT p) = 0 ∧ t.fd (Rg.CHN_CMD_RESULT_HANDLE p) = freeIdx s.endpoints % 4096 ∧
      find? t.endpoints (freeIdx s.endpoints) = some ⟨false, p, fieldAt b 1 1, fieldAt b 8 8, fieldAt b 16 8, fieldAt b 24 4, fieldAt b 2 1,
        fieldAt b 3 1, 0, 0, 0, [], 0⟩ ∧ ∀ j, j ≠ freeIdx s.endpoints → find? t.endpoints j = find? s.endpoints j) ∧
    (∀ b, o = some b → fieldAt b 0 1 = 1 → u.churnArgBad p b = true → t.fd (Rg.CHN_CMD_RESULT_RESULT p) = 3 ∧ t.churns = s.churns) ∧
    (∀ b, o = some b → fieldAt b 0 1 = 1 → u.churnArgBad p b = false → u.cfg p 130 2 ≤ (s.churns.filter fun c => c.2.part == p).length →
      t.fd (Rg.CHN_CMD_RESULT_RESULT p) = 1 ∧ t.churns = s.churns) ∧
    (∀ b, o = some b → fieldAt b 0 1 = 1 → u.churnArgBad p b = false → (s.churns.filter fun c => c.2.part == p).length < u.cfg p 130 2 →
      256 ≤ s.churns.length → t.fd (Rg.CHN_CMD_RESULT_RESULT p) = 2 ∧ t.churns = s.churns) ∧
    (∀ b, o = some b → fieldAt b 0 1 = 1 → u.churnArgBad p b = false → (s.churns.filter fun c => c.2.part == p).length < u.cfg p 130 2 →
      s.churns.length < 256 → t.fd (Rg.CHN_CMD_RESULT_RESULT p) = 0 ∧ t.fd (Rg.CHN_CMD_RESULT_HANDLE p) = freeIdx s.churns % 4096 ∧
      find? t.churns (freeIdx s.churns) = some ⟨p, fieldAt b 1 1, fieldAt b 2 2, fieldAt b 4 2, fieldAt b 6 2, fieldAt b 8 8, fieldAt b 16 8,
        0, 0, none, []⟩ ∧ (∀ j, j ≠ freeIdx s.churns → find? t.churns j = find? s.churns j) ∧
      (u.ecc.flips = [] → u.badPoint p (fieldAt b 8 8) (4 * fieldAt b 4 2) = none → fieldAt b 8 8 < windowBase → ∀ x,
        find unwritten t.mem x = if fieldAt b 8 8 ≤ x ∧ x < fieldAt b 8 8 + 4 * fieldAt b 4 2 then 0 else find unwritten u.mem x))) ∧
  (∀ (s : State), s.Inv → ∀ (p h : Nat) (churn : Bool), s.defined p = true → ∃ t, exec (.chnClose p h churn) s = .next t ∧
    (churn = true → (∀ c, find? s.churns h = some c → c.part ≠ p) → t.fd (Rg.CHN_CMD_RESULT_RESULT p) = 4 ∧ t.churns = s.churns) ∧
    (churn = false → (∀ e, find? s.endpoints h = some e → e.part ≠ p ∨ e.closing = true) →
      t.fd (Rg.CHN_CMD_RESULT_RESULT p) = 4 ∧ t.endpoints = s.endpoints) ∧
    (∀ c, churn = true → find? s.churns h = some c → c.part = p → t.fd (Rg.CHN_CMD_RESULT_RESULT p) = 0 ∧
      ((∀ n, (s.sender p n).queue = []) → find? t.churns h = none ∧ (∀ x, x ∈ t.churns ↔ x ∈ s.churns ∧ x.1 ≠ h) ∧
        t.fd (Rg.CHN_EVENTS_DISCARDED p) = min (s.fd (Rg.CHN_EVENTS_DISCARDED p) + (b2n (c.received != 0) + b2n c.notice.isSome)) 65535)) ∧
    (∀ e, churn = false → find? s.endpoints h = some e → e.part = p → e.closing = false → t.fd (Rg.CHN_CMD_RESULT_RESULT p) = 0 ∧
      ((∀ n, (s.sender p n).queue = []) → find? t.endpoints h = some { e with closing := true, closeAt := s.now } ∧
        ∀ j, j ≠ h → find? t.endpoints j = find? s.endpoints j))) ∧
  (∀ (s : State), s.Inv → ∀ (h : Nat) (e : Endpoint), find? s.endpoints h = some e → ∃ t, exec (.endpointFree h) s = .next t ∧
    (e.closing = false ∨ (s.landings.any fun l => l.ep == h) = true → t = s) ∧
    (e.closing = true → (s.landings.any fun l => l.ep == h) = false → find? t.endpoints h = none ∧
      (∀ x, x ∈ t.endpoints ↔ x ∈ s.endpoints ∧ x.1 ≠ h) ∧
      t.fd (Rg.CHN_EVENTS_DISCARDED e.part) = min (s.fd (Rg.CHN_EVENTS_DISCARDED e.part) + (e.msgs.length +
        ((s.part e.part).ports.map fun q => (q.2.spill.filter fun m => m.ep == h && !m.released).length).foldl (· + ·) 0)) 65535)) ∧
  (∀ (s : State), s.Inv → ∀ (p : Nat) (v : W64), s.defined p = true → ∀ (e : Endpoint), find? s.endpoints (s.fd
    (Rg.CHN_EP_SEL_HANDLE p)) = some e → ∃ t, exec (.epHeadWrite p v) s = .next t ∧ (e.part ≠ p ∨ e.group < 64 → t = s) ∧
    (e.part = p → 64 ≤ e.group → (e.tail + 2 ^ 32 - e.head) % 2 ^ 32 < (bitsOf v.toNat 32 32 + 2 ^ 32 - e.head) % 2 ^ 32 →
      t.endpoints = s.endpoints ∧ t.fd (Rg.CHN_EVENTS_DISCARDED p) = min (s.fd (Rg.CHN_EVENTS_DISCARDED p) + 1) 65535) ∧
    (e.part = p → 64 ≤ e.group → (bitsOf v.toNat 32 32 + 2 ^ 32 - e.head) % 2 ^ 32 ≤ (e.tail + 2 ^ 32 - e.head) % 2 ^ 32 →
      find? t.endpoints (s.fd (Rg.CHN_EP_SEL_HANDLE p)) = some { e with head := bitsOf v.toNat 32 32, msgs := e.msgs.filter fun m =>
        (bitsOf v.toNat 32 32 + 2 ^ 32 - e.head) % 2 ^ 32 < (m.at_ + m.len + 2 ^ 32 - e.head) % 2 ^ 32 } ∧
      t.regs = s.regs ∧ ∀ j, j ≠ s.fd (Rg.CHN_EP_SEL_HANDLE p) → find? t.endpoints j = find? s.endpoints j))

/-- A send to a full queue sets OVERRUN; any other joins its port. From an idle port: a bad length gives 5, a closing endpoint
  3, another's or a missing part 4, an offset outside the window 6; an APPEND with room begins to land, its sequence number and
  bytes as R356 says; without room it waits; a PUT_AT lands in the window; a CONTRIB joins the waiting contributions of its
  queue. SEND_CREDIT_RESUME performs the head again. MESSAGE_LAND moves TAIL and hands the message to the endpoint, the send
  completing with 0, or its notice following. SEND_SPILL at the end of SPILL_LIMIT completes with 2 where the spill ring has no
  room, and else puts the message last in it, raises the group's bit and completes with 1. -/
def Obligations.ChannelSends : Prop :=
  (∀ (s : State), s.Inv → ∀ (p n : Nat) (v : W64), s.hasPort p n = true → bitsOf v.toNat 0 2 = 0 → ∀ (x : Send), s.sendOf p n v
    = x → ∃ t, exec (.chnAppend p n v) s = .next t ∧
    (8 ≤ (s.sender p n).queue.length → t.fd (Rg.CHN_PORT_SEND_STATUS_OVERRUN p n) = 1 ∧ t.parts = s.parts ∧ t.landings = s.landings) ∧
    ((s.sender p n).queue.length < 8 → t = (s.queued p n x).pump p n) ∧
    (s.PortIdle p n → (x.units = 0 ∨ 8 < x.units) → s.SendEnds t p n 5) ∧
    (s.PortIdle p n → 1 ≤ x.units → x.units ≤ 8 → (∀ e, find? s.endpoints x.dest = some e → e.part = p ∧ e.closing = true) → s.SendEnds t p n 3) ∧
    (∀ e, s.PortIdle p n → 1 ≤ x.units → x.units ≤ 8 → find? s.endpoints x.dest = some e → (e.part ≠ p ∨ e.closing = false ∧ e.ringLog2 = 0) →
      s.SendEnds t p n 4) ∧
    (∀ e skip b u, s.PortIdle p n → s.Takes p x e → (e.group < 64 → (s.sender p n).spilled x.dest = false) →
      ringFit e.size e.wtail e.head (32 * x.units) = some skip → (s.queued p n x).sendRead p n x.addr (32 * x.units) none = (some b, u) →
      (u.seqNext p n x.dest).Lands t x.dest e
        ⟨x.dest, ⟨(e.wtail + skip) % 2 ^ 32, skip, (msgBytes 1 x.units x.dest (s.seqOf p n x.dest) n (b.drop 8)).length, s.seqOf p n x.dest, n, false⟩, false, p, n, none⟩
        (e.ringBase + (e.wtail + skip) % 2 ^ 32 % e.size) (msgBytes 1 x.units x.dest (s.seqOf p n x.dest) n (b.drop 8)) ∧
      u.landings = s.landings ∧ u.endpoints = s.endpoints ∧ u.mem = s.mem)) ∧
  (∀ (s : State), s.Inv → ∀ (p n : Nat) (v : W64), s.hasPort p n = true → bitsOf v.toNat 0 2 = 1 → ∀ (x : Send), s.sendOf p n v
    = x → ∃ t, exec (.chnPutAt p n v) s = .next t ∧
    (8 ≤ (s.sender p n).queue.length → t.fd (Rg.CHN_PORT_SEND_STATUS_OVERRUN p n) = 1 ∧ t.parts = s.parts ∧ t.landings = s.landings) ∧
    ((s.sender p n).queue.length < 8 → t = (s.queued p n x).pump p n) ∧
    (s.PortIdle p n → (x.units = 0 ∨ 8 < x.units) → s.SendEnds t p n 5) ∧
    (∀ e, s.PortIdle p n → s.Takes p x e → (x.offset % 32 ≠ 0 ∨ e.winSize < x.offset + 32 * x.units) → s.SendEnds t p n 6) ∧
    (∀ e b u, s.PortIdle p n → s.Takes p x e → x.offset % 32 = 0 → x.offset + 32 * x.units ≤ e.winSize →
      (s.queued p n x).sendRead p n x.addr (32 * x.units) none = (some b, u) →
      u.Lands t x.dest e
        ⟨x.dest, ⟨x.offset, 0, (msgBytes 1 x.units x.dest (s.seqOf p n x.dest) n (b.drop 8)).length, s.seqOf p n x.dest, n, false⟩, true, p, n, none⟩
        (e.winBase + x.offset) (msgBytes 1 x.units x.dest (s.seqOf p n x.dest) n (b.drop 8)) ∧
      u.landings = s.landings ∧ u.endpoints = s.endpoints ∧ u.mem = s.mem)) ∧
  (∀ (s : State), s.Inv → ∀ (p n : Nat) (v : W64), s.hasPort p n = true → bitsOf v.toNat 0 2 = 2 → ∀ (x : Send), s.sendOf p n v
    = x → ∃ t, exec (.chnContrib p n v) s = .next t ∧
    (8 ≤ (s.sender p n).queue.length → t.fd (Rg.CHN_PORT_SEND_STATUS_OVERRUN p n) = 1 ∧ t.parts = s.parts ∧ t.landings = s.landings) ∧
    ((s.sender p n).queue.length < 8 → t = (s.queued p n x).pump p n) ∧
    (s.PortIdle p n → find? s.churns x.dest = none → s.SendEnds t p n 3) ∧
    (∀ c, s.PortIdle p n → find? s.churns x.dest = some c → c.part ≠ p → s.SendEnds t p n 4) ∧
    (∀ c, s.PortIdle p n → find? s.churns x.dest = some c → c.part = p →
      find? t.churns x.dest = some { c with waiting := c.waiting ++ [(n, x.addr, none)] } ∧ (∀ j, j ≠ x.dest → find? t.churns j = find? s.churns j) ∧
      (t.sender p n).queue = [x] ∧ t.mem = s.mem ∧ t.regs = s.regs)) ∧
  (∀ (s : State), s.Inv → ∀ (p n : Nat), ∃ t, exec (.sendCreditResume p n) s = .next t ∧ t = s.pump p n ∧
    (∀ x r e skip b u, (s.sender p n).queue = x :: r → s.sendBusy p n = false → x.op = 0 → x.put = false → s.Takes p x e →
      (e.group < 64 → (s.sender p n).spilled x.dest = false) → ringFit e.size e.wtail e.head (32 * x.units) = some skip →
      s.sendRead p n x.addr (32 * x.units) x.task = (some b, u) →
      (u.seqNext p n x.dest).Lands t x.dest e
        ⟨x.dest, ⟨(e.wtail + skip) % 2 ^ 32, skip, (msgBytes 1 x.units x.dest (s.seqOf p n x.dest) n (b.drop 8)).length, s.seqOf p n x.dest, n, false⟩, false, p, n, x.task⟩
        (e.ringBase + (e.wtail + skip) % 2 ^ 32 % e.size) (msgBytes 1 x.units x.dest (s.seqOf p n x.dest) n (b.drop 8)) ∧
      u.landings = s.landings ∧ u.endpoints = s.endpoints ∧ u.mem = s.mem) ∧
    (∀ x r e, (s.sender p n).queue = x :: r → s.sendBusy p n = false → x.op = 0 → x.put = false → s.Takes p x e →
      (e.group < 64 → (s.sender p n).spilled x.dest = false) → ringFit e.size e.wtail e.head (32 * x.units) = none →
      t.landings = s.landings ∧ t.endpoints = s.endpoints ∧ t.mem = s.mem ∧
      (t.sender p n).queue = { x with wait := some (x.wait.getD s.now) } :: r)) ∧
  (∀ (s : State), s.Inv → ∀ (h : Nat) (l : Landing), ((s.landings.find? fun l => l.ep == h) = some l) →
    ∃ t, exec (.messageLand h) s = .next t ∧
    (∀ e, l.window = false → find? s.endpoints h = some e → (l.port = 0xFFFF ∨ ∃ x, (s.sender l.part l.port).queue = [x] ∧ x.task = none) →
      t.landings = s.landings.erase l ∧
      find? t.endpoints h = some { e with tail := (l.msg.at_ + l.msg.len) % 2 ^ 32, msgs := e.msgs ++ [l.msg] } ∧
      (∀ j, j ≠ h → find? t.endpoints j = find? s.endpoints j) ∧ t.mem = s.mem ∧
      (l.port ≠ 0xFFFF → t.fd (Rg.CHN_PORT_SEND_STATUS_RESULT l.part l.port) = 0 ∧ (t.sender l.part l.port).queue = [])) ∧
    (∀ x, l.window = true → l.port ≠ 0xFFFF → (s.sender l.part l.port).queue = [x] → x.task = none → x.notify = false →
      t.landings = s.landings.erase l ∧ t.endpoints = s.endpoints ∧ t.mem = s.mem ∧
      t.fd (Rg.CHN_PORT_SEND_STATUS_RESULT l.part l.port) = 0 ∧ (t.sender l.part l.port).queue = []) ∧
    (∀ x r, l.window = true → l.port ≠ 0xFFFF → (s.sender l.part l.port).queue = x :: r → x.notify = true →
      t = (State.modHead { s with landings := s.landings.erase l } l.part l.port fun x => { x with put := true }).pump l.part l.port)) ∧
  (∀ (s : State), s.Inv → ∀ (p n : Nat) (x : Send) (e : Endpoint) (w : Nat), s.SpillDue p n x e w →
    ∃ t, exec (.sendSpill p n) s = .next t ∧
    ((s.spillTime p w).spillFit p n (if x.put then 32 else 32 * x.units) = none → s.SendEnds t p n 2 ∧ (t.sender p n).spill = (s.sender p n).spill) ∧
    (∀ skip bs seq u, (s.spillTime p w).spillFit p n (if x.put then 32 else 32 * x.units) = some skip →
      (s.spillTime p w).appendBytes p n x = (some (bs, seq), u) → u.Spills t p n x.dest e.group skip seq bs))

/-- SEL_NEXT with nothing offered reads 0; else it reads the message's word, shows its address, notes it as handed out and moves
  the rotation. SEL_DONE of a message not handed out counts as discarded; of one handed out releases it in its ring or spill
  ring. CHURN_ADD adds the first waiting contribution to the accumulator, element by element in FP32, counts it and completes
  its send with 0; the last of a round delivers it and begins the next round. CHURN_NOTICE_PLACE discards a notice whose
  endpoint is gone or not the partition's, leaves one without credit waiting, and lands any other. -/
def Obligations.ChannelGroupsAndChurn : Prop :=
  (∀ (s : State), s.Inv → ∀ (p g : Nat), s.defined p = true → g < 64 → ∃ t, exec (.selNext p g) s = .next t ∧
    (s.offerSpill p g = none → s.offerRing p g = none → t = { s with bus := 0 }) ∧
    (∀ o, (s.offerSpill p g = some o ∨ s.offerSpill p g = none ∧ s.offerRing p g = some o) →
      t.bus = BitVec.ofNat 64 (1 + 2 * b2n o.spill + 4 * (o.len / 32) + o.ep * 2 ^ 16 + o.seq * 2 ^ 32 + o.src * 2 ^ 48) ∧
      t.rd (Rg.CHN_SEL_NEXT_ADDR p g) = BitVec.ofNat 64 o.addr ∧
      (t.group p g).handed = (s.group p g).handed ++ [⟨o.ep, o.spill, o.src, o.start⟩] ∧
      (o.spill = true → (t.group p g).spillRot = o.src ∧ t.endpoints = s.endpoints) ∧
      (∀ e, o.spill = false → find? s.endpoints o.ep = some e → (t.group p g).rot = o.ep ∧
        find? t.endpoints o.ep = some { e with msgs := e.msgs.map fun m => if m.at_ == o.start then { m with handed := true } else m }))) ∧
  (∀ (s : State), s.Inv → ∀ (p g : Nat) (v : W64), s.defined p = true → g < 64 → ∀ (ep : Nat) (sp : Bool), bitsOf v.toNat 0 12 =
    ep → bitOf v.toNat 12 = sp → ∃ t, exec (.selDone p g v) s = .next t ∧
    ((s.group p g).handed.find? (fun h => h.ep == ep && h.spill == sp) = none →
      t.fd (Rg.CHN_EVENTS_DISCARDED p) = min (s.fd (Rg.CHN_EVENTS_DISCARDED p) + 1) 65535 ∧ t.endpoints = s.endpoints ∧ t.parts = s.parts) ∧
    (∀ h, (s.group p g).handed.find? (fun h => h.ep == ep && h.spill == sp) = some h → sp = false →
      (t.group p g).handed = (s.group p g).handed.erase h ∧ ∀ e, find? s.endpoints ep = some e → find? t.endpoints ep = some e.release) ∧
    (∀ h, (s.group p g).handed.find? (fun h => h.ep == ep && h.spill == sp) = some h → sp = true → t.endpoints = s.endpoints ∧
      t = (s.modGroup p g fun x => { x with handed := x.handed.erase h }).spillRelease p h.src h.at_)) ∧
  (∀ (s : State), s.Inv → ∀ (q : Nat) (c : Churn) (n a : Nat) (r : List (Nat × Nat × Option Nat)) (x : Send), s.ChurnTakes q c n
    a r x → ∀ (v : Bytes) (u : State), s.churnReads q c n a r = (some v, u) → ∃ t, exec (.churnAdd q) s = .next t ∧
    (c.received + 1 < c.count →
      find? t.churns q = some { c with waiting := r, received := c.received + 1 } ∧
      t.fd (Rg.CHN_PORT_SEND_STATUS_RESULT c.part n) = 0 ∧ (t.sender c.part n).queue = [] ∧ t.landings = s.landings ∧ t.endpoints = s.endpoints ∧
      (u.Writable c.part [(c.acc, u.churnSumOf c v)] → s.Stored t [(c.acc, u.churnSumOf c v)])) ∧
    (c.received + 1 = c.count → c.notice = none → c.notify = 0xFFFF →
      find? t.churns q = some { c with waiting := r, received := 0, round := (c.round + 1) % 2 ^ 32, notice := none } ∧
      t.fd (Rg.CHN_PORT_SEND_STATUS_RESULT c.part n) = 0 ∧ (t.sender c.part n).queue = [] ∧ t.landings = s.landings ∧ t.endpoints = s.endpoints)) ∧
  (∀ (s : State), s.Inv → ∀ (q : Nat) (c : Churn) (b : Bytes), find? s.churns q = some c → c.notice = some b → c.received <
    c.count → ∃ t, exec (.churnNoticePlace q) s = .next t ∧
    ((∀ e, find? s.endpoints c.notify = some e → e.closing = true ∨ e.part ≠ c.part) →
      find? t.churns q = some { c with notice := none } ∧ t.landings = s.landings ∧
      t.fd (Rg.CHN_EVENTS_DISCARDED c.part) = min (s.fd (Rg.CHN_EVENTS_DISCARDED c.part) + 1) 65535) ∧
    (∀ e, find? s.endpoints c.notify = some e → e.closing = false → e.part = c.part → ringFit e.size e.wtail e.head 32 = none → t = s) ∧
    (∀ e skip, find? s.endpoints c.notify = some e → e.closing = false → e.part = c.part → ringFit e.size e.wtail e.head 32 = some skip →
      find? t.churns q = some { c with notice := none } ∧
      (State.seqNext { s with churns := ins s.churns q { c with notice := none } } c.part managerPort c.notify).Lands t c.notify e
        ⟨c.notify, ⟨(e.wtail + skip) % 2 ^ 32, skip, (setField b 4 2 (s.seqOf c.part managerPort c.notify)).length, s.seqOf c.part managerPort c.notify, managerPort, false⟩,
          false, c.part, managerPort, none⟩ (e.ringBase + (e.wtail + skip) % 2 ^ 32 % e.size) (setField b 4 2 (s.seqOf c.part managerPort c.notify))))

/-- A GEMM with formats not allowed completes with FMT_UNSUPPORTED and writes nothing; one that writes D by rows with no stages,
  whose reads succeed, writes exactly the rows of its product (and their scales) and ends with the flags of range and poison; a
  failed read is a job fault UNCORRECTABLE. A VEC with formats not allowed completes with FMT_UNSUPPORTED; else it loads, runs
  its program over the vector buffer and writes exactly its stores, in order. A COPY writes exactly the lines it read, or their
  elements transposed; each byte elsewhere is as before. The hypotheses of the write clauses are that the partition may write
  there and that no codeword stands corrupted (writes then merge nothing). -/
def Obligations.TensorTasks : Prop :=
  (∀ (s : State), s.Inv → ∀ (n : Nat) (k : Task) (x : TaskPart) (q : Gemm), s.GemmWorks n k x q → ∀ (parity : Bool),
    ∃ t, exec (.gemmTask n parity) s = .next t ∧
    (q.fmtOk = false → t.PartOver n 0 (statusMax k.status stFmtUns) k.sub ∧ t.mem = s.mem) ∧
    (q.Plain → (s.gemmProduct q x.coreN x.slot).f.fail = true → FaultShown s t k.part stUncorr) ∧
    (q.Plain → (s.gemmProduct q x.coreN x.slot).f.fail = false → parity = false →
      s.Writable k.part (q.dWrites (s.gemmProduct q x.coreN x.slot).rows) →
      s.Stored t (q.dWrites (s.gemmProduct q x.coreN x.slot).rows) ∧
      t.PartOver n 0 (k.flagStatus (s.gemmProduct q x.coreN x.slot).range (s.gemmProduct q x.coreN x.slot).pois)
        (k.flagSub (s.gemmProduct q x.coreN x.slot).range (s.gemmProduct q x.coreN x.slot).pois))) ∧
  (∀ (s : State), s.Inv → ∀ (n : Nat) (k : Task) (x : TaskPart) (g : Graph), s.TaskWorks n 3 0 k x g → ∀ (is xs : List Bytes) (u
    : State), s.vecReads n k (g.desc k.node) is xs u → ∀ (b : VBuf) (f : Fetch) (bad : Nat), vecLoads k.part (u.physCore
    x.coreN) (vecBind (g.desc k.node) k.rows) xs u = (b, f, bad) → ∃ t, exec (.vecTask n) s = .next t ∧
    (vecFmts is xs = false → t.PartOver n 0 (statusMax k.status stFmtUns) k.sub ∧ t.mem = s.mem) ∧
    (vecFmts is xs = true → f.fail = true → FaultShown s t k.part stUncorr) ∧
    (vecFmts is xs = true → f.fail = false →
      s.Writable k.part ((vecStores xs).flatMap ((vecRun is b f.st.free).1.storeWrites (vecBind (g.desc k.node) k.rows))) →
      s.Stored t ((vecStores xs).flatMap ((vecRun is b f.st.free).1.storeWrites (vecBind (g.desc k.node) k.rows))) ∧
      t.PartOver n 0 (k.flagStatus false ((vecRun is b f.st.free).1.poisons (vecBind (g.desc k.node) k.rows) (vecStores xs)))
        (k.flagSub false ((vecRun is b f.st.free).1.poisons (vecBind (g.desc k.node) k.rows) (vecStores xs))))) ∧
  (∀ (s : State), s.Inv → ∀ (n : Nat) (k : Task) (x : TaskPart) (g : Graph), s.TaskWorks n 4 0 k x g → ∀ (ls : List Line) (f :
    Fetch), Fetch.gets ⟨false, 0, s⟩ k.part (fieldAt (g.desc k.node) 52 4) (copyFrom (g.desc k.node) k.rows) = (ls, f) →
    ∃ t, exec (.copyTask n) s = .next t ∧
    (f.fail = true → FaultShown s t k.part stUncorr) ∧
    (f.fail = false → s.Writable k.part (copyWrites (g.desc k.node) k.rows ls) → s.Stored t (copyWrites (g.desc k.node) k.rows ls) ∧
      t.PartOver n 0 (k.flagStatus false (ls.any fun l => !l.poison.isEmpty)) (k.flagSub false (ls.any fun l => !l.poison.isEmpty))) ∧
    ∀ l ∈ ls, ∀ a, l.poison = [] → l.data ≠ [] → l.pieces a = [(a, l.data)])

/-- A part whose format words are not allowed ends with FMT_UNSUPPORTED and writes nothing; one whose page walk waits changes
  nothing. A FORWARD part whose reads succeed writes exactly the O rows and statistics (or the ring's running state) of its
  computed tile groups, and ends with POISON where a mark reached an output. A BACKWARD part leaves the memory of its drain:
  delta of every row, then dQ, dK and dV. A VERIFY with logits of a format not allowed ends with FMT_UNSUPPORTED, with a row
  position at the limit with LENGTH_LIMIT, and else leaves what verifying its records in order leaves. Every part that so ends
  has no work left, and its task the status and sub-code bits named. -/
def Obligations.AttentionParts : Prop :=
  (∀ (s : State), s.Inv → ∀ (n j : Nat) (parity : Bool) (c : AttnCtx) (u : State), s.AttnWorks n j 1 c u →
    ∃ t, exec (.attnForward n ⟨j, parity⟩) s = .next t ∧
    ((s.walks.any fun w => w.task == n && w.part == j) = true → t = s) ∧
    ((s.walks.any fun w => w.task == n && w.part == j) = false → c.fmtOk = false →
      t.PartOver n j (statusMax c.k.status stFmtUns) c.k.sub ∧ t.mem = s.mem) ∧
    ((s.walks.any fun w => w.task == n && w.part == j) = false → parity = false → ∀ rows keys recBad f s2,
      u.attnLoad c c.a.row0 c.a.row1 = (some (rows, keys, recBad, f), s2) → (u.attnOut c rows keys f).2.fail = false →
      (u.attnReady c (u.attnOut c rows keys f).2).task? n = some c.k →
      (u.attnReady c (u.attnOut c rows keys f).2).Writable c.k.part (attnWrites c recBad (u.attnOut c rows keys f).1) →
      (u.attnReady c (u.attnOut c rows keys f).2).Stored t (attnWrites c recBad (u.attnOut c rows keys f).1) ∧
      t.PartOver n j (c.k.flagStatus false (attnPoison c recBad (u.attnOut c rows keys f).1))
        (c.k.flagSub false (attnPoison c recBad (u.attnOut c rows keys f).1)))) ∧
  (∀ (s : State) (n j : Nat) (parity : Bool) (c : AttnCtx) (u : State), s.AttnWorks n j 2 c u →
    ∃ t, exec (.attnBackward n ⟨j, parity⟩) s = .next t ∧
    ((s.walks.any fun w => w.task == n && w.part == j) = true → t = s) ∧
    ((s.walks.any fun w => w.task == n && w.part == j) = false → c.fmtOk = false →
      t.PartOver n j (statusMax c.k.status stFmtUns) c.k.sub ∧ t.mem = s.mem) ∧
    ((s.walks.any fun w => w.task == n && w.part == j) = false → parity = false → ∀ rows keys recBad f s2,
      u.attnLoad c 0 c.rows = (some (rows, keys, recBad, f), s2) → (u.backRows c rows f).2.2.fail = false →
      (u.backOut c rows keys recBad (u.backRows c rows f)).w.fail = false →
      (u.backOut c rows keys recBad (u.backRows c rows f)).w.st.task? n = some c.k →
      t.mem = (u.backOut c rows keys recBad (u.backRows c rows f)).w.st.mem ∧
      t.PartOver n j (c.k.flagStatus false (u.backOut c rows keys recBad (u.backRows c rows f)).bad)
        (c.k.flagSub false (u.backOut c rows keys recBad (u.backRows c rows f)).bad))) ∧
  (∀ (s : State) (n : Nat) (c : AttnCtx) (u : State), s.AttnWorks n 0 3 c u → ∃ t, exec (.attnVerify n) s = .next t ∧
    (c.logitsOk = false → t.PartOver n 0 (statusMax c.k.status stFmtUns) c.k.sub ∧ t.mem = s.mem) ∧
    (c.logitsOk = true → ((u.verifyRows c).1.any fun x => 4194304 ≤ x.pos) = true → t.PartOver n 0 (statusMax c.k.status stLength) c.k.sub ∧ t.mem = s.mem) ∧
    (c.logitsOk = true → ((u.verifyRows c).1.any fun x => 4194304 ≤ x.pos) = false → ∀ k',
      (State.verified c (u.verifyRows c).2.2 (fieldAt c.ext 24 2)).w.fail = false → (State.verified c (u.verifyRows c).2.2 (fieldAt c.ext 24 2)).fail = false →
      (State.verified c (u.verifyRows c).2.2 (fieldAt c.ext 24 2)).w.st.task? n = some k' → k'.status < stUncorr →
      t.mem = (State.verified c (u.verifyRows c).2.2 (fieldAt c.ext 24 2)).w.st.mem ∧
      t.PartOver n 0 (k'.flagStatus false (State.verified c (u.verifyRows c).2.2 (fieldAt c.ext 24 2)).bad)
        (k'.flagSub false (State.verified c (u.verifyRows c).2.2 (fieldAt c.ext 24 2)).bad)))

/-- An ENCODE whose reads succeed writes exactly its directory, tiles and record; a DECODE exactly its lines and record, tiles
  with a fault read as zero with INDEX_RANGE; a CHECK24 exactly its record; a read that fails is a job fault UNCORRECTABLE; the
  part then has no work left. SKIMMER_TILE_SERVE serves the next request of the rotation and removes it. A write of CLU_SKM_CTRL
  on a cluster of a variant with a Skimmer sets DISABLE, notes when draining began, and keeps the waiting requests. -/
def Obligations.SkimmerCommands : Prop :=
  (∀ (s : State), s.Inv → ∀ (n : Nat) (c : SkimCtx), s.SkimWorks n 1 c → ∀ (x : Elems) (f : Fetch), c.dense s = (x, f) →
    ∃ t, exec (.skimEncode n) s = .next t ∧
    (f.fail = true → FaultShown s t c.k.part stUncorr) ∧
    (f.fail = false → s.Writable c.k.part (c.encodeWrites x) → s.Stored t (c.encodeWrites x) ∧
      t.PartOver n 0 (c.k.flagStatus false (tilesBad x c.n c.len != 0)) (c.k.flagSub false (tilesBad x c.n c.len != 0)))) ∧
  (∀ (s : State), s.Inv → ∀ (n : Nat) (c : SkimCtx), s.SkimWorks n 2 c → ∀ (ts : List Tile) (f : Fetch), Fetch.tiles ⟨false, 0,
    s⟩ (directly c.k.part) c.w.fmt c.w.sgn (fieldAt c.b 16 8) c.n c.len = (ts, f) → ∃ t, exec (.skimDecode n) s = .next t ∧
    (f.fail = true → FaultShown s t c.k.part stUncorr) ∧
    (f.fail = false → s.Writable c.k.part (c.decodeWrites ts) → s.Stored t (c.decodeWrites ts) ∧
      t.PartOver n 0 (c.k.flagStatus (rangeTiles ts != 0) (ts.any (·.bad))) (c.k.flagSub (rangeTiles ts != 0) (ts.any (·.bad))))) ∧
  (∀ (s : State), s.Inv → ∀ (n : Nat) (c : SkimCtx), s.SkimWorks n 3 c → ∀ (x : Elems) (f : Fetch), c.dense s = (x, f) →
    ∃ t, exec (.skimCheck24 n) s = .next t ∧
    (f.fail = true → FaultShown s t c.k.part stUncorr) ∧
    (f.fail = false → s.Writable c.k.part [(fieldAt c.b 40 8, c.checkRec x)] →
      s.Stored t [(fieldAt c.b 40 8, c.checkRec x)] ∧
      t.PartOver n 0 (c.k.flagStatus false (tilesBad x c.n c.len != 0)) (c.k.flagSub false (tilesBad x c.n c.len != 0)))) ∧
  (∀ (s : State) (k : Nat) (r : TileReq), (s.cluster k).nextTile = some r →
    ∃ t, exec (.skimmerTileServe k) s = .next t ∧ (t.cluster k).skimQ = (s.cluster k).skimQ.erase r ∧ (t.cluster k).skimRot = r.core ∧
    (s.task? r.task = none → t.regs = s.regs) ∧ t.tasks = s.tasks ∧ t.mem = s.mem) ∧
  (∀ (s : State), s.Inv → ∀ (k : Nat) (v : W64), s.var.skimmer = true → s.enabled.contains k = true →
    ∃ t, exec (.skmDisableWrite k v) s = .next t ∧ t.fd (Rg.CLU_SKM_CTRL_DISABLE k) = v.toNat % 2 ∧
    (t.cluster k).skimOffAt = (if v.toNat % 2 = 1 ∧ s.fd (Rg.CLU_SKM_CTRL_DISABLE k) = 0 then s.now else (s.cluster k).skimOffAt) ∧
    (t.cluster k).skimQ = (s.cluster k).skimQ ∧ t.tasks = s.tasks)

/-- A WAIT whose wait has ended ends its part and sends nothing. A WRITE puts the frames of its LEN bytes on the job flow to its
  device behind those not acknowledged, the counter on the last, and its part ends; with no flow context free it waits for one;
  to a device with no valid route it ends with UNIT_DISABLED. A SHARD waits while a page of its layer has EXPCNT 15, and else
  sends the layer's pages in export form as one message in the same way. An APPEND, a PUT_AT and a CONTRIB put their send into
  the task port's queue, or wait while it is full. -/
def Obligations.TransferTasks : Prop :=
  (∀ (s : State) (n : Nat) (k : Task) (b : Bytes), s.XferWorks n 0 k b →
    ∃ t, exec (.xferWait n) s = .next t ∧ t.PartOver n 0 k.status k.sub ∧ t.mem = s.mem ∧ t.coach = s.coach) ∧
  (∀ (s : State) (n : Nat) (k : Task) (b : Bytes), s.XferWorks n 1 k b → ∃ t, exec (.xferWrite n) s = .next t ∧
    (∀ u, s.jobFlow k.part (fieldAt b 4 2) (fieldAt b 6 1) = (.waits, u) → (0, n, 0) ∈ t.coach.opens ∧ t.tasks = u.tasks) ∧
    (∀ u m, s.jobFlow k.part (fieldAt b 4 2) (fieldAt b 6 1) = (.disabled, u) → u.task? n = some m → m.status < stUncorr →
      t.PartOver n 0 (statusMax m.status stDisabled) m.sub) ∧
    (∀ u i bs v m x, s.jobFlow k.part (fieldAt b 4 2) (fieldAt b 6 1) = (.flow i, u) →
      (u.xferAct n b).portRead n k.part (fieldAt b 8 8) (fieldAt b 16 8) = (some bs, v) → v.task? n = some m → m.status < stUncorr → v.tx? i = some x →
      v.XferSent t n i b m (writeFrames (fieldAt b 24 8) bs))) ∧
  (∀ (s : State) (n : Nat) (k : Task) (b : Bytes), s.XferWorks n 2 k b → ∀ (hd : ListHdr) (ps : List (Nat × Nat × Nat × Nat)) (u
    : State), s.ShardPages n k b hd ps u → ∃ t, exec (.xferShard n) s = .next t ∧
    ((∃ x ∈ ps, (u.page x.2.2.2).exp = 15) → t = s) ∧
    ((∀ x ∈ ps, (u.page x.2.2.2).exp ≠ 15) →
      (∀ v, u.jobFlow k.part (fieldAt b 4 2) (fieldAt b 6 1) = (.waits, v) → (0, n, 0) ∈ t.coach.opens ∧ t.tasks = v.tasks) ∧
      (∀ v m, u.jobFlow k.part (fieldAt b 4 2) (fieldAt b 6 1) = (.disabled, v) → v.task? n = some m → m.status < stUncorr →
        t.PartOver n 0 (statusMax m.status stDisabled) m.sub) ∧
      (∀ v i fr w m x, u.jobFlow k.part (fieldAt b 4 2) (fieldAt b 6 1) = (.flow i, v) →
        (v.xferAct n b).shardMsg k hd (fieldAt b 12 2) (fieldAt b 24 8) ps = (some fr, w) → w.task? n = some m → m.status < stUncorr → w.tx? i = some x →
        w.XferSent t n i b m fr))) ∧
  (∀ (s : State) (n : Nat) (k : Task) (b : Bytes), s.XferWorks n 3 k b →
    ∃ t, exec (.xferAppend n) s = .next t ∧ s.TaskSends (s.xferAct n b) t k.part (xferSend n 3 b)) ∧
  (∀ (s : State) (n : Nat) (k : Task) (b : Bytes), s.XferWorks n 4 k b →
    ∃ t, exec (.xferPutAt n) s = .next t ∧ s.TaskSends (s.xferAct n b) t k.part (xferSend n 4 b)) ∧
  (∀ (s : State) (n : Nat) (k : Task) (b : Bytes), s.portTask n 6 = some (k, b) → fieldAt b 0 1 = 5 → k.stage = 0 →
    ∃ t, exec (.collContrib n) s = .next t ∧
    s.TaskSends (s.modTask n fun k => { k with stage := 1 }) t k.part ⟨2, false, 0, fieldAt b 32 2, 0, fieldAt b 8 8, some n, none, false, false⟩)

/-- A collective at a step whose data has not arrived changes nothing; at a step not begun it sends the step's runs to the peer
  and waits for its own, or stops where a send cannot go on; after its last step it writes its report, if it has a REPORT
  address, to exactly those bytes and its part ends. -/
def Obligations.Collectives : Prop :=
  (∀ (s : State), s.Inv → ∀ (n : Nat) (k : Task) (b : Bytes) (r : Nat), s.CollWorks n 1 k b r →
    ∃ t, exec (.collReduceScatter n) s = .next t ∧ s.CollGoes t n k b r) ∧
  (∀ (s : State), s.Inv → ∀ (n : Nat) (k : Task) (b : Bytes) (r : Nat), s.CollWorks n 2 k b r →
    ∃ t, exec (.collAllGather n) s = .next t ∧ s.CollGoes t n k b r) ∧
  (∀ (s : State), s.Inv → ∀ (n : Nat) (k : Task) (b : Bytes) (r : Nat), s.CollWorks n 3 k b r →
    ∃ t, exec (.collAllReduce n) s = .next t ∧ s.CollGoes t n k b r) ∧
  (∀ (s : State), s.Inv → ∀ (n : Nat) (k : Task) (b : Bytes) (r : Nat), s.CollWorks n 4 k b r →
    ∃ t, exec (.collBarrier n) s = .next t ∧ s.CollGoes t n k b r)

/-- For an EXPORTING entry of a live partition without a context: a destination with no valid route retires it with
  UNIT_DISABLED; a cancelled one retires DROPPED; with 256 contexts in use it joins those that wait; else it gets the lowest
  free context with the slots of its list, and the flow to its first destination is opened, or waits for a flow context. -/
def Obligations.CacheExport : Prop :=
  ∀ (s : State) (e : Nat) (y : Entry), s.ExportWaits e y → ∃ t, exec (.exportStart e) s = .next t ∧
    (((y.dests.take y.nDests).any fun d => !s.routeValid (d % 8192)) = true → t = s.retire (s.ledgerOwner e) e stDisabled none) ∧
    (((y.dests.take y.nDests).any fun d => !s.routeValid (d % 8192)) = false → y.cancelled = true → t = s.retire (s.ledgerOwner e) e stDropped none) ∧
    (((y.dests.take y.nDests).any fun d => !s.routeValid (d % 8192)) = false → y.cancelled = false → 256 ≤ s.coach.exports.length →
      e ∈ t.coach.exportWait ∧ t.coach.exports = s.coach.exports) ∧
    (((y.dests.take y.nDests).any fun d => !s.routeValid (d % 8192)) = false → y.cancelled = false → s.coach.exports.length < 256 →
      (s.coach.exportWait.any fun w => w != e && s.coach.exportWait.head? == some w) = false → (s.exportRead e).lost = false → (s.exportMade e).ent e = y →
      (∀ v, 0 < y.nDests → (s.exportMade e).openFlow (s.ledgerOwner e) (y.dests.getD 0 0 % 8192) (bitsOf (y.dests.getD 0 0) 13 4) 1
        (some (freeIdx (s.exportRead e).st.coach.exports)) = (.waits, v) → (1, freeIdx (s.exportRead e).st.coach.exports, 0) ∈ t.coach.opens) ∧
      (∀ v i, y.nDests = 1 → (s.exportMade e).openFlow (s.ledgerOwner e) (y.dests.getD 0 0 % 8192) (bitsOf (y.dests.getD 0 0) 13 4) 1
        (some (freeIdx (s.exportRead e).st.coach.exports)) = (.flow i, v) →
        v.exp? (freeIdx (s.exportRead e).st.coach.exports) = some ⟨e, s.ledgerOwner e, [], (s.exportRead e).slots, 0, [], none, false⟩ → v.ent e = y →
        t.exp? (freeIdx (s.exportRead e).st.coach.exports) = some ⟨e, s.ledgerOwner e, [i], (s.exportRead e).slots, 0, [], none, false⟩))
end

