-- ==== Sys2Proof/Laws/Blocks.lean ====
section
/-!
SUPPORT. The block in whose windows each register stands (01_architecture.md R33).
-/
namespace Sys2Proof.Machine

theorem Rg.DEV_ID_in : RegBlock.dev.has Rg.DEV_ID := by
  simp only [RegBlock.has, Rg.DEV_ID]; omega
theorem Rg.DEV_VARIANT_in : RegBlock.dev.has Rg.DEV_VARIANT := by
  simp only [RegBlock.has, Rg.DEV_VARIANT]; omega
theorem Rg.DEV_CAP0_in : RegBlock.dev.has Rg.DEV_CAP0 := by
  simp only [RegBlock.has, Rg.DEV_CAP0]; omega
theorem Rg.DEV_CAP1_in : RegBlock.dev.has Rg.DEV_CAP1 := by
  simp only [RegBlock.has, Rg.DEV_CAP1]; omega
theorem Rg.DEV_CLUSTER_MAP_in : RegBlock.dev.has Rg.DEV_CLUSTER_MAP := by
  simp only [RegBlock.has, Rg.DEV_CLUSTER_MAP]; omega
theorem Rg.DEV_SERIAL_in : RegBlock.dev.has Rg.DEV_SERIAL := by
  simp only [RegBlock.has, Rg.DEV_SERIAL]; omega
theorem Rg.DEV_CORE_MAP_in (j : Nat) : RegBlock.dev.has (Rg.DEV_CORE_MAP j) := by
  simp only [RegBlock.has, Rg.DEV_CORE_MAP]; omega
theorem Rg.DEV_TIME_in : RegBlock.dev.has Rg.DEV_TIME := by
  simp only [RegBlock.has, Rg.DEV_TIME]; omega
theorem Rg.DEV_TIME_SET_in : RegBlock.dev.has Rg.DEV_TIME_SET := by
  simp only [RegBlock.has, Rg.DEV_TIME_SET]; omega
theorem Rg.DEV_TIME_CTRL_in : RegBlock.dev.has Rg.DEV_TIME_CTRL := by
  simp only [RegBlock.has, Rg.DEV_TIME_CTRL]; omega
theorem Rg.DEV_PPS_CAPTURE_in : RegBlock.dev.has Rg.DEV_PPS_CAPTURE := by
  simp only [RegBlock.has, Rg.DEV_PPS_CAPTURE]; omega
theorem Rg.DEV_PPS_STATS_in : RegBlock.dev.has Rg.DEV_PPS_STATS := by
  simp only [RegBlock.has, Rg.DEV_PPS_STATS]; omega
theorem Rg.DEV_PPS_OFFSET_in : RegBlock.dev.has Rg.DEV_PPS_OFFSET := by
  simp only [RegBlock.has, Rg.DEV_PPS_OFFSET]; omega
theorem Rg.PWR_CAP_SET_in : RegBlock.pwr.has Rg.PWR_CAP_SET := by
  simp only [RegBlock.has, Rg.PWR_CAP_SET]; omega
theorem Rg.PWR_STATUS_in : RegBlock.pwr.has Rg.PWR_STATUS := by
  simp only [RegBlock.has, Rg.PWR_STATUS]; omega
theorem Rg.PWR_BUDGET_in : RegBlock.pwr.has Rg.PWR_BUDGET := by
  simp only [RegBlock.has, Rg.PWR_BUDGET]; omega
theorem Rg.PWR_THERM_in : RegBlock.pwr.has Rg.PWR_THERM := by
  simp only [RegBlock.has, Rg.PWR_THERM]; omega
theorem Rg.PWR_IRQ_in : RegBlock.pwr.has Rg.PWR_IRQ := by
  simp only [RegBlock.has, Rg.PWR_IRQ]; omega
theorem Rg.PWR_ENERGY_in : RegBlock.pwr.has Rg.PWR_ENERGY := by
  simp only [RegBlock.has, Rg.PWR_ENERGY]; omega
theorem Rg.PWR_PART_GRANT_in (j : Nat) : RegBlock.pwr.has (Rg.PWR_PART_GRANT j) := by
  simp only [RegBlock.has, Rg.PWR_PART_GRANT]; omega
theorem Rg.PWR_PART_CHARGE_in (j : Nat) : RegBlock.pwr.has (Rg.PWR_PART_CHARGE j) := by
  simp only [RegBlock.has, Rg.PWR_PART_CHARGE]; omega
theorem Rg.PWR_THR_CNT_in (j : Nat) : RegBlock.pwr.has (Rg.PWR_THR_CNT j) := by
  simp only [RegBlock.has, Rg.PWR_THR_CNT]; omega
theorem Rg.PWR_THR_US_in (j : Nat) : RegBlock.pwr.has (Rg.PWR_THR_US j) := by
  simp only [RegBlock.has, Rg.PWR_THR_US]; omega
theorem Rg.IMG_STATUS_in : RegBlock.img.has Rg.IMG_STATUS := by
  simp only [RegBlock.has, Rg.IMG_STATUS]; omega
theorem Rg.IMG_SLOT_SEQ_in (j : Nat) : RegBlock.img.has (Rg.IMG_SLOT_SEQ j) := by
  simp only [RegBlock.has, Rg.IMG_SLOT_SEQ]; omega
theorem Rg.IMG_SLOT_REASON_in : RegBlock.img.has Rg.IMG_SLOT_REASON := by
  simp only [RegBlock.has, Rg.IMG_SLOT_REASON]; omega
theorem Rg.IMG_CMD_in : RegBlock.img.has Rg.IMG_CMD := by
  simp only [RegBlock.has, Rg.IMG_CMD]; omega
theorem Rg.IMG_XFER_HOST_in : RegBlock.img.has Rg.IMG_XFER_HOST := by
  simp only [RegBlock.has, Rg.IMG_XFER_HOST]; omega
theorem Rg.IMG_XFER_OFFSET_in : RegBlock.img.has Rg.IMG_XFER_OFFSET := by
  simp only [RegBlock.has, Rg.IMG_XFER_OFFSET]; omega
theorem Rg.IMG_XFER_LEN_in : RegBlock.img.has Rg.IMG_XFER_LEN := by
  simp only [RegBlock.has, Rg.IMG_XFER_LEN]; omega
theorem Rg.IMG_RELOAD_in (j : Nat) : RegBlock.img.has (Rg.IMG_RELOAD j) := by
  simp only [RegBlock.has, Rg.IMG_RELOAD]; omega
theorem Rg.SEC_BOOT_STATUS_in : RegBlock.sec.has Rg.SEC_BOOT_STATUS := by
  simp only [RegBlock.has, Rg.SEC_BOOT_STATUS]; omega
theorem Rg.SEC_FW_SLOT_SEQ_in (j : Nat) : RegBlock.sec.has (Rg.SEC_FW_SLOT_SEQ j) := by
  simp only [RegBlock.has, Rg.SEC_FW_SLOT_SEQ]; omega
theorem Rg.SEC_FW_REASON_in : RegBlock.sec.has Rg.SEC_FW_REASON := by
  simp only [RegBlock.has, Rg.SEC_FW_REASON]; omega
theorem Rg.SEC_FW_VERSION_0_in : RegBlock.sec.has Rg.SEC_FW_VERSION_0 := by
  simp only [RegBlock.has, Rg.SEC_FW_VERSION_0]; omega
theorem Rg.SEC_FW_VERSION_1_in : RegBlock.sec.has Rg.SEC_FW_VERSION_1 := by
  simp only [RegBlock.has, Rg.SEC_FW_VERSION_1]; omega
theorem Rg.SEC_SVN_in : RegBlock.sec.has Rg.SEC_SVN := by
  simp only [RegBlock.has, Rg.SEC_SVN]; omega
theorem Rg.SEC_CMD_in : RegBlock.sec.has Rg.SEC_CMD := by
  simp only [RegBlock.has, Rg.SEC_CMD]; omega
theorem Rg.SEC_XFER_HOST_in : RegBlock.sec.has Rg.SEC_XFER_HOST := by
  simp only [RegBlock.has, Rg.SEC_XFER_HOST]; omega
theorem Rg.SEC_XFER_OFFSET_in : RegBlock.sec.has Rg.SEC_XFER_OFFSET := by
  simp only [RegBlock.has, Rg.SEC_XFER_OFFSET]; omega
theorem Rg.SEC_XFER_LEN_in : RegBlock.sec.has Rg.SEC_XFER_LEN := by
  simp only [RegBlock.has, Rg.SEC_XFER_LEN]; omega
theorem Rg.SEC_ATT_NONCE_in (j : Nat) : RegBlock.sec.has (Rg.SEC_ATT_NONCE j) := by
  simp only [RegBlock.has, Rg.SEC_ATT_NONCE]; omega
theorem Rg.SEC_RESULT_in : RegBlock.sec.has Rg.SEC_RESULT := by
  simp only [RegBlock.has, Rg.SEC_RESULT]; omega
theorem Rg.SEC_PART_ENTRY_in (j : Nat) : RegBlock.sec.has (Rg.SEC_PART_ENTRY j) := by
  simp only [RegBlock.has, Rg.SEC_PART_ENTRY]; omega
theorem Rg.SEC_PART_CTRL_in (j : Nat) : RegBlock.sec.has (Rg.SEC_PART_CTRL j) := by
  simp only [RegBlock.has, Rg.SEC_PART_CTRL]; omega
theorem Rg.FLT_RESET_in : RegBlock.fltp.has Rg.FLT_RESET := by
  simp only [RegBlock.has, Rg.FLT_RESET]; omega
theorem Rg.FLT_RESET_CAUSE_in : RegBlock.fltp.has Rg.FLT_RESET_CAUSE := by
  simp only [RegBlock.has, Rg.FLT_RESET_CAUSE]; omega
theorem Rg.FLT_LOG_STATUS_in : RegBlock.flt.has Rg.FLT_LOG_STATUS := by
  simp only [RegBlock.has, Rg.FLT_LOG_STATUS]; omega
theorem Rg.FLT_LOG_HEAD0_in : RegBlock.flt.has Rg.FLT_LOG_HEAD0 := by
  simp only [RegBlock.has, Rg.FLT_LOG_HEAD0]; omega
theorem Rg.FLT_LOG_HEAD1_in : RegBlock.flt.has Rg.FLT_LOG_HEAD1 := by
  simp only [RegBlock.has, Rg.FLT_LOG_HEAD1]; omega
theorem Rg.FLT_LOG_HEAD2_in : RegBlock.flt.has Rg.FLT_LOG_HEAD2 := by
  simp only [RegBlock.has, Rg.FLT_LOG_HEAD2]; omega
theorem Rg.FLT_IRQ_in : RegBlock.flt.has Rg.FLT_IRQ := by
  simp only [RegBlock.has, Rg.FLT_IRQ]; omega
theorem Rg.FLT_IK_WDOG_in : RegBlock.fltp.has Rg.FLT_IK_WDOG := by
  simp only [RegBlock.has, Rg.FLT_IK_WDOG]; omega
theorem Rg.FLT_REPAIR_HOST_in : RegBlock.fltp.has Rg.FLT_REPAIR_HOST := by
  simp only [RegBlock.has, Rg.FLT_REPAIR_HOST]; omega
theorem Rg.FLT_REPAIR_LEN_in : RegBlock.fltp.has Rg.FLT_REPAIR_LEN := by
  simp only [RegBlock.has, Rg.FLT_REPAIR_LEN]; omega
theorem Rg.FLT_REPAIR_CMD_in : RegBlock.fltp.has Rg.FLT_REPAIR_CMD := by
  simp only [RegBlock.has, Rg.FLT_REPAIR_CMD]; omega
theorem Rg.FLT_REPAIR_RESULT_in : RegBlock.fltp.has Rg.FLT_REPAIR_RESULT := by
  simp only [RegBlock.has, Rg.FLT_REPAIR_RESULT]; omega
theorem Rg.FLT_PART_in (j : Nat) : RegBlock.fltp.has (Rg.FLT_PART j) := by
  simp only [RegBlock.has, Rg.FLT_PART]; omega
theorem Rg.FLT_PART_TIME_in (j : Nat) : RegBlock.fltp.has (Rg.FLT_PART_TIME j) := by
  simp only [RegBlock.has, Rg.FLT_PART_TIME]; omega
theorem Rg.SVC_STATE_in : RegBlock.svc.has Rg.SVC_STATE := by
  simp only [RegBlock.has, Rg.SVC_STATE]; omega
theorem Rg.SVC_CMD_in : RegBlock.svc.has Rg.SVC_CMD := by
  simp only [RegBlock.has, Rg.SVC_CMD]; omega
theorem Rg.SVC_CFG_in : RegBlock.svc.has Rg.SVC_CFG := by
  simp only [RegBlock.has, Rg.SVC_CFG]; omega
theorem Rg.SVC_LBAR_in : RegBlock.svc.has Rg.SVC_LBAR := by
  simp only [RegBlock.has, Rg.SVC_LBAR]; omega
theorem Rg.SVC_PRESENCE_in : RegBlock.svc.has Rg.SVC_PRESENCE := by
  simp only [RegBlock.has, Rg.SVC_PRESENCE]; omega
theorem Rg.SVC_IRQ_in : RegBlock.svc.has Rg.SVC_IRQ := by
  simp only [RegBlock.has, Rg.SVC_IRQ]; omega
theorem Rg.LRL_STATUS_in : RegBlock.lrl.has Rg.LRL_STATUS := by
  simp only [RegBlock.has, Rg.LRL_STATUS]; omega
theorem Rg.LRL_CFG_in : RegBlock.lrl.has Rg.LRL_CFG := by
  simp only [RegBlock.has, Rg.LRL_CFG]; omega
theorem Rg.LRL_ERR_in : RegBlock.lrl.has Rg.LRL_ERR := by
  simp only [RegBlock.has, Rg.LRL_ERR]; omega
theorem Rg.LRL_EVENTS_in : RegBlock.lrl.has Rg.LRL_EVENTS := by
  simp only [RegBlock.has, Rg.LRL_EVENTS]; omega
theorem Rg.LRL_IRQ_MASK_in : RegBlock.lrl.has Rg.LRL_IRQ_MASK := by
  simp only [RegBlock.has, Rg.LRL_IRQ_MASK]; omega
theorem Rg.LRL_IRQ_PEND_in : RegBlock.lrl.has Rg.LRL_IRQ_PEND := by
  simp only [RegBlock.has, Rg.LRL_IRQ_PEND]; omega
theorem Rg.LRL_IRQ_REARM_in : RegBlock.lrl.has Rg.LRL_IRQ_REARM := by
  simp only [RegBlock.has, Rg.LRL_IRQ_REARM]; omega
theorem Rg.LRL_HWIN_BASE_in (j : Nat) : RegBlock.lrl.has (Rg.LRL_HWIN_BASE j) := by
  simp only [RegBlock.has, Rg.LRL_HWIN_BASE]; omega
theorem Rg.LRL_HWIN_LIMIT_in (j : Nat) : RegBlock.lrl.has (Rg.LRL_HWIN_LIMIT j) := by
  simp only [RegBlock.has, Rg.LRL_HWIN_LIMIT]; omega
theorem Rg.CCH_PORT_CTRL_in (i : Nat) : RegBlock.cch.has (Rg.CCH_PORT_CTRL i) := by
  simp only [RegBlock.has, Rg.CCH_PORT_CTRL]; omega
theorem Rg.CCH_PORT_STATUS_in (i : Nat) : RegBlock.cch.has (Rg.CCH_PORT_STATUS i) := by
  simp only [RegBlock.has, Rg.CCH_PORT_STATUS]; omega
theorem Rg.CCH_PORT_FEC_in (i : Nat) : RegBlock.cch.has (Rg.CCH_PORT_FEC i) := by
  simp only [RegBlock.has, Rg.CCH_PORT_FEC]; omega
theorem Rg.CCH_PORT_FRAMES_in (i : Nat) : RegBlock.cch.has (Rg.CCH_PORT_FRAMES i) := by
  simp only [RegBlock.has, Rg.CCH_PORT_FRAMES]; omega
theorem Rg.CCH_PORT_DROP_in (i : Nat) : RegBlock.cch.has (Rg.CCH_PORT_DROP i) := by
  simp only [RegBlock.has, Rg.CCH_PORT_DROP]; omega
theorem Rg.CCH_PORT_RETX_in (i : Nat) : RegBlock.cch.has (Rg.CCH_PORT_RETX i) := by
  simp only [RegBlock.has, Rg.CCH_PORT_RETX]; omega
theorem Rg.CCH_PORT_EVENTS_in (i : Nat) : RegBlock.cch.has (Rg.CCH_PORT_EVENTS i) := by
  simp only [RegBlock.has, Rg.CCH_PORT_EVENTS]; omega
theorem Rg.CCH_DEVICE_in : RegBlock.cch.has Rg.CCH_DEVICE := by
  simp only [RegBlock.has, Rg.CCH_DEVICE]; omega
theorem Rg.CCH_XPORT_CFG_in : RegBlock.cch.has Rg.CCH_XPORT_CFG := by
  simp only [RegBlock.has, Rg.CCH_XPORT_CFG]; omega
theorem Rg.CCH_ROUTE_SEL_in : RegBlock.cch.has Rg.CCH_ROUTE_SEL := by
  simp only [RegBlock.has, Rg.CCH_ROUTE_SEL]; omega
theorem Rg.CCH_ROUTE_DATA_in : RegBlock.cch.has Rg.CCH_ROUTE_DATA := by
  simp only [RegBlock.has, Rg.CCH_ROUTE_DATA]; omega
theorem Rg.CCH_FLOWS_in : RegBlock.cch.has Rg.CCH_FLOWS := by
  simp only [RegBlock.has, Rg.CCH_FLOWS]; omega
theorem Rg.CCH_EXPORT_in : RegBlock.cch.has Rg.CCH_EXPORT := by
  simp only [RegBlock.has, Rg.CCH_EXPORT]; omega
theorem Rg.CCH_EXPORT_END_in : RegBlock.cch.has Rg.CCH_EXPORT_END := by
  simp only [RegBlock.has, Rg.CCH_EXPORT_END]; omega
theorem Rg.CCH_ABORT_in : RegBlock.cch.has Rg.CCH_ABORT := by
  simp only [RegBlock.has, Rg.CCH_ABORT]; omega
theorem Rg.CCH_LAST_in (j : Nat) : RegBlock.cch.has (Rg.CCH_LAST j) := by
  simp only [RegBlock.has, Rg.CCH_LAST]; omega
theorem Rg.CCH_LAST_SEQ_in (j : Nat) : RegBlock.cch.has (Rg.CCH_LAST_SEQ j) := by
  simp only [RegBlock.has, Rg.CCH_LAST_SEQ]; omega
theorem Rg.CCH_WDOG_in (j : Nat) : RegBlock.cch.has (Rg.CCH_WDOG j) := by
  simp only [RegBlock.has, Rg.CCH_WDOG]; omega
theorem Rg.CCH_CTR_SEL_in (j : Nat) : RegBlock.cch.has (Rg.CCH_CTR_SEL j) := by
  simp only [RegBlock.has, Rg.CCH_CTR_SEL]; omega
theorem Rg.CCH_CTR_VAL_in (j : Nat) : RegBlock.cch.has (Rg.CCH_CTR_VAL j) := by
  simp only [RegBlock.has, Rg.CCH_CTR_VAL]; omega
theorem Rg.MEM_CONFIG_in : RegBlock.mem.has Rg.MEM_CONFIG := by
  simp only [RegBlock.has, Rg.MEM_CONFIG]; omega
theorem Rg.MEM_SCRUB_STATUS_in : RegBlock.mem.has Rg.MEM_SCRUB_STATUS := by
  simp only [RegBlock.has, Rg.MEM_SCRUB_STATUS]; omega
theorem Rg.MEM_ERR_COUNT_in : RegBlock.mem.has Rg.MEM_ERR_COUNT := by
  simp only [RegBlock.has, Rg.MEM_ERR_COUNT]; omega
theorem Rg.MEM_LOG_STATUS_in : RegBlock.mem.has Rg.MEM_LOG_STATUS := by
  simp only [RegBlock.has, Rg.MEM_LOG_STATUS]; omega
theorem Rg.MEM_LOG_HEAD0_in : RegBlock.mem.has Rg.MEM_LOG_HEAD0 := by
  simp only [RegBlock.has, Rg.MEM_LOG_HEAD0]; omega
theorem Rg.MEM_LOG_HEAD1_in : RegBlock.mem.has Rg.MEM_LOG_HEAD1 := by
  simp only [RegBlock.has, Rg.MEM_LOG_HEAD1]; omega
theorem Rg.MEM_SPLIT_in (j : Nat) : RegBlock.mem.has (Rg.MEM_SPLIT j) := by
  simp only [RegBlock.has, Rg.MEM_SPLIT]; omega
theorem Rg.MEM_CH_STATUS_in (i : Nat) : RegBlock.mem.has (Rg.MEM_CH_STATUS i) := by
  simp only [RegBlock.has, Rg.MEM_CH_STATUS]; omega
theorem Rg.MEM_CH_SLOTS_READ_in (i : Nat) : RegBlock.mem.has (Rg.MEM_CH_SLOTS_READ i) := by
  simp only [RegBlock.has, Rg.MEM_CH_SLOTS_READ]; omega
theorem Rg.MEM_CH_SLOTS_WRITE_in (i : Nat) : RegBlock.mem.has (Rg.MEM_CH_SLOTS_WRITE i) := by
  simp only [RegBlock.has, Rg.MEM_CH_SLOTS_WRITE]; omega
theorem Rg.MEM_CH_SLOTS_REMOTE_in (i : Nat) : RegBlock.mem.has (Rg.MEM_CH_SLOTS_REMOTE i) := by
  simp only [RegBlock.has, Rg.MEM_CH_SLOTS_REMOTE]; omega
theorem Rg.MEM_CH_SLOTS_IDLE_in (i : Nat) : RegBlock.mem.has (Rg.MEM_CH_SLOTS_IDLE i) := by
  simp only [RegBlock.has, Rg.MEM_CH_SLOTS_IDLE]; omega
theorem Rg.MEM_CH_ECC_in (i : Nat) : RegBlock.mem.has (Rg.MEM_CH_ECC i) := by
  simp only [RegBlock.has, Rg.MEM_CH_ECC]; omega
theorem Rg.DSP_CTRL_in (i : Nat) : RegBlock.dsp.has (Rg.DSP_CTRL i) := by
  simp only [RegBlock.has, Rg.DSP_CTRL]; omega
theorem Rg.DSP_STATUS_in (i : Nat) : RegBlock.dsp.has (Rg.DSP_STATUS i) := by
  simp only [RegBlock.has, Rg.DSP_STATUS]; omega
theorem Rg.DSP_GRAPHS_in (i : Nat) : RegBlock.dsp.has (Rg.DSP_GRAPHS i) := by
  simp only [RegBlock.has, Rg.DSP_GRAPHS]; omega
theorem Rg.DSP_POOL_in (i : Nat) : RegBlock.dsp.has (Rg.DSP_POOL i) := by
  simp only [RegBlock.has, Rg.DSP_POOL]; omega
theorem Rg.DSP_CMD_in (i : Nat) : RegBlock.dsp.has (Rg.DSP_CMD i) := by
  simp only [RegBlock.has, Rg.DSP_CMD]; omega
theorem Rg.DSP_CMD_ADDR_in (i : Nat) : RegBlock.dsp.has (Rg.DSP_CMD_ADDR i) := by
  simp only [RegBlock.has, Rg.DSP_CMD_ADDR]; omega
theorem Rg.DSP_CMD_RESULT_in (i : Nat) : RegBlock.dsp.has (Rg.DSP_CMD_RESULT i) := by
  simp only [RegBlock.has, Rg.DSP_CMD_RESULT]; omega
theorem Rg.DSP_CRING_BASE_in (i : Nat) : RegBlock.dsp.has (Rg.DSP_CRING_BASE i) := by
  simp only [RegBlock.has, Rg.DSP_CRING_BASE]; omega
theorem Rg.DSP_CRING_CFG_in (i : Nat) : RegBlock.dsp.has (Rg.DSP_CRING_CFG i) := by
  simp only [RegBlock.has, Rg.DSP_CRING_CFG]; omega
theorem Rg.DSP_CRING_TAIL_in (i : Nat) : RegBlock.dsp.has (Rg.DSP_CRING_TAIL i) := by
  simp only [RegBlock.has, Rg.DSP_CRING_TAIL]; omega
theorem Rg.DSP_CRING_HEAD_in (i : Nat) : RegBlock.dsp.has (Rg.DSP_CRING_HEAD i) := by
  simp only [RegBlock.has, Rg.DSP_CRING_HEAD]; omega
theorem Rg.DSP_CB_BASE_in (i : Nat) : RegBlock.dsp.has (Rg.DSP_CB_BASE i) := by
  simp only [RegBlock.has, Rg.DSP_CB_BASE]; omega
theorem Rg.DSP_CB_CFG_in (i : Nat) : RegBlock.dsp.has (Rg.DSP_CB_CFG i) := by
  simp only [RegBlock.has, Rg.DSP_CB_CFG]; omega
theorem Rg.DSP_CB_TAIL_in (i : Nat) : RegBlock.dsp.has (Rg.DSP_CB_TAIL i) := by
  simp only [RegBlock.has, Rg.DSP_CB_TAIL]; omega
theorem Rg.DSP_CB_HEAD_in (i : Nat) : RegBlock.dsp.has (Rg.DSP_CB_HEAD i) := by
  simp only [RegBlock.has, Rg.DSP_CB_HEAD]; omega
theorem Rg.DSP_CTL_DONE_in (i : Nat) : RegBlock.dsp.has (Rg.DSP_CTL_DONE i) := by
  simp only [RegBlock.has, Rg.DSP_CTL_DONE]; omega
theorem Rg.DSP_IRQ_in (i : Nat) : RegBlock.dsp.has (Rg.DSP_IRQ i) := by
  simp only [RegBlock.has, Rg.DSP_IRQ]; omega
theorem Rg.DSP_STEP_in (i j : Nat) : RegBlock.dsp.has (Rg.DSP_STEP i j) := by
  simp only [RegBlock.has, Rg.DSP_STEP]; omega
theorem Rg.DSP_ISSUED_in (i : Nat) : RegBlock.dsp.has (Rg.DSP_ISSUED i) := by
  simp only [RegBlock.has, Rg.DSP_ISSUED]; omega
theorem Rg.DSP_WAIT_in (i : Nat) : RegBlock.dsp.has (Rg.DSP_WAIT i) := by
  simp only [RegBlock.has, Rg.DSP_WAIT]; omega
theorem Rg.DSP_EVENTS_in (i : Nat) : RegBlock.dsp.has (Rg.DSP_EVENTS i) := by
  simp only [RegBlock.has, Rg.DSP_EVENTS]; omega
theorem Rg.DSP_QUIET_in (i : Nat) : RegBlock.dsp.has (Rg.DSP_QUIET i) := by
  simp only [RegBlock.has, Rg.DSP_QUIET]; omega
theorem Rg.LDG_CTRL_in (i : Nat) : RegBlock.ldg.has (Rg.LDG_CTRL i) := by
  simp only [RegBlock.has, Rg.LDG_CTRL]; omega
theorem Rg.LDG_STATUS_in (i : Nat) : RegBlock.ldg.has (Rg.LDG_STATUS i) := by
  simp only [RegBlock.has, Rg.LDG_STATUS]; omega
theorem Rg.LDG_CFG_in (i : Nat) : RegBlock.ldg.has (Rg.LDG_CFG i) := by
  simp only [RegBlock.has, Rg.LDG_CFG]; omega
theorem Rg.LDG_PAUSE_CFG_in (i : Nat) : RegBlock.ldg.has (Rg.LDG_PAUSE_CFG i) := by
  simp only [RegBlock.has, Rg.LDG_PAUSE_CFG]; omega
theorem Rg.LDG_RESUME_CFG_in (i : Nat) : RegBlock.ldg.has (Rg.LDG_RESUME_CFG i) := by
  simp only [RegBlock.has, Rg.LDG_RESUME_CFG]; omega
theorem Rg.LDG_BUDGET_BASE_in (i : Nat) : RegBlock.ldg.has (Rg.LDG_BUDGET_BASE i) := by
  simp only [RegBlock.has, Rg.LDG_BUDGET_BASE]; omega
theorem Rg.LDG_BUDGET_DEFAULT_in (i : Nat) : RegBlock.ldg.has (Rg.LDG_BUDGET_DEFAULT i) := by
  simp only [RegBlock.has, Rg.LDG_BUDGET_DEFAULT]; omega
theorem Rg.LDG_BUDGET_START_in (i : Nat) : RegBlock.ldg.has (Rg.LDG_BUDGET_START i) := by
  simp only [RegBlock.has, Rg.LDG_BUDGET_START]; omega
theorem Rg.LDG_SQ_BASE_in (i : Nat) : RegBlock.ldg.has (Rg.LDG_SQ_BASE i) := by
  simp only [RegBlock.has, Rg.LDG_SQ_BASE]; omega
theorem Rg.LDG_SQ_CFG_in (i : Nat) : RegBlock.ldg.has (Rg.LDG_SQ_CFG i) := by
  simp only [RegBlock.has, Rg.LDG_SQ_CFG]; omega
theorem Rg.LDG_SQ_TAIL_in (i : Nat) : RegBlock.ldg.has (Rg.LDG_SQ_TAIL i) := by
  simp only [RegBlock.has, Rg.LDG_SQ_TAIL]; omega
theorem Rg.LDG_SQ_HEAD_in (i : Nat) : RegBlock.ldg.has (Rg.LDG_SQ_HEAD i) := by
  simp only [RegBlock.has, Rg.LDG_SQ_HEAD]; omega
theorem Rg.LDG_RQ_BASE_in (i : Nat) : RegBlock.ldg.has (Rg.LDG_RQ_BASE i) := by
  simp only [RegBlock.has, Rg.LDG_RQ_BASE]; omega
theorem Rg.LDG_RQ_CFG_in (i : Nat) : RegBlock.ldg.has (Rg.LDG_RQ_CFG i) := by
  simp only [RegBlock.has, Rg.LDG_RQ_CFG]; omega
theorem Rg.LDG_RQ_TAIL_in (i : Nat) : RegBlock.ldg.has (Rg.LDG_RQ_TAIL i) := by
  simp only [RegBlock.has, Rg.LDG_RQ_TAIL]; omega
theorem Rg.LDG_RQ_HEAD_in (i : Nat) : RegBlock.ldg.has (Rg.LDG_RQ_HEAD i) := by
  simp only [RegBlock.has, Rg.LDG_RQ_HEAD]; omega
theorem Rg.LDG_CMD_in (i : Nat) : RegBlock.ldg.has (Rg.LDG_CMD i) := by
  simp only [RegBlock.has, Rg.LDG_CMD]; omega
theorem Rg.LDG_CMD_RESULT_in (i : Nat) : RegBlock.ldg.has (Rg.LDG_CMD_RESULT i) := by
  simp only [RegBlock.has, Rg.LDG_CMD_RESULT]; omega
theorem Rg.LDG_ENTRY_DATA_in (i j : Nat) : RegBlock.ldg.has (Rg.LDG_ENTRY_DATA i j) := by
  simp only [RegBlock.has, Rg.LDG_ENTRY_DATA]; omega
theorem Rg.LDG_IRQ_in (i : Nat) : RegBlock.ldg.has (Rg.LDG_IRQ i) := by
  simp only [RegBlock.has, Rg.LDG_IRQ]; omega
theorem Rg.LDG_EVENTS_in (i : Nat) : RegBlock.ldg.has (Rg.LDG_EVENTS i) := by
  simp only [RegBlock.has, Rg.LDG_EVENTS]; omega
theorem Rg.LDG_STEPS_in (i : Nat) : RegBlock.ldg.has (Rg.LDG_STEPS i) := by
  simp only [RegBlock.has, Rg.LDG_STEPS]; omega
theorem Rg.LDG_QUEUE_in (i j : Nat) : RegBlock.ldg.has (Rg.LDG_QUEUE i j) := by
  simp only [RegBlock.has, Rg.LDG_QUEUE]; omega
theorem Rg.LDG_GRAPH_ADAPT_in (i j : Nat) : RegBlock.ldg.has (Rg.LDG_GRAPH_ADAPT i j) := by
  simp only [RegBlock.has, Rg.LDG_GRAPH_ADAPT]; omega
theorem Rg.LDG_GRAPH_VERIFY_in (i j : Nat) : RegBlock.ldg.has (Rg.LDG_GRAPH_VERIFY i j) := by
  simp only [RegBlock.has, Rg.LDG_GRAPH_VERIFY]; omega
theorem Rg.LDG_PAGE_POOL_in (i : Nat) : RegBlock.ldg.has (Rg.LDG_PAGE_POOL i) := by
  simp only [RegBlock.has, Rg.LDG_PAGE_POOL]; omega
theorem Rg.LDG_PAGE_USE_in (i : Nat) : RegBlock.ldg.has (Rg.LDG_PAGE_USE i) := by
  simp only [RegBlock.has, Rg.LDG_PAGE_USE]; omega
theorem Rg.LDG_PAGE_LOW_in (i : Nat) : RegBlock.ldg.has (Rg.LDG_PAGE_LOW i) := by
  simp only [RegBlock.has, Rg.LDG_PAGE_LOW]; omega
theorem Rg.LDG_PAGE_CMD_in (i : Nat) : RegBlock.ldg.has (Rg.LDG_PAGE_CMD i) := by
  simp only [RegBlock.has, Rg.LDG_PAGE_CMD]; omega
theorem Rg.LDG_PAGE_RESULT_in (i : Nat) : RegBlock.ldg.has (Rg.LDG_PAGE_RESULT i) := by
  simp only [RegBlock.has, Rg.LDG_PAGE_RESULT]; omega
theorem Rg.LDG_PAGE_ENTRY_0_in (i : Nat) : RegBlock.ldg.has (Rg.LDG_PAGE_ENTRY_0 i) := by
  simp only [RegBlock.has, Rg.LDG_PAGE_ENTRY_0]; omega
theorem Rg.LDG_PAGE_ENTRY_1_in (i : Nat) : RegBlock.ldg.has (Rg.LDG_PAGE_ENTRY_1 i) := by
  simp only [RegBlock.has, Rg.LDG_PAGE_ENTRY_1]; omega
theorem Rg.CHN_CMD_in (i : Nat) : RegBlock.chn.has (Rg.CHN_CMD i) := by
  simp only [RegBlock.has, Rg.CHN_CMD]; omega
theorem Rg.CHN_CMD_ADDR_in (i : Nat) : RegBlock.chn.has (Rg.CHN_CMD_ADDR i) := by
  simp only [RegBlock.has, Rg.CHN_CMD_ADDR]; omega
theorem Rg.CHN_CMD_RESULT_in (i : Nat) : RegBlock.chn.has (Rg.CHN_CMD_RESULT i) := by
  simp only [RegBlock.has, Rg.CHN_CMD_RESULT]; omega
theorem Rg.CHN_PORT_SEND_ADDR_in (i j : Nat) : RegBlock.chn.has (Rg.CHN_PORT_SEND_ADDR i j) := by
  simp only [RegBlock.has, Rg.CHN_PORT_SEND_ADDR]; omega
theorem Rg.CHN_PORT_SEND_in (i j : Nat) : RegBlock.chn.has (Rg.CHN_PORT_SEND i j) := by
  simp only [RegBlock.has, Rg.CHN_PORT_SEND]; omega
theorem Rg.CHN_PORT_SEND_STATUS_in (i j : Nat) : RegBlock.chn.has (Rg.CHN_PORT_SEND_STATUS i j) := by
  simp only [RegBlock.has, Rg.CHN_PORT_SEND_STATUS]; omega
theorem Rg.CHN_PORT_SPILL_BASE_in (i j : Nat) : RegBlock.chn.has (Rg.CHN_PORT_SPILL_BASE i j) := by
  simp only [RegBlock.has, Rg.CHN_PORT_SPILL_BASE]; omega
theorem Rg.CHN_PORT_SPILL_CFG_in (i j : Nat) : RegBlock.chn.has (Rg.CHN_PORT_SPILL_CFG i j) := by
  simp only [RegBlock.has, Rg.CHN_PORT_SPILL_CFG]; omega
theorem Rg.CHN_PORT_SPILL_PTR_in (i j : Nat) : RegBlock.chn.has (Rg.CHN_PORT_SPILL_PTR i j) := by
  simp only [RegBlock.has, Rg.CHN_PORT_SPILL_PTR]; omega
theorem Rg.CHN_SEL_CFG_in (i j : Nat) : RegBlock.chn.has (Rg.CHN_SEL_CFG i j) := by
  simp only [RegBlock.has, Rg.CHN_SEL_CFG]; omega
theorem Rg.CHN_SEL_NEXT_in (i j : Nat) : RegBlock.chn.has (Rg.CHN_SEL_NEXT i j) := by
  simp only [RegBlock.has, Rg.CHN_SEL_NEXT]; omega
theorem Rg.CHN_SEL_NEXT_ADDR_in (i j : Nat) : RegBlock.chn.has (Rg.CHN_SEL_NEXT_ADDR i j) := by
  simp only [RegBlock.has, Rg.CHN_SEL_NEXT_ADDR]; omega
theorem Rg.CHN_SEL_DONE_in (i j : Nat) : RegBlock.chn.has (Rg.CHN_SEL_DONE i j) := by
  simp only [RegBlock.has, Rg.CHN_SEL_DONE]; omega
theorem Rg.CHN_EP_SEL_in (i : Nat) : RegBlock.chn.has (Rg.CHN_EP_SEL i) := by
  simp only [RegBlock.has, Rg.CHN_EP_SEL]; omega
theorem Rg.CHN_EP_STATE_in (i : Nat) : RegBlock.chn.has (Rg.CHN_EP_STATE i) := by
  simp only [RegBlock.has, Rg.CHN_EP_STATE]; omega
theorem Rg.CHN_EP_RING_in (i : Nat) : RegBlock.chn.has (Rg.CHN_EP_RING i) := by
  simp only [RegBlock.has, Rg.CHN_EP_RING]; omega
theorem Rg.CHN_CHURN_SEL_in (i : Nat) : RegBlock.chn.has (Rg.CHN_CHURN_SEL i) := by
  simp only [RegBlock.has, Rg.CHN_CHURN_SEL]; omega
theorem Rg.CHN_CHURN_STATE_in (i : Nat) : RegBlock.chn.has (Rg.CHN_CHURN_STATE i) := by
  simp only [RegBlock.has, Rg.CHN_CHURN_STATE]; omega
theorem Rg.CHN_EVENTS_in (i : Nat) : RegBlock.chn.has (Rg.CHN_EVENTS i) := by
  simp only [RegBlock.has, Rg.CHN_EVENTS]; omega
theorem Rg.CHN_WAIT_in (i : Nat) : RegBlock.chn.has (Rg.CHN_WAIT i) := by
  simp only [RegBlock.has, Rg.CHN_WAIT]; omega
theorem Rg.CHN_IRQ_GROUP_in (i : Nat) : RegBlock.chn.has (Rg.CHN_IRQ_GROUP i) := by
  simp only [RegBlock.has, Rg.CHN_IRQ_GROUP]; omega
theorem Rg.CHN_IRQ_SPILL_in (i : Nat) : RegBlock.chn.has (Rg.CHN_IRQ_SPILL i) := by
  simp only [RegBlock.has, Rg.CHN_IRQ_SPILL]; omega
theorem Rg.ADP_AREA_in (i : Nat) : RegBlock.adp.has (Rg.ADP_AREA i) := by
  simp only [RegBlock.has, Rg.ADP_AREA]; omega
theorem Rg.ADP_CMD_in (i : Nat) : RegBlock.adp.has (Rg.ADP_CMD i) := by
  simp only [RegBlock.has, Rg.ADP_CMD]; omega
theorem Rg.ADP_CMD_ADDR_in (i : Nat) : RegBlock.adp.has (Rg.ADP_CMD_ADDR i) := by
  simp only [RegBlock.has, Rg.ADP_CMD_ADDR]; omega
theorem Rg.ADP_CMD_RESULT_in (i : Nat) : RegBlock.adp.has (Rg.ADP_CMD_RESULT i) := by
  simp only [RegBlock.has, Rg.ADP_CMD_RESULT]; omega
theorem Rg.ADP_SLOT_SEL_in (i : Nat) : RegBlock.adp.has (Rg.ADP_SLOT_SEL i) := by
  simp only [RegBlock.has, Rg.ADP_SLOT_SEL]; omega
theorem Rg.ADP_SLOT_STATE_in (i : Nat) : RegBlock.adp.has (Rg.ADP_SLOT_STATE i) := by
  simp only [RegBlock.has, Rg.ADP_SLOT_STATE]; omega
theorem Rg.ADP_SLOT_COUNT_in (i : Nat) : RegBlock.adp.has (Rg.ADP_SLOT_COUNT i) := by
  simp only [RegBlock.has, Rg.ADP_SLOT_COUNT]; omega
theorem Rg.CORE_STATUS_in (i : Nat) : RegBlock.core.has (Rg.CORE_STATUS i) := by
  simp only [RegBlock.has, Rg.CORE_STATUS]; omega
theorem Rg.CORE_SLOT_in (i j : Nat) : RegBlock.core.has (Rg.CORE_SLOT i j) := by
  simp only [RegBlock.has, Rg.CORE_SLOT]; omega
theorem Rg.CORE_EVENTS_in (i : Nat) : RegBlock.core.has (Rg.CORE_EVENTS i) := by
  simp only [RegBlock.has, Rg.CORE_EVENTS]; omega
theorem Rg.CORE_DMA_in (i j : Nat) : RegBlock.core.has (Rg.CORE_DMA i j) := by
  simp only [RegBlock.has, Rg.CORE_DMA]; omega
theorem Rg.CORE_DMA_XPOSE_in (i : Nat) : RegBlock.core.has (Rg.CORE_DMA_XPOSE i) := by
  simp only [RegBlock.has, Rg.CORE_DMA_XPOSE]; omega
theorem Rg.CORE_DMA_SPARSE_in (i : Nat) : RegBlock.core.has (Rg.CORE_DMA_SPARSE i) := by
  simp only [RegBlock.has, Rg.CORE_DMA_SPARSE]; omega
theorem Rg.CORE_SEM_LINK_0_in (i : Nat) : RegBlock.core.has (Rg.CORE_SEM_LINK_0 i) := by
  simp only [RegBlock.has, Rg.CORE_SEM_LINK_0]; omega
theorem Rg.CORE_SEM_LINK_1_in (i : Nat) : RegBlock.core.has (Rg.CORE_SEM_LINK_1 i) := by
  simp only [RegBlock.has, Rg.CORE_SEM_LINK_1]; omega
theorem Rg.CORE_SEM_LINK_2_in (i : Nat) : RegBlock.core.has (Rg.CORE_SEM_LINK_2 i) := by
  simp only [RegBlock.has, Rg.CORE_SEM_LINK_2]; omega
theorem Rg.CORE_SEM_LINK_3_in (i : Nat) : RegBlock.core.has (Rg.CORE_SEM_LINK_3 i) := by
  simp only [RegBlock.has, Rg.CORE_SEM_LINK_3]; omega
theorem Rg.CORE_SEM_LINK_4_in (i : Nat) : RegBlock.core.has (Rg.CORE_SEM_LINK_4 i) := by
  simp only [RegBlock.has, Rg.CORE_SEM_LINK_4]; omega
theorem Rg.CORE_SEM_LINK_5_in (i : Nat) : RegBlock.core.has (Rg.CORE_SEM_LINK_5 i) := by
  simp only [RegBlock.has, Rg.CORE_SEM_LINK_5]; omega
theorem Rg.CORE_SEM_WAIT_in (i j : Nat) : RegBlock.core.has (Rg.CORE_SEM_WAIT i j) := by
  simp only [RegBlock.has, Rg.CORE_SEM_WAIT]; omega
theorem Rg.CORE_VEC_BUSY_in (i : Nat) : RegBlock.core.has (Rg.CORE_VEC_BUSY i) := by
  simp only [RegBlock.has, Rg.CORE_VEC_BUSY]; omega
theorem Rg.CORE_VEC_EXPAND_in (i : Nat) : RegBlock.core.has (Rg.CORE_VEC_EXPAND i) := by
  simp only [RegBlock.has, Rg.CORE_VEC_EXPAND]; omega
theorem Rg.CORE_TLB_STATS_in (i : Nat) : RegBlock.core.has (Rg.CORE_TLB_STATS i) := by
  simp only [RegBlock.has, Rg.CORE_TLB_STATS]; omega
theorem Rg.CORE_TLB_WALK_in (i : Nat) : RegBlock.core.has (Rg.CORE_TLB_WALK i) := by
  simp only [RegBlock.has, Rg.CORE_TLB_WALK]; omega
theorem Rg.CORE_ARR_REPAIR_in (i j : Nat) : RegBlock.core.has (Rg.CORE_ARR_REPAIR i j) := by
  simp only [RegBlock.has, Rg.CORE_ARR_REPAIR]; omega
theorem Rg.CORE_ARR_STATE_in (i : Nat) : RegBlock.core.has (Rg.CORE_ARR_STATE i) := by
  simp only [RegBlock.has, Rg.CORE_ARR_STATE]; omega
theorem Rg.CORE_ARR_BUSY_in (i j : Nat) : RegBlock.core.has (Rg.CORE_ARR_BUSY i j) := by
  simp only [RegBlock.has, Rg.CORE_ARR_BUSY]; omega
theorem Rg.CORE_ARR_STALL_in (i j : Nat) : RegBlock.core.has (Rg.CORE_ARR_STALL i j) := by
  simp only [RegBlock.has, Rg.CORE_ARR_STALL]; omega
theorem Rg.CORE_ARR_RAMP_in (i : Nat) : RegBlock.core.has (Rg.CORE_ARR_RAMP i) := by
  simp only [RegBlock.has, Rg.CORE_ARR_RAMP]; omega
theorem Rg.CORE_ARR_WS_in (i : Nat) : RegBlock.core.has (Rg.CORE_ARR_WS i) := by
  simp only [RegBlock.has, Rg.CORE_ARR_WS]; omega
theorem Rg.CORE_ARR_ERRORS_in (i : Nat) : RegBlock.core.has (Rg.CORE_ARR_ERRORS i) := by
  simp only [RegBlock.has, Rg.CORE_ARR_ERRORS]; omega
theorem Rg.CORE_WFETCH_in (i : Nat) : RegBlock.core.has (Rg.CORE_WFETCH i) := by
  simp only [RegBlock.has, Rg.CORE_WFETCH]; omega
theorem Rg.CORE_MCAST_in (i : Nat) : RegBlock.core.has (Rg.CORE_MCAST i) := by
  simp only [RegBlock.has, Rg.CORE_MCAST]; omega
theorem Rg.CORE_ATTN_BLOCKS_in (i : Nat) : RegBlock.core.has (Rg.CORE_ATTN_BLOCKS i) := by
  simp only [RegBlock.has, Rg.CORE_ATTN_BLOCKS]; omega
theorem Rg.CORE_ATTN_MASK_in (i : Nat) : RegBlock.core.has (Rg.CORE_ATTN_MASK i) := by
  simp only [RegBlock.has, Rg.CORE_ATTN_MASK]; omega
theorem Rg.CORE_ATTN_WIDEN_in (i : Nat) : RegBlock.core.has (Rg.CORE_ATTN_WIDEN i) := by
  simp only [RegBlock.has, Rg.CORE_ATTN_WIDEN]; omega
theorem Rg.CORE_ATTN_EVENTS_in (i : Nat) : RegBlock.core.has (Rg.CORE_ATTN_EVENTS i) := by
  simp only [RegBlock.has, Rg.CORE_ATTN_EVENTS]; omega
theorem Rg.CORE_ATTN_EVICT_in (i : Nat) : RegBlock.core.has (Rg.CORE_ATTN_EVICT i) := by
  simp only [RegBlock.has, Rg.CORE_ATTN_EVICT]; omega
theorem Rg.CORE_ATTN_VERIFY_in (i : Nat) : RegBlock.core.has (Rg.CORE_ATTN_VERIFY i) := by
  simp only [RegBlock.has, Rg.CORE_ATTN_VERIFY]; omega
theorem Rg.CORE_SRAM_ECC_in (i : Nat) : RegBlock.core.has (Rg.CORE_SRAM_ECC i) := by
  simp only [RegBlock.has, Rg.CORE_SRAM_ECC]; omega
theorem Rg.CORE_FMT_TBL_LOADS_in (i : Nat) : RegBlock.core.has (Rg.CORE_FMT_TBL_LOADS i) := by
  simp only [RegBlock.has, Rg.CORE_FMT_TBL_LOADS]; omega
theorem Rg.CORE_FMT_AFFINE_BLKS_in (i : Nat) : RegBlock.core.has (Rg.CORE_FMT_AFFINE_BLKS i) := by
  simp only [RegBlock.has, Rg.CORE_FMT_AFFINE_BLKS]; omega
theorem Rg.CORE_FMT_VEC_AFFINE_in (i : Nat) : RegBlock.core.has (Rg.CORE_FMT_VEC_AFFINE i) := by
  simp only [RegBlock.has, Rg.CORE_FMT_VEC_AFFINE]; omega
theorem Rg.CORE_FMT_EVENTS_in (i : Nat) : RegBlock.core.has (Rg.CORE_FMT_EVENTS i) := by
  simp only [RegBlock.has, Rg.CORE_FMT_EVENTS]; omega
theorem Rg.CORE_FMT_TABLE_in (i j : Nat) : RegBlock.core.has (Rg.CORE_FMT_TABLE i j) := by
  simp only [RegBlock.has, Rg.CORE_FMT_TABLE]; omega
theorem Rg.CLU_OST_STATUS_in (i : Nat) : RegBlock.clu.has (Rg.CLU_OST_STATUS i) := by
  simp only [RegBlock.has, Rg.CLU_OST_STATUS]; omega
theorem Rg.CLU_OST_WALKS_in (i : Nat) : RegBlock.clu.has (Rg.CLU_OST_WALKS i) := by
  simp only [RegBlock.has, Rg.CLU_OST_WALKS]; omega
theorem Rg.CLU_OST_ECACHE_in (i : Nat) : RegBlock.clu.has (Rg.CLU_OST_ECACHE i) := by
  simp only [RegBlock.has, Rg.CLU_OST_ECACHE]; omega
theorem Rg.CLU_OST_ALLOC_in (i : Nat) : RegBlock.clu.has (Rg.CLU_OST_ALLOC i) := by
  simp only [RegBlock.has, Rg.CLU_OST_ALLOC]; omega
theorem Rg.CLU_OST_COPY_in (i : Nat) : RegBlock.clu.has (Rg.CLU_OST_COPY i) := by
  simp only [RegBlock.has, Rg.CLU_OST_COPY]; omega
theorem Rg.CLU_OST_FREE_in (i : Nat) : RegBlock.clu.has (Rg.CLU_OST_FREE i) := by
  simp only [RegBlock.has, Rg.CLU_OST_FREE]; omega
theorem Rg.CLU_OST_ERRORS_in (i : Nat) : RegBlock.clu.has (Rg.CLU_OST_ERRORS i) := by
  simp only [RegBlock.has, Rg.CLU_OST_ERRORS]; omega
theorem Rg.CLU_SKM_CTRL_in (i : Nat) : RegBlock.clu.has (Rg.CLU_SKM_CTRL i) := by
  simp only [RegBlock.has, Rg.CLU_SKM_CTRL]; omega
theorem Rg.CLU_SKM_TILES_in (i : Nat) : RegBlock.clu.has (Rg.CLU_SKM_TILES i) := by
  simp only [RegBlock.has, Rg.CLU_SKM_TILES]; omega
theorem Rg.CLU_SKM_RAW_in (i : Nat) : RegBlock.clu.has (Rg.CLU_SKM_RAW i) := by
  simp only [RegBlock.has, Rg.CLU_SKM_RAW]; omega
theorem Rg.CLU_SKM_WINDOWS_in (i : Nat) : RegBlock.clu.has (Rg.CLU_SKM_WINDOWS i) := by
  simp only [RegBlock.has, Rg.CLU_SKM_WINDOWS]; omega
theorem Rg.CLU_SKM_STEPS_in (i : Nat) : RegBlock.clu.has (Rg.CLU_SKM_STEPS i) := by
  simp only [RegBlock.has, Rg.CLU_SKM_STEPS]; omega
theorem Rg.CLU_SKM_OVERFULL_in (i : Nat) : RegBlock.clu.has (Rg.CLU_SKM_OVERFULL i) := by
  simp only [RegBlock.has, Rg.CLU_SKM_OVERFULL]; omega
theorem Rg.CLU_SKM_ERRORS_in (i : Nat) : RegBlock.clu.has (Rg.CLU_SKM_ERRORS i) := by
  simp only [RegBlock.has, Rg.CLU_SKM_ERRORS]; omega
theorem Rg.CLU_SKM_BYTES_in (i : Nat) : RegBlock.clu.has (Rg.CLU_SKM_BYTES i) := by
  simp only [RegBlock.has, Rg.CLU_SKM_BYTES]; omega
theorem Rg.CCI_PEND_in (i : Nat) : RegBlock.cci.has (Rg.CCI_PEND i) := by
  simp only [RegBlock.has, Rg.CCI_PEND]; omega
theorem Rg.CCI_ENABLE_in (i : Nat) : RegBlock.cci.has (Rg.CCI_ENABLE i) := by
  simp only [RegBlock.has, Rg.CCI_ENABLE]; omega
theorem Rg.CCI_WDOG_in (i : Nat) : RegBlock.cci.has (Rg.CCI_WDOG i) := by
  simp only [RegBlock.has, Rg.CCI_WDOG]; omega
theorem Rg.DEV_ID_VENDOR_in : RegBlock.dev.has Rg.DEV_ID_VENDOR.addr := Rg.DEV_ID_in
theorem Rg.DEV_ID_DEVICE_in : RegBlock.dev.has Rg.DEV_ID_DEVICE.addr := Rg.DEV_ID_in
theorem Rg.DEV_ID_STEPPING_in : RegBlock.dev.has Rg.DEV_ID_STEPPING.addr := Rg.DEV_ID_in
theorem Rg.DEV_VARIANT_VARIANT_in : RegBlock.dev.has Rg.DEV_VARIANT_VARIANT.addr := Rg.DEV_VARIANT_in
theorem Rg.DEV_VARIANT_FIELDS_in : RegBlock.dev.has Rg.DEV_VARIANT_FIELDS.addr := Rg.DEV_VARIANT_in
theorem Rg.DEV_CAP0_CLUSTERS_in : RegBlock.dev.has Rg.DEV_CAP0_CLUSTERS.addr := Rg.DEV_CAP0_in
theorem Rg.DEV_CAP0_ARRAYS_in : RegBlock.dev.has Rg.DEV_CAP0_ARRAYS.addr := Rg.DEV_CAP0_in
theorem Rg.DEV_CAP0_CORES_in : RegBlock.dev.has Rg.DEV_CAP0_CORES.addr := Rg.DEV_CAP0_in
theorem Rg.DEV_CAP0_CTL_CORES_in : RegBlock.dev.has Rg.DEV_CAP0_CTL_CORES.addr := Rg.DEV_CAP0_in
theorem Rg.DEV_CAP0_PARTITIONS_in : RegBlock.dev.has Rg.DEV_CAP0_PARTITIONS.addr := Rg.DEV_CAP0_in
theorem Rg.DEV_CAP0_COACH_PORTS_in : RegBlock.dev.has Rg.DEV_CAP0_COACH_PORTS.addr := Rg.DEV_CAP0_in
theorem Rg.DEV_CAP0_SKIMMER_in : RegBlock.dev.has Rg.DEV_CAP0_SKIMMER.addr := Rg.DEV_CAP0_in
theorem Rg.DEV_CAP0_TABLE_EXP_in : RegBlock.dev.has Rg.DEV_CAP0_TABLE_EXP.addr := Rg.DEV_CAP0_in
theorem Rg.DEV_CAP0_AFFINE_EXP_in : RegBlock.dev.has Rg.DEV_CAP0_AFFINE_EXP.addr := Rg.DEV_CAP0_in
theorem Rg.DEV_CAP0_LPDDR_CH_in : RegBlock.dev.has Rg.DEV_CAP0_LPDDR_CH.addr := Rg.DEV_CAP0_in
theorem Rg.DEV_CAP0_SRAM_SLICE_in : RegBlock.dev.has Rg.DEV_CAP0_SRAM_SLICE.addr := Rg.DEV_CAP0_in
theorem Rg.DEV_CAP1_LPDDR_RAW_in : RegBlock.dev.has Rg.DEV_CAP1_LPDDR_RAW.addr := Rg.DEV_CAP1_in
theorem Rg.DEV_CAP1_LPDDR_PART_in : RegBlock.dev.has Rg.DEV_CAP1_LPDDR_PART.addr := Rg.DEV_CAP1_in
theorem Rg.DEV_CAP1_POWER_LIMIT_in : RegBlock.dev.has Rg.DEV_CAP1_POWER_LIMIT.addr := Rg.DEV_CAP1_in
theorem Rg.DEV_CLUSTER_MAP_ENABLED_in : RegBlock.dev.has Rg.DEV_CLUSTER_MAP_ENABLED.addr := Rg.DEV_CLUSTER_MAP_in
theorem Rg.DEV_CLUSTER_MAP_FAILED_in : RegBlock.dev.has Rg.DEV_CLUSTER_MAP_FAILED.addr := Rg.DEV_CLUSTER_MAP_in
theorem Rg.DEV_SERIAL_SERIAL_in : RegBlock.dev.has Rg.DEV_SERIAL_SERIAL.addr := Rg.DEV_SERIAL_in
theorem Rg.DEV_CORE_MAP_SPARE_POS_in (j : Nat) : RegBlock.dev.has (Rg.DEV_CORE_MAP_SPARE_POS j).addr := Rg.DEV_CORE_MAP_in j
theorem Rg.DEV_CORE_MAP_LCLUSTER_in (j : Nat) : RegBlock.dev.has (Rg.DEV_CORE_MAP_LCLUSTER j).addr := Rg.DEV_CORE_MAP_in j
theorem Rg.DEV_CORE_MAP_PENDING_in (j : Nat) : RegBlock.dev.has (Rg.DEV_CORE_MAP_PENDING j).addr := Rg.DEV_CORE_MAP_in j
theorem Rg.DEV_CORE_MAP_NEXT_SPARE_in (j : Nat) : RegBlock.dev.has (Rg.DEV_CORE_MAP_NEXT_SPARE j).addr := Rg.DEV_CORE_MAP_in j
theorem Rg.DEV_TIME_NS_in : RegBlock.dev.has Rg.DEV_TIME_NS.addr := Rg.DEV_TIME_in
theorem Rg.DEV_TIME_SET_NS_in : RegBlock.dev.has Rg.DEV_TIME_SET_NS.addr := Rg.DEV_TIME_SET_in
theorem Rg.DEV_TIME_CTRL_PPS_EN_in : RegBlock.dev.has Rg.DEV_TIME_CTRL_PPS_EN.addr := Rg.DEV_TIME_CTRL_in
theorem Rg.DEV_TIME_CTRL_REF_EXT_in : RegBlock.dev.has Rg.DEV_TIME_CTRL_REF_EXT.addr := Rg.DEV_TIME_CTRL_in
theorem Rg.DEV_TIME_CTRL_WINDOW_US_in : RegBlock.dev.has Rg.DEV_TIME_CTRL_WINDOW_US.addr := Rg.DEV_TIME_CTRL_in
theorem Rg.DEV_PPS_CAPTURE_NS_in : RegBlock.dev.has Rg.DEV_PPS_CAPTURE_NS.addr := Rg.DEV_PPS_CAPTURE_in
theorem Rg.DEV_PPS_STATS_EDGES_in : RegBlock.dev.has Rg.DEV_PPS_STATS_EDGES.addr := Rg.DEV_PPS_STATS_in
theorem Rg.DEV_PPS_STATS_REJECTS_in : RegBlock.dev.has Rg.DEV_PPS_STATS_REJECTS.addr := Rg.DEV_PPS_STATS_in
theorem Rg.DEV_PPS_STATS_TIME_SETS_in : RegBlock.dev.has Rg.DEV_PPS_STATS_TIME_SETS.addr := Rg.DEV_PPS_STATS_in
theorem Rg.DEV_PPS_OFFSET_OFFSET_in : RegBlock.dev.has Rg.DEV_PPS_OFFSET_OFFSET.addr := Rg.DEV_PPS_OFFSET_in
theorem Rg.DEV_PPS_OFFSET_APPLIED_in : RegBlock.dev.has Rg.DEV_PPS_OFFSET_APPLIED.addr := Rg.DEV_PPS_OFFSET_in
theorem Rg.PWR_CAP_SET_CAP_W_in : RegBlock.pwr.has Rg.PWR_CAP_SET_CAP_W.addr := Rg.PWR_CAP_SET_in
theorem Rg.PWR_CAP_SET_REJECT_in : RegBlock.pwr.has Rg.PWR_CAP_SET_REJECT.addr := Rg.PWR_CAP_SET_in
theorem Rg.PWR_STATUS_INPUT_MV_in : RegBlock.pwr.has Rg.PWR_STATUS_INPUT_MV.addr := Rg.PWR_STATUS_in
theorem Rg.PWR_STATUS_INPUT_W_in : RegBlock.pwr.has Rg.PWR_STATUS_INPUT_W.addr := Rg.PWR_STATUS_in
theorem Rg.PWR_STATUS_SAG_in : RegBlock.pwr.has Rg.PWR_STATUS_SAG.addr := Rg.PWR_STATUS_in
theorem Rg.PWR_STATUS_CURRENT_in : RegBlock.pwr.has Rg.PWR_STATUS_CURRENT.addr := Rg.PWR_STATUS_in
theorem Rg.PWR_STATUS_THERMAL_in : RegBlock.pwr.has Rg.PWR_STATUS_THERMAL.addr := Rg.PWR_STATUS_in
theorem Rg.PWR_STATUS_THERMTRIP_in : RegBlock.pwr.has Rg.PWR_STATUS_THERMTRIP.addr := Rg.PWR_STATUS_in
theorem Rg.PWR_BUDGET_BASE_W_in : RegBlock.pwr.has Rg.PWR_BUDGET_BASE_W.addr := Rg.PWR_BUDGET_in
theorem Rg.PWR_BUDGET_LINKS_W_in : RegBlock.pwr.has Rg.PWR_BUDGET_LINKS_W.addr := Rg.PWR_BUDGET_in
theorem Rg.PWR_BUDGET_MEMORY_W_in : RegBlock.pwr.has Rg.PWR_BUDGET_MEMORY_W.addr := Rg.PWR_BUDGET_in
theorem Rg.PWR_BUDGET_COMPUTE_W_in : RegBlock.pwr.has Rg.PWR_BUDGET_COMPUTE_W.addr := Rg.PWR_BUDGET_in
theorem Rg.PWR_THERM_LIMIT_C_in : RegBlock.pwr.has Rg.PWR_THERM_LIMIT_C.addr := Rg.PWR_THERM_in
theorem Rg.PWR_THERM_MAX_C_in : RegBlock.pwr.has Rg.PWR_THERM_MAX_C.addr := Rg.PWR_THERM_in
theorem Rg.PWR_THERM_HOT_CLUSTER_in : RegBlock.pwr.has Rg.PWR_THERM_HOT_CLUSTER.addr := Rg.PWR_THERM_in
theorem Rg.PWR_IRQ_SAG_in : RegBlock.pwr.has Rg.PWR_IRQ_SAG.addr := Rg.PWR_IRQ_in
theorem Rg.PWR_IRQ_THERMAL_in : RegBlock.pwr.has Rg.PWR_IRQ_THERMAL.addr := Rg.PWR_IRQ_in
theorem Rg.PWR_IRQ_THERMTRIP_in : RegBlock.pwr.has Rg.PWR_IRQ_THERMTRIP.addr := Rg.PWR_IRQ_in
theorem Rg.PWR_IRQ_LIMITED_in : RegBlock.pwr.has Rg.PWR_IRQ_LIMITED.addr := Rg.PWR_IRQ_in
theorem Rg.PWR_IRQ_REF_LOST_in : RegBlock.pwr.has Rg.PWR_IRQ_REF_LOST.addr := Rg.PWR_IRQ_in
theorem Rg.PWR_ENERGY_ENERGY_MJ_in : RegBlock.pwr.has Rg.PWR_ENERGY_ENERGY_MJ.addr := Rg.PWR_ENERGY_in
theorem Rg.PWR_PART_GRANT_GRANT_W_in (j : Nat) : RegBlock.pwr.has (Rg.PWR_PART_GRANT_GRANT_W j).addr := Rg.PWR_PART_GRANT_in j
theorem Rg.PWR_PART_GRANT_DEMAND_W_in (j : Nat) : RegBlock.pwr.has (Rg.PWR_PART_GRANT_DEMAND_W j).addr := Rg.PWR_PART_GRANT_in j
theorem Rg.PWR_PART_GRANT_CORES_ON_in (j : Nat) : RegBlock.pwr.has (Rg.PWR_PART_GRANT_CORES_ON j).addr := Rg.PWR_PART_GRANT_in j
theorem Rg.PWR_PART_GRANT_ALLOWED_in (j : Nat) : RegBlock.pwr.has (Rg.PWR_PART_GRANT_ALLOWED j).addr := Rg.PWR_PART_GRANT_in j
theorem Rg.PWR_PART_GRANT_REASON_in (j : Nat) : RegBlock.pwr.has (Rg.PWR_PART_GRANT_REASON j).addr := Rg.PWR_PART_GRANT_in j
theorem Rg.PWR_PART_CHARGE_CHARGE_MW_in (j : Nat) : RegBlock.pwr.has (Rg.PWR_PART_CHARGE_CHARGE_MW j).addr := Rg.PWR_PART_CHARGE_in j
theorem Rg.PWR_THR_CNT_EVENTS_in (j : Nat) : RegBlock.pwr.has (Rg.PWR_THR_CNT_EVENTS j).addr := Rg.PWR_THR_CNT_in j
theorem Rg.PWR_THR_US_DURATION_US_in (j : Nat) : RegBlock.pwr.has (Rg.PWR_THR_US_DURATION_US j).addr := Rg.PWR_THR_US_in j
theorem Rg.IMG_STATUS_LOADED_in : RegBlock.img.has Rg.IMG_STATUS_LOADED.addr := Rg.IMG_STATUS_in
theorem Rg.IMG_STATUS_TARGET_in : RegBlock.img.has Rg.IMG_STATUS_TARGET.addr := Rg.IMG_STATUS_in
theorem Rg.IMG_STATUS_BUSY_in : RegBlock.img.has Rg.IMG_STATUS_BUSY.addr := Rg.IMG_STATUS_in
theorem Rg.IMG_STATUS_DISCARD_in : RegBlock.img.has Rg.IMG_STATUS_DISCARD.addr := Rg.IMG_STATUS_in
theorem Rg.IMG_STATUS_LAST_RESULT_in : RegBlock.img.has Rg.IMG_STATUS_LAST_RESULT.addr := Rg.IMG_STATUS_in
theorem Rg.IMG_SLOT_SEQ_SEQUENCE_in (j : Nat) : RegBlock.img.has (Rg.IMG_SLOT_SEQ_SEQUENCE j).addr := Rg.IMG_SLOT_SEQ_in j
theorem Rg.IMG_SLOT_REASON_A_REASON_in : RegBlock.img.has Rg.IMG_SLOT_REASON_A_REASON.addr := Rg.IMG_SLOT_REASON_in
theorem Rg.IMG_SLOT_REASON_B_REASON_in : RegBlock.img.has Rg.IMG_SLOT_REASON_B_REASON.addr := Rg.IMG_SLOT_REASON_in
theorem Rg.IMG_CMD_OP_in : RegBlock.img.has Rg.IMG_CMD_OP.addr := Rg.IMG_CMD_in
theorem Rg.IMG_CMD_PART_in : RegBlock.img.has Rg.IMG_CMD_PART.addr := Rg.IMG_CMD_in
theorem Rg.IMG_XFER_HOST_ADDR_in : RegBlock.img.has Rg.IMG_XFER_HOST_ADDR.addr := Rg.IMG_XFER_HOST_in
theorem Rg.IMG_XFER_OFFSET_OFFSET_in : RegBlock.img.has Rg.IMG_XFER_OFFSET_OFFSET.addr := Rg.IMG_XFER_OFFSET_in
theorem Rg.IMG_XFER_LEN_LEN_in : RegBlock.img.has Rg.IMG_XFER_LEN_LEN.addr := Rg.IMG_XFER_LEN_in
theorem Rg.IMG_RELOAD_PENDING_in (j : Nat) : RegBlock.img.has (Rg.IMG_RELOAD_PENDING j).addr := Rg.IMG_RELOAD_in j
theorem Rg.IMG_RELOAD_RESULT_in (j : Nat) : RegBlock.img.has (Rg.IMG_RELOAD_RESULT j).addr := Rg.IMG_RELOAD_in j
theorem Rg.IMG_RELOAD_SEQ_LOW_in (j : Nat) : RegBlock.img.has (Rg.IMG_RELOAD_SEQ_LOW j).addr := Rg.IMG_RELOAD_in j
theorem Rg.SEC_BOOT_STATUS_STAGE_in : RegBlock.sec.has Rg.SEC_BOOT_STATUS_STAGE.addr := Rg.SEC_BOOT_STATUS_in
theorem Rg.SEC_BOOT_STATUS_MODE_in : RegBlock.sec.has Rg.SEC_BOOT_STATUS_MODE.addr := Rg.SEC_BOOT_STATUS_in
theorem Rg.SEC_BOOT_STATUS_FW_LOADED_in : RegBlock.sec.has Rg.SEC_BOOT_STATUS_FW_LOADED.addr := Rg.SEC_BOOT_STATUS_in
theorem Rg.SEC_BOOT_STATUS_FW_TARGET_in : RegBlock.sec.has Rg.SEC_BOOT_STATUS_FW_TARGET.addr := Rg.SEC_BOOT_STATUS_in
theorem Rg.SEC_BOOT_STATUS_OWNER_FUSED_in : RegBlock.sec.has Rg.SEC_BOOT_STATUS_OWNER_FUSED.addr := Rg.SEC_BOOT_STATUS_in
theorem Rg.SEC_BOOT_STATUS_REASON_in : RegBlock.sec.has Rg.SEC_BOOT_STATUS_REASON.addr := Rg.SEC_BOOT_STATUS_in
theorem Rg.SEC_BOOT_STATUS_IMG_AT_RISK_in : RegBlock.sec.has Rg.SEC_BOOT_STATUS_IMG_AT_RISK.addr := Rg.SEC_BOOT_STATUS_in
theorem Rg.SEC_FW_SLOT_SEQ_SEQUENCE_in (j : Nat) : RegBlock.sec.has (Rg.SEC_FW_SLOT_SEQ_SEQUENCE j).addr := Rg.SEC_FW_SLOT_SEQ_in j
theorem Rg.SEC_FW_REASON_A_REASON_in : RegBlock.sec.has Rg.SEC_FW_REASON_A_REASON.addr := Rg.SEC_FW_REASON_in
theorem Rg.SEC_FW_REASON_B_REASON_in : RegBlock.sec.has Rg.SEC_FW_REASON_B_REASON.addr := Rg.SEC_FW_REASON_in
theorem Rg.SEC_FW_VERSION_0_INNKEEPER_in : RegBlock.sec.has Rg.SEC_FW_VERSION_0_INNKEEPER.addr := Rg.SEC_FW_VERSION_0_in
theorem Rg.SEC_FW_VERSION_0_UCODE_in : RegBlock.sec.has Rg.SEC_FW_VERSION_0_UCODE.addr := Rg.SEC_FW_VERSION_0_in
theorem Rg.SEC_FW_VERSION_1_POWER_in : RegBlock.sec.has Rg.SEC_FW_VERSION_1_POWER.addr := Rg.SEC_FW_VERSION_1_in
theorem Rg.SEC_FW_VERSION_1_PORT_in : RegBlock.sec.has Rg.SEC_FW_VERSION_1_PORT.addr := Rg.SEC_FW_VERSION_1_in
theorem Rg.SEC_SVN_FW_CTR_in : RegBlock.sec.has Rg.SEC_SVN_FW_CTR.addr := Rg.SEC_SVN_in
theorem Rg.SEC_SVN_IMG_CTR_in : RegBlock.sec.has Rg.SEC_SVN_IMG_CTR.addr := Rg.SEC_SVN_in
theorem Rg.SEC_SVN_FW_SVN_in : RegBlock.sec.has Rg.SEC_SVN_FW_SVN.addr := Rg.SEC_SVN_in
theorem Rg.SEC_SVN_IMG_SVN_in : RegBlock.sec.has Rg.SEC_SVN_IMG_SVN.addr := Rg.SEC_SVN_in
theorem Rg.SEC_CMD_OP_in : RegBlock.sec.has Rg.SEC_CMD_OP.addr := Rg.SEC_CMD_in
theorem Rg.SEC_CMD_PART_in : RegBlock.sec.has Rg.SEC_CMD_PART.addr := Rg.SEC_CMD_in
theorem Rg.SEC_CMD_WHICH_in : RegBlock.sec.has Rg.SEC_CMD_WHICH.addr := Rg.SEC_CMD_in
theorem Rg.SEC_XFER_HOST_ADDR_in : RegBlock.sec.has Rg.SEC_XFER_HOST_ADDR.addr := Rg.SEC_XFER_HOST_in
theorem Rg.SEC_XFER_OFFSET_OFFSET_in : RegBlock.sec.has Rg.SEC_XFER_OFFSET_OFFSET.addr := Rg.SEC_XFER_OFFSET_in
theorem Rg.SEC_XFER_LEN_LEN_in : RegBlock.sec.has Rg.SEC_XFER_LEN_LEN.addr := Rg.SEC_XFER_LEN_in
theorem Rg.SEC_ATT_NONCE_NONCE_in (j : Nat) : RegBlock.sec.has (Rg.SEC_ATT_NONCE_NONCE j).addr := Rg.SEC_ATT_NONCE_in j
theorem Rg.SEC_RESULT_RESULT_in : RegBlock.sec.has Rg.SEC_RESULT_RESULT.addr := Rg.SEC_RESULT_in
theorem Rg.SEC_RESULT_BUSY_in : RegBlock.sec.has Rg.SEC_RESULT_BUSY.addr := Rg.SEC_RESULT_in
theorem Rg.SEC_RESULT_DONE_in : RegBlock.sec.has Rg.SEC_RESULT_DONE.addr := Rg.SEC_RESULT_in
theorem Rg.SEC_RESULT_COUNT_in : RegBlock.sec.has Rg.SEC_RESULT_COUNT.addr := Rg.SEC_RESULT_in
theorem Rg.SEC_PART_ENTRY_ENTRY_in (j : Nat) : RegBlock.sec.has (Rg.SEC_PART_ENTRY_ENTRY j).addr := Rg.SEC_PART_ENTRY_in j
theorem Rg.SEC_PART_CTRL_START_in (j : Nat) : RegBlock.sec.has (Rg.SEC_PART_CTRL_START j).addr := Rg.SEC_PART_CTRL_in j
theorem Rg.SEC_PART_CTRL_RUNNING_in (j : Nat) : RegBlock.sec.has (Rg.SEC_PART_CTRL_RUNNING j).addr := Rg.SEC_PART_CTRL_in j
theorem Rg.FLT_RESET_OP_in : RegBlock.fltp.has Rg.FLT_RESET_OP.addr := Rg.FLT_RESET_in
theorem Rg.FLT_RESET_PART_in : RegBlock.fltp.has Rg.FLT_RESET_PART.addr := Rg.FLT_RESET_in
theorem Rg.FLT_RESET_CORE_in : RegBlock.fltp.has Rg.FLT_RESET_CORE.addr := Rg.FLT_RESET_in
theorem Rg.FLT_RESET_CAUSE_LAST_in : RegBlock.fltp.has Rg.FLT_RESET_CAUSE_LAST.addr := Rg.FLT_RESET_CAUSE_in
theorem Rg.FLT_RESET_CAUSE_CORE_BUSY_in : RegBlock.fltp.has Rg.FLT_RESET_CAUSE_CORE_BUSY.addr := Rg.FLT_RESET_CAUSE_in
theorem Rg.FLT_RESET_CAUSE_WARM_COUNT_in : RegBlock.fltp.has Rg.FLT_RESET_CAUSE_WARM_COUNT.addr := Rg.FLT_RESET_CAUSE_in
theorem Rg.FLT_LOG_STATUS_COUNT_in : RegBlock.flt.has Rg.FLT_LOG_STATUS_COUNT.addr := Rg.FLT_LOG_STATUS_in
theorem Rg.FLT_LOG_STATUS_OVERFLOW_in : RegBlock.flt.has Rg.FLT_LOG_STATUS_OVERFLOW.addr := Rg.FLT_LOG_STATUS_in
theorem Rg.FLT_LOG_HEAD0_CLASS_in : RegBlock.flt.has Rg.FLT_LOG_HEAD0_CLASS.addr := Rg.FLT_LOG_HEAD0_in
theorem Rg.FLT_LOG_HEAD0_CAUSE_in : RegBlock.flt.has Rg.FLT_LOG_HEAD0_CAUSE.addr := Rg.FLT_LOG_HEAD0_in
theorem Rg.FLT_LOG_HEAD0_PART_in : RegBlock.flt.has Rg.FLT_LOG_HEAD0_PART.addr := Rg.FLT_LOG_HEAD0_in
theorem Rg.FLT_LOG_HEAD0_OWNER_in : RegBlock.flt.has Rg.FLT_LOG_HEAD0_OWNER.addr := Rg.FLT_LOG_HEAD0_in
theorem Rg.FLT_LOG_HEAD0_FAULT_ID_in : RegBlock.flt.has Rg.FLT_LOG_HEAD0_FAULT_ID.addr := Rg.FLT_LOG_HEAD0_in
theorem Rg.FLT_LOG_HEAD0_FOLLOWS_in : RegBlock.flt.has Rg.FLT_LOG_HEAD0_FOLLOWS.addr := Rg.FLT_LOG_HEAD0_in
theorem Rg.FLT_LOG_HEAD0_VALID_in : RegBlock.flt.has Rg.FLT_LOG_HEAD0_VALID.addr := Rg.FLT_LOG_HEAD0_in
theorem Rg.FLT_LOG_HEAD1_DETAIL_in : RegBlock.flt.has Rg.FLT_LOG_HEAD1_DETAIL.addr := Rg.FLT_LOG_HEAD1_in
theorem Rg.FLT_LOG_HEAD2_TIME_in : RegBlock.flt.has Rg.FLT_LOG_HEAD2_TIME.addr := Rg.FLT_LOG_HEAD2_in
theorem Rg.FLT_IRQ_LOGGED_in : RegBlock.flt.has Rg.FLT_IRQ_LOGGED.addr := Rg.FLT_IRQ_in
theorem Rg.FLT_IRQ_JOB_FAULT_in : RegBlock.flt.has Rg.FLT_IRQ_JOB_FAULT.addr := Rg.FLT_IRQ_in
theorem Rg.FLT_IRQ_WDOG_in : RegBlock.flt.has Rg.FLT_IRQ_WDOG.addr := Rg.FLT_IRQ_in
theorem Rg.FLT_IRQ_REPAIR_DONE_in : RegBlock.flt.has Rg.FLT_IRQ_REPAIR_DONE.addr := Rg.FLT_IRQ_in
theorem Rg.FLT_IK_WDOG_PERIOD_MS_in : RegBlock.fltp.has Rg.FLT_IK_WDOG_PERIOD_MS.addr := Rg.FLT_IK_WDOG_in
theorem Rg.FLT_IK_WDOG_EXPIRIES_in : RegBlock.fltp.has Rg.FLT_IK_WDOG_EXPIRIES.addr := Rg.FLT_IK_WDOG_in
theorem Rg.FLT_REPAIR_HOST_ADDR_in : RegBlock.fltp.has Rg.FLT_REPAIR_HOST_ADDR.addr := Rg.FLT_REPAIR_HOST_in
theorem Rg.FLT_REPAIR_LEN_LEN_in : RegBlock.fltp.has Rg.FLT_REPAIR_LEN_LEN.addr := Rg.FLT_REPAIR_LEN_in
theorem Rg.FLT_REPAIR_CMD_OP_in : RegBlock.fltp.has Rg.FLT_REPAIR_CMD_OP.addr := Rg.FLT_REPAIR_CMD_in
theorem Rg.FLT_REPAIR_RESULT_RESULT_in : RegBlock.fltp.has Rg.FLT_REPAIR_RESULT_RESULT.addr := Rg.FLT_REPAIR_RESULT_in
theorem Rg.FLT_REPAIR_RESULT_BUSY_in : RegBlock.fltp.has Rg.FLT_REPAIR_RESULT_BUSY.addr := Rg.FLT_REPAIR_RESULT_in
theorem Rg.FLT_REPAIR_RESULT_APPLIED_in : RegBlock.fltp.has Rg.FLT_REPAIR_RESULT_APPLIED.addr := Rg.FLT_REPAIR_RESULT_in
theorem Rg.FLT_PART_STATE_in (j : Nat) : RegBlock.fltp.has (Rg.FLT_PART_STATE j).addr := Rg.FLT_PART_in j
theorem Rg.FLT_PART_HELD_in (j : Nat) : RegBlock.fltp.has (Rg.FLT_PART_HELD j).addr := Rg.FLT_PART_in j
theorem Rg.FLT_PART_CAUSE_in (j : Nat) : RegBlock.fltp.has (Rg.FLT_PART_CAUSE j).addr := Rg.FLT_PART_in j
theorem Rg.FLT_PART_FAULT_ID_in (j : Nat) : RegBlock.fltp.has (Rg.FLT_PART_FAULT_ID j).addr := Rg.FLT_PART_in j
theorem Rg.FLT_PART_TIME_TIME_in (j : Nat) : RegBlock.fltp.has (Rg.FLT_PART_TIME_TIME j).addr := Rg.FLT_PART_TIME_in j
theorem Rg.SVC_STATE_MODE_in : RegBlock.svc.has Rg.SVC_STATE_MODE.addr := Rg.SVC_STATE_in
theorem Rg.SVC_STATE_IDENTIFY_in : RegBlock.svc.has Rg.SVC_STATE_IDENTIFY.addr := Rg.SVC_STATE_in
theorem Rg.SVC_STATE_KEY_HELD_in : RegBlock.svc.has Rg.SVC_STATE_KEY_HELD.addr := Rg.SVC_STATE_in
theorem Rg.SVC_STATE_HOLD_100MS_in : RegBlock.svc.has Rg.SVC_STATE_HOLD_100MS.addr := Rg.SVC_STATE_in
theorem Rg.SVC_CMD_OP_in : RegBlock.svc.has Rg.SVC_CMD_OP.addr := Rg.SVC_CMD_in
theorem Rg.SVC_CFG_QUIESCE_S_in : RegBlock.svc.has Rg.SVC_CFG_QUIESCE_S.addr := Rg.SVC_CFG_in
theorem Rg.SVC_CFG_LOCK_KEY_in : RegBlock.svc.has Rg.SVC_CFG_LOCK_KEY.addr := Rg.SVC_CFG_in
theorem Rg.SVC_LBAR_PATTERN_in : RegBlock.svc.has Rg.SVC_LBAR_PATTERN.addr := Rg.SVC_LBAR_in
theorem Rg.SVC_LBAR_HOST_EN_in : RegBlock.svc.has Rg.SVC_LBAR_HOST_EN.addr := Rg.SVC_LBAR_in
theorem Rg.SVC_LBAR_HOST_COLOURS_in : RegBlock.svc.has Rg.SVC_LBAR_HOST_COLOURS.addr := Rg.SVC_LBAR_in
theorem Rg.SVC_PRESENCE_CAGE_in : RegBlock.svc.has Rg.SVC_PRESENCE_CAGE.addr := Rg.SVC_PRESENCE_in
theorem Rg.SVC_PRESENCE_LARRIC_in : RegBlock.svc.has Rg.SVC_PRESENCE_LARRIC.addr := Rg.SVC_PRESENCE_in
theorem Rg.SVC_PRESENCE_CAGE_CHG_in : RegBlock.svc.has Rg.SVC_PRESENCE_CAGE_CHG.addr := Rg.SVC_PRESENCE_in
theorem Rg.SVC_PRESENCE_LARRIC_CHG_in : RegBlock.svc.has Rg.SVC_PRESENCE_LARRIC_CHG.addr := Rg.SVC_PRESENCE_in
theorem Rg.SVC_IRQ_IDENTIFY_in : RegBlock.svc.has Rg.SVC_IRQ_IDENTIFY.addr := Rg.SVC_IRQ_in
theorem Rg.SVC_IRQ_QUIESCE_REQ_in : RegBlock.svc.has Rg.SVC_IRQ_QUIESCE_REQ.addr := Rg.SVC_IRQ_in
theorem Rg.SVC_IRQ_SAFE_in : RegBlock.svc.has Rg.SVC_IRQ_SAFE.addr := Rg.SVC_IRQ_in
theorem Rg.SVC_IRQ_FORCE_STOP_in : RegBlock.svc.has Rg.SVC_IRQ_FORCE_STOP.addr := Rg.SVC_IRQ_in
theorem Rg.SVC_IRQ_PRESENCE_in : RegBlock.svc.has Rg.SVC_IRQ_PRESENCE.addr := Rg.SVC_IRQ_in
theorem Rg.LRL_STATUS_STATE_in : RegBlock.lrl.has Rg.LRL_STATUS_STATE.addr := Rg.LRL_STATUS_in
theorem Rg.LRL_STATUS_MODE_in : RegBlock.lrl.has Rg.LRL_STATUS_MODE.addr := Rg.LRL_STATUS_in
theorem Rg.LRL_STATUS_WIDTH_in : RegBlock.lrl.has Rg.LRL_STATUS_WIDTH.addr := Rg.LRL_STATUS_in
theorem Rg.LRL_STATUS_LANES_FAILED_in : RegBlock.lrl.has Rg.LRL_STATUS_LANES_FAILED.addr := Rg.LRL_STATUS_in
theorem Rg.LRL_STATUS_TRAIN_FAILS_in : RegBlock.lrl.has Rg.LRL_STATUS_TRAIN_FAILS.addr := Rg.LRL_STATUS_in
theorem Rg.LRL_CFG_REPLAY_NS_in : RegBlock.lrl.has Rg.LRL_CFG_REPLAY_NS.addr := Rg.LRL_CFG_in
theorem Rg.LRL_CFG_CPL_TIMEOUT_MS_in : RegBlock.lrl.has Rg.LRL_CFG_CPL_TIMEOUT_MS.addr := Rg.LRL_CFG_in
theorem Rg.LRL_CFG_RETRAIN_MS_in : RegBlock.lrl.has Rg.LRL_CFG_RETRAIN_MS.addr := Rg.LRL_CFG_in
theorem Rg.LRL_CFG_ALLOW_X4_in : RegBlock.lrl.has Rg.LRL_CFG_ALLOW_X4.addr := Rg.LRL_CFG_in
theorem Rg.LRL_ERR_CRC_ERR_in : RegBlock.lrl.has Rg.LRL_ERR_CRC_ERR.addr := Rg.LRL_ERR_in
theorem Rg.LRL_ERR_REPLAYS_in : RegBlock.lrl.has Rg.LRL_ERR_REPLAYS.addr := Rg.LRL_ERR_in
theorem Rg.LRL_ERR_RETRAINS_in : RegBlock.lrl.has Rg.LRL_ERR_RETRAINS.addr := Rg.LRL_ERR_in
theorem Rg.LRL_EVENTS_DOWNS_in : RegBlock.lrl.has Rg.LRL_EVENTS_DOWNS.addr := Rg.LRL_EVENTS_in
theorem Rg.LRL_EVENTS_DB_BAD_in : RegBlock.lrl.has Rg.LRL_EVENTS_DB_BAD.addr := Rg.LRL_EVENTS_in
theorem Rg.LRL_EVENTS_CPL_TIMEOUT_in : RegBlock.lrl.has Rg.LRL_EVENTS_CPL_TIMEOUT.addr := Rg.LRL_EVENTS_in
theorem Rg.LRL_EVENTS_ACCESS_ERR_in : RegBlock.lrl.has Rg.LRL_EVENTS_ACCESS_ERR.addr := Rg.LRL_EVENTS_in
theorem Rg.LRL_IRQ_MASK_MASK_in : RegBlock.lrl.has Rg.LRL_IRQ_MASK_MASK.addr := Rg.LRL_IRQ_MASK_in
theorem Rg.LRL_IRQ_PEND_PEND_in : RegBlock.lrl.has Rg.LRL_IRQ_PEND_PEND.addr := Rg.LRL_IRQ_PEND_in
theorem Rg.LRL_IRQ_REARM_REARM_in : RegBlock.lrl.has Rg.LRL_IRQ_REARM_REARM.addr := Rg.LRL_IRQ_REARM_in
theorem Rg.LRL_HWIN_BASE_BASE_in (j : Nat) : RegBlock.lrl.has (Rg.LRL_HWIN_BASE_BASE j).addr := Rg.LRL_HWIN_BASE_in j
theorem Rg.LRL_HWIN_LIMIT_LIMIT_in (j : Nat) : RegBlock.lrl.has (Rg.LRL_HWIN_LIMIT_LIMIT j).addr := Rg.LRL_HWIN_LIMIT_in j
theorem Rg.CCH_PORT_CTRL_ENABLE_in (i : Nat) : RegBlock.cch.has (Rg.CCH_PORT_CTRL_ENABLE i).addr := Rg.CCH_PORT_CTRL_in i
theorem Rg.CCH_PORT_CTRL_VLAN_in (i : Nat) : RegBlock.cch.has (Rg.CCH_PORT_CTRL_VLAN i).addr := Rg.CCH_PORT_CTRL_in i
theorem Rg.CCH_PORT_CTRL_PCP_in (i : Nat) : RegBlock.cch.has (Rg.CCH_PORT_CTRL_PCP i).addr := Rg.CCH_PORT_CTRL_in i
theorem Rg.CCH_PORT_CTRL_VID_in (i : Nat) : RegBlock.cch.has (Rg.CCH_PORT_CTRL_VID i).addr := Rg.CCH_PORT_CTRL_in i
theorem Rg.CCH_PORT_STATUS_STATE_in (i : Nat) : RegBlock.cch.has (Rg.CCH_PORT_STATUS_STATE i).addr := Rg.CCH_PORT_STATUS_in i
theorem Rg.CCH_PORT_STATUS_PRESENT_in (i : Nat) : RegBlock.cch.has (Rg.CCH_PORT_STATUS_PRESENT i).addr := Rg.CCH_PORT_STATUS_in i
theorem Rg.CCH_PORT_STATUS_MEDIA_in (i : Nat) : RegBlock.cch.has (Rg.CCH_PORT_STATUS_MEDIA i).addr := Rg.CCH_PORT_STATUS_in i
theorem Rg.CCH_PORT_STATUS_TRAIN_FAILS_in (i : Nat) : RegBlock.cch.has (Rg.CCH_PORT_STATUS_TRAIN_FAILS i).addr := Rg.CCH_PORT_STATUS_in i
theorem Rg.CCH_PORT_FEC_CORRECTED_in (i : Nat) : RegBlock.cch.has (Rg.CCH_PORT_FEC_CORRECTED i).addr := Rg.CCH_PORT_FEC_in i
theorem Rg.CCH_PORT_FEC_UNCORRECTED_in (i : Nat) : RegBlock.cch.has (Rg.CCH_PORT_FEC_UNCORRECTED i).addr := Rg.CCH_PORT_FEC_in i
theorem Rg.CCH_PORT_FRAMES_TX_in (i : Nat) : RegBlock.cch.has (Rg.CCH_PORT_FRAMES_TX i).addr := Rg.CCH_PORT_FRAMES_in i
theorem Rg.CCH_PORT_FRAMES_RX_in (i : Nat) : RegBlock.cch.has (Rg.CCH_PORT_FRAMES_RX i).addr := Rg.CCH_PORT_FRAMES_in i
theorem Rg.CCH_PORT_DROP_TAG_DROP_in (i : Nat) : RegBlock.cch.has (Rg.CCH_PORT_DROP_TAG_DROP i).addr := Rg.CCH_PORT_DROP_in i
theorem Rg.CCH_PORT_DROP_ADDR_DROP_in (i : Nat) : RegBlock.cch.has (Rg.CCH_PORT_DROP_ADDR_DROP i).addr := Rg.CCH_PORT_DROP_in i
theorem Rg.CCH_PORT_DROP_CRC_DROP_in (i : Nat) : RegBlock.cch.has (Rg.CCH_PORT_DROP_CRC_DROP i).addr := Rg.CCH_PORT_DROP_in i
theorem Rg.CCH_PORT_DROP_OTHER_DROP_in (i : Nat) : RegBlock.cch.has (Rg.CCH_PORT_DROP_OTHER_DROP i).addr := Rg.CCH_PORT_DROP_in i
theorem Rg.CCH_PORT_RETX_RETX_in (i : Nat) : RegBlock.cch.has (Rg.CCH_PORT_RETX_RETX i).addr := Rg.CCH_PORT_RETX_in i
theorem Rg.CCH_PORT_RETX_RTO_in (i : Nat) : RegBlock.cch.has (Rg.CCH_PORT_RETX_RTO i).addr := Rg.CCH_PORT_RETX_in i
theorem Rg.CCH_PORT_RETX_CREDIT_DROP_in (i : Nat) : RegBlock.cch.has (Rg.CCH_PORT_RETX_CREDIT_DROP i).addr := Rg.CCH_PORT_RETX_in i
theorem Rg.CCH_PORT_EVENTS_DOWNS_in (i : Nat) : RegBlock.cch.has (Rg.CCH_PORT_EVENTS_DOWNS i).addr := Rg.CCH_PORT_EVENTS_in i
theorem Rg.CCH_PORT_EVENTS_FAILOVERS_OUT_in (i : Nat) : RegBlock.cch.has (Rg.CCH_PORT_EVENTS_FAILOVERS_OUT i).addr := Rg.CCH_PORT_EVENTS_in i
theorem Rg.CCH_PORT_EVENTS_FAILOVERS_IN_in (i : Nat) : RegBlock.cch.has (Rg.CCH_PORT_EVENTS_FAILOVERS_IN i).addr := Rg.CCH_PORT_EVENTS_in i
theorem Rg.CCH_DEVICE_DEVICE_ID_in : RegBlock.cch.has Rg.CCH_DEVICE_DEVICE_ID.addr := Rg.CCH_DEVICE_in
theorem Rg.CCH_DEVICE_PORTS_in : RegBlock.cch.has Rg.CCH_DEVICE_PORTS.addr := Rg.CCH_DEVICE_in
theorem Rg.CCH_XPORT_CFG_RTO_US_in : RegBlock.cch.has Rg.CCH_XPORT_CFG_RTO_US.addr := Rg.CCH_XPORT_CFG_in
theorem Rg.CCH_XPORT_CFG_RETRY_MAX_in : RegBlock.cch.has Rg.CCH_XPORT_CFG_RETRY_MAX.addr := Rg.CCH_XPORT_CFG_in
theorem Rg.CCH_XPORT_CFG_ACK_DELAY_in : RegBlock.cch.has Rg.CCH_XPORT_CFG_ACK_DELAY.addr := Rg.CCH_XPORT_CFG_in
theorem Rg.CCH_XPORT_CFG_FLOW_CREDIT_in : RegBlock.cch.has Rg.CCH_XPORT_CFG_FLOW_CREDIT.addr := Rg.CCH_XPORT_CFG_in
theorem Rg.CCH_XPORT_CFG_DOWN_US_in : RegBlock.cch.has Rg.CCH_XPORT_CFG_DOWN_US.addr := Rg.CCH_XPORT_CFG_in
theorem Rg.CCH_ROUTE_SEL_DEVICE_in : RegBlock.cch.has Rg.CCH_ROUTE_SEL_DEVICE.addr := Rg.CCH_ROUTE_SEL_in
theorem Rg.CCH_ROUTE_DATA_PRIMARY_in : RegBlock.cch.has Rg.CCH_ROUTE_DATA_PRIMARY.addr := Rg.CCH_ROUTE_DATA_in
theorem Rg.CCH_ROUTE_DATA_VALID_in : RegBlock.cch.has Rg.CCH_ROUTE_DATA_VALID.addr := Rg.CCH_ROUTE_DATA_in
theorem Rg.CCH_ROUTE_DATA_VIA_in : RegBlock.cch.has Rg.CCH_ROUTE_DATA_VIA.addr := Rg.CCH_ROUTE_DATA_in
theorem Rg.CCH_FLOWS_OPEN_in : RegBlock.cch.has Rg.CCH_FLOWS_OPEN.addr := Rg.CCH_FLOWS_in
theorem Rg.CCH_FLOWS_REFUSED_in : RegBlock.cch.has Rg.CCH_FLOWS_REFUSED.addr := Rg.CCH_FLOWS_in
theorem Rg.CCH_FLOWS_AGED_in : RegBlock.cch.has Rg.CCH_FLOWS_AGED.addr := Rg.CCH_FLOWS_in
theorem Rg.CCH_EXPORT_ACTIVE_in : RegBlock.cch.has Rg.CCH_EXPORT_ACTIVE.addr := Rg.CCH_EXPORT_in
theorem Rg.CCH_EXPORT_PAGES_in : RegBlock.cch.has Rg.CCH_EXPORT_PAGES.addr := Rg.CCH_EXPORT_in
theorem Rg.CCH_EXPORT_END_COMPLETE_in : RegBlock.cch.has Rg.CCH_EXPORT_END_COMPLETE.addr := Rg.CCH_EXPORT_END_in
theorem Rg.CCH_EXPORT_END_CANCELLED_in : RegBlock.cch.has Rg.CCH_EXPORT_END_CANCELLED.addr := Rg.CCH_EXPORT_END_in
theorem Rg.CCH_EXPORT_END_ABORTED_in : RegBlock.cch.has Rg.CCH_EXPORT_END_ABORTED.addr := Rg.CCH_EXPORT_END_in
theorem Rg.CCH_ABORT_SENT_in : RegBlock.cch.has Rg.CCH_ABORT_SENT.addr := Rg.CCH_ABORT_in
theorem Rg.CCH_ABORT_ACCEPTED_in : RegBlock.cch.has Rg.CCH_ABORT_ACCEPTED.addr := Rg.CCH_ABORT_in
theorem Rg.CCH_ABORT_DUPLICATE_in : RegBlock.cch.has Rg.CCH_ABORT_DUPLICATE.addr := Rg.CCH_ABORT_in
theorem Rg.CCH_LAST_DEV_in (j : Nat) : RegBlock.cch.has (Rg.CCH_LAST_DEV j).addr := Rg.CCH_LAST_in j
theorem Rg.CCH_LAST_RANK_in (j : Nat) : RegBlock.cch.has (Rg.CCH_LAST_RANK j).addr := Rg.CCH_LAST_in j
theorem Rg.CCH_LAST_WAIT_NS_in (j : Nat) : RegBlock.cch.has (Rg.CCH_LAST_WAIT_NS j).addr := Rg.CCH_LAST_in j
theorem Rg.CCH_LAST_SEQ_SEQ_in (j : Nat) : RegBlock.cch.has (Rg.CCH_LAST_SEQ_SEQ j).addr := Rg.CCH_LAST_SEQ_in j
theorem Rg.CCH_LAST_SEQ_KIND_in (j : Nat) : RegBlock.cch.has (Rg.CCH_LAST_SEQ_KIND j).addr := Rg.CCH_LAST_SEQ_in j
theorem Rg.CCH_WDOG_DEV_in (j : Nat) : RegBlock.cch.has (Rg.CCH_WDOG_DEV j).addr := Rg.CCH_WDOG_in j
theorem Rg.CCH_WDOG_RANK_in (j : Nat) : RegBlock.cch.has (Rg.CCH_WDOG_RANK j).addr := Rg.CCH_WDOG_in j
theorem Rg.CCH_WDOG_STEP_in (j : Nat) : RegBlock.cch.has (Rg.CCH_WDOG_STEP j).addr := Rg.CCH_WDOG_in j
theorem Rg.CCH_WDOG_FIRED_in (j : Nat) : RegBlock.cch.has (Rg.CCH_WDOG_FIRED j).addr := Rg.CCH_WDOG_in j
theorem Rg.CCH_CTR_SEL_COUNTER_in (j : Nat) : RegBlock.cch.has (Rg.CCH_CTR_SEL_COUNTER j).addr := Rg.CCH_CTR_SEL_in j
theorem Rg.CCH_CTR_VAL_VALUE_in (j : Nat) : RegBlock.cch.has (Rg.CCH_CTR_VAL_VALUE j).addr := Rg.CCH_CTR_VAL_in j
theorem Rg.CCH_CTR_VAL_WAITER_in (j : Nat) : RegBlock.cch.has (Rg.CCH_CTR_VAL_WAITER j).addr := Rg.CCH_CTR_VAL_in j
theorem Rg.MEM_CONFIG_CHANNELS_in : RegBlock.mem.has Rg.MEM_CONFIG_CHANNELS.addr := Rg.MEM_CONFIG_in
theorem Rg.MEM_CONFIG_RATE_MTS_in : RegBlock.mem.has Rg.MEM_CONFIG_RATE_MTS.addr := Rg.MEM_CONFIG_in
theorem Rg.MEM_CONFIG_PART_GIB_in : RegBlock.mem.has Rg.MEM_CONFIG_PART_GIB.addr := Rg.MEM_CONFIG_in
theorem Rg.MEM_CONFIG_RESERVE_HALF_GIB_in : RegBlock.mem.has Rg.MEM_CONFIG_RESERVE_HALF_GIB.addr := Rg.MEM_CONFIG_in
theorem Rg.MEM_SCRUB_STATUS_PERIOD_S_in : RegBlock.mem.has Rg.MEM_SCRUB_STATUS_PERIOD_S.addr := Rg.MEM_SCRUB_STATUS_in
theorem Rg.MEM_SCRUB_STATUS_PROGRESS_in : RegBlock.mem.has Rg.MEM_SCRUB_STATUS_PROGRESS.addr := Rg.MEM_SCRUB_STATUS_in
theorem Rg.MEM_SCRUB_STATUS_BEHIND_in : RegBlock.mem.has Rg.MEM_SCRUB_STATUS_BEHIND.addr := Rg.MEM_SCRUB_STATUS_in
theorem Rg.MEM_SCRUB_STATUS_PASSES_in : RegBlock.mem.has Rg.MEM_SCRUB_STATUS_PASSES.addr := Rg.MEM_SCRUB_STATUS_in
theorem Rg.MEM_ERR_COUNT_CORRECTED_in : RegBlock.mem.has Rg.MEM_ERR_COUNT_CORRECTED.addr := Rg.MEM_ERR_COUNT_in
theorem Rg.MEM_ERR_COUNT_UNCORR_in : RegBlock.mem.has Rg.MEM_ERR_COUNT_UNCORR.addr := Rg.MEM_ERR_COUNT_in
theorem Rg.MEM_ERR_COUNT_POISON_READ_in : RegBlock.mem.has Rg.MEM_ERR_COUNT_POISON_READ.addr := Rg.MEM_ERR_COUNT_in
theorem Rg.MEM_LOG_STATUS_COUNT_in : RegBlock.mem.has Rg.MEM_LOG_STATUS_COUNT.addr := Rg.MEM_LOG_STATUS_in
theorem Rg.MEM_LOG_STATUS_OVERFLOW_in : RegBlock.mem.has Rg.MEM_LOG_STATUS_OVERFLOW.addr := Rg.MEM_LOG_STATUS_in
theorem Rg.MEM_LOG_STATUS_UNCORR_IRQ_in : RegBlock.mem.has Rg.MEM_LOG_STATUS_UNCORR_IRQ.addr := Rg.MEM_LOG_STATUS_in
theorem Rg.MEM_LOG_HEAD0_ADDR_in : RegBlock.mem.has Rg.MEM_LOG_HEAD0_ADDR.addr := Rg.MEM_LOG_HEAD0_in
theorem Rg.MEM_LOG_HEAD0_SOURCE_in : RegBlock.mem.has Rg.MEM_LOG_HEAD0_SOURCE.addr := Rg.MEM_LOG_HEAD0_in
theorem Rg.MEM_LOG_HEAD0_SRAM_in : RegBlock.mem.has Rg.MEM_LOG_HEAD0_SRAM.addr := Rg.MEM_LOG_HEAD0_in
theorem Rg.MEM_LOG_HEAD0_CLASS_in : RegBlock.mem.has Rg.MEM_LOG_HEAD0_CLASS.addr := Rg.MEM_LOG_HEAD0_in
theorem Rg.MEM_LOG_HEAD0_PART_in : RegBlock.mem.has Rg.MEM_LOG_HEAD0_PART.addr := Rg.MEM_LOG_HEAD0_in
theorem Rg.MEM_LOG_HEAD0_VALID_in : RegBlock.mem.has Rg.MEM_LOG_HEAD0_VALID.addr := Rg.MEM_LOG_HEAD0_in
theorem Rg.MEM_LOG_HEAD1_TIME_in : RegBlock.mem.has Rg.MEM_LOG_HEAD1_TIME.addr := Rg.MEM_LOG_HEAD1_in
theorem Rg.MEM_SPLIT_READ_in (j : Nat) : RegBlock.mem.has (Rg.MEM_SPLIT_READ j).addr := Rg.MEM_SPLIT_in j
theorem Rg.MEM_SPLIT_WRITE_in (j : Nat) : RegBlock.mem.has (Rg.MEM_SPLIT_WRITE j).addr := Rg.MEM_SPLIT_in j
theorem Rg.MEM_SPLIT_REMOTE_in (j : Nat) : RegBlock.mem.has (Rg.MEM_SPLIT_REMOTE j).addr := Rg.MEM_SPLIT_in j
theorem Rg.MEM_SPLIT_PATTERN_in (j : Nat) : RegBlock.mem.has (Rg.MEM_SPLIT_PATTERN j).addr := Rg.MEM_SPLIT_in j
theorem Rg.MEM_CH_STATUS_TRAINED_in (i : Nat) : RegBlock.mem.has (Rg.MEM_CH_STATUS_TRAINED i).addr := Rg.MEM_CH_STATUS_in i
theorem Rg.MEM_CH_STATUS_WQ_LEVEL_in (i : Nat) : RegBlock.mem.has (Rg.MEM_CH_STATUS_WQ_LEVEL i).addr := Rg.MEM_CH_STATUS_in i
theorem Rg.MEM_CH_STATUS_RQ_LEVEL_in (i : Nat) : RegBlock.mem.has (Rg.MEM_CH_STATUS_RQ_LEVEL i).addr := Rg.MEM_CH_STATUS_in i
theorem Rg.MEM_CH_SLOTS_READ_SLOTS_in (i : Nat) : RegBlock.mem.has (Rg.MEM_CH_SLOTS_READ_SLOTS i).addr := Rg.MEM_CH_SLOTS_READ_in i
theorem Rg.MEM_CH_SLOTS_WRITE_SLOTS_in (i : Nat) : RegBlock.mem.has (Rg.MEM_CH_SLOTS_WRITE_SLOTS i).addr := Rg.MEM_CH_SLOTS_WRITE_in i
theorem Rg.MEM_CH_SLOTS_REMOTE_SLOTS_in (i : Nat) : RegBlock.mem.has (Rg.MEM_CH_SLOTS_REMOTE_SLOTS i).addr := Rg.MEM_CH_SLOTS_REMOTE_in i
theorem Rg.MEM_CH_SLOTS_IDLE_SLOTS_in (i : Nat) : RegBlock.mem.has (Rg.MEM_CH_SLOTS_IDLE_SLOTS i).addr := Rg.MEM_CH_SLOTS_IDLE_in i
theorem Rg.MEM_CH_ECC_CORRECTED_in (i : Nat) : RegBlock.mem.has (Rg.MEM_CH_ECC_CORRECTED i).addr := Rg.MEM_CH_ECC_in i
theorem Rg.MEM_CH_ECC_UNCORR_in (i : Nat) : RegBlock.mem.has (Rg.MEM_CH_ECC_UNCORR i).addr := Rg.MEM_CH_ECC_in i
theorem Rg.MEM_CH_ECC_RMW_in (i : Nat) : RegBlock.mem.has (Rg.MEM_CH_ECC_RMW i).addr := Rg.MEM_CH_ECC_in i
theorem Rg.DSP_CTRL_HALT_in (i : Nat) : RegBlock.dsp.has (Rg.DSP_CTRL_HALT i).addr := Rg.DSP_CTRL_in i
theorem Rg.DSP_CTRL_HALTED_in (i : Nat) : RegBlock.dsp.has (Rg.DSP_CTRL_HALTED i).addr := Rg.DSP_CTRL_in i
theorem Rg.DSP_STATUS_RESIDENT_in (i : Nat) : RegBlock.dsp.has (Rg.DSP_STATUS_RESIDENT i).addr := Rg.DSP_STATUS_in i
theorem Rg.DSP_STATUS_READY_in (i : Nat) : RegBlock.dsp.has (Rg.DSP_STATUS_READY i).addr := Rg.DSP_STATUS_in i
theorem Rg.DSP_STATUS_INFLIGHT_in (i : Nat) : RegBlock.dsp.has (Rg.DSP_STATUS_INFLIGHT i).addr := Rg.DSP_STATUS_in i
theorem Rg.DSP_GRAPHS_VALID_in (i : Nat) : RegBlock.dsp.has (Rg.DSP_GRAPHS_VALID i).addr := Rg.DSP_GRAPHS_in i
theorem Rg.DSP_GRAPHS_RUNNING_in (i : Nat) : RegBlock.dsp.has (Rg.DSP_GRAPHS_RUNNING i).addr := Rg.DSP_GRAPHS_in i
theorem Rg.DSP_GRAPHS_UNLOADING_in (i : Nat) : RegBlock.dsp.has (Rg.DSP_GRAPHS_UNLOADING i).addr := Rg.DSP_GRAPHS_in i
theorem Rg.DSP_GRAPHS_BROKEN_in (i : Nat) : RegBlock.dsp.has (Rg.DSP_GRAPHS_BROKEN i).addr := Rg.DSP_GRAPHS_in i
theorem Rg.DSP_POOL_PREFILL_in (i : Nat) : RegBlock.dsp.has (Rg.DSP_POOL_PREFILL i).addr := Rg.DSP_POOL_in i
theorem Rg.DSP_POOL_STEP_in (i : Nat) : RegBlock.dsp.has (Rg.DSP_POOL_STEP i).addr := Rg.DSP_POOL_in i
theorem Rg.DSP_CMD_OP_in (i : Nat) : RegBlock.dsp.has (Rg.DSP_CMD_OP i).addr := Rg.DSP_CMD_in i
theorem Rg.DSP_CMD_TAG_in (i : Nat) : RegBlock.dsp.has (Rg.DSP_CMD_TAG i).addr := Rg.DSP_CMD_in i
theorem Rg.DSP_CMD_ADDR_ADDR_in (i : Nat) : RegBlock.dsp.has (Rg.DSP_CMD_ADDR_ADDR i).addr := Rg.DSP_CMD_ADDR_in i
theorem Rg.DSP_CMD_RESULT_RESULT_in (i : Nat) : RegBlock.dsp.has (Rg.DSP_CMD_RESULT_RESULT i).addr := Rg.DSP_CMD_RESULT_in i
theorem Rg.DSP_CMD_RESULT_BUSY_in (i : Nat) : RegBlock.dsp.has (Rg.DSP_CMD_RESULT_BUSY i).addr := Rg.DSP_CMD_RESULT_in i
theorem Rg.DSP_CMD_RESULT_NODE_in (i : Nat) : RegBlock.dsp.has (Rg.DSP_CMD_RESULT_NODE i).addr := Rg.DSP_CMD_RESULT_in i
theorem Rg.DSP_CMD_RESULT_COUNT_in (i : Nat) : RegBlock.dsp.has (Rg.DSP_CMD_RESULT_COUNT i).addr := Rg.DSP_CMD_RESULT_in i
theorem Rg.DSP_CRING_BASE_BASE_in (i : Nat) : RegBlock.dsp.has (Rg.DSP_CRING_BASE_BASE i).addr := Rg.DSP_CRING_BASE_in i
theorem Rg.DSP_CRING_CFG_LOG2_in (i : Nat) : RegBlock.dsp.has (Rg.DSP_CRING_CFG_LOG2 i).addr := Rg.DSP_CRING_CFG_in i
theorem Rg.DSP_CRING_TAIL_TAIL_in (i : Nat) : RegBlock.dsp.has (Rg.DSP_CRING_TAIL_TAIL i).addr := Rg.DSP_CRING_TAIL_in i
theorem Rg.DSP_CRING_HEAD_HEAD_in (i : Nat) : RegBlock.dsp.has (Rg.DSP_CRING_HEAD_HEAD i).addr := Rg.DSP_CRING_HEAD_in i
theorem Rg.DSP_CB_BASE_BASE_in (i : Nat) : RegBlock.dsp.has (Rg.DSP_CB_BASE_BASE i).addr := Rg.DSP_CB_BASE_in i
theorem Rg.DSP_CB_CFG_LOG2_in (i : Nat) : RegBlock.dsp.has (Rg.DSP_CB_CFG_LOG2 i).addr := Rg.DSP_CB_CFG_in i
theorem Rg.DSP_CB_TAIL_TAIL_in (i : Nat) : RegBlock.dsp.has (Rg.DSP_CB_TAIL_TAIL i).addr := Rg.DSP_CB_TAIL_in i
theorem Rg.DSP_CB_HEAD_HEAD_in (i : Nat) : RegBlock.dsp.has (Rg.DSP_CB_HEAD_HEAD i).addr := Rg.DSP_CB_HEAD_in i
theorem Rg.DSP_CTL_DONE_SEQ_in (i : Nat) : RegBlock.dsp.has (Rg.DSP_CTL_DONE_SEQ i).addr := Rg.DSP_CTL_DONE_in i
theorem Rg.DSP_CTL_DONE_STATUS_in (i : Nat) : RegBlock.dsp.has (Rg.DSP_CTL_DONE_STATUS i).addr := Rg.DSP_CTL_DONE_in i
theorem Rg.DSP_CTL_DONE_SUB_in (i : Nat) : RegBlock.dsp.has (Rg.DSP_CTL_DONE_SUB i).addr := Rg.DSP_CTL_DONE_in i
theorem Rg.DSP_IRQ_RECORD_in (i : Nat) : RegBlock.dsp.has (Rg.DSP_IRQ_RECORD i).addr := Rg.DSP_IRQ_in i
theorem Rg.DSP_IRQ_CALLBACK_in (i : Nat) : RegBlock.dsp.has (Rg.DSP_IRQ_CALLBACK i).addr := Rg.DSP_IRQ_in i
theorem Rg.DSP_IRQ_RING_FULL_in (i : Nat) : RegBlock.dsp.has (Rg.DSP_IRQ_RING_FULL i).addr := Rg.DSP_IRQ_in i
theorem Rg.DSP_IRQ_CMD_DONE_in (i : Nat) : RegBlock.dsp.has (Rg.DSP_IRQ_CMD_DONE i).addr := Rg.DSP_IRQ_in i
theorem Rg.DSP_IRQ_STEP_REFUSED_in (i : Nat) : RegBlock.dsp.has (Rg.DSP_IRQ_STEP_REFUSED i).addr := Rg.DSP_IRQ_in i
theorem Rg.DSP_STEP_STEP_in (i j : Nat) : RegBlock.dsp.has (Rg.DSP_STEP_STEP i j).addr := Rg.DSP_STEP_in i j
theorem Rg.DSP_STEP_ROWS_in (i j : Nat) : RegBlock.dsp.has (Rg.DSP_STEP_ROWS i j).addr := Rg.DSP_STEP_in i j
theorem Rg.DSP_STEP_RUNNING_in (i j : Nat) : RegBlock.dsp.has (Rg.DSP_STEP_RUNNING i j).addr := Rg.DSP_STEP_in i j
theorem Rg.DSP_ISSUED_TASKS_in (i : Nat) : RegBlock.dsp.has (Rg.DSP_ISSUED_TASKS i).addr := Rg.DSP_ISSUED_in i
theorem Rg.DSP_ISSUED_PIN_MOVED_in (i : Nat) : RegBlock.dsp.has (Rg.DSP_ISSUED_PIN_MOVED i).addr := Rg.DSP_ISSUED_in i
theorem Rg.DSP_WAIT_QUOTA_WAIT_in (i : Nat) : RegBlock.dsp.has (Rg.DSP_WAIT_QUOTA_WAIT i).addr := Rg.DSP_WAIT_in i
theorem Rg.DSP_WAIT_SLOT_WAIT_in (i : Nat) : RegBlock.dsp.has (Rg.DSP_WAIT_SLOT_WAIT i).addr := Rg.DSP_WAIT_in i
theorem Rg.DSP_EVENTS_INHERITED_in (i : Nat) : RegBlock.dsp.has (Rg.DSP_EVENTS_INHERITED i).addr := Rg.DSP_EVENTS_in i
theorem Rg.DSP_EVENTS_EMPTY_SLICE_in (i : Nat) : RegBlock.dsp.has (Rg.DSP_EVENTS_EMPTY_SLICE i).addr := Rg.DSP_EVENTS_in i
theorem Rg.DSP_EVENTS_RING_FULL_in (i : Nat) : RegBlock.dsp.has (Rg.DSP_EVENTS_RING_FULL i).addr := Rg.DSP_EVENTS_in i
theorem Rg.DSP_EVENTS_STEPS_REFUSED_in (i : Nat) : RegBlock.dsp.has (Rg.DSP_EVENTS_STEPS_REFUSED i).addr := Rg.DSP_EVENTS_in i
theorem Rg.DSP_EVENTS_BAD_BLOCK_in (i : Nat) : RegBlock.dsp.has (Rg.DSP_EVENTS_BAD_BLOCK i).addr := Rg.DSP_EVENTS_in i
theorem Rg.DSP_EVENTS_CTL_STRAY_in (i : Nat) : RegBlock.dsp.has (Rg.DSP_EVENTS_CTL_STRAY i).addr := Rg.DSP_EVENTS_in i
theorem Rg.DSP_QUIET_RECORDS_in (i : Nat) : RegBlock.dsp.has (Rg.DSP_QUIET_RECORDS i).addr := Rg.DSP_QUIET_in i
theorem Rg.LDG_CTRL_HALT_in (i : Nat) : RegBlock.ldg.has (Rg.LDG_CTRL_HALT i).addr := Rg.LDG_CTRL_in i
theorem Rg.LDG_CTRL_BUDGET_in (i : Nat) : RegBlock.ldg.has (Rg.LDG_CTRL_BUDGET i).addr := Rg.LDG_CTRL_in i
theorem Rg.LDG_CTRL_PRESSURE_in (i : Nat) : RegBlock.ldg.has (Rg.LDG_CTRL_PRESSURE i).addr := Rg.LDG_CTRL_in i
theorem Rg.LDG_STATUS_BOUND_in (i : Nat) : RegBlock.ldg.has (Rg.LDG_STATUS_BOUND i).addr := Rg.LDG_STATUS_in i
theorem Rg.LDG_STATUS_FREE_in (i : Nat) : RegBlock.ldg.has (Rg.LDG_STATUS_FREE i).addr := Rg.LDG_STATUS_in i
theorem Rg.LDG_STATUS_RUNNING_in (i : Nat) : RegBlock.ldg.has (Rg.LDG_STATUS_RUNNING i).addr := Rg.LDG_STATUS_in i
theorem Rg.LDG_CFG_QUANTUM_in (i : Nat) : RegBlock.ldg.has (Rg.LDG_CFG_QUANTUM i).addr := Rg.LDG_CFG_in i
theorem Rg.LDG_CFG_RETRY_MAX_in (i : Nat) : RegBlock.ldg.has (Rg.LDG_CFG_RETRY_MAX i).addr := Rg.LDG_CFG_in i
theorem Rg.LDG_CFG_IRQ_HOST_in (i : Nat) : RegBlock.ldg.has (Rg.LDG_CFG_IRQ_HOST i).addr := Rg.LDG_CFG_in i
theorem Rg.LDG_CFG_IRQ_CORE_in (i : Nat) : RegBlock.ldg.has (Rg.LDG_CFG_IRQ_CORE i).addr := Rg.LDG_CFG_in i
theorem Rg.LDG_PAUSE_CFG_PRIO_HI_in (i : Nat) : RegBlock.ldg.has (Rg.LDG_PAUSE_CFG_PRIO_HI i).addr := Rg.LDG_PAUSE_CFG_in i
theorem Rg.LDG_PAUSE_CFG_PRIO_LO_in (i : Nat) : RegBlock.ldg.has (Rg.LDG_PAUSE_CFG_PRIO_LO i).addr := Rg.LDG_PAUSE_CFG_in i
theorem Rg.LDG_PAUSE_CFG_POOL_LOW_in (i : Nat) : RegBlock.ldg.has (Rg.LDG_PAUSE_CFG_POOL_LOW i).addr := Rg.LDG_PAUSE_CFG_in i
theorem Rg.LDG_PAUSE_CFG_WAIT_US_in (i : Nat) : RegBlock.ldg.has (Rg.LDG_PAUSE_CFG_WAIT_US i).addr := Rg.LDG_PAUSE_CFG_in i
theorem Rg.LDG_PAUSE_CFG_SLACK_US_in (i : Nat) : RegBlock.ldg.has (Rg.LDG_PAUSE_CFG_SLACK_US i).addr := Rg.LDG_PAUSE_CFG_in i
theorem Rg.LDG_RESUME_CFG_RESUME_US_in (i : Nat) : RegBlock.ldg.has (Rg.LDG_RESUME_CFG_RESUME_US i).addr := Rg.LDG_RESUME_CFG_in i
theorem Rg.LDG_BUDGET_BASE_BASE_in (i : Nat) : RegBlock.ldg.has (Rg.LDG_BUDGET_BASE_BASE i).addr := Rg.LDG_BUDGET_BASE_in i
theorem Rg.LDG_BUDGET_DEFAULT_RATE_in (i : Nat) : RegBlock.ldg.has (Rg.LDG_BUDGET_DEFAULT_RATE i).addr := Rg.LDG_BUDGET_DEFAULT_in i
theorem Rg.LDG_BUDGET_DEFAULT_BURST_in (i : Nat) : RegBlock.ldg.has (Rg.LDG_BUDGET_DEFAULT_BURST i).addr := Rg.LDG_BUDGET_DEFAULT_in i
theorem Rg.LDG_BUDGET_START_START_in (i : Nat) : RegBlock.ldg.has (Rg.LDG_BUDGET_START_START i).addr := Rg.LDG_BUDGET_START_in i
theorem Rg.LDG_SQ_BASE_BASE_in (i : Nat) : RegBlock.ldg.has (Rg.LDG_SQ_BASE_BASE i).addr := Rg.LDG_SQ_BASE_in i
theorem Rg.LDG_SQ_CFG_LOG2_in (i : Nat) : RegBlock.ldg.has (Rg.LDG_SQ_CFG_LOG2 i).addr := Rg.LDG_SQ_CFG_in i
theorem Rg.LDG_SQ_TAIL_TAIL_in (i : Nat) : RegBlock.ldg.has (Rg.LDG_SQ_TAIL_TAIL i).addr := Rg.LDG_SQ_TAIL_in i
theorem Rg.LDG_SQ_HEAD_HEAD_in (i : Nat) : RegBlock.ldg.has (Rg.LDG_SQ_HEAD_HEAD i).addr := Rg.LDG_SQ_HEAD_in i
theorem Rg.LDG_RQ_BASE_BASE_in (i : Nat) : RegBlock.ldg.has (Rg.LDG_RQ_BASE_BASE i).addr := Rg.LDG_RQ_BASE_in i
theorem Rg.LDG_RQ_CFG_LOG2_in (i : Nat) : RegBlock.ldg.has (Rg.LDG_RQ_CFG_LOG2 i).addr := Rg.LDG_RQ_CFG_in i
theorem Rg.LDG_RQ_TAIL_TAIL_in (i : Nat) : RegBlock.ldg.has (Rg.LDG_RQ_TAIL_TAIL i).addr := Rg.LDG_RQ_TAIL_in i
theorem Rg.LDG_RQ_HEAD_HEAD_in (i : Nat) : RegBlock.ldg.has (Rg.LDG_RQ_HEAD_HEAD i).addr := Rg.LDG_RQ_HEAD_in i
theorem Rg.LDG_CMD_OP_in (i : Nat) : RegBlock.ldg.has (Rg.LDG_CMD_OP i).addr := Rg.LDG_CMD_in i
theorem Rg.LDG_CMD_ENTRY_in (i : Nat) : RegBlock.ldg.has (Rg.LDG_CMD_ENTRY i).addr := Rg.LDG_CMD_in i
theorem Rg.LDG_CMD_RESULT_RESULT_in (i : Nat) : RegBlock.ldg.has (Rg.LDG_CMD_RESULT_RESULT i).addr := Rg.LDG_CMD_RESULT_in i
theorem Rg.LDG_CMD_RESULT_BUSY_in (i : Nat) : RegBlock.ldg.has (Rg.LDG_CMD_RESULT_BUSY i).addr := Rg.LDG_CMD_RESULT_in i
theorem Rg.LDG_CMD_RESULT_COUNT_in (i : Nat) : RegBlock.ldg.has (Rg.LDG_CMD_RESULT_COUNT i).addr := Rg.LDG_CMD_RESULT_in i
theorem Rg.LDG_ENTRY_DATA_DATA_in (i j : Nat) : RegBlock.ldg.has (Rg.LDG_ENTRY_DATA_DATA i j).addr := Rg.LDG_ENTRY_DATA_in i j
theorem Rg.LDG_IRQ_RESULT_in (i : Nat) : RegBlock.ldg.has (Rg.LDG_IRQ_RESULT i).addr := Rg.LDG_IRQ_in i
theorem Rg.LDG_IRQ_HOLDING_in (i : Nat) : RegBlock.ldg.has (Rg.LDG_IRQ_HOLDING i).addr := Rg.LDG_IRQ_in i
theorem Rg.LDG_IRQ_BUDGET_in (i : Nat) : RegBlock.ldg.has (Rg.LDG_IRQ_BUDGET i).addr := Rg.LDG_IRQ_in i
theorem Rg.LDG_IRQ_PRESSURE_in (i : Nat) : RegBlock.ldg.has (Rg.LDG_IRQ_PRESSURE i).addr := Rg.LDG_IRQ_in i
theorem Rg.LDG_IRQ_SQ_BAD_in (i : Nat) : RegBlock.ldg.has (Rg.LDG_IRQ_SQ_BAD i).addr := Rg.LDG_IRQ_in i
theorem Rg.LDG_EVENTS_PAUSED_in (i : Nat) : RegBlock.ldg.has (Rg.LDG_EVENTS_PAUSED i).addr := Rg.LDG_EVENTS_in i
theorem Rg.LDG_EVENTS_LATE_in (i : Nat) : RegBlock.ldg.has (Rg.LDG_EVENTS_LATE i).addr := Rg.LDG_EVENTS_in i
theorem Rg.LDG_EVENTS_DROPPED_in (i : Nat) : RegBlock.ldg.has (Rg.LDG_EVENTS_DROPPED i).addr := Rg.LDG_EVENTS_in i
theorem Rg.LDG_EVENTS_QUOTA_RETRY_in (i : Nat) : RegBlock.ldg.has (Rg.LDG_EVENTS_QUOTA_RETRY i).addr := Rg.LDG_EVENTS_in i
theorem Rg.LDG_STEPS_FORMED_in (i : Nat) : RegBlock.ldg.has (Rg.LDG_STEPS_FORMED i).addr := Rg.LDG_STEPS_in i
theorem Rg.LDG_STEPS_RETURNED_in (i : Nat) : RegBlock.ldg.has (Rg.LDG_STEPS_RETURNED i).addr := Rg.LDG_STEPS_in i
theorem Rg.LDG_STEPS_BUDGET_GATED_in (i : Nat) : RegBlock.ldg.has (Rg.LDG_STEPS_BUDGET_GATED i).addr := Rg.LDG_STEPS_in i
theorem Rg.LDG_QUEUE_WEIGHT_in (i j : Nat) : RegBlock.ldg.has (Rg.LDG_QUEUE_WEIGHT i j).addr := Rg.LDG_QUEUE_in i j
theorem Rg.LDG_QUEUE_QUEUED_in (i j : Nat) : RegBlock.ldg.has (Rg.LDG_QUEUE_QUEUED i j).addr := Rg.LDG_QUEUE_in i j
theorem Rg.LDG_QUEUE_ADMITTED_in (i j : Nat) : RegBlock.ldg.has (Rg.LDG_QUEUE_ADMITTED i j).addr := Rg.LDG_QUEUE_in i j
theorem Rg.LDG_GRAPH_ADAPT_ADDR_in (i j : Nat) : RegBlock.ldg.has (Rg.LDG_GRAPH_ADAPT_ADDR i j).addr := Rg.LDG_GRAPH_ADAPT_in i j
theorem Rg.LDG_GRAPH_VERIFY_ADDR_in (i j : Nat) : RegBlock.ldg.has (Rg.LDG_GRAPH_VERIFY_ADDR i j).addr := Rg.LDG_GRAPH_VERIFY_in i j
theorem Rg.LDG_PAGE_POOL_BOUND_in (i : Nat) : RegBlock.ldg.has (Rg.LDG_PAGE_POOL_BOUND i).addr := Rg.LDG_PAGE_POOL_in i
theorem Rg.LDG_PAGE_POOL_FREE_in (i : Nat) : RegBlock.ldg.has (Rg.LDG_PAGE_POOL_FREE i).addr := Rg.LDG_PAGE_POOL_in i
theorem Rg.LDG_PAGE_USE_HELD_in (i : Nat) : RegBlock.ldg.has (Rg.LDG_PAGE_USE_HELD i).addr := Rg.LDG_PAGE_USE_in i
theorem Rg.LDG_PAGE_USE_RECLAIM_in (i : Nat) : RegBlock.ldg.has (Rg.LDG_PAGE_USE_RECLAIM i).addr := Rg.LDG_PAGE_USE_in i
theorem Rg.LDG_PAGE_LOW_THRESHOLD_in (i : Nat) : RegBlock.ldg.has (Rg.LDG_PAGE_LOW_THRESHOLD i).addr := Rg.LDG_PAGE_LOW_in i
theorem Rg.LDG_PAGE_LOW_LOW_in (i : Nat) : RegBlock.ldg.has (Rg.LDG_PAGE_LOW_LOW i).addr := Rg.LDG_PAGE_LOW_in i
theorem Rg.LDG_PAGE_CMD_OP_in (i : Nat) : RegBlock.ldg.has (Rg.LDG_PAGE_CMD_OP i).addr := Rg.LDG_PAGE_CMD_in i
theorem Rg.LDG_PAGE_CMD_PAGE_in (i : Nat) : RegBlock.ldg.has (Rg.LDG_PAGE_CMD_PAGE i).addr := Rg.LDG_PAGE_CMD_in i
theorem Rg.LDG_PAGE_RESULT_RESULT_in (i : Nat) : RegBlock.ldg.has (Rg.LDG_PAGE_RESULT_RESULT i).addr := Rg.LDG_PAGE_RESULT_in i
theorem Rg.LDG_PAGE_RESULT_COUNT_in (i : Nat) : RegBlock.ldg.has (Rg.LDG_PAGE_RESULT_COUNT i).addr := Rg.LDG_PAGE_RESULT_in i
theorem Rg.LDG_PAGE_ENTRY_0_WORD0_in (i : Nat) : RegBlock.ldg.has (Rg.LDG_PAGE_ENTRY_0_WORD0 i).addr := Rg.LDG_PAGE_ENTRY_0_in i
theorem Rg.LDG_PAGE_ENTRY_1_WORD1_in (i : Nat) : RegBlock.ldg.has (Rg.LDG_PAGE_ENTRY_1_WORD1 i).addr := Rg.LDG_PAGE_ENTRY_1_in i
theorem Rg.CHN_CMD_OP_in (i : Nat) : RegBlock.chn.has (Rg.CHN_CMD_OP i).addr := Rg.CHN_CMD_in i
theorem Rg.CHN_CMD_HANDLE_in (i : Nat) : RegBlock.chn.has (Rg.CHN_CMD_HANDLE i).addr := Rg.CHN_CMD_in i
theorem Rg.CHN_CMD_CHURN_in (i : Nat) : RegBlock.chn.has (Rg.CHN_CMD_CHURN i).addr := Rg.CHN_CMD_in i
theorem Rg.CHN_CMD_ADDR_ADDR_in (i : Nat) : RegBlock.chn.has (Rg.CHN_CMD_ADDR_ADDR i).addr := Rg.CHN_CMD_ADDR_in i
theorem Rg.CHN_CMD_RESULT_RESULT_in (i : Nat) : RegBlock.chn.has (Rg.CHN_CMD_RESULT_RESULT i).addr := Rg.CHN_CMD_RESULT_in i
theorem Rg.CHN_CMD_RESULT_BUSY_in (i : Nat) : RegBlock.chn.has (Rg.CHN_CMD_RESULT_BUSY i).addr := Rg.CHN_CMD_RESULT_in i
theorem Rg.CHN_CMD_RESULT_HANDLE_in (i : Nat) : RegBlock.chn.has (Rg.CHN_CMD_RESULT_HANDLE i).addr := Rg.CHN_CMD_RESULT_in i
theorem Rg.CHN_CMD_RESULT_COUNT_in (i : Nat) : RegBlock.chn.has (Rg.CHN_CMD_RESULT_COUNT i).addr := Rg.CHN_CMD_RESULT_in i
theorem Rg.CHN_PORT_SEND_ADDR_ADDR_in (i j : Nat) : RegBlock.chn.has (Rg.CHN_PORT_SEND_ADDR_ADDR i j).addr := Rg.CHN_PORT_SEND_ADDR_in i j
theorem Rg.CHN_PORT_SEND_OP_in (i j : Nat) : RegBlock.chn.has (Rg.CHN_PORT_SEND_OP i j).addr := Rg.CHN_PORT_SEND_in i j
theorem Rg.CHN_PORT_SEND_NOTIFY_in (i j : Nat) : RegBlock.chn.has (Rg.CHN_PORT_SEND_NOTIFY i j).addr := Rg.CHN_PORT_SEND_in i j
theorem Rg.CHN_PORT_SEND_UNITS_in (i j : Nat) : RegBlock.chn.has (Rg.CHN_PORT_SEND_UNITS i j).addr := Rg.CHN_PORT_SEND_in i j
theorem Rg.CHN_PORT_SEND_DEST_in (i j : Nat) : RegBlock.chn.has (Rg.CHN_PORT_SEND_DEST i j).addr := Rg.CHN_PORT_SEND_in i j
theorem Rg.CHN_PORT_SEND_OFFSET_in (i j : Nat) : RegBlock.chn.has (Rg.CHN_PORT_SEND_OFFSET i j).addr := Rg.CHN_PORT_SEND_in i j
theorem Rg.CHN_PORT_SEND_STATUS_QUEUED_in (i j : Nat) : RegBlock.chn.has (Rg.CHN_PORT_SEND_STATUS_QUEUED i j).addr := Rg.CHN_PORT_SEND_STATUS_in i j
theorem Rg.CHN_PORT_SEND_STATUS_WAITING_in (i j : Nat) : RegBlock.chn.has (Rg.CHN_PORT_SEND_STATUS_WAITING i j).addr := Rg.CHN_PORT_SEND_STATUS_in i j
theorem Rg.CHN_PORT_SEND_STATUS_OVERRUN_in (i j : Nat) : RegBlock.chn.has (Rg.CHN_PORT_SEND_STATUS_OVERRUN i j).addr := Rg.CHN_PORT_SEND_STATUS_in i j
theorem Rg.CHN_PORT_SEND_STATUS_RESULT_in (i j : Nat) : RegBlock.chn.has (Rg.CHN_PORT_SEND_STATUS_RESULT i j).addr := Rg.CHN_PORT_SEND_STATUS_in i j
theorem Rg.CHN_PORT_SEND_STATUS_COMPLETED_in (i j : Nat) : RegBlock.chn.has (Rg.CHN_PORT_SEND_STATUS_COMPLETED i j).addr := Rg.CHN_PORT_SEND_STATUS_in i j
theorem Rg.CHN_PORT_SPILL_BASE_BASE_in (i j : Nat) : RegBlock.chn.has (Rg.CHN_PORT_SPILL_BASE_BASE i j).addr := Rg.CHN_PORT_SPILL_BASE_in i j
theorem Rg.CHN_PORT_SPILL_CFG_LOG2_in (i j : Nat) : RegBlock.chn.has (Rg.CHN_PORT_SPILL_CFG_LOG2 i j).addr := Rg.CHN_PORT_SPILL_CFG_in i j
theorem Rg.CHN_PORT_SPILL_PTR_TAIL_in (i j : Nat) : RegBlock.chn.has (Rg.CHN_PORT_SPILL_PTR_TAIL i j).addr := Rg.CHN_PORT_SPILL_PTR_in i j
theorem Rg.CHN_PORT_SPILL_PTR_HEAD_in (i j : Nat) : RegBlock.chn.has (Rg.CHN_PORT_SPILL_PTR_HEAD i j).addr := Rg.CHN_PORT_SPILL_PTR_in i j
theorem Rg.CHN_SEL_CFG_MODE_in (i j : Nat) : RegBlock.chn.has (Rg.CHN_SEL_CFG_MODE i j).addr := Rg.CHN_SEL_CFG_in i j
theorem Rg.CHN_SEL_CFG_IRQ_EN_in (i j : Nat) : RegBlock.chn.has (Rg.CHN_SEL_CFG_IRQ_EN i j).addr := Rg.CHN_SEL_CFG_in i j
theorem Rg.CHN_SEL_CFG_OWNER_in (i j : Nat) : RegBlock.chn.has (Rg.CHN_SEL_CFG_OWNER i j).addr := Rg.CHN_SEL_CFG_in i j
theorem Rg.CHN_SEL_CFG_MEMBERS_in (i j : Nat) : RegBlock.chn.has (Rg.CHN_SEL_CFG_MEMBERS i j).addr := Rg.CHN_SEL_CFG_in i j
theorem Rg.CHN_SEL_NEXT_VALID_in (i j : Nat) : RegBlock.chn.has (Rg.CHN_SEL_NEXT_VALID i j).addr := Rg.CHN_SEL_NEXT_in i j
theorem Rg.CHN_SEL_NEXT_SPILL_in (i j : Nat) : RegBlock.chn.has (Rg.CHN_SEL_NEXT_SPILL i j).addr := Rg.CHN_SEL_NEXT_in i j
theorem Rg.CHN_SEL_NEXT_UNITS_in (i j : Nat) : RegBlock.chn.has (Rg.CHN_SEL_NEXT_UNITS i j).addr := Rg.CHN_SEL_NEXT_in i j
theorem Rg.CHN_SEL_NEXT_EP_in (i j : Nat) : RegBlock.chn.has (Rg.CHN_SEL_NEXT_EP i j).addr := Rg.CHN_SEL_NEXT_in i j
theorem Rg.CHN_SEL_NEXT_SEQ_in (i j : Nat) : RegBlock.chn.has (Rg.CHN_SEL_NEXT_SEQ i j).addr := Rg.CHN_SEL_NEXT_in i j
theorem Rg.CHN_SEL_NEXT_SRC_in (i j : Nat) : RegBlock.chn.has (Rg.CHN_SEL_NEXT_SRC i j).addr := Rg.CHN_SEL_NEXT_in i j
theorem Rg.CHN_SEL_NEXT_ADDR_ADDR_in (i j : Nat) : RegBlock.chn.has (Rg.CHN_SEL_NEXT_ADDR_ADDR i j).addr := Rg.CHN_SEL_NEXT_ADDR_in i j
theorem Rg.CHN_SEL_DONE_EP_in (i j : Nat) : RegBlock.chn.has (Rg.CHN_SEL_DONE_EP i j).addr := Rg.CHN_SEL_DONE_in i j
theorem Rg.CHN_SEL_DONE_SPILL_in (i j : Nat) : RegBlock.chn.has (Rg.CHN_SEL_DONE_SPILL i j).addr := Rg.CHN_SEL_DONE_in i j
theorem Rg.CHN_EP_SEL_HANDLE_in (i : Nat) : RegBlock.chn.has (Rg.CHN_EP_SEL_HANDLE i).addr := Rg.CHN_EP_SEL_in i
theorem Rg.CHN_EP_STATE_STATE_in (i : Nat) : RegBlock.chn.has (Rg.CHN_EP_STATE_STATE i).addr := Rg.CHN_EP_STATE_in i
theorem Rg.CHN_EP_STATE_GROUP_in (i : Nat) : RegBlock.chn.has (Rg.CHN_EP_STATE_GROUP i).addr := Rg.CHN_EP_STATE_in i
theorem Rg.CHN_EP_STATE_PENDING_in (i : Nat) : RegBlock.chn.has (Rg.CHN_EP_STATE_PENDING i).addr := Rg.CHN_EP_STATE_in i
theorem Rg.CHN_EP_STATE_SPILLED_in (i : Nat) : RegBlock.chn.has (Rg.CHN_EP_STATE_SPILLED i).addr := Rg.CHN_EP_STATE_in i
theorem Rg.CHN_EP_RING_TAIL_in (i : Nat) : RegBlock.chn.has (Rg.CHN_EP_RING_TAIL i).addr := Rg.CHN_EP_RING_in i
theorem Rg.CHN_EP_RING_HEAD_in (i : Nat) : RegBlock.chn.has (Rg.CHN_EP_RING_HEAD i).addr := Rg.CHN_EP_RING_in i
theorem Rg.CHN_CHURN_SEL_QUEUE_in (i : Nat) : RegBlock.chn.has (Rg.CHN_CHURN_SEL_QUEUE i).addr := Rg.CHN_CHURN_SEL_in i
theorem Rg.CHN_CHURN_STATE_OPEN_in (i : Nat) : RegBlock.chn.has (Rg.CHN_CHURN_STATE_OPEN i).addr := Rg.CHN_CHURN_STATE_in i
theorem Rg.CHN_CHURN_STATE_NOTICE_WAIT_in (i : Nat) : RegBlock.chn.has (Rg.CHN_CHURN_STATE_NOTICE_WAIT i).addr := Rg.CHN_CHURN_STATE_in i
theorem Rg.CHN_CHURN_STATE_RECEIVED_in (i : Nat) : RegBlock.chn.has (Rg.CHN_CHURN_STATE_RECEIVED i).addr := Rg.CHN_CHURN_STATE_in i
theorem Rg.CHN_CHURN_STATE_ROUND_in (i : Nat) : RegBlock.chn.has (Rg.CHN_CHURN_STATE_ROUND i).addr := Rg.CHN_CHURN_STATE_in i
theorem Rg.CHN_EVENTS_SPILLED_in (i : Nat) : RegBlock.chn.has (Rg.CHN_EVENTS_SPILLED i).addr := Rg.CHN_EVENTS_in i
theorem Rg.CHN_EVENTS_SPILL_FULL_in (i : Nat) : RegBlock.chn.has (Rg.CHN_EVENTS_SPILL_FULL i).addr := Rg.CHN_EVENTS_in i
theorem Rg.CHN_EVENTS_SKIPS_in (i : Nat) : RegBlock.chn.has (Rg.CHN_EVENTS_SKIPS i).addr := Rg.CHN_EVENTS_in i
theorem Rg.CHN_EVENTS_DISCARDED_in (i : Nat) : RegBlock.chn.has (Rg.CHN_EVENTS_DISCARDED i).addr := Rg.CHN_EVENTS_in i
theorem Rg.CHN_WAIT_CREDIT_WAIT_in (i : Nat) : RegBlock.chn.has (Rg.CHN_WAIT_CREDIT_WAIT i).addr := Rg.CHN_WAIT_in i
theorem Rg.CHN_WAIT_CHURN_ROUNDS_in (i : Nat) : RegBlock.chn.has (Rg.CHN_WAIT_CHURN_ROUNDS i).addr := Rg.CHN_WAIT_in i
theorem Rg.CHN_IRQ_GROUP_GROUP_in (i : Nat) : RegBlock.chn.has (Rg.CHN_IRQ_GROUP_GROUP i).addr := Rg.CHN_IRQ_GROUP_in i
theorem Rg.CHN_IRQ_SPILL_SPILL_in (i : Nat) : RegBlock.chn.has (Rg.CHN_IRQ_SPILL_SPILL i).addr := Rg.CHN_IRQ_SPILL_in i
theorem Rg.ADP_AREA_BASE_in (i : Nat) : RegBlock.adp.has (Rg.ADP_AREA_BASE i).addr := Rg.ADP_AREA_in i
theorem Rg.ADP_CMD_OP_in (i : Nat) : RegBlock.adp.has (Rg.ADP_CMD_OP i).addr := Rg.ADP_CMD_in i
theorem Rg.ADP_CMD_SLOT_in (i : Nat) : RegBlock.adp.has (Rg.ADP_CMD_SLOT i).addr := Rg.ADP_CMD_in i
theorem Rg.ADP_CMD_CUSTOMER_in (i : Nat) : RegBlock.adp.has (Rg.ADP_CMD_CUSTOMER i).addr := Rg.ADP_CMD_in i
theorem Rg.ADP_CMD_ADDR_ADDR_in (i : Nat) : RegBlock.adp.has (Rg.ADP_CMD_ADDR_ADDR i).addr := Rg.ADP_CMD_ADDR_in i
theorem Rg.ADP_CMD_RESULT_RESULT_in (i : Nat) : RegBlock.adp.has (Rg.ADP_CMD_RESULT_RESULT i).addr := Rg.ADP_CMD_RESULT_in i
theorem Rg.ADP_CMD_RESULT_BUSY_in (i : Nat) : RegBlock.adp.has (Rg.ADP_CMD_RESULT_BUSY i).addr := Rg.ADP_CMD_RESULT_in i
theorem Rg.ADP_CMD_RESULT_GEN_in (i : Nat) : RegBlock.adp.has (Rg.ADP_CMD_RESULT_GEN i).addr := Rg.ADP_CMD_RESULT_in i
theorem Rg.ADP_CMD_RESULT_COUNT_in (i : Nat) : RegBlock.adp.has (Rg.ADP_CMD_RESULT_COUNT i).addr := Rg.ADP_CMD_RESULT_in i
theorem Rg.ADP_SLOT_SEL_SLOT_in (i : Nat) : RegBlock.adp.has (Rg.ADP_SLOT_SEL_SLOT i).addr := Rg.ADP_SLOT_SEL_in i
theorem Rg.ADP_SLOT_STATE_BOUND_in (i : Nat) : RegBlock.adp.has (Rg.ADP_SLOT_STATE_BOUND i).addr := Rg.ADP_SLOT_STATE_in i
theorem Rg.ADP_SLOT_STATE_CUSTOMER_in (i : Nat) : RegBlock.adp.has (Rg.ADP_SLOT_STATE_CUSTOMER i).addr := Rg.ADP_SLOT_STATE_in i
theorem Rg.ADP_SLOT_STATE_CUR_in (i : Nat) : RegBlock.adp.has (Rg.ADP_SLOT_STATE_CUR i).addr := Rg.ADP_SLOT_STATE_in i
theorem Rg.ADP_SLOT_COUNT_CUR_BOUND_in (i : Nat) : RegBlock.adp.has (Rg.ADP_SLOT_COUNT_CUR_BOUND i).addr := Rg.ADP_SLOT_COUNT_in i
theorem Rg.ADP_SLOT_COUNT_PREV_BOUND_in (i : Nat) : RegBlock.adp.has (Rg.ADP_SLOT_COUNT_PREV_BOUND i).addr := Rg.ADP_SLOT_COUNT_in i
theorem Rg.CORE_STATUS_POWER_in (i : Nat) : RegBlock.core.has (Rg.CORE_STATUS_POWER i).addr := Rg.CORE_STATUS_in i
theorem Rg.CORE_STATUS_EXEC_in (i : Nat) : RegBlock.core.has (Rg.CORE_STATUS_EXEC i).addr := Rg.CORE_STATUS_in i
theorem Rg.CORE_STATUS_STAGED_in (i : Nat) : RegBlock.core.has (Rg.CORE_STATUS_STAGED i).addr := Rg.CORE_STATUS_in i
theorem Rg.CORE_STATUS_DRAINING_in (i : Nat) : RegBlock.core.has (Rg.CORE_STATUS_DRAINING i).addr := Rg.CORE_STATUS_in i
theorem Rg.CORE_STATUS_PART_in (i : Nat) : RegBlock.core.has (Rg.CORE_STATUS_PART i).addr := Rg.CORE_STATUS_in i
theorem Rg.CORE_SLOT_SEQ_in (i j : Nat) : RegBlock.core.has (Rg.CORE_SLOT_SEQ i j).addr := Rg.CORE_SLOT_in i j
theorem Rg.CORE_SLOT_PART_in (i j : Nat) : RegBlock.core.has (Rg.CORE_SLOT_PART i j).addr := Rg.CORE_SLOT_in i j
theorem Rg.CORE_SLOT_STAGE_in (i j : Nat) : RegBlock.core.has (Rg.CORE_SLOT_STAGE i j).addr := Rg.CORE_SLOT_in i j
theorem Rg.CORE_SLOT_VALID_in (i j : Nat) : RegBlock.core.has (Rg.CORE_SLOT_VALID i j).addr := Rg.CORE_SLOT_in i j
theorem Rg.CORE_EVENTS_WITHDRAWN_in (i : Nat) : RegBlock.core.has (Rg.CORE_EVENTS_WITHDRAWN i).addr := Rg.CORE_EVENTS_in i
theorem Rg.CORE_EVENTS_APPEND_FAIL_in (i : Nat) : RegBlock.core.has (Rg.CORE_EVENTS_APPEND_FAIL i).addr := Rg.CORE_EVENTS_in i
theorem Rg.CORE_EVENTS_PLAN_STREAM2_in (i : Nat) : RegBlock.core.has (Rg.CORE_EVENTS_PLAN_STREAM2 i).addr := Rg.CORE_EVENTS_in i
theorem Rg.CORE_DMA_BYTES_in (i j : Nat) : RegBlock.core.has (Rg.CORE_DMA_BYTES i j).addr := Rg.CORE_DMA_in i j
theorem Rg.CORE_DMA_XPOSE_BLOCKS_in (i : Nat) : RegBlock.core.has (Rg.CORE_DMA_XPOSE_BLOCKS i).addr := Rg.CORE_DMA_XPOSE_in i
theorem Rg.CORE_DMA_XPOSE_POISON_in (i : Nat) : RegBlock.core.has (Rg.CORE_DMA_XPOSE_POISON i).addr := Rg.CORE_DMA_XPOSE_in i
theorem Rg.CORE_DMA_SPARSE_TILES_in (i : Nat) : RegBlock.core.has (Rg.CORE_DMA_SPARSE_TILES i).addr := Rg.CORE_DMA_SPARSE_in i
theorem Rg.CORE_DMA_SPARSE_RANGE_TILES_in (i : Nat) : RegBlock.core.has (Rg.CORE_DMA_SPARSE_RANGE_TILES i).addr := Rg.CORE_DMA_SPARSE_in i
theorem Rg.CORE_SEM_LINK_0_FULL_in (i : Nat) : RegBlock.core.has (Rg.CORE_SEM_LINK_0_FULL i).addr := Rg.CORE_SEM_LINK_0_in i
theorem Rg.CORE_SEM_LINK_0_EMPTY_in (i : Nat) : RegBlock.core.has (Rg.CORE_SEM_LINK_0_EMPTY i).addr := Rg.CORE_SEM_LINK_0_in i
theorem Rg.CORE_SEM_LINK_0_DEPTH_in (i : Nat) : RegBlock.core.has (Rg.CORE_SEM_LINK_0_DEPTH i).addr := Rg.CORE_SEM_LINK_0_in i
theorem Rg.CORE_SEM_LINK_1_FULL_in (i : Nat) : RegBlock.core.has (Rg.CORE_SEM_LINK_1_FULL i).addr := Rg.CORE_SEM_LINK_1_in i
theorem Rg.CORE_SEM_LINK_1_EMPTY_in (i : Nat) : RegBlock.core.has (Rg.CORE_SEM_LINK_1_EMPTY i).addr := Rg.CORE_SEM_LINK_1_in i
theorem Rg.CORE_SEM_LINK_1_DEPTH_in (i : Nat) : RegBlock.core.has (Rg.CORE_SEM_LINK_1_DEPTH i).addr := Rg.CORE_SEM_LINK_1_in i
theorem Rg.CORE_SEM_LINK_2_FULL_in (i : Nat) : RegBlock.core.has (Rg.CORE_SEM_LINK_2_FULL i).addr := Rg.CORE_SEM_LINK_2_in i
theorem Rg.CORE_SEM_LINK_2_EMPTY_in (i : Nat) : RegBlock.core.has (Rg.CORE_SEM_LINK_2_EMPTY i).addr := Rg.CORE_SEM_LINK_2_in i
theorem Rg.CORE_SEM_LINK_2_DEPTH_in (i : Nat) : RegBlock.core.has (Rg.CORE_SEM_LINK_2_DEPTH i).addr := Rg.CORE_SEM_LINK_2_in i
theorem Rg.CORE_SEM_LINK_3_FULL_in (i : Nat) : RegBlock.core.has (Rg.CORE_SEM_LINK_3_FULL i).addr := Rg.CORE_SEM_LINK_3_in i
theorem Rg.CORE_SEM_LINK_3_EMPTY_in (i : Nat) : RegBlock.core.has (Rg.CORE_SEM_LINK_3_EMPTY i).addr := Rg.CORE_SEM_LINK_3_in i
theorem Rg.CORE_SEM_LINK_3_DEPTH_in (i : Nat) : RegBlock.core.has (Rg.CORE_SEM_LINK_3_DEPTH i).addr := Rg.CORE_SEM_LINK_3_in i
theorem Rg.CORE_SEM_LINK_4_FULL_in (i : Nat) : RegBlock.core.has (Rg.CORE_SEM_LINK_4_FULL i).addr := Rg.CORE_SEM_LINK_4_in i
theorem Rg.CORE_SEM_LINK_4_EMPTY_in (i : Nat) : RegBlock.core.has (Rg.CORE_SEM_LINK_4_EMPTY i).addr := Rg.CORE_SEM_LINK_4_in i
theorem Rg.CORE_SEM_LINK_4_DEPTH_in (i : Nat) : RegBlock.core.has (Rg.CORE_SEM_LINK_4_DEPTH i).addr := Rg.CORE_SEM_LINK_4_in i
theorem Rg.CORE_SEM_LINK_5_FULL_in (i : Nat) : RegBlock.core.has (Rg.CORE_SEM_LINK_5_FULL i).addr := Rg.CORE_SEM_LINK_5_in i
theorem Rg.CORE_SEM_LINK_5_EMPTY_in (i : Nat) : RegBlock.core.has (Rg.CORE_SEM_LINK_5_EMPTY i).addr := Rg.CORE_SEM_LINK_5_in i
theorem Rg.CORE_SEM_LINK_5_DEPTH_in (i : Nat) : RegBlock.core.has (Rg.CORE_SEM_LINK_5_DEPTH i).addr := Rg.CORE_SEM_LINK_5_in i
theorem Rg.CORE_SEM_WAIT_PROD_WAIT_in (i j : Nat) : RegBlock.core.has (Rg.CORE_SEM_WAIT_PROD_WAIT i j).addr := Rg.CORE_SEM_WAIT_in i j
theorem Rg.CORE_SEM_WAIT_CONS_WAIT_in (i j : Nat) : RegBlock.core.has (Rg.CORE_SEM_WAIT_CONS_WAIT i j).addr := Rg.CORE_SEM_WAIT_in i j
theorem Rg.CORE_VEC_BUSY_BUSY_in (i : Nat) : RegBlock.core.has (Rg.CORE_VEC_BUSY_BUSY i).addr := Rg.CORE_VEC_BUSY_in i
theorem Rg.CORE_VEC_EXPAND_EXPAND_in (i : Nat) : RegBlock.core.has (Rg.CORE_VEC_EXPAND_EXPAND i).addr := Rg.CORE_VEC_EXPAND_in i
theorem Rg.CORE_TLB_STATS_HITS_in (i : Nat) : RegBlock.core.has (Rg.CORE_TLB_STATS_HITS i).addr := Rg.CORE_TLB_STATS_in i
theorem Rg.CORE_TLB_STATS_MISSES_in (i : Nat) : RegBlock.core.has (Rg.CORE_TLB_STATS_MISSES i).addr := Rg.CORE_TLB_STATS_in i
theorem Rg.CORE_TLB_WALK_WAIT_in (i : Nat) : RegBlock.core.has (Rg.CORE_TLB_WALK_WAIT i).addr := Rg.CORE_TLB_WALK_in i
theorem Rg.CORE_ARR_REPAIR_ROW_SKIP_A_in (i j : Nat) : RegBlock.core.has (Rg.CORE_ARR_REPAIR_ROW_SKIP_A i j).addr := Rg.CORE_ARR_REPAIR_in i j
theorem Rg.CORE_ARR_REPAIR_ROW_SKIP_B_in (i j : Nat) : RegBlock.core.has (Rg.CORE_ARR_REPAIR_ROW_SKIP_B i j).addr := Rg.CORE_ARR_REPAIR_in i j
theorem Rg.CORE_ARR_REPAIR_COL_SKIP_A_in (i j : Nat) : RegBlock.core.has (Rg.CORE_ARR_REPAIR_COL_SKIP_A i j).addr := Rg.CORE_ARR_REPAIR_in i j
theorem Rg.CORE_ARR_REPAIR_COL_SKIP_B_in (i j : Nat) : RegBlock.core.has (Rg.CORE_ARR_REPAIR_COL_SKIP_B i j).addr := Rg.CORE_ARR_REPAIR_in i j
theorem Rg.CORE_ARR_REPAIR_BIST_PASS_in (i j : Nat) : RegBlock.core.has (Rg.CORE_ARR_REPAIR_BIST_PASS i j).addr := Rg.CORE_ARR_REPAIR_in i j
theorem Rg.CORE_ARR_REPAIR_UNUSABLE_in (i j : Nat) : RegBlock.core.has (Rg.CORE_ARR_REPAIR_UNUSABLE i j).addr := Rg.CORE_ARR_REPAIR_in i j
theorem Rg.CORE_ARR_REPAIR_PENDING_in (i j : Nat) : RegBlock.core.has (Rg.CORE_ARR_REPAIR_PENDING i j).addr := Rg.CORE_ARR_REPAIR_in i j
theorem Rg.CORE_ARR_STATE_DATAFLOW_in (i : Nat) : RegBlock.core.has (Rg.CORE_ARR_STATE_DATAFLOW i).addr := Rg.CORE_ARR_STATE_in i
theorem Rg.CORE_ARR_STATE_QUAD_in (i : Nat) : RegBlock.core.has (Rg.CORE_ARR_STATE_QUAD i).addr := Rg.CORE_ARR_STATE_in i
theorem Rg.CORE_ARR_STATE_KPARTS_in (i : Nat) : RegBlock.core.has (Rg.CORE_ARR_STATE_KPARTS i).addr := Rg.CORE_ARR_STATE_in i
theorem Rg.CORE_ARR_STATE_ACTIVE_in (i : Nat) : RegBlock.core.has (Rg.CORE_ARR_STATE_ACTIVE i).addr := Rg.CORE_ARR_STATE_in i
theorem Rg.CORE_ARR_STATE_LEVEL_in (i : Nat) : RegBlock.core.has (Rg.CORE_ARR_STATE_LEVEL i).addr := Rg.CORE_ARR_STATE_in i
theorem Rg.CORE_ARR_STATE_HELD_in (i : Nat) : RegBlock.core.has (Rg.CORE_ARR_STATE_HELD i).addr := Rg.CORE_ARR_STATE_in i
theorem Rg.CORE_ARR_BUSY_BUSY_in (i j : Nat) : RegBlock.core.has (Rg.CORE_ARR_BUSY_BUSY i j).addr := Rg.CORE_ARR_BUSY_in i j
theorem Rg.CORE_ARR_STALL_FEED_STALL_in (i j : Nat) : RegBlock.core.has (Rg.CORE_ARR_STALL_FEED_STALL i j).addr := Rg.CORE_ARR_STALL_in i j
theorem Rg.CORE_ARR_STALL_DRAIN_STALL_in (i j : Nat) : RegBlock.core.has (Rg.CORE_ARR_STALL_DRAIN_STALL i j).addr := Rg.CORE_ARR_STALL_in i j
theorem Rg.CORE_ARR_RAMP_RAMP_UPS_in (i : Nat) : RegBlock.core.has (Rg.CORE_ARR_RAMP_RAMP_UPS i).addr := Rg.CORE_ARR_RAMP_in i
theorem Rg.CORE_ARR_RAMP_RAMP_DOWNS_in (i : Nat) : RegBlock.core.has (Rg.CORE_ARR_RAMP_RAMP_DOWNS i).addr := Rg.CORE_ARR_RAMP_in i
theorem Rg.CORE_ARR_WS_WS_PASSES_in (i : Nat) : RegBlock.core.has (Rg.CORE_ARR_WS_WS_PASSES i).addr := Rg.CORE_ARR_WS_in i
theorem Rg.CORE_ARR_WS_WS_BUBBLE_in (i : Nat) : RegBlock.core.has (Rg.CORE_ARR_WS_WS_BUBBLE i).addr := Rg.CORE_ARR_WS_in i
theorem Rg.CORE_ARR_ERRORS_ACC_PARITY_in (i : Nat) : RegBlock.core.has (Rg.CORE_ARR_ERRORS_ACC_PARITY i).addr := Rg.CORE_ARR_ERRORS_in i
theorem Rg.CORE_ARR_ERRORS_SWITCHES_in (i : Nat) : RegBlock.core.has (Rg.CORE_ARR_ERRORS_SWITCHES i).addr := Rg.CORE_ARR_ERRORS_in i
theorem Rg.CORE_WFETCH_HITS_in (i : Nat) : RegBlock.core.has (Rg.CORE_WFETCH_HITS i).addr := Rg.CORE_WFETCH_in i
theorem Rg.CORE_WFETCH_MISSES_in (i : Nat) : RegBlock.core.has (Rg.CORE_WFETCH_MISSES i).addr := Rg.CORE_WFETCH_in i
theorem Rg.CORE_MCAST_BLOCKS_in (i : Nat) : RegBlock.core.has (Rg.CORE_MCAST_BLOCKS i).addr := Rg.CORE_MCAST_in i
theorem Rg.CORE_MCAST_LATE_JOIN_in (i : Nat) : RegBlock.core.has (Rg.CORE_MCAST_LATE_JOIN i).addr := Rg.CORE_MCAST_in i
theorem Rg.CORE_MCAST_REFETCH_in (i : Nat) : RegBlock.core.has (Rg.CORE_MCAST_REFETCH i).addr := Rg.CORE_MCAST_in i
theorem Rg.CORE_ATTN_BLOCKS_VISITS_in (i : Nat) : RegBlock.core.has (Rg.CORE_ATTN_BLOCKS_VISITS i).addr := Rg.CORE_ATTN_BLOCKS_in i
theorem Rg.CORE_ATTN_MASK_SKIPPED_in (i : Nat) : RegBlock.core.has (Rg.CORE_ATTN_MASK_SKIPPED i).addr := Rg.CORE_ATTN_MASK_in i
theorem Rg.CORE_ATTN_MASK_EMPTY_ROWS_in (i : Nat) : RegBlock.core.has (Rg.CORE_ATTN_MASK_EMPTY_ROWS i).addr := Rg.CORE_ATTN_MASK_in i
theorem Rg.CORE_ATTN_WIDEN_WIDENED_in (i : Nat) : RegBlock.core.has (Rg.CORE_ATTN_WIDEN_WIDENED i).addr := Rg.CORE_ATTN_WIDEN_in i
theorem Rg.CORE_ATTN_WIDEN_WIDEN_INEXACT_in (i : Nat) : RegBlock.core.has (Rg.CORE_ATTN_WIDEN_WIDEN_INEXACT i).addr := Rg.CORE_ATTN_WIDEN_in i
theorem Rg.CORE_ATTN_EVENTS_MISMATCH_in (i : Nat) : RegBlock.core.has (Rg.CORE_ATTN_EVENTS_MISMATCH i).addr := Rg.CORE_ATTN_EVENTS_in i
theorem Rg.CORE_ATTN_EVENTS_PIN_MOVED_in (i : Nat) : RegBlock.core.has (Rg.CORE_ATTN_EVENTS_PIN_MOVED i).addr := Rg.CORE_ATTN_EVENTS_in i
theorem Rg.CORE_ATTN_EVENTS_GRAD_DROPPED_in (i : Nat) : RegBlock.core.has (Rg.CORE_ATTN_EVENTS_GRAD_DROPPED i).addr := Rg.CORE_ATTN_EVENTS_in i
theorem Rg.CORE_ATTN_EVENTS_RESCALES_in (i : Nat) : RegBlock.core.has (Rg.CORE_ATTN_EVENTS_RESCALES i).addr := Rg.CORE_ATTN_EVENTS_in i
theorem Rg.CORE_ATTN_EVICT_EVICTED_in (i : Nat) : RegBlock.core.has (Rg.CORE_ATTN_EVICT_EVICTED i).addr := Rg.CORE_ATTN_EVICT_in i
theorem Rg.CORE_ATTN_EVICT_EVICT_NONE_in (i : Nat) : RegBlock.core.has (Rg.CORE_ATTN_EVICT_EVICT_NONE i).addr := Rg.CORE_ATTN_EVICT_in i
theorem Rg.CORE_ATTN_VERIFY_DRAFTED_in (i : Nat) : RegBlock.core.has (Rg.CORE_ATTN_VERIFY_DRAFTED i).addr := Rg.CORE_ATTN_VERIFY_in i
theorem Rg.CORE_ATTN_VERIFY_ACCEPTED_in (i : Nat) : RegBlock.core.has (Rg.CORE_ATTN_VERIFY_ACCEPTED i).addr := Rg.CORE_ATTN_VERIFY_in i
theorem Rg.CORE_SRAM_ECC_CORRECTED_in (i : Nat) : RegBlock.core.has (Rg.CORE_SRAM_ECC_CORRECTED i).addr := Rg.CORE_SRAM_ECC_in i
theorem Rg.CORE_SRAM_ECC_UNCORR_in (i : Nat) : RegBlock.core.has (Rg.CORE_SRAM_ECC_UNCORR i).addr := Rg.CORE_SRAM_ECC_in i
theorem Rg.CORE_SRAM_ECC_POISON_READ_in (i : Nat) : RegBlock.core.has (Rg.CORE_SRAM_ECC_POISON_READ i).addr := Rg.CORE_SRAM_ECC_in i
theorem Rg.CORE_FMT_TBL_LOADS_LOADS_in (i : Nat) : RegBlock.core.has (Rg.CORE_FMT_TBL_LOADS_LOADS i).addr := Rg.CORE_FMT_TBL_LOADS_in i
theorem Rg.CORE_FMT_AFFINE_BLKS_HW_BLOCKS_in (i : Nat) : RegBlock.core.has (Rg.CORE_FMT_AFFINE_BLKS_HW_BLOCKS i).addr := Rg.CORE_FMT_AFFINE_BLKS_in i
theorem Rg.CORE_FMT_VEC_AFFINE_VEC_BLOCKS_in (i : Nat) : RegBlock.core.has (Rg.CORE_FMT_VEC_AFFINE_VEC_BLOCKS i).addr := Rg.CORE_FMT_VEC_AFFINE_in i
theorem Rg.CORE_FMT_EVENTS_TERN_RSV_in (i : Nat) : RegBlock.core.has (Rg.CORE_FMT_EVENTS_TERN_RSV i).addr := Rg.CORE_FMT_EVENTS_in i
theorem Rg.CORE_FMT_EVENTS_SAT_E4M3_in (i : Nat) : RegBlock.core.has (Rg.CORE_FMT_EVENTS_SAT_E4M3 i).addr := Rg.CORE_FMT_EVENTS_in i
theorem Rg.CORE_FMT_EVENTS_OVF_INF_in (i : Nat) : RegBlock.core.has (Rg.CORE_FMT_EVENTS_OVF_INF i).addr := Rg.CORE_FMT_EVENTS_in i
theorem Rg.CORE_FMT_EVENTS_NAN_OUT_in (i : Nat) : RegBlock.core.has (Rg.CORE_FMT_EVENTS_NAN_OUT i).addr := Rg.CORE_FMT_EVENTS_in i
theorem Rg.CORE_FMT_TABLE_ENTRY0_in (i j : Nat) : RegBlock.core.has (Rg.CORE_FMT_TABLE_ENTRY0 i j).addr := Rg.CORE_FMT_TABLE_in i j
theorem Rg.CORE_FMT_TABLE_ENTRY1_in (i j : Nat) : RegBlock.core.has (Rg.CORE_FMT_TABLE_ENTRY1 i j).addr := Rg.CORE_FMT_TABLE_in i j
theorem Rg.CORE_FMT_TABLE_ENTRY2_in (i j : Nat) : RegBlock.core.has (Rg.CORE_FMT_TABLE_ENTRY2 i j).addr := Rg.CORE_FMT_TABLE_in i j
theorem Rg.CORE_FMT_TABLE_ENTRY3_in (i j : Nat) : RegBlock.core.has (Rg.CORE_FMT_TABLE_ENTRY3 i j).addr := Rg.CORE_FMT_TABLE_in i j
theorem Rg.CLU_OST_STATUS_BUSY_in (i : Nat) : RegBlock.clu.has (Rg.CLU_OST_STATUS_BUSY i).addr := Rg.CLU_OST_STATUS_in i
theorem Rg.CLU_OST_STATUS_WALKS_OPEN_in (i : Nat) : RegBlock.clu.has (Rg.CLU_OST_STATUS_WALKS_OPEN i).addr := Rg.CLU_OST_STATUS_in i
theorem Rg.CLU_OST_STATUS_POOLS_in (i : Nat) : RegBlock.clu.has (Rg.CLU_OST_STATUS_POOLS i).addr := Rg.CLU_OST_STATUS_in i
theorem Rg.CLU_OST_WALKS_WALKS_in (i : Nat) : RegBlock.clu.has (Rg.CLU_OST_WALKS_WALKS i).addr := Rg.CLU_OST_WALKS_in i
theorem Rg.CLU_OST_WALKS_FORWARDED_in (i : Nat) : RegBlock.clu.has (Rg.CLU_OST_WALKS_FORWARDED i).addr := Rg.CLU_OST_WALKS_in i
theorem Rg.CLU_OST_ECACHE_HITS_in (i : Nat) : RegBlock.clu.has (Rg.CLU_OST_ECACHE_HITS i).addr := Rg.CLU_OST_ECACHE_in i
theorem Rg.CLU_OST_ECACHE_MISSES_in (i : Nat) : RegBlock.clu.has (Rg.CLU_OST_ECACHE_MISSES i).addr := Rg.CLU_OST_ECACHE_in i
theorem Rg.CLU_OST_ALLOC_ALLOCS_in (i : Nat) : RegBlock.clu.has (Rg.CLU_OST_ALLOC_ALLOCS i).addr := Rg.CLU_OST_ALLOC_in i
theorem Rg.CLU_OST_ALLOC_ALLOC_RACE_in (i : Nat) : RegBlock.clu.has (Rg.CLU_OST_ALLOC_ALLOC_RACE i).addr := Rg.CLU_OST_ALLOC_in i
theorem Rg.CLU_OST_ALLOC_QUOTA_FAIL_in (i : Nat) : RegBlock.clu.has (Rg.CLU_OST_ALLOC_QUOTA_FAIL i).addr := Rg.CLU_OST_ALLOC_in i
theorem Rg.CLU_OST_COPY_COPIES_in (i : Nat) : RegBlock.clu.has (Rg.CLU_OST_COPY_COPIES i).addr := Rg.CLU_OST_COPY_in i
theorem Rg.CLU_OST_COPY_ZERO_FILLED_in (i : Nat) : RegBlock.clu.has (Rg.CLU_OST_COPY_ZERO_FILLED i).addr := Rg.CLU_OST_COPY_in i
theorem Rg.CLU_OST_COPY_PIN_WAIT_in (i : Nat) : RegBlock.clu.has (Rg.CLU_OST_COPY_PIN_WAIT i).addr := Rg.CLU_OST_COPY_in i
theorem Rg.CLU_OST_FREE_FREED_in (i : Nat) : RegBlock.clu.has (Rg.CLU_OST_FREE_FREED i).addr := Rg.CLU_OST_FREE_in i
theorem Rg.CLU_OST_FREE_RECLAIMED_in (i : Nat) : RegBlock.clu.has (Rg.CLU_OST_FREE_RECLAIMED i).addr := Rg.CLU_OST_FREE_in i
theorem Rg.CLU_OST_ERRORS_BAD_SLOT_in (i : Nat) : RegBlock.clu.has (Rg.CLU_OST_ERRORS_BAD_SLOT i).addr := Rg.CLU_OST_ERRORS_in i
theorem Rg.CLU_OST_ERRORS_CHECK_FAIL_in (i : Nat) : RegBlock.clu.has (Rg.CLU_OST_ERRORS_CHECK_FAIL i).addr := Rg.CLU_OST_ERRORS_in i
theorem Rg.CLU_OST_ERRORS_CRC_FAIL_in (i : Nat) : RegBlock.clu.has (Rg.CLU_OST_ERRORS_CRC_FAIL i).addr := Rg.CLU_OST_ERRORS_in i
theorem Rg.CLU_SKM_CTRL_DISABLE_in (i : Nat) : RegBlock.clu.has (Rg.CLU_SKM_CTRL_DISABLE i).addr := Rg.CLU_SKM_CTRL_in i
theorem Rg.CLU_SKM_CTRL_DRAINING_in (i : Nat) : RegBlock.clu.has (Rg.CLU_SKM_CTRL_DRAINING i).addr := Rg.CLU_SKM_CTRL_in i
theorem Rg.CLU_SKM_CTRL_BUSY_in (i : Nat) : RegBlock.clu.has (Rg.CLU_SKM_CTRL_BUSY i).addr := Rg.CLU_SKM_CTRL_in i
theorem Rg.CLU_SKM_CTRL_QUEUED_in (i : Nat) : RegBlock.clu.has (Rg.CLU_SKM_CTRL_QUEUED i).addr := Rg.CLU_SKM_CTRL_in i
theorem Rg.CLU_SKM_TILES_RL_TILES_in (i : Nat) : RegBlock.clu.has (Rg.CLU_SKM_TILES_RL_TILES i).addr := Rg.CLU_SKM_TILES_in i
theorem Rg.CLU_SKM_TILES_PACKED_TILES_in (i : Nat) : RegBlock.clu.has (Rg.CLU_SKM_TILES_PACKED_TILES i).addr := Rg.CLU_SKM_TILES_in i
theorem Rg.CLU_SKM_RAW_RAW_TILES_in (i : Nat) : RegBlock.clu.has (Rg.CLU_SKM_RAW_RAW_TILES i).addr := Rg.CLU_SKM_RAW_in i
theorem Rg.CLU_SKM_RAW_EXPANDED_in (i : Nat) : RegBlock.clu.has (Rg.CLU_SKM_RAW_EXPANDED i).addr := Rg.CLU_SKM_RAW_in i
theorem Rg.CLU_SKM_WINDOWS_WINDOWS_in (i : Nat) : RegBlock.clu.has (Rg.CLU_SKM_WINDOWS_WINDOWS i).addr := Rg.CLU_SKM_WINDOWS_in i
theorem Rg.CLU_SKM_STEPS_STEPS_in (i : Nat) : RegBlock.clu.has (Rg.CLU_SKM_STEPS_STEPS i).addr := Rg.CLU_SKM_STEPS_in i
theorem Rg.CLU_SKM_OVERFULL_OVERFULL_in (i : Nat) : RegBlock.clu.has (Rg.CLU_SKM_OVERFULL_OVERFULL i).addr := Rg.CLU_SKM_OVERFULL_in i
theorem Rg.CLU_SKM_OVERFULL_NONFINITE_in (i : Nat) : RegBlock.clu.has (Rg.CLU_SKM_OVERFULL_NONFINITE i).addr := Rg.CLU_SKM_OVERFULL_in i
theorem Rg.CLU_SKM_ERRORS_RANGE_TILES_in (i : Nat) : RegBlock.clu.has (Rg.CLU_SKM_ERRORS_RANGE_TILES i).addr := Rg.CLU_SKM_ERRORS_in i
theorem Rg.CLU_SKM_ERRORS_POISON_TILES_in (i : Nat) : RegBlock.clu.has (Rg.CLU_SKM_ERRORS_POISON_TILES i).addr := Rg.CLU_SKM_ERRORS_in i
theorem Rg.CLU_SKM_ERRORS_REFUSED_in (i : Nat) : RegBlock.clu.has (Rg.CLU_SKM_ERRORS_REFUSED i).addr := Rg.CLU_SKM_ERRORS_in i
theorem Rg.CLU_SKM_BYTES_BYTES_IN_in (i : Nat) : RegBlock.clu.has (Rg.CLU_SKM_BYTES_BYTES_IN i).addr := Rg.CLU_SKM_BYTES_in i
theorem Rg.CCI_PEND_CALLBACK_in (i : Nat) : RegBlock.cci.has (Rg.CCI_PEND_CALLBACK i).addr := Rg.CCI_PEND_in i
theorem Rg.CCI_PEND_DSP_in (i : Nat) : RegBlock.cci.has (Rg.CCI_PEND_DSP i).addr := Rg.CCI_PEND_in i
theorem Rg.CCI_PEND_LDG_in (i : Nat) : RegBlock.cci.has (Rg.CCI_PEND_LDG i).addr := Rg.CCI_PEND_in i
theorem Rg.CCI_PEND_POOL_in (i : Nat) : RegBlock.cci.has (Rg.CCI_PEND_POOL i).addr := Rg.CCI_PEND_in i
theorem Rg.CCI_PEND_CHN_in (i : Nat) : RegBlock.cci.has (Rg.CCI_PEND_CHN i).addr := Rg.CCI_PEND_in i
theorem Rg.CCI_ENABLE_ENABLE_in (i : Nat) : RegBlock.cci.has (Rg.CCI_ENABLE_ENABLE i).addr := Rg.CCI_ENABLE_in i
theorem Rg.CCI_WDOG_PET_in (i : Nat) : RegBlock.cci.has (Rg.CCI_WDOG_PET i).addr := Rg.CCI_WDOG_in i

end Sys2Proof.Machine
end

