-- ==== Sys2Proof/Laws/Map.lean ====
section
/-!
SUPPORT. Laws of the sparse maps: reading after setting, and that setting keeps the canonical form.
-/
namespace Sys2Proof.Machine
variable {α : Type}

@[simp] theorem find_nil (d : Nat → α) (k : Nat) : find d [] k = d k := rfl
@[simp] theorem find?_nil (k : Nat) : find? ([] : SMap α) k = none := rfl

/-- A key below every listed key reads the default. -/
theorem find_of_lt (d : Nat → α) {m : SMap α} {k : Nat} (h : ∀ e ∈ m, k < e.1) : find d m k = d k := by
  cases m with
  | nil => rfl
  | cons e t =>
    have := h e (by simp)
    simp [find, Nat.ne_of_lt this, this]

/-- What was inserted is read back. -/
@[simp] theorem find_ins_self (d : Nat → α) (m : SMap α) (k : Nat) (v : α) : find d (ins m k v) k = v := by
  induction m with
  | nil => simp [ins, find]
  | cons e t ih =>
    simp only [ins]
    split
    · simp [find]
    · split
      · simp [find]
      · rename_i h1 h2; simp [find, h1, h2, ih]

/-- An insertion leaves every other key alone. -/
theorem find_ins_of_ne (d : Nat → α) (m : SMap α) {k j : Nat} (v : α) (h : j ≠ k) : find d (ins m k v) j = find d m j := by
  induction m with
  | nil => simp [ins, find, h]
  | cons e t ih =>
    simp only [ins]
    split
    · rename_i h1; subst h1; simp [find, h]
    · split
      · rename_i h1 h2
        by_cases hj : j < k
        · simp [find, h, hj, Nat.ne_of_lt (Nat.lt_trans hj h2), Nat.lt_trans hj h2]
        · simp [find, h, hj]
      · simp only [find, ih]

/-- Reading after an insertion. -/
theorem find_ins (d : Nat → α) (m : SMap α) (k j : Nat) (v : α) :
    find d (ins m k v) j = if j = k then v else find d m j := by
  split
  · subst_vars; simp
  · exact find_ins_of_ne d m v ‹_›

@[simp] theorem find?_ins_self (m : SMap α) (k : Nat) (v : α) : find? (ins m k v) k = some v := by
  induction m with
  | nil => simp [ins, find?]
  | cons e t ih =>
    simp only [ins]
    split
    · simp [find?]
    · split
      · simp [find?]
      · rename_i h1 h2; simp [find?, h1, h2, ih]

theorem find?_ins_of_ne (m : SMap α) {k j : Nat} (v : α) (h : j ≠ k) : find? (ins m k v) j = find? m j := by
  induction m with
  | nil => simp [ins, find?, h]
  | cons e t ih =>
    simp only [ins]
    split
    · rename_i h1; subst h1; simp [find?, h]
    · split
      · rename_i h1 h2
        by_cases hj : j < k
        · simp [find?, h, hj, Nat.ne_of_lt (Nat.lt_trans hj h2), Nat.lt_trans hj h2]
        · simp [find?, h, hj]
      · simp only [find?, ih]

/-- The empty map is canonical. -/
theorem canon_nil (d : Nat → α) : Canon d ([] : SMap α) := ⟨List.Pairwise.nil, by simp⟩

/-- Dropping entries keeps the canonical form. -/
theorem canon_filter (d : Nat → α) {m : SMap α} (h : Canon d m) (p : Nat × α → Bool) : Canon d (m.filter p) :=
  ⟨h.1.sublist List.filter_sublist, fun e he => h.2 e (List.mem_filter.1 he).1⟩

section Put
variable [DecidableEq α] (d : Nat → α)

/-- Every entry of a map after `put` is the new one or an old one. -/
theorem mem_put {m : SMap α} {k : Nat} {v : α} {e : Nat × α} (h : e ∈ put d m k v) : e = (k, v) ∧ v ≠ d k ∨ e ∈ m := by
  induction m with
  | nil => simp only [put] at h; split at h <;> simp_all
  | cons x t ih =>
    simp only [put] at h
    split at h
    · split at h
      · exact .inr (List.mem_cons_of_mem _ h)
      · rcases List.mem_cons.1 h with h | h
        · exact .inl ⟨h, ‹_›⟩
        · exact .inr (List.mem_cons_of_mem _ h)
    · split at h
      · split at h
        · exact .inr h
        · rcases List.mem_cons.1 h with h | h
          · exact .inl ⟨h, ‹_›⟩
          · exact .inr h
      · rcases List.mem_cons.1 h with h | h
        · exact .inr (h ▸ List.mem_cons_self)
        · exact (ih h).imp id (List.mem_cons_of_mem _)

/-- `put` keeps the keys rising. -/
theorem rising_put {m : SMap α} (h : Rising m) (k : Nat) (v : α) : Rising (put d m k v) := by
  induction m with
  | nil => simp only [put]; split <;> simp [Rising]
  | cons x t ih =>
    obtain ⟨hx, ht⟩ := List.pairwise_cons.1 h
    simp only [put]
    split
    · rename_i hk
      split
      · exact ht
      · exact List.pairwise_cons.2 ⟨fun y hy => hk ▸ hx y hy, ht⟩
    · split
      · rename_i hlt
        split
        · exact h
        · refine List.pairwise_cons.2 ⟨fun y hy => ?_, h⟩
          rcases List.mem_cons.1 hy with rfl | hy
          · exact hlt
          · exact Nat.lt_trans hlt (hx y hy)
      · refine List.pairwise_cons.2 ⟨fun y hy => ?_, ih ht⟩
        rcases mem_put d hy with ⟨rfl, -⟩ | hy
        · show x.1 < k; omega
        · exact hx y hy

/-- `put` keeps the canonical form. -/
theorem canon_put {m : SMap α} (h : Canon d m) (k : Nat) (v : α) : Canon d (put d m k v) :=
  ⟨rising_put d h.1 k v, fun e he => by
    rcases mem_put d he with ⟨rfl, hv⟩ | he
    · exact hv
    · exact h.2 e he⟩

/-- What was put is read back. -/
theorem find_put_self {m : SMap α} (h : Rising m) (k : Nat) (v : α) : find d (put d m k v) k = v := by
  induction m with
  | nil => simp only [put]; split <;> simp_all [find]
  | cons x t ih =>
    obtain ⟨hx, ht⟩ := List.pairwise_cons.1 h
    simp only [put]
    split
    · rename_i hk
      split
      · rename_i hv; rw [find_of_lt d fun e he => hk ▸ hx e he, hv]
      · simp [find]
    · split
      · split
        · rename_i h1 h2 hv; simp [find, h1, h2, hv]
        · simp [find]
      · rename_i h1 h2; simp [find, h1, h2, ih ht]

/-- Putting leaves every other key alone. -/
theorem find_put_of_ne {m : SMap α} (h : Rising m) {k j : Nat} (v : α) (hj : j ≠ k) :
    find d (put d m k v) j = find d m j := by
  induction m with
  | nil => simp only [put]; split <;> simp [find, hj]
  | cons x t ih =>
    obtain ⟨hx, ht⟩ := List.pairwise_cons.1 h
    simp only [put]
    split
    · rename_i hk
      split
      · by_cases hlt : j < x.1
        · rw [find_of_lt d fun e he => Nat.lt_trans hlt (hx e he)]
          simp [find, hlt, Nat.ne_of_lt hlt]
        · have hne : j ≠ x.1 := hk ▸ hj
          simp [find, hlt, hne]
      · subst hk; simp [find, hj]
    · split
      · rename_i h1 h2
        split
        · rfl
        · by_cases hlt : j < k
          · simp [find, hj, hlt, Nat.ne_of_lt (Nat.lt_trans hlt h2), Nat.lt_trans hlt h2]
          · simp [find, hj, hlt]
      · simp only [find, ih ht]

/-- Reading after putting. -/
theorem find_put {m : SMap α} (h : Rising m) (k j : Nat) (v : α) :
    find d (put d m k v) j = if j = k then v else find d m j := by
  split
  · subst_vars; exact find_put_self d h _ v
  · exact find_put_of_ne d h v ‹_›

end Put
end Sys2Proof.Machine
end

