-- ==== Sys2Proof/Laws/Keeps.lean ====
section
/-!
SUPPORT. The relation that every operation keeps between the state before and after it (the invariant, the fuses, the queue, the
clock, and what it may change), its closure under composition, loops and branches, and the operations that touch what it speaks of.
What an operation may change is a number whose bits stand for parts of the state (Comp.idx).
-/
namespace Sys2Proof.Machine

theorem Fuses.Within.refl (a : Fuses) : a.Within a :=
  ⟨rfl, rfl, rfl, rfl, rfl, fun _ => rfl, Nat.le_refl _, Nat.le_refl _, fun _ h => h, fun _ h => h⟩

theorem Fuses.Within.trans {a b c : Fuses} (h : a.Within b) (k : b.Within c) : a.Within c :=
  ⟨k.variant.trans h.variant, k.stepping.trans h.stepping, k.serial.trans h.serial, k.disabled.trans h.disabled,
    k.swHash.trans h.swHash, fun i => (k.owner (h.owner i ▸ i)).trans (h.owner i), Nat.le_trans h.fwCtr k.fwCtr,
    Nat.le_trans h.imgCtr k.imgCtr, fun x i => k.kind4 x (h.kind4 x i), fun x i => k.skips x (h.skips x i)⟩

/-- The bit of a register block. -/
def RegBlock.idx : RegBlock → Nat
  | .dev => 43
  | .pwr => 44
  | .img => 45
  | .sec => 46
  | .flt => 47
  | .svc => 48
  | .lrl => 49
  | .cch => 50
  | .mem => 51
  | .dsp => 52
  | .ldg => 53
  | .chn => 54
  | .adp => 55
  | .core => 56
  | .clu => 57
  | .cci => 58
  | .fltp => 59

/-- The bit of a part of the state. -/
def Comp.idx : Comp → Nat
  | .free => 0
  | .mem => 1
  | .hostMem => 2
  | .fuses => 3
  | .latched => 4
  | .flash => 5
  | .pins => 6
  | .phase => 7
  | .warmDue => 8
  | .loaded => 9
  | .bundle => 10
  | .power => 11
  | .time => 12
  | .ecc => 13
  | .fltLog => 14
  | .memLog => 15
  | .larric => 16
  | .pages => 17
  | .walks => 18
  | .ledger => 19
  | .tasks => 20
  | .taskNext => 21
  | .issueLast => 22
  | .cores => 23
  | .clusters => 24
  | .mcasts => 25
  | .endpoints => 26
  | .landings => 27
  | .churns => 28
  | .coach => 29
  | .ctl => 30
  | .service => 31
  | .mgmt => 32
  | .bus => 33
  | .now => 34
  | .settings => 35
  | .pool => 36
  | .life => 37
  | .graphs => 38
  | .holds => 39
  | .sched => 40
  | .chans => 41
  | .slots => 42
  | .reg b => b.idx
  | .anyReg => 60

/-- What every operation keeps: the invariant holds after it if before; the fuses are as before or blown further; the queue is as
before; the clock does not run back; and nothing changes but the parts of the state whose bits stand in `M`. -/
structure State.Keeps (M : Nat) (s t : State) : Prop where
  inv : s.Inv → t.Inv
  ris : Rising s.regs → Rising t.regs
  fuses : s.fuses.Within t.fuses
  pending : t.pending = s.pending
  now : s.now ≤ t.now
  same : ∀ k : Comp, M.testBit k.idx = false → k.same s t
  regs : Rising s.regs → M.testBit 60 = false → ∀ a, (∀ b : RegBlock, M.testBit b.idx = true → ¬ b.has a) → t.rd a = s.rd a

theorem Comp.same_refl (k : Comp) (s : State) : k.same s s := by cases k <;> simp [Comp.same]

theorem Comp.same_trans {k : Comp} {s t u : State} (h : k.same s t) (g : k.same t u) : k.same s u := by
  cases k <;> simp_all [Comp.same]

theorem State.Keeps.refl {M : Nat} (s : State) : s.Keeps M s :=
  ⟨id, id, .refl _, rfl, Nat.le_refl _, fun k _ => k.same_refl s, fun _ _ _ _ => rfl⟩

theorem State.Keeps.trans {M : Nat} {s t u : State} (h : s.Keeps M t) (k : t.Keeps M u) : s.Keeps M u :=
  ⟨k.inv ∘ h.inv, k.ris ∘ h.ris, h.fuses.trans k.fuses, k.pending.trans h.pending, Nat.le_trans h.now k.now,
    fun c i => Comp.same_trans (h.same c i) (k.same c i), fun r n a i => (k.regs (h.ris r) n a i).trans (h.regs r n a i)⟩

/-! ### Bits -/

theorem mask_sub {a b M : Nat} (h : a ||| M = M) (k : b ||| a = a) : b ||| M = M := by rw [← h, ← Nat.or_assoc, k]

theorem bit_sub {a M i : Nat} (h : a ||| M = M) (k : M.testBit i = false) : a.testBit i = false := by
  rw [← h, Nat.testBit_or, Bool.or_eq_false_iff] at k; exact k.1

theorem sub_bit {a M i : Nat} (h : a ||| M = M) (k : a.testBit i = true) : M.testBit i = true := by
  rw [← h, Nat.testBit_or, k]; rfl

/-- What an operation may change may be stated larger. -/
theorem State.Keeps.mono {L M : Nat} {s t : State} (h : s.Keeps L t) (b : L ||| M = M) : s.Keeps M t :=
  { h with
    same := fun k i => h.same k (bit_sub b i)
    regs := fun r n a i => h.regs r (bit_sub b n) a fun c hc => i c (sub_bit b hc) }

/-! ### Record updates -/

/-- An update that leaves the registers, the fuses, the queue and the clock alone. -/
theorem State.Keeps.upd {L M : Nat} {s t u : State} (h : s.Keeps M t) (b : L ||| M = M) (i : t.Inv → u.Inv) (r : u.regs = t.regs)
    (f : u.fuses = t.fuses) (p : u.pending = t.pending) (n : u.now = t.now) (e : ∀ k : Comp, L.testBit k.idx = false → k.same t u) :
    s.Keeps M u :=
  h.trans ⟨i, fun x => r ▸ x, f ▸ .refl _, p, n ▸ Nat.le_refl _, fun k x => e k (bit_sub b x), fun _ _ a _ => by simp [State.rd, r]⟩

/-- An update of the registers alone. -/
theorem State.Keeps.updRegs {L M : Nat} {s t : State} {m : SMap W64} (h : s.Keeps M t) (b : L ||| M = M)
    (c : Canon regReset t.regs → Canon regReset m) (r : Rising t.regs → Rising m)
    (e : Rising t.regs → L.testBit 60 = false → ∀ a, (∀ b : RegBlock, L.testBit b.idx = true → ¬ b.has a) →
      find regReset m a = find regReset t.regs a) : s.Keeps M { t with regs := m } :=
  h.trans ⟨fun i => { i with regs := c i.regs }, r, .refl _, rfl, Nat.le_refl _, fun k _ => by cases k <;> (first | rfl | (intro _; repeat' constructor) | constructor),
    fun x n a i => e x (bit_sub b n) a fun d hd => i d (sub_bit b hd)⟩

theorem keeps_free {M : Nat} {s t : State} (b : 1 ||| M = M) (free : Nat) :
    s.Keeps M { t with free := free } ↔ s.Keeps M t := by
  constructor <;> intro h <;> refine h.upd b (fun i => ⟨i.regs, i.mem, i.hostMem, i.fltLog, i.memLog⟩) rfl rfl rfl rfl fun k hk => by
    cases k <;> first | exact absurd hk (by decide) | first | rfl | (intro _; repeat' constructor) | constructor

theorem keeps_cores {M : Nat} {s t : State} (b : 8388608 ||| M = M) (cores : SMap Core) :
    s.Keeps M { t with cores := cores } ↔ s.Keeps M t := by
  constructor <;> intro h <;> refine h.upd b (fun i => ⟨i.regs, i.mem, i.hostMem, i.fltLog, i.memLog⟩) rfl rfl rfl rfl fun k hk => by
    cases k <;> first | exact absurd hk (by decide) | first | rfl | (intro _; repeat' constructor) | constructor

theorem keeps_clusters {M : Nat} {s t : State} (b : 16777216 ||| M = M) (clusters : SMap Cluster) :
    s.Keeps M { t with clusters := clusters } ↔ s.Keeps M t := by
  constructor <;> intro h <;> refine h.upd b (fun i => ⟨i.regs, i.mem, i.hostMem, i.fltLog, i.memLog⟩) rfl rfl rfl rfl fun k hk => by
    cases k <;> first | exact absurd hk (by decide) | first | rfl | (intro _; repeat' constructor) | constructor

theorem keeps_ctl {M : Nat} {s t : State} (b : 1073741824 ||| M = M) (ctl : SMap CtlCore) :
    s.Keeps M { t with ctl := ctl } ↔ s.Keeps M t := by
  constructor <;> intro h <;> refine h.upd b (fun i => ⟨i.regs, i.mem, i.hostMem, i.fltLog, i.memLog⟩) rfl rfl rfl rfl fun k hk => by
    cases k <;> first | exact absurd hk (by decide) | first | rfl | (intro _; repeat' constructor) | constructor

theorem keeps_tasks {M : Nat} {s t : State} (b : 1048576 ||| M = M) (tasks : List Task) :
    s.Keeps M { t with tasks := tasks } ↔ s.Keeps M t := by
  constructor <;> intro h <;> refine h.upd b (fun i => ⟨i.regs, i.mem, i.hostMem, i.fltLog, i.memLog⟩) rfl rfl rfl rfl fun k hk => by
    cases k <;> first | exact absurd hk (by decide) | first | rfl | (intro _; repeat' constructor) | constructor

theorem keeps_larric {M : Nat} {s t : State} (b : 65536 ||| M = M) (larric : LarricSt) :
    s.Keeps M { t with larric := larric } ↔ s.Keeps M t := by
  constructor <;> intro h <;> refine h.upd b (fun i => ⟨i.regs, i.mem, i.hostMem, i.fltLog, i.memLog⟩) rfl rfl rfl rfl fun k hk => by
    cases k <;> first | exact absurd hk (by decide) | first | rfl | (intro _; repeat' constructor) | constructor

theorem keeps_ecc {M : Nat} {s t : State} (b : 8192 ||| M = M) (ecc : EccSt) :
    s.Keeps M { t with ecc := ecc } ↔ s.Keeps M t := by
  constructor <;> intro h <;> refine h.upd b (fun i => ⟨i.regs, i.mem, i.hostMem, i.fltLog, i.memLog⟩) rfl rfl rfl rfl fun k hk => by
    cases k <;> first | exact absurd hk (by decide) | first | rfl | (intro _; repeat' constructor) | constructor

theorem keeps_pages {M : Nat} {s t : State} (b : 131072 ||| M = M) (pages : SMap Page) :
    s.Keeps M { t with pages := pages } ↔ s.Keeps M t := by
  constructor <;> intro h <;> refine h.upd b (fun i => ⟨i.regs, i.mem, i.hostMem, i.fltLog, i.memLog⟩) rfl rfl rfl rfl fun k hk => by
    cases k <;> first | exact absurd hk (by decide) | first | rfl | (intro _; repeat' constructor) | constructor

theorem keeps_pins {M : Nat} {s t : State} (b : 64 ||| M = M) (pins : Pins) :
    s.Keeps M { t with pins := pins } ↔ s.Keeps M t := by
  constructor <;> intro h <;> refine h.upd b (fun i => ⟨i.regs, i.mem, i.hostMem, i.fltLog, i.memLog⟩) rfl rfl rfl rfl fun k hk => by
    cases k <;> first | exact absurd hk (by decide) | first | rfl | (intro _; repeat' constructor) | constructor

theorem keeps_coach {M : Nat} {s t : State} (b : 536870912 ||| M = M) (coach : CoachSt) :
    s.Keeps M { t with coach := coach } ↔ s.Keeps M t := by
  constructor <;> intro h <;> refine h.upd b (fun i => ⟨i.regs, i.mem, i.hostMem, i.fltLog, i.memLog⟩) rfl rfl rfl rfl fun k hk => by
    cases k <;> first | exact absurd hk (by decide) | first | rfl | (intro _; repeat' constructor) | constructor

theorem keeps_mcasts {M : Nat} {s t : State} (b : 33554432 ||| M = M) (mcasts : List Mcast) :
    s.Keeps M { t with mcasts := mcasts } ↔ s.Keeps M t := by
  constructor <;> intro h <;> refine h.upd b (fun i => ⟨i.regs, i.mem, i.hostMem, i.fltLog, i.memLog⟩) rfl rfl rfl rfl fun k hk => by
    cases k <;> first | exact absurd hk (by decide) | first | rfl | (intro _; repeat' constructor) | constructor

theorem keeps_taskNext {M : Nat} {s t : State} (b : 2097152 ||| M = M) (taskNext : Nat) :
    s.Keeps M { t with taskNext := taskNext } ↔ s.Keeps M t := by
  constructor <;> intro h <;> refine h.upd b (fun i => ⟨i.regs, i.mem, i.hostMem, i.fltLog, i.memLog⟩) rfl rfl rfl rfl fun k hk => by
    cases k <;> first | exact absurd hk (by decide) | first | rfl | (intro _; repeat' constructor) | constructor

theorem keeps_walks {M : Nat} {s t : State} (b : 262144 ||| M = M) (walks : List WalkWait) :
    s.Keeps M { t with walks := walks } ↔ s.Keeps M t := by
  constructor <;> intro h <;> refine h.upd b (fun i => ⟨i.regs, i.mem, i.hostMem, i.fltLog, i.memLog⟩) rfl rfl rfl rfl fun k hk => by
    cases k <;> first | exact absurd hk (by decide) | first | rfl | (intro _; repeat' constructor) | constructor

theorem keeps_issueLast {M : Nat} {s t : State} (b : 4194304 ||| M = M) (issueLast : Nat) :
    s.Keeps M { t with issueLast := issueLast } ↔ s.Keeps M t := by
  constructor <;> intro h <;> refine h.upd b (fun i => ⟨i.regs, i.mem, i.hostMem, i.fltLog, i.memLog⟩) rfl rfl rfl rfl fun k hk => by
    cases k <;> first | exact absurd hk (by decide) | first | rfl | (intro _; repeat' constructor) | constructor

theorem keeps_ledger {M : Nat} {s t : State} (b : 524288 ||| M = M) (ledger : SMap Entry) :
    s.Keeps M { t with ledger := ledger } ↔ s.Keeps M t := by
  constructor <;> intro h <;> refine h.upd b (fun i => ⟨i.regs, i.mem, i.hostMem, i.fltLog, i.memLog⟩) rfl rfl rfl rfl fun k hk => by
    cases k <;> first | exact absurd hk (by decide) | first | rfl | (intro _; repeat' constructor) | constructor

theorem keeps_bus {M : Nat} {s t : State} (b : 8589934592 ||| M = M) (bus : W64) :
    s.Keeps M { t with bus := bus } ↔ s.Keeps M t := by
  constructor <;> intro h <;> refine h.upd b (fun i => ⟨i.regs, i.mem, i.hostMem, i.fltLog, i.memLog⟩) rfl rfl rfl rfl fun k hk => by
    cases k <;> first | exact absurd hk (by decide) | first | rfl | (intro _; repeat' constructor) | constructor

theorem keeps_endpoints {M : Nat} {s t : State} (b : 67108864 ||| M = M) (endpoints : SMap Endpoint) :
    s.Keeps M { t with endpoints := endpoints } ↔ s.Keeps M t := by
  constructor <;> intro h <;> refine h.upd b (fun i => ⟨i.regs, i.mem, i.hostMem, i.fltLog, i.memLog⟩) rfl rfl rfl rfl fun k hk => by
    cases k <;> first | exact absurd hk (by decide) | first | rfl | (intro _; repeat' constructor) | constructor

theorem keeps_churns {M : Nat} {s t : State} (b : 268435456 ||| M = M) (churns : SMap Churn) :
    s.Keeps M { t with churns := churns } ↔ s.Keeps M t := by
  constructor <;> intro h <;> refine h.upd b (fun i => ⟨i.regs, i.mem, i.hostMem, i.fltLog, i.memLog⟩) rfl rfl rfl rfl fun k hk => by
    cases k <;> first | exact absurd hk (by decide) | first | rfl | (intro _; repeat' constructor) | constructor

theorem keeps_landings {M : Nat} {s t : State} (b : 134217728 ||| M = M) (landings : List Landing) :
    s.Keeps M { t with landings := landings } ↔ s.Keeps M t := by
  constructor <;> intro h <;> refine h.upd b (fun i => ⟨i.regs, i.mem, i.hostMem, i.fltLog, i.memLog⟩) rfl rfl rfl rfl fun k hk => by
    cases k <;> first | exact absurd hk (by decide) | first | rfl | (intro _; repeat' constructor) | constructor

theorem keeps_flash {M : Nat} {s t : State} (b : 32 ||| M = M) (flash : Flash) :
    s.Keeps M { t with flash := flash } ↔ s.Keeps M t := by
  constructor <;> intro h <;> refine h.upd b (fun i => ⟨i.regs, i.mem, i.hostMem, i.fltLog, i.memLog⟩) rfl rfl rfl rfl fun k hk => by
    cases k <;> first | exact absurd hk (by decide) | first | rfl | (intro _; repeat' constructor) | constructor

theorem keeps_mgmt {M : Nat} {s t : State} (b : 4294967296 ||| M = M) (mgmt : MgmtSt) :
    s.Keeps M { t with mgmt := mgmt } ↔ s.Keeps M t := by
  constructor <;> intro h <;> refine h.upd b (fun i => ⟨i.regs, i.mem, i.hostMem, i.fltLog, i.memLog⟩) rfl rfl rfl rfl fun k hk => by
    cases k <;> first | exact absurd hk (by decide) | first | rfl | (intro _; repeat' constructor) | constructor

theorem keeps_service {M : Nat} {s t : State} (b : 2147483648 ||| M = M) (service : ServiceSt) :
    s.Keeps M { t with service := service } ↔ s.Keeps M t := by
  constructor <;> intro h <;> refine h.upd b (fun i => ⟨i.regs, i.mem, i.hostMem, i.fltLog, i.memLog⟩) rfl rfl rfl rfl fun k hk => by
    cases k <;> first | exact absurd hk (by decide) | first | rfl | (intro _; repeat' constructor) | constructor

theorem keeps_bundle {M : Nat} {s t : State} (b : 1024 ||| M = M) (bundle : Option Bundle) :
    s.Keeps M { t with bundle := bundle } ↔ s.Keeps M t := by
  constructor <;> intro h <;> refine h.upd b (fun i => ⟨i.regs, i.mem, i.hostMem, i.fltLog, i.memLog⟩) rfl rfl rfl rfl fun k hk => by
    cases k <;> first | exact absurd hk (by decide) | first | rfl | (intro _; repeat' constructor) | constructor

theorem keeps_warmDue {M : Nat} {s t : State} (b : 256 ||| M = M) (warmDue : Option WarmCause) :
    s.Keeps M { t with warmDue := warmDue } ↔ s.Keeps M t := by
  constructor <;> intro h <;> refine h.upd b (fun i => ⟨i.regs, i.mem, i.hostMem, i.fltLog, i.memLog⟩) rfl rfl rfl rfl fun k hk => by
    cases k <;> first | exact absurd hk (by decide) | first | rfl | (intro _; repeat' constructor) | constructor

theorem keeps_phase {M : Nat} {s t : State} (b : 128 ||| M = M) (phase : Phase) :
    s.Keeps M { t with phase := phase } ↔ s.Keeps M t := by
  constructor <;> intro h <;> refine h.upd b (fun i => ⟨i.regs, i.mem, i.hostMem, i.fltLog, i.memLog⟩) rfl rfl rfl rfl fun k hk => by
    cases k <;> first | exact absurd hk (by decide) | first | rfl | (intro _; repeat' constructor) | constructor

theorem keeps_power {M : Nat} {s t : State} (b : 2048 ||| M = M) (power : PowerSt) :
    s.Keeps M { t with power := power } ↔ s.Keeps M t := by
  constructor <;> intro h <;> refine h.upd b (fun i => ⟨i.regs, i.mem, i.hostMem, i.fltLog, i.memLog⟩) rfl rfl rfl rfl fun k hk => by
    cases k <;> first | exact absurd hk (by decide) | first | rfl | (intro _; repeat' constructor) | constructor

theorem keeps_time {M : Nat} {s t : State} (b : 4096 ||| M = M) (time : TimeSt) :
    s.Keeps M { t with time := time } ↔ s.Keeps M t := by
  constructor <;> intro h <;> refine h.upd b (fun i => ⟨i.regs, i.mem, i.hostMem, i.fltLog, i.memLog⟩) rfl rfl rfl rfl fun k hk => by
    cases k <;> first | exact absurd hk (by decide) | first | rfl | (intro _; repeat' constructor) | constructor

theorem keeps_landings_churns {M : Nat} {s t : State} (b : 402653184 ||| M = M) (landings : List Landing) (churns : SMap Churn) :
    s.Keeps M { t with landings := landings, churns := churns } ↔ s.Keeps M t := by
  constructor <;> intro h <;> refine h.upd b (fun i => ⟨i.regs, i.mem, i.hostMem, i.fltLog, i.memLog⟩) rfl rfl rfl rfl fun k hk => by
    cases k <;> first | exact absurd hk (by decide) | first | rfl | (intro _; repeat' constructor) | constructor

theorem keeps_tasks_taskNext {M : Nat} {s t : State} (b : 3145728 ||| M = M) (tasks : List Task) (taskNext : Nat) :
    s.Keeps M { t with tasks := tasks, taskNext := taskNext } ↔ s.Keeps M t := by
  constructor <;> intro h <;> refine h.upd b (fun i => ⟨i.regs, i.mem, i.hostMem, i.fltLog, i.memLog⟩) rfl rfl rfl rfl fun k hk => by
    cases k <;> first | exact absurd hk (by decide) | first | rfl | (intro _; repeat' constructor) | constructor

theorem keeps_loaded_bundle {M : Nat} {s t : State} (b : 1536 ||| M = M) (loaded : Option Loaded) (bundle : Option Bundle) :
    s.Keeps M { t with loaded := loaded, bundle := bundle } ↔ s.Keeps M t := by
  constructor <;> intro h <;> refine h.upd b (fun i => ⟨i.regs, i.mem, i.hostMem, i.fltLog, i.memLog⟩) rfl rfl rfl rfl fun k hk => by
    cases k <;> first | exact absurd hk (by decide) | first | rfl | (intro _; repeat' constructor) | constructor

theorem keeps_pages_clusters {M : Nat} {s t : State} (b : 16908288 ||| M = M) (pages : SMap Page) (clusters : SMap Cluster) :
    s.Keeps M { t with pages := pages, clusters := clusters } ↔ s.Keeps M t := by
  constructor <;> intro h <;> refine h.upd b (fun i => ⟨i.regs, i.mem, i.hostMem, i.fltLog, i.memLog⟩) rfl rfl rfl rfl fun k hk => by
    cases k <;> first | exact absurd hk (by decide) | first | rfl | (intro _; repeat' constructor) | constructor

theorem keeps_power_cores {M : Nat} {s t : State} (b : 8390656 ||| M = M) (power : PowerSt) (cores : SMap Core) :
    s.Keeps M { t with power := power, cores := cores } ↔ s.Keeps M t := by
  constructor <;> intro h <;> refine h.upd b (fun i => ⟨i.regs, i.mem, i.hostMem, i.fltLog, i.memLog⟩) rfl rfl rfl rfl fun k hk => by
    cases k <;> first | exact absurd hk (by decide) | first | rfl | (intro _; repeat' constructor) | constructor

theorem keeps_walks_tasks_coach {M : Nat} {s t : State} (b : 538181632 ||| M = M) (walks : List WalkWait) (tasks : List Task) (coach : CoachSt) :
    s.Keeps M { t with walks := walks, tasks := tasks, coach := coach } ↔ s.Keeps M t := by
  constructor <;> intro h <;> refine h.upd b (fun i => ⟨i.regs, i.mem, i.hostMem, i.fltLog, i.memLog⟩) rfl rfl rfl rfl fun k hk => by
    cases k <;> first | exact absurd hk (by decide) | first | rfl | (intro _; repeat' constructor) | constructor

theorem keeps_latched_pins_phase {M : Nat} {s t : State} (b : 208 ||| M = M) (latched : FuseMap) (pins : Pins) (phase : Phase) :
    s.Keeps M { t with latched := latched, pins := pins, phase := phase } ↔ s.Keeps M t := by
  constructor <;> intro h <;> refine h.upd b (fun i => ⟨i.regs, i.mem, i.hostMem, i.fltLog, i.memLog⟩) rfl rfl rfl rfl fun k hk => by
    cases k <;> first | exact absurd hk (by decide) | first | rfl | (intro _; repeat' constructor) | constructor

theorem keeps_endpoints_landings_churns {M : Nat} {s t : State} (b : 469762048 ||| M = M) (endpoints : SMap Endpoint) (landings : List Landing) (churns : SMap Churn) :
    s.Keeps M { t with endpoints := endpoints, landings := landings, churns := churns } ↔ s.Keeps M t := by
  constructor <;> intro h <;> refine h.upd b (fun i => ⟨i.regs, i.mem, i.hostMem, i.fltLog, i.memLog⟩) rfl rfl rfl rfl fun k hk => by
    cases k <;> first | exact absurd hk (by decide) | first | rfl | (intro _; repeat' constructor) | constructor

theorem keeps_walks_tasks_mcasts_coach {M : Nat} {s t : State} (b : 571736064 ||| M = M) (walks : List WalkWait) (tasks : List Task) (mcasts : List Mcast) (coach : CoachSt) :
    s.Keeps M { t with walks := walks, tasks := tasks, mcasts := mcasts, coach := coach } ↔ s.Keeps M t := by
  constructor <;> intro h <;> refine h.upd b (fun i => ⟨i.regs, i.mem, i.hostMem, i.fltLog, i.memLog⟩) rfl rfl rfl rfl fun k hk => by
    cases k <;> first | exact absurd hk (by decide) | first | rfl | (intro _; repeat' constructor) | constructor

/-! ### What the block keeps for a partition -/

theorem State.part_setPart (s : State) (p q : Nat) (x : Part) : (s.setPart p x).part q = if q = p then x else s.part q := find_ins _ _ _ _ _

theorem State.part_rel (P : Part → Part → Prop) {t : State} {p : Nat} {y : Part} (h : P y (t.part p)) (r : ∀ x, P x x) (q : Nat) :
    P ((t.setPart p y).part q) (t.part q) := by
  rw [State.part_setPart]; by_cases e : q = p
  · subst e; simpa using h
  · simpa [e] using r _

/-- Replacing what is kept for a partition by something equal in the fields that matter. -/
theorem State.Keeps.part {L M : Nat} {s t : State} {p : Nat} {y : Part} (h : s.Keeps M t) (b : L ||| M = M)
    (e : ∀ k : Comp, L.testBit k.idx = false → k.same t (t.setPart p y)) : s.Keeps M (t.setPart p y) :=
  h.upd b (fun i => ⟨i.regs, i.mem, i.hostMem, i.fltLog, i.memLog⟩) rfl rfl rfl rfl e

theorem State.setPart_settings {M : Nat} {s t : State} {p : Nat} {y : Part} (b : 34359738368 ||| M = M) (h : s.Keeps M t)
    (e : ({ y with env := (t.part p).env, cfg := (t.part p).cfg, reloadSeq := (t.part p).reloadSeq, reloadPend := (t.part p).reloadPend, reloadKey := (t.part p).reloadKey, ledBase := (t.part p).ledBase, ledN := (t.part p).ledN, pageBase := (t.part p).pageBase, pageQ := (t.part p).pageQ, pageN := (t.part p).pageN, past := (t.part p).past } : Part) = t.part p) :
    s.Keeps M (t.setPart p y) := by
  refine h.part b fun k hk => ?_
  cases k <;> first
    | exact absurd hk (by decide)
    | exact State.part_rel (fun a b => a.pool = b.pool ∧ a.fresh = b.fresh) ⟨(congrArg Part.pool e :), (congrArg Part.fresh e :)⟩ (fun _ => by repeat' constructor)
    | exact State.part_rel (fun a b => a.started = b.started ∧ a.shut = b.shut ∧ a.why = b.why ∧ a.resetDone = b.resetDone ∧ a.errStep = b.errStep ∧ a.errEntries = b.errEntries ∧ a.faultAt = b.faultAt ∧ a.haltAt = b.haltAt) ⟨(congrArg Part.started e :), (congrArg Part.shut e :), (congrArg Part.why e :), (congrArg Part.resetDone e :), (congrArg Part.errStep e :), (congrArg Part.errEntries e :), (congrArg Part.faultAt e :), (congrArg Part.haltAt e :)⟩ (fun _ => by repeat' constructor)
    | exact State.part_rel (fun a b => a.graphs = b.graphs ∧ a.poolT = b.poolT) ⟨(congrArg Part.graphs e :), (congrArg Part.poolT e :)⟩ (fun _ => by repeat' constructor)
    | exact State.part_rel (fun a b => a.cringHold = b.cringHold ∧ a.cbHold = b.cbHold ∧ a.rqHold = b.rqHold) ⟨(congrArg Part.cringHold e :), (congrArg Part.cbHold e :), (congrArg Part.rqHold e :)⟩ (fun _ => by repeat' constructor)
    | exact State.part_rel (fun a b => a.sched = b.sched ∧ a.levels = b.levels) ⟨(congrArg Part.sched e :), (congrArg Part.levels e :)⟩ (fun _ => by repeat' constructor)
    | exact State.part_rel (fun a b => a.ports = b.ports ∧ a.groups = b.groups) ⟨(congrArg Part.ports e :), (congrArg Part.groups e :)⟩ (fun _ => by repeat' constructor)
    | exact State.part_rel (fun a b => a.adapters = b.adapters) (congrArg Part.adapters e :) (fun _ => by repeat' constructor)
    | first | rfl | (intro _; repeat' constructor) | constructor

theorem State.modPart_settings {M : Nat} {s t : State} (b : 34359738368 ||| M = M) (h : s.Keeps M t) (p : Nat) (f : Part → Part)
    (e : ∀ x, ({ f x with env := x.env, cfg := x.cfg, reloadSeq := x.reloadSeq, reloadPend := x.reloadPend, reloadKey := x.reloadKey, ledBase := x.ledBase, ledN := x.ledN, pageBase := x.pageBase, pageQ := x.pageQ, pageN := x.pageN, past := x.past } : Part) = x) :
    s.Keeps M (t.modPart p f) := State.setPart_settings b h (e _)

theorem State.setPart_pool {M : Nat} {s t : State} {p : Nat} {y : Part} (b : 68719476736 ||| M = M) (h : s.Keeps M t)
    (e : ({ y with pool := (t.part p).pool, fresh := (t.part p).fresh } : Part) = t.part p) :
    s.Keeps M (t.setPart p y) := by
  refine h.part b fun k hk => ?_
  cases k <;> first
    | exact absurd hk (by decide)
    | exact State.part_rel (fun a b => a.env = b.env ∧ a.cfg = b.cfg ∧ a.reloadSeq = b.reloadSeq ∧ a.reloadPend = b.reloadPend ∧ a.reloadKey = b.reloadKey ∧ a.ledBase = b.ledBase ∧ a.ledN = b.ledN ∧ a.pageBase = b.pageBase ∧ a.pageQ = b.pageQ ∧ a.pageN = b.pageN ∧ a.past = b.past) ⟨(congrArg Part.env e :), (congrArg Part.cfg e :), (congrArg Part.reloadSeq e :), (congrArg Part.reloadPend e :), (congrArg Part.reloadKey e :), (congrArg Part.ledBase e :), (congrArg Part.ledN e :), (congrArg Part.pageBase e :), (congrArg Part.pageQ e :), (congrArg Part.pageN e :), (congrArg Part.past e :)⟩ (fun _ => by repeat' constructor)
    | exact State.part_rel (fun a b => a.started = b.started ∧ a.shut = b.shut ∧ a.why = b.why ∧ a.resetDone = b.resetDone ∧ a.errStep = b.errStep ∧ a.errEntries = b.errEntries ∧ a.faultAt = b.faultAt ∧ a.haltAt = b.haltAt) ⟨(congrArg Part.started e :), (congrArg Part.shut e :), (congrArg Part.why e :), (congrArg Part.resetDone e :), (congrArg Part.errStep e :), (congrArg Part.errEntries e :), (congrArg Part.faultAt e :), (congrArg Part.haltAt e :)⟩ (fun _ => by repeat' constructor)
    | exact State.part_rel (fun a b => a.graphs = b.graphs ∧ a.poolT = b.poolT) ⟨(congrArg Part.graphs e :), (congrArg Part.poolT e :)⟩ (fun _ => by repeat' constructor)
    | exact State.part_rel (fun a b => a.cringHold = b.cringHold ∧ a.cbHold = b.cbHold ∧ a.rqHold = b.rqHold) ⟨(congrArg Part.cringHold e :), (congrArg Part.cbHold e :), (congrArg Part.rqHold e :)⟩ (fun _ => by repeat' constructor)
    | exact State.part_rel (fun a b => a.sched = b.sched ∧ a.levels = b.levels) ⟨(congrArg Part.sched e :), (congrArg Part.levels e :)⟩ (fun _ => by repeat' constructor)
    | exact State.part_rel (fun a b => a.ports = b.ports ∧ a.groups = b.groups) ⟨(congrArg Part.ports e :), (congrArg Part.groups e :)⟩ (fun _ => by repeat' constructor)
    | exact State.part_rel (fun a b => a.adapters = b.adapters) (congrArg Part.adapters e :) (fun _ => by repeat' constructor)
    | first | rfl | (intro _; repeat' constructor) | constructor

theorem State.modPart_pool {M : Nat} {s t : State} (b : 68719476736 ||| M = M) (h : s.Keeps M t) (p : Nat) (f : Part → Part)
    (e : ∀ x, ({ f x with pool := x.pool, fresh := x.fresh } : Part) = x) :
    s.Keeps M (t.modPart p f) := State.setPart_pool b h (e _)

theorem State.setPart_life {M : Nat} {s t : State} {p : Nat} {y : Part} (b : 137438953472 ||| M = M) (h : s.Keeps M t)
    (e : ({ y with started := (t.part p).started, shut := (t.part p).shut, why := (t.part p).why, resetDone := (t.part p).resetDone, errStep := (t.part p).errStep, errEntries := (t.part p).errEntries, faultAt := (t.part p).faultAt, haltAt := (t.part p).haltAt } : Part) = t.part p) :
    s.Keeps M (t.setPart p y) := by
  refine h.part b fun k hk => ?_
  cases k <;> first
    | exact absurd hk (by decide)
    | exact State.part_rel (fun a b => a.env = b.env ∧ a.cfg = b.cfg ∧ a.reloadSeq = b.reloadSeq ∧ a.reloadPend = b.reloadPend ∧ a.reloadKey = b.reloadKey ∧ a.ledBase = b.ledBase ∧ a.ledN = b.ledN ∧ a.pageBase = b.pageBase ∧ a.pageQ = b.pageQ ∧ a.pageN = b.pageN ∧ a.past = b.past) ⟨(congrArg Part.env e :), (congrArg Part.cfg e :), (congrArg Part.reloadSeq e :), (congrArg Part.reloadPend e :), (congrArg Part.reloadKey e :), (congrArg Part.ledBase e :), (congrArg Part.ledN e :), (congrArg Part.pageBase e :), (congrArg Part.pageQ e :), (congrArg Part.pageN e :), (congrArg Part.past e :)⟩ (fun _ => by repeat' constructor)
    | exact State.part_rel (fun a b => a.pool = b.pool ∧ a.fresh = b.fresh) ⟨(congrArg Part.pool e :), (congrArg Part.fresh e :)⟩ (fun _ => by repeat' constructor)
    | exact State.part_rel (fun a b => a.graphs = b.graphs ∧ a.poolT = b.poolT) ⟨(congrArg Part.graphs e :), (congrArg Part.poolT e :)⟩ (fun _ => by repeat' constructor)
    | exact State.part_rel (fun a b => a.cringHold = b.cringHold ∧ a.cbHold = b.cbHold ∧ a.rqHold = b.rqHold) ⟨(congrArg Part.cringHold e :), (congrArg Part.cbHold e :), (congrArg Part.rqHold e :)⟩ (fun _ => by repeat' constructor)
    | exact State.part_rel (fun a b => a.sched = b.sched ∧ a.levels = b.levels) ⟨(congrArg Part.sched e :), (congrArg Part.levels e :)⟩ (fun _ => by repeat' constructor)
    | exact State.part_rel (fun a b => a.ports = b.ports ∧ a.groups = b.groups) ⟨(congrArg Part.ports e :), (congrArg Part.groups e :)⟩ (fun _ => by repeat' constructor)
    | exact State.part_rel (fun a b => a.adapters = b.adapters) (congrArg Part.adapters e :) (fun _ => by repeat' constructor)
    | first | rfl | (intro _; repeat' constructor) | constructor

theorem State.modPart_life {M : Nat} {s t : State} (b : 137438953472 ||| M = M) (h : s.Keeps M t) (p : Nat) (f : Part → Part)
    (e : ∀ x, ({ f x with started := x.started, shut := x.shut, why := x.why, resetDone := x.resetDone, errStep := x.errStep, errEntries := x.errEntries, faultAt := x.faultAt, haltAt := x.haltAt } : Part) = x) :
    s.Keeps M (t.modPart p f) := State.setPart_life b h (e _)

theorem State.setPart_graphs {M : Nat} {s t : State} {p : Nat} {y : Part} (b : 274877906944 ||| M = M) (h : s.Keeps M t)
    (e : ({ y with graphs := (t.part p).graphs, poolT := (t.part p).poolT } : Part) = t.part p) :
    s.Keeps M (t.setPart p y) := by
  refine h.part b fun k hk => ?_
  cases k <;> first
    | exact absurd hk (by decide)
    | exact State.part_rel (fun a b => a.env = b.env ∧ a.cfg = b.cfg ∧ a.reloadSeq = b.reloadSeq ∧ a.reloadPend = b.reloadPend ∧ a.reloadKey = b.reloadKey ∧ a.ledBase = b.ledBase ∧ a.ledN = b.ledN ∧ a.pageBase = b.pageBase ∧ a.pageQ = b.pageQ ∧ a.pageN = b.pageN ∧ a.past = b.past) ⟨(congrArg Part.env e :), (congrArg Part.cfg e :), (congrArg Part.reloadSeq e :), (congrArg Part.reloadPend e :), (congrArg Part.reloadKey e :), (congrArg Part.ledBase e :), (congrArg Part.ledN e :), (congrArg Part.pageBase e :), (congrArg Part.pageQ e :), (congrArg Part.pageN e :), (congrArg Part.past e :)⟩ (fun _ => by repeat' constructor)
    | exact State.part_rel (fun a b => a.pool = b.pool ∧ a.fresh = b.fresh) ⟨(congrArg Part.pool e :), (congrArg Part.fresh e :)⟩ (fun _ => by repeat' constructor)
    | exact State.part_rel (fun a b => a.started = b.started ∧ a.shut = b.shut ∧ a.why = b.why ∧ a.resetDone = b.resetDone ∧ a.errStep = b.errStep ∧ a.errEntries = b.errEntries ∧ a.faultAt = b.faultAt ∧ a.haltAt = b.haltAt) ⟨(congrArg Part.started e :), (congrArg Part.shut e :), (congrArg Part.why e :), (congrArg Part.resetDone e :), (congrArg Part.errStep e :), (congrArg Part.errEntries e :), (congrArg Part.faultAt e :), (congrArg Part.haltAt e :)⟩ (fun _ => by repeat' constructor)
    | exact State.part_rel (fun a b => a.cringHold = b.cringHold ∧ a.cbHold = b.cbHold ∧ a.rqHold = b.rqHold) ⟨(congrArg Part.cringHold e :), (congrArg Part.cbHold e :), (congrArg Part.rqHold e :)⟩ (fun _ => by repeat' constructor)
    | exact State.part_rel (fun a b => a.sched = b.sched ∧ a.levels = b.levels) ⟨(congrArg Part.sched e :), (congrArg Part.levels e :)⟩ (fun _ => by repeat' constructor)
    | exact State.part_rel (fun a b => a.ports = b.ports ∧ a.groups = b.groups) ⟨(congrArg Part.ports e :), (congrArg Part.groups e :)⟩ (fun _ => by repeat' constructor)
    | exact State.part_rel (fun a b => a.adapters = b.adapters) (congrArg Part.adapters e :) (fun _ => by repeat' constructor)
    | first | rfl | (intro _; repeat' constructor) | constructor

theorem State.modPart_graphs {M : Nat} {s t : State} (b : 274877906944 ||| M = M) (h : s.Keeps M t) (p : Nat) (f : Part → Part)
    (e : ∀ x, ({ f x with graphs := x.graphs, poolT := x.poolT } : Part) = x) :
    s.Keeps M (t.modPart p f) := State.setPart_graphs b h (e _)

theorem State.setPart_holds {M : Nat} {s t : State} {p : Nat} {y : Part} (b : 549755813888 ||| M = M) (h : s.Keeps M t)
    (e : ({ y with cringHold := (t.part p).cringHold, cbHold := (t.part p).cbHold, rqHold := (t.part p).rqHold } : Part) = t.part p) :
    s.Keeps M (t.setPart p y) := by
  refine h.part b fun k hk => ?_
  cases k <;> first
    | exact absurd hk (by decide)
    | exact State.part_rel (fun a b => a.env = b.env ∧ a.cfg = b.cfg ∧ a.reloadSeq = b.reloadSeq ∧ a.reloadPend = b.reloadPend ∧ a.reloadKey = b.reloadKey ∧ a.ledBase = b.ledBase ∧ a.ledN = b.ledN ∧ a.pageBase = b.pageBase ∧ a.pageQ = b.pageQ ∧ a.pageN = b.pageN ∧ a.past = b.past) ⟨(congrArg Part.env e :), (congrArg Part.cfg e :), (congrArg Part.reloadSeq e :), (congrArg Part.reloadPend e :), (congrArg Part.reloadKey e :), (congrArg Part.ledBase e :), (congrArg Part.ledN e :), (congrArg Part.pageBase e :), (congrArg Part.pageQ e :), (congrArg Part.pageN e :), (congrArg Part.past e :)⟩ (fun _ => by repeat' constructor)
    | exact State.part_rel (fun a b => a.pool = b.pool ∧ a.fresh = b.fresh) ⟨(congrArg Part.pool e :), (congrArg Part.fresh e :)⟩ (fun _ => by repeat' constructor)
    | exact State.part_rel (fun a b => a.started = b.started ∧ a.shut = b.shut ∧ a.why = b.why ∧ a.resetDone = b.resetDone ∧ a.errStep = b.errStep ∧ a.errEntries = b.errEntries ∧ a.faultAt = b.faultAt ∧ a.haltAt = b.haltAt) ⟨(congrArg Part.started e :), (congrArg Part.shut e :), (congrArg Part.why e :), (congrArg Part.resetDone e :), (congrArg Part.errStep e :), (congrArg Part.errEntries e :), (congrArg Part.faultAt e :), (congrArg Part.haltAt e :)⟩ (fun _ => by repeat' constructor)
    | exact State.part_rel (fun a b => a.graphs = b.graphs ∧ a.poolT = b.poolT) ⟨(congrArg Part.graphs e :), (congrArg Part.poolT e :)⟩ (fun _ => by repeat' constructor)
    | exact State.part_rel (fun a b => a.sched = b.sched ∧ a.levels = b.levels) ⟨(congrArg Part.sched e :), (congrArg Part.levels e :)⟩ (fun _ => by repeat' constructor)
    | exact State.part_rel (fun a b => a.ports = b.ports ∧ a.groups = b.groups) ⟨(congrArg Part.ports e :), (congrArg Part.groups e :)⟩ (fun _ => by repeat' constructor)
    | exact State.part_rel (fun a b => a.adapters = b.adapters) (congrArg Part.adapters e :) (fun _ => by repeat' constructor)
    | first | rfl | (intro _; repeat' constructor) | constructor

theorem State.modPart_holds {M : Nat} {s t : State} (b : 549755813888 ||| M = M) (h : s.Keeps M t) (p : Nat) (f : Part → Part)
    (e : ∀ x, ({ f x with cringHold := x.cringHold, cbHold := x.cbHold, rqHold := x.rqHold } : Part) = x) :
    s.Keeps M (t.modPart p f) := State.setPart_holds b h (e _)

theorem State.setPart_sched {M : Nat} {s t : State} {p : Nat} {y : Part} (b : 1099511627776 ||| M = M) (h : s.Keeps M t)
    (e : ({ y with sched := (t.part p).sched, levels := (t.part p).levels } : Part) = t.part p) :
    s.Keeps M (t.setPart p y) := by
  refine h.part b fun k hk => ?_
  cases k <;> first
    | exact absurd hk (by decide)
    | exact State.part_rel (fun a b => a.env = b.env ∧ a.cfg = b.cfg ∧ a.reloadSeq = b.reloadSeq ∧ a.reloadPend = b.reloadPend ∧ a.reloadKey = b.reloadKey ∧ a.ledBase = b.ledBase ∧ a.ledN = b.ledN ∧ a.pageBase = b.pageBase ∧ a.pageQ = b.pageQ ∧ a.pageN = b.pageN ∧ a.past = b.past) ⟨(congrArg Part.env e :), (congrArg Part.cfg e :), (congrArg Part.reloadSeq e :), (congrArg Part.reloadPend e :), (congrArg Part.reloadKey e :), (congrArg Part.ledBase e :), (congrArg Part.ledN e :), (congrArg Part.pageBase e :), (congrArg Part.pageQ e :), (congrArg Part.pageN e :), (congrArg Part.past e :)⟩ (fun _ => by repeat' constructor)
    | exact State.part_rel (fun a b => a.pool = b.pool ∧ a.fresh = b.fresh) ⟨(congrArg Part.pool e :), (congrArg Part.fresh e :)⟩ (fun _ => by repeat' constructor)
    | exact State.part_rel (fun a b => a.started = b.started ∧ a.shut = b.shut ∧ a.why = b.why ∧ a.resetDone = b.resetDone ∧ a.errStep = b.errStep ∧ a.errEntries = b.errEntries ∧ a.faultAt = b.faultAt ∧ a.haltAt = b.haltAt) ⟨(congrArg Part.started e :), (congrArg Part.shut e :), (congrArg Part.why e :), (congrArg Part.resetDone e :), (congrArg Part.errStep e :), (congrArg Part.errEntries e :), (congrArg Part.faultAt e :), (congrArg Part.haltAt e :)⟩ (fun _ => by repeat' constructor)
    | exact State.part_rel (fun a b => a.graphs = b.graphs ∧ a.poolT = b.poolT) ⟨(congrArg Part.graphs e :), (congrArg Part.poolT e :)⟩ (fun _ => by repeat' constructor)
    | exact State.part_rel (fun a b => a.cringHold = b.cringHold ∧ a.cbHold = b.cbHold ∧ a.rqHold = b.rqHold) ⟨(congrArg Part.cringHold e :), (congrArg Part.cbHold e :), (congrArg Part.rqHold e :)⟩ (fun _ => by repeat' constructor)
    | exact State.part_rel (fun a b => a.ports = b.ports ∧ a.groups = b.groups) ⟨(congrArg Part.ports e :), (congrArg Part.groups e :)⟩ (fun _ => by repeat' constructor)
    | exact State.part_rel (fun a b => a.adapters = b.adapters) (congrArg Part.adapters e :) (fun _ => by repeat' constructor)
    | first | rfl | (intro _; repeat' constructor) | constructor

theorem State.modPart_sched {M : Nat} {s t : State} (b : 1099511627776 ||| M = M) (h : s.Keeps M t) (p : Nat) (f : Part → Part)
    (e : ∀ x, ({ f x with sched := x.sched, levels := x.levels } : Part) = x) :
    s.Keeps M (t.modPart p f) := State.setPart_sched b h (e _)

theorem State.setPart_chans {M : Nat} {s t : State} {p : Nat} {y : Part} (b : 2199023255552 ||| M = M) (h : s.Keeps M t)
    (e : ({ y with ports := (t.part p).ports, groups := (t.part p).groups } : Part) = t.part p) :
    s.Keeps M (t.setPart p y) := by
  refine h.part b fun k hk => ?_
  cases k <;> first
    | exact absurd hk (by decide)
    | exact State.part_rel (fun a b => a.env = b.env ∧ a.cfg = b.cfg ∧ a.reloadSeq = b.reloadSeq ∧ a.reloadPend = b.reloadPend ∧ a.reloadKey = b.reloadKey ∧ a.ledBase = b.ledBase ∧ a.ledN = b.ledN ∧ a.pageBase = b.pageBase ∧ a.pageQ = b.pageQ ∧ a.pageN = b.pageN ∧ a.past = b.past) ⟨(congrArg Part.env e :), (congrArg Part.cfg e :), (congrArg Part.reloadSeq e :), (congrArg Part.reloadPend e :), (congrArg Part.reloadKey e :), (congrArg Part.ledBase e :), (congrArg Part.ledN e :), (congrArg Part.pageBase e :), (congrArg Part.pageQ e :), (congrArg Part.pageN e :), (congrArg Part.past e :)⟩ (fun _ => by repeat' constructor)
    | exact State.part_rel (fun a b => a.pool = b.pool ∧ a.fresh = b.fresh) ⟨(congrArg Part.pool e :), (congrArg Part.fresh e :)⟩ (fun _ => by repeat' constructor)
    | exact State.part_rel (fun a b => a.started = b.started ∧ a.shut = b.shut ∧ a.why = b.why ∧ a.resetDone = b.resetDone ∧ a.errStep = b.errStep ∧ a.errEntries = b.errEntries ∧ a.faultAt = b.faultAt ∧ a.haltAt = b.haltAt) ⟨(congrArg Part.started e :), (congrArg Part.shut e :), (congrArg Part.why e :), (congrArg Part.resetDone e :), (congrArg Part.errStep e :), (congrArg Part.errEntries e :), (congrArg Part.faultAt e :), (congrArg Part.haltAt e :)⟩ (fun _ => by repeat' constructor)
    | exact State.part_rel (fun a b => a.graphs = b.graphs ∧ a.poolT = b.poolT) ⟨(congrArg Part.graphs e :), (congrArg Part.poolT e :)⟩ (fun _ => by repeat' constructor)
    | exact State.part_rel (fun a b => a.cringHold = b.cringHold ∧ a.cbHold = b.cbHold ∧ a.rqHold = b.rqHold) ⟨(congrArg Part.cringHold e :), (congrArg Part.cbHold e :), (congrArg Part.rqHold e :)⟩ (fun _ => by repeat' constructor)
    | exact State.part_rel (fun a b => a.sched = b.sched ∧ a.levels = b.levels) ⟨(congrArg Part.sched e :), (congrArg Part.levels e :)⟩ (fun _ => by repeat' constructor)
    | exact State.part_rel (fun a b => a.adapters = b.adapters) (congrArg Part.adapters e :) (fun _ => by repeat' constructor)
    | first | rfl | (intro _; repeat' constructor) | constructor

theorem State.modPart_chans {M : Nat} {s t : State} (b : 2199023255552 ||| M = M) (h : s.Keeps M t) (p : Nat) (f : Part → Part)
    (e : ∀ x, ({ f x with ports := x.ports, groups := x.groups } : Part) = x) :
    s.Keeps M (t.modPart p f) := State.setPart_chans b h (e _)

theorem State.setPart_slots {M : Nat} {s t : State} {p : Nat} {y : Part} (b : 4398046511104 ||| M = M) (h : s.Keeps M t)
    (e : ({ y with adapters := (t.part p).adapters } : Part) = t.part p) :
    s.Keeps M (t.setPart p y) := by
  refine h.part b fun k hk => ?_
  cases k <;> first
    | exact absurd hk (by decide)
    | exact State.part_rel (fun a b => a.env = b.env ∧ a.cfg = b.cfg ∧ a.reloadSeq = b.reloadSeq ∧ a.reloadPend = b.reloadPend ∧ a.reloadKey = b.reloadKey ∧ a.ledBase = b.ledBase ∧ a.ledN = b.ledN ∧ a.pageBase = b.pageBase ∧ a.pageQ = b.pageQ ∧ a.pageN = b.pageN ∧ a.past = b.past) ⟨(congrArg Part.env e :), (congrArg Part.cfg e :), (congrArg Part.reloadSeq e :), (congrArg Part.reloadPend e :), (congrArg Part.reloadKey e :), (congrArg Part.ledBase e :), (congrArg Part.ledN e :), (congrArg Part.pageBase e :), (congrArg Part.pageQ e :), (congrArg Part.pageN e :), (congrArg Part.past e :)⟩ (fun _ => by repeat' constructor)
    | exact State.part_rel (fun a b => a.pool = b.pool ∧ a.fresh = b.fresh) ⟨(congrArg Part.pool e :), (congrArg Part.fresh e :)⟩ (fun _ => by repeat' constructor)
    | exact State.part_rel (fun a b => a.started = b.started ∧ a.shut = b.shut ∧ a.why = b.why ∧ a.resetDone = b.resetDone ∧ a.errStep = b.errStep ∧ a.errEntries = b.errEntries ∧ a.faultAt = b.faultAt ∧ a.haltAt = b.haltAt) ⟨(congrArg Part.started e :), (congrArg Part.shut e :), (congrArg Part.why e :), (congrArg Part.resetDone e :), (congrArg Part.errStep e :), (congrArg Part.errEntries e :), (congrArg Part.faultAt e :), (congrArg Part.haltAt e :)⟩ (fun _ => by repeat' constructor)
    | exact State.part_rel (fun a b => a.graphs = b.graphs ∧ a.poolT = b.poolT) ⟨(congrArg Part.graphs e :), (congrArg Part.poolT e :)⟩ (fun _ => by repeat' constructor)
    | exact State.part_rel (fun a b => a.cringHold = b.cringHold ∧ a.cbHold = b.cbHold ∧ a.rqHold = b.rqHold) ⟨(congrArg Part.cringHold e :), (congrArg Part.cbHold e :), (congrArg Part.rqHold e :)⟩ (fun _ => by repeat' constructor)
    | exact State.part_rel (fun a b => a.sched = b.sched ∧ a.levels = b.levels) ⟨(congrArg Part.sched e :), (congrArg Part.levels e :)⟩ (fun _ => by repeat' constructor)
    | exact State.part_rel (fun a b => a.ports = b.ports ∧ a.groups = b.groups) ⟨(congrArg Part.ports e :), (congrArg Part.groups e :)⟩ (fun _ => by repeat' constructor)
    | first | rfl | (intro _; repeat' constructor) | constructor

theorem State.modPart_slots {M : Nat} {s t : State} (b : 4398046511104 ||| M = M) (h : s.Keeps M t) (p : Nat) (f : Part → Part)
    (e : ∀ x, ({ f x with adapters := x.adapters } : Part) = x) :
    s.Keeps M (t.modPart p f) := State.setPart_slots b h (e _)

theorem State.setPart_all {M : Nat} {s t : State} {p : Nat} {y : Part} (b : 8761733283840 ||| M = M) (h : s.Keeps M t) :
    s.Keeps M (t.setPart p y) := by
  refine h.part b fun k hk => ?_
  cases k <;> first
    | exact absurd hk (by decide)
    | first | rfl | (intro _; repeat' constructor) | constructor

theorem State.modPart_all {M : Nat} {s t : State} (b : 8761733283840 ||| M = M) (h : s.Keeps M t) (p : Nat) (f : Part → Part) :
    s.Keeps M (t.modPart p f) := State.setPart_all b h

/-! ### Branches and loops -/

theorem keeps_ite {M : Nat} {s t u : State} {c : Prop} [Decidable c] (h : s.Keeps M t) (k : s.Keeps M u) : s.Keeps M (if c then t else u) := by
  split <;> assumption

theorem keeps_foldl {M : Nat} {α : Type} {s t : State} {f : State → α → State} (l : List α) (h : s.Keeps M t)
    (hf : ∀ u x, s.Keeps M u → s.Keeps M (f u x)) : s.Keeps M (l.foldl f t) := by
  induction l generalizing t with
  | nil => exact h
  | cons x l ih => exact ih (hf t x h)

/-- A loop whose accumulator carries the state at `π`. -/
theorem keeps_foldl_at {M : Nat} {α β : Type} {s : State} (π : β → State) {f : β → α → β} (l : List α) {b : β} (h : s.Keeps M (π b))
    (hf : ∀ u x, s.Keeps M (π u) → s.Keeps M (π (f u x))) : s.Keeps M (π (l.foldl f b)) := by
  induction l generalizing b with
  | nil => exact h
  | cons x l ih => exact ih (hf b x h)

theorem keeps_foldl_stage {M : Nat} {α : Type} {s : State} {f : StageSt → α → StageSt} (l : List α) {b : StageSt} (h : s.Keeps M b.w.st)
    (hf : ∀ u x, s.Keeps M u.w.st → s.Keeps M (f u x).w.st) : s.Keeps M (l.foldl f b).w.st :=
  keeps_foldl_at (fun z : StageSt => z.w.st) l h hf

theorem keeps_foldl_back {M : Nat} {α : Type} {s : State} {f : BackSt → α → BackSt} (l : List α) {b : BackSt} (h : s.Keeps M b.w.st)
    (hf : ∀ u x, s.Keeps M u.w.st → s.Keeps M (f u x).w.st) : s.Keeps M (l.foldl f b).w.st :=
  keeps_foldl_at (fun z : BackSt => z.w.st) l h hf

theorem keeps_foldl_fst_store {M : Nat} {α γ : Type} {s : State} {f : Store × γ → α → Store × γ} (l : List α) {b : Store × γ}
    (h : s.Keeps M b.1.st) (hf : ∀ u x, s.Keeps M u.1.st → s.Keeps M (f u x).1.st) : s.Keeps M (l.foldl f b).1.st :=
  keeps_foldl_at (fun z : Store × γ => z.1.st) l h hf

theorem keeps_foldl_third_fetch {M : Nat} {α γ δ : Type} {s : State} {f : γ × δ × Fetch → α → γ × δ × Fetch} (l : List α)
    {b : γ × δ × Fetch} (h : s.Keeps M b.2.2.st) (hf : ∀ u x, s.Keeps M u.2.2.st → s.Keeps M (f u x).2.2.st) :
    s.Keeps M (l.foldl f b).2.2.st := keeps_foldl_at (fun z : γ × δ × Fetch => z.2.2.st) l h hf

theorem keeps_foldl_fourth_fetch {M : Nat} {α γ δ ε : Type} {s : State} {f : γ × δ × ε × Fetch → α → γ × δ × ε × Fetch} (l : List α)
    {b : γ × δ × ε × Fetch} (h : s.Keeps M b.2.2.2.st) (hf : ∀ u x, s.Keeps M u.2.2.2.st → s.Keeps M (f u x).2.2.2.st) :
    s.Keeps M (l.foldl f b).2.2.2.st := keeps_foldl_at (fun z : γ × δ × ε × Fetch => z.2.2.2.st) l h hf

theorem keeps_foldl_stream {M : Nat} {α : Type} {s : State} {f : Stream → α → Stream} (l : List α) {b : Stream} (h : s.Keeps M b.f.st)
    (hf : ∀ u x, s.Keeps M u.f.st → s.Keeps M (f u x).f.st) : s.Keeps M (l.foldl f b).f.st :=
  keeps_foldl_at (fun z : Stream => z.f.st) l h hf

theorem keeps_foldl_fifth {M : Nat} {α γ δ ε ζ : Type} {s : State} {f : γ × δ × ε × ζ × State → α → γ × δ × ε × ζ × State} (l : List α)
    {b : γ × δ × ε × ζ × State} (h : s.Keeps M b.2.2.2.2) (hf : ∀ u x, s.Keeps M u.2.2.2.2 → s.Keeps M (f u x).2.2.2.2) :
    s.Keeps M (l.foldl f b).2.2.2.2 := keeps_foldl_at (fun z : γ × δ × ε × ζ × State => z.2.2.2.2) l h hf

/-- A loop that may stop with nothing. -/
theorem keeps_optfold {M : Nat} {α β : Type} {s : State} (π : β → State) {f : Option β → α → Option β} (l : List α) {o : Option β} {t : β}
    (e : l.foldl f o = some t) (h : ∀ u, o = some u → s.Keeps M (π u)) (hn : ∀ x, f none x = none)
    (hf : ∀ u x v, s.Keeps M (π u) → f (some u) x = some v → s.Keeps M (π v)) : s.Keeps M (π t) := by
  induction l generalizing o with
  | nil => exact h t e
  | cons x l ih =>
    refine ih e fun v hv => ?_
    cases o with
    | none => rw [hn] at hv; cases hv
    | some u => exact hf u x v (h u rfl) hv

/-! Results taken apart by a match. -/

theorem keeps_of_snd {M : Nat} {α : Type} {s t : State} {x : α × State} {a : α} (e : x = (a, t)) (h : s.Keeps M x.2) : s.Keeps M t := by subst e; exact h

theorem keeps_of_fst {M : Nat} {α : Type} {s t : State} {x : State × α} {a : α} (e : x = (t, a)) (h : s.Keeps M x.1) : s.Keeps M t := by subst e; exact h

theorem keeps_of_mid {M : Nat} {α β : Type} {s t : State} {x : α × State × β} {a : α} {b : β} (e : x = (a, t, b)) (h : s.Keeps M x.2.1) :
    s.Keeps M t := by subst e; exact h

theorem keeps_of_third {M : Nat} {α β : Type} {s t : State} {x : α × β × State} {a : α} {b : β} (e : x = (a, b, t)) (h : s.Keeps M x.2.2) :
    s.Keeps M t := by subst e; exact h

theorem keeps_of_snd_fetch {M : Nat} {α : Type} {s : State} {f : Fetch} {x : α × Fetch} {a : α} (e : x = (a, f)) (h : s.Keeps M x.2.st) :
    s.Keeps M f.st := by subst e; exact h

theorem keeps_of_third_fetch {M : Nat} {α β : Type} {s : State} {f : Fetch} {x : α × β × Fetch} {a : α} {b : β} (e : x = (a, b, f))
    (h : s.Keeps M x.2.2.st) : s.Keeps M f.st := by subst e; exact h

theorem keeps_forN {M : Nat} {s t : State} {f : State → Nat → State} (n : Nat) (h : s.Keeps M t)
    (hf : ∀ u x, s.Keeps M u → s.Keeps M (f u x)) : s.Keeps M (forN n f t) := keeps_foldl _ h hf

theorem keeps_forN_at {M : Nat} {β : Type} {s : State} (π : β → State) {f : β → Nat → β} (n : Nat) {b : β} (h : s.Keeps M (π b))
    (hf : ∀ u x, s.Keeps M (π u) → s.Keeps M (π (f u x))) : s.Keeps M (π (forN n f b)) := keeps_foldl_at π _ h hf

theorem keeps_forN_fetch {M : Nat} {s : State} {f : Fetch → Nat → Fetch} (n : Nat) {b : Fetch} (h : s.Keeps M b.st)
    (hf : ∀ u x, s.Keeps M u.st → s.Keeps M (f u x).st) : s.Keeps M (forN n f b).st := keeps_forN_at Fetch.st n h hf

theorem keeps_foldl_mid_fetch {M : Nat} {α γ δ : Type} {s : State} {f : γ × Fetch × δ → α → γ × Fetch × δ} (l : List α) {b : γ × Fetch × δ}
    (h : s.Keeps M b.2.1.st) (hf : ∀ u x, s.Keeps M u.2.1.st → s.Keeps M (f u x).2.1.st) : s.Keeps M (l.foldl f b).2.1.st :=
  keeps_foldl_at (fun z : γ × Fetch × δ => z.2.1.st) l h hf

theorem keeps_foldl_list {M : Nat} {α : Type} {s : State} {f : ExportList → α → ExportList} (l : List α) {b : ExportList} (h : s.Keeps M b.st)
    (hf : ∀ u x, s.Keeps M u.st → s.Keeps M (f u x).st) : s.Keeps M (l.foldl f b).st := keeps_foldl_at ExportList.st l h hf

theorem keeps_foldl_ver {M : Nat} {α : Type} {s : State} {f : VerSt → α → VerSt} (l : List α) {b : VerSt} (h : s.Keeps M b.w.st)
    (hf : ∀ u x, s.Keeps M u.w.st → s.Keeps M (f u x).w.st) : s.Keeps M (l.foldl f b).w.st := keeps_foldl_at (fun z : VerSt => z.w.st) l h hf

theorem keeps_foldl_fst {M : Nat} {α γ : Type} {s : State} {f : State × γ → α → State × γ} (l : List α) {b : State × γ} (h : s.Keeps M b.1)
    (hf : ∀ u x, s.Keeps M u.1 → s.Keeps M (f u x).1) : s.Keeps M (l.foldl f b).1 := keeps_foldl_at Prod.fst l h hf

theorem keeps_foldl_snd {M : Nat} {α γ : Type} {s : State} {f : γ × State → α → γ × State} (l : List α) {b : γ × State} (h : s.Keeps M b.2)
    (hf : ∀ u x, s.Keeps M u.2 → s.Keeps M (f u x).2) : s.Keeps M (l.foldl f b).2 := keeps_foldl_at Prod.snd l h hf

theorem keeps_foldl_mid {M : Nat} {α γ δ : Type} {s : State} {f : γ × State × δ → α → γ × State × δ} (l : List α) {b : γ × State × δ}
    (h : s.Keeps M b.2.1) (hf : ∀ u x, s.Keeps M u.2.1 → s.Keeps M (f u x).2.1) : s.Keeps M (l.foldl f b).2.1 :=
  keeps_foldl_at (fun z : γ × State × δ => z.2.1) l h hf

theorem keeps_foldl_third {M : Nat} {α γ δ : Type} {s : State} {f : γ × δ × State → α → γ × δ × State} (l : List α) {b : γ × δ × State}
    (h : s.Keeps M b.2.2) (hf : ∀ u x, s.Keeps M u.2.2 → s.Keeps M (f u x).2.2) : s.Keeps M (l.foldl f b).2.2 :=
  keeps_foldl_at (fun z : γ × δ × State => z.2.2) l h hf

theorem keeps_foldl_read {M : Nat} {α : Type} {s : State} {f : MemRd → α → MemRd} (l : List α) {b : MemRd} (h : s.Keeps M b.st)
    (hf : ∀ u x, s.Keeps M u.st → s.Keeps M (f u x).st) : s.Keeps M (l.foldl f b).st := keeps_foldl_at MemRd.st l h hf

theorem keeps_foldl_fetch {M : Nat} {α : Type} {s : State} {f : Fetch → α → Fetch} (l : List α) {b : Fetch} (h : s.Keeps M b.st)
    (hf : ∀ u x, s.Keeps M u.st → s.Keeps M (f u x).st) : s.Keeps M (l.foldl f b).st := keeps_foldl_at Fetch.st l h hf

theorem keeps_foldl_snd_fetch {M : Nat} {α γ : Type} {s : State} {f : γ × Fetch → α → γ × Fetch} (l : List α) {b : γ × Fetch}
    (h : s.Keeps M b.2.st) (hf : ∀ u x, s.Keeps M u.2.st → s.Keeps M (f u x).2.st) : s.Keeps M (l.foldl f b).2.st :=
  keeps_foldl_at (fun z : γ × Fetch => z.2.st) l h hf

theorem keeps_foldl_store {M : Nat} {α : Type} {s : State} {f : Store → α → Store} (l : List α) {b : Store} (h : s.Keeps M b.st)
    (hf : ∀ u x, s.Keeps M u.st → s.Keeps M (f u x).st) : s.Keeps M (l.foldl f b).st := keeps_foldl_at Store.st l h hf

theorem keeps_foldl_mem {M : Nat} {α : Type} {s t : State} {f : State → α → State} (l : List α) (h : s.Keeps M t)
    (hf : ∀ u x, x ∈ l → s.Keeps M u → s.Keeps M (f u x)) : s.Keeps M (l.foldl f t) := by
  induction l generalizing t with
  | nil => exact h
  | cons x l ih => exact ih (hf t x (List.mem_cons_self ..) h) fun u y hy => hf u y (List.mem_cons_of_mem _ hy)

/-! ### Registers -/

/-- Rebuilding a register file entry by entry gives a canonical one. -/
theorem canon_rebuild {α : Type} (a : α → Nat) (g : α → W64) (l : List α) {m : SMap W64} (h : Canon regReset m) :
    Canon regReset (l.foldl (fun m e => put regReset m (a e) (g e)) m) := by
  induction l generalizing m with
  | nil => exact h
  | cons x l ih => exact ih (canon_put _ h _ _)

/-- What a register reads once the register file is rebuilt entry by entry. -/
theorem find_rebuild (g : Nat → W64 → W64) (a : Nat) (l : List (Nat × W64)) (hl : Rising l) {m : SMap W64} (h : Rising m) :
    find regReset (l.foldl (fun m e => put regReset m e.1 (g e.1 e.2)) m) a =
      match find? l a with
      | some v => g a v
      | none => find regReset m a := by
  induction l generalizing m with
  | nil => rfl
  | cons e l ih =>
    obtain ⟨k, v⟩ := e
    obtain ⟨h1, h2⟩ := List.pairwise_cons.1 hl
    rw [List.foldl_cons, ih h2 (rising_put _ h _ _)]
    have hn : a ≤ k → find? l a = none := fun hk => by
      cases l with
      | nil => rfl
      | cons e t =>
        have := h1 e (List.mem_cons_self ..)
        simp only [find?]
        rw [if_neg (by simp at this; omega), if_pos (by simp at this; omega)]
    simp only [find?]
    by_cases e : a = k
    · subst e; simp [hn, find_put _ h]
    · simp only [e, if_false]
      by_cases hlt : a < k
      · rw [hn (by omega)]; simp [find_put _ h, e, hlt]
      · cases find? l a <;> simp [find_put _ h, e, hlt]

theorem canon_mapRegs (g : Nat → W64 → W64) (l : SMap W64) : Canon regReset (mapRegs g l) :=
  canon_rebuild (fun e : Nat × W64 => e.1) _ _ (canon_nil _)

/-- What a register reads once every value is changed. -/
theorem find_mapRegs (g : Nat → W64 → W64) (a : Nat) {l : SMap W64} (hl : Rising l) : find regReset (mapRegs g l) a =
    match find? l a with
    | some v => g a v
    | none => regReset a := find_rebuild g a l hl List.Pairwise.nil

theorem find_eq_find? (d : Nat → W64) (l : List (Nat × W64)) (a : Nat) : find d l a = (find? l a).getD (d a) := by
  induction l with
  | nil => rfl
  | cons e l ih => obtain ⟨k, v⟩ := e; simp only [find, find?]; repeat' split
                   all_goals first | rfl | exact ih

/-- A change of every register that leaves those outside some blocks alone. -/
theorem keeps_mapRegs {L M : Nat} {s t : State} (h : s.Keeps M t) (b : L ||| M = M) (g : Nat → W64 → W64)
    (e : ∀ a v, (∀ c : RegBlock, L.testBit c.idx = true → ¬ c.has a) → g a v = v) :
    s.Keeps M { t with regs := mapRegs g t.regs } :=
  h.updRegs b (fun _ => canon_mapRegs g _) (fun _ => (canon_mapRegs g _).1) fun r _ a ha => by
    rw [find_mapRegs g a r, find_eq_find? regReset t.regs]
    cases find? t.regs a with
    | none => rfl
    | some v => exact e a v ha

theorem State.wr_keeps {M : Nat} {s0 s : State} {a : Nat} {c : RegBlock} (i : c.has a) (b : 2 ^ c.idx ||| M = M) (h : s0.Keeps M s)
    (v : W64) : s0.Keeps M (s.wr a v) :=
  h.updRegs b (fun i => canon_put _ i _ _) (fun r => rising_put _ r _ _) fun r _ x hx => by
    have hn : x ≠ a := fun e => hx c (Nat.testBit_two_pow_self) (e ▸ i)
    simp [find_put _ r, hn]

theorem State.wr_keeps_any {M : Nat} {s0 s : State} (b : 1152921504606846976 ||| M = M) (h : s0.Keeps M s) (a : Nat) (v : W64) : s0.Keeps M (s.wr a v) :=
  h.updRegs b (fun i => canon_put _ i _ _) (fun r => rising_put _ r _ _) fun _ n => absurd n (by decide)

theorem State.setF_keeps {M : Nat} {s0 s : State} {f : RF} {c : RegBlock} (i : c.has f.addr) (b : 2 ^ c.idx ||| M = M)
    (h : s0.Keeps M s) (v : Nat) : s0.Keeps M (s.setF f v) := State.wr_keeps i b h _

theorem State.raise_keeps {M : Nat} {s0 s : State} {f : RF} {c : RegBlock} (i : c.has f.addr) (b : 2 ^ c.idx ||| M = M)
    (h : s0.Keeps M s) : s0.Keeps M (s.raise f) := State.wr_keeps i b h _

theorem State.bump_keeps {M : Nat} {s0 s : State} {f : RF} {c : RegBlock} (i : c.has f.addr) (b : 2 ^ c.idx ||| M = M)
    (h : s0.Keeps M s) (n : Nat) : s0.Keeps M (s.bump f n) := by
  unfold State.bump; split
  · exact h
  · exact State.setF_keeps i b h _

theorem State.incr_keeps {M : Nat} {s0 s : State} {f : RF} {c : RegBlock} (i : c.has f.addr) (b : 2 ^ c.idx ||| M = M)
    (h : s0.Keeps M s) (n : Nat) : s0.Keeps M (s.incr f n) := State.wr_keeps i b h _

/-- A field chosen by a condition. -/
theorem keeps_bump_ite {M : Nat} {s0 s : State} {c : Prop} [Decidable c] {f g : RF} {n : Nat} (h : s0.Keeps M (s.bump f n))
    (k : s0.Keeps M (s.bump g n)) : s0.Keeps M (s.bump (if c then f else g) n) := by split <;> assumption

theorem State.pass_keeps {M : Nat} {s0 s : State} (b : 17179873280 ||| M = M) (h : s0.Keeps M s) (d : Nat) : s0.Keeps M (s.pass d) :=
  h.trans ⟨fun i => ⟨i.regs, i.mem, i.hostMem, i.fltLog, i.memLog⟩, id, .refl _, rfl, Nat.le_add_right _ _, fun k hk => by
    cases k <;> first | exact absurd (bit_sub b hk) (by decide) | (first | rfl | (intro _; repeat' constructor) | constructor), fun _ _ _ _ => rfl⟩

/-! ### Logs -/

theorem State.fltAdd_keeps {M : Nat} {s0 s : State} (b : 140737488371712 ||| M = M) (h : s0.Keeps M s) (cls cause part owner fid : Nat) (follows : Bool)
    (detail : Nat) : s0.Keeps M (s.fltAdd cls cause part owner fid follows detail) := by
  unfold State.fltAdd
  split
  · refine State.raise_keeps Rg.FLT_IRQ_in (mask_sub b (by decide)) ?_
    refine h.upd (L := 16384) (mask_sub b (by decide)) (fun i => { i with fltLog := ?_ }) rfl rfl rfl rfl fun k hk => ?_
    · simp only [List.length_append, List.length_cons, List.length_nil]; omega
    · cases k <;> first | exact absurd hk (by decide) | (first | rfl | (intro _; repeat' constructor) | constructor)
  · exact State.raise_keeps Rg.FLT_LOG_STATUS_in (mask_sub b (by decide)) h

theorem State.memAdd_keeps {M : Nat} {s0 s : State} (b : 2251799813718016 ||| M = M) (h : s0.Keeps M s) (addr src cls tag : Nat) (sram : Bool) :
    s0.Keeps M (s.memAdd addr src cls tag sram) := by
  unfold State.memAdd
  split
  · rename_i hl
    extract_lets s1
    have h1 : s0.Keeps M s1 ∧ s1.memLog = s.memLog := by
      unfold s1; split
      · exact ⟨State.raise_keeps Rg.MEM_LOG_STATUS_in (mask_sub b (by decide)) h, rfl⟩
      · exact ⟨h, rfl⟩
    refine h1.1.upd (L := 32768) (mask_sub b (by decide)) (fun i => { i with memLog := ?_ }) rfl rfl rfl rfl fun k hk => ?_
    · rw [h1.2]; simp only [List.length_append, List.length_cons, List.length_nil]; omega
    · cases k <;> first | exact absurd hk (by decide) | (first | rfl | (intro _; repeat' constructor) | constructor)
  · exact State.raise_keeps Rg.MEM_LOG_STATUS_in (mask_sub b (by decide)) h

/-! ### Memory -/

/-- The cells of written bytes are canonical and lie within the bytes written. -/
theorem cellsOf_spec (a : Nat) (bs : Bytes) :
    Canon unwritten (cellsOf a bs) ∧ ∀ c ∈ cellsOf a bs, a ≤ c.1 ∧ c.1 < a + bs.length := by
  induction bs generalizing a with
  | nil => exact ⟨canon_nil _, by simp [cellsOf]⟩
  | cons b t ih =>
    obtain ⟨hc, hb⟩ := ih (a + 1)
    have hb' : ∀ c ∈ cellsOf (a + 1) t, a < c.1 ∧ c.1 < a + (t.length + 1) := fun c hc => by have := hb c hc; omega
    simp only [cellsOf, List.length_cons]
    split
    · exact ⟨hc, fun c hc => by have := hb' c hc; omega⟩
    · refine ⟨⟨List.pairwise_cons.2 ⟨fun c hc => (hb' c hc).1, hc.1⟩, fun c hm => ?_⟩, fun c hm => ?_⟩
      · rcases List.mem_cons.1 hm with rfl | hm
        · assumption
        · exact hc.2 c hm
      · rcases List.mem_cons.1 hm with rfl | hm
        · exact ⟨Nat.le_refl _, by omega⟩
        · have := hb' c hm; omega

/-- A write keeps the canonical form of a memory. -/
theorem canon_putBytes {m : List Host.Cell} (h : Canon unwritten m) (a : Nat) (bs : Bytes) : Canon unwritten (putBytes m a bs) := by
  obtain ⟨hc, hb⟩ := cellsOf_spec a bs
  have hl := canon_filter _ h fun c => decide (c.1 < a)
  have hr := canon_filter _ h fun c => decide (a + bs.length ≤ c.1)
  have hl' : ∀ c ∈ m.filter fun c => decide (c.1 < a), c.1 < a := fun c hm => by simpa using (List.mem_filter.1 hm).2
  have hr' : ∀ c ∈ m.filter fun c => decide (a + bs.length ≤ c.1), a + bs.length ≤ c.1 := fun c hm => by
    simpa using (List.mem_filter.1 hm).2
  refine ⟨?_, fun c hm => ?_⟩
  · unfold putBytes Rising
    rw [List.append_assoc, List.pairwise_append, List.pairwise_append]
    refine ⟨hl.1, ⟨hc.1, hr.1, fun x hx y hy => ?_⟩, fun x hx y hy => ?_⟩
    · have := (hb x hx).2; have := hr' y hy; omega
    · have h1 := hl' x hx
      rcases List.mem_append.1 hy with hy | hy
      · have := (hb y hy).1; omega
      · have := hr' y hy; omega
  · rcases List.mem_append.1 hm with hm | hm
    · rcases List.mem_append.1 hm with hm | hm
      · exact hl.2 c hm
      · exact hc.2 c hm
    · exact hr.2 c hm

theorem keeps_fuses {M : Nat} {s t : State} (b : 8 ||| M = M) (h : s.Keeps M t) (f : Fuses) (w : t.fuses.Within f) :
    s.Keeps M { t with fuses := f } :=
  h.trans ⟨fun i => ⟨i.regs, i.mem, i.hostMem, i.fltLog, i.memLog⟩, id, w, rfl, Nat.le_refl _, fun k hk => by
    have hk := bit_sub b hk
    cases k <;> first | exact absurd hk (by decide) | first | rfl | (intro _; repeat' constructor) | constructor, fun _ _ _ _ => rfl⟩

theorem keeps_hostMem {M : Nat} {s t : State} (b : 4 ||| M = M) (h : s.Keeps M t) (m : List Host.Cell)
    (c : Canon unwritten t.hostMem → Canon unwritten m) : s.Keeps M { t with hostMem := m } :=
  h.upd b (fun i => { i with hostMem := c i.hostMem }) rfl rfl rfl rfl fun k hk => by
    cases k <;> first | exact absurd hk (by decide) | first | rfl | (intro _; repeat' constructor) | constructor

theorem keeps_mem_ecc {M : Nat} {s t : State} (b : 8194 ||| M = M) (h : s.Keeps M t) (m : List Host.Cell) (e : EccSt)
    (c : Canon unwritten t.mem → Canon unwritten m) : s.Keeps M { t with mem := m, ecc := e } :=
  h.upd b (fun i => { i with mem := c i.mem }) rfl rfl rfl rfl fun k hk => by
    cases k <;> first | exact absurd hk (by decide) | first | rfl | (intro _; repeat' constructor) | constructor

theorem State.storeLine_keeps {M : Nat} {s0 s : State} (b : 8194 ||| M = M) (h : s0.Keeps M s) (l : Nat) (d : Bytes) (bad : Bool) :
    s0.Keeps M (s.storeLine l d bad) :=
  keeps_mem_ecc b h _ _ fun i => canon_putBytes i _ _

end Sys2Proof.Machine
end

