-- ==== Sys2Proof/Laws/KeepsOps.lean ====
section
/-!
SUPPORT. The operations of Machine/Ops.lean keep the relation of Laws/Keeps.lean.
-/
namespace Sys2Proof.Machine

theorem tick_keeps {s0 : State} {M : Nat} (hM : 17179873280 ||| M = M) {s : State} (hk : s0.Keeps M s) :
    s0.Keeps M (tick s) := by
  unfold tick
  repeat' first
    | with_reducible assumption | exact mask_sub hM (by decide) | with_reducible apply State.pass_keeps

theorem State.passTo_keeps {s0 : State} {M : Nat} (hM : 17179873280 ||| M = M) {s : State} (hk : s0.Keeps M s) (t : Nat) :
    s0.Keeps M (State.passTo s t) := by
  unfold State.passTo
  repeat' first
    | with_reducible assumption | exact mask_sub hM (by decide) | with_reducible apply State.pass_keeps

theorem State.freeNext_keeps {s0 : State} {M : Nat} (hM : 1 ||| M = M) {s : State} (hk : s0.Keeps M s) :
    s0.Keeps M (State.freeNext s) := by
  unfold State.freeNext
  repeat' first
    | with_reducible assumption | exact mask_sub hM (by decide) | simp only [keeps_free (mask_sub hM (by decide))]

theorem State.modCore_keeps {s0 : State} {M : Nat} (hM : 8388608 ||| M = M) {s : State} (hk : s0.Keeps M s) (c : Nat) (f : Core →
    Core) :
    s0.Keeps M (State.modCore s c f) := by
  unfold State.modCore
  repeat' first
    | with_reducible assumption | exact mask_sub hM (by decide) | simp only [keeps_cores (mask_sub hM (by decide))]

theorem State.modCluster_keeps {s0 : State} {M : Nat} (hM : 16777216 ||| M = M) {s : State} (hk : s0.Keeps M s) (k : Nat) (f :
    Cluster → Cluster) :
    s0.Keeps M (State.modCluster s k f) := by
  unfold State.modCluster
  repeat' first
    | with_reducible assumption | exact mask_sub hM (by decide) | simp only [keeps_clusters (mask_sub hM (by decide))]

theorem State.modCtl_keeps {s0 : State} {M : Nat} (hM : 1073741824 ||| M = M) {s : State} (hk : s0.Keeps M s) (n : Nat) (f :
    CtlCore → CtlCore) :
    s0.Keeps M (State.modCtl s n f) := by
  unfold State.modCtl
  repeat' first
    | with_reducible assumption | exact mask_sub hM (by decide) | simp only [keeps_ctl (mask_sub hM (by decide))]

theorem State.isolation_keeps {s0 : State} {M : Nat} (hM : 140737488371712 ||| M = M) {s : State} (hk : s0.Keeps M s) (part : Nat)
    (owner : Nat) (kind : Nat) (index : Nat) :
    s0.Keeps M (State.isolation s part owner kind index) := by
  unfold State.isolation
  repeat' first
    | with_reducible assumption | exact mask_sub hM (by decide) | with_reducible apply State.fltAdd_keeps

theorem State.modTask_keeps {s0 : State} {M : Nat} (hM : 1048576 ||| M = M) {s : State} (hk : s0.Keeps M s) (t : Nat) (f : Task →
    Task) :
    s0.Keeps M (State.modTask s t f) := by
  unfold State.modTask
  repeat' first
    | with_reducible assumption | exact mask_sub hM (by decide) | simp only [keeps_tasks (mask_sub hM (by decide))]

theorem State.taskStatus_keeps {s0 : State} {M : Nat} (hM : 1048576 ||| M = M) {s : State} (hk : s0.Keeps M s) (t : Nat) (st :
    Nat) (sub : Nat) :
    s0.Keeps M (State.taskStatus s t st sub) := by
  unfold State.taskStatus
  repeat' first
    | with_reducible assumption | exact mask_sub hM (by decide) | with_reducible apply State.modTask_keeps

end Sys2Proof.Machine
end

