-- ==== Sys2Proof/Laws/KeepsMem.lean ====
section
/-!
SUPPORT. The operations of Machine/Mem.lean keep the relation of Laws/Keeps.lean.
-/
namespace Sys2Proof.Machine

theorem State.sendMsg_keeps {s0 : State} {M : Nat} (hM : 65536 ||| M = M) {s : State} (hk : s0.Keeps M s) (vc : Nat) (m : Msg) :
    s0.Keeps M (State.sendMsg s vc m) := by
  unfold State.sendMsg
  repeat' first
    | with_reducible assumption | exact mask_sub hM (by decide) | simp only [keeps_larric (mask_sub hM (by decide))]

theorem State.issueRead_keeps {s0 : State} {M : Nat} (hM : 65536 ||| M = M) {s : State} (hk : s0.Keeps M s) (part : Nat) (h : Nat)
    (n : Nat) :
    s0.Keeps M (State.issueRead s part h n) := by
  unfold State.issueRead
  repeat' first
    | with_reducible assumption | exact mask_sub hM (by decide) | with_reducible apply State.sendMsg_keeps
    | simp only [keeps_larric (mask_sub hM (by decide))] | split

theorem State.noteLine_keeps {s0 : State} {M : Nat} (hM : 74450131340025856 ||| M = M) {s : State} (hk : s0.Keeps M s) (tag : Nat)
    (src : Nat) (l : Nat) (c : Nat) :
    s0.Keeps M (State.noteLine s tag src l c) := by
  unfold State.noteLine
  repeat' first
    | with_reducible assumption | exact mask_sub hM (by decide) | with_reducible apply keeps_bump_ite
    | with_reducible exact Rg.MEM_ERR_COUNT_CORRECTED_in | with_reducible exact Rg.CORE_SRAM_ECC_CORRECTED_in _
    | with_reducible exact Rg.MEM_CH_ECC_CORRECTED_in _ | with_reducible exact Rg.MEM_ERR_COUNT_UNCORR_in
    | with_reducible exact Rg.CORE_SRAM_ECC_UNCORR_in _ | with_reducible exact Rg.MEM_CH_ECC_UNCORR_in _
    | with_reducible exact Rg.MEM_ERR_COUNT_POISON_READ_in | with_reducible exact Rg.CORE_SRAM_ECC_POISON_READ_in _
    | with_reducible apply State.memAdd_keeps | with_reducible apply State.fltAdd_keeps | with_reducible apply State.bump_keeps
    | simp only [keeps_ecc (mask_sub hM (by decide))] | with_reducible apply keeps_ite

theorem State.settleLine_keeps {s0 : State} {M : Nat} (hM : 8192 ||| M = M) {s : State} (hk : s0.Keeps M s) (l : Nat) (bad : Bool) :
    s0.Keeps M (State.settleLine s l bad) := by
  unfold State.settleLine
  repeat' first
    | with_reducible assumption | exact mask_sub hM (by decide) | simp only [keeps_ecc (mask_sub hM (by decide))]

theorem State.modMemCtl_keeps {s0 : State} {M : Nat} (hM : 8192 ||| M = M) {s : State} (hk : s0.Keeps M s) (n : Nat) (f : MemCtl →
    MemCtl) :
    s0.Keeps M (State.modMemCtl s n f) := by
  unfold State.modMemCtl
  repeat' first
    | with_reducible assumption | exact mask_sub hM (by decide) | simp only [keeps_ecc (mask_sub hM (by decide))]

theorem slotCounter_in (n cls : Nat) : RegBlock.mem.has (slotCounter n cls).addr := by
  unfold slotCounter; repeat' split
  all_goals first | exact Rg.MEM_CH_SLOTS_READ_in _ | exact Rg.MEM_CH_SLOTS_WRITE_in _ | exact Rg.MEM_CH_SLOTS_REMOTE_in _

theorem State.addReq_keeps {s0 : State} {M : Nat} (hM : 2251799813693440 ||| M = M) {s : State} (hk : s0.Keeps M s) (tag : Nat)
    (cls : Nat) (l : Nat) (write : Bool) :
    s0.Keeps M (State.addReq s tag cls l write) := by
  unfold State.addReq
  repeat' first
    | with_reducible assumption | exact mask_sub hM (by decide) | exact slotCounter_in _ _
    | with_reducible apply State.modMemCtl_keeps | with_reducible apply State.bump_keeps | with_reducible apply keeps_ite

theorem readLineInto_keeps {s0 : State} {M : Nat} (hM : 74450131340025856 ||| M = M) (tag : Nat) (cls : Nat) {r : MemRd} (hk :
    s0.Keeps M r.st) (l : Nat) :
    s0.Keeps M (readLineInto tag cls r l).st := by
  unfold readLineInto
  repeat' first
    | with_reducible assumption | exact mask_sub hM (by decide) | with_reducible apply State.addReq_keeps
    | with_reducible apply State.noteLine_keeps

theorem State.ramRead_keeps {s0 : State} {M : Nat} (hM : 74450131340025856 ||| M = M) {s : State} (hk : s0.Keeps M s) (tag : Nat)
    (cls : Nat) (a : Nat) (n : Nat) :
    s0.Keeps M (State.ramRead s tag cls a n).st := by
  unfold State.ramRead
  repeat' first
    | with_reducible assumption | exact mask_sub hM (by decide) | with_reducible apply readLineInto_keeps
    | with_reducible refine keeps_foldl_read _ ?_ (fun u x hu => ?_)

theorem State.writeLine_keeps {s0 : State} {M : Nat} (hM : 74450131340025858 ||| M = M) {s : State} (hk : s0.Keeps M s) (tag :
    Nat) (cls : Nat) (a : Nat) (bs : Bytes) (bad : Bool) (l : Nat) :
    s0.Keeps M (State.writeLine s tag cls a bs bad l) := by
  unfold State.writeLine
  repeat' first
    | with_reducible assumption | exact mask_sub hM (by decide) | with_reducible exact Rg.MEM_CH_ECC_RMW_in _
    | with_reducible apply State.addReq_keeps | with_reducible apply State.storeLine_keeps
    | with_reducible apply State.noteLine_keeps | with_reducible apply State.bump_keeps | with_reducible apply keeps_ite

theorem State.ramWrite_keeps {s0 : State} {M : Nat} (hM : 74450131340025858 ||| M = M) {s : State} (hk : s0.Keeps M s) (tag : Nat)
    (cls : Nat) (a : Nat) (bs : Bytes) (bad : Bool) :
    s0.Keeps M (State.ramWrite s tag cls a bs bad) := by
  unfold State.ramWrite
  repeat' first
    | with_reducible assumption | exact mask_sub hM (by decide) | with_reducible apply State.writeLine_keeps
    | with_reducible refine keeps_foldl _ ?_ (fun u x hu => ?_)

theorem State.winRead_keeps {s0 : State} {M : Nat} (hM : 140737488437248 ||| M = M) {s : State} (hk : s0.Keeps M s) (tag : Nat) (a
    : Nat) (n : Nat) :
    s0.Keeps M (State.winRead s tag a n).st := by
  unfold State.winRead
  repeat' first
    | with_reducible assumption | exact mask_sub hM (by decide) | with_reducible apply State.issueRead_keeps
    | with_reducible apply State.fltAdd_keeps | with_reducible refine keeps_foldl _ ?_ (fun u x hu => ?_) | split

theorem State.winWrite_keeps {s0 : State} {M : Nat} (hM : 140737488437252 ||| M = M) {s : State} (hk : s0.Keeps M s) (tag : Nat)
    (vc : Nat) (a : Nat) (bs : Bytes) :
    s0.Keeps M (State.winWrite s tag vc a bs).st := by
  unfold State.winWrite
  dsimp only
  split
  · refine keeps_foldl _ ?_ fun u x hu => State.sendMsg_keeps (mask_sub hM (by decide)) hu _ _
    exact keeps_hostMem (mask_sub hM (by decide)) hk _ fun i => canon_putBytes i _ _
  · exact State.fltAdd_keeps (mask_sub hM (by decide)) hk _ _ _ _ _ _ _

theorem State.devRead_keeps {s0 : State} {M : Nat} (hM : 74450131340091392 ||| M = M) {s : State} (hk : s0.Keeps M s) (tag : Nat)
    (cls : Nat) (a : Nat) (n : Nat) :
    s0.Keeps M (State.devRead s tag cls a n).st := by
  unfold State.devRead
  repeat' first
    | with_reducible assumption | exact mask_sub hM (by decide) | with_reducible apply State.winRead_keeps
    | with_reducible apply State.ramRead_keeps | with_reducible apply State.isolation_keeps | split

theorem State.devWriteOn_keeps {s0 : State} {M : Nat} (hM : 74450131340091398 ||| M = M) {s : State} (hk : s0.Keeps M s) (tag :
    Nat) (cls : Nat) (vc : Nat) (a : Nat) (bs : Bytes) (bad : Bool) :
    s0.Keeps M (State.devWriteOn s tag cls vc a bs bad).st := by
  unfold State.devWriteOn
  repeat' first
    | with_reducible assumption | exact mask_sub hM (by decide) | with_reducible apply State.winWrite_keeps
    | with_reducible apply State.ramWrite_keeps | with_reducible apply State.isolation_keeps | split

theorem State.devWrite_keeps {s0 : State} {M : Nat} (hM : 74450131340091398 ||| M = M) {s : State} (hk : s0.Keeps M s) (tag : Nat)
    (cls : Nat) (a : Nat) (bs : Bytes) (bad : Bool) :
    s0.Keeps M (State.devWrite s tag cls a bs bad).st := by
  unfold State.devWrite
  repeat' first
    | with_reducible assumption | exact mask_sub hM (by decide) | with_reducible apply State.devWriteOn_keeps

theorem State.recWrite_keeps {s0 : State} {M : Nat} (hM : 74450131340091398 ||| M = M) {s : State} (hk : s0.Keeps M s) (tag : Nat)
    (a : Nat) (bs : Bytes) :
    s0.Keeps M (State.recWrite s tag a bs).st := by
  unfold State.recWrite
  repeat' first
    | with_reducible assumption | exact mask_sub hM (by decide) | with_reducible apply State.devWriteOn_keeps

end Sys2Proof.Machine
end

