-- ==== Sys2Proof/Laws/KeepsPages.lean ====
section
/-!
SUPPORT. The operations of Machine/Pages.lean keep the relation of Laws/Keeps.lean.
-/
namespace Sys2Proof.Machine

theorem State.noteLow_keeps {s0 : State} {M : Nat} (hM : 9007199254740992 ||| M = M) {s : State} (hk : s0.Keeps M s) (p : Nat) :
    s0.Keeps M (State.noteLow s p) := by
  unfold State.noteLow
  repeat' first
    | with_reducible assumption | exact mask_sub hM (by decide) | with_reducible exact Rg.LDG_PAGE_LOW_LOW_in _
    | with_reducible apply State.raise_keeps | with_reducible apply keeps_ite

theorem State.entryThrough_keeps {s0 : State} {M : Nat} (hM : 74450131340025856 ||| M = M) {s : State} (hk : s0.Keeps M s) (i :
    Nat) :
    s0.Keeps M (State.entryThrough s i) := by
  unfold State.entryThrough
  repeat' first
    | with_reducible assumption | exact mask_sub hM (by decide) | with_reducible exact Rg.MEM_CH_ECC_RMW_in _
    | with_reducible apply State.addReq_keeps | with_reducible apply State.settleLine_keeps
    | with_reducible apply State.noteLine_keeps | with_reducible apply State.bump_keeps

theorem State.putPage_keeps {s0 : State} {M : Nat} (hM : 218565388135489536 ||| M = M) {s : State} (hk : s0.Keeps M s) (i : Nat)
    (x : Page) :
    s0.Keeps M (State.putPage s i x) := by
  unfold State.putPage
  repeat' first
    | with_reducible assumption | exact mask_sub hM (by decide) | with_reducible exact Rg.CLU_OST_FREE_FREED_in _
    | with_reducible exact Rg.CLU_OST_FREE_RECLAIMED_in _ | with_reducible apply State.entryThrough_keeps
    | with_reducible apply State.bump_keeps | with_reducible refine State.modPart_pool ?_ ?_ _ _ (fun _ => rfl)
    | simp only [keeps_pages (mask_sub hM (by decide))] | with_reducible apply keeps_ite | split

theorem State.unref_keeps {s0 : State} {M : Nat} (hM : 218565388135489536 ||| M = M) {s : State} (hk : s0.Keeps M s) (i : Nat) :
    s0.Keeps M (State.unref s i) := by
  unfold State.unref
  repeat' first
    | with_reducible assumption | exact mask_sub hM (by decide) | with_reducible apply State.putPage_keeps

theorem State.unpin_keeps {s0 : State} {M : Nat} (hM : 218565388135489536 ||| M = M) {s : State} (hk : s0.Keeps M s) (i : Nat) :
    s0.Keeps M (State.unpin s i) := by
  unfold State.unpin
  repeat' first
    | with_reducible assumption | exact mask_sub hM (by decide) | with_reducible apply State.putPage_keeps
    | with_reducible apply keeps_ite

theorem State.expEnd_keeps {s0 : State} {M : Nat} (hM : 218565388135489536 ||| M = M) {s : State} (hk : s0.Keeps M s) (i : Nat) :
    s0.Keeps M (State.expEnd s i) := by
  unfold State.expEnd
  repeat' first
    | with_reducible assumption | exact mask_sub hM (by decide) | with_reducible apply State.putPage_keeps
    | with_reducible apply keeps_ite

theorem State.allocPage_keeps {s0 : State} {M : Nat} (hM : 227581280404037632 ||| M = M) {s : State} (hk : s0.Keeps M s) {p : Nat}
    {t : Nat} {fmt : Nat} {dim : Nat} {half : Nat} {a0} {t0} (e : State.allocPage s p t fmt dim half = some (a0, t0)) :
    s0.Keeps M t0 := by
  unfold State.allocPage at e
  repeat' first
    | with_reducible assumption | exact mask_sub hM (by decide) | with_reducible exact Rg.CLU_OST_ALLOC_ALLOCS_in _ | cases e
    | split at e | with_reducible apply State.putPage_keeps | with_reducible apply State.noteLow_keeps
    | with_reducible apply State.bump_keeps | with_reducible apply State.setPart_all

theorem State.entryRead_keeps {s0 : State} {M : Nat} (hM : 218565319432658944 ||| M = M) {s : State} (hk : s0.Keeps M s) (i : Nat) :
    s0.Keeps M (State.entryRead s i).2 := by
  unfold State.entryRead
  repeat' first
    | with_reducible assumption | exact mask_sub hM (by decide) | with_reducible exact Rg.CLU_OST_ECACHE_HITS_in _
    | with_reducible exact Rg.CLU_OST_ECACHE_MISSES_in _ | with_reducible apply State.ramRead_keeps
    | with_reducible apply State.modCluster_keeps | with_reducible apply State.bump_keeps | split | dsimp only

theorem State.wcInval_keeps {s0 : State} {M : Nat} (hM : 16777216 ||| M = M) {s : State} (hk : s0.Keeps M s) (p : Nat) (a : Nat)
    (n : Nat) :
    s0.Keeps M (State.wcInval s p a n) := by
  unfold State.wcInval
  repeat' first
    | with_reducible assumption | exact mask_sub hM (by decide) | simp only [keeps_clusters (mask_sub hM (by decide))]

theorem State.listHdr_keeps {s0 : State} {M : Nat} (hM : 74450131340091392 ||| M = M) {s : State} (hk : s0.Keeps M s) (p : Nat)
    (list : Nat) :
    s0.Keeps M (State.listHdr s p list).2 := by
  unfold State.listHdr
  repeat' first
    | with_reducible assumption | exact mask_sub hM (by decide) | with_reducible apply State.devRead_keeps | split | dsimp only

theorem State.slotRes_keeps {s0 : State} {M : Nat} (hM : 144255925564227584 ||| M = M) {s : State} (hk : s0.Keeps M s) (p : Nat)
    (t : Nat) (k : Nat) (v : Nat) :
    s0.Keeps M (State.slotRes s p t k v).2 := by
  unfold State.slotRes
  repeat' first
    | with_reducible assumption | exact mask_sub hM (by decide) | with_reducible exact Rg.CLU_OST_ERRORS_CHECK_FAIL_in _
    | with_reducible exact Rg.CLU_OST_ERRORS_BAD_SLOT_in _ | with_reducible apply State.isolation_keeps
    | with_reducible apply State.bump_keeps | split | dsimp only

theorem State.readSlot_keeps {s0 : State} {M : Nat} (hM : 218565319415947264 ||| M = M) {s : State} (hk : s0.Keeps M s) (p : Nat)
    (t : Nat) (k : Nat) (addr : Nat) :
    s0.Keeps M (State.readSlot s p t k addr).2 := by
  unfold State.readSlot
  repeat' first
    | with_reducible assumption | exact mask_sub hM (by decide) | with_reducible apply State.slotRes_keeps
    | with_reducible apply State.devRead_keeps | split | dsimp only

theorem State.walkHome_keeps {s0 : State} {M : Nat} (hM : 218565388152266752 ||| M = M) {s : State} (hk : s0.Keeps M s) (p : Nat)
    (t : Nat) (k : Nat) (v : Nat) :
    s0.Keeps M (State.walkHome s p t k v).2 := by
  unfold State.walkHome
  repeat' first
    | with_reducible assumption | exact mask_sub hM (by decide) | with_reducible exact Rg.CLU_OST_WALKS_FORWARDED_in _
    | with_reducible exact Rg.CLU_OST_COPY_PIN_WAIT_in _ | with_reducible apply State.slotRes_keeps
    | with_reducible apply State.entryRead_keeps | with_reducible apply State.putPage_keeps
    | with_reducible apply State.bump_keeps | with_reducible refine keeps_of_snd (by with_reducible assumption) ?_
    | with_reducible apply keeps_ite | split

theorem State.walk_keeps {s0 : State} {M : Nat} (hM : 218565388152332288 ||| M = M) {s : State} (hk : s0.Keeps M s) (p : Nat) (t :
    Nat) (core : Nat) (list : Nat) (layer : Nat) (head : Nat) (blk : Nat) (half : Nat) :
    s0.Keeps M (State.walk s p t core list layer head blk half).2 := by
  unfold State.walk
  repeat' first
    | with_reducible assumption | exact mask_sub hM (by decide) | with_reducible exact Rg.CLU_OST_WALKS_WALKS_in _
    | with_reducible apply State.walkHome_keeps | with_reducible apply State.slotRes_keeps
    | with_reducible apply State.listHdr_keeps | with_reducible apply State.devRead_keeps | with_reducible apply State.bump_keeps
    | with_reducible refine keeps_of_snd (by with_reducible assumption) ?_ | split | dsimp only

theorem State.tlbLoad_keeps {s0 : State} {M : Nat} (hM : 218565388136538112 ||| M = M) {s : State} (hk : s0.Keeps M s) (t : Nat)
    (part : Nat) (i : Nat) :
    s0.Keeps M (State.tlbLoad s t part i) := by
  unfold State.tlbLoad
  repeat' first
    | with_reducible assumption | exact mask_sub hM (by decide) | with_reducible apply State.unpin_keeps
    | with_reducible apply State.modTask_keeps | with_reducible apply keeps_ite | split

theorem State.tlbDrop_keeps {s0 : State} {M : Nat} (hM : 218565388136538112 ||| M = M) {s : State} (hk : s0.Keeps M s) (t : Nat)
    (part : Nat) :
    s0.Keeps M (State.tlbDrop s t part) := by
  unfold State.tlbDrop
  repeat' first
    | with_reducible assumption | exact mask_sub hM (by decide) | with_reducible apply State.unpin_keeps
    | with_reducible apply State.modTask_keeps | with_reducible refine keeps_foldl _ ?_ (fun u x hu => ?_) | split

theorem State.tlbDropAll_keeps {s0 : State} {M : Nat} (hM : 218565388136538112 ||| M = M) {s : State} (hk : s0.Keeps M s) (t :
    Nat) :
    s0.Keeps M (State.tlbDropAll s t) := by
  unfold State.tlbDropAll
  repeat' first
    | with_reducible assumption | exact mask_sub hM (by decide) | with_reducible apply State.unpin_keeps
    | with_reducible apply State.modTask_keeps | with_reducible refine keeps_foldl _ ?_ (fun u x hu => ?_) | split

theorem State.frameRead_keeps {s0 : State} {M : Nat} (hM : 74450131340025856 ||| M = M) {s : State} (hk : s0.Keeps M s) (p : Nat)
    (cls : Nat) (i : Nat) (off : Nat) (n : Nat) :
    s0.Keeps M (State.frameRead s p cls i off n).st := by
  unfold State.frameRead
  repeat' first
    | with_reducible assumption | exact mask_sub hM (by decide) | with_reducible apply State.ramRead_keeps

theorem State.frameWrite_keeps {s0 : State} {M : Nat} (hM : 74450131356803074 ||| M = M) {s : State} (hk : s0.Keeps M s) (p : Nat)
    (i : Nat) (off : Nat) (bs : Bytes) (bad : Bool) :
    s0.Keeps M (State.frameWrite s p i off bs bad) := by
  unfold State.frameWrite
  repeat' first
    | with_reducible assumption | exact mask_sub hM (by decide) | with_reducible apply State.wcInval_keeps
    | with_reducible apply State.ramWrite_keeps

theorem State.frameCopy_keeps {s0 : State} {M : Nat} (hM : 74450131356803074 ||| M = M) {s : State} (hk : s0.Keeps M s) (p : Nat)
    (src : Nat) (dst : Nat) (off : Nat) (n : Nat) :
    s0.Keeps M (State.frameCopy s p src dst off n) := by
  unfold State.frameCopy
  repeat' first
    | with_reducible assumption | exact mask_sub hM (by decide) | with_reducible apply State.frameWrite_keeps
    | with_reducible apply State.frameRead_keeps | with_reducible refine keeps_foldl _ ?_ (fun u x hu => ?_)

theorem State.tlbMove_keeps {s0 : State} {M : Nat} (hM : 218565388136538112 ||| M = M) {s : State} (hk : s0.Keeps M s) (t : Nat)
    (src : Nat) (i : Nat) :
    s0.Keeps M (State.tlbMove s t src i) := by
  unfold State.tlbMove
  repeat' first
    | with_reducible assumption | exact mask_sub hM (by decide) | with_reducible apply State.unpin_keeps
    | with_reducible apply State.putPage_keeps | with_reducible apply State.modTask_keeps
    | with_reducible refine keeps_foldl _ ?_ (fun u x hu => ?_)

theorem State.copyPage_keeps {s0 : State} {M : Nat} (hM : 227581280421863426 ||| M = M) {s : State} (hk : s0.Keeps M s) {p : Nat}
    {t : Nat} {src : Nat} {a0} {t0} (e : State.copyPage s p t src = some (a0, t0)) :
    s0.Keeps M t0 := by
  unfold State.copyPage at e
  obtain ⟨r, e1, e2⟩ := Option.map_eq_some_iff.1 e
  cases e2
  have h := State.allocPage_keeps (mask_sub hM (by decide)) hk (a0 := r.1) (t0 := r.2) e1
  exact State.tlbMove_keeps (mask_sub hM (by decide)) (State.bump_keeps (Rg.CLU_OST_COPY_in _) (mask_sub hM (by decide)) (State.putPage_keeps
    (mask_sub hM (by decide)) (State.frameCopy_keeps (mask_sub hM (by decide)) (State.frameCopy_keeps (mask_sub hM (by decide)) h _ _ _ _ _) _ _ _ _ _) _ _) _) _ _ _

theorem State.openWrite_keeps {s0 : State} {M : Nat} (hM : 227581280421928962 ||| M = M) {s : State} (hk : s0.Keeps M s) (p : Nat)
    (t : Nat) (k : Nat) (h : ListHdr) (list : Nat) (layer : Nat) (head : Nat) (blk : Nat) (half : Nat) (fmt : Nat) (dim : Nat) :
    s0.Keeps M (State.openWrite s p t k h list layer head blk half fmt dim).2 := by
  unfold State.openWrite
  repeat' first
    | with_reducible assumption | exact mask_sub hM (by decide) | with_reducible exact Rg.CLU_OST_ALLOC_QUOTA_FAIL_in _
    | with_reducible refine State.copyPage_keeps ?_ ?_ (by with_reducible assumption) | with_reducible apply State.readSlot_keeps
    | with_reducible apply State.entryRead_keeps
    | with_reducible refine State.allocPage_keeps ?_ ?_ (by with_reducible assumption) | with_reducible apply State.modTask_keeps
    | with_reducible apply State.bump_keeps | with_reducible refine keeps_of_snd (by with_reducible assumption) ?_ | split
    | dsimp only

theorem State.appendSlot_keeps {s0 : State} {M : Nat} (hM : 227581280421928962 ||| M = M) {s : State} (hk : s0.Keeps M s) (p :
    Nat) (t : Nat) (core : Nat) (list : Nat) (layer : Nat) (head : Nat) (pos : Nat) (half : Nat) (d : Nat) (fmt : Nat) (isV :
    Bool) (bs : Bytes) (kind : Nat) :
    s0.Keeps M (State.appendSlot s p t core list layer head pos half d fmt isV bs kind).2 := by
  unfold State.appendSlot
  repeat' first
    | with_reducible assumption | exact mask_sub hM (by decide) | with_reducible apply State.openWrite_keeps
    | with_reducible apply State.listHdr_keeps | with_reducible apply State.modTask_keeps
    | with_reducible refine keeps_of_snd (by with_reducible assumption) ?_ | split

theorem State.streamPages_keeps {s0 : State} {M : Nat} (hM : 218565319415947264 ||| M = M) {s : State} (hk : s0.Keeps M s) (p :
    Nat) (t : Nat) (k : Nat) (h : ListHdr) (list : Nat) (layer : Nat) (head : Nat) :
    s0.Keeps M (State.streamPages s p t k h list layer head).2 := by
  unfold State.streamPages
  repeat' first
    | with_reducible assumption | exact mask_sub hM (by decide) | with_reducible apply State.readSlot_keeps
    | with_reducible refine keeps_foldl_snd _ ?_ (fun u x hu => ?_)
    | with_reducible refine keeps_of_snd (by with_reducible assumption) ?_ | split

theorem State.zeroFill_keeps {s0 : State} {M : Nat} (hM : 227581280421928962 ||| M = M) {s : State} (hk : s0.Keeps M s) {p : Nat}
    {t : Nat} {k : Nat} {h : ListHdr} {list : Nat} {layer : Nat} {head : Nat} {t0} (e : State.zeroFill s p t k h list layer head =
    some t0) :
    s0.Keeps M t0 := by
  unfold State.zeroFill at e
  split at e
  · cases e; exact hk
  · dsimp only at e
    split at e
    · cases e; exact hk
    · refine keeps_optfold id _ e (fun u hu => ?_) (fun _ => rfl) (fun u x v hu hv => ?_)
      · cases hu; exact State.streamPages_keeps (mask_sub hM (by decide)) hk _ _ _ _ _ _ _
      · dsimp only [id] at hv hu ⊢
        split at hv
        · cases hv; exact hu
        · split at hv
          · cases hv
            refine State.bump_keeps (Rg.CLU_OST_COPY_in _) (mask_sub hM (by decide)) (State.modTask_keeps (mask_sub hM (by decide)) (keeps_of_snd ‹_› (State.openWrite_keeps (mask_sub hM (by decide)) hu _ _ _ _ _ _ _ _ _ _ _)) _ _) _
          · cases hv

theorem State.recopy_keeps {s0 : State} {M : Nat} (hM : 227581280421863426 ||| M = M) {s : State} (hk : s0.Keeps M s) {p : Nat} {t
    : Nat} {w : PageWrite} {a0} {t0} (e : State.recopy s p t w = some (a0, t0)) :
    s0.Keeps M t0 := by
  unfold State.recopy at e
  split at e
  · cases e; exact hk
  · obtain ⟨r, e1, e2⟩ := Option.map_eq_some_iff.1 e
    cases e2
    exact State.copyPage_keeps (mask_sub hM (by decide)) hk (a0 := r.1) (t0 := r.2) e1

theorem State.commitBlock_keeps {s0 : State} {M : Nat} (hM : 218565388152266754 ||| M = M) {s : State} (hk : s0.Keeps M s) (p :
    Nat) (w : PageWrite) :
    s0.Keeps M (State.commitBlock s p w) := by
  unfold State.commitBlock
  repeat' first
    | with_reducible assumption | exact mask_sub hM (by decide) | with_reducible apply State.frameWrite_keeps
    | with_reducible apply State.putPage_keeps | with_reducible refine keeps_foldl _ ?_ (fun u x hu => ?_)
    | with_reducible apply keeps_ite

theorem State.freeNew_keeps {s0 : State} {M : Nat} (hM : 218565388135489536 ||| M = M) {s : State} (hk : s0.Keeps M s) (i : Nat) :
    s0.Keeps M (State.freeNew s i) := by
  unfold State.freeNew
  repeat' first
    | with_reducible assumption | exact mask_sub hM (by decide) | with_reducible apply State.putPage_keeps

theorem State.commitWrite_keeps {s0 : State} {M : Nat} (hM : 218565388152332294 ||| M = M) {s : State} (hk : s0.Keeps M s) (p :
    Nat) (t : Nat) (k : Nat) (h : ListHdr) (w : PageWrite) :
    s0.Keeps M (State.commitWrite s p t k h w) := by
  unfold State.commitWrite
  repeat' first
    | with_reducible assumption | exact mask_sub hM (by decide) | with_reducible exact Rg.CLU_OST_ALLOC_ALLOC_RACE_in _
    | with_reducible apply State.freeNew_keeps | with_reducible apply State.commitBlock_keeps
    | with_reducible apply State.readSlot_keeps | with_reducible apply State.unref_keeps
    | with_reducible apply State.devWrite_keeps | with_reducible apply State.bump_keeps | with_reducible apply keeps_ite | split

theorem State.addScore_keeps {s0 : State} {M : Nat} (hM : 218565388135489536 ||| M = M) {s : State} (hk : s0.Keeps M s) (i : Nat)
    (sum : Nat) :
    s0.Keeps M (State.addScore s i sum) := by
  unfold State.addScore
  repeat' first
    | with_reducible assumption | exact mask_sub hM (by decide) | with_reducible apply State.putPage_keeps
    | with_reducible apply keeps_ite

theorem State.addScores_keeps {s0 : State} {M : Nat} (hM : 218565388135489537 ||| M = M) {s : State} (hk : s0.Keeps M s) (xs :
    List (Nat × Nat)) :
    s0.Keeps M (State.addScores s xs) := by
  unfold State.addScores
  repeat' first
    | with_reducible assumption | exact mask_sub hM (by decide) | with_reducible apply State.addScore_keeps
    | with_reducible apply State.freeNext_keeps | with_reducible refine keeps_foldl _ ?_ (fun u x hu => ?_)

theorem State.dropSlot_keeps {s0 : State} {M : Nat} (hM : 218565388135555078 ||| M = M) {s : State} (hk : s0.Keeps M s) (p : Nat)
    (addr : Nat) (i : Nat) :
    s0.Keeps M (State.dropSlot s p addr i) := by
  unfold State.dropSlot
  repeat' first
    | with_reducible assumption | exact mask_sub hM (by decide) | with_reducible apply State.unref_keeps
    | with_reducible apply State.devWrite_keeps

theorem State.truncStream_keeps {s0 : State} {M : Nat} (hM : 227581280420880390 ||| M = M) {s : State} (hk : s0.Keeps M s) {p :
    Nat} {t : Nat} {k : Nat} {h : ListHdr} {m : StreamMark} {cut : Nat} {t0} (e : State.truncStream s p t k h m cut = some t0) :
    s0.Keeps M t0 := by
  unfold State.truncStream at e
  split at e
  refine keeps_optfold id _ e (fun u hu => ?_) (fun _ => rfl) (fun u x v hu hv => ?_)
  · cases hu; exact keeps_of_snd ‹_› (State.streamPages_keeps (mask_sub hM (by decide)) hk _ _ _ _ _ _ _)
  · dsimp only [id] at hv hu ⊢
    repeat' first
      | with_reducible assumption | exact mask_sub hM (by decide) | exact Rg.CLU_OST_COPY_in _ | cases hv | split at hv
      | with_reducible apply State.bump_keeps | with_reducible apply State.unref_keeps | with_reducible apply State.dropSlot_keeps
      | with_reducible apply State.devWrite_keeps | with_reducible apply State.putPage_keeps
      | with_reducible apply State.frameCopy_keeps
      | with_reducible refine State.allocPage_keeps ?_ ?_ (by with_reducible assumption)

theorem State.evictLoop_keeps {s0 : State} {M : Nat} (hM : 218565388135555078 ||| M = M) (p : Nat) (h : ListHdr) (m : StreamMark)
    (n : Nat) (l : List (Nat × List (Nat × Nat)))
    {s : State} (hk : s0.Keeps M s) : s0.Keeps M (State.evictLoop p h m n l s).2.2 := by
  induction n generalizing l s with
  | zero => exact hk
  | succ n ih =>
    rw [State.evictLoop]
    repeat' first
      | with_reducible assumption | exact mask_sub hM (by decide) | with_reducible apply ih
      | with_reducible refine keeps_foldl _ ?_ (fun u x hu => ?_) | with_reducible apply State.dropSlot_keeps | split

theorem State.evictStream_keeps {s0 : State} {M : Nat} (hM : 218565388135555078 ||| M = M) {s : State} (hk : s0.Keeps M s) (p :
    Nat) (t : Nat) (k : Nat) (core : Nat) (h : ListHdr) (m : StreamMark) :
    s0.Keeps M (State.evictStream s p t k core h m) := by
  unfold State.evictStream
  repeat' first
    | with_reducible assumption | exact mask_sub hM (by decide) | with_reducible exact Rg.CORE_ATTN_EVICT_EVICTED_in _
    | with_reducible exact Rg.CORE_ATTN_EVICT_EVICT_NONE_in _ | with_reducible apply State.evictLoop_keeps
    | with_reducible apply State.streamPages_keeps | with_reducible apply State.bump_keeps | with_reducible apply keeps_ite

theorem State.undoPages_keeps {s0 : State} {M : Nat} (hM : 218565388136538112 ||| M = M) {s : State} (hk : s0.Keeps M s) (t : Nat) :
    s0.Keeps M (State.undoPages s t) := by
  unfold State.undoPages
  repeat' first
    | with_reducible assumption | exact mask_sub hM (by decide) | with_reducible apply State.freeNew_keeps
    | with_reducible apply State.modTask_keeps | with_reducible refine keeps_foldl _ ?_ (fun u x hu => ?_)
    | with_reducible apply keeps_ite | split

theorem State.commitPages_keeps {s0 : State} {M : Nat} (hM : 227581280421928967 ||| M = M) {s : State} (hk : s0.Keeps M s) {t :
    Nat} {core : Nat} {t0} (e : State.commitPages s t core = some t0) :
    s0.Keeps M t0 := by
  unfold State.commitPages at e
  split at e
  · cases e; exact hk
  · rename_i k _
    dsimp only at e
    obtain ⟨u, e2, rfl⟩ := Option.map_eq_some_iff.1 e
    refine State.modTask_keeps (mask_sub hM (by decide)) (keeps_foldl _ ?_ fun u x hu => State.evictStream_keeps (mask_sub hM (by decide)) hu _ _ _ _ _ _) _ _
    clear e
    obtain ⟨c, hc, e⟩ := Option.bind_eq_some_iff.1 e2
    refine keeps_optfold id _ e (fun v hv => ?_) (fun x => ?_) (fun u x v hu hv => ?_)
    · cases hv
      refine State.addScores_keeps (mask_sub hM (by decide)) (keeps_foldl _ ?_ fun u x hu => State.commitWrite_keeps (mask_sub hM (by decide)) hu _ _ _ _ _) _
      refine keeps_optfold Prod.snd _ hc (fun v hv => ?_) (fun x => rfl) (fun u x v hu hv => ?_)
      · obtain ⟨w, hw, rfl⟩ := Option.map_eq_some_iff.1 hv
        refine keeps_optfold id _ hw (fun u hu => by cases hu; exact hk) (fun _ => rfl) (fun u x v hu hv => ?_)
        dsimp only [id] at hv hu ⊢
        split at hv
        · exact State.zeroFill_keeps (mask_sub hM (by decide)) (keeps_of_snd ‹_› (State.listHdr_keeps (mask_sub hM (by decide)) hu _ _)) hv
        · cases hv; exact keeps_of_snd ‹_› (State.listHdr_keeps (mask_sub hM (by decide)) hu _ _)
      · obtain ⟨w, hw, rfl⟩ := Option.map_eq_some_iff.1 hv
        exact State.recopy_keeps (mask_sub hM (by decide)) (a0 := w.1) (t0 := w.2) hu hw
    · cases x.cutAt <;> rfl
    · dsimp only [id] at hv hu ⊢
      split at hv
      · rename_i h1 _; cases h1; exact State.truncStream_keeps (mask_sub hM (by decide)) hu hv
      · cases hv; exact hu

end Sys2Proof.Machine
end

