-- ==== Sys2Proof/Laws/KeepsCoach.lean ====
section
/-!
SUPPORT. The operations of Machine/Coach.lean keep the relation of Laws/Keeps.lean.
-/
namespace Sys2Proof.Machine

theorem State.modPort_keeps {s0 : State} {M : Nat} (hM : 536870912 ||| M = M) {s : State} (hk : s0.Keeps M s) (n : Nat) (f :
    CoachPort → CoachPort) :
    s0.Keeps M (State.modPort s n f) := by
  unfold State.modPort
  repeat' first
    | with_reducible assumption | exact mask_sub hM (by decide) | simp only [keeps_coach (mask_sub hM (by decide))]

theorem State.queueCtrl_keeps {s0 : State} {M : Nat} (hM : 536870912 ||| M = M) {s : State} (hk : s0.Keeps M s) (n : Nat) (f :
    Frame) :
    s0.Keeps M (State.queueCtrl s n f) := by
  unfold State.queueCtrl
  repeat' first
    | with_reducible assumption | exact mask_sub hM (by decide) | with_reducible apply State.modPort_keeps

theorem State.queueAbort_keeps {s0 : State} {M : Nat} (hM : 536870912 ||| M = M) {s : State} (hk : s0.Keeps M s) (n : Nat) (f :
    Frame) :
    s0.Keeps M (State.queueAbort s n f) := by
  unfold State.queueAbort
  repeat' first
    | with_reducible assumption | exact mask_sub hM (by decide) | with_reducible apply State.modPort_keeps

theorem State.queueData_keeps {s0 : State} {M : Nat} (hM : 536870912 ||| M = M) {s : State} (hk : s0.Keeps M s) (n : Nat) (i :
    Nat) (f : Frame) :
    s0.Keeps M (State.queueData s n i f) := by
  unfold State.queueData
  repeat' first
    | with_reducible assumption | exact mask_sub hM (by decide) | with_reducible apply State.modPort_keeps

theorem State.setTx_keeps {s0 : State} {M : Nat} (hM : 536870912 ||| M = M) {s : State} (hk : s0.Keeps M s) (i : Nat) (f : Option
    TxFlow) :
    s0.Keeps M (State.setTx s i f) := by
  unfold State.setTx
  repeat' first
    | with_reducible assumption | exact mask_sub hM (by decide) | simp only [keeps_coach (mask_sub hM (by decide))] | split

theorem State.modTx_keeps {s0 : State} {M : Nat} (hM : 536870912 ||| M = M) {s : State} (hk : s0.Keeps M s) (i : Nat) (f : TxFlow
    → TxFlow) :
    s0.Keeps M (State.modTx s i f) := by
  unfold State.modTx
  repeat' first
    | with_reducible assumption | exact mask_sub hM (by decide) | with_reducible apply State.setTx_keeps | split

theorem State.setRx_keeps {s0 : State} {M : Nat} (hM : 536870912 ||| M = M) {s : State} (hk : s0.Keeps M s) (i : Nat) (f : Option
    RxFlow) :
    s0.Keeps M (State.setRx s i f) := by
  unfold State.setRx
  repeat' first
    | with_reducible assumption | exact mask_sub hM (by decide) | simp only [keeps_coach (mask_sub hM (by decide))] | split

theorem State.roomForFlow_keeps {s0 : State} {M : Nat} (hM : 536870912 ||| M = M) {s : State} (hk : s0.Keeps M s) {t0} (e :
    State.roomForFlow s = some t0) :
    s0.Keeps M t0 := by
  unfold State.roomForFlow at e
  repeat' first
    | with_reducible assumption | exact mask_sub hM (by decide) | cases e | split at e | with_reducible apply State.setRx_keeps
    | with_reducible apply State.setTx_keeps

theorem State.openFlow_keeps {s0 : State} {M : Nat} (hM : 536870912 ||| M = M) {s : State} (hk : s0.Keeps M s) (p : Nat) (d : Nat)
    (dp : Nat) (kind : Nat) (exp : Option Nat) :
    s0.Keeps M (State.openFlow s p d dp kind exp).2 := by
  unfold State.openFlow
  repeat' first
    | with_reducible assumption | exact mask_sub hM (by decide)
    | with_reducible refine State.roomForFlow_keeps ?_ ?_ (by with_reducible assumption) | with_reducible apply State.setTx_keeps
    | with_reducible apply State.queueCtrl_keeps | simp only [keeps_coach (mask_sub hM (by decide))] | split

theorem State.jobFlow_keeps {s0 : State} {M : Nat} (hM : 536870912 ||| M = M) {s : State} (hk : s0.Keeps M s) (p : Nat) (d : Nat)
    (dp : Nat) :
    s0.Keeps M (State.jobFlow s p d dp).2 := by
  unfold State.jobFlow
  repeat' first
    | with_reducible assumption | exact mask_sub hM (by decide) | with_reducible apply State.openFlow_keeps | split

theorem State.pumpFlow_keeps {s0 : State} {M : Nat} (hM : 536870912 ||| M = M) {s : State} (hk : s0.Keeps M s) (i : Nat) :
    s0.Keeps M (State.pumpFlow s i) := by
  unfold State.pumpFlow
  repeat' first
    | with_reducible assumption | exact mask_sub hM (by decide) | with_reducible apply State.modTx_keeps
    | with_reducible apply State.queueData_keeps | with_reducible refine keeps_foldl _ ?_ (fun u x hu => ?_)
    | with_reducible apply keeps_ite | split

theorem State.flowSend_keeps {s0 : State} {M : Nat} (hM : 536870912 ||| M = M) {s : State} (hk : s0.Keeps M s) (i : Nat) (op :
    Nat) (ctr : Option Nat) (parts : List (Nat × Bytes)) :
    s0.Keeps M (State.flowSend s i op ctr parts) := by
  unfold State.flowSend
  repeat' first
    | with_reducible assumption | exact mask_sub hM (by decide) | with_reducible apply State.pumpFlow_keeps
    | with_reducible apply State.setTx_keeps | split

theorem State.awaitFlow_keeps {s0 : State} {M : Nat} (hM : 537919488 ||| M = M) {s : State} (hk : s0.Keeps M s) (t : Nat) (i :
    Nat) :
    s0.Keeps M (State.awaitFlow s t i) := by
  unfold State.awaitFlow
  repeat' first
    | with_reducible assumption | exact mask_sub hM (by decide) | with_reducible apply State.modTx_keeps
    | with_reducible apply State.modTask_keeps

theorem State.sendAck_keeps {s0 : State} {M : Nat} (hM : 536870912 ||| M = M) {s : State} (hk : s0.Keeps M s) (i : Nat) :
    s0.Keeps M (State.sendAck s i) := by
  unfold State.sendAck
  repeat' first
    | with_reducible assumption | exact mask_sub hM (by decide) | with_reducible apply State.setRx_keeps
    | with_reducible apply State.queueCtrl_keeps | split

theorem State.setCtr_keeps {s0 : State} {M : Nat} (hM : 536870912 ||| M = M) {s : State} (hk : s0.Keeps M s) (key : Nat) (n : Nat) :
    s0.Keeps M (State.setCtr s key n) := by
  unfold State.setCtr
  repeat' first
    | with_reducible assumption | exact mask_sub hM (by decide) | simp only [keeps_coach (mask_sub hM (by decide))]

theorem State.settleWaits_keeps {s0 : State} {M : Nat} (hM : 537919488 ||| M = M) (key n : Nat) {s : State} (hk : s0.Keeps M s) :
    s0.Keeps M (State.settleWaits key n s) := by
  induction n generalizing s with
  | zero => exact hk
  | succ n ih =>
    rw [State.settleWaits]
    repeat' first
      | with_reducible assumption | exact mask_sub hM (by decide) | with_reducible apply ih
      | with_reducible apply State.modTask_keeps | with_reducible apply State.setCtr_keeps
      | simp only [keeps_coach (mask_sub hM (by decide))] | split

theorem State.triggerUp_keeps {s0 : State} {M : Nat} (hM : 537919488 ||| M = M) {s : State} (hk : s0.Keeps M s) (p : Nat) (c :
    Nat) :
    s0.Keeps M (State.triggerUp s p c) := by
  unfold State.triggerUp
  repeat' first
    | with_reducible assumption | exact mask_sub hM (by decide) | with_reducible apply State.settleWaits_keeps
    | with_reducible apply State.setCtr_keeps

theorem State.waitOn_keeps {s0 : State} {M : Nat} (hM : 537919488 ||| M = M) {s : State} (hk : s0.Keeps M s) (p : Nat) (c : Nat)
    (t : Nat) (n : Nat) :
    s0.Keeps M (State.waitOn s p c t n) := by
  unfold State.waitOn
  repeat' first
    | with_reducible assumption | exact mask_sub hM (by decide) | with_reducible apply State.settleWaits_keeps
    | with_reducible apply State.modTask_keeps | simp only [keeps_coach (mask_sub hM (by decide))]
    | with_reducible apply keeps_ite

theorem State.abortTo_keeps {s0 : State} {M : Nat} (hM : 536870912 ||| M = M) {s : State} (hk : s0.Keeps M s) (p : Nat) (d : Nat)
    (dp : Nat) (pay : Bytes) :
    s0.Keeps M (State.abortTo s p d dp pay) := by
  unfold State.abortTo
  repeat' first
    | with_reducible assumption | exact mask_sub hM (by decide) | with_reducible apply State.queueAbort_keeps
    | simp only [keeps_coach (mask_sub hM (by decide))] | split

theorem State.sendAborts_keeps {s0 : State} {M : Nat} (hM : 536870912 ||| M = M) {s : State} (hk : s0.Keeps M s) (p : Nat) (cause
    : Nat) :
    s0.Keeps M (State.sendAborts s p cause) := by
  unfold State.sendAborts
  repeat' first
    | with_reducible assumption | exact mask_sub hM (by decide) | with_reducible apply State.abortTo_keeps
    | with_reducible refine keeps_foldl _ ?_ (fun u x hu => ?_)

theorem State.countEnd_keeps {s0 : State} {M : Nat} (hM : 1125899906842624 ||| M = M) {s : State} (hk : s0.Keeps M s) (status :
    Nat) :
    s0.Keeps M (State.countEnd s status) := by
  unfold State.countEnd
  repeat' first
    | with_reducible assumption | exact mask_sub hM (by decide) | with_reducible exact Rg.CCH_EXPORT_END_COMPLETE_in
    | with_reducible exact Rg.CCH_EXPORT_END_CANCELLED_in | with_reducible exact Rg.CCH_EXPORT_END_ABORTED_in
    | with_reducible apply State.bump_keeps | with_reducible apply keeps_ite

theorem State.sendEnd_keeps {s0 : State} {M : Nat} (hM : 1125900443713536 ||| M = M) {s : State} (hk : s0.Keeps M s) (i : Nat)
    (req : Nat) (pages : Nat) (status : Nat) :
    s0.Keeps M (State.sendEnd s i req pages status) := by
  unfold State.sendEnd
  repeat' first
    | with_reducible assumption | exact mask_sub hM (by decide) | with_reducible apply State.countEnd_keeps
    | with_reducible apply State.flowSend_keeps | with_reducible apply State.queueData_keeps | with_reducible apply keeps_ite
    | split

theorem State.abortExports_keeps {s0 : State} {M : Nat} (hM : 219691288579203072 ||| M = M) {s : State} (hk : s0.Keeps M s) (p :
    Nat) :
    s0.Keeps M (State.abortExports s p) := by
  unfold State.abortExports
  repeat' first
    | with_reducible assumption | exact mask_sub hM (by decide) | with_reducible apply State.sendEnd_keeps
    | with_reducible apply State.setTx_keeps | with_reducible apply State.expEnd_keeps
    | with_reducible refine keeps_foldl _ ?_ (fun u x hu => ?_) | simp only [keeps_coach (mask_sub hM (by decide))]

end Sys2Proof.Machine
end

