-- ==== Sys2Proof/Laws/KeepsChecks.lean ====
section
/-!
SUPPORT. The operations of Machine/Checks.lean keep the relation of Laws/Keeps.lean.
-/
namespace Sys2Proof.Machine

theorem State.modGraph_keeps {s0 : State} {M : Nat} (hM : 274877906944 ||| M = M) {s : State} (hk : s0.Keeps M s) (p : Nat) (tag :
    Nat) (f : Graph → Graph) :
    s0.Keeps M (State.modGraph s p tag f) := by
  unfold State.modGraph
  repeat' first
    | with_reducible assumption | exact mask_sub hM (by decide)
    | with_reducible refine State.modPart_graphs ?_ ?_ _ _ (fun _ => rfl)

theorem State.blk_keeps {s0 : State} {M : Nat} (hM : 74450131340091392 ||| M = M) {s : State} (hk : s0.Keeps M s) (p : Nat) (a :
    Nat) (n : Nat) :
    s0.Keeps M (State.blk s p a n).2 := by
  unfold State.blk
  repeat' first
    | with_reducible assumption | exact mask_sub hM (by decide) | with_reducible apply State.devRead_keeps

theorem State.readStages_keeps {s0 : State} {M : Nat} (hM : 74450131340091392 ||| M = M) {s : State} (hk : s0.Keeps M s) (p : Nat)
    (a : Nat) :
    s0.Keeps M (State.readStages s p a).2 := by
  unfold State.readStages
  repeat' first
    | with_reducible assumption | exact mask_sub hM (by decide) | with_reducible apply State.blk_keeps
    | with_reducible refine keeps_foldl_snd _ ?_ (fun u x hu => ?_)
    | with_reducible refine keeps_of_snd (by with_reducible assumption) ?_ | split

theorem State.readAttn_keeps {s0 : State} {M : Nat} (hM : 74450131340091392 ||| M = M) {s : State} (hk : s0.Keeps M s) (p : Nat)
    (g : Graph) (d : Bytes) (rows : Nat) :
    s0.Keeps M (State.readAttn s p g d rows).2 := by
  unfold State.readAttn
  repeat' first
    | with_reducible assumption | exact mask_sub hM (by decide) | with_reducible apply State.blk_keeps
    | with_reducible refine keeps_of_snd (by with_reducible assumption) ?_ | split | dsimp only

theorem State.nodeStart_keeps {s0 : State} {M : Nat} (hM : 74450131340091392 ||| M = M) {s : State} (hk : s0.Keeps M s) (p : Nat)
    (g : Graph) (rows : Nat) (n : Nat) :
    s0.Keeps M (State.nodeStart s p g rows n).2 := by
  unfold State.nodeStart
  repeat' first
    | with_reducible assumption | exact mask_sub hM (by decide) | with_reducible apply State.readAttn_keeps
    | with_reducible apply State.readStages_keeps | with_reducible apply State.blk_keeps
    | with_reducible refine keeps_of_snd (by with_reducible assumption) ?_ | split | dsimp only

theorem State.startChecks_keeps {s0 : State} {M : Nat} (hM : 74450131340091392 ||| M = M) {s : State} (hk : s0.Keeps M s) (p :
    Nat) (g : Graph) (rows : Nat) :
    s0.Keeps M (State.startChecks s p g rows).2 := by
  unfold State.startChecks
  repeat' first
    | with_reducible assumption | exact mask_sub hM (by decide) | with_reducible apply State.nodeStart_keeps
    | with_reducible refine keeps_foldl_snd _ ?_ (fun u x hu => ?_)
    | with_reducible refine keeps_of_snd (by with_reducible assumption) ?_ | split

end Sys2Proof.Machine
end

