-- ==== Sys2Proof/Laws/KeepsDsp.lean ====
section
/-!
SUPPORT. The operations of Machine/Dsp.lean keep the relation of Laws/Keeps.lean.
-/
namespace Sys2Proof.Machine

theorem State.ringWrite_keeps {s0 : State} {M : Nat} (hM : 74450131340091398 ||| M = M) {c : RegBlock} {r : Ring} (ht : c.has
    r.tail.addr)
    (hi : c.has r.irq.addr) (hb : 2 ^ c.idx ||| M = M) {s : State} (hk : s0.Keeps M s) (p : Nat) (b : Bytes) :
    s0.Keeps M (State.ringWrite s p r b) := by
  unfold State.ringWrite
  exact State.raise_keeps hi hb (State.setF_keeps ht hb (State.recWrite_keeps (mask_sub hM (by decide)) hk _ _ _) _)

theorem State.ringDrain_keeps {s0 : State} {M : Nat} (hM : 74450131340091398 ||| M = M) {c : RegBlock} (p : Nat) (r : Ring) (l :
    List Bytes) (ht : c.has r.tail.addr)
    (hi : c.has r.irq.addr) (hb : 2 ^ c.idx ||| M = M) {s : State} (hk : s0.Keeps M s) : s0.Keeps M (State.ringDrain p r l s).2 := by
  induction l generalizing s with
  | nil => exact hk
  | cons b t ih =>
    rw [State.ringDrain]
    split
    · exact hk
    · exact ih (State.ringWrite_keeps (mask_sub hM (by decide)) ht hi hb hk _ _)

theorem State.cringPut_keeps {s0 : State} {M : Nat} (hM : 78954280723275782 ||| M = M) {s : State} (hk : s0.Keeps M s) (p : Nat)
    (b : Bytes) :
    s0.Keeps M (State.cringPut s p b) := by
  unfold State.cringPut
  repeat' first
    | with_reducible assumption | exact mask_sub hM (by decide) | with_reducible exact Rg.DSP_EVENTS_RING_FULL_in _
    | with_reducible exact Rg.DSP_IRQ_RING_FULL_in _ | exact Rg.DSP_CRING_TAIL_in _ | exact Rg.DSP_IRQ_in _
    | with_reducible apply State.ringWrite_keeps | with_reducible apply State.bump_keeps | with_reducible apply State.raise_keeps
    | with_reducible refine State.modPart_holds ?_ ?_ _ _ (fun _ => rfl) | with_reducible apply keeps_ite

theorem State.cbPut_keeps {s0 : State} {M : Nat} (hM : 78954280723275782 ||| M = M) {s : State} (hk : s0.Keeps M s) (p : Nat) (b :
    Bytes) :
    s0.Keeps M (State.cbPut s p b) := by
  unfold State.cbPut
  repeat' first
    | with_reducible assumption | exact mask_sub hM (by decide) | with_reducible exact Rg.DSP_EVENTS_RING_FULL_in _
    | with_reducible exact Rg.DSP_IRQ_RING_FULL_in _ | exact Rg.DSP_CB_TAIL_in _ | exact Rg.DSP_IRQ_in _
    | with_reducible apply State.ringWrite_keeps | with_reducible apply State.bump_keeps | with_reducible apply State.raise_keeps
    | with_reducible refine State.modPart_holds ?_ ?_ _ _ (fun _ => rfl) | with_reducible apply keeps_ite

theorem State.putRecord_keeps {s0 : State} {M : Nat} (hM : 78954280723275782 ||| M = M) {s : State} (hk : s0.Keeps M s) (p : Nat)
    (quiet : Bool) (st : Nat) (b : Bytes) :
    s0.Keeps M (State.putRecord s p quiet st b) := by
  unfold State.putRecord
  repeat' first
    | with_reducible assumption | exact mask_sub hM (by decide) | with_reducible exact Rg.DSP_QUIET_RECORDS_in _
    | with_reducible apply State.cringPut_keeps | with_reducible apply State.bump_keeps | with_reducible apply keeps_ite

theorem State.completeNode_keeps {s0 : State} {M : Nat} (hM : 78954555601182726 ||| M = M) {s : State} (hk : s0.Keeps M s) (p :
    Nat) (tag : Nat) (n : Nat) (st : Nat) (sub : Nat) (flags : Nat) (core : Nat) (run : Nat) :
    s0.Keeps M (State.completeNode s p tag n st sub flags core run) := by
  unfold State.completeNode
  repeat' first
    | with_reducible assumption | exact mask_sub hM (by decide) | with_reducible apply State.putRecord_keeps
    | with_reducible apply State.modGraph_keeps | split

theorem State.inherit_keeps {s0 : State} {M : Nat} (hM : 78954555601182726 ||| M = M) {s : State} (hk : s0.Keeps M s) (p : Nat)
    (tag : Nat) :
    s0.Keeps M (State.inherit s p tag) := by
  unfold State.inherit
  repeat' first
    | with_reducible assumption | exact mask_sub hM (by decide) | with_reducible exact Rg.DSP_EVENTS_INHERITED_in _
    | with_reducible apply State.completeNode_keeps | with_reducible apply State.bump_keeps
    | with_reducible refine keeps_foldl _ ?_ (fun u x hu => ?_) | with_reducible apply keeps_ite | split

theorem State.recomputePool_keeps {s0 : State} {M : Nat} (hM : 274877906944 ||| M = M) {s : State} (hk : s0.Keeps M s) (p : Nat) :
    s0.Keeps M (State.recomputePool s p) := by
  unfold State.recomputePool
  repeat' first
    | with_reducible assumption | exact mask_sub hM (by decide)
    | with_reducible refine State.modPart_graphs ?_ ?_ _ _ (fun _ => rfl)

theorem State.resetPool_keeps {s0 : State} {M : Nat} (hM : 274877906944 ||| M = M) {s : State} (hk : s0.Keeps M s) (p : Nat) :
    s0.Keeps M (State.resetPool s p) := by
  unfold State.resetPool
  repeat' first
    | with_reducible assumption | exact mask_sub hM (by decide)
    | with_reducible refine State.modPart_graphs ?_ ?_ _ _ (fun _ => rfl)

theorem State.mcastJoin_keeps {s0 : State} {M : Nat} (hM : 72057594071482368 ||| M = M) {s : State} (hk : s0.Keeps M s) (p : Nat)
    (tag : Nat) (step : Nat) (g : Graph) (n : Nat) (c : Nat) (t : Nat) :
    s0.Keeps M (State.mcastJoin s p tag step g n c t) := by
  unfold State.mcastJoin
  repeat' first
    | with_reducible assumption | exact mask_sub hM (by decide) | with_reducible exact Rg.CORE_MCAST_LATE_JOIN_in _
    | with_reducible apply State.bump_keeps | with_reducible refine keeps_foldl _ ?_ (fun u x hu => ?_)
    | simp only [keeps_mcasts (mask_sub hM (by decide))] | with_reducible apply keeps_ite | split

theorem State.mcastLeave_keeps {s0 : State} {M : Nat} (hM : 33554432 ||| M = M) {s : State} (hk : s0.Keeps M s) (t : Nat) (c :
    Nat) :
    s0.Keeps M (State.mcastLeave s t c) := by
  unfold State.mcastLeave
  repeat' first
    | with_reducible assumption | exact mask_sub hM (by decide) | simp only [keeps_mcasts (mask_sub hM (by decide))]

theorem State.semReset_keeps {s0 : State} {M : Nat} (hM : 72057594037927936 ||| M = M) {s : State} (hk : s0.Keeps M s) (c : Nat) :
    s0.Keeps M (State.semReset s c) := by
  unfold State.semReset
  refine keeps_foldl_mem _ hk fun u x hx hu => State.wr_keeps (c := .core) ?_ (mask_sub hM (by decide)) hu _
  have := List.mem_range.1 hx
  simp only [RegBlock.has, Rg.CORE_SEM_LINK_0]; omega

theorem State.skimDrop_keeps {s0 : State} {M : Nat} (hM : 16777216 ||| M = M) {s : State} (hk : s0.Keeps M s) (c : Nat) (t : Nat) :
    s0.Keeps M (State.skimDrop s c t) := by
  unfold State.skimDrop
  repeat' first
    | with_reducible assumption | exact mask_sub hM (by decide) | with_reducible apply State.modCluster_keeps

theorem State.promote_keeps {s0 : State} {M : Nat} (hM : 1048576 ||| M = M) {s : State} (hk : s0.Keeps M s) (c : Nat) :
    s0.Keeps M (State.promote s c) := by
  unfold State.promote
  repeat' first
    | with_reducible assumption | exact mask_sub hM (by decide) | with_reducible apply State.modTask_keeps
    | with_reducible apply keeps_ite | split

theorem State.leaveCore_keeps {s0 : State} {M : Nat} (hM : 218565388186869760 ||| M = M) {s : State} (hk : s0.Keeps M s) (t : Nat)
    (i : Nat) :
    s0.Keeps M (State.leaveCore s t i) := by
  unfold State.leaveCore
  repeat' first
    | with_reducible assumption | exact mask_sub hM (by decide) | with_reducible apply State.promote_keeps
    | with_reducible apply State.skimDrop_keeps | with_reducible apply State.mcastLeave_keeps
    | with_reducible apply State.tlbDrop_keeps | with_reducible apply State.modTask_keeps | split

theorem State.withdraw_keeps {s0 : State} {M : Nat} (hM : 218565388187131904 ||| M = M) {s : State} (hk : s0.Keeps M s) (c : Nat) :
    s0.Keeps M (State.withdraw s c) := by
  unfold State.withdraw
  repeat' first
    | with_reducible assumption | exact mask_sub hM (by decide) | with_reducible exact Rg.CORE_EVENTS_WITHDRAWN_in _
    | with_reducible apply State.skimDrop_keeps | with_reducible apply State.semReset_keeps
    | with_reducible apply State.mcastLeave_keeps | with_reducible apply State.tlbDrop_keeps
    | with_reducible apply State.modTask_keeps | with_reducible apply State.bump_keeps
    | simp only [keeps_tasks (mask_sub hM (by decide))] | simp only [keeps_walks (mask_sub hM (by decide))]
    | with_reducible apply keeps_ite | split

theorem State.applyReload_keeps {s0 : State} {M : Nat} (hM : 35510789607424 ||| M = M) {s : State} (hk : s0.Keeps M s) (p : Nat)
    (r : Reload) :
    s0.Keeps M (State.applyReload s p r) := by
  unfold State.applyReload
  repeat' first
    | with_reducible assumption | exact mask_sub hM (by decide) | with_reducible exact Rg.IMG_RELOAD_PENDING_in _
    | with_reducible exact Rg.IMG_RELOAD_SEQ_LOW_in _ | with_reducible apply State.resetPool_keeps
    | with_reducible apply State.pass_keeps | with_reducible apply State.setF_keeps
    | with_reducible refine State.modPart_settings ?_ ?_ _ _ (fun _ => rfl)

theorem State.reloadAtStepEnd_keeps {s0 : State} {M : Nat} (hM : 35510789607424 ||| M = M) {s : State} (hk : s0.Keeps M s) (p :
    Nat) :
    s0.Keeps M (State.reloadAtStepEnd s p) := by
  unfold State.reloadAtStepEnd
  repeat' first
    | with_reducible assumption | exact mask_sub hM (by decide) | with_reducible apply State.applyReload_keeps | split

theorem State.finishUnload_keeps {s0 : State} {M : Nat} (hM : 274877906944 ||| M = M) {s : State} (hk : s0.Keeps M s) (p : Nat)
    (tag : Nat) :
    s0.Keeps M (State.finishUnload s p tag) := by
  unfold State.finishUnload
  repeat' first
    | with_reducible assumption | exact mask_sub hM (by decide)
    | with_reducible refine State.modPart_graphs ?_ ?_ _ _ (fun _ => rfl) | with_reducible apply keeps_ite | split

theorem State.endStep_keeps {s0 : State} {M : Nat} (hM : 78989791546437639 ||| M = M) {s : State} (hk : s0.Keeps M s) (p : Nat)
    (tag : Nat) (st : Nat) (flags : Nat) (settled : Bool) :
    s0.Keeps M (State.endStep s p tag st flags settled) := by
  unfold State.endStep
  repeat' first
    | with_reducible assumption | exact mask_sub hM (by decide) | with_reducible apply State.finishUnload_keeps
    | with_reducible apply State.reloadAtStepEnd_keeps | with_reducible apply State.cringPut_keeps
    | with_reducible apply State.modGraph_keeps | with_reducible apply State.freeNext_keeps
    | simp only [keeps_mcasts (mask_sub hM (by decide))] | with_reducible apply keeps_ite | split

theorem State.afterNode_keeps {s0 : State} {M : Nat} (hM : 78989791546437639 ||| M = M) {s : State} (hk : s0.Keeps M s) (p : Nat)
    (tag : Nat) :
    s0.Keeps M (State.afterNode s p tag) := by
  unfold State.afterNode
  repeat' first
    | with_reducible assumption | exact mask_sub hM (by decide) | with_reducible apply State.endStep_keeps
    | with_reducible apply State.inherit_keeps | with_reducible apply keeps_ite | split | dsimp only

theorem State.dspResult_keeps {s0 : State} {M : Nat} (hM : 4503599627370496 ||| M = M) {s : State} (hk : s0.Keeps M s) (p : Nat)
    (code : Nat) (node : Nat) :
    s0.Keeps M (State.dspResult s p code node) := by
  unfold State.dspResult
  repeat' first
    | with_reducible assumption | exact mask_sub hM (by decide) | with_reducible exact Rg.DSP_CMD_RESULT_RESULT_in _
    | with_reducible exact Rg.DSP_CMD_RESULT_NODE_in _ | with_reducible exact Rg.DSP_IRQ_CMD_DONE_in _
    | with_reducible apply State.raise_keeps | with_reducible apply State.setF_keeps

theorem State.dspDone_keeps {s0 : State} {M : Nat} (hM : 4503599627370496 ||| M = M) {s : State} (hk : s0.Keeps M s) (p : Nat)
    (code : Nat) (node : Nat) :
    s0.Keeps M (State.dspDone s p code node) := by
  unfold State.dspDone
  repeat' first
    | with_reducible assumption | exact mask_sub hM (by decide) | with_reducible exact Rg.DSP_CMD_RESULT_COUNT_in _
    | with_reducible apply State.dspResult_keeps | with_reducible apply State.incr_keeps

theorem State.triggerStep_keeps {s0 : State} {M : Nat} (hM : 78989791548534791 ||| M = M) {s : State} (hk : s0.Keeps M s) (p :
    Nat) (tag : Nat) (source : Nat) :
    s0.Keeps M (State.triggerStep s p tag source).2 := by
  unfold State.triggerStep
  repeat' first
    | with_reducible assumption | exact mask_sub hM (by decide) | with_reducible exact Rg.DSP_CMD_RESULT_RESULT_in _
    | with_reducible exact Rg.DSP_CMD_RESULT_NODE_in _ | with_reducible exact Rg.DSP_EVENTS_STEPS_REFUSED_in _
    | with_reducible exact Rg.DSP_IRQ_STEP_REFUSED_in _ | with_reducible apply State.afterNode_keeps
    | with_reducible apply State.endStep_keeps | with_reducible apply State.startChecks_keeps
    | with_reducible apply State.modGraph_keeps | with_reducible apply State.devWrite_keeps
    | with_reducible apply State.devRead_keeps | with_reducible apply State.bump_keeps | with_reducible apply State.raise_keeps
    | with_reducible apply State.setF_keeps | with_reducible refine keeps_of_snd (by with_reducible assumption) ?_
    | simp only [keeps_taskNext (mask_sub hM (by decide))] | split

end Sys2Proof.Machine
end

