-- ==== Sys2Proof/Laws/KeepsJob.lean ====
section
/-!
SUPPORT. The operations of Machine/Job.lean keep the relation of Laws/Keeps.lean.
-/
namespace Sys2Proof.Machine

theorem State.abortRecord_keeps {s0 : State} {M : Nat} (hM : 78954280723275783 ||| M = M) {s : State} (hk : s0.Keeps M s) (t :
    Task) :
    s0.Keeps M (State.abortRecord s t) := by
  unfold State.abortRecord
  repeat' first
    | with_reducible assumption | exact mask_sub hM (by decide) | with_reducible apply State.putRecord_keeps
    | with_reducible apply State.freeNext_keeps

theorem State.stopTask_keeps {s0 : State} {M : Nat} (hM : 218565388186869760 ||| M = M) {s : State} (hk : s0.Keeps M s) (t : Task) :
    s0.Keeps M (State.stopTask s t) := by
  unfold State.stopTask
  repeat' first
    | with_reducible assumption | exact mask_sub hM (by decide) | with_reducible apply State.skimDrop_keeps
    | with_reducible apply State.semReset_keeps | with_reducible apply State.mcastLeave_keeps
    | with_reducible apply State.undoPages_keeps | with_reducible apply State.tlbDropAll_keeps
    | with_reducible apply State.expEnd_keeps | with_reducible apply State.modTask_keeps
    | with_reducible refine keeps_foldl _ ?_ (fun u x hu => ?_) | with_reducible apply keeps_ite | split

theorem State.dropTaskSends_keeps {s0 : State} {M : Nat} (hM : 2199425908736 ||| M = M) {s : State} (hk : s0.Keeps M s) (p : Nat) :
    s0.Keeps M (State.dropTaskSends s p) := by
  unfold State.dropTaskSends
  repeat' first
    | with_reducible assumption | exact mask_sub hM (by decide)
    | with_reducible refine State.modPart_chans ?_ ?_ _ _ (fun _ => rfl)
    | simp only [keeps_landings_churns (mask_sub hM (by decide))]

theorem State.endSteps_keeps {s0 : State} {M : Nat} (hM : 78989791546437639 ||| M = M) {s : State} (hk : s0.Keeps M s) (p : Nat) :
    s0.Keeps M (State.endSteps s p) := by
  unfold State.endSteps
  repeat' first
    | with_reducible assumption | exact mask_sub hM (by decide) | with_reducible apply State.endStep_keeps
    | with_reducible refine keeps_foldl _ ?_ (fun u x hu => ?_) | with_reducible apply keeps_ite

theorem State.dropReload_keeps {s0 : State} {M : Nat} (hM : 35218731827200 ||| M = M) {s : State} (hk : s0.Keeps M s) (p : Nat) :
    s0.Keeps M (State.dropReload s p) := by
  unfold State.dropReload
  repeat' first
    | with_reducible assumption | exact mask_sub hM (by decide) | with_reducible exact Rg.IMG_RELOAD_PENDING_in _
    | with_reducible exact Rg.IMG_RELOAD_RESULT_in _ | with_reducible apply State.setF_keeps
    | with_reducible refine State.modPart_settings ?_ ?_ _ _ (fun _ => rfl) | split

theorem State.noteError_keeps {s0 : State} {M : Nat} (hM : 137438953472 ||| M = M) {s : State} (hk : s0.Keeps M s) (p : Nat) :
    s0.Keeps M (State.noteError s p) := by
  unfold State.noteError
  repeat' first
    | with_reducible assumption | exact mask_sub hM (by decide)
    | with_reducible refine State.modPart_life ?_ ?_ _ _ (fun _ => rfl) | split

theorem State.noteSeen_keeps {s0 : State} {M : Nat} (hM : 536870912 ||| M = M) {s : State} (hk : s0.Keeps M s) (p : Nat) (dev :
    Nat) (part : Nat) (fid : Nat) :
    s0.Keeps M (State.noteSeen s p dev part fid) := by
  unfold State.noteSeen
  repeat' first
    | with_reducible assumption | exact mask_sub hM (by decide) | simp only [keeps_coach (mask_sub hM (by decide))]

theorem State.faultAborts_keeps {s0 : State} {M : Nat} (hM : 536870912 ||| M = M) {s : State} (hk : s0.Keeps M s) (p : Nat) (cause
    : Nat) (fid : Nat) (pay : Option Bytes) :
    s0.Keeps M (State.faultAborts s p cause fid pay) := by
  unfold State.faultAborts
  repeat' first
    | with_reducible assumption | exact mask_sub hM (by decide) | with_reducible apply State.noteSeen_keeps
    | with_reducible apply State.sendAborts_keeps | with_reducible apply State.abortTo_keeps
    | with_reducible refine keeps_foldl _ ?_ (fun u x hu => ?_) | with_reducible apply keeps_ite | split

theorem State.faultShown_keeps {s0 : State} {M : Nat} (hM : 576460752303423488 ||| M = M) {s : State} (hk : s0.Keeps M s) (p :
    Nat) (cause : Nat) (fid : Nat) :
    s0.Keeps M (State.faultShown s p cause fid) := by
  unfold State.faultShown
  repeat' first
    | with_reducible assumption | exact mask_sub hM (by decide) | with_reducible exact Rg.FLT_PART_FAULT_ID_in _
    | with_reducible exact Rg.FLT_PART_CAUSE_in _ | with_reducible exact Rg.FLT_PART_TIME_in _
    | with_reducible apply State.setF_keeps | with_reducible apply State.wr_keeps

theorem State.faultStop_keeps {s0 : State} {M : Nat} (hM : 224233148229611527 ||| M = M) {s : State} (hk : s0.Keeps M s) (p : Nat)
    (cause : Nat) (fid : Nat) (pay : Option Bytes) :
    s0.Keeps M (State.faultStop s p cause fid pay) := by
  unfold State.faultStop
  repeat' first
    | with_reducible assumption | exact mask_sub hM (by decide) | with_reducible apply State.faultAborts_keeps
    | with_reducible apply State.dropReload_keeps | with_reducible apply State.endSteps_keeps
    | with_reducible apply State.dropTaskSends_keeps | with_reducible apply State.stopTask_keeps
    | with_reducible apply State.abortRecord_keeps | with_reducible apply State.abortExports_keeps
    | with_reducible refine keeps_foldl _ ?_ (fun u x hu => ?_) | simp only [keeps_walks_tasks_coach (mask_sub hM (by decide))]

theorem State.faultOne_keeps {s0 : State} {M : Nat} (hM : 800694037971988487 ||| M = M) {s : State} (hk : s0.Keeps M s) (p : Nat)
    (cls : Nat) (cause : Nat) (detail : Nat) (pay : Option Bytes) :
    s0.Keeps M (State.faultOne s p cls cause detail pay) := by
  unfold State.faultOne
  repeat' first
    | with_reducible assumption | exact mask_sub hM (by decide) | with_reducible exact Rg.FLT_IRQ_JOB_FAULT_in
    | with_reducible exact Rg.FLT_PART_STATE_in _ | with_reducible apply State.faultStop_keeps
    | with_reducible apply State.faultShown_keeps | with_reducible apply State.noteError_keeps
    | with_reducible apply State.fltAdd_keeps | with_reducible apply State.raise_keeps | with_reducible apply State.setF_keeps
    | with_reducible refine State.modPart_life ?_ ?_ _ _ (fun _ => rfl)

theorem State.jobFaultWith_keeps {s0 : State} {M : Nat} (hM : 800694037971988487 ||| M = M) {s : State} (hk : s0.Keeps M s) (p :
    Nat) (cls : Nat) (cause : Nat) (detail : Nat) (pay : Option Bytes) :
    s0.Keeps M (State.jobFaultWith s p cls cause detail pay) := by
  unfold State.jobFaultWith
  repeat' first
    | with_reducible assumption | exact mask_sub hM (by decide) | with_reducible apply State.faultOne_keeps
    | with_reducible apply State.fltAdd_keeps | with_reducible refine keeps_foldl _ ?_ (fun u x hu => ?_)
    | with_reducible apply keeps_ite

theorem State.jobFaultAs_keeps {s0 : State} {M : Nat} (hM : 800694037971988487 ||| M = M) {s : State} (hk : s0.Keeps M s) (p :
    Nat) (cls : Nat) (cause : Nat) (detail : Nat) :
    s0.Keeps M (State.jobFaultAs s p cls cause detail) := by
  unfold State.jobFaultAs
  repeat' first
    | with_reducible assumption | exact mask_sub hM (by decide) | with_reducible apply State.jobFaultWith_keeps

theorem State.jobFault_keeps {s0 : State} {M : Nat} (hM : 800694037971988487 ||| M = M) {s : State} (hk : s0.Keeps M s) (p : Nat)
    (cause : Nat) :
    s0.Keeps M (State.jobFault s p cause) := by
  unfold State.jobFault
  repeat' first
    | with_reducible assumption | exact mask_sub hM (by decide) | with_reducible apply State.jobFaultAs_keeps

theorem State.wdogFault_keeps {s0 : State} {M : Nat} (hM : 800694037971988487 ||| M = M) {s : State} (hk : s0.Keeps M s) (p : Nat)
    (cls : Nat) (detail : Nat) :
    s0.Keeps M (State.wdogFault s p cls detail) := by
  unfold State.wdogFault
  repeat' first
    | with_reducible assumption | exact mask_sub hM (by decide) | with_reducible exact Rg.FLT_IRQ_WDOG_in
    | with_reducible apply State.jobFaultAs_keeps | with_reducible apply State.raise_keeps

theorem State.partDone_keeps {s0 : State} {M : Nat} (hM : 800694037971988487 ||| M = M) {s : State} (hk : s0.Keeps M s) (t : Nat)
    (i : Nat) :
    s0.Keeps M (State.partDone s t i) := by
  unfold State.partDone
  repeat' first
    | with_reducible assumption | exact mask_sub hM (by decide) | with_reducible apply State.jobFault_keeps
    | with_reducible apply State.leaveCore_keeps | with_reducible apply State.modTask_keeps | with_reducible apply keeps_ite
    | split | dsimp only

end Sys2Proof.Machine
end

