-- ==== Sys2Proof/Laws/KeepsSparse.lean ====
section
/-!
SUPPORT. The operations of Machine/Sparse.lean keep the relation of Laws/Keeps.lean.
-/
namespace Sys2Proof.Machine

theorem Fetch.get_keeps {s0 : State} {M : Nat} (hM : 74450131340091392 ||| M = M) {f : Fetch} (hk : s0.Keeps M f.st) (p : Nat) (a
    : Nat) (n : Nat) :
    s0.Keeps M (Fetch.get f p a n).2.st := by
  unfold Fetch.get
  repeat' first
    | with_reducible assumption | exact mask_sub hM (by decide) | with_reducible apply State.devRead_keeps

theorem Fetch.gets_keeps {s0 : State} {M : Nat} (hM : 74450131340091392 ||| M = M) {f : Fetch} (hk : s0.Keeps M f.st) (p : Nat) (n
    : Nat) (as : List Nat) :
    s0.Keeps M (Fetch.gets f p n as).2.st := by
  unfold Fetch.gets
  repeat' first
    | with_reducible assumption | exact mask_sub hM (by decide) | with_reducible apply Fetch.get_keeps
    | with_reducible refine keeps_foldl_snd_fetch _ ?_ (fun u x hu => ?_)

theorem Fetch.dense_keeps {s0 : State} {M : Nat} (hM : 74450131340091392 ||| M = M) {f : Fetch} (hk : s0.Keeps M f.st) (p : Nat)
    (fmt : Nat) (base : Nat) (stride : Nat) (n : Nat) (k : Nat) (xpose : Bool) :
    s0.Keeps M (Fetch.dense f p fmt base stride n k xpose).2.st := by
  unfold Fetch.dense
  repeat' first
    | with_reducible assumption | exact mask_sub hM (by decide) | with_reducible apply Fetch.gets_keeps | split

theorem Fetch.tile_keeps {s0 : State} {M : Nat} (hM : 0 ||| M = M) {f : Fetch} (hk : s0.Keeps M f.st) {rd : Reader} (fmt : Nat)
    (sgn : Bool) (dir : Nat) (n : Nat) (k : Nat) (lb : Nat) (kt : Nat) (hrd : ∀ u x0 x1, s0.Keeps M u.st → s0.Keeps M (rd u x0
    x1).2.st) :
    s0.Keeps M (Fetch.tile f rd fmt sgn dir n k lb kt).2.st := by
  unfold Fetch.tile
  repeat' first
    | with_reducible assumption | exact mask_sub hM (by decide) | with_reducible apply hrd | split | dsimp only

theorem Fetch.tiles_keeps {s0 : State} {M : Nat} (hM : 0 ||| M = M) {f : Fetch} (hk : s0.Keeps M f.st) {rd : Reader} (fmt : Nat)
    (sgn : Bool) (dir : Nat) (n : Nat) (k : Nat) (hrd : ∀ u x0 x1, s0.Keeps M u.st → s0.Keeps M (rd u x0 x1).2.st) :
    s0.Keeps M (Fetch.tiles f rd fmt sgn dir n k).2.st := by
  unfold Fetch.tiles
  repeat' first
    | with_reducible assumption | exact mask_sub hM (by decide) | with_reducible apply Fetch.tile_keeps
    | with_reducible refine keeps_foldl_snd_fetch _ ?_ (fun u x hu => ?_)

end Sys2Proof.Machine
end

