-- ==== Sys2Proof/Laws/KeepsGemm.lean ====
section
/-!
SUPPORT. The operations of Machine/Gemm.lean keep the relation of Laws/Keeps.lean.
-/
namespace Sys2Proof.Machine

theorem Fetch.wcTouch_keeps {s0 : State} {M : Nat} (hM : 74450131356803072 ||| M = M) {f : Fetch} (hk : s0.Keeps M f.st) (p : Nat)
    (c : Nat) (l : Nat) :
    s0.Keeps M (Fetch.wcTouch f p c l).st := by
  unfold Fetch.wcTouch
  repeat' first
    | with_reducible assumption | exact mask_sub hM (by decide) | with_reducible exact Rg.CORE_WFETCH_HITS_in _
    | with_reducible exact Rg.CORE_WFETCH_MISSES_in _ | with_reducible apply State.ramRead_keeps
    | with_reducible apply State.modCluster_keeps | with_reducible apply State.bump_keeps | split | dsimp only

theorem Fetch.getsB_keeps {s0 : State} {M : Nat} (hM : 74450131356868608 ||| M = M) {f : Fetch} (hk : s0.Keeps M f.st) (p : Nat)
    (c : Nat) (b : BStream) (n : Nat) (as : List Nat) :
    s0.Keeps M (Fetch.getsB f p c b n as).2.st := by
  unfold Fetch.getsB
  repeat' first
    | with_reducible assumption | exact mask_sub hM (by decide) | with_reducible apply Fetch.wcTouch_keeps
    | with_reducible apply Fetch.gets_keeps | with_reducible apply Fetch.get_keeps
    | with_reducible refine keeps_foldl_fetch _ ?_ (fun u x hu => ?_)
    | with_reducible refine keeps_foldl_snd_fetch _ ?_ (fun u x hu => ?_)
    | with_reducible refine keeps_forN_fetch _ ?_ (fun u x hu => ?_) | split | dsimp only

theorem Fetch.gather_keeps {s0 : State} {M : Nat} (hM : 74450131340091392 ||| M = M) {f : Fetch} (hk : s0.Keeps M f.st) (q : Gemm) :
    s0.Keeps M (Fetch.gather f q).2.st := by
  unfold Fetch.gather
  repeat' first
    | with_reducible assumption | exact mask_sub hM (by decide) | with_reducible apply Fetch.gets_keeps
    | with_reducible apply Fetch.get_keeps

theorem Fetch.conv_keeps {s0 : State} {M : Nat} (hM : 74450131340091392 ||| M = M) {f : Fetch} (hk : s0.Keeps M f.st) (q : Gemm)
    (c : Bytes) :
    s0.Keeps M (Fetch.conv f q c).2.st := by
  unfold Fetch.conv
  repeat' first
    | with_reducible assumption | exact mask_sub hM (by decide) | with_reducible apply Fetch.gets_keeps

theorem BStream.reader_keeps {s0 : State} {M : Nat} (hM : 74450131356868608 ||| M = M) (b : BStream) (p : Nat) (c : Nat) {f :
    Fetch} (hk : s0.Keeps M f.st) (a : Nat) (n : Nat) :
    s0.Keeps M (BStream.reader b p c f a n).2.st := by
  unfold BStream.reader
  repeat' first
    | with_reducible assumption | exact mask_sub hM (by decide) | with_reducible apply Fetch.getsB_keeps

theorem directly_keeps {s0 : State} {M : Nat} (hM : 74450131340091392 ||| M = M) (p : Nat) {f : Fetch} (hk : s0.Keeps M f.st) (a :
    Nat) (n : Nat) :
    s0.Keeps M (directly p f a n).2.st := by
  unfold directly
  repeat' first
    | with_reducible assumption | exact mask_sub hM (by decide) | with_reducible apply Fetch.get_keeps

theorem Fetch.opA_keeps {s0 : State} {M : Nat} (hM : 74450131340091392 ||| M = M) {f : Fetch} (hk : s0.Keeps M f.st) (q : Gemm)
    (conv : Bytes) :
    s0.Keeps M (Fetch.opA f q conv).f.st := by
  unfold Fetch.opA
  repeat' first
    | with_reducible assumption | exact mask_sub hM (by decide) | with_reducible apply directly_keeps
    | with_reducible apply Fetch.conv_keeps | with_reducible apply Fetch.gather_keeps | with_reducible apply Fetch.tiles_keeps
    | with_reducible apply Fetch.dense_keeps | split | intro _

theorem Fetch.opB1_keeps {s0 : State} {M : Nat} (hM : 74450131356868608 ||| M = M) {f : Fetch} (hk : s0.Keeps M f.st) (q : Gemm)
    (c : Nat) (sid : Nat) (base : Nat) (n : Nat) :
    s0.Keeps M (Fetch.opB1 f q c sid base n).f.st := by
  unfold Fetch.opB1
  repeat' first
    | with_reducible assumption | exact mask_sub hM (by decide) | with_reducible apply directly_keeps
    | with_reducible apply BStream.reader_keeps | with_reducible apply Fetch.getsB_keeps | with_reducible apply Fetch.tiles_keeps
    | with_reducible apply Fetch.gets_keeps | split | intro _ | dsimp only

theorem Fetch.opB_keeps {s0 : State} {M : Nat} (hM : 74450131356868608 ||| M = M) {f : Fetch} (hk : s0.Keeps M f.st) (q : Gemm) (c
    : Nat) :
    s0.Keeps M (Fetch.opB f q c).f.st := by
  unfold Fetch.opB
  repeat' first
    | with_reducible assumption | exact mask_sub hM (by decide) | with_reducible apply Fetch.opB1_keeps | split

theorem Fetch.scales_keeps {s0 : State} {M : Nat} (hM : 74450131340091392 ||| M = M) {f : Fetch} (hk : s0.Keeps M f.st) (p : Nat)
    (w : FmtWord) (a : Nat) (lines : Nat) (len : Nat) :
    s0.Keeps M (Fetch.scales f p w a lines len).2.st := by
  unfold Fetch.scales
  repeat' first
    | with_reducible assumption | exact mask_sub hM (by decide) | with_reducible apply Fetch.get_keeps | split | dsimp only

theorem Fetch.scalesB_keeps {s0 : State} {M : Nat} (hM : 74450131340091392 ||| M = M) {f : Fetch} (hk : s0.Keeps M f.st) (q :
    Gemm) :
    s0.Keeps M (Fetch.scalesB f q).2.st := by
  unfold Fetch.scalesB
  repeat' first
    | with_reducible assumption | exact mask_sub hM (by decide) | with_reducible apply Fetch.get_keeps | split

theorem Fetch.table_keeps {s0 : State} {M : Nat} (hM : 74450131340091392 ||| M = M) {f : Fetch} (hk : s0.Keeps M f.st) (p : Nat)
    (a : Nat) (used : Bool) :
    s0.Keeps M (Fetch.table f p a used).2.2.st := by
  unfold Fetch.table
  repeat' first
    | with_reducible assumption | exact mask_sub hM (by decide) | with_reducible apply Fetch.get_keeps | split

theorem Fetch.product_keeps {s0 : State} {M : Nat} (hM : 74450131356868609 ||| M = M) {f : Fetch} (hk : s0.Keeps M f.st) (q :
    Gemm) (c : Nat) (conv : Bytes) :
    s0.Keeps M (Fetch.product f q c conv).f.st := by
  unfold Fetch.product
  repeat' first
    | with_reducible assumption | exact mask_sub hM (by decide) | with_reducible apply Fetch.table_keeps
    | with_reducible apply Fetch.scalesB_keeps | with_reducible apply Fetch.scales_keeps | with_reducible apply Fetch.opB_keeps
    | with_reducible apply Fetch.opA_keeps | with_reducible apply Fetch.gets_keeps
    | simp only [keeps_free (mask_sub hM (by decide))] | split

theorem Store.put_keeps {s0 : State} {M : Nat} (hM : 74450131356868614 ||| M = M) {w : Store} (hk : s0.Keeps M w.st) (p : Nat) (a
    : Nat) (bs : Bytes) (bad : Bool) :
    s0.Keeps M (Store.put w p a bs bad).st := by
  unfold Store.put
  repeat' first
    | with_reducible assumption | exact mask_sub hM (by decide) | with_reducible apply State.wcInval_keeps
    | with_reducible apply State.devWrite_keeps

theorem Store.line_keeps {s0 : State} {M : Nat} (hM : 74450131356868614 ||| M = M) {w : Store} (hk : s0.Keeps M w.st) (p : Nat)
    (fmt : Nat) (a : Nat) (xs : List (Nat × Bool)) :
    s0.Keeps M (Store.line w p fmt a xs).st := by
  unfold Store.line
  repeat' first
    | with_reducible assumption | exact mask_sub hM (by decide) | with_reducible apply Store.put_keeps
    | with_reducible refine keeps_foldl_store _ ?_ (fun u x hu => ?_)

theorem Store.rows_keeps {s0 : State} {M : Nat} (hM : 74450131356868614 ||| M = M) {w : Store} (hk : s0.Keeps M w.st) (p : Nat) (f
    : FmtWord) (a : Nat) (stride : Nat) (sc : Nat) (ss : Nat) (rows : Rows) :
    s0.Keeps M (Store.rows w p f a stride sc ss rows).st := by
  unfold Store.rows
  repeat' first
    | with_reducible assumption | exact mask_sub hM (by decide) | with_reducible apply Store.line_keeps
    | with_reducible apply Store.put_keeps | with_reducible refine keeps_foldl_store _ ?_ (fun u x hu => ?_) | split

theorem Store.rowsT_keeps {s0 : State} {M : Nat} (hM : 74450131356868614 ||| M = M) {w : Store} (hk : s0.Keeps M w.st) (p : Nat)
    (f : FmtWord) (a : Nat) (stride : Nat) (sc : Nat) (ss : Nat) (n : Nat) (rows : Rows) :
    s0.Keeps M (Store.rowsT w p f a stride sc ss n rows).st := by
  unfold Store.rowsT
  repeat' first
    | with_reducible assumption | exact mask_sub hM (by decide) | with_reducible apply Store.line_keeps
    | with_reducible apply Store.put_keeps | with_reducible refine keeps_foldl_store _ ?_ (fun u x hu => ?_) | split

theorem StageSt.get_keeps {s0 : State} {M : Nat} (hM : 74450131340091392 ||| M = M) {x : StageSt} (hk : s0.Keeps M x.w.st) (p :
    Nat) (a : Nat) (n : Nat) :
    s0.Keeps M (StageSt.get x p a n).2.w.st := by
  unfold StageSt.get
  repeat' first
    | with_reducible assumption | exact mask_sub hM (by decide) | with_reducible apply Fetch.get_keeps

theorem StageSt.append_keeps {s0 : State} {M : Nat} (hM : 227581280421928962 ||| M = M) {x : StageSt} (hk : s0.Keeps M x.w.st) (q
    : Gemm) (t : Nat) (core : Nat) (st : Bytes) (pos : Nat) (entry : Nat) (row : List (Num × Bool)) :
    s0.Keeps M (StageSt.append x q t core st pos entry row).w.st := by
  unfold StageSt.append
  repeat' first
    | with_reducible assumption | exact mask_sub hM (by decide) | with_reducible apply State.appendSlot_keeps
    | with_reducible apply State.isolation_keeps | with_reducible refine keeps_foldl_stage _ ?_ (fun u x hu => ?_) | split
    | dsimp only

theorem StageSt.stage_keeps {s0 : State} {M : Nat} (hM : 227581280421928966 ||| M = M) {x : StageSt} (hk : s0.Keeps M x.w.st) (q :
    Gemm) (t : Nat) (core : Nat) (st : Bytes) :
    s0.Keeps M (StageSt.stage x q t core st).w.st := by
  unfold StageSt.stage
  repeat' first
    | with_reducible assumption | exact mask_sub hM (by decide) | with_reducible apply StageSt.append_keeps
    | with_reducible apply StageSt.get_keeps | with_reducible apply Store.rows_keeps
    | with_reducible refine keeps_foldl_stage _ ?_ (fun u x hu => ?_) | split | dsimp only

end Sys2Proof.Machine
end

