-- ==== Sys2Proof/Laws/KeepsTensor.lean ====
section
/-!
SUPPORT. The operations of Machine/Tensor.lean keep the relation of Laws/Keeps.lean.
-/
namespace Sys2Proof.Machine

theorem State.taskBlk_keeps {s0 : State} {M : Nat} (hM : 78953730968510464 ||| M = M) {s : State} (hk : s0.Keeps M s) (t : Nat) (p
    : Nat) (cls : Nat) (a : Nat) (n : Nat) (bad : Bytes → Bool) :
    s0.Keeps M (State.taskBlk s t p cls a n bad).2 := by
  unfold State.taskBlk
  repeat' first
    | with_reducible assumption | exact mask_sub hM (by decide) | with_reducible exact Rg.DSP_EVENTS_BAD_BLOCK_in _
    | with_reducible apply State.devRead_keeps | with_reducible apply State.taskStatus_keeps
    | with_reducible apply State.bump_keeps | split | dsimp only

theorem State.flagTask_keeps {s0 : State} {M : Nat} (hM : 1048576 ||| M = M) {s : State} (hk : s0.Keeps M s) (t : Nat) (fail :
    Bool) (range : Bool) (pois : Bool) :
    s0.Keeps M (State.flagTask s t fail range pois) := by
  unfold State.flagTask
  repeat' first
    | with_reducible assumption | exact mask_sub hM (by decide) | with_reducible apply State.taskStatus_keeps
    | with_reducible apply keeps_ite

theorem State.fmtEvents_keeps {s0 : State} {M : Nat} (hM : 72057594037927936 ||| M = M) {s : State} (hk : s0.Keeps M s) (c : Nat)
    (e : FmtEv) :
    s0.Keeps M (State.fmtEvents s c e) := by
  unfold State.fmtEvents
  repeat' first
    | with_reducible assumption | exact mask_sub hM (by decide) | with_reducible exact Rg.CORE_FMT_EVENTS_TERN_RSV_in _
    | with_reducible exact Rg.CORE_FMT_EVENTS_SAT_E4M3_in _ | with_reducible exact Rg.CORE_FMT_EVENTS_OVF_INF_in _
    | with_reducible exact Rg.CORE_FMT_EVENTS_NAN_OUT_in _ | with_reducible apply State.bump_keeps

theorem State.dmaBytes_keeps {s0 : State} {M : Nat} (hM : 72057594037927936 ||| M = M) {s : State} (hk : s0.Keeps M s) (c : Nat)
    (i : Nat) (o : Nat) :
    s0.Keeps M (State.dmaBytes s c i o) := by
  unfold State.dmaBytes
  repeat' first
    | with_reducible assumption | exact mask_sub hM (by decide) | with_reducible exact Rg.CORE_DMA_BYTES_in _ _
    | with_reducible apply State.bump_keeps

theorem State.modArray_keeps {s0 : State} {M : Nat} (hM : 8388608 ||| M = M) {s : State} (hk : s0.Keeps M s) (c : Nat) (a : Nat)
    (f : ArraySt → ArraySt) :
    s0.Keeps M (State.modArray s c a f) := by
  unfold State.modArray
  repeat' first
    | with_reducible assumption | exact mask_sub hM (by decide) | with_reducible apply State.modCore_keeps

theorem State.rampUp_keeps {s0 : State} {M : Nat} (hM : 72057594046316544 ||| M = M) {s : State} (hk : s0.Keeps M s) (c : Nat) (a
    : Nat) :
    s0.Keeps M (State.rampUp s c a) := by
  unfold State.rampUp
  repeat' first
    | with_reducible assumption | exact mask_sub hM (by decide) | with_reducible exact Rg.CORE_ARR_RAMP_RAMP_UPS_in _
    | with_reducible apply State.modArray_keeps | with_reducible apply State.bump_keeps | with_reducible apply keeps_ite

theorem State.islandOff_keeps {s0 : State} {M : Nat} (hM : 72057594046316544 ||| M = M) {s : State} (hk : s0.Keeps M s) (c : Nat) :
    s0.Keeps M (State.islandOff s c) := by
  unfold State.islandOff
  repeat' first
    | with_reducible assumption | exact mask_sub hM (by decide) | with_reducible exact Rg.CORE_ARR_RAMP_RAMP_DOWNS_in _
    | with_reducible apply State.modCore_keeps | with_reducible apply State.bump_keeps

theorem State.arrayStart_keeps {s0 : State} {M : Nat} (hM : 72057594046316544 ||| M = M) {s : State} (hk : s0.Keeps M s) (c : Nat)
    (flow : Nat) (quad : Nat) (kparts : Nat) (work : List Nat) (exec : Bool) :
    s0.Keeps M (State.arrayStart s c flow quad kparts work exec) := by
  unfold State.arrayStart
  repeat' first
    | with_reducible assumption | exact mask_sub hM (by decide) | with_reducible exact Rg.CORE_ARR_ERRORS_SWITCHES_in _
    | with_reducible exact Rg.CORE_ARR_STATE_in _ | with_reducible apply State.rampUp_keeps
    | with_reducible apply State.modCore_keeps | with_reducible apply State.bump_keeps | with_reducible apply State.wr_keeps
    | with_reducible refine keeps_foldl _ ?_ (fun u x hu => ?_) | with_reducible apply keeps_ite

theorem State.cycles_keeps {s0 : State} {M : Nat} {c : RegBlock} {s : State} {fs : List RF} (i : ∀ f ∈ fs, c.has f.addr)
    (b : 2 ^ c.idx ||| M = M) (hk : s0.Keeps M s) : s0.Keeps M (State.cycles s fs) := by
  exact keeps_foldl_mem fs hk fun u f hf hu => State.raise_keeps (i f hf) b hu

theorem arrayCycles_in (c : Nat) (w : List Nat) : ∀ f ∈ arrayCycles c w, RegBlock.core.has f.addr := fun f hf => by
  obtain ⟨a, _, hf⟩ := List.mem_flatMap.1 hf
  simp only [List.mem_cons, List.not_mem_nil, or_false] at hf
  rcases hf with rfl | rfl | rfl
  · exact Rg.CORE_ARR_BUSY_in _ _
  · exact Rg.CORE_ARR_STALL_in _ _
  · exact Rg.CORE_ARR_STALL_in _ _

theorem linkCycles_in (c : Nat) : ∀ f ∈ linkCycles c, RegBlock.core.has f.addr := fun f hf => by
  obtain ⟨a, _, hf⟩ := List.mem_flatMap.1 hf
  simp only [List.mem_cons, List.not_mem_nil, or_false] at hf
  rcases hf with rfl | rfl <;> exact Rg.CORE_SEM_WAIT_in _ _

theorem gemmCycles_in (q : Gemm) (v : Variant) (c : Nat) : ∀ f ∈ q.cycles v c, RegBlock.core.has f.addr := by
  unfold Gemm.cycles
  refine List.forall_mem_append.2 ⟨List.forall_mem_append.2 ⟨List.forall_mem_append.2 ⟨List.forall_mem_append.2 ⟨arrayCycles_in _ _, linkCycles_in _⟩,
    ?_⟩, ?_⟩, ?_⟩
  all_goals split
  all_goals simp only [List.forall_mem_cons, List.not_mem_nil, false_imp_iff, implies_true, and_true]
  · exact Rg.CORE_ARR_WS_in _
  · exact Rg.CORE_VEC_BUSY_in _
  · exact ⟨Rg.CORE_VEC_BUSY_in _, Rg.CORE_VEC_EXPAND_in _⟩

theorem State.noteTables_keeps {s0 : State} {M : Nat} (hM : 72057594037927936 ||| M = M) {s : State} (hk : s0.Keeps M s) (c : Nat)
    (tables : List Bytes) :
    s0.Keeps M (State.noteTables s c tables) := by
  unfold State.noteTables
  repeat' first
    | with_reducible assumption | exact mask_sub hM (by decide) | with_reducible exact Rg.CORE_FMT_TABLE_in _ _
    | with_reducible exact Rg.CORE_FMT_TBL_LOADS_LOADS_in _ | with_reducible apply State.bump_keeps
    | with_reducible apply State.wr_keeps | with_reducible refine keeps_forN _ ?_ (fun u x hu => ?_) | split

theorem State.mcastUse_keeps {s0 : State} {M : Nat} (hM : 72057594071482368 ||| M = M) {s : State} (hk : s0.Keeps M s) (t : Nat)
    (lc : Nat) (c : Nat) (again : Bool) :
    s0.Keeps M (State.mcastUse s t lc c again) := by
  unfold State.mcastUse
  repeat' first
    | with_reducible assumption | exact mask_sub hM (by decide) | with_reducible exact Rg.CORE_MCAST_REFETCH_in _
    | with_reducible apply State.bump_keeps | with_reducible refine keeps_foldl _ ?_ (fun u x hu => ?_)
    | simp only [keeps_mcasts (mask_sub hM (by decide))] | with_reducible apply keeps_ite

theorem State.sparseCounts_keeps {s0 : State} {M : Nat} (hM : 216172782113783808 ||| M = M) {s : State} (hk : s0.Keeps M s) (q :
    Gemm) (lc : Nat) (c : Nat) {r : Prod} (hk : s0.Keeps M r.f.st) :
    s0.Keeps M (State.sparseCounts s q lc c r) := by
  unfold State.sparseCounts
  repeat' first
    | with_reducible assumption | exact mask_sub hM (by decide) | with_reducible exact Rg.CLU_SKM_RAW_EXPANDED_in _
    | with_reducible exact Rg.CLU_SKM_OVERFULL_NONFINITE_in _ | with_reducible exact Rg.CLU_SKM_WINDOWS_WINDOWS_in _
    | with_reducible exact Rg.CLU_SKM_STEPS_STEPS_in _ | with_reducible exact Rg.CORE_DMA_SPARSE_TILES_in _
    | with_reducible exact Rg.CORE_DMA_SPARSE_RANGE_TILES_in _ | with_reducible apply State.bump_keeps
    | with_reducible apply keeps_ite

theorem State.gemmCounts_keeps {s0 : State} {M : Nat} (hM : 216172782147338240 ||| M = M) {s : State} (hk : s0.Keeps M s) (q :
    Gemm) (t : Nat) (lc : Nat) (c : Nat) {r : Prod} (hk : s0.Keeps M r.f.st) (out : Nat) :
    s0.Keeps M (State.gemmCounts s q t lc c r out) := by
  unfold State.gemmCounts
  repeat' first
    | with_reducible assumption | exact mask_sub hM (by decide) | with_reducible apply keeps_bump_ite
    | with_reducible exact Rg.CORE_EVENTS_PLAN_STREAM2_in _ | with_reducible exact Rg.CORE_ARR_WS_WS_PASSES_in _
    | with_reducible exact Rg.CORE_DMA_XPOSE_BLOCKS_in _ | with_reducible exact Rg.CORE_DMA_XPOSE_POISON_in _
    | with_reducible exact Rg.CORE_FMT_AFFINE_BLKS_HW_BLOCKS_in _ | with_reducible exact Rg.CORE_FMT_VEC_AFFINE_VEC_BLOCKS_in _
    | with_reducible apply State.sparseCounts_keeps | with_reducible apply State.mcastUse_keeps
    | with_reducible apply State.dmaBytes_keeps | with_reducible apply State.bump_keeps | with_reducible apply keeps_ite

theorem State.noteCells_keeps {s0 : State} {M : Nat} (hM : 8388609 ||| M = M) {s : State} (hk : s0.Keeps M s) (q : Gemm) (c : Nat)
    {r : Prod} (hk : s0.Keeps M r.f.st) (parity : Bool) :
    s0.Keeps M (State.noteCells s q c r parity) := by
  unfold State.noteCells
  repeat' first
    | with_reducible assumption | exact mask_sub hM (by decide) | with_reducible apply State.modArray_keeps
    | with_reducible apply State.modCore_keeps | with_reducible refine keeps_foldl _ ?_ (fun u x hu => ?_)
    | simp only [keeps_free (mask_sub hM (by decide))]

theorem State.loseVec_keeps {s0 : State} {M : Nat} (hM : 8388608 ||| M = M) {s : State} (hk : s0.Keeps M s) (c : Nat) :
    s0.Keeps M (State.loseVec s c) := by
  unfold State.loseVec
  repeat' first
    | with_reducible assumption | exact mask_sub hM (by decide) | with_reducible apply State.modCore_keeps

theorem Store.group_keeps {s0 : State} {M : Nat} (hM : 74450131356868614 ||| M = M) {w : Store} (hk : s0.Keeps M w.st) (q : Gemm)
    (arr : Nat) (rows : Rows) (rb : Nat) (cb : Nat) :
    s0.Keeps M (Store.group w q arr rows rb cb).st := by
  unfold Store.group
  repeat' first
    | with_reducible assumption | exact mask_sub hM (by decide) | with_reducible apply Store.rowsT_keeps
    | with_reducible apply Store.rows_keeps | split

theorem State.gemmOut_keeps {s0 : State} {M : Nat} (hM : 227581280421928967 ||| M = M) {s : State} (hk : s0.Keeps M s) (q : Gemm)
    (t : Nat) (lc : Nat) (st : List Bytes) (rows : Rows) (parity : Bool) :
    s0.Keeps M (State.gemmOut s q t lc st rows parity).w.st := by
  unfold State.gemmOut
  repeat' first
    | with_reducible assumption | exact mask_sub hM (by decide) | with_reducible apply Store.group_keeps
    | with_reducible apply StageSt.stage_keeps | with_reducible apply Store.rowsT_keeps | with_reducible apply Store.rows_keeps
    | with_reducible apply State.freeNext_keeps | with_reducible refine keeps_foldl_store _ ?_ (fun u x hu => ?_)
    | with_reducible refine keeps_foldl_stage _ ?_ (fun u x hu => ?_) | split

theorem State.gemmRun_keeps {s0 : State} {M : Nat} (hM : 227581280463872007 ||| M = M) {s : State} (hk : s0.Keeps M s) (q : Gemm)
    (t : Nat) (lc : Nat) (slot : Nat) (st : List Bytes) (conv : Bytes) (parity : Bool) :
    s0.Keeps M (State.gemmRun s q t lc slot st conv parity) := by
  unfold State.gemmRun
  repeat' first
    | with_reducible assumption | exact mask_sub hM (by decide) | with_reducible exact Rg.CORE_DMA_BYTES_in _ _
    | with_reducible exact Rg.CORE_EVENTS_APPEND_FAIL_in _ | with_reducible exact Rg.CORE_ARR_ERRORS_ACC_PARITY_in _
    | with_reducible exact gemmCycles_in _ _ _ | with_reducible refine State.cycles_keeps (c := .core) ?_ ?_ ?_
    | with_reducible apply State.gemmOut_keeps | with_reducible apply State.loseVec_keeps
    | with_reducible apply State.noteCells_keeps | with_reducible apply State.gemmCounts_keeps
    | with_reducible apply State.noteTables_keeps | with_reducible apply State.arrayStart_keeps
    | with_reducible apply State.fmtEvents_keeps | with_reducible apply State.flagTask_keeps
    | with_reducible apply Fetch.product_keeps | with_reducible apply State.taskStatus_keeps
    | with_reducible apply State.bump_keeps | with_reducible apply keeps_ite

theorem State.gemmStages_keeps {s0 : State} {M : Nat} (hM : 78953730968510464 ||| M = M) {s : State} (hk : s0.Keeps M s) (t : Nat)
    (q : Gemm) :
    s0.Keeps M (State.gemmStages s t q).2 := by
  unfold State.gemmStages
  repeat' first
    | with_reducible assumption | exact mask_sub hM (by decide) | with_reducible apply State.taskBlk_keeps
    | with_reducible refine keeps_of_snd (by with_reducible assumption) ?_ | split | dsimp only

theorem State.gemmConv_keeps {s0 : State} {M : Nat} (hM : 78953730968510464 ||| M = M) {s : State} (hk : s0.Keeps M s) (t : Nat)
    (q : Gemm) :
    s0.Keeps M (State.gemmConv s t q).2 := by
  unfold State.gemmConv
  repeat' first
    | with_reducible assumption | exact mask_sub hM (by decide) | with_reducible apply State.taskBlk_keeps | split

theorem State.gemmTask_keeps {s0 : State} {M : Nat} (hM : 809706734793256967 ||| M = M) {s : State} (hk : s0.Keeps M s) (t : Nat)
    (parity : Bool) :
    s0.Keeps M (State.gemmTask s t parity) := by
  unfold State.gemmTask
  repeat' first
    | with_reducible assumption | exact mask_sub hM (by decide) | with_reducible apply State.gemmConv_keeps
    | with_reducible apply State.gemmStages_keeps | with_reducible apply State.gemmRun_keeps
    | with_reducible apply State.partDone_keeps | with_reducible apply State.taskStatus_keeps
    | with_reducible refine keeps_of_snd (by with_reducible assumption) ?_ | with_reducible apply keeps_ite | split

theorem VBuf.load_keeps {s0 : State} {M : Nat} (hM : 74450131340091392 ||| M = M) (b : VBuf) {f : Fetch} (hk : s0.Keeps M f.st) (p
    : Nat) (bind : Option (Nat × Nat)) (x : Bytes) :
    s0.Keeps M (VBuf.load b f p bind x).2.1.st := by
  unfold VBuf.load
  repeat' first
    | with_reducible assumption | exact mask_sub hM (by decide) | with_reducible apply Fetch.gets_keeps

theorem VBuf.store_keeps {s0 : State} {M : Nat} (hM : 74450131356868614 ||| M = M) (b : VBuf) {w : Store} (hk : s0.Keeps M w.st)
    (p : Nat) (bind : Option (Nat × Nat)) (x : Bytes) :
    s0.Keeps M (VBuf.store b w p bind x).1.st := by
  unfold VBuf.store
  repeat' first
    | with_reducible assumption | exact mask_sub hM (by decide) | with_reducible apply Store.line_keeps
    | with_reducible apply Store.put_keeps | with_reducible refine keeps_foldl_store _ ?_ (fun u x hu => ?_) | split

theorem State.vecTask_keeps {s0 : State} {M : Nat} (hM : 800694037980377095 ||| M = M) {s : State} (hk : s0.Keeps M s) (t : Nat) :
    s0.Keeps M (State.vecTask s t) := by
  unfold State.vecTask
  repeat' first
    | with_reducible assumption | exact mask_sub hM (by decide) | with_reducible exact Rg.CORE_VEC_BUSY_BUSY_in _
    | with_reducible exact Rg.CORE_DMA_XPOSE_POISON_in _ | with_reducible exact linkCycles_in _
    | (with_reducible exact List.forall_mem_nil _) | (with_reducible refine List.forall_mem_append.2 ⟨?_, ?_⟩)
    | (with_reducible refine List.forall_mem_cons.2 ⟨?_, ?_⟩) | with_reducible refine State.cycles_keeps (c := .core) ?_ ?_ ?_
    | with_reducible apply VBuf.store_keeps | with_reducible apply VBuf.load_keeps | with_reducible apply State.dmaBytes_keeps
    | with_reducible apply State.fmtEvents_keeps | with_reducible apply State.flagTask_keeps
    | with_reducible apply State.taskBlk_keeps | with_reducible apply State.partDone_keeps
    | with_reducible apply State.taskStatus_keeps | with_reducible apply State.modCore_keeps
    | with_reducible apply State.bump_keeps | with_reducible refine keeps_foldl_fst_store _ ?_ (fun u x hu => ?_)
    | with_reducible refine keeps_foldl_mid_fetch _ ?_ (fun u x hu => ?_)
    | with_reducible refine keeps_of_snd (by with_reducible assumption) ?_ | simp only [keeps_free (mask_sub hM (by decide))]
    | with_reducible apply keeps_ite | split

theorem Store.copyLine_keeps {s0 : State} {M : Nat} (hM : 74450131356868614 ||| M = M) {w : Store} (hk : s0.Keeps M w.st) (p :
    Nat) (a : Nat) (l : Line) :
    s0.Keeps M (Store.copyLine w p a l).st := by
  unfold Store.copyLine
  repeat' first
    | with_reducible assumption | exact mask_sub hM (by decide) | with_reducible apply Store.put_keeps
    | with_reducible refine keeps_foldl_store _ ?_ (fun u x hu => ?_)

theorem State.copyTask_keeps {s0 : State} {M : Nat} (hM : 800694037971988487 ||| M = M) {s : State} (hk : s0.Keeps M s) (t : Nat) :
    s0.Keeps M (State.copyTask s t) := by
  unfold State.copyTask
  repeat' first
    | with_reducible assumption | exact mask_sub hM (by decide) | with_reducible exact Rg.CORE_DMA_XPOSE_POISON_in _
    | with_reducible exact Rg.CORE_DMA_XPOSE_BLOCKS_in _ | with_reducible exact linkCycles_in _
    | with_reducible refine State.cycles_keeps (c := .core) ?_ ?_ ?_ | with_reducible apply Store.copyLine_keeps
    | with_reducible apply State.dmaBytes_keeps | with_reducible apply State.flagTask_keeps | with_reducible apply Store.put_keeps
    | with_reducible apply Fetch.gets_keeps | with_reducible apply State.partDone_keeps
    | with_reducible apply State.taskStatus_keeps | with_reducible apply State.bump_keeps
    | with_reducible refine keeps_foldl_store _ ?_ (fun u x hu => ?_) | with_reducible apply keeps_ite | split

end Sys2Proof.Machine
end

