-- ==== Sys2Proof/Laws/KeepsSkim.lean ====
section
/-!
SUPPORT. The operations of Machine/Skim.lean keep the relation of Laws/Keeps.lean.
-/
namespace Sys2Proof.Machine

theorem State.skimAsk_keeps {s0 : State} {M : Nat} (hM : 16777216 ||| M = M) {s : State} (hk : s0.Keeps M s) (q : Gemm) (c : Nat)
    (t : Nat) :
    s0.Keeps M (State.skimAsk s q c t) := by
  unfold State.skimAsk
  repeat' first
    | with_reducible assumption | exact mask_sub hM (by decide) | with_reducible apply State.modCluster_keeps
    | with_reducible apply keeps_ite

theorem State.noteTile_keeps {s0 : State} {M : Nat} (hM : 144115188075855872 ||| M = M) {s : State} (hk : s0.Keeps M s) (k : Nat)
    (t : Tile) (bytes : Nat) :
    s0.Keeps M (State.noteTile s k t bytes) := by
  unfold State.noteTile
  repeat' first
    | with_reducible assumption | exact mask_sub hM (by decide) | with_reducible exact Rg.CLU_SKM_RAW_RAW_TILES_in _
    | with_reducible exact Rg.CLU_SKM_TILES_PACKED_TILES_in _ | with_reducible exact Rg.CLU_SKM_TILES_RL_TILES_in _
    | with_reducible exact Rg.CLU_SKM_ERRORS_RANGE_TILES_in _ | with_reducible exact Rg.CLU_SKM_ERRORS_POISON_TILES_in _
    | with_reducible exact Rg.CLU_SKM_BYTES_BYTES_IN_in _ | with_reducible apply State.bump_keeps | with_reducible apply keeps_ite
    | split

theorem State.serveTile_keeps {s0 : State} {M : Nat} (hM : 218565319432724480 ||| M = M) {s : State} (hk : s0.Keeps M s) (k : Nat)
    (r : TileReq) :
    s0.Keeps M (State.serveTile s k r) := by
  unfold State.serveTile
  repeat' first
    | with_reducible assumption | exact mask_sub hM (by decide) | with_reducible exact Rg.CLU_SKM_BYTES_BYTES_IN_in _
    | with_reducible exact Rg.CLU_SKM_ERRORS_POISON_TILES_in _ | with_reducible exact Rg.CLU_SKM_OVERFULL_OVERFULL_in _
    | with_reducible apply State.noteTile_keeps | with_reducible apply directly_keeps | with_reducible apply BStream.reader_keeps
    | with_reducible apply Fetch.getsB_keeps | with_reducible apply Fetch.tile_keeps | with_reducible apply Fetch.gets_keeps
    | with_reducible apply State.bump_keeps | with_reducible apply keeps_ite | split | intro _

theorem State.skimServe_keeps {s0 : State} {M : Nat} (hM : 218565319432724480 ||| M = M) {s : State} (hk : s0.Keeps M s) (k : Nat) :
    s0.Keeps M (State.skimServe s k) := by
  unfold State.skimServe
  repeat' first
    | with_reducible assumption | exact mask_sub hM (by decide) | with_reducible apply State.serveTile_keeps
    | with_reducible apply State.modCluster_keeps | split

theorem State.skimDisable_keeps {s0 : State} {M : Nat} (hM : 144115188092633088 ||| M = M) {s : State} (hk : s0.Keeps M s) (k :
    Nat) (v : W64) :
    s0.Keeps M (State.skimDisable s k v) := by
  unfold State.skimDisable
  repeat' first
    | with_reducible assumption | exact mask_sub hM (by decide) | with_reducible exact Rg.CLU_SKM_CTRL_DISABLE_in _
    | with_reducible apply State.modCluster_keeps | with_reducible apply State.setF_keeps | with_reducible apply keeps_ite

theorem SkimCtx.dense_keeps {s0 : State} {M : Nat} (hM : 74450131340091392 ||| M = M) (c : SkimCtx) {s : State} (hk : s0.Keeps M
    s) :
    s0.Keeps M (SkimCtx.dense c s).2.st := by
  unfold SkimCtx.dense
  repeat' first
    | with_reducible assumption | exact mask_sub hM (by decide) | with_reducible apply Fetch.dense_keeps

theorem State.skimBytes_keeps {s0 : State} {M : Nat} (hM : 216172782113783808 ||| M = M) {s : State} (hk : s0.Keeps M s) (lc :
    Nat) (i : Nat) (o : Nat) :
    s0.Keeps M (State.skimBytes s lc i o) := by
  unfold State.skimBytes
  repeat' first
    | with_reducible assumption | exact mask_sub hM (by decide) | with_reducible exact Rg.CLU_SKM_BYTES_BYTES_IN_in _
    | with_reducible apply State.dmaBytes_keeps | with_reducible apply State.bump_keeps | with_reducible apply keeps_ite

theorem State.skimOver_keeps {s0 : State} {M : Nat} (hM : 144115188075855872 ||| M = M) {s : State} (hk : s0.Keeps M s) (lc : Nat)
    (n : Nat) :
    s0.Keeps M (State.skimOver s lc n) := by
  unfold State.skimOver
  repeat' first
    | with_reducible assumption | exact mask_sub hM (by decide) | with_reducible exact Rg.CLU_SKM_OVERFULL_OVERFULL_in _
    | with_reducible apply State.bump_keeps | with_reducible apply keeps_ite

theorem State.skimXpose_keeps {s0 : State} {M : Nat} (hM : 72057594037927936 ||| M = M) {s : State} (hk : s0.Keeps M s) (c :
    SkimCtx) :
    s0.Keeps M (State.skimXpose s c) := by
  unfold State.skimXpose
  repeat' first
    | with_reducible assumption | exact mask_sub hM (by decide) | with_reducible exact Rg.CORE_DMA_XPOSE_BLOCKS_in _
    | with_reducible apply State.bump_keeps | with_reducible apply keeps_ite

theorem State.skimEncode_keeps {s0 : State} {M : Nat} (hM : 800694037971988487 ||| M = M) {s : State} (hk : s0.Keeps M s) (t :
    Nat) :
    s0.Keeps M (State.skimEncode s t) := by
  unfold State.skimEncode
  repeat' first
    | with_reducible assumption | exact mask_sub hM (by decide) | with_reducible apply State.skimXpose_keeps
    | with_reducible apply State.skimOver_keeps | with_reducible apply State.skimBytes_keeps
    | with_reducible apply SkimCtx.dense_keeps | with_reducible apply State.flagTask_keeps | with_reducible apply Store.put_keeps
    | with_reducible apply State.partDone_keeps | with_reducible apply State.taskStatus_keeps
    | with_reducible refine keeps_foldl_fst_store _ ?_ (fun u x hu => ?_) | with_reducible apply keeps_ite | split

theorem State.skimDecode_keeps {s0 : State} {M : Nat} (hM : 800694037971988487 ||| M = M) {s : State} (hk : s0.Keeps M s) (t :
    Nat) :
    s0.Keeps M (State.skimDecode s t) := by
  unfold State.skimDecode
  repeat' first
    | with_reducible assumption | exact mask_sub hM (by decide) | with_reducible exact Rg.CORE_DMA_SPARSE_TILES_in _
    | with_reducible exact Rg.CORE_DMA_SPARSE_RANGE_TILES_in _ | with_reducible apply State.skimXpose_keeps
    | with_reducible apply State.skimBytes_keeps | with_reducible apply State.noteTile_keeps
    | with_reducible apply State.flagTask_keeps | with_reducible apply Store.line_keeps | with_reducible apply Store.put_keeps
    | with_reducible apply directly_keeps | with_reducible apply Fetch.tiles_keeps | with_reducible apply State.partDone_keeps
    | with_reducible apply State.taskStatus_keeps | with_reducible apply State.bump_keeps
    | with_reducible refine keeps_foldl _ ?_ (fun u x hu => ?_) | with_reducible refine keeps_foldl_store _ ?_ (fun u x hu => ?_)
    | with_reducible apply keeps_ite | split | intro _

theorem State.skimCheck24_keeps {s0 : State} {M : Nat} (hM : 800694037971988487 ||| M = M) {s : State} (hk : s0.Keeps M s) (t :
    Nat) :
    s0.Keeps M (State.skimCheck24 s t) := by
  unfold State.skimCheck24
  repeat' first
    | with_reducible assumption | exact mask_sub hM (by decide) | with_reducible apply State.skimXpose_keeps
    | with_reducible apply State.skimOver_keeps | with_reducible apply State.skimBytes_keeps
    | with_reducible apply SkimCtx.dense_keeps | with_reducible apply State.flagTask_keeps | with_reducible apply Store.put_keeps
    | with_reducible apply State.partDone_keeps | with_reducible apply State.taskStatus_keeps | with_reducible apply keeps_ite
    | split

end Sys2Proof.Machine
end

