-- ==== Sys2Proof/Laws/KeepsAttn.lean ====
section
/-!
SUPPORT. The operations of Machine/Attn.lean keep the relation of Laws/Keeps.lean.
-/
namespace Sys2Proof.Machine

theorem State.attnCtx_keeps {s0 : State} {M : Nat} (hM : 800694037971988487 ||| M = M) {s : State} (hk : s0.Keeps M s) (t : Nat)
    (i : Nat) :
    s0.Keeps M (State.attnCtx s t i).2 := by
  unfold State.attnCtx
  repeat' first
    | with_reducible assumption | exact mask_sub hM (by decide) | with_reducible exact Rg.DSP_EVENTS_BAD_BLOCK_in _
    | with_reducible apply State.taskBlk_keeps | with_reducible apply State.partDone_keeps
    | with_reducible apply State.taskStatus_keeps | with_reducible apply State.bump_keeps
    | with_reducible refine keeps_of_snd (by with_reducible assumption) ?_ | split | dsimp only

theorem Fetch.rowRecs_keeps {s0 : State} {M : Nat} (hM : 74450131340091392 ||| M = M) {f : Fetch} (hk : s0.Keeps M f.st) (c :
    AttnCtx) (lo : Nat) (hi : Nat) :
    s0.Keeps M (Fetch.rowRecs f c lo hi).2.2.st := by
  unfold Fetch.rowRecs
  repeat' first
    | with_reducible assumption | exact mask_sub hM (by decide) | with_reducible apply Fetch.get_keeps

theorem Fetch.frame_keeps {s0 : State} {M : Nat} (hM : 74450131356803072 ||| M = M) {f : Fetch} (hk : s0.Keeps M f.st) (p : Nat)
    (lc : Nat) (i : Nat) (off : Nat) (n : Nat) :
    s0.Keeps M (Fetch.frame f p lc i off n).2.st := by
  unfold Fetch.frame
  repeat' first
    | with_reducible assumption | exact mask_sub hM (by decide) | with_reducible apply Fetch.wcTouch_keeps
    | with_reducible apply State.ramRead_keeps | with_reducible refine keeps_foldl_fetch _ ?_ (fun u x hu => ?_) | split

theorem State.entryLost_keeps {s0 : State} {M : Nat} (hM : 800694037971988487 ||| M = M) {s : State} (hk : s0.Keeps M s) (p : Nat)
    (i : Nat) :
    s0.Keeps M (State.entryLost s p i) := by
  unfold State.entryLost
  repeat' first
    | with_reducible assumption | exact mask_sub hM (by decide) | with_reducible apply State.jobFault_keeps
    | with_reducible apply keeps_ite | split

theorem State.pageOf_keeps {s0 : State} {M : Nat} (hM : 800694037971988487 ||| M = M) {s : State} (hk : s0.Keeps M s) (c :
    AttnCtx) (list : Nat) (h : ListHdr) (head : Nat) (blk : Nat) (half : Nat) :
    s0.Keeps M (State.pageOf s c list h head blk half).2 := by
  unfold State.pageOf
  repeat' first
    | with_reducible assumption | exact mask_sub hM (by decide) | with_reducible exact Rg.CORE_TLB_STATS_HITS_in _
    | with_reducible exact Rg.CORE_TLB_STATS_MISSES_in _ | with_reducible exact Rg.CORE_TLB_WALK_WAIT_in _
    | (with_reducible exact List.forall_mem_nil _) | (with_reducible refine List.forall_mem_cons.2 ⟨?_, ?_⟩)
    | with_reducible refine State.cycles_keeps (c := .core) ?_ ?_ ?_ | with_reducible apply State.entryLost_keeps
    | with_reducible apply State.tlbLoad_keeps | with_reducible apply State.walk_keeps | with_reducible apply State.bump_keeps
    | with_reducible refine keeps_of_snd (by with_reducible assumption) ?_ | simp only [keeps_walks (mask_sub hM (by decide))]
    | split

theorem Fetch.pageSlots_keeps {s0 : State} {M : Nat} (hM : 74450131356803072 ||| M = M) {f : Fetch} (hk : s0.Keeps M f.st) (c :
    AttnCtx) (i : Nat) (fill : Nat) :
    s0.Keeps M (Fetch.pageSlots f c i fill).2.st := by
  unfold Fetch.pageSlots
  repeat' first
    | with_reducible assumption | exact mask_sub hM (by decide) | with_reducible apply Fetch.frame_keeps
    | with_reducible refine keeps_foldl_snd_fetch _ ?_ (fun u x hu => ?_)

theorem Stream.block_keeps {s0 : State} {M : Nat} (hM : 800694037971988487 ||| M = M) {x : Stream} (hk : s0.Keeps M x.f.st) (c :
    AttnCtx) (rows : List AttnRow) (list : Nat) (h : ListHdr) (head : Nat) (blk : Nat) :
    s0.Keeps M (Stream.block x c rows list h head blk).f.st := by
  unfold Stream.block
  repeat' first
    | with_reducible assumption | exact mask_sub hM (by decide) | with_reducible apply Fetch.pageSlots_keeps
    | with_reducible apply State.pageOf_keeps | with_reducible refine keeps_foldl_snd_fetch _ ?_ (fun u x hu => ?_)
    | with_reducible refine keeps_foldl_fifth _ ?_ (fun u x hu => ?_)
    | with_reducible refine keeps_of_snd (by with_reducible assumption) ?_ | split | dsimp only

theorem Fetch.stream_keeps {s0 : State} {M : Nat} (hM : 800694037971988487 ||| M = M) {f : Fetch} (hk : s0.Keeps M f.st) (c :
    AttnCtx) (rows : List AttnRow) (e : Nat) (head : Nat) :
    s0.Keeps M (Fetch.stream f c rows e head).f.st := by
  unfold Fetch.stream
  repeat' first
    | with_reducible assumption | exact mask_sub hM (by decide) | with_reducible apply Stream.block_keeps
    | with_reducible apply State.listHdr_keeps | with_reducible apply State.isolation_keeps
    | with_reducible refine keeps_foldl_stream _ ?_ (fun u x hu => ?_)
    | with_reducible refine keeps_of_snd (by with_reducible assumption) ?_ | split | dsimp only

theorem Stream.ringFrame_keeps {s0 : State} {M : Nat} (hM : 218565319415947264 ||| M = M) {x : Stream} (hk : s0.Keeps M x.f.st) (c
    : AttnCtx) (head : Nat) (i : Nat) :
    s0.Keeps M (Stream.ringFrame x c head i).f.st := by
  unfold Stream.ringFrame
  repeat' first
    | with_reducible assumption | exact mask_sub hM (by decide) | with_reducible exact Rg.CLU_OST_ERRORS_CRC_FAIL_in _
    | with_reducible apply Fetch.get_keeps | with_reducible apply State.bump_keeps | simp only | split

theorem Fetch.keys_keeps {s0 : State} {M : Nat} (hM : 800694037971988487 ||| M = M) {f : Fetch} (hk : s0.Keeps M f.st) (c :
    AttnCtx) (rows : List AttnRow) (e : Nat) :
    s0.Keeps M (Fetch.keys f c rows e).f.st := by
  unfold Fetch.keys
  repeat' first
    | with_reducible assumption | exact mask_sub hM (by decide) | with_reducible apply Stream.ringFrame_keeps
    | with_reducible apply Fetch.stream_keeps | with_reducible refine keeps_foldl_stream _ ?_ (fun u x hu => ?_) | split

theorem Fetch.vec_keeps {s0 : State} {M : Nat} (hM : 74450131340091392 ||| M = M) {f : Fetch} (hk : s0.Keeps M f.st) (c : AttnCtx)
    (w : FmtWord) (a : Nat) :
    s0.Keeps M (Fetch.vec f c w a).2.st := by
  unfold Fetch.vec
  repeat' first
    | with_reducible assumption | exact mask_sub hM (by decide) | with_reducible apply Fetch.get_keeps

theorem Fetch.qvec_keeps {s0 : State} {M : Nat} (hM : 74450131340091392 ||| M = M) {f : Fetch} (hk : s0.Keeps M f.st) (c :
    AttnCtx) (base : Nat) (r : Nat) (qh : Nat) :
    s0.Keeps M (Fetch.qvec f c base r qh).2.st := by
  unfold Fetch.qvec
  repeat' first
    | with_reducible assumption | exact mask_sub hM (by decide) | with_reducible apply Fetch.vec_keeps

theorem Fetch.softStart_keeps {s0 : State} {M : Nat} (hM : 74450131340091392 ||| M = M) {f : Fetch} (hk : s0.Keeps M f.st) (c :
    AttnCtx) (r : Nat) (qh : Nat) :
    s0.Keeps M (Fetch.softStart f c r qh).2.st := by
  unfold Fetch.softStart
  repeat' first
    | with_reducible assumption | exact mask_sub hM (by decide) | with_reducible apply Fetch.get_keeps | split

theorem Fetch.attnRow_keeps {s0 : State} {M : Nat} (hM : 74450131340091393 ||| M = M) {f : Fetch} (hk : s0.Keeps M f.st) (c :
    AttnCtx) (row : AttnRow) (qh : Nat) (ks : List KeyBlk) :
    s0.Keeps M (Fetch.attnRow f c row qh ks).2.st := by
  unfold Fetch.attnRow
  repeat' first
    | with_reducible assumption | exact mask_sub hM (by decide) | with_reducible apply Fetch.softStart_keeps
    | with_reducible apply Fetch.qvec_keeps | simp only [keeps_free (mask_sub hM (by decide))]

theorem Store.put32s_keeps {s0 : State} {M : Nat} (hM : 74450131356868614 ||| M = M) {w : Store} (hk : s0.Keeps M w.st) (p : Nat)
    (a : Nat) (xs : List Num) (bad : Bool) :
    s0.Keeps M (Store.put32s w p a xs bad).st := by
  unfold Store.put32s
  repeat' first
    | with_reducible assumption | exact mask_sub hM (by decide) | with_reducible apply Store.put_keeps

theorem Store.noteScales_keeps {s0 : State} {M : Nat} (hM : 8192 ||| M = M) {w : Store} (hk : s0.Keeps M w.st) (a : Nat) (n : Nat)
    (bs : List Nat) :
    s0.Keeps M (Store.noteScales w a n bs).st := by
  unfold Store.noteScales
  repeat' first
    | with_reducible assumption | exact mask_sub hM (by decide) | simp only [keeps_ecc (mask_sub hM (by decide))]

theorem Store.attnRow_keeps {s0 : State} {M : Nat} (hM : 74450131356868614 ||| M = M) {w : Store} (hk : s0.Keeps M w.st) (c :
    AttnCtx) (y : RowOut) (k : RowMark) :
    s0.Keeps M (Store.attnRow w c y k).st := by
  unfold Store.attnRow
  repeat' first
    | with_reducible assumption | exact mask_sub hM (by decide) | with_reducible apply Store.noteScales_keeps
    | with_reducible apply Store.put32s_keeps | with_reducible apply Store.line_keeps | split

theorem State.attnCounts_keeps {s0 : State} {M : Nat} (hM : 72057594037927936 ||| M = M) {s : State} (hk : s0.Keeps M s) (c :
    AttnCtx) (pc : Nat) (g : Nat × List AttnRow) (ks : List KeyBlk) (hidden : List Nat) (qp : List (List Bool)) :
    s0.Keeps M (State.attnCounts s c pc g ks hidden qp) := by
  unfold State.attnCounts
  repeat' first
    | with_reducible assumption | exact mask_sub hM (by decide) | with_reducible exact Rg.CORE_ATTN_BLOCKS_VISITS_in _
    | with_reducible exact Rg.CORE_ATTN_MASK_SKIPPED_in _ | with_reducible exact Rg.CORE_ATTN_WIDEN_WIDENED_in _
    | with_reducible exact Rg.CORE_ATTN_WIDEN_WIDEN_INEXACT_in _ | with_reducible exact Rg.CORE_ARR_WS_WS_PASSES_in _
    | with_reducible exact Rg.CORE_DMA_XPOSE_POISON_in _ | with_reducible apply State.fmtEvents_keeps
    | with_reducible apply State.bump_keeps | with_reducible apply keeps_ite

theorem Fetch.allKeys_keeps {s0 : State} {M : Nat} (hM : 800694037971988487 ||| M = M) {f : Fetch} (hk : s0.Keeps M f.st) (c :
    AttnCtx) (rows : List AttnRow) :
    s0.Keeps M (Fetch.allKeys f c rows).2.2.2.st := by
  unfold Fetch.allKeys
  repeat' first
    | with_reducible assumption | exact mask_sub hM (by decide) | with_reducible apply Fetch.keys_keeps
    | with_reducible refine keeps_foldl_fourth_fetch _ ?_ (fun u x hu => ?_) | split

theorem State.attnArrays_keeps {s0 : State} {M : Nat} (hM : 72057594046316544 ||| M = M) {s : State} (hk : s0.Keeps M s) (c :
    AttnCtx) (rows : List AttnRow) :
    s0.Keeps M (State.attnArrays s c rows) := by
  unfold State.attnArrays
  repeat' first
    | with_reducible assumption | exact mask_sub hM (by decide) | with_reducible exact Rg.CORE_VEC_BUSY_BUSY_in _
    | with_reducible exact Rg.CORE_ARR_WS_WS_BUBBLE_in _ | with_reducible exact arrayCycles_in _ _
    | with_reducible exact linkCycles_in _ | (with_reducible exact List.forall_mem_nil _)
    | (with_reducible refine List.forall_mem_append.2 ⟨?_, ?_⟩) | (with_reducible refine List.forall_mem_cons.2 ⟨?_, ?_⟩)
    | with_reducible refine State.cycles_keeps (c := .core) ?_ ?_ ?_ | with_reducible apply State.arrayStart_keeps
    | with_reducible refine keeps_foldl _ ?_ (fun u x hu => ?_) | split

theorem State.attnLoad_keeps {s0 : State} {M : Nat} (hM : 800694037980377095 ||| M = M) {s : State} (hk : s0.Keeps M s) (c :
    AttnCtx) (lo : Nat) (hi : Nat) :
    s0.Keeps M (State.attnLoad s c lo hi).2 := by
  unfold State.attnLoad
  repeat' first
    | with_reducible assumption | exact mask_sub hM (by decide) | with_reducible exact Rg.CORE_ATTN_EVENTS_MISMATCH_in _
    | with_reducible apply State.attnArrays_keeps | with_reducible apply Fetch.allKeys_keeps
    | with_reducible apply Fetch.rowRecs_keeps | with_reducible apply State.partDone_keeps
    | with_reducible apply State.taskStatus_keeps | with_reducible apply State.bump_keeps | with_reducible apply keeps_ite | split
    | dsimp only

/-- The reads of a part that goes on leave the state that the load answers with. -/
theorem State.attnLoad_fetch {s0 s : State} {M : Nat} (hM : 800694037980377095 ||| M = M) (hk : s0.Keeps M s) {c : AttnCtx} {lo hi
    : Nat} {r : List AttnRow}
    {k : List (Nat × Stream)} {b : Bool} {f : Fetch} {t : State} (e : s.attnLoad c lo hi = (some (r, k, b, f), t)) :
    s0.Keeps M f.st := by
  unfold State.attnLoad at e
  dsimp only at e
  repeat' first
    | with_reducible assumption | exact mask_sub hM (by decide) | cases e | with_reducible apply Fetch.allKeys_keeps
    | with_reducible apply Fetch.rowRecs_keeps | with_reducible apply State.attnArrays_keeps | split at e

theorem State.attnCells_keeps {s0 : State} {M : Nat} (hM : 8388609 ||| M = M) {s : State} (hk : s0.Keeps M s) (pc : Nat) :
    s0.Keeps M (State.attnCells s pc) := by
  unfold State.attnCells
  repeat' first
    | with_reducible assumption | exact mask_sub hM (by decide) | with_reducible apply State.loseVec_keeps
    | with_reducible apply State.modArray_keeps | with_reducible refine keeps_foldl _ ?_ (fun u x hu => ?_)
    | simp only [keeps_free (mask_sub hM (by decide))]

theorem State.parityFault_keeps {s0 : State} {M : Nat} (hM : 72057594038976512 ||| M = M) {s : State} (hk : s0.Keeps M s) (t :
    Nat) (pc : Nat) (parity : Bool) :
    s0.Keeps M (State.parityFault s t pc parity) := by
  unfold State.parityFault
  repeat' first
    | with_reducible assumption | exact mask_sub hM (by decide) | with_reducible exact Rg.CORE_ARR_ERRORS_ACC_PARITY_in _
    | with_reducible apply State.taskStatus_keeps | with_reducible apply State.bump_keeps | with_reducible apply keeps_ite

theorem Fetch.attnGroups_keeps {s0 : State} {M : Nat} (hM : 74450131340091393 ||| M = M) {f : Fetch} (hk : s0.Keeps M f.st) (c :
    AttnCtx) (keys : List (Nat × Stream)) (gs : List (Nat × List AttnRow)) :
    s0.Keeps M (Fetch.attnGroups f c keys gs).2.st := by
  unfold Fetch.attnGroups
  repeat' first
    | with_reducible assumption | exact mask_sub hM (by decide) | with_reducible apply Fetch.attnRow_keeps
    | with_reducible refine keeps_foldl_snd_fetch _ ?_ (fun u x hu => ?_)

theorem State.addStreams_keeps {s0 : State} {M : Nat} (hM : 1048576 ||| M = M) {s : State} (hk : s0.Keeps M s) (t : Nat) (ms :
    List StreamMark) :
    s0.Keeps M (State.addStreams s t ms) := by
  unfold State.addStreams
  repeat' first
    | with_reducible assumption | exact mask_sub hM (by decide) | with_reducible apply State.modTask_keeps

theorem State.attnForwardRun_keeps {s0 : State} {M : Nat} (hM : 800694037980377095 ||| M = M) {s : State} (hk : s0.Keeps M s) (c :
    AttnCtx) (parity : Bool) :
    s0.Keeps M (State.attnForwardRun s c parity) := by
  unfold State.attnForwardRun
  repeat' first
    | with_reducible assumption | exact mask_sub hM (by decide) | with_reducible exact Rg.CORE_ATTN_EVENTS_RESCALES_in _
    | with_reducible exact Rg.CORE_ATTN_MASK_EMPTY_ROWS_in _ | with_reducible apply State.addStreams_keeps
    | with_reducible apply Fetch.attnGroups_keeps | with_reducible apply State.parityFault_keeps
    | with_reducible apply State.attnCells_keeps | with_reducible apply State.attnLoad_keeps
    | with_reducible apply State.attnCounts_keeps | with_reducible apply Store.attnRow_keeps
    | with_reducible apply State.dmaBytes_keeps | with_reducible apply State.fmtEvents_keeps
    | with_reducible apply State.flagTask_keeps | with_reducible apply State.partDone_keeps
    | with_reducible apply State.taskStatus_keeps | with_reducible apply State.modTask_keeps
    | with_reducible apply State.freeNext_keeps | with_reducible apply State.bump_keeps
    | with_reducible refine keeps_foldl _ ?_ (fun u x hu => ?_) | with_reducible refine keeps_foldl_store _ ?_ (fun u x hu => ?_)
    | with_reducible refine State.attnLoad_fetch ?_ ?_ (by with_reducible assumption)
    | with_reducible refine keeps_of_snd (by with_reducible assumption) ?_ | simp only [keeps_free (mask_sub hM (by decide))]
    | with_reducible apply keeps_ite | split

theorem State.attnForward_keeps {s0 : State} {M : Nat} (hM : 800694037980377095 ||| M = M) {s : State} (hk : s0.Keeps M s) (t :
    Nat) (part : Nat) (parity : Bool) :
    s0.Keeps M (State.attnForward s t part parity) := by
  unfold State.attnForward
  repeat' first
    | with_reducible assumption | exact mask_sub hM (by decide) | with_reducible apply State.attnForwardRun_keeps
    | with_reducible apply State.attnCtx_keeps | with_reducible refine keeps_of_snd (by with_reducible assumption) ?_
    | with_reducible apply keeps_ite | split

theorem Fetch.backRow_keeps {s0 : State} {M : Nat} (hM : 74450131340091393 ||| M = M) {f : Fetch} (hk : s0.Keeps M f.st) (c :
    AttnCtx) (grp : List AttnRow) (row : AttnRow) (i : Nat) :
    s0.Keeps M (Fetch.backRow f c grp row i).2.2.st := by
  unfold Fetch.backRow
  repeat' first
    | with_reducible assumption | exact mask_sub hM (by decide) | with_reducible apply Fetch.qvec_keeps
    | with_reducible apply Fetch.vec_keeps | with_reducible apply Fetch.get_keeps
    | simp only [keeps_free (mask_sub hM (by decide))]

theorem Store.add32s_keeps {s0 : State} {M : Nat} (hM : 74450131356868614 ||| M = M) {w : Store} (hk : s0.Keeps M w.st) (p : Nat)
    (a : Nat) (xs : List Num) (bad : Bool) :
    s0.Keeps M (Store.add32s w p a xs bad).st := by
  unfold Store.add32s
  repeat' first
    | with_reducible assumption | exact mask_sub hM (by decide) | with_reducible apply Store.put32s_keeps
    | with_reducible apply State.devRead_keeps

theorem BackSt.key_keeps {s0 : State} {M : Nat} (hM : 74450131356868614 ||| M = M) {x : BackSt} (hk : s0.Keeps M x.w.st) (c :
    AttnCtx) (all : List AttnRow) (rows : List BackRow) (visit : BackRow → Bool) (e : Option Nat) (b : KeyBlk) (i : Nat) :
    s0.Keeps M (BackSt.key x c all rows visit e b i).w.st := by
  unfold BackSt.key
  repeat' first
    | with_reducible assumption | exact mask_sub hM (by decide) | with_reducible apply Store.add32s_keeps
    | with_reducible apply Store.line_keeps | split | dsimp only

theorem BackSt.visit_keeps {s0 : State} {M : Nat} (hM : 74450131356868614 ||| M = M) {x : BackSt} (hk : s0.Keeps M x.w.st) (c :
    AttnCtx) (all : List AttnRow) (rows : List BackRow) (e : Option Nat) (b : KeyBlk) :
    s0.Keeps M (BackSt.visit x c all rows e b).w.st := by
  unfold BackSt.visit
  repeat' first
    | with_reducible assumption | exact mask_sub hM (by decide) | with_reducible apply BackSt.key_keeps
    | with_reducible refine keeps_foldl_back _ ?_ (fun u x hu => ?_) | split | dsimp only

theorem BackSt.entry_keeps {s0 : State} {M : Nat} (hM : 74450131356868614 ||| M = M) {x : BackSt} (hk : s0.Keeps M x.w.st) (c :
    AttnCtx) (all : List AttnRow) (rows : List BackRow) (e : Nat) (ks : List KeyBlk) :
    s0.Keeps M (BackSt.entry x c all rows e ks).w.st := by
  unfold BackSt.entry
  repeat' first
    | with_reducible assumption | exact mask_sub hM (by decide) | with_reducible apply BackSt.visit_keeps
    | with_reducible apply Store.add32s_keeps | with_reducible apply Store.put32s_keeps
    | with_reducible refine keeps_foldl_store _ ?_ (fun u x hu => ?_)
    | with_reducible refine keeps_foldl_back _ ?_ (fun u x hu => ?_) | split

theorem State.attnBackwardRun_keeps {s0 : State} {M : Nat} (hM : 800694037980377095 ||| M = M) {s : State} (hk : s0.Keeps M s) (c
    : AttnCtx) (parity : Bool) :
    s0.Keeps M (State.attnBackwardRun s c parity) := by
  unfold State.attnBackwardRun
  repeat' first
    | with_reducible assumption | exact mask_sub hM (by decide) | with_reducible exact Rg.CORE_ATTN_EVENTS_GRAD_DROPPED_in _
    | with_reducible apply BackSt.entry_keeps | with_reducible apply Fetch.backRow_keeps
    | with_reducible apply State.parityFault_keeps | with_reducible apply State.attnCells_keeps
    | with_reducible apply State.attnLoad_keeps | with_reducible apply State.attnCounts_keeps
    | with_reducible apply State.dmaBytes_keeps | with_reducible apply State.fmtEvents_keeps
    | with_reducible apply State.flagTask_keeps | with_reducible apply Store.put_keeps | with_reducible apply State.partDone_keeps
    | with_reducible apply State.taskStatus_keeps | with_reducible apply State.freeNext_keeps
    | with_reducible apply State.bump_keeps | with_reducible refine keeps_foldl _ ?_ (fun u x hu => ?_)
    | with_reducible refine keeps_foldl_store _ ?_ (fun u x hu => ?_)
    | with_reducible refine keeps_foldl_back _ ?_ (fun u x hu => ?_)
    | with_reducible refine keeps_foldl_third_fetch _ ?_ (fun u x hu => ?_)
    | with_reducible refine State.attnLoad_fetch ?_ ?_ (by with_reducible assumption)
    | with_reducible refine keeps_of_snd (by with_reducible assumption) ?_ | simp only [keeps_free (mask_sub hM (by decide))]
    | with_reducible apply keeps_ite | split

theorem State.attnBackward_keeps {s0 : State} {M : Nat} (hM : 800694037980377095 ||| M = M) {s : State} (hk : s0.Keeps M s) (t :
    Nat) (part : Nat) (parity : Bool) :
    s0.Keeps M (State.attnBackward s t part parity) := by
  unfold State.attnBackward
  repeat' first
    | with_reducible assumption | exact mask_sub hM (by decide) | with_reducible apply State.attnBackwardRun_keeps
    | with_reducible apply State.attnCtx_keeps | with_reducible refine keeps_of_snd (by with_reducible assumption) ?_
    | with_reducible apply keeps_ite | split

theorem Fetch.logits_keeps {s0 : State} {M : Nat} (hM : 74450131340091392 ||| M = M) {f : Fetch} (hk : s0.Keeps M f.st) (c :
    AttnCtx) (r : Nat) :
    s0.Keeps M (Fetch.logits f c r).2.2.st := by
  unfold Fetch.logits
  repeat' first
    | with_reducible assumption | exact mask_sub hM (by decide) | with_reducible apply Fetch.get_keeps

theorem checkDrafts_keeps {s0 : State} {M : Nat} (hM : 74450131340091393 ||| M = M) (c : AttnCtx) (r : Bytes) (n i : Nat) {f :
    Fetch} (hk : s0.Keeps M f.st) :
    s0.Keeps M (checkDrafts c r n i f).2.2.2.st := by
  induction n generalizing i f with
  | zero => exact hk
  | succ n ih =>
    rw [checkDrafts]
    repeat' first
      | with_reducible assumption | exact mask_sub hM (by decide) | with_reducible apply ih
      | with_reducible apply Fetch.logits_keeps | simp only [keeps_free (mask_sub hM (by decide))] | split

theorem VerSt.record_keeps {s0 : State} {M : Nat} (hM : 74450131357917191 ||| M = M) {a : VerSt} (hk : s0.Keeps M a.w.st) (c :
    AttnCtx) (j : Nat) :
    s0.Keeps M (VerSt.record a c j).w.st := by
  unfold VerSt.record
  repeat' first
    | with_reducible assumption | exact mask_sub hM (by decide) | with_reducible apply checkDrafts_keeps
    | with_reducible apply Fetch.logits_keeps | with_reducible apply Store.put_keeps | with_reducible apply Fetch.get_keeps
    | with_reducible apply State.modTask_keeps | with_reducible apply State.isolation_keeps | split | dsimp only

theorem State.attnVerifyRun_keeps {s0 : State} {M : Nat} (hM : 800694037980377095 ||| M = M) {s : State} (hk : s0.Keeps M s) (c :
    AttnCtx) :
    s0.Keeps M (State.attnVerifyRun s c) := by
  unfold State.attnVerifyRun
  repeat' first
    | with_reducible assumption | exact mask_sub hM (by decide) | with_reducible exact Rg.CORE_VEC_BUSY_BUSY_in _
    | with_reducible exact Rg.CORE_ATTN_VERIFY_DRAFTED_in _ | with_reducible exact Rg.CORE_ATTN_VERIFY_ACCEPTED_in _
    | with_reducible exact linkCycles_in _ | (with_reducible exact List.forall_mem_nil _)
    | (with_reducible refine List.forall_mem_append.2 ⟨?_, ?_⟩) | (with_reducible refine List.forall_mem_cons.2 ⟨?_, ?_⟩)
    | with_reducible refine State.cycles_keeps (c := .core) ?_ ?_ ?_ | with_reducible apply VerSt.record_keeps
    | with_reducible apply Fetch.rowRecs_keeps | with_reducible apply State.loseVec_keeps
    | with_reducible apply State.dmaBytes_keeps | with_reducible apply State.flagTask_keeps
    | with_reducible apply State.partDone_keeps | with_reducible apply State.taskStatus_keeps
    | with_reducible apply State.bump_keeps | with_reducible refine keeps_foldl_ver _ ?_ (fun u x hu => ?_)
    | with_reducible apply keeps_ite

theorem State.attnVerify_keeps {s0 : State} {M : Nat} (hM : 800694037980377095 ||| M = M) {s : State} (hk : s0.Keeps M s) (t :
    Nat) :
    s0.Keeps M (State.attnVerify s t) := by
  unfold State.attnVerify
  repeat' first
    | with_reducible assumption | exact mask_sub hM (by decide) | with_reducible apply State.attnVerifyRun_keeps
    | with_reducible apply State.attnCtx_keeps | with_reducible refine keeps_of_snd (by with_reducible assumption) ?_
    | with_reducible apply keeps_ite | split

end Sys2Proof.Machine
end

