-- ==== Sys2Proof/Laws/KeepsIssue.lean ====
section
/-!
SUPPORT. The operations of Machine/Issue.lean keep the relation of Laws/Keeps.lean.
-/
namespace Sys2Proof.Machine

theorem State.readDescs_keeps {s0 : State} {M : Nat} (hM : 74450131340091392 ||| M = M) {s : State} (hk : s0.Keeps M s) (p : Nat)
    (a : Nat) (n : Nat) :
    s0.Keeps M (State.readDescs s p a n).2 := by
  unfold State.readDescs
  repeat' first
    | with_reducible assumption | exact mask_sub hM (by decide) | with_reducible apply State.blk_keeps
    | with_reducible refine keeps_foldl_snd _ ?_ (fun u x hu => ?_)
    | with_reducible refine keeps_of_snd (by with_reducible assumption) ?_ | split

theorem State.readOvf_keeps {s0 : State} {M : Nat} (hM : 74450131340091392 ||| M = M) {s : State} (hk : s0.Keeps M s) (p : Nat) (a
    : Nat) (n : Nat) :
    s0.Keeps M (State.readOvf s p a n).2 := by
  unfold State.readOvf
  repeat' first
    | with_reducible assumption | exact mask_sub hM (by decide) | with_reducible apply State.blk_keeps
    | with_reducible refine keeps_of_snd (by with_reducible assumption) ?_ | split

theorem State.dspLoad_keeps {s0 : State} {M : Nat} (hM : 78962492700745728 ||| M = M) {s : State} (hk : s0.Keeps M s) (p : Nat) :
    s0.Keeps M (State.dspLoad s p) := by
  unfold State.dspLoad
  repeat' first
    | with_reducible assumption | exact mask_sub hM (by decide) | with_reducible apply State.readOvf_keeps
    | with_reducible apply State.readDescs_keeps | with_reducible apply State.dspDone_keeps | with_reducible apply State.blk_keeps
    | with_reducible apply State.modPart_all | with_reducible refine keeps_of_snd (by with_reducible assumption) ?_
    | with_reducible apply keeps_ite | split | dsimp only

theorem State.dspUnload_keeps {s0 : State} {M : Nat} (hM : 4503874505277440 ||| M = M) {s : State} (hk : s0.Keeps M s) (p : Nat)
    (tag : Nat) :
    s0.Keeps M (State.dspUnload s p tag) := by
  unfold State.dspUnload
  repeat' first
    | with_reducible assumption | exact mask_sub hM (by decide) | with_reducible apply State.dspDone_keeps
    | with_reducible apply State.finishUnload_keeps | with_reducible apply State.modGraph_keeps | with_reducible apply keeps_ite
    | split

theorem State.ensureTask_keeps {s0 : State} {M : Nat} (hM : 3145728 ||| M = M) {s : State} (hk : s0.Keeps M s) (p : Nat) (g :
    Graph) (r : StepRun) (c : Cand) :
    s0.Keeps M (State.ensureTask s p g r c).2 := by
  unfold State.ensureTask
  repeat' first
    | with_reducible assumption | exact mask_sub hM (by decide) | simp only [keeps_tasks_taskNext (mask_sub hM (by decide))]
    | split

theorem State.arrive_keeps {s0 : State} {M : Nat} (hM : 216172782165164032 ||| M = M) {s : State} (hk : s0.Keeps M s) (g : Graph)
    (t : Nat) (i : Nat) (c : Nat) (d : Bytes) (p : Nat) (tag : Nat) (node : Nat) (step : Nat) (rows : Nat) :
    s0.Keeps M (State.arrive s g t i c d p tag node step rows) := by
  unfold State.arrive
  repeat' first
    | with_reducible assumption | exact mask_sub hM (by decide) | with_reducible exact Rg.CLU_SKM_ERRORS_REFUSED_in _
    | with_reducible apply State.skimAsk_keeps | with_reducible apply State.mcastJoin_keeps
    | with_reducible apply State.taskStatus_keeps | with_reducible apply State.modTask_keeps
    | with_reducible apply State.bump_keeps | with_reducible apply keeps_ite

theorem State.portArrive_keeps {s0 : State} {M : Nat} (hM : 800694037971988487 ||| M = M) {s : State} (hk : s0.Keeps M s) (t :
    Nat) (d : Bytes) (p : Nat) :
    s0.Keeps M (State.portArrive s t d p) := by
  unfold State.portArrive
  repeat' first
    | with_reducible assumption | exact mask_sub hM (by decide) | with_reducible apply State.taskBlk_keeps
    | with_reducible apply State.partDone_keeps | with_reducible apply State.waitOn_keeps
    | with_reducible refine keeps_of_snd (by with_reducible assumption) ?_ | with_reducible apply keeps_ite | split

theorem State.arrivePort_keeps {s0 : State} {M : Nat} (hM : 800694037971988487 ||| M = M) {s : State} (hk : s0.Keeps M s) (t :
    Nat) (d : Bytes) (p : Nat) (tag : Nat) (node : Nat) (step : Nat) :
    s0.Keeps M (State.arrivePort s t d p tag node step) := by
  unfold State.arrivePort
  repeat' first
    | with_reducible assumption | exact mask_sub hM (by decide) | with_reducible apply State.portArrive_keeps
    | with_reducible apply State.cbPut_keeps | with_reducible apply State.modTask_keeps | with_reducible apply keeps_ite

theorem State.issueTo_keeps {s0 : State} {M : Nat} (hM : 800694037974085639 ||| M = M) {s : State} (hk : s0.Keeps M s) (p : Nat)
    (c : Cand) (w : Where_) :
    s0.Keeps M (State.issueTo s p c w) := by
  unfold State.issueTo
  repeat' first
    | with_reducible assumption | exact mask_sub hM (by decide) | with_reducible exact Rg.DSP_EVENTS_EMPTY_SLICE_in _
    | with_reducible exact Rg.DSP_ISSUED_TASKS_in _ | with_reducible exact Rg.CORE_ATTN_EVENTS_PIN_MOVED_in _
    | with_reducible exact Rg.DSP_ISSUED_PIN_MOVED_in _ | with_reducible apply State.arrivePort_keeps
    | with_reducible apply State.arrive_keeps | with_reducible apply State.ensureTask_keeps
    | with_reducible apply State.afterNode_keeps | with_reducible apply State.completeNode_keeps
    | with_reducible apply State.bump_keeps | with_reducible refine keeps_of_snd (by with_reducible assumption) ?_
    | with_reducible apply keeps_ite | split

theorem State.heldCounts_keeps {s0 : State} {M : Nat} (hM : 76561193665298432 ||| M = M) {s : State} (hk : s0.Keeps M s) :
    s0.Keeps M (State.heldCounts s) := by
  unfold State.heldCounts
  repeat' first
    | with_reducible assumption | exact mask_sub hM (by decide) | with_reducible exact Rg.DSP_WAIT_QUOTA_WAIT_in _
    | with_reducible exact Rg.DSP_WAIT_SLOT_WAIT_in _ | (with_reducible exact List.forall_mem_nil _)
    | (with_reducible refine List.forall_mem_cons.2 ⟨?_, ?_⟩) | with_reducible refine State.cycles_keeps (c := .dsp) ?_ ?_ ?_
    | with_reducible refine keeps_foldl _ ?_ (fun u x hu => ?_) | with_reducible apply keeps_ite

theorem State.issueStep_keeps {s0 : State} {M : Nat} (hM : 800694037978279943 ||| M = M) {s : State} (hk : s0.Keeps M s) :
    s0.Keeps M (State.issueStep s) := by
  unfold State.issueStep
  repeat' first
    | with_reducible assumption | exact mask_sub hM (by decide) | with_reducible apply State.heldCounts_keeps
    | with_reducible apply State.issueTo_keeps | simp only [keeps_issueLast (mask_sub hM (by decide))] | split

theorem State.arraysFinish_keeps {s0 : State} {M : Nat} (hM : 218565388195258368 ||| M = M) {s : State} (hk : s0.Keeps M s) (c :
    Nat) :
    s0.Keeps M (State.arraysFinish s c) := by
  unfold State.arraysFinish
  repeat' first
    | with_reducible assumption | exact mask_sub hM (by decide) | with_reducible exact Rg.CORE_ARR_STATE_DATAFLOW_in _
    | with_reducible exact Rg.CORE_ARR_STATE_QUAD_in _ | with_reducible exact Rg.CORE_ARR_STATE_KPARTS_in _
    | with_reducible exact Rg.CORE_ARR_STATE_ACTIVE_in _ | with_reducible apply State.leaveCore_keeps
    | with_reducible apply State.promote_keeps | with_reducible apply State.modTask_keeps
    | with_reducible apply State.modCore_keeps | with_reducible apply State.setF_keeps | with_reducible apply keeps_ite | split

theorem State.linkMove_keeps {s0 : State} {M : Nat} (hM : 72057594037927936 ||| M = M) {s : State} (hk : s0.Keeps M s) (pc : Nat)
    (produce : Bool) (link : Nat) :
    s0.Keeps M (State.linkMove s pc produce link) := by
  have hl : ∀ l, RegBlock.core.has (Rg.CORE_SEM_LINK_0 pc + 8 * (l % 6)) := fun l => by
    simp only [RegBlock.has, Rg.CORE_SEM_LINK_0]; omega
  unfold State.linkMove
  dsimp only
  repeat' split
  all_goals first
    | exact hk
    | exact State.setF_keeps (hl _) (mask_sub hM (by decide)) (State.setF_keeps (hl _) (mask_sub hM (by decide)) hk _) _

theorem State.linkHandover_keeps {s0 : State} {M : Nat} (hM : 72057594037927936 ||| M = M) {s : State} (hk : s0.Keeps M s) (c :
    Nat) (link : Nat) (produce : Bool) :
    s0.Keeps M (State.linkHandover s c link produce) := by
  unfold State.linkHandover
  repeat' first
    | with_reducible assumption | exact mask_sub hM (by decide) | with_reducible apply State.linkMove_keeps
    | with_reducible refine keeps_foldl _ ?_ (fun u x hu => ?_) | with_reducible apply keeps_ite

theorem State.rampStep_keeps {s0 : State} {M : Nat} (hM : 72057594046316544 ||| M = M) {s : State} (hk : s0.Keeps M s) (c : Nat)
    (a : Nat) :
    s0.Keeps M (State.rampStep s c a) := by
  unfold State.rampStep
  repeat' first
    | with_reducible assumption | exact mask_sub hM (by decide) | with_reducible exact Rg.CORE_ARR_RAMP_RAMP_DOWNS_in _
    | with_reducible apply State.modArray_keeps | with_reducible apply State.bump_keeps | with_reducible apply keeps_ite

theorem State.rampDown_keeps {s0 : State} {M : Nat} (hM : 72057594046316544 ||| M = M) {s : State} (hk : s0.Keeps M s) (c : Nat) :
    s0.Keeps M (State.rampDown s c) := by
  unfold State.rampDown
  repeat' first
    | with_reducible assumption | exact mask_sub hM (by decide) | with_reducible apply State.rampStep_keeps
    | with_reducible refine keeps_foldl _ ?_ (fun u x hu => ?_)

theorem State.ringLand_keeps {s0 : State} {M : Nat} (hM : 74450131340025858 ||| M = M) {s : State} (hk : s0.Keeps M s) (p : Nat)
    (c : Nat) (n : Nat) (a : Nat) {r : MemRd} (hk : s0.Keeps M r.st) :
    s0.Keeps M (State.ringLand s p c n a r) := by
  unfold State.ringLand
  repeat' first
    | with_reducible assumption | exact mask_sub hM (by decide) | with_reducible apply State.ramWrite_keeps
    | with_reducible refine keeps_forN _ ?_ (fun u x hu => ?_)

theorem State.mcastRead_keeps {s0 : State} {M : Nat} (hM : 74450131374694402 ||| M = M) {s : State} (hk : s0.Keeps M s) (g : Nat) :
    s0.Keeps M (State.mcastRead s g) := by
  unfold State.mcastRead
  repeat' first
    | with_reducible assumption | exact mask_sub hM (by decide) | with_reducible exact Rg.CORE_MCAST_BLOCKS_in _
    | with_reducible apply State.ringLand_keeps | with_reducible apply State.devRead_keeps
    | with_reducible apply State.taskStatus_keeps | with_reducible apply State.bump_keeps
    | with_reducible refine keeps_foldl _ ?_ (fun u x hu => ?_) | simp only [keeps_mcasts (mask_sub hM (by decide))]
    | with_reducible apply keeps_ite | split

theorem State.verifyOut_keeps {s0 : State} {M : Nat} (hM : 524288 ||| M = M) {s : State} (hk : s0.Keeps M s) (k : Task) :
    s0.Keeps M (State.verifyOut s k) := by
  unfold State.verifyOut
  repeat' first
    | with_reducible assumption | exact mask_sub hM (by decide) | with_reducible refine keeps_foldl _ ?_ (fun u x hu => ?_)
    | simp only [keeps_ledger (mask_sub hM (by decide))] | with_reducible apply keeps_ite | split

theorem State.settlePages_keeps {s0 : State} {M : Nat} (hM : 227581280421928967 ||| M = M) {s : State} (hk : s0.Keeps M s) (k :
    Task) :
    s0.Keeps M (State.settlePages s k) := by
  unfold State.settlePages
  repeat' first
    | with_reducible assumption | exact mask_sub hM (by decide) | with_reducible exact Rg.CLU_OST_ALLOC_QUOTA_FAIL_in _
    | with_reducible exact Rg.CORE_EVENTS_APPEND_FAIL_in _
    | with_reducible refine State.commitPages_keeps ?_ ?_ (by with_reducible assumption)
    | with_reducible apply State.undoPages_keeps | with_reducible apply State.taskStatus_keeps
    | with_reducible apply State.bump_keeps | with_reducible apply keeps_ite | split | dsimp only

theorem State.portFinish_keeps {s0 : State} {M : Nat} (hM : 219691288580251649 ||| M = M) {s : State} (hk : s0.Keeps M s) (k :
    Task) :
    s0.Keeps M (State.portFinish s k) := by
  unfold State.portFinish
  repeat' first
    | with_reducible assumption | exact mask_sub hM (by decide) | with_reducible exact Rg.CCH_LAST_DEV_in _
    | with_reducible exact Rg.CCH_LAST_RANK_in _ | with_reducible exact Rg.CCH_LAST_WAIT_NS_in _
    | with_reducible exact Rg.CCH_LAST_SEQ_SEQ_in _ | with_reducible exact Rg.CCH_LAST_SEQ_KIND_in _
    | with_reducible apply State.triggerUp_keeps | with_reducible apply State.expEnd_keeps
    | with_reducible apply State.freeNext_keeps | with_reducible apply State.setF_keeps
    | with_reducible refine keeps_foldl _ ?_ (fun u x hu => ?_) | split

theorem State.finishTask_keeps {s0 : State} {M : Nat} (hM : 233245982079053831 ||| M = M) {s : State} (hk : s0.Keeps M s) (t :
    Nat) :
    s0.Keeps M (State.finishTask s t) := by
  unfold State.finishTask
  repeat' first
    | with_reducible assumption | exact mask_sub hM (by decide) | with_reducible apply State.portFinish_keeps
    | with_reducible apply State.settlePages_keeps | with_reducible apply State.verifyOut_keeps
    | with_reducible apply State.afterNode_keeps | with_reducible apply State.completeNode_keeps
    | with_reducible apply State.tlbDropAll_keeps | with_reducible apply State.freeNext_keeps
    | simp only [keeps_tasks (mask_sub hM (by decide))] | with_reducible apply keeps_ite | split

theorem State.ctlDone_keeps {s0 : State} {M : Nat} (hM : 809706734785392647 ||| M = M) {s : State} (hk : s0.Keeps M s) (p : Nat)
    (v : W64) :
    s0.Keeps M (State.ctlDone s p v) := by
  unfold State.ctlDone
  repeat' first
    | with_reducible assumption | exact mask_sub hM (by decide) | with_reducible exact Rg.DSP_EVENTS_CTL_STRAY_in _
    | with_reducible apply State.finishTask_keeps | with_reducible apply State.jobFault_keeps
    | with_reducible apply State.modTask_keeps | with_reducible apply State.bump_keeps | with_reducible apply keeps_ite | split

theorem State.cringHead_keeps {s0 : State} {M : Nat} (hM : 78989791512883206 ||| M = M) {s : State} (hk : s0.Keeps M s) (p : Nat)
    (v : W64) :
    s0.Keeps M (State.cringHead s p v) := by
  unfold State.cringHead
  repeat' first
    | with_reducible assumption | exact mask_sub hM (by decide) | with_reducible exact Rg.DSP_CRING_HEAD_HEAD_in _
    | exact Rg.DSP_CRING_TAIL_in _ | exact Rg.DSP_IRQ_in _ | with_reducible apply State.reloadAtStepEnd_keeps
    | with_reducible apply State.ringDrain_keeps | with_reducible apply State.setF_keeps
    | with_reducible refine State.modPart_holds ?_ ?_ _ _ (fun _ => rfl) | with_reducible apply keeps_ite

theorem State.cbHead_keeps {s0 : State} {M : Nat} (hM : 78954280723275782 ||| M = M) {s : State} (hk : s0.Keeps M s) (p : Nat) (v
    : W64) :
    s0.Keeps M (State.cbHead s p v) := by
  unfold State.cbHead
  repeat' first
    | with_reducible assumption | exact mask_sub hM (by decide) | with_reducible exact Rg.DSP_CB_HEAD_HEAD_in _
    | exact Rg.DSP_CB_TAIL_in _ | exact Rg.DSP_IRQ_in _ | with_reducible apply State.ringDrain_keeps
    | with_reducible apply State.setF_keeps | with_reducible refine State.modPart_holds ?_ ?_ _ _ (fun _ => rfl)

end Sys2Proof.Machine
end

