-- ==== Sys2Proof/Laws/KeepsPageCmds.lean ====
section
/-!
SUPPORT. The operations of Machine/PageCmds.lean keep the relation of Laws/Keeps.lean.
-/
namespace Sys2Proof.Machine

theorem State.pageWalk_keeps {s0 : State} {M : Nat} (hM : 800694037971988487 ||| M = M) {s : State} (hk : s0.Keeps M s) (t : Nat)
    (part : Nat) (entry : Nat) (layer : Nat) (head : Nat) (blk : Nat) (half : Nat) :
    s0.Keeps M (State.pageWalk s t part entry layer head blk half) := by
  unfold State.pageWalk
  repeat' first
    | with_reducible assumption | exact mask_sub hM (by decide) | with_reducible exact Rg.CORE_TLB_STATS_HITS_in _
    | with_reducible exact Rg.CORE_TLB_STATS_MISSES_in _ | with_reducible exact Rg.CORE_TLB_WALK_WAIT_in _
    | (with_reducible exact List.forall_mem_nil _) | (with_reducible refine List.forall_mem_cons.2 ⟨?_, ?_⟩)
    | with_reducible refine State.cycles_keeps (c := .core) ?_ ?_ ?_ | with_reducible apply State.entryLost_keeps
    | with_reducible apply State.partDone_keeps | with_reducible apply State.jobFault_keeps
    | with_reducible apply State.tlbLoad_keeps | with_reducible apply State.walk_keeps
    | with_reducible apply State.taskStatus_keeps | with_reducible apply State.bump_keeps
    | with_reducible refine keeps_of_snd (by with_reducible assumption) ?_ | simp only [keeps_walks (mask_sub hM (by decide))]
    | with_reducible apply keeps_ite | split

theorem State.pinResume_keeps {s0 : State} {M : Nat} (hM : 218565388136800256 ||| M = M) {s : State} (hk : s0.Keeps M s) (t : Nat)
    (page : Nat) :
    s0.Keeps M (State.pinResume s t page) := by
  unfold State.pinResume
  repeat' first
    | with_reducible assumption | exact mask_sub hM (by decide) | with_reducible apply State.tlbLoad_keeps
    | with_reducible apply State.putPage_keeps | simp only [keeps_walks (mask_sub hM (by decide))]
    | with_reducible apply keeps_ite | split

theorem State.pageResult_keeps {s0 : State} {M : Nat} (hM : 9007199254740992 ||| M = M) {s : State} (hk : s0.Keeps M s) (p : Nat)
    (code : Nat) :
    s0.Keeps M (State.pageResult s p code) := by
  unfold State.pageResult
  repeat' first
    | with_reducible assumption | exact mask_sub hM (by decide) | with_reducible exact Rg.LDG_PAGE_RESULT_RESULT_in _
    | with_reducible exact Rg.LDG_PAGE_RESULT_COUNT_in _ | with_reducible apply State.incr_keeps
    | with_reducible apply State.setF_keeps

theorem State.pageCmd_keeps {s0 : State} {M : Nat} (hM : 809701237226729479 ||| M = M) {s : State} (hk : s0.Keeps M s) (p : Nat)
    (page : Nat) {act : State → State} (hact : ∀ u, s0.Keeps M u → s0.Keeps M (act u)) :
    s0.Keeps M (State.pageCmd s p page act) := by
  unfold State.pageCmd
  repeat' first
    | with_reducible assumption | exact mask_sub hM (by decide) | with_reducible apply hact
    | with_reducible apply State.pageResult_keeps | with_reducible apply State.jobFault_keeps
    | with_reducible apply State.entryRead_keeps | with_reducible apply State.isolation_keeps
    | with_reducible refine keeps_of_snd (by with_reducible assumption) ?_ | with_reducible apply keeps_ite | split

theorem State.pageRef_keeps {s0 : State} {M : Nat} (hM : 809701237226729479 ||| M = M) {s : State} (hk : s0.Keeps M s) (p : Nat)
    (page : Nat) :
    s0.Keeps M (State.pageRef s p page) := by
  unfold State.pageRef
  repeat' first
    | with_reducible assumption | exact mask_sub hM (by decide) | with_reducible apply State.pageCmd_keeps
    | with_reducible apply State.pageResult_keeps | with_reducible apply State.putPage_keeps | with_reducible apply keeps_ite
    | intro _

theorem State.pageUnref_keeps {s0 : State} {M : Nat} (hM : 809701237226729479 ||| M = M) {s : State} (hk : s0.Keeps M s) (p : Nat)
    (page : Nat) :
    s0.Keeps M (State.pageUnref s p page) := by
  unfold State.pageUnref
  repeat' first
    | with_reducible assumption | exact mask_sub hM (by decide) | with_reducible apply State.pageCmd_keeps
    | with_reducible apply State.pageResult_keeps | with_reducible apply State.unref_keeps | split | intro _

theorem State.pageRead_keeps {s0 : State} {M : Nat} (hM : 809701237226729479 ||| M = M) {s : State} (hk : s0.Keeps M s) (p : Nat)
    (page : Nat) :
    s0.Keeps M (State.pageRead s p page) := by
  unfold State.pageRead
  repeat' first
    | with_reducible assumption | exact mask_sub hM (by decide) | with_reducible exact Rg.LDG_PAGE_ENTRY_0_in _
    | with_reducible exact Rg.LDG_PAGE_ENTRY_1_in _ | with_reducible apply State.pageCmd_keeps
    | with_reducible apply State.pageResult_keeps | with_reducible apply State.wr_keeps | intro _

theorem State.pageCmdWrite_keeps {s0 : State} {M : Nat} (hM : 809701237226729479 ||| M = M) {s : State} (hk : s0.Keeps M s) (p :
    Nat) (v : W64) :
    s0.Keeps M (State.pageCmdWrite s p v) := by
  unfold State.pageCmdWrite
  repeat' first
    | with_reducible assumption | exact mask_sub hM (by decide) | with_reducible apply State.pageRead_keeps
    | with_reducible apply State.pageUnref_keeps | with_reducible apply State.pageRef_keeps
    | with_reducible apply State.pageResult_keeps | with_reducible apply keeps_ite | split

theorem State.pageLow_keeps {s0 : State} {M : Nat} (hM : 9007199254740992 ||| M = M) {s : State} (hk : s0.Keeps M s) (p : Nat) (v
    : W64) :
    s0.Keeps M (State.pageLow s p v) := by
  unfold State.pageLow
  repeat' first
    | with_reducible assumption | exact mask_sub hM (by decide) | with_reducible exact Rg.LDG_PAGE_LOW_THRESHOLD_in _
    | with_reducible exact Rg.LDG_PAGE_LOW_LOW_in _ | with_reducible apply State.noteLow_keeps
    | with_reducible apply State.setF_keeps | with_reducible apply keeps_ite

end Sys2Proof.Machine
end

