-- ==== Sys2Proof/Laws/KeepsMemCmds.lean ====
section
/-!
SUPPORT. The operations of Machine/MemCmds.lean keep the relation of Laws/Keeps.lean.
-/
namespace Sys2Proof.Machine

theorem State.repairLine_keeps {s0 : State} {M : Nat} (hM : 8194 ||| M = M) {s : State} (hk : s0.Keeps M s) (r : Repair) :
    s0.Keeps M (State.repairLine s r) := by
  unfold State.repairLine
  repeat' first
    | with_reducible assumption | exact mask_sub hM (by decide) | with_reducible apply State.storeLine_keeps

theorem State.scrub_keeps {s0 : State} {M : Nat} (hM : 74450131340025858 ||| M = M) {s : State} (hk : s0.Keeps M s) :
    s0.Keeps M (State.scrub s) := by
  unfold State.scrub
  repeat' first
    | with_reducible assumption | exact mask_sub hM (by decide) | with_reducible exact Rg.CORE_SRAM_ECC_POISON_READ_in _
    | with_reducible exact Rg.MEM_SCRUB_STATUS_PASSES_in | with_reducible apply State.storeLine_keeps
    | with_reducible apply State.noteLine_keeps | with_reducible apply State.bump_keeps
    | simp only [keeps_ecc (mask_sub hM (by decide))] | with_reducible apply keeps_ite

theorem State.idleSlot_keeps {s0 : State} {M : Nat} (hM : 74450131340025858 ||| M = M) {s : State} (hk : s0.Keeps M s) (n : Nat) :
    s0.Keeps M (State.idleSlot s n) := by
  unfold State.idleSlot
  repeat' first
    | with_reducible assumption | exact mask_sub hM (by decide) | with_reducible apply State.scrub_keeps
    | with_reducible apply State.repairLine_keeps | with_reducible apply State.modMemCtl_keeps | with_reducible apply keeps_ite
    | split

theorem State.slotGrant_keeps {s0 : State} {M : Nat} (hM : 74450131340025858 ||| M = M) {s : State} (hk : s0.Keeps M s) (n : Nat) :
    s0.Keeps M (State.slotGrant s n) := by
  unfold State.slotGrant
  repeat' first
    | with_reducible assumption | exact mask_sub hM (by decide) | with_reducible exact Rg.MEM_CH_SLOTS_IDLE_SLOTS_in _
    | exact slotCounter_in _ _ | with_reducible apply State.idleSlot_keeps | with_reducible apply State.scrub_keeps
    | with_reducible apply State.modMemCtl_keeps | with_reducible apply State.bump_keeps | with_reducible apply keeps_ite | split

theorem State.queueResume_keeps {s0 : State} {M : Nat} (hM : 74450131340025858 ||| M = M) {s : State} (hk : s0.Keeps M s) (n :
    Nat) :
    s0.Keeps M (State.queueResume s n) := by
  unfold State.queueResume
  repeat' first
    | with_reducible assumption | exact mask_sub hM (by decide) | with_reducible apply State.ramWrite_keeps
    | with_reducible apply State.modMemCtl_keeps | with_reducible apply keeps_ite | split | dsimp only

theorem State.memLogPop_keeps {s0 : State} {M : Nat} (hM : 8589967360 ||| M = M) {s : State} (hk : s0.Keeps M s) :
    s0.Keeps M (State.memLogPop s) := by
  unfold State.memLogPop
  split
  · refine hk.upd (L := 8589967360) (mask_sub hM (by decide)) (fun i => { i with memLog := ?_ }) rfl rfl rfl rfl fun k hk => ?_
    · have := i.memLog; simp_all only [List.length_cons]; omega
    · cases k <;> first | exact absurd hk (by decide) | first | rfl | (intro _; repeat' constructor) | constructor
  · exact (keeps_bus (mask_sub hM (by decide)) _).2 hk

end Sys2Proof.Machine
end

