-- ==== Sys2Proof/Laws/KeepsChan.lean ====
section
/-!
SUPPORT. The operations of Machine/Chan.lean keep the relation of Laws/Keeps.lean.
-/
namespace Sys2Proof.Machine

theorem State.modSender_keeps {s0 : State} {M : Nat} (hM : 2199023255552 ||| M = M) {s : State} (hk : s0.Keeps M s) (p : Nat) (n :
    Nat) (f : Port → Port) :
    s0.Keeps M (State.modSender s p n f) := by
  unfold State.modSender
  repeat' first
    | with_reducible assumption | exact mask_sub hM (by decide)
    | with_reducible refine State.modPart_chans ?_ ?_ _ _ (fun _ => rfl)

theorem State.modGroup_keeps {s0 : State} {M : Nat} (hM : 2199023255552 ||| M = M) {s : State} (hk : s0.Keeps M s) (p : Nat) (g :
    Nat) (f : Group → Group) :
    s0.Keeps M (State.modGroup s p g f) := by
  unfold State.modGroup
  repeat' first
    | with_reducible assumption | exact mask_sub hM (by decide)
    | with_reducible refine State.modPart_chans ?_ ?_ _ _ (fun _ => rfl)

theorem State.modEp_keeps {s0 : State} {M : Nat} (hM : 67108864 ||| M = M) {s : State} (hk : s0.Keeps M s) (h : Nat) (f : Endpoint
    → Endpoint) :
    s0.Keeps M (State.modEp s h f) := by
  unfold State.modEp
  repeat' first
    | with_reducible assumption | exact mask_sub hM (by decide) | simp only [keeps_endpoints (mask_sub hM (by decide))] | split

theorem State.modChurn_keeps {s0 : State} {M : Nat} (hM : 268435456 ||| M = M) {s : State} (hk : s0.Keeps M s) (q : Nat) (f :
    Churn → Churn) :
    s0.Keeps M (State.modChurn s q f) := by
  unfold State.modChurn
  repeat' first
    | with_reducible assumption | exact mask_sub hM (by decide) | simp only [keeps_churns (mask_sub hM (by decide))] | split

theorem State.landRing_keeps {s0 : State} {M : Nat} (hM : 92464530050899974 ||| M = M) {s : State} (hk : s0.Keeps M s) (h : Nat)
    (e : Endpoint) (skip : Nat) (bs : Bytes) (seq : Nat) (src : Nat) (p : Nat) (port : Nat) (task : Option Nat) :
    s0.Keeps M (State.landRing s h e skip bs seq src p port task) := by
  unfold State.landRing
  repeat' first
    | with_reducible assumption | exact mask_sub hM (by decide) | with_reducible exact Rg.CHN_EVENTS_SKIPS_in _
    | with_reducible apply State.modEp_keeps | with_reducible apply State.devWrite_keeps | with_reducible apply State.bump_keeps
    | simp only [keeps_landings (mask_sub hM (by decide))] | with_reducible apply keeps_ite

theorem State.taskSendDone_keeps {s0 : State} {M : Nat} (hM : 800694037971988487 ||| M = M) {s : State} (hk : s0.Keeps M s) (t :
    Nat) (result : Nat) :
    s0.Keeps M (State.taskSendDone s t result) := by
  unfold State.taskSendDone
  repeat' first
    | with_reducible assumption | exact mask_sub hM (by decide) | with_reducible apply State.partDone_keeps
    | with_reducible apply State.taskStatus_keeps | with_reducible apply keeps_ite

theorem State.sendDone_keeps {s0 : State} {M : Nat} (hM : 818708436481470471 ||| M = M) {s : State} (hk : s0.Keeps M s) (p : Nat)
    (n : Nat) (result : Nat) :
    s0.Keeps M (State.sendDone s p n result) := by
  unfold State.sendDone
  repeat' first
    | with_reducible assumption | exact mask_sub hM (by decide) | with_reducible exact Rg.CHN_PORT_SEND_STATUS_RESULT_in _ _
    | with_reducible exact Rg.CHN_PORT_SEND_STATUS_COMPLETED_in _ _ | with_reducible apply State.taskSendDone_keeps
    | with_reducible apply State.modSender_keeps | with_reducible apply State.incr_keeps | with_reducible apply State.setF_keeps
    | split

theorem State.ctlTrap_keeps {s0 : State} {M : Nat} (hM : 1073741824 ||| M = M) {s : State} (hk : s0.Keeps M s) (n : Nat) (cause :
    Nat) :
    s0.Keeps M (State.ctlTrap s n cause) := by
  unfold State.ctlTrap
  repeat' first
    | with_reducible assumption | exact mask_sub hM (by decide) | with_reducible apply State.modCtl_keeps
    | with_reducible apply keeps_ite

theorem State.badDest_keeps {s0 : State} {M : Nat} (hM : 818708437555212295 ||| M = M) {s : State} (hk : s0.Keeps M s) (p : Nat)
    (n : Nat) (owner : Nat) (kind : Nat) (index : Nat) :
    s0.Keeps M (State.badDest s p n owner kind index) := by
  unfold State.badDest
  repeat' first
    | with_reducible assumption | exact mask_sub hM (by decide) | with_reducible apply State.ctlTrap_keeps
    | with_reducible apply State.sendDone_keeps | with_reducible apply State.isolation_keeps

theorem State.sendRead_keeps {s0 : State} {M : Nat} (hM : 818708437555212295 ||| M = M) {s : State} (hk : s0.Keeps M s) (p : Nat)
    (n : Nat) (a : Nat) (len : Nat) (task : Option Nat) :
    s0.Keeps M (State.sendRead s p n a len task).2 := by
  unfold State.sendRead
  repeat' first
    | with_reducible assumption | exact mask_sub hM (by decide) | with_reducible apply State.ctlTrap_keeps
    | with_reducible apply State.sendDone_keeps | with_reducible apply State.jobFault_keeps
    | with_reducible apply State.devRead_keeps | with_reducible apply keeps_ite | split | dsimp only

theorem State.seqNext_keeps {s0 : State} {M : Nat} (hM : 2199023255552 ||| M = M) {s : State} (hk : s0.Keeps M s) (p : Nat) (n :
    Nat) (h : Nat) :
    s0.Keeps M (State.seqNext s p n h) := by
  unfold State.seqNext
  repeat' first
    | with_reducible assumption | exact mask_sub hM (by decide) | with_reducible apply State.modSender_keeps

theorem State.spillWrite_keeps {s0 : State} {M : Nat} (hM : 92466728872828934 ||| M = M) {s : State} (hk : s0.Keeps M s) (p : Nat)
    (n : Nat) (h : Nat) (g : Nat) (skip : Nat) (seq : Nat) (bs : Bytes) :
    s0.Keeps M (State.spillWrite s p n h g skip seq bs) := by
  unfold State.spillWrite
  repeat' first
    | with_reducible assumption | exact mask_sub hM (by decide) | with_reducible exact Rg.CHN_PORT_SPILL_PTR_TAIL_in _ _
    | with_reducible exact Rg.CHN_EVENTS_SKIPS_in _ | with_reducible exact Rg.CHN_EVENTS_SPILLED_in _
    | with_reducible exact Rg.CHN_IRQ_SPILL_in _ | with_reducible apply State.modSender_keeps
    | with_reducible apply State.devWrite_keeps | with_reducible apply State.bump_keeps | with_reducible apply State.setF_keeps
    | with_reducible apply State.wr_keeps | with_reducible apply keeps_ite

theorem State.appendBytes_keeps {s0 : State} {M : Nat} (hM : 818708437555212295 ||| M = M) {s : State} (hk : s0.Keeps M s) (p :
    Nat) (n : Nat) (x : Send) :
    s0.Keeps M (State.appendBytes s p n x).2 := by
  unfold State.appendBytes
  repeat' first
    | with_reducible assumption | exact mask_sub hM (by decide) | with_reducible apply State.seqNext_keeps
    | with_reducible apply State.sendRead_keeps | with_reducible refine keeps_of_snd (by with_reducible assumption) ?_ | split

theorem State.modHead_keeps {s0 : State} {M : Nat} (hM : 2199023255552 ||| M = M) {s : State} (hk : s0.Keeps M s) (p : Nat) (n :
    Nat) (f : Send → Send) :
    s0.Keeps M (State.modHead s p n f) := by
  unfold State.modHead
  repeat' first
    | with_reducible assumption | exact mask_sub hM (by decide) | with_reducible apply State.modSender_keeps

theorem State.spillHead_keeps {s0 : State} {M : Nat} (hM : 818708437555212295 ||| M = M) {s : State} (hk : s0.Keeps M s) (p : Nat)
    (n : Nat) (x : Send) (g : Nat) :
    s0.Keeps M (State.spillHead s p n x g) := by
  unfold State.spillHead
  repeat' first
    | with_reducible assumption | exact mask_sub hM (by decide) | with_reducible exact Rg.CHN_EVENTS_SPILL_FULL_in _
    | with_reducible apply State.modHead_keeps | with_reducible apply State.appendBytes_keeps
    | with_reducible apply State.spillWrite_keeps | with_reducible apply State.sendDone_keeps
    | with_reducible apply State.bump_keeps | with_reducible refine keeps_of_snd (by with_reducible assumption) ?_
    | with_reducible apply keeps_ite | split

theorem State.appendHead_keeps {s0 : State} {M : Nat} (hM : 818708437622321159 ||| M = M) {s : State} (hk : s0.Keeps M s) (p :
    Nat) (n : Nat) (x : Send) (e : Endpoint) :
    s0.Keeps M (State.appendHead s p n x e) := by
  unfold State.appendHead
  repeat' first
    | with_reducible assumption | exact mask_sub hM (by decide) | with_reducible exact Rg.CHN_WAIT_CREDIT_WAIT_in _
    | with_reducible apply State.spillHead_keeps | with_reducible apply State.modHead_keeps
    | with_reducible apply State.appendBytes_keeps | with_reducible apply State.landRing_keeps
    | with_reducible apply State.raise_keeps | with_reducible refine keeps_of_snd (by with_reducible assumption) ?_
    | with_reducible apply keeps_ite | split

theorem State.putHead_keeps {s0 : State} {M : Nat} (hM : 818708437555212295 ||| M = M) {s : State} (hk : s0.Keeps M s) (p : Nat)
    (n : Nat) (x : Send) (e : Endpoint) :
    s0.Keeps M (State.putHead s p n x e) := by
  unfold State.putHead
  repeat' first
    | with_reducible assumption | exact mask_sub hM (by decide) | with_reducible apply State.seqNext_keeps
    | with_reducible apply State.sendRead_keeps | with_reducible apply State.sendDone_keeps
    | with_reducible apply State.devWrite_keeps | with_reducible refine keeps_of_snd (by with_reducible assumption) ?_
    | simp only [keeps_landings (mask_sub hM (by decide))] | with_reducible apply keeps_ite | split

theorem State.contribHead_keeps {s0 : State} {M : Nat} (hM : 818708437555212295 ||| M = M) {s : State} (hk : s0.Keeps M s) (p :
    Nat) (n : Nat) (x : Send) :
    s0.Keeps M (State.contribHead s p n x) := by
  unfold State.contribHead
  repeat' first
    | with_reducible assumption | exact mask_sub hM (by decide) | with_reducible apply State.badDest_keeps
    | with_reducible apply State.sendDone_keeps | with_reducible apply State.modChurn_keeps | with_reducible apply keeps_ite
    | split

theorem State.sendHead_keeps {s0 : State} {M : Nat} (hM : 818708437622321159 ||| M = M) {s : State} (hk : s0.Keeps M s) (p : Nat)
    (n : Nat) :
    s0.Keeps M (State.sendHead s p n) := by
  unfold State.sendHead
  repeat' first
    | with_reducible assumption | exact mask_sub hM (by decide) | with_reducible apply State.contribHead_keeps
    | with_reducible apply State.putHead_keeps | with_reducible apply State.appendHead_keeps
    | with_reducible apply State.badDest_keeps | with_reducible apply State.sendDone_keeps | with_reducible apply keeps_ite
    | split

theorem State.pumpN_keeps {s0 : State} {M : Nat} (hM : 818708437622321159 ||| M = M) (p n k : Nat) {s : State} (hk : s0.Keeps M s)
    : s0.Keeps M (State.pumpN p n k s) := by
  induction k generalizing s with
  | zero => exact hk
  | succ k ih =>
    rw [State.pumpN]
    have h := State.sendHead_keeps (mask_sub hM (by decide)) hk p n
    split
    · exact ih h
    · exact h

theorem State.pump_keeps {s0 : State} {M : Nat} (hM : 818708437622321159 ||| M = M) {s : State} (hk : s0.Keeps M s) (p : Nat) (n :
    Nat) :
    s0.Keeps M (State.pump s p n) := by
  unfold State.pump
  repeat' first
    | with_reducible assumption | exact mask_sub hM (by decide) | with_reducible apply State.pumpN_keeps

theorem State.pumpAll_keeps {s0 : State} {M : Nat} (hM : 818708437622321159 ||| M = M) {s : State} (hk : s0.Keeps M s) (p : Nat) :
    s0.Keeps M (State.pumpAll s p) := by
  unfold State.pumpAll
  repeat' first
    | with_reducible assumption | exact mask_sub hM (by decide) | with_reducible apply State.pump_keeps
    | with_reducible refine keeps_foldl _ ?_ (fun u x hu => ?_)

theorem State.enqueue_keeps {s0 : State} {M : Nat} (hM : 818708437622321159 ||| M = M) {s : State} (hk : s0.Keeps M s) (p : Nat)
    (n : Nat) (x : Send) :
    s0.Keeps M (State.enqueue s p n x) := by
  unfold State.enqueue
  repeat' first
    | with_reducible assumption | exact mask_sub hM (by decide) | with_reducible exact Rg.CHN_PORT_SEND_STATUS_OVERRUN_in _ _
    | with_reducible apply State.pump_keeps | with_reducible apply State.modSender_keeps | with_reducible apply State.raise_keeps
    | with_reducible apply keeps_ite

theorem State.sendWrite_keeps {s0 : State} {M : Nat} (hM : 818708437622321159 ||| M = M) {s : State} (hk : s0.Keeps M s) (p : Nat)
    (n : Nat) (v : W64) :
    s0.Keeps M (State.sendWrite s p n v) := by
  unfold State.sendWrite
  repeat' first
    | with_reducible assumption | exact mask_sub hM (by decide) | with_reducible apply State.enqueue_keeps

theorem State.sendSpill_keeps {s0 : State} {M : Nat} (hM : 818708437622321159 ||| M = M) {s : State} (hk : s0.Keeps M s) (p : Nat)
    (n : Nat) :
    s0.Keeps M (State.sendSpill s p n) := by
  unfold State.sendSpill
  repeat' first
    | with_reducible assumption | exact mask_sub hM (by decide) | with_reducible apply State.pump_keeps
    | with_reducible apply State.spillHead_keeps | with_reducible apply State.passTo_keeps | with_reducible apply keeps_ite
    | split

theorem State.groupIrq_keeps {s0 : State} {M : Nat} (hM : 18014398509481984 ||| M = M) {s : State} (hk : s0.Keeps M s) (p : Nat)
    (g : Nat) :
    s0.Keeps M (State.groupIrq s p g) := by
  unfold State.groupIrq
  repeat' first
    | with_reducible assumption | exact mask_sub hM (by decide) | with_reducible exact Rg.CHN_IRQ_GROUP_in _
    | with_reducible apply State.wr_keeps | with_reducible apply keeps_ite

theorem State.messageLand_keeps {s0 : State} {M : Nat} (hM : 818708437622321159 ||| M = M) {s : State} (hk : s0.Keeps M s) (h :
    Nat) :
    s0.Keeps M (State.messageLand s h) := by
  unfold State.messageLand
  repeat' first
    | with_reducible assumption | exact mask_sub hM (by decide) | with_reducible apply State.groupIrq_keeps
    | with_reducible apply State.pump_keeps | with_reducible apply State.modHead_keeps | with_reducible apply State.sendDone_keeps
    | with_reducible apply State.modEp_keeps | simp only [keeps_landings (mask_sub hM (by decide))]
    | with_reducible apply keeps_ite | split

theorem State.selNext_keeps {s0 : State} {M : Nat} (hM : 18016606189780992 ||| M = M) {s : State} (hk : s0.Keeps M s) (p : Nat) (g
    : Nat) :
    s0.Keeps M (State.selNext s p g) := by
  unfold State.selNext
  repeat' first
    | with_reducible assumption | exact mask_sub hM (by decide) | with_reducible exact Rg.CHN_SEL_NEXT_ADDR_in _ _
    | with_reducible apply State.modEp_keeps | with_reducible apply State.modGroup_keeps
    | with_reducible apply State.modSender_keeps | with_reducible apply State.wr_keeps
    | simp only [keeps_bus (mask_sub hM (by decide))] | with_reducible apply keeps_ite | split

theorem State.spillAdvance_keeps {s0 : State} {M : Nat} (hM : 18016597532737536 ||| M = M) {s : State} (hk : s0.Keeps M s) (p :
    Nat) (n : Nat) :
    s0.Keeps M (State.spillAdvance s p n) := by
  unfold State.spillAdvance
  repeat' first
    | with_reducible assumption | exact mask_sub hM (by decide) | with_reducible exact Rg.CHN_PORT_SPILL_PTR_HEAD_in _ _
    | with_reducible apply State.modSender_keeps | with_reducible apply State.setF_keeps | split | dsimp only

theorem State.spillRelease_keeps {s0 : State} {M : Nat} (hM : 18016597532737536 ||| M = M) {s : State} (hk : s0.Keeps M s) (p :
    Nat) (n : Nat) (start : Nat) :
    s0.Keeps M (State.spillRelease s p n start) := by
  unfold State.spillRelease
  repeat' first
    | with_reducible assumption | exact mask_sub hM (by decide) | with_reducible apply State.spillAdvance_keeps
    | with_reducible apply State.modSender_keeps

theorem State.selDone_keeps {s0 : State} {M : Nat} (hM : 18016597599846400 ||| M = M) {s : State} (hk : s0.Keeps M s) (p : Nat) (g
    : Nat) (v : W64) :
    s0.Keeps M (State.selDone s p g v) := by
  unfold State.selDone
  repeat' first
    | with_reducible assumption | exact mask_sub hM (by decide) | with_reducible exact Rg.CHN_EVENTS_DISCARDED_in _
    | with_reducible apply State.spillRelease_keeps | with_reducible apply State.modEp_keeps
    | with_reducible apply State.modGroup_keeps | with_reducible apply State.bump_keeps | with_reducible apply keeps_ite | split
    | dsimp only

theorem State.epHead_keeps {s0 : State} {M : Nat} (hM : 18014398576590848 ||| M = M) {s : State} (hk : s0.Keeps M s) (p : Nat) (v
    : W64) :
    s0.Keeps M (State.epHead s p v) := by
  unfold State.epHead
  repeat' first
    | with_reducible assumption | exact mask_sub hM (by decide) | with_reducible exact Rg.CHN_EVENTS_DISCARDED_in _
    | with_reducible apply State.modEp_keeps | with_reducible apply State.bump_keeps | with_reducible apply keeps_ite | split
    | dsimp only

theorem State.chnResult_keeps {s0 : State} {M : Nat} (hM : 18014398509481984 ||| M = M) {s : State} (hk : s0.Keeps M s) (p : Nat)
    (code : Nat) :
    s0.Keeps M (State.chnResult s p code) := by
  unfold State.chnResult
  repeat' first
    | with_reducible assumption | exact mask_sub hM (by decide) | with_reducible exact Rg.CHN_CMD_RESULT_RESULT_in _
    | with_reducible exact Rg.CHN_CMD_RESULT_COUNT_in _ | with_reducible apply State.incr_keeps
    | with_reducible apply State.setF_keeps

theorem State.chnOpened_keeps {s0 : State} {M : Nat} (hM : 18014398509481984 ||| M = M) {s : State} (hk : s0.Keeps M s) (p : Nat)
    (h : Nat) :
    s0.Keeps M (State.chnOpened s p h) := by
  unfold State.chnOpened
  repeat' first
    | with_reducible assumption | exact mask_sub hM (by decide) | with_reducible exact Rg.CHN_CMD_RESULT_HANDLE_in _
    | with_reducible apply State.chnResult_keeps | with_reducible apply State.setF_keeps

theorem State.openEp_keeps {s0 : State} {M : Nat} (hM : 18014398576590848 ||| M = M) {s : State} (hk : s0.Keeps M s) (p : Nat) (b
    : Bytes) :
    s0.Keeps M (State.openEp s p b) := by
  unfold State.openEp
  repeat' first
    | with_reducible assumption | exact mask_sub hM (by decide) | with_reducible apply State.chnOpened_keeps
    | with_reducible apply State.chnResult_keeps | simp only [keeps_endpoints (mask_sub hM (by decide))]
    | with_reducible apply keeps_ite

theorem State.openChurn_keeps {s0 : State} {M : Nat} (hM : 92464530118008838 ||| M = M) {s : State} (hk : s0.Keeps M s) (p : Nat)
    (b : Bytes) :
    s0.Keeps M (State.openChurn s p b) := by
  unfold State.openChurn
  repeat' first
    | with_reducible assumption | exact mask_sub hM (by decide) | with_reducible apply State.chnOpened_keeps
    | with_reducible apply State.chnResult_keeps | with_reducible apply State.devWrite_keeps
    | simp only [keeps_churns (mask_sub hM (by decide))] | with_reducible apply keeps_ite

theorem State.chnOpen_keeps {s0 : State} {M : Nat} (hM : 92464530185117702 ||| M = M) {s : State} (hk : s0.Keeps M s) (p : Nat) :
    s0.Keeps M (State.chnOpen s p) := by
  unfold State.chnOpen
  repeat' first
    | with_reducible assumption | exact mask_sub hM (by decide) | with_reducible apply State.openChurn_keeps
    | with_reducible apply State.openEp_keeps | with_reducible apply State.chnResult_keeps | with_reducible apply State.blk_keeps
    | with_reducible refine keeps_of_snd (by with_reducible assumption) ?_ | with_reducible apply keeps_ite | split

theorem State.chnClose_keeps {s0 : State} {M : Nat} (hM : 818708437622321159 ||| M = M) {s : State} (hk : s0.Keeps M s) (p : Nat)
    (h : Nat) (churn : Bool) :
    s0.Keeps M (State.chnClose s p h churn) := by
  unfold State.chnClose
  repeat' first
    | with_reducible assumption | exact mask_sub hM (by decide) | with_reducible exact Rg.CHN_EVENTS_DISCARDED_in _
    | with_reducible apply State.chnResult_keeps | with_reducible apply State.pumpAll_keeps
    | with_reducible apply State.modEp_keeps | with_reducible apply State.bump_keeps
    | simp only [keeps_churns (mask_sub hM (by decide))] | with_reducible apply keeps_ite | split

theorem State.chnCmdWrite_keeps {s0 : State} {M : Nat} (hM : 818708437622321159 ||| M = M) {s : State} (hk : s0.Keeps M s) (p :
    Nat) (v : W64) :
    s0.Keeps M (State.chnCmdWrite s p v) := by
  unfold State.chnCmdWrite
  repeat' first
    | with_reducible assumption | exact mask_sub hM (by decide) | with_reducible apply State.chnClose_keeps
    | with_reducible apply State.chnOpen_keeps | with_reducible apply State.chnResult_keeps | with_reducible apply keeps_ite
    | split

theorem State.endpointFree_keeps {s0 : State} {M : Nat} (hM : 18016597599846400 ||| M = M) {s : State} (hk : s0.Keeps M s) (h :
    Nat) :
    s0.Keeps M (State.endpointFree s h) := by
  unfold State.endpointFree
  repeat' first
    | with_reducible assumption | exact mask_sub hM (by decide) | with_reducible exact Rg.CHN_EVENTS_DISCARDED_in _
    | with_reducible apply State.spillAdvance_keeps | with_reducible apply State.bump_keeps
    | with_reducible refine State.modPart_chans ?_ ?_ _ _ (fun _ => rfl)
    | with_reducible refine keeps_foldl _ ?_ (fun u x hu => ?_) | simp only [keeps_endpoints (mask_sub hM (by decide))]
    | with_reducible apply keeps_ite | split

theorem State.placeNotice_keeps {s0 : State} {M : Nat} (hM : 92466729342590982 ||| M = M) {s : State} (hk : s0.Keeps M s) (q :
    Nat) :
    s0.Keeps M (State.placeNotice s q) := by
  unfold State.placeNotice
  repeat' first
    | with_reducible assumption | exact mask_sub hM (by decide) | with_reducible exact Rg.CHN_EVENTS_DISCARDED_in _
    | with_reducible apply State.seqNext_keeps | with_reducible apply State.landRing_keeps
    | with_reducible apply State.modChurn_keeps | with_reducible apply State.bump_keeps | with_reducible apply keeps_ite | split

theorem State.deliverRound_keeps {s0 : State} {M : Nat} (hM : 92466729342590982 ||| M = M) {s : State} (hk : s0.Keeps M s) (q :
    Nat) :
    s0.Keeps M (State.deliverRound s q) := by
  unfold State.deliverRound
  repeat' first
    | with_reducible assumption | exact mask_sub hM (by decide) | with_reducible exact Rg.CHN_WAIT_CHURN_ROUNDS_in _
    | with_reducible apply State.placeNotice_keeps | with_reducible apply State.modChurn_keeps
    | with_reducible apply State.devWrite_keeps | with_reducible apply State.bump_keeps | with_reducible apply keeps_ite | split

theorem State.churnAdd_keeps {s0 : State} {M : Nat} (hM : 818708437622321159 ||| M = M) {s : State} (hk : s0.Keeps M s) (q : Nat) :
    s0.Keeps M (State.churnAdd s q) := by
  unfold State.churnAdd
  repeat' first
    | with_reducible assumption | exact mask_sub hM (by decide) | with_reducible apply State.deliverRound_keeps
    | with_reducible apply State.pump_keeps | with_reducible apply State.sendRead_keeps
    | with_reducible apply State.sendDone_keeps | with_reducible apply State.modChurn_keeps
    | with_reducible apply State.devWrite_keeps | with_reducible refine keeps_of_snd (by with_reducible assumption) ?_
    | with_reducible apply keeps_ite | split | dsimp only

end Sys2Proof.Machine
end

