-- ==== Sys2Proof/Laws/KeepsLedger.lean ====
section
/-!
SUPPORT. The operations of Machine/Ledger.lean keep the relation of Laws/Keeps.lean.
-/
namespace Sys2Proof.Machine

theorem State.setEnt_keeps {s0 : State} {M : Nat} (hM : 524288 ||| M = M) {s : State} (hk : s0.Keeps M s) (i : Nat) (e : Entry) :
    s0.Keeps M (State.setEnt s i e) := by
  unfold State.setEnt
  repeat' first
    | with_reducible assumption | exact mask_sub hM (by decide) | simp only [keeps_ledger (mask_sub hM (by decide))]

theorem State.modEnt_keeps {s0 : State} {M : Nat} (hM : 524288 ||| M = M) {s : State} (hk : s0.Keeps M s) (i : Nat) (f : Entry →
    Entry) :
    s0.Keeps M (State.modEnt s i f) := by
  unfold State.modEnt
  repeat' first
    | with_reducible assumption | exact mask_sub hM (by decide) | with_reducible apply State.setEnt_keeps

theorem State.rqPlaced_keeps {s0 : State} {M : Nat} (hM : 524288 ||| M = M) {s : State} (hk : s0.Keeps M s) (b : Bytes) :
    s0.Keeps M (State.rqPlaced s b) := by
  unfold State.rqPlaced
  repeat' first
    | with_reducible assumption | exact mask_sub hM (by decide) | with_reducible apply State.setEnt_keeps
    | with_reducible apply keeps_ite

theorem State.rqPut_keeps {s0 : State} {M : Nat} (hM : 83457880351170566 ||| M = M) {s : State} (hk : s0.Keeps M s) (p : Nat) (b :
    Bytes) :
    s0.Keeps M (State.rqPut s p b) := by
  unfold State.rqPut
  repeat' first
    | with_reducible assumption | exact mask_sub hM (by decide) | with_reducible exact Rg.LDG_IRQ_HOLDING_in _
    | exact Rg.LDG_RQ_TAIL_in _ | exact Rg.LDG_IRQ_in _ | with_reducible apply State.rqPlaced_keeps
    | with_reducible apply State.ringWrite_keeps | with_reducible apply State.raise_keeps
    | with_reducible refine State.modPart_holds ?_ ?_ _ _ (fun _ => rfl) | with_reducible apply keeps_ite

theorem State.rqDrain_keeps {s0 : State} {M : Nat} (hM : 83457330595356678 ||| M = M) (p : Nat) (l : List Bytes) {s : State} (hk :
    s0.Keeps M s) :
    s0.Keeps M (State.rqDrain p l s).2 := by
  induction l generalizing s with
  | nil => exact hk
  | cons b t ih =>
    rw [State.rqDrain]
    split
    · exact hk
    · exact ih (State.rqPlaced_keeps (mask_sub hM (by decide)) (State.ringWrite_keeps (c := .ldg) (mask_sub hM (by decide)) (Rg.LDG_RQ_TAIL_in _) (Rg.LDG_IRQ_in _) (mask_sub hM (by decide)) hk _ _) _)

theorem State.report_keeps {s0 : State} {M : Nat} (hM : 83457880351170567 ||| M = M) {s : State} (hk : s0.Keeps M s) (p : Nat) (i
    : Nat) (e : Entry) (kind : Nat) (status : Nat) (reason : Nat) (st : Option (Nat × Nat)) :
    s0.Keeps M (State.report s p i e kind status reason st) := by
  unfold State.report
  repeat' first
    | with_reducible assumption | exact mask_sub hM (by decide) | with_reducible apply State.rqPut_keeps
    | with_reducible apply State.freeNext_keeps | with_reducible apply keeps_ite

theorem State.releaseList_keeps {s0 : State} {M : Nat} (hM : 218565388135555072 ||| M = M) {s : State} (hk : s0.Keeps M s) (p :
    Nat) (list : Nat) :
    s0.Keeps M (State.releaseList s p list) := by
  unfold State.releaseList
  repeat' first
    | with_reducible assumption | exact mask_sub hM (by decide) | with_reducible apply State.streamPages_keeps
    | with_reducible apply State.listHdr_keeps | with_reducible apply State.unref_keeps
    | with_reducible refine keeps_foldl _ ?_ (fun u x hu => ?_)
    | with_reducible refine keeps_of_snd (by with_reducible assumption) ?_ | split

theorem State.dropAdapter_keeps {s0 : State} {M : Nat} (hM : 4398046511104 ||| M = M) {s : State} (hk : s0.Keeps M s) (p : Nat) (e
    : Entry) :
    s0.Keeps M (State.dropAdapter s p e) := by
  unfold State.dropAdapter
  repeat' first
    | with_reducible assumption | exact mask_sub hM (by decide)
    | with_reducible refine State.modPart_slots ?_ ?_ _ _ (fun _ => rfl) | with_reducible apply keeps_ite

theorem State.retire_keeps {s0 : State} {M : Nat} (hM : 227577535193145351 ||| M = M) {s : State} (hk : s0.Keeps M s) (p : Nat) (i
    : Nat) (status : Nat) (st : Option (Nat × Nat)) :
    s0.Keeps M (State.retire s p i status st) := by
  unfold State.retire
  repeat' first
    | with_reducible assumption | exact mask_sub hM (by decide) | with_reducible exact Rg.LDG_EVENTS_LATE_in _
    | with_reducible exact Rg.LDG_EVENTS_DROPPED_in _ | with_reducible apply State.dropAdapter_keeps
    | with_reducible apply State.releaseList_keeps | with_reducible apply State.report_keeps
    | with_reducible apply State.setEnt_keeps | with_reducible apply State.bump_keeps | with_reducible apply keeps_ite

theorem State.enterPaused_keeps {s0 : State} {M : Nat} (hM : 83457880351170567 ||| M = M) {s : State} (hk : s0.Keeps M s) (p :
    Nat) (i : Nat) (status : Nat) (st : Option (Nat × Nat)) :
    s0.Keeps M (State.enterPaused s p i status st) := by
  unfold State.enterPaused
  repeat' first
    | with_reducible assumption | exact mask_sub hM (by decide) | with_reducible exact Rg.LDG_EVENTS_PAUSED_in _
    | with_reducible apply State.report_keeps | with_reducible apply State.setEnt_keeps | with_reducible apply State.bump_keeps

theorem State.budgetOf_keeps {s0 : State} {M : Nat} (hM : 74450131340091392 ||| M = M) {s : State} (hk : s0.Keeps M s) (p : Nat)
    (c : Nat) :
    s0.Keeps M (State.budgetOf s p c).2 := by
  unfold State.budgetOf
  repeat' first
    | with_reducible assumption | exact mask_sub hM (by decide) | with_reducible apply State.devRead_keeps | split | dsimp only

theorem State.setLevel_keeps {s0 : State} {M : Nat} (hM : 74451230851719174 ||| M = M) {s : State} (hk : s0.Keeps M s) (p : Nat)
    (c : Nat) (level : Nat) :
    s0.Keeps M (State.setLevel s p c level) := by
  unfold State.setLevel
  repeat' first
    | with_reducible assumption | exact mask_sub hM (by decide) | with_reducible apply State.devWrite_keeps
    | with_reducible refine State.modPart_sched ?_ ?_ _ _ (fun _ => rfl) | with_reducible apply keeps_ite

theorem State.passGate_keeps {s0 : State} {M : Nat} (hM : 524288 ||| M = M) {s : State} (hk : s0.Keeps M s) (i : Nat) (charge :
    Nat) :
    s0.Keeps M (State.passGate s i charge) := by
  unfold State.passGate
  repeat' first
    | with_reducible assumption | exact mask_sub hM (by decide) | with_reducible apply State.modEnt_keeps

theorem State.holdGate_keeps {s0 : State} {M : Nat} (hM : 9007199255265280 ||| M = M) {s : State} (hk : s0.Keeps M s) (p : Nat) (i
    : Nat) :
    s0.Keeps M (State.holdGate s p i) := by
  unfold State.holdGate
  repeat' first
    | with_reducible assumption | exact mask_sub hM (by decide) | with_reducible exact Rg.LDG_STEPS_BUDGET_GATED_in _
    | with_reducible apply State.modEnt_keeps | with_reducible apply State.bump_keeps | with_reducible apply keeps_ite

theorem State.gate_keeps {s0 : State} {M : Nat} (hM : 83458430106984454 ||| M = M) {s : State} (hk : s0.Keeps M s) (p : Nat) (i :
    Nat) :
    s0.Keeps M (State.gate s p i) := by
  unfold State.gate
  repeat' first
    | with_reducible assumption | exact mask_sub hM (by decide) | with_reducible apply State.holdGate_keeps
    | with_reducible apply State.passGate_keeps | with_reducible apply State.setLevel_keeps
    | with_reducible apply State.budgetOf_keeps | with_reducible apply keeps_ite

theorem State.toGate_keeps {s0 : State} {M : Nat} (hM : 83458979862798343 ||| M = M) {s : State} (hk : s0.Keeps M s) (p : Nat) (i
    : Nat) :
    s0.Keeps M (State.toGate s p i) := by
  unfold State.toGate
  repeat' first
    | with_reducible assumption | exact mask_sub hM (by decide) | with_reducible apply State.gate_keeps
    | with_reducible apply State.enterPaused_keeps | with_reducible apply State.modEnt_keeps | with_reducible apply keeps_ite

theorem State.unpause_keeps {s0 : State} {M : Nat} (hM : 83458979862798343 ||| M = M) {s : State} (hk : s0.Keeps M s) (p : Nat) (i
    : Nat) :
    s0.Keeps M (State.unpause s p i) := by
  unfold State.unpause
  repeat' first
    | with_reducible assumption | exact mask_sub hM (by decide) | with_reducible apply State.toGate_keeps
    | with_reducible apply State.modEnt_keeps | with_reducible apply keeps_ite

theorem State.modSched_keeps {s0 : State} {M : Nat} (hM : 1099511627776 ||| M = M) {s : State} (hk : s0.Keeps M s) (p : Nat) (tag
    : Nat) (f : Sched → Sched) :
    s0.Keeps M (State.modSched s p tag f) := by
  unfold State.modSched
  repeat' first
    | with_reducible assumption | exact mask_sub hM (by decide)
    | with_reducible refine State.modPart_sched ?_ ?_ _ _ (fun _ => rfl)

theorem State.writeVerify_keeps {s0 : State} {M : Nat} (hM : 74450131340091398 ||| M = M) {s : State} (hk : s0.Keeps M s) (p :
    Nat) (ext : Nat) (x : Sched) :
    s0.Keeps M (State.writeVerify s p ext x) := by
  unfold State.writeVerify
  repeat' first
    | with_reducible assumption | exact mask_sub hM (by decide) | with_reducible apply State.devWrite_keeps
    | with_reducible apply State.devRead_keeps | with_reducible refine keeps_foldl _ ?_ (fun u x hu => ?_)

theorem State.closeStep_keeps {s0 : State} {M : Nat} (hM : 83458430106460166 ||| M = M) {s : State} (hk : s0.Keeps M s) (p : Nat)
    (tag : Nat) :
    s0.Keeps M (State.closeStep s p tag) := by
  unfold State.closeStep
  repeat' first
    | with_reducible assumption | exact mask_sub hM (by decide) | with_reducible exact Rg.LDG_STEPS_FORMED_in _
    | with_reducible apply State.writeVerify_keeps | with_reducible apply State.modSched_keeps
    | with_reducible apply State.devWrite_keeps | with_reducible apply State.bump_keeps | with_reducible apply keeps_ite | split

theorem State.formStep_keeps {s0 : State} {M : Nat} (hM : 83458430106984454 ||| M = M) {s : State} (hk : s0.Keeps M s) (p : Nat)
    (tag : Nat) :
    s0.Keeps M (State.formStep s p tag) := by
  unfold State.formStep
  repeat' first
    | with_reducible assumption | exact mask_sub hM (by decide) | with_reducible apply State.closeStep_keeps
    | with_reducible apply State.modSched_keeps | with_reducible apply State.modEnt_keeps
    | with_reducible refine keeps_foldl _ ?_ (fun u x hu => ?_) | with_reducible apply keeps_ite | split

theorem State.formFor_keeps {s0 : State} {M : Nat} (hM : 83458430106984454 ||| M = M) {s : State} (hk : s0.Keeps M s) (p : Nat) (i
    : Nat) :
    s0.Keeps M (State.formFor s p i) := by
  unfold State.formFor
  repeat' first
    | with_reducible assumption | exact mask_sub hM (by decide) | with_reducible apply State.formStep_keeps
    | with_reducible apply keeps_ite

theorem State.returnStep_keeps {s0 : State} {M : Nat} (hM : 83458430106984454 ||| M = M) {s : State} (hk : s0.Keeps M s) (p : Nat)
    (tag : Nat) :
    s0.Keeps M (State.returnStep s p tag) := by
  unfold State.returnStep
  repeat' first
    | with_reducible assumption | exact mask_sub hM (by decide) | with_reducible exact Rg.LDG_STEPS_RETURNED_in _
    | with_reducible apply State.modSched_keeps | with_reducible apply State.setLevel_keeps
    | with_reducible apply State.budgetOf_keeps | with_reducible apply State.modEnt_keeps | with_reducible apply State.bump_keeps
    | with_reducible refine keeps_foldl _ ?_ (fun u x hu => ?_) | with_reducible apply keeps_ite

theorem State.afterSettle_keeps {s0 : State} {M : Nat} (hM : 227578634704773127 ||| M = M) {s : State} (hk : s0.Keeps M s) (p :
    Nat) (i : Nat) (a : After) (st : Nat × Nat) :
    s0.Keeps M (State.afterSettle s p i a st) := by
  unfold State.afterSettle
  repeat' first
    | with_reducible assumption | exact mask_sub hM (by decide) | with_reducible apply State.toGate_keeps
    | with_reducible apply State.enterPaused_keeps | with_reducible apply State.retire_keeps
    | with_reducible apply State.modEnt_keeps | with_reducible apply keeps_ite | split

theorem State.settleAll_keeps {s0 : State} {M : Nat} (hM : 227578634704773127 ||| M = M) {s : State} (hk : s0.Keeps M s) (p : Nat)
    (step : Nat) (st : Nat) (t : Nat) (ts : List (Nat × Nat)) :
    s0.Keeps M (State.settleAll s p step st t ts) := by
  unfold State.settleAll
  repeat' first
    | with_reducible assumption | exact mask_sub hM (by decide) | with_reducible exact Rg.LDG_EVENTS_QUOTA_RETRY_in _
    | with_reducible apply State.afterSettle_keeps | with_reducible apply State.report_keeps
    | with_reducible apply State.setEnt_keeps | with_reducible apply State.bump_keeps
    | with_reducible refine keeps_foldl _ ?_ (fun u x hu => ?_) | with_reducible refine keeps_foldl_fst _ ?_ (fun u x hu => ?_)
    | with_reducible apply keeps_ite

theorem State.settleStep_keeps {s0 : State} {M : Nat} (hM : 227578909582680071 ||| M = M) {s : State} (hk : s0.Keeps M s) (p :
    Nat) (tag : Nat) :
    s0.Keeps M (State.settleStep s p tag) := by
  unfold State.settleStep
  repeat' first
    | with_reducible assumption | exact mask_sub hM (by decide) | with_reducible apply State.settleAll_keeps
    | with_reducible apply State.modSched_keeps | with_reducible apply State.finishUnload_keeps
    | with_reducible apply State.modGraph_keeps | with_reducible apply keeps_ite | split

theorem State.stepSettle_keeps {s0 : State} {M : Nat} (hM : 227578909582680071 ||| M = M) {s : State} (hk : s0.Keeps M s) (p :
    Nat) (tag : Nat) :
    s0.Keeps M (State.stepSettle s p tag) := by
  unfold State.stepSettle
  repeat' first
    | with_reducible assumption | exact mask_sub hM (by decide) | with_reducible apply State.settleStep_keeps
    | with_reducible apply State.formStep_keeps | with_reducible apply keeps_ite

theorem State.ledgerTrigger_keeps {s0 : State} {M : Nat} (hM : 87998090315427847 ||| M = M) {s : State} (hk : s0.Keeps M s) (p :
    Nat) (tag : Nat) :
    s0.Keeps M (State.ledgerTrigger s p tag) := by
  unfold State.ledgerTrigger
  repeat' first
    | with_reducible assumption | exact mask_sub hM (by decide) | with_reducible apply State.returnStep_keeps
    | with_reducible apply State.triggerStep_keeps | with_reducible refine keeps_of_snd (by with_reducible assumption) ?_
    | with_reducible apply keeps_ite | split

theorem State.runBlock_keeps {s0 : State} {M : Nat} (hM : 74450131340091392 ||| M = M) {s : State} (hk : s0.Keeps M s) (p : Nat)
    (g : Graph) :
    s0.Keeps M (State.runBlock s p g).2 := by
  unfold State.runBlock
  repeat' first
    | with_reducible assumption | exact mask_sub hM (by decide) | with_reducible apply State.blk_keeps
    | with_reducible refine keeps_of_snd (by with_reducible assumption) ?_ | split | dsimp only

theorem State.dspRun_keeps {s0 : State} {M : Nat} (hM : 232117745157402631 ||| M = M) {s : State} (hk : s0.Keeps M s) (p : Nat)
    (tag : Nat) :
    s0.Keeps M (State.dspRun s p tag) := by
  unfold State.dspRun
  repeat' first
    | with_reducible assumption | exact mask_sub hM (by decide) | with_reducible exact Rg.DSP_IRQ_CMD_DONE_in _
    | with_reducible exact Rg.DSP_CMD_RESULT_COUNT_in _ | with_reducible apply State.runBlock_keeps
    | with_reducible apply State.settleStep_keeps | with_reducible apply State.triggerStep_keeps
    | with_reducible apply State.dspDone_keeps | with_reducible apply State.devWrite_keeps | with_reducible apply State.incr_keeps
    | with_reducible apply State.raise_keeps | with_reducible refine keeps_of_snd (by with_reducible assumption) ?_
    | with_reducible apply keeps_ite | split | dsimp only

end Sys2Proof.Machine
end

