-- ==== Sys2Proof/Laws/KeepsLedgerCmds.lean ====
section
/-!
SUPPORT. The operations of Machine/LedgerCmds.lean keep the relation of Laws/Keeps.lean.
-/
namespace Sys2Proof.Machine

theorem State.passDev_keeps {s0 : State} {M : Nat} (hM : 17179873280 ||| M = M) {s : State} (hk : s0.Keeps M s) (t : Nat) :
    s0.Keeps M (State.passDev s t) := by
  unfold State.passDev
  repeat' first
    | with_reducible assumption | exact mask_sub hM (by decide) | with_reducible apply State.pass_keeps

theorem State.formAll_keeps {s0 : State} {M : Nat} (hM : 83458430106984454 ||| M = M) {s : State} (hk : s0.Keeps M s) (p : Nat) :
    s0.Keeps M (State.formAll s p) := by
  unfold State.formAll
  repeat' first
    | with_reducible assumption | exact mask_sub hM (by decide) | with_reducible apply State.formStep_keeps
    | with_reducible refine keeps_foldl _ ?_ (fun u x hu => ?_)

theorem State.gatePass_keeps {s0 : State} {M : Nat} (hM : 83458430106984454 ||| M = M) {s : State} (hk : s0.Keeps M s) (e : Nat) :
    s0.Keeps M (State.gatePass s e) := by
  unfold State.gatePass
  repeat' first
    | with_reducible assumption | exact mask_sub hM (by decide) | with_reducible apply State.formFor_keeps
    | with_reducible apply State.gate_keeps | with_reducible apply keeps_ite

theorem State.sqTail_keeps {s0 : State} {M : Nat} (hM : 9007199254740992 ||| M = M) {s : State} (hk : s0.Keeps M s) (p : Nat) (v :
    W64) :
    s0.Keeps M (State.sqTail s p v) := by
  unfold State.sqTail
  repeat' first
    | with_reducible assumption | exact mask_sub hM (by decide) | with_reducible exact Rg.LDG_SQ_TAIL_TAIL_in _
    | with_reducible exact Rg.LDG_IRQ_SQ_BAD_in _ | with_reducible apply State.raise_keeps | with_reducible apply State.setF_keeps
    | with_reducible apply keeps_ite

theorem State.submitList_keeps {s0 : State} {M : Nat} (hM : 74450131340091392 ||| M = M) {s : State} (hk : s0.Keeps M s) (p : Nat)
    (list : Nat) :
    s0.Keeps M (State.submitList s p list).2 := by
  unfold State.submitList
  repeat' first
    | with_reducible assumption | exact mask_sub hM (by decide) | with_reducible apply State.blk_keeps
    | with_reducible refine keeps_of_snd (by with_reducible assumption) ?_ | split

theorem State.submitCheck_keeps {s0 : State} {M : Nat} (hM : 74450131340091392 ||| M = M) {s : State} (hk : s0.Keeps M s) (p :
    Nat) (b : Bytes) :
    s0.Keeps M (State.submitCheck s p b).2 := by
  unfold State.submitCheck
  repeat' first
    | with_reducible assumption | exact mask_sub hM (by decide) | with_reducible apply State.submitList_keeps
    | with_reducible refine keeps_of_snd (by with_reducible assumption) ?_ | split | dsimp only

theorem State.bareRecord_keeps {s0 : State} {M : Nat} (hM : 83457880351170567 ||| M = M) {s : State} (hk : s0.Keeps M s) (p : Nat)
    (b : Bytes) (kind : Nat) (reason : Nat) (entry : Option Nat) :
    s0.Keeps M (State.bareRecord s p b kind reason entry) := by
  unfold State.bareRecord
  repeat' first
    | with_reducible assumption | exact mask_sub hM (by decide) | with_reducible apply State.rqPut_keeps
    | with_reducible apply State.freeNext_keeps

theorem State.bindAdapter_keeps {s0 : State} {M : Nat} (hM : 4398046511104 ||| M = M) {s : State} (hk : s0.Keeps M s) (p : Nat)
    (slot : Nat) :
    s0.Keeps M (State.bindAdapter s p slot) := by
  unfold State.bindAdapter
  repeat' first
    | with_reducible assumption | exact mask_sub hM (by decide)
    | with_reducible refine State.modPart_slots ?_ ?_ _ _ (fun _ => rfl)

theorem State.submit_keeps {s0 : State} {M : Nat} (hM : 83463377909309447 ||| M = M) {s : State} (hk : s0.Keeps M s) (p : Nat) (b
    : Bytes) :
    s0.Keeps M (State.submit s p b) := by
  unfold State.submit
  repeat' first
    | with_reducible assumption | exact mask_sub hM (by decide) | with_reducible apply State.bindAdapter_keeps
    | with_reducible apply State.bareRecord_keeps | with_reducible apply State.submitCheck_keeps
    | with_reducible apply State.formFor_keeps | with_reducible apply State.toGate_keeps | with_reducible apply State.report_keeps
    | with_reducible apply State.setEnt_keeps | with_reducible refine keeps_of_snd (by with_reducible assumption) ?_
    | with_reducible apply keeps_ite | split

theorem State.cmdRecord_keeps {s0 : State} {M : Nat} (hM : 83457880351170566 ||| M = M) {s : State} (hk : s0.Keeps M s) (p : Nat)
    (i : Nat) (reason : Nat) :
    s0.Keeps M (State.cmdRecord s p i reason) := by
  unfold State.cmdRecord
  repeat' first
    | with_reducible assumption | exact mask_sub hM (by decide) | with_reducible apply State.rqPut_keeps

theorem State.cancelEntry_keeps {s0 : State} {M : Nat} (hM : 227577535730016263 ||| M = M) {s : State} (hk : s0.Keeps M s) (p :
    Nat) (i : Nat) :
    s0.Keeps M (State.cancelEntry s p i) := by
  unfold State.cancelEntry
  repeat' first
    | with_reducible assumption | exact mask_sub hM (by decide) | with_reducible apply State.retire_keeps
    | with_reducible apply State.modEnt_keeps | simp only [keeps_coach (mask_sub hM (by decide))] | split

theorem State.extendEntry_keeps {s0 : State} {M : Nat} (hM : 83458979862798343 ||| M = M) {s : State} (hk : s0.Keeps M s) (p :
    Nat) (i : Nat) (len : Nat) (draft : Nat) :
    s0.Keeps M (State.extendEntry s p i len draft) := by
  unfold State.extendEntry
  repeat' first
    | with_reducible assumption | exact mask_sub hM (by decide) | with_reducible apply State.formFor_keeps
    | with_reducible apply State.unpause_keeps | with_reducible apply State.modEnt_keeps | with_reducible apply keeps_ite

theorem State.pauseEntry_keeps {s0 : State} {M : Nat} (hM : 83457880351170567 ||| M = M) {s : State} (hk : s0.Keeps M s) (p : Nat)
    (i : Nat) :
    s0.Keeps M (State.pauseEntry s p i) := by
  unfold State.pauseEntry
  repeat' first
    | with_reducible assumption | exact mask_sub hM (by decide) | with_reducible apply State.enterPaused_keeps
    | with_reducible apply State.modEnt_keeps | with_reducible apply keeps_ite

theorem State.finishEntry_keeps {s0 : State} {M : Nat} (hM : 227577535193145351 ||| M = M) {s : State} (hk : s0.Keeps M s) (p :
    Nat) (i : Nat) :
    s0.Keeps M (State.finishEntry s p i) := by
  unfold State.finishEntry
  repeat' first
    | with_reducible assumption | exact mask_sub hM (by decide) | with_reducible apply State.retire_keeps
    | with_reducible apply State.modEnt_keeps | with_reducible apply State.setEnt_keeps | with_reducible apply keeps_ite

theorem State.actOn_keeps {s0 : State} {M : Nat} (hM : 227578635241644039 ||| M = M) {s : State} (hk : s0.Keeps M s) (p : Nat) (i
    : Nat) (op : Nat) (b : Bytes) :
    s0.Keeps M (State.actOn s p i op b) := by
  unfold State.actOn
  repeat' first
    | with_reducible assumption | exact mask_sub hM (by decide) | with_reducible apply State.finishEntry_keeps
    | with_reducible apply State.pauseEntry_keeps | with_reducible apply State.extendEntry_keeps
    | with_reducible apply State.cancelEntry_keeps | with_reducible apply State.formFor_keeps
    | with_reducible apply State.unpause_keeps | with_reducible apply State.modEnt_keeps | with_reducible apply State.setEnt_keeps
    | split

theorem State.command_keeps {s0 : State} {M : Nat} (hM : 227578635241644039 ||| M = M) {s : State} (hk : s0.Keeps M s) (p : Nat)
    (op : Nat) (b : Bytes) :
    s0.Keeps M (State.command s p op b) := by
  unfold State.command
  repeat' first
    | with_reducible assumption | exact mask_sub hM (by decide) | with_reducible apply State.actOn_keeps
    | with_reducible apply State.cmdRecord_keeps | with_reducible apply State.bareRecord_keeps
    | with_reducible apply State.isolation_keeps | with_reducible apply keeps_ite

theorem State.sqStep_keeps {s0 : State} {M : Nat} (hM : 227578635241644039 ||| M = M) {s : State} (hk : s0.Keeps M s) (p : Nat)
    (op : Nat) :
    s0.Keeps M (State.sqStep s p op) := by
  unfold State.sqStep
  repeat' first
    | with_reducible assumption | exact mask_sub hM (by decide) | with_reducible exact Rg.LDG_SQ_HEAD_HEAD_in _
    | with_reducible apply State.command_keeps | with_reducible apply State.submit_keeps
    | with_reducible apply State.bareRecord_keeps | with_reducible apply State.blk_keeps | with_reducible apply State.incr_keeps
    | with_reducible refine keeps_of_snd (by with_reducible assumption) ?_ | with_reducible apply keeps_ite | split

theorem State.rqHead_keeps {s0 : State} {M : Nat} (hM : 83458979862798342 ||| M = M) {s : State} (hk : s0.Keeps M s) (p : Nat) (v
    : W64) :
    s0.Keeps M (State.rqHead s p v) := by
  unfold State.rqHead
  repeat' first
    | with_reducible assumption | exact mask_sub hM (by decide) | with_reducible exact Rg.LDG_RQ_HEAD_HEAD_in _
    | with_reducible apply State.formAll_keeps | with_reducible apply State.rqDrain_keeps | with_reducible apply State.setF_keeps
    | with_reducible refine State.modPart_holds ?_ ?_ _ _ (fun _ => rfl)

theorem State.ldgResult_keeps {s0 : State} {M : Nat} (hM : 9007199254740992 ||| M = M) {s : State} (hk : s0.Keeps M s) (p : Nat)
    (code : Nat) :
    s0.Keeps M (State.ldgResult s p code) := by
  unfold State.ldgResult
  repeat' first
    | with_reducible assumption | exact mask_sub hM (by decide) | with_reducible exact Rg.LDG_CMD_RESULT_RESULT_in _
    | with_reducible exact Rg.LDG_CMD_RESULT_COUNT_in _ | with_reducible apply State.incr_keeps
    | with_reducible apply State.setF_keeps

theorem State.ldgRead_keeps {s0 : State} {M : Nat} (hM : 9147936743112704 ||| M = M) {s : State} (hk : s0.Keeps M s) (p : Nat) (e
    : Nat) :
    s0.Keeps M (State.ldgRead s p e) := by
  unfold State.ldgRead
  repeat' first
    | with_reducible assumption | exact mask_sub hM (by decide) | with_reducible exact Rg.LDG_ENTRY_DATA_in _ _
    | with_reducible apply State.ldgResult_keeps | with_reducible apply State.isolation_keeps
    | with_reducible apply State.wr_keeps | with_reducible refine keeps_foldl _ ?_ (fun u x hu => ?_)
    | with_reducible apply keeps_ite

theorem State.ldgCmdWrite_keeps {s0 : State} {M : Nat} (hM : 9147936743112704 ||| M = M) {s : State} (hk : s0.Keeps M s) (p : Nat)
    (v : W64) :
    s0.Keeps M (State.ldgCmdWrite s p v) := by
  unfold State.ldgCmdWrite
  repeat' first
    | with_reducible assumption | exact mask_sub hM (by decide) | with_reducible apply State.ldgRead_keeps
    | with_reducible apply State.ldgResult_keeps | with_reducible apply keeps_ite

theorem State.batchExpiry_keeps {s0 : State} {M : Nat} (hM : 83458447286333446 ||| M = M) {s : State} (hk : s0.Keeps M s) (p :
    Nat) (tag : Nat) :
    s0.Keeps M (State.batchExpiry s p tag) := by
  unfold State.batchExpiry
  repeat' first
    | with_reducible assumption | exact mask_sub hM (by decide) | with_reducible apply State.passDev_keeps
    | with_reducible apply State.closeStep_keeps | with_reducible apply keeps_ite | split

theorem State.batchDeadline_keeps {s0 : State} {M : Nat} (hM : 83458447286333446 ||| M = M) {s : State} (hk : s0.Keeps M s) (p :
    Nat) (tag : Nat) :
    s0.Keeps M (State.batchDeadline s p tag) := by
  unfold State.batchDeadline
  repeat' first
    | with_reducible assumption | exact mask_sub hM (by decide) | with_reducible apply State.passDev_keeps
    | with_reducible apply State.closeStep_keeps | with_reducible apply keeps_ite

theorem State.budgetEnter_keeps {s0 : State} {M : Nat} (hM : 9007216435138560 ||| M = M) {s : State} (hk : s0.Keeps M s) (p : Nat) :
    s0.Keeps M (State.budgetEnter s p) := by
  unfold State.budgetEnter
  repeat' first
    | with_reducible assumption | exact mask_sub hM (by decide) | with_reducible exact Rg.LDG_CTRL_BUDGET_in _
    | with_reducible exact Rg.LDG_BUDGET_START_START_in _ | with_reducible exact Rg.LDG_IRQ_BUDGET_in _
    | with_reducible apply State.passDev_keeps | with_reducible apply State.modEnt_keeps | with_reducible apply State.raise_keeps
    | with_reducible apply State.setF_keeps | with_reducible refine keeps_foldl _ ?_ (fun u x hu => ?_)
    | with_reducible apply keeps_ite

theorem State.budgetLeave_keeps {s0 : State} {M : Nat} (hM : 83458430106984454 ||| M = M) {s : State} (hk : s0.Keeps M s) (p :
    Nat) :
    s0.Keeps M (State.budgetLeave s p) := by
  unfold State.budgetLeave
  repeat' first
    | with_reducible assumption | exact mask_sub hM (by decide) | with_reducible exact Rg.LDG_CTRL_BUDGET_in _
    | with_reducible exact Rg.LDG_IRQ_BUDGET_in _ | with_reducible apply State.formAll_keeps
    | with_reducible apply State.modEnt_keeps | with_reducible apply State.raise_keeps | with_reducible apply State.setF_keeps
    | with_reducible refine keeps_foldl _ ?_ (fun u x hu => ?_) | with_reducible apply keeps_ite

theorem State.pressEntry_keeps {s0 : State} {M : Nat} (hM : 83457880351170567 ||| M = M) {s : State} (hk : s0.Keeps M s) (p : Nat)
    (i : Nat) :
    s0.Keeps M (State.pressEntry s p i) := by
  unfold State.pressEntry
  repeat' first
    | with_reducible assumption | exact mask_sub hM (by decide) | with_reducible apply State.enterPaused_keeps
    | with_reducible apply State.modEnt_keeps | with_reducible apply keeps_ite | split

theorem State.pressureBegin_keeps {s0 : State} {M : Nat} (hM : 83457897531043847 ||| M = M) {s : State} (hk : s0.Keeps M s) (p :
    Nat) :
    s0.Keeps M (State.pressureBegin s p) := by
  unfold State.pressureBegin
  repeat' first
    | with_reducible assumption | exact mask_sub hM (by decide) | with_reducible exact Rg.LDG_IRQ_PRESSURE_in _
    | with_reducible apply State.pressEntry_keeps | with_reducible apply State.passDev_keeps
    | with_reducible apply State.raise_keeps | with_reducible refine keeps_foldl _ ?_ (fun u x hu => ?_)
    | with_reducible apply keeps_ite | split

theorem State.unpressEntry_keeps {s0 : State} {M : Nat} (hM : 83458979862798343 ||| M = M) {s : State} (hk : s0.Keeps M s) (p :
    Nat) (i : Nat) :
    s0.Keeps M (State.unpressEntry s p i) := by
  unfold State.unpressEntry
  repeat' first
    | with_reducible assumption | exact mask_sub hM (by decide) | with_reducible apply State.unpause_keeps
    | with_reducible apply State.setEnt_keeps | with_reducible apply keeps_ite

theorem State.pressureEnd_keeps {s0 : State} {M : Nat} (hM : 83458979862798343 ||| M = M) {s : State} (hk : s0.Keeps M s) (p :
    Nat) :
    s0.Keeps M (State.pressureEnd s p) := by
  unfold State.pressureEnd
  repeat' first
    | with_reducible assumption | exact mask_sub hM (by decide) | with_reducible apply State.unpressEntry_keeps
    | with_reducible apply State.formAll_keeps | with_reducible refine keeps_foldl _ ?_ (fun u x hu => ?_)
    | with_reducible apply keeps_ite

theorem State.deadlinePass_keeps {s0 : State} {M : Nat} (hM : 227577552373018631 ||| M = M) {s : State} (hk : s0.Keeps M s) (i :
    Nat) :
    s0.Keeps M (State.deadlinePass s i) := by
  unfold State.deadlinePass
  repeat' first
    | with_reducible assumption | exact mask_sub hM (by decide) | with_reducible apply State.passDev_keeps
    | with_reducible apply State.retire_keeps | with_reducible apply State.modEnt_keeps | with_reducible apply keeps_ite

theorem State.adpResult_keeps {s0 : State} {M : Nat} (hM : 36028797018963968 ||| M = M) {s : State} (hk : s0.Keeps M s) (p : Nat)
    (code : Nat) :
    s0.Keeps M (State.adpResult s p code) := by
  unfold State.adpResult
  repeat' first
    | with_reducible assumption | exact mask_sub hM (by decide) | with_reducible exact Rg.ADP_CMD_RESULT_RESULT_in _
    | with_reducible exact Rg.ADP_CMD_RESULT_COUNT_in _ | with_reducible apply State.incr_keeps
    | with_reducible apply State.setF_keeps

theorem State.setAd_keeps {s0 : State} {M : Nat} (hM : 4398046511104 ||| M = M) {s : State} (hk : s0.Keeps M s) (p : Nat) (i :
    Nat) (a : AdSlot) :
    s0.Keeps M (State.setAd s p i a) := by
  unfold State.setAd
  repeat' first
    | with_reducible assumption | exact mask_sub hM (by decide)
    | with_reducible refine State.modPart_slots ?_ ?_ _ _ (fun _ => rfl)

theorem State.adpBind_keeps {s0 : State} {M : Nat} (hM : 36033195065475072 ||| M = M) {s : State} (hk : s0.Keeps M s) (p : Nat)
    (slot : Nat) (customer : Nat) :
    s0.Keeps M (State.adpBind s p slot customer) := by
  unfold State.adpBind
  repeat' first
    | with_reducible assumption | exact mask_sub hM (by decide) | with_reducible apply State.setAd_keeps
    | with_reducible apply State.adpResult_keeps | with_reducible apply keeps_ite

theorem State.adpUnbind_keeps {s0 : State} {M : Nat} (hM : 36033195065475072 ||| M = M) {s : State} (hk : s0.Keeps M s) (p : Nat)
    (slot : Nat) :
    s0.Keeps M (State.adpUnbind s p slot) := by
  unfold State.adpUnbind
  repeat' first
    | with_reducible assumption | exact mask_sub hM (by decide) | with_reducible apply State.setAd_keeps
    | with_reducible apply State.adpResult_keeps | with_reducible apply keeps_ite

theorem State.adpPublish_keeps {s0 : State} {M : Nat} (hM : 110483326405566470 ||| M = M) {s : State} (hk : s0.Keeps M s) (p :
    Nat) (slot : Nat) :
    s0.Keeps M (State.adpPublish s p slot) := by
  unfold State.adpPublish
  repeat' first
    | with_reducible assumption | exact mask_sub hM (by decide) | with_reducible exact Rg.ADP_CMD_RESULT_GEN_in _
    | with_reducible apply State.setAd_keeps | with_reducible apply State.adpResult_keeps | with_reducible apply State.blk_keeps
    | with_reducible apply State.devWrite_keeps | with_reducible apply State.setF_keeps
    | with_reducible refine keeps_of_snd (by with_reducible assumption) ?_ | with_reducible apply keeps_ite | split

theorem State.adpCmdWrite_keeps {s0 : State} {M : Nat} (hM : 110483326405566470 ||| M = M) {s : State} (hk : s0.Keeps M s) (p :
    Nat) (v : W64) :
    s0.Keeps M (State.adpCmdWrite s p v) := by
  unfold State.adpCmdWrite
  repeat' first
    | with_reducible assumption | exact mask_sub hM (by decide) | with_reducible apply State.adpPublish_keeps
    | with_reducible apply State.adpUnbind_keeps | with_reducible apply State.adpBind_keeps
    | with_reducible apply State.adpResult_keeps | with_reducible apply keeps_ite | split

theorem State.adpArea_keeps {s0 : State} {M : Nat} (hM : 110478928359055366 ||| M = M) {s : State} (hk : s0.Keeps M s) (p : Nat)
    (v : W64) :
    s0.Keeps M (State.adpArea s p v) := by
  unfold State.adpArea
  repeat' first
    | with_reducible assumption | exact mask_sub hM (by decide) | with_reducible exact Rg.ADP_AREA_in _
    | with_reducible apply State.devWrite_keeps | with_reducible apply State.wr_keeps | with_reducible apply keeps_ite

end Sys2Proof.Machine
end

