-- ==== Sys2Proof/Laws/KeepsXfer.lean ====
section
/-!
SUPPORT. The operations of Machine/Xfer.lean keep the relation of Laws/Keeps.lean.
-/
namespace Sys2Proof.Machine

theorem State.pathLoss_keeps {s0 : State} {M : Nat} (hM : 800694037971988487 ||| M = M) {s : State} (hk : s0.Keeps M s) (p : Nat)
    (n : Nat) (d : Nat) :
    s0.Keeps M (State.pathLoss s p n d) := by
  unfold State.pathLoss
  repeat' first
    | with_reducible assumption | exact mask_sub hM (by decide) | with_reducible apply State.jobFaultAs_keeps

theorem State.waitOpen_keeps {s0 : State} {M : Nat} (hM : 536870912 ||| M = M) {s : State} (hk : s0.Keeps M s) (kind : Nat) (i :
    Nat) :
    s0.Keeps M (State.waitOpen s kind i) := by
  unfold State.waitOpen
  repeat' first
    | with_reducible assumption | exact mask_sub hM (by decide) | simp only [keeps_coach (mask_sub hM (by decide))]
    | with_reducible apply keeps_ite

theorem State.portRead_keeps {s0 : State} {M : Nat} (hM : 800694037971988487 ||| M = M) {s : State} (hk : s0.Keeps M s) (t : Nat)
    (p : Nat) (a : Nat) (n : Nat) :
    s0.Keeps M (State.portRead s t p a n).2 := by
  unfold State.portRead
  repeat' first
    | with_reducible assumption | exact mask_sub hM (by decide) | with_reducible apply State.partDone_keeps
    | with_reducible apply State.devRead_keeps | with_reducible apply State.taskStatus_keeps | with_reducible apply keeps_ite
    | split | dsimp only

theorem State.exportForm_keeps {s0 : State} {M : Nat} (hM : 74450131340025856 ||| M = M) {s : State} (hk : s0.Keeps M s) (p : Nat)
    (h : ListHdr) (layer : Nat) (head : Nat) (blk : Nat) (half : Nat) (i : Nat) :
    s0.Keeps M (State.exportForm s p h layer head blk half i).2 := by
  unfold State.exportForm
  repeat' first
    | with_reducible assumption | exact mask_sub hM (by decide) | with_reducible apply State.frameRead_keeps

theorem State.xferAct_keeps {s0 : State} {M : Nat} (hM : 1048576 ||| M = M) {s : State} (hk : s0.Keeps M s) (t : Nat) (b : Bytes) :
    s0.Keeps M (State.xferAct s t b) := by
  unfold State.xferAct
  repeat' first
    | with_reducible assumption | exact mask_sub hM (by decide) | with_reducible apply State.modTask_keeps

theorem State.xferWait_keeps {s0 : State} {M : Nat} (hM : 800694037971988487 ||| M = M) {s : State} (hk : s0.Keeps M s) (t : Nat) :
    s0.Keeps M (State.xferWait s t) := by
  unfold State.xferWait
  repeat' first
    | with_reducible assumption | exact mask_sub hM (by decide) | with_reducible apply State.xferAct_keeps
    | with_reducible apply State.partDone_keeps | split

theorem State.xferVia_keeps {s0 : State} {M : Nat} (hM : 800694037971988487 ||| M = M) {s : State} (hk : s0.Keeps M s) (k : Task)
    (b : Bytes) {msg : State → Option (List (Nat × Bytes)) × State} (hmsg : ∀ u, s0.Keeps M u → s0.Keeps M (msg u).2) :
    s0.Keeps M (State.xferVia s k b msg) := by
  unfold State.xferVia
  repeat' first
    | with_reducible assumption | exact mask_sub hM (by decide) | with_reducible apply hmsg
    | with_reducible apply State.xferAct_keeps | with_reducible apply State.waitOpen_keeps
    | with_reducible apply State.pathLoss_keeps | with_reducible apply State.partDone_keeps
    | with_reducible apply State.awaitFlow_keeps | with_reducible apply State.flowSend_keeps
    | with_reducible apply State.jobFlow_keeps | with_reducible apply State.taskStatus_keeps
    | with_reducible refine keeps_of_snd (by with_reducible assumption) ?_ | split | dsimp only

theorem State.xferWrite_keeps {s0 : State} {M : Nat} (hM : 800694037971988487 ||| M = M) {s : State} (hk : s0.Keeps M s) (t : Nat) :
    s0.Keeps M (State.xferWrite s t) := by
  unfold State.xferWrite
  repeat' first
    | with_reducible assumption | exact mask_sub hM (by decide) | with_reducible apply State.xferVia_keeps
    | with_reducible apply State.portRead_keeps | with_reducible refine keeps_of_snd (by with_reducible assumption) ?_ | split
    | intro _

theorem State.layerPages_keeps {s0 : State} {M : Nat} (hM : 218565319415947264 ||| M = M) {s : State} (hk : s0.Keeps M s) (p :
    Nat) (t : Nat) (list : Nat) (layer : Nat) (h : ListHdr) :
    s0.Keeps M (State.layerPages s p t list layer h).2 := by
  unfold State.layerPages
  repeat' first
    | with_reducible assumption | exact mask_sub hM (by decide) | with_reducible apply State.readSlot_keeps
    | with_reducible refine keeps_foldl_snd _ ?_ (fun u x hu => ?_)
    | with_reducible refine keeps_of_snd (by with_reducible assumption) ?_ | split | dsimp only

theorem State.shardMsg_keeps {s0 : State} {M : Nat} (hM : 800694037971988487 ||| M = M) {s : State} (hk : s0.Keeps M s) (k : Task)
    (h : ListHdr) (layer : Nat) (dst : Nat) (ps : List (Nat × Nat × Nat × Nat)) :
    s0.Keeps M (State.shardMsg s k h layer dst ps).2 := by
  unfold State.shardMsg
  repeat' first
    | with_reducible assumption | exact mask_sub hM (by decide) | with_reducible apply State.exportForm_keeps
    | with_reducible apply State.partDone_keeps | with_reducible apply State.putPage_keeps
    | with_reducible apply State.taskStatus_keeps | with_reducible apply State.modTask_keeps
    | with_reducible refine keeps_foldl_snd _ ?_ (fun u x hu => ?_)
    | with_reducible refine keeps_of_snd (by with_reducible assumption) ?_ | split | dsimp only

theorem State.xferShard_keeps {s0 : State} {M : Nat} (hM : 800694037971988487 ||| M = M) {s : State} (hk : s0.Keeps M s) (t : Nat) :
    s0.Keeps M (State.xferShard s t) := by
  unfold State.xferShard
  repeat' first
    | with_reducible assumption | exact mask_sub hM (by decide) | with_reducible apply State.shardMsg_keeps
    | with_reducible apply State.layerPages_keeps | with_reducible apply State.xferVia_keeps
    | with_reducible apply State.xferAct_keeps | with_reducible apply State.partDone_keeps
    | with_reducible apply State.listHdr_keeps | with_reducible apply State.taskStatus_keeps
    | with_reducible apply State.isolation_keeps | with_reducible refine keeps_of_snd (by with_reducible assumption) ?_
    | with_reducible apply keeps_ite | split | intro _ | dsimp only

theorem State.xferChannel_keeps {s0 : State} {M : Nat} (hM : 818708437622321159 ||| M = M) {s : State} (hk : s0.Keeps M s) (t :
    Nat) (op : Nat) :
    s0.Keeps M (State.xferChannel s t op) := by
  unfold State.xferChannel
  repeat' first
    | with_reducible assumption | exact mask_sub hM (by decide) | with_reducible apply State.xferAct_keeps
    | with_reducible apply State.enqueue_keeps | with_reducible apply keeps_ite | split

theorem State.collSendRun_keeps {s0 : State} {M : Nat} (hM : 800694037971988487 ||| M = M) {s : State} (hk : s0.Keeps M s) (k :
    Task) (b : Bytes) (c : Coll) (i : Nat) (st : CollStep) (tgt : Nat) (flow : Nat) (j : Nat) (x : Run) :
    s0.Keeps M (State.collSendRun s k b c i st tgt flow j x).2 := by
  unfold State.collSendRun
  repeat' first
    | with_reducible assumption | exact mask_sub hM (by decide) | with_reducible apply State.portRead_keeps
    | with_reducible apply State.awaitFlow_keeps | with_reducible apply State.flowSend_keeps
    | with_reducible refine keeps_of_snd (by with_reducible assumption) ?_ | split | dsimp only

theorem State.collSends_keeps {s0 : State} {M : Nat} (hM : 800694037971988487 ||| M = M) {s : State} (hk : s0.Keeps M s) (k :
    Task) (b : Bytes) (c : Coll) (i : Nat) (st : CollStep) :
    s0.Keeps M (State.collSends s k b c i st).2 := by
  unfold State.collSends
  repeat' first
    | with_reducible assumption | exact mask_sub hM (by decide) | with_reducible apply State.collSendRun_keeps
    | with_reducible apply State.waitOpen_keeps | with_reducible apply State.pathLoss_keeps
    | with_reducible apply State.partDone_keeps | with_reducible apply State.jobFlow_keeps
    | with_reducible apply State.taskStatus_keeps | with_reducible refine keeps_foldl_snd _ ?_ (fun u x hu => ?_)
    | with_reducible refine keeps_of_snd (by with_reducible assumption) ?_ | split

theorem State.collWrite_keeps {s0 : State} {M : Nat} (hM : 74450131356868614 ||| M = M) {s : State} (hk : s0.Keeps M s) (p : Nat)
    (a : Nat) (bs : Bytes) :
    s0.Keeps M (State.collWrite s p a bs) := by
  unfold State.collWrite
  repeat' first
    | with_reducible assumption | exact mask_sub hM (by decide) | with_reducible apply State.wcInval_keeps
    | with_reducible apply State.devWrite_keeps

theorem State.collLand_keeps {s0 : State} {M : Nat} (hM : 800694037971988487 ||| M = M) {s : State} (hk : s0.Keeps M s) (k : Task)
    (b : Bytes) (c : Coll) (rank : Nat) (i : Nat) (j : Nat) (x : Run) :
    s0.Keeps M (State.collLand s k b c rank i j x).2 := by
  unfold State.collLand
  repeat' first
    | with_reducible assumption | exact mask_sub hM (by decide) | with_reducible apply State.collWrite_keeps
    | with_reducible apply State.portRead_keeps | with_reducible refine keeps_of_snd (by with_reducible assumption) ?_ | split
    | dsimp only

theorem State.collPost_keeps {s0 : State} {M : Nat} (hM : 800694037971988487 ||| M = M) {s : State} (hk : s0.Keeps M s) (k : Task)
    (b : Bytes) (c : Coll) (rank : Nat) (i : Nat) (st : CollStep) :
    s0.Keeps M (State.collPost s k b c rank i st).2 := by
  unfold State.collPost
  repeat' first
    | with_reducible assumption | exact mask_sub hM (by decide) | with_reducible apply State.collLand_keeps
    | with_reducible apply State.modTask_keeps | with_reducible refine keeps_foldl_snd _ ?_ (fun u x hu => ?_) | split

theorem State.collRun_keeps {s0 : State} {M : Nat} (hM : 800694037971988487 ||| M = M) (t : Nat) (rank : Nat) (b : Bytes) (c :
    Coll) (n : Nat) {s : State} (hk : s0.Keeps M s) :
    s0.Keeps M (State.collRun t rank b c n s) := by
  induction n generalizing s with
  | zero => exact hk
  | succ n ih =>
    rw [State.collRun]
    repeat' first
      | with_reducible assumption | with_reducible apply ih | with_reducible assumption | exact mask_sub hM (by decide)
      | with_reducible apply State.collPost_keeps | with_reducible apply State.collWrite_keeps
      | with_reducible apply State.collSends_keeps | with_reducible apply State.partDone_keeps
      | with_reducible apply State.waitOn_keeps | with_reducible refine keeps_of_snd (by with_reducible assumption) ?_
      | with_reducible apply keeps_ite | split

theorem State.collective_keeps {s0 : State} {M : Nat} (hM : 800694037971988487 ||| M = M) {s : State} (hk : s0.Keeps M s) (t :
    Nat) (op : Nat) :
    s0.Keeps M (State.collective s t op) := by
  unfold State.collective
  repeat' first
    | with_reducible assumption | exact mask_sub hM (by decide) | with_reducible apply State.collRun_keeps
    | with_reducible apply keeps_ite | split

theorem State.collContrib_keeps {s0 : State} {M : Nat} (hM : 818708437622321159 ||| M = M) {s : State} (hk : s0.Keeps M s) (t :
    Nat) :
    s0.Keeps M (State.collContrib s t) := by
  unfold State.collContrib
  repeat' first
    | with_reducible assumption | exact mask_sub hM (by decide) | with_reducible apply State.enqueue_keeps
    | with_reducible apply State.modTask_keeps | with_reducible apply keeps_ite | split

theorem State.ringFault_keeps {s0 : State} {M : Nat} (hM : 800694037971988487 ||| M = M) {s : State} (hk : s0.Keeps M s) (p : Nat)
    (t0 : Nat) (rank : Nat) (step : Nat) :
    s0.Keeps M (State.ringFault s p t0 rank step) := by
  unfold State.ringFault
  repeat' first
    | with_reducible assumption | exact mask_sub hM (by decide) | with_reducible exact Rg.CCH_WDOG_DEV_in _
    | with_reducible exact Rg.CCH_WDOG_RANK_in _ | with_reducible exact Rg.CCH_WDOG_STEP_in _
    | with_reducible exact Rg.CCH_WDOG_FIRED_in _ | with_reducible apply State.wdogFault_keeps
    | with_reducible apply State.freeNext_keeps | with_reducible apply State.passTo_keeps | with_reducible apply State.raise_keeps
    | with_reducible apply State.setF_keeps

theorem State.ringWdog_keeps {s0 : State} {M : Nat} (hM : 800694037971988487 ||| M = M) {s : State} (hk : s0.Keeps M s) (t : Nat) :
    s0.Keeps M (State.ringWdog s t) := by
  unfold State.ringWdog
  repeat' first
    | with_reducible assumption | exact mask_sub hM (by decide) | with_reducible apply State.ringFault_keeps
    | with_reducible apply keeps_ite | split

theorem State.modExp_keeps {s0 : State} {M : Nat} (hM : 536870912 ||| M = M) {s : State} (hk : s0.Keeps M s) (x : Nat) (f : Export
    → Export) :
    s0.Keeps M (State.modExp s x f) := by
  unfold State.modExp
  repeat' first
    | with_reducible assumption | exact mask_sub hM (by decide) | simp only [keeps_coach (mask_sub hM (by decide))] | split

theorem State.exportPage_keeps {s0 : State} {M : Nat} (hM : 800694037971988487 ||| M = M) {s : State} (hk : s0.Keeps M s) (x :
    Nat) (e : Export) (sl : Nat × Nat × Nat × Nat) (rest : List (Nat × Nat × Nat × Nat)) :
    s0.Keeps M (State.exportPage s x e sl rest) := by
  unfold State.exportPage
  repeat' first
    | with_reducible assumption | exact mask_sub hM (by decide) | with_reducible apply State.modExp_keeps
    | with_reducible apply State.exportForm_keeps | with_reducible apply State.jobFault_keeps
    | with_reducible apply State.flowSend_keeps | with_reducible apply State.putPage_keeps
    | with_reducible refine keeps_foldl _ ?_ (fun u x hu => ?_)
    | with_reducible refine keeps_of_snd (by with_reducible assumption) ?_ | split | dsimp only

theorem State.exportEnd_keeps {s0 : State} {M : Nat} (hM : 1125900443713536 ||| M = M) {s : State} (hk : s0.Keeps M s) (x : Nat)
    (e : Export) (status : Nat) :
    s0.Keeps M (State.exportEnd s x e status) := by
  unfold State.exportEnd
  repeat' first
    | with_reducible assumption | exact mask_sub hM (by decide) | with_reducible apply State.modExp_keeps
    | with_reducible apply State.sendEnd_keeps | with_reducible refine keeps_foldl _ ?_ (fun u x hu => ?_)

theorem State.exportDone_keeps {s0 : State} {M : Nat} (hM : 227577535730016263 ||| M = M) {s : State} (hk : s0.Keeps M s) (x :
    Nat) (e : Export) :
    s0.Keeps M (State.exportDone s x e) := by
  unfold State.exportDone
  repeat' first
    | with_reducible assumption | exact mask_sub hM (by decide) | with_reducible apply State.retire_keeps
    | with_reducible apply State.modEnt_keeps | with_reducible apply State.modTx_keeps
    | with_reducible refine keeps_foldl _ ?_ (fun u x hu => ?_) | simp only [keeps_coach (mask_sub hM (by decide))]

theorem State.exportRun_keeps {s0 : State} {M : Nat} (hM : 809705635273764871 ||| M = M) (x : Nat) (n : Nat) {s : State} (hk :
    s0.Keeps M s) :
    s0.Keeps M (State.exportRun x n s) := by
  induction n generalizing s with
  | zero => exact hk
  | succ n ih =>
    rw [State.exportRun]
    repeat' first
      | with_reducible assumption | with_reducible apply ih | with_reducible assumption | exact mask_sub hM (by decide)
      | with_reducible apply State.exportDone_keeps | with_reducible apply State.exportEnd_keeps
      | with_reducible apply State.exportPage_keeps | with_reducible apply State.modExp_keeps | with_reducible apply keeps_ite
      | split

theorem State.exportPump_keeps {s0 : State} {M : Nat} (hM : 809705635273764871 ||| M = M) {s : State} (hk : s0.Keeps M s) (x :
    Nat) :
    s0.Keeps M (State.exportPump s x) := by
  unfold State.exportPump
  repeat' first
    | with_reducible assumption | exact mask_sub hM (by decide) | with_reducible apply State.exportRun_keeps | split

theorem State.exportBegin_keeps {s0 : State} {M : Nat} (hM : 809705635273764871 ||| M = M) {s : State} (hk : s0.Keeps M s) (x :
    Nat) (i : Nat) :
    s0.Keeps M (State.exportBegin s x i) := by
  unfold State.exportBegin
  repeat' first
    | with_reducible assumption | exact mask_sub hM (by decide) | with_reducible apply State.exportPump_keeps
    | with_reducible apply State.flowSend_keeps | split

theorem State.exportAcked_keeps {s0 : State} {M : Nat} (hM : 809705635273764871 ||| M = M) {s : State} (hk : s0.Keeps M s) (x :
    Nat) (i : Nat) (ack : Nat) :
    s0.Keeps M (State.exportAcked s x i ack) := by
  unfold State.exportAcked
  repeat' first
    | with_reducible assumption | exact mask_sub hM (by decide) | with_reducible exact Rg.CCH_EXPORT_PAGES_in
    | with_reducible apply State.exportPump_keeps | with_reducible apply State.modExp_keeps
    | with_reducible apply State.expEnd_keeps | with_reducible apply State.bump_keeps
    | with_reducible refine keeps_foldl _ ?_ (fun u x hu => ?_) | with_reducible apply keeps_ite | split

theorem State.exportFlows_keeps {s0 : State} {M : Nat} (hM : 800694037971988487 ||| M = M) (x : Nat) (n : Nat) {s : State} (hk :
    s0.Keeps M s) :
    s0.Keeps M (State.exportFlows x n s) := by
  induction n generalizing s with
  | zero => exact hk
  | succ n ih =>
    rw [State.exportFlows]
    repeat' first
      | with_reducible assumption | with_reducible apply ih | with_reducible assumption | exact mask_sub hM (by decide)
      | with_reducible apply State.modExp_keeps | with_reducible apply State.waitOpen_keeps
      | with_reducible apply State.pathLoss_keeps | with_reducible apply State.openFlow_keeps
      | with_reducible refine keeps_of_snd (by with_reducible assumption) ?_ | with_reducible apply keeps_ite | split | dsimp only

theorem State.exportSlots_keeps {s0 : State} {M : Nat} (hM : 218565319415947264 ||| M = M) {s : State} (hk : s0.Keeps M s) (p :
    Nat) (list : Nat) :
    s0.Keeps M (State.exportSlots s p list).st := by
  unfold State.exportSlots
  repeat' first
    | with_reducible assumption | exact mask_sub hM (by decide) | with_reducible apply State.layerPages_keeps
    | with_reducible apply State.listHdr_keeps | with_reducible refine keeps_foldl_list _ ?_ (fun u x hu => ?_)
    | with_reducible refine keeps_of_snd (by with_reducible assumption) ?_ | split

theorem State.exportStart_keeps {s0 : State} {M : Nat} (hM : 809705635273764871 ||| M = M) {s : State} (hk : s0.Keeps M s) (e :
    Nat) :
    s0.Keeps M (State.exportStart s e) := by
  unfold State.exportStart
  repeat' first
    | with_reducible assumption | exact mask_sub hM (by decide) | with_reducible apply State.exportSlots_keeps
    | with_reducible apply State.exportFlows_keeps | with_reducible apply State.exportPump_keeps
    | with_reducible apply State.retire_keeps | with_reducible apply State.jobFault_keeps
    | with_reducible refine keeps_foldl _ ?_ (fun u x hu => ?_) | simp only [keeps_coach (mask_sub hM (by decide))]
    | with_reducible apply keeps_ite

end Sys2Proof.Machine
end

