-- ==== Sys2Proof/Laws/KeepsCoachCmds.lean ====
section
/-!
SUPPORT. The operations of Machine/CoachCmds.lean keep the relation of Laws/Keeps.lean.
-/
namespace Sys2Proof.Machine

theorem State.frameIn_keeps {s0 : State} {M : Nat} (hM : 1125899906842624 ||| M = M) {s : State} (hk : s0.Keeps M s) (n : Nat) (w
    : WireFrame) :
    s0.Keeps M (State.frameIn s n w).2 := by
  unfold State.frameIn
  repeat' first
    | with_reducible assumption | exact mask_sub hM (by decide) | with_reducible exact Rg.CCH_PORT_DROP_OTHER_DROP_in _
    | with_reducible exact Rg.CCH_PORT_DROP_ADDR_DROP_in _ | with_reducible exact Rg.CCH_PORT_DROP_CRC_DROP_in _
    | with_reducible apply State.bump_keeps | split | dsimp only

theorem State.rxCount_keeps {s0 : State} {M : Nat} (hM : 1125899906842624 ||| M = M) {s : State} (hk : s0.Keeps M s) (n : Nat) :
    s0.Keeps M (State.rxCount s n) := by
  unfold State.rxCount
  repeat' first
    | with_reducible assumption | exact mask_sub hM (by decide) | with_reducible exact Rg.CCH_PORT_FRAMES_RX_in _
    | with_reducible apply State.bump_keeps

theorem State.tagDrop_keeps {s0 : State} {M : Nat} (hM : 1125899906842624 ||| M = M) {s : State} (hk : s0.Keeps M s) (n : Nat) :
    s0.Keeps M (State.tagDrop s n) := by
  unfold State.tagDrop
  repeat' first
    | with_reducible assumption | exact mask_sub hM (by decide) | with_reducible exact Rg.CCH_PORT_DROP_TAG_DROP_in _
    | with_reducible apply State.bump_keeps

theorem State.modRx_keeps {s0 : State} {M : Nat} (hM : 536870912 ||| M = M) {s : State} (hk : s0.Keeps M s) (i : Nat) (f : RxFlow
    → RxFlow) :
    s0.Keeps M (State.modRx s i f) := by
  unfold State.modRx
  repeat' first
    | with_reducible assumption | exact mask_sub hM (by decide) | with_reducible apply State.setRx_keeps | split

theorem State.ackAdvance_keeps {s0 : State} {M : Nat} (hM : 537919488 ||| M = M) (i : Nat) (n : Nat) {s : State} (hk : s0.Keeps M
    s) :
    s0.Keeps M (State.ackAdvance i n s) := by
  induction n generalizing s with
  | zero => exact hk
  | succ n ih =>
    rw [State.ackAdvance]
    repeat' first
      | with_reducible assumption | with_reducible apply ih | with_reducible assumption | exact mask_sub hM (by decide)
      | with_reducible apply State.triggerUp_keeps | with_reducible apply State.setRx_keeps | split

theorem State.dataAccept_keeps {s0 : State} {M : Nat} (hM : 75576031784853510 ||| M = M) {s : State} (hk : s0.Keeps M s) (n : Nat)
    (i : Nat) (f : Frame) :
    s0.Keeps M (State.dataAccept s n i f) := by
  unfold State.dataAccept
  repeat' first
    | with_reducible assumption | exact mask_sub hM (by decide) | with_reducible apply State.ackAdvance_keeps
    | with_reducible apply State.modRx_keeps | with_reducible apply State.tagDrop_keeps | with_reducible apply State.rxCount_keeps
    | with_reducible apply State.sendAck_keeps | with_reducible apply State.devWrite_keeps
    | with_reducible apply State.isolation_keeps | with_reducible apply keeps_ite | split | dsimp only

theorem State.dataIn_keeps {s0 : State} {M : Nat} (hM : 75576031784853510 ||| M = M) {s : State} (hk : s0.Keeps M s) (n : Nat) (f
    : Frame) :
    s0.Keeps M (State.dataIn s n f) := by
  unfold State.dataIn
  repeat' first
    | with_reducible assumption | exact mask_sub hM (by decide) | with_reducible exact Rg.CCH_FLOWS_REFUSED_in
    | with_reducible exact Rg.CCH_PORT_RETX_CREDIT_DROP_in _ | with_reducible apply State.dataAccept_keeps
    | with_reducible apply State.modRx_keeps | with_reducible apply State.tagDrop_keeps | with_reducible apply State.sendAck_keeps
    | with_reducible apply State.queueCtrl_keeps | with_reducible apply State.isolation_keeps
    | with_reducible apply State.bump_keeps | with_reducible apply keeps_ite | split

theorem State.onFrame_keeps {s0 : State} {M : Nat} (hM : 1125899906842624 ||| M = M) {s : State} (hk : s0.Keeps M s) (n : Nat) (w
    : WireFrame) (is : Frame → Bool) {act : State → Frame → State} (hact : ∀ u x0, s0.Keeps M u → s0.Keeps M (act u x0)) :
    s0.Keeps M (State.onFrame s n w is act) := by
  unfold State.onFrame
  repeat' first
    | with_reducible assumption | exact mask_sub hM (by decide) | with_reducible apply hact
    | with_reducible apply State.frameIn_keeps | with_reducible refine keeps_of_snd (by with_reducible assumption) ?_
    | with_reducible apply keeps_ite | split

theorem State.resend_keeps {s0 : State} {M : Nat} (hM : 1125900443713536 ||| M = M) {s : State} (hk : s0.Keeps M s) (i : Nat) (u :
    TxFrame) :
    s0.Keeps M (State.resend s i u) := by
  unfold State.resend
  repeat' first
    | with_reducible assumption | exact mask_sub hM (by decide) | with_reducible exact Rg.CCH_PORT_RETX_RETX_in _
    | with_reducible apply State.queueData_keeps | with_reducible apply State.bump_keeps | split

theorem State.ackIn_keeps {s0 : State} {M : Nat} (hM : 809705635273764871 ||| M = M) {s : State} (hk : s0.Keeps M s) (n : Nat) (i
    : Nat) (f : TxFlow) (p : Bytes) :
    s0.Keeps M (State.ackIn s n i f p) := by
  unfold State.ackIn
  repeat' first
    | with_reducible assumption | exact mask_sub hM (by decide) | with_reducible apply State.resend_keeps
    | with_reducible apply State.rxCount_keeps | with_reducible apply State.exportAcked_keeps
    | with_reducible apply State.pumpFlow_keeps | with_reducible apply State.setTx_keeps
    | with_reducible apply State.modTask_keeps | with_reducible refine keeps_foldl _ ?_ (fun u x hu => ?_)
    | with_reducible apply keeps_ite | split

theorem State.helloRefuse_keeps {s0 : State} {M : Nat} (hM : 800694037971988487 ||| M = M) {s : State} (hk : s0.Keeps M s) (n :
    Nat) (f : Frame) (reason : Nat) :
    s0.Keeps M (State.helloRefuse s n f reason) := by
  unfold State.helloRefuse
  repeat' first
    | with_reducible assumption | exact mask_sub hM (by decide) | with_reducible exact Rg.CCH_FLOWS_REFUSED_in
    | with_reducible apply State.tagDrop_keeps | with_reducible apply State.jobFault_keeps
    | with_reducible apply State.queueCtrl_keeps | with_reducible apply State.bump_keeps | with_reducible apply keeps_ite

theorem State.helloAccept_keeps {s0 : State} {M : Nat} (hM : 800694037971988487 ||| M = M) {s : State} (hk : s0.Keeps M s) (n :
    Nat) (f : Frame) :
    s0.Keeps M (State.helloAccept s n f) := by
  unfold State.helloAccept
  repeat' first
    | with_reducible assumption | exact mask_sub hM (by decide) | with_reducible apply State.helloRefuse_keeps
    | with_reducible apply State.rxCount_keeps
    | with_reducible refine State.roomForFlow_keeps ?_ ?_ (by with_reducible assumption) | with_reducible apply State.setRx_keeps
    | with_reducible apply State.queueCtrl_keeps | split

theorem State.dropTx_keeps {s0 : State} {M : Nat} (hM : 536870912 ||| M = M) {s : State} (hk : s0.Keeps M s) (i : Nat) :
    s0.Keeps M (State.dropTx s i) := by
  unfold State.dropTx
  repeat' first
    | with_reducible assumption | exact mask_sub hM (by decide) | with_reducible apply State.setTx_keeps
    | simp only [keeps_coach (mask_sub hM (by decide))]

theorem State.flowLoss_keeps {s0 : State} {M : Nat} (hM : 800694037971988487 ||| M = M) {s : State} (hk : s0.Keeps M s) (i : Nat) :
    s0.Keeps M (State.flowLoss s i) := by
  unfold State.flowLoss
  repeat' first
    | with_reducible assumption | exact mask_sub hM (by decide) | with_reducible apply State.dropTx_keeps
    | with_reducible apply State.pathLoss_keeps | split

theorem State.helloIn_keeps {s0 : State} {M : Nat} (hM : 809705635273764871 ||| M = M) {s : State} (hk : s0.Keeps M s) (n : Nat)
    (i : Nat) (f : TxFlow) (p : Bytes) :
    s0.Keeps M (State.helloIn s n i f p) := by
  unfold State.helloIn
  repeat' first
    | with_reducible assumption | exact mask_sub hM (by decide) | with_reducible exact Rg.CCH_FLOWS_REFUSED_in
    | with_reducible apply State.flowLoss_keeps | with_reducible apply State.dropTx_keeps
    | with_reducible apply State.rxCount_keeps | with_reducible apply State.exportBegin_keeps
    | with_reducible apply State.jobFault_keeps | with_reducible apply State.pumpFlow_keeps
    | with_reducible apply State.setTx_keeps | with_reducible apply State.bump_keeps | with_reducible apply keeps_ite | split

theorem State.abortIn_keeps {s0 : State} {M : Nat} (hM : 800694037971988487 ||| M = M) {s : State} (hk : s0.Keeps M s) (n : Nat)
    (f : Frame) :
    s0.Keeps M (State.abortIn s n f) := by
  unfold State.abortIn
  repeat' first
    | with_reducible assumption | exact mask_sub hM (by decide) | with_reducible exact Rg.CCH_ABORT_DUPLICATE_in
    | with_reducible exact Rg.CCH_ABORT_ACCEPTED_in | with_reducible apply State.tagDrop_keeps
    | with_reducible apply State.rxCount_keeps | with_reducible apply State.jobFaultWith_keeps
    | with_reducible apply State.noteSeen_keeps | with_reducible apply State.bump_keeps | with_reducible apply keeps_ite

theorem State.abortAgain_keeps {s0 : State} {M : Nat} (hM : 17716744192 ||| M = M) {s : State} (hk : s0.Keeps M s) :
    s0.Keeps M (State.abortAgain s) := by
  unfold State.abortAgain
  repeat' first
    | with_reducible assumption | exact mask_sub hM (by decide) | with_reducible apply State.queueAbort_keeps
    | with_reducible apply State.passTo_keeps | simp only [keeps_coach (mask_sub hM (by decide))] | split

theorem State.wireOut_keeps {s0 : State} {M : Nat} (hM : 1125900443713536 ||| M = M) {s : State} (hk : s0.Keeps M s) (n : Nat) (f
    : Frame) :
    s0.Keeps M (State.wireOut s n f) := by
  unfold State.wireOut
  repeat' first
    | with_reducible assumption | exact mask_sub hM (by decide) | with_reducible exact Rg.CCH_PORT_FRAMES_TX_in _
    | with_reducible apply State.modPort_keeps | with_reducible apply State.bump_keeps

theorem State.transmit_keeps {s0 : State} {M : Nat} (hM : 1125900443713536 ||| M = M) {s : State} (hk : s0.Keeps M s) (n : Nat) :
    s0.Keeps M (State.transmit s n) := by
  unfold State.transmit
  repeat' first
    | with_reducible assumption | exact mask_sub hM (by decide) | with_reducible exact Rg.CCH_ABORT_SENT_in
    | with_reducible apply State.wireOut_keeps | with_reducible apply State.modPort_keeps | with_reducible apply State.bump_keeps
    | with_reducible apply keeps_ite | split | dsimp only

theorem State.moveFlow_keeps {s0 : State} {M : Nat} (hM : 1125900443713536 ||| M = M) {s : State} (hk : s0.Keeps M s) (i : Nat) (m
    : Nat) :
    s0.Keeps M (State.moveFlow s i m) := by
  unfold State.moveFlow
  repeat' first
    | with_reducible assumption | exact mask_sub hM (by decide) | with_reducible apply State.resend_keeps
    | with_reducible apply State.modTx_keeps | with_reducible apply State.setTx_keeps | with_reducible apply State.queueCtrl_keeps
    | with_reducible apply State.modPort_keeps | with_reducible refine keeps_foldl _ ?_ (fun u x hu => ?_)
    | with_reducible apply keeps_ite | split

theorem State.flowPortFailed_keeps {s0 : State} {M : Nat} (hM : 800694037971988487 ||| M = M) {s : State} (hk : s0.Keeps M s) (i :
    Nat) :
    s0.Keeps M (State.flowPortFailed s i) := by
  unfold State.flowPortFailed
  repeat' first
    | with_reducible assumption | exact mask_sub hM (by decide) | with_reducible apply State.moveFlow_keeps
    | with_reducible apply State.flowLoss_keeps | with_reducible apply State.modTx_keeps | with_reducible apply keeps_ite | split

theorem State.rtoFire_keeps {s0 : State} {M : Nat} (hM : 800694037971988487 ||| M = M) {s : State} (hk : s0.Keeps M s) (i : Nat)
    (psn : Nat) :
    s0.Keeps M (State.rtoFire s i psn) := by
  unfold State.rtoFire
  repeat' first
    | with_reducible assumption | exact mask_sub hM (by decide) | with_reducible exact Rg.CCH_PORT_RETX_RTO_in _
    | with_reducible apply State.flowPortFailed_keeps | with_reducible apply State.resend_keeps
    | with_reducible apply State.modTx_keeps | with_reducible apply State.passTo_keeps | with_reducible apply State.bump_keeps
    | with_reducible apply keeps_ite | split

theorem State.helloFire_keeps {s0 : State} {M : Nat} (hM : 800694037971988487 ||| M = M) {s : State} (hk : s0.Keeps M s) (i : Nat) :
    s0.Keeps M (State.helloFire s i) := by
  unfold State.helloFire
  repeat' first
    | with_reducible assumption | exact mask_sub hM (by decide) | with_reducible apply State.flowLoss_keeps
    | with_reducible apply State.setTx_keeps | with_reducible apply State.queueCtrl_keeps
    | with_reducible apply State.passTo_keeps | with_reducible apply keeps_ite | split

theorem State.ackDelay_keeps {s0 : State} {M : Nat} (hM : 17716744192 ||| M = M) {s : State} (hk : s0.Keeps M s) (i : Nat) :
    s0.Keeps M (State.ackDelay s i) := by
  unfold State.ackDelay
  repeat' first
    | with_reducible assumption | exact mask_sub hM (by decide) | with_reducible apply State.sendAck_keeps
    | with_reducible apply State.passTo_keeps | split

theorem State.flowIdle_keeps {s0 : State} {M : Nat} (hM : 1125917623586816 ||| M = M) {s : State} (hk : s0.Keeps M s) (rx : Bool)
    (i : Nat) :
    s0.Keeps M (State.flowIdle s rx i) := by
  unfold State.flowIdle
  repeat' first
    | with_reducible assumption | exact mask_sub hM (by decide) | with_reducible exact Rg.CCH_FLOWS_AGED_in
    | with_reducible apply State.dropTx_keeps | with_reducible apply State.setRx_keeps | with_reducible apply State.passTo_keeps
    | with_reducible apply State.bump_keeps | with_reducible apply keeps_ite | split

theorem State.openResume_keeps {s0 : State} {M : Nat} (hM : 800694037971988487 ||| M = M) {s : State} (hk : s0.Keeps M s) :
    s0.Keeps M (State.openResume s) := by
  unfold State.openResume
  repeat' first
    | with_reducible assumption | exact mask_sub hM (by decide) | with_reducible apply State.exportFlows_keeps
    | with_reducible apply State.collective_keeps | with_reducible apply State.xferShard_keeps
    | with_reducible apply State.xferWrite_keeps | simp only [keeps_coach (mask_sub hM (by decide))]
    | with_reducible apply keeps_ite | split

theorem State.setPort_keeps {s0 : State} {M : Nat} (hM : 1125899906842624 ||| M = M) {s : State} (hk : s0.Keeps M s) (n : Nat) (st
    : Nat) :
    s0.Keeps M (State.setPort s n st) := by
  unfold State.setPort
  repeat' first
    | with_reducible assumption | exact mask_sub hM (by decide) | with_reducible exact Rg.CCH_PORT_STATUS_STATE_in _
    | with_reducible apply State.setF_keeps

theorem State.portDetect_keeps {s0 : State} {M : Nat} (hM : 1125899906842624 ||| M = M) {s : State} (hk : s0.Keeps M s) (n : Nat)
    (media : Nat) :
    s0.Keeps M (State.portDetect s n media) := by
  unfold State.portDetect
  repeat' first
    | with_reducible assumption | exact mask_sub hM (by decide) | with_reducible exact Rg.CCH_PORT_STATUS_MEDIA_in _
    | with_reducible apply State.setPort_keeps | with_reducible apply State.setF_keeps | with_reducible apply keeps_ite

theorem State.portTrained_keeps {s0 : State} {M : Nat} (hM : 73183493944770560 ||| M = M) {s : State} (hk : s0.Keeps M s) (n :
    Nat) :
    s0.Keeps M (State.portTrained s n) := by
  unfold State.portTrained
  repeat' first
    | with_reducible assumption | exact mask_sub hM (by decide) | with_reducible exact Rg.CCH_PORT_STATUS_TRAIN_FAILS_in _
    | with_reducible exact Rg.CCH_PORT_FEC_CORRECTED_in _ | with_reducible exact Rg.CCH_PORT_FEC_UNCORRECTED_in _
    | (with_reducible exact List.forall_mem_nil _) | (with_reducible refine List.forall_mem_cons.2 ⟨?_, ?_⟩)
    | with_reducible refine State.cycles_keeps (c := .cch) ?_ ?_ ?_ | with_reducible apply State.setPort_keeps
    | with_reducible apply State.setF_keeps | with_reducible apply keeps_ite

theorem State.portTrainFail_keeps {s0 : State} {M : Nat} (hM : 1125900443713536 ||| M = M) {s : State} (hk : s0.Keeps M s) (n :
    Nat) :
    s0.Keeps M (State.portTrainFail s n) := by
  unfold State.portTrainFail
  repeat' first
    | with_reducible assumption | exact mask_sub hM (by decide) | with_reducible exact Rg.CCH_PORT_STATUS_TRAIN_FAILS_in _
    | with_reducible apply State.setPort_keeps | with_reducible apply State.modPort_keeps | with_reducible apply State.bump_keeps
    | with_reducible apply keeps_ite

theorem State.portLeft_keeps {s0 : State} {M : Nat} (hM : 800694037971988487 ||| M = M) {s : State} (hk : s0.Keeps M s) (n : Nat) :
    s0.Keeps M (State.portLeft s n) := by
  unfold State.portLeft
  repeat' first
    | with_reducible assumption | exact mask_sub hM (by decide) | with_reducible exact Rg.CCH_PORT_EVENTS_DOWNS_in _
    | with_reducible exact Rg.CCH_PORT_EVENTS_FAILOVERS_OUT_in _ | with_reducible exact Rg.CCH_PORT_EVENTS_FAILOVERS_IN_in _
    | with_reducible apply State.moveFlow_keeps | with_reducible apply State.flowLoss_keeps
    | with_reducible apply State.bump_keeps | with_reducible refine keeps_foldl _ ?_ (fun u x hu => ?_) | split

theorem State.portCtrl_keeps {s0 : State} {M : Nat} (hM : 800694037971988487 ||| M = M) {s : State} (hk : s0.Keeps M s) (n : Nat)
    (v : W64) :
    s0.Keeps M (State.portCtrl s n v) := by
  unfold State.portCtrl
  repeat' first
    | with_reducible assumption | exact mask_sub hM (by decide) | with_reducible exact Rg.CCH_PORT_CTRL_ENABLE_in _
    | with_reducible exact Rg.CCH_PORT_CTRL_VLAN_in _ | with_reducible exact Rg.CCH_PORT_CTRL_PCP_in _
    | with_reducible exact Rg.CCH_PORT_CTRL_VID_in _ | with_reducible apply State.portLeft_keeps
    | with_reducible apply State.setPort_keeps | with_reducible apply State.setF_keeps | with_reducible apply keeps_ite

theorem State.portDown_keeps {s0 : State} {M : Nat} (hM : 800694037971988487 ||| M = M) {s : State} (hk : s0.Keeps M s) (n : Nat) :
    s0.Keeps M (State.portDown s n) := by
  unfold State.portDown
  repeat' first
    | with_reducible assumption | exact mask_sub hM (by decide) | with_reducible exact Rg.CCH_PORT_CTRL_ENABLE_in _
    | with_reducible apply State.portLeft_keeps | with_reducible apply State.setPort_keeps | with_reducible apply State.setF_keeps
    | with_reducible apply keeps_ite

end Sys2Proof.Machine
end

