-- ==== Sys2Proof/Laws/KeepsLarric.lean ====
section
/-!
SUPPORT. The operations of Machine/Larric.lean keep the relation of Laws/Keeps.lean.
-/
namespace Sys2Proof.Machine

theorem State.modLrl_keeps {s0 : State} {M : Nat} (hM : 65536 ||| M = M) {s : State} (hk : s0.Keeps M s) (f : LarricSt → LarricSt) :
    s0.Keeps M (State.modLrl s f) := by
  unfold State.modLrl
  repeat' first
    | with_reducible assumption | exact mask_sub hM (by decide) | simp only [keeps_larric (mask_sub hM (by decide))]

theorem State.setLrl_keeps {s0 : State} {M : Nat} (hM : 562949953421312 ||| M = M) {s : State} (hk : s0.Keeps M s) (st : Nat) :
    s0.Keeps M (State.setLrl s st) := by
  unfold State.setLrl
  repeat' first
    | with_reducible assumption | exact mask_sub hM (by decide) | with_reducible exact Rg.LRL_STATUS_STATE_in
    | with_reducible apply State.setF_keeps

theorem State.innkeeperReadFails_keeps {s0 : State} {M : Nat} (hM : 576566305419689984 ||| M = M) {s : State} (hk : s0.Keeps M s)
    (a : Nat) :
    s0.Keeps M (State.innkeeperReadFails s a) := by
  unfold State.innkeeperReadFails
  repeat' first
    | with_reducible assumption | exact mask_sub hM (by decide) | with_reducible exact Rg.IMG_STATUS_LAST_RESULT_in
    | with_reducible exact Rg.SEC_RESULT_RESULT_in | with_reducible exact Rg.FLT_REPAIR_RESULT_RESULT_in
    | with_reducible apply State.setF_keeps | with_reducible apply keeps_ite

theorem State.linkLoss_keeps {s0 : State} {M : Nat} (hM : 801327356669587463 ||| M = M) {s : State} (hk : s0.Keeps M s) :
    s0.Keeps M (State.linkLoss s) := by
  unfold State.linkLoss
  repeat' first
    | with_reducible assumption | exact mask_sub hM (by decide) | with_reducible exact Rg.LRL_STATUS_WIDTH_in
    | with_reducible exact Rg.LRL_EVENTS_DOWNS_in | with_reducible apply State.setLrl_keeps
    | with_reducible apply State.innkeeperReadFails_keeps
    | with_reducible apply State.modLrl_keeps | with_reducible apply State.jobFault_keeps
    | with_reducible apply State.fltAdd_keeps | with_reducible apply State.bump_keeps | with_reducible apply State.setF_keeps
    | with_reducible refine keeps_foldl _ ?_ (fun u x hu => ?_) | with_reducible apply keeps_ite

theorem State.trainFailed_keeps {s0 : State} {M : Nat} (hM : 562949953486848 ||| M = M) {s : State} (hk : s0.Keeps M s) :
    s0.Keeps M (State.trainFailed s) := by
  unfold State.trainFailed
  repeat' first
    | with_reducible assumption | exact mask_sub hM (by decide) | with_reducible exact Rg.LRL_STATUS_TRAIN_FAILS_in
    | with_reducible apply State.setLrl_keeps | with_reducible apply State.modLrl_keeps | with_reducible apply State.bump_keeps

theorem State.linkDetect_keeps {s0 : State} {M : Nat} (hM : 562967133360128 ||| M = M) {s : State} (hk : s0.Keeps M s) :
    s0.Keeps M (State.linkDetect s) := by
  unfold State.linkDetect
  repeat' first
    | with_reducible assumption | exact mask_sub hM (by decide) | with_reducible apply State.setLrl_keeps
    | with_reducible apply State.modLrl_keeps | with_reducible apply State.passTo_keeps | with_reducible apply keeps_ite | split

theorem State.lanesLock_keeps {s0 : State} {M : Nat} (hM : 562949953486848 ||| M = M) {s : State} (hk : s0.Keeps M s) (lanes :
    Nat) :
    s0.Keeps M (State.lanesLock s lanes) := by
  unfold State.lanesLock
  repeat' first
    | with_reducible assumption | exact mask_sub hM (by decide) | with_reducible exact Rg.LRL_STATUS_WIDTH_in
    | with_reducible exact Rg.LRL_STATUS_LANES_FAILED_in | with_reducible apply State.trainFailed_keeps
    | with_reducible apply State.setLrl_keeps | with_reducible apply State.setF_keeps | with_reducible apply keeps_ite | split

theorem State.configDone_keeps {s0 : State} {M : Nat} (hM : 562949953486848 ||| M = M) {s : State} (hk : s0.Keeps M s) (credits :
    List Nat) :
    s0.Keeps M (State.configDone s credits) := by
  unfold State.configDone
  repeat' first
    | with_reducible assumption | exact mask_sub hM (by decide) | with_reducible apply State.setLrl_keeps
    | with_reducible apply State.modLrl_keeps | with_reducible apply keeps_ite

theorem State.relock_keeps {s0 : State} {M : Nat} (hM : 801327356669587463 ||| M = M) {s : State} (hk : s0.Keeps M s) (lanes :
    Nat) :
    s0.Keeps M (State.relock s lanes) := by
  unfold State.relock
  repeat' first
    | with_reducible assumption | exact mask_sub hM (by decide) | with_reducible exact Rg.LRL_STATUS_WIDTH_in
    | with_reducible exact Rg.LRL_STATUS_LANES_FAILED_in | with_reducible apply State.linkLoss_keeps
    | with_reducible apply State.setLrl_keeps | with_reducible apply State.modLrl_keeps | with_reducible apply State.setF_keeps
    | with_reducible apply keeps_ite | split

theorem State.replayAll_keeps {s0 : State} {M : Nat} (hM : 562949953486848 ||| M = M) {s : State} (hk : s0.Keeps M s) :
    s0.Keeps M (State.replayAll s) := by
  unfold State.replayAll
  repeat' first
    | with_reducible assumption | exact mask_sub hM (by decide) | with_reducible exact Rg.LRL_ERR_REPLAYS_in
    | with_reducible exact Rg.LRL_ERR_RETRAINS_in | with_reducible apply State.setLrl_keeps
    | with_reducible apply State.modLrl_keeps | with_reducible apply State.bump_keeps | with_reducible apply keeps_ite

theorem State.nak_keeps {s0 : State} {M : Nat} (hM : 65536 ||| M = M) {s : State} (hk : s0.Keeps M s) :
    s0.Keeps M (State.nak s) := by
  unfold State.nak
  repeat' first
    | with_reducible assumption | exact mask_sub hM (by decide) | with_reducible apply State.modLrl_keeps
    | with_reducible apply keeps_ite

theorem State.takeAck_keeps {s0 : State} {M : Nat} (hM : 65536 ||| M = M) {s : State} (hk : s0.Keeps M s) (ack : Nat) :
    s0.Keeps M (State.takeAck s ack) := by
  unfold State.takeAck
  repeat' first
    | with_reducible assumption | exact mask_sub hM (by decide) | with_reducible apply State.modLrl_keeps
    | with_reducible apply keeps_ite | split

theorem State.msgIn_keeps {s0 : State} {M : Nat} (hM : 562949953486848 ||| M = M) {s : State} (hk : s0.Keeps M s) (vc : Nat) (b :
    Bytes) :
    s0.Keeps M (State.msgIn s vc b) := by
  unfold State.msgIn
  repeat' first
    | with_reducible assumption | exact mask_sub hM (by decide) | with_reducible exact Rg.LRL_EVENTS_ACCESS_ERR_in
    | with_reducible apply State.modLrl_keeps | with_reducible apply State.bump_keeps | with_reducible apply keeps_ite

theorem State.dataFlit_keeps {s0 : State} {M : Nat} (hM : 562949953486848 ||| M = M) {s : State} (hk : s0.Keeps M s) (b : Bytes) :
    s0.Keeps M (State.dataFlit s b) := by
  unfold State.dataFlit
  repeat' first
    | with_reducible assumption | exact mask_sub hM (by decide) | with_reducible apply State.msgIn_keeps
    | with_reducible apply State.modLrl_keeps | with_reducible apply keeps_ite

theorem State.flitIn_keeps {s0 : State} {M : Nat} (hM : 562949953486848 ||| M = M) {s : State} (hk : s0.Keeps M s) (b : Bytes) :
    s0.Keeps M (State.flitIn s b) := by
  unfold State.flitIn
  repeat' first
    | with_reducible assumption | exact mask_sub hM (by decide) | with_reducible exact Rg.LRL_ERR_CRC_ERR_in
    | with_reducible apply State.dataFlit_keeps | with_reducible apply State.takeAck_keeps | with_reducible apply State.nak_keeps
    | with_reducible apply State.replayAll_keeps | with_reducible apply State.modLrl_keeps | with_reducible apply State.bump_keeps
    | with_reducible apply keeps_ite | split

theorem State.sendFlit_keeps {s0 : State} {M : Nat} (hM : 65536 ||| M = M) {s : State} (hk : s0.Keeps M s) (kind : Nat) (vcf :
    Nat) (seq : Nat) (body : Bytes) :
    s0.Keeps M (State.sendFlit s kind vcf seq body) := by
  unfold State.sendFlit
  repeat' first
    | with_reducible assumption | exact mask_sub hM (by decide) | with_reducible apply State.modLrl_keeps

theorem State.sendNew_keeps {s0 : State} {M : Nat} (hM : 65536 ||| M = M) {s : State} (hk : s0.Keeps M s) (v : Nat) :
    s0.Keeps M (State.sendNew s v) := by
  unfold State.sendNew
  repeat' first
    | with_reducible assumption | exact mask_sub hM (by decide) | with_reducible apply State.sendFlit_keeps
    | with_reducible apply State.modLrl_keeps | split

theorem State.sendControl_keeps {s0 : State} {M : Nat} (hM : 65536 ||| M = M) {s : State} (hk : s0.Keeps M s) :
    s0.Keeps M (State.sendControl s) := by
  unfold State.sendControl
  repeat' first
    | with_reducible assumption | exact mask_sub hM (by decide) | with_reducible apply State.sendFlit_keeps
    | with_reducible apply State.modLrl_keeps | with_reducible apply keeps_ite | split

theorem State.flitOut_keeps {s0 : State} {M : Nat} (hM : 65537 ||| M = M) {s : State} (hk : s0.Keeps M s) :
    s0.Keeps M (State.flitOut s) := by
  unfold State.flitOut
  repeat' first
    | with_reducible assumption | exact mask_sub hM (by decide) | with_reducible apply State.sendControl_keeps
    | with_reducible apply State.sendNew_keeps | with_reducible apply State.sendFlit_keeps
    | with_reducible apply State.modLrl_keeps | with_reducible apply State.freeNext_keeps | with_reducible apply keeps_ite | split

theorem State.takeMsg_keeps {s0 : State} {M : Nat} (hM : 65536 ||| M = M) {s : State} (hk : s0.Keeps M s) (is : Msg → Bool) :
    s0.Keeps M (State.takeMsg s is) := by
  unfold State.takeMsg
  repeat' first
    | with_reducible assumption | exact mask_sub hM (by decide) | with_reducible apply State.modLrl_keeps

theorem State.flushHost_keeps {s0 : State} {M : Nat} (hM : 74450131340025858 ||| M = M) {s : State} (hk : s0.Keeps M s) :
    s0.Keeps M (State.flushHost s) := by
  unfold State.flushHost
  repeat' first
    | with_reducible assumption | exact mask_sub hM (by decide) | with_reducible apply State.ramWrite_keeps
    | with_reducible apply State.modMemCtl_keeps | with_reducible refine keeps_foldl _ ?_ (fun u x hu => ?_)
    | with_reducible apply keeps_ite

theorem State.errCpl_keeps {s0 : State} {M : Nat} (hM : 703687441858560 ||| M = M) {s : State} (hk : s0.Keeps M s) (vc : Nat)
    (mtype : Nat) (tag : Nat) (part : Nat) (status : Nat) (a : Nat) :
    s0.Keeps M (State.errCpl s vc mtype tag part status a) := by
  unfold State.errCpl
  repeat' first
    | with_reducible assumption | exact mask_sub hM (by decide) | with_reducible exact Rg.LRL_EVENTS_ACCESS_ERR_in
    | with_reducible apply State.sendMsg_keeps | with_reducible apply State.fltAdd_keeps | with_reducible apply State.bump_keeps

theorem State.hostMemRd_keeps {s0 : State} {M : Nat} (hM : 801256987925409799 ||| M = M) {s : State} (hk : s0.Keeps M s) (p : Nat)
    (a : Nat) (n : Nat) (tag : Nat) :
    s0.Keeps M (State.hostMemRd s p a n tag) := by
  unfold State.hostMemRd
  repeat' first
    | with_reducible assumption | exact mask_sub hM (by decide) | with_reducible exact Rg.LRL_EVENTS_ACCESS_ERR_in
    | with_reducible apply State.errCpl_keeps | with_reducible apply State.flushHost_keeps
    | with_reducible apply State.takeMsg_keeps | with_reducible apply State.jobFault_keeps
    | with_reducible apply State.ramRead_keeps | with_reducible apply State.sendMsg_keeps
    | with_reducible apply State.isolation_keeps | with_reducible apply State.bump_keeps | with_reducible apply keeps_ite

theorem State.hostMemWr_keeps {s0 : State} {M : Nat} (hM : 75013081293512706 ||| M = M) {s : State} (hk : s0.Keeps M s) (p : Nat)
    (a : Nat) (d : Bytes) :
    s0.Keeps M (State.hostMemWr s p a d) := by
  unfold State.hostMemWr
  repeat' first
    | with_reducible assumption | exact mask_sub hM (by decide) | with_reducible exact Rg.LRL_EVENTS_ACCESS_ERR_in
    | with_reducible apply State.takeMsg_keeps | with_reducible apply State.ramWrite_keeps
    | with_reducible apply State.modMemCtl_keeps | with_reducible apply State.isolation_keeps
    | with_reducible apply State.bump_keeps | with_reducible apply keeps_ite | split

theorem State.readFails_keeps {s0 : State} {M : Nat} (hM : 800764406716166151 ||| M = M) {s : State} (hk : s0.Keeps M s) (o :
    OutRead) :
    s0.Keeps M (State.readFails s o) := by
  unfold State.readFails
  repeat' first
    | with_reducible assumption | exact mask_sub hM (by decide) | with_reducible apply State.innkeeperReadFails_keeps
    | with_reducible apply State.jobFault_keeps | with_reducible apply State.fltAdd_keeps | with_reducible apply keeps_ite

theorem State.memCpl_keeps {s0 : State} {M : Nat} (hM : 801327356669587463 ||| M = M) {s : State} (hk : s0.Keeps M s) (tag : Nat)
    (status : Nat) (d : Bytes) :
    s0.Keeps M (State.memCpl s tag status d) := by
  unfold State.memCpl
  split
  · exact hk
  · have h1 := State.takeMsg_keeps (mask_sub hM (by decide)) hk fun m => m.mtype == 0x12 && m.tag == tag
    dsimp only
    split
    · exact State.bump_keeps Rg.LRL_EVENTS_in (mask_sub hM (by decide)) h1 _
    · split
      · exact keeps_hostMem (mask_sub hM (by decide)) (State.modLrl_keeps (mask_sub hM (by decide)) h1 _) _ fun i => canon_putBytes i _ _
      · exact State.readFails_keeps (mask_sub hM (by decide)) (State.modLrl_keeps (mask_sub hM (by decide)) h1 _) _

theorem State.cplTimeout_keeps {s0 : State} {M : Nat} (hM : 801327356669587463 ||| M = M) {s : State} (hk : s0.Keeps M s) (tag :
    Nat) :
    s0.Keeps M (State.cplTimeout s tag) := by
  unfold State.cplTimeout
  repeat' first
    | with_reducible assumption | exact mask_sub hM (by decide) | with_reducible exact Rg.LRL_EVENTS_CPL_TIMEOUT_in
    | with_reducible apply State.readFails_keeps | with_reducible apply State.modLrl_keeps
    | with_reducible apply State.passTo_keeps | with_reducible apply State.bump_keeps | split

theorem State.sendIntr_keeps {s0 : State} {M : Nat} (hM : 65536 ||| M = M) {s : State} (hk : s0.Keeps M s) (i : Nat) :
    s0.Keeps M (State.sendIntr s i) := by
  unfold State.sendIntr
  repeat' first
    | with_reducible assumption | exact mask_sub hM (by decide) | with_reducible apply State.modLrl_keeps
    | with_reducible apply State.sendMsg_keeps | with_reducible apply keeps_ite

theorem State.irqRearm_keeps {s0 : State} {M : Nat} (hM : 65536 ||| M = M) {s : State} (hk : s0.Keeps M s) (v : W64) :
    s0.Keeps M (State.irqRearm s v) := by
  unfold State.irqRearm
  repeat' first
    | with_reducible assumption | exact mask_sub hM (by decide) | with_reducible apply State.sendIntr_keeps
    | with_reducible apply State.modLrl_keeps | with_reducible refine keeps_foldl _ ?_ (fun u x hu => ?_)

end Sys2Proof.Machine
end

