-- ==== Sys2Proof/Laws/KeepsImage.lean ====
section
/-!
SUPPORT. The operations of Machine/Image.lean keep the relation of Laws/Keeps.lean.
-/
namespace Sys2Proof.Machine

theorem State.setImgSlot_keeps {s0 : State} {M : Nat} (hM : 32 ||| M = M) {s : State} (hk : s0.Keeps M s) (k : Nat) (m : SMap
    Byte) :
    s0.Keeps M (State.setImgSlot s k m) := by
  unfold State.setImgSlot
  repeat' first
    | with_reducible assumption | exact mask_sub hM (by decide) | simp only [keeps_flash (mask_sub hM (by decide))]

theorem imgReason_in (k : Nat) : RegBlock.img.has (imgReason k).addr := by
  unfold imgReason; split <;> exact Rg.IMG_SLOT_REASON_in

theorem State.noteImg_keeps {s0 : State} {M : Nat} (hM : 35184372088832 ||| M = M) {s : State} (hk : s0.Keeps M s) (k : Nat)
    (reason : Nat) :
    s0.Keeps M (State.noteImg s k reason) := by
  unfold State.noteImg
  repeat' first
    | with_reducible assumption | exact mask_sub hM (by decide) | with_reducible exact Rg.IMG_SLOT_SEQ_in _ | exact imgReason_in _
    | with_reducible apply State.setF_keeps | with_reducible apply State.wr_keeps

theorem State.noteTarget_keeps {s0 : State} {M : Nat} (hM : 35184372088832 ||| M = M) {s : State} (hk : s0.Keeps M s) :
    s0.Keeps M (State.noteTarget s) := by
  unfold State.noteTarget
  repeat' first
    | with_reducible assumption | exact mask_sub hM (by decide) | with_reducible exact Rg.IMG_STATUS_TARGET_in
    | with_reducible apply State.setF_keeps

theorem State.imgDone_keeps {s0 : State} {M : Nat} (hM : 35184372088832 ||| M = M) {s : State} (hk : s0.Keeps M s) (r : Nat) :
    s0.Keeps M (State.imgDone s r) := by
  unfold State.imgDone
  repeat' first
    | with_reducible assumption | exact mask_sub hM (by decide) | with_reducible exact Rg.IMG_STATUS_LAST_RESULT_in
    | with_reducible apply State.setF_keeps

theorem State.imgCmd_keeps {s0 : State} {M : Nat} (hM : 35184372088832 ||| M = M) {s : State} (hk : s0.Keeps M s) {act : State →
    State} (hact : ∀ u, s0.Keeps M u → s0.Keeps M (act u)) :
    s0.Keeps M (State.imgCmd s act) := by
  unfold State.imgCmd
  repeat' first
    | with_reducible assumption | exact mask_sub hM (by decide) | with_reducible exact Rg.IMG_STATUS_DISCARD_in
    | with_reducible apply hact | with_reducible apply State.imgDone_keeps | with_reducible apply State.raise_keeps
    | with_reducible apply keeps_ite

theorem State.eraseImg_keeps {s0 : State} {M : Nat} (hM : 35184372088864 ||| M = M) {s : State} (hk : s0.Keeps M s) (k : Nat) :
    s0.Keeps M (State.eraseImg s k) := by
  unfold State.eraseImg
  repeat' first
    | with_reducible assumption | exact mask_sub hM (by decide) | with_reducible apply State.noteImg_keeps
    | with_reducible apply State.setImgSlot_keeps

theorem State.imgErase_keeps {s0 : State} {M : Nat} (hM : 35184372088864 ||| M = M) {s : State} (hk : s0.Keeps M s) :
    s0.Keeps M (State.imgErase s) := by
  unfold State.imgErase
  repeat' first
    | with_reducible assumption | exact mask_sub hM (by decide) | with_reducible apply State.eraseImg_keeps
    | with_reducible apply State.imgCmd_keeps | with_reducible apply State.imgDone_keeps
    | with_reducible apply State.noteTarget_keeps | intro _

theorem State.imgWrite_keeps {s0 : State} {M : Nat} (hM : 74485315712180256 ||| M = M) {s : State} (hk : s0.Keeps M s) :
    s0.Keeps M (State.imgWrite s) := by
  unfold State.imgWrite
  repeat' first
    | with_reducible assumption | exact mask_sub hM (by decide) | with_reducible apply State.imgCmd_keeps
    | with_reducible apply State.imgDone_keeps | with_reducible apply State.noteImg_keeps
    | with_reducible apply State.setImgSlot_keeps | with_reducible apply State.devRead_keeps | with_reducible apply keeps_ite
    | intro _

theorem State.imgCommit_keeps {s0 : State} {M : Nat} (hM : 35184372088864 ||| M = M) {s : State} (hk : s0.Keeps M s) :
    s0.Keeps M (State.imgCommit s) := by
  unfold State.imgCommit
  repeat' first
    | with_reducible assumption | exact mask_sub hM (by decide) | with_reducible apply State.eraseImg_keeps
    | with_reducible apply State.imgCmd_keeps | with_reducible apply State.imgDone_keeps
    | with_reducible apply State.noteTarget_keeps | with_reducible apply State.noteImg_keeps | with_reducible apply keeps_ite
    | intro _

theorem State.zeroMem_keeps {s0 : State} {M : Nat} (hM : 8194 ||| M = M) {s : State} (hk : s0.Keeps M s) (a : Nat) (n : Nat) :
    s0.Keeps M (State.zeroMem s a n) := by
  unfold State.zeroMem
  exact keeps_mem_ecc (mask_sub hM (by decide)) hk _ _ fun i => canon_filter _ i _

theorem State.startReset_keeps {s0 : State} {M : Nat} (hM : 576460889742376960 ||| M = M) {s : State} (hk : s0.Keeps M s) (p :
    Nat) (why : Nat) :
    s0.Keeps M (State.startReset s p why) := by
  unfold State.startReset
  repeat' first
    | with_reducible assumption | exact mask_sub hM (by decide) | with_reducible exact Rg.FLT_PART_STATE_in _
    | with_reducible apply State.setF_keeps | with_reducible refine State.modPart_life ?_ ?_ _ _ (fun _ => rfl)

theorem State.bindPages_keeps {s0 : State} {M : Nat} (hM : 8761733283840 ||| M = M) {s : State} (hk : s0.Keeps M s) (p : Nat) :
    s0.Keeps M (State.bindPages s p) := by
  unfold State.bindPages
  repeat' first
    | with_reducible assumption | exact mask_sub hM (by decide) | with_reducible apply State.modPart_all

theorem State.reloadStructural_keeps {s0 : State} {M : Nat} (hM : 576504715588677634 ||| M = M) {s : State} (hk : s0.Keeps M s) (p
    : Nat) (r : Reload) :
    s0.Keeps M (State.reloadStructural s p r) := by
  unfold State.reloadStructural
  repeat' first
    | with_reducible assumption | exact mask_sub hM (by decide) | with_reducible apply State.bindPages_keeps
    | with_reducible apply State.startReset_keeps | with_reducible apply State.zeroMem_keeps
    | with_reducible apply State.applyReload_keeps | with_reducible refine keeps_foldl _ ?_ (fun u x hu => ?_)

theorem State.reload_keeps {s0 : State} {M : Nat} (hM : 576504715588677634 ||| M = M) {s : State} (hk : s0.Keeps M s) (p : Nat) (b
    : Bytes) :
    s0.Keeps M (State.reload s p b).2 := by
  unfold State.reload
  repeat' first
    | with_reducible assumption | exact mask_sub hM (by decide) | with_reducible exact Rg.IMG_RELOAD_RESULT_in _
    | with_reducible exact Rg.IMG_RELOAD_PENDING_in _ | with_reducible apply State.reloadStructural_keeps
    | with_reducible apply State.applyReload_keeps | with_reducible apply State.setF_keeps
    | with_reducible refine State.modPart_settings ?_ ?_ _ _ (fun _ => rfl) | with_reducible apply keeps_ite | split | dsimp only

theorem State.imgReload_keeps {s0 : State} {M : Nat} (hM : 650954846928760834 ||| M = M) {s : State} (hk : s0.Keeps M s) (p : Nat) :
    s0.Keeps M (State.imgReload s p) := by
  unfold State.imgReload
  repeat' first
    | with_reducible assumption | exact mask_sub hM (by decide) | with_reducible apply State.reload_keeps
    | with_reducible apply State.imgCmd_keeps | with_reducible apply State.imgDone_keeps
    | with_reducible apply State.devRead_keeps | with_reducible apply keeps_ite | intro _

end Sys2Proof.Machine
end

