-- ==== Sys2Proof/Laws/KeepsBoot.lean ====
section
/-!
SUPPORT. The operations of Machine/Boot.lean keep the relation of Laws/Keeps.lean.
-/
namespace Sys2Proof.Machine

theorem State.setFwSlot_keeps {s0 : State} {M : Nat} (hM : 32 ||| M = M) {s : State} (hk : s0.Keeps M s) (k : Nat) (m : SMap Byte) :
    s0.Keeps M (State.setFwSlot s k m) := by
  unfold State.setFwSlot
  repeat' first
    | with_reducible assumption | exact mask_sub hM (by decide) | simp only [keeps_flash (mask_sub hM (by decide))]

theorem fwReason_in (k : Nat) : RegBlock.sec.has (fwReason k).addr := by
  unfold fwReason; split <;> exact Rg.SEC_FW_REASON_in

theorem State.noteFw_keeps {s0 : State} {M : Nat} (hM : 70368744177664 ||| M = M) {s : State} (hk : s0.Keeps M s) (k : Nat)
    (reason : Nat) :
    s0.Keeps M (State.noteFw s k reason) := by
  unfold State.noteFw
  repeat' first
    | with_reducible assumption | exact mask_sub hM (by decide) | with_reducible exact Rg.SEC_FW_SLOT_SEQ_in _
    | exact fwReason_in _ | with_reducible apply State.setF_keeps | with_reducible apply State.wr_keeps

theorem State.noteFwTarget_keeps {s0 : State} {M : Nat} (hM : 70368744177664 ||| M = M) {s : State} (hk : s0.Keeps M s) :
    s0.Keeps M (State.noteFwTarget s) := by
  unfold State.noteFwTarget
  repeat' first
    | with_reducible assumption | exact mask_sub hM (by decide) | with_reducible exact Rg.SEC_BOOT_STATUS_FW_TARGET_in
    | with_reducible apply State.setF_keeps

theorem State.noteSvn_keeps {s0 : State} {M : Nat} (hM : 70368744177664 ||| M = M) {s : State} (hk : s0.Keeps M s) :
    s0.Keeps M (State.noteSvn s) := by
  unfold State.noteSvn
  repeat' first
    | with_reducible assumption | exact mask_sub hM (by decide) | with_reducible exact Rg.SEC_SVN_FW_CTR_in
    | with_reducible exact Rg.SEC_SVN_IMG_CTR_in | with_reducible exact Rg.SEC_SVN_FW_SVN_in
    | with_reducible exact Rg.SEC_SVN_IMG_SVN_in | with_reducible apply State.setF_keeps

theorem State.noteCoreMap_keeps {s0 : State} {M : Nat} (hM : 8796093022208 ||| M = M) {s : State} (hk : s0.Keeps M s) (k : Nat) :
    s0.Keeps M (State.noteCoreMap s k) := by
  unfold State.noteCoreMap
  repeat' first
    | with_reducible assumption | exact mask_sub hM (by decide) | with_reducible exact Rg.DEV_CORE_MAP_SPARE_POS_in _
    | with_reducible exact Rg.DEV_CORE_MAP_LCLUSTER_in _ | with_reducible exact Rg.DEV_CORE_MAP_PENDING_in _
    | with_reducible exact Rg.DEV_CORE_MAP_NEXT_SPARE_in _ | with_reducible apply State.setF_keeps

theorem State.noteDev_keeps {s0 : State} {M : Nat} (hM : 3386495813550080 ||| M = M) {s : State} (hk : s0.Keeps M s) :
    s0.Keeps M (State.noteDev s) := by
  unfold State.noteDev
  dsimp only
  refine keeps_foldl _ ?_ fun u x hu => State.noteCoreMap_keeps (mask_sub hM (by decide)) hu _
  refine keeps_foldl_mem _ hk fun u x hx hu => ?_
  simp only [List.mem_cons, List.not_mem_nil, or_false] at hx
  rcases hx with rfl | rfl | rfl | rfl | rfl | rfl | rfl | rfl | rfl | rfl | rfl | rfl | rfl | rfl | rfl | rfl | rfl | rfl | rfl | rfl | rfl | rfl | rfl | rfl
  all_goals first
    | exact State.setF_keeps Rg.DEV_ID_in (mask_sub hM (by decide)) hu _
    | exact State.setF_keeps Rg.DEV_VARIANT_in (mask_sub hM (by decide)) hu _
    | exact State.setF_keeps Rg.DEV_CAP0_in (mask_sub hM (by decide)) hu _
    | exact State.setF_keeps Rg.DEV_CAP1_in (mask_sub hM (by decide)) hu _
    | exact State.setF_keeps Rg.DEV_CLUSTER_MAP_in (mask_sub hM (by decide)) hu _
    | exact State.setF_keeps Rg.DEV_SERIAL_in (mask_sub hM (by decide)) hu _
    | exact State.setF_keeps Rg.CCH_DEVICE_in (mask_sub hM (by decide)) hu _
    | exact State.setF_keeps Rg.MEM_CONFIG_in (mask_sub hM (by decide)) hu _

theorem State.testArray_keeps {s0 : State} {M : Nat} (hM : 72198331526299648 ||| M = M) (cells : List ArrayCell) (c : Nat) {s :
    State} (hk : s0.Keeps M s) (a : Nat) :
    s0.Keeps M (State.testArray cells c s a) := by
  unfold State.testArray
  dsimp only
  refine keeps_foldl _ ?_ fun u x hu => State.fltAdd_keeps (mask_sub hM (by decide)) hu _ _ _ _ _ _ _
  refine keeps_foldl_mem _ hk fun u x hx hu => ?_
  simp only [List.mem_cons, List.not_mem_nil, or_false] at hx
  rcases hx with rfl | rfl | rfl | rfl | rfl | rfl | rfl
  all_goals first
    | exact State.setF_keeps (Rg.CORE_ARR_REPAIR_in _ _) (mask_sub hM (by decide)) hu _

theorem State.resetCore_keeps {s0 : State} {M : Nat} (hM : 72198331534688256 ||| M = M) (cells : List ArrayCell) {s : State} (hk :
    s0.Keeps M s) (c : Nat) :
    s0.Keeps M (State.resetCore cells s c) := by
  unfold State.resetCore
  dsimp only
  refine State.setF_keeps (Rg.CORE_ARR_STATE_in _) (mask_sub hM (by decide)) (State.semReset_keeps (mask_sub hM (by decide)) (State.modCore_keeps
    (mask_sub hM (by decide)) (keeps_foldl _ ?_ fun u x hu => State.testArray_keeps (mask_sub hM (by decide)) _ _ hu _) _ _) _) _
  refine keeps_mapRegs (L := 72057594037927936) hk (mask_sub hM (by decide)) _ fun a v ha => ?_
  have ha := ha .core (by decide)
  simp only [RegBlock.has] at ha
  refine if_neg fun h => ha ?_
  simp only [Bool.and_eq_true, decide_eq_true_eq] at h
  simp only [Rg.CORE_STATUS] at h
  omega

theorem State.wide_keeps {s0 : State} {M : Nat} (hM : 2305842983443889920 ||| M = M) {s : State} (hk : s0.Keeps M s) :
    s0.Keeps M (State.wide s) := by
  unfold State.wide
  exact hk.trans ⟨fun i => ⟨canon_nil _, i.mem, i.hostMem, Nat.zero_le _, Nat.zero_le _⟩, fun _ => List.Pairwise.nil, .refl _, rfl, Nat.le_refl _,
    fun k x => by
      have x := bit_sub hM x
      cases k <;> first | exact absurd x (by decide) | rfl | trivial,
    fun _ x => absurd (bit_sub hM x) (by decide)⟩

theorem State.coldState_keeps {s0 : State} {M : Nat} (hM : 2305842983443889984 ||| M = M) {s : State} (hk : s0.Keeps M s) :
    s0.Keeps M (State.coldState s) := by
  unfold State.coldState
  repeat' first
    | with_reducible assumption | exact mask_sub hM (by decide) | with_reducible apply State.wide_keeps
    | simp only [keeps_pins (mask_sub hM (by decide))]

theorem State.warmState_keeps {s0 : State} {M : Nat} (hM : 2305842983443869440 ||| M = M) {s : State} (hk : s0.Keeps M s) :
    s0.Keeps M (State.warmState s) := by
  unfold State.warmState
  refine keeps_foldl _ ?_ fun u x hu => State.setF_keeps (Rg.FLT_PART_in _) (mask_sub hM (by decide)) (State.setF_keeps (Rg.FLT_PART_in _)
    (mask_sub hM (by decide)) hu _) _
  exact hk.trans ⟨fun i => ⟨canon_mapRegs _ _, i.mem, i.hostMem, i.fltLog, Nat.zero_le _⟩,
    fun _ => (canon_mapRegs _ _).1, .refl _, rfl, Nat.le_refl _,
    fun k x => by
      have x := bit_sub hM x
      cases k <;> first | exact absurd x (by decide) | rfl | trivial,
    fun _ x => absurd (bit_sub hM x) (by decide)⟩

theorem State.loadPart_keeps {s0 : State} {M : Nat} (hM : 8761733283840 ||| M = M) {x : State × Nat × Nat} (hk : s0.Keeps M x.1)
    (c : Cfg) :
    s0.Keeps M (State.loadPart x c).1 := by
  unfold State.loadPart
  repeat' first
    | with_reducible assumption | exact mask_sub hM (by decide) | with_reducible apply State.bindPages_keeps
    | with_reducible apply State.resetPool_keeps | with_reducible apply State.setPart_all

theorem State.loadImage_keeps {s0 : State} {M : Nat} (hM : 3439238012609026 ||| M = M) {s : State} (hk : s0.Keeps M s) (k : Nat)
    (b : ImageBody) :
    s0.Keeps M (State.loadImage s k b) := by
  unfold State.loadImage
  dsimp only
  refine State.setF_keeps Rg.MEM_SCRUB_STATUS_in (mask_sub hM (by decide)) (State.setF_keeps Rg.PWR_CAP_SET_in (mask_sub hM (by decide)) (State.setF_keeps
    Rg.IMG_STATUS_in (mask_sub hM (by decide)) (State.setF_keeps Rg.CCH_DEVICE_in (mask_sub hM (by decide)) (keeps_foldl_fst _ ?_ fun u x hu =>
      State.loadPart_keeps (mask_sub hM (by decide)) hu _) _) _) _) _
  exact hk.upd (L := 8761733947906) (mask_sub hM (by decide)) (fun i => { i with mem := canon_filter _ i.mem _ }) rfl rfl rfl rfl fun k hk => by
    cases k <;> first | exact absurd hk (by decide) | first | rfl | (intro _; repeat' constructor) | constructor

theorem State.selectImage_keeps {s0 : State} {M : Nat} (hM : 35184372088832 ||| M = M) {s : State} (hk : s0.Keeps M s) :
    s0.Keeps M (State.selectImage s).1 := by
  unfold State.selectImage
  repeat' first
    | with_reducible assumption | exact mask_sub hM (by decide) | with_reducible apply State.noteImg_keeps | split | dsimp only

theorem State.event_keeps {s0 : State} {M : Nat} (hM : 4294967296 ||| M = M) {s : State} (hk : s0.Keeps M s) (id : Nat) (st : Nat) :
    s0.Keeps M (State.event s id st) := by
  unfold State.event
  repeat' first
    | with_reducible assumption | exact mask_sub hM (by decide) | simp only [keeps_mgmt (mask_sub hM (by decide))]
    | with_reducible apply keeps_ite

theorem State.sense_keeps {s0 : State} {M : Nat} (hM : 4294967296 ||| M = M) {s : State} (hk : s0.Keeps M s) :
    s0.Keeps M (State.sense s) := by
  unfold State.sense
  repeat' first
    | with_reducible assumption | exact mask_sub hM (by decide) | with_reducible apply State.event_keeps
    | simp only [keeps_mgmt (mask_sub hM (by decide))] | with_reducible apply keeps_ite

theorem State.enterRecovery_keeps {s0 : State} {M : Nat} (hM : 633318697600512 ||| M = M) {s : State} (hk : s0.Keeps M s) (reason
    : Nat) :
    s0.Keeps M (State.enterRecovery s reason) := by
  unfold State.enterRecovery
  repeat' first
    | with_reducible assumption | exact mask_sub hM (by decide) | with_reducible exact Rg.SEC_BOOT_STATUS_MODE_in
    | with_reducible exact Rg.SEC_BOOT_STATUS_REASON_in | with_reducible exact Rg.SEC_BOOT_STATUS_FW_LOADED_in
    | with_reducible exact Rg.LRL_STATUS_MODE_in | with_reducible exact Rg.SEC_FW_VERSION_0_in
    | with_reducible exact Rg.SEC_FW_VERSION_1_in | with_reducible apply State.noteSvn_keeps
    | with_reducible apply State.noteFwTarget_keeps | with_reducible apply State.setF_keeps | with_reducible apply State.wr_keeps
    | simp only [keeps_loaded_bundle (mask_sub hM (by decide))]

theorem State.stage_keeps {s0 : State} {M : Nat} (hM : 351845868371968 ||| M = M) {s : State} (hk : s0.Keeps M s) (b : BootIn) (k
    : Nat) :
    s0.Keeps M (State.stage s b k).1 := by
  unfold State.stage
  repeat' first
    | with_reducible assumption | exact mask_sub hM (by decide) | with_reducible exact Rg.SVC_STATE_MODE_in
    | with_reducible exact Rg.SVC_IRQ_SAFE_in | with_reducible exact Rg.SEC_BOOT_STATUS_STAGE_in
    | with_reducible apply State.raise_keeps | with_reducible apply State.setF_keeps
    | simp only [keeps_service (mask_sub hM (by decide))] | split

theorem State.bootEnd_keeps {s0 : State} {M : Nat} (hM : 3791083880980994 ||| M = M) {s : State} (hk : s0.Keeps M s) (b : BootIn)
    (sel : Option (Nat × ImageBody)) :
    s0.Keeps M (State.bootEnd s b sel) := by
  unfold State.bootEnd
  repeat' first
    | with_reducible assumption | exact mask_sub hM (by decide) | with_reducible exact Rg.PWR_CAP_SET_CAP_W_in
    | with_reducible apply State.stage_keeps | with_reducible apply State.loadImage_keeps
    | with_reducible apply State.noteSvn_keeps | with_reducible apply State.noteTarget_keeps
    | with_reducible apply State.setF_keeps | with_reducible refine keeps_of_fst (by with_reducible assumption) ?_ | split
    | dsimp only

theorem State.bootMid_keeps {s0 : State} {M : Nat} (hM : 76552365369091586 ||| M = M) {s : State} (hk : s0.Keeps M s) (b : BootIn) :
    s0.Keeps M (State.bootMid s b) := by
  unfold State.bootMid
  repeat' first
    | with_reducible assumption | exact mask_sub hM (by decide) | with_reducible exact Rg.MEM_CONFIG_RATE_MTS_in
    | with_reducible exact Rg.MEM_CH_STATUS_TRAINED_in _ | with_reducible apply State.bootEnd_keeps
    | with_reducible apply State.stage_keeps | with_reducible apply State.enterRecovery_keeps
    | with_reducible apply State.selectImage_keeps | with_reducible apply State.resetCore_keeps
    | with_reducible apply State.setF_keeps | with_reducible refine keeps_foldl _ ?_ (fun u x hu => ?_)
    | with_reducible refine keeps_forN _ ?_ (fun u x hu => ?_)
    | with_reducible refine keeps_of_fst (by with_reducible assumption) ?_ | with_reducible apply keeps_ite | split | dsimp only

theorem State.bootBundle_keeps {s0 : State} {M : Nat} (hM : 76552365369091586 ||| M = M) {s : State} (hk : s0.Keeps M s) (b :
    BootIn) :
    s0.Keeps M (State.bootBundle s b) := by
  unfold State.bootBundle
  repeat' first
    | with_reducible assumption | exact mask_sub hM (by decide) | with_reducible exact Rg.SEC_BOOT_STATUS_FW_LOADED_in
    | with_reducible exact Rg.SEC_FW_VERSION_0_in | with_reducible exact Rg.SEC_FW_VERSION_1_in
    | with_reducible apply State.bootMid_keeps | with_reducible apply State.stage_keeps
    | with_reducible apply State.enterRecovery_keeps | with_reducible apply State.noteSvn_keeps
    | with_reducible apply State.noteFwTarget_keeps | with_reducible apply State.noteFw_keeps
    | with_reducible apply State.setF_keeps | with_reducible apply State.wr_keeps
    | with_reducible refine keeps_of_fst (by with_reducible assumption) ?_ | simp only [keeps_bundle (mask_sub hM (by decide))]
    | split

theorem State.sampleRef_keeps {s0 : State} {M : Nat} (hM : 26392574033920 ||| M = M) {s : State} (hk : s0.Keeps M s) (b : BootIn) :
    s0.Keeps M (State.sampleRef s b) := by
  unfold State.sampleRef
  repeat' first
    | with_reducible assumption | exact mask_sub hM (by decide) | with_reducible exact Rg.DEV_TIME_CTRL_REF_EXT_in
    | with_reducible exact Rg.PWR_IRQ_REF_LOST_in | with_reducible apply State.event_keeps
    | with_reducible apply State.raise_keeps | with_reducible apply State.setF_keeps | with_reducible apply keeps_ite

theorem State.bootStages_keeps {s0 : State} {M : Nat} (hM : 76561165757081090 ||| M = M) {s : State} (hk : s0.Keeps M s) (b :
    BootIn) :
    s0.Keeps M (State.bootStages s b) := by
  unfold State.bootStages
  repeat' first
    | with_reducible assumption | exact mask_sub hM (by decide) | with_reducible exact Rg.SVC_PRESENCE_CAGE_in
    | with_reducible exact Rg.SVC_PRESENCE_LARRIC_in | with_reducible exact Rg.CCH_PORT_STATUS_PRESENT_in _
    | with_reducible exact Rg.SEC_BOOT_STATUS_OWNER_FUSED_in | with_reducible exact Rg.SEC_BOOT_STATUS_STAGE_in
    | with_reducible apply State.sampleRef_keeps | with_reducible apply State.bootBundle_keeps
    | with_reducible apply State.enterRecovery_keeps | with_reducible apply State.sense_keeps
    | with_reducible apply State.noteDev_keeps | with_reducible apply State.setF_keeps
    | with_reducible refine keeps_forN _ ?_ (fun u x hu => ?_) | with_reducible apply keeps_ite

theorem State.boot_keeps {s0 : State} {M : Nat} (hM : 76561165757081298 ||| M = M) {s : State} (hk : s0.Keeps M s) (b : BootIn) :
    s0.Keeps M (State.boot s b) := by
  unfold State.boot
  repeat' first
    | with_reducible assumption | exact mask_sub hM (by decide) | with_reducible apply State.bootStages_keeps
    | simp only [keeps_latched_pins_phase (mask_sub hM (by decide))]

end Sys2Proof.Machine
end

