-- ==== Sys2Proof/Laws/KeepsReset.lean ====
section
/-!
SUPPORT. The operations of Machine/Reset.lean keep the relation of Laws/Keeps.lean.
-/
namespace Sys2Proof.Machine

theorem State.noteRunning_keeps {s0 : State} {M : Nat} (hM : 70368744177664 ||| M = M) {s : State} (hk : s0.Keeps M s) (p : Nat) :
    s0.Keeps M (State.noteRunning s p) := by
  unfold State.noteRunning
  repeat' first
    | with_reducible assumption | exact mask_sub hM (by decide) | with_reducible exact Rg.SEC_PART_CTRL_RUNNING_in _
    | with_reducible apply State.setF_keeps

theorem State.startRuntime_keeps {s0 : State} {M : Nat} (hM : 576531122121342976 ||| M = M) {s : State} (hk : s0.Keeps M s) (p :
    Nat) :
    s0.Keeps M (State.startRuntime s p) := by
  unfold State.startRuntime
  repeat' first
    | with_reducible assumption | exact mask_sub hM (by decide) | with_reducible exact Rg.FLT_PART_STATE_in _
    | with_reducible apply State.noteRunning_keeps | with_reducible apply State.modCtl_keeps
    | with_reducible apply State.setF_keeps | split | dsimp only

theorem State.stopCores_keeps {s0 : State} {M : Nat} (hM : 70369817919488 ||| M = M) {s : State} (hk : s0.Keeps M s) (p : Nat) :
    s0.Keeps M (State.stopCores s p) := by
  unfold State.stopCores
  repeat' first
    | with_reducible assumption | exact mask_sub hM (by decide) | with_reducible apply State.noteRunning_keeps
    | with_reducible apply State.modCtl_keeps | with_reducible refine keeps_foldl _ ?_ (fun u x hu => ?_)

theorem State.clearPartRegs_keeps {s0 : State} {M : Nat} (hM : 355784370562269184 ||| M = M) {s : State} (hk : s0.Keeps M s) (p :
    Nat) :
    s0.Keeps M (State.clearPartRegs s p) := by
  unfold State.clearPartRegs
  refine keeps_mapRegs (L := 355784370562269184) hk (mask_sub hM (by decide)) _ fun a v ha => ?_
  refine if_neg fun h => ?_
  simp only [State.partReg, Bool.or_eq_true, Bool.and_eq_true, decide_eq_true_eq, List.any_eq_true] at h
  simp only [Rg.DSP_CTRL, Rg.CCI_PEND] at h
  rcases h with h | ⟨n, _, h⟩
  · have h1 := ha .dsp (by decide)
    have h2 := ha .ldg (by decide)
    have h3 := ha .chn (by decide)
    have h4 := ha .adp (by decide)
    simp only [RegBlock.has] at h1 h2 h3 h4; omega
  · exact ha .cci (by decide) (by simp only [RegBlock.has]; omega)

theorem State.dropTasks_keeps {s0 : State} {M : Nat} (hM : 218565388724002816 ||| M = M) {s : State} (hk : s0.Keeps M s) (p : Nat) :
    s0.Keeps M (State.dropTasks s p) := by
  unfold State.dropTasks
  repeat' first
    | with_reducible assumption | exact mask_sub hM (by decide) | with_reducible apply State.stopTask_keeps
    | with_reducible refine keeps_foldl _ ?_ (fun u x hu => ?_)
    | simp only [keeps_walks_tasks_mcasts_coach (mask_sub hM (by decide))]

theorem State.dropChannels_keeps {s0 : State} {M : Nat} (hM : 469762048 ||| M = M) {s : State} (hk : s0.Keeps M s) (p : Nat) :
    s0.Keeps M (State.dropChannels s p) := by
  unfold State.dropChannels
  repeat' first
    | with_reducible assumption | exact mask_sub hM (by decide)
    | simp only [keeps_endpoints_landings_churns (mask_sub hM (by decide))]

theorem State.freePages_keeps {s0 : State} {M : Nat} (hM : 144115188075986944 ||| M = M) {s : State} (hk : s0.Keeps M s) (p : Nat) :
    s0.Keeps M (State.freePages s p) := by
  unfold State.freePages
  repeat' first
    | with_reducible assumption | exact mask_sub hM (by decide) | with_reducible exact Rg.CLU_OST_FREE_FREED_in _
    | with_reducible apply State.bump_keeps | with_reducible refine keeps_foldl _ ?_ (fun u x hu => ?_)
    | simp only [keeps_pages (mask_sub hM (by decide))]

theorem State.partReset_keeps {s0 : State} {M : Nat} (hM : 1152015476953899008 ||| M = M) {s : State} (hk : s0.Keeps M s) (p :
    Nat) (cells : List ArrayCell) :
    s0.Keeps M (State.partReset s p cells) := by
  unfold State.partReset
  repeat' first
    | with_reducible assumption | exact mask_sub hM (by decide) | with_reducible exact Rg.FLT_PART_STATE_in _
    | with_reducible apply State.freePages_keeps | with_reducible apply State.dropChannels_keeps
    | with_reducible apply State.dropTasks_keeps | with_reducible apply State.clearPartRegs_keeps
    | with_reducible apply State.stopCores_keeps | with_reducible apply State.resetCore_keeps
    | with_reducible apply State.resetPool_keeps | with_reducible apply State.abortExports_keeps
    | with_reducible apply State.setF_keeps | with_reducible apply State.modPart_all
    | with_reducible refine keeps_foldl _ ?_ (fun u x hu => ?_) | simp only [keeps_service (mask_sub hM (by decide))]
    | simp only [keeps_clusters (mask_sub hM (by decide))]

theorem State.takeReset_keeps {s0 : State} {M : Nat} (hM : 1152015476953899008 ||| M = M) {s : State} (hk : s0.Keeps M s) (p :
    Nat) (cells : List ArrayCell) :
    s0.Keeps M (State.takeReset s p cells) := by
  unfold State.takeReset
  repeat' first
    | with_reducible assumption | exact mask_sub hM (by decide) | with_reducible apply State.partReset_keeps
    | with_reducible apply keeps_ite

theorem State.restartEntry_keeps {s0 : State} {M : Nat} (hM : 83457880351170567 ||| M = M) (p : Nat) {s : State} (hk : s0.Keeps M
    s) (i : Nat) :
    s0.Keeps M (State.restartEntry p s i) := by
  unfold State.restartEntry
  repeat' first
    | with_reducible assumption | exact mask_sub hM (by decide) | with_reducible apply State.report_keeps
    | with_reducible apply State.setEnt_keeps

theorem State.resetComplete_keeps {s0 : State} {M : Nat} (hM : 659989139911467015 ||| M = M) {s : State} (hk : s0.Keeps M s) (p :
    Nat) :
    s0.Keeps M (State.resetComplete s p) := by
  unfold State.resetComplete
  repeat' first
    | with_reducible assumption | exact mask_sub hM (by decide) | with_reducible exact Rg.FLT_PART_STATE_in _
    | with_reducible apply State.restartEntry_keeps | with_reducible apply State.startRuntime_keeps
    | with_reducible apply State.setF_keeps | with_reducible refine State.modPart_life ?_ ?_ _ _ (fun _ => rfl)
    | with_reducible refine keeps_foldl _ ?_ (fun u x hu => ?_) | with_reducible apply keeps_ite

theorem State.askReset_keeps {s0 : State} {M : Nat} (hM : 576601627230748672 ||| M = M) {s : State} (hk : s0.Keeps M s) (p : Nat)
    (why : Nat) :
    s0.Keeps M (State.askReset s p why) := by
  unfold State.askReset
  repeat' first
    | with_reducible assumption | exact mask_sub hM (by decide) | with_reducible apply State.startReset_keeps
    | with_reducible apply State.fltAdd_keeps | with_reducible apply keeps_ite

theorem State.fltResetCore_keeps {s0 : State} {M : Nat} (hM : 648659083838111744 ||| M = M) {s : State} (hk : s0.Keeps M s) (c :
    Nat) (cells : List ArrayCell) :
    s0.Keeps M (State.fltResetCore s c cells) := by
  unfold State.fltResetCore
  repeat' first
    | with_reducible assumption | exact mask_sub hM (by decide) | with_reducible exact Rg.FLT_RESET_CAUSE_CORE_BUSY_in
    | with_reducible apply State.resetCore_keeps | with_reducible apply State.raise_keeps | with_reducible apply keeps_ite

theorem State.jobsStop_keeps {s0 : State} {M : Nat} (hM : 800694037971988487 ||| M = M) {s : State} (hk : s0.Keeps M s) :
    s0.Keeps M (State.jobsStop s) := by
  unfold State.jobsStop
  repeat' first
    | with_reducible assumption | exact mask_sub hM (by decide) | with_reducible apply State.jobFault_keeps
    | with_reducible refine keeps_foldl _ ?_ (fun u x hu => ?_) | with_reducible apply keeps_ite

theorem State.warmRequest_keeps {s0 : State} {M : Nat} (hM : 800694037971988743 ||| M = M) {s : State} (hk : s0.Keeps M s) (c :
    WarmCause) :
    s0.Keeps M (State.warmRequest s c) := by
  unfold State.warmRequest
  repeat' first
    | with_reducible assumption | exact mask_sub hM (by decide) | with_reducible apply State.jobsStop_keeps
    | with_reducible apply State.fltAdd_keeps | simp only [keeps_warmDue (mask_sub hM (by decide))]
    | with_reducible apply keeps_ite

theorem State.warmReset_keeps {s0 : State} {M : Nat} (hM : 2305842983443886034 ||| M = M) {s : State} (hk : s0.Keeps M s) (b :
    BootIn) :
    s0.Keeps M (State.warmReset s b) := by
  unfold State.warmReset
  repeat' first
    | with_reducible assumption | exact mask_sub hM (by decide) | with_reducible exact Rg.FLT_RESET_CAUSE_LAST_in
    | with_reducible exact Rg.FLT_RESET_CAUSE_WARM_COUNT_in | with_reducible apply State.boot_keeps
    | with_reducible apply State.warmState_keeps | with_reducible apply State.bump_keeps | with_reducible apply State.setF_keeps
    | split

theorem State.holdReset_keeps {s0 : State} {M : Nat} (hM : 2305842983443890112 ||| M = M) {s : State} (hk : s0.Keeps M s) (last :
    Nat) :
    s0.Keeps M (State.holdReset s last) := by
  unfold State.holdReset
  repeat' first
    | with_reducible assumption | exact mask_sub hM (by decide) | with_reducible exact Rg.FLT_RESET_CAUSE_LAST_in
    | with_reducible apply State.coldState_keeps | with_reducible apply State.setF_keeps
    | simp only [keeps_phase (mask_sub hM (by decide))]

theorem State.coldReset_keeps {s0 : State} {M : Nat} (hM : 2305843000623759303 ||| M = M) {s : State} (hk : s0.Keeps M s) :
    s0.Keeps M (State.coldReset s) := by
  unfold State.coldReset
  repeat' first
    | with_reducible assumption | exact mask_sub hM (by decide) | with_reducible apply State.holdReset_keeps
    | with_reducible apply State.jobsStop_keeps | simp only [keeps_pins (mask_sub hM (by decide))]
    | with_reducible apply keeps_ite

theorem State.moduleReset_keeps {s0 : State} {M : Nat} (hM : 2305843000623759303 ||| M = M) {s : State} (hk : s0.Keeps M s) (ns :
    Nat) :
    s0.Keeps M (State.moduleReset s ns) := by
  unfold State.moduleReset
  repeat' first
    | with_reducible assumption | exact mask_sub hM (by decide) | with_reducible apply State.holdReset_keeps
    | with_reducible apply State.jobsStop_keeps | simp only [keeps_pins (mask_sub hM (by decide))]
    | with_reducible apply keeps_ite

theorem State.release_keeps {s0 : State} {M : Nat} (hM : 76561165757081298 ||| M = M) {s : State} (hk : s0.Keeps M s) (b : BootIn) :
    s0.Keeps M (State.release s b) := by
  unfold State.release
  repeat' first
    | with_reducible assumption | exact mask_sub hM (by decide) | with_reducible apply State.boot_keeps
    | simp only [keeps_pins (mask_sub hM (by decide))] | with_reducible apply keeps_ite

theorem State.ccWdog_keeps {s0 : State} {M : Nat} (hM : 800694037971988487 ||| M = M) {s : State} (hk : s0.Keeps M s) (n : Nat) :
    s0.Keeps M (State.ccWdog s n) := by
  unfold State.ccWdog
  repeat' first
    | with_reducible assumption | exact mask_sub hM (by decide) | with_reducible apply State.wdogFault_keeps
    | with_reducible apply State.passTo_keeps | with_reducible apply keeps_ite | split

theorem State.spillTimeout_keeps {s0 : State} {M : Nat} (hM : 800694037971988487 ||| M = M) {s : State} (hk : s0.Keeps M s) (p :
    Nat) :
    s0.Keeps M (State.spillTimeout s p) := by
  unfold State.spillTimeout
  repeat' first
    | with_reducible assumption | exact mask_sub hM (by decide) | with_reducible apply State.wdogFault_keeps
    | with_reducible apply State.passTo_keeps | with_reducible apply keeps_ite | split

theorem State.pinTimeout_keeps {s0 : State} {M : Nat} (hM : 800694037971988487 ||| M = M) {s : State} (hk : s0.Keeps M s) (t :
    Nat) (page : Nat) :
    s0.Keeps M (State.pinTimeout s t page) := by
  unfold State.pinTimeout
  repeat' first
    | with_reducible assumption | exact mask_sub hM (by decide) | with_reducible apply State.wdogFault_keeps
    | with_reducible apply State.passTo_keeps | with_reducible apply keeps_ite | split

theorem State.drainFault_keeps {s0 : State} {M : Nat} (hM : 800694037971988487 ||| M = M) {s : State} (hk : s0.Keeps M s) (p :
    Nat) (t : Nat) :
    s0.Keeps M (State.drainFault s p t) := by
  unfold State.drainFault
  repeat' first
    | with_reducible assumption | exact mask_sub hM (by decide) | with_reducible apply State.wdogFault_keeps
    | with_reducible apply State.passTo_keeps

theorem State.drainTimeout_keeps {s0 : State} {M : Nat} (hM : 800694037980377095 ||| M = M) {s : State} (hk : s0.Keeps M s) (u :
    DrainUnit) :
    s0.Keeps M (State.drainTimeout s u) := by
  unfold State.drainTimeout
  repeat' first
    | with_reducible assumption | exact mask_sub hM (by decide) | with_reducible apply State.drainFault_keeps
    | with_reducible apply State.islandOff_keeps | with_reducible refine keeps_foldl _ ?_ (fun u x hu => ?_)
    | with_reducible apply keeps_ite | split

theorem State.fixShown_keeps {s0 : State} {M : Nat} (hM : 72207127619321856 ||| M = M) {s : State} (hk : s0.Keeps M s) (f : Fix) :
    s0.Keeps M (State.fixShown s f) := by
  unfold State.fixShown
  repeat' first
    | with_reducible assumption | exact mask_sub hM (by decide) | with_reducible exact Rg.CORE_ARR_REPAIR_PENDING_in _ _
    | with_reducible exact Rg.DEV_CORE_MAP_PENDING_in _ | with_reducible exact Rg.DEV_CORE_MAP_NEXT_SPARE_in _
    | with_reducible apply State.fltAdd_keeps | with_reducible apply State.raise_keeps | with_reducible apply State.setF_keeps
    | with_reducible apply keeps_ite

theorem State.fixDone_keeps {s0 : State} {M : Nat} (hM : 576601489791778816 ||| M = M) {s : State} (hk : s0.Keeps M s) (r : Nat)
    (n : Nat) :
    s0.Keeps M (State.fixDone s r n) := by
  unfold State.fixDone
  repeat' first
    | with_reducible assumption | exact mask_sub hM (by decide) | with_reducible exact Rg.FLT_REPAIR_RESULT_RESULT_in
    | with_reducible exact Rg.FLT_REPAIR_RESULT_APPLIED_in | with_reducible exact Rg.FLT_IRQ_REPAIR_DONE_in
    | with_reducible apply State.raise_keeps | with_reducible apply State.setF_keeps

/-- Applied repair entries keep the entries already blown. -/
theorem fixMap_grows {l : List Fix} {a b : FuseMap} (e : l.foldl fixMap (some a) = some b) :
    (∀ c ∈ a.kind4, c ∈ b.kind4) ∧ ∀ x ∈ a.skips, x ∈ b.skips := by
  have hn : ∀ l : List Fix, l.foldl fixMap none = none := fun l => by
    induction l with
    | nil => rfl
    | cons f l ih => exact ih
  induction l generalizing a with
  | nil => cases e; exact ⟨fun _ h => h, fun _ h => h⟩
  | cons f l ih =>
    rw [List.foldl_cons] at e
    cases hf : fixMap (some a) f with
    | none => rw [hf, hn] at e; cases e
    | some c =>
      rw [hf] at e
      obtain ⟨h1, h2⟩ := ih e
      simp only [fixMap] at hf
      repeat' split at hf
      all_goals cases hf
      · exact ⟨h1, fun x h => h2 x (List.mem_append_left _ h)⟩
      · exact ⟨h1, h2⟩
      · exact ⟨fun c h => h1 c (List.mem_append_left _ h), h2⟩

/-- The fuse map that a package leaves keeps the entries already blown. -/
theorem State.repairVerdict_grows (s : State) (r : MemRd) (n : Nat) :
    (∀ c ∈ s.fuses.map.kind4, c ∈ (s.repairVerdict r n).2.kind4) ∧ ∀ x ∈ s.fuses.map.skips, x ∈ (s.repairVerdict r n).2.skips := by
  unfold State.repairVerdict
  dsimp only
  repeat' split
  all_goals first
    | exact ⟨fun _ h => h, fun _ h => h⟩
    | exact fixMap_grows ‹_›

theorem State.repairApply_keeps {s0 : State} {M : Nat} (hM : 650919679736537096 ||| M = M) {s : State} (hk : s0.Keeps M s) :
    s0.Keeps M (State.repairApply s) := by
  unfold State.repairApply
  repeat' first
    | with_reducible assumption | exact mask_sub hM (by decide) | exact Rg.FLT_REPAIR_RESULT_in
    | with_reducible apply State.fixDone_keeps
    | with_reducible refine keeps_foldl _ ?_ (fun u x hu => State.fixShown_keeps (mask_sub hM (by decide)) hu _)
    | with_reducible apply State.devRead_keeps | with_reducible apply State.setF_keeps | with_reducible apply keeps_ite
    | dsimp only
  obtain ⟨h1, h2⟩ := State.repairVerdict_grows (s.devRead 15 2 (s.rd Rg.FLT_REPAIR_HOST).toNat (s.fd Rg.FLT_REPAIR_LEN_LEN)).st
    (s.devRead 15 2 (s.rd Rg.FLT_REPAIR_HOST).toNat (s.fd Rg.FLT_REPAIR_LEN_LEN)) (s.fd Rg.FLT_REPAIR_LEN_LEN)
  exact keeps_fuses (mask_sub hM (by decide)) (State.devRead_keeps (mask_sub hM (by decide)) hk _ _ _ _) _
    ⟨rfl, rfl, rfl, rfl, rfl, fun _ => rfl, Nat.le_refl _, Nat.le_refl _, h1, h2⟩

theorem State.fltLogPop_keeps {s0 : State} {M : Nat} (hM : 8589950976 ||| M = M) {s : State} (hk : s0.Keeps M s) :
    s0.Keeps M (State.fltLogPop s) := by
  unfold State.fltLogPop
  split
  · refine hk.upd (L := 8589950976) (mask_sub hM (by decide)) (fun i => { i with fltLog := ?_ }) rfl rfl rfl rfl fun k hk => ?_
    · have := i.fltLog; simp_all only [List.length_cons]; omega
    · cases k <;> first | exact absurd hk (by decide) | first | rfl | (intro _; repeat' constructor) | constructor
  · exact (keeps_bus (mask_sub hM (by decide)) _).2 hk

end Sys2Proof.Machine
end

