-- ==== Sys2Proof/Laws/KeepsSecure.lean ====
section
/-!
SUPPORT. The operations of Machine/Secure.lean keep the relation of Laws/Keeps.lean.
-/
namespace Sys2Proof.Machine

theorem State.secDone_keeps {s0 : State} {M : Nat} (hM : 70368744177664 ||| M = M) {s : State} (hk : s0.Keeps M s) (r : Nat) :
    s0.Keeps M (State.secDone s r) := by
  unfold State.secDone
  repeat' first
    | with_reducible assumption | exact mask_sub hM (by decide) | with_reducible exact Rg.SEC_RESULT_RESULT_in
    | with_reducible exact Rg.SEC_RESULT_DONE_in | with_reducible exact Rg.SEC_RESULT_COUNT_in
    | with_reducible apply State.incr_keeps | with_reducible apply State.raise_keeps | with_reducible apply State.setF_keeps

theorem State.secCmd_keeps {s0 : State} {M : Nat} (hM : 70368744177664 ||| M = M) {s : State} (hk : s0.Keeps M s) (flash : Bool)
    {act : State → State} (hact : ∀ u, s0.Keeps M u → s0.Keeps M (act u)) :
    s0.Keeps M (State.secCmd s flash act) := by
  unfold State.secCmd
  repeat' first
    | with_reducible assumption | exact mask_sub hM (by decide) | with_reducible apply hact
    | with_reducible apply State.secDone_keeps | with_reducible apply keeps_ite

theorem State.secLoaded_keeps {s0 : State} {M : Nat} (hM : 70368744177664 ||| M = M) {s : State} (hk : s0.Keeps M s) {act : State
    → State} (hact : ∀ u, s0.Keeps M u → s0.Keeps M (act u)) :
    s0.Keeps M (State.secLoaded s act) := by
  unfold State.secLoaded
  repeat' first
    | with_reducible assumption | exact mask_sub hM (by decide) | with_reducible apply hact
    | with_reducible apply State.secCmd_keeps | with_reducible apply State.secDone_keeps | split | intro _

theorem State.eraseFw_keeps {s0 : State} {M : Nat} (hM : 70368744177696 ||| M = M) {s : State} (hk : s0.Keeps M s) (k : Nat) :
    s0.Keeps M (State.eraseFw s k) := by
  unfold State.eraseFw
  repeat' first
    | with_reducible assumption | exact mask_sub hM (by decide) | with_reducible apply State.noteFw_keeps
    | with_reducible apply State.setFwSlot_keeps

theorem State.fwWrite_keeps {s0 : State} {M : Nat} (hM : 74520500084269088 ||| M = M) {s : State} (hk : s0.Keeps M s) :
    s0.Keeps M (State.fwWrite s) := by
  unfold State.fwWrite
  repeat' first
    | with_reducible assumption | exact mask_sub hM (by decide) | with_reducible apply State.secDone_keeps
    | with_reducible apply State.noteFw_keeps | with_reducible apply State.setFwSlot_keeps
    | with_reducible apply State.devRead_keeps | with_reducible apply keeps_ite

theorem State.fwCommit_keeps {s0 : State} {M : Nat} (hM : 70368744177696 ||| M = M) {s : State} (hk : s0.Keeps M s) :
    s0.Keeps M (State.fwCommit s) := by
  unfold State.fwCommit
  repeat' first
    | with_reducible assumption | exact mask_sub hM (by decide) | with_reducible exact Rg.SEC_BOOT_STATUS_IMG_AT_RISK_in
    | with_reducible apply State.eraseFw_keeps | with_reducible apply State.secDone_keeps
    | with_reducible apply State.noteFwTarget_keeps | with_reducible apply State.noteFw_keeps
    | with_reducible apply State.setF_keeps | with_reducible apply keeps_ite

theorem State.commitSvn_keeps {s0 : State} {M : Nat} (hM : 70368744177672 ||| M = M) {s : State} (hk : s0.Keeps M s) (which : Nat) :
    s0.Keeps M (State.commitSvn s which) := by
  unfold State.commitSvn
  refine State.secLoaded_keeps (mask_sub hM (by decide)) hk fun u hu => ?_
  repeat' first
    | with_reducible assumption | exact mask_sub hM (by decide) | with_reducible apply State.secDone_keeps
    | with_reducible apply State.noteSvn_keeps | split
  refine keeps_fuses (mask_sub hM (by decide)) hu _ ?_
  unfold State.svnRaised
  split
  · exact ⟨rfl, rfl, rfl, rfl, rfl, fun _ => rfl, Nat.le_refl _, Nat.le_max_left _ _, fun _ h => h, fun _ h => h⟩
  · exact ⟨rfl, rfl, rfl, rfl, rfl, fun _ => rfl, Nat.le_max_left _ _, Nat.le_refl _, fun _ h => h, fun _ h => h⟩

theorem State.fuseOwner_keeps {s0 : State} {M : Nat} (hM : 74520500084269064 ||| M = M) {s : State} (hk : s0.Keeps M s) :
    s0.Keeps M (State.fuseOwner s) := by
  unfold State.fuseOwner
  refine State.secLoaded_keeps (mask_sub hM (by decide)) hk fun u hu => ?_
  have hw := State.devRead_keeps (M := M) (mask_sub hM (by decide)) (.refl u) 15 2 (u.rd Rg.SEC_XFER_HOST).toNat 64
  dsimp only
  split
  · exact State.secDone_keeps (mask_sub hM (by decide)) hu _
  · rename_i ho
    repeat' first
      | with_reducible assumption | exact mask_sub hM (by decide) | with_reducible apply State.secDone_keeps
      | exact hu.trans hw
      | split
    refine State.raise_keeps Rg.SEC_BOOT_STATUS_in (mask_sub hM (by decide)) ?_
    have hf : (u.devRead 15 2 (u.rd Rg.SEC_XFER_HOST).toNat 64).st.fuses = u.fuses := (State.devRead_keeps (M := 2305843009213693943) (by decide) (.refl u) _ _ _ _).same .fuses (by decide)
    refine keeps_fuses (mask_sub hM (by decide)) (hu.trans hw) _ ⟨rfl, rfl, rfl, rfl, rfl, fun h => ?_, Nat.le_refl _, Nat.le_refl _, fun _ h => h, fun _ h => h⟩
    rw [hf] at h; rw [h] at ho; exact absurd rfl ho

theorem State.attest_keeps {s0 : State} {M : Nat} (hM : 74520500084269063 ||| M = M) {s : State} (hk : s0.Keeps M s) (part : Nat) :
    s0.Keeps M (State.attest s part) := by
  unfold State.attest
  repeat' first
    | with_reducible assumption | exact mask_sub hM (by decide) | with_reducible apply State.secLoaded_keeps
    | with_reducible apply State.secDone_keeps | with_reducible apply State.devWrite_keeps
    | with_reducible apply State.freeNext_keeps | with_reducible apply keeps_ite | intro _

theorem State.idcert_keeps {s0 : State} {M : Nat} (hM : 74520500084269062 ||| M = M) {s : State} (hk : s0.Keeps M s) :
    s0.Keeps M (State.idcert s) := by
  unfold State.idcert
  repeat' first
    | with_reducible assumption | exact mask_sub hM (by decide) | with_reducible apply State.secCmd_keeps
    | with_reducible apply State.secDone_keeps | with_reducible apply State.devWrite_keeps | split | intro _

theorem State.partStart_keeps {s0 : State} {M : Nat} (hM : 576531259560296448 ||| M = M) {s : State} (hk : s0.Keeps M s) (p : Nat) :
    s0.Keeps M (State.partStart s p) := by
  unfold State.partStart
  repeat' first
    | with_reducible assumption | exact mask_sub hM (by decide) | with_reducible exact Rg.SEC_PART_CTRL_START_in _
    | with_reducible apply State.startRuntime_keeps | with_reducible apply State.raise_keeps
    | with_reducible refine State.modPart_life ?_ ?_ _ _ (fun _ => rfl) | with_reducible apply keeps_ite

theorem State.sbi_keeps {s0 : State} {M : Nat} (hM : 0 ||| M = M) {s : State} (hk : s0.Keeps M s) (n : Nat) {act : State → Nat →
    State} (hact : ∀ u x0, s0.Keeps M u → s0.Keeps M (act u x0)) :
    s0.Keeps M (State.sbi s n act) := by
  unfold State.sbi
  repeat' first
    | with_reducible assumption | exact mask_sub hM (by decide) | with_reducible apply hact | with_reducible apply keeps_ite
    | split

theorem State.sbiRet_keeps {s0 : State} {M : Nat} (hM : 1073741824 ||| M = M) {s : State} (hk : s0.Keeps M s) (n : Nat) (err :
    Nat) (a1 : Nat) (a2 : Nat) :
    s0.Keeps M (State.sbiRet s n err a1 a2) := by
  unfold State.sbiRet
  repeat' first
    | with_reducible assumption | exact mask_sub hM (by decide) | with_reducible apply State.modCtl_keeps

theorem State.sbiReload_keeps {s0 : State} {M : Nat} (hM : 650954848002502658 ||| M = M) {s : State} (hk : s0.Keeps M s) (n : Nat)
    (a : Nat) (len : Nat) :
    s0.Keeps M (State.sbiReload s n a len) := by
  unfold State.sbiReload
  repeat' first
    | with_reducible assumption | exact mask_sub hM (by decide) | with_reducible apply State.sbiRet_keeps
    | with_reducible apply State.sbi_keeps | with_reducible apply State.reload_keeps | with_reducible apply State.devRead_keeps
    | with_reducible apply keeps_ite | split | intro _

theorem State.sbiAttest_keeps {s0 : State} {M : Nat} (hM : 74450132413833223 ||| M = M) {s : State} (hk : s0.Keeps M s) (n : Nat)
    (nonce : Nat) (dst : Nat) :
    s0.Keeps M (State.sbiAttest s n nonce dst) := by
  unfold State.sbiAttest
  repeat' first
    | with_reducible assumption | exact mask_sub hM (by decide) | with_reducible apply State.sbiRet_keeps
    | with_reducible apply State.sbi_keeps | with_reducible apply State.devWrite_keeps | with_reducible apply State.devRead_keeps
    | with_reducible apply State.freeNext_keeps | with_reducible apply keeps_ite | split | intro _

theorem State.sbiJobFault_keeps {s0 : State} {M : Nat} (hM : 800694039045730311 ||| M = M) {s : State} (hk : s0.Keeps M s) (n :
    Nat) (cause : Nat) :
    s0.Keeps M (State.sbiJobFault s n cause) := by
  unfold State.sbiJobFault
  repeat' first
    | with_reducible assumption | exact mask_sub hM (by decide) | with_reducible apply State.sbiRet_keeps
    | with_reducible apply State.sbi_keeps | with_reducible apply State.jobFault_keeps | split | intro _

theorem State.sbiSrst_keeps {s0 : State} {M : Nat} (hM : 576671997048668160 ||| M = M) {s : State} (hk : s0.Keeps M s) (n : Nat)
    (kind : Nat) :
    s0.Keeps M (State.sbiSrst s n kind) := by
  unfold State.sbiSrst
  repeat' first
    | with_reducible assumption | exact mask_sub hM (by decide) | with_reducible apply State.sbiRet_keeps
    | with_reducible apply State.sbi_keeps | with_reducible apply State.askReset_keeps
    | with_reducible apply State.stopCores_keeps | with_reducible refine State.modPart_life ?_ ?_ _ _ (fun _ => rfl) | split
    | intro _

theorem State.hartStart_keeps {s0 : State} {M : Nat} (hM : 70369817919488 ||| M = M) {s : State} (hk : s0.Keeps M s) (n : Nat)
    (target : Nat) (a : Nat) (arg : Nat) :
    s0.Keeps M (State.hartStart s n target a arg) := by
  unfold State.hartStart
  repeat' first
    | with_reducible assumption | exact mask_sub hM (by decide) | with_reducible apply State.sbiRet_keeps
    | with_reducible apply State.sbi_keeps | with_reducible apply State.noteRunning_keeps
    | with_reducible apply State.modCtl_keeps | split | intro _

theorem State.petDog_keeps {s0 : State} {M : Nat} (hM : 1073741824 ||| M = M) {s : State} (hk : s0.Keeps M s) (n : Nat) :
    s0.Keeps M (State.petDog s n) := by
  unfold State.petDog
  repeat' first
    | with_reducible assumption | exact mask_sub hM (by decide) | with_reducible apply State.modCtl_keeps

end Sys2Proof.Machine
end

