-- ==== Sys2Proof/Laws/KeepsPower.lean ====
section
/-!
SUPPORT. The operations of Machine/Power.lean keep the relation of Laws/Keeps.lean.
-/
namespace Sys2Proof.Machine

theorem State.reasonOn_keeps {s0 : State} {M : Nat} (hM : 17592186046464 ||| M = M) {s : State} (hk : s0.Keeps M s) (r : Nat) :
    s0.Keeps M (State.reasonOn s r) := by
  unfold State.reasonOn
  repeat' first
    | with_reducible assumption | exact mask_sub hM (by decide) | with_reducible exact Rg.PWR_THR_CNT_EVENTS_in _
    | with_reducible apply State.bump_keeps | simp only [keeps_power (mask_sub hM (by decide))] | split

theorem State.reasonOff_keeps {s0 : State} {M : Nat} (hM : 17592186046464 ||| M = M) {s : State} (hk : s0.Keeps M s) (r : Nat) :
    s0.Keeps M (State.reasonOff s r) := by
  unfold State.reasonOff
  repeat' first
    | with_reducible assumption | exact mask_sub hM (by decide) | with_reducible exact Rg.PWR_THR_US_DURATION_US_in _
    | with_reducible apply State.bump_keeps | simp only [keeps_power (mask_sub hM (by decide))] | split

theorem State.setReason_keeps {s0 : State} {M : Nat} (hM : 17592186046464 ||| M = M) {s : State} (hk : s0.Keeps M s) (r : Nat) (b
    : Bool) :
    s0.Keeps M (State.setReason s r b) := by
  unfold State.setReason
  repeat' first
    | with_reducible assumption | exact mask_sub hM (by decide) | with_reducible apply State.reasonOff_keeps
    | with_reducible apply State.reasonOn_keeps | with_reducible apply keeps_ite

theorem State.noteCurrent_keeps {s0 : State} {M : Nat} (hM : 17592186046464 ||| M = M) {s : State} (hk : s0.Keeps M s) :
    s0.Keeps M (State.noteCurrent s) := by
  unfold State.noteCurrent
  repeat' first
    | with_reducible assumption | exact mask_sub hM (by decide) | with_reducible apply State.setReason_keeps

theorem State.powerFail_keeps {s0 : State} {M : Nat} (hM : 2305843000623759303 ||| M = M) {s : State} (hk : s0.Keeps M s) (mv :
    Nat) (us : Nat) :
    s0.Keeps M (State.powerFail s mv us) := by
  unfold State.powerFail
  repeat' first
    | with_reducible assumption | exact mask_sub hM (by decide) | with_reducible apply State.holdReset_keeps
    | with_reducible apply State.jobsStop_keeps | with_reducible apply State.pass_keeps
    | simp only [keeps_pins (mask_sub hM (by decide))] | with_reducible apply keeps_ite

theorem State.sagDetect_keeps {s0 : State} {M : Nat} (hM : 17592186046464 ||| M = M) {s : State} (hk : s0.Keeps M s) (mv : Nat)
    (us : Nat) :
    s0.Keeps M (State.sagDetect s mv us) := by
  unfold State.sagDetect
  repeat' first
    | with_reducible assumption | exact mask_sub hM (by decide) | with_reducible exact Rg.PWR_STATUS_SAG_in
    | with_reducible exact Rg.PWR_IRQ_SAG_in | with_reducible apply State.reasonOn_keeps | with_reducible apply State.raise_keeps
    | with_reducible apply keeps_ite

theorem State.setStretched_keeps {s0 : State} {M : Nat} (hM : 17592186046464 ||| M = M) {s : State} (hk : s0.Keeps M s) (l : List
    Nat) :
    s0.Keeps M (State.setStretched s l) := by
  unfold State.setStretched
  repeat' first
    | with_reducible assumption | exact mask_sub hM (by decide) | with_reducible apply State.setReason_keeps
    | simp only [keeps_power (mask_sub hM (by decide))]

theorem State.thermtrip_keeps {s0 : State} {M : Nat} (hM : 800711634461390855 ||| M = M) {s : State} (hk : s0.Keeps M s) (k : Nat)
    (c : Nat) :
    s0.Keeps M (State.thermtrip s k c) := by
  unfold State.thermtrip
  repeat' first
    | with_reducible assumption | exact mask_sub hM (by decide) | with_reducible exact Rg.PWR_STATUS_THERMTRIP_in
    | with_reducible exact Rg.PWR_IRQ_THERMTRIP_in | with_reducible exact Rg.PWR_THERM_MAX_C_in
    | with_reducible exact Rg.PWR_THERM_HOT_CLUSTER_in | with_reducible apply State.noteCurrent_keeps
    | with_reducible apply State.reasonOn_keeps | with_reducible apply State.sense_keeps
    | with_reducible apply State.jobFault_keeps | with_reducible apply State.recomputePool_keeps
    | with_reducible apply State.raise_keeps | with_reducible apply State.setF_keeps
    | with_reducible refine keeps_foldl _ ?_ (fun u x hu => ?_) | simp only [keeps_power_cores (mask_sub hM (by decide))]
    | with_reducible apply keeps_ite

theorem State.drainCore_keeps {s0 : State} {M : Nat} (hM : 218565663073427456 ||| M = M) {s : State} (hk : s0.Keeps M s) (c : Nat) :
    s0.Keeps M (State.drainCore s c) := by
  unfold State.drainCore
  repeat' first
    | with_reducible assumption | exact mask_sub hM (by decide) | with_reducible apply State.withdraw_keeps
    | with_reducible apply State.recomputePool_keeps | with_reducible apply State.modCore_keeps | split | dsimp only

theorem State.coreOn_keeps {s0 : State} {M : Nat} (hM : 274886295552 ||| M = M) {s : State} (hk : s0.Keeps M s) (c : Nat) :
    s0.Keeps M (State.coreOn s c) := by
  unfold State.coreOn
  repeat' first
    | with_reducible assumption | exact mask_sub hM (by decide) | with_reducible apply State.recomputePool_keeps
    | with_reducible apply State.modCore_keeps | split | dsimp only

theorem State.switchOff_keeps {s0 : State} {M : Nat} (hM : 218565663073429504 ||| M = M) (p : Nat) (n : Nat) {s : State} (hk :
    s0.Keeps M s) :
    s0.Keeps M (State.switchOff p n s) := by
  induction n generalizing s with
  | zero => exact hk
  | succ n ih =>
    rw [State.switchOff]
    repeat' first
      | with_reducible assumption | with_reducible apply ih | with_reducible assumption | exact mask_sub hM (by decide)
      | with_reducible apply State.drainCore_keeps | simp only [keeps_power (mask_sub hM (by decide))] | split

theorem State.switchOn_keeps {s0 : State} {M : Nat} (hM : 274886297600 ||| M = M) (p : Nat) (n : Nat) {s : State} (hk : s0.Keeps M
    s) :
    s0.Keeps M (State.switchOn p n s) := by
  induction n generalizing s with
  | zero => exact hk
  | succ n ih =>
    rw [State.switchOn]
    repeat' first
      | with_reducible assumption | with_reducible apply ih | with_reducible assumption | exact mask_sub hM (by decide)
      | with_reducible apply State.coreOn_keeps | simp only [keeps_power (mask_sub hM (by decide))] | split

theorem State.balance_keeps {s0 : State} {M : Nat} (hM : 218565663073429504 ||| M = M) {s : State} (hk : s0.Keeps M s) (p : Nat) :
    s0.Keeps M (State.balance s p) := by
  unfold State.balance
  repeat' first
    | with_reducible assumption | exact mask_sub hM (by decide) | with_reducible apply State.switchOn_keeps
    | with_reducible apply State.switchOff_keeps | with_reducible apply keeps_ite

theorem State.rampOn_keeps {s0 : State} {M : Nat} (hM : 17609374308352 ||| M = M) {s : State} (hk : s0.Keeps M s) (c : Nat) :
    s0.Keeps M (State.rampOn s c) := by
  unfold State.rampOn
  repeat' first
    | with_reducible assumption | exact mask_sub hM (by decide) | with_reducible apply State.noteCurrent_keeps
    | with_reducible apply State.modCore_keeps | with_reducible apply State.passTo_keeps
    | simp only [keeps_power (mask_sub hM (by decide))] | with_reducible apply keeps_ite

theorem State.thermCluster_keeps {s0 : State} {M : Nat} (hM : 218583255259473920 ||| M = M) (m : PowerIn) {s : State} (hk :
    s0.Keeps M s) (k : Nat) :
    s0.Keeps M (State.thermCluster m s k) := by
  unfold State.thermCluster
  repeat' first
    | with_reducible assumption | exact mask_sub hM (by decide) | with_reducible exact Rg.PWR_IRQ_THERMAL_in
    | with_reducible apply State.drainCore_keeps | with_reducible apply State.raise_keeps
    | simp only [keeps_power (mask_sub hM (by decide))] | with_reducible apply keeps_ite | split

theorem State.noteClaim_keeps {s0 : State} {M : Nat} (hM : 17592186046464 ||| M = M) {s : State} (hk : s0.Keeps M s) (c : Claim) :
    s0.Keeps M (State.noteClaim s c) := by
  unfold State.noteClaim
  repeat' first
    | with_reducible assumption | exact mask_sub hM (by decide) | with_reducible exact Rg.PWR_PART_GRANT_REASON_in _
    | with_reducible exact Rg.PWR_IRQ_LIMITED_in | with_reducible exact Rg.PWR_PART_GRANT_GRANT_W_in _
    | with_reducible exact Rg.PWR_PART_GRANT_DEMAND_W_in _ | with_reducible exact Rg.PWR_PART_GRANT_ALLOWED_in _
    | with_reducible exact Rg.PWR_PART_CHARGE_CHARGE_MW_in _ | with_reducible apply State.raise_keeps
    | with_reducible apply State.setF_keeps | simp only [keeps_power (mask_sub hM (by decide))] | with_reducible apply keeps_ite

theorem State.measure_keeps {s0 : State} {M : Nat} (hM : 17592186046464 ||| M = M) {s : State} (hk : s0.Keeps M s) (m : PowerIn) :
    s0.Keeps M (State.measure s m) := by
  unfold State.measure
  repeat' first
    | with_reducible assumption | exact mask_sub hM (by decide) | with_reducible exact Rg.PWR_STATUS_INPUT_MV_in
    | with_reducible exact Rg.PWR_STATUS_INPUT_W_in | with_reducible exact Rg.PWR_ENERGY_ENERGY_MJ_in
    | with_reducible exact Rg.PWR_THERM_MAX_C_in | with_reducible exact Rg.PWR_THERM_HOT_CLUSTER_in
    | with_reducible exact Rg.PWR_STATUS_THERMTRIP_in | with_reducible apply State.incr_keeps
    | with_reducible apply State.setF_keeps | simp only [keeps_power (mask_sub hM (by decide))] | with_reducible apply keeps_ite

theorem State.powerLoop_keeps {s0 : State} {M : Nat} (hM : 218583259554441216 ||| M = M) {s : State} (hk : s0.Keeps M s) (m :
    PowerIn) :
    s0.Keeps M (State.powerLoop s m) := by
  unfold State.powerLoop
  repeat' first
    | with_reducible assumption | exact mask_sub hM (by decide) | with_reducible exact Rg.PWR_BUDGET_BASE_W_in
    | with_reducible exact Rg.PWR_BUDGET_LINKS_W_in | with_reducible exact Rg.PWR_BUDGET_MEMORY_W_in
    | with_reducible exact Rg.PWR_BUDGET_COMPUTE_W_in | with_reducible exact Rg.PWR_STATUS_THERMAL_in
    | with_reducible apply State.measure_keeps | with_reducible apply State.noteClaim_keeps
    | with_reducible apply State.thermCluster_keeps | with_reducible apply State.balance_keeps
    | with_reducible apply State.noteCurrent_keeps | with_reducible apply State.setReason_keeps
    | with_reducible apply State.sense_keeps | with_reducible apply State.setF_keeps
    | with_reducible refine keeps_foldl _ ?_ (fun u x hu => ?_) | with_reducible apply keeps_ite

theorem State.capSet_keeps {s0 : State} {M : Nat} (hM : 17592186044416 ||| M = M) {s : State} (hk : s0.Keeps M s) (v : W64) :
    s0.Keeps M (State.capSet s v) := by
  unfold State.capSet
  repeat' first
    | with_reducible assumption | exact mask_sub hM (by decide) | with_reducible exact Rg.PWR_CAP_SET_REJECT_in
    | with_reducible exact Rg.PWR_CAP_SET_CAP_W_in | with_reducible apply State.raise_keeps
    | with_reducible apply State.setF_keeps | with_reducible apply keeps_ite

theorem State.timeSet_keeps {s0 : State} {M : Nat} (hM : 8796093026304 ||| M = M) {s : State} (hk : s0.Keeps M s) (v : W64) :
    s0.Keeps M (State.timeSet s v) := by
  unfold State.timeSet
  repeat' first
    | with_reducible assumption | exact mask_sub hM (by decide) | with_reducible exact Rg.DEV_PPS_STATS_TIME_SETS_in
    | with_reducible apply State.incr_keeps | simp only [keeps_time (mask_sub hM (by decide))]

theorem State.ppsCapture_keeps {s0 : State} {M : Nat} (hM : 8796093022208 ||| M = M) {s : State} (hk : s0.Keeps M s) :
    s0.Keeps M (State.ppsCapture s) := by
  unfold State.ppsCapture
  repeat' first
    | with_reducible assumption | exact mask_sub hM (by decide) | with_reducible exact Rg.DEV_PPS_CAPTURE_in
    | with_reducible exact Rg.DEV_PPS_STATS_EDGES_in | with_reducible exact Rg.DEV_PPS_OFFSET_OFFSET_in
    | with_reducible apply State.incr_keeps | with_reducible apply State.setF_keeps | with_reducible apply State.wr_keeps

theorem State.ppsReject_keeps {s0 : State} {M : Nat} (hM : 8796093022208 ||| M = M) {s : State} (hk : s0.Keeps M s) :
    s0.Keeps M (State.ppsReject s) := by
  unfold State.ppsReject
  repeat' first
    | with_reducible assumption | exact mask_sub hM (by decide) | with_reducible exact Rg.DEV_PPS_OFFSET_APPLIED_in
    | with_reducible exact Rg.DEV_PPS_STATS_REJECTS_in | with_reducible apply State.incr_keeps
    | with_reducible apply State.setF_keeps

theorem State.ppsApply_keeps {s0 : State} {M : Nat} (hM : 8796093026304 ||| M = M) {s : State} (hk : s0.Keeps M s) :
    s0.Keeps M (State.ppsApply s) := by
  unfold State.ppsApply
  repeat' first
    | with_reducible assumption | exact mask_sub hM (by decide) | with_reducible exact Rg.DEV_PPS_OFFSET_APPLIED_in
    | with_reducible apply State.raise_keeps | simp only [keeps_time (mask_sub hM (by decide))]

theorem State.ppsEdge_keeps {s0 : State} {M : Nat} (hM : 8796093026304 ||| M = M) {s : State} (hk : s0.Keeps M s) (set : Option
    W64) :
    s0.Keeps M (State.ppsEdge s set) := by
  unfold State.ppsEdge
  repeat' first
    | with_reducible assumption | exact mask_sub hM (by decide) | with_reducible apply State.ppsApply_keeps
    | with_reducible apply State.ppsReject_keeps | with_reducible apply State.ppsCapture_keeps
    | with_reducible apply State.timeSet_keeps | with_reducible apply keeps_ite | split

end Sys2Proof.Machine
end

