-- ==== Sys2Proof/Laws/KeepsService.lean ====
section
/-!
SUPPORT. The operations of Machine/Service.lean keep the relation of Laws/Keeps.lean.
-/
namespace Sys2Proof.Machine

theorem State.setMode_keeps {s0 : State} {M : Nat} (hM : 281479271677952 ||| M = M) {s : State} (hk : s0.Keeps M s) (m : Nat) :
    s0.Keeps M (State.setMode s m) := by
  unfold State.setMode
  repeat' first
    | with_reducible assumption | exact mask_sub hM (by decide) | with_reducible exact Rg.SVC_STATE_MODE_in
    | with_reducible apply State.sense_keeps | with_reducible apply State.setF_keeps

theorem State.modSvc_keeps {s0 : State} {M : Nat} (hM : 2147483648 ||| M = M) {s : State} (hk : s0.Keeps M s) (f : ServiceSt →
    ServiceSt) :
    s0.Keeps M (State.modSvc s f) := by
  unfold State.modSvc
  repeat' first
    | with_reducible assumption | exact mask_sub hM (by decide) | simp only [keeps_service (mask_sub hM (by decide))]

theorem State.dspHalt_keeps {s0 : State} {M : Nat} (hM : 4503737066323968 ||| M = M) {s : State} (hk : s0.Keeps M s) (p : Nat) (v
    : Nat) :
    s0.Keeps M (State.dspHalt s p v) := by
  unfold State.dspHalt
  repeat' first
    | with_reducible assumption | exact mask_sub hM (by decide) | with_reducible exact Rg.DSP_CTRL_HALT_in _
    | with_reducible apply State.setF_keeps | with_reducible refine State.modPart_life ?_ ?_ _ _ (fun _ => rfl)
    | with_reducible apply keeps_ite

theorem State.quiescePart_keeps {s0 : State} {M : Nat} (hM : 589971690771972096 ||| M = M) {s : State} (hk : s0.Keeps M s) (p :
    Nat) :
    s0.Keeps M (State.quiescePart s p) := by
  unfold State.quiescePart
  repeat' first
    | with_reducible assumption | exact mask_sub hM (by decide) | with_reducible exact Rg.LDG_CTRL_HALT_in _
    | with_reducible exact Rg.FLT_PART_HELD_in _ | with_reducible apply State.dspHalt_keeps
    | with_reducible apply State.modSvc_keeps | with_reducible apply State.raise_keeps | with_reducible apply State.setF_keeps
    | with_reducible apply keeps_ite

theorem State.quiesce_keeps {s0 : State} {M : Nat} (hM : 590253170043650048 ||| M = M) {s : State} (hk : s0.Keeps M s) :
    s0.Keeps M (State.quiesce s) := by
  unfold State.quiesce
  repeat' first
    | with_reducible assumption | exact mask_sub hM (by decide) | with_reducible exact Rg.SVC_IRQ_QUIESCE_REQ_in
    | with_reducible apply State.quiescePart_keeps | with_reducible apply State.modSvc_keeps
    | with_reducible apply State.setMode_keeps | with_reducible apply State.raise_keeps
    | with_reducible refine keeps_foldl _ ?_ (fun u x hu => ?_) | with_reducible apply keeps_ite

theorem State.portsDown_keeps {s0 : State} {M : Nat} (hM : 800694037971988487 ||| M = M) {s : State} (hk : s0.Keeps M s) :
    s0.Keeps M (State.portsDown s) := by
  unfold State.portsDown
  repeat' first
    | with_reducible assumption | exact mask_sub hM (by decide) | with_reducible apply State.portDown_keeps
    | with_reducible refine keeps_forN _ ?_ (fun u x hu => ?_)

theorem State.enterSafe_keeps {s0 : State} {M : Nat} (hM : 800975517243666439 ||| M = M) {s : State} (hk : s0.Keeps M s) :
    s0.Keeps M (State.enterSafe s) := by
  unfold State.enterSafe
  repeat' first
    | with_reducible assumption | exact mask_sub hM (by decide) | with_reducible exact Rg.SVC_IRQ_SAFE_in
    | with_reducible apply State.portsDown_keeps | with_reducible apply State.setMode_keeps
    | with_reducible apply State.raise_keeps

theorem State.quiesceDone_keeps {s0 : State} {M : Nat} (hM : 800975517243666439 ||| M = M) {s : State} (hk : s0.Keeps M s) :
    s0.Keeps M (State.quiesceDone s) := by
  unfold State.quiesceDone
  repeat' first
    | with_reducible assumption | exact mask_sub hM (by decide) | with_reducible apply State.enterSafe_keeps
    | with_reducible apply keeps_ite

theorem State.quiesceExpire_keeps {s0 : State} {M : Nat} (hM : 800694037971988487 ||| M = M) {s : State} (hk : s0.Keeps M s) :
    s0.Keeps M (State.quiesceExpire s) := by
  unfold State.quiesceExpire
  repeat' first
    | with_reducible assumption | exact mask_sub hM (by decide) | with_reducible apply State.wdogFault_keeps
    | with_reducible apply State.passTo_keeps | with_reducible refine keeps_foldl _ ?_ (fun u x hu => ?_)
    | with_reducible apply keeps_ite | split

theorem State.releasePart_keeps {s0 : State} {M : Nat} (hM : 590042058442407936 ||| M = M) (bits : Nat) {s : State} (hk : s0.Keeps
    M s) (p : Nat) :
    s0.Keeps M (State.releasePart bits s p) := by
  unfold State.releasePart
  repeat' first
    | with_reducible assumption | exact mask_sub hM (by decide) | with_reducible exact Rg.FLT_PART_HELD_in _
    | with_reducible exact Rg.LDG_CTRL_HALT_in _ | with_reducible apply State.dspHalt_keeps
    | with_reducible apply State.startRuntime_keeps | with_reducible apply State.setF_keeps | with_reducible apply keeps_ite

theorem State.resume_keeps {s0 : State} {M : Nat} (hM : 590323539861569536 ||| M = M) {s : State} (hk : s0.Keeps M s) :
    s0.Keeps M (State.resume s) := by
  unfold State.resume
  repeat' first
    | with_reducible assumption | exact mask_sub hM (by decide) | with_reducible apply State.releasePart_keeps
    | with_reducible apply State.modSvc_keeps | with_reducible apply State.setMode_keeps
    | with_reducible refine keeps_foldl _ ?_ (fun u x hu => ?_) | with_reducible apply keeps_ite

theorem State.forceStop_keeps {s0 : State} {M : Nat} (hM : 800975519391150087 ||| M = M) {s : State} (hk : s0.Keeps M s) :
    s0.Keeps M (State.forceStop s) := by
  unfold State.forceStop
  repeat' first
    | with_reducible assumption | exact mask_sub hM (by decide) | with_reducible exact Rg.SVC_IRQ_FORCE_STOP_in
    | with_reducible exact Rg.FLT_PART_HELD_in _ | with_reducible apply State.modSvc_keeps
    | with_reducible apply State.setMode_keeps | with_reducible apply State.jobFault_keeps
    | with_reducible apply State.raise_keeps | with_reducible refine keeps_foldl _ ?_ (fun u x hu => ?_)
    | with_reducible apply keeps_ite

theorem State.stopDone_keeps {s0 : State} {M : Nat} (hM : 800975517243666439 ||| M = M) {s : State} (hk : s0.Keeps M s) :
    s0.Keeps M (State.stopDone s) := by
  unfold State.stopDone
  repeat' first
    | with_reducible assumption | exact mask_sub hM (by decide) | with_reducible exact Rg.SVC_IRQ_SAFE_in
    | with_reducible apply State.portsDown_keeps | with_reducible apply State.setMode_keeps
    | with_reducible apply State.raise_keeps | with_reducible apply keeps_ite

theorem State.recoverySafe_keeps {s0 : State} {M : Nat} (hM : 800975519391150087 ||| M = M) {s : State} (hk : s0.Keeps M s) :
    s0.Keeps M (State.recoverySafe s) := by
  unfold State.recoverySafe
  repeat' first
    | with_reducible assumption | exact mask_sub hM (by decide) | with_reducible apply State.enterSafe_keeps
    | with_reducible apply State.modSvc_keeps | with_reducible apply keeps_ite

theorem State.keyQuiesce_keeps {s0 : State} {M : Nat} (hM : 809982718645891079 ||| M = M) {s : State} (hk : s0.Keeps M s) :
    s0.Keeps M (State.keyQuiesce s) := by
  unfold State.keyQuiesce
  repeat' first
    | with_reducible assumption | exact mask_sub hM (by decide) | with_reducible apply State.recoverySafe_keeps
    | with_reducible apply State.quiesce_keeps | with_reducible apply keeps_ite

theorem State.keyForce_keeps {s0 : State} {M : Nat} (hM : 800975519391150087 ||| M = M) {s : State} (hk : s0.Keeps M s) :
    s0.Keeps M (State.keyForce s) := by
  unfold State.keyForce
  repeat' first
    | with_reducible assumption | exact mask_sub hM (by decide) | with_reducible apply State.recoverySafe_keeps
    | with_reducible apply State.forceStop_keeps | with_reducible apply keeps_ite

theorem State.keyIdentify_keeps {s0 : State} {M : Nat} (hM : 590323539861569536 ||| M = M) {s : State} (hk : s0.Keeps M s) :
    s0.Keeps M (State.keyIdentify s) := by
  unfold State.keyIdentify
  repeat' first
    | with_reducible assumption | exact mask_sub hM (by decide) | with_reducible exact Rg.SVC_STATE_IDENTIFY_in
    | with_reducible exact Rg.SVC_IRQ_IDENTIFY_in | with_reducible apply State.resume_keeps
    | with_reducible apply State.raise_keeps | with_reducible apply State.setF_keeps | with_reducible apply keeps_ite

theorem State.noteHold_keeps {s0 : State} {M : Nat} (hM : 281474976710656 ||| M = M) {s : State} (hk : s0.Keeps M s) (t : Nat) :
    s0.Keeps M (State.noteHold s t) := by
  unfold State.noteHold
  repeat' first
    | with_reducible assumption | exact mask_sub hM (by decide) | with_reducible exact Rg.SVC_STATE_HOLD_100MS_in
    | with_reducible apply State.setF_keeps

theorem State.touch_keeps {s0 : State} {M : Nat} (hM : 281477124194304 ||| M = M) {s : State} (hk : s0.Keeps M s) :
    s0.Keeps M (State.touch s) := by
  unfold State.touch
  repeat' first
    | with_reducible assumption | exact mask_sub hM (by decide) | with_reducible exact Rg.SVC_STATE_KEY_HELD_in
    | with_reducible exact Rg.SVC_STATE_HOLD_100MS_in | with_reducible apply State.modSvc_keeps
    | with_reducible apply State.raise_keeps | with_reducible apply State.setF_keeps | with_reducible apply keeps_ite

theorem State.holdSegment_keeps {s0 : State} {M : Nat} (hM : 281494304067584 ||| M = M) {s : State} (hk : s0.Keeps M s) (i : Nat) :
    s0.Keeps M (State.holdSegment s i) := by
  unfold State.holdSegment
  repeat' first
    | with_reducible assumption | exact mask_sub hM (by decide) | with_reducible apply State.noteHold_keeps
    | with_reducible apply State.modSvc_keeps | with_reducible apply State.passTo_keeps | with_reducible apply keeps_ite | split

theorem State.holdForce_keeps {s0 : State} {M : Nat} (hM : 800975519391150087 ||| M = M) {s : State} (hk : s0.Keeps M s) :
    s0.Keeps M (State.holdForce s) := by
  unfold State.holdForce
  repeat' first
    | with_reducible assumption | exact mask_sub hM (by decide) | with_reducible apply State.noteHold_keeps
    | with_reducible apply State.keyForce_keeps | with_reducible apply State.modSvc_keeps
    | with_reducible apply State.passTo_keeps | with_reducible apply keeps_ite | split

theorem State.keyUp_keeps {s0 : State} {M : Nat} (hM : 810053088463810567 ||| M = M) {s : State} (hk : s0.Keeps M s) :
    s0.Keeps M (State.keyUp s) := by
  unfold State.keyUp
  repeat' first
    | with_reducible assumption | exact mask_sub hM (by decide) | with_reducible exact Rg.SVC_STATE_KEY_HELD_in
    | with_reducible apply State.holdForce_keeps | with_reducible apply State.noteHold_keeps
    | with_reducible apply State.keyIdentify_keeps | with_reducible apply State.keyQuiesce_keeps
    | with_reducible apply State.modSvc_keeps | with_reducible apply State.setF_keeps | with_reducible apply keeps_ite | split

theorem State.presence_keeps {s0 : State} {M : Nat} (hM : 801608831646298119 ||| M = M) {s : State} (hk : s0.Keeps M s) (i : Nat)
    (here : Bool) :
    s0.Keeps M (State.presence s i here) := by
  unfold State.presence
  repeat' first
    | with_reducible assumption | exact mask_sub hM (by decide) | with_reducible exact Rg.SVC_PRESENCE_CAGE_in
    | with_reducible exact Rg.SVC_PRESENCE_CAGE_CHG_in | with_reducible exact Rg.SVC_IRQ_PRESENCE_in
    | with_reducible exact Rg.CCH_PORT_STATUS_PRESENT_in _ | with_reducible exact Rg.CCH_PORT_STATUS_MEDIA_in _
    | with_reducible exact Rg.SVC_PRESENCE_LARRIC_in | with_reducible exact Rg.SVC_PRESENCE_LARRIC_CHG_in
    | with_reducible apply State.linkLoss_keeps | with_reducible apply State.portDown_keeps
    | with_reducible apply State.raise_keeps | with_reducible apply State.setF_keeps | with_reducible apply keeps_ite

end Sys2Proof.Machine
end

