-- ==== Sys2Proof/Laws/KeepsMgmt.lean ====
section
/-!
SUPPORT. The operations of Machine/Mgmt.lean keep the relation of Laws/Keeps.lean.
-/
namespace Sys2Proof.Machine

theorem State.modMgmt_keeps {s0 : State} {M : Nat} (hM : 4294967296 ||| M = M) {s : State} (hk : s0.Keeps M s) (f : MgmtSt →
    MgmtSt) :
    s0.Keeps M (State.modMgmt s f) := by
  unfold State.modMgmt
  repeat' first
    | with_reducible assumption | exact mask_sub hM (by decide) | simp only [keeps_mgmt (mask_sub hM (by decide))]

theorem State.answer_keeps {s0 : State} {M : Nat} (hM : 4294967296 ||| M = M) {s : State} (hk : s0.Keeps M s) (code : Nat) (data :
    Bytes) :
    s0.Keeps M (State.answer s code data) := by
  unfold State.answer
  repeat' first
    | with_reducible assumption | exact mask_sub hM (by decide) | with_reducible apply State.modMgmt_keeps

theorem State.mgmtCmd_keeps {s0 : State} {M : Nat} (hM : 0 ||| M = M) {s : State} (hk : s0.Keeps M s) {act : State → State} (hact
    : ∀ u, s0.Keeps M u → s0.Keeps M (act u)) :
    s0.Keeps M (State.mgmtCmd s act) := by
  unfold State.mgmtCmd
  repeat' first
    | with_reducible assumption | exact mask_sub hM (by decide) | with_reducible apply hact | with_reducible apply keeps_ite

theorem State.mgmtFullCmd_keeps {s0 : State} {M : Nat} (hM : 4294967296 ||| M = M) {s : State} (hk : s0.Keeps M s) {act : State →
    State} (hact : ∀ u, s0.Keeps M u → s0.Keeps M (act u)) :
    s0.Keeps M (State.mgmtFullCmd s act) := by
  unfold State.mgmtFullCmd
  repeat' first
    | with_reducible assumption | exact mask_sub hM (by decide) | with_reducible apply hact
    | with_reducible apply State.mgmtCmd_keeps | with_reducible apply State.answer_keeps | split | intro _

theorem State.senseTemp_keeps {s0 : State} {M : Nat} (hM : 4294967296 ||| M = M) {s : State} (hk : s0.Keeps M s) :
    s0.Keeps M (State.senseTemp s) := by
  unfold State.senseTemp
  repeat' first
    | with_reducible assumption | exact mask_sub hM (by decide) | with_reducible apply State.modMgmt_keeps
    | with_reducible apply State.event_keeps | with_reducible apply keeps_ite

theorem State.sensorUpdate_keeps {s0 : State} {M : Nat} (hM : 4294967296 ||| M = M) {s : State} (hk : s0.Keeps M s) :
    s0.Keeps M (State.sensorUpdate s) := by
  unfold State.sensorUpdate
  repeat' first
    | with_reducible assumption | exact mask_sub hM (by decide) | with_reducible apply State.senseTemp_keeps
    | with_reducible apply State.modMgmt_keeps | with_reducible apply keeps_ite

end Sys2Proof.Machine
end

