-- ==== Sys2Proof/Laws/KeepsRegAccess.lean ====
section
/-!
SUPPORT. The operations of Machine/RegAccess.lean keep the relation of Laws/Keeps.lean.
-/
namespace Sys2Proof.Machine

theorem State.regRead_keeps {s0 : State} {M : Nat} (hM : 1170938110796677121 ||| M = M) {s : State} (hk : s0.Keeps M s) (a : Nat) :
    s0.Keeps M (State.regRead s a) := by
  unfold State.regRead
  repeat' first
    | with_reducible assumption | exact mask_sub hM (by decide) | with_reducible apply State.fltLogPop_keeps
    | with_reducible apply State.selNext_keeps | with_reducible apply State.memLogPop_keeps
    | with_reducible apply State.wr_keeps_any | simp only [keeps_free (mask_sub hM (by decide))]
    | simp only [keeps_bus (mask_sub hM (by decide))] | with_reducible apply keeps_ite | split

theorem State.plainWrite_keeps {s0 : State} {M : Nat} (hM : 1152921504606846976 ||| M = M) {s : State} (hk : s0.Keeps M s) (a :
    Nat) (v : W64) :
    s0.Keeps M (State.plainWrite s a v) := by
  unfold State.plainWrite
  repeat' first
    | with_reducible assumption | exact mask_sub hM (by decide) | with_reducible apply State.wr_keeps_any | split

theorem State.imgCmdWrite_keeps {s0 : State} {M : Nat} (hM : 800699535530127655 ||| M = M) {s : State} (hk : s0.Keeps M s) (v :
    W64) :
    s0.Keeps M (State.imgCmdWrite s v) := by
  unfold State.imgCmdWrite
  repeat' first
    | with_reducible assumption | exact mask_sub hM (by decide) | with_reducible apply State.warmRequest_keeps
    | with_reducible apply State.imgReload_keeps | with_reducible apply State.imgCommit_keeps
    | with_reducible apply State.imgWrite_keeps | with_reducible apply State.imgErase_keeps
    | with_reducible apply State.imgCmd_keeps | with_reducible apply State.imgDone_keeps | split | intro _

theorem State.secCmdWrite_keeps {s0 : State} {M : Nat} (hM : 800764406716166447 ||| M = M) {s : State} (hk : s0.Keeps M s) (v :
    W64) :
    s0.Keeps M (State.secCmdWrite s v) := by
  unfold State.secCmdWrite
  repeat' first
    | with_reducible assumption | exact mask_sub hM (by decide) | with_reducible apply State.idcert_keeps
    | with_reducible apply State.attest_keeps | with_reducible apply State.fuseOwner_keeps
    | with_reducible apply State.commitSvn_keeps | with_reducible apply State.fwCommit_keeps
    | with_reducible apply State.fwWrite_keeps | with_reducible apply State.eraseFw_keeps
    | with_reducible apply State.secCmd_keeps | with_reducible apply State.secDone_keeps
    | with_reducible apply State.warmRequest_keeps | with_reducible apply State.noteFwTarget_keeps | split | intro _

theorem State.fltResetWrite_keeps {s0 : State} {M : Nat} (hM : 800694037980377351 ||| M = M) {s : State} (hk : s0.Keeps M s) (v :
    W64) :
    s0.Keeps M (State.fltResetWrite s v) := by
  unfold State.fltResetWrite
  repeat' first
    | with_reducible assumption | exact mask_sub hM (by decide) | with_reducible apply State.warmRequest_keeps
    | with_reducible apply State.fltResetCore_keeps | with_reducible apply State.askReset_keeps | split

theorem State.repairCmdWrite_keeps {s0 : State} {M : Nat} (hM : 650919679736537096 ||| M = M) {s : State} (hk : s0.Keeps M s) (v :
    W64) :
    s0.Keeps M (State.repairCmdWrite s v) := by
  unfold State.repairCmdWrite
  repeat' first
    | with_reducible assumption | exact mask_sub hM (by decide) | with_reducible apply State.repairApply_keeps
    | with_reducible apply State.fixDone_keeps | with_reducible apply keeps_ite

theorem State.svcCmdWrite_keeps {s0 : State} {M : Nat} (hM : 810053088463810567 ||| M = M) {s : State} (hk : s0.Keeps M s) (v :
    W64) :
    s0.Keeps M (State.svcCmdWrite s v) := by
  unfold State.svcCmdWrite
  repeat' first
    | with_reducible assumption | exact mask_sub hM (by decide) | with_reducible apply State.forceStop_keeps
    | with_reducible apply State.resume_keeps | with_reducible apply State.quiesce_keeps | split

theorem State.partCtrlWrite_keeps {s0 : State} {M : Nat} (hM : 576531259560296448 ||| M = M) {s : State} (hk : s0.Keeps M s) (p :
    Nat) (v : W64) :
    s0.Keeps M (State.partCtrlWrite s p v) := by
  unfold State.partCtrlWrite
  repeat' first
    | with_reducible assumption | exact mask_sub hM (by decide) | with_reducible exact Rg.SEC_PART_CTRL_START_in _
    | with_reducible apply State.partStart_keeps | with_reducible apply State.setF_keeps | with_reducible apply keeps_ite

theorem State.writeSys_keeps {s0 : State} {M : Nat} (hM : 1963006478916251951 ||| M = M) {s : State} (hk : s0.Keeps M s) (a : Nat)
    (v : W64) :
    s0.Keeps M (State.writeSys s a v) := by
  unfold State.writeSys
  repeat' first
    | with_reducible assumption | exact mask_sub hM (by decide) | with_reducible apply State.partCtrlWrite_keeps
    | with_reducible apply State.svcCmdWrite_keeps | with_reducible apply State.repairCmdWrite_keeps
    | with_reducible apply State.fltResetWrite_keeps | with_reducible apply State.secCmdWrite_keeps
    | with_reducible apply State.imgCmdWrite_keeps | with_reducible apply State.plainWrite_keeps
    | with_reducible apply State.timeSet_keeps | with_reducible apply State.capSet_keeps
    | with_reducible apply State.irqRearm_keeps | with_reducible apply State.portCtrl_keeps
    | simp only [keeps_coach (mask_sub hM (by decide))] | with_reducible apply keeps_ite

theorem State.dspCmdWrite_keeps {s0 : State} {M : Nat} (hM : 232120081619611655 ||| M = M) {s : State} (hk : s0.Keeps M s) (p :
    Nat) (v : W64) :
    s0.Keeps M (State.dspCmdWrite s p v) := by
  unfold State.dspCmdWrite
  repeat' first
    | with_reducible assumption | exact mask_sub hM (by decide) | with_reducible apply State.dspRun_keeps
    | with_reducible apply State.dspUnload_keeps | with_reducible apply State.dspLoad_keeps
    | with_reducible apply State.dspDone_keeps | with_reducible apply keeps_ite | split

theorem State.spillCfg_keeps {s0 : State} {M : Nat} (hM : 1152921504606846976 ||| M = M) {s : State} (hk : s0.Keeps M s) (p : Nat)
    (n : Nat) (a : Nat) (v : W64) :
    s0.Keeps M (State.spillCfg s p n a v) := by
  unfold State.spillCfg
  repeat' first
    | with_reducible assumption | exact mask_sub hM (by decide) | with_reducible apply State.plainWrite_keeps
    | with_reducible apply keeps_ite

theorem State.writeChn_keeps {s0 : State} {M : Nat} (hM : 1971629942229168135 ||| M = M) {s : State} (hk : s0.Keeps M s) (p : Nat)
    (rel : Nat) (a : Nat) (v : W64) :
    s0.Keeps M (State.writeChn s p rel a v) := by
  unfold State.writeChn
  repeat' first
    | with_reducible assumption | exact mask_sub hM (by decide) | with_reducible apply State.spillCfg_keeps
    | with_reducible apply State.plainWrite_keeps | with_reducible apply State.chnCmdWrite_keeps
    | with_reducible apply State.epHead_keeps | with_reducible apply State.selDone_keeps
    | with_reducible apply State.sendWrite_keeps | with_reducible apply keeps_ite | split

theorem State.writeLdg_keeps {s0 : State} {M : Nat} (hM : 1962623841345728519 ||| M = M) {s : State} (hk : s0.Keeps M s) (p : Nat)
    (rel : Nat) (a : Nat) (v : W64) :
    s0.Keeps M (State.writeLdg s p rel a v) := by
  unfold State.writeLdg
  repeat' first
    | with_reducible assumption | exact mask_sub hM (by decide) | with_reducible apply State.plainWrite_keeps
    | with_reducible apply State.ldgCmdWrite_keeps | with_reducible apply State.rqHead_keeps
    | with_reducible apply State.sqTail_keeps | with_reducible apply State.pageLow_keeps
    | with_reducible apply State.pageCmdWrite_keeps | with_reducible apply keeps_ite

theorem State.writeDsp_keeps {s0 : State} {M : Nat} (hM : 1962628239394336775 ||| M = M) {s : State} (hk : s0.Keeps M s) (p : Nat)
    (rel : Nat) (a : Nat) (v : W64) :
    s0.Keeps M (State.writeDsp s p rel a v) := by
  unfold State.writeDsp
  repeat' first
    | with_reducible assumption | exact mask_sub hM (by decide) | with_reducible apply State.dspCmdWrite_keeps
    | with_reducible apply State.plainWrite_keeps | with_reducible apply State.dspHalt_keeps
    | with_reducible apply State.cbHead_keeps | with_reducible apply State.cringHead_keeps
    | with_reducible apply State.ctlDone_keeps | with_reducible apply keeps_ite

theorem State.writeAdp_keeps {s0 : State} {M : Nat} (hM : 1263404831012413446 ||| M = M) {s : State} (hk : s0.Keeps M s) (p : Nat)
    (rel : Nat) (a : Nat) (v : W64) :
    s0.Keeps M (State.writeAdp s p rel a v) := by
  unfold State.writeAdp
  repeat' first
    | with_reducible assumption | exact mask_sub hM (by decide) | with_reducible apply State.plainWrite_keeps
    | with_reducible apply State.adpArea_keeps | with_reducible apply State.adpCmdWrite_keeps | with_reducible apply keeps_ite

theorem State.regWrite_keeps {s0 : State} {M : Nat} (hM : 2017049674514428207 ||| M = M) {s : State} (hk : s0.Keeps M s) (a : Nat)
    (v : W64) :
    s0.Keeps M (State.regWrite s a v) := by
  unfold State.regWrite
  repeat' first
    | with_reducible assumption | exact mask_sub hM (by decide) | with_reducible apply State.writeAdp_keeps
    | with_reducible apply State.writeDsp_keeps | with_reducible apply State.writeLdg_keeps
    | with_reducible apply State.writeChn_keeps | with_reducible apply State.writeSys_keeps
    | with_reducible apply State.petDog_keeps | with_reducible apply State.skimDisable_keeps | with_reducible apply keeps_ite
    | split

theorem State.accessFault_keeps {s0 : State} {M : Nat} (hM : 1073741824 ||| M = M) {s : State} (hk : s0.Keeps M s) (n : Nat)
    (write : Bool) :
    s0.Keeps M (State.accessFault s n write) := by
  unfold State.accessFault
  repeat' first
    | with_reducible assumption | exact mask_sub hM (by decide) | with_reducible apply State.modCtl_keeps

theorem State.coreAccess_keeps {s0 : State} {M : Nat} (hM : 140738562113536 ||| M = M) {s : State} (hk : s0.Keeps M s) (n : Nat)
    (a : Nat) (len : Nat) (write : Bool) {act : State → State} (hact : ∀ u, s0.Keeps M u → s0.Keeps M (act u)) :
    s0.Keeps M (State.coreAccess s n a len write act) := by
  unfold State.coreAccess
  repeat' first
    | with_reducible assumption | exact mask_sub hM (by decide) | with_reducible apply hact
    | with_reducible apply State.accessFault_keeps | with_reducible apply State.isolation_keeps | with_reducible apply keeps_ite
    | split

theorem State.hostDeny_keeps {s0 : State} {M : Nat} (hM : 703687441858560 ||| M = M) {s : State} (hk : s0.Keeps M s) (tag : Nat)
    (part : Nat) (st : Nat) (a : Nat) :
    s0.Keeps M (State.hostDeny s tag part st a) := by
  unfold State.hostDeny
  repeat' first
    | with_reducible assumption | exact mask_sub hM (by decide) | with_reducible apply State.errCpl_keeps
    | with_reducible apply State.isolation_keeps | with_reducible apply keeps_ite

theorem State.innkeeperAccess_keeps {s0 : State} {M : Nat} (hM : 1073741825 ||| M = M) {s : State} (hk : s0.Keeps M s) (a : Nat)
    (len : Nat) (write : Bool) {act : State → State} (hact : ∀ u, s0.Keeps M u → s0.Keeps M (act u)) :
    s0.Keeps M (State.innkeeperAccess s a len write act) := by
  unfold State.innkeeperAccess
  repeat' first
    | with_reducible assumption | exact mask_sub hM (by decide) | with_reducible apply hact
    | with_reducible apply State.accessFault_keeps | with_reducible apply State.freeNext_keeps | with_reducible apply keeps_ite

theorem State.access_keeps {s0 : State} {M : Nat} (hM : 703688515600385 ||| M = M) {s : State} (hk : s0.Keeps M s) (who : Actor)
    (a : Nat) (len : Nat) (write : Bool) {act : State → State} (hact : ∀ u, s0.Keeps M u → s0.Keeps M (act u)) :
    s0.Keeps M (State.access s who a len write act) := by
  unfold State.access
  repeat' first
    | with_reducible assumption | exact mask_sub hM (by decide) | with_reducible apply hact
    | with_reducible apply State.innkeeperAccess_keeps | with_reducible apply State.hostDeny_keeps
    | with_reducible apply State.coreAccess_keeps | with_reducible apply keeps_ite | split

theorem State.hostReg_keeps {s0 : State} {M : Nat} (hM : 703696031793152 ||| M = M) {s : State} (hk : s0.Keeps M s) (mtype : Nat)
    (a : Nat) (len : Nat) (tag : Nat) (part : Nat) {act : State → State} (data : State → Bytes) (hact : ∀ u, s0.Keeps M u →
    s0.Keeps M (act u)) :
    s0.Keeps M (State.hostReg s mtype a len tag part act data) := by
  unfold State.hostReg
  repeat' first
    | with_reducible assumption | exact mask_sub hM (by decide) | with_reducible apply hact
    | with_reducible apply State.hostDeny_keeps | with_reducible apply State.takeMsg_keeps
    | with_reducible apply State.sendMsg_keeps | simp only [keeps_bus (mask_sub hM (by decide))] | with_reducible apply keeps_ite
    | split

theorem State.ring_keeps {s0 : State} {M : Nat} (hM : 2017612624467849519 ||| M = M) {s : State} (hk : s0.Keeps M s) (a : Nat) (v
    : W64) :
    s0.Keeps M (State.ring s a v) := by
  unfold State.ring
  repeat' first
    | with_reducible assumption | exact mask_sub hM (by decide) | with_reducible exact Rg.LRL_EVENTS_DB_BAD_in
    | with_reducible apply State.regWrite_keeps | with_reducible apply State.flushHost_keeps
    | with_reducible apply State.takeMsg_keeps | with_reducible apply State.bump_keeps | with_reducible apply keeps_ite

end Sys2Proof.Machine
end

