-- ==== Sys2Proof/Laws/KeepsExec.lean ====
section
/-!
SUPPORT. Every command keeps the relation of Laws/Keeps.lean, with what it may change (Safety.lean), and so does a step but for the
queue.
-/
namespace Sys2Proof.Machine

theorem execGemmTask_keeps {t : Nat} {parity : Bool} {s t0 : State} (e : execGemmTask t parity s = .next t0) : s.Keeps 809706734793256967 t0 := by
  unfold execGemmTask at e
  cases e
  have hM : 809706734793256967 ||| 809706734793256967 = 809706734793256967 := by decide
  have hk := State.Keeps.refl (M := 809706734793256967) s
  repeat' first
    | with_reducible assumption | exact mask_sub hM (by decide) | with_reducible apply State.gemmTask_keeps

theorem execVecTask_keeps {t : Nat} {s t0 : State} (e : execVecTask t s = .next t0) : s.Keeps 800694037980377095 t0 := by
  unfold execVecTask at e
  cases e
  have hM : 800694037980377095 ||| 800694037980377095 = 800694037980377095 := by decide
  have hk := State.Keeps.refl (M := 800694037980377095) s
  repeat' first
    | with_reducible assumption | exact mask_sub hM (by decide) | with_reducible apply State.vecTask_keeps

theorem execCopyTask_keeps {t : Nat} {s t0 : State} (e : execCopyTask t s = .next t0) : s.Keeps 800694037971988487 t0 := by
  unfold execCopyTask at e
  cases e
  have hM : 800694037971988487 ||| 800694037971988487 = 800694037971988487 := by decide
  have hk := State.Keeps.refl (M := 800694037971988487) s
  repeat' first
    | with_reducible assumption | exact mask_sub hM (by decide) | with_reducible apply State.copyTask_keeps

theorem execSkimmerTileServe_keeps {k : Nat} {s t0 : State} (e : execSkimmerTileServe k s = .next t0) : s.Keeps 218565319432724480 t0 := by
  unfold execSkimmerTileServe at e
  cases e
  have hM : 218565319432724480 ||| 218565319432724480 = 218565319432724480 := by decide
  have hk := State.Keeps.refl (M := 218565319432724480) s
  repeat' first
    | with_reducible assumption | exact mask_sub hM (by decide) | with_reducible apply State.skimServe_keeps

theorem execSkmDisableWrite_keeps {k : Nat} {v : W64} {s t0 : State} (e : execSkmDisableWrite k v s = .next t0) : s.Keeps 144115188092633088 t0 := by
  unfold execSkmDisableWrite at e
  cases e
  have hM : 144115188092633088 ||| 144115188092633088 = 144115188092633088 := by decide
  have hk := State.Keeps.refl (M := 144115188092633088) s
  repeat' first
    | with_reducible assumption | exact mask_sub hM (by decide) | with_reducible apply State.skimDisable_keeps

theorem execSkimEncode_keeps {t : Nat} {s t0 : State} (e : execSkimEncode t s = .next t0) : s.Keeps 800694037971988487 t0 := by
  unfold execSkimEncode at e
  cases e
  have hM : 800694037971988487 ||| 800694037971988487 = 800694037971988487 := by decide
  have hk := State.Keeps.refl (M := 800694037971988487) s
  repeat' first
    | with_reducible assumption | exact mask_sub hM (by decide) | with_reducible apply State.skimEncode_keeps

theorem execSkimDecode_keeps {t : Nat} {s t0 : State} (e : execSkimDecode t s = .next t0) : s.Keeps 800694037971988487 t0 := by
  unfold execSkimDecode at e
  cases e
  have hM : 800694037971988487 ||| 800694037971988487 = 800694037971988487 := by decide
  have hk := State.Keeps.refl (M := 800694037971988487) s
  repeat' first
    | with_reducible assumption | exact mask_sub hM (by decide) | with_reducible apply State.skimDecode_keeps

theorem execSkimCheck24_keeps {t : Nat} {s t0 : State} (e : execSkimCheck24 t s = .next t0) : s.Keeps 800694037971988487 t0 := by
  unfold execSkimCheck24 at e
  cases e
  have hM : 800694037971988487 ||| 800694037971988487 = 800694037971988487 := by decide
  have hk := State.Keeps.refl (M := 800694037971988487) s
  repeat' first
    | with_reducible assumption | exact mask_sub hM (by decide) | with_reducible apply State.skimCheck24_keeps

theorem execAttnForward_keeps {t : Nat} {part : PartDrain} {s t0 : State} (e : execAttnForward t part s = .next t0) : s.Keeps 800694037980377095 t0 := by
  unfold execAttnForward at e
  cases e
  have hM : 800694037980377095 ||| 800694037980377095 = 800694037980377095 := by decide
  have hk := State.Keeps.refl (M := 800694037980377095) s
  repeat' first
    | with_reducible assumption | exact mask_sub hM (by decide) | with_reducible apply State.attnForward_keeps

theorem execAttnBackward_keeps {t : Nat} {part : PartDrain} {s t0 : State} (e : execAttnBackward t part s = .next t0) : s.Keeps 800694037980377095 t0 := by
  unfold execAttnBackward at e
  cases e
  have hM : 800694037980377095 ||| 800694037980377095 = 800694037980377095 := by decide
  have hk := State.Keeps.refl (M := 800694037980377095) s
  repeat' first
    | with_reducible assumption | exact mask_sub hM (by decide) | with_reducible apply State.attnBackward_keeps

theorem execAttnVerify_keeps {t : Nat} {s t0 : State} (e : execAttnVerify t s = .next t0) : s.Keeps 800694037980377095 t0 := by
  unfold execAttnVerify at e
  cases e
  have hM : 800694037980377095 ||| 800694037980377095 = 800694037980377095 := by decide
  have hk := State.Keeps.refl (M := 800694037980377095) s
  repeat' first
    | with_reducible assumption | exact mask_sub hM (by decide) | with_reducible apply State.attnVerify_keeps

theorem execDspLoad_keeps {p : Nat} {s t0 : State} (e : execDspLoad p s = .next t0) : s.Keeps 78962492700745728 t0 := by
  unfold execDspLoad at e
  cases e
  have hM : 78962492700745728 ||| 78962492700745728 = 78962492700745728 := by decide
  have hk := State.Keeps.refl (M := 78962492700745728) s
  repeat' first
    | with_reducible assumption | exact mask_sub hM (by decide) | with_reducible apply State.dspLoad_keeps

theorem execDspUnload_keeps {p : Nat} {tag : Nat} {s t0 : State} (e : execDspUnload p tag s = .next t0) : s.Keeps 4503874505277440 t0 := by
  unfold execDspUnload at e
  cases e
  have hM : 4503874505277440 ||| 4503874505277440 = 4503874505277440 := by decide
  have hk := State.Keeps.refl (M := 4503874505277440) s
  repeat' first
    | with_reducible assumption | exact mask_sub hM (by decide) | with_reducible apply State.dspUnload_keeps

theorem execTaskIssue_keeps {s t0 : State} (e : execTaskIssue s = .next t0) : s.Keeps 800694037978279943 t0 := by
  unfold execTaskIssue at e
  cases e
  have hM : 800694037978279943 ||| 800694037978279943 = 800694037978279943 := by decide
  have hk := State.Keeps.refl (M := 800694037978279943) s
  repeat' first
    | with_reducible assumption | exact mask_sub hM (by decide) | with_reducible apply State.issueStep_keeps

theorem execArraysFinish_keeps {c : Nat} {s t0 : State} (e : execArraysFinish c s = .next t0) : s.Keeps 218565388195258368 t0 := by
  unfold execArraysFinish at e
  cases e
  have hM : 218565388195258368 ||| 218565388195258368 = 218565388195258368 := by decide
  have hk := State.Keeps.refl (M := 218565388195258368) s
  repeat' first
    | with_reducible assumption | exact mask_sub hM (by decide) | with_reducible apply State.arraysFinish_keeps

theorem execLinkBufferHandover_keeps {c : Nat} {link : Nat} {produce : Bool} {s t0 : State} (e : execLinkBufferHandover c link produce s = .next t0) : s.Keeps 72057594037927936 t0 := by
  unfold execLinkBufferHandover at e
  cases e
  have hM : 72057594037927936 ||| 72057594037927936 = 72057594037927936 := by decide
  have hk := State.Keeps.refl (M := 72057594037927936) s
  repeat' first
    | with_reducible assumption | exact mask_sub hM (by decide) | with_reducible apply State.linkHandover_keeps

theorem execArrayRampDown_keeps {c : Nat} {s t0 : State} (e : execArrayRampDown c s = .next t0) : s.Keeps 72057594046316544 t0 := by
  unfold execArrayRampDown at e
  cases e
  have hM : 72057594046316544 ||| 72057594046316544 = 72057594046316544 := by decide
  have hk := State.Keeps.refl (M := 72057594046316544) s
  repeat' first
    | with_reducible assumption | exact mask_sub hM (by decide) | with_reducible apply State.rampDown_keeps

theorem execMcastBlockRead_keeps {g : Nat} {s t0 : State} (e : execMcastBlockRead g s = .next t0) : s.Keeps 74450131374694402 t0 := by
  unfold execMcastBlockRead at e
  cases e
  have hM : 74450131374694402 ||| 74450131374694402 = 74450131374694402 := by decide
  have hk := State.Keeps.refl (M := 74450131374694402) s
  repeat' first
    | with_reducible assumption | exact mask_sub hM (by decide) | with_reducible apply State.mcastRead_keeps

theorem execTaskComplete_keeps {t : Nat} {s t0 : State} (e : execTaskComplete t s = .next t0) : s.Keeps 233245982079053831 t0 := by
  unfold execTaskComplete at e
  cases e
  have hM : 233245982079053831 ||| 233245982079053831 = 233245982079053831 := by decide
  have hk := State.Keeps.refl (M := 233245982079053831) s
  repeat' first
    | with_reducible assumption | exact mask_sub hM (by decide) | with_reducible apply State.finishTask_keeps
    | with_reducible apply keeps_ite | split

theorem execCtlDone_keeps {p : Nat} {v : W64} {s t0 : State} (e : execCtlDone p v s = .next t0) : s.Keeps 809706734785392647 t0 := by
  unfold execCtlDone at e
  cases e
  have hM : 809706734785392647 ||| 809706734785392647 = 809706734785392647 := by decide
  have hk := State.Keeps.refl (M := 809706734785392647) s
  repeat' first
    | with_reducible assumption | exact mask_sub hM (by decide) | with_reducible apply State.ctlDone_keeps

theorem execCtlWdogExpiry_keeps {t : Nat} {s t0 : State} (e : execCtlWdogExpiry t s = .next t0) : s.Keeps 800694037971988487 t0 := by
  unfold execCtlWdogExpiry at e
  cases e
  have hM : 800694037971988487 ||| 800694037971988487 = 800694037971988487 := by decide
  have hk := State.Keeps.refl (M := 800694037971988487) s
  repeat' first
    | with_reducible assumption | exact mask_sub hM (by decide) | with_reducible apply State.wdogFault_keeps
    | with_reducible apply State.passTo_keeps | with_reducible apply keeps_ite | split

theorem execCringHeadWrite_keeps {p : Nat} {v : W64} {s t0 : State} (e : execCringHeadWrite p v s = .next t0) : s.Keeps 78989791512883206 t0 := by
  unfold execCringHeadWrite at e
  cases e
  have hM : 78989791512883206 ||| 78989791512883206 = 78989791512883206 := by decide
  have hk := State.Keeps.refl (M := 78989791512883206) s
  repeat' first
    | with_reducible assumption | exact mask_sub hM (by decide) | with_reducible apply State.cringHead_keeps

theorem execCbHeadWrite_keeps {p : Nat} {v : W64} {s t0 : State} (e : execCbHeadWrite p v s = .next t0) : s.Keeps 78954280723275782 t0 := by
  unfold execCbHeadWrite at e
  cases e
  have hM : 78954280723275782 ||| 78954280723275782 = 78954280723275782 := by decide
  have hk := State.Keeps.refl (M := 78954280723275782) s
  repeat' first
    | with_reducible assumption | exact mask_sub hM (by decide) | with_reducible apply State.cbHead_keeps

theorem execPoolRecompute_keeps {p : Nat} {s t0 : State} (e : execPoolRecompute p s = .next t0) : s.Keeps 274877906944 t0 := by
  unfold execPoolRecompute at e
  cases e
  have hM : 274877906944 ||| 274877906944 = 274877906944 := by decide
  have hk := State.Keeps.refl (M := 274877906944) s
  repeat' first
    | with_reducible assumption | exact mask_sub hM (by decide) | with_reducible apply State.recomputePool_keeps
    | with_reducible apply keeps_ite

theorem execPageWalk_keeps {t : Nat} {part : Nat} {entry : Nat} {layer : Nat} {head : Nat} {blk : Nat} {half : Nat} {s t0 : State} (e : execPageWalk t part entry layer head blk half s = .next t0) : s.Keeps 800694037971988487 t0 := by
  unfold execPageWalk at e
  cases e
  have hM : 800694037971988487 ||| 800694037971988487 = 800694037971988487 := by decide
  have hk := State.Keeps.refl (M := 800694037971988487) s
  repeat' first
    | with_reducible assumption | exact mask_sub hM (by decide) | with_reducible apply State.pageWalk_keeps

theorem execPinWaitResume_keeps {t : Nat} {page : Nat} {s t0 : State} (e : execPinWaitResume t page s = .next t0) : s.Keeps 218565388136800256 t0 := by
  unfold execPinWaitResume at e
  cases e
  have hM : 218565388136800256 ||| 218565388136800256 = 218565388136800256 := by decide
  have hk := State.Keeps.refl (M := 218565388136800256) s
  repeat' first
    | with_reducible assumption | exact mask_sub hM (by decide) | with_reducible apply State.pinResume_keeps

theorem execPageRef_keeps {p : Nat} {page : Nat} {s t0 : State} (e : execPageRef p page s = .next t0) : s.Keeps 809701237226729479 t0 := by
  unfold execPageRef at e
  cases e
  have hM : 809701237226729479 ||| 809701237226729479 = 809701237226729479 := by decide
  have hk := State.Keeps.refl (M := 809701237226729479) s
  repeat' first
    | with_reducible assumption | exact mask_sub hM (by decide) | with_reducible apply State.pageRef_keeps

theorem execPageUnref_keeps {p : Nat} {page : Nat} {s t0 : State} (e : execPageUnref p page s = .next t0) : s.Keeps 809701237226729479 t0 := by
  unfold execPageUnref at e
  cases e
  have hM : 809701237226729479 ||| 809701237226729479 = 809701237226729479 := by decide
  have hk := State.Keeps.refl (M := 809701237226729479) s
  repeat' first
    | with_reducible assumption | exact mask_sub hM (by decide) | with_reducible apply State.pageUnref_keeps

theorem execPageRead_keeps {p : Nat} {page : Nat} {s t0 : State} (e : execPageRead p page s = .next t0) : s.Keeps 809701237226729479 t0 := by
  unfold execPageRead at e
  cases e
  have hM : 809701237226729479 ||| 809701237226729479 = 809701237226729479 := by decide
  have hk := State.Keeps.refl (M := 809701237226729479) s
  repeat' first
    | with_reducible assumption | exact mask_sub hM (by decide) | with_reducible apply State.pageRead_keeps

theorem execPageLowWrite_keeps {p : Nat} {v : W64} {s t0 : State} (e : execPageLowWrite p v s = .next t0) : s.Keeps 9007199254740992 t0 := by
  unfold execPageLowWrite at e
  cases e
  have hM : 9007199254740992 ||| 9007199254740992 = 9007199254740992 := by decide
  have hk := State.Keeps.refl (M := 9007199254740992) s
  repeat' first
    | with_reducible assumption | exact mask_sub hM (by decide) | with_reducible apply State.pageLow_keeps
    | with_reducible apply keeps_ite

theorem execMemSlotGrant_keeps {n : Nat} {s t0 : State} (e : execMemSlotGrant n s = .next t0) : s.Keeps 74450131340025858 t0 := by
  unfold execMemSlotGrant at e
  cases e
  have hM : 74450131340025858 ||| 74450131340025858 = 74450131340025858 := by decide
  have hk := State.Keeps.refl (M := 74450131340025858) s
  repeat' first
    | with_reducible assumption | exact mask_sub hM (by decide) | with_reducible apply State.slotGrant_keeps

theorem execRepairWrite_keeps {s t0 : State} (e : execRepairWrite s = .next t0) : s.Keeps 8194 t0 := by
  unfold execRepairWrite at e
  cases e
  have hM : 8194 ||| 8194 = 8194 := by decide
  have hk := State.Keeps.refl (M := 8194) s
  repeat' first
    | with_reducible assumption | exact mask_sub hM (by decide) | with_reducible apply State.repairLine_keeps | split

theorem execScrubRead_keeps {s t0 : State} (e : execScrubRead s = .next t0) : s.Keeps 74450131340025858 t0 := by
  unfold execScrubRead at e
  cases e
  have hM : 74450131340025858 ||| 74450131340025858 = 74450131340025858 := by decide
  have hk := State.Keeps.refl (M := 74450131340025858) s
  repeat' first
    | with_reducible assumption | exact mask_sub hM (by decide) | with_reducible apply State.scrub_keeps
    | with_reducible apply keeps_ite

theorem execWriteQueueResume_keeps {n : Nat} {s t0 : State} (e : execWriteQueueResume n s = .next t0) : s.Keeps 74450131340025858 t0 := by
  unfold execWriteQueueResume at e
  cases e
  have hM : 74450131340025858 ||| 74450131340025858 = 74450131340025858 := by decide
  have hk := State.Keeps.refl (M := 74450131340025858) s
  repeat' first
    | with_reducible assumption | exact mask_sub hM (by decide) | with_reducible apply State.queueResume_keeps

theorem execMemLogPop_keeps {s t0 : State} (e : execMemLogPop s = .next t0) : s.Keeps 8589967360 t0 := by
  unfold execMemLogPop at e
  cases e
  have hM : 8589967360 ||| 8589967360 = 8589967360 := by decide
  have hk := State.Keeps.refl (M := 8589967360) s
  repeat' first
    | with_reducible assumption | exact mask_sub hM (by decide) | with_reducible apply State.memLogPop_keeps

theorem execChnAppend_keeps {p : Nat} {port : Nat} {v : W64} {s t0 : State} (e : execChnAppend p port v s = .next t0) : s.Keeps 818708437622321159 t0 := by
  unfold execChnAppend at e
  cases e
  have hM : 818708437622321159 ||| 818708437622321159 = 818708437622321159 := by decide
  have hk := State.Keeps.refl (M := 818708437622321159) s
  repeat' first
    | with_reducible assumption | exact mask_sub hM (by decide) | with_reducible apply State.sendWrite_keeps
    | with_reducible apply keeps_ite

theorem execChnPutAt_keeps {p : Nat} {port : Nat} {v : W64} {s t0 : State} (e : execChnPutAt p port v s = .next t0) : s.Keeps 818708437622321159 t0 := by
  unfold execChnPutAt at e
  cases e
  have hM : 818708437622321159 ||| 818708437622321159 = 818708437622321159 := by decide
  have hk := State.Keeps.refl (M := 818708437622321159) s
  repeat' first
    | with_reducible assumption | exact mask_sub hM (by decide) | with_reducible apply State.sendWrite_keeps
    | with_reducible apply keeps_ite

theorem execChnContrib_keeps {p : Nat} {port : Nat} {v : W64} {s t0 : State} (e : execChnContrib p port v s = .next t0) : s.Keeps 818708437622321159 t0 := by
  unfold execChnContrib at e
  cases e
  have hM : 818708437622321159 ||| 818708437622321159 = 818708437622321159 := by decide
  have hk := State.Keeps.refl (M := 818708437622321159) s
  repeat' first
    | with_reducible assumption | exact mask_sub hM (by decide) | with_reducible apply State.sendWrite_keeps
    | with_reducible apply keeps_ite

theorem execSendCreditResume_keeps {p : Nat} {port : Nat} {s t0 : State} (e : execSendCreditResume p port s = .next t0) : s.Keeps 818708437622321159 t0 := by
  unfold execSendCreditResume at e
  cases e
  have hM : 818708437622321159 ||| 818708437622321159 = 818708437622321159 := by decide
  have hk := State.Keeps.refl (M := 818708437622321159) s
  repeat' first
    | with_reducible assumption | exact mask_sub hM (by decide) | with_reducible apply State.pump_keeps

theorem execSendSpill_keeps {p : Nat} {port : Nat} {s t0 : State} (e : execSendSpill p port s = .next t0) : s.Keeps 818708437622321159 t0 := by
  unfold execSendSpill at e
  cases e
  have hM : 818708437622321159 ||| 818708437622321159 = 818708437622321159 := by decide
  have hk := State.Keeps.refl (M := 818708437622321159) s
  repeat' first
    | with_reducible assumption | exact mask_sub hM (by decide) | with_reducible apply State.sendSpill_keeps

theorem execMessageLand_keeps {h : Nat} {s t0 : State} (e : execMessageLand h s = .next t0) : s.Keeps 818708437622321159 t0 := by
  unfold execMessageLand at e
  cases e
  have hM : 818708437622321159 ||| 818708437622321159 = 818708437622321159 := by decide
  have hk := State.Keeps.refl (M := 818708437622321159) s
  repeat' first
    | with_reducible assumption | exact mask_sub hM (by decide) | with_reducible apply State.messageLand_keeps

theorem execSelNext_keeps {p : Nat} {g : Nat} {s t0 : State} (e : execSelNext p g s = .next t0) : s.Keeps 18016606189780992 t0 := by
  unfold execSelNext at e
  cases e
  have hM : 18016606189780992 ||| 18016606189780992 = 18016606189780992 := by decide
  have hk := State.Keeps.refl (M := 18016606189780992) s
  repeat' first
    | with_reducible assumption | exact mask_sub hM (by decide) | with_reducible apply State.selNext_keeps
    | with_reducible apply keeps_ite

theorem execSelDone_keeps {p : Nat} {g : Nat} {v : W64} {s t0 : State} (e : execSelDone p g v s = .next t0) : s.Keeps 18016597599846400 t0 := by
  unfold execSelDone at e
  cases e
  have hM : 18016597599846400 ||| 18016597599846400 = 18016597599846400 := by decide
  have hk := State.Keeps.refl (M := 18016597599846400) s
  repeat' first
    | with_reducible assumption | exact mask_sub hM (by decide) | with_reducible apply State.selDone_keeps
    | with_reducible apply keeps_ite

theorem execEpHeadWrite_keeps {p : Nat} {v : W64} {s t0 : State} (e : execEpHeadWrite p v s = .next t0) : s.Keeps 18014398576590848 t0 := by
  unfold execEpHeadWrite at e
  cases e
  have hM : 18014398576590848 ||| 18014398576590848 = 18014398576590848 := by decide
  have hk := State.Keeps.refl (M := 18014398576590848) s
  repeat' first
    | with_reducible assumption | exact mask_sub hM (by decide) | with_reducible apply State.epHead_keeps
    | with_reducible apply keeps_ite

theorem execChnOpen_keeps {p : Nat} {s t0 : State} (e : execChnOpen p s = .next t0) : s.Keeps 92464530185117702 t0 := by
  unfold execChnOpen at e
  cases e
  have hM : 92464530185117702 ||| 92464530185117702 = 92464530185117702 := by decide
  have hk := State.Keeps.refl (M := 92464530185117702) s
  repeat' first
    | with_reducible assumption | exact mask_sub hM (by decide) | with_reducible apply State.chnOpen_keeps

theorem execChnClose_keeps {p : Nat} {handle : Nat} {churn : Bool} {s t0 : State} (e : execChnClose p handle churn s = .next t0) : s.Keeps 818708437622321159 t0 := by
  unfold execChnClose at e
  cases e
  have hM : 818708437622321159 ||| 818708437622321159 = 818708437622321159 := by decide
  have hk := State.Keeps.refl (M := 818708437622321159) s
  repeat' first
    | with_reducible assumption | exact mask_sub hM (by decide) | with_reducible apply State.chnClose_keeps

theorem execEndpointFree_keeps {h : Nat} {s t0 : State} (e : execEndpointFree h s = .next t0) : s.Keeps 18016597599846400 t0 := by
  unfold execEndpointFree at e
  cases e
  have hM : 18016597599846400 ||| 18016597599846400 = 18016597599846400 := by decide
  have hk := State.Keeps.refl (M := 18016597599846400) s
  repeat' first
    | with_reducible assumption | exact mask_sub hM (by decide) | with_reducible apply State.endpointFree_keeps

theorem execChurnAdd_keeps {q : Nat} {s t0 : State} (e : execChurnAdd q s = .next t0) : s.Keeps 818708437622321159 t0 := by
  unfold execChurnAdd at e
  cases e
  have hM : 818708437622321159 ||| 818708437622321159 = 818708437622321159 := by decide
  have hk := State.Keeps.refl (M := 818708437622321159) s
  repeat' first
    | with_reducible assumption | exact mask_sub hM (by decide) | with_reducible apply State.churnAdd_keeps

theorem execChurnNoticePlace_keeps {q : Nat} {s t0 : State} (e : execChurnNoticePlace q s = .next t0) : s.Keeps 92466729342590982 t0 := by
  unfold execChurnNoticePlace at e
  cases e
  have hM : 92466729342590982 ||| 92466729342590982 = 92466729342590982 := by decide
  have hk := State.Keeps.refl (M := 92466729342590982) s
  repeat' first
    | with_reducible assumption | exact mask_sub hM (by decide) | with_reducible apply State.deliverRound_keeps
    | with_reducible apply State.placeNotice_keeps

theorem execDspRun_keeps {p : Nat} {tag : Nat} {s t0 : State} (e : execDspRun p tag s = .next t0) : s.Keeps 232117745157402631 t0 := by
  unfold execDspRun at e
  cases e
  have hM : 232117745157402631 ||| 232117745157402631 = 232117745157402631 := by decide
  have hk := State.Keeps.refl (M := 232117745157402631) s
  repeat' first
    | with_reducible assumption | exact mask_sub hM (by decide) | with_reducible apply State.dspRun_keeps

theorem execLedgerStepTrigger_keeps {p : Nat} {tag : Nat} {s t0 : State} (e : execLedgerStepTrigger p tag s = .next t0) : s.Keeps 87998090315427847 t0 := by
  unfold execLedgerStepTrigger at e
  cases e
  have hM : 87998090315427847 ||| 87998090315427847 = 87998090315427847 := by decide
  have hk := State.Keeps.refl (M := 87998090315427847) s
  repeat' first
    | with_reducible assumption | exact mask_sub hM (by decide) | with_reducible apply State.ledgerTrigger_keeps

theorem execStepSettle_keeps {p : Nat} {tag : Nat} {s t0 : State} (e : execStepSettle p tag s = .next t0) : s.Keeps 227578909582680071 t0 := by
  unfold execStepSettle at e
  cases e
  have hM : 227578909582680071 ||| 227578909582680071 = 227578909582680071 := by decide
  have hk := State.Keeps.refl (M := 227578909582680071) s
  repeat' first
    | with_reducible assumption | exact mask_sub hM (by decide) | with_reducible apply State.stepSettle_keeps

theorem execGatePass_keeps {e : Nat} {s t0 : State} (e : execGatePass e s = .next t0) : s.Keeps 83458430106984454 t0 := by
  unfold execGatePass at e
  cases e
  have hM : 83458430106984454 ||| 83458430106984454 = 83458430106984454 := by decide
  have hk := State.Keeps.refl (M := 83458430106984454) s
  repeat' first
    | with_reducible assumption | exact mask_sub hM (by decide) | with_reducible apply State.gatePass_keeps

theorem execLdgSqTailWrite_keeps {p : Nat} {v : W64} {s t0 : State} (e : execLdgSqTailWrite p v s = .next t0) : s.Keeps 9007199254740992 t0 := by
  unfold execLdgSqTailWrite at e
  cases e
  have hM : 9007199254740992 ||| 9007199254740992 = 9007199254740992 := by decide
  have hk := State.Keeps.refl (M := 9007199254740992) s
  repeat' first
    | with_reducible assumption | exact mask_sub hM (by decide) | with_reducible apply State.sqTail_keeps

theorem execSubmit_keeps {p : Nat} {s t0 : State} (e : execSubmit p s = .next t0) : s.Keeps 227578635241644039 t0 := by
  unfold execSubmit at e
  cases e
  have hM : 227578635241644039 ||| 227578635241644039 = 227578635241644039 := by decide
  have hk := State.Keeps.refl (M := 227578635241644039) s
  repeat' first
    | with_reducible assumption | exact mask_sub hM (by decide) | with_reducible apply State.sqStep_keeps

theorem execCancel_keeps {p : Nat} {s t0 : State} (e : execCancel p s = .next t0) : s.Keeps 227578635241644039 t0 := by
  unfold execCancel at e
  cases e
  have hM : 227578635241644039 ||| 227578635241644039 = 227578635241644039 := by decide
  have hk := State.Keeps.refl (M := 227578635241644039) s
  repeat' first
    | with_reducible assumption | exact mask_sub hM (by decide) | with_reducible apply State.sqStep_keeps

theorem execExtend_keeps {p : Nat} {s t0 : State} (e : execExtend p s = .next t0) : s.Keeps 227578635241644039 t0 := by
  unfold execExtend at e
  cases e
  have hM : 227578635241644039 ||| 227578635241644039 = 227578635241644039 := by decide
  have hk := State.Keeps.refl (M := 227578635241644039) s
  repeat' first
    | with_reducible assumption | exact mask_sub hM (by decide) | with_reducible apply State.sqStep_keeps

theorem execPause_keeps {p : Nat} {s t0 : State} (e : execPause p s = .next t0) : s.Keeps 227578635241644039 t0 := by
  unfold execPause at e
  cases e
  have hM : 227578635241644039 ||| 227578635241644039 = 227578635241644039 := by decide
  have hk := State.Keeps.refl (M := 227578635241644039) s
  repeat' first
    | with_reducible assumption | exact mask_sub hM (by decide) | with_reducible apply State.sqStep_keeps

theorem execResume_keeps {p : Nat} {s t0 : State} (e : execResume p s = .next t0) : s.Keeps 227578635241644039 t0 := by
  unfold execResume at e
  cases e
  have hM : 227578635241644039 ||| 227578635241644039 = 227578635241644039 := by decide
  have hk := State.Keeps.refl (M := 227578635241644039) s
  repeat' first
    | with_reducible assumption | exact mask_sub hM (by decide) | with_reducible apply State.sqStep_keeps

theorem execRelease_keeps {p : Nat} {s t0 : State} (e : execRelease p s = .next t0) : s.Keeps 227578635241644039 t0 := by
  unfold execRelease at e
  cases e
  have hM : 227578635241644039 ||| 227578635241644039 = 227578635241644039 := by decide
  have hk := State.Keeps.refl (M := 227578635241644039) s
  repeat' first
    | with_reducible assumption | exact mask_sub hM (by decide) | with_reducible apply State.sqStep_keeps

theorem execFinish_keeps {p : Nat} {s t0 : State} (e : execFinish p s = .next t0) : s.Keeps 227578635241644039 t0 := by
  unfold execFinish at e
  cases e
  have hM : 227578635241644039 ||| 227578635241644039 = 227578635241644039 := by decide
  have hk := State.Keeps.refl (M := 227578635241644039) s
  repeat' first
    | with_reducible assumption | exact mask_sub hM (by decide) | with_reducible apply State.sqStep_keeps

theorem execLdgRqHeadWrite_keeps {p : Nat} {v : W64} {s t0 : State} (e : execLdgRqHeadWrite p v s = .next t0) : s.Keeps 83458979862798342 t0 := by
  unfold execLdgRqHeadWrite at e
  cases e
  have hM : 83458979862798342 ||| 83458979862798342 = 83458979862798342 := by decide
  have hk := State.Keeps.refl (M := 83458979862798342) s
  repeat' first
    | with_reducible assumption | exact mask_sub hM (by decide) | with_reducible apply State.rqHead_keeps
    | with_reducible apply keeps_ite

theorem execLdgEntryRead_keeps {p : Nat} {e : Nat} {s t0 : State} (e : execLdgEntryRead p e s = .next t0) : s.Keeps 9147936743112704 t0 := by
  unfold execLdgEntryRead at e
  cases e
  have hM : 9147936743112704 ||| 9147936743112704 = 9147936743112704 := by decide
  have hk := State.Keeps.refl (M := 9147936743112704) s
  repeat' first
    | with_reducible assumption | exact mask_sub hM (by decide) | with_reducible apply State.ldgRead_keeps

theorem execBatchWindowExpiry_keeps {p : Nat} {tag : Nat} {s t0 : State} (e : execBatchWindowExpiry p tag s = .next t0) : s.Keeps 83458447286333446 t0 := by
  unfold execBatchWindowExpiry at e
  cases e
  have hM : 83458447286333446 ||| 83458447286333446 = 83458447286333446 := by decide
  have hk := State.Keeps.refl (M := 83458447286333446) s
  repeat' first
    | with_reducible assumption | exact mask_sub hM (by decide) | with_reducible apply State.batchExpiry_keeps

theorem execBatchDeadlineClose_keeps {p : Nat} {tag : Nat} {s t0 : State} (e : execBatchDeadlineClose p tag s = .next t0) : s.Keeps 83458447286333446 t0 := by
  unfold execBatchDeadlineClose at e
  cases e
  have hM : 83458447286333446 ||| 83458447286333446 = 83458447286333446 := by decide
  have hk := State.Keeps.refl (M := 83458447286333446) s
  repeat' first
    | with_reducible assumption | exact mask_sub hM (by decide) | with_reducible apply State.batchDeadline_keeps

theorem execBudgetEnter_keeps {p : Nat} {s t0 : State} (e : execBudgetEnter p s = .next t0) : s.Keeps 9007216435138560 t0 := by
  unfold execBudgetEnter at e
  cases e
  have hM : 9007216435138560 ||| 9007216435138560 = 9007216435138560 := by decide
  have hk := State.Keeps.refl (M := 9007216435138560) s
  repeat' first
    | with_reducible assumption | exact mask_sub hM (by decide) | with_reducible apply State.budgetEnter_keeps

theorem execBudgetLeave_keeps {p : Nat} {s t0 : State} (e : execBudgetLeave p s = .next t0) : s.Keeps 83458430106984454 t0 := by
  unfold execBudgetLeave at e
  cases e
  have hM : 83458430106984454 ||| 83458430106984454 = 83458430106984454 := by decide
  have hk := State.Keeps.refl (M := 83458430106984454) s
  repeat' first
    | with_reducible assumption | exact mask_sub hM (by decide) | with_reducible apply State.budgetLeave_keeps

theorem execPressureBegin_keeps {p : Nat} {s t0 : State} (e : execPressureBegin p s = .next t0) : s.Keeps 83457897531043847 t0 := by
  unfold execPressureBegin at e
  cases e
  have hM : 83457897531043847 ||| 83457897531043847 = 83457897531043847 := by decide
  have hk := State.Keeps.refl (M := 83457897531043847) s
  repeat' first
    | with_reducible assumption | exact mask_sub hM (by decide) | with_reducible apply State.pressureBegin_keeps

theorem execPressureEnd_keeps {p : Nat} {s t0 : State} (e : execPressureEnd p s = .next t0) : s.Keeps 83458979862798343 t0 := by
  unfold execPressureEnd at e
  cases e
  have hM : 83458979862798343 ||| 83458979862798343 = 83458979862798343 := by decide
  have hk := State.Keeps.refl (M := 83458979862798343) s
  repeat' first
    | with_reducible assumption | exact mask_sub hM (by decide) | with_reducible apply State.pressureEnd_keeps

theorem execDeadlinePass_keeps {e : Nat} {s t0 : State} (e : execDeadlinePass e s = .next t0) : s.Keeps 227577552373018631 t0 := by
  unfold execDeadlinePass at e
  cases e
  have hM : 227577552373018631 ||| 227577552373018631 = 227577552373018631 := by decide
  have hk := State.Keeps.refl (M := 227577552373018631) s
  repeat' first
    | with_reducible assumption | exact mask_sub hM (by decide) | with_reducible apply State.deadlinePass_keeps

theorem execAdpBind_keeps {p : Nat} {slot : Nat} {customer : Nat} {s t0 : State} (e : execAdpBind p slot customer s = .next t0) : s.Keeps 36033195065475072 t0 := by
  unfold execAdpBind at e
  cases e
  have hM : 36033195065475072 ||| 36033195065475072 = 36033195065475072 := by decide
  have hk := State.Keeps.refl (M := 36033195065475072) s
  repeat' first
    | with_reducible assumption | exact mask_sub hM (by decide) | with_reducible apply State.adpBind_keeps

theorem execAdpUnbind_keeps {p : Nat} {slot : Nat} {s t0 : State} (e : execAdpUnbind p slot s = .next t0) : s.Keeps 36033195065475072 t0 := by
  unfold execAdpUnbind at e
  cases e
  have hM : 36033195065475072 ||| 36033195065475072 = 36033195065475072 := by decide
  have hk := State.Keeps.refl (M := 36033195065475072) s
  repeat' first
    | with_reducible assumption | exact mask_sub hM (by decide) | with_reducible apply State.adpUnbind_keeps

theorem execAdpPublish_keeps {p : Nat} {slot : Nat} {s t0 : State} (e : execAdpPublish p slot s = .next t0) : s.Keeps 110483326405566470 t0 := by
  unfold execAdpPublish at e
  cases e
  have hM : 110483326405566470 ||| 110483326405566470 = 110483326405566470 := by decide
  have hk := State.Keeps.refl (M := 110483326405566470) s
  repeat' first
    | with_reducible assumption | exact mask_sub hM (by decide) | with_reducible apply State.adpPublish_keeps

theorem execAdpAreaWrite_keeps {p : Nat} {v : W64} {s t0 : State} (e : execAdpAreaWrite p v s = .next t0) : s.Keeps 110478928359055366 t0 := by
  unfold execAdpAreaWrite at e
  cases e
  have hM : 110478928359055366 ||| 110478928359055366 = 110478928359055366 := by decide
  have hk := State.Keeps.refl (M := 110478928359055366) s
  repeat' first
    | with_reducible assumption | exact mask_sub hM (by decide) | with_reducible apply State.adpArea_keeps

theorem execXferWait_keeps {t : Nat} {s t0 : State} (e : execXferWait t s = .next t0) : s.Keeps 800694037971988487 t0 := by
  unfold execXferWait at e
  cases e
  have hM : 800694037971988487 ||| 800694037971988487 = 800694037971988487 := by decide
  have hk := State.Keeps.refl (M := 800694037971988487) s
  repeat' first
    | with_reducible assumption | exact mask_sub hM (by decide) | with_reducible apply State.xferWait_keeps

theorem execXferWrite_keeps {t : Nat} {s t0 : State} (e : execXferWrite t s = .next t0) : s.Keeps 800694037971988487 t0 := by
  unfold execXferWrite at e
  cases e
  have hM : 800694037971988487 ||| 800694037971988487 = 800694037971988487 := by decide
  have hk := State.Keeps.refl (M := 800694037971988487) s
  repeat' first
    | with_reducible assumption | exact mask_sub hM (by decide) | with_reducible apply State.xferWrite_keeps

theorem execXferShard_keeps {t : Nat} {s t0 : State} (e : execXferShard t s = .next t0) : s.Keeps 800694037971988487 t0 := by
  unfold execXferShard at e
  cases e
  have hM : 800694037971988487 ||| 800694037971988487 = 800694037971988487 := by decide
  have hk := State.Keeps.refl (M := 800694037971988487) s
  repeat' first
    | with_reducible assumption | exact mask_sub hM (by decide) | with_reducible apply State.xferShard_keeps

theorem execXferAppend_keeps {t : Nat} {s t0 : State} (e : execXferAppend t s = .next t0) : s.Keeps 818708437622321159 t0 := by
  unfold execXferAppend at e
  cases e
  have hM : 818708437622321159 ||| 818708437622321159 = 818708437622321159 := by decide
  have hk := State.Keeps.refl (M := 818708437622321159) s
  repeat' first
    | with_reducible assumption | exact mask_sub hM (by decide) | with_reducible apply State.xferChannel_keeps

theorem execXferPutAt_keeps {t : Nat} {s t0 : State} (e : execXferPutAt t s = .next t0) : s.Keeps 818708437622321159 t0 := by
  unfold execXferPutAt at e
  cases e
  have hM : 818708437622321159 ||| 818708437622321159 = 818708437622321159 := by decide
  have hk := State.Keeps.refl (M := 818708437622321159) s
  repeat' first
    | with_reducible assumption | exact mask_sub hM (by decide) | with_reducible apply State.xferChannel_keeps

theorem execCollReduceScatter_keeps {t : Nat} {s t0 : State} (e : execCollReduceScatter t s = .next t0) : s.Keeps 800694037971988487 t0 := by
  unfold execCollReduceScatter at e
  cases e
  have hM : 800694037971988487 ||| 800694037971988487 = 800694037971988487 := by decide
  have hk := State.Keeps.refl (M := 800694037971988487) s
  repeat' first
    | with_reducible assumption | exact mask_sub hM (by decide) | with_reducible apply State.collective_keeps

theorem execCollAllGather_keeps {t : Nat} {s t0 : State} (e : execCollAllGather t s = .next t0) : s.Keeps 800694037971988487 t0 := by
  unfold execCollAllGather at e
  cases e
  have hM : 800694037971988487 ||| 800694037971988487 = 800694037971988487 := by decide
  have hk := State.Keeps.refl (M := 800694037971988487) s
  repeat' first
    | with_reducible assumption | exact mask_sub hM (by decide) | with_reducible apply State.collective_keeps

theorem execCollAllReduce_keeps {t : Nat} {s t0 : State} (e : execCollAllReduce t s = .next t0) : s.Keeps 800694037971988487 t0 := by
  unfold execCollAllReduce at e
  cases e
  have hM : 800694037971988487 ||| 800694037971988487 = 800694037971988487 := by decide
  have hk := State.Keeps.refl (M := 800694037971988487) s
  repeat' first
    | with_reducible assumption | exact mask_sub hM (by decide) | with_reducible apply State.collective_keeps

theorem execCollBarrier_keeps {t : Nat} {s t0 : State} (e : execCollBarrier t s = .next t0) : s.Keeps 800694037971988487 t0 := by
  unfold execCollBarrier at e
  cases e
  have hM : 800694037971988487 ||| 800694037971988487 = 800694037971988487 := by decide
  have hk := State.Keeps.refl (M := 800694037971988487) s
  repeat' first
    | with_reducible assumption | exact mask_sub hM (by decide) | with_reducible apply State.collective_keeps

theorem execCollContrib_keeps {t : Nat} {s t0 : State} (e : execCollContrib t s = .next t0) : s.Keeps 818708437622321159 t0 := by
  unfold execCollContrib at e
  cases e
  have hM : 818708437622321159 ||| 818708437622321159 = 818708437622321159 := by decide
  have hk := State.Keeps.refl (M := 818708437622321159) s
  repeat' first
    | with_reducible assumption | exact mask_sub hM (by decide) | with_reducible apply State.collContrib_keeps

theorem execRingWdogExpiry_keeps {t : Nat} {s t0 : State} (e : execRingWdogExpiry t s = .next t0) : s.Keeps 800694037971988487 t0 := by
  unfold execRingWdogExpiry at e
  cases e
  have hM : 800694037971988487 ||| 800694037971988487 = 800694037971988487 := by decide
  have hk := State.Keeps.refl (M := 800694037971988487) s
  repeat' first
    | with_reducible assumption | exact mask_sub hM (by decide) | with_reducible apply State.ringWdog_keeps

theorem execExportStart_keeps {e : Nat} {s t0 : State} (e : execExportStart e s = .next t0) : s.Keeps 809705635273764871 t0 := by
  unfold execExportStart at e
  cases e
  have hM : 809705635273764871 ||| 809705635273764871 = 809705635273764871 := by decide
  have hk := State.Keeps.refl (M := 809705635273764871) s
  repeat' first
    | with_reducible assumption | exact mask_sub hM (by decide) | with_reducible apply State.exportStart_keeps

theorem execDataFrameReceive_keeps {n : Nat} {w : WireFrame} {s t0 : State} (e : execDataFrameReceive n w s = .next t0) : s.Keeps 75576031784853510 t0 := by
  unfold execDataFrameReceive at e
  cases e
  have hM : 75576031784853510 ||| 75576031784853510 = 75576031784853510 := by decide
  have hk := State.Keeps.refl (M := 75576031784853510) s
  repeat' first
    | with_reducible assumption | exact mask_sub hM (by decide) | with_reducible apply State.onFrame_keeps
    | with_reducible apply State.dataIn_keeps | intro _

theorem execAckReceive_keeps {n : Nat} {w : WireFrame} {s t0 : State} (e : execAckReceive n w s = .next t0) : s.Keeps 809705635273764871 t0 := by
  unfold execAckReceive at e
  cases e
  have hM : 809705635273764871 ||| 809705635273764871 = 809705635273764871 := by decide
  have hk := State.Keeps.refl (M := 809705635273764871) s
  repeat' first
    | with_reducible assumption | exact mask_sub hM (by decide) | with_reducible apply State.ackIn_keeps
    | with_reducible apply State.onFrame_keeps | split | intro _

theorem execHelloRequestReceive_keeps {n : Nat} {w : WireFrame} {s t0 : State} (e : execHelloRequestReceive n w s = .next t0) : s.Keeps 800694037971988487 t0 := by
  unfold execHelloRequestReceive at e
  cases e
  have hM : 800694037971988487 ||| 800694037971988487 = 800694037971988487 := by decide
  have hk := State.Keeps.refl (M := 800694037971988487) s
  repeat' first
    | with_reducible assumption | exact mask_sub hM (by decide) | with_reducible apply State.helloAccept_keeps
    | with_reducible apply State.helloRefuse_keeps | with_reducible apply State.onFrame_keeps | split | intro _

theorem execHelloReplyReceive_keeps {n : Nat} {w : WireFrame} {s t0 : State} (e : execHelloReplyReceive n w s = .next t0) : s.Keeps 809705635273764871 t0 := by
  unfold execHelloReplyReceive at e
  cases e
  have hM : 809705635273764871 ||| 809705635273764871 = 809705635273764871 := by decide
  have hk := State.Keeps.refl (M := 809705635273764871) s
  repeat' first
    | with_reducible assumption | exact mask_sub hM (by decide) | with_reducible apply State.helloIn_keeps
    | with_reducible apply State.onFrame_keeps | split | intro _

theorem execAbortReceive_keeps {n : Nat} {w : WireFrame} {s t0 : State} (e : execAbortReceive n w s = .next t0) : s.Keeps 800694037971988487 t0 := by
  unfold execAbortReceive at e
  cases e
  have hM : 800694037971988487 ||| 800694037971988487 = 800694037971988487 := by decide
  have hk := State.Keeps.refl (M := 800694037971988487) s
  repeat' first
    | with_reducible assumption | exact mask_sub hM (by decide) | with_reducible apply State.abortIn_keeps
    | with_reducible apply State.onFrame_keeps | intro _

theorem execAbortResend_keeps {s t0 : State} (e : execAbortResend s = .next t0) : s.Keeps 17716744192 t0 := by
  unfold execAbortResend at e
  cases e
  have hM : 17716744192 ||| 17716744192 = 17716744192 := by decide
  have hk := State.Keeps.refl (M := 17716744192) s
  repeat' first
    | with_reducible assumption | exact mask_sub hM (by decide) | with_reducible apply State.abortAgain_keeps

theorem execFrameTransmit_keeps {n : Nat} {s t0 : State} (e : execFrameTransmit n s = .next t0) : s.Keeps 1125900443713536 t0 := by
  unfold execFrameTransmit at e
  cases e
  have hM : 1125900443713536 ||| 1125900443713536 = 1125900443713536 := by decide
  have hk := State.Keeps.refl (M := 1125900443713536) s
  repeat' first
    | with_reducible assumption | exact mask_sub hM (by decide) | with_reducible apply State.transmit_keeps

theorem execRtoExpiry_keeps {f : Nat} {psn : Nat} {s t0 : State} (e : execRtoExpiry f psn s = .next t0) : s.Keeps 800694037971988487 t0 := by
  unfold execRtoExpiry at e
  cases e
  have hM : 800694037971988487 ||| 800694037971988487 = 800694037971988487 := by decide
  have hk := State.Keeps.refl (M := 800694037971988487) s
  repeat' first
    | with_reducible assumption | exact mask_sub hM (by decide) | with_reducible apply State.rtoFire_keeps

theorem execHelloResendExpiry_keeps {f : Nat} {s t0 : State} (e : execHelloResendExpiry f s = .next t0) : s.Keeps 800694037971988487 t0 := by
  unfold execHelloResendExpiry at e
  cases e
  have hM : 800694037971988487 ||| 800694037971988487 = 800694037971988487 := by decide
  have hk := State.Keeps.refl (M := 800694037971988487) s
  repeat' first
    | with_reducible assumption | exact mask_sub hM (by decide) | with_reducible apply State.helloFire_keeps

theorem execAckDelayExpiry_keeps {f : Nat} {s t0 : State} (e : execAckDelayExpiry f s = .next t0) : s.Keeps 17716744192 t0 := by
  unfold execAckDelayExpiry at e
  cases e
  have hM : 17716744192 ||| 17716744192 = 17716744192 := by decide
  have hk := State.Keeps.refl (M := 17716744192) s
  repeat' first
    | with_reducible assumption | exact mask_sub hM (by decide) | with_reducible apply State.ackDelay_keeps

theorem execFlowIdleExpiry_keeps {rx : Bool} {f : Nat} {s t0 : State} (e : execFlowIdleExpiry rx f s = .next t0) : s.Keeps 1125917623586816 t0 := by
  unfold execFlowIdleExpiry at e
  cases e
  have hM : 1125917623586816 ||| 1125917623586816 = 1125917623586816 := by decide
  have hk := State.Keeps.refl (M := 1125917623586816) s
  repeat' first
    | with_reducible assumption | exact mask_sub hM (by decide) | with_reducible apply State.flowIdle_keeps

theorem execFlowOpenResume_keeps {s t0 : State} (e : execFlowOpenResume s = .next t0) : s.Keeps 800694037971988487 t0 := by
  unfold execFlowOpenResume at e
  cases e
  have hM : 800694037971988487 ||| 800694037971988487 = 800694037971988487 := by decide
  have hk := State.Keeps.refl (M := 800694037971988487) s
  repeat' first
    | with_reducible assumption | exact mask_sub hM (by decide) | with_reducible apply State.openResume_keeps

theorem execPortDetect_keeps {n : Nat} {media : Nat} {s t0 : State} (e : execPortDetect n media s = .next t0) : s.Keeps 1125899906842624 t0 := by
  unfold execPortDetect at e
  cases e
  have hM : 1125899906842624 ||| 1125899906842624 = 1125899906842624 := by decide
  have hk := State.Keeps.refl (M := 1125899906842624) s
  repeat' first
    | with_reducible assumption | exact mask_sub hM (by decide) | with_reducible apply State.portDetect_keeps

theorem execPortTrained_keeps {n : Nat} {s t0 : State} (e : execPortTrained n s = .next t0) : s.Keeps 73183493944770560 t0 := by
  unfold execPortTrained at e
  cases e
  have hM : 73183493944770560 ||| 73183493944770560 = 73183493944770560 := by decide
  have hk := State.Keeps.refl (M := 73183493944770560) s
  repeat' first
    | with_reducible assumption | exact mask_sub hM (by decide) | with_reducible apply State.portTrained_keeps

theorem execPortTrainFail_keeps {n : Nat} {s t0 : State} (e : execPortTrainFail n s = .next t0) : s.Keeps 1125900443713536 t0 := by
  unfold execPortTrainFail at e
  cases e
  have hM : 1125900443713536 ||| 1125900443713536 = 1125900443713536 := by decide
  have hk := State.Keeps.refl (M := 1125900443713536) s
  repeat' first
    | with_reducible assumption | exact mask_sub hM (by decide) | with_reducible apply State.portTrainFail_keeps

theorem execPortFailedRetry_keeps {n : Nat} {s t0 : State} (e : execPortFailedRetry n s = .next t0) : s.Keeps 1125917086715904 t0 := by
  unfold execPortFailedRetry at e
  cases e
  have hM : 1125917086715904 ||| 1125917086715904 = 1125917086715904 := by decide
  have hk := State.Keeps.refl (M := 1125917086715904) s
  repeat' first
    | with_reducible assumption | exact mask_sub hM (by decide) | with_reducible apply State.setPort_keeps
    | with_reducible apply State.passTo_keeps | with_reducible apply keeps_ite

theorem execPortEnableWrite_keeps {n : Nat} {v : W64} {s t0 : State} (e : execPortEnableWrite n v s = .next t0) : s.Keeps 800694037971988487 t0 := by
  unfold execPortEnableWrite at e
  cases e
  have hM : 800694037971988487 ||| 800694037971988487 = 800694037971988487 := by decide
  have hk := State.Keeps.refl (M := 800694037971988487) s
  repeat' first
    | with_reducible assumption | exact mask_sub hM (by decide) | with_reducible apply State.portCtrl_keeps

theorem execPortLinkLoss_keeps {n : Nat} {us : Nat} {s t0 : State} (e : execPortLinkLoss n us s = .next t0) : s.Keeps 800694037971988487 t0 := by
  unfold execPortLinkLoss at e
  cases e
  have hM : 800694037971988487 ||| 800694037971988487 = 800694037971988487 := by decide
  have hk := State.Keeps.refl (M := 800694037971988487) s
  repeat' first
    | with_reducible assumption | exact mask_sub hM (by decide) | with_reducible apply State.portDown_keeps
    | with_reducible apply keeps_ite

theorem execPortSignalLoss_keeps {n : Nat} {s t0 : State} (e : execPortSignalLoss n s = .next t0) : s.Keeps 800694037971988487 t0 := by
  unfold execPortSignalLoss at e
  cases e
  have hM : 800694037971988487 ||| 800694037971988487 = 800694037971988487 := by decide
  have hk := State.Keeps.refl (M := 800694037971988487) s
  repeat' first
    | with_reducible assumption | exact mask_sub hM (by decide) | with_reducible apply State.portDown_keeps
    | with_reducible apply keeps_ite

theorem execLinkDetect_keeps {s t0 : State} (e : execLinkDetect s = .next t0) : s.Keeps 562967133360128 t0 := by
  unfold execLinkDetect at e
  cases e
  have hM : 562967133360128 ||| 562967133360128 = 562967133360128 := by decide
  have hk := State.Keeps.refl (M := 562967133360128) s
  repeat' first
    | with_reducible assumption | exact mask_sub hM (by decide) | with_reducible apply State.linkDetect_keeps

theorem execLinkPartnerSeen_keeps {lanes : Nat} {s t0 : State} (e : execLinkPartnerSeen lanes s = .next t0) : s.Keeps 562949953486848 t0 := by
  unfold execLinkPartnerSeen at e
  cases e
  have hM : 562949953486848 ||| 562949953486848 = 562949953486848 := by decide
  have hk := State.Keeps.refl (M := 562949953486848) s
  repeat' first
    | with_reducible assumption | exact mask_sub hM (by decide) | with_reducible apply State.setLrl_keeps
    | with_reducible apply State.modLrl_keeps | with_reducible apply keeps_ite

theorem execLinkLanesLock_keeps {lanes : Nat} {s t0 : State} (e : execLinkLanesLock lanes s = .next t0) : s.Keeps 562949953486848 t0 := by
  unfold execLinkLanesLock at e
  cases e
  have hM : 562949953486848 ||| 562949953486848 = 562949953486848 := by decide
  have hk := State.Keeps.refl (M := 562949953486848) s
  repeat' first
    | with_reducible assumption | exact mask_sub hM (by decide) | with_reducible apply State.lanesLock_keeps

theorem execLinkTrainTimeout_keeps {s t0 : State} (e : execLinkTrainTimeout s = .next t0) : s.Keeps 562967133360128 t0 := by
  unfold execLinkTrainTimeout at e
  cases e
  have hM : 562967133360128 ||| 562967133360128 = 562967133360128 := by decide
  have hk := State.Keeps.refl (M := 562967133360128) s
  repeat' first
    | with_reducible assumption | exact mask_sub hM (by decide) | with_reducible apply State.trainFailed_keeps
    | with_reducible apply State.passTo_keeps | with_reducible apply keeps_ite

theorem execLinkConfigDone_keeps {credits : List Nat} {s t0 : State} (e : execLinkConfigDone credits s = .next t0) : s.Keeps 562949953486848 t0 := by
  unfold execLinkConfigDone at e
  cases e
  have hM : 562949953486848 ||| 562949953486848 = 562949953486848 := by decide
  have hk := State.Keeps.refl (M := 562949953486848) s
  repeat' first
    | with_reducible assumption | exact mask_sub hM (by decide) | with_reducible apply State.configDone_keeps

theorem execLinkRetrainRelock_keeps {lanes : Nat} {s t0 : State} (e : execLinkRetrainRelock lanes s = .next t0) : s.Keeps 801327356669587463 t0 := by
  unfold execLinkRetrainRelock at e
  cases e
  have hM : 801327356669587463 ||| 801327356669587463 = 801327356669587463 := by decide
  have hk := State.Keeps.refl (M := 801327356669587463) s
  repeat' first
    | with_reducible assumption | exact mask_sub hM (by decide) | with_reducible apply State.relock_keeps

theorem execLinkRetrainTimeout_keeps {s t0 : State} (e : execLinkRetrainTimeout s = .next t0) : s.Keeps 801327356669587463 t0 := by
  unfold execLinkRetrainTimeout at e
  cases e
  have hM : 801327356669587463 ||| 801327356669587463 = 801327356669587463 := by decide
  have hk := State.Keeps.refl (M := 801327356669587463) s
  repeat' first
    | with_reducible assumption | exact mask_sub hM (by decide) | with_reducible apply State.linkLoss_keeps
    | with_reducible apply State.passTo_keeps | with_reducible apply keeps_ite

theorem execReplayTimerExpiry_keeps {s t0 : State} (e : execReplayTimerExpiry s = .next t0) : s.Keeps 562967133360128 t0 := by
  unfold execReplayTimerExpiry at e
  cases e
  have hM : 562967133360128 ||| 562967133360128 = 562967133360128 := by decide
  have hk := State.Keeps.refl (M := 562967133360128) s
  repeat' first
    | with_reducible assumption | exact mask_sub hM (by decide) | with_reducible apply State.replayAll_keeps
    | with_reducible apply State.passTo_keeps | with_reducible apply keeps_ite

theorem execFlitReceive_keeps {flit : Bytes} {s t0 : State} (e : execFlitReceive flit s = .next t0) : s.Keeps 562949953486848 t0 := by
  unfold execFlitReceive at e
  cases e
  have hM : 562949953486848 ||| 562949953486848 = 562949953486848 := by decide
  have hk := State.Keeps.refl (M := 562949953486848) s
  repeat' first
    | with_reducible assumption | exact mask_sub hM (by decide) | with_reducible apply State.flitIn_keeps

theorem execFlitTransmit_keeps {s t0 : State} (e : execFlitTransmit s = .next t0) : s.Keeps 65537 t0 := by
  unfold execFlitTransmit at e
  cases e
  have hM : 65537 ||| 65537 = 65537 := by decide
  have hk := State.Keeps.refl (M := 65537) s
  repeat' first
    | with_reducible assumption | exact mask_sub hM (by decide) | with_reducible apply State.flitOut_keeps

theorem execHostMemRd_keeps {part : Nat} {addr : Nat} {len : Nat} {tag : Nat} {s t0 : State} (e : execHostMemRd part addr len tag s = .next t0) : s.Keeps 801256987925409799 t0 := by
  unfold execHostMemRd at e
  cases e
  have hM : 801256987925409799 ||| 801256987925409799 = 801256987925409799 := by decide
  have hk := State.Keeps.refl (M := 801256987925409799) s
  repeat' first
    | with_reducible assumption | exact mask_sub hM (by decide) | with_reducible apply State.hostMemRd_keeps

theorem execHostMemWr_keeps {part : Nat} {addr : Nat} {data : Bytes} {s t0 : State} (e : execHostMemWr part addr data s = .next t0) : s.Keeps 75013081293512706 t0 := by
  unfold execHostMemWr at e
  cases e
  have hM : 75013081293512706 ||| 75013081293512706 = 75013081293512706 := by decide
  have hk := State.Keeps.refl (M := 75013081293512706) s
  repeat' first
    | with_reducible assumption | exact mask_sub hM (by decide) | with_reducible apply State.hostMemWr_keeps

theorem execMemCplReceive_keeps {tag : Nat} {status : Nat} {data : Bytes} {s t0 : State} (e : execMemCplReceive tag status data s = .next t0) : s.Keeps 801327356669587463 t0 := by
  unfold execMemCplReceive at e
  cases e
  have hM : 801327356669587463 ||| 801327356669587463 = 801327356669587463 := by decide
  have hk := State.Keeps.refl (M := 801327356669587463) s
  repeat' first
    | with_reducible assumption | exact mask_sub hM (by decide) | with_reducible apply State.memCpl_keeps

theorem execCplTimeout_keeps {tag : Nat} {s t0 : State} (e : execCplTimeout tag s = .next t0) : s.Keeps 801327356669587463 t0 := by
  unfold execCplTimeout at e
  cases e
  have hM : 801327356669587463 ||| 801327356669587463 = 801327356669587463 := by decide
  have hk := State.Keeps.refl (M := 801327356669587463) s
  repeat' first
    | with_reducible assumption | exact mask_sub hM (by decide) | with_reducible apply State.cplTimeout_keeps

theorem execIntr_keeps {i : Nat} {s t0 : State} (e : execIntr i s = .next t0) : s.Keeps 65536 t0 := by
  unfold execIntr at e
  cases e
  have hM : 65536 ||| 65536 = 65536 := by decide
  have hk := State.Keeps.refl (M := 65536) s
  repeat' first
    | with_reducible assumption | exact mask_sub hM (by decide) | with_reducible apply State.sendIntr_keeps

theorem execLrlIrqRearmWrite_keeps {v : W64} {s t0 : State} (e : execLrlIrqRearmWrite v s = .next t0) : s.Keeps 65536 t0 := by
  unfold execLrlIrqRearmWrite at e
  cases e
  have hM : 65536 ||| 65536 = 65536 := by decide
  have hk := State.Keeps.refl (M := 65536) s
  repeat' first
    | with_reducible assumption | exact mask_sub hM (by decide) | with_reducible apply State.irqRearm_keeps

theorem execImgErase_keeps {s t0 : State} (e : execImgErase s = .next t0) : s.Keeps 35184372088864 t0 := by
  unfold execImgErase at e
  cases e
  have hM : 35184372088864 ||| 35184372088864 = 35184372088864 := by decide
  have hk := State.Keeps.refl (M := 35184372088864) s
  repeat' first
    | with_reducible assumption | exact mask_sub hM (by decide) | with_reducible apply State.imgErase_keeps

theorem execImgWrite_keeps {s t0 : State} (e : execImgWrite s = .next t0) : s.Keeps 74485315712180256 t0 := by
  unfold execImgWrite at e
  cases e
  have hM : 74485315712180256 ||| 74485315712180256 = 74485315712180256 := by decide
  have hk := State.Keeps.refl (M := 74485315712180256) s
  repeat' first
    | with_reducible assumption | exact mask_sub hM (by decide) | with_reducible apply State.imgWrite_keeps

theorem execImgCommit_keeps {s t0 : State} (e : execImgCommit s = .next t0) : s.Keeps 35184372088864 t0 := by
  unfold execImgCommit at e
  cases e
  have hM : 35184372088864 ||| 35184372088864 = 35184372088864 := by decide
  have hk := State.Keeps.refl (M := 35184372088864) s
  repeat' first
    | with_reducible assumption | exact mask_sub hM (by decide) | with_reducible apply State.imgCommit_keeps

theorem execImgReload_keeps {p : Nat} {s t0 : State} (e : execImgReload p s = .next t0) : s.Keeps 650954846928760834 t0 := by
  unfold execImgReload at e
  cases e
  have hM : 650954846928760834 ||| 650954846928760834 = 650954846928760834 := by decide
  have hk := State.Keeps.refl (M := 650954846928760834) s
  repeat' first
    | with_reducible assumption | exact mask_sub hM (by decide) | with_reducible apply State.imgReload_keeps

theorem execPartitionReset_keeps {p : Nat} {cells : List ArrayCell} {s t0 : State} (e : execPartitionReset p cells s = .next t0) : s.Keeps 1152015476953899008 t0 := by
  unfold execPartitionReset at e
  cases e
  have hM : 1152015476953899008 ||| 1152015476953899008 = 1152015476953899008 := by decide
  have hk := State.Keeps.refl (M := 1152015476953899008) s
  repeat' first
    | with_reducible assumption | exact mask_sub hM (by decide) | with_reducible apply State.takeReset_keeps

theorem execPartitionResetComplete_keeps {p : Nat} {s t0 : State} (e : execPartitionResetComplete p s = .next t0) : s.Keeps 659989139911467015 t0 := by
  unfold execPartitionResetComplete at e
  cases e
  have hM : 659989139911467015 ||| 659989139911467015 = 659989139911467015 := by decide
  have hk := State.Keeps.refl (M := 659989139911467015) s
  repeat' first
    | with_reducible assumption | exact mask_sub hM (by decide) | with_reducible apply State.resetComplete_keeps

theorem execFltResetPartition_keeps {p : Nat} {s t0 : State} (e : execFltResetPartition p s = .next t0) : s.Keeps 576601627230748672 t0 := by
  unfold execFltResetPartition at e
  cases e
  have hM : 576601627230748672 ||| 576601627230748672 = 576601627230748672 := by decide
  have hk := State.Keeps.refl (M := 576601627230748672) s
  repeat' first
    | with_reducible assumption | exact mask_sub hM (by decide) | with_reducible apply State.askReset_keeps

theorem execFltResetCore_keeps {c : Nat} {cells : List ArrayCell} {s t0 : State} (e : execFltResetCore c cells s = .next t0) : s.Keeps 648659083838111744 t0 := by
  unfold execFltResetCore at e
  cases e
  have hM : 648659083838111744 ||| 648659083838111744 = 648659083838111744 := by decide
  have hk := State.Keeps.refl (M := 648659083838111744) s
  repeat' first
    | with_reducible assumption | exact mask_sub hM (by decide) | with_reducible apply State.fltResetCore_keeps

theorem execDeviceWarmReset_keeps {b : BootIn} {s t0 : State} (e : execDeviceWarmReset b s = .next t0) : s.Keeps 2305842983443886034 t0 := by
  unfold execDeviceWarmReset at e
  cases e
  have hM : 2305842983443886034 ||| 2305842983443886034 = 2305842983443886034 := by decide
  have hk := State.Keeps.refl (M := 2305842983443886034) s
  repeat' first
    | with_reducible assumption | exact mask_sub hM (by decide) | with_reducible apply State.warmReset_keeps

theorem execFltResetDeviceWarm_keeps {s t0 : State} (e : execFltResetDeviceWarm s = .next t0) : s.Keeps 800694037971988743 t0 := by
  unfold execFltResetDeviceWarm at e
  cases e
  have hM : 800694037971988743 ||| 800694037971988743 = 800694037971988743 := by decide
  have hk := State.Keeps.refl (M := 800694037971988743) s
  repeat' first
    | with_reducible assumption | exact mask_sub hM (by decide) | with_reducible apply State.warmRequest_keeps

theorem execImgActivate_keeps {s t0 : State} (e : execImgActivate s = .next t0) : s.Keeps 800694037971988743 t0 := by
  unfold execImgActivate at e
  cases e
  have hM : 800694037971988743 ||| 800694037971988743 = 800694037971988743 := by decide
  have hk := State.Keeps.refl (M := 800694037971988743) s
  repeat' first
    | with_reducible assumption | exact mask_sub hM (by decide) | with_reducible apply State.warmRequest_keeps
    | with_reducible apply State.imgCmd_keeps | with_reducible apply State.imgDone_keeps | intro _

theorem execColdReset_keeps {s t0 : State} (e : execColdReset s = .next t0) : s.Keeps 2305843000623759303 t0 := by
  unfold execColdReset at e
  cases e
  have hM : 2305843000623759303 ||| 2305843000623759303 = 2305843000623759303 := by decide
  have hk := State.Keeps.refl (M := 2305843000623759303) s
  repeat' first
    | with_reducible assumption | exact mask_sub hM (by decide) | with_reducible apply State.coldReset_keeps

theorem execModuleReset_keeps {ns : Nat} {s t0 : State} (e : execModuleReset ns s = .next t0) : s.Keeps 2305843000623759303 t0 := by
  unfold execModuleReset at e
  cases e
  have hM : 2305843000623759303 ||| 2305843000623759303 = 2305843000623759303 := by decide
  have hk := State.Keeps.refl (M := 2305843000623759303) s
  repeat' first
    | with_reducible assumption | exact mask_sub hM (by decide) | with_reducible apply State.moduleReset_keeps

theorem execPowerGood_keeps {mv : Nat} {s t0 : State} (e : execPowerGood mv s = .next t0) : s.Keeps 64 t0 := by
  unfold execPowerGood at e
  cases e
  have hM : 64 ||| 64 = 64 := by decide
  have hk := State.Keeps.refl (M := 64) s
  repeat' first
    | with_reducible assumption | exact mask_sub hM (by decide) | simp only [keeps_pins (mask_sub hM (by decide))]
    | with_reducible apply keeps_ite

theorem execModuleResetRelease_keeps {b : BootIn} {s t0 : State} (e : execModuleResetRelease b s = .next t0) : s.Keeps 76561165757081298 t0 := by
  unfold execModuleResetRelease at e
  cases e
  have hM : 76561165757081298 ||| 76561165757081298 = 76561165757081298 := by decide
  have hk := State.Keeps.refl (M := 76561165757081298) s
  repeat' first
    | with_reducible assumption | exact mask_sub hM (by decide) | with_reducible apply State.release_keeps

theorem execCcWdogExpiry_keeps {n : Nat} {s t0 : State} (e : execCcWdogExpiry n s = .next t0) : s.Keeps 800694037971988487 t0 := by
  unfold execCcWdogExpiry at e
  cases e
  have hM : 800694037971988487 ||| 800694037971988487 = 800694037971988487 := by decide
  have hk := State.Keeps.refl (M := 800694037971988487) s
  repeat' first
    | with_reducible assumption | exact mask_sub hM (by decide) | with_reducible apply State.ccWdog_keeps

theorem execSpillWaitTimeout_keeps {p : Nat} {s t0 : State} (e : execSpillWaitTimeout p s = .next t0) : s.Keeps 800694037971988487 t0 := by
  unfold execSpillWaitTimeout at e
  cases e
  have hM : 800694037971988487 ||| 800694037971988487 = 800694037971988487 := by decide
  have hk := State.Keeps.refl (M := 800694037971988487) s
  repeat' first
    | with_reducible assumption | exact mask_sub hM (by decide) | with_reducible apply State.spillTimeout_keeps

theorem execPinWaitTimeout_keeps {t : Nat} {page : Nat} {s t0 : State} (e : execPinWaitTimeout t page s = .next t0) : s.Keeps 800694037971988487 t0 := by
  unfold execPinWaitTimeout at e
  cases e
  have hM : 800694037971988487 ||| 800694037971988487 = 800694037971988487 := by decide
  have hk := State.Keeps.refl (M := 800694037971988487) s
  repeat' first
    | with_reducible assumption | exact mask_sub hM (by decide) | with_reducible apply State.pinTimeout_keeps

theorem execDrainTimeout_keeps {u : DrainUnit} {s t0 : State} (e : execDrainTimeout u s = .next t0) : s.Keeps 800694037980377095 t0 := by
  unfold execDrainTimeout at e
  cases e
  have hM : 800694037980377095 ||| 800694037980377095 = 800694037980377095 := by decide
  have hk := State.Keeps.refl (M := 800694037980377095) s
  repeat' first
    | with_reducible assumption | exact mask_sub hM (by decide) | with_reducible apply State.drainTimeout_keeps

theorem execIkWdogExpiry_keeps {n : Nat} {s t0 : State} (e : execIkWdogExpiry n s = .next t0) : s.Keeps 800694037971988743 t0 := by
  unfold execIkWdogExpiry at e
  cases e
  have hM : 800694037971988743 ||| 800694037971988743 = 800694037971988743 := by decide
  have hk := State.Keeps.refl (M := 800694037971988743) s
  repeat' first
    | with_reducible assumption | exact mask_sub hM (by decide) | with_reducible exact Rg.FLT_IK_WDOG_EXPIRIES_in
    | with_reducible exact Rg.FLT_IRQ_WDOG_in | with_reducible apply State.warmRequest_keeps
    | with_reducible apply State.bump_keeps | with_reducible apply State.raise_keeps | with_reducible apply keeps_ite

theorem execRepairApply_keeps {s t0 : State} (e : execRepairApply s = .next t0) : s.Keeps 650919679736537096 t0 := by
  unfold execRepairApply at e
  cases e
  have hM : 650919679736537096 ||| 650919679736537096 = 650919679736537096 := by decide
  have hk := State.Keeps.refl (M := 650919679736537096) s
  repeat' first
    | with_reducible assumption | exact mask_sub hM (by decide) | with_reducible apply State.repairApply_keeps

theorem execFltLogPop_keeps {s t0 : State} (e : execFltLogPop s = .next t0) : s.Keeps 8589950976 t0 := by
  unfold execFltLogPop at e
  cases e
  have hM : 8589950976 ||| 8589950976 = 8589950976 := by decide
  have hk := State.Keeps.refl (M := 8589950976) s
  repeat' first
    | with_reducible assumption | exact mask_sub hM (by decide) | with_reducible apply State.fltLogPop_keeps

theorem execFwErase_keeps {s t0 : State} (e : execFwErase s = .next t0) : s.Keeps 70368744177696 t0 := by
  unfold execFwErase at e
  cases e
  have hM : 70368744177696 ||| 70368744177696 = 70368744177696 := by decide
  have hk := State.Keeps.refl (M := 70368744177696) s
  repeat' first
    | with_reducible assumption | exact mask_sub hM (by decide) | with_reducible apply State.eraseFw_keeps
    | with_reducible apply State.secCmd_keeps | with_reducible apply State.secDone_keeps
    | with_reducible apply State.noteFwTarget_keeps | intro _

theorem execFwWrite_keeps {s t0 : State} (e : execFwWrite s = .next t0) : s.Keeps 74520500084269088 t0 := by
  unfold execFwWrite at e
  cases e
  have hM : 74520500084269088 ||| 74520500084269088 = 74520500084269088 := by decide
  have hk := State.Keeps.refl (M := 74520500084269088) s
  repeat' first
    | with_reducible assumption | exact mask_sub hM (by decide) | with_reducible apply State.fwWrite_keeps
    | with_reducible apply State.secCmd_keeps

theorem execFwCommit_keeps {s t0 : State} (e : execFwCommit s = .next t0) : s.Keeps 70368744177696 t0 := by
  unfold execFwCommit at e
  cases e
  have hM : 70368744177696 ||| 70368744177696 = 70368744177696 := by decide
  have hk := State.Keeps.refl (M := 70368744177696) s
  repeat' first
    | with_reducible assumption | exact mask_sub hM (by decide) | with_reducible apply State.fwCommit_keeps
    | with_reducible apply State.secCmd_keeps

theorem execFwActivate_keeps {s t0 : State} (e : execFwActivate s = .next t0) : s.Keeps 800764406716166407 t0 := by
  unfold execFwActivate at e
  cases e
  have hM : 800764406716166407 ||| 800764406716166407 = 800764406716166407 := by decide
  have hk := State.Keeps.refl (M := 800764406716166407) s
  repeat' first
    | with_reducible assumption | exact mask_sub hM (by decide) | with_reducible apply State.secCmd_keeps
    | with_reducible apply State.secDone_keeps | with_reducible apply State.warmRequest_keeps | intro _

theorem execCommitSvn_keeps {which : Nat} {s t0 : State} (e : execCommitSvn which s = .next t0) : s.Keeps 70368744177672 t0 := by
  unfold execCommitSvn at e
  cases e
  have hM : 70368744177672 ||| 70368744177672 = 70368744177672 := by decide
  have hk := State.Keeps.refl (M := 70368744177672) s
  repeat' first
    | with_reducible assumption | exact mask_sub hM (by decide) | with_reducible apply State.commitSvn_keeps

theorem execFuseOwner_keeps {s t0 : State} (e : execFuseOwner s = .next t0) : s.Keeps 74520500084269064 t0 := by
  unfold execFuseOwner at e
  cases e
  have hM : 74520500084269064 ||| 74520500084269064 = 74520500084269064 := by decide
  have hk := State.Keeps.refl (M := 74520500084269064) s
  repeat' first
    | with_reducible assumption | exact mask_sub hM (by decide) | with_reducible apply State.fuseOwner_keeps

theorem execAttest_keeps {part : Nat} {s t0 : State} (e : execAttest part s = .next t0) : s.Keeps 74520500084269063 t0 := by
  unfold execAttest at e
  cases e
  have hM : 74520500084269063 ||| 74520500084269063 = 74520500084269063 := by decide
  have hk := State.Keeps.refl (M := 74520500084269063) s
  repeat' first
    | with_reducible assumption | exact mask_sub hM (by decide) | with_reducible apply State.attest_keeps

theorem execIdcert_keeps {s t0 : State} (e : execIdcert s = .next t0) : s.Keeps 74520500084269062 t0 := by
  unfold execIdcert at e
  cases e
  have hM : 74520500084269062 ||| 74520500084269062 = 74520500084269062 := by decide
  have hk := State.Keeps.refl (M := 74520500084269062) s
  repeat' first
    | with_reducible assumption | exact mask_sub hM (by decide) | with_reducible apply State.idcert_keeps

theorem execPartStart_keeps {p : Nat} {s t0 : State} (e : execPartStart p s = .next t0) : s.Keeps 576531259560296448 t0 := by
  unfold execPartStart at e
  cases e
  have hM : 576531259560296448 ||| 576531259560296448 = 576531259560296448 := by decide
  have hk := State.Keeps.refl (M := 576531259560296448) s
  repeat' first
    | with_reducible assumption | exact mask_sub hM (by decide) | with_reducible apply State.partStart_keeps

theorem execSbiInfo_keeps {n : Nat} {s t0 : State} (e : execSbiInfo n s = .next t0) : s.Keeps 1073741824 t0 := by
  unfold execSbiInfo at e
  cases e
  have hM : 1073741824 ||| 1073741824 = 1073741824 := by decide
  have hk := State.Keeps.refl (M := 1073741824) s
  repeat' first
    | with_reducible assumption | exact mask_sub hM (by decide) | with_reducible apply State.sbiRet_keeps
    | with_reducible apply State.sbi_keeps | intro _

theorem execSbiReload_keeps {n : Nat} {addr : W64} {len : W64} {s t0 : State} (e : execSbiReload n addr len s = .next t0) : s.Keeps 650954848002502658 t0 := by
  unfold execSbiReload at e
  cases e
  have hM : 650954848002502658 ||| 650954848002502658 = 650954848002502658 := by decide
  have hk := State.Keeps.refl (M := 650954848002502658) s
  repeat' first
    | with_reducible assumption | exact mask_sub hM (by decide) | with_reducible apply State.sbiReload_keeps

theorem execSbiReloadStatus_keeps {n : Nat} {s t0 : State} (e : execSbiReloadStatus n s = .next t0) : s.Keeps 1073741824 t0 := by
  unfold execSbiReloadStatus at e
  cases e
  have hM : 1073741824 ||| 1073741824 = 1073741824 := by decide
  have hk := State.Keeps.refl (M := 1073741824) s
  repeat' first
    | with_reducible assumption | exact mask_sub hM (by decide) | with_reducible apply State.sbiRet_keeps
    | with_reducible apply State.sbi_keeps | intro _

theorem execSbiAttest_keeps {n : Nat} {nonce : W64} {dst : W64} {s t0 : State} (e : execSbiAttest n nonce dst s = .next t0) : s.Keeps 74450132413833223 t0 := by
  unfold execSbiAttest at e
  cases e
  have hM : 74450132413833223 ||| 74450132413833223 = 74450132413833223 := by decide
  have hk := State.Keeps.refl (M := 74450132413833223) s
  repeat' first
    | with_reducible assumption | exact mask_sub hM (by decide) | with_reducible apply State.sbiAttest_keeps

theorem execSbiFaultInfo_keeps {n : Nat} {s t0 : State} (e : execSbiFaultInfo n s = .next t0) : s.Keeps 1073741824 t0 := by
  unfold execSbiFaultInfo at e
  cases e
  have hM : 1073741824 ||| 1073741824 = 1073741824 := by decide
  have hk := State.Keeps.refl (M := 1073741824) s
  repeat' first
    | with_reducible assumption | exact mask_sub hM (by decide) | with_reducible apply State.sbiRet_keeps
    | with_reducible apply State.sbi_keeps | intro _

theorem execSbiJobFault_keeps {n : Nat} {cause : W64} {s t0 : State} (e : execSbiJobFault n cause s = .next t0) : s.Keeps 800694039045730311 t0 := by
  unfold execSbiJobFault at e
  cases e
  have hM : 800694039045730311 ||| 800694039045730311 = 800694039045730311 := by decide
  have hk := State.Keeps.refl (M := 800694039045730311) s
  repeat' first
    | with_reducible assumption | exact mask_sub hM (by decide) | with_reducible apply State.sbiJobFault_keeps

theorem execSbiSrst_keeps {n : Nat} {kind : Nat} {s t0 : State} (e : execSbiSrst n kind s = .next t0) : s.Keeps 576671997048668160 t0 := by
  unfold execSbiSrst at e
  cases e
  have hM : 576671997048668160 ||| 576671997048668160 = 576671997048668160 := by decide
  have hk := State.Keeps.refl (M := 576671997048668160) s
  repeat' first
    | with_reducible assumption | exact mask_sub hM (by decide) | with_reducible apply State.sbiSrst_keeps

theorem execSbiHsmHartStart_keeps {n : Nat} {target : Nat} {addr : W64} {arg : W64} {s t0 : State} (e : execSbiHsmHartStart n target addr arg s = .next t0) : s.Keeps 70369817919488 t0 := by
  unfold execSbiHsmHartStart at e
  cases e
  have hM : 70369817919488 ||| 70369817919488 = 70369817919488 := by decide
  have hk := State.Keeps.refl (M := 70369817919488) s
  repeat' first
    | with_reducible assumption | exact mask_sub hM (by decide) | with_reducible apply State.hartStart_keeps

theorem execHartStop_keeps {n : Nat} {s t0 : State} (e : execHartStop n s = .next t0) : s.Keeps 70369817919488 t0 := by
  unfold execHartStop at e
  cases e
  have hM : 70369817919488 ||| 70369817919488 = 70369817919488 := by decide
  have hk := State.Keeps.refl (M := 70369817919488) s
  repeat' first
    | with_reducible assumption | exact mask_sub hM (by decide) | with_reducible apply State.sbi_keeps
    | with_reducible apply State.noteRunning_keeps | with_reducible apply State.modCtl_keeps | intro _

theorem execCciWdogPet_keeps {n : Nat} {s t0 : State} (e : execCciWdogPet n s = .next t0) : s.Keeps 1073741824 t0 := by
  unfold execCciWdogPet at e
  cases e
  have hM : 1073741824 ||| 1073741824 = 1073741824 := by decide
  have hk := State.Keeps.refl (M := 1073741824) s
  repeat' first
    | with_reducible assumption | exact mask_sub hM (by decide) | with_reducible apply State.petDog_keeps

theorem execPowerFail_keeps {mv : Nat} {us : Nat} {s t0 : State} (e : execPowerFail mv us s = .next t0) : s.Keeps 2305843000623759303 t0 := by
  unfold execPowerFail at e
  cases e
  have hM : 2305843000623759303 ||| 2305843000623759303 = 2305843000623759303 := by decide
  have hk := State.Keeps.refl (M := 2305843000623759303) s
  repeat' first
    | with_reducible assumption | exact mask_sub hM (by decide) | with_reducible apply State.powerFail_keeps

theorem execSagDetect_keeps {mv : Nat} {us : Nat} {s t0 : State} (e : execSagDetect mv us s = .next t0) : s.Keeps 17592186046464 t0 := by
  unfold execSagDetect at e
  cases e
  have hM : 17592186046464 ||| 17592186046464 = 17592186046464 := by decide
  have hk := State.Keeps.refl (M := 17592186046464) s
  repeat' first
    | with_reducible assumption | exact mask_sub hM (by decide) | with_reducible apply State.sagDetect_keeps

theorem execSagClear_keeps {mv : Nat} {us : Nat} {s t0 : State} (e : execSagClear mv us s = .next t0) : s.Keeps 17592186046464 t0 := by
  unfold execSagClear at e
  cases e
  have hM : 17592186046464 ||| 17592186046464 = 17592186046464 := by decide
  have hk := State.Keeps.refl (M := 17592186046464) s
  repeat' first
    | with_reducible assumption | exact mask_sub hM (by decide) | with_reducible exact Rg.PWR_STATUS_SAG_in
    | with_reducible apply State.reasonOff_keeps | with_reducible apply State.setF_keeps | with_reducible apply keeps_ite

theorem execCurrentSlowBegin_keeps {w : Nat} {s t0 : State} (e : execCurrentSlowBegin w s = .next t0) : s.Keeps 17592186046464 t0 := by
  unfold execCurrentSlowBegin at e
  cases e
  have hM : 17592186046464 ||| 17592186046464 = 17592186046464 := by decide
  have hk := State.Keeps.refl (M := 17592186046464) s
  repeat' first
    | with_reducible assumption | exact mask_sub hM (by decide) | with_reducible exact Rg.PWR_STATUS_CURRENT_in
    | with_reducible apply State.noteCurrent_keeps | with_reducible apply State.raise_keeps | with_reducible apply keeps_ite

theorem execCurrentSlowEnd_keeps {w : Nat} {s t0 : State} (e : execCurrentSlowEnd w s = .next t0) : s.Keeps 17592186046464 t0 := by
  unfold execCurrentSlowEnd at e
  cases e
  have hM : 17592186046464 ||| 17592186046464 = 17592186046464 := by decide
  have hk := State.Keeps.refl (M := 17592186046464) s
  repeat' first
    | with_reducible assumption | exact mask_sub hM (by decide) | with_reducible exact Rg.PWR_STATUS_CURRENT_in
    | with_reducible apply State.noteCurrent_keeps | with_reducible apply State.setF_keeps | with_reducible apply keeps_ite

theorem execDroopAssert_keeps {island : Nat} {s t0 : State} (e : execDroopAssert island s = .next t0) : s.Keeps 17592186046464 t0 := by
  unfold execDroopAssert at e
  cases e
  have hM : 17592186046464 ||| 17592186046464 = 17592186046464 := by decide
  have hk := State.Keeps.refl (M := 17592186046464) s
  repeat' first
    | with_reducible assumption | exact mask_sub hM (by decide) | with_reducible apply State.setStretched_keeps
    | with_reducible apply keeps_ite

theorem execDroopClear_keeps {island : Nat} {cycles : Nat} {s t0 : State} (e : execDroopClear island cycles s = .next t0) : s.Keeps 17592186046464 t0 := by
  unfold execDroopClear at e
  cases e
  have hM : 17592186046464 ||| 17592186046464 = 17592186046464 := by decide
  have hk := State.Keeps.refl (M := 17592186046464) s
  repeat' first
    | with_reducible assumption | exact mask_sub hM (by decide) | with_reducible apply State.setStretched_keeps
    | with_reducible apply keeps_ite

theorem execThermtrip_keeps {k : Nat} {celsius : Nat} {s t0 : State} (e : execThermtrip k celsius s = .next t0) : s.Keeps 800711634461390855 t0 := by
  unfold execThermtrip at e
  cases e
  have hM : 800711634461390855 ||| 800711634461390855 = 800711634461390855 := by decide
  have hk := State.Keeps.refl (M := 800711634461390855) s
  repeat' first
    | with_reducible assumption | exact mask_sub hM (by decide) | with_reducible apply State.thermtrip_keeps

theorem execCoreRampOnStart_keeps {c : Nat} {s t0 : State} (e : execCoreRampOnStart c s = .next t0) : s.Keeps 17609374308352 t0 := by
  unfold execCoreRampOnStart at e
  cases e
  have hM : 17609374308352 ||| 17609374308352 = 17609374308352 := by decide
  have hk := State.Keeps.refl (M := 17609374308352) s
  repeat' first
    | with_reducible assumption | exact mask_sub hM (by decide) | with_reducible apply State.rampOn_keeps

theorem execCoreOn_keeps {c : Nat} {s t0 : State} (e : execCoreOn c s = .next t0) : s.Keeps 274886295552 t0 := by
  unfold execCoreOn at e
  cases e
  have hM : 274886295552 ||| 274886295552 = 274886295552 := by decide
  have hk := State.Keeps.refl (M := 274886295552) s
  repeat' first
    | with_reducible assumption | exact mask_sub hM (by decide) | with_reducible apply State.coreOn_keeps
    | with_reducible apply keeps_ite

theorem execCoreDrainedOff_keeps {c : Nat} {s t0 : State} (e : execCoreDrainedOff c s = .next t0) : s.Keeps 72057594046316544 t0 := by
  unfold execCoreDrainedOff at e
  cases e
  have hM : 72057594046316544 ||| 72057594046316544 = 72057594046316544 := by decide
  have hk := State.Keeps.refl (M := 72057594046316544) s
  repeat' first
    | with_reducible assumption | exact mask_sub hM (by decide) | with_reducible apply State.islandOff_keeps
    | with_reducible apply keeps_ite

theorem execPowerLoop_keeps {m : PowerIn} {s t0 : State} (e : execPowerLoop m s = .next t0) : s.Keeps 218583259554441216 t0 := by
  unfold execPowerLoop at e
  cases e
  have hM : 218583259554441216 ||| 218583259554441216 = 218583259554441216 := by decide
  have hk := State.Keeps.refl (M := 218583259554441216) s
  repeat' first
    | with_reducible assumption | exact mask_sub hM (by decide) | with_reducible apply State.powerLoop_keeps

theorem execPwrCapSetWrite_keeps {v : W64} {s t0 : State} (e : execPwrCapSetWrite v s = .next t0) : s.Keeps 17592186044416 t0 := by
  unfold execPwrCapSetWrite at e
  cases e
  have hM : 17592186044416 ||| 17592186044416 = 17592186044416 := by decide
  have hk := State.Keeps.refl (M := 17592186044416) s
  repeat' first
    | with_reducible assumption | exact mask_sub hM (by decide) | with_reducible apply State.capSet_keeps

theorem execRefLost_keeps {ns : Nat} {s t0 : State} (e : execRefLost ns s = .next t0) : s.Keeps 26392574033920 t0 := by
  unfold execRefLost at e
  cases e
  have hM : 26392574033920 ||| 26392574033920 = 26392574033920 := by decide
  have hk := State.Keeps.refl (M := 26392574033920) s
  repeat' first
    | with_reducible assumption | exact mask_sub hM (by decide) | with_reducible exact Rg.DEV_TIME_CTRL_REF_EXT_in
    | with_reducible exact Rg.PWR_IRQ_REF_LOST_in | with_reducible apply State.event_keeps
    | with_reducible apply State.raise_keeps | with_reducible apply State.setF_keeps | with_reducible apply keeps_ite

theorem execPpsEdge_keeps {ns : Nat} {set : Option W64} {s t0 : State} (e : execPpsEdge ns set s = .next t0) : s.Keeps 8796093026304 t0 := by
  unfold execPpsEdge at e
  cases e
  have hM : 8796093026304 ||| 8796093026304 = 8796093026304 := by decide
  have hk := State.Keeps.refl (M := 8796093026304) s
  repeat' first
    | with_reducible assumption | exact mask_sub hM (by decide) | with_reducible apply State.ppsEdge_keeps
    | with_reducible apply keeps_ite

theorem execDevTimeSetWrite_keeps {v : W64} {s t0 : State} (e : execDevTimeSetWrite v s = .next t0) : s.Keeps 8796093026304 t0 := by
  unfold execDevTimeSetWrite at e
  cases e
  have hM : 8796093026304 ||| 8796093026304 = 8796093026304 := by decide
  have hk := State.Keeps.refl (M := 8796093026304) s
  repeat' first
    | with_reducible assumption | exact mask_sub hM (by decide) | with_reducible apply State.timeSet_keeps

theorem execKeyTouch_keeps {s t0 : State} (e : execKeyTouch s = .next t0) : s.Keeps 281477124194304 t0 := by
  unfold execKeyTouch at e
  cases e
  have hM : 281477124194304 ||| 281477124194304 = 281477124194304 := by decide
  have hk := State.Keeps.refl (M := 281477124194304) s
  repeat' first
    | with_reducible assumption | exact mask_sub hM (by decide) | with_reducible apply State.touch_keeps

theorem execKeyHoldSegment_keeps {i : Nat} {s t0 : State} (e : execKeyHoldSegment i s = .next t0) : s.Keeps 281494304067584 t0 := by
  unfold execKeyHoldSegment at e
  cases e
  have hM : 281494304067584 ||| 281494304067584 = 281494304067584 := by decide
  have hk := State.Keeps.refl (M := 281494304067584) s
  repeat' first
    | with_reducible assumption | exact mask_sub hM (by decide) | with_reducible apply State.holdSegment_keeps

theorem execKeyForceStopHold_keeps {s t0 : State} (e : execKeyForceStopHold s = .next t0) : s.Keeps 800975519391150087 t0 := by
  unfold execKeyForceStopHold at e
  cases e
  have hM : 800975519391150087 ||| 800975519391150087 = 800975519391150087 := by decide
  have hk := State.Keeps.refl (M := 800975519391150087) s
  repeat' first
    | with_reducible assumption | exact mask_sub hM (by decide) | with_reducible apply State.holdForce_keeps

theorem execKeyRelease_keeps {s t0 : State} (e : execKeyRelease s = .next t0) : s.Keeps 810053088463810567 t0 := by
  unfold execKeyRelease at e
  cases e
  have hM : 810053088463810567 ||| 810053088463810567 = 810053088463810567 := by decide
  have hk := State.Keeps.refl (M := 810053088463810567) s
  repeat' first
    | with_reducible assumption | exact mask_sub hM (by decide) | with_reducible apply State.keyUp_keeps

theorem execSvcQuiesce_keeps {s t0 : State} (e : execSvcQuiesce s = .next t0) : s.Keeps 590253170043650048 t0 := by
  unfold execSvcQuiesce at e
  cases e
  have hM : 590253170043650048 ||| 590253170043650048 = 590253170043650048 := by decide
  have hk := State.Keeps.refl (M := 590253170043650048) s
  repeat' first
    | with_reducible assumption | exact mask_sub hM (by decide) | with_reducible apply State.quiesce_keeps

theorem execSvcResume_keeps {s t0 : State} (e : execSvcResume s = .next t0) : s.Keeps 590323539861569536 t0 := by
  unfold execSvcResume at e
  cases e
  have hM : 590323539861569536 ||| 590323539861569536 = 590323539861569536 := by decide
  have hk := State.Keeps.refl (M := 590323539861569536) s
  repeat' first
    | with_reducible assumption | exact mask_sub hM (by decide) | with_reducible apply State.resume_keeps

theorem execSvcForceStop_keeps {s t0 : State} (e : execSvcForceStop s = .next t0) : s.Keeps 800975519391150087 t0 := by
  unfold execSvcForceStop at e
  cases e
  have hM : 800975519391150087 ||| 800975519391150087 = 800975519391150087 := by decide
  have hk := State.Keeps.refl (M := 800975519391150087) s
  repeat' first
    | with_reducible assumption | exact mask_sub hM (by decide) | with_reducible apply State.forceStop_keeps

theorem execQuiesceSettled_keeps {s t0 : State} (e : execQuiesceSettled s = .next t0) : s.Keeps 800975517243666439 t0 := by
  unfold execQuiesceSettled at e
  cases e
  have hM : 800975517243666439 ||| 800975517243666439 = 800975517243666439 := by decide
  have hk := State.Keeps.refl (M := 800975517243666439) s
  repeat' first
    | with_reducible assumption | exact mask_sub hM (by decide) | with_reducible apply State.quiesceDone_keeps

theorem execQuiesceTimeout_keeps {s t0 : State} (e : execQuiesceTimeout s = .next t0) : s.Keeps 800694037971988487 t0 := by
  unfold execQuiesceTimeout at e
  cases e
  have hM : 800694037971988487 ||| 800694037971988487 = 800694037971988487 := by decide
  have hk := State.Keeps.refl (M := 800694037971988487) s
  repeat' first
    | with_reducible assumption | exact mask_sub hM (by decide) | with_reducible apply State.quiesceExpire_keeps

theorem execForceStopComplete_keeps {s t0 : State} (e : execForceStopComplete s = .next t0) : s.Keeps 800975517243666439 t0 := by
  unfold execForceStopComplete at e
  cases e
  have hM : 800975517243666439 ||| 800975517243666439 = 800975517243666439 := by decide
  have hk := State.Keeps.refl (M := 800975517243666439) s
  repeat' first
    | with_reducible assumption | exact mask_sub hM (by decide) | with_reducible apply State.stopDone_keeps

theorem execFaultPatternExpiry_keeps {p : Nat} {s t0 : State} (e : execFaultPatternExpiry p s = .next t0) : s.Keeps 154618826752 t0 := by
  unfold execFaultPatternExpiry at e
  cases e
  have hM : 154618826752 ||| 154618826752 = 154618826752 := by decide
  have hk := State.Keeps.refl (M := 154618826752) s
  repeat' first
    | with_reducible assumption | exact mask_sub hM (by decide) | with_reducible apply State.passTo_keeps
    | with_reducible refine State.modPart_life ?_ ?_ _ _ (fun _ => rfl) | split

theorem execPresenceChange_keeps {i : Nat} {present : Bool} {s t0 : State} (e : execPresenceChange i present s = .next t0) : s.Keeps 801608831646298119 t0 := by
  unfold execPresenceChange at e
  cases e
  have hM : 801608831646298119 ||| 801608831646298119 = 801608831646298119 := by decide
  have hk := State.Keeps.refl (M := 801608831646298119) s
  repeat' first
    | with_reducible assumption | exact mask_sub hM (by decide) | with_reducible apply State.presence_keeps

theorem execSetEndpointId_keeps {op : Nat} {eid : Nat} {s t0 : State} (e : execSetEndpointId op eid s = .next t0) : s.Keeps 4294967296 t0 := by
  unfold execSetEndpointId at e
  cases e
  have hM : 4294967296 ||| 4294967296 = 4294967296 := by decide
  have hk := State.Keeps.refl (M := 4294967296) s
  repeat' first
    | with_reducible assumption | exact mask_sub hM (by decide) | with_reducible apply State.mgmtCmd_keeps
    | with_reducible apply State.answer_keeps | with_reducible apply State.modMgmt_keeps | split | intro _

theorem execGetEndpointId_keeps {s t0 : State} (e : execGetEndpointId s = .next t0) : s.Keeps 4294967296 t0 := by
  unfold execGetEndpointId at e
  cases e
  have hM : 4294967296 ||| 4294967296 = 4294967296 := by decide
  have hk := State.Keeps.refl (M := 4294967296) s
  repeat' first
    | with_reducible assumption | exact mask_sub hM (by decide) | with_reducible apply State.mgmtCmd_keeps
    | with_reducible apply State.answer_keeps | intro _

theorem execGetEndpointUuid_keeps {s t0 : State} (e : execGetEndpointUuid s = .next t0) : s.Keeps 4294967296 t0 := by
  unfold execGetEndpointUuid at e
  cases e
  have hM : 4294967296 ||| 4294967296 = 4294967296 := by decide
  have hk := State.Keeps.refl (M := 4294967296) s
  repeat' first
    | with_reducible assumption | exact mask_sub hM (by decide) | with_reducible apply State.mgmtCmd_keeps
    | with_reducible apply State.answer_keeps | intro _

theorem execGetMctpVersionSupport_keeps {s t0 : State} (e : execGetMctpVersionSupport s = .next t0) : s.Keeps 4294967296 t0 := by
  unfold execGetMctpVersionSupport at e
  cases e
  have hM : 4294967296 ||| 4294967296 = 4294967296 := by decide
  have hk := State.Keeps.refl (M := 4294967296) s
  repeat' first
    | with_reducible assumption | exact mask_sub hM (by decide) | with_reducible apply State.mgmtCmd_keeps
    | with_reducible apply State.answer_keeps | intro _

theorem execGetMessageTypeSupport_keeps {s t0 : State} (e : execGetMessageTypeSupport s = .next t0) : s.Keeps 4294967296 t0 := by
  unfold execGetMessageTypeSupport at e
  cases e
  have hM : 4294967296 ||| 4294967296 = 4294967296 := by decide
  have hk := State.Keeps.refl (M := 4294967296) s
  repeat' first
    | with_reducible assumption | exact mask_sub hM (by decide) | with_reducible apply State.mgmtCmd_keeps
    | with_reducible apply State.answer_keeps | intro _

theorem execI3cDynamicAddress_keeps {addr : Nat} {s t0 : State} (e : execI3cDynamicAddress addr s = .next t0) : s.Keeps 4294967296 t0 := by
  unfold execI3cDynamicAddress at e
  cases e
  have hM : 4294967296 ||| 4294967296 = 4294967296 := by decide
  exact State.mgmtCmd_keeps (mask_sub hM (by decide)) (.refl s) fun u hu => keeps_ite (State.modMgmt_keeps (mask_sub hM (by decide)) hu _) hu

theorem execGetTid_keeps {s t0 : State} (e : execGetTid s = .next t0) : s.Keeps 4294967296 t0 := by
  unfold execGetTid at e
  cases e
  have hM : 4294967296 ||| 4294967296 = 4294967296 := by decide
  have hk := State.Keeps.refl (M := 4294967296) s
  repeat' first
    | with_reducible assumption | exact mask_sub hM (by decide) | with_reducible apply State.mgmtCmd_keeps
    | with_reducible apply State.answer_keeps | intro _

theorem execSetTid_keeps {tid : Nat} {s t0 : State} (e : execSetTid tid s = .next t0) : s.Keeps 4294967296 t0 := by
  unfold execSetTid at e
  cases e
  have hM : 4294967296 ||| 4294967296 = 4294967296 := by decide
  have hk := State.Keeps.refl (M := 4294967296) s
  repeat' first
    | with_reducible assumption | exact mask_sub hM (by decide) | with_reducible apply State.mgmtCmd_keeps
    | with_reducible apply State.answer_keeps | with_reducible apply State.modMgmt_keeps | split | intro _

theorem execGetPldmVersion_keeps {type : Nat} {s t0 : State} (e : execGetPldmVersion type s = .next t0) : s.Keeps 4294967296 t0 := by
  unfold execGetPldmVersion at e
  cases e
  have hM : 4294967296 ||| 4294967296 = 4294967296 := by decide
  have hk := State.Keeps.refl (M := 4294967296) s
  repeat' first
    | with_reducible assumption | exact mask_sub hM (by decide) | with_reducible apply State.mgmtCmd_keeps
    | with_reducible apply State.answer_keeps | split | intro _

theorem execGetPldmTypes_keeps {s t0 : State} (e : execGetPldmTypes s = .next t0) : s.Keeps 4294967296 t0 := by
  unfold execGetPldmTypes at e
  cases e
  have hM : 4294967296 ||| 4294967296 = 4294967296 := by decide
  have hk := State.Keeps.refl (M := 4294967296) s
  repeat' first
    | with_reducible assumption | exact mask_sub hM (by decide) | with_reducible apply State.mgmtCmd_keeps
    | with_reducible apply State.answer_keeps | intro _

theorem execGetPldmCommands_keeps {type : Nat} {s t0 : State} (e : execGetPldmCommands type s = .next t0) : s.Keeps 4294967296 t0 := by
  unfold execGetPldmCommands at e
  cases e
  have hM : 4294967296 ||| 4294967296 = 4294967296 := by decide
  have hk := State.Keeps.refl (M := 4294967296) s
  repeat' first
    | with_reducible assumption | exact mask_sub hM (by decide) | with_reducible apply State.mgmtCmd_keeps
    | with_reducible apply State.answer_keeps | split | intro _

theorem execSensorUpdate_keeps {s t0 : State} (e : execSensorUpdate s = .next t0) : s.Keeps 4294967296 t0 := by
  unfold execSensorUpdate at e
  cases e
  have hM : 4294967296 ||| 4294967296 = 4294967296 := by decide
  have hk := State.Keeps.refl (M := 4294967296) s
  repeat' first
    | with_reducible assumption | exact mask_sub hM (by decide) | with_reducible apply State.sensorUpdate_keeps

theorem execGetPdrRepositoryInfo_keeps {s t0 : State} (e : execGetPdrRepositoryInfo s = .next t0) : s.Keeps 4294967296 t0 := by
  unfold execGetPdrRepositoryInfo at e
  cases e
  have hM : 4294967296 ||| 4294967296 = 4294967296 := by decide
  have hk := State.Keeps.refl (M := 4294967296) s
  repeat' first
    | with_reducible assumption | exact mask_sub hM (by decide) | with_reducible apply State.mgmtFullCmd_keeps
    | with_reducible apply State.answer_keeps | intro _

theorem execGetPdr_keeps {handle : Nat} {s t0 : State} (e : execGetPdr handle s = .next t0) : s.Keeps 4294967296 t0 := by
  unfold execGetPdr at e
  cases e
  have hM : 4294967296 ||| 4294967296 = 4294967296 := by decide
  have hk := State.Keeps.refl (M := 4294967296) s
  repeat' first
    | with_reducible assumption | exact mask_sub hM (by decide) | with_reducible apply State.mgmtFullCmd_keeps
    | with_reducible apply State.answer_keeps | split | intro _

theorem execGetSensorReading_keeps {id : Nat} {s t0 : State} (e : execGetSensorReading id s = .next t0) : s.Keeps 4294967296 t0 := by
  unfold execGetSensorReading at e
  cases e
  have hM : 4294967296 ||| 4294967296 = 4294967296 := by decide
  have hk := State.Keeps.refl (M := 4294967296) s
  repeat' first
    | with_reducible assumption | exact mask_sub hM (by decide) | with_reducible apply State.mgmtFullCmd_keeps
    | with_reducible apply State.answer_keeps | split | intro _

theorem execGetStateSensorReadings_keeps {id : Nat} {s t0 : State} (e : execGetStateSensorReadings id s = .next t0) : s.Keeps 4294967296 t0 := by
  unfold execGetStateSensorReadings at e
  cases e
  have hM : 4294967296 ||| 4294967296 = 4294967296 := by decide
  have hk := State.Keeps.refl (M := 4294967296) s
  repeat' first
    | with_reducible assumption | exact mask_sub hM (by decide) | with_reducible apply State.mgmtCmd_keeps
    | with_reducible apply State.answer_keeps | split | intro _

theorem execGetNumericEffecterValue_keeps {id : Nat} {s t0 : State} (e : execGetNumericEffecterValue id s = .next t0) : s.Keeps 4294967296 t0 := by
  unfold execGetNumericEffecterValue at e
  cases e
  have hM : 4294967296 ||| 4294967296 = 4294967296 := by decide
  have hk := State.Keeps.refl (M := 4294967296) s
  repeat' first
    | with_reducible assumption | exact mask_sub hM (by decide) | with_reducible apply State.mgmtFullCmd_keeps
    | with_reducible apply State.answer_keeps | split | intro _

theorem execSetNumericEffecterValue_keeps {id : Nat} {v : Nat} {s t0 : State} (e : execSetNumericEffecterValue id v s = .next t0) : s.Keeps 17596481011712 t0 := by
  unfold execSetNumericEffecterValue at e
  cases e
  have hM : 17596481011712 ||| 17596481011712 = 17596481011712 := by decide
  have hk := State.Keeps.refl (M := 17596481011712) s
  repeat' first
    | with_reducible assumption | exact mask_sub hM (by decide) | with_reducible exact Rg.PWR_CAP_SET_CAP_W_in
    | with_reducible exact Rg.PWR_CAP_SET_REJECT_in | with_reducible apply State.mgmtFullCmd_keeps
    | with_reducible apply State.answer_keeps | with_reducible apply State.raise_keeps | with_reducible apply State.setF_keeps
    | split | intro _

theorem execSetStateEffecterStates_keeps {id : Nat} {v : Nat} {s t0 : State} (e : execSetStateEffecterStates id v s = .next t0) : s.Keeps 281479271677952 t0 := by
  unfold execSetStateEffecterStates at e
  cases e
  have hM : 281479271677952 ||| 281479271677952 = 281479271677952 := by decide
  have hk := State.Keeps.refl (M := 281479271677952) s
  repeat' first
    | with_reducible assumption | exact mask_sub hM (by decide) | with_reducible exact Rg.SVC_STATE_IDENTIFY_in
    | with_reducible apply State.mgmtFullCmd_keeps | with_reducible apply State.answer_keeps
    | with_reducible apply State.setF_keeps | split | intro _

theorem execSetEventReceiver_keeps {enable : Bool} {addr : Nat} {s t0 : State} (e : execSetEventReceiver enable addr s = .next t0) : s.Keeps 4294967296 t0 := by
  unfold execSetEventReceiver at e
  cases e
  have hM : 4294967296 ||| 4294967296 = 4294967296 := by decide
  have hk := State.Keeps.refl (M := 4294967296) s
  repeat' first
    | with_reducible assumption | exact mask_sub hM (by decide) | with_reducible apply State.mgmtFullCmd_keeps
    | with_reducible apply State.answer_keeps | with_reducible apply State.modMgmt_keeps | split | intro _

theorem execGetFruRecordTableMetadata_keeps {s t0 : State} (e : execGetFruRecordTableMetadata s = .next t0) : s.Keeps 4294967296 t0 := by
  unfold execGetFruRecordTableMetadata at e
  cases e
  have hM : 4294967296 ||| 4294967296 = 4294967296 := by decide
  have hk := State.Keeps.refl (M := 4294967296) s
  repeat' first
    | with_reducible assumption | exact mask_sub hM (by decide) | with_reducible apply State.mgmtCmd_keeps
    | with_reducible apply State.answer_keeps | intro _

theorem execGetFruRecordTable_keeps {s t0 : State} (e : execGetFruRecordTable s = .next t0) : s.Keeps 4294967296 t0 := by
  unfold execGetFruRecordTable at e
  cases e
  have hM : 4294967296 ||| 4294967296 = 4294967296 := by decide
  have hk := State.Keeps.refl (M := 4294967296) s
  repeat' first
    | with_reducible assumption | exact mask_sub hM (by decide) | with_reducible apply State.mgmtCmd_keeps
    | with_reducible apply State.answer_keeps | intro _

theorem execRegisterWrite_keeps {who : Actor} {addr : Span} {v : W64} {s t0 : State} (e : execRegisterWrite who addr v s = .next t0) : s.Keeps 2017612624467849519 t0 := by
  unfold execRegisterWrite at e
  cases e
  have hM : 2017612624467849519 ||| 2017612624467849519 = 2017612624467849519 := by decide
  have hk := State.Keeps.refl (M := 2017612624467849519) s
  repeat' first
    | with_reducible assumption | exact mask_sub hM (by decide) | with_reducible apply State.access_keeps
    | with_reducible apply State.regWrite_keeps | intro _

theorem execRcCounterRead_keeps {who : Actor} {addr : Span} {s t0 : State} (e : execRcCounterRead who addr s = .next t0) : s.Keeps 1171641799312261121 t0 := by
  unfold execRcCounterRead at e
  cases e
  have hM : 1171641799312261121 ||| 1171641799312261121 = 1171641799312261121 := by decide
  have hk := State.Keeps.refl (M := 1171641799312261121) s
  repeat' first
    | with_reducible assumption | exact mask_sub hM (by decide) | with_reducible apply State.access_keeps
    | with_reducible apply State.regRead_keeps | intro _

theorem execRegRd_keeps {addr : Nat} {len : Nat} {tag : Nat} {part : Nat} {s t0 : State} (e : execRegRd addr len tag part s = .next t0) : s.Keeps 1171641798238519297 t0 := by
  unfold execRegRd at e
  cases e
  have hM : 1171641798238519297 ||| 1171641798238519297 = 1171641798238519297 := by decide
  have hk := State.Keeps.refl (M := 1171641798238519297) s
  repeat' first
    | with_reducible assumption | exact mask_sub hM (by decide) | with_reducible apply State.hostReg_keeps
    | with_reducible apply State.regRead_keeps | intro _

theorem execRegWr_keeps {addr : Nat} {len : Nat} {tag : Nat} {part : Nat} {v : W64} {s t0 : State} (e : execRegWr addr len tag part v s = .next t0) : s.Keeps 2017612633057784111 t0 := by
  unfold execRegWr at e
  cases e
  have hM : 2017612633057784111 ||| 2017612633057784111 = 2017612633057784111 := by decide
  have hk := State.Keeps.refl (M := 2017612633057784111) s
  repeat' first
    | with_reducible assumption | exact mask_sub hM (by decide) | with_reducible apply State.hostReg_keeps
    | with_reducible apply State.regWrite_keeps | with_reducible apply State.flushHost_keeps | intro _

theorem execDoorbell_keeps {addr : Nat} {v : W64} {s t0 : State} (e : execDoorbell addr v s = .next t0) : s.Keeps 2017612624467849519 t0 := by
  unfold execDoorbell at e
  cases e
  have hM : 2017612624467849519 ||| 2017612624467849519 = 2017612624467849519 := by decide
  have hk := State.Keeps.refl (M := 2017612624467849519) s
  repeat' first
    | with_reducible assumption | exact mask_sub hM (by decide) | with_reducible apply State.ring_keeps

/-- The parts of the state in a list, as bits. -/
def maskOf (l : List Comp) : Nat := l.foldr (fun k m => 2 ^ k.idx ||| m) 0

/-- Every command keeps the relation, and changes only what it may. -/
theorem exec_keeps {c : Instr} {s t : State} (e : exec c s = .next t) : s.Keeps (maskOf (touches c)) t := by
  cases c with
  | gemmTask _ _ => exact (execGemmTask_keeps e).mono (by simp only [touches]; decide)
  | vecTask _ => exact (execVecTask_keeps e).mono (by simp only [touches]; decide)
  | copyTask _ => exact (execCopyTask_keeps e).mono (by simp only [touches]; decide)
  | skimmerTileServe _ => exact (execSkimmerTileServe_keeps e).mono (by simp only [touches]; decide)
  | skmDisableWrite _ _ => exact (execSkmDisableWrite_keeps e).mono (by simp only [touches]; decide)
  | skimEncode _ => exact (execSkimEncode_keeps e).mono (by simp only [touches]; decide)
  | skimDecode _ => exact (execSkimDecode_keeps e).mono (by simp only [touches]; decide)
  | skimCheck24 _ => exact (execSkimCheck24_keeps e).mono (by simp only [touches]; decide)
  | attnForward _ _ => exact (execAttnForward_keeps e).mono (by simp only [touches]; decide)
  | attnBackward _ _ => exact (execAttnBackward_keeps e).mono (by simp only [touches]; decide)
  | attnVerify _ => exact (execAttnVerify_keeps e).mono (by simp only [touches]; decide)
  | dspLoad _ => exact (execDspLoad_keeps e).mono (by simp only [touches]; decide)
  | dspUnload _ _ => exact (execDspUnload_keeps e).mono (by simp only [touches]; decide)
  | taskIssue => exact (execTaskIssue_keeps e).mono (by simp only [touches]; decide)
  | arraysFinish _ => exact (execArraysFinish_keeps e).mono (by simp only [touches]; decide)
  | linkBufferHandover _ _ _ => exact (execLinkBufferHandover_keeps e).mono (by simp only [touches]; decide)
  | arrayRampDown _ => exact (execArrayRampDown_keeps e).mono (by simp only [touches]; decide)
  | mcastBlockRead _ => exact (execMcastBlockRead_keeps e).mono (by simp only [touches]; decide)
  | taskComplete _ => exact (execTaskComplete_keeps e).mono (by simp only [touches]; decide)
  | ctlDone _ _ => exact (execCtlDone_keeps e).mono (by simp only [touches]; decide)
  | ctlWdogExpiry _ => exact (execCtlWdogExpiry_keeps e).mono (by simp only [touches]; decide)
  | cringHeadWrite _ _ => exact (execCringHeadWrite_keeps e).mono (by simp only [touches]; decide)
  | cbHeadWrite _ _ => exact (execCbHeadWrite_keeps e).mono (by simp only [touches]; decide)
  | poolRecompute _ => exact (execPoolRecompute_keeps e).mono (by simp only [touches]; decide)
  | pageWalk _ _ _ _ _ _ _ => exact (execPageWalk_keeps e).mono (by simp only [touches]; decide)
  | pinWaitResume _ _ => exact (execPinWaitResume_keeps e).mono (by simp only [touches]; decide)
  | pageRef _ _ => exact (execPageRef_keeps e).mono (by simp only [touches]; decide)
  | pageUnref _ _ => exact (execPageUnref_keeps e).mono (by simp only [touches]; decide)
  | pageRead _ _ => exact (execPageRead_keeps e).mono (by simp only [touches]; decide)
  | pageLowWrite _ _ => exact (execPageLowWrite_keeps e).mono (by simp only [touches]; decide)
  | memSlotGrant _ => exact (execMemSlotGrant_keeps e).mono (by simp only [touches]; decide)
  | repairWrite => exact (execRepairWrite_keeps e).mono (by simp only [touches]; decide)
  | scrubRead => exact (execScrubRead_keeps e).mono (by simp only [touches]; decide)
  | writeQueueResume _ => exact (execWriteQueueResume_keeps e).mono (by simp only [touches]; decide)
  | memLogPop => exact (execMemLogPop_keeps e).mono (by simp only [touches]; decide)
  | chnAppend _ _ _ => exact (execChnAppend_keeps e).mono (by simp only [touches]; decide)
  | chnPutAt _ _ _ => exact (execChnPutAt_keeps e).mono (by simp only [touches]; decide)
  | chnContrib _ _ _ => exact (execChnContrib_keeps e).mono (by simp only [touches]; decide)
  | sendCreditResume _ _ => exact (execSendCreditResume_keeps e).mono (by simp only [touches]; decide)
  | sendSpill _ _ => exact (execSendSpill_keeps e).mono (by simp only [touches]; decide)
  | messageLand _ => exact (execMessageLand_keeps e).mono (by simp only [touches]; decide)
  | selNext _ _ => exact (execSelNext_keeps e).mono (by simp only [touches]; decide)
  | selDone _ _ _ => exact (execSelDone_keeps e).mono (by simp only [touches]; decide)
  | epHeadWrite _ _ => exact (execEpHeadWrite_keeps e).mono (by simp only [touches]; decide)
  | chnOpen _ => exact (execChnOpen_keeps e).mono (by simp only [touches]; decide)
  | chnClose _ _ _ => exact (execChnClose_keeps e).mono (by simp only [touches]; decide)
  | endpointFree _ => exact (execEndpointFree_keeps e).mono (by simp only [touches]; decide)
  | churnAdd _ => exact (execChurnAdd_keeps e).mono (by simp only [touches]; decide)
  | churnNoticePlace _ => exact (execChurnNoticePlace_keeps e).mono (by simp only [touches]; decide)
  | dspRun _ _ => exact (execDspRun_keeps e).mono (by simp only [touches]; decide)
  | ledgerStepTrigger _ _ => exact (execLedgerStepTrigger_keeps e).mono (by simp only [touches]; decide)
  | stepSettle _ _ => exact (execStepSettle_keeps e).mono (by simp only [touches]; decide)
  | gatePass _ => exact (execGatePass_keeps e).mono (by simp only [touches]; decide)
  | ldgSqTailWrite _ _ => exact (execLdgSqTailWrite_keeps e).mono (by simp only [touches]; decide)
  | submit _ => exact (execSubmit_keeps e).mono (by simp only [touches]; decide)
  | cancel _ => exact (execCancel_keeps e).mono (by simp only [touches]; decide)
  | extend _ => exact (execExtend_keeps e).mono (by simp only [touches]; decide)
  | pause _ => exact (execPause_keeps e).mono (by simp only [touches]; decide)
  | resume _ => exact (execResume_keeps e).mono (by simp only [touches]; decide)
  | release _ => exact (execRelease_keeps e).mono (by simp only [touches]; decide)
  | finish _ => exact (execFinish_keeps e).mono (by simp only [touches]; decide)
  | ldgRqHeadWrite _ _ => exact (execLdgRqHeadWrite_keeps e).mono (by simp only [touches]; decide)
  | ldgEntryRead _ _ => exact (execLdgEntryRead_keeps e).mono (by simp only [touches]; decide)
  | batchWindowExpiry _ _ => exact (execBatchWindowExpiry_keeps e).mono (by simp only [touches]; decide)
  | batchDeadlineClose _ _ => exact (execBatchDeadlineClose_keeps e).mono (by simp only [touches]; decide)
  | budgetEnter _ => exact (execBudgetEnter_keeps e).mono (by simp only [touches]; decide)
  | budgetLeave _ => exact (execBudgetLeave_keeps e).mono (by simp only [touches]; decide)
  | pressureBegin _ => exact (execPressureBegin_keeps e).mono (by simp only [touches]; decide)
  | pressureEnd _ => exact (execPressureEnd_keeps e).mono (by simp only [touches]; decide)
  | deadlinePass _ => exact (execDeadlinePass_keeps e).mono (by simp only [touches]; decide)
  | adpBind _ _ _ => exact (execAdpBind_keeps e).mono (by simp only [touches]; decide)
  | adpUnbind _ _ => exact (execAdpUnbind_keeps e).mono (by simp only [touches]; decide)
  | adpPublish _ _ => exact (execAdpPublish_keeps e).mono (by simp only [touches]; decide)
  | adpAreaWrite _ _ => exact (execAdpAreaWrite_keeps e).mono (by simp only [touches]; decide)
  | xferWait _ => exact (execXferWait_keeps e).mono (by simp only [touches]; decide)
  | xferWrite _ => exact (execXferWrite_keeps e).mono (by simp only [touches]; decide)
  | xferShard _ => exact (execXferShard_keeps e).mono (by simp only [touches]; decide)
  | xferAppend _ => exact (execXferAppend_keeps e).mono (by simp only [touches]; decide)
  | xferPutAt _ => exact (execXferPutAt_keeps e).mono (by simp only [touches]; decide)
  | collReduceScatter _ => exact (execCollReduceScatter_keeps e).mono (by simp only [touches]; decide)
  | collAllGather _ => exact (execCollAllGather_keeps e).mono (by simp only [touches]; decide)
  | collAllReduce _ => exact (execCollAllReduce_keeps e).mono (by simp only [touches]; decide)
  | collBarrier _ => exact (execCollBarrier_keeps e).mono (by simp only [touches]; decide)
  | collContrib _ => exact (execCollContrib_keeps e).mono (by simp only [touches]; decide)
  | ringWdogExpiry _ => exact (execRingWdogExpiry_keeps e).mono (by simp only [touches]; decide)
  | exportStart _ => exact (execExportStart_keeps e).mono (by simp only [touches]; decide)
  | dataFrameReceive _ _ => exact (execDataFrameReceive_keeps e).mono (by simp only [touches]; decide)
  | ackReceive _ _ => exact (execAckReceive_keeps e).mono (by simp only [touches]; decide)
  | helloRequestReceive _ _ => exact (execHelloRequestReceive_keeps e).mono (by simp only [touches]; decide)
  | helloReplyReceive _ _ => exact (execHelloReplyReceive_keeps e).mono (by simp only [touches]; decide)
  | abortReceive _ _ => exact (execAbortReceive_keeps e).mono (by simp only [touches]; decide)
  | abortResend => exact (execAbortResend_keeps e).mono (by simp only [touches]; decide)
  | frameTransmit _ => exact (execFrameTransmit_keeps e).mono (by simp only [touches]; decide)
  | rtoExpiry _ _ => exact (execRtoExpiry_keeps e).mono (by simp only [touches]; decide)
  | helloResendExpiry _ => exact (execHelloResendExpiry_keeps e).mono (by simp only [touches]; decide)
  | ackDelayExpiry _ => exact (execAckDelayExpiry_keeps e).mono (by simp only [touches]; decide)
  | flowIdleExpiry _ _ => exact (execFlowIdleExpiry_keeps e).mono (by simp only [touches]; decide)
  | flowOpenResume => exact (execFlowOpenResume_keeps e).mono (by simp only [touches]; decide)
  | portDetect _ _ => exact (execPortDetect_keeps e).mono (by simp only [touches]; decide)
  | portTrained _ => exact (execPortTrained_keeps e).mono (by simp only [touches]; decide)
  | portTrainFail _ => exact (execPortTrainFail_keeps e).mono (by simp only [touches]; decide)
  | portFailedRetry _ => exact (execPortFailedRetry_keeps e).mono (by simp only [touches]; decide)
  | portEnableWrite _ _ => exact (execPortEnableWrite_keeps e).mono (by simp only [touches]; decide)
  | portLinkLoss _ _ => exact (execPortLinkLoss_keeps e).mono (by simp only [touches]; decide)
  | portSignalLoss _ => exact (execPortSignalLoss_keeps e).mono (by simp only [touches]; decide)
  | linkDetect => exact (execLinkDetect_keeps e).mono (by simp only [touches]; decide)
  | linkPartnerSeen _ => exact (execLinkPartnerSeen_keeps e).mono (by simp only [touches]; decide)
  | linkLanesLock _ => exact (execLinkLanesLock_keeps e).mono (by simp only [touches]; decide)
  | linkTrainTimeout => exact (execLinkTrainTimeout_keeps e).mono (by simp only [touches]; decide)
  | linkConfigDone _ => exact (execLinkConfigDone_keeps e).mono (by simp only [touches]; decide)
  | linkRetrainRelock _ => exact (execLinkRetrainRelock_keeps e).mono (by simp only [touches]; decide)
  | linkRetrainTimeout => exact (execLinkRetrainTimeout_keeps e).mono (by simp only [touches]; decide)
  | replayTimerExpiry => exact (execReplayTimerExpiry_keeps e).mono (by simp only [touches]; decide)
  | flitReceive _ => exact (execFlitReceive_keeps e).mono (by simp only [touches]; decide)
  | flitTransmit => exact (execFlitTransmit_keeps e).mono (by simp only [touches]; decide)
  | hostMemRd _ _ _ _ => exact (execHostMemRd_keeps e).mono (by simp only [touches]; decide)
  | hostMemWr _ _ _ => exact (execHostMemWr_keeps e).mono (by simp only [touches]; decide)
  | memCplReceive _ _ _ => exact (execMemCplReceive_keeps e).mono (by simp only [touches]; decide)
  | cplTimeout _ => exact (execCplTimeout_keeps e).mono (by simp only [touches]; decide)
  | intr _ => exact (execIntr_keeps e).mono (by simp only [touches]; decide)
  | lrlIrqRearmWrite _ => exact (execLrlIrqRearmWrite_keeps e).mono (by simp only [touches]; decide)
  | imgErase => exact (execImgErase_keeps e).mono (by simp only [touches]; decide)
  | imgWrite => exact (execImgWrite_keeps e).mono (by simp only [touches]; decide)
  | imgCommit => exact (execImgCommit_keeps e).mono (by simp only [touches]; decide)
  | imgReload _ => exact (execImgReload_keeps e).mono (by simp only [touches]; decide)
  | partitionReset _ _ => exact (execPartitionReset_keeps e).mono (by simp only [touches]; decide)
  | partitionResetComplete _ => exact (execPartitionResetComplete_keeps e).mono (by simp only [touches]; decide)
  | fltResetPartition _ => exact (execFltResetPartition_keeps e).mono (by simp only [touches]; decide)
  | fltResetCore _ _ => exact (execFltResetCore_keeps e).mono (by simp only [touches]; decide)
  | deviceWarmReset _ => exact (execDeviceWarmReset_keeps e).mono (by simp only [touches]; decide)
  | fltResetDeviceWarm => exact (execFltResetDeviceWarm_keeps e).mono (by simp only [touches]; decide)
  | imgActivate => exact (execImgActivate_keeps e).mono (by simp only [touches]; decide)
  | coldReset => exact (execColdReset_keeps e).mono (by simp only [touches]; decide)
  | moduleReset _ => exact (execModuleReset_keeps e).mono (by simp only [touches]; decide)
  | powerGood _ => exact (execPowerGood_keeps e).mono (by simp only [touches]; decide)
  | moduleResetRelease _ => exact (execModuleResetRelease_keeps e).mono (by simp only [touches]; decide)
  | ccWdogExpiry _ => exact (execCcWdogExpiry_keeps e).mono (by simp only [touches]; decide)
  | spillWaitTimeout _ => exact (execSpillWaitTimeout_keeps e).mono (by simp only [touches]; decide)
  | pinWaitTimeout _ _ => exact (execPinWaitTimeout_keeps e).mono (by simp only [touches]; decide)
  | drainTimeout _ => exact (execDrainTimeout_keeps e).mono (by simp only [touches]; decide)
  | ikWdogExpiry _ => exact (execIkWdogExpiry_keeps e).mono (by simp only [touches]; decide)
  | repairApply => exact (execRepairApply_keeps e).mono (by simp only [touches]; decide)
  | fltLogPop => exact (execFltLogPop_keeps e).mono (by simp only [touches]; decide)
  | fwErase => exact (execFwErase_keeps e).mono (by simp only [touches]; decide)
  | fwWrite => exact (execFwWrite_keeps e).mono (by simp only [touches]; decide)
  | fwCommit => exact (execFwCommit_keeps e).mono (by simp only [touches]; decide)
  | fwActivate => exact (execFwActivate_keeps e).mono (by simp only [touches]; decide)
  | commitSvn _ => exact (execCommitSvn_keeps e).mono (by simp only [touches]; decide)
  | fuseOwner => exact (execFuseOwner_keeps e).mono (by simp only [touches]; decide)
  | attest _ => exact (execAttest_keeps e).mono (by simp only [touches]; decide)
  | idcert => exact (execIdcert_keeps e).mono (by simp only [touches]; decide)
  | partStart _ => exact (execPartStart_keeps e).mono (by simp only [touches]; decide)
  | sbiInfo _ => exact (execSbiInfo_keeps e).mono (by simp only [touches]; decide)
  | sbiReload _ _ _ => exact (execSbiReload_keeps e).mono (by simp only [touches]; decide)
  | sbiReloadStatus _ => exact (execSbiReloadStatus_keeps e).mono (by simp only [touches]; decide)
  | sbiAttest _ _ _ => exact (execSbiAttest_keeps e).mono (by simp only [touches]; decide)
  | sbiFaultInfo _ => exact (execSbiFaultInfo_keeps e).mono (by simp only [touches]; decide)
  | sbiJobFault _ _ => exact (execSbiJobFault_keeps e).mono (by simp only [touches]; decide)
  | sbiSrst _ _ => exact (execSbiSrst_keeps e).mono (by simp only [touches]; decide)
  | sbiHsmHartStart _ _ _ _ => exact (execSbiHsmHartStart_keeps e).mono (by simp only [touches]; decide)
  | hartStop _ => exact (execHartStop_keeps e).mono (by simp only [touches]; decide)
  | cciWdogPet _ => exact (execCciWdogPet_keeps e).mono (by simp only [touches]; decide)
  | powerFail _ _ => exact (execPowerFail_keeps e).mono (by simp only [touches]; decide)
  | sagDetect _ _ => exact (execSagDetect_keeps e).mono (by simp only [touches]; decide)
  | sagClear _ _ => exact (execSagClear_keeps e).mono (by simp only [touches]; decide)
  | currentSlowBegin _ => exact (execCurrentSlowBegin_keeps e).mono (by simp only [touches]; decide)
  | currentSlowEnd _ => exact (execCurrentSlowEnd_keeps e).mono (by simp only [touches]; decide)
  | droopAssert _ => exact (execDroopAssert_keeps e).mono (by simp only [touches]; decide)
  | droopClear _ _ => exact (execDroopClear_keeps e).mono (by simp only [touches]; decide)
  | thermtrip _ _ => exact (execThermtrip_keeps e).mono (by simp only [touches]; decide)
  | coreRampOnStart _ => exact (execCoreRampOnStart_keeps e).mono (by simp only [touches]; decide)
  | coreOn _ => exact (execCoreOn_keeps e).mono (by simp only [touches]; decide)
  | coreDrainedOff _ => exact (execCoreDrainedOff_keeps e).mono (by simp only [touches]; decide)
  | powerLoop _ => exact (execPowerLoop_keeps e).mono (by simp only [touches]; decide)
  | pwrCapSetWrite _ => exact (execPwrCapSetWrite_keeps e).mono (by simp only [touches]; decide)
  | refLost _ => exact (execRefLost_keeps e).mono (by simp only [touches]; decide)
  | ppsEdge _ _ => exact (execPpsEdge_keeps e).mono (by simp only [touches]; decide)
  | devTimeSetWrite _ => exact (execDevTimeSetWrite_keeps e).mono (by simp only [touches]; decide)
  | keyTouch => exact (execKeyTouch_keeps e).mono (by simp only [touches]; decide)
  | keyHoldSegment _ => exact (execKeyHoldSegment_keeps e).mono (by simp only [touches]; decide)
  | keyForceStopHold => exact (execKeyForceStopHold_keeps e).mono (by simp only [touches]; decide)
  | keyRelease => exact (execKeyRelease_keeps e).mono (by simp only [touches]; decide)
  | svcQuiesce => exact (execSvcQuiesce_keeps e).mono (by simp only [touches]; decide)
  | svcResume => exact (execSvcResume_keeps e).mono (by simp only [touches]; decide)
  | svcForceStop => exact (execSvcForceStop_keeps e).mono (by simp only [touches]; decide)
  | quiesceSettled => exact (execQuiesceSettled_keeps e).mono (by simp only [touches]; decide)
  | quiesceTimeout => exact (execQuiesceTimeout_keeps e).mono (by simp only [touches]; decide)
  | forceStopComplete => exact (execForceStopComplete_keeps e).mono (by simp only [touches]; decide)
  | faultPatternExpiry _ => exact (execFaultPatternExpiry_keeps e).mono (by simp only [touches]; decide)
  | presenceChange _ _ => exact (execPresenceChange_keeps e).mono (by simp only [touches]; decide)
  | setEndpointId _ _ => exact (execSetEndpointId_keeps e).mono (by simp only [touches]; decide)
  | getEndpointId => exact (execGetEndpointId_keeps e).mono (by simp only [touches]; decide)
  | getEndpointUuid => exact (execGetEndpointUuid_keeps e).mono (by simp only [touches]; decide)
  | getMctpVersionSupport => exact (execGetMctpVersionSupport_keeps e).mono (by simp only [touches]; decide)
  | getMessageTypeSupport => exact (execGetMessageTypeSupport_keeps e).mono (by simp only [touches]; decide)
  | i3cDynamicAddress _ => exact (execI3cDynamicAddress_keeps e).mono (by simp only [touches]; decide)
  | getTid => exact (execGetTid_keeps e).mono (by simp only [touches]; decide)
  | setTid _ => exact (execSetTid_keeps e).mono (by simp only [touches]; decide)
  | getPldmVersion _ => exact (execGetPldmVersion_keeps e).mono (by simp only [touches]; decide)
  | getPldmTypes => exact (execGetPldmTypes_keeps e).mono (by simp only [touches]; decide)
  | getPldmCommands _ => exact (execGetPldmCommands_keeps e).mono (by simp only [touches]; decide)
  | sensorUpdate => exact (execSensorUpdate_keeps e).mono (by simp only [touches]; decide)
  | getPdrRepositoryInfo => exact (execGetPdrRepositoryInfo_keeps e).mono (by simp only [touches]; decide)
  | getPdr _ => exact (execGetPdr_keeps e).mono (by simp only [touches]; decide)
  | getSensorReading _ => exact (execGetSensorReading_keeps e).mono (by simp only [touches]; decide)
  | getStateSensorReadings _ => exact (execGetStateSensorReadings_keeps e).mono (by simp only [touches]; decide)
  | getNumericEffecterValue _ => exact (execGetNumericEffecterValue_keeps e).mono (by simp only [touches]; decide)
  | setNumericEffecterValue _ _ => exact (execSetNumericEffecterValue_keeps e).mono (by simp only [touches]; decide)
  | setStateEffecterStates _ _ => exact (execSetStateEffecterStates_keeps e).mono (by simp only [touches]; decide)
  | setEventReceiver _ _ => exact (execSetEventReceiver_keeps e).mono (by simp only [touches]; decide)
  | getFruRecordTableMetadata => exact (execGetFruRecordTableMetadata_keeps e).mono (by simp only [touches]; decide)
  | getFruRecordTable => exact (execGetFruRecordTable_keeps e).mono (by simp only [touches]; decide)
  | registerWrite _ _ _ => exact (execRegisterWrite_keeps e).mono (by simp only [touches]; decide)
  | rcCounterRead _ _ => exact (execRcCounterRead_keeps e).mono (by simp only [touches]; decide)
  | regRd _ _ _ _ => exact (execRegRd_keeps e).mono (by simp only [touches]; decide)
  | regWr _ _ _ _ _ => exact (execRegWr_keeps e).mono (by simp only [touches]; decide)
  | doorbell _ _ => exact (execDoorbell_keeps e).mono (by simp only [touches]; decide)

end Sys2Proof.Machine
end

