-- ==== Sys2Proof/Laws/State.lean ====
section
/-!
SUPPORT. What each named update leaves alone: one lemma per field per update, and one per accessor that reads such a field.
-/
namespace Sys2Proof.Machine

/-! ### wr -/

@[simp] theorem State.wr_pending (s : State) (a : Nat) (v : W64) : (s.wr a v).pending = s.pending := rfl
@[simp] theorem State.wr_free (s : State) (a : Nat) (v : W64) : (s.wr a v).free = s.free := rfl
@[simp] theorem State.wr_now (s : State) (a : Nat) (v : W64) : (s.wr a v).now = s.now := rfl
@[simp] theorem State.wr_mem (s : State) (a : Nat) (v : W64) : (s.wr a v).mem = s.mem := rfl
@[simp] theorem State.wr_hostMem (s : State) (a : Nat) (v : W64) : (s.wr a v).hostMem = s.hostMem := rfl
@[simp] theorem State.wr_fuses (s : State) (a : Nat) (v : W64) : (s.wr a v).fuses = s.fuses := rfl
@[simp] theorem State.wr_latched (s : State) (a : Nat) (v : W64) : (s.wr a v).latched = s.latched := rfl
@[simp] theorem State.wr_flash (s : State) (a : Nat) (v : W64) : (s.wr a v).flash = s.flash := rfl
@[simp] theorem State.wr_pins (s : State) (a : Nat) (v : W64) : (s.wr a v).pins = s.pins := rfl
@[simp] theorem State.wr_phase (s : State) (a : Nat) (v : W64) : (s.wr a v).phase = s.phase := rfl
@[simp] theorem State.wr_warmDue (s : State) (a : Nat) (v : W64) : (s.wr a v).warmDue = s.warmDue := rfl
@[simp] theorem State.wr_loaded (s : State) (a : Nat) (v : W64) : (s.wr a v).loaded = s.loaded := rfl
@[simp] theorem State.wr_bundle (s : State) (a : Nat) (v : W64) : (s.wr a v).bundle = s.bundle := rfl
@[simp] theorem State.wr_power (s : State) (a : Nat) (v : W64) : (s.wr a v).power = s.power := rfl
@[simp] theorem State.wr_time (s : State) (a : Nat) (v : W64) : (s.wr a v).time = s.time := rfl
@[simp] theorem State.wr_ecc (s : State) (a : Nat) (v : W64) : (s.wr a v).ecc = s.ecc := rfl
@[simp] theorem State.wr_fltLog (s : State) (a : Nat) (v : W64) : (s.wr a v).fltLog = s.fltLog := rfl
@[simp] theorem State.wr_memLog (s : State) (a : Nat) (v : W64) : (s.wr a v).memLog = s.memLog := rfl
@[simp] theorem State.wr_larric (s : State) (a : Nat) (v : W64) : (s.wr a v).larric = s.larric := rfl
@[simp] theorem State.wr_parts (s : State) (a : Nat) (v : W64) : (s.wr a v).parts = s.parts := rfl
@[simp] theorem State.wr_pages (s : State) (a : Nat) (v : W64) : (s.wr a v).pages = s.pages := rfl
@[simp] theorem State.wr_walks (s : State) (a : Nat) (v : W64) : (s.wr a v).walks = s.walks := rfl
@[simp] theorem State.wr_ledger (s : State) (a : Nat) (v : W64) : (s.wr a v).ledger = s.ledger := rfl
@[simp] theorem State.wr_tasks (s : State) (a : Nat) (v : W64) : (s.wr a v).tasks = s.tasks := rfl
@[simp] theorem State.wr_taskNext (s : State) (a : Nat) (v : W64) : (s.wr a v).taskNext = s.taskNext := rfl
@[simp] theorem State.wr_issueLast (s : State) (a : Nat) (v : W64) : (s.wr a v).issueLast = s.issueLast := rfl
@[simp] theorem State.wr_cores (s : State) (a : Nat) (v : W64) : (s.wr a v).cores = s.cores := rfl
@[simp] theorem State.wr_clusters (s : State) (a : Nat) (v : W64) : (s.wr a v).clusters = s.clusters := rfl
@[simp] theorem State.wr_mcasts (s : State) (a : Nat) (v : W64) : (s.wr a v).mcasts = s.mcasts := rfl
@[simp] theorem State.wr_endpoints (s : State) (a : Nat) (v : W64) : (s.wr a v).endpoints = s.endpoints := rfl
@[simp] theorem State.wr_landings (s : State) (a : Nat) (v : W64) : (s.wr a v).landings = s.landings := rfl
@[simp] theorem State.wr_churns (s : State) (a : Nat) (v : W64) : (s.wr a v).churns = s.churns := rfl
@[simp] theorem State.wr_coach (s : State) (a : Nat) (v : W64) : (s.wr a v).coach = s.coach := rfl
@[simp] theorem State.wr_ctl (s : State) (a : Nat) (v : W64) : (s.wr a v).ctl = s.ctl := rfl
@[simp] theorem State.wr_service (s : State) (a : Nat) (v : W64) : (s.wr a v).service = s.service := rfl
@[simp] theorem State.wr_mgmt (s : State) (a : Nat) (v : W64) : (s.wr a v).mgmt = s.mgmt := rfl
@[simp] theorem State.wr_bus (s : State) (a : Nat) (v : W64) : (s.wr a v).bus = s.bus := rfl
@[simp] theorem State.wr_part (s : State) (a : Nat) (v : W64) (qq : Nat) : (s.wr a v).part qq = s.part qq := rfl
@[simp] theorem State.wr_core (s : State) (a : Nat) (v : W64) (ii : Nat) : (s.wr a v).core ii = s.core ii := rfl
@[simp] theorem State.wr_cluster (s : State) (a : Nat) (v : W64) (ii : Nat) : (s.wr a v).cluster ii = s.cluster ii := rfl
@[simp] theorem State.wr_ctlCore (s : State) (a : Nat) (v : W64) (ii : Nat) : (s.wr a v).ctlCore ii = s.ctlCore ii := rfl

/-! ### setF -/

@[simp] theorem State.setF_pending (s : State) (f : RF) (v : Nat) : (s.setF f v).pending = s.pending := rfl
@[simp] theorem State.setF_free (s : State) (f : RF) (v : Nat) : (s.setF f v).free = s.free := rfl
@[simp] theorem State.setF_now (s : State) (f : RF) (v : Nat) : (s.setF f v).now = s.now := rfl
@[simp] theorem State.setF_mem (s : State) (f : RF) (v : Nat) : (s.setF f v).mem = s.mem := rfl
@[simp] theorem State.setF_hostMem (s : State) (f : RF) (v : Nat) : (s.setF f v).hostMem = s.hostMem := rfl
@[simp] theorem State.setF_fuses (s : State) (f : RF) (v : Nat) : (s.setF f v).fuses = s.fuses := rfl
@[simp] theorem State.setF_latched (s : State) (f : RF) (v : Nat) : (s.setF f v).latched = s.latched := rfl
@[simp] theorem State.setF_flash (s : State) (f : RF) (v : Nat) : (s.setF f v).flash = s.flash := rfl
@[simp] theorem State.setF_pins (s : State) (f : RF) (v : Nat) : (s.setF f v).pins = s.pins := rfl
@[simp] theorem State.setF_phase (s : State) (f : RF) (v : Nat) : (s.setF f v).phase = s.phase := rfl
@[simp] theorem State.setF_warmDue (s : State) (f : RF) (v : Nat) : (s.setF f v).warmDue = s.warmDue := rfl
@[simp] theorem State.setF_loaded (s : State) (f : RF) (v : Nat) : (s.setF f v).loaded = s.loaded := rfl
@[simp] theorem State.setF_bundle (s : State) (f : RF) (v : Nat) : (s.setF f v).bundle = s.bundle := rfl
@[simp] theorem State.setF_power (s : State) (f : RF) (v : Nat) : (s.setF f v).power = s.power := rfl
@[simp] theorem State.setF_time (s : State) (f : RF) (v : Nat) : (s.setF f v).time = s.time := rfl
@[simp] theorem State.setF_ecc (s : State) (f : RF) (v : Nat) : (s.setF f v).ecc = s.ecc := rfl
@[simp] theorem State.setF_fltLog (s : State) (f : RF) (v : Nat) : (s.setF f v).fltLog = s.fltLog := rfl
@[simp] theorem State.setF_memLog (s : State) (f : RF) (v : Nat) : (s.setF f v).memLog = s.memLog := rfl
@[simp] theorem State.setF_larric (s : State) (f : RF) (v : Nat) : (s.setF f v).larric = s.larric := rfl
@[simp] theorem State.setF_parts (s : State) (f : RF) (v : Nat) : (s.setF f v).parts = s.parts := rfl
@[simp] theorem State.setF_pages (s : State) (f : RF) (v : Nat) : (s.setF f v).pages = s.pages := rfl
@[simp] theorem State.setF_walks (s : State) (f : RF) (v : Nat) : (s.setF f v).walks = s.walks := rfl
@[simp] theorem State.setF_ledger (s : State) (f : RF) (v : Nat) : (s.setF f v).ledger = s.ledger := rfl
@[simp] theorem State.setF_tasks (s : State) (f : RF) (v : Nat) : (s.setF f v).tasks = s.tasks := rfl
@[simp] theorem State.setF_taskNext (s : State) (f : RF) (v : Nat) : (s.setF f v).taskNext = s.taskNext := rfl
@[simp] theorem State.setF_issueLast (s : State) (f : RF) (v : Nat) : (s.setF f v).issueLast = s.issueLast := rfl
@[simp] theorem State.setF_cores (s : State) (f : RF) (v : Nat) : (s.setF f v).cores = s.cores := rfl
@[simp] theorem State.setF_clusters (s : State) (f : RF) (v : Nat) : (s.setF f v).clusters = s.clusters := rfl
@[simp] theorem State.setF_mcasts (s : State) (f : RF) (v : Nat) : (s.setF f v).mcasts = s.mcasts := rfl
@[simp] theorem State.setF_endpoints (s : State) (f : RF) (v : Nat) : (s.setF f v).endpoints = s.endpoints := rfl
@[simp] theorem State.setF_landings (s : State) (f : RF) (v : Nat) : (s.setF f v).landings = s.landings := rfl
@[simp] theorem State.setF_churns (s : State) (f : RF) (v : Nat) : (s.setF f v).churns = s.churns := rfl
@[simp] theorem State.setF_coach (s : State) (f : RF) (v : Nat) : (s.setF f v).coach = s.coach := rfl
@[simp] theorem State.setF_ctl (s : State) (f : RF) (v : Nat) : (s.setF f v).ctl = s.ctl := rfl
@[simp] theorem State.setF_service (s : State) (f : RF) (v : Nat) : (s.setF f v).service = s.service := rfl
@[simp] theorem State.setF_mgmt (s : State) (f : RF) (v : Nat) : (s.setF f v).mgmt = s.mgmt := rfl
@[simp] theorem State.setF_bus (s : State) (f : RF) (v : Nat) : (s.setF f v).bus = s.bus := rfl
@[simp] theorem State.setF_part (s : State) (f : RF) (v : Nat) (qq : Nat) : (s.setF f v).part qq = s.part qq := rfl
@[simp] theorem State.setF_core (s : State) (f : RF) (v : Nat) (ii : Nat) : (s.setF f v).core ii = s.core ii := rfl
@[simp] theorem State.setF_cluster (s : State) (f : RF) (v : Nat) (ii : Nat) : (s.setF f v).cluster ii = s.cluster ii := rfl
@[simp] theorem State.setF_ctlCore (s : State) (f : RF) (v : Nat) (ii : Nat) : (s.setF f v).ctlCore ii = s.ctlCore ii := rfl

/-! ### raise -/

@[simp] theorem State.raise_pending (s : State) (f : RF) : (s.raise f).pending = s.pending := rfl
@[simp] theorem State.raise_free (s : State) (f : RF) : (s.raise f).free = s.free := rfl
@[simp] theorem State.raise_now (s : State) (f : RF) : (s.raise f).now = s.now := rfl
@[simp] theorem State.raise_mem (s : State) (f : RF) : (s.raise f).mem = s.mem := rfl
@[simp] theorem State.raise_hostMem (s : State) (f : RF) : (s.raise f).hostMem = s.hostMem := rfl
@[simp] theorem State.raise_fuses (s : State) (f : RF) : (s.raise f).fuses = s.fuses := rfl
@[simp] theorem State.raise_latched (s : State) (f : RF) : (s.raise f).latched = s.latched := rfl
@[simp] theorem State.raise_flash (s : State) (f : RF) : (s.raise f).flash = s.flash := rfl
@[simp] theorem State.raise_pins (s : State) (f : RF) : (s.raise f).pins = s.pins := rfl
@[simp] theorem State.raise_phase (s : State) (f : RF) : (s.raise f).phase = s.phase := rfl
@[simp] theorem State.raise_warmDue (s : State) (f : RF) : (s.raise f).warmDue = s.warmDue := rfl
@[simp] theorem State.raise_loaded (s : State) (f : RF) : (s.raise f).loaded = s.loaded := rfl
@[simp] theorem State.raise_bundle (s : State) (f : RF) : (s.raise f).bundle = s.bundle := rfl
@[simp] theorem State.raise_power (s : State) (f : RF) : (s.raise f).power = s.power := rfl
@[simp] theorem State.raise_time (s : State) (f : RF) : (s.raise f).time = s.time := rfl
@[simp] theorem State.raise_ecc (s : State) (f : RF) : (s.raise f).ecc = s.ecc := rfl
@[simp] theorem State.raise_fltLog (s : State) (f : RF) : (s.raise f).fltLog = s.fltLog := rfl
@[simp] theorem State.raise_memLog (s : State) (f : RF) : (s.raise f).memLog = s.memLog := rfl
@[simp] theorem State.raise_larric (s : State) (f : RF) : (s.raise f).larric = s.larric := rfl
@[simp] theorem State.raise_parts (s : State) (f : RF) : (s.raise f).parts = s.parts := rfl
@[simp] theorem State.raise_pages (s : State) (f : RF) : (s.raise f).pages = s.pages := rfl
@[simp] theorem State.raise_walks (s : State) (f : RF) : (s.raise f).walks = s.walks := rfl
@[simp] theorem State.raise_ledger (s : State) (f : RF) : (s.raise f).ledger = s.ledger := rfl
@[simp] theorem State.raise_tasks (s : State) (f : RF) : (s.raise f).tasks = s.tasks := rfl
@[simp] theorem State.raise_taskNext (s : State) (f : RF) : (s.raise f).taskNext = s.taskNext := rfl
@[simp] theorem State.raise_issueLast (s : State) (f : RF) : (s.raise f).issueLast = s.issueLast := rfl
@[simp] theorem State.raise_cores (s : State) (f : RF) : (s.raise f).cores = s.cores := rfl
@[simp] theorem State.raise_clusters (s : State) (f : RF) : (s.raise f).clusters = s.clusters := rfl
@[simp] theorem State.raise_mcasts (s : State) (f : RF) : (s.raise f).mcasts = s.mcasts := rfl
@[simp] theorem State.raise_endpoints (s : State) (f : RF) : (s.raise f).endpoints = s.endpoints := rfl
@[simp] theorem State.raise_landings (s : State) (f : RF) : (s.raise f).landings = s.landings := rfl
@[simp] theorem State.raise_churns (s : State) (f : RF) : (s.raise f).churns = s.churns := rfl
@[simp] theorem State.raise_coach (s : State) (f : RF) : (s.raise f).coach = s.coach := rfl
@[simp] theorem State.raise_ctl (s : State) (f : RF) : (s.raise f).ctl = s.ctl := rfl
@[simp] theorem State.raise_service (s : State) (f : RF) : (s.raise f).service = s.service := rfl
@[simp] theorem State.raise_mgmt (s : State) (f : RF) : (s.raise f).mgmt = s.mgmt := rfl
@[simp] theorem State.raise_bus (s : State) (f : RF) : (s.raise f).bus = s.bus := rfl
@[simp] theorem State.raise_part (s : State) (f : RF) (qq : Nat) : (s.raise f).part qq = s.part qq := rfl
@[simp] theorem State.raise_core (s : State) (f : RF) (ii : Nat) : (s.raise f).core ii = s.core ii := rfl
@[simp] theorem State.raise_cluster (s : State) (f : RF) (ii : Nat) : (s.raise f).cluster ii = s.cluster ii := rfl
@[simp] theorem State.raise_ctlCore (s : State) (f : RF) (ii : Nat) : (s.raise f).ctlCore ii = s.ctlCore ii := rfl

/-! ### bump -/

@[simp] theorem State.bump_pending (s : State) (f : RF) (n : Nat) : (s.bump f n).pending = s.pending := by unfold State.bump; split <;> rfl
@[simp] theorem State.bump_free (s : State) (f : RF) (n : Nat) : (s.bump f n).free = s.free := by unfold State.bump; split <;> rfl
@[simp] theorem State.bump_now (s : State) (f : RF) (n : Nat) : (s.bump f n).now = s.now := by unfold State.bump; split <;> rfl
@[simp] theorem State.bump_mem (s : State) (f : RF) (n : Nat) : (s.bump f n).mem = s.mem := by unfold State.bump; split <;> rfl
@[simp] theorem State.bump_hostMem (s : State) (f : RF) (n : Nat) : (s.bump f n).hostMem = s.hostMem := by unfold State.bump; split <;> rfl
@[simp] theorem State.bump_fuses (s : State) (f : RF) (n : Nat) : (s.bump f n).fuses = s.fuses := by unfold State.bump; split <;> rfl
@[simp] theorem State.bump_latched (s : State) (f : RF) (n : Nat) : (s.bump f n).latched = s.latched := by unfold State.bump; split <;> rfl
@[simp] theorem State.bump_flash (s : State) (f : RF) (n : Nat) : (s.bump f n).flash = s.flash := by unfold State.bump; split <;> rfl
@[simp] theorem State.bump_pins (s : State) (f : RF) (n : Nat) : (s.bump f n).pins = s.pins := by unfold State.bump; split <;> rfl
@[simp] theorem State.bump_phase (s : State) (f : RF) (n : Nat) : (s.bump f n).phase = s.phase := by unfold State.bump; split <;> rfl
@[simp] theorem State.bump_warmDue (s : State) (f : RF) (n : Nat) : (s.bump f n).warmDue = s.warmDue := by unfold State.bump; split <;> rfl
@[simp] theorem State.bump_loaded (s : State) (f : RF) (n : Nat) : (s.bump f n).loaded = s.loaded := by unfold State.bump; split <;> rfl
@[simp] theorem State.bump_bundle (s : State) (f : RF) (n : Nat) : (s.bump f n).bundle = s.bundle := by unfold State.bump; split <;> rfl
@[simp] theorem State.bump_power (s : State) (f : RF) (n : Nat) : (s.bump f n).power = s.power := by unfold State.bump; split <;> rfl
@[simp] theorem State.bump_time (s : State) (f : RF) (n : Nat) : (s.bump f n).time = s.time := by unfold State.bump; split <;> rfl
@[simp] theorem State.bump_ecc (s : State) (f : RF) (n : Nat) : (s.bump f n).ecc = s.ecc := by unfold State.bump; split <;> rfl
@[simp] theorem State.bump_fltLog (s : State) (f : RF) (n : Nat) : (s.bump f n).fltLog = s.fltLog := by unfold State.bump; split <;> rfl
@[simp] theorem State.bump_memLog (s : State) (f : RF) (n : Nat) : (s.bump f n).memLog = s.memLog := by unfold State.bump; split <;> rfl
@[simp] theorem State.bump_larric (s : State) (f : RF) (n : Nat) : (s.bump f n).larric = s.larric := by unfold State.bump; split <;> rfl
@[simp] theorem State.bump_parts (s : State) (f : RF) (n : Nat) : (s.bump f n).parts = s.parts := by unfold State.bump; split <;> rfl
@[simp] theorem State.bump_pages (s : State) (f : RF) (n : Nat) : (s.bump f n).pages = s.pages := by unfold State.bump; split <;> rfl
@[simp] theorem State.bump_walks (s : State) (f : RF) (n : Nat) : (s.bump f n).walks = s.walks := by unfold State.bump; split <;> rfl
@[simp] theorem State.bump_ledger (s : State) (f : RF) (n : Nat) : (s.bump f n).ledger = s.ledger := by unfold State.bump; split <;> rfl
@[simp] theorem State.bump_tasks (s : State) (f : RF) (n : Nat) : (s.bump f n).tasks = s.tasks := by unfold State.bump; split <;> rfl
@[simp] theorem State.bump_taskNext (s : State) (f : RF) (n : Nat) : (s.bump f n).taskNext = s.taskNext := by unfold State.bump; split <;> rfl
@[simp] theorem State.bump_issueLast (s : State) (f : RF) (n : Nat) : (s.bump f n).issueLast = s.issueLast := by unfold State.bump; split <;> rfl
@[simp] theorem State.bump_cores (s : State) (f : RF) (n : Nat) : (s.bump f n).cores = s.cores := by unfold State.bump; split <;> rfl
@[simp] theorem State.bump_clusters (s : State) (f : RF) (n : Nat) : (s.bump f n).clusters = s.clusters := by unfold State.bump; split <;> rfl
@[simp] theorem State.bump_mcasts (s : State) (f : RF) (n : Nat) : (s.bump f n).mcasts = s.mcasts := by unfold State.bump; split <;> rfl
@[simp] theorem State.bump_endpoints (s : State) (f : RF) (n : Nat) : (s.bump f n).endpoints = s.endpoints := by unfold State.bump; split <;> rfl
@[simp] theorem State.bump_landings (s : State) (f : RF) (n : Nat) : (s.bump f n).landings = s.landings := by unfold State.bump; split <;> rfl
@[simp] theorem State.bump_churns (s : State) (f : RF) (n : Nat) : (s.bump f n).churns = s.churns := by unfold State.bump; split <;> rfl
@[simp] theorem State.bump_coach (s : State) (f : RF) (n : Nat) : (s.bump f n).coach = s.coach := by unfold State.bump; split <;> rfl
@[simp] theorem State.bump_ctl (s : State) (f : RF) (n : Nat) : (s.bump f n).ctl = s.ctl := by unfold State.bump; split <;> rfl
@[simp] theorem State.bump_service (s : State) (f : RF) (n : Nat) : (s.bump f n).service = s.service := by unfold State.bump; split <;> rfl
@[simp] theorem State.bump_mgmt (s : State) (f : RF) (n : Nat) : (s.bump f n).mgmt = s.mgmt := by unfold State.bump; split <;> rfl
@[simp] theorem State.bump_bus (s : State) (f : RF) (n : Nat) : (s.bump f n).bus = s.bus := by unfold State.bump; split <;> rfl
@[simp] theorem State.bump_part (s : State) (f : RF) (n : Nat) (qq : Nat) : (s.bump f n).part qq = s.part qq := by unfold State.bump; split <;> rfl
@[simp] theorem State.bump_core (s : State) (f : RF) (n : Nat) (ii : Nat) : (s.bump f n).core ii = s.core ii := by unfold State.bump; split <;> rfl
@[simp] theorem State.bump_cluster (s : State) (f : RF) (n : Nat) (ii : Nat) : (s.bump f n).cluster ii = s.cluster ii := by unfold State.bump; split <;> rfl
@[simp] theorem State.bump_ctlCore (s : State) (f : RF) (n : Nat) (ii : Nat) : (s.bump f n).ctlCore ii = s.ctlCore ii := by unfold State.bump; split <;> rfl

/-! ### incr -/

@[simp] theorem State.incr_pending (s : State) (f : RF) (n : Nat) : (s.incr f n).pending = s.pending := rfl
@[simp] theorem State.incr_free (s : State) (f : RF) (n : Nat) : (s.incr f n).free = s.free := rfl
@[simp] theorem State.incr_now (s : State) (f : RF) (n : Nat) : (s.incr f n).now = s.now := rfl
@[simp] theorem State.incr_mem (s : State) (f : RF) (n : Nat) : (s.incr f n).mem = s.mem := rfl
@[simp] theorem State.incr_hostMem (s : State) (f : RF) (n : Nat) : (s.incr f n).hostMem = s.hostMem := rfl
@[simp] theorem State.incr_fuses (s : State) (f : RF) (n : Nat) : (s.incr f n).fuses = s.fuses := rfl
@[simp] theorem State.incr_latched (s : State) (f : RF) (n : Nat) : (s.incr f n).latched = s.latched := rfl
@[simp] theorem State.incr_flash (s : State) (f : RF) (n : Nat) : (s.incr f n).flash = s.flash := rfl
@[simp] theorem State.incr_pins (s : State) (f : RF) (n : Nat) : (s.incr f n).pins = s.pins := rfl
@[simp] theorem State.incr_phase (s : State) (f : RF) (n : Nat) : (s.incr f n).phase = s.phase := rfl
@[simp] theorem State.incr_warmDue (s : State) (f : RF) (n : Nat) : (s.incr f n).warmDue = s.warmDue := rfl
@[simp] theorem State.incr_loaded (s : State) (f : RF) (n : Nat) : (s.incr f n).loaded = s.loaded := rfl
@[simp] theorem State.incr_bundle (s : State) (f : RF) (n : Nat) : (s.incr f n).bundle = s.bundle := rfl
@[simp] theorem State.incr_power (s : State) (f : RF) (n : Nat) : (s.incr f n).power = s.power := rfl
@[simp] theorem State.incr_time (s : State) (f : RF) (n : Nat) : (s.incr f n).time = s.time := rfl
@[simp] theorem State.incr_ecc (s : State) (f : RF) (n : Nat) : (s.incr f n).ecc = s.ecc := rfl
@[simp] theorem State.incr_fltLog (s : State) (f : RF) (n : Nat) : (s.incr f n).fltLog = s.fltLog := rfl
@[simp] theorem State.incr_memLog (s : State) (f : RF) (n : Nat) : (s.incr f n).memLog = s.memLog := rfl
@[simp] theorem State.incr_larric (s : State) (f : RF) (n : Nat) : (s.incr f n).larric = s.larric := rfl
@[simp] theorem State.incr_parts (s : State) (f : RF) (n : Nat) : (s.incr f n).parts = s.parts := rfl
@[simp] theorem State.incr_pages (s : State) (f : RF) (n : Nat) : (s.incr f n).pages = s.pages := rfl
@[simp] theorem State.incr_walks (s : State) (f : RF) (n : Nat) : (s.incr f n).walks = s.walks := rfl
@[simp] theorem State.incr_ledger (s : State) (f : RF) (n : Nat) : (s.incr f n).ledger = s.ledger := rfl
@[simp] theorem State.incr_tasks (s : State) (f : RF) (n : Nat) : (s.incr f n).tasks = s.tasks := rfl
@[simp] theorem State.incr_taskNext (s : State) (f : RF) (n : Nat) : (s.incr f n).taskNext = s.taskNext := rfl
@[simp] theorem State.incr_issueLast (s : State) (f : RF) (n : Nat) : (s.incr f n).issueLast = s.issueLast := rfl
@[simp] theorem State.incr_cores (s : State) (f : RF) (n : Nat) : (s.incr f n).cores = s.cores := rfl
@[simp] theorem State.incr_clusters (s : State) (f : RF) (n : Nat) : (s.incr f n).clusters = s.clusters := rfl
@[simp] theorem State.incr_mcasts (s : State) (f : RF) (n : Nat) : (s.incr f n).mcasts = s.mcasts := rfl
@[simp] theorem State.incr_endpoints (s : State) (f : RF) (n : Nat) : (s.incr f n).endpoints = s.endpoints := rfl
@[simp] theorem State.incr_landings (s : State) (f : RF) (n : Nat) : (s.incr f n).landings = s.landings := rfl
@[simp] theorem State.incr_churns (s : State) (f : RF) (n : Nat) : (s.incr f n).churns = s.churns := rfl
@[simp] theorem State.incr_coach (s : State) (f : RF) (n : Nat) : (s.incr f n).coach = s.coach := rfl
@[simp] theorem State.incr_ctl (s : State) (f : RF) (n : Nat) : (s.incr f n).ctl = s.ctl := rfl
@[simp] theorem State.incr_service (s : State) (f : RF) (n : Nat) : (s.incr f n).service = s.service := rfl
@[simp] theorem State.incr_mgmt (s : State) (f : RF) (n : Nat) : (s.incr f n).mgmt = s.mgmt := rfl
@[simp] theorem State.incr_bus (s : State) (f : RF) (n : Nat) : (s.incr f n).bus = s.bus := rfl
@[simp] theorem State.incr_part (s : State) (f : RF) (n : Nat) (qq : Nat) : (s.incr f n).part qq = s.part qq := rfl
@[simp] theorem State.incr_core (s : State) (f : RF) (n : Nat) (ii : Nat) : (s.incr f n).core ii = s.core ii := rfl
@[simp] theorem State.incr_cluster (s : State) (f : RF) (n : Nat) (ii : Nat) : (s.incr f n).cluster ii = s.cluster ii := rfl
@[simp] theorem State.incr_ctlCore (s : State) (f : RF) (n : Nat) (ii : Nat) : (s.incr f n).ctlCore ii = s.ctlCore ii := rfl

/-! ### pass -/

@[simp] theorem State.pass_pending (s : State) (d : Nat) : (s.pass d).pending = s.pending := rfl
@[simp] theorem State.pass_free (s : State) (d : Nat) : (s.pass d).free = s.free := rfl
@[simp] theorem State.pass_regs (s : State) (d : Nat) : (s.pass d).regs = s.regs := rfl
@[simp] theorem State.pass_mem (s : State) (d : Nat) : (s.pass d).mem = s.mem := rfl
@[simp] theorem State.pass_hostMem (s : State) (d : Nat) : (s.pass d).hostMem = s.hostMem := rfl
@[simp] theorem State.pass_fuses (s : State) (d : Nat) : (s.pass d).fuses = s.fuses := rfl
@[simp] theorem State.pass_latched (s : State) (d : Nat) : (s.pass d).latched = s.latched := rfl
@[simp] theorem State.pass_flash (s : State) (d : Nat) : (s.pass d).flash = s.flash := rfl
@[simp] theorem State.pass_pins (s : State) (d : Nat) : (s.pass d).pins = s.pins := rfl
@[simp] theorem State.pass_phase (s : State) (d : Nat) : (s.pass d).phase = s.phase := rfl
@[simp] theorem State.pass_warmDue (s : State) (d : Nat) : (s.pass d).warmDue = s.warmDue := rfl
@[simp] theorem State.pass_loaded (s : State) (d : Nat) : (s.pass d).loaded = s.loaded := rfl
@[simp] theorem State.pass_bundle (s : State) (d : Nat) : (s.pass d).bundle = s.bundle := rfl
@[simp] theorem State.pass_power (s : State) (d : Nat) : (s.pass d).power = s.power := rfl
@[simp] theorem State.pass_ecc (s : State) (d : Nat) : (s.pass d).ecc = s.ecc := rfl
@[simp] theorem State.pass_fltLog (s : State) (d : Nat) : (s.pass d).fltLog = s.fltLog := rfl
@[simp] theorem State.pass_memLog (s : State) (d : Nat) : (s.pass d).memLog = s.memLog := rfl
@[simp] theorem State.pass_larric (s : State) (d : Nat) : (s.pass d).larric = s.larric := rfl
@[simp] theorem State.pass_parts (s : State) (d : Nat) : (s.pass d).parts = s.parts := rfl
@[simp] theorem State.pass_pages (s : State) (d : Nat) : (s.pass d).pages = s.pages := rfl
@[simp] theorem State.pass_walks (s : State) (d : Nat) : (s.pass d).walks = s.walks := rfl
@[simp] theorem State.pass_ledger (s : State) (d : Nat) : (s.pass d).ledger = s.ledger := rfl
@[simp] theorem State.pass_tasks (s : State) (d : Nat) : (s.pass d).tasks = s.tasks := rfl
@[simp] theorem State.pass_taskNext (s : State) (d : Nat) : (s.pass d).taskNext = s.taskNext := rfl
@[simp] theorem State.pass_issueLast (s : State) (d : Nat) : (s.pass d).issueLast = s.issueLast := rfl
@[simp] theorem State.pass_cores (s : State) (d : Nat) : (s.pass d).cores = s.cores := rfl
@[simp] theorem State.pass_clusters (s : State) (d : Nat) : (s.pass d).clusters = s.clusters := rfl
@[simp] theorem State.pass_mcasts (s : State) (d : Nat) : (s.pass d).mcasts = s.mcasts := rfl
@[simp] theorem State.pass_endpoints (s : State) (d : Nat) : (s.pass d).endpoints = s.endpoints := rfl
@[simp] theorem State.pass_landings (s : State) (d : Nat) : (s.pass d).landings = s.landings := rfl
@[simp] theorem State.pass_churns (s : State) (d : Nat) : (s.pass d).churns = s.churns := rfl
@[simp] theorem State.pass_coach (s : State) (d : Nat) : (s.pass d).coach = s.coach := rfl
@[simp] theorem State.pass_ctl (s : State) (d : Nat) : (s.pass d).ctl = s.ctl := rfl
@[simp] theorem State.pass_service (s : State) (d : Nat) : (s.pass d).service = s.service := rfl
@[simp] theorem State.pass_mgmt (s : State) (d : Nat) : (s.pass d).mgmt = s.mgmt := rfl
@[simp] theorem State.pass_bus (s : State) (d : Nat) : (s.pass d).bus = s.bus := rfl
@[simp] theorem State.pass_rd (s : State) (d : Nat) (bb : Nat) : (s.pass d).rd bb = s.rd bb := rfl
@[simp] theorem State.pass_fd (s : State) (d : Nat) (gg : RF) : (s.pass d).fd gg = s.fd gg := rfl
@[simp] theorem State.pass_part (s : State) (d : Nat) (qq : Nat) : (s.pass d).part qq = s.part qq := rfl
@[simp] theorem State.pass_core (s : State) (d : Nat) (ii : Nat) : (s.pass d).core ii = s.core ii := rfl
@[simp] theorem State.pass_cluster (s : State) (d : Nat) (ii : Nat) : (s.pass d).cluster ii = s.cluster ii := rfl
@[simp] theorem State.pass_ctlCore (s : State) (d : Nat) (ii : Nat) : (s.pass d).ctlCore ii = s.ctlCore ii := rfl

/-! ### passTo -/

@[simp] theorem State.passTo_pending (s : State) (d : Nat) : (s.passTo d).pending = s.pending := rfl
@[simp] theorem State.passTo_free (s : State) (d : Nat) : (s.passTo d).free = s.free := rfl
@[simp] theorem State.passTo_regs (s : State) (d : Nat) : (s.passTo d).regs = s.regs := rfl
@[simp] theorem State.passTo_mem (s : State) (d : Nat) : (s.passTo d).mem = s.mem := rfl
@[simp] theorem State.passTo_hostMem (s : State) (d : Nat) : (s.passTo d).hostMem = s.hostMem := rfl
@[simp] theorem State.passTo_fuses (s : State) (d : Nat) : (s.passTo d).fuses = s.fuses := rfl
@[simp] theorem State.passTo_latched (s : State) (d : Nat) : (s.passTo d).latched = s.latched := rfl
@[simp] theorem State.passTo_flash (s : State) (d : Nat) : (s.passTo d).flash = s.flash := rfl
@[simp] theorem State.passTo_pins (s : State) (d : Nat) : (s.passTo d).pins = s.pins := rfl
@[simp] theorem State.passTo_phase (s : State) (d : Nat) : (s.passTo d).phase = s.phase := rfl
@[simp] theorem State.passTo_warmDue (s : State) (d : Nat) : (s.passTo d).warmDue = s.warmDue := rfl
@[simp] theorem State.passTo_loaded (s : State) (d : Nat) : (s.passTo d).loaded = s.loaded := rfl
@[simp] theorem State.passTo_bundle (s : State) (d : Nat) : (s.passTo d).bundle = s.bundle := rfl
@[simp] theorem State.passTo_power (s : State) (d : Nat) : (s.passTo d).power = s.power := rfl
@[simp] theorem State.passTo_ecc (s : State) (d : Nat) : (s.passTo d).ecc = s.ecc := rfl
@[simp] theorem State.passTo_fltLog (s : State) (d : Nat) : (s.passTo d).fltLog = s.fltLog := rfl
@[simp] theorem State.passTo_memLog (s : State) (d : Nat) : (s.passTo d).memLog = s.memLog := rfl
@[simp] theorem State.passTo_larric (s : State) (d : Nat) : (s.passTo d).larric = s.larric := rfl
@[simp] theorem State.passTo_parts (s : State) (d : Nat) : (s.passTo d).parts = s.parts := rfl
@[simp] theorem State.passTo_pages (s : State) (d : Nat) : (s.passTo d).pages = s.pages := rfl
@[simp] theorem State.passTo_walks (s : State) (d : Nat) : (s.passTo d).walks = s.walks := rfl
@[simp] theorem State.passTo_ledger (s : State) (d : Nat) : (s.passTo d).ledger = s.ledger := rfl
@[simp] theorem State.passTo_tasks (s : State) (d : Nat) : (s.passTo d).tasks = s.tasks := rfl
@[simp] theorem State.passTo_taskNext (s : State) (d : Nat) : (s.passTo d).taskNext = s.taskNext := rfl
@[simp] theorem State.passTo_issueLast (s : State) (d : Nat) : (s.passTo d).issueLast = s.issueLast := rfl
@[simp] theorem State.passTo_cores (s : State) (d : Nat) : (s.passTo d).cores = s.cores := rfl
@[simp] theorem State.passTo_clusters (s : State) (d : Nat) : (s.passTo d).clusters = s.clusters := rfl
@[simp] theorem State.passTo_mcasts (s : State) (d : Nat) : (s.passTo d).mcasts = s.mcasts := rfl
@[simp] theorem State.passTo_endpoints (s : State) (d : Nat) : (s.passTo d).endpoints = s.endpoints := rfl
@[simp] theorem State.passTo_landings (s : State) (d : Nat) : (s.passTo d).landings = s.landings := rfl
@[simp] theorem State.passTo_churns (s : State) (d : Nat) : (s.passTo d).churns = s.churns := rfl
@[simp] theorem State.passTo_coach (s : State) (d : Nat) : (s.passTo d).coach = s.coach := rfl
@[simp] theorem State.passTo_ctl (s : State) (d : Nat) : (s.passTo d).ctl = s.ctl := rfl
@[simp] theorem State.passTo_service (s : State) (d : Nat) : (s.passTo d).service = s.service := rfl
@[simp] theorem State.passTo_mgmt (s : State) (d : Nat) : (s.passTo d).mgmt = s.mgmt := rfl
@[simp] theorem State.passTo_bus (s : State) (d : Nat) : (s.passTo d).bus = s.bus := rfl
@[simp] theorem State.passTo_rd (s : State) (d : Nat) (bb : Nat) : (s.passTo d).rd bb = s.rd bb := rfl
@[simp] theorem State.passTo_fd (s : State) (d : Nat) (gg : RF) : (s.passTo d).fd gg = s.fd gg := rfl
@[simp] theorem State.passTo_part (s : State) (d : Nat) (qq : Nat) : (s.passTo d).part qq = s.part qq := rfl
@[simp] theorem State.passTo_core (s : State) (d : Nat) (ii : Nat) : (s.passTo d).core ii = s.core ii := rfl
@[simp] theorem State.passTo_cluster (s : State) (d : Nat) (ii : Nat) : (s.passTo d).cluster ii = s.cluster ii := rfl
@[simp] theorem State.passTo_ctlCore (s : State) (d : Nat) (ii : Nat) : (s.passTo d).ctlCore ii = s.ctlCore ii := rfl

/-! ### freeNext -/

@[simp] theorem State.freeNext_pending (s : State) : (s.freeNext).pending = s.pending := rfl
@[simp] theorem State.freeNext_now (s : State) : (s.freeNext).now = s.now := rfl
@[simp] theorem State.freeNext_regs (s : State) : (s.freeNext).regs = s.regs := rfl
@[simp] theorem State.freeNext_mem (s : State) : (s.freeNext).mem = s.mem := rfl
@[simp] theorem State.freeNext_hostMem (s : State) : (s.freeNext).hostMem = s.hostMem := rfl
@[simp] theorem State.freeNext_fuses (s : State) : (s.freeNext).fuses = s.fuses := rfl
@[simp] theorem State.freeNext_latched (s : State) : (s.freeNext).latched = s.latched := rfl
@[simp] theorem State.freeNext_flash (s : State) : (s.freeNext).flash = s.flash := rfl
@[simp] theorem State.freeNext_pins (s : State) : (s.freeNext).pins = s.pins := rfl
@[simp] theorem State.freeNext_phase (s : State) : (s.freeNext).phase = s.phase := rfl
@[simp] theorem State.freeNext_warmDue (s : State) : (s.freeNext).warmDue = s.warmDue := rfl
@[simp] theorem State.freeNext_loaded (s : State) : (s.freeNext).loaded = s.loaded := rfl
@[simp] theorem State.freeNext_bundle (s : State) : (s.freeNext).bundle = s.bundle := rfl
@[simp] theorem State.freeNext_power (s : State) : (s.freeNext).power = s.power := rfl
@[simp] theorem State.freeNext_time (s : State) : (s.freeNext).time = s.time := rfl
@[simp] theorem State.freeNext_ecc (s : State) : (s.freeNext).ecc = s.ecc := rfl
@[simp] theorem State.freeNext_fltLog (s : State) : (s.freeNext).fltLog = s.fltLog := rfl
@[simp] theorem State.freeNext_memLog (s : State) : (s.freeNext).memLog = s.memLog := rfl
@[simp] theorem State.freeNext_larric (s : State) : (s.freeNext).larric = s.larric := rfl
@[simp] theorem State.freeNext_parts (s : State) : (s.freeNext).parts = s.parts := rfl
@[simp] theorem State.freeNext_pages (s : State) : (s.freeNext).pages = s.pages := rfl
@[simp] theorem State.freeNext_walks (s : State) : (s.freeNext).walks = s.walks := rfl
@[simp] theorem State.freeNext_ledger (s : State) : (s.freeNext).ledger = s.ledger := rfl
@[simp] theorem State.freeNext_tasks (s : State) : (s.freeNext).tasks = s.tasks := rfl
@[simp] theorem State.freeNext_taskNext (s : State) : (s.freeNext).taskNext = s.taskNext := rfl
@[simp] theorem State.freeNext_issueLast (s : State) : (s.freeNext).issueLast = s.issueLast := rfl
@[simp] theorem State.freeNext_cores (s : State) : (s.freeNext).cores = s.cores := rfl
@[simp] theorem State.freeNext_clusters (s : State) : (s.freeNext).clusters = s.clusters := rfl
@[simp] theorem State.freeNext_mcasts (s : State) : (s.freeNext).mcasts = s.mcasts := rfl
@[simp] theorem State.freeNext_endpoints (s : State) : (s.freeNext).endpoints = s.endpoints := rfl
@[simp] theorem State.freeNext_landings (s : State) : (s.freeNext).landings = s.landings := rfl
@[simp] theorem State.freeNext_churns (s : State) : (s.freeNext).churns = s.churns := rfl
@[simp] theorem State.freeNext_coach (s : State) : (s.freeNext).coach = s.coach := rfl
@[simp] theorem State.freeNext_ctl (s : State) : (s.freeNext).ctl = s.ctl := rfl
@[simp] theorem State.freeNext_service (s : State) : (s.freeNext).service = s.service := rfl
@[simp] theorem State.freeNext_mgmt (s : State) : (s.freeNext).mgmt = s.mgmt := rfl
@[simp] theorem State.freeNext_bus (s : State) : (s.freeNext).bus = s.bus := rfl
@[simp] theorem State.freeNext_rd (s : State) (bb : Nat) : (s.freeNext).rd bb = s.rd bb := rfl
@[simp] theorem State.freeNext_fd (s : State) (gg : RF) : (s.freeNext).fd gg = s.fd gg := rfl
@[simp] theorem State.freeNext_part (s : State) (qq : Nat) : (s.freeNext).part qq = s.part qq := rfl
@[simp] theorem State.freeNext_core (s : State) (ii : Nat) : (s.freeNext).core ii = s.core ii := rfl
@[simp] theorem State.freeNext_cluster (s : State) (ii : Nat) : (s.freeNext).cluster ii = s.cluster ii := rfl
@[simp] theorem State.freeNext_ctlCore (s : State) (ii : Nat) : (s.freeNext).ctlCore ii = s.ctlCore ii := rfl

/-! ### setPart -/

@[simp] theorem State.setPart_pending (s : State) (p : Nat) (x : Part) : (s.setPart p x).pending = s.pending := rfl
@[simp] theorem State.setPart_free (s : State) (p : Nat) (x : Part) : (s.setPart p x).free = s.free := rfl
@[simp] theorem State.setPart_now (s : State) (p : Nat) (x : Part) : (s.setPart p x).now = s.now := rfl
@[simp] theorem State.setPart_regs (s : State) (p : Nat) (x : Part) : (s.setPart p x).regs = s.regs := rfl
@[simp] theorem State.setPart_mem (s : State) (p : Nat) (x : Part) : (s.setPart p x).mem = s.mem := rfl
@[simp] theorem State.setPart_hostMem (s : State) (p : Nat) (x : Part) : (s.setPart p x).hostMem = s.hostMem := rfl
@[simp] theorem State.setPart_fuses (s : State) (p : Nat) (x : Part) : (s.setPart p x).fuses = s.fuses := rfl
@[simp] theorem State.setPart_latched (s : State) (p : Nat) (x : Part) : (s.setPart p x).latched = s.latched := rfl
@[simp] theorem State.setPart_flash (s : State) (p : Nat) (x : Part) : (s.setPart p x).flash = s.flash := rfl
@[simp] theorem State.setPart_pins (s : State) (p : Nat) (x : Part) : (s.setPart p x).pins = s.pins := rfl
@[simp] theorem State.setPart_phase (s : State) (p : Nat) (x : Part) : (s.setPart p x).phase = s.phase := rfl
@[simp] theorem State.setPart_warmDue (s : State) (p : Nat) (x : Part) : (s.setPart p x).warmDue = s.warmDue := rfl
@[simp] theorem State.setPart_loaded (s : State) (p : Nat) (x : Part) : (s.setPart p x).loaded = s.loaded := rfl
@[simp] theorem State.setPart_bundle (s : State) (p : Nat) (x : Part) : (s.setPart p x).bundle = s.bundle := rfl
@[simp] theorem State.setPart_power (s : State) (p : Nat) (x : Part) : (s.setPart p x).power = s.power := rfl
@[simp] theorem State.setPart_time (s : State) (p : Nat) (x : Part) : (s.setPart p x).time = s.time := rfl
@[simp] theorem State.setPart_ecc (s : State) (p : Nat) (x : Part) : (s.setPart p x).ecc = s.ecc := rfl
@[simp] theorem State.setPart_fltLog (s : State) (p : Nat) (x : Part) : (s.setPart p x).fltLog = s.fltLog := rfl
@[simp] theorem State.setPart_memLog (s : State) (p : Nat) (x : Part) : (s.setPart p x).memLog = s.memLog := rfl
@[simp] theorem State.setPart_larric (s : State) (p : Nat) (x : Part) : (s.setPart p x).larric = s.larric := rfl
@[simp] theorem State.setPart_pages (s : State) (p : Nat) (x : Part) : (s.setPart p x).pages = s.pages := rfl
@[simp] theorem State.setPart_walks (s : State) (p : Nat) (x : Part) : (s.setPart p x).walks = s.walks := rfl
@[simp] theorem State.setPart_ledger (s : State) (p : Nat) (x : Part) : (s.setPart p x).ledger = s.ledger := rfl
@[simp] theorem State.setPart_tasks (s : State) (p : Nat) (x : Part) : (s.setPart p x).tasks = s.tasks := rfl
@[simp] theorem State.setPart_taskNext (s : State) (p : Nat) (x : Part) : (s.setPart p x).taskNext = s.taskNext := rfl
@[simp] theorem State.setPart_issueLast (s : State) (p : Nat) (x : Part) : (s.setPart p x).issueLast = s.issueLast := rfl
@[simp] theorem State.setPart_cores (s : State) (p : Nat) (x : Part) : (s.setPart p x).cores = s.cores := rfl
@[simp] theorem State.setPart_clusters (s : State) (p : Nat) (x : Part) : (s.setPart p x).clusters = s.clusters := rfl
@[simp] theorem State.setPart_mcasts (s : State) (p : Nat) (x : Part) : (s.setPart p x).mcasts = s.mcasts := rfl
@[simp] theorem State.setPart_endpoints (s : State) (p : Nat) (x : Part) : (s.setPart p x).endpoints = s.endpoints := rfl
@[simp] theorem State.setPart_landings (s : State) (p : Nat) (x : Part) : (s.setPart p x).landings = s.landings := rfl
@[simp] theorem State.setPart_churns (s : State) (p : Nat) (x : Part) : (s.setPart p x).churns = s.churns := rfl
@[simp] theorem State.setPart_coach (s : State) (p : Nat) (x : Part) : (s.setPart p x).coach = s.coach := rfl
@[simp] theorem State.setPart_ctl (s : State) (p : Nat) (x : Part) : (s.setPart p x).ctl = s.ctl := rfl
@[simp] theorem State.setPart_service (s : State) (p : Nat) (x : Part) : (s.setPart p x).service = s.service := rfl
@[simp] theorem State.setPart_mgmt (s : State) (p : Nat) (x : Part) : (s.setPart p x).mgmt = s.mgmt := rfl
@[simp] theorem State.setPart_bus (s : State) (p : Nat) (x : Part) : (s.setPart p x).bus = s.bus := rfl
@[simp] theorem State.setPart_rd (s : State) (p : Nat) (x : Part) (bb : Nat) : (s.setPart p x).rd bb = s.rd bb := rfl
@[simp] theorem State.setPart_fd (s : State) (p : Nat) (x : Part) (gg : RF) : (s.setPart p x).fd gg = s.fd gg := rfl
@[simp] theorem State.setPart_core (s : State) (p : Nat) (x : Part) (ii : Nat) : (s.setPart p x).core ii = s.core ii := rfl
@[simp] theorem State.setPart_cluster (s : State) (p : Nat) (x : Part) (ii : Nat) : (s.setPart p x).cluster ii = s.cluster ii := rfl
@[simp] theorem State.setPart_ctlCore (s : State) (p : Nat) (x : Part) (ii : Nat) : (s.setPart p x).ctlCore ii = s.ctlCore ii := rfl

/-! ### modPart -/

@[simp] theorem State.modPart_pending (s : State) (p : Nat) (f : Part → Part) : (s.modPart p f).pending = s.pending := rfl
@[simp] theorem State.modPart_free (s : State) (p : Nat) (f : Part → Part) : (s.modPart p f).free = s.free := rfl
@[simp] theorem State.modPart_now (s : State) (p : Nat) (f : Part → Part) : (s.modPart p f).now = s.now := rfl
@[simp] theorem State.modPart_regs (s : State) (p : Nat) (f : Part → Part) : (s.modPart p f).regs = s.regs := rfl
@[simp] theorem State.modPart_mem (s : State) (p : Nat) (f : Part → Part) : (s.modPart p f).mem = s.mem := rfl
@[simp] theorem State.modPart_hostMem (s : State) (p : Nat) (f : Part → Part) : (s.modPart p f).hostMem = s.hostMem := rfl
@[simp] theorem State.modPart_fuses (s : State) (p : Nat) (f : Part → Part) : (s.modPart p f).fuses = s.fuses := rfl
@[simp] theorem State.modPart_latched (s : State) (p : Nat) (f : Part → Part) : (s.modPart p f).latched = s.latched := rfl
@[simp] theorem State.modPart_flash (s : State) (p : Nat) (f : Part → Part) : (s.modPart p f).flash = s.flash := rfl
@[simp] theorem State.modPart_pins (s : State) (p : Nat) (f : Part → Part) : (s.modPart p f).pins = s.pins := rfl
@[simp] theorem State.modPart_phase (s : State) (p : Nat) (f : Part → Part) : (s.modPart p f).phase = s.phase := rfl
@[simp] theorem State.modPart_warmDue (s : State) (p : Nat) (f : Part → Part) : (s.modPart p f).warmDue = s.warmDue := rfl
@[simp] theorem State.modPart_loaded (s : State) (p : Nat) (f : Part → Part) : (s.modPart p f).loaded = s.loaded := rfl
@[simp] theorem State.modPart_bundle (s : State) (p : Nat) (f : Part → Part) : (s.modPart p f).bundle = s.bundle := rfl
@[simp] theorem State.modPart_power (s : State) (p : Nat) (f : Part → Part) : (s.modPart p f).power = s.power := rfl
@[simp] theorem State.modPart_time (s : State) (p : Nat) (f : Part → Part) : (s.modPart p f).time = s.time := rfl
@[simp] theorem State.modPart_ecc (s : State) (p : Nat) (f : Part → Part) : (s.modPart p f).ecc = s.ecc := rfl
@[simp] theorem State.modPart_fltLog (s : State) (p : Nat) (f : Part → Part) : (s.modPart p f).fltLog = s.fltLog := rfl
@[simp] theorem State.modPart_memLog (s : State) (p : Nat) (f : Part → Part) : (s.modPart p f).memLog = s.memLog := rfl
@[simp] theorem State.modPart_larric (s : State) (p : Nat) (f : Part → Part) : (s.modPart p f).larric = s.larric := rfl
@[simp] theorem State.modPart_pages (s : State) (p : Nat) (f : Part → Part) : (s.modPart p f).pages = s.pages := rfl
@[simp] theorem State.modPart_walks (s : State) (p : Nat) (f : Part → Part) : (s.modPart p f).walks = s.walks := rfl
@[simp] theorem State.modPart_ledger (s : State) (p : Nat) (f : Part → Part) : (s.modPart p f).ledger = s.ledger := rfl
@[simp] theorem State.modPart_tasks (s : State) (p : Nat) (f : Part → Part) : (s.modPart p f).tasks = s.tasks := rfl
@[simp] theorem State.modPart_taskNext (s : State) (p : Nat) (f : Part → Part) : (s.modPart p f).taskNext = s.taskNext := rfl
@[simp] theorem State.modPart_issueLast (s : State) (p : Nat) (f : Part → Part) : (s.modPart p f).issueLast = s.issueLast := rfl
@[simp] theorem State.modPart_cores (s : State) (p : Nat) (f : Part → Part) : (s.modPart p f).cores = s.cores := rfl
@[simp] theorem State.modPart_clusters (s : State) (p : Nat) (f : Part → Part) : (s.modPart p f).clusters = s.clusters := rfl
@[simp] theorem State.modPart_mcasts (s : State) (p : Nat) (f : Part → Part) : (s.modPart p f).mcasts = s.mcasts := rfl
@[simp] theorem State.modPart_endpoints (s : State) (p : Nat) (f : Part → Part) : (s.modPart p f).endpoints = s.endpoints := rfl
@[simp] theorem State.modPart_landings (s : State) (p : Nat) (f : Part → Part) : (s.modPart p f).landings = s.landings := rfl
@[simp] theorem State.modPart_churns (s : State) (p : Nat) (f : Part → Part) : (s.modPart p f).churns = s.churns := rfl
@[simp] theorem State.modPart_coach (s : State) (p : Nat) (f : Part → Part) : (s.modPart p f).coach = s.coach := rfl
@[simp] theorem State.modPart_ctl (s : State) (p : Nat) (f : Part → Part) : (s.modPart p f).ctl = s.ctl := rfl
@[simp] theorem State.modPart_service (s : State) (p : Nat) (f : Part → Part) : (s.modPart p f).service = s.service := rfl
@[simp] theorem State.modPart_mgmt (s : State) (p : Nat) (f : Part → Part) : (s.modPart p f).mgmt = s.mgmt := rfl
@[simp] theorem State.modPart_bus (s : State) (p : Nat) (f : Part → Part) : (s.modPart p f).bus = s.bus := rfl
@[simp] theorem State.modPart_rd (s : State) (p : Nat) (f : Part → Part) (bb : Nat) : (s.modPart p f).rd bb = s.rd bb := rfl
@[simp] theorem State.modPart_fd (s : State) (p : Nat) (f : Part → Part) (gg : RF) : (s.modPart p f).fd gg = s.fd gg := rfl
@[simp] theorem State.modPart_core (s : State) (p : Nat) (f : Part → Part) (ii : Nat) : (s.modPart p f).core ii = s.core ii := rfl
@[simp] theorem State.modPart_cluster (s : State) (p : Nat) (f : Part → Part) (ii : Nat) : (s.modPart p f).cluster ii = s.cluster ii := rfl
@[simp] theorem State.modPart_ctlCore (s : State) (p : Nat) (f : Part → Part) (ii : Nat) : (s.modPart p f).ctlCore ii = s.ctlCore ii := rfl

/-! ### modCore -/

@[simp] theorem State.modCore_pending (s : State) (c : Nat) (f : Core → Core) : (s.modCore c f).pending = s.pending := rfl
@[simp] theorem State.modCore_free (s : State) (c : Nat) (f : Core → Core) : (s.modCore c f).free = s.free := rfl
@[simp] theorem State.modCore_now (s : State) (c : Nat) (f : Core → Core) : (s.modCore c f).now = s.now := rfl
@[simp] theorem State.modCore_regs (s : State) (c : Nat) (f : Core → Core) : (s.modCore c f).regs = s.regs := rfl
@[simp] theorem State.modCore_mem (s : State) (c : Nat) (f : Core → Core) : (s.modCore c f).mem = s.mem := rfl
@[simp] theorem State.modCore_hostMem (s : State) (c : Nat) (f : Core → Core) : (s.modCore c f).hostMem = s.hostMem := rfl
@[simp] theorem State.modCore_fuses (s : State) (c : Nat) (f : Core → Core) : (s.modCore c f).fuses = s.fuses := rfl
@[simp] theorem State.modCore_latched (s : State) (c : Nat) (f : Core → Core) : (s.modCore c f).latched = s.latched := rfl
@[simp] theorem State.modCore_flash (s : State) (c : Nat) (f : Core → Core) : (s.modCore c f).flash = s.flash := rfl
@[simp] theorem State.modCore_pins (s : State) (c : Nat) (f : Core → Core) : (s.modCore c f).pins = s.pins := rfl
@[simp] theorem State.modCore_phase (s : State) (c : Nat) (f : Core → Core) : (s.modCore c f).phase = s.phase := rfl
@[simp] theorem State.modCore_warmDue (s : State) (c : Nat) (f : Core → Core) : (s.modCore c f).warmDue = s.warmDue := rfl
@[simp] theorem State.modCore_loaded (s : State) (c : Nat) (f : Core → Core) : (s.modCore c f).loaded = s.loaded := rfl
@[simp] theorem State.modCore_bundle (s : State) (c : Nat) (f : Core → Core) : (s.modCore c f).bundle = s.bundle := rfl
@[simp] theorem State.modCore_power (s : State) (c : Nat) (f : Core → Core) : (s.modCore c f).power = s.power := rfl
@[simp] theorem State.modCore_time (s : State) (c : Nat) (f : Core → Core) : (s.modCore c f).time = s.time := rfl
@[simp] theorem State.modCore_ecc (s : State) (c : Nat) (f : Core → Core) : (s.modCore c f).ecc = s.ecc := rfl
@[simp] theorem State.modCore_fltLog (s : State) (c : Nat) (f : Core → Core) : (s.modCore c f).fltLog = s.fltLog := rfl
@[simp] theorem State.modCore_memLog (s : State) (c : Nat) (f : Core → Core) : (s.modCore c f).memLog = s.memLog := rfl
@[simp] theorem State.modCore_larric (s : State) (c : Nat) (f : Core → Core) : (s.modCore c f).larric = s.larric := rfl
@[simp] theorem State.modCore_parts (s : State) (c : Nat) (f : Core → Core) : (s.modCore c f).parts = s.parts := rfl
@[simp] theorem State.modCore_pages (s : State) (c : Nat) (f : Core → Core) : (s.modCore c f).pages = s.pages := rfl
@[simp] theorem State.modCore_walks (s : State) (c : Nat) (f : Core → Core) : (s.modCore c f).walks = s.walks := rfl
@[simp] theorem State.modCore_ledger (s : State) (c : Nat) (f : Core → Core) : (s.modCore c f).ledger = s.ledger := rfl
@[simp] theorem State.modCore_tasks (s : State) (c : Nat) (f : Core → Core) : (s.modCore c f).tasks = s.tasks := rfl
@[simp] theorem State.modCore_taskNext (s : State) (c : Nat) (f : Core → Core) : (s.modCore c f).taskNext = s.taskNext := rfl
@[simp] theorem State.modCore_issueLast (s : State) (c : Nat) (f : Core → Core) : (s.modCore c f).issueLast = s.issueLast := rfl
@[simp] theorem State.modCore_clusters (s : State) (c : Nat) (f : Core → Core) : (s.modCore c f).clusters = s.clusters := rfl
@[simp] theorem State.modCore_mcasts (s : State) (c : Nat) (f : Core → Core) : (s.modCore c f).mcasts = s.mcasts := rfl
@[simp] theorem State.modCore_endpoints (s : State) (c : Nat) (f : Core → Core) : (s.modCore c f).endpoints = s.endpoints := rfl
@[simp] theorem State.modCore_landings (s : State) (c : Nat) (f : Core → Core) : (s.modCore c f).landings = s.landings := rfl
@[simp] theorem State.modCore_churns (s : State) (c : Nat) (f : Core → Core) : (s.modCore c f).churns = s.churns := rfl
@[simp] theorem State.modCore_coach (s : State) (c : Nat) (f : Core → Core) : (s.modCore c f).coach = s.coach := rfl
@[simp] theorem State.modCore_ctl (s : State) (c : Nat) (f : Core → Core) : (s.modCore c f).ctl = s.ctl := rfl
@[simp] theorem State.modCore_service (s : State) (c : Nat) (f : Core → Core) : (s.modCore c f).service = s.service := rfl
@[simp] theorem State.modCore_mgmt (s : State) (c : Nat) (f : Core → Core) : (s.modCore c f).mgmt = s.mgmt := rfl
@[simp] theorem State.modCore_bus (s : State) (c : Nat) (f : Core → Core) : (s.modCore c f).bus = s.bus := rfl
@[simp] theorem State.modCore_rd (s : State) (c : Nat) (f : Core → Core) (bb : Nat) : (s.modCore c f).rd bb = s.rd bb := rfl
@[simp] theorem State.modCore_fd (s : State) (c : Nat) (f : Core → Core) (gg : RF) : (s.modCore c f).fd gg = s.fd gg := rfl
@[simp] theorem State.modCore_part (s : State) (c : Nat) (f : Core → Core) (qq : Nat) : (s.modCore c f).part qq = s.part qq := rfl
@[simp] theorem State.modCore_cluster (s : State) (c : Nat) (f : Core → Core) (ii : Nat) : (s.modCore c f).cluster ii = s.cluster ii := rfl
@[simp] theorem State.modCore_ctlCore (s : State) (c : Nat) (f : Core → Core) (ii : Nat) : (s.modCore c f).ctlCore ii = s.ctlCore ii := rfl

/-! ### modArray -/

@[simp] theorem State.modArray_pending (s : State) (c i : Nat) (f : ArraySt → ArraySt) : (s.modArray c i f).pending = s.pending := rfl
@[simp] theorem State.modArray_free (s : State) (c i : Nat) (f : ArraySt → ArraySt) : (s.modArray c i f).free = s.free := rfl
@[simp] theorem State.modArray_now (s : State) (c i : Nat) (f : ArraySt → ArraySt) : (s.modArray c i f).now = s.now := rfl
@[simp] theorem State.modArray_regs (s : State) (c i : Nat) (f : ArraySt → ArraySt) : (s.modArray c i f).regs = s.regs := rfl
@[simp] theorem State.modArray_mem (s : State) (c i : Nat) (f : ArraySt → ArraySt) : (s.modArray c i f).mem = s.mem := rfl
@[simp] theorem State.modArray_hostMem (s : State) (c i : Nat) (f : ArraySt → ArraySt) : (s.modArray c i f).hostMem = s.hostMem := rfl
@[simp] theorem State.modArray_fuses (s : State) (c i : Nat) (f : ArraySt → ArraySt) : (s.modArray c i f).fuses = s.fuses := rfl
@[simp] theorem State.modArray_latched (s : State) (c i : Nat) (f : ArraySt → ArraySt) : (s.modArray c i f).latched = s.latched := rfl
@[simp] theorem State.modArray_flash (s : State) (c i : Nat) (f : ArraySt → ArraySt) : (s.modArray c i f).flash = s.flash := rfl
@[simp] theorem State.modArray_pins (s : State) (c i : Nat) (f : ArraySt → ArraySt) : (s.modArray c i f).pins = s.pins := rfl
@[simp] theorem State.modArray_phase (s : State) (c i : Nat) (f : ArraySt → ArraySt) : (s.modArray c i f).phase = s.phase := rfl
@[simp] theorem State.modArray_warmDue (s : State) (c i : Nat) (f : ArraySt → ArraySt) : (s.modArray c i f).warmDue = s.warmDue := rfl
@[simp] theorem State.modArray_loaded (s : State) (c i : Nat) (f : ArraySt → ArraySt) : (s.modArray c i f).loaded = s.loaded := rfl
@[simp] theorem State.modArray_bundle (s : State) (c i : Nat) (f : ArraySt → ArraySt) : (s.modArray c i f).bundle = s.bundle := rfl
@[simp] theorem State.modArray_power (s : State) (c i : Nat) (f : ArraySt → ArraySt) : (s.modArray c i f).power = s.power := rfl
@[simp] theorem State.modArray_time (s : State) (c i : Nat) (f : ArraySt → ArraySt) : (s.modArray c i f).time = s.time := rfl
@[simp] theorem State.modArray_ecc (s : State) (c i : Nat) (f : ArraySt → ArraySt) : (s.modArray c i f).ecc = s.ecc := rfl
@[simp] theorem State.modArray_fltLog (s : State) (c i : Nat) (f : ArraySt → ArraySt) : (s.modArray c i f).fltLog = s.fltLog := rfl
@[simp] theorem State.modArray_memLog (s : State) (c i : Nat) (f : ArraySt → ArraySt) : (s.modArray c i f).memLog = s.memLog := rfl
@[simp] theorem State.modArray_larric (s : State) (c i : Nat) (f : ArraySt → ArraySt) : (s.modArray c i f).larric = s.larric := rfl
@[simp] theorem State.modArray_parts (s : State) (c i : Nat) (f : ArraySt → ArraySt) : (s.modArray c i f).parts = s.parts := rfl
@[simp] theorem State.modArray_pages (s : State) (c i : Nat) (f : ArraySt → ArraySt) : (s.modArray c i f).pages = s.pages := rfl
@[simp] theorem State.modArray_walks (s : State) (c i : Nat) (f : ArraySt → ArraySt) : (s.modArray c i f).walks = s.walks := rfl
@[simp] theorem State.modArray_ledger (s : State) (c i : Nat) (f : ArraySt → ArraySt) : (s.modArray c i f).ledger = s.ledger := rfl
@[simp] theorem State.modArray_tasks (s : State) (c i : Nat) (f : ArraySt → ArraySt) : (s.modArray c i f).tasks = s.tasks := rfl
@[simp] theorem State.modArray_taskNext (s : State) (c i : Nat) (f : ArraySt → ArraySt) : (s.modArray c i f).taskNext = s.taskNext := rfl
@[simp] theorem State.modArray_issueLast (s : State) (c i : Nat) (f : ArraySt → ArraySt) : (s.modArray c i f).issueLast = s.issueLast := rfl
@[simp] theorem State.modArray_clusters (s : State) (c i : Nat) (f : ArraySt → ArraySt) : (s.modArray c i f).clusters = s.clusters := rfl
@[simp] theorem State.modArray_mcasts (s : State) (c i : Nat) (f : ArraySt → ArraySt) : (s.modArray c i f).mcasts = s.mcasts := rfl
@[simp] theorem State.modArray_endpoints (s : State) (c i : Nat) (f : ArraySt → ArraySt) : (s.modArray c i f).endpoints = s.endpoints := rfl
@[simp] theorem State.modArray_landings (s : State) (c i : Nat) (f : ArraySt → ArraySt) : (s.modArray c i f).landings = s.landings := rfl
@[simp] theorem State.modArray_churns (s : State) (c i : Nat) (f : ArraySt → ArraySt) : (s.modArray c i f).churns = s.churns := rfl
@[simp] theorem State.modArray_coach (s : State) (c i : Nat) (f : ArraySt → ArraySt) : (s.modArray c i f).coach = s.coach := rfl
@[simp] theorem State.modArray_ctl (s : State) (c i : Nat) (f : ArraySt → ArraySt) : (s.modArray c i f).ctl = s.ctl := rfl
@[simp] theorem State.modArray_service (s : State) (c i : Nat) (f : ArraySt → ArraySt) : (s.modArray c i f).service = s.service := rfl
@[simp] theorem State.modArray_mgmt (s : State) (c i : Nat) (f : ArraySt → ArraySt) : (s.modArray c i f).mgmt = s.mgmt := rfl
@[simp] theorem State.modArray_bus (s : State) (c i : Nat) (f : ArraySt → ArraySt) : (s.modArray c i f).bus = s.bus := rfl
@[simp] theorem State.modArray_rd (s : State) (c i : Nat) (f : ArraySt → ArraySt) (bb : Nat) : (s.modArray c i f).rd bb = s.rd bb := rfl
@[simp] theorem State.modArray_fd (s : State) (c i : Nat) (f : ArraySt → ArraySt) (gg : RF) : (s.modArray c i f).fd gg = s.fd gg := rfl
@[simp] theorem State.modArray_part (s : State) (c i : Nat) (f : ArraySt → ArraySt) (qq : Nat) : (s.modArray c i f).part qq = s.part qq := rfl
@[simp] theorem State.modArray_cluster (s : State) (c i : Nat) (f : ArraySt → ArraySt) (jj : Nat) : (s.modArray c i f).cluster jj = s.cluster jj := rfl
@[simp] theorem State.modArray_ctlCore (s : State) (c i : Nat) (f : ArraySt → ArraySt) (jj : Nat) : (s.modArray c i f).ctlCore jj = s.ctlCore jj := rfl

/-! ### modCluster -/

@[simp] theorem State.modCluster_pending (s : State) (k : Nat) (f : Cluster → Cluster) : (s.modCluster k f).pending = s.pending := rfl
@[simp] theorem State.modCluster_free (s : State) (k : Nat) (f : Cluster → Cluster) : (s.modCluster k f).free = s.free := rfl
@[simp] theorem State.modCluster_now (s : State) (k : Nat) (f : Cluster → Cluster) : (s.modCluster k f).now = s.now := rfl
@[simp] theorem State.modCluster_regs (s : State) (k : Nat) (f : Cluster → Cluster) : (s.modCluster k f).regs = s.regs := rfl
@[simp] theorem State.modCluster_mem (s : State) (k : Nat) (f : Cluster → Cluster) : (s.modCluster k f).mem = s.mem := rfl
@[simp] theorem State.modCluster_hostMem (s : State) (k : Nat) (f : Cluster → Cluster) : (s.modCluster k f).hostMem = s.hostMem := rfl
@[simp] theorem State.modCluster_fuses (s : State) (k : Nat) (f : Cluster → Cluster) : (s.modCluster k f).fuses = s.fuses := rfl
@[simp] theorem State.modCluster_latched (s : State) (k : Nat) (f : Cluster → Cluster) : (s.modCluster k f).latched = s.latched := rfl
@[simp] theorem State.modCluster_flash (s : State) (k : Nat) (f : Cluster → Cluster) : (s.modCluster k f).flash = s.flash := rfl
@[simp] theorem State.modCluster_pins (s : State) (k : Nat) (f : Cluster → Cluster) : (s.modCluster k f).pins = s.pins := rfl
@[simp] theorem State.modCluster_phase (s : State) (k : Nat) (f : Cluster → Cluster) : (s.modCluster k f).phase = s.phase := rfl
@[simp] theorem State.modCluster_warmDue (s : State) (k : Nat) (f : Cluster → Cluster) : (s.modCluster k f).warmDue = s.warmDue := rfl
@[simp] theorem State.modCluster_loaded (s : State) (k : Nat) (f : Cluster → Cluster) : (s.modCluster k f).loaded = s.loaded := rfl
@[simp] theorem State.modCluster_bundle (s : State) (k : Nat) (f : Cluster → Cluster) : (s.modCluster k f).bundle = s.bundle := rfl
@[simp] theorem State.modCluster_power (s : State) (k : Nat) (f : Cluster → Cluster) : (s.modCluster k f).power = s.power := rfl
@[simp] theorem State.modCluster_time (s : State) (k : Nat) (f : Cluster → Cluster) : (s.modCluster k f).time = s.time := rfl
@[simp] theorem State.modCluster_ecc (s : State) (k : Nat) (f : Cluster → Cluster) : (s.modCluster k f).ecc = s.ecc := rfl
@[simp] theorem State.modCluster_fltLog (s : State) (k : Nat) (f : Cluster → Cluster) : (s.modCluster k f).fltLog = s.fltLog := rfl
@[simp] theorem State.modCluster_memLog (s : State) (k : Nat) (f : Cluster → Cluster) : (s.modCluster k f).memLog = s.memLog := rfl
@[simp] theorem State.modCluster_larric (s : State) (k : Nat) (f : Cluster → Cluster) : (s.modCluster k f).larric = s.larric := rfl
@[simp] theorem State.modCluster_parts (s : State) (k : Nat) (f : Cluster → Cluster) : (s.modCluster k f).parts = s.parts := rfl
@[simp] theorem State.modCluster_pages (s : State) (k : Nat) (f : Cluster → Cluster) : (s.modCluster k f).pages = s.pages := rfl
@[simp] theorem State.modCluster_walks (s : State) (k : Nat) (f : Cluster → Cluster) : (s.modCluster k f).walks = s.walks := rfl
@[simp] theorem State.modCluster_ledger (s : State) (k : Nat) (f : Cluster → Cluster) : (s.modCluster k f).ledger = s.ledger := rfl
@[simp] theorem State.modCluster_tasks (s : State) (k : Nat) (f : Cluster → Cluster) : (s.modCluster k f).tasks = s.tasks := rfl
@[simp] theorem State.modCluster_taskNext (s : State) (k : Nat) (f : Cluster → Cluster) : (s.modCluster k f).taskNext = s.taskNext := rfl
@[simp] theorem State.modCluster_issueLast (s : State) (k : Nat) (f : Cluster → Cluster) : (s.modCluster k f).issueLast = s.issueLast := rfl
@[simp] theorem State.modCluster_cores (s : State) (k : Nat) (f : Cluster → Cluster) : (s.modCluster k f).cores = s.cores := rfl
@[simp] theorem State.modCluster_mcasts (s : State) (k : Nat) (f : Cluster → Cluster) : (s.modCluster k f).mcasts = s.mcasts := rfl
@[simp] theorem State.modCluster_endpoints (s : State) (k : Nat) (f : Cluster → Cluster) : (s.modCluster k f).endpoints = s.endpoints := rfl
@[simp] theorem State.modCluster_landings (s : State) (k : Nat) (f : Cluster → Cluster) : (s.modCluster k f).landings = s.landings := rfl
@[simp] theorem State.modCluster_churns (s : State) (k : Nat) (f : Cluster → Cluster) : (s.modCluster k f).churns = s.churns := rfl
@[simp] theorem State.modCluster_coach (s : State) (k : Nat) (f : Cluster → Cluster) : (s.modCluster k f).coach = s.coach := rfl
@[simp] theorem State.modCluster_ctl (s : State) (k : Nat) (f : Cluster → Cluster) : (s.modCluster k f).ctl = s.ctl := rfl
@[simp] theorem State.modCluster_service (s : State) (k : Nat) (f : Cluster → Cluster) : (s.modCluster k f).service = s.service := rfl
@[simp] theorem State.modCluster_mgmt (s : State) (k : Nat) (f : Cluster → Cluster) : (s.modCluster k f).mgmt = s.mgmt := rfl
@[simp] theorem State.modCluster_bus (s : State) (k : Nat) (f : Cluster → Cluster) : (s.modCluster k f).bus = s.bus := rfl
@[simp] theorem State.modCluster_rd (s : State) (k : Nat) (f : Cluster → Cluster) (bb : Nat) : (s.modCluster k f).rd bb = s.rd bb := rfl
@[simp] theorem State.modCluster_fd (s : State) (k : Nat) (f : Cluster → Cluster) (gg : RF) : (s.modCluster k f).fd gg = s.fd gg := rfl
@[simp] theorem State.modCluster_part (s : State) (k : Nat) (f : Cluster → Cluster) (qq : Nat) : (s.modCluster k f).part qq = s.part qq := rfl
@[simp] theorem State.modCluster_core (s : State) (k : Nat) (f : Cluster → Cluster) (ii : Nat) : (s.modCluster k f).core ii = s.core ii := rfl
@[simp] theorem State.modCluster_ctlCore (s : State) (k : Nat) (f : Cluster → Cluster) (ii : Nat) : (s.modCluster k f).ctlCore ii = s.ctlCore ii := rfl

/-! ### modCtl -/

@[simp] theorem State.modCtl_pending (s : State) (n : Nat) (f : CtlCore → CtlCore) : (s.modCtl n f).pending = s.pending := rfl
@[simp] theorem State.modCtl_free (s : State) (n : Nat) (f : CtlCore → CtlCore) : (s.modCtl n f).free = s.free := rfl
@[simp] theorem State.modCtl_now (s : State) (n : Nat) (f : CtlCore → CtlCore) : (s.modCtl n f).now = s.now := rfl
@[simp] theorem State.modCtl_regs (s : State) (n : Nat) (f : CtlCore → CtlCore) : (s.modCtl n f).regs = s.regs := rfl
@[simp] theorem State.modCtl_mem (s : State) (n : Nat) (f : CtlCore → CtlCore) : (s.modCtl n f).mem = s.mem := rfl
@[simp] theorem State.modCtl_hostMem (s : State) (n : Nat) (f : CtlCore → CtlCore) : (s.modCtl n f).hostMem = s.hostMem := rfl
@[simp] theorem State.modCtl_fuses (s : State) (n : Nat) (f : CtlCore → CtlCore) : (s.modCtl n f).fuses = s.fuses := rfl
@[simp] theorem State.modCtl_latched (s : State) (n : Nat) (f : CtlCore → CtlCore) : (s.modCtl n f).latched = s.latched := rfl
@[simp] theorem State.modCtl_flash (s : State) (n : Nat) (f : CtlCore → CtlCore) : (s.modCtl n f).flash = s.flash := rfl
@[simp] theorem State.modCtl_pins (s : State) (n : Nat) (f : CtlCore → CtlCore) : (s.modCtl n f).pins = s.pins := rfl
@[simp] theorem State.modCtl_phase (s : State) (n : Nat) (f : CtlCore → CtlCore) : (s.modCtl n f).phase = s.phase := rfl
@[simp] theorem State.modCtl_warmDue (s : State) (n : Nat) (f : CtlCore → CtlCore) : (s.modCtl n f).warmDue = s.warmDue := rfl
@[simp] theorem State.modCtl_loaded (s : State) (n : Nat) (f : CtlCore → CtlCore) : (s.modCtl n f).loaded = s.loaded := rfl
@[simp] theorem State.modCtl_bundle (s : State) (n : Nat) (f : CtlCore → CtlCore) : (s.modCtl n f).bundle = s.bundle := rfl
@[simp] theorem State.modCtl_power (s : State) (n : Nat) (f : CtlCore → CtlCore) : (s.modCtl n f).power = s.power := rfl
@[simp] theorem State.modCtl_time (s : State) (n : Nat) (f : CtlCore → CtlCore) : (s.modCtl n f).time = s.time := rfl
@[simp] theorem State.modCtl_ecc (s : State) (n : Nat) (f : CtlCore → CtlCore) : (s.modCtl n f).ecc = s.ecc := rfl
@[simp] theorem State.modCtl_fltLog (s : State) (n : Nat) (f : CtlCore → CtlCore) : (s.modCtl n f).fltLog = s.fltLog := rfl
@[simp] theorem State.modCtl_memLog (s : State) (n : Nat) (f : CtlCore → CtlCore) : (s.modCtl n f).memLog = s.memLog := rfl
@[simp] theorem State.modCtl_larric (s : State) (n : Nat) (f : CtlCore → CtlCore) : (s.modCtl n f).larric = s.larric := rfl
@[simp] theorem State.modCtl_parts (s : State) (n : Nat) (f : CtlCore → CtlCore) : (s.modCtl n f).parts = s.parts := rfl
@[simp] theorem State.modCtl_pages (s : State) (n : Nat) (f : CtlCore → CtlCore) : (s.modCtl n f).pages = s.pages := rfl
@[simp] theorem State.modCtl_walks (s : State) (n : Nat) (f : CtlCore → CtlCore) : (s.modCtl n f).walks = s.walks := rfl
@[simp] theorem State.modCtl_ledger (s : State) (n : Nat) (f : CtlCore → CtlCore) : (s.modCtl n f).ledger = s.ledger := rfl
@[simp] theorem State.modCtl_tasks (s : State) (n : Nat) (f : CtlCore → CtlCore) : (s.modCtl n f).tasks = s.tasks := rfl
@[simp] theorem State.modCtl_taskNext (s : State) (n : Nat) (f : CtlCore → CtlCore) : (s.modCtl n f).taskNext = s.taskNext := rfl
@[simp] theorem State.modCtl_issueLast (s : State) (n : Nat) (f : CtlCore → CtlCore) : (s.modCtl n f).issueLast = s.issueLast := rfl
@[simp] theorem State.modCtl_cores (s : State) (n : Nat) (f : CtlCore → CtlCore) : (s.modCtl n f).cores = s.cores := rfl
@[simp] theorem State.modCtl_clusters (s : State) (n : Nat) (f : CtlCore → CtlCore) : (s.modCtl n f).clusters = s.clusters := rfl
@[simp] theorem State.modCtl_mcasts (s : State) (n : Nat) (f : CtlCore → CtlCore) : (s.modCtl n f).mcasts = s.mcasts := rfl
@[simp] theorem State.modCtl_endpoints (s : State) (n : Nat) (f : CtlCore → CtlCore) : (s.modCtl n f).endpoints = s.endpoints := rfl
@[simp] theorem State.modCtl_landings (s : State) (n : Nat) (f : CtlCore → CtlCore) : (s.modCtl n f).landings = s.landings := rfl
@[simp] theorem State.modCtl_churns (s : State) (n : Nat) (f : CtlCore → CtlCore) : (s.modCtl n f).churns = s.churns := rfl
@[simp] theorem State.modCtl_coach (s : State) (n : Nat) (f : CtlCore → CtlCore) : (s.modCtl n f).coach = s.coach := rfl
@[simp] theorem State.modCtl_service (s : State) (n : Nat) (f : CtlCore → CtlCore) : (s.modCtl n f).service = s.service := rfl
@[simp] theorem State.modCtl_mgmt (s : State) (n : Nat) (f : CtlCore → CtlCore) : (s.modCtl n f).mgmt = s.mgmt := rfl
@[simp] theorem State.modCtl_bus (s : State) (n : Nat) (f : CtlCore → CtlCore) : (s.modCtl n f).bus = s.bus := rfl
@[simp] theorem State.modCtl_rd (s : State) (n : Nat) (f : CtlCore → CtlCore) (bb : Nat) : (s.modCtl n f).rd bb = s.rd bb := rfl
@[simp] theorem State.modCtl_fd (s : State) (n : Nat) (f : CtlCore → CtlCore) (gg : RF) : (s.modCtl n f).fd gg = s.fd gg := rfl
@[simp] theorem State.modCtl_part (s : State) (n : Nat) (f : CtlCore → CtlCore) (qq : Nat) : (s.modCtl n f).part qq = s.part qq := rfl
@[simp] theorem State.modCtl_core (s : State) (n : Nat) (f : CtlCore → CtlCore) (ii : Nat) : (s.modCtl n f).core ii = s.core ii := rfl
@[simp] theorem State.modCtl_cluster (s : State) (n : Nat) (f : CtlCore → CtlCore) (ii : Nat) : (s.modCtl n f).cluster ii = s.cluster ii := rfl

/-! ### modTask -/

@[simp] theorem State.modTask_pending (s : State) (t : Nat) (f : Task → Task) : (s.modTask t f).pending = s.pending := rfl
@[simp] theorem State.modTask_free (s : State) (t : Nat) (f : Task → Task) : (s.modTask t f).free = s.free := rfl
@[simp] theorem State.modTask_now (s : State) (t : Nat) (f : Task → Task) : (s.modTask t f).now = s.now := rfl
@[simp] theorem State.modTask_regs (s : State) (t : Nat) (f : Task → Task) : (s.modTask t f).regs = s.regs := rfl
@[simp] theorem State.modTask_mem (s : State) (t : Nat) (f : Task → Task) : (s.modTask t f).mem = s.mem := rfl
@[simp] theorem State.modTask_hostMem (s : State) (t : Nat) (f : Task → Task) : (s.modTask t f).hostMem = s.hostMem := rfl
@[simp] theorem State.modTask_fuses (s : State) (t : Nat) (f : Task → Task) : (s.modTask t f).fuses = s.fuses := rfl
@[simp] theorem State.modTask_latched (s : State) (t : Nat) (f : Task → Task) : (s.modTask t f).latched = s.latched := rfl
@[simp] theorem State.modTask_flash (s : State) (t : Nat) (f : Task → Task) : (s.modTask t f).flash = s.flash := rfl
@[simp] theorem State.modTask_pins (s : State) (t : Nat) (f : Task → Task) : (s.modTask t f).pins = s.pins := rfl
@[simp] theorem State.modTask_phase (s : State) (t : Nat) (f : Task → Task) : (s.modTask t f).phase = s.phase := rfl
@[simp] theorem State.modTask_warmDue (s : State) (t : Nat) (f : Task → Task) : (s.modTask t f).warmDue = s.warmDue := rfl
@[simp] theorem State.modTask_loaded (s : State) (t : Nat) (f : Task → Task) : (s.modTask t f).loaded = s.loaded := rfl
@[simp] theorem State.modTask_bundle (s : State) (t : Nat) (f : Task → Task) : (s.modTask t f).bundle = s.bundle := rfl
@[simp] theorem State.modTask_power (s : State) (t : Nat) (f : Task → Task) : (s.modTask t f).power = s.power := rfl
@[simp] theorem State.modTask_time (s : State) (t : Nat) (f : Task → Task) : (s.modTask t f).time = s.time := rfl
@[simp] theorem State.modTask_ecc (s : State) (t : Nat) (f : Task → Task) : (s.modTask t f).ecc = s.ecc := rfl
@[simp] theorem State.modTask_fltLog (s : State) (t : Nat) (f : Task → Task) : (s.modTask t f).fltLog = s.fltLog := rfl
@[simp] theorem State.modTask_memLog (s : State) (t : Nat) (f : Task → Task) : (s.modTask t f).memLog = s.memLog := rfl
@[simp] theorem State.modTask_larric (s : State) (t : Nat) (f : Task → Task) : (s.modTask t f).larric = s.larric := rfl
@[simp] theorem State.modTask_parts (s : State) (t : Nat) (f : Task → Task) : (s.modTask t f).parts = s.parts := rfl
@[simp] theorem State.modTask_pages (s : State) (t : Nat) (f : Task → Task) : (s.modTask t f).pages = s.pages := rfl
@[simp] theorem State.modTask_walks (s : State) (t : Nat) (f : Task → Task) : (s.modTask t f).walks = s.walks := rfl
@[simp] theorem State.modTask_ledger (s : State) (t : Nat) (f : Task → Task) : (s.modTask t f).ledger = s.ledger := rfl
@[simp] theorem State.modTask_taskNext (s : State) (t : Nat) (f : Task → Task) : (s.modTask t f).taskNext = s.taskNext := rfl
@[simp] theorem State.modTask_issueLast (s : State) (t : Nat) (f : Task → Task) : (s.modTask t f).issueLast = s.issueLast := rfl
@[simp] theorem State.modTask_cores (s : State) (t : Nat) (f : Task → Task) : (s.modTask t f).cores = s.cores := rfl
@[simp] theorem State.modTask_clusters (s : State) (t : Nat) (f : Task → Task) : (s.modTask t f).clusters = s.clusters := rfl
@[simp] theorem State.modTask_mcasts (s : State) (t : Nat) (f : Task → Task) : (s.modTask t f).mcasts = s.mcasts := rfl
@[simp] theorem State.modTask_endpoints (s : State) (t : Nat) (f : Task → Task) : (s.modTask t f).endpoints = s.endpoints := rfl
@[simp] theorem State.modTask_landings (s : State) (t : Nat) (f : Task → Task) : (s.modTask t f).landings = s.landings := rfl
@[simp] theorem State.modTask_churns (s : State) (t : Nat) (f : Task → Task) : (s.modTask t f).churns = s.churns := rfl
@[simp] theorem State.modTask_coach (s : State) (t : Nat) (f : Task → Task) : (s.modTask t f).coach = s.coach := rfl
@[simp] theorem State.modTask_ctl (s : State) (t : Nat) (f : Task → Task) : (s.modTask t f).ctl = s.ctl := rfl
@[simp] theorem State.modTask_service (s : State) (t : Nat) (f : Task → Task) : (s.modTask t f).service = s.service := rfl
@[simp] theorem State.modTask_mgmt (s : State) (t : Nat) (f : Task → Task) : (s.modTask t f).mgmt = s.mgmt := rfl
@[simp] theorem State.modTask_bus (s : State) (t : Nat) (f : Task → Task) : (s.modTask t f).bus = s.bus := rfl
@[simp] theorem State.modTask_rd (s : State) (t : Nat) (f : Task → Task) (bb : Nat) : (s.modTask t f).rd bb = s.rd bb := rfl
@[simp] theorem State.modTask_fd (s : State) (t : Nat) (f : Task → Task) (gg : RF) : (s.modTask t f).fd gg = s.fd gg := rfl
@[simp] theorem State.modTask_part (s : State) (t : Nat) (f : Task → Task) (qq : Nat) : (s.modTask t f).part qq = s.part qq := rfl
@[simp] theorem State.modTask_core (s : State) (t : Nat) (f : Task → Task) (ii : Nat) : (s.modTask t f).core ii = s.core ii := rfl
@[simp] theorem State.modTask_cluster (s : State) (t : Nat) (f : Task → Task) (ii : Nat) : (s.modTask t f).cluster ii = s.cluster ii := rfl
@[simp] theorem State.modTask_ctlCore (s : State) (t : Nat) (f : Task → Task) (ii : Nat) : (s.modTask t f).ctlCore ii = s.ctlCore ii := rfl

/-! ### fltAdd -/

@[simp] theorem State.fltAdd_pending (s : State) (a b c d e : Nat) (g : Bool) (h : Nat) : (s.fltAdd a b c d e g h).pending = s.pending := by unfold State.fltAdd; split <;> rfl
@[simp] theorem State.fltAdd_free (s : State) (a b c d e : Nat) (g : Bool) (h : Nat) : (s.fltAdd a b c d e g h).free = s.free := by unfold State.fltAdd; split <;> rfl
@[simp] theorem State.fltAdd_now (s : State) (a b c d e : Nat) (g : Bool) (h : Nat) : (s.fltAdd a b c d e g h).now = s.now := by unfold State.fltAdd; split <;> rfl
@[simp] theorem State.fltAdd_mem (s : State) (a b c d e : Nat) (g : Bool) (h : Nat) : (s.fltAdd a b c d e g h).mem = s.mem := by unfold State.fltAdd; split <;> rfl
@[simp] theorem State.fltAdd_hostMem (s : State) (a b c d e : Nat) (g : Bool) (h : Nat) : (s.fltAdd a b c d e g h).hostMem = s.hostMem := by unfold State.fltAdd; split <;> rfl
@[simp] theorem State.fltAdd_fuses (s : State) (a b c d e : Nat) (g : Bool) (h : Nat) : (s.fltAdd a b c d e g h).fuses = s.fuses := by unfold State.fltAdd; split <;> rfl
@[simp] theorem State.fltAdd_latched (s : State) (a b c d e : Nat) (g : Bool) (h : Nat) : (s.fltAdd a b c d e g h).latched = s.latched := by unfold State.fltAdd; split <;> rfl
@[simp] theorem State.fltAdd_flash (s : State) (a b c d e : Nat) (g : Bool) (h : Nat) : (s.fltAdd a b c d e g h).flash = s.flash := by unfold State.fltAdd; split <;> rfl
@[simp] theorem State.fltAdd_pins (s : State) (a b c d e : Nat) (g : Bool) (h : Nat) : (s.fltAdd a b c d e g h).pins = s.pins := by unfold State.fltAdd; split <;> rfl
@[simp] theorem State.fltAdd_phase (s : State) (a b c d e : Nat) (g : Bool) (h : Nat) : (s.fltAdd a b c d e g h).phase = s.phase := by unfold State.fltAdd; split <;> rfl
@[simp] theorem State.fltAdd_warmDue (s : State) (a b c d e : Nat) (g : Bool) (h : Nat) : (s.fltAdd a b c d e g h).warmDue = s.warmDue := by unfold State.fltAdd; split <;> rfl
@[simp] theorem State.fltAdd_loaded (s : State) (a b c d e : Nat) (g : Bool) (h : Nat) : (s.fltAdd a b c d e g h).loaded = s.loaded := by unfold State.fltAdd; split <;> rfl
@[simp] theorem State.fltAdd_bundle (s : State) (a b c d e : Nat) (g : Bool) (h : Nat) : (s.fltAdd a b c d e g h).bundle = s.bundle := by unfold State.fltAdd; split <;> rfl
@[simp] theorem State.fltAdd_power (s : State) (a b c d e : Nat) (g : Bool) (h : Nat) : (s.fltAdd a b c d e g h).power = s.power := by unfold State.fltAdd; split <;> rfl
@[simp] theorem State.fltAdd_time (s : State) (a b c d e : Nat) (g : Bool) (h : Nat) : (s.fltAdd a b c d e g h).time = s.time := by unfold State.fltAdd; split <;> rfl
@[simp] theorem State.fltAdd_ecc (s : State) (a b c d e : Nat) (g : Bool) (h : Nat) : (s.fltAdd a b c d e g h).ecc = s.ecc := by unfold State.fltAdd; split <;> rfl
@[simp] theorem State.fltAdd_memLog (s : State) (a b c d e : Nat) (g : Bool) (h : Nat) : (s.fltAdd a b c d e g h).memLog = s.memLog := by unfold State.fltAdd; split <;> rfl
@[simp] theorem State.fltAdd_larric (s : State) (a b c d e : Nat) (g : Bool) (h : Nat) : (s.fltAdd a b c d e g h).larric = s.larric := by unfold State.fltAdd; split <;> rfl
@[simp] theorem State.fltAdd_parts (s : State) (a b c d e : Nat) (g : Bool) (h : Nat) : (s.fltAdd a b c d e g h).parts = s.parts := by unfold State.fltAdd; split <;> rfl
@[simp] theorem State.fltAdd_pages (s : State) (a b c d e : Nat) (g : Bool) (h : Nat) : (s.fltAdd a b c d e g h).pages = s.pages := by unfold State.fltAdd; split <;> rfl
@[simp] theorem State.fltAdd_walks (s : State) (a b c d e : Nat) (g : Bool) (h : Nat) : (s.fltAdd a b c d e g h).walks = s.walks := by unfold State.fltAdd; split <;> rfl
@[simp] theorem State.fltAdd_ledger (s : State) (a b c d e : Nat) (g : Bool) (h : Nat) : (s.fltAdd a b c d e g h).ledger = s.ledger := by unfold State.fltAdd; split <;> rfl
@[simp] theorem State.fltAdd_tasks (s : State) (a b c d e : Nat) (g : Bool) (h : Nat) : (s.fltAdd a b c d e g h).tasks = s.tasks := by unfold State.fltAdd; split <;> rfl
@[simp] theorem State.fltAdd_taskNext (s : State) (a b c d e : Nat) (g : Bool) (h : Nat) : (s.fltAdd a b c d e g h).taskNext = s.taskNext := by unfold State.fltAdd; split <;> rfl
@[simp] theorem State.fltAdd_issueLast (s : State) (a b c d e : Nat) (g : Bool) (h : Nat) : (s.fltAdd a b c d e g h).issueLast = s.issueLast := by unfold State.fltAdd; split <;> rfl
@[simp] theorem State.fltAdd_cores (s : State) (a b c d e : Nat) (g : Bool) (h : Nat) : (s.fltAdd a b c d e g h).cores = s.cores := by unfold State.fltAdd; split <;> rfl
@[simp] theorem State.fltAdd_clusters (s : State) (a b c d e : Nat) (g : Bool) (h : Nat) : (s.fltAdd a b c d e g h).clusters = s.clusters := by unfold State.fltAdd; split <;> rfl
@[simp] theorem State.fltAdd_mcasts (s : State) (a b c d e : Nat) (g : Bool) (h : Nat) : (s.fltAdd a b c d e g h).mcasts = s.mcasts := by unfold State.fltAdd; split <;> rfl
@[simp] theorem State.fltAdd_endpoints (s : State) (a b c d e : Nat) (g : Bool) (h : Nat) : (s.fltAdd a b c d e g h).endpoints = s.endpoints := by unfold State.fltAdd; split <;> rfl
@[simp] theorem State.fltAdd_landings (s : State) (a b c d e : Nat) (g : Bool) (h : Nat) : (s.fltAdd a b c d e g h).landings = s.landings := by unfold State.fltAdd; split <;> rfl
@[simp] theorem State.fltAdd_churns (s : State) (a b c d e : Nat) (g : Bool) (h : Nat) : (s.fltAdd a b c d e g h).churns = s.churns := by unfold State.fltAdd; split <;> rfl
@[simp] theorem State.fltAdd_coach (s : State) (a b c d e : Nat) (g : Bool) (h : Nat) : (s.fltAdd a b c d e g h).coach = s.coach := by unfold State.fltAdd; split <;> rfl
@[simp] theorem State.fltAdd_ctl (s : State) (a b c d e : Nat) (g : Bool) (h : Nat) : (s.fltAdd a b c d e g h).ctl = s.ctl := by unfold State.fltAdd; split <;> rfl
@[simp] theorem State.fltAdd_service (s : State) (a b c d e : Nat) (g : Bool) (h : Nat) : (s.fltAdd a b c d e g h).service = s.service := by unfold State.fltAdd; split <;> rfl
@[simp] theorem State.fltAdd_mgmt (s : State) (a b c d e : Nat) (g : Bool) (h : Nat) : (s.fltAdd a b c d e g h).mgmt = s.mgmt := by unfold State.fltAdd; split <;> rfl
@[simp] theorem State.fltAdd_bus (s : State) (a b c d e : Nat) (g : Bool) (h : Nat) : (s.fltAdd a b c d e g h).bus = s.bus := by unfold State.fltAdd; split <;> rfl
@[simp] theorem State.fltAdd_part (s : State) (a b c d e : Nat) (g : Bool) (h : Nat) (qq : Nat) : (s.fltAdd a b c d e g h).part qq = s.part qq := by unfold State.fltAdd; split <;> rfl
@[simp] theorem State.fltAdd_core (s : State) (a b c d e : Nat) (g : Bool) (h : Nat) (ii : Nat) : (s.fltAdd a b c d e g h).core ii = s.core ii := by unfold State.fltAdd; split <;> rfl
@[simp] theorem State.fltAdd_cluster (s : State) (a b c d e : Nat) (g : Bool) (h : Nat) (ii : Nat) : (s.fltAdd a b c d e g h).cluster ii = s.cluster ii := by unfold State.fltAdd; split <;> rfl
@[simp] theorem State.fltAdd_ctlCore (s : State) (a b c d e : Nat) (g : Bool) (h : Nat) (ii : Nat) : (s.fltAdd a b c d e g h).ctlCore ii = s.ctlCore ii := by unfold State.fltAdd; split <;> rfl

/-! ### modSvc -/

@[simp] theorem State.modSvc_pending (s : State) (f : ServiceSt → ServiceSt) : (s.modSvc f).pending = s.pending := rfl
@[simp] theorem State.modSvc_free (s : State) (f : ServiceSt → ServiceSt) : (s.modSvc f).free = s.free := rfl
@[simp] theorem State.modSvc_now (s : State) (f : ServiceSt → ServiceSt) : (s.modSvc f).now = s.now := rfl
@[simp] theorem State.modSvc_regs (s : State) (f : ServiceSt → ServiceSt) : (s.modSvc f).regs = s.regs := rfl
@[simp] theorem State.modSvc_mem (s : State) (f : ServiceSt → ServiceSt) : (s.modSvc f).mem = s.mem := rfl
@[simp] theorem State.modSvc_hostMem (s : State) (f : ServiceSt → ServiceSt) : (s.modSvc f).hostMem = s.hostMem := rfl
@[simp] theorem State.modSvc_fuses (s : State) (f : ServiceSt → ServiceSt) : (s.modSvc f).fuses = s.fuses := rfl
@[simp] theorem State.modSvc_latched (s : State) (f : ServiceSt → ServiceSt) : (s.modSvc f).latched = s.latched := rfl
@[simp] theorem State.modSvc_flash (s : State) (f : ServiceSt → ServiceSt) : (s.modSvc f).flash = s.flash := rfl
@[simp] theorem State.modSvc_pins (s : State) (f : ServiceSt → ServiceSt) : (s.modSvc f).pins = s.pins := rfl
@[simp] theorem State.modSvc_phase (s : State) (f : ServiceSt → ServiceSt) : (s.modSvc f).phase = s.phase := rfl
@[simp] theorem State.modSvc_warmDue (s : State) (f : ServiceSt → ServiceSt) : (s.modSvc f).warmDue = s.warmDue := rfl
@[simp] theorem State.modSvc_loaded (s : State) (f : ServiceSt → ServiceSt) : (s.modSvc f).loaded = s.loaded := rfl
@[simp] theorem State.modSvc_bundle (s : State) (f : ServiceSt → ServiceSt) : (s.modSvc f).bundle = s.bundle := rfl
@[simp] theorem State.modSvc_power (s : State) (f : ServiceSt → ServiceSt) : (s.modSvc f).power = s.power := rfl
@[simp] theorem State.modSvc_time (s : State) (f : ServiceSt → ServiceSt) : (s.modSvc f).time = s.time := rfl
@[simp] theorem State.modSvc_ecc (s : State) (f : ServiceSt → ServiceSt) : (s.modSvc f).ecc = s.ecc := rfl
@[simp] theorem State.modSvc_fltLog (s : State) (f : ServiceSt → ServiceSt) : (s.modSvc f).fltLog = s.fltLog := rfl
@[simp] theorem State.modSvc_memLog (s : State) (f : ServiceSt → ServiceSt) : (s.modSvc f).memLog = s.memLog := rfl
@[simp] theorem State.modSvc_larric (s : State) (f : ServiceSt → ServiceSt) : (s.modSvc f).larric = s.larric := rfl
@[simp] theorem State.modSvc_parts (s : State) (f : ServiceSt → ServiceSt) : (s.modSvc f).parts = s.parts := rfl
@[simp] theorem State.modSvc_pages (s : State) (f : ServiceSt → ServiceSt) : (s.modSvc f).pages = s.pages := rfl
@[simp] theorem State.modSvc_walks (s : State) (f : ServiceSt → ServiceSt) : (s.modSvc f).walks = s.walks := rfl
@[simp] theorem State.modSvc_ledger (s : State) (f : ServiceSt → ServiceSt) : (s.modSvc f).ledger = s.ledger := rfl
@[simp] theorem State.modSvc_tasks (s : State) (f : ServiceSt → ServiceSt) : (s.modSvc f).tasks = s.tasks := rfl
@[simp] theorem State.modSvc_taskNext (s : State) (f : ServiceSt → ServiceSt) : (s.modSvc f).taskNext = s.taskNext := rfl
@[simp] theorem State.modSvc_issueLast (s : State) (f : ServiceSt → ServiceSt) : (s.modSvc f).issueLast = s.issueLast := rfl
@[simp] theorem State.modSvc_cores (s : State) (f : ServiceSt → ServiceSt) : (s.modSvc f).cores = s.cores := rfl
@[simp] theorem State.modSvc_clusters (s : State) (f : ServiceSt → ServiceSt) : (s.modSvc f).clusters = s.clusters := rfl
@[simp] theorem State.modSvc_mcasts (s : State) (f : ServiceSt → ServiceSt) : (s.modSvc f).mcasts = s.mcasts := rfl
@[simp] theorem State.modSvc_endpoints (s : State) (f : ServiceSt → ServiceSt) : (s.modSvc f).endpoints = s.endpoints := rfl
@[simp] theorem State.modSvc_landings (s : State) (f : ServiceSt → ServiceSt) : (s.modSvc f).landings = s.landings := rfl
@[simp] theorem State.modSvc_churns (s : State) (f : ServiceSt → ServiceSt) : (s.modSvc f).churns = s.churns := rfl
@[simp] theorem State.modSvc_coach (s : State) (f : ServiceSt → ServiceSt) : (s.modSvc f).coach = s.coach := rfl
@[simp] theorem State.modSvc_ctl (s : State) (f : ServiceSt → ServiceSt) : (s.modSvc f).ctl = s.ctl := rfl
@[simp] theorem State.modSvc_mgmt (s : State) (f : ServiceSt → ServiceSt) : (s.modSvc f).mgmt = s.mgmt := rfl
@[simp] theorem State.modSvc_bus (s : State) (f : ServiceSt → ServiceSt) : (s.modSvc f).bus = s.bus := rfl
@[simp] theorem State.modSvc_rd (s : State) (f : ServiceSt → ServiceSt) (bb : Nat) : (s.modSvc f).rd bb = s.rd bb := rfl
@[simp] theorem State.modSvc_fd (s : State) (f : ServiceSt → ServiceSt) (gg : RF) : (s.modSvc f).fd gg = s.fd gg := rfl
@[simp] theorem State.modSvc_part (s : State) (f : ServiceSt → ServiceSt) (qq : Nat) : (s.modSvc f).part qq = s.part qq := rfl
@[simp] theorem State.modSvc_core (s : State) (f : ServiceSt → ServiceSt) (ii : Nat) : (s.modSvc f).core ii = s.core ii := rfl
@[simp] theorem State.modSvc_cluster (s : State) (f : ServiceSt → ServiceSt) (ii : Nat) : (s.modSvc f).cluster ii = s.cluster ii := rfl
@[simp] theorem State.modSvc_ctlCore (s : State) (f : ServiceSt → ServiceSt) (ii : Nat) : (s.modSvc f).ctlCore ii = s.ctlCore ii := rfl

/-! ### modMgmt -/

@[simp] theorem State.modMgmt_pending (s : State) (f : MgmtSt → MgmtSt) : (s.modMgmt f).pending = s.pending := rfl
@[simp] theorem State.modMgmt_free (s : State) (f : MgmtSt → MgmtSt) : (s.modMgmt f).free = s.free := rfl
@[simp] theorem State.modMgmt_now (s : State) (f : MgmtSt → MgmtSt) : (s.modMgmt f).now = s.now := rfl
@[simp] theorem State.modMgmt_regs (s : State) (f : MgmtSt → MgmtSt) : (s.modMgmt f).regs = s.regs := rfl
@[simp] theorem State.modMgmt_mem (s : State) (f : MgmtSt → MgmtSt) : (s.modMgmt f).mem = s.mem := rfl
@[simp] theorem State.modMgmt_hostMem (s : State) (f : MgmtSt → MgmtSt) : (s.modMgmt f).hostMem = s.hostMem := rfl
@[simp] theorem State.modMgmt_fuses (s : State) (f : MgmtSt → MgmtSt) : (s.modMgmt f).fuses = s.fuses := rfl
@[simp] theorem State.modMgmt_latched (s : State) (f : MgmtSt → MgmtSt) : (s.modMgmt f).latched = s.latched := rfl
@[simp] theorem State.modMgmt_flash (s : State) (f : MgmtSt → MgmtSt) : (s.modMgmt f).flash = s.flash := rfl
@[simp] theorem State.modMgmt_pins (s : State) (f : MgmtSt → MgmtSt) : (s.modMgmt f).pins = s.pins := rfl
@[simp] theorem State.modMgmt_phase (s : State) (f : MgmtSt → MgmtSt) : (s.modMgmt f).phase = s.phase := rfl
@[simp] theorem State.modMgmt_warmDue (s : State) (f : MgmtSt → MgmtSt) : (s.modMgmt f).warmDue = s.warmDue := rfl
@[simp] theorem State.modMgmt_loaded (s : State) (f : MgmtSt → MgmtSt) : (s.modMgmt f).loaded = s.loaded := rfl
@[simp] theorem State.modMgmt_bundle (s : State) (f : MgmtSt → MgmtSt) : (s.modMgmt f).bundle = s.bundle := rfl
@[simp] theorem State.modMgmt_power (s : State) (f : MgmtSt → MgmtSt) : (s.modMgmt f).power = s.power := rfl
@[simp] theorem State.modMgmt_time (s : State) (f : MgmtSt → MgmtSt) : (s.modMgmt f).time = s.time := rfl
@[simp] theorem State.modMgmt_ecc (s : State) (f : MgmtSt → MgmtSt) : (s.modMgmt f).ecc = s.ecc := rfl
@[simp] theorem State.modMgmt_fltLog (s : State) (f : MgmtSt → MgmtSt) : (s.modMgmt f).fltLog = s.fltLog := rfl
@[simp] theorem State.modMgmt_memLog (s : State) (f : MgmtSt → MgmtSt) : (s.modMgmt f).memLog = s.memLog := rfl
@[simp] theorem State.modMgmt_larric (s : State) (f : MgmtSt → MgmtSt) : (s.modMgmt f).larric = s.larric := rfl
@[simp] theorem State.modMgmt_parts (s : State) (f : MgmtSt → MgmtSt) : (s.modMgmt f).parts = s.parts := rfl
@[simp] theorem State.modMgmt_pages (s : State) (f : MgmtSt → MgmtSt) : (s.modMgmt f).pages = s.pages := rfl
@[simp] theorem State.modMgmt_walks (s : State) (f : MgmtSt → MgmtSt) : (s.modMgmt f).walks = s.walks := rfl
@[simp] theorem State.modMgmt_ledger (s : State) (f : MgmtSt → MgmtSt) : (s.modMgmt f).ledger = s.ledger := rfl
@[simp] theorem State.modMgmt_tasks (s : State) (f : MgmtSt → MgmtSt) : (s.modMgmt f).tasks = s.tasks := rfl
@[simp] theorem State.modMgmt_taskNext (s : State) (f : MgmtSt → MgmtSt) : (s.modMgmt f).taskNext = s.taskNext := rfl
@[simp] theorem State.modMgmt_issueLast (s : State) (f : MgmtSt → MgmtSt) : (s.modMgmt f).issueLast = s.issueLast := rfl
@[simp] theorem State.modMgmt_cores (s : State) (f : MgmtSt → MgmtSt) : (s.modMgmt f).cores = s.cores := rfl
@[simp] theorem State.modMgmt_clusters (s : State) (f : MgmtSt → MgmtSt) : (s.modMgmt f).clusters = s.clusters := rfl
@[simp] theorem State.modMgmt_mcasts (s : State) (f : MgmtSt → MgmtSt) : (s.modMgmt f).mcasts = s.mcasts := rfl
@[simp] theorem State.modMgmt_endpoints (s : State) (f : MgmtSt → MgmtSt) : (s.modMgmt f).endpoints = s.endpoints := rfl
@[simp] theorem State.modMgmt_landings (s : State) (f : MgmtSt → MgmtSt) : (s.modMgmt f).landings = s.landings := rfl
@[simp] theorem State.modMgmt_churns (s : State) (f : MgmtSt → MgmtSt) : (s.modMgmt f).churns = s.churns := rfl
@[simp] theorem State.modMgmt_coach (s : State) (f : MgmtSt → MgmtSt) : (s.modMgmt f).coach = s.coach := rfl
@[simp] theorem State.modMgmt_ctl (s : State) (f : MgmtSt → MgmtSt) : (s.modMgmt f).ctl = s.ctl := rfl
@[simp] theorem State.modMgmt_service (s : State) (f : MgmtSt → MgmtSt) : (s.modMgmt f).service = s.service := rfl
@[simp] theorem State.modMgmt_bus (s : State) (f : MgmtSt → MgmtSt) : (s.modMgmt f).bus = s.bus := rfl
@[simp] theorem State.modMgmt_rd (s : State) (f : MgmtSt → MgmtSt) (bb : Nat) : (s.modMgmt f).rd bb = s.rd bb := rfl
@[simp] theorem State.modMgmt_fd (s : State) (f : MgmtSt → MgmtSt) (gg : RF) : (s.modMgmt f).fd gg = s.fd gg := rfl
@[simp] theorem State.modMgmt_part (s : State) (f : MgmtSt → MgmtSt) (qq : Nat) : (s.modMgmt f).part qq = s.part qq := rfl
@[simp] theorem State.modMgmt_core (s : State) (f : MgmtSt → MgmtSt) (ii : Nat) : (s.modMgmt f).core ii = s.core ii := rfl
@[simp] theorem State.modMgmt_cluster (s : State) (f : MgmtSt → MgmtSt) (ii : Nat) : (s.modMgmt f).cluster ii = s.cluster ii := rfl
@[simp] theorem State.modMgmt_ctlCore (s : State) (f : MgmtSt → MgmtSt) (ii : Nat) : (s.modMgmt f).ctlCore ii = s.ctlCore ii := rfl

/-! ### modLrl -/

@[simp] theorem State.modLrl_pending (s : State) (f : LarricSt → LarricSt) : (s.modLrl f).pending = s.pending := rfl
@[simp] theorem State.modLrl_free (s : State) (f : LarricSt → LarricSt) : (s.modLrl f).free = s.free := rfl
@[simp] theorem State.modLrl_now (s : State) (f : LarricSt → LarricSt) : (s.modLrl f).now = s.now := rfl
@[simp] theorem State.modLrl_regs (s : State) (f : LarricSt → LarricSt) : (s.modLrl f).regs = s.regs := rfl
@[simp] theorem State.modLrl_mem (s : State) (f : LarricSt → LarricSt) : (s.modLrl f).mem = s.mem := rfl
@[simp] theorem State.modLrl_hostMem (s : State) (f : LarricSt → LarricSt) : (s.modLrl f).hostMem = s.hostMem := rfl
@[simp] theorem State.modLrl_fuses (s : State) (f : LarricSt → LarricSt) : (s.modLrl f).fuses = s.fuses := rfl
@[simp] theorem State.modLrl_latched (s : State) (f : LarricSt → LarricSt) : (s.modLrl f).latched = s.latched := rfl
@[simp] theorem State.modLrl_flash (s : State) (f : LarricSt → LarricSt) : (s.modLrl f).flash = s.flash := rfl
@[simp] theorem State.modLrl_pins (s : State) (f : LarricSt → LarricSt) : (s.modLrl f).pins = s.pins := rfl
@[simp] theorem State.modLrl_phase (s : State) (f : LarricSt → LarricSt) : (s.modLrl f).phase = s.phase := rfl
@[simp] theorem State.modLrl_warmDue (s : State) (f : LarricSt → LarricSt) : (s.modLrl f).warmDue = s.warmDue := rfl
@[simp] theorem State.modLrl_loaded (s : State) (f : LarricSt → LarricSt) : (s.modLrl f).loaded = s.loaded := rfl
@[simp] theorem State.modLrl_bundle (s : State) (f : LarricSt → LarricSt) : (s.modLrl f).bundle = s.bundle := rfl
@[simp] theorem State.modLrl_power (s : State) (f : LarricSt → LarricSt) : (s.modLrl f).power = s.power := rfl
@[simp] theorem State.modLrl_time (s : State) (f : LarricSt → LarricSt) : (s.modLrl f).time = s.time := rfl
@[simp] theorem State.modLrl_ecc (s : State) (f : LarricSt → LarricSt) : (s.modLrl f).ecc = s.ecc := rfl
@[simp] theorem State.modLrl_fltLog (s : State) (f : LarricSt → LarricSt) : (s.modLrl f).fltLog = s.fltLog := rfl
@[simp] theorem State.modLrl_memLog (s : State) (f : LarricSt → LarricSt) : (s.modLrl f).memLog = s.memLog := rfl
@[simp] theorem State.modLrl_parts (s : State) (f : LarricSt → LarricSt) : (s.modLrl f).parts = s.parts := rfl
@[simp] theorem State.modLrl_pages (s : State) (f : LarricSt → LarricSt) : (s.modLrl f).pages = s.pages := rfl
@[simp] theorem State.modLrl_walks (s : State) (f : LarricSt → LarricSt) : (s.modLrl f).walks = s.walks := rfl
@[simp] theorem State.modLrl_ledger (s : State) (f : LarricSt → LarricSt) : (s.modLrl f).ledger = s.ledger := rfl
@[simp] theorem State.modLrl_tasks (s : State) (f : LarricSt → LarricSt) : (s.modLrl f).tasks = s.tasks := rfl
@[simp] theorem State.modLrl_taskNext (s : State) (f : LarricSt → LarricSt) : (s.modLrl f).taskNext = s.taskNext := rfl
@[simp] theorem State.modLrl_issueLast (s : State) (f : LarricSt → LarricSt) : (s.modLrl f).issueLast = s.issueLast := rfl
@[simp] theorem State.modLrl_cores (s : State) (f : LarricSt → LarricSt) : (s.modLrl f).cores = s.cores := rfl
@[simp] theorem State.modLrl_clusters (s : State) (f : LarricSt → LarricSt) : (s.modLrl f).clusters = s.clusters := rfl
@[simp] theorem State.modLrl_mcasts (s : State) (f : LarricSt → LarricSt) : (s.modLrl f).mcasts = s.mcasts := rfl
@[simp] theorem State.modLrl_endpoints (s : State) (f : LarricSt → LarricSt) : (s.modLrl f).endpoints = s.endpoints := rfl
@[simp] theorem State.modLrl_landings (s : State) (f : LarricSt → LarricSt) : (s.modLrl f).landings = s.landings := rfl
@[simp] theorem State.modLrl_churns (s : State) (f : LarricSt → LarricSt) : (s.modLrl f).churns = s.churns := rfl
@[simp] theorem State.modLrl_coach (s : State) (f : LarricSt → LarricSt) : (s.modLrl f).coach = s.coach := rfl
@[simp] theorem State.modLrl_ctl (s : State) (f : LarricSt → LarricSt) : (s.modLrl f).ctl = s.ctl := rfl
@[simp] theorem State.modLrl_service (s : State) (f : LarricSt → LarricSt) : (s.modLrl f).service = s.service := rfl
@[simp] theorem State.modLrl_mgmt (s : State) (f : LarricSt → LarricSt) : (s.modLrl f).mgmt = s.mgmt := rfl
@[simp] theorem State.modLrl_bus (s : State) (f : LarricSt → LarricSt) : (s.modLrl f).bus = s.bus := rfl
@[simp] theorem State.modLrl_rd (s : State) (f : LarricSt → LarricSt) (bb : Nat) : (s.modLrl f).rd bb = s.rd bb := rfl
@[simp] theorem State.modLrl_fd (s : State) (f : LarricSt → LarricSt) (gg : RF) : (s.modLrl f).fd gg = s.fd gg := rfl
@[simp] theorem State.modLrl_part (s : State) (f : LarricSt → LarricSt) (qq : Nat) : (s.modLrl f).part qq = s.part qq := rfl
@[simp] theorem State.modLrl_core (s : State) (f : LarricSt → LarricSt) (ii : Nat) : (s.modLrl f).core ii = s.core ii := rfl
@[simp] theorem State.modLrl_cluster (s : State) (f : LarricSt → LarricSt) (ii : Nat) : (s.modLrl f).cluster ii = s.cluster ii := rfl
@[simp] theorem State.modLrl_ctlCore (s : State) (f : LarricSt → LarricSt) (ii : Nat) : (s.modLrl f).ctlCore ii = s.ctlCore ii := rfl

/-! ### modGraph -/

@[simp] theorem State.modGraph_pending (s : State) (p tag : Nat) (f : Graph → Graph) : (s.modGraph p tag f).pending = s.pending := rfl
@[simp] theorem State.modGraph_free (s : State) (p tag : Nat) (f : Graph → Graph) : (s.modGraph p tag f).free = s.free := rfl
@[simp] theorem State.modGraph_now (s : State) (p tag : Nat) (f : Graph → Graph) : (s.modGraph p tag f).now = s.now := rfl
@[simp] theorem State.modGraph_regs (s : State) (p tag : Nat) (f : Graph → Graph) : (s.modGraph p tag f).regs = s.regs := rfl
@[simp] theorem State.modGraph_mem (s : State) (p tag : Nat) (f : Graph → Graph) : (s.modGraph p tag f).mem = s.mem := rfl
@[simp] theorem State.modGraph_hostMem (s : State) (p tag : Nat) (f : Graph → Graph) : (s.modGraph p tag f).hostMem = s.hostMem := rfl
@[simp] theorem State.modGraph_fuses (s : State) (p tag : Nat) (f : Graph → Graph) : (s.modGraph p tag f).fuses = s.fuses := rfl
@[simp] theorem State.modGraph_latched (s : State) (p tag : Nat) (f : Graph → Graph) : (s.modGraph p tag f).latched = s.latched := rfl
@[simp] theorem State.modGraph_flash (s : State) (p tag : Nat) (f : Graph → Graph) : (s.modGraph p tag f).flash = s.flash := rfl
@[simp] theorem State.modGraph_pins (s : State) (p tag : Nat) (f : Graph → Graph) : (s.modGraph p tag f).pins = s.pins := rfl
@[simp] theorem State.modGraph_phase (s : State) (p tag : Nat) (f : Graph → Graph) : (s.modGraph p tag f).phase = s.phase := rfl
@[simp] theorem State.modGraph_warmDue (s : State) (p tag : Nat) (f : Graph → Graph) : (s.modGraph p tag f).warmDue = s.warmDue := rfl
@[simp] theorem State.modGraph_loaded (s : State) (p tag : Nat) (f : Graph → Graph) : (s.modGraph p tag f).loaded = s.loaded := rfl
@[simp] theorem State.modGraph_bundle (s : State) (p tag : Nat) (f : Graph → Graph) : (s.modGraph p tag f).bundle = s.bundle := rfl
@[simp] theorem State.modGraph_power (s : State) (p tag : Nat) (f : Graph → Graph) : (s.modGraph p tag f).power = s.power := rfl
@[simp] theorem State.modGraph_time (s : State) (p tag : Nat) (f : Graph → Graph) : (s.modGraph p tag f).time = s.time := rfl
@[simp] theorem State.modGraph_ecc (s : State) (p tag : Nat) (f : Graph → Graph) : (s.modGraph p tag f).ecc = s.ecc := rfl
@[simp] theorem State.modGraph_fltLog (s : State) (p tag : Nat) (f : Graph → Graph) : (s.modGraph p tag f).fltLog = s.fltLog := rfl
@[simp] theorem State.modGraph_memLog (s : State) (p tag : Nat) (f : Graph → Graph) : (s.modGraph p tag f).memLog = s.memLog := rfl
@[simp] theorem State.modGraph_larric (s : State) (p tag : Nat) (f : Graph → Graph) : (s.modGraph p tag f).larric = s.larric := rfl
@[simp] theorem State.modGraph_pages (s : State) (p tag : Nat) (f : Graph → Graph) : (s.modGraph p tag f).pages = s.pages := rfl
@[simp] theorem State.modGraph_walks (s : State) (p tag : Nat) (f : Graph → Graph) : (s.modGraph p tag f).walks = s.walks := rfl
@[simp] theorem State.modGraph_ledger (s : State) (p tag : Nat) (f : Graph → Graph) : (s.modGraph p tag f).ledger = s.ledger := rfl
@[simp] theorem State.modGraph_tasks (s : State) (p tag : Nat) (f : Graph → Graph) : (s.modGraph p tag f).tasks = s.tasks := rfl
@[simp] theorem State.modGraph_taskNext (s : State) (p tag : Nat) (f : Graph → Graph) : (s.modGraph p tag f).taskNext = s.taskNext := rfl
@[simp] theorem State.modGraph_issueLast (s : State) (p tag : Nat) (f : Graph → Graph) : (s.modGraph p tag f).issueLast = s.issueLast := rfl
@[simp] theorem State.modGraph_cores (s : State) (p tag : Nat) (f : Graph → Graph) : (s.modGraph p tag f).cores = s.cores := rfl
@[simp] theorem State.modGraph_clusters (s : State) (p tag : Nat) (f : Graph → Graph) : (s.modGraph p tag f).clusters = s.clusters := rfl
@[simp] theorem State.modGraph_mcasts (s : State) (p tag : Nat) (f : Graph → Graph) : (s.modGraph p tag f).mcasts = s.mcasts := rfl
@[simp] theorem State.modGraph_endpoints (s : State) (p tag : Nat) (f : Graph → Graph) : (s.modGraph p tag f).endpoints = s.endpoints := rfl
@[simp] theorem State.modGraph_landings (s : State) (p tag : Nat) (f : Graph → Graph) : (s.modGraph p tag f).landings = s.landings := rfl
@[simp] theorem State.modGraph_churns (s : State) (p tag : Nat) (f : Graph → Graph) : (s.modGraph p tag f).churns = s.churns := rfl
@[simp] theorem State.modGraph_coach (s : State) (p tag : Nat) (f : Graph → Graph) : (s.modGraph p tag f).coach = s.coach := rfl
@[simp] theorem State.modGraph_ctl (s : State) (p tag : Nat) (f : Graph → Graph) : (s.modGraph p tag f).ctl = s.ctl := rfl
@[simp] theorem State.modGraph_service (s : State) (p tag : Nat) (f : Graph → Graph) : (s.modGraph p tag f).service = s.service := rfl
@[simp] theorem State.modGraph_mgmt (s : State) (p tag : Nat) (f : Graph → Graph) : (s.modGraph p tag f).mgmt = s.mgmt := rfl
@[simp] theorem State.modGraph_bus (s : State) (p tag : Nat) (f : Graph → Graph) : (s.modGraph p tag f).bus = s.bus := rfl
@[simp] theorem State.modGraph_rd (s : State) (p tag : Nat) (f : Graph → Graph) (bb : Nat) : (s.modGraph p tag f).rd bb = s.rd bb := rfl
@[simp] theorem State.modGraph_fd (s : State) (p tag : Nat) (f : Graph → Graph) (gg : RF) : (s.modGraph p tag f).fd gg = s.fd gg := rfl
@[simp] theorem State.modGraph_core (s : State) (p tag : Nat) (f : Graph → Graph) (ii : Nat) : (s.modGraph p tag f).core ii = s.core ii := rfl
@[simp] theorem State.modGraph_cluster (s : State) (p tag : Nat) (f : Graph → Graph) (ii : Nat) : (s.modGraph p tag f).cluster ii = s.cluster ii := rfl
@[simp] theorem State.modGraph_ctlCore (s : State) (p tag : Nat) (f : Graph → Graph) (ii : Nat) : (s.modGraph p tag f).ctlCore ii = s.ctlCore ii := rfl

/-! ### modPort -/

@[simp] theorem State.modPort_pending (s : State) (n : Nat) (f : CoachPort → CoachPort) : (s.modPort n f).pending = s.pending := rfl
@[simp] theorem State.modPort_free (s : State) (n : Nat) (f : CoachPort → CoachPort) : (s.modPort n f).free = s.free := rfl
@[simp] theorem State.modPort_now (s : State) (n : Nat) (f : CoachPort → CoachPort) : (s.modPort n f).now = s.now := rfl
@[simp] theorem State.modPort_regs (s : State) (n : Nat) (f : CoachPort → CoachPort) : (s.modPort n f).regs = s.regs := rfl
@[simp] theorem State.modPort_mem (s : State) (n : Nat) (f : CoachPort → CoachPort) : (s.modPort n f).mem = s.mem := rfl
@[simp] theorem State.modPort_hostMem (s : State) (n : Nat) (f : CoachPort → CoachPort) : (s.modPort n f).hostMem = s.hostMem := rfl
@[simp] theorem State.modPort_fuses (s : State) (n : Nat) (f : CoachPort → CoachPort) : (s.modPort n f).fuses = s.fuses := rfl
@[simp] theorem State.modPort_latched (s : State) (n : Nat) (f : CoachPort → CoachPort) : (s.modPort n f).latched = s.latched := rfl
@[simp] theorem State.modPort_flash (s : State) (n : Nat) (f : CoachPort → CoachPort) : (s.modPort n f).flash = s.flash := rfl
@[simp] theorem State.modPort_pins (s : State) (n : Nat) (f : CoachPort → CoachPort) : (s.modPort n f).pins = s.pins := rfl
@[simp] theorem State.modPort_phase (s : State) (n : Nat) (f : CoachPort → CoachPort) : (s.modPort n f).phase = s.phase := rfl
@[simp] theorem State.modPort_warmDue (s : State) (n : Nat) (f : CoachPort → CoachPort) : (s.modPort n f).warmDue = s.warmDue := rfl
@[simp] theorem State.modPort_loaded (s : State) (n : Nat) (f : CoachPort → CoachPort) : (s.modPort n f).loaded = s.loaded := rfl
@[simp] theorem State.modPort_bundle (s : State) (n : Nat) (f : CoachPort → CoachPort) : (s.modPort n f).bundle = s.bundle := rfl
@[simp] theorem State.modPort_power (s : State) (n : Nat) (f : CoachPort → CoachPort) : (s.modPort n f).power = s.power := rfl
@[simp] theorem State.modPort_time (s : State) (n : Nat) (f : CoachPort → CoachPort) : (s.modPort n f).time = s.time := rfl
@[simp] theorem State.modPort_ecc (s : State) (n : Nat) (f : CoachPort → CoachPort) : (s.modPort n f).ecc = s.ecc := rfl
@[simp] theorem State.modPort_fltLog (s : State) (n : Nat) (f : CoachPort → CoachPort) : (s.modPort n f).fltLog = s.fltLog := rfl
@[simp] theorem State.modPort_memLog (s : State) (n : Nat) (f : CoachPort → CoachPort) : (s.modPort n f).memLog = s.memLog := rfl
@[simp] theorem State.modPort_larric (s : State) (n : Nat) (f : CoachPort → CoachPort) : (s.modPort n f).larric = s.larric := rfl
@[simp] theorem State.modPort_parts (s : State) (n : Nat) (f : CoachPort → CoachPort) : (s.modPort n f).parts = s.parts := rfl
@[simp] theorem State.modPort_pages (s : State) (n : Nat) (f : CoachPort → CoachPort) : (s.modPort n f).pages = s.pages := rfl
@[simp] theorem State.modPort_walks (s : State) (n : Nat) (f : CoachPort → CoachPort) : (s.modPort n f).walks = s.walks := rfl
@[simp] theorem State.modPort_ledger (s : State) (n : Nat) (f : CoachPort → CoachPort) : (s.modPort n f).ledger = s.ledger := rfl
@[simp] theorem State.modPort_tasks (s : State) (n : Nat) (f : CoachPort → CoachPort) : (s.modPort n f).tasks = s.tasks := rfl
@[simp] theorem State.modPort_taskNext (s : State) (n : Nat) (f : CoachPort → CoachPort) : (s.modPort n f).taskNext = s.taskNext := rfl
@[simp] theorem State.modPort_issueLast (s : State) (n : Nat) (f : CoachPort → CoachPort) : (s.modPort n f).issueLast = s.issueLast := rfl
@[simp] theorem State.modPort_cores (s : State) (n : Nat) (f : CoachPort → CoachPort) : (s.modPort n f).cores = s.cores := rfl
@[simp] theorem State.modPort_clusters (s : State) (n : Nat) (f : CoachPort → CoachPort) : (s.modPort n f).clusters = s.clusters := rfl
@[simp] theorem State.modPort_mcasts (s : State) (n : Nat) (f : CoachPort → CoachPort) : (s.modPort n f).mcasts = s.mcasts := rfl
@[simp] theorem State.modPort_endpoints (s : State) (n : Nat) (f : CoachPort → CoachPort) : (s.modPort n f).endpoints = s.endpoints := rfl
@[simp] theorem State.modPort_landings (s : State) (n : Nat) (f : CoachPort → CoachPort) : (s.modPort n f).landings = s.landings := rfl
@[simp] theorem State.modPort_churns (s : State) (n : Nat) (f : CoachPort → CoachPort) : (s.modPort n f).churns = s.churns := rfl
@[simp] theorem State.modPort_ctl (s : State) (n : Nat) (f : CoachPort → CoachPort) : (s.modPort n f).ctl = s.ctl := rfl
@[simp] theorem State.modPort_service (s : State) (n : Nat) (f : CoachPort → CoachPort) : (s.modPort n f).service = s.service := rfl
@[simp] theorem State.modPort_mgmt (s : State) (n : Nat) (f : CoachPort → CoachPort) : (s.modPort n f).mgmt = s.mgmt := rfl
@[simp] theorem State.modPort_bus (s : State) (n : Nat) (f : CoachPort → CoachPort) : (s.modPort n f).bus = s.bus := rfl
@[simp] theorem State.modPort_rd (s : State) (n : Nat) (f : CoachPort → CoachPort) (bb : Nat) : (s.modPort n f).rd bb = s.rd bb := rfl
@[simp] theorem State.modPort_fd (s : State) (n : Nat) (f : CoachPort → CoachPort) (gg : RF) : (s.modPort n f).fd gg = s.fd gg := rfl
@[simp] theorem State.modPort_part (s : State) (n : Nat) (f : CoachPort → CoachPort) (qq : Nat) : (s.modPort n f).part qq = s.part qq := rfl
@[simp] theorem State.modPort_core (s : State) (n : Nat) (f : CoachPort → CoachPort) (ii : Nat) : (s.modPort n f).core ii = s.core ii := rfl
@[simp] theorem State.modPort_cluster (s : State) (n : Nat) (f : CoachPort → CoachPort) (ii : Nat) : (s.modPort n f).cluster ii = s.cluster ii := rfl
@[simp] theorem State.modPort_ctlCore (s : State) (n : Nat) (f : CoachPort → CoachPort) (ii : Nat) : (s.modPort n f).ctlCore ii = s.ctlCore ii := rfl

end Sys2Proof.Machine
end

