-- ==== Sys2Proof/Laws/Regs.lean ====
section
/-!
SUPPORT. Laws of the register file: what a field reads after a field was set.
-/
namespace Sys2Proof.Machine

/-! ### Bits -/

theorem testBit_maskW (lo w i : Nat) (h : i < 64) : (maskW lo w).getLsbD i = (decide (lo ≤ i) && decide (i < lo + w)) := by
  simp only [maskW, BitVec.getLsbD_ofNat, h, decide_true, Bool.true_and, Nat.testBit_shiftLeft, Nat.testBit_two_pow_sub_one,
    ge_iff_le]
  by_cases h1 : lo ≤ i
  · simp only [h1, decide_true, Bool.true_and, decide_eq_decide]; omega
  · simp [h1]

theorem getLsbD_setBits (x : W64) (lo w v i : Nat) (h : i < 64) :
    (setBits x lo w v).getLsbD i = if lo ≤ i ∧ i < lo + w then v.testBit (i - lo) else x.getLsbD i := by
  have hv : ((v % 2 ^ w) <<< lo).testBit i = (decide (lo ≤ i) && (decide (i - lo < w) && v.testBit (i - lo))) := by
    simp [Nat.testBit_shiftLeft, Nat.testBit_mod_two_pow]
  simp only [setBits, BitVec.getLsbD_or, BitVec.getLsbD_and, BitVec.getLsbD_not, h, decide_true, Bool.true_and,
    testBit_maskW lo w i h, BitVec.getLsbD_ofNat, hv]
  by_cases h1 : lo ≤ i
  · by_cases h2 : i < lo + w
    · have : i - lo < w := by omega
      simp [h1, h2, this]
    · have : ¬ i - lo < w := by omega
      simp [h1, h2, this]
  · simp [h1]

theorem testBit_bitsOf (x lo w i : Nat) : (bitsOf x lo w).testBit i = (decide (i < w) && x.testBit (lo + i)) := by
  simp [bitsOf, Nat.testBit_mod_two_pow, Nat.testBit_shiftRight]

/-- The field that was set. -/
theorem bitsOf_setBits_self (x : W64) {lo w : Nat} (v : Nat) (h : lo + w ≤ 64) : bitsOf (setBits x lo w v).toNat lo w = v % 2 ^ w := by
  apply Nat.eq_of_testBit_eq
  intro i
  rw [testBit_bitsOf, Nat.testBit_mod_two_pow, BitVec.testBit_toNat]
  by_cases hi : i < w
  · rw [getLsbD_setBits _ _ _ _ _ (by omega), if_pos (by omega)]
    simp
  · simp [hi]

/-- A field apart from the one that was set. -/
theorem bitsOf_setBits_apart (x : W64) {lo w lo' w' : Nat} (v : Nat) (h : lo' + w' ≤ lo ∨ lo + w ≤ lo') :
    bitsOf (setBits x lo w v).toNat lo' w' = bitsOf x.toNat lo' w' := by
  apply Nat.eq_of_testBit_eq
  intro i
  rw [testBit_bitsOf, testBit_bitsOf, BitVec.testBit_toNat, BitVec.testBit_toNat]
  by_cases hi : i < w'
  · by_cases h64 : lo' + i < 64
    · rw [getLsbD_setBits _ _ _ _ _ h64, if_neg (by omega)]
    · rw [BitVec.getLsbD_of_ge _ _ (by omega), BitVec.getLsbD_of_ge _ _ (by omega)]
  · simp [hi]

theorem bitsOf_lt (x lo w : Nat) : bitsOf x lo w < 2 ^ w := Nat.mod_lt _ (Nat.two_pow_pos w)

/-! ### Registers -/

theorem State.Inv.rising {s : State} (h : s.Inv) : Rising s.regs := h.regs.1

@[simp] theorem State.wr_inv {s : State} (h : s.Inv) (a : Nat) (v : W64) : (s.wr a v).Inv := (State.wr_keeps_any (M := 2305843009213693951) (by decide) (.refl s) a v).inv h
@[simp] theorem State.setF_inv {s : State} (h : s.Inv) (f : RF) (v : Nat) : (s.setF f v).Inv := State.wr_inv h _ _
@[simp] theorem State.raise_inv {s : State} (h : s.Inv) (f : RF) : (s.raise f).Inv := State.wr_inv h _ _
@[simp] theorem State.bump_inv {s : State} (h : s.Inv) (f : RF) (n : Nat) : (s.bump f n).Inv := by
  unfold State.bump; split
  · exact h
  · exact State.setF_inv h f _
@[simp] theorem State.incr_inv {s : State} (h : s.Inv) (f : RF) (n : Nat) : (s.incr f n).Inv := State.setF_inv h f _
@[simp] theorem State.pass_inv {s : State} (h : s.Inv) (n : Nat) : (s.pass n).Inv :=
  (State.pass_keeps (M := 2305843009213693951) (by decide) (.refl s) n).inv h
@[simp] theorem State.fltAdd_inv {s : State} (h : s.Inv) (a b c d e : Nat) (f : Bool) (g : Nat) : (s.fltAdd a b c d e f g).Inv :=
  (State.fltAdd_keeps (M := 2305843009213693951) (by decide) (.refl s) a b c d e f g).inv h

theorem State.Inv.of_eq {s t : State} (h : s.Inv) (r : t.regs = s.regs) (m : t.mem = s.mem) (q : t.hostMem = s.hostMem)
    (f : t.fltLog = s.fltLog) (l : t.memLog = s.memLog) : t.Inv :=
  ⟨r ▸ h.1, m ▸ h.2, q ▸ h.3, f ▸ h.4, l ▸ h.5⟩

@[simp] theorem State.setPart_inv {s : State} (h : s.Inv) (p : Nat) (x : Part) : (s.setPart p x).Inv := h.of_eq rfl rfl rfl rfl rfl
@[simp] theorem State.modPart_inv {s : State} (h : s.Inv) (p : Nat) (f : Part → Part) : (s.modPart p f).Inv := h.of_eq rfl rfl rfl rfl rfl
@[simp] theorem State.modCore_inv {s : State} (h : s.Inv) (c : Nat) (f : Core → Core) : (s.modCore c f).Inv := h.of_eq rfl rfl rfl rfl rfl
@[simp] theorem State.modCluster_inv {s : State} (h : s.Inv) (k : Nat) (f : Cluster → Cluster) : (s.modCluster k f).Inv := h.of_eq rfl rfl rfl rfl rfl
@[simp] theorem State.modCtl_inv {s : State} (h : s.Inv) (n : Nat) (f : CtlCore → CtlCore) : (s.modCtl n f).Inv := h.of_eq rfl rfl rfl rfl rfl
@[simp] theorem State.modTask_inv {s : State} (h : s.Inv) (t : Nat) (f : Task → Task) : (s.modTask t f).Inv := h.of_eq rfl rfl rfl rfl rfl
@[simp] theorem State.freeNext_inv {s : State} (h : s.Inv) : (s.freeNext).Inv := h.of_eq rfl rfl rfl rfl rfl
@[simp] theorem State.modSvc_inv {s : State} (h : s.Inv) (f : ServiceSt → ServiceSt) : (s.modSvc f).Inv := h.of_eq rfl rfl rfl rfl rfl
@[simp] theorem State.modMgmt_inv {s : State} (h : s.Inv) (f : MgmtSt → MgmtSt) : (s.modMgmt f).Inv := h.of_eq rfl rfl rfl rfl rfl
@[simp] theorem State.modLrl_inv {s : State} (h : s.Inv) (f : LarricSt → LarricSt) : (s.modLrl f).Inv := h.of_eq rfl rfl rfl rfl rfl
@[simp] theorem State.modGraph_inv {s : State} (h : s.Inv) (p tag : Nat) (f : Graph → Graph) : (s.modGraph p tag f).Inv := h.of_eq rfl rfl rfl rfl rfl
@[simp] theorem State.modPort_inv {s : State} (h : s.Inv) (n : Nat) (f : CoachPort → CoachPort) : (s.modPort n f).Inv := h.of_eq rfl rfl rfl rfl rfl
@[simp] theorem State.passTo_inv {s : State} (h : s.Inv) (d : Nat) : (s.passTo d).Inv := h.of_eq rfl rfl rfl rfl rfl

theorem foldl_inv {α : Type} {f : State → α → State} (l : List α) (h : ∀ s a, s.Inv → (f s a).Inv) {s : State} (i : s.Inv) :
    (l.foldl f s).Inv := by
  induction l generalizing s with
  | nil => exact i
  | cons a l ih => exact ih (h s a i)

theorem forN_inv {f : State → Nat → State} (n : Nat) (h : ∀ s a, s.Inv → (f s a).Inv) {s : State} (i : s.Inv) : (forN n f s).Inv :=
  foldl_inv _ h i

theorem State.rd_of_regs {s t : State} (h : t.regs = s.regs) (a : Nat) : t.rd a = s.rd a := by simp only [State.rd, h]

theorem State.fd_of_regs {s t : State} (h : t.regs = s.regs) (f : RF) : t.fd f = s.fd f := by simp only [State.fd, State.rd, h]

theorem State.rd_wr {s : State} (h : s.Inv) (a b : Nat) (v : W64) : (s.wr a v).rd b = if b = a then v else s.rd b :=
  find_put _ h.rising a b v

@[simp] theorem State.rd_wr_self {s : State} (h : s.Inv) (a : Nat) (v : W64) : (s.wr a v).rd a = v := by simp [State.rd_wr h]

@[simp] theorem State.rd_wr_ne {s : State} (h : s.Inv) {a b : Nat} (v : W64) (n : b ≠ a) : (s.wr a v).rd b = s.rd b := by
  simp [State.rd_wr h, n]

@[simp] theorem State.rd_setF_ne {s : State} (h : s.Inv) {f : RF} {b : Nat} (v : Nat) (n : b ≠ f.addr) : (s.setF f v).rd b = s.rd b :=
  State.rd_wr_ne h _ n

@[simp] theorem State.rd_raise_ne {s : State} (h : s.Inv) {f : RF} {b : Nat} (n : b ≠ f.addr) : (s.raise f).rd b = s.rd b :=
  State.rd_wr_ne h _ n

/-- A field that was set reads the value, modulo its width. -/
@[simp] theorem State.fd_setF_self {s : State} (h : s.Inv) (f : RF) (v : Nat) (hf : f.lo + f.w ≤ 64) : (s.setF f v).fd f = v % 2 ^ f.w := by
  simp only [State.fd, State.setF, State.rd_wr_self h]
  exact bitsOf_setBits_self _ _ hf

/-- Whether two fields share no bit. -/
def RF.apart (f g : RF) : Prop := f.addr ≠ g.addr ∨ f.lo + f.w ≤ g.lo ∨ g.lo + g.w ≤ f.lo

theorem RF.apart_addr {f g : RF} (h : f.addr ≠ g.addr) : f.apart g := .inl h

theorem RF.apart_bits {f g : RF} (h : ((f.lo + f.w).ble g.lo || (g.lo + g.w).ble f.lo) = true) : f.apart g := by
  simp only [Bool.or_eq_true] at h
  exact .inr (h.imp Nat.le_of_ble_eq_true Nat.le_of_ble_eq_true)

/-- A field apart from the one that was set is unchanged. -/
@[simp] theorem State.fd_setF_apart {s : State} (h : s.Inv) (f g : RF) (v : Nat) (hf : g.apart f) : (s.setF f v).fd g = s.fd g := by
  simp only [State.fd, State.setF, State.rd_wr h]
  split
  · rename_i e
    rcases hf with hf | hf
    · exact absurd e hf
    · rw [bitsOf_setBits_apart _ _ (by omega), e]
  · rfl

theorem State.fd_lt (s : State) (f : RF) : s.fd f < 2 ^ f.w := bitsOf_lt _ _ _

@[simp] theorem State.fd_raise_self {s : State} (h : s.Inv) (f : RF) (hf : f.lo + f.w ≤ 64) (hw : 1 ≤ f.w) : (s.raise f).fd f = 1 := by
  rw [State.raise, State.fd_setF_self h f 1 hf, Nat.mod_eq_of_lt]
  exact Nat.lt_of_lt_of_le (by decide) (Nat.pow_le_pow_right (by decide) hw)

@[simp] theorem State.fd_raise_apart {s : State} (h : s.Inv) (f g : RF) (hf : g.apart f) : (s.raise f).fd g = s.fd g :=
  State.fd_setF_apart h f g 1 hf

@[simp] theorem State.fd_bump_apart {s : State} (h : s.Inv) (f g : RF) (n : Nat) (hf : g.apart f) : (s.bump f n).fd g = s.fd g := by
  unfold State.bump; split
  · rfl
  · exact State.fd_setF_apart h f g _ hf

/-- A saturating counter after an addition. -/
@[simp] theorem State.fd_bump_self {s : State} (h : s.Inv) (f : RF) (n : Nat) (hf : f.lo + f.w ≤ 64) :
    (s.bump f n).fd f = min (s.fd f + n) (2 ^ f.w - 1) := by
  have hl := s.fd_lt f
  unfold State.bump; split
  · subst_vars; omega
  · rw [State.fd_setF_self h f _ hf, Nat.mod_eq_of_lt]
    have := Nat.two_pow_pos f.w
    omega

/-- A field of a register apart from the one that was written. -/
@[simp] theorem State.fd_wr_apart {s : State} (h : s.Inv) (a : Nat) (v : W64) (g : RF) (n : g.addr ≠ a) : (s.wr a v).fd g = s.fd g := by
  simp only [State.fd, State.rd_wr_ne h v n]

@[simp] theorem State.fd_incr_self {s : State} (h : s.Inv) (f : RF) (n : Nat) (hf : f.lo + f.w ≤ 64) :
    (s.incr f n).fd f = (s.fd f + n) % 2 ^ f.w := State.fd_setF_self h f _ hf

@[simp] theorem State.fd_incr_apart {s : State} (h : s.Inv) (f g : RF) (n : Nat) (hf : g.apart f) : (s.incr f n).fd g = s.fd g :=
  State.fd_setF_apart h f g _ hf

@[simp] theorem State.rd_incr_ne {s : State} (h : s.Inv) {f : RF} {b : Nat} (k : Nat) (n : b ≠ f.addr) : (s.incr f k).rd b = s.rd b :=
  State.rd_wr_ne h _ n

@[simp] theorem State.rd_bump_ne {s : State} (h : s.Inv) {f : RF} {b : Nat} (k : Nat) (n : b ≠ f.addr) : (s.bump f k).rd b = s.rd b := by
  unfold State.bump; split
  · rfl
  · exact State.rd_setF_ne h _ n

/-! ### Tables -/

theorem State.core_modCore (s : State) (c d : Nat) (f : Core → Core) : (s.modCore c f).core d = if d = c then f (s.core c) else s.core d :=
  find_ins _ _ _ _ _

theorem State.cluster_modCluster (s : State) (k j : Nat) (f : Cluster → Cluster) :
    (s.modCluster k f).cluster j = if j = k then f (s.cluster k) else s.cluster j := find_ins _ _ _ _ _

theorem State.ctlCore_modCtl (s : State) (n m : Nat) (f : CtlCore → CtlCore) :
    (s.modCtl n f).ctlCore m = if m = n then f (s.ctlCore n) else s.ctlCore m := find_ins _ _ _ _ _

theorem State.part_modPart (s : State) (p q : Nat) (f : Part → Part) : (s.modPart p f).part q = if q = p then f (s.part p) else s.part q :=
  State.part_setPart _ _ _ _

@[simp] theorem State.core_modCore_self (s : State) (c : Nat) (f : Core → Core) : (s.modCore c f).core c = f (s.core c) := by
  simp [State.core_modCore]

@[simp] theorem State.cluster_modCluster_self (s : State) (k : Nat) (f : Cluster → Cluster) :
    (s.modCluster k f).cluster k = f (s.cluster k) := by simp [State.cluster_modCluster]

@[simp] theorem State.ctlCore_modCtl_self (s : State) (n : Nat) (f : CtlCore → CtlCore) : (s.modCtl n f).ctlCore n = f (s.ctlCore n) := by
  simp [State.ctlCore_modCtl]

@[simp] theorem State.part_modPart_self (s : State) (p : Nat) (f : Part → Part) : (s.modPart p f).part p = f (s.part p) := by
  simp [State.part_modPart]

end Sys2Proof.Machine
end

