-- ==== Sys2Proof/Laws/Frame.lean ====
section
/-!
SUPPORT. What the relation of Laws/Keeps.lean says of one register, and the exact effect of a job fault (17_faults_reset.md R535).
-/
namespace Sys2Proof.Machine

/-- A register stands in one block. -/
theorem RegBlock.has_unique {b c : RegBlock} {a : Nat} (h : b.has a) (k : c.has a) : b = c := by
  cases b <;> cases c <;> first | rfl | (exfalso; simp only [RegBlock.has] at h k; omega)

/-- A register outside what an operation may change. -/
theorem State.Keeps.rd {M : Nat} {s t : State} (h : s.Keeps M t) (i : s.Inv) {a : Nat} {c : RegBlock} (hc : c.has a)
    (nc : M.testBit c.idx = false) (na : M.testBit Comp.anyReg.idx = false) : t.rd a = s.rd a :=
  h.regs i.regs.1 na a fun b hb hab => by
    rw [RegBlock.has_unique hab hc] at hb
    rw [nc] at hb
    cases hb

theorem State.Keeps.fd {M : Nat} {s t : State} (h : s.Keeps M t) (i : s.Inv) {f : RF} {c : RegBlock} (hc : c.has f.addr)
    (nc : M.testBit c.idx = false) (na : M.testBit Comp.anyReg.idx = false) : t.fd f = s.fd f := by
  simp only [State.fd, h.rd i hc nc na]

theorem State.Keeps.inv' {M : Nat} {s t : State} (h : s.Keeps M t) (i : s.Inv) : t.Inv := h.inv i

/-- Two FLT_PART registers of different partitions. -/
theorem FLT_PART_ne {p q : Nat} (h : p % 12 ≠ q % 12) : Rg.FLT_PART p ≠ Rg.FLT_PART q ∧ Rg.FLT_PART p ≠ Rg.FLT_PART_TIME q ∧
    Rg.FLT_PART_TIME p ≠ Rg.FLT_PART_TIME q := by
  simp only [Rg.FLT_PART, Rg.FLT_PART_TIME]; omega

theorem FLT_PART_ne_TIME (p q : Nat) : Rg.FLT_PART p ≠ Rg.FLT_PART_TIME q := by
  simp only [Rg.FLT_PART, Rg.FLT_PART_TIME]; omega

theorem State.faultStop_mask {s : State} (p cause fid : Nat) (pay : Option Bytes) :
    s.Keeps 224233148229611527 (s.faultStop p cause fid pay) := State.faultStop_keeps rfl (.refl s) p cause fid pay

theorem State.faultOne_rd {s : State} (i : s.Inv) (p cls cause detail : Nat) (pay : Option Bytes) {a : Nat} (ha :
    RegBlock.fltp.has a)
    (n1 : a ≠ Rg.FLT_PART p) (n2 : a ≠ Rg.FLT_PART_TIME p) : (s.faultOne p cls cause detail pay).rd a = s.rd a := by
  unfold State.faultOne
  extract_lets s1 fid s2 s3
  have k1 : s.Keeps 137438953472 s1 := State.noteError_keeps rfl (.refl s) p
  have i1 := k1.inv i
  have i2 : (s1.faultShown p cause fid).Inv := by unfold State.faultShown; simp (maxDischargeDepth := 40) [*]
  have k2 := State.faultStop_mask (s := s1.faultShown p cause fid) p cause fid pay
  have i3 : s2.Inv := k2.inv i2
  have k3 : s2.Keeps 140737488371712 s3 :=
    State.raise_keeps Rg.FLT_IRQ_JOB_FAULT_in (by decide) (State.fltAdd_keeps (by decide) (.refl _) _ _ _ _ _ _ _)
  have i4 : s3.Inv := k3.inv i3
  rw [State.rd_setF_ne (by simp (maxDischargeDepth := 40) [*]) _ n1, State.modPart_rd, k3.rd i3 ha (by decide) (by decide),
    k2.rd i2 ha (by decide) (by decide)]
  unfold State.faultShown
  rw [State.rd_wr_ne (by simp (maxDischargeDepth := 40) [*]) _ n2, State.rd_setF_ne (by simp (maxDischargeDepth := 40) [*]) _ n1,
      State.rd_setF_ne i1 _ n1,
    k1.rd i ha (by decide) (by decide)]

theorem State.faultOne_shown {s : State} (i : s.Inv) (p cls cause detail : Nat) (pay : Option Bytes) :
    FaultShown s (s.faultOne p cls cause detail pay) p cause := by
  unfold State.faultOne
  extract_lets s1 fid s2 s3
  have k1 : s.Keeps 137438953472 s1 := State.noteError_keeps rfl (.refl s) p
  have i1 := k1.inv i
  have i2 : (s1.faultShown p cause fid).Inv := by unfold State.faultShown; simp (maxDischargeDepth := 40) [*]
  have k2 := State.faultStop_mask (s := s1.faultShown p cause fid) p cause fid pay
  have i3 : s2.Inv := k2.inv i2
  have k3 : (s2.fltAdd cls cause p 15 (if cls = 1 then fid else 0) false detail).Keeps 140737488355328 s3 :=
    State.raise_keeps Rg.FLT_IRQ_JOB_FAULT_in (by decide) (.refl _)
  have k4 : s2.Keeps 140737488371712 s3 :=
    State.raise_keeps Rg.FLT_IRQ_JOB_FAULT_in (by decide) (State.fltAdd_keeps (by decide) (.refl _) _ _ _ _ _ _ _)
  have i4 : s3.Inv := k4.inv i3
  have j := (State.modPart_inv i4 p fun q => { q with faultAt := some s3.now, why := 1 })
  have hp : RegBlock.fltp.has (Rg.FLT_PART p) := Rg.FLT_PART_in p
  have e : s3.rd (Rg.FLT_PART p) = ((s1.setF (Rg.FLT_PART_FAULT_ID p) fid).setF (Rg.FLT_PART_CAUSE p) cause).rd (Rg.FLT_PART p) :=
      by
    rw [k4.rd i3 hp (by decide) (by decide), k2.rd i2 hp (by decide) (by decide)]
    unfold State.faultShown
    rw [State.rd_wr_ne (by simp (maxDischargeDepth := 40) [*]) _ (FLT_PART_ne_TIME p p)]
  have hid : s1.fd (Rg.FLT_PART_FAULT_ID p) = s.fd (Rg.FLT_PART_FAULT_ID p) :=
    k1.fd i (Rg.FLT_PART_FAULT_ID_in p) (by decide) (by decide)
  have hc : s3.fd (Rg.FLT_PART_CAUSE p) = cause % 256 := by
    rw [State.fd, show (Rg.FLT_PART_CAUSE p).addr = Rg.FLT_PART p from rfl, e]
    exact State.fd_setF_self (by simp (maxDischargeDepth := 40) [*]) (Rg.FLT_PART_CAUSE p) _ (Nat.le_of_ble_eq_true rfl)
  have hf : s3.fd (Rg.FLT_PART_FAULT_ID p) = fid % 2 ^ 32 := by
    rw [State.fd, show (Rg.FLT_PART_FAULT_ID p).addr = Rg.FLT_PART p from rfl, e]
    refine (State.fd_setF_apart (by simp (maxDischargeDepth := 40) [*]) (Rg.FLT_PART_CAUSE p) (Rg.FLT_PART_FAULT_ID p) _ (.inr
        (.inr (Nat.le_of_ble_eq_true rfl)))).trans ?_
    exact State.fd_setF_self i1 _ _ (Nat.le_of_ble_eq_true rfl)
  have hq : s3.fd Rg.FLT_IRQ_JOB_FAULT = 1 := by
    have i5 : (s2.fltAdd cls cause p 15 (if cls = 1 then fid else 0) false detail).Inv := by simp [i3]
    simp (disch := (first
            | decide | exact Nat.le_of_ble_eq_true rfl | exact RF.apart_bits rfl
            | (refine RF.apart_addr ?_; simp only [Rg.FLT_IRQ_JOB_FAULT, Rg.FLT_IRQ]; omega)
            | (simp only [ne_eq, Rg.FLT_IRQ_JOB_FAULT, Rg.FLT_IRQ]; omega) | simp (maxDischargeDepth := 40) [*])) [s3]
  constructor
  · simp (disch := (first
            | decide | exact Nat.le_of_ble_eq_true rfl | exact RF.apart_bits rfl
            | (refine RF.apart_addr ?_; simp only [Rg.FLT_PART_STATE, Rg.FLT_PART]; omega)
            | (simp only [ne_eq, Rg.FLT_PART_STATE, Rg.FLT_PART]; omega) | simp (maxDischargeDepth := 40) [*])) ; rfl
  · simp (disch := (first
            | decide | exact Nat.le_of_ble_eq_true rfl | exact RF.apart_bits rfl
            | (refine RF.apart_addr ?_; simp only [Rg.FLT_PART_STATE, Rg.FLT_PART]; omega)
            | (simp only [ne_eq, Rg.FLT_PART_STATE, Rg.FLT_PART]; omega) | simp (maxDischargeDepth := 40) [*])) [hc]
  · simp (disch := (first
            | decide | exact Nat.le_of_ble_eq_true rfl | exact RF.apart_bits rfl
            | (refine RF.apart_addr ?_; simp only [Rg.FLT_PART_STATE, Rg.FLT_PART]; omega)
            | (simp only [ne_eq, Rg.FLT_PART_STATE, Rg.FLT_PART]; omega) | simp (maxDischargeDepth := 40) [*])) [hf]
    simp [fid, hid]
  · simp (disch := (first
            | decide | exact Nat.le_of_ble_eq_true rfl | exact RF.apart_bits rfl
            | (refine RF.apart_addr ?_; simp only [Rg.FLT_PART_STATE, Rg.FLT_PART, Rg.FLT_IRQ_JOB_FAULT, Rg.FLT_IRQ]; omega)
            | (simp only [ne_eq, Rg.FLT_PART_STATE, Rg.FLT_PART, Rg.FLT_IRQ_JOB_FAULT, Rg.FLT_IRQ]; omega)
            | simp (maxDischargeDepth := 40) [*])) [hq]

theorem State.faultOne_inv {s : State} (i : s.Inv) (p cls cause detail : Nat) (pay : Option Bytes) :
    (s.faultOne p cls cause detail pay).Inv :=
  (State.faultOne_keeps (M := 2305843009213693951) (by decide) (.refl s) p cls cause detail pay).inv i

/-- A job fault (R535): the partition is STOPPING, its fault is shown, and FLT_IRQ.JOB_FAULT is set. -/
theorem State.jobFaultWith_shown {s : State} (i : s.Inv) {p : Nat} (hp : p < 12) (hd : s.defined p = true) (h2 : s.pstate p < 2)
    (cls cause detail : Nat) (pay : Option Bytes) : FaultShown s (s.jobFaultWith p cls cause detail pay) p cause := by
  unfold State.jobFaultWith
  rw [if_neg (by simp [hd]), if_neg (by omega)]
  have h1 := State.faultOne_shown i p cls cause detail pay
  have i1 := State.faultOne_inv i p cls cause detail pay
  extract_lets job s1
  split
  · exact h1
  · have main : ∀ (l : List Nat) (u : State), (∀ q ∈ l, q < 12) → FaultShown s u p cause → u.Inv → FaultShown s
        (l.foldl (fun s q => if q != p && s.live q && s.jobId q == job then s.faultOne q 1 stAborted 0 pay else s) u) p cause := by
      intro l
      induction l with
      | nil => intro u _ h _; exact h
      | cons q l ih =>
        intro u hl h hu
        have hq := hl q (List.mem_cons_self ..)
        simp only [List.foldl_cons]
        split
        · rename_i hc
          have hne : q ≠ p := by
            simp only [Bool.and_eq_true, bne_iff_ne, ne_eq] at hc; exact hc.1.1
          have hr : (u.faultOne q 1 stAborted 0 pay).rd (Rg.FLT_PART p) = u.rd (Rg.FLT_PART p) :=
            State.faultOne_rd hu q 1 stAborted 0 pay (Rg.FLT_PART_in p) (FLT_PART_ne (by omega)).1 (FLT_PART_ne_TIME p q)
          have hf (f : RF) (e : f.addr = Rg.FLT_PART p) : (u.faultOne q 1 stAborted 0 pay).fd f = u.fd f := by
            simp only [State.fd, e, hr]
          refine ih _ (fun x hx => hl x (List.mem_cons_of_mem _ hx)) ⟨?_, ?_, ?_, ?_⟩ (State.faultOne_inv hu ..)
          · rw [hf _ rfl]; exact h.state
          · rw [hf _ rfl]; exact h.cause
          · rw [hf _ rfl]; exact h.id
          · exact (State.faultOne_shown hu q 1 stAborted 0 pay).irq
        · exact ih u (fun x hx => hl x (List.mem_cons_of_mem _ hx)) h hu
    exact main allParts s1 (fun q hq => by simpa [allParts] using hq) h1 i1

theorem State.jobFaultAs_shown {s : State} (i : s.Inv) {p : Nat} (hp : p < 12) (hd : s.defined p = true) (h2 : s.pstate p < 2)
    (cls cause detail : Nat) : FaultShown s (s.jobFaultAs p cls cause detail) p cause :=
  State.jobFaultWith_shown i hp hd h2 cls cause detail none

/-- A partition that owns a control core is one of the twelve. -/
theorem State.ctlOwner_lt {s : State} {n p : Nat} (h : s.ctlOwner n = some p) : p < 12 := by
  have := List.mem_of_find?_eq_some h
  simpa [allParts] using this

theorem ones_getD {n x : Nat} (h : x.testBit n = true) : x ≠ 0 := by
  rintro rfl; simp at h

theorem State.cfg_defined {s : State} {p o n : Nat} (h : s.cfg p o n ≠ 0) : s.defined p = true := by
  unfold State.defined
  cases e : (s.part p).cfg with
  | some c => rfl
  | none =>
    exfalso
    apply h
    have z : ∀ n, leNat (List.replicate n 0#8) = 0 := by
      intro n
      induction n with
      | zero => rfl
      | succ n ih => simp [List.replicate_succ, leNat, ih]
    simp [State.cfg, State.cfgB, e, fieldAt, slice, z]

/-- A control core's owner is defined. -/
theorem State.ctlOwner_defined {s : State} {n p : Nat} (h : s.ctlOwner n = some p) : s.defined p = true := by
  have := List.find?_some h
  exact State.cfg_defined (o := 40) (n := 4) (fun e => by rw [e] at this; simp at this)

theorem State.jobFaultAs_inv {s : State} (i : s.Inv) (p cls cause detail : Nat) : (s.jobFaultAs p cls cause detail).Inv :=
  (State.jobFaultAs_keeps (M := 2305843009213693951) (by decide) (.refl _) p cls cause detail).inv i

/-- A watchdog's job fault (R539). -/
theorem State.wdogFault_shown {s : State} (i : s.Inv) {p : Nat} (hp : p < 12) (hd : s.defined p = true) (h2 : s.pstate p < 2)
    (cls detail : Nat) : FaultShown s (s.wdogFault p cls detail) p stAborted ∧ (s.wdogFault p cls detail).fd Rg.FLT_IRQ_WDOG = 1
        := by
  have h := State.jobFaultAs_shown i hp hd h2 cls stAborted detail
  have ij := State.jobFaultAs_inv i p cls stAborted detail
  unfold State.wdogFault
  generalize s.jobFaultAs p cls stAborted detail = u at h ij
  refine ⟨⟨?_, ?_, ?_, ?_⟩, ?_⟩
  · simp (disch := (first
            | decide | exact Nat.le_of_ble_eq_true rfl | exact RF.apart_bits rfl
            | (refine RF.apart_addr ?_; simp only [Rg.FLT_PART_STATE, Rg.FLT_PART, Rg.FLT_IRQ_WDOG, Rg.FLT_IRQ]; omega)
            | (simp only [ne_eq, Rg.FLT_PART_STATE, Rg.FLT_PART, Rg.FLT_IRQ_WDOG, Rg.FLT_IRQ]; omega)
            | simp (maxDischargeDepth := 40) [*])) [h.state]
  · simp (disch := (first
            | decide | exact Nat.le_of_ble_eq_true rfl | exact RF.apart_bits rfl
            | (refine RF.apart_addr ?_; simp only [Rg.FLT_PART_CAUSE, Rg.FLT_PART, Rg.FLT_IRQ_WDOG, Rg.FLT_IRQ]; omega)
            | (simp only [ne_eq, Rg.FLT_PART_CAUSE, Rg.FLT_PART, Rg.FLT_IRQ_WDOG, Rg.FLT_IRQ]; omega)
            | simp (maxDischargeDepth := 40) [*])) [h.cause]
  · simp (disch := (first
            | decide | exact Nat.le_of_ble_eq_true rfl | exact RF.apart_bits rfl
            | (refine RF.apart_addr ?_; simp only [Rg.FLT_PART_FAULT_ID, Rg.FLT_PART, Rg.FLT_IRQ_WDOG, Rg.FLT_IRQ]; omega)
            | (simp only [ne_eq, Rg.FLT_PART_FAULT_ID, Rg.FLT_PART, Rg.FLT_IRQ_WDOG, Rg.FLT_IRQ]; omega)
            | simp (maxDischargeDepth := 40) [*])) [h.id]
  · simp (disch := (first
            | decide | exact Nat.le_of_ble_eq_true rfl | exact RF.apart_bits rfl
            | (refine RF.apart_addr ?_; simp only [Rg.FLT_IRQ_JOB_FAULT, Rg.FLT_IRQ, Rg.FLT_IRQ_WDOG]; omega)
            | (simp only [ne_eq, Rg.FLT_IRQ_JOB_FAULT, Rg.FLT_IRQ, Rg.FLT_IRQ_WDOG]; omega) | simp (maxDischargeDepth := 40) [*]))
        [h.irq]
  · simp (disch := (first
            | decide | exact Nat.le_of_ble_eq_true rfl | exact RF.apart_bits rfl
            | (refine RF.apart_addr ?_; simp only [Rg.FLT_IRQ_JOB_FAULT, Rg.FLT_IRQ, Rg.FLT_IRQ_WDOG]; omega)
            | (simp only [ne_eq, Rg.FLT_IRQ_JOB_FAULT, Rg.FLT_IRQ, Rg.FLT_IRQ_WDOG]; omega) | simp (maxDischargeDepth := 40) [*]))
        []

/-- What the clock's advance does not change. -/
theorem FaultShown.of_pass {s t : State} {d p c : Nat} (h : FaultShown (s.passTo d) t p c) : FaultShown s t p c := ⟨h.1, h.2, h.3,
    h.4⟩

/-- The same, once the clock stands at the watchdog's time. -/
theorem State.wdogFault_at {s : State} (i : s.Inv) {p : Nat} (hp : p < 12) (hd : s.defined p = true) (h2 : s.pstate p < 2)
    (d cls detail : Nat) : FaultShown s ((s.passTo d).wdogFault p cls detail) p stAborted ∧
      ((s.passTo d).wdogFault p cls detail).fd Rg.FLT_IRQ_WDOG = 1 :=
  have h := State.wdogFault_shown (State.passTo_inv i d) hp (p := p) hd h2 cls detail
  ⟨h.1.of_pass, h.2⟩

/-- A register that no job fault names (R535). -/
theorem State.jobFaultWith_rd {s : State} (i : s.Inv) (p cls cause detail : Nat) (pay : Option Bytes) {a : Nat} (ha :
    RegBlock.fltp.has a)
    (n : ∀ q, a ≠ Rg.FLT_PART q ∧ a ≠ Rg.FLT_PART_TIME q) : (s.jobFaultWith p cls cause detail pay).rd a = s.rd a := by
  unfold State.jobFaultWith
  split
  · rfl
  split
  · exact (State.fltAdd_keeps (M := 140737488371712) (by decide) (.refl s) _ _ _ _ _ _ _).rd i ha (by decide) (by decide)
  have h1 := State.faultOne_rd i p cls cause detail pay ha (n p).1 (n p).2
  have i1 := State.faultOne_inv i p cls cause detail pay
  extract_lets job s1
  split
  · exact h1
  · have main : ∀ (l : List Nat) (u : State), u.rd a = s.rd a → u.Inv →
        (l.foldl (fun s q => if q != p && s.live q && s.jobId q == job then s.faultOne q 1 stAborted 0 pay else s) u).rd a = s.rd
            a := by
      intro l
      induction l with
      | nil => intro u h _; exact h
      | cons q l ih =>
        intro u h hu
        simp only [List.foldl_cons]
        split
        · exact ih _ ((State.faultOne_rd hu q 1 stAborted 0 pay ha (n q).1 (n q).2).trans h) (State.faultOne_inv hu ..)
        · exact ih u h hu
    exact main allParts s1 h1 i1

end Sys2Proof.Machine
end

