-- ==== Sys2Proof/Laws/EffReset.lean ====
section
/-!
SUPPORT. What the reset commands do (17_faults_reset.md R535 to R544).
-/
namespace Sys2Proof.Machine

theorem State.holdReset_held {s u : State} (hf : u.fuses = s.fuses) (hl : u.flash = s.flash) {last : Nat} (h : last < 16) :
    HeldReset last s (u.holdReset last) := by
  have i : u.coldState.regs = [] := rfl
  have c : Canon regReset u.coldState.regs := by rw [i]; exact ⟨.nil, fun _ h => nomatch h⟩
  have r (a : Nat) : u.coldState.rd a = regReset a := by simp only [State.rd, i, find]
  refine ⟨rfl, ?_, ?_, rfl, rfl, rfl, rfl, hf, hl⟩
  · show bitsOf (find regReset (put regReset u.coldState.regs _ _) _).toNat _ _ = last
    rw [find_put _ c.1, if_pos rfl, bitsOf_setBits_self _ _ (by decide)]
    exact Nat.mod_eq_of_lt h
  · intro a n
    show find regReset (put regReset u.coldState.regs _ _) a = _
    rw [find_put _ c.1]
    exact (if_neg n).trans (r a)

theorem HeldReset.pins {last : Nat} {s t : State} (h : HeldReset last s t) {x : Pins} (a : x.modAlive = false) :
    HeldReset last s { t with pins := x } := ⟨h.1, h.2, h.3, h.4, a, h.6, h.7, h.8, h.9⟩

theorem State.jobsStop_same (s : State) : s.jobsStop.fuses = s.fuses ∧ s.jobsStop.flash = s.flash :=
  have h := State.jobsStop_keeps (M := 800694037971988487) rfl (.refl s)
  ⟨h.same .fuses (by decide), h.same .flash (by decide)⟩

theorem coldReset_spec (s : State) :
    ∃ t, exec .coldReset s = .next t ∧ HeldReset 0 s t ∧ t.pins.pwrGood = false := by
  refine ⟨_, rfl, ?_, rfl⟩
  have h : HeldReset 0 s ((if s.phase = .running then s.jobsStop else s).holdReset 0) := by
    split
    · exact State.holdReset_held s.jobsStop_same.1 s.jobsStop_same.2 (by decide)
    · exact State.holdReset_held rfl rfl (by decide)
  exact h.pins h.5

theorem moduleReset_spec (s : State) (ns : Nat) (hn : 50 ≤ ns) (hp : s.phase ≠ .off) :
    ∃ t, exec (.moduleReset ns) s = .next t ∧ HeldReset 1 s t ∧ t.pins.modRstN = false := by
  refine ⟨_, rfl, ?_⟩
  unfold State.moduleReset
  rw [if_neg (by simp [hp]; omega)]
  have h : HeldReset 1 s ((if s.phase = .running then s.jobsStop else s).holdReset 1) := by
    split
    · exact State.holdReset_held s.jobsStop_same.1 s.jobsStop_same.2 (by decide)
    · exact State.holdReset_held rfl rfl (by decide)
  exact ⟨h.pins h.5, rfl⟩

theorem powerFail_spec (s : State) (mv us : Nat) (hp : s.phase ≠ .off) (h : (mv < 44000 ∧ 50 ≤ us) ∨ (58000 < mv ∧ 10 ≤ us)) :
    ∃ t, exec (.powerFail mv us) s = .next t ∧ HeldReset 2 s t ∧ t.pins.pwrGood = false ∧ t.pins.inputMv = mv := by
  refine ⟨_, rfl, ?_⟩
  unfold State.powerFail
  rw [if_pos (by simpa [hp] using h)]
  have h : HeldReset 2 s ((if s.phase = .running then s.jobsStop.pass 20000 else s).holdReset 2) := by
    split
    · exact State.holdReset_held ((State.pass_fuses ..).trans s.jobsStop_same.1) ((State.pass_flash ..).trans s.jobsStop_same.2)
          (by decide)
    · exact State.holdReset_held rfl rfl (by decide)
  exact ⟨h.pins h.5, rfl, rfl⟩

theorem powerGood_spec (s : State) (mv : Nat) (hp : s.phase = .held) (h : 46000 ≤ mv ∧ mv ≤ 56000) :
    exec (.powerGood mv) s = .next { s with pins := { s.pins with pwrGood := true, inputMv := mv } } := by
  show Host.Outcome.next _ = _
  rw [if_pos (by simp [hp, h])]

/-! ### The boot -/

theorem State.noteFwTarget_inv {s : State} (i : s.Inv) : s.noteFwTarget.Inv := State.setF_inv i _ _

theorem State.fd_noteFwTarget {s : State} (i : s.Inv) (g : RF) (h : g.apart Rg.SEC_BOOT_STATUS_FW_TARGET) :
    s.noteFwTarget.fd g = s.fd g := State.fd_setF_apart i _ _ _ h

theorem State.noteSvn_inv {s : State} (i : s.Inv) : s.noteSvn.Inv := by unfold State.noteSvn; simp (maxDischargeDepth := 40) [*]

theorem State.fd_noteSvn {s : State} (i : s.Inv) (g : RF) (h : g.addr ≠ Rg.SEC_SVN) : s.noteSvn.fd g = s.fd g := by
  unfold State.noteSvn
  extract_lets fw img
  have a (f : RF) (e : f.addr = Rg.SEC_SVN) : g.apart f := .inl (e ▸ h)
  rw [State.fd_setF_apart (by simp (maxDischargeDepth := 40) [*]) _ _ _ (a _ rfl), State.fd_setF_apart (by
      simp (maxDischargeDepth := 40) [*]) _ _ _ (a _ rfl),
    State.fd_setF_apart (by simp (maxDischargeDepth := 40) [*]) _ _ _ (a _ rfl), State.fd_setF_apart i _ _ _ (a _ rfl)]

theorem State.enterRecovery_shown {s : State} (i : s.Inv) (r : Nat) (h : r < 256) : (s.enterRecovery r).fd Rg.SEC_BOOT_STATUS_MODE
    = 1 ∧
    (s.enterRecovery r).fd Rg.SEC_BOOT_STATUS_REASON = r ∧ (s.enterRecovery r).bundle = none ∧ (s.enterRecovery r).loaded = none
        := by
  unfold State.enterRecovery
  extract_lets s1 s2
  have i1 : s1.Inv := i.of_eq rfl rfl rfl rfl rfl
  have i2 : s2.Inv := by simp only [s2]; simp (maxDischargeDepth := 40) [*]
  have i3 : ((s2.wr Rg.SEC_FW_VERSION_0 0).wr Rg.SEC_FW_VERSION_1 0).Inv := by simp (maxDischargeDepth := 40) [*]
  have k (g : RF) (h : g.apart Rg.SEC_BOOT_STATUS_FW_TARGET) (n : g.addr ≠ Rg.SEC_SVN) (n0 : g.addr ≠ Rg.SEC_FW_VERSION_0)
      (n1 : g.addr ≠ Rg.SEC_FW_VERSION_1) : ((s2.wr Rg.SEC_FW_VERSION_0 0).wr Rg.SEC_FW_VERSION_1 0).noteFwTarget.noteSvn.fd g =
          s2.fd g := by
    rw [State.fd_noteSvn (State.noteFwTarget_inv i3) _ n, State.fd_noteFwTarget i3 _ h, State.fd_wr_apart (by
        simp (maxDischargeDepth := 40) [*]) _ _ _ n1,
      State.fd_wr_apart i2 _ _ _ n0]
  refine ⟨?_, ?_, rfl, rfl⟩
  · rw [k _ (RF.apart_bits rfl) (by decide) (by decide) (by decide)]
    simp (disch := (first
            | decide | exact Nat.le_of_ble_eq_true rfl | exact RF.apart_bits rfl
            | (refine RF.apart_addr ?_; simp only [Rg.SEC_BOOT_STATUS_MODE, Rg.SEC_BOOT_STATUS, Rg.SEC_BOOT_STATUS_REASON,
              Rg.SEC_BOOT_STATUS_FW_LOADED, Rg.LRL_STATUS_MODE, Rg.LRL_STATUS]; omega)
            | (simp only [ne_eq, Rg.SEC_BOOT_STATUS_MODE, Rg.SEC_BOOT_STATUS, Rg.SEC_BOOT_STATUS_REASON,
              Rg.SEC_BOOT_STATUS_FW_LOADED, Rg.LRL_STATUS_MODE, Rg.LRL_STATUS]; omega) | simp (maxDischargeDepth := 40) [*])) [s2]
  · rw [k _ (RF.apart_bits rfl) (by decide) (by decide) (by decide)]
    simp (disch := (first
            | decide | exact Nat.le_of_ble_eq_true rfl | exact RF.apart_bits rfl
            | (refine RF.apart_addr ?_; simp only [Rg.SEC_BOOT_STATUS_MODE, Rg.SEC_BOOT_STATUS, Rg.SEC_BOOT_STATUS_REASON,
              Rg.SEC_BOOT_STATUS_FW_LOADED, Rg.LRL_STATUS_MODE, Rg.LRL_STATUS]; omega)
            | (simp only [ne_eq, Rg.SEC_BOOT_STATUS_MODE, Rg.SEC_BOOT_STATUS, Rg.SEC_BOOT_STATUS_REASON,
              Rg.SEC_BOOT_STATUS_FW_LOADED, Rg.LRL_STATUS_MODE, Rg.LRL_STATUS]; omega) | simp (maxDischargeDepth := 40) [*])) [s2]
    exact Nat.mod_eq_of_lt h

theorem State.enterRecovery_inv {s : State} (i : s.Inv) (r : Nat) : (s.enterRecovery r).Inv :=
  (State.enterRecovery_keeps (M := 2305843009213693951) (by decide) (.refl s) r).inv i

theorem State.sense_mask (s : State) : s.Keeps 4294967296 s.sense := State.sense_keeps rfl (.refl s)

theorem State.boot_booted {s : State} (i : s.Inv) (b : BootIn) : Booted b s (s.boot b) := by
  unfold State.boot
  generalize hu : ({ s with latched := s.fuses.map, phase := .running, pins := { s.pins with modAlive := true, refSelN := b.refSelN } } : State) = u
  have iu : u.Inv := by subst hu; exact i.of_eq rfl rfl rfl rfl rfl
  have hk : u.Keeps 76561165757081090 (u.bootStages b) := State.bootStages_keeps rfl (.refl u) b
  refine ⟨(hk.same .phase (by decide)).trans (hu ▸ rfl), ?_, (hk.same .latched (by decide)).trans (hu ▸ rfl),
    (hk.same .fuses (by decide)).trans (hu ▸ rfl), (hk.same .time (by decide)).trans (hu ▸ rfl), ?_⟩
  · rw [hk.same .pins (by decide)]; subst hu; rfl
  · intro hr
    unfold State.bootStages
    extract_lets s1 s2 s3 s4 s5
    have h4 : s4.Inv := by
      have k2 : s2.Inv := forN_inv _ (fun v n hv => State.setF_inv hv _ _) (State.setF_inv (State.setF_inv iu _ _) _ _)
      have k3 : s3.Inv := State.setF_inv ((State.sampleRef_keeps (M := 2305843009213693951) (by decide) (.refl _) b).inv k2) _ _
      exact (State.noteDev_keeps (M := 2305843009213693951) (by decide) (.refl _)).inv (State.setF_inv k3 _ _)
    have e5 : s5 = s4.enterRecovery 1 := if_pos (by rw [hr]; rfl)
    have h5 : s5.Inv := e5 ▸ State.enterRecovery_inv h4 1
    have k := s5.sense_mask
    have r := State.enterRecovery_shown h4 1 (by decide)
    rw [← e5] at r
    exact ⟨(k.fd h5 Rg.SEC_BOOT_STATUS_MODE_in (by decide) (by decide)).trans r.1,
      (k.fd h5 Rg.SEC_BOOT_STATUS_REASON_in (by decide) (by decide)).trans r.2.1,
      (k.same .bundle (by decide)).trans r.2.2.1, (k.same .loaded (by decide)).trans r.2.2.2⟩

theorem moduleResetRelease_spec (s : State) (i : s.Inv) (b : BootIn) (hp : s.phase = .held) (hg : s.pins.pwrGood = true) :
    ∃ t, exec (.moduleResetRelease b) s = .next t ∧ Booted b s t ∧ t.pins.modRstN = true ∧ t.pins.addr = b.addr % 8 := by
  refine ⟨_, rfl, ?_⟩
  unfold State.release
  rw [if_pos (by simp [hp, hg])]
  generalize hu : ({ s with pins := { s.pins with modRstN := true, i3cMode := b.mgmtMode, addr := b.addr % 8 } } : State) = u
  have iu : u.Inv := by subst hu; exact i.of_eq rfl rfl rfl rfl rfl
  have h := State.boot_booted iu b
  have hpins : (u.boot b).pins = { u.pins with modAlive := true, refSelN := b.refSelN } :=
    (State.bootStages_keeps (M := 76561165757081090) rfl (.refl _) b).same .pins (by decide)
  refine ⟨⟨h.1, h.2, h.3.trans (hu ▸ rfl), h.4.trans (hu ▸ rfl), h.5.trans (hu ▸ rfl), h.6⟩, ?_, ?_⟩
  · rw [hpins]; subst hu; rfl
  · rw [hpins]; subst hu; rfl

theorem deviceWarmReset_spec (s : State) (i : s.Inv) (b : BootIn) (c : WarmCause) (hw : s.warmDue = some c) :
    ∃ t, exec (.deviceWarmReset b) s = .next t ∧ Booted b s t ∧ t.warmDue = none ∧ t.fd Rg.FLT_RESET_CAUSE_LAST = c.code := by
  refine ⟨_, rfl, ?_⟩
  simp only [State.warmReset, hw]
  have kw : s.Keeps 2305842983443869440 s.warmState := State.warmState_keeps rfl (.refl s)
  have iw := kw.inv i
  generalize hu : (s.warmState.setF Rg.FLT_RESET_CAUSE_LAST c.code).bump Rg.FLT_RESET_CAUSE_WARM_COUNT = u
  have iu : u.Inv := by subst hu; simp (maxDischargeDepth := 40) [*]
  have h := State.boot_booted iu b
  have hf : u.fuses = s.fuses := by
    subst hu; simp only [State.bump_fuses, State.setF_fuses]; exact kw.same .fuses (by decide)
  have ht : u.time = s.time := by
    subst hu; simp only [State.bump_time, State.setF_time]; exact kw.same .time (by decide)
  have hk : ({ u with latched := u.fuses.map, phase := .running, pins := { u.pins with modAlive := true, refSelN := b.refSelN } } : State).Keeps
      76561165757081090 (u.boot b) := State.bootStages_keeps rfl (.refl _) b
  refine ⟨⟨h.1, h.2, h.3.trans (by rw [hf]), h.4.trans hf, h.5.trans ht, h.6⟩, ?_, ?_⟩
  · refine (hk.same .warmDue (by decide)).trans ?_
    subst hu
    have n : ∀ (l : List Nat) (v : State), (l.foldl (fun s p => (s.setF (Rg.FLT_PART_STATE p) 0).setF (Rg.FLT_PART_HELD p) 0)
        v).warmDue = v.warmDue := by
      intro l
      induction l with
      | nil => intro v; rfl
      | cons p l ih => intro v; exact (ih _).trans (by simp)
    simp only [State.bump_warmDue, State.setF_warmDue]
    exact n _ _
  · refine (hk.fd (iu.of_eq rfl rfl rfl rfl rfl) Rg.FLT_RESET_CAUSE_LAST_in (by decide) (by decide)).trans ?_
    show u.fd _ = _
    subst hu
    simp (disch := (first
            | decide | exact Nat.le_of_ble_eq_true rfl | exact RF.apart_bits rfl
            | (refine RF.apart_addr ?_; simp only [Rg.FLT_RESET_CAUSE_LAST, Rg.FLT_RESET_CAUSE,
              Rg.FLT_RESET_CAUSE_WARM_COUNT]; omega)
            | (simp only [ne_eq, Rg.FLT_RESET_CAUSE_LAST, Rg.FLT_RESET_CAUSE, Rg.FLT_RESET_CAUSE_WARM_COUNT]; omega)
            | simp (maxDischargeDepth := 40) [*])) []
    cases c <;> rfl

theorem State.partReset_spec {s : State} (i : s.Inv) (p : Nat) (cells : List ArrayCell) :
    (s.partReset p cells).pstate p = 3 ∧ (s.partReset p cells).tasksOf p = [] ∧ ((s.partReset p cells).part p).graphs = [] ∧
      ((s.partReset p cells).part p).pool = [] ∧ ((s.partReset p cells).part p).resetDone = true ∧
      (∀ e ∈ (s.partReset p cells).endpoints, e.2.part ≠ p) ∧ (s.partReset p cells).mem = s.mem := by
  unfold State.partReset
  extract_lets s1 s2 s3 s4 s5 sv s6
  have k0 : ((((s.abortExports p).dropTasks p).dropChannels p)).Keeps 144115188075986944 s1 := State.freePages_keeps (by decide)
      (.refl _) p
  have k1 : s.Keeps 2305843009213693951 s1 := State.freePages_keeps (by decide) (State.dropChannels_keeps (by decide)
      (State.dropTasks_keeps (by decide) (State.abortExports_keeps (by decide) (.refl s) p) p) p) p
  have i2 : s2.Inv := (k1.inv i).of_eq rfl rfl rfl rfl rfl
  have i3 : s3.Inv := State.modPart_inv i2 _ _
  have k4 : s3.Keeps 355854740380188672 s4 := State.clearPartRegs_keeps (by decide) (State.stopCores_keeps (by decide) (.refl s3)
      p) p
  have k5 : s3.Keeps 428053071914876928 s5 :=
    keeps_foldl _ (k4.mono (by decide)) fun u x hu => State.resetCore_keeps (by decide) cells hu x
  have i5 : s5.Inv := k5.inv i3
  have i6 : (s6.resetPool p).Inv := (State.resetPool_keeps (M := 2305843009213693951) (by decide) (.refl _) p).inv (i5.of_eq rfl
      rfl rfl rfl rfl)
  have e5 (k : Part) (h : s3.part p = k) : (s5.part p).graphs = k.graphs ∧ (s5.part p).pool = k.pool ∧ (s5.part p).resetDone =
      k.resetDone := by
    have a := k5.same .graphs (by decide) p
    have b := k5.same .pool (by decide) p
    have c := k5.same .life (by decide) p
    subst h
    exact ⟨a.1, b.1, c.2.2.2.1⟩
  have e3 : s3.part p = { s2.part p with
      pool := [], fresh := 0, graphs := [], cringHold := [], cbHold := [], rqHold := [], haltAt := none, sched := [], levels := []
      ports := [], groups := [], adapters := (s2.part p).adapters.map (fun a => (a.1, { a.2 with counts := [] })), resetDone := true } := by
    simp only [s3, State.modPart, State.part_setPart, if_pos]
  have e6 : (s6.resetPool p).part p = { s5.part p with poolT := s6.cfg p 166 2 } := by
    simp only [State.resetPool, State.modPart, State.part_setPart, if_pos]; rfl
  have f := e5 _ e3
  refine ⟨?_, ?_, ?_, ?_, ?_, ?_, ?_⟩
  · exact State.fd_setF_self i6 _ _ (Nat.le_of_ble_eq_true rfl)
  · show ((s6.resetPool p).setF _ _).tasks.filter _ = []
    rw [show ((s6.resetPool p).setF (Rg.FLT_PART_STATE p) 3).tasks = s3.tasks from k5.same .tasks (by decide)]
    show (State.tasks _).filter _ = []
    simp only [s3, s2, State.modPart_tasks]
    rw [show s1.tasks = _ from k0.same .tasks (by decide)]
    simp only [State.dropChannels, State.dropTasks]
    rw [List.filter_filter, List.filter_eq_nil_iff]
    intro a _
    simp
  · rw [State.setF_part, e6]; exact f.1
  · rw [State.setF_part, e6]; exact f.2.1
  · rw [State.setF_part, e6]; exact f.2.2
  · rw [show ((s6.resetPool p).setF (Rg.FLT_PART_STATE p) 3).endpoints = s3.endpoints from k5.same .endpoints (by decide)]
    simp only [s3, s2, State.modPart_endpoints]
    rw [show s1.endpoints = _ from k0.same .endpoints (by decide)]
    simp only [State.dropChannels]
    intro e he
    simpa using (List.mem_filter.1 he).2
  · rw [show ((s6.resetPool p).setF (Rg.FLT_PART_STATE p) 3).mem = s3.mem from k5.same .mem (by decide)]
    have k1 : s.Keeps 219691289100607488 s1 :=
      State.freePages_keeps (by decide) (State.dropChannels_keeps (by decide)
        (State.dropTasks_keeps (by decide) (State.abortExports_keeps (by decide) (.refl s) p) p) p) p
    exact k1.same .mem (by decide)

theorem partitionReset_spec (s : State) (i : s.Inv) (p : Nat) (cells : List ArrayCell) (hd : s.defined p = true)
    (h : (s.pstate p = 2 ∧ (s.part p).cringHold = []) ∨ (s.pstate p = 3 ∧ (s.part p).resetDone = false)) :
    ∃ t, exec (.partitionReset p cells) s = .next t ∧ t.pstate p = 3 ∧ t.tasksOf p = [] ∧ (t.part p).graphs = [] ∧ (t.part p).pool
        = [] ∧
      (t.part p).resetDone = true ∧ (∀ e ∈ t.endpoints, e.2.part ≠ p) ∧ t.mem = s.mem := by
  refine ⟨_, rfl, ?_⟩
  unfold State.takeReset
  rw [if_pos (by simpa [hd] using h)]
  exact State.partReset_spec i p cells

theorem State.setF_pstate {s : State} (i : s.Inv) (p v : Nat) (h : v < 8) : (s.setF (Rg.FLT_PART_STATE p) v).pstate p = v :=
  (State.fd_setF_self i _ _ (Nat.le_of_ble_eq_true rfl)).trans (Nat.mod_eq_of_lt h)

theorem partitionResetComplete_spec (s : State) (i : s.Inv) (p : Nat) (hd : s.defined p = true) (h3 : s.pstate p = 3)
    (hr : (s.part p).resetDone = true) :
    ∃ t, exec (.partitionResetComplete p) s = .next t ∧ (t.part p).resetDone = false ∧ (t.part p).why = 0 ∧
      t.pstate p = b2n ((s.part p).started && !(s.part p).shut && !s.on (Rg.FLT_PART_HELD p)) := by
  refine ⟨_, rfl, ?_⟩
  unfold State.resetComplete
  rw [if_pos (by simp [hd, h3, hr])]
  extract_lets s1 s2
  have k1 : s.Keeps 83457880351170567 s1 := keeps_foldl _ (.refl s) fun u x hu => State.restartEntry_keeps rfl p hu x
  have i1 : s1.Inv := k1.inv i
  have i2 : s2.Inv := State.modPart_inv i1 _ _
  have e2 : s2.part p = { s1.part p with errStep := none, errEntries := [], why := 0, resetDone := false } := by
    simp only [s2, State.modPart, State.part_setPart, if_pos]
  have e1 := k1.same .life (by decide) p
  have eh : s2.on (Rg.FLT_PART_HELD p) = s.on (Rg.FLT_PART_HELD p) := by
    unfold State.on
    rw [show s2.fd (Rg.FLT_PART_HELD p) = s1.fd (Rg.FLT_PART_HELD p) from State.modPart_fd ..,
      k1.fd i (Rg.FLT_PART_HELD_in p) (by decide) (by decide)]
  have em : s2.mayStart p = ((s.part p).started && !(s.part p).shut && !s.on (Rg.FLT_PART_HELD p)) := by
    unfold State.mayStart; rw [eh, e2, ← e1.1, ← e1.2.1]
  rw [← em]
  split
  · rename_i hm
    have hrun : (s2.startRuntime p).pstate p = 1 := by
      unfold State.startRuntime
      extract_lets s3
      have e3 : s3.pstate p = 1 := State.setF_pstate i2 p 1 (by decide)
      split
      · exact e3
      · rename_i n hn
        refine ((State.noteRunning_keeps (M := 70368744177664) rfl (.refl _) p).fd ?_ (Rg.FLT_PART_STATE_in p) (by decide) (by
            decide)).trans e3
        exact State.modCtl_inv (State.setF_inv i2 _ _) _ _
    have kr : s2.Keeps 576531122121342976 (s2.startRuntime p) := State.startRuntime_keeps rfl (.refl _) p
    have er := kr.same .life (by decide) p
    refine ⟨er.2.2.2.1.trans (by rw [e2]), er.2.2.1.trans (by rw [e2]), ?_⟩
    rw [hrun, hm]; rfl
  · rename_i hm
    refine ⟨by rw [State.setF_part, e2], by rw [State.setF_part, e2], ?_⟩
    rw [State.setF_pstate i2 p 0 (by decide)]
    simp only [Bool.not_eq_true] at hm
    rw [hm]; rfl

/-! ### Requests, watchdogs and timeouts -/

theorem fltResetPartition_spec (s : State) (i : s.Inv) (p : Nat) (hd : s.defined p = true) (h2 : s.pstate p < 2) :
    ∃ t, exec (.fltResetPartition p) s = .next t ∧ t.pstate p = 3 ∧ (t.part p).why = 4 ∧ (t.part p).resetDone = false ∧
      t.tasks = s.tasks ∧ t.coach = s.coach := by
  refine ⟨_, rfl, ?_⟩
  unfold State.askReset State.startReset
  rw [if_pos (by simp [hd, h2])]
  refine ⟨?_, ?_, ?_, by simp, by simp⟩
  · exact State.setF_pstate (by simp (maxDischargeDepth := 40) [*]) p 3 (by decide)
  · simp [State.modPart, State.part_setPart]
  · simp [State.modPart, State.part_setPart]

theorem fltResetCore_spec (s : State) (i : s.Inv) (c : Nat) (cells : List ArrayCell) (hc : s.enabled.contains (c / 17) = true) :
    ∃ t, exec (.fltResetCore c cells) s = .next t ∧
      ((s.core c).power = 0 → (t.core c).power = (if (List.range s.var.arrays).any (fun a => !(s.latched.failing cells c
          a).isEmpty) then 4 else 0)) ∧
      ((s.core c).power ≠ 0 → t.fd Rg.FLT_RESET_CAUSE_CORE_BUSY = 1 ∧ t.core c = s.core c) := by
  refine ⟨_, rfl, ?_⟩
  unfold State.fltResetCore
  rw [if_neg (by simpa using hc)]
  constructor
  · intro h0
    rw [if_pos h0]
    unfold State.resetCore
    extract_lets base s1 arrs bad s2
    have k : s.Keeps 72198331526299648 s2 := by
      refine keeps_foldl _ ?_ fun u x hu => State.testArray_keeps (by decide) cells c hu x
      exact (keeps_mapRegs (L := 72057594037927936) (.refl s) (by decide) _ fun a v hv => if_neg fun hb => hv .core (by decide) (by
        simp only [base, Rg.CORE_STATUS, Bool.and_eq_true, decide_eq_true_eq] at hb
        simp only [RegBlock.has]; omega))
    have kz (u : State) : (u.semReset c).core c = u.core c := by
      have h := (State.semReset_keeps (M := 72057594037927936) rfl (.refl u) c).same .cores (by decide)
      simp only [State.core, show (u.semReset c).cores = u.cores from h]
    have e2 : s2.core c = s.core c := by
      simp only [State.core, show s2.cores = s.cores from k.same .cores (by decide)]
    have eb : bad = (List.range s.var.arrays).any (fun a => !(s.latched.failing cells c a).isEmpty) := by
      simp only [bad, show (s1.core c).power = 0 from h0]; rfl
    clear_value s2 bad
    rw [State.setF_core, kz, State.core_modCore_self, e2, h0, eb]
  · intro h0
    rw [if_neg h0]
    exact ⟨State.fd_raise_self i _ (by decide) (by decide), rfl⟩

theorem State.warmRequest_due {s : State} (c : WarmCause) (hp : s.phase = .running) (hw : s.warmDue = none) :
    (s.warmRequest c).warmDue = some c ∧ (s.warmRequest c).phase = .running := by
  unfold State.warmRequest
  rw [if_neg (by simp [hp, hw])]
  have k : s.Keeps 800694037971988487 s.jobsStop := State.jobsStop_keeps rfl (.refl s)
  have e : s.jobsStop.phase = s.phase := k.same .phase (by decide)
  generalize s.jobsStop = u at e
  exact ⟨rfl, (State.fltAdd_phase ..).trans (e.trans hp)⟩

theorem fltResetDeviceWarm_spec (s : State) (hp : s.phase = .running) (hw : s.warmDue = none) :
    ∃ t, exec .fltResetDeviceWarm s = .next t ∧ t.warmDue = some .fltReset ∧ t.phase = .running :=
  ⟨_, rfl, State.warmRequest_due .fltReset hp hw⟩

theorem State.jobsStop_rd {s : State} (i : s.Inv) {a : Nat} (ha : RegBlock.fltp.has a)
    (n : ∀ q, a ≠ Rg.FLT_PART q ∧ a ≠ Rg.FLT_PART_TIME q) : s.jobsStop.rd a = s.rd a := by
  unfold State.jobsStop
  have main : ∀ (l : List Nat) (u : State), u.rd a = s.rd a → u.Inv →
      (l.foldl (fun s p => if s.defined p && s.jobId p != 0 && s.pstate p < 2 then s.jobFault p stAborted else s) u).rd a = s.rd a
          := by
    intro l
    induction l with
    | nil => intro u h _; exact h
    | cons q l ih =>
      intro u h hu
      simp only [List.foldl_cons]
      split
      · exact ih _ ((State.jobFaultWith_rd hu q 1 stAborted 0 none ha n).trans h) (State.jobFaultAs_inv hu ..)
      · exact ih u h hu
  exact main allParts s rfl i

theorem ikWdogExpiry_spec (s : State) (i : s.Inv) (n : Nat) (hn : n < 2) (hp : s.phase = .running) (hb : s.bundle.isSome = true)
    (hw : s.warmDue = none) :
    ∃ t, exec (.ikWdogExpiry n) s = .next t ∧ t.warmDue = some .ikWdog ∧ t.fd Rg.FLT_IRQ_WDOG = 1 ∧
      t.fd Rg.FLT_IK_WDOG_EXPIRIES = min (s.fd Rg.FLT_IK_WDOG_EXPIRIES + 1) 65535 := by
  refine ⟨_, rfl, ?_⟩
  rw [if_pos (by simp [hp, hb, hn])]
  have i1 : (s.bump Rg.FLT_IK_WDOG_EXPIRIES).Inv := by simp (maxDischargeDepth := 40) [*]
  have h := State.warmRequest_due (s := s.bump Rg.FLT_IK_WDOG_EXPIRIES) .ikWdog (by simp [hp]) (by simp [hw])
  have i2 : ((s.bump Rg.FLT_IK_WDOG_EXPIRIES).warmRequest .ikWdog).Inv := (State.warmRequest_keeps (M := 2305843009213693951) (by
      decide) (.refl _) .ikWdog).inv i1
  refine ⟨by simpa using h.1, State.fd_raise_self i2 _ (by decide) (by decide), ?_⟩
  rw [State.fd_raise_apart i2 _ _ (RF.apart_addr (by decide))]
  have e : ((s.bump Rg.FLT_IK_WDOG_EXPIRIES).warmRequest .ikWdog).rd Rg.FLT_IK_WDOG = (s.bump Rg.FLT_IK_WDOG_EXPIRIES).rd
      Rg.FLT_IK_WDOG := by
    unfold State.warmRequest
    rw [if_neg (by simp [hp, hw])]
    have hb : RegBlock.fltp.has Rg.FLT_IK_WDOG := Rg.FLT_IK_WDOG_in
    have ij : (s.bump Rg.FLT_IK_WDOG_EXPIRIES).jobsStop.Inv := (State.jobsStop_keeps (M := 2305843009213693951) (by decide) (.refl
        _)).inv i1
    have ej := State.jobsStop_rd i1 hb fun q => by simp only [Rg.FLT_IK_WDOG, Rg.FLT_PART, Rg.FLT_PART_TIME]; omega
    generalize State.jobsStop _ = u at ij ej
    refine (State.rd_of_regs rfl _).trans (((State.fltAdd_keeps (M := 140737488371712) (by decide) (.refl u) _ _ _ _ _ _ _).rd ij hb
      (by decide) (by decide)).trans ej)
  show bitsOf (State.rd _ Rg.FLT_IK_WDOG).toNat _ _ = _
  rw [e]
  exact State.fd_bump_self i _ _ (by decide)

theorem ccWdogExpiry_spec (s : State) (i : s.Inv) (n p : Nat) (ho : s.ctlOwner n = some p) (hr : (s.ctlCore n).running = true)
    (h2 : s.pstate p < 2) :
    ∃ t, exec (.ccWdogExpiry n) s = .next t ∧ FaultShown s t p stAborted ∧ t.fd Rg.FLT_IRQ_WDOG = 1 := by
  refine ⟨_, rfl, ?_⟩
  simp only [State.ccWdog, ho, hr, if_true]
  exact State.wdogFault_at i (State.ctlOwner_lt ho) (State.ctlOwner_defined ho) h2 _ 4 n

theorem spillWaitTimeout_spec (s : State) (i : s.Inv) (p : Nat) (x : Send) (r : List Send) (hp : p < 12) (hd : s.defined p = true)
    (h2 : s.pstate p < 2) (hq : (s.sender p 33).queue = x :: r) (hx : x.full = true) (ht : x.task.isSome = true) :
    ∃ t, exec (.spillWaitTimeout p) s = .next t ∧ FaultShown s t p stAborted ∧ t.fd Rg.FLT_IRQ_WDOG = 1 := by
  refine ⟨_, rfl, ?_⟩
  simp only [State.spillTimeout, hq, hx, ht, Bool.and_self, if_true]
  exact State.wdogFault_at i hp hd h2 _ 1 0

theorem pinWaitTimeout_spec (s : State) (i : s.Inv) (t page : Nat) (w : WalkWait) (k : Task)
    (hw : s.walks.find? (fun w => w.task == t && w.page == page) = some w) (hk : s.task? t = some k) (hp : k.part < 12)
    (hd : s.defined k.part = true) (h2 : s.pstate k.part < 2) (hn : (s.page page).drops = w.drops) :
    ∃ u, exec (.pinWaitTimeout t page) s = .next u ∧ FaultShown s u k.part stAborted ∧ u.fd Rg.FLT_IRQ_WDOG = 1 := by
  refine ⟨_, rfl, ?_⟩
  simp only [State.pinTimeout, hw, hk, hn, ne_eq, not_true_eq_false, if_false]
  exact State.wdogFault_at i hp hd h2 _ 6 0

theorem State.drainFault_shown {s : State} (i : s.Inv) {p : Nat} (hp : p < 12) (hd : s.defined p = true) (h2 : s.pstate p < 2) (t
    : Nat) :
    FaultShown s (s.drainFault p t) p stAborted ∧ (s.drainFault p t).fd Rg.FLT_IRQ_WDOG = 1 := by
  exact State.wdogFault_at i hp hd h2 _ 6 0

theorem drainTimeout_halt_spec (s : State) (i : s.Inv) (p t0 : Nat) (hp : p < 12) (hd : s.defined p = true) (h2 : s.pstate p < 2)
    (ha : (s.part p).haltAt = some t0) (hh : s.on (Rg.DSP_CTRL_HALT p) = true) (hr : s.anyRunning p = true) :
    ∃ t, exec (.drainTimeout (.halt p)) s = .next t ∧ FaultShown s t p stAborted ∧ t.fd Rg.FLT_IRQ_WDOG = 1 := by
  refine ⟨_, rfl, ?_⟩
  simp only [State.drainTimeout, ha, hh, hr, Bool.and_self, if_true]
  exact State.drainFault_shown i hp hd h2 t0

theorem drainTimeout_graph_spec (s : State) (i : s.Inv) (p tag t0 : Nat) (g : Graph) (hp : p < 12) (hd : s.defined p = true)
    (h2 : s.pstate p < 2) (hg : s.graph? p tag = some g) (hu : g.unloadAt = some t0) (hr : g.running = true) :
    ∃ t, exec (.drainTimeout (.graph p tag)) s = .next t ∧ FaultShown s t p stAborted ∧ t.fd Rg.FLT_IRQ_WDOG = 1 := by
  refine ⟨_, rfl, ?_⟩
  simp only [State.drainTimeout, hg, hu, hr, if_true]
  exact State.drainFault_shown i hp hd h2 t0

theorem drainTimeout_endpoint_spec (s : State) (i : s.Inv) (h : Nat) (e : Endpoint) (he : find? s.endpoints h = some e)
    (hp : e.part < 12) (hd : s.defined e.part = true) (h2 : s.pstate e.part < 2) (hc : e.closing = true)
    (hl : s.landings.any (fun l => l.ep == h) = true) :
    ∃ t, exec (.drainTimeout (.endpoint h)) s = .next t ∧ FaultShown s t e.part stAborted ∧ t.fd Rg.FLT_IRQ_WDOG = 1 := by
  refine ⟨_, rfl, ?_⟩
  simp only [State.drainTimeout, he, hc, hl, Bool.and_self, if_true]
  exact State.drainFault_shown i hp hd h2 e.closeAt

theorem drainTimeout_core_spec (s : State) (c l : Nat) (h3 : (s.core c).power = 3) (hl : s.logCore c = some l)
    (hp : (s.partsOn l).isEmpty = false) :
    ∃ t, exec (.drainTimeout (.core c)) s = .next t ∧ (t.core c).power = 0 := by
  refine ⟨_, rfl, ?_⟩
  simp only [State.drainTimeout, h3, hl, hp, ne_eq, not_true_eq_false, if_false, Bool.false_eq_true]
  rw [State.islandOff, State.core_modCore_self]
  rfl

theorem drainTimeout_core_fault (s : State) (i : s.Inv) (c l p : Nat) (h3 : (s.core c).power = 3) (hl : s.logCore c = some l)
    (hp : s.partsOn l = [p]) (h12 : p < 12) (hd : s.defined p = true) (h2 : s.pstate p < 2) :
    ∃ t, exec (.drainTimeout (.core c)) s = .next t ∧ (t.core c).power = 0 ∧ FaultShown s t p stAborted := by
  refine ⟨_, rfl, ?_⟩
  have h := State.drainFault_shown i h12 hd h2 (s.core c).drainAt
  simp only [State.drainTimeout, h3, hl, hp, List.isEmpty_cons, List.foldl_cons, List.foldl_nil, ne_eq, not_true_eq_false, if_false,
    Bool.false_eq_true]
  have iu : (s.drainFault p (s.core c).drainAt).Inv := (State.drainFault_keeps (M := 2305843009213693951) (by decide) (.refl _) p
      (s.core c).drainAt).inv i
  generalize s.drainFault p (s.core c).drainAt = u at h iu
  refine ⟨by rw [State.islandOff, State.core_modCore_self]; rfl, ?_⟩
  have k : u.Keeps 72057594046316544 (u.islandOff c) := State.islandOff_keeps rfl (.refl u) c
  exact ⟨(k.fd iu (Rg.FLT_PART_STATE_in p) (by decide) (by decide)).trans h.1.1,
    (k.fd iu (Rg.FLT_PART_CAUSE_in p) (by decide) (by decide)).trans h.1.2,
    (k.fd iu (Rg.FLT_PART_FAULT_ID_in p) (by decide) (by decide)).trans h.1.3,
    (k.fd iu Rg.FLT_IRQ_JOB_FAULT_in (by decide) (by decide)).trans h.1.4⟩

theorem fltLogPop_spec (s : State) (e : FltEntry) (r : List FltEntry) (h : s.fltLog = e :: r) :
    exec .fltLogPop s = .next { s with fltLog := r, bus := BitVec.ofNat 64 e.h2 } := by
  show Host.Outcome.next _ = _
  simp only [State.fltLogPop, h]

theorem fltLogPop_empty (s : State) (h : s.fltLog = []) : exec .fltLogPop s = .next { s with bus := 0 } := by
  show Host.Outcome.next _ = _
  simp only [State.fltLogPop, h]

theorem memLogPop_spec (s : State) (e : MemEntry) (r : List MemEntry) (h : s.memLog = e :: r) :
    exec .memLogPop s = .next { s with memLog := r, bus := BitVec.ofNat 64 e.h1 } := by
  show Host.Outcome.next _ = _
  simp only [State.memLogPop, h]

theorem State.serving_running {s : State} (h : s.serving = true) : s.phase = .running ∧ s.warmDue = none := by
  simp only [State.serving, Bool.and_eq_true, beq_iff_eq, Option.isNone_iff_eq_none] at h
  exact ⟨h.1.1.1, h.2⟩

theorem imgActivate_spec (s : State) (hs : s.serving = true) (hb : s.on Rg.IMG_STATUS_BUSY = false)
    (hb2 : s.on Rg.SEC_RESULT_BUSY = false) :
    ∃ t, exec .imgActivate s = .next t ∧ t.warmDue = some .imgActivate ∧ t.phase = .running := by
  refine ⟨_, rfl, ?_⟩
  simp only [State.imgCmd, hs, hb, hb2, Bool.not_true, Bool.false_eq_true, if_false]
  exact State.warmRequest_due (s := s.imgDone 0) .imgActivate (State.serving_running hs).1 (State.serving_running hs).2

theorem fwActivate_spec (s : State) (hs : s.secServed = true) (hb2 : s.on Rg.SEC_RESULT_BUSY = false) :
    ∃ t, exec .fwActivate s = .next t ∧ t.warmDue = some .fwActivate ∧ t.phase = .running := by
  refine ⟨_, rfl, ?_⟩
  simp only [State.secCmd, hs, hb2, Bool.not_true, Bool.false_eq_true, if_false, Bool.false_and, Bool.or_self]
  have h : s.phase = .running ∧ s.warmDue = none := by
    simp only [State.secServed, Bool.and_eq_true, beq_iff_eq, Option.isNone_iff_eq_none] at hs
    exact ⟨hs.1.1, hs.2⟩
  exact State.warmRequest_due (s := s.secDone 0) .fwActivate h.1 h.2

theorem ctlWdogExpiry_spec (s : State) (i : s.Inv) (t : Nat) (k : Task) (hk : s.task? t = some k) (h8 : k.kind = 8)
    (h5 : k.parts.all (fun x => x.slot == 5) = true) (hp : k.part < 12) (hd : s.defined k.part = true) (h2 : s.pstate k.part < 2) :
    ∃ u, exec (.ctlWdogExpiry t) s = .next u ∧ FaultShown s u k.part stAborted ∧ u.fd Rg.FLT_IRQ_WDOG = 1 := by
  refine ⟨_, rfl, ?_⟩
  simp only [hk, h8, h5, BEq.rfl, Bool.and_self, if_true]
  exact State.wdogFault_at i hp hd h2 _ 1 0

theorem State.rankDev_passTo (s : State) (d p r : Nat) : (s.passTo d).rankDev p r = s.rankDev p r := rfl

theorem State.wdogFault_free {s : State} (i : s.Inv) {p : Nat} (hp : p < 12) (hd : s.defined p = true) (h2 : s.pstate p < 2)
    (d cls detail : Nat) : FaultShown s ((s.passTo d).freeNext.wdogFault p cls detail) p stAborted ∧
      ((s.passTo d).freeNext.wdogFault p cls detail).fd Rg.FLT_IRQ_WDOG = 1 :=
  have h := State.wdogFault_shown (State.freeNext_inv (State.passTo_inv i d)) hp (p := p) hd h2 cls detail
  ⟨⟨h.1.1, h.1.2, h.1.3, h.1.4⟩, h.2⟩

theorem State.ringFault_shown {s : State} (i : s.Inv) {p : Nat} (hp : p < 12) (hd : s.defined p = true) (h2 : s.pstate p < 2)
    (t0 rank step : Nat) : FaultShown s (s.ringFault p t0 rank step) p stAborted ∧ (s.ringFault p t0 rank step).fd Rg.FLT_IRQ_WDOG
        = 1 ∧
      (s.ringFault p t0 rank step).fd (Rg.CCH_WDOG_FIRED p) = 1 ∧
      (s.ringFault p t0 rank step).fd (Rg.CCH_WDOG_RANK p) = rank % 8192 ∧
      (s.ringFault p t0 rank step).fd (Rg.CCH_WDOG_DEV p) = s.rankDev p rank % 8192 ∧
      (s.ringFault p t0 rank step).fd (Rg.CCH_WDOG_STEP p) = step % 65536 := by
  unfold State.ringFault
  extract_lets s1 d s2
  have i1 : s1.Inv := State.passTo_inv i _
  have e : d = s.rankDev p rank := State.rankDev_passTo ..
  have h : FaultShown s s2 p stAborted ∧ s2.fd Rg.FLT_IRQ_WDOG = 1 := State.wdogFault_free i hp hd h2 _ 5 _
  have i2 : s2.Inv := State.raise_inv (State.jobFaultAs_inv (State.freeNext_inv i1) ..) _
  clear_value s2 d
  subst e
  refine ⟨⟨?_, ?_, ?_, ?_⟩, ?_, ?_, ?_, ?_, ?_⟩
  · simp (disch := (first
            | decide | exact Nat.le_of_ble_eq_true rfl | exact RF.apart_bits rfl
            | (refine RF.apart_addr ?_; simp only [Rg.FLT_PART_STATE, Rg.FLT_PART, Rg.CCH_WDOG_DEV, Rg.CCH_WDOG, Rg.CCH_WDOG_RANK,
              Rg.CCH_WDOG_STEP, Rg.CCH_WDOG_FIRED]; omega)
            | (simp only [ne_eq, Rg.FLT_PART_STATE, Rg.FLT_PART, Rg.CCH_WDOG_DEV, Rg.CCH_WDOG, Rg.CCH_WDOG_RANK, Rg.CCH_WDOG_STEP,
              Rg.CCH_WDOG_FIRED]; omega) | simp (maxDischargeDepth := 40) [*])) [h.1.state]
  · simp (disch := (first
            | decide | exact Nat.le_of_ble_eq_true rfl | exact RF.apart_bits rfl
            | (refine RF.apart_addr ?_; simp only [Rg.FLT_PART_CAUSE, Rg.FLT_PART, Rg.CCH_WDOG_DEV, Rg.CCH_WDOG, Rg.CCH_WDOG_RANK,
              Rg.CCH_WDOG_STEP, Rg.CCH_WDOG_FIRED]; omega)
            | (simp only [ne_eq, Rg.FLT_PART_CAUSE, Rg.FLT_PART, Rg.CCH_WDOG_DEV, Rg.CCH_WDOG, Rg.CCH_WDOG_RANK, Rg.CCH_WDOG_STEP,
              Rg.CCH_WDOG_FIRED]; omega) | simp (maxDischargeDepth := 40) [*])) [h.1.cause]
  · simp (disch := (first
            | decide | exact Nat.le_of_ble_eq_true rfl | exact RF.apart_bits rfl
            | (refine RF.apart_addr ?_; simp only [Rg.FLT_PART_FAULT_ID, Rg.FLT_PART, Rg.CCH_WDOG_DEV, Rg.CCH_WDOG,
              Rg.CCH_WDOG_RANK, Rg.CCH_WDOG_STEP, Rg.CCH_WDOG_FIRED]; omega)
            | (simp only [ne_eq, Rg.FLT_PART_FAULT_ID, Rg.FLT_PART, Rg.CCH_WDOG_DEV, Rg.CCH_WDOG, Rg.CCH_WDOG_RANK,
              Rg.CCH_WDOG_STEP, Rg.CCH_WDOG_FIRED]; omega) | simp (maxDischargeDepth := 40) [*])) [h.1.id]
  · simp (disch := (first
            | decide | exact Nat.le_of_ble_eq_true rfl | exact RF.apart_bits rfl
            | (refine RF.apart_addr ?_; simp only [Rg.FLT_IRQ_JOB_FAULT, Rg.FLT_IRQ, Rg.CCH_WDOG_DEV, Rg.CCH_WDOG,
              Rg.CCH_WDOG_RANK, Rg.CCH_WDOG_STEP, Rg.CCH_WDOG_FIRED]; omega)
            | (simp only [ne_eq, Rg.FLT_IRQ_JOB_FAULT, Rg.FLT_IRQ, Rg.CCH_WDOG_DEV, Rg.CCH_WDOG, Rg.CCH_WDOG_RANK,
              Rg.CCH_WDOG_STEP, Rg.CCH_WDOG_FIRED]; omega) | simp (maxDischargeDepth := 40) [*])) [h.1.irq]
  · simp (disch := (first
            | decide | exact Nat.le_of_ble_eq_true rfl | exact RF.apart_bits rfl
            | (refine RF.apart_addr ?_; simp only [Rg.FLT_IRQ_WDOG, Rg.FLT_IRQ, Rg.CCH_WDOG_DEV, Rg.CCH_WDOG, Rg.CCH_WDOG_RANK,
              Rg.CCH_WDOG_STEP, Rg.CCH_WDOG_FIRED]; omega)
            | (simp only [ne_eq, Rg.FLT_IRQ_WDOG, Rg.FLT_IRQ, Rg.CCH_WDOG_DEV, Rg.CCH_WDOG, Rg.CCH_WDOG_RANK, Rg.CCH_WDOG_STEP,
              Rg.CCH_WDOG_FIRED]; omega) | simp (maxDischargeDepth := 40) [*])) [h.2]
  · simp (disch := (first
            | decide | exact Nat.le_of_ble_eq_true rfl | exact RF.apart_bits rfl
            | (refine RF.apart_addr ?_; simp only [Rg.CCH_WDOG_FIRED, Rg.CCH_WDOG]; omega)
            | (simp only [ne_eq, Rg.CCH_WDOG_FIRED, Rg.CCH_WDOG]; omega) | simp (maxDischargeDepth := 40) [*])) []
  · simp (disch := (first
            | decide | exact Nat.le_of_ble_eq_true rfl | exact RF.apart_bits rfl
            | (refine RF.apart_addr ?_; simp only [Rg.CCH_WDOG_FIRED, Rg.CCH_WDOG, Rg.CCH_WDOG_RANK, Rg.CCH_WDOG_STEP]; omega)
            | (simp only [ne_eq, Rg.CCH_WDOG_FIRED, Rg.CCH_WDOG, Rg.CCH_WDOG_RANK, Rg.CCH_WDOG_STEP]; omega)
            | simp (maxDischargeDepth := 40) [*])) []; rfl
  · simp (disch := (first
            | decide | exact Nat.le_of_ble_eq_true rfl | exact RF.apart_bits rfl
            | (refine RF.apart_addr ?_; simp only [Rg.CCH_WDOG_FIRED, Rg.CCH_WDOG, Rg.CCH_WDOG_DEV, Rg.CCH_WDOG_RANK,
              Rg.CCH_WDOG_STEP]; omega)
            | (simp only [ne_eq, Rg.CCH_WDOG_FIRED, Rg.CCH_WDOG, Rg.CCH_WDOG_DEV, Rg.CCH_WDOG_RANK, Rg.CCH_WDOG_STEP]; omega)
            | simp (maxDischargeDepth := 40) [*])) []; rfl
  · simp (disch := (first
            | decide | exact Nat.le_of_ble_eq_true rfl | exact RF.apart_bits rfl
            | (refine RF.apart_addr ?_; simp only [Rg.CCH_WDOG_FIRED, Rg.CCH_WDOG, Rg.CCH_WDOG_STEP]; omega)
            | (simp only [ne_eq, Rg.CCH_WDOG_FIRED, Rg.CCH_WDOG, Rg.CCH_WDOG_STEP]; omega) | simp (maxDischargeDepth := 40) [*]))
        []; rfl

theorem ringWdogExpiry_xfer_spec (s : State) (i : s.Inv) (t t0 : Nat) (k k' : Task) (b : Bytes) (hk : s.task? t = some k)
    (hw : k.waitSince = some t0) (h5 : k.kind = 5) (hb : s.portTask t 5 = some (k', b)) (hr : bitOf (fieldAt b 1 1) 1 = true)
    (hp : k.part < 12) (hd : s.defined k.part = true) (h2 : s.pstate k.part < 2) :
    ∃ u, exec (.ringWdogExpiry t) s = .next u ∧ FaultShown s u k.part stAborted ∧ u.fd Rg.FLT_IRQ_WDOG = 1 ∧
      u.fd (Rg.CCH_WDOG_FIRED k.part) = 1 ∧ u.fd (Rg.CCH_WDOG_RANK k.part) = fieldAt b 40 2 % 8192 ∧
      u.fd (Rg.CCH_WDOG_DEV k.part) = s.rankDev k.part (fieldAt b 40 2) % 8192 ∧
      u.fd (Rg.CCH_WDOG_STEP k.part) = fieldAt b 42 2 % 65536 := by
  refine ⟨_, rfl, ?_⟩
  simp only [State.ringWdog, hk, hw, h5, hb, hr, if_true]
  exact State.ringFault_shown i hp hd h2 _ _ _

theorem ringWdogExpiry_coll_spec (s : State) (i : s.Inv) (t t0 r : Nat) (k k' : Task) (b : Bytes) (st : CollStep) (hk : s.task? t
    = some k)
    (hw : k.waitSince = some t0) (h6 : k.kind = 6) (hb : s.portTask t 6 = some (k', b)) (hr : s.rankOf k.part = some r)
    (hs : ((s.collOf k.part b).steps r)[k.stage]? = some st)
    (hp : k.part < 12) (hd : s.defined k.part = true) (h2 : s.pstate k.part < 2) :
    ∃ u, exec (.ringWdogExpiry t) s = .next u ∧ FaultShown s u k.part stAborted ∧ u.fd Rg.FLT_IRQ_WDOG = 1 ∧
      u.fd (Rg.CCH_WDOG_FIRED k.part) = 1 ∧ u.fd (Rg.CCH_WDOG_RANK k.part) = st.peer.getD 0 % 8192 ∧
      u.fd (Rg.CCH_WDOG_DEV k.part) = s.rankDev k.part (st.peer.getD 0) % 8192 ∧
      u.fd (Rg.CCH_WDOG_STEP k.part) = k.stage % 65536 := by
  refine ⟨_, rfl, ?_⟩
  have n : ¬ k.kind = 5 := by omega
  simp only [State.ringWdog, hk, hw, n, h6, hb, hr, hs, if_true, if_false]
  exact State.ringFault_shown i hp hd h2 _ _ _

end Sys2Proof.Machine
end

