-- ==== Sys2Proof/Laws/EffService.lean ====
section
/-!
SUPPORT. What the service unit's commands do (17_faults_reset.md R545 to R549, R555 to R557).
-/
namespace Sys2Proof.Machine

/-- What one element of a fold establishes, and every later one keeps, holds at the end. -/
theorem foldl_at {α : Type} {f : State → α → State} {J P : State → Prop} {a : α} {l : List α} (ha : a ∈ l) (hj : ∀ s b, J s → J (f
    s b))
    (hs : ∀ s, J s → P (f s a)) (hk : ∀ s b, J s → P s → P (f s b)) {s : State} (h : J s) : P (l.foldl f s) := by
  have keep : ∀ (l : List α) (s : State), J s → P s → P (l.foldl f s) := by
    intro l
    induction l with
    | nil => intro s _ hp; exact hp
    | cons b l ih => intro s hJ hp; exact ih _ (hj s b hJ) (hk s b hJ hp)
  induction l generalizing s with
  | nil => cases ha
  | cons b l ih =>
    rcases List.mem_cons.1 ha with rfl | hm
    · exact keep l _ (hj s a h) (hs s h)
    · exact ih hm (hj s b h)

/-- What every element of a fold keeps holds at the end. -/
theorem foldl_keep {α : Type} {f : State → α → State} {P : State → Prop} (l : List α) (hk : ∀ s b, P s → P (f s b)) {s : State} (h
    : P s) :
    P (l.foldl f s) := by
  induction l generalizing s with
  | nil => exact h
  | cons b l ih => exact ih (hk s b h)

theorem mem_allParts {p : Nat} (h : p < 12) : p ∈ allParts := List.mem_range.2 h

theorem State.event_regs (s : State) (a b : Nat) : (s.event a b).regs = s.regs := by
  unfold State.event
  split <;> rfl

theorem State.sense_fd (s : State) (f : RF) : s.sense.fd f = s.fd f := by
  refine State.fd_of_regs ?_ f
  unfold State.sense
  dsimp only
  split
  · rfl
  · exact State.event_regs ..

theorem State.sense_inv {s : State} (i : s.Inv) : s.sense.Inv := (State.sense_keeps (M := 2305843009213693951) (by decide) (.refl
    _)).inv i

theorem State.setMode_fd {s : State} (i : s.Inv) (m : Nat) : (s.setMode m).fd Rg.SVC_STATE_MODE = m % 8 := by
  unfold State.setMode
  rw [State.sense_fd, State.fd_setF_self i _ _ (by decide)]; rfl

theorem State.setMode_inv {s : State} (i : s.Inv) (m : Nat) : (s.setMode m).Inv := State.sense_inv (State.setF_inv i _ _)

theorem State.passTo_now (s : State) (d : Nat) : d ≤ (s.passTo d).now := by
  simp only [State.passTo, State.pass]; omega

/-- The HALT and HELD bits of a partition after a step of a fold over the partitions. -/
theorem State.dspHalt_inv {s : State} (i : s.Inv) (p v : Nat) : (s.dspHalt p v).Inv := (State.dspHalt_keeps (M :=
    2305843009213693951) (by decide) (.refl _) p v).inv i

theorem State.dspHalt_rd {s : State} (i : s.Inv) (p v : Nat) {a : Nat} (n : a ≠ Rg.DSP_CTRL p) : (s.dspHalt p v).rd a = s.rd a := by
  have h : (s.setF (Rg.DSP_CTRL_HALT p) v).rd a = s.rd a := State.rd_setF_ne i v n
  unfold State.dspHalt
  dsimp only
  split
  · exact h
  · split <;> exact h

theorem State.dspHalt_self {s : State} (i : s.Inv) (p v : Nat) : (s.dspHalt p v).fd (Rg.DSP_CTRL_HALT p) = v % 2 := by
  have h : (s.setF (Rg.DSP_CTRL_HALT p) v).fd (Rg.DSP_CTRL_HALT p) = v % 2 := State.fd_setF_self i _ v (Nat.le_of_ble_eq_true rfl)
  unfold State.dspHalt
  dsimp only
  split
  · exact h
  · split <;> exact h

theorem keyTouch_spec (s : State) (i : s.Inv) (hp : s.phase = .running) (ht : s.service.touch = none) :
    ∃ t, exec .keyTouch s = .next t ∧ t.service.touch = some s.now ∧ t.fd Rg.SVC_STATE_KEY_HELD = 1 ∧ t.fd Rg.SVC_STATE_HOLD_100MS
        = 0 := by
  refine ⟨_, rfl, ?_⟩
  unfold State.touch
  rw [if_neg (by simp [hp, ht])]
  refine ⟨by simp [State.modSvc], ?_, ?_⟩
  · simp (disch := (first
            | decide | exact Nat.le_of_ble_eq_true rfl | exact RF.apart_bits rfl
            | (refine RF.apart_addr ?_; simp only [Rg.SVC_STATE_KEY_HELD, Rg.SVC_STATE, Rg.SVC_STATE_HOLD_100MS]; omega)
            | (simp only [ne_eq, Rg.SVC_STATE_KEY_HELD, Rg.SVC_STATE, Rg.SVC_STATE_HOLD_100MS]; omega)
            | simp (maxDischargeDepth := 40) [*])) []
  · simp (disch := (first
            | decide | exact Nat.le_of_ble_eq_true rfl | exact RF.apart_bits rfl
            | (refine RF.apart_addr ?_; simp only [Rg.SVC_STATE_KEY_HELD, Rg.SVC_STATE, Rg.SVC_STATE_HOLD_100MS]; omega)
            | (simp only [ne_eq, Rg.SVC_STATE_KEY_HELD, Rg.SVC_STATE, Rg.SVC_STATE_HOLD_100MS]; omega)
            | simp (maxDischargeDepth := 40) [*])) []

theorem State.holdSegment_eq {s : State} {n t0 : Nat} (ht : s.service.touch = some t0) (hn : n < 8) :
    s.holdSegment n = ((s.passTo (1250000000 * (n + 1) + t0)).noteHold t0).modSvc fun v => { v with lit := max v.lit (n + 1) } := by
  unfold State.holdSegment
  simp only [ht, Nat.not_le.2 hn, if_false]

theorem keyHoldSegment_spec (s : State) (n t0 : Nat) (hn : n < 8) (ht : s.service.touch = some t0) :
    ∃ t, exec (.keyHoldSegment n) s = .next t ∧ t.service.lit = max s.service.lit (n + 1) ∧ t.service.touch = some t0 ∧
      1250000000 * (n + 1) + t0 ≤ t.now := by
  have key (d : Nat) (u : State) (h : u = ((s.passTo d).noteHold t0).modSvc fun v => { v with lit := max v.lit (n + 1) }) :
      u.service.lit = max s.service.lit (n + 1) ∧ u.service.touch = some t0 ∧ d ≤ u.now := by
    have e := State.passTo_now s d
    have h1 : (s.passTo d).service = s.service := rfl
    generalize s.passTo d = w at h h1 e
    subst h
    refine ⟨by simp [State.modSvc, State.noteHold, h1], by simp [State.modSvc, State.noteHold, h1, ht], ?_⟩
    simp only [State.modSvc, State.noteHold, State.setF_now]
    exact e
  exact ⟨s.holdSegment n, rfl, key _ _ (State.holdSegment_eq ht hn)⟩

theorem HALT_ne (p q : Nat) : Rg.LDG_CTRL p ≠ Rg.DSP_CTRL q ∧ Rg.FLT_PART p ≠ Rg.DSP_CTRL q ∧ Rg.FLT_PART p ≠ Rg.LDG_CTRL q := by
  simp only [Rg.LDG_CTRL, Rg.DSP_CTRL, Rg.FLT_PART]; omega

theorem State.raise_keeps_one {s : State} (i : s.Inv) (f g : RF) (hf : f.lo + f.w ≤ 64) (hw : f.w = 1) (h : s.fd g = 1) (hg : g =
    f ∨ g.apart f) :
    (s.raise f).fd g = 1 := by
  rcases hg with rfl | hg
  · exact State.fd_raise_self i _ hf (by omega)
  · rw [State.fd_raise_apart i _ _ hg, h]

theorem State.quiescePart_self {s : State} (i : s.Inv) {p : Nat} (hd : s.defined p = true) : (s.quiescePart p).heldHalted p := by
  unfold State.quiescePart
  rw [if_neg (by simp [hd])]
  extract_lets new s1
  have i1 : (s.setF (Rg.LDG_CTRL_HALT p) 1).Inv := State.setF_inv i _ _
  have i2 := State.dspHalt_inv i1 p 1
  have n := HALT_ne p p
  refine ⟨?_, ?_, ?_⟩
  · exact State.fd_raise_self i2 _ (Nat.le_of_ble_eq_true rfl) (Nat.le_of_ble_eq_true rfl)
  · refine (State.fd_raise_apart i2 (Rg.FLT_PART_HELD p) (Rg.LDG_CTRL_HALT p) (.inl n.2.2.symm)).trans ?_
    show bitsOf (State.rd _ _).toNat _ _ = _
    rw [State.dspHalt_rd i1 p 1 (a := (Rg.LDG_CTRL_HALT p).addr) n.1]
    exact State.fd_setF_self i _ _ (Nat.le_of_ble_eq_true rfl)
  · refine (State.fd_raise_apart i2 (Rg.FLT_PART_HELD p) (Rg.DSP_CTRL_HALT p) (.inl n.2.1.symm)).trans ?_
    exact State.dspHalt_self i1 p 1

theorem State.quiescePart_other {s : State} (i : s.Inv) (p q : Nat) (h : s.heldHalted p) : (s.quiescePart q).heldHalted p := by
  unfold State.quiescePart
  split
  · exact h
  · extract_lets new s1
    have i1 : (s.setF (Rg.LDG_CTRL_HALT q) 1).Inv := State.setF_inv i _ _
    have i2 := State.dspHalt_inv i1 q 1
    have n := HALT_ne p q
    have m := HALT_ne q p
    have h1 : (s.setF (Rg.LDG_CTRL_HALT q) 1).heldHalted p := by
      refine ⟨?_, ?_, ?_⟩
      · exact State.raise_keeps_one i _ _ (Nat.le_of_ble_eq_true rfl) rfl h.1 (.inr (.inl n.2.2))
      · refine State.raise_keeps_one i _ _ (Nat.le_of_ble_eq_true rfl) rfl h.2.1 ?_
        by_cases e : p % 12 = q % 12
        · left; simp only [Rg.LDG_CTRL_HALT, Rg.LDG_CTRL, e]
        · right; left; simp only [Rg.LDG_CTRL_HALT, Rg.LDG_CTRL]; omega
      · exact State.raise_keeps_one i _ _ (Nat.le_of_ble_eq_true rfl) rfl h.2.2 (.inr (.inl m.1.symm))
    have h2 : ((s.setF (Rg.LDG_CTRL_HALT q) 1).dspHalt q 1).heldHalted p := by
      refine ⟨?_, ?_, ?_⟩
      · show bitsOf (State.rd _ _).toNat _ _ = _
        rw [State.dspHalt_rd i1 q 1 (a := (Rg.FLT_PART_HELD p).addr) n.2.1]; exact h1.1
      · show bitsOf (State.rd _ _).toNat _ _ = _
        rw [State.dspHalt_rd i1 q 1 (a := (Rg.LDG_CTRL_HALT p).addr) n.1]; exact h1.2.1
      · by_cases e : p % 12 = q % 12
        · have e' : Rg.DSP_CTRL_HALT p = Rg.DSP_CTRL_HALT q := by simp only [Rg.DSP_CTRL_HALT, Rg.DSP_CTRL, e]
          rw [e']; exact State.dspHalt_self i1 q 1
        · show bitsOf (State.rd _ _).toNat _ _ = _
          rw [State.dspHalt_rd i1 q 1 (a := (Rg.DSP_CTRL_HALT p).addr) (by simp only [Rg.DSP_CTRL_HALT, Rg.DSP_CTRL]; omega)]; exact h1.2.2
    refine ⟨?_, ?_, ?_⟩
    · refine State.raise_keeps_one i2 _ _ (Nat.le_of_ble_eq_true rfl) rfl h2.1 ?_
      by_cases e : p % 12 = q % 12
      · left; simp only [Rg.FLT_PART_HELD, Rg.FLT_PART, e]
      · right; left; simp only [Rg.FLT_PART_HELD, Rg.FLT_PART]; omega
    · exact State.raise_keeps_one i2 _ _ (Nat.le_of_ble_eq_true rfl) rfl h2.2.1 (.inr (.inl m.2.2.symm))
    · exact State.raise_keeps_one i2 _ _ (Nat.le_of_ble_eq_true rfl) rfl h2.2.2 (.inr (.inl m.2.1.symm))

theorem svcQuiesce_spec (s : State) (i : s.Inv) (hp : s.phase = .running) (hm : s.fd Rg.SVC_STATE_MODE = 0) :
    ∃ t, exec .svcQuiesce s = .next t ∧ t.fd Rg.SVC_STATE_MODE = 1 ∧ t.fd Rg.SVC_IRQ_QUIESCE_REQ = 1 ∧
      t.service.quiesceAt = some s.now ∧
      ∀ p, p < 12 → s.defined p = true →
        t.fd (Rg.FLT_PART_HELD p) = 1 ∧ t.fd (Rg.LDG_CTRL_HALT p) = 1 ∧ t.fd (Rg.DSP_CTRL_HALT p) = 1 := by
  refine ⟨_, rfl, ?_⟩
  unfold State.quiesce
  rw [if_neg (by simp [hp, State.svcMode, hm])]
  extract_lets s1
  have i1 : s1.Inv := State.raise_inv (State.setMode_inv i 1) _
  have h1 : s1.fd Rg.SVC_STATE_MODE = 1 ∧ s1.fd Rg.SVC_IRQ_QUIESCE_REQ = 1 := by
    refine ⟨(State.fd_raise_apart (State.setMode_inv i 1) _ _ (RF.apart_addr (by decide))).trans (State.setMode_fd i 1), ?_⟩
    exact State.fd_raise_self (State.setMode_inv i 1) _ (by decide) (by decide)
  have k1 : s.Keeps 281479271677952 s1 := State.raise_keeps Rg.SVC_IRQ_QUIESCE_REQ_in (by decide) (State.setMode_keeps (by decide)
      (.refl s) 1)
  have d1 : ∀ p, (s1.part p).cfg = (s.part p).cfg := fun p => (k1.same .settings (by decide) p).2.1
  have n1 : s1.now = s.now := k1.same .now (by decide)
  generalize hz : s1.modSvc (fun v => { v with quiesceAt := some s1.now, haltSet := 0 }) = z
  have iz : z.Inv := by subst hz; exact State.modSvc_inv i1 _
  have dz : ∀ p, (z.part p).cfg = (s.part p).cfg := by subst hz; exact d1
  have k : z.Keeps 589971690771972096 (allParts.foldl State.quiescePart z) :=
    keeps_foldl _ (.refl z) fun u p hu => State.quiescePart_keeps (by decide) hu p
  refine ⟨?_, ?_, ?_, ?_⟩
  · rw [k.fd iz Rg.SVC_STATE_MODE_in (by decide) (by decide)]; subst hz; exact h1.1
  · rw [k.fd iz Rg.SVC_IRQ_QUIESCE_REQ_in (by decide) (by decide)]; subst hz; exact h1.2
  · refine foldl_keep (P := fun u => u.service.quiesceAt = some s.now) _ ?_ (by subst hz; rw [← n1]; rfl)
    intro u p hu
    unfold State.quiescePart
    split
    · exact hu
    · have e : (((u.setF (Rg.LDG_CTRL_HALT p) 1).dspHalt p 1).raise (Rg.FLT_PART_HELD p)).service = u.service := by
        have k : (u.setF (Rg.LDG_CTRL_HALT p) 1).Keeps 4503737066323968 _ := State.dspHalt_keeps (by decide) (.refl _) p 1
        exact (State.raise_service ..).trans ((show _ = _ from k.same .service (by decide)).trans (State.setF_service ..))
      dsimp only
      generalize ((u.setF (Rg.LDG_CTRL_HALT p) 1).dspHalt p 1).raise (Rg.FLT_PART_HELD p) = v at e ⊢
      rw [← e] at hu
      exact hu
  · intro p hp hd
    refine foldl_at (P := fun u => u.heldHalted p) (J := fun u => u.Inv ∧ ∀ p, (u.part p).cfg = (s.part p).cfg) (mem_allParts hp)
        ?_ ?_ ?_ ⟨iz, dz⟩
    · intro u b hu
      have k := State.quiescePart_keeps (M := 2305843009213693951) (by decide) (.refl _) (s := u) b
      have k' : u.Keeps 589971690771972096 _ := State.quiescePart_keeps (by decide) (.refl u) b
      exact ⟨k.inv hu.1, fun q => (k'.same .settings (by decide) q).2.1.trans (hu.2 q)⟩
    · intro u hu
      have du : u.defined p = true := by unfold State.defined at hd ⊢; rw [hu.2]; exact hd
      exact State.quiescePart_self hu.1 du
    · intro u b hu h
      exact State.quiescePart_other hu.1 p b h

theorem HELD_ne (p q : Nat) : Rg.FLT_PART p ≠ Rg.LDG_CTRL q ∧ Rg.FLT_PART p ≠ Rg.DSP_CTRL q := by
  simp only [Rg.LDG_CTRL, Rg.DSP_CTRL, Rg.FLT_PART]; omega

theorem State.startRuntime_held {s : State} (i : s.Inv) (p q : Nat) : (s.startRuntime q).fd (Rg.FLT_PART_HELD p) = s.fd
    (Rg.FLT_PART_HELD p) := by
  have h : (s.setF (Rg.FLT_PART_STATE q) 1).fd (Rg.FLT_PART_HELD p) = s.fd (Rg.FLT_PART_HELD p) :=
    State.fd_setF_apart i _ _ _ (RF.apart_bits (f := Rg.FLT_PART_HELD p) (g := Rg.FLT_PART_STATE q) rfl)
  unfold State.startRuntime
  extract_lets s1
  split
  · exact h
  · refine ((State.noteRunning_keeps (M := 70368744177664) (by decide) (.refl _) q).fd (State.modCtl_inv (State.setF_inv i _ _) _ _)
      (Rg.FLT_PART_HELD_in p) (by decide) (by decide)).trans ?_
    exact (State.fd_of_regs rfl _).trans h

theorem State.releasePart_held {s : State} (i : s.Inv) (bits p q : Nat) :
    (s.releasePart bits q).fd (Rg.FLT_PART_HELD p) = if s.defined q = true ∧ p % 12 = q % 12 then 0 else s.fd (Rg.FLT_PART_HELD p)
        := by
  unfold State.releasePart
  split
  · rename_i h; rw [if_neg (by simp at h; simp [h])]
  · rename_i hd
    extract_lets s1 s2 s3
    have i1 : s1.Inv := State.setF_inv i _ _
    have i2 : s2.Inv := by simp only [s2]; split <;> first | exact State.setF_inv i1 _ _ | exact i1
    have i3 : s3.Inv := by simp only [s3]; split <;> first | exact State.dspHalt_inv i2 _ _ | exact i2
    have e1 : s1.fd (Rg.FLT_PART_HELD p) = if p % 12 = q % 12 then 0 else s.fd (Rg.FLT_PART_HELD p) := by
      split
      · rename_i e
        have e' : Rg.FLT_PART_HELD p = Rg.FLT_PART_HELD q := by simp only [Rg.FLT_PART_HELD, Rg.FLT_PART, e]
        rw [e']; exact State.fd_setF_self i _ _ (Nat.le_of_ble_eq_true rfl)
      · rename_i e
        exact State.fd_setF_apart i _ _ _ (.inl (by simp only [Rg.FLT_PART_HELD, Rg.FLT_PART]; omega))
    have e2 : s2.fd (Rg.FLT_PART_HELD p) = s1.fd (Rg.FLT_PART_HELD p) := by
      simp only [s2]; split
      · exact State.fd_setF_apart i1 _ _ _ (.inl (HELD_ne p q).1)
      · rfl
    have e3 : s3.fd (Rg.FLT_PART_HELD p) = s2.fd (Rg.FLT_PART_HELD p) := by
      simp only [s3]; split
      · show bitsOf (State.rd _ _).toNat _ _ = _
        rw [State.dspHalt_rd i2 q 0 (a := (Rg.FLT_PART_HELD p).addr) (HELD_ne p q).2]; rfl
      · rfl
    have e : (if (s3.pstate q = 0 && s3.mayStart q) = true then s3.startRuntime q else s3).fd (Rg.FLT_PART_HELD p) = s3.fd
        (Rg.FLT_PART_HELD p) := by
      split
      · exact State.startRuntime_held i3 p q
      · rfl
    refine e.trans ?_
    rw [e3, e2, e1]
    have hd' : s.defined q = true := by simpa using hd
    simp only [hd', true_and]

theorem svcResume_spec (s : State) (i : s.Inv) (hp : s.phase = .running) (hb : s.service.bootHalt = false)
    (hm : s.fd Rg.SVC_STATE_MODE = 1 ∨ s.fd Rg.SVC_STATE_MODE = 2 ∨ s.fd Rg.SVC_STATE_MODE = 4) :
    ∃ t, exec .svcResume s = .next t ∧ t.fd Rg.SVC_STATE_MODE = 0 ∧ t.service.quiesceAt = none ∧
      ∀ p, p < 12 → s.defined p = true → t.fd (Rg.FLT_PART_HELD p) = 0 := by
  refine ⟨_, rfl, ?_⟩
  unfold State.resume
  dsimp only
  rw [if_neg (by rcases hm with h | h | h <;> simp [hp, hb, State.svcMode, h])]
  generalize s.service.haltSet = bits
  have i1 := State.setMode_inv i 0
  have h1 := State.setMode_fd i 0
  have k1 : s.Keeps 281479271677952 (s.setMode 0) := State.setMode_keeps (by decide) (.refl s) 0
  generalize hz : (s.setMode 0).modSvc (fun v => { v with quiesceAt := none, haltSet := 0 }) = z
  have iz : z.Inv := by subst hz; exact State.modSvc_inv i1 _
  have mz : z.fd Rg.SVC_STATE_MODE = 0 := by subst hz; exact h1
  have qz : z.service.quiesceAt = none := by subst hz; rfl
  have dz : ∀ p, (z.part p).cfg = (s.part p).cfg := by subst hz; exact fun p => (k1.same .settings (by decide) p).2.1
  have k : z.Keeps 590042058442407936 (allParts.foldl (State.releasePart bits) z) :=
    keeps_foldl _ (.refl z) fun u p hu => State.releasePart_keeps (by decide) bits hu p
  refine ⟨?_, ?_, ?_⟩
  · rw [k.fd iz Rg.SVC_STATE_MODE_in (by decide) (by decide)]; exact mz
  · rw [show (allParts.foldl (State.releasePart bits) z).service = z.service from k.same .service (by decide)]; exact qz
  · intro p hp hd
    refine foldl_at (P := fun u => u.fd (Rg.FLT_PART_HELD p) = 0) (J := fun u => u.Inv ∧ ∀ p, (u.part p).cfg = (s.part p).cfg)
        (mem_allParts hp)
      ?_ ?_ ?_ ⟨iz, dz⟩
    · intro u b hu
      have k' : u.Keeps 590042058442407936 _ := State.releasePart_keeps (by decide) bits (.refl u) b
      exact ⟨k'.inv hu.1, fun q => (k'.same .settings (by decide) q).2.1.trans (hu.2 q)⟩
    · intro u hu
      have du : u.defined p = true := by unfold State.defined at hd ⊢; rw [hu.2]; exact hd
      rw [State.releasePart_held hu.1, if_pos ⟨du, rfl⟩]
    · intro u b hu h
      rw [State.releasePart_held hu.1]
      split
      · rfl
      · exact h

/-! ### The force stop (R547) -/

theorem State.jobFault_mask (s : State) (p c : Nat) : s.Keeps 800694037971988487 (s.jobFault p c) := State.jobFault_keeps (by
    decide) (.refl s) p c

theorem State.faultOne_held {s : State} (i : s.Inv) (p q cls cause detail : Nat) (pay : Option Bytes) :
    (s.faultOne q cls cause detail pay).fd (Rg.FLT_PART_HELD p) = s.fd (Rg.FLT_PART_HELD p) := by
  by_cases e : p % 12 = q % 12
  · have e' : Rg.FLT_PART_HELD p = Rg.FLT_PART_HELD q := by simp only [Rg.FLT_PART_HELD, Rg.FLT_PART, e]
    rw [e']
    unfold State.faultOne
    extract_lets s1 fid s2 s3
    have k1 : s.Keeps 137438953472 s1 := State.noteError_keeps rfl (.refl s) q
    have i1 := k1.inv i
    have i2 : (s1.faultShown q cause fid).Inv := by unfold State.faultShown; simp (maxDischargeDepth := 40) [*]
    have k2 := State.faultStop_mask (s := s1.faultShown q cause fid) q cause fid pay
    have i3 : s2.Inv := k2.inv i2
    have k3 : s2.Keeps 140737488371712 s3 :=
      State.raise_keeps Rg.FLT_IRQ_JOB_FAULT_in (by decide) (State.fltAdd_keeps (by decide) (.refl _) _ _ _ _ _ _ _)
    have i4 : s3.Inv := k3.inv i3
    have b := Rg.FLT_PART_HELD_in q
    have j : s3.fd (Rg.FLT_PART_HELD q) = s.fd (Rg.FLT_PART_HELD q) := by
      refine (k3.fd i3 b (by decide) (by decide)).trans ((k2.fd i2 b (by decide) (by decide)).trans ?_)
      unfold State.faultShown
      simp (disch := (first
              | decide | exact Nat.le_of_ble_eq_true rfl | exact RF.apart_bits rfl
              | (refine RF.apart_addr ?_; simp only [Rg.FLT_PART_HELD, Rg.FLT_PART, Rg.FLT_PART_TIME]; omega)
              | (simp only [ne_eq, Rg.FLT_PART_HELD, Rg.FLT_PART, Rg.FLT_PART_TIME]; omega) | simp (maxDischargeDepth := 40) [*]))
          []
      exact k1.fd i b (by decide) (by decide)
    clear_value s3
    simp (disch := (first
            | decide | exact Nat.le_of_ble_eq_true rfl | exact RF.apart_bits rfl
            | (refine RF.apart_addr ?_; simp only [Rg.FLT_PART_HELD, Rg.FLT_PART, Rg.FLT_PART_STATE]; omega)
            | (simp only [ne_eq, Rg.FLT_PART_HELD, Rg.FLT_PART, Rg.FLT_PART_STATE]; omega) | simp (maxDischargeDepth := 40) [*]))
        [j]
  · have n := FLT_PART_ne e
    show bitsOf (State.rd _ _).toNat _ _ = _
    rw [State.faultOne_rd i q cls cause detail pay (a := (Rg.FLT_PART_HELD p).addr) (Rg.FLT_PART_HELD_in p) n.1 n.2.1]; rfl

theorem State.jobFaultWith_held {s : State} (i : s.Inv) (p q cls cause detail : Nat) (pay : Option Bytes) :
    (s.jobFaultWith q cls cause detail pay).fd (Rg.FLT_PART_HELD p) = s.fd (Rg.FLT_PART_HELD p) := by
  unfold State.jobFaultWith
  split
  · rfl
  split
  · exact (State.fltAdd_keeps (M := 140737488371712) (by decide) (.refl s) _ _ _ _ _ _ _).fd i (Rg.FLT_PART_HELD_in p) (by decide)
        (by decide)
  have h1 := State.faultOne_held i p q cls cause detail pay
  have i1 := State.faultOne_inv i q cls cause detail pay
  extract_lets job s1
  split
  · exact h1
  · refine (foldl_keep (P := fun u => u.Inv ∧ u.fd (Rg.FLT_PART_HELD p) = s.fd (Rg.FLT_PART_HELD p)) _ ?_ ⟨i1, h1⟩).2
    intro u b hu
    split
    · exact ⟨State.faultOne_inv hu.1 .., (State.faultOne_held hu.1 ..).trans hu.2⟩
    · exact hu

theorem svcForceStop_eff (s : State) (i : s.Inv) (hp : s.phase = .running) (hb : s.service.bootHalt = false) (hm : s.fd
    Rg.SVC_STATE_MODE < 3) :
    s.forceStop.fd Rg.SVC_STATE_MODE = 3 ∧ s.forceStop.fd Rg.SVC_IRQ_FORCE_STOP = 1 ∧ s.forceStop.service.quiesceAt = none ∧
      ∀ p, p < 12 → s.defined p = true → s.forceStop.fd (Rg.FLT_PART_HELD p) = 1 := by
  unfold State.forceStop
  rw [if_neg (by simp [hp, hb, State.svcMode]; exact decide_eq_false (by omega))]
  extract_lets s1 s2 s3
  have i1 : s1.Inv := State.raise_inv (State.setMode_inv i 3) _
  have i2 : s2.Inv := State.modSvc_inv i1 _
  have k1 : s.Keeps 281481419161600 s2 := State.modSvc_keeps (by decide)
    (State.raise_keeps Rg.SVC_IRQ_FORCE_STOP_in (by decide) (State.setMode_keeps (by decide) (.refl s) 3)) _
  have k3 : s2.Keeps 576460752303423488 s3 := keeps_foldl _ (.refl s2) fun u p hu => keeps_ite (State.raise_keeps
      (Rg.FLT_PART_HELD_in p) (by decide) hu) hu
  have i3 := k3.inv i2
  have k4 : s3.Keeps 800694037971988487 (allParts.foldl (fun s p => if (s.defined p && s.pstate p != 0) = true then s.jobFault p
      stAborted else s) s3) :=
    keeps_foldl _ (.refl s3) fun u p hu => keeps_ite (State.jobFault_keeps (by decide) hu p _) hu
  have m1 : s2.fd Rg.SVC_STATE_MODE = 3 ∧ s2.fd Rg.SVC_IRQ_FORCE_STOP = 1 := by
    refine ⟨?_, ?_⟩
    · exact (State.fd_raise_apart (State.setMode_inv i 3) _ _ (RF.apart_addr (by decide))).trans (State.setMode_fd i 3)
    · exact State.fd_raise_self (State.setMode_inv i 3) _ (by decide) (by decide)
  refine ⟨?_, ?_, ?_, ?_⟩
  · rw [k4.fd i3 Rg.SVC_STATE_MODE_in (by decide) (by decide), k3.fd i2 Rg.SVC_STATE_MODE_in (by decide) (by decide)]; exact m1.1
  · rw [k4.fd i3 Rg.SVC_IRQ_FORCE_STOP_in (by decide) (by decide), k3.fd i2 Rg.SVC_IRQ_FORCE_STOP_in (by decide) (by decide)]; exact m1.2
  · rw [show (State.service _) = s3.service from k4.same .service (by decide), show s3.service = s2.service from k3.same .service
        (by decide)]
    rfl
  · intro p hp hd
    refine (foldl_keep (P := fun u => u.Inv ∧ u.fd (Rg.FLT_PART_HELD p) = 1) _ ?_ ⟨i3, ?_⟩).2
    · intro u b hu
      split
      · exact ⟨State.jobFaultAs_inv hu.1 .., (State.jobFaultWith_held hu.1 ..).trans hu.2⟩
      · exact hu
    · refine foldl_at (P := fun u => u.fd (Rg.FLT_PART_HELD p) = 1) (J := fun u => u.Inv ∧ ∀ p, (u.part p).cfg = (s.part p).cfg)
          (mem_allParts hp) ?_ ?_ ?_
        ⟨i2, fun p => (k1.same .settings (by decide) p).2.1⟩
      · intro u b hu
        split
        · exact ⟨State.raise_inv hu.1 _, hu.2⟩
        · exact hu
      · intro u hu
        have du : u.defined p = true := by unfold State.defined at hd ⊢; rw [hu.2]; exact hd
        rw [if_pos du]
        exact State.fd_raise_self hu.1 _ (Nat.le_of_ble_eq_true rfl) (Nat.le_of_ble_eq_true rfl)
      · intro u b hu h
        split
        · refine State.raise_keeps_one hu.1 _ _ (Nat.le_of_ble_eq_true rfl) rfl h ?_
          by_cases e : p % 12 = b % 12
          · left; simp only [Rg.FLT_PART_HELD, Rg.FLT_PART, e]
          · right; left; simp only [Rg.FLT_PART_HELD, Rg.FLT_PART]; omega
        · exact h

theorem svcForceStop_spec (s : State) (i : s.Inv) (hp : s.phase = .running) (hb : s.service.bootHalt = false) (hm : s.fd
    Rg.SVC_STATE_MODE < 3) :
    ∃ t, exec .svcForceStop s = .next t ∧ t.fd Rg.SVC_STATE_MODE = 3 ∧ t.fd Rg.SVC_IRQ_FORCE_STOP = 1 ∧ t.service.quiesceAt = none ∧
      ∀ p, p < 12 → s.defined p = true → t.fd (Rg.FLT_PART_HELD p) = 1 := ⟨_, rfl, svcForceStop_eff s i hp hb hm⟩

/-! ### The key (R545) -/

/-- What a press of the key needs before it acts as a force stop. -/
theorem keyForceStopHold_spec (s : State) (i : s.Inv) (t0 : Nat) (ht : s.service.touch = some t0) (hf : s.service.forced = false)
    (hp : s.phase = .running) (hb : s.service.bootHalt = false) (hr : s.fd Rg.SEC_BOOT_STATUS_MODE = 0) (hm : s.fd
        Rg.SVC_STATE_MODE < 3) :
    ∃ t, exec .keyForceStopHold s = .next t ∧ t.fd Rg.SVC_STATE_MODE = 3 ∧ t.fd Rg.SVC_IRQ_FORCE_STOP = 1 ∧
      ∀ p, p < 12 → s.defined p = true → t.fd (Rg.FLT_PART_HELD p) = 1 := by
  have key (d : Nat) (u : State) (h : u = (((s.passTo d).noteHold t0).modSvc fun v => { v with forced := true })) :
      u.Inv ∧ u.phase = .running ∧ u.service.bootHalt = false ∧ u.fd Rg.SEC_BOOT_STATUS_MODE = 0 ∧ u.fd Rg.SVC_STATE_MODE < 3 ∧
        ∀ p, u.defined p = s.defined p := by
    have i1 : (s.passTo d).Inv := State.passTo_inv i d
    have e1 : (s.passTo d).phase = s.phase ∧ (s.passTo d).service = s.service ∧ (∀ f, (s.passTo d).fd f = s.fd f) ∧
        ∀ p, (s.passTo d).defined p = s.defined p := ⟨rfl, rfl, fun _ => rfl, fun _ => rfl⟩
    generalize s.passTo d = w at h i1 e1
    obtain ⟨a, b, c, e⟩ := e1
    have hw : (w.noteHold t0).Inv := State.setF_inv i1 _ _
    subst h
    refine ⟨State.modSvc_inv hw _, by simp [State.modSvc, State.noteHold, a, hp], by simp [State.modSvc, State.noteHold, b, hb],
        ?_, ?_, ?_⟩
    · rw [← hr, ← c]
      exact (State.fd_of_regs rfl _).trans (State.fd_setF_apart i1 _ _ _ (RF.apart_addr (by decide)))
    · rw [← c] at hm
      exact Nat.lt_of_le_of_lt (Nat.le_of_eq ((State.fd_of_regs rfl _).trans (State.fd_setF_apart i1 _ _ _ (RF.apart_bits rfl)))) hm
    · intro p; exact e p
  have step (d : Nat) : ((((s.passTo d).noteHold t0).modSvc fun v => { v with forced := true }).keyForce).fd Rg.SVC_STATE_MODE = 3 ∧
      ((((s.passTo d).noteHold t0).modSvc fun v => { v with forced := true }).keyForce).fd Rg.SVC_IRQ_FORCE_STOP = 1 ∧
      ∀ p, p < 12 → s.defined p = true → ((((s.passTo d).noteHold t0).modSvc fun v => { v with forced := true }).keyForce).fd (Rg.FLT_PART_HELD p) = 1 := by
    have k := key d _ rfl
    generalize (((s.passTo d).noteHold t0).modSvc fun v => { v with forced := true }) = u at k
    have e := svcForceStop_eff u k.1 k.2.1 k.2.2.1 k.2.2.2.2.1
    unfold State.keyForce
    rw [if_neg (by simp [State.on, k.2.2.2.1])]
    exact ⟨e.1, e.2.1, fun p hp hd => e.2.2.2 p hp (by rw [k.2.2.2.2.2]; exact hd)⟩
  refine ⟨s.holdForce, rfl, ?_⟩
  unfold State.holdForce
  rw [ht]
  simp only [hf, Bool.false_eq_true, if_false]
  exact step _

theorem State.modSvc_mask (s : State) (f : ServiceSt → ServiceSt) : s.Keeps 2147483648 (s.modSvc f) := State.modSvc_keeps (by
    decide) (.refl s) f

theorem State.keyLeft_facts {s : State} (i : s.Inv) (t0 : Nat) : (s.keyLeft t0).Inv ∧ (s.keyLeft t0).service.touch = none ∧
    (s.keyLeft t0).phase = s.phase ∧ (s.keyLeft t0).fd Rg.SVC_STATE_KEY_HELD = 0 ∧ (s.keyLeft t0).fd Rg.SVC_STATE_MODE = s.fd
        Rg.SVC_STATE_MODE ∧
    (s.keyLeft t0).fd Rg.SVC_STATE_IDENTIFY = s.fd Rg.SVC_STATE_IDENTIFY ∧ (s.keyLeft t0).fd Rg.SVC_CFG_LOCK_KEY = s.fd
        Rg.SVC_CFG_LOCK_KEY ∧
    (s.keyLeft t0).fd Rg.SEC_BOOT_STATUS_MODE = s.fd Rg.SEC_BOOT_STATUS_MODE := by
  unfold State.keyLeft State.noteHold
  generalize min ((s.now - t0) / 100000000) 65535 = n
  refine ⟨State.modSvc_inv (State.setF_inv (State.setF_inv i _ _) _ _) _, by simp [State.modSvc], by simp [State.modSvc], ?_, ?_,
      ?_, ?_, ?_⟩
  all_goals simp (disch := (first
          | decide | exact Nat.le_of_ble_eq_true rfl | exact RF.apart_bits rfl
          | (refine RF.apart_addr ?_; simp only [Rg.SVC_STATE_KEY_HELD, Rg.SVC_STATE, Rg.SVC_STATE_HOLD_100MS, Rg.SVC_STATE_MODE,
            Rg.SVC_STATE_IDENTIFY, Rg.SVC_CFG_LOCK_KEY, Rg.SVC_CFG, Rg.SEC_BOOT_STATUS_MODE, Rg.SEC_BOOT_STATUS]; omega)
          | (simp only [ne_eq, Rg.SVC_STATE_KEY_HELD, Rg.SVC_STATE, Rg.SVC_STATE_HOLD_100MS, Rg.SVC_STATE_MODE,
            Rg.SVC_STATE_IDENTIFY, Rg.SVC_CFG_LOCK_KEY, Rg.SVC_CFG, Rg.SEC_BOOT_STATUS_MODE, Rg.SEC_BOOT_STATUS]; omega)
          | simp (maxDischargeDepth := 40) [*])) []

theorem State.modSvc_touch {w : State} {f : ServiceSt → ServiceSt} (hf : ∀ v, (f v).touch = v.touch) (h : w.service.touch = none) :
    (w.modSvc f).service.touch = none := (hf _).trans h

theorem State.quiescePart_touch {v : State} (p : Nat) (hv : v.service.touch = none) : (v.quiescePart p).service.touch = none := by
  unfold State.quiescePart
  split
  · exact hv
  · have e : (((v.setF (Rg.LDG_CTRL_HALT p) 1).dspHalt p 1).raise (Rg.FLT_PART_HELD p)).service = v.service := by
      have k : (v.setF (Rg.LDG_CTRL_HALT p) 1).Keeps 4503737066323968 _ := State.dspHalt_keeps (by decide) (.refl _) p 1
      exact (State.raise_service ..).trans ((show _ = _ from k.same .service (by decide)).trans (State.setF_service ..))
    dsimp only
    generalize ((v.setF (Rg.LDG_CTRL_HALT p) 1).dspHalt p 1).raise (Rg.FLT_PART_HELD p) = w at e ⊢
    rw [← e] at hv
    exact State.modSvc_touch (fun _ => rfl) hv

theorem State.quiesce_touch (u : State) : u.service.touch = none → u.quiesce.service.touch = none := by
  intro h
  unfold State.quiesce
  split
  · exact h
  · extract_lets s1
    have k1 : u.Keeps 281479271677952 s1 := State.raise_keeps Rg.SVC_IRQ_QUIESCE_REQ_in (by decide) (State.setMode_keeps (by
        decide) (.refl u) 1)
    have e : s1.service = u.service := k1.same .service (by decide)
    clear_value s1
    have hw : (s1.modSvc fun v => { v with quiesceAt := some s1.now, haltSet := 0 }).service.touch = none :=
      State.modSvc_touch (fun _ => rfl) (by rw [e]; exact h)
    generalize (s1.modSvc fun v => { v with quiesceAt := some s1.now, haltSet := 0 }) = z at hw ⊢
    have g := foldl_keep (P := fun v => v.service.touch = none) (f := State.quiescePart) allParts (fun v p hv =>
        State.quiescePart_touch p hv) hw
    exact g

theorem State.resume_touch (u : State) : u.service.touch = none → u.resume.service.touch = none := by
  intro h
  unfold State.resume
  dsimp only
  split
  · exact h
  · have k1 : u.Keeps 281479271677952 (u.setMode 0) := State.setMode_keeps (by decide) (.refl u) 0
    have e : (u.setMode 0).service = u.service := k1.same .service (by decide)
    generalize u.setMode 0 = w at e
    have hw : (w.modSvc fun v => { v with quiesceAt := none, haltSet := 0 }).service.touch = none := by rw [← e] at h; exact h
    generalize (w.modSvc fun v => { v with quiesceAt := none, haltSet := 0 }) = z at hw
    have k : z.Keeps 590042058442407936 (allParts.foldl (State.releasePart u.service.haltSet) z) :=
      keeps_foldl _ (.refl z) fun v p hv => State.releasePart_keeps (by decide) _ hv p
    rw [show (allParts.foldl (State.releasePart u.service.haltSet) z).service = z.service from k.same .service (by decide)]
    exact hw

theorem keyRelease_spec (s : State) (i : s.Inv) (t0 ms : Nat) (ht : s.service.touch = some t0) (hf : s.service.forced = false)
    (hp : s.phase = .running) (hr : s.fd Rg.SEC_BOOT_STATUS_MODE = 0) (hl : s.fd Rg.SVC_CFG_LOCK_KEY = 0) (hd : (s.now - t0) /
        1000000 = ms)
    (h10 : ms < 10000) :
    ∃ t, exec .keyRelease s = .next t ∧ t.service.touch = none ∧
      (ms < 50 → t.fd Rg.SVC_STATE_IDENTIFY = s.fd Rg.SVC_STATE_IDENTIFY ∧ t.fd Rg.SVC_STATE_MODE = s.fd Rg.SVC_STATE_MODE) ∧
      (50 ≤ ms → ms < 2000 → s.fd Rg.SVC_STATE_MODE ≠ 1 → t.fd Rg.SVC_STATE_IDENTIFY = 1 - s.fd Rg.SVC_STATE_IDENTIFY) ∧
      (50 ≤ ms → ms < 2000 → s.fd Rg.SVC_STATE_MODE = 1 → s.service.bootHalt = false → t.fd Rg.SVC_STATE_MODE = 0) ∧
      (2000 ≤ ms → s.fd Rg.SVC_STATE_MODE = 0 → t.fd Rg.SVC_STATE_MODE = 1 ∧ t.fd Rg.SVC_IRQ_QUIESCE_REQ = 1) := by
  refine ⟨_, rfl, ?_⟩
  have e : s.keyUp = if ms < 50 then s.keyLeft t0 else if ms < 2000 then (s.keyLeft t0).keyIdentify else (s.keyLeft t0).keyQuiesce
      := by
    unfold State.keyUp
    simp only [ht, hd, Nat.not_le.2 h10, if_false, hf, Bool.false_or, decide_eq_true_eq, State.keyLeft]
  rw [e]
  have k := State.keyLeft_facts i t0
  have sv : (s.keyLeft t0).service.bootHalt = s.service.bootHalt := by simp [State.keyLeft, State.modSvc, State.noteHold]
  generalize s.keyLeft t0 = u at k sv
  obtain ⟨iu, tu, pu, -, mu, du, lu, bu⟩ := k
  have hlu : u.on Rg.SVC_CFG_LOCK_KEY = false := by simp [State.on, lu, hl]
  have hbu : u.on Rg.SEC_BOOT_STATUS_MODE = false := by simp [State.on, bu, hr]
  have kq := State.quiesce_touch u
  have kr := State.resume_touch u
  refine ⟨?_, ?_, ?_, ?_, ?_⟩
  · split
    · exact tu
    · split
      · unfold State.keyIdentify
        rw [hlu]
        simp only [Bool.false_eq_true, if_false]
        split
        · exact kr tu
        · simpa using tu
      · unfold State.keyQuiesce
        rw [hlu, hbu]
        exact kq tu
  · intro h
    rw [if_pos h]
    exact ⟨du, mu⟩
  · intro h1 h2 h3
    rw [if_neg (by omega), if_pos h2]
    unfold State.keyIdentify
    rw [hlu]
    simp only [Bool.false_eq_true, if_false]
    rw [if_neg (by rw [State.svcMode, mu]; exact h3), ← du]
    have hi := u.fd_lt Rg.SVC_STATE_IDENTIFY
    have hi : u.fd Rg.SVC_STATE_IDENTIFY < 2 := hi
    rw [State.fd_raise_apart (State.setF_inv iu _ _) _ _ (RF.apart_addr (by decide)), State.fd_setF_self iu _ _
        (Nat.le_of_ble_eq_true rfl)]
    exact Nat.mod_eq_of_lt (show _ < 2 by omega)
  · intro h1 h2 h3 h4
    rw [if_neg (by omega), if_pos h2]
    unfold State.keyIdentify
    rw [hlu]
    simp only [Bool.false_eq_true, if_false]
    rw [if_pos (by rw [State.svcMode, mu]; exact h3)]
    obtain ⟨t, ht, hm, -⟩ := svcResume_spec u iu (pu.trans hp) (sv.trans h4) (.inl (mu.trans h3))
    cases ht
    exact hm
  · intro h1 h2
    rw [if_neg (by omega), if_neg (by omega)]
    unfold State.keyQuiesce
    rw [hlu, hbu]
    simp only [Bool.false_eq_true, if_false]
    obtain ⟨t, ht, hm, hq, -⟩ := svcQuiesce_spec u iu (pu.trans hp) (mu.trans h2)
    cases ht
    exact ⟨hm, hq⟩

/-! ### Settling and the pattern (R546 to R548) -/

theorem State.portsDown_mask (s : State) : s.Keeps 800694037971988487 s.portsDown := State.portsDown_keeps (by decide) (.refl s)

theorem quiesceSettled_spec (s : State) (i : s.Inv) (hm : s.fd Rg.SVC_STATE_MODE = 1)
    (hs : ∀ p, p < 12 → s.defined p = true → s.pstate p = 0 ∨ s.settled p = true) :
    ∃ t, exec .quiesceSettled s = .next t ∧ t.fd Rg.SVC_STATE_MODE = 2 ∧ t.fd Rg.SVC_IRQ_SAFE = 1 := by
  refine ⟨_, rfl, ?_⟩
  unfold State.quiesceDone State.enterSafe
  rw [if_pos]
  · have i1 := (State.portsDown_mask s).inv i
    have i2 := State.setMode_inv i1 2
    exact ⟨(State.fd_raise_apart i2 _ _ (RF.apart_addr (by decide))).trans (State.setMode_fd i1 2), State.fd_raise_self i2 _ (by
        decide) (by decide)⟩
  · simp only [State.svcMode, hm, decide_true, Bool.true_and, List.all_eq_true]
    intro p hp
    have h := hs p (List.mem_range.1 hp)
    cases hd : s.defined p
    · rfl
    · rcases h hd with h | h <;> simp [h]

theorem forceStopComplete_spec (s : State) (i : s.Inv) (hm : s.fd Rg.SVC_STATE_MODE = 3)
    (hs : ∀ p, p < 12 → s.defined p = true → s.pstate p = 0) :
    ∃ t, exec .forceStopComplete s = .next t ∧ t.fd Rg.SVC_STATE_MODE = 4 ∧ t.fd Rg.SVC_IRQ_SAFE = 1 := by
  refine ⟨_, rfl, ?_⟩
  unfold State.stopDone
  rw [if_pos]
  · have i1 := (State.portsDown_mask s).inv i
    have i2 := State.setMode_inv i1 4
    exact ⟨(State.fd_raise_apart i2 _ _ (RF.apart_addr (by decide))).trans (State.setMode_fd i1 4), State.fd_raise_self i2 _ (by
        decide) (by decide)⟩
  · simp only [State.svcMode, hm, decide_true, Bool.true_and, List.all_eq_true]
    intro p hp
    have h := hs p (List.mem_range.1 hp)
    cases hd : s.defined p
    · rfl
    · simp [h hd]

theorem filter_allParts {f : Nat → Bool} {p : Nat} (hp : p < 12) (h : f p = true) (hn : ∀ q, q < 12 → q ≠ p → f q = false) :
    allParts.filter f = [p] := by
  have e : allParts.filter f = allParts.filter (fun q => q == p) := by
    refine List.filter_congr fun q hq => ?_
    by_cases e : q = p
    · subst e; simp [h]
    · rw [hn q (List.mem_range.1 hq) e]; simp [e]
  rw [e]
  clear e h hn
  revert p
  decide

theorem quiesceTimeout_spec (s : State) (i : s.Inv) (p t0 : Nat) (ht : s.service.quiesceAt = some t0) (hm : s.fd Rg.SVC_STATE_MODE
    = 1)
    (hp : p < 12) (hd : s.defined p = true) (h1 : s.pstate p = 1) (hs : s.settled p = false)
    (ho : ∀ q, q < 12 → q ≠ p → s.defined q = true → s.pstate q = 0 ∨ s.settled q = true) :
    ∃ t, exec .quiesceTimeout s = .next t ∧ FaultShown s t p stAborted ∧ t.fd Rg.FLT_IRQ_WDOG = 1 := by
  refine ⟨_, rfl, ?_⟩
  have key (d : Nat) : FaultShown s ((allParts.filter fun q => (s.passTo d).defined q && (s.passTo d).pstate q != 0 && !(s.passTo
      d).settled q).foldl
      (fun s p => s.wdogFault p 6 0) (s.passTo d)) p stAborted ∧ State.fd ((allParts.filter fun q => (s.passTo d).defined q &&
          (s.passTo d).pstate q != 0 &&
      !(s.passTo d).settled q).foldl (fun s p => s.wdogFault p 6 0) (s.passTo d)) Rg.FLT_IRQ_WDOG = 1 := by
    have e : (allParts.filter fun q => (s.passTo d).defined q && (s.passTo d).pstate q != 0 && !(s.passTo d).settled q) = [p] := by
      refine filter_allParts hp ?_ ?_
      · show (s.defined p && s.pstate p != 0 && !s.settled p) = true
        simp [hd, h1, hs]
      · intro q hq hn
        show (s.defined q && s.pstate q != 0 && !s.settled q) = false
        cases hdq : s.defined q
        · rfl
        · rcases ho q hq hn hdq with h | h <;> simp [h]
    rw [e]
    exact State.wdogFault_at i hp hd (by omega) d 6 0
  unfold State.quiesceExpire
  simp only [ht, State.svcMode, hm, ne_eq, not_true_eq_false, if_false]
  exact key _

theorem faultPatternExpiry_spec (s : State) (p t0 : Nat) (h : (s.part p).faultAt = some t0) :
    ∃ t, exec (.faultPatternExpiry p) s = .next t ∧ (t.part p).faultAt = none ∧ (t.part p).why = (s.part p).why := by
  have key (d : Nat) : (((s.passTo d).modPart p fun q => { q with faultAt := none }).part p).faultAt = none ∧
      (((s.passTo d).modPart p fun q => { q with faultAt := none }).part p).why = (s.part p).why := by
    rw [State.part_modPart_self]
    exact ⟨rfl, rfl⟩
  refine ⟨_, rfl, ?_⟩
  rw [h]
  exact key _

theorem presenceChange_port_spec (s : State) (i : s.Inv) (n : Nat) (hp : s.phase = .running) (hn : n < s.var.ports)
    (hb : (s.fd Rg.SVC_PRESENCE_CAGE).testBit n = false) :
    ∃ t, exec (.presenceChange n true) s = .next t ∧ t.fd (Rg.CCH_PORT_STATUS_PRESENT n) = 1 ∧ t.fd Rg.SVC_IRQ_PRESENCE = 1 ∧
      t.fd Rg.SVC_PRESENCE_CAGE = (s.fd Rg.SVC_PRESENCE_CAGE + 2 ^ n) % 256 ∧
      t.fd Rg.SVC_PRESENCE_CAGE_CHG = (s.fd Rg.SVC_PRESENCE_CAGE_CHG ||| 2 ^ n) % 256 := by
  refine ⟨_, rfl, ?_⟩
  unfold State.presence
  rw [if_neg (by simp [hp]), if_pos hn]
  dsimp only
  rw [if_neg (by rw [hb]; decide), if_pos rfl, if_pos rfl]
  refine ⟨?_, ?_, ?_, ?_⟩
  all_goals simp (disch := (first
          | decide | exact Nat.le_of_ble_eq_true rfl | exact RF.apart_bits rfl
          | (refine RF.apart_addr ?_; simp only [Rg.CCH_PORT_STATUS_PRESENT, Rg.CCH_PORT_STATUS, Rg.SVC_IRQ_PRESENCE, Rg.SVC_IRQ,
            Rg.SVC_PRESENCE_CAGE, Rg.SVC_PRESENCE, Rg.SVC_PRESENCE_CAGE_CHG]; omega)
          | (simp only [ne_eq, Rg.CCH_PORT_STATUS_PRESENT, Rg.CCH_PORT_STATUS, Rg.SVC_IRQ_PRESENCE, Rg.SVC_IRQ,
            Rg.SVC_PRESENCE_CAGE, Rg.SVC_PRESENCE, Rg.SVC_PRESENCE_CAGE_CHG]; omega) | simp (maxDischargeDepth := 40) [*])) []
  all_goals rfl

theorem presenceChange_larric_spec (s : State) (i : s.Inv) (b : Bool) (hp : s.phase = .running) (hb : s.on Rg.SVC_PRESENCE_LARRIC
    = !b)
    (hl : b = false → s.lrlState < 4) :
    ∃ t, exec (.presenceChange 8 b) s = .next t ∧ t.fd Rg.SVC_PRESENCE_LARRIC = b2n b ∧ t.fd Rg.SVC_PRESENCE_LARRIC_CHG = 1 ∧
      t.fd Rg.SVC_IRQ_PRESENCE = 1 := by
  refine ⟨_, rfl, ?_⟩
  have hv : ¬ 8 < s.var.ports := by
    unfold State.var
    cases s.fuses.variant <;> decide
  unfold State.presence
  rw [if_neg (by simp [hp]), if_neg hv, if_pos rfl]
  dsimp only
  rw [if_neg (by rw [hb]; cases b <;> decide)]
  have hl' : ¬ ((!b && decide (4 ≤ (((s.setF Rg.SVC_PRESENCE_LARRIC (b2n b)).raise Rg.SVC_PRESENCE_LARRIC_CHG).raise
      Rg.SVC_IRQ_PRESENCE).lrlState)) = true) := by
    have e : (((s.setF Rg.SVC_PRESENCE_LARRIC (b2n b)).raise Rg.SVC_PRESENCE_LARRIC_CHG).raise Rg.SVC_IRQ_PRESENCE).lrlState =
        s.lrlState := by
      unfold State.lrlState
      simp (disch := (first
              | decide | exact Nat.le_of_ble_eq_true rfl | exact RF.apart_bits rfl
              | (refine RF.apart_addr ?_; simp only [Rg.LRL_STATUS_STATE, Rg.LRL_STATUS, Rg.SVC_PRESENCE_LARRIC, Rg.SVC_PRESENCE,
                Rg.SVC_PRESENCE_LARRIC_CHG, Rg.SVC_IRQ_PRESENCE, Rg.SVC_IRQ]; omega)
              | (simp only [ne_eq, Rg.LRL_STATUS_STATE, Rg.LRL_STATUS, Rg.SVC_PRESENCE_LARRIC, Rg.SVC_PRESENCE,
                Rg.SVC_PRESENCE_LARRIC_CHG, Rg.SVC_IRQ_PRESENCE, Rg.SVC_IRQ]; omega) | simp (maxDischargeDepth := 40) [*])) []
    rw [e]
    cases b
    · simp only [Bool.not_false, Bool.true_and, decide_eq_true_eq]; have := hl rfl; omega
    · simp
  rw [if_neg hl']
  refine ⟨?_, ?_, ?_⟩
  · simp (disch := (first
            | decide | exact Nat.le_of_ble_eq_true rfl | exact RF.apart_bits rfl
            | (refine RF.apart_addr ?_; simp only [Rg.SVC_PRESENCE_LARRIC, Rg.SVC_PRESENCE, Rg.SVC_PRESENCE_LARRIC_CHG,
              Rg.SVC_IRQ_PRESENCE, Rg.SVC_IRQ]; omega)
            | (simp only [ne_eq, Rg.SVC_PRESENCE_LARRIC, Rg.SVC_PRESENCE, Rg.SVC_PRESENCE_LARRIC_CHG, Rg.SVC_IRQ_PRESENCE,
              Rg.SVC_IRQ]; omega) | simp (maxDischargeDepth := 40) [*])) []
    cases b <;> rfl
  · simp (disch := (first
            | decide | exact Nat.le_of_ble_eq_true rfl | exact RF.apart_bits rfl
            | (refine RF.apart_addr ?_; simp only [Rg.SVC_PRESENCE_LARRIC, Rg.SVC_PRESENCE, Rg.SVC_PRESENCE_LARRIC_CHG,
              Rg.SVC_IRQ_PRESENCE, Rg.SVC_IRQ]; omega)
            | (simp only [ne_eq, Rg.SVC_PRESENCE_LARRIC, Rg.SVC_PRESENCE, Rg.SVC_PRESENCE_LARRIC_CHG, Rg.SVC_IRQ_PRESENCE,
              Rg.SVC_IRQ]; omega) | simp (maxDischargeDepth := 40) [*])) []
  · simp (disch := (first
            | decide | exact Nat.le_of_ble_eq_true rfl | exact RF.apart_bits rfl
            | (refine RF.apart_addr ?_; simp only [Rg.SVC_PRESENCE_LARRIC, Rg.SVC_PRESENCE, Rg.SVC_PRESENCE_LARRIC_CHG,
              Rg.SVC_IRQ_PRESENCE, Rg.SVC_IRQ]; omega)
            | (simp only [ne_eq, Rg.SVC_PRESENCE_LARRIC, Rg.SVC_PRESENCE, Rg.SVC_PRESENCE_LARRIC_CHG, Rg.SVC_IRQ_PRESENCE,
              Rg.SVC_IRQ]; omega) | simp (maxDischargeDepth := 40) [*])) []

end Sys2Proof.Machine
end

