-- ==== Sys2Proof/Laws/EffIssue.lean ====
section
/-!
SUPPORT. What the Dispatcher's commands do (10_task_graphs.md R330 to R347; 05_core_streaming.md R170 to R176; 17 R544).
-/
namespace Sys2Proof.Machine

/-! ### Repair (17 R544) -/

theorem State.fixDone_shown {s : State} (i : s.Inv) (r n : Nat) : (s.fixDone r n).fd Rg.FLT_REPAIR_RESULT_RESULT = r % 256 ∧
    (s.fixDone r n).fd Rg.FLT_REPAIR_RESULT_APPLIED = n % 256 ∧ (s.fixDone r n).fuses = s.fuses := by
  unfold State.fixDone
  refine ⟨?_, ?_, rfl⟩ <;> simp (disch := (first
          | decide | exact Nat.le_of_ble_eq_true rfl | exact RF.apart_bits rfl
          | (refine RF.apart_addr ?_; simp only [Rg.FLT_REPAIR_RESULT_RESULT, Rg.FLT_REPAIR_RESULT, Rg.FLT_REPAIR_RESULT_APPLIED,
            Rg.FLT_IRQ_REPAIR_DONE, Rg.FLT_IRQ]; omega)
          | (simp only [ne_eq, Rg.FLT_REPAIR_RESULT_RESULT, Rg.FLT_REPAIR_RESULT, Rg.FLT_REPAIR_RESULT_APPLIED,
            Rg.FLT_IRQ_REPAIR_DONE, Rg.FLT_IRQ]; omega) | simp (maxDischargeDepth := 40) [*])) [State.fd_raise_apart,
      State.fd_setF_apart, State.fd_setF_self]
  all_goals rfl

theorem State.repairVerdict_le (s : State) (r : MemRd) (n : Nat) : (s.repairVerdict r n).1 < 256 := by
  unfold State.repairVerdict
  dsimp only
  repeat' split
  all_goals exact (Nat.le_of_ble_eq_true rfl)

theorem repairApply_spec (s : State) (i : s.Inv) (h : s.serving = true) (hb : s.on Rg.FLT_REPAIR_RESULT_BUSY = false) (a n : Nat)
    (ha : (s.rd Rg.FLT_REPAIR_HOST).toNat = a) (hn : s.fd Rg.FLT_REPAIR_LEN_LEN = n) (ok : a % 8 = 0 ∧ windowBase ≤ a ∧ a < 2 ^ 48
        ∧ 305 ≤ n ∧ n ≤ 809)
    (c : Nat) (m : FuseMap) (hv : (s.devRead 15 2 a n).st.repairVerdict (s.devRead 15 2 a n) n = (c, m)) :
    ∃ t, exec .repairApply s = .next t ∧ t.fd Rg.FLT_REPAIR_RESULT_RESULT = c ∧
      t.fuses = if c = 0 then { s.fuses with map := m } else s.fuses := by
  refine ⟨_, rfl, ?_⟩
  unfold State.repairApply
  rw [if_neg (by simp [h]), if_neg (by simp [hb])]
  dsimp only
  have hc : c < 256 := by
    have := State.repairVerdict_le (s.devRead 15 2 a n).st (s.devRead 15 2 a n) n
    rw [hv] at this; exact this
  rw [if_neg (by simp only [ha, hn, inRange, hostAddrOk]; simp [ok, show a < 281474976710656 from ok.2.2.1]), ha, hn, hv]
  have k : s.Keeps 74450131340091392 (s.devRead 15 2 a n).st := State.devRead_keeps (by decide) (.refl _) 15 2 a n
  generalize (s.devRead 15 2 a n).data = b
  generalize (s.devRead 15 2 a n).st = u at k
  have iu := k.inv i
  have fu : u.fuses = s.fuses := k.same .fuses (by decide)
  split
  · rename_i h0
    have v := State.fixDone_shown iu c 0
    exact ⟨v.1.trans (Nat.mod_eq_of_lt hc), by rw [v.2.2, fu]⟩
  · rename_i h0
    have h0 : c = 0 := by simpa using h0
    subst h0
    have iw : ({ u with fuses := { u.fuses with map := m } } : State).Inv := iu.of_eq rfl rfl rfl rfl rfl
    have g : ((fixesOf b).foldl State.fixShown { u with fuses := { u.fuses with map := m } }).Inv ∧
        ((fixesOf b).foldl State.fixShown { u with fuses := { u.fuses with map := m } }).fuses = { u.fuses with map := m } := by
      refine foldl_keep (P := fun x => x.Inv ∧ x.fuses = { u.fuses with map := m }) _ ?_ ⟨iw, rfl⟩
      intro x f hx
      have kx : x.Keeps 72207127619321856 (x.fixShown f) := State.fixShown_keeps (by decide) (.refl _) f
      exact ⟨kx.inv hx.1, (show _ = _ from kx.same .fuses (by decide)).trans hx.2⟩
    have v := State.fixDone_shown g.1 0 (fixesOf b).length
    exact ⟨v.1, by rw [v.2.2, g.2, fu]; rfl⟩

/-! ### LOAD and UNLOAD (R330, R342, R346) -/

theorem State.dspDone_shown {s : State} (i : s.Inv) (p c n : Nat) : (s.dspDone p c n).fd (Rg.DSP_CMD_RESULT_RESULT p) = c % 256 ∧
    (s.dspDone p c n).fd (Rg.DSP_CMD_RESULT_COUNT p) = (s.fd (Rg.DSP_CMD_RESULT_COUNT p) + 1) % 4294967296 ∧
    ∀ q, (s.dspDone p c n).part q = s.part q := by
  unfold State.dspDone State.dspResult
  refine ⟨?_, ?_, fun q => rfl⟩
  · simp (disch := (first
            | decide | exact Nat.le_of_ble_eq_true rfl | exact RF.apart_bits rfl
            | (refine RF.apart_addr ?_; simp only [Rg.DSP_CMD_RESULT_RESULT, Rg.DSP_CMD_RESULT, Rg.DSP_CMD_RESULT_COUNT,
              Rg.DSP_CMD_RESULT_NODE, Rg.DSP_IRQ_CMD_DONE, Rg.DSP_IRQ]; omega)
            | (simp only [ne_eq, Rg.DSP_CMD_RESULT_RESULT, Rg.DSP_CMD_RESULT, Rg.DSP_CMD_RESULT_COUNT, Rg.DSP_CMD_RESULT_NODE,
              Rg.DSP_IRQ_CMD_DONE, Rg.DSP_IRQ]; omega) | simp (maxDischargeDepth := 40) [*])) [State.fd_incr_apart,
        State.fd_raise_apart, State.fd_setF_apart, State.fd_setF_self]
    rfl
  · simp (disch := (first
            | decide | exact Nat.le_of_ble_eq_true rfl | exact RF.apart_bits rfl
            | (refine RF.apart_addr ?_; simp only [Rg.DSP_CMD_RESULT_RESULT, Rg.DSP_CMD_RESULT, Rg.DSP_CMD_RESULT_COUNT,
              Rg.DSP_CMD_RESULT_NODE, Rg.DSP_IRQ_CMD_DONE, Rg.DSP_IRQ]; omega)
            | (simp only [ne_eq, Rg.DSP_CMD_RESULT_RESULT, Rg.DSP_CMD_RESULT, Rg.DSP_CMD_RESULT_COUNT, Rg.DSP_CMD_RESULT_NODE,
              Rg.DSP_IRQ_CMD_DONE, Rg.DSP_IRQ]; omega) | simp (maxDischargeDepth := 40) [*])) [State.fd_incr_self,
        State.fd_raise_apart, State.fd_setF_apart]
    rfl

theorem find?_ins_self' {α : Type} (m : SMap α) (k : Nat) (v : α) : find? (ins m k v) k = some v := by
  induction m with
  | nil => simp [ins, find?]
  | cons e t ih =>
    unfold ins
    split
    · simp [find?]
    · split
      · simp [find?]
      · rename_i h1 h2; simp [find?, h1, h2, ih]

theorem find?_del_self {α : Type} (m : SMap α) (k : Nat) : find? (del m k) k = none := by
  induction m with
  | nil => rfl
  | cons e t ih =>
    unfold del at ih ⊢
    rw [List.filter_cons]
    split
    · rename_i h
      unfold find?
      rw [if_neg (by rintro rfl; simp at h)]
      split
      · rfl
      · exact ih
    · exact ih

theorem State.graph_modGraph_self {s : State} {p tag : Nat} {g : Graph} (h : s.graph? p tag = some g) (f : Graph → Graph) :
    (s.modGraph p tag f).graph? p tag = some (f g) := by
  unfold State.graph? at h ⊢
  unfold State.modGraph
  rw [State.part_modPart_self]
  dsimp only
  rw [h]
  exact find?_ins_self' _ _ _

theorem dspLoad_spec (s : State) (i : s.Inv) (p : Nat) (hl : s.live p = true) (g : Graph) (w : State) (h : s.LoadsAs p g w) :
    ∃ t, exec (.dspLoad p) s = .next t ∧ t.graph? p (fieldAt g.header 6 1) = some g ∧ t.fd (Rg.DSP_CMD_RESULT_RESULT p) = 0 := by
  refine ⟨_, rfl, ?_⟩
  obtain ⟨u, v, ok, h1, h2, h3, h4, h5, h6, h7, h8, h9, ha, hb, hc, hd⟩ := h
  obtain ⟨hdr, ds, ov, nx, br, ul, rn⟩ := g
  dsimp only at *
  subst ha hb hc hd
  have m1 : (ds.zip ok).map (·.1) = ds := by rw [List.map_fst_zip (Nat.le_of_eq h8)]
  have m2 : (ds.zip ok).map (·.2) = ok := by rw [List.map_snd_zip (Nat.le_of_eq h8.symm)]
  have iw : w.Inv := by
    have a : u.Inv := by have := (State.blk_keeps (M := 2305843009213693951) (by decide) (.refl s) p (s.fd (Rg.DSP_CMD_ADDR_ADDR p)) 64).inv i; rw [h1] at this; exact this
    have b : v.Inv := by have := (State.readOvf_keeps (M := 2305843009213693951) (by decide) (.refl u) p (fieldAt hdr 40 8) (Graph.ovfCount ⟨hdr, ds, ov, 0, false, none, none⟩)).inv a; rw [h6] at this; exact this
    have c := (State.readDescs_keeps (M := 2305843009213693951) (by decide) (.refl v) p (fieldAt hdr 32 8) (Graph.nodes ⟨hdr, ds,
        ov, 0, false, none, none⟩)).inv b
    rw [h7] at c; exact c
  unfold State.dspLoad
  rw [if_neg (by simp [hl])]
  dsimp only
  rw [h1]
  dsimp only
  rw [if_neg (by simp [h2]), if_neg (by simp [h3])]
  have c1 : (⟨hdr, [], [], 0, false, none, none⟩ : Graph).cost = (⟨hdr, ds, ov, 0, false, none, none⟩ : Graph).cost := rfl
  have c2 : (⟨hdr, [], [], 0, false, none, none⟩ : Graph).ovfCount = (⟨hdr, ds, ov, 0, false, none, none⟩ : Graph).ovfCount := rfl
  have c3 : (⟨hdr, [], [], 0, false, none, none⟩ : Graph).nodes = (⟨hdr, ds, ov, 0, false, none, none⟩ : Graph).nodes := rfl
  rw [if_neg (by rw [c1]; simp only [Bool.or_eq_true, decide_eq_true_eq]; omega), c2, c3, h6]
  dsimp only
  rw [h7]
  dsimp only
  rw [m1, m2, h9]
  dsimp only
  have ix := State.modPart_inv iw p fun q => { q with graphs := ins q.graphs (fieldAt hdr 6 1) ⟨hdr, ds, ov, 0, false, none, none⟩, sched := ins q.sched (fieldAt hdr 6 1) Sched.init }
  have d := State.dspDone_shown ix p 0 0
  refine ⟨?_, d.1⟩
  unfold State.graph?
  rw [d.2.2, State.part_modPart_self]
  exact find?_ins_self' _ _ _

theorem dspUnload_spec (s : State) (i : s.Inv) (p tag : Nat) (hl : s.live p = true) :
    ∃ t, exec (.dspUnload p tag) s = .next t ∧
      (s.graph? p tag = none → t.fd (Rg.DSP_CMD_RESULT_RESULT p) = 5) ∧
      (∀ g, s.graph? p tag = some g → g.running = true →
        t.fd (Rg.DSP_CMD_RESULT_RESULT p) = 0 ∧ t.graph? p tag = some { g with unloadAt := some (g.unloadAt.getD s.now) }) ∧
      (∀ g, s.graph? p tag = some g → g.run = none → t.fd (Rg.DSP_CMD_RESULT_RESULT p) = 0 ∧ t.graph? p tag = none) := by
  refine ⟨_, rfl, ?_⟩
  unfold State.dspUnload
  rw [if_neg (by simp [hl])]
  refine ⟨?_, ?_, ?_⟩
  · intro h; rw [h]; exact (State.dspDone_shown i p 5 0).1
  · intro g h hr
    rw [h]
    dsimp only
    have e := State.graph_modGraph_self h fun g => { g with unloadAt := some (g.unloadAt.getD s.now) }
    have iu : (s.modGraph p tag fun g => { g with unloadAt := some (g.unloadAt.getD s.now) }).Inv := State.modPart_inv i _ _
    have eq : (s.modGraph p tag fun x => { x with unloadAt := some (g.unloadAt.getD s.now) }) = s.modGraph p tag fun g => { g with unloadAt := some (g.unloadAt.getD s.now) } := by
      unfold State.modGraph State.modPart
      unfold State.graph? at h
      simp only [h]
    rw [eq]
    generalize (s.modGraph p tag fun g => { g with unloadAt := some (g.unloadAt.getD s.now) }) = u at e iu
    have k : u.finishUnload p tag = u := by
      unfold State.finishUnload
      rw [e]
      dsimp only
      have hr2 : (Graph.running { g with unloadAt := some (g.unloadAt.getD s.now) }) = true := hr
      rw [if_neg (by simp [hr2])]
    rw [k]
    have d := State.dspDone_shown iu p 0 0
    exact ⟨d.1, (congrArg (fun x : Part => find? x.graphs tag) (d.2.2 p)).trans e⟩
  · intro g h hr
    rw [h]
    dsimp only
    have e := State.graph_modGraph_self h fun x => { x with unloadAt := some (g.unloadAt.getD s.now) }
    have iu : (s.modGraph p tag fun x => { x with unloadAt := some (g.unloadAt.getD s.now) }).Inv := State.modPart_inv i _ _
    generalize (s.modGraph p tag fun x => { x with unloadAt := some (g.unloadAt.getD s.now) }) = u at e iu
    have k : u.finishUnload p tag = u.modPart p fun q => { q with graphs := del q.graphs tag } := by
      unfold State.finishUnload
      rw [e]
      dsimp only
      rw [if_pos (by simp [Graph.running, hr])]
    rw [k]
    have d := State.dspDone_shown (State.modPart_inv iu p fun q => { q with graphs := del q.graphs tag }) p 0 0
    refine ⟨d.1, (congrArg (fun x : Part => find? x.graphs tag) (d.2.2 p)).trans ?_⟩
    rw [State.part_modPart_self]
    exact find?_del_self _ _

/-! ### Issue (R333) -/

theorem State.bump_tasks' (s : State) (f : RF) : (s.bump f).tasks = s.tasks := State.bump_tasks ..

theorem taskIssue_spec (s : State) (i : s.Inv) (k p : Nat) (hk : k < 12) (hp : (s.issueLast + 1 + k) % 12 = p)
    (hn : ∀ j, j < k → s.nextIssue ((s.issueLast + 1 + j) % 12) = none) (c : Cand) (lc : Nat)
    (h : s.nextIssue p = some (c, .core lc false)) (g : Graph) (r : StepRun) (hg : s.graph? p c.tag = some g) (hr : g.run = some r)
    (he : emptySlice (g.desc c.node) r.rows = false) :
    ∃ t, exec .taskIssue s = .next t ∧ t.issueLast = p ∧
      t.fd (Rg.DSP_ISSUED_TASKS p) = min (s.fd (Rg.DSP_ISSUED_TASKS p) + 1) 281474976710655 := by
  refine ⟨_, rfl, ?_⟩
  have hf : (((List.range 12).map fun i => (s.issueLast + 1 + i) % 12).findSome? fun p =>
      (s.nextIssue p).map fun x => (p, x.1, x.2)) = some (p, c, .core lc false) := by
    have e : List.range 12 = List.range k ++ k :: (List.range (11 - k)).map fun x => k + 1 + x := by
      have : 12 = k + (1 + (11 - k)) := by omega
      rw [this, List.range_add, List.range_add]
      simp [List.range_succ, Function.comp_def, Nat.add_assoc]
    rw [e, List.map_append, List.findSome?_append, List.map_cons, List.findSome?_cons, hp, h]
    rw [List.findSome?_eq_none_iff.2]
    · rfl
    · intro x hx
      obtain ⟨j, hj, rfl⟩ := List.mem_map.1 hx
      rw [hn j (List.mem_range.1 hj)]
      rfl
  unfold State.issueStep
  rw [hf]
  dsimp only
  have iu : ({ s with issueLast := p } : State).Inv := i.of_eq rfl rfl rfl rfl rfl
  have eu : ({ s with issueLast := p } : State).issueLast = p := rfl
  have gu : ({ s with issueLast := p } : State).graph? p c.tag = some g := hg
  have fu (f : RF) : ({ s with issueLast := p } : State).fd f = s.fd f := rfl
  generalize ({ s with issueLast := p } : State) = u at iu eu gu fu
  unfold State.issueTo
  rw [gu]
  dsimp only
  rw [hr]
  dsimp only
  rw [if_neg (by simp [he])]
  have k1 : u.Keeps 3145728 (u.ensureTask p g r c).2 := State.ensureTask_keeps (by decide) (.refl _) p g r c
  generalize u.ensureTask p g r c = x at k1
  obtain ⟨n, v⟩ := x
  dsimp only at k1 ⊢
  have iv := k1.inv iu
  simp only [Bool.not_false, if_true]
  have ib := State.bump_inv iv (Rg.DSP_ISSUED_TASKS p) 1
  have fb := State.fd_bump_self iv (Rg.DSP_ISSUED_TASKS p) 1 (Nat.le_of_ble_eq_true rfl)
  have lb : (v.bump (Rg.DSP_ISSUED_TASKS p)).issueLast = v.issueLast := State.bump_issueLast ..
  generalize v.bump (Rg.DSP_ISSUED_TASKS p) = w at ib fb lb
  generalize ((v.task? n).map fun k => k.nextPart c).getD 0 = m
  have k2 : w.Keeps 216172782165164032 (w.arrive g n m lc (g.desc c.node) p c.tag c.node r.step r.rows) := State.arrive_keeps (by
      decide) (.refl _) _ _ _ _ _ _ _ _ _ _
  constructor
  · exact (show _ = _ from k2.same .issueLast (by decide)).trans (lb.trans ((show _ = _ from k1.same .issueLast (by decide)).trans
        eu))
  · rw [k2.fd ib (Rg.DSP_ISSUED_TASKS_in p) (by decide) (by decide), fb, k1.fd iu (Rg.DSP_ISSUED_TASKS_in p) (by decide) (by
        decide), fu]
    rfl

/-! ### Slots, links and arrays of a core (05 R170, R174, R176; 04 R136) -/

theorem State.core_congr {s t : State} (h : t.cores = s.cores) (c : Nat) : t.core c = s.core c := by unfold State.core; rw [h]

theorem State.promote_congr {s t : State} (h : s.tasks = t.tasks) (c : Nat) : (s.promote c).tasks = (t.promote c).tasks := by
  unfold State.promote State.slotFree State.inSlot State.modTask
  rw [h]
  split
  · exact h
  · split
    · rfl
    · exact h

theorem arraysFinish_spec (s : State) (i : s.Inv) (c : Nat) (k : Task) (x : TaskPart) (h : s.inSlot c 2 = some (k, x))
    (hf : s.slotFree c 3 = true) (hd : x.done = false) :
    ∃ t, exec (.arraysFinish c) s = .next t ∧ t.fd (Rg.CORE_ARR_STATE_ACTIVE (s.physCore c)) = 0 ∧
      (t.core (s.physCore c)).idleAt = s.now ∧
      t.tasks = ((s.modTask k.id fun k => k.modPart x.idx fun x => { x with slot := 3 }).promote c).tasks := by
  refine ⟨_, rfl, ?_⟩
  unfold State.arraysFinish
  rw [h]
  dsimp only
  rw [if_neg (by simp [hf]), if_neg (by simp [hd])]
  generalize s.physCore c = pc
  have i4 : ((((s.setF (Rg.CORE_ARR_STATE_DATAFLOW pc) 0).setF (Rg.CORE_ARR_STATE_QUAD pc) 0).setF (Rg.CORE_ARR_STATE_KPARTS pc)
      0).setF
      (Rg.CORE_ARR_STATE_ACTIVE pc) 0).Inv := State.setF_inv (State.setF_inv (State.setF_inv (State.setF_inv i _ _) _ _) _ _) _ _
  have f4 : ((((s.setF (Rg.CORE_ARR_STATE_DATAFLOW pc) 0).setF (Rg.CORE_ARR_STATE_QUAD pc) 0).setF (Rg.CORE_ARR_STATE_KPARTS pc)
      0).setF
      (Rg.CORE_ARR_STATE_ACTIVE pc) 0).fd (Rg.CORE_ARR_STATE_ACTIVE pc) = 0 :=
    State.fd_setF_self (State.setF_inv (State.setF_inv (State.setF_inv i _ _) _ _) _ _) _ _ (Nat.le_of_ble_eq_true rfl)
  have n4 : ((((s.setF (Rg.CORE_ARR_STATE_DATAFLOW pc) 0).setF (Rg.CORE_ARR_STATE_QUAD pc) 0).setF (Rg.CORE_ARR_STATE_KPARTS pc)
      0).setF
      (Rg.CORE_ARR_STATE_ACTIVE pc) 0).now = s.now := rfl
  have t4 : ((((s.setF (Rg.CORE_ARR_STATE_DATAFLOW pc) 0).setF (Rg.CORE_ARR_STATE_QUAD pc) 0).setF (Rg.CORE_ARR_STATE_KPARTS pc)
      0).setF
      (Rg.CORE_ARR_STATE_ACTIVE pc) 0).tasks = s.tasks := rfl
  generalize ((((s.setF (Rg.CORE_ARR_STATE_DATAFLOW pc) 0).setF (Rg.CORE_ARR_STATE_QUAD pc) 0).setF (Rg.CORE_ARR_STATE_KPARTS pc)
      0).setF
      (Rg.CORE_ARR_STATE_ACTIVE pc) 0) = u at i4 f4 n4 t4
  rw [n4]
  have i5 : (u.modCore pc fun k => { k with idleAt := s.now }).Inv := State.modCore_inv i4 _ _
  have f5 : (u.modCore pc fun k => { k with idleAt := s.now }).fd (Rg.CORE_ARR_STATE_ACTIVE pc) = 0 := (State.modCore_fd ..).trans f4
  have c5 : ((u.modCore pc fun k => { k with idleAt := s.now }).core pc).idleAt = s.now := by rw [State.core_modCore_self]
  have t5 : (u.modCore pc fun k => { k with idleAt := s.now }).tasks = s.tasks := t4
  generalize (u.modCore pc fun k => { k with idleAt := s.now }) = v at i5 f5 c5 t5
  have k1 : v.Keeps 1048576 ((v.modTask k.id fun k => k.modPart x.idx fun x => { x with slot := 3 }).promote c) :=
    State.promote_keeps (by decide) (State.modTask_keeps (by decide) (.refl v) _ _) _
  refine ⟨(k1.fd i5 (Rg.CORE_ARR_STATE_in pc) (by decide) (by decide)).trans f5, ?_, ?_⟩
  · rw [State.core_congr (k1.same .cores (by decide)) pc, c5]
  · exact State.promote_congr (by unfold State.modTask; rw [t5]) c

/-- What moving one buffer of a link does (05 R170): a producer turns an EMPTY into a FULL, a consumer a FULL into an EMPTY. -/
theorem State.linkMove_shown {s : State} (i : s.Inv) (pc l : Nat) (hl : l < 6) (full empty : RF)
    (hf : full = ⟨Rg.CORE_SEM_LINK_0 pc + 8 * l, 0, 4⟩) (he : empty = ⟨Rg.CORE_SEM_LINK_0 pc + 8 * l, 4, 4⟩) :
    (s.fd empty ≠ 0 → (s.linkMove pc true l).fd full = (s.fd full + 1) % 16 ∧ (s.linkMove pc true l).fd empty = s.fd empty - 1) ∧
    (s.fd full ≠ 0 → (s.linkMove pc false l).fd empty = (s.fd empty + 1) % 16 ∧ (s.linkMove pc false l).fd full = s.fd full - 1)
        := by
  have e1 : ({ Rg.CORE_SEM_LINK_0_FULL pc with addr := Rg.CORE_SEM_LINK_0 pc + 8 * (l % 6) } : RF) = full := by
    rw [hf, Nat.mod_eq_of_lt hl]; rfl
  have e2 : ({ Rg.CORE_SEM_LINK_0_EMPTY pc with addr := Rg.CORE_SEM_LINK_0 pc + 8 * (l % 6) } : RF) = empty := by
    rw [he, Nat.mod_eq_of_lt hl]; rfl
  have ap : full.apart empty := by rw [hf, he]; exact RF.apart_bits rfl
  have ap' : empty.apart full := by rw [hf, he]; exact RF.apart_bits rfl
  have wf : full.lo + full.w ≤ 64 := by rw [hf]; exact (Nat.le_of_ble_eq_true rfl)
  have we : empty.lo + empty.w ≤ 64 := by rw [he]; exact (Nat.le_of_ble_eq_true rfl)
  have xf : full.w = 4 := by rw [hf]
  have xe : empty.w = 4 := by rw [he]
  have lf := State.fd_lt s full
  have le := State.fd_lt s empty
  rw [xf] at lf
  rw [xe] at le
  unfold State.linkMove
  dsimp only
  rw [e1, e2]
  constructor
  · intro h0
    rw [if_pos rfl, if_neg h0]
    have ie := State.setF_inv i empty (s.fd empty - 1)
    constructor
    · rw [State.fd_setF_self ie _ _ wf, xf]; rfl
    · rw [State.fd_setF_apart ie _ _ _ ap', State.fd_setF_self i _ _ we, xe]; omega
  · intro h0
    rw [if_neg (by decide), if_neg h0]
    have ie := State.setF_inv i full (s.fd full - 1)
    constructor
    · rw [State.fd_setF_self ie _ _ we, xe]; rfl
    · rw [State.fd_setF_apart ie _ _ _ ap, State.fd_setF_self i _ _ wf, xf]; omega

/-- Moving a buffer of one link leaves the registers of the others. -/
theorem State.linkMove_apart {s : State} (i : s.Inv) (pc l : Nat) (hl : l < 6) (b : Bool) (f : RF)
    (h : f.addr ≠ Rg.CORE_SEM_LINK_0 pc + 8 * l) : (s.linkMove pc b l).fd f = s.fd f := by
  have ap (lo w : Nat) : f.apart { addr := Rg.CORE_SEM_LINK_0 pc + 8 * (l % 6), lo := lo, w := w } := .inl (by rw [Nat.mod_eq_of_lt hl]; exact h)
  unfold State.linkMove
  dsimp only
  cases b
  · rw [if_neg (by decide)]
    split
    · rfl
    · rw [State.fd_setF_apart (State.setF_inv i _ _) _ _ _ (ap _ _), State.fd_setF_apart i _ _ _ (ap _ _)]
  · rw [if_pos rfl]
    split
    · rfl
    · rw [State.fd_setF_apart (State.setF_inv i _ _) _ _ _ (ap _ _), State.fd_setF_apart i _ _ _ (ap _ _)]

theorem State.linkMove_inv {s : State} (i : s.Inv) (pc : Nat) (b : Bool) (l : Nat) : (s.linkMove pc b l).Inv := 
  (show s.Keeps 72057594037927936 _ from State.linkMove_keeps (by decide) (.refl _) pc b l).inv i

theorem linkBufferHandover_spec (s : State) (i : s.Inv) (c l : Nat) (hl : l < 6) (ha : l = 4 → s.var.affine = false)
    (hh : (s.tasks.any fun t => t.parts.any fun x => x.core == some c && 1 ≤ x.slot && x.slot ≤ 3) = true)
    (full empty : Nat → RF) (hf : ∀ m, full m = ⟨Rg.CORE_SEM_LINK_0 (s.physCore c) + 8 * m, 0, 4⟩)
    (he : ∀ m, empty m = ⟨Rg.CORE_SEM_LINK_0 (s.physCore c) + 8 * m, 4, 4⟩) :
    ((∀ m ∈ s.linksMoved c l, s.fd (empty m) ≠ 0) → ∃ t, exec (.linkBufferHandover c l true) s = .next t ∧
      ∀ m ∈ s.linksMoved c l, t.fd (full m) = (s.fd (full m) + 1) % 16 ∧ t.fd (empty m) = s.fd (empty m) - 1) ∧
    ((∀ m ∈ s.linksMoved c l, s.fd (full m) ≠ 0) → ∃ t, exec (.linkBufferHandover c l false) s = .next t ∧
      ∀ m ∈ s.linksMoved c l, t.fd (empty m) = (s.fd (empty m) + 1) % 16 ∧ t.fd (full m) = s.fd (full m) - 1) := by
  have hc : ¬ (6 ≤ l || !(s.tasks.any fun t => t.parts.any fun x => x.core == some c && 1 ≤ x.slot && x.slot ≤ 3) || (l = 4 &&
      s.var.affine)) = true := by
    rw [hh]
    by_cases h4 : l = 4
    · simp [h4, ha h4]
    · simp [h4]; omega
  have e (b : Bool) : s.linkHandover c l b = (s.linksMoved c l).foldl (fun s l => s.linkMove (s.physCore c) b l) s := by
    unfold State.linkHandover
    dsimp only
    rw [if_neg hc]
  have p (b : Bool) (x : Nat) : (s.linkMove (s.physCore c) b x).physCore c = s.physCore c := by
    unfold State.linkMove
    dsimp only
    split <;> split <;> rfl
  have f23 (m n : Nat) (h : m ≠ n) : (full m).addr ≠ Rg.CORE_SEM_LINK_0 (s.physCore c) + 8 * n ∧
      (empty m).addr ≠ Rg.CORE_SEM_LINK_0 (s.physCore c) + 8 * n := by
    rw [hf, he]; dsimp only; omega
  have i2 (b : Bool) := State.linkMove_inv i (s.physCore c) b 2
  unfold State.linksMoved at e ⊢
  split
  · rename_i hv
    rw [if_pos hv] at e
    constructor
    · intro h0
      refine ⟨_, rfl, ?_⟩
      rw [e]
      simp only [List.foldl_cons, List.foldl_nil, List.forall_mem_cons, List.not_mem_nil, false_implies, implies_true, and_true,
          p] at h0 ⊢
      have a2 := (State.linkMove_shown i (s.physCore c) 2 (by decide) (full 2) (empty 2) (hf 2) (he 2)).1 h0.1
      have k2 := State.linkMove_apart (i2 true) (s.physCore c) 3 (by decide) true
      have k3 := State.linkMove_apart i (s.physCore c) 2 (by decide) true
      have a3 := (State.linkMove_shown (i2 true) (s.physCore c) 3 (by decide) (full 3) (empty 3) (hf 3) (he 3)).1
        (by rw [k3 _ (f23 3 2 (by decide)).2]; exact h0.2)
      refine ⟨⟨(k2 _ (f23 2 3 (by decide)).1).trans a2.1, (k2 _ (f23 2 3 (by decide)).2).trans a2.2⟩, ?_, ?_⟩
      · rw [a3.1, k3 _ (f23 3 2 (by decide)).1]
      · rw [a3.2, k3 _ (f23 3 2 (by decide)).2]
    · intro h0
      refine ⟨_, rfl, ?_⟩
      rw [e]
      simp only [List.foldl_cons, List.foldl_nil, List.forall_mem_cons, List.not_mem_nil, false_implies, implies_true, and_true,
          p] at h0 ⊢
      have a2 := (State.linkMove_shown i (s.physCore c) 2 (by decide) (full 2) (empty 2) (hf 2) (he 2)).2 h0.1
      have k2 := State.linkMove_apart (i2 false) (s.physCore c) 3 (by decide) false
      have k3 := State.linkMove_apart i (s.physCore c) 2 (by decide) false
      have a3 := (State.linkMove_shown (i2 false) (s.physCore c) 3 (by decide) (full 3) (empty 3) (hf 3) (he 3)).2
        (by rw [k3 _ (f23 3 2 (by decide)).1]; exact h0.2)
      refine ⟨⟨(k2 _ (f23 2 3 (by decide)).2).trans a2.1, (k2 _ (f23 2 3 (by decide)).1).trans a2.2⟩, ?_, ?_⟩
      · rw [a3.1, k3 _ (f23 3 2 (by decide)).2]
      · rw [a3.2, k3 _ (f23 3 2 (by decide)).1]
  · rename_i hv
    rw [if_neg hv] at e
    have a := State.linkMove_shown i (s.physCore c) l hl (full l) (empty l) (hf l) (he l)
    constructor
    · intro h0
      refine ⟨_, rfl, ?_⟩
      rw [e]
      simp only [List.foldl_cons, List.foldl_nil, List.forall_mem_cons, List.not_mem_nil, false_implies, implies_true, and_true]
          at h0 ⊢
      exact a.1 h0
    · intro h0
      refine ⟨_, rfl, ?_⟩
      rw [e]
      simp only [List.foldl_cons, List.foldl_nil, List.forall_mem_cons, List.not_mem_nil, false_implies, implies_true, and_true]
          at h0 ⊢
      exact a.2 h0

theorem State.array_modArray (s : State) (c a b : Nat) (f : ArraySt → ArraySt) (hb : b < 4) :
    (s.modArray c a f).array c b = if b = a then f (s.array c a) else s.array c b := by
  unfold State.array State.modArray
  rw [State.core_modCore_self]
  dsimp only
  rw [List.getD_eq_getElem?_getD, List.getElem?_map, List.getElem?_range hb]
  dsimp only [Option.map_some, Option.getD_some]
  split
  · rename_i h; rw [h]
  · rfl

/-- What turning off a quarter of an array's columns does (04 R136, R148). -/
theorem State.rampStep_shown {s : State} (i : s.Inv) (c a : Nat) (ha : a < 4) :
    (∀ b < 4, (s.rampStep c a).array c b =
      if b = a ∧ (s.array c a).on s.now ≠ 0 then (s.array c a).rampStep s.now else s.array c b) ∧
    (s.rampStep c a).fd (Rg.CORE_ARR_RAMP_RAMP_DOWNS c) =
      min (s.fd (Rg.CORE_ARR_RAMP_RAMP_DOWNS c) + if (s.array c a).on s.now = 1 then 1 else 0) 4294967295 ∧
    (s.rampStep c a).now = s.now ∧ (s.rampStep c a).Inv := by
  have lt := State.fd_lt s (Rg.CORE_ARR_RAMP_RAMP_DOWNS c)
  have lt : s.fd (Rg.CORE_ARR_RAMP_RAMP_DOWNS c) < 4294967296 := lt
  unfold State.rampStep
  dsimp only
  split
  · rename_i h0
    refine ⟨fun b _ => ?_, ?_, rfl, i⟩
    · rw [if_neg (by simp [h0])]
    · rw [if_neg (by simp [h0])]; omega
  · rename_i h0
    have m (b : Nat) (hb : b < 4) := State.array_modArray s c a b (fun x => x.rampStep s.now) hb
    have im : (s.modArray c a fun x => x.rampStep s.now).Inv := i.of_eq rfl rfl rfl rfl rfl
    have fm : (s.modArray c a fun x => x.rampStep s.now).fd (Rg.CORE_ARR_RAMP_RAMP_DOWNS c) = s.fd (Rg.CORE_ARR_RAMP_RAMP_DOWNS c)
        := rfl
    have nm : (s.modArray c a fun x => x.rampStep s.now).now = s.now := rfl
    generalize (s.modArray c a fun x => x.rampStep s.now) = u at m im fm nm
    have mm (b : Nat) (hb : b < 4) : u.array c b = if b = a ∧ (s.array c a).on s.now ≠ 0 then (s.array c a).rampStep s.now else
        s.array c b := by
      rw [m b hb]
      by_cases hba : b = a
      · rw [if_pos hba, if_pos ⟨hba, h0⟩]
      · rw [if_neg hba, if_neg (by simp [hba])]
    split
    · rename_i h1
      refine ⟨fun b hb => ?_, ?_, (State.bump_now ..).trans nm, State.bump_inv im ..⟩
      · rw [← mm b hb]; unfold State.array State.core; rw [State.bump_cores]
      · rw [State.fd_bump_self im _ _ (Nat.le_of_ble_eq_true rfl), fm, if_pos (nm ▸ h1)]; rfl
    · rename_i h1
      refine ⟨mm, ?_, nm, im⟩
      rw [fm, if_neg (nm ▸ h1)]; omega

theorem min_sat (v a b m : Nat) : min (min (v + a) m + b) m = min (v + (a + b)) m := by omega

/-- The same over several different arrays. -/
theorem State.rampSteps_shown (c : Nat) : ∀ (l : List Nat) (_ : l.Nodup) (_ : ∀ a ∈ l, a < 4) {s : State} (_ : s.Inv),
    (∀ b < 4, (l.foldl (fun s a => s.rampStep c a) s).array c b =
      if b ∈ l ∧ (s.array c b).on s.now ≠ 0 then (s.array c b).rampStep s.now else s.array c b) ∧
    (l.foldl (fun s a => s.rampStep c a) s).fd (Rg.CORE_ARR_RAMP_RAMP_DOWNS c) =
      min (s.fd (Rg.CORE_ARR_RAMP_RAMP_DOWNS c) + (l.filter fun a => (s.array c a).on s.now = 1).length) 4294967295 := by
  intro l
  induction l with
  | nil =>
    intro _ _ s _
    have lt : s.fd (Rg.CORE_ARR_RAMP_RAMP_DOWNS c) < 4294967296 := State.fd_lt s (Rg.CORE_ARR_RAMP_RAMP_DOWNS c)
    exact ⟨fun b _ => by rw [if_neg (by simp)]; rfl, by simp only [List.foldl_nil, List.filter_nil, List.length_nil]; omega⟩
  | cons a l ih =>
    intro hn hl s i
    have hn := List.nodup_cons.1 hn
    have ha := hl a (List.mem_cons_self ..)
    have h := State.rampStep_shown i c a ha
    have g := ih hn.2 (fun b hb => hl b (List.mem_cons_of_mem _ hb)) h.2.2.2
    have same (b : Nat) (hb : b ∈ l) : (s.rampStep c a).array c b = s.array c b := by
      rw [h.1 b (hl b (List.mem_cons_of_mem _ hb)), if_neg]
      rintro ⟨rfl, _⟩
      exact hn.1 hb
    refine ⟨fun b hb => ?_, ?_⟩
    · rw [List.foldl_cons, g.1 b hb, h.2.2.1]
      by_cases hm : b ∈ l
      · rw [same b hm]
        have : b ∈ a :: l := List.mem_cons_of_mem _ hm
        simp only [hm, this, true_and]
      · rw [if_neg (by simp [hm]), h.1 b hb]
        by_cases hba : b = a
        · subst hba; simp
        · rw [if_neg (by simp [hba]), if_neg (by simp [hba, hm])]
    · rw [List.foldl_cons, g.2, h.2.1, h.2.2.1]
      have : (l.filter fun b => ((s.rampStep c a).array c b).on s.now = 1) = l.filter fun b => (s.array c b).on s.now = 1 :=
        List.filter_congr fun b hb => by rw [same b hb]
      rw [this, List.filter_cons]
      by_cases h1 : (s.array c a).on s.now = 1
      · rw [if_pos h1, if_pos (by simp [h1]), List.length_cons, min_sat, Nat.add_comm 1]
      · rw [if_neg h1, if_neg (by simp [h1]), min_sat, Nat.zero_add]

theorem arrayRampDown_spec (s : State) (i : s.Inv) (c pc busy : Nat) (hp : s.physCore c = pc)
    (hb : busy = if (s.inSlot c 2).isSome then s.fd (Rg.CORE_ARR_STATE_ACTIVE pc) else 0) :
    ∃ t, exec (.arrayRampDown c) s = .next t ∧
      (∀ a < s.var.arrays, t.array pc a =
        if bitOf busy a = false ∧ (s.array pc a).on s.now ≠ 0 then (s.array pc a).rampStep s.now else s.array pc a) ∧
      t.fd (Rg.CORE_ARR_RAMP_RAMP_DOWNS pc) = min (s.fd (Rg.CORE_ARR_RAMP_RAMP_DOWNS pc) +
        ((List.range s.var.arrays).filter fun a => !bitOf busy a && (s.array pc a).on s.now == 1).length) 4294967295 := by
  refine ⟨_, rfl, ?_⟩
  subst hp hb
  unfold State.rampDown
  dsimp only
  generalize s.physCore c = pc
  generalize (if (s.inSlot c 2).isSome = true then s.fd (Rg.CORE_ARR_STATE_ACTIVE pc) else 0) = busy
  have hv : s.var.arrays ≤ 4 := by cases s.var <;> decide
  generalize s.var.arrays = n at hv
  have h := State.rampSteps_shown pc ((List.range n).filter fun a => !bitOf busy a) (List.nodup_range.filter _)
    (fun a ha => Nat.lt_of_lt_of_le (List.mem_range.1 (List.mem_filter.1 ha).1) hv) i
  constructor
  · intro a ha
    rw [h.1 a (Nat.lt_of_lt_of_le ha hv)]
    have : a ∈ (List.range n).filter (fun a => !bitOf busy a) ↔ bitOf busy a = false := by simp [ha]
    simp only [this]
  · rw [h.2, List.filter_filter]
    simp only [Bool.and_comm, beq_eq_decide]

theorem mcastBlockRead_spec (s : State) (g : Nat) (x : Mcast) (h : s.mcasts[g]? = some x) (hm : x.members ≠ [])
    (hr : ∀ z ∈ x.members, z.blocks < 64) (hb : x.read < blocksOf x.len 32768) :
    ∃ t, exec (.mcastBlockRead g) s = .next t ∧
      t.mcasts = s.mcasts.set g { x with members := x.members.map fun z => { z with blocks := z.blocks + 1 }, read := x.read + 1 } := by
  refine ⟨_, rfl, ?_⟩
  unfold State.mcastRead
  rw [h]
  dsimp only
  rw [if_neg (by simp only [Bool.or_eq_true, List.isEmpty_iff, List.any_eq_true, decide_eq_true_eq, not_or, not_exists, not_and]; exact ⟨⟨hm, fun z hz => Nat.not_le.2 (hr z hz)⟩, Nat.not_le.2 hb⟩)]
  have k : s.Keeps 74450131340091392 (s.devRead x.part 0 (x.base + 32768 * x.read) (min 32768 (x.len - 32768 * x.read))).st :=
      State.devRead_keeps (by decide) (.refl _) _ _ _ _
  have e : (s.devRead x.part 0 (x.base + 32768 * x.read) (min 32768 (x.len - 32768 * x.read))).st.mcasts = s.mcasts := k.same
      .mcasts (by decide)
  generalize (s.devRead x.part 0 (x.base + 32768 * x.read) (min 32768 (x.len - 32768 * x.read))) = q at e
  have f : q.st.Keeps 74450131341074434 _ := keeps_foldl (f := 
    fun (s : State) (z : Member) => if q.code ≠ 0 then z.tasks.foldl (fun s t => s.taskStatus t stUncorr 0) s
        else (s.ringLand x.part z.core x.read (x.base + 32768 * x.read) q).bump (Rg.CORE_MCAST_BLOCKS (s.physCore z.core)))
      x.members (.refl q.st) fun v z hv => by
    split
    · exact keeps_foldl _ hv fun w y hw => State.taskStatus_keeps (by decide) hw _ _ _
    · exact State.bump_keeps (Rg.CORE_MCAST_BLOCKS_in _) (by decide) (State.ringLand_keeps (by decide) hv _ _ _ _ (.refl q.st)) _
  exact congrArg (fun l : List Mcast => l.set g _) ((show _ = _ from f.same .mcasts (by decide)).trans e)

/-! ### Completion (01 R30; R337, R341) -/

theorem State.Gone.of_eq {s t : State} {n : Nat} (h : s.Gone n) (e : t.tasks = s.tasks) : t.Gone n := by unfold State.Gone; rw [e]; exact h

theorem State.Gone.mod {s : State} {n : Nat} (h : s.Gone n) (t : Nat) {f : Task → Task} (hf : ∀ k, (f k).id = k.id) : (s.modTask t
    f).Gone n := by
  intro k hk
  obtain ⟨j, hj, rfl⟩ := List.mem_map.1 (show k ∈ s.tasks.map fun k => if k.id == t then f k else k from hk)
  split
  · rw [hf]; exact h j hj
  · exact h j hj

theorem State.Gone.none {s : State} {n : Nat} (h : s.Gone n) : s.task? n = none :=
  List.find?_eq_none.2 fun k hk => by simpa using h k hk

theorem State.settleWaits_gone (key n : Nat) : ∀ (m : Nat) (s : State), s.Gone n → (State.settleWaits key m s).Gone n := by
  intro m
  induction m with
  | zero => intro s h; exact h
  | succ m ih =>
    intro s h
    unfold State.settleWaits
    split
    · exact h
    · dsimp only
      split
      · exact h
      · exact ih _ (State.Gone.mod (h.of_eq rfl) _ fun _ => rfl)

theorem State.triggerUp_gone {s : State} {n : Nat} (h : s.Gone n) (p c : Nat) : (s.triggerUp p c).Gone n :=
  State.settleWaits_gone _ n _ _ (h.of_eq rfl)

theorem State.portFinish_gone {s : State} {n : Nat} (h : s.Gone n) (k : Task) : (s.portFinish k).Gone n := by
  unfold State.portFinish
  extract_lets p u v
  have eu : u.tasks = s.tasks := foldl_keep (P := fun x : State => x.tasks = s.tasks) _ (fun x b hx => by
    have kx : x.Keeps 218565388135489536 (x.expEnd b) := State.expEnd_keeps (by decide) (.refl _) _
    exact (show _ = _ from kx.same .tasks (by decide)).trans hx) rfl
  have ev : v.tasks = u.tasks := by
    simp only [v]
    split <;> rfl
  have hv : v.Gone n := h.of_eq (ev.trans eu)
  clear_value v
  split
  · exact State.triggerUp_gone hv _ _
  · exact hv

theorem State.finishTask_gone {s : State} {n : Nat} {k : Task} (h : s.task? n = some k) : (s.finishTask n).Gone n := by
  unfold State.finishTask
  rw [h]
  have key (u v : State) (k' : Task) (core : Nat) : let w : State := { v.freeNext with tasks := v.freeNext.tasks.filter fun x => x.id != n }
      let x := w.portFinish k'
      let y := x.completeNode k'.part k'.tag k'.node k'.status k'.sub 0 core (x.now - k'.issuedAt)
      (y.afterNode k'.part k'.tag).Gone n := by
    intro w x y
    have hw : w.Gone n := by
      intro z hz
      have := (List.mem_filter.1 hz).2
      simpa using this
    have hx : x.Gone n := State.portFinish_gone hw k'
    clear_value w x
    have ky : x.Keeps 78954555601182726 y := State.completeNode_keeps (by decide) (.refl _) _ _ _ _ _ _ _ _
    clear_value y
    have kz : y.Keeps 78989791546437639 (y.afterNode k'.part k'.tag) := State.afterNode_keeps (by decide) (.refl _) _ _
    exact (hx.of_eq (ky.same .tasks (by decide))).of_eq (kz.same .tasks (by decide))
  exact key ((s.settlePages k).tlbDropAll n) _ _ _

theorem taskComplete_spec (s : State) (n : Nat) (k : Task) (h : s.task? n = some k) :
    ∃ t, exec (.taskComplete n) s = .next t ∧ (k.mayFinish = true → t.task? n = none) ∧ (k.mayFinish = false → t = s) := by
  refine ⟨_, rfl, ?_⟩
  rw [h]
  dsimp only
  constructor
  · intro hm; rw [if_pos hm]; exact (State.finishTask_gone h).none
  · intro hm; rw [if_neg (by simp [hm])]

theorem ctlDone_spec (s : State) (i : s.Inv) (p : Nat) (v : W64) (c st : Nat) (hc : bitsOf v.toNat 0 32 = c) (hs : bitsOf v.toNat
    32 8 = st) :
    ∃ t, exec (.ctlDone p v) s = .next t ∧
      (s.ctlTask p c = none → t.fd (Rg.DSP_EVENTS_CTL_STRAY p) = min (s.fd (Rg.DSP_EVENTS_CTL_STRAY p) + 1) 1023) ∧
      (∀ k, s.ctlTask p c = some k → ctlStatusOk st = true → st ≠ stUncorr → t.task? k.id = none) := by
  refine ⟨_, rfl, ?_⟩
  unfold State.ctlDone
  dsimp only
  rw [hc, hs]
  constructor
  · intro h; rw [h]; exact State.fd_bump_self i _ _ (Nat.le_of_ble_eq_true rfl)
  · intro k h hk hu
    rw [h]
    dsimp only
    rw [if_neg (by simp [hk]), if_neg hu]
    have m : k ∈ s.tasks := List.mem_of_find?_eq_some h
    have ex : ∀ f : Task → Task, (∀ k, (f k).id = k.id) → ∃ j, (s.modTask k.id f).task? k.id = some j := by
      intro f hf
      have : ((s.modTask k.id f).task? k.id).isSome := by
        rw [State.task?, List.find?_isSome]
        exact ⟨f k, List.mem_map.2 ⟨k, m, by simp⟩, by simp [hf]⟩
      exact Option.isSome_iff_exists.1 this
    obtain ⟨j, hj⟩ := ex (fun k => { k with status := st, sub := bitsOf v.toNat 40 8, computed := true, parts := k.parts.map fun x => { x with done := true } }) fun _ => rfl
    exact (State.finishTask_gone hj).none

/-! ### Rings and pools (R335, R339, R340) -/

theorem State.ringWrite_fd {s : State} (i : s.Inv) (p : Nat) (r : Ring) (b : Bytes) {f : RF} (hf : RegBlock.dsp.has f.addr)
    (h1 : f.apart r.tail) (h2 : f.apart r.irq) : (s.ringWrite p r b).Inv ∧ (s.ringWrite p r b).fd f = s.fd f := by
  unfold State.ringWrite
  dsimp only
  have k : s.Keeps 74450131340091398 (s.recWrite p (s.fd r.base + r.size * (s.fd r.tail % 2 ^ s.fd r.log2)) b).st :=
      State.recWrite_keeps (by decide) (.refl _) _ _ _
  generalize (s.recWrite p (s.fd r.base + r.size * (s.fd r.tail % 2 ^ s.fd r.log2)) b).st = u at k
  have iu := k.inv i
  have iv := State.setF_inv iu r.tail (s.fd r.tail + 1)
  refine ⟨State.raise_inv iv _, ?_⟩
  rw [State.fd_raise_apart iv _ _ h2, State.fd_setF_apart iu _ _ _ h1, k.fd i hf (by decide) (by decide)]

theorem State.ringDrain_fd (p : Nat) (r : Ring) {f : RF} (hf : RegBlock.dsp.has f.addr) (h1 : f.apart r.tail) (h2 : f.apart r.irq) :
    ∀ (l : List Bytes) (s : State), s.Inv → (State.ringDrain p r l s).2.Inv ∧ (State.ringDrain p r l s).2.fd f = s.fd f := by
  intro l
  induction l with
  | nil => intro s i; exact ⟨i, rfl⟩
  | cons b l ih =>
    intro s i
    unfold State.ringDrain
    split
    · exact ⟨i, rfl⟩
    · have w := State.ringWrite_fd i p r b hf h1 h2
      have d := ih _ w.1
      exact ⟨d.1, d.2.trans w.2⟩

theorem cringHeadWrite_spec (s : State) (i : s.Inv) (p : Nat) (v : W64) :
    ∃ t, exec (.cringHeadWrite p v) s = .next t ∧ t.fd (Rg.DSP_CRING_HEAD_HEAD p) = v.toNat % 4294967296 ∧
      (t.part p).cringHold = (State.ringDrain p (cring p) (s.part p).cringHold (s.setF (Rg.DSP_CRING_HEAD_HEAD p) v.toNat)).1 := by
  refine ⟨_, rfl, ?_⟩
  unfold State.cringHead
  dsimp only
  have i1 := State.setF_inv i (Rg.DSP_CRING_HEAD_HEAD p) v.toNat
  have f1 := State.fd_setF_self i (Rg.DSP_CRING_HEAD_HEAD p) v.toNat (Nat.le_of_ble_eq_true rfl)
  rw [State.setF_part]
  generalize s.setF (Rg.DSP_CRING_HEAD_HEAD p) v.toNat = u at i1 f1
  have d := State.ringDrain_fd p (cring p) (f := Rg.DSP_CRING_HEAD_HEAD p) (Rg.DSP_CRING_HEAD_in p)
      (.inl (by simp only [Rg.DSP_CRING_HEAD_HEAD, Rg.DSP_CRING_HEAD, cring, Rg.DSP_CRING_TAIL_TAIL, Rg.DSP_CRING_TAIL]; omega))
      (.inl (by simp only [Rg.DSP_CRING_HEAD_HEAD, Rg.DSP_CRING_HEAD, cring, Rg.DSP_IRQ_RECORD, Rg.DSP_IRQ]; omega)) (s.part
      p).cringHold u i1
  constructor
  · split
    · have im : ((State.ringDrain p (cring p) (s.part p).cringHold u).2.modPart p fun q => { q with cringHold := (State.ringDrain p (cring p) (s.part p).cringHold u).1 }).Inv :=
        State.modPart_inv d.1 _ _
      exact ((State.reloadAtStepEnd_keeps (M := 35510789607424) rfl (.refl _) p).fd im (Rg.DSP_CRING_HEAD_in p) (by decide) (by
          decide)).trans ((State.modPart_fd ..).trans (d.2.trans f1))
    · exact (State.modPart_fd ..).trans (d.2.trans f1)
  · split
    · refine ((State.reloadAtStepEnd_keeps (M := 35510789607424) rfl (.refl _) p).same .holds (by decide) p).1.trans ?_
      rw [State.part_modPart_self]
    · rw [State.part_modPart_self]

theorem cbHeadWrite_spec (s : State) (i : s.Inv) (p : Nat) (v : W64) :
    ∃ t, exec (.cbHeadWrite p v) s = .next t ∧ t.fd (Rg.DSP_CB_HEAD_HEAD p) = v.toNat % 4294967296 ∧
      (t.part p).cbHold = (State.ringDrain p (cbring p) (s.part p).cbHold (s.setF (Rg.DSP_CB_HEAD_HEAD p) v.toNat)).1 := by
  refine ⟨_, rfl, ?_⟩
  unfold State.cbHead
  dsimp only
  have i1 := State.setF_inv i (Rg.DSP_CB_HEAD_HEAD p) v.toNat
  have f1 := State.fd_setF_self i (Rg.DSP_CB_HEAD_HEAD p) v.toNat (Nat.le_of_ble_eq_true rfl)
  rw [State.setF_part]
  generalize s.setF (Rg.DSP_CB_HEAD_HEAD p) v.toNat = u at i1 f1
  have d := State.ringDrain_fd p (cbring p) (f := Rg.DSP_CB_HEAD_HEAD p) (Rg.DSP_CB_HEAD_in p)
      (.inl (by simp only [Rg.DSP_CB_HEAD_HEAD, Rg.DSP_CB_HEAD, cbring, Rg.DSP_CB_TAIL_TAIL, Rg.DSP_CB_TAIL]; omega))
      (.inl (by simp only [Rg.DSP_CB_HEAD_HEAD, Rg.DSP_CB_HEAD, cbring, Rg.DSP_IRQ_CALLBACK, Rg.DSP_IRQ]; omega)) (s.part
      p).cbHold u i1
  constructor
  · exact (State.modPart_fd ..).trans (d.2.trans f1)
  · rw [State.part_modPart_self]

theorem poolRecompute_spec (s : State) (p : Nat) (h : s.defined p = true) (bp bs c : Nat) (h0 : s.poolTokens p 0 = bp) (h1 :
    s.poolTokens p 1 = bs)
    (hc : (s.onCores p).length = c) :
    ∃ t, exec (.poolRecompute p) s = .next t ∧ (t.poolCores p 0).length =
      min (min (max (if 0 < bp + bs then roundDiv (c * bp) (bp + bs) else (s.part p).poolT) (s.cfg p 164 2)) (s.cfg p 166 2)) c :=
          by
  refine ⟨_, rfl, ?_⟩
  rw [if_pos h]
  unfold State.recomputePool
  subst h0 h1 hc
  dsimp only
  generalize min (max _ (s.cfg p 164 2)) (s.cfg p 166 2) = n
  have e : (s.modPart p fun q => { q with poolT := n }).onCores p = s.onCores p := by
    have ec : (s.modPart p fun q => { q with poolT := n }).coresOf p = s.coresOf p := by
      unfold State.coresOf State.coresBits State.cfg State.cfgB
      rw [State.part_modPart_self]
    unfold State.onCores
    rw [ec]
    rfl
  unfold State.poolCores
  rw [State.part_modPart_self, e]
  simp only [if_true, List.length_take]

end Sys2Proof.Machine
end

