-- ==== Sys2Proof/Laws/MemBytes.lean ====
section
/-!
SUPPORT. What a write does to each byte of a memory (09_memory.md R290, R296): the bytes written read back, every other byte is as
    before.
-/
namespace Sys2Proof.Machine

theorem find_of_mem {α : Type} (d : Nat → α) {m : SMap α} (r : Rising m) {k : Nat} {v : α} (h : (k, v) ∈ m) : find d m k = v := by
  induction m with
  | nil => cases h
  | cons x t ih =>
    obtain ⟨hx, ht⟩ := List.pairwise_cons.1 r
    rcases List.mem_cons.1 h with h | h
    · subst h; simp [find]
    · have := hx _ h
      simp [find, Nat.ne_of_gt this, Nat.not_lt.2 (Nat.le_of_lt this), ih ht h]

theorem find_of_not_mem {α : Type} (d : Nat → α) {m : SMap α} {k : Nat} (h : ∀ v, (k, v) ∉ m) : find d m k = d k := by
  induction m with
  | nil => rfl
  | cons x t ih =>
    have h1 : k ≠ x.1 := fun e => h x.2 (by rw [e]; exact List.mem_cons_self)
    unfold find
    rw [if_neg h1]
    split
    · rfl
    · exact ih fun v hv => h v (List.mem_cons_of_mem _ hv)

/-- Two maps with the same entries at a key read the same there. -/
theorem find_same {α : Type} (d : Nat → α) {m n : SMap α} (rm : Rising m) (rn : Rising n) {k : Nat} (h : ∀ v, (k, v) ∈ m ↔ (k, v)
    ∈ n) :
    find d m k = find d n k := by
  by_cases e : ∃ v, (k, v) ∈ m
  · obtain ⟨v, hv⟩ := e
    rw [find_of_mem d rm hv, find_of_mem d rn ((h v).1 hv)]
  · rw [find_of_not_mem d fun v hv => e ⟨v, hv⟩, find_of_not_mem d fun v hv => e ⟨v, (h v).2 hv⟩]

/-- One byte of a memory. -/
theorem readBytes_eq {m : List Host.Cell} (r : Rising m) (a n : Nat) : readBytes m a n = (List.range n).map fun i => find
    unwritten m (a + i) := by
  unfold readBytes
  refine List.map_congr_left fun i hi => ?_
  have hi := List.mem_range.1 hi
  refine find_same _ (r.sublist List.filter_sublist) r fun v => ?_
  rw [List.mem_filter]
  exact ⟨fun h => h.1, fun h => ⟨h, by simp; omega⟩⟩

theorem mem_cellsOf {bs : Bytes} : ∀ {a x : Nat} {v : Byte}, (x, v) ∈ cellsOf a bs ↔ a ≤ x ∧ bs[x - a]? = some v ∧ v ≠ unwritten x
    := by
  induction bs with
  | nil => intro a x v; simp [cellsOf]
  | cons b t ih =>
    intro a x v
    have key : (x, v) ∈ cellsOf (a + 1) t ↔ a < x ∧ (b :: t)[x - a]? = some v ∧ v ≠ unwritten x := by
      rw [ih]
      constructor
      · rintro ⟨h1, h2, h3⟩
        refine ⟨h1, ?_, h3⟩
        rw [show x - a = (x - (a + 1)) + 1 by omega]
        exact h2
      · rintro ⟨h1, h2, h3⟩
        refine ⟨h1, ?_, h3⟩
        rw [show x - a = (x - (a + 1)) + 1 by omega] at h2
        exact h2
    unfold cellsOf
    split
    · rename_i hb
      rw [key]
      constructor
      · rintro ⟨h1, h2⟩; exact ⟨Nat.le_of_lt h1, h2⟩
      · rintro ⟨h1, h2, h3⟩
        refine ⟨?_, h2, h3⟩
        rcases Nat.lt_or_eq_of_le h1 with h | h
        · exact h
        · subst h
          simp at h2
          exact absurd (h2 ▸ hb) h3
    · rename_i hb
      rw [List.mem_cons, key]
      constructor
      · rintro (h | h)
        · cases h
          exact ⟨Nat.le_refl _, by simp, hb⟩
        · exact ⟨Nat.le_of_lt h.1, h.2⟩
      · rintro ⟨h1, h2, h3⟩
        rcases Nat.lt_or_eq_of_le h1 with h | h
        · exact .inr ⟨h, h2, h3⟩
        · subst h
          simp at h2
          exact .inl (by rw [h2])

/-- Every byte after a write: the bytes written, and elsewhere what was there. -/
theorem find_putBytes {m : List Host.Cell} (c : Canon unwritten m) (a x : Nat) (bs : Bytes) :
    find unwritten (putBytes m a bs) x = if a ≤ x ∧ x < a + bs.length then bs.getD (x - a) 0 else find unwritten m x := by
  have rp := (canon_putBytes c a bs).1
  have mm : ∀ v, (x, v) ∈ putBytes m a bs ↔ ((x, v) ∈ m ∧ x < a) ∨ (x, v) ∈ cellsOf a bs ∨ ((x, v) ∈ m ∧ a + bs.length ≤ x) := by
    intro v
    unfold putBytes
    simp only [List.mem_append, List.mem_filter, decide_eq_true_eq, or_assoc]
  split
  · rename_i h
    have e : bs[x - a]? = some (bs.getD (x - a) 0) := by
      rw [List.getD_eq_getElem?_getD, List.getElem?_eq_getElem (by omega)]; rfl
    by_cases hv : bs.getD (x - a) 0 = unwritten x
    · rw [hv]
      refine find_of_not_mem _ fun v hm => ?_
      rcases (mm v).1 hm with h1 | h1 | h1
      · omega
      · have := mem_cellsOf.1 h1
        rw [e] at this
        exact this.2.2 (by rw [← hv]; exact (Option.some.inj this.2.1).symm)
      · omega
    · exact find_of_mem _ rp ((mm _).2 (.inr (.inl (mem_cellsOf.2 ⟨h.1, e, hv⟩))))
  · rename_i h
    refine find_same _ rp c.1 fun v => ?_
    rw [mm]
    constructor
    · rintro (h1 | h1 | h1)
      · exact h1.1
      · have := mem_cellsOf.1 h1
        have hl : x - a < bs.length := by
          rcases Nat.lt_or_ge (x - a) bs.length with g | g
          · exact g
          · rw [List.getElem?_eq_none g] at this; cases this.2.1
        omega
      · exact h1.1
    · intro hm
      by_cases g : x < a
      · exact .inl ⟨hm, g⟩
      · exact .inr (.inr ⟨hm, by omega⟩)

theorem readBytes_length (m : List Host.Cell) (a n : Nat) : (readBytes m a n).length = n := by simp [readBytes]

theorem readBytes_getD {m : List Host.Cell} (r : Rising m) (a n i : Nat) (h : i < n) : (readBytes m a n).getD i 0 = find unwritten
    m (a + i) := by
  rw [readBytes_eq r, List.getD_eq_getElem?_getD, List.getElem?_map, List.getElem?_range h]
  rfl

/-! ### Lines -/

theorem State.noteLine_mem (s : State) (tag src l c : Nat) : (s.noteLine tag src l c).mem = s.mem ∧
    (s.noteLine tag src l c).ecc.flips = s.ecc.flips ∧ (s.noteLine tag src l c).ecc.poison = s.ecc.poison ∧ (s.noteLine tag src l
        c).ecc.scrubNext = s.ecc.scrubNext ∧
    (s.noteLine tag src l c).now = s.now := by
  have bm (u : State) (f : RF) : (u.bump f).mem = u.mem ∧ (u.bump f).ecc = u.ecc ∧ (u.bump f).now = u.now := ⟨State.bump_mem ..,
      State.bump_ecc .., State.bump_now ..⟩
  have ma (u : State) (a b c d : Nat) (e : Bool) : (u.memAdd a b c d e).mem = u.mem ∧ (u.memAdd a b c d e).ecc = u.ecc ∧ (u.memAdd
      a b c d e).now = u.now := by
    unfold State.memAdd; dsimp only; repeat' split
    all_goals exact ⟨rfl, rfl, rfl⟩
  have fa (u : State) (a b c d e : Nat) (f : Bool) (g : Nat) : (u.fltAdd a b c d e f g).mem = u.mem ∧ (u.fltAdd a b c d e f g).ecc
      = u.ecc ∧ (u.fltAdd a b c d e f g).now = u.now := by
    unfold State.fltAdd; split <;> exact ⟨rfl, rfl, rfl⟩
  let Q (u : State) : Prop := u.mem = s.mem ∧ u.ecc = s.ecc ∧ u.now = s.now
  have qb (u : State) (f : RF) (h : Q u) : Q (u.bump f) := ⟨(bm u f).1.trans h.1, (bm u f).2.1.trans h.2.1, (bm u f).2.2.trans
      h.2.2⟩
  unfold State.noteLine
  split
  · exact ⟨rfl, rfl, rfl, rfl, rfl⟩
  extract_lets sram corr pois s1 s2 s3 s4 s5 s6
  have h1 : Q s1 := by simp only [s1]; split; exact qb _ _ (qb _ _ ⟨rfl, rfl, rfl⟩); exact ⟨rfl, rfl, rfl⟩
  have h2 : Q s2 := by simp only [s2]; split; exact qb _ _ (qb _ _ h1); exact h1
  have h3 : Q s3 := by simp only [s3]; split; exact qb _ _ h2; exact h2
  have h4 : Q s4 := by
    simp only [s4]; split
    · split; exact qb _ _ h3; exact h3
    · exact h2
  have h5 : Q s5 := ⟨(ma ..).1.trans h4.1, (ma ..).2.1.trans h4.2.1, (ma ..).2.2.trans h4.2.2⟩
  have h6 : Q s6 := by
    simp only [s6]; split
    · exact ⟨(fa ..).1.trans h5.1, (fa ..).2.1.trans h5.2.1, (fa ..).2.2.trans h5.2.2⟩
    · exact h5
  clear_value s6
  obtain ⟨m5, e5, n5⟩ := h6
  split
  · exact ⟨m5, by rw [← e5], by rw [← e5], by rw [← e5], n5⟩
  · exact ⟨m5, by rw [e5], by rw [e5], by rw [e5], n5⟩

theorem State.addReq_mem (s : State) (tag cls l : Nat) (w : Bool) : (s.addReq tag cls l w).mem = s.mem ∧ (s.addReq tag cls l
    w).ecc.flips = s.ecc.flips ∧
    (s.addReq tag cls l w).ecc.poison = s.ecc.poison := by
  unfold State.addReq
  dsimp only
  repeat' split
  all_goals first | exact ⟨rfl, rfl, rfl⟩ | (simp only [State.bump_mem, State.bump_ecc]; exact ⟨rfl, rfl, rfl⟩)

theorem State.decodeLine_clean {s : State} (h : s.ecc.flips = []) (l : Nat) : (s.decodeLine l).2 = readBytes s.mem (l * 64) 64 := by
  unfold State.decodeLine State.flipsOf
  rw [h]
  rfl

/-- One line of a write, where no error symbol stands. -/
theorem State.writeLine_mem {s : State} (h : s.ecc.flips = []) (tag cls a : Nat) (bs : Bytes) (bad : Bool) (l : Nat) (c : Canon
    unwritten s.mem)
    (ho : a < l * 64 + 64 ∧ l * 64 < a + bs.length ∧ 0 < bs.length) :
    (s.writeLine tag cls a bs bad l).ecc.flips = [] ∧ Canon unwritten (s.writeLine tag cls a bs bad l).mem ∧
    ∀ x, find unwritten (s.writeLine tag cls a bs bad l).mem x =
      if (a ≤ x ∧ x < a + bs.length) ∧ x / 64 = l then bs.getD (x - a) 0 else find unwritten s.mem x := by
  have hlo : a ≤ max a (l * 64) ∧ l * 64 ≤ max a (l * 64) ∧ (max a (l * 64) = a ∨ max a (l * 64) = l * 64) := by omega
  have hhi : min (a + bs.length) (l * 64 + 64) ≤ a + bs.length ∧ min (a + bs.length) (l * 64 + 64) ≤ l * 64 + 64 ∧
    (min (a + bs.length) (l * 64 + 64) = a + bs.length ∨ min (a + bs.length) (l * 64 + 64) = l * 64 + 64) := by omega
  unfold State.writeLine
  dsimp only
  generalize max a (l * 64) = lo at hlo
  generalize min (a + bs.length) (l * 64 + 64) = hi at hhi
  have hlt : lo < hi := by omega
  have lp : ((bs.drop (lo - a)).take (hi - lo)).length = hi - lo := by rw [List.length_take, List.length_drop]; omega
  have gp : ∀ x, lo ≤ x → x < hi → ((bs.drop (lo - a)).take (hi - lo)).getD (x - lo) 0 = bs.getD (x - a) 0 := by
    intro x h1 h2
    rw [List.getD_eq_getElem?_getD, List.getElem?_take, if_pos (by omega), List.getElem?_drop, show lo - a + (x - lo) = x - a by
        omega, ← List.getD_eq_getElem?_getD]
  generalize (bs.drop (lo - a)).take (hi - lo) = piece at lp gp
  split
  · rename_i hf
    have e := State.addReq_mem (s.storeLine l piece bad) tag cls l true
    rw [e.1, e.2.1]
    refine ⟨by show List.filter _ s.ecc.flips = []; rw [h]; rfl, canon_putBytes c _ _, fun x => ?_⟩
    show find unwritten (putBytes s.mem (l * 64) piece) x = _
    rw [find_putBytes c, lp, hf]
    have h1 : lo = l * 64 := by omega
    by_cases hx : l * 64 ≤ x ∧ x < l * 64 + 64
    · rw [if_pos hx, if_pos (by omega), ← gp x (by omega) (by omega), h1]
    · rw [if_neg hx, if_neg (by omega)]
  · rename_i hf
    have n := State.noteLine_mem s tag 2 l (s.decodeLine l).1
    have ec := State.decodeLine_clean h l
    generalize s.decodeLine l = dl at n ec
    generalize s.noteLine tag 2 l dl.1 = u at n
    have b : (if lineSram l then u else u.bump (Rg.MEM_CH_ECC_RMW (u.channelOf l))).mem = s.mem ∧
        (if lineSram l then u else u.bump (Rg.MEM_CH_ECC_RMW (u.channelOf l))).ecc.flips = [] := by
      split
      · exact ⟨n.1, n.2.1.trans h⟩
      · rw [State.bump_mem, State.bump_ecc]; exact ⟨n.1, n.2.1.trans h⟩
    generalize (if lineSram l then u else u.bump (Rg.MEM_CH_ECC_RMW (u.channelOf l))) = w at b
    have e1 := State.addReq_mem (w.storeLine l (dl.2.take (lo - l * 64) ++ piece ++ dl.2.drop (hi - l * 64)) (bad || decide (5 ≤
        dl.1))) tag 1 l false
    have e2 := State.addReq_mem ((w.storeLine l (dl.2.take (lo - l * 64) ++ piece ++ dl.2.drop (hi - l * 64)) (bad || decide (5 ≤
        dl.1))).addReq tag 1 l false) tag 1 l true
    rw [e2.1, e2.2.1, e1.1, e1.2.1]
    refine ⟨by show List.filter _ w.ecc.flips = []; rw [b.2]; rfl, by show Canon unwritten (putBytes w.mem _ _); rw [b.1]; exact canon_putBytes c _ _, fun x => ?_⟩
    show find unwritten (putBytes w.mem (l * 64) _) x = _
    rw [b.1, find_putBytes c]
    have ld : (dl.2).length = 64 := by rw [ec, readBytes_length]
    have ll : (dl.2.take (lo - l * 64) ++ piece ++ dl.2.drop (hi - l * 64)).length = 64 := by
      simp only [List.length_append, List.length_take, List.length_drop, lp, ld]; omega
    rw [ll]
    by_cases hx : l * 64 ≤ x ∧ x < l * 64 + 64
    · rw [if_pos hx]
      have l1 : (dl.2.take (lo - l * 64)).length = lo - l * 64 := by rw [List.length_take, ld]; omega
      have old : ∀ j, j < 64 → dl.2.getD j 0 = find unwritten s.mem (l * 64 + j) := fun j hj => by rw [ec]; exact readBytes_getD c.1 _ _ _ hj
      by_cases h1 : x < lo
      · rw [if_neg (by omega), List.append_assoc, List.getD_append _ _ _ _ (by rw [l1]; omega), List.getD_eq_getElem?_getD, List.getElem?_take, if_pos (by omega), ← List.getD_eq_getElem?_getD, old _ (by omega)]
        congr 1; omega
      · by_cases h2 : x < hi
        · rw [if_pos (by omega), List.append_assoc, List.getD_append_right _ _ _ _ (by rw [l1]; omega), l1, List.getD_append _ _ _ _ (by rw [lp]; omega), show x - l * 64 - (lo - l * 64) = x - lo by omega]
          exact gp x (by omega) h2
        · rw [if_neg (by omega), List.getD_append_right _ _ _ _ (by rw [List.length_append, l1, lp]; omega), List.length_append, l1, lp, List.getD_eq_getElem?_getD, List.getElem?_drop, ← List.getD_eq_getElem?_getD, old _ (by omega)]
          congr 1; omega
    · rw [if_neg hx, if_neg (by omega)]

theorem linesOf_mem (a n l : Nat) : l ∈ linesOf a n ↔ a < l * 64 + 64 ∧ l * 64 < a + n ∧ 0 < n := by
  unfold linesOf
  split
  · rename_i h; subst h; simp
  · simp only [List.mem_map, List.mem_range]
    constructor
    · rintro ⟨i, h1, h2⟩; omega
    · rintro ⟨h1, h2, h3⟩; exact ⟨l - a / 64, by omega, by omega⟩

/-- Every byte after a write to bonded SRAM or LPDDR5X while no error symbol stands: the bytes written read back, every other byte
    is as
before (R290, R296). -/
theorem State.ramWrite_mem {s : State} (h : s.ecc.flips = []) (c : Canon unwritten s.mem) (tag cls a : Nat) (bs : Bytes) (bad :
    Bool) :
    ∀ x, find unwritten (s.ramWrite tag cls a bs bad).mem x = if a ≤ x ∧ x < a + bs.length then bs.getD (x - a) 0 else find
        unwritten s.mem x := by
  have key : ∀ (L : List Nat) (u : State), u.ecc.flips = [] → Canon unwritten u.mem → (∀ l ∈ L, a < l * 64 + 64 ∧ l * 64 < a +
      bs.length ∧ 0 < bs.length) →
      ∀ x, find unwritten (L.foldl (fun s l => s.writeLine tag cls a bs bad l) u).mem x =
        if (a ≤ x ∧ x < a + bs.length) ∧ x / 64 ∈ L then bs.getD (x - a) 0 else find unwritten u.mem x := by
    intro L
    induction L with
    | nil => intro u _ _ _ x; simp
    | cons l t ih =>
      intro u hu cu hl x
      have k := State.writeLine_mem hu tag cls a bs bad l cu (hl l List.mem_cons_self)
      rw [List.foldl_cons, ih _ k.1 k.2.1 (fun y hy => hl y (List.mem_cons_of_mem _ hy)) x, k.2.2 x]
      by_cases h1 : a ≤ x ∧ x < a + bs.length
      · by_cases h2 : x / 64 ∈ t
        · rw [if_pos ⟨h1, h2⟩, if_pos ⟨h1, List.mem_cons_of_mem _ h2⟩]
        · rw [if_neg (fun g => h2 g.2)]
          by_cases h3 : x / 64 = l
          · rw [if_pos ⟨h1, h3⟩, if_pos ⟨h1, h3 ▸ List.mem_cons_self⟩]
          · rw [if_neg (fun g => h3 g.2), if_neg (fun g => by rcases List.mem_cons.1 g.2 with g | g; exact h3 g; exact h2 g)]
      · rw [if_neg (fun g => h1 g.1), if_neg (fun g => h1 g.1), if_neg (fun g => h1 g.1)]
  intro x
  unfold State.ramWrite
  rw [key _ s h c (fun l hl => (linesOf_mem a bs.length l).1 hl) x]
  by_cases h1 : a ≤ x ∧ x < a + bs.length
  · rw [if_pos ⟨h1, (linesOf_mem _ _ _).2 (by omega)⟩, if_pos h1]
  · rw [if_neg (fun g => h1 g.1), if_neg h1]

/-- A line stored whole (R298, R302). -/
theorem State.storeLine_shown {s : State} (i : s.Inv) (l : Nat) {d : Bytes} (hd : d.length = 64) (bad : Bool) :
    (∀ x, find unwritten (s.storeLine l d bad).mem x = if x / 64 = l then d.getD (x % 64) 0 else find unwritten s.mem x) ∧
    (∀ y, y ∈ (s.storeLine l d bad).ecc.poison ↔ if y = l then bad = true else y ∈ s.ecc.poison) ∧ (s.storeLine l d bad).flipsOf l
        = [] ∧
    (s.storeLine l d bad).Inv := by
  refine ⟨fun x => ?_, fun y => ?_, ?_, ⟨i.regs, canon_putBytes i.mem _ _, i.hostMem, i.fltLog, i.memLog⟩⟩
  · show find unwritten (putBytes s.mem (l * 64) d) x = _
    rw [find_putBytes i.mem, hd]
    by_cases h : x / 64 = l
    · rw [if_pos (by omega), if_pos h]; congr 1; omega
    · rw [if_neg (by omega), if_neg h]
  · unfold State.storeLine State.settleLine
    dsimp only
    cases bad with
    | true =>
      simp only [if_true]
      by_cases hc : s.ecc.poison.contains l = true
      · rw [if_pos hc]
        by_cases h : y = l
        · subst h; simpa using hc
        · simp [h]
      · rw [if_neg hc]
        by_cases h : y = l
        · subst h; simp
        · simp [h]
    | false =>
      by_cases h : y = l
      · subst h; simp
      · simp [h]
  · unfold State.flipsOf State.storeLine State.settleLine
    simp [List.filter_filter]

theorem xorSyms_length (e : List (Nat × Nat)) : ∀ d : Bytes, (xorSyms d e).length = d.length := by
  induction e with
  | nil => intro d; rfl
  | cons x t ih =>
    intro d
    show (xorSyms (d.modify x.1 fun b => b ^^^ BitVec.ofNat 8 x.2) t).length = _
    rw [ih, List.length_modify]

theorem State.decodeLine_length (s : State) (l : Nat) : (s.decodeLine l).2.length = 64 := by
  unfold State.decodeLine
  dsimp only
  repeat' split
  all_goals simp only [xorSyms_length, readBytes_length]

end Sys2Proof.Machine
end

