-- ==== Sys2Proof/Laws/Reach.lean ====
section
/-!
SUPPORT. What an address reaches depends on the registers, the fuses, the latched map and the partitions only (09_memory.md R290,
    R291;
02_fabric_image.md R67 to R69).
-/
namespace Sys2Proof.Machine

theorem State.part_congr {s t : State} (hp : t.parts = s.parts) (p : Nat) : t.part p = s.part p := by unfold State.part; rw [hp]

theorem State.cfg_congr {s t : State} (hp : t.parts = s.parts) (p o n : Nat) : t.cfg p o n = s.cfg p o n := by
  unfold State.cfg State.cfgB; rw [State.part_congr hp]

theorem State.regionOwner_congr {s t : State} (hp : t.parts = s.parts) (g : Nat) : t.regionOwner g = s.regionOwner g := by
  unfold State.regionOwner State.regionBits
  simp only [State.cfg_congr hp]

theorem State.coreOwner_congr {s t : State} (hp : t.parts = s.parts) (g : Nat) : t.coreOwner g = s.coreOwner g := by
  unfold State.coreOwner State.coresBits
  simp only [State.cfg_congr hp]

theorem State.inFrameArea_congr {s t : State} (hp : t.parts = s.parts) (g a : Nat) : t.inFrameArea g a = s.inFrameArea g a := by
  unfold State.inFrameArea State.regionsOf State.regionBits
  rw [State.cfg_congr hp, State.part_congr hp]

theorem State.nCores_congr {s t : State} (hf : t.fuses = s.fuses) (hl : t.latched = s.latched) : t.nCores = s.nCores := by
  unfold State.nCores State.enabled State.var; rw [hf, hl]

theorem State.place_congr {s t : State} (hf : t.fuses = s.fuses) (hl : t.latched = s.latched) (a : Nat) : t.place a = s.place a :=
    by
  have hv : t.var = s.var := by unfold State.var; rw [hf]
  unfold State.place
  rw [hv, State.nCores_congr hf hl]

theorem State.mayReach_congr {s t : State} (hr : t.regs = s.regs) (hf : t.fuses = s.fuses) (hl : t.latched = s.latched) (hp :
    t.parts = s.parts)
    (tag a : Nat) : t.mayReach tag a = s.mayReach tag a := by
  have h1 : t.place a = s.place a := State.place_congr hf hl a
  have h2 := State.regionOwner_congr (s := s) (t := t) hp
  have h3 := State.coreOwner_congr (s := s) (t := t) hp
  have h4 := State.inFrameArea_congr (s := s) (t := t) hp
  have h5 : t.stageBytes tag = s.stageBytes tag := by unfold State.stageBytes; rw [State.cfg_congr hp]
  have h6 : t.wcacheBytes tag = s.wcacheBytes tag := by unfold State.wcacheBytes; rw [State.cfg_congr hp]
  have h7 := State.rd_of_regs hr
  simp only [State.mayReach, h1, h2, h3, h4, h5, h6, h7]

theorem State.badPoint_congr {s t : State} (hr : t.regs = s.regs) (hf : t.fuses = s.fuses) (hl : t.latched = s.latched) (hp :
    t.parts = s.parts)
    (tag a n : Nat) : t.badPoint tag a n = s.badPoint tag a n := by
  have e : (fun x => !t.mayReach tag x) = fun x => !s.mayReach tag x := funext fun x => by rw [State.mayReach_congr hr hf hl hp]
  simp only [State.badPoint, e]

end Sys2Proof.Machine
end

