-- ==== Sys2Proof/Laws/EffMem.lean ====
section
/-!
SUPPORT. What the Ostler's and the memory controllers' commands do (08_kv_pages.md R268, R286 to R289; 09_memory.md R299 to R306).
-/
namespace Sys2Proof.Machine

/-! ### Pages -/

/-- Reading after putting a value that is not the default. -/
theorem find_put_ne {α : Type} [DecidableEq α] (d : Nat → α) (m : SMap α) (k j : Nat) (v : α) (hv : v ≠ d k) :
    find d (put d m k v) j = if j = k then v else find d m j := by
  induction m with
  | nil =>
    simp only [put, if_neg hv]
    by_cases h : j = k
    · subst h; simp [find]
    · by_cases hl : j < k <;> simp [find, h, hl]
  | cons x t ih =>
    simp only [put, if_neg hv]
    by_cases h1 : k = x.1
    · rw [if_pos h1]
      by_cases h : j = k
      · subst h; simp [find]
      · have : j ≠ x.1 := h1 ▸ h
        subst h1
        simp [find, h]
    · rw [if_neg h1]
      by_cases h2 : k < x.1
      · rw [if_pos h2]
        by_cases h : j = k
        · subst h; simp [find]
        · by_cases hl : j < k
          · simp [find, h, hl, Nat.ne_of_lt (Nat.lt_trans hl h2), Nat.lt_trans hl h2]
          · simp [find, h, hl]
      · rw [if_neg h2]
        simp only [find, ih]
        by_cases h : j = k
        · subst h
          simp [h1, h2]
        · simp [h]

theorem State.pages_of_through (s : State) (i : Nat) : (s.entryThrough i).pages = s.pages := by
  have k : s.Keeps 74450131340025856 (s.entryThrough i) := State.entryThrough_keeps (by decide) (.refl _) i
  exact k.same .pages (by decide)

theorem State.putPage_pages (s : State) (i : Nat) (x : Page) :
    (s.putPage i x).pages = put (fun _ => Page.free) s.pages i (if x.state = 0 then Page.free else x) := by
  have b (u : State) (f : RF) : (u.bump f).pages = u.pages := by
    unfold State.bump; split <;> rfl
  unfold State.putPage
  dsimp only
  have e := State.pages_of_through { s with pages := put (fun _ => Page.free) s.pages i (if x.state = 0 then Page.free else x) } i
  generalize State.entryThrough { s with pages := put (fun _ => Page.free) s.pages i (if x.state = 0 then Page.free else x) } i = u at e
  split
  · rw [b]
    split
    · exact e
    · exact e
  · split
    · rw [b]; exact e
    · exact e

/-- Storing a page that is not FREE. -/
theorem State.page_putPage (s : State) (i j : Nat) {x : Page} (h : x.state ≠ 0) :
    (s.putPage i x).page j = if j = i then x else s.page j := by
  unfold State.page
  rw [State.putPage_pages, if_neg h]
  refine find_put_ne _ _ _ _ _ ?_
  rintro rfl
  exact h rfl

theorem Page.state_ref {x : Page} (h : x.ref ≠ 0) : x.state ≠ 0 := by
  unfold Page.state
  rw [if_neg h]
  repeat' split
  all_goals decide

theorem State.pageResult_shown {s : State} (i : s.Inv) (p c : Nat) : (s.pageResult p c).fd (Rg.LDG_PAGE_RESULT_RESULT p) = c % 256 ∧
    (s.pageResult p c).fd (Rg.LDG_PAGE_RESULT_COUNT p) = (s.fd (Rg.LDG_PAGE_RESULT_COUNT p) + 1) % 4294967296 ∧
    (s.pageResult p c).pages = s.pages := by
  unfold State.pageResult
  refine ⟨?_, ?_, rfl⟩
  · simp (disch := (first
            | decide | exact Nat.le_of_ble_eq_true rfl | exact RF.apart_bits rfl
            | (refine RF.apart_addr ?_; simp only [Rg.LDG_PAGE_RESULT_RESULT, Rg.LDG_PAGE_RESULT,
              Rg.LDG_PAGE_RESULT_COUNT]; omega)
            | (simp only [ne_eq, Rg.LDG_PAGE_RESULT_RESULT, Rg.LDG_PAGE_RESULT, Rg.LDG_PAGE_RESULT_COUNT]; omega)
            | simp (maxDischargeDepth := 40) [*])) [State.fd_incr_apart, State.fd_setF_self]
    rfl
  · simp (disch := (first
            | decide | exact Nat.le_of_ble_eq_true rfl | exact RF.apart_bits rfl
            | (refine RF.apart_addr ?_; simp only [Rg.LDG_PAGE_RESULT_RESULT, Rg.LDG_PAGE_RESULT,
              Rg.LDG_PAGE_RESULT_COUNT]; omega)
            | (simp only [ne_eq, Rg.LDG_PAGE_RESULT_RESULT, Rg.LDG_PAGE_RESULT, Rg.LDG_PAGE_RESULT_COUNT]; omega)
            | simp (maxDischargeDepth := 40) [*])) [State.fd_incr_self, State.fd_setF_apart]
    rfl

theorem RegBlock.ldg_page_result (p : Nat) : RegBlock.ldg.has (Rg.LDG_PAGE_RESULT p) := by
  simp only [RegBlock.has, Rg.LDG_PAGE_RESULT]; omega

/-- The index checks of a page command (R288), and what it does with an entry that its home gives. -/
theorem State.pageCmd_eq {s u : State} {p page : Nat} (hd : s.defined p = true) (ho : s.pageOwner page = some p)
    (hu : s.entryRead page = (true, u)) (act : State → State) : s.pageCmd p page act = act u := by
  unfold State.pageCmd State.pageIndex
  rw [if_neg (by simp [hd]), ho]
  dsimp only
  rw [if_pos rfl, hu]

theorem State.pageCmd_bad {s : State} (i : s.Inv) {p page : Nat} (hd : s.defined p = true) (ho : s.pageOwner page ≠ some p) (act :
    State → State) :
    (s.pageCmd p page act).fd (Rg.LDG_PAGE_RESULT_RESULT p) = (if s.pageOwner page = none then 1 else 2) ∧
      (s.pageCmd p page act).pages = s.pages := by
  unfold State.pageCmd State.pageIndex
  rw [if_neg (by simp [hd])]
  cases hq : s.pageOwner page with
  | none =>
    dsimp only
    have v := State.pageResult_shown i p 1
    exact ⟨v.1, v.2.2⟩
  | some q =>
    have hn : q ≠ p := fun h => ho (by rw [hq, h])
    dsimp only
    rw [if_neg hn]
    dsimp only
    rw [if_pos rfl]
    have k : s.Keeps 140737488371712 (s.isolation p ((some q).getD 15) 2 page) := State.isolation_keeps (by decide) (.refl _) _ _
        _ _
    generalize s.isolation p ((some q).getD 15) 2 page = u at k
    have v := State.pageResult_shown (k.inv i) p 2
    exact ⟨v.1, v.2.2.trans (k.same .pages (by decide))⟩

theorem State.entryRead_kept {s u : State} {page : Nat} (hu : s.entryRead page = (true, u)) (i : s.Inv) (p : Nat) :
    u.Inv ∧ u.pages = s.pages ∧ u.fd (Rg.LDG_PAGE_RESULT_COUNT p) = s.fd (Rg.LDG_PAGE_RESULT_COUNT p) ∧
      ∀ q, u.pageOwner q = s.pageOwner q ∧ u.frameOf p q = s.frameOf p q := by
  have k : s.Keeps 218565319432658944 (s.entryRead page).2 := State.entryRead_keeps (by decide) (.refl _) page
  rw [hu] at k
  refine ⟨k.inv i, k.same .pages (by decide), k.fd i (RegBlock.ldg_page_result p) (by decide) (by decide), fun q => ?_⟩
  have e := k.same .settings (by decide)
  simp only [Comp.same] at e
  constructor
  · unfold State.pageOwner
    congr 1
    funext p
    rw [(e p).2.2.2.2.2.2.2.1, (e p).2.2.2.2.2.2.2.2.2.1]
  · unfold State.frameOf State.frameAt State.regionsOf State.regionBits State.cfg State.cfgB
    dsimp only
    rw [(e p).2.1, (e p).2.2.2.2.2.2.2.1, (e p).2.2.2.2.2.2.2.2.2.1]

theorem pageRef_spec (s : State) (i : s.Inv) (p page : Nat) (hd : s.defined p = true) :
    ∃ t, exec (.pageRef p page) s = .next t ∧
      (s.pageOwner page ≠ some p →
        t.fd (Rg.LDG_PAGE_RESULT_RESULT p) = (if s.pageOwner page = none then 1 else 2) ∧ t.pages = s.pages) ∧
      ∀ u, s.pageOwner page = some p → s.entryRead page = (true, u) →
        t.fd (Rg.LDG_PAGE_RESULT_COUNT p) = (s.fd (Rg.LDG_PAGE_RESULT_COUNT p) + 1) % 4294967296 ∧
        ((s.page page).refused = true → t.fd (Rg.LDG_PAGE_RESULT_RESULT p) = 3 ∧ t.pages = s.pages) ∧
        ((s.page page).refused = false → 65535 ≤ (s.page page).ref → t.fd (Rg.LDG_PAGE_RESULT_RESULT p) = 4 ∧ t.pages = s.pages) ∧
        ((s.page page).refused = false → (s.page page).ref < 65535 → t.fd (Rg.LDG_PAGE_RESULT_RESULT p) = 0 ∧
          ∀ j, t.page j = if j = page then { s.page page with ref := (s.page page).ref + 1 } else s.page j) := by
  refine ⟨_, rfl, fun ho => ?_, fun u ho hu => ?_⟩
  · exact State.pageCmd_bad i hd ho _
  unfold State.pageRef
  rw [State.pageCmd_eq hd ho hu]
  obtain ⟨iu, ep, ec, -⟩ := State.entryRead_kept hu i p
  have e : ∀ j, u.page j = s.page j := fun j => by unfold State.page; rw [ep]
  dsimp only
  rw [e page]
  by_cases h1 : (s.page page).refused = true
  · rw [if_pos h1]
    have v := State.pageResult_shown iu p 3
    exact ⟨v.2.1.trans (by rw [ec]), fun _ => ⟨v.1, v.2.2.trans ep⟩, fun h => absurd h1 (by simp [h]), fun h => absurd h1 (by simp
        [h])⟩
  · rw [if_neg h1]
    by_cases h2 : 65535 ≤ (s.page page).ref
    · rw [if_pos h2]
      have v := State.pageResult_shown iu p 4
      exact ⟨v.2.1.trans (by rw [ec]), fun h => absurd h h1, fun _ _ => ⟨v.1, v.2.2.trans ep⟩, fun _ h => absurd h (by omega)⟩
    · rw [if_neg h2]
      have k : u.Keeps 218565388135489536 (u.putPage page { s.page page with ref := (s.page page).ref + 1 }) := State.putPage_keeps (by decide) (.refl _) _ _
      have g := State.page_putPage u page (x := { s.page page with ref := (s.page page).ref + 1 })
      generalize u.putPage page { s.page page with ref := (s.page page).ref + 1 } = w at k g
      have v := State.pageResult_shown (k.inv iu) p 0
      have kc := k.fd iu (f := Rg.LDG_PAGE_RESULT_COUNT p) (RegBlock.ldg_page_result p) (by decide) (by decide)
      refine ⟨v.2.1.trans (by rw [kc, ec]), fun h => absurd h h1, fun _ h => absurd h h2, fun _ _ => ⟨v.1, fun j => ?_⟩⟩
      have g1 := g j (Page.state_ref (Nat.succ_ne_zero _))
      rw [e j] at g1
      rw [← g1]
      unfold State.page
      rw [v.2.2]

theorem pageUnref_spec (s : State) (i : s.Inv) (p page : Nat) (hd : s.defined p = true) :
    ∃ t, exec (.pageUnref p page) s = .next t ∧
      (s.pageOwner page ≠ some p →
        t.fd (Rg.LDG_PAGE_RESULT_RESULT p) = (if s.pageOwner page = none then 1 else 2) ∧ t.pages = s.pages) ∧
      ∀ u, s.pageOwner page = some p → s.entryRead page = (true, u) →
        t.fd (Rg.LDG_PAGE_RESULT_COUNT p) = (s.fd (Rg.LDG_PAGE_RESULT_COUNT p) + 1) % 4294967296 ∧
        ((s.page page).refused = true → t.fd (Rg.LDG_PAGE_RESULT_RESULT p) = 3 ∧ t.pages = s.pages) ∧
        ((s.page page).refused = false → t.fd (Rg.LDG_PAGE_RESULT_RESULT p) = 0 ∧
          (∀ x, x = { s.page page with ref := (s.page page).ref - 1 } → x.state ≠ 0 → ∀ j, t.page j = if j = page then x else s.page j) ∧
          (∀ x, x = { s.page page with ref := (s.page page).ref - 1 } → x.state = 0 → (t.part p).pool = page :: (s.part p).pool)) := by
  refine ⟨_, rfl, fun ho => ?_, fun u ho hu => ?_⟩
  · exact State.pageCmd_bad i hd ho _
  unfold State.pageUnref
  rw [State.pageCmd_eq hd ho hu]
  obtain ⟨iu, ep, ec, eo⟩ := State.entryRead_kept hu i p
  have e : ∀ j, u.page j = s.page j := fun j => by unfold State.page; rw [ep]
  have kp : ∀ q, (u.part q).pool = (s.part q).pool := by
    have k : s.Keeps 218565319432658944 (s.entryRead page).2 := State.entryRead_keeps (by decide) (.refl _) page
    rw [hu] at k
    exact fun q => (k.same .pool (by decide) q).1
  dsimp only
  rw [e page]
  by_cases h1 : (s.page page).refused = true
  · rw [if_pos h1]
    have v := State.pageResult_shown iu p 3
    exact ⟨v.2.1.trans (by rw [ec]), fun _ => ⟨v.1, v.2.2.trans ep⟩, fun h => absurd h1 (by simp [h])⟩
  · rw [if_neg h1]
    unfold State.unref
    rw [e page]
    have k : u.Keeps 218565388135489536 (u.putPage page { s.page page with ref := (s.page page).ref - 1 }) := State.putPage_keeps (by decide) (.refl _) _ _
    have g := State.page_putPage u page (x := { s.page page with ref := (s.page page).ref - 1 })
    have f : ({ s.page page with ref := (s.page page).ref - 1 } : Page).state = 0 →
        ((u.putPage page { s.page page with ref := (s.page page).ref - 1 }).part p).pool = page :: (s.part p).pool := by
      intro hz
      have hw : ¬ ((s.page page).state = 0) := by
        intro hz; apply h1; unfold Page.refused; simp [hz]
      have kt (w : State) (j : Nat) : w.Keeps 74450131340025856 (w.entryThrough j) := State.entryThrough_keeps (by decide) (.refl
          _) j
      unfold State.putPage
      dsimp only
      rw [hz, e page, if_pos (by simp [hw])]
      have k1 := kt { u with pages := put (fun _ => Page.free) u.pages page (if 0 = 0 then Page.free else { s.page page with ref := (s.page page).ref - 1 }) } page
      generalize State.entryThrough { u with pages := put (fun _ => Page.free) u.pages page (if 0 = 0 then Page.free else { s.page page with ref := (s.page page).ref - 1 }) } page = w at k1
      have e1 := k1.same .settings (by decide)
      simp only [Comp.same] at e1
      have ow : w.pageOwner page = some p := by
        rw [← ho, ← (eo page).1]
        unfold State.pageOwner
        congr 1
        funext q
        rw [(e1 q).2.2.2.2.2.2.2.1, (e1 q).2.2.2.2.2.2.2.2.2.1]
        rfl
      rw [ow]
      dsimp only
      rw [State.part_congr (State.bump_parts ..), State.part_modPart_self]
      dsimp only
      rw [(k1.same .pool (by decide) p).1]
      exact congrArg (page :: ·) (kp p)
    generalize u.putPage page { s.page page with ref := (s.page page).ref - 1 } = w at k g f
    have v := State.pageResult_shown (k.inv iu) p 0
    have kc := k.fd iu (f := Rg.LDG_PAGE_RESULT_COUNT p) (RegBlock.ldg_page_result p) (by decide) (by decide)
    refine ⟨v.2.1.trans (by rw [kc, ec]), fun h => absurd h h1, fun _ => ⟨v.1, fun x hx hs j => ?_, fun x hx hs => ?_⟩⟩
    · subst hx
      have g1 := g j hs
      rw [e j] at g1
      rw [← g1]
      unfold State.page
      rw [v.2.2]
    · subst hx
      exact f hs

theorem State.pageWords_congr {s u : State} (ep : u.pages = s.pages) (eo : ∀ p q, u.pageOwner q = s.pageOwner q ∧ u.frameOf p q =
    s.frameOf p q)
    (j : Nat) : u.pageWords j = s.pageWords j := by
  have e : u.page j = s.page j := by unfold State.page; rw [ep]
  unfold State.pageWords
  dsimp only
  rw [e, (eo 0 j).1]
  cases s.pageOwner j with
  | none => rfl
  | some q => dsimp only; rw [(eo q j).2]

theorem pageRead_spec (s : State) (i : s.Inv) (p page : Nat) (hd : s.defined p = true) :
    ∃ t, exec (.pageRead p page) s = .next t ∧
      (s.pageOwner page ≠ some p →
        t.fd (Rg.LDG_PAGE_RESULT_RESULT p) = (if s.pageOwner page = none then 1 else 2) ∧ t.pages = s.pages) ∧
      ∀ u, s.pageOwner page = some p → s.entryRead page = (true, u) →
        t.fd (Rg.LDG_PAGE_RESULT_RESULT p) = 0 ∧ t.rd (Rg.LDG_PAGE_ENTRY_0 p) = BitVec.ofNat 64 (s.pageWords page).1 ∧
        t.rd (Rg.LDG_PAGE_ENTRY_1 p) = BitVec.ofNat 64 (s.pageWords page).2 ∧ t.pages = s.pages := by
  refine ⟨_, rfl, fun ho => ?_, fun u ho hu => ?_⟩
  · exact State.pageCmd_bad i hd ho _
  unfold State.pageRead
  rw [State.pageCmd_eq hd ho hu]
  obtain ⟨iu, ep, -, -⟩ := State.entryRead_kept hu i p
  have ew := State.pageWords_congr ep (fun p q => (State.entryRead_kept hu i p).2.2.2 q) page
  dsimp only
  rw [ew]
  generalize BitVec.ofNat 64 (s.pageWords page).1 = a
  generalize BitVec.ofNat 64 (s.pageWords page).2 = b
  have iw : ((u.wr (Rg.LDG_PAGE_ENTRY_0 p) a).wr (Rg.LDG_PAGE_ENTRY_1 p) b).Inv := State.wr_inv (State.wr_inv iu _ _) _ _
  have v := State.pageResult_shown iw p 0
  refine ⟨v.1, ?_, ?_, v.2.2.trans ep⟩
  · unfold State.pageResult
    simp (disch := (first
            | decide | exact Nat.le_of_ble_eq_true rfl | exact RF.apart_bits rfl
            | (refine RF.apart_addr ?_; simp only [Rg.LDG_PAGE_RESULT_RESULT, Rg.LDG_PAGE_RESULT, Rg.LDG_PAGE_RESULT_COUNT,
              Rg.LDG_PAGE_ENTRY_0, Rg.LDG_PAGE_ENTRY_1]; omega)
            | (simp only [ne_eq, Rg.LDG_PAGE_RESULT_RESULT, Rg.LDG_PAGE_RESULT, Rg.LDG_PAGE_RESULT_COUNT, Rg.LDG_PAGE_ENTRY_0,
              Rg.LDG_PAGE_ENTRY_1]; omega) | simp (maxDischargeDepth := 40) [*])) [State.rd_incr_ne, State.rd_setF_ne,
        State.rd_wr_ne, State.rd_wr_self]
  · unfold State.pageResult
    simp (disch := (first
            | decide | exact Nat.le_of_ble_eq_true rfl | exact RF.apart_bits rfl
            | (refine RF.apart_addr ?_; simp only [Rg.LDG_PAGE_RESULT_RESULT, Rg.LDG_PAGE_RESULT, Rg.LDG_PAGE_RESULT_COUNT,
              Rg.LDG_PAGE_ENTRY_0, Rg.LDG_PAGE_ENTRY_1]; omega)
            | (simp only [ne_eq, Rg.LDG_PAGE_RESULT_RESULT, Rg.LDG_PAGE_RESULT, Rg.LDG_PAGE_RESULT_COUNT, Rg.LDG_PAGE_ENTRY_0,
              Rg.LDG_PAGE_ENTRY_1]; omega) | simp (maxDischargeDepth := 40) [*])) [State.rd_incr_ne, State.rd_setF_ne,
        State.rd_wr_self]

theorem pageLowWrite_spec (s : State) (i : s.Inv) (p : Nat) (v : W64) (hd : s.defined p = true) :
    ∃ t, exec (.pageLowWrite p v) s = .next t ∧ t.fd (Rg.LDG_PAGE_LOW_THRESHOLD p) = bitsOf v.toNat 0 25 ∧
      (bitOf v.toNat 25 = true → t.fd (Rg.LDG_PAGE_LOW_LOW p) = 0) ∧
      (bitOf v.toNat 25 = false → t.fd (Rg.LDG_PAGE_LOW_LOW p) =
        if bitsOf v.toNat 0 25 ≠ 0 ∧ s.poolFree p < bitsOf v.toNat 0 25 then 1 else s.fd (Rg.LDG_PAGE_LOW_LOW p)) := by
  refine ⟨_, rfl, ?_⟩
  rw [if_pos hd]
  unfold State.pageLow State.noteLow
  dsimp only
  have hb : bitsOf v.toNat 0 25 < 2 ^ 25 := bitsOf_lt _ _ _
  generalize bitsOf v.toNat 0 25 = n at hb
  have e : (s.setF (Rg.LDG_PAGE_LOW_THRESHOLD p) n).fd (Rg.LDG_PAGE_LOW_THRESHOLD p) = n :=
    (State.fd_setF_self i _ _ (Nat.le_of_ble_eq_true rfl)).trans (Nat.mod_eq_of_lt hb)
  have iu : (s.setF (Rg.LDG_PAGE_LOW_THRESHOLD p) n).Inv := State.setF_inv i _ _
  have el : (s.setF (Rg.LDG_PAGE_LOW_THRESHOLD p) n).fd (Rg.LDG_PAGE_LOW_LOW p) = s.fd (Rg.LDG_PAGE_LOW_LOW p) :=
    State.fd_setF_apart i _ _ _ (RF.apart_bits rfl)
  rw [e]
  have ep : (s.setF (Rg.LDG_PAGE_LOW_THRESHOLD p) n).poolFree p = s.poolFree p := rfl
  rw [ep]
  generalize s.setF (Rg.LDG_PAGE_LOW_THRESHOLD p) n = u at e iu el
  by_cases h1 : bitOf v.toNat 25 = true
  · rw [if_pos h1]
    refine ⟨(State.fd_setF_apart iu _ _ _ (RF.apart_bits rfl)).trans e, fun _ => State.fd_setF_self iu _ _ (Nat.le_of_ble_eq_true
        rfl), fun h => absurd h1 (by simp [h])⟩
  · rw [if_neg h1]
    by_cases h2 : n ≠ 0 ∧ s.poolFree p < n
    · rw [if_pos (by simpa using h2)]
      exact ⟨(State.fd_raise_apart iu _ _ (RF.apart_bits rfl)).trans e, fun h => absurd h h1,
        fun _ => (State.fd_raise_self iu _ (Nat.le_of_ble_eq_true rfl) (Nat.le_of_ble_eq_true rfl)).trans (if_pos h2).symm⟩
    · rw [if_neg (by simpa using h2)]
      exact ⟨e, fun h => absurd h h1, fun _ => el.trans (if_neg h2).symm⟩

/-! ### Walks (08 R268) -/

theorem State.task_modTask {s : State} {t : Nat} {k : Task} (h : s.task? t = some k) {f : Task → Task} (hf : ∀ k, (f k).id = k.id) :
    (s.modTask t f).task? t = some (f k) := by
  unfold State.task? State.modTask at *
  dsimp only
  revert h
  generalize s.tasks = l
  intro h
  induction l with
  | nil => cases h
  | cons x l ih =>
    rw [List.find?_cons] at h
    rw [List.map_cons, List.find?_cons]
    by_cases hx : (x.id == t) = true
    · rw [hx] at h
      cases h
      rw [if_pos hx, hf, hx]
    · have hx : (x.id == t) = false := by simpa using hx
      rw [hx] at h
      rw [if_neg (by simp [hx]), hx]
      exact ih h

theorem pinWaitResume_spec (s : State) (t page : Nat) (w : WalkWait) (hw : (s.walks.find? fun w => w.task == t && w.page == page)
    = some w) :
    ∃ u, exec (.pinWaitResume t page) s = .next u ∧ (4095 ≤ (s.page page).pin → u = s) ∧
      ((s.page page).pin < 4095 → ((s.page page).state = 0 ∨ (s.page page).state = 4) → u = { s with walks := s.walks.erase w }) ∧
      (∀ k, (s.page page).pin < 4095 → (s.page page).state ≠ 0 → (s.page page).state ≠ 4 → s.task? t = some k →
        (k.pins.filter fun e => e.1 == w.part).length < 32 →
        u.walks = s.walks.erase w ∧ u.task? t = some { k with pins := k.pins ++ [(w.part, page)] } ∧
        ∀ j, u.page j = if j = page then { s.page page with pin := (s.page page).pin + 1 } else s.page j) := by
  refine ⟨_, rfl, ?_⟩
  unfold State.pinResume
  rw [hw]
  dsimp only
  by_cases h1 : 4095 ≤ (s.page page).pin
  · rw [if_pos h1]
    exact ⟨fun _ => rfl, fun h => absurd h (by omega), fun k h => absurd h (by omega)⟩
  · rw [if_neg h1]
    have e : State.page { s with walks := s.walks.erase w } page = s.page page := rfl
    rw [e]
    by_cases h2 : (s.page page).state = 0 ∨ (s.page page).state = 4
    · rw [if_pos (by simpa using h2)]
      exact ⟨fun h => absurd h h1, fun _ _ => rfl, fun k _ a b => absurd h2 (by omega)⟩
    · rw [if_neg (by simpa using h2)]
      refine ⟨fun h => absurd h h1, fun _ h => absurd h h2, fun k hp ha hb hk hl => ?_⟩
      have hs : ({ s.page page with pin := (s.page page).pin + 1 } : Page).state ≠ 0 := by
        unfold Page.state at ha hb ⊢
        dsimp only
        split
        · simp
        · rename_i hr
          rw [if_neg hr] at ha
          exact ha
      have kp : State.Keeps 218565388135489536 { s with walks := s.walks.erase w } (State.putPage { s with walks := s.walks.erase w } page { s.page page with pin := (s.page page).pin + 1 }) := State.putPage_keeps (by decide) (.refl _) _ _
      have g := fun j => State.page_putPage { s with walks := s.walks.erase w } page j hs
      generalize State.putPage { s with walks := s.walks.erase w } page { s.page page with pin := (s.page page).pin + 1 } = v at kp g
      have et : v.tasks = s.tasks := kp.same .tasks (by decide)
      have ek : v.task? t = some k := by unfold State.task? at hk ⊢; rw [et]; exact hk
      unfold State.tlbLoad
      rw [ek]
      dsimp only
      rw [if_pos hl]
      exact ⟨kp.same .walks (by decide), State.task_modTask ek fun _ => rfl, g⟩

theorem State.walkHome_page {s u : State} {p t k v n : Nat} (h : s.walkHome p t k v = (.page n, u)) :
    (s.page n).pin ≠ 4095 ∧ u.tasks = s.tasks ∧
      ∀ j, u.page j = if j = n then { s.page n with pin := (s.page n).pin + 1 } else s.page j := by
  unfold State.walkHome at h
  have kf : (if s.homeOf v = k then s else s.bump (Rg.CLU_OST_WALKS_FORWARDED k)).pages = s.pages ∧
      (if s.homeOf v = k then s else s.bump (Rg.CLU_OST_WALKS_FORWARDED k)).tasks = s.tasks := by
    split
    · exact ⟨rfl, rfl⟩
    · exact ⟨State.bump_pages .., State.bump_tasks ..⟩
  generalize (if s.homeOf v = k then s else s.bump (Rg.CLU_OST_WALKS_FORWARDED k)) = d at h kf
  have k3 : d.Keeps 218565319432658944 (d.entryRead v).2 := State.entryRead_keeps (by decide) (.refl _) v
  generalize d.entryRead v = E at h k3
  obtain ⟨ok, e⟩ := E
  cases ok with
  | false => cases h
  | true =>
    dsimp only at h k3
    have k2 : e.Keeps 144255925564227584 (e.slotRes p t k v).2 := State.slotRes_keeps (by decide) (.refl _) _ _ _ _
    generalize e.slotRes p t k v = R at h k2
    obtain ⟨r, c⟩ := R
    cases r with
    | hole => cases h
    | fail => cases h
    | page m =>
      dsimp only at h k2
      have ep : c.pages = s.pages := (k2.same .pages (by decide)).trans ((k3.same .pages (by decide)).trans kf.1)
      have et : c.tasks = s.tasks := (k2.same .tasks (by decide)).trans ((k3.same .tasks (by decide)).trans kf.2)
      have eg : ∀ j, c.page j = s.page j := fun j => by unfold State.page; rw [ep]
      split at h
      · cases h
      · rename_i hp
        rw [eg] at hp
        injection h with h1 h2
        injection h1 with h1
        subst h1
        have kp : c.Keeps 218565388135489536 (c.putPage m { c.page m with pin := (c.page m).pin + 1 }) := State.putPage_keeps (by decide) (.refl _) _ _
        rw [h2] at kp
        have hz : ({ s.page m with pin := (s.page m).pin + 1 } : Page).state ≠ 0 := by
          unfold Page.state
          split
          · simp
          · repeat' split
            all_goals decide
        refine ⟨hp, (kp.same .tasks (by decide)).trans et, fun j => ?_⟩
        rw [← h2, eg m, State.page_putPage c m j hz, eg]

theorem State.walk_page {s u : State} {p t core list layer head blk half n : Nat}
    (h : s.walk p t core list layer head blk half = (.page n, u)) :
    (s.page n).pin ≠ 4095 ∧ u.tasks = s.tasks ∧
      ∀ j, u.page j = if j = n then { s.page n with pin := (s.page n).pin + 1 } else s.page j := by
  have k0 : (s.bump (Rg.CLU_OST_WALKS_WALKS (s.clusterOf core))).pages = s.pages ∧ (s.bump (Rg.CLU_OST_WALKS_WALKS (s.clusterOf
      core))).tasks = s.tasks :=
    ⟨State.bump_pages .., State.bump_tasks ..⟩
  unfold State.walk at h
  dsimp only at h
  generalize s.bump (Rg.CLU_OST_WALKS_WALKS (s.clusterOf core)) = a at h k0
  have k1 : a.Keeps 74450131340091392 (a.listHdr p list).2 := State.listHdr_keeps (by decide) (.refl _) p list
  generalize a.listHdr p list = L at h k1
  obtain ⟨r, b⟩ := L
  cases r with
  | error e => cases h
  | ok hd =>
    dsimp only at h k1
    split at h
    · cases h
    · have k2 : b.Keeps 74450131340091392 (b.devRead p 0 (hd.slotAddr list layer head blk half) 4).st := State.devRead_keeps (by
          decide) (.refl _) _ _ _ _
      generalize b.devRead p 0 (hd.slotAddr list layer head blk half) 4 = R at h k2
      repeat' split at h
      · cases h
      · cases h
      · cases h
      · have g := State.walkHome_page h
        have ep : R.st.pages = s.pages := (k2.same .pages (by decide)).trans ((k1.same .pages (by decide)).trans k0.1)
        have et : R.st.tasks = s.tasks := (k2.same .tasks (by decide)).trans ((k1.same .tasks (by decide)).trans k0.2)
        have eg : ∀ j, R.st.page j = s.page j := fun j => by unfold State.page; rw [ep]
        simp only [eg, et] at g
        exact g

theorem pageWalk_spec (s : State) (i : s.Inv) (t part entry layer head blk half : Nat) (k : Task) (x : TaskPart) (hk : s.task? t =
    some k)
    (hx : (k.parts.find? fun x => x.idx == part) = some x) (hc : x.core.isSome = true) (hs : 1 ≤ x.slot ∧ x.slot ≤ 3) (hd : x.done
        = false)
    (hw : (s.walks.any fun w => w.task == t && w.part == part) = false) (he : s.ledgerOwner entry = k.part)
    (hg : x.slot = 1 → s.stagedRoom x.coreN = true) (list : Nat)
    (hl : (find (fun _ => Entry.free) s.ledger entry).pageList = list) (v : Nat)
    (hv : leNat (s.devRead k.part 0 ((s.hdrNow k.part list).slotAddr list layer head blk half) 4).data = v) :
    ∃ u, exec (.pageWalk t part entry layer head blk half) s = .next u ∧
      (k.pins.contains (part, v) = true → u.pages = s.pages ∧ u.tasks = s.tasks ∧
        u.fd (Rg.CORE_TLB_STATS_HITS (s.physCore x.coreN)) = min (s.fd (Rg.CORE_TLB_STATS_HITS (s.physCore x.coreN)) + 1) (2 ^ 32
            - 1)) ∧
      ∀ r w, k.pins.contains (part, v) = false →
        ((s.bump (Rg.CORE_TLB_STATS_MISSES (s.physCore x.coreN))).cycles [Rg.CORE_TLB_WALK_WAIT (s.physCore x.coreN)]).walk
          k.part t x.coreN list layer head blk half = (r, w) →
        (r = .hole → u = w) ∧ (∀ n, r = .waits n → u = { w with walks := w.walks ++ [⟨t, part, n, x.coreN, w.now, (w.page n).drops⟩] }) ∧
        (∀ n, r = .page n → (k.pins.filter fun e => e.1 == part).length < 32 → u.task? t = some { k with pins := k.pins ++ [(part, n)] } ∧
          ∀ j, u.page j = if j = n then { s.page n with pin := (s.page n).pin + 1 } else s.page j) ∧
        (∀ e, r = .fail e → u = if x.slot = 1 then w else (w.taskStatus t e 0).partDone t part) ∧
        (∀ n, r = .lost n → x.slot ≠ 1 → u = ((w.entryLost k.part n).taskStatus t stUncorr 0).partDone t part) := by
  refine ⟨_, rfl, ?_⟩
  unfold State.pageWalk
  rw [hk]
  dsimp only
  rw [hx]
  dsimp only
  have hc' : x.core ≠ none := by rintro h; rw [h] at hc; cases hc
  have hcond : ¬ (x.core.isNone || x.slot < 1 || 3 < x.slot || x.done || (s.walks.any fun w => w.task == t && w.part == part) ||
      s.ledgerOwner entry != k.part ||
      (x.slot == 1 && !s.stagedRoom x.coreN)) = true := by
    simp only [hd, hw, he, Bool.or_false, bne_self_eq_false, Bool.or_eq_true, Bool.and_eq_true, beq_iff_eq, decide_eq_true_eq,
        Bool.not_eq_true', not_or, not_and, Bool.not_eq_false]
    exact ⟨⟨⟨by simpa using hc', by omega⟩, by omega⟩, hg⟩
  rw [if_neg hcond, hl, hv]
  have b (f : RF) : (s.bump f).pages = s.pages ∧ (s.bump f).tasks = s.tasks := ⟨State.bump_pages .., State.bump_tasks ..⟩
  have bc (f g : RF) : ((s.bump f).cycles [g]).pages = s.pages ∧ ((s.bump f).cycles [g]).tasks = s.tasks := by
    unfold State.cycles
    simp only [List.foldl_cons, List.foldl_nil, State.raise_pages, State.raise_tasks, b, and_self]
  refine ⟨fun hp => ?_, fun r w hp hr => ?_⟩
  · rw [if_pos hp]
    exact ⟨(b _).1, (b _).2, State.fd_bump_self i _ _ (Nat.le_of_ble_eq_true rfl)⟩
  · rw [if_neg (by rw [hp]; decide), hr]
    refine ⟨?_, ?_, ?_, ?_, ?_⟩
    · rintro rfl; rfl
    · rintro n rfl; rfl
    · rintro n rfl hn
      dsimp only
      have g := State.walk_page hr
      have ek : w.task? t = some k := by
        unfold State.task? at hk ⊢
        rw [g.2.1, show (State.cycles (s.bump (Rg.CORE_TLB_STATS_MISSES (s.physCore x.coreN))) [Rg.CORE_TLB_WALK_WAIT (s.physCore
            x.coreN)]).tasks = s.tasks from (bc _ _).2]
        exact hk
      unfold State.tlbLoad
      rw [ek]
      dsimp only
      rw [if_pos hn]
      refine ⟨State.task_modTask ek fun _ => rfl, fun j => ?_⟩
      have e : ∀ j, ((s.bump (Rg.CORE_TLB_STATS_MISSES (s.physCore x.coreN))).cycles [Rg.CORE_TLB_WALK_WAIT (s.physCore
          x.coreN)]).page j = s.page j :=
        fun j => congrArg (fun l => find (fun _ => Page.free) l j) (bc _ _).1
      have := g.2.2 j
      rw [e, e] at this
      exact this
    · rintro e rfl; rfl
    · rintro n rfl hn
      dsimp only
      rw [if_neg hn]

/-! ### Controllers (09 R299 to R306) -/

theorem State.memCtl_mod (s : State) (n k : Nat) (f : MemCtl → MemCtl) : (s.modMemCtl n f).memCtl k = if k = n then f (s.memCtl n)
    else s.memCtl k := by
  unfold State.memCtl State.modMemCtl
  exact find_ins _ _ _ _ _

theorem State.bump_memCtl (s : State) (f : RF) (n : Nat) : (s.bump f).memCtl n = s.memCtl n := by unfold State.memCtl; rw [State.bump_ecc]

/-- A register that reading a codeword for the scrub does not count in. -/
structure ScrubApart (a : Nat) : Prop where
  errs : a ≠ Rg.MEM_ERR_COUNT
  log : a ≠ Rg.MEM_LOG_STATUS
  sram : ∀ n, a ≠ Rg.CORE_SRAM_ECC n
  chan : ∀ n, a ≠ Rg.MEM_CH_ECC n

theorem State.noteLine_fd {s : State} (i : s.Inv) {f : RF} (h : ScrubApart f.addr) (tag l c : Nat) : (s.noteLine tag 1 l c).fd f =
    s.fd f := by
  have P : ∀ (u : State) (g : RF), u.Inv ∧ u.fd f = s.fd f → f.addr ≠ g.addr → (u.bump g).Inv ∧ (u.bump g).fd f = s.fd f := fun u
      g h n =>
    ⟨State.bump_inv h.1 _ _, (State.fd_bump_apart h.1 _ _ _ (.inl n)).trans h.2⟩
  have Q : ∀ u : State, u.Inv ∧ u.fd f = s.fd f → ∀ a b c d e, (u.memAdd a b c d e).fd f = s.fd f := by
    intro u hu a b c d e
    unfold State.memAdd
    split
    · split
      · exact (State.fd_raise_apart hu.1 _ _ (.inl h.log)).trans hu.2
      · exact hu.2
    · exact (State.fd_raise_apart hu.1 _ _ (.inl h.log)).trans hu.2
  unfold State.noteLine
  split
  · rfl
  extract_lets sram corr pois s1 s2 s3 s4 s5 s6
  have h1 : s1.Inv ∧ s1.fd f = s.fd f := by
    simp only [s1]; split
    · refine P _ _ (P _ _ ⟨i, rfl⟩ h.errs) ?_
      split
      · exact h.sram _
      · exact h.chan _
    · exact ⟨i, rfl⟩
  have h2 : s2.Inv ∧ s2.fd f = s.fd f := by
    simp only [s2]; split
    · refine P _ _ (P _ _ h1 h.errs) ?_
      split
      · exact h.sram _
      · exact h.chan _
    · exact h1
  have h4 : s4.Inv ∧ s4.fd f = s.fd f := by
    have h3 : s3.Inv ∧ s3.fd f = s.fd f := h2
    simp only [s4]; split
    · split
      · exact P _ _ h3 (h.sram _)
      · exact h3
    · exact h2
  have h5 : s5.fd f = s.fd f := Q _ h4 _ _ _ _ _
  have h6 : s6.fd f = s.fd f := by
    simp only [s6]
    rw [if_neg (by simp)]
    exact h5
  clear_value s6
  split
  · exact h6
  · exact h6

/-- What the scrub's next codeword goes through before the scrub counts it (R303). -/
theorem State.scrub_eq (s : State) (n l c : Nat) (d : Bytes) (hn : s.ecc.scrubNext % s.allLines = n) (hl : s.scrubLine n = l) (hx
    : s.decodeLine l = (c, d)) :
    ∃ u : State, s.scrub = (if n + 1 < s.allLines then { u with ecc := { u.ecc with scrubNext := n + 1 } }
        else State.bump { u with ecc := { u.ecc with scrubNext := 0, scrubStart := u.now } } Rg.MEM_SCRUB_STATUS_PASSES) ∧
      (s.Inv → u.Inv ∧ ∀ f : RF, ScrubApart f.addr → u.fd f = s.fd f) ∧ u.now = s.now ∧
      (c = 0 ∨ c = 6 → u.mem = s.mem ∧ u.ecc = s.ecc) ∧ (c ≠ 0 → c ≠ 6 → u = (s.noteLine 15 1 l c).storeLine l d (decide (5 ≤ c)))
          := by
  have al : ∀ u : State, u.fuses = s.fuses → u.latched = s.latched → u.allLines = s.allLines := by
    intro u ef el
    have hv : u.var = s.var := by unfold State.var; rw [ef]
    unfold State.allLines State.regionLines State.reserveLines State.sliceLines
    rw [hv, State.nCores_congr ef el]
  have ku : s.Keeps 74450131340025856 (s.noteLine 15 1 l c) := State.noteLine_keeps (by decide) (.refl _) _ _ _ _
  refine ⟨if c = 0 then s else if c = 6 then (if lineSram l then s.bump (Rg.CORE_SRAM_ECC_POISON_READ (s.sliceCore l)) else s)
    else (s.noteLine 15 1 l c).storeLine l d (decide (5 ≤ c)), ?_, fun i => ?_, ?_, ?_, fun h0 h6 => ?_⟩
  · unfold State.scrub
    dsimp only
    rw [hn, hl, hx]
    dsimp only
    have e : (if c = 0 then s else if c = 6 then (if lineSram l then s.bump (Rg.CORE_SRAM_ECC_POISON_READ (s.sliceCore l)) else s)
        else (s.noteLine 15 1 l c).storeLine l d (decide (5 ≤ c))).allLines = s.allLines := by
      repeat' split
      · rfl
      · exact al _ (State.bump_fuses ..) (State.bump_latched ..)
      · rfl
      · exact al _ (ku.same .fuses (by decide)) (ku.same .latched (by decide))
    rw [e]
  · repeat' split
    · exact ⟨i, fun _ _ => rfl⟩
    · exact ⟨State.bump_inv i _ _, fun f h => State.fd_bump_apart i _ _ _ (.inl (h.sram _))⟩
    · exact ⟨i, fun _ _ => rfl⟩
    · have hl : d.length = 64 := by have := State.decodeLine_length s l; rw [hx] at this; exact this
      exact ⟨(State.storeLine_shown (ku.inv i) l hl _).2.2.2, fun f h => State.noteLine_fd i h 15 l c⟩
  · repeat' split
    · rfl
    · exact State.bump_now ..
    · rfl
    · exact (State.noteLine_mem s 15 1 l c).2.2.2.2
  · intro h
    repeat' split
    · exact ⟨rfl, rfl⟩
    · exact ⟨State.bump_mem .., State.bump_ecc ..⟩
    · exact ⟨rfl, rfl⟩
    · omega
  · rw [if_neg h0, if_neg h6]

theorem State.scrub_fd {s : State} (i : s.Inv) {f : RF} (h : ScrubApart f.addr) (h2 : f.addr ≠ Rg.MEM_SCRUB_STATUS) : s.scrub.fd f
    = s.fd f := by
  obtain ⟨u, e, k, -⟩ := State.scrub_eq s _ _ _ _ rfl rfl rfl
  rw [e]
  split
  · exact (k i).2 f h
  · have iv : ({ u with ecc := { u.ecc with scrubNext := 0, scrubStart := u.now } } : State).Inv := (k i).1.of_eq rfl rfl rfl rfl rfl
    exact (State.fd_bump_apart iv _ _ _ (.inl h2)).trans ((k i).2 f h)

theorem State.idleSlot_fd {s : State} (i : s.Inv) (n : Nat) {f : RF} (h : ScrubApart f.addr) (h2 : f.addr ≠ Rg.MEM_SCRUB_STATUS) :
    (s.idleSlot n).fd f = s.fd f := by
  unfold State.idleSlot
  split
  · rfl
  · split
    · exact State.scrub_fd i h h2
    · rfl

theorem idleSlots_apart (n : Nat) : ScrubApart (Rg.MEM_CH_SLOTS_IDLE_SLOTS n).addr ∧ (Rg.MEM_CH_SLOTS_IDLE_SLOTS n).addr ≠
    Rg.MEM_SCRUB_STATUS := by
  refine ⟨⟨?_, ?_, fun m => ?_, fun m => ?_⟩, ?_⟩ <;>
    simp only [Rg.MEM_CH_SLOTS_IDLE_SLOTS, Rg.MEM_CH_SLOTS_IDLE, Rg.MEM_ERR_COUNT, Rg.MEM_LOG_STATUS, Rg.MEM_SCRUB_STATUS,
        Rg.CORE_SRAM_ECC, Rg.MEM_CH_ECC] <;> omega

theorem memSlotGrant_spec (s : State) (i : s.Inv) (n turn : Nat) (c : MemCtl) (hn : n < s.var.channels) (hc : s.memCtl n = c)
    (ht : (find (fun _ => 0) c.pos 15 + 1) % 1024 = turn) :
    ∃ t, exec (.memSlotGrant n) s = .next t ∧
      (turn % 32 = 0 → c.busy 15 = true → t.memCtl n = MemCtl.takeInnkeeper { c with pos := ins c.pos 15 turn }) ∧
      (turn = 1 → s.scrubBehind = true → s.scrubAt n = true →
        t.ecc.scrubNext = (if s.ecc.scrubNext % s.allLines + 1 < s.allLines then s.ecc.scrubNext % s.allLines + 1 else 0)) ∧
      (¬ (turn % 32 = 0 ∧ c.busy 15 = true) → ¬ (turn = 1 ∧ s.scrubBehind = true ∧ s.scrubAt n = true) →
        (((List.range 12).map fun i => ((if c.last < 12 then c.last + 1 else 0) + i) % 12).find? fun p => c.busy p) = none →
        t.fd (Rg.MEM_CH_SLOTS_IDLE_SLOTS n) = min (s.fd (Rg.MEM_CH_SLOTS_IDLE_SLOTS n) + 1) (2 ^ 48 - 1)) ∧
      ∀ p pos pat cls, ¬ (turn % 32 = 0 ∧ c.busy 15 = true) → ¬ (turn = 1 ∧ s.scrubBehind = true ∧ s.scrubAt n = true) →
        (((List.range 12).map fun i => ((if c.last < 12 then c.last + 1 else 0) + i) % 12).find? fun p => c.busy p) = some p →
        find (fun _ => 0) c.pos p = pos → (if pos = 0 then splitPattern (s.bwOf p) else find (fun _ => 0) c.pat p) = pat →
        bitsOf pat (2 * pos) 2 = cls →
        (0 < (c.reqOf (3 * p + cls)).rd + (c.reqOf (3 * p + cls)).wr →
          t.fd (slotCounter n cls) = min (s.fd (slotCounter n cls) + 1) (2 ^ 48 - 1) ∧
          t.memCtl n = MemCtl.take { c with last := p, pos := ins (ins c.pos 15 turn) p ((pos + 1) % 16), pat := ins c.pat p pat } (3 * p + cls)) ∧
        ((c.reqOf (3 * p + cls)).rd + (c.reqOf (3 * p + cls)).wr = 0 →
          t.fd (Rg.MEM_CH_SLOTS_IDLE_SLOTS n) = min (s.fd (Rg.MEM_CH_SLOTS_IDLE_SLOTS n) + 1) (2 ^ 48 - 1)) := by
  refine ⟨_, rfl, ?_⟩
  unfold State.slotGrant
  rw [if_neg (by omega), hc]
  dsimp only
  rw [ht]
  have iu : (s.modMemCtl n fun c => { c with pos := ins c.pos 15 turn }).Inv := i.of_eq rfl rfl rfl rfl rfl
  have eu : (s.modMemCtl n fun c => { c with pos := ins c.pos 15 turn }).memCtl n = { c with pos := ins c.pos 15 turn } := by
    rw [State.memCtl_mod, if_pos rfl, hc]
  have fu : ∀ f, (s.modMemCtl n fun c => { c with pos := ins c.pos 15 turn }).fd f = s.fd f := fun _ => rfl
  have bu : ∀ p, (s.modMemCtl n fun c => { c with pos := ins c.pos 15 turn }).bwOf p = s.bwOf p := fun _ => rfl
  have su : (s.modMemCtl n fun c => { c with pos := ins c.pos 15 turn }).scrubBehind = s.scrubBehind ∧
      (s.modMemCtl n fun c => { c with pos := ins c.pos 15 turn }).scrubAt n = s.scrubAt n ∧
      (s.modMemCtl n fun c => { c with pos := ins c.pos 15 turn }).ecc.scrubNext = s.ecc.scrubNext ∧
      (s.modMemCtl n fun c => { c with pos := ins c.pos 15 turn }).allLines = s.allLines := ⟨rfl, rfl, rfl, rfl⟩
  generalize (s.modMemCtl n fun c => { c with pos := ins c.pos 15 turn }) = u at iu eu fu bu su
  have ap := idleSlots_apart n
  refine ⟨fun h1 h2 => ?_, fun h0 h1 h2 => ?_, fun h1 hs h2 => ?_, fun p pos pat cls h1 hs h2 h3 h4 h5 => ?_⟩
  · rw [if_pos (by simp [h1, h2]), State.memCtl_mod, if_pos rfl, eu]
  · rw [if_neg (by simp [h0]), if_pos (by simp [h0, su.1, su.2.1, h1, h2])]
    obtain ⟨v, e, -⟩ := State.scrub_eq u _ _ _ _ rfl rfl rfl
    rw [e, su.2.2.1, su.2.2.2]
    split
    · rfl
    · rw [State.bump_ecc]
  · rw [if_neg (by simpa using h1), if_neg (by rw [su.1, su.2.1]; simpa [and_assoc] using hs), h2]
    dsimp only
    rw [State.idleSlot_fd (State.bump_inv iu _ _) n ap.1 ap.2, State.fd_bump_self iu _ _ (Nat.le_of_ble_eq_true rfl), fu]
    rfl
  · rw [if_neg (by simpa using h1), if_neg (by rw [su.1, su.2.1]; simpa [and_assoc] using hs), h2]
    dsimp only
    rw [h3, bu, h4, h5]
    have iv : (u.modMemCtl n fun c => { c with last := p, pos := ins c.pos p ((pos + 1) % 16), pat := ins c.pat p pat }).Inv := iu.of_eq rfl rfl rfl rfl rfl
    have ev : (u.modMemCtl n fun c => { c with last := p, pos := ins c.pos p ((pos + 1) % 16), pat := ins c.pat p pat }).memCtl n =
        { c with last := p, pos := ins (ins c.pos 15 turn) p ((pos + 1) % 16), pat := ins c.pat p pat } := by rw [State.memCtl_mod, if_pos rfl, eu]
    have fv : ∀ f, (u.modMemCtl n fun c => { c with last := p, pos := ins c.pos p ((pos + 1) % 16), pat := ins c.pat p pat }).fd f = s.fd f := fun f => fu f
    generalize (u.modMemCtl n fun c => { c with last := p, pos := ins c.pos p ((pos + 1) % 16), pat := ins c.pat p pat }) = v at iv ev fv
    refine ⟨fun hq => ?_, fun hq => ?_⟩
    · rw [if_pos hq]
      refine ⟨?_, by rw [State.bump_memCtl, State.memCtl_mod, if_pos rfl, ev]⟩
      have iw : (v.modMemCtl n fun c => c.take (3 * p + cls)).Inv := iv.of_eq rfl rfl rfl rfl rfl
      have fw : (v.modMemCtl n fun c => c.take (3 * p + cls)).fd (slotCounter n cls) = s.fd (slotCounter n cls) := fv _
      have hs : (slotCounter n cls).lo + (slotCounter n cls).w ≤ 64 ∧ (slotCounter n cls).w = 48 := by
        unfold slotCounter; repeat' split
        all_goals exact ⟨(Nat.le_of_ble_eq_true rfl), rfl⟩
      rw [State.fd_bump_self iw _ _ hs.1, fw, hs.2]
    · rw [if_neg (by omega), State.idleSlot_fd (State.bump_inv iv _ _) n ap.1 ap.2, State.fd_bump_self iv _ _
          (Nat.le_of_ble_eq_true rfl), fv]
      rfl

theorem repairWrite_spec (s : State) (i : s.Inv) (r : Repair) (q : List Repair) (c : Nat) (d : Bytes) (h : s.ecc.repairQ = r :: q)
    (hx : s.decodeLine r.line = (c, d)) :
    ∃ t, exec .repairWrite s = .next t ∧
      (∀ x, find unwritten t.mem x = if x / 64 = r.line then d.getD (x % 64) 0 else find unwritten s.mem x) ∧
      (∀ l, l ∈ t.ecc.poison ↔ if l = r.line then r.bad = true ∨ 5 ≤ c else l ∈ s.ecc.poison) ∧
      t.flipsOf r.line = [] ∧ t.ecc.repairQ = (r :: q).filter fun y => y.line != r.line := by
  refine ⟨_, rfl, ?_⟩
  rw [h]
  dsimp only
  unfold State.repairLine
  rw [hx]
  have hl : d.length = 64 := by have := State.decodeLine_length s r.line; rw [hx] at this; exact this
  have k := State.storeLine_shown i r.line hl (r.bad || decide (5 ≤ c))
  refine ⟨k.1, fun l => ?_, k.2.2.1, ?_⟩
  · rw [k.2.1]; simp
  · show List.filter _ s.ecc.repairQ = _
    rw [h]

theorem scrubRead_spec (s : State) (i : s.Inv) (hp : s.phase = .running) (n l c : Nat) (d : Bytes) (hn : s.ecc.scrubNext %
    s.allLines = n)
    (hl : s.scrubLine n = l) (hx : s.decodeLine l = (c, d)) :
    ∃ t, exec .scrubRead s = .next t ∧
      t.ecc.scrubNext = (if n + 1 < s.allLines then n + 1 else 0) ∧
      (s.allLines ≤ n + 1 → t.ecc.scrubStart = s.now ∧ t.fd Rg.MEM_SCRUB_STATUS_PASSES = min (s.fd Rg.MEM_SCRUB_STATUS_PASSES + 1)
          (2 ^ 21 - 1)) ∧
      (c = 0 ∨ c = 6 → t.mem = s.mem ∧ t.ecc.poison = s.ecc.poison ∧ t.ecc.flips = s.ecc.flips) ∧
      (c ≠ 0 → c ≠ 6 → (∀ x, find unwritten t.mem x = if x / 64 = l then d.getD (x % 64) 0 else find unwritten s.mem x) ∧
        (∀ y, y ∈ t.ecc.poison ↔ if y = l then 5 ≤ c else y ∈ s.ecc.poison) ∧ t.flipsOf l = []) := by
  refine ⟨_, rfl, ?_⟩
  rw [if_pos hp]
  obtain ⟨u, e, k, kn, k0, k1⟩ := State.scrub_eq s n l c d hn hl hx
  rw [e]
  have hd : d.length = 64 := by have := State.decodeLine_length s l; rw [hx] at this; exact this
  have m := State.noteLine_mem s 15 1 l c
  have ku : s.Keeps 74450131340025856 (s.noteLine 15 1 l c) := State.noteLine_keeps (by decide) (.refl _) _ _ _ _
  have hs : u.fd Rg.MEM_SCRUB_STATUS_PASSES = s.fd Rg.MEM_SCRUB_STATUS_PASSES := (k i).2 _ ⟨by decide, by decide,
    fun n => by simp only [Rg.CORE_SRAM_ECC, Rg.MEM_SCRUB_STATUS_PASSES, Rg.MEM_SCRUB_STATUS]; omega, fun n => by simp only [Rg.MEM_CH_ECC, Rg.MEM_SCRUB_STATUS_PASSES, Rg.MEM_SCRUB_STATUS]; omega⟩
  have h1 : c = 0 ∨ c = 6 → u.mem = s.mem ∧ u.ecc.poison = s.ecc.poison ∧ u.ecc.flips = s.ecc.flips := fun h =>
    ⟨(k0 h).1, by rw [(k0 h).2], by rw [(k0 h).2]⟩
  have h2 : c ≠ 0 → c ≠ 6 → (∀ x, find unwritten u.mem x = if x / 64 = l then d.getD (x % 64) 0 else find unwritten s.mem x) ∧
      (∀ y, y ∈ u.ecc.poison ↔ if y = l then 5 ≤ c else y ∈ s.ecc.poison) ∧ u.flipsOf l = [] := by
    intro a b
    have g := State.storeLine_shown (ku.inv i) l hd (decide (5 ≤ c))
    rw [k1 a b]
    refine ⟨fun x => ?_, fun y => ?_, g.2.2.1⟩
    · rw [g.1 x, m.1]
    · rw [g.2.1 y, m.2.2.1]; simp
  have iu := (k i).1
  clear k k0 k1 e
  by_cases g : n + 1 < s.allLines
  · rw [if_pos g, if_pos g]
    exact ⟨rfl, fun h => absurd h (by omega), h1, h2⟩
  · rw [if_neg g, if_neg g]
    have iv : ({ u with ecc := { u.ecc with scrubNext := 0, scrubStart := u.now } } : State).Inv := iu.of_eq rfl rfl rfl rfl rfl
    have fb := State.fd_bump_self iv Rg.MEM_SCRUB_STATUS_PASSES 1 (Nat.le_of_ble_eq_true rfl)
    have b1 := State.bump_mem { u with ecc := { u.ecc with scrubNext := 0, scrubStart := u.now } } Rg.MEM_SCRUB_STATUS_PASSES 1
    have b2 := State.bump_ecc { u with ecc := { u.ecc with scrubNext := 0, scrubStart := u.now } } Rg.MEM_SCRUB_STATUS_PASSES 1
    have fs : ({ u with ecc := { u.ecc with scrubNext := 0, scrubStart := u.now } } : State).fd Rg.MEM_SCRUB_STATUS_PASSES = s.fd Rg.MEM_SCRUB_STATUS_PASSES := hs
    generalize State.bump { u with ecc := { u.ecc with scrubNext := 0, scrubStart := u.now } } Rg.MEM_SCRUB_STATUS_PASSES = v at fb b1 b2
    unfold State.flipsOf at h2 ⊢
    rw [b1, b2]
    exact ⟨rfl, fun _ => ⟨kn, fb.trans (by rw [fs]; rfl)⟩, h1, h2⟩

theorem writeQueueResume_spec (s : State) (i : s.Inv) (n : Nat) (w : WaitWrite) (r : List WaitWrite) (h : (s.memCtl n).wait = w ::
    r) :
    ∃ t, exec (.writeQueueResume n) s = .next t ∧ (64 ≤ (s.memCtl n).writes → t = s) ∧
      ((s.memCtl n).writes < 64 → s.ecc.flips = [] →
        ∀ x, find unwritten t.mem x = if w.addr ≤ x ∧ x < w.addr + w.data.length then w.data.getD (x - w.addr) 0 else find
            unwritten s.mem x) := by
  refine ⟨_, rfl, ?_⟩
  unfold State.queueResume
  dsimp only
  rw [h]
  dsimp only
  refine ⟨fun g => if_pos g, fun g hf => ?_⟩
  rw [if_neg (by omega)]
  exact State.ramWrite_mem (s := s.modMemCtl n fun c => { c with wait := r }) hf i.mem _ _ _ _ _

end Sys2Proof.Machine
end

