-- ==== Sys2Proof/Laws/EffChan.lean ====
section
/-!
SUPPORT. What the channel commands that open, close and receive do (11_channels.md R351 to R361, R370).
-/
namespace Sys2Proof.Machine

theorem State.chnResult_shown {s : State} (i : s.Inv) (p c : Nat) : (s.chnResult p c).fd (Rg.CHN_CMD_RESULT_RESULT p) = c % 256 ∧
    (s.chnResult p c).fd (Rg.CHN_CMD_RESULT_COUNT p) = (s.fd (Rg.CHN_CMD_RESULT_COUNT p) + 1) % 4294967296 ∧
    (s.chnResult p c).fd (Rg.CHN_CMD_RESULT_HANDLE p) = s.fd (Rg.CHN_CMD_RESULT_HANDLE p) := by
  unfold State.chnResult
  refine ⟨?_, ?_, ?_⟩
  · simp (disch := (first
            | decide | exact Nat.le_of_ble_eq_true rfl | exact RF.apart_bits rfl
            | (refine RF.apart_addr ?_; simp only [Rg.CHN_CMD_RESULT_RESULT, Rg.CHN_CMD_RESULT, Rg.CHN_CMD_RESULT_COUNT]; omega)
            | (simp only [ne_eq, Rg.CHN_CMD_RESULT_RESULT, Rg.CHN_CMD_RESULT, Rg.CHN_CMD_RESULT_COUNT]; omega)
            | simp (maxDischargeDepth := 40) [*])) [State.fd_incr_apart, State.fd_setF_self]
    rfl
  · simp (disch := (first
            | decide | exact Nat.le_of_ble_eq_true rfl | exact RF.apart_bits rfl
            | (refine RF.apart_addr ?_; simp only [Rg.CHN_CMD_RESULT_RESULT, Rg.CHN_CMD_RESULT, Rg.CHN_CMD_RESULT_COUNT]; omega)
            | (simp only [ne_eq, Rg.CHN_CMD_RESULT_RESULT, Rg.CHN_CMD_RESULT, Rg.CHN_CMD_RESULT_COUNT]; omega)
            | simp (maxDischargeDepth := 40) [*])) [State.fd_incr_self, State.fd_setF_apart]
    rfl
  · simp (disch := (first
            | decide | exact Nat.le_of_ble_eq_true rfl | exact RF.apart_bits rfl
            | (refine RF.apart_addr ?_; simp only [Rg.CHN_CMD_RESULT_RESULT, Rg.CHN_CMD_RESULT, Rg.CHN_CMD_RESULT_COUNT,
              Rg.CHN_CMD_RESULT_HANDLE]; omega)
            | (simp only [ne_eq, Rg.CHN_CMD_RESULT_RESULT, Rg.CHN_CMD_RESULT, Rg.CHN_CMD_RESULT_COUNT,
              Rg.CHN_CMD_RESULT_HANDLE]; omega) | simp (maxDischargeDepth := 40) [*])) [State.fd_incr_apart, State.fd_setF_apart]

theorem State.chnOpened_shown {s : State} (i : s.Inv) (p h : Nat) : (s.chnOpened p h).fd (Rg.CHN_CMD_RESULT_RESULT p) = 0 ∧
    (s.chnOpened p h).fd (Rg.CHN_CMD_RESULT_HANDLE p) = h % 4096 := by
  unfold State.chnOpened
  have k := State.chnResult_shown (State.setF_inv i (Rg.CHN_CMD_RESULT_HANDLE p) h) p 0
  exact ⟨k.1, k.2.2.trans (State.fd_setF_self i _ _ (Nat.le_of_ble_eq_true rfl))⟩

theorem State.blk_kept {s u : State} {p a n : Nat} {o : Option Bytes} (h : s.blk p a n = (o, u)) (i : s.Inv) : u.Inv ∧
    u.endpoints = s.endpoints ∧ u.churns = s.churns := by
  have k : s.Keeps 74450131340091392 (s.blk p a n).2 := State.blk_keeps (by decide) (.refl _) p a n
  rw [h] at k
  exact ⟨k.inv i, k.same .endpoints (by decide), k.same .churns (by decide)⟩

/-- A device write that passes its check, below the host window, while no error symbol stands. -/
theorem State.devWrite_mem {s : State} (h : s.ecc.flips = []) (c : Canon unwritten s.mem) {tag cls a : Nat} {bs : Bytes} {bad :
    Bool}
    (hb : s.badPoint tag a bs.length = none) (ha : a < windowBase) (x : Nat) :
    find unwritten (s.devWrite tag cls a bs bad).st.mem x = if a ≤ x ∧ x < a + bs.length then bs.getD (x - a) 0 else find
        unwritten s.mem x := by
  unfold State.devWrite State.devWriteOn
  rw [hb]
  dsimp only
  rw [if_neg (by omega)]
  exact State.ramWrite_mem h c _ _ _ _ _ x

theorem chnOpen_spec (s : State) (i : s.Inv) (p : Nat) (hd : s.defined p = true) (o : Option Bytes) (u : State)
    (hu : s.blk p (s.fd (Rg.CHN_CMD_ADDR_ADDR p)) 64 = (o, u)) :
    ∃ t, exec (.chnOpen p) s = .next t ∧
      (o = none → t.fd (Rg.CHN_CMD_RESULT_RESULT p) = 8 ∧ t.endpoints = s.endpoints ∧ t.churns = s.churns) ∧
      (∀ b, o = some b → 2 ≤ fieldAt b 0 1 → t.fd (Rg.CHN_CMD_RESULT_RESULT p) = 3 ∧ t.endpoints = s.endpoints ∧ t.churns =
          s.churns) ∧
      (∀ b, o = some b → fieldAt b 0 1 = 0 → u.epArgBad p b = true → t.fd (Rg.CHN_CMD_RESULT_RESULT p) = 3 ∧ t.endpoints =
          s.endpoints) ∧
      (∀ b, o = some b → fieldAt b 0 1 = 0 → u.epArgBad p b = false → u.cfg p 128 2 ≤ (u.epsOf p).length →
        t.fd (Rg.CHN_CMD_RESULT_RESULT p) = 1 ∧ t.endpoints = s.endpoints) ∧
      (∀ b, o = some b → fieldAt b 0 1 = 0 → u.epArgBad p b = false → (u.epsOf p).length < u.cfg p 128 2 → 4096 ≤
          s.endpoints.length →
        t.fd (Rg.CHN_CMD_RESULT_RESULT p) = 2 ∧ t.endpoints = s.endpoints) ∧
      (∀ b, o = some b → fieldAt b 0 1 = 0 → u.epArgBad p b = false → (u.epsOf p).length < u.cfg p 128 2 → s.endpoints.length <
          4096 →
        fieldAt b 2 1 < 64 → 16 ≤ (u.members p (fieldAt b 2 1)).length → t.fd (Rg.CHN_CMD_RESULT_RESULT p) = 5 ∧ t.endpoints =
            s.endpoints) ∧
      (∀ b, o = some b → fieldAt b 0 1 = 0 → u.epArgBad p b = false → (u.epsOf p).length < u.cfg p 128 2 → s.endpoints.length <
          4096 →
        ¬ (fieldAt b 2 1 < 64 ∧ 16 ≤ (u.members p (fieldAt b 2 1)).length) →
        t.fd (Rg.CHN_CMD_RESULT_RESULT p) = 0 ∧ t.fd (Rg.CHN_CMD_RESULT_HANDLE p) = freeIdx s.endpoints % 4096 ∧
        find? t.endpoints (freeIdx s.endpoints) = some ⟨false, p, fieldAt b 1 1, fieldAt b 8 8, fieldAt b 16 8, fieldAt b 24 4,
            fieldAt b 2 1,
          fieldAt b 3 1, 0, 0, 0, [], 0⟩ ∧ ∀ j, j ≠ freeIdx s.endpoints → find? t.endpoints j = find? s.endpoints j) ∧
      (∀ b, o = some b → fieldAt b 0 1 = 1 → u.churnArgBad p b = true → t.fd (Rg.CHN_CMD_RESULT_RESULT p) = 3 ∧ t.churns =
          s.churns) ∧
      (∀ b, o = some b → fieldAt b 0 1 = 1 → u.churnArgBad p b = false → u.cfg p 130 2 ≤ (s.churns.filter fun c => c.2.part ==
          p).length →
        t.fd (Rg.CHN_CMD_RESULT_RESULT p) = 1 ∧ t.churns = s.churns) ∧
      (∀ b, o = some b → fieldAt b 0 1 = 1 → u.churnArgBad p b = false → (s.churns.filter fun c => c.2.part == p).length < u.cfg p
          130 2 →
        256 ≤ s.churns.length → t.fd (Rg.CHN_CMD_RESULT_RESULT p) = 2 ∧ t.churns = s.churns) ∧
      (∀ b, o = some b → fieldAt b 0 1 = 1 → u.churnArgBad p b = false → (s.churns.filter fun c => c.2.part == p).length < u.cfg p
          130 2 →
        s.churns.length < 256 → t.fd (Rg.CHN_CMD_RESULT_RESULT p) = 0 ∧ t.fd (Rg.CHN_CMD_RESULT_HANDLE p) = freeIdx s.churns %
            4096 ∧
        find? t.churns (freeIdx s.churns) = some ⟨p, fieldAt b 1 1, fieldAt b 2 2, fieldAt b 4 2, fieldAt b 6 2, fieldAt b 8 8,
            fieldAt b 16 8,
          0, 0, none, []⟩ ∧ (∀ j, j ≠ freeIdx s.churns → find? t.churns j = find? s.churns j) ∧
        (u.ecc.flips = [] → u.badPoint p (fieldAt b 8 8) (4 * fieldAt b 4 2) = none → fieldAt b 8 8 < windowBase → ∀ x,
          find unwritten t.mem x = if fieldAt b 8 8 ≤ x ∧ x < fieldAt b 8 8 + 4 * fieldAt b 4 2 then 0 else find unwritten u.mem
              x)) := by
  refine ⟨_, rfl, ?_⟩
  obtain ⟨iu, ee, ec⟩ := State.blk_kept hu i
  unfold State.chnOpen
  rw [if_neg (by simp [hd]), hu]
  have res : ∀ c, c < 256 → (u.chnResult p c).fd (Rg.CHN_CMD_RESULT_RESULT p) = c := fun c hc =>
    (State.chnResult_shown iu p c).1.trans (Nat.mod_eq_of_lt hc)
  have rr : ∀ c, c < 256 → (u.chnResult p c).fd (Rg.CHN_CMD_RESULT_RESULT p) = c ∧ (u.chnResult p c).endpoints = s.endpoints ∧
      (u.chnResult p c).churns = s.churns :=
    fun c hc => ⟨res c hc, ee, ec⟩
  refine ⟨?_, ?_, ?_, ?_, ?_, ?_, ?_, ?_, ?_, ?_, ?_⟩
  · rintro rfl; exact rr 8 (Nat.le_of_ble_eq_true rfl)
  · rintro b rfl hb
    dsimp only
    split
    · omega
    · omega
    · exact rr 3 (Nat.le_of_ble_eq_true rfl)
  · rintro b rfl hb h1
    dsimp only
    rw [hb]
    dsimp only [State.openEp]
    rw [if_pos h1]
    exact ⟨(rr 3 (Nat.le_of_ble_eq_true rfl)).1, ee⟩
  · rintro b rfl hb h1 h2
    dsimp only
    rw [hb]
    dsimp only [State.openEp]
    rw [if_neg (by simp [h1]), if_pos h2]
    exact ⟨(rr 1 (Nat.le_of_ble_eq_true rfl)).1, ee⟩
  · rintro b rfl hb h1 h2 h3
    dsimp only
    rw [hb]
    dsimp only [State.openEp]
    rw [if_neg (by simp [h1]), if_neg (by omega), if_pos (by rw [ee]; exact h3)]
    exact ⟨(rr 2 (Nat.le_of_ble_eq_true rfl)).1, ee⟩
  · rintro b rfl hb h1 h2 h3 h4 h5
    dsimp only
    rw [hb]
    dsimp only [State.openEp]
    rw [if_neg (by simp [h1]), if_neg (by omega), if_neg (by rw [ee]; omega), if_pos (by simp [h4, h5])]
    exact ⟨(rr 5 (Nat.le_of_ble_eq_true rfl)).1, ee⟩
  · rintro b rfl hb h1 h2 h3 h4
    dsimp only
    rw [hb]
    dsimp only [State.openEp]
    rw [if_neg (by simp [h1]), if_neg (by omega), if_neg (by rw [ee]; omega), if_neg (by simpa using h4), ee]
    generalize (⟨false, p, fieldAt b 1 1, fieldAt b 8 8, fieldAt b 16 8, fieldAt b 24 4, fieldAt b 2 1, fieldAt b 3 1, 0, 0, 0,
        [], 0⟩ : Endpoint) = e
    have k := State.chnOpened_shown (s := { u with endpoints := ins s.endpoints (freeIdx s.endpoints) e }) (iu.of_eq rfl rfl rfl rfl rfl) p (freeIdx s.endpoints)
    exact ⟨k.1, k.2, find?_ins_self' _ _ _, fun j hj => find?_ins_of_ne _ _ hj⟩
  · rintro b rfl hb h1
    dsimp only
    rw [hb]
    dsimp only [State.openChurn]
    rw [if_pos h1]
    exact ⟨(rr 3 (Nat.le_of_ble_eq_true rfl)).1, ec⟩
  · rintro b rfl hb h1 h2
    dsimp only
    rw [hb]
    dsimp only [State.openChurn]
    rw [if_neg (by simp [h1]), if_pos (by rw [ec]; exact h2)]
    exact ⟨(rr 1 (Nat.le_of_ble_eq_true rfl)).1, ec⟩
  · rintro b rfl hb h1 h2 h3
    dsimp only
    rw [hb]
    dsimp only [State.openChurn]
    rw [if_neg (by simp [h1]), if_neg (by rw [ec]; omega), if_pos (by rw [ec]; exact h3)]
    exact ⟨(rr 2 (Nat.le_of_ble_eq_true rfl)).1, ec⟩
  · rintro b rfl hb h1 h2 h3
    dsimp only
    rw [hb]
    dsimp only [State.openChurn]
    rw [if_neg (by simp [h1]), if_neg (by rw [ec]; omega), if_neg (by rw [ec]; omega), ec]
    generalize (⟨p, fieldAt b 1 1, fieldAt b 2 2, fieldAt b 4 2, fieldAt b 6 2, fieldAt b 8 8, fieldAt b 16 8, 0, 0, none, []⟩ :
        Churn) = c
    have iv : ({ u with churns := ins s.churns (freeIdx s.churns) c } : State).Inv := iu.of_eq rfl rfl rfl rfl rfl
    have kd : State.Keeps 74450131340091398 { u with churns := ins s.churns (freeIdx s.churns) c } (State.devWrite { u with churns := ins s.churns (freeIdx s.churns) c } p 1 (fieldAt b 8 8) (List.replicate (4 * fieldAt b 4 2) 0)).st := State.devWrite_keeps (by decide) (.refl _) _ _ _ _ _
    have km : u.ecc.flips = [] → u.badPoint p (fieldAt b 8 8) (4 * fieldAt b 4 2) = none → fieldAt b 8 8 < windowBase → ∀ x,
        find unwritten (State.devWrite { u with churns := ins s.churns (freeIdx s.churns) c } p 1 (fieldAt b 8 8) (List.replicate (4 * fieldAt b 4 2) 0)).st.mem x =
          if fieldAt b 8 8 ≤ x ∧ x < fieldAt b 8 8 + 4 * fieldAt b 4 2 then 0 else find unwritten u.mem x := by
      intro hf hb ha x
      have hb' : State.badPoint { u with churns := ins s.churns (freeIdx s.churns) c } p (fieldAt b 8 8) (List.replicate (4 * fieldAt b 4 2) (0 : Byte)).length = none := by
        rw [List.length_replicate]
        exact (State.badPoint_congr (s := u) rfl rfl rfl rfl p _ _).trans hb
      have := State.devWrite_mem (s := { u with churns := ins s.churns (freeIdx s.churns) c }) hf iv.mem (cls := 1) (bad := false) hb' ha x
      rw [this, List.length_replicate]
      split
      · rw [List.getD_eq_getElem?_getD, List.getElem?_replicate]
        split <;> rfl
      · rfl
    have ed : (State.devWrite { u with churns := ins s.churns (freeIdx s.churns) c } p 1 (fieldAt b 8 8) (List.replicate (4 * fieldAt b 4 2) 0)).st.churns =
        ins s.churns (freeIdx s.churns) c := kd.same .churns (by decide)
    have id := kd.inv iv
    generalize (State.devWrite { u with churns := ins s.churns (freeIdx s.churns) c } p 1 (fieldAt b 8 8) (List.replicate (4 * fieldAt b 4 2) 0)).st = v at km ed id
    have k := State.chnOpened_shown id p (freeIdx s.churns)
    have e1 : (v.chnOpened p (freeIdx s.churns)).churns = v.churns := rfl
    have e2 : (v.chnOpened p (freeIdx s.churns)).mem = v.mem := rfl
    have e3 := e1.trans ed
    exact ⟨k.1, k.2, (congrArg (find? · (freeIdx s.churns)) e3).trans (find?_ins_self' _ _ _),
      fun j hj => (congrArg (find? · j) e3).trans (find?_ins_of_ne _ _ hj), fun hf hb ha x => (congrArg (find unwritten · x)
          e2).trans (km hf hb ha x)⟩

/-! ### Ports with nothing queued -/

theorem State.pumpN_idle {p n : Nat} : ∀ (k : Nat) {s : State}, (s.sender p n).queue = [] → State.pumpN p n k s = s := by
  intro k
  induction k with
  | zero => intro s _; rfl
  | succ k ih =>
    intro s h
    have e : s.sendHead p n = s := by unfold State.sendHead; rw [h]
    unfold State.pumpN
    dsimp only
    rw [e, if_neg (Nat.lt_irrefl _)]

theorem State.pumpAll_idle {s : State} {p : Nat} (h : ∀ n, (s.sender p n).queue = []) : s.pumpAll p = s := by
  have key : ∀ l : List (Nat × Port), l.foldl (fun s e => s.pump p e.1) s = s := by
    intro l
    induction l with
    | nil => rfl
    | cons x t ih =>
      rw [List.foldl_cons]
      have : s.pump p x.1 = s := State.pumpN_idle 9 (h x.1)
      rw [this]
      exact ih
  exact key _

theorem State.find_modEp {s : State} {h : Nat} {e : Endpoint} (he : find? s.endpoints h = some e) (f : Endpoint → Endpoint) :
    s.modEp h f = { s with endpoints := ins s.endpoints h (f e) } := by
  unfold State.modEp
  rw [he]

theorem State.find_modChurn {s : State} {h : Nat} {e : Churn} (he : find? s.churns h = some e) (f : Churn → Churn) :
    s.modChurn h f = { s with churns := ins s.churns h (f e) } := by
  unfold State.modChurn
  rw [he]

theorem chnClose_spec (s : State) (i : s.Inv) (p h : Nat) (churn : Bool) (hd : s.defined p = true) :
    ∃ t, exec (.chnClose p h churn) s = .next t ∧
      (churn = true → (∀ c, find? s.churns h = some c → c.part ≠ p) → t.fd (Rg.CHN_CMD_RESULT_RESULT p) = 4 ∧ t.churns = s.churns) ∧
      (churn = false → (∀ e, find? s.endpoints h = some e → e.part ≠ p ∨ e.closing = true) →
        t.fd (Rg.CHN_CMD_RESULT_RESULT p) = 4 ∧ t.endpoints = s.endpoints) ∧
      (∀ c, churn = true → find? s.churns h = some c → c.part = p → t.fd (Rg.CHN_CMD_RESULT_RESULT p) = 0 ∧
        ((∀ n, (s.sender p n).queue = []) → find? t.churns h = none ∧ (∀ x, x ∈ t.churns ↔ x ∈ s.churns ∧ x.1 ≠ h) ∧
          t.fd (Rg.CHN_EVENTS_DISCARDED p) = min (s.fd (Rg.CHN_EVENTS_DISCARDED p) + (b2n (c.received != 0) + b2n
              c.notice.isSome)) 65535)) ∧
      (∀ e, churn = false → find? s.endpoints h = some e → e.part = p → e.closing = false → t.fd (Rg.CHN_CMD_RESULT_RESULT p) = 0 ∧
        ((∀ n, (s.sender p n).queue = []) → find? t.endpoints h = some { e with closing := true, closeAt := s.now } ∧
          ∀ j, j ≠ h → find? t.endpoints j = find? s.endpoints j)) := by
  refine ⟨_, rfl, ?_⟩
  have res : (s.chnResult p 4).fd (Rg.CHN_CMD_RESULT_RESULT p) = 4 := (State.chnResult_shown i p 4).1
  unfold State.chnClose
  rw [if_neg (by simp [hd])]
  refine ⟨fun hc hn => ?_, fun hc hn => ?_, fun c hc hf hp => ?_, fun e hc hf hp hcl => ?_⟩
  · rw [if_pos hc]
    cases hf : find? s.churns h with
    | none => exact ⟨res, rfl⟩
    | some c =>
      dsimp only
      rw [if_pos (hn c hf)]
      exact ⟨res, rfl⟩
  · rw [if_neg (by simp [hc])]
    cases hf : find? s.endpoints h with
    | none => exact ⟨res, rfl⟩
    | some e =>
      dsimp only
      rw [if_pos (by simpa using hn e hf)]
      exact ⟨res, rfl⟩
  · rw [if_pos hc, hf]
    dsimp only
    rw [if_neg (by simp [hp])]
    have iu : ({ s with churns := del s.churns h } : State).Inv := i.of_eq rfl rfl rfl rfl rfl
    have ib := State.bump_inv iu (Rg.CHN_EVENTS_DISCARDED p) (b2n (c.received != 0) + b2n c.notice.isSome)
    have fb := State.fd_bump_self iu (Rg.CHN_EVENTS_DISCARDED p) (b2n (c.received != 0) + b2n c.notice.isSome)
        (Nat.le_of_ble_eq_true rfl)
    have ec : (State.bump { s with churns := del s.churns h } (Rg.CHN_EVENTS_DISCARDED p) (b2n (c.received != 0) + b2n c.notice.isSome)).churns = del s.churns h := State.bump_churns ..
    have eq : ∀ n, (State.bump { s with churns := del s.churns h } (Rg.CHN_EVENTS_DISCARDED p) (b2n (c.received != 0) + b2n c.notice.isSome)).sender p n = s.sender p n := fun n => by
      unfold State.sender; rw [State.bump_part]; rfl
    generalize State.bump { s with churns := del s.churns h } (Rg.CHN_EVENTS_DISCARDED p) (b2n (c.received != 0) + b2n c.notice.isSome) = v at ib fb ec eq
    refine ⟨?_, fun hq => ?_⟩
    · have kp : v.Keeps 818708437622321159 (v.pumpAll p) := State.pumpAll_keeps (by decide) (.refl _) p
      exact (State.chnResult_shown (kp.inv ib) p 0).1
    · rw [State.pumpAll_idle fun n => by rw [eq]; exact hq n]
      have e1 : (v.chnResult p 0).churns = v.churns := rfl
      have e2 : (v.chnResult p 0).fd (Rg.CHN_EVENTS_DISCARDED p) = v.fd (Rg.CHN_EVENTS_DISCARDED p) := by
        unfold State.chnResult
        simp (disch := (first
                | decide | exact Nat.le_of_ble_eq_true rfl | exact RF.apart_bits rfl
                | (refine RF.apart_addr ?_; simp only [Rg.CHN_CMD_RESULT_RESULT, Rg.CHN_CMD_RESULT, Rg.CHN_CMD_RESULT_COUNT,
                  Rg.CHN_EVENTS_DISCARDED, Rg.CHN_EVENTS]; omega)
                | (simp only [ne_eq, Rg.CHN_CMD_RESULT_RESULT, Rg.CHN_CMD_RESULT, Rg.CHN_CMD_RESULT_COUNT,
                  Rg.CHN_EVENTS_DISCARDED, Rg.CHN_EVENTS]; omega) | simp (maxDischargeDepth := 40) [*])) [State.fd_incr_apart,
            State.fd_setF_apart]
      rw [e1, ec, e2]
      refine ⟨find?_del_self _ _, fun x => ?_, fb⟩
      unfold del
      rw [List.mem_filter]
      simp
  · rw [if_neg (by simp [hc]), hf]
    dsimp only
    rw [if_neg (by simp [hp, hcl]), State.find_modEp hf]
    have iu : ({ s with endpoints := ins s.endpoints h { e with closing := true, closeAt := s.now } } : State).Inv := i.of_eq rfl rfl rfl rfl rfl
    refine ⟨?_, fun hq => ?_⟩
    · have kp : State.Keeps 818708437622321159 { s with endpoints := ins s.endpoints h { e with closing := true, closeAt := s.now } } (State.pumpAll { s with endpoints := ins s.endpoints h { e with closing := true, closeAt := s.now } } p) := State.pumpAll_keeps (by decide) (.refl _) p
      exact (State.chnResult_shown (kp.inv iu) p 0).1
    · rw [State.pumpAll_idle (s := { s with endpoints := ins s.endpoints h { e with closing := true, closeAt := s.now } }) fun n => hq n]
      exact ⟨find?_ins_self' _ _ _, fun j hj => find?_ins_of_ne _ _ hj⟩

theorem State.spillAdvance_fd {s : State} (i : s.Inv) (p q n : Nat) : (s.spillAdvance q n).Inv ∧
    (s.spillAdvance q n).fd (Rg.CHN_EVENTS_DISCARDED p) = s.fd (Rg.CHN_EVENTS_DISCARDED p) ∧ (s.spillAdvance q n).endpoints =
        s.endpoints := by
  unfold State.spillAdvance
  dsimp only
  split
  · exact ⟨i, rfl, rfl⟩
  · rename_i m hm
    have iu : (s.modSender q n fun x => { x with spill := x.spill.drop ((s.sender q n).spill.takeWhile fun m => m.released).length }).Inv := i.of_eq rfl rfl rfl rfl rfl
    refine ⟨State.setF_inv iu _ _, ?_, rfl⟩
    refine (State.fd_setF_apart iu _ _ _ (.inl ?_)).trans rfl
    simp only [Rg.CHN_EVENTS_DISCARDED, Rg.CHN_EVENTS, Rg.CHN_PORT_SPILL_PTR_HEAD, Rg.CHN_PORT_SPILL_PTR]
    omega

theorem endpointFree_spec (s : State) (i : s.Inv) (h : Nat) (e : Endpoint) (he : find? s.endpoints h = some e) :
    ∃ t, exec (.endpointFree h) s = .next t ∧
      (e.closing = false ∨ (s.landings.any fun l => l.ep == h) = true → t = s) ∧
      (e.closing = true → (s.landings.any fun l => l.ep == h) = false → find? t.endpoints h = none ∧
        (∀ x, x ∈ t.endpoints ↔ x ∈ s.endpoints ∧ x.1 ≠ h) ∧
        t.fd (Rg.CHN_EVENTS_DISCARDED e.part) = min (s.fd (Rg.CHN_EVENTS_DISCARDED e.part) + (e.msgs.length +
          ((s.part e.part).ports.map fun q => (q.2.spill.filter fun m => m.ep == h && !m.released).length).foldl (· + ·) 0))
              65535) := by
  refine ⟨_, rfl, ?_⟩
  unfold State.endpointFree
  rw [he]
  dsimp only
  refine ⟨fun hc => ?_, fun h1 h2 => ?_⟩
  · rw [if_pos (by rcases hc with h | h <;> simp [h])]
  · rw [if_neg (by simp [h1, h2])]
    generalize ((s.part e.part).ports.map fun q => (q.2.spill.filter fun m => m.ep == h && !m.released).length).foldl (· + ·) 0 = n
    have ib := State.bump_inv i (Rg.CHN_EVENTS_DISCARDED e.part) (e.msgs.length + n)
    have fb := State.fd_bump_self i (Rg.CHN_EVENTS_DISCARDED e.part) (e.msgs.length + n) (Nat.le_of_ble_eq_true rfl)
    have ee : (s.bump (Rg.CHN_EVENTS_DISCARDED e.part) (e.msgs.length + n)).endpoints = s.endpoints := State.bump_endpoints ..
    generalize s.bump (Rg.CHN_EVENTS_DISCARDED e.part) (e.msgs.length + n) = v at ib fb ee
    have key : ∀ w : State, w.Inv → w.fd (Rg.CHN_EVENTS_DISCARDED e.part) = v.fd (Rg.CHN_EVENTS_DISCARDED e.part) → w.endpoints =
        del s.endpoints h →
        ((w.part e.part).ports.foldl (fun s x => s.spillAdvance e.part x.1) w).fd (Rg.CHN_EVENTS_DISCARDED e.part) = v.fd
            (Rg.CHN_EVENTS_DISCARDED e.part) ∧
        ((w.part e.part).ports.foldl (fun s x => s.spillAdvance e.part x.1) w).endpoints = del s.endpoints h := by
      intro w iw fw ew
      have := foldl_keep (f := fun s x => s.spillAdvance e.part x.1) (P := fun y : State => y.Inv ∧ y.fd (Rg.CHN_EVENTS_DISCARDED
          e.part) = v.fd (Rg.CHN_EVENTS_DISCARDED e.part) ∧ y.endpoints = del s.endpoints h)
        (w.part e.part).ports (fun y b hy => by
          have k := State.spillAdvance_fd hy.1 e.part e.part b.1
          exact ⟨k.1, k.2.1.trans hy.2.1, k.2.2.trans hy.2.2⟩) ⟨iw, fw, ew⟩
      exact this.2
    have g := key (State.modPart { v with endpoints := del v.endpoints h } e.part fun q => { q with
        ports := q.ports.map fun x => (x.1, { x.2 with
          seqs := del x.2.seqs h, spill := x.2.spill.map fun m => if m.ep == h then { m with released := true } else m })
        groups := q.groups.map fun x => (x.1, { x.2 with handed := x.2.handed.filter fun y => y.ep != h }) }) (ib.of_eq rfl rfl rfl rfl rfl) rfl (by rw [← ee]; rfl)
    refine ⟨?_, ?_, g.1.trans fb⟩
    · rw [g.2]; exact find?_del_self _ _
    · intro x
      rw [g.2]
      unfold del
      rw [List.mem_filter]
      simp

/-! ### Receiving (R358, R360, R361) -/

theorem epHeadWrite_spec (s : State) (i : s.Inv) (p : Nat) (v : W64) (hd : s.defined p = true) (e : Endpoint)
    (he : find? s.endpoints (s.fd (Rg.CHN_EP_SEL_HANDLE p)) = some e) :
    ∃ t, exec (.epHeadWrite p v) s = .next t ∧ (e.part ≠ p ∨ e.group < 64 → t = s) ∧
      (e.part = p → 64 ≤ e.group → (e.tail + 2 ^ 32 - e.head) % 2 ^ 32 < (bitsOf v.toNat 32 32 + 2 ^ 32 - e.head) % 2 ^ 32 →
        t.endpoints = s.endpoints ∧ t.fd (Rg.CHN_EVENTS_DISCARDED p) = min (s.fd (Rg.CHN_EVENTS_DISCARDED p) + 1) 65535) ∧
      (e.part = p → 64 ≤ e.group → (bitsOf v.toNat 32 32 + 2 ^ 32 - e.head) % 2 ^ 32 ≤ (e.tail + 2 ^ 32 - e.head) % 2 ^ 32 →
        find? t.endpoints (s.fd (Rg.CHN_EP_SEL_HANDLE p)) = some { e with head := bitsOf v.toNat 32 32, msgs := e.msgs.filter fun m =>
          (bitsOf v.toNat 32 32 + 2 ^ 32 - e.head) % 2 ^ 32 < (m.at_ + m.len + 2 ^ 32 - e.head) % 2 ^ 32 } ∧
        t.regs = s.regs ∧ ∀ j, j ≠ s.fd (Rg.CHN_EP_SEL_HANDLE p) → find? t.endpoints j = find? s.endpoints j) := by
  refine ⟨_, rfl, ?_⟩
  rw [if_pos hd]
  unfold State.epHead
  dsimp only
  rw [he]
  dsimp only
  refine ⟨fun h => ?_, fun h1 h2 h3 => ?_, fun h1 h2 h3 => ?_⟩
  · rw [if_pos (by simpa using h)]
  · rw [if_neg (by simp; omega), if_pos h3]
    exact ⟨State.bump_endpoints .., State.fd_bump_self i _ _ (Nat.le_of_ble_eq_true rfl)⟩
  · rw [if_neg (by simp; omega), if_neg (by omega), State.find_modEp he]
    exact ⟨find?_ins_self' _ _ _, rfl, fun j hj => find?_ins_of_ne _ _ hj⟩

theorem State.group_modGroup (s : State) (p g : Nat) (f : Group → Group) : (s.modGroup p g f).group p g = f (s.group p g) := by
  unfold State.group State.modGroup
  rw [State.part_modPart_self]
  exact find_ins_self _ _ _ _

/-- What handing out an offer leaves. -/
theorem State.handOut_shown {w : State} (iw : w.Inv) (p g : Nat) (x : Handed) (a v : W64) :
    State.rd { (w.modGroup p g fun y => { y with handed := y.handed ++ [x] }).wr (Rg.CHN_SEL_NEXT_ADDR p g) a with bus := v } (Rg.CHN_SEL_NEXT_ADDR p g) = a ∧
    State.group { (w.modGroup p g fun y => { y with handed := y.handed ++ [x] }).wr (Rg.CHN_SEL_NEXT_ADDR p g) a with bus := v } p g =
      { w.group p g with handed := (w.group p g).handed ++ [x] } := by
  have im : (w.modGroup p g fun y => { y with handed := y.handed ++ [x] }).Inv := iw.of_eq rfl rfl rfl rfl rfl
  exact ⟨State.rd_wr_self im _ _, State.group_modGroup w p g fun y => { y with handed := y.handed ++ [x] }⟩

theorem State.offerSpill_spill {s : State} {p g : Nat} {o : Offer} (h : s.offerSpill p g = some o) : o.spill = true := by
  unfold State.offerSpill at h
  dsimp only at h
  rw [Option.map_eq_some_iff] at h
  obtain ⟨x, -, rfl⟩ := h
  rfl

theorem State.offerRing_ring {s : State} {p g : Nat} {o : Offer} (h : s.offerRing p g = some o) : o.spill = false := by
  unfold State.offerRing at h
  dsimp only at h
  rw [Option.map_eq_some_iff] at h
  obtain ⟨x, -, rfl⟩ := h
  rfl

/-- The state once the offered message is marked. -/
theorem State.selNext_spill {s : State} {p g : Nat} {o : Offer} (h : s.offerSpill p g = some o) (w : State)
    (hw : (s.modSender p o.src fun q => { q with spill := q.spill.map fun m => if m.ep == o.ep && m.at_ == o.start then { m with handed := true } else m }).modGroup p g
      (fun x => { x with spillRot := o.src }) = w) :
    s.selNext p g = { (w.modGroup p g fun y => { y with handed := y.handed ++ [⟨o.ep, o.spill, o.src, o.start⟩] }).wr (Rg.CHN_SEL_NEXT_ADDR p g) (BitVec.ofNat 64 o.addr) with
      bus := BitVec.ofNat 64 (1 + 2 * b2n o.spill + 4 * (o.len / 32) + o.ep * 2 ^ 16 + o.seq * 2 ^ 32 + o.src * 2 ^ 48) } := by
  have hs := State.offerSpill_spill h
  unfold State.selNext
  rw [h]
  dsimp only
  rw [if_pos hs, hw]

theorem State.selNext_ring {s : State} {p g : Nat} {o : Offer} (h0 : s.offerSpill p g = none) (h : s.offerRing p g = some o) (w :
    State)
    (hw : (s.modEp o.ep fun e => { e with msgs := e.msgs.map fun m => if m.at_ == o.start then { m with handed := true } else m }).modGroup p g
      (fun x => { x with rot := o.ep }) = w) :
    s.selNext p g = { (w.modGroup p g fun y => { y with handed := y.handed ++ [⟨o.ep, o.spill, o.src, o.start⟩] }).wr (Rg.CHN_SEL_NEXT_ADDR p g) (BitVec.ofNat 64 o.addr) with
      bus := BitVec.ofNat 64 (1 + 2 * b2n o.spill + 4 * (o.len / 32) + o.ep * 2 ^ 16 + o.seq * 2 ^ 32 + o.src * 2 ^ 48) } := by
  have hs := State.offerRing_ring h
  unfold State.selNext
  rw [h0]
  dsimp only
  rw [h]
  dsimp only
  rw [if_neg (by simp [hs]), hw]

theorem selNext_spec (s : State) (i : s.Inv) (p g : Nat) (hd : s.defined p = true) (hg : g < 64) :
    ∃ t, exec (.selNext p g) s = .next t ∧
      (s.offerSpill p g = none → s.offerRing p g = none → t = { s with bus := 0 }) ∧
      (∀ o, (s.offerSpill p g = some o ∨ s.offerSpill p g = none ∧ s.offerRing p g = some o) →
        t.bus = BitVec.ofNat 64 (1 + 2 * b2n o.spill + 4 * (o.len / 32) + o.ep * 2 ^ 16 + o.seq * 2 ^ 32 + o.src * 2 ^ 48) ∧
        t.rd (Rg.CHN_SEL_NEXT_ADDR p g) = BitVec.ofNat 64 o.addr ∧
        (t.group p g).handed = (s.group p g).handed ++ [⟨o.ep, o.spill, o.src, o.start⟩] ∧
        (o.spill = true → (t.group p g).spillRot = o.src ∧ t.endpoints = s.endpoints) ∧
        (∀ e, o.spill = false → find? s.endpoints o.ep = some e → (t.group p g).rot = o.ep ∧
          find? t.endpoints o.ep = some { e with msgs := e.msgs.map fun m => if m.at_ == o.start then { m with handed := true } else m })) := by
  refine ⟨_, rfl, ?_⟩
  rw [if_pos (by simp [hd, hg])]
  refine ⟨fun h1 h2 => ?_, fun o ho => ?_⟩
  · unfold State.selNext
    rw [h1]; dsimp only; rw [h2]
  · rcases ho with h | ⟨h0, h⟩
    · have hs := State.offerSpill_spill h
      have iw : ((s.modSender p o.src fun q => { q with spill := q.spill.map fun m => if m.ep == o.ep && m.at_ == o.start then { m with handed := true } else m }).modGroup p g fun x => { x with spillRot := o.src }).Inv := i.of_eq rfl rfl rfl rfl rfl
      have ee : ((s.modSender p o.src fun q => { q with spill := q.spill.map fun m => if m.ep == o.ep && m.at_ == o.start then { m with handed := true } else m }).modGroup p g fun x => { x with spillRot := o.src }).endpoints = s.endpoints := rfl
      have eg := State.group_modGroup (s.modSender p o.src fun q => { q with spill := q.spill.map fun m => if m.ep == o.ep && m.at_ == o.start then { m with handed := true } else m }) p g fun x => { x with spillRot := o.src }
      have es : (s.modSender p o.src fun q => { q with spill := q.spill.map fun m => if m.ep == o.ep && m.at_ == o.start then { m with handed := true } else m }).group p g = s.group p g := by
        unfold State.group State.modSender; rw [State.part_modPart_self]
      rw [es] at eg
      have sn := State.selNext_spill h _ rfl
      generalize ((s.modSender p o.src fun q => { q with spill := q.spill.map fun m => if m.ep == o.ep && m.at_ == o.start then { m with handed := true } else m }).modGroup p g fun x => { x with spillRot := o.src }) = w at iw ee eg sn
      have k := State.handOut_shown iw p g ⟨o.ep, o.spill, o.src, o.start⟩ (BitVec.ofNat 64 o.addr) (BitVec.ofNat 64 (1 + 2 * b2n
          o.spill + 4 * (o.len / 32) + o.ep * 2 ^ 16 + o.seq * 2 ^ 32 + o.src * 2 ^ 48))
      rw [sn, k.2, eg]
      exact ⟨rfl, k.1, rfl, fun _ => ⟨rfl, ee⟩, fun e hf => absurd hf (by simp [hs])⟩
    · have hs := State.offerRing_ring h
      have im : (s.modEp o.ep fun e => { e with msgs := e.msgs.map fun m => if m.at_ == o.start then { m with handed := true } else m }).Inv := by
        unfold State.modEp; split
        · exact i.of_eq rfl rfl rfl rfl rfl
        · exact i
      have es : (s.modEp o.ep fun e => { e with msgs := e.msgs.map fun m => if m.at_ == o.start then { m with handed := true } else m }).group p g = s.group p g := by
        unfold State.modEp; split <;> rfl
      have em : ∀ e, find? s.endpoints o.ep = some e → (s.modEp o.ep fun e => { e with msgs := e.msgs.map fun m => if m.at_ == o.start then { m with handed := true } else m }).endpoints =
          ins s.endpoints o.ep { e with msgs := e.msgs.map fun m => if m.at_ == o.start then { m with handed := true } else m } := fun e he => by rw [State.find_modEp he]
      have sn := State.selNext_ring h0 h _ rfl
      generalize (s.modEp o.ep fun e => { e with msgs := e.msgs.map fun m => if m.at_ == o.start then { m with handed := true } else m }) = v at im es em sn
      have iw : (v.modGroup p g fun x => { x with rot := o.ep }).Inv := im.of_eq rfl rfl rfl rfl rfl
      have eg := State.group_modGroup v p g fun x => { x with rot := o.ep }
      have ev : (v.modGroup p g fun x => { x with rot := o.ep }).endpoints = v.endpoints := rfl
      rw [es] at eg
      generalize (v.modGroup p g fun x => { x with rot := o.ep }) = w at iw eg ev sn
      have k := State.handOut_shown iw p g ⟨o.ep, o.spill, o.src, o.start⟩ (BitVec.ofNat 64 o.addr) (BitVec.ofNat 64 (1 + 2 * b2n
          o.spill + 4 * (o.len / 32) + o.ep * 2 ^ 16 + o.seq * 2 ^ 32 + o.src * 2 ^ 48))
      rw [sn, k.2, eg]
      refine ⟨rfl, k.1, rfl, fun hf => absurd hf (by simp [hs]), fun e _ he => ⟨rfl, ?_⟩⟩
      have := ev.trans (em e he)
      exact (congrArg (find? · o.ep) this).trans (find?_ins_self' _ _ _)

theorem selDone_spec (s : State) (i : s.Inv) (p g : Nat) (v : W64) (hd : s.defined p = true) (hg : g < 64) (ep : Nat) (sp : Bool)
    (hep : bitsOf v.toNat 0 12 = ep) (hsp : bitOf v.toNat 12 = sp) :
    ∃ t, exec (.selDone p g v) s = .next t ∧
      ((s.group p g).handed.find? (fun h => h.ep == ep && h.spill == sp) = none →
        t.fd (Rg.CHN_EVENTS_DISCARDED p) = min (s.fd (Rg.CHN_EVENTS_DISCARDED p) + 1) 65535 ∧ t.endpoints = s.endpoints ∧ t.parts
            = s.parts) ∧
      (∀ h, (s.group p g).handed.find? (fun h => h.ep == ep && h.spill == sp) = some h → sp = false →
        (t.group p g).handed = (s.group p g).handed.erase h ∧ ∀ e, find? s.endpoints ep = some e → find? t.endpoints ep = some
            e.release) ∧
      (∀ h, (s.group p g).handed.find? (fun h => h.ep == ep && h.spill == sp) = some h → sp = true → t.endpoints = s.endpoints ∧
        t = (s.modGroup p g fun x => { x with handed := x.handed.erase h }).spillRelease p h.src h.at_) := by
  refine ⟨_, rfl, ?_⟩
  rw [if_pos (by simp [hd, hg])]
  unfold State.selDone
  dsimp only
  rw [hep, hsp]
  refine ⟨fun h => ?_, fun h hh hs => ?_, fun h hh hs => ?_⟩
  · rw [h]
    exact ⟨State.fd_bump_self i _ _ (Nat.le_of_ble_eq_true rfl), State.bump_endpoints .., State.bump_parts ..⟩
  · rw [hh]
    dsimp only
    rw [if_neg (by simp [hs])]
    have eg := State.group_modGroup s p g fun x => { x with handed := x.handed.erase h }
    refine ⟨?_, fun e he => ?_⟩
    · refine Eq.trans ?_ (congrArg Group.handed eg)
      unfold State.modEp; split <;> rfl
    · rw [State.find_modEp (s := s.modGroup p g fun x => { x with handed := x.handed.erase h }) he]
      exact find?_ins_self' _ _ _
  · rw [hh]
    dsimp only
    rw [if_pos hs]
    refine ⟨?_, rfl⟩
    unfold State.spillRelease State.spillAdvance
    dsimp only
    split <;> rfl

end Sys2Proof.Machine
end

