-- ==== Sys2Proof/Laws/EffSend.lean ====
section
/-!
SUPPORT. What sends, landings and Churn queues do (11_channels.md R354 to R367).
-/
namespace Sys2Proof.Machine

theorem State.sender_modSender (s : State) (p n : Nat) (f : Port → Port) : (s.modSender p n f).sender p n = f (s.sender p n) := by
  unfold State.sender State.modSender
  rw [State.part_modPart_self]
  exact find_ins_self _ _ _ _

theorem State.pump_eq {s v : State} {p n : Nat} (h : s.sendHead p n = v)
    (hv : (s.sender p n).queue.length ≤ (v.sender p n).queue.length ∨ (v.sender p n).queue = []) : s.pump p n = v := by
  unfold State.pump State.pumpN
  dsimp only
  rw [h]
  split
  · rename_i hl
    rcases hv with hv | hv
    · omega
    · exact State.pumpN_idle 8 hv
  · rfl

theorem State.sendDone_shown {s : State} (i : s.Inv) {p n : Nat} {x : Send} (hq : (s.sender p n).queue = [x]) (ht : x.task = none)
    {c : Nat}
    (hc : c < 256) : s.SendEnds (s.sendDone p n c) p n c := by
  unfold State.sendDone
  rw [hq]
  dsimp only
  rw [ht]
  dsimp only
  have im : (s.modSender p n fun q => { q with queue := [] }).Inv := i.of_eq rfl rfl rfl rfl rfl
  have es := State.sender_modSender s p n fun q => { q with queue := [] }
  have e : ∀ f, (s.modSender p n fun q => { q with queue := [] }).fd f = s.fd f := fun f => rfl
  have k1 : (s.modSender p n fun q => { q with queue := [] }).endpoints = s.endpoints ∧ (s.modSender p n fun q => { q with queue := [] }).landings = s.landings ∧
    (s.modSender p n fun q => { q with queue := [] }).churns = s.churns ∧ (s.modSender p n fun q => { q with queue := [] }).mem = s.mem := ⟨rfl, rfl, rfl, rfl⟩
  generalize (s.modSender p n fun q => { q with queue := [] }) = u at im es e k1
  refine ⟨?_, ?_, (congrArg Port.queue es :), k1.1, k1.2.1, k1.2.2.1, k1.2.2.2⟩
  · have h : ((u.setF (Rg.CHN_PORT_SEND_STATUS_RESULT p n) c).incr (Rg.CHN_PORT_SEND_STATUS_COMPLETED p n)).fd
        (Rg.CHN_PORT_SEND_STATUS_RESULT p n) = c % 256 := by
      simp (disch := (first
              | decide | exact Nat.le_of_ble_eq_true rfl | exact RF.apart_bits rfl
              | (refine RF.apart_addr ?_; simp only [Rg.CHN_PORT_SEND_STATUS_RESULT, Rg.CHN_PORT_SEND_STATUS,
                Rg.CHN_PORT_SEND_STATUS_COMPLETED]; omega)
              | (simp only [ne_eq, Rg.CHN_PORT_SEND_STATUS_RESULT, Rg.CHN_PORT_SEND_STATUS,
                Rg.CHN_PORT_SEND_STATUS_COMPLETED]; omega) | simp (maxDischargeDepth := 40) [*])) [State.fd_incr_apart,
          State.fd_setF_self]
      rfl
    exact h.trans (Nat.mod_eq_of_lt hc)
  · have h : ((u.setF (Rg.CHN_PORT_SEND_STATUS_RESULT p n) c).incr (Rg.CHN_PORT_SEND_STATUS_COMPLETED p n)).fd
        (Rg.CHN_PORT_SEND_STATUS_COMPLETED p n) =
        (u.fd (Rg.CHN_PORT_SEND_STATUS_COMPLETED p n) + 1) % 2 ^ 32 := by
      simp (disch := (first
              | decide | exact Nat.le_of_ble_eq_true rfl | exact RF.apart_bits rfl
              | (refine RF.apart_addr ?_; simp only [Rg.CHN_PORT_SEND_STATUS_RESULT, Rg.CHN_PORT_SEND_STATUS,
                Rg.CHN_PORT_SEND_STATUS_COMPLETED]; omega)
              | (simp only [ne_eq, Rg.CHN_PORT_SEND_STATUS_RESULT, Rg.CHN_PORT_SEND_STATUS,
                Rg.CHN_PORT_SEND_STATUS_COMPLETED]; omega) | simp (maxDischargeDepth := 40) [*])) [State.fd_incr_self,
          State.fd_setF_apart]
      rfl
    exact h.trans (by rw [e])

theorem State.badDest_shown {s : State} (i : s.Inv) {p n : Nat} {x : Send} (hq : (s.sender p n).queue = [x]) (ht : x.task = none)
    (a b c : Nat) :
    s.SendEnds (s.badDest p n a b c) p n 4 := by
  unfold State.badDest
  have k1 : s.Keeps 140737488371712 (s.isolation p a b c) := State.isolation_keeps (by decide) (.refl _) _ _ _ _
  have e : ∀ u : State, (u.ctlTrap n 7).regs = u.regs ∧ (u.ctlTrap n 7).parts = u.parts ∧ (u.ctlTrap n 7).endpoints = u.endpoints
      ∧ (u.ctlTrap n 7).landings = u.landings ∧
      (u.ctlTrap n 7).churns = u.churns ∧ (u.ctlTrap n 7).mem = u.mem ∧ (u.Inv → (u.ctlTrap n 7).Inv) := by
    intro u
    unfold State.ctlTrap
    split
    · exact ⟨rfl, rfl, rfl, rfl, rfl, rfl, fun h => h.of_eq rfl rfl rfl rfl rfl⟩
    · exact ⟨rfl, rfl, rfl, rfl, rfl, rfl, id⟩
  have iu := k1.inv i
  have kf := k1.fd i (f := Rg.CHN_PORT_SEND_STATUS_COMPLETED p n) (c := .chn) (by simp only [RegBlock.has, Rg.CHN_PORT_SEND_STATUS_COMPLETED, Rg.CHN_PORT_SEND_STATUS]; omega) (by decide) (by decide)
  have kq : ((s.isolation p a b c).sender p n) = s.sender p n := by
    have := State.fltAdd_part s 2 0 p a 0 false ((b % 16) * 2 ^ 60 + c % 2 ^ 48) p
    unfold State.sender State.isolation
    rw [this]
  have k := e (s.isolation p a b c)
  have hq' : (((s.isolation p a b c).ctlTrap n 7).sender p n).queue = [x] := by
    have : ((s.isolation p a b c).ctlTrap n 7).sender p n = s.sender p n := by
      rw [← kq]; unfold State.sender State.part; rw [k.2.1]
    rw [this]; exact hq
  have r := State.sendDone_shown (k.2.2.2.2.2.2 iu) hq' ht (c := 4) (Nat.le_of_ble_eq_true rfl)
  exact ⟨r.result, r.completed.trans (by rw [State.fd_of_regs k.1, kf]), r.queue, r.endpoints.trans (k.2.2.1.trans (k1.same
      .endpoints (by decide))),
    r.landings.trans (k.2.2.2.1.trans (k1.same .landings (by decide))), r.churns.trans (k.2.2.2.2.1.trans (k1.same .churns (by
        decide))),
    r.memory.trans (k.2.2.2.2.2.1.trans (k1.same .mem (by decide)))⟩

theorem State.sendRead_some {s u : State} {p n a len : Nat} {t : Option Nat} {b : Bytes} (h : s.sendRead p n a len t = (some b,
    u)) :
    u = (s.devRead p 0 a len).st ∧ b = (s.devRead p 0 a len).data := by
  unfold State.sendRead at h
  dsimp only at h
  split at h
  · injection h with h1 h2
    injection h1 with h1
    exact ⟨h2.symm, h1.symm⟩
  · cases h

theorem State.sendRead_kept {s u : State} {p n a len : Nat} {t : Option Nat} {b : Bytes} (h : s.sendRead p n a len t = (some b,
    u)) (i : s.Inv) :
    u.Inv ∧ u.endpoints = s.endpoints ∧ u.landings = s.landings ∧ u.churns = s.churns ∧ u.mem = s.mem ∧ (∀ q m, u.sender q m =
        s.sender q m) ∧
      u.fuses = s.fuses := by
  have e := State.sendRead_some h
  have k : s.Keeps 74450131340091392 (s.devRead p 0 a len).st := State.devRead_keeps (by decide) (.refl _) _ _ _ _
  rw [← e.1] at k
  refine ⟨k.inv i, k.same .endpoints (by decide), k.same .landings (by decide), k.same .churns (by decide), k.same .mem (by
      decide), fun q m => ?_, k.same .fuses (by decide)⟩
  have := k.same .chans (by decide) q
  unfold State.sender
  rw [this.1]

/-- A landing in a ring. -/
theorem State.landRing_shown {s : State} (i : s.Inv) {h : Nat} {e : Endpoint} (he : find? s.endpoints h = some e) (skip : Nat) (bs
    : Bytes)
    (seq src p port : Nat) (task : Option Nat) :
    s.Lands (s.landRing h e skip bs seq src p port task) h e
      ⟨h, ⟨(e.wtail + skip) % 2 ^ 32, skip, bs.length, seq, src, false⟩, false, p, port, task⟩
      (e.ringBase + (e.wtail + skip) % 2 ^ 32 % e.size) bs ∧
    (∀ q m, (s.landRing h e skip bs seq src p port task).sender q m = s.sender q m) ∧ (s.landRing h e skip bs seq src p port
        task).Inv := by
  unfold State.landRing
  dsimp only
  have ks : ∀ u : State, u = (if skip = 0 then s else ((s.devWrite e.part 1 (e.ringBase + e.wtail % e.size) (skipRec
      skip)).st).bump (Rg.CHN_EVENTS_SKIPS p)) →
      u.endpoints = s.endpoints ∧ u.landings = s.landings ∧ u.Inv ∧ (∀ q m, u.sender q m = s.sender q m) ∧ (skip = 0 → u = s) := by
    rintro u rfl
    split
    · exact ⟨rfl, rfl, i, fun _ _ => rfl, fun _ => rfl⟩
    · rename_i hs
      have k : s.Keeps 74450131340091398 (s.devWrite e.part 1 (e.ringBase + e.wtail % e.size) (skipRec skip)).st :=
          State.devWrite_keeps (by decide) (.refl _) _ _ _ _ _
      generalize (s.devWrite e.part 1 (e.ringBase + e.wtail % e.size) (skipRec skip)).st = v at k
      refine ⟨(State.bump_endpoints ..).trans (k.same .endpoints (by decide)), (State.bump_landings ..).trans (k.same .landings
          (by decide)), State.bump_inv (k.inv i) _ _, fun q m => ?_, fun h => absurd h hs⟩
      have := k.same .chans (by decide) q
      unfold State.sender
      rw [State.bump_part, this.1]
  have ks := ks _ rfl
  generalize (if skip = 0 then s else ((s.devWrite e.part 1 (e.ringBase + e.wtail % e.size) (skipRec skip)).st).bump
      (Rg.CHN_EVENTS_SKIPS p)) = u at ks
  have k : u.Keeps 74450131340091398 (u.devWrite e.part 1 (e.ringBase + (e.wtail + skip) % 2 ^ 32 % e.size) bs).st :=
      State.devWrite_keeps (by decide) (.refl _) _ _ _ _ _
  have km : s.ecc.flips = [] → skip = 0 → s.badPoint e.part (e.ringBase + (e.wtail + skip) % 2 ^ 32 % e.size) bs.length = none →
      e.ringBase + (e.wtail + skip) % 2 ^ 32 % e.size < windowBase → ∀ x, find unwritten (u.devWrite e.part 1 (e.ringBase +
          (e.wtail + skip) % 2 ^ 32 % e.size) bs).st.mem x =
        if e.ringBase + (e.wtail + skip) % 2 ^ 32 % e.size ≤ x ∧ x < e.ringBase + (e.wtail + skip) % 2 ^ 32 % e.size + bs.length
            then
          bs.getD (x - (e.ringBase + (e.wtail + skip) % 2 ^ 32 % e.size)) 0 else find unwritten s.mem x := by
    intro hf hs hb ha x
    have := ks.2.2.2.2 hs
    subst this
    exact State.devWrite_mem hf i.mem hb ha x
  have ev := (k.same .endpoints (by decide) : _ = u.endpoints)
  have lv := (k.same .landings (by decide) : _ = u.landings)
  have iv := k.inv ks.2.2.1
  have sv : ∀ q m, (u.devWrite e.part 1 (e.ringBase + (e.wtail + skip) % 2 ^ 32 % e.size) bs).st.sender q m = s.sender q m := by
    intro q m
    have := k.same .chans (by decide) q
    rw [← ks.2.2.2.1 q m]
    unfold State.sender
    rw [this.1]
  generalize (u.devWrite e.part 1 (e.ringBase + (e.wtail + skip) % 2 ^ 32 % e.size) bs).st = v at km ev lv iv sv
  have hv : find? v.endpoints h = some e := by rw [ev, ks.1]; exact he
  rw [State.find_modEp hv]
  refine ⟨⟨?_, ?_, ?_, km⟩, sv, iv.of_eq rfl rfl rfl rfl rfl⟩
  · show v.landings ++ _ = _
    rw [lv, ks.2.1]
  · exact find?_ins_self' _ _ _
  · intro j hj
    show find? (ins v.endpoints h _) j = _
    rw [find?_ins_of_ne _ _ hj, ev, ks.1]

theorem State.seqNext_kept (s : State) (p n h : Nat) : (s.seqNext p n h).endpoints = s.endpoints ∧ (s.seqNext p n h).landings =
    s.landings ∧
    (s.seqNext p n h).mem = s.mem ∧ (s.seqNext p n h).ecc = s.ecc ∧ ((s.seqNext p n h).sender p n).queue = (s.sender p n).queue ∧
    (s.seqNext p n h).regs = s.regs ∧ (s.seqNext p n h).churns = s.churns := by
  refine ⟨rfl, rfl, rfl, rfl, ?_, rfl, rfl⟩
  unfold State.seqNext
  rw [State.sender_modSender]

/-! ### The head send -/

theorem State.sendHead_op {s : State} {p n : Nat} {x : Send} {r : List Send} (hq : (s.sender p n).queue = x :: r) (hb : s.sendBusy
    p n = false)
    (hop : x.op ≤ 1) {e : Endpoint} (ht : s.Takes p x e) : s.sendHead p n = if x.op = 1 && !x.put then s.putHead p n x e else
        s.appendHead p n x e := by
  unfold State.sendHead
  rw [hq]
  dsimp only
  rw [if_neg (by simp [hb]), if_neg (by omega), if_neg (by have := ht.units; simp; omega), ht.found]
  dsimp only
  rw [if_neg (by simp [ht.own]), if_neg (by simp [ht.isOpen]), if_neg (by have := ht.parts; simpa using this)]

theorem State.seqOf_of_sender {s t : State} {p n : Nat} (h : t.sender p n = s.sender p n) (d : Nat) : t.seqOf p n d = s.seqOf p n
    d := by
  unfold State.seqOf; rw [h]

/-- An APPEND that finds credit (R356). -/
theorem State.append_shown {s u : State} (i : s.Inv) {p n : Nat} {x : Send} {r : List Send} (hq : (s.sender p n).queue = x :: r)
    (hb : s.sendBusy p n = false) (hop : x.op = 0) (hput : x.put = false) {e : Endpoint} (ht : s.Takes p x e)
    (hsp : e.group < 64 → (s.sender p n).spilled x.dest = false) {skip : Nat} (hf : ringFit e.size e.wtail e.head (32 * x.units) =
        some skip) {b : Bytes}
    (hr : s.sendRead p n x.addr (32 * x.units) x.task = (some b, u)) :
    (u.seqNext p n x.dest).Lands (s.pump p n) x.dest e
      ⟨x.dest, ⟨(e.wtail + skip) % 2 ^ 32, skip, (msgBytes 1 x.units x.dest (s.seqOf p n x.dest) n (b.drop 8)).length, s.seqOf p n
          x.dest, n, false⟩, false, p, n, x.task⟩
      (e.ringBase + (e.wtail + skip) % 2 ^ 32 % e.size) (msgBytes 1 x.units x.dest (s.seqOf p n x.dest) n (b.drop 8)) ∧
    u.landings = s.landings ∧ u.endpoints = s.endpoints ∧ u.mem = s.mem := by
  have k := State.sendRead_kept hr i
  have hh : s.sendHead p n = (u.seqNext p n x.dest).landRing x.dest e skip (msgBytes 1 x.units x.dest (s.seqOf p n x.dest) n
      (b.drop 8)) (s.seqOf p n x.dest) n p n x.task := by
    rw [State.sendHead_op hq hb (by omega) ht, if_neg (by simp [hop])]
    unfold State.appendHead
    rw [if_neg (by simpa using hsp), if_neg (by simp [hput]), hf]
    dsimp only
    unfold State.appendBytes
    rw [if_neg (by simp [hput]), hr]
    dsimp only
    rw [State.seqOf_of_sender (k.2.2.2.2.2.1 p n)]
  have q := State.seqNext_kept u p n x.dest
  have he : find? (u.seqNext p n x.dest).endpoints x.dest = some e := by rw [q.1, k.2.1]; exact ht.found
  have iq : (u.seqNext p n x.dest).Inv := k.1.of_eq rfl rfl rfl rfl rfl
  have g := State.landRing_shown iq he skip (msgBytes 1 x.units x.dest (s.seqOf p n x.dest) n (b.drop 8)) (s.seqOf p n x.dest) n p
      n x.task
  rw [State.pump_eq hh (.inl (by rw [g.2.1, q.2.2.2.2.1, k.2.2.2.2.2.1]))]
  exact ⟨g.1, k.2.2.1, k.2.1, k.2.2.2.2.1⟩

/-- A send with a length that the spec does not allow (R367). -/
theorem State.send_badLen {s : State} (i : s.Inv) {p n : Nat} {x : Send} (h : s.PortHolds p n x) (hop : x.op ≠ 2) (hx : x.op = 3 ∨
    x.units = 0 ∨ 8 < x.units)
    (ht : x.task = none) : s.SendEnds (s.pump p n) p n 5 := by
  have k := State.sendDone_shown i h.queue ht (c := 5) (Nat.le_of_ble_eq_true rfl)
  rw [State.pump_eq (v := s.sendDone p n 5) ?_ (.inr k.queue)]
  · exact k
  · unfold State.sendHead
    rw [h.queue]
    dsimp only
    rw [if_neg (by simp [h.done]), if_neg hop, if_pos (by simp; omega)]

theorem State.send_closed {s : State} (i : s.Inv) {p n : Nat} {x : Send} (h : s.PortHolds p n x) (hop : x.op ≤ 1) (hu : 1 ≤
    x.units ∧ x.units ≤ 8)
    (hx : ∀ e, find? s.endpoints x.dest = some e → e.part = p ∧ e.closing = true) (ht : x.task = none) : s.SendEnds (s.pump p n) p
        n 3 := by
  have k := State.sendDone_shown i h.queue ht (c := 3) (Nat.le_of_ble_eq_true rfl)
  rw [State.pump_eq (v := s.sendDone p n 3) ?_ (.inr k.queue)]
  · exact k
  · unfold State.sendHead
    rw [h.queue]
    dsimp only
    rw [if_neg (by simp [h.done]), if_neg (by omega), if_neg (by simp; omega)]
    cases hf : find? s.endpoints x.dest with
    | none => rfl
    | some e =>
      dsimp only
      rw [if_neg (by simp [(hx e hf).1]), if_pos (hx e hf).2]

theorem State.send_badDest {s : State} (i : s.Inv) {p n : Nat} {x : Send} (h : s.PortHolds p n x) (hop : x.op ≤ 1) (hu : 1 ≤
    x.units ∧ x.units ≤ 8)
    {e : Endpoint} (he : find? s.endpoints x.dest = some e)
    (hx : e.part ≠ p ∨ e.closing = false ∧ ((x.op = 1 ∧ e.winSize = 0) ∨ ((x.op = 0 ∨ x.notify = true) ∧ e.ringLog2 = 0)))
    (ht : x.task = none) : s.SendEnds (s.pump p n) p n 4 := by
  have key : ∀ a, s.sendHead p n = s.badDest p n a 4 x.dest → s.SendEnds (s.pump p n) p n 4 := by
    intro a ha
    have k := State.badDest_shown i h.queue ht a 4 x.dest
    rw [State.pump_eq ha (.inr k.queue)]
    exact k
  by_cases hp : e.part = p
  · refine key p ?_
    have hx : e.closing = false ∧ ((x.op = 1 ∧ e.winSize = 0) ∨ ((x.op = 0 ∨ x.notify = true) ∧ e.ringLog2 = 0)) := by
      rcases hx with h | h
      · exact absurd hp h
      · exact h
    unfold State.sendHead
    rw [h.queue]
    dsimp only
    rw [if_neg (by simp [h.done]), if_neg (by omega), if_neg (by simp; omega), he]
    dsimp only
    rw [if_neg (by simp [hp]), if_neg (by simp [hx.1]), if_pos (by simpa using hx.2)]
  · refine key e.part ?_
    unfold State.sendHead
    rw [h.queue]
    dsimp only
    rw [if_neg (by simp [h.done]), if_neg (by omega), if_neg (by simp; omega), he]
    dsimp only
    rw [if_pos hp]

theorem State.queued_holds {s : State} {p n : Nat} (h : s.PortIdle p n) (x : Send) : (s.queued p n x).PortHolds p n x := by
  constructor
  · unfold State.queued
    rw [State.sender_modSender, h.queue]
    rfl
  · exact h.done

theorem State.sendWrite_eq {s : State} {p n : Nat} {v : W64} (h : (s.sender p n).queue.length < 8) :
    s.sendWrite p n v = (s.queued p n (s.sendOf p n v)).pump p n := by
  unfold State.sendWrite State.enqueue
  dsimp only
  rw [if_neg (by omega)]
  rfl

theorem State.sendWrite_full {s : State} (i : s.Inv) {p n : Nat} {v : W64} (h : 8 ≤ (s.sender p n).queue.length) :
    (s.sendWrite p n v).fd (Rg.CHN_PORT_SEND_STATUS_OVERRUN p n) = 1 ∧ (s.sendWrite p n v).parts = s.parts ∧ (s.sendWrite p n
        v).landings = s.landings := by
  unfold State.sendWrite State.enqueue
  dsimp only
  rw [if_pos h]
  exact ⟨State.fd_raise_self i _ (Nat.le_of_ble_eq_true rfl) (Nat.le_of_ble_eq_true rfl), rfl, rfl⟩

theorem State.SendEnds.of_queued {s t : State} {p n c : Nat} {x : Send} (h : (s.queued p n x).SendEnds t p n c) : s.SendEnds t p n
    c :=
  ⟨h.result, h.completed, h.queue, h.endpoints, h.landings, h.churns, h.memory⟩

theorem chnAppend_spec (s : State) (i : s.Inv) (p n : Nat) (v : W64) (hp : s.hasPort p n = true) (ho : bitsOf v.toNat 0 2 = 0) (x
    : Send)
    (hx : s.sendOf p n v = x) :
    ∃ t, exec (.chnAppend p n v) s = .next t ∧
      (8 ≤ (s.sender p n).queue.length → t.fd (Rg.CHN_PORT_SEND_STATUS_OVERRUN p n) = 1 ∧ t.parts = s.parts ∧ t.landings =
          s.landings) ∧
      ((s.sender p n).queue.length < 8 → t = (s.queued p n x).pump p n) ∧
      (s.PortIdle p n → (x.units = 0 ∨ 8 < x.units) → s.SendEnds t p n 5) ∧
      (s.PortIdle p n → 1 ≤ x.units → x.units ≤ 8 → (∀ e, find? s.endpoints x.dest = some e → e.part = p ∧ e.closing = true) →
          s.SendEnds t p n 3) ∧
      (∀ e, s.PortIdle p n → 1 ≤ x.units → x.units ≤ 8 → find? s.endpoints x.dest = some e → (e.part ≠ p ∨ e.closing = false ∧
          e.ringLog2 = 0) →
        s.SendEnds t p n 4) ∧
      (∀ e skip b u, s.PortIdle p n → s.Takes p x e → (e.group < 64 → (s.sender p n).spilled x.dest = false) →
        ringFit e.size e.wtail e.head (32 * x.units) = some skip → (s.queued p n x).sendRead p n x.addr (32 * x.units) none =
            (some b, u) →
        (u.seqNext p n x.dest).Lands t x.dest e
          ⟨x.dest, ⟨(e.wtail + skip) % 2 ^ 32, skip, (msgBytes 1 x.units x.dest (s.seqOf p n x.dest) n (b.drop 8)).length, s.seqOf
              p n x.dest, n, false⟩, false, p, n, none⟩
          (e.ringBase + (e.wtail + skip) % 2 ^ 32 % e.size) (msgBytes 1 x.units x.dest (s.seqOf p n x.dest) n (b.drop 8)) ∧
        u.landings = s.landings ∧ u.endpoints = s.endpoints ∧ u.mem = s.mem) := by
  refine ⟨_, rfl, ?_⟩
  rw [if_pos (by simp [hp, ho])]
  have x0 : x.op = 0 ∧ x.put = false ∧ x.task = none := by subst hx; exact ⟨ho, rfl, rfl⟩
  have iq : (s.queued p n x).Inv := i.of_eq rfl rfl rfl rfl rfl
  have eq : (s.sender p n).queue.length < 8 → s.sendWrite p n v = (s.queued p n x).pump p n := fun h => by rw [← hx]; exact State.sendWrite_eq h
  have el : s.PortIdle p n → (s.sender p n).queue.length < 8 := fun h => by rw [h.queue]; decide
  refine ⟨fun h => State.sendWrite_full i h, eq, fun h hu => ?_, fun h hu h8 he => ?_, fun e h hu h8 he hc => ?_, fun e skip b u h
      ht hs hf hr => ?_⟩
  · rw [eq (el h)]
    exact (State.send_badLen iq (State.queued_holds h x) (by omega) (.inr hu) x0.2.2).of_queued
  · rw [eq (el h)]
    exact (State.send_closed iq (State.queued_holds h x) (by omega) ⟨hu, h8⟩ he x0.2.2).of_queued
  · rw [eq (el h)]
    refine (State.send_badDest iq (State.queued_holds h x) (by omega) ⟨hu, h8⟩ he ?_ x0.2.2).of_queued
    rcases hc with hc | hc
    · exact .inl hc
    · exact .inr ⟨hc.1, .inr ⟨.inl x0.1, hc.2⟩⟩
  · rw [eq (el h)]
    have hh := State.queued_holds h x
    have es : (s.queued p n x).seqOf p n x.dest = s.seqOf p n x.dest := by
      unfold State.seqOf State.queued; rw [State.sender_modSender]
    have ep : ((s.queued p n x).sender p n).spilled x.dest = (s.sender p n).spilled x.dest := by
      unfold State.queued; rw [State.sender_modSender]; rfl
    have g := State.append_shown iq hh.queue hh.done x0.1 x0.2.1 (e := e) ⟨ht.units, ht.found, ht.own, ht.isOpen, ht.parts⟩ (fun hg => by rw [ep]; exact hs hg) hf
      (by rw [x0.2.2]; exact hr)
    rw [es, x0.2.2] at g
    exact g

theorem sendCreditResume_spec (s : State) (i : s.Inv) (p n : Nat) :
    ∃ t, exec (.sendCreditResume p n) s = .next t ∧ t = s.pump p n ∧
      (∀ x r e skip b u, (s.sender p n).queue = x :: r → s.sendBusy p n = false → x.op = 0 → x.put = false → s.Takes p x e →
        (e.group < 64 → (s.sender p n).spilled x.dest = false) → ringFit e.size e.wtail e.head (32 * x.units) = some skip →
        s.sendRead p n x.addr (32 * x.units) x.task = (some b, u) →
        (u.seqNext p n x.dest).Lands t x.dest e
          ⟨x.dest, ⟨(e.wtail + skip) % 2 ^ 32, skip, (msgBytes 1 x.units x.dest (s.seqOf p n x.dest) n (b.drop 8)).length, s.seqOf
              p n x.dest, n, false⟩, false, p, n, x.task⟩
          (e.ringBase + (e.wtail + skip) % 2 ^ 32 % e.size) (msgBytes 1 x.units x.dest (s.seqOf p n x.dest) n (b.drop 8)) ∧
        u.landings = s.landings ∧ u.endpoints = s.endpoints ∧ u.mem = s.mem) ∧
      (∀ x r e, (s.sender p n).queue = x :: r → s.sendBusy p n = false → x.op = 0 → x.put = false → s.Takes p x e →
        (e.group < 64 → (s.sender p n).spilled x.dest = false) → ringFit e.size e.wtail e.head (32 * x.units) = none →
        t.landings = s.landings ∧ t.endpoints = s.endpoints ∧ t.mem = s.mem ∧
        (t.sender p n).queue = { x with wait := some (x.wait.getD s.now) } :: r) := by
  refine ⟨_, rfl, rfl, fun x r e skip b u hq hb ho hpu ht hs hf hr => State.append_shown i hq hb ho hpu ht hs hf hr, fun x r e hq
      hb ho hpu ht hs hf => ?_⟩
  have es : (((s.modHead p n fun x => { x with wait := some (x.wait.getD s.now) }).raise (Rg.CHN_WAIT_CREDIT_WAIT p)).sender p n).queue =
      { x with wait := some (x.wait.getD s.now) } :: r := by
    unfold State.sender
    rw [State.raise_part]
    show ((s.modHead p n fun x => { x with wait := some (x.wait.getD s.now) }).sender p n).queue = _
    unfold State.modHead
    rw [State.sender_modSender, hq]
  have hh : s.sendHead p n = (s.modHead p n fun x => { x with wait := some (x.wait.getD s.now) }).raise (Rg.CHN_WAIT_CREDIT_WAIT p) := by
    rw [State.sendHead_op hq hb (by omega) ht, if_neg (by simp [ho])]
    unfold State.appendHead
    rw [if_neg (by simpa using hs), if_neg (by simp [hpu]), hf]
  rw [State.pump_eq hh (.inl (by rw [es, hq]; exact Nat.le_refl _))]
  exact ⟨State.raise_landings .., State.raise_endpoints .., State.raise_mem .., es⟩

theorem State.put_shown {s u : State} (i : s.Inv) {p n : Nat} {x : Send} {r : List Send} (hq : (s.sender p n).queue = x :: r)
    (hb : s.sendBusy p n = false) (hop : x.op = 1) (hput : x.put = false) {e : Endpoint} (ht : s.Takes p x e)
    (ha : x.offset % 32 = 0) (hw : x.offset + 32 * x.units ≤ e.winSize) {b : Bytes}
    (hr : s.sendRead p n x.addr (32 * x.units) x.task = (some b, u)) :
    u.Lands (s.pump p n) x.dest e
      ⟨x.dest, ⟨x.offset, 0, (msgBytes 1 x.units x.dest (s.seqOf p n x.dest) n (b.drop 8)).length, s.seqOf p n x.dest, n, false⟩,
          true, p, n, x.task⟩
      (e.winBase + x.offset) (msgBytes 1 x.units x.dest (s.seqOf p n x.dest) n (b.drop 8)) ∧
    u.landings = s.landings ∧ u.endpoints = s.endpoints ∧ u.mem = s.mem := by
  have k := State.sendRead_kept hr i
  have hs := State.seqOf_of_sender (k.2.2.2.2.2.1 p n) x.dest
  have hh : s.sendHead p n = { ((u.devWrite p 1 (e.winBase + x.offset) (msgBytes 1 x.units x.dest (s.seqOf p n x.dest) n (b.drop
      8))).st.seqNext p n x.dest) with
      landings := ((u.devWrite p 1 (e.winBase + x.offset) (msgBytes 1 x.units x.dest (s.seqOf p n x.dest) n (b.drop
          8))).st.seqNext p n x.dest).landings ++
        [⟨x.dest, ⟨x.offset, 0, (msgBytes 1 x.units x.dest (s.seqOf p n x.dest) n (b.drop 8)).length, s.seqOf p n x.dest, n,
            false⟩, true, p, n, x.task⟩] } := by
    rw [State.sendHead_op hq hb (by omega) ht, if_pos (by simp [hop, hput])]
    unfold State.putHead
    rw [if_neg (by simp; omega), hr]
    dsimp only
    rw [hs]
  generalize msgBytes 1 x.units x.dest (s.seqOf p n x.dest) n (b.drop 8) = bs at hh ⊢
  have kd : u.Keeps 74450131340091398 (u.devWrite p 1 (e.winBase + x.offset) bs).st := State.devWrite_keeps (by decide) (.refl _)
      _ _ _ _ _
  have km := fun hf hb ha y => State.devWrite_mem (s := u) hf k.1.mem (tag := p) (cls := 1) (a := e.winBase + x.offset) (bs := bs)
      (bad := false) hb ha y
  have sv : ((u.devWrite p 1 (e.winBase + x.offset) bs).st.sender p n) = s.sender p n := by
    have := kd.same .chans (by decide) p
    rw [← k.2.2.2.2.2.1 p n]
    unfold State.sender
    rw [this.1]
  have ed : (u.devWrite p 1 (e.winBase + x.offset) bs).st.endpoints = u.endpoints := kd.same .endpoints (by decide)
  have ld : (u.devWrite p 1 (e.winBase + x.offset) bs).st.landings = u.landings := kd.same .landings (by decide)
  generalize (u.devWrite p 1 (e.winBase + x.offset) bs).st = v at hh km sv ed ld
  have q := State.seqNext_kept v p n x.dest
  generalize v.seqNext p n x.dest = w at hh q
  have ew : w.endpoints = u.endpoints := q.1.trans ed
  have lw : w.landings = u.landings := q.2.1.trans ld
  have sw : (w.sender p n).queue = (s.sender p n).queue := q.2.2.2.2.1.trans (by rw [sv])
  rw [State.pump_eq hh (.inl (by rw [← sw]; exact Nat.le_refl _))]
  have kt : ∀ y, find unwritten w.mem y = find unwritten v.mem y := fun y => by rw [q.2.2.1]
  refine ⟨⟨?_, ?_, ?_, ?_⟩, k.2.2.1, k.2.1, k.2.2.2.2.1⟩
  · show w.landings ++ _ = _
    rw [lw]
  · show find? w.endpoints _ = _
    rw [ew, k.2.1, if_pos rfl]
    exact ht.found
  · intro j hj
    show find? w.endpoints j = _
    rw [ew]
  · intro hf _ hb' ha' y
    show find unwritten w.mem y = _
    rw [kt, km hf (by rw [← ht.own]; exact hb') ha' y]

theorem chnPutAt_spec (s : State) (i : s.Inv) (p n : Nat) (v : W64) (hp : s.hasPort p n = true) (ho : bitsOf v.toNat 0 2 = 1) (x :
    Send)
    (hx : s.sendOf p n v = x) :
    ∃ t, exec (.chnPutAt p n v) s = .next t ∧
      (8 ≤ (s.sender p n).queue.length → t.fd (Rg.CHN_PORT_SEND_STATUS_OVERRUN p n) = 1 ∧ t.parts = s.parts ∧ t.landings =
          s.landings) ∧
      ((s.sender p n).queue.length < 8 → t = (s.queued p n x).pump p n) ∧
      (s.PortIdle p n → (x.units = 0 ∨ 8 < x.units) → s.SendEnds t p n 5) ∧
      (∀ e, s.PortIdle p n → s.Takes p x e → (x.offset % 32 ≠ 0 ∨ e.winSize < x.offset + 32 * x.units) → s.SendEnds t p n 6) ∧
      (∀ e b u, s.PortIdle p n → s.Takes p x e → x.offset % 32 = 0 → x.offset + 32 * x.units ≤ e.winSize →
        (s.queued p n x).sendRead p n x.addr (32 * x.units) none = (some b, u) →
        u.Lands t x.dest e
          ⟨x.dest, ⟨x.offset, 0, (msgBytes 1 x.units x.dest (s.seqOf p n x.dest) n (b.drop 8)).length, s.seqOf p n x.dest, n,
              false⟩, true, p, n, none⟩
          (e.winBase + x.offset) (msgBytes 1 x.units x.dest (s.seqOf p n x.dest) n (b.drop 8)) ∧
        u.landings = s.landings ∧ u.endpoints = s.endpoints ∧ u.mem = s.mem) := by
  refine ⟨_, rfl, ?_⟩
  rw [if_pos (by simp [hp, ho])]
  have x0 : x.op = 1 ∧ x.put = false ∧ x.task = none := by subst hx; exact ⟨ho, rfl, rfl⟩
  have iq : (s.queued p n x).Inv := i.of_eq rfl rfl rfl rfl rfl
  have eq : (s.sender p n).queue.length < 8 → s.sendWrite p n v = (s.queued p n x).pump p n := fun h => by rw [← hx]; exact State.sendWrite_eq h
  have el : s.PortIdle p n → (s.sender p n).queue.length < 8 := fun h => by rw [h.queue]; decide
  refine ⟨fun h => State.sendWrite_full i h, eq, fun h hu => ?_, fun e h ht hc => ?_, fun e b u h ht h1 h2 hr => ?_⟩
  · rw [eq (el h)]
    exact (State.send_badLen iq (State.queued_holds h x) (by omega) (.inr hu) x0.2.2).of_queued
  · rw [eq (el h)]
    have hh := State.queued_holds h x
    have k := State.sendDone_shown iq hh.queue x0.2.2 (c := 6) (Nat.le_of_ble_eq_true rfl)
    rw [State.pump_eq (v := (s.queued p n x).sendDone p n 6) ?_ (.inr k.queue)]
    · exact k.of_queued
    · rw [State.sendHead_op hh.queue hh.done (by omega) (e := e) ⟨ht.units, ht.found, ht.own, ht.isOpen, ht.parts⟩, if_pos (by
          simp [x0.1, x0.2.1])]
      unfold State.putHead
      rw [if_pos (by simpa using hc)]
  · rw [eq (el h)]
    have hh := State.queued_holds h x
    have es : (s.queued p n x).seqOf p n x.dest = s.seqOf p n x.dest := by
      unfold State.seqOf State.queued; rw [State.sender_modSender]
    have g := State.put_shown iq hh.queue hh.done x0.1 x0.2.1 (e := e) ⟨ht.units, ht.found, ht.own, ht.isOpen, ht.parts⟩ h1 h2 (by rw [x0.2.2]; exact hr)
    rw [es, x0.2.2] at g
    exact g

theorem chnContrib_spec (s : State) (i : s.Inv) (p n : Nat) (v : W64) (hp : s.hasPort p n = true) (ho : bitsOf v.toNat 0 2 = 2) (x
    : Send)
    (hx : s.sendOf p n v = x) :
    ∃ t, exec (.chnContrib p n v) s = .next t ∧
      (8 ≤ (s.sender p n).queue.length → t.fd (Rg.CHN_PORT_SEND_STATUS_OVERRUN p n) = 1 ∧ t.parts = s.parts ∧ t.landings =
          s.landings) ∧
      ((s.sender p n).queue.length < 8 → t = (s.queued p n x).pump p n) ∧
      (s.PortIdle p n → find? s.churns x.dest = none → s.SendEnds t p n 3) ∧
      (∀ c, s.PortIdle p n → find? s.churns x.dest = some c → c.part ≠ p → s.SendEnds t p n 4) ∧
      (∀ c, s.PortIdle p n → find? s.churns x.dest = some c → c.part = p →
        find? t.churns x.dest = some { c with waiting := c.waiting ++ [(n, x.addr, none)] } ∧ (∀ j, j ≠ x.dest → find? t.churns j = find? s.churns j) ∧
        (t.sender p n).queue = [x] ∧ t.mem = s.mem ∧ t.regs = s.regs) := by
  refine ⟨_, rfl, ?_⟩
  rw [if_pos (by simp [hp, ho])]
  have x0 : x.op = 2 ∧ x.put = false ∧ x.task = none := by subst hx; exact ⟨ho, rfl, rfl⟩
  have iq : (s.queued p n x).Inv := i.of_eq rfl rfl rfl rfl rfl
  have eq : (s.sender p n).queue.length < 8 → s.sendWrite p n v = (s.queued p n x).pump p n := fun h => by rw [← hx]; exact State.sendWrite_eq h
  have el : s.PortIdle p n → (s.sender p n).queue.length < 8 := fun h => by rw [h.queue]; decide
  have hd : s.PortIdle p n → (s.queued p n x).sendHead p n = (s.queued p n x).contribHead p n x := by
    intro h
    have hh := State.queued_holds h x
    unfold State.sendHead
    rw [hh.queue]
    dsimp only
    rw [if_neg (by simp [hh.done]), if_pos x0.1]
  have ec : (s.queued p n x).churns = s.churns := rfl
  refine ⟨fun h => State.sendWrite_full i h, eq, fun h hc => ?_, fun c h hc hq => ?_, fun c h hc hq => ?_⟩
  · rw [eq (el h)]
    have k := State.sendDone_shown iq (State.queued_holds h x).queue x0.2.2 (c := 3) (Nat.le_of_ble_eq_true rfl)
    rw [State.pump_eq (v := (s.queued p n x).sendDone p n 3) ?_ (.inr k.queue)]
    · exact k.of_queued
    · rw [hd h]; unfold State.contribHead; rw [ec, hc]
  · rw [eq (el h)]
    have k := State.badDest_shown iq (State.queued_holds h x).queue x0.2.2 c.part 5 x.dest
    rw [State.pump_eq (v := (s.queued p n x).badDest p n c.part 5 x.dest) ?_ (.inr k.queue)]
    · exact k.of_queued
    · rw [hd h]; unfold State.contribHead; rw [ec, hc]; dsimp only; rw [if_pos hq]
  · rw [eq (el h)]
    have hh := State.queued_holds h x
    have e1 : (s.queued p n x).sendHead p n = { s.queued p n x with churns := ins s.churns x.dest { c with waiting := c.waiting ++ [(n, x.addr, none)] } } := by
      rw [hd h]; unfold State.contribHead; rw [ec, hc]; dsimp only
      rw [if_neg (by simp [hq]), State.find_modChurn (s := s.queued p n x) hc, x0.2.2]
      rfl
    rw [State.pump_eq e1 (.inl (Nat.le_refl _))]
    exact ⟨find?_ins_self' _ _ _, fun j hj => find?_ins_of_ne _ _ hj, hh.queue, rfl, rfl⟩

/-! ### Landings (R357) -/

theorem State.groupIrq_kept (s : State) (p g : Nat) : (s.groupIrq p g).endpoints = s.endpoints ∧ (s.groupIrq p g).landings =
    s.landings ∧
    (s.groupIrq p g).parts = s.parts ∧ (s.groupIrq p g).mem = s.mem ∧ (s.Inv → (s.groupIrq p g).Inv) := by
  unfold State.groupIrq
  split
  · exact ⟨rfl, rfl, rfl, rfl, fun h => State.wr_inv h _ _⟩
  · exact ⟨rfl, rfl, rfl, rfl, id⟩

theorem messageLand_spec (s : State) (i : s.Inv) (h : Nat) (l : Landing) (hl : (s.landings.find? fun l => l.ep == h) = some l) :
    ∃ t, exec (.messageLand h) s = .next t ∧
      (∀ e, l.window = false → find? s.endpoints h = some e → (l.port = 0xFFFF ∨ ∃ x, (s.sender l.part l.port).queue = [x] ∧
          x.task = none) →
        t.landings = s.landings.erase l ∧
        find? t.endpoints h = some { e with tail := (l.msg.at_ + l.msg.len) % 2 ^ 32, msgs := e.msgs ++ [l.msg] } ∧
        (∀ j, j ≠ h → find? t.endpoints j = find? s.endpoints j) ∧ t.mem = s.mem ∧
        (l.port ≠ 0xFFFF → t.fd (Rg.CHN_PORT_SEND_STATUS_RESULT l.part l.port) = 0 ∧ (t.sender l.part l.port).queue = [])) ∧
      (∀ x, l.window = true → l.port ≠ 0xFFFF → (s.sender l.part l.port).queue = [x] → x.task = none → x.notify = false →
        t.landings = s.landings.erase l ∧ t.endpoints = s.endpoints ∧ t.mem = s.mem ∧
        t.fd (Rg.CHN_PORT_SEND_STATUS_RESULT l.part l.port) = 0 ∧ (t.sender l.part l.port).queue = []) ∧
      (∀ x r, l.window = true → l.port ≠ 0xFFFF → (s.sender l.part l.port).queue = x :: r → x.notify = true →
        t = (State.modHead { s with landings := s.landings.erase l } l.part l.port fun x => { x with put := true }).pump l.part l.port) := by
  refine ⟨_, rfl, ?_⟩
  unfold State.messageLand
  rw [hl]
  dsimp only
  refine ⟨fun e hw he hp => ?_, fun x hw hp hq ht hn => ?_, fun x r hw hp hq hn => ?_⟩
  · obtain ⟨le, lm, lw, lp, lport, lt⟩ := l
    dsimp only at hw hp ⊢
    subst hw
    simp only [Bool.false_eq_true, if_false, Bool.false_and]
    have hm := State.find_modEp (s := { s with landings := s.landings.erase ⟨le, lm, false, lp, lport, lt⟩ }) he fun e => { e with tail := (lm.at_ + lm.len) % 2 ^ 32, msgs := e.msgs ++ [lm] }
    rw [hm]
    dsimp only
    rw [find?_ins_self']
    dsimp only
    have k := State.groupIrq_kept { s with landings := s.landings.erase ⟨le, lm, false, lp, lport, lt⟩, endpoints := ins s.endpoints h { e with tail := (lm.at_ + lm.len) % 2 ^ 32, msgs := e.msgs ++ [lm] } } e.part e.group
    have iu := k.2.2.2.2 (i.of_eq rfl rfl rfl rfl rfl)
    have k1 := k.1; have k2 := k.2.1; have k3 := k.2.2.1; have k4 := k.2.2.2.1
    clear k
    generalize State.groupIrq { s with landings := s.landings.erase ⟨le, lm, false, lp, lport, lt⟩, endpoints := ins s.endpoints h { e with tail := (lm.at_ + lm.len) % 2 ^ 32, msgs := e.msgs ++ [lm] } } e.part e.group = u at iu k1 k2 k3 k4
    by_cases hf : lport = 0xFFFF
    · rw [if_pos hf]
      exact ⟨k2, by rw [k1]; exact find?_ins_self' _ _ _, fun j hj => by rw [k1]; exact find?_ins_of_ne _ _ hj, k4, fun h => absurd hf h⟩
    · rw [if_neg hf]
      obtain ⟨x, hq, ht⟩ : ∃ x, (s.sender lp lport).queue = [x] ∧ x.task = none := by rcases hp with h | h; exact absurd h hf; exact h
      have uq : (u.sender lp lport).queue = [x] := by
        have : u.sender lp lport = s.sender lp lport := by unfold State.sender State.part; rw [k3]
        rw [this]; exact hq
      have d := State.sendDone_shown iu uq ht (c := 0) (Nat.le_of_ble_eq_true rfl)
      have pi : (u.sendDone lp lport 0).pump lp lport = u.sendDone lp lport 0 := State.pumpN_idle 9 d.queue
      rw [pi]
      exact ⟨d.landings.trans k2, by rw [d.endpoints, k1]; exact find?_ins_self' _ _ _, fun j hj => by rw [d.endpoints, k1]; exact find?_ins_of_ne _ _ hj, d.memory.trans k4, fun _ => ⟨d.result, d.queue⟩⟩
  · rw [if_pos hw, if_neg hp]
    have hq' : (State.sender { s with landings := s.landings.erase l } l.part l.port).queue = [x] := hq
    have iu : ({ s with landings := s.landings.erase l } : State).Inv := i.of_eq rfl rfl rfl rfl rfl
    have d := State.sendDone_shown iu hq' ht (c := 0) (Nat.le_of_ble_eq_true rfl)
    have pi : (State.sendDone { s with landings := s.landings.erase l } l.part l.port 0).pump l.part l.port = State.sendDone { s with landings := s.landings.erase l } l.part l.port 0 := State.pumpN_idle 9 d.queue
    simp only [hq', hn, Bool.and_false, Bool.false_eq_true, if_false]
    rw [pi]
    exact ⟨d.landings, d.endpoints, d.memory, d.result, d.queue⟩
  · rw [if_pos hw, if_neg hp]
    have hq' : (State.sender { s with landings := s.landings.erase l } l.part l.port).queue = x :: r := hq
    simp only [hq', hn, hw, Bool.and_self, if_true]

end Sys2Proof.Machine
end

