-- ==== Sys2Proof/Laws/Stores.lean ====
section
/-!
SUPPORT. What a task's writes leave in memory (05_core_streaming.md R157; 09_memory.md R290, R296), and the end of its work.
-/
namespace Sys2Proof.Machine

/-! ### Reach and reads -/

/-- What an access reaches is kept by what keeps the fuses, the settings and the Larric registers. -/
theorem State.Keeps.badPoint {M : Nat} {s t : State} (k : s.Keeps M t) (i : s.Inv) (hf : M.testBit (Comp.idx .fuses) = false)
    (hl : M.testBit (Comp.idx .latched) = false) (hs : M.testBit (Comp.idx .settings) = false) (hr : M.testBit (RegBlock.idx .lrl)
        = false)
    (h60 : M.testBit 60 = false) (tag a n : Nat) : t.badPoint tag a n = s.badPoint tag a n := by
  have ef : t.fuses = s.fuses := k.same .fuses hf
  have el : t.latched = s.latched := k.same .latched hl
  have es := k.same .settings hs
  have ec : ∀ p o n, t.cfg p o n = s.cfg p o n := fun p o n => by unfold State.cfg State.cfgB; rw [(es p).2.1]
  have e : (fun x => !t.mayReach tag x) = fun x => !s.mayReach tag x := funext fun x => by
    have h1 : t.place x = s.place x := State.place_congr ef el x
    have h2 : ∀ g, t.regionOwner g = s.regionOwner g := fun g => by unfold State.regionOwner State.regionBits; simp only [ec]
    have h3 : ∀ g, t.coreOwner g = s.coreOwner g := fun g => by unfold State.coreOwner State.coresBits; simp only [ec]
    have h4 : ∀ g a, t.inFrameArea g a = s.inFrameArea g a := fun g a => by
      unfold State.inFrameArea State.regionsOf State.regionBits; rw [ec, (es g).2.2.2.2.2.2.2.2.2.1]
    have h5 : t.stageBytes tag = s.stageBytes tag := by unfold State.stageBytes; rw [ec]
    have h6 : t.wcacheBytes tag = s.wcacheBytes tag := by unfold State.wcacheBytes; rw [ec]
    have h7 : tag < 12 → t.rd (Rg.LRL_HWIN_BASE tag) = s.rd (Rg.LRL_HWIN_BASE tag) ∧ t.rd (Rg.LRL_HWIN_LIMIT tag) = s.rd
        (Rg.LRL_HWIN_LIMIT tag) := by
      intro ht
      have g : ∀ a, RegBlock.has .lrl a → t.rd a = s.rd a := by
        intro a ha
        refine k.regs i.regs.1 h60 a fun b hb hh => ?_
        have : b = .lrl := by
          cases b <;> simp only [RegBlock.has] at hh ha <;> first | rfl | omega
        subst this; rw [hr] at hb; cases hb
      exact ⟨g _ (by simp only [RegBlock.has, Rg.LRL_HWIN_BASE]; omega), g _ (by simp only [RegBlock.has, Rg.LRL_HWIN_LIMIT]; omega)⟩
    by_cases ht : tag < 12
    · simp only [State.mayReach, h1, h2, h3, h4, h5, h6, (h7 ht).1, (h7 ht).2]
    · have h8 : (tag < 12) = False := by simp [ht]
      simp only [State.mayReach, h1, h2, h3, h4, h5, h6, h8, decide_false, Bool.false_and]
  simp only [State.badPoint, e]

theorem State.ramWrite_flips {s : State} (h : s.ecc.flips = []) (c : Canon unwritten s.mem) (tag cls a : Nat) (bs : Bytes) (bad :
    Bool) :
    (s.ramWrite tag cls a bs bad).ecc.flips = [] := by
  have key : ∀ (L : List Nat) (u : State), u.ecc.flips = [] → Canon unwritten u.mem → (∀ l ∈ L, a < l * 64 + 64 ∧ l * 64 < a +
      bs.length ∧ 0 < bs.length) →
      (L.foldl (fun s l => s.writeLine tag cls a bs bad l) u).ecc.flips = [] := by
    intro L
    induction L with
    | nil => intro u hu _ _; exact hu
    | cons l t ih =>
      intro u hu cu hl
      have k := State.writeLine_mem hu tag cls a bs bad l cu (hl l List.mem_cons_self)
      exact ih _ k.1 k.2.1 fun y hy => hl y (List.mem_cons_of_mem _ hy)
  exact key _ s h c fun l hl => (linesOf_mem a bs.length l).1 hl

theorem State.isolation_flips (s : State) (p a b c : Nat) : (s.isolation p a b c).ecc = s.ecc := by
  unfold State.isolation State.fltAdd; split <;> rfl

theorem State.winRead_flips (s : State) (tag a n : Nat) : (s.winRead tag a n).st.ecc = s.ecc := by
  unfold State.winRead
  split
  · dsimp only
    generalize pieces4k (a - windowBase) n = L
    have key : ∀ (L : List (Nat × Nat)) (u : State), (L.foldl (fun s x => s.issueRead tag x.1 x.2) u).ecc = u.ecc := by
      intro L
      induction L with
      | nil => intro u; rfl
      | cons x t ih =>
        intro u
        rw [List.foldl_cons, ih]
        unfold State.issueRead
        split
        · rfl
        · unfold State.sendMsg; rfl
    exact key _ _
  · show (s.fltAdd ..).ecc = _
    unfold State.fltAdd; split <;> rfl

/-- A read leaves the error symbols standing as they are. -/
theorem State.ramRead_flips (s : State) (tag cls a n : Nat) : (s.ramRead tag cls a n).st.ecc.flips = s.ecc.flips := by
  unfold State.ramRead
  dsimp only
  have key : ∀ (L : List Nat) (r : MemRd), (L.foldl (readLineInto tag cls) r).st.ecc.flips = r.st.ecc.flips := by
    intro L
    induction L with
    | nil => intro r; rfl
    | cons l t ih =>
      intro r
      rw [List.foldl_cons, ih]
      unfold readLineInto
      dsimp only
      rw [(State.addReq_mem ..).2.1, (State.noteLine_mem ..).2.1]
  exact key _ _

theorem State.devRead_flips (s : State) (tag cls a n : Nat) : (s.devRead tag cls a n).st.ecc.flips = s.ecc.flips := by
  unfold State.devRead
  split
  · exact congrArg (fun e => e.flips) (State.isolation_flips ..)
  · split
    · exact congrArg (fun e => e.flips) (State.winRead_flips ..)
    · exact State.ramRead_flips ..

/-! ### Writes -/

theorem written_nil (m : Nat → Byte) : written m [] = m := rfl

theorem written_append (m : Nat → Byte) (a b : List (Nat × Bytes)) : written m (a ++ b) = written (written m a) b := by
  unfold written; rw [List.foldl_append]

theorem written_cons (m : Nat → Byte) (w : Nat × Bytes) (b : List (Nat × Bytes)) : written m (w :: b) = written (written m [w]) b
    := rfl

/-- Consecutive pieces written one after another are the whole. -/
theorem written_pieces (m : Nat → Byte) (x : Nat) : ∀ (bs : List Bytes) (a : Nat),
    written m (bs.foldr (fun b r => fun a => (a, b) :: r (a + b.length)) (fun _ => []) a) x = written m [(a, bs.flatten)] x := by
  intro bs
  induction bs generalizing m with
  | nil => intro a; simp [written]
  | cons b t ih =>
    intro a
    show written m ((a, b) :: t.foldr (fun b r => fun a => (a, b) :: r (a + b.length)) (fun _ => []) (a + b.length)) x = _
    rw [written_cons, ih]
    simp only [written, List.foldl_cons, List.foldl_nil, List.flatten_cons, List.length_append]
    by_cases h : a ≤ x
    · by_cases h1 : x < a + b.length
      · rw [if_neg (by omega), if_pos ⟨h, h1⟩, if_pos (by omega), List.getD_append _ _ _ _ (by omega)]
      · by_cases h2 : x < a + b.length + t.flatten.length
        · rw [if_pos (by omega), if_pos (by omega), List.getD_append_right _ _ _ _ (by omega)]
          congr 1; omega
        · rw [if_neg (by omega), if_neg (by omega), if_neg (by omega)]
    · rw [if_neg (by omega), if_neg (by omega), if_neg (by omega)]

/-- What a task's writes may change. -/
abbrev storeMask : Nat := 74450131356868614

/-- Writes made: the bytes, the counts and the outcome, and nothing else of the state but what reports errors and the weight
    caches. -/
structure Store.Wrote (ws : List (Nat × Bytes)) (w v : Store) : Prop where
  fail : v.fail = w.fail
  bytes : v.bytes = w.bytes + (ws.map fun x => x.2.length).sum
  mem : w.st.Stored v.st ws
  flips : v.st.ecc.flips = []
  keeps : w.st.Keeps storeMask v.st

theorem Store.Wrote.inv {ws : List (Nat × Bytes)} {w v : Store} (h : Store.Wrote ws w v) (i : w.st.Inv) : v.st.Inv := h.keeps.inv i

theorem Store.Wrote.writable {ws : List (Nat × Bytes)} {w v : Store} (h : Store.Wrote ws w v) (i : w.st.Inv) {p : Nat} {xs : List
    (Nat × Bytes)}
    (r : w.st.Writable p xs) : v.st.Writable p xs :=
  ⟨h.flips, fun x hx => by
    rw [h.keeps.badPoint i (by decide) (by decide) (by decide) (by decide) (by decide)]; exact r.reached x hx⟩

theorem Store.Wrote.none {w : Store} (h : w.st.ecc.flips = []) : Store.Wrote [] w w := ⟨rfl, by simp, fun _ => rfl, h, .refl _⟩

theorem Store.Wrote.trans {a b : List (Nat × Bytes)} {u v w : Store} (h : Store.Wrote a u v) (g : Store.Wrote b v w) : Store.Wrote
    (a ++ b) u w := by
  refine ⟨g.fail.trans h.fail, ?_, fun x => ?_, g.flips, h.keeps.trans g.keeps⟩
  · rw [g.bytes, h.bytes, List.map_append, List.sum_append]; omega
  · rw [written_append, g.mem x]
    exact congrArg (fun m => written m b x) (funext h.mem)

theorem Store.Wrote.ev {a : List (Nat × Bytes)} {w v : Store} (h : Store.Wrote a w v) (e e' : FmtEv) : Store.Wrote a { w with ev := e } { v with ev := e' } :=
  ⟨h.fail, h.bytes, h.mem, h.flips, h.keeps⟩

theorem State.Writable.sub {s : State} {p : Nat} {a b : List (Nat × Bytes)} (h : s.Writable p b) (g : ∀ x ∈ a, x ∈ b) : s.Writable
    p a :=
  ⟨h.flips, fun x hx => h.reached x (g x hx)⟩

/-- One write that the partition may make. -/
theorem Store.put_wrote {w : Store} (i : w.st.Inv) {p a : Nat} {bs : Bytes} (bad : Bool) (h : w.st.Writable p [(a, bs)]) :
    Store.Wrote [(a, bs)] w (w.put p a bs bad) := by
  have hb := h.reached _ List.mem_cons_self
  have ec : (w.st.devWrite p 1 a bs bad).code = 0 ∧ (w.st.devWrite p 1 a bs bad).st = w.st.ramWrite p 1 a bs bad := by
    unfold State.devWrite State.devWriteOn
    rw [hb.1]
    dsimp only
    rw [if_neg (by have := hb.2; simp only at this ⊢; omega)]
    exact ⟨rfl, rfl⟩
  have k : w.st.Keeps storeMask (w.put p a bs bad).st :=
    State.wcInval_keeps (by decide) (State.devWrite_keeps (by decide) (.refl _) _ _ _ _ _) _ _ _
  refine ⟨?_, by simp [Store.put], fun x => ?_, ?_, k⟩
  · show (w.fail || (w.st.devWrite p 1 a bs bad).code != 0) = w.fail
    rw [ec.1]; simp
  · show find unwritten (w.st.devWrite p 1 a bs bad).st.mem x = _
    rw [State.devWrite_mem h.flips i.mem hb.1 hb.2]
    rfl
  · show (w.st.devWrite p 1 a bs bad).st.ecc.flips = []
    rw [ec.2]; exact State.ramWrite_flips h.flips i.mem _ _ _ _ _

/-- A loop of writes. -/
theorem Store.foldl_wrote {ι : Type} {p : Nat} (f : Store → ι → Store) (g : ι → List (Nat × Bytes))
    (hf : ∀ (w : Store) (x : ι), w.st.Inv → w.st.Writable p (g x) → Store.Wrote (g x) w (f w x)) :
    ∀ (xs : List ι) (w : Store), w.st.Inv → w.st.Writable p (xs.flatMap g) → Store.Wrote (xs.flatMap g) w (xs.foldl f w) := by
  intro xs
  induction xs with
  | nil => intro w _ h; exact .none h.flips
  | cons x t ih =>
    intro w i h
    have h1 := hf w x i (h.sub fun y hy => by rw [List.flatMap_cons]; exact List.mem_append_left _ hy)
    rw [List.flatMap_cons, List.foldl_cons]
    exact h1.trans (ih _ (h1.inv i) (h1.writable i (h.sub fun y hy => by rw [List.flatMap_cons]; exact List.mem_append_right _ hy)))

theorem map_singles {α β : Type} (f : α → β) (l : List α) : l.map f = l.flatMap fun x => [f x] := by
  induction l with
  | nil => rfl
  | cons x t ih => rw [List.map_cons, List.flatMap_cons, ih]; rfl

theorem Store.line_wrote {w : Store} (i : w.st.Inv) {p fmt a : Nat} {xs : List (Nat × Bool)} (h : w.st.Writable p (lineWrites fmt
    a xs)) :
    Store.Wrote (lineWrites fmt a xs) w (w.line p fmt a xs) := by
  unfold Store.line
  have e : lineWrites fmt a xs = (runsOf 0 xs).flatMap fun r => [(a + r.1 * (fmtBits fmt / 8), packLine fmt r.2.1)] := map_singles
      _ _
  rw [e] at h ⊢
  generalize runsOf 0 xs = L at h ⊢
  refine Store.foldl_wrote (p := p) (fun w (r : Nat × List Nat × Bool) => w.put p (a + r.1 * (fmtBits fmt / 8)) (packLine fmt
      r.2.1) r.2.2) _ ?_ L w i h
  intro w r i h
  exact Store.put_wrote i _ h

/-! ### The end of a part's work -/

theorem State.task?_modTask_eq {s : State} {n m : Nat} {f : Task → Task} (hf : ∀ k, (f k).id = k.id) :
    (s.modTask m f).task? n = (s.task? n).map fun k => if k.id == m then f k else k := by
  unfold State.task? State.modTask
  dsimp only
  generalize s.tasks = L
  induction L with
  | nil => rfl
  | cons x t ih =>
    have e : ((if (x.id == m) = true then f x else x).id == n) = (x.id == n) := by split <;> simp [hf]
    rw [List.map_cons, List.find?_cons, List.find?_cons, e]
    cases x.id == n with
    | true => rfl
    | false => exact ih

theorem State.task?_id {s : State} {n : Nat} {k : Task} (h : s.task? n = some k) : k.id = n := by
  have := List.find?_some h
  simpa using this

theorem State.task?_modTask {s : State} {n : Nat} {k : Task} (h : s.task? n = some k) {f : Task → Task} (hf : ∀ k, (f k).id =
    k.id) :
    (s.modTask n f).task? n = some (f k) := by
  rw [State.task?_modTask_eq hf, h, Option.map_some, if_pos (by rw [State.task?_id h]; exact beq_self_eq_true _)]

theorem State.task?_same {s t : State} (e : t.tasks = s.tasks) (n : Nat) : t.task? n = s.task? n := by unfold State.task?; rw [e]

theorem State.PartOver.same {s t : State} {n i st sub : Nat} (h : s.PartOver n i st sub) (e : t.tasks = s.tasks) : t.PartOver n i
    st sub := by
  unfold State.PartOver; rw [State.task?_same e]; exact h

theorem State.PartOver.modTask {s : State} {n i m st sub : Nat} (h : s.PartOver n i st sub) {f : Task → Task}
    (hi : ∀ k, (f k).id = k.id ∧ (f k).status = k.status ∧ (f k).sub = k.sub)
    (hf : ∀ k, ∀ x ∈ (f k).parts, ∃ y ∈ k.parts, y.idx = x.idx ∧ (y.done = true → x.done = true)) : (s.modTask m f).PartOver n i
        st sub := by
  obtain ⟨k, hk, h1, h2, h3⟩ := h
  refine ⟨if k.id == m then f k else k, by rw [State.task?_modTask_eq fun k => (hi k).1, hk]; rfl, ?_, ?_, ?_⟩
  · split
    · rw [(hi k).2.1, h1]
    · exact h1
  · split
    · rw [(hi k).2.2, h2]
    · exact h2
  · intro x hx hxi
    by_cases g : (k.id == m) = true
    · rw [if_pos g] at hx
      obtain ⟨z, hz, e, hd⟩ := hf _ x hx
      exact hd (h3 z hz (e.trans hxi))
    · rw [if_neg g] at hx
      exact h3 x hx hxi

theorem Task.mem_modPart {k : Task} {i : Nat} {f : TaskPart → TaskPart} {x : TaskPart} (h : x ∈ (k.modPart i f).parts) :
    (x ∈ k.parts ∧ x.idx ≠ i) ∨ ∃ y ∈ k.parts, y.idx = i ∧ x = f y := by
  obtain ⟨y, hy, rfl⟩ := List.mem_map.1 h
  by_cases g : y.idx = i
  · exact .inr ⟨y, hy, g, by simp [g]⟩
  · refine .inl ⟨?_, ?_⟩
    · simpa [g] using hy
    · simpa [g] using g

theorem State.PartOver.modSlot {s : State} {n i m j st sub : Nat} (h : s.PartOver n i st sub) (q : Nat) :
    (s.modTask m fun k => k.modPart j fun x => { x with slot := q }).PartOver n i st sub :=
  h.modTask (fun _ => ⟨rfl, rfl, rfl⟩) fun k x hx => by
    rcases Task.mem_modPart hx with g | ⟨y, hy, _, rfl⟩
    · exact ⟨x, g.1, rfl, id⟩
    · exact ⟨y, hy, rfl, id⟩

theorem State.PartOver.tlbDrop {s : State} {n i t j st sub : Nat} (h : s.PartOver n i st sub) : (s.tlbDrop t j).PartOver n i st
    sub := by
  unfold State.tlbDrop
  split
  · exact h
  · rename_i k _
    dsimp only
    have h1 : (s.modTask t fun k => { k with pins := k.pins.filter fun e => e.1 != j }).PartOver n i st sub :=
      h.modTask (fun _ => ⟨rfl, rfl, rfl⟩) fun _ x hx => ⟨x, hx, rfl, id⟩
    generalize (s.modTask t fun k => { k with pins := k.pins.filter fun e => e.1 != j }) = u at h1
    generalize (k.pins.filter fun e => e.1 == j) = L
    induction L generalizing u with
    | nil => exact h1
    | cons x r ih =>
      have k1 : u.Keeps 218565388135489536 (u.unpin x.2) := State.unpin_keeps (by decide) (.refl _) _
      exact ih _ (h1.same (k1.same .tasks (by decide)))

theorem State.PartOver.leaveCore {s : State} {n i t j st sub : Nat} (h : s.PartOver n i st sub) : (s.leaveCore t j).PartOver n i
    st sub := by
  unfold State.leaveCore
  split
  · exact h
  · split
    · exact h
    · dsimp only
      have h1 := (h.tlbDrop (t := t) (j := j)).modSlot (m := t) (j := j) 4
      split
      · rename_i k _ _ x _ _ c _
        generalize ((s.tlbDrop t j).modTask t fun k => k.modPart j fun x => { x with slot := 4 }) = u at h1
        have k1 : u.Keeps 50331648 ((u.mcastLeave t c).skimDrop c t) :=
          State.skimDrop_keeps (by decide) (State.mcastLeave_keeps (by decide) (.refl _) _ _) _ _
        have h2 := h1.same (k1.same .tasks (by decide))
        unfold State.promote
        split
        · exact h2
        · split
          · exact h2.modSlot 2
          · exact h2
      · exact h1

/-- A part of a task without an uncorrectable error ends: it has no work left, and nothing changes but the tasks and what leaving
    the
core changes. -/
theorem State.partDone_calm {s : State} {n i : Nat} {k : Task} (hk : s.task? n = some k) (h : k.status ≠ stUncorr) :
    s.Keeps 218565388186869760 (s.partDone n i) ∧ (s.partDone n i).PartOver n i k.status k.sub := by
  unfold State.partDone
  rw [hk]
  dsimp only
  have ht := State.task?_modTask hk (f := fun k => { (k.modPart i fun x => { x with done := true }) with
    computed := (k.modPart i fun x => { x with done := true }).parts.all fun x => x.done }) fun _ => rfl
  have ho : (s.modTask n fun k => { (k.modPart i fun x => { x with done := true }) with
      computed := (k.modPart i fun x => { x with done := true }).parts.all fun x => x.done }).PartOver n i k.status k.sub := by
    refine ⟨_, ht, rfl, rfl, fun x hx hxi => ?_⟩
    rcases Task.mem_modPart hx with g | ⟨y, _, _, rfl⟩
    · exact absurd hxi g.2
    · rfl
  have kk : s.Keeps 218565388186869760 (s.modTask n fun k => { (k.modPart i fun x => { x with done := true }) with
      computed := (k.modPart i fun x => { x with done := true }).parts.all fun x => x.done }) :=
    State.modTask_keeps (by decide) (.refl _) _ _
  generalize (s.modTask n fun k => { (k.modPart i fun x => { x with done := true }) with
      computed := (k.modPart i fun x => { x with done := true }).parts.all fun x => x.done }) = u at ht ho kk
  rw [ht]
  dsimp only
  have hs : (k.modPart i fun x => { x with done := true }).status ≠ stUncorr := h
  rw [if_neg hs]
  split
  · split
    · exact ⟨State.leaveCore_keeps (by decide) kk _ _, ho.leaveCore⟩
    · exact ⟨kk, ho⟩
  · exact ⟨kk, ho⟩

/-- A part of a task with an uncorrectable error ends with a job fault on its partition (R304). -/
theorem State.partDone_fault {s : State} (i0 : s.Inv) {n i : Nat} {k : Task} (hk : s.task? n = some k) (h : k.status = stUncorr)
    (hd : s.defined k.part = true) (hp : s.pstate k.part < 2) (hp12 : k.part < 12) : FaultShown s (s.partDone n i) k.part stUncorr
        := by
  unfold State.partDone
  rw [hk]
  dsimp only
  have ht := State.task?_modTask hk (f := fun k => { (k.modPart i fun x => { x with done := true }) with
    computed := (k.modPart i fun x => { x with done := true }).parts.all fun x => x.done }) fun _ => rfl
  have kk : s.Keeps 218565388186869760 (s.modTask n fun k => { (k.modPart i fun x => { x with done := true }) with
      computed := (k.modPart i fun x => { x with done := true }).parts.all fun x => x.done }) :=
    State.modTask_keeps (by decide) (.refl _) _ _
  generalize (s.modTask n fun k => { (k.modPart i fun x => { x with done := true }) with
      computed := (k.modPart i fun x => { x with done := true }).parts.all fun x => x.done }) = u at ht kk
  rw [ht]
  dsimp only
  have hs : (k.modPart i fun x => { x with done := true }).status = stUncorr := h
  rw [if_pos hs]
  have key : ∀ v : State, s.Keeps 218565388186869760 v → FaultShown s (v.jobFault k.part stUncorr) k.part stUncorr := by
    intro v kv
    have e1 : v.fd (Rg.FLT_PART_STATE k.part) = s.fd (Rg.FLT_PART_STATE k.part) := kv.fd i0 (Rg.FLT_PART_STATE_in _) (by decide)
        (by decide)
    have e2 : v.fd (Rg.FLT_PART_FAULT_ID k.part) = s.fd (Rg.FLT_PART_FAULT_ID k.part) := kv.fd i0 (Rg.FLT_PART_FAULT_ID_in _) (by
        decide) (by decide)
    have ed : v.defined k.part = s.defined k.part := by
      unfold State.defined
      rw [(kv.same .settings (by decide) k.part).2.1]
    have r := State.jobFaultAs_shown (kv.inv i0) hp12 (ed.trans hd) (by unfold State.pstate at hp ⊢; rw [e1]; exact hp) 1 stUncorr 0
    exact ⟨r.state, r.cause, r.id.trans (by rw [e2]), r.irq⟩
  split
  · split
    · exact key _ (State.leaveCore_keeps (by decide) kk _ _)
    · exact key _ kk
  · exact key _ kk

/-! ### The task's status -/

theorem State.task?_taskStatus {s : State} {n : Nat} {k : Task} (h : s.task? n = some k) (st sub : Nat) :
    (s.taskStatus n st sub).task? n = some { k with status := statusMax k.status st, sub := k.sub ||| sub } := by
  unfold State.taskStatus
  exact State.task?_modTask h fun _ => rfl

theorem State.task?_flagTask {s : State} {n : Nat} {k : Task} (h : s.task? n = some k) (range pois : Bool) :
    ∃ k', (s.flagTask n false range pois).task? n = some k' ∧ k'.status = k.flagStatus range pois ∧ k'.sub = k.flagSub range pois
        ∧ k'.part = k.part := by
  unfold State.flagTask
  cases range <;> cases pois
  · exact ⟨k, h, rfl, by simp [Task.flagSub], rfl⟩
  · exact ⟨_, State.task?_taskStatus h _ _, rfl, by simp [Task.flagSub], rfl⟩
  · exact ⟨_, State.task?_taskStatus h _ _, rfl, by simp [Task.flagSub], rfl⟩
  · refine ⟨_, State.task?_taskStatus (State.task?_taskStatus h _ _) _ _, ?_, ?_, rfl⟩
    · simp [Task.flagStatus, statusMax]
    · simp [Task.flagSub, Nat.or_assoc]

theorem Task.flagStatus_ne {k : Task} (h : k.status < stUncorr) (range pois : Bool) : k.flagStatus range pois ≠ stUncorr := by
  unfold Task.flagStatus statusMax
  unfold stUncorr stFlagged at *
  split <;> omega

/-- A task whose outputs are written, none having failed. -/
theorem State.finish_shown {u : State} {n : Nat} {k : Task} (hk : u.task? n = some k) (h : k.status < stUncorr) (range pois :
    Bool) (i : Nat) :
    u.Keeps 218565388186869760 ((u.flagTask n false range pois).partDone n i) ∧
    ((u.flagTask n false range pois).partDone n i).PartOver n i (k.flagStatus range pois) (k.flagSub range pois) := by
  obtain ⟨k', hk', h1, h2, _⟩ := State.task?_flagTask hk range pois
  have c := State.partDone_calm (i := i) hk' (by rw [h1]; exact Task.flagStatus_ne h _ _)
  rw [h1, h2] at c
  exact ⟨(State.flagTask_keeps (by decide) (.refl _) _ _ _ _).trans c.1, c.2⟩

/-- A task that a status below UNCORRECTABLE ends. -/
theorem State.endWith_shown {u : State} {n : Nat} {k : Task} (hk : u.task? n = some k) (h : k.status < stUncorr) {st : Nat} (hs :
    st < stUncorr) (i : Nat) :
    u.Keeps 218565388186869760 ((u.taskStatus n st 0).partDone n i) ∧
    ((u.taskStatus n st 0).partDone n i).PartOver n i (statusMax k.status st) k.sub := by
  have c := State.partDone_calm (i := i) (State.task?_taskStatus hk st 0) (by unfold statusMax stUncorr at *; show max k.status st ≠ _; omega)
  have e : k.sub ||| 0 = k.sub := by simp
  rw [show ({ k with status := statusMax k.status st, sub := k.sub ||| 0 } : Task).sub = k.sub from e] at c
  exact ⟨(State.taskStatus_keeps (by decide) (.refl _) _ _ _).trans c.1, c.2⟩

/-- A task that an uncorrectable error ends. -/
theorem State.endUncorr_shown {s u : State} {M : Nat} (i : s.Inv) (hr : s.Keeps M u) (m1 : M.testBit (Comp.idx .settings) = false)
    (m2 : M.testBit (RegBlock.idx .fltp) = false) (m3 : M.testBit 60 = false) {n : Nat} {k : Task} (hk : u.task? n = some k) (h :
        k.status ≤ stUncorr)
    (hd : s.defined k.part = true) (hp : s.pstate k.part < 2) (h12 : k.part < 12) (j : Nat) :
    FaultShown s ((u.taskStatus n stUncorr 0).partDone n j) k.part stUncorr := by
  have e1 : (u.taskStatus n stUncorr 0).fd (Rg.FLT_PART_STATE k.part) = s.fd (Rg.FLT_PART_STATE k.part) := hr.fd i
      (Rg.FLT_PART_STATE_in _) m2 m3
  have e2 : (u.taskStatus n stUncorr 0).fd (Rg.FLT_PART_FAULT_ID k.part) = s.fd (Rg.FLT_PART_FAULT_ID k.part) := hr.fd i
      (Rg.FLT_PART_FAULT_ID_in _) m2 m3
  have ed : (u.taskStatus n stUncorr 0).defined k.part = s.defined k.part := by
    unfold State.defined
    rw [show ((u.taskStatus n stUncorr 0).part k.part).cfg = (u.part k.part).cfg from rfl, (hr.same .settings m1 k.part).2.1]
  have r := State.partDone_fault (State.taskStatus_keeps (M := 1048576) (by decide) (.refl u) n stUncorr 0 |>.inv (hr.inv i)) (i
      := j)
    (State.task?_taskStatus hk stUncorr 0) (by show max k.status stUncorr = _; omega)
    (ed.trans hd) (by unfold State.pstate at hp ⊢; rw [e1]; exact hp) h12
  exact ⟨r.state, r.cause, r.id.trans (by rw [e2]), r.irq⟩

/-! ### Fetches -/

/-- What reads leave: the error symbols as they stand, and nothing changed but what reports errors. -/
structure Fetch.Read (f g : Fetch) : Prop where
  flips : g.st.ecc.flips = f.st.ecc.flips
  keeps : f.st.Keeps 74450131340091392 g.st

theorem Fetch.Read.refl (f : Fetch) : f.Read f := ⟨rfl, .refl _⟩

theorem Fetch.Read.trans {f g h : Fetch} (a : f.Read g) (b : g.Read h) : f.Read h := ⟨b.flips.trans a.flips, a.keeps.trans b.keeps⟩

theorem Fetch.get_read (f : Fetch) (p a n : Nat) : f.Read (f.get p a n).2 :=
  ⟨State.devRead_flips .., State.devRead_keeps (by decide) (.refl _) _ _ _ _⟩

theorem Fetch.foldl_read {α β : Type} (pr : β → Fetch) (f : β → α → β) (h : ∀ b x, (pr b).Read (pr (f b x))) : ∀ (l : List α) (b :
    β), (pr b).Read (pr (l.foldl f b)) := by
  intro l
  induction l with
  | nil => intro b; exact .refl _
  | cons x t ih => intro b; exact (h b x).trans (ih _)

theorem Fetch.gets_read (f : Fetch) (p n : Nat) (as : List Nat) : f.Read (f.gets p n as).2 :=
  Fetch.foldl_read (fun b : List Line × Fetch => b.2) _ (fun b x => Fetch.get_read b.2 p x n) as ([], f)

theorem Fetch.dense_read (f : Fetch) (p fmt base stride n k : Nat) (x : Bool) : f.Read (f.dense p fmt base stride n k x).2 := by
  unfold Fetch.dense
  split
  · exact Fetch.gets_read ..
  · exact Fetch.gets_read ..

/-- A way to read that only reads. -/
def Reader.Reads (rd : Reader) : Prop := ∀ f a n, Fetch.Read f (rd f a n).2

theorem directly_reads (p : Nat) : Reader.Reads (directly p) := fun f a n => Fetch.get_read f p a n

theorem Fetch.tile_read {rd : Reader} (h : rd.Reads) (f : Fetch) (fmt : Nat) (sgn : Bool) (dir n k lb kt : Nat) : f.Read (f.tile
    rd fmt sgn dir n k lb kt).2 := by
  unfold Fetch.tile
  dsimp only
  repeat' split
  all_goals first
    | exact h ..
    | exact (h ..).trans (h ..)

theorem Fetch.tiles_read {rd : Reader} (h : rd.Reads) (f : Fetch) (fmt : Nat) (sgn : Bool) (dir n k : Nat) : f.Read (f.tiles rd
    fmt sgn dir n k).2 := by
  unfold Fetch.tiles
  exact Fetch.foldl_read (fun b : List Tile × Fetch => b.2)
    (fun acc i => let x := acc.2.tile rd fmt sgn dir n k (i / tilesOf k) (i % tilesOf k); (acc.1 ++ [x.1], x.2))
    (fun b x => Fetch.tile_read h b.2 fmt sgn dir n k (x / tilesOf k) (x % tilesOf k)) _ ([], f)

theorem Fetch.Read.writable {f g : Fetch} (h : f.Read g) (i : f.st.Inv) {p : Nat} {ws : List (Nat × Bytes)} (r : f.st.Writable p
    ws) : g.st.Writable p ws :=
  ⟨h.flips.trans r.flips, fun x hx => by
    rw [h.keeps.badPoint i (by decide) (by decide) (by decide) (by decide) (by decide)]; exact r.reached x hx⟩

end Sys2Proof.Machine
end

