-- ==== Sys2Proof/Laws/EffSkim.lean ====
section
/-!
SUPPORT. What the Skimmer's commands do (06_skimmer.md R205 to R211).
-/
namespace Sys2Proof.Machine

theorem State.skimCtx_task {s : State} {n op : Nat} {c : SkimCtx} (h : s.skimCtx n op = some c) : s.task? n = some c.k := by
  unfold State.skimCtx at h
  split at h
  · cases h
  · rename_i k x hw
    split at h
    · cases h
    · dsimp only at h
      split at h
      · cases h
        unfold State.working? at hw
        split at hw
        · cases hw
        · split at hw
          · cases hw
          · split at hw
            · cases hw; assumption
            · cases hw
      · cases h

/-- What a SKIM task's counts leave alone. -/
theorem State.skimCounts_keeps (s : State) (c : SkimCtx) (a b d : Nat) :
    s.Keeps 216172782113783808 (((s.skimBytes c.lc a b).skimOver c.lc d).skimXpose c) :=
  State.skimXpose_keeps (by decide) (State.skimOver_keeps (by decide) (State.skimBytes_keeps (by decide) (.refl _) _ _ _) _ _) _

theorem skmDisableWrite_spec (s : State) (i : s.Inv) (k : Nat) (v : W64) (hs : s.var.skimmer = true) (he : s.enabled.contains k =
    true) :
    ∃ t, exec (.skmDisableWrite k v) s = .next t ∧ t.fd (Rg.CLU_SKM_CTRL_DISABLE k) = v.toNat % 2 ∧
      (t.cluster k).skimOffAt = (if v.toNat % 2 = 1 ∧ s.fd (Rg.CLU_SKM_CTRL_DISABLE k) = 0 then s.now else (s.cluster
          k).skimOffAt) ∧
      (t.cluster k).skimQ = (s.cluster k).skimQ ∧ t.tasks = s.tasks := by
  refine ⟨_, rfl, ?_⟩
  unfold State.skimDisable
  rw [if_neg (by simp [hs]; simpa using he)]
  dsimp only
  have e1 : (s.setF (Rg.CLU_SKM_CTRL_DISABLE k) (v.toNat % 2)).fd (Rg.CLU_SKM_CTRL_DISABLE k) = v.toNat % 2 := by
    rw [State.fd_setF_self i _ _ (Nat.le_of_ble_eq_true rfl)]
    exact Nat.mod_mod ..
  have hc : (s.setF (Rg.CLU_SKM_CTRL_DISABLE k) (v.toNat % 2)).cluster k = s.cluster k := State.setF_cluster ..
  have ht : (s.setF (Rg.CLU_SKM_CTRL_DISABLE k) (v.toNat % 2)).tasks = s.tasks := rfl
  have hn : (s.setF (Rg.CLU_SKM_CTRL_DISABLE k) (v.toNat % 2)).now = s.now := rfl
  have hon : s.on (Rg.CLU_SKM_CTRL_DISABLE k) = (s.fd (Rg.CLU_SKM_CTRL_DISABLE k) != 0) := rfl
  rw [hon]
  generalize (s.setF (Rg.CLU_SKM_CTRL_DISABLE k) (v.toNat % 2)) = u at e1 hc ht hn
  split
  · rename_i h
    rw [if_pos (by simpa using h)]
    refine ⟨e1, ?_, ?_, ht⟩
    · rw [State.cluster_modCluster_self]; exact hn
    · rw [State.cluster_modCluster_self, hc]
  · rename_i h
    rw [if_neg (by simpa using h), hc]
    exact ⟨e1, rfl, rfl, ht⟩

/-- The Skimmers' queues stay as they are. -/
def State.SameQ (s t : State) : Prop := ∀ k, (t.cluster k).skimQ = (s.cluster k).skimQ

theorem State.SameQ.refl (s : State) : s.SameQ s := fun _ => rfl

theorem State.SameQ.trans {s t u : State} (a : s.SameQ t) (b : t.SameQ u) : s.SameQ u := fun k => (b k).trans (a k)

theorem State.SameQ.of_clusters {s t : State} (h : t.clusters = s.clusters) : s.SameQ t := fun k => by unfold State.cluster; rw [h]

theorem State.SameQ.devRead (s : State) (p c a n : Nat) : s.SameQ (s.devRead p c a n).st :=
  .of_clusters ((State.devRead_keeps (by decide) (.refl _) p c a n : s.Keeps 74450131340091392 _).same .clusters (by decide))

theorem foldl_sameQ {α β : Type} (pr : β → State) (f : β → α → β) (h : ∀ b x, (pr b).SameQ (pr (f b x))) : ∀ (l : List α) (b : β),
    (pr b).SameQ (pr (l.foldl f b)) := by
  intro l
  induction l with
  | nil => intro b; exact .refl _
  | cons x t ih => intro b; exact (h b x).trans (ih _)

theorem Fetch.wcTouch_sameQ (f : Fetch) (p c l : Nat) : f.st.SameQ (f.wcTouch p c l).st := by
  have key (k : Nat) (w : List (Nat × Nat)) : f.st.SameQ (f.st.modCluster k fun x => { x with wcache := w }) := fun j => by
    by_cases h : j = k
    · subst h; rw [State.cluster_modCluster_self]
    · rw [State.cluster_modCluster, if_neg h]
  have bump (u : State) (g : RF) : u.SameQ (u.bump g) := .of_clusters (State.bump_clusters ..)
  have rr (u : State) (a n : Nat) : u.SameQ (u.ramRead p 0 a n).st :=
    .of_clusters ((State.ramRead_keeps (by decide) (.refl _) p 0 a n : u.Keeps 74450131340025856 _).same .clusters (by decide))
  unfold Fetch.wcTouch
  dsimp only
  split
  · exact (key _ _).trans (bump _ _)
  · exact ((key _ _).trans (bump _ _)).trans (rr _ _ _)

theorem Fetch.gets_sameQ (f : Fetch) (p n : Nat) (as : List Nat) : f.st.SameQ (f.gets p n as).2.st :=
  foldl_sameQ (fun b : List Line × Fetch => b.2.st) _ (fun b x => .devRead b.2.st p 0 x n) as ([], f)

theorem Fetch.getsB_sameQ (f : Fetch) (p c : Nat) (b : BStream) (n : Nat) (as : List Nat) : f.st.SameQ (f.getsB p c b n as).2.st
    := by
  have touch (g : Fetch) : g.st.SameQ (forN b.times (fun f _ => (wcLinesOf n as).foldl (fun f l => f.wcTouch p c l) f) g).st :=
    foldl_sameQ Fetch.st _ (fun h _ => foldl_sameQ Fetch.st _ (fun h l => Fetch.wcTouch_sameQ h p c l) _ h) _ g
  unfold Fetch.getsB
  extract_lets ok mode member g
  split
  · have hg : f.st.SameQ g.st := by
      simp only [g]
      split
      · exact touch f
      · exact .refl _
    refine hg.trans (foldl_sameQ (fun b : List Line × Fetch => b.2.st) _ (fun z x => ?_) as ([], g))
    dsimp only
    split
    · exact .devRead z.2.st p 0 x n
    · exact .refl _
  · exact Fetch.gets_sameQ f p n as

theorem Fetch.tile_sameQ {rd : Reader} (h : ∀ (f : Fetch) (a n : Nat), f.st.SameQ (rd f a n).2.st) (f : Fetch) (fmt : Nat) (sgn :
    Bool) (dir n k lb kt : Nat) :
    f.st.SameQ (f.tile rd fmt sgn dir n k lb kt).2.st := by
  unfold Fetch.tile
  dsimp only
  split
  · exact h f _ _
  · exact (h f _ _).trans (h _ _ _)

theorem State.serveTile_sameQ (s : State) (k : Nat) (r : TileReq) : s.SameQ (s.serveTile k r) := by
  have bump (u : State) (g : RF) (n : Nat) : u.SameQ (u.bump g n) := .of_clusters (State.bump_clusters ..)
  unfold State.serveTile
  split
  · exact .refl _
  · split
    · exact .refl _
    · rename_i t _ _ g _
      extract_lets q n w kt lb pt f b x bw ln kn st posMajor gets y el x2 s1 s2
      split
      · have hx : s.SameQ x.2.st := by
          refine Fetch.tile_sameQ (fun f a n => ?_) f _ _ _ _ _ _ _
          split
          · exact .devRead f.st q.p 0 a n
          · exact Fetch.getsB_sameQ f q.p r.core b n [a]
        have kn : x.2.st.Keeps 144115188075855872 (x.2.st.noteTile k x.1 x.2.bytes) := State.noteTile_keeps (by decide) (.refl _)
            _ _ _
        exact hx.trans (.of_clusters (kn.same .clusters (by decide)))
      · have hg (n : Nat) (as : List Nat) : s.SameQ (gets n as).2.st := by
          simp only [gets]
          split
          · exact Fetch.gets_sameQ f _ _ _
          · exact Fetch.getsB_sameQ f _ _ _ _ _
        have hy : s.SameQ y.2.st := by
          simp only [y]
          split
          · exact hg _ _
          · exact hg _ _
        have h1 : s.SameQ s1 := hy.trans (bump _ _ _)
        have h2 : s.SameQ s2 := by
          simp only [s2]
          split
          · exact h1.trans (bump _ _ _)
          · exact h1
        exact h2.trans (bump _ _ _)

theorem skimmerTileServe_spec (s : State) (k : Nat) (r : TileReq) (hr : (s.cluster k).nextTile = some r) :
    ∃ t, exec (.skimmerTileServe k) s = .next t ∧ (t.cluster k).skimQ = (s.cluster k).skimQ.erase r ∧ (t.cluster k).skimRot =
        r.core ∧
      (s.task? r.task = none → t.regs = s.regs) ∧ t.tasks = s.tasks ∧ t.mem = s.mem := by
  refine ⟨_, rfl, ?_⟩
  unfold State.skimServe
  rw [hr]
  dsimp only
  have kk : s.Keeps 218565319432724480 (s.serveTile k r) := State.serveTile_keeps (by decide) (.refl _) _ _
  have hn : s.task? r.task = none → s.serveTile k r = s := fun h => by unfold State.serveTile; rw [h]
  have hc := State.serveTile_sameQ s k r k
  have e1 : (s.serveTile k r).tasks = s.tasks := kk.same .tasks (by decide)
  have e2 : (s.serveTile k r).mem = s.mem := kk.same .mem (by decide)
  generalize s.serveTile k r = u at hc e1 e2 hn
  refine ⟨?_, ?_, fun h => (congrArg State.regs (hn h) : u.regs = s.regs), e1, e2⟩
  · rw [State.cluster_modCluster_self, hc]
  · rw [State.cluster_modCluster_self]

theorem skimCheck24_spec (s : State) (i : s.Inv) (n : Nat) (c : SkimCtx) (h : s.SkimWorks n 3 c) (x : Elems) (f : Fetch) (hx :
    c.dense s = (x, f)) :
    ∃ t, exec (.skimCheck24 n) s = .next t ∧
      (f.fail = true → FaultShown s t c.k.part stUncorr) ∧
      (f.fail = false → s.Writable c.k.part [(fieldAt c.b 40 8, c.checkRec x)] →
        s.Stored t [(fieldAt c.b 40 8, c.checkRec x)] ∧
        t.PartOver n 0 (c.k.flagStatus false (tilesBad x c.n c.len != 0)) (c.k.flagSub false (tilesBad x c.n c.len != 0))) := by
  refine ⟨_, rfl, ?_⟩
  have hk := State.skimCtx_task h.ctx
  unfold State.skimCheck24
  rw [h.ctx]
  dsimp only
  rw [hx]
  dsimp only
  have rd : Fetch.Read ⟨false, 0, s⟩ f := by
    have := Fetch.dense_read ⟨false, 0, s⟩ c.k.part c.w.fmt (fieldAt c.b 16 8) (fieldAt c.b 32 4) c.n c.len (bitOf (fieldAt c.b 3
        1) 0)
    unfold SkimCtx.dense at hx
    rw [hx] at this
    exact this
  have kt : f.st.task? n = some c.k := (State.task?_same (rd.keeps.same .tasks (by decide)) n).trans hk
  constructor
  · intro hf
    rw [if_pos hf]
    exact State.endUncorr_shown i rd.keeps (by decide) (by decide) (by decide) kt (Nat.le_of_lt h.status) h.live.1 h.live.2 h.part 0
  · intro hf hw
    rw [if_neg (by simp [hf])]
    have w := Store.put_wrote (w := ⟨false, 0, FmtEv.none, f.st⟩) (rd.keeps.inv i) false (rd.writable i hw)
    rw [SkimCtx.checkRec] at w
    generalize Store.put ⟨false, 0, FmtEv.none, f.st⟩ c.k.part (fieldAt c.b 40 8) _ false = v at w ⊢
    have kc := State.skimCounts_keeps v.st c f.bytes v.bytes (overfull c.w.fmt x c.n c.len)
    generalize (((v.st.skimBytes c.lc f.bytes v.bytes).skimOver c.lc (overfull c.w.fmt x c.n c.len)).skimXpose c) = u at kc ⊢
    have ku : u.task? n = some c.k := (State.task?_same ((kc.same .tasks (by decide)).trans (w.keeps.same .tasks (by decide)))
        n).trans kt
    rw [w.fail]
    have g := State.finish_shown ku h.status false (tilesBad x c.n c.len != 0) 0
    refine ⟨fun y => ?_, g.2⟩
    rw [g.1.same .mem (by decide), kc.same .mem (by decide), w.mem y]
    show written (find unwritten f.st.mem) _ y = _
    rw [rd.keeps.same .mem (by decide)]
    rfl

/-! ### ENCODE -/

theorem SkimCtx.layout_wrote (c : SkimCtx) (x : Elems) (f : Store × Nat × Nat × Nat × Nat × Nat → Nat → Store × Nat × Nat × Nat ×
    Nat × Nat)
    (hf : ∀ a i, ∃ bad, f a i = (((a.1.put c.k.part (fieldAt c.b 24 8 + 8 * i) (toLe 8 (a.2.1 + (c.tileAt x i).bytes.length * 2 ^
        40)) false).put c.k.part
      (fieldAt c.b 24 8 + a.2.1) (c.tileAt x i).bytes bad), roundUp (a.2.1 + (c.tileAt x i).bytes.length) 16, a.2.2.1 + b2n
          (c.tileAt x i).raw,
      a.2.2.2.1 + (c.tileAt x i).ovr, a.2.2.2.2.1 + (c.tileAt x i).count, a.2.2.2.2.2 + (c.tileAt x i).bytes.length)) :
    ∀ (l : List Nat) (a : Store × Nat × Nat × Nat × Nat × Nat), a.1.st.Inv → a.1.st.Writable c.k.part (c.layout x l a.2.1) →
      Store.Wrote (c.layout x l a.2.1) a.1 (l.foldl f a).1 ∧
      (l.foldl f a).2.2.1 = a.2.2.1 + (l.map fun i => b2n (c.tileAt x i).raw).sum ∧
      (l.foldl f a).2.2.2.1 = a.2.2.2.1 + (l.map fun i => (c.tileAt x i).ovr).sum ∧
      (l.foldl f a).2.2.2.2.1 = a.2.2.2.2.1 + (l.map fun i => (c.tileAt x i).count).sum ∧
      (l.foldl f a).2.2.2.2.2 = a.2.2.2.2.2 + (l.map fun i => (c.tileAt x i).bytes.length).sum := by
  intro l
  induction l with
  | nil => intro a _ h; exact ⟨.none h.flips, by simp, by simp, by simp, by simp⟩
  | cons i l ih =>
    intro a ia h
    obtain ⟨bad, e⟩ := hf a i
    have h1 := Store.put_wrote ia false (h.sub (a := [(fieldAt c.b 24 8 + 8 * i, toLe 8 (a.2.1 + (c.tileAt x i).bytes.length * 2 ^
        40))])
      fun y hy => List.mem_append_left _ (by simp at hy; simp [hy]))
    have i1 := h1.inv ia
    have h2 := Store.put_wrote i1 bad (h1.writable ia (h.sub (a := [(fieldAt c.b 24 8 + a.2.1, (c.tileAt x i).bytes)])
      fun y hy => List.mem_append_left _ (by simp at hy; simp [hy])))
    have g := h1.trans h2
    have g2 := ih (f a i) (by rw [e]; exact g.inv ia) (by
      rw [e]; exact g.writable ia (h.sub fun y hy => List.mem_append_right _ hy))
    rw [List.foldl_cons]
    refine ⟨?_, ?_, ?_, ?_, ?_⟩
    · have := g2.1
      rw [e] at this ⊢
      exact g.trans this
    all_goals simp only [List.map_cons, List.sum_cons]
    · rw [g2.2.1, e]; dsimp only; omega
    · rw [g2.2.2.1, e]; dsimp only; omega
    · rw [g2.2.2.2.1, e]; dsimp only; omega
    · rw [g2.2.2.2.2, e]; dsimp only; omega

theorem State.skimOut_shown {s : State} {n : Nat} {c : SkimCtx} (hst : c.k.status < stUncorr) {f : Fetch} (rd : Fetch.Read ⟨false,
    0, s⟩ f)
    (hk : s.task? n = some c.k) {ws : List (Nat × Bytes)} {v : Store} (w : Store.Wrote ws ⟨false, 0, FmtEv.none, f.st⟩ v) {u :
        State}
    (kc : v.st.Keeps 216172782113783808 u) (range pois : Bool) :
    s.Stored ((u.flagTask n v.fail range pois).partDone n 0) ws ∧
    ((u.flagTask n v.fail range pois).partDone n 0).PartOver n 0 (c.k.flagStatus range pois) (c.k.flagSub range pois) := by
  have ku : u.task? n = some c.k := (State.task?_same (((kc.same .tasks (by decide)).trans (w.keeps.same .tasks (by
      decide))).trans (rd.keeps.same .tasks (by decide))) n).trans hk
  rw [w.fail]
  have g := State.finish_shown ku hst range pois 0
  refine ⟨fun y => ?_, g.2⟩
  rw [g.1.same .mem (by decide), kc.same .mem (by decide), w.mem y]
  show written (find unwritten f.st.mem) _ y = _
  rw [rd.keeps.same .mem (by decide)]

theorem skimEncode_spec (s : State) (i : s.Inv) (n : Nat) (c : SkimCtx) (h : s.SkimWorks n 1 c) (x : Elems) (f : Fetch) (hx :
    c.dense s = (x, f)) :
    ∃ t, exec (.skimEncode n) s = .next t ∧
      (f.fail = true → FaultShown s t c.k.part stUncorr) ∧
      (f.fail = false → s.Writable c.k.part (c.encodeWrites x) → s.Stored t (c.encodeWrites x) ∧
        t.PartOver n 0 (c.k.flagStatus false (tilesBad x c.n c.len != 0)) (c.k.flagSub false (tilesBad x c.n c.len != 0))) := by
  refine ⟨_, rfl, ?_⟩
  have hk := State.skimCtx_task h.ctx
  unfold State.skimEncode
  rw [h.ctx]
  dsimp only
  rw [hx]
  dsimp only
  have rd : Fetch.Read ⟨false, 0, s⟩ f := by
    have := Fetch.dense_read ⟨false, 0, s⟩ c.k.part c.w.fmt (fieldAt c.b 16 8) (fieldAt c.b 32 4) c.n c.len (bitOf (fieldAt c.b 3
        1) 0)
    unfold SkimCtx.dense at hx
    rw [hx] at this
    exact this
  have kt : f.st.task? n = some c.k := (State.task?_same (rd.keeps.same .tasks (by decide)) n).trans hk
  constructor
  · intro hf
    rw [if_pos hf]
    exact State.endUncorr_shown i rd.keeps (by decide) (by decide) (by decide) kt (Nat.le_of_lt h.status) h.live.1 h.live.2 h.part 0
  · intro hf hw
    rw [if_neg (by simp [hf])]
    have i1 := rd.keeps.inv i
    have wr := rd.writable i hw
    unfold SkimCtx.encodeWrites SkimCtx.total SkimCtx.count at *
    generalize hF : (fun (a : Store × Nat × Nat × Nat × Nat × Nat) (i : Nat) => _) = F
    have key := SkimCtx.layout_wrote c x F (fun a i => by rw [← hF]; exact ⟨_, rfl⟩) (List.range (tilesOf c.n * tilesOf c.len))
      (⟨false, 0, FmtEv.none, f.st⟩, roundUp (8 * (tilesOf c.n * tilesOf c.len)) 16, 0, 0, 0, 8 * (tilesOf c.n * tilesOf c.len)) i1
      (wr.sub fun y hy => List.mem_append_left _ hy)
    generalize (List.range (tilesOf c.n * tilesOf c.len)).foldl F (⟨false, 0, FmtEv.none, f.st⟩, roundUp (8 * (tilesOf c.n *
        tilesOf c.len)) 16, 0, 0, 0, 8 * (tilesOf c.n * tilesOf c.len)) = r at key ⊢
    obtain ⟨w, e1, e2, e3, e4⟩ := key
    rw [e1, e2, e3, e4]
    simp only [Nat.zero_add]
    have w2 := Store.put_wrote (w.inv i1) false (w.writable i1 (wr.sub fun y hy => List.mem_append_right _ hy))
    have ww := w.trans w2
    exact State.skimOut_shown h.status rd hk ww ((State.skimCounts_keeps _ c _ _ _).mono (by decide)) _ _

/-! ### DECODE -/

theorem SkimCtx.decodeLines_wrote (c : SkimCtx) (ts : List Tile) {w : Store} (i : w.st.Inv) (h : w.st.Writable c.k.part
    (c.decodeLines ts)) :
    Store.Wrote (c.decodeLines ts) w (if bitOf (fieldAt c.b 3 1) 0 then
      (List.range c.len).foldl (fun w j => w.line c.k.part c.w.fmt (fieldAt c.b 24 8 + j * fieldAt c.b 32 4) ((List.range c.n).map
          fun i => c.decoded ts i j)) w
    else
      (List.range c.n).foldl (fun w i => w.line c.k.part c.w.fmt (fieldAt c.b 24 8 + i * fieldAt c.b 32 4) ((List.range c.len).map
          fun j => c.decoded ts i j)) w) := by
  unfold SkimCtx.decodeLines at *
  split
  · rename_i g
    rw [if_pos g] at h
    exact Store.foldl_wrote (fun (w : Store) j => w.line c.k.part c.w.fmt (fieldAt c.b 24 8 + j * fieldAt c.b 32 4) ((List.range
        c.n).map fun i => c.decoded ts i j))
      _ (fun w x i h => Store.line_wrote i h) _ w i h
  · rename_i g
    rw [if_neg g] at h
    exact Store.foldl_wrote (fun (w : Store) i => w.line c.k.part c.w.fmt (fieldAt c.b 24 8 + i * fieldAt c.b 32 4) ((List.range
        c.len).map fun j => c.decoded ts i j))
      _ (fun w x i h => Store.line_wrote i h) _ w i h

/-- What a DECODE that wrote `b` bytes counts. -/
def State.decodeCounts (s : State) (c : SkimCtx) (ts : List Tile) (a b : Nat) : State :=
  ((if s.var.skimmer then ts.foldl (fun s y => s.noteTile (s.clusterOf c.lc) y 0) s
    else (s.bump (Rg.CORE_DMA_SPARSE_TILES (s.physCore c.lc)) ts.length).bump (Rg.CORE_DMA_SPARSE_RANGE_TILES (s.physCore c.lc))
        (rangeTiles ts)).skimBytes
      c.lc a b).skimXpose c

theorem State.decodeCounts_keeps (s : State) (c : SkimCtx) (ts : List Tile) (a b : Nat) :
    s.Keeps 216172782113783808 (s.decodeCounts c ts a b) := by
  unfold State.decodeCounts
  refine State.skimXpose_keeps (by decide) (State.skimBytes_keeps (by decide) ?_ _ _ _) _
  split
  · exact keeps_foldl _ (.refl _) fun u x hu => State.noteTile_keeps (by decide) hu _ _ _
  · exact State.bump_keeps (Rg.CORE_DMA_SPARSE_RANGE_TILES_in _) (by decide) (State.bump_keeps (Rg.CORE_DMA_SPARSE_TILES_in _) (by
        decide) (.refl _) _) _

/-- The dense lines written. -/
def Store.decoded (w : Store) (c : SkimCtx) (ts : List Tile) : Store :=
  if bitOf (fieldAt c.b 3 1) 0 then
    (List.range c.len).foldl (fun w j => w.line c.k.part c.w.fmt (fieldAt c.b 24 8 + j * fieldAt c.b 32 4) ((List.range c.n).map
        fun i => c.decoded ts i j)) w
  else
    (List.range c.n).foldl (fun w i => w.line c.k.part c.w.fmt (fieldAt c.b 24 8 + i * fieldAt c.b 32 4) ((List.range c.len).map
        fun j => c.decoded ts i j)) w

/-- The lines and the record written. -/
def Store.decodeAll (w : Store) (c : SkimCtx) (ts : List Tile) : Store :=
  (w.decoded c ts).put c.k.part (fieldAt c.b 40 8) (skimRec ts.length ((ts.filter fun y => y.form == 2).length) 0 (rangeTiles ts)
    ((ts.map (·.count)).foldl (· + ·) 0) (w.decoded c ts).bytes) false

theorem State.skimDecode_eq {s : State} {n : Nat} {c : SkimCtx} (h : s.skimCtx n 2 = some c) {ts : List Tile} {f : Fetch}
    (hx : Fetch.tiles ⟨false, 0, s⟩ (directly c.k.part) c.w.fmt c.w.sgn (fieldAt c.b 16 8) c.n c.len = (ts, f)) :
    s.skimDecode n = if f.fail then (f.st.taskStatus n stUncorr 0).partDone n 0
      else (((Store.decodeAll ⟨false, 0, FmtEv.none, f.st⟩ c ts).st.decodeCounts c ts f.bytes (Store.decodeAll ⟨false, 0,
          FmtEv.none, f.st⟩ c ts).bytes).flagTask n
        (Store.decodeAll ⟨false, 0, FmtEv.none, f.st⟩ c ts).fail (rangeTiles ts != 0) (ts.any (·.bad))).partDone n 0 := by
  unfold State.skimDecode
  rw [h]
  dsimp only
  rw [hx]
  rfl

theorem Store.decodeAll_wrote (c : SkimCtx) (ts : List Tile) {w : Store} (h0 : w.bytes = 0) (i : w.st.Inv) (h : w.st.Writable
    c.k.part (c.decodeWrites ts)) :
    Store.Wrote (c.decodeWrites ts) w (w.decodeAll c ts) := by
  unfold SkimCtx.decodeWrites Store.decodeAll at *
  have g := SkimCtx.decodeLines_wrote c ts i (h.sub fun y hy => List.mem_append_left _ hy)
  change Store.Wrote _ _ (w.decoded c ts) at g
  generalize w.decoded c ts = v at g ⊢
  have hb := g.bytes
  rw [h0, Nat.zero_add] at hb
  rw [← hb] at h ⊢
  exact g.trans (Store.put_wrote (g.inv i) false (g.writable i (h.sub fun y hy => List.mem_append_right _ hy)))

theorem skimDecode_spec (s : State) (i : s.Inv) (n : Nat) (c : SkimCtx) (h : s.SkimWorks n 2 c) (ts : List Tile) (f : Fetch)
    (hx : Fetch.tiles ⟨false, 0, s⟩ (directly c.k.part) c.w.fmt c.w.sgn (fieldAt c.b 16 8) c.n c.len = (ts, f)) :
    ∃ t, exec (.skimDecode n) s = .next t ∧
      (f.fail = true → FaultShown s t c.k.part stUncorr) ∧
      (f.fail = false → s.Writable c.k.part (c.decodeWrites ts) → s.Stored t (c.decodeWrites ts) ∧
        t.PartOver n 0 (c.k.flagStatus (rangeTiles ts != 0) (ts.any (·.bad))) (c.k.flagSub (rangeTiles ts != 0) (ts.any (·.bad))))
            := by
  refine ⟨_, rfl, ?_⟩
  have hk := State.skimCtx_task h.ctx
  rw [State.skimDecode_eq h.ctx hx]
  have rd : Fetch.Read ⟨false, 0, s⟩ f := by
    have := Fetch.tiles_read (directly_reads c.k.part) ⟨false, 0, s⟩ c.w.fmt c.w.sgn (fieldAt c.b 16 8) c.n c.len
    rw [hx] at this
    exact this
  have kt : f.st.task? n = some c.k := (State.task?_same (rd.keeps.same .tasks (by decide)) n).trans hk
  constructor
  · intro hf
    rw [if_pos hf]
    exact State.endUncorr_shown i rd.keeps (by decide) (by decide) (by decide) kt (Nat.le_of_lt h.status) h.live.1 h.live.2 h.part 0
  · intro hf hw
    rw [if_neg (by simp [hf])]
    have w := Store.decodeAll_wrote c ts (w := ⟨false, 0, FmtEv.none, f.st⟩) rfl (rd.keeps.inv i) (rd.writable i hw)
    exact State.skimOut_shown h.status rd hk w (State.decodeCounts_keeps _ c ts _ _) _ _

end Sys2Proof.Machine
end

