-- ==== Sys2Proof/Laws/EffTensor.lean ====
section
/-!
SUPPORT. What the COPY, VEC and GEMM tasks do (10_task_graphs.md R323 to R326; 05_core_streaming.md R155 to R168).
-/
namespace Sys2Proof.Machine

/-- Outputs written, counters counted, and the task ended. -/
theorem State.out_shown {s u0 : State} {M n i : Nat} {k : Task} (hm : u0.mem = s.mem) (hk : u0.task? n = some k) (hst : k.status <
    stUncorr)
    {ws : List (Nat × Bytes)} {w v : Store} (hw : w.st = u0) (hf : w.fail = false) (g : Store.Wrote ws w v) {u : State} (kc :
        v.st.Keeps M u)
    (h1 : M.testBit (Comp.idx .mem) = false) (h2 : M.testBit (Comp.idx .tasks) = false) (range pois : Bool) :
    s.Stored ((u.flagTask n v.fail range pois).partDone n i) ws ∧
    ((u.flagTask n v.fail range pois).partDone n i).PartOver n i (k.flagStatus range pois) (k.flagSub range pois) := by
  have ku : u.task? n = some k := by
    rw [State.task?_same (kc.same .tasks h2), State.task?_same (g.keeps.same .tasks (by decide)), hw]; exact hk
  rw [g.fail, hf]
  have r := State.finish_shown ku hst range pois i
  refine ⟨fun y => ?_, r.2⟩
  rw [r.1.same .mem (by decide), kc.same .mem h1, g.mem y, hw, hm]

theorem State.working?_task {s : State} {n kind i : Nat} {k : Task} {x : TaskPart} (h : s.working? n kind i = some (k, x)) :
    s.task? n = some k := by
  unfold State.working? at h
  split at h
  · cases h
  · split at h
    · cases h
    · split at h
      · cases h; assumption
      · cases h

/-- A line of which no codeword is poisoned is written whole. -/
theorem Line.pieces_clean {l : Line} (h : l.poison = []) (hd : l.data ≠ []) (a : Nat) : l.pieces a = [(a, l.data)] := by
  have key : ∀ (xs : List Byte) (j i : Nat), xs ≠ [] → runsOf i ((xs.zipIdx j).map fun b => (b.1.toNat, l.poison.contains ((l.addr
      + b.2) / 64))) =
      [(i, xs.map (·.toNat), false)] := by
    intro xs
    induction xs with
    | nil => intro j i h; exact absurd rfl h
    | cons x t ih =>
      intro j i _
      simp only [List.zipIdx_cons, List.map_cons, h, List.contains_nil]
      rw [h] at ih
      simp only [List.contains_nil] at ih
      unfold runsOf
      cases t with
      | nil => rfl
      | cons y r =>
        rw [ih (j + 1) (i + 1) (by simp)]
        simp
  unfold Line.pieces
  rw [key _ _ _ hd]
  have e : ((fun x => BitVec.ofNat 8 x) ∘ fun x : Byte => x.toNat) = id := funext fun x => by simp
  simp only [List.map_cons, List.map_nil, List.map_map, e, List.map_id, Nat.add_zero]

theorem Store.foldl_put_wrote {ι : Type} {p : Nat} (g : ι → Nat × Bytes) (bad : ι → Bool) (l : List ι) {w : Store} (i : w.st.Inv)
    (h : w.st.Writable p (l.map g)) : Store.Wrote (l.map g) w (l.foldl (fun w r => w.put p (g r).1 (g r).2 (bad r)) w) := by
  rw [map_singles] at h ⊢
  exact Store.foldl_wrote (fun (w : Store) r => w.put p (g r).1 (g r).2 (bad r)) _ (fun w r i h => Store.put_wrote i _ h) l w i h

theorem Store.copyLine_wrote {w : Store} (i : w.st.Inv) {p a : Nat} {l : Line} (h : w.st.Writable p (l.pieces a)) :
    Store.Wrote (l.pieces a) w (w.copyLine p a l) :=
  Store.foldl_put_wrote (fun r : Nat × List Nat × Bool => (a + r.1, r.2.1.map fun x => BitVec.ofNat 8 x)) (fun r => r.2.2) _ i h

/-- The lines written. -/
def Store.copyOut (w : Store) (p : Nat) (d : Bytes) (rows : Nat) (ls : List Line) : Store :=
  if fieldAt d 64 1 = 0 then ls.zipIdx.foldl (fun o l => o.copyLine p (copyTo d rows l.2) l.1) w
  else (List.range (fieldAt d 52 4 / fieldAt d 64 1)).foldl (fun (o : Store) j =>
    (runsOf 0 ((List.range ((copyRows d rows).2 - (copyRows d rows).1)).map fun i => ((lineElem ls (fieldAt d 64 1) i j).1,
      (List.range 32).any fun a => (List.range 32).any fun b => decide (32 * (i / 32) + a < (copyRows d rows).2 - (copyRows d
          rows).1) &&
        decide (32 * (j / 32) + b < fieldAt d 52 4 / fieldAt d 64 1) && (lineElem ls (fieldAt d 64 1) (32 * (i / 32) + a) (32 * (j
            / 32) + b)).2))).foldl
      (fun o r => o.put p (copyTo d rows j + r.1 * fieldAt d 64 1) (r.2.1.flatMap fun v => toLe (fieldAt d 64 1) v) r.2.2) o) w

theorem Store.copyOut_wrote {w : Store} (i : w.st.Inv) {p : Nat} (d : Bytes) (rows : Nat) (ls : List Line) (h : w.st.Writable p
    (copyWrites d rows ls)) :
    Store.Wrote (copyWrites d rows ls) w (w.copyOut p d rows ls) := by
  unfold copyWrites Store.copyOut at *
  split
  · rename_i g
    rw [if_pos g] at h
    exact Store.foldl_wrote (fun (o : Store) (l : Line × Nat) => o.copyLine p (copyTo d rows l.2) l.1) _ (fun w x i h =>
        Store.copyLine_wrote i h) _ w i h
  · rename_i g
    rw [if_neg g] at h
    refine Store.foldl_wrote (p := p) _ _ (fun w j i h => ?_) _ w i h
    exact Store.foldl_put_wrote (fun r : Nat × List Nat × Bool => (copyTo d rows j + r.1 * fieldAt d 64 1, r.2.1.flatMap fun v =>
        toLe (fieldAt d 64 1) v))
      (fun r => r.2.2) _ i h

/-- What a COPY counts. -/
def State.copyCounts (s : State) (c : Nat) (d : Bytes) (rows a b : Nat) : State :=
  if fieldAt d 64 1 = 0 then s.dmaBytes c a b
  else (s.dmaBytes c a b).bump (Rg.CORE_DMA_XPOSE_BLOCKS c) (blocks32 ((copyRows d rows).2 - (copyRows d rows).1) (fieldAt d 52 4
      / fieldAt d 64 1))

theorem State.copyCounts_keeps (s : State) (c : Nat) (d : Bytes) (rows a b : Nat) : s.Keeps 72057594037927936 (s.copyCounts c d
    rows a b) := by
  unfold State.copyCounts
  split
  · exact State.dmaBytes_keeps (by decide) (.refl _) _ _ _
  · exact State.bump_keeps (Rg.CORE_DMA_XPOSE_BLOCKS_in _) (by decide) (State.dmaBytes_keeps (by decide) (.refl _) _ _ _) _

/-- The state in which a COPY that has read its lines starts to write: link waits and poisoned source tiles counted (05 R183,
    R185). -/
def State.copyMark (s : State) (c : Nat) (d : Bytes) (rows : Nat) (ls : List Line) : State :=
  (s.cycles (linkCycles c)).bump (Rg.CORE_DMA_XPOSE_POISON c) (tilesBad (fun i j =>
    (0, (List.range (max 1 (fieldAt d 64 1))).any fun z => (ls.getD i ⟨0, [], []⟩).poison.contains
      (((ls.getD i ⟨0, [], []⟩).addr + j * max 1 (fieldAt d 64 1) + z) / 64))) ((copyRows d rows).2 - (copyRows d rows).1)
    (fieldAt d 52 4 / max 1 (fieldAt d 64 1)))

theorem State.copyMark_keeps (s : State) (c : Nat) (d : Bytes) (rows : Nat) (ls : List Line) : s.Keeps 72057594037927936
    (s.copyMark c d rows ls) :=
  State.bump_keeps (Rg.CORE_DMA_XPOSE_POISON_in _) (by decide) (State.cycles_keeps (c := .core) (linkCycles_in c) (by decide)
      (.refl _)) _

theorem State.copyTask_eq {s : State} {n : Nat} {k : Task} {x : TaskPart} {g : Graph} (h : s.working? n 4 0 = some (k, x)) (hg :
    s.graphOf k = some g)
    {ls : List Line} {f : Fetch} (hx : Fetch.gets ⟨false, 0, s⟩ k.part (fieldAt (g.desc k.node) 52 4) (copyFrom (g.desc k.node)
        k.rows) = (ls, f)) :
    s.copyTask n = if f.fail then (f.st.taskStatus n stUncorr 0).partDone n 0
      else (((Store.copyOut ⟨false, 0, FmtEv.none, f.st.copyMark (s.physCore x.coreN) (g.desc k.node) k.rows ls⟩ k.part (g.desc
          k.node) k.rows ls).st.copyCounts (s.physCore x.coreN) (g.desc k.node) k.rows f.bytes
        (Store.copyOut ⟨false, 0, FmtEv.none, f.st.copyMark (s.physCore x.coreN) (g.desc k.node) k.rows ls⟩ k.part (g.desc k.node)
            k.rows ls).bytes).flagTask n
          (Store.copyOut ⟨false, 0, FmtEv.none, f.st.copyMark (s.physCore x.coreN) (g.desc k.node) k.rows ls⟩ k.part (g.desc
              k.node) k.rows ls).fail false (ls.any fun l => !l.poison.isEmpty)).partDone n 0 := by
  unfold State.copyTask
  rw [h]
  dsimp only
  rw [hg]
  dsimp only
  have hx' := hx
  unfold copyFrom copyRows at hx'
  rw [hx']
  unfold Store.copyOut State.copyCounts State.copyMark copyRows
  by_cases hf : f.fail = true
  · rw [if_pos hf, if_pos hf]
  · rw [if_neg hf, if_neg hf]
    by_cases hw : fieldAt (g.desc k.node) 64 1 = 0
    · simp only [if_pos hw]; rfl
    · simp only [if_neg hw]; rfl

theorem copyTask_spec (s : State) (i : s.Inv) (n : Nat) (k : Task) (x : TaskPart) (g : Graph) (h : s.TaskWorks n 4 0 k x g) (ls :
    List Line) (f : Fetch)
    (hx : Fetch.gets ⟨false, 0, s⟩ k.part (fieldAt (g.desc k.node) 52 4) (copyFrom (g.desc k.node) k.rows) = (ls, f)) :
    ∃ t, exec (.copyTask n) s = .next t ∧
      (f.fail = true → FaultShown s t k.part stUncorr) ∧
      (f.fail = false → s.Writable k.part (copyWrites (g.desc k.node) k.rows ls) → s.Stored t (copyWrites (g.desc k.node) k.rows
          ls) ∧
        t.PartOver n 0 (k.flagStatus false (ls.any fun l => !l.poison.isEmpty)) (k.flagSub false (ls.any fun l =>
            !l.poison.isEmpty))) ∧
      ∀ l ∈ ls, ∀ a, l.poison = [] → l.data ≠ [] → l.pieces a = [(a, l.data)] := by
  refine ⟨_, rfl, ?_⟩
  have hk := State.working?_task h.works
  rw [State.copyTask_eq h.works h.graph hx]
  have rd : Fetch.Read ⟨false, 0, s⟩ f := by
    have := Fetch.gets_read ⟨false, 0, s⟩ k.part (fieldAt (g.desc k.node) 52 4) (copyFrom (g.desc k.node) k.rows)
    rw [hx] at this
    exact this
  have kt : f.st.task? n = some k := (State.task?_same (rd.keeps.same .tasks (by decide)) n).trans hk
  refine ⟨?_, ?_, fun l _ a h1 h2 => Line.pieces_clean h1 h2 a⟩
  · intro hf
    rw [if_pos hf]
    exact State.endUncorr_shown i rd.keeps (by decide) (by decide) (by decide) kt (Nat.le_of_lt h.status) h.live.1 h.live.2 h.part 0
  · intro hf hw
    rw [if_neg (by simp [hf])]
    have km := State.copyMark_keeps f.st (s.physCore x.coreN) (g.desc k.node) k.rows ls
    have kz := (rd.keeps.mono (M := 74450131340091392) (by decide)).trans (km.mono (by decide))
    have fz : (f.st.copyMark (s.physCore x.coreN) (g.desc k.node) k.rows ls).ecc.flips = s.ecc.flips := (congrArg EccSt.flips
        (km.same .ecc (by decide))).trans rd.flips
    have tz := (State.task?_same (km.same .tasks (by decide)) n).trans kt
    have w := Store.copyOut_wrote (w := ⟨false, 0, FmtEv.none, f.st.copyMark (s.physCore x.coreN) (g.desc k.node) k.rows ls⟩)
        (kz.inv i) (g.desc k.node) k.rows ls
      ⟨fz.trans hw.flips, fun y hy => by rw [kz.badPoint i (by decide) (by decide) (by decide) (by decide) (by decide)]; exact hw.reached y hy⟩
    exact State.out_shown (kz.same .mem (by decide)) tz h.status rfl rfl w (State.copyCounts_keeps ..) (by decide) (by decide) _ _

/-! ### VEC -/

theorem Store.Wrote.ofEv {a : List (Nat × Bytes)} {w v : Store} {e : FmtEv} (h : Store.Wrote a { w with ev := e } v) : Store.Wrote a w v :=
  ⟨h.fail, h.bytes, h.mem, h.flips, h.keeps⟩

theorem VBuf.store_wrote (b : VBuf) {w : Store} (i : w.st.Inv) {p : Nat} (bind : Option (Nat × Nat)) (x : Bytes) (h :
    w.st.Writable p (b.storeWrites bind x)) :
    Store.Wrote (b.storeWrites bind x) w (b.store w p bind x).1 ∧ (b.store w p bind x).2 = (b.storeRows bind x).any fun r => r.any
        (·.2) := by
  constructor
  · unfold VBuf.store
    dsimp only
    have e : ∀ g : Nat → Nat → (Nat × FmtEv) × Bool, (∀ i j, ((g i j).1.1, (g i j).2) = b.stored bind x i j) →
        ((List.range (xferRows bind x).1).map fun i => (List.range (fieldAt x 6 2)).map fun j => g i j).map (fun r => r.map fun v
            => (v.1.1, v.2)) = b.storeRows bind x := by
      intro g hg
      simp only [VBuf.storeRows, List.map_map, Function.comp_def, hg]
    rw [e _ fun i j => rfl]
    refine Store.Wrote.ofEv (Store.foldl_wrote (p := p) _ _ (fun w r i h => ?_) _ _ i h)
    split
    · rename_i g
      rw [if_pos g] at h
      exact Store.put_wrote i _ h
    · rename_i g
      rw [if_neg g] at h
      exact Store.line_wrote i h
  · unfold VBuf.store VBuf.storeRows
    dsimp only
    simp only [List.any_map, Function.comp_def]
    rfl

theorem VBuf.stores_wrote (b : VBuf) {p : Nat} (bind : Option (Nat × Nat)) : ∀ (l : List Bytes) (a : Store × Bool), a.1.st.Inv →
    a.1.st.Writable p (l.flatMap (b.storeWrites bind)) →
    Store.Wrote (l.flatMap (b.storeWrites bind)) a.1 (l.foldl (fun a e => ((b.store a.1 p bind e).1, a.2 || (b.store a.1 p bind
        e).2)) a).1 ∧
    (l.foldl (fun a e => ((b.store a.1 p bind e).1, a.2 || (b.store a.1 p bind e).2)) a).2 = (a.2 || l.any fun e => (b.storeRows
        bind e).any fun r => r.any (·.2)) := by
  intro l
  induction l with
  | nil => intro a _ h; exact ⟨.none h.flips, by simp⟩
  | cons x t ih =>
    intro a i h
    have h1 := VBuf.store_wrote b i bind x (h.sub fun y hy => by rw [List.flatMap_cons]; exact List.mem_append_left _ hy)
    have h2 := ih ((b.store a.1 p bind x).1, a.2 || (b.store a.1 p bind x).2) (h1.1.inv i)
      (h1.1.writable i (h.sub fun y hy => by rw [List.flatMap_cons]; exact List.mem_append_right _ hy))
    rw [List.flatMap_cons, List.foldl_cons]
    exact ⟨h1.1.trans h2.1, by rw [h2.2, h1.2, List.any_cons, Bool.or_assoc]⟩

theorem State.taskBlk_some {s u : State} {n p cls a m : Nat} {f : Bytes → Bool} {b : Bytes} (h : s.taskBlk n p cls a m f = (some
    b, u)) :
    s.Keeps 74450131340091392 u ∧ b = (s.devRead p cls a m).data ∧ u.ecc.flips = s.ecc.flips := by
  unfold State.taskBlk at h
  dsimp only at h
  split at h
  · cases h
  · split at h
    · injection h with h1 h2
      injection h1 with h1
      subst h2
      exact ⟨State.devRead_keeps (by decide) (.refl _) _ _ _ _, h1.symm, State.devRead_flips ..⟩
    · cases h

theorem State.vecReads_keeps {s u : State} {n : Nat} {k : Task} {d : Bytes} {is xs : List Bytes} (h : s.vecReads n k d is xs u) :
    s.Keeps 74450131340091392 u ∧ u.ecc.flips = s.ecc.flips := by
  obtain ⟨prog, v, xl, h1, h2, _, _⟩ := h
  have k1 := State.taskBlk_some h1
  split at h2
  · injection h2 with _ h2
    subst h2
    exact ⟨k1.1, k1.2.2⟩
  · have k2 := State.taskBlk_some h2
    exact ⟨k1.1.trans k2.1, k2.2.2.trans k1.2.2⟩

theorem vecLoads_keeps (p c : Nat) (bind : Option (Nat × Nat)) (xs : List Bytes) (u : State) :
    u.Keeps 74450131340091392 (vecLoads p c bind xs u).2.1.st ∧ (vecLoads p c bind xs u).2.1.st.ecc.flips = u.ecc.flips := by
  unfold vecLoads
  have k0 : u.Keeps 72057594037927936 (u.cycles (linkCycles c ++ [Rg.CORE_VEC_BUSY_BUSY c])) := State.cycles_keeps (c := .core)
    (List.forall_mem_append.2 ⟨linkCycles_in c, List.forall_mem_singleton.2 (Rg.CORE_VEC_BUSY_BUSY_in _)⟩) (by decide) (.refl _)
  generalize u.cycles (linkCycles c ++ [Rg.CORE_VEC_BUSY_BUSY c]) = v at k0
  have key : ∀ (l : List Bytes) (a : VBuf × Fetch × Nat), Fetch.Read a.2.1 (l.foldl (fun a e =>
      ((a.1.load a.2.1 p bind e).1, (a.1.load a.2.1 p bind e).2.1, a.2.2 + (a.1.load a.2.1 p bind e).2.2)) a).2.1 :=
    fun l a => Fetch.foldl_read (fun b : VBuf × Fetch × Nat => b.2.1) (fun a e =>
      ((a.1.load a.2.1 p bind e).1, (a.1.load a.2.1 p bind e).2.1, a.2.2 + (a.1.load a.2.1 p bind e).2.2))
      (fun b x => by unfold VBuf.load; exact Fetch.gets_read ..) l a
  have r := key (xs.filter fun e => fieldAt e 0 1 = 0) (u.vecBuf c, ⟨false, 0, v⟩, 0)
  exact ⟨(k0.mono (by decide)).trans (r.keeps.mono (by decide)), r.flips.trans (congrArg EccSt.flips (k0.same .ecc (by decide)))⟩

/-- The state after the loads `ld` of a VEC and the program that left `run`: the buffer keeps its words, the poisoned tiles are
counted. -/
def State.vecHeld (s : State) (c : Nat) (run : VBuf × FmtEv × Nat) (bad : Nat) : State :=
  (State.modCore { s with free := run.2.2 } c fun k => { k with vec := run.1.words }).bump (Rg.CORE_DMA_XPOSE_POISON c) bad

theorem State.vecHeld_keeps (s : State) (c : Nat) (run : VBuf × FmtEv × Nat) (bad : Nat) :
    s.Keeps 72057594046316545 (s.vecHeld c run bad) :=
  State.bump_keeps (Rg.CORE_DMA_XPOSE_POISON_in _) (by decide) (State.modCore_keeps (by decide) ((keeps_free (by decide) _).2
      (.refl s)) _ _) _

/-- A VEC whose reads and formats are good: loads, program, stores. -/
def State.vecGood (s u : State) (n : Nat) (k : Task) (x : TaskPart) (d : Bytes) (is xs : List Bytes) : State :=
  let c := s.physCore x.coreN
  let ld := vecLoads k.part c (vecBind d k.rows) xs u
  let run := vecRun is ld.1 ld.2.1.st.free
  let z := ld.2.1.st.vecHeld c run ld.2.2
  if ld.2.1.fail then (z.taskStatus n stUncorr 0).partDone n 0
  else
    let o := (vecStores xs).foldl (fun a e => ((run.1.store a.1 k.part (vecBind d k.rows) e).1, a.2 || (run.1.store a.1 k.part
        (vecBind d k.rows) e).2))
      ((⟨false, 0, run.2.1, z⟩ : Store), false)
    ((((o.1.st.dmaBytes c ld.2.1.bytes o.1.bytes).fmtEvents c o.1.ev)).flagTask n o.1.fail false o.2).partDone n 0

theorem State.vecTask_eq {s u : State} {n : Nat} {k : Task} {x : TaskPart} {g : Graph} (h : s.working? n 3 0 = some (k, x)) (hg :
    s.graphOf k = some g)
    {is xs : List Bytes} (hr : s.vecReads n k (g.desc k.node) is xs u) :
    s.vecTask n = if vecFmts is xs then u.vecGood u n k x (g.desc k.node) is xs else (u.taskStatus n stFmtUns 0).partDone n 0 := by
  obtain ⟨prog, v, xl, h1, h2, h3, h4⟩ := hr
  unfold State.vecTask
  rw [h]
  dsimp only
  rw [hg]
  dsimp only
  rw [h1]
  dsimp only
  rw [show (if fieldAt (g.desc k.node) 42 1 = 0 then ((some [] : Option Bytes), v) else v.taskBlk n k.part 0 (fieldAt (g.desc
      k.node) 48 8) (24 * fieldAt (g.desc k.node) 42 1) fun b =>
      (recsOf 24 (fieldAt (g.desc k.node) 42 1) b).any (xferBad ((if dBind (g.desc k.node) then some (boundRows (g.desc k.node)
          k.rows) else none).map fun r => r.2 - r.1))) = (some xl, u) from h2]
  dsimp only
  rw [← h3, ← h4]
  by_cases hf : vecFmts is xs = true
  · rw [if_pos hf]
    have hn : ¬ ((!(xs.all fun e => vecFmtOk (fieldAt e 1 1)) || !is.all fun i => !(fieldAt i 0 1 == 0x0A || fieldAt i 0 1 ==
        0x0B) || vecFmtOk (fieldAt i 12 4 % 32)) = true) := by
      unfold vecFmts at hf
      rw [Bool.and_eq_true] at hf
      rw [hf.1, hf.2]; decide
    rw [if_neg hn]
    rfl
  · rw [if_neg hf]
    have hn : (!(xs.all fun e => vecFmtOk (fieldAt e 1 1)) || !is.all fun i => !(fieldAt i 0 1 == 0x0A || fieldAt i 0 1 == 0x0B)
        || vecFmtOk (fieldAt i 12 4 % 32)) = true := by
      unfold vecFmts at hf
      rw [Bool.and_eq_true, not_and_or] at hf
      rcases hf with hf | hf <;> simp only [Bool.not_eq_true] at hf <;> rw [hf] <;> simp
    rw [if_pos hn]

theorem vecTask_spec (s : State) (i : s.Inv) (n : Nat) (k : Task) (x : TaskPart) (g : Graph) (h : s.TaskWorks n 3 0 k x g) (is xs
    : List Bytes) (u : State)
    (hr : s.vecReads n k (g.desc k.node) is xs u) (b : VBuf) (f : Fetch) (bad : Nat)
    (hl : vecLoads k.part (u.physCore x.coreN) (vecBind (g.desc k.node) k.rows) xs u = (b, f, bad)) :
    ∃ t, exec (.vecTask n) s = .next t ∧
      (vecFmts is xs = false → t.PartOver n 0 (statusMax k.status stFmtUns) k.sub ∧ t.mem = s.mem) ∧
      (vecFmts is xs = true → f.fail = true → FaultShown s t k.part stUncorr) ∧
      (vecFmts is xs = true → f.fail = false →
        s.Writable k.part ((vecStores xs).flatMap ((vecRun is b f.st.free).1.storeWrites (vecBind (g.desc k.node) k.rows))) →
        s.Stored t ((vecStores xs).flatMap ((vecRun is b f.st.free).1.storeWrites (vecBind (g.desc k.node) k.rows))) ∧
        t.PartOver n 0 (k.flagStatus false ((vecRun is b f.st.free).1.poisons (vecBind (g.desc k.node) k.rows) (vecStores xs)))
          (k.flagSub false ((vecRun is b f.st.free).1.poisons (vecBind (g.desc k.node) k.rows) (vecStores xs)))) := by
  refine ⟨_, rfl, ?_⟩
  have hk := State.working?_task h.works
  rw [State.vecTask_eq h.works h.graph hr]
  have ku := State.vecReads_keeps hr
  have kt : u.task? n = some k := (State.task?_same (ku.1.same .tasks (by decide)) n).trans hk
  refine ⟨?_, ?_, ?_⟩
  · intro hf
    rw [if_neg (by simp [hf])]
    have e := State.endWith_shown kt h.status (st := stFmtUns) (by decide) 0
    exact ⟨e.2, (e.1.same .mem (by decide)).trans (ku.1.same .mem (by decide))⟩
  all_goals
    intro hf ff
    rw [if_pos hf]
    unfold State.vecGood
    dsimp only
    rw [hl]
    dsimp only
    have kl := vecLoads_keeps k.part (u.physCore x.coreN) (vecBind (g.desc k.node) k.rows) xs u
    rw [hl] at kl
    have kk : s.Keeps 74450131340091392 f.st := (ku.1.mono (by decide)).trans kl.1
    generalize vecRun is b f.st.free = run
    have kh := State.vecHeld_keeps f.st (u.physCore x.coreN) run bad
    have kz : s.Keeps 74450131348480001 (f.st.vecHeld (u.physCore x.coreN) run bad) := (kk.mono (by decide)).trans (kh.mono (by
        decide))
    have tz : (f.st.vecHeld (u.physCore x.coreN) run bad).task? n = some k := (State.task?_same (kz.same .tasks (by decide))
        n).trans hk
    have fz : (f.st.vecHeld (u.physCore x.coreN) run bad).ecc.flips = s.ecc.flips :=
      (congrArg EccSt.flips (kh.same .ecc (by decide))).trans (kl.2.trans ku.2)
    generalize f.st.vecHeld (u.physCore x.coreN) run bad = z at kz tz fz
  · rw [if_pos ff]
    exact State.endUncorr_shown i kz (by decide) (by decide) (by decide) tz (Nat.le_of_lt h.status) h.live.1 h.live.2 h.part 0
  · rw [if_neg (by simp [ff])]
    intro hw
    have hw' : z.Writable k.part ((vecStores xs).flatMap (run.1.storeWrites (vecBind (g.desc k.node) k.rows))) :=
      ⟨fz.trans hw.flips, fun y hy => by rw [kz.badPoint i (by decide) (by decide) (by decide) (by decide) (by decide)]; exact hw.reached y hy⟩
    have w := VBuf.stores_wrote run.1 (vecBind (g.desc k.node) k.rows) (vecStores xs) (⟨false, 0, run.2.1, z⟩, false) (kz.inv i) hw'
    rw [w.2, Bool.false_or]
    have kc (v : Store) (c : Nat) : v.st.Keeps 72057594037927936 ((v.st.dmaBytes c f.bytes v.bytes).fmtEvents c v.ev) :=
      State.fmtEvents_keeps (by decide) (State.dmaBytes_keeps (by decide) (.refl _) _ _ _) _ _
    have r := State.out_shown (i := 0) (kz.same .mem (by decide)) tz h.status rfl rfl w.1 (kc _ (u.physCore x.coreN)) (by decide)
        (by decide) false
      ((vecStores xs).any fun e => (run.1.storeRows (vecBind (g.desc k.node) k.rows) e).any fun r => r.any (·.2))
    exact r

/-! ### GEMM -/

/-- What the reads of a GEMM leave: the error symbols as they stand, and nothing changed but what reports errors and the weight
    cache. -/
structure Fetch.Fed (f g : Fetch) : Prop where
  flips : g.st.ecc.flips = f.st.ecc.flips
  keeps : f.st.Keeps 74450131356868609 g.st

theorem Fetch.Fed.refl (f : Fetch) : f.Fed f := ⟨rfl, .refl _⟩

theorem Fetch.Fed.trans {f g h : Fetch} (a : f.Fed g) (b : g.Fed h) : f.Fed h := ⟨b.flips.trans a.flips, a.keeps.trans b.keeps⟩

theorem Fetch.Read.fed {f g : Fetch} (h : f.Read g) : f.Fed g := ⟨h.flips, h.keeps.mono (by decide)⟩

theorem Fetch.foldl_fed {α β : Type} (pr : β → Fetch) (f : β → α → β) (h : ∀ b x, (pr b).Fed (pr (f b x))) : ∀ (l : List α) (b :
    β), (pr b).Fed (pr (l.foldl f b)) := by
  intro l
  induction l with
  | nil => intro b; exact .refl _
  | cons x t ih => intro b; exact (h b x).trans (ih _)

theorem Fetch.get_fed (f : Fetch) (p a n : Nat) : f.Fed (f.get p a n).2 := (Fetch.get_read ..).fed

theorem Fetch.gets_fed (f : Fetch) (p n : Nat) (as : List Nat) : f.Fed (f.gets p n as).2 := (Fetch.gets_read ..).fed

theorem Fetch.wcTouch_fed (f : Fetch) (p c l : Nat) : f.Fed (f.wcTouch p c l) := by
  refine ⟨?_, Fetch.wcTouch_keeps (by decide) (.refl _) _ _ _⟩
  unfold Fetch.wcTouch
  dsimp only
  split
  · rfl
  · exact State.ramRead_flips ..

theorem Fetch.getsB_fed (f : Fetch) (p c : Nat) (b : BStream) (n : Nat) (as : List Nat) : f.Fed (f.getsB p c b n as).2 := by
  unfold Fetch.getsB
  dsimp only
  split
  · refine Fetch.Fed.trans (g := if (f.st.streamMode p b.sid).1 = 0 then forN b.times (fun f _ => (wcLinesOf n as).foldl (fun f l
        => f.wcTouch p c l) f) f else f) ?_ ?_
    · split
      · exact Fetch.foldl_fed id _ (fun b x => Fetch.foldl_fed id _ (fun b x => Fetch.wcTouch_fed ..) _ _) _ _
      · exact .refl _
    · generalize (if (f.st.streamMode p b.sid).1 = 0 then forN b.times (fun f _ => (wcLinesOf n as).foldl (fun f l => f.wcTouch p
          c l) f) f else f) = g
      refine Fetch.foldl_fed (fun b : List Line × Fetch => b.2) _ (fun b x => ?_) as ([], g)
      split
      · exact Fetch.get_fed ..
      · exact ⟨rfl, .refl _⟩
  · exact Fetch.gets_fed ..

/-- A way to read that only feeds. -/
def Reader.Feeds (rd : Reader) : Prop := ∀ f a n, Fetch.Fed f (rd f a n).2

theorem directly_feeds (p : Nat) : Reader.Feeds (directly p) := fun f a n => Fetch.get_fed f p a n

theorem BStream.reader_feeds (b : BStream) (p c : Nat) : Reader.Feeds (b.reader p c) := fun f _ n => Fetch.getsB_fed f p c b n _

theorem Fetch.tiles_fed {rd : Reader} (h : rd.Feeds) (f : Fetch) (fmt : Nat) (sgn : Bool) (dir n k : Nat) : f.Fed (f.tiles rd fmt
    sgn dir n k).2 := by
  unfold Fetch.tiles
  refine Fetch.foldl_fed (fun b : List Tile × Fetch => b.2)
    (fun acc i => let x := acc.2.tile rd fmt sgn dir n k (i / tilesOf k) (i % tilesOf k); (acc.1 ++ [x.1], x.2)) (fun b x => ?_) _
        ([], f)
  dsimp only
  unfold Fetch.tile
  dsimp only
  repeat' split
  all_goals first
    | exact h ..
    | exact (h ..).trans (h ..)

theorem Fetch.opA_fed (f : Fetch) (q : Gemm) (conv : Bytes) : f.Fed (f.opA q conv).f := by
  unfold Fetch.opA
  split
  · exact Fetch.tiles_fed (directly_feeds _) ..
  · dsimp only
    split
    · exact (Fetch.get_fed ..).trans (Fetch.gets_fed ..)
    · split
      · exact Fetch.gets_fed ..
      · exact (Fetch.dense_read ..).fed

theorem Fetch.opB1_fed (f : Fetch) (q : Gemm) (c sid base n : Nat) : f.Fed (f.opB1 q c sid base n).f := by
  unfold Fetch.opB1
  dsimp only
  split
  · refine Fetch.tiles_fed ?_ ..
    split
    · exact directly_feeds _
    · exact BStream.reader_feeds _ _ _
  · repeat' split
    all_goals first
      | exact Fetch.gets_fed ..
      | exact Fetch.getsB_fed ..

theorem Fetch.opB_fed (f : Fetch) (q : Gemm) (c : Nat) : f.Fed (f.opB q c).f := by
  unfold Fetch.opB
  dsimp only
  split
  · exact Fetch.opB1_fed ..
  · exact (Fetch.opB1_fed ..).trans (Fetch.opB1_fed ..)

theorem Fetch.scales_fed (f : Fetch) (p : Nat) (w : FmtWord) (a lines len : Nat) : f.Fed (f.scales p w a lines len).2 := by
  unfold Fetch.scales
  dsimp only
  split
  · exact .refl _
  · exact Fetch.get_fed ..

theorem Fetch.scalesB_fed (f : Fetch) (q : Gemm) : f.Fed (f.scalesB q).2 := by
  unfold Fetch.scalesB
  split
  · exact .refl _
  · exact Fetch.get_fed ..

theorem Fetch.table_fed (f : Fetch) (p a : Nat) (used : Bool) : f.Fed (f.table p a used).2.2 := by
  unfold Fetch.table
  split
  · have h := Fetch.get_fed { f with fail := false } p a 32
    exact ⟨h.flips, h.keeps⟩
  · exact .refl _

theorem Fetch.product_fed (f : Fetch) (q : Gemm) (c : Nat) (conv : Bytes) : f.Fed (f.product q c conv).f := by
  refine ⟨?_, Fetch.product_keeps (by decide) (.refl _) _ _ _⟩
  unfold Fetch.product
  dsimp only
  refine Eq.trans (b := (((((((f.opA q conv).f.scales q.p q.fa q.scaleA q.m q.k).2.opB q c).f.scalesB q).2.table q.p q.tableB
      (q.fb.expand == 1)).2.2.table
    q.p q.tableB2 (q.fb.expand == 1 && q.b2 != 0)).2.2.st.ecc.flips)) ?_ ?_
  · split
    · rfl
    · exact (Fetch.gets_fed ..).flips
  · exact ((Fetch.opA_fed ..).trans ((Fetch.scales_fed ..).trans ((Fetch.opB_fed ..).trans ((Fetch.scalesB_fed ..).trans
      ((Fetch.table_fed ..).trans (Fetch.table_fed ..)))))).flips

theorem Store.rows_wrote {w : Store} (i : w.st.Inv) {p : Nat} (f : FmtWord) (a stride sc ss : Nat) (rows : Rows)
    (h : w.st.Writable p (rowsWrites f a stride sc ss rows)) : Store.Wrote (rowsWrites f a stride sc ss rows) w (w.rows p f a
        stride sc ss rows) := by
  unfold Store.rows rowsWrites at *
  refine Store.foldl_wrote (p := p) _ _ (fun w r i h => ?_) _ w i h
  dsimp only at h ⊢
  have h1 := Store.line_wrote i (h.sub fun y hy => List.mem_append_left _ hy)
  by_cases g : f.scale = 0
  · rw [if_pos g, if_pos g, List.append_nil]
    exact ⟨h1.fail, h1.bytes, h1.mem, h1.flips, h1.keeps⟩
  · rw [if_neg g, if_neg g]
    rw [if_neg g] at h
    generalize w.line p f.fmt (a + r.2 * stride) ((convRow f (r.1.map (·.1))).1.zip (r.1.map (·.2))) = v at h1 ⊢
    generalize ((convRow f (r.1.map (·.1))).2.1.flatMap fun x => toLe 1 x) = bs at h ⊢
    have hs : w.st.Writable p [(sc + r.2 * ss, bs)] := h.sub fun y hy => List.mem_append_right _ hy
    have h2 := Store.put_wrote (h1.inv i) false (h1.writable i hs)
    have h3 := h1.trans h2
    exact ⟨h3.fail, h3.bytes, h3.mem, h3.flips, h3.keeps⟩

theorem State.gemmFed_keeps (s : State) (q : Gemm) (lc slot : Nat) : s.Keeps 72057594046316544 (s.gemmFed q lc slot) := by
  have k : s.Keeps 72057594046316544 (s.arrayStart (s.physCore lc) (if q.ws s.var.arrays then 2 else 1) (b2n (q.quad s.var.arrays))
      (q.kparts s.var.arrays) (q.atWork s.var.arrays) (slot == 2)) := State.arrayStart_keeps (by decide) (.refl s) _ _ _ _ _ _
  unfold State.gemmFed
  generalize s.arrayStart (s.physCore lc) (if q.ws s.var.arrays then 2 else 1) (b2n (q.quad s.var.arrays))
      (q.kparts s.var.arrays) (q.atWork s.var.arrays) (slot == 2) = u at k ⊢
  exact State.cycles_keeps (c := .core) (gemmCycles_in q s.var (s.physCore lc)) (by decide) k

/-- Where the product `r` of a GEMM leaves the state: the tables and the cells of physical core `c` noted. -/
def Prod.noted (r : Prod) (q : Gemm) (c : Nat) (parity : Bool) : State := (r.f.st.noteTables c r.tables).noteCells q c r parity

theorem Prod.noted_keeps (r : Prod) (q : Gemm) (c : Nat) (parity : Bool) : r.f.st.Keeps 72057594046316545 (r.noted q c parity) := by
  have k : r.f.st.Keeps 72057594046316545 (r.f.st.noteTables c r.tables) := State.noteTables_keeps (by decide) (.refl _) c r.tables
  exact State.noteCells_keeps (by decide) k q c (.refl _) parity

/-- What reading and computing may change. -/
abbrev gemmMask : Nat := 74450131365257217

theorem State.gemmProduct_read (s : State) (q : Gemm) (lc slot : Nat) :
    s.Keeps gemmMask (s.gemmProduct q lc slot).f.st ∧ (s.gemmProduct q lc slot).f.st.ecc.flips = s.ecc.flips := by
  unfold State.gemmProduct
  have k := State.gemmFed_keeps s q lc slot
  generalize s.gemmFed q lc slot = u at k
  have r := Fetch.product_fed ⟨false, 0, u⟩ q lc []
  exact ⟨(k.mono (by decide)).trans (r.keeps.mono (by decide)), r.flips.trans (congrArg EccSt.flips (k.same .ecc (by decide)))⟩

theorem State.gemmRead_keeps {s : State} {r : Prod} (h : s.Keeps gemmMask r.f.st ∧ r.f.st.ecc.flips = s.ecc.flips) (q : Gemm) (c :
    Nat) (parity : Bool) :
    s.Keeps gemmMask (r.noted q c parity) ∧ (r.noted q c parity).ecc.flips = s.ecc.flips := by
  have k := r.noted_keeps q c parity
  exact ⟨h.1.trans (k.mono (by decide)), (congrArg EccSt.flips (k.same .ecc (by decide))).trans h.2⟩

theorem State.gemmTask_eq {s : State} {n : Nat} {k : Task} {x : TaskPart} {q : Gemm} (h : s.GemmWorks n k x q) (g : q.Plain)
    (parity : Bool) :
    s.gemmTask n parity = (s.gemmRun q n x.coreN x.slot [] [] parity).partDone n 0 := by
  obtain ⟨⟨gr, hw, rfl⟩, hq⟩ := h
  unfold State.gemmTask
  rw [hw.works]
  dsimp only
  rw [hw.graph]
  dsimp only
  rw [if_neg (by rw [hq]; decide), if_neg (by rw [g.fmt]; decide)]
  unfold State.gemmStages
  rw [if_pos g.stages]
  dsimp only
  rw [if_neg (by decide)]
  unfold State.gemmConv
  rw [if_neg (by rw [g.conv]; decide)]
  dsimp only
  rw [if_neg (by unfold Gemm.rotaryOk; simp)]

/-- A GEMM whose reads failed. -/
theorem State.gemmRun_fail {s : State} {q : Gemm} (n lc slot : Nat) (st : List Bytes) (parity : Bool) (h : (s.gemmProduct q lc
    slot).f.fail = true) :
    s.gemmRun q n lc slot st [] parity =
      (((s.gemmProduct q lc slot).noted q (s.physCore lc) parity).gemmCounts q n lc (s.physCore lc) (s.gemmProduct q lc slot)
          0).taskStatus n stUncorr 0 := by
  unfold State.gemmProduct State.gemmFed at *
  unfold State.gemmRun
  dsimp only
  rw [if_pos h]
  rfl

/-- What a plain GEMM counts when it has written D as `w`. -/
def State.gemmDone (w : Store) (q : Gemm) (n lc c : Nat) (r : Prod) : State :=
  ((w.st.gemmCounts q n lc c r w.bytes).bump (Rg.CORE_DMA_BYTES c 0) 0).fmtEvents c (r.ev.add w.ev)

theorem State.gemmDone_keeps (w : Store) (q : Gemm) (n lc c : Nat) (r : Prod) : w.st.Keeps 216172782147338240 (State.gemmDone w q
    n lc c r) := by
  have k : w.st.Keeps 216172782147338240 (w.st.gemmCounts q n lc c { r with f := { r.f with st := w.st } } w.bytes) :=
    State.gemmCounts_keeps (M := 216172782147338240) (by decide) (.refl w.st) q n lc c
      (r := { r with f := { r.f with st := w.st } }) (.refl w.st) w.bytes
  have e : w.st.gemmCounts q n lc c { r with f := { r.f with st := w.st } } w.bytes = w.st.gemmCounts q n lc c r w.bytes := rfl
  rw [e] at k
  exact State.fmtEvents_keeps (by decide) (State.bump_keeps (Rg.CORE_DMA_BYTES_in _ _) (by decide) k _) _ _

/-- A plain GEMM whose reads succeeded, without a parity failure. -/
theorem State.gemmRun_plain {s : State} {q : Gemm} (g : q.Plain) (n lc slot : Nat) (h : (s.gemmProduct q lc slot).f.fail = false) :
    s.gemmRun q n lc slot [] [] false =
      (State.gemmDone (Store.rows ⟨false, 0, FmtEv.none, (s.gemmProduct q lc slot).noted q (s.physCore lc) false⟩ q.p q.fd q.d
          q.dStride q.scaleD
        (blocksOf q.n q.fd.bs) (s.gemmProduct q lc slot).rows) q n lc (s.physCore lc) (s.gemmProduct q lc slot)).flagTask n
        (Store.rows ⟨false, 0, FmtEv.none, (s.gemmProduct q lc slot).noted q (s.physCore lc) false⟩ q.p q.fd q.d q.dStride q.scaleD
        (blocksOf q.n q.fd.bs) (s.gemmProduct q lc slot).rows).fail (s.gemmProduct q lc slot).range (s.gemmProduct q lc slot).pois
            := by
  have e : ∀ (u : State) (rows : Rows), u.gemmOut q n lc [] rows false =
      ⟨rows, false, false, 0, 0, Store.rows ⟨false, 0, FmtEv.none, u⟩ q.p q.fd q.d q.dStride q.scaleD (blocksOf q.n q.fd.bs) rows⟩
          := by
    intro u rows
    unfold State.gemmOut
    dsimp only
    rw [if_neg (by simp [g.stages]), if_neg (by decide), if_neg (by rw [g.rows]; decide)]
    rfl
  unfold State.gemmProduct State.gemmFed at *
  unfold State.gemmRun
  dsimp only
  rw [if_neg (by rw [h]; decide)]
  unfold Prod.noted State.gemmDone
  rw [e]
  dsimp only
  rw [if_pos g.stages]
  simp only [Bool.false_or, Bool.or_false]
  rfl

theorem gemmTask_spec (s : State) (i : s.Inv) (n : Nat) (k : Task) (x : TaskPart) (q : Gemm) (h : s.GemmWorks n k x q) (parity :
    Bool) :
    ∃ t, exec (.gemmTask n parity) s = .next t ∧
      (q.fmtOk = false → t.PartOver n 0 (statusMax k.status stFmtUns) k.sub ∧ t.mem = s.mem) ∧
      (q.Plain → (s.gemmProduct q x.coreN x.slot).f.fail = true → FaultShown s t k.part stUncorr) ∧
      (q.Plain → (s.gemmProduct q x.coreN x.slot).f.fail = false → parity = false →
        s.Writable k.part (q.dWrites (s.gemmProduct q x.coreN x.slot).rows) →
        s.Stored t (q.dWrites (s.gemmProduct q x.coreN x.slot).rows) ∧
        t.PartOver n 0 (k.flagStatus (s.gemmProduct q x.coreN x.slot).range (s.gemmProduct q x.coreN x.slot).pois)
          (k.flagSub (s.gemmProduct q x.coreN x.slot).range (s.gemmProduct q x.coreN x.slot).pois)) := by
  refine ⟨_, rfl, ?_⟩
  obtain ⟨gr, hw, hq⟩ := id h.graph
  have hk := State.working?_task hw.works
  refine ⟨?_, ?_, ?_⟩
  · intro hf
    have e : s.gemmTask n parity = (s.taskStatus n stFmtUns 0).partDone n 0 := by
      unfold State.gemmTask
      rw [hw.works]
      dsimp only
      rw [hw.graph]
      dsimp only
      rw [if_neg (by rw [h.served]; decide), ← hq, if_pos (by rw [hf]; decide)]
    rw [e]
    have e := State.endWith_shown hk hw.status (st := stFmtUns) (by decide) 0
    exact ⟨e.2, e.1.same .mem (by decide)⟩
  all_goals
    intro g hf
    have hp : q.p = k.part := by rw [hq]; rfl
    rw [State.gemmTask_eq h g]
  · rw [State.gemmRun_fail _ _ _ _ _ hf]
    have r := State.gemmRead_keeps (s.gemmProduct_read q x.coreN x.slot) q (s.physCore x.coreN) parity
    have rp := (s.gemmProduct_read q x.coreN x.slot).1
    generalize s.gemmProduct q x.coreN x.slot = pr at r rp hf ⊢
    generalize pr.noted q (s.physCore x.coreN) parity = u at r ⊢
    have ku : s.Keeps (gemmMask ||| 216172782147338240) (u.gemmCounts q n x.coreN (s.physCore x.coreN) pr 0) :=
      State.gemmCounts_keeps (by decide) (r.1.mono (by decide)) q n x.coreN (s.physCore x.coreN) (r := pr) (rp.mono (by decide)) 0
    exact State.endUncorr_shown i ku (by decide) (by decide) (by decide) ((State.task?_same (ku.same .tasks (by decide)) n).trans
        hk) (Nat.le_of_lt hw.status)
      hw.live.1 hw.live.2 hw.part 0
  · intro hparity hwr
    subst hparity
    rw [State.gemmRun_plain g _ _ _ hf]
    have r := State.gemmRead_keeps (s.gemmProduct_read q x.coreN x.slot) q (s.physCore x.coreN) false
    generalize s.gemmProduct q x.coreN x.slot = pr at r hf hwr ⊢
    generalize hu : pr.noted q (s.physCore x.coreN) false = u at r ⊢
    rw [hp]
    have hwu : u.Writable k.part (q.dWrites pr.rows) := ⟨r.2.trans hwr.flips, fun y hy => by
      rw [r.1.badPoint i (by decide) (by decide) (by decide) (by decide) (by decide)]; exact hwr.reached y hy⟩
    have w := Store.rows_wrote (w := ⟨false, 0, FmtEv.none, u⟩) (r.1.inv i) q.fd q.d q.dStride q.scaleD (blocksOf q.n q.fd.bs)
        pr.rows hwu
    have kp : pr.f.st.Keeps 72057594046316545 u := by rw [← hu]; exact pr.noted_keeps q _ false
    generalize Store.rows ⟨false, 0, FmtEv.none, u⟩ k.part q.fd q.d q.dStride q.scaleD (blocksOf q.n q.fd.bs) pr.rows = v at w ⊢
    exact State.out_shown (r.1.same .mem (by decide)) ((State.task?_same (r.1.same .tasks (by decide)) n).trans hk) hw.status rfl
        rfl w
      (State.gemmDone_keeps v q n x.coreN (s.physCore x.coreN) pr) (by decide) (by decide) _ _

end Sys2Proof.Machine
end

