-- ==== Sys2Proof/Laws/EffAttn.lean ====
section
/-!
SUPPORT. What the parts of attention tasks do (07_attention.md R228 to R248).
-/
namespace Sys2Proof.Machine

/-- A block read if asked for. -/
theorem State.optBlk_some {P : Prop} [Decidable P] {s u : State} {n p cls a m : Nat} {f : Bytes → Bool} {b : Bytes}
    (h : (if P then (some [], s) else s.taskBlk n p cls a m f) = (some b, u)) : s.Keeps 74450131340091392 u := by
  split at h
  · injection h with _ h; subst h; exact .refl _
  · exact (State.taskBlk_some h).1

theorem State.attnCtx_some {s u : State} {n i : Nat} {c : AttnCtx} (h : s.attnCtx n i = (some c, u)) :
    s.task? n = some c.k ∧ c.k.id = n ∧ c.part = i ∧ s.Keeps 74450131340091392 u := by
  unfold State.attnCtx at h
  split at h
  · cases h
  · rename_i k x hw
    split at h
    · cases h
    · dsimp only at h
      have hk := State.working?_task hw
      split at h
      · cases h
      · rename_i b s1 h1
        have k1 := (State.taskBlk_some h1).1
        split at h
        · cases h
        · rename_i m s2 h2
          have k2 := State.optBlk_some h2
          generalize (if dBind _ then setField (setField b 20 4 k.rows) 56 8 (_ + 32) else b) = b' at h h2
          split at h
          · cases h
          · split at h
            · cases h
            · rename_i e s3 h3
              have k3 := State.optBlk_some h3
              cases h
              exact ⟨hk, State.task?_id hk, rfl, (k1.trans k2).trans k3⟩

theorem Store.put32s_wrote {w : Store} (i : w.st.Inv) {p a : Nat} {xs : List Num} (bad : Bool) (h : w.st.Writable p [(a, bytes32
    xs)]) :
    Store.Wrote [(a, bytes32 xs)] w (w.put32s p a xs bad) := by
  have r := Store.put_wrote i bad h
  exact ⟨r.fail, r.bytes, r.mem, r.flips, r.keeps⟩

theorem Store.noteScales_wrote {ws : List (Nat × Bytes)} {w v : Store} (h : Store.Wrote ws w v) (a n : Nat) (bs : List Nat) :
    Store.Wrote ws w (v.noteScales a n bs) :=
  ⟨h.fail, h.bytes, h.mem, h.flips, Store.noteScales_keeps (by decide) h.keeps _ _ _⟩

theorem Store.attnRow_wrote {w : Store} (i : w.st.Inv) (c : AttnCtx) (y : RowOut) (k : RowMark) (h : w.st.Writable c.k.part
    (rowOutWrites c y k)) :
    Store.Wrote (rowOutWrites c y k) w (w.attnRow c y k) := by
  unfold Store.attnRow rowOutWrites at *
  dsimp only at h ⊢
  by_cases g : (c.flag 2 && !c.lastStep) = true
  · rw [if_pos g] at h
    rw [if_pos g, if_pos g]
    have h1 := Store.put32s_wrote i (k.bad || k.ob.any id) (h.sub (a := [_]) fun y hy => List.mem_cons.2 (.inl
        (List.mem_singleton.1 hy)))
    exact h1.trans (Store.put32s_wrote (h1.inv i) _ (h1.writable i (h.sub fun y hy => List.mem_cons_of_mem _ hy)))
  · rw [if_neg g] at h
    rw [if_neg g, if_neg g]
    have h1 := Store.line_wrote i (h.sub fun y hy => List.mem_append_left _ hy)
    generalize hl : lineWrites c.of.fmt (AttnCtx.datum (fieldAt c.b 40 8) (fieldAt c.b 52 4) c.d (fmtBits c.of.fmt / 8) y.r.r y.qh)
      ((convRow c.of y.final.1).1.zipIdx.map fun v => (v.1, k.ob.getD (v.2 / 32) k.bad)) = L at h h1 ⊢
    have h2 : Store.Wrote L w (Store.line { w with ev := w.ev.add (convRow c.of y.final.1).2.2 } c.k.part c.of.fmt
        (AttnCtx.datum (fieldAt c.b 40 8) (fieldAt c.b 52 4) c.d (fmtBits c.of.fmt / 8) y.r.r y.qh)
        ((convRow c.of y.final.1).1.zipIdx.map fun v => (v.1, k.ob.getD (v.2 / 32) k.bad))) := by
      rw [← hl] at h ⊢
      have h3 := Store.line_wrote (w := { w with ev := w.ev.add (convRow c.of y.final.1).2.2 }) i (h.sub fun y hy => List.mem_append_left _ hy)
      exact ⟨h3.fail, h3.bytes, h3.mem, h3.flips, h3.keeps⟩
    generalize Store.line { w with ev := w.ev.add (convRow c.of y.final.1).2.2 } c.k.part c.of.fmt
        (AttnCtx.datum (fieldAt c.b 40 8) (fieldAt c.b 52 4) c.d (fmtBits c.of.fmt / 8) y.r.r y.qh)
        ((convRow c.of y.final.1).1.zipIdx.map fun v => (v.1, k.ob.getD (v.2 / 32) k.bad)) = v at h2 ⊢
    have h3 : Store.Wrote L w (if c.of.scale = 0 then v else v.noteScales (AttnCtx.datum (fieldAt c.b 40 8) (fieldAt c.b 52 4) c.d
        (fmtBits c.of.fmt / 8) y.r.r y.qh)
        (c.of.bs * (fmtBits c.of.fmt / 8)) (convRow c.of y.final.1).2.1) := by
      split
      · exact h2
      · exact Store.noteScales_wrote h2 _ _ _
    generalize (if c.of.scale = 0 then v else v.noteScales (AttnCtx.datum (fieldAt c.b 40 8) (fieldAt c.b 52 4) c.d (fmtBits
        c.of.fmt / 8) y.r.r y.qh)
        (c.of.bs * (fmtBits c.of.fmt / 8)) (convRow c.of y.final.1).2.1) = z at h3 ⊢
    by_cases e : (c.flag 0 || c.flag 2) = true
    · rw [if_pos e] at h
      rw [if_pos e, if_pos e]
      exact h3.trans (Store.put32s_wrote (h3.inv i) _ (h3.writable i (h.sub fun y hy => List.mem_append_right _ hy)))
    · rw [if_neg e, if_neg e, List.append_nil]
      exact h3

/-- The rows of the groups written. -/
def Store.attnOut (w : Store) (c : AttnCtx) (recBad : Bool) (gs : List GroupOut) : Store :=
  gs.foldl (fun w g => (g.ys.zip (g.marks c recBad)).foldl (fun (w : Store) y => w.attnRow c y.1 y.2) w) w

theorem Store.attnOut_wrote {w : Store} (i : w.st.Inv) (c : AttnCtx) (recBad : Bool) (gs : List GroupOut) (h : w.st.Writable
    c.k.part (attnWrites c recBad gs)) :
    Store.Wrote (attnWrites c recBad gs) w (w.attnOut c recBad gs) := by
  unfold attnWrites Store.attnOut at *
  refine Store.foldl_wrote (p := c.k.part) _ _ (fun w g i h => ?_) _ w i h
  exact Store.foldl_wrote (p := c.k.part) (fun (w : Store) (y : RowOut × RowMark) => w.attnRow c y.1 y.2) (fun y => rowOutWrites c
      y.1 y.2)
    (fun w y i h => Store.attnRow_wrote i c y.1 y.2 h) _ w i h

/-- A part whose format words do not let it run (R248). -/
theorem State.attnFmt_over {s u : State} {n i op : Nat} {c : AttnCtx} (h : s.AttnWorks n i op c u) :
    ((u.taskStatus c.k.id stFmtUns 0).partDone c.k.id c.part).PartOver n i (statusMax c.k.status stFmtUns) c.k.sub ∧
    ((u.taskStatus c.k.id stFmtUns 0).partDone c.k.id c.part).mem = s.mem := by
  obtain ⟨hk, h1, h2, ku⟩ := State.attnCtx_some h.ctx
  rw [h1, h2]
  have e := State.endWith_shown ((State.task?_same (ku.same .tasks (by decide)) n).trans hk) h.status (st := stFmtUns) (by decide) i
  exact ⟨e.2, (e.1.same .mem (by decide)).trans (ku.same .mem (by decide))⟩

theorem State.attnLoad_fmt {u : State} {c : AttnCtx} (h : c.fmtOk = false) (lo hi : Nat) :
    u.attnLoad c lo hi = (none, (u.taskStatus c.k.id stFmtUns 0).partDone c.k.id c.part) := by
  unfold State.attnLoad
  dsimp only
  rw [if_pos (by rw [h]; decide)]

/-- What a forward part counts when it has written its output as `w`. -/
def State.forwardCounts (w : Store) (c : AttnCtx) (pc bytes : Nat) (gs : List GroupOut) (keys : List (Nat × Stream)) : State :=
  let ys := gs.flatMap (·.ys)
  let s : State := { w.st with free := w.st.free + (pageSums w.st.free ys).length }
  let s := ((s.dmaBytes pc bytes w.bytes).fmtEvents pc w.ev).bump (Rg.CORE_ATTN_EVENTS_RESCALES pc) ((ys.map fun y =>
      y.x.rescales).foldl (· + ·) 0)
  let s := if c.lastStep then s.bump (Rg.CORE_ATTN_MASK_EMPTY_ROWS pc) ((ys.filter fun y => y.x.m == Num.inf true &&
      !y.x.wrong).length) else s
  gs.foldl (fun s g =>
    let e := g.g.2.head?.elim 0 AttnRow.entry
    s.attnCounts c pc g.g (keysOf keys e) (hiddenOf keys e) (g.ys.map (·.p))) s

theorem State.forwardCounts_keeps (w : Store) (c : AttnCtx) (pc bytes : Nat) (gs : List GroupOut) (keys : List (Nat × Stream)) :
    w.st.Keeps 72057594037927937 (State.forwardCounts w c pc bytes gs keys) := by
  unfold State.forwardCounts
  dsimp only
  have k0 : w.st.Keeps 72057594037927937 { w.st with free := w.st.free + (pageSums w.st.free (gs.flatMap (·.ys))).length } :=
    (keeps_free (by decide) _).2 (.refl _)
  generalize ({ w.st with free := w.st.free + (pageSums w.st.free (gs.flatMap (·.ys))).length } : State) = u at k0 ⊢
  have k1 : w.st.Keeps 72057594037927937 (((u.dmaBytes pc bytes w.bytes).fmtEvents pc w.ev).bump (Rg.CORE_ATTN_EVENTS_RESCALES pc)
      (((gs.flatMap (·.ys)).map fun y => y.x.rescales).foldl (· + ·) 0)) :=
    State.bump_keeps (Rg.CORE_ATTN_EVENTS_RESCALES_in _) (by decide) (State.fmtEvents_keeps (by decide) (State.dmaBytes_keeps (by
        decide) k0 _ _ _) _ _) _
  generalize ((u.dmaBytes pc bytes w.bytes).fmtEvents pc w.ev).bump (Rg.CORE_ATTN_EVENTS_RESCALES pc)
      (((gs.flatMap (·.ys)).map fun y => y.x.rescales).foldl (· + ·) 0) = v at k1 ⊢
  refine keeps_foldl _ ?_ (fun x g hx => State.attnCounts_keeps (by decide) hx _ _ _ _ _ _)
  split
  · exact State.bump_keeps (Rg.CORE_ATTN_MASK_EMPTY_ROWS_in _) (by decide) k1 _
  · exact k1

/-- What a task of a forward part notes beside its outputs: streams to evict and page sums. -/
def State.forwardNotes (s : State) (c : AttnCtx) (ms : List StreamMark) (sums : List (Nat × Nat)) : State :=
  (s.addStreams c.k.id ms).modTask c.k.id fun k => { k with scores := k.scores ++ sums }

theorem State.forwardNotes_task {s : State} {n : Nat} {k : Task} (h : s.task? n = some k) (c : AttnCtx) (hc : c.k.id = n) (ms :
    List StreamMark) (sums : List (Nat × Nat)) :
    ∃ k', (s.forwardNotes c ms sums).task? n = some k' ∧ k'.status = k.status ∧ k'.sub = k.sub := by
  unfold State.forwardNotes State.addStreams
  rw [hc]
  refine ⟨_, State.task?_modTask (State.task?_modTask h ?_) ?_, rfl, rfl⟩ <;> intro _ <;> rfl

theorem State.attnForwardRun_eq {u s2 : State} {c : AttnCtx} {rows : List AttnRow} {keys : List (Nat × Stream)} {recBad : Bool} {f
    : Fetch}
    (hl : u.attnLoad c c.a.row0 c.a.row1 = (some (rows, keys, recBad, f), s2)) (hf : (u.attnOut c rows keys f).2.fail = false) :
    ∃ ms sums, u.attnForwardRun c false =
      (((State.forwardCounts (Store.attnOut ⟨false, 0, FmtEv.none, u.attnReady c (u.attnOut c rows keys f).2⟩ c recBad (u.attnOut
          c rows keys f).1) c
        (u.physCore c.lc) (u.attnOut c rows keys f).2.bytes (u.attnOut c rows keys f).1 keys).forwardNotes c ms sums).flagTask
            c.k.id
        (Store.attnOut ⟨false, 0, FmtEv.none, u.attnReady c (u.attnOut c rows keys f).2⟩ c recBad (u.attnOut c rows keys
            f).1).fail false
        (attnPoison c recBad (u.attnOut c rows keys f).1)).partDone c.k.id c.part := by
  unfold State.attnForwardRun
  rw [hl]
  unfold State.attnOut State.attnReady at *
  dsimp only at hf ⊢
  rw [if_neg (by rw [hf]; decide)]
  exact ⟨_, _, rfl⟩

theorem State.attnLoad_some {u s2 : State} {c : AttnCtx} {lo hi : Nat} {x : List AttnRow × List (Nat × Stream) × Bool × Fetch}
    (h : u.attnLoad c lo hi = (some x, s2)) : x.2.2.2.st = s2 := by
  unfold State.attnLoad at h
  dsimp only at h
  repeat' (split at h)
  all_goals cases h
  rfl

theorem State.attnReady_inv {u s2 : State} (i : u.Inv) {c : AttnCtx} {lo hi : Nat} {rows : List AttnRow} {keys : List (Nat ×
    Stream)} {recBad : Bool} {f : Fetch}
    (h : u.attnLoad c lo hi = (some (rows, keys, recBad, f), s2)) : (u.attnReady c (u.attnOut c rows keys f).2).Inv := by
  have k := State.attnLoad_keeps (M := 2305843009213693951) (by decide) (.refl u) c lo hi
  rw [h] at k
  have e := State.attnLoad_some h
  dsimp only at e k
  rw [← e] at k
  have k2 : u.Keeps 2305843009213693951 (u.attnOut c rows keys f).2.st := Fetch.attnGroups_keeps (by decide) k c keys _
  exact Keeps.inv (State.freeNext_keeps (by decide) (State.attnCells_keeps (by decide) k2 _)) i

theorem attnForward_spec (s : State) (i : s.Inv) (n j : Nat) (parity : Bool) (c : AttnCtx) (u : State) (h : s.AttnWorks n j 1 c u) :
    ∃ t, exec (.attnForward n ⟨j, parity⟩) s = .next t ∧
      ((s.walks.any fun w => w.task == n && w.part == j) = true → t = s) ∧
      ((s.walks.any fun w => w.task == n && w.part == j) = false → c.fmtOk = false →
        t.PartOver n j (statusMax c.k.status stFmtUns) c.k.sub ∧ t.mem = s.mem) ∧
      ((s.walks.any fun w => w.task == n && w.part == j) = false → parity = false → ∀ rows keys recBad f s2,
        u.attnLoad c c.a.row0 c.a.row1 = (some (rows, keys, recBad, f), s2) → (u.attnOut c rows keys f).2.fail = false →
        (u.attnReady c (u.attnOut c rows keys f).2).task? n = some c.k →
        (u.attnReady c (u.attnOut c rows keys f).2).Writable c.k.part (attnWrites c recBad (u.attnOut c rows keys f).1) →
        (u.attnReady c (u.attnOut c rows keys f).2).Stored t (attnWrites c recBad (u.attnOut c rows keys f).1) ∧
        t.PartOver n j (c.k.flagStatus false (attnPoison c recBad (u.attnOut c rows keys f).1))
          (c.k.flagSub false (attnPoison c recBad (u.attnOut c rows keys f).1))) := by
  refine ⟨_, rfl, ?_⟩
  obtain ⟨hk, h1, h2, ku⟩ := State.attnCtx_some h.ctx
  have e : s.attnForward n j parity = if (s.walks.any fun w => w.task == n && w.part == j) = true then s else u.attnForwardRun c
      parity := by
    unfold State.attnForward
    rw [h.ctx]
    dsimp only
    rw [if_pos h.op]
  rw [e]
  refine ⟨fun w => if_pos w, fun w hf => ?_, fun w hp rows keys recBad f s2 hl hf ht hw => ?_⟩
  · rw [if_neg (by rw [w]; decide)]
    unfold State.attnForwardRun
    rw [State.attnLoad_fmt hf]
    exact State.attnFmt_over h
  · rw [if_neg (by rw [w]; decide), hp]
    obtain ⟨ms, sums, er⟩ := State.attnForwardRun_eq hl hf
    rw [er, h1, h2]
    have iu := State.attnReady_inv (ku.inv i) hl
    generalize (u.attnOut c rows keys f) = all at hf ht hw iu ⊢
    generalize u.attnReady c all.2 = z at ht hw iu ⊢
    have wr := Store.attnOut_wrote (w := ⟨false, 0, FmtEv.none, z⟩) iu c recBad all.1 hw
    generalize Store.attnOut ⟨false, 0, FmtEv.none, z⟩ c recBad all.1 = v at wr ⊢
    have kc := State.forwardCounts_keeps v c (u.physCore c.lc) all.2.bytes all.1 keys
    generalize State.forwardCounts v c (u.physCore c.lc) all.2.bytes all.1 keys = y at kc ⊢
    have ky : y.task? n = some c.k := by
      rw [State.task?_same (kc.same .tasks (by decide)), State.task?_same (wr.keeps.same .tasks (by decide))]; exact ht
    obtain ⟨k', t1, t2, t3⟩ := State.forwardNotes_task ky c h1 ms sums
    have em : (y.forwardNotes c ms sums).mem = y.mem := rfl
    rw [wr.fail]
    have r := State.finish_shown t1 (by rw [t2]; exact h.status) false (attnPoison c recBad all.1) j
    refine ⟨fun x => ?_, ?_⟩
    · rw [r.1.same .mem (by decide), em, kc.same .mem (by decide), wr.mem x]
    · have e1 : k'.flagStatus false (attnPoison c recBad all.1) = c.k.flagStatus false (attnPoison c recBad all.1) := by unfold Task.flagStatus; rw [t2]
      have e2 : k'.flagSub false (attnPoison c recBad all.1) = c.k.flagSub false (attnPoison c recBad all.1) := by unfold Task.flagSub; rw [t3]
      rw [← e1, ← e2]
      exact r.2

/-! ### BACKWARD and VERIFY -/

/-- What a backward part counts when its drain has left `x`. -/
def State.backCounts (x : BackSt) (c : AttnCtx) (pc bytes : Nat) (gs : List (Nat × List AttnRow)) (br : List BackRow) (keys : List
    (Nat × Stream)) : State :=
  let s : State := { x.w.st with free := x.z }
  let s := ((s.dmaBytes pc bytes x.w.bytes).fmtEvents pc x.w.ev).bump (Rg.CORE_ATTN_EVENTS_GRAD_DROPPED pc) x.dropped
  gs.foldl (fun s g =>
    let e := g.2.head?.elim 0 AttnRow.entry
    let mine := br.filter fun r => r.g == g.2
    s.attnCounts c pc g (keysOf keys e) (hiddenOf keys e) (mine.map (·.q.p) ++ mine.map (·.dO.p))) s

theorem State.backCounts_keeps (x : BackSt) (c : AttnCtx) (pc bytes : Nat) (gs : List (Nat × List AttnRow)) (br : List BackRow)
    (keys : List (Nat × Stream)) :
    x.w.st.Keeps 72057594037927937 (State.backCounts x c pc bytes gs br keys) := by
  unfold State.backCounts
  dsimp only
  have k0 : x.w.st.Keeps 72057594037927937 { x.w.st with free := x.z } := (keeps_free (by decide) _).2 (.refl _)
  generalize ({ x.w.st with free := x.z } : State) = u at k0 ⊢
  have k1 : x.w.st.Keeps 72057594037927937 (((u.dmaBytes pc bytes x.w.bytes).fmtEvents pc x.w.ev).bump
      (Rg.CORE_ATTN_EVENTS_GRAD_DROPPED pc) x.dropped) :=
    State.bump_keeps (Rg.CORE_ATTN_EVENTS_GRAD_DROPPED_in _) (by decide) (State.fmtEvents_keeps (by decide) (State.dmaBytes_keeps
        (by decide) k0 _ _ _) _ _) _
  generalize ((u.dmaBytes pc bytes x.w.bytes).fmtEvents pc x.w.ev).bump (Rg.CORE_ATTN_EVENTS_GRAD_DROPPED pc) x.dropped = v at k1 ⊢
  exact keeps_foldl _ k1 (fun x g hx => State.attnCounts_keeps (by decide) hx _ _ _ _ _ _)

theorem State.attnBackwardRun_eq {u s2 : State} {c : AttnCtx} {rows : List AttnRow} {keys : List (Nat × Stream)} {recBad : Bool}
    {f : Fetch}
    (hl : u.attnLoad c 0 c.rows = (some (rows, keys, recBad, f), s2)) (hf : (u.backRows c rows f).2.2.fail = false) :
    u.attnBackwardRun c false =
      ((State.backCounts (u.backOut c rows keys recBad (u.backRows c rows f)) c (u.physCore c.lc) (u.backRows c rows f).2.2.bytes
        (tileGroups u.var.arrays c.g rows) (u.backRows c rows f).1 keys).flagTask c.k.id (u.backOut c rows keys recBad (u.backRows
            c rows f)).w.fail false
        (u.backOut c rows keys recBad (u.backRows c rows f)).bad).partDone c.k.id c.part := by
  unfold State.attnBackwardRun
  rw [hl]
  unfold State.backRows at *
  dsimp only at hf ⊢
  rw [if_neg (by rw [hf]; decide)]
  rfl

theorem attnBackward_spec (s : State) (n j : Nat) (parity : Bool) (c : AttnCtx) (u : State) (h : s.AttnWorks n j 2 c u) :
    ∃ t, exec (.attnBackward n ⟨j, parity⟩) s = .next t ∧
      ((s.walks.any fun w => w.task == n && w.part == j) = true → t = s) ∧
      ((s.walks.any fun w => w.task == n && w.part == j) = false → c.fmtOk = false →
        t.PartOver n j (statusMax c.k.status stFmtUns) c.k.sub ∧ t.mem = s.mem) ∧
      ((s.walks.any fun w => w.task == n && w.part == j) = false → parity = false → ∀ rows keys recBad f s2,
        u.attnLoad c 0 c.rows = (some (rows, keys, recBad, f), s2) → (u.backRows c rows f).2.2.fail = false →
        (u.backOut c rows keys recBad (u.backRows c rows f)).w.fail = false →
        (u.backOut c rows keys recBad (u.backRows c rows f)).w.st.task? n = some c.k →
        t.mem = (u.backOut c rows keys recBad (u.backRows c rows f)).w.st.mem ∧
        t.PartOver n j (c.k.flagStatus false (u.backOut c rows keys recBad (u.backRows c rows f)).bad)
          (c.k.flagSub false (u.backOut c rows keys recBad (u.backRows c rows f)).bad)) := by
  refine ⟨_, rfl, ?_⟩
  obtain ⟨hk, h1, h2, ku⟩ := State.attnCtx_some h.ctx
  have e : s.attnBackward n j parity = if (s.walks.any fun w => w.task == n && w.part == j) = true then s else u.attnBackwardRun c
      parity := by
    unfold State.attnBackward
    rw [h.ctx]
    dsimp only
    rw [if_pos h.op]
  rw [e]
  refine ⟨fun w => if_pos w, fun w hf => ?_, fun w hp rows keys recBad f s2 hl hf hx ht => ?_⟩
  · rw [if_neg (by rw [w]; decide)]
    unfold State.attnBackwardRun
    rw [State.attnLoad_fmt hf]
    exact State.attnFmt_over h
  · rw [if_neg (by rw [w]; decide), hp, State.attnBackwardRun_eq hl hf, h1, h2]
    generalize u.backRows c rows f = br at hf hx ht ⊢
    generalize u.backOut c rows keys recBad br = x at hx ht ⊢
    have kc := State.backCounts_keeps x c (u.physCore c.lc) br.2.2.bytes (tileGroups u.var.arrays c.g rows) br.1 keys
    generalize State.backCounts x c (u.physCore c.lc) br.2.2.bytes (tileGroups u.var.arrays c.g rows) br.1 keys = y at kc ⊢
    rw [hx]
    have r := State.finish_shown ((State.task?_same (kc.same .tasks (by decide)) n).trans ht) h.status false x.bad j
    exact ⟨(r.1.same .mem (by decide)).trans (kc.same .mem (by decide)), r.2⟩

/-- What a VERIFY counts. -/
def State.verifyCounts (r : VerSt) (pc : Nat) : State :=
  (((r.w.st.bump (Rg.CORE_ATTN_VERIFY_DRAFTED pc) r.drafted).bump (Rg.CORE_ATTN_VERIFY_ACCEPTED pc) r.accepted).dmaBytes pc
      r.bytes r.w.bytes).loseVec pc

theorem State.verifyCounts_keeps (r : VerSt) (pc : Nat) : r.w.st.Keeps 72057594046316544 (State.verifyCounts r pc) :=
  State.loseVec_keeps (by decide) (State.dmaBytes_keeps (by decide) (State.bump_keeps (Rg.CORE_ATTN_VERIFY_ACCEPTED_in _) (by
      decide)
    (State.bump_keeps (Rg.CORE_ATTN_VERIFY_DRAFTED_in _) (by decide) (.refl _) _) _) _ _ _) _

theorem attnVerify_spec (s : State) (n : Nat) (c : AttnCtx) (u : State) (h : s.AttnWorks n 0 3 c u) :
    ∃ t, exec (.attnVerify n) s = .next t ∧
      (c.logitsOk = false → t.PartOver n 0 (statusMax c.k.status stFmtUns) c.k.sub ∧ t.mem = s.mem) ∧
      (c.logitsOk = true → ((u.verifyRows c).1.any fun x => 4194304 ≤ x.pos) = true → t.PartOver n 0 (statusMax c.k.status
          stLength) c.k.sub ∧ t.mem = s.mem) ∧
      (c.logitsOk = true → ((u.verifyRows c).1.any fun x => 4194304 ≤ x.pos) = false → ∀ k',
        (State.verified c (u.verifyRows c).2.2 (fieldAt c.ext 24 2)).w.fail = false → (State.verified c (u.verifyRows c).2.2
            (fieldAt c.ext 24 2)).fail = false →
        (State.verified c (u.verifyRows c).2.2 (fieldAt c.ext 24 2)).w.st.task? n = some k' → k'.status < stUncorr →
        t.mem = (State.verified c (u.verifyRows c).2.2 (fieldAt c.ext 24 2)).w.st.mem ∧
        t.PartOver n 0 (k'.flagStatus false (State.verified c (u.verifyRows c).2.2 (fieldAt c.ext 24 2)).bad)
          (k'.flagSub false (State.verified c (u.verifyRows c).2.2 (fieldAt c.ext 24 2)).bad)) := by
  refine ⟨_, rfl, ?_⟩
  obtain ⟨hk, h1, h2, ku⟩ := State.attnCtx_some h.ctx
  have e : s.attnVerify n = u.attnVerifyRun c := by
    unfold State.attnVerify
    rw [h.ctx]
    dsimp only
    rw [if_pos h.op]
  rw [e]
  have er : u.attnVerifyRun c = if (!c.logitsOk) = true then (u.taskStatus c.k.id stFmtUns 0).partDone c.k.id c.part
      else if ((u.verifyRows c).1.any fun x => 4194304 ≤ x.pos) = true then ((u.verifyRows c).2.2.st.taskStatus c.k.id stLength
          0).partDone c.k.id c.part
      else ((State.verifyCounts (State.verified c (u.verifyRows c).2.2 (fieldAt c.ext 24 2)) (u.physCore c.lc)).flagTask c.k.id
        ((State.verified c (u.verifyRows c).2.2 (fieldAt c.ext 24 2)).w.fail || (State.verified c (u.verifyRows c).2.2 (fieldAt
            c.ext 24 2)).fail) false
        (State.verified c (u.verifyRows c).2.2 (fieldAt c.ext 24 2)).bad).partDone c.k.id c.part := rfl
  rw [er]
  refine ⟨fun w => ?_, fun w hp => ?_, fun w hp k' hw hf ht hs => ?_⟩
  · rw [if_pos (by rw [w]; decide)]
    exact State.attnFmt_over h
  · rw [if_neg (by rw [w]; decide), if_pos hp, h1, h2]
    have kr : u.Keeps 74450131340091392 (u.verifyRows c).2.2.st := by
      unfold State.verifyRows
      have k0 : u.Keeps 74450131340091392 (u.cycles (linkCycles (u.physCore c.lc) ++ [Rg.CORE_VEC_BUSY_BUSY (u.physCore c.lc)])) :=
        State.cycles_keeps (c := .core) (List.forall_mem_append.2 ⟨linkCycles_in _, List.forall_mem_singleton.2
            (Rg.CORE_VEC_BUSY_BUSY_in _)⟩) (by decide) (.refl _)
      generalize u.cycles (linkCycles (u.physCore c.lc) ++ [Rg.CORE_VEC_BUSY_BUSY (u.physCore c.lc)]) = v at k0 ⊢
      exact Fetch.rowRecs_keeps (by decide) k0 c 0 c.rows
    have kk := (ku.mono (by decide)).trans kr
    have r := State.endWith_shown ((State.task?_same (kk.same .tasks (by decide)) n).trans hk) h.status (st := stLength) (by
        decide) 0
    exact ⟨r.2, (r.1.same .mem (by decide)).trans (kk.same .mem (by decide))⟩
  · rw [if_neg (by rw [w]; decide), if_neg (by rw [hp]; decide), h1, h2]
    generalize State.verified c (u.verifyRows c).2.2 (fieldAt c.ext 24 2) = r at hw hf ht ⊢
    have kc := State.verifyCounts_keeps r (u.physCore c.lc)
    generalize State.verifyCounts r (u.physCore c.lc) = y at kc ⊢
    rw [hw, hf]
    have z := State.finish_shown ((State.task?_same (kc.same .tasks (by decide)) n).trans ht) hs false r.bad 0
    exact ⟨(z.1.same .mem (by decide)).trans (kc.same .mem (by decide)), z.2⟩

end Sys2Proof.Machine
end

