-- ==== Sys2Proof/Laws/EffCoach.lean ====
section
/-!
SUPPORT. What the commands of the Coach ports do (13_coach_ports.md R418 to R452).
-/
namespace Sys2Proof.Machine

/-! ### Ports and contexts -/

theorem State.port_modPort_self (s : State) (n : Nat) (f : CoachPort → CoachPort) : (s.modPort n f).port n = f (s.port n) := by
  unfold State.port State.modPort
  dsimp only
  rw [find_ins, if_pos rfl]
  rfl

theorem State.port_congr {s t : State} (h : t.coach = s.coach) (n : Nat) : t.port n = s.port n := by unfold State.port; rw [h]

theorem State.tx_congr {s t : State} (h : t.coach.tx = s.coach.tx) (n : Nat) : t.tx? n = s.tx? n := by unfold State.tx?; rw [h]

theorem State.tx_set_self (s : State) (i : Nat) (f : TxFlow) : (s.setTx i (some f)).tx? i = some f := find?_ins_self' _ _ _

theorem State.rx_set_self (s : State) (i : Nat) (f : RxFlow) : (s.setRx i (some f)).rx? i = some f := find?_ins_self' _ _ _

theorem State.tx_drop_self (s : State) (i : Nat) : (s.setTx i none).tx? i = none := find?_del_self _ _

theorem State.rx_drop_self (s : State) (i : Nat) : (s.setRx i none).rx? i = none := find?_del_self _ _

theorem State.modTx_self {s : State} {i : Nat} {x : TxFlow} (h : s.tx? i = some x) (f : TxFlow → TxFlow) : s.modTx i f = s.setTx i
    (some (f x)) := by
  unfold State.modTx; rw [h]

theorem State.modRx_self {s : State} {i : Nat} {x : RxFlow} (h : s.rx? i = some x) (f : RxFlow → RxFlow) : s.modRx i f = s.setRx i
    (some (f x)) := by
  unfold State.modRx; rw [h]

theorem State.setTx_inv {s : State} (i : s.Inv) (n : Nat) (f : Option TxFlow) : (s.setTx n f).Inv := by
  unfold State.setTx; split <;> exact i.of_eq rfl rfl rfl rfl rfl

theorem State.setRx_inv {s : State} (i : s.Inv) (n : Nat) (f : Option RxFlow) : (s.setRx n f).Inv := by
  unfold State.setRx; split <;> exact i.of_eq rfl rfl rfl rfl rfl

theorem State.setTx_fd (s : State) (n : Nat) (f : Option TxFlow) (g : RF) : (s.setTx n f).fd g = s.fd g := by
  unfold State.setTx; split <;> rfl

theorem State.setRx_fd (s : State) (n : Nat) (f : Option RxFlow) (g : RF) : (s.setRx n f).fd g = s.fd g := by
  unfold State.setRx; split <;> rfl

theorem State.queueCtrl_inv {s : State} (i : s.Inv) (n : Nat) (f : Frame) : (s.queueCtrl n f).Inv := State.modPort_inv i _ _

theorem State.queueCtrl_fd (s : State) (n : Nat) (f : Frame) (g : RF) : (s.queueCtrl n f).fd g = s.fd g := rfl

/-- A good frame changes nothing by itself (R422). -/
theorem State.frameIn_good {s u : State} {n : Nat} {w : WireFrame} {f : Frame} (h : s.frameIn n w = (some f, u)) : u = s := by
  unfold State.frameIn at h
  split at h
  · cases h
  · split at h
    · cases h
    · split at h
      · cases h
      · split at h
        · cases h
        · dsimp only at h
          split at h
          · cases h
          · cases h; rfl

theorem State.onFrame_good {s u : State} {n : Nat} {w : WireFrame} {f : Frame} (h : s.frameIn n w = (some f, u)) {is : Frame →
    Bool} (hi : is f = true)
    (act : State → Frame → State) : s.onFrame n w is act = act s f := by
  have e := State.frameIn_good h
  subst e
  unfold State.onFrame
  rw [h]
  dsimp only
  rw [if_pos hi]

/-! ### Frames received -/

theorem State.ackAdvance_modRx_mem (u : State) (k m : Nat) (g : RxFlow → RxFlow) : (State.ackAdvance k m (u.modRx k g)).mem =
    u.mem := by
  have k3 : u.Keeps 537919488 _ := State.ackAdvance_keeps (by decide) k m (State.modRx_keeps (by decide) (.refl _) k g)
  exact k3.same .mem (by decide)

theorem State.sendAck_modRx_mem (u : State) (k : Nat) (g : RxFlow → RxFlow) : ((u.modRx k g).sendAck k).mem = u.mem := by
  have k3 : u.Keeps 536870912 _ := State.sendAck_keeps (by decide) (State.modRx_keeps (by decide) (.refl _) k g) k
  exact k3.same .mem (by decide)

theorem State.modRx_mem (u : State) (k : Nat) (g : RxFlow → RxFlow) : (u.modRx k g).mem = u.mem := by
  have k3 : u.Keeps 536870912 _ := State.modRx_keeps (by decide) (.refl _) k g
  exact k3.same .mem (by decide)

theorem State.dataAccept_mem (s : State) (n k : Nat) (f : Frame) (x : RxFlow) (hr : s.rx? k = some x) (h5 : s.ownRange x.part
    f.addr f.payload.length = true) :
    (s.dataAccept n k f).mem = (s.devWrite x.part 2 f.addr f.payload).st.mem := by
  unfold State.dataAccept
  rw [hr]
  dsimp only
  rw [if_neg (by simp [h5])]
  have e1 : ((s.devWrite x.part 2 f.addr f.payload).st.rxCount n).mem = (s.devWrite x.part 2 f.addr f.payload).st.mem :=
      State.bump_mem ..
  generalize (s.devWrite x.part 2 f.addr f.payload).st.rxCount n = u at e1
  generalize hy : State.ackAdvance k 257 _ = y
  have e2 : y.mem = u.mem := by
    subst hy
    exact State.ackAdvance_modRx_mem u k 257 _
  clear hy
  have e := e2.trans e1
  split
  · exact e
  · split
    · exact (State.sendAck_modRx_mem y k _).trans e
    · exact (State.modRx_mem y k _).trans e

theorem dataFrameReceive_spec (s : State) (i : s.Inv) (n : Nat) (w : WireFrame) (f : Frame) (u : State) (h : s.frameIn n w = (some
    f, u)) (ht : f.type = 1) :
    ∃ t, exec (.dataFrameReceive n w) s = .next t ∧
      (s.coach.rx.find? (fun e => e.2.srcDev == f.src && e.2.spart == f.spart && e.2.flow == f.flow) = none →
        t.fd Rg.CCH_FLOWS_REFUSED = min (s.fd Rg.CCH_FLOWS_REFUSED + 1) 65535) ∧
      (∀ k x, s.coach.rx.find? (fun e => e.2.srcDev == f.src && e.2.spart == f.spart && e.2.flow == f.flow) = some (k, x) →
        x.part ≠ f.dpart ∨ s.jobId x.part ≠ f.job ∨ f.op ≠ 1 →
        t.fd (Rg.CCH_PORT_DROP_TAG_DROP n) = min (s.fd (Rg.CCH_PORT_DROP_TAG_DROP n) + 1) 65535) ∧
      (∀ k x, s.coach.rx.find? (fun e => e.2.srcDev == f.src && e.2.spart == f.spart && e.2.flow == f.flow) = some (k, x) →
        x.part = f.dpart → s.jobId x.part = f.job → f.op = 1 → s.rx? k = some x →
        min 256 ((x.credit + 2 ^ 32 - x.ack) % 2 ^ 32) ≤ (f.psn + 2 ^ 32 - x.ack) % 2 ^ 32 →
        (f.psn + 2 ^ 32 - x.ack) % 2 ^ 32 < 2 ^ 31 →
        t.fd (Rg.CCH_PORT_RETX_CREDIT_DROP n) = min (s.fd (Rg.CCH_PORT_RETX_CREDIT_DROP n) + 1) 65535) ∧
      (∀ k x, s.coach.rx.find? (fun e => e.2.srcDev == f.src && e.2.spart == f.spart && e.2.flow == f.flow) = some (k, x) →
        x.part = f.dpart → s.jobId x.part = f.job → f.op = 1 → s.rx? k = some x →
        (f.psn + 2 ^ 32 - x.ack) % 2 ^ 32 < min 256 ((x.credit + 2 ^ 32 - x.ack) % 2 ^ 32) →
        s.ownRange x.part f.addr f.payload.length = true → t.mem = (s.devWrite x.part 2 f.addr f.payload).st.mem) := by
  refine ⟨_, rfl, ?_⟩
  rw [State.onFrame_good h (by simp [ht])]
  unfold State.dataIn
  refine ⟨fun hn => ?_, fun k x hx hb => ?_, fun k x hx h1 h2 h3 hr h4 h5 => ?_, fun k x hx h1 h2 h3 hr h4 h5 => ?_⟩
  · rw [hn]
    exact (State.fd_bump_self (State.queueCtrl_inv i _ _) _ _ (Nat.le_of_ble_eq_true rfl)).trans (by rw [State.queueCtrl_fd]; rfl)
  · rw [hx]
    dsimp only
    rw [if_pos (by simpa [or_assoc] using hb)]
    have ki : s.Keeps 140737488371712 (s.isolation x.part x.part 7 (f.flow + f.src * 2 ^ 16 + f.spart * 2 ^ 32)) :=
        State.isolation_keeps (by decide) (.refl _) _ _ _ _
    generalize s.isolation x.part x.part 7 (f.flow + f.src * 2 ^ 16 + f.spart * 2 ^ 32) = v at ki
    unfold State.tagDrop
    rw [State.fd_bump_self (ki.inv i) _ _ (Nat.le_of_ble_eq_true rfl), ki.fd i (Rg.CCH_PORT_DROP_in n) (by decide) (by decide)]
    rfl
  · rw [hx]
    dsimp only
    rw [if_neg (by simp [← h1, h2, h3]), if_neg (Nat.not_lt.2 h4), if_neg (Nat.not_le.2 h5), State.modRx_self hr]
    exact (State.fd_bump_self (State.setRx_inv i _ _) _ _ (Nat.le_of_ble_eq_true rfl)).trans (by rw [State.setRx_fd]; rfl)
  · rw [hx]
    dsimp only
    rw [if_neg (by simp [← h1, h2, h3]), if_pos h4]
    exact State.dataAccept_mem s n k f x hr h5

theorem foldl_resend_tx {l : List TxFrame} (k j : Nat) {s : State} : (l.foldl (fun s u => s.resend k u) s).tx? j = s.tx? j := by
  refine foldl_keep (P := fun x : State => x.tx? j = s.tx? j) l ?_ rfl
  intro x b hx
  refine Eq.trans ?_ hx
  unfold State.resend
  split
  · rfl
  · dsimp only
    unfold State.tx?
    rw [State.bump_coach]
    rfl

theorem foldl_modTask_tx {l : List (Nat × Nat)} (g : Task → Task) (j : Nat) {s : State} :
    (l.foldl (fun s t => s.modTask t.1 g) s).tx? j = s.tx? j :=
  foldl_keep (P := fun x : State => x.tx? j = s.tx? j) (f := fun s (t : Nat × Nat) => s.modTask t.1 g) l (fun _ _ hx => hx) rfl

theorem State.pumpFlow_tx {s : State} {k : Nat} {x : TxFlow} (h : s.tx? k = some x) :
    ∃ g, (s.pumpFlow k).tx? k = some g ∧ g.credit = x.credit ∧ g.opened = x.opened ∧ g.unacked.map (·.frame) = x.unacked.map
        (·.frame) := by
  unfold State.pumpFlow
  rw [h]
  dsimp only
  split
  · exact ⟨x, h, rfl, rfl, rfl⟩
  · have e : ∀ (l : List TxFrame), (l.foldl (fun s u => s.queueData x.port k u.frame) s).tx? k = some x := fun l =>
      foldl_keep (P := fun y : State => y.tx? k = some x) (f := fun s (u : TxFrame) => s.queueData x.port k u.frame) l (fun _ _ hy
          => hy) h
    rw [State.modTx_self (e _), State.tx_set_self]
    refine ⟨_, rfl, rfl, rfl, ?_⟩
    dsimp only
    rw [List.map_map]
    refine List.map_congr_left fun u _ => ?_
    show (if _ then _ else _ : TxFrame).frame = _
    split <;> rfl

theorem ackReceive_spec (s : State) (n : Nat) (w : WireFrame) (f : Frame) (u : State) (h : s.frameIn n w = (some f, u)) (ht :
    f.type = 2)
    (k : Nat) (x : TxFlow) (hx : s.txNamed f = some (k, x)) (ack lim : Nat) (ha : fieldAt f.payload 0 4 = ack) (hl : fieldAt
        f.payload 4 4 = lim) :
    ∃ t, exec (.ackReceive n w) s = .next t ∧
      (psnIn x.base ((x.nextPsn + 1) % 2 ^ 32) ack = false → t = s) ∧
      (psnIn x.base ((x.nextPsn + 1) % 2 ^ 32) ack = true → x.exp = none → ∃ g, t.tx? k = some g ∧
        g.credit = (if psnIn x.credit ((x.credit + 2 ^ 31) % 2 ^ 32) lim then lim else x.credit) ∧
        g.unacked.map (·.frame) = (x.unacked.map (·.frame)).filter fun r => !psnIn x.base ack r.psn) := by
  refine ⟨_, rfl, ?_⟩
  rw [State.onFrame_good h (by simp [ht]), hx]
  subst ha hl
  show (_ → s.ackIn n k x f.payload = s) ∧ (_ → _ → ∃ g, (s.ackIn n k x f.payload).tx? k = some g ∧ _)
  unfold State.ackIn
  dsimp only
  constructor
  · intro hp; rw [if_pos (by rw [hp]; rfl)]
  · intro hp he
    rw [if_neg (by rw [hp]; decide), he]
    dsimp only
    generalize hfast : fastMissing _ _ _ = fast
    have fin (v : State) (y : TxFlow) (g : Task → Task) (c : Nat) (l : List Frame) (d : List (Nat × Nat)) (hc : y.credit = c) (hl
        : y.unacked.map (·.frame) = l) :
        ∃ z, ((d.foldl (fun s t => s.modTask t.1 g) (fast.foldl (fun s u => s.resend k u) (v.setTx k (some y)))).pumpFlow k).tx? k
            = some z ∧
          z.credit = c ∧ z.unacked.map (·.frame) = l := by
      obtain ⟨z, h1, h2, _, h3⟩ := State.pumpFlow_tx (s := (d.foldl (fun s t => s.modTask t.1 g) (fast.foldl (fun s u => s.resend
          k u) (v.setTx k (some y))))) (k := k) (x := y)
        (by rw [foldl_modTask_tx, foldl_resend_tx, State.tx_set_self])
      exact ⟨z, h1, h2.trans hc, h3.trans hl⟩
    refine fin (s.rxCount n) _ _ _ _ _ rfl ?_
    dsimp only
    rw [List.map_map, List.filter_map]
    refine List.map_congr_left fun u _ => ?_
    show (if _ then _ else _ : TxFrame).frame = _
    split <;> rfl

theorem helloRequestReceive_spec (s : State) (i : s.Inv) (n : Nat) (w : WireFrame) (f : Frame) (u : State) (h : s.frameIn n w =
    (some f, u)) (ht : f.type = 4)
    (hq : fieldAt f.payload 1 1 = 0) :
    ∃ t, exec (.helloRequestReceive n w) s = .next t ∧
      (fieldAt f.payload 0 1 = 1 ∨ s.helloReason f = 1 ∨ s.helloReason f = 2 → t.fd Rg.CCH_FLOWS_REFUSED = min (s.fd
          Rg.CCH_FLOWS_REFUSED + 1) 65535) ∧
      (fieldAt f.payload 0 1 ≠ 1 → s.helloReason f = 3 ∨ s.helloReason f = 4 → f.dpart < 12 → s.defined f.dpart = true → s.pstate
          f.dpart < 2 →
        FaultShown s t f.dpart stAborted) ∧
      (∀ k x, fieldAt f.payload 0 1 ≠ 1 → s.helloReason f = 0 →
        s.coach.rx.find? (fun e => e.2.srcDev == f.src && e.2.spart == f.spart && e.2.flow == f.flow) = some (k, x) →
        t.rx? k = some ⟨f.src, f.spart, f.flow, f.dpart, f.job, n, 0, s.flowCredit, s.flowCredit, [], 0, none, 0, s.now⟩) := by
  refine ⟨_, rfl, ?_⟩
  rw [State.onFrame_good h (by simp [ht, hq])]
  have ref (r : Nat) (hr : r ≠ 3 ∧ r ≠ 4) : (s.helloRefuse n f r).fd Rg.CCH_FLOWS_REFUSED = min (s.fd Rg.CCH_FLOWS_REFUSED + 1)
      65535 := by
    unfold State.helloRefuse
    dsimp only
    rw [if_neg (by simp [hr])]
    have iq := State.queueCtrl_inv i n (s.helloReply f f.dpart (fieldAt f.payload 0 1) 2 r 0)
    have e := State.fd_bump_self iq Rg.CCH_FLOWS_REFUSED 1 (Nat.le_of_ble_eq_true rfl)
    rw [State.queueCtrl_fd] at e
    split
    · unfold State.tagDrop
      exact (State.fd_bump_apart (State.bump_inv iq _ _) _ _ _
          (.inl (by simp only [Rg.CCH_FLOWS_REFUSED, Rg.CCH_FLOWS, Rg.CCH_PORT_DROP_TAG_DROP, Rg.CCH_PORT_DROP]; omega))).trans e
    · exact e
  refine ⟨fun hh => ?_, fun h1 hh hp hd h2 => ?_, fun k x h1 h0 hx => ?_⟩
  · by_cases h1 : fieldAt f.payload 0 1 = 1
    · rw [if_pos h1]
      exact ref 5 (by decide)
    · rw [if_neg h1]
      have g := hh.resolve_left h1
      split
      · omega
      · exact ref _ (by omega)
  · rw [if_neg h1]
    have fault (r : Nat) (hr : r = 3 ∨ r = 4) : FaultShown s (s.helloRefuse n f r) f.dpart stAborted := by
      unfold State.helloRefuse
      dsimp only
      rw [if_pos (by simpa using hr), if_neg (by omega)]
      have iq := State.queueCtrl_inv i n (s.helloReply f f.dpart (fieldAt f.payload 0 1) 2 r 0)
      have fq (g : RF) : (s.queueCtrl n (s.helloReply f f.dpart (fieldAt f.payload 0 1) 2 r 0)).fd g = s.fd g := rfl
      have pq : (s.queueCtrl n (s.helloReply f f.dpart (fieldAt f.payload 0 1) 2 r 0)).parts = s.parts := rfl
      generalize s.queueCtrl n (s.helloReply f f.dpart (fieldAt f.payload 0 1) 2 r 0) = v at iq fq pq
      have iv := State.bump_inv iq Rg.CCH_FLOWS_REFUSED 1
      have ff (g : RF) (hg : g.addr ≠ Rg.CCH_FLOWS) : (v.bump Rg.CCH_FLOWS_REFUSED).fd g = s.fd g := (State.fd_bump_apart iq _ _ _
          (.inl hg)).trans (fq g)
      have pv : (v.bump Rg.CCH_FLOWS_REFUSED).parts = s.parts := (State.bump_parts ..).trans pq
      generalize v.bump Rg.CCH_FLOWS_REFUSED = y at iv ff pv
      have e1 : (Rg.FLT_PART_STATE f.dpart).addr ≠ Rg.CCH_FLOWS := by simp only [Rg.FLT_PART_STATE, Rg.FLT_PART, Rg.CCH_FLOWS]; omega
      have e2 : (Rg.FLT_PART_FAULT_ID f.dpart).addr ≠ Rg.CCH_FLOWS := by simp only [Rg.FLT_PART_FAULT_ID, Rg.FLT_PART, Rg.CCH_FLOWS]; omega
      have sh := State.jobFaultWith_shown iv hp (by unfold State.defined; rw [State.part_congr pv]; exact hd) (by unfold State.pstate; rw [ff _ e1]; exact h2) 1 stAborted 0 none
      exact ⟨sh.1, sh.2, sh.3.trans (by rw [ff _ e2]), sh.4⟩
    split
    · omega
    · exact fault _ hh
  · rw [if_neg h1]
    split
    case h_2 hz => exact absurd h0 hz
    unfold State.helloAccept
    dsimp only
    rw [hx]
    unfold State.rxCount State.rx?
    rw [State.bump_coach]
    exact State.rx_set_self s k _

theorem helloReplyReceive_spec (s : State) (i : s.Inv) (n : Nat) (w : WireFrame) (f : Frame) (u : State) (h : s.frameIn n w =
    (some f, u)) (ht : f.type = 4)
    (hq : fieldAt f.payload 1 1 ≠ 0) (k : Nat) (x : TxFlow) (hx : s.txNamed f = some (k, x)) :
    ∃ t, exec (.helloReplyReceive n w) s = .next t ∧
      (fieldAt f.payload 1 1 = 1 → x.opened = true → t = s) ∧
      (fieldAt f.payload 1 1 = 1 → x.opened = false → x.exp = none →
        ∃ g, t.tx? k = some g ∧ g.opened = true ∧ g.credit = fieldAt f.payload 12 4) ∧
      (fieldAt f.payload 1 1 ≠ 1 → x.opened = false → inRange (fieldAt f.payload 2 1) 2 4 = true → x.part < 12 → s.defined x.part
          = true →
        s.pstate x.part < 2 → t.tx? k = none ∧ FaultShown s t x.part stAborted) := by
  refine ⟨_, rfl, ?_⟩
  rw [State.onFrame_good h (by simp [ht, hq]), hx]
  show (_ → _ → s.helloIn n k x f.payload = s) ∧ (_ → _ → _ → ∃ g, (s.helloIn n k x f.payload).tx? k = some g ∧ _) ∧
    (_ → _ → _ → _ → _ → _ → (s.helloIn n k x f.payload).tx? k = none ∧ FaultShown s (s.helloIn n k x f.payload) x.part stAborted)
  unfold State.helloIn
  refine ⟨fun h1 ho => ?_, fun h1 ho he => ?_, fun h1 ho hr hp hd h2 => ?_⟩
  · rw [if_pos h1, if_pos ho]
  · rw [if_pos h1, if_neg (by simp [ho]), he]
    dsimp only
    have e (y : TxFlow) : ((s.setTx k (some y)).rxCount n).tx? k = some y := by
      unfold State.rxCount State.tx?
      rw [State.bump_coach]
      exact State.tx_set_self s k y
    obtain ⟨g, g1, g2, g3, _⟩ := State.pumpFlow_tx (e { x with opened := true, credit := fieldAt f.payload 12 4, lastAt := s.now, exp := none })
    exact ⟨g, g1, g3, g2⟩
  · rw [if_neg h1]
    dsimp only
    rw [if_neg (by simp [ho]), if_pos hr]
    have i1 : (s.rxCount n).Inv := State.bump_inv i _ _
    have f1 (g : RF) (hg : g.addr ≠ Rg.CCH_PORT_FRAMES n) : (s.rxCount n).fd g = s.fd g := State.fd_bump_apart i _ _ _ (.inl hg)
    have p1 : (s.rxCount n).parts = s.parts := State.bump_parts ..
    generalize s.rxCount n = v at i1 f1 p1
    have i2 := State.bump_inv i1 Rg.CCH_FLOWS_REFUSED 1
    have f2 (g : RF) (hg : g.addr ≠ Rg.CCH_FLOWS) : (v.bump Rg.CCH_FLOWS_REFUSED).fd g = v.fd g := State.fd_bump_apart i1 _ _ _
        (.inl hg)
    have p2 : (v.bump Rg.CCH_FLOWS_REFUSED).parts = s.parts := (State.bump_parts ..).trans p1
    generalize v.bump Rg.CCH_FLOWS_REFUSED = y at i2 f2 p2
    have a1 : (Rg.FLT_PART_STATE x.part).addr ≠ Rg.CCH_FLOWS := by simp only [Rg.FLT_PART_STATE, Rg.FLT_PART, Rg.CCH_FLOWS]; omega
    have a2 : (Rg.FLT_PART_FAULT_ID x.part).addr ≠ Rg.CCH_FLOWS := by simp only [Rg.FLT_PART_FAULT_ID, Rg.FLT_PART, Rg.CCH_FLOWS]; omega
    have a3 : (Rg.FLT_PART_STATE x.part).addr ≠ Rg.CCH_PORT_FRAMES n := by simp only [Rg.FLT_PART_STATE, Rg.FLT_PART, Rg.CCH_PORT_FRAMES]; omega
    have a4 : (Rg.FLT_PART_FAULT_ID x.part).addr ≠ Rg.CCH_PORT_FRAMES n := by simp only [Rg.FLT_PART_FAULT_ID, Rg.FLT_PART, Rg.CCH_PORT_FRAMES]; omega
    have sh := State.jobFaultWith_shown i2 hp (by unfold State.defined; rw [State.part_congr p2]; exact hd) (by unfold State.pstate; rw [f2 _ a1, f1 _ a3]; exact h2) 1 stAborted 0 none
    have d (z : State) : (z.dropTx k).tx? k = none ∧ ∀ g, (z.dropTx k).fd g = z.fd g := ⟨State.tx_drop_self _ _, fun _ => rfl⟩
    show ((State.jobFaultWith y x.part 1 stAborted 0 none).dropTx k).tx? k = none ∧ FaultShown s ((State.jobFaultWith y x.part 1
        stAborted 0 none).dropTx k) x.part stAborted
    generalize State.jobFaultWith y x.part 1 stAborted 0 none = z at sh
    exact ⟨(d z).1, ⟨((d z).2 _).trans sh.1, ((d z).2 _).trans sh.2, ((d z).2 _).trans (sh.3.trans (by rw [f2 _ a2, f1 _ a4])),
        ((d z).2 _).trans sh.4⟩⟩

theorem abortReceive_spec (s : State) (i : s.Inv) (n : Nat) (w : WireFrame) (f : Frame) (u : State) (h : s.frameIn n w = (some f,
    u)) (ht : f.type = 3)
    (p : Nat) (hp : f.dpart = p) (key : Nat × Nat × Nat × Nat)
    (hk : key = (p, fieldAt f.payload 0 2, fieldAt f.payload 2 1, fieldAt f.payload 4 4)) :
    ∃ t, exec (.abortReceive n w) s = .next t ∧
      (s.defined p = false ∨ s.jobId p ≠ f.job ∨ s.jobId p = 0 ∨ (f.src, f.spart) ∉ s.groupOf p ∧ (f.src, f.spart) ∉ s.jobPeers p →
        t.fd (Rg.CCH_PORT_DROP_TAG_DROP n) = min (s.fd (Rg.CCH_PORT_DROP_TAG_DROP n) + 1) 65535) ∧
      (s.defined p = true → s.jobId p = f.job → s.jobId p ≠ 0 → (f.src, f.spart) ∈ s.groupOf p ∨ (f.src, f.spart) ∈ s.jobPeers p →
        (key ∈ s.coach.seen → t.fd Rg.CCH_ABORT_DUPLICATE = min (s.fd Rg.CCH_ABORT_DUPLICATE + 1) 65535) ∧
        (key ∉ s.coach.seen → p < 12 → s.pstate p < 2 → FaultShown s t p stAborted)) := by
  refine ⟨_, rfl, ?_⟩
  rw [State.onFrame_good h (by simp [ht])]
  subst hp
  unfold State.abortIn
  dsimp only
  rw [← hk]
  constructor
  · intro g
    rw [if_pos (by simpa [or_assoc] using g)]
    exact State.fd_bump_self i _ _ (Nat.le_of_ble_eq_true rfl)
  · intro g1 g2 g3 g4
    have g5 : f.job ≠ 0 := g2 ▸ g3
    rw [if_neg (by simp [g1, g2, g5]; exact fun a => g4.resolve_left a)]
    have i1 : (s.rxCount n).Inv := State.bump_inv i _ _
    have f1 (g : RF) (hg : g.addr ≠ Rg.CCH_PORT_FRAMES n) : (s.rxCount n).fd g = s.fd g := State.fd_bump_apart i _ _ _ (.inl hg)
    have p1 : (s.rxCount n).parts = s.parts := State.bump_parts ..
    have c1 : (s.rxCount n).coach = s.coach := State.bump_coach ..
    generalize s.rxCount n = v at i1 f1 p1 c1
    rw [c1]
    constructor
    · intro m
      rw [if_pos (by simpa using m)]
      refine (State.fd_bump_self i1 _ _ (Nat.le_of_ble_eq_true rfl)).trans ?_
      rw [f1 _ (by simp only [Rg.CCH_ABORT_DUPLICATE, Rg.CCH_ABORT, Rg.CCH_PORT_FRAMES]; omega)]
      rfl
    · intro m hp h2
      rw [if_neg (by simpa using m)]
      have i2 : (v.noteSeen f.dpart (fieldAt f.payload 0 2) (fieldAt f.payload 2 1) (fieldAt f.payload 4 4)).Inv := i1.of_eq rfl
          rfl rfl rfl rfl
      have f2 (g : RF) : (v.noteSeen f.dpart (fieldAt f.payload 0 2) (fieldAt f.payload 2 1) (fieldAt f.payload 4 4)).fd g = v.fd
          g := rfl
      have p2 : (v.noteSeen f.dpart (fieldAt f.payload 0 2) (fieldAt f.payload 2 1) (fieldAt f.payload 4 4)).parts = s.parts := p1
      generalize v.noteSeen f.dpart (fieldAt f.payload 0 2) (fieldAt f.payload 2 1) (fieldAt f.payload 4 4) = y at i2 f2 p2
      have i3 := State.bump_inv i2 Rg.CCH_ABORT_ACCEPTED 1
      have f3 (g : RF) (hg : g.addr ≠ Rg.CCH_ABORT) : (y.bump Rg.CCH_ABORT_ACCEPTED).fd g = v.fd g := (State.fd_bump_apart i2 _ _
          _ (.inl hg)).trans (f2 g)
      have p3 : (y.bump Rg.CCH_ABORT_ACCEPTED).parts = s.parts := (State.bump_parts ..).trans p2
      generalize y.bump Rg.CCH_ABORT_ACCEPTED = z at i3 f3 p3
      have a1 : (Rg.FLT_PART_STATE f.dpart).addr ≠ Rg.CCH_ABORT := by simp only [Rg.FLT_PART_STATE, Rg.FLT_PART, Rg.CCH_ABORT]; omega
      have a2 : (Rg.FLT_PART_FAULT_ID f.dpart).addr ≠ Rg.CCH_ABORT := by simp only [Rg.FLT_PART_FAULT_ID, Rg.FLT_PART, Rg.CCH_ABORT]; omega
      have a3 : (Rg.FLT_PART_STATE f.dpart).addr ≠ Rg.CCH_PORT_FRAMES n := by simp only [Rg.FLT_PART_STATE, Rg.FLT_PART, Rg.CCH_PORT_FRAMES]; omega
      have a4 : (Rg.FLT_PART_FAULT_ID f.dpart).addr ≠ Rg.CCH_PORT_FRAMES n := by simp only [Rg.FLT_PART_FAULT_ID, Rg.FLT_PART, Rg.CCH_PORT_FRAMES]; omega
      have sh := State.jobFaultWith_shown i3 hp (by unfold State.defined; rw [State.part_congr p3]; exact g1) (by unfold State.pstate; rw [f3 _ a1, f1 _ a3]; exact h2) 1 stAborted 0 (some f.payload)
      exact ⟨sh.1, sh.2, sh.3.trans (by rw [f3 _ a2, f1 _ a4]), sh.4⟩

/-! ### Transmission -/

theorem State.wireOut_port (s : State) (n : Nat) (g : CoachPort → CoachPort) (f : Frame) :
    ((s.modPort n g).wireOut n f).port n = { g (s.port n) with wire := (g (s.port n)).wire ++ [s.wireBytes n f] } := by
  unfold State.wireOut
  dsimp only
  rw [State.port_congr (State.bump_coach ..), State.port_modPort_self, State.port_modPort_self]
  rfl

theorem State.wireOut_inv {s : State} (i : s.Inv) (n : Nat) (f : Frame) : (s.wireOut n f).Inv := State.bump_inv (State.modPort_inv
    i _ _) _ _

theorem State.drrPick_wire (s : State) (port : Nat) (n : Nat) (q : CoachPort) {x : Nat × Frame} {r : CoachPort} (h : s.drrPick
    port n q = some (x, r)) :
    r.wire = q.wire := by
  induction n generalizing q with
  | zero => cases h
  | succ n ih =>
    unfold State.drrPick at h
    split at h
    · exact (ih _ h).trans rfl
    · dsimp only at h
      split at h
      · cases h; rfl
      · exact (ih _ h).trans rfl

theorem frameTransmit_spec (s : State) (i : s.Inv) (n : Nat) (hu : s.portUp n = true) (f : Frame) (r : List Frame) :
    ∃ t, exec (.frameTransmit n) s = .next t ∧
      ((s.port n).aborts = f :: r → (t.port n).wire = (s.port n).wire ++ [s.wireBytes n f] ∧ (t.port n).aborts = r ∧
        t.fd Rg.CCH_ABORT_SENT = min (s.fd Rg.CCH_ABORT_SENT + 1) 65535) ∧
      ((s.port n).aborts = [] → (s.port n).ctrl = f :: r → (t.port n).wire = (s.port n).wire ++ [s.wireBytes n f] ∧ (t.port
          n).ctrl = r ∧
        t.fd (Rg.CCH_PORT_FRAMES_TX n) = min (s.fd (Rg.CCH_PORT_FRAMES_TX n) + 1) 4294967295) ∧
      ((s.port n).aborts = [] → (s.port n).ctrl = [] → ∀ k q, s.drrPick n 1024 (s.port n) = some ((k, f), q) →
        (t.port n).wire = (s.port n).wire ++ [s.wireBytes n f] ∧ (t.port n).data = takeFrame k f q.data) := by
  refine ⟨_, rfl, ?_⟩
  unfold State.transmit
  rw [if_neg (by simp [hu])]
  dsimp only
  refine ⟨fun h => ?_, fun h1 h => ?_, fun h1 h2 k q h => ?_⟩
  · rw [h]
    dsimp only
    refine ⟨?_, ?_, ?_⟩
    · rw [State.port_congr (State.bump_coach ..), State.wireOut_port]
    · rw [State.port_congr (State.bump_coach ..), State.wireOut_port]
    · rw [State.fd_bump_self (State.wireOut_inv (State.modPort_inv i _ _) _ _) _ _ (Nat.le_of_ble_eq_true rfl)]
      unfold State.wireOut
      dsimp only
      rw [State.fd_bump_apart (State.modPort_inv (State.modPort_inv i _ _) _ _) _ _ _
          (.inl (by simp only [Rg.CCH_ABORT_SENT, Rg.CCH_ABORT, Rg.CCH_PORT_FRAMES_TX, Rg.CCH_PORT_FRAMES]; omega))]
      rfl
  · rw [h1, h]
    dsimp only
    refine ⟨?_, ?_, ?_⟩
    · rw [State.wireOut_port]
    · rw [State.wireOut_port]
    · unfold State.wireOut
      dsimp only
      rw [State.fd_bump_self (State.modPort_inv (State.modPort_inv i _ _) _ _) _ _ (Nat.le_of_ble_eq_true rfl)]
      rfl
  · rw [h1, h2, h]
    dsimp only
    refine ⟨?_, ?_⟩
    · rw [State.wireOut_port]
      dsimp only
      rw [State.drrPick_wire _ _ _ _ h]
    · rw [State.wireOut_port]

/-! ### Timers -/

theorem State.resend_tx (s : State) (k : Nat) (u : TxFrame) (j : Nat) : (s.resend k u).tx? j = s.tx? j := by
  unfold State.resend
  split
  · rfl
  · dsimp only
    unfold State.tx?
    rw [State.bump_coach]
    rfl

theorem State.queueData_inv {s : State} (i : s.Inv) (n k : Nat) (f : Frame) : (s.queueData n k f).Inv := State.modPort_inv i _ _

theorem rtoExpiry_spec (s : State) (i : s.Inv) (k psn : Nat) (x : TxFlow) (hx : s.tx? k = some x) (u : TxFrame)
    (hu : x.unacked.find? (fun u => u.frame.psn == psn && u.sent) = some u) (ht : u.tries + 1 < s.retryMax) :
    ∃ t, exec (.rtoExpiry k psn) s = .next t ∧
      t.fd (Rg.CCH_PORT_RETX_RTO x.port) = min (s.fd (Rg.CCH_PORT_RETX_RTO x.port) + 1) 65535 ∧
      t.fd (Rg.CCH_PORT_RETX_RETX x.port) = min (s.fd (Rg.CCH_PORT_RETX_RETX x.port) + 1) 4294967295 ∧
      (∃ g, t.tx? k = some g ∧ g.unacked.map (·.rtoUs) = x.unacked.map fun v => if v.frame.psn = psn then 2 * v.rtoUs else
          v.rtoUs) ∧
      (t.port x.port).data = (s.port x.port).data ++ [(k, { u.frame with flags := u.frame.flags ||| 8 })] := by
  refine ⟨_, rfl, ?_⟩
  unfold State.rtoFire
  rw [hx]
  dsimp only
  rw [hu]
  dsimp only
  have i1 : (s.passTo (u.sentAt + u.rtoUs * 1000)).Inv := State.passTo_inv i _
  have i2 := State.bump_inv i1 (Rg.CCH_PORT_RETX_RTO x.port) 1
  have f2 : ((s.passTo (u.sentAt + u.rtoUs * 1000)).bump (Rg.CCH_PORT_RETX_RTO x.port)).fd (Rg.CCH_PORT_RETX_RTO x.port) =
      min (s.fd (Rg.CCH_PORT_RETX_RTO x.port) + 1) 65535 := (State.fd_bump_self i1 _ _ (Nat.le_of_ble_eq_true rfl)).trans rfl
  have f3 : ((s.passTo (u.sentAt + u.rtoUs * 1000)).bump (Rg.CCH_PORT_RETX_RTO x.port)).fd (Rg.CCH_PORT_RETX_RETX x.port) =
      s.fd (Rg.CCH_PORT_RETX_RETX x.port) := (State.fd_bump_apart i1 _ _ _ (RF.apart_bits rfl)).trans rfl
  have f4 : ((s.passTo (u.sentAt + u.rtoUs * 1000)).bump (Rg.CCH_PORT_RETX_RTO x.port)).retryMax = s.retryMax :=
    (State.fd_bump_apart i1 _ _ _
        (.inl (by simp only [Rg.CCH_XPORT_CFG_RETRY_MAX, Rg.CCH_XPORT_CFG, Rg.CCH_PORT_RETX_RTO, Rg.CCH_PORT_RETX]; omega))).trans
        rfl
  have c2 : ((s.passTo (u.sentAt + u.rtoUs * 1000)).bump (Rg.CCH_PORT_RETX_RTO x.port)).coach = s.coach := State.bump_coach ..
  generalize (s.passTo (u.sentAt + u.rtoUs * 1000)).bump (Rg.CCH_PORT_RETX_RTO x.port) = v at i2 f2 f3 f4 c2
  rw [if_neg (by omega)]
  have hv : v.tx? k = some x := (State.tx_congr (by rw [c2]) k).trans hx
  rw [State.modTx_self hv]
  have key (y : TxFlow) (hp : y.port = x.port) :
      ((v.setTx k (some y)).resend k u).fd (Rg.CCH_PORT_RETX_RTO x.port) = v.fd (Rg.CCH_PORT_RETX_RTO x.port) ∧
      ((v.setTx k (some y)).resend k u).fd (Rg.CCH_PORT_RETX_RETX x.port) = min (v.fd (Rg.CCH_PORT_RETX_RETX x.port) + 1)
          4294967295 ∧
      ((v.setTx k (some y)).resend k u).tx? k = some y ∧
      (((v.setTx k (some y)).resend k u).port x.port).data = (v.port x.port).data ++ [(k, { u.frame with flags := u.frame.flags ||| 8 })] := by
    refine ⟨?_, ?_, ?_, ?_⟩
    · unfold State.resend
      rw [State.tx_set_self]
      dsimp only
      rw [hp, State.fd_bump_apart (State.queueData_inv (State.setTx_inv i2 _ _) _ _ _) _ _ _ (RF.apart_bits rfl)]
      rfl
    · unfold State.resend
      rw [State.tx_set_self]
      dsimp only
      rw [hp, State.fd_bump_self (State.queueData_inv (State.setTx_inv i2 _ _) _ _ _) _ _ (Nat.le_of_ble_eq_true rfl)]
      rfl
    · rw [State.resend_tx, State.tx_set_self]
    · unfold State.resend
      rw [State.tx_set_self]
      dsimp only
      rw [hp, State.port_congr (State.bump_coach ..)]
      unfold State.queueData
      rw [State.port_modPort_self]
      rfl
  have pv : v.port x.port = s.port x.port := State.port_congr c2 _
  have fin (y : TxFlow) (hp : y.port = x.port) (hm : y.unacked.map (·.rtoUs) = x.unacked.map fun v => if v.frame.psn = psn then 2
      * v.rtoUs else v.rtoUs) :=
    (show _ ∧ _ ∧ (∃ g, ((v.setTx k (some y)).resend k u).tx? k = some g ∧ g.unacked.map (·.rtoUs) = x.unacked.map fun v => if
        v.frame.psn = psn then 2 * v.rtoUs else v.rtoUs) ∧ _ from
      ⟨(key y hp).1.trans f2, (key y hp).2.1.trans (by rw [f3]), ⟨y, (key y hp).2.2.1, hm⟩, (key y hp).2.2.2.trans (by rw [pv])⟩)
  refine fin _ rfl ?_
  dsimp only
  rw [List.map_map]
  refine List.map_congr_left fun a _ => ?_
  show (if _ then _ else _ : TxFrame).rtoUs = _
  split <;> rfl

theorem helloResendExpiry_spec (s : State) (k : Nat) (x : TxFlow) (hx : s.tx? k = some x) (ho : x.opened = false) (hh : x.hellos <
    s.retryMax) :
    ∃ t, exec (.helloResendExpiry k) s = .next t ∧
      (∃ g, t.tx? k = some g ∧ g.hellos = x.hellos + 1) ∧ (t.port x.port).ctrl = (s.port x.port).ctrl ++ [s.helloFrame x] := by
  refine ⟨_, rfl, ?_⟩
  unfold State.helloFire
  rw [hx]
  dsimp only
  rw [if_neg (by simp [ho])]
  have e : (s.passTo (x.helloAt + s.rtoUs * 1000)).retryMax = s.retryMax := rfl
  have h : (s.passTo (x.helloAt + s.rtoUs * 1000)).helloFrame x = s.helloFrame x := rfl
  have c : (s.passTo (x.helloAt + s.rtoUs * 1000)).coach = s.coach := rfl
  generalize s.passTo (x.helloAt + s.rtoUs * 1000) = v at e h c
  rw [if_neg (by omega), h]
  constructor
  · exact ⟨_, State.tx_set_self _ _ _, rfl⟩
  · unfold State.queueCtrl
    rw [State.port_modPort_self]
    exact congrArg (fun q : CoachPort => q.ctrl ++ [s.helloFrame x]) (State.port_congr (s := s) (t := v) c x.port)

theorem State.sendAck_port (s : State) (k : Nat) (x : RxFlow) (hx : s.rx? k = some x) :
    ∃ y f, (s.sendAck k).rx? k = some y ∧ y.oldestAt = none ∧ y.since = 0 ∧ y.ack = x.ack ∧ f = s.ackFrame y ∧
      ((s.sendAck k).port x.port).ctrl = (s.port x.port).ctrl ++ [f] := by
  unfold State.sendAck
  rw [hx]
  dsimp only
  refine ⟨_, _, State.rx_set_self _ _ _, rfl, rfl, rfl, rfl, ?_⟩
  unfold State.queueCtrl
  rw [State.port_modPort_self]
  rfl

theorem ackDelayExpiry_spec (s : State) (k : Nat) (x : RxFlow) (hx : s.rx? k = some x) (a : Nat) (ha : x.oldestAt = some a) :
    ∃ t, exec (.ackDelayExpiry k) s = .next t ∧ ∃ y, t.rx? k = some y ∧ y.oldestAt = none ∧ y.since = 0 ∧ y.ack = x.ack ∧
      (t.port x.port).ctrl = (s.port x.port).ctrl ++ [s.ackFrame y] := by
  refine ⟨_, rfl, ?_⟩
  unfold State.ackDelay
  rw [hx]
  dsimp only
  rw [ha]
  dsimp only
  obtain ⟨y, f, h1, h2, h3, h4, h5, h6⟩ := State.sendAck_port (s.passTo (a + s.fd Rg.CCH_XPORT_CFG_ACK_DELAY * 100)) k x hx
  exact ⟨y, h1, h2, h3, h4, h6.trans (by rw [h5]; rfl)⟩

theorem flowIdleExpiry_spec (s : State) (i : s.Inv) (k : Nat) :
    (∀ x, s.rx? k = some x → ∃ t, exec (.flowIdleExpiry true k) s = .next t ∧ t.rx? k = none ∧ t.fd Rg.CCH_FLOWS_AGED = min (s.fd
        Rg.CCH_FLOWS_AGED + 1) 65535) ∧
    (∀ x, s.tx? k = some x → x.unacked = [] → x.exp = none → x.opened = true →
      ∃ t, exec (.flowIdleExpiry false k) s = .next t ∧ t.tx? k = none ∧ t.fd Rg.CCH_FLOWS_AGED = min (s.fd Rg.CCH_FLOWS_AGED + 1)
          65535) := by
  constructor
  · intro x hx
    refine ⟨_, rfl, ?_⟩
    unfold State.flowIdle
    rw [if_pos rfl, hx]
    dsimp only
    constructor
    · unfold State.rx?
      rw [State.bump_coach]
      exact State.rx_drop_self _ _
    · rw [State.fd_bump_self (State.setRx_inv (State.passTo_inv i _) _ _) _ _ (Nat.le_of_ble_eq_true rfl), State.setRx_fd]
      rfl
  · intro x hx h1 h2 h3
    refine ⟨_, rfl, ?_⟩
    unfold State.flowIdle
    rw [if_neg (by decide), hx]
    dsimp only
    rw [if_pos (by simp [h1, h2, h3])]
    have id : (s.passTo (1000000000 + x.lastAt)).Inv := State.passTo_inv i _
    have ig (v : State) (iv : v.Inv) : (v.dropTx k).Inv := by
      unfold State.dropTx
      dsimp only
      refine State.setTx_inv ?_ _ _
      exact iv.of_eq rfl rfl rfl rfl rfl
    constructor
    · unfold State.tx?
      rw [State.bump_coach]
      exact State.tx_drop_self _ _
    · rw [State.fd_bump_self (ig _ id) _ _ (Nat.le_of_ble_eq_true rfl)]
      rfl

theorem flowOpenResume_spec (s : State) (kind n c : Nat) (r : List (Nat × Nat × Nat)) (ho : s.coach.opens = (kind, n, c) :: r) :
    ∃ t, exec .flowOpenResume s = .next t ∧
      (s.roomForFlow = none → t = s) ∧
      (s.roomForFlow ≠ none → kind = 1 → t = State.exportFlows n 5 { s with coach := { s.coach with opens := r } }) ∧
      (s.roomForFlow ≠ none → kind ≠ 1 → s.task? n = none → t = { s with coach := { s.coach with opens := r } }) := by
  refine ⟨_, rfl, ?_⟩
  unfold State.openResume
  rw [ho]
  dsimp only
  refine ⟨fun h => ?_, fun h hk => ?_, fun h hk hn => ?_⟩
  · rw [if_pos (by simp [h])]
  · rw [if_neg (by simpa using h), if_pos hk]
  · have e : State.task? { s with coach := { s.coach with opens := r } } n = none := hn
    rw [if_neg (by simpa using h), if_neg hk, e]

theorem abortResend_spec (s : State) (c : AbortCopy) (r : List AbortCopy) (hc : s.coach.copies = c :: r) :
    ∃ t, exec .abortResend s = .next t ∧ t.coach.copies = r ∧ (t.port c.port).aborts = (s.port c.port).aborts ++ [c.frame] ∧ s.now
        ≤ t.now := by
  refine ⟨_, rfl, ?_⟩
  unfold State.abortAgain
  rw [hc]
  dsimp only
  refine ⟨rfl, ?_, ?_⟩
  · unfold State.queueAbort
    rw [State.port_modPort_self]
    rfl
  · show s.now ≤ (s.passTo c.due).now
    simp only [State.passTo, State.pass]; omega

/-! ### Port states -/

theorem State.setPort_inv {s : State} (i : s.Inv) (n st : Nat) : (s.setPort n st).Inv := State.setF_inv i _ _

theorem portDetect_spec (s : State) (i : s.Inv) (n media : Nat) (hn : n < s.var.ports) (h0 : s.portState n = 0)
    (hp : s.on (Rg.CCH_PORT_STATUS_PRESENT n) = true) (hm : s.portsMayTrain = true) :
    ∃ t, exec (.portDetect n media) s = .next t ∧ t.portState n = 1 ∧ t.fd (Rg.CCH_PORT_STATUS_MEDIA n) = media % 4 := by
  refine ⟨_, rfl, ?_⟩
  unfold State.portDetect
  rw [if_neg (by simp [h0, hp, hm]; omega)]
  have i1 := State.setPort_inv i n 1
  constructor
  · unfold State.portState
    rw [State.fd_setF_apart i1 _ _ _ (RF.apart_bits rfl)]
    unfold State.setPort
    rw [State.fd_setF_self i _ _ (Nat.le_of_ble_eq_true rfl)]
    rfl
  · rw [State.fd_setF_self i1 _ _ (Nat.le_of_ble_eq_true rfl)]
    rfl

theorem portTrained_spec (s : State) (i : s.Inv) (n : Nat) (hn : n < s.var.ports) (h1 : s.portState n = 1) :
    ∃ t, exec (.portTrained n) s = .next t ∧ t.portState n = (if s.fd (Rg.CCH_PORT_CTRL_ENABLE n) = 0 then 2 else 3) ∧
      t.fd (Rg.CCH_PORT_STATUS_TRAIN_FAILS n) = 0 := by
  refine ⟨_, rfl, ?_⟩
  unfold State.portTrained
  rw [if_neg (by simp [h1]; omega)]
  have i1 (c : Nat) := State.setPort_inv i n c
  have ap (f : RF) (h : f.addr ≠ Rg.CCH_PORT_FEC n) (u : State) (iu : u.Inv) :
      (u.cycles [Rg.CCH_PORT_FEC_CORRECTED n, Rg.CCH_PORT_FEC_UNCORRECTED n]).fd f = u.fd f := by
    unfold State.cycles
    simp only [List.foldl_cons, List.foldl_nil]
    rw [State.fd_raise_apart (State.raise_inv iu _) _ _ (.inl h), State.fd_raise_apart iu _ _ (.inl h)]
  have ne : (Rg.CCH_PORT_STATUS_STATE n).addr ≠ Rg.CCH_PORT_FEC n := by
    simp only [Rg.CCH_PORT_STATUS_STATE, Rg.CCH_PORT_STATUS, Rg.CCH_PORT_FEC_CORRECTED, Rg.CCH_PORT_FEC]; omega
  constructor
  · unfold State.portState
    rw [ap _ ne _ (State.setF_inv (i1 _) _ _), State.fd_setF_apart (i1 _) _ _ _ (RF.apart_bits rfl)]
    unfold State.setPort
    rw [State.fd_setF_self i _ _ (Nat.le_of_ble_eq_true rfl)]
    by_cases h : s.fd (Rg.CCH_PORT_CTRL_ENABLE n) = 0
    · rw [if_pos h, if_neg (by simp [State.on, h])]; rfl
    · rw [if_neg h, if_pos (by simpa [State.on] using h)]; rfl
  · rw [ap (Rg.CCH_PORT_STATUS_TRAIN_FAILS n) ne _ (State.setF_inv (i1 _) _ _), State.fd_setF_self (i1 _) _ _ (Nat.le_of_ble_eq_true rfl)]; rfl

theorem portTrainFail_spec (s : State) (i : s.Inv) (n : Nat) (hn : n < s.var.ports) (h1 : s.portState n = 1) (c : Nat)
    (hc : min (s.fd (Rg.CCH_PORT_STATUS_TRAIN_FAILS n) + 1) 255 = c) :
    ∃ t, exec (.portTrainFail n) s = .next t ∧ t.fd (Rg.CCH_PORT_STATUS_TRAIN_FAILS n) = c ∧
      (c % 3 = 0 → t.portState n = 4 ∧ (t.port n).failedAt = s.now) ∧ (c % 3 ≠ 0 → t.portState n = 1) := by
  refine ⟨_, rfl, ?_⟩
  unfold State.portTrainFail
  rw [if_neg (by simp [h1]; omega)]
  dsimp only
  have i1 := State.bump_inv i (Rg.CCH_PORT_STATUS_TRAIN_FAILS n) 1
  have f1 : (s.bump (Rg.CCH_PORT_STATUS_TRAIN_FAILS n)).fd (Rg.CCH_PORT_STATUS_TRAIN_FAILS n) = c := (State.fd_bump_self i _ _
      (Nat.le_of_ble_eq_true rfl)).trans hc
  have f2 : (s.bump (Rg.CCH_PORT_STATUS_TRAIN_FAILS n)).portState n = 1 := (State.fd_bump_apart i _ _ _ (RF.apart_bits rfl)).trans
      h1
  have f3 : (s.bump (Rg.CCH_PORT_STATUS_TRAIN_FAILS n)).now = s.now := State.bump_now ..
  rw [f1]
  generalize s.bump (Rg.CCH_PORT_STATUS_TRAIN_FAILS n) = v at i1 f1 f2 f3
  by_cases h : c % 3 = 0
  · rw [if_pos h]
    refine ⟨?_, fun _ => ⟨?_, ?_⟩, fun g => absurd h g⟩
    · exact (State.fd_setF_apart i1 _ _ _ (RF.apart_bits rfl)).trans f1
    · exact (State.fd_setF_self i1 _ _ (Nat.le_of_ble_eq_true rfl)).trans rfl
    · rw [State.port_modPort_self]
      exact f3
  · rw [if_neg h]
    exact ⟨f1, fun g => absurd g h, fun _ => f2⟩

theorem portFailedRetry_spec (s : State) (i : s.Inv) (n : Nat) (hn : n < s.var.ports) (h4 : s.portState n = 4) :
    ∃ t, exec (.portFailedRetry n) s = .next t ∧ t.portState n = 1 ∧ s.now ≤ t.now := by
  refine ⟨_, rfl, ?_⟩
  rw [if_neg (by simp [h4]; omega)]
  constructor
  · exact (State.fd_setF_self (State.passTo_inv i _) _ _ (Nat.le_of_ble_eq_true rfl)).trans rfl
  · unfold State.setPort
    rw [State.setF_now]
    simp only [State.passTo, State.pass]; omega

theorem State.portLeft_free {s : State} {n : Nat} (h : ∀ e ∈ s.coach.tx, e.2.port ≠ n) : s.portLeft n = s.bump
    (Rg.CCH_PORT_EVENTS_DOWNS n) := by
  unfold State.portLeft
  dsimp only
  rw [State.bump_coach, List.filter_eq_nil_iff.2 (by simpa using h)]
  rfl

theorem portEnableWrite_spec (s : State) (i : s.Inv) (n : Nat) (v : W64) (hn : n < s.var.ports) (w : Nat) (hw : v.toNat = w)
    (hf : ∀ e ∈ s.coach.tx, e.2.port ≠ n) :
    ∃ t, exec (.portEnableWrite n v) s = .next t ∧
      t.fd (Rg.CCH_PORT_CTRL_ENABLE n) = bitsOf w 0 1 ∧ t.fd (Rg.CCH_PORT_CTRL_VLAN n) = bitsOf w 1 1 ∧
      t.fd (Rg.CCH_PORT_CTRL_PCP n) = bitsOf w 2 3 ∧ t.fd (Rg.CCH_PORT_CTRL_VID n) = bitsOf w 8 12 ∧
      (s.portState n = 2 → bitOf w 0 = true → t.portState n = 3) ∧
      (s.portState n = 3 → bitOf w 0 = false → t.portState n = 2 ∧
        t.fd (Rg.CCH_PORT_EVENTS_DOWNS n) = min (s.fd (Rg.CCH_PORT_EVENTS_DOWNS n) + 1) 65535) := by
  refine ⟨_, rfl, ?_⟩
  unfold State.portCtrl
  subst hw
  generalize v.toNat = w
  rw [if_neg (by omega)]
  dsimp only
  have i1 := State.setF_inv i (Rg.CCH_PORT_CTRL_ENABLE n) (bitsOf w 0 1)
  have e1 := State.fd_setF_self i (Rg.CCH_PORT_CTRL_ENABLE n) (bitsOf w 0 1) (Nat.le_of_ble_eq_true rfl)
  have d1 (g : RF) (hg : g.addr ≠ Rg.CCH_PORT_CTRL n) := State.fd_setF_apart i (Rg.CCH_PORT_CTRL_ENABLE n) g (bitsOf w 0 1) (.inl
      hg)
  have c1 : (s.setF (Rg.CCH_PORT_CTRL_ENABLE n) (bitsOf w 0 1)).coach = s.coach := State.setF_coach ..
  generalize s.setF (Rg.CCH_PORT_CTRL_ENABLE n) (bitsOf w 0 1) = a at i1 e1 d1 c1
  have i2 := State.setF_inv i1 (Rg.CCH_PORT_CTRL_VLAN n) (bitsOf w 1 1)
  have e2 := State.fd_setF_self i1 (Rg.CCH_PORT_CTRL_VLAN n) (bitsOf w 1 1) (Nat.le_of_ble_eq_true rfl)
  have f2 := (State.fd_setF_apart i1 (Rg.CCH_PORT_CTRL_VLAN n) (Rg.CCH_PORT_CTRL_ENABLE n) (bitsOf w 1 1) (RF.apart_bits
      rfl)).trans e1
  have d2 (g : RF) (hg : g.addr ≠ Rg.CCH_PORT_CTRL n) := (State.fd_setF_apart i1 (Rg.CCH_PORT_CTRL_VLAN n) g (bitsOf w 1 1) (.inl
      hg)).trans (d1 g hg)
  have c2 : (a.setF (Rg.CCH_PORT_CTRL_VLAN n) (bitsOf w 1 1)).coach = s.coach := (State.setF_coach ..).trans c1
  generalize a.setF (Rg.CCH_PORT_CTRL_VLAN n) (bitsOf w 1 1) = b at i2 e2 f2 d2 c2
  have i3 := State.setF_inv i2 (Rg.CCH_PORT_CTRL_PCP n) (bitsOf w 2 3)
  have e3 := State.fd_setF_self i2 (Rg.CCH_PORT_CTRL_PCP n) (bitsOf w 2 3) (Nat.le_of_ble_eq_true rfl)
  have f3 := (State.fd_setF_apart i2 (Rg.CCH_PORT_CTRL_PCP n) (Rg.CCH_PORT_CTRL_ENABLE n) (bitsOf w 2 3) (RF.apart_bits
      rfl)).trans f2
  have g3 := (State.fd_setF_apart i2 (Rg.CCH_PORT_CTRL_PCP n) (Rg.CCH_PORT_CTRL_VLAN n) (bitsOf w 2 3) (RF.apart_bits rfl)).trans e2
  have d3 (g : RF) (hg : g.addr ≠ Rg.CCH_PORT_CTRL n) := (State.fd_setF_apart i2 (Rg.CCH_PORT_CTRL_PCP n) g (bitsOf w 2 3) (.inl
      hg)).trans (d2 g hg)
  have c3 : (b.setF (Rg.CCH_PORT_CTRL_PCP n) (bitsOf w 2 3)).coach = s.coach := (State.setF_coach ..).trans c2
  generalize b.setF (Rg.CCH_PORT_CTRL_PCP n) (bitsOf w 2 3) = c at i3 e3 f3 g3 d3 c3
  have i4 := State.setF_inv i3 (Rg.CCH_PORT_CTRL_VID n) (bitsOf w 8 12)
  have e4 := State.fd_setF_self i3 (Rg.CCH_PORT_CTRL_VID n) (bitsOf w 8 12) (Nat.le_of_ble_eq_true rfl)
  have f4 := (State.fd_setF_apart i3 (Rg.CCH_PORT_CTRL_VID n) (Rg.CCH_PORT_CTRL_ENABLE n) (bitsOf w 8 12) (RF.apart_bits
      rfl)).trans f3
  have g4 := (State.fd_setF_apart i3 (Rg.CCH_PORT_CTRL_VID n) (Rg.CCH_PORT_CTRL_VLAN n) (bitsOf w 8 12) (RF.apart_bits rfl)).trans
      g3
  have h4 := (State.fd_setF_apart i3 (Rg.CCH_PORT_CTRL_VID n) (Rg.CCH_PORT_CTRL_PCP n) (bitsOf w 8 12) (RF.apart_bits rfl)).trans e3
  have d4 (g : RF) (hg : g.addr ≠ Rg.CCH_PORT_CTRL n) := (State.fd_setF_apart i3 (Rg.CCH_PORT_CTRL_VID n) g (bitsOf w 8 12) (.inl
      hg)).trans (d3 g hg)
  have c4 : (c.setF (Rg.CCH_PORT_CTRL_VID n) (bitsOf w 8 12)).coach = s.coach := (State.setF_coach ..).trans c3
  generalize c.setF (Rg.CCH_PORT_CTRL_VID n) (bitsOf w 8 12) = d at i4 e4 f4 g4 h4 d4 c4
  have ps : d.portState n = s.portState n := d4 _ (by simp only [Rg.CCH_PORT_STATUS_STATE, Rg.CCH_PORT_STATUS, Rg.CCH_PORT_CTRL]; omega)
  have dn : d.fd (Rg.CCH_PORT_EVENTS_DOWNS n) = s.fd (Rg.CCH_PORT_EVENTS_DOWNS n) := d4 _ (by simp only [Rg.CCH_PORT_EVENTS_DOWNS, Rg.CCH_PORT_EVENTS, Rg.CCH_PORT_CTRL]; omega)
  have fin (t : State) (ht : ∀ g : RF, g.addr = Rg.CCH_PORT_CTRL n → t.fd g = d.fd g) : t.fd (Rg.CCH_PORT_CTRL_ENABLE n) = bitsOf
      w 0 1 ∧
      t.fd (Rg.CCH_PORT_CTRL_VLAN n) = bitsOf w 1 1 ∧ t.fd (Rg.CCH_PORT_CTRL_PCP n) = bitsOf w 2 3 ∧ t.fd (Rg.CCH_PORT_CTRL_VID n)
          = bitsOf w 8 12 := by
    refine ⟨(ht _ rfl).trans (f4.trans ?_), (ht _ rfl).trans (g4.trans ?_), (ht _ rfl).trans (h4.trans ?_), (ht _ rfl).trans
        (e4.trans ?_)⟩ <;>
      exact Nat.mod_eq_of_lt (Nat.mod_lt _ (by decide))
  have apst (g : RF) (hg : g.addr = Rg.CCH_PORT_CTRL n) : g.addr ≠ Rg.CCH_PORT_STATUS n := by rw [hg]; simp only [Rg.CCH_PORT_CTRL, Rg.CCH_PORT_STATUS]; omega
  have apev (g : RF) (hg : g.addr = Rg.CCH_PORT_CTRL n) : g.addr ≠ Rg.CCH_PORT_EVENTS n := by rw [hg]; simp only [Rg.CCH_PORT_CTRL, Rg.CCH_PORT_EVENTS]; omega
  rw [ps]
  by_cases hA : (decide (s.portState n = 2) && bitOf w 0) = true
  · rw [if_pos hA]
    have hA' : s.portState n = 2 ∧ bitOf w 0 = true := by simpa using hA
    obtain ⟨q1, q2, q3, q4⟩ := fin (d.setPort n 3) fun g hg => State.fd_setF_apart i4 _ _ _ (.inl (apst g hg))
    exact ⟨q1, q2, q3, q4, fun _ _ => (State.fd_setF_self i4 _ _ (Nat.le_of_ble_eq_true rfl)).trans rfl, fun h => absurd h (by
        omega)⟩
  · rw [if_neg hA]
    by_cases hB : (decide (s.portState n = 3) && !bitOf w 0) = true
    · rw [if_pos hB]
      have hB' : s.portState n = 3 ∧ bitOf w 0 = false := by simpa using hB
      have cf : ∀ e ∈ (d.setPort n 2).coach.tx, e.2.port ≠ n := by
        unfold State.setPort
        rw [State.setF_coach, c4]; exact hf
      rw [State.portLeft_free cf]
      have i5 := State.setPort_inv i4 n 2
      obtain ⟨q1, q2, q3, q4⟩ := fin ((d.setPort n 2).bump (Rg.CCH_PORT_EVENTS_DOWNS n)) fun g hg =>
        (State.fd_bump_apart i5 _ _ _ (.inl (apev g hg))).trans (State.fd_setF_apart i4 _ _ _ (.inl (apst g hg)))
      refine ⟨q1, q2, q3, q4, fun h => absurd h (by omega), fun _ _ => ⟨?_, ?_⟩⟩
      · exact (State.fd_bump_apart i5 _ _ _
            (.inl (by simp only [Rg.CCH_PORT_STATUS_STATE, Rg.CCH_PORT_STATUS, Rg.CCH_PORT_EVENTS_DOWNS, Rg.CCH_PORT_EVENTS]; omega))).trans
            ((State.fd_setF_self i4 _ _ (Nat.le_of_ble_eq_true rfl)).trans rfl)
      · refine (State.fd_bump_self i5 _ _ (Nat.le_of_ble_eq_true rfl)).trans ?_
        unfold State.setPort
        rw [State.fd_setF_apart i4 _ _ _
            (.inl (by simp only [Rg.CCH_PORT_STATUS_STATE, Rg.CCH_PORT_STATUS, Rg.CCH_PORT_EVENTS_DOWNS, Rg.CCH_PORT_EVENTS]; omega)),
            dn]
        rfl
    · rw [if_neg hB]
      obtain ⟨q1, q2, q3, q4⟩ := fin d fun g _ => rfl
      exact ⟨q1, q2, q3, q4, fun h h' => absurd (by simp [h, h']) hA, fun h h' => absurd (by simp [h, h']) hB⟩

theorem State.portDown_shown {s : State} (i : s.Inv) (n : Nat) (hf : ∀ e ∈ s.coach.tx, e.2.port ≠ n) :
    (s.portDown n).portState n = 0 ∧ (s.portDown n).fd (Rg.CCH_PORT_CTRL_ENABLE n) = 0 ∧
    (s.portState n = 3 → (s.portDown n).fd (Rg.CCH_PORT_EVENTS_DOWNS n) = min (s.fd (Rg.CCH_PORT_EVENTS_DOWNS n) + 1) 65535) := by
  have i1 := State.setPort_inv i n 0
  have i2 := State.setF_inv i1 (Rg.CCH_PORT_CTRL_ENABLE n) 0
  have f1 : ((s.setPort n 0).setF (Rg.CCH_PORT_CTRL_ENABLE n) 0).portState n = 0 :=
    (State.fd_setF_apart i1 _ _ _
        (.inl (by simp only [Rg.CCH_PORT_STATUS_STATE, Rg.CCH_PORT_STATUS, Rg.CCH_PORT_CTRL_ENABLE, Rg.CCH_PORT_CTRL]; omega))).trans
        ((State.fd_setF_self i _ _ (Nat.le_of_ble_eq_true rfl)).trans rfl)
  have f2 : ((s.setPort n 0).setF (Rg.CCH_PORT_CTRL_ENABLE n) 0).fd (Rg.CCH_PORT_CTRL_ENABLE n) = 0 := (State.fd_setF_self i1 _ _
      (Nat.le_of_ble_eq_true rfl)).trans rfl
  have f3 : ((s.setPort n 0).setF (Rg.CCH_PORT_CTRL_ENABLE n) 0).fd (Rg.CCH_PORT_EVENTS_DOWNS n) = s.fd (Rg.CCH_PORT_EVENTS_DOWNS
      n) :=
    (State.fd_setF_apart i1 _ _ _
        (.inl (by simp only [Rg.CCH_PORT_EVENTS_DOWNS, Rg.CCH_PORT_EVENTS, Rg.CCH_PORT_CTRL_ENABLE, Rg.CCH_PORT_CTRL]; omega))).trans
      (State.fd_setF_apart i _ _ _
          (.inl (by simp only [Rg.CCH_PORT_EVENTS_DOWNS, Rg.CCH_PORT_EVENTS, Rg.CCH_PORT_STATUS_STATE, Rg.CCH_PORT_STATUS]; omega)))
  have c : ((s.setPort n 0).setF (Rg.CCH_PORT_CTRL_ENABLE n) 0).coach = s.coach := (State.setF_coach ..).trans (State.setF_coach ..)
  unfold State.portDown
  dsimp only
  generalize (s.setPort n 0).setF (Rg.CCH_PORT_CTRL_ENABLE n) 0 = v at i2 f1 f2 f3 c
  by_cases h : s.portState n = 3
  · rw [if_pos h, State.portLeft_free (by rw [c]; exact hf)]
    refine ⟨?_, ?_, fun _ => ?_⟩
    · exact (State.fd_bump_apart i2 _ _ _
          (.inl (by simp only [Rg.CCH_PORT_STATUS_STATE, Rg.CCH_PORT_STATUS, Rg.CCH_PORT_EVENTS_DOWNS, Rg.CCH_PORT_EVENTS]; omega))).trans
          f1
    · exact (State.fd_bump_apart i2 _ _ _
          (.inl (by simp only [Rg.CCH_PORT_CTRL_ENABLE, Rg.CCH_PORT_CTRL, Rg.CCH_PORT_EVENTS_DOWNS, Rg.CCH_PORT_EVENTS]; omega))).trans
          f2
    · rw [State.fd_bump_self i2 _ _ (Nat.le_of_ble_eq_true rfl), f3]
      rfl
  · rw [if_neg h]
    exact ⟨f1, f2, fun g => absurd g h⟩

theorem portLinkLoss_spec (s : State) (i : s.Inv) (n us : Nat) (hn : n < s.var.ports) (h3 : s.portState n = 3) (hu : s.fd
    Rg.CCH_XPORT_CFG_DOWN_US ≤ us)
    (hf : ∀ e ∈ s.coach.tx, e.2.port ≠ n) :
    ∃ t, exec (.portLinkLoss n us) s = .next t ∧ t.portState n = 0 ∧ t.fd (Rg.CCH_PORT_CTRL_ENABLE n) = 0 ∧
      t.fd (Rg.CCH_PORT_EVENTS_DOWNS n) = min (s.fd (Rg.CCH_PORT_EVENTS_DOWNS n) + 1) 65535 := by
  refine ⟨_, rfl, ?_⟩
  rw [if_neg (by simp [h3]; omega)]
  have h := State.portDown_shown i n hf
  exact ⟨h.1, h.2.1, h.2.2 h3⟩

theorem portSignalLoss_spec (s : State) (i : s.Inv) (n : Nat) (hn : n < s.var.ports) (h0 : s.portState n ≠ 0) (h3 : s.portState n
    ≠ 3)
    (hf : ∀ e ∈ s.coach.tx, e.2.port ≠ n) :
    ∃ t, exec (.portSignalLoss n) s = .next t ∧ t.portState n = 0 ∧ t.fd (Rg.CCH_PORT_CTRL_ENABLE n) = 0 := by
  refine ⟨_, rfl, ?_⟩
  rw [if_neg (by simp [h0, h3]; omega)]
  have h := State.portDown_shown i n hf
  exact ⟨h.1, h.2.1⟩

end Sys2Proof.Machine
end

