-- ==== Sys2Proof/Laws/EffImage.lean ====
section
/-!
SUPPORT. What the IMG and SEC commands and the runtime's calls do (02_fabric_image.md R56 to R66, R70 to R76; 15_boot_security.md
    R492
to R510).
-/
namespace Sys2Proof.Machine

/-! ### Reading the window (14 R475, 09 R290) -/

/-- A read of the window that passes its check answers what host memory holds. -/
theorem State.devRead_window {s : State} {tag cls a n : Nat} (hl : s.lrlActive = true) (ha : windowBase ≤ a) (hb : s.badPoint tag
    a n = none) :
    (s.devRead tag cls a n).code = 0 ∧ (s.devRead tag cls a n).data = readBytes s.hostMem (a - windowBase) n := by
  unfold State.devRead
  simp only [hb, if_pos ha, State.winRead, hl, if_true, and_self]

theorem State.devRead_mask (s : State) (tag cls a n : Nat) : s.Keeps 74450131340091392 (s.devRead tag cls a n).st :=
    State.devRead_keeps (by decide) (.refl s) tag cls a n

theorem State.devWrite_mask (s : State) (tag cls a : Nat) (b : Bytes) : s.Keeps 74450131340091398 (s.devWrite tag cls a b).st :=
    State.devWrite_keeps (by decide) (.refl s) tag cls a b false

/-- A write of the window that passes its check puts the bytes into host memory. -/
theorem State.devWrite_window {s : State} {tag cls a : Nat} {b : Bytes} (hl : s.lrlActive = true) (ha : windowBase ≤ a)
    (hb : s.badPoint tag a b.length = none) :
    (s.devWrite tag cls a b).code = 0 ∧ (s.devWrite tag cls a b).st.hostMem = putBytes s.hostMem (a - windowBase) b := by
  unfold State.devWrite State.devWriteOn
  simp only [hb, if_pos ha, State.winWrite, hl, if_true, true_and]
  refine foldl_keep (P := fun u => u.hostMem = putBytes s.hostMem (a - windowBase) b) _ ?_ ?_
  · intro u x h; exact h
  · rfl

theorem State.serving_facts {s : State} (h : s.serving = true) : s.phase = .running ∧ s.lrlActive = true ∧ s.on
    Rg.SEC_BOOT_STATUS_MODE = false ∧
    s.warmDue = none := by
  simp only [State.serving, Bool.and_eq_true, beq_iff_eq, Bool.not_eq_true', Option.isNone_iff_eq_none] at h
  exact ⟨h.1.1.1, h.1.1.2, h.1.2, h.2⟩

theorem State.imgCmd_runs {s : State} (act : State → State) (h : s.serving = true) (b : s.on Rg.IMG_STATUS_BUSY = false)
    (c : s.on Rg.SEC_RESULT_BUSY = false) : s.imgCmd act = act s := by
  simp only [State.imgCmd, h, b, c, Bool.not_true, Bool.false_eq_true, if_false]

theorem State.ImgXfer.low {s : State} {a n : Nat} (h : s.ImgXfer a n) : a < 281474976710656 := h.below
theorem State.SecXfer.low {s : State} {a n : Nat} (h : s.SecXfer a n) : a < 281474976710656 := h.below

/-! ### Image slots -/

theorem State.noteImg_inv {s : State} (i : s.Inv) (k r : Nat) : (s.noteImg k r).Inv := State.wr_inv (State.setF_inv i _ _) _ _
theorem State.noteTarget_inv {s : State} (i : s.Inv) : (s.noteTarget).Inv := State.setF_inv i _ _

theorem imgReason_addr (k : Nat) : (imgReason k).addr = Rg.IMG_SLOT_REASON ∧ (imgReason k).w = 8 ∧ (imgReason k).lo + (imgReason
    k).w ≤ 64 := by
  unfold imgReason; split <;> decide

/-- What an IMG command that ends with `reason` for slot `k` shows. -/
theorem State.imgShown {s : State} (i : s.Inv) (k r e : Nat) :
    ((((s.noteImg k r).noteTarget).imgDone e).fd (imgReason k)) = r % 256 ∧ (((s.noteImg k r).noteTarget).imgDone e).fd
        Rg.IMG_STATUS_LAST_RESULT = e % 256 := by
  have i1 := State.noteImg_inv i k r
  have i2 := State.noteTarget_inv i1
  have a := imgReason_addr k
  constructor
  · unfold State.imgDone
    rw [State.fd_setF_apart i2 _ _ _ (.inl (by rw [a.1]; decide))]
    unfold State.noteTarget
    rw [State.fd_setF_apart i1 _ _ _ (.inl (by rw [a.1]; decide))]
    unfold State.noteImg
    rw [State.fd_wr_apart (State.setF_inv i _ _) _ _ _ (by rw [a.1]; simp only [Rg.IMG_SLOT_REASON, Rg.IMG_SLOT_SEQ]; omega), State.fd_setF_self i _ _ a.2.2, a.2.1]; rfl
  · exact State.fd_setF_self i2 _ _ (Nat.le_of_ble_eq_true rfl)

theorem State.setImgSlot_self (s : State) (k : Nat) (m : SMap Byte) : (s.setImgSlot k m).imgSlot k = m := by
  unfold State.setImgSlot State.imgSlot; split <;> rfl

theorem imgErase_spec (s : State) (i : s.Inv) (h : s.serving = true) (hb : s.on Rg.IMG_STATUS_BUSY = false) (hc : s.on
    Rg.SEC_RESULT_BUSY = false) :
    ∃ t, exec .imgErase s = .next t ∧ t.imgSlot (s.fd Rg.IMG_STATUS_TARGET) = [] ∧ t.fd (imgReason (s.fd Rg.IMG_STATUS_TARGET)) =
        1 ∧
      t.fd Rg.IMG_STATUS_LAST_RESULT = 0 := by
  refine ⟨_, rfl, ?_⟩
  unfold State.imgErase
  rw [State.imgCmd_runs _ h hb hc]
  generalize s.fd Rg.IMG_STATUS_TARGET = k
  have i1 : (s.setImgSlot k []).Inv := i.of_eq rfl rfl rfl rfl rfl
  exact ⟨State.setImgSlot_self s k [], State.imgShown i1 k 1 0⟩

theorem imgWrite_spec (s : State) (i : s.Inv) (a n : Nat) (h : s.serving = true) (hb : s.on Rg.IMG_STATUS_BUSY = false)
    (hc : s.on Rg.SEC_RESULT_BUSY = false) (hx : s.ImgXfer a n) (ho : s.fd Rg.IMG_XFER_OFFSET_OFFSET % 8 = 0)
    (hs : s.fd Rg.IMG_XFER_OFFSET_OFFSET + n ≤ 67108864) :
    ∃ t, exec .imgWrite s = .next t ∧ t.fd Rg.IMG_STATUS_LAST_RESULT = 0 ∧
      t.imgSlot (s.fd Rg.IMG_STATUS_TARGET) =
        slotWrite (s.imgSlot (s.fd Rg.IMG_STATUS_TARGET)) (s.fd Rg.IMG_XFER_OFFSET_OFFSET) (readBytes s.hostMem (a - windowBase)
            n) := by
  refine ⟨_, rfl, ?_⟩
  unfold State.imgWrite
  rw [State.imgCmd_runs _ h hb hc]
  have r := State.devRead_window (cls := 2) (State.serving_facts h).2.1 hx.window hx.reached
  have k := State.devRead_mask s 15 2 a n
  have e : ¬ ((!hostAddrOk a || s.fd Rg.IMG_XFER_OFFSET_OFFSET % 8 ≠ 0 || n % 8 ≠ 0 || 67108864 < s.fd Rg.IMG_XFER_OFFSET_OFFSET +
      n) = true) := by
    simp [hostAddrOk, hx.aligned, ho, Nat.not_lt.2 hs, hx.window, hx.low]
  simp only [hx.host, hx.len, if_neg e, r.1, r.2, ne_eq, not_true_eq_false, if_false]
  have et : (s.devRead 15 2 a n).st.fd Rg.IMG_STATUS_TARGET = s.fd Rg.IMG_STATUS_TARGET := k.fd i Rg.IMG_STATUS_TARGET_in (by
      decide) (by decide)
  have ef : (s.devRead 15 2 a n).st.imgSlot (s.fd Rg.IMG_STATUS_TARGET) = s.imgSlot (s.fd Rg.IMG_STATUS_TARGET) := by
    unfold State.imgSlot; rw [show (s.devRead 15 2 a n).st.flash = s.flash from k.same .flash (by decide)]
  have ik := k.inv i
  rw [et, ef]
  generalize (s.devRead 15 2 a n).st = u at ik
  generalize s.fd Rg.IMG_STATUS_TARGET = k
  generalize slotWrite (s.imgSlot k) (s.fd Rg.IMG_XFER_OFFSET_OFFSET) (readBytes s.hostMem (a - windowBase) n) = m
  have i1 : (u.setImgSlot k m).Inv := ik.of_eq rfl rfl rfl rfl rfl
  exact ⟨State.fd_setF_self (State.noteImg_inv i1 _ _) _ _ (Nat.le_of_ble_eq_true rfl), State.setImgSlot_self u _ _⟩

theorem imgCommit_spec (s : State) (i : s.Inv) (h : s.serving = true) (hb : s.on Rg.IMG_STATUS_BUSY = false) (hc : s.on
    Rg.SEC_RESULT_BUSY = false)
    (k r : Nat) (hk : s.fd Rg.IMG_STATUS_TARGET = k) (hr : s.imgVerdict k = r) (h8 : r < 256) :
    ∃ t, exec .imgCommit s = .next t ∧ t.fd Rg.IMG_STATUS_LAST_RESULT = r ∧ t.fd (imgReason k) = (if r = 0 then 0 else 1) ∧
      t.imgSlot k = (if r = 0 then s.imgSlot k else []) := by
  refine ⟨_, rfl, ?_⟩
  unfold State.imgCommit
  rw [State.imgCmd_runs _ h hb hc]
  subst hk
  dsimp only
  rw [hr]
  clear hr
  generalize s.fd Rg.IMG_STATUS_TARGET = k
  split
  · subst_vars
    have v := State.imgShown i k 0 0
    exact ⟨v.2, v.1, rfl⟩
  · have i1 : (s.setImgSlot k []).Inv := i.of_eq rfl rfl rfl rfl rfl
    have v := State.imgShown i1 k 1 r
    exact ⟨v.2.trans (Nat.mod_eq_of_lt h8), v.1, State.setImgSlot_self s k []⟩

/-! ### Reload (R66) -/

theorem State.resetPool_mask (s : State) (p : Nat) : s.Keeps 274877906944 (s.resetPool p) := State.resetPool_keeps (by decide)
    (.refl s) p

theorem IMG_RELOAD_apart (p : Nat) : (Rg.IMG_RELOAD_RESULT p).apart (Rg.IMG_RELOAD_PENDING p) ∧
    (Rg.IMG_RELOAD_RESULT p).apart (Rg.IMG_RELOAD_SEQ_LOW p) := ⟨RF.apart_bits rfl, RF.apart_bits rfl⟩

theorem State.applyReload_result {s : State} (i : s.Inv) (p : Nat) (r : Reload) :
    (s.applyReload p r).fd (Rg.IMG_RELOAD_RESULT p) = s.fd (Rg.IMG_RELOAD_RESULT p) := by
  unfold State.applyReload
  extract_lets s0 s1
  have i1 : s1.Inv := State.modPart_inv (State.pass_inv i 1) _ _
  have e1 : s1.fd (Rg.IMG_RELOAD_RESULT p) = s.fd (Rg.IMG_RELOAD_RESULT p) := State.fd_of_regs rfl _
  clear_value s1
  have i2 := State.setF_inv i1 (Rg.IMG_RELOAD_PENDING p) 0
  have i3 := State.setF_inv i2 (Rg.IMG_RELOAD_SEQ_LOW p) r.seq
  rw [(State.resetPool_mask _ p).fd i3 (Rg.IMG_RELOAD_RESULT_in p) (by decide) (by decide), State.fd_setF_apart i2 _ _ _
      (IMG_RELOAD_apart p).2,
    State.fd_setF_apart i1 _ _ _ (IMG_RELOAD_apart p).1, e1]

theorem State.zeroMem_fd (s : State) (a n : Nat) (f : RF) : (s.zeroMem a n).fd f = s.fd f := State.fd_of_regs rfl f

theorem State.reloadStructural_result {s : State} (i : s.Inv) (p : Nat) (r : Reload) :
    (s.reloadStructural p r).fd (Rg.IMG_RELOAD_RESULT p) = s.fd (Rg.IMG_RELOAD_RESULT p) := by
  unfold State.reloadStructural
  extract_lets old c0 s2 s3
  have e2 : s2.Inv ∧ s2.fd (Rg.IMG_RELOAD_RESULT p) = s.fd (Rg.IMG_RELOAD_RESULT p) := by
    refine foldl_keep (P := fun u => u.Inv ∧ u.fd (Rg.IMG_RELOAD_RESULT p) = s.fd (Rg.IMG_RELOAD_RESULT p)) _ ?_ ⟨i, rfl⟩
    intro u c h
    exact ⟨(State.zeroMem_keeps (M := 2305843009213693951) (by decide) (.refl u) _ _).inv h.1, (State.zeroMem_fd ..).trans h.2⟩
  clear_value s2
  have e3 : s3.Inv ∧ s3.fd (Rg.IMG_RELOAD_RESULT p) = s.fd (Rg.IMG_RELOAD_RESULT p) := by
    refine foldl_keep (P := fun u => u.Inv ∧ u.fd (Rg.IMG_RELOAD_RESULT p) = s.fd (Rg.IMG_RELOAD_RESULT p)) _ ?_ e2
    intro u c h
    exact ⟨(State.zeroMem_keeps (M := 2305843009213693951) (by decide) (.refl u) _ _).inv h.1, (State.zeroMem_fd ..).trans h.2⟩
  clear_value s3
  have ia : (s3.applyReload p r).Inv := (State.applyReload_keeps (M := 2305843009213693951) (by decide) (.refl s3) p r).inv e3.1
  have ea := (State.applyReload_result e3.1 p r).trans e3.2
  generalize s3.applyReload p r = u at ia ea
  have ib : ((u.bindPages p).modPart p fun q => { q with why := 2, resetDone := false }).Inv := ia.of_eq rfl rfl rfl rfl rfl
  exact (State.fd_setF_apart ib _ _ _
      (.inl (by simp only [Rg.IMG_RELOAD_RESULT, Rg.IMG_RELOAD, Rg.FLT_PART_STATE, Rg.FLT_PART]; omega))).trans
    ((State.fd_of_regs rfl _).trans ea)

theorem State.reload_result {s : State} (i : s.Inv) {p : Nat} (hp : p < 12) (b : Bytes) :
    (s.reload p b).2.fd (Rg.IMG_RELOAD_RESULT p) = (s.reload p b).1 % 256 := by
  have hi (u : State) (iu : u.Inv) (e : Nat) : (u.setF (Rg.IMG_RELOAD_RESULT p) e).fd (Rg.IMG_RELOAD_RESULT p) = e % 256 :=
      State.fd_setF_self iu _ _ (Nat.le_of_ble_eq_true rfl)
  unfold State.reload
  split
  · rename_i r _
    extract_lets s1 cur
    have i1 : s1.Inv := State.setF_inv i _ _
    have e1 : s1.fd (Rg.IMG_RELOAD_RESULT p) = 0 := hi s i 0
    clear_value s1
    have key (x : Bool) : (if x = true then (0, s1.reloadStructural p r) else if s1.anyRunning p = true then
        (0, (s1.modPart p fun q => { q with reloadPend := some r }).setF (Rg.IMG_RELOAD_PENDING p) 1) else (0, s1.applyReload p r)).2.fd (Rg.IMG_RELOAD_RESULT p) =
        (if x = true then (0, s1.reloadStructural p r) else if s1.anyRunning p = true then
        (0, (s1.modPart p fun q => { q with reloadPend := some r }).setF (Rg.IMG_RELOAD_PENDING p) 1) else (0, s1.applyReload p r)).1 % 256 := by
      cases x
      · simp only [Bool.false_eq_true, if_false]
        split
        · exact (State.fd_setF_apart (State.modPart_inv i1 _ _) _ _ _ (IMG_RELOAD_apart p).1).trans ((State.fd_of_regs rfl
              _).trans e1)
        · exact (State.applyReload_result i1 p r).trans e1
      · exact (State.reloadStructural_result i1 p r).trans e1
    exact key _
  · rw [if_pos hp]
    exact hi s i _

theorem imgReload_spec (s : State) (i : s.Inv) (p a n : Nat) (h : s.serving = true) (hb : s.on Rg.IMG_STATUS_BUSY = false)
    (hc : s.on Rg.SEC_RESULT_BUSY = false) (hx : s.ImgXfer a n) (hn : n ≤ 67108864) (hp : p < 12) (r : Nat)
    (hr : ((s.devRead 15 2 a n).st.reload p (readBytes s.hostMem (a - windowBase) n)).1 = r) :
    ∃ t, exec (.imgReload p) s = .next t ∧ t.fd Rg.IMG_STATUS_LAST_RESULT = r % 256 ∧ t.fd (Rg.IMG_RELOAD_RESULT p) = r % 256 := by
  refine ⟨_, rfl, ?_⟩
  rw [Nat.mod_eq_of_lt (show p < 16 by omega)]
  unfold State.imgReload
  rw [State.imgCmd_runs _ h hb hc]
  have d := State.devRead_window (cls := 2) (State.serving_facts h).2.1 hx.window hx.reached
  have ik := (State.devRead_mask s 15 2 a n).inv i
  have e : ¬ ((!hostAddrOk a || n % 8 ≠ 0 || 67108864 < n) = true) := by
    simp [hostAddrOk, hx.aligned, Nat.not_lt.2 hn, hx.window, hx.low]
  simp only [hx.host, hx.len, if_neg e, d.1, d.2, ne_eq, not_true_eq_false, if_false]
  generalize (s.devRead 15 2 a n).st = u at ik hr
  have ir := (State.reload_keeps (M := 2305843009213693951) (by decide) (.refl _) (s := u) p (readBytes s.hostMem (a - windowBase)
      n)).inv ik
  have er := State.reload_result ik hp (readBytes s.hostMem (a - windowBase) n)
  generalize u.reload p (readBytes s.hostMem (a - windowBase) n) = x at ir er hr
  subst hr
  refine ⟨State.fd_setF_self ir _ _ (Nat.le_of_ble_eq_true rfl), ?_⟩
  exact (State.fd_setF_apart ir _ _ _
      (.inl (by simp only [Rg.IMG_RELOAD_RESULT, Rg.IMG_RELOAD, Rg.IMG_STATUS_LAST_RESULT, Rg.IMG_STATUS]; omega))).trans er

/-! ### SEC commands (R493 to R498, R509) -/

theorem State.secCmd_runs {s : State} (flash : Bool) (act : State → State) (h : s.secServed = true) (b : s.on Rg.SEC_RESULT_BUSY =
    false)
    (c : s.on Rg.IMG_STATUS_BUSY = false) : s.secCmd flash act = act s := by
  simp only [State.secCmd, h, b, c, Bool.not_true, Bool.false_eq_true, if_false, Bool.and_false, Bool.or_self]

theorem State.secLoaded_runs {s : State} (act : State → State) (h : s.secServed = true) (b : s.on Rg.SEC_RESULT_BUSY = false)
    (c : s.on Rg.IMG_STATUS_BUSY = false) (r : s.on Rg.SEC_BOOT_STATUS_MODE = false) : s.secLoaded act = act s := by
  unfold State.secLoaded
  rw [State.secCmd_runs _ _ h b c]
  simp only [State.inRecovery, r, Bool.false_eq_true, if_false]

/-- What a SEC command that ends with result `r` shows (R509). -/
theorem State.secDone_shown {s : State} (i : s.Inv) (r : Nat) : (s.secDone r).fd Rg.SEC_RESULT_RESULT = r % 256 ∧ (s.secDone r).fd
    Rg.SEC_RESULT_DONE = 1 ∧
    ∀ f : RF, f.addr ≠ Rg.SEC_RESULT → (s.secDone r).fd f = s.fd f := by
  unfold State.secDone
  refine ⟨?_, ?_, ?_⟩
  · simp (disch := (first
            | decide | exact Nat.le_of_ble_eq_true rfl | exact RF.apart_bits rfl
            | (refine RF.apart_addr ?_; simp only [Rg.SEC_RESULT_RESULT, Rg.SEC_RESULT, Rg.SEC_RESULT_DONE,
              Rg.SEC_RESULT_COUNT]; omega)
            | (simp only [ne_eq, Rg.SEC_RESULT_RESULT, Rg.SEC_RESULT, Rg.SEC_RESULT_DONE, Rg.SEC_RESULT_COUNT]; omega)
            | simp (maxDischargeDepth := 40) [*])) []
    rfl
  · simp (disch := (first
            | decide | exact Nat.le_of_ble_eq_true rfl | exact RF.apart_bits rfl
            | (refine RF.apart_addr ?_; simp only [Rg.SEC_RESULT_RESULT, Rg.SEC_RESULT, Rg.SEC_RESULT_DONE,
              Rg.SEC_RESULT_COUNT]; omega)
            | (simp only [ne_eq, Rg.SEC_RESULT_RESULT, Rg.SEC_RESULT, Rg.SEC_RESULT_DONE, Rg.SEC_RESULT_COUNT]; omega)
            | simp (maxDischargeDepth := 40) [*])) []
  · intro f hf
    rw [State.fd_incr_apart (by simp (maxDischargeDepth := 40) [*]) _ _ _ (.inl hf), State.fd_raise_apart (by
        simp (maxDischargeDepth := 40) [*]) _ _ (.inl hf), State.fd_setF_apart i _ _ _ (.inl hf)]

theorem State.noteFw_inv {s : State} (i : s.Inv) (k r : Nat) : (s.noteFw k r).Inv := State.wr_inv (State.setF_inv i _ _) _ _

theorem fwReason_addr (k : Nat) : (fwReason k).addr = Rg.SEC_FW_REASON ∧ (fwReason k).w = 8 ∧ (fwReason k).lo + (fwReason k).w ≤
    64 := by
  unfold fwReason; split <;> decide

theorem State.noteFw_reason {s : State} (i : s.Inv) (k r : Nat) : ((s.noteFw k r).noteFwTarget).fd (fwReason k) = r % 256 := by
  have i1 := State.noteFw_inv i k r
  have a := fwReason_addr k
  unfold State.noteFwTarget
  rw [State.fd_setF_apart i1 _ _ _ (.inl (by rw [a.1]; decide))]
  unfold State.noteFw
  rw [State.fd_wr_apart (State.setF_inv i _ _) _ _ _ (by rw [a.1]; simp only [Rg.SEC_FW_REASON, Rg.SEC_FW_SLOT_SEQ]; omega), State.fd_setF_self i _ _ a.2.2, a.2.1]
  rfl

theorem State.setFwSlot_self (s : State) (k : Nat) (m : SMap Byte) : (s.setFwSlot k m).fwSlot k = m := by
  unfold State.setFwSlot State.fwSlot; split <;> rfl

theorem fwErase_spec (s : State) (i : s.Inv) (h : s.secServed = true) (hb : s.on Rg.IMG_STATUS_BUSY = false) (hc : s.on
    Rg.SEC_RESULT_BUSY = false) :
    ∃ t, exec .fwErase s = .next t ∧ t.fwSlot (s.fd Rg.SEC_BOOT_STATUS_FW_TARGET) = [] ∧
      t.fd (fwReason (s.fd Rg.SEC_BOOT_STATUS_FW_TARGET)) = 1 ∧ t.fd Rg.SEC_RESULT_RESULT = 0 ∧ t.fd Rg.SEC_RESULT_DONE = 1 := by
  refine ⟨_, rfl, ?_⟩
  rw [State.secCmd_runs _ _ h hc hb]
  generalize s.fd Rg.SEC_BOOT_STATUS_FW_TARGET = k
  have i1 : (s.setFwSlot k []).Inv := i.of_eq rfl rfl rfl rfl rfl
  have i2 := State.noteFwTarget_inv (State.noteFw_inv i1 k 1)
  have d := State.secDone_shown i2 0
  refine ⟨State.setFwSlot_self s k [], (d.2.2 _ (by rw [(fwReason_addr k).1]; decide)).trans (State.noteFw_reason i1 k 1), d.1,
      d.2.1⟩

theorem State.secServed_facts {s : State} (h : s.secServed = true) : s.phase = .running ∧ s.lrlActive = true ∧ s.warmDue = none :=
    by
  simp only [State.secServed, Bool.and_eq_true, beq_iff_eq, Option.isNone_iff_eq_none] at h
  exact ⟨h.1.1, h.1.2, h.2⟩

theorem State.SecXfer.ok {s : State} {a n : Nat} (h : s.SecXfer a n) : s.secHostOk = true := by
  simp [State.secHostOk, hostAddrOk, h.host, h.aligned, h.window, h.low]

theorem fwWrite_spec (s : State) (i : s.Inv) (a n : Nat) (h : s.secServed = true) (hb : s.on Rg.IMG_STATUS_BUSY = false)
    (hc : s.on Rg.SEC_RESULT_BUSY = false) (hx : s.SecXfer a n) (hn : s.fd Rg.SEC_XFER_LEN_LEN = n) (hn8 : n % 8 = 0)
    (ho : s.fd Rg.SEC_XFER_OFFSET_OFFSET % 8 = 0) (hs : s.fd Rg.SEC_XFER_OFFSET_OFFSET + n ≤ 16777216) :
    ∃ t, exec .fwWrite s = .next t ∧ t.fd Rg.SEC_RESULT_RESULT = 0 ∧ t.fd Rg.SEC_RESULT_DONE = 1 ∧
      t.fwSlot (s.fd Rg.SEC_BOOT_STATUS_FW_TARGET) =
        slotWrite (s.fwSlot (s.fd Rg.SEC_BOOT_STATUS_FW_TARGET)) (s.fd Rg.SEC_XFER_OFFSET_OFFSET) (readBytes s.hostMem (a -
            windowBase) n) := by
  refine ⟨_, rfl, ?_⟩
  rw [State.secCmd_runs _ _ h hc hb]
  unfold State.fwWrite
  have r := State.devRead_window (cls := 2) (State.secServed_facts h).2.1 hx.window hx.reached
  have k := State.devRead_mask s 15 2 a n
  have e : ¬ ((!s.secHostOk || s.fd Rg.SEC_XFER_OFFSET_OFFSET % 8 ≠ 0 || n % 8 ≠ 0 || 16777216 < s.fd Rg.SEC_XFER_OFFSET_OFFSET +
      n) = true) := by
    simp [hx.ok, ho, Nat.not_lt.2 hs, hn8]
  simp only [hx.host, hn, if_neg e, r.1, r.2, ne_eq, not_true_eq_false, if_false]
  have et : (s.devRead 15 2 a n).st.fd Rg.SEC_BOOT_STATUS_FW_TARGET = s.fd Rg.SEC_BOOT_STATUS_FW_TARGET := k.fd i
      Rg.SEC_BOOT_STATUS_FW_TARGET_in (by decide) (by decide)
  have ef : (s.devRead 15 2 a n).st.fwSlot (s.fd Rg.SEC_BOOT_STATUS_FW_TARGET) = s.fwSlot (s.fd Rg.SEC_BOOT_STATUS_FW_TARGET) := by
    unfold State.fwSlot; rw [show (s.devRead 15 2 a n).st.flash = s.flash from k.same .flash (by decide)]
  have ik := k.inv i
  rw [et, ef]
  generalize (s.devRead 15 2 a n).st = u at ik
  generalize slotWrite (s.fwSlot (s.fd Rg.SEC_BOOT_STATUS_FW_TARGET)) (s.fd Rg.SEC_XFER_OFFSET_OFFSET) (readBytes s.hostMem (a -
      windowBase) n) = w
  have i1 : (u.setFwSlot (s.fd Rg.SEC_BOOT_STATUS_FW_TARGET) w).Inv := ik.of_eq rfl rfl rfl rfl rfl
  have d (x : Nat) := State.secDone_shown (State.noteFw_inv i1 (s.fd Rg.SEC_BOOT_STATUS_FW_TARGET) x) 0
  exact ⟨(d _).1, (d _).2.1, State.setFwSlot_self u _ _⟩

theorem fwCommit_spec (s : State) (i : s.Inv) (h : s.secServed = true) (hb : s.on Rg.IMG_STATUS_BUSY = false) (hc : s.on
    Rg.SEC_RESULT_BUSY = false)
    (k r : Nat) (hk : s.fd Rg.SEC_BOOT_STATUS_FW_TARGET = k) (hr : s.fwVerdict k = r) (h8 : r < 256) :
    ∃ t, exec .fwCommit s = .next t ∧ t.fd Rg.SEC_RESULT_RESULT = r ∧ t.fd Rg.SEC_RESULT_DONE = 1 ∧
      t.fd (fwReason k) = (if r = 0 then 0 else 1) ∧ t.fwSlot k = (if r = 0 then s.fwSlot k else []) ∧
      (r = 0 → t.fd Rg.SEC_BOOT_STATUS_IMG_AT_RISK = b2n (s.fwRisk k)) := by
  refine ⟨_, rfl, ?_⟩
  rw [State.secCmd_runs _ _ h hc hb]
  unfold State.fwCommit
  subst hk
  dsimp only
  rw [hr]
  clear hr
  generalize s.fd Rg.SEC_BOOT_STATUS_FW_TARGET = k
  have a := fwReason_addr k
  split
  · subst_vars
    have i2 := State.noteFwTarget_inv (State.noteFw_inv i k 0)
    have e := State.noteFw_reason i k 0
    have ef : ((s.noteFw k 0).noteFwTarget).fwSlot k = s.fwSlot k := rfl
    generalize (s.noteFw k 0).noteFwTarget = u at i2 e ef
    have d := State.secDone_shown (State.setF_inv i2 Rg.SEC_BOOT_STATUS_IMG_AT_RISK (b2n (s.fwRisk k))) 0
    refine ⟨d.1, d.2.1, ?_, ef, ?_⟩
    · rw [d.2.2 _ (by rw [a.1]; decide), State.fd_setF_apart i2 _ _ _ (.inl (by rw [a.1]; decide))]; exact e
    · intro _
      rw [d.2.2 _ (by decide), State.fd_setF_self i2 _ _ (Nat.le_of_ble_eq_true rfl)]
      cases s.fwRisk k <;> rfl
  · rename_i hr
    have i1 : (s.setFwSlot k []).Inv := i.of_eq rfl rfl rfl rfl rfl
    have i2 := State.noteFwTarget_inv (State.noteFw_inv i1 k 1)
    have d := State.secDone_shown i2 r
    refine ⟨d.1.trans (Nat.mod_eq_of_lt h8), d.2.1, (d.2.2 _ (by rw [a.1]; decide)).trans (State.noteFw_reason i1 k 1),
        State.setFwSlot_self s k [], fun h => absurd h hr⟩

theorem State.noteSvn_fuses (s : State) : s.noteSvn.fuses = s.fuses := (State.noteSvn_keeps (M := 70368744177664) (by decide)
    (.refl s)).same .fuses (by decide)

theorem commitSvn_spec (s : State) (i : s.Inv) (w : Nat) (l : Loaded) (h : s.secServed = true) (hb : s.on Rg.IMG_STATUS_BUSY =
    false)
    (hc : s.on Rg.SEC_RESULT_BUSY = false) (hr : s.on Rg.SEC_BOOT_STATUS_MODE = false) (hl : s.loaded = some l) :
    ∃ t, exec (.commitSvn w) s = .next t ∧ t.fd Rg.SEC_RESULT_RESULT = 0 ∧
      t.fuses.imgCtr = (if w % 2 = 1 then max s.fuses.imgCtr (min l.svn 128) else s.fuses.imgCtr) ∧
      t.fuses.fwCtr = (if w % 2 = 1 then s.fuses.fwCtr else max s.fuses.fwCtr (s.fd Rg.SEC_SVN_FW_SVN)) := by
  refine ⟨_, rfl, ?_⟩
  unfold State.commitSvn
  rw [State.secLoaded_runs _ h hc hb hr]
  have key (u : State) (iu : u.Inv) : (u.noteSvn.secDone 0).fd Rg.SEC_RESULT_RESULT = 0 ∧ (u.noteSvn.secDone 0).fuses = u.fuses :=
      by
    have d := State.secDone_shown (State.noteSvn_inv iu) 0
    refine ⟨d.1, ?_⟩
    have e := State.noteSvn_fuses u
    generalize u.noteSvn = v at e
    rw [← e]; simp [State.secDone]
  rw [if_neg (by simp [hl])]
  have k := key { s with fuses := s.svnRaised (w % 2 == 1) } (i.of_eq rfl rfl rfl rfl rfl)
  refine ⟨k.1, ?_, ?_⟩
  · rw [k.2]
    show (s.svnRaised (w % 2 == 1)).imgCtr = _
    unfold State.svnRaised State.imgSvn
    rw [hl]
    by_cases h1 : w % 2 = 1 <;> simp [h1]
  · rw [k.2]
    show (s.svnRaised (w % 2 == 1)).fwCtr = _
    unfold State.svnRaised
    by_cases h1 : w % 2 = 1 <;> simp [h1]

theorem fuseOwner_spec (s : State) (i : s.Inv) (a : Nat) (h : s.secServed = true) (hb : s.on Rg.IMG_STATUS_BUSY = false)
    (hc : s.on Rg.SEC_RESULT_BUSY = false) (hr : s.on Rg.SEC_BOOT_STATUS_MODE = false) (hx : s.SecXfer a 64) (hz : allZero
        s.fuses.ownerHash = true)
    (hd : allZero (readBytes s.hostMem (a - windowBase) 64) = false) :
    ∃ t, exec .fuseOwner s = .next t ∧ t.fuses.ownerHash = readBytes s.hostMem (a - windowBase) 64 ∧ t.fd
        Rg.SEC_BOOT_STATUS_OWNER_FUSED = 1 ∧
      t.fd Rg.SEC_RESULT_RESULT = 0 := by
  refine ⟨_, rfl, ?_⟩
  unfold State.fuseOwner
  rw [State.secLoaded_runs _ h hc hb hr]
  have r := State.devRead_window (cls := 2) (State.secServed_facts h).2.1 hx.window hx.reached
  have ik := (State.devRead_mask s 15 2 a 64).inv i
  simp only [hz, hx.ok, hx.host, r.1, r.2, hd, Bool.not_true, Bool.false_eq_true, if_false, ne_eq, not_true_eq_false]
  generalize (s.devRead 15 2 a 64).st = u at ik
  have iu : ({ u with fuses := { u.fuses with ownerHash := readBytes s.hostMem (a - windowBase) 64 } } : State).Inv := ik.of_eq rfl rfl rfl rfl rfl
  have hf : ({ u with fuses := { u.fuses with ownerHash := readBytes s.hostMem (a - windowBase) 64 } } : State).fuses.ownerHash = readBytes s.hostMem (a - windowBase) 64 := rfl
  generalize ({ u with fuses := { u.fuses with ownerHash := readBytes s.hostMem (a - windowBase) 64 } } : State) = v at iu hf
  have d := State.secDone_shown (State.raise_inv iu Rg.SEC_BOOT_STATUS_OWNER_FUSED) 0
  refine ⟨?_, ?_, d.1⟩
  · simpa [State.secDone] using hf
  · rw [d.2.2 _ (by decide)]; exact State.fd_raise_self iu _ (by decide) (by decide)

theorem attest_spec (s : State) (i : s.Inv) (w p a : Nat) (h : s.secServed = true) (hb : s.on Rg.IMG_STATUS_BUSY = false)
    (hc : s.on Rg.SEC_RESULT_BUSY = false) (hr : s.on Rg.SEC_BOOT_STATUS_MODE = false) (hw : w % 16 = p) (hp : p = 15 ∨ s.defined
        p = true)
    (b : Bytes) (hn : s.attReport (if p = 15 then 0xFF else p) ((List.range 4).flatMap fun k => toLe 8 (s.rd (Rg.SEC_ATT_NONCE
        k)).toNat) = b)
    (hx : s.SecXfer a b.length) :
    ∃ t, exec (.attest w) s = .next t ∧ t.hostMem = putBytes s.hostMem (a - windowBase) b ∧ t.fd Rg.SEC_RESULT_RESULT = 0 := by
  refine ⟨_, rfl, ?_⟩
  unfold State.attest
  rw [State.secLoaded_runs _ h hc hb hr]
  have g : ¬ ((((p ≠ 15 && !s.defined p) || !s.secHostOk)) = true) := by
    rcases hp with rfl | hp
    · simp [hx.ok]
    · simp [hx.ok, hp]
  simp only [hw, if_neg g, hn, hx.host]
  have r := State.devWrite_window (s := s) (tag := 15) (cls := 2) (State.secServed_facts h).2.1 hx.window hx.reached
  have ik := (State.devWrite_mask s 15 2 a b).inv i
  rw [r.1]
  have e := r.2
  generalize (s.devWrite 15 2 a b).st = u at ik e
  have d := State.secDone_shown (State.freeNext_inv ik) 0
  refine ⟨?_, d.1⟩
  rw [← e]; simp [State.secDone]

theorem idcert_spec (s : State) (i : s.Inv) (a : Nat) (h : s.secServed = true) (hb : s.on Rg.IMG_STATUS_BUSY = false)
    (hc : s.on Rg.SEC_RESULT_BUSY = false) (hx : s.SecXfer a s.flash.cert.length) :
    ∃ t, exec .idcert s = .next t ∧ t.hostMem = putBytes s.hostMem (a - windowBase) s.flash.cert ∧ t.fd Rg.SEC_RESULT_RESULT = 0
        := by
  refine ⟨_, rfl, ?_⟩
  unfold State.idcert
  rw [State.secCmd_runs _ _ h hc hb]
  have r := State.devWrite_window (s := s) (tag := 15) (cls := 2) (State.secServed_facts h).2.1 hx.window hx.reached
  have ik := (State.devWrite_mask s 15 2 a s.flash.cert).inv i
  simp only [hx.ok, hx.host, r.1, Bool.not_true, Bool.false_eq_true, if_false, if_true]
  have e := r.2
  generalize (s.devWrite 15 2 a s.flash.cert).st = u at ik e
  have d := State.secDone_shown ik 0
  refine ⟨?_, d.1⟩
  rw [← e]; simp [State.secDone]

/-! ### Runtimes (R502, R504 to R506, R510) -/

theorem State.noteRunning_same (s : State) (p : Nat) : (s.noteRunning p).ctl = s.ctl := rfl

theorem partStart_spec (s : State) (i : s.Inv) (p n : Nat) (hd : s.defined p = true) (hr : s.on (Rg.SEC_PART_CTRL_RUNNING p) =
    false)
    (hp : s.phase = .running) (h2 : s.pstate p < 2) (hh : s.on (Rg.FLT_PART_HELD p) = false) (hn : (s.ctlOf p).head? = some n) :
    ∃ t, exec (.partStart p) s = .next t ∧ (t.part p).started = true ∧ (t.part p).shut = false ∧ t.pstate p = 1 ∧
      t.ctlCore n = ⟨true, 1, (s.rd (Rg.SEC_PART_ENTRY p)).toNat, n, p, 0, s.now, 0⟩ := by
  refine ⟨_, rfl, ?_⟩
  unfold State.partStart
  rw [if_neg (by simp [hd, hr, hp])]
  extract_lets s1
  have i0 : (s.modPart p fun q => { q with started := true, shut := false }).Inv := State.modPart_inv i _ _
  have i1 : s1.Inv := State.raise_inv i0 _
  have e1 : (s1.part p).started = true ∧ (s1.part p).shut = false := by
    simp only [s1, State.raise_part, State.part_modPart_self, and_self]
  have ep : s1.pstate p = s.pstate p :=
    (State.fd_raise_apart i0 _ _
        (.inl (by simp only [Rg.FLT_PART_STATE, Rg.FLT_PART, Rg.SEC_PART_CTRL_START, Rg.SEC_PART_CTRL]; omega))).trans
        (State.modPart_fd ..)
  have eh : s1.on (Rg.FLT_PART_HELD p) = false := by
    rw [← hh]
    unfold State.on
    rw [show s1.fd (Rg.FLT_PART_HELD p) = s.fd (Rg.FLT_PART_HELD p) from
      (State.fd_raise_apart i0 _ _
          (.inl (by simp only [Rg.FLT_PART_HELD, Rg.FLT_PART, Rg.SEC_PART_CTRL_START, Rg.SEC_PART_CTRL]; omega))).trans
          (State.modPart_fd ..)]
  have ee : s1.rd (Rg.SEC_PART_ENTRY p) = s.rd (Rg.SEC_PART_ENTRY p) :=
    (State.rd_raise_ne i0 (by simp only [Rg.SEC_PART_ENTRY, Rg.SEC_PART_CTRL_START, Rg.SEC_PART_CTRL]; omega)).trans (State.modPart_rd ..)
  have ec : s1.ctlOf p = s.ctlOf p := by
    have e : (s1.part p).cfg = (s.part p).cfg := by simp only [s1, State.raise_part, State.part_modPart_self]
    unfold State.ctlOf State.cfg State.cfgB
    rw [e]
  have en : s1.now = s.now := (State.raise_now ..).trans (State.modPart_now ..)
  clear_value s1
  rw [if_pos (by simp [ep, h2, State.mayStart, e1.1, e1.2, eh])]
  unfold State.startRuntime
  extract_lets s2
  have c2 : s2.ctlOf p = s1.ctlOf p := by
    unfold State.ctlOf State.cfg State.cfgB
    rw [show (s2.part p).cfg = (s1.part p).cfg from congrArg Part.cfg (State.setF_part ..)]
  have i2 : s2.Inv := State.setF_inv i1 _ _
  have e2 : s2.pstate p = 1 := State.setF_pstate i1 p 1 (by decide)
  have r2 : s2.rd (Rg.SEC_PART_ENTRY p) = s1.rd (Rg.SEC_PART_ENTRY p) :=
    State.rd_setF_ne i1 _ (by simp only [Rg.SEC_PART_ENTRY, Rg.FLT_PART_STATE, Rg.FLT_PART]; omega)
  have p2 : s2.part p = s1.part p := State.setF_part ..
  have n2 : s2.now = s1.now := State.setF_now ..
  clear_value s2
  rw [c2, ec, hn]
  dsimp only
  have j : (s2.modCtl n fun _ => (⟨true, 1, (s2.rd (Rg.SEC_PART_ENTRY p)).toNat, n, p, 0, s2.now, 0⟩ : CtlCore)).Inv :=
      State.modCtl_inv i2 _ _
  have c : (s2.modCtl n fun _ => (⟨true, 1, (s2.rd (Rg.SEC_PART_ENTRY p)).toNat, n, p, 0, s2.now, 0⟩ : CtlCore)).ctlCore n =
      ⟨true, 1, (s.rd (Rg.SEC_PART_ENTRY p)).toNat, n, p, 0, s.now, 0⟩ := by
    rw [State.ctlCore_modCtl, if_pos rfl, r2, ee, n2, en]
  have pt : (s2.modCtl n fun _ => (⟨true, 1, (s2.rd (Rg.SEC_PART_ENTRY p)).toNat, n, p, 0, s2.now, 0⟩ : CtlCore)).part p = s1.part
      p :=
    (State.modCtl_part ..).trans p2
  have st : (s2.modCtl n fun _ => (⟨true, 1, (s2.rd (Rg.SEC_PART_ENTRY p)).toNat, n, p, 0, s2.now, 0⟩ : CtlCore)).pstate p = 1 :=
    (State.modCtl_fd ..).trans e2
  generalize (s2.modCtl n fun _ => (⟨true, 1, (s2.rd (Rg.SEC_PART_ENTRY p)).toNat, n, p, 0, s2.now, 0⟩ : CtlCore)) = u at j c pt st
  have k := State.noteRunning_keeps (M := 70368744177664) (by decide) (.refl u) p
  refine ⟨?_, ?_, (k.fd j (Rg.FLT_PART_STATE_in p) (by decide) (by decide)).trans st, ?_⟩
  · rw [← e1.1, ← pt]; exact congrArg Part.started (State.setF_part ..)
  · rw [← e1.2, ← pt]; exact congrArg Part.shut (State.setF_part ..)
  · rw [← c]; exact State.setF_ctlCore ..

theorem State.Calls.eq {s : State} {n p : Nat} (h : s.Calls n p) (act : State → Nat → State) : s.sbi n act = act s p := by
  simp [State.sbi, h.owner, h.runs, h.phase]

theorem State.sbiRet_self (s : State) (n e a b : Nat) : (s.sbiRet n e a b).ctlCore n = { s.ctlCore n with a0 := e, a1 := a, a2 := b } := by
  unfold State.sbiRet
  rw [State.ctlCore_modCtl, if_pos rfl]

theorem sbiInfo_spec (s : State) (n p : Nat) (h : s.Calls n p) :
    ∃ t, exec (.sbiInfo n) s = .next t ∧ t.ctlCore n = { s.ctlCore n with a0 := 0, a1 := p, a2 := s.fwVersion } :=
  ⟨_, rfl, by rw [h.eq]; exact State.sbiRet_self ..⟩

theorem sbiReloadStatus_spec (s : State) (n p : Nat) (h : s.Calls n p) :
    ∃ t, exec (.sbiReloadStatus n) s = .next t ∧ 
      t.ctlCore n = { s.ctlCore n with a0 := 0, a1 := (s.rd (Rg.IMG_RELOAD p)).toNat, a2 := 0 } :=
  ⟨_, rfl, by rw [h.eq]; exact State.sbiRet_self ..⟩

theorem sbiFaultInfo_spec (s : State) (n p : Nat) (h : s.Calls n p) :
    ∃ t, exec (.sbiFaultInfo n) s = .next t ∧
      t.ctlCore n = { s.ctlCore n with a0 := 0, a1 := s.fd (Rg.FLT_PART_CAUSE p), a2 := s.fd (Rg.FLT_PART_FAULT_ID p) } :=
  ⟨_, rfl, by rw [h.eq]; exact State.sbiRet_self ..⟩

theorem sbiReload_spec (s : State) (i : s.Inv) (n p : Nat) (a len : W64) (h : s.Calls n p) (r : Nat) :
    ∃ t, exec (.sbiReload n a len) s = .next t ∧
      (s.badPoint p a.toNat len.toNat ≠ none → (t.ctlCore n).a0 = sbiAddress) ∧
      (s.badPoint p a.toNat len.toNat = none → (s.devRead p 0 a.toNat len.toNat).code = 0 →
        ((s.devRead p 0 a.toNat len.toNat).st.reload p (s.devRead p 0 a.toNat len.toNat).data).1 = r →
        (t.ctlCore n).a0 = 0 ∧ (t.ctlCore n).a1 = r ∧ t.fd (Rg.IMG_RELOAD_RESULT p) = r % 256) := by
  refine ⟨_, rfl, ?_⟩
  unfold State.sbiReload
  rw [h.eq]
  constructor
  · intro hb
    rw [if_pos (by cases e : s.badPoint p a.toNat len.toNat <;> simp_all), State.sbiRet_self]
  · intro hb hc hr
    simp only [hb, Option.isSome_none, Bool.false_eq_true, if_false, hc, ne_eq, not_true_eq_false]
    rw [State.sbiRet_self, hr]
    refine ⟨rfl, rfl, ?_⟩
    rw [← hr]
    exact (State.fd_of_regs rfl _).trans (State.reload_result ((State.devRead_mask ..).inv i) (State.ctlOwner_lt h.owner) _)

theorem sbiAttest_spec (s : State) (n p : Nat) (nc dst : W64) (h : s.Calls n p) :
    ∃ t, exec (.sbiAttest n nc dst) s = .next t ∧
      (s.badPoint p nc.toNat 32 ≠ none ∨ s.badPoint p dst.toNat 516 ≠ none → (t.ctlCore n).a0 = sbiAddress) ∧
      (s.badPoint p nc.toNat 32 = none → s.badPoint p dst.toNat 516 = none → (s.devRead p 0 nc.toNat 32).code = 0 →
        t.mem = ((s.devRead p 0 nc.toNat 32).st.devWrite p 1 dst.toNat
          ((s.devRead p 0 nc.toNat 32).st.attReport p (s.devRead p 0 nc.toNat 32).data)).st.mem ∧
        (t.ctlCore n).a0 = 0) := by
  refine ⟨_, rfl, ?_⟩
  unfold State.sbiAttest
  rw [h.eq]
  constructor
  · intro hb
    rw [if_pos (by
      cases e : s.badPoint p nc.toNat 32 <;> cases e' : s.badPoint p dst.toNat 516 <;> simp_all), State.sbiRet_self]
  · intro hb hc hr
    simp only [hb, hc, Option.isSome_none, Bool.or_self, Bool.false_eq_true, if_false, hr, ne_eq, not_true_eq_false]
    rw [State.sbiRet_self]
    refine ⟨?_, rfl⟩
    simp only [State.sbiRet, State.modCtl_mem, State.freeNext_mem]

theorem sbiJobFault_spec (s : State) (i : s.Inv) (n p : Nat) (c : W64) (h : s.Calls n p) (h2 : s.pstate p < 2) :
    ∃ t, exec (.sbiJobFault n c) s = .next t ∧
      (c.toNat = 0x20 ∨ c.toNat = 0x30 → FaultShown s t p c.toNat) ∧
      (c.toNat ≠ 0x20 ∧ c.toNat ≠ 0x30 → t.ctlCore n = { s.ctlCore n with a0 := sbiParam, a1 := 0, a2 := 0 }) := by
  refine ⟨_, rfl, ?_⟩
  unfold State.sbiJobFault
  rw [h.eq]
  constructor
  · intro hc
    rw [if_pos (by rcases hc with hc | hc <;> simp [hc])]
    exact State.jobFaultAs_shown i (State.ctlOwner_lt h.owner) (State.ctlOwner_defined h.owner) h2 1 c.toNat 0
  · intro hc
    rw [if_neg (by simp [hc])]
    exact State.sbiRet_self ..

theorem sbiSrst_spec (s : State) (i : s.Inv) (n p k : Nat) (h : s.Calls n p) (h2 : s.pstate p < 2) :
    ∃ t, exec (.sbiSrst n k) s = .next t ∧
      (k = 0 → (t.part p).shut = true ∧ ∀ m ∈ s.ctlOf p, (t.ctlCore m).running = false) ∧
      (k = 1 ∨ k = 2 → t.pstate p = 3 ∧ (t.part p).why = 3 ∧ (t.part p).resetDone = false) ∧
      (2 < k → t.ctlCore n = { s.ctlCore n with a0 := sbiParam, a1 := 0, a2 := 0 }) := by
  refine ⟨_, rfl, ?_⟩
  unfold State.sbiSrst
  rw [h.eq]
  refine ⟨?_, ?_, ?_⟩
  · rintro rfl
    rw [if_pos rfl]
    refine ⟨by rw [State.part_modPart_self], ?_⟩
    intro m hm
    have main : ((s.ctlOf p).foldl (fun s n => s.modCtl n fun _ => CtlCore.init) s).ctlCore m = CtlCore.init := by
      refine foldl_at (J := fun _ => True) (P := fun u => u.ctlCore m = CtlCore.init) hm (fun _ _ _ => trivial) ?_ ?_ trivial
      · intro u _
        rw [State.ctlCore_modCtl, if_pos rfl]
      · intro u b _ hu
        rw [State.ctlCore_modCtl]
        split
        · rfl
        · exact hu
    have e : (((s.stopCores p).modPart p fun q => { q with shut := true }).ctlCore m) = CtlCore.init := main
    rw [e]; rfl
  · intro hk
    rw [if_neg (by omega), if_pos (by omega)]
    unfold State.askReset State.startReset
    rw [if_pos (by simp [State.ctlOwner_defined h.owner, h2])]
    refine ⟨?_, ?_, ?_⟩
    · exact State.setF_pstate (by simp (maxDischargeDepth := 40) [*]) p 3 (by decide)
    · simp [State.modPart, State.part_setPart]
    · simp [State.modPart, State.part_setPart]
  · intro hk
    rw [if_neg (by omega), if_neg (by omega)]
    exact State.sbiRet_self ..

theorem sbiHsmHartStart_spec (s : State) (n p m : Nat) (a x : W64) (h : s.Calls n p) (hm : s.ctlOwner m = some p)
    (hr : (s.ctlCore m).running = false) (hb : s.badPoint p a.toNat 4 = none) :
    ∃ t, exec (.sbiHsmHartStart n m a x) s = .next t ∧ t.ctlCore m = ⟨true, 1, a.toNat, m, x.toNat, 0, s.now, 0⟩ ∧ (t.ctlCore
        n).a0 = 0 := by
  have hne : m ≠ n := by rintro rfl; rw [h.runs] at hr; cases hr
  refine ⟨_, rfl, ?_⟩
  unfold State.hartStart
  rw [h.eq]
  simp only [hm, hr, hb, ne_eq, not_true_eq_false, if_false, Bool.false_eq_true, Option.isSome_none]
  refine ⟨?_, by rw [State.sbiRet_self]⟩
  unfold State.sbiRet
  rw [State.ctlCore_modCtl, if_neg hne]
  show ((s.modCtl m fun _ => (⟨true, 1, a.toNat, m, x.toNat, 0, s.now, 0⟩ : CtlCore)).ctlCore m) = _
  rw [State.ctlCore_modCtl, if_pos rfl]

theorem hartStop_spec (s : State) (i : s.Inv) (n p : Nat) (h : s.Calls n p) :
    ∃ t, exec (.hartStop n) s = .next t ∧ (t.ctlCore n).running = false ∧
      t.fd (Rg.SEC_PART_CTRL_RUNNING p) = b2n ((s.ctlOf p).any fun m => m != n && (s.ctlCore m).running) := by
  refine ⟨_, rfl, ?_⟩
  rw [h.eq]
  constructor
  · show ((s.modCtl n fun c => { c with running := false }).ctlCore n).running = _
    rw [State.ctlCore_modCtl, if_pos rfl]
  · have i1 : (s.modCtl n fun c => { c with running := false }).Inv := State.modCtl_inv i _ _
    refine (State.fd_setF_self i1 _ _ (Nat.le_of_ble_eq_true rfl)).trans ?_
    have e : ((s.modCtl n fun c => { c with running := false }).ctlOf p).any (fun m => ((s.modCtl n fun c => { c with running := false }).ctlCore m).running) =
        (s.ctlOf p).any fun m => m != n && (s.ctlCore m).running := by
      show (s.ctlOf p).any _ = _
      congr 1
      funext m
      rw [State.ctlCore_modCtl]
      by_cases hm : m = n
      · subst hm; simp
      · simp [hm]
    rw [e]
    cases (s.ctlOf p).any fun m => m != n && (s.ctlCore m).running <;> rfl

theorem cciWdogPet_spec (s : State) (n : Nat) :
    ∃ t, exec (.cciWdogPet n) s = .next t ∧ t.ctlCore n = { s.ctlCore n with wdogAt := s.now } :=
  ⟨_, rfl, by unfold State.petDog; rw [State.ctlCore_modCtl, if_pos rfl]⟩

end Sys2Proof.Machine
end

