-- ==== Sys2Proof/Laws/EffLarric.lean ====
section
/-!
SUPPORT. What the commands of the Larric Link do (14_larric_link.md R462 to R480).
-/
namespace Sys2Proof.Machine

theorem State.modLrl_larric (s : State) (f : LarricSt → LarricSt) : (s.modLrl f).larric = f s.larric := rfl
theorem State.setLrl_inv {s : State} (i : s.Inv) (n : Nat) : (s.setLrl n).Inv := State.setF_inv i _ _
theorem State.setLrl_state {s : State} (i : s.Inv) (n : Nat) : (s.setLrl n).fd Rg.LRL_STATUS_STATE = n % 8 := State.fd_setF_self i
    _ _ (Nat.le_of_ble_eq_true rfl)

/-! ### Training (R462) -/

theorem linkDetect_spec (s : State) (i : s.Inv) (hp : s.phase = .running) (h0 : s.fd Rg.LRL_STATUS_STATE = 0) (hw : s.warmDue =
    none)
    (hb : 6 ≤ s.fd Rg.SEC_BOOT_STATUS_STAGE ∨ s.fd Rg.SEC_BOOT_STATUS_MODE = 1) :
    ∃ t, exec .linkDetect s = .next t ∧ t.fd Rg.LRL_STATUS_STATE = 1 ∧ t.larric.downAt = none ∧ s.now ≤ t.now := by
  refine ⟨_, rfl, ?_⟩
  unfold State.linkDetect
  rw [if_neg (by
    rcases hb with hb | hb
    · simp [hp, State.lrlState, h0, hw, Nat.not_lt.2 hb]
    · simp [hp, State.lrlState, h0, hw, State.on, hb])]
  have key (u : State) (iu : u.Inv) (hn : s.now ≤ u.now) : ((u.setLrl 1).modLrl fun l => { l with downAt := none }).fd Rg.LRL_STATUS_STATE = 1 ∧
      ((u.setLrl 1).modLrl fun l => { l with downAt := none }).larric.downAt = none ∧ s.now ≤ ((u.setLrl 1).modLrl fun l => { l with downAt := none }).now :=
    ⟨(State.modLrl_fd ..).trans (State.setLrl_state iu 1), rfl, hn⟩
  dsimp only
  split
  · exact key _ (State.passTo_inv i _) (by simp only [State.passTo, State.pass]; omega)
  · exact key s i (Nat.le_refl _)

theorem linkPartnerSeen_spec (s : State) (i : s.Inv) (n : Nat) (h1 : s.fd Rg.LRL_STATUS_STATE = 1) (hn : 4 ≤ n) :
    ∃ t, exec (.linkPartnerSeen n) s = .next t ∧ t.fd Rg.LRL_STATUS_STATE = 2 ∧ t.larric.trainAt = s.now := by
  refine ⟨_, rfl, ?_⟩
  rw [if_pos (by simp [State.lrlState, h1, hn])]
  exact ⟨(State.modLrl_fd ..).trans (State.setLrl_state i 2), rfl⟩

theorem State.trainFailed_shown {s : State} (i : s.Inv) : s.trainFailed.fd Rg.LRL_STATUS_STATE = 0 ∧
    s.trainFailed.fd Rg.LRL_STATUS_TRAIN_FAILS = min (s.fd Rg.LRL_STATUS_TRAIN_FAILS + 1) 255 ∧ s.trainFailed.larric.downAt = some
        s.now := by
  have i1 := State.setLrl_inv i 0
  unfold State.trainFailed
  refine ⟨?_, ?_, ?_⟩
  · rw [State.modLrl_fd, State.fd_bump_apart i1 _ _ _ (RF.apart_bits rfl), State.setLrl_state i 0]
  · rw [State.modLrl_fd, State.fd_bump_self i1 _ _ (Nat.le_of_ble_eq_true rfl)]
    unfold State.setLrl
    rw [State.fd_setF_apart i _ _ _ (RF.apart_bits rfl)]
    rfl
  · rfl

theorem linkLanesLock_spec (s : State) (i : s.Inv) (n : Nat) (h2 : s.fd Rg.LRL_STATUS_STATE = 2) :
    ∃ t, exec (.linkLanesLock n) s = .next t ∧ t.fd Rg.LRL_STATUS_LANES_FAILED = 255 - n % 256 ∧
      (∀ w, s.widthOf n = some w → t.fd Rg.LRL_STATUS_STATE = 3 ∧ t.fd Rg.LRL_STATUS_WIDTH = w) ∧
      (s.widthOf n = none → t.fd Rg.LRL_STATUS_STATE = 0 ∧ t.fd Rg.LRL_STATUS_TRAIN_FAILS = min (s.fd Rg.LRL_STATUS_TRAIN_FAILS +
          1) 255) := by
  have hlf : (255 - n % 256) % 2 ^ 8 = 255 - n % 256 := by omega
  refine ⟨_, rfl, ?_⟩
  unfold State.lanesLock
  rw [if_neg (by simp [State.lrlState, h2])]
  cases hw : s.widthOf n with
  | some w =>
    have w16 : w < 16 := by
      unfold State.widthOf at hw
      split at hw
      · cases hw; decide
      · split at hw
        · cases hw; decide
        · cases hw
    dsimp only
    have i1 := State.setLrl_inv i 3
    refine ⟨?_, ?_, fun h => (by cases h)⟩
    · rw [State.fd_setF_self (State.setF_inv i1 _ _) _ _ (Nat.le_of_ble_eq_true rfl)]; exact hlf
    · intro v hv
      cases hv
      constructor
      · rw [State.fd_setF_apart (State.setF_inv i1 _ _) _ _ _ (RF.apart_bits rfl), State.fd_setF_apart i1 _ _ _ (RF.apart_bits
            rfl), State.setLrl_state i 3]
      · rw [State.fd_setF_apart (State.setF_inv i1 _ _) _ _ _ (RF.apart_bits rfl), State.fd_setF_self i1 _ _
            (Nat.le_of_ble_eq_true rfl)]
        exact Nat.mod_eq_of_lt w16
  | none =>
    dsimp only
    have i1 : (s.setF Rg.LRL_STATUS_LANES_FAILED (255 - n % 256)).Inv := State.setF_inv i _ _
    have d := State.trainFailed_shown i1
    refine ⟨?_, fun w h => (by cases h), fun _ => ⟨d.1, ?_⟩⟩
    · unfold State.trainFailed
      rw [State.modLrl_fd, State.fd_bump_apart (State.setLrl_inv i1 0) _ _ _ (RF.apart_bits rfl)]
      unfold State.setLrl
      rw [State.fd_setF_apart i1 _ _ _ (RF.apart_bits rfl), State.fd_setF_self i _ _ (Nat.le_of_ble_eq_true rfl)]
      exact hlf
    · rw [d.2.1, State.fd_setF_apart i _ _ _ (RF.apart_bits rfl)]

theorem linkTrainTimeout_spec (s : State) (i : s.Inv) (h2 : s.fd Rg.LRL_STATUS_STATE = 2) :
    ∃ t, exec .linkTrainTimeout s = .next t ∧ t.fd Rg.LRL_STATUS_STATE = 0 ∧
      t.fd Rg.LRL_STATUS_TRAIN_FAILS = min (s.fd Rg.LRL_STATUS_TRAIN_FAILS + 1) 255 := by
  refine ⟨_, rfl, ?_⟩
  rw [if_pos (show s.lrlState = 2 from h2)]
  have key (d : Nat) : (s.passTo d).trainFailed.fd Rg.LRL_STATUS_STATE = 0 ∧
      (s.passTo d).trainFailed.fd Rg.LRL_STATUS_TRAIN_FAILS = min (s.fd Rg.LRL_STATUS_TRAIN_FAILS + 1) 255 := by
    have h := State.trainFailed_shown (State.passTo_inv i d)
    exact ⟨h.1, h.2.1⟩
  exact key _

theorem linkConfigDone_spec (s : State) (i : s.Inv) (c : List Nat) (h3 : s.fd Rg.LRL_STATUS_STATE = 3) (hl : c.length = 4) (h8 : ∀
    n ∈ c, 8 ≤ n) :
    ∃ t, exec (.linkConfigDone c) s = .next t ∧ t.fd Rg.LRL_STATUS_STATE = 4 ∧ t.larric.txSeq = 0 ∧ t.larric.rxSeq = 0 ∧
      t.larric.credInit = c ∧ t.larric.credUsed = [] ∧ t.larric.replay = [] := by
  refine ⟨_, rfl, ?_⟩
  unfold State.configDone
  rw [if_neg]
  · exact ⟨(State.modLrl_fd ..).trans (State.setLrl_state i 4), rfl, rfl, rfl, rfl, rfl⟩
  · simp only [State.lrlState, h3, hl, ne_eq, not_true_eq_false, decide_false, Bool.false_or, List.any_eq_true, decide_eq_true_eq,
        not_exists, not_and]
    intro x hx
    have := h8 x hx
    omega

theorem State.foldl_innkeeper_inv {s : State} (i : s.Inv) (l : List OutRead) :
    (l.foldl (fun s o => s.innkeeperReadFails (windowBase + o.addr)) s).Inv := by
  induction l generalizing s with
  | nil => exact i
  | cons o l ih =>
    refine ih ?_
    have k {v : State} (j : v.Inv) (b : Bool) (r : RF) (n : Nat) : (if b = true then v.setF r n else v).Inv := by
      cases b
      · exact j
      · exact State.setF_inv j _ _
    exact k (k (k i _ _ _) _ _ _) _ _ _

theorem State.linkLoss_shown {s : State} (i : s.Inv) : s.linkLoss.fd Rg.LRL_STATUS_STATE = 0 ∧ s.linkLoss.fd Rg.LRL_STATUS_WIDTH =
    0 ∧
    s.linkLoss.fd Rg.LRL_EVENTS_DOWNS = min (s.fd Rg.LRL_EVENTS_DOWNS + 1) 65535 := by
  unfold State.linkLoss
  extract_lets own u s1 s2
  have ku : s.Keeps 576566305419689984 u := keeps_foldl _ (.refl s) fun v o hv => State.innkeeperReadFails_keeps (by decide) hv _
  have iu : u.Inv := State.foldl_innkeeper_inv i _
  have eu : u.fd Rg.LRL_EVENTS_DOWNS = s.fd Rg.LRL_EVENTS_DOWNS := ku.fd i Rg.LRL_EVENTS_DOWNS_in (by decide) (by decide)
  clear_value u
  rw [← eu]
  have i0 := State.setLrl_inv iu 0
  have i0' : ((u.setLrl 0).setF Rg.LRL_STATUS_WIDTH 0).Inv := State.setF_inv i0 _ _
  have ib : (((u.setLrl 0).setF Rg.LRL_STATUS_WIDTH 0).bump Rg.LRL_EVENTS_DOWNS).Inv := State.bump_inv i0' _ _
  have i1 : s1.Inv := State.fltAdd_inv ib _ _ _ _ _ _ _
  have i2 : s2.Inv := State.modLrl_inv i1 _
  have f (r : RF) (hr : RegBlock.lrl.has r.addr) : s2.fd r = (((u.setLrl 0).setF Rg.LRL_STATUS_WIDTH 0).bump
      Rg.LRL_EVENTS_DOWNS).fd r :=
    (State.modLrl_fd ..).trans ((State.fltAdd_keeps (M := 140737488371712) (by decide) (.refl _) _ _ _ _ _ _ _).fd ib hr (by
        decide) (by decide))
  have k : s2.Keeps 800694037971988487 (allParts.foldl (fun s p => if own.contains p = true then s.jobFault p stUncorr else s) s2)
      :=
    keeps_foldl _ (.refl s2) fun u p hu => keeps_ite (State.jobFault_keeps (by decide) hu p _) hu
  have g (r : RF) (hr : RegBlock.lrl.has r.addr) := (k.fd i2 hr (by decide) (by decide)).trans (f r hr)
  refine ⟨?_, ?_, ?_⟩
  · rw [g _ Rg.LRL_STATUS_STATE_in, State.fd_bump_apart i0' _ _ _ (RF.apart_addr (by decide)), State.fd_setF_apart i0 _ _ _
        (RF.apart_bits rfl), State.setLrl_state iu 0]
  · rw [g _ Rg.LRL_STATUS_WIDTH_in, State.fd_bump_apart i0' _ _ _ (RF.apart_addr (by decide)), State.fd_setF_self i0 _ _ (Nat.le_of_ble_eq_true rfl)]; rfl
  · rw [g _ Rg.LRL_EVENTS_DOWNS_in, State.fd_bump_self i0' _ _ (Nat.le_of_ble_eq_true rfl), State.fd_setF_apart i0 _ _ _
        (RF.apart_addr (by decide))]
    unfold State.setLrl
    rw [State.fd_setF_apart iu _ _ _ (RF.apart_addr (by decide))]
    rfl

theorem linkRetrainRelock_spec (s : State) (i : s.Inv) (n : Nat) (h5 : s.fd Rg.LRL_STATUS_STATE = 5) :
    ∃ t, exec (.linkRetrainRelock n) s = .next t ∧
      (∀ w, s.widthOf n = some w → t.fd Rg.LRL_STATUS_STATE = 4 ∧ t.fd Rg.LRL_STATUS_WIDTH = min w (s.fd Rg.LRL_STATUS_WIDTH) ∧
          t.larric.resend = 0 ∧
        t.larric.replay = s.larric.replay) ∧
      (s.widthOf n = none → s.larric.attempts < 2 → t.fd Rg.LRL_STATUS_STATE = 5 ∧ t.larric.attempts = s.larric.attempts + 1) ∧
      (s.widthOf n = none → 2 ≤ s.larric.attempts → t.fd Rg.LRL_STATUS_STATE = 0 ∧ t.fd Rg.LRL_EVENTS_DOWNS = min (s.fd
          Rg.LRL_EVENTS_DOWNS + 1) 65535) := by
  refine ⟨_, rfl, ?_⟩
  unfold State.relock
  rw [if_neg (by simp [State.lrlState, h5])]
  cases hw : s.widthOf n with
  | some w =>
    refine ⟨?_, fun h => (by cases h), fun h => (by cases h)⟩
    intro v hv
    cases hv
    dsimp only
    have i1 := State.setLrl_inv i 4
    rw [State.modLrl_fd, State.modLrl_fd, State.fd_setF_apart (State.setF_inv i1 _ _) _ _ _ (RF.apart_bits rfl),
        State.fd_setF_apart i1 _ _ _ (RF.apart_bits rfl), State.setLrl_state i 4,
      State.fd_setF_apart (State.setF_inv i1 _ _) _ _ _ (RF.apart_bits rfl), State.fd_setF_self i1 _ _ (Nat.le_of_ble_eq_true rfl)]
    have := s.fd_lt Rg.LRL_STATUS_WIDTH
    have hlt : s.fd Rg.LRL_STATUS_WIDTH < 2 ^ 4 := this
    refine ⟨rfl, Nat.mod_eq_of_lt (Nat.lt_of_le_of_lt (Nat.min_le_right _ _) hlt), rfl, ?_⟩
    simp [State.modLrl_larric, State.setLrl]
  | none =>
    refine ⟨fun w h => (by cases h), fun _ ha => ?_, fun _ ha => ?_⟩
    · dsimp only
      rw [if_neg (by simp only [State.modLrl_larric, State.setF_larric]; omega), State.modLrl_fd, State.fd_setF_apart i _ _ _ (RF.apart_bits rfl), h5]
      exact ⟨rfl, by simp only [State.modLrl_larric, State.setF_larric]⟩
    · dsimp only
      rw [if_pos (by simp only [State.modLrl_larric, State.setF_larric]; omega)]
      have i1 : ((s.setF Rg.LRL_STATUS_LANES_FAILED (255 - n % 256)).modLrl fun l => { l with attempts := l.attempts + 1 }).Inv := State.modLrl_inv (State.setF_inv i _ _) _
      have h := State.linkLoss_shown i1
      refine ⟨h.1, ?_⟩
      rw [h.2.2, State.modLrl_fd, State.fd_setF_apart i _ _ _ (RF.apart_addr (by decide))]

theorem linkRetrainTimeout_spec (s : State) (i : s.Inv) (h5 : s.fd Rg.LRL_STATUS_STATE = 5) :
    ∃ t, exec .linkRetrainTimeout s = .next t ∧ t.fd Rg.LRL_STATUS_STATE = 0 ∧ t.fd Rg.LRL_STATUS_WIDTH = 0 ∧
      t.fd Rg.LRL_EVENTS_DOWNS = min (s.fd Rg.LRL_EVENTS_DOWNS + 1) 65535 := by
  refine ⟨_, rfl, ?_⟩
  rw [if_pos (show s.lrlState = 5 from h5)]
  have key (d : Nat) : (s.passTo d).linkLoss.fd Rg.LRL_STATUS_STATE = 0 ∧ (s.passTo d).linkLoss.fd Rg.LRL_STATUS_WIDTH = 0 ∧
      (s.passTo d).linkLoss.fd Rg.LRL_EVENTS_DOWNS = min (s.fd Rg.LRL_EVENTS_DOWNS + 1) 65535 := State.linkLoss_shown
          (State.passTo_inv i d)
  exact key _

/-! ### Replay and flits (R464 to R469) -/

theorem State.replayAll_shown {s : State} (i : s.Inv) (h4 : s.fd Rg.LRL_STATUS_STATE = 4) :
    s.replayAll.fd Rg.LRL_ERR_REPLAYS = min (s.fd Rg.LRL_ERR_REPLAYS + 1) 65535 ∧ s.replayAll.larric.resend = 0 ∧
      (s.larric.replays < 3 → s.replayAll.fd Rg.LRL_STATUS_STATE = 4 ∧ s.replayAll.larric.replays = s.larric.replays + 1) ∧
      (3 ≤ s.larric.replays → s.replayAll.fd Rg.LRL_STATUS_STATE = 5 ∧ s.replayAll.larric.attempts = 0) := by
  unfold State.replayAll
  extract_lets s1
  have i0 : (s.bump Rg.LRL_ERR_REPLAYS).Inv := State.bump_inv i _ _
  have i1 : s1.Inv := State.modLrl_inv i0 _
  have er : s1.larric.replays = s.larric.replays + 1 := by simp only [s1, State.modLrl_larric, State.bump_larric]
  have e0 : s1.larric.resend = 0 := rfl
  have ef : s1.fd Rg.LRL_ERR_REPLAYS = min (s.fd Rg.LRL_ERR_REPLAYS + 1) 65535 := (State.modLrl_fd ..).trans (State.fd_bump_self i
      _ _ (Nat.le_of_ble_eq_true rfl))
  have es : s1.fd Rg.LRL_STATUS_STATE = 4 := ((State.modLrl_fd ..).trans (State.fd_bump_apart i _ _ _ (RF.apart_addr (by
      decide)))).trans h4
  clear_value s1
  have il := State.setLrl_inv i1 5
  split
  · rename_i h
    refine ⟨?_, ?_, fun hh => by omega, fun _ => ⟨?_, rfl⟩⟩
    · rw [State.modLrl_fd, State.fd_bump_apart il _ _ _ (RF.apart_bits rfl)]
      exact (State.fd_setF_apart i1 _ _ _ (RF.apart_addr (by decide))).trans ef
    · rw [State.modLrl_larric, State.bump_larric]; simpa [State.setLrl] using e0
    · rw [State.modLrl_fd, State.fd_bump_apart il _ _ _ (RF.apart_addr (by decide)), State.setLrl_state i1 5]
  · rename_i h
    exact ⟨ef, e0, fun _ => ⟨es, er⟩, fun hh => by omega⟩

theorem replayTimerExpiry_spec (s : State) (i : s.Inv) (h4 : s.fd Rg.LRL_STATUS_STATE = 4) (hr : s.larric.replay ≠ []) :
    ∃ t, exec .replayTimerExpiry s = .next t ∧ t.fd Rg.LRL_ERR_REPLAYS = min (s.fd Rg.LRL_ERR_REPLAYS + 1) 65535 ∧ t.larric.resend
        = 0 ∧
      (s.larric.replays < 3 → t.fd Rg.LRL_STATUS_STATE = 4) ∧ (3 ≤ s.larric.replays → t.fd Rg.LRL_STATUS_STATE = 5) := by
  refine ⟨_, rfl, ?_⟩
  rw [if_pos (by simp [State.lrlActive, h4, hr])]
  have key (d : Nat) : (s.passTo d).replayAll.fd Rg.LRL_ERR_REPLAYS = min (s.fd Rg.LRL_ERR_REPLAYS + 1) 65535 ∧ (s.passTo
      d).replayAll.larric.resend = 0 ∧
      (s.larric.replays < 3 → (s.passTo d).replayAll.fd Rg.LRL_STATUS_STATE = 4) ∧ (3 ≤ s.larric.replays → (s.passTo
          d).replayAll.fd Rg.LRL_STATUS_STATE = 5) := by
    have k := State.replayAll_shown (State.passTo_inv i d) h4
    exact ⟨k.1, k.2.1, fun h => (k.2.2.1 h).1, fun h => (k.2.2.2 h).1⟩
  exact key _

theorem State.takeAck_facts (s : State) (a : Nat) : (s.takeAck a).larric.rxSeq = s.larric.rxSeq ∧ (s.takeAck a).larric.nakSent =
    s.larric.nakSent ∧
    (s.takeAck a).larric.slot = s.larric.slot := by
  unfold State.takeAck
  split
  · exact ⟨rfl, rfl, rfl⟩
  · split <;> exact ⟨rfl, rfl, rfl⟩

theorem State.nak_facts (s : State) : s.nak.larric.nakSent = true ∧ s.nak.larric.rxSeq = s.larric.rxSeq := by
  unfold State.nak
  split
  · rename_i h; exact ⟨h, rfl⟩
  · exact ⟨rfl, rfl⟩

theorem State.dataFlit_facts (s : State) (b : Bytes) : (s.dataFlit b).larric.rxSeq = s.larric.rxSeq + 1 ∧ (s.dataFlit
    b).larric.nakSent = false := by
  unfold State.dataFlit
  extract_lets vcf vc body s1 msg
  have h1 : s1.larric.rxSeq = s.larric.rxSeq + 1 ∧ s1.larric.nakSent = false := ⟨rfl, rfl⟩
  clear_value s1 msg
  split
  · unfold State.msgIn
    split
    · rw [State.bump_larric]; exact h1
    · exact h1
  · exact h1

theorem flitReceive_spec (s : State) (i : s.Inv) (b : Bytes) (h4 : s.lrlActive = true) :
    ∃ t, exec (.flitReceive b) s = .next t ∧
      (flitBad b = true → t.fd Rg.LRL_ERR_CRC_ERR = min (s.fd Rg.LRL_ERR_CRC_ERR + 1) (2 ^ 32 - 1) ∧ t.larric.nakSent = true ∧
        t.larric.rxSeq = s.larric.rxSeq) ∧
      (flitBad b = false → fieldAt b 0 1 = 1 → fieldAt b 2 2 = s.larric.rxSeq % 4096 → t.larric.rxSeq = s.larric.rxSeq + 1 ∧
          t.larric.nakSent = false) ∧
      (flitBad b = false → fieldAt b 0 1 = 1 → fieldAt b 2 2 ≠ s.larric.rxSeq % 4096 → t.larric.rxSeq = s.larric.rxSeq ∧
          t.larric.nakSent = true) := by
  refine ⟨_, rfl, ?_⟩
  unfold State.flitIn
  rw [if_neg (by simp [h4])]
  refine ⟨?_, ?_, ?_⟩
  · intro hb
    rw [if_pos hb]
    have n := State.nak_facts (s.bump Rg.LRL_ERR_CRC_ERR)
    refine ⟨?_, n.1, n.2.trans (by rw [State.bump_larric])⟩
    have e : (s.bump Rg.LRL_ERR_CRC_ERR).nak.fd Rg.LRL_ERR_CRC_ERR = (s.bump Rg.LRL_ERR_CRC_ERR).fd Rg.LRL_ERR_CRC_ERR := by
      unfold State.nak
      split
      · rfl
      · exact State.modLrl_fd ..
    rw [e, State.fd_bump_self i _ _ (Nat.le_of_ble_eq_true rfl)]
    rfl
  · intro hb hk hs
    rw [if_neg (by simp [hb])]
    rw [hk]
    dsimp only
    rw [(State.takeAck_facts s _).1, if_pos hs]
    have d := State.dataFlit_facts (s.takeAck (fieldAt b 4 2)) b
    exact ⟨d.1.trans (by rw [(State.takeAck_facts s _).1]), d.2⟩
  · intro hb hk hs
    rw [if_neg (by simp [hb])]
    rw [hk]
    dsimp only
    rw [(State.takeAck_facts s _).1, if_neg hs]
    have d := State.nak_facts (s.takeAck (fieldAt b 4 2))
    exact ⟨d.2.trans (by rw [(State.takeAck_facts s _).1]), d.1⟩

theorem State.sendFlit_flit (s : State) (k v q : Nat) (b : Bytes) :
    (s.sendFlit k v q b).larric = { s.larric with flit := s.larric.seal k v q b } := rfl

theorem State.sendControl_slot (s : State) : s.sendControl.larric.slot = s.larric.slot ∧ s.sendControl.larric.txSeq =
    s.larric.txSeq ∧
    s.sendControl.larric.replay = s.larric.replay := by
  unfold State.sendControl
  split
  · dsimp only; split <;> exact ⟨rfl, rfl, rfl⟩
  · exact ⟨rfl, rfl, rfl⟩

theorem State.sendNew_slot (s : State) (v : Nat) : (s.sendNew v).larric.slot = s.larric.slot := by
  unfold State.sendNew
  split <;> rfl

theorem flitTransmit_spec (s : State) (h4 : s.lrlActive = true) :
    ∃ t, exec .flitTransmit s = .next t ∧ t.larric.slot = (s.larric.slot + 1) % 16 ∧
      (s.larric.slot = 0 → t.larric.txSeq = s.larric.txSeq ∧ t.larric.replay = s.larric.replay) ∧
      (∀ q b, s.larric.slot ≠ 0 → s.larric.replay[s.larric.resend]? = some (q, b) →
        t.larric.flit = s.larric.seal 1 (fieldAt b 0 1) q (b.drop 1) ∧ t.larric.resend = s.larric.resend + 1 ∧ t.larric.replay =
            s.larric.replay) := by
  refine ⟨_, rfl, ?_⟩
  unfold State.flitOut
  rw [if_neg (by simp [h4])]
  extract_lets k s1
  have h1 : s1.larric = { s.larric with slot := (s.larric.slot + 1) % 16 } := rfl
  have hk : k = s.larric.slot := rfl
  clear_value s1 k
  subst hk
  refine ⟨?_, ?_, ?_⟩
  · split
    · rw [(State.sendControl_slot s1).1, h1]
    · split
      · rw [State.sendFlit_flit, State.modLrl_larric, h1]
      · split
        · rw [(State.sendControl_slot s1).1, h1]
        · rw [State.sendNew_slot, State.freeNext_larric, h1]
  · intro h0
    rw [if_pos h0, (State.sendControl_slot s1).2.1, (State.sendControl_slot s1).2.2, h1]
    exact ⟨rfl, rfl⟩
  · intro q b h0 hr
    have hr' : s1.larric.replay[s1.larric.resend]? = some (q, b) := by rw [h1]; exact hr
    rw [if_neg h0, hr']
    rw [State.sendFlit_flit, State.modLrl_larric, h1]
    exact ⟨rfl, rfl, rfl⟩

/-! ### Memory across the link (R471 to R477) -/

theorem State.takeMsg_recovery (s : State) (f : Msg → Bool) : (s.takeMsg f).recovery = s.recovery := by
  unfold State.recovery State.on State.takeMsg
  rw [State.modLrl_fd]

theorem State.takeMsg_hostRefused (s : State) (f : Msg → Bool) (p a n : Nat) : (s.takeMsg f).hostRefused p a n = s.hostRefused p a
    n := by
  have hp : (s.takeMsg f).parts = s.parts := rfl
  have h1 := State.badPoint_congr (s := s) (t := s.takeMsg f) rfl rfl rfl rfl p a n
  have h2 := State.cfg_congr hp
  have h3 := State.part_congr hp
  generalize s.takeMsg f = t at h1 h2 h3
  unfold State.hostRefused State.defined
  rw [h1, h2, h3]

theorem State.takeMsg_inv {s : State} (i : s.Inv) (f : Msg → Bool) : (s.takeMsg f).Inv := State.modLrl_inv i _

theorem hostMemRd_spec (s : State) (p a n tag : Nat) (h4 : s.lrlActive = true) (hr : s.recovery = false) (hb : badSpan a n = false)
    (hf : s.hostRefused (p % 16) a n = false) (hc : (s.hostRd (p % 16) a n tag).code ≠ 2) (hp : (s.hostRd (p % 16) a n tag).poison
        = []) :
    exec (.hostMemRd p a n tag) s =
      .next ((s.hostRd (p % 16) a n tag).st.sendMsg 2 ⟨0x12, tag, p % 16, 0, n, a, (s.hostRd (p % 16) a n tag).data⟩) := by
  show Host.Outcome.next _ = _
  unfold State.hostMemRd
  rw [if_neg (by simp [h4])]
  extract_lets s1 r
  have e1 : s1.recovery = s.recovery := State.takeMsg_recovery ..
  have e2 : s1.hostRefused (p % 16) a n = s.hostRefused (p % 16) a n := State.takeMsg_hostRefused ..
  have e3 : r = s.hostRd (p % 16) a n tag := rfl
  clear_value s1 r
  rw [if_neg (by simp [e1, hr]), if_neg (by simp [hb]), if_neg (by simp [e2, hf])]
  rw [e3, if_neg hc, if_neg (by simp [hp])]

/-- A refused access of the host is answered with status 2 and counted (R472, R477). -/
theorem hostMemRd_refused (s : State) (i : s.Inv) (p a n tag : Nat) (h4 : s.lrlActive = true) (hr : s.recovery = false) (hb :
    badSpan a n = false)
    (hf : s.hostRefused (p % 16) a n = true) :
    ∃ t, exec (.hostMemRd p a n tag) s = .next t ∧ t.fd Rg.LRL_EVENTS_ACCESS_ERR = min (s.fd Rg.LRL_EVENTS_ACCESS_ERR + 1) 65535 ∧
        t.mem = s.mem := by
  refine ⟨_, rfl, ?_⟩
  unfold State.hostMemRd
  rw [if_neg (by simp [h4])]
  have eh := (State.takeMsg_hostRefused s (fun m => m.mtype == 0x10 && m.tag == tag && m.addr == a && m.len == n) (p % 16) a
      n).trans hf
  dsimp only
  rw [if_neg (by simp [State.takeMsg_recovery, hr]), if_neg (by simp [hb]), if_pos eh]
  have i1 := State.takeMsg_inv i fun m => m.mtype == 0x10 && m.tag == tag && m.addr == a && m.len == n
  have e1 : (s.takeMsg fun m => m.mtype == 0x10 && m.tag == tag && m.addr == a && m.len == n).fd Rg.LRL_EVENTS_ACCESS_ERR = s.fd
      Rg.LRL_EVENTS_ACCESS_ERR :=
    State.modLrl_fd ..
  have em : (s.takeMsg fun m => m.mtype == 0x10 && m.tag == tag && m.addr == a && m.len == n).mem = s.mem := rfl
  generalize (s.takeMsg fun m => m.mtype == 0x10 && m.tag == tag && m.addr == a && m.len == n) = u0 at i1 e1 em
  have k0 : u0.Keeps 140737488371712 (u0.isolation (p % 16) (u0.ownerAt a) 0 a) := State.fltAdd_keeps (by decide) (.refl _) _ _ _
      _ _ _ _
  have e1 := (k0.fd i1 Rg.LRL_EVENTS_ACCESS_ERR_in (by decide) (by decide)).trans e1
  have em := (show _ = _ from k0.same .mem (by decide)).trans em
  have i1 := k0.inv i1
  generalize u0.isolation (p % 16) (u0.ownerAt a) 0 a = u at i1 e1 em
  have ib := State.bump_inv i1 Rg.LRL_EVENTS_ACCESS_ERR 1
  have k : (u.bump Rg.LRL_EVENTS_ACCESS_ERR).Keeps 140737488371712 _ := State.fltAdd_keeps (by decide) (.refl _) 11 0 (p % 16) 15
      0 false a
  constructor
  · have e := k.fd ib Rg.LRL_EVENTS_ACCESS_ERR_in (by decide) (by decide)
    rw [State.fd_bump_self i1 _ _ (Nat.le_of_ble_eq_true rfl), e1] at e
    exact e
  · exact (show _ = _ from k.same .mem (by decide)).trans ((State.bump_mem ..).trans em)

theorem State.takeMsg_fullQueue (s : State) (f : Msg → Bool) (a n : Nat) : (s.takeMsg f).fullQueue a n = s.fullQueue a n := rfl

theorem hostMemWr_spec (s : State) (p a : Nat) (d : Bytes) (h4 : s.lrlActive = true) (hr : s.recovery = false) (hb : badSpan a
    d.length = false)
    (hf : s.hostRefused (p % 16) a d.length = false) (hq : s.fullQueue a d.length = none) :
    exec (.hostMemWr p a d) s =
      .next ((s.takeMsg fun m => m.mtype == 0x11 && m.addr == a && m.data == d).ramWrite (p % 16) 2 a d false) := by
  show Host.Outcome.next _ = _
  unfold State.hostMemWr
  rw [if_neg (by simp [h4])]
  dsimp only
  rw [if_neg (by simp [State.takeMsg_recovery, hr, hb]), if_neg (by simp [State.takeMsg_hostRefused, hf])]
  have e := State.takeMsg_fullQueue s (fun m => m.mtype == 0x11 && m.addr == a && m.data == d) a d.length
  rw [hq] at e
  rw [e]

/-- A failed read of the window raises a job fault on its partition (R475, R476). -/
theorem State.readFails_shown {s u : State} (i : u.Inv) {o : OutRead} (hp : o.part < 12) (hd : u.defined o.part = true) (h2 :
    u.pstate o.part < 2)
    (hf : ∀ f, u.fd f = s.fd f) : FaultShown s (u.readFails o) o.part stUncorr := by
  unfold State.readFails
  dsimp only
  rw [if_pos hp]
  have ib := State.fltAdd_inv i 11 stUncorr o.part 15 0 false (windowBase + o.addr)
  have k : u.Keeps 140737488371712 (u.fltAdd 11 stUncorr o.part 15 0 false (windowBase + o.addr)) := State.fltAdd_keeps (by
      decide) (.refl _) _ _ _ _ _ _ _
  generalize u.fltAdd 11 stUncorr o.part 15 0 false (windowBase + o.addr) = v at ib k
  have e1 : v.defined o.part = true := by unfold State.defined at hd ⊢; rw [(k.same .settings (by decide) o.part).2.1]; exact hd
  have e2 : v.fd (Rg.FLT_PART_STATE o.part) = u.fd (Rg.FLT_PART_STATE o.part) := k.fd i (Rg.FLT_PART_STATE_in _) (by decide) (by
      decide)
  have e3 : v.fd (Rg.FLT_PART_FAULT_ID o.part) = u.fd (Rg.FLT_PART_FAULT_ID o.part) := k.fd i (Rg.FLT_PART_FAULT_ID_in _) (by
      decide) (by decide)
  have h := State.jobFaultAs_shown ib hp e1 (show v.pstate o.part < 2 from (show v.fd _ < 2 from e2 ▸ h2)) 1 stUncorr 0
  exact ⟨h.1, h.2, h.3.trans (by rw [e3, hf]), h.4⟩

theorem memCplReceive_spec (s : State) (i : s.Inv) (tag : Nat) (st : Nat) (d : Bytes) (h4 : s.lrlActive = true) :
    ∃ t, exec (.memCplReceive tag st d) s = .next t ∧
      (s.larric.tags.find? (fun o => o.tag == tag) = none → t.fd Rg.LRL_EVENTS_ACCESS_ERR = min (s.fd Rg.LRL_EVENTS_ACCESS_ERR +
          1) 65535) ∧
      (∀ o, s.larric.tags.find? (fun o => o.tag == tag) = some o → st = 0 → d.length = o.len →
        t.larric.tags = s.larric.tags.filter (fun o => o.tag != tag) ∧ t.hostMem = putBytes s.hostMem o.addr d) ∧
      (∀ o, s.larric.tags.find? (fun o => o.tag == tag) = some o → ¬ (st = 0 ∧ d.length = o.len) → o.part < 12 → s.defined o.part
          = true →
        s.pstate o.part < 2 → FaultShown s t o.part stUncorr) := by
  refine ⟨_, rfl, ?_⟩
  unfold State.memCpl
  rw [if_neg (by simp [h4])]
  extract_lets u v
  have i1 : u.Inv := State.takeMsg_inv i _
  have et : u.larric.tags = s.larric.tags := rfl
  have ef (f : RF) : u.fd f = s.fd f := State.modLrl_fd ..
  have eh : u.hostMem = s.hostMem := rfl
  have ep : ∀ p, u.part p = s.part p := fun p => State.part_congr rfl p
  have el : v.larric.tags = u.larric.tags.filter fun o => o.tag != tag := rfl
  have em : v.hostMem = u.hostMem := rfl
  have ev (p : Nat) : v.part p = s.part p := (State.modLrl_part ..).trans (ep p)
  have fv (f : RF) : v.fd f = s.fd f := (State.modLrl_fd ..).trans (ef f)
  have iv : v.Inv := State.modLrl_inv i1 _
  clear_value v
  clear_value u
  refine ⟨?_, ?_, ?_⟩
  · intro h
    rw [et, h]
    exact (State.fd_bump_self i1 _ _ (Nat.le_of_ble_eq_true rfl)).trans (by rw [ef]; rfl)
  · intro o h h0 hl
    rw [et, h]
    dsimp only
    rw [if_pos (by simp [h0, hl])]
    exact ⟨by rw [show State.larric _ = v.larric from rfl, el, et], by rw [show State.hostMem _ = putBytes v.hostMem o.addr d from
        rfl, em, eh]⟩
  · intro o h hn hp hd h2
    rw [et, h]
    dsimp only
    rw [if_neg (by simpa using hn)]
    have d1 : v.defined o.part = true := by unfold State.defined; rw [ev]; exact hd
    have d2 : v.pstate o.part < 2 := by unfold State.pstate; rw [fv]; exact h2
    exact State.readFails_shown iv hp d1 d2 fv

theorem cplTimeout_spec (s : State) (i : s.Inv) (tag : Nat) (o : OutRead) (ho : s.larric.tags.find? (fun o => o.tag == tag) = some
    o) :
    ∃ t, exec (.cplTimeout tag) s = .next t ∧ t.fd Rg.LRL_EVENTS_CPL_TIMEOUT = min (s.fd Rg.LRL_EVENTS_CPL_TIMEOUT + 1) 65535 ∧
      (o.part < 12 → s.defined o.part = true → s.pstate o.part < 2 → FaultShown s t o.part stUncorr) := by
  have key (d : Nat) (v : State) (hv : v = ((s.passTo d).bump Rg.LRL_EVENTS_CPL_TIMEOUT).modLrl fun l =>
        { l with tags := l.tags.filter fun o => o.tag != tag }) :
      v.Inv ∧ v.fd Rg.LRL_EVENTS_CPL_TIMEOUT = min (s.fd Rg.LRL_EVENTS_CPL_TIMEOUT + 1) 65535 ∧ (∀ p, v.part p = s.part p) ∧
        ∀ f : RF, f.addr ≠ Rg.LRL_EVENTS → v.fd f = s.fd f := by
    subst hv
    have i1 : (s.passTo d).Inv := State.passTo_inv i d
    have e1 (f : RF) : (s.passTo d).fd f = s.fd f := rfl
    have e2 (p : Nat) : (s.passTo d).part p = s.part p := rfl
    generalize s.passTo d = w at i1 e1 e2
    refine ⟨State.modLrl_inv (State.bump_inv i1 _ _) _, ?_, ?_, ?_⟩
    · rw [State.modLrl_fd, State.fd_bump_self i1 _ _ (Nat.le_of_ble_eq_true rfl), e1]; rfl
    · intro p; rw [State.modLrl_part, State.bump_part, e2]
    · intro f hf; rw [State.modLrl_fd, State.fd_bump_apart i1 _ _ _ (.inl hf), e1]
  have step (d : Nat) : let v := ((s.passTo d).bump Rg.LRL_EVENTS_CPL_TIMEOUT).modLrl fun l =>
        { l with tags := l.tags.filter fun o => o.tag != tag }
      (v.readFails o).fd Rg.LRL_EVENTS_CPL_TIMEOUT = min (s.fd Rg.LRL_EVENTS_CPL_TIMEOUT + 1) 65535 ∧
      (o.part < 12 → s.defined o.part = true → s.pstate o.part < 2 → FaultShown s (v.readFails o) o.part stUncorr) := by
    intro v
    have h := key d v rfl
    clear_value v
    obtain ⟨iv, ev, pv, fv⟩ := h
    have k : v.Keeps 800764406716166151 (v.readFails o) := State.readFails_keeps (by decide) (.refl v) o
    refine ⟨(k.fd iv Rg.LRL_EVENTS_CPL_TIMEOUT_in (by decide) (by decide)).trans ev, fun hp hd h2 => ?_⟩
    have d2 : v.pstate o.part < 2 := by
      unfold State.pstate
      rw [fv _ (by simp only [Rg.FLT_PART_STATE, Rg.FLT_PART, Rg.LRL_EVENTS]; omega)]
      exact h2
    have h := State.readFails_shown (s := v) iv hp (by unfold State.defined; rw [pv]; exact hd)
      d2 (fun _ => rfl)
    exact ⟨h.1, h.2, h.3.trans (by rw [fv _ (by simp only [Rg.FLT_PART_FAULT_ID, Rg.FLT_PART, Rg.LRL_EVENTS]; omega)]), h.4⟩
  refine ⟨s.cplTimeout tag, rfl, ?_⟩
  unfold State.cplTimeout
  simp only [ho]
  exact step _

/-! ### Interrupts (R478) -/

theorem State.sendIntr_sent {s : State} {n : Nat} (h4 : s.lrlActive = true) (hn : n < 64) (hm : bitOf (s.rd Rg.LRL_IRQ_MASK).toNat
    n = true)
    (hd : n ∉ s.larric.disarmed) (hr : s.recovery = false) (hc : s.irqCond n = true) :
    (s.sendIntr n).larric.disarmed = s.larric.disarmed ++ [n] ∧ (s.sendIntr n).larric.intrSeq = s.larric.intrSeq + 1 := by
  unfold State.sendIntr
  rw [if_pos (by simp [h4, hn, hm, hd, hr, hc])]
  exact ⟨rfl, rfl⟩

theorem intr_spec (s : State) (n : Nat) (h4 : s.lrlActive = true) (hn : n < 64) (hm : bitOf (s.rd Rg.LRL_IRQ_MASK).toNat n = true)
    (hd : n ∉ s.larric.disarmed) (hr : s.recovery = false) (hc : s.irqCond n = true) :
    ∃ t, exec (.intr n) s = .next t ∧ t.larric.disarmed = s.larric.disarmed ++ [n] ∧ t.larric.intrSeq = s.larric.intrSeq + 1 :=
  ⟨_, rfl, State.sendIntr_sent h4 hn hm hd hr hc⟩

theorem State.sendIntr_idle {s : State} {n : Nat} (hc : s.irqCond n = false) : s.sendIntr n = s := by
  unfold State.sendIntr
  rw [if_neg (by simp [hc])]

theorem lrlIrqRearmWrite_spec (s : State) (v : W64) (hc : ∀ n, n < 64 → bitOf v.toNat n = true → s.irqCond n = false) :
    ∃ t, exec (.lrlIrqRearmWrite v) s = .next t ∧ t.larric.disarmed = s.larric.disarmed.filter (fun n => !bitOf v.toNat n) := by
  refine ⟨_, rfl, ?_⟩
  unfold State.irqRearm
  dsimp only
  have main : ∀ (l : List Nat) (u : State), (∀ n ∈ l, u.irqCond n = false) → l.foldl State.sendIntr u = u := by
    intro l
    induction l with
    | nil => intro u _; rfl
    | cons a l ih =>
      intro u h
      rw [List.foldl_cons, State.sendIntr_idle (h a (List.mem_cons_self ..))]
      exact ih u fun n hn => h n (List.mem_cons_of_mem _ hn)
  rw [main]
  · rfl
  · intro n hn
    have h := List.mem_filter.1 hn
    exact hc n (List.mem_range.1 h.1) h.2

end Sys2Proof.Machine
end

