-- ==== Sys2Proof/Laws/Rec.lean ====
section
/-!
SUPPORT. Fields of records: a field that is written reads back, and every other field reads as before.
-/
namespace Sys2Proof.Machine

theorem toLe_length (n : Nat) : ∀ x, (toLe n x).length = n := by
  induction n with
  | zero => intro x; rfl
  | succ n ih => intro x; simp [toLe, ih]

theorem leNat_toLe (n : Nat) : ∀ x, leNat (toLe n x) = x % 256 ^ n := by
  induction n with
  | zero => intro x; simp [toLe, leNat]; omega
  | succ n ih =>
    intro x
    simp only [toLe, leNat, ih, BitVec.toNat_ofNat]
    show x % 256 + _ = _
    rw [Nat.pow_succ', Nat.mod_mul]

theorem setField_length {r : Bytes} {o n : Nat} (v : Nat) (h : o + n ≤ r.length) : (setField r o n v).length = r.length := by
  unfold setField
  simp only [List.length_append, List.length_take, List.length_drop, toLe_length]
  omega

theorem fieldAt_setField_self {r : Bytes} {o n : Nat} (v : Nat) (h : o + n ≤ r.length) : fieldAt (setField r o n v) o n = v % 256
    ^ n := by
  have e : ((setField r o n v).drop o).take n = toLe n v := by
    unfold setField
    rw [List.append_assoc, List.drop_append, List.drop_take, Nat.sub_self, List.take_zero, List.length_take, Nat.min_eq_left (by
        omega), Nat.sub_self, List.drop_zero, List.nil_append, List.take_append, toLe_length, Nat.sub_self, List.take_zero,
        List.append_nil, List.take_of_length_le (by rw [toLe_length])]
  unfold fieldAt slice
  dsimp only
  rw [e, toLe_length, Nat.sub_self, List.replicate_zero, List.append_nil, leNat_toLe]

theorem fieldAt_setField_ne {r : Bytes} {o n o' n' : Nat} (v : Nat) (h : o + n ≤ r.length) (d : o' + n' ≤ o ∨ o + n ≤ o') :
    fieldAt (setField r o n v) o' n' = fieldAt r o' n' := by
  have e : ((setField r o n v).drop o').take n' = (r.drop o').take n' := by
    unfold setField
    rw [List.append_assoc, List.drop_append, List.length_take, Nat.min_eq_left (by omega)]
    rcases d with d | d
    · rw [List.take_append, List.length_drop, List.length_take, Nat.min_eq_left (by omega), Nat.sub_eq_zero_of_le (show n' ≤ o -
          o' by omega), List.take_zero, List.append_nil, List.drop_take, List.take_take, Nat.min_eq_left (by omega)]
    · rw [List.drop_eq_nil_of_le (by rw [List.length_take]; omega), List.nil_append, List.drop_append, toLe_length, List.drop_eq_nil_of_le (by rw [toLe_length]; omega), List.nil_append, List.drop_drop]
      congr 2
      omega
  unfold fieldAt slice
  dsimp only
  rw [e]

/-- Whether field `f` lies in a record of `len` bytes. -/
def fldFits (len : Nat) (f : Nat × Nat × Nat) : Bool := (f.1 + f.2.1).ble len

/-- Whether field `f` shares no byte with `n` bytes at `o`. -/
def fldApart (o n : Nat) (f : Nat × Nat × Nat) : Bool := (o + n).ble f.1 || (f.1 + f.2.1).ble o

theorem mkRec_fold (fs : List (Nat × Nat × Nat)) (o n : Nat) : ∀ r : Bytes, fs.all (fldFits r.length) = true → fs.all (fldApart o
    n) = true →
    fieldAt (fs.foldl (fun r f => setField r f.1 f.2.1 f.2.2) r) o n = fieldAt r o n ∧
      (fs.foldl (fun r f => setField r f.1 f.2.1 f.2.2) r).length = r.length := by
  induction fs with
  | nil => intro r _ _; exact ⟨rfl, rfl⟩
  | cons f fs ih =>
    intro r h d
    rw [List.all_cons, Bool.and_eq_true] at h d
    have hf : f.1 + f.2.1 ≤ r.length := Nat.le_of_ble_eq_true h.1
    have hd : o + n ≤ f.1 ∨ f.1 + f.2.1 ≤ o := by
      rcases Bool.or_eq_true _ _ ▸ d.1 with x | x
      · exact .inl (Nat.le_of_ble_eq_true x)
      · exact .inr (Nat.le_of_ble_eq_true x)
    have hl := setField_length f.2.2 hf
    have k := ih (setField r f.1 f.2.1 f.2.2) (hl.symm ▸ h.2) d.2
    exact ⟨k.1.trans (fieldAt_setField_ne _ hf hd), k.2.trans hl⟩

theorem mkRec_length (len : Nat) (fs : List (Nat × Nat × Nat)) (h : fs.all (fldFits len) = true) : (mkRec len fs).length = len := by
  have e : ∀ r : Bytes, r.length = len → (fs.foldl (fun r f => setField r f.1 f.2.1 f.2.2) r).length = len := by
    clear *- h
    induction fs with
    | nil => intro r hr; exact hr
    | cons f fs ih =>
      intro r hr
      rw [List.all_cons, Bool.and_eq_true] at h
      exact ih h.2 _ ((setField_length _ (hr ▸ Nat.le_of_ble_eq_true h.1)).trans hr)
  exact e _ (List.length_replicate ..)

/-- A record reads back the field written last at its place (R8, R10). -/
theorem fieldAt_mkRec (len : Nat) (a b : List (Nat × Nat × Nat)) (f : Nat × Nat × Nat) (h : (a ++ f :: b).all (fldFits len) = true)
    (d : b.all (fldApart f.1 f.2.1) = true) : fieldAt (mkRec len (a ++ f :: b)) f.1 f.2.1 = f.2.2 % 256 ^ f.2.1 := by
  rw [List.all_append, Bool.and_eq_true, List.all_cons, Bool.and_eq_true] at h
  have l := mkRec_length len a h.1
  have e : mkRec len (a ++ f :: b) = b.foldl (fun r f => setField r f.1 f.2.1 f.2.2) (setField (mkRec len a) f.1 f.2.1 f.2.2) := by
    unfold mkRec
    rw [List.foldl_append, List.foldl_cons]
    rfl
  have hf : f.1 + f.2.1 ≤ (mkRec len a).length := l.symm ▸ Nat.le_of_ble_eq_true h.2.1
  rw [e, (mkRec_fold b f.1 f.2.1 _ (by rw [setField_length _ hf, l]; exact h.2.2) d).1]
  exact fieldAt_setField_self _ hf

end Sys2Proof.Machine
end

