-- ==== Sys2Proof/Laws/EffLedger.lean ====
section
/-!
SUPPORT. What the Guest Ledger's commands do (12_guest_ledger.md R376 to R416; 10 R318; 04 R142).
-/
namespace Sys2Proof.Machine

/-! ### Entries and result records -/

theorem find_del_self {α : Type} (d : Nat → α) (m : SMap α) (k : Nat) : find d (del m k) k = d k := by
  induction m with
  | nil => rfl
  | cons e t ih =>
    unfold del at ih ⊢
    rw [List.filter_cons]
    split
    · rename_i h
      unfold find
      rw [if_neg (by rintro rfl; simp at h)]
      split
      · rfl
      · exact ih
    · exact ih

theorem State.ent_congr {s t : State} (h : t.ledger = s.ledger) (j : Nat) : t.ent j = s.ent j := by unfold State.ent; rw [h]

theorem State.setEnt_self (s : State) (i : Nat) {e : Entry} (h : e.state ≠ 0) : (s.setEnt i e).ent i = e := by
  unfold State.ent State.setEnt
  dsimp only
  rw [if_neg h, find_ins, if_pos rfl]

theorem State.setEnt_free (s : State) (i : Nat) {e : Entry} (h : e.state = 0) : (s.setEnt i e).ent i = Entry.free := by
  unfold State.ent State.setEnt
  dsimp only
  rw [if_pos h, find_del_self]

theorem State.setEnt_ne (s : State) {i j : Nat} {e : Entry} (h : e.state ≠ 0) (n : j ≠ i) : (s.setEnt i e).ent j = s.ent j := by
  unfold State.ent State.setEnt
  dsimp only
  rw [if_neg h, find_ins, if_neg n]

theorem Entry.record_kind (e : Entry) (i k st sub r : Nat) (x : Option (Nat × Nat)) (t : Nat) :
    fieldAt (e.record i k st sub r x t) 12 1 = k % 256 := by
  exact fieldAt_mkRec 64 [_, _] _ (12, 1, k) rfl rfl

theorem Entry.record_entry (e : Entry) (i k st sub r : Nat) (x : Option (Nat × Nat)) (t : Nat) :
    fieldAt (e.record i k st sub r x t) 8 4 = i % 4294967296 := by
  exact fieldAt_mkRec 64 [_] _ (8, 4, i) rfl rfl

theorem State.rqPlaced_idle (s : State) {b : Bytes} (h : fieldAt b 12 1 ≠ 3) : s.rqPlaced b = s := by
  unfold State.rqPlaced
  dsimp only
  rw [if_neg (by simp [h])]

theorem State.rqPut_ledger (s : State) (p : Nat) {b : Bytes} (h : fieldAt b 12 1 ≠ 3) : (s.rqPut p b).ledger = s.ledger := by
  unfold State.rqPut
  dsimp only
  split
  · rw [State.rqPlaced_idle _ h]
    unfold State.ringWrite
    dsimp only
    rw [State.raise_ledger, State.setF_ledger]
    have k : s.Keeps 74450131340091398 (s.recWrite p (s.fd (rqring p).base + (rqring p).size * (s.fd (rqring p).tail % 2 ^ s.fd
        (rqring p).log2)) b).st := State.recWrite_keeps (by decide) (.refl _) _ _ _
    exact k.same .ledger (by decide)
  · split <;> rfl

theorem State.report_ledger (s : State) (p i : Nat) (e : Entry) (k st r : Nat) (x : Option (Nat × Nat)) (h : k % 256 ≠ 3) :
    (s.report p i e k st r x).ledger = s.ledger := by
  unfold State.report
  dsimp only
  rw [State.rqPut_ledger _ _ (by rw [Entry.record_kind]; exact h)]
  split <;> rfl

theorem State.cmdRecord_ledger (s : State) (p i r : Nat) : (s.cmdRecord p i r).ledger = s.ledger :=
  State.rqPut_ledger _ _ (by rw [Entry.record_kind]; decide)

theorem State.bareRecord_ledger (s : State) (p : Nat) (b : Bytes) (k r : Nat) (x : Option Nat) (h : k % 256 ≠ 3) :
    (s.bareRecord p b k r x).ledger = s.ledger := by
  unfold State.bareRecord
  dsimp only
  rw [State.rqPut_ledger _ _ (by rw [Entry.record_kind]; exact h)]
  rfl

/-- A FINAL record leaves its entry DONE while it is held, and FREE once it is placed. -/
theorem State.report_final (s : State) (p i : Nat) (e : Entry) (st : Nat) (x : Option (Nat × Nat)) (hi : i < 4294967296) (h :
    (s.ent i).state = 6) :
    ((s.report p i e 3 st 0 x).ent i).state = 6 ∨ ((s.report p i e 3 st 0 x).ent i).state = 0 := by
  unfold State.report
  dsimp only
  have hb := Entry.record_entry e i 3 st (s.freeVal % 4) 0 x s.time.dev
  rw [Nat.mod_eq_of_lt hi] at hb
  generalize e.record i 3 st (s.freeVal % 4) 0 x s.time.dev = b at hb
  have hu : ((if st = stFlagged then s.freeNext else s).ent i).state = 6 := by split <;> exact h
  generalize (if st = stFlagged then s.freeNext else s) = u at hu
  unfold State.rqPut
  dsimp only
  split
  · have hw : ((u.ringWrite p (rqring p) b).ent i).state = 6 := by
      rw [State.ent_congr (s := u) _ i]
      · exact hu
      · unfold State.ringWrite
        dsimp only
        rw [State.raise_ledger, State.setF_ledger]
        have k : u.Keeps 74450131340091398 (u.recWrite p (u.fd (rqring p).base + (rqring p).size * (u.fd (rqring p).tail % 2 ^
            u.fd (rqring p).log2)) b).st := State.recWrite_keeps (by decide) (.refl _) _ _ _
        exact k.same .ledger (by decide)
    generalize u.ringWrite p (rqring p) b = w at hw
    unfold State.rqPlaced
    dsimp only
    split
    · rw [hb, State.setEnt_free _ _ rfl]
      exact .inr rfl
    · exact .inl hw
  · left
    split
    · exact hu
    · exact hu

theorem testBit_sub_pow {m b : Nat} (h : m.testBit b = true) (c : Nat) : (m - 2 ^ b).testBit c = (m.testBit c && c != b) := by
  have hq : m / 2 ^ b % 2 = 1 := by simpa [Nat.testBit_eq_decide_div_mod_eq] using h
  obtain ⟨q, hq2⟩ : ∃ q, m / 2 ^ b = 2 * q + 1 := ⟨m / 2 ^ b / 2, by omega⟩
  have hr : m % 2 ^ b < 2 ^ b := Nat.mod_lt _ (Nat.two_pow_pos b)
  have hm : m = 2 ^ (b + 1) * q + (2 ^ b + m % 2 ^ b) := by
    have := Nat.div_add_mod m (2 ^ b)
    rw [hq2, Nat.mul_add, Nat.mul_one, ← Nat.mul_assoc, ← pow_succ] at this
    omega
  have hp : 2 ^ (b + 1) = 2 ^ b + 2 ^ b := by rw [Nat.pow_succ]; omega
  have hs : m - 2 ^ b = 2 ^ (b + 1) * q + m % 2 ^ b := by omega
  generalize m % 2 ^ b = r at hr hm hs
  rw [hs, hm, Nat.testBit_two_pow_mul_add _ (by omega), Nat.testBit_two_pow_mul_add _ (by omega)]
  split
  · rename_i hc
    rcases Nat.lt_or_ge c b with h1 | h1
    · rw [Nat.testBit_two_pow_add_gt h1]; simp; omega
    · have : c = b := by omega
      subst this
      rw [Nat.testBit_lt_two_pow hr]; simp
  · simp; omega

theorem Entry.mark_bit (e : Entry) (m c : Nat) : bitOf (e.mark m).marks c = (bitOf e.marks c || bitOf m c) := Nat.testBit_or ..

theorem Entry.unmark_bit (e : Entry) (b c : Nat) : bitOf (e.unmark b).marks c = (bitOf e.marks c && c != b) := by
  unfold Entry.unmark
  split
  · rename_i h; exact testBit_sub_pow h c
  · rename_i h
    by_cases n : c = b
    · subst n; simpa using h
    · simp [n]

theorem Entry.unmark_same (e : Entry) (b : Nat) : (e.unmark b).reqId = e.reqId ∧ (e.unmark b).length = e.length ∧ (e.unmark
    b).state = e.state ∧
    (e.unmark b).flags = e.flags := by
  unfold Entry.unmark
  split <;> exact ⟨rfl, rfl, rfl, rfl⟩

/-! ### Waiting: the gate, and the forming of steps -/

theorem Entry.Keeps.refl (a : Entry) : a.Keeps a := ⟨rfl, rfl, fun _ _ _ => rfl⟩

theorem Entry.Keeps.trans {a b c : Entry} (h : a.Keeps b) (k : b.Keeps c) : a.Keeps c :=
  ⟨k.1.trans h.1, k.2.1.trans h.2.1, fun x n m => (k.2.2 x n m).trans (h.2.2 x n m)⟩

theorem foldl_modEnt_state (l : List Taken) (s : State) (j : Nat) :
    (l.foldl (fun s t => s.modEnt t.entry fun e => { e with state := 3 }) s).ent j = s.ent j ∨
      (l.foldl (fun s t => s.modEnt t.entry fun e => { e with state := 3 }) s).ent j = { s.ent j with state := 3 } := by
  refine foldl_keep (P := fun u : State => u.ent j = s.ent j ∨ u.ent j = { s.ent j with state := 3 }) l ?_ (.inl rfl)
  intro u x h
  by_cases n : j = x.entry
  · subst n
    right
    unfold State.modEnt
    rw [State.setEnt_self _ _ (by exact (by decide : (3 : Nat) ≠ 0))]
    rcases h with h | h <;> rw [h]
  · unfold State.modEnt
    rw [State.setEnt_ne _ (by exact (by decide : (3 : Nat) ≠ 0)) n]
    exact h

theorem State.closeStep_ledger (s : State) (p tag : Nat) : (s.closeStep p tag).ledger = s.ledger := by
  have k : s.Keeps 83458430106460166 (s.closeStep p tag) := State.closeStep_keeps (by decide) (.refl _) _ _
  exact k.same .ledger (by decide)

theorem State.modSched_ledger (s : State) (p tag : Nat) (f : Sched → Sched) : (s.modSched p tag f).ledger = s.ledger := rfl

/-- Forming a step only sets requests RUNNING (R388). -/
theorem State.formStep_ent (s : State) (p tag j : Nat) : (s.formStep p tag).ent j = s.ent j ∨ (s.formStep p tag).ent j = { s.ent j with state := 3 } := by
  unfold State.formStep
  split
  · exact .inl rfl
  · rename_i g hg
    extract_lets x q op b quantum credit old d first u v
    have hu : u.ent j = s.ent j ∨ u.ent j = { s.ent j with state := 3 } := foldl_modEnt_state d.taken s j
    have hv : v.ent j = u.ent j := State.ent_congr (State.modSched_ledger u p tag _) j
    rw [← hv] at hu
    clear_value x q op b quantum credit old d first u v
    split
    · exact .inl rfl
    · split
      · exact hu
      · split
        · exact hu
        · rw [State.ent_congr (State.closeStep_ledger ..)]
          exact hu

theorem State.formFor_ent (s : State) (p i j : Nat) : (s.formFor p i).ent j = s.ent j ∨ (s.formFor p i).ent j = { s.ent j with state := 3 } := by
  unfold State.formFor
  dsimp only
  split
  · exact State.formStep_ent ..
  · exact .inl rfl

theorem State.formFor_keeps' (s : State) (p i j : Nat) : (s.ent j).Keeps ((s.formFor p i).ent j) := by
  rcases State.formFor_ent s p i j with h | h <;> rw [h] <;> exact ⟨rfl, rfl, fun _ _ _ => rfl⟩

theorem State.enterPaused_ent (s : State) (p i st : Nat) (x : Option (Nat × Nat)) :
    (s.enterPaused p i st x).ent i = { (s.ent i).unmark 1 with state := 4, charge := 0 } := by
  unfold State.enterPaused
  dsimp only
  rw [State.ent_congr (State.report_ledger _ _ _ _ 4 _ _ _ (by decide)), State.ent_congr (State.bump_ledger ..), State.setEnt_self
      _ _ (by exact (by decide : (4 : Nat) ≠ 0))]

theorem State.enterPaused_ne (s : State) (p st : Nat) (x : Option (Nat × Nat)) {i j : Nat} (n : j ≠ i) :
    (s.enterPaused p i st x).ent j = s.ent j := by
  unfold State.enterPaused
  dsimp only
  rw [State.ent_congr (State.report_ledger _ _ _ _ 4 _ _ _ (by decide)), State.ent_congr (State.bump_ledger ..), State.setEnt_ne _
      (by exact (by decide : (4 : Nat) ≠ 0)) n]

theorem State.enterPaused_keeps' (s : State) (p i st : Nat) (x : Option (Nat × Nat)) : (s.ent i).Keeps ((s.enterPaused p i st
    x).ent i) := by
  rw [State.enterPaused_ent]
  have h := Entry.unmark_same (s.ent i) 1
  exact ⟨h.1, h.2.1, fun c n _ => (Entry.unmark_bit (s.ent i) 1 c).trans (by simp [n])⟩

theorem State.modEnt_self (s : State) (i : Nat) {f : Entry → Entry} (h : (f (s.ent i)).state ≠ 0) : (s.modEnt i f).ent i = f
    (s.ent i) :=
  State.setEnt_self _ _ h

theorem State.modEnt_ne (s : State) {i j : Nat} {f : Entry → Entry} (h : (f (s.ent i)).state ≠ 0) (n : j ≠ i) : (s.modEnt i f).ent
    j = s.ent j :=
  State.setEnt_ne _ h n

theorem State.holdGate_ent (s : State) (p i j : Nat) (h : (s.ent i).state ≠ 0) : (s.holdGate p i).ent j = if j = i then { s.ent i with gated := true } else s.ent j := by
  unfold State.holdGate
  dsimp only
  have e : ∀ k, (if (s.ent i).gated then s else s.bump (Rg.LDG_STEPS_BUDGET_GATED p)).ent k = s.ent k := by
    intro k; split
    · rfl
    · exact State.ent_congr (State.bump_ledger ..) k
  generalize (if (s.ent i).gated then s else s.bump (Rg.LDG_STEPS_BUDGET_GATED p)) = u at e
  split
  · rename_i n; subst n
    rw [State.modEnt_self _ _ (by rw [e]; exact h), e]
  · rename_i n
    rw [State.modEnt_ne _ (by rw [e]; exact h) n, e]

theorem State.budgetOf_ledger (s : State) (p c : Nat) : (s.budgetOf p c).2.ledger = s.ledger := by
  have k : s.Keeps 74450131340091392 (s.budgetOf p c).2 := State.budgetOf_keeps (by decide) (.refl _) _ _
  exact k.same .ledger (by decide)

theorem State.setLevel_ledger (s : State) (p c l : Nat) : (s.setLevel p c l).ledger = s.ledger := by
  have k : s.Keeps 74451230851719174 (s.setLevel p c l) := State.setLevel_keeps (by decide) (.refl _) _ _ _
  exact k.same .ledger (by decide)

/-- The gate decides only whether an ADMITTED entry becomes QUEUED (R393). -/
theorem State.gate_ent (s : State) (p i j : Nat) : (j ≠ i → (s.gate p i).ent j = s.ent j) ∧ (s.ent i).Keeps ((s.gate p i).ent i)
    := by
  unfold State.gate
  dsimp only
  by_cases h : (s.ent i).state = 1
  · rw [if_neg (by simp [h])]
    have hold (u : State) (hu : u.ledger = s.ledger) : (j ≠ i → (u.holdGate p i).ent j = s.ent j) ∧ (s.ent i).Keeps ((u.holdGate p
        i).ent i) := by
      have e := State.ent_congr hu
      constructor
      · intro n; rw [State.holdGate_ent _ _ _ _ (by rw [e, h]; decide), if_neg n, e]
      · rw [State.holdGate_ent _ _ _ _ (by rw [e, h]; decide), if_pos rfl, e]; exact ⟨rfl, rfl, fun _ _ _ => rfl⟩
    have pass (u : State) (hu : u.ledger = s.ledger) (c : Nat) : (j ≠ i → (u.passGate i c).ent j = s.ent j) ∧ (s.ent i).Keeps
        ((u.passGate i c).ent i) := by
      have e := State.ent_congr hu
      unfold State.passGate
      constructor
      · intro n; rw [State.modEnt_ne _ (by exact (by decide : (2 : Nat) ≠ 0)) n, e]
      · rw [State.modEnt_self _ _ (by exact (by decide : (2 : Nat) ≠ 0)), e]; exact ⟨rfl, rfl, fun _ _ _ => rfl⟩
    split
    · exact pass s rfl 0
    · split
      · exact hold s rfl
      · have hb := State.budgetOf_ledger s p (s.ent i).customer
        generalize s.budgetOf p (s.ent i).customer = x at hb
        obtain ⟨b, u⟩ := x
        dsimp only at hb ⊢
        split
        · exact pass _ ((State.setLevel_ledger ..).trans hb) _
        · exact hold _ ((State.setLevel_ledger ..).trans hb)
  · rw [if_pos h]
    exact ⟨fun _ => rfl, .refl _⟩

theorem State.toGate_ent (s : State) (p i j : Nat) : (j ≠ i → (s.toGate p i).ent j = s.ent j) ∧ (s.ent i).Keeps ((s.toGate p
    i).ent i) := by
  unfold State.toGate
  extract_lets u
  have e1 : u.ent i = { s.ent i with state := 1, qtime := s.time.dev, gated := false, charge := 0 } :=
    State.modEnt_self _ _ (by exact (by decide : (1 : Nat) ≠ 0))
  have e2 : j ≠ i → u.ent j = s.ent j := fun n => State.modEnt_ne _ (by exact (by decide : (1 : Nat) ≠ 0)) n
  have ek : (s.ent i).Keeps (u.ent i) := by rw [e1]; exact ⟨rfl, rfl, fun _ _ _ => rfl⟩
  have e0 : (u.ent i).state ≠ 0 := by rw [e1]; exact (by decide : (1 : Nat) ≠ 0)
  clear_value u
  split
  · have m1 : (u.modEnt i fun e => e.mark 8).ent i = (u.ent i).mark 8 := State.modEnt_self _ _ e0
    have mk : (u.ent i).Keeps ((u.modEnt i fun e => e.mark 8).ent i) := by
      rw [m1]
      refine ⟨rfl, rfl, fun c _ n => ?_⟩
      rw [Entry.mark_bit]
      have : bitOf 8 c = false := by
        unfold bitOf
        rw [show (8 : Nat) = 2 ^ 3 from rfl, Nat.testBit_two_pow]
        simp; omega
      rw [this, Bool.or_false]
    have m2 : j ≠ i → (u.modEnt i fun e => e.mark 8).ent j = u.ent j := fun n => State.modEnt_ne _ e0 n
    generalize (u.modEnt i fun e => e.mark 8) = v at mk m2
    exact ⟨fun n => (State.enterPaused_ne _ _ _ _ n).trans ((m2 n).trans (e2 n)), ek.trans (mk.trans (State.enterPaused_keeps' ..))⟩
  · have g := State.gate_ent u p i j
    exact ⟨fun n => (g.1 n).trans (e2 n), ek.trans g.2⟩

/-! ### Submission records (R377 to R384, R398) -/

theorem leNat_lt : ∀ b : Bytes, leNat b < 256 ^ b.length := by
  intro b
  induction b with
  | nil => simp [leNat]
  | cons a t ih =>
    have h := a.isLt
    simp only [leNat, List.length_cons, Nat.pow_succ']
    generalize 256 ^ t.length = n at ih
    generalize leNat t = m at ih
    have : a.toNat < 256 := h
    omega

theorem slice_length (b : Bytes) (o n : Nat) : (slice b o n).length = n := by
  unfold slice
  simp only [List.length_append, List.length_replicate, List.length_take]
  omega

theorem fieldAt_lt (b : Bytes) (o n : Nat) : fieldAt b o n < 256 ^ n := by
  have h := leNat_lt (slice b o n)
  rw [slice_length] at h
  exact h

theorem State.ledgerOwner_congr {s t : State} (h : Comp.same .settings s t) (i : Nat) : t.ledgerOwner i = s.ledgerOwner i := by
  unfold State.ledgerOwner
  congr 2
  funext p
  rw [(h p).2.2.2.2.2.1, (h p).2.2.2.2.2.2.1]

theorem State.sq_read {s : State} {p op : Nat} {b : Bytes} {u : State} (i : s.Inv) (h : s.SqHas p op b u) (h1 : 1 ≤ op) (h2 : op <
    8) :
    s.sqStep p op = (if op = 1 then (u.incr (Rg.LDG_SQ_HEAD_HEAD p)).submit p b else (u.incr (Rg.LDG_SQ_HEAD_HEAD p)).command p op
        b) ∧
    (u.incr (Rg.LDG_SQ_HEAD_HEAD p)).Inv ∧ (u.incr (Rg.LDG_SQ_HEAD_HEAD p)).ledger = s.ledger ∧
    (∀ k, (u.incr (Rg.LDG_SQ_HEAD_HEAD p)).ledgerOwner k = s.ledgerOwner k) ∧ u.Inv := by
  obtain ⟨a, ha, hb, ho⟩ := h
  have k : s.Keeps 74450131340091392 (s.blk p a 128).2 := State.blk_keeps (by decide) (.refl _) _ _ _
  rw [hb] at k
  have iu := k.inv i
  refine ⟨?_, State.incr_inv iu _ _, (State.incr_ledger ..).trans (k.same .ledger (by decide)), fun n => ?_, iu⟩
  · unfold State.sqStep
    rw [ha]
    dsimp only
    rw [hb]
    dsimp only
    rw [ho, if_neg (by simp; omega), if_neg (fun x => x rfl)]
  · exact (State.ledgerOwner_congr (fun q => by repeat' constructor) n).trans (State.ledgerOwner_congr (k.same .settings (by
        decide)) n)

theorem State.sq_command {s : State} {p op i : Nat} {b : Bytes} {u : State} (iv : s.Inv) (h : s.SqFor p op i b u) (h2 : op ≠ 1) :
    ∃ w : State, w.ledger = s.ledger ∧ i < 4294967296 ∧
      (op ≠ 3 → s.sqStep p op = w.actOn p i op b) ∧ ((s.ent i).extendBad (fieldAt b 28 4) = 0 → s.sqStep p op = w.actOn p i op b)
          := by
  have o1 : 1 ≤ op := by
    rcases Nat.eq_zero_or_pos op with x | x
    · have := h.accepts; subst x; cases this
    · exact x
  have o2 : op < 8 := by
    rcases Nat.lt_or_ge op 8 with x | x
    · exact x
    · have := h.accepts
      unfold Entry.accepts at this
      split at this <;> first | omega | cases this
  obtain ⟨e, iw, el, eo, _⟩ := State.sq_read iv h.has o1 o2
  rw [if_neg h2] at e
  generalize (u.incr (Rg.LDG_SQ_HEAD_HEAD p)) = v at e iw el eo
  have ee := State.ent_congr el
  refine ⟨v.cmdRecord p i 0, (State.cmdRecord_ledger ..).trans el, ?_, ?_, ?_⟩
  · rw [← h.entry]; exact fieldAt_lt b 4 4
  all_goals
    intro hx
    rw [e]
    unfold State.command
    dsimp only
    rw [h.entry, eo, h.owner, if_neg (fun x => x rfl), ee, if_neg (by simp [h.req, h.accepts])]
  · rw [if_neg hx, if_neg (fun x => x rfl)]
  · rw [if_neg (by split <;> simp [hx])]

theorem State.retire_ends (s : State) (p i st : Nat) (x : Option (Nat × Nat)) (hi : i < 4294967296) :
    ((s.retire p i st x).ent i).state = 6 ∨ ((s.retire p i st x).ent i).state = 0 := by
  unfold State.retire
  dsimp only
  have e1 : ((s.setEnt i { s.ent i with state := 6 }).ent i).state = 6 := by rw [State.setEnt_self _ _ (by exact (by decide : (6 : Nat) ≠ 0))]
  generalize s.setEnt i { s.ent i with state := 6 } = u at e1
  have k : u.Keeps 218569786182066176 ((u.releaseList p (s.ent i).pageList).dropAdapter p { s.ent i with state := 6 }) :=
    State.dropAdapter_keeps (by decide) (State.releaseList_keeps (by decide) (.refl _) _ _) _ _
  have e2 := State.ent_congr (show State.ledger _ = u.ledger from k.same .ledger (by decide)) i
  generalize ((u.releaseList p (s.ent i).pageList).dropAdapter p { s.ent i with state := 6 }) = v at e2
  have b1 (c : Prop) [Decidable c] (w : State) (f : RF) : (if c then w.bump f else w).ent i = w.ent i := by
    split
    · exact State.ent_congr (State.bump_ledger ..) i
    · rfl
  apply State.report_final _ _ _ _ _ _ hi
  rw [b1, b1, e2]
  exact e1

theorem cancel_spec (s : State) (iv : s.Inv) (p i : Nat) (b : Bytes) (u : State) (h : s.SqFor p 2 i b u) :
    ∃ t, exec (.cancel p) s = .next t ∧
      ((s.ent i).state = 3 ∨ (s.ent i).state = 5 → t.ent i = (s.ent i).mark 1) ∧
      ((s.ent i).state = 1 ∨ (s.ent i).state = 2 ∨ (s.ent i).state = 4 → (t.ent i).state = 6 ∨ (t.ent i).state = 0) := by
  refine ⟨_, rfl, ?_⟩
  obtain ⟨w, wl, hi, h1, _⟩ := State.sq_command iv h (by decide)
  rw [h1 (by decide)]
  show (_ → (w.cancelEntry p i).ent i = _) ∧ (_ → ((w.cancelEntry p i).ent i).state = 6 ∨ ((w.cancelEntry p i).ent i).state = 0)
  have e := State.ent_congr wl i
  unfold State.cancelEntry
  rw [e]
  constructor
  · intro g
    have m : (w.modEnt i fun e => e.mark 1).ent i = (s.ent i).mark 1 := by
      rw [State.modEnt_self _ _ (by rw [e]; show (s.ent i).state ≠ 0; omega), e]
    rcases g with g | g <;> rw [g] <;> exact m
  · intro g
    rcases g with g | g | g <;> rw [g] <;> exact State.retire_ends _ _ _ _ _ hi

theorem extend_spec (s : State) (iv : s.Inv) (p i : Nat) (b : Bytes) (u : State) (h : s.SqFor p 3 i b u) (len : Nat) (hl : fieldAt
    b 28 4 = len)
    (hb : (s.ent i).extendBad len = 0) :
    ∃ t, exec (.extend p) s = .next t ∧
      ((s.ent i).state = 3 → t.ent i = { s.ent i with pendLen := some (len, fieldAt b 72 8) }) ∧
      ((s.ent i).state ≠ 3 → (t.ent i).reqId = (s.ent i).reqId ∧ (t.ent i).length = len) := by
  refine ⟨_, rfl, ?_⟩
  subst hl
  obtain ⟨w, wl, hi, _, h1⟩ := State.sq_command iv h (by decide)
  rw [h1 hb]
  show (_ → (w.extendEntry p i _ _).ent i = _) ∧ (_ → ((w.extendEntry p i _ _).ent i).reqId = _ ∧ ((w.extendEntry p i _ _).ent
      i).length = _)
  have e := State.ent_congr wl i
  have st : (s.ent i).state ≠ 0 := by
    have a := h.accepts
    simp [Entry.accepts, inRange] at a
    omega
  generalize fieldAt b 28 4 = len
  generalize fieldAt b 72 8 = dr
  unfold State.extendEntry
  rw [e]
  constructor
  · intro g
    dsimp only
    rw [if_pos g, State.modEnt_self _ _ (by rw [e]; exact st), e]
  · intro g
    dsimp only
    rw [if_neg g]
    have f (x : Entry) (hx : x.state ≠ 0) : let y := { x with length := len, draft := if x.spec then dr else x.draft, bucket := bucketOf len }
        (if y.position < len then y.unmark 4 else y).reqId = x.reqId ∧ (if y.position < len then y.unmark 4 else y).length = len ∧
        (if y.position < len then y.unmark 4 else y).state ≠ 0 := by
      intro y
      split
      · have := Entry.unmark_same y 4
        exact ⟨this.1, this.2.1, by rw [this.2.2.1]; exact hx⟩
      · exact ⟨rfl, rfl, hx⟩
    have key (v : State) (f1 : (v.ent i).reqId = (s.ent i).reqId ∧ (v.ent i).length = len) :
        ((if (s.ent i).state = 4 then (v.unpause p i).formFor p i else v).ent i).reqId = (s.ent i).reqId ∧
          ((if (s.ent i).state = 4 then (v.unpause p i).formFor p i else v).ent i).length = len := by
      have k1 : (v.ent i).Keeps ((v.unpause p i).ent i) := by
        unfold State.unpause
        dsimp only
        split
        · exact .refl _
        · split
          · rw [State.modEnt_self _ _ (by exact (by decide : (3 : Nat) ≠ 0))]; exact ⟨rfl, rfl, fun _ _ _ => rfl⟩
          · exact (State.toGate_ent _ _ _ i).2
      have k2 := k1.trans (State.formFor_keeps' (v.unpause p i) p i i)
      split
      · exact ⟨k2.1.trans f1.1, k2.2.1.trans f1.2⟩
      · exact f1
    refine key _ ?_
    rw [State.modEnt_self _ _ (by rw [e]; exact (f (s.ent i) st).2.2), e]
    exact ⟨(f (s.ent i) st).1, (f (s.ent i) st).2.1⟩

theorem State.unpause_ent (v : State) (p i : Nat) : (v.ent i).Keeps ((v.unpause p i).ent i) ∧
    ((v.ent i).held = true → v.unpause p i = v) ∧
    ((v.ent i).state = 4 → (v.ent i).held = false → (v.ent i).ring = true → (v.unpause p i).ent i = { v.ent i with state := 3 }) := by
  unfold State.unpause
  dsimp only
  refine ⟨?_, fun h => if_pos (by simp [h]), fun h1 h2 h3 => ?_⟩
  · split
    · exact .refl _
    · split
      · rw [State.modEnt_self _ _ (by exact (by decide : (3 : Nat) ≠ 0))]; exact ⟨rfl, rfl, fun _ _ _ => rfl⟩
      · exact (State.toGate_ent _ _ _ i).2
  · rw [if_neg (by simp [h1, h2]), if_pos h3, State.modEnt_self _ _ (by exact (by decide : (3 : Nat) ≠ 0))]

theorem pause_spec (s : State) (iv : s.Inv) (p i : Nat) (b : Bytes) (u : State) (h : s.SqFor p 4 i b u) :
    ∃ t, exec (.pause p) s = .next t ∧
      ((s.ent i).state = 3 → t.ent i = ((s.ent i).mark 32).mark 2) ∧ ((s.ent i).state = 4 → t.ent i = (s.ent i).mark 32) ∧
      ((s.ent i).state = 1 ∨ (s.ent i).state = 2 → (t.ent i).state = 4 ∧ bitOf (t.ent i).marks 5 = true) := by
  refine ⟨_, rfl, ?_⟩
  obtain ⟨w, wl, hi, h1, _⟩ := State.sq_command iv h (by decide)
  rw [h1 (by decide)]
  show (_ → (w.pauseEntry p i).ent i = _) ∧ (_ → (w.pauseEntry p i).ent i = _) ∧ (_ → ((w.pauseEntry p i).ent i).state = 4 ∧ bitOf
      ((w.pauseEntry p i).ent i).marks 5 = true)
  have e := State.ent_congr wl i
  have st : (s.ent i).state ≠ 0 := by
    have a := h.accepts
    simp [Entry.accepts, inRange] at a
    omega
  unfold State.pauseEntry
  rw [e]
  have m : (w.modEnt i fun e => e.mark 32).ent i = (s.ent i).mark 32 := by
    rw [State.modEnt_self _ _ (by rw [e]; exact st), e]
  dsimp only
  generalize (w.modEnt i fun e => e.mark 32) = v at m
  refine ⟨fun g => ?_, fun g => ?_, fun g => ?_⟩
  · rw [if_pos g, State.modEnt_self _ _ (by rw [m]; exact st), m]
  · rw [if_neg (by omega), if_pos g, m]
  · rw [if_neg (by omega), if_neg (by omega)]
    have k := State.enterPaused_keeps' v p i stDone none
    refine ⟨by rw [State.enterPaused_ent], ?_⟩
    rw [k.2.2 5 (by decide) (by decide), m, Entry.mark_bit]
    simp [bitOf]
    exact .inr (by decide)

theorem resume_spec (s : State) (iv : s.Inv) (p i : Nat) (b : Bytes) (u : State) (h : s.SqFor p 5 i b u) :
    ∃ t, exec (.resume p) s = .next t ∧ (t.ent i).reqId = (s.ent i).reqId ∧ bitOf (t.ent i).marks 5 = false ∧
      (((s.ent i).unmark 5).held = true → t.ent i = (s.ent i).unmark 5) ∧
      (((s.ent i).unmark 5).held = false → (s.ent i).ring = true → (t.ent i).state = 3) := by
  refine ⟨_, rfl, ?_⟩
  obtain ⟨w, wl, hi, h1, _⟩ := State.sq_command iv h (by decide)
  rw [h1 (by decide)]
  have st : (s.ent i).state = 4 := by
    have a := h.accepts
    simpa [Entry.accepts] using a
  have e := State.ent_congr wl i
  have us := Entry.unmark_same (s.ent i) 5
  have ub := Entry.unmark_bit (s.ent i) 5 5
  rw [show ((5 : Nat) != 5) = false from rfl, Bool.and_false] at ub
  have ug : ((s.ent i).unmark 5).ring = (s.ent i).ring := by unfold Entry.ring; rw [us.2.2.2]
  have us3 : ((s.ent i).unmark 5).state = 4 := us.2.2.1.trans st
  have m : (w.modEnt i fun e => e.unmark 5).ent i = (s.ent i).unmark 5 := by
    rw [State.modEnt_self _ _ (by rw [e, us3]; decide), e]
  show (((((w.modEnt i fun e => e.unmark 5).unpause p i).formFor p i).ent i).reqId = _ ∧ bitOf ((((w.modEnt i fun e => e.unmark
      5).unpause p i).formFor p i).ent i).marks 5 = false ∧
    (_ → (((w.modEnt i fun e => e.unmark 5).unpause p i).formFor p i).ent i = _) ∧ (_ → _ → ((((w.modEnt i fun e => e.unmark
        5).unpause p i).formFor p i).ent i).state = 3))
  generalize (w.modEnt i fun e => e.unmark 5) = v at m
  generalize (s.ent i).unmark 5 = x at m us ub ug us3
  subst m
  have q := State.unpause_ent v p i
  have k2 := q.1.trans (State.formFor_keeps' (v.unpause p i) p i i)
  refine ⟨k2.1.trans us.1, (k2.2.2 5 (by decide) (by decide)).trans ub, fun g => ?_, fun g r => ?_⟩
  · rw [q.2.1 g]
    unfold State.formFor
    dsimp only
    rw [if_neg (by rw [us3]; decide)]
  · have y := q.2.2 us3 g (ug.trans r)
    have z := State.formFor_ent (v.unpause p i) p i i
    rw [y] at z
    rcases z with z | z <;> rw [z]

theorem release_spec (s : State) (iv : s.Inv) (p i : Nat) (b : Bytes) (u : State) (h : s.SqFor p 6 i b u) :
    ∃ t, exec (.release p) s = .next t ∧ t.ent i = Entry.free := by
  refine ⟨_, rfl, ?_⟩
  obtain ⟨w, wl, hi, h1, _⟩ := State.sq_command iv h (by decide)
  rw [h1 (by decide)]
  exact State.setEnt_free _ _ rfl

theorem finish_spec (s : State) (iv : s.Inv) (p i : Nat) (b : Bytes) (u : State) (h : s.SqFor p 7 i b u) :
    ∃ t, exec (.finish p) s = .next t ∧
      ((s.ent i).state = 3 → t.ent i = { s.ent i with finish := true }) ∧
      ((s.ent i).state ≠ 3 → 0 < (s.ent i).nDests → t.ent i = { s.ent i with state := 5, marks := (s.ent i).marks % 8 }) ∧
      ((s.ent i).state ≠ 3 → (s.ent i).nDests = 0 → (t.ent i).state = 6 ∨ (t.ent i).state = 0) := by
  refine ⟨_, rfl, ?_⟩
  obtain ⟨w, wl, hi, h1, _⟩ := State.sq_command iv h (by decide)
  rw [h1 (by decide)]
  show (_ → (w.finishEntry p i).ent i = _) ∧ (_ → _ → (w.finishEntry p i).ent i = _) ∧ (_ → _ → ((w.finishEntry p i).ent i).state
      = 6 ∨ ((w.finishEntry p i).ent i).state = 0)
  have e := State.ent_congr wl i
  unfold State.finishEntry
  rw [e]
  dsimp only
  refine ⟨fun g => ?_, fun g n => ?_, fun g n => ?_⟩
  · rw [if_pos g, State.modEnt_self _ _ (by rw [e]; show (s.ent i).state ≠ 0; omega), e]
  · rw [if_neg g, if_pos n, State.setEnt_self _ _ (by exact (by decide : (5 : Nat) ≠ 0))]
  · rw [if_neg g, if_neg (by omega)]
    exact State.retire_ends _ _ _ _ _ hi

theorem submit_spec (s : State) (iv : s.Inv) (p : Nat) (b : Bytes) (u : State) (h : s.SqHas p 1 b u) :
    ∃ t, exec (.submit p) s = .next t ∧
      (∀ r v, (u.incr (Rg.LDG_SQ_HEAD_HEAD p)).submitCheck p b = (r, v) → r ≠ 0 → t.ledger = s.ledger) ∧
      (∀ v i, (u.incr (Rg.LDG_SQ_HEAD_HEAD p)).submitCheck p b = (0, v) → v.freeEntry p = some i →
        (Entry.admitted b 0 0).Keeps (t.ent i) ∧ ((Entry.ofSubmit b).ring = true → (t.ent i).state = 3)) := by
  refine ⟨_, rfl, ?_⟩
  obtain ⟨e, iw, el, eo, _⟩ := State.sq_read iv h (by decide) (by decide)
  rw [if_pos rfl] at e
  rw [e]
  generalize (u.incr (Rg.LDG_SQ_HEAD_HEAD p)) = w at e iw el eo
  unfold State.submit
  constructor
  · intro r v hv hr
    have k : w.Keeps 74450131340091392 (w.submitCheck p b).2 := State.submitCheck_keeps (by decide) (.refl _) _ _
    rw [hv] at k ⊢
    split
    · rename_i h0; exact absurd (congrArg Prod.fst h0) hr
    · rename_i h0
      cases h0
      rw [State.bareRecord_ledger _ _ _ _ _ _ (by decide)]
      exact (show _ = _ from k.same .ledger (by decide)).trans el
  · intro v i hv hf
    have key (gen : Nat) (x y : State)
        (hy : y = (x.setEnt i (Entry.admitted b gen v.time.dev)).report p i (Entry.admitted b gen v.time.dev) 1 stDone 0 none) :
        (Entry.admitted b 0 0).Keeps ((if (Entry.ofSubmit b).ring then y else (y.toGate p i).formFor p i).ent i) ∧
        ((Entry.ofSubmit b).ring = true → ((if (Entry.ofSubmit b).ring then y else (y.toGate p i).formFor p i).ent i).state = 3)
            := by
      have e0 : (Entry.admitted b gen v.time.dev).state ≠ 0 := by
        unfold Entry.admitted
        dsimp only
        split <;> decide
      have ey : y.ent i = Entry.admitted b gen v.time.dev := hy ▸
        (State.ent_congr (State.report_ledger _ _ _ _ 1 _ _ _ (by decide)) i).trans (State.setEnt_self _ _ e0)
      have k0 : (Entry.admitted b 0 0).Keeps (y.ent i) := by rw [ey]; exact ⟨rfl, rfl, fun _ _ _ => rfl⟩
      clear hy
      split
      · rename_i hr
        exact ⟨k0, fun _ => by rw [ey]; exact if_pos hr⟩
      · rename_i hr
        exact ⟨k0.trans ((State.toGate_ent y p i i).2.trans (State.formFor_keeps' ..)), fun x => absurd x hr⟩
    rw [hv]
    split
    · rename_i h0
      cases h0
      rw [hf]
      exact key _ _ _ rfl
    · rename_i h0 h1
      exact absurd (congrArg Prod.fst h1).symm h0

end Sys2Proof.Machine
end

