-- ==== Sys2Proof/Laws/EffMgmt.lean ====
section
/-!
SUPPORT. What the management commands do (18_module.md R566 to R572).
-/
namespace Sys2Proof.Machine

theorem State.mgmtCmd_runs {s : State} (act : State → State) (h : s.mgmtAny = true) : s.mgmtCmd act = act s := by
  simp only [State.mgmtCmd, h, if_true]

theorem State.mgmtFull_any {s : State} (h : s.mgmtFull = true) : s.mgmtAny = true := by
  simp only [State.mgmtFull, Bool.and_eq_true] at h
  simp [State.mgmtAny, h]

theorem State.mgmtFullCmd_runs {s : State} (act : State → State) (h : s.mgmtFull = true) : s.mgmtFullCmd act = act s := by
  unfold State.mgmtFullCmd
  rw [State.mgmtCmd_runs _ (State.mgmtFull_any h), if_pos h]

theorem setEndpointId_spec (s : State) (op eid : Nat) (h : s.mgmtAny = true) :
    ∃ t, exec (.setEndpointId op eid) s = .next t ∧
      (op ≤ 1 ∧ 8 ≤ eid ∧ eid ≤ 254 → s.repliesWith { s.mgmt with eid := eid } 0 (toLe 1 eid) t) ∧
      (¬ (op ≤ 1 ∧ 8 ≤ eid ∧ eid ≤ 254) → s.repliesWith s.mgmt 2 [] t) := by
  refine ⟨_, rfl, ?_⟩
  rw [State.mgmtCmd_runs _ h]
  constructor
  · intro g; rw [if_pos (by simpa [inRange] using g)]; rfl
  · intro g; rw [if_neg (by simpa [inRange] using g)]; rfl

theorem getEndpointId_spec (s : State) (h : s.mgmtAny = true) :
    ∃ t, exec .getEndpointId s = .next t ∧ s.repliesWith s.mgmt 0 (toLe 1 s.mgmt.eid) t :=
  ⟨_, rfl, by rw [State.mgmtCmd_runs _ h]; rfl⟩

theorem getEndpointUuid_spec (s : State) (h : s.mgmtAny = true) :
    ∃ t, exec .getEndpointUuid s = .next t ∧ s.repliesWith s.mgmt 0 (toLe 16 (Config.uuidOf (s.rd Rg.DEV_SERIAL).toNat)) t :=
  ⟨_, rfl, by rw [State.mgmtCmd_runs _ h]; rfl⟩

theorem getMctpVersionSupport_spec (s : State) (h : s.mgmtAny = true) :
    ∃ t, exec .getMctpVersionSupport s = .next t ∧ s.repliesWith s.mgmt 0 (toLe 4 (Config.mgmtVersion 256)) t :=
  ⟨_, rfl, by rw [State.mgmtCmd_runs _ h]; rfl⟩

theorem getMessageTypeSupport_spec (s : State) (h : s.mgmtAny = true) :
    ∃ t, exec .getMessageTypeSupport s = .next t ∧ s.repliesWith s.mgmt 0 [2, 0, 1] t :=
  ⟨_, rfl, by rw [State.mgmtCmd_runs _ h]; rfl⟩

theorem i3cDynamicAddress_spec (s : State) (a : Nat) (h : s.mgmtAny = true) (hp : s.pins.i3cMode = true) :
    exec (.i3cDynamicAddress a) s = .next { s with mgmt := { s.mgmt with i3cAddr := a % 128 } } := by
  show Host.Outcome.next _ = _
  rw [State.mgmtCmd_runs _ h, if_pos hp]; rfl

theorem getTid_spec (s : State) (h : s.mgmtAny = true) :
    ∃ t, exec .getTid s = .next t ∧ s.repliesWith s.mgmt 0 (toLe 1 s.mgmt.tid) t :=
  ⟨_, rfl, by rw [State.mgmtCmd_runs _ h]; rfl⟩

theorem setTid_spec (s : State) (tid : Nat) (h : s.mgmtAny = true) :
    ∃ t, exec (.setTid tid) s = .next t ∧
      (1 ≤ tid ∧ tid ≤ 254 → s.repliesWith { s.mgmt with tid := tid } 0 [] t) ∧
      (¬ (1 ≤ tid ∧ tid ≤ 254) → s.repliesWith s.mgmt 2 [] t) := by
  refine ⟨_, rfl, ?_⟩
  rw [State.mgmtCmd_runs _ h]
  constructor
  · intro g; rw [if_pos (by simpa [inRange] using g)]; rfl
  · intro g; rw [if_neg (by simpa [inRange] using g)]; rfl

theorem getPldmVersion_spec (s : State) (ty : Nat) (h : s.mgmtAny = true) :
    ∃ t, exec (.getPldmVersion ty) s = .next t ∧
      (ty = 0 ∨ ty = 2 ∨ ty = 4 → s.repliesWith s.mgmt 0 (toLe 4 (Config.mgmtVersion ty)) t) ∧
      (¬ (ty = 0 ∨ ty = 2 ∨ ty = 4) → s.repliesWith s.mgmt 0x83 [] t) := by
  refine ⟨_, rfl, ?_⟩
  rw [State.mgmtCmd_runs _ h]
  constructor
  · intro g; rw [if_pos (by simpa [pldmTypes] using g)]; rfl
  · intro g; rw [if_neg (by simpa [pldmTypes] using g)]; rfl

theorem getPldmTypes_spec (s : State) (h : s.mgmtAny = true) :
    ∃ t, exec .getPldmTypes s = .next t ∧ s.repliesWith s.mgmt 0 [21, 0, 0, 0, 0, 0, 0, 0] t :=
  ⟨_, rfl, by rw [State.mgmtCmd_runs _ h]; rfl⟩

theorem getPldmCommands_spec (s : State) (ty : Nat) (h : s.mgmtAny = true) :
    ∃ t, exec (.getPldmCommands ty) s = .next t ∧
      (ty = 0 ∨ ty = 2 ∨ ty = 4 → s.repliesWith s.mgmt 0 (bitmap 32 (pldmCommands ty)) t) ∧
      (¬ (ty = 0 ∨ ty = 2 ∨ ty = 4) → s.repliesWith s.mgmt 0x83 [] t) := by
  refine ⟨_, rfl, ?_⟩
  rw [State.mgmtCmd_runs _ h]
  constructor
  · intro g; rw [if_pos (by simpa [pldmTypes] using g)]; rfl
  · intro g; rw [if_neg (by simpa [pldmTypes] using g)]; rfl

theorem getPdrRepositoryInfo_spec (s : State) (h : s.mgmtFull = true) :
    ∃ t, exec .getPdrRepositoryInfo s = .next t ∧ s.repliesWith s.mgmt 0 [19, 0, 0, 0] t :=
  ⟨_, rfl, by rw [State.mgmtFullCmd_runs _ h]; rfl⟩

theorem getPdr_spec (s : State) (n : Nat) (h : s.mgmtFull = true) :
    ∃ t, exec (.getPdr n) s = .next t ∧
      (∀ k, (n, k) ∈ pdrs → s.repliesWith s.mgmt 0 (toLe 2 n ++ toLe 1 k ++
        (if n = 3 then toLe 2 (s.fd Rg.PWR_THERM_LIMIT_C) ++ toLe 2 108 else [])) t) ∧
      ((∀ k, (n, k) ∉ pdrs) → s.repliesWith s.mgmt 0x82 [] t) := by
  refine ⟨_, rfl, ?_⟩
  rw [State.mgmtFullCmd_runs _ h]
  constructor
  · intro k hk
    have e : pdrs.find? (fun x => x.1 == n) = some (n, k) := by
      have main : ∀ x ∈ pdrs, pdrs.find? (fun y => y.1 == x.1) = some x := by decide
      exact main (n, k) hk
    rw [e]; rfl
  · intro hk
    have e : pdrs.find? (fun x => x.1 == n) = none := by
      rw [List.find?_eq_none]
      rintro ⟨a, k⟩ ha hn
      simp only [beq_iff_eq] at hn
      subst hn
      exact hk k ha
    rw [e]; rfl

theorem getSensorReading_spec (s : State) (n : Nat) (h : s.mgmtFull = true) :
    ∃ t, exec (.getSensorReading n) s = .next t ∧
      (n ∈ numSensors → s.repliesWith s.mgmt 0 (toLe 4 (find (fun _ => 0) s.mgmt.sensors n)) t) ∧
      (n ∉ numSensors → s.repliesWith s.mgmt 0x80 [] t) := by
  refine ⟨_, rfl, ?_⟩
  rw [State.mgmtFullCmd_runs _ h]
  constructor
  · intro g; rw [if_pos (by simpa using g)]; rfl
  · intro g; rw [if_neg (by simpa using g)]; rfl

theorem getStateSensorReadings_spec (s : State) (n : Nat) (h : s.mgmtAny = true) :
    ∃ t, exec (.getStateSensorReadings n) s = .next t ∧
      (n = 30 → s.repliesWith s.mgmt 0 (toLe 1 s.sensor30) t) ∧ (n ≠ 30 → s.repliesWith s.mgmt 0x80 [] t) := by
  refine ⟨_, rfl, ?_⟩
  rw [State.mgmtCmd_runs _ h]
  constructor
  · intro g; rw [if_pos g]; rfl
  · intro g; rw [if_neg g]; rfl

theorem getNumericEffecterValue_spec (s : State) (n : Nat) (h : s.mgmtFull = true) :
    ∃ t, exec (.getNumericEffecterValue n) s = .next t ∧
      (n = 40 → s.repliesWith s.mgmt 0 (toLe 2 (s.fd Rg.PWR_CAP_SET_CAP_W)) t) ∧ (n ≠ 40 → s.repliesWith s.mgmt 0x80 [] t) := by
  refine ⟨_, rfl, ?_⟩
  rw [State.mgmtFullCmd_runs _ h]
  constructor
  · intro g; rw [if_pos g]; rfl
  · intro g; rw [if_neg g]; rfl

theorem State.answer_fd (s : State) (c : Nat) (d : Bytes) (f : RF) : (s.answer c d).fd f = s.fd f := State.fd_of_regs rfl f

theorem setNumericEffecterValue_spec (s : State) (i : s.Inv) (v : Nat) (h : s.mgmtFull = true) :
    ∃ t, exec (.setNumericEffecterValue 40 v) s = .next t ∧
      (s.var.capMin ≤ v ∧ v ≤ s.var.limitW → t.fd Rg.PWR_CAP_SET_CAP_W = v % 4096 ∧ t.mgmt.reply = [0]) ∧
      (¬ (s.var.capMin ≤ v ∧ v ≤ s.var.limitW) →
        t.fd Rg.PWR_CAP_SET_CAP_W = s.fd Rg.PWR_CAP_SET_CAP_W ∧ t.fd Rg.PWR_CAP_SET_REJECT = 1 ∧ t.mgmt.reply = [2]) := by
  refine ⟨_, rfl, ?_⟩
  rw [State.mgmtFullCmd_runs _ h]
  rw [if_neg (by decide)]
  constructor
  · intro g
    rw [if_pos (by simpa [inRange] using g), State.answer_fd, State.fd_setF_self i _ _ (Nat.le_of_ble_eq_true rfl)]
    exact ⟨rfl, rfl⟩
  · intro g
    rw [if_neg (by simpa [inRange] using g), State.answer_fd, State.answer_fd, State.fd_raise_self i _ (Nat.le_of_ble_eq_true rfl)
        (Nat.le_of_ble_eq_true rfl)]
    exact ⟨State.fd_raise_apart i _ _ (RF.apart_bits rfl), rfl, rfl⟩

theorem setStateEffecterStates_spec (s : State) (i : s.Inv) (v : Nat) (h : s.mgmtFull = true) :
    ∃ t, exec (.setStateEffecterStates 41 v) s = .next t ∧
      (v < 2 → t.fd Rg.SVC_STATE_IDENTIFY = v ∧ t.mgmt.reply = [0]) ∧
      (¬ v < 2 → t.fd Rg.SVC_STATE_IDENTIFY = s.fd Rg.SVC_STATE_IDENTIFY ∧ t.mgmt.reply = [2]) := by
  refine ⟨_, rfl, ?_⟩
  rw [State.mgmtFullCmd_runs _ h]
  rw [if_neg (by decide)]
  constructor
  · intro g
    rw [if_pos g, State.answer_fd, State.fd_setF_self i _ _ (Nat.le_of_ble_eq_true rfl)]
    exact ⟨Nat.mod_eq_of_lt g, rfl⟩
  · intro g
    rw [if_neg g, State.answer_fd]
    exact ⟨rfl, rfl⟩

theorem setEventReceiver_spec (s : State) (e : Bool) (a : Nat) (h : s.mgmtFull = true) :
    ∃ t, exec (.setEventReceiver e a) s = .next t ∧
      s.repliesWith { s.mgmt with receiver := if e then some (a % 256) else none } 0 [] t :=
  ⟨_, rfl, by rw [State.mgmtFullCmd_runs _ h]; rfl⟩

theorem getFruRecordTableMetadata_spec (s : State) (h : s.mgmtAny = true) :
    ∃ t, exec .getFruRecordTableMetadata s = .next t ∧ s.repliesWith s.mgmt 0 (toLe 2 1 ++ toLe 4 s.fruRecord.length) t :=
  ⟨_, rfl, by rw [State.mgmtCmd_runs _ h]; rfl⟩

theorem getFruRecordTable_spec (s : State) (h : s.mgmtAny = true) :
    ∃ t, exec .getFruRecordTable s = .next t ∧ s.repliesWith s.mgmt 0 s.fruRecord t :=
  ⟨_, rfl, by rw [State.mgmtCmd_runs _ h]; rfl⟩

theorem find_ins_fold (f : Nat → Nat) : ∀ (l : List Nat) (t : SMap Nat) (n : Nat),
    find (fun _ => 0) (l.foldl (fun t id => ins t id (f id)) t) n = if n ∈ l then f n else find (fun _ => 0) t n := by
  intro l
  induction l with
  | nil => intro t n; simp
  | cons a l ih =>
    intro t n
    rw [List.foldl_cons, ih, find_ins]
    by_cases h : n = a <;> simp [h]

theorem State.event_sensors (s : State) (a b : Nat) : (s.event a b).mgmt.sensors = s.mgmt.sensors := by
  unfold State.event
  split <;> rfl

theorem sensorUpdate_spec (s : State) (h : s.mgmtFull = true) :
    ∃ t, exec .sensorUpdate s = .next t ∧ ∀ n ∈ numSensors, find (fun _ => 0) t.mgmt.sensors n = s.sensorNow n := by
  refine ⟨_, rfl, ?_⟩
  unfold State.sensorUpdate
  rw [if_pos h]
  have e (u : State) : u.senseTemp.mgmt.sensors = u.mgmt.sensors := by
    unfold State.senseTemp
    extract_lets c lvl
    clear_value lvl
    split
    · rfl
    · exact (State.event_sensors ..).trans rfl
  intro n hn
  rw [e]
  have k := find_ins_fold s.sensorNow numSensors s.mgmt.sensors n
  rw [if_pos hn] at k
  simp only [State.modMgmt]
  exact k

end Sys2Proof.Machine
end

