-- ==== Sys2Proof/Laws/EffPower.lean ====
section
/-!
SUPPORT. What the power and time commands do (16_power_time.md R511 to R527).
-/
namespace Sys2Proof.Machine

theorem State.setReason_inv {s : State} (i : s.Inv) (r : Nat) (b : Bool) : (s.setReason r b).Inv := (State.setReason_keeps (M :=
    2305843009213693951) (by decide) (.refl _) r b).inv i

theorem State.setReason_rd {s : State} (i : s.Inv) (r : Nat) (b : Bool) {a : Nat} (n : a < 0x10200) : (s.setReason r b).rd a =
    s.rd a := by
  have h1 : a ≠ Rg.PWR_THR_CNT r := by simp only [Rg.PWR_THR_CNT]; omega
  have h2 : a ≠ Rg.PWR_THR_US r := by simp only [Rg.PWR_THR_US]; omega
  unfold State.setReason State.reasonOn State.reasonOff
  split <;> split
  · rfl
  · refine (State.rd_bump_ne (f := Rg.PWR_THR_CNT_EVENTS r) ?_ _ h1).trans (State.rd_of_regs rfl a)
    exact i.of_eq rfl rfl rfl rfl rfl
  · refine (State.rd_bump_ne (f := Rg.PWR_THR_US_DURATION_US r) ?_ _ h2).trans (State.rd_of_regs rfl a)
    exact i.of_eq rfl rfl rfl rfl rfl
  · rfl

theorem State.setReason_fd {s : State} (i : s.Inv) (r : Nat) (b : Bool) {f : RF} (n : f.addr < 0x10200) : (s.setReason r b).fd f =
    s.fd f := by
  simp only [State.fd, State.setReason_rd i r b n]

theorem State.reasonOn_fd {s : State} (i : s.Inv) (r : Nat) {f : RF} (n : f.addr < 0x10200) : (s.reasonOn r).fd f = s.fd f :=
  State.setReason_fd i r true n

theorem State.reasonOff_fd {s : State} (i : s.Inv) (r : Nat) {f : RF} (n : f.addr < 0x10200) : (s.reasonOff r).fd f = s.fd f :=
  State.setReason_fd i r false n

theorem State.noteCurrent_fd {s : State} (i : s.Inv) {f : RF} (n : f.addr < 0x10200) : s.noteCurrent.fd f = s.fd f :=
  State.setReason_fd i 4 _ n

theorem sagDetect_spec (s : State) (i : s.Inv) (mv us : Nat) (hp : s.phase = .running) (hm : mv < 47000) (hu : 10 < us)
    (hs : s.on Rg.PWR_STATUS_SAG = false) :
    ∃ t, exec (.sagDetect mv us) s = .next t ∧ t.fd Rg.PWR_STATUS_SAG = 1 ∧ t.fd Rg.PWR_IRQ_SAG = 1 := by
  refine ⟨_, rfl, ?_⟩
  unfold State.sagDetect
  rw [if_pos (by simp [hp, hm, hu, hs])]
  rw [State.reasonOn_fd (by simp (maxDischargeDepth := 40) [*]) 2 (by decide), State.reasonOn_fd (by
      simp (maxDischargeDepth := 40) [*]) 2 (by decide)]
  constructor
  · simp (disch := (first
            | decide | exact Nat.le_of_ble_eq_true rfl | exact RF.apart_bits rfl
            | (refine RF.apart_addr ?_; simp only [Rg.PWR_STATUS_SAG, Rg.PWR_STATUS, Rg.PWR_IRQ_SAG, Rg.PWR_IRQ]; omega)
            | (simp only [ne_eq, Rg.PWR_STATUS_SAG, Rg.PWR_STATUS, Rg.PWR_IRQ_SAG, Rg.PWR_IRQ]; omega)
            | simp (maxDischargeDepth := 40) [*])) []
  · simp (disch := (first
            | decide | exact Nat.le_of_ble_eq_true rfl | exact RF.apart_bits rfl
            | (refine RF.apart_addr ?_; simp only [Rg.PWR_STATUS_SAG, Rg.PWR_STATUS, Rg.PWR_IRQ_SAG, Rg.PWR_IRQ]; omega)
            | (simp only [ne_eq, Rg.PWR_STATUS_SAG, Rg.PWR_STATUS, Rg.PWR_IRQ_SAG, Rg.PWR_IRQ]; omega)
            | simp (maxDischargeDepth := 40) [*])) []

theorem sagClear_spec (s : State) (i : s.Inv) (mv us : Nat) (hm : 48000 ≤ mv) (hu : 100 ≤ us) (hs : s.on Rg.PWR_STATUS_SAG = true) :
    ∃ t, exec (.sagClear mv us) s = .next t ∧ t.fd Rg.PWR_STATUS_SAG = 0 := by
  refine ⟨_, rfl, ?_⟩
  rw [if_pos (by simp [hm, hu, hs]), State.reasonOff_fd (by simp (maxDischargeDepth := 40) [*]) 2 (by decide)]
  simp (disch := (first
          | decide | exact Nat.le_of_ble_eq_true rfl | exact RF.apart_bits rfl
          | (refine RF.apart_addr ?_; simp only [Rg.PWR_STATUS_SAG, Rg.PWR_STATUS]; omega)
          | (simp only [ne_eq, Rg.PWR_STATUS_SAG, Rg.PWR_STATUS]; omega) | simp (maxDischargeDepth := 40) [*])) []

theorem currentSlowBegin_spec (s : State) (i : s.Inv) (w : Nat) (hp : s.phase = .running) (h : 11 * s.fd Rg.PWR_CAP_SET_CAP_W < 10
    * w) :
    ∃ t, exec (.currentSlowBegin w) s = .next t ∧ t.fd Rg.PWR_STATUS_CURRENT = 1 := by
  refine ⟨_, rfl, ?_⟩
  rw [if_pos (by simp [hp, h]), State.noteCurrent_fd (by simp (maxDischargeDepth := 40) [*]) (by decide)]
  simp (disch := (first
          | decide | exact Nat.le_of_ble_eq_true rfl | exact RF.apart_bits rfl
          | (refine RF.apart_addr ?_; simp only [Rg.PWR_STATUS_CURRENT, Rg.PWR_STATUS]; omega)
          | (simp only [ne_eq, Rg.PWR_STATUS_CURRENT, Rg.PWR_STATUS]; omega) | simp (maxDischargeDepth := 40) [*])) []

theorem currentSlowEnd_spec (s : State) (i : s.Inv) (w : Nat) (hc : s.on Rg.PWR_STATUS_CURRENT = true) (h : w ≤ s.fd
    Rg.PWR_CAP_SET_CAP_W) :
    ∃ t, exec (.currentSlowEnd w) s = .next t ∧ t.fd Rg.PWR_STATUS_CURRENT = 0 := by
  refine ⟨_, rfl, ?_⟩
  rw [if_pos (by simp [hc, h]), State.noteCurrent_fd (by simp (maxDischargeDepth := 40) [*]) (by decide)]
  simp (disch := (first
          | decide | exact Nat.le_of_ble_eq_true rfl | exact RF.apart_bits rfl
          | (refine RF.apart_addr ?_; simp only [Rg.PWR_STATUS_CURRENT, Rg.PWR_STATUS]; omega)
          | (simp only [ne_eq, Rg.PWR_STATUS_CURRENT, Rg.PWR_STATUS]; omega) | simp (maxDischargeDepth := 40) [*])) []

theorem State.setReason_stretched (s : State) (r : Nat) (b : Bool) : (s.setReason r b).power.stretched = s.power.stretched := by
  unfold State.setReason State.reasonOn State.reasonOff
  split <;> split <;> simp

theorem droopAssert_spec (s : State) (k : Nat) (hp : s.phase = .running) (hs : s.power.stretched.contains k = false) :
    ∃ t, exec (.droopAssert k) s = .next t ∧ t.power.stretched = s.power.stretched ++ [k] := by
  refine ⟨_, rfl, ?_⟩
  rw [if_neg (by rw [hs]; simp [hp])]
  exact State.setReason_stretched ..

theorem droopClear_spec (s : State) (k n : Nat) (hn : 8 ≤ n) (hs : s.power.stretched.contains k = true) :
    ∃ t, exec (.droopClear k n) s = .next t ∧ t.power.stretched = s.power.stretched.filter (· != k) := by
  refine ⟨_, rfl, ?_⟩
  rw [if_pos (by rw [hs]; simp [hn])]
  exact State.setReason_stretched ..

theorem refLost_spec (s : State) (i : s.Inv) (ns : Nat) (hp : s.phase = .running) (hn : 1000 ≤ ns) (he : s.on
    Rg.DEV_TIME_CTRL_REF_EXT = true) :
    ∃ t, exec (.refLost ns) s = .next t ∧ t.fd Rg.DEV_TIME_CTRL_REF_EXT = 0 ∧ t.fd Rg.PWR_IRQ_REF_LOST = 1 := by
  refine ⟨_, rfl, ?_⟩
  rw [if_pos (by simp [hp, hn, he])]
  have e (u : State) (f : RF) : (u.event 0 1).fd f = u.fd f := by
    unfold State.event; split
    · exact State.fd_of_regs rfl f
    · rfl
  rw [e, e]
  constructor
  · simp (disch := (first
            | decide | exact Nat.le_of_ble_eq_true rfl | exact RF.apart_bits rfl
            | (refine RF.apart_addr ?_; simp only [Rg.DEV_TIME_CTRL_REF_EXT, Rg.DEV_TIME_CTRL, Rg.PWR_IRQ_REF_LOST,
              Rg.PWR_IRQ]; omega)
            | (simp only [ne_eq, Rg.DEV_TIME_CTRL_REF_EXT, Rg.DEV_TIME_CTRL, Rg.PWR_IRQ_REF_LOST, Rg.PWR_IRQ]; omega)
            | simp (maxDischargeDepth := 40) [*])) []
  · simp (disch := (first
            | decide | exact Nat.le_of_ble_eq_true rfl | exact RF.apart_bits rfl
            | (refine RF.apart_addr ?_; simp only [Rg.DEV_TIME_CTRL_REF_EXT, Rg.DEV_TIME_CTRL, Rg.PWR_IRQ_REF_LOST,
              Rg.PWR_IRQ]; omega)
            | (simp only [ne_eq, Rg.DEV_TIME_CTRL_REF_EXT, Rg.DEV_TIME_CTRL, Rg.PWR_IRQ_REF_LOST, Rg.PWR_IRQ]; omega)
            | simp (maxDischargeDepth := 40) [*])) []

theorem devTimeSetWrite_spec (s : State) (i : s.Inv) (v : W64) :
    ∃ t, exec (.devTimeSetWrite v) s = .next t ∧ t.time.dev = v.toNat ∧
      t.fd Rg.DEV_PPS_STATS_TIME_SETS = (s.fd Rg.DEV_PPS_STATS_TIME_SETS + 1) % 65536 := by
  refine ⟨_, rfl, rfl, ?_⟩
  exact State.fd_incr_self (i.of_eq rfl rfl rfl rfl rfl) _ _ (by decide)

theorem pwrCapSetWrite_spec (s : State) (i : s.Inv) (v : W64) :
    ∃ t, exec (.pwrCapSetWrite v) s = .next t ∧
      (s.var.capMin ≤ bitsOf v.toNat 0 12 ∧ bitsOf v.toNat 0 12 ≤ s.var.limitW → t.fd Rg.PWR_CAP_SET_CAP_W = bitsOf v.toNat 0 12) ∧
      (¬ (s.var.capMin ≤ bitsOf v.toNat 0 12 ∧ bitsOf v.toNat 0 12 ≤ s.var.limitW) →
        t.fd Rg.PWR_CAP_SET_CAP_W = s.fd Rg.PWR_CAP_SET_CAP_W ∧ t.fd Rg.PWR_CAP_SET_REJECT = 1) := by
  refine ⟨_, rfl, ?_⟩
  unfold State.capSet
  extract_lets s1
  have i1 : s1.Inv := by simp only [s1]; split <;> simp (maxDischargeDepth := 40) [*]
  have e1 : s1.fd Rg.PWR_CAP_SET_CAP_W = s.fd Rg.PWR_CAP_SET_CAP_W := by
    simp only [s1]; split
    · simp (disch := (first
              | decide | exact Nat.le_of_ble_eq_true rfl | exact RF.apart_bits rfl
              | (refine RF.apart_addr ?_; simp only [Rg.PWR_CAP_SET_CAP_W, Rg.PWR_CAP_SET, Rg.PWR_CAP_SET_REJECT]; omega)
              | (simp only [ne_eq, Rg.PWR_CAP_SET_CAP_W, Rg.PWR_CAP_SET, Rg.PWR_CAP_SET_REJECT]; omega)
              | simp (maxDischargeDepth := 40) [*])) []
    · rfl
  have ev : s1.var = s.var := by simp only [s1]; split <;> rfl
  clear_value s1
  constructor
  · intro h
    rw [if_pos (by simpa [inRange, ev] using h), State.fd_setF_self i1 _ _ (by decide)]
    exact Nat.mod_eq_of_lt (bitsOf_lt _ _ _)
  · intro h
    rw [if_neg (by simpa [inRange, ev] using h), ← e1]
    exact ⟨State.fd_raise_apart i1 _ _ (RF.apart_bits rfl), State.fd_raise_self i1 _ (by decide) (by decide)⟩

theorem coreOn_spec (s : State) (c : Nat) (h : (s.core c).power = 1) :
    ∃ t, exec (.coreOn c) s = .next t ∧ (t.core c).power = 2 := by
  refine ⟨_, rfl, ?_⟩
  rw [if_pos h]
  unfold State.coreOn
  extract_lets s1
  have e1 : (s1.core c).power = 2 := by simp [s1]
  split
  · exact e1
  · split
    · exact e1
    · exact e1

theorem coreDrainedOff_spec (s : State) (c l : Nat) (h : (s.core c).power = 3) (hl : s.logCore c = some l)
    (h2 : s.slotFree l 2 = true) (h3 : s.slotFree l 3 = true) :
    ∃ t, exec (.coreDrainedOff c) s = .next t ∧ (t.core c).power = 0 := by
  refine ⟨_, rfl, ?_⟩
  simp only [h, hl, h2, h3, Bool.and_self, if_true, decide_true]
  rw [State.islandOff, State.core_modCore_self]
  rfl

theorem coreRampOnStart_spec (s : State) (c : Nat) (hc : s.power.rampWait.contains c = true) (h0 : (s.core c).power = 0)
    (ht : s.power.trip = false) :
    ∃ t, exec (.coreRampOnStart c) s = .next t ∧ (t.core c).power = 1 ∧ t.power.rampWait = s.power.rampWait.filter (· != c) ∧
      (s.power.rampTimes.length ≤ 16 → t.power.rampTimes.length ≤ 16) := by
  refine ⟨_, rfl, ?_⟩
  unfold State.rampOn
  rw [if_pos (by rw [hc]; simp [h0, ht])]
  extract_lets ts s1 sp s2
  have e (u : State) : u.noteCurrent.core c = u.core c ∧ u.noteCurrent.power.rampWait = u.power.rampWait ∧
      u.noteCurrent.power.rampTimes = u.power.rampTimes := by
    unfold State.noteCurrent State.setReason State.reasonOn State.reasonOff
    split <;> split <;> simp [State.core]
  rw [(e _).1, (e _).2.1, (e _).2.2]
  have r : s1.power = s.power := by simp only [s1]; split <;> rfl
  refine ⟨by simp, ?_, ?_⟩
  · simp only [State.modCore_power, s2, sp, r]
  · intro hl
    simp only [State.modCore_power, s2, sp, ts]
    split
    · simp; omega
    · simp; omega

theorem thermtrip_spec (s : State) (i : s.Inv) (k c : Nat) (hp : s.phase = .running) (hc : 108 ≤ c) :
    ∃ t, exec (.thermtrip k c) s = .next t ∧ t.power.trip = true ∧ (∀ e ∈ t.cores, e.2.power = 0 ∨ e.2.power = 4) ∧
      t.fd Rg.PWR_STATUS_THERMTRIP = 1 ∧ t.fd Rg.PWR_IRQ_THERMTRIP = 1 ∧ t.fd Rg.PWR_THERM_HOT_CLUSTER = k % 16 := by
  refine ⟨_, rfl, ?_⟩
  unfold State.thermtrip
  rw [if_neg (by simp [hp]; omega)]
  extract_lets ps s1 sp s2 s3 s4
  have i1 : s1.Inv := foldl_inv _ (fun s p h => State.jobFaultAs_inv h ..) i
  have i2 : s2.Inv := i1.of_eq rfl rfl rfl rfl rfl
  have e2 : s2.power.trip = true ∧ ∀ e ∈ s2.cores, e.2.power = 0 ∨ e.2.power = 4 := by
    refine ⟨rfl, ?_⟩
    intro e he
    obtain ⟨x, _, rfl⟩ := List.mem_map.1 he
    dsimp only
    split
    · rename_i h; exact .inr h
    · exact .inl rfl
  clear_value s2
  have i0 : ((((s2.raise Rg.PWR_STATUS_THERMTRIP).raise Rg.PWR_IRQ_THERMTRIP).setF Rg.PWR_THERM_MAX_C (max c (s2.fd
      Rg.PWR_THERM_MAX_C))).setF
      Rg.PWR_THERM_HOT_CLUSTER k).Inv := by simp (maxDischargeDepth := 40) [*]
  have i3 : s3.Inv := State.setReason_inv i0 1 true
  have f3 : s3.fd Rg.PWR_STATUS_THERMTRIP = 1 ∧ s3.fd Rg.PWR_IRQ_THERMTRIP = 1 ∧ s3.fd Rg.PWR_THERM_HOT_CLUSTER = k % 16 := by
    simp only [s3]
    rw [State.reasonOn_fd i0 1 (by decide), State.reasonOn_fd i0 1 (by decide), State.reasonOn_fd i0 1 (by decide)]
    refine ⟨?_, ?_, ?_⟩
    · simp (disch := (first
              | decide | exact Nat.le_of_ble_eq_true rfl | exact RF.apart_bits rfl
              | (refine RF.apart_addr ?_; simp only [Rg.PWR_STATUS_THERMTRIP, Rg.PWR_STATUS, Rg.PWR_IRQ_THERMTRIP, Rg.PWR_IRQ,
                Rg.PWR_THERM_MAX_C, Rg.PWR_THERM, Rg.PWR_THERM_HOT_CLUSTER]; omega)
              | (simp only [ne_eq, Rg.PWR_STATUS_THERMTRIP, Rg.PWR_STATUS, Rg.PWR_IRQ_THERMTRIP, Rg.PWR_IRQ, Rg.PWR_THERM_MAX_C,
                Rg.PWR_THERM, Rg.PWR_THERM_HOT_CLUSTER]; omega) | simp (maxDischargeDepth := 40) [*])) []
    · simp (disch := (first
              | decide | exact Nat.le_of_ble_eq_true rfl | exact RF.apart_bits rfl
              | (refine RF.apart_addr ?_; simp only [Rg.PWR_IRQ_THERMTRIP, Rg.PWR_IRQ, Rg.PWR_THERM_MAX_C, Rg.PWR_THERM,
                Rg.PWR_THERM_HOT_CLUSTER]; omega)
              | (simp only [ne_eq, Rg.PWR_IRQ_THERMTRIP, Rg.PWR_IRQ, Rg.PWR_THERM_MAX_C, Rg.PWR_THERM,
                Rg.PWR_THERM_HOT_CLUSTER]; omega) | simp (maxDischargeDepth := 40) [*])) []
    · simp (disch := (first
              | decide | exact Nat.le_of_ble_eq_true rfl | exact RF.apart_bits rfl
              | (refine RF.apart_addr ?_; simp only [Rg.PWR_THERM_HOT_CLUSTER, Rg.PWR_THERM]; omega)
              | (simp only [ne_eq, Rg.PWR_THERM_HOT_CLUSTER, Rg.PWR_THERM]; omega) | simp (maxDischargeDepth := 40) [*])) []; rfl
  have e3 : s3.power.trip = s2.power.trip ∧ s3.cores = s2.cores := by
    simp only [s3, State.reasonOn]
    split <;> simp
  have k4 : s3.Keeps 274877906944 s4 := keeps_foldl _ (.refl _) fun u p hu => keeps_ite (State.recomputePool_keeps (by decide) hu
      p) hu
  have i4 := k4.inv i3
  have kn (u : State) : u.noteCurrent.power.trip = u.power.trip ∧ u.noteCurrent.cores = u.cores := by
    unfold State.noteCurrent State.setReason State.reasonOn State.reasonOff
    split <;> split <;> simp
  have ks : s4.noteCurrent.Keeps 4294967296 s4.noteCurrent.sense := State.sense_mask _
  have i5 : s4.noteCurrent.Inv := State.setReason_inv i4 _ _
  have fd5 (f : RF) (h : RegBlock.pwr.has f.addr) (h2 : f.addr < 0x10200) : s4.noteCurrent.sense.fd f = s3.fd f := by
    rw [ks.fd i5 h (by decide) (by decide), State.noteCurrent_fd i4 h2, k4.fd i3 h (by decide) (by decide)]
  refine ⟨?_, ?_, ?_, ?_, ?_⟩
  · rw [show s4.noteCurrent.sense.power = s4.noteCurrent.power from ks.same .power (by decide), (kn _).1,
      show s4.power = s3.power from k4.same .power (by decide), e3.1, e2.1]
  · rw [show s4.noteCurrent.sense.cores = s4.noteCurrent.cores from ks.same .cores (by decide), (kn _).2,
      show s4.cores = s3.cores from k4.same .cores (by decide), e3.2]
    exact e2.2
  · rw [fd5 _ Rg.PWR_STATUS_THERMTRIP_in (by decide)]; exact f3.1
  · rw [fd5 _ Rg.PWR_IRQ_THERMTRIP_in (by decide)]; exact f3.2.1
  · rw [fd5 _ Rg.PWR_THERM_HOT_CLUSTER_in (by decide)]; exact f3.2.2

theorem State.timeSet_rd {s : State} (i : s.Inv) (v : W64) {a : Nat} (n : a ≠ Rg.DEV_PPS_STATS) : (s.timeSet v).rd a = s.rd a :=
  (State.rd_incr_ne (s := { s with time := { s.time with dev := v.toNat, hold := 0 } }) (f := Rg.DEV_PPS_STATS_TIME_SETS)
    (i.of_eq rfl rfl rfl rfl rfl) _ n).trans (State.rd_of_regs (s := s) rfl a)

theorem State.timeSet_fd {s : State} (i : s.Inv) (v : W64) {f : RF} (n : f.apart Rg.DEV_PPS_STATS_TIME_SETS) : (s.timeSet v).fd f
    = s.fd f :=
  (State.fd_incr_apart (s := { s with time := { s.time with dev := v.toNat, hold := 0 } }) (i.of_eq rfl rfl rfl rfl rfl) _ _ _ n).trans
    (State.fd_of_regs (s := s) rfl f)

theorem State.ppsCapture_inv {s : State} (i : s.Inv) : s.ppsCapture.Inv := by
  unfold State.ppsCapture
  extract_lets c
  simp (maxDischargeDepth := 40) [*]

theorem State.ppsCapture_shown {s : State} (i : s.Inv) : s.ppsCapture.rd Rg.DEV_PPS_CAPTURE = BitVec.ofNat 64 s.time.dev ∧
    s.ppsCapture.fd Rg.DEV_PPS_STATS_EDGES = (s.fd Rg.DEV_PPS_STATS_EDGES + 1) % 2 ^ 32 := by
  unfold State.ppsCapture
  extract_lets c
  generalize (if c < ppsSecond c then 2 ^ 32 - ppsError c else ppsError c) = o
  constructor
  · rw [State.rd_setF_ne (by simp (maxDischargeDepth := 40) [*]) _ (by decide), State.rd_incr_ne (by
        simp (maxDischargeDepth := 40) [*]) _ (by decide), State.rd_wr_self i]
  · rw [State.fd_setF_apart (by simp (maxDischargeDepth := 40) [*]) _ _ _ (RF.apart_addr (by decide)), State.fd_incr_self (by
        simp (maxDischargeDepth := 40) [*]) _ _ (by decide),
      State.fd_wr_apart i _ _ _ (by decide)]
    rfl

theorem State.ppsReject_shown {s : State} (i : s.Inv) : s.ppsReject.rd Rg.DEV_PPS_CAPTURE = s.rd Rg.DEV_PPS_CAPTURE ∧
    s.ppsReject.fd Rg.DEV_PPS_STATS_EDGES = s.fd Rg.DEV_PPS_STATS_EDGES ∧ s.ppsReject.fd Rg.DEV_PPS_OFFSET_APPLIED = 0 := by
  unfold State.ppsReject
  refine ⟨?_, ?_, ?_⟩
  · rw [State.rd_incr_ne (by simp (maxDischargeDepth := 40) [*]) _ (by decide), State.rd_setF_ne i _ (by decide)]
  · rw [State.fd_incr_apart (by simp (maxDischargeDepth := 40) [*]) _ _ _ (RF.apart_bits rfl), State.fd_setF_apart i _ _ _
        (RF.apart_addr (by decide))]
  · rw [State.fd_incr_apart (by simp (maxDischargeDepth := 40) [*]) _ _ _ (RF.apart_addr (by decide)), State.fd_setF_self i _ _
        (by decide)]
    rfl

theorem State.ppsReject_inv {s : State} (i : s.Inv) : s.ppsReject.Inv := by
  unfold State.ppsReject
  simp (maxDischargeDepth := 40) [*]

theorem State.rd_time (s : State) (x : TimeSt) (a : Nat) : State.rd { s with time := x } a = s.rd a := rfl

theorem State.fd_time (s : State) (x : TimeSt) (f : RF) : State.fd { s with time := x } f = s.fd f := rfl

theorem State.ppsApply_shown {s : State} (i : s.Inv) : s.ppsApply.rd Rg.DEV_PPS_CAPTURE = s.rd Rg.DEV_PPS_CAPTURE ∧
    s.ppsApply.fd Rg.DEV_PPS_STATS_EDGES = s.fd Rg.DEV_PPS_STATS_EDGES ∧ s.ppsApply.fd Rg.DEV_PPS_OFFSET_APPLIED = 1 := by
  unfold State.ppsApply
  extract_lets c s1
  have e : s1 = s.raise Rg.DEV_PPS_OFFSET_APPLIED := rfl
  refine ⟨?_, ?_, ?_⟩
  · refine (s1.rd_time _ _).trans ?_
    rw [e, State.rd_raise_ne i (by decide)]
  · refine (s1.fd_time _ _).trans ?_
    rw [e, State.fd_raise_apart i _ _ (RF.apart_addr (by decide))]
  · refine (s1.fd_time _ _).trans ?_
    rw [e, State.fd_raise_self i _ (by decide) (by decide)]

theorem State.ppsCapture_time (s : State) : s.ppsCapture.time = s.time := rfl

theorem State.ppsReject_time (s : State) : s.ppsReject.time = s.time := rfl

theorem State.timeSet_time (s : State) (v : W64) : (s.timeSet v).time.dev = v.toNat := rfl

theorem State.ppsApply_time (s : State) : (s.time.dev < ppsSecond s.time.dev → s.ppsApply.time.dev = (s.time.dev + ppsError
    s.time.dev) % 2 ^ 64 ∧
      s.ppsApply.time.hold = s.time.hold) ∧
    (¬ s.time.dev < ppsSecond s.time.dev → s.ppsApply.time.dev = s.time.dev ∧ s.ppsApply.time.hold = s.time.hold + ppsError
        s.time.dev) := by
  unfold State.ppsApply
  extract_lets c s1
  generalize ppsError c = e
  generalize ppsSecond c = k
  constructor
  · intro h
    exact ⟨if_pos h, if_pos h⟩
  · intro h
    exact ⟨if_neg h, if_neg h⟩

theorem ppsEdge_spec (s : State) (i : s.Inv) (ns : Nat) (hp : s.phase = .running) (hn : 50 ≤ ns) (set : Option W64) :
    ∃ t, exec (.ppsEdge ns set) s = .next t ∧ t.rd Rg.DEV_PPS_CAPTURE = BitVec.ofNat 64 s.time.dev ∧
      t.fd Rg.DEV_PPS_STATS_EDGES = (s.fd Rg.DEV_PPS_STATS_EDGES + 1) % 2 ^ 32 ∧
      (∀ v, set = some v → t.time.dev = v.toNat ∧ t.fd Rg.DEV_PPS_OFFSET_APPLIED = 0) ∧
      (set = none → s.on Rg.DEV_TIME_CTRL_PPS_EN = true → ppsError s.time.dev ≤ s.fd Rg.DEV_TIME_CTRL_WINDOW_US * 1000 → s.ppsNear
          = false →
        t.fd Rg.DEV_PPS_OFFSET_APPLIED = 1 ∧
        (s.time.dev < ppsSecond s.time.dev → t.time.dev = (s.time.dev + ppsError s.time.dev) % 2 ^ 64 ∧ t.time.hold = s.time.hold) ∧
        (¬ s.time.dev < ppsSecond s.time.dev → t.time.dev = s.time.dev ∧ t.time.hold = s.time.hold + ppsError s.time.dev)) ∧
      (set = none → s.fd Rg.DEV_TIME_CTRL_WINDOW_US * 1000 < ppsError s.time.dev ∨ s.ppsNear = true →
        t.fd Rg.DEV_PPS_OFFSET_APPLIED = 0 ∧ t.time = s.time) := by
  refine ⟨_, rfl, ?_⟩
  rw [if_pos (by simp [hp, hn])]
  have h := State.ppsCapture_shown i
  have ic := State.ppsCapture_inv i
  have ht := s.ppsCapture_time
  unfold State.ppsEdge
  generalize s.ppsCapture = u at h ic ht
  have hr := State.ppsReject_shown ic
  have ir := State.ppsReject_inv ic
  have ha := State.ppsApply_shown ic
  have hat := u.ppsApply_time
  have hrt := u.ppsReject_time
  rw [ht] at hat hrt
  generalize u.ppsApply = w at ha hat
  cases set with
  | some v =>
    dsimp only
    refine ⟨?_, ?_, ?_, (fun h => by cases h), (fun h => by cases h)⟩
    · rw [State.timeSet_rd ir v (by decide), hr.1, h.1]
    · rw [State.timeSet_fd ir v (RF.apart_bits rfl), hr.2.1, h.2]
    · rintro _ ⟨⟩
      exact ⟨State.timeSet_time _ v, (State.timeSet_fd ir v (RF.apart_addr (by decide))).trans hr.2.2⟩
  | none =>
    dsimp only
    generalize s.fd Rg.DEV_TIME_CTRL_WINDOW_US * 1000 = win at *
    generalize ppsError s.time.dev = er at *
    generalize ppsSecond s.time.dev = sec at *
    split
    · rename_i hc
      refine ⟨hr.1.trans h.1, hr.2.1.trans h.2, (fun _ h => by cases h), ?_, fun _ _ => ⟨hr.2.2, hrt⟩⟩
      intro _ h1 h2 h3
      simp only [h1, h3, Bool.not_true, Bool.false_or, Bool.or_false, decide_eq_true_eq] at hc
      omega
    · rename_i hc
      refine ⟨ha.1.trans h.1, ha.2.1.trans h.2, (fun _ h => by cases h), fun _ _ _ _ => ⟨ha.2.2, hat⟩, ?_⟩
      intro _ h1
      simp only [Bool.or_eq_true, decide_eq_true_eq, not_or] at hc
      rcases h1 with h1 | h1
      · exact absurd h1 hc.1.2
      · exact absurd h1 hc.2

/-- The grants of the three classes and the base fit in the cap, unless base and reserve alone exceed it (R513). -/
theorem classGrants_fit (order cap base reserve links memory compute : Nat) :
    base + (classGrants order cap base reserve links memory compute).1 + (classGrants order cap base reserve links memory
        compute).2.1 +
      (classGrants order cap base reserve links memory compute).2.2 ≤ cap ∨
    ((classGrants order cap base reserve links memory compute).1 = 0 ∧ (classGrants order cap base reserve links memory
        compute).2.1 = 0) := by
  simp only [classGrants]
  generalize order % 4 = k0
  generalize order / 4 % 4 = k1
  generalize order / 16 % 4 = k2
  generalize (if k0 = 0 then links else if k0 = 1 then memory else compute - reserve) = w0
  generalize (if k1 = 0 then links else if k1 = 1 then memory else compute - reserve) = w1
  split_ifs <;> omega

theorem powerLoop_spec (s : State) (i : s.Inv) (m : PowerIn) (hp : s.phase = .running) (hr : s.inRecovery = false) :
    ∃ t, exec (.powerLoop m) s = .next t ∧ t.fd Rg.PWR_BUDGET_BASE_W = m.baseW % 4096 ∧
      ∃ links memory compute, t.fd Rg.PWR_BUDGET_LINKS_W = links / 1000 % 4096 ∧ t.fd Rg.PWR_BUDGET_MEMORY_W = memory / 1000 %
          4096 ∧
        t.fd Rg.PWR_BUDGET_COMPUTE_W = compute / 1000 % 4096 ∧
        (m.baseW * 1000 + links + memory + compute ≤ s.fd Rg.PWR_CAP_SET_CAP_W * 1000 ∨ (links = 0 ∧ memory = 0)) := by
  refine ⟨_, rfl, ?_⟩
  unfold State.powerLoop
  rw [if_neg (by simp [hp, hr])]
  extract_lets s1 cs order links memory reserve g cs2 s2 s3 s4 held s5 s6 s7
  have cap1 : ∀ (u : State), u.Inv → (u.measure m).fd Rg.PWR_CAP_SET_CAP_W = u.fd Rg.PWR_CAP_SET_CAP_W ∧ (u.measure m).Inv := by
    intro u hu
    unfold State.measure
    extract_lets hot v
    have iv : v.Inv := by simp only [v]; simp (maxDischargeDepth := 40) [*]
    have ev : v.fd Rg.PWR_CAP_SET_CAP_W = u.fd Rg.PWR_CAP_SET_CAP_W := by
      simp (disch := (first
              | decide | exact Nat.le_of_ble_eq_true rfl | exact RF.apart_bits rfl
              | (refine RF.apart_addr ?_; simp only [Rg.PWR_CAP_SET_CAP_W, Rg.PWR_CAP_SET, Rg.PWR_STATUS_INPUT_MV, Rg.PWR_STATUS,
                Rg.PWR_STATUS_INPUT_W, Rg.PWR_ENERGY_ENERGY_MJ, Rg.PWR_ENERGY, Rg.PWR_THERM_MAX_C, Rg.PWR_THERM,
                Rg.PWR_THERM_HOT_CLUSTER]; omega)
              | (simp only [ne_eq, Rg.PWR_CAP_SET_CAP_W, Rg.PWR_CAP_SET, Rg.PWR_STATUS_INPUT_MV, Rg.PWR_STATUS,
                Rg.PWR_STATUS_INPUT_W, Rg.PWR_ENERGY_ENERGY_MJ, Rg.PWR_ENERGY, Rg.PWR_THERM_MAX_C, Rg.PWR_THERM,
                Rg.PWR_THERM_HOT_CLUSTER]; omega) | simp (maxDischargeDepth := 40) [*])) [v]
    split
    · have j : ({ v with power := { v.power with trip := false } } : State).Inv := iv.of_eq rfl rfl rfl rfl rfl
      exact ⟨(State.fd_setF_apart j Rg.PWR_STATUS_THERMTRIP _ _ (RF.apart_addr (by decide))).trans ev, State.setF_inv j _ _⟩
    · exact ⟨ev, iv⟩
  have cap2 : ∀ (l : List Nat) (u : State), u.Inv → (l.foldl (State.thermCluster m) u).fd Rg.PWR_CAP_SET_CAP_W = u.fd
      Rg.PWR_CAP_SET_CAP_W ∧
      (l.foldl (State.thermCluster m) u).Inv := by
    intro l
    induction l with
    | nil => intro u hu; exact ⟨rfl, hu⟩
    | cons k l ih =>
      intro u hu
      have hk : (State.thermCluster m u k).fd Rg.PWR_CAP_SET_CAP_W = u.fd Rg.PWR_CAP_SET_CAP_W ∧ (State.thermCluster m u k).Inv :=
          by
        refine ⟨?_, (State.thermCluster_keeps (M := 2305843009213693951) (by decide) m (.refl u) k).inv hu⟩
        unfold State.thermCluster
        extract_lets tt lim ccs
        split
        · split
          · rename_i c hc
            have j : ({ u with power := { u.power with thermOff := u.power.thermOff ++ [c] } } : State).Inv := hu.of_eq rfl rfl rfl rfl rfl
            have kd := State.drainCore_keeps (M := 218565663073427456) rfl (.refl ({ u with power := { u.power with thermOff := u.power.thermOff ++ [c] } } : State)) c
            rw [State.fd_raise_apart (kd.inv j) _ _ (RF.apart_addr (by decide)), kd.fd j Rg.PWR_CAP_SET_CAP_W_in (by decide) (by
                decide)]
            rfl
          · rfl
        · split
          · split <;> rfl
          · rfl
      rw [List.foldl_cons]
      have := ih _ hk.2
      exact ⟨this.1.trans hk.1, this.2⟩
  have h1 : s1.fd Rg.PWR_CAP_SET_CAP_W = s.fd Rg.PWR_CAP_SET_CAP_W ∧ s1.Inv := by
    have a := cap1 s i
    have b := cap2 s.enabled (s.measure m) a.2
    exact ⟨b.1.trans a.1, b.2⟩
  have i2 : s2.Inv := foldl_inv _ (fun u c hu => (State.noteClaim_keeps (M := 2305843009213693951) (by decide) (.refl _) c).inv
      hu) h1.2
  have i3 : s3.Inv := by simp only [s3]; simp (maxDischargeDepth := 40) [*]
  have k4 : s3.Keeps 218565663073429504 s4 := keeps_foldl _ (.refl s3) fun u p hu => State.balance_keeps (by decide) hu p
  have i4 := k4.inv i3
  have i5 : s5.Inv := State.setF_inv i4 _ _
  have i6 : s6.Inv := State.setReason_inv i5 _ _
  have i7 : s7.Inv := State.setReason_inv i6 _ _
  have i8 : (s7.setReason 5 (held 5)).Inv := State.setReason_inv i7 _ _
  have i9 : (s7.setReason 5 (held 5)).noteCurrent.Inv := State.setReason_inv i8 _ _
  have fin (f : RF) (hf : RegBlock.pwr.has f.addr) (h2 : f.addr < 0x10200) (ha : f.apart Rg.PWR_STATUS_THERMAL) :
      ((s7.setReason 5 (held 5)).noteCurrent.sense).fd f = s3.fd f := by
    rw [(State.sense_mask _).fd i9 hf (by decide) (by decide), State.noteCurrent_fd i8 h2, State.setReason_fd i7 5 _ h2]
    simp only [s7]
    rw [State.setReason_fd i6 1 _ h2]
    simp only [s6]
    rw [State.setReason_fd i5 0 _ h2]
    simp only [s5]
    rw [State.fd_setF_apart i4 _ _ _ ha, k4.fd i3 hf (by decide) (by decide)]
  refine ⟨?_, g.1, g.2.1, g.2.2, ?_, ?_, ?_, ?_⟩
  · rw [fin _ Rg.PWR_BUDGET_BASE_W_in (by decide) (RF.apart_addr (by decide))]
    simp (disch := (first
            | decide | exact Nat.le_of_ble_eq_true rfl | exact RF.apart_bits rfl
            | (refine RF.apart_addr ?_; simp only [Rg.PWR_BUDGET_BASE_W, Rg.PWR_BUDGET, Rg.PWR_BUDGET_LINKS_W,
              Rg.PWR_BUDGET_MEMORY_W, Rg.PWR_BUDGET_COMPUTE_W]; omega)
            | (simp only [ne_eq, Rg.PWR_BUDGET_BASE_W, Rg.PWR_BUDGET, Rg.PWR_BUDGET_LINKS_W, Rg.PWR_BUDGET_MEMORY_W,
              Rg.PWR_BUDGET_COMPUTE_W]; omega) | simp (maxDischargeDepth := 40) [*])) [s3]; rfl
  · rw [fin _ Rg.PWR_BUDGET_LINKS_W_in (by decide) (RF.apart_addr (by decide))]
    simp (disch := (first
            | decide | exact Nat.le_of_ble_eq_true rfl | exact RF.apart_bits rfl
            | (refine RF.apart_addr ?_; simp only [Rg.PWR_BUDGET_BASE_W, Rg.PWR_BUDGET, Rg.PWR_BUDGET_LINKS_W,
              Rg.PWR_BUDGET_MEMORY_W, Rg.PWR_BUDGET_COMPUTE_W]; omega)
            | (simp only [ne_eq, Rg.PWR_BUDGET_BASE_W, Rg.PWR_BUDGET, Rg.PWR_BUDGET_LINKS_W, Rg.PWR_BUDGET_MEMORY_W,
              Rg.PWR_BUDGET_COMPUTE_W]; omega) | simp (maxDischargeDepth := 40) [*])) [s3]; rfl
  · rw [fin _ Rg.PWR_BUDGET_MEMORY_W_in (by decide) (RF.apart_addr (by decide))]
    simp (disch := (first
            | decide | exact Nat.le_of_ble_eq_true rfl | exact RF.apart_bits rfl
            | (refine RF.apart_addr ?_; simp only [Rg.PWR_BUDGET_BASE_W, Rg.PWR_BUDGET, Rg.PWR_BUDGET_LINKS_W,
              Rg.PWR_BUDGET_MEMORY_W, Rg.PWR_BUDGET_COMPUTE_W]; omega)
            | (simp only [ne_eq, Rg.PWR_BUDGET_BASE_W, Rg.PWR_BUDGET, Rg.PWR_BUDGET_LINKS_W, Rg.PWR_BUDGET_MEMORY_W,
              Rg.PWR_BUDGET_COMPUTE_W]; omega) | simp (maxDischargeDepth := 40) [*])) [s3]; rfl
  · rw [fin _ Rg.PWR_BUDGET_COMPUTE_W_in (by decide) (RF.apart_addr (by decide))]
    simp (disch := (first
            | decide | exact Nat.le_of_ble_eq_true rfl | exact RF.apart_bits rfl
            | (refine RF.apart_addr ?_; simp only [Rg.PWR_BUDGET_COMPUTE_W, Rg.PWR_BUDGET]; omega)
            | (simp only [ne_eq, Rg.PWR_BUDGET_COMPUTE_W, Rg.PWR_BUDGET]; omega) | simp (maxDischargeDepth := 40) [*])) [s3]; rfl
  · have := classGrants_fit order (s1.fd Rg.PWR_CAP_SET_CAP_W * 1000) (m.baseW * 1000) reserve links memory (cs.foldl (fun a c =>
        a + c.dem) 0)
    rw [h1.1] at this
    simpa only [g, h1.1] using this

end Sys2Proof.Machine
end

