-- ==== Sys2Proof/Laws/EffRegs.lean ====
section
/-!
SUPPORT. What register accesses do (00_scope.md R11; 01_architecture.md R33 to R36; 14_larric_link.md R472 to R474).
-/
namespace Sys2Proof.Machine

theorem accMask_zero (x : W64) : x &&& ~~~(0 : W64) = x := by
  show x &&& ~~~(0#64) = x
  rw [BitVec.not_zero, BitVec.and_allOnes]

theorem State.regRead_shown {s : State} (i : s.Inv) {a : Nat} {r : RegRow} (h : s.PlainRead a r) : s.ReadShown (s.regRead a) a r
    := by
  unfold State.regRead
  rw [if_neg (by simp [h.here]), if_neg h.fault, if_neg h.memory]
  have hn : ((windowOf a).bind fun w =>
      if 0x8_2000 ≤ w.2 && w.2 < 0x8_2800 && (w.2 - 0x8_2000) % 0x20 = 8 then some (w.1, (w.2 - 0x8_2000) / 0x20) else none) =
          none := by
    have hs := h.select
    unfold selNextAt at hs
    cases hw : windowOf a with
    | none => rfl
    | some w =>
      rw [hw] at hs
      dsimp only at hs
      show (if _ then _ else _) = _
      rw [if_neg]
      simpa using hs
  rw [hn]
  dsimp only
  rw [h.row]
  dsimp only
  have e : ∀ u : State, u.rd = (fun b => find regReset u.regs b) := fun u => rfl
  have key : ∀ u : State, (u.regs = s.regs ∨ u = s) → True := fun _ _ => trivial
  have hu : ∀ u : State, u = (if r.accMask [.rc] = 0 then s else s.wr a (s.rd a &&& ~~~r.accMask [.rc])) →
      u.rd a = s.rd a &&& ~~~r.accMask [.rc] ∧ (∀ b, b ≠ a → u.rd b = s.rd b) ∧ u.mem = s.mem ∧ u.hostMem = s.hostMem := by
    rintro u rfl
    split
    · rename_i h0
      rw [h0]
      exact ⟨(accMask_zero _).symm, fun _ _ => rfl, rfl, rfl⟩
    · exact ⟨State.rd_wr_self i _ _, fun b hb => State.rd_wr_ne i _ hb, rfl, rfl⟩
  have hu := hu _ rfl
  generalize (if r.accMask [.rc] = 0 then s else s.wr a (s.rd a &&& ~~~r.accMask [.rc])) = u at hu
  split
  · exact ⟨rfl, hu.1, hu.2.1, hu.2.2⟩
  · exact ⟨rfl, hu.1, hu.2.1, hu.2.2⟩

theorem State.plainWrite_shown {s : State} (i : s.Inv) {a : Nat} {r : RegRow} (h : regRow? a = some r) (v : W64) :
    s.WriteShown (s.plainWrite a v) a v r := by
  unfold State.plainWrite
  rw [h]
  exact ⟨State.rd_wr_self i _ _, fun b hb => State.rd_wr_ne i _ hb, rfl, rfl⟩

theorem State.access_may {s : State} {who : Actor} {a len : Nat} {w : Bool} (h : s.may who a len w = true) (act : State → State) :
    s.access who a len w act = act s := by
  unfold State.may at h
  have h := Bool.and_eq_true _ _ ▸ h
  unfold State.access
  rw [if_neg (by simpa using h.1)]
  cases who with
  | innkeeper =>
    have h2 := h.2
    simp only [Bool.and_eq_true, beq_iff_eq, decide_eq_true_eq] at h2
    dsimp only
    unfold State.innkeeperAccess
    rw [if_neg (by omega), if_neg (by simp [h2.1.2, h2.2])]
  | host =>
    have h2 := h.2
    simp only [Bool.and_eq_true, decide_eq_true_eq, Option.isNone_iff_eq_none] at h2
    dsimp only
    rw [if_neg (by simp [h2.1.1]; omega), h2.2]
  | core n =>
    have h2 := h.2
    dsimp only at h2 ⊢
    unfold State.coreAccess
    cases ho : s.ctlOwner n with
    | none => rw [ho] at h2; cases h2
    | some p =>
      rw [ho] at h2
      simp only [Bool.and_eq_true, beq_iff_eq] at h2
      dsimp only
      rw [if_neg (by simp [h2.1.1.1]), if_neg (by simp [h2.1.1.2]), if_neg (by simp [h2.1.2, h2.2])]

theorem State.access_core_fault {s : State} {n a len p : Nat} {w : Bool} (hp : s.phase = .running) (ho : s.ctlOwner n = some p)
    (hr : (s.ctlCore n).running = true) (ha : a % 8 ≠ 0 ∨ len ≠ 8 ∨ s.coreReaches p n a w = false) (act : State → State) :
    ((s.access (.core n) a len w act).ctlCore n).trap = (if w then 7 else 5) ∧ (s.access (.core n) a len w act).mem = s.mem := by
  unfold State.access
  rw [if_neg (by simp [hp])]
  dsimp only
  unfold State.coreAccess
  rw [ho]
  dsimp only
  rw [if_neg (by simp [hr])]
  by_cases h1 : s.coreReaches p n a w = true
  · rw [if_neg (by simp [h1]), if_pos (by rcases ha with h | h | h <;> simp_all)]
    exact ⟨by unfold State.accessFault; rw [State.ctlCore_modCtl_self], rfl⟩
  · rw [if_pos (by simp [h1])]
    have k : ∀ u : State, u.Keeps 140737488371712 (u.isolation p 15 1 a) := fun u => State.isolation_keeps (by decide) (.refl _) _
        _ _ _
    have k := k (s.accessFault n w)
    have ec := k.same .ctl (by decide)
    have em := k.same .mem (by decide)
    refine ⟨?_, em⟩
    simp only [Comp.same] at ec
    unfold State.ctlCore
    rw [ec]
    exact congrArg CtlCore.trap (State.ctlCore_modCtl_self s n _)

/-- The message a register access sends last on virtual channel 0. -/
theorem State.sendMsg_txq (s : State) (vc : Nat) (m : Msg) : find (fun _ => []) (s.sendMsg vc m).larric.txq vc = find (fun _ =>
    []) s.larric.txq vc ++ [m.bytes] := by
  unfold State.sendMsg
  exact find_ins_self _ _ _ _

theorem State.errCpl_shown {s : State} (i : s.Inv) (tag part st a mt : Nat) :
    (s.errCpl 0 mt tag part st a).fd Rg.LRL_EVENTS_ACCESS_ERR = min (s.fd Rg.LRL_EVENTS_ACCESS_ERR + 1) 65535 ∧
      find (fun _ => []) (s.errCpl 0 mt tag part st a).larric.txq 0 = find (fun _ => []) s.larric.txq 0 ++ [(Msg.mk mt tag part st
          0 a []).bytes] ∧
      (s.errCpl 0 mt tag part st a).mem = s.mem := by
  unfold State.errCpl
  generalize (if st = 4 then stUncorr else 0) = c
  have ib : (s.bump Rg.LRL_EVENTS_ACCESS_ERR).Inv := State.bump_inv i _ _
  have fb : (s.bump Rg.LRL_EVENTS_ACCESS_ERR).fd Rg.LRL_EVENTS_ACCESS_ERR = min (s.fd Rg.LRL_EVENTS_ACCESS_ERR + 1) 65535 :=
      State.fd_bump_self i _ _ (Nat.le_of_ble_eq_true rfl)
  have el : (s.bump Rg.LRL_EVENTS_ACCESS_ERR).larric = s.larric := State.bump_larric ..
  have em : (s.bump Rg.LRL_EVENTS_ACCESS_ERR).mem = s.mem := State.bump_mem ..
  generalize s.bump Rg.LRL_EVENTS_ACCESS_ERR = u at ib fb el em
  have k : u.Keeps 140737488371712 (u.fltAdd 11 c part 15 0 false a) := State.fltAdd_keeps (by decide) (.refl _) _ _ _ _ _ _ _
  have kf := k.fd ib (f := Rg.LRL_EVENTS_ACCESS_ERR) (c := .lrl) (by simp only [RegBlock.has, Rg.LRL_EVENTS_ACCESS_ERR, Rg.LRL_EVENTS]; omega) (by decide) (by decide)
  have kl : (u.fltAdd 11 c part 15 0 false a).larric = u.larric := State.fltAdd_larric ..
  have km : (u.fltAdd 11 c part 15 0 false a).mem = u.mem := State.fltAdd_mem ..
  generalize u.fltAdd 11 c part 15 0 false a = v at kf kl km
  refine ⟨kf.trans fb, ?_, km.trans em⟩
  rw [State.sendMsg_txq, kl, el]

/-- What a host register access that is not performed does (R35, R36; 14 R472). -/
theorem State.hostDeny_shown {s : State} (i : s.Inv) (tag part st a : Nat) :
    (s.hostDeny tag part st a).fd Rg.LRL_EVENTS_ACCESS_ERR = min (s.fd Rg.LRL_EVENTS_ACCESS_ERR + 1) 65535 ∧
      find (fun _ => []) (s.hostDeny tag part st a).larric.txq 0 = find (fun _ => []) s.larric.txq 0 ++ [(Msg.mk 0x03 tag part st
          0 a []).bytes] ∧
      (s.hostDeny tag part st a).mem = s.mem := by
  unfold State.hostDeny
  split
  · have k : s.Keeps 140737488371712 (s.isolation part 15 1 a) := State.isolation_keeps (by decide) (.refl _) _ _ _ _
    have kf := k.fd i (f := Rg.LRL_EVENTS_ACCESS_ERR) (c := .lrl) (by simp only [RegBlock.has, Rg.LRL_EVENTS_ACCESS_ERR, Rg.LRL_EVENTS]; omega) (by decide) (by decide)
    have kl : (s.isolation part 15 1 a).larric = s.larric := k.same .larric (by decide)
    have km : (s.isolation part 15 1 a).mem = s.mem := k.same .mem (by decide)
    have h := State.errCpl_shown (k.inv i) tag part st a 0x03
    exact ⟨h.1.trans (by rw [kf]), h.2.1.trans (by rw [kl]), h.2.2.trans km⟩
  · exact State.errCpl_shown i tag part st a 0x03

theorem State.access_host_denied {s : State} {a len st : Nat} (w : Bool) (hp : s.phase = .running) (hl : s.lrlActive = true) (hc :
    a < cciBase)
    (hd : s.hostDenied a len = some st) (act : State → State) : s.access .host a len w act = s.hostDeny 0 15 st a := by
  unfold State.access
  rw [if_neg (by simp [hp])]
  dsimp only
  rw [if_neg (by simp [hl]; omega), hd]

theorem registerWrite_spec (s : State) (i : s.Inv) (who : Actor) (a len : Nat) (v : W64) :
    ∃ t, exec (.registerWrite who ⟨a, len⟩ v) s = .next t ∧ (s.may who a len true = true → t = s.regWrite a v) ∧
      (∀ r, s.may who a len true = true → regRow? a = some r → s.regWrite a v = s.plainWrite a v → s.WriteShown t a v r) ∧
      (∀ n p, who = .core n → s.phase = .running → s.ctlOwner n = some p → (s.ctlCore n).running = true →
        (a % 8 ≠ 0 ∨ len ≠ 8 ∨ s.coreReaches p n a true = false) → (t.ctlCore n).trap = 7 ∧ t.mem = s.mem) ∧
      (∀ st, who = .host → s.phase = .running → s.lrlActive = true → a < cciBase → s.hostDenied a len = some st →
        t.fd Rg.LRL_EVENTS_ACCESS_ERR = min (s.fd Rg.LRL_EVENTS_ACCESS_ERR + 1) 65535 ∧ t.mem = s.mem) := by
  refine ⟨_, rfl, fun h => State.access_may h _, fun r h hr he => ?_, fun n p hw hp ho hr ha => ?_, fun st hw hp hl hc hd => ?_⟩
  · rw [State.access_may h, he]
    exact State.plainWrite_shown i hr v
  · subst hw
    exact State.access_core_fault hp ho hr ha _
  · subst hw
    rw [State.access_host_denied true hp hl hc hd]
    have h := State.hostDeny_shown i 0 15 st a
    exact ⟨h.1, h.2.2⟩

theorem rcCounterRead_spec (s : State) (i : s.Inv) (who : Actor) (a len : Nat) :
    ∃ t, exec (.rcCounterRead who ⟨a, len⟩) s = .next t ∧
      (∀ r, s.may who a len false = true → s.PlainRead a r → s.ReadShown t a r) ∧
      (∀ n p, who = .core n → s.phase = .running → s.ctlOwner n = some p → (s.ctlCore n).running = true →
        (a % 8 ≠ 0 ∨ len ≠ 8 ∨ s.coreReaches p n a false = false) → (t.ctlCore n).trap = 5 ∧ t.mem = s.mem) ∧
      (∀ st, who = .host → s.phase = .running → s.lrlActive = true → a < cciBase → s.hostDenied a len = some st →
        t.fd Rg.LRL_EVENTS_ACCESS_ERR = min (s.fd Rg.LRL_EVENTS_ACCESS_ERR + 1) 65535 ∧ t.mem = s.mem) := by
  refine ⟨_, rfl, fun r h hr => ?_, fun n p hw hp ho hr ha => ?_, fun st hw hp hl hc hd => ?_⟩
  · rw [State.access_may h]
    exact State.regRead_shown i hr
  · subst hw
    exact State.access_core_fault hp ho hr ha _
  · subst hw
    rw [State.access_host_denied false hp hl hc hd]
    have h := State.hostDeny_shown i 0 15 st a
    exact ⟨h.1, h.2.2⟩

theorem regRd_spec (s : State) (i : s.Inv) (a len tag part : Nat) (ha : s.lrlActive = true) (u : State)
    (hu : s.takeMsg (fun m => m.mtype == 0x01 && m.tag == tag && m.addr == a) = u) :
    ∃ t, exec (.regRd a len tag part) s = .next t ∧
      (∀ st, u.hostDenied a len = some st → t.fd Rg.LRL_EVENTS_ACCESS_ERR = min (s.fd Rg.LRL_EVENTS_ACCESS_ERR + 1) 65535 ∧
        find (fun _ => []) t.larric.txq 0 = find (fun _ => []) s.larric.txq 0 ++ [(Msg.mk 0x03 tag part st 0 a []).bytes] ∧ t.mem
            = s.mem) ∧
      (∀ r, u.hostDenied a len = none → a < cciBase → u.PlainRead a r → u.ReadShown t a r ∧
        find (fun _ => []) t.larric.txq 0 = find (fun _ => []) s.larric.txq 0 ++ [(Msg.mk 0x03 tag part 0 8 a (toLe 8 (u.view
            a).toNat)).bytes]) := by
  refine ⟨_, rfl, ?_⟩
  have iu : u.Inv := hu ▸ State.takeMsg_inv i _
  have eu : u.larric.txq = s.larric.txq ∧ u.regs = s.regs ∧ u.mem = s.mem := by subst hu; exact ⟨rfl, rfl, rfl⟩
  unfold State.hostReg
  rw [if_neg (by simp [ha]), hu]
  dsimp only
  refine ⟨fun st hd => ?_, fun r hd hc hr => ?_⟩
  · rw [hd]
    have k := State.hostDeny_shown iu tag part st a
    exact ⟨k.1.trans (by rw [State.fd_of_regs eu.2.1]), k.2.1.trans (by rw [eu.1]), k.2.2.trans eu.2.2⟩
  · rw [hd]
    dsimp only
    rw [if_neg (by omega)]
    have k := State.regRead_shown iu hr
    have el : (u.regRead a).larric = u.larric := by
      have kk : u.Keeps 1170938110796677121 (u.regRead a) := State.regRead_keeps (by decide) (.refl _) a
      exact kk.same .larric (by decide)
    generalize u.regRead a = w at k el
    have lt : (toLe 8 w.bus.toNat).length = 8 := toLe_length _ _
    rw [lt, k.bus]
    refine ⟨⟨k.bus, k.cleared, k.others, k.memory⟩, ?_⟩
    rw [State.sendMsg_txq, el, eu.1]

theorem regWr_spec (s : State) (i : s.Inv) (a len tag part : Nat) (v : W64) (ha : s.lrlActive = true) (u : State)
    (hu : s.takeMsg (fun m => m.mtype == 0x02 && m.tag == tag && m.addr == a) = u) :
    ∃ t, exec (.regWr a len tag part v) s = .next t ∧
      (∀ st, u.hostDenied a len = some st → t.fd Rg.LRL_EVENTS_ACCESS_ERR = min (s.fd Rg.LRL_EVENTS_ACCESS_ERR + 1) 65535 ∧
        find (fun _ => []) t.larric.txq 0 = find (fun _ => []) s.larric.txq 0 ++ [(Msg.mk 0x03 tag part st 0 a []).bytes] ∧ t.mem
            = s.mem) ∧
      (u.hostDenied a len = none → a < cciBase →
        t = (u.flushHost.regWrite a v).sendMsg 0 ⟨0x03, tag, part, 0, 0, a, []⟩) ∧
      (∀ r, u.hostDenied a len = none → a < cciBase → regRow? a = some r → u.flushHost.regWrite a v = u.flushHost.plainWrite a v →
        u.flushHost.WriteShown t a v r) := by
  refine ⟨_, rfl, ?_⟩
  have iu : u.Inv := hu ▸ State.takeMsg_inv i _
  have eu : u.larric.txq = s.larric.txq ∧ u.regs = s.regs ∧ u.mem = s.mem := by subst hu; exact ⟨rfl, rfl, rfl⟩
  unfold State.hostReg
  rw [if_neg (by simp [ha]), hu]
  dsimp only
  refine ⟨fun st hd => ?_, fun hd hc => ?_, fun r hd hc hr hw => ?_⟩
  · rw [hd]
    have k := State.hostDeny_shown iu tag part st a
    exact ⟨k.1.trans (by rw [State.fd_of_regs eu.2.1]), k.2.1.trans (by rw [eu.1]), k.2.2.trans eu.2.2⟩
  · rw [hd]
    dsimp only
    rw [if_neg (by omega)]
    rfl
  · rw [hd]
    dsimp only
    rw [if_neg (by omega), hw]
    have kf : u.Keeps 74450131340025858 u.flushHost := State.flushHost_keeps (by decide) (.refl _)
    have k := State.plainWrite_shown (kf.inv iu) hr v
    generalize u.flushHost.plainWrite a v = w at k
    exact ⟨k.fields, k.others, k.memory⟩

theorem doorbell_spec (s : State) (i : s.Inv) (a : Nat) (v : W64) (ha : s.lrlActive = true) (u : State)
    (hu : s.takeMsg (fun m => m.mtype == 0x04 && m.addr == a) = u) :
    ∃ t, exec (.doorbell a v) s = .next t ∧
      ((u.recovery = true ∨ u.doorbellOk a = false) → t = u.bump Rg.LRL_EVENTS_DB_BAD ∧
        t.fd Rg.LRL_EVENTS_DB_BAD = min (s.fd Rg.LRL_EVENTS_DB_BAD + 1) 65535) ∧
      (u.recovery = false → u.doorbellOk a = true → t = u.flushHost.regWrite a v) := by
  refine ⟨_, rfl, ?_⟩
  have iu : u.Inv := hu ▸ State.takeMsg_inv i _
  have eu : u.regs = s.regs := by subst hu; rfl
  unfold State.ring
  rw [if_neg (by simp [ha]), hu]
  dsimp only
  refine ⟨fun h => ?_, fun h1 h2 => ?_⟩
  · rw [if_pos (by rcases h with h | h <;> simp [h])]
    exact ⟨rfl, (State.fd_bump_self iu _ _ (Nat.le_of_ble_eq_true rfl)).trans (by rw [State.fd_of_regs eu]; rfl)⟩
  · rw [if_neg (by simp [h1, h2])]

end Sys2Proof.Machine
end

