-- ==== Sys2Proof/Laws/EffSched.lean ====
section
/-!
SUPPORT. What the Guest Ledger's rings, batches, budget, pressure, deadlines and adapters do (12_guest_ledger.md R377 to R415;
10 R318; 04 R142).
-/
namespace Sys2Proof.Machine

/-! ### What forming a step leaves of the ledger's registers -/

theorem State.bump_fd_ne {s : State} (i : s.Inv) {f g : RF} (h : g.addr ≠ f.addr) : (s.bump f).fd g = s.fd g :=
  State.fd_bump_apart i _ _ _ (.inl h)

theorem State.modSched_inv {s : State} (i : s.Inv) (p tag : Nat) (f : Sched → Sched) : (s.modSched p tag f).Inv :=
    State.modPart_inv i _ _

theorem State.modSched_fd (s : State) (p tag : Nat) (f : Sched → Sched) (g : RF) : (s.modSched p tag f).fd g = s.fd g := rfl

/-- A field of the ledger's registers that forming a step leaves as it is: all but LDG_STEPS. -/
theorem State.closeStep_fd {s : State} (i : s.Inv) (p tag : Nat) {f : RF} (hf : RegBlock.ldg.has f.addr) (h : f.addr ≠
    Rg.LDG_STEPS p) :
    (s.closeStep p tag).Inv ∧ (s.closeStep p tag).fd f = s.fd f := by
  have k0 : s.Keeps 83458430106460166 (s.closeStep p tag) := State.closeStep_keeps (by decide) (.refl _) _ _
  refine ⟨k0.inv i, ?_⟩
  clear k0
  unfold State.closeStep
  split
  · rfl
  · rename_i g hg
    have wr (u : State) (iu : u.Inv) (hu : u.fd f = s.fd f) (a : Nat) (b : Bytes) : (u.devWrite p 1 a b).st.Inv ∧ (u.devWrite p 1
        a b).st.fd f = s.fd f := by
      have k : u.Keeps 74450131340091398 (u.devWrite p 1 a b).st := State.devWrite_keeps (by decide) (.refl _) _ _ _ _ _
      exact ⟨k.inv iu, (k.fd iu hf (by decide) (by decide)).trans hu⟩
    extract_lets x u ad v ve w
    have hu : u.Inv ∧ u.fd f = s.fd f := wr s i rfl _ _
    have hv : v.Inv ∧ v.fd f = s.fd f := by
      simp only [v]; split
      · exact hu
      · exact wr u hu.1 hu.2 _ _
    have hw : w.Inv ∧ w.fd f = s.fd f := by
      simp only [w]; split
      · exact hv
      · have k : v.Keeps 74450131340091398 (v.writeVerify p ve x) := State.writeVerify_keeps (by decide) (.refl _) _ _ _
        exact ⟨k.inv hv.1, (k.fd hv.1 hf (by decide) (by decide)).trans hv.2⟩
    clear_value w
    have im : (w.modSched p tag fun x => { x with openSince := none }).Inv := State.modPart_inv hw.1 _ _
    have em : (w.modSched p tag fun x => { x with openSince := none }).fd f = w.fd f := State.modPart_fd ..
    exact (State.bump_fd_ne im h).trans (em.trans hw.2)

theorem foldl_modEnt_fd (l : List Taken) {s : State} (i : s.Inv) (f : RF) :
    (l.foldl (fun s t => s.modEnt t.entry fun e => { e with state := 3 }) s).Inv ∧
      (l.foldl (fun s t => s.modEnt t.entry fun e => { e with state := 3 }) s).fd f = s.fd f :=
  foldl_keep (P := fun y : State => y.Inv ∧ y.fd f = s.fd f) (f := fun s t => s.modEnt t.entry fun e => { e with state := 3 }) l
    (fun y b hy => ⟨hy.1.of_eq rfl rfl rfl rfl rfl, (State.fd_of_regs rfl f).trans hy.2⟩) ⟨i, rfl⟩

theorem State.formStep_fd {s : State} (i : s.Inv) (p tag : Nat) {f : RF} (hf : RegBlock.ldg.has f.addr) (h : f.addr ≠ Rg.LDG_STEPS
    p) :
    (s.formStep p tag).Inv ∧ (s.formStep p tag).fd f = s.fd f := by
  have k0 : s.Keeps 83458430106984454 (s.formStep p tag) := State.formStep_keeps (by decide) (.refl _) _ _
  refine ⟨k0.inv i, ?_⟩
  clear k0
  unfold State.formStep
  split
  · rfl
  · rename_i g hg
    extract_lets x q op b quantum credit old d first u v
    have hu : u.Inv ∧ u.fd f = s.fd f := foldl_modEnt_fd d.taken i f
    have hv : v.Inv ∧ v.fd f = s.fd f := ⟨State.modSched_inv hu.1 p tag _, (State.modSched_fd u p tag _ f).trans hu.2⟩
    clear_value x q op b quantum credit old d first u v
    split
    · rfl
    · split
      · exact hv.2
      · split
        · exact hv.2
        · exact (State.closeStep_fd hv.1 p tag hf h).2.trans hv.2

theorem State.formAll_fd {s : State} (i : s.Inv) (p : Nat) {f : RF} (hf : RegBlock.ldg.has f.addr) (h : f.addr ≠ Rg.LDG_STEPS p) :
    (s.formAll p).Inv ∧ (s.formAll p).fd f = s.fd f :=
  foldl_keep (P := fun y : State => y.Inv ∧ y.fd f = s.fd f) _ (fun y b hy => ⟨(State.formStep_fd hy.1 p b.1 hf h).1,
    (State.formStep_fd hy.1 p b.1 hf h).2.trans hy.2⟩) ⟨i, rfl⟩

theorem State.formAll_ent (s : State) (p j : Nat) : (s.formAll p).ent j = s.ent j ∨ (s.formAll p).ent j = { s.ent j with state := 3 } := by
  refine foldl_keep (P := fun u : State => u.ent j = s.ent j ∨ u.ent j = { s.ent j with state := 3 }) _ ?_ (.inl rfl)
  intro u b h
  rcases State.formStep_ent u p b.1 j with k | k <;> rw [k] <;> rcases h with h | h <;> rw [h]
  · exact .inl rfl
  · exact .inr rfl
  · exact .inr rfl
  · exact .inr rfl

/-! ### Steps (10 R318; 12 R388, R396) -/

theorem dspRun_spec (s : State) (i : s.Inv) (p tag : Nat) (hl : s.live p = true) :
    ∃ t, exec (.dspRun p tag) s = .next t ∧
      (s.graph? p tag = none → t.fd (Rg.DSP_CMD_RESULT_RESULT p) = 5) ∧
      (∀ g, s.graph? p tag = some g → g.broken = true → t.fd (Rg.DSP_CMD_RESULT_RESULT p) = 5) ∧
      (∀ g, s.graph? p tag = some g → g.broken = false → s.on (Rg.DSP_CTRL_HALT p) = true ∨ g.unloadAt.isSome = true →
        t.fd (Rg.DSP_CMD_RESULT_RESULT p) = 6) ∧
      (∀ g b u v, s.graph? p tag = some g → g.broken = false → s.on (Rg.DSP_CTRL_HALT p) = false → g.unloadAt = none → g.idle =
          true → s.endHeld p tag = false →
        (s.schedOf p tag).taken = [] → (s.settleStep p tag).runBlock p g = (.ok b, u) → u.fd (Rg.DSP_CMD_ADDR_ADDR p) = g.stepAddr →
        u.triggerStep p tag 1 = (true, v) → t = v.dspDone p 0 0 ∧ t.fd (Rg.DSP_CMD_RESULT_RESULT p) = 0) := by
  refine ⟨_, rfl, ?_⟩
  unfold State.dspRun
  rw [if_neg (by simp [hl])]
  refine ⟨fun h => ?_, fun g h hb => ?_, fun g h hb hh => ?_, fun g b u v h hb hh hu hi hx ht hr ha hv => ?_⟩
  · rw [h]; exact (State.dspDone_shown i p 5 0).1
  · rw [h]; dsimp only; rw [if_pos hb]; exact (State.dspDone_shown i p 5 0).1
  · rw [h]; dsimp only; rw [if_neg (by simp [hb]), if_pos (by simpa using hh)]; exact (State.dspDone_shown i p 6 0).1
  · rw [h]
    dsimp only
    rw [if_neg (by simp [hb]), if_neg (by simp [hh, hu]), if_neg (by simp [hi, hx, ht]), hr]
    dsimp only
    rw [if_pos ha, hv]
    refine ⟨rfl, ?_⟩
    have k1 : s.Keeps 2305843009213693951 (s.settleStep p tag) := State.settleStep_keeps (M := 2305843009213693951) (by decide)
        (.refl _) _ _
    have i1 := k1.inv i
    generalize s.settleStep p tag = w at hr i1
    have k2 : w.Keeps 2305843009213693951 (w.runBlock p g).2 := State.runBlock_keeps (M := 2305843009213693951) (by decide) (.refl
        _) _ _
    rw [hr] at k2
    have i2 := k2.inv i1
    have k3 : u.Keeps 2305843009213693951 (u.triggerStep p tag 1).2 := State.triggerStep_keeps (M := 2305843009213693951) (by
        decide) (.refl _) _ _ _
    rw [hv] at k3
    exact (State.dspDone_shown (k3.inv i2) p 0 0).1

theorem ledgerStepTrigger_spec (s : State) (p tag : Nat) (g : Graph) (hl : s.live p = true) (hg : s.graph? p tag = some g)
    (ht : (s.schedOf p tag).taken ≠ []) (ho : (s.schedOf p tag).openSince = none) (hi : g.idle = true) (hx : s.endHeld p tag =
        false)
    (hs : ∀ r, g.run = some r → r.settled = true) :
    ∃ t, exec (.ledgerStepTrigger p tag) s = .next t ∧
      (s.on (Rg.DSP_CTRL_HALT p) = true ∨ g.unloadAt.isSome = true ∨ g.broken = true → t = s.returnStep p tag) ∧
      (∀ ok u, s.on (Rg.DSP_CTRL_HALT p) = false → g.unloadAt = none → g.broken = false → s.triggerStep p tag 0 = (ok, u) →
        t = if ok then u else u.returnStep p tag) := by
  refine ⟨_, rfl, ?_⟩
  unfold State.ledgerTrigger
  rw [hg]
  dsimp only
  have hset : (g.run.any fun r => !r.settled) = false := by
    cases h : g.run with
    | none => rfl
    | some r => simp [hs r h]
  rw [if_neg (by simp [hl, ht, ho, hi, hx, hset])]
  constructor
  · intro h; rw [if_pos (by simpa [or_assoc] using h)]
  · intro ok u h1 h2 h3 h4
    rw [if_neg (by simp [h1, h2, h3]), h4]
    cases ok <;> rfl

theorem stepSettle_spec (s : State) (p tag : Nat) (g : Graph) (r : StepRun) (te : Nat) (hl : s.live p = true) (hg : s.graph? p tag
    = some g)
    (hr : g.run = some r) (he : r.endAt = some te) (h0 : r.source = 0) :
    ∃ t, exec (.stepSettle p tag) s = .next t ∧ (r.settled = true → t = s.formStep p tag) ∧
      (r.settled = false → t = (((((s.modGraph p tag fun g => { g with run := g.run.map fun r => { r with settled := true } }).modSched p tag
        fun x => { x with taken := [], rows := 0, openSince := none }).settleAll p r.step r.worst te
          ((s.schedOf p tag).taken.map fun x => (x.entry, x.need))).finishUnload p tag).formStep p tag)) := by
  refine ⟨_, rfl, ?_⟩
  unfold State.stepSettle
  rw [if_neg (by simp [hl])]
  have h := State.settleStep.eq_def s p tag
  rw [hg] at h
  dsimp only at h
  rw [hr] at h
  dsimp only at h
  rw [he] at h
  dsimp only at h
  constructor
  · intro hs; rw [h, if_pos hs]
  · intro hs; rw [h, if_neg (by simp [hs]), if_pos h0, if_pos h0]

theorem gatePass_spec (s : State) (e p : Nat) (hp : s.ledgerOwner e = p) (hl : s.live p = true) :
    ∃ t, exec (.gatePass e) s = .next t ∧ (t.ent e).reqId = (s.ent e).reqId ∧
      ((s.ent e).state = 1 → s.budgeting p = false → (t.ent e).state = 2 ∨ (t.ent e).state = 3) ∧
      ((s.ent e).state = 1 → s.budgeting p = true → s.firstAdmitted p e = false → (t.ent e).state = 1 ∧ (t.ent e).gated = true) :=
          by
  refine ⟨_, rfl, ?_⟩
  subst hp
  unfold State.gatePass
  dsimp only
  rw [if_neg (by simp [hl])]
  generalize s.ledgerOwner e = p
  refine ⟨((State.gate_ent s p e e).2.trans (State.formFor_keeps' ..)).1, fun h1 hb => ?_, fun h1 hb hf => ?_⟩
  · have g : (s.gate p e).ent e = { s.ent e with state := 2, qtime := s.time.dev, charge := 0, gated := false } := by
      unfold State.gate
      dsimp only
      rw [if_neg (by simp [h1]), if_pos (by simp [hb])]
      exact State.modEnt_self _ _ (by exact (by decide : (2 : Nat) ≠ 0))
    rcases State.formFor_ent (s.gate p e) p e e with k | k <;> rw [k, g]
    · exact .inl rfl
    · exact .inr rfl
  · have g : s.gate p e = s.holdGate p e := by
      unfold State.gate
      dsimp only
      rw [if_neg (by simp [h1]), if_neg (by simp [hb]), if_pos (by simp [hf])]
    have g1 : (s.gate p e).ent e = { s.ent e with gated := true } := by
      rw [g, State.holdGate_ent _ _ _ _ (by rw [h1]; decide), if_pos rfl]
    unfold State.formFor
    dsimp only
    rw [if_neg (by rw [g1]; simp [h1]), g1]
    exact ⟨h1, rfl⟩

/-! ### Rings and reads (12 R377, R381, R412) -/

theorem ldgSqTailWrite_spec (s : State) (i : s.Inv) (p : Nat) (v : W64) (hd : s.defined p = true) (n d cur : Nat) (hn : bitsOf
    v.toNat 0 32 = n)
    (h1 : (n + 4294967296 - s.fd (Rg.LDG_SQ_HEAD_HEAD p)) % 4294967296 = d)
    (h2 : (s.fd (Rg.LDG_SQ_TAIL_TAIL p) + 4294967296 - s.fd (Rg.LDG_SQ_HEAD_HEAD p)) % 4294967296 = cur) :
    ∃ t, exec (.ldgSqTailWrite p v) s = .next t ∧
      (d < cur ∨ s.sqSize p < d → t.fd (Rg.LDG_IRQ_SQ_BAD p) = 1 ∧ t.fd (Rg.LDG_SQ_TAIL_TAIL p) = s.fd (Rg.LDG_SQ_TAIL_TAIL p)) ∧
      (cur ≤ d → d ≤ s.sqSize p → t.fd (Rg.LDG_SQ_TAIL_TAIL p) = n) := by
  refine ⟨_, rfl, ?_⟩
  have hl : n < 4294967296 := hn ▸ bitsOf_lt _ 0 32
  unfold State.sqTail
  rw [if_neg (by simp [hd])]
  dsimp only
  rw [hn]
  constructor
  · intro h
    rw [if_pos (by simp only [Bool.or_eq_true, decide_eq_true_eq]; rw [← h1, ← h2] at h; exact h)]
    refine ⟨State.fd_raise_self i _ (Nat.le_of_ble_eq_true rfl) (Nat.le_of_ble_eq_true rfl), State.fd_raise_apart i _ _
        (.inl (by simp only [Rg.LDG_SQ_TAIL_TAIL, Rg.LDG_SQ_TAIL, Rg.LDG_IRQ_SQ_BAD, Rg.LDG_IRQ]; omega))⟩
  · intro h k
    rw [if_neg (by simp only [Bool.or_eq_true, decide_eq_true_eq]; rw [← h1, ← h2] at h; rw [← h1] at k; exact fun x => x.elim (Nat.not_lt.2 h) (Nat.not_lt.2 k))]
    exact (State.fd_setF_self i _ _ (Nat.le_of_ble_eq_true rfl)).trans (Nat.mod_eq_of_lt hl)

theorem State.rqWrite_fd {s : State} (i : s.Inv) (p : Nat) (b : Bytes) {f : RF} (hf : RegBlock.ldg.has f.addr)
    (h1 : f.apart (Rg.LDG_RQ_TAIL_TAIL p)) (h2 : f.apart (Rg.LDG_IRQ_RESULT p)) :
    (s.ringWrite p (rqring p) b).Inv ∧ (s.ringWrite p (rqring p) b).fd f = s.fd f := by
  unfold State.ringWrite
  dsimp only
  have k : s.Keeps 74450131340091398 (s.recWrite p (s.fd (rqring p).base + (rqring p).size * (s.fd (rqring p).tail % 2 ^ s.fd
      (rqring p).log2)) b).st := State.recWrite_keeps (by decide) (.refl _) _ _ _
  generalize (s.recWrite p (s.fd (rqring p).base + (rqring p).size * (s.fd (rqring p).tail % 2 ^ s.fd (rqring p).log2)) b).st = u
      at k
  have iu := k.inv i
  have iv := State.setF_inv iu (rqring p).tail (s.fd (rqring p).tail + 1)
  refine ⟨State.raise_inv iv _, ?_⟩
  rw [show (rqring p).irq = Rg.LDG_IRQ_RESULT p from rfl, show (rqring p).tail = Rg.LDG_RQ_TAIL_TAIL p from rfl] at *
  rw [State.fd_raise_apart iv _ _ h2, State.fd_setF_apart iu _ _ _ h1, k.fd i hf (by decide) (by decide)]

theorem State.rqPlaced_regs (s : State) (b : Bytes) : (s.rqPlaced b).regs = s.regs := by
  unfold State.rqPlaced
  dsimp only
  split <;> rfl

theorem State.rqPlaced_inv {s : State} (i : s.Inv) (b : Bytes) : (s.rqPlaced b).Inv :=
  (State.rqPlaced_keeps (M := 2305843009213693951) (by decide) (.refl s) b).inv i

theorem State.rqDrain_fd (p : Nat) {f : RF} (hf : RegBlock.ldg.has f.addr) (h1 : f.apart (Rg.LDG_RQ_TAIL_TAIL p)) (h2 : f.apart
    (Rg.LDG_IRQ_RESULT p)) :
    ∀ (l : List Bytes) (s : State), s.Inv → (State.rqDrain p l s).2.Inv ∧ (State.rqDrain p l s).2.fd f = s.fd f := by
  intro l
  induction l with
  | nil => intro s i; exact ⟨i, rfl⟩
  | cons b l ih =>
    intro s i
    unfold State.rqDrain
    split
    · exact ⟨i, rfl⟩
    · have w := State.rqWrite_fd i p b hf h1 h2
      have d := ih _ (State.rqPlaced_inv w.1 b)
      exact ⟨d.1, d.2.trans ((State.fd_of_regs (State.rqPlaced_regs _ b) f).trans w.2)⟩

theorem ldgRqHeadWrite_spec (s : State) (i : s.Inv) (p : Nat) (v : W64) (hd : s.defined p = true) :
    ∃ t, exec (.ldgRqHeadWrite p v) s = .next t ∧ t.fd (Rg.LDG_RQ_HEAD_HEAD p) = bitsOf v.toNat 0 32 ∧
      (t.part p).rqHold = (State.rqDrain p (s.part p).rqHold (s.setF (Rg.LDG_RQ_HEAD_HEAD p) (bitsOf v.toNat 0 32))).1 := by
  refine ⟨_, rfl, ?_⟩
  rw [if_pos hd]
  unfold State.rqHead
  dsimp only
  have hl : bitsOf v.toNat 0 32 < 4294967296 := bitsOf_lt _ 0 32
  generalize bitsOf v.toNat 0 32 = n at hl
  have i1 := State.setF_inv i (Rg.LDG_RQ_HEAD_HEAD p) n
  have f1 := (State.fd_setF_self i (Rg.LDG_RQ_HEAD_HEAD p) n (Nat.le_of_ble_eq_true rfl)).trans (Nat.mod_eq_of_lt hl)
  rw [State.setF_part]
  generalize s.setF (Rg.LDG_RQ_HEAD_HEAD p) n = u at i1 f1
  have d := State.rqDrain_fd p (f := Rg.LDG_RQ_HEAD_HEAD p) (Rg.LDG_RQ_HEAD_in p)
      (.inl (by simp only [Rg.LDG_RQ_HEAD_HEAD, Rg.LDG_RQ_HEAD, Rg.LDG_RQ_TAIL_TAIL, Rg.LDG_RQ_TAIL]; omega))
      (.inl (by simp only [Rg.LDG_RQ_HEAD_HEAD, Rg.LDG_RQ_HEAD, Rg.LDG_IRQ_RESULT, Rg.LDG_IRQ]; omega)) (s.part p).rqHold u i1
  generalize State.rqDrain p (s.part p).rqHold u = x at d
  obtain ⟨h, w⟩ := x
  dsimp only at d ⊢
  have i2 : (w.modPart p fun q => { q with rqHold := h }).Inv := State.modPart_inv d.1 _ _
  have f2 : (w.modPart p fun q => { q with rqHold := h }).fd (Rg.LDG_RQ_HEAD_HEAD p) = n := (State.modPart_fd ..).trans (d.2.trans f1)
  have p2 : ((w.modPart p fun q => { q with rqHold := h }).part p).rqHold = h := by rw [State.part_modPart_self]
  generalize (w.modPart p fun q => { q with rqHold := h }) = y at i2 f2 p2
  have ne : (Rg.LDG_RQ_HEAD_HEAD p).addr ≠ Rg.LDG_STEPS p := by simp only [Rg.LDG_RQ_HEAD_HEAD, Rg.LDG_RQ_HEAD, Rg.LDG_STEPS]; omega
  refine ⟨(State.formAll_fd i2 p (Rg.LDG_RQ_HEAD_in p) ne).2.trans f2, ?_⟩
  have k : y.Keeps 83458430106984454 (y.formAll p) := State.formAll_keeps (by decide) (.refl _) _
  have h3 := k.same .holds (by decide)
  rw [(h3 p).2.2, p2]

theorem ldgEntryRead_spec (s : State) (i : s.Inv) (p e : Nat) (hd : s.defined p = true) :
    ∃ t, exec (.ldgEntryRead p e) s = .next t ∧
      (s.ledgerOwner e ≠ p → t.fd (Rg.LDG_CMD_RESULT_RESULT p) = 1) ∧
      (s.ledgerOwner e = p → t.fd (Rg.LDG_CMD_RESULT_RESULT p) = 0 ∧
        ∀ j, j < 16 → t.rd (Rg.LDG_ENTRY_DATA p j) = BitVec.ofNat 64 (fieldAt (s.ent e).bytes (8 * j) 8)) := by
  refine ⟨_, rfl, ?_⟩
  unfold State.ldgRead
  rw [if_neg (by simp [hd])]
  have res (u : State) (iu : u.Inv) (c : Nat) : (u.ldgResult p c).fd (Rg.LDG_CMD_RESULT_RESULT p) = c % 256 := by
    unfold State.ldgResult
    rw [State.fd_incr_apart (State.setF_inv iu _ _) _ _ _ (RF.apart_bits rfl), State.fd_setF_self iu _ _ (Nat.le_of_ble_eq_true
        rfl)]
    rfl
  dsimp only
  constructor
  · intro h
    rw [if_pos h]
    exact res _ ((State.isolation_keeps (M := 2305843009213693951) (by decide) (.refl s) _ _ _ _).inv i) 1
  · intro h
    rw [if_neg (by simpa using h)]
    generalize (s.ent e).bytes = b
    have all : ∀ (l : List Nat) (u : State), u.Inv → (∀ j ∈ l, j < 16) →
        let w := l.foldl (fun s i => s.wr (Rg.LDG_ENTRY_DATA p i) (BitVec.ofNat 64 (fieldAt b (8 * i) 8))) u
        w.Inv ∧ ∀ j, j < 16 → (j ∈ l → w.rd (Rg.LDG_ENTRY_DATA p j) = BitVec.ofNat 64 (fieldAt b (8 * j) 8)) ∧
          (j ∉ l → w.rd (Rg.LDG_ENTRY_DATA p j) = u.rd (Rg.LDG_ENTRY_DATA p j)) := by
      intro l
      induction l with
      | nil => intro u iu _; exact ⟨iu, fun j _ => ⟨fun h => absurd h (List.not_mem_nil), fun _ => rfl⟩⟩
      | cons a l ih =>
        intro u iu hl w
        have ha := hl a (List.mem_cons_self ..)
        have k := ih (u.wr (Rg.LDG_ENTRY_DATA p a) (BitVec.ofNat 64 (fieldAt b (8 * a) 8))) (State.wr_inv iu _ _) fun j hj => hl j
            (List.mem_cons_of_mem _ hj)
        refine ⟨k.1, fun j hj => ⟨fun hm => ?_, fun hm => ?_⟩⟩
        · by_cases h2 : j ∈ l
          · exact (k.2 j hj).1 h2
          · have : j = a := by rcases List.mem_cons.1 hm with h | h <;> [exact h; exact absurd h h2]
            subst this
            exact ((k.2 j hj).2 h2).trans (by rw [State.rd_wr iu, if_pos rfl])
        · have h2 : j ∉ l := fun x => hm (List.mem_cons_of_mem _ x)
          have h3 : j ≠ a := fun x => hm (x ▸ List.mem_cons_self ..)
          refine ((k.2 j hj).2 h2).trans ?_
          rw [State.rd_wr iu, if_neg]
          simp only [Rg.LDG_ENTRY_DATA]
          omega
    have a := all (List.range 16) s i fun j hj => List.mem_range.1 hj
    dsimp only at a
    generalize (List.range 16).foldl (fun s i => s.wr (Rg.LDG_ENTRY_DATA p i) (BitVec.ofNat 64 (fieldAt b (8 * i) 8))) s = w at a
    refine ⟨res w a.1 0, fun j hj => ?_⟩
    unfold State.ldgResult
    have ne : Rg.LDG_ENTRY_DATA p j ≠ Rg.LDG_CMD_RESULT p := by simp only [Rg.LDG_ENTRY_DATA, Rg.LDG_CMD_RESULT]; omega
    rw [State.rd_incr_ne (State.setF_inv a.1 _ _) _ ne, State.rd_setF_ne a.1 _ ne]
    exact (a.2 j hj).1 (List.mem_range.2 hj)

/-! ### Batches (04 R142) -/

theorem State.closeStep_shown {s : State} (i : s.Inv) (p tag : Nat) (g : Graph) (hg : s.graph? p tag = some g) :
    ((s.closeStep p tag).schedOf p tag).openSince = none ∧
      (s.closeStep p tag).fd (Rg.LDG_STEPS_FORMED p) = min (s.fd (Rg.LDG_STEPS_FORMED p) + 1) 4294967295 := by
  unfold State.closeStep
  rw [hg]
  have wr (u : State) (iu : u.Inv) (hu : u.fd (Rg.LDG_STEPS_FORMED p) = s.fd (Rg.LDG_STEPS_FORMED p)) (a : Nat) (b : Bytes) :
      (u.devWrite p 1 a b).st.Inv ∧ (u.devWrite p 1 a b).st.fd (Rg.LDG_STEPS_FORMED p) = s.fd (Rg.LDG_STEPS_FORMED p) := by
    have k : u.Keeps 74450131340091398 (u.devWrite p 1 a b).st := State.devWrite_keeps (by decide) (.refl _) _ _ _ _ _
    exact ⟨k.inv iu, (k.fd iu (Rg.LDG_STEPS_in p) (by decide) (by decide)).trans hu⟩
  have wr2 (c : Prop) [Decidable c] (u : State) (hu : u.Inv ∧ u.fd (Rg.LDG_STEPS_FORMED p) = s.fd (Rg.LDG_STEPS_FORMED p)) (a :
      Nat) (b : Bytes) :
      (if c then u else (u.devWrite p 1 a b).st).Inv ∧ (if c then u else (u.devWrite p 1 a b).st).fd (Rg.LDG_STEPS_FORMED p) =
          s.fd (Rg.LDG_STEPS_FORMED p) := by
    split
    · exact hu
    · exact wr u hu.1 hu.2 a b
  have wr3 (c : Prop) [Decidable c] (u : State) (hu : u.Inv ∧ u.fd (Rg.LDG_STEPS_FORMED p) = s.fd (Rg.LDG_STEPS_FORMED p)) (ve :
      Nat) (x : Sched) :
      (if c then u else u.writeVerify p ve x).Inv ∧ (if c then u else u.writeVerify p ve x).fd (Rg.LDG_STEPS_FORMED p) = s.fd
          (Rg.LDG_STEPS_FORMED p) := by
    split
    · exact hu
    · have k : u.Keeps 74450131340091398 (u.writeVerify p ve x) := State.writeVerify_keeps (by decide) (.refl _) _ _ _
      exact ⟨k.inv hu.1, (k.fd hu.1 (Rg.LDG_STEPS_in p) (by decide) (by decide)).trans hu.2⟩
  have fin (w : State) (hw : w.Inv ∧ w.fd (Rg.LDG_STEPS_FORMED p) = s.fd (Rg.LDG_STEPS_FORMED p)) :
      (((w.modSched p tag fun x => { x with openSince := none }).bump (Rg.LDG_STEPS_FORMED p)).schedOf p tag).openSince = none ∧
      ((w.modSched p tag fun x => { x with openSince := none }).bump (Rg.LDG_STEPS_FORMED p)).fd (Rg.LDG_STEPS_FORMED p) =
        min (s.fd (Rg.LDG_STEPS_FORMED p) + 1) 4294967295 := by
    constructor
    · unfold State.schedOf
      rw [State.bump_part]
      unfold State.modSched
      rw [State.part_modPart_self]
      dsimp only
      rw [find_ins, if_pos rfl]
    · rw [State.fd_bump_self (State.modSched_inv hw.1 p tag _) _ _ (Nat.le_of_ble_eq_true rfl), State.modSched_fd, hw.2]
      rfl
  exact fin _ (wr3 _ _ (wr2 _ _ (wr s i rfl _ _) _ _) _ _)

theorem State.passDev_inv {s : State} (i : s.Inv) (t : Nat) : (s.passDev t).Inv := State.pass_inv i _

theorem batchWindowExpiry_spec (s : State) (i : s.Inv) (p tag since : Nat) (g : Graph) (hg : s.graph? p tag = some g) (hl : s.live
    p = true)
    (ho : (s.schedOf p tag).openSince = some since) :
    ∃ t, exec (.batchWindowExpiry p tag) s = .next t ∧ (t.schedOf p tag).openSince = none ∧
      t.fd (Rg.LDG_STEPS_FORMED p) = min (s.fd (Rg.LDG_STEPS_FORMED p) + 1) 4294967295 := by
  refine ⟨_, rfl, ?_⟩
  unfold State.batchExpiry
  rw [ho]
  dsimp only
  rw [if_pos hl]
  generalize since + s.batchWindow p since = d
  have key (d : Nat) : (s.passDev d).Inv ∧ (s.passDev d).graph? p tag = s.graph? p tag ∧ ∀ f, (s.passDev d).fd f = s.fd f :=
    ⟨State.passDev_inv i d, rfl, fun _ => rfl⟩
  have k := key d
  generalize s.passDev d = u at k
  have c := State.closeStep_shown k.1 p tag g (k.2.1.trans hg)
  exact ⟨c.1, by rw [c.2, k.2.2]⟩

theorem batchDeadlineClose_spec (s : State) (i : s.Inv) (p tag : Nat) (g : Graph) (hg : s.graph? p tag = some g) (hl : s.live p =
    true)
    (ho : (s.schedOf p tag).openSince.isSome = true)
    (hd : (s.schedOf p tag).taken.foldl (fun m t => min m (s.ent t.entry).deadline) noTime ≠ noTime) :
    ∃ t, exec (.batchDeadlineClose p tag) s = .next t ∧ (t.schedOf p tag).openSince = none ∧
      t.fd (Rg.LDG_STEPS_FORMED p) = min (s.fd (Rg.LDG_STEPS_FORMED p) + 1) 4294967295 := by
  refine ⟨_, rfl, ?_⟩
  unfold State.batchDeadline
  dsimp only
  have hn : (s.schedOf p tag).openSince.isNone = false := by
    cases h : (s.schedOf p tag).openSince with
    | none => rw [h] at ho; cases ho
    | some _ => rfl
  rw [if_neg (by simp only [hl, hn, Bool.or_eq_true, decide_eq_true_eq, hd]; simp)]
  have key (d : Nat) : (s.passDev d).Inv ∧ (s.passDev d).graph? p tag = s.graph? p tag ∧ ∀ f, (s.passDev d).fd f = s.fd f :=
    ⟨State.passDev_inv i d, rfl, fun _ => rfl⟩
  generalize (s.schedOf p tag).taken.foldl (fun m t => min m (s.ent t.entry).deadline) noTime + 1 - s.batchWindow p ((s.schedOf p
      tag).openSince.getD 0) = d
  have k := key d
  generalize s.passDev d = u at k
  have c := State.closeStep_shown k.1 p tag g (k.2.1.trans hg)
  exact ⟨c.1, by rw [c.2, k.2.2]⟩

/-! ### Budget mode (R392) -/

theorem State.passDev_facts {s : State} (i : s.Inv) (d : Nat) : (s.passDev d).Inv ∧ (∀ f, (s.passDev d).fd f = s.fd f) ∧
    (s.passDev d).ledger = s.ledger ∧ (s.passDev d).parts = s.parts ∧ (s.passDev d).time.dev < 2 ^ 64 :=
  ⟨State.passDev_inv i d, fun _ => rfl, rfl, rfl, Nat.mod_lt _ (Nat.two_pow_pos 64)⟩

theorem budgetEnter_spec (s : State) (i : s.Inv) (p : Nat) (hl : s.live p = true) (hb : s.budgeting p = false) (hw : s.waiting p ≠
    []) :
    ∃ t, exec (.budgetEnter p) s = .next t ∧ t.fd (Rg.LDG_CTRL_BUDGET p) = 1 ∧ t.fd (Rg.LDG_IRQ_BUDGET p) = 1 ∧
      t.fd (Rg.LDG_BUDGET_START_START p) = t.time.dev ∧ ∀ j e, (j, e) ∈ s.waiting p → e.state = 2 → (t.ent j).state = 1 := by
  refine ⟨_, rfl, ?_⟩
  unfold State.budgetEnter
  dsimp only
  rw [if_neg (by simp [hl, hb, hw])]
  generalize List.foldl (fun m x => min m x.2.qtime) noTime (s.waiting p) + s.overload p + 1 = d
  have k := State.passDev_facts i d
  generalize s.passDev d = u at k
  obtain ⟨iu, _, _, _, tu⟩ := k
  have i1 := State.setF_inv iu (Rg.LDG_CTRL_BUDGET p) 1
  have i2 := State.setF_inv i1 (Rg.LDG_BUDGET_START_START p) u.time.dev
  have i3 := State.raise_inv i2 (Rg.LDG_IRQ_BUDGET p)
  have f1 : (((u.setF (Rg.LDG_CTRL_BUDGET p) 1).setF (Rg.LDG_BUDGET_START_START p) u.time.dev).raise (Rg.LDG_IRQ_BUDGET p)).fd
      (Rg.LDG_CTRL_BUDGET p) = 1 := by
    rw [State.fd_raise_apart i2 _ _ (.inl (by simp only [Rg.LDG_CTRL_BUDGET, Rg.LDG_CTRL, Rg.LDG_IRQ_BUDGET, Rg.LDG_IRQ]; omega)),
        State.fd_setF_apart i1 _ _ _
        (.inl (by simp only [Rg.LDG_CTRL_BUDGET, Rg.LDG_CTRL, Rg.LDG_BUDGET_START_START, Rg.LDG_BUDGET_START]; omega))]
    exact State.fd_setF_self iu _ _ (Nat.le_of_ble_eq_true rfl)
  have f2 : (((u.setF (Rg.LDG_CTRL_BUDGET p) 1).setF (Rg.LDG_BUDGET_START_START p) u.time.dev).raise (Rg.LDG_IRQ_BUDGET p)).fd
      (Rg.LDG_IRQ_BUDGET p) = 1 :=
    State.fd_raise_self i2 _ (Nat.le_of_ble_eq_true rfl) (Nat.le_of_ble_eq_true rfl)
  have f3 : (((u.setF (Rg.LDG_CTRL_BUDGET p) 1).setF (Rg.LDG_BUDGET_START_START p) u.time.dev).raise (Rg.LDG_IRQ_BUDGET p)).fd
      (Rg.LDG_BUDGET_START_START p) = u.time.dev := by
    rw [State.fd_raise_apart i2 _ _
        (.inl (by simp only [Rg.LDG_BUDGET_START_START, Rg.LDG_BUDGET_START, Rg.LDG_IRQ_BUDGET, Rg.LDG_IRQ]; omega))]
    exact (State.fd_setF_self i1 _ _ (Nat.le_of_ble_eq_true rfl)).trans (Nat.mod_eq_of_lt tu)
  have f4 : (((u.setF (Rg.LDG_CTRL_BUDGET p) 1).setF (Rg.LDG_BUDGET_START_START p) u.time.dev).raise (Rg.LDG_IRQ_BUDGET p)).time =
      u.time := rfl
  generalize (((u.setF (Rg.LDG_CTRL_BUDGET p) 1).setF (Rg.LDG_BUDGET_START_START p) u.time.dev).raise (Rg.LDG_IRQ_BUDGET p)) = v
      at i3 f1 f2 f3 f4
  have fold : ∀ (l : List (Nat × Entry)) (y : State), let z := l.foldl (fun s x => if x.2.state = 2 then s.modEnt x.1 fun e => { e with state := 1 } else s) y
      z.regs = y.regs ∧ z.time = y.time ∧ (∀ j, (y.ent j).state = 1 → (z.ent j).state = 1) ∧ ∀ j e, (j, e) ∈ l → e.state = 2 →
          (z.ent j).state = 1 := by
    intro l
    induction l with
    | nil => intro y; exact ⟨rfl, rfl, fun _ h => h, fun _ _ h => absurd h (List.not_mem_nil)⟩
    | cons a l ih =>
      intro y z
      have n1 : (1 : Nat) ≠ 0 := by decide
      have h := ih (if a.2.state = 2 then y.modEnt a.1 fun e => { e with state := 1 } else y)
      have st : ∀ j, (y.ent j).state = 1 → ((if a.2.state = 2 then y.modEnt a.1 fun e => { e with state := 1 } else y).ent j).state = 1 := by
        intro j hj
        split
        · by_cases n : j = a.1
          · subst n; rw [State.modEnt_self _ _ n1]
          · rw [State.modEnt_ne _ n1 n]; exact hj
        · exact hj
      refine ⟨h.1.trans ?_, h.2.1.trans ?_, fun j hj => h.2.2.1 j (st j hj), fun j e hm he => ?_⟩
      · split <;> rfl
      · split <;> rfl
      · rcases List.mem_cons.1 hm with rfl | hm
        · refine h.2.2.1 j ?_
          rw [if_pos he, State.modEnt_self _ _ n1]
        · exact h.2.2.2 j e hm he
  have q := fold (s.waiting p) v
  dsimp only at q
  refine ⟨(State.fd_of_regs q.1 _).trans f1, (State.fd_of_regs q.1 _).trans f2, ?_, q.2.2.2⟩
  rw [q.2.1, f4]
  exact (State.fd_of_regs q.1 _).trans f3

theorem budgetLeave_spec (s : State) (i : s.Inv) (p : Nat) (hl : s.live p = true) (hb : s.budgeting p = true)
    (hw : ∀ j e, (j, e) ∈ s.waiting p → s.time.dev ≤ e.qtime + s.overload p / 2) :
    ∃ t, exec (.budgetLeave p) s = .next t ∧ t.fd (Rg.LDG_CTRL_BUDGET p) = 0 ∧ t.fd (Rg.LDG_IRQ_BUDGET p) = 1 ∧
      ∀ j e, (j, e) ∈ s.waiting p → e.state = 1 → (t.ent j).state = 2 ∨ (t.ent j).state = 3 := by
  refine ⟨_, rfl, ?_⟩
  unfold State.budgetLeave
  rw [if_neg (by
    simp only [hl, hb, Bool.not_true, Bool.false_or, List.any_eq_true, decide_eq_true_eq, not_exists, not_and, Nat.not_lt]
    exact fun x hx => hw x.1 x.2 hx)]
  dsimp only
  have i1 := State.setF_inv i (Rg.LDG_CTRL_BUDGET p) 0
  have i2 := State.raise_inv i1 (Rg.LDG_IRQ_BUDGET p)
  have f1 : ((s.setF (Rg.LDG_CTRL_BUDGET p) 0).raise (Rg.LDG_IRQ_BUDGET p)).fd (Rg.LDG_CTRL_BUDGET p) = 0 :=
    (State.fd_raise_apart i1 _ _
        (.inl (by simp only [Rg.LDG_CTRL_BUDGET, Rg.LDG_CTRL, Rg.LDG_IRQ_BUDGET, Rg.LDG_IRQ]; omega))).trans (State.fd_setF_self i
        _ _ (Nat.le_of_ble_eq_true rfl))
  have f2 : ((s.setF (Rg.LDG_CTRL_BUDGET p) 0).raise (Rg.LDG_IRQ_BUDGET p)).fd (Rg.LDG_IRQ_BUDGET p) = 1 := State.fd_raise_self i1
      _ (Nat.le_of_ble_eq_true rfl) (Nat.le_of_ble_eq_true rfl)
  generalize ((s.setF (Rg.LDG_CTRL_BUDGET p) 0).raise (Rg.LDG_IRQ_BUDGET p)) = v at i2 f1 f2
  have fold : ∀ (l : List (Nat × Entry)) (y : State), y.Inv →
      let z := l.foldl (fun s x => if x.2.state = 1 then s.modEnt x.1 fun e => { e with state := 2, gated := false } else s) y
      z.Inv ∧ z.regs = y.regs ∧ (∀ j, (y.ent j).state = 2 → (z.ent j).state = 2) ∧ ∀ j e, (j, e) ∈ l → e.state = 1 → (z.ent
          j).state = 2 := by
    intro l
    induction l with
    | nil => intro y iy; exact ⟨iy, rfl, fun _ h => h, fun _ _ h => absurd h (List.not_mem_nil)⟩
    | cons a l ih =>
      intro y iy z
      have n1 : (2 : Nat) ≠ 0 := by decide
      have iz : (if a.2.state = 1 then y.modEnt a.1 fun e => { e with state := 2, gated := false } else y).Inv := by
        split
        · exact iy.of_eq rfl rfl rfl rfl rfl
        · exact iy
      have h := ih (if a.2.state = 1 then y.modEnt a.1 fun e => { e with state := 2, gated := false } else y) iz
      have st : ∀ j, (y.ent j).state = 2 → ((if a.2.state = 1 then y.modEnt a.1 fun e => { e with state := 2, gated := false } else y).ent j).state = 2 := by
        intro j hj
        split
        · by_cases n : j = a.1
          · subst n; rw [State.modEnt_self _ _ n1]
          · rw [State.modEnt_ne _ n1 n]; exact hj
        · exact hj
      refine ⟨h.1, h.2.1.trans ?_, fun j hj => h.2.2.1 j (st j hj), fun j e hm he => ?_⟩
      · split <;> rfl
      · rcases List.mem_cons.1 hm with rfl | hm
        · refine h.2.2.1 j ?_
          rw [if_pos he, State.modEnt_self _ _ n1]
        · exact h.2.2.2 j e hm he
  have q := fold (s.waiting p) v i2
  dsimp only at q
  generalize (s.waiting p).foldl (fun s x => if x.2.state = 1 then s.modEnt x.1 fun e => { e with state := 2, gated := false } else s) v = z at q
  have ne1 : (Rg.LDG_CTRL_BUDGET p).addr ≠ Rg.LDG_STEPS p := by simp only [Rg.LDG_CTRL_BUDGET, Rg.LDG_CTRL, Rg.LDG_STEPS]; omega
  have ne2 : (Rg.LDG_IRQ_BUDGET p).addr ≠ Rg.LDG_STEPS p := by simp only [Rg.LDG_IRQ_BUDGET, Rg.LDG_IRQ, Rg.LDG_STEPS]; omega
  refine ⟨(State.formAll_fd q.1 p (Rg.LDG_CTRL_in p) ne1).2.trans ((State.fd_of_regs q.2.1 _).trans f1),
    (State.formAll_fd q.1 p (Rg.LDG_IRQ_in p) ne2).2.trans ((State.fd_of_regs q.2.1 _).trans f2), fun j e hm he => ?_⟩
  have k := q.2.2.2 j e hm he
  rcases State.formAll_ent z p j with h | h <;> rw [h]
  · exact .inl k
  · exact .inr rfl

/-! ### Pressure and deadlines (R394, R395, R397) -/

theorem State.report_fd {s : State} (i : s.Inv) (p k : Nat) (e : Entry) (c st r : Nat) (x : Option (Nat × Nat)) {f : RF}
    (hf : RegBlock.ldg.has f.addr) (h1 : f.apart (Rg.LDG_RQ_TAIL_TAIL p)) (h2 : f.apart (Rg.LDG_IRQ_RESULT p)) (h3 : f.apart
        (Rg.LDG_IRQ_HOLDING p)) :
    (s.report p k e c st r x).Inv ∧ (s.report p k e c st r x).fd f = s.fd f := by
  unfold State.report
  dsimp only
  generalize e.record k c st (s.freeVal % 4) r x s.time.dev = b
  have iu : (if st = stFlagged then s.freeNext else s).Inv := by split; exact i.of_eq rfl rfl rfl rfl rfl; exact i
  have fu : (if st = stFlagged then s.freeNext else s).fd f = s.fd f := by split <;> rfl
  generalize (if st = stFlagged then s.freeNext else s) = u at iu fu
  unfold State.rqPut
  dsimp only
  split
  · have w := State.rqWrite_fd iu p b hf h1 h2
    exact ⟨State.rqPlaced_inv w.1 b, (State.fd_of_regs (State.rqPlaced_regs _ b) f).trans (w.2.trans fu)⟩
  · have iw := State.modPart_inv iu p fun q => { q with rqHold := (u.part p).rqHold ++ [b] }
    have fw : (u.modPart p fun q => { q with rqHold := (u.part p).rqHold ++ [b] }).fd f = s.fd f := (State.modPart_fd ..).trans fu
    generalize (u.modPart p fun q => { q with rqHold := (u.part p).rqHold ++ [b] }) = w at iw fw
    split
    · exact ⟨State.raise_inv iw _, (State.fd_raise_apart iw _ _ h3).trans fw⟩
    · exact ⟨iw, fw⟩

theorem State.enterPaused_fd {s : State} (i : s.Inv) (p k st : Nat) (x : Option (Nat × Nat)) {f : RF} (hf : RegBlock.ldg.has f.addr)
    (h0 : f.addr ≠ Rg.LDG_EVENTS p) (h1 : f.apart (Rg.LDG_RQ_TAIL_TAIL p)) (h2 : f.apart (Rg.LDG_IRQ_RESULT p)) (h3 : f.apart
        (Rg.LDG_IRQ_HOLDING p)) :
    (s.enterPaused p k st x).Inv ∧ (s.enterPaused p k st x).fd f = s.fd f := by
  unfold State.enterPaused
  dsimp only
  generalize ({ (s.ent k).unmark 1 with state := 4, charge := 0 } : Entry) = e
  have i1 : (s.setEnt k e).Inv := i.of_eq rfl rfl rfl rfl rfl
  have f1 : (s.setEnt k e).fd f = s.fd f := rfl
  generalize s.setEnt k e = u at i1 f1
  have r := State.report_fd (State.bump_inv i1 (Rg.LDG_EVENTS_PAUSED p) 1) p k e 4 st 0 x hf h1 h2 h3
  exact ⟨r.1, r.2.trans ((State.bump_fd_ne i1 h0).trans f1)⟩

theorem State.pressEntry_fd {s : State} (i : s.Inv) (p k : Nat) {f : RF} (hf : RegBlock.ldg.has f.addr) (h0 : f.addr ≠
    Rg.LDG_EVENTS p)
    (h1 : f.apart (Rg.LDG_RQ_TAIL_TAIL p)) (h2 : f.apart (Rg.LDG_IRQ_RESULT p)) (h3 : f.apart (Rg.LDG_IRQ_HOLDING p)) :
    (s.pressEntry p k).Inv ∧ (s.pressEntry p k).fd f = s.fd f := by
  have m (g : Entry → Entry) : (s.modEnt k g).Inv ∧ (s.modEnt k g).fd f = s.fd f := ⟨i.of_eq rfl rfl rfl rfl rfl, rfl⟩
  unfold State.pressEntry
  dsimp only
  split
  · exact ⟨i, rfl⟩
  · split
    · have r := State.enterPaused_fd (m fun e => e.mark 8).1 p k stDone none hf h0 h1 h2 h3
      exact ⟨r.1, r.2.trans (m _).2⟩
    · have r := State.enterPaused_fd (m fun e => e.mark 8).1 p k stDone none hf h0 h1 h2 h3
      exact ⟨r.1, r.2.trans (m _).2⟩
    · exact m _
    · exact m _
    · exact ⟨i, rfl⟩

theorem State.pressEntry_ne (s : State) (p : Nat) {j k : Nat} (n : j ≠ k) : (s.pressEntry p k).ent j = s.ent j := by
  unfold State.pressEntry
  dsimp only
  have a (h : (s.ent k).state ≠ 0) (m : Nat) : (s.modEnt k fun e => e.mark m).ent j = s.ent j := State.modEnt_ne _ h n
  split
  · rfl
  · split
    · rename_i h; rw [State.enterPaused_ne _ _ _ _ n]; exact a (by rw [h]; decide) 8
    · rename_i h; rw [State.enterPaused_ne _ _ _ _ n]; exact a (by rw [h]; decide) 8
    · rename_i h; exact a (by rw [h]; decide) 10
    · rename_i h; exact a (by rw [h]; decide) 8
    · rfl

theorem pressureBegin_spec (s : State) (i : s.Inv) (p d : Nat) (ds : List Nat) (h : s.pressureTimes p = d :: ds) (hl : s.live p =
    true) :
    ∃ t, exec (.pressureBegin p) s = .next t ∧ t.fd (Rg.LDG_IRQ_PRESSURE p) = 1 ∧
      ∀ j e, (j, e) ∈ s.entsOf p → s.pressed p (s.ent j) = true → (s.ent j).state = 1 ∨ (s.ent j).state = 2 → (t.ent j).state = 4
          := by
  refine ⟨_, rfl, ?_⟩
  unfold State.pressureBegin
  rw [h]
  dsimp only
  rw [if_neg (by simp [hl])]
  generalize ds.foldl min d = m
  have k := State.passDev_facts i m
  generalize s.passDev m = u at k
  obtain ⟨iu, fu, lu, pu, tu⟩ := k
  have i1 := State.raise_inv iu (Rg.LDG_IRQ_PRESSURE p)
  have f1 := State.fd_raise_self iu (Rg.LDG_IRQ_PRESSURE p) (Nat.le_of_ble_eq_true rfl) (Nat.le_of_ble_eq_true rfl)
  have e1 : (u.raise (Rg.LDG_IRQ_PRESSURE p)).entsOf p = s.entsOf p := by
    unfold State.entsOf
    rw [State.raise_part, State.part_congr pu, State.raise_ledger, lu]
  have fh (f : RF) (hf : f.addr ≠ Rg.LDG_IRQ p) : (u.raise (Rg.LDG_IRQ_PRESSURE p)).fd f = s.fd f := (State.fd_raise_apart iu _ _
      (.inl hf)).trans (fu f)
  have el (j : Nat) : (u.raise (Rg.LDG_IRQ_PRESSURE p)).ent j = s.ent j := (State.ent_congr (State.raise_ledger ..) j).trans
      (State.ent_congr lu j)
  rw [e1]
  generalize u.raise (Rg.LDG_IRQ_PRESSURE p) = v at i1 f1 e1 fh el
  have hi := fh (Rg.LDG_PAUSE_CFG_PRIO_HI p) (by simp only [Rg.LDG_PAUSE_CFG_PRIO_HI, Rg.LDG_PAUSE_CFG, Rg.LDG_IRQ]; omega)
  have lo := fh (Rg.LDG_PAUSE_CFG_PRIO_LO p) (by simp only [Rg.LDG_PAUSE_CFG_PRIO_LO, Rg.LDG_PAUSE_CFG, Rg.LDG_IRQ]; omega)
  have pf (y : State) (iy : y.Inv) (b : Nat) := State.pressEntry_fd iy p b (f := Rg.LDG_IRQ_PRESSURE p) (Rg.LDG_IRQ_in p)
    (by simp only [Rg.LDG_IRQ_PRESSURE, Rg.LDG_IRQ, Rg.LDG_EVENTS]; omega) (.inl (by simp only [Rg.LDG_IRQ_PRESSURE, Rg.LDG_IRQ, Rg.LDG_RQ_TAIL_TAIL, Rg.LDG_RQ_TAIL]; omega)) (RF.apart_bits rfl) (RF.apart_bits rfl)
  have ph (y : State) (iy : y.Inv) (b : Nat) := State.pressEntry_fd iy p b (f := Rg.LDG_PAUSE_CFG_PRIO_HI p) (Rg.LDG_PAUSE_CFG_in p)
    (by simp only [Rg.LDG_PAUSE_CFG_PRIO_HI, Rg.LDG_PAUSE_CFG, Rg.LDG_EVENTS]; omega)
        (.inl (by simp only [Rg.LDG_PAUSE_CFG_PRIO_HI, Rg.LDG_PAUSE_CFG, Rg.LDG_RQ_TAIL_TAIL, Rg.LDG_RQ_TAIL]; omega))
        (.inl (by simp only [Rg.LDG_PAUSE_CFG_PRIO_HI, Rg.LDG_PAUSE_CFG, Rg.LDG_IRQ_RESULT, Rg.LDG_IRQ]; omega))
        (.inl (by simp only [Rg.LDG_PAUSE_CFG_PRIO_HI, Rg.LDG_PAUSE_CFG, Rg.LDG_IRQ_HOLDING, Rg.LDG_IRQ]; omega))
  have pl (y : State) (iy : y.Inv) (b : Nat) := State.pressEntry_fd iy p b (f := Rg.LDG_PAUSE_CFG_PRIO_LO p) (Rg.LDG_PAUSE_CFG_in p)
    (by simp only [Rg.LDG_PAUSE_CFG_PRIO_LO, Rg.LDG_PAUSE_CFG, Rg.LDG_EVENTS]; omega)
        (.inl (by simp only [Rg.LDG_PAUSE_CFG_PRIO_LO, Rg.LDG_PAUSE_CFG, Rg.LDG_RQ_TAIL_TAIL, Rg.LDG_RQ_TAIL]; omega))
        (.inl (by simp only [Rg.LDG_PAUSE_CFG_PRIO_LO, Rg.LDG_PAUSE_CFG, Rg.LDG_IRQ_RESULT, Rg.LDG_IRQ]; omega))
        (.inl (by simp only [Rg.LDG_PAUSE_CFG_PRIO_LO, Rg.LDG_PAUSE_CFG, Rg.LDG_IRQ_HOLDING, Rg.LDG_IRQ]; omega))
  constructor
  · have q := foldl_keep (P := fun y : State => y.Inv ∧ y.fd (Rg.LDG_IRQ_PRESSURE p) = 1) (f := fun s (x : Nat × Entry) =>
        s.pressEntry p x.1) (s.entsOf p)
      (fun y b hy => ⟨(pf y hy.1 b.1).1, (pf y hy.1 b.1).2.trans hy.2⟩) ⟨i1, f1⟩
    exact q.2
  · intro j e hm hp hs
    have step (y : State) (iy : y.Inv) (yh : y.fd (Rg.LDG_PAUSE_CFG_PRIO_HI p) = s.fd (Rg.LDG_PAUSE_CFG_PRIO_HI p))
        (yl : y.fd (Rg.LDG_PAUSE_CFG_PRIO_LO p) = s.fd (Rg.LDG_PAUSE_CFG_PRIO_LO p))
        (ye : y.ent j = s.ent j ∨ (y.ent j).state = 4) : ((y.pressEntry p j).ent j).state = 4 := by
      unfold State.pressEntry
      dsimp only
      rcases ye with ye | ye
      · have pp : y.pressed p (y.ent j) = true := by
          rw [ye]
          unfold State.pressed at hp ⊢
          dsimp only at hp ⊢
          rw [yh, yl]
          exact hp
        rw [if_neg (by simp [pp])]
        have a : (y.ent j).state = 1 ∨ (y.ent j).state = 2 := by rw [ye]; exact hs
        rcases a with a | a <;> rw [a] <;> exact (congrArg Entry.state (State.enterPaused_ent ..))
      · split
        · exact ye
        · rw [ye]
          show ((y.modEnt j fun e => e.mark 8).ent j).state = 4
          rw [State.modEnt_self _ _ (by show (y.ent j).state ≠ 0; rw [ye]; decide)]
          exact ye
    refine foldl_at (J := fun y : State => y.Inv ∧ y.fd (Rg.LDG_PAUSE_CFG_PRIO_HI p) = s.fd (Rg.LDG_PAUSE_CFG_PRIO_HI p) ∧
        y.fd (Rg.LDG_PAUSE_CFG_PRIO_LO p) = s.fd (Rg.LDG_PAUSE_CFG_PRIO_LO p) ∧ (y.ent j = s.ent j ∨ (y.ent j).state = 4))
      (P := fun y : State => (y.ent j).state = 4) (f := fun s (x : Nat × Entry) => s.pressEntry p x.1) hm ?_ ?_ ?_ ⟨i1, hi, lo,
          .inl (el j)⟩
    · rintro y b ⟨h1, h2, h3, h4⟩
      refine ⟨(ph y h1 b.1).1, (ph y h1 b.1).2.trans h2, (pl y h1 b.1).2.trans h3, ?_⟩
      by_cases n : j = b.1
      · right; rw [← n]; exact step y h1 h2 h3 h4
      · rw [State.pressEntry_ne _ _ n]; exact h4
    · rintro y ⟨h1, h2, h3, h4⟩
      exact step y h1 h2 h3 h4
    · rintro y b ⟨h1, h2, h3, h4⟩ h5
      by_cases n : j = b.1
      · rw [← n]; exact step y h1 h2 h3 h4
      · rw [State.pressEntry_ne _ _ n]; exact h5

theorem State.gate_state (s : State) (p i : Nat) (h : (s.ent i).state ≠ 0) : ((s.gate p i).ent i).state ≠ 0 := by
  unfold State.gate
  dsimp only
  have hold (u : State) (hu : u.ledger = s.ledger) : ((u.holdGate p i).ent i).state ≠ 0 := by
    have e := State.ent_congr hu
    rw [State.holdGate_ent _ _ _ _ (by rw [e]; exact h), if_pos rfl, e]; exact h
  have pass (u : State) (c : Nat) : ((u.passGate i c).ent i).state ≠ 0 := by
    unfold State.passGate
    rw [State.modEnt_self _ _ (by exact (by decide : (2 : Nat) ≠ 0))]
    exact (by decide : (2 : Nat) ≠ 0)
  split
  · exact h
  · split
    · exact pass _ _
    · split
      · exact hold s rfl
      · have hb := State.budgetOf_ledger s p (s.ent i).customer
        generalize s.budgetOf p (s.ent i).customer = x at hb
        obtain ⟨b, u⟩ := x
        dsimp only at hb ⊢
        split
        · exact pass _ _
        · exact hold _ ((State.setLevel_ledger ..).trans hb)

theorem State.toGate_state (s : State) (p i : Nat) : ((s.toGate p i).ent i).state ≠ 0 := by
  unfold State.toGate
  extract_lets u
  have e1 : u.ent i = { s.ent i with state := 1, qtime := s.time.dev, gated := false, charge := 0 } :=
    State.modEnt_self _ _ (by exact (by decide : (1 : Nat) ≠ 0))
  have e0 : (u.ent i).state ≠ 0 := by rw [e1]; exact (by decide : (1 : Nat) ≠ 0)
  clear_value u
  split
  · rw [State.enterPaused_ent]; exact (by decide : (4 : Nat) ≠ 0)
  · exact State.gate_state _ _ _ e0

theorem Entry.unmark_held (e : Entry) : (e.unmark 3).state = e.state := (Entry.unmark_same e 3).2.2.1

theorem Entry.unmark_clear {e : Entry} {b : Nat} (h : bitOf e.marks b = false) : e.unmark b = e := by
  unfold Entry.unmark
  rw [if_neg (by simp [h])]

theorem State.unpressEntry_ent (s : State) (p k j : Nat) (h : (s.ent k).state ≠ 0) :
    (j ≠ k → (s.unpressEntry p k).ent j = s.ent j) ∧ ((s.unpressEntry p k).ent k).state ≠ 0 ∧
      ((s.ent k).state = 3 ∨ (s.ent k).state = 4 ∧ ((s.ent k).unmark 3).held = true → ((s.unpressEntry p k).ent k).calm) := by
  unfold State.unpressEntry
  dsimp only
  have b3 : bitOf ((s.ent k).unmark 3).marks 3 = false := by rw [Entry.unmark_bit]; simp
  have st := Entry.unmark_held (s.ent k)
  generalize (s.ent k).unmark 3 = e at b3 st
  split
  · rename_i hc
    have h3 : e.state = 3 := by simp only [Bool.and_eq_true, decide_eq_true_eq] at hc; exact hc.1
    have us := Entry.unmark_same e 1
    have ne : (e.unmark 1).state ≠ 0 := by rw [us.2.2.1, h3]; decide
    refine ⟨fun n => State.setEnt_ne _ ne n, ?_, fun _ => ?_⟩
    · rw [State.setEnt_self _ _ ne]; exact ne
    · rw [State.setEnt_self _ _ ne]
      exact ⟨by rw [Entry.unmark_bit, b3]; rfl, .inl (us.2.2.1.trans h3)⟩
  · have ne : e.state ≠ 0 := by rw [st]; exact h
    have es : (s.setEnt k e).ent k = e := State.setEnt_self _ _ ne
    have en : j ≠ k → (s.setEnt k e).ent j = s.ent j := fun n => State.setEnt_ne _ ne n
    generalize s.setEnt k e = v at es en
    unfold State.unpause
    dsimp only
    rw [es]
    split
    · rename_i hc
      refine ⟨en, by rw [es]; exact ne, fun hx => ?_⟩
      rw [es]
      refine ⟨b3, ?_⟩
      rcases hx with hx | hx
      · exact .inl (st.trans hx)
      · exact .inr ⟨st.trans hx.1, hx.2⟩
    · rename_i hc
      have hc : e.state = 4 ∧ e.held = false := by simpa using hc
      have abs : ¬ ((s.ent k).state = 3 ∨ (s.ent k).state = 4 ∧ e.held = true) := by
        rw [← st, hc.1, hc.2]; simp
      split
      · refine ⟨fun n => (State.modEnt_ne _ (by exact (by decide : (3 : Nat) ≠ 0)) n).trans (en n), ?_, fun hx => absurd hx abs⟩
        rw [State.modEnt_self _ _ (by exact (by decide : (3 : Nat) ≠ 0))]; exact (by decide : (3 : Nat) ≠ 0)
      · exact ⟨fun n => ((State.toGate_ent v p k j).1 n).trans (en n), State.toGate_state v p k, fun hx => absurd hx abs⟩

theorem pressureEnd_spec (s : State) (p : Nat) (hl : s.live p = true) (hp : s.pressure p = false)
    (hf : ∀ k e, (k, e) ∈ s.entsOf p → (s.ent k).state ≠ 0) :
    ∃ t, exec (.pressureEnd p) s = .next t ∧
      ∀ j e, (j, e) ∈ s.entsOf p → bitOf e.marks 3 = true →
        (s.ent j).state = 3 ∨ (s.ent j).state = 4 ∧ ((s.ent j).unmark 3).held = true → bitOf (t.ent j).marks 3 = false := by
  refine ⟨_, rfl, ?_⟩
  unfold State.pressureEnd
  rw [if_neg (by simp [hl, hp])]
  intro j e hm hb hs
  dsimp only
  generalize hxs : (s.entsOf p).filter (fun x => bitOf x.2.marks 3) = xs
  have mx : (j, e) ∈ xs := by rw [← hxs]; exact List.mem_filter.2 ⟨hm, hb⟩
  have nx : ∀ x ∈ xs, (s.ent x.1).state ≠ 0 := by
    intro x hx
    rw [← hxs] at hx
    exact hf x.1 x.2 (List.mem_filter.1 hx).1
  have fold : ∀ (l : List (Nat × Entry)) (y : State), (∀ x ∈ l, (y.ent x.1).state ≠ 0) →
      ((y.ent j).calm ∨ (j, e) ∈ l ∧ ((y.ent j).state = 3 ∨ (y.ent j).state = 4 ∧ ((y.ent j).unmark 3).held = true)) →
      ((l.foldl (fun s x => s.unpressEntry p x.1) y).ent j).calm := by
    intro l
    induction l with
    | nil => intro y _ h; rcases h with h | h; exact h; exact absurd h.1 (List.not_mem_nil)
    | cons a l ih =>
      intro y hn h
      have na := hn a (List.mem_cons_self ..)
      have ua := State.unpressEntry_ent y p a.1 j na
      refine ih _ (fun x hx => ?_) ?_
      · by_cases n : x.1 = a.1
        · rw [n]; exact ua.2.1
        · rw [(State.unpressEntry_ent y p a.1 x.1 na).1 n]; exact hn x (List.mem_cons_of_mem _ hx)
      · by_cases n : j = a.1
        · left
          rw [n]
          refine ua.2.2 ?_
          rw [← n]
          rcases h with h | h
          · rcases h.2 with h2 | h2
            · exact .inl h2
            · exact .inr ⟨h2.1, by rw [Entry.unmark_clear h.1]; exact h2.2⟩
          · exact h.2
        · rw [ua.1 n]
          rcases h with h | h
          · exact .inl h
          · right
            rcases List.mem_cons.1 h.1 with hx | hx
            · exact absurd (congrArg Prod.fst hx) n
            · exact ⟨hx, h.2⟩
  have c := fold xs s nx (.inr ⟨mx, hs⟩)
  generalize xs.foldl (fun s x => s.unpressEntry p x.1) s = v at c
  rcases State.formAll_ent v p j with h | h <;> rw [h] <;> exact c.1

theorem deadlinePass_spec (s : State) (e p : Nat) (he : e < 4294967296) (hp : s.ledgerOwner e = p) (hl : s.live p = true)
    (hd : (s.ent e).deadline ≠ noTime) (hs : (s.ent e).state = 1 ∨ (s.ent e).state = 2 ∨ (s.ent e).state = 4) (hm : bitOf (s.ent
        e).marks 2 = false) :
    ∃ t, exec (.deadlinePass e) s = .next t ∧
      ((s.ent e).hard = true → (t.ent e).state = 6 ∨ (t.ent e).state = 0) ∧
      ((s.ent e).hard = false → t.ent e = { (s.ent e).mark 4 with effPrio := 15, qtime := t.time.dev }) := by
  refine ⟨_, rfl, ?_⟩
  subst hp
  unfold State.deadlinePass
  dsimp only
  rw [if_neg (by
    have r : (inRange (s.ent e).state 1 2 || (s.ent e).state == 4) = true := by
      rcases hs with h | h | h <;> rw [h] <;> rfl
    simp [hl, hd, r, hm])]
  generalize s.ledgerOwner e = p
  have k : (s.passDev ((s.ent e).deadline + 1)).ledger = s.ledger := rfl
  generalize s.passDev ((s.ent e).deadline + 1) = u at k
  have ee := State.ent_congr k e
  constructor
  · intro h; rw [if_pos h]; exact State.retire_ends _ _ _ _ _ he
  · intro h
    rw [if_neg (by simp [h])]
    have t0 : (u.modEnt e fun x => { x.mark 4 with effPrio := 15, qtime := u.time.dev }).time = u.time := rfl
    rw [t0, State.modEnt_self _ _ (by rw [ee]; show (s.ent e).state ≠ 0; omega), ee]

/-! ### Adapters (R403 to R405, R415) -/

theorem State.adpResult_shown {s : State} (i : s.Inv) (p c : Nat) : (s.adpResult p c).fd (Rg.ADP_CMD_RESULT_RESULT p) = c % 256 ∧
    ∀ q, (s.adpResult p c).part q = s.part q := by
  unfold State.adpResult
  refine ⟨?_, fun q => rfl⟩
  rw [State.fd_incr_apart (State.setF_inv i _ _) _ _ _ (RF.apart_bits rfl), State.fd_setF_self i _ _ (Nat.le_of_ble_eq_true rfl)]
  rfl

theorem adpBind_spec (s : State) (i : s.Inv) (p slot customer : Nat) (hd : s.defined p = true) :
    ∃ t, exec (.adpBind p slot customer) s = .next t ∧
      (s.adQuota p ≤ slot → t.fd (Rg.ADP_CMD_RESULT_RESULT p) = 1) ∧
      (slot < s.adQuota p → (s.adSlot p slot).customer ≠ none → t.fd (Rg.ADP_CMD_RESULT_RESULT p) = 2) ∧
      (slot < s.adQuota p → (s.adSlot p slot).customer = none → (∃ a ∈ (s.part p).adapters, a.2.customer = some customer) →
        t.fd (Rg.ADP_CMD_RESULT_RESULT p) = 4) ∧
      (slot < s.adQuota p → (s.adSlot p slot).customer = none → (∀ a ∈ (s.part p).adapters, a.2.customer ≠ some customer) →
        t.fd (Rg.ADP_CMD_RESULT_RESULT p) = 0 ∧ t.adSlot p slot = { s.adSlot p slot with customer := some customer }) := by
  refine ⟨_, rfl, ?_⟩
  unfold State.adpBind
  rw [if_neg (by simp [hd])]
  refine ⟨fun h => ?_, fun h k => ?_, fun h k m => ?_, fun h k m => ?_⟩
  · rw [if_pos h]; exact (State.adpResult_shown i p 1).1
  · rw [if_neg (by omega), if_pos (by simpa [Option.isSome_iff_ne_none] using k)]; exact (State.adpResult_shown i p 2).1
  · rw [if_neg (by omega), if_neg (by simp [k]), if_pos (by simpa using m)]; exact (State.adpResult_shown i p 4).1
  · rw [if_neg (by omega), if_neg (by simp [k]), if_neg (by simpa using m)]
    have r := State.adpResult_shown (State.modPart_inv i p fun q => { q with adapters := ins q.adapters slot { s.adSlot p slot with customer := some customer } }) p 0
    refine ⟨r.1, ?_⟩
    have e := r.2 p
    rw [State.part_modPart_self] at e
    unfold State.adSlot at e ⊢
    unfold State.setAd
    rw [e]
    dsimp only
    rw [find_ins, if_pos rfl]

theorem adpUnbind_spec (s : State) (i : s.Inv) (p slot : Nat) (hd : s.defined p = true) :
    ∃ t, exec (.adpUnbind p slot) s = .next t ∧
      (s.adQuota p ≤ slot → t.fd (Rg.ADP_CMD_RESULT_RESULT p) = 1) ∧
      (slot < s.adQuota p → (s.adSlot p slot).customer = none → t.fd (Rg.ADP_CMD_RESULT_RESULT p) = 3) ∧
      (slot < s.adQuota p → (s.adSlot p slot).customer ≠ none → (∃ x ∈ (s.adSlot p slot).counts, x.2 ≠ 0) →
        t.fd (Rg.ADP_CMD_RESULT_RESULT p) = 5) ∧
      (slot < s.adQuota p → (s.adSlot p slot).customer ≠ none → (∀ x ∈ (s.adSlot p slot).counts, x.2 = 0) →
        t.fd (Rg.ADP_CMD_RESULT_RESULT p) = 0 ∧ t.adSlot p slot = { s.adSlot p slot with customer := none }) := by
  refine ⟨_, rfl, ?_⟩
  unfold State.adpUnbind
  rw [if_neg (by simp [hd])]
  dsimp only
  refine ⟨fun h => ?_, fun h k => ?_, fun h k m => ?_, fun h k m => ?_⟩
  · rw [if_pos h]; exact (State.adpResult_shown i p 1).1
  · rw [if_neg (by omega), if_pos (by simp [k])]; exact (State.adpResult_shown i p 3).1
  · rw [if_neg (by omega), if_neg (by simpa using k), if_pos (by simpa using m)]; exact (State.adpResult_shown i p 5).1
  · rw [if_neg (by omega), if_neg (by simpa using k), if_neg (by simpa using m)]
    have r := State.adpResult_shown (State.modPart_inv i p fun q => { q with adapters := ins q.adapters slot { s.adSlot p slot with customer := none } }) p 0
    refine ⟨r.1, ?_⟩
    have e := r.2 p
    rw [State.part_modPart_self] at e
    unfold State.adSlot at e ⊢
    unfold State.setAd
    rw [e]
    dsimp only
    rw [find_ins, if_pos rfl]

theorem adpPublish_spec (s : State) (i : s.Inv) (p slot : Nat) (hd : s.defined p = true) (hq : slot < s.adQuota p)
    (hc : (s.adSlot p slot).customer ≠ none) (ha : s.fd (Rg.ADP_AREA_BASE p) ≠ 0) :
    ∃ t, exec (.adpPublish p slot) s = .next t ∧
      ((s.adSlot p slot).prev ≠ 0 → find (fun _ => 0) (s.adSlot p slot).counts (s.adSlot p slot).prev ≠ 0 →
        t.fd (Rg.ADP_CMD_RESULT_RESULT p) = 6) ∧
      (∀ h b u v, ((s.adSlot p slot).prev = 0 ∨ find (fun _ => 0) (s.adSlot p slot).counts (s.adSlot p slot).prev = 0) →
        s.blk p (s.fd (Rg.ADP_CMD_ADDR_ADDR p)) 16 = (some h, u) → adHeadOk h = true →
        u.blk p (s.fd (Rg.ADP_CMD_ADDR_ADDR p)) (16 + fieldAt h 4 2 * adLayerBytes (fieldAt h 6 1)) = (some b, v) → adPadOk b =
            true →
        (v.devWrite p 1 (s.fd (Rg.ADP_AREA_BASE p) + 32768 * (2 * slot + nextGen (s.adSlot p slot).cur % 2)) b).code = 0 →
        t.fd (Rg.ADP_CMD_RESULT_RESULT p) = 0 ∧
          t.adSlot p slot = { s.adSlot p slot with cur := nextGen (s.adSlot p slot).cur, prev := (s.adSlot p slot).cur }) := by
  refine ⟨_, rfl, ?_⟩
  unfold State.adpPublish
  rw [if_neg (by simp [hd]), if_neg (by omega)]
  dsimp only
  rw [if_neg (by simpa using hc), if_neg ha]
  generalize s.fd (Rg.ADP_CMD_ADDR_ADDR p) = src
  generalize s.fd (Rg.ADP_AREA_BASE p) = area
  generalize s.adSlot p slot = a
  constructor
  · intro h k; rw [if_pos (by simp [h, k])]; exact (State.adpResult_shown i p 6).1
  · intro h b u v hp h1 h2 h3 h4 h5
    rw [if_neg (by simp only [Bool.and_eq_true, decide_eq_true_eq, bne_iff_ne, ne_eq, not_and, Decidable.not_not]; exact fun x => hp.resolve_left x), h1]
    dsimp only
    rw [if_neg (by simp [h2]), h3]
    dsimp only
    rw [if_neg (by simp [h4]), if_neg (by simp [h5])]
    have k1 : s.Keeps 2305843009213693951 (s.blk p src 16).2 := State.blk_keeps (M := 2305843009213693951) (by decide) (.refl _) _
        _ _
    rw [h1] at k1
    have k2 : u.Keeps 2305843009213693951 (u.blk p src (16 + fieldAt h 4 2 * adLayerBytes (fieldAt h 6 1))).2 := State.blk_keeps
        (M := 2305843009213693951) (by decide) (.refl _) _ _ _
    rw [h3] at k2
    have k3 : v.Keeps 2305843009213693951 (v.devWrite p 1 (area + 32768 * (2 * slot + nextGen a.cur % 2)) b).st :=
        State.devWrite_keeps (M := 2305843009213693951) (by decide) (.refl _) _ _ _ _ _
    have iw := k3.inv (k2.inv (k1.inv i))
    generalize (v.devWrite p 1 (area + 32768 * (2 * slot + nextGen a.cur % 2)) b).st = w at iw
    have ix := State.modPart_inv iw p fun q => { q with adapters := ins q.adapters slot { a with cur := nextGen a.cur, prev := a.cur } }
    have r := State.adpResult_shown (State.setF_inv ix (Rg.ADP_CMD_RESULT_GEN p) (nextGen a.cur)) p 0
    refine ⟨r.1, ?_⟩
    have e := r.2 p
    rw [State.setF_part, State.part_modPart_self] at e
    unfold State.adSlot
    unfold State.setAd
    rw [e]
    dsimp only
    rw [find_ins, if_pos rfl]

theorem adpAreaWrite_spec (s : State) (i : s.Inv) (p : Nat) (v : W64) (hd : s.defined p = true) :
    ∃ t, exec (.adpAreaWrite p v) s = .next t ∧
      ((∃ a ∈ (s.part p).adapters, a.2.customer.isSome = true) → t = s) ∧
      ((∀ a ∈ (s.part p).adapters, a.2.customer = none) → t.rd (Rg.ADP_AREA p) = v) := by
  refine ⟨_, rfl, ?_⟩
  unfold State.adpArea
  constructor
  · intro h; rw [if_pos (by simp only [hd, Bool.not_true, Bool.false_or, List.any_eq_true]; exact h)]
  · intro h
    rw [if_neg (by simpa [hd] using h)]
    dsimp only
    have iw := State.wr_inv i (Rg.ADP_AREA p) v
    have rw1 : (s.wr (Rg.ADP_AREA p) v).rd (Rg.ADP_AREA p) = v := by rw [State.rd_wr i, if_pos rfl]
    generalize s.wr (Rg.ADP_AREA p) v = u at iw rw1
    split
    · exact rw1
    · have k : u.Keeps 74450131340091398 (u.devWrite p 1 (v.toNat + 32768 * (2 * u.adQuota p)) (List.replicate 32768 0)).st :=
          State.devWrite_keeps (by decide) (.refl _) _ _ _ _ _
      exact (k.rd iw (Rg.ADP_AREA_in p) (by decide) (by decide)).trans rw1

end Sys2Proof.Machine
end

