-- ==== Sys2Proof/Laws/EffSpill.lean ====
section
/-!
SUPPORT. What spilled sends, combined contributions and Churn notices do (11_channels.md R362 to R366).
-/
namespace Sys2Proof.Machine

/-- A message written into a spill ring. -/
theorem State.spillWrite_shown {s : State} (i : s.Inv) (p n h g skip seq : Nat) (bs : Bytes) :
    ((s.spillWrite p n h g skip seq bs).sender p n).spill = (s.sender p n).spill ++
      [⟨h, (s.fd (Rg.CHN_PORT_SPILL_PTR_TAIL p n) + skip) % 2 ^ 32, skip, bs.length, seq, false, false⟩] ∧
    ((s.spillWrite p n h g skip seq bs).sender p n).queue = (s.sender p n).queue ∧
    (s.spillWrite p n h g skip seq bs).fd (Rg.CHN_PORT_SPILL_PTR_TAIL p n) = ((s.fd (Rg.CHN_PORT_SPILL_PTR_TAIL p n) + skip) % 2 ^
        32 + bs.length) % 2 ^ 32 ∧
    (s.spillWrite p n h g skip seq bs).rd (Rg.CHN_IRQ_SPILL p) = s.rd (Rg.CHN_IRQ_SPILL p) ||| BitVec.ofNat 64 (2 ^ g) ∧
    (s.spillWrite p n h g skip seq bs).Inv ∧ (s.spillWrite p n h g skip seq bs).endpoints = s.endpoints ∧
    (s.spillWrite p n h g skip seq bs).landings = s.landings ∧
    (skip = 0 → ∀ a, a = s.fd (Rg.CHN_PORT_SPILL_BASE_BASE p n) + s.fd (Rg.CHN_PORT_SPILL_PTR_TAIL p n) % 2 ^ 32 % s.spillSize p n →
      s.Writable p [(a, bs)] → s.Stored (s.spillWrite p n h g skip seq bs) [(a, bs)]) := by
  unfold State.spillWrite
  dsimp only
  generalize hu : (if skip = 0 then s else ((s.devWrite p 1 (s.fd (Rg.CHN_PORT_SPILL_BASE_BASE p n) + s.fd
      (Rg.CHN_PORT_SPILL_PTR_TAIL p n) % s.spillSize p n)
    (skipRec skip)).st).bump (Rg.CHN_EVENTS_SKIPS p)) = u
  have ku : u.Inv ∧ u.endpoints = s.endpoints ∧ u.landings = s.landings ∧ u.sender p n = s.sender p n ∧ u.rd (Rg.CHN_IRQ_SPILL p)
      = s.rd (Rg.CHN_IRQ_SPILL p) ∧
      (skip = 0 → u = s) := by
    subst hu
    split
    · exact ⟨i, rfl, rfl, rfl, rfl, fun _ => rfl⟩
    · rename_i hs
      have k : s.Keeps 74450131340091398 (s.devWrite p 1 (s.fd (Rg.CHN_PORT_SPILL_BASE_BASE p n) + s.fd
          (Rg.CHN_PORT_SPILL_PTR_TAIL p n) % s.spillSize p n)
        (skipRec skip)).st := State.devWrite_keeps (by decide) (.refl _) _ _ _ _ _
      have kr := k.rd i (Rg.CHN_IRQ_SPILL_in p) (by decide) (by decide)
      generalize (s.devWrite p 1 (s.fd (Rg.CHN_PORT_SPILL_BASE_BASE p n) + s.fd (Rg.CHN_PORT_SPILL_PTR_TAIL p n) % s.spillSize p
          n) (skipRec skip)).st = v at k kr ⊢
      have iv := k.inv i
      refine ⟨State.bump_inv iv _ _, (State.bump_endpoints ..).trans (k.same .endpoints (by decide)), (State.bump_landings
          ..).trans (k.same .landings (by decide)), ?_, ?_,
        fun h => absurd h hs⟩
      · have := k.same .chans (by decide) p
        have e : (v.bump (Rg.CHN_EVENTS_SKIPS p)).sender p n = v.sender p n := rfl
        rw [e]
        unfold State.sender
        rw [this.1]
      · rw [← kr]
        simp (disch := (first
                | decide | exact Nat.le_of_ble_eq_true rfl | exact RF.apart_bits rfl
                | (refine RF.apart_addr ?_; simp only [Rg.CHN_IRQ_SPILL, Rg.CHN_EVENTS_SKIPS, Rg.CHN_EVENTS]; omega)
                | (simp only [ne_eq, Rg.CHN_IRQ_SPILL, Rg.CHN_EVENTS_SKIPS, Rg.CHN_EVENTS]; omega)
                | simp (maxDischargeDepth := 40) [*])) [State.rd_bump_ne]
  clear hu
  obtain ⟨iu, u1, u2, u3, u4, u5⟩ := ku
  have kw : u.Keeps 74450131340091398 (u.devWrite p 1 (s.fd (Rg.CHN_PORT_SPILL_BASE_BASE p n) +
    (s.fd (Rg.CHN_PORT_SPILL_PTR_TAIL p n) + skip) % 2 ^ 32 % s.spillSize p n) bs).st := State.devWrite_keeps (by decide) (.refl
        _) _ _ _ _ _
  have kr := kw.rd iu (Rg.CHN_IRQ_SPILL_in p) (by decide) (by decide)
  have kmem : skip = 0 → ∀ a, a = s.fd (Rg.CHN_PORT_SPILL_BASE_BASE p n) + s.fd (Rg.CHN_PORT_SPILL_PTR_TAIL p n) % 2 ^ 32 %
      s.spillSize p n →
      s.Writable p [(a, bs)] → s.Stored (u.devWrite p 1 (s.fd (Rg.CHN_PORT_SPILL_BASE_BASE p n) +
        (s.fd (Rg.CHN_PORT_SPILL_PTR_TAIL p n) + skip) % 2 ^ 32 % s.spillSize p n) bs).st [(a, bs)] := by
    intro h0 a ha hw x
    rw [u5 h0]
    subst h0
    rw [Nat.add_zero, ← ha]
    have hb := hw.reached _ List.mem_cons_self
    rw [State.devWrite_mem hw.flips i.mem hb.1 hb.2]
    rfl
  generalize (u.devWrite p 1 (s.fd (Rg.CHN_PORT_SPILL_BASE_BASE p n) + (s.fd (Rg.CHN_PORT_SPILL_PTR_TAIL p n) + skip) % 2 ^ 32 %
      s.spillSize p n) bs).st = v at kw kr kmem ⊢
  have iv := kw.inv iu
  have v1 : v.sender p n = s.sender p n := by
    have := kw.same .chans (by decide) p
    rw [← u3]
    unfold State.sender
    rw [this.1]
  have v2 : v.endpoints = s.endpoints := (kw.same .endpoints (by decide)).trans u1
  have v3 : v.landings = s.landings := (kw.same .landings (by decide)).trans u2
  have v4 : v.rd (Rg.CHN_IRQ_SPILL p) = s.rd (Rg.CHN_IRQ_SPILL p) := kr.trans u4
  generalize hS : (⟨h, (s.fd (Rg.CHN_PORT_SPILL_PTR_TAIL p n) + skip) % 2 ^ 32, skip, bs.length, seq, false, false⟩ : SpillMsg) = sp
  generalize hN : (s.fd (Rg.CHN_PORT_SPILL_PTR_TAIL p n) + skip) % 2 ^ 32 + bs.length = N
  have im : (State.modSender (v.setF (Rg.CHN_PORT_SPILL_PTR_TAIL p n) N) p n fun q => { q with spill := q.spill ++ [sp] }).Inv :=
    (State.setF_inv iv _ _).of_eq rfl rfl rfl rfl rfl
  have es := State.sender_modSender (v.setF (Rg.CHN_PORT_SPILL_PTR_TAIL p n) N) p n fun q => { q with spill := q.spill ++ [sp] }
  have e1 : (State.modSender (v.setF (Rg.CHN_PORT_SPILL_PTR_TAIL p n) N) p n fun q => { q with spill := q.spill ++ [sp] }).fd (Rg.CHN_PORT_SPILL_PTR_TAIL p n) = N % 2 ^ 32 := by
    have : (State.modSender (v.setF (Rg.CHN_PORT_SPILL_PTR_TAIL p n) N) p n fun q => { q with spill := q.spill ++ [sp] }).fd (Rg.CHN_PORT_SPILL_PTR_TAIL p n) =
      (v.setF (Rg.CHN_PORT_SPILL_PTR_TAIL p n) N).fd (Rg.CHN_PORT_SPILL_PTR_TAIL p n) := rfl
    rw [this, State.fd_setF_self iv _ _ (Nat.le_of_ble_eq_true rfl)]
    rfl
  have e2 : (State.modSender (v.setF (Rg.CHN_PORT_SPILL_PTR_TAIL p n) N) p n fun q => { q with spill := q.spill ++ [sp] }).rd (Rg.CHN_IRQ_SPILL p) = s.rd (Rg.CHN_IRQ_SPILL p) := by
    have : (State.modSender (v.setF (Rg.CHN_PORT_SPILL_PTR_TAIL p n) N) p n fun q => { q with spill := q.spill ++ [sp] }).rd (Rg.CHN_IRQ_SPILL p) =
      (v.setF (Rg.CHN_PORT_SPILL_PTR_TAIL p n) N).rd (Rg.CHN_IRQ_SPILL p) := rfl
    rw [this, ← v4]
    simp (disch := (first
            | decide | exact Nat.le_of_ble_eq_true rfl | exact RF.apart_bits rfl
            | (refine RF.apart_addr ?_; simp only [Rg.CHN_IRQ_SPILL, Rg.CHN_PORT_SPILL_PTR_TAIL, Rg.CHN_PORT_SPILL_PTR]; omega)
            | (simp only [ne_eq, Rg.CHN_IRQ_SPILL, Rg.CHN_PORT_SPILL_PTR_TAIL, Rg.CHN_PORT_SPILL_PTR]; omega)
            | simp (maxDischargeDepth := 40) [*])) [State.rd_setF_ne]
  have e3 : (State.modSender (v.setF (Rg.CHN_PORT_SPILL_PTR_TAIL p n) N) p n fun q => { q with spill := q.spill ++ [sp] }).endpoints = s.endpoints := v2
  have e4 : (State.modSender (v.setF (Rg.CHN_PORT_SPILL_PTR_TAIL p n) N) p n fun q => { q with spill := q.spill ++ [sp] }).landings = s.landings := v3
  have e5 : (State.modSender (v.setF (Rg.CHN_PORT_SPILL_PTR_TAIL p n) N) p n fun q => { q with spill := q.spill ++ [sp] }).mem = v.mem := rfl
  have e6 : ((v.setF (Rg.CHN_PORT_SPILL_PTR_TAIL p n) N).sender p n) = s.sender p n := v1
  rw [e6] at es
  generalize (State.modSender (v.setF (Rg.CHN_PORT_SPILL_PTR_TAIL p n) N) p n fun q => { q with spill := q.spill ++ [sp] }) = y at im es e1 e2 e3 e4 e5 ⊢
  have f1 : ((y.bump (Rg.CHN_EVENTS_SPILLED p)).wr (Rg.CHN_IRQ_SPILL p) ((y.bump (Rg.CHN_EVENTS_SPILLED p)).rd (Rg.CHN_IRQ_SPILL
      p) ||| BitVec.ofNat 64 (2 ^ g))).fd
      (Rg.CHN_PORT_SPILL_PTR_TAIL p n) = N % 2 ^ 32 := by
    rw [← e1]
    simp (disch := (first
            | decide | exact Nat.le_of_ble_eq_true rfl | exact RF.apart_bits rfl
            | (refine RF.apart_addr ?_; simp only [Rg.CHN_IRQ_SPILL, Rg.CHN_PORT_SPILL_PTR_TAIL, Rg.CHN_PORT_SPILL_PTR,
              Rg.CHN_EVENTS_SPILLED, Rg.CHN_EVENTS]; omega)
            | (simp only [ne_eq, Rg.CHN_IRQ_SPILL, Rg.CHN_PORT_SPILL_PTR_TAIL, Rg.CHN_PORT_SPILL_PTR, Rg.CHN_EVENTS_SPILLED,
              Rg.CHN_EVENTS]; omega) | simp (maxDischargeDepth := 40) [*])) [State.fd_wr_apart, State.fd_bump_apart]
  have f2 : ((y.bump (Rg.CHN_EVENTS_SPILLED p)).wr (Rg.CHN_IRQ_SPILL p) ((y.bump (Rg.CHN_EVENTS_SPILLED p)).rd (Rg.CHN_IRQ_SPILL
      p) ||| BitVec.ofNat 64 (2 ^ g))).rd
      (Rg.CHN_IRQ_SPILL p) = s.rd (Rg.CHN_IRQ_SPILL p) ||| BitVec.ofNat 64 (2 ^ g) := by
    rw [State.rd_wr_self (State.bump_inv im _ _), ← e2]
    congr 1
    simp (disch := (first
            | decide | exact Nat.le_of_ble_eq_true rfl | exact RF.apart_bits rfl
            | (refine RF.apart_addr ?_; simp only [Rg.CHN_IRQ_SPILL, Rg.CHN_EVENTS_SPILLED, Rg.CHN_EVENTS]; omega)
            | (simp only [ne_eq, Rg.CHN_IRQ_SPILL, Rg.CHN_EVENTS_SPILLED, Rg.CHN_EVENTS]; omega)
            | simp (maxDischargeDepth := 40) [*])) [State.rd_bump_ne]
  have f3 : ((y.bump (Rg.CHN_EVENTS_SPILLED p)).wr (Rg.CHN_IRQ_SPILL p) ((y.bump (Rg.CHN_EVENTS_SPILLED p)).rd (Rg.CHN_IRQ_SPILL
      p) ||| BitVec.ofNat 64 (2 ^ g))).sender p n =
      y.sender p n := rfl
  refine ⟨?_, ?_, f1, f2, ?_, ?_, ?_, fun h0 a ha hw x => ?_⟩
  · rw [f3, es]
  · rw [f3, es]
  · exact State.wr_inv (State.bump_inv im _ _) _ _
  · exact (State.bump_endpoints ..).trans e3
  · exact (State.bump_landings ..).trans e4
  · have : ((y.bump (Rg.CHN_EVENTS_SPILLED p)).wr (Rg.CHN_IRQ_SPILL p) ((y.bump (Rg.CHN_EVENTS_SPILLED p)).rd (Rg.CHN_IRQ_SPILL p)
        ||| BitVec.ofNat 64 (2 ^ g))).mem = v.mem :=
      (State.bump_mem ..).trans e5
    rw [this]
    exact kmem h0 a ha hw x

/-- A send without a task completes: the port's spill entries stay. -/
theorem State.sendDone_spill {s : State} (i : s.Inv) {p n : Nat} {x : Send} (hq : (s.sender p n).queue = [x]) (ht : x.task = none)
    (c : Nat) :
    ((s.sendDone p n c).sender p n).spill = (s.sender p n).spill ∧
    (s.sendDone p n c).fd (Rg.CHN_PORT_SPILL_PTR_TAIL p n) = s.fd (Rg.CHN_PORT_SPILL_PTR_TAIL p n) ∧
    (s.sendDone p n c).rd (Rg.CHN_IRQ_SPILL p) = s.rd (Rg.CHN_IRQ_SPILL p) := by
  unfold State.sendDone
  rw [hq]
  dsimp only
  rw [ht]
  dsimp only
  have im : (s.modSender p n fun q => { q with queue := [] }).Inv := i.of_eq rfl rfl rfl rfl rfl
  have e1 : ((s.modSender p n fun q => { q with queue := [] }).sender p n).spill = (s.sender p n).spill := by rw [State.sender_modSender]
  have e2 : ∀ f, (s.modSender p n fun q => { q with queue := [] }).fd f = s.fd f := fun f => rfl
  have e3 : ∀ f, (s.modSender p n fun q => { q with queue := [] }).rd f = s.rd f := fun f => rfl
  generalize (s.modSender p n fun q => { q with queue := [] }) = y at im e1 e2 e3 ⊢
  refine ⟨e1, ?_, ?_⟩
  · rw [← e2]
    simp (disch := (first
            | decide | exact Nat.le_of_ble_eq_true rfl | exact RF.apart_bits rfl
            | (refine RF.apart_addr ?_; simp only [Rg.CHN_PORT_SEND_STATUS_RESULT, Rg.CHN_PORT_SEND_STATUS,
              Rg.CHN_PORT_SEND_STATUS_COMPLETED, Rg.CHN_PORT_SPILL_PTR_TAIL, Rg.CHN_PORT_SPILL_PTR]; omega)
            | (simp only [ne_eq, Rg.CHN_PORT_SEND_STATUS_RESULT, Rg.CHN_PORT_SEND_STATUS, Rg.CHN_PORT_SEND_STATUS_COMPLETED,
              Rg.CHN_PORT_SPILL_PTR_TAIL, Rg.CHN_PORT_SPILL_PTR]; omega) | simp (maxDischargeDepth := 40) [*]))
        [State.fd_incr_apart, State.fd_setF_apart]
  · rw [← e3]
    simp (disch := (first
            | decide | exact Nat.le_of_ble_eq_true rfl | exact RF.apart_bits rfl
            | (refine RF.apart_addr ?_; simp only [Rg.CHN_PORT_SEND_STATUS_RESULT, Rg.CHN_PORT_SEND_STATUS,
              Rg.CHN_PORT_SEND_STATUS_COMPLETED, Rg.CHN_IRQ_SPILL]; omega)
            | (simp only [ne_eq, Rg.CHN_PORT_SEND_STATUS_RESULT, Rg.CHN_PORT_SEND_STATUS, Rg.CHN_PORT_SEND_STATUS_COMPLETED,
              Rg.CHN_IRQ_SPILL]; omega) | simp (maxDischargeDepth := 40) [*])) [State.rd_incr_ne, State.rd_setF_ne]

theorem sendSpill_spec (s : State) (i : s.Inv) (p n : Nat) (x : Send) (e : Endpoint) (w : Nat) (h : s.SpillDue p n x e w) :
    ∃ t, exec (.sendSpill p n) s = .next t ∧
      ((s.spillTime p w).spillFit p n (if x.put then 32 else 32 * x.units) = none → s.SendEnds t p n 2 ∧ (t.sender p n).spill =
          (s.sender p n).spill) ∧
      (∀ skip bs seq u, (s.spillTime p w).spillFit p n (if x.put then 32 else 32 * x.units) = some skip →
        (s.spillTime p w).appendBytes p n x = (some (bs, seq), u) → u.Spills t p n x.dest e.group skip seq bs) := by
  refine ⟨_, rfl, ?_⟩
  have e1 : s.sendSpill p n = ((s.spillTime p w).spillHead p n x e.group).pump p n := by
    unfold State.sendSpill
    rw [h.holds.queue]
    dsimp only
    rw [h.wait, h.dest]
    dsimp only
    rw [if_neg (by simp [h.holds.done, h.op, h.isOpen, h.full]; exact h.group)]
    rfl
  rw [e1]
  have iz : (s.spillTime p w).Inv := State.passTo_inv i _
  have hq : ((s.spillTime p w).sender p n).queue = [x] := h.holds.queue
  have zs : (s.spillTime p w).sender p n = s.sender p n := rfl
  have ze : (s.spillTime p w).endpoints = s.endpoints := rfl
  have zl : (s.spillTime p w).landings = s.landings := rfl
  have zc : (s.spillTime p w).churns = s.churns := rfl
  have zm : (s.spillTime p w).mem = s.mem := rfl
  have zf : (s.spillTime p w).fd (Rg.CHN_PORT_SEND_STATUS_COMPLETED p n) = s.fd (Rg.CHN_PORT_SEND_STATUS_COMPLETED p n) :=
    State.passTo_fd _ _ _
  generalize s.spillTime p w = z at iz hq zs ze zl zc zm zf ⊢
  refine ⟨fun hf => ?_, fun skip bs seq u hf ha => ?_⟩
  · unfold State.spillHead
    rw [hf]
    dsimp only
    rw [if_pos (by rw [h.task]; rfl)]
    have kb : ∀ v : State, v = (if x.full then z else z.bump (Rg.CHN_EVENTS_SPILL_FULL p)) → v.Inv ∧ v.sender p n = z.sender p n ∧
        v.endpoints = z.endpoints ∧
        v.landings = z.landings ∧ v.churns = z.churns ∧ v.mem = z.mem ∧ v.fd (Rg.CHN_PORT_SEND_STATUS_COMPLETED p n) = z.fd
            (Rg.CHN_PORT_SEND_STATUS_COMPLETED p n) := by
      rintro v rfl
      split
      · exact ⟨iz, rfl, rfl, rfl, rfl, rfl, rfl⟩
      · refine ⟨State.bump_inv iz _ _, rfl, State.bump_endpoints .., State.bump_landings .., State.bump_churns .., State.bump_mem
            .., ?_⟩
        simp (disch := (first
                | decide | exact Nat.le_of_ble_eq_true rfl | exact RF.apart_bits rfl
                | (refine RF.apart_addr ?_; simp only [Rg.CHN_PORT_SEND_STATUS_COMPLETED, Rg.CHN_PORT_SEND_STATUS,
                  Rg.CHN_EVENTS_SPILL_FULL, Rg.CHN_EVENTS]; omega)
                | (simp only [ne_eq, Rg.CHN_PORT_SEND_STATUS_COMPLETED, Rg.CHN_PORT_SEND_STATUS, Rg.CHN_EVENTS_SPILL_FULL,
                  Rg.CHN_EVENTS]; omega) | simp (maxDischargeDepth := 40) [*])) [State.fd_bump_apart]
    generalize (if x.full then z else z.bump (Rg.CHN_EVENTS_SPILL_FULL p)) = v at kb ⊢
    obtain ⟨v0, v1, v2, v3, v4, v5, v6⟩ := kb v rfl
    have d := State.sendDone_shown v0 (x := x) (by rw [v1]; exact hq) h.task (c := 2) (Nat.le_of_ble_eq_true rfl)
    have pi : (v.sendDone p n 2).pump p n = v.sendDone p n 2 := State.pumpN_idle 9 d.queue
    have sp := (State.sendDone_spill v0 (x := x) (by rw [v1]; exact hq) h.task 2).1
    rw [pi]
    exact ⟨⟨d.result, d.completed.trans (by rw [v6, zf]), d.queue, d.endpoints.trans (v2.trans ze), d.landings.trans (v3.trans
        zl), d.churns.trans (v4.trans zc),
      d.memory.trans (v5.trans zm)⟩, sp.trans (by rw [v1, zs])⟩
  · unfold State.spillHead
    rw [hf]
    dsimp only
    rw [ha]
    dsimp only
    have ka : u.Inv ∧ (u.sender p n).queue = [x] := by
      unfold State.appendBytes at ha
      split at ha
      · cases ha; exact ⟨iz, hq⟩
      · split at ha
        · rename_i b v hr
          have k := State.sendRead_kept hr iz
          cases ha
          have q := State.seqNext_kept v p n x.dest
          exact ⟨k.1.of_eq rfl rfl rfl rfl rfl, by rw [q.2.2.2.2.1, k.2.2.2.2.2.1]; exact hq⟩
        · cases ha
    have k := State.spillWrite_shown ka.1 p n x.dest e.group skip seq bs
    generalize u.spillWrite p n x.dest e.group skip seq bs = v at k ⊢
    obtain ⟨k1, k2, k3, k4, k5, k6, k7, k8⟩ := k
    have hv : (v.sender p n).queue = [x] := k2.trans ka.2
    have d := State.sendDone_shown k5 hv h.task (c := 1) (Nat.le_of_ble_eq_true rfl)
    have pi : (v.sendDone p n 1).pump p n = v.sendDone p n 1 := State.pumpN_idle 9 d.queue
    have z := State.sendDone_spill k5 hv h.task 1
    rw [pi]
    refine ⟨z.1.trans k1, z.2.1.trans k3, z.2.2.trans k4, d.result, d.queue, d.endpoints.trans k6, d.landings.trans k7, fun h0 a
        h1 hw y => ?_⟩
    · rw [d.memory]
      exact k8 h0 a h1 hw y

/-! ### Churn queues (R364 to R366) -/

theorem churnAdd_spec (s : State) (i : s.Inv) (q : Nat) (c : Churn) (n a : Nat) (r : List (Nat × Nat × Option Nat)) (x : Send) (h
    : s.ChurnTakes q c n a r x)
    (v : Bytes) (u : State) (hr : s.churnReads q c n a r = (some v, u)) :
    ∃ t, exec (.churnAdd q) s = .next t ∧
      (c.received + 1 < c.count →
        find? t.churns q = some { c with waiting := r, received := c.received + 1 } ∧
        t.fd (Rg.CHN_PORT_SEND_STATUS_RESULT c.part n) = 0 ∧ (t.sender c.part n).queue = [] ∧ t.landings = s.landings ∧
            t.endpoints = s.endpoints ∧
        (u.Writable c.part [(c.acc, u.churnSumOf c v)] → s.Stored t [(c.acc, u.churnSumOf c v)])) ∧
      (c.received + 1 = c.count → c.notice = none → c.notify = 0xFFFF →
        find? t.churns q = some { c with waiting := r, received := 0, round := (c.round + 1) % 2 ^ 32, notice := none } ∧
        t.fd (Rg.CHN_PORT_SEND_STATUS_RESULT c.part n) = 0 ∧ (t.sender c.part n).queue = [] ∧ t.landings = s.landings ∧
            t.endpoints = s.endpoints) := by
  refine ⟨_, rfl, ?_⟩
  have e1 : s.churnAdd q = ((((State.modChurn (u.devWrite c.part 1 c.acc (u.churnSumOf c v)).st q fun c => { c with received := c.received + 1 }).deliverRound q).sendDone
      c.part n 0).pump c.part n) := by
    unfold State.churnAdd
    rw [h.queue]
    dsimp only
    rw [h.waiting]
    dsimp only
    rw [if_neg (by have := h.room; omega), State.find_modChurn h.queue]
    unfold State.churnReads at hr
    rw [hr]
    rfl
  rw [e1]
  have k := State.sendRead_kept hr (i.of_eq rfl rfl rfl rfl rfl)
  obtain ⟨ku, k1, k2, k3, k4, k5, _⟩ := k
  have kw : u.Keeps 74450131340091398 (u.devWrite c.part 1 c.acc (u.churnSumOf c v)).st := State.devWrite_keeps (by decide) (.refl
      _) _ _ _ _ _
  have hm : u.Writable c.part [(c.acc, u.churnSumOf c v)] → s.Stored (u.devWrite c.part 1 c.acc (u.churnSumOf c v)).st [(c.acc,
      u.churnSumOf c v)] := by
    intro hw y
    have hb := hw.reached _ List.mem_cons_self
    rw [State.devWrite_mem hw.flips ku.mem hb.1 hb.2, k4]
    rfl
  generalize (u.devWrite c.part 1 c.acc (u.churnSumOf c v)).st = w at kw hm ⊢
  have wc : find? w.churns q = some { c with waiting := r } := by
    rw [kw.same .churns (by decide), k3]
    exact find?_ins_self' _ _ _
  have ws : w.sender c.part n = s.sender c.part n := by
    have := kw.same .chans (by decide) c.part
    have e : s.sender c.part n = u.sender c.part n := (k5 _ _).symm
    rw [e]
    unfold State.sender
    rw [this.1]
  rw [State.find_modChurn wc]
  have iw : ({ w with churns := ins w.churns q { c with waiting := r, received := c.received + 1 } } : State).Inv := (kw.inv ku).of_eq rfl rfl rfl rfl rfl
  have zf : find? ({ w with churns := ins w.churns q { c with waiting := r, received := c.received + 1 } } : State).churns q =
      some { c with waiting := r, received := c.received + 1 } := find?_ins_self' _ _ _
  have zq : (State.sender { w with churns := ins w.churns q { c with waiting := r, received := c.received + 1 } } c.part n).queue = [x] := by
    have : (State.sender { w with churns := ins w.churns q { c with waiting := r, received := c.received + 1 } } c.part n) = w.sender c.part n := rfl
    rw [this, ws]; exact h.sender
  have zl : ({ w with churns := ins w.churns q { c with waiting := r, received := c.received + 1 } } : State).landings = s.landings := (kw.same .landings (by decide)).trans k2
  have ze : ({ w with churns := ins w.churns q { c with waiting := r, received := c.received + 1 } } : State).endpoints = s.endpoints := (kw.same .endpoints (by decide)).trans k1
  have zm : ({ w with churns := ins w.churns q { c with waiting := r, received := c.received + 1 } } : State).mem = w.mem := rfl
  generalize ({ w with churns := ins w.churns q { c with waiting := r, received := c.received + 1 } } : State) = z at iw zf zq zl ze zm ⊢
  refine ⟨fun g => ?_, fun g g1 g2 => ?_⟩
  · have ed : z.deliverRound q = z := by
      unfold State.deliverRound
      rw [zf]
      dsimp only
      rw [if_pos (by simp [g])]
    rw [ed]
    have d := State.sendDone_shown iw zq h.task (c := 0) (Nat.le_of_ble_eq_true rfl)
    have pi : (z.sendDone c.part n 0).pump c.part n = z.sendDone c.part n 0 := State.pumpN_idle 9 d.queue
    rw [pi]
    exact ⟨by rw [d.churns]; exact zf, d.result, d.queue, d.landings.trans zl, d.endpoints.trans ze, fun hw y => by rw [d.memory, zm]; exact hm hw y⟩
  · have key : (z.deliverRound q).Inv ∧ ((z.deliverRound q).sender c.part n).queue = [x] ∧ (z.deliverRound q).landings =
        z.landings ∧
        (z.deliverRound q).endpoints = z.endpoints ∧
        find? (z.deliverRound q).churns q = some { c with waiting := r, received := 0, round := (c.round + 1) % 2 ^ 32, notice := none } := by
      unfold State.deliverRound
      rw [zf]
      dsimp only
      rw [if_neg (by simp [g, g1])]
      have ka : z.Keeps 74450131340091398 ((z.devWrite c.part 1 c.out (z.devRead c.part 0 c.acc (4 * c.elems)).data).st.devWrite
          c.part 1 c.acc
          (List.replicate (4 * c.elems) 0)).st := State.devWrite_keeps (by decide) (State.devWrite_keeps (by decide) (.refl _) _ _
              _ _ _) _ _ _ _ _
      generalize ((z.devWrite c.part 1 c.out (z.devRead c.part 0 c.acc (4 * c.elems)).data).st.devWrite c.part 1 c.acc
          (List.replicate (4 * c.elems) 0)).st = y at ka ⊢
      have yc : find? y.churns q = some { c with waiting := r, received := c.received + 1 } := by rw [ka.same .churns (by decide)]; exact zf
      have ys : y.sender c.part n = z.sender c.part n := by
        have := ka.same .chans (by decide) c.part
        unfold State.sender
        rw [this.1]
      rw [State.find_modChurn yc]
      dsimp only
      rw [if_pos g2]
      have bc := State.bump_churns { y with churns := ins y.churns q { c with waiting := r, received := 0, round := (c.round + 1) % 2 ^ 32, notice := none } }
        (Rg.CHN_WAIT_CHURN_ROUNDS c.part) 1
      have bi : (State.bump { y with churns := ins y.churns q { c with waiting := r, received := 0, round := (c.round + 1) % 2 ^ 32, notice := none } }
        (Rg.CHN_WAIT_CHURN_ROUNDS c.part)).Inv := State.bump_inv (State.Inv.of_eq (t := { y with churns := ins y.churns q { c with waiting := r, received := 0, round := (c.round + 1) % 2 ^ 32, notice := none } })
        (ka.inv iw) rfl rfl rfl rfl rfl) _ _
      have bl := State.bump_landings { y with churns := ins y.churns q { c with waiting := r, received := 0, round := (c.round + 1) % 2 ^ 32, notice := none } }
        (Rg.CHN_WAIT_CHURN_ROUNDS c.part) 1
      have be := State.bump_endpoints { y with churns := ins y.churns q { c with waiting := r, received := 0, round := (c.round + 1) % 2 ^ 32, notice := none } }
        (Rg.CHN_WAIT_CHURN_ROUNDS c.part) 1
      have bs : (State.bump { y with churns := ins y.churns q { c with waiting := r, received := 0, round := (c.round + 1) % 2 ^ 32, notice := none } }
        (Rg.CHN_WAIT_CHURN_ROUNDS c.part)).sender c.part n = y.sender c.part n := rfl
      dsimp only at bc bl be ⊢
      generalize (State.bump { y with churns := ins y.churns q { c with waiting := r, received := 0, round := (c.round + 1) % 2 ^ 32, notice := none } }
        (Rg.CHN_WAIT_CHURN_ROUNDS c.part)) = b at bc bi bl be bs ⊢
      have fb : find? b.churns q = some { c with waiting := r, received := 0, round := (c.round + 1) % 2 ^ 32, notice := none } := by rw [bc]; exact find?_ins_self' _ _ _
      have ep : b.placeNotice q = b := by unfold State.placeNotice; rw [fb]
      rw [ep]
      exact ⟨bi, by rw [bs, ys]; exact zq, bl.trans (ka.same .landings (by decide)), be.trans (ka.same .endpoints (by decide)), fb⟩
    obtain ⟨y0, y1, y2, y3, y4⟩ := key
    generalize z.deliverRound q = y at y0 y1 y2 y3 y4 ⊢
    have d := State.sendDone_shown y0 y1 h.task (c := 0) (Nat.le_of_ble_eq_true rfl)
    have pi : (y.sendDone c.part n 0).pump c.part n = y.sendDone c.part n 0 := State.pumpN_idle 9 d.queue
    rw [pi]
    exact ⟨by rw [d.churns]; exact y4, d.result, d.queue, d.landings.trans (y2.trans zl), d.endpoints.trans (y3.trans ze)⟩

theorem churnNoticePlace_spec (s : State) (i : s.Inv) (q : Nat) (c : Churn) (b : Bytes) (h : find? s.churns q = some c) (hn :
    c.notice = some b)
    (hc : c.received < c.count) :
    ∃ t, exec (.churnNoticePlace q) s = .next t ∧
      ((∀ e, find? s.endpoints c.notify = some e → e.closing = true ∨ e.part ≠ c.part) →
        find? t.churns q = some { c with notice := none } ∧ t.landings = s.landings ∧
        t.fd (Rg.CHN_EVENTS_DISCARDED c.part) = min (s.fd (Rg.CHN_EVENTS_DISCARDED c.part) + 1) 65535) ∧
      (∀ e, find? s.endpoints c.notify = some e → e.closing = false → e.part = c.part → ringFit e.size e.wtail e.head 32 = none →
          t = s) ∧
      (∀ e skip, find? s.endpoints c.notify = some e → e.closing = false → e.part = c.part → ringFit e.size e.wtail e.head 32 =
          some skip →
        find? t.churns q = some { c with notice := none } ∧
        (State.seqNext { s with churns := ins s.churns q { c with notice := none } } c.part managerPort c.notify).Lands t c.notify e
          ⟨c.notify, ⟨(e.wtail + skip) % 2 ^ 32, skip, (setField b 4 2 (s.seqOf c.part managerPort c.notify)).length, s.seqOf
              c.part managerPort c.notify, managerPort, false⟩,
            false, c.part, managerPort, none⟩ (e.ringBase + (e.wtail + skip) % 2 ^ 32 % e.size) (setField b 4 2 (s.seqOf c.part
                managerPort c.notify))) := by
  refine ⟨_, rfl, ?_⟩
  have im : ({ s with churns := ins s.churns q { c with notice := none } } : State).Inv := i.of_eq rfl rfl rfl rfl rfl
  have idle : ∀ v : State, find? v.churns q = some { c with notice := none } → v.deliverRound q = v := fun v hv => by
    unfold State.deliverRound
    rw [hv]
    dsimp only
    rw [if_pos (by simp [hc])]
  refine ⟨fun g => ?_, fun e he h1 h2 hf => ?_, fun e skip he h1 h2 hf => ?_⟩
  · have ep : s.placeNotice q = State.bump { s with churns := ins s.churns q { c with notice := none } } (Rg.CHN_EVENTS_DISCARDED c.part) := by
      unfold State.placeNotice
      rw [h]
      dsimp only
      rw [hn]
      dsimp only
      cases he : find? s.endpoints c.notify with
      | none => dsimp only; rw [State.find_modChurn h]
      | some e =>
        dsimp only
        rw [if_pos (by rcases g e he with g | g <;> simp [g]), State.find_modChurn h]
    rw [ep]
    have bc := State.bump_churns { s with churns := ins s.churns q { c with notice := none } } (Rg.CHN_EVENTS_DISCARDED c.part) 1
    have bl := State.bump_landings { s with churns := ins s.churns q { c with notice := none } } (Rg.CHN_EVENTS_DISCARDED c.part) 1
    have bf := State.fd_bump_self im (Rg.CHN_EVENTS_DISCARDED c.part) 1 (Nat.le_of_ble_eq_true rfl)
    generalize State.bump { s with churns := ins s.churns q { c with notice := none } } (Rg.CHN_EVENTS_DISCARDED c.part) = v at bc bl bf ⊢
    have fv : find? v.churns q = some { c with notice := none } := by rw [bc]; exact find?_ins_self' _ _ _
    rw [idle v fv]
    exact ⟨fv, bl, bf⟩
  · have ep : s.placeNotice q = s := by
      unfold State.placeNotice
      rw [h]
      dsimp only
      rw [hn]
      dsimp only
      rw [he]
      dsimp only
      rw [if_neg (by simp [h1, h2]), hf]
    rw [ep]
    unfold State.deliverRound
    rw [h]
    dsimp only
    rw [if_pos (by simp [hn])]
  · have q0 := State.seqNext_kept { s with churns := ins s.churns q { c with notice := none } } c.part managerPort c.notify
    have iq : (State.seqNext { s with churns := ins s.churns q { c with notice := none } } c.part managerPort c.notify).Inv := im.of_eq rfl rfl rfl rfl rfl
    have qc : (State.seqNext { s with churns := ins s.churns q { c with notice := none } } c.part managerPort c.notify).churns = ins s.churns q { c with notice := none } := rfl
    have qe : find? (State.seqNext { s with churns := ins s.churns q { c with notice := none } } c.part managerPort c.notify).endpoints c.notify = some e := by
      rw [q0.1]; exact he
    have ep : s.placeNotice q = (State.seqNext { s with churns := ins s.churns q { c with notice := none } } c.part managerPort c.notify).landRing c.notify e skip
        (setField b 4 2 (s.seqOf c.part managerPort c.notify)) (s.seqOf c.part managerPort c.notify) managerPort c.part
            managerPort none := by
      unfold State.placeNotice
      rw [h]
      dsimp only
      rw [hn]
      dsimp only
      rw [he]
      dsimp only
      rw [if_neg (by simp [h1, h2]), hf]
      dsimp only
      rw [State.find_modChurn h]
    rw [ep]
    generalize (State.seqNext { s with churns := ins s.churns q { c with notice := none } } c.part managerPort c.notify) = u at iq qc qe ⊢
    have g := State.landRing_shown iq qe skip (setField b 4 2 (s.seqOf c.part managerPort c.notify)) (s.seqOf c.part managerPort
        c.notify) managerPort c.part managerPort none
    have gc : (u.landRing c.notify e skip (setField b 4 2 (s.seqOf c.part managerPort c.notify)) (s.seqOf c.part managerPort
        c.notify) managerPort c.part managerPort none).churns =
        u.churns := (State.landRing_keeps (M := 92464530050899974) (by decide) (.refl u) _ _ _ _ _ _ _ _ _).same .churns (by decide)
    generalize (u.landRing c.notify e skip (setField b 4 2 (s.seqOf c.part managerPort c.notify)) (s.seqOf c.part managerPort
        c.notify) managerPort c.part managerPort none) = w at g gc ⊢
    have fw : find? w.churns q = some { c with notice := none } := by rw [gc, qc]; exact find?_ins_self' _ _ _
    rw [idle w fw]
    exact ⟨fw, g.1⟩

end Sys2Proof.Machine
end

