-- ==== Sys2Proof/Laws/EffXfer.lean ====
section
/-!
SUPPORT. What the port engines' tasks and cache exports do (13_coach_ports.md R423, R432 to R445).
-/
namespace Sys2Proof.Machine

theorem State.setTx_tx (s : State) (i : Nat) (x : TxFlow) : (s.setTx i (some x)).tx? i = some x := by
  unfold State.setTx State.tx?
  exact find?_ins_self _ _ _

theorem State.flowSend_tx {s : State} {i : Nat} {x : TxFlow} (h : s.tx? i = some x) (op : Nat) (ctr : Option Nat) (parts : List
    (Nat × Bytes)) :
    ∃ g, (s.flowSend i op ctr parts).tx? i = some g ∧ g.unacked.map (·.frame) = x.unacked.map (·.frame) ++ s.framesOf x op ctr
        parts := by
  unfold State.flowSend
  rw [h]
  dsimp only
  obtain ⟨g, h1, _, _, h2⟩ := State.pumpFlow_tx (State.setTx_tx s i { x with
    unacked := x.unacked ++ parts.zipIdx.map (fun y => (⟨⟨1, dataFlags y.2 parts.length ((x.nextPsn + y.2) % 2 ^ 32) ctr.isSome,
        x.part, x.dpart, s.devId,
      x.dev, x.job, x.flow, op, if y.2 + 1 == parts.length then ctr.getD 0 else 0, (x.nextPsn + y.2) % 2 ^ 32, y.1.1, y.1.2⟩, 0,
          s.rtoUs, 0, false, false⟩ : TxFrame))
    nextPsn := (x.nextPsn + parts.length) % 2 ^ 32, lastAt := s.now })
  refine ⟨g, h1, h2.trans ?_⟩
  dsimp only
  rw [List.map_append, List.map_map]
  rfl

theorem State.awaitFlow_shown {s : State} {n i : Nat} {x : TxFlow} {k : Task} (h : s.tx? i = some x) (hk : s.task? n = some k) :
    (∃ g, (s.awaitFlow n i).tx? i = some g ∧ g.unacked = x.unacked) ∧ (∃ m, (s.awaitFlow n i).task? n = some m ∧ m.status =
        k.status ∧ m.sub = k.sub) ∧
    (s.awaitFlow n i).mem = s.mem := by
  unfold State.awaitFlow State.modTx
  rw [h]
  dsimp only
  refine ⟨⟨_, State.setTx_tx s i _, rfl⟩, ?_, rfl⟩
  generalize hu : s.setTx i (some _) = u
  have hk' : u.task? n = some k := by rw [← hu]; exact hk
  refine ⟨_, State.task?_modTask hk' ?_, ?_, ?_⟩
  · intro k; split <;> rfl
  · split <;> rfl
  · split <;> rfl

/-- A message put on a flow for a task, which then has no more to do. -/
theorem State.send_over {u : State} {n i : Nat} {x : TxFlow} {m : Task} (hx : u.tx? i = some x) (hm : u.task? n = some m) (hs :
    m.status < stUncorr)
    (op : Nat) (ctr : Option Nat) (fr : List (Nat × Bytes)) :
    u.Carries (((u.flowSend i op ctr fr).awaitFlow n i).partDone n 0) i op ctr fr ∧
    (((u.flowSend i op ctr fr).awaitFlow n i).partDone n 0).PartOver n 0 m.status m.sub ∧
    (((u.flowSend i op ctr fr).awaitFlow n i).partDone n 0).mem = u.mem := by
  have kf : u.Keeps 536870912 (u.flowSend i op ctr fr) := State.flowSend_keeps (by decide) (.refl _) _ _ _ _
  obtain ⟨g, h1, h2⟩ := State.flowSend_tx hx op ctr fr
  obtain ⟨⟨g', a1, a2⟩, ⟨m', b1, b2, b3⟩, c1⟩ := State.awaitFlow_shown (n := n) h1 ((State.task?_same (kf.same .tasks (by decide))
      n).trans hm)
  generalize (u.flowSend i op ctr fr).awaitFlow n i = v at a1 b1 c1 ⊢
  have r := State.partDone_calm (i := 0) b1 (by rw [b2]; exact Nat.ne_of_lt hs)
  rw [b2, b3] at r
  refine ⟨⟨x, g', hx, ?_, ?_⟩, r.2, (r.1.same .mem (by decide)).trans (c1.trans (kf.same .mem (by decide)))⟩
  · unfold State.tx?
    rw [r.1.same .coach (by decide)]
    exact a1
  · rw [a2]; exact h2

theorem State.xferReady_task {s : State} {n op : Nat} {k : Task} {b : Bytes} (h : s.xferReady n op = some (k, b)) : s.task? n =
    some k ∧ k.id = n := by
  unfold State.xferReady at h
  split at h
  · cases h
  · rename_i k' b' hp
    dsimp only at h
    split at h
    · cases h
      unfold State.portTask at hp
      split at hp
      · cases hp
      · rename_i k'' hk
        split at hp
        · cases hg : s.graphOf k'' with
          | none => rw [hg] at hp; cases hp
          | some g => rw [hg] at hp; cases hp; exact ⟨hk, State.task?_id hk⟩
        · cases hp
    · cases h

theorem State.xferAct_task {s : State} {n : Nat} {k : Task} (h : s.task? n = some k) (b : Bytes) :
    ∃ m, (s.xferAct n b).task? n = some m ∧ m.status = k.status ∧ m.sub = k.sub ∧ m.stage = 1 ∧ m.localCtr = ctrOf (fieldAt b 35
        1) ∧
      m.rep = if bitOf (fieldAt b 1 1) 1 then k.rep.map fun r => (r.1, fieldAt b 40 2, r.2.2) else [] := by
  unfold State.xferAct
  dsimp only
  refine ⟨_, State.task?_modTask h ?_, rfl, rfl, rfl, rfl, rfl⟩
  intro _
  rfl

theorem xferWait_spec (s : State) (n : Nat) (k : Task) (b : Bytes) (h : s.XferWorks n 0 k b) :
    ∃ t, exec (.xferWait n) s = .next t ∧ t.PartOver n 0 k.status k.sub ∧ t.mem = s.mem ∧ t.coach = s.coach := by
  refine ⟨_, rfl, ?_⟩
  unfold State.xferWait
  rw [h.ready]
  dsimp only
  obtain ⟨m, m1, m2, m3, _⟩ := State.xferAct_task (State.xferReady_task h.ready).1 b
  have r := State.partDone_calm (i := 0) m1 (by rw [m2]; exact Nat.ne_of_lt h.status)
  rw [m2, m3] at r
  exact ⟨r.2, r.1.same .mem (by decide), r.1.same .coach (by decide)⟩

/-- What a transfer to a device does as its job flow allows: it waits for a flow context, it fails with UNIT_DISABLED, or its message
leaves. -/
theorem State.xferVia_shown {s : State} {k : Task} {b : Bytes} {n : Nat} (hid : k.id = n) (msg : State → Option (List (Nat ×
    Bytes)) × State) :
    (∀ u, s.jobFlow k.part (fieldAt b 4 2) (fieldAt b 6 1) = (.waits, u) → (0, n, 0) ∈ (s.xferVia k b msg).coach.opens ∧
        (s.xferVia k b msg).tasks = u.tasks) ∧
    (∀ u m, s.jobFlow k.part (fieldAt b 4 2) (fieldAt b 6 1) = (.disabled, u) → u.task? n = some m → m.status < stUncorr →
      (s.xferVia k b msg).PartOver n 0 (statusMax m.status stDisabled) m.sub) ∧
    (∀ u i fr v m x, s.jobFlow k.part (fieldAt b 4 2) (fieldAt b 6 1) = (.flow i, u) → msg (u.xferAct n b) = (some fr, v) →
        v.task? n = some m → m.status < stUncorr →
      v.tx? i = some x → v.XferSent (s.xferVia k b msg) n i b m fr) := by
  subst hid
  refine ⟨fun u h => ?_, fun u m h hm hs => ?_, fun u i fr v m x h hg hm hs hx => ?_⟩
  all_goals
    unfold State.xferVia
    dsimp only
    rw [h]
    dsimp only
  · unfold State.waitOpen
    split
    · rename_i g; exact ⟨by simpa using g, rfl⟩
    · exact ⟨by simp, rfl⟩
  · obtain ⟨m', m1, m2, m3, _⟩ := State.xferAct_task hm b
    have e := State.endWith_shown m1 (by rw [m2]; exact hs) (st := stDisabled) (by decide) 0
    rw [m2, m3] at e
    exact e.2
  · rw [hg]
    dsimp only
    have r := State.send_over hx hm hs 1 (ctrOf (fieldAt b 7 1)) fr
    exact ⟨r.1, r.2.1, r.2.2⟩

theorem xferWrite_spec (s : State) (n : Nat) (k : Task) (b : Bytes) (h : s.XferWorks n 1 k b) :
    ∃ t, exec (.xferWrite n) s = .next t ∧
      (∀ u, s.jobFlow k.part (fieldAt b 4 2) (fieldAt b 6 1) = (.waits, u) → (0, n, 0) ∈ t.coach.opens ∧ t.tasks = u.tasks) ∧
      (∀ u m, s.jobFlow k.part (fieldAt b 4 2) (fieldAt b 6 1) = (.disabled, u) → u.task? n = some m → m.status < stUncorr →
        t.PartOver n 0 (statusMax m.status stDisabled) m.sub) ∧
      (∀ u i bs v m x, s.jobFlow k.part (fieldAt b 4 2) (fieldAt b 6 1) = (.flow i, u) →
        (u.xferAct n b).portRead n k.part (fieldAt b 8 8) (fieldAt b 16 8) = (some bs, v) → v.task? n = some m → m.status <
            stUncorr → v.tx? i = some x →
        v.XferSent t n i b m (writeFrames (fieldAt b 24 8) bs)) := by
  refine ⟨_, rfl, ?_⟩
  have hk := State.xferReady_task h.ready
  unfold State.xferWrite
  rw [h.ready]
  dsimp only
  have r := State.xferVia_shown (s := s) (k := k) (b := b) hk.2 (fun s => match s.portRead n k.part (fieldAt b 8 8) (fieldAt b 16
      8) with
    | (none, s) => (none, s)
    | (some bs, s) => (some (writeFrames (fieldAt b 24 8) bs), s))
  refine ⟨r.1, r.2.1, fun u i bs v m x h1 h2 h3 h4 h5 => r.2.2 u i _ v m x h1 ?_ h3 h4 h5⟩
  rw [h2]

theorem xferShard_spec (s : State) (n : Nat) (k : Task) (b : Bytes) (h : s.XferWorks n 2 k b) (hd : ListHdr) (ps : List (Nat × Nat
    × Nat × Nat)) (u : State)
    (hp : s.ShardPages n k b hd ps u) :
    ∃ t, exec (.xferShard n) s = .next t ∧
      ((∃ x ∈ ps, (u.page x.2.2.2).exp = 15) → t = s) ∧
      ((∀ x ∈ ps, (u.page x.2.2.2).exp ≠ 15) →
        (∀ v, u.jobFlow k.part (fieldAt b 4 2) (fieldAt b 6 1) = (.waits, v) → (0, n, 0) ∈ t.coach.opens ∧ t.tasks = v.tasks) ∧
        (∀ v m, u.jobFlow k.part (fieldAt b 4 2) (fieldAt b 6 1) = (.disabled, v) → v.task? n = some m → m.status < stUncorr →
          t.PartOver n 0 (statusMax m.status stDisabled) m.sub) ∧
        (∀ v i fr w m x, u.jobFlow k.part (fieldAt b 4 2) (fieldAt b 6 1) = (.flow i, v) →
          (v.xferAct n b).shardMsg k hd (fieldAt b 12 2) (fieldAt b 24 8) ps = (some fr, w) → w.task? n = some m → m.status <
              stUncorr → w.tx? i = some x →
          w.XferSent t n i b m fr)) := by
  refine ⟨_, rfl, ?_⟩
  have hk := State.xferReady_task h.ready
  obtain ⟨v0, e1, e2⟩ := hp.header
  unfold State.xferShard
  rw [h.ready]
  dsimp only
  rw [if_neg (by simp [hp.own]), e1]
  dsimp only
  rw [if_neg (by have := hp.layer; omega), e2]
  dsimp only
  constructor
  · rintro ⟨x, hx, he⟩
    rw [if_pos (List.any_eq_true.2 ⟨x, hx, by simp [he]⟩)]
  · intro hn
    rw [if_neg (by rw [List.any_eq_true]; rintro ⟨x, hx, he⟩; exact hn x hx (by simpa using he))]
    exact State.xferVia_shown (s := u) (k := k) (b := b) hk.2 _

theorem State.enqueue_room {s : State} {p n : Nat} (x : Send) (h : (s.sender p n).queue.length < 8) : s.enqueue p n x = (s.queued
    p n x).pump p n := by
  unfold State.enqueue State.queued
  rw [if_neg (by omega)]

theorem State.xferChannel_shown {s : State} {n op : Nat} {k : Task} {b : Bytes} (h : s.xferReady n op = some (k, b)) :
    s.TaskSends (s.xferAct n b) (s.xferChannel n op) k.part (xferSend n op b) := by
  unfold State.xferChannel
  rw [h]
  dsimp only
  refine ⟨fun g => if_pos g, fun g => ?_⟩
  rw [if_neg (by omega)]
  exact State.enqueue_room _ g

theorem xferAppend_spec (s : State) (n : Nat) (k : Task) (b : Bytes) (h : s.XferWorks n 3 k b) :
    ∃ t, exec (.xferAppend n) s = .next t ∧ s.TaskSends (s.xferAct n b) t k.part (xferSend n 3 b) := ⟨_, rfl,
        State.xferChannel_shown h.ready⟩

theorem xferPutAt_spec (s : State) (n : Nat) (k : Task) (b : Bytes) (h : s.XferWorks n 4 k b) :
    ∃ t, exec (.xferPutAt n) s = .next t ∧ s.TaskSends (s.xferAct n b) t k.part (xferSend n 4 b) := ⟨_, rfl,
        State.xferChannel_shown h.ready⟩

theorem collContrib_spec (s : State) (n : Nat) (k : Task) (b : Bytes) (h : s.portTask n 6 = some (k, b)) (ho : fieldAt b 0 1 = 5)
    (hs : k.stage = 0) :
    ∃ t, exec (.collContrib n) s = .next t ∧
      s.TaskSends (s.modTask n fun k => { k with stage := 1 }) t k.part ⟨2, false, 0, fieldAt b 32 2, 0, fieldAt b 8 8, some n, none, false, false⟩ := by
  refine ⟨_, rfl, ?_⟩
  unfold State.collContrib
  rw [h]
  dsimp only
  refine ⟨fun g => if_pos (by simp [g]), fun g => ?_⟩
  rw [if_neg (by simp [ho, hs]; omega)]
  exact State.enqueue_room _ g

/-! ### Collectives -/

theorem State.portTask_task {s : State} {n kind : Nat} {k : Task} {b : Bytes} (h : s.portTask n kind = some (k, b)) : s.task? n =
    some k ∧ k.id = n := by
  unfold State.portTask at h
  split at h
  · cases h
  · rename_i k' hk
    split at h
    · cases hg : s.graphOf k' with
      | none => rw [hg] at h; cases h
      | some g => rw [hg] at h; cases h; exact ⟨hk, State.task?_id hk⟩
    · cases h

theorem State.collWrite_stored {s : State} (i : s.Inv) {p a : Nat} {bs : Bytes} (h : s.Writable p [(a, bs)]) : s.Stored
    (s.collWrite p a bs) [(a, bs)] := by
  have hb := h.reached _ List.mem_cons_self
  intro x
  show find unwritten (s.devWrite p 2 a bs).st.mem x = _
  rw [State.devWrite_mem h.flips i.mem hb.1 hb.2]
  rfl

theorem State.collective_goes {s : State} (i : s.Inv) {n op : Nat} {k : Task} {b : Bytes} {r : Nat} (h : s.CollWorks n op k b r) :
    s.CollGoes (s.collective n op) n k b r := by
  have hk := State.portTask_task h.block
  have e : s.collective n op = State.collRun n r b (s.collOf k.part b) (2 * ((s.collOf k.part b).steps r).length + 1) s := by
    unfold State.collective
    rw [h.block]
    dsimp only
    rw [if_neg (by simp [h.op]), h.rank]
  have one : State.collRun n r b (s.collOf k.part b) (2 * ((s.collOf k.part b).steps r).length + 1) s =
      match ((s.collOf k.part b).steps r)[k.stage]? with
      | none => (if fieldAt b 24 8 = 0 then s else s.collWrite k.part (fieldAt b 24 8) (collReport k r (s.collOf k.part
          b).n)).partDone n 0
      | some st =>
        if k.stage < k.rep.length then
          match s.collPost k b (s.collOf k.part b) r k.stage st with
          | (true, s') => State.collRun n r b (s.collOf k.part b) (2 * ((s.collOf k.part b).steps r).length) s'
          | (false, s') => s'
        else if k.waitSince.isSome then s
        else match s.collSends k b (s.collOf k.part b) k.stage st with
          | (false, s') => s'
          | (true, s') => State.collRun n r b (s.collOf k.part b) (2 * ((s.collOf k.part b).steps r).length)
            (s'.waitOn k.part (fieldAt b 2 1 + k.stage) n st.recvs.length) := by
    rw [State.collRun, hk.1] <;> rfl
  rw [e, one]
  refine ⟨fun st h1 h2 h3 => ?_, fun st u m h1 h2 h3 h4 h5 h6 h7 h8 => ?_, fun st u h1 h2 h3 h4 => ?_, fun h1 => ?_⟩
  · rw [h1]
    dsimp only
    rw [if_neg (by omega), if_pos h3]
  · rw [h1]
    dsimp only
    rw [if_neg (by omega), if_neg (by simp [h3]), h4]
    dsimp only
    have hl : ((s.collOf k.part b).steps r).length ≠ 0 := by
      intro g
      rw [List.length_eq_zero_iff.1 g] at h1
      cases h1
    obtain ⟨j, hj⟩ : ∃ j, 2 * ((s.collOf k.part b).steps r).length = j + 1 := ⟨2 * ((s.collOf k.part b).steps r).length - 1, by
        omega⟩
    rw [hj, State.collRun, h5]
    dsimp only
    rw [h6, h1]
    dsimp only
    rw [if_neg (by omega), if_pos h8]
  · rw [h1]
    dsimp only
    rw [if_neg (by omega), if_neg (by simp [h3]), h4]
  · rw [h1]
    dsimp only
    have kw : s.Keeps 74450131356868614 (if fieldAt b 24 8 = 0 then s else s.collWrite k.part (fieldAt b 24 8) (collReport k r
        (s.collOf k.part b).n)) := by
      split
      · exact .refl _
      · exact State.collWrite_keeps (by decide) (.refl _) _ _ _
    have mw : (fieldAt b 24 8 = 0 → (if fieldAt b 24 8 = 0 then s else s.collWrite k.part (fieldAt b 24 8) (collReport k r
        (s.collOf k.part b).n)).mem = s.mem) ∧
        (fieldAt b 24 8 ≠ 0 → s.Writable k.part [(fieldAt b 24 8, collReport k r (s.collOf k.part b).n)] →
        s.Stored (if fieldAt b 24 8 = 0 then s else s.collWrite k.part (fieldAt b 24 8) (collReport k r (s.collOf k.part b).n))
          [(fieldAt b 24 8, collReport k r (s.collOf k.part b).n)]) := by
      refine ⟨fun g => by rw [if_pos g], fun g w => ?_⟩
      rw [if_neg g]
      exact State.collWrite_stored i w
    generalize (if fieldAt b 24 8 = 0 then s else s.collWrite k.part (fieldAt b 24 8) (collReport k r (s.collOf k.part b).n)) = v
        at kw mw ⊢
    have d := State.partDone_calm (i := 0) ((State.task?_same (kw.same .tasks (by decide)) n).trans hk.1) (Nat.ne_of_lt h.status)
    have dm := d.1.same .mem (by decide)
    exact ⟨d.2, fun g => dm.trans (mw.1 g), fun g w x => by rw [dm]; exact mw.2 g w x⟩

theorem collReduceScatter_spec (s : State) (i : s.Inv) (n : Nat) (k : Task) (b : Bytes) (r : Nat) (h : s.CollWorks n 1 k b r) :
    ∃ t, exec (.collReduceScatter n) s = .next t ∧ s.CollGoes t n k b r := ⟨_, rfl, State.collective_goes i h⟩

theorem collAllGather_spec (s : State) (i : s.Inv) (n : Nat) (k : Task) (b : Bytes) (r : Nat) (h : s.CollWorks n 2 k b r) :
    ∃ t, exec (.collAllGather n) s = .next t ∧ s.CollGoes t n k b r := ⟨_, rfl, State.collective_goes i h⟩

theorem collAllReduce_spec (s : State) (i : s.Inv) (n : Nat) (k : Task) (b : Bytes) (r : Nat) (h : s.CollWorks n 3 k b r) :
    ∃ t, exec (.collAllReduce n) s = .next t ∧ s.CollGoes t n k b r := ⟨_, rfl, State.collective_goes i h⟩

theorem collBarrier_spec (s : State) (i : s.Inv) (n : Nat) (k : Task) (b : Bytes) (r : Nat) (h : s.CollWorks n 4 k b r) :
    ∃ t, exec (.collBarrier n) s = .next t ∧ s.CollGoes t n k b r := ⟨_, rfl, State.collective_goes i h⟩

/-! ### Exports -/

theorem State.exportStart_eq {s : State} {e : Nat} {y : Entry} (h : s.ExportWaits e y) : s.exportStart e =
    if ((y.dests.take y.nDests).any fun d => !s.routeValid (d % 8192)) = true then s.retire (s.ledgerOwner e) e stDisabled none
    else if y.cancelled then s.retire (s.ledgerOwner e) e stDropped none
    else if (decide (256 ≤ s.coach.exports.length) || s.coach.exportWait.any (fun w => w != e && s.coach.exportWait.head? == some
        w)) = true then
      if s.coach.exportWait.contains e then s
      else { s with coach := { s.coach with exportWait := s.coach.exportWait ++ [e] } }
    else if (s.exportRead e).lost then ((s.exportRead e).st.retire (s.ledgerOwner e) e stUncorr none).jobFault (s.ledgerOwner e)
        stUncorr
    else State.exportFlows (freeIdx (s.exportRead e).st.coach.exports) 5 (s.exportMade e) := by
  obtain ⟨rfl, h1, h2, h3⟩ := h
  unfold State.exportStart
  dsimp only
  rw [if_neg (by simp [h1, h2]), if_neg (by rw [h3]; decide)]
  rfl

theorem State.exportFlows_first {u v : State} {x i : Nat} {c : Export} {y : Entry} (hx : u.exp? x = some c) (hy : u.ent c.entry =
    y) (hf : c.flows = []) (n : Nat) :
    (∀ v, 0 < y.nDests → u.openFlow c.part (y.dests.getD 0 0 % 8192) (bitsOf (y.dests.getD 0 0) 13 4) 1 (some x) = (.waits, v) →
      State.exportFlows x (n + 1) u = v.waitOpen 1 x) ∧
    (y.nDests = 1 → u.openFlow c.part (y.dests.getD 0 0 % 8192) (bitsOf (y.dests.getD 0 0) 13 4) 1 (some x) = (.flow i, v) →
        v.exp? x = some c → v.ent c.entry = y →
      State.exportFlows x (n + 2) u = v.modExp x fun e => { e with flows := [i] }) := by
  constructor
  · intro v hd ho
    rw [State.exportFlows, hx]
    dsimp only
    rw [hy, hf]
    dsimp only [List.length_nil]
    rw [if_neg (by omega), ho]
  · intro hd ho hx' hy'
    rw [State.exportFlows, hx]
    dsimp only
    rw [hy, hf]
    dsimp only [List.length_nil]
    rw [if_neg (by omega), ho]
    dsimp only [List.nil_append]
    have e1 : v.modExp x (fun e => { e with flows := e.flows ++ [i] }) = v.modExp x fun e => { e with flows := [i] } := by
      unfold State.modExp
      rw [hx']
      dsimp only
      rw [hf]
      rfl
    rw [e1, State.exportFlows]
    have e2 : (v.modExp x fun e => { e with flows := [i] }).exp? x = some { c with flows := [i] } := by
      unfold State.modExp
      rw [hx']
      exact find?_ins_self _ _ _
    rw [e2]
    dsimp only
    have e3 : (v.modExp x fun e => { e with flows := [i] }).ent c.entry = v.ent c.entry := by
      unfold State.modExp
      rw [hx']
      rfl
    rw [e3, hy', if_pos (by simp [hd])]

theorem exportStart_spec (s : State) (e : Nat) (y : Entry) (h : s.ExportWaits e y) :
    ∃ t, exec (.exportStart e) s = .next t ∧
      (((y.dests.take y.nDests).any fun d => !s.routeValid (d % 8192)) = true → t = s.retire (s.ledgerOwner e) e stDisabled none) ∧
      (((y.dests.take y.nDests).any fun d => !s.routeValid (d % 8192)) = false → y.cancelled = true → t = s.retire (s.ledgerOwner
          e) e stDropped none) ∧
      (((y.dests.take y.nDests).any fun d => !s.routeValid (d % 8192)) = false → y.cancelled = false → 256 ≤
          s.coach.exports.length →
        e ∈ t.coach.exportWait ∧ t.coach.exports = s.coach.exports) ∧
      (((y.dests.take y.nDests).any fun d => !s.routeValid (d % 8192)) = false → y.cancelled = false → s.coach.exports.length <
          256 →
        (s.coach.exportWait.any fun w => w != e && s.coach.exportWait.head? == some w) = false → (s.exportRead e).lost = false →
            (s.exportMade e).ent e = y →
        (∀ v, 0 < y.nDests → (s.exportMade e).openFlow (s.ledgerOwner e) (y.dests.getD 0 0 % 8192) (bitsOf (y.dests.getD 0 0) 13
            4) 1
          (some (freeIdx (s.exportRead e).st.coach.exports)) = (.waits, v) → (1, freeIdx (s.exportRead e).st.coach.exports, 0) ∈
              t.coach.opens) ∧
        (∀ v i, y.nDests = 1 → (s.exportMade e).openFlow (s.ledgerOwner e) (y.dests.getD 0 0 % 8192) (bitsOf (y.dests.getD 0 0) 13
            4) 1
          (some (freeIdx (s.exportRead e).st.coach.exports)) = (.flow i, v) →
          v.exp? (freeIdx (s.exportRead e).st.coach.exports) = some ⟨e, s.ledgerOwner e, [], (s.exportRead e).slots, 0, [], none,
              false⟩ → v.ent e = y →
          t.exp? (freeIdx (s.exportRead e).st.coach.exports) = some ⟨e, s.ledgerOwner e, [i], (s.exportRead e).slots, 0, [], none,
              false⟩)) := by
  refine ⟨_, rfl, ?_⟩
  rw [State.exportStart_eq h]
  refine ⟨fun g => if_pos g, fun g1 g2 => ?_, fun g1 g2 g3 => ?_, fun g1 g2 g3 g4 g5 g6 => ?_⟩
  · rw [if_neg (by rw [g1]; decide), if_pos g2]
  · rw [if_neg (by rw [g1]; decide), if_neg (by rw [g2]; decide), if_pos (by simp [g3])]
    split
    · rename_i g; exact ⟨by simpa using g, rfl⟩
    · exact ⟨by simp, rfl⟩
  · rw [if_neg (by rw [g1]; decide), if_neg (by rw [g2]; decide), if_neg (by rw [g4]; simp; omega), if_neg (by rw [g5]; decide)]
    have hx : (s.exportMade e).exp? (freeIdx (s.exportRead e).st.coach.exports) = some ⟨e, s.ledgerOwner e, [], (s.exportRead
        e).slots, 0, [], none, false⟩ := by
      unfold State.exportMade State.exp?
      exact find?_ins_self _ _ _
    refine ⟨fun v hd ho => ?_, fun v i hd ho hv hy => ?_⟩
    · rw [(State.exportFlows_first (i := 0) (v := v) hx g6 rfl 4).1 v hd ho]
      unfold State.waitOpen
      split
      · rename_i g; simpa using g
      · simp
    · rw [(State.exportFlows_first hx g6 rfl 3).2 hd ho hv hy]
      unfold State.modExp
      rw [hv]
      exact find?_ins_self _ _ _

end Sys2Proof.Machine
end

