-- ==== Sys2Proof/WellFormed.lean ====
section
/-!
DEFINITION. When a command is well formed: every number it names the object by lies within the numbers the spec gives that kind of
object. A meaning does not rely on it: a command that names an object the device does not have finds its conditions unmet.
-/
namespace Sys2Proof

/-- A partition (00_scope.md R1; 02_fabric_image.md R67). -/
def partOk (p : Nat) : Bool := p < 12
/-- A control core (00 R1; 01_architecture.md R17). -/
def ctlOk (n : Nat) : Bool := n < 32
/-- A logical tensor core (01 R24). -/
def coreOk (c : Nat) : Bool := c < 256
/-- A physical tensor core (01 R23). -/
def physOk (c : Nat) : Bool := c < 272
/-- A physical cluster (01 R23). -/
def clusterOk (k : Nat) : Bool := k < 16
/-- A Coach port (13_coach_ports.md R418). -/
def portOk (n : Nat) : Bool := n < 8
/-- An LPDDR5X channel (00 R1; 09_memory.md R294). -/
def channelOk (n : Nat) : Bool := n < 64
/-- The tag of a resident graph (10_task_graphs.md R317). -/
def tagOk (t : Nat) : Bool := t < 16
/-- A byte, such as a message's TAG (14_larric_link.md R470), an endpoint ID or a terminus ID (18_module.md R568, R569). -/
def byteOk (t : Nat) : Bool := t < 256
/-- An entry of the page table (08_kv_pages.md R262). -/
def pageOk (i : Nat) : Bool := i < 16777216
/-- An entry of the request ledger (12_guest_ledger.md R375). -/
def entryOk (e : Nat) : Bool := e < 65536
/-- A channel endpoint (11_channels.md R352). -/
def endpointOk (h : Nat) : Bool := h < 4096
/-- A Churn queue (11 R352). -/
def churnOk (q : Nat) : Bool := q < 256
/-- A sending port of a partition (11 R354, R355). -/
def chanPortOk (n : Nat) : Bool := n < 256
/-- A select group (11 R360). -/
def groupOk (g : Nat) : Bool := g < 64
/-- An adapter slot (12 R415). -/
def slotOk (s : Nat) : Bool := s < 4096
/-- The PART of a Larric message: a partition, or 15 for the device (14 R470). -/
def ownerOk (p : Nat) : Bool := partOk p || p == 15
/-- The PART of ATTEST: a partition, or 15 for the device (15_boot_security.md R501, R509). -/
def attestOk (p : Nat) : Bool := partOk p || p == 15
/-- WHICH of COMMIT_SVN (15 R497). -/
def counterOk (w : Nat) : Bool := w ≤ 1
/-- The reset type of an SRST call: shutdown, cold reboot, warm reboot (15 R505). -/
def srstOk (k : Nat) : Bool := k ≤ 2
/-- An internal link of a tensor core (05_core_streaming.md R169). -/
def linkOk (l : Nat) : Bool := l ≤ 5
/-- A presence input: cages 0 to 7, the Larric connector 8 (17_faults_reset.md R549). -/
def presenceOk (i : Nat) : Bool := i ≤ 8
/-- A segment of the light bar (17 R545). -/
def segmentOk (i : Nat) : Bool := i < 8
/-- An interrupt source (14 R478). -/
def sourceOk (i : Nat) : Bool := i < 64
/-- A flit has 256 bytes (14 R464). -/
def flitOk (f : Bytes) : Bool := f.length == 256
/-- One credit count for each of the four virtual channels (14 R468). -/
def creditsOk (l : List Nat) : Bool := l.length == 4
/-- The data of a message, which crosses no 4 KiB boundary (14 R470). -/
def msgOk (d : Bytes) : Bool := d.length ≤ 4096
/-- A PLDM type, or the MCTP base (18 R569). -/
def pldmTypeOk (t : Nat) : Bool := t < 64

/-- A cell of an array: core, array, row, column (04_tensor_arrays.md R115, R118). -/
def ArrayCell.ok (x : ArrayCell) : Bool := physOk x.core && x.arr < 4 && x.row < 34 && x.col < 34

/-- What a boot finds (15 R486): channels, cells, straps and cages within their ranges. -/
def BootIn.ok (b : BootIn) : Bool :=
  b.badChannels.all channelOk && b.cells.all ArrayCell.ok && b.addr < 8 && b.cages < 256

/-- What a power loop measures: one mean power for each partition, one temperature for each cluster (16_power_time.md R513, R520). -/
def PowerIn.ok (m : PowerIn) : Bool := m.chargeMw.length ≤ 12 && m.hottest.length ≤ 16

/-- A unit that drains (17 R537). -/
def DrainUnit.ok : DrainUnit → Bool
  | .halt p => partOk p
  | .graph p tag => partOk p && tagOk tag
  | .core c => physOk c
  | .skimmer k => clusterOk k
  | .endpoint h => endpointOk h

/-- An Ethernet frame: 48-bit addresses, a 16-bit EtherType (13 R420). -/
def WireFrame.ok (w : WireFrame) : Bool := w.dstMac < 2 ^ 48 && w.srcMac < 2 ^ 48 && w.etherType < 65536

/-- Who reads or writes a register. -/
def Actor.ok : Actor → Bool
  | .core n => ctlOk n
  | _ => true

/-- Whether a command is well formed. -/
def Instr.wf : Instr → Bool
  | .coldReset => true
  | .moduleReset _ => true
  | .powerGood _ => true
  | .moduleResetRelease b => b.ok
  | .deviceWarmReset b => b.ok
  | .partitionReset p cells => partOk p && cells.all ArrayCell.ok
  | .partitionResetComplete p => partOk p
  | .fltResetDeviceWarm => true
  | .fltResetPartition p => partOk p
  | .fltResetCore c cells => physOk c && cells.all ArrayCell.ok
  | .powerFail _ _ => true
  | .sagDetect _ _ => true
  | .sagClear _ _ => true
  | .currentSlowBegin _ => true
  | .currentSlowEnd _ => true
  | .droopAssert _ => true
  | .droopClear _ _ => true
  | .thermtrip k _ => clusterOk k
  | .refLost _ => true
  | .ppsEdge _ _ => true
  | .powerLoop m => m.ok
  | .coreDrainedOff c => physOk c
  | .coreRampOnStart c => physOk c
  | .coreOn c => physOk c
  | .pwrCapSetWrite _ => true
  | .devTimeSetWrite _ => true
  | .ccWdogExpiry n => ctlOk n
  | .ctlWdogExpiry _ => true
  | .ringWdogExpiry _ => true
  | .drainTimeout u => u.ok
  | .spillWaitTimeout p => partOk p
  | .pinWaitTimeout _ page => pageOk page
  | .ikWdogExpiry n => ctlOk n
  | .repairApply => true
  | .fltLogPop => true
  | .memLogPop => true
  | .keyTouch => true
  | .keyHoldSegment i => segmentOk i
  | .keyRelease => true
  | .keyForceStopHold => true
  | .svcQuiesce => true
  | .svcResume => true
  | .svcForceStop => true
  | .quiesceSettled => true
  | .quiesceTimeout => true
  | .forceStopComplete => true
  | .faultPatternExpiry p => partOk p
  | .presenceChange i _ => presenceOk i
  | .imgErase => true
  | .imgWrite => true
  | .imgCommit => true
  | .imgActivate => true
  | .imgReload p => partOk p
  | .fwErase => true
  | .fwWrite => true
  | .fwCommit => true
  | .fwActivate => true
  | .commitSvn which => counterOk which
  | .fuseOwner => true
  | .attest part => attestOk part
  | .idcert => true
  | .partStart p => partOk p
  | .sbiInfo n => ctlOk n
  | .sbiReload n _ _ => ctlOk n
  | .sbiReloadStatus n => ctlOk n
  | .sbiAttest n _ _ => ctlOk n
  | .sbiFaultInfo n => ctlOk n
  | .sbiJobFault n _ => ctlOk n
  | .sbiSrst n kind => ctlOk n && srstOk kind
  | .sbiHsmHartStart n target _ _ => ctlOk n && ctlOk target
  | .cciWdogPet n => ctlOk n
  | .dspLoad p => partOk p
  | .dspUnload p tag => partOk p && tagOk tag
  | .dspRun p tag => partOk p && tagOk tag
  | .ledgerStepTrigger p tag => partOk p && tagOk tag
  | .taskIssue => true
  | .arraysFinish c => coreOk c
  | .linkBufferHandover c link _ => coreOk c && linkOk link
  | .gemmTask _ _ => true
  | .attnForward _ _ => true
  | .attnBackward _ _ => true
  | .attnVerify _ => true
  | .vecTask _ => true
  | .copyTask _ => true
  | .skimEncode _ => true
  | .skimDecode _ => true
  | .skimCheck24 _ => true
  | .xferWait _ => true
  | .xferWrite _ => true
  | .xferShard _ => true
  | .xferAppend _ => true
  | .xferPutAt _ => true
  | .collReduceScatter _ => true
  | .collAllGather _ => true
  | .collAllReduce _ => true
  | .collBarrier _ => true
  | .collContrib _ => true
  | .taskComplete _ => true
  | .cringHeadWrite p _ => partOk p
  | .cbHeadWrite p _ => partOk p
  | .ctlDone p _ => partOk p
  | .poolRecompute p => partOk p
  | .arrayRampDown c => coreOk c
  | .mcastBlockRead _ => true
  | .skimmerTileServe k => clusterOk k
  | .skmDisableWrite k _ => clusterOk k
  | .pageWalk _ _ entry _ _ _ _ => entryOk entry
  | .pinWaitResume _ page => pageOk page
  | .pageRef p page => partOk p && pageOk page
  | .pageUnref p page => partOk p && pageOk page
  | .pageRead p page => partOk p && pageOk page
  | .pageLowWrite p _ => partOk p
  | .memSlotGrant n => channelOk n
  | .repairWrite => true
  | .scrubRead => true
  | .writeQueueResume n => channelOk n
  | .chnOpen p => partOk p
  | .chnClose p handle churn => partOk p && (if churn then churnOk handle else endpointOk handle)
  | .endpointFree h => endpointOk h
  | .chnAppend p port _ => partOk p && chanPortOk port
  | .chnPutAt p port _ => partOk p && chanPortOk port
  | .chnContrib p port _ => partOk p && chanPortOk port
  | .sendCreditResume p port => partOk p && chanPortOk port
  | .sendSpill p port => partOk p && chanPortOk port
  | .messageLand h => endpointOk h
  | .selNext p g => partOk p && groupOk g
  | .selDone p g _ => partOk p && groupOk g
  | .epHeadWrite p _ => partOk p
  | .churnAdd q => churnOk q
  | .churnNoticePlace q => churnOk q
  | .ldgSqTailWrite p _ => partOk p
  | .submit p => partOk p
  | .cancel p => partOk p
  | .extend p => partOk p
  | .pause p => partOk p
  | .resume p => partOk p
  | .release p => partOk p
  | .finish p => partOk p
  | .ldgRqHeadWrite p _ => partOk p
  | .ldgEntryRead p e => partOk p && entryOk e
  | .gatePass e => entryOk e
  | .batchWindowExpiry p tag => partOk p && tagOk tag
  | .batchDeadlineClose p tag => partOk p && tagOk tag
  | .budgetEnter p => partOk p
  | .budgetLeave p => partOk p
  | .pressureBegin p => partOk p
  | .pressureEnd p => partOk p
  | .deadlinePass e => entryOk e
  | .stepSettle p tag => partOk p && tagOk tag
  | .exportStart e => entryOk e
  | .adpBind p slot _ => partOk p && slotOk slot
  | .adpUnbind p slot => partOk p && slotOk slot
  | .adpPublish p slot => partOk p && slotOk slot
  | .adpAreaWrite p _ => partOk p
  | .dataFrameReceive n w => portOk n && w.ok
  | .ackReceive n w => portOk n && w.ok
  | .helloRequestReceive n w => portOk n && w.ok
  | .helloReplyReceive n w => portOk n && w.ok
  | .abortReceive n w => portOk n && w.ok
  | .frameTransmit n => portOk n
  | .rtoExpiry _ _ => true
  | .helloResendExpiry _ => true
  | .ackDelayExpiry _ => true
  | .flowIdleExpiry _ _ => true
  | .flowOpenResume => true
  | .abortResend => true
  | .portDetect n _ => portOk n
  | .portTrained n => portOk n
  | .portTrainFail n => portOk n
  | .portFailedRetry n => portOk n
  | .portEnableWrite n _ => portOk n
  | .portLinkLoss n _ => portOk n
  | .linkDetect => true
  | .linkPartnerSeen _ => true
  | .linkLanesLock _ => true
  | .linkTrainTimeout => true
  | .linkConfigDone credits => creditsOk credits
  | .linkRetrainRelock _ => true
  | .linkRetrainTimeout => true
  | .flitReceive flit => flitOk flit
  | .flitTransmit => true
  | .replayTimerExpiry => true
  | .regRd _ _ tag part => byteOk tag && ownerOk part
  | .regWr _ _ tag part _ => byteOk tag && ownerOk part
  | .doorbell _ _ => true
  | .hostMemRd part _ _ tag => ownerOk part && byteOk tag
  | .hostMemWr part _ data => ownerOk part && msgOk data
  | .memCplReceive tag _ data => byteOk tag && msgOk data
  | .cplTimeout tag => byteOk tag
  | .intr i => sourceOk i
  | .lrlIrqRearmWrite _ => true
  | .setEndpointId _ eid => byteOk eid
  | .getEndpointId => true
  | .getEndpointUuid => true
  | .getMctpVersionSupport => true
  | .getMessageTypeSupport => true
  | .i3cDynamicAddress _ => true
  | .getTid => true
  | .setTid tid => byteOk tid
  | .getPldmVersion type => pldmTypeOk type
  | .getPldmTypes => true
  | .getPldmCommands type => pldmTypeOk type
  | .getPdrRepositoryInfo => true
  | .getPdr _ => true
  | .getSensorReading _ => true
  | .getStateSensorReadings _ => true
  | .getNumericEffecterValue _ => true
  | .setNumericEffecterValue _ _ => true
  | .setStateEffecterStates _ _ => true
  | .setEventReceiver _ _ => true
  | .getFruRecordTableMetadata => true
  | .getFruRecordTable => true
  | .sensorUpdate => true
  | .registerWrite a _ _ => a.ok
  | .rcCounterRead a _ => a.ok
  | .hartStop n => ctlOk n
  | .portSignalLoss n => portOk n

end Sys2Proof
end

