-- ==== Sys2Proof/Tests/Slice0.lean ====
section
/-!
SUPPORT. The author's own tests: each well-formedness check refuses an ill-formed command and takes the last well-formed one, and
worked examples of the spec.
-/
namespace Sys2Proof.Machine

/-! ### Well-formedness: each check at its boundary -/

theorem test_wf_part : (Instr.partStart 11).wf = true ∧ (Instr.partStart 12).wf = false := by decide
theorem test_wf_ctl : (Instr.sbiInfo 31).wf = true ∧ (Instr.sbiInfo 32).wf = false := by decide
theorem test_wf_core : (Instr.arraysFinish 255).wf = true ∧ (Instr.arraysFinish 256).wf = false := by decide
theorem test_wf_phys : (Instr.coreOn 271).wf = true ∧ (Instr.coreOn 272).wf = false := by decide
theorem test_wf_cluster : (Instr.thermtrip 15 108).wf = true ∧ (Instr.thermtrip 16 108).wf = false := by decide
theorem test_wf_port : (Instr.frameTransmit 7).wf = true ∧ (Instr.frameTransmit 8).wf = false := by decide
theorem test_wf_channel : (Instr.memSlotGrant 63).wf = true ∧ (Instr.memSlotGrant 64).wf = false := by decide
theorem test_wf_tag : (Instr.dspRun 0 15).wf = true ∧ (Instr.dspRun 0 16).wf = false := by decide
theorem test_wf_byte : (Instr.cplTimeout 255).wf = true ∧ (Instr.cplTimeout 256).wf = false := by decide
theorem test_wf_page : (Instr.pageRef 0 16777215).wf = true ∧ (Instr.pageRef 0 16777216).wf = false := by decide
theorem test_wf_entry : (Instr.gatePass 65535).wf = true ∧ (Instr.gatePass 65536).wf = false := by decide
theorem test_wf_endpoint : (Instr.messageLand 4095).wf = true ∧ (Instr.messageLand 4096).wf = false := by decide
theorem test_wf_churn : (Instr.churnAdd 255).wf = true ∧ (Instr.churnAdd 256).wf = false := by decide
theorem test_wf_chanPort : (Instr.sendSpill 0 255).wf = true ∧ (Instr.sendSpill 0 256).wf = false := by decide
theorem test_wf_group : (Instr.selNext 0 63).wf = true ∧ (Instr.selNext 0 64).wf = false := by decide
theorem test_wf_slot : (Instr.adpUnbind 0 4095).wf = true ∧ (Instr.adpUnbind 0 4096).wf = false := by decide
theorem test_wf_owner : (Instr.hostMemRd 15 0 8 0).wf = true ∧ (Instr.hostMemRd 12 0 8 0).wf = false := by decide
theorem test_wf_attest : (Instr.attest 15).wf = true ∧ (Instr.attest 14).wf = false := by decide
theorem test_wf_counter : (Instr.commitSvn 1).wf = true ∧ (Instr.commitSvn 2).wf = false := by decide
theorem test_wf_srst : (Instr.sbiSrst 0 2).wf = true ∧ (Instr.sbiSrst 0 3).wf = false := by decide
theorem test_wf_link : (Instr.linkBufferHandover 0 5 true).wf = true ∧ (Instr.linkBufferHandover 0 6 true).wf = false := by decide
theorem test_wf_presence : (Instr.presenceChange 8 true).wf = true ∧ (Instr.presenceChange 9 true).wf = false := by decide
theorem test_wf_segment : (Instr.keyHoldSegment 7).wf = true ∧ (Instr.keyHoldSegment 8).wf = false := by decide
theorem test_wf_source : (Instr.intr 63).wf = true ∧ (Instr.intr 64).wf = false := by decide
theorem test_wf_flit : (Instr.flitReceive (List.replicate 256 0)).wf = true ∧ (Instr.flitReceive [0]).wf = false := by decide +kernel
theorem test_wf_credits : (Instr.linkConfigDone [8, 8, 8, 8]).wf = true ∧ (Instr.linkConfigDone [8, 8, 8]).wf = false := by decide
theorem test_wf_msg : msgOk (List.replicate 4096 0) = true ∧ msgOk (List.replicate 4097 0) = false := by
  unfold msgOk; rw [List.length_replicate, List.length_replicate]; decide
theorem test_wf_pldmType : (Instr.getPldmVersion 63).wf = true ∧ (Instr.getPldmVersion 64).wf = false := by decide
theorem test_wf_cell : (Instr.partitionReset 0 [⟨271, 3, 33, 33⟩]).wf = true ∧ (Instr.partitionReset 0 [⟨0, 4, 0, 0⟩]).wf = false := by decide
theorem test_wf_boot : (Instr.moduleResetRelease ⟨true, [63], [], true, true, false, 7, 255, true, none⟩).wf = true ∧
    (Instr.moduleResetRelease ⟨true, [], [], true, true, false, 8, 0, true, none⟩).wf = false := by decide
theorem test_wf_powerIn : (Instr.powerLoop ⟨52000, 100, 1, 10, 5, 5, [], []⟩).wf = true ∧
    (Instr.powerLoop ⟨52000, 100, 1, 10, 5, 5, List.replicate 13 0, []⟩).wf = false := by decide
theorem test_wf_drain : (Instr.drainTimeout (.core 271)).wf = true ∧ (Instr.drainTimeout (.skimmer 16)).wf = false := by decide
theorem test_wf_frame : (Instr.dataFrameReceive 0 ⟨0, 0, 0, 0x88B5, true, []⟩).wf = true ∧
    (Instr.dataFrameReceive 0 ⟨0, 0, 0, 65536, true, []⟩).wf = false := by decide
theorem test_wf_actor : (Instr.registerWrite (.core 31) ⟨0, 8⟩ 0).wf = true ∧ (Instr.registerWrite (.core 32) ⟨0, 8⟩ 0).wf = false := by decide

/-! ### The queue, and words (no row of the table has bits) -/

theorem test_no_word_spells_a_command : decodeTableWord 32 0x12345678 = none := by decide
theorem test_fetch_word_keeps_state : (State.reset.withFetchWord 8 0).pending = [] := by decide

/-! ### Worked examples of the spec -/

/-- 13_coach_ports.md R422 with 08_kv_pages.md R278: the check value of CRC-32C. -/
theorem test_crc32c_check : crc32c ([0x31, 0x32, 0x33, 0x34, 0x35, 0x36, 0x37, 0x38, 0x39] : Bytes) = 0xE3069283 := by decide +kernel
/-- 03_number_formats.md R97: amax 3.7 gives the scale 0x78; 3.7 is 0x406CCCCD, 0.05 is 0x3D4CCCCD in FP32. -/
theorem test_derived_scale : deriveBlock 2 [num32 0x406CCCCD, num32 0x3D4CCCCD] = (0x78, [0x7E, 0x4D], ⟨0, 1, 0, 0⟩) := by decide +kernel
/-- 03 R87: 448 and beyond saturate to 0x7E in E4M3; -infinity converts to 0xFE. -/
theorem test_e4m3_saturates : (e4m3.encode (.ofInt 1000)).1 = 0x7E ∧ (e4m3.encode (.inf true)).1 = 0xFE := by decide +kernel
/-- 03 R88: 61,440 overflows to infinity in E5M2 and 61,439 rounds to 57,344. -/
theorem test_e5m2_overflows : (e5m2.encode (.ofInt 61440)).1 = 0x7C ∧ (e5m2.encode (.ofInt 61439)).1 = 0x7B := by decide +kernel
/-- 12_guest_ledger.md R386: bucket 0 holds lengths below 256, bucket 1 from 256, bucket 15 the largest. -/
theorem test_buckets : bucketOf 255 = 0 ∧ bucketOf 256 = 1 ∧ bucketOf 4194304 = 15 := by decide +kernel
/-- 13_coach_ports.md R418: the address of port 3 of device 5 is 02-53-57-00-00-2B. -/
theorem test_mac : macOf 5 3 = 0x02535700002B := by decide

end Sys2Proof.Machine

namespace Sys2Proof.Tests
open Sys2Proof Sys2Proof.Machine
set_option Elab.async false

/-! ### States that meet the hypotheses of the statements -/

/-- Registers set to values. -/
def lit (rs : List (RF × Nat)) (s : State) : State := rs.foldl (fun s r => s.setF r.1 r.2) s
/-- Settings of a partition with core 0, control cores 0 and 1, region 0 and small quotas. -/
def someCfg : Cfg := ⟨mkRec 512 [(8, 1, 1), (40, 4, 3), (48, 1, 1), (116, 4, 4), (120, 4, 16), (124, 2, 16), (126, 2, 8), (128, 2, 4),
  (130, 2, 2), (132, 2, 2), (164, 2, 1), (166, 2, 1)], none, some (mkRec 64 [(2, 2, 2), (12, 2, 1)])⟩
/-- The module running with partition 0 defined, its record changed by `f`. -/
def of0 (rs : List (RF × Nat)) (f : Part → Part) : State :=
  lit rs { State.reset with
    phase := .running
    parts := [(0, f { Part.init with cfg := some someCfg, ledN := 4, pageN := 16 })]
    cores := [(0, { Core.init with power := 2 })] }
/-- The same with the record as it is. -/
def at0 (rs : List (RF × Nat)) : State := of0 rs id
/-- The Larric link up. -/
def linked (rs : List (RF × Nat)) : State := lit rs (at0 [(Rg.LRL_STATUS_STATE, 4)])
/-- The firmware loaded. -/
def booted (rs : List (RF × Nat)) : State := { at0 rs with bundle := some ⟨1, 1, 1, 1, 1, 1, 1, []⟩ }
/-- Control core 0 running. -/
def calling (rs : List (RF × Nat)) : State := { at0 rs with ctl := [(0, { CtlCore.init with running := true })] }
/-- The key touched. -/
def touched (rs : List (RF × Nat)) : State := { at0 rs with service := { State.reset.service with touch := some 0 } }
/-- A task of one part in a slot. -/
def aTask (kind slot : Nat) : Task :=
  ⟨1, 0, 0, 0, 1, kind, false, 0, 1, [⟨0, if slot = 5 then none else some 0, slot, false⟩], false, 0, 0, [], [], [], [], [], none, 0,
    [], [], none, [], 0⟩
/-- A step triggered by the ledger. -/
def stepRun : StepRun := ⟨1, 1, 0, 0, 0, 0, [], 0, none, false⟩
/-- A graph of descriptors `ds` in that step. -/
def graph (ds : List Bytes) : Graph := ⟨mkRec 64 [(8, 2, ds.length)], ds, [], 1, false, none, some stepRun⟩
/-- That task in flight. -/
def tasking (k : Task) : State :=
  { of0 [] fun q => { q with graphs := [(0, graph [[]])] } with tasks := [k] }
/-- Task 1 at work on a descriptor. -/
def working (kind : Nat) (d : Bytes) : State :=
  { of0 [] fun q => { q with graphs := [(0, graph [d])] } with tasks := [aTask kind 2] }
/-- A task's APPEND that waits for credit. -/
def taskSend : Send := ⟨0, false, 1, 4, 0, 0, some 1, some 0, false, true⟩
/-- An open endpoint of partition 0. -/
def endpoint : Endpoint := ⟨false, 0, 0, 0, 0, 0, 64, 0, 0, 0, 0, [], 0⟩
/-- A message landing there. -/
def landing : Landing := ⟨4, ⟨0, 0, 32, 0, 0, false⟩, false, 0, 32, none⟩

theorem inv_of {s : State} (h : Canon regReset s.regs ∧ Canon (fun _ => (0 : Byte)) s.mem ∧ Canon (fun _ => (0 : Byte)) s.hostMem ∧
    s.fltLog.length ≤ 256 ∧ s.memLog.length ≤ 64) : s.Inv := ⟨h.1, h.2.1, h.2.2.1, h.2.2.2.1, h.2.2.2.2⟩

theorem some_get {α β : Type} {x : Option α × β} (h : x.1.isSome = true) : x = (some (x.1.get h), x.2) := by
  obtain ⟨o, b⟩ := x; cases o <;> simp_all

theorem some_of {α β : Type} {x : Option α × β} {a : α} (h : x.1 = some a) : x = (some a, x.2) := by rw [← h]
theorem fst_of {α β : Type} {x : α × β} {a : α} (h : x.1 = a) : x = (a, x.2) := by rw [← h]
theorem pair3 {α β γ : Type} (x : α × β × γ) : x = (x.1, x.2.1, x.2.2) := rfl

theorem ok_of {ε α β : Type} {x : Except ε α × β} {a : α} (h : x.1.toOption = some a) : x = (.ok a, x.2) := by
  obtain ⟨e, b⟩ := x; cases e <;> simp_all [Except.toOption]
theorem ecSign_length (d k : Nat) (e : Bytes) : (ecSign d k e).length = 132 := by
  unfold ecSign
  split <;> simp [toBe, toLe_length]
theorem attReport_length (nonce : Bytes) :
    ((linked [(Rg.SEC_XFER_HOST_ADDR, windowBase)]).attReport (if 15 = 15 then 0xFF else 15) nonce).length = 516 := by
  have a : (linked [(Rg.SEC_XFER_HOST_ADDR, windowBase)]).bundle = none := by decide +kernel
  have b : (linked [(Rg.SEC_XFER_HOST_ADDR, windowBase)]).loaded = none := by decide +kernel
  have c : ((linked [(Rg.SEC_XFER_HOST_ADDR, windowBase)]).part 255).reloadKey = none := by decide +kernel
  rw [if_pos rfl]
  generalize linked [(Rg.SEC_XFER_HOST_ADDR, windowBase)] = s at a b c
  simp only [State.attReport, List.length_append, ecSign_length, a, b, c]
  rw [mkRec_length _ _ rfl]
  simp

/-- Bytes in device memory. -/
def withMem (a : Nat) (bs : Bytes) (s : State) : State := { s with mem := putBytes s.mem a bs }
/-- A task of a port engine that has waited since the time 0. -/
def waiting (kind : Nat) : Task := { aTask kind 5 with waitSince := some 0 }
/-- The block that the descriptor of task 1 names. -/
def blockOf (s : State) (kind : Nat) : Bytes := ((s.portTask 1 kind).map (·.2)).getD []
/-- An XFER that waits for a ring, with its block. -/
def ringed : State := withMem 0 [0, 2] (tasking (waiting 5))
/-- An XFER of an operation, with its block. -/
def xfering (op : Nat) : State := withMem 0 (mkRec 64 [(0, 1, op)]) (tasking (aTask 5 5))
/-- An XFER WAIT whose wait has ended. -/
def xferWaited : State := tasking { aTask 5 5 with rep := [(0, 0, 0, 0)] }
/-- A COLL of an operation, with its block. -/
def colling (op : Nat) : State := withMem 0 (mkRec 64 [(0, 1, op)]) (tasking (aTask 6 5))
/-- A barrier that waits. -/
def collWaiting : State := withMem 0 (mkRec 64 [(0, 1, 4)]) (tasking (waiting 6))
/-- A COPY of one line. -/
def copyDesc : Bytes := mkRec 128 [(0, 1, 4), (48, 4, 1), (52, 4, 32), (40, 8, 4096)]
/-- That COPY ready. -/
def issuing : State := of0 [] fun q => { q with graphs := [(0, graph [copyDesc])], poolT := 1 }
/-- Ledger entry 0 in the state that operation `op` accepts, and that operation's record next in the submission ring. -/
def ledState (op : Nat) : Nat := if op = 1 then 0 else if op = 6 then 7 else if op = 5 ∨ op = 7 then 4 else 2
/-- The record. -/
def recOp (op : Nat) : Bytes := mkRec 128 [(0, 1, op), (28, 4, 64)]
/-- Both in place. -/
def ledgered (op : Nat) : State :=
  { withMem 0 (recOp op) (at0 [(Rg.LDG_SQ_TAIL_TAIL 0, 1)]) with
    ledger := [(0, { Entry.free with state := ledState op, marks := if op = 7 then 16 else 0, deadline := 5, pageList := 4096 })] }
/-- What its read leaves. -/
def readOf (s : State) : State := (s.blk 0 0 128).2
/-- A partition whose graph 0 forms a step. -/
def forming (c : Sched) (q : Part) : Part := { q with graphs := [(0, { graph [] with run := none })], sched := [(0, c)] }
/-- A step formed for graph 0. -/
def taking : State := of0 [] (forming { Sched.init with taken := [⟨0, 1, 0⟩] })
/-- A batch open. -/
def batching : State :=
  { of0 [] (forming { Sched.init with taken := [⟨0, 1, 0⟩], openSince := some 0 }) with
    ledger := [(0, { Entry.free with deadline := 5 })] }
/-- A frame from device 0 to itself. -/
def aFrame (type op : Nat) (pay : Bytes) : Frame := ⟨type, if type = 1 then 3 else 0, 0, 0, 0, 0, 0, 0, op, 0, 0, 0, pay⟩
/-- DATA. -/
def dataFrame : Frame := aFrame 1 1 []
/-- ACK. -/
def ackFrame : Frame := aFrame 2 0 (List.replicate 48 0)
/-- ABORT. -/
def abortFrame : Frame := aFrame 3 0 (List.replicate 32 0)
/-- HELLO, a request (0) or a reply. -/
def helloFrame (b : Nat) : Frame := aFrame 4 0 (mkRec 64 [(1, 1, b)])
/-- On the wire to port 0. -/
def wire (f : Frame) : WireFrame := ⟨macOf 0 0, 0, 0, 0x88B5, true, f.body⟩
/-- A sending flow context not opened. -/
def txFlow : TxFlow := ⟨0, 0, 0, 0, 0, 0, 0, false, 0, 0, 0, 0, [], 0, 0, [], none⟩
/-- One with a frame sent. -/
def sendFlow : TxFlow := { txFlow with unacked := [⟨dataFrame, 0, 0, 0, false, true⟩] }
/-- A receiving flow context with an ACK due. -/
def rxFlow : RxFlow := ⟨0, 0, 0, 0, 0, 0, 0, 0, 0, [], 0, some 0, 0, 0⟩
/-- Port 0 ready, with the first of them. -/
def ported : State := { at0 [(Rg.CCH_PORT_STATUS_STATE 0, 3)] with coach := { State.reset.coach with tx := [(0, txFlow)] } }
/-- With the second. -/
def sending : State := { ported with coach := { State.reset.coach with tx := [(0, sendFlow)] } }
/-- A list header. -/
def listAt : Bytes := mkRec 32 [(4, 2, 1), (6, 2, 1), (8, 1, 1), (16, 4, 1)]
/-- An attention task at work for ledger entry 0. -/
def walking : State := { tasking (aTask 2 2) with ledger := [(0, { Entry.free with pageList := 4096 })] }
/-- An XFER SHARD whose list is empty. -/
def sharding : State :=
  { withMem 4096 listAt (xfering 2) with ledger := [(0, { Entry.free with pageList := 4096 })] }
/-- That endpoint open. -/
def chan (rs : List (RF × Nat)) : State := lit rs { at0 [] with endpoints := [(4, endpoint)] }
/-- A control core's send that waits for credit. -/
def oneSend : Send := { taskSend with task := none, full := false }
/-- It is due to spill. -/
def spilling : State :=
  { of0 [] fun q => { q with ports := [(0, ⟨[oneSend], [], []⟩)] } with
    endpoints := [(4, { endpoint with group := 0, ringLog2 := 12, wtail := 4096 })] }
/-- A Churn queue of one element. -/
def churn : Churn := ⟨0, 0, 2, 1, 0, 0, 0, 0, 0, none, []⟩
/-- A contribution waits there. -/
def churning : State :=
  { of0 [] fun q => { q with ports := [(0, ⟨[{ oneSend with wait := none }], [], []⟩)] } with
    churns := [(0, { churn with waiting := [(0, 0, none)] })] }
/-- A GEMM. -/
def gemmDesc : Bytes := mkRec 128 [(0, 1, 1)]
/-- A VEC. -/
def vecDesc : Bytes := mkRec 128 [(0, 1, 3)]
/-- A SKIM of an operation. -/
def skimDesc (op : Nat) : Bytes := mkRec 128 [(0, 1, 7), (32, 1, op)]
/-- An attention task of an operation, with its block and extension. -/
def attending (op : Nat) : State :=
  withMem 4096 (mkRec 64 [(12, 4, 2), (24, 2, 1)])
    (withMem 0 (mkRec 128 [(0, 1, op), (3, 1, 1), (13, 1, 1), (14, 2, 32), (20, 4, 1), (80, 8, 4096)])
    (working 2 (mkRec 128 [(0, 1, 2)])))
/-- Ledger entry 0 EXPORTING. -/
def exporting : State := { at0 [] with ledger := [(0, { Entry.free with state := 5 })] }
/-- A CTL for any control core. -/
def ctlDesc : Bytes := mkRec 128 [(0, 1, 8), (32, 1, 255)]
/-- A graph header. -/
def loadHeader : Bytes := mkRec 64 [(0, 4, 0x46524756), (4, 2, 1), (8, 2, 1), (16, 4, 1), (24, 8, 4096), (32, 8, 64)]
/-- Its graph, of one CTL. -/
def loadGraph : Graph := ⟨loadHeader, [ctlDesc], [], 0, false, none, none⟩
/-- Both in memory at DSP_CMD_ADDR. -/
def loading : State := withMem 0 (loadHeader ++ ctlDesc) (at0 [])

theorem witness_moduleReset : ∃ (s : State) (ns : Nat), 50 ≤ ns ∧ s.phase ≠ .off :=
  ⟨at0 [], 50, by decide +kernel⟩
theorem witness_powerFail : ∃ (s : State) (mv : Nat) (us : Nat), s.phase ≠ .off ∧ ((mv < 44000 ∧ 50 ≤ us) ∨ (58000 < mv ∧ 10 ≤ us)) :=
  ⟨at0 [], 43999, 50, by decide +kernel⟩
theorem witness_powerGood : ∃ (s : State) (mv : Nat), s.phase = .held ∧ (46000 ≤ mv ∧ mv ≤ 56000) :=
  ⟨{ State.reset with phase := .held }, 46000, by decide +kernel⟩
theorem witness_moduleResetRelease : ∃ (s : State), s.Inv ∧ s.phase = .held ∧ s.pins.pwrGood = true :=
  ⟨{ State.reset with phase := .held, pins := { State.reset.pins with pwrGood := true } }, inv_of (by decide +kernel),
    by decide +kernel⟩
theorem witness_deviceWarmReset : ∃ (s : State) (c : WarmCause), s.Inv ∧ s.warmDue = some c :=
  ⟨{ State.reset with warmDue := some .fltReset }, .fltReset, inv_of (by decide +kernel), by decide +kernel⟩
theorem witness_fltResetDeviceWarm : ∃ (s : State), s.phase = .running ∧ s.warmDue = none :=
  ⟨at0 [], by decide +kernel⟩
theorem witness_imgActivate : ∃ (s : State), s.serving = true ∧ s.on Rg.IMG_STATUS_BUSY = false ∧ s.on Rg.SEC_RESULT_BUSY = false :=
  ⟨linked [], by decide +kernel⟩
theorem witness_fwActivate : ∃ (s : State), s.secServed = true ∧ s.on Rg.SEC_RESULT_BUSY = false :=
  ⟨linked [], by decide +kernel⟩
theorem witness_partitionReset : ∃ (s : State) (p : Nat), s.Inv ∧ s.defined p = true ∧ ((s.pstate p = 2 ∧ (s.part p).cringHold = [])
    ∨ (s.pstate p = 3 ∧ (s.part p).resetDone = false)) :=
  ⟨at0 [(Rg.FLT_PART_STATE 0, 2)], 0, inv_of (by decide +kernel), by decide +kernel⟩
theorem witness_partitionResetComplete : ∃ (s : State) (p : Nat), s.Inv ∧ s.defined p = true ∧ s.pstate p = 3 ∧ (s.part p).resetDone
    = true :=
  ⟨of0 [(Rg.FLT_PART_STATE 0, 3)] fun q => { q with resetDone := true }, 0, inv_of (by decide +kernel), by decide +kernel⟩
theorem witness_fltResetPartition : ∃ (s : State) (p : Nat), s.Inv ∧ s.defined p = true ∧ s.pstate p < 2 :=
  ⟨at0 [], 0, inv_of (by decide +kernel), by decide +kernel⟩
theorem witness_fltResetCore : ∃ (s : State) (c : Nat), s.Inv ∧ s.enabled.contains (c / 17) = true :=
  ⟨at0 [], 0, inv_of (by decide +kernel), by decide +kernel⟩
theorem witness_ikWdogExpiry : ∃ (s : State) (n : Nat), s.Inv ∧ n < 2 ∧ s.phase = .running ∧ s.bundle.isSome = true ∧ s.warmDue =
    none :=
  ⟨booted [], 1, inv_of (by decide +kernel), by decide +kernel⟩
theorem witness_ccWdogExpiry : ∃ (s : State) (n : Nat) (p : Nat), s.Inv ∧ s.ctlOwner n = some p ∧ (s.ctlCore n).running = true ∧
    s.pstate p < 2 :=
  ⟨calling [], 0, 0, inv_of (by decide +kernel), by decide +kernel⟩
theorem witness_spillWaitTimeout : ∃ (s : State) (p : Nat) (x : Send) (r : List Send), s.Inv ∧ p < 12 ∧ s.defined p = true ∧ s.pstate
    p < 2 ∧ (s.sender p 33).queue = x :: r ∧ x.full = true ∧ x.task.isSome = true :=
  ⟨of0 [] fun q => { q with ports := [(33, ⟨[taskSend], [], []⟩)] }, 0, taskSend, [], inv_of (by decide +kernel), by decide +kernel⟩
theorem witness_pinWaitTimeout : ∃ (s : State) (t : Nat) (page : Nat) (w : WalkWait) (k : Task), s.Inv ∧ (s.walks.find? (fun w =>
    w.task == t && w.page == page) = some w) ∧ s.task? t = some k ∧ k.part < 12 ∧ s.defined k.part = true ∧ s.pstate k.part < 2 ∧
    (s.page page).drops = w.drops :=
  ⟨{ tasking (aTask 1 2) with walks := [⟨1, 0, 5, 0, 0, 0⟩] }, 1, 5, ⟨1, 0, 5, 0, 0, 0⟩, aTask 1 2, inv_of (by decide +kernel),
    by decide +kernel⟩
theorem witness_ctlWdogExpiry : ∃ (s : State) (t : Nat) (k : Task), s.Inv ∧ s.task? t = some k ∧ k.kind = 8 ∧ (k.parts.all (fun x =>
    x.slot == 5) = true) ∧ k.part < 12 ∧ s.defined k.part = true ∧ s.pstate k.part < 2 :=
  ⟨tasking (aTask 8 5), 1, aTask 8 5, inv_of (by decide +kernel), by decide +kernel⟩
theorem witness_ringWdogExpiry_xfer : ∃ (s : State) (t : Nat) (t0 : Nat) (k : Task) (k' : Task) (b : Bytes), s.Inv ∧ s.task? t = some
    k ∧ k.waitSince = some t0 ∧ k.kind = 5 ∧ s.portTask t 5 = some (k', b) ∧ bitOf (fieldAt b 1 1) 1 = true ∧ k.part < 12 ∧
    s.defined k.part = true ∧ s.pstate k.part < 2 :=
  ⟨ringed, 1, 0, waiting 5, waiting 5, blockOf ringed 5, inv_of (by decide +kernel), by decide +kernel⟩
theorem witness_ringWdogExpiry_coll : ∃ (s : State) (t : Nat) (t0 : Nat) (r : Nat) (k : Task) (k' : Task) (b : Bytes) (st :
    CollStep), s.Inv ∧ s.task? t = some k ∧ k.waitSince = some t0 ∧ k.kind = 6 ∧ s.portTask t 6 = some (k', b) ∧ s.rankOf k.part
    = some r ∧ ((s.collOf k.part b).steps r)[k.stage]? = some st ∧ k.part < 12 ∧ s.defined k.part = true ∧ s.pstate k.part < 2 :=
  ⟨collWaiting, 1, 0, 0, waiting 6, waiting 6, blockOf collWaiting 6, ((collWaiting.collOf 0 (blockOf collWaiting 6)).steps
    0)[0]?.get (by decide +kernel), inv_of (by decide +kernel), by decide +kernel, by decide +kernel, by decide +kernel,
    by decide +kernel, by decide +kernel, (Option.some_get _).symm, by decide +kernel⟩
theorem witness_quiesceTimeout : ∃ (s : State) (p : Nat) (t0 : Nat), s.Inv ∧ s.service.quiesceAt = some t0 ∧ s.fd Rg.SVC_STATE_MODE =
    1 ∧ p < 12 ∧ s.defined p = true ∧ s.pstate p = 1 ∧ s.settled p = false ∧ (∀ q, q < 12 → q ≠ p → s.defined q = true → s.pstate
    q = 0 ∨ s.settled q = true) :=
  ⟨lit [(Rg.SVC_STATE_MODE, 1), (Rg.FLT_PART_STATE 0, 1)] { of0 [] fun q => { q with graphs := [(0, graph [])] } with service :=
    { State.reset.service with quiesceAt := some 0 } }, 0, 0, inv_of (by decide +kernel), by decide +kernel⟩
theorem witness_drainTimeout_halt : ∃ (s : State) (p : Nat) (t0 : Nat), s.Inv ∧ p < 12 ∧ s.defined p = true ∧ s.pstate p < 2 ∧
    (s.part p).haltAt = some t0 ∧ s.on (Rg.DSP_CTRL_HALT p) = true ∧ s.anyRunning p = true :=
  ⟨of0 [(Rg.DSP_CTRL_HALT 0, 1)] fun q => { q with haltAt := some 0, graphs := [(0, graph [])] }, 0, 0, inv_of
    (by decide +kernel), by decide +kernel⟩
theorem witness_drainTimeout_graph : ∃ (s : State) (p : Nat) (tag : Nat) (t0 : Nat) (g : Graph), s.Inv ∧ p < 12 ∧ s.defined p = true
    ∧ s.pstate p < 2 ∧ s.graph? p tag = some g ∧ g.unloadAt = some t0 ∧ g.running = true :=
  ⟨of0 [] fun q => { q with graphs := [(0, { graph [] with unloadAt := some 0 })] }, 0, 0, 0, { graph [] with unloadAt := some 0
    }, inv_of (by decide +kernel), by decide +kernel⟩
theorem witness_drainTimeout_endpoint : ∃ (s : State) (h : Nat) (e : Endpoint), s.Inv ∧ find? s.endpoints h = some e ∧ e.part < 12 ∧
    s.defined e.part = true ∧ s.pstate e.part < 2 ∧ e.closing = true ∧ (s.landings.any (fun l => l.ep == h) = true) :=
  ⟨{ at0 [] with endpoints := [(4, { endpoint with closing := true })], landings := [landing] }, 4, { endpoint with closing :=
    true }, inv_of (by decide +kernel), by decide +kernel⟩
theorem witness_drainTimeout_core : ∃ (s : State) (c : Nat) (l : Nat), (s.core c).power = 3 ∧ s.logCore c = some l ∧ (s.partsOn
    l).isEmpty = false :=
  ⟨lit [] { tasking (aTask 1 2) with cores := [(0, { Core.init with power := 3 })] }, 0, 0, by decide +kernel⟩
theorem witness_coreDrainedOff : ∃ (s : State) (c : Nat) (l : Nat), (s.core c).power = 3 ∧ s.logCore c = some l ∧ s.slotFree l 2 =
    true ∧ s.slotFree l 3 = true :=
  ⟨{ at0 [] with cores := [(0, { Core.init with power := 3 })] }, 0, 0, by decide +kernel⟩
theorem witness_fltLogPop : ∃ (s : State) (e : FltEntry) (r : List FltEntry), s.fltLog = e :: r :=
  ⟨{ at0 [] with fltLog := [⟨1, 2, 3⟩] }, ⟨1, 2, 3⟩, [], by decide +kernel⟩
theorem witness_memLogPop : ∃ (s : State) (e : MemEntry) (r : List MemEntry), s.memLog = e :: r :=
  ⟨{ at0 [] with memLog := [⟨1, 2⟩] }, ⟨1, 2⟩, [], by decide +kernel⟩
theorem witness_faultPatternExpiry : ∃ (s : State) (p : Nat) (t0 : Nat), (s.part p).faultAt = some t0 :=
  ⟨of0 [] fun q => { q with faultAt := some 0 }, 0, 0, by decide +kernel⟩
theorem witness_sagDetect : ∃ (s : State) (mv : Nat) (us : Nat), s.Inv ∧ s.phase = .running ∧ mv < 47000 ∧ 10 < us ∧ s.on
    Rg.PWR_STATUS_SAG = false :=
  ⟨at0 [], 46999, 11, inv_of (by decide +kernel), by decide +kernel⟩
theorem witness_sagClear : ∃ (s : State) (mv : Nat) (us : Nat), s.Inv ∧ 48000 ≤ mv ∧ 100 ≤ us ∧ s.on Rg.PWR_STATUS_SAG = true :=
  ⟨at0 [(Rg.PWR_STATUS_SAG, 1)], 48000, 100, inv_of (by decide +kernel), by decide +kernel⟩
theorem witness_currentSlowBegin : ∃ (s : State) (w : Nat), s.Inv ∧ s.phase = .running ∧ 11 * s.fd Rg.PWR_CAP_SET_CAP_W < 10 * w :=
  ⟨at0 [], 1000, inv_of (by decide +kernel), by decide +kernel⟩
theorem witness_currentSlowEnd : ∃ (s : State) (w : Nat), s.Inv ∧ s.on Rg.PWR_STATUS_CURRENT = true ∧ w ≤ s.fd Rg.PWR_CAP_SET_CAP_W :=
  ⟨at0 [(Rg.PWR_STATUS_CURRENT, 1), (Rg.PWR_CAP_SET_CAP_W, 500)], 500, inv_of (by decide +kernel), by decide +kernel⟩
theorem witness_droopAssert : ∃ (s : State) (k : Nat), s.phase = .running ∧ s.power.stretched.contains k = false :=
  ⟨at0 [], 0, by decide +kernel⟩
theorem witness_droopClear : ∃ (s : State) (k : Nat) (n : Nat), 8 ≤ n ∧ s.power.stretched.contains k = true :=
  ⟨{ at0 [] with power := { State.reset.power with stretched := [0] } }, 0, 8, by decide +kernel⟩
theorem witness_refLost : ∃ (s : State) (ns : Nat), s.Inv ∧ s.phase = .running ∧ 1000 ≤ ns ∧ s.on Rg.DEV_TIME_CTRL_REF_EXT = true :=
  ⟨at0 [(Rg.DEV_TIME_CTRL_REF_EXT, 1)], 1000, inv_of (by decide +kernel), by decide +kernel⟩
theorem witness_ppsEdge : ∃ (s : State) (ns : Nat), s.Inv ∧ s.phase = .running ∧ 50 ≤ ns :=
  ⟨at0 [], 50, inv_of (by decide +kernel), by decide +kernel⟩
theorem witness_coreOn : ∃ (s : State) (c : Nat), (s.core c).power = 1 :=
  ⟨{ at0 [] with cores := [(0, { Core.init with power := 1 })] }, 0, by decide +kernel⟩
theorem witness_coreRampOnStart : ∃ (s : State) (c : Nat), s.power.rampWait.contains c = true ∧ (s.core c).power = 0 ∧ s.power.trip =
    false :=
  ⟨{ at0 [] with power := { State.reset.power with rampWait := [1] } }, 1, by decide +kernel⟩
theorem witness_thermtrip : ∃ (s : State) (c : Nat), s.Inv ∧ s.phase = .running ∧ 108 ≤ c :=
  ⟨at0 [], 108, inv_of (by decide +kernel), by decide +kernel⟩
theorem witness_powerLoop : ∃ (s : State), s.Inv ∧ s.phase = .running ∧ s.inRecovery = false :=
  ⟨at0 [], inv_of (by decide +kernel), by decide +kernel⟩
theorem witness_keyTouch : ∃ (s : State), s.Inv ∧ s.phase = .running ∧ s.service.touch = none :=
  ⟨at0 [], inv_of (by decide +kernel), by decide +kernel⟩
theorem witness_keyHoldSegment : ∃ (s : State) (n : Nat) (t0 : Nat), n < 8 ∧ s.service.touch = some t0 :=
  ⟨touched [], 7, 0, by decide +kernel⟩
theorem witness_keyForceStopHold : ∃ (s : State) (t0 : Nat), s.Inv ∧ s.service.touch = some t0 ∧ s.service.forced = false ∧ s.phase =
    .running ∧ s.service.bootHalt = false ∧ s.fd Rg.SEC_BOOT_STATUS_MODE = 0 ∧ s.fd Rg.SVC_STATE_MODE < 3 :=
  ⟨touched [], 0, inv_of (by decide +kernel), by decide +kernel⟩
theorem witness_keyRelease : ∃ (s : State) (t0 : Nat) (ms : Nat), s.Inv ∧ s.service.touch = some t0 ∧ s.service.forced = false ∧
    s.phase = .running ∧ s.fd Rg.SEC_BOOT_STATUS_MODE = 0 ∧ s.fd Rg.SVC_CFG_LOCK_KEY = 0 ∧ (s.now - t0) / 1000000 = ms ∧ ms <
    10000 :=
  ⟨touched [], 0, 0, inv_of (by decide +kernel), by decide +kernel⟩
theorem witness_svcQuiesce : ∃ (s : State), s.Inv ∧ s.phase = .running ∧ s.fd Rg.SVC_STATE_MODE = 0 :=
  ⟨at0 [], inv_of (by decide +kernel), by decide +kernel⟩
theorem witness_svcResume : ∃ (s : State), s.Inv ∧ s.phase = .running ∧ s.service.bootHalt = false ∧ (s.fd Rg.SVC_STATE_MODE = 1 ∨
    s.fd Rg.SVC_STATE_MODE = 2 ∨ s.fd Rg.SVC_STATE_MODE = 4) :=
  ⟨at0 [(Rg.SVC_STATE_MODE, 4)], inv_of (by decide +kernel), by decide +kernel⟩
theorem witness_svcForceStop : ∃ (s : State), s.Inv ∧ s.phase = .running ∧ s.service.bootHalt = false ∧ s.fd Rg.SVC_STATE_MODE < 3 :=
  ⟨at0 [], inv_of (by decide +kernel), by decide +kernel⟩
theorem witness_quiesceSettled : ∃ (s : State), s.Inv ∧ s.fd Rg.SVC_STATE_MODE = 1 ∧ (∀ p, p < 12 → s.defined p = true → s.pstate p =
    0 ∨ s.settled p = true) :=
  ⟨at0 [(Rg.SVC_STATE_MODE, 1)], inv_of (by decide +kernel), by decide +kernel⟩
theorem witness_forceStopComplete : ∃ (s : State), s.Inv ∧ s.fd Rg.SVC_STATE_MODE = 3 ∧ (∀ p, p < 12 → s.defined p = true → s.pstate
    p = 0) :=
  ⟨at0 [(Rg.SVC_STATE_MODE, 3)], inv_of (by decide +kernel), by decide +kernel⟩
theorem witness_presenceChange_port : ∃ (s : State) (n : Nat), s.Inv ∧ s.phase = .running ∧ n < s.var.ports ∧ (s.fd
    Rg.SVC_PRESENCE_CAGE).testBit n = false :=
  ⟨at0 [], 0, inv_of (by decide +kernel), by decide +kernel⟩
theorem witness_presenceChange_larric : ∃ (s : State) (b : Bool), s.Inv ∧ s.phase = .running ∧ s.on Rg.SVC_PRESENCE_LARRIC = !b ∧ (b
    = false → s.lrlState < 4) :=
  ⟨at0 [], true, inv_of (by decide +kernel), by decide +kernel⟩
theorem witness_imgErase : ∃ (s : State), s.Inv ∧ s.serving = true ∧ s.on Rg.IMG_STATUS_BUSY = false ∧ s.on Rg.SEC_RESULT_BUSY =
    false :=
  ⟨linked [], inv_of (by decide +kernel), by decide +kernel⟩
theorem witness_imgWrite : ∃ (s : State) (a : Nat) (n : Nat), s.Inv ∧ s.serving = true ∧ s.on Rg.IMG_STATUS_BUSY = false ∧ s.on
    Rg.SEC_RESULT_BUSY = false ∧ s.ImgXfer a n ∧ s.fd Rg.IMG_XFER_OFFSET_OFFSET % 8 = 0 ∧ s.fd Rg.IMG_XFER_OFFSET_OFFSET + n ≤
    67108864 :=
  ⟨linked [(Rg.IMG_XFER_HOST_ADDR, windowBase), (Rg.IMG_XFER_LEN_LEN, 8)], windowBase, 8, inv_of (by decide +kernel),
    by decide +kernel, by decide +kernel, by decide +kernel, ⟨by decide +kernel, by decide +kernel, by decide +kernel,
    by decide +kernel, by decide +kernel, by decide +kernel⟩, by decide +kernel⟩
theorem witness_imgCommit : ∃ (s : State) (k : Nat) (r : Nat), s.Inv ∧ s.serving = true ∧ s.on Rg.IMG_STATUS_BUSY = false ∧ s.on
    Rg.SEC_RESULT_BUSY = false ∧ s.fd Rg.IMG_STATUS_TARGET = k ∧ s.imgVerdict k = r ∧ r < 256 :=
  ⟨linked [], 0, State.imgVerdict (linked []) 0, inv_of (by decide +kernel), by decide +kernel⟩
theorem witness_imgReload : ∃ (s : State) (p : Nat) (a : Nat) (n : Nat) (r : Nat), s.Inv ∧ s.serving = true ∧ s.on Rg.IMG_STATUS_BUSY
    = false ∧ s.on Rg.SEC_RESULT_BUSY = false ∧ s.ImgXfer a n ∧ n ≤ 67108864 ∧ p < 12 ∧ ((s.devRead 15 2 a n).st.reload p
    (readBytes s.hostMem (a - windowBase) n)).1 = r :=
  ⟨linked [(Rg.IMG_XFER_HOST_ADDR, windowBase), (Rg.IMG_XFER_LEN_LEN, 8)], 0, windowBase, 8, _, inv_of (by decide +kernel),
    by decide +kernel, by decide +kernel, by decide +kernel, ⟨by decide +kernel, by decide +kernel, by decide +kernel,
    by decide +kernel, by decide +kernel, by decide +kernel⟩, by decide +kernel, by decide +kernel, rfl⟩
theorem witness_fwErase : ∃ (s : State), s.Inv ∧ s.secServed = true ∧ s.on Rg.IMG_STATUS_BUSY = false ∧ s.on Rg.SEC_RESULT_BUSY =
    false :=
  ⟨linked [], inv_of (by decide +kernel), by decide +kernel⟩
theorem witness_fwWrite : ∃ (s : State) (a : Nat) (n : Nat), s.Inv ∧ s.secServed = true ∧ s.on Rg.IMG_STATUS_BUSY = false ∧ s.on
    Rg.SEC_RESULT_BUSY = false ∧ s.SecXfer a n ∧ s.fd Rg.SEC_XFER_LEN_LEN = n ∧ n % 8 = 0 ∧ s.fd Rg.SEC_XFER_OFFSET_OFFSET % 8 =
    0 ∧ s.fd Rg.SEC_XFER_OFFSET_OFFSET + n ≤ 16777216 :=
  ⟨linked [(Rg.SEC_XFER_HOST_ADDR, windowBase), (Rg.SEC_XFER_LEN_LEN, 8)], windowBase, 8, inv_of (by decide +kernel),
    by decide +kernel, by decide +kernel, by decide +kernel, ⟨by decide +kernel, by decide +kernel, by decide +kernel,
    by decide +kernel, by decide +kernel⟩, by decide +kernel⟩
theorem witness_fwCommit : ∃ (s : State) (k : Nat) (r : Nat), s.Inv ∧ s.secServed = true ∧ s.on Rg.IMG_STATUS_BUSY = false ∧ s.on
    Rg.SEC_RESULT_BUSY = false ∧ s.fd Rg.SEC_BOOT_STATUS_FW_TARGET = k ∧ s.fwVerdict k = r ∧ r < 256 :=
  ⟨linked [], 0, State.fwVerdict (linked []) 0, inv_of (by decide +kernel), by decide +kernel⟩
theorem witness_repairApply : ∃ (s : State) (a : Nat) (n : Nat) (c : Nat) (m : FuseMap), s.Inv ∧ s.serving = true ∧ s.on
    Rg.FLT_REPAIR_RESULT_BUSY = false ∧ (s.rd Rg.FLT_REPAIR_HOST).toNat = a ∧ s.fd Rg.FLT_REPAIR_LEN_LEN = n ∧ (a % 8 = 0 ∧
    windowBase ≤ a ∧ a < 2 ^ 48 ∧ 305 ≤ n ∧ n ≤ 809) ∧ (s.devRead 15 2 a n).st.repairVerdict (s.devRead 15 2 a n) n = (c, m) :=
  ⟨linked [(Rg.FLT_REPAIR_HOST_ADDR, windowBase), (Rg.FLT_REPAIR_LEN_LEN, 305)], windowBase, 305, _, _, inv_of
    (by decide +kernel), by decide +kernel, by decide +kernel, by decide +kernel, by decide +kernel, by decide +kernel,
    Prod.mk.eta.symm⟩
theorem witness_commitSvn : ∃ (s : State) (l : Loaded), s.Inv ∧ s.secServed = true ∧ s.on Rg.IMG_STATUS_BUSY = false ∧ s.on
    Rg.SEC_RESULT_BUSY = false ∧ s.on Rg.SEC_BOOT_STATUS_MODE = false ∧ s.loaded = some l :=
  ⟨{ linked [] with loaded := some ⟨1, 1, 1, [], [], []⟩ }, ⟨1, 1, 1, [], [], []⟩, inv_of (by decide +kernel), by decide +kernel⟩
theorem witness_fuseOwner : ∃ (s : State) (a : Nat), s.Inv ∧ s.secServed = true ∧ s.on Rg.IMG_STATUS_BUSY = false ∧ s.on
    Rg.SEC_RESULT_BUSY = false ∧ s.on Rg.SEC_BOOT_STATUS_MODE = false ∧ s.SecXfer a 64 ∧ allZero s.fuses.ownerHash = true ∧
    allZero (readBytes s.hostMem (a - windowBase) 64) = false :=
  ⟨{ linked [(Rg.SEC_XFER_HOST_ADDR, windowBase)] with hostMem := [(0, 1)] }, windowBase, inv_of (by decide +kernel),
    by decide +kernel, by decide +kernel, by decide +kernel, by decide +kernel, ⟨by decide +kernel, by decide +kernel,
    by decide +kernel, by decide +kernel, by decide +kernel⟩, by decide +kernel⟩
theorem witness_attest : ∃ (s : State) (w : Nat) (p : Nat) (a : Nat) (b : Bytes), s.Inv ∧ s.secServed = true ∧ s.on
    Rg.IMG_STATUS_BUSY = false ∧ s.on Rg.SEC_RESULT_BUSY = false ∧ s.on Rg.SEC_BOOT_STATUS_MODE = false ∧ w % 16 = p ∧ (p = 15 ∨
    s.defined p = true) ∧ (s.attReport (if p = 15 then 0xFF else p) ((List.range 4).flatMap fun k => toLe 8 (s.rd
    (Rg.SEC_ATT_NONCE k)).toNat) = b) ∧ s.SecXfer a b.length :=
  ⟨linked [(Rg.SEC_XFER_HOST_ADDR, windowBase)], 15, 15, windowBase, _, inv_of (by decide +kernel), by decide +kernel,
    by decide +kernel, by decide +kernel, by decide +kernel, by decide +kernel, by decide +kernel, rfl, ⟨by decide +kernel,
    by decide +kernel, by decide +kernel, by decide +kernel, by rw [attReport_length]; decide +kernel⟩⟩
theorem witness_idcert : ∃ (s : State) (a : Nat), s.Inv ∧ s.secServed = true ∧ s.on Rg.IMG_STATUS_BUSY = false ∧ s.on
    Rg.SEC_RESULT_BUSY = false ∧ s.SecXfer a s.flash.cert.length :=
  ⟨linked [(Rg.SEC_XFER_HOST_ADDR, windowBase)], windowBase, inv_of (by decide +kernel), by decide +kernel, by decide +kernel,
    by decide +kernel, ⟨by decide +kernel, by decide +kernel, by decide +kernel, by decide +kernel, by decide +kernel⟩⟩
theorem witness_partStart : ∃ (s : State) (p : Nat) (n : Nat), s.Inv ∧ s.defined p = true ∧ s.on (Rg.SEC_PART_CTRL_RUNNING p) = false
    ∧ s.phase = .running ∧ s.pstate p < 2 ∧ s.on (Rg.FLT_PART_HELD p) = false ∧ (s.ctlOf p).head? = some n :=
  ⟨at0 [], 0, 0, inv_of (by decide +kernel), by decide +kernel⟩
theorem witness_sbiInfo : ∃ (s : State) (n : Nat) (p : Nat), s.Calls n p :=
  ⟨calling [], 0, 0, ⟨by decide +kernel, by decide +kernel, by decide +kernel⟩⟩
theorem witness_sbiReloadStatus : ∃ (s : State) (n : Nat) (p : Nat), s.Calls n p :=
  ⟨calling [], 0, 0, ⟨by decide +kernel, by decide +kernel, by decide +kernel⟩⟩
theorem witness_sbiFaultInfo : ∃ (s : State) (n : Nat) (p : Nat), s.Calls n p :=
  ⟨calling [], 0, 0, ⟨by decide +kernel, by decide +kernel, by decide +kernel⟩⟩
theorem witness_sbiReload : ∃ (s : State) (n : Nat) (p : Nat), s.Inv ∧ s.Calls n p :=
  ⟨calling [], 0, 0, inv_of (by decide +kernel), ⟨by decide +kernel, by decide +kernel, by decide +kernel⟩⟩
theorem witness_sbiAttest : ∃ (s : State) (n : Nat) (p : Nat), s.Calls n p :=
  ⟨calling [], 0, 0, ⟨by decide +kernel, by decide +kernel, by decide +kernel⟩⟩
theorem witness_sbiJobFault : ∃ (s : State) (n : Nat) (p : Nat), s.Inv ∧ s.Calls n p ∧ s.pstate p < 2 :=
  ⟨calling [], 0, 0, inv_of (by decide +kernel), ⟨by decide +kernel, by decide +kernel, by decide +kernel⟩, by decide +kernel⟩
theorem witness_sbiSrst : ∃ (s : State) (n : Nat) (p : Nat), s.Inv ∧ s.Calls n p ∧ s.pstate p < 2 :=
  ⟨calling [], 0, 0, inv_of (by decide +kernel), ⟨by decide +kernel, by decide +kernel, by decide +kernel⟩, by decide +kernel⟩
theorem witness_sbiHsmHartStart : ∃ (s : State) (n : Nat) (p : Nat) (m : Nat) (a : W64), s.Calls n p ∧ s.ctlOwner m = some p ∧
    (s.ctlCore m).running = false ∧ s.badPoint p a.toNat 4 = none :=
  ⟨calling [], 0, 0, 1, 0, ⟨by decide +kernel, by decide +kernel, by decide +kernel⟩, by decide +kernel⟩
theorem witness_hartStop : ∃ (s : State) (n : Nat) (p : Nat), s.Inv ∧ s.Calls n p :=
  ⟨calling [], 0, 0, inv_of (by decide +kernel), ⟨by decide +kernel, by decide +kernel, by decide +kernel⟩⟩
theorem witness_setEndpointId : ∃ (s : State), s.mgmtAny = true :=
  ⟨booted [], by decide +kernel⟩
theorem witness_getEndpointId : ∃ (s : State), s.mgmtAny = true :=
  ⟨booted [], by decide +kernel⟩
theorem witness_getEndpointUuid : ∃ (s : State), s.mgmtAny = true :=
  ⟨booted [], by decide +kernel⟩
theorem witness_getMctpVersionSupport : ∃ (s : State), s.mgmtAny = true :=
  ⟨booted [], by decide +kernel⟩
theorem witness_getMessageTypeSupport : ∃ (s : State), s.mgmtAny = true :=
  ⟨booted [], by decide +kernel⟩
theorem witness_i3cDynamicAddress : ∃ (s : State), s.mgmtAny = true ∧ s.pins.i3cMode = true :=
  ⟨booted [], by decide +kernel⟩
theorem witness_getTid : ∃ (s : State), s.mgmtAny = true :=
  ⟨booted [], by decide +kernel⟩
theorem witness_setTid : ∃ (s : State), s.mgmtAny = true :=
  ⟨booted [], by decide +kernel⟩
theorem witness_getPldmVersion : ∃ (s : State), s.mgmtAny = true :=
  ⟨booted [], by decide +kernel⟩
theorem witness_getPldmTypes : ∃ (s : State), s.mgmtAny = true :=
  ⟨booted [], by decide +kernel⟩
theorem witness_getPldmCommands : ∃ (s : State), s.mgmtAny = true :=
  ⟨booted [], by decide +kernel⟩
theorem witness_getPdrRepositoryInfo : ∃ (s : State), s.mgmtFull = true :=
  ⟨booted [], by decide +kernel⟩
theorem witness_getPdr : ∃ (s : State), s.mgmtFull = true :=
  ⟨booted [], by decide +kernel⟩
theorem witness_getSensorReading : ∃ (s : State), s.mgmtFull = true :=
  ⟨booted [], by decide +kernel⟩
theorem witness_getStateSensorReadings : ∃ (s : State), s.mgmtAny = true :=
  ⟨booted [], by decide +kernel⟩
theorem witness_getNumericEffecterValue : ∃ (s : State), s.mgmtFull = true :=
  ⟨booted [], by decide +kernel⟩
theorem witness_setNumericEffecterValue : ∃ (s : State), s.Inv ∧ s.mgmtFull = true :=
  ⟨booted [], inv_of (by decide +kernel), by decide +kernel⟩
theorem witness_setStateEffecterStates : ∃ (s : State), s.Inv ∧ s.mgmtFull = true :=
  ⟨booted [], inv_of (by decide +kernel), by decide +kernel⟩
theorem witness_setEventReceiver : ∃ (s : State), s.mgmtFull = true :=
  ⟨booted [], by decide +kernel⟩
theorem witness_sensorUpdate : ∃ (s : State), s.mgmtFull = true :=
  ⟨booted [], by decide +kernel⟩
theorem witness_getFruRecordTableMetadata : ∃ (s : State), s.mgmtAny = true :=
  ⟨booted [], by decide +kernel⟩
theorem witness_getFruRecordTable : ∃ (s : State), s.mgmtAny = true :=
  ⟨booted [], by decide +kernel⟩
theorem witness_linkDetect : ∃ (s : State), s.Inv ∧ s.phase = .running ∧ s.fd Rg.LRL_STATUS_STATE = 0 ∧ s.warmDue = none ∧ (6 ≤ s.fd
    Rg.SEC_BOOT_STATUS_STAGE ∨ s.fd Rg.SEC_BOOT_STATUS_MODE = 1) :=
  ⟨at0 [(Rg.SEC_BOOT_STATUS_STAGE, 6)], inv_of (by decide +kernel), by decide +kernel⟩
theorem witness_linkPartnerSeen : ∃ (s : State) (n : Nat), s.Inv ∧ s.fd Rg.LRL_STATUS_STATE = 1 ∧ 4 ≤ n :=
  ⟨at0 [(Rg.LRL_STATUS_STATE, 1)], 4, inv_of (by decide +kernel), by decide +kernel⟩
theorem witness_linkLanesLock : ∃ (s : State), s.Inv ∧ s.fd Rg.LRL_STATUS_STATE = 2 :=
  ⟨at0 [(Rg.LRL_STATUS_STATE, 2)], inv_of (by decide +kernel), by decide +kernel⟩
theorem witness_linkTrainTimeout : ∃ (s : State), s.Inv ∧ s.fd Rg.LRL_STATUS_STATE = 2 :=
  ⟨at0 [(Rg.LRL_STATUS_STATE, 2)], inv_of (by decide +kernel), by decide +kernel⟩
theorem witness_linkConfigDone : ∃ (s : State) (c : List Nat), s.Inv ∧ s.fd Rg.LRL_STATUS_STATE = 3 ∧ c.length = 4 ∧ (∀ n ∈ c, 8 ≤ n) :=
  ⟨at0 [(Rg.LRL_STATUS_STATE, 3)], [8, 8, 8, 8], inv_of (by decide +kernel), by decide +kernel⟩
theorem witness_linkRetrainRelock : ∃ (s : State), s.Inv ∧ s.fd Rg.LRL_STATUS_STATE = 5 :=
  ⟨at0 [(Rg.LRL_STATUS_STATE, 5)], inv_of (by decide +kernel), by decide +kernel⟩
theorem witness_linkRetrainTimeout : ∃ (s : State), s.Inv ∧ s.fd Rg.LRL_STATUS_STATE = 5 :=
  ⟨at0 [(Rg.LRL_STATUS_STATE, 5)], inv_of (by decide +kernel), by decide +kernel⟩
theorem witness_replayTimerExpiry : ∃ (s : State), s.Inv ∧ s.fd Rg.LRL_STATUS_STATE = 4 ∧ s.larric.replay ≠ [] :=
  ⟨{ linked [] with larric := { State.reset.larric with replay := [(0, [])] } }, inv_of (by decide +kernel), by decide +kernel⟩
theorem witness_flitReceive : ∃ (s : State), s.Inv ∧ s.lrlActive = true :=
  ⟨linked [], inv_of (by decide +kernel), by decide +kernel⟩
theorem witness_flitTransmit : ∃ (s : State), s.lrlActive = true :=
  ⟨linked [], by decide +kernel⟩
theorem witness_hostMemRd : ∃ (s : State) (p : Nat) (a : Nat) (n : Nat) (tag : Nat), s.lrlActive = true ∧ s.recovery = false ∧
    badSpan a n = false ∧ s.hostRefused (p % 16) a n = false ∧ (s.hostRd (p % 16) a n tag).code ≠ 2 ∧ (s.hostRd (p % 16) a n
    tag).poison = [] :=
  ⟨linked [], 0, 0, 8, 0, by decide +kernel⟩
theorem witness_hostMemWr : ∃ (s : State) (p : Nat) (a : Nat) (d : Bytes), s.lrlActive = true ∧ s.recovery = false ∧ badSpan a
    d.length = false ∧ s.hostRefused (p % 16) a d.length = false ∧ s.fullQueue a d.length = none :=
  ⟨linked [], 0, 0, [1], by decide +kernel⟩
theorem witness_memCplReceive : ∃ (s : State), s.Inv ∧ s.lrlActive = true :=
  ⟨linked [], inv_of (by decide +kernel), by decide +kernel⟩
theorem witness_cplTimeout : ∃ (s : State) (tag : Nat) (o : OutRead), s.Inv ∧ (s.larric.tags.find? (fun o => o.tag == tag) = some o) :=
  ⟨{ linked [] with larric := { State.reset.larric with tags := [⟨7, 0, windowBase, 8, 0⟩] } }, 7, ⟨7, 0, windowBase, 8, 0⟩,
    inv_of (by decide +kernel), by decide +kernel⟩
theorem witness_intr : ∃ (s : State) (n : Nat), s.lrlActive = true ∧ n < 64 ∧ bitOf (s.rd Rg.LRL_IRQ_MASK).toNat n = true ∧ n ∉
    s.larric.disarmed ∧ s.recovery = false ∧ s.irqCond n = true :=
  ⟨linked [(Rg.LRL_IRQ_MASK_MASK, 1), (Rg.DSP_IRQ_RECORD 0, 1)], 0, by decide +kernel⟩
theorem witness_lrlIrqRearmWrite : ∃ (s : State) (v : W64), (∀ n, n < 64 → bitOf v.toNat n = true → s.irqCond n = false) :=
  ⟨linked [], 0, by decide +kernel⟩
theorem witness_dspLoad : ∃ (s : State) (p : Nat) (g : Graph) (w : State), s.Inv ∧ s.live p = true ∧ s.LoadsAs p g w :=
  ⟨loading, 0, loadGraph, _, inv_of (by decide +kernel), by decide +kernel, ⟨_, _, [true], some_of (by decide +kernel),
    by decide +kernel, by decide +kernel, by decide +kernel, by decide +kernel, rfl, fst_of (by decide +kernel),
    by decide +kernel, by decide +kernel, by decide +kernel, by decide +kernel, by decide +kernel, by decide +kernel⟩⟩
theorem witness_dspUnload : ∃ (s : State) (p : Nat), s.Inv ∧ s.live p = true :=
  ⟨at0 [], 0, inv_of (by decide +kernel), by decide +kernel⟩
theorem witness_dspRun : ∃ (s : State) (p : Nat), s.Inv ∧ s.live p = true :=
  ⟨at0 [], 0, inv_of (by decide +kernel), by decide +kernel⟩
theorem witness_taskIssue : ∃ (s : State) (k : Nat) (p : Nat) (c : Cand) (lc : Nat) (g : Graph) (r : StepRun), s.Inv ∧ k < 12 ∧
    (s.issueLast + 1 + k) % 12 = p ∧ (∀ j, j < k → s.nextIssue ((s.issueLast + 1 + j) % 12) = none) ∧ s.nextIssue p = some (c,
    .core lc false) ∧ s.graph? p c.tag = some g ∧ g.run = some r ∧ emptySlice (g.desc c.node) r.rows = false :=
  ⟨issuing, 0, 0, ⟨0, 0, 0, 0, 0⟩, 0, graph [copyDesc], stepRun, inv_of (by decide +kernel), by decide +kernel⟩
theorem witness_arraysFinish : ∃ (s : State) (c : Nat) (k : Task) (x : TaskPart), s.Inv ∧ s.inSlot c 2 = some (k, x) ∧ s.slotFree c 3
    = true ∧ x.done = false :=
  ⟨tasking (aTask 1 2), 0, aTask 1 2, ⟨0, some 0, 2, false⟩, inv_of (by decide +kernel), by decide +kernel⟩
theorem witness_linkBufferHandover : ∃ (s : State) (c : Nat) (l : Nat) (full : Nat → RF) (empty : Nat → RF), s.Inv ∧ l < 6 ∧ (l = 4 →
    s.var.affine = false) ∧ ((s.tasks.any fun t => t.parts.any fun x => x.core == some c && 1 ≤ x.slot && x.slot ≤ 3) = true) ∧
    (∀ m, full m = ⟨Rg.CORE_SEM_LINK_0 (s.physCore c) + 8 * m, 0, 4⟩) ∧ (∀ m, empty m = ⟨Rg.CORE_SEM_LINK_0 (s.physCore c) + 8 *
    m, 4, 4⟩) :=
  ⟨tasking (aTask 1 2), 0, 0, _, _, inv_of (by decide +kernel), by decide +kernel, by decide +kernel, by decide +kernel, fun _ =>
    rfl, fun _ => rfl⟩
theorem witness_arrayRampDown : ∃ (s : State) (c : Nat) (pc : Nat) (busy : Nat), s.Inv ∧ s.physCore c = pc ∧ (busy = if (s.inSlot c
    2).isSome then s.fd (Rg.CORE_ARR_STATE_ACTIVE pc) else 0) :=
  ⟨at0 [], 0, 0, 0, inv_of (by decide +kernel), by decide +kernel⟩
theorem witness_mcastBlockRead : ∃ (s : State) (g : Nat) (x : Mcast), s.mcasts[g]? = some x ∧ x.members ≠ [] ∧ (∀ z ∈ x.members,
    z.blocks < 64) ∧ x.read < blocksOf x.len 32768 :=
  ⟨{ at0 [] with mcasts := [⟨0, 0, 0, 65536, 0, 0, 0, [⟨0, [1], 0⟩], 0⟩] }, 0, ⟨0, 0, 0, 65536, 0, 0, 0, [⟨0, [1], 0⟩], 0⟩,
    by decide +kernel⟩
theorem witness_taskComplete : ∃ (s : State) (n : Nat) (k : Task), s.task? n = some k :=
  ⟨tasking (aTask 1 2), 1, aTask 1 2, by decide +kernel⟩
theorem witness_ctlDone : ∃ (s : State) (v : W64) (c : Nat) (st : Nat), s.Inv ∧ bitsOf v.toNat 0 32 = c ∧ bitsOf v.toNat 32 8 = st :=
  ⟨at0 [], 1, 1, 0, inv_of (by decide +kernel), by decide +kernel⟩
theorem witness_poolRecompute : ∃ (s : State) (p : Nat) (bp : Nat) (bs : Nat) (c : Nat), s.defined p = true ∧ s.poolTokens p 0 = bp ∧
    s.poolTokens p 1 = bs ∧ (s.onCores p).length = c :=
  ⟨at0 [], 0, 0, 0, 1, by decide +kernel⟩
theorem witness_submit : ∃ (s : State) (p : Nat) (b : Bytes) (u : State), s.Inv ∧ s.SqHas p 1 b u :=
  ⟨ledgered 1, 0, recOp 1, readOf (ledgered 1), inv_of (by decide +kernel), ⟨0, by decide +kernel, some_of (by decide +kernel),
    by decide +kernel⟩⟩
theorem witness_cancel : ∃ (s : State) (p : Nat) (i : Nat) (b : Bytes) (u : State), s.Inv ∧ s.SqFor p 2 i b u :=
  ⟨ledgered 2, 0, 0, recOp 2, readOf (ledgered 2), inv_of (by decide +kernel), ⟨⟨0, by decide +kernel, some_of
    (by decide +kernel), by decide +kernel⟩, by decide +kernel, by decide +kernel, by decide +kernel, by decide +kernel⟩⟩
theorem witness_extend : ∃ (s : State) (p : Nat) (i : Nat) (b : Bytes) (u : State) (len : Nat), s.Inv ∧ s.SqFor p 3 i b u ∧ fieldAt b
    28 4 = len ∧ (s.ent i).extendBad len = 0 :=
  ⟨ledgered 3, 0, 0, recOp 3, readOf (ledgered 3), 64, inv_of (by decide +kernel), ⟨⟨0, by decide +kernel, some_of
    (by decide +kernel), by decide +kernel⟩, by decide +kernel, by decide +kernel, by decide +kernel, by decide +kernel⟩,
    by decide +kernel⟩
theorem witness_pause : ∃ (s : State) (p : Nat) (i : Nat) (b : Bytes) (u : State), s.Inv ∧ s.SqFor p 4 i b u :=
  ⟨ledgered 4, 0, 0, recOp 4, readOf (ledgered 4), inv_of (by decide +kernel), ⟨⟨0, by decide +kernel, some_of
    (by decide +kernel), by decide +kernel⟩, by decide +kernel, by decide +kernel, by decide +kernel, by decide +kernel⟩⟩
theorem witness_resume : ∃ (s : State) (p : Nat) (i : Nat) (b : Bytes) (u : State), s.Inv ∧ s.SqFor p 5 i b u :=
  ⟨ledgered 5, 0, 0, recOp 5, readOf (ledgered 5), inv_of (by decide +kernel), ⟨⟨0, by decide +kernel, some_of
    (by decide +kernel), by decide +kernel⟩, by decide +kernel, by decide +kernel, by decide +kernel, by decide +kernel⟩⟩
theorem witness_release : ∃ (s : State) (p : Nat) (i : Nat) (b : Bytes) (u : State), s.Inv ∧ s.SqFor p 6 i b u :=
  ⟨ledgered 6, 0, 0, recOp 6, readOf (ledgered 6), inv_of (by decide +kernel), ⟨⟨0, by decide +kernel, some_of
    (by decide +kernel), by decide +kernel⟩, by decide +kernel, by decide +kernel, by decide +kernel, by decide +kernel⟩⟩
theorem witness_finish : ∃ (s : State) (p : Nat) (i : Nat) (b : Bytes) (u : State), s.Inv ∧ s.SqFor p 7 i b u :=
  ⟨ledgered 7, 0, 0, recOp 7, readOf (ledgered 7), inv_of (by decide +kernel), ⟨⟨0, by decide +kernel, some_of
    (by decide +kernel), by decide +kernel⟩, by decide +kernel, by decide +kernel, by decide +kernel, by decide +kernel⟩⟩
theorem witness_ledgerStepTrigger : ∃ (s : State) (p : Nat) (tag : Nat) (g : Graph), s.live p = true ∧ s.graph? p tag = some g ∧
    (s.schedOf p tag).taken ≠ [] ∧ (s.schedOf p tag).openSince = none ∧ g.idle = true ∧ s.endHeld p tag = false ∧ (∀ r, g.run =
    some r → r.settled = true) :=
  ⟨taking, 0, 0, { graph [] with run := none }, by decide +kernel, by decide +kernel, by decide +kernel, by decide +kernel,
    by decide +kernel, by decide +kernel, fun r h => nomatch h⟩
theorem witness_stepSettle : ∃ (s : State) (p : Nat) (tag : Nat) (g : Graph) (r : StepRun) (te : Nat), s.live p = true ∧ s.graph? p
    tag = some g ∧ g.run = some r ∧ r.endAt = some te ∧ r.source = 0 :=
  ⟨of0 [] fun q => { q with graphs := [(0, { graph [] with run := some { stepRun with endAt := some 0 } })] }, 0, 0, { graph []
    with run := some { stepRun with endAt := some 0 } }, { stepRun with endAt := some 0 }, 0, by decide +kernel⟩
theorem witness_gatePass : ∃ (s : State) (e : Nat) (p : Nat), s.ledgerOwner e = p ∧ s.live p = true :=
  ⟨ledgered 1, 0, 0, by decide +kernel⟩
theorem witness_batchWindowExpiry : ∃ (s : State) (p : Nat) (tag : Nat) (since : Nat) (g : Graph), s.Inv ∧ s.graph? p tag = some g ∧
    s.live p = true ∧ (s.schedOf p tag).openSince = some since :=
  ⟨batching, 0, 0, 0, { graph [] with run := none }, inv_of (by decide +kernel), by decide +kernel⟩
theorem witness_batchDeadlineClose : ∃ (s : State) (p : Nat) (tag : Nat) (g : Graph), s.Inv ∧ s.graph? p tag = some g ∧ s.live p =
    true ∧ (s.schedOf p tag).openSince.isSome = true ∧ ((s.schedOf p tag).taken.foldl (fun m t => min m (s.ent t.entry).deadline)
    noTime ≠ noTime) :=
  ⟨batching, 0, 0, { graph [] with run := none }, inv_of (by decide +kernel), by decide +kernel⟩
theorem witness_ldgSqTailWrite : ∃ (s : State) (p : Nat) (v : W64) (n : Nat) (d : Nat) (cur : Nat), s.Inv ∧ s.defined p = true ∧
    bitsOf v.toNat 0 32 = n ∧ (n + 4294967296 - s.fd (Rg.LDG_SQ_HEAD_HEAD p)) % 4294967296 = d ∧ (s.fd (Rg.LDG_SQ_TAIL_TAIL p) +
    4294967296 - s.fd (Rg.LDG_SQ_HEAD_HEAD p)) % 4294967296 = cur :=
  ⟨at0 [], 0, 1, 1, 1, 0, inv_of (by decide +kernel), by decide +kernel⟩
theorem witness_ldgRqHeadWrite : ∃ (s : State) (p : Nat), s.Inv ∧ s.defined p = true :=
  ⟨at0 [], 0, inv_of (by decide +kernel), by decide +kernel⟩
theorem witness_ldgEntryRead : ∃ (s : State) (p : Nat), s.Inv ∧ s.defined p = true :=
  ⟨ledgered 1, 0, inv_of (by decide +kernel), by decide +kernel⟩
theorem witness_budgetEnter : ∃ (s : State) (p : Nat), s.Inv ∧ s.live p = true ∧ s.budgeting p = false ∧ s.waiting p ≠ [] :=
  ⟨ledgered 2, 0, inv_of (by decide +kernel), by decide +kernel⟩
theorem witness_budgetLeave : ∃ (s : State) (p : Nat), s.Inv ∧ s.live p = true ∧ s.budgeting p = true ∧ (∀ j e, (j, e) ∈ s.waiting p
    → s.time.dev ≤ e.qtime + s.overload p / 2) :=
  ⟨at0 [(Rg.LDG_CTRL_BUDGET 0, 1)], 0, inv_of (by decide +kernel), by decide +kernel, by decide +kernel, fun j e h => absurd
    (show (j, e) ∈ ([] : List (Nat × Entry)) from (by decide +kernel : (at0 [(Rg.LDG_CTRL_BUDGET 0, 1)]).waiting 0 = []) ▸ h)
    (by simp)⟩
theorem witness_pressureBegin : ∃ (s : State) (p : Nat) (d : Nat) (ds : List Nat), s.Inv ∧ s.pressureTimes p = d :: ds ∧ s.live p =
    true :=
  ⟨ledgered 2, 0, _, _, inv_of (by decide +kernel), rfl, by decide +kernel⟩
theorem witness_pressureEnd : ∃ (s : State) (p : Nat), s.live p = true ∧ s.pressure p = false ∧ (∀ k e, (k, e) ∈ s.entsOf p → (s.ent
    k).state ≠ 0) :=
  ⟨at0 [], 0, by decide +kernel, by decide +kernel, fun k e h => absurd (show (k, e) ∈ ([] : List (Nat × Entry)) from
    (by decide +kernel : (at0 []).entsOf 0 = []) ▸ h) (by simp)⟩
theorem witness_deadlinePass : ∃ (s : State) (e : Nat) (p : Nat), e < 4294967296 ∧ s.ledgerOwner e = p ∧ s.live p = true ∧ (s.ent
    e).deadline ≠ noTime ∧ ((s.ent e).state = 1 ∨ (s.ent e).state = 2 ∨ (s.ent e).state = 4) ∧ bitOf (s.ent e).marks 2 = false :=
  ⟨ledgered 2, 0, 0, by decide +kernel⟩
theorem witness_adpBind : ∃ (s : State) (p : Nat), s.Inv ∧ s.defined p = true :=
  ⟨at0 [], 0, inv_of (by decide +kernel), by decide +kernel⟩
theorem witness_adpUnbind : ∃ (s : State) (p : Nat), s.Inv ∧ s.defined p = true :=
  ⟨at0 [], 0, inv_of (by decide +kernel), by decide +kernel⟩
theorem witness_adpPublish : ∃ (s : State) (p : Nat) (slot : Nat), s.Inv ∧ s.defined p = true ∧ slot < s.adQuota p ∧ (s.adSlot p
    slot).customer ≠ none ∧ s.fd (Rg.ADP_AREA_BASE p) ≠ 0 :=
  ⟨of0 [(Rg.ADP_AREA_BASE 0, 4096)] fun q => { q with adapters := [(0, ⟨some 1, 0, 0, []⟩)] }, 0, 0, inv_of (by decide +kernel),
    by decide +kernel⟩
theorem witness_adpAreaWrite : ∃ (s : State) (p : Nat), s.Inv ∧ s.defined p = true :=
  ⟨at0 [], 0, inv_of (by decide +kernel), by decide +kernel⟩
theorem witness_dataFrameReceive : ∃ (s : State) (n : Nat) (w : WireFrame) (f : Frame) (u : State), s.Inv ∧ s.frameIn n w = (some f,
    u) ∧ f.type = 1 :=
  ⟨ported, 0, wire (dataFrame), dataFrame, _, inv_of (by decide +kernel), some_of (by decide +kernel), by decide +kernel⟩
theorem witness_ackReceive : ∃ (s : State) (n : Nat) (w : WireFrame) (f : Frame) (u : State) (k : Nat) (x : TxFlow) (ack : Nat) (lim
    : Nat), s.frameIn n w = (some f, u) ∧ f.type = 2 ∧ s.txNamed f = some (k, x) ∧ fieldAt f.payload 0 4 = ack ∧ fieldAt
    f.payload 4 4 = lim :=
  ⟨ported, 0, wire (ackFrame), ackFrame, _, 0, txFlow, 0, 0, some_of (by decide +kernel), by decide +kernel⟩
theorem witness_helloRequestReceive : ∃ (s : State) (n : Nat) (w : WireFrame) (f : Frame) (u : State), s.Inv ∧ s.frameIn n w = (some
    f, u) ∧ f.type = 4 ∧ fieldAt f.payload 1 1 = 0 :=
  ⟨ported, 0, wire (helloFrame 0), helloFrame 0, _, inv_of (by decide +kernel), some_of (by decide +kernel), by decide +kernel⟩
theorem witness_helloReplyReceive : ∃ (s : State) (n : Nat) (w : WireFrame) (f : Frame) (u : State) (k : Nat) (x : TxFlow), s.Inv ∧
    s.frameIn n w = (some f, u) ∧ f.type = 4 ∧ fieldAt f.payload 1 1 ≠ 0 ∧ s.txNamed f = some (k, x) :=
  ⟨ported, 0, wire (helloFrame 1), helloFrame 1, _, 0, txFlow, inv_of (by decide +kernel), some_of (by decide +kernel),
    by decide +kernel⟩
theorem witness_abortReceive : ∃ (s : State) (n : Nat) (w : WireFrame) (f : Frame) (u : State) (p : Nat) (key : Nat × Nat × Nat ×
    Nat), s.Inv ∧ s.frameIn n w = (some f, u) ∧ f.type = 3 ∧ f.dpart = p ∧ key = (p, fieldAt f.payload 0 2, fieldAt f.payload 2
    1, fieldAt f.payload 4 4) :=
  ⟨ported, 0, wire (abortFrame), abortFrame, _, 0, _, inv_of (by decide +kernel), some_of (by decide +kernel), by decide +kernel,
    by decide +kernel, rfl⟩
theorem witness_abortResend : ∃ (s : State) (c : AbortCopy) (r : List AbortCopy), s.coach.copies = c :: r :=
  ⟨{ ported with coach := { State.reset.coach with copies := [⟨0, 0, abortFrame⟩] } }, ⟨0, 0, abortFrame⟩, [], by decide +kernel⟩
theorem witness_frameTransmit : ∃ (s : State) (n : Nat), s.Inv ∧ s.portUp n = true :=
  ⟨ported, 0, inv_of (by decide +kernel), by decide +kernel⟩
theorem witness_rtoExpiry : ∃ (s : State) (k : Nat) (psn : Nat) (x : TxFlow) (u : TxFrame), s.Inv ∧ s.tx? k = some x ∧
    (x.unacked.find? (fun u => u.frame.psn == psn && u.sent) = some u) ∧ u.tries + 1 < s.retryMax :=
  ⟨sending, 0, 0, sendFlow, ⟨dataFrame, 0, 0, 0, false, true⟩, inv_of (by decide +kernel), by decide +kernel⟩
theorem witness_helloResendExpiry : ∃ (s : State) (k : Nat) (x : TxFlow), s.tx? k = some x ∧ x.opened = false ∧ x.hellos < s.retryMax :=
  ⟨ported, 0, txFlow, by decide +kernel⟩
theorem witness_ackDelayExpiry : ∃ (s : State) (k : Nat) (x : RxFlow) (a : Nat), s.rx? k = some x ∧ x.oldestAt = some a :=
  ⟨{ ported with coach := { State.reset.coach with rx := [(0, rxFlow)] } }, 0, rxFlow, 0, by decide +kernel⟩
theorem witness_flowOpenResume : ∃ (s : State) (kind : Nat) (n : Nat) (c : Nat) (r : List (Nat × Nat × Nat)), s.coach.opens = (kind,
    n, c) :: r :=
  ⟨{ ported with coach := { State.reset.coach with opens := [(0, 1, 2)] } }, 0, 1, 2, [], by decide +kernel⟩
theorem witness_portDetect : ∃ (s : State) (n : Nat), s.Inv ∧ n < s.var.ports ∧ s.portState n = 0 ∧ s.on (Rg.CCH_PORT_STATUS_PRESENT
    n) = true ∧ s.portsMayTrain = true :=
  ⟨{ at0 [(Rg.CCH_PORT_STATUS_PRESENT 0, 1)] with loaded := some ⟨1, 1, 1, [], [], []⟩ }, 0, inv_of (by decide +kernel),
    by decide +kernel⟩
theorem witness_portTrained : ∃ (s : State) (n : Nat), s.Inv ∧ n < s.var.ports ∧ s.portState n = 1 :=
  ⟨at0 [(Rg.CCH_PORT_STATUS_STATE 0, 1)], 0, inv_of (by decide +kernel), by decide +kernel⟩
theorem witness_portTrainFail : ∃ (s : State) (n : Nat) (c : Nat), s.Inv ∧ n < s.var.ports ∧ s.portState n = 1 ∧ min (s.fd
    (Rg.CCH_PORT_STATUS_TRAIN_FAILS n) + 1) 255 = c :=
  ⟨at0 [(Rg.CCH_PORT_STATUS_STATE 0, 1)], 0, 1, inv_of (by decide +kernel), by decide +kernel⟩
theorem witness_portFailedRetry : ∃ (s : State) (n : Nat), s.Inv ∧ n < s.var.ports ∧ s.portState n = 4 :=
  ⟨at0 [(Rg.CCH_PORT_STATUS_STATE 0, 4)], 0, inv_of (by decide +kernel), by decide +kernel⟩
theorem witness_portEnableWrite : ∃ (s : State) (n : Nat) (v : W64) (w : Nat), s.Inv ∧ n < s.var.ports ∧ v.toNat = w ∧ (∀ e ∈
    s.coach.tx, e.2.port ≠ n) :=
  ⟨at0 [], 0, 0, 0, inv_of (by decide +kernel), by decide +kernel⟩
theorem witness_portLinkLoss : ∃ (s : State) (n : Nat) (us : Nat), s.Inv ∧ n < s.var.ports ∧ s.portState n = 3 ∧ s.fd
    Rg.CCH_XPORT_CFG_DOWN_US ≤ us ∧ (∀ e ∈ s.coach.tx, e.2.port ≠ n) :=
  ⟨at0 [(Rg.CCH_PORT_STATUS_STATE 0, 3)], 0, 1000000, inv_of (by decide +kernel), by decide +kernel⟩
theorem witness_portSignalLoss : ∃ (s : State) (n : Nat), s.Inv ∧ n < s.var.ports ∧ s.portState n ≠ 0 ∧ s.portState n ≠ 3 ∧ (∀ e ∈
    s.coach.tx, e.2.port ≠ n) :=
  ⟨at0 [(Rg.CCH_PORT_STATUS_STATE 0, 2)], 0, inv_of (by decide +kernel), by decide +kernel⟩
theorem witness_pageWalk : ∃ (s : State) (t : Nat) (part : Nat) (entry : Nat) (layer : Nat) (head : Nat) (blk : Nat) (half : Nat) (k
    : Task) (x : TaskPart) (list : Nat) (v : Nat), s.Inv ∧ s.task? t = some k ∧ ((k.parts.find? fun x => x.idx == part) = some x)
    ∧ x.core.isSome = true ∧ (1 ≤ x.slot ∧ x.slot ≤ 3) ∧ x.done = false ∧ ((s.walks.any fun w => w.task == t && w.part == part) =
    false) ∧ s.ledgerOwner entry = k.part ∧ (x.slot = 1 → s.stagedRoom x.coreN = true) ∧ ((find (fun _ => Entry.free) s.ledger
    entry).pageList = list) ∧ leNat (s.devRead k.part 0 ((s.hdrNow k.part list).slotAddr list layer head blk half) 4).data = v :=
  ⟨walking, 1, 0, 0, 0, 0, 0, 0, aTask 2 2, ⟨0, some 0, 2, false⟩, 4096, 0, inv_of (by decide +kernel), by decide +kernel⟩
theorem witness_pinWaitResume : ∃ (s : State) (t : Nat) (page : Nat) (w : WalkWait), ((s.walks.find? fun w => w.task == t && w.page
    == page) = some w) :=
  ⟨{ tasking (aTask 1 2) with walks := [⟨1, 0, 5, 0, 0, 0⟩] }, 1, 5, ⟨1, 0, 5, 0, 0, 0⟩, by decide +kernel⟩
theorem witness_pageRef : ∃ (s : State) (p : Nat), s.Inv ∧ s.defined p = true :=
  ⟨at0 [], 0, inv_of (by decide +kernel), by decide +kernel⟩
theorem witness_pageUnref : ∃ (s : State) (p : Nat), s.Inv ∧ s.defined p = true :=
  ⟨at0 [], 0, inv_of (by decide +kernel), by decide +kernel⟩
theorem witness_pageRead : ∃ (s : State) (p : Nat), s.Inv ∧ s.defined p = true :=
  ⟨at0 [], 0, inv_of (by decide +kernel), by decide +kernel⟩
theorem witness_pageLowWrite : ∃ (s : State) (p : Nat), s.Inv ∧ s.defined p = true :=
  ⟨at0 [], 0, inv_of (by decide +kernel), by decide +kernel⟩
theorem witness_memSlotGrant : ∃ (s : State) (n : Nat) (turn : Nat) (c : MemCtl), s.Inv ∧ n < s.var.channels ∧ s.memCtl n = c ∧
    ((find (fun _ => 0) c.pos 15 + 1) % 1024 = turn) :=
  ⟨at0 [], 0, 1, MemCtl.init, inv_of (by decide +kernel), by decide +kernel⟩
theorem witness_repairWrite : ∃ (s : State) (r : Repair) (q : List Repair) (c : Nat) (d : Bytes), s.Inv ∧ s.ecc.repairQ = r :: q ∧
    s.decodeLine r.line = (c, d) :=
  ⟨{ at0 [] with ecc := { State.reset.ecc with repairQ := [⟨0, false⟩] } }, ⟨0, false⟩, [], _, _, inv_of (by decide +kernel),
    by decide +kernel, Prod.mk.eta.symm⟩
theorem witness_scrubRead : ∃ (s : State) (n : Nat) (l : Nat) (c : Nat) (d : Bytes), s.Inv ∧ s.phase = .running ∧ s.ecc.scrubNext %
    s.allLines = n ∧ s.scrubLine n = l ∧ s.decodeLine l = (c, d) :=
  ⟨at0 [], 0, _, _, _, inv_of (by decide +kernel), by decide +kernel, by decide +kernel, rfl, Prod.mk.eta.symm⟩
theorem witness_writeQueueResume : ∃ (s : State) (n : Nat) (w : WaitWrite) (r : List WaitWrite), s.Inv ∧ (s.memCtl n).wait = w :: r :=
  ⟨{ at0 [] with ecc := { State.reset.ecc with ctls := [(0, { MemCtl.init with wait := [⟨0, 0, [1]⟩] })] } }, 0, ⟨0, 0, [1]⟩, [],
    inv_of (by decide +kernel), by decide +kernel⟩
theorem witness_regRd : ∃ (s : State) (a : Nat) (tag : Nat) (u : State), s.Inv ∧ s.lrlActive = true ∧ (s.takeMsg (fun m => m.mtype ==
    0x01 && m.tag == tag && m.addr == a) = u) :=
  ⟨linked [], 0, 0, _, inv_of (by decide +kernel), by decide +kernel, rfl⟩
theorem witness_regWr : ∃ (s : State) (a : Nat) (tag : Nat) (u : State), s.Inv ∧ s.lrlActive = true ∧ (s.takeMsg (fun m => m.mtype ==
    0x02 && m.tag == tag && m.addr == a) = u) :=
  ⟨linked [], 0, 0, _, inv_of (by decide +kernel), by decide +kernel, rfl⟩
theorem witness_doorbell : ∃ (s : State) (a : Nat) (u : State), s.Inv ∧ s.lrlActive = true ∧ (s.takeMsg (fun m => m.mtype == 0x04 &&
    m.addr == a) = u) :=
  ⟨linked [], 0, _, inv_of (by decide +kernel), by decide +kernel, rfl⟩
theorem witness_chnOpen : ∃ (s : State) (p : Nat) (o : Option Bytes) (u : State), s.Inv ∧ s.defined p = true ∧ s.blk p (s.fd
    (Rg.CHN_CMD_ADDR_ADDR p)) 64 = (o, u) :=
  ⟨at0 [], 0, _, _, inv_of (by decide +kernel), by decide +kernel, rfl⟩
theorem witness_chnClose : ∃ (s : State) (p : Nat), s.Inv ∧ s.defined p = true :=
  ⟨at0 [], 0, inv_of (by decide +kernel), by decide +kernel⟩
theorem witness_endpointFree : ∃ (s : State) (h : Nat) (e : Endpoint), s.Inv ∧ find? s.endpoints h = some e :=
  ⟨chan [], 4, endpoint, inv_of (by decide +kernel), by decide +kernel⟩
theorem witness_epHeadWrite : ∃ (s : State) (p : Nat) (e : Endpoint), s.Inv ∧ s.defined p = true ∧ find? s.endpoints (s.fd
    (Rg.CHN_EP_SEL_HANDLE p)) = some e :=
  ⟨chan [(Rg.CHN_EP_SEL_HANDLE 0, 4)], 0, endpoint, inv_of (by decide +kernel), by decide +kernel⟩
theorem witness_chnAppend : ∃ (s : State) (p : Nat) (n : Nat) (v : W64) (x : Send), s.Inv ∧ s.hasPort p n = true ∧ bitsOf v.toNat 0 2
    = 0 ∧ s.sendOf p n v = x :=
  ⟨at0 [], 0, 0, 0, _, inv_of (by decide +kernel), by decide +kernel, by decide +kernel, rfl⟩
theorem witness_chnPutAt : ∃ (s : State) (p : Nat) (n : Nat) (v : W64) (x : Send), s.Inv ∧ s.hasPort p n = true ∧ bitsOf v.toNat 0 2
    = 1 ∧ s.sendOf p n v = x :=
  ⟨at0 [], 0, 0, 1, _, inv_of (by decide +kernel), by decide +kernel, by decide +kernel, rfl⟩
theorem witness_chnContrib : ∃ (s : State) (p : Nat) (n : Nat) (v : W64) (x : Send), s.Inv ∧ s.hasPort p n = true ∧ bitsOf v.toNat 0
    2 = 2 ∧ s.sendOf p n v = x :=
  ⟨at0 [], 0, 0, 2, _, inv_of (by decide +kernel), by decide +kernel, by decide +kernel, rfl⟩
theorem witness_messageLand : ∃ (s : State) (h : Nat) (l : Landing), s.Inv ∧ ((s.landings.find? fun l => l.ep == h) = some l) :=
  ⟨{ at0 [] with landings := [landing] }, 4, landing, inv_of (by decide +kernel), by decide +kernel⟩
theorem witness_sendSpill : ∃ (s : State) (p : Nat) (n : Nat) (x : Send) (e : Endpoint) (w : Nat), s.Inv ∧ s.SpillDue p n x e w :=
  ⟨spilling, 0, 0, oneSend, { endpoint with group := 0, ringLog2 := 12, wtail := 4096 }, 0, inv_of (by decide +kernel),
    ⟨⟨by decide +kernel, by decide +kernel⟩, by decide +kernel, by decide +kernel, by decide +kernel, by decide +kernel,
    by decide +kernel, by decide +kernel, by decide +kernel⟩⟩
theorem witness_selNext : ∃ (s : State) (p : Nat) (g : Nat), s.Inv ∧ s.defined p = true ∧ g < 64 :=
  ⟨at0 [], 0, 63, inv_of (by decide +kernel), by decide +kernel⟩
theorem witness_selDone : ∃ (s : State) (p : Nat) (g : Nat) (v : W64) (ep : Nat) (sp : Bool), s.Inv ∧ s.defined p = true ∧ g < 64 ∧
    bitsOf v.toNat 0 12 = ep ∧ bitOf v.toNat 12 = sp :=
  ⟨at0 [], 0, 63, 4, 4, false, inv_of (by decide +kernel), by decide +kernel⟩
theorem witness_churnAdd : ∃ (s : State) (q : Nat) (c : Churn) (n : Nat) (a : Nat) (r : List (Nat × Nat × Option Nat)) (x : Send) (v
    : Bytes) (u : State), s.Inv ∧ s.ChurnTakes q c n a r x ∧ s.churnReads q c n a r = (some v, u) :=
  ⟨churning, 0, { churn with waiting := [(0, 0, none)] }, 0, 0, [], { oneSend with wait := none }, (State.churnReads churning 0 {
    churn with waiting := [(0, 0, none)] } 0 0 []).1.get (by decide +kernel), _, inv_of (by decide +kernel), ⟨by decide +kernel,
    by decide +kernel, by decide +kernel, by decide +kernel, by decide +kernel⟩, some_get _⟩
theorem witness_churnNoticePlace : ∃ (s : State) (q : Nat) (c : Churn) (b : Bytes), s.Inv ∧ find? s.churns q = some c ∧ c.notice =
    some b ∧ c.received < c.count :=
  ⟨{ at0 [] with churns := [(0, { churn with notice := some [1] })] }, 0, { churn with notice := some [1] }, [1], inv_of
    (by decide +kernel), by decide +kernel⟩
theorem witness_gemmTask : ∃ (s : State) (n : Nat) (k : Task) (x : TaskPart) (q : Gemm), s.Inv ∧ s.GemmWorks n k x q :=
  ⟨working 1 gemmDesc, 1, aTask 1 2, ⟨0, some 0, 2, false⟩, _, inv_of (by decide +kernel), ⟨⟨graph [gemmDesc],
    ⟨by decide +kernel, by decide +kernel, by decide +kernel, by decide +kernel, by decide +kernel⟩, rfl⟩, by decide +kernel⟩⟩
theorem witness_vecTask : ∃ (s : State) (n : Nat) (k : Task) (x : TaskPart) (g : Graph) (is : List Bytes) (xs : List Bytes) (u :
    State) (b : VBuf) (f : Fetch) (bad : Nat), s.Inv ∧ s.TaskWorks n 3 0 k x g ∧ s.vecReads n k (g.desc k.node) is xs u ∧
    vecLoads k.part (u.physCore x.coreN) (vecBind (g.desc k.node) k.rows) xs u = (b, f, bad) :=
  ⟨working 3 vecDesc, 1, aTask 3 2, ⟨0, some 0, 2, false⟩, graph [vecDesc], _, _, _, _, _, _, inv_of (by decide +kernel),
    ⟨by decide +kernel, by decide +kernel, by decide +kernel, by decide +kernel, by decide +kernel⟩, ⟨_, _, _, some_of (a := [])
    (by decide +kernel), if_pos (by decide +kernel), rfl, rfl⟩, pair3 _⟩
theorem witness_copyTask : ∃ (s : State) (n : Nat) (k : Task) (x : TaskPart) (g : Graph) (ls : List Line) (f : Fetch), s.Inv ∧
    s.TaskWorks n 4 0 k x g ∧ Fetch.gets ⟨false, 0, s⟩ k.part (fieldAt (g.desc k.node) 52 4) (copyFrom (g.desc k.node) k.rows) =
    (ls, f) :=
  ⟨working 4 copyDesc, 1, aTask 4 2, ⟨0, some 0, 2, false⟩, graph [copyDesc], _, _, inv_of (by decide +kernel),
    ⟨by decide +kernel, by decide +kernel, by decide +kernel, by decide +kernel, by decide +kernel⟩, Prod.mk.eta.symm⟩
theorem witness_attnForward : ∃ (s : State) (n : Nat) (j : Nat) (c : AttnCtx) (u : State), s.Inv ∧ s.AttnWorks n j 1 c u :=
  ⟨attending 1, 1, 0, ((attending 1).attnCtx 1 0).1.get (by decide +kernel), _, inv_of (by decide +kernel), ⟨some_get _,
    by decide +kernel, by decide +kernel⟩⟩
theorem witness_attnBackward : ∃ (s : State) (n : Nat) (j : Nat) (c : AttnCtx) (u : State), s.AttnWorks n j 2 c u :=
  ⟨attending 2, 1, 0, ((attending 2).attnCtx 1 0).1.get (by decide +kernel), _, ⟨some_get _, by decide +kernel, by decide +kernel⟩⟩
theorem witness_attnVerify : ∃ (s : State) (n : Nat) (c : AttnCtx) (u : State), s.AttnWorks n 0 3 c u :=
  ⟨attending 3, 1, ((attending 3).attnCtx 1 0).1.get (by decide +kernel), _, ⟨some_get _, by decide +kernel, by decide +kernel⟩⟩
theorem witness_skimEncode : ∃ (s : State) (n : Nat) (c : SkimCtx) (x : Elems) (f : Fetch), s.Inv ∧ s.SkimWorks n 1 c ∧ c.dense s =
    (x, f) :=
  ⟨working 7 (skimDesc 1), 1, ⟨aTask 7 2, slice (skimDesc 1) 32 48, FmtWord.ofNat 0, 0, 0, 0⟩, _, _, inv_of (by decide +kernel),
    ⟨rfl, by decide +kernel, by decide +kernel, by decide +kernel⟩, Prod.mk.eta.symm⟩
theorem witness_skimDecode : ∃ (s : State) (n : Nat) (c : SkimCtx) (ts : List Tile) (f : Fetch), s.Inv ∧ s.SkimWorks n 2 c ∧
    Fetch.tiles ⟨false, 0, s⟩ (directly c.k.part) c.w.fmt c.w.sgn (fieldAt c.b 16 8) c.n c.len = (ts, f) :=
  ⟨working 7 (skimDesc 2), 1, ⟨aTask 7 2, slice (skimDesc 2) 32 48, FmtWord.ofNat 0, 0, 0, 0⟩, _, _, inv_of (by decide +kernel),
    ⟨rfl, by decide +kernel, by decide +kernel, by decide +kernel⟩, Prod.mk.eta.symm⟩
theorem witness_skimCheck24 : ∃ (s : State) (n : Nat) (c : SkimCtx) (x : Elems) (f : Fetch), s.Inv ∧ s.SkimWorks n 3 c ∧ c.dense s =
    (x, f) :=
  ⟨working 7 (skimDesc 3), 1, ⟨aTask 7 2, slice (skimDesc 3) 32 48, FmtWord.ofNat 0, 0, 0, 0⟩, _, _, inv_of (by decide +kernel),
    ⟨rfl, by decide +kernel, by decide +kernel, by decide +kernel⟩, Prod.mk.eta.symm⟩
theorem witness_skimmerTileServe : ∃ (s : State) (k : Nat) (r : TileReq), (s.cluster k).nextTile = some r :=
  ⟨{ at0 [] with clusters := [(0, { Cluster.init with skimQ := [⟨0, 1, 0, 0⟩] })] }, 0, ⟨0, 1, 0, 0⟩, by decide +kernel⟩
theorem witness_skmDisableWrite : ∃ (s : State) (k : Nat), s.Inv ∧ s.var.skimmer = true ∧ s.enabled.contains k = true :=
  ⟨at0 [], 0, inv_of (by decide +kernel), by decide +kernel⟩
theorem witness_xferWait : ∃ (s : State) (n : Nat) (k : Task) (b : Bytes), s.XferWorks n 0 k b :=
  ⟨xferWaited, 1, { aTask 5 5 with rep := [(0, 0, 0, 0)] }, blockOf xferWaited 5, ⟨by decide +kernel, by decide +kernel⟩⟩
theorem witness_xferWrite : ∃ (s : State) (n : Nat) (k : Task) (b : Bytes), s.XferWorks n 1 k b :=
  ⟨xfering 1, 1, aTask 5 5, blockOf (xfering 1) 5, ⟨by decide +kernel, by decide +kernel⟩⟩
theorem witness_xferShard : ∃ (s : State) (n : Nat) (k : Task) (b : Bytes) (hd : ListHdr) (ps : List (Nat × Nat × Nat × Nat)) (u :
    State), s.XferWorks n 2 k b ∧ s.ShardPages n k b hd ps u :=
  ⟨sharding, 1, aTask 5 5, blockOf sharding 5, ListHdr.ofBytes listAt, [], _, ⟨by decide +kernel, by decide +kernel⟩,
    ⟨by decide +kernel, ⟨_, ok_of (by decide +kernel), ok_of (by decide +kernel)⟩, by decide +kernel⟩⟩
theorem witness_xferAppend : ∃ (s : State) (n : Nat) (k : Task) (b : Bytes), s.XferWorks n 3 k b :=
  ⟨xfering 3, 1, aTask 5 5, blockOf (xfering 3) 5, ⟨by decide +kernel, by decide +kernel⟩⟩
theorem witness_xferPutAt : ∃ (s : State) (n : Nat) (k : Task) (b : Bytes), s.XferWorks n 4 k b :=
  ⟨xfering 4, 1, aTask 5 5, blockOf (xfering 4) 5, ⟨by decide +kernel, by decide +kernel⟩⟩
theorem witness_collContrib : ∃ (s : State) (n : Nat) (k : Task) (b : Bytes), s.portTask n 6 = some (k, b) ∧ fieldAt b 0 1 = 5 ∧
    k.stage = 0 :=
  ⟨colling 5, 1, aTask 6 5, blockOf (colling 5) 6, by decide +kernel⟩
theorem witness_collReduceScatter : ∃ (s : State) (n : Nat) (k : Task) (b : Bytes) (r : Nat), s.Inv ∧ s.CollWorks n 1 k b r :=
  ⟨colling 1, 1, aTask 6 5, blockOf (colling 1) 6, 0, inv_of (by decide +kernel), ⟨by decide +kernel, by decide +kernel,
    by decide +kernel, by decide +kernel⟩⟩
theorem witness_collAllGather : ∃ (s : State) (n : Nat) (k : Task) (b : Bytes) (r : Nat), s.Inv ∧ s.CollWorks n 2 k b r :=
  ⟨colling 2, 1, aTask 6 5, blockOf (colling 2) 6, 0, inv_of (by decide +kernel), ⟨by decide +kernel, by decide +kernel,
    by decide +kernel, by decide +kernel⟩⟩
theorem witness_collAllReduce : ∃ (s : State) (n : Nat) (k : Task) (b : Bytes) (r : Nat), s.Inv ∧ s.CollWorks n 3 k b r :=
  ⟨colling 3, 1, aTask 6 5, blockOf (colling 3) 6, 0, inv_of (by decide +kernel), ⟨by decide +kernel, by decide +kernel,
    by decide +kernel, by decide +kernel⟩⟩
theorem witness_collBarrier : ∃ (s : State) (n : Nat) (k : Task) (b : Bytes) (r : Nat), s.Inv ∧ s.CollWorks n 4 k b r :=
  ⟨colling 4, 1, aTask 6 5, blockOf (colling 4) 6, 0, inv_of (by decide +kernel), ⟨by decide +kernel, by decide +kernel,
    by decide +kernel, by decide +kernel⟩⟩
theorem witness_exportStart : ∃ (s : State) (e : Nat) (y : Entry), s.ExportWaits e y :=
  ⟨exporting, 0, { Entry.free with state := 5 }, ⟨by decide +kernel, by decide +kernel, by decide +kernel, by decide +kernel⟩⟩
theorem witness_inv_step : ∃ s t : State, s.Inv ∧ step s = .next t := ⟨State.reset, _, inv_of (by decide +kernel), rfl⟩
theorem witness_inv_exec : ∃ (c : Instr) (s t : State), s.Inv ∧ exec c s = .next t :=
  ⟨.coldReset, State.reset, _, inv_of (by decide +kernel), rfl⟩

end Sys2Proof.Tests
end

section
/-!
The statements of 01_architecture.md: every command completes, keeps its frame and leaves the queue as it is; the ends of tasks and
the dispatcher's rings; register accesses.
-/
namespace Sys2Proof.Machine

/-- The parts of the state in the order of their bits. -/
def Comp.inOrder : List Comp := [.free, .mem, .hostMem, .fuses, .latched, .flash, .pins, .phase, .warmDue, .loaded, .bundle, .power,
  .time, .ecc, .fltLog, .memLog, .larric, .pages, .walks, .ledger, .tasks, .taskNext, .issueLast, .cores, .clusters, .mcasts,
  .endpoints, .landings, .churns, .coach, .ctl, .service, .mgmt, .bus, .now, .settings, .pool, .life, .graphs, .holds, .sched,
  .chans, .slots, .reg .dev, .reg .pwr, .reg .img, .reg .sec, .reg .flt, .reg .svc, .reg .lrl, .reg .cch, .reg .mem, .reg .dsp,
  .reg .ldg, .reg .chn, .reg .adp, .reg .core, .reg .clu, .reg .cci, .reg .fltp, .anyReg]

theorem Comp.inOrder_idx (k : Comp) : Comp.inOrder[k.idx]? = some k := by
  cases k with
  | reg b => cases b <;> rfl
  | _ => rfl

/-- No two parts of the state have the same bit. -/
theorem Comp.idx_injective : Function.Injective Comp.idx := fun j k h =>
  Option.some.inj ((Comp.inOrder_idx j).symm.trans (h ▸ Comp.inOrder_idx k))

theorem testBit_maskOf (l : List Comp) (k : Comp) : (maskOf l).testBit k.idx = true ↔ k ∈ l := by
  induction l with
  | nil => simp [maskOf]
  | cons j l ih =>
    have cons : maskOf (j :: l) = 2 ^ j.idx ||| maskOf l := rfl
    rw [cons, Nat.testBit_or, Bool.or_eq_true, ih, Nat.testBit_two_pow, decide_eq_true_eq, Comp.idx_injective.eq_iff, List.mem_cons,
      eq_comm]

theorem testBit_maskOf_eq_false {l : List Comp} {k : Comp} (h : k ∉ l) : (maskOf l).testBit k.idx = false :=
  Bool.eq_false_iff.mpr (mt (testBit_maskOf l k).mp h)

/-- The relation with a list's bits bounds what changes by the list. -/
theorem State.Keeps.frameOf {l : List Comp} {s t : State} (h : s.Keeps (maskOf l) t) (i : s.Inv) : State.FrameOf l s t where
  same k hk := h.same k (testBit_maskOf_eq_false hk)
  regs hany a ha := h.regs i.regs.1 (testBit_maskOf_eq_false hany) a fun b hb => ha b ((testBit_maskOf l (.reg b)).mp hb)

/-- Every meaning is a `.next` of some state. -/
theorem exec_next (c : Instr) (s : State) : ∃ t, exec c s = .next t := by
  cases c <;> exact ⟨_, rfl⟩

/-- Settles O5: every command keeps the relation of Laws/Keeps.lean with the bits of its own list (`exec_keeps`), and the bits of a
list are those of its members alone. -/
theorem everyCommandKeepsItsFrame : Obligations.EveryCommandKeepsItsFrame := by
  intro c s t i e
  exact ⟨(exec_keeps e).frameOf i, (exec_keeps e).pending⟩

/-- Settles O7: each meaning answers a next state, and what every command keeps includes the queue. -/
theorem everyCommandCompletes : Obligations.EveryCommandCompletes := by
  intro c s
  obtain ⟨t, e⟩ := exec_next c s
  exact ⟨t, e, (exec_keeps e).pending⟩

/-- Settles O37, command by command from the laws of the issuing commands. -/
theorem completionAndRings : Obligations.CompletionAndRings :=
  ⟨taskComplete_spec, ctlDone_spec, cringHeadWrite_spec, cbHeadWrite_spec, poolRecompute_spec⟩

/-- Settles O48, command by command from the laws of the register accesses. -/
theorem registerAccesses : Obligations.RegisterAccesses :=
  ⟨regRd_spec, regWr_spec, doorbell_spec, registerWrite_spec, rcCounterRead_spec⟩

end Sys2Proof.Machine
end

section
/-!
The statements of 02_fabric_image.md: the image slot commands.
-/
namespace Sys2Proof.Machine

/-- Settles O23, command by command from the laws of the image slots: ERASE and COMMIT from what `State.imgShown` says a noted slot
shows, WRITE and RELOAD from the read of the window they share (`State.devRead_window`), RELOAD with `State.reload_result`. That
a command completes within its step is assumption 85 (not 40), and that RELOAD ignores IMG_XFER_OFFSET is assumption 123. -/
theorem imageSlotCommands : Obligations.ImageSlotCommands :=
  ⟨imgErase_spec, imgWrite_spec, imgCommit_spec, imgReload_spec⟩

end Sys2Proof.Machine
end

section
/-!
The statements of 03_number_formats.md: the NaN codes of the float formats, and the E8M0 scale byte.
-/
namespace Sys2Proof.Machine

/-! ### NaN codes (R79, R80) -/

/-- The NaN codes of a format, whatever the sign bit: the magnitudes above the largest finite one, the infinity's excepted. -/
theorem FloatFmt.decode_eq_nan_iff (f : FloatFmt) (x : Nat) :
    f.decode x = .nan ↔ f.maxFin < x % 2 ^ (f.width - 1) ∧ x % 2 ^ (f.width - 1) ≠ f.ovr := by
  unfold FloatFmt.decode
  by_cases hfin : x % 2 ^ (f.width - 1) ≤ f.maxFin
  · simp only [if_pos hfin, hfin.not_gt, false_and, iff_false]
    split <;> exact Num.noConfusion
  · by_cases hinf : x % 2 ^ (f.width - 1) = f.ovr
    · rw [hinf] at hfin ⊢
      simp [hfin]
    · simp [hfin, hinf, not_le.mp hfin]

theorem fp32_decode_eq_nan_iff (x : Nat) : fp32.decode x = .nan ↔ 0x7F800000 < x % 2 ^ 31 := by
  rw [FloatFmt.decode_eq_nan_iff]
  simp only [fp32]
  omega

theorem bf16_decode_eq_nan_iff (x : Nat) : bf16.decode x = .nan ↔ 0x7F80 < x % 2 ^ 15 := by
  rw [FloatFmt.decode_eq_nan_iff]
  simp only [bf16]
  omega

/-- E4M3 has no infinity: overflow writes the largest finite value (R87), and 0x7F alone is NaN. -/
theorem e4m3_decode_eq_nan_iff (x : Nat) : e4m3.decode x = .nan ↔ x % 2 ^ 7 = 0x7F := by
  rw [FloatFmt.decode_eq_nan_iff]
  simp only [e4m3]
  omega

theorem e5m2_decode_eq_nan_iff (x : Nat) : e5m2.decode x = .nan ↔ 0x7C < x % 2 ^ 7 := by
  rw [FloatFmt.decode_eq_nan_iff]
  simp only [e5m2]
  omega

theorem Num.special_of_isNan {x : Num} (h : x.isNan = true) : x.special = true := by
  cases x with
  | nan => rfl
  | inf n => rfl
  | fin n m e => exact h

/-- A block with a NaN or an infinity derives the E8M0 NaN (R97). -/
theorem deriveBlock_scale_of_special (fmt : Nat) {xs : List Num} (h : xs.any Num.special = true) :
    (deriveBlock fmt xs).1 = 0xFF := by
  simp [deriveBlock, h]

theorem any_special_of_any_isNan {xs : List Num} (h : xs.any Num.isNan = true) : xs.any Num.special = true := by
  obtain ⟨x, hx, hn⟩ := List.any_eq_true.mp h
  exact List.any_eq_true.mpr ⟨x, hx, Num.special_of_isNan hn⟩

/-- Settles O9: what is written for a NaN is the format's own code, a block with a NaN is one with a special value, and the codes
that read as NaN are, for each format, a range of magnitudes under either sign. -/
theorem canonicalNaN : Obligations.CanonicalNaN := by
  refine ⟨⟨rfl, rfl, rfl, rfl⟩, fun fmt xs h => deriveBlock_scale_of_special fmt (any_special_of_any_isNan h),
    fun m h0 hm => ?fp32, fun m h0 hm => ?bf16, ?e4m3, fun m h0 hm => ?e5m2⟩
  case fp32 => simp only [fp32_decode_eq_nan_iff]; omega
  case bf16 => simp only [bf16_decode_eq_nan_iff]; omega
  case e4m3 => simp only [e4m3_decode_eq_nan_iff]; omega
  case e5m2 => simp only [e5m2_decode_eq_nan_iff]; omega

/-! ### The E8M0 scale byte (R84) -/

theorem Num.lt_self (a : Num) : a.lt a = false := by
  cases a with
  | nan => rfl
  | inf n => cases n <;> rfl
  | fin n m e => simp [Num.lt]

/-- A number equals itself, unless it is NaN (R89). -/
theorem Num.eqv_self {a : Num} (h : a.isNan = false) : a.eqv a = true := by
  simp [Num.eqv, Num.lt_self, h]

theorem elemVal_e8m0_nan (sgn : Bool) : elemVal 9 sgn 255 = .nan := rfl

theorem elemVal_e8m0_of_lt (sgn : Bool) {e : Nat} (h : e < 255) : elemVal 9 sgn e = .fin false 1 ((e : Int) - 127) := by
  have hmod : e % 256 = e := Nat.mod_eq_of_lt (by omega)
  simp [elemVal, floatOf, hmod, h.ne]

/-- An E8M0 byte is NaN or a power of two, and so neither negative nor a zero nor an infinity. -/
theorem elemVal_e8m0_cases (sgn : Bool) {e : Nat} (h : e < 256) :
    elemVal 9 sgn e = .nan ∨ elemVal 9 sgn e = .fin false 1 ((e : Int) - 127) := by
  obtain hlt | rfl : e < 255 ∨ e = 255 := by omega
  · exact .inr (elemVal_e8m0_of_lt sgn hlt)
  · exact .inl (elemVal_e8m0_nan sgn)

/-- E8M0 is no operand's element format: A has BF16, FP8 or INT8, B all but FP32 and E8M0, C and D floats alone (R104, R105). -/
theorem wordOk_e8m0 {w : FmtWord} (h : w.fmt = 9) :
    aWordOk w = false ∧ bWordOk w = false ∧ cWordOk w = false ∧ dWordOk w = false := by
  simp [aWordOk, bWordOk, cWordOk, dWordOk, isFp8, h]

/-- Settles O10: the value of each byte is given by `elemVal_e8m0_cases`, and a stored E8M0 scale is read as that value. -/
theorem e8M0Values : Obligations.E8M0Values := by
  refine ⟨fun e h => ?value, elemVal_e8m0_nan false, fun e h => ?noZeroNoInf, fun e m x h => ?noSign, fun w h x => if_pos h,
    fun w => wordOk_e8m0⟩
  case value =>
    rw [elemVal_e8m0_of_lt false h]
    exact Num.eqv_self rfl
  case noZeroNoInf =>
    obtain hv | hv := elemVal_e8m0_cases false h <;> simp [hv, Num.isZero]
  case noSign =>
    obtain hv | hv := elemVal_e8m0_cases false h <;> simp [hv]

end Sys2Proof.Machine
end

section
/-!
The statement of 06_skimmer.md: ENCODE, DECODE, CHECK24, tile requests and DISABLE.
-/
namespace Sys2Proof.Machine

/-- Settles O54, command by command from the laws of the Skimmer: each SKIM task from what its writes store (`Store.Wrote`), the
tile request from what `State.serveTile` leaves of the queues, DISABLE from the write of the register. -/
theorem skimmerCommands : Obligations.SkimmerCommands :=
  ⟨skimEncode_spec, skimDecode_spec, skimCheck24_spec, skimmerTileServe_spec, skmDisableWrite_spec⟩

end Sys2Proof.Machine
end

section
/-!
The statement of 07_attention.md: attention FORWARD and BACKWARD parts and VERIFY tasks.
-/
namespace Sys2Proof.Machine

/-- Settles O53, command by command from the laws of the attention tasks: a part with formats not allowed from
`State.attnFmt_over`; FORWARD from what its rows store (`Store.attnOut_wrote`); BACKWARD and VERIFY from the memory their drain and
their records leave, which the counts that follow keep (`State.backCounts_keeps`, `State.verifyCounts_keeps`). -/
theorem attentionParts : Obligations.AttentionParts :=
  ⟨attnForward_spec, attnBackward_spec, attnVerify_spec⟩

end Sys2Proof.Machine
end

section
/-!
The statement of 08_kv_pages.md: page walks and pins, the page commands REF, UNREF and READ, and LDG_PAGE_LOW.
-/
namespace Sys2Proof.Machine

/-- Settles O46, command by command from the laws of the Ostler: a walk's page and pin from what the entry's home does
(`State.walk_page`), REF and UNREF from the entry they write (`State.page_putPage`), REF, UNREF and READ of a page of another
partition from the index check they share (`State.pageCmd_bad`). The rules of REF, UNREF and READ are R274, R275 and R287 to R289,
that of LDG_PAGE_LOW is R286; a clear of LOW that holds is assumption 47, a staged part's failing walk assumption 48. -/
theorem pageCommands : Obligations.PageCommands :=
  ⟨pageWalk_spec, pinWaitResume_spec, pageRef_spec, pageUnref_spec, pageRead_spec, pageLowWrite_spec⟩

end Sys2Proof.Machine
end

section
/-!
The statement of 09_memory.md: memory slots, repair writes, the scrub and resumed host writes.
-/
namespace Sys2Proof.Machine

/-- Settles O47, command by command from the laws of the memories: MEM_SLOT_GRANT along the branches of the grant, where a repair or
scrub in an idle slot leaves the idle count (`State.idleSlot_fd`); REPAIR_WRITE from what a stored codeword shows
(`State.storeLine_shown`); SCRUB_READ from what a codeword goes through before the scrub counts it (`State.scrub_eq`);
WRITE_QUEUE_RESUME from the bytes of a write to memory (`State.ramWrite_mem`). The slot rules are R299 to R301, the repair write's
R302, the scrub's R303 and R308, the full queue's R306; the places of Innkeeper's and the scrub's slots are assumption 120. -/
theorem memoryCommands : Obligations.MemoryCommands :=
  ⟨memSlotGrant_spec, repairWrite_spec, scrubRead_spec, writeQueueResume_spec⟩

end Sys2Proof.Machine
end

section
/-!
The statements of 10_task_graphs.md: the graph commands of a partition, issue and the work of a core's arrays and links, and the
GEMM, VEC and COPY tasks.
-/
namespace Sys2Proof.Machine

/-- Settles O35, command by command from the laws of the Dispatcher: each result from what the end of a command shows
(`State.dspDone_shown`), LOAD and UNLOAD with the partition's graphs it leaves as they were, and RUN along the checks of
`State.dspRun`, whose triggered step the command's end leaves. LOAD's checks are R321 and R330, a running graph's UNLOAD R342, the
step of a RUN R317 and R318, the command registers R346. -/
theorem dispatcherGraphCommands : Obligations.DispatcherGraphCommands :=
  ⟨dspLoad_spec, dspUnload_spec, dspRun_spec⟩

/-- Settles O36, command by command: TASK_ISSUE from what placing the task keeps (`State.ensureTask_keeps`, `State.arrive_keeps`);
ARRAYS_FINISH from the registers it sets, which promotion leaves; LINK_BUFFER_HANDOVER from the move of one link
(`State.linkMove_shown`), which leaves the other links (`State.linkMove_apart`); ARRAY_RAMP_DOWN by induction over the idle arrays
(`State.rampSteps_shown`); MCAST_BLOCK_READ from what the landing of a block keeps. The rotation is R333, the slots of a core R176,
the links R169 and R170, the multicast reads R174; one quarter for each ARRAY_RAMP_DOWN is assumption 117, R136 naming only the four
steps. -/
theorem issueAndArrays : Obligations.IssueAndArrays :=
  ⟨taskIssue_spec, arraysFinish_spec, linkBufferHandover_spec, arrayRampDown_spec, mcastBlockRead_spec⟩

/-- Settles O52, command by command: each task's reads keep the memory and the error symbols (`State.gemmProduct_read`,
`vecLoads_keeps`, `Fetch.gets_read`), its writes store exactly the bytes of their list (`Store.rows_wrote`, `VBuf.stores_wrote`,
`Store.copyOut_wrote`), and its end shows its flags over those bytes (`State.out_shown`) or the job fault of a failed read
(`State.endUncorr_shown`). -/
theorem tensorTasks : Obligations.TensorTasks :=
  ⟨gemmTask_spec, vecTask_spec, copyTask_spec⟩

end Sys2Proof.Machine
end

section
/-!
The statements of 11_channels.md: OPEN, CLOSE, the freeing of endpoints and EP HEAD; sends from their ports to their landing or
spilling.
-/
namespace Sys2Proof.Machine

/-! ### A wait for credit and its end -/

/-- An APPEND of one unit from address 0 to endpoint 4, waiting for credit since the time 0. -/
def Send.waiting : Send := ⟨0, false, 1, 4, 0, 0, none, some 0, false, false⟩
/-- An endpoint of partition 0 with a ring of 4 KiB, all of it written and the bytes below `head` released. -/
def Endpoint.written (head : Nat) : Endpoint := ⟨false, 0, 12, 0, 0, 0, 64, 0, head, 4096, 4096, [], 0⟩
/-- Partition 0, with memory region 0, holds that send at its port 0. -/
def State.appendWaits (head : Nat) : State :=
  { State.reset with
    parts := [(0, { Part.init with cfg := some ⟨mkRec 512 [(48, 1, 1)], none, none⟩, ports := [(0, ⟨[Send.waiting], [], []⟩)] })]
    endpoints := [(4, Endpoint.written head)] }

theorem State.appendWaits_inv (head : Nat) : (State.appendWaits head).Inv :=
  State.Inv.of_eq (s := State.reset) ⟨by decide, by decide, by decide, by decide, by decide⟩ rfl rfl rfl rfl rfl

theorem State.appendWaits_takes (head : Nat) : (State.appendWaits head).Takes 0 Send.waiting (Endpoint.written head) :=
  ⟨by decide, rfl, rfl, rfl, by simp [Send.waiting, Endpoint.written]⟩

/-- With the whole ring released SEND_CREDIT_RESUME begins to land the waiting message, at TAIL (R356). -/
theorem sendCreditResume_lands_with_credit : ∃ t, exec (.sendCreditResume 0 0) (State.appendWaits 4096) = .next t ∧
    (t.landings.map fun l => (l.ep, l.msg.at_)) = [(4, 4096)] := by
  obtain ⟨b, data⟩ : ∃ b, ((State.appendWaits 4096).sendRead 0 0 0 32 none).1 = some b :=
    Option.isSome_iff_exists.mp (by decide +kernel)
  have read : (State.appendWaits 4096).sendRead 0 0 0 32 none = (some b, ((State.appendWaits 4096).sendRead 0 0 0 32 none).2) := by
    rw [← data]
  obtain ⟨t, run, -, lands, -⟩ := sendCreditResume_spec (State.appendWaits 4096) (State.appendWaits_inv 4096) 0 0
  obtain ⟨landed, kept, -, -⟩ := lands Send.waiting [] (Endpoint.written 4096) 0 b _ rfl rfl rfl rfl
    (State.appendWaits_takes 4096) (fun _ => rfl) (by decide) read
  refine ⟨t, run, ?_⟩
  rw [landed.landings, (State.seqNext_kept _ 0 0 Send.waiting.dest).2.1, kept]
  rfl

/-- With nothing released it lands nothing, and the send stays at the head of its port. -/
theorem sendCreditResume_waits_without_credit : ∃ t, exec (.sendCreditResume 0 0) (State.appendWaits 0) = .next t ∧
    t.landings = [] ∧ (t.sender 0 0).queue = [Send.waiting] := by
  obtain ⟨t, run, -, -, waits⟩ := sendCreditResume_spec (State.appendWaits 0) (State.appendWaits_inv 0) 0 0
  obtain ⟨noLanding, -, -, queue⟩ := waits Send.waiting [] (Endpoint.written 0) rfl rfl rfl rfl (State.appendWaits_takes 0)
    (fun _ => rfl) (by decide)
  exact ⟨t, run, noLanding, queue⟩

/-! ### The statements -/

/-- Settles O49, command by command from the laws of the channels: OPEN along its checks, from what the read of the open record
keeps (`State.blk_kept`), what the result registers show (`State.chnResult_shown`, `State.chnOpened_shown`) and the bytes of the
zeroed accumulator (`State.devWrite_mem`); CLOSE from ports that have nothing queued (`State.pumpAll_idle`); ENDPOINT_FREE from what
the spill rings' advance keeps (`State.spillAdvance_fd`); EP HEAD from the endpoint it writes (`State.find_modEp`). The endpoint's
record is R351, its checks R352, CLOSE and the freeing R353, the HEAD write R358, a Churn queue's record R363, its close R366, the
command registers R370, the object registers R373. -/
theorem channelEndpoints : Obligations.ChannelEndpoints :=
  ⟨chnOpen_spec, chnClose_spec, endpointFree_spec, epHeadWrite_spec⟩

/-- Settles O50, command by command from the laws of the sends: APPEND, PUT_AT and CONTRIB from what the head send of an idle port
does, and SEND_CREDIT_RESUME from the same head performed again (`State.append_shown`, `State.put_shown`); their failures,
MESSAGE_LAND and SEND_SPILL from what completing a send shows (`State.sendDone_shown`), the spilled message from
`State.spillWrite_shown`. The header with SEQ and the byte count is R354, the port queue R355, the placing R356, the landing R357,
PUT_AT R359, the spill R362, CONTRIB R364, the results R367, the port registers R371. Which sends take a SEQ is assumption 51; the
order of the checks is assumption 52. -/
theorem channelSends : Obligations.ChannelSends :=
  ⟨chnAppend_spec, chnPutAt_spec, chnContrib_spec, sendCreditResume_spec, messageLand_spec, sendSpill_spec⟩

end Sys2Proof.Machine
end

section
/-!
The statements of 12_guest_ledger.md: submission records, steps and the gate, the ledger's registers, budget mode with pressure and
deadlines, and the steering adapters.
-/
namespace Sys2Proof.Machine

/-! ### PUBLISH and a previous generation in use -/

/-- An adapter record of one layer with one direction (R404). -/
def oneLayerAdapter : Bytes := mkRec 24 [(4, 2, 1), (6, 1, 1)]
/-- Partition 0, with memory region 0 and that record at address 0, has an adapter area and `a` as its only slot. -/
def State.publishing (a : AdSlot) : State :=
  { State.reset.setF (Rg.ADP_AREA_BASE 0) 65536 with
    mem := putBytes State.reset.mem 0 oneLayerAdapter
    parts := [(0, { Part.init with cfg := some ⟨mkRec 512 [(48, 1, 1), (132, 2, 1)], none, none⟩, adapters := [(0, a)] })] }

theorem State.publishing_inv (a : AdSlot) : (State.publishing a).Inv :=
  have reset : State.reset.Inv := ⟨by decide, by decide, by decide, by decide, by decide⟩
  { State.setF_inv reset (Rg.ADP_AREA_BASE 0) 65536 with mem := canon_putBytes reset.mem 0 oneLayerAdapter }

theorem pair_of_fst {α β : Type} {x : α × β} {a : α} (h : x.1 = a) : x = (a, x.2) := h ▸ rfl

/-- The slot bound to customer 7, nothing published. -/
def State.unpublished : State := State.publishing ⟨some 7, 0, 0, []⟩

/-- The first PUBLISH of a bound slot makes generation 1 current (R405). -/
theorem adpPublish_first_generation : ∃ t, exec (.adpPublish 0 0) State.unpublished = .next t ∧
    t.fd (Rg.ADP_CMD_RESULT_RESULT 0) = 0 ∧ t.adSlot 0 0 = ⟨some 7, 1, 0, []⟩ := by
  have area : State.unpublished.fd (Rg.ADP_AREA_BASE 0) = 65536 := by decide +kernel
  have source : State.unpublished.fd (Rg.ADP_CMD_ADDR_ADDR 0) = 0 := by decide +kernel
  have slot : State.unpublished.adSlot 0 0 = ⟨some 7, 0, 0, []⟩ := by decide +kernel
  have head : (State.unpublished.blk 0 0 16).1 = some (oneLayerAdapter.take 16) := by decide +kernel
  have size : 16 + fieldAt (oneLayerAdapter.take 16) 4 2 * adLayerBytes (fieldAt (oneLayerAdapter.take 16) 6 1) = 24 := by decide
  have record : ((State.unpublished.blk 0 0 16).2.blk 0 0 24).1 = some oneLayerAdapter := by decide +kernel
  have written : (((State.unpublished.blk 0 0 16).2.blk 0 0 24).2.devWrite 0 1 98304 oneLayerAdapter).code = 0 := by
    decide +kernel
  obtain ⟨t, run, -, published⟩ := adpPublish_spec State.unpublished (State.publishing_inv _) 0 0 (by decide +kernel)
    (by decide +kernel) (by simp [slot]) (by simp [area])
  rw [area, source, slot] at published
  refine ⟨t, run, published _ _ _ _ (.inl rfl) (pair_of_fst head) (by decide) ?_ (by decide) written⟩
  exact size ▸ pair_of_fst record

/-- While an entry is bound to generation 1 of a slot whose current one is 2, PUBLISH shows 6 (R405). -/
theorem adpPublish_busy_generation : ∃ t, exec (.adpPublish 0 0) (State.publishing ⟨some 7, 2, 1, [(1, 1)]⟩) = .next t ∧
    t.fd (Rg.ADP_CMD_RESULT_RESULT 0) = 6 := by
  obtain ⟨t, run, busy, -⟩ := adpPublish_spec (State.publishing ⟨some 7, 2, 1, [(1, 1)]⟩) (State.publishing_inv _) 0 0
    (by decide +kernel) (by decide +kernel) (by decide +kernel) (by decide +kernel)
  exact ⟨t, run, busy (by decide) (by decide)⟩

/-! ### The statements -/

/-- Settles O38, command by command: SUBMIT from the read of the ring's next record (`State.sq_read`), every other operation from
that read with the entry's checks passed (`State.sq_command`); a retired entry stays DONE while its FINAL record is held and is FREE
once it is placed (`State.retire_ends`), and only the gate and the forming of steps act on an entry afterwards, which keep its
request (`State.toGate_ent`, `State.formFor_keeps'`). The operations are R379, SUBMIT's checks R380, the record kinds R383, CANCEL
R398, a ring entry R400; that PAUSE marks a RUNNING entry with HOST at once is assumption 63. -/
theorem ledgerRecords : Obligations.LedgerRecords :=
  ⟨submit_spec, cancel_spec, extend_spec, pause_spec, resume_spec, release_spec, finish_spec⟩

/-- Settles O39, command by command: the trigger and the settling along their checks; GATE_PASS from what the gate does to its entry
(`State.gate_ent`, `State.holdGate_ent`), which a step formed at once only sets RUNNING (`State.formFor_ent`); the two closes of a
batch from what a closed step shows (`State.closeStep_shown`). The trigger is 10 R318, the returned requests R391, the settling
R396, the gate R393, the events that close a batch 04 R142. -/
theorem ledgerStepsAndGate : Obligations.LedgerStepsAndGate :=
  ⟨ledgerStepTrigger_spec, stepSettle_spec, gatePass_spec, batchWindowExpiry_spec, batchDeadlineClose_spec⟩

/-- Settles O40, register by register: TAIL from the register it writes; RQ_HEAD from draining the held records
(`State.rqDrain_fd`) and forming steps (`State.formAll_fd`), which leave HEAD; READ by induction over the 16 words. The TAIL write
is R377, the result ring R381, the pointer registers R411, READ R412. -/
theorem ledgerRegisters : Obligations.LedgerRegisters :=
  ⟨ldgSqTailWrite_spec, ldgRqHeadWrite_spec, ldgEntryRead_spec⟩

/-- Settles O41, command by command: each change of mode folds over the entries it concerns, an entry's own turn giving the state
and the others' turns leaving it (`State.pressEntry_ne`, `State.unpressEntry_ent`); the interrupts stand over the pauses
(`State.pressEntry_fd`) and the forming of steps (`State.formAll_fd`); a hard deadline retires (`State.retire_ends`). Budget mode is
R392, pressure R394 and R395, deadlines R397. That BUDGET_LEAVE is judged when the command comes is assumption 64, the QTIME of an
entry made LATE assumption 65. -/
theorem ledgerBudgetPressureDeadlines : Obligations.LedgerBudgetPressureDeadlines :=
  ⟨budgetEnter_spec, budgetLeave_spec, pressureBegin_spec, pressureEnd_spec, deadlinePass_spec⟩

/-- Settles O42, command by command along the checks, each result from what the end of a command shows (`State.adpResult_shown`).
ADP_AREA is R403, the record R404, BIND, UNBIND and PUBLISH R405, the result codes R415; that CUR stands over UNBIND is
assumption 124. -/
theorem adapterCommands : Obligations.AdapterCommands :=
  ⟨adpBind_spec, adpUnbind_spec, adpPublish_spec, adpAreaWrite_spec⟩

end Sys2Proof.Machine
end

section
/-!
The statements of 13_coach_ports.md: the frames that a Coach port sends and the transport's timers, the port states, XFER tasks and
COLL CONTRIB, and the collectives.
-/
namespace Sys2Proof.Machine

theorem State.reset_inv : State.reset.Inv := ⟨by decide, by decide, by decide, by decide, by decide⟩

/-! ### Idle flows and the deficit rotation -/

/-- A sending and a receiving flow at port 0, nothing outstanding on either, where `aged` flows have aged out. -/
def State.idleFlows (aged : Nat) : State :=
  { State.reset.setF Rg.CCH_FLOWS_AGED aged with
    coach := { CoachSt.init with
      tx := [(0, ⟨0, 1, 0, 0, 0, 0, 0, true, 0, 0, 0, 0, [], 0, 0, [], none⟩)]
      rx := [(0, ⟨1, 0, 0, 0, 0, 0, 0, 0, 0, [], 0, none, 0, 0⟩)] } }

theorem State.idleFlows_inv (aged : Nat) : (State.idleFlows aged).Inv :=
  (State.setF_inv State.reset_inv Rg.CCH_FLOWS_AGED aged).of_eq rfl rfl rfl rfl rfl

/-- Either end drops its idle flow, and the count of aged flows rises by one, up to 65,535 (R424, R458). -/
theorem flowIdleExpiry_ages_either_end :
    (∃ t, exec (.flowIdleExpiry true 0) (State.idleFlows 0) = .next t ∧ t.rx? 0 = none ∧ t.fd Rg.CCH_FLOWS_AGED = 1) ∧
    (∃ t, exec (.flowIdleExpiry false 0) (State.idleFlows 65535) = .next t ∧ t.tx? 0 = none ∧ t.fd Rg.CCH_FLOWS_AGED = 65535) := by
  constructor
  · obtain ⟨t, run, gone, aged⟩ := (flowIdleExpiry_spec _ (State.idleFlows_inv 0) 0).1 _ rfl
    exact ⟨t, run, gone, aged.trans (by decide +kernel)⟩
  · obtain ⟨t, run, gone, aged⟩ := (flowIdleExpiry_spec _ (State.idleFlows_inv 65535) 0).2 _ rfl rfl rfl rfl
    exact ⟨t, run, gone, aged.trans (by decide +kernel)⟩

/-- A DATA frame of partition `p` with `n` bytes of payload. -/
def dataOf (p n : Nat) : Frame := ⟨1, 3, p, p, 0, 1, 0, 0, 1, 0, 0, 0, List.replicate n 0⟩
/-- Port 0 UP, with flow 5 of partition 1 and behind it flow 6 of partition 0 to send. -/
def State.twoFrames : State :=
  { State.reset.setF (Rg.CCH_PORT_STATUS_STATE 0) 3 with
    coach := { CoachSt.init with ports := [(0, { CoachPort.init with data := [(5, dataOf 1 199), (6, dataOf 0 198)] })] } }

theorem State.twoFrames_inv : State.twoFrames.Inv :=
  (State.setF_inv State.reset_inv (Rg.CCH_PORT_STATUS_STATE 0) 3).of_eq rfl rfl rfl rfl rfl

theorem State.twoFrames_pick : State.twoFrames.drrPick 0 1024 (State.twoFrames.port 0) =
    some ((6, dataOf 0 198), { State.twoFrames.port 0 with deficit := [(0, 0), (1, 256)] }) := by decide +kernel

/-- One turn of the smallest share gives 256 bytes (assumption 70): the frame of 257 bytes waits for its next turn, and the one of 256
bytes behind it leaves first. -/
theorem frameTransmit_within_one_turn : ∃ t, exec (.frameTransmit 0) State.twoFrames = .next t ∧
    (t.port 0).wire = [State.twoFrames.wireBytes 0 (dataOf 0 198)] ∧ (t.port 0).data = [(5, dataOf 1 199)] := by
  obtain ⟨t, run, -, -, data⟩ := frameTransmit_spec _ State.twoFrames_inv 0 (by decide +kernel) (dataOf 0 198) []
  obtain ⟨wire, left⟩ := data rfl rfl 6 _ State.twoFrames_pick
  exact ⟨t, run, wire, left.trans (by decide +kernel)⟩

/-! ### Training -/

/-- Port 0 in TRAINING after `fails` failures, with ENABLE as given. -/
def State.training (fails enable : Nat) : State :=
  ((State.reset.setF (Rg.CCH_PORT_STATUS_STATE 0) 1).setF (Rg.CCH_PORT_STATUS_TRAIN_FAILS 0) fails).setF (Rg.CCH_PORT_CTRL_ENABLE 0)
    enable

theorem State.training_inv (fails enable : Nat) : (State.training fails enable).Inv :=
  State.setF_inv (State.setF_inv (State.setF_inv State.reset_inv _ _) _ _) _ _

theorem portTrained_by_enable :
    (∃ t, exec (.portTrained 0) (State.training 2 0) = .next t ∧ t.portState 0 = 2 ∧ t.fd (Rg.CCH_PORT_STATUS_TRAIN_FAILS 0) = 0) ∧
    (∃ t, exec (.portTrained 0) (State.training 2 1) = .next t ∧ t.portState 0 = 3 ∧ t.fd (Rg.CCH_PORT_STATUS_TRAIN_FAILS 0) = 0) := by
  constructor
  · obtain ⟨t, run, state, fails⟩ := portTrained_spec _ (State.training_inv 2 0) 0 (by decide +kernel) (by decide +kernel)
    exact ⟨t, run, state.trans (by decide +kernel), fails⟩
  · obtain ⟨t, run, state, fails⟩ := portTrained_spec _ (State.training_inv 2 1) 0 (by decide +kernel) (by decide +kernel)
    exact ⟨t, run, state.trans (by decide +kernel), fails⟩

/-- The third failure takes the port FAILED, and so does the next one when the count has stopped at 255 (R451; assumption 84). -/
theorem portTrainFail_third_and_at_255 :
    (∃ t, exec (.portTrainFail 0) (State.training 1 0) = .next t ∧ t.portState 0 = 1) ∧
    (∃ t, exec (.portTrainFail 0) (State.training 2 0) = .next t ∧ t.portState 0 = 4) ∧
    (∃ t, exec (.portTrainFail 0) (State.training 255 0) = .next t ∧ t.portState 0 = 4 ∧
      t.fd (Rg.CCH_PORT_STATUS_TRAIN_FAILS 0) = 255) := by
  refine ⟨?second, ?third, ?atMost⟩
  case second =>
    obtain ⟨t, run, -, -, stays⟩ := portTrainFail_spec _ (State.training_inv 1 0) 0 (by decide +kernel) (by decide +kernel) 2
      (by decide +kernel)
    exact ⟨t, run, stays (by decide)⟩
  case third =>
    obtain ⟨t, run, -, fails, -⟩ := portTrainFail_spec _ (State.training_inv 2 0) 0 (by decide +kernel) (by decide +kernel) 3
      (by decide +kernel)
    exact ⟨t, run, (fails (by decide)).1⟩
  case atMost =>
    obtain ⟨t, run, count, fails, -⟩ := portTrainFail_spec _ (State.training_inv 255 0) 0 (by decide +kernel) (by decide +kernel) 255
      (by decide +kernel)
    exact ⟨t, run, (fails (by decide)).1, count⟩

/-! ### Transfers and a barrier -/

/-- Task 1, an XFER on a port engine that has not acted. -/
def xferTask : Task :=
  ⟨1, 0, 0, 0, 1, 5, false, 0, 1, [⟨0, none, 5, false⟩], false, 0, 0, [], [], [], [], [], none, 0, [], [], none, [], 0⟩
/-- A graph of one task, whose PARAM is address 0. -/
def oneTaskGraph : Graph := ⟨mkRec 64 [(8, 2, 1)], [[]], [], 1, false, none, some ⟨1, 1, 0, 0, 0, 0, [], 0, none, false⟩⟩
/-- Partition 0, in a group of two with device 1, runs task `k` over the bytes `bs` from address 0 and holds `sends` at its task
port. Page 2 is its own, with EXPCNT 15, entry 0 has its page list at address 64, and the ring of endpoint 4 is full. -/
def State.porting (k : Task) (bs : Bytes) (sends : List Send) : State :=
  { State.reset with
    mem := putBytes State.reset.mem 0 bs
    parts := [(0, { Part.init with
      cfg := some ⟨mkRec 512 [(48, 1, 1)], none, some (mkRec 64 [(2, 2, 2), (12, 2, 1)])⟩
      ledN := 1
      pageN := 16
      graphs := [(0, oneTaskGraph)]
      ports := [(33, ⟨sends, [], []⟩)] })]
    pages := [(2, { Page.free with ref := 1, exp := 15 })]
    ledger := [(0, { Entry.free with pageList := 64 })]
    tasks := [k]
    endpoints := [(4, Endpoint.written 0)] }

theorem State.porting_inv (k : Task) (bs : Bytes) (sends : List Send) : (State.porting k bs sends).Inv :=
  { State.reset_inv with mem := canon_putBytes State.reset_inv.mem 0 bs }

/-- The block of an XFER of operation `op` with no counters; endpoint 4 for a channel send of one unit. -/
def xferBlock (op : Nat) : Bytes := mkRec 64 [(0, 1, op), (2, 1, 1), (7, 1, 255), (32, 2, 4), (35, 1, 255)]
/-- An XFER of operation `op` that has not acted. -/
def State.xferring (op : Nat) (sends : List Send) : State := State.porting xferTask (xferBlock op) sends

/-- An APPEND waits while 8 sends stand before it, and joins 7 (R434; 11 R355). -/
theorem xferAppend_by_room :
    exec (.xferAppend 1) (State.xferring 3 (List.replicate 8 Send.waiting)) =
      .next (State.xferring 3 (List.replicate 8 Send.waiting)) ∧
    ∃ t, exec (.xferAppend 1) (State.xferring 3 (List.replicate 7 Send.waiting)) = .next t ∧
      (t.sender 0 33).queue = List.replicate 7 Send.waiting ++ [xferSend 1 3 (xferBlock 3)] := by
  constructor
  · obtain ⟨t, run, waits, -⟩ := xferAppend_spec (State.xferring 3 (List.replicate 8 Send.waiting)) 1 xferTask (xferBlock 3)
      ⟨by decide +kernel, by decide⟩
    rw [run, waits (by decide +kernel)]
  · obtain ⟨t, run, -, joins⟩ := xferAppend_spec (State.xferring 3 (List.replicate 7 Send.waiting)) 1 xferTask (xferBlock 3)
      ⟨by decide +kernel, by decide⟩
    refine ⟨t, run, ?_⟩
    rw [joins (by decide +kernel)]
    decide +kernel

/-- A WRITE to a device with no route ends its part with UNIT_DISABLED (R419). -/
theorem xferWrite_without_route : ∃ t, exec (.xferWrite 1) (State.xferring 1 []) = .next t ∧ t.PartOver 1 0 stDisabled 0 := by
  obtain ⟨t, run, -, disabled, -⟩ := xferWrite_spec (State.xferring 1 []) 1 xferTask (xferBlock 1)
    ⟨by decide +kernel, by decide⟩
  exact ⟨t, run, disabled (State.xferring 1 []) xferTask rfl rfl (by decide)⟩

/-- A list of one layer, head and block, whose one slot names page 2. -/
def onePageList : Bytes := mkRec 36 [(4, 2, 1), (6, 2, 1), (8, 1, 1), (16, 4, 1), (32, 4, 2)]
/-- An XFER SHARD of that list's layer. -/
def State.sharding : State := State.porting xferTask (xferBlock 2 ++ onePageList) []

theorem pair_of_toOption {ε α β : Type} {x : Except ε α × β} {a : α} (h : x.1.toOption = some a) : x = (.ok a, x.2) := by
  obtain ⟨⟨⟩ | ⟨⟩, b⟩ := x
  · cases h
  · cases h; rfl

/-- A SHARD waits for its page to have an EXPCNT below 15 (R434; 08 R274). -/
theorem xferShard_waits_at_expcnt_15 : exec (.xferShard 1) State.sharding = .next State.sharding := by
  have pages : State.sharding.ShardPages 1 xferTask (xferBlock 2) (ListHdr.ofBytes (onePageList.take 32)) [(0, 0, 0, 2)] _ :=
    ⟨by decide +kernel, ⟨_, pair_of_toOption (by decide +kernel), pair_of_toOption (by decide +kernel)⟩, by decide +kernel⟩
  obtain ⟨t, run, waits, -⟩ := xferShard_spec State.sharding 1 xferTask (xferBlock 2) ⟨by decide +kernel, by decide⟩ _ _ _ pages
  rw [run, waits ⟨_, List.mem_singleton_self _, by decide +kernel⟩]

/-- The block of a BARRIER whose REPORT is address 128. -/
def barrierBlock : Bytes := mkRec 64 [(0, 1, 4), (24, 8, 128)]
/-- The task of that BARRIER, waiting in its one step. -/
def barrierBegun : Task := { xferTask with kind := 6, waitSince := some 0 }
/-- The same after its one step, which rank 1's message ended at time 9 after 5 ns. -/
def barrierEnded : Task := { xferTask with kind := 6, stage := 1, rep := [(4, 1, 5, 9)] }

theorem barrierBegun_works : (State.porting barrierBegun barrierBlock []).CollWorks 1 4 barrierBegun barrierBlock 0 :=
  ⟨by decide +kernel, by decide +kernel, by decide +kernel, by decide⟩

theorem barrierEnded_works : (State.porting barrierEnded barrierBlock []).CollWorks 1 4 barrierEnded barrierBlock 0 :=
  ⟨by decide +kernel, by decide +kernel, by decide +kernel, by decide⟩

/-- While the other member's message has not come, the BARRIER changes nothing (R437). -/
theorem collBarrier_waits : exec (.collBarrier 1) (State.porting barrierBegun barrierBlock []) =
    .next (State.porting barrierBegun barrierBlock []) := by
  obtain ⟨t, run, goes⟩ := collBarrier_spec _ (State.porting_inv _ _ _) 1 _ _ 0 barrierBegun_works
  obtain ⟨st, step⟩ : ∃ st, (((State.porting barrierBegun barrierBlock []).collOf 0 barrierBlock).steps 0)[0]? = some st :=
    Option.isSome_iff_exists.mp (by decide +kernel)
  rw [run, goes.wait st step (by decide) rfl]

theorem barrierEnded_report : collReport barrierEnded 0 ((State.porting barrierEnded barrierBlock []).collOf 0 barrierBlock).n =
    mkRec 16 [(2, 2, 2), (4, 1, 1)] ++ mkRec 16 [(0, 1, 4), (2, 2, 1), (4, 4, 5), (8, 8, 9)] := by decide +kernel

/-- After its one step it writes its report of 32 bytes at 128, and its part has no more to do (R439). -/
theorem collBarrier_reports : ∃ t, exec (.collBarrier 1) (State.porting barrierEnded barrierBlock []) = .next t ∧
    t.PartOver 1 0 0 0 ∧ (State.porting barrierEnded barrierBlock []).Stored t
      [(128, mkRec 16 [(2, 2, 2), (4, 1, 1)] ++ mkRec 16 [(0, 1, 4), (2, 2, 1), (4, 4, 5), (8, 8, 9)])] := by
  obtain ⟨t, run, goes⟩ := collBarrier_spec _ (State.porting_inv _ _ _) 1 _ _ 0 barrierEnded_works
  obtain ⟨ended, -, report⟩ := goes.ends (by decide +kernel)
  refine ⟨t, run, ended, ?_⟩
  rw [← barrierEnded_report]
  exact report (by decide +kernel) ⟨rfl, by decide +kernel⟩

/-! ### The statements -/

/-- Settles O44, command by command: FRAME_TRANSMIT along the order of the port's queues, from what putting a frame on the wire shows
(`State.wireOut_port`), a DATA frame with what the rotation leaves (`State.drrPick_wire`); RTO_EXPIRY from the resending, which keeps
the flow (`State.resend_tx`); ACK_DELAY_EXPIRY from the ACK sent (`State.sendAck_port`); the others from the context they write. Idle
flows are R424, the wait for a context R425, HELLO R426, the ACK R428 and R429, retransmission R430, the order of the queues R450; the
quantum of the rotation is assumption 70. -/
theorem coachSend : Obligations.CoachSend :=
  ⟨frameTransmit_spec, rtoExpiry_spec, helloResendExpiry_spec, ackDelayExpiry_spec, flowIdleExpiry_spec, flowOpenResume_spec⟩

/-- Settles O45, event by event from the registers each writes: the write of CCH_PORT_CTRL field by field, a lost link or signal from
what going DOWN shows (`State.portDown_shown`), a port without flows leaving UP with its count alone (`State.portLeft_free`). The
states are R451, the flows of a port that leaves UP R452, CCH_PORT_CTRL R454; that ENABLE set in training takes the port UP, and that
FAILED is every third failure and each one at 255, are assumption 84. -/
theorem coachPortStates : Obligations.CoachPortStates :=
  ⟨portDetect_spec, portTrained_spec, portTrainFail_spec, portFailedRetry_spec, portEnableWrite_spec, portLinkLoss_spec,
    portSignalLoss_spec⟩

/-- Settles O55, command by command: WRITE and SHARD from what a transfer does as its job flow allows (`State.xferVia_shown`), whose
message stands on the flow and ends the part (`State.send_over`); APPEND and PUT_AT from the send they share
(`State.xferChannel_shown`), CONTRIB from the queue's room (`State.enqueue_room`). Waits are R432, the operations R434, CONTRIB R436
and 11 R364, the task port's queue 11 R355, EXPCNT 08 R274, the export form 08 R277 and R278. -/
theorem transferTasks : Obligations.TransferTasks :=
  ⟨xferWait_spec, xferWrite_spec, xferShard_spec, xferAppend_spec, xferPutAt_spec, collContrib_spec⟩

/-- Settles O56: the four operations are one run over the steps of their collective, of which `State.collective_goes` says what its
first turn does; the report's bytes are those of one write to memory (`State.collWrite_stored`). The steps are R437, SCRATCH R438
(where a run lands in it is assumption 67), the report R439. -/
theorem collectives : Obligations.Collectives :=
  ⟨collReduceScatter_spec, collAllGather_spec, collAllReduce_spec, collBarrier_spec⟩

end Sys2Proof.Machine
end

section
/-!
The statements of the model's own step (01_architecture.md): the queue and the idle nanosecond.
-/
namespace Sys2Proof.Machine

/-! ### A step of the queue -/

/-- A step keeps the relation of Laws/Keeps.lean from the state without the front command, or from the state itself where none
waits. -/
theorem step_keeps {s t : State} (e : step s = .next t) : ∃ M, ({ s with pending := s.pending.tail } : State).Keeps M t := by
  unfold step at e
  split at e
  next none =>
    cases e
    exact ⟨_, by rw [none, List.tail_nil, ← none]; exact tick_keeps (M := maskOf [.time, .now]) (by decide) (.refl s)⟩
  next c rest front =>
    exact ⟨_, by rw [front]; exact exec_keeps e⟩

/-- Of two commands that wait, a step performs the first and leaves the second. -/
theorem step_leaves_second : ∃ t, step { State.reset with pending := [.coldReset, .keyTouch] } = .next t ∧
    HeldReset 0 State.reset t ∧ t.pending = [.keyTouch] := by
  obtain ⟨t, run, held, -⟩ := coldReset_spec { State.reset with pending := [.keyTouch] }
  exact ⟨t, run, { held with }, (exec_keeps run).pending⟩

/-- A nanosecond passes from reset, where nothing waits. -/
theorem step_from_reset : ∃ t, step State.reset = .next t ∧ t.now = 1 ∧ t.regs = [] := ⟨tick State.reset, rfl, rfl, rfl⟩

/-! ### The statements -/

/-- Settles O1, by the case of `step` for a queue with a front. The queue is assumption 2. -/
theorem stepRunsFrontCommand : Obligations.StepRunsFrontCommand := by
  intro c s q front
  simp only [step, front]

/-- Settles O2, by the case of `step` for an empty queue: `tick` changes the clock and device time alone. The idle nanosecond is
assumption 2. -/
theorem emptyQueueOneNanosecond : Obligations.EmptyQueueOneNanosecond := by
  intro s none
  exact ⟨tick s, by simp only [step, none], rfl, none, rfl, rfl, rfl, rfl, rfl⟩

end Sys2Proof.Machine
end

section
/-!
The statements of 14_larric_link.md: the training of the link, its flits and their replay, and memory across it.
-/
namespace Sys2Proof.Machine

/-! ### The link in a state -/

/-- The module running, the Larric link in state `st` with its port engine as `l` has it; partition 0 has control cores 0 and 1. -/
def State.linkIn (st : Nat) (l : LarricSt) : State :=
  { State.reset.setF Rg.LRL_STATUS_STATE st with
    phase := .running
    larric := l
    parts := [(0, { Part.init with cfg := some ⟨mkRec 512 [(40, 4, 3), (48, 1, 1)], none, none⟩ })] }

theorem State.linkIn_inv (st : Nat) (l : LarricSt) : (State.linkIn st l).Inv :=
  (State.setF_inv State.reset_inv Rg.LRL_STATUS_STATE st).of_eq rfl rfl rfl rfl rfl

/-! ### A sealed DATA flit is whole (R464) -/

theorem crcBit_lt {c : Nat} (h : c < 2 ^ 32) : crcBit c < 2 ^ 32 := by
  unfold crcBit
  split
  · exact Nat.xor_lt_two_pow (by omega) (by decide)
  · omega

theorem crcByte_lt {c : Nat} (h : c < 2 ^ 32) (b : Byte) : crcByte c b < 2 ^ 32 := by
  have mixed : c ^^^ b.toNat < 2 ^ 32 := Nat.xor_lt_two_pow h (by have := b.isLt; omega)
  exact crcBit_lt (crcBit_lt (crcBit_lt (crcBit_lt (crcBit_lt (crcBit_lt (crcBit_lt (crcBit_lt mixed)))))))

theorem crc32c_lt (bs : Bytes) : crc32c bs < 2 ^ 32 := by
  have rest : ∀ (l : Bytes) (c : Nat), c < 2 ^ 32 → l.foldl crcByte c < 2 ^ 32 := by
    intro l
    induction l with
    | nil => exact fun _ h => h
    | cons b l ih => exact fun c h => ih _ (crcByte_lt h b)
  exact Nat.xor_lt_two_pow (rest bs _ (by decide)) (by decide)

theorem fieldAt_append_left {a : Bytes} (b : Bytes) {o n : Nat} (h : o + n ≤ a.length) : fieldAt (a ++ b) o n = fieldAt a o n := by
  have inside : ((a ++ b).drop o).take n = (a.drop o).take n := by
    rw [List.drop_append_of_le_length (by omega), List.take_append_of_le_length (by rw [List.length_drop]; omega)]
  simp only [fieldAt, slice, inside]

theorem fieldAt_append_right (a : Bytes) {b : Bytes} {o n : Nat} (ho : a.length = o) (hn : b.length = n) :
    fieldAt (a ++ b) o n = leNat b := by
  subst ho hn
  simp [fieldAt, slice]

/-- The other end accepts what one end seals as a DATA flit. -/
theorem flitBad_seal (l : LarricSt) {vcf : Nat} (q : Nat) {body : Bytes} (hv : vcf < 16) (hb : body.length ≤ 244) :
    flitBad (l.seal 1 vcf q body) = false ∧ fieldAt (l.seal 1 vcf q body) 0 1 = 1 ∧
      fieldAt (l.seal 1 vcf q body) 2 2 = q % 4096 := by
  let fields : List (Nat × Nat × Nat) := [(0, 1, 1), (1, 1, vcf), (2, 2, q % 4096), (4, 2, l.ackField), (6, 1, body.length)]
  have head : (mkRec 8 fields).length = 8 := mkRec_length 8 fields rfl
  generalize sum : crc32c (mkRec 8 fields ++ slice body 0 244) = crc
  have whole : l.seal 1 vcf q body = mkRec 8 fields ++ slice body 0 244 ++ toLe 4 crc := by rw [← sum]; rfl
  have covered : (mkRec 8 fields ++ slice body 0 244).length = 252 := by rw [List.length_append, head, slice_length]
  have inHead (o n : Nat) (h : o + n ≤ 8) : fieldAt (l.seal 1 vcf q body) o n = fieldAt (mkRec 8 fields) o n := by
    rw [whole, fieldAt_append_left _ (by omega), fieldAt_append_left _ (by omega)]
  have kind : fieldAt (l.seal 1 vcf q body) 0 1 = 1 :=
    (inHead 0 1 (by decide)).trans (fieldAt_mkRec 8 [] (fields.drop 1) (0, 1, 1) rfl rfl)
  have flags : fieldAt (l.seal 1 vcf q body) 1 1 = vcf % 256 :=
    (inHead 1 1 (by decide)).trans (fieldAt_mkRec 8 (fields.take 1) (fields.drop 2) (1, 1, vcf) rfl rfl)
  have seq : fieldAt (l.seal 1 vcf q body) 2 2 = q % 4096 % 65536 :=
    (inHead 2 2 (by decide)).trans (fieldAt_mkRec 8 (fields.take 2) (fields.drop 3) (2, 2, q % 4096) rfl rfl)
  have ack : fieldAt (l.seal 1 vcf q body) 4 2 = l.ackField % 65536 :=
    (inHead 4 2 (by decide)).trans (fieldAt_mkRec 8 (fields.take 3) (fields.drop 4) (4, 2, l.ackField) rfl rfl)
  have len : fieldAt (l.seal 1 vcf q body) 6 1 = body.length % 256 :=
    (inHead 6 1 (by decide)).trans (fieldAt_mkRec 8 (fields.take 4) [] (6, 1, body.length) rfl rfl)
  have spare : fieldAt (l.seal 1 vcf q body) 7 1 = 0 :=
    (inHead 7 1 (by decide)).trans (mkRec_fold fields 7 1 _ rfl rfl).1
  have ackBits : l.ackField % 65536 / 4096 % 8 = 0 := by unfold LarricSt.ackField; split <;> omega
  have stored : fieldAt (l.seal 1 vcf q body) 252 4 = crc := by
    rw [whole, fieldAt_append_right _ covered (toLe_length 4 crc), leNat_toLe, ← sum]
    exact Nat.mod_eq_of_lt (crc32c_lt _)
  have sealed : (l.seal 1 vcf q body).take 252 = mkRec 8 fields ++ slice body 0 244 := by
    rw [whole, List.take_left' covered]
  have size : (l.seal 1 vcf q body).length = 256 := by rw [whole, List.length_append, covered, toLe_length]
  have flagBits : vcf % 256 / 16 = 0 := by omega
  have seqBits : q % 4096 % 65536 / 4096 = 0 := by omega
  have used : body.length % 256 ≤ 244 := by omega
  refine ⟨?_, kind, seq.trans (by omega)⟩
  simp [flitBad, kind, flags, flagBits, seq, seqBits, ack, ackBits, len, used, spare, stored, sealed, size, sum]

/-! ### Flits where the sequence number wraps (R466) -/

/-- A link that expects flit 4,096, whose sequence number is 0 again. -/
def LarricSt.wrapped : LarricSt := { LarricSt.init with rxSeq := 4096 }

/-- A DATA flit of sequence number `q` with no message in it. -/
def dataFlit (q : Nat) : Bytes := LarricSt.init.seal 1 0 q []

/-- A flit of the reserved KIND 3. -/
def reservedFlit : Bytes := 3 :: List.replicate 255 0

theorem reservedFlit_bad : flitBad reservedFlit = true := by
  have kind : fieldAt reservedFlit 0 1 = 3 := by decide
  simp [flitBad, kind]

/-- Modulo 4,096 the sequence number 0 is the one expected; 1 is a gap, and a flit of a reserved KIND is discarded (R464, R466). -/
theorem flitReceive_at_wrap :
    (∃ t, exec (.flitReceive (dataFlit 0)) (State.linkIn 4 .wrapped) = .next t ∧ t.larric.rxSeq = 4097 ∧
      t.larric.nakSent = false) ∧
    (∃ t, exec (.flitReceive (dataFlit 1)) (State.linkIn 4 .wrapped) = .next t ∧ t.larric.rxSeq = 4096 ∧
      t.larric.nakSent = true) ∧
    (∃ t, exec (.flitReceive reservedFlit) (State.linkIn 4 .wrapped) = .next t ∧ t.fd Rg.LRL_ERR_CRC_ERR = 1 ∧
      t.larric.nakSent = true ∧ t.larric.rxSeq = 4096) := by
  have received (b : Bytes) := flitReceive_spec _ (State.linkIn_inv 4 .wrapped) b (by decide)
  refine ⟨?expected, ?gap, ?reserved⟩
  case expected =>
    obtain ⟨whole, kind, seq⟩ := flitBad_seal (vcf := 0) (body := []) .init 0 (by decide) (by decide)
    obtain ⟨t, run, -, takes, -⟩ := received (dataFlit 0)
    exact ⟨t, run, takes whole kind seq⟩
  case gap =>
    obtain ⟨whole, kind, seq⟩ := flitBad_seal (vcf := 0) (body := []) .init 1 (by decide) (by decide)
    obtain ⟨t, run, -, -, naks⟩ := received (dataFlit 1)
    exact ⟨t, run, naks whole kind (ne_of_eq_of_ne seq (by decide))⟩
  case reserved =>
    obtain ⟨t, run, bad, -⟩ := received reservedFlit
    obtain ⟨count, nak, kept⟩ := bad reservedFlit_bad
    exact ⟨t, run, count.trans (by decide), nak, kept⟩

/-! ### The statements -/

/-- Settles O31, event by event: DETECT, the partner and CONFIG from the registers they write; a failed training from what it shows
(`State.trainFailed_shown`), a lost link likewise (`State.linkLoss_shown`). The states are R462, the flits kept over RETRAIN R467,
LRL_STATUS R481; that either half or more of the lanes lock, and that LANES_FAILED is set at each attempt, is assumption 75. -/
theorem larricTraining : Obligations.LarricTraining :=
  ⟨linkDetect_spec, linkPartnerSeen_spec, linkLanesLock_spec, linkTrainTimeout_spec, linkConfigDone_spec, linkRetrainRelock_spec,
    linkRetrainTimeout_spec⟩

/-- Settles O32, event by event: the timer from what a replay shows (`State.replayAll_shown`); a received flit along its checks, from
what NAK (`State.nak_facts`), the ACK it carries (`State.takeAck_facts`) and its data (`State.dataFlit_facts`) leave; a transmitted
slot from what each kind of flit leaves of the slot and the replay buffer. A flit is R464, CRC_ERR R483, the slot of 16 R465,
sequence numbers R466, replays in a row R467; the NAK of an out-of-order flit whose ACK counts is assumption 74. -/
theorem larricFlits : Obligations.LarricFlits :=
  ⟨replayTimerExpiry_spec, flitReceive_spec, flitTransmit_spec⟩

/-- Settles O33, command by command: the host's read and write along their checks, which taking the message off its queue leaves
(`State.takeMsg_hostRefused`, `State.takeMsg_fullQueue`); a completion and a timeout from the fault that a failed read of the window
raises (`State.readFails_shown`). The statuses are R472, the window R475 and R476, the host's accesses R477. That a good completion
updates the host's memory is assumption 8, that an unknown tag counts in ACCESS_ERR assumption 76. -/
theorem larricMemory : Obligations.LarricMemory :=
  ⟨hostMemRd_spec, hostMemWr_spec, memCplReceive_spec, cplTimeout_spec⟩

end Sys2Proof.Machine
end

section
/-!
The statements of 15_boot_security.md: the fuses and the clock over a step, boots and their requests, the firmware slots and the repair
map, fuses and attestation, and the runtime's calls.
-/
namespace Sys2Proof.Machine

/-! ### The image counter (R497) -/

/-- The link ACTIVE, an image of SVN `svn` loaded and the image counter at `counter`. -/
def State.imageLoaded (svn counter : Nat) : State :=
  { State.linkIn 4 .init with
    loaded := some ⟨0, 1, svn, [], [], []⟩
    fuses := { State.reset.fuses with imgCtr := counter } }

theorem State.imageLoaded_inv (svn counter : Nat) : (State.imageLoaded svn counter).Inv :=
  (State.linkIn_inv 4 .init).of_eq rfl rfl rfl rfl rfl

/-- COMMIT_SVN blows the image counter up to the running image's SVN, at most 128, and never down (R497). -/
theorem commitSvn_by_counter :
    (∃ t, exec (.commitSvn 1) (State.imageLoaded 5 3) = .next t ∧ t.fuses.imgCtr = 5) ∧
    (∃ t, exec (.commitSvn 1) (State.imageLoaded 3 5) = .next t ∧ t.fuses.imgCtr = 5) ∧
    (∃ t, exec (.commitSvn 1) (State.imageLoaded 129 5) = .next t ∧ t.fuses.imgCtr = 128) := by
  have commits (svn counter : Nat) (served : (State.imageLoaded svn counter).secServed = true)
      (img : (State.imageLoaded svn counter).on Rg.IMG_STATUS_BUSY = false)
      (sec : (State.imageLoaded svn counter).on Rg.SEC_RESULT_BUSY = false)
      (normal : (State.imageLoaded svn counter).on Rg.SEC_BOOT_STATUS_MODE = false) :
      ∃ t, exec (.commitSvn 1) (State.imageLoaded svn counter) = .next t ∧ t.fuses.imgCtr = max counter (min svn 128) := by
    obtain ⟨t, run, -, image, -⟩ := commitSvn_spec _ (State.imageLoaded_inv svn counter) 1 _ served img sec normal rfl
    exact ⟨t, run, image⟩
  exact ⟨commits 5 3 (by decide) (by decide) (by decide) (by decide),
    commits 3 5 (by decide) (by decide) (by decide) (by decide),
    commits 129 5 (by decide) (by decide) (by decide) (by decide)⟩

/-! ### The statements -/

/-- Settles O6: what every operation keeps (`exec_keeps`, `tick_keeps`) includes that fuses are only blown and that the clock does
not run back, and a step is one operation on the state without its front command. The fuses are R494, R495 and R497, the fuse map
R543 and R544. -/
theorem fusesNeverUnblowClockNeverRunsBack : Obligations.FusesNeverUnblowClockNeverRunsBack := by
  intro s t e
  obtain ⟨M, keeps⟩ := step_keeps e
  exact ⟨keeps.fuses, keeps.now⟩

/-- Settles O12, command by command: the two boots from what a boot leaves (`State.boot_booted`), the three requests from what a
request for the warm reset shows (`State.warmRequest_due`). The stages are R486, recovery R487, the address pins and REF_SEL_N R564,
LAST R550, device time R540 and R524, SEC_BOOT_STATUS R507; that a boot takes no modelled time is assumptions 97 and 124. -/
theorem bootsRunTheModule : Obligations.BootsRunTheModule :=
  ⟨moduleResetRelease_spec, deviceWarmReset_spec, fltResetDeviceWarm_spec, imgActivate_spec, fwActivate_spec⟩

/-- Settles O24, command by command: ERASE and COMMIT from what a noted slot shows (`State.noteFw_reason`), WRITE and the repair from
the read of the host's window (`State.devRead_window`), each result from what the end of a command shows (`State.secDone_shown`). The
firmware commands are R493 and R509, the reasons R496, FLT_REPAIR R543, R544 and R553. That IMG_AT_RISK is written at each passing
FW_COMMIT is assumption 92. -/
theorem firmwareSlotAndRepairCommands : Obligations.FirmwareSlotAndRepairCommands :=
  ⟨fwErase_spec, fwWrite_spec, fwCommit_spec, repairApply_spec⟩

/-- Settles O25, command by command: each runs where SEC commands are served (`State.secCmd_runs`, `State.secLoaded_runs`) and ends
with what `State.secDone_shown` shows. COMMIT_SVN is R497, which the model serves only with an image loaded whatever WHICH names;
FUSE_OWNER is R495, ATTEST R499 and R501, IDCERT R498. -/
theorem fusesAndAttestation : Obligations.FusesAndAttestation :=
  ⟨commitSvn_spec, fuseOwner_spec, attest_spec, idcert_spec⟩

/-- Settles O26, command by command: START from the registers and the core it writes; a call acts on the caller's partition
(`State.Calls.eq`) and returns through `State.sbiRet_self`. START is R502 and R510, the guest's map R503, the calls R505 and R506; the
numbers 0 and -5 in a0 are assumption 102. -/
theorem runtimeStartAndCalls : Obligations.RuntimeStartAndCalls :=
  ⟨partStart_spec, sbiInfo_spec, sbiReloadStatus_spec, sbiFaultInfo_spec, sbiReload_spec, sbiAttest_spec⟩

/-- Settles O27, command by command: JOB_FAULT from the job fault it raises, SRST 0 from the cores it stops, SRST 1 and 2 from the
reset it starts, HART_START and HART_STOP from the cores they write. SRST and HSM are R505, JOB_FAULT R506, CCI_WDOG R504, RUNNING
R510; the numbers 0 and -3 in a0 are assumption 102. -/
theorem runtimeFaultsAndHarts : Obligations.RuntimeFaultsAndHarts :=
  ⟨sbiJobFault_spec, sbiSrst_spec, sbiHsmHartStart_spec, hartStop_spec, cciWdogPet_spec⟩

end Sys2Proof.Machine
end

section
/-!
The statements of 16_power_time.md: the input and the slow-downs, the reference, device time and the cap, core power and the power loop.
-/
namespace Sys2Proof.Machine

/-! ### PPS edges at their limits (R525) -/

/-- The module running with PPS_EN set and WINDOW_US at 100, its clock at half a second and device time at `dev`, held for 7 ns; the last
correction was at `last`. -/
def State.pulsed (dev : Nat) (last : Option Nat) : State :=
  { State.reset.setF Rg.DEV_TIME_CTRL_PPS_EN 1 with phase := .running, now := 500000000, time := ⟨dev, 7, last⟩ }

theorem State.pulsed_inv (dev : Nat) (last : Option Nat) : (State.pulsed dev last).Inv :=
  (State.setF_inv State.reset_inv Rg.DEV_TIME_CTRL_PPS_EN 1).of_eq rfl rfl rfl rfl rfl

theorem State.pulsed_window (dev : Nat) (last : Option Nat) : (State.pulsed dev last).on Rg.DEV_TIME_CTRL_PPS_EN = true ∧
    (State.pulsed dev last).fd Rg.DEV_TIME_CTRL_WINDOW_US * 1000 = 100000 :=
  have on : (State.reset.setF Rg.DEV_TIME_CTRL_PPS_EN 1).on Rg.DEV_TIME_CTRL_PPS_EN = true := by decide
  have window : (State.reset.setF Rg.DEV_TIME_CTRL_PPS_EN 1).fd Rg.DEV_TIME_CTRL_WINDOW_US * 1000 = 100000 := by decide
  ⟨on, window⟩

/-- An edge within the window, half a second after the last correction, advances a device time that is late by the window and holds one
that is early by it, on top of what is held already (R525; assumption 13). -/
theorem ppsEdge_within_window :
    (∃ t, exec (.ppsEdge 50 none) (State.pulsed 999900000 (some 0)) = .next t ∧ t.fd Rg.DEV_PPS_OFFSET_APPLIED = 1 ∧
      t.time.dev = 1000000000 ∧ t.time.hold = 7) ∧
    (∃ t, exec (.ppsEdge 50 none) (State.pulsed 1000100000 (some 0)) = .next t ∧ t.fd Rg.DEV_PPS_OFFSET_APPLIED = 1 ∧
      t.time.dev = 1000100000 ∧ t.time.hold = 100007) := by
  constructor
  · obtain ⟨on, window⟩ := State.pulsed_window 999900000 (some 0)
    obtain ⟨t, run, -, -, -, applies, -⟩ := ppsEdge_spec _ (State.pulsed_inv 999900000 (some 0)) 50 rfl (by decide) none
    obtain ⟨applied, late, -⟩ := applies rfl on (window.symm ▸ by decide) (by decide)
    exact ⟨t, run, applied, late (by decide)⟩
  · obtain ⟨on, window⟩ := State.pulsed_window 1000100000 (some 0)
    obtain ⟨t, run, -, -, -, applies, -⟩ := ppsEdge_spec _ (State.pulsed_inv 1000100000 (some 0)) 50 rfl (by decide) none
    obtain ⟨applied, -, early⟩ := applies rfl on (window.symm ▸ by decide) (by decide)
    exact ⟨t, run, applied, early (by decide)⟩

/-- A nanosecond outside the window, or a nanosecond too near the last correction, nothing of time changes (R525; assumption 83). -/
theorem ppsEdge_rejected :
    (∃ t, exec (.ppsEdge 50 none) (State.pulsed 1000100001 none) = .next t ∧ t.fd Rg.DEV_PPS_OFFSET_APPLIED = 0 ∧
      t.time = ⟨1000100001, 7, none⟩) ∧
    (∃ t, exec (.ppsEdge 50 none) (State.pulsed 1000000000 (some 1)) = .next t ∧ t.fd Rg.DEV_PPS_OFFSET_APPLIED = 0 ∧
      t.time = ⟨1000000000, 7, some 1⟩) := by
  constructor
  · obtain ⟨-, window⟩ := State.pulsed_window 1000100001 none
    obtain ⟨t, run, -, -, -, -, rejects⟩ := ppsEdge_spec _ (State.pulsed_inv 1000100001 none) 50 rfl (by decide) none
    exact ⟨t, run, rejects rfl (.inl (window.symm ▸ by decide))⟩
  · obtain ⟨t, run, -, -, -, -, rejects⟩ := ppsEdge_spec _ (State.pulsed_inv 1000000000 (some 1)) 50 rfl (by decide) none
    exact ⟨t, run, rejects rfl (.inr (by decide))⟩

/-! ### The statements -/

/-- Settles O17, event by event: SAG and CURRENT from the bit each writes, which noting a slow-down's reason leaves
(`State.setReason_fd`, `State.noteCurrent_fd`); the droop detectors from the list of stretched islands. The input's ranges are R511,
CURRENT R517, the droop detectors R519, their times R521. -/
theorem sagCurrentAndDroop : Obligations.SagCurrentAndDroop :=
  ⟨sagDetect_spec, sagClear_spec, currentSlowBegin_spec, currentSlowEnd_spec, droopAssert_spec, droopClear_spec⟩

/-- Settles O18, command by command: the reference, DEV_TIME_SET and the cap from the registers they write; a PPS edge from what it
captures (`State.ppsCapture_shown`) and then corrects or rejects (`State.ppsApply_shown`, `State.ppsApply_time`,
`State.ppsReject_shown`). The cap is R512, the reference R523, device time R524 to R526 and R532, the edges' registers R533. That a
second hold adds to the first is assumption 13, what an ill-timed edge counts as assumption 83. -/
theorem timeAndCapCommands : Obligations.TimeAndCapCommands :=
  ⟨refLost_spec, devTimeSetWrite_spec, pwrCapSetWrite_spec, ppsEdge_spec⟩

/-- Settles O19, event by event: a core's turns from its power state, THERMTRIP by the fold over the cores, POWER_LOOP from the
division of the cap (`classGrants_fit`), which what follows it leaves. The loop is R513, a core's states R516, the 16 starts R518,
THERMTRIP R520, PWR_BUDGET R528. The statement is silent on the job faults that THERMTRIP raises. -/
theorem corePowerAndLoop : Obligations.CorePowerAndLoop :=
  ⟨coreOn_spec, coreRampOnStart_spec, thermtrip_spec, powerLoop_spec⟩

end Sys2Proof.Machine
end

section
/-!
The statements of 17_faults_reset.md: the invariant over a step and at reset, the resets, the watchdogs, the attention key and the
service commands, presence, and the reads of the logs.
-/
namespace Sys2Proof.Machine

/-! ### A full fault log (R551) -/

/-- The module running with a fault log of 256 entries. -/
def State.fullLog : State := { State.reset with phase := .running, fltLog := List.replicate 256 ⟨0, 0, 0⟩ }

theorem State.fullLog_inv : State.fullLog.Inv := { State.reset_inv with fltLog := List.length_replicate.le }

theorem State.fltAdd_full {s : State} (full : 256 ≤ s.fltLog.length) (cls cause part owner fid : Nat) (follows : Bool)
    (detail : Nat) : s.fltAdd cls cause part owner fid follows detail = s.raise Rg.FLT_LOG_STATUS_OVERFLOW :=
  if_neg (by omega)

theorem State.jobsStop_undefined {s : State} (none : ∀ p, s.defined p = false) : s.jobsStop = s :=
  List.foldl_fixed' (fun p => if_neg (by simp [none p])) allParts

/-- A request for the warm reset finds the fault log full: its entry is lost and OVERFLOW is set (R551). -/
theorem fltResetDeviceWarm_full_log : ∃ t, step { State.fullLog with pending := [.fltResetDeviceWarm] } = .next t ∧
    t.fltLog = State.fullLog.fltLog ∧ t.fd Rg.FLT_LOG_STATUS_OVERFLOW = 1 := by
  have stopped : State.fullLog.jobsStop = State.fullLog := State.jobsStop_undefined fun _ => rfl
  have asked : State.fullLog.warmRequest .fltReset =
      { State.fullLog.raise Rg.FLT_LOG_STATUS_OVERFLOW with warmDue := some .fltReset } := by
    rw [← State.fltAdd_full List.length_replicate.ge 13 0 15 15 0 false 0]
    exact congrArg (fun s : State => { s.fltAdd 13 0 15 15 0 false 0 with warmDue := some WarmCause.fltReset }) stopped
  refine ⟨State.fullLog.warmRequest .fltReset, rfl, ?_⟩
  rw [asked]
  exact ⟨rfl, State.fd_raise_self State.fullLog_inv Rg.FLT_LOG_STATUS_OVERFLOW (by decide) (by decide)⟩

/-! ### The key by the duration of the touch -/

/-- The module running in service mode `mode` with the key touched for `ms` milliseconds. -/
def State.touchedFor (mode ms : Nat) : State :=
  { State.reset.setF Rg.SVC_STATE_MODE mode with
    phase := .running
    now := 1000000 * ms
    service := { State.reset.service with touch := some 0 } }

theorem State.touchedFor_inv (mode ms : Nat) : (State.touchedFor mode ms).Inv :=
  (State.setF_inv State.reset_inv Rg.SVC_STATE_MODE mode).of_eq rfl rfl rfl rfl rfl

theorem State.touchedFor_normal (mode ms : Nat) : (State.touchedFor mode ms).fd Rg.SEC_BOOT_STATUS_MODE = 0 :=
  (State.fd_setF_apart State.reset_inv Rg.SVC_STATE_MODE _ mode (RF.apart_addr (by decide))).trans (by decide)

theorem State.touchedFor_unlocked (mode ms : Nat) : (State.touchedFor mode ms).fd Rg.SVC_CFG_LOCK_KEY = 0 :=
  (State.fd_setF_apart State.reset_inv Rg.SVC_STATE_MODE _ mode (RF.apart_addr (by decide))).trans (by decide)

/-- 49 ms do nothing, 50 ms and 1,999 ms are an identify touch, which ends a quiesce, and 2,000 ms and 9,999 ms ask for one (R545). -/
theorem keyRelease_by_duration :
    (∃ t, exec .keyRelease (State.touchedFor 0 49) = .next t ∧ t.fd Rg.SVC_STATE_IDENTIFY = 0 ∧ t.fd Rg.SVC_STATE_MODE = 0) ∧
    (∃ t, exec .keyRelease (State.touchedFor 0 50) = .next t ∧ t.fd Rg.SVC_STATE_IDENTIFY = 1) ∧
    (∃ t, exec .keyRelease (State.touchedFor 1 1999) = .next t ∧ t.fd Rg.SVC_STATE_MODE = 0) ∧
    (∃ t, exec .keyRelease (State.touchedFor 0 2000) = .next t ∧ t.fd Rg.SVC_STATE_MODE = 1) ∧
    (∃ t, exec .keyRelease (State.touchedFor 0 9999) = .next t ∧ t.fd Rg.SVC_STATE_MODE = 1) := by
  have release (mode ms : Nat) := keyRelease_spec _ (State.touchedFor_inv mode ms) 0 ms rfl rfl rfl
    (State.touchedFor_normal mode ms) (State.touchedFor_unlocked mode ms) (Nat.mul_div_cancel_left ms (by decide))
  refine ⟨?short, ?identify, ?ends, ?quiesce, ?longest⟩
  case short =>
    obtain ⟨t, run, -, nothing, -⟩ := release 0 49 (by decide)
    obtain ⟨identify, mode⟩ := nothing (by decide)
    exact ⟨t, run, identify.trans (by decide), mode.trans (by decide)⟩
  case identify =>
    obtain ⟨t, run, -, -, toggles, -⟩ := release 0 50 (by decide)
    exact ⟨t, run, (toggles (by decide) (by decide) (by decide)).trans (by decide)⟩
  case ends =>
    obtain ⟨t, run, -, -, -, resumes, -⟩ := release 1 1999 (by decide)
    exact ⟨t, run, resumes (by decide) (by decide) (by decide) rfl⟩
  case quiesce =>
    obtain ⟨t, run, -, -, -, -, asks⟩ := release 0 2000 (by decide)
    exact ⟨t, run, (asks (by decide) (by decide)).1⟩
  case longest =>
    obtain ⟨t, run, -, -, -, -, asks⟩ := release 0 9999 (by decide)
    exact ⟨t, run, (asks (by decide) (by decide)).1⟩

/-! ### The statements -/

/-- Settles O4: what every operation keeps (`step_keeps`) includes the invariant, which does not speak of the queue. The fault log's
256 entries are R551, the memory log's 64 are 09 R310. -/
theorem everyStepKeepsInvariant : Obligations.EveryStepKeepsInvariant := by
  intro s t inv e
  obtain ⟨M, keeps⟩ := step_keeps e
  exact keeps.inv (inv.of_eq rfl rfl rfl rfl rfl)

/-- Settles O3: at reset every table and both logs are empty. The fault log's 256 entries are R551, the memory log's 64 are 09 R310. -/
theorem resetMeetsInvariant : Obligations.ResetMeetsInvariant :=
  ⟨State.reset_inv, rfl⟩

/-- Settles O8: at reset no register, byte or entry is listed, so each reads as its default. -/
theorem resetStateIsUnpowered : Obligations.ResetStateIsUnpowered :=
  ⟨rfl, fun _ => rfl, rfl, rfl, rfl, rfl, rfl, rfl, rfl, fun _ => rfl, fun _ => rfl⟩

/-- Settles O11, command by command: the three resets from the held state they end in (`State.holdReset_held`), which stopping the
jobs before it does not touch in fuses and flash (`State.jobsStop_same`); POWER_GOOD from its condition. What a reset clears is R540,
its triggers R541, LAST R550, the input's ranges R511, MOD_ALIVE 14 R461. -/
theorem resetsHoldTheModule : Obligations.ResetsHoldTheModule :=
  ⟨coldReset_spec, moduleReset_spec, powerFail_spec, powerGood_spec⟩

/-- Settles O13, command by command: PARTITION_RESET from what the reset leaves (`State.partReset_spec`), the others from the
registers they write and the core's self-test. The states of a partition are R538, the restart R535, what a reset clears R540,
CORE_BUSY R550; that the restart asks for a partition not shut down is assumption 89, that the power state is kept assumption 88. -/
theorem partitionAndCoreResets : Obligations.PartitionAndCoreResets :=
  ⟨partitionReset_spec, partitionResetComplete_spec, fltResetPartition_spec, fltResetCore_spec⟩

/-- Settles O14, watchdog by watchdog: each ends in the one fault of a watchdog (`State.wdogFault_at`), the ring watchdog with what
`State.ringFault_shown` adds of CCH_WDOG, Innkeeper's in the request for a warm reset. The watchdogs are R539, the job fault R535,
the quiesce's timeout R546 and R537, CCH_WDOG 13 R441 and R459. That each of them sets WDOG is assumption 79, the log class of the
quiesce's timeout assumption 99. -/
theorem watchdogsFaultTheirPartition : Obligations.WatchdogsFaultTheirPartition :=
  ⟨ikWdogExpiry_spec, ccWdogExpiry_spec, spillWaitTimeout_spec, pinWaitTimeout_spec, ctlWdogExpiry_spec, ringWdogExpiry_xfer_spec,
    ringWdogExpiry_coll_spec, quiesceTimeout_spec⟩

/-- Settles O20, event by event: the touch and its segments from what they note, the hold from what a force stop does
(`svcForceStop_eff`), the release from the state with the key up (`State.keyLeft_facts`) and then by the duration. The key is R545,
the quiesce R546, the force stop R547; the margins are assumption 99. -/
theorem attentionKey : Obligations.AttentionKey :=
  ⟨keyTouch_spec, keyHoldSegment_spec, keyForceStopHold_spec, keyRelease_spec⟩

/-- Settles O21, command by command: each folds over the partitions, a partition's own turn setting its bits
(`State.quiescePart_self`) or clearing HELD (`State.releasePart_held`), which the others' turns (`State.quiescePart_other`) and the
job faults of the force stop (`State.jobFaultWith_held`) leave; the completions from the mode they set. The quiesce is R546, the
force stop R547, HELD R538. The statement is silent on the job faults of FORCE_STOP and on the HALT bits that RESUME clears. -/
theorem serviceCommands : Obligations.ServiceCommands :=
  ⟨svcQuiesce_spec, svcResume_spec, svcForceStop_spec, quiesceSettled_spec, forceStopComplete_spec⟩

/-- Settles O22, connector by connector, from the registers that a change writes. Presence is R549, its registers R557. Of the cages
the statement speaks of the one that fills; a cage that empties (13 R451) and a cable pulled while the link is up it leaves out. -/
theorem presenceChanges : Obligations.PresenceChanges :=
  ⟨presenceChange_port_spec, presenceChange_larric_spec⟩

/-- Settles O16, read by read: what the read of a log's last head word leaves is one record update. The fault log is R551, the light
bar's patterns R548, the memory log 09 R310 and R311. -/
theorem logReadsRemoveTheOldest : Obligations.LogReadsRemoveTheOldest :=
  ⟨fltLogPop_spec, memLogPop_spec, faultPatternExpiry_spec⟩

end Sys2Proof.Machine
end

section
/-!
The statements of 18_module.md: the management endpoint's MCTP and PLDM commands.
-/
namespace Sys2Proof.Machine

/-! ### The statements -/

/-- Settles O28, command by command: where something serves, a command is its own reply (`State.mgmtCmd_runs`). The dynamic address is
R566, the service R567, MCTP R568; the UUID and the version are opaque by assumption 105, the codes assumption 81. -/
theorem mctpControl : Obligations.MctpControl :=
  ⟨setEndpointId_spec, getEndpointId_spec, getEndpointUuid_spec, getMctpVersionSupport_spec, getMessageTypeSupport_spec,
    i3cDynamicAddress_spec⟩

/-- Settles O29, command by command as O28. The commands are R569; the codes are assumption 81. -/
theorem pldmDiscovery : Obligations.PldmDiscovery :=
  ⟨getTid_spec, setTid_spec, getPldmVersion_spec, getPldmTypes_spec, getPldmCommands_spec⟩

/-- Settles O30, command by command: where Innkeeper serves, a command is its own reply (`State.mgmtFullCmd_runs`), the two SET
commands with the registers they write; the sensors by the fold that takes their values (`find_ins_fold`). The records are R570, the
effecters R571, the FRU table R572, the cap R512; the codes are assumption 81. -/
theorem pldmPlatform : Obligations.PldmPlatform :=
  ⟨getPdrRepositoryInfo_spec, getPdr_spec, getSensorReading_spec, getStateSensorReadings_spec, getNumericEffecterValue_spec,
    setNumericEffecterValue_spec, setStateEffecterStates_spec, setEventReceiver_spec, sensorUpdate_spec,
    getFruRecordTableMetadata_spec, getFruRecordTable_spec⟩

end Sys2Proof.Machine
end
